-- ==== Sys2Proof/Word.lean ====
section
/-! DEFINITION. The word types of the ZK3 Keep (00 Notation: registers are 32 bits wide; the other widths are the
widths the manual's tables give their fields). -/

namespace Sys2Proof

abbrev Byte := BitVec 8
abbrev W16 := BitVec 16
abbrev W32 := BitVec 32
abbrev W64 := BitVec 64
/-- A SHA-384 output, or a P-384 coordinate or signature component, as a big-endian number (R314, R410). -/
abbrev W384 := BitVec 384
/-- A Spire index (R29: 16 bits; 0xFFFF where a rule says so marks none). -/
abbrev SpireIx := BitVec 16
/-- A partition number (R29). -/
abbrev PartIx := BitVec 4

end Sys2Proof
end

