-- ==== Sys2Proof/Machine/Image.lean ====
section
/-! DEFINITION. What a configuration image says (R409). Records whose bits the manual lays out stay bit vectors (contracts R101,
screen records R146, range records R200, plausibility records R201, peals R344) and are read from the image's bytes; the sections it
gives no bit layout are held as their fields (log 8). -/

namespace Sys2Proof

/-- One bound Spire of GEOMETRY and PARTITIONS: its index (R359), its partition (R39), its tile type (R434), and whether
the partition map names it as a spare (R40). -/
structure SpireCfg where
  ix : Nat
  part : Nat
  ttype : Nat
  spare : Bool
  deriving DecidableEq, Repr

/-- One Dome of GEOMETRY: parent Dome, 255 for the Keep (R361), field position and NVM flag (R418). -/
structure DomeCfg where
  parent : Nat
  fx : Nat
  fy : Nat
  nvm : Bool
  deriving DecidableEq, Repr

/-- Per-partition settings of PARTITIONS (R43): weight, engine cap, tracker and queue quotas, Cistern quota in MiB,
Tally quota, STRICT (R253), light trace (R469), DIGEST_SALT (R283), attestation (R288, R313). -/
structure PartCfg where
  weight : Nat
  engCap : Nat
  trkQuota : Nat
  ovfQuota : Nat
  cisMiB : Nat
  talQuota : Nat
  strict : Bool
  traceLight : Bool
  salt : W64
  attEvery : Nat
  attInputLayer : Option W16
  deriving DecidableEq, Repr

/-- The reserve of partition 0 (R44, R386): tracker slots, queue entries, MiB of the Cistern, Tallies. -/
structure ReserveCfg where
  trk : Nat
  ovf : Nat
  cisMiB : Nat
  tal : Nat
  deriving DecidableEq, Repr

/-- One entry of the replica table (R293). -/
structure ReplicaCfg where
  part : Nat
  peerDie : W16
  peerPart : Nat
  ordered : Bool
  deriving DecidableEq, Repr

/-- Timeouts and limits of PARAMETERS for screen, replay, verdicts and recovery. Times are fabric ticks. -/
structure RecovParams where
  smpSalt : W64
  burstTimeout : Nat
  replayTimeout : Nat
  confirmDeadline : Nat
  rerunDeadline : Nat
  watchMin : Nat
  watchPass : Nat
  watchTest : Nat
  sealTimeout : Nat
  rollbackTimeout : Nat
  hangTimeout : Nat
  dumpBudget : Nat
  ldOpen : Nat
  dcmpWait : Nat
  sealWait : Nat
  sealFlagN : Nat
  launchCoord : Bool
  launchPeers : List Nat
  launchLead : Nat
  launchWidth : Nat
  timeCheck : Nat
  ppsMode : BitVec 2
  ppsTol : Nat
  deriving DecidableEq, Repr

/-- Trace, meter, thermal, management and memory areas of PARAMETERS (R466, R469, R477, R487, R517, R520, R526, R537). -/
structure AreaParams where
  tagKeys : Nat
  trcLrate : Nat
  dumpPace : Nat
  period : Nat
  lbistPar : Nat
  sdtBudget : Nat
  repairFuse : Bool
  seamErrMax : Nat
  witRate : Nat
  mgmtMode : Nat
  mgmtAddr : BitVec 7
  i3cMfr : BitVec 15
  nearBase : W64
  nearGiB : Nat
  farBase : W64
  farGiB : Nat
  tdumpFar : Bool
  deriving DecidableEq, Repr

/-- The base addresses and sizes of R537. -/
structure BaseParams where
  oasis : Nat
  nq : Nat
  dlog : Nat
  mlog : Nat
  dump : Nat
  dumpSize : Nat
  trc : Nat
  trcSize : Nat
  tdump : Nat
  tdumpSize : Nat
  tdumpFar : Nat
  deriving DecidableEq, Repr

/-- One golden entry (R434). -/
structure GoldenEntry where
  utype : Nat
  slice : Nat
  maxMs : Nat
  seed : W64
  count : Nat
  sig : W64
  reserved : Bool
  deriving DecidableEq, Repr

/-- The THERMAL section (R448), thresholds in degrees. -/
structure ThermalCfg where
  warn : Nat
  thr2 : Nat
  thr3 : Nat
  trip : Nat
  hyst : Nat
  curve : List Int
  aclkComp : List Int
  deriving DecidableEq, Repr

/-- The BRINGUP section (R417); WAVE_GAP and BAN_WAIT in fabric ticks, versions per port. -/
structure BringupCfg where
  wave : Bool
  waveGap : Nat
  waveMaxD : Nat
  banMand : BitVec 4
  banMin : List Nat
  banMax : List Nat
  banWait : Nat
  bringRetry : Nat
  deriving DecidableEq, Repr

/-- The wrapper of a tile type (R75): the opcodes of WS_BYPASS, WS_EXTEST and the logic self-test instruction, and the lowest bit of
SEED, COUNT, signature, RUNNING and DONE in its data register. -/
structure WrapperCfg where
  ttype : Nat
  wsBypass : Nat
  wsExtest : Nat
  lbist : Nat
  seedPos : Nat
  countPos : Nat
  sigPos : Nat
  runPos : Nat
  donePos : Nat
  deriving DecidableEq, Repr

/-- GEOMETRY: what the instance is built with, as R523 reports it. -/
structure GeomCfg where
  domes : List DomeCfg
  spires : List SpireCfg
  gradeW : Nat
  wports : Nat
  mtaps : Nat
  ltaps : Nat
  banen : Nat
  dieId : W16
  deriving DecidableEq, Repr

/-- The sections that the manual names field by field and lays out nowhere (log 8): GEOMETRY, the tile-set table, PARTITIONS,
PARAMETERS, THERMAL, BRINGUP, WRAPPERS, and the firmware's version. `reservedSeen` says that one of them holds an encoding the manual
marks reserved (R15). -/
structure LooseSections where
  geom : GeomCfg
  tileSets : List (List (Nat × Nat))
  parts : List PartCfg
  reserve : ReserveCfg
  replicas : List ReplicaCfg
  recov : RecovParams
  area : AreaParams
  base : BaseParams
  thermal : ThermalCfg
  bringup : BringupCfg
  wrappers : List WrapperCfg
  zk2 : Bool
  fwMajor : Byte
  fwMinor : Byte
  reservedSeen : Bool
  deriving DecidableEq, Repr

/-- One image: its loose sections, and the records read from its bytes. -/
structure Image where
  geom : GeomCfg
  contracts : List (BitVec 128)
  screens : List W32
  ranges : List W64
  plaus : List W64
  peals : List (BitVec 128)
  tileSets : List (List (Nat × Nat))
  parts : List PartCfg
  reserve : ReserveCfg
  replicas : List ReplicaCfg
  recov : RecovParams
  area : AreaParams
  base : BaseParams
  golden : List GoldenEntry
  thermal : ThermalCfg
  bringup : BringupCfg
  zk2 : Bool
  fwMajor : Byte
  fwMinor : Byte
  licences : List (List Byte)
  wrappers : List WrapperCfg
  reservedSeen : Bool
  deriving DecidableEq, Repr

end Sys2Proof
end

