-- ==== Sys2Proof/Syntax.lean ====
section
/-! DEFINITION. The commands of the block: one constructor per row of the command table, with its operands. Indices of
Spires, Domes, ports, engines, partitions and requesters are natural numbers, whose ranges WellFormed checks; what the
manual gives as bits of a signal or a frame stays a bit vector. -/

namespace Sys2Proof

/-- A beat of the operand or result stream (R50, R58): tag, data, MX scales, end of row. -/
structure Beat where
  tag : W16
  data : BitVec 512
  scl : W32
  last : Bool
  deriving DecidableEq, Repr

/-- A weight-tap beat after the header: WT_SCLBEAT and the data (R79, R80). -/
structure WtBeat where
  scale : Bool
  data : BitVec 512
  deriving DecidableEq, Repr

/-- A memory-tap line (R81): attachment point, MT_WR, MT_ADDR, MT_DATA, MT_BE, MT_TENSOR, MT_PART. -/
structure MtLine where
  point : Nat
  wr : Bool
  addr : BitVec 42
  data : BitVec 512
  be : W64
  tensor : W32
  part : Nat
  deriving DecidableEq, Repr

/-- A collective message at a link tap (R83): tap, header beat, payload beats, LT_DROP, and the fabric tick of its
first beat. -/
structure LtMsg where
  tap : Nat
  hdr : BitVec 512
  payload : List (BitVec 512)
  drop : Bool
  firstTick : W64
  deriving DecidableEq, Repr

/-- The header of an arriving Banen frame (R299), with its port. -/
structure BanHdr where
  port : Nat
  seq : W16
  ackseq : W16
  src : W16
  dst : W16
  fver : Byte
  deriving DecidableEq, Repr

/-- The key of a seal entry (R304). -/
structure SealKey where
  src : W16
  part : Nat
  epoch : W16
  coll : W32
  chunk : W32
  deriving DecidableEq, Repr

/-- The payload of a SEAL frame (R303); the source die is the frame's. -/
structure SealBody where
  key : SealKey
  beats : W32
  digest : W64
  tick : W64
  drop : Bool
  deriving DecidableEq, Repr

/-- The payload of a HELLO frame (R298). -/
structure HelloBody where
  versions : BitVec 3
  arch : Byte
  release : Byte
  dieId : W16
  uid : W64
  nonce : W64
  deriving DecidableEq, Repr

/-- The payload of a TIME frame (R328). -/
inductive TimeBody where
  | ask (t1 : W64) (t2 : W64)
  | answer (t1 t2 t3 t4 : W64)
  | result (offset : W64)
  deriving DecidableEq, Repr

/-- An arriving DIGEST frame's record (R293): the peer's LD record and the mode's fields. -/
structure LdBody where
  part : Nat
  tick : W64
  flags : BitVec 4      -- FORCED, VARIED, INCOMPLETE, REFUSED from bit 0
  era : W16
  layer : W16
  step : W32
  epoch : W16
  spires : Nat
  ops : W32
  rows : W64
  ld : W64
  lrs : W64
  dd : W64
  wd : W64
  id : W64
  varies : W32
  early : W32
  segs : W32
  deriving DecidableEq, Repr

/-- A mesh link by the two routers' LOCAL indices, or a seam group above a Dome in one direction (R363). -/
inductive LinkId where
  | mesh (dome a b : Nat)
  | seam (dome group : Nat) (up : Bool)
  deriving DecidableEq, Repr

/-- What the near or far port answers (R87). -/
inductive RspCode where
  | ok | poison | access | reserved
  deriving DecidableEq, Repr

/-- The host-supplied clocks (R38). -/
inductive HostClk where
  | tclk (spire : Nat)
  | wclk (port : Nat)
  | nclk | fclk | pclk
  deriving DecidableEq, Repr

/-- What discovery reads from the NVM (R403 to R406): signature, major revision, the Basic Flash Parameter Table's place and length in DWORDs,
density in bits, 4-byte addressing; of 8D whether its profile and its sequences are declared, the sequences and the dummy cycles; of Q whether
1-4-4 fast read is declared, the Quad Enable Requirement code and the dummy cycles; the program and erase instructions; and the first 256 bytes of
slot A in modes F, 8D, Q and S. -/
structure SfdpData where
  signature : W32
  major : Byte
  bfptAddr : Nat
  bfptDwords : Nat
  densityBits : Nat
  addr4 : Bool
  xspi : Bool
  seq8d : List (List Byte)
  dummy8d : Nat
  quad : Bool
  qer : Nat
  dummyQ : Nat
  program : Byte
  erase : Byte
  readF : List Byte
  read8d : List Byte
  readQ : List Byte
  readS : List Byte
  deriving DecidableEq, Repr

/-- What the block issues to the NVM (R403 to R406): the software reset pair 0x66, 0x99 in 8D or in 1-1-1 form; an SFDP read by 0x5A with a 3-byte
address and 8 dummy cycles; the sequences that change the device to 8D; what a Quad Enable Requirement code prescribes; a read; an erase
or a program with its instruction, the mode, the address and the length. -/
inductive NvmIns where
  | reset (octal : Bool)
  | sfdp (addr len : Nat)
  | switch (seq : List (List Byte))
  | quadEnable (code : Nat)
  | read (op : W16) (addr dummy len : Nat)
  | erase (op : Byte) (mode addr len : Nat)
  | program (op : Byte) (mode addr len : Nat)
  deriving DecidableEq, Repr

/-- The fuse array's regions by name (R399). -/
structure FuseArray where
  uid : W64
  idkey : W384
  tkeyHash : W384
  ikeyHash0 : W384
  ikeyHash1 : W384
  ikeyRevoke : BitVec 2
  minSvn : W64
  priv : BitVec 120
  licFloor : Byte
  jtagId : BitVec 31
  dbgLock : Bool
  nvmMaxMode : BitVec 2
  trim : List (BitVec 20)
  repair : List W32
  deriving DecidableEq, Repr

/-- One pass over the fuse array (R399): its regions, and the CRC of each in the order of the fuse map. -/
structure FusePass where
  array : FuseArray
  crcs : List W32
  deriving DecidableEq, Repr

/-- One fuse read (R399): two passes. -/
structure FuseRead where
  first : FusePass
  second : FusePass
  deriving DecidableEq, Repr

/-- An image read from one slot (R411, R412): the slot (true for B), whether every read succeeded, the bytes of the image, its
sections without a bit layout as their fields (log 8), and the 256 header bytes of the other slot. -/
structure ImageRead where
  slotB : Bool
  readOk : Bool
  bytes : List Byte
  sections : Option LooseSections
  other : List Byte
  deriving DecidableEq, Repr

/-- The qualification of one seam edge (R362, R419): per direction and group its dwells in order, each with the wires that failed in it and their
bit errors. -/
structure SeamEdge where
  dome : Nat
  up : List (List (List (Nat × Nat)))
  down : List (List (List (Nat × Nat)))
  deriving DecidableEq, Repr

/-- The outcome of a Banen port's pattern and eye test at one version (R420). -/
structure BanQual where
  port : Nat
  version : Nat
  peer : Bool
  locked : Bool
  errors : List Nat
  eyes : List Nat
  hello : Option HelloBody
  deriving DecidableEq, Repr

/-- The kinds of unit that self-test slices run on (R434). -/
inductive TestUnit where
  | tile (spire : Nat)
  | engine (e : Nat)
  deriving DecidableEq, Repr

/-- A requester of registers: partition on the CSR port, or the management bus (R506). -/
inductive Requester where
  | csr (part : Nat)
  | mgmt
  deriving DecidableEq, Repr

/-- A CSR request (R495): address, write data, parity good. -/
structure CsrReq where
  who : Requester
  addr : BitVec 24
  wdata : W32
  tag : BitVec 4
  parityOk : Bool
  deriving DecidableEq, Repr

/-- Firmware's reload of a unit (R509, R510): the unit, and the CSR address of the first register it writes. -/
structure CfgLoad where
  unit : Nat
  addr : BitVec 24
  deriving DecidableEq, Repr

/-- A malformed management transaction (R519): the reason. -/
inductive MgmtFault where
  | command | byteCount | len | addr | pec
  deriving DecidableEq, Repr

/-- The three copies of a word that the Keep-to-Dome line carries over a seam crossing (R364), crossing after crossing; none on the Wadi lane
and in the field sideband. -/
abbrev SideCopies := List (W32 × W32 × W32)

/-- One receiver of a time beacon (R324): its index, by how much its copy has drifted, the cycles that the beacon waited and flew, and the copies
of its word on the way to a Dome. -/
structure BeaconAt where
  ix : Nat
  drift : Int
  waited : Nat
  flight : Nat
  side : SideCopies
  deriving DecidableEq, Repr

/-- One operation of a Spire's checker self-test (R430): in its first run, whether every group was PASS, and whether the SD64 and the checksum
rows were the stored ones; in its second run, the groups found SUSPECT and the group stored for the changed element. -/
structure CheckerOp where
  allPass : Bool
  digests : Bool
  rows : Bool
  suspects : List Nat
  stored : Nat
  deriving DecidableEq, Repr

/-- A Spire's checker self-test (R430): its operations, and whether the witness capture, the range checks and the progress watchdog gave the
stored outcomes. -/
structure CheckerRun where
  ops : List CheckerOp
  capture : Bool
  ranges : Bool
  progress : Bool
  deriving DecidableEq, Repr

/-- R430: three operations, each judged in both its runs, and the three further checks. -/
def CheckerRun.passes (r : CheckerRun) : Bool :=
  r.ops.length == 3 && r.ops.all (fun o => o.allPass && o.digests && o.rows && o.suspects == [o.stored]) && r.capture && r.ranges &&
    r.progress

/-- A logic self-test slice of an engine's test (R431, R437): its signature, none where no DONE came, that of the repeat, its time in µs. -/
structure SliceRes where
  sig : Option W64
  again : Option W64
  us : W32
  deriving DecidableEq, Repr

/-- A replay engine's self-test (R431): of each of its samples the CRC-32C of every output row beside the stored one, the slices that
followed, and the µs that the samples took. -/
structure EngineRun where
  samples : List (List (W32 × W32))
  slices : List SliceRes
  us : W32
  deriving DecidableEq, Repr

/-- R431: six samples of 32 rows, each row's CRC the stored one. -/
def EngineRun.passes (r : EngineRun) : Bool :=
  r.samples.length == 6 && r.samples.all fun l => l.length == 32 && l.all fun x => x.1 == x.2

/-- What a finished slice reports (R433, R437): the checker self-test that a full self-test begins with, and its signature. -/
structure SliceEnd where
  checker : CheckerRun
  sig : W64
  deriving DecidableEq, Repr

/-- The bytes that a Cistern read asks for. -/
structure CisSpan where
  addr : W32
  len : Nat
  deriving DecidableEq, Repr

/-- A flit as it arrives (R363): its bits, its check, and whether it failed before and was requested. -/
structure FlitIn where
  flit : BitVec 128
  crc : Byte
  again : Bool
  deriving DecidableEq, Repr

/-- What step 2 of bring-up finds (R415): the links of Caravan that are down, the loop latencies of the sideband's stages, to each Dome and
from a Dome to each Spire (R324), and the readings of the first thermal sweep, each of a Dome's sensor or a Spire's. -/
structure NetReport where
  downLinks : List LinkId
  domeLoops : List (Nat × Nat)
  spireLoops : List (Nat × Nat)
  sweep : List (Bool × Nat × Nat)
  deriving DecidableEq, Repr

/-- SAMPLE/PRELOAD (R394): what the boundary register takes from the pads, and the values that it is then loaded with. -/
structure Preload where
  sampled : BitVec 32
  drive : BitVec 32
  deriving DecidableEq, Repr

/-- A private manufacturing instruction (R394, R402): its opcode and the fuses that it blows. -/
structure PrivOp where
  op : Byte
  blow : FuseArray
  deriving DecidableEq, Repr

/-- What a Cistern read is for (R381): firmware's fetch or read of the copy it chooses (true for bank 1), a sample's witness, the record at a
place in the drain's order, a sample in the overflow queue, a pending seal entry, the tile digest list of a closed key, a staged line of a
partition's trace ring, a line of the dump that a partition writes next. -/
inductive CisUse where
  | firmware (fetch copy : Bool)
  | witness (uid row : Nat)
  | record (n : Nat)
  | overflow (uid row : Nat)
  | sealEntry (k : SealKey)
  | tileDigests (part : Nat) (epoch era : W16) (step : W32) (layer : W16)
  | trace (part n : Nat)
  | dump (part line : Nat)
  deriving DecidableEq, Repr

/-- The commands. The frame commands carry the copy of one path: the Wadi lane's, or the three copies of the field sideband's wire (R364);
`held` says that Sirocco holds the line written to (R385). MEMORIES brings the self-test reports of the engines and Spires; one that reported
nothing has not passed. -/
inductive Instr where
  -- 02 Tile Tap
  | descriptor (sp : Nat) (d : BitVec 256)
  | operandBeat (sp : Nat) (b : Beat) (injReq : Bool)
  | ttInjReq (sp : Nat)
  | resultBeat (sp : Nat) (b : Beat) (ckrow : Bool)
  | ttResEnd (sp : Nat) (b : Beat) (ckrow : Bool)
  | groupCompare (sp : Nat)
  | burstStall (sp : Nat) (tag : W16) (res : Bool)
  | burstTimeout (sp : Nat) (tag : W16) (res : Bool)
  | ttFenceAck (sp : Nat)
  | fenceAckTimeout (sp : Nat)
  | heartbeatLoss (sp : Nat)
  | ttProgChange (sp : Nat) (gray : W32)
  | ttRstAck (sp : Nat)
  | ttReady (sp : Nat)
  | rstAckTimeout (sp : Nat)
  | readyTimeout (sp : Nat)
  | tileRst (sp : Nat)
  -- weight, memory and link taps
  | weightSegment (port : Nat) (hdr : BitVec 512) (beats : List WtBeat) (drop : Bool)
  | engineRow (eng : Nat)
  | memtapLine (l : MtLine)
  | linkEgressMessage (m : LtMsg)
  | linkIngressMessage (m : LtMsg)
  | sealFrame (h : BanHdr) (b : SealBody)
  | sealWait (k : SealKey)
  -- Cadence and Belfry
  | cadenceWord (w : BitVec 128)
  | ckptOpen (p : Nat)
  | ckptWritten (p : Nat)
  | ckptRead (p : Nat)
  | restoreBegin (p : Nat)
  | restoreEnd (p : Nat)
  | jobStart (p : Nat)
  | belfryTick
  | timerPeal (ix : Nat)
  | countWindowClose (ix : Nat) (key : Nat)
  | countingPealFire (ix : Nat) (key : Nat)
  -- fence frames and tiles
  | fenceFrame (sp : Nat) (f : W32) (side : SideCopies)
  | testOn (sp : Nat) (f : W32) (side : SideCopies)
  | testOff (sp : Nat) (f : W32) (side : SideCopies)
  | deadFrame (sp : Nat) (f : W32) (side : SideCopies)
  | releaseFrame (sp : Nat) (f : W32) (side : SideCopies)
  | retire (sp : Nat) (f : W32) (side : SideCopies)
  | fenceDone (sp : Nat) (fseq : Byte)
  | fenceReissue (sp : Nat)
  | domePoll (dome : Nat) (missed : List Nat)
  | timeBeacon (spires domes : List BeaconAt)
  | progressFrame (dome : Nat) (map : BitVec 256)
  | hangTimeout (sp : Nat)
  | stragglerPeriod (p : Nat)
  -- samples, verdicts, engines
  | sampleNotice (sp : Nat)
  | witnessFragment (sp : Nat)
  | resultCapture (sp : Nat)
  | replayCompare (slot : Nat)
  | replayDeadline (slot : Nat)
  | confirmationDeadline (slot : Nat)
  | arbitration (slot : Nat)
  | engineSelfTest (eng : Nat)
  | engineTestDone (eng : Nat) (r : EngineRun)
  | scrsum (sp : Nat)
  | expprof (sp : Nat)
  | digop (sp : Nat)
  | rerunDeadline (sp : Nat) (stag epoch : W16)
  -- oasis, rollback, hang
  | sealTimeout (p : Nat)
  | rollbackRepost (p : Nat)
  | rollbackTimeout (p : Nat)
  | hangGraphDone (stalled : List (Nat × Nat))
  | hangDumpDone
  | dumpBudget
  | computeReset
  | computeResetDone
  | progressReturnTimeout
  | keepWatchdog
  | recordDrainTimeout
  | keepRestart
  -- Tallies
  | tallyAlloc (who : Requester)
  | add (who : Requester) (t : Nat) (arg : W16)
  | wait (who : Requester) (t : Nat) (arg : W16)
  | unwait (who : Requester) (t : Nat) (arg : W16)
  | free (who : Requester) (t : Nat) (arg : W16)
  | talTargetWrite (who : Requester) (t : Nat) (v : W32)
  -- digests and Banen
  | digest (h : BanHdr) (b : LdBody)
  | dcmpWait (p : Nat) (era : W16) (step : W32) (layer : W16)
  | tdlist (h : BanHdr) (part : Nat) (age : W16 × W16) (step : W32) (layer : W16) (tds : List (W16 × W64))
  | hello (h : BanHdr) (b : HelloBody)
  | ack (h : BanHdr)
  | nak (h : BanHdr) (expected : W16)
  | retransmitTimeout (port : Nat)
  | ackIdle (port : Nat)
  | time (h : BanHdr) (b : TimeBody)
  | timeCheck (port : Nat)
  | launchProp (h : BanHdr) (t : W64) (num : W32)
  | launchAck (h : BanHdr) (num : W32)
  | launchNak (h : BanHdr) (num : W32)
  | launchCommit (h : BanHdr) (num : W32)
  | launchAbort (h : BanHdr) (num : W32)
  | launchCommitDeadline
  | launchTime
  | launchPulseEnd
  | attestationSign (p : Nat)
  -- time
  | timerefLoss
  | timerefRelock
  | holdoverMeasure (ppb : Int)
  | ppsEdge
  | ppsTimeout
  -- Caravan and Cistern
  | flitCrcFail (l : LinkId) (f : FlitIn)
  | backlogReport (sp : Nat) (wit rec bulk : Nat)
  | grantInterval (dome : Nat) (vrate : Nat)
  | cisternRead (use : CisUse) (x : CisSpan)
  | cisternWrite (addr : W32) (data : List (Byte × Bool)) (held : Bool)
  | rowRemap (bank row : Nat)
  | scrubSliceDone
  | fill (who : Option Requester) (bank : Nat)
  | bankTest (who : Option Requester) (bank : Nat) (failLine : Option Nat)
  -- bring-up
  | coldResetNAssert
  | pwrGoodLoss
  | alwaysOnRailLoss
  | coldResetNRelease
  | fuseRead (r : FuseRead)
  | timerefWaitTimeout
  | pllLockTimeout
  | nvmDiscovery (d : SfdpData)
  | imageCheck (r : ImageRead)
  | firmwareStart
  | clocksAndCaravan (taps : List (Nat × BitVec 4)) (net : NetReport)
  | memories (badBanks : List Nat) (engines : List (Nat × EngineRun)) (spires : List (Nat × CheckerRun))
  | seamQualification (edges : List SeamEdge)
  | banenQualification (q : BanQual)
  | banWait (port : Nat)
  | banenRetry (port : Nat)
  | waveRelease
  | ready
  | timerefRelockTimeout
  -- JTAG
  | idcode
  | samplePreload (p : Preload)
  | extest
  | clamp
  | highz
  | bypass (op : Byte)
  | manufacturingTest (p : PrivOp)
  -- self-test, thermal
  | donePoll (u : TestUnit) (done : Bool)
  | sliceDone (u : TestUnit) (r : SliceEnd) (us : W32)
  | sliceTimeout (u : TestUnit)
  | snapshotWrite
  | sdtComplete
  | sensorReading (dome : Bool) (ix : Nat) (count : Nat)
  | levelFall (dome : Bool) (ix : Nat)
  -- observability
  | meterPeriodClose
  | wallClockSet (who : Requester)
  | ergClear (who : Requester)
  | dumpCommand (who : Requester) (w : W32)
  | dumpDone (p : Nat)
  -- registers
  | mbxSelWrite (who : Requester) (sel : BitVec 24)
  | mbxLatchDone (who : Requester)
  | registerWrite (r : CsrReq)
  | aliasWrite (r : CsrReq)
  | keepLockWrite (r : CsrReq)
  | keepHosttagWrite (r : CsrReq)
  | keepUnitEnWrite (r : CsrReq)
  | paritySweep (bad : List (Nat × Nat))
  | configReload (c : CfgLoad)
  | setaddr (addr : BitVec 24) (len : Nat)
  | read
  | write (w : W32)
  | status
  | clockLowTimeout
  | entdaa (dyn : BitVec 7)
  | setdasa (dyn : BitVec 7)
  | rstdaa
  | getpid
  | getbcr
  | getdcr
  | getstatus
  | getmxds
  | test (who : Requester) (w : W32)
  | notidleTimeout (who : Requester)
  | release (who : Requester) (w : W32)
  | shutdown (who : Requester) (w : W32)
  | repairClear (who : Requester) (w : W32)
  -- clocks and ports
  | clockLoss (c : HostClk)
  | npResponse (far : Bool) (tag : Byte) (code : RspCode) (data : BitVec 512)
  | memerrTimeout (far : Bool) (tag : Byte)
  | writeRetry (far : Bool) (tag : Byte)
  | clockReturn (c : HostClk)
  | ttIdleChange (sp : Nat) (idle : Bool)
  | csrRead (r : CsrReq)
  | banenBadFrame (port : Nat)
  | malformedTransaction (f : MgmtFault)
  | ppsAlignTimeout
  deriving DecidableEq, Repr

end Sys2Proof
end

