-- ==== Sys2Proof/Machine/Crc.lean ====
section
/-! DEFINITION. The cyclic checks of R536, the polynomial digest SD64 of R282, and the byte helpers they use (R8). -/

namespace Sys2Proof.Machine

/-- One step of R536's procedure: the register `c` of `w` bits takes the bit `x`. -/
def crcStep (w poly c : Nat) (x : Bool) : Nat :=
  let fb := x != c.testBit (w - 1)
  let d := (c * 2) % 2 ^ w
  if fb then Nat.xor d poly else d

/-- R536: the CRC of a bit list, first bit first; not reflected, no final XOR. -/
def crc (w poly init : Nat) (bits : List Bool) : Nat := bits.foldl (crcStep w poly) init

/-- The low `n` bits of a number, bit 0 first. -/
def bitsOf (n x : Nat) : List Bool := (List.range n).map x.testBit

/-- R536, CRC-16: DCRC, HCRC and CCRC. -/
def crc16 (n x : Nat) : Nat := crc 16 0x1021 0xFFFF (bitsOf n x)
/-- R536, CRC-8: FCRC of the fence frame and the flit check. -/
def crc8 (n x : Nat) : Nat := crc 8 0x07 0 (bitsOf n x)
/-- R536, CRC-7: the fuse repair entries. -/
def crc7 (n x : Nat) : Nat := crc 7 0x09 0 (bitsOf n x)

/-- One bit step of the reflected Castagnoli CRC. -/
def crc32cBit (c : Nat) : Nat := if c.testBit 0 then Nat.xor (c / 2) 0x82F63B78 else c / 2

def crc32cByte (c : Nat) (b : Byte) : Nat :=
  (List.range 8).foldl (fun d _ => crc32cBit d) (Nat.xor c b.toNat)

/-- R536: CRC-32C over bytes, lowest address first; initial value and final XOR all ones. -/
def crc32c (bs : List Byte) : W32 :=
  BitVec.ofNat 32 (Nat.xor (bs.foldl crc32cByte 0xFFFFFFFF) 0xFFFFFFFF)

/-- R8: the `n` little-endian bytes of a number. -/
def leBytes (n x : Nat) : List Byte := (List.range n).map fun i => BitVec.ofNat 8 (x >>> (8 * i))

/-- The number of little-endian bytes. -/
def ofLe (bs : List Byte) : Nat := bs.foldr (fun b a => b.toNat + 256 * a) 0

/-- The number of big-endian bytes (FIPS order, R314). -/
def ofBe (bs : List Byte) : Nat := bs.foldl (fun a b => 256 * a + b.toNat) 0

/-- The `n` big-endian bytes of a number. -/
def beBytes (n x : Nat) : List Byte := (leBytes n x).reverse

/-- R282: the prime 2^64 − 59. -/
def sdP : Nat := 2 ^ 64 - 59

/-- A digest in progress: the polynomial value, the bytes of the word not yet complete, and the length so far. -/
structure Sd where
  h : Nat
  tail : List Byte
  len : Nat
  deriving DecidableEq, Repr

def Sd.empty : Sd := ⟨0, [], 0⟩

/-- One 32-bit word enters the polynomial (R282). -/
def sdWord (k h w : Nat) : Nat := (h * k + w) % sdP

def sdPushByte (k : Nat) (d : Sd) (b : Byte) : Sd :=
  if d.tail.length = 3 then ⟨sdWord k d.h (ofLe (d.tail ++ [b])), [], d.len + 1⟩
  else ⟨d.h, d.tail ++ [b], d.len + 1⟩

/-- The bytes of a string enter a digest in order. -/
def sdPush (k : Nat) (d : Sd) (bs : List Byte) : Sd := bs.foldl (sdPushByte k) d

/-- R282: pads the last word, enters the length and cubes. -/
def sdFinish (k : Nat) (d : Sd) : W64 :=
  let h := if d.tail.isEmpty then d.h else sdWord k d.h (ofLe d.tail)
  let g := (h * k + d.len) % sdP
  BitVec.ofNat 64 (g * g % sdP * g % sdP)

/-- R282: SD64 of a byte string under the key `k`. -/
def sd64 (k : Nat) (bs : List Byte) : W64 := sdFinish k (sdPush k Sd.empty bs)

/-- R283: the key derived from a 64-bit value. -/
def sdKey (v : Nat) : Nat := 2 + v % (sdP - 2)

end Sys2Proof.Machine
end

