-- ==== Sys2Proof/Config.lean ====
section
/-! DEFINITION. What an implementation fixes and what the manual leaves open. An opaque constant is a free value: nothing can
evaluate it, so a statement holds for every value of it. -/

namespace Sys2Proof.Config

/-- The Keep's random generator (R249, R283, R298, R315), by the draw's number (State.rng; log 5). -/
opaque random : Nat → W64

/-- TCLK cycles an operation was open (R465) and other cycle counts of a host clock, which no command carries, by the number
of the draw (log 5). -/
opaque cycles : Nat → W64

/-- R460, R465: the TCLK cycles of a Spire between two fabric ticks, which no command carries (log 5). -/
opaque tclkCycles : Nat → W64 → W64 → W64

/-- R425: the µs that a step of bring-up took, measured on ACLK, by its number and the fabric ticks at which it began and ended: ACLK is no
clock that a command carries (log 5). -/
opaque aclkUs : Nat → W64 → W64 → W32

/-- Values the manual states no result or layout for, by the number of the draw (log 5). -/
opaque unstated : Nat → W64

/-- R366: one less than the credits that a Spire's uplink holds of a class, which the manual gives for WADI alone (R370). -/
opaque hopCredits : Nat → Nat

/-- R460: the bytes of a message whose layout the manual does not give: a notice, the end of an abandoned sample, a DIGOP (log 5). -/
opaque msgBytes : Nat → Nat

/-- R394: the cell of the boundary register that drives an output pad, which the integrator's description gives. -/
opaque boundaryCell : Nat → Nat

/-- R522: the identity constants. -/
def arch : Byte := 0x03
def product : Byte := 0x03
def family : W16 := 0x5A4B
def release : Byte := 0x32

/-- R523: engines built, tracker slots, queue entries, Tallies, peals, contracts, banks. -/
def engBuilt : Nat := 64
def trackers : Nat := 4096
def ovfEntries : Nat := 1024
def tallies : Nat := 8192
def peals : Nat := 4096
def contracts : Nat := 64
def banks : Nat := 32

/-- R529: the partitions. -/
def parts : Nat := 16

end Sys2Proof.Config
end

