-- ==== Sys2Proof/Machine/Num.lean ====
section
/-! DEFINITION. Exact numbers, the host number formats of R94 to R98, and the one rounding operation (R104).
A finite number is `±m × 2^e` exactly; nothing here rounds except `roundTo`. -/

namespace Sys2Proof.Machine

/-- An exact value: a finite dyadic number with its sign (zero has one too), an infinity, or NaN. -/
inductive XVal where
  | fin (neg : Bool) (m : Nat) (e : Int)
  | inf (neg : Bool)
  | nan
  deriving DecidableEq, Repr

/-- The 16 format codes of R94. -/
inductive Fmt where
  | int4 | int8 | int32 | e4m3 | e5m2 | b16 | bf16 | b32
  | b64 | mxE4m3 | mxE5m2 | mxE3m2 | mxE2m3 | mxE2m1 | mxInt8 | opq
  deriving DecidableEq, Repr

/-- R94: the format of a 4-bit code. -/
def fmtOf (c : BitVec 4) : Fmt :=
  match c.toNat with
  | 0 => .int4 | 1 => .int8 | 2 => .int32 | 3 => .e4m3 | 4 => .e5m2 | 5 => .b16 | 6 => .bf16 | 7 => .b32
  | 8 => .b64 | 9 => .mxE4m3 | 10 => .mxE5m2 | 11 => .mxE3m2 | 12 => .mxE2m3 | 13 => .mxE2m1 | 14 => .mxInt8
  | _ => .opq

/-- The code of a format (R94). -/
def fmtCode : Fmt → BitVec 4
  | .int4 => 0 | .int8 => 1 | .int32 => 2 | .e4m3 => 3 | .e5m2 => 4 | .b16 => 5 | .bf16 => 6 | .b32 => 7
  | .b64 => 8 | .mxE4m3 => 9 | .mxE5m2 => 10 | .mxE3m2 => 11 | .mxE2m3 => 12 | .mxE2m1 => 13 | .mxInt8 => 14
  | .opq => 15

/-- R97: the MX formats are the codes 0x9 to 0xE. -/
def isMx : Fmt → Bool
  | .mxE4m3 | .mxE5m2 | .mxE3m2 | .mxE2m3 | .mxE2m1 | .mxInt8 => true
  | _ => false

/-- The integer formats of R94 (INT4, INT8, INT32). -/
def isInt : Fmt → Bool
  | .int4 | .int8 | .int32 => true
  | _ => false

/-- R94: width in bits of one element code (OPAQUE has none and is 0 here). -/
def fmtWidth : Fmt → Nat
  | .int4 => 4 | .int8 => 8 | .int32 => 32 | .e4m3 => 8 | .e5m2 => 8 | .b16 => 16 | .bf16 => 16 | .b32 => 32
  | .b64 => 64 | .mxE4m3 => 8 | .mxE5m2 => 8 | .mxE3m2 => 6 | .mxE2m3 => 6 | .mxE2m1 => 4 | .mxInt8 => 8
  | .opq => 0

/-- How a format codes its special values (R94, the columns Inf and NaN). -/
inductive Special where
  | ieee      -- Inf and NaN at the all-ones exponent
  | e4m3      -- no Inf, NaN at S.1111.111
  | none      -- neither
  deriving DecidableEq, Repr

/-- A floating element layout: exponent bits, mantissa bits, bias (R94). -/
structure FPar where
  eb : Nat
  mb : Nat
  bias : Nat
  special : Special
  deriving DecidableEq, Repr

/-- R94: the layout of the floating formats, element layout for MX; none for the integer formats and OPAQUE. -/
def fpar : Fmt → Option FPar
  | .e4m3 | .mxE4m3 => some ⟨4, 3, 7, .e4m3⟩
  | .e5m2 | .mxE5m2 => some ⟨5, 2, 15, .ieee⟩
  | .b16 => some ⟨5, 10, 15, .ieee⟩
  | .bf16 => some ⟨8, 7, 127, .ieee⟩
  | .b32 => some ⟨8, 23, 127, .ieee⟩
  | .b64 => some ⟨11, 52, 1023, .ieee⟩
  | .mxE3m2 => some ⟨3, 2, 3, .none⟩
  | .mxE2m3 => some ⟨2, 3, 1, .none⟩
  | .mxE2m1 => some ⟨2, 1, 1, .none⟩
  | _ => none

/-- `floor (log2 x)` of a non-zero magnitude `m × 2^e`. -/
def ilog2 (m : Nat) (e : Int) : Int := (Nat.log2 m : Int) + e

/-- `m × 2^k` for a natural `m`, exact for `k ≥ 0`, else the floor. -/
def shiftFloor (m : Nat) (k : Int) : Nat :=
  if 0 ≤ k then m <<< k.toNat else m >>> (-k).toNat

/-- `floor (±m × 2^e / 2^l)`, toward minus infinity (R120). -/
def floorTo (neg : Bool) (m : Nat) (e l : Int) : Int :=
  let k := e - l
  if 0 ≤ k then (if neg then -((m <<< k.toNat : Nat) : Int) else ((m <<< k.toNat : Nat) : Int))
  else
    let q := m >>> (-k).toNat
    let exact := q <<< (-k).toNat == m
    if neg then (if exact then -(q : Int) else -(q : Int) - 1) else (q : Int)

/-- The rounding modes of R101: RNE, RTZ, RDN, RUP, RNA, STOCHASTIC. -/
inductive Rm where
  | rne | rtz | rdn | rup | rna | stoch
  deriving DecidableEq, Repr

/-- R101 word 2: the rounding mode of a 3-bit field; 6 and 7 are reserved and pass no image check. -/
def rmOf (c : BitVec 3) : Rm :=
  match c.toNat with
  | 0 => .rne | 1 => .rtz | 2 => .rdn | 3 => .rup | 4 => .rna | _ => .stoch

/-- Whether a magnitude with quotient `q`, remainder `r` of `2^k` rounds away from zero. STOCHASTIC rounds as RNE
(R104: the reference of an operation under STOCHASTIC rounding rounds with RNE). -/
def roundAway (rm : Rm) (neg : Bool) (q r half : Nat) : Bool :=
  match rm with
  | .rne | .stoch => r > half || (r == half && q % 2 == 1)
  | .rna => r ≥ half && r != 0
  | .rtz => false
  | .rdn => neg && r != 0
  | .rup => !neg && r != 0

/-- `m × 2^e` as an integer multiple of `2^q`, rounded by `rm`. -/
def roundQuantum (rm : Rm) (neg : Bool) (m : Nat) (e q : Int) : Nat :=
  if q ≤ e then m <<< (e - q).toNat
  else
    let k := (q - e).toNat
    let quo := m >>> k
    let r := m - (quo <<< k)
    if roundAway rm neg quo r (1 <<< (k - 1)) then quo + 1 else quo

/-- Largest exponent of a finite normal value (R94). -/
def emaxOf (f : FPar) : Int :=
  match f.special with
  | .ieee => ((2 ^ f.eb - 2 : Nat) : Int) - f.bias
  | _ => ((2 ^ f.eb - 1 : Nat) : Int) - f.bias

/-- Smallest exponent of a normal value. -/
def eminOf (f : FPar) : Int := 1 - (f.bias : Int)

/-- Largest finite magnitude as `m × 2^e` (R94; E4M3 leaves its top code to NaN). -/
def maxFin (f : FPar) : Nat × Int :=
  match f.special with
  | .e4m3 => (2 ^ (f.mb + 1) - 2, emaxOf f - f.mb)
  | _ => (2 ^ (f.mb + 1) - 1, emaxOf f - f.mb)

/-- `a × 2^ea > b × 2^eb` on magnitudes. -/
def magGt (a : Nat) (ea : Int) (b : Nat) (eb : Int) : Bool :=
  if ea ≤ eb then decide (a > b <<< (eb - ea).toNat) else decide (a <<< (ea - eb).toNat > b)

/-- How overflow is answered: the IEEE result for the rounding in use (R104), or the largest finite value (R101 OVF_OUT). -/
inductive Ovf where
  | ieee | saturate
  deriving DecidableEq, Repr

/-- R104: whether overflow under `rm` gives Inf for a result of this sign (else the largest finite value). -/
def ovfToInf (rm : Rm) (neg : Bool) : Bool :=
  match rm with
  | .rne | .rna | .stoch => true
  | .rtz => false
  | .rdn => neg
  | .rup => !neg

/-- R104 with FTZ and FZ_SIGN: round a value into a floating layout; Inf of a format without Inf is NaN. -/
def roundTo (f : FPar) (rm : Rm) (ovf : Ovf) (ftz fzPos : Bool) : XVal → XVal
  | .nan => .nan
  | .inf n => if f.special = .ieee then .inf n else .nan
  | .fin n 0 _ => .fin n 0 0
  | .fin n m e =>
    let q := max (ilog2 m e) (eminOf f) - f.mb
    let r := roundQuantum rm n m e q
    let big := maxFin f
    if magGt r q big.1 big.2 then
      match ovf with
      | .saturate => .fin n big.1 big.2
      | .ieee => if ovfToInf rm n then (if f.special = .ieee then .inf n else .nan) else .fin n big.1 big.2
    else if r = 0 then .fin n 0 0
    else if ftz && decide (ilog2 r q < eminOf f) then .fin (n && !fzPos) 0 0
    else .fin n r q

/-- Exact product. `0 × Inf` is NaN. -/
def xmul : XVal → XVal → XVal
  | .nan, _ => .nan
  | _, .nan => .nan
  | .inf a, .inf b => .inf (xor a b)
  | .inf a, .fin b m _ => if m = 0 then .nan else .inf (xor a b)
  | .fin a m _, .inf b => if m = 0 then .nan else .inf (xor a b)
  | .fin a m e, .fin b n f => .fin (xor a b) (m * n) (e + f)

/-- A finite value as a signed integer at exponent `g ≤ e`. -/
def alignTo (neg : Bool) (m : Nat) (e g : Int) : Int :=
  let v : Int := ((m <<< (e - g).toNat : Nat) : Int)
  if neg then -v else v

/-- Exact sum; a zero sum has the sign R104 gives (−0 only when both are −0, or under RDN when they differ). -/
def xadd (rm : Rm) : XVal → XVal → XVal
  | .nan, _ => .nan
  | _, .nan => .nan
  | .inf a, .inf b => if a = b then .inf a else .nan
  | .inf a, .fin .. => .inf a
  | .fin .., .inf b => .inf b
  | .fin a m e, .fin b n f =>
    let g := min e f
    let s := alignTo a m e g + alignTo b n f g
    if s = 0 then
      if m = 0 ∧ n = 0 ∧ a = b then .fin a 0 0 else .fin (rm == .rdn) 0 0
    else .fin (decide (s < 0)) s.natAbs g

def xabs : XVal → XVal
  | .fin _ m e => .fin false m e
  | .inf _ => .inf false
  | .nan => .nan

/-- A finite value as a rational (0 for Inf and NaN, which no caller asks for). -/
def xrat : XVal → Rat
  | .fin n m e =>
    let v : Rat := if 0 ≤ e then ((m <<< e.toNat : Nat) : Rat) else mkRat (m : Int) (1 <<< (-e).toNat)
    if n then -v else v
  | _ => 0

def isFin : XVal → Bool
  | .fin .. => true
  | _ => false

/-- Two's-complement value of a `w`-bit code. -/
def signedOf (w code : Nat) : Int :=
  if code < 2 ^ (w - 1) then (code : Int) else (code : Int) - (2 ^ w : Nat)

/-- Decode an element code of a floating layout (R95). -/
def decodeFloat (f : FPar) (code : Nat) : XVal :=
  let neg := code / 2 ^ (f.eb + f.mb) % 2 == 1
  let ex := code / 2 ^ f.mb % 2 ^ f.eb
  let mn := code % 2 ^ f.mb
  let top := 2 ^ f.eb - 1
  if f.special = .ieee ∧ ex = top then (if mn = 0 then .inf neg else .nan)
  else if f.special = .e4m3 ∧ ex = top ∧ mn = 2 ^ f.mb - 1 then .nan
  else if ex = 0 then .fin neg mn (eminOf f - f.mb)
  else .fin neg (2 ^ f.mb + mn) ((ex : Int) - f.bias - f.mb)

/-- R94, R97: the value of an element code, times its block scale `2^(X − 127)` for an MX format;
X = 0xFF marks NaN. OPAQUE is never decoded (R96) and reads as zero. -/
def decodeElem (f : Fmt) (code : Nat) (scale : Byte) : XVal :=
  let intv (w : Nat) (e : Int) : XVal :=
    let v := signedOf w code
    .fin (decide (v < 0)) v.natAbs e
  match f with
  | .int4 => intv 4 0
  | .int8 => intv 8 0
  | .int32 => intv 32 0
  | .opq => .fin false 0 0
  | _ =>
    let base : XVal := if f = .mxInt8 then intv 8 (-6) else
      match fpar f with
      | some p => decodeFloat p code
      | none => .fin false 0 0
    if isMx f then
      if scale = 0xFF then .nan
      else match base with
        | .fin n m e => .fin n m (e + (scale.toNat : Int) - 127)
        | v => v
    else base

/-- R105: whether an element code is subnormal in its element layout (integer formats never are). -/
def isSubnormalCode (f : Fmt) (code : Nat) : Bool :=
  match fpar f with
  | some p => code / 2 ^ p.mb % 2 ^ p.eb == 0 && code % 2 ^ p.mb != 0
  | none => false

/-- R105: decode an input element under the contract's DAZ and FZ_SIGN. -/
def decodeInput (f : Fmt) (daz fzPos : Bool) (code : Nat) (scale : Byte) : XVal :=
  match decodeElem f code scale with
  | .fin n m e => if daz && isSubnormalCode f code then .fin (n && !fzPos) 0 0 else .fin n m e
  | v => v

/-- R106: the canonical quiet NaN code of a floating layout (0x7F for E4M3; 0 where the layout has no NaN code, R110). -/
def canonNan (f : FPar) : Nat :=
  match f.special with
  | .ieee => (2 ^ f.eb - 1) * 2 ^ f.mb + 2 ^ (f.mb - 1)
  | .e4m3 => 2 ^ (f.eb + f.mb) - 1
  | .none => 0

/-- The code of a value that the layout holds exactly. -/
def encodeFloat (f : FPar) : XVal → Nat
  | .nan => canonNan f
  | .inf n => (if n then 2 ^ (f.eb + f.mb) else 0) + (2 ^ f.eb - 1) * 2 ^ f.mb
  | .fin n m e =>
    let s := if n then 2 ^ (f.eb + f.mb) else 0
    if m = 0 then s
    else
      let ex := ilog2 m e
      if ex < eminOf f then s + shiftFloor m (e - (eminOf f - f.mb))
      else
        let frac := shiftFloor m (e - (ex - f.mb))
        s + (ex + f.bias).toNat * 2 ^ f.mb + (frac - 2 ^ f.mb)

/-- R106 FIRST: the quieted NaN of an input code of format `src`, its mantissa cut to the top bits of layout `f`. An MX element that is
NaN only by scale 0xFF gives its raw code's sign and mantissa, an MXINT8 element the canonical NaN (DESIGN CHOICE, log 83). -/
def quietedNan (f : FPar) (src : Fmt) (code : Nat) : Nat :=
  match fpar src, f.special with
  | some p, .ieee =>
    let neg := code / 2 ^ (p.eb + p.mb) % 2 == 1
    let pay := code % 2 ^ p.mb ||| 2 ^ (p.mb - 1)
    let cut := if p.mb ≤ f.mb then pay <<< (f.mb - p.mb) else pay >>> (p.mb - f.mb)
    (if neg then 2 ^ (f.eb + f.mb) else 0) + (2 ^ f.eb - 1) * 2 ^ f.mb + cut
  | some p, .e4m3 =>
    (if code / 2 ^ (p.eb + p.mb) % 2 == 1 then 2 ^ (f.eb + f.mb) else 0) + 2 ^ (f.eb + f.mb) - 1
  | _, _ => canonNan f

/-- R110, R132: exponent of the element format's largest normal value. -/
def eElem : Fmt → Int
  | .mxE4m3 | .e4m3 => 8
  | .mxE5m2 | .e5m2 => 15
  | .mxE3m2 => 4
  | .mxE2m3 | .mxE2m1 => 2
  | _ => 0

/-- `v / 2^(X − 127)`. -/
def unscale (v : XVal) (x : Byte) : XVal :=
  match v with
  | .fin n m e => .fin n m (e - (x.toNat : Int) + 127)
  | w => w

/-- R110: convert one value (already divided by the block scale) into an MX element code; values out of range take the
largest finite value, MXINT8 is held to ±127/64, and an infinity becomes Inf only in E5M2. FTZ_OUT and FZ_SIGN apply to the element, which
R110's bullet for MX does not say (DESIGN CHOICE, log 83). -/
def encodeMxElem (f : Fmt) (rm : Rm) (ftz fzPos : Bool) (v : XVal) : Nat :=
  match f with
  | .mxInt8 =>
    match v with
    | .fin n m e =>
      let q := min (roundQuantum rm n m e (-6)) 127
      if n then (256 - q) % 256 else q
    | .inf n => if n then 129 else 127
    | .nan => 0
  | _ =>
    match fpar f with
    | none => 0
    | some p =>
      match v with
      | .inf n =>
        if p.special = .ieee then encodeFloat p (.inf n) else
          let big := maxFin p
          encodeFloat p (.fin n big.1 big.2)
      | w => encodeFloat p (roundTo p rm .saturate ftz fzPos w)

/-- Largest finite magnitude of a block as an exponent `floor (log2 m)`, none when no finite element is non-zero. -/
def blockExp (vs : List XVal) : Option Int :=
  vs.foldl (fun acc v =>
    match v with
    | .fin _ m e => if m = 0 then acc else
        match acc with
        | none => some (ilog2 m e)
        | some a => some (max a (ilog2 m e))
    | _ => acc) none

/-- R110, R132: the block scale `floor (log2 m) − e_elem + adj + 127`, clamped to 0 to 254; 0 for an all-zero block. -/
def blockScale (f : Fmt) (adj : Int) (vs : List XVal) : Byte :=
  match blockExp vs with
  | none => 0
  | some x => BitVec.ofInt 8 (max 0 (min 254 (x - eElem f + adj + 127)))

/-- Exact value `x` as a rational power of two. -/
def pow2 (k : Int) : Rat := if 0 ≤ k then ((2 ^ k.toNat : Nat) : Rat) else mkRat 1 (2 ^ (-k).toNat)

/-- `floor (log2 x)` of a positive rational. -/
def ratLog2 (x : Rat) : Int :=
  let k : Int := (Nat.log2 x.num.natAbs : Int) - (Nat.log2 x.den : Int)
  if pow2 k ≤ x then k else k - 1

/-- Round a non-negative rational upward to a `p`-bit significand (R147, R150). -/
def ceilSig (p : Nat) (x : Rat) : Rat :=
  if x ≤ 0 then 0
  else
    let q := ratLog2 x - (p : Int) + 1
    ((x / pow2 q).ceil : Rat) * pow2 q

/-- binary64 bits of a rational, rounded to nearest even or (for `up`) upward; +Inf or −Inf on overflow (R160). -/
def ratToB64 (up : Bool) (x : Rat) : W64 :=
  if x = 0 then 0
  else
    let neg := decide (x < 0)
    let a := if neg then -x else x
    let q := max (ratLog2 a) (-1022) - 52
    let s := a / pow2 q
    let fl := s.floor
    let r := s - (fl : Rat)
    let half : Rat := mkRat 1 2
    let away := if up then (!neg && decide (0 < r)) else (decide (half < r) || (decide (r = half) && decide (fl % 2 = 1)))
    let m : Nat := (if away then fl + 1 else fl).natAbs
    let mx : Nat × Int := (2 ^ 53 - 1, 971)
    let v : XVal := if magGt m q mx.1 mx.2 then .inf neg else .fin neg m q
    BitVec.ofNat 64 (encodeFloat ⟨11, 52, 1023, .ieee⟩ v)

/-- +Inf as binary64. -/
def b64Inf : W64 := 0x7FF0000000000000

end Sys2Proof.Machine
end

