-- ==== Sys2Proof/Machine/Contract.lean ====
section
/-! DEFINITION. Arithmetic contracts: the record of R101, the reduction of R103 to R110, exact mode (R113, R114, R187),
and the coefficients that the screen takes from a contract (R143 to R147, R195). -/

namespace Sys2Proof.Machine

/-- Bits `[lo + len − 1 : lo]` of a word, as a number. -/
def fld {w : Nat} (x : BitVec w) (lo len : Nat) : Nat := (x.toNat >>> lo) % 2 ^ len

/-- Bit `i` of a word. -/
def bitOf {w : Nat} (x : BitVec w) (i : Nat) : Bool := x.getLsbD i

/-- A contract record of 128 bits (R101). -/
abbrev Contract := BitVec 128

def ctrValid (c : Contract) : Bool := bitOf c 8
def ctrVaryAlways (c : Contract) : Bool := bitOf c 9
def ctrAcc (c : Contract) : Fmt := fmtOf (BitVec.ofNat 4 (fld c 12 4))
def ctrProdRound (c : Contract) : Bool := fld c 16 2 == 1
/-- 0 SEQ, 1 EXACT_CHUNK, 2 PAIR. -/
def ctrLeaf (c : Contract) : Nat := fld c 18 2
def ctrCombineLinear (c : Contract) : Bool := bitOf c 20
def ctrBlocked (c : Contract) : Bool := bitOf c 21
def ctrChunk (c : Contract) : Nat := fld c 32 16 + 1
def ctrWidth (c : Contract) : Nat := fld c 48 11
def ctrRndAcc (c : Contract) : Rm := rmOf (BitVec.ofNat 3 (fld c 64 3))
def ctrRndOut (c : Contract) : Rm := rmOf (BitVec.ofNat 3 (fld c 67 3))
def ctrDaz (c : Contract) : Bool := bitOf c 70
def ctrFtzAcc (c : Contract) : Bool := bitOf c 71
def ctrFtzOut (c : Contract) : Bool := bitOf c 72
def ctrFzPos (c : Contract) : Bool := bitOf c 73
def ctrNanFirst (c : Contract) : Bool := fld c 74 2 == 1
def ctrOvf (c : Contract) : Ovf := if fld c 76 2 = 1 then .saturate else .ieee
def ctrMx (c : Contract) : Bool := fld c 78 2 != 0
def ctrMxInner32 (c : Contract) : Bool := bitOf c 80
def ctrScaleHost (c : Contract) : Bool := bitOf c 81
def ctrVbMul (c : Contract) : Nat := fld c 96 8
def ctrVbExp (c : Contract) : Nat := fld c 104 8
def ctrVbUlp (c : Contract) : Nat := fld c 112 8
def ctrVbLog (c : Contract) : Bool := bitOf c 120

/-- R117: the resolved logical width; WIDTH 0 takes the grade width. -/
def resolvedWidth (c : Contract) (gradeW : Nat) : Nat := if ctrWidth c = 0 then gradeW else ctrWidth c

/-- The classes of R99 (SCRSUM word 3 codes: 0 Integer, 1 Float, 2 Float64, 3 MX). -/
inductive OpClass where
  | integer | float | float64 | mx
  deriving DecidableEq, Repr

def classCode : OpClass → Nat
  | .integer => 0 | .float => 1 | .float64 => 2 | .mx => 3

def isFloatA : Fmt → Bool
  | .e4m3 | .e5m2 | .b16 | .bf16 | .b32 => true
  | _ => false

/-- Codes 0x3 to 0xE. -/
def isFloatC : Fmt → Bool
  | .int4 | .int8 | .int32 | .opq => false
  | _ => true

/-- R99: the class of a format combination, none when the table of valid combinations does not hold it. -/
def comboClass (a b c acc : Fmt) : Option OpClass :=
  if (a = .int4 ∨ a = .int8) ∧ (b = .int4 ∨ b = .int8) then
    (if acc = .int32 ∧ c = .int32 then some .integer else none)
  else if isFloatA a ∧ isFloatA b then
    (if (acc = .b16 ∨ acc = .bf16 ∨ acc = .b32 ∨ acc = .b64) ∧ isFloatC c then some .float else none)
  else if a = .b64 ∧ b = .b64 then
    (if acc = .b64 ∧ (c = .b32 ∨ c = .b64) then some .float64 else none)
  else if isMx a ∧ isMx b then
    (if (acc = .bf16 ∨ acc = .b32) ∧ isFloatC c then some .mx else none)
  else none

/-- R99: the contract requirement of a class. -/
def classMeets (k : OpClass) (c : Contract) : Bool :=
  match k with
  | .mx => ctrMx c && ctrChunk c % 32 == 0
  | _ => !ctrMx c

/-- The accumulator layout (INT32 has none; the Integer class never rounds). -/
def accPar (c : Contract) : FPar := (fpar (ctrAcc c)).getD ⟨8, 23, 127, .ieee⟩

/-- R104: one rounding into ACC_FMT. -/
def roundAcc (c : Contract) (v : XVal) : XVal :=
  roundTo (accPar c) (ctrRndAcc c) .ieee (ctrFtzAcc c) (ctrFzPos c) v

/-- R108 add_acc: exact sum, rounded once into ACC_FMT. -/
def addAcc (c : Contract) (x y : XVal) : XVal := roundAcc c (xadd (ctrRndAcc c) x y)

/-- Exact sum of a list, in order. -/
def xsum (rm : Rm) (l : List XVal) : XVal :=
  match l with
  | [] => .fin false 0 0
  | x :: xs => xs.foldl (xadd rm) x

/-- Cut a list into pieces of `n` elements (`fuel` bounds the pieces). -/
def chunksOf {α : Type} (n : Nat) : Nat → List α → List (List α)
  | 0, _ => []
  | fuel + 1, l =>
    match l with
    | [] => []
    | _ => l.take n :: chunksOf n fuel (l.drop n)

/-- R108 term: the terms of a dot product from exact products. -/
def dotTerms (c : Contract) (prods : List XVal) : List XVal :=
  if ctrMx c then
    (chunksOf 32 prods.length prods).map fun blk =>
      let s := xsum (ctrRndAcc c) blk
      if ctrMxInner32 c then roundTo ⟨8, 23, 127, .ieee⟩ (ctrRndAcc c) .ieee (ctrFtzAcc c) (ctrFzPos c) s else s
  else if ctrProdRound c then prods.map (roundAcc c) else prods

/-- One level of a balanced pairwise tree. -/
def pairLevel (add : XVal → XVal → XVal) : List XVal → List XVal
  | a :: b :: rest => add a b :: pairLevel add rest
  | l => l

/-- A balanced pairwise tree over a power-of-two list (`fuel` levels). -/
def pairTree (add : XVal → XVal → XVal) : Nat → List XVal → XVal
  | 0, l => l.headD (.fin false 0 0)
  | fuel + 1, l =>
    match l with
    | [] => .fin false 0 0
    | [x] => x
    | _ => pairTree add fuel (pairLevel add l)

/-- R108 leaf: fold one chunk of terms into a lane sum; a short chunk under PAIR is padded with +0 (R109). -/
def leafFold (c : Contract) (clen : Nat) (acc : XVal) (ts : List XVal) : XVal :=
  match ctrLeaf c with
  | 0 => ts.foldl (addAcc c) acc
  | 1 => addAcc c acc (roundAcc c (xsum (ctrRndAcc c) ts))
  | _ =>
    let padded := ts ++ List.replicate (clen - ts.length) (.fin false 0 0)
    addAcc c acc (pairTree (addAcc c) (clen.log2 + 1) padded)

/-- Chunk length in terms (R108). -/
def chunkTerms (c : Contract) : Nat := if ctrMx c then ctrChunk c / 32 else ctrChunk c

/-- Lane of chunk `i` of `n` under width `w` (R101 LANE_MAP). -/
def laneOf (c : Contract) (w n i : Nat) : Nat :=
  if ctrBlocked c then i / ((n + w - 1) / w) else i % w

/-- R108: the final accumulator of one output element over its exact products. -/
def contractAcc (c : Contract) (w : Nat) (prods : List XVal) : XVal :=
  let terms := dotTerms c prods
  let cl := chunkTerms c
  let chunks := chunksOf cl terms.length terms
  let lanes := (chunks.zipIdx).foldl
    (fun (ls : List XVal) (p : List XVal × Nat) =>
      ls.modify (laneOf c w chunks.length p.2) (fun acc => leafFold c cl acc p.1))
    (List.replicate w (.fin false 0 0))
  if ctrCombineLinear c then
    match lanes with
    | [] => .fin false 0 0
    | x :: xs => xs.foldl (addAcc c) x
  else pairTree (addAcc c) (w.log2 + 1) lanes

/-- A code of an output element with its block scale (0 for a non-MX format). -/
structure OutElem where
  code : Nat
  scale : Byte
  deriving DecidableEq, Repr

/-- R106: the code of a NaN result in a non-MX format; `first` is the first input NaN, if any. -/
def nanCode (c : Contract) (f : Fmt) (first : Option (Fmt × Nat)) : Nat :=
  match fpar f with
  | none => 0
  | some p =>
    match ctrNanFirst c, first with
    | true, some (src, code) => quietedNan p src code
    | _, _ => canonNan p

/-- R110, one block of an MX result: scale, then elements. `host` is the delivered scale under C_SCALE HOST; a delivered 0xFF for a
block without NaN divides by 2^128 like any other scale, though its elements read as NaN (DESIGN CHOICE, log 83). -/
def toCBlock (c : Contract) (f : Fmt) (rm : Rm) (vs : List XVal) (host : Byte) : List OutElem :=
  let p := (fpar f).getD ⟨2, 1, 1, .none⟩
  if vs.any (· == .nan) then vs.map fun _ => ⟨if f = .mxInt8 then 0 else canonNan p, 0xFF⟩
  else
    let x := if ctrScaleHost c then host else blockScale f 0 vs
    vs.map fun v => ⟨encodeMxElem f rm (ctrFtzOut c) (ctrFzPos c) (unscale v x), x⟩

/-- R110, one element of a non-MX result. -/
def toCElem (c : Contract) (f : Fmt) (rm : Rm) (first : Option (Fmt × Nat)) (v : XVal) : OutElem :=
  match fpar f with
  | none => ⟨0, 0⟩
  | some p =>
    match v with
    | .nan => ⟨nanCode c f first, 0⟩
    | w =>
      if f = ctrAcc c then ⟨encodeFloat p w, 0⟩
      else
        match roundTo p rm (ctrOvf c) (ctrFtzOut c) (ctrFzPos c) w with
        | .nan => ⟨nanCode c f none, 0⟩
        | r => ⟨encodeFloat p r, 0⟩

/-- R110: convert a row (or window) of accumulator values into C_FMT, blocks of 32 for an MX format. -/
def toCRow (c : Contract) (f : Fmt) (rm : Rm) (vs : List (XVal × Option (Fmt × Nat))) (host : List Byte) : List OutElem :=
  if isMx f then
    ((chunksOf 32 vs.length vs).zipIdx).flatMap fun p =>
      toCBlock c f rm (p.1.map (·.1)) (host.getD p.2 127)
  else vs.map fun v => toCElem c f rm v.2 v.1

/-- R107: an Integer-class element, the exact sum of products modulo 2^32. -/
def intDot (a b : List Int) : Nat :=
  ((a.zipWith (· * ·) b).foldl (· + ·) 0 % (2 ^ 32 : Int)).toNat

/-- R187: the two exact sums of exact mode, Σ a·b and Σ |a·b|. -/
def exactSums (prods : List XVal) : XVal × XVal :=
  (xsum .rne prods, xsum .rne (prods.map xabs))

/-- R113: RND_OUT, or RNE where RND_OUT is STOCHASTIC. -/
def refRnd (c : Contract) : Rm := if ctrRndOut c = .stoch then .rne else ctrRndOut c

/-- R113 steps 3 and 4 for one row or window: the exact sums converted into C_FMT. The single rounding applies also when
C_FMT is ACC_FMT, since an exact sum is no accumulator value. -/
def exactRefRow (c : Contract) (f : Fmt) (vs : List XVal) (host : List Byte) : List OutElem :=
  if isMx f then toCRow c f (refRnd c) (vs.map fun v => (v, none)) host
  else vs.map fun v =>
    match fpar f with
    | none => ⟨0, 0⟩
    | some p => ⟨encodeFloat p (roundTo p (refRnd c) (ctrOvf c) (ctrFtzOut c) (ctrFzPos c) v), 0⟩

/-- R114 ulp_C: the spacing of C_FMT at a value, in the block of scale `x` for an MX format. -/
def ulpC (f : Fmt) (x : Byte) (r : XVal) : Rat :=
  let sc : Int := if isMx f then (x.toNat : Int) - 127 else 0
  match f with
  | .mxInt8 => pow2 (-6 + sc)
  | _ =>
    match fpar f with
    | none => 1
    | some p =>
      match unscale r (if isMx f then x else 127) with
      | .fin _ m e =>
        if m = 0 then pow2 (eminOf p - p.mb + sc) else pow2 (max (ilog2 m e) (eminOf p) - p.mb + sc)
      | _ => 0

/-- ceil(log2 n). -/
def clog2 (n : Nat) : Nat := if n ≤ 1 then 0 else Nat.log2 (n - 1) + 1

/-- R114: the depth factor D(K). -/
def depthFactor (c : Contract) (k : Nat) : Nat := if ctrVbLog c then clog2 k + 1 else k

/-- A bound that may be infinite (none). -/
abbrev Bound := Option Rat

/-- A coefficient times Σ |a·b|: infinite when the sum is not finite, unless the coefficient is 0 (log 83). -/
def sumTerm (coef : Rat) (absSum : XVal) : Bound := if isFin absSum then some (coef * xrat absSum) else if coef = 0 then some 0 else none

/-- R114: the VARIES bound. -/
def tauV (c : Contract) (f : Fmt) (k : Nat) (scale : Byte) (r absSum : XVal) : Bound :=
  (sumTerm ((ctrVbMul c : Rat) * pow2 (-(ctrVbExp c : Int)) * (depthFactor c k : Rat)) absSum).map
    fun t => (ctrVbUlp c : Rat) * ulpC f scale r + t

/-- R113: whether the host's element passes against the reference. -/
def variesPass (h r : XVal) (tau : Bound) : Bool :=
  match h, r with
  | .nan, .nan => true
  | .inf a, .inf b => a == b
  | .fin .., .fin .. =>
    let d := xrat h - xrat r
    (tau.map fun t => decide ((if d < 0 then -d else d) ≤ t)).getD true
  | _, _ => false

/-! ### Coefficients of the screen -/

/-- R136: significand bits p of a format's element (MXINT8 has ε_A = 2^-6). -/
def sigBits (f : Fmt) : Nat :=
  match f with
  | .mxInt8 => 6
  | _ => match fpar f with
    | some p => p.mb + 1
    | none => 0

/-- R136: f_clamp of the element formats. -/
def fClamp : Fmt → Rat
  | .mxE4m3 | .mxE5m2 | .mxE3m2 => mkRat 1 7
  | .mxE2m3 => mkRat 1 15
  | .mxE2m1 => mkRat 1 3
  | .mxInt8 => mkRat 1 127
  | _ => 0

/-- u of a format with `p` significand bits under a rounding mode: 2^(−p) to nearest, 2^(1 − p) directed (R143, R145).
STOCHASTIC has no u of its own here; it takes the directed value. -/
def unitRnd (p : Nat) (rm : Rm) : Rat :=
  match rm with
  | .rne | .rna => pow2 (-(p : Int))
  | _ => pow2 (1 - (p : Int))

/-- Chunk count of an operation of length `k` (R108). -/
def nChunks (c : Contract) (k : Nat) : Nat :=
  let nt := if ctrMx c then k / 32 else k
  (nt + chunkTerms c - 1) / chunkTerms c

/-- R143 steps 1 to 3: the depth h. -/
def redDepth (c : Contract) (w k : Nat) : Nat :=
  let q := (nChunks c k + w - 1) / w
  let leaf := match ctrLeaf c with
    | 0 => q * chunkTerms c
    | 1 => 1 + q
    | _ => clog2 (chunkTerms c) + q
  leaf + (if ctrCombineLinear c then w - 1 else clog2 w)

def uAcc (c : Contract) : Rat := unitRnd (sigBits (ctrAcc c)) (ctrRndAcc c)

/-- R143 step 6: γ of an operation that is not VARIES. -/
def gammaDet (c : Contract) (w k : Nat) : Rat :=
  let u := uAcc c
  let pi : Rat := if ctrProdRound c then u else if ctrMxInner32 c then unitRnd 24 (ctrRndAcc c) else 0
  pi + 2 * (redDepth c w k : Rat) * u * (1 + pi)

/-- R143, R144: γ of an operation. -/
def gammaOf (c : Contract) (varies : Bool) (w k : Nat) : Rat :=
  if varies then (ctrVbMul c : Rat) * pow2 (-(ctrVbExp c : Int)) * (depthFactor c k : Rat) else gammaDet c w k

/-- R143: an operation with h × u_acc > 1/2 is WEAK (h is not used for a VARIES operation, R144). -/
def depthWeak (c : Contract) (varies : Bool) (w k : Nat) : Bool :=
  !varies && decide ((redDepth c w k : Rat) * uAcc c > mkRat 1 2)

/-- R144, R145: δ_C. The constants table gives MXINT8 no p and takes f_clamp for δ; under VARIES, where p_C stands alone in R144, the
model takes 6, the p_A of the same table (DESIGN CHOICE, log 83). -/
def deltaC (c : Contract) (varies : Bool) (f : Fmt) : Rat :=
  if varies then ((ctrVbUlp c : Rat) + 1) * pow2 (2 - (sigBits f : Int))
  else if f = ctrAcc c then 0
  else
    let d := unitRnd (sigBits f) (ctrRndOut c)
    if f = .mxInt8 then fClamp f else if isMx f then max d (fClamp f) else d

/-- ε_A = 2^(−p_A) (R136). -/
def epsA (f : Fmt) : Rat := pow2 (-(sigBits f : Int))

/-- R147: c_op before rounding. -/
def cOpExact (c : Contract) (varies : Bool) (kappa w k : Nat) (a cf : Fmt) : Rat :=
  ((2 ^ kappa : Nat) : Rat) * (gammaOf c varies w k * (2 + epsA a) + epsA a) + deltaC c varies cf

/-- R147: c_op, rounded upward to a 16-bit significand. -/
def cOp (c : Contract) (varies : Bool) (kappa w k : Nat) (a cf : Fmt) : Rat :=
  ceilSig 16 (cOpExact c varies kappa w k a cf)

/-- Exponent of the smallest non-zero magnitude of an element format (R94). -/
def minExp (f : Fmt) : Int :=
  match f with
  | .mxInt8 => -6
  | _ => match fpar f with
    | some p => eminOf p - p.mb
    | none => 0

/-- R136: exponent of the smallest normal of an element format (0.5 for MXINT8). -/
def normExp (f : Fmt) : Int :=
  match f with
  | .mxInt8 => -1
  | _ => match fpar f with
    | some p => eminOf p
    | none => 0

/-- R145: φ_C of a format (of the element, for an MX one): half the smallest magnitude to nearest, the whole of it under
the directed modes, and the smallest normal when FTZ_OUT = 1. STOCHASTIC, which the rule does not name, takes the whole
(DESIGN CHOICE, log 83). -/
def phiC (c : Contract) (f : Fmt) : Rat :=
  if ctrFtzOut c then pow2 (normExp f)
  else match ctrRndOut c with
    | .rne | .rna => pow2 (minExp f - 1)
    | _ => pow2 (minExp f)

/-- R195: τ_A,j of the agreement test. -/
def tauA (c : Contract) (w k : Nat) (f : Fmt) (scale : Byte) (x absSum : XVal) : Bound :=
  let sc : Int := if isMx f then (scale.toNat : Int) - 127 else 0
  (sumTerm (gammaDet c w k) absSum).map fun t => t + 2 * ulpC f scale x + (if ctrFtzOut c then pow2 (normExp f + sc) else 0)

/-- R195: whether a value is sound against E3's reference. -/
def soundAgainst (v x : XVal) (tau : Bound) : Bool := variesPass v x tau

/-- R102: whether a contract record at `ix` passes the image check. -/
def contractOk (ix : Nat) (c : Contract) : Bool :=
  if !ctrValid c then fld c 8 120 == 0
  else
    fld c 0 8 == ix && fld c 10 2 == 0 && fld c 22 10 == 0 && fld c 59 5 == 0 && fld c 82 14 == 0 && fld c 121 7 == 0
    && decide (ctrAcc c ∈ [Fmt.int32, .b16, .bf16, .b32, .b64])
    && fld c 16 2 ≤ 1 && fld c 18 2 ≤ 2 && fld c 64 3 ≤ 5 && fld c 67 3 ≤ 5 && fld c 74 2 ≤ 1 && fld c 76 2 ≤ 1
    && fld c 78 2 ≤ 1
    && ctrChunk c == 2 ^ Nat.log2 (ctrChunk c)
    && (ctrWidth c == 0 || (ctrWidth c == 2 ^ Nat.log2 (ctrWidth c) && ctrWidth c ≤ 1024))
    && (!ctrMx c || (ctrChunk c % 32 == 0 && !ctrProdRound c))
    && ((ctrRndAcc c != .stoch && ctrRndOut c != .stoch) || ctrVaryAlways c)
    && ctrVbExp c ≤ 127

end Sys2Proof.Machine
end

