-- ==== Sys2Proof/Machine/Rec.lean ====
section
/-! DEFINITION. Records (R46), notes (R257) and the logs that hold them. A record is its kind, the fabric tick of words 1 to 2,
word 3, and the words from 4 on; where the manual lays a record out the words are exact, where it names a payload
without a layout the body lists the payload's items one to a word (log 9). -/

namespace Sys2Proof.Machine

/-- The kinds of record of the manual's tables; the last group is named by a rule that gives no type number. -/
inductive RecKind where
  | tapviol | contractviol | cadviol | wtviol | mtviol | ltviol | memerr
  | scrsum | scrgrp | rplv | opv | rngev | tstate | expprof
  | oasis | rcv | rcvAmend | rebase
  | ld | ldx | dcmp | sealv | att | launch | bandown
  | blfx | pealm
  | vstorm | seamdeg | routefail | cispoison | cisremap | cisbt | ciswr
  | boot | imgfail | licbad | linkq
  | therm | lbist | repair | sdt
  | mtr | tagacct | tdump | acc
  | tileRst | tref | clkloss | linksuspect | launchFail | rbTimeout | restoreFail
  | deadlock | caravanStall | hangDump | hang | thermTrip
  deriving DecidableEq, Repr

/-- The type number of a kind, where the manual gives one. -/
def RecKind.num : RecKind → Option W16
  | .tapviol => some 0x0210 | .contractviol => some 0x0211 | .cadviol => some 0x0212 | .wtviol => some 0x0213
  | .mtviol => some 0x0214 | .ltviol => some 0x0215 | .memerr => some 0x0216
  | .scrsum => some 0x0300 | .scrgrp => some 0x0301 | .rplv => some 0x0400
  | .opv => some 0x0601 | .rngev => some 0x0602 | .tstate => some 0x0603 | .expprof => some 0x0604
  | .oasis => some 0x0701 | .rcv => some 0x0702 | .rcvAmend => some 0x0703 | .rebase => some 0x0704
  | .ld => some 0x0801 | .ldx => some 0x0802 | .dcmp => some 0x0803 | .sealv => some 0x0804 | .att => some 0x0805
  | .launch => some 0x0806 | .bandown => some 0x0807
  | .blfx => some 0x0901 | .pealm => some 0x0902
  | .vstorm => some 0x0A01 | .seamdeg => some 0x0A02 | .routefail => some 0x0A03 | .cispoison => some 0x0A04
  | .cisremap => some 0x0A05 | .cisbt => some 0x0A06 | .ciswr => some 0x0A07
  | .boot => some 0x0B01 | .imgfail => some 0x0B02 | .licbad => some 0x0B03 | .linkq => some 0x0B04
  | .therm => some 0x0C01 | .lbist => some 0x0C02 | .repair => some 0x0C03 | .sdt => some 0x0C04
  | .mtr => some 0x0D01 | .tagacct => some 0x0D02 | .tdump => some 0x0D05 | .acc => some 0x0E01
  | _ => none

/-- One record. `spire` is 0xFFFF where none is concerned; `part` is the partition it belongs to. -/
structure Rec where
  kind : RecKind
  tick : W64
  spire : Nat
  part : Nat
  w3 : W32
  body : List W32
  deriving DecidableEq, Repr

/-- R46: the whole record as words, with its type (0 where the manual gives no number) and its length. -/
def Rec.words (r : Rec) : List W32 :=
  let n := r.body.length + 4
  BitVec.ofNat 32 ((r.kind.num.getD 0).toNat + 0x10000 * (n % 0x10000)) ::
    BitVec.ofNat 32 r.tick.toNat :: BitVec.ofNat 32 (r.tick.toNat >>> 32) :: r.w3 :: r.body

/-- Word 3 of most records: Spire index, partition, and further bits from bit 20 up. -/
def w3of (spire part hi : Nat) : W32 := BitVec.ofNat 32 (spire % 65536 + 0x10000 * (part % 16) + 0x100000 * hi)

/-- Two 16-bit halves of a word. -/
def halves (lo hi : Nat) : W32 := BitVec.ofNat 32 (lo % 65536 + 0x10000 * (hi % 65536))

def lo32 (x : W64) : W32 := BitVec.ofNat 32 x.toNat
def hi32 (x : W64) : W32 := BitVec.ofNat 32 (x.toNat >>> 32)
def words64 (x : W64) : List W32 := [lo32 x, hi32 x]

/-- A 384-bit byte string as 12 words, byte 0 of the string lowest (R527). -/
def words384 (bs : List Byte) : List W32 := (List.range 12).map fun j => BitVec.ofNat 32 (ofLe ((bs.drop (4 * j)).take 4))

/-- The note types of R258's table. -/
inductive NoteKind where
  | streamReq | rerunReq | reroute | sealed | sealFail | oasisFree | rollback | restored | restoreFail | restart
  | hang | computeReset | dieFault | keepRestart | dumpReq | dumpDone
  deriving DecidableEq, Repr

def NoteKind.num : NoteKind → W16
  | .streamReq => 0x0001 | .rerunReq => 0x0002 | .reroute => 0x0003 | .sealed => 0x0010 | .sealFail => 0x0011
  | .oasisFree => 0x0012 | .rollback => 0x0020 | .restored => 0x0021 | .restoreFail => 0x0022 | .restart => 0x0023
  | .hang => 0x0030 | .computeReset => 0x0031 | .dieFault => 0x0032 | .keepRestart => 0x0033
  | .dumpReq => 0x0040 | .dumpDone => 0x0041

/-- A note (R257, R258): its number, tick, Spire index or 0xFFFF, and the payload words 6 to 15. -/
structure Note where
  kind : NoteKind
  num : Nat
  tick : W64
  spire : Nat
  payload : List W32
  deriving DecidableEq, Repr

/-- R258: the 16 words of a note on the queue of partition `p`. -/
def Note.words (p : Nat) (n : Note) : List W32 :=
  [BitVec.ofNat 32 (n.kind.num.toNat + 16 * 65536)] ++ [BitVec.ofNat 32 n.num, BitVec.ofNat 32 (n.num / 2 ^ 32)] ++ words64 n.tick ++
    [w3of n.spire p 0] ++ (n.payload ++ List.replicate 10 0).take 10

/-- A queue or log in the near window with PROD and LOST (R257, R258): the entries written since the count began, oldest
first, of which the last `slots` remain readable. -/
structure Log (α : Type) where
  prod : Nat
  items : List α
  deriving DecidableEq, Repr

def Log.empty {α : Type} : Log α := ⟨0, []⟩

/-- R258: an append keeps the last `slots` entries and counts every one. -/
def Log.push {α : Type} (slots : Nat) (l : Log α) (x : α) : Log α :=
  let xs := l.items ++ [x]
  ⟨l.prod + 1, xs.drop (xs.length - slots)⟩

/-- R258: LOST = max(0, PROD − s). -/
def Log.lost {α : Type} (slots : Nat) (l : Log α) : Nat := l.prod - slots

/-- The newest entry that went to the slot of entry number `n` (R257: slot 1 + n mod `slots`). -/
def Log.at {α : Type} (slots n : Nat) (l : Log α) : Option α :=
  let first := l.prod - l.items.length
  (l.items.zipIdx.find? fun x => (first + x.2) % slots == n % slots).map (·.1)

/-- R257: words 0 to 3 of a queue's header: PROD and LOST of `slots` data slots. -/
def headWords (slots prod : Nat) : List W32 := words64 (BitVec.ofNat 64 prod) ++ words64 (BitVec.ofNat 64 (prod - slots))

/-- Saturating increment of a CNT register (R459). -/
def satInc {w : Nat} (x : BitVec w) : BitVec w := if x.toNat + 1 < 2 ^ w then BitVec.ofNat w (x.toNat + 1) else x

/-- Saturating addition to a CNT register (R459). -/
def satAdd {w : Nat} (x : BitVec w) (n : Nat) : BitVec w :=
  if x.toNat + n < 2 ^ w then BitVec.ofNat w (x.toNat + n) else BitVec.ofNat w (2 ^ w - 1)

end Sys2Proof.Machine
end

