-- ==== Sys2Proof/Machine/SpireState.lean ====
section
/-! DEFINITION. The state of one Spire (02, 04, 05, 08, 13, 15): its counters, tap levels, descriptor contexts, operand pass,
refused tags, sampling, trace, sensor and handshakes. -/

namespace Sys2Proof.Machine

/-- One column group in a descriptor context: group sum in units of 2^L and magnitude sum in units of ψ (R127, R138), the
overflow and saturation marks (R139), the tainted elements and the first one (R151, R153), and Φ (R145). -/
structure Grp where
  sum : Int
  mag : Nat
  ovf : Bool
  magSat : Bool
  taints : Nat
  first : Option (Nat × Nat)
  phi : Rat
  deriving DecidableEq, Repr

def Grp.zero : Grp := ⟨0, 0, false, false, 0, none, 0⟩

/-- Where a stream stands in its row: row number, elements of the row taken, beats of the stream, pending elements of
the block that is to place the window, whether the stream is stalled (R65). -/
structure StreamPos where
  row : Nat
  col : Nat
  beats : Nat
  pend : List (Nat × XVal)
  stalled : Bool
  deriving DecidableEq, Repr

def StreamPos.zero : StreamPos := ⟨0, 0, 0, [], false⟩

/-- The exponent profile of R206: per exponent the count of elements, and the zeros. -/
structure Prof where
  exps : List (Int × Nat)
  zeros : Nat
  deriving DecidableEq, Repr

/-- The range findings of an operation (R203, R204). -/
structure RangeSt where
  mag : Nat
  nan : Nat
  inf : Nat
  firstMag : Option (Nat × Nat)
  deriving DecidableEq, Repr

/-- The digests of an operation in progress (R286 to R288): OD, the row's digest and pending scale bytes, RSV, and the
operand digest with its row's pending scale bytes. -/
structure OpDig where
  od : Sd
  row : Sd
  rowScl : List Byte
  rsv : Nat
  operand : Option Sd
  opScl : List Byte
  deriving DecidableEq, Repr

/-- A row's capture for a sample (R168 to R170): the row, its window's first column, its kind (R167), the operand row of the
pass being taken, the result row being taken, and whether the sample was abandoned (R171). -/
structure Capture where
  row : Nat
  winFirst : Nat
  kind : Nat
  codes : List Nat
  scl : List Byte
  elems : List Nat
  scales : List Byte
  resSent : Bool
  dropped : Bool
  deriving DecidableEq, Repr

/-- How the screen closed an operation early (R539). -/
inductive Closure where
  | torn | fenced | reset | contract | rows | dead
  deriving DecidableEq, Repr

/-- One descriptor context (R127): open, or closed and waiting for its group comparisons (R140). `opRow` is the operand
position of an operation whose passes no screen follows. -/
structure OpCtx where
  uid : Nat
  dsc : BitVec 256
  late : Bool
  ackTick : W64
  checkable : Bool
  nogrp : Bool
  passesDone : Nat
  opRow : StreamPos
  cksat : Bool
  floorEv : Bool
  optaint : Bool
  resTop : Option Int
  grps : List Grp
  resRow : StreamPos
  ckPos : StreamPos
  ckSeen : Bool
  badRows : Bool
  closed : Bool
  closure : Option Closure
  endTick : W64
  range : RangeSt
  prof : Prof
  dig : OpDig
  caps : List Capture
  opBytes : Nat
  injBytes : Nat
  resBytes : Nat
  cycles : W64
  dumping : Bool
  deriving DecidableEq, Repr

/-- The operand pass in progress (R128, R130): its operation's tag, pass index, position, window top, s-accumulators,
tainted K blocks (R152), and whether its rows are complete. -/
structure PassSt where
  tag : W16
  pos : StreamPos
  top : Option Int
  acc : List Int
  taint : List Nat
  ended : Bool
  deriving DecidableEq, Repr

/-- A refused operation whose raw digest runs (R55, R286): tag, digest, beats, descriptor. The Spire reads no beat marking of it (R62), so
the digest runs until a descriptor takes the tag again. -/
structure RawOp where
  tag : W16
  dig : Sd
  beats : Nat
  dsc : BitVec 256
  deriving DecidableEq, Repr

/-- The last answer on the tap: ACK or NACK of a descriptor (R52), the beats of a delivered checksum row as TT_INJ_DATA and TT_INJ_SCL
(R58, R60), or TT_INJ_NACK. -/
inductive TapAnswer where
  | none
  | ack
  | nack (code : Byte)
  | inject (beats : List (BitVec 512 × W32))
  | injNack
  deriving DecidableEq, Repr

/-- The tap levels the Spire drives and the tile's level inputs (R66 to R72, R229). -/
structure Levels where
  fc : Bool
  ft : Bool
  tonly : Bool
  fack : Bool
  hbOk : Bool
  rstReq : Bool
  rstAck : Bool
  ready : Bool
  idle : Bool
  deriving DecidableEq, Repr

/-- One trace entry (R468). -/
structure TrcEntry where
  tick : W32
  code : Byte
  late : Bool
  deep : Bool
  stag : W16
  layer : W16
  oper : W16
  payload : W32
  deriving DecidableEq, Repr

/-- R468: the 16 bytes of an entry as words. -/
def TrcEntry.words (e : TrcEntry) : List W32 :=
  [e.tick, BitVec.ofNat 32 (e.code.toNat + (if e.late then 0x100 else 0) + (if e.deep then 0x200 else 0) + 65536 * e.stag.toNat),
    BitVec.ofNat 32 (e.layer.toNat + 65536 * e.oper.toNat), e.payload]

/-- Trace state of a Spire (R469 to R472, R478): designation, capture, buffer, lost entries since the last GAP, tokens in
sixteenths of an entry's cost and the tick they were last filled; of a capture the bytes in the buffer, those already sent, the scale
bytes of the row that its end places, the row, beat and bytes of each beat copied (and of its scale bytes), and the places lost. -/
structure TrcSt where
  deep : Bool
  capture : Bool
  buf : List TrcEntry
  lost : Nat
  lightTok : Nat
  deepTok : Nat
  tokTick : W64
  dump : List Byte
  dumpOut : List Byte
  dumpScl : List Byte
  beats : List (Nat × Nat × Nat)
  sclBeats : List (Nat × Nat × Nat)
  dumpGaps : List (Nat × Nat)
  dumpLost : Nat
  deriving DecidableEq, Repr

/-- The sensor of a Spire or Dome (R446 to R450, R457). -/
structure Sensor where
  temp : Int
  valid : Bool
  bad : Bool
  fast : Bool
  lvl : Nat
  trips : Nat
  diffs : Nat
  deriving DecidableEq, Repr

def Sensor.zero : Sensor := ⟨0, false, false, false, 0, 0, 0⟩

/-- Sampling state (R164, R165, R350). -/
structure SmpSt where
  lfsr : W64
  rate : Nat
  stored : Nat
  force : Nat
  watch : Bool
  deriving DecidableEq, Repr

/-- SPR_LASTV and SPR_LASTVL (R528). -/
structure LastV where
  result : Nat
  cause : Nat
  group : Nat
  stag : W16
  layer : W16
  oper : W16
  deriving DecidableEq, Repr

/-- SPR_TAP's changing fields (R528), and the progress count (R71, R357). -/
structure TapReg where
  ver : BitVec 4
  off : Bool
  clkLoss : Bool
  progBase : W32
  prog : W64
  progAtFrame : W64
  progAtPeriod : W64
  idleInPeriod : Bool
  deriving DecidableEq, Repr

/-- The IEEE 1500 wrapper of a tile, or the scan access to a Spire's own generator (R74, R75, R435): whether the Dome's network has its
segment insertion bit open, the instruction register (an opcode of WRAPPERS), the data register of the logic self-test instruction, the bypass
register and the boundary register. -/
structure Wrapper where
  sib : Bool
  ir : Nat
  dr : Nat
  byp : Bool
  wbr : Nat
  deriving DecidableEq, Repr

/-- One Spire. `torn` holds the streams that R65 ignores until the next descriptor (tag, true for results), `tornOps` the operations whose
operand burst was TORN, with the inject requests they may still make (R155); `witSent` counts the witness bytes injected of messages not yet
arrived, `witGrants` the granted bytes not used, with their ticks (R372, R373); `cnt` holds the 15 counters of R463 in offset order; `tstate` to `watchCnt` mirror SPR_TSTATE (R229); `cycFrom` is the tick up to which `big` counts
TCLK cycles (R460). -/
structure Spire where
  ix : Nat
  cnt : List W32
  smp : SmpSt
  lv : Levels
  tstate : Nat
  fseq : Byte
  watchCnt : Byte
  testing : Bool
  pendFence : Bool
  tap : TapReg
  ops : List OpCtx
  pass : Option PassSt
  injSlot : Option Nat
  refused : List W16
  torn : List (W16 × Bool)
  tornOps : List (W16 × Nat)
  raw : List RawOp
  orphan : Sd
  answer : TapAnswer
  lastv : LastV
  viol : Byte × W16
  staging : Nat
  witSent : Nat
  witGrants : List (Nat × W64)
  epoch : W16
  trc : TrcSt
  wrap : Wrapper
  gen : Wrapper
  sensor : Sensor
  cycFrom : W64
  big : List W64
  deriving DecidableEq, Repr

end Sys2Proof.Machine
end

