-- ==== Sys2Proof/Machine/KeepState.lean ====
section
/-! DEFINITION. The state the Keep holds (05 to 10, 12 to 15): its view of every tile, operation verdicts, samples, engines,
weight streams, partitions, Belfry, hang path, Tallies, Banen ports, seals, ports of memory, pages of registers. -/

namespace Sys2Proof.Machine

/-- A fence frame of a tile (R231, R233), sent or waiting to be: its OP code, the word sent, re-issues made, tick issued,
and what the TSTATE record of its completion will say: old state, new state, cause, peal, class, tick of the verdict; the RELEASE command's
instance, if one ordered it. -/
structure OutFrame where
  op : Nat
  frame : W32
  reissues : Nat
  issued : W64
  old : Nat
  new : Nat
  cause : Nat
  peal : Nat
  cls : Nat
  vtick : W64
  inst : Option Nat
  deriving DecidableEq, Repr

/-- The WATCH bookkeeping of R225 and R226: the tick the exit conditions count from, the input that placed the tile there
(code and operation), whether anything else has concerned the tile since, PASS samples, and a passed slice. -/
structure WatchSt where
  since : W64
  code : Nat
  uid : Nat
  other : Bool
  passes : Nat
  slice : Bool
  deriving DecidableEq, Repr

/-- A request for self-test slices on a tile or engine (R436, R438, R240): slices left, next slice, whether it is a full
set, whether the pointer moves, the command instance that ordered it, WAIT_IDLE, when it was asked and its place among those of one
tick (R440), whether it has begun. -/
structure SliceReq where
  left : Nat
  next : Nat
  full : Bool
  moves : Bool
  inst : Option Nat
  waitIdle : Bool
  asked : W64
  ord : Nat
  begun : Bool
  deriving DecidableEq, Repr

/-- A slice: its position in the full set, whether it is the repeat of a failed one (R437), the tick its patterns began, whether DONE has
been read (R435), whether they run: before that it waits for TT_FENCE_ACK, or for the TT_READY that ends step 5; and whether the result of
the checker self-test that begins a full self-test comes with it (R433). -/
structure SliceRun where
  slice : Nat
  again : Bool
  began : W64
  doneSeen : Bool
  going : Bool
  first : Bool
  deriving DecidableEq, Repr

/-- The Keep's view of one tile. `out` is the frame whose report is awaited, `next` those that wait, `superseded` those a DEAD frame
outran, which are not issued again but may still be reported (R231); `offDue` says that TEST_OFF waits for TT_READY (R435), `fencedAt` is the
tick at which the tile last left HEALTHY and WATCH (R258). -/
structure Tile where
  ix : Nat
  state : Nat
  part : Nat
  fseq : Byte
  out : Option OutFrame
  next : List OutFrame
  superseded : List OutFrame
  offDue : Bool
  watch : Option WatchSt
  wd : Nat
  wdHeld : Bool
  ranOut : Bool
  missed : Nat
  lost : Bool
  slow : Nat
  slowRaised : Bool
  reqs : List SliceReq
  run : Option SliceRun
  ptr : Nat
  lastSlice : W64
  fullPass : Option W64
  acceptedEpochs : List W16
  fencedAt : Option W64
  resetDone : Bool
  deriving DecidableEq, Repr

/-- The life-cycle states of an operation's verdict (R215). -/
inductive OpState where
  | opened | screened | resolving | final
  deriving DecidableEq, Repr


/-- What the screen records of an operation said (R160, R213): counts of PASS, SUSPECT, INCONCLUSIVE, SKIPPED groups, the
SUSPECT groups, and the cause of the first INCONCLUSIVE one. -/
structure ScreenRes where
  pass : Nat
  susp : Nat
  incon : Nat
  skip : Nat
  suspGroups : List Nat
  cause : Nat
  deriving DecidableEq, Repr

/-- One operation in the Keep (R213 to R220, R246), named by `uid` (log 13). `replay`, `res` and `verdict` use the verdict codes
of OPV, `outcome` its rerun outcomes: `replay` is the worst final sample, `mm` the MISMATCHes not yet arbitrated, `res` what
the SUSPECT of screen or range was resolved to, `forced` the verdict R280 closes it with. -/
structure OpV where
  uid : Nat
  spire : Nat
  part : Nat
  dsc : BitVec 256
  ackTick : W64
  endTick : W64
  late : Bool
  checkable : Bool
  varies : Bool
  state : OpState
  scr : Option ScreenRes
  range : Nat
  rangeSusp : Bool
  samples : Nat
  samplesOpen : Nat
  skipped : Nat
  replay : Nat
  mm : Nat
  res : Option Nat
  outcome : Nat
  ticket : Option Nat
  rerunOf : Option Nat
  rerunBy : Option Nat
  rerunSpire : Nat
  deadClosed : Bool
  disagree : Bool
  forced : Option Nat
  verdict : Nat
  resolveTick : W64
  od : Option W64
  interval : Bool
  deriving DecidableEq, Repr

/-- A rerun ticket (R217, R218): its number and its operation. -/
structure Ticket where
  num : Nat
  uid : Nat
  deriving DecidableEq, Repr

/-- The transaction states of a sample (R176's table). -/
inductive SampSt where
  | queued | armed | attached | running | compare | confirming
  deriving DecidableEq, Repr

/-- The key of a weight stream (R177). -/
structure WKey where
  part : Nat
  epoch : W16
  layer : W16
  oper : W16
  deriving DecidableEq, Repr

/-- A row of B, or the part of it that one segment carries, for an engine: K row, its columns of the window, their codes and
the scales of their 32-row block. -/
structure WRow where
  k : Nat
  cols : List Nat
  codes : List Nat
  scales : List Byte
  deriving DecidableEq, Repr

/-- A mismatching column (R186, R195): its column, the host's code, E1's code and its block scale. -/
structure MisCol where
  col : Nat
  host : Nat
  e1 : Nat
  scale : Byte
  deriving DecidableEq, Repr

/-- A sample (R174 to R196). `slot` is none while it waits in the overflow queue; `kind` is BASELINE 0, ON_DEMAND 1, WATCH 2,
CONFIRM 3 as RPLV word 3 codes them. `hdrs` counts the headers of R189 since it was armed; `frags` are its operand
fragments, one a pass; `win`, `winScales`, `digests` its result capture; `w` its window width (R179); `streamNum` the first
stream; `arr` the Belfry tick in which the notice arrived (R175); `r1` E1's values of the columns to be confirmed, `mis` the mismatching ones among those of the value window and
`misGroups` the mismatching groups outside it; `conf` E2 and E3; `posted` the tick of STREAM_REQ; `matched` says that the
fingerprints agreed, `unread` that its witness was read as poison (R381); `prods` and `xprods` count bit-exact and exact-mode products; `lines` the Cistern lines of its witness. -/
structure Sample where
  slot : Option Nat
  uid : Nat
  spire : Nat
  part : Nat
  dsc : BitVec 256
  row : Nat
  kind : Nat
  state : SampSt
  noticeTick : W64
  arr : Nat
  hdrs : Nat
  frags : List (List Nat × List Byte)
  winFirst : Nat
  win : List Nat
  winScales : List Byte
  digests : List (W32 × Byte)
  captured : Bool
  engines : List Nat
  w : Nat
  wtviol : Bool
  streamNum : Option Nat
  rowTick : W64
  misTick : W64
  r1 : List MisCol
  mis : List MisCol
  misGroups : List Nat
  conf : List Nat
  confCols : List Nat
  posted : Option W64
  confirmWanted : Bool
  confStream : Option Nat
  matched : Bool
  unread : Bool
  unchecked : Nat
  prods : Nat
  xprods : Nat
  lines : Nat
  deriving DecidableEq, Repr

/-- Engine states: free, held by a sample (its operation and row), fenced, being tested, failed, or off: not licensed, or not yet started. -/
inductive EngSt where
  | free
  | held (uid row : Nat)
  | fenced
  | testing
  | failed
  | off
  deriving DecidableEq, Repr

/-- One replay engine (R180 to R183, R222): its state, the columns it serves, its weight FIFO, the rows processed, its
rotation pointer, whether a self-test is ordered (R196), the slice that runs and the slices left of a shut-down self-test. -/
structure Engine where
  state : EngSt
  cols : List Nat
  fifo : List WRow
  rows : List WRow
  ptr : Nat
  testDue : Bool
  run : Option SliceRun
  left : Nat
  deriving DecidableEq, Repr

/-- A weight stream of a key (R177, R178, R194): its number, its segments as (K_BASE, K_CNT, N_BASE, N_CNT), its
fingerprint, whether it still runs, and when its segments crossed, each with its N_BASE (R183). -/
structure WStream where
  key : WKey
  num : Nat
  segs : List (Nat × Nat × Nat × Nat)
  fp : W64
  live : Bool
  seen : List (W64 × Nat)
  deriving DecidableEq, Repr

/-- A sealed generation (R245, R256): the descriptor's fields. -/
structure Gen where
  num : Nat
  slot : Nat
  era : W16
  layer : W16
  step : W32
  epoch : W16
  s1 : W64
  s2 : W64
  n : Nat
  k1 : W64
  k2 : W64
  tick : W64
  tensors : List (W32 × Nat)
  deriving DecidableEq, Repr

/-- A checkpoint digest (R249). -/
structure Ckd where
  s1 : W64
  s2 : W64
  n : Nat
  deriving DecidableEq, Repr

def Ckd.zero : Ckd := ⟨0, 0, 0⟩

/-- The checkpoint window of a partition (R247 to R252). `phase`: 0 open, 1 after CKPT_WRITTEN, 2 after CKPT_READ. -/
structure Window where
  phase : Nat
  era : W16
  step : W32
  layer : W16
  epoch : W16
  openTick : W64
  writtenTick : W64
  k1 : W64
  k2 : W64
  wr : Ckd
  rd : Ckd
  tensors : List (W32 × Nat)
  ckptTensors : List W32
  bad250 : Bool
  nclkLost : Bool
  readTick : W64
  kwr : Bool
  deriving DecidableEq, Repr

/-- A rollback in progress (R259 to R264): the generation named, epoch floor, cause, the tick of the cause and that at which the Keep
recorded it (which differ for a seal MISMATCH, R306, marked by `bySeal`), ticks, the restore CKD, RESTORE_BEGIN's epoch when taken,
RESTORE_END taken, the generations tried, the conditions C1 and C2, the ticks to the first fence, and the Keep's ticks spent before its
note (R264 word 10). -/
structure Rollback where
  gen : Nat
  floor : W16
  cause : Nat
  causeTick : W64
  recTick : W64
  bySeal : Bool
  causeSpire : Nat
  decided : W64
  noteTick : W64
  restore : Ckd
  beginEpoch : Option W16
  ended : Option W64
  tried : List Nat
  c1 : Bool
  c2 : Bool
  fenceTicks : Nat
  keepTicks : Nat
  deriving DecidableEq, Repr

/-- The last accepted Cadence word of a partition, or the last taken (R332, R334). -/
structure CadPos where
  era : W16
  step : W32
  layer : W16
  phase : Byte
  epoch : W16
  deriving DecidableEq, Repr

/-- An exponent envelope (R207, R208), with the STEP it learns from and for how many. -/
structure Envelope where
  layer : W16
  oper : W16
  loHi : Int
  hiHi : Int
  lo : List Nat
  hi : List Nat
  learnFrom : W32
  steps : Nat
  learned : Bool
  deriving DecidableEq, Repr

/-- One operation of an open layer key (R289, R290); `early` says that it was closed early (R292). -/
structure LkOp where
  uid : Nat
  spire : Nat
  od : Option W64
  rsv : Nat
  dd : W64
  id : Option W64
  rows : Nat
  varies : Bool
  early : Bool
  deriving DecidableEq, Repr

/-- An open layer key (R289 to R291). -/
structure LayerKey where
  epoch : W16
  era : W16
  step : W32
  layer : W16
  ops : List LkOp
  wd : W64
  segs : Nat
  refused : Bool
  deriving DecidableEq, Repr

/-- A closed key kept for replica comparison, attestation and orphans (R291, R294, R295): its LD record, the tile digest list, and
the replica entries it was compared under, those that found DIVERGE and await a TDLIST, and those it was exported for. -/
structure ClosedKey where
  body : LdBody
  tds : List (W16 × W64)
  ldxDone : Bool
  compared : List Nat
  diverge : List Nat
  exported : List Nat
  attested : Bool
  deriving DecidableEq, Repr

/-- A peer's LD record that has come (R293, R294): its die, the record, the replica entries it was compared under. -/
structure PeerRec where
  die : W16
  body : LdBody
  compared : List Nat
  deriving DecidableEq, Repr

/-- A peer's tile digest list of a key, as far as its TDLIST frames have come (R295). -/
structure PeerTds where
  die : W16
  part : Nat
  epoch : W16
  era : W16
  step : W32
  layer : W16
  tds : List (W16 × W64)
  deriving DecidableEq, Repr

/-- One entry of the tag table (R465, R466), the counts in the order of the rule. -/
structure TagEnt where
  layer : W16
  oper : W16
  counts : List Nat
  late : Nat
  deriving DecidableEq, Repr

/-- The entry of a key with nothing accounted. -/
def TagEnt.fresh (l r : W16) : TagEnt := ⟨l, r, List.replicate 12 0, 0⟩
/-- R466: the entry that each partition always has. -/
def TagEnt.rest : TagEnt := TagEnt.fresh 0xFFFF 0xFFFF

/-- An armed dump command (R476). -/
structure ArmedDump where
  tensor : W32
  step : W32
  era : Option W16
  deriving DecidableEq, Repr

/-- A tensor dump being written (R479): `beats` says of which row and beat the bytes are, and how many, in their order. -/
structure DumpJob where
  uid : Nat
  spire : Nat
  era : W16
  step : W32
  dsc : BitVec 256
  late : Bool
  od : W64
  bytes : List Byte
  beats : List (Nat × Nat × Nat)
  lost : Nat
  gaps : List (Nat × Nat)
  deriving DecidableEq, Repr

/-- The statement of a step waiting for signature (R314 to R316). -/
structure AttJob where
  part : Nat
  epoch : W16
  era : W16
  step : W32
  stmt : List Byte
  deriving DecidableEq, Repr

/-- The counters of a partition's block (R529) and its RPL block (R199) and meters (R486). -/
structure PartCnt where
  mirage : W32
  suspect : W32
  late : W32
  premise : W32
  deficit : W32
  envNokey : W16
  ldOrphan : W16
  attNosig : W16
  attUnlic : W16
  talRefused : W16
  mtIgn : W16
  rpl : List W32
  meters : List W64
  cisUse : W32
  cisQref : W32
  deriving DecidableEq, Repr

/-- The logs a partition has in the near window (R257, R292, R473, R479, R492), a trace line with its Spire and the high word of its first
entry's tick; dumps with their offsets in the dump area, and where
the next one begins. -/
structure PartLogs where
  notes : Log Note
  digests : Log Rec
  meters : Log Rec
  trace : Log (Nat × W32 × List TrcEntry)
  dumps : List (Nat × Rec)
  dumpPos : Nat
  deriving DecidableEq, Repr

/-- One partition. `named` holds the tensors of its CKPT descriptors since the job began (R91), `apart` the digest of the lines
digested apart (R250), `oasisMem` the oasis descriptors as written to its slots of the near window (R256), `failed` the generations of the job
that failed restore verification, with the ticks of their seals (R264), `mtSeen` an MTVIOL of the interval (R252), `mtLast` the tick of the
last MTVIOL (R264). -/
structure Part where
  job : Bool
  norecov : Bool
  epoch : W16
  epochTick : W64
  pos : CadPos
  accepted : Option CadPos
  sealFail : Byte
  gens : List Gen
  failed : List (Nat × W64)
  maxGen : Nat
  window : Option Window
  rb : Option Rollback
  intervalTick : W64
  hangSeen : Bool
  mtSeen : Bool
  mtLast : Option W64
  lastRcv : Option Rec
  c4Open : Bool
  named : List W32
  apart : Ckd
  oasisMem : List (Nat × List W32)
  envs : List Envelope
  envFirst : List (W16 × W16 × W32)
  attCounted : Bool
  keys : List LayerKey
  closed : List ClosedKey
  tags : List TagEnt
  armed : Option ArmedDump
  dumpQ : List DumpJob
  spares : List Nat
  cnt : PartCnt
  logs : PartLogs
  deriving DecidableEq, Repr

/-- A Belfry input (R338): code, class, source kind, partition, Spire or 0xFFFF, layer, cause, the operation concerned and the row of its
sample, 0 where none, the tick it was recorded at, and that of its cause (the first ingress beat for a seal MISMATCH, R306). -/
structure Input where
  code : Nat
  cls : Nat
  kind : Nat
  part : Nat
  spire : Nat
  layer : W16
  cause : Nat
  uid : Nat
  row : Nat
  tick : W64
  ctick : W64
  deriving DecidableEq, Repr

/-- A privileged command waiting in the Belfry (R533): its instance and the KEEP_CMD word. -/
structure CmdIn where
  inst : Nat
  word : W32
  budget : W32
  deriving DecidableEq, Repr

/-- The Belfry (R337 to R355). `timers` are the firings carried, as (peal, partition), `timersNow` those noted for the next Belfry tick;
`cadCarry` are the partitions whose first Cadence word was carried, `cmdCarry` and `wcCarry` count the commands and label sets carried; `counts`
hold of each running count its peal, its key
(a Spire, or 65536 + a partition), the count and the Belfry tick it began at; `tick` is the last Belfry tick's number. -/
structure Belfry where
  run : Bool
  carried : Bool
  lastInputs : Byte
  cancelCnt : W32
  carryCnt : W32
  tickslipCnt : W32
  missCnt : W32
  ofsdriftCnt : W32
  inputs : List Input
  carriedIn : List Input
  cadFifo : List (BitVec 128)
  cadCarry : List Nat
  cmds : List CmdIn
  cmdCarry : Nat
  wcSets : List W64
  wcCarry : Nat
  timers : List (Nat × Nat)
  timersNow : List (Nat × Nat)
  disarmed : List Nat
  counts : List (Nat × Nat × Nat × W64)
  tick : W64
  deriving DecidableEq, Repr

/-- Time (R317 to R323, R355). -/
structure TimeSt where
  tick : W64
  run : Bool
  trefOk : Bool
  holdover : Bool
  trefLost : Bool
  ppsOk : Bool
  ppsLost : Bool
  ppsDrift : Bool
  tickslip : Bool
  ofsdrift : Bool
  tsync : BitVec 4
  trefDiff : BitVec 4
  ppsLast : W64
  ppsPeriod : W64
  ppsSeen : Bool
  alignWait : Bool
  maxDev : Int
  domeSkew : List (Nat × Int)
  spireSkew : List (Nat × Int)
  domeLat : List (Nat × Nat)
  spireLat : List (Nat × Nat)
  deriving DecidableEq, Repr

/-- One mailbox instance (R506, R507). -/
structure Mbx where
  sel : BitVec 24
  valid : Bool
  err : BitVec 2
  echo : BitVec 24
  latching : Bool
  data : List W32
  deriving DecidableEq, Repr

/-- One KEEP_CMD instance (R533, R534): register values, KEEP_CMDRES, running and queued commands, and which command KEEP_CMDRES
reports, the newest issued: 1 the running one, 2 the queued one, 0 another. -/
structure CmdInst where
  cmd : W32
  arg : W32
  res : W32
  running : Option W32
  queued : Option W32
  shown : Nat
  deriving DecidableEq, Repr

/-- The KEEP page and the block's alarms (R509 to R516, R524, R525). Units are numbered as KEEP_UNIT_EN's bits, a Dome d is 256 + d,
a Spire i is 65536 + i: `safe` lists those in their safe state, `unitHeld` those R511 holds there, `unitOff` the bits that
partition 0 cleared, `cfgpar` the mismatches with their ticks, `badPar` the configuration registers, by unit and CSR address, whose parity bit
disagrees with their 32 bits (R510). `drainLost` counts per partition the records lost by a drain; `readback` holds
the descriptors that firmware has read from the oasis slots after a Keep warm reset, by partition and slot (R279), `lostSamples` the samples
that the reset lost and firmware has still to record (R191). -/
structure KeepSt where
  alert : BitVec 12
  clkloss : BitVec 5
  lostNow : List HostClk
  unitEn : BitVec 14
  unitHeld : List Nat
  unitOff : BitVec 14
  cfgpar : List (Nat × W64)
  badPar : List (Nat × Nat)
  safe : List Nat
  lock : BitVec 4
  locked : BitVec 4
  hosttag : W32
  hosttagLocked : Bool
  accstat : BitVec 7
  accCnt : List W32
  accLast : List (Nat × Nat × W64 × Nat)
  kwr : Byte
  kwrTicks : List W64
  kwrCause : Nat
  draining : Bool
  drainLost : List Nat
  lostSamples : List Sample
  kwrDown : Bool
  readback : List (Nat × Nat × List W32)
  shutdown : Bool
  dieFault : Bool
  fault : Bool
  mbx : List Mbx
  talloc : List (BitVec 2 × Nat)
  cmd : List CmdInst
  deriving DecidableEq, Repr

/-- One Tally (R276, R531). -/
structure Tally where
  held : Bool
  part : Nat
  count : W32
  target : W32
  owner : W16
  arg : W16
  op : BitVec 3
  result : BitVec 3
  waiters : List Nat
  deriving DecidableEq, Repr

/-- A message of a Spire on its way to the Keep (R365): its notices, captures, abandoned samples, the records of an operation,
its profile (whether it travels in VHI, e_hi and bins), and its digests with the accounting block of R465. -/
inductive Msg where
  | notice (spire uid row kind winFirst : Nat) (tick : W64)
  | fragment (spire uid row : Nat) (codes : List Nat) (scales : List Byte)
  | result (spire uid row : Nat) (win : List Nat) (scales : List Byte) (digests : List (W32 × Byte))
  | abandon (spire uid row cause : Nat) (incon : Bool)
  | summary (spire uid : Nat) (recs : List Rec) (scr : ScreenRes) (range : Nat) (susp event : Bool) (od : W64) (endTick : W64)
  | profile (spire uid : Nat) (vhi : Bool) (r : Rec) (hi : Option Int) (bins : List Nat)
  | digests (spire uid : Nat) (od : W64) (rsv : Nat) (dd : W64) (id : Option W64) (acct : List Nat) (early : Bool)
  deriving DecidableEq, Repr

/-- A FENCE_DONE report (R231), with the tick at which FENCE_COMPUTE was asserted. -/
structure DoneMsg where
  spire : Nat
  fseq : Byte
  tick : W64
  deriving DecidableEq, Repr

/-- The hang path (R269 to R273): 0 none, 1 graph, 2 dump, 3 compute reset. `cause` is the input that began it,
`causeTick` its tick and `recTick` that at which it was recorded, `firstFence` the tick at which
the first fence landed since, `parts` the parts of the last dump as words (R271), `graph` and `snap` the graph and the snapshot of step 2 as words. -/
structure HangSt where
  stage : Nat
  dump : Bool
  cause : Nat
  hung : List Nat
  roots : List Nat
  causeTick : W64
  recTick : W64
  firstFence : Option W64
  parts : List (List W32)
  dumpBytes : Nat
  truncated : Bool
  resetting : Bool
  waitProgress : Bool
  back : Bool
  pathTick : W64
  readyTick : W64
  graph : List W32
  snap : List W32
  deriving DecidableEq, Repr

/-- A frame sent on a Banen port and not yet acknowledged (R300): type, sequence number, content as words, resends. -/
structure SentFrame where
  ftype : Byte
  seq : W16
  body : List W64
  resends : Nat
  deriving DecidableEq, Repr

/-- One Banen port (R297 to R301, R328, R330): `queue` are the frames that wait for room in the replay buffer, `lastTx` the bytes of the last
frame sent, `cand` the version at which qualification runs (0: the highest), `measured` that the measurement after its training is complete, `past` the times
before that it was up: the peer, from, until (R303). -/
structure Port where
  up : Bool
  ver : Nat
  zka2 : Bool
  peerRev : BitVec 4
  peerRel : Byte
  peerDie : W16
  keyed : Bool
  downev : Bool
  badfrm : W32
  naktx : W32
  resend : W32
  sendSeq : W16
  recvSeq : W16
  replay : List SentFrame
  queue : List (Byte × List W64)
  lastTx : List Byte
  naked : Bool
  nonce : W64
  key : Nat
  ofs : W64
  exch : List (Int × Int)
  checking : Bool
  measured : Bool
  driftSign : Int
  quals : Nat
  qver : Nat
  cand : Nat
  trained : W64
  past : List (W16 × W64 × W64)
  waiting : Bool
  deriving DecidableEq, Repr

/-- A pending seal entry (R304); `unread` says that it was read as poison, so its halves are decided at SEAL_WAIT (R381). -/
structure SealEnt where
  key : SealKey
  ingress : Option (W64 × W32 × Bool × Nat × W64)
  frame : Option (W64 × W32 × Bool × W64)
  first : W64
  port : Nat
  down : Bool
  unread : Bool
  deriving DecidableEq, Repr

/-- A launch in progress (R310 to R312). `role`: 0 none, 1 coordinator, 2 peer; `props` are the proposals sent and not yet answered (port, launch
number, attempt), `aborted` says that a peer's proposal was aborted. -/
structure LaunchSt where
  role : Nat
  t : W64
  num : W32
  nextNum : W32
  attempt : Nat
  acks : List Nat
  props : List (Nat × W32 × Nat)
  aborted : Bool
  committed : Bool
  naked : Bool
  out : Bool
  port : Nat
  deriving DecidableEq, Repr

/-- A Dome (R363, R372 to R374, R460, R535). `retries` counts the requests of a flit in a row per link, `seamErr` the retries of a seam
group in a second (link, second, count), `backlog` the bytes a Spire last reported (Spire, WIT, REC, BULK), `granted` the bytes granted
to it with their ticks, `witServed` the witness bytes granted to each partition (R373), `spareMap` the failing wires that spares replaced
(away from the Keep or toward it, group, wire; R362), `stormTick` the tick of the last VSTORM record, `vlate` the late records of the field and `stormLate` those counted by then, `vbytes` the verdict bytes offered
and carried in the last millisecond with their ticks, `vqueue` those offered and not yet carried (R369). -/
structure Dome where
  ix : Nat
  up : Bool
  released : Bool
  order : BitVec 256
  down : List LinkId
  retries : List (LinkId × Nat)
  backlog : List (Nat × Nat × Nat × Nat)
  deficit : List Nat
  nextSp : List Nat
  bucket : Nat
  witServed : List Nat
  granted : List (Nat × Nat × W64)
  groupsUp : List Bool
  groupsDn : List Bool
  spareMap : List (Bool × Nat × Nat)
  seamErr : List (LinkId × Nat × Nat)
  stormTick : Option W64
  stormLate : W32
  vlate : W32
  vbytes : List (W64 × Nat × Nat)
  vqueue : Nat
  sensor : Sensor
  big : List W64
  deriving DecidableEq, Repr

/-- What the near or far port still has to do (R474): the writes, each of a whole item; the header of a queue or log, with the PROD it
brings (R257: 0 notes, 1 digest log, 2 meter log, 3 trace ring); the read of an oasis slot (R279). -/
inductive NearItem where
  | note (p n : Nat)
  | head (log p prod : Nat)
  | oasisRead (p slot : Nat)
  | oasis (p slot : Nat)
  | evidence (r : Rec)
  | witness (uid row : Nat)
  | hangDump (bytes : Nat)
  | digestLog (p n : Nat)
  | meterLog (p n : Nat)
  | trace (p n : Nat)
  | dump (p offset : Nat)
  deriving DecidableEq, Repr

/-- An outstanding request of a memory port (R87, R88, R92): its tag, item and the number of the item's issue, whether it writes, its line
address inside the window, its lines of 64 bytes, the words written or those read so far, whether a read has been poisoned, retries. -/
structure MemReq where
  tag : Byte
  item : NearItem
  issue : Nat
  wr : Bool
  addr : Nat
  lines : Nat
  words : List W32
  poison : Bool
  retries : Nat
  retryDue : Bool
  deriving DecidableEq, Repr

/-- An item being issued, in requests of up to 64 lines: the number of the issue, its first line's address, the lines requested, the lines in
all. -/
structure Issue where
  item : NearItem
  num : Nat
  base : Nat
  done : Nat
  total : Nat
  deriving DecidableEq, Repr

/-- A memory port: items waiting, the item being issued, the next number of an issue, requests outstanding, counters of R460. -/
structure MemPort where
  waiting : List NearItem
  cur : Option Issue
  nextIssue : Nat
  out : List MemReq
  nextTag : Byte
  big : List W64
  deriving DecidableEq, Repr

/-- A bank's status (R382, R389). -/
structure Bank where
  sparesUsed : Nat
  spareOut : Bool
  failed : Bool
  ce : W16
  ue : Byte
  remap : List (Nat × Nat)
  deriving DecidableEq, Repr

/-- The Cistern (R375 to R389): data and check bits of every written byte keyed by bank × 2^23 + bank address. `found` holds per
array row (bank, row) the bytes corrected and uncorrectable found since its last scrub began or its remap (R382). `scrubQ` are the
slices ordered, in rows, `superseded` the lines (bank, line) of the present slice whose write-back was dropped (R385); `testBank` is the bank that the operator's TEST runs on (R388); `last` is what the last read returned, with its poison bits; firmware fetches from bank `execBank` and reads from bank
`readBank` (R376). -/
structure Cistern where
  data : List Host.Cell
  check : List Host.Cell
  filled : Bool
  execBank : Bool
  readBank : Bool
  mirrorOk : Bool
  ueSeen : Bool
  unwrSeen : Bool
  ceCnt : W32
  ueCnt : W32
  unwrCnt : W32
  scrubPass : W32
  scrubSuper : W32
  recDrop : W32
  wrstLost : W32
  banks : List Bank
  bcmd : W32
  scrubPos : Nat
  scrubQ : List Nat
  superseded : List (Nat × Nat)
  testBank : Option Nat
  found : List (Nat × Nat × Nat × Nat)
  linesRead : W64
  linesWritten : W64
  siroccoLines : W64
  last : List (Byte × Bool)
  deriving DecidableEq, Repr

/-- The Caravan page (R389), the messages in flight, and the uplinks that hold no credit: Spire, class, since when (R270, R366). -/
structure Caravan where
  vstorm : Bool
  seamdeg : Bool
  routefail : Bool
  vlate : W32
  linkretry : W32
  sidemaj : W32
  fcrc : W32
  flight : List Msg
  held : List (Nat × Nat × W64)
  frames : List (Nat × W32)
  done : List DoneMsg
  deriving DecidableEq, Repr

/-- What the instance was built with (R523), which the image's geometry may not exceed: per Dome the map of its Spires, the weight, memory and
link taps, the Banen ports. -/
structure Built where
  spires : List (BitVec 256)
  wports : Nat
  mtaps : Nat
  ltaps : Nat
  banen : Nat
  deriving DecidableEq, Repr

/-- Bring-up (R397, R402, R415 to R426). `fwLen` and `fwHash` are the length and the SHA-384 hash of the firmware code loaded (R278), `began` holds
the ticks at which steps 1 on began (R425), `rstAcks` the tiles that acknowledged their reset before the image was loaded (R398). -/
structure Boot where
  step : Nat
  ready : Bool
  slot : Bool
  fallback : Bool
  mode : Nat
  fail : Nat
  imgA : Nat
  imgB : Nat
  started : Bool
  readOk : Bool
  retries : Nat
  discovered : Bool
  firmware : Bool
  clocks : Bool
  memories : Bool
  seams : Bool
  ent : Byte
  accepted : Nat
  rejected : Nat
  tapsV3 : Nat
  tapsV2 : Nat
  slots : List (List Nat)
  fwLen : Nat
  fwHash : List Byte
  softLost : Bool
  began : List W64
  rstAcks : List Nat
  deriving DecidableEq, Repr

/-- Pads and JTAG (R391, R394, R395): the levels of COLD_RESET_N asserted and PWR_GOOD, the thermal latch, LAUNCH_OUT, the instruction
register, the boundary register's drive values and what it last took from the pads, whether it drives the pads, and whether the block uses the XSPI pads (R407). What each output pad shows follows
from these and the rest of the state (`padDrive`). -/
structure Pads where
  coldReset : Bool
  pwrGood : Bool
  thermtrip : Bool
  launchOut : Bool
  ir : Byte
  boundary : BitVec 32
  sampled : BitVec 32
  driven : Bool
  xspi : Bool
  deriving DecidableEq, Repr

/-- One soft repair entry (R442). A tile's slice is its position in the tile's full set, which tells a slice of the type from one of the Spire set
(log 99). `solid` says that its slice failed SOLID in the shut-down self-test (R444), `clear` that R445 marked
it for removal. -/
structure RepairEnt where
  tile : Bool
  unit : Nat
  spare : Nat
  slice : Nat
  fused : Bool
  clear : Bool
  solid : Bool
  tick : W64
  deriving DecidableEq, Repr

/-- The NVM (R403 to R406, R442, R443): the two copies of the repair record and of the snapshot, as bytes; what firmware took from them or last
wrote to them; the snapshot and the repair record waiting to be written; `repairDue` holds the tiles whose repair is due, each
with its failing slice, none after CHECKER_FAIL (R441); `sfdp` is what discovery read, `ins` what was issued to the device at its last use. -/
structure Nvm where
  entries : List RepairEnt
  valid : Bool
  repairSeq : Nat
  snapSeq : Nat
  tiles : List (Nat × Nat)
  ptrs : List (Nat × Nat)
  engPtrs : List Nat
  imageSeq : W64
  snapPending : Bool
  snapTick : Option W64
  repairDue : List (Nat × Option Nat)
  repairPending : Bool
  repA : List Byte
  repB : List Byte
  snapA : List Byte
  snapB : List Byte
  sfdp : Option SfdpData
  ins : List NvmIns
  deriving DecidableEq, Repr

/-- The thermal supervisor and self-test (R438, R440, R450 to R457). `sdtBanks` holds the banks that the shut-down self-test has still to test. -/
structure Thermal where
  level : Nat
  tlevel : Nat
  plevel : Nat
  swept : Bool
  snsbad : Bool
  maxTemp : Int
  maxSrc : Nat
  sdtState : Nat
  sdtLeft : Nat
  sdtFailed : Nat
  sdtRun : Nat
  sdtPass : Nat
  sdtInst : Nat
  sdtBudget : Nat
  sdtStart : W64
  sdtBanks : List Nat
  cnts : List W32
  sweptSet : List (Bool × Nat)
  deriving DecidableEq, Repr

/-- The six extremes of a scope (R482, R485) in the order of the ERG page: value, Spire, tick. -/
abbrev Exts := List (Option (Int × Nat × W64))

/-- A histogram scope of the Erg (R481, R482): bins of RESID, VLAT, RLAG, SLAG, TEMP, and the extremes. -/
structure ErgScope where
  resid : List W64
  vlat : List W64
  rlag : List W64
  slag : List W64
  temp : List W64
  ext : Exts
  deriving DecidableEq, Repr

/-- The Erg (R481 to R485). `views` holds per partition the baselines, `viewExt` the extremes since its last clear, per scope,
and `viewPub` those published. -/
structure Erg where
  seq : W32
  work : List ErgScope
  pub : List ErgScope
  views : List (List ErgScope)
  viewExt : List (List Exts)
  viewPub : List (List Exts)
  clrPend : List Bool
  deriving DecidableEq, Repr

/-- Meters and the wall-clock label (R486 to R493). `base` is the label at `baseTick`; `closed` says that the period that holds the
present tick was closed early (R488); `deferred` are records kept back in the safe state (R511). -/
structure Mtr where
  wallback : Bool
  wcSet : Bool
  setCnt : W32
  backCnt : W32
  wcLo : W32
  wcHi : W32
  base : W64
  baseTick : W64
  pnum : W64
  pstart : W64
  plabel : W64
  regress : W64
  sets : W32
  highEnd : W64
  first : Bool
  deferred : List Rec
  closed : Bool
  deriving DecidableEq, Repr

/-- The TRC page (R493). `dctl` holds TRC_DTENSOR, TRC_DSTEP and TRC_DCTL, which all requesters share. -/
structure Trc where
  deepref : W32
  ringlost : W32
  dumps : W32
  dumpref : W32
  dctl : W32 × W32 × W32
  deriving DecidableEq, Repr

/-- The management bus (R517 to R520): the address pointer and read length, the code of the last WRITE, what a private read returns, the dynamic
address, whether the next private read is NACKed; and the fault whose first byte the last SMBus transaction was NACKed on (R519). -/
structure Mgmt where
  addr : BitVec 24
  len : Nat
  wstat : BitVec 2
  dataOut : List Byte
  dyn : Option (BitVec 7)
  nackOnce : Bool
  nacked : Option MgmtFault
  deriving DecidableEq, Repr

/-- The response last given on the CSR port (R497): tag, data, code. -/
structure CsrRsp where
  tag : BitVec 4
  rdata : W32
  err : BitVec 2
  deriving DecidableEq, Repr

end Sys2Proof.Machine
end

