-- ==== Sys2Proof/Machine/State.lean ====
section
/-! DEFINITION. The whole state of the block as plain data, the ways a step can stop, and the state at cold reset. -/

namespace Sys2Proof.Machine

/-- Why the machine stops. -/
inductive Fault where
  /-- Raised by no command: the manual's own faults are effects on State (R91), and this block has no stuck state. It is
  declared so that the interface has a fault type. Safe: nothing relies on it. -/
  | none
  deriving DecidableEq, Repr

/-- Why a command has no meaning. -/
inductive Refusal where
  /-- Raised only by an arm of exec whose command has no meaning yet. Safe: the machine stops where the block goes on. -/
  | notModelled (mnemonic : String)
  deriving DecidableEq, Repr

/-- The state of the block, and the queue of commands that wait. -/
structure State where
  time : TimeSt
  keep : KeepSt
  belfry : Belfry
  fuses : FuseArray
  built : Built
  boot : Boot
  pads : Pads
  image : Option Image
  imageHash : List Byte
  imageSeq : W64
  imageBuild : W64
  imageFlags : Byte
  imageKey : Nat
  imageSvn : Nat
  nvm : Nvm
  parts : List Part
  tiles : List Tile
  spires : List Spire
  domes : List Dome
  ops : List OpV
  opSeq : Nat
  tickets : List Ticket
  samples : List Sample
  engines : List Engine
  streams : List WStream
  lastHdr : List (Nat × W16)
  wkey : Option Nat
  hang : HangSt
  tallies : List (Nat × Tally)
  tallyQ : List (Nat × Nat)
  ports : List Port
  seals : List SealEnt
  sealMis : List (Nat × W64)
  sealMatch : W64
  launch : LaunchSt
  attQ : List AttJob
  peerRecs : List PeerRec
  peerTds : List PeerTds
  caravan : Caravan
  cistern : Cistern
  records : List Rec
  early : List Rec
  near : MemPort
  far : MemPort
  thermal : Thermal
  erg : Erg
  mtr : Mtr
  trc : Trc
  mgmt : Mgmt
  csr : CsrRsp
  cadNack : Bool
  portViols : List (Nat × W32)
  big : List (Nat × List W64)
  rng : Nat
  pending : List Instr
  deriving DecidableEq, Repr

/-- A blank fuse array (log 7: no fuse is blown until a fuse read gives its contents). -/
def FuseArray.blank : FuseArray :=
  ⟨0, 0, 0, 0, 0, 0, 0, 0, 0, 0, false, 0, [], []⟩

/-- A full ZK3 instance (R29, R523; log 107: the manual leaves what an instance is built with to the instance). -/
def Built.full : Built := ⟨List.replicate 64 (BitVec.allOnes 256), 16, 16, 64, 4⟩

def Part.reset : Part where
  job := false
  norecov := false
  epoch := 0
  epochTick := 0
  pos := ⟨0, 0, 0, 0, 0⟩
  accepted := none
  sealFail := 0
  gens := []
  failed := []
  maxGen := 0
  window := none
  rb := none
  intervalTick := 0
  hangSeen := false
  mtSeen := false
  mtLast := none
  lastRcv := none
  c4Open := false
  named := []
  apart := ⟨0, 0, 0⟩
  oasisMem := []
  envs := []
  envFirst := []
  attCounted := false
  keys := []
  closed := []
  tags := [TagEnt.rest]
  armed := none
  dumpQ := []
  spares := []
  cnt := ⟨0, 0, 0, 0, 0, 0, 0, 0, 0, 0, 0, List.replicate 15 0, List.replicate 10 0, 0, 0⟩
  logs := ⟨Log.empty, Log.empty, Log.empty, Log.empty, [], 0⟩

def Port.reset : Port :=
  ⟨false, 0, false, 0, 0, 0, false, false, 0, 0, 0, 0, 0, [], [], [], false, 0, 0, 0, [], false, false, 0, 0, 0, 0, 0, [], false⟩

def Engine.reset : Engine := ⟨.off, [], [], [], 0, false, none, 0⟩

def Bank.reset : Bank := ⟨0, false, false, 0, 0, []⟩

def Mbx.reset : Mbx := ⟨0, false, 0, 0, false, List.replicate 12 0⟩

def ErgScope.zero : ErgScope :=
  ⟨List.replicate 16 0, List.replicate 24 0, List.replicate 24 0, List.replicate 16 0, List.replicate 32 0,
    List.replicate 6 none⟩

/-- The state right after cold reset: the reset columns of the register tables, and where the manual gives none the values
of log 1 (zero, none or empty), log 6 (the Cistern), log 7 (the fuses). -/
def State.reset : State where
  time := ⟨0, false, false, false, false, false, false, false, false, false, 0, 0, 0, 0, false, false, 0, [], [], [], []⟩
  keep :=
    { alert := 0, clkloss := 0, lostNow := [], unitEn := 0, unitHeld := [], unitOff := 0, cfgpar := [], badPar := [],
      safe := [], lock := 0, locked := 0, hosttag := 0, hosttagLocked := false, accstat := 0,
      accCnt := List.replicate 7 0, accLast := [], kwr := 0, kwrTicks := [], kwrCause := 0, draining := false, drainLost := List.replicate 16 0, lostSamples := [], kwrDown := false, readback := [],
      shutdown := false, dieFault := false, fault := false,
      mbx := List.replicate 17 Mbx.reset,
      talloc := List.replicate 17 (0, 0), cmd := List.replicate 17 ⟨0, 0, 0, none, none, 0⟩ }
  belfry := ⟨false, false, 0, 0, 0, 0, 0, 0, [], [], [], [], [], 0, [], 0, [], [], [], [], 0⟩
  fuses := FuseArray.blank
  built := Built.full
  boot :=
    { step := 0, ready := false, slot := false, fallback := false, mode := 0, fail := 0, imgA := 0, imgB := 0,
      started := false, readOk := false, retries := 0, discovered := false, firmware := false, clocks := false,
      memories := false, seams := false, ent := 0, accepted := 0, rejected := 0, tapsV3 := 0, tapsV2 := 0, slots := [],
      fwLen := 0, fwHash := [], softLost := false, began := [], rstAcks := [] }
  pads := ⟨true, true, false, false, 0x01, 0, 0, false, false⟩
  image := none
  imageHash := []
  imageSeq := 0
  imageBuild := 0
  imageFlags := 0
  imageKey := 0
  imageSvn := 0
  nvm := ⟨[], false, 0, 0, [], [], [], 0, false, none, [], false, [], [], [], [], none, []⟩
  parts := List.replicate 16 Part.reset
  tiles := []
  spires := []
  domes := []
  ops := []
  opSeq := 1
  tickets := []
  samples := []
  engines := List.replicate 64 Engine.reset
  streams := []
  lastHdr := []
  wkey := none
  hang := ⟨0, false, 0, [], [], 0, 0, none, [], 0, false, false, false, false, 0, 0, [], []⟩
  tallies := []
  tallyQ := []
  ports := List.replicate 4 Port.reset
  seals := []
  sealMis := []
  sealMatch := 0
  launch := ⟨0, 0, 0, 0, 0, [], [], false, false, false, false, 0⟩
  attQ := []
  peerRecs := []
  peerTds := []
  caravan := ⟨false, false, false, 0, 0, 0, 0, [], [], [], []⟩
  cistern :=
    { data := [], check := [], filled := false, execBank := false, readBank := false, mirrorOk := false, ueSeen := false, unwrSeen := false,
      ceCnt := 0, ueCnt := 0, unwrCnt := 0, scrubPass := 0, scrubSuper := 0, recDrop := 0, wrstLost := 0,
      banks := List.replicate 32 Bank.reset, bcmd := 0, scrubPos := 0, scrubQ := [], superseded := [], testBank := none, found := [], linesRead := 0, linesWritten := 0,
      siroccoLines := 0, last := [] }
  records := []
  early := []
  near := ⟨[], none, 0, [], 0, List.replicate 5 0⟩
  far := ⟨[], none, 0, [], 0, List.replicate 5 0⟩
  thermal := ⟨3, 0, 0, false, false, 0, 0, 0, 0, 0, 0, 0, 0, 0, 0, [], List.replicate 7 0, []⟩
  erg := ⟨0, List.replicate 17 ErgScope.zero, List.replicate 17 ErgScope.zero,
    List.replicate 16 (List.replicate 17 ErgScope.zero), List.replicate 16 (List.replicate 17 (List.replicate 6 none)),
    List.replicate 16 (List.replicate 17 (List.replicate 6 none)), List.replicate 16 false⟩
  mtr := ⟨false, false, 0, 0, 0, 0, 0, 0, 0, 0, 0, 0, 0, 0, true, [], false⟩
  trc := ⟨0, 0, 0, 0, (0, 0, 0)⟩
  mgmt := ⟨0, 0, 0, [], none, false, none⟩
  csr := ⟨0, 0, 0⟩
  cadNack := false
  portViols := []
  big := []
  rng := 0
  pending := []

end Sys2Proof.Machine
end

