-- ==== Sys2Proof/Machine/Operands.lean ====
section
/-! DEFINITION. The fields of everything that arrives as bits: descriptors (R51), Cadence words (R85), weight headers (R79), fence
frames (R230), peals (R344), range, plausibility and screen records (R146, R200, R201), and element packing (R58). -/

namespace Sys2Proof.Machine

abbrev Dsc := BitVec 256

def dKind (d : Dsc) : Nat := fld d 0 4
def dA (d : Dsc) : Fmt := fmtOf (BitVec.ofNat 4 (fld d 4 4))
def dB (d : Dsc) : Fmt := fmtOf (BitVec.ofNat 4 (fld d 8 4))
def dC (d : Dsc) : Fmt := fmtOf (BitVec.ofNat 4 (fld d 12 4))
def dAcc (d : Dsc) : Fmt := fmtOf (BitVec.ofNat 4 (fld d 16 4))
def dVaries (d : Dsc) : Bool := bitOf d 20
def dNocheck (d : Dsc) : Bool := bitOf d 21
def dCkpt (d : Dsc) : Bool := bitOf d 22
def dDump (d : Dsc) : Bool := bitOf d 23
def dContract (d : Dsc) : Nat := fld d 24 8
def dLayer (d : Dsc) : W16 := BitVec.ofNat 16 (fld d 32 16)
def dOper (d : Dsc) : W16 := BitVec.ofNat 16 (fld d 48 16)
def dTensor (d : Dsc) : W32 := BitVec.ofNat 32 (fld d 64 32)
def dEpoch (d : Dsc) : W16 := BitVec.ofNat 16 (fld d 96 16)
def dStag (d : Dsc) : W16 := BitVec.ofNat 16 (fld d 112 16)
def dMt (d : Dsc) : Nat := fld d 128 16
def dK (d : Dsc) : Nat := fld d 144 16 + 1
def dN (d : Dsc) : Nat := fld d 160 13 + 1
def dHint (d : Dsc) : Nat := fld d 176 8
def dReserved (d : Dsc) : Bool := fld d 173 3 != 0 || fld d 184 56 != 0
/-- R51, R536: DCRC over bits [239:0]. -/
def dCrcOk (d : Dsc) : Bool := crc16 240 d.toNat == fld d 240 16
def dMatmul (d : Dsc) : Bool := dKind d == 1
/-- R53: a checkable operation. -/
def dCheckable (d : Dsc) : Bool :=
  dMatmul d && !dNocheck d && dA d != .opq && dB d != .opq && dC d != .opq && dAcc d != .opq
/-- R57: P = ceil(K / 1,024) passes. -/
def dPasses (d : Dsc) : Nat := (dK d + 1023) / 1024
/-- The length of pass `p` (R57). -/
def dPassLen (d : Dsc) (p : Nat) : Nat := min 1024 (dK d - 1024 * p)
/-- R129: G = ceil(N / 32) column groups. -/
def dGroups (d : Dsc) : Nat := (dN d + 31) / 32
/-- R288: the bytes of the descriptor digest, [11:0] and [29:16]. -/
def dDigestBytes (d : Dsc) : List Byte := leBytes 12 d.toNat ++ leBytes 14 (d.toNat >>> 128)

/-- R58: elements in one beat of `bits` data bits. MX FP6 formats fill three quarters of it. -/
def perBeat (f : Fmt) (bits : Nat) : Nat :=
  match f with
  | .mxE3m2 | .mxE2m3 => bits / 8
  | .opq => 0
  | _ => bits / fmtWidth f

/-- Data bits of a beat: 512 on version 3, 256 on version 2 (R76). -/
def beatBits (ver : BitVec 4) : Nat := if ver = 2 then 256 else 512

/-- Element `i` of a beat (R58). -/
def elemOf (f : Fmt) (data : BitVec 512) (i : Nat) : Nat := fld data (fmtWidth f * i) (fmtWidth f)

/-- The scale byte of the j-th MX block that begins in the beat (R58). -/
def sclOf (scl : W32) (j : Nat) : Byte := BitVec.ofNat 8 (fld scl (8 * j) 8)

/-- The bytes of a packed run of element codes, zero above the last (R58, R286). -/
def packBytes (w : Nat) (codes : List Nat) : List Byte :=
  let x := codes.foldr (fun c a => c % 2 ^ w + 2 ^ w * a) 0
  leBytes ((codes.length * w + 7) / 8) x

/-- R59, R286: the bytes of one whole row; an MX row's scale bytes follow. FP6 elements pack at 6 bits. -/
def rowBytes (f : Fmt) (codes : List Nat) (scales : List Byte) : List Byte :=
  packBytes (fmtWidth f) codes ++ (if isMx f then scales else [])

/-- R58: the beats that carry a row of codes and, for an MX format, one scale for every 32 of them: data packed from bit 0 up, the
scale of the j-th block that begins in the beat at [8j+7:8j], unused bits 0. -/
def packBeats (ver : BitVec 4) (f : Fmt) (codes : List Nat) (scales : List Byte) : List (BitVec 512 × W32) :=
  let per := max 1 (perBeat f (beatBits ver))
  (List.range ((codes.length + per - 1) / per)).map fun j =>
    (BitVec.ofNat 512 (ofLe (packBytes (fmtWidth f) ((codes.drop (per * j)).take per))),
      BitVec.ofNat 32 (ofLe (if isMx f then (scales.drop (per / 32 * j)).take (per / 32) else [])))

/-- The bytes of a whole beat on a tap (R286). -/
def beatBytes (ver : BitVec 4) (data : BitVec 512) : List Byte := leBytes (beatBits ver / 8) data.toNat

/-! Cadence words (R85). -/

abbrev CadW := BitVec 128
def cStep (w : CadW) : W32 := BitVec.ofNat 32 (fld w 0 32)
def cEra (w : CadW) : W16 := BitVec.ofNat 16 (fld w 32 16)
def cLayer (w : CadW) : W16 := BitVec.ofNat 16 (fld w 48 16)
def cPhase (w : CadW) : Byte := BitVec.ofNat 8 (fld w 64 8)
def cEpoch (w : CadW) : W16 := BitVec.ofNat 16 (fld w 72 16)
def cPart (w : CadW) : Nat := fld w 88 4
def cReserved (w : CadW) : Bool := fld w 92 20 != 0
def cCrcOk (w : CadW) : Bool := crc16 112 w.toNat == fld w 112 16
def cPos (w : CadW) : CadPos := ⟨cEra w, cStep w, cLayer w, cPhase w, cEpoch w⟩

/-- R332: lexicographic order of positions, less than. -/
def posLt (a b : CadPos) : Bool :=
  let l : CadPos → Nat := fun c =>
    ((c.era.toNat * 2 ^ 32 + c.step.toNat) * 2 ^ 16 + c.layer.toNat) * 2 ^ 8 + c.phase.toNat
  l a < l b

/-- R333: serial-number comparison. -/
inductive Serial where
  | equal | later | earlier
  deriving DecidableEq, Repr

def serialCmp (a b : W16) : Serial :=
  let d := (a - b).toNat
  if d = 0 then .equal else if d < 32768 then .later else .earlier

def laterThan (a b : W16) : Bool := serialCmp a b == .later
def earlierThan (a b : W16) : Bool := serialCmp a b == .earlier

/-! Weight segment headers (R79). -/

abbrev WtHdr := BitVec 512
def hLayer (h : WtHdr) : W16 := BitVec.ofNat 16 (fld h 0 16)
def hOper (h : WtHdr) : W16 := BitVec.ofNat 16 (fld h 16 16)
def hTensor (h : WtHdr) : W32 := BitVec.ofNat 32 (fld h 32 32)
def hFmt (h : WtHdr) : Fmt := fmtOf (BitVec.ofNat 4 (fld h 64 4))
def hPart (h : WtHdr) : Nat := fld h 68 4
def hEpoch (h : WtHdr) : W16 := BitVec.ofNat 16 (fld h 72 16)
def hKBase (h : WtHdr) : Nat := fld h 96 32
def hKCnt (h : WtHdr) : Nat := fld h 128 32
def hNBase (h : WtHdr) : Nat := fld h 160 32
def hNCnt (h : WtHdr) : Nat := fld h 192 32
def hReserved (h : WtHdr) : Bool := fld h 88 8 != 0 || fld h 224 272 != 0
def hCrcOk (h : WtHdr) : Bool := crc16 496 h.toNat == fld h 496 16
def hKey (h : WtHdr) : WKey := ⟨hPart h, hEpoch h, hLayer h, hOper h⟩
/-- R79, R80: the ranges of the header's fields; an MX format needs whole blocks of rows; OPAQUE and INT32 carry no B (R99). -/
def hRangeOk (h : WtHdr) : Bool :=
  decide (1 ≤ hKCnt h) && decide (hKCnt h ≤ 65536) && decide (1 ≤ hNCnt h) && decide (hNCnt h ≤ 8192)
    && (hFmt h != .opq) && (!isMx (hFmt h) || (hKBase h % 32 == 0 && hKCnt h % 32 == 0))

/-! Fence frames (R230). -/

def fLocal (f : W32) : Nat := fld f 0 9
def fOp (f : W32) : Nat := fld f 9 3
def fSeq (f : W32) : Byte := BitVec.ofNat 8 (fld f 12 8)
def fCrcOk (f : W32) : Bool := crc8 24 f.toNat == fld f 24 8
/-- R230: the frame for a LOCAL index, an OP and a sequence number. -/
def mkFrame (loc op : Nat) (seq : Byte) : W32 :=
  let x := loc % 512 + 512 * (op % 8) + 4096 * seq.toNat
  BitVec.ofNat 32 (x + 2 ^ 24 * crc8 24 x)

def opFence : Nat := 1
def opTestOn : Nat := 2
def opTestOff : Nat := 3
def opDead : Nat := 4
def opRelease : Nat := 5
def opRetire : Nat := 6

/-! Peals (R344). -/

abbrev Peal := BitVec 128
def plKind (p : Peal) : Nat := fld p 0 3
def plPart (p : Peal) : Nat := fld p 3 4
def plAllp (p : Peal) : Bool := bitOf p 7
def plOnce (p : Peal) : Bool := bitOf p 8
def plAct (p : Peal) : Nat := fld p 9 5
def plTgt (p : Peal) : Nat := fld p 14 3
def plCond (p : Peal) : Nat := fld p 17 6
def plNeg (p : Peal) : Bool := bitOf p 23
def plIdx (p : Peal) : Nat := fld p 24 16
def plParam (p : Peal) : Nat := fld p 40 16
def plPeriod (p : Peal) : Nat := fld p 56 24
def plUnit (p : Peal) : Nat := fld p 80 2
def plOffset (p : Peal) : Nat := fld p 82 24
def plPhVal (p : Peal) : Nat := fld p 56 8
def plPhMsk (p : Peal) : Nat := fld p 64 8
def plCLo (p : Peal) : Nat := fld p 72 16
def plCHi (p : Peal) : Nat := fld p 88 16
def plMod (p : Peal) : Nat := fld p 104 12
def plRes (p : Peal) : Nat := fld p 116 12
def plTrig (p : Peal) : Nat := fld p 56 8
def plN (p : Peal) : Nat := fld p 64 4
def plWinx (p : Peal) : Nat := fld p 68 5
def plMask (p : Peal) : Nat := fld p 73 5
def plCause (p : Peal) : Nat := fld p 78 8
def plRLo (p : Peal) : Nat := fld p 86 16
def plRHi (p : Peal) : Nat := fld p 102 16
/-- R345: the unit in Belfry ticks. -/
def plUnitTicks (p : Peal) : Nat := 256 ^ plUnit p

/-! Range, plausibility and screen records (R146, R200, R201). -/

def rMagx (r : W64) : Nat := fld r 0 8
def rNanPol (r : W64) : Nat := fld r 8 2
def rInfPol (r : W64) : Nat := fld r 10 2
def rEnvEn (r : W64) : Bool := bitOf r 12
def rMargin (r : W64) : Nat := fld r 16 4
def rSlack (r : W64) : Nat := fld r 20 8
def rLearn (r : W64) : Nat := fld r 32 16
def qStragEn (r : W64) : Bool := bitOf r 0
def qFrac (r : W64) : Nat := fld r 1 7
def qStragN (r : W64) : Nat := fld r 8 4
def qPer (r : W64) : Nat := fld r 16 16
def qEnvKeys (r : W64) : Nat := fld r 32 13
def sKappa (r : W32) : Nat := fld r 0 4
def sOff (r : W32) : Bool := bitOf r 4

/-- Privileged command word (R533). -/
def cmdSpire (w : W32) : Nat := fld w 0 16
def cmdArg (w : W32) : Nat := fld w 16 8
def cmdOp (w : W32) : Nat := fld w 24 3
def cmdFlag (w : W32) : Bool := bitOf w 27
def cmdGo (w : W32) : Bool := bitOf w 28

/-- The mailbox, command and Tally instance of a requester (R506): 0 to 15 the CSR port's partitions, 16 the management bus. -/
def instOf : Requester → Nat
  | .csr p => p
  | .mgmt => 16

/-- The partition a requester is bound to (R498, R518). -/
def partOf : Requester → Nat
  | .csr p => p
  | .mgmt => 0

end Sys2Proof.Machine
end

