-- ==== Sys2Proof/Machine/Ops.lean ====
section
/-! DEFINITION. The named operations that read and change State, which every meaning is written with. -/

namespace Sys2Proof.Machine

/-- Replaces element `i` of a list by its image; a list that is too short is unchanged. -/
def updAt {α : Type} (l : List α) (i : Nat) (f : α → α) : List α := l.modify i f

/-! Register bits. -/

/-- The bits of a word from `lo`, `len` wide, replaced. -/
def setFld {w : Nat} (x : BitVec w) (lo len v : Nat) : BitVec w :=
  BitVec.ofNat w (x.toNat - (fld x lo len) * 2 ^ lo + (v % 2 ^ len) * 2 ^ lo)

/-- A word built of fields, each with its lowest bit. -/
def packW (l : List (Nat × Nat)) : W32 := BitVec.ofNat 32 (l.foldl (fun a x => a + x.2 * 2 ^ x.1) 0)

def b2n (b : Bool) : Nat := if b then 1 else 0

/-! Spires, tiles, Domes, partitions, engines. -/

def getSp (s : State) (i : Nat) : Option Spire := s.spires.find? fun t => t.ix == i
def updSp (s : State) (i : Nat) (f : Spire → Spire) : State :=
  { s with spires := s.spires.map fun t => if t.ix = i then f t else t }
/-- Runs a meaning on a Spire of the instance; an index that names none changes nothing (log 2). -/
def onSp (s : State) (i : Nat) (f : Spire → State) : State :=
  match getSp s i with
  | some sp => f sp
  | none => s
def getTile (s : State) (i : Nat) : Option Tile := s.tiles.find? fun t => t.ix == i
def updTile (s : State) (i : Nat) (f : Tile → Tile) : State :=
  { s with tiles := s.tiles.map fun t => if t.ix = i then f t else t }
def onTile (s : State) (i : Nat) (f : Tile → State) : State :=
  match getTile s i with
  | some t => f t
  | none => s
def getDome (s : State) (i : Nat) : Option Dome := s.domes.find? fun d => d.ix == i
def updDome (s : State) (i : Nat) (f : Dome → Dome) : State :=
  { s with domes := s.domes.map fun d => if d.ix = i then f d else d }
def getPart (s : State) (p : Nat) : Part := s.parts.getD p Part.reset
def updPart (s : State) (p : Nat) (f : Part → Part) : State := { s with parts := updAt s.parts p f }
def getEng (s : State) (e : Nat) : Engine := s.engines.getD e Engine.reset
def updEng (s : State) (e : Nat) (f : Engine → Engine) : State := { s with engines := updAt s.engines e f }
def getPort (s : State) (q : Nat) : Port := s.ports.getD q Port.reset
def updPort (s : State) (q : Nat) (f : Port → Port) : State := { s with ports := updAt s.ports q f }

/-- R39: the partition of a Spire; a tile the map does not name belongs to partition 0. -/
def partOfSp (s : State) (i : Nat) : Nat :=
  match getTile s i with
  | some t => t.part
  | none => 0

/-- The tile state of a Spire, HEALTHY where there is none. -/
def stateOf (s : State) (i : Nat) : Nat :=
  match getTile s i with
  | some t => t.state
  | none => 0

def stHealthy : Nat := 0
def stWatch : Nat := 1
def stFenced : Nat := 2
def stRetired : Nat := 3
def stDead : Nat := 4

/-! The image's settings, with the defaults the manual gives where no image is loaded. -/

def recov (s : State) : Option RecovParams := s.image.map (·.recov)
def area (s : State) : Option AreaParams := s.image.map (·.area)
def partCfg (s : State) (p : Nat) : Option PartCfg := s.image.bind fun im => im.parts[p]?
def rangeRec (s : State) (i : Nat) : W64 := (s.image.bind fun im => im.ranges[i]?).getD 0
def plausRec (s : State) (p : Nat) : W64 := (s.image.bind fun im => im.plaus[p]?).getD 0
def screenRec (s : State) (i : Nat) : W32 := (s.image.bind fun im => im.screens[i]?).getD 0
def contractRec (s : State) (i : Nat) : Option Contract :=
  match s.image.bind fun im => im.contracts[i]? with
  | some c => if ctrValid c then some c else none
  | none => none
def gradeW (s : State) : Nat := (s.image.map (·.geom.gradeW)).getD 1
/-- R117: the resolved width. -/
def widthOf (s : State) (c : Contract) : Nat := resolvedWidth c (gradeW s)
def pealAt (s : State) (i : Nat) : Peal := (s.image.bind fun im => im.peals[i]?).getD 0
/-- R112: the operation is treated as VARIES. The descriptor's bit has no effect in the Integer class (R116); a STREAM reads no
contract (R100). -/
def opVaries (s : State) (d : Dsc) : Bool :=
  if dMatmul d then
    (dVaries d && comboClass (dA d) (dB d) (dC d) (dAcc d) != some .integer)
      || ((contractRec s (dContract d)).map ctrVaryAlways).getD false
  else dVaries d

/-- R523: a Spire index that the instance was built with. -/
def builtSpire (b : Built) (ix : Nat) : Bool := ((b.spires[ix / 256]?).map fun m => m.getLsbD (ix % 256)).getD false

/-- R415, R425: a step of bring-up begins. -/
def stepBegins (s : State) (n : Nat) : State := { s with boot := { s.boot with step := n, began := s.boot.began ++ [s.time.tick] } }

/-! Time and free values. -/

def now (s : State) : W64 := s.time.tick

/-- The copy of the fabric tick that differs from the Keep's by what the list holds of a unit (R324, R325). -/
def copyOf (s : State) (skew : List (Nat × Int)) (u : Nat) : W64 :=
  BitVec.ofInt 64 ((s.time.tick.toNat : Int) + ((skew.find? fun x => x.1 == u).map (·.2)).getD 0)
/-- R326: the copies that stamp the records of a Spire and of a Dome. -/
def spNow (s : State) (i : Nat) : W64 := copyOf s s.time.spireSkew i
def domeNow (s : State) (d : Nat) : W64 := copyOf s s.time.domeSkew d

/-- R317: the Belfry tick number. -/
def belfryNo (s : State) : Nat := s.time.tick.toNat / 256
/-- Takes one fresh value of the random generator (log 5). -/
def draw (s : State) : W64 × State := (Config.random s.rng, { s with rng := s.rng + 1 })

/-! Units (R509 to R511). -/
def uBlf : Nat := 0
def uCis : Nat := 1
def uCvn : Nat := 2
def uRpl : Nat := 3
def uErg : Nat := 4
def uThm : Nat := 5
def uFus : Nat := 6
def uNvm : Nat := 7
def uBan : Nat := 8
def uTrc : Nat := 9
def uMtr : Nat := 10
def uPart : Nat := 11
def uDome (d : Nat) : Nat := 256 + d
def uSpire (i : Nat) : Nat := 65536 + i

/-- R510, R511: a unit or an instance is in its safe state. -/
def inSafe (s : State) (u : Nat) : Bool := s.keep.safe.contains u

/-! Alarms. -/

/-- R525: sets a bit of KEEP_ALERT, which asserts ALERT_N. -/
def alert (s : State) (b : Nat) : State :=
  { s with keep := { s.keep with alert := s.keep.alert ||| BitVec.ofNat 12 (2 ^ b) } }
def alRecovery : Nat := 0
def alFence : Nat := 1
def alHang : Nat := 2
def alMemport : Nat := 3
def alBanen : Nat := 4
def alTime : Nat := 5
def alCaravan : Nat := 6
def alCistern : Nat := 7
def alImage : Nat := 8
def alCfgpar : Nat := 9
def alPeal : Nat := 10
def alPortclk : Nat := 11

/-! Counters. -/

/-- R458: the light counters count from the end of bring-up step 2. -/
def countsOn (s : State) : Bool := decide (3 ≤ s.boot.step)

/-- Adds to Spire counter `k` of R463's table (offset 4k), saturating. -/
def spCount (s : State) (i k n : Nat) : State :=
  if countsOn s then updSp s i fun sp => { sp with cnt := updAt sp.cnt k (satAdd · n) } else s
def kOps : Nat := 0
def kUnchk : Nat := 1
def kPass : Nat := 2
def kSus : Nat := 3
def kInc : Nat := 4
def kSkp : Nat := 5
def kWeak : Nat := 6
def kOvr : Nat := 7
def kNonfin : Nat := 8
def kIgn : Nat := 9
def kViol : Nat := 10
def kLate : Nat := 11
def kSmpl : Nat := 12
def kTrdrop : Nat := 13
def kDumpgap : Nat := 14

def updCnt (s : State) (p : Nat) (f : PartCnt → PartCnt) : State :=
  updPart s p fun q => { q with cnt := f q.cnt }
def addDeficit (s : State) (p n : Nat) : State := updCnt s p fun c => { c with deficit := satAdd c.deficit n }
/-- Word `k` of the partition's RPL counter block (R199). -/
def addRpl (s : State) (p k n : Nat) : State := updCnt s p fun c => { c with rpl := updAt c.rpl k (satAdd · n) }
/-- Meter `k` of R486's table; a meter wraps modulo 2^64 (R494: not reached within a period). -/
def addMeter (s : State) (p k n : Nat) : State :=
  updCnt s p fun c => { c with meters := updAt c.meters k (· + BitVec.ofNat 64 n) }
def mBit : Nat := 0
def mExact : Nat := 1
def mTest : Nat := 2
def mFenced : Nat := 3
def mWitness : Nat := 4
def mRerun : Nat := 5
def mTrace : Nat := 6
def mDump : Nat := 7
def mAttest : Nat := 8
def mSkipped : Nat := 9

/-- A 64-bit counter of R460, held by a group number and an index in it: the selector of R461 names the group. -/
def addBig (s : State) (sel k n : Nat) : State :=
  let old := (s.big.find? fun g => g.1 == sel).map (·.2) |>.getD (List.replicate 6 0)
  let new := (sel, updAt old k (· + BitVec.ofNat 64 n))
  if countsOn s then { s with big := (s.big.filter fun g => g.1 != sel) ++ [new] } else s
def addBigSp (s : State) (i k n : Nat) : State :=
  if countsOn s then updSp s i fun sp => { sp with big := updAt sp.big k (· + BitVec.ofNat 64 n) } else s

/-- R460: bytes that a Spire injects into its uplink. -/
def uplink (s : State) (i n : Nat) : State := addBigSp s i 3 n
/-- Counters of a Dome: toward the Keep, toward the Spires, verdict, WIT, REC, BULK (R461). -/
def bigDome (s : State) (d k n : Nat) : State :=
  if countsOn s then updDome s d fun x => { x with big := updAt x.big k (· + BitVec.ofNat 64 n) } else s
/-- R362: the Dome of a Spire is cut off from the Keep. -/
def cutOff (s : State) (i : Nat) : Bool := ((getDome s (i / 256)).map fun d => !d.up).getD false

/-- R401: whether a partition holds a right of the privilege matrix: 0 TEST, 1 DUMP, 2 RELEASE. -/
def privBit (s : State) (p k : Nat) : Bool := p == 0 || bitOf s.fuses.priv (8 * (p - 1) + k)
/-- R426, R427: the entitlement, which reads LIC_FLOOR until step 1 is complete. -/
def entitled (s : State) : Byte := if s.boot.firmware then s.boot.ent else s.fuses.licFloor
/-- R426: the entitlement's flags. -/
def licAttest (s : State) : Bool := bitOf (entitled s) 5
def licDtrace (s : State) : Bool := bitOf (entitled s) 6
def licFar (s : State) : Bool := bitOf (entitled s) 7
/-- R88: the far window in GiB: size 0 while the far tier is not licensed (R427); a window of size 0 leaves the far port disabled. -/
def farGiB (s : State) : Nat := if licFar s then ((area s).map (·.farGiB)).getD 0 else 0

/-- A number of TCLK or other host-clock cycles that no command carries (log 5). -/
def cycles (s : State) : Nat × State := ((Config.cycles s.rng).toNat, { s with rng := s.rng + 1 })

/-! The Cistern's quotas (R386). -/

def linesOf (bytes : Nat) : Nat := (bytes + 63) / 64
/-- Quota of a partition in lines: Q MiB of 16,384 lines. -/
def quotaLines (s : State) (p : Nat) : Nat := ((partCfg s p).map fun c => c.cisMiB * 16384).getD 0
/-- The four quota levels, as tenths of Q. -/
def lvRec : Nat := 10
def lvWit : Nat := 9
def lvTbl : Nat := 8
def lvBulk : Nat := 6
/-- R386: a content kind may be allocated while the use stays below its fraction of Q; R511: while the Cistern is in its safe
state the levels WIT, TBL and BULK are refused. -/
def quotaOk (s : State) (p tenths : Nat) : Bool :=
  (tenths == lvRec || !inSafe s uCis) && decide ((getPart s p).cnt.cisUse.toNat * 10 < tenths * quotaLines s p)
def addUse (s : State) (p n : Nat) : State :=
  updCnt s p fun c => { c with cisUse := BitVec.ofNat 32 (c.cisUse.toNat + n) }
def subUse (s : State) (p n : Nat) : State :=
  updCnt s p fun c => { c with cisUse := BitVec.ofNat 32 (c.cisUse.toNat - n) }
def refuseQuota (s : State) (p : Nat) : State := updCnt s p fun c => { c with cisQref := satInc c.cisQref }

/-! Records, notes and logs. -/

def recBytes (r : Rec) : Nat := 4 * (r.body.length + 4)
def recLines (r : Rec) : Nat := linesOf (recBytes r)

/-- Puts an item on the near port's list of writes. -/
def nearPush (s : State) (it : NearItem) : State := { s with near := { s.near with waiting := s.near.waiting ++ [it] } }

/-- R386: the reserve of partition 0 has room. What lies in it counts in the use of partition 0, whose own quota R538 puts there (log 37). -/
def reserveOk (s : State) : Bool :=
  decide ((getPart s 0).cnt.cisUse.toNat < ((s.image.map (·.reserve.cisMiB)).getD 0) * 16384)

/-- R386, level REC: stages a record against its partition, else in the reserve of partition 0, else drops it with the
count and the alarm. Before the end of step 3 records are held in the Keep's persistent state (R425). -/
def addRec (s : State) (r : Rec) : State :=
  if s.boot.step ≤ 3 then { s with early := s.early ++ [r] }
  else if quotaOk s r.part lvRec && !inSafe s uCis then
    nearPush { addUse s r.part (recLines r) with records := s.records ++ [r] } (.evidence r)
  else
    let s1 := refuseQuota s r.part
    if reserveOk s1 then
      nearPush { addUse s1 0 (recLines r) with records := s1.records ++ [{ r with part := 0 }] } (.evidence { r with part := 0 })
    else
      alert { s1 with cistern := { s1.cistern with recDrop := satInc s1.cistern.recDrop } } alCistern

/-- R257, R292, R473, R492: the data slots of a log. -/
def logSlots (s : State) (log : Nat) : Nat :=
  match log with
  | 0 => 4095
  | 1 => 8191
  | 2 => 16383
  | _ => ((s.image.map (·.base.trcSize)).getD 0) / 64 - 1

/-- R257: posts a note on a partition's queue. -/
def post (s : State) (p : Nat) (k : NoteKind) (sp : Nat) (pay : List W32) : State :=
  let n := (getPart s p).logs.notes.prod
  let s1 := updPart s p fun q =>
    { q with logs := { q.logs with notes := q.logs.notes.push 4095 ⟨k, n, s.time.tick, sp, pay⟩ } }
  nearPush s1 (.note p n)

/-- Posts one note on every partition's queue. -/
def postAll (s : State) (k : NoteKind) (pay : List W32) : State :=
  (List.range 16).foldl (fun t p => post t p k 0xFFFF pay) s

/-- R292: writes a record into a partition's digest log. -/
def logDigest (s : State) (p : Nat) (r : Rec) : State :=
  let n := (getPart s p).logs.digests.prod
  nearPush (updPart s p fun q => { q with logs := { q.logs with digests := q.logs.digests.push 8191 r } }) (.digestLog p n)

/-- R492: writes a record into a partition's meter log. -/
def logMeter (s : State) (p : Nat) (r : Rec) : State :=
  let n := (getPart s p).logs.meters.prod
  nearPush (updPart s p fun q => { q with logs := { q.logs with meters := q.logs.meters.push 16383 r } }) (.meterLog p n)

/-- R493: TRC_DCTL.RESULT: 1 ARMED, 2 TAKEN, 3 BUSY, 4 DENIED. -/
def dumpResult (s : State) (r : Nat) : State :=
  { s with trc := { s.trc with dctl := (s.trc.dctl.1, s.trc.dctl.2.1, setFld s.trc.dctl.2.2 22 3 r) } }

/-- The end of partition `p`'s armed command, where TRC_DCTL still shows that partition's. -/
def dumpOver (s : State) (p r : Nat) : State := if fld s.trc.dctl.2.2 0 4 = p then dumpResult s r else s

/-! Belfry inputs (R338). -/

/-- R338: the class of an input code. -/
def inClass (code : Nat) : Nat := code / 16

/-- R338: the source kind of an input code; DISAGREE and MIRAGE take their source from the event. -/
def inKind (code : Nat) (rerun : Bool) : Nat :=
  match code with
  | 0x01 | 0x02 | 0x03 => 8
  | 0x10 | 0x15 => 6
  | 0x11 | 0x12 | 0x13 | 0x14 | 0x20 | 0x94 => 7
  | 0x16 => 9
  | 0x30 | 0x62 => if rerun then 3 else 2
  | 0x40 | 0x60 => 0
  | 0x41 | 0x50 | 0x51 | 0x52 | 0x53 | 0x54 => 1
  | 0x42 | 0x43 | 0x44 | 0x61 | 0x90 | 0x91 => 2
  | 0x45 | 0x92 | 0x93 => 3
  | 0x46 | 0x64 => 5
  | 0x47 | 0x63 => 4
  | _ => 9

/-- R338: the class of an input. The codes' first digit is the class, thermal inputs being class 0. -/
def mkInput (s : State) (code part spire : Nat) (layer : W16) (cause : Nat) (rerun : Bool) (uid row : Nat) : Input :=
  ⟨code, inClass code, inKind code rerun, part, spire, layer, cause, uid, row, s.time.tick, s.time.tick⟩

/-- R422: while the Belfry does not step an input is recorded and matches no peal, so it enters nothing. R338: one input per
operation and code in a Belfry tick, the first. -/
def addInput (s : State) (i : Input) : State :=
  if s.belfry.run then
    if i.uid ≠ 0 ∧ s.belfry.inputs.any (fun j => j.code == i.code && j.uid == i.uid) then s
    else { s with belfry := { s.belfry with inputs := s.belfry.inputs ++ [i] } }
  else s

/-- An input that concerns a tile and no operation. -/
def tileInput (s : State) (code spire cause : Nat) : State :=
  addInput s (mkInput s code (partOfSp s spire) spire 0xFFFF cause false 0 0)

/-- An input of an operation. -/
def opInput (s : State) (code : Nat) (o : OpV) (cause : Nat) (rerun : Bool) (row : Nat) : State :=
  addInput s (mkInput s code o.part o.spire (dLayer o.dsc) cause rerun o.uid row)

/-- An input that concerns no tile. -/
def partInput (s : State) (code part : Nat) (layer : W16) (cause : Nat) : State :=
  addInput s (mkInput s code part 0xFFFF layer cause false 0 0)

/-! Violations (R91, R92). -/

/-- R92: a violation record, stamped by the unit that writes it (R326). Where the item concerned is unknown the placement epoch reads 0,
and the detail word 0xFFFF for a tag that is unknown and 0 where no tag is concerned (DESIGN CHOICE, log 85). -/
def violRec (t : W64) (k : RecKind) (sp part port : Nat) (layer oper : W16) (code : Byte) (detail : W32) (epoch : W16) (beats : Nat) :
    Rec :=
  ⟨k, t, sp, part, w3of sp part port,
    [halves layer.toNat oper.toNat, BitVec.ofNat 32 code.toNat, detail, halves epoch.toNat beats]⟩

/-- The input of a violation record (R338). -/
def violInput (k : RecKind) : Nat :=
  match k with
  | .tapviol => 0x95 | .contractviol => 0x96 | .cadviol => 0x97 | .wtviol => 0x98 | .mtviol => 0x99 | .ltviol => 0x9A
  | _ => 0x9B

/-- The violation counters of the ports that belong to no Spire (R91), each by its record kind and port index. -/
def violKey (k : RecKind) (port : Nat) : Nat := 256 * (k.num.getD 0).toNat + port
def countViol (s : State) (k : RecKind) (port : Nat) : State :=
  let n := ((s.portViols.find? fun x => x.1 == violKey k port).map (·.2)).getD 0
  { s with portViols := (s.portViols.filter fun x => x.1 != violKey k port) ++ [(violKey k port, satInc n)] }

/-- R91: a violation of a port that belongs to no Spire: its record, its counter and its input. -/
def portViol (s : State) (k : RecKind) (part port : Nat) (layer oper : W16) (code : Byte) (detail : W32) (epoch : W16) (beats : Nat) :
    State :=
  let s1 := addRec (countViol s k port) (violRec s.time.tick k 0xFFFF part port layer oper code detail epoch beats)
  addInput s1 (mkInput s1 (violInput k) part 0xFFFF layer code.toNat false 0 0)

/-! Trace (R468 to R472). -/

/-- R469, R471: token buckets. A light entry costs 16 bytes of TRC_LRATE bytes per µs, a deep one 16 of 60 bytes per µs; both
buckets hold 64 entries. Tokens are held in thousandths of a byte. -/
def refill (tr : TrcSt) (lrate : Nat) (t : W64) : TrcSt :=
  let dt := t.toNat - tr.tokTick.toNat
  { tr with
    lightTok := min 1024000 (tr.lightTok + dt * lrate / 1000000)
    deepTok := min 1024000 (tr.deepTok + dt * 60)
    tokTick := t }

/-- Appends an entry to a Spire's buffer of 512 entries under R471, R472 and R478, with a GAP entry after losses, for which there is room
with it; in the safe state of TRC every entry that would be made is dropped (R511). -/
def traceSp (safe : Bool) (lrate : Nat) (t : W64) (lightOn : Bool) (e : TrcEntry) (sp : Spire) : Spire :=
  if !e.deep && !lightOn then sp
  else if e.deep && !sp.trc.deep then sp
  else
    let tr := refill sp.trc lrate t
    let tok := if e.deep then tr.deepTok else tr.lightTok
    let room := if e.deep then decide (tr.buf.length ≤ 384) else decide (tr.buf.length + (if tr.lost = 0 then 1 else 2) ≤ 512)
    if safe || tr.capture || tok < 16000 || !room then
      { sp with trc := { tr with lost := tr.lost + 1 }, cnt := updAt sp.cnt kTrdrop (satAdd · 1) }
    else
      let gap : List TrcEntry := if tr.lost = 0 then [] else [⟨e.tick, 0x02, false, e.deep, 0xFFFF, 0xFFFF, 0xFFFF, BitVec.ofNat 32 tr.lost⟩]
      { sp with trc := { tr with
          buf := tr.buf ++ gap ++ [e], lost := 0
          lightTok := if e.deep then tr.lightTok else tr.lightTok - 16000
          deepTok := if e.deep then tr.deepTok - 16000 else tr.deepTok } }

/-- Makes a trace entry on a Spire. -/
def trace (s : State) (i : Nat) (code : Byte) (deep late : Bool) (stag layer oper : W16) (pay : Nat) : State :=
  let on := ((partCfg s (partOfSp s i)).map (·.traceLight)).getD false
  let lrate := ((area s).map (·.trcLrate)).getD 1000000
  updSp s i (traceSp (inSafe s uTrc) lrate s.time.tick on ⟨lo32 (spNow s i), code, late, deep, stag, layer, oper, BitVec.ofNat 32 pay⟩)

end Sys2Proof.Machine
end

