-- ==== Sys2Proof/Machine/Cmd.lean ====
section
/-! DEFINITION. Privileged commands (R533, R534): their instances and results. -/

namespace Sys2Proof.Machine

def getCmd (s : State) (i : Nat) : CmdInst := s.keep.cmd.getD i ⟨0, 0, 0, none, none, 0⟩

def updCmd (s : State) (i : Nat) (f : CmdInst → CmdInst) : State :=
  { s with keep := { s.keep with cmd := updAt s.keep.cmd i f } }

/-- The results of KEEP_CMDRES. -/
def crQueued : Nat := 1
def crRunning : Nat := 2
def crPass : Nat := 3
def crFail : Nat := 4
def crRefused : Nat := 5
def crDone : Nat := 6
def crAborted : Nat := 7

/-- The refusal causes of R533. -/
def ccNotReady : Nat := 0x01
def ccBadSpire : Nat := 0x02
def ccDead : Nat := 0x03
def ccRetired : Nat := 0x04
def ccBusy : Nat := 0x05
def ccNotIdle : Nat := 0x06
def ccNotFenced : Nat := 0x07
def ccNoTest : Nat := 0x08
def ccActive : Nat := 0x09
def ccFused : Nat := 0x0A
def ccNoEntry : Nat := 0x0B
def ccBadArg : Nat := 0x0C
def ccCancelled : Nat := 0x0D

def cmdTest : Nat := 1
def cmdRelease : Nat := 2
def cmdShutdown : Nat := 3
def cmdRepairClear : Nat := 4

/-- KEEP_CMDRES of a command. -/
def cmdRes (w : W32) (result cause : Nat) : W32 := packW [(0, result), (4, cause), (12, cmdOp w), (16, cmdSpire w)]

/-- R534: the running command of an instance says how far it is, where KEEP_CMDRES reports it. -/
def cmdState (s : State) (i result : Nat) : State :=
  updCmd s i fun c => match c.running with
    | some w => if c.shown = 1 then { c with res := cmdRes w result 0 } else c
    | none => c

/-- R534: the running command of an instance completes, and the queued one enters the Belfry. -/
def cmdFinish (s : State) (i result cause : Nat) : State :=
  let c := getCmd s i
  match c.running with
  | none => s
  | some w =>
    let c1 := if c.shown = 1 then { c with res := cmdRes w result cause } else c
    match c.queued with
    | none => updCmd s i fun _ => { c1 with running := none, shown := 0 }
    | some n =>
      let s1 := updCmd s i fun _ => { c1 with running := some n, queued := none, shown := if c.shown = 2 then 1 else 0 }
      { s1 with belfry := { s1.belfry with cmds := s1.belfry.cmds ++ [⟨i, n, c.arg⟩] } }

/-- R533: the arguments of a command are in range. -/
def cmdArgOk (w : W32) (budget : W32) : Bool :=
  match cmdOp w with
  | 1 => decide (1 ≤ cmdArg w) && budget == 0
  | 2 | 4 => cmdArg w == 0 && !cmdFlag w && budget == 0
  | 3 => cmdArg w == 0 && (budget == 0 || (decide (100 ≤ budget.toNat) && decide (budget.toNat ≤ 600000)))
  | _ => false

/-- R533: the partition of the tile that a command names; SHUTDOWN is one of partition 0. -/
def cmdPart (s : State) (w : W32) : Nat := if cmdOp w = cmdShutdown then 0 else partOfSp s (cmdSpire w)

/-- R239, R533: a command of the same kind is queued for the partition: behind a running one, before the Belfry, or, a TEST, behind another at
its tile (log 88). -/
def kindQueued (s : State) (w : W32) : Bool :=
  let same := fun v : W32 => cmdOp v == cmdOp w && cmdPart s v == cmdPart s w
  s.keep.cmd.any (fun c => c.queued.any same) || s.belfry.cmds.any (fun c => same c.word) ||
    (cmdOp w == cmdTest && s.tiles.any fun t => t.part == cmdPart s w && (t.reqs.drop 1).any fun r => r.inst.isSome)

/-- R533: a command is taken no more: the die is not READY, a shut-down self-test was accepted, or DIE_FAULT is declared. -/
def cmdClosed (s : State) : Bool := !s.boot.ready || s.keep.shutdown || s.keep.dieFault

/-- R533: the causes that are judged when a command is issued. -/
def cmdIssueCause (s : State) (i : Nat) (w : W32) (budget : W32) : Option Nat :=
  if cmdClosed s then some ccNotReady
  else if !cmdArgOk w budget then some ccBadArg
  else if cmdOp w ≠ cmdShutdown ∧ (getTile s (cmdSpire w)).isNone then some ccBadSpire
  else if (getCmd s i).queued.isSome || kindQueued s w then some ccBusy
  else none

/-- R533, R534: a GO of KEEP_CMD issues the command: refused, queued behind the running one, or a class 9 input of the Belfry. -/
def issueCmd (s : State) (i : Nat) (w : W32) : State :=
  let b := (getCmd s i).arg
  match cmdIssueCause s i w b with
  | some c => updCmd s i fun x => { x with res := cmdRes w crRefused c, shown := 0 }
  | none =>
    match (getCmd s i).running with
    | some _ => updCmd s i fun x => { x with queued := some w, res := cmdRes w crQueued 0, shown := 2 }
    | none =>
      let s1 := updCmd s i fun x => { x with running := some w, res := cmdRes w crQueued 0, shown := 1 }
      { s1 with belfry := { s1.belfry with cmds := s1.belfry.cmds ++ [⟨i, w, b⟩] } }

end Sys2Proof.Machine
end

