-- ==== Sys2Proof/Machine/Screen.lean ====
section
/-! DEFINITION. The checksum-row screen of one operation (04), with the range checks and profile (R202 to R206) and the
digests (R286 to R288), as functions of a descriptor context and what the image says of it. -/

namespace Sys2Proof.Machine

/-! ### What the image says of an operation -/

/-- The settings an operation is measured under: its contract, class, width, screen record, range record and digest keys. -/
structure OpEnv where
  ver : BitVec 4
  ctr : Contract
  cls : Option OpClass
  varies : Bool
  w : Nat
  kappa : Nat
  off : Bool
  live : Bool
  range : W64
  kD : Nat
  zD : Nat
  att : Bool
  deriving DecidableEq, Repr

/-- R283: k_D and z_D of a partition, from its DIGEST_SALT. -/
def digestKeys (s : State) (p : Nat) : Nat × Nat :=
  let h := sha384 (leBytes 8 (((partCfg s p).map fun c => c.salt.toNat).getD 0))
  (sdKey (ofLe (h.take 8)), sdKey (ofLe ((h.drop 8).take 8)))

/-- R200: a MATMUL uses the range record of its contract, a STREAM that of its partition. -/
def rangeOf (s : State) (p : Nat) (d : Dsc) : W64 := rangeRec s (if dMatmul d then dContract d else 64 + p)

/-- R288: the operand digest is formed when LAYER is the partition's ATT_INPUT_LAYER and attestation is on. -/
def attInput (s : State) (p : Nat) (d : Dsc) : Bool :=
  match partCfg s p with
  | some c => bitOf s.boot.ent 5 && c.attEvery != 0 && c.attInputLayer == some (dLayer d)
  | none => false

def opEnv (s : State) (sp : Spire) (d : Dsc) : OpEnv :=
  let p := partOfSp s sp.ix
  let c := (contractRec s (dContract d)).getD 0
  let k := digestKeys s p
  { ver := sp.tap.ver, ctr := c,
    cls := if dCheckable d then comboClass (dA d) (dB d) (dC d) (dAcc d) else none,
    varies := opVaries s d, w := widthOf s c, kappa := sKappa (screenRec s (dContract d)), off := sOff (screenRec s (dContract d)) || inSafe s (uSpire sp.ix), live := !inSafe s (uSpire sp.ix),
    range := rangeOf s p d, kD := k.1, zD := k.2, att := attInput s p d }

/-- R132: the scale factor σ, ceil(log2 M_T) for FP8 and binary16. -/
def sigmaOf (e : OpEnv) (d : Dsc) : Nat :=
  match e.cls, dA d with
  | some .float, .e4m3 | some .float, .e5m2 | some .float, .b16 => clog2 (dMt d)
  | _, _ => 0

/-! ### Windows (R120 to R126) -/

/-- R124: the formats whose window covers their whole range. -/
def exactTop : Fmt → Option Int
  | .int4 => some 3 | .int8 => some 7 | .int32 => some 31 | .e4m3 => some 8 | .e5m2 => some 15 | .b16 => some 15
  | _ => none

/-- R124, R126: where the result window stands before any element arrives. -/
def resTop0 (d : Dsc) : Option Int :=
  match exactTop (dC d) with
  | some t => some t
  | none => if dHint d = 0 ∨ dC d = .opq then none else some ((dHint d : Int) - 128)

/-- R121: |x| ≥ 2^(E_top + 1) for a non-zero magnitude. -/
def overWindow (top : Int) (m : Nat) (e : Int) : Bool := decide (ilog2 m e ≥ top + 1)

/-- R121: the saturated window value. -/
def satW (neg : Bool) : Int := if neg then -(2 ^ 105 - 1) else 2 ^ 105 - 1

/-- R120, R121: the window value of a finite element. -/
def winValue (top : Int) (neg : Bool) (m : Nat) (e : Int) : Int :=
  if m = 0 then 0 else if overWindow top m e then satW neg else floorTo neg m e (top - 104)

/-- Whether `m × 2^e` has non-zero bits below 2^l. -/
def losesBits (m : Nat) (e l : Int) : Bool := decide (e < l) && m % 2 ^ (l - e).toNat != 0

/-- R125: e_max of buffered finite non-zero elements, plus 16. -/
def placeTop (pend : List (Nat × XVal)) : Option Int := (blockExp (pend.map (·.2))).map (· + 16)

/-! ### Operand pass (R130, R152) -/

/-- A pass with the findings its elements add to the operation. -/
structure OpaAcc where
  ps : PassSt
  floor : Bool
  ovr : Nat
  nonfin : Nat
  deriving DecidableEq, Repr

def taintK (ps : PassSt) (k : Nat) : PassSt :=
  { ps with taint := if k / 32 ∈ ps.taint then ps.taint else k / 32 :: ps.taint }

/-- R130: a finite non-zero element enters s-accumulator `k` under the pass's window. One that saturates is no floor event, whatever lies
below the accumulator's least bit (DESIGN CHOICE, log 114). -/
def opaPut (top : Int) (a : OpaAcc) (k : Nat) (neg : Bool) (m : Nat) (e : Int) : OpaAcc :=
  if overWindow top m e then
    { a with ps := { taintK a.ps k with acc := updAt a.ps.acc k (· + satW neg / 2 ^ 38) }, ovr := a.ovr + 1 }
  else
    { a with ps := { a.ps with acc := updAt a.ps.acc k (· + floorTo neg m e (top - 66)) },
             floor := a.floor || losesBits m e (top - 66) }

def opaPutV (top : Int) (a : OpaAcc) (k : Nat) (v : XVal) : OpaAcc :=
  match v with
  | .fin n m e => if m = 0 then a else opaPut top a k n m e
  | _ => a

/-- One operand element; an element before the window is placed waits for the end of its block (R125). -/
def opaElem (a : OpaAcc) (k : Nat) (v : XVal) : OpaAcc :=
  match v with
  | .fin n m e =>
    if m = 0 then a
    else match a.ps.top with
      | some t => opaPut t a k n m e
      | none => { a with ps := { a.ps with pos := { a.ps.pos with pend := a.ps.pos.pend ++ [(k, v)] } } }
  | _ => { a with ps := taintK a.ps k, nonfin := a.nonfin + 1 }

/-- R125: at a block's end the buffered elements place the window and enter it. -/
def opaBlockEnd (a : OpaAcc) : OpaAcc :=
  match a.ps.top, placeTop a.ps.pos.pend with
  | none, some t =>
    let pend := a.ps.pos.pend
    let a1 := { a with ps := { a.ps with top := some t, pos := { a.ps.pos with pend := [] } } }
    pend.foldl (fun b x => opaPutV t b x.1 x.2) a1
  | _, _ => a

/-- The elements of an operand beat from K position `col` of a pass of `len` elements. -/
def opaBeat (e : OpEnv) (f : Fmt) (len : Nat) (b : Beat) (n : Nat) (a : OpaAcc) : OpaAcc :=
  let col := a.ps.pos.col
  (List.range n).foldl (fun a i =>
    let k := col + i
    let v := decodeInput f (ctrDaz e.ctr) (ctrFzPos e.ctr) (elemOf f b.data i) (sclOf b.scl (i / 32))
    let a1 := opaElem a k v
    if k % 32 = 31 ∨ k + 1 = len then opaBlockEnd a1 else a1) a

/-! ### The checksum row (R132 to R136) -/

/-- What the checksum row's rounding adds: the codes, and whether CKSAT or a floor event occurred. -/
structure CkOut where
  codes : List Nat
  scales : List Byte
  sat : Bool
  floor : Bool
  deriving DecidableEq, Repr

/-- R141, R133: the modulus of an integer operation. -/
def modA (f : Fmt) : Nat := if f = .int8 then 251 else 13

/-- R132: reduced into −(m − 1)/2 to (m − 1)/2. -/
def balanced (v : Int) (m : Nat) : Int :=
  let r := v % (m : Int)
  if 2 * r > (m : Int) then r - m else r

/-- v_k of an s-accumulator: S × 2^(E − 66). -/
def accValue (top : Int) (s : Int) : XVal := .fin (decide (s < 0)) s.natAbs (top - 66)

/-- Whether a rounded value lies in the subnormal range of the element format, or is zero (R135, MXINT8 below 0.5). -/
def inSubnormal (f : Fmt) (v : XVal) : Bool :=
  match v with
  | .fin _ m e => m == 0 || decide (ilog2 m e < normExp f)
  | _ => false

/-- R132 to R135: one floating checksum element from the exact value in the element's own scale. -/
def ckElem (c : Contract) (f : Fmt) (v : XVal) : Nat × Bool × Bool :=
  let w := if f = .mxInt8 then 8 else fmtWidth f
  match f with
  | .mxInt8 =>
    match v with
    | .fin n m e =>
      let q := roundQuantum .rne n m e (-6)
      let qc := min q 127
      let r : XVal := .fin n qc (-6)
      ((if n then (256 - qc) % 256 else qc) % 2 ^ w, decide (q > 127), inSubnormal f r && xrat r != xrat v)
    | _ => (0, false, false)
  | _ =>
    match fpar f with
    | none => (0, false, false)
    | some p =>
      let big := maxFin p
      let r0 := roundTo p .rne .saturate false false v
      let big1 := match v with
        | .fin n m e =>
          let q := max (ilog2 m e) (eminOf p) - p.mb
          m != 0 && magGt (roundQuantum .rne n m e q) q big.1 big.2
        | _ => false
      let nz := match r0 with
        | .fin _ m _ => m != 0
        | _ => false
      let sub := inSubnormal f r0 && nz
      let lost := inSubnormal f r0 && xrat r0 != xrat v
      let flushed := ctrDaz c && sub
      let r := if flushed then (match r0 with | .fin n _ _ => .fin (n && !ctrFzPos c) 0 0 | x => x) else r0
      (encodeFloat p r, big1, lost || flushed)

def ckJoin (o : CkOut) (r : Nat × Bool × Bool) : CkOut :=
  { o with codes := o.codes ++ [r.1], sat := o.sat || r.2.1, floor := o.floor || r.2.2 }

/-- R132: the checksum row of a pass. An element of a tainted block is +0, and an element flushed under DAZ keeps its sign unless FZ_SIGN
is 1: the rules give a zero no sign (DESIGN CHOICE, log 84). -/
def ckRow (e : OpEnv) (d : Dsc) (ps : PassSt) : CkOut :=
  let f := dA d
  let top := ps.top.getD 16
  let vs : List XVal := ps.acc.zipIdx.map fun x =>
    if x.2 / 32 ∈ ps.taint then .fin false 0 0 else accValue top x.1
  match e.cls with
  | some .integer =>
    let m := modA f
    ⟨vs.map fun v => ((balanced (match v with
        | .fin n a x => floorTo n a x 0
        | _ => 0) m) % ((2 : Int) ^ fmtWidth f)).toNat, [], false, false⟩
  | _ =>
    if isMx f then
      (chunksOf 32 vs.length vs).foldl (fun o blk =>
        let x := blockScale f 1 blk
        let o1 := { o with scales := o.scales ++ [x] }
        blk.foldl (fun o v => ckJoin o (ckElem e.ctr f (unscale v x))) o1) ⟨[], [], false, false⟩
    else
      let sg : Int := sigmaOf e d
      vs.foldl (fun o v => ckJoin o (ckElem e.ctr f (match v with
        | .fin n m x => .fin n m (x - sg)
        | w => w))) ⟨[], [], false, false⟩

/-! ### Result side (R138, R139, R145, R151) -/

/-- R138: one group takes a window value; `mul` is 2^σ for the checksum-row result and 1 for a data row. The sum goes on unbounded after it
has left 112 bits, which is judged at each element (DESIGN CHOICE, log 114). -/
def grpAdd (g : Grp) (w : Int) (mul : Nat) (ck : Bool) : Grp :=
  let x := w * mul
  let s := if ck then g.sum - x else g.sum + x
  let m := g.mag + (x.natAbs + (2 ^ 48 - 1)) / 2 ^ 48
  { g with
    sum := s
    ovf := g.ovf || decide (s < -2 ^ 111) || decide (s ≥ 2 ^ 111)
    mag := min m (2 ^ 64 - 1)
    magSat := g.magSat || decide (m ≥ 2 ^ 64 - 1) }

def grpTaint (g : Grp) (col row : Nat) : Grp :=
  { g with taints := g.taints + 1, first := g.first.getD (col, row) }

/-- A context with the findings its elements add to the Spire's counters. -/
structure ResAcc where
  o : OpCtx
  ovr : Nat
  nonfin : Nat
  deriving DecidableEq, Repr

def updGrp (o : OpCtx) (col : Nat) (f : Grp → Grp) : OpCtx := { o with grps := updAt o.grps (col / 32) f }

/-- R121, R138, R151: a finite non-zero result element enters its group under the window. -/
def resPut (mul : Nat) (ck : Bool) (row : Nat) (top : Int) (a : ResAcc) (col : Nat) (v : XVal) : ResAcc :=
  match v with
  | .fin n m e =>
    if m = 0 then a
    else
      let o1 := updGrp a.o col fun g => grpAdd g (winValue top n m e) mul ck
      if overWindow top m e then { a with o := updGrp o1 col fun g => grpTaint g col row, ovr := a.ovr + 1 }
      else { a with o := o1 }
  | _ => a

/-- The position of the row an element belongs to. -/
def posOf (o : OpCtx) (ck : Bool) : StreamPos := if ck then o.ckPos else o.resRow
def setPos (o : OpCtx) (ck : Bool) (p : StreamPos) : OpCtx := if ck then { o with ckPos := p } else { o with resRow := p }

/-- One result element of a checkable operation. -/
def resElem (mul : Nat) (ck : Bool) (row : Nat) (a : ResAcc) (col : Nat) (v : XVal) : ResAcc :=
  match v with
  | .fin _ m _ =>
    if m = 0 then a
    else match a.o.resTop with
      | some t => resPut mul ck row t a col v
      | none =>
        let p := posOf a.o ck
        { a with o := setPos a.o ck { p with pend := p.pend ++ [(col, v)] } }
  | _ => { a with o := updGrp a.o col fun g => grpTaint g col row, nonfin := a.nonfin + 1 }

/-- R125: the block's end places the window. -/
def resBlockEnd (mul : Nat) (ck : Bool) (row : Nat) (a : ResAcc) : ResAcc :=
  let p := posOf a.o ck
  match a.o.resTop, placeTop p.pend with
  | none, some t =>
    let o1 := setPos { a.o with resTop := some t } ck { p with pend := [] }
    p.pend.foldl (fun b x => resPut mul ck row t b x.1 x.2) { a with o := o1 }
  | _, _ => a

/-- R145: an MX result block adds 32 × φ_elem × 2^(X − 127) to its group's floor, and nothing where its scale X is the NaN 0xFF (DESIGN
CHOICE, log 114). -/
def phiBlock (c : Contract) (f : Fmt) (x : Byte) (mul : Nat) : Rat :=
  if x = 0xFF then 0 else 32 * phiC c f * pow2 ((x.toNat : Int) - 127) * (mul : Rat)

/-- The decoded value of element `i` of a result beat. -/
def resVal (f : Fmt) (b : Beat) (i : Nat) : XVal := decodeElem f (elemOf f b.data i) (sclOf b.scl (i / 32))

/-- R138 to R153: the elements of a result beat of a checkable operation. -/
def resBeatScreen (e : OpEnv) (d : Dsc) (ck : Bool) (b : Beat) (n : Nat) (o : OpCtx) : ResAcc :=
  let f := dC d
  let mul := if ck then 2 ^ sigmaOf e d else 1
  let col := (posOf o ck).col
  let row := if ck then dMt d else (posOf o ck).row
  (List.range n).foldl (fun a i =>
    let c := col + i
    let a0 := if isMx f ∧ c % 32 = 0 then
        { a with o := updGrp a.o c fun g => { g with phi := g.phi + phiBlock e.ctr f (sclOf b.scl (i / 32)) mul } } else a
    let a1 := resElem mul ck row a0 c (resVal f b i)
    if c % 32 = 31 ∨ c + 1 = dN d then resBlockEnd mul ck row a1 else a1) ⟨o, 0, 0⟩

/-! ### Range checks and profile (R203, R204, R206) -/

/-- R203: |x| > 2^(MAGX − 128). -/
def overMag (magx m : Nat) (e : Int) : Bool :=
  magx != 0 && m != 0 && magGt m e 1 ((magx : Int) - 128)

def profAdd (p : Prof) (x : Int) : Prof :=
  if p.exps.any (·.1 == x) then { p with exps := p.exps.map fun y => if y.1 = x then (y.1, y.2 + 1) else y }
  else { p with exps := p.exps ++ [(x, 1)] }

/-- One data-row element meets the range checks and the profile. -/
def rangeElem (r : W64) (row col : Nat) (o : OpCtx) (v : XVal) : OpCtx :=
  match v with
  | .nan => { o with range := { o.range with nan := o.range.nan + 1 } }
  | .inf _ => { o with range := { o.range with inf := o.range.inf + 1 } }
  | .fin _ m e =>
    if m = 0 then { o with prof := { o.prof with zeros := o.prof.zeros + 1 } }
    else
      let o1 := { o with prof := profAdd o.prof (ilog2 m e) }
      if overMag (rMagx r) m e then
        { o1 with range := { o1.range with mag := o1.range.mag + 1, firstMag := o1.range.firstMag.getD (row, col) } }
      else o1

def resBeatRange (e : OpEnv) (d : Dsc) (b : Beat) (n : Nat) (o : OpCtx) : OpCtx :=
  let col := o.resRow.col
  let o1 := (List.range n).foldl (fun a i => rangeElem e.range o.resRow.row (col + i) a (resVal (dC d) b i)) o
  if e.live then o1 else { o1 with range := o.range }

/-- R206: e_hi, none for an operation with no finite non-zero element. -/
def profHi (p : Prof) : Option Int :=
  p.exps.foldl (fun a x => match a with
    | none => some x.1
    | some y => some (max y x.1)) none

/-- R206: the 16 bins, each saturating at 16 bits. -/
def profBins (p : Prof) : List Nat :=
  let hi := (profHi p).getD 0
  (List.range 16).map fun b =>
    let n := p.exps.foldl (fun a x =>
      let dd := (hi - x.1).toNat
      if (b < 15 ∧ dd / 2 = b) ∨ (b = 15 ∧ dd ≥ 30) then a + x.2 else a) (if b = 15 then p.zeros else 0)
    min n 65535

/-- R205: bit 0 MAG, bit 1 NaN, bit 2 Inf. -/
def rangeBits (r : RangeSt) : Nat :=
  (if r.mag = 0 then 0 else 1) + (if r.nan = 0 then 0 else 2) + (if r.inf = 0 then 0 else 4)

/-- R204: a finding under the policy SUSPECT. -/
def rangeSuspect (rec : W64) (r : RangeSt) : Bool := (r.nan != 0 && rNanPol rec == 2) || (r.inf != 0 && rInfPol rec == 2)

/-- R204: a NaN or Inf finding that raises a range event. -/
def rangeEvent (rec : W64) (r : RangeSt) : Bool :=
  (r.nan != 0 && rNanPol rec == 1) || (r.inf != 0 && rInfPol rec == 1)

/-! ### Digests (R286 to R288) -/

/-- The bytes of the first `n` elements of a beat, bits above the last taken as 0. -/
def beatElemBytes (f : Fmt) (b : Beat) (n : Nat) : List Byte :=
  packBytes (fmtWidth f) ((List.range n).map (elemOf f b.data))

/-- The scale bytes of the blocks that begin in a beat of `n` elements at column `col`. -/
def beatScales (f : Fmt) (b : Beat) (n : Nat) : List Byte :=
  if isMx f then (List.range ((n + 31) / 32)).map (sclOf b.scl) else []

def digPush (e : OpEnv) (g : OpDig) (bs : List Byte) : OpDig :=
  { g with od := sdPush e.kD g.od bs, row := sdPush e.kD g.row bs }

/-- R286, R287: a data row ends: its scale bytes follow, h_r enters RSV. -/
def digRowEnd (e : OpEnv) (g : OpDig) : OpDig :=
  let g1 := digPush e g g.rowScl
  let h := (sdFinish e.kD g1.row).toNat
  { g1 with row := Sd.empty, rowScl := [],
            rsv := g1.rsv * ((e.zD + sdP - h % sdP) % sdP) % sdP }

/-- R288: operand beats enter the operand digest; the row's scale bytes follow its elements. -/
def digOperand (e : OpEnv) (g : OpDig) (bs scl : List Byte) (rowEnd : Bool) : OpDig :=
  match g.operand with
  | none => g
  | some dgst =>
    let d1 := sdPush e.kD dgst bs
    let sc := g.opScl ++ scl
    if rowEnd then { g with operand := some (sdPush e.kD d1 sc), opScl := [] } else { g with operand := some d1, opScl := sc }

/-! ### Comparison (R140 to R150, R539) -/

/-- The judgement of one group. `result` is 0 PASS, 1 SUSPECT, 3 INCONCLUSIVE, 4 SKIPPED. -/
structure GrpOut where
  ix : Nat
  result : Nat
  cause : Nat
  weak : Bool
  delta : W64
  beta : W64
  tau : W64
  bin : Option Nat
  first : Option (Nat × Nat)
  taints : Nat
  deriving DecidableEq, Repr

/-- The cause code of an early closure (R160). -/
def closureCode : Closure → Nat
  | .torn => 1 | .fenced => 2 | .reset => 3 | .contract => 8 | .rows => 9 | .dead => 12

/-- R539: the one cause of an INCONCLUSIVE group. -/
def inconCause (o : OpCtx) (g : Grp) : Option Nat :=
  match o.closure with
  | some c => some (closureCode c)
  | none =>
    if o.optaint then some 5
    else if o.cksat then some 7
    else if g.taints ≠ 0 then some 4
    else if g.ovf then some 6
    else none

/-- The window top in use at the comparison (R125: 16 when nothing placed it). -/
def topOf (o : OpCtx) : Int := o.resTop.getD 16

/-- R143 to R147: c_op of an operation, 0 for the Integer class. -/
def opCoef (e : OpEnv) (d : Dsc) : Rat :=
  match e.cls with
  | some .integer | none => 0
  | _ => cOp e.ctr e.varies e.kappa e.w (dK d) (dA d) (dC d)

/-- R148: the conditions of a WEAK group that hold for a whole operation. -/
def opWeak (e : OpEnv) (d : Dsc) (o : OpCtx) : Bool :=
  match e.cls with
  | some .integer | none => false
  | _ => o.floorEv || depthWeak e.ctr e.varies e.w (dK d) || decide (opCoef e d ≥ 1) || (isMx (dC d) && ctrScaleHost e.ctr)

/-- R138: group columns n_c. -/
def grpCols (d : Dsc) (g : Nat) : Nat := min 32 (dN d - 32 * g)

/-- R147: β_g, rounded upward to 24 bits. -/
def betaOf (e : OpEnv) (d : Dsc) (o : OpCtx) (ix : Nat) (g : Grp) : Rat :=
  let top := topOf o
  let nc := grpCols d ix
  let ng := dMt d * nc
  let sg := 2 ^ sigmaOf e d
  let m : Rat := (g.mag : Rat) * pow2 (top - 56)
  let lam : Rat := ((max ng (nc * sg) : Nat) : Rat) * pow2 (top - 104)
  let phi : Rat := if dC d = ctrAcc e.ctr then 0 else if isMx (dC d) then g.phi else ((ng + nc * sg : Nat) : Rat) * phiC e.ctr (dC d)
  ceilSig 24 (opCoef e d * m + lam + phi)

/-- R150: τ_g of a group that is not WEAK. -/
def tauOf (e : OpEnv) (d : Dsc) (o : OpCtx) (beta : Rat) : Rat :=
  let c := opCoef e d
  (2 * beta + 2 * c * pow2 (topOf o - 56)) / (1 - c)

/-- R160: the residual histogram's bin of |Δ| / τ, of the exact τ (DESIGN CHOICE, log 114). -/
def residBin (delta tau : Rat) : Nat :=
  if delta = 0 then 0
  else
    let r := (if delta < 0 then -delta else delta) / tau
    if 1 ≤ r then 15 else if r < pow2 (-14) then 0 else (ratLog2 r + 15).toNat

/-- R141 to R150: compares group `ix`. A saturated magnitude sum makes a group of any class WEAK (R139). A WEAK Integer group reports τ 0
(R160) and enters no histogram bin, and a SKIPPED group is no WEAK one (DESIGN CHOICE, log 84); an INCONCLUSIVE group enters no histogram
bin (DESIGN CHOICE, log 114). -/
def judgeGroup (e : OpEnv) (d : Dsc) (o : OpCtx) (ix : Nat) (g : Grp) : GrpOut :=
  if e.off then ⟨ix, 4, 11, false, 0, 0, 0, none, none, 0⟩
  else
    let top := topOf o
    let incon := inconCause o g
    match e.cls with
    | some .integer =>
      let r := (g.sum / 2 ^ (104 - top).toNat % (modA (dA d) : Int)).toNat
      let res := if incon.isSome then 3 else if r = 0 then 0 else 1
      ⟨ix, res, incon.getD 0, g.magSat, BitVec.ofNat 64 r, 0, 0,
        if incon.isSome || g.magSat then none else some (if r = 0 then 0 else 15), g.first, g.taints⟩
    | _ =>
      let delta : Rat := (g.sum : Rat) * pow2 (top - 104)
      let beta := betaOf e d o ix g
      let weak := opWeak e d o || g.magSat
      let tau := tauOf e d o beta
      let res := if incon.isSome then 3 else if (if delta < 0 then -delta else delta) > beta then 1 else 0
      ⟨ix, res, incon.getD 0, weak, ratToB64 false delta, ratToB64 true beta,
        if weak then b64Inf else ratToB64 true tau,
        if incon.isSome || weak then none else some (residBin delta tau), g.first, g.taints⟩

/-- R129, R140: the judgements of an operation's groups, ascending; without accumulators every group is SKIPPED, NOGRP, also under
SCR_OFF = 1: the rules do not order the two causes (DESIGN CHOICE, log 84). -/
def judgeAll (e : OpEnv) (d : Dsc) (o : OpCtx) : List GrpOut :=
  if o.nogrp then (List.range (dGroups d)).map fun i => ⟨i, 4, 10, false, 0, 0, 0, none, none, 0⟩
  else o.grps.zipIdx.map fun x => judgeGroup e d o x.2 x.1

/-! ### Records of an operation (R160, R205, R206) -/

/-- Words 4 to 6 of the records of an operation: layer and operator, tensor, STAG and EPOCH. -/
def opHead (d : Dsc) : List W32 :=
  [halves (dLayer d).toNat (dOper d).toNat, dTensor d, halves (dStag d).toNat (dEpoch d).toNat]

/-- A 12-bit two's-complement field. -/
def int12 (x : Int) : Nat := (x % 4096).toNat

def countRes (gs : List GrpOut) (r : Nat) : Nat := (gs.filter fun g => g.result == r).length

/-- The 16 residual bins as 8 words. -/
def histWords (gs : List GrpOut) : List W32 :=
  let n := fun b => min 65535 ((gs.filter fun g => g.bin == some b).length)
  (List.range 8).map fun j => halves (n (2 * j)) (n (2 * j + 1))

/-- R160: c_op as it is reported. -/
def coefWord (e : OpEnv) (d : Dsc) : W64 :=
  let c := opCoef e d
  if c ≥ 1 then b64Inf else ratToB64 false c

/-- R160: the SCRSUM record. An operation closed before its window is placed reports NOWIN and E_top 16, also where elements that are not zero
have come (DESIGN CHOICE, log 114). -/
def scrsumRec (t : W64) (sp part : Nat) (e : OpEnv) (o : OpCtx) (gs : List GrpOut) : Rec :=
  let d := o.dsc
  let skipped := countRes gs 4
  let cause := ((gs.find? fun g => g.result == 4).map (·.cause)).getD 0
  let weak := (gs.filter (·.weak)).length
  let hi := b2n o.late + 2 * b2n e.varies + 4 * b2n o.floorEv + 8 * ((e.cls.map classCode).getD 0)
  ⟨.scrsum, t, sp, part, w3of sp part hi,
    opHead d ++
    [packW [(0, countRes gs 0), (9, countRes gs 1), (18, countRes gs 3)],
     packW [(0, skipped), (9, weak), (18, e.kappa), (22, sigmaOf e d), (26, cause)],
     packW [(0, int12 (topOf o)), (12, b2n o.resTop.isNone)]] ++
    words64 (coefWord e d) ++ histWords gs⟩

def scrgrpRec (t : W64) (sp part : Nat) (e : OpEnv) (o : OpCtx) (g : GrpOut) : Rec :=
  let d := o.dsc
  let hi := b2n o.late + 2 * b2n e.varies + 4 * b2n g.weak + 8 * ((e.cls.map classCode).getD 0)
  let rows := o.resRow.row + o.ckPos.row
  let f := g.first.getD (0x1FFF, 0x1FFF)
  ⟨.scrgrp, t, sp, part, w3of sp part hi,
    opHead d ++ [packW [(0, g.ix), (8, g.result), (12, g.cause), (16, rows % 8192)]] ++
    words64 g.delta ++ words64 g.beta ++ words64 g.tau ++
    [packW [(0, f.1), (13, f.2)], BitVec.ofNat 32 g.taints]⟩

/-- Word 3 of the records of R213 to R216: LATE and VARIES. -/
def opvW3 (sp part : Nat) (late varies : Bool) : W32 := w3of sp part (b2n late + 2 * b2n varies)

def rngevRec (t : W64) (sp part : Nat) (e : OpEnv) (o : OpCtx) : Rec :=
  let r := o.range
  let f := r.firstMag.getD (0xFFF, 0x1FFF)
  ⟨.rngev, t, sp, part, opvW3 sp part o.late e.varies,
    opHead o.dsc ++
    [BitVec.ofNat 32 (rangeBits r), satAdd (0 : W32) r.mag, halves (min r.nan 65535) (min r.inf 65535),
     packW [(0, int12 ((profHi o.prof).getD 0)), (12, f.1 % 4096)], packW [(0, f.2)]]⟩

def expprofRec (t : W64) (sp part : Nat) (e : OpEnv) (o : OpCtx) : Rec :=
  let bins := profBins o.prof
  ⟨.expprof, t, sp, part, opvW3 sp part o.late e.varies,
    opHead o.dsc ++
    [packW [(0, int12 ((profHi o.prof).getD 0)), (12, b2n (profHi o.prof).isNone)]] ++
    (List.range 8).map fun j => halves (bins.getD (2 * j) 0) (bins.getD (2 * j + 1) 0)⟩

/-! ### A fresh context -/

/-- The context an accepted descriptor opens (R54, R127, R129). `room` says whether G accumulators are free. -/
def openCtx (s : State) (sp : Spire) (uid : Nat) (d : Dsc) (late room : Bool) (dumping : Bool) : OpCtx :=
  let e := opEnv s sp d
  let chk := dCheckable d
  { uid := uid, dsc := d, late := late, ackTick := s.time.tick, checkable := chk, nogrp := chk && !room, passesDone := 0,
    opRow := StreamPos.zero, cksat := false, floorEv := false, optaint := false,
    resTop := if chk then resTop0 d else none,
    grps := if chk && room then List.replicate (dGroups d) Grp.zero else [],
    resRow := StreamPos.zero, ckPos := StreamPos.zero, ckSeen := false, badRows := false, closed := false, closure := none, endTick := 0,
    range := ⟨0, 0, 0, none⟩, prof := ⟨[], 0⟩,
    dig := ⟨Sd.empty, Sd.empty, [], 1, if e.att then some Sd.empty else none, []⟩,
    caps := [], opBytes := 0, injBytes := 0, resBytes := 0, cycles := 0, dumping := dumping }

/-- R54: descriptors open now. -/
def openOps (sp : Spire) : List OpCtx := sp.ops.filter fun o => !o.closed
/-- R129, R528: free group accumulators. -/
def grpFree (sp : Spire) : Nat := 256 - (sp.ops.map fun o => o.grps.length).foldl (· + ·) 0
def findOpen (sp : Spire) (tag : W16) : Option OpCtx := sp.ops.find? fun o => !o.closed && dStag o.dsc == tag
/-- Replaces the open context of a tag. -/
def putOpen (sp : Spire) (tag : W16) (f : OpCtx → OpCtx) : Spire :=
  { sp with ops := sp.ops.map fun o => if !o.closed && dStag o.dsc == tag then f o else o }

/-- A pass at its first beat (R130). -/
def newPass (d : Dsc) (p : Nat) : PassSt :=
  ⟨dStag d, StreamPos.zero, exactTop (dA d), List.replicate (dPassLen d p) 0, [], false⟩

end Sys2Proof.Machine
end

