-- ==== Sys2Proof/Machine/Verdict.lean ====
section
/-! DEFINITION. Fused verdicts of operations in the Keep: life cycle, final records, reruns and samples' ends (R213 to R220,
R191, R198, R199, R540). -/

namespace Sys2Proof.Machine

/-! ### Operations -/

def getOp (s : State) (uid : Nat) : Option OpV := s.ops.find? fun o => o.uid == uid
def updOp (s : State) (uid : Nat) (f : OpV → OpV) : State :=
  { s with ops := s.ops.map fun o => if o.uid = uid then f o else o }
def onOp (s : State) (uid : Nat) (f : OpV → State) : State :=
  match getOp s uid with
  | some o => f o
  | none => s

/-- The verdict codes of OPV word 7. -/
def vPass : Nat := 0
def vSuspect : Nat := 1
def vMirage : Nat := 2
def vIncon : Nat := 3
def vSkipped : Nat := 4

/-- R213: severity, least to most: PASS, SKIPPED, INCONCLUSIVE, SUSPECT, MIRAGE. -/
def sevOf (v : Nat) : Nat :=
  match v with
  | 1 => 3
  | 2 => 4
  | 3 => 2
  | 4 => 1
  | _ => 0

def worse (a b : Nat) : Nat := if sevOf a < sevOf b then b else a

/-- The screen or a range policy found the operation SUSPECT. -/
def opSuspect (o : OpV) : Bool := o.rangeSusp || ((o.scr.map fun r => decide (r.susp ≠ 0)).getD false)

/-- The worst of the screen's groups other than SUSPECT ones; an unchecked operation is SKIPPED (R213). -/
def opBase (o : OpV) : Nat :=
  if !o.checkable then vSkipped
  else match o.scr with
    | none => vPass
    | some r => if r.incon ≠ 0 then vIncon else if r.skip ≠ 0 then vSkipped else vPass

/-- R213, R216: the fused verdict and its deciding source (1 screen, 2 range, 3 replay, 4 rerun). A SUSPECT that has been
resolved stands for what it was resolved to (log 14); a confirmed sample decides by itself (R540). -/
def opFused (o : OpV) : Nat × Nat :=
  match o.forced with
  | some v => (v, 1)
  | none => if o.replay = vMirage then (vMirage, 3) else
    let b : Nat × Nat := (opBase o, 1)
    let b1 := if opSuspect o then
        let v := o.res.getD vSuspect
        let src := if o.outcome ∈ [1, 2, 3, 4] then 4
          else if ((o.scr.map fun r => decide (r.susp ≠ 0)).getD false) then 1 else 2
        if sevOf b.1 < sevOf v then (v, src) else b
      else b
    let r := if o.mm = 0 then o.replay else worse o.replay vSuspect
    if sevOf b1.1 < sevOf r then (r, 3) else b1

/-- R216: the OPV record of a final operation. -/
def opvRec (s : State) (o : OpV) (v src : Nat) : Rec :=
  let dt := s.time.tick.toNat - o.endTick.toNat
  ⟨.opv, s.time.tick, o.spire, o.part, opvW3 o.spire o.part o.late o.varies,
    opHead o.dsc ++
    [packW [(0, v), (3, src), (8, o.outcome), (16, o.rerunSpire)],
     packW [(0, (o.scr.map (·.susp)).getD 0), (9, (o.scr.map (·.incon)).getD 0)],
     halves o.range (min o.samples 65535), BitVec.ofNat 32 (min dt (2 ^ 32 - 1)), 0]⟩

/-- R386, R466: the tag entry of an operation exists, where the table and the quota have room for it; a refusal by the quota is counted. -/
def openTag (s : State) (p : Nat) (l r : W16) : State :=
  let q := getPart s p
  if q.tags.any fun e => e.layer == l && e.oper == r then s
  else if q.tags.length ≥ ((area s).map (·.tagKeys)).getD 256 then s
  else if quotaOk s p lvTbl then updPart (addUse s p 2) p fun q => { q with tags := q.tags ++ [TagEnt.fresh l r] }
  else refuseQuota s p

/-- R465, R466: charges the tag entry of an operation, or the one that always exists. -/
def chargeTag (s : State) (o : OpV) (f : TagEnt → TagEnt) : State :=
  let l := dLayer o.dsc
  let r := dOper o.dsc
  let s1 := openTag s o.part l r
  let has := (getPart s1 o.part).tags.any fun e => e.layer == l && e.oper == r
  let hit := fun e : TagEnt => if has then e.layer == l && e.oper == r else e.layer == 0xFFFF && e.oper == 0xFFFF
  updPart s1 o.part fun q => { q with tags := q.tags.map fun e => if hit e then f e else e }

def addAt (l : List Nat) (i n : Nat) : List Nat := updAt l i (· + n)

/-- R217: frees an operation's rerun ticket. -/
def freeTicket (s : State) (uid : Nat) : State :=
  updOp { s with tickets := s.tickets.filter fun t => t.uid != uid } uid fun o => { o with ticket := none }

/-- R215, R216: an operation becomes FINAL: its counters, its OPV record unless it is PASS or unchecked. -/
def finalize (s : State) (uid : Nat) : State :=
  onOp s uid fun o =>
    let v := opFused o
    let s1 := freeTicket s uid
    let s2 := updOp s1 uid fun o => { o with state := .final, verdict := v.1, mm := 0 }
    let s3 := if v.1 = vMirage then updCnt s2 o.part fun c => { c with mirage := satInc c.mirage }
      else if v.1 = vSuspect then updCnt s2 o.part fun c => { c with suspect := satInc c.suspect } else s2
    if v.1 = vPass ∨ (v.1 = vSkipped ∧ !o.checkable) then s3 else addRec s3 (opvRec s3 o v.1 v.2)

/-- R215, R540: moves an operation on as far as its results allow. -/
def settle (s : State) (uid : Nat) : State :=
  onOp s uid fun o =>
    match o.state with
    | .opened | .final => s
    | _ =>
      if o.replay = vMirage then
        let s1 := match o.rerunBy with
          | some r => updOp s r fun x => { x with rerunOf := none }
          | none => s
        finalize (updOp s1 uid fun o => { o with
          res := if opSuspect o then some vMirage else o.res, outcome := 0, rerunBy := none, rerunSpire := 0xFFFF }) uid
      else
        let waits := opSuspect o && o.res.isNone
        if o.mm = 0 ∧ o.samplesOpen = 0 ∧ !waits then finalize s uid
        else if o.mm ≠ 0 ∨ waits then updOp s uid fun o => { o with state := .resolving } else s

/-- R219, R220: the SUSPECT stands with outcome 5 RERUN_FAIL, 6 NORERUN or 7 NOTICKET. -/
def standSuspect (s : State) (uid outcome : Nat) : State :=
  onOp s uid fun o =>
    let s1 := freeTicket s uid
    let s2 := updOp s1 uid fun o => { o with res := some vSuspect, outcome := outcome }
    settle (opInput s2 0x45 o outcome true 0) uid

/-- R218: whether a descriptor repeats another in every field but STAG (and DCRC, which covers it). -/
def sameButStag (a b : Dsc) : Bool := fld a 0 112 == fld b 0 112 && fld a 128 112 == fld b 128 112

/-- R219: the outcome of the original when its rerun's screen results are in. -/
def rerunOutcome (o n : OpV) : Nat :=
  let res := n.scr.getD ⟨0, 0, 0, 0, [], 0⟩
  let eq := n.od == o.od
  if n.deadClosed || res.incon != 0 || res.skip != 0 then 5
  else if !opSuspect n then (if eq then 1 else 3)
  else if !eq then 4
  else if res.suspGroups == (o.scr.getD ⟨0, 0, 0, 0, [], 0⟩).suspGroups && n.rangeSusp == o.rangeSusp
    && n.range % 8 == o.range % 8 then 2
  else 1

/-- R219, R221: applies the rerun's outcome to the original operation. -/
def applyRerun (s : State) (newUid : Nat) : State :=
  onOp s newUid fun n =>
    match n.rerunOf with
    | none => s
    | some orig =>
      onOp s orig fun o =>
        if o.res.isSome ∨ o.state = .final then s
        else
          let out := rerunOutcome o n
          if out = 5 then standSuspect s orig 5
          else
            let s1 := freeTicket s orig
            let v := if out = 3 then vMirage else if out = 4 then vIncon else vPass
            let s2 := updOp s1 orig fun o => { o with res := some v, outcome := out, disagree := o.disagree || out == 4 }
            let s3 := if out = 2 then updCnt s2 o.part fun c => { c with premise := satInc c.premise } else s2
            let s4 := match out with
              | 1 => opInput s3 0x92 o 1 true 0
              | 2 => opInput s3 0x93 o 2 true 0
              | 3 => opInput s3 0x30 o 2 true 0
              | _ => opInput (opInput s3 0x62 o 4 true 0) 0x62 n 4 true 0
            settle s4 orig

/-! ### Samples -/

def getSample (s : State) (uid row : Nat) : Option Sample := s.samples.find? fun x => x.uid == uid && x.row == row
def updSample (s : State) (uid row : Nat) (f : Sample → Sample) : State :=
  { s with samples := s.samples.map fun x => if x.uid = uid ∧ x.row = row then f x else x }

/-- The result codes of RPLV word 8. -/
def rPass : Nat := 0
def rMismatch : Nat := 1
def rMirage : Nat := 2
def rSuspect : Nat := 3
def rEngfault : Nat := 4
def rIncon : Nat := 5
def rSkipped : Nat := 6

/-- R213: the OPV code a replay result counts as; ENGFAULT clears the tile. -/
def replayVerdict (r : Nat) : Nat :=
  match r with
  | 1 => vSuspect
  | 2 => vMirage
  | 3 => vSuspect
  | 5 => vIncon
  | 6 => vSkipped
  | _ => vPass

/-- Exact mode serves VARIES operations outside the Integer class (R113, R116). -/
def exactMode (o : OpV) : Bool := o.varies && comboClass (dA o.dsc) (dB o.dsc) (dC o.dsc) (dAcc o.dsc) != some .integer

/-- R198: the first mismatching column, of the value window or of a group outside it; E1's value there stands in `r1`. -/
def firstMis (x : Sample) : Option MisCol :=
  match x.mis.head?, (x.misGroups.head?.bind fun g => x.r1.find? fun c => c.col == 32 * g) with
  | some m, some g => some (if m.col < g.col then m else g)
  | some m, none => some m
  | none, g => g

/-! ### Windows (R179) -/

/-- R179: lane-store words that one column needs. -/
def storeWords (s : State) (c : Contract) (cls : OpClass) (exact : Bool) : Nat :=
  if exact then (if cls = .float64 then 136 else 20)
  else if cls = .integer then 1
  else
    let w := widthOf s c
    match ctrLeaf c with
    | 0 => w
    | 1 => w + (if cls = .float64 then 68 else 10)
    | _ => w + Nat.log2 (chunkTerms c) + 1

/-- R179: the window width w of an operation's samples. -/
def windowWidth (s : State) (o : OpV) : Nat :=
  let d := o.dsc
  let c := (contractRec s (dContract d)).getD 0
  let cls := (comboClass (dA d) (dB d) (dC d) (dAcc d)).getD .integer
  let exact := exactMode o
  let lam := if exact && !ctrMx c then 32 else 128
  let wp := (s.image.map (·.geom.wports)).getD 1
  let pmax := max 1 (3 * lam * dN d / (4 * (wp * perBeat (dB d) 512)))
  min (dN d) (min pmax (131072 / storeWords s c cls exact))

/-- R179: n_e. -/
def engCount (s : State) (o : OpV) : Nat :=
  let w := windowWidth s o
  (dN o.dsc + w - 1) / w

/-! ### The records of a sample -/

/-- R198: the RPLV record of a verdict. The host bits of a column outside the value window, of which the Keep holds only a
digest, are a free value (log 5). E1 and E2 read 0xFF and the slot 0 where there is none (DESIGN CHOICE, log 103). -/
def rplvRec (s : State) (x : Sample) (o : OpV) (confirm : Bool) (result cause : Nat) : Rec :=
  let d := x.dsc
  let e1 := (x.engines.foldl (fun a e => match a with
    | none => some e
    | some b => some (min b e)) none).getD 0xFF
  let m := firstMis x
  let bits := fun v sc => if isMx (dC d) then packW [(0, v % 256), (8, sc)] else BitVec.ofNat 32 v
  let host := fun c : MisCol =>
    if x.winFirst ≤ c.col ∧ c.col < x.winFirst + x.win.length then
      bits c.host ((x.winScales.getD ((c.col - x.winFirst) / 32) 0).toNat)
    else lo32 (Config.unstated s.rng)
  ⟨.rplv, s.time.tick, x.spire, x.part,
    w3of x.spire x.part ((if confirm then 3 else x.kind) + 4 * b2n (exactMode o)),
    opHead d ++
    [packW [(0, x.row), (12, x.slot.getD 0)],
     packW [(0, result), (4, cause), (16, e1 % 256), (24, (x.conf.head?.getD 0xFF) % 256)],
     packW [(0, ((x.conf.drop 1).head?.getD 0xFF) % 256), (8, engCount s o % 256)],
     packW [(0, (m.map (·.col)).getD 0x3FFF),
       (14, min 16383 (x.mis.length + (x.misGroups.map (grpCols d)).foldl (· + ·) 0))],
     (m.map host).getD 0,
     (m.map fun c => bits c.e1 c.scale.toNat).getD 0,
     BitVec.ofNat 32 x.unchecked] ++ words64 (BitVec.ofNat 64 (x.prods + x.xprods))⟩

/-- R180: an engine that a sample holds returns to the pool. -/
def freeEngine (uid row : Nat) (s : State) (e : Nat) : State :=
  updEng s e fun g => if g.state = .held uid row then { g with state := .free, cols := [], fifo := [], rows := [] } else g

/-- R173: the witness of a sample is freed at its final verdict; those of MIRAGE, SUSPECT, ENGFAULT and DISAGREE are archived
with the engines' outputs. -/
def freeWitness (s : State) (x : Sample) (result cause : Nat) : State :=
  let s1 := subUse s x.part x.lines
  if result = rMirage ∨ result = rSuspect ∨ result = rEngfault ∨ (result = rIncon ∧ cause = 0x0B) then
    nearPush s1 (.witness x.uid x.row)
  else s1

/-- R199: the word of the RPL block that a result counts in, and that of a SKIPPED cause. -/
def countRpl (s : State) (p result cause : Nat) : State :=
  let s1 := addRpl s p (match result with
    | 0 => 1 | 1 => 2 | 2 => 3 | 3 => 4 | 4 => 5 | 5 => 6 | _ => 7) 1
  if result = rSkipped then addDeficit (addRpl s1 p (8 + (cause - 0x20)) 1) p 1 else s1

/-- R197, R338: the Belfry input of a replay result. -/
def replayInput (s : State) (o : OpV) (row result cause : Nat) : State :=
  match result with
  | 0 => opInput s 0x90 o 0 false row
  | 1 => opInput s 0x42 o cause false row
  | 2 => opInput s 0x30 o 1 false row
  | 3 => opInput s 0x43 o cause false row
  | 4 => opInput s 0x44 o cause false row
  | 5 => if cause = 0x0B then opInput s 0x62 o cause false row else opInput s 0x61 o cause false row
  | _ => opInput s 0x91 o cause false row

/-- R226: a sample of a WATCH tile ended PASS. -/
def watchPass (s : State) (sp : Nat) : State :=
  updTile s sp fun t => match t.watch with
    | some w => { t with watch := some { w with passes := w.passes + 1 } }
    | none => t

/-- R465, R486: products and a SKIPPED verdict are charged at the sample's final verdict. -/
def chargeSample (s : State) (x : Sample) (o : OpV) (result : Nat) : State :=
  let n := x.prods + x.xprods
  let s1 := addMeter (addMeter s x.part mBit x.prods) x.part mExact x.xprods
  let s2 := chargeTag s1 o fun e => { e with counts := addAt e.counts 11 n }
  if result = rSkipped then addMeter s2 x.part mSkipped 1 else s2

/-- R191, R198: a sample ends with a final verdict: its record, counters and input, its slot, engines and witness freed, its
operation told. -/
def endSample (s : State) (uid row result cause : Nat) : State :=
  match getSample s uid row with
  | none => s
  | some x =>
    let confirming := x.state = .confirming
    onOp s uid fun o =>
      let s0 := addRec s (rplvRec s x o confirming result cause)
      let s1 := chargeSample { s0 with rng := s0.rng + 1 } x o result
      let s2 := countRpl s1 x.part result cause
      let s3 := replayInput s2 o row result cause
      let s4 := (x.engines ++ x.conf).foldl (freeEngine uid row) s3
      let s5 := freeWitness { s4 with samples := s4.samples.filter fun y => !(y.uid == uid && y.row == row) } x result cause
      let s6 := if x.unchecked = 0 then s5 else addRpl (addDeficit s5 x.part x.unchecked) x.part 14 x.unchecked
      let s7 := if result = rPass then watchPass s6 x.spire else s6
      let s8 := updOp s7 uid fun o => { o with
        samplesOpen := o.samplesOpen - 1, mm := if confirming then o.mm - 1 else o.mm,
        skipped := if result = rSkipped then o.skipped + 1 else o.skipped,
        replay := worse o.replay (replayVerdict result),
        disagree := o.disagree || (result == rIncon && cause == 0x0B) }
      settle s8 uid

def updLkOp (s : State) (p uid : Nat) (f : LkOp → LkOp) : State :=
  updPart s p fun q => { q with keys := q.keys.map fun k =>
    { k with ops := k.ops.map fun o => if o.uid = uid then f o else o } }

/-- R291, R292: an operation that was closed without records was closed early. -/
def lkClosed (s : State) (p uid : Nat) : State :=
  updLkOp s p uid fun o => { o with early := true }

/-- The operations of a Spire that no SCRSUM has come for close in the Keep (R238). -/
def closeInKeep (s : State) (uid : Nat) : State :=
  onOp s uid fun o =>
    match o.state with
    | .opened =>
      let n := if o.checkable then dGroups o.dsc else 0
      let s1 := updOp s uid fun o => { o with
        state := .screened, scr := some ⟨0, 0, n, 0, [], 12⟩, deadClosed := true, endTick := s.time.tick }
      let s2 := if n = 0 then s1 else opInput s1 0x60 o 12 false 0
      settle (applyRerun (lkClosed s2 o.part uid) uid) uid
    | _ => s

end Sys2Proof.Machine
end

