-- ==== Sys2Proof/Machine/Tiles.lean ====
section
/-! DEFINITION. Tile states and the fence frames that carry them, as the Keep decides them (R224 to R238, R264 C4, R280). -/

namespace Sys2Proof.Machine

/-! ### Records -/

/-- The causes of a TSTATE record. -/
def tcPeal : Nat := 1
def tcWatchExit : Nat := 2
def tcRelease : Nat := 3
def tcRouter : Nat := 4
def tcSpire : Nat := 5
def tcFence : Nat := 6
def tcTap : Nat := 7
def tcRepair : Nat := 8
def tcCold : Nat := 9
def tcNoop : Nat := 10
def tcBringup : Nat := 11
def tcDieFault : Nat := 12
def tcBlfSafe : Nat := 13

/-- R229: the TSTATE record of a tile. `lat` is the time from the verdict to FENCE_COMPUTE, or 0. -/
def tstateRec (s : State) (sp old new cause peal cls : Nat) (fseq : Byte) (vtick : W64) (lat : Nat) : Rec :=
  ⟨.tstate, s.time.tick, sp, partOfSp s sp, w3of sp (partOfSp s sp) (old + 8 * new + 64 * cause),
    [packW [(0, peal % 65536), (16, cls % 16), (20, fseq.toNat)]] ++ words64 vtick ++
      [BitVec.ofNat 32 (min lat (2 ^ 32 - 1))]⟩

/-! ### Thermal counters (R457), in the order of their offsets -/

def thmCount (s : State) (k n : Nat) : State :=
  { s with thermal := { s.thermal with cnts := updAt s.thermal.cnts k (satAdd · n) } }
def thSnsbad : Nat := 0
def thLvlchg : Nat := 1
def thPass : Nat := 2
def thFail : Nat := 3
def thAbort : Nat := 4
def thNospare : Nat := 5
def thFusebad : Nat := 6

/-! ### Fence frames -/

/-- R363: the bytes of a flit, in which the Wadi lane carries a frame or its report. -/
def flitBytes : Nat := 16

/-- R230, R231, R460: sends a frame now, with the next FSEQ, on both paths. -/
def issueFrame (s : State) (sp : Nat) (f : OutFrame) : State :=
  onTile s sp fun t =>
    let q := t.fseq + 1
    let w := mkFrame (sp % 256) f.op q
    let s1 := updTile s sp fun t => { t with fseq := q, out := some { f with frame := w, reissues := 0, issued := s.time.tick } }
    bigDome { s1 with caravan := { s1.caravan with frames := s1.caravan.frames ++ [(sp, w)] } } (sp / 256) 1 flitBytes

/-- R229: the TSTATE record of a frame's change; TEST_ON and TEST_OFF change no state. -/
def frameRec (s : State) (sp : Nat) (f : OutFrame) (fseq : Byte) (lat : Nat) : State :=
  if f.op = opTestOn ∨ f.op = opTestOff then s
  else addRec s (tstateRec s sp f.old f.new f.cause f.peal f.cls fseq f.vtick lat)

/-- R229: the records of changes whose frames no report completes, with no latency. A RELEASE command whose frame is given up, which only a tile
that becomes DEAD does, is refused with cause DEAD (DESIGN CHOICE, log 105). -/
def recordUnsent (s : State) (sp : Nat) (fs : List OutFrame) : State :=
  fs.foldl (fun s f =>
    let s1 := frameRec s sp f (fSeq f.frame) 0
    match f.inst with
    | some i => cmdFinish s1 i crRefused ccDead
    | none => s1) s

/-- R231: at most one frame is outstanding; later ones wait, but a DEAD frame goes at once: what waits is dropped, and the outstanding
frame is not issued again. -/
def sendFrame (s : State) (sp : Nat) (f : OutFrame) : State :=
  onTile s sp fun t =>
    if f.op = opDead then
      issueFrame (updTile (recordUnsent s sp t.next) sp fun t => { t with next := [], superseded := t.superseded ++ t.out.toList }) sp f
    else match t.out with
      | none => issueFrame s sp f
      | some _ => updTile s sp fun t => { t with next := t.next ++ [f] }

def frameOf (op old new cause peal cls : Nat) (vtick : W64) (inst : Option Nat) : OutFrame := ⟨op, 0, 0, 0, old, new, cause, peal, cls, vtick, inst⟩

/-- R435: TEST_ON and TEST_OFF frames change levels and no state. -/
def sendTest (s : State) (sp : Nat) (on : Bool) : State :=
  let st := stateOf s sp
  sendFrame s sp (frameOf (if on then opTestOn else opTestOff) st st 0 0xFFFF 9 s.time.tick none)

/-! ### The Spire's mirror of a state that needs no frame -/

/-! ### Golden sets (R434) and the access to a unit under test (R74, R75, R435) -/

def uSpireSet : Nat := 0x20
def uEngineSet : Nat := 0x21

/-- The golden set of a unit type, in ascending SLICE order. -/
def goldenOf (s : State) (utype : Nat) : List GoldenEntry :=
  (((s.image.map (·.golden)).getD []).filter fun g => g.utype == utype).insertionSort fun a b => a.slice ≤ b.slice

def tileType (s : State) (sp : Nat) : Nat :=
  (s.image.bind fun im => im.geom.spires.find? fun c => c.ix == sp).map (·.ttype) |>.getD 0

/-- R434: a tile's full set. -/
def fullSet (s : State) (sp : Nat) : List GoldenEntry := goldenOf s (tileType s sp) ++ goldenOf s uSpireSet

def noEntry : GoldenEntry := ⟨0, 0, 0, 0, 0, 0, false⟩

def entryAt (es : List GoldenEntry) (i : Nat) : GoldenEntry := es.getD i noEntry

/-- The layout of a Spire's own generator: R75's register in the order it lists, since the manual gives the Spire's none (log 87). -/
def genCfg : WrapperCfg := ⟨0, 0, 0, 0, 0, 64, 88, 152, 153⟩

/-- R75, R409: the wrapper of a tile, as WRAPPERS declares its type. -/
def wrapCfg (s : State) (sp : Nat) : WrapperCfg :=
  ((s.image.bind fun im => im.wrappers.find? fun w => w.ttype == tileType s sp)).getD genCfg

/-- R435 step 2: the Dome opens the segment insertion bit, selects the logic self-test instruction and writes SEED and COUNT; the
patterns run. -/
def wrapLoad (c : WrapperCfg) (e : GoldenEntry) (w : Wrapper) : Wrapper :=
  { w with sib := true, ir := c.lbist, dr := e.seed.toNat * 2 ^ c.seedPos + e.count * 2 ^ c.countPos + 2 ^ c.runPos }

/-- The patterns are done: RUNNING falls, DONE rises. -/
def wrapDone (c : WrapperCfg) (w : Wrapper) : Wrapper :=
  if w.dr.testBit c.runPos then { w with dr := w.dr - 2 ^ c.runPos + (if w.dr.testBit c.donePos then 0 else 2 ^ c.donePos) } else w

/-- The Dome leaves a unit's wrapper in bypass, its segment insertion bit closed (DESIGN CHOICE, log 106). -/
def wrapLeave (c : WrapperCfg) (w : Wrapper) : Wrapper := { w with sib := false, ir := c.wsBypass }

/-- Step 4: the signature stands in the register. A slice that gave no DONE leaves the register as it runs (R435). The wrapper is left in
bypass then (DESIGN CHOICE, log 106). -/
def wrapEnd (c : WrapperCfg) (sig : Option W64) (w : Wrapper) : Wrapper :=
  wrapLeave c (match sig with
    | some x => { w with dr := (wrapDone c w).dr + x.toNat * 2 ^ c.sigPos }
    | none => w)

/-- Applies a change to the wrapper of a tile slice, or to the generator of a Spire slice. -/
def updWrap (s : State) (sp : Nat) (e : GoldenEntry) (f : WrapperCfg → Wrapper → Wrapper) : State :=
  updSp s sp fun p => if e.utype = uSpireSet then { p with gen := f genCfg p.gen } else { p with wrap := f (wrapCfg s sp) p.wrap }

/-- R435 steps 2 and 3: a slice that waits begins once the unit is under test, TT_FENCE_ACK stands and the tile is not being
re-initialised. -/
def tryBegin (s : State) (sp : Nat) : State :=
  match getTile s sp, getSp s sp with
  | some t, some p =>
    match t.run with
    | some r =>
      if r.going ∨ !p.testing ∨ !p.lv.fack ∨ !t.resetDone then s
      else
        updWrap (updTile s sp fun t => { t with run := some { r with began := s.time.tick, going := true } }) sp
          (entryAt (fullSet s sp) r.slice) fun c => wrapLoad c (entryAt (fullSet s sp) r.slice)
    | none => s
  | _, _ => s

/-- R435 steps 5 and 6: TEST_OFF, which waits for the TT_READY of a tile's handshake. -/
def sendTestOff (s : State) (sp : Nat) : State :=
  onTile s sp fun t => if t.resetDone || t.lost then sendTest s sp false else updTile s sp fun t => { t with offDue := true }

/-- R165, R224, R350: a tile enters WATCH at its Spire: r = 8, the HEALTHY rate kept. -/
def spWatch (sp : Spire) : Spire :=
  { sp with tstate := stWatch, watchCnt := satInc sp.watchCnt, smp := { sp.smp with rate := 8, watch := true } }

/-- R350: a tile returns to HEALTHY at its Spire, with the stored rate. -/
def spHealthy (sp : Spire) : Spire :=
  { sp with tstate := stHealthy, smp := { sp.smp with rate := sp.smp.stored, watch := false } }

/-! ### Slices that end ABORTED (R439, R457) -/

def lbPass : Nat := 1
def lbSolid : Nat := 2
def lbFlaky : Nat := 3
def lbAborted : Nat := 4
def lbTimeout : Nat := 5

/-- The LBIST record: a PASS is counted only. -/
def lbistRec (s : State) (sp part : Nat) (unit : Nat) (e : GoldenEntry) (result : Nat) (sig : W64) (us : W32) : Rec :=
  ⟨.lbist, s.time.tick, sp, part, w3of sp part 0,
    [packW [(0, e.utype), (16, unit)], BitVec.ofNat 32 e.slice, BitVec.ofNat 32 result] ++ words64 sig ++ [us]⟩

/-- R486: the µs that a slice has run. -/
def sliceUs (s : State) (r : SliceRun) : Nat := if r.going then (s.time.tick.toNat - r.began.toNat) / 1000 else 0

/-- R439: the slice that runs on a tile ends ABORTED: counted, recorded and charged; the pointer stays at it, and its request is left to the
caller. -/
def abortRun (s : State) (t : Tile) : State :=
  match t.run with
  | none => s
  | some r =>
    let e := entryAt (fullSet s t.ix) r.slice
    let us := sliceUs s r
    let s1 := addRec (thmCount s thAbort 1) (lbistRec s t.ix t.part t.ix e lbAborted 0 (BitVec.ofNat 32 us))
    let s2 := addMeter s1 t.part mTest us
    let s3 := if ((t.reqs.head?.map (·.moves)).getD false) then updTile s2 t.ix fun t => { t with ptr := r.slice } else s2
    updWrap s3 t.ix e wrapLeave

/-- R439, R534: what a tile that becomes DEAD says to the commands that ordered tests of it: ABORTED to the one under way, DEAD to those
that have not begun. -/
def dropTests (s : State) (t : Tile) : State :=
  t.reqs.foldl (fun s r => match r.inst with
    | some i => if r.begun then cmdFinish s i crAborted 0 else cmdFinish s i crRefused ccDead
    | none => s) s

/-! ### State changes -/

/-- R443: a change to or from FENCED, RETIRED or DEAD makes a snapshot due. -/
def snapshotDue (s : State) (old new : Nat) : State :=
  if old ≠ new ∧ (old ≥ 2 ∨ new ≥ 2) then
    { s with nvm := { s.nvm with snapPending := true } } else s

/-- R238, R439: what the Keep closes when a tile becomes DEAD. -/
def closeDead (s : State) (sp : Nat) : State :=
  let uids := (s.ops.filter fun o => o.spire == sp).map (·.uid)
  let s1 := (s.samples.filter fun x => x.spire == sp).foldl (fun s x => endSample s x.uid x.row rIncon 0x0F) s
  let s2 := uids.foldl closeInKeep s1
  let s3 := onTile s2 sp fun t => dropTests (abortRun s2 t) t
  let s4 := updTile s3 sp fun t => { t with
    run := none, reqs := [], offDue := false, watch := none, wdHeld := true, resetDone := true }
  updSp s4 sp fun t => { t with ops := [], pass := none, injSlot := none, pendFence := false }

/-- R224, R225: sets a tile's state in the Keep and sends what carries it: a frame, or for WATCH and HEALTHY from each other a
command to the Spire with its TSTATE record at once. `code` and `uid` name the input that placed a tile in WATCH, `inst` the instance of
a RELEASE command. -/
def changeState (s : State) (sp new cause peal cls : Nat) (vtick : W64) (code uid : Nat) (inst : Option Nat := none) : State :=
  onTile s sp fun t =>
    let old := t.state
    let s1 := snapshotDue (updTile s sp fun t => { t with
      state := new
      fencedAt := if old < stFenced ∧ stFenced ≤ new then some s.time.tick else t.fencedAt
      watch := if new = stWatch then some ⟨s.time.tick, code, uid, false, 0, false⟩ else none }) old new
    let send := fun op s => sendFrame s sp (frameOf op old new cause peal cls vtick inst)
    match new with
    | 2 => send opFence s1
    | 3 => send opRetire s1
    | 4 => closeDead (send opDead s1) sp
    | 1 =>
      if old = stHealthy then addRec (updSp s1 sp spWatch) (tstateRec s1 sp old new cause peal cls t.fseq vtick 0)
      else send opRelease s1
    | _ => addRec (updSp s1 sp spHealthy) (tstateRec s1 sp old new cause peal cls t.fseq vtick 0)

/-- R225: a no-op is recorded. -/
def noopState (s : State) (sp peal cls : Nat) (vtick : W64) : State :=
  onTile s sp fun t => addRec s (tstateRec s sp t.state t.state tcNoop peal cls t.fseq vtick 0)

/-- R225: a WATCH action. On a tile in WATCH it is a no-op that counts against a withdrawal. -/
def actWatch (s : State) (sp peal cls : Nat) (vtick : W64) (code uid : Nat) : State :=
  match stateOf s sp with
  | 0 => changeState s sp stWatch tcPeal peal cls vtick code uid
  | 1 => noopState (updTile s sp fun t => { t with watch := t.watch.map fun w => { w with other := true } }) sp peal cls vtick
  | _ => noopState s sp peal cls vtick

/-- R226: every WATCH exit condition holds. -/
def watchExit (s : State) (sp : Nat) : Bool :=
  match getTile s sp, recov s with
  | some t, some r =>
    match t.watch with
    | some w => t.state == stWatch && decide (s.time.tick.toNat - w.since.toNat ≥ r.watchMin) && decide (w.passes ≥ r.watchPass)
        && w.slice
    | none => false
  | _, _ => false

/-- R221, R225: the input that placed a tile in WATCH, by the code of the input that resolves it: a MISMATCH by ENGFAULT, a screen SUSPECT
by RERUN_PREMISE. -/
def resolvedBy (code : Nat) : Option Nat := if code = 0x44 then some 0x42 else if code = 0x93 then some 0x40 else none

/-- R221, R225: the WATCH came from the MISMATCH or screen SUSPECT of operation `uid` that the input `code` resolves, no other MISMATCH of
that operation is still open, and nothing else has concerned the tile. -/
def watchWithdraw (s : State) (sp uid code : Nat) : Bool :=
  match getTile s sp with
  | some t =>
    match t.watch with
    | some w => t.state == stWatch && w.uid == uid && uid != 0 && some w.code == resolvedBy code && !w.other &&
        ((getOp s uid).map fun o => o.mm == 0).getD true
    | none => false
  | none => false

/-- R225: an UNWATCH action, PARAM[0] choosing the condition. -/
def actUnwatch (s : State) (sp peal cls param : Nat) (vtick : W64) (uid code : Nat) : State :=
  if param % 2 = 0 then
    if watchExit s sp then changeState s sp stHealthy tcWatchExit peal cls vtick 0 0 else noopState s sp peal cls vtick
  else if watchWithdraw s sp uid code then changeState s sp stHealthy tcPeal peal cls vtick 0 0
  else noopState s sp peal cls vtick

/-- R225: a FENCE action. -/
def actFence (s : State) (sp cause peal cls : Nat) (vtick : W64) : State :=
  if stateOf s sp < stFenced then changeState s sp stFenced cause peal cls vtick 0 0 else noopState s sp peal cls vtick

/-- R236: a REROUTE note names the field and the grid position of a tile whose router is lost. -/
def postReroute (s : State) (sp : Nat) : State :=
  post s (partOfSp s sp) .reroute sp [packW [(0, sp / 256), (8, sp % 16), (16, sp % 256 / 16)]]

/-- R225, R237: a DEAD action; only cold reset leaves DEAD. -/
def actDead (s : State) (sp cause peal cls : Nat) (vtick : W64) : State :=
  if stateOf s sp = stDead then noopState s sp peal cls vtick
  else
    let s1 := changeState s sp stDead cause peal cls vtick 0 0
    if cause = tcRouter then postReroute s1 sp else s1

/-- R226: an event of the last exit condition restarts the conditions; all but CKROW count against a withdrawal (R225). -/
def concern (s : State) (sp : Nat) (counts : Bool) : State :=
  updTile s sp fun t => { t with watch := t.watch.map fun w =>
    { w with since := s.time.tick, passes := 0, slice := false, other := w.other || counts } }

/-! ### C4 of the recovery guarantee (R264) -/

/-- R264: a FENCED, RETIRED or DEAD tile took work between RESTORED and the next seal: the amendment, once. -/
def c4Violation (s : State) (p : Nat) : State :=
  let q := getPart s p
  match q.c4Open, q.lastRcv with
  | true, some r =>
    let w := setFld (setFld r.w3 7 1 0) 8 1 1
    let r2 : Rec := { r with kind := .rcvAmend, tick := s.time.tick, w3 := w }
    alert (addRec (updPart s p fun q => { q with c4Open := false, lastRcv := some r2 }) r2) alRecovery
  | _, _ => s

/-- The tile of a Spire is FENCED, RETIRED or DEAD (R229). -/
def stopped (s : State) (sp : Nat) : Bool := decide (stateOf s sp ≥ stFenced)

/-! ### Violations of a Tile Tap (R91, R92) -/

/-- R91: a violation of a Tile Tap: the record, the counter, SPR_VIOL, the trace entry, the Belfry input. A DEAD tile's Spire
sends no record (R238). `d` is the descriptor concerned where it is known; an unknown one leaves the placement epoch 0 (log 85). -/
def tapViol (s : State) (k : RecKind) (sp : Nat) (d : Option Dsc) (code : Byte) (detail : W16) (beats : Nat) : State :=
  let p := partOfSp s sp
  let lay := (d.map dLayer).getD 0xFFFF
  let op := (d.map dOper).getD 0xFFFF
  let ty := k.num.getD 0
  let s1 := updSp (spCount s sp kViol 1) sp fun t => { t with viol := (code, ty) }
  let s2 := trace s1 sp 0x1A false false detail lay op (ty.toNat + 65536 * code.toNat)
  if stateOf s sp = stDead then s2
  else
    let s3 := addRec (uplink s2 sp 32) (violRec (spNow s sp) k sp p 0 lay op code (BitVec.ofNat 32 detail.toNat) ((d.map dEpoch).getD 0) beats)
    let uid := ((getSp s sp).bind fun t => (t.ops.find? fun o => !o.closed && some o.dsc == d).map (·.uid)).getD 0
    addInput s3 (mkInput s3 (violInput k) p sp lay code.toNat false uid 0)

/-! ### Epoch advance (R280) -/

/-- R280: an epoch lags the new one by 2^14 or more. -/
def lagsFar (new old : W16) : Bool := decide ((new - old).toNat ≥ 16384) && decide ((new - old).toNat ≤ 32768)

/-- R280: at an epoch advance the far-lagging open items of the partition close. -/
def closeLagging (s : State) (p : Nat) (new : W16) : State :=
  let xs := s.samples.filter fun x => x.part == p && lagsFar new (dEpoch x.dsc)
  let s1 := xs.foldl (fun s x => endSample s x.uid x.row rIncon 0x04) s
  let os := s1.ops.filter fun o => o.part == p && o.state != .final && lagsFar new (dEpoch o.dsc)
  os.foldl (fun s o =>
    let s1 := updOp s o.uid fun o => { o with
      forced := some vIncon, outcome := if opSuspect o && o.res.isNone then 6 else o.outcome, mm := 0 }
    finalize s1 o.uid) s1

end Sys2Proof.Machine
end

