-- ==== Sys2Proof/Machine/Digest.lean ====
section
/-! DEFINITION. Layer keys and the LD record (R289 to R292). -/

namespace Sys2Proof.Machine

/-- R289: whether a key is the one of a placement epoch, a position and a layer. -/
def isKey (k : LayerKey) (epoch era : W16) (step : W32) (layer : W16) : Bool :=
  k.epoch == epoch && k.era == era && k.step == step && k.layer == layer

def isClosedKey (c : ClosedKey) (epoch era : W16) (step : W32) (layer : W16) : Bool :=
  c.body.epoch == epoch && c.body.era == era && c.body.step == step && c.body.layer == layer

/-- Bytes of a word in R8's order. -/
def le64 (x : W64) : List Byte := leBytes 8 x.toNat

/-- The Spires that contribute to a key, ascending, without repeats. -/
def keySpires (k : LayerKey) : List Nat :=
  let xs := (k.ops.map (·.spire)).eraseDups
  xs.insertionSort (· ≤ ·)

/-- R290: the digest of one Spire's operations, in ACK order; an operation whose digest never came is left out. -/
def tileDigest (kD : Nat) (ops : List LkOp) (sp : Nat) (f : LkOp → Option W64) : W64 :=
  sd64 kD ((ops.filter fun o => o.spire == sp).flatMap fun o => match f o with
    | some d => le64 d
    | none => [])

/-- R290: TD_s of every contributing Spire. -/
def tileDigests (kD : Nat) (k : LayerKey) (f : LkOp → Option W64) : List (W16 × W64) :=
  (keySpires k).map fun s => (BitVec.ofNat 16 s, tileDigest kD k.ops s f)

/-- R290: the ordered digest over 10-byte entries. -/
def orderedDigest (kD : Nat) (tds : List (W16 × W64)) : W64 :=
  sd64 kD (tds.flatMap fun e => leBytes 2 e.1.toNat ++ le64 e.2)

/-- R290, R291: the LD record's values when a key closes. An operation whose digests never came counts as closed early (DEDUCED, log 94). -/
def ldBody (kD p : Nat) (t : W64) (k : LayerKey) (forced : Bool) : LdBody :=
  let early := (k.ops.filter fun o => o.early || o.od.isNone).length
  let var := (k.ops.filter (·.varies)).length
  { part := p, tick := t,
    flags := BitVec.ofNat 4 (b2n forced + 2 * b2n (var != 0) + 4 * b2n (early != 0) + 8 * b2n k.refused),
    era := k.era, layer := k.layer, step := k.step, epoch := k.epoch, spires := (keySpires k).length,
    ops := BitVec.ofNat 32 k.ops.length, rows := BitVec.ofNat 64 ((k.ops.map (·.rows)).foldl (· + ·) 0),
    ld := orderedDigest kD (tileDigests kD k (·.od)),
    lrs := BitVec.ofNat 64 ((k.ops.map (·.rsv)).foldl (fun a x => a * x % sdP) 1),
    dd := orderedDigest kD (tileDigests kD k fun o => if o.od.isSome then some o.dd else none),
    wd := k.wd, id := BitVec.ofNat 64 ((k.ops.map fun o => (o.id.map (·.toNat)).getD 0).foldl (· + ·) 0),
    varies := BitVec.ofNat 32 var, early := BitVec.ofNat 32 early, segs := BitVec.ofNat 32 k.segs }

/-- R292: the LD record. -/
def ldRec (b : LdBody) : Rec :=
  ⟨.ld, b.tick, 0xFFFF, b.part, packW [(0, b.part), (4, b.flags.toNat)],
    [halves b.era.toNat b.layer.toNat, b.step, halves b.epoch.toNat b.spires, b.ops] ++
    words64 b.rows ++ words64 b.ld ++ words64 b.lrs ++ words64 b.dd ++ words64 b.wd ++ words64 b.id ++
    [b.varies, b.early, b.segs, 0]⟩

/-- R291: closes a key: its LD record goes to the digest log, and its tile digests are held against the quota (R295, R386). -/
def closeKey (s : State) (p : Nat) (k : LayerKey) (forced : Bool) : State :=
  let kD := (digestKeys s p).1
  let b := ldBody kD p s.time.tick k forced
  let tds := tileDigests kD k (·.od)
  let lines := linesOf (10 * tds.length)
  let hold := quotaOk s p lvTbl
  let s1 := if hold then addUse s p lines else refuseQuota s p
  let s2 := updPart s1 p fun q => { q with
    keys := q.keys.filter fun x => !isKey x k.epoch k.era k.step k.layer
    closed := q.closed ++ [⟨b, if hold then tds else [], false, [], [], [], false⟩] }
  logDigest s2 p (ldRec b)

def ldOpenMax (s : State) : Nat := ((recov s).map (·.ldOpen)).getD 64

/-- R291: opens a key where there is none; a key beyond LD_OPEN forces the oldest closed. -/
def openKey (s : State) (p : Nat) (epoch era : W16) (step : W32) (layer : W16) : State :=
  let q := getPart s p
  if q.keys.any (isKey · epoch era step layer) then s
  else
    let s1 := if q.keys.length < ldOpenMax s then s else
      match q.keys.head? with
      | some k => closeKey s p k true
      | none => s
    updPart s1 p fun q => { q with keys := q.keys ++ [⟨epoch, era, step, layer, [], 0, 0, false⟩] }

def updKey (s : State) (p : Nat) (epoch era : W16) (step : W32) (layer : W16) (f : LayerKey → LayerKey) : State :=
  updPart s p fun q => { q with keys := q.keys.map fun k => if isKey k epoch era step layer then f k else k }

/-- R291: the LDX record naming a key already closed (no layout is given: log 9). -/
def ldxRec (s : State) (p : Nat) (epoch era : W16) (step : W32) (layer : W16) : Rec :=
  ⟨.ldx, s.time.tick, 0xFFFF, p, packW [(0, p)], [halves era.toNat layer.toNat, step, halves epoch.toNat 0]⟩

/-- R289, R291: an accepted operation that is not LATE joins the key of its ACK, or is counted as an orphan. -/
def joinKey (s : State) (uid : Nat) : State :=
  onOp s uid fun o =>
    let q := getPart s o.part
    let e := dEpoch o.dsc
    let l := dLayer o.dsc
    let era := q.pos.era
    let st := q.pos.step
    match q.closed.find? (isClosedKey · e era st l) with
    | some c =>
      if c.ldxDone then updCnt s o.part fun n => { n with ldOrphan := satInc n.ldOrphan }
      else
        let mark := fun c : ClosedKey => if isClosedKey c e era st l then { c with ldxDone := true } else c
        let s1 := updPart s o.part fun q => { q with closed := q.closed.map mark }
        logDigest s1 o.part (ldxRec s1 o.part e era st l)
    | none =>
      updKey (openKey s o.part e era st l) o.part e era st l fun k =>
        { k with ops := k.ops ++ [⟨uid, o.spire, none, 1, 0, none, 0, o.varies, false⟩] }

/-- R292: a refused descriptor marks its key REFUSED, and opens it where no operation of it was accepted yet. -/
def refuseKey (s : State) (p : Nat) (d : Dsc) : State :=
  let q := getPart s p
  if q.closed.any (isClosedKey · (dEpoch d) q.pos.era q.pos.step (dLayer d)) then s
  else updKey (openKey s p (dEpoch d) q.pos.era q.pos.step (dLayer d)) p (dEpoch d) q.pos.era q.pos.step (dLayer d) fun k => { k with refused := true }

/-- R289, R290: a weight segment's digest joins its key. -/
def joinSegment (s : State) (p : Nat) (epoch layer : W16) (wd : W64) : State :=
  let q := getPart s p
  if q.closed.any (isClosedKey · epoch q.pos.era q.pos.step layer) then s
  else updKey (openKey s p epoch q.pos.era q.pos.step layer) p epoch q.pos.era q.pos.step layer fun k =>
    { k with wd := k.wd + wd, segs := k.segs + 1 }

/-- R290: an operation's digests enter its key. -/
def enterDigests (s : State) (p uid : Nat) (od : W64) (rsv : Nat) (dd : W64) (id : Option W64) (rows : Nat) (early : Bool) : State :=
  updLkOp s p uid fun o => { o with od := some od, rsv := rsv, dd := dd, id := id, rows := rows, early := early }

/-- R291: the operation has reached SCREENED; one that the Keep no longer lists has. -/
def opScreened (s : State) (uid : Nat) : Bool := ((getOp s uid).map (·.state)) != some .opened

/-- R288: the operation's DIGOP, which comes with its SCRSUM, is on its way. -/
def digopDue (s : State) (uid : Nat) : Bool := s.caravan.flight.any fun m => match m with
  | .digests _ u _ _ _ _ _ _ => u == uid
  | _ => false

/-- R291: the key's position or epoch has been passed, and its operations are SCREENED or were closed early. A SCRSUM whose DIGOP has not
come yet does not end the key (DEDUCED from R288, log 94). -/
def keyDue (s : State) (q : Part) (k : LayerKey) : Bool :=
  let later := decide (k.era.toNat * 2 ^ 32 + k.step.toNat < q.pos.era.toNat * 2 ^ 32 + q.pos.step.toNat)
  (later || laterThan q.epoch k.epoch) && k.ops.all fun o => (o.early || opScreened s o.uid) && !digopDue s o.uid

/-- R291: closes the due keys of a partition at a Belfry tick. -/
def closeDueKeys (s : State) (p : Nat) : State :=
  ((getPart s p).keys.filter (keyDue s (getPart s p))).foldl (fun s k => closeKey s p k false) s

end Sys2Proof.Machine
end

