-- ==== Sys2Proof/Machine/Ecdsa.lean ====
section
/-! DEFINITION. ECDSA over P-384 of FIPS 186-5, which R315 and R410 name (log 12: the curve's numbers and the algorithm are
taken from FIPS). A point is an affine pair; none is the point at infinity. -/

namespace Sys2Proof.Machine

def ecP : Nat := 2 ^ 384 - 2 ^ 128 - 2 ^ 96 + 2 ^ 32 - 1
def ecN : Nat := 0xffffffffffffffffffffffffffffffffffffffffffffffffc7634d81f4372ddf581a0db248b0a77aecec196accc52973
def ecB : Nat := 0xb3312fa7e23ee7e4988e056be3f82d19181d9c6efe8141120314088f5013875ac656398d8a2ed19d2a85c8edd3ec2aef
def ecGx : Nat := 0xaa87ca22be8b05378eb1c71ef320ad746e1d3b628ba79b9859f741e082542a385502f25dbf55296c3a545e3872760ab7
def ecGy : Nat := 0x3617de4a96262c6f5d9e98bf9292dc29f8f41dbd289a147ce9da3113b5f0b8c00a60b1ce1d7e819d7a431d7c90ea0e5f

/-- `b^e mod m` by the bits of `e`, highest first. -/
def powMod (m b : Nat) (bits : List Bool) : Nat :=
  bits.foldl (fun a x => if x then a * a % m * b % m else a * a % m) (1 % m)

/-- The inverse modulo a prime, by Fermat. -/
def invMod (m x : Nat) : Nat := powMod m (x % m) (bitsOf 384 (m - 2)).reverse

abbrev EcPoint := Option (Nat × Nat)

def ecSub (a b : Nat) : Nat := (a + ecP - b % ecP) % ecP

/-- The chord or tangent construction with the slope `l`. -/
def ecChord (l x1 y1 x2 : Nat) : EcPoint :=
  let x3 := ecSub (ecSub (l * l) x1) x2
  some (x3, ecSub (l * ecSub x1 x3) y1)

def ecAdd (p q : EcPoint) : EcPoint :=
  match p, q with
  | none, _ => q
  | _, none => p
  | some (x1, y1), some (x2, y2) =>
    if x1 = x2 then
      if (y1 + y2) % ecP = 0 then none
      else ecChord ((3 * x1 * x1 + ecP - 3) % ecP * invMod ecP (2 * y1) % ecP) x1 y1 x2
    else ecChord (ecSub y2 y1 * invMod ecP (ecSub x2 x1) % ecP) x1 y1 x2

def ecMul (k : Nat) (p : EcPoint) : EcPoint :=
  (bitsOf 384 k).reverse.foldl (fun a x => if x then ecAdd (ecAdd a a) p else ecAdd a a) none

/-- The key is a valid point (R410). -/
def ecValid (x y : Nat) : Bool :=
  x < ecP && y < ecP && y * y % ecP == (x * x % ecP * x + (ecP - 3) * x + ecB) % ecP

/-- FIPS 186-5 verification of (r, s) over the SHA-384 output `h` under the key (qx, qy). -/
def ecdsaVerify (h qx qy r s : Nat) : Bool :=
  ecValid qx qy && 0 < r && r < ecN && 0 < s && s < ecN &&
    (let w := invMod ecN s
     match ecAdd (ecMul (h * w % ecN) (some (ecGx, ecGy))) (ecMul (r * w % ecN) (some (qx, qy))) with
     | none => false
     | some (x, _) => x % ecN == r)

/-- FIPS 186-5 signature of the SHA-384 output `h` under the private key `d` with the per-message number `k`. -/
def ecdsaSign (h d k : Nat) : Nat × Nat :=
  match ecMul k (some (ecGx, ecGy)) with
  | none => (0, 0)
  | some (x, _) => (x % ecN, invMod ecN k * ((h + x % ecN * d) % ecN) % ecN)

/-- The public key of a private key. -/
def ecPublic (d : Nat) : Nat × Nat := (ecMul d (some (ecGx, ecGy))).getD (0, 0)

end Sys2Proof.Machine
end

