-- ==== Sys2Proof/Machine/Banen.lean ====
section
/-! DEFINITION. Banen ports and their frames, link seals, launch, replica comparison and attestation (R83, R293 to R316, R328 to
R331). -/

namespace Sys2Proof.Machine

/-! ### Ports (R298 to R301) -/

def banPorts : Nat := 4

def dieId (s : State) : W16 := (s.image.map (·.geom.dieId)).getD 0

/-- The up port whose peer is a die. -/
def portTo (s : State) (die : W16) : Option Nat := (List.range banPorts).find? fun q => (getPort s q).up && (getPort s q).peerDie == die

/-- R303: the port to a die that was up at a tick: it is up and had trained by then, or it went down later. -/
def portAt (s : State) (die : W16) (t : W64) : Option Nat := (List.range banPorts).find? fun q =>
  let p := getPort s q
  (p.up && p.peerDie == die && decide (p.trained.toNat ≤ t.toNat))
    || p.past.any fun x => x.1 == die && decide (x.2.1.toNat ≤ t.toNat) && decide (t.toNat < x.2.2.toNat)

/-- The port whose peer is, or last was, a die. -/
def portOf (s : State) (die : W16) : Option Nat :=
  match portTo s die with
  | some q => some q
  | none => (List.range banPorts).find? fun q => (getPort s q).peerDie == die && (getPort s q).trained != 0

/-- Bytes of a frame with `n` 8-byte payload units (R299). -/
def frameBytes (n : Nat) : Nat := 24 + 8 * n

def countSent (s : State) (q n : Nat) : State := addBig (addBig s (0x02A0 + q) 0 (frameBytes n)) (0x02A0 + q) 2 1
def countRecv (s : State) (q n : Nat) : State := addBig (addBig s (0x02A0 + q) 1 (frameBytes n)) (0x02A0 + q) 3 1

/-- R299: the bytes of a frame that a port sends: header, payload, FCRC, zero. -/
def banFrame (s : State) (q : Nat) (ftype : Byte) (seq : W16) (body : List W64) : List Byte :=
  let p := getPort s q
  let bs := [ftype, BitVec.ofNat 8 body.length] ++ leBytes 2 seq.toNat ++ leBytes 2 p.recvSeq.toNat ++ leBytes 2 (dieId s).toNat ++
    leBytes 2 p.peerDie.toNat ++ [if p.zka2 then 1 else 2] ++ List.replicate 5 0 ++ body.flatMap le64
  bs ++ leBytes 4 (crc32c bs).toNat ++ List.replicate 4 0

/-- A frame goes out on a port. -/
def putFrame (s : State) (q : Nat) (ftype : Byte) (seq : W16) (body : List W64) : State :=
  countSent (updPort s q fun p => { p with lastTx := banFrame s q ftype seq body }) q body.length

/-- R300: a frame goes out with the next SEQ and is kept until it is acknowledged. -/
def transmit (s : State) (q : Nat) (x : Byte × List W64) : State :=
  let seq := (getPort s q).sendSeq
  putFrame (updPort s q fun p => { p with replay := p.replay ++ [⟨x.1, seq, x.2, 0⟩], sendSeq := seq + 1 }) q x.1 seq x.2

/-- R300: the frames that the replay buffer holds; a frame that finds it full waits. -/
def replayDepth : Nat := 128

/-- R300: a frame is sent on a port that is up. -/
def sendBan (s : State) (q : Nat) (ftype : Byte) (body : List W64) : State :=
  let p := getPort s q
  if !p.up then s
  else if p.replay.length < replayDepth ∧ p.queue.isEmpty then transmit s q (ftype, body)
  else updPort s q fun p => { p with queue := p.queue ++ [(ftype, body)] }

/-- The frames that wait go out as far as there is room. -/
def pump (s : State) (q : Nat) : State :=
  let p := getPort s q
  let n := replayDepth - p.replay.length
  (p.queue.take n).foldl (fun s x => transmit s q x) (updPort s q fun p => { p with queue := p.queue.drop n })

/-- R300: ACKSEQ acknowledges every frame before it. -/
def ackUpTo (seq : W16) (p : Port) : Port := { p with replay := p.replay.filter fun f => !earlierThan f.seq seq }
def acked (s : State) (q : Nat) (seq : W16) : State := pump (updPort s q (ackUpTo seq)) q

def setTsync (s : State) (q : Nat) (on : Bool) : State := { s with time := { s.time with tsync := setFld s.time.tsync q 1 (b2n on) } }
def setTrefDiff (s : State) (q : Nat) (on : Bool) : State := { s with time := { s.time with trefDiff := setFld s.time.trefDiff q 1 (b2n on) } }

/-- The causes of a BANDOWN record (log 9): 16 resends (R300), DUPDIE (R298), VERLOW (R420), loss of lock. -/
def bdResend : Nat := 1
def bdDupdie : Nat := 2
def bdVerlow : Nat := 3

/-- R300: a port goes down, and waits to train again. -/
def portDown (s : State) (q cause : Nat) : State :=
  let s1 := updPort s q fun p => { p with
    past := if p.up then p.past ++ [(p.peerDie, p.trained, s.time.tick)] else p.past
    up := false, ver := 0, keyed := false, downev := true, replay := [], queue := [], exch := [], waiting := true }
  let s2 := { s1 with
    seals := s1.seals.map fun e => if e.port = q then { e with down := true } else e
    launch := { s1.launch with props := s1.launch.props.filter fun x => x.1 != q } }
  let s3 := addRec s2 ⟨.bandown, s.time.tick, 0xFFFF, 0, packW [(0, 0xFFFF)], [BitVec.ofNat 32 q, BitVec.ofNat 32 cause]⟩
  alert (setTsync s3 q false) alBanen

/-- R300: frames from a SEQ on are sent again; one resent 16 times takes the port down. -/
def resendFrom (s : State) (q : Nat) (seq : W16) : State :=
  let again := fun f : SentFrame => !earlierThan f.seq seq
  let n := ((getPort s q).replay.filter again).length
  let s1 := updPort s q fun p => { p with
    resend := satAdd p.resend n
    replay := p.replay.map fun f => if again f then { f with resends := f.resends + 1 } else f }
  let s2 := ((getPort s q).replay.filter again).foldl (fun s f => putFrame s q f.ftype f.seq f.body) s1
  if (getPort s2 q).replay.any fun f => decide (f.resends ≥ 16) then portDown s2 q bdResend else s2

/-- R300: a frame is dropped and counted, and answered with one NAK per run of errors. -/
def badFrame (s : State) (q : Nat) : State :=
  if !(getPort s q).up then s
  else
    let p := getPort s q
    let s1 := updPort s q fun p => { p with badfrm := satInc p.badfrm, naked := true }
    if p.naked then s1
    else putFrame (updPort s1 q fun p => { p with naktx := satInc p.naktx }) q 0x03 p.sendSeq [BitVec.ofNat 64 p.recvSeq.toNat]

/-- R300: a frame is taken in SEQ order; its ACKSEQ acknowledges. A port that is down takes none. -/
def takeFrame (s : State) (h : BanHdr) (n : Nat) (f : State → State) : State :=
  if !(getPort s h.port).up then s
  else
    let s0 := countRecv s h.port n
    if h.seq ≠ (getPort s0 h.port).recvSeq then badFrame s0 h.port
    else f (acked (updPort s0 h.port fun p => { p with recvSeq := p.recvSeq + 1, naked := false }) h.port h.ackseq)

/-- ACK and NAK frames carry no new SEQ: they acknowledge (log 21). -/
def execAck (h : BanHdr) (s : State) : Host.Outcome State Fault Refusal :=
  .next (if (getPort s h.port).up then acked (countRecv s h.port 0) h.port h.ackseq else s)

def execNak (h : BanHdr) (expected : W16) (s : State) : Host.Outcome State Fault Refusal :=
  .next (if (getPort s h.port).up then resendFrom (acked (countRecv s h.port 1) h.port expected) h.port expected else s)

/-- R300: 20 µs without an ACK. -/
def execRetransmitTimeout (port : Nat) (s : State) : Host.Outcome State Fault Refusal :=
  .next (match (getPort s port).replay.head? with
    | some f => if (getPort s port).up then resendFrom s port f.seq else s
    | none => s)

/-- R300: an ACK frame goes out. -/
def execAckIdle (port : Nat) (s : State) : Host.Outcome State Fault Refusal :=
  .next (if (getPort s port).up then putFrame s port 0x02 (getPort s port).sendSeq [] else s)

def execBanenBadFrame (port : Nat) (s : State) : Host.Outcome State Fault Refusal := .next (badFrame s port)

/-! ### HELLO (R298, R283) -/

/-- R283: K_L from the two nonces, the lower DIE_ID's first. -/
def linkKey (own peer : W16) (nOwn nPeer : W64) : Nat :=
  let bs := if own.toNat < peer.toNat then le64 nOwn ++ le64 nPeer else le64 nPeer ++ le64 nOwn
  sdKey (ofLe ((sha384 bs).take 8))

/-- R298: a ZKA-3 Keep supports all three versions; bit i of the map is version i + 1. -/
def ownVersions : Nat := 0b111

/-- R298: the highest version in both maps. -/
def agreedVer (b : HelloBody) : Nat := ([3, 2, 1].find? fun v => ownVersions.testBit (v - 1) && bitOf b.versions (v - 1)).getD 0

/-- R298: a port that has qualified sends its HELLO, with a fresh nonce. The order of its items is the model's (log 9). -/
def sendHello (s : State) (q : Nat) : State :=
  let n := draw s
  let s1 := updPort n.2 q fun p => { p with nonce := n.1 }
  putFrame s1 q 0x01 0 [BitVec.ofNat 64 (ownVersions + 2 ^ 8 * Config.arch.toNat + 2 ^ 16 * Config.release.toNat +
    2 ^ 24 * (dieId s).toNat), s.fuses.uid, n.1]

def minVer (s : State) (q : Nat) : Nat := ((s.image.map (·.bringup.banMin)).getD []).getD q 1
def maxVer (s : State) (q : Nat) : Nat := ((s.image.map (·.bringup.banMax)).getD []).getD q 3

/-- R328: the Keep with the lower DIE_ID measures: it asks. -/
def askTime (s : State) (q : Nat) : State :=
  if (dieId s).toNat < (getPort s q).peerDie.toNat then sendBan s q 0x10 [s.time.tick] else s

/-- R328: the measurement of a port begins anew. -/
def measurePort (s : State) (q : Nat) : State :=
  askTime (setTsync (updPort s q fun p => { p with exch := [], checking := false, measured := false }) q false) q

/-- R298, R328, R420: the ends have exchanged HELLO. A lower agreed version qualifies again; one below BAN_MINVER, or a DIE_ID already
known, takes the port down. Where both maps hold a higher version than the port could qualify at, it runs at the one it qualified at (DESIGN
CHOICE, log 95). -/
def linkUp (s : State) (q : Nat) (b : HelloBody) : State :=
  let p := getPort s q
  let v := agreedVer b
  let dup := b.dieId == dieId s || (List.range banPorts).any fun x => x != q && (getPort s x).up && (getPort s x).peerDie == b.dieId
  if dup then portDown s q bdDupdie
  else if v < minVer s q ∨ v = 0 then portDown s q bdVerlow
  else if v < p.qver then updPort s q fun p => { p with qver := v, cand := v, waiting := true, quals := 0 }
  else
    let s1 := updPort s q fun p => { p with
      up := true, ver := p.qver, zka2 := decide (b.arch.toNat < 3), peerRev := BitVec.ofNat 4 b.arch.toNat, peerRel := b.release, peerDie := b.dieId,
      keyed := true,
      sendSeq := 0, recvSeq := 0, replay := [], queue := [], naked := false, key := linkKey (dieId s) b.dieId p.nonce b.nonce,
      exch := [], checking := false, driftSign := 0, trained := s.time.tick, waiting := false }
    measurePort (setTrefDiff s1 q false) q

/-- R298: a HELLO on a port that has qualified and is not up. -/
def execHello (h : BanHdr) (b : HelloBody) (s : State) : Host.Outcome State Fault Refusal :=
  .next (let p := getPort s h.port
    if p.up ∨ p.qver = 0 then s else linkUp (countRecv s h.port 3) h.port b)

/-! ### TIME (R328, R330) -/

/-- R328: the offset, from pairs of delay and twice the offset: of the `k` smallest delays the lower median, ties toward zero. -/
def offsetOf (k : Nat) (ex : List (Int × Int)) : W64 :=
  let best := (ex.insertionSort fun a b => a.1 ≤ b.1).take k
  let offs := (best.map (·.2)).insertionSort (· ≤ ·)
  BitVec.ofInt 64 (Int.tdiv (offs.getD ((k - 1) / 2) 0) 2)

/-- R330: an offset found by a check replaces one that differs by more than 4; two of one sign set TREF_DIFF. -/
def checkOffset (s : State) (q : Nat) (o : W64) : State :=
  let p := getPort s q
  let d := (o - p.ofs).toInt
  let sg : Int := if d < 0 then -1 else 1
  if d.natAbs ≤ 4 then updPort s q fun p => { p with driftSign := 0 }
  else
    let s1 := updPort s q fun p => { p with ofs := o, driftSign := sg }
    let s2 := { s1 with
      time := { s1.time with ofsdrift := true }
      belfry := { s1.belfry with ofsdriftCnt := satInc s1.belfry.ofsdriftCnt } }
    let s3 := alert s2 alTime
    if p.driftSign = sg then setTsync (setTrefDiff s3 q true) q false else s3

/-- R328, R330, R331: a measured offset is stored, and TSYNC holds unless the block is in holdover; a later one is a check. -/
def storeOffset (s : State) (q : Nat) (o : W64) : State :=
  if (getPort s q).measured then checkOffset s q o
  else
    let s1 := updPort s q fun p => { p with ofs := o, driftSign := 0, measured := true }
    if s.time.holdover ∨ bitOf s.time.trefDiff q then s1 else setTsync s1 q true

/-- R328: one exchange is complete; after the last, the result goes to the peer. -/
def exchangeIn (s : State) (q : Nat) (t1 t2 t3 t4 : W64) : State :=
  let d : Int := (t4 - t1).toInt - (t3 - t2).toInt
  let o : Int := (t2 - t1).toInt + (t3 - t4).toInt
  let s1 := updPort s q fun p => { p with exch := p.exch ++ [(d, o)] }
  let p := getPort s1 q
  if p.exch.length < (if p.checking then 16 else 64) then askTime s1 q
  else
    let r := offsetOf (if p.checking then 4 else 16) p.exch
    let s2 := sendBan (updPort s1 q fun p => { p with exch := [], checking := false }) q 0x10 [r]
    storeOffset s2 q r

def execTime (h : BanHdr) (b : TimeBody) (s : State) : Host.Outcome State Fault Refusal :=
  .next (takeFrame s h 4 fun s => match b with
    | .ask t1 t2 => sendBan s h.port 0x10 [t1, t2, s.time.tick]
    | .answer t1 t2 t3 t4 => exchangeIn s h.port t1 t2 t3 t4
    | .result o => storeOffset s h.port (-o))

/-- R330: the periodic check. -/
def execTimeCheck (port : Nat) (s : State) : Host.Outcome State Fault Refusal :=
  .next (if (getPort s port).up ∧ (getPort s port).measured then
    askTime (updPort s port fun p => { p with exch := [], checking := true }) port else s)

/-! ### Seals (R302 to R306) -/

def mColl (h : BitVec 512) : W32 := BitVec.ofNat 32 (fld h 0 32)
def mChunk (h : BitVec 512) : W32 := BitVec.ofNat 32 (fld h 32 32)
def mPart (h : BitVec 512) : Nat := fld h 64 4
def mEpoch (h : BitVec 512) : W16 := BitVec.ofNat 16 (fld h 68 16)
def mSrc (h : BitVec 512) : W16 := BitVec.ofNat 16 (fld h 84 16)
def mDst (h : BitVec 512) : W16 := BitVec.ofNat 16 (fld h 100 16)
def mReserved (h : BitVec 512) : Bool := fld h 116 396 != 0
def mKey (h : BitVec 512) : SealKey := ⟨mSrc h, mPart h, mEpoch h, mColl h, mChunk h⟩

/-- R302: the seal of a message. -/
def sealOf (k : Nat) (m : LtMsg) : W64 := sd64 k (leBytes 16 m.hdr.toNat ++ m.payload.flatMap fun b => leBytes 64 b.toNat)

/-- The outcome codes of R304. -/
def slMatch : Nat := 0
def slMismatch : Nat := 1
def slDrop : Nat := 2
def slNopeer : Nat := 3
def slNolocal : Nat := 4
def slDup : Nat := 5
def slRekey : Nat := 6
def slNoroute : Nat := 7
def slFull : Nat := 8
def slLinkdown : Nat := 9

/-- R304: the SEALV record; its items one to a word (log 9). -/
def sealvRec (s : State) (k : SealKey) (outcome tap : Nat) (first : W64) : Rec :=
  ⟨.sealv, s.time.tick, 0xFFFF, k.part, packW [(0, 0xFFFF), (16, k.part)],
    [BitVec.ofNat 32 k.src.toNat, k.coll, k.chunk, BitVec.ofNat 32 k.epoch.toNat, BitVec.ofNat 32 outcome, BitVec.ofNat 32 tap] ++ words64 first⟩

/-- R305: mismatches of one link tap within 1 s. -/
def linkSuspect (s : State) (tap : Nat) : State :=
  let recent := s.sealMis.filter fun m => m.1 == tap && decide (s.time.tick.toNat - m.2.toNat < 1000000000)
  let n := ((recov s).map (·.sealFlagN)).getD 4
  if recent.length + 1 ≥ n then
    let s1 := { s with sealMis := s.sealMis.filter fun m => m.1 != tap }
    alert (addRec s1 ⟨.linksuspect, s.time.tick, 0xFFFF, 0, packW [(0, 0xFFFF)], [BitVec.ofNat 32 tap]⟩) alBanen
  else { s with sealMis := (s.sealMis.filter fun m => m.1 != tap) ++ recent ++ [(tap, s.time.tick)] }

/-- R304, R305: an outcome takes its class: counted, an input, a record. MATCH is counted only. The die that decides writes the record: no frame
of R299 tells the other die of it (log 47). -/
def sealOutcome (s : State) (k : SealKey) (outcome tap : Nat) (first : W64) : State :=
  if outcome = slMatch then { s with sealMatch := s.sealMatch + 1 }
  else
    let s1 := logDigest s k.part (sealvRec s k outcome tap first)
    if outcome = slFull ∨ outcome = slNoroute then addDeficit s1 k.part 1
    else if outcome = slMismatch then
      linkSuspect (addInput s1 { mkInput s1 0x47 k.part 0xFFFF 0xFFFF outcome false 0 0 with ctick := first }) tap
    else partInput s1 0x63 k.part 0xFFFF outcome

/-- R304: the outcome of an entry, in table order; `wait` when SEAL_WAIT has passed. -/
def sealDecide (s : State) (e : SealEnt) (wait : Bool) : Option Nat :=
  let p := getPort s e.port
  let firsts := (match e.ingress with
      | some i => [i.2.2.2.2.toNat]
      | none => []) ++ (match e.frame with
      | some f => [(f.2.2.2 - p.ofs).toNat]
      | none => [])
  let drop := (e.ingress.map fun i => i.2.2.1).getD false || (e.frame.map fun f => f.2.2.1).getD false
  if !wait && (e.ingress.isNone || e.frame.isNone) then none
  else if firsts.any fun t => decide (t < p.trained.toNat) then some slRekey
  else if drop then some slDrop
  else if e.down || inSafe s uBan then some slLinkdown
  else match e.ingress, e.frame with
    | some i, some f => some (if i.1 = f.1 ∧ i.2.1 = f.2.1 then slMatch else slMismatch)
    | some _, none => some slNopeer
    | none, _ => some slNolocal

def dropSeal (s : State) (k : SealKey) : State := subUse { s with seals := s.seals.filter fun e => e.key != k } k.part 1

def tapOfEnt (e : SealEnt) : Nat := (e.ingress.map fun i => i.2.2.2.1).getD 0xFFFF
def firstOfEnt (e : SealEnt) : W64 := match e.ingress, e.frame with
  | some i, _ => i.2.2.2.2
  | none, some f => f.2.2.2
  | none, none => 0

/-- R381: the halves of an entry read as poison are decided at SEAL_WAIT. -/
def unreadSeal (s : State) (e : SealEnt) : State :=
  let s1 := match e.ingress with
    | some i => sealOutcome (dropSeal s e.key) e.key slNopeer i.2.2.2.1 i.2.2.2.2
    | none => dropSeal s e.key
  match e.frame with
  | some f => sealOutcome s1 e.key slNolocal 0xFFFF f.2.2.2
  | none => s1

/-- R304: an entry is decided if it can be. -/
def trySeal (s : State) (k : SealKey) (wait : Bool) : State :=
  match s.seals.find? fun e => e.key == k with
  | none => s
  | some e =>
    if e.unread then (if wait then unreadSeal s e else s)
    else match sealDecide s e wait with
    | none => s
    | some o => sealOutcome (dropSeal s k) k o (tapOfEnt e) (firstOfEnt e)

/-- R304: a half arrives: it opens an entry, joins the one that waits, or is a second half of its side, and then both messages take DUP. -/
def sealHalf (s : State) (k : SealKey) (port : Nat) (isIn : Bool) (mk : SealEnt → SealEnt) : State :=
  match s.seals.find? fun e => e.key == k with
  | some e =>
    if (if isIn then e.ingress.isSome else e.frame.isSome) then
      let x := mk ⟨k, none, none, s.time.tick, port, false, false⟩
      sealOutcome (sealOutcome (dropSeal s k) k slDup (tapOfEnt e) (firstOfEnt e)) k slDup (tapOfEnt x) (firstOfEnt x)
    else trySeal { s with seals := s.seals.map fun x => if x.key = k then mk x else x } k false
  | none =>
    let e := mk ⟨k, none, none, s.time.tick, port, false, false⟩
    if s.seals.length < 16384 ∧ quotaOk s k.part lvTbl then addUse { s with seals := s.seals ++ [e] } k.part 1
    else sealOutcome (refuseQuota s k.part) k slFull (tapOfEnt e) (firstOfEnt e)

/-- R91, R302: LTVIOL of a link tap; the header beat counts in the beat count (DESIGN CHOICE, log 85). -/
def ltViol (s : State) (m : LtMsg) (code : Byte) : State :=
  portViol s .ltviol (mPart m.hdr) m.tap 0xFFFF 0xFFFF code (mColl m.hdr) (mEpoch m.hdr) (m.payload.length + 1)

/-- R91: the first violation of a message in the table's order: LT_DROP, then reserved header bits. -/
def ltChecks (s : State) (m : LtMsg) : State := if m.drop then ltViol s m 0x01 else if mReserved m.hdr then ltViol s m 0x02 else s

def countLink (s : State) (m : LtMsg) (egress : Bool) : State :=
  addBig (addBig s (0x0260 + m.tap) (if egress then 0 else 1) (64 * (m.payload.length + 1))) (0x0260 + m.tap) (if egress then 2 else 3) 1

/-- R302, R303: an egress message. -/
def execLinkEgressMessage (m : LtMsg) (s : State) : Host.Outcome State Fault Refusal :=
  .next (let s1 := ltChecks (countLink s m true) m
    if mReserved m.hdr then s1
    else
      match portAt s1 (mDst m.hdr) m.firstTick with
      | none => sealOutcome s1 (mKey m.hdr) slNoroute m.tap m.firstTick
      | some q =>
        if inSafe s1 uBan then s1
        else
          let k := mKey m.hdr
          sendBan s1 q 0x20 [BitVec.ofNat 64 (k.part + 16 * k.epoch.toNat), BitVec.ofNat 64 (k.coll.toNat + 2 ^ 32 * k.chunk.toNat),
            BitVec.ofNat 64 (m.payload.length + 1 + 2 ^ 32 * b2n m.drop), sealOf (getPort s1 q).key m, m.firstTick])

/-- R302, R304: an ingress message. -/
def execLinkIngressMessage (m : LtMsg) (s : State) : Host.Outcome State Fault Refusal :=
  .next (let s1 := ltChecks (countLink s m false) m
    if mReserved m.hdr then s1
    else
      let q := (portOf s1 (mSrc m.hdr)).getD 0xFF
      let seal_ := sealOf (getPort s1 q).key m
      sealHalf s1 (mKey m.hdr) q true fun e => { e with
        ingress := some (seal_, BitVec.ofNat 32 (m.payload.length + 1), m.drop, m.tap, m.firstTick) })

/-- R304, R511: a SEAL frame; in the BAN safe state it is dropped and counted. -/
def execSealFrame (h : BanHdr) (b : SealBody) (s : State) : Host.Outcome State Fault Refusal :=
  .next (takeFrame s h 5 fun s =>
    if inSafe s uBan then updPort s h.port fun p => { p with badfrm := satInc p.badfrm }
    else sealHalf s b.key h.port false fun e => { e with frame := some (b.digest, b.beats, b.drop, b.tick) })

def execSealWait (k : SealKey) (s : State) : Host.Outcome State Fault Refusal := .next (trySeal s k true)

/-! ### Launch (R310 to R312) -/

def loPulsed : Nat := 1
def loSplit : Nat := 2
def loAborted : Nat := 3
def loFailed : Nat := 4

/-- R312: the LAUNCH record. -/
def launchRec (s : State) (outcome : Nat) : State :=
  logDigest s 0 ⟨.launch, s.time.tick, 0xFFFF, 0, packW [(0, 0xFFFF)],
    words64 s.launch.t ++ [s.launch.num, BitVec.ofNat 32 s.launch.attempt, BitVec.ofNat 32 outcome]⟩

def launchPeers (s : State) : List Nat := ((recov s).map (·.launchPeers)).getD []
def launchLead (s : State) : Nat := ((recov s).map (·.launchLead)).getD 200000

/-- R330: a proposal goes to no peer with TREF_DIFF; the one sent awaits its answer. -/
def propose (s : State) (q : Nat) (body : List W64) : State :=
  if bitOf s.time.trefDiff q then s
  else sendBan { s with launch := { s.launch with props := s.launch.props ++ [(q, s.launch.num, s.launch.attempt)] } } q 0x11 body

/-- Sends a launch frame to every peer. -/
def toPeers (s : State) (ftype : Byte) (body : List W64) : State :=
  (launchPeers s).foldl (fun s d =>
    match portTo s (BitVec.ofNat 16 d) with
    | some q => if ftype = 0x11 then propose s q body else sendBan s q ftype body
    | none => s) s

def launchBody (s : State) : List W64 := [s.launch.t, BitVec.ofNat 64 s.launch.num.toNat]

/-- R310 step 3: every peer has accepted. -/
def tryCommit (s : State) : State :=
  if (launchPeers s).all fun d => s.launch.acks.contains d then
    toPeers { s with launch := { s.launch with committed := true } } 0x14 (launchBody s)
  else s

/-- R310 step 1: the LAUNCH action on the coordinator. -/
def startLaunch (s : State) : State :=
  if !((recov s).map (·.launchCoord)).getD false ∨ s.launch.role ≠ 0 then s
  else
    let t := ((s.time.tick.toNat + launchLead s + 255) / 256) * 256
    let l : LaunchSt := { s.launch with
      role := 1, t := BitVec.ofNat 64 t, num := s.launch.nextNum, nextNum := s.launch.nextNum + 1, attempt := 1,
      acks := [], committed := false, naked := false }
    let s1 := { s with launch := l }
    tryCommit (toPeers s1 0x11 (launchBody s1))

/-- R310 step 3: the coordinator aborts, and tries again or gives up after three attempts. -/
def retryLaunch (s : State) : State :=
  let s1 := toPeers s 0x15 (launchBody s)
  if s.launch.attempt ≥ 3 then
    let s2 := launchRec (addRec s1 ⟨.launchFail, s.time.tick, 0xFFFF, 0, packW [(0, 0xFFFF)], [s.launch.num]⟩) loFailed
    { s2 with launch := { s2.launch with role := 0 } }
  else
    let s2 := { s1 with launch := { s1.launch with
      t := s1.launch.t + BitVec.ofNat 64 (launchLead s), attempt := s1.launch.attempt + 1, acks := [] } }
    tryCommit (toPeers s2 0x11 (launchBody s2))

/-- R310 step 2, R331: a peer answers a proposal; T is in the coordinator's ticks. A coordinator with a launch of its own refuses (log 46). -/
def execLaunchProp (h : BanHdr) (t : W64) (num : W32) (s : State) : Host.Outcome State Fault Refusal :=
  .next (takeFrame s h 2 fun s =>
    if s.launch.role = 1 then sendBan s h.port 0x13 [BitVec.ofNat 64 num.toNat] else
    let loc := t - (getPort s h.port).ofs
    let ok := decide (s.time.tick.toNat + 10000 ≤ loc.toNat) && !s.keep.dieFault && bitOf s.time.tsync h.port
    let again := s.launch.num == num && s.launch.port == h.port
    let l : LaunchSt := { s.launch with
      role := 2, t := loc, num := num, attempt := if again then s.launch.attempt + 1 else 1, acks := [],
      aborted := false, committed := false, naked := !ok, port := h.port }
    let s1 := if s.launch.role = 2 ∧ !again then launchRec s loAborted else s
    sendBan { s1 with launch := l } h.port (if ok then 0x12 else 0x13) [BitVec.ofNat 64 num.toNat])

/-- R310: a frame answers the oldest proposal that its port has not answered; whether that is the present attempt's. -/
def answers (s : State) (port : Nat) (num : W32) : Bool × State :=
  match s.launch.props.find? fun x => x.1 == port && x.2.1 == num with
  | none => (false, s)
  | some x =>
    (s.launch.role == 1 && s.launch.num == num && s.launch.attempt == x.2.2 && !s.launch.committed,
      { s with launch := { s.launch with props := s.launch.props.erase x } })

def execLaunchAck (h : BanHdr) (num : W32) (s : State) : Host.Outcome State Fault Refusal :=
  .next (takeFrame s h 1 fun s =>
    let a := answers s h.port num
    if a.1 ∧ s.time.tick.toNat + 20000 < s.launch.t.toNat then
      tryCommit { a.2 with launch := { a.2.launch with acks := a.2.launch.acks ++ [(getPort s h.port).peerDie.toNat] } }
    else a.2)

def execLaunchNak (h : BanHdr) (num : W32) (s : State) : Host.Outcome State Fault Refusal :=
  .next (takeFrame s h 1 fun s =>
    let a := answers s h.port num
    if a.1 then retryLaunch a.2 else a.2)

/-- A peer's launch that a frame concerns. -/
def concernsPeer (s : State) (h : BanHdr) (num : W32) : Bool := s.launch.role == 2 && s.launch.num == num && s.launch.port == h.port

def execLaunchCommit (h : BanHdr) (num : W32) (s : State) : Host.Outcome State Fault Refusal :=
  .next (takeFrame s h 1 fun s =>
    if concernsPeer s h num ∧ !s.launch.naked ∧ !s.launch.aborted then { s with launch := { s.launch with committed := true } } else s)

def execLaunchAbort (h : BanHdr) (num : W32) (s : State) : Host.Outcome State Fault Refusal :=
  .next (takeFrame s h 1 fun s =>
    if concernsPeer s h num then { s with launch := { s.launch with aborted := true, committed := false } } else s)

/-- R310 step 3: T − 20 µs passes without every ACK. -/
def execLaunchCommitDeadline (s : State) : Host.Outcome State Fault Refusal :=
  .next (if s.launch.role = 1 ∧ !s.launch.committed then retryLaunch s else s)

/-- R310 step 4, R311, R312: T arrives. A die in DIE_FAULT does not pulse. A peer whose last proposal was refused or aborted writes its one record
of the launch now (log 46). -/
def execLaunchTime (s : State) : Host.Outcome State Fault Refusal :=
  .next (if s.launch.role = 0 then s
    else
      let fin := fun s : State => { s with launch := { s.launch with role := 0 } }
      if s.launch.committed then
        if s.keep.dieFault then fin (launchRec s loFailed)
        else
          let s1 := fin (launchRec s loPulsed)
          { s1 with launch := { s1.launch with out := true }, pads := { s1.pads with launchOut := true } }
      else if s.launch.role = 2 then
        if s.launch.naked ∨ s.launch.aborted then fin (launchRec s loAborted) else fin (alert (launchRec s loSplit) alBanen)
      else s)

def execLaunchPulseEnd (s : State) : Host.Outcome State Fault Refusal :=
  .next { s with launch := { s.launch with out := false }, pads := { s.pads with launchOut := false } }

/-! ### Replica comparison (R293 to R296) -/

def replicas (s : State) : List (Nat × ReplicaCfg) := ((s.image.map (·.replicas)).getD []).zipIdx.map fun r => (r.2, r.1)

/-- The outcomes of R294, in table order (log 9). -/
def dcIncomplete : Nat := 0
def dcVaried : Nat := 1
def dcMatch : Nat := 2
def dcDiverge : Nat := 3
def dcNopeer : Nat := 4

/-- R294: the outcome of two records. -/
def dcmpOutcome (ordered : Bool) (a b : LdBody) : Nat :=
  let bad := fun x : LdBody => bitOf x.flags 0 || bitOf x.flags 2 || bitOf x.flags 3
  if bad a || bad b then dcIncomplete
  else if bitOf a.flags 1 || bitOf b.flags 1 then dcVaried
  else if (if ordered then a.ld == b.ld && a.dd == b.dd else a.lrs == b.lrs) && a.wd == b.wd && a.rows == b.rows then dcMatch
  else dcDiverge

def samePos (a b : LdBody) : Bool := a.era == b.era && a.step == b.step && a.layer == b.layer

/-- R294: the newest EPOCH's record of a position among a partition's closed keys. -/
def closedAt (s : State) (p : Nat) (era : W16) (step : W32) (layer : W16) : Option ClosedKey :=
  let cs := (getPart s p).closed.filter fun c => c.body.era == era && c.body.step == step && c.body.layer == layer
  cs.foldl (fun m c => match m with
    | none => some c
    | some x => some (if laterThan c.body.epoch x.body.epoch then c else x)) none

/-- R294: the DCMP record. -/
def dcmpRec (s : State) (p entry : Nat) (era : W16) (step : W32) (layer : W16) (own peer : W64) (outcome : Nat) : State :=
  logDigest s p ⟨.dcmp, s.time.tick, 0xFFFF, p, packW [(0, 0xFFFF), (16, p)],
    [halves era.toNat layer.toNat, step, BitVec.ofNat 32 entry] ++ words64 own ++ words64 peer ++ [BitVec.ofNat 32 outcome]⟩

def updClosed (s : State) (p : Nat) (b : LdBody) (f : ClosedKey → ClosedKey) : State :=
  updPart s p fun q => { q with closed := q.closed.map fun c => if samePos c.body b && c.body.epoch == b.epoch then f c else c }

/-- R295: the tile digest list of a key is dropped. -/
def dropTds (s : State) (p : Nat) (c : ClosedKey) : State :=
  updClosed (subUse s p (linesOf (10 * c.tds.length))) p c.body fun c => { c with tds := [] }

/-- R295: the replica entries whose comparisons a key of a partition awaits. -/
def entriesOf (s : State) (p : Nat) : List Nat :=
  ((replicas s).filter fun e => e.2.part == p || (e.2.peerDie == dieId s && e.2.peerPart == p)).map (·.1)

/-- R295: the list is dropped once the key has been compared and no exchange is under way. -/
def releaseTds (s : State) (p : Nat) (b : LdBody) : State :=
  match (getPart s p).closed.find? fun c => samePos c.body b && c.body.epoch == b.epoch with
  | none => s
  | some c => if c.diverge.isEmpty ∧ (entriesOf s p).all c.compared.contains then dropTds s p c else s

/-- R295, R296: the lowest Spire whose digest differs, or whose presence does. -/
def firstDiff (a b : List (W16 × W64)) : Option Nat :=
  let f := fun (l : List (W16 × W64)) (x : W16) => (l.find? fun e => e.1 == x).map (·.2)
  let all := (a ++ b).map (·.1)
  let bad := (all.filter fun x => f a x != f b x).map (·.toNat)
  match bad with
  | [] => none
  | x :: xs => some (xs.foldl min x)

/-- R296: the DIVERGE input concerns the named tile, or the partition. -/
def divergeInput (s : State) (p : Nat) (layer : W16) (sp : Option Nat) : State :=
  addInput s (mkInput s 0x46 p (sp.getD 0xFFFF) layer dcDiverge false 0 0)

/-- The list is of a position of the peer of an entry. -/
def PeerTds.isOf (l : PeerTds) (e : ReplicaCfg) (b : LdBody) : Bool :=
  l.die == e.peerDie && l.part == e.peerPart && l.era == b.era && l.step == b.step && l.layer == b.layer

/-- R295, R296: a DIVERGE of an entry ends, with the tile it names if it names one; when no other entry awaits the key's lists, those of the
peers go. -/
def divergeEnds (s : State) (p entry : Nat) (c : ClosedKey) (sp : Option Nat) : State :=
  let s1 := updClosed s p c.body fun c => { c with diverge := c.diverge.filter fun e => e != entry }
  let more := c.diverge.any fun e => e != entry
  let gone := fun l : PeerTds => !more && (replicas s).any fun e => e.2.part == p && l.isOf e.2 c.body
  divergeInput (releaseTds { s1 with peerTds := s1.peerTds.filter fun l => !gone l } p c.body) p c.body.layer sp

/-- R295: the peer's list of the key that its record is of is there whole, and the tile is named. -/
def nameTile (s : State) (e : Nat × ReplicaCfg) (b : LdBody) : State :=
  let key := s.peerRecs.find? fun r => r.die == e.2.peerDie && r.body.part == e.2.peerPart && samePos r.body b
  match closedAt s e.2.part b.era b.step b.layer, s.peerTds.find? fun l => l.isOf e.2 b && key.any fun r => r.body.epoch == l.epoch with
  | some c, some l => if c.diverge.contains e.1 ∧ l.tds.length ≥ c.body.spires then divergeEnds s e.2.part e.1 c (firstDiff c.tds l.tds) else s
  | _, _ => s

/-- R295, R299: a list in TDLIST frames of at most 30 units: the key in two units, and up to 14 digests of two. -/
def tdFrames (p : Nat) (b : LdBody) (tds : List (W16 × W64)) : List (List W64) :=
  (List.range ((tds.length + 13) / 14)).map fun i =>
    [BitVec.ofNat 64 (p + 2 ^ 16 * b.era.toNat + 2 ^ 32 * b.step.toNat), BitVec.ofNat 64 (b.layer.toNat + 2 ^ 16 * b.epoch.toNat)] ++
      ((tds.drop (14 * i)).take 14).flatMap fun t => [BitVec.ofNat 64 t.1.toNat, t.2]

/-- R295: one comparison that found DIVERGE: the lists are exchanged where they can be. -/
def diverged (s : State) (e : Nat × ReplicaCfg) (c : ClosedKey) (peer : LdBody) : State :=
  let p := e.2.part
  if !e.2.ordered ∨ c.tds.isEmpty ∨ c.body.spires ≠ peer.spires then divergeEnds s p e.1 c none
  else if e.2.peerDie = dieId s then
    let other := ((closedAt s e.2.peerPart c.body.era c.body.step c.body.layer).map (·.tds)).getD []
    divergeEnds s p e.1 c (if other.isEmpty then none else firstDiff c.tds other)
  else match portTo s e.2.peerDie with
    | some q =>
      let s1 := (tdFrames p c.body c.tds).foldl (fun s body => sendBan s q 0x31 body) s
      nameTile (updClosed s1 p c.body fun c => { c with diverge := c.diverge ++ [e.1] }) e c.body
    | none => divergeEnds s p e.1 c none

/-- R294: an own record meets the record of its position on the other side; `mark` notes the comparison there. -/
def compareOne (s : State) (e : Nat × ReplicaCfg) (c : ClosedKey) (b : LdBody) (mark : State → State) : State :=
  let p := e.2.part
  let out := dcmpOutcome e.2.ordered c.body b
  let s1 := mark (updClosed s p c.body fun c => { c with compared := c.compared ++ [e.1] })
  let s2 := dcmpRec s1 p e.1 b.era b.step b.layer c.body.tick b.tick out
  if out = dcDiverge then diverged s2 e c b
  else
    let s3 := releaseTds s2 p c.body
    if out = dcIncomplete then partInput s3 0x64 p b.layer out else s3

/-- R294: a peer's record of another die: of a position the newest EPOCH's is kept. -/
def keepPeerRec (s : State) (die : W16) (b : LdBody) : State :=
  let same := fun r : PeerRec => r.die == die && r.body.part == b.part && samePos r.body b
  if s.peerRecs.any fun r => same r && laterThan r.body.epoch b.epoch then s
  else { s with peerRecs := (s.peerRecs.filter fun r => !same r) ++ [⟨die, b, []⟩] }

/-- R294: an entry whose peer is another die: the peer's records that the entry has not met, or whose own record is newer. -/
def comparePeer (e : Nat × ReplicaCfg) (s : State) (r : PeerRec) : State :=
  if r.die ≠ e.2.peerDie ∨ r.body.part ≠ e.2.peerPart then s
  else match closedAt s e.2.part r.body.era r.body.step r.body.layer with
    | none => s
    | some c =>
      if c.compared.contains e.1 ∧ r.compared.contains e.1 then s
      else compareOne s e c r.body fun s => { s with
        peerRecs := s.peerRecs.map fun x => if x.die == r.die && x.body == r.body then { x with compared := x.compared ++ [e.1] } else x }

/-- R293, R294: an entry whose peer is the die itself: what the local comparator was given meets the peer partition's record. -/
def compareOwn (e : Nat × ReplicaCfg) (s : State) (c : ClosedKey) : State :=
  let b := c.body
  if !c.exported.contains e.1 ∨ (closedAt s e.2.part b.era b.step b.layer).map (·.body) ≠ some b then s
  else match closedAt s e.2.peerPart b.era b.step b.layer with
    | none => s
    | some d =>
      if c.compared.contains e.1 ∧ d.compared.contains e.1 then s
      else
        let s1 := compareOne s e c d.body fun s => updClosed s e.2.peerPart d.body fun d => { d with compared := d.compared ++ [e.1] }
        releaseTds s1 e.2.peerPart d.body

/-- R294: the records that are present on both sides are compared. -/
def compareTick (s : State) : State :=
  (replicas s).foldl (fun s e =>
    if e.2.peerDie = dieId s then (getPart s e.2.part).closed.foldl (compareOwn e) s else s.peerRecs.foldl (comparePeer e) s) s

/-- The LD record as the payload of a DIGEST frame. -/
def ldPayload (b : LdBody) : List W64 :=
  let ws := (ldRec b).words
  (List.range ((ws.length + 1) / 2)).map fun i => BitVec.ofNat 64 ((ws.getD (2 * i) 0).toNat + 2 ^ 32 * (ws.getD (2 * i + 1) 0).toNat)

/-- R293, R294: one closed record goes to the peer, or to the local comparator; a ZKA-2 peer gives NOPEER. -/
def exportOne (p : Nat) (e : Nat × ReplicaCfg) (s : State) (c : ClosedKey) : State :=
  let mark := fun s => updClosed s p c.body fun c => { c with exported := c.exported ++ [e.1] }
  if e.2.peerDie = dieId s then mark s
  else match portTo s e.2.peerDie with
    | none => s
    | some q =>
      if (getPort s q).zka2 then
        let s1 := updClosed (mark s) p c.body fun c => { c with compared := c.compared ++ [e.1] }
        partInput (dcmpRec (releaseTds s1 p c.body) p e.1 c.body.era c.body.step c.body.layer c.body.tick 0 dcNopeer) 0x64 p c.body.layer dcNopeer
      else if inSafe s uBan then s
      else mark (sendBan s q 0x30 (ldPayload c.body))

/-- R293: the DIGEST_EXPORT action of a replica entry. -/
def digestExport (s : State) (p entry : Nat) : State :=
  match (replicas s).find? fun e => e.1 == entry && e.2.part == p with
  | none => s
  | some e => compareTick (((getPart s p).closed.filter fun c => !c.exported.contains entry).foldl (exportOne p e) s)

/-- R294, R511: a DIGEST frame. -/
def execDigest (h : BanHdr) (b : LdBody) (s : State) : Host.Outcome State Fault Refusal :=
  .next (takeFrame s h 12 fun s =>
    if inSafe s uBan then updPort s h.port fun p => { p with badfrm := satInc p.badfrm }
    else compareTick (keepPeerRec s h.src b))

/-- R295: a TDLIST frame joins what has come of the list of its key; of a position the list of the newest EPOCH is kept. `age` is the EPOCH and
the ERA of the key. -/
def keepPeerTds (s : State) (die : W16) (part : Nat) (age : W16 × W16) (step : W32) (layer : W16) (tds : List (W16 × W64)) : State :=
  let mine := fun l : PeerTds => l.die == die && l.part == part && l.era == age.2 && l.step == step && l.layer == layer
  let old := ((s.peerTds.find? fun l => mine l && l.epoch == age.1).map (·.tds)).getD []
  let new := tds.filter fun t => !old.any fun o => o.1 == t.1
  if s.peerTds.any fun l => mine l && laterThan l.epoch age.1 then s
  else { s with peerTds := (s.peerTds.filter fun l => !mine l) ++ [⟨die, part, age.1, age.2, step, layer, old ++ new⟩] }

/-- R295, R296: a peer's tile digest list names the tile of a DIVERGE; one that comes before the own comparison waits for it. -/
def execTdlist (h : BanHdr) (part : Nat) (age : W16 × W16) (step : W32) (layer : W16) (tds : List (W16 × W64)) (s : State) :
    Host.Outcome State Fault Refusal :=
  .next (takeFrame s h (2 + 2 * tds.length) fun s =>
    (replicas s).foldl (fun s e =>
      if e.2.peerDie ≠ h.src ∨ e.2.peerPart ≠ part then s
      else match closedAt s e.2.part age.2 step layer with
        | some c => nameTile s e c.body
        | none => s) (keepPeerTds s h.src part age step layer tds))

/-- The record of a position on the other side of an entry. -/
def otherSide (s : State) (e : Nat × ReplicaCfg) (era : W16) (step : W32) (layer : W16) : Option LdBody :=
  if e.2.peerDie = dieId s then (closedAt s e.2.peerPart era step layer).map (·.body)
  else (s.peerRecs.find? fun r => r.die == e.2.peerDie && r.body.part == e.2.peerPart && r.body.era == era && r.body.step == step
    && r.body.layer == layer && !r.compared.contains e.1).map (·.body)

/-- R294: DCMP_WAIT passes for a position of a partition: what has no partner is NOPEER; a DIVERGE whose list did not come concerns
the partition. -/
def dcmpExpire (s : State) (p : Nat) (era : W16) (step : W32) (layer : W16) (e : Nat × ReplicaCfg) : State :=
  if e.2.part ≠ p then s
  else
    let nopeer := fun (own peer : W64) (s : State) => partInput (dcmpRec s p e.1 era step layer own peer dcNopeer) 0x64 p layer dcNopeer
    match closedAt s p era step layer with
    | some c =>
      if c.diverge.contains e.1 then divergeEnds s p e.1 c none
      else if c.compared.contains e.1 then s
      else nopeer c.body.tick 0 (updClosed s p c.body fun c => { c with compared := c.compared ++ [e.1] })
    | none =>
      match otherSide s e era step layer with
      | some b => nopeer 0 b.tick s
      | none => s

/-- R294, R295: DCMP_WAIT is over for a position: lists and the peers' records of it are kept no more. -/
def execDcmpWait (p : Nat) (era : W16) (step : W32) (layer : W16) (s : State) : Host.Outcome State Fault Refusal :=
  let es := (replicas s).filter fun e => e.2.part == p
  let s1 := es.foldl (fun s e => dcmpExpire s p era step layer e) s
  let here := fun c : ClosedKey => c.body.era == era && c.body.step == step && c.body.layer == layer
  let s2 := ((getPart s1 p).closed.filter here).foldl (fun s c => dropTds s p c) s1
  .next { s2 with
    peerRecs := s2.peerRecs.filter fun r =>
      !(r.body.era == era && r.body.step == step && r.body.layer == layer && es.any fun e => e.2.peerDie == r.die && e.2.peerPart == r.body.part)
    peerTds := s2.peerTds.filter fun l =>
      !(l.era == era && l.step == step && l.layer == layer && es.any fun e => e.2.peerDie == l.die && e.2.peerPart == l.part) }

/-! ### Attestation (R313 to R316) -/

/-- R314: the statement of a step: the header, then its LD records in ascending LAYER. -/
def statement (s : State) (p : Nat) (epoch era : W16) (step : W32) (ks : List ClosedKey) : List Byte :=
  let ld := (ks.insertionSort fun a b => a.body.layer.toNat ≤ b.body.layer.toNat).map (·.body)
  le64 s.fuses.uid ++ leBytes 2 (dieId s).toNat ++ [BitVec.ofNat 8 p, 0] ++ leBytes 2 epoch.toNat ++ leBytes 2 era.toNat ++
    leBytes 4 step.toNat ++ leBytes 4 ld.length ++ s.imageHash ++ ld.flatMap fun b => (ldRec b).words.flatMap fun w => leBytes 4 w.toNat

/-- R316: the ATT record. -/
def attRec (s : State) (j : AttJob) (hash : List Byte) (sig : Option (Nat × Nat)) : Rec :=
  let w := fun x : Nat => words384 (beBytes 48 x)
  ⟨.att, s.time.tick, 0xFFFF, j.part, packW [(0, j.part), (4, b2n sig.isNone)],
    [halves j.era.toNat j.epoch.toNat, j.step] ++ words64 s.fuses.uid ++ words384 hash ++ w (sig.getD (0, 0)).1 ++ w (sig.getD (0, 0)).2⟩

/-- R314: the position has passed the step of a key, or the epoch the key's. -/
def stepPast (q : Part) (b : LdBody) : Bool :=
  decide (b.era.toNat * 2 ^ 32 + b.step.toNat < q.pos.era.toNat * 2 ^ 32 + q.pos.step.toNat) || laterThan q.epoch b.epoch

/-- R313, R314: the keys of complete steps that are to be attested: every key of the step has closed. -/
def dueKeys (s : State) (p : Nat) : List ClosedKey :=
  let q := getPart s p
  let every := ((partCfg s p).map (·.attEvery)).getD 0
  q.closed.filter fun c => !c.attested && stepPast q c.body && every != 0 && c.body.step.toNat % every == 0 &&
    !(q.keys.any fun k => k.epoch == c.body.epoch && k.era == c.body.era && k.step == c.body.step)

/-- R313: an unlicensed step is counted, once. -/
def countUnlic (s : State) (p : Nat) : State :=
  if (getPart s p).attCounted then s
  else updPart (updCnt s p fun n => { n with attUnlic := satInc n.attUnlic }) p fun q => { q with attCounted := true }

/-- R313, R314, R316: a complete step enters the queue, is written without signature, or is counted as unlicensed. The statement holds the keys
of the newest EPOCH. -/
def attOne (p : Nat) (s : State) (x : W16 × W32) : State :=
  let mine := (dueKeys s p).filter fun c => c.body.era == x.1 && c.body.step == x.2
  let s1 := updPart s p fun q => { q with closed := q.closed.map fun c => if mine.contains c then { c with attested := true } else c }
  if !licAttest s then countUnlic s1 p
  else
    let epoch := mine.foldl (fun m c => if laterThan c.body.epoch m then c.body.epoch else m) ((mine.head?.map (·.body.epoch)).getD 0)
    let j : AttJob := ⟨p, epoch, x.1, x.2, statement s p epoch x.1 x.2 (mine.filter fun c => c.body.epoch == epoch)⟩
    if s.attQ.length < 64 then { s1 with attQ := s1.attQ ++ [j] }
    else logDigest (updCnt s1 p fun n => { n with attNosig := satInc n.attNosig }) p (attRec s1 j (sha384 j.stmt) none)

/-- R314: the complete steps of a partition. -/
def attStep (s : State) (p : Nat) : State :=
  ((dueKeys s p).map fun c => (c.body.era, c.body.step)).eraseDups.foldl (attOne p) s

/-- R315, R316, R486: the first statement that waits for a partition is signed, with a fresh nonce. -/
def execAttestationSign (p : Nat) (s : State) : Host.Outcome State Fault Refusal :=
  .next (match s.attQ.find? fun j => j.part == p with
    | none => s
    | some j =>
      let hash := sha384 j.stmt
      let k := (List.range 6).foldl (fun a i => a * 2 ^ 64 + (Config.random (s.rng + i)).toNat) 0
      let sig := ecdsaSign (ofBe hash) s.fuses.idkey.toNat (1 + k % (ecN - 1))
      let s1 := { s with attQ := s.attQ.erase j, rng := s.rng + 6 }
      addMeter (logDigest s1 p (attRec s1 j hash (some sig))) p mAttest 1)

end Sys2Proof.Machine
end

