-- ==== Sys2Proof/Machine/Net.lean ====
section
/-! DEFINITION. The Caravan's traffic classes: the order in which a Spire's messages reach the Keep, the credits of its uplink and the grants
of its witness bytes (R365 to R367, R370, R372, R373). -/

namespace Sys2Proof.Machine

/-! ### Classes (R365, R367) -/

def clWadi : Nat := 0
def clVhi : Nat := 1
def clVlo : Nat := 2
def clCtrl : Nat := 3
def clWit : Nat := 4
def clRec : Nat := 5
def clBulk : Nat := 6

def msgSpire : Msg → Nat
  | .notice i _ _ _ _ _ => i
  | .fragment i _ _ _ _ => i
  | .result i _ _ _ _ _ => i
  | .abandon i _ _ _ _ => i
  | .summary i _ _ _ _ _ _ _ _ => i
  | .profile i _ _ _ _ _ => i
  | .digests i _ _ _ _ _ _ _ => i

/-- R365, R367: the class of a message; all records of an operation travel in one. The end of an abandoned sample travels with the
witness it replaces (log 90). -/
def msgClass : Msg → Nat
  | .notice _ _ _ _ _ _ | .digests _ _ _ _ _ _ _ _ => clVlo
  | .fragment _ _ _ _ _ | .result _ _ _ _ _ _ | .abandon _ _ _ _ _ => clWit
  | .summary _ _ _ scr _ susp _ _ _ => if scr.susp ≠ 0 ∨ susp then clVhi else clVlo
  | .profile _ _ vhi _ _ _ => if vhi then clVhi else clVlo

/-! ### Witness bytes (R172) -/

def fragBytes (s : State) (uid : Nat) (codes : List Nat) (scl : List Byte) : Nat :=
  (rowBytes (((getOp s uid).map fun o => dA o.dsc).getD .opq) codes scl).length

def resultBytes (s : State) (uid : Nat) (win : List Nat) (scl : List Byte) (digs : List (W32 × Byte)) : Nat :=
  (packBytes (fmtWidth (((getOp s uid).map fun o => dC o.dsc).getD .opq)) win).length + scl.length + 8 * digs.length

/-- The bytes of a message that grants are counted for: those of WIT. -/
def witBytes (s : State) : Msg → Nat
  | .fragment _ uid _ codes scl => fragBytes s uid codes scl
  | .result _ uid _ win scl digs => resultBytes s uid win scl digs
  | _ => 0

/-- The witness bytes of a Spire that have not arrived. -/
def witQueued (s : State) (sp : Nat) : Nat :=
  ((s.caravan.flight.filter fun m => msgSpire m == sp).map (witBytes s)).foldl (· + ·) 0

/-- R372: grants not used within 1,024 fabric ticks lapse. -/
def freshGrants (s : State) (l : List (Nat × W64)) : List (Nat × W64) :=
  l.filter fun g => decide (g.1 ≠ 0) && decide (s.time.tick.toNat - g.2.toNat ≤ 1024)

/-- Up to `n` bytes from a list of grants, oldest first: the bytes taken and what is left. -/
def takeGrants : Nat → List (Nat × W64) → Nat × List (Nat × W64)
  | _, [] => (0, [])
  | n, g :: l =>
    let k := min n g.1
    let r := takeGrants (n - k) l
    (k + r.1, (g.1 - k, g.2) :: r.2)

/-- R365: a Spire injects what its witness messages hold, against its grants. -/
def inject (s : State) (sp : Nat) : State :=
  updSp s sp fun p =>
    let r := takeGrants (witQueued s sp - p.witSent) (freshGrants s p.witGrants)
    { p with witSent := p.witSent + r.1, witGrants := freshGrants s r.2 }

/-- R460: the bytes that a Spire injects for a message; the manual lays out no notice, no end of a sample and no DIGOP (log 5). -/
def msgBytes (s : State) (m : Msg) : Nat :=
  match m with
  | .fragment _ _ _ _ _ | .result _ _ _ _ _ _ => witBytes s m
  | .summary _ _ recs _ _ _ _ _ _ => (recs.map recBytes).foldl (· + ·) 0
  | .profile _ _ _ r _ _ => recBytes r
  | .notice _ _ _ _ _ _ => Config.msgBytes 0
  | .abandon _ _ _ _ _ => Config.msgBytes 1
  | .digests _ _ _ _ _ _ _ _ => Config.msgBytes 2

/-! ### Credits (R366, R370) -/

/-- The credits of a class that a Spire's uplink holds (log 90). -/
def hopDepth (c : Nat) : Nat := if c = clWadi then 4 else Nat.succ (Config.hopCredits c)

/-- The messages of a Spire in a class that hold credits of its uplink. -/
def inFlight (s : State) (sp c : Nat) : Nat :=
  if c = clWadi then (s.caravan.done.filter fun m => m.spire == sp).length
  else (s.caravan.flight.filter fun m => msgSpire m == sp && msgClass m == c).length

/-- R270: notes since when an uplink holds no credit of a class. -/
def holdCredits (s : State) (sp c : Nat) : State :=
  let rest := s.caravan.held.filter fun h => !(h.1 == sp && h.2.1 == c)
  let old := s.caravan.held.find? fun h => h.1 == sp && h.2.1 == c
  { s with caravan := { s.caravan with
      held := if hopDepth c ≤ inFlight s sp c then rest ++ [old.getD (sp, c, s.time.tick)] else rest } }

/-! ### Sending and taking (R366) -/

/-- A Spire sends a message. -/
def send (s : State) (m : Msg) : State :=
  let s1 := { s with caravan := { s.caravan with flight := s.caravan.flight ++ [m] } }
  holdCredits (inject (uplink s1 (msgSpire m) (msgBytes s m)) (msgSpire m)) (msgSpire m) (msgClass m)

/-- R366: a message has reached the Keep when the Spire has sent nothing before it in its class or a higher one that has not, and, in WIT,
when grants have carried its bytes. None comes from a field that is cut off (R362). -/
def arrived (s : State) (m : Msg) : Bool :=
  !cutOff s (msgSpire m) && !((s.caravan.flight.takeWhile (· != m)).any fun x => msgSpire x == msgSpire m && decide (msgClass x ≤ msgClass m)) &&
    decide (witBytes s m ≤ ((getSp s (msgSpire m)).map (·.witSent)).getD 0)

/-- The message that a command takes, of those that meet its test: strict order by class, and the order of sending in a class. -/
def nextMsg (s : State) (f : Msg → Bool) : Option Msg :=
  (s.caravan.flight.filter fun m => f m && arrived s m).foldl (fun b m => match b with
    | none => some m
    | some x => if msgClass m < msgClass x then some m else some x) none

/-- A message leaves the Caravan, and gives its credit back. -/
def leave (s : State) (m : Msg) : State :=
  let s1 := updSp s (msgSpire m) fun p => { p with witSent := p.witSent - witBytes s m }
  holdCredits { s1 with caravan := { s1.caravan with flight := s1.caravan.flight.erase m } } (msgSpire m) (msgClass m)

/-! The messages that a command of a Spire takes. -/

def isNotice (sp : Nat) : Msg → Bool
  | .notice i _ _ _ _ _ => i == sp
  | _ => false
def isFragment (sp : Nat) : Msg → Bool
  | .fragment i _ _ _ _ | .abandon i _ _ _ _ => i == sp
  | _ => false
def isResult (sp : Nat) : Msg → Bool
  | .result i _ _ _ _ _ | .abandon i _ _ _ _ => i == sp
  | _ => false
def isSummary (sp : Nat) : Msg → Bool
  | .summary i _ _ _ _ _ _ _ _ => i == sp
  | _ => false
def isProfile (sp : Nat) : Msg → Bool
  | .profile i _ _ _ _ _ => i == sp
  | _ => false
def isDigests (sp : Nat) : Msg → Bool
  | .digests i _ _ _ _ _ _ _ => i == sp
  | _ => false

/-- Takes the message that a command names by its test. -/
def takeMsg (s : State) (f : Msg → Bool) : Option (Msg × State) := (nextMsg s f).map fun m => (m, leave s m)

end Sys2Proof.Machine
end

