-- ==== Sys2Proof/Machine/Erg.lean ====
section
/-! DEFINITION. The Erg recorder's working copy and its publication (R481 to R484). -/

namespace Sys2Proof.Machine

/-- R481: the bin of a VLAT or RLAG value in fabric ticks. -/
def latBin (t : Nat) : Nat := if t < 2 then 0 else min 23 (Nat.log2 t)

/-- R481: the bin of a lag num/den. -/
def lagBin (num den : Nat) : Nat := min 15 (num * 16 / den)

/-- R481: the bin of a reading in quarters of a degree. -/
def tempBin (q : Int) : Nat := min 31 ((q + 160) / 20).toNat

/-- R482: an extreme takes a value beyond it. -/
def extPut (least : Bool) (v : Int) (sp : Nat) (t : W64) (e : Option (Int × Nat × W64)) : Option (Int × Nat × W64) :=
  match e with
  | none => some (v, sp, t)
  | some (x, _, _) => if (if least then v < x else v > x) then some (v, sp, t) else e

/-- The extremes in the order of the ERG page. -/
def exVlat : Nat := 0
def exRlag : Nat := 1
def exSlag : Nat := 2
def exResid : Nat := 3
def exTempHi : Nat := 4
def exTempLo : Nat := 5

/-- One event of scopes `p` and 16: bins, and the extreme `ix`. -/
def ergEvent (s : State) (p : Nat) (bins : ErgScope → ErgScope) (ix : Nat) (least : Bool) (v : Int) (sp : Nat) : State :=
  let scopes := if p = 16 then [16] else [p, 16]
  let put := fun x : Exts => updAt x ix (extPut least v sp s.time.tick)
  let f := fun c : ErgScope => let c1 := bins c
    { c1 with ext := put c1.ext }
  { s with erg := { s.erg with
      work := scopes.foldl (fun w i => updAt w i f) s.erg.work
      viewExt := s.erg.viewExt.map fun w => scopes.foldl (fun w i => updAt w i put) w } }

def bump (l : List W64) (i n : Nat) : List W64 := updAt l i (· + BitVec.ofNat 64 n)

def ergVlat (s : State) (p sp t : Nat) : State :=
  ergEvent s p (fun c => { c with vlat := bump c.vlat (latBin t) 1 }) exVlat false t sp
def ergRlag (s : State) (p sp t : Nat) : State :=
  ergEvent s p (fun c => { c with rlag := bump c.rlag (latBin t) 1 }) exRlag false t sp
/-- The extreme of SLAG holds the lag in units of 2^-16 (log 17). -/
def ergSlag (s : State) (p sp num den : Nat) : State :=
  ergEvent s p (fun c => { c with slag := bump c.slag (lagBin num den) 1 }) exSlag false (num * 65536 / den : Nat) sp

/-- R161, R481: the residual bins of a SCRSUM record are added bin by bin. -/
def ergResid (s : State) (p sp : Nat) (bins : List Nat) : State :=
  let add := fun c : ErgScope => { c with resid := c.resid.zipIdx.map fun x => x.1 + BitVec.ofNat 64 (bins.getD x.2 0) }
  match (bins.zipIdx.filter fun x => x.1 != 0).getLast? with
  | some x => ergEvent s p add exResid false x.2 sp
  | none => s

/-- R453, R481, R482: a Dome's highest and lowest reading of a sweep. -/
def ergTemp (s : State) (hi : Int) (hiSp : Nat) (lo : Int) (loSp : Nat) : State :=
  let s1 := ergEvent s 16 (fun c => { c with temp := bump c.temp (tempBin hi) 1 }) exTempHi false hi hiSp
  ergEvent s1 16 id exTempLo true lo loSp

/-- R483, R484: a publication writes every scope and every view; a clear that waits takes the values published as its baseline
and restarts the view's extremes. ERG_SEQ ends two higher, even again. R511: none in the unit's safe state. -/
def ergFold (s : State) : State :=
  if inSafe s uErg then s else
  let e := s.erg
  let none6 : List Exts := List.replicate 17 (List.replicate 6 none)
  let ext := e.viewExt.zipIdx.map fun x => if e.clrPend.getD x.2 false then none6 else x.1
  { s with erg := { e with
      seq := e.seq + 2
      pub := e.work
      views := e.views.zipIdx.map fun x => if e.clrPend.getD x.2 false then e.work else x.1
      viewExt := ext
      viewPub := ext
      clrPend := e.clrPend.map fun _ => false } }

end Sys2Proof.Machine
end

