-- ==== Sys2Proof/Machine/Pool.lean ====
section
/-! DEFINITION. The replay pool (05): tracker slots, engine windows, attachment and confirmation, and the values that engines
form (R174 to R188, R192, R195, R196). -/

namespace Sys2Proof.Machine

/-! ### Tracker slots (R174, R175) -/

/-- R426: engines that the entitlement enables. -/
def licEng (s : State) : Nat :=
  match fld (entitled s) 0 2 with
  | 0 => 16
  | 1 => 32
  | _ => 64

def slotsHeld (s : State) (p : Nat) : Nat := (s.samples.filter fun x => x.part == p && x.slot.isSome).length

/-- The lowest free tracker slot. -/
def freeSlot (s : State) : Option Nat :=
  let held := s.samples.filterMap (·.slot)
  if held.length ≥ Config.trackers then none else (List.range (held.length + 1)).find? fun i => !held.contains i

/-- R174: a sample is armed when a slot is free and its partition holds fewer than its quota. -/
def armIfRoom (s : State) (x : Sample) : State :=
  match freeSlot s with
  | some i =>
    if slotsHeld s x.part < ((partCfg s x.part).map (·.trkQuota)).getD 0 then
      updSample s x.uid x.row fun x => { x with slot := some i, state := .armed }
    else s
  | none => s

/-- R167, R175: samples in order of kind, and of arrival within a kind. -/
def byKind (xs : List Sample) : List Sample := [2, 1, 0].flatMap fun k => xs.filter fun x => x.kind == k

/-- R175: of two notices that arrive in one Belfry tick, the one that stands first: by kind, then by Spire. -/
def noticeFirst (x y : Sample) : Bool := decide (y.kind < x.kind) || (x.kind == y.kind && decide (x.spire < y.spire))

/-- R174, R175: a sample of this Belfry tick takes the slot of one that stands behind it and arrived in the same tick: the last of those, if
the partition's quota allows. -/
def takeOver (s : State) (x : Sample) : State :=
  let quota := ((partCfg s x.part).map (·.trkQuota)).getD 0
  let behind := s.samples.filter fun v => v.arr == x.arr && v.state == .armed && v.hdrs == 0 && noticeFirst x v &&
    (v.part == x.part || decide (slotsHeld s x.part < quota))
  match behind.foldl (fun b v => match b with
      | none => some v
      | some w => if noticeFirst w v then some v else some w) none with
  | none => s
  | some v =>
    updSample (updSample s v.uid v.row fun y => { y with slot := none, state := .queued }) x.uid x.row fun y =>
      { y with slot := v.slot, state := .armed }

/-- R174: the sample that the overflow queue or its partition's queue quota has no room for: the last of those that wait. -/
def overflowing (s : State) : List Sample :=
  let wait := s.samples.filter fun y => y.slot.isNone
  let quota := fun p => ((partCfg s p).map (·.ovfQuota)).getD 0
  let full := fun y : Sample => decide (wait.length > Config.ovfEntries) || decide ((wait.filter fun z => z.part == y.part).length > quota y.part)
  (wait.filter full).reverse.take 1

/-- R175: queued samples take the free slots. -/
def promote (s : State) : State :=
  (byKind (s.samples.filter fun x => x.slot.isNone)).foldl armIfRoom s

/-- R180: the free engines, lowest first. -/
def freeEngines (s : State) : List Nat :=
  (List.range (licEng s)).filter fun e => (getEng s e).state == .free && !(getEng s e).testDue

/-- R43: engines that first replays of a partition hold. -/
def enginesHeld (s : State) (p : Nat) : Nat :=
  ((s.samples.filter fun x => x.part == p && x.state != .confirming).map fun x => x.engines.length).foldl (· + ·) 0

def giveEngine (uid row : Nat) (cols : List Nat) (s : State) (e : Nat) : State :=
  updEng s e fun g => { g with state := .held uid row, cols := cols, fifo := [], rows := [] }

/-- R180: an armed sample takes all its engines, ends SKIPPED, or waits. -/
def tryAttach (s : State) (x : Sample) : State :=
  onOp s x.uid fun o =>
    let n := engCount s o
    let cap := ((partCfg s x.part).map (·.engCap)).getD 0
    if n > licEng s ∨ n > cap then endSample s x.uid x.row rSkipped 0x24
    else if dA o.dsc = .b64 ∧ dK o.dsc > 32768 then endSample s x.uid x.row rSkipped 0x25
    else
      let es := (freeEngines s).take n
      if es.length < n ∨ enginesHeld s x.part + n > cap then s
      else
        let w := windowWidth s o
        let cols := fun q => (List.range (min w (dN o.dsc - w * q))).map (· + w * q)
        let s1 := es.zipIdx.foldl (fun s e => giveEngine x.uid x.row (cols e.2) s e.1) s
        updSample s1 x.uid x.row fun x => { x with engines := es, w := w, state := .attached }

/-- R192: E2, and E3 where the class has one, for the columns to be confirmed, and the STREAM_REQ. -/
def tryConfirm (s : State) (x : Sample) : State :=
  onOp s x.uid fun o =>
    let n := if exactMode o || comboClass (dA o.dsc) (dB o.dsc) (dC o.dsc) (dAcc o.dsc) == some .integer then 1 else 2
    let es := ((freeEngines s).filter fun e => !x.engines.contains e).take n
    if es.length < n then s
    else
      let s1 := es.foldl (giveEngine x.uid x.row x.confCols) s
      let s2 := updSample s1 x.uid x.row fun x => { x with conf := es, posted := some s.time.tick }
      post s2 x.part .streamReq x.spire
        [BitVec.ofNat 32 (dEpoch o.dsc).toNat, BitVec.ofNat 32 (dLayer o.dsc).toNat, BitVec.ofNat 32 (dOper o.dsc).toNat,
          BitVec.ofNat 32 (x.slot.getD 0)]

/-- R175, R180, R192: the pool at a Belfry tick: confirmations first, then slots, then attachment. -/
def poolTick (s : State) : State :=
  if inSafe s uRpl then s
  else
  let s1 := (s.samples.filter fun x => x.state == .confirming && x.confirmWanted && x.conf.isEmpty).foldl tryConfirm s
  let s2 := promote s1
  (byKind (s2.samples.filter fun x => x.state == .armed)).foldl tryAttach s2

/-! ### Values (R184 to R187) -/

/-- The operand row of a sample: the fragments of its passes in order. -/
def rowA (x : Sample) : List Nat × List Byte := (x.frags.flatMap (·.1), x.frags.flatMap (·.2))

/-- The code of a column in a row piece. -/
def pieceAt (r : WRow) (c : Nat) : Option (Nat × Byte) :=
  match r.cols.idxOf? c with
  | some i => some (r.codes.getD i 0, r.scales.getD i 127)
  | none => none

/-- A column of B as an engine took it: codes and block scales, by K. -/
def colB (rows : List WRow) (c : Nat) : List (Nat × Byte) := rows.filterMap (pieceAt · c)

/-- R106 FIRST: the first input NaN, lowest k, A before B. -/
def firstNan (fa fb : Fmt) (as bs : List Nat) (va vb : List XVal) : Option (Fmt × Nat) :=
  let hits := ((va.zip vb).zip (as.zip bs)).filterMap fun z =>
    if z.1.1 = .nan then some (fa, z.2.1) else if z.1.2 = .nan then some (fb, z.2.2) else none
  hits.head?

/-- One column's inputs: decoded A and B (R105), and the first NaN. -/
structure ColIn where
  a : List XVal
  b : List XVal
  first : Option (Fmt × Nat)
  deriving DecidableEq, Repr

def colIn (d : Dsc) (c : Contract) (x : Sample) (rows : List WRow) (col : Nat) : ColIn :=
  let ra := rowA x
  let cb := colB rows col
  let va := ra.1.zipIdx.map fun z => decodeInput (dA d) (ctrDaz c) (ctrFzPos c) z.1 (ra.2.getD (z.2 / 32) 127)
  let vb := cb.map fun z => decodeInput (dB d) (ctrDaz c) (ctrFzPos c) z.1 z.2
  ⟨va, vb, firstNan (dA d) (dB d) ra.1 (cb.map (·.1)) va vb⟩

/-- R185: the host's scale of a group, from the value window or the group digest. -/
def hostScale (x : Sample) (g : Nat) : Byte :=
  if x.winFirst ≤ 32 * g ∧ 32 * g < x.winFirst + x.win.length then x.winScales.getD (g - x.winFirst / 32) 127
  else (x.digests.getD g (0, 127)).2

/-- Columns in runs of one group each. -/
def inGroups (cols : List Nat) : List (Nat × List Nat) :=
  ((cols.map (· / 32)).eraseDups).map fun g => (g, cols.filter fun c => c / 32 == g)

/-- R184: bit-exact values of columns, as (column, code, scale). -/
def exactBits (s : State) (x : Sample) (rows : List WRow) (cols : List Nat) : List (Nat × OutElem) :=
  let d := x.dsc
  let c := (contractRec s (dContract d)).getD 0
  if comboClass (dA d) (dB d) (dC d) (dAcc d) = some .integer then
    let a := (rowA x).1.map (signedOf (fmtWidth (dA d)))
    cols.map fun k => (k, ⟨intDot a ((colB rows k).map fun z => signedOf (fmtWidth (dB d)) z.1), 0⟩)
  else
    (inGroups cols).flatMap fun g =>
      let vs := g.2.map fun k =>
        let i := colIn d c x rows k
        (contractAcc c (widthOf s c) (i.a.zipWith xmul i.b), i.first)
      g.2.zip (toCRow c (dC d) (ctrRndOut c) vs [hostScale x g.1])

/-- A reference of exact mode: column, code and scale in C_FMT, and Σ |a·b| (R187). -/
structure RefElem where
  col : Nat
  out : OutElem
  mag : XVal
  deriving DecidableEq, Repr

/-- R113, R187: exact-mode references of columns. -/
def exactRefs (s : State) (x : Sample) (rows : List WRow) (cols : List Nat) : List RefElem :=
  let d := x.dsc
  let c := (contractRec s (dContract d)).getD 0
  (inGroups cols).flatMap fun g =>
    let sums := g.2.map fun k =>
      let i := colIn d c x rows k
      exactSums (i.a.zipWith xmul i.b)
    let outs := exactRefRow c (dC d) (sums.map (·.1)) [hostScale x g.1]
    (g.2.zip (outs.zip sums)).map fun z => ⟨z.1, z.2.1, z.2.2.2⟩

def outVal (d : Dsc) (o : OutElem) : XVal := decodeElem (dC d) o.code o.scale

/-- R113, R114: the host's element against a reference. -/
def passesRef (s : State) (x : Sample) (h : OutElem) (r : RefElem) : Bool :=
  let d := x.dsc
  let c := (contractRec s (dContract d)).getD 0
  let v := outVal d r.out
  variesPass (outVal d h) v (tauV c (dC d) (dK d) r.out.scale v r.mag)

/-- R195: E1's element against E3's reference. -/
def soundRef (s : State) (x : Sample) (r1 : OutElem) (r : RefElem) : Bool :=
  let d := x.dsc
  let c := (contractRec s (dContract d)).getD 0
  let v := outVal d r.out
  soundAgainst (outVal d r1) v (tauA c (widthOf s c) (dK d) (dC d) r.out.scale v r.mag)

/-- The host's element of a column of the value window. -/
def hostElem (x : Sample) (c : Nat) : OutElem :=
  ⟨x.win.getD (c - x.winFirst) 0, if isMx (dC x.dsc) then x.winScales.getD ((c - x.winFirst) / 32) 0 else 0⟩

def inWindow (x : Sample) (c : Nat) : Bool := decide (x.winFirst ≤ c) && decide (c < x.winFirst + x.win.length)

/-- R170: the group digest of an engine's own elements. -/
def ownDigest (d : Dsc) (es : List OutElem) : W32 × Byte :=
  (crc32c (packBytes (fmtWidth (dC d)) (es.map (·.code))), if isMx (dC d) then (es.map (·.scale)).headD 0 else 0)

def groupCols (d : Dsc) (g : Nat) : List Nat := (List.range (grpCols d g)).map (· + 32 * g)

/-! ### Progress of a sample -/

/-- Every row of every column of an engine has been processed. -/
def engDone (s : State) (k e : Nat) : Bool :=
  let g := getEng s e
  ((g.rows.map fun r => r.cols.length).foldl (· + ·) 0) == k * g.cols.length && g.fifo.isEmpty

def witnessWhole (x : Sample) : Bool := decide (x.frags.length ≥ dPasses x.dsc)

/-- R176: RUNNING ends with the last window row and a whole witness; COMPARE needs the result capture too. -/
def tryCompare (s : State) (uid row : Nat) : State :=
  match getSample s uid row with
  | some x =>
    if (x.state = .running ∨ x.state = .attached) ∧ x.captured ∧ !x.wtviol ∧ !x.unread ∧ witnessWhole x
        ∧ x.engines.all (engDone s (dK x.dsc)) then
      updSample s uid row fun x => { x with state := .compare }
    else s
  | none => s

/-- R181: a row piece is processed: its products are counted; E3 and exact mode count apart. -/
def processRow (s : State) (e : Nat) (r : WRow) : State :=
  match (getEng s e).state with
  | .held uid row =>
    match getSample s uid row, getOp s uid with
    | some x, some o =>
      let n := r.cols.length
      let exact := exactMode o || (x.conf.drop 1).contains e
      let s1 := updEng s e fun g => { g with rows := g.rows ++ [r] }
      let s2 := addBig s1 0x2F3 (if exact then 2 else 1) n
      updSample s2 uid row fun x => if exact then { x with xprods := x.xprods + n } else { x with prods := x.prods + n }
    | _, _ => s
  | _ => s

/-- R180: the weight FIFO holds the window's elements. -/
def wrowBytes (f : Fmt) (r : WRow) : Nat := (r.cols.length * fmtWidth f + 7) / 8

/-- R181, R182: a row piece that crosses the tap is processed when its activation is there and nothing waits before it, else
it waits in the weight FIFO of 64 KiB, whose overflow ends the sample: PACE while every waiting row has its fragment, else MISSED (DESIGN
CHOICE, log 115). -/
def feedRow (s : State) (uid row e : Nat) (r : WRow) : State :=
  match getSample s uid row with
  | none => s
  | some x =>
    let g := getEng s e
    let s1 := updSample s uid row fun x => { x with
      rowTick := s.time.tick, state := if x.state = .attached then .running else x.state }
    if g.fifo.isEmpty && decide (r.k / 1024 < x.frags.length) then processRow s1 e r
    else
      let q := g.fifo ++ [r]
      if (q.map (wrowBytes (dB x.dsc))).foldl (· + ·) 0 > 65536 then
        if q.all fun w => decide (w.k / 1024 < x.frags.length) then endSample s1 uid row rIncon 0x05
        else endSample s1 uid row rSkipped 0x23
      else updEng s1 e fun g => { g with fifo := q }

/-- R191, R222: an engine is fenced, or fails its self-test: the open samples it belongs to end. -/
def engineOut (s : State) (e : Nat) (st : EngSt) : State :=
  let xs := s.samples.filter fun x => x.engines.contains e || x.conf.contains e
  let s1 := xs.foldl (fun s x => endSample s x.uid x.row rIncon 0x0C) s
  updEng s1 e fun g => { g with state := st, testDue := false, cols := [], fifo := [], rows := [] }

/-- R437: a slice of an engine has failed: its record, its count and its input, which concerns no tile. -/
def engSliceFail (s : State) (x : Nat) (e : GoldenEntry) (solid : Bool) (sig : W64) (us : W32) : State :=
  let s1 := addRec s (lbistRec s 0xFFFF 0 x e (if solid then lbSolid else lbFlaky) sig us)
  partInput (thmCount s1 thFail 1) 0x10 0 0xFFFF (if solid then 1 else 2)

/-- R431, R436, R437: the next `n` slices of an engine's test, from its rotation pointer on, and whether all passed. One that gave no DONE has a
TIMEOUT record (R435). -/
def engineSlices (x : Nat) : Nat → List SliceRes → State → State × Bool
  | 0, _, s => (s, true)
  | n + 1, rs, s =>
    let es := goldenOf s uEngineSet
    let e := entryAt es (getEng s x).ptr
    let r := rs.head?.getD ⟨none, none, 0⟩
    let s1 := updEng (addMeter s 0 mTest r.us.toNat) x fun g => { g with ptr := (g.ptr + 1) % max 1 es.length }
    if r.sig = some e.sig then engineSlices x n (rs.drop 1) (thmCount s1 thPass 1)
    else
      let s2 := if r.sig.isNone then addRec s1 (lbistRec s1 0xFFFF 0 x e lbTimeout 0 r.us) else s1
      (engSliceFail s2 x e (r.again != some e.sig) ((r.again.or r.sig).getD 0) r.us, false)

/-- R431, R486: an engine's self-test: its samples, then its logic self-test slices, and whether it passed; its time is charged to
partition 0. -/
def engineTest (s : State) (x : Nat) (r : EngineRun) : State × Bool :=
  let s1 := addMeter s 0 mTest r.us.toNat
  if r.passes then engineSlices x (goldenOf s uEngineSet).length r.slices s1 else (s1, false)

/-- R196: a self-test is ordered on an engine that is not fenced; it waits until no sample holds the engine. -/
def engineTestDue (s : State) (e : Nat) : State :=
  updEng s e fun g => match g.state with
    | .free | .held _ _ => { g with testDue := true }
    | _ => g

/-! ### First verdict (R186, R188, R190) -/

/-- What the first comparison found: E1's values of the columns to confirm, mismatching columns, groups, unchecked columns. -/
structure Compared where
  r1 : List MisCol
  mis : List MisCol
  groups : List Nat
  unchecked : Nat
  deriving DecidableEq, Repr

def misOf (x : Sample) (c : Nat) (o : OutElem) : MisCol := ⟨c, if inWindow x c then (hostElem x c).code else 0, o.code, o.scale⟩

/-- R192: the columns to confirm: the mismatching ones, whole blocks for an MX C_FMT, and the columns of mismatching groups. -/
def confirmCols (d : Dsc) (mis : List Nat) (groups : List Nat) : List Nat :=
  let blocks := if isMx (dC d) then (mis.map (· / 32)) ++ groups else groups
  (List.range (dN d)).filter fun c => mis.contains c || blocks.contains (c / 32)

/-- R186, R188: the comparison of a sample. -/
def compareSample (s : State) (x : Sample) (exact : Bool) : Compared :=
  let d := x.dsc
  let rows := x.engines.flatMap fun e => (getEng s e).rows
  let win := (List.range x.win.length).map (· + x.winFirst)
  if exact then
    let rs := exactRefs s x rows win
    let bad := rs.filter fun r => !passesRef s x (hostElem x r.col) r
    let keep := confirmCols d (bad.map (·.col)) []
    ⟨(rs.filter fun r => keep.contains r.col).map fun r => misOf x r.col r.out, bad.map fun r => misOf x r.col r.out, [],
      dN d - x.win.length⟩
  else
    let rs := exactBits s x rows (List.range (dN d))
    let mis := rs.filter fun r => inWindow x r.1 && r.2 != hostElem x r.1
    let groups := (List.range (dGroups d)).filter fun g =>
      !inWindow x (32 * g) && ownDigest d ((rs.filter fun r => r.1 / 32 == g).map (·.2)) != x.digests.getD g (0, 0)
    let keep := confirmCols d (mis.map (·.1)) groups
    ⟨(rs.filter fun r => keep.contains r.1).map fun r => misOf x r.1 r.2, mis.map fun r => misOf x r.1 r.2, groups, 0⟩

/-! ### Arbitration (R195, R196) -/

/-- The outcomes of R196 as (result, cause). -/
def arbMirage : Nat × Nat := (2, 0)
def arbDoubt : Nat × Nat := (3, 0x30)
def arbDisagree : Nat × Nat := (5, 0x0B)
def arbEngfault : Nat × Nat := (4, 0)

/-- R196: outcome of a column or group of the bit-exact classes; `sound` is true for the Integer class. -/
def arbBits {α : Type} [DecidableEq α] (h r1 r2 : α) (sound : Bool) : Nat × Nat :=
  if r2 = h then arbEngfault
  else if r2 = r1 then (if sound then arbMirage else arbDoubt)
  else arbDisagree

/-- R196: outcome of a column of a VARIES sample. Two equal references that h passes cannot meet a mismatch. -/
def arbVaries (same passes : Bool) : Nat × Nat :=
  if same then (if passes then arbEngfault else arbMirage) else if passes then arbEngfault else arbDisagree

/-- Column outcomes of a sample: the columns concerned and the outcome. A column whose three values are equal has none. -/
def arbOutcomes (s : State) (x : Sample) (exact integer : Bool) : List (List Nat × (Nat × Nat)) :=
  let d := x.dsc
  let rows := fun i => ((x.conf.drop i).head?.map fun e => (getEng s e).rows).getD []
  if exact then
    (exactRefs s x (rows 0) x.confCols).filterMap fun r =>
      match x.r1.find? fun m => m.col == r.col with
      | some m =>
        let same := m.e1 == r.out.code && m.scale == r.out.scale
        let ok := passesRef s x (hostElem x r.col) r
        if same && ok then none else some ([r.col], arbVaries same ok)
      | none => none
  else
    let r2 := exactBits s x (rows 0) x.confCols
    let r3 := if integer then [] else exactRefs s x (rows 1) x.confCols
    let e1 := fun c => match x.r1.find? fun m => m.col == c with
      | some m => (⟨m.e1, m.scale⟩ : OutElem)
      | none => ⟨0, 0⟩
    let sound := fun c => integer || (match r3.find? fun r => r.col == c with
      | some r => soundRef s x (e1 c) r
      | none => false)
    let cols := (r2.filter fun r => inWindow x r.1).filterMap fun r =>
      let h := hostElem x r.1
      if h = e1 r.1 ∧ r.2 = h then none else some ([r.1], arbBits h (e1 r.1) r.2 (sound r.1))
    let groups := x.misGroups.flatMap fun g =>
      let cs := groupCols d g
      cs.map fun c => ([c], arbBits (x.digests.getD g (0, 0)) (ownDigest d (cs.map e1))
        (ownDigest d ((r2.filter fun r => r.1 / 32 == g).map (·.2))) (sound c))
    cols ++ groups

/-- R196: the sample's outcome, the first in the order MIRAGE, SUSPECT, INCONCLUSIVE, ENGFAULT. -/
def arbSample (os : List (List Nat × (Nat × Nat))) : Nat × Nat :=
  ([arbMirage, arbDoubt, arbDisagree].find? fun r => os.any fun o => o.2 == r).getD arbEngfault

/-- The E1 engine that served a column. -/
def engOfCol (x : Sample) (c : Nat) : Nat := x.engines.getD (c / x.w) 0

end Sys2Proof.Machine
end

