-- ==== Sys2Proof/Machine/Replay.lean ====
section
/-! DEFINITION. Bit-exact replay (05): weight segments and streams, samples from notice to verdict, confirmation, arbitration
and the engines' self-test. -/

namespace Sys2Proof.Machine

/-! ### Weight segments (R78 to R80, R177, R178) -/

/-- The bytes of a weight-tap beat. -/
def wtBytes (b : WtBeat) : List Byte := leBytes 64 b.data.toNat

/-- R79, R80: beats of one row, and scale beats of one run of 32 rows. -/
def rowBeats (h : WtHdr) : Nat := (hNCnt h + perBeat (hFmt h) 512 - 1) / perBeat (hFmt h) 512
def scaleBeats (h : WtHdr) : Nat := if isMx (hFmt h) then (hNCnt h + 63) / 64 else 0

/-- R80: the order in which a segment carries scale and data beats. -/
def beatPlan (h : WtHdr) : List Bool :=
  (List.range (hKCnt h)).flatMap fun i =>
    (if i % 32 = 0 then List.replicate (scaleBeats h) true else []) ++ List.replicate (rowBeats h) false

/-- R91, WTVIOL 0x02: the segment is as long as its header says. -/
def segShapeOk (h : WtHdr) (bs : List WtBeat) : Bool := bs.map (·.scale) == beatPlan h

/-- The element codes of a run of beats. -/
def beatCodes (f : Fmt) (n : Nat) (bs : List WtBeat) : List Nat :=
  (bs.flatMap fun b => (List.range (perBeat f 512)).map (elemOf f b.data)).take n

/-- R80: the scale bytes of a run, one per column. -/
def scaleCodes (n : Nat) (bs : List WtBeat) : List Byte := (bs.flatMap wtBytes).take n

/-- The rows of a segment, with the scales of their run: `fuel` bounds the rows. -/
def segRows (h : WtHdr) : Nat → Nat → List WtBeat → List Byte → List (Nat × List Nat × List Byte)
  | 0, _, _, _ => []
  | fuel + 1, i, bs, scl =>
    let lead := if i % 32 = 0 then scaleBeats h else 0
    let scl1 := if i % 32 = 0 then scaleCodes (hNCnt h) (bs.take lead) else scl
    let rest := bs.drop lead
    (hKBase h + i, beatCodes (hFmt h) (hNCnt h) (rest.take (rowBeats h)), scl1) ::
      segRows h fuel (i + 1) (rest.drop (rowBeats h)) scl1

/-- R194, R288: the bytes that the fingerprint and the weight segment digest cover: the four fields and the payload. -/
def segBytes (h : WtHdr) (bs : List WtBeat) : List Byte := leBytes 16 (h.toNat >>> 96) ++ bs.flatMap wtBytes

/-- The part of a row that an engine takes (R181). -/
def pieceFor (h : WtHdr) (cols : List Nat) (r : Nat × List Nat × List Byte) : WRow :=
  let cs := cols.filter fun c => decide (hNBase h ≤ c) && decide (c < hNBase h + hNCnt h)
  ⟨r.1, cs, cs.map fun c => r.2.1.getD (c - hNBase h) 0, if isMx (hFmt h) then cs.map fun c => r.2.2.getD (c - hNBase h) 0 else []⟩

/-- R178: the rows of a column already carried in a stream, as [first, next). -/
def carried (segs : List (Nat × Nat × Nat × Nat)) (c : Nat) : Option (Nat × Nat) :=
  let mine := segs.filter fun g => decide (g.2.2.1 ≤ c) && decide (c < g.2.2.1 + g.2.2.2)
  match mine.head?, mine.getLast? with
  | some a, some b => some (a.1, b.1 + b.2.1)
  | _, _ => none

def segCols (h : WtHdr) : List Nat := (List.range (hNCnt h)).map (· + hNBase h)

/-- R178: a row that repeats one already carried for its column. -/
def repeats (h : WtHdr) (segs : List (Nat × Nat × Nat × Nat)) (c : Nat) : Bool :=
  match carried segs c with
  | some (a, b) => decide (hKBase h < b) && decide (a < hKBase h + hKCnt h)
  | none => false

/-- R178: a row that is not the next one expected for its column; one below the column's first carried row is taken as such too (DESIGN
CHOICE, log 103). -/
def skips (h : WtHdr) (segs : List (Nat × Nat × Nat × Nat)) (c : Nat) : Bool :=
  match carried segs c with
  | some (_, b) => hKBase h != b
  | none => false

def samplesOfKey (s : State) (k : WKey) : List Sample :=
  s.samples.filter fun x => x.part == k.part && dEpoch x.dsc == k.epoch && dLayer x.dsc == k.layer && dOper x.dsc == k.oper

/-- Whether the engines of a sample take rows now: E1's, or the confirming ones. -/
def takesRows (x : Sample) : Bool := x.state == .attached || x.state == .running || (x.state == .confirming && !x.conf.isEmpty)

def activeEngines (x : Sample) : List Nat := if x.state = .confirming then x.conf else x.engines

/-- The rows an engine has of a column, processed or waiting. -/
def rowsOfCol (s : State) (e c : Nat) : Nat :=
  ((((getEng s e).rows ++ (getEng s e).fifo).filter fun r => r.cols.contains c)).length

/-- A column of a sample that has begun and is not complete. -/
def colOpen (s : State) (x : Sample) (c : Nat) : Bool :=
  (activeEngines x).any fun e => (getEng s e).cols.contains c && decide (0 < rowsOfCol s e c) && decide (rowsOfCol s e c < dK x.dsc)

/-! Streams. -/

def liveStream (s : State) (k : WKey) : Option WStream := s.streams.find? fun w => w.key == k && w.live
def getStream (s : State) (k : WKey) (n : Nat) : Option WStream := s.streams.find? fun w => w.key == k && w.num == n
def updStream (s : State) (k : WKey) (n : Nat) (f : WStream → WStream) : State :=
  { s with streams := s.streams.map fun w => if w.key = k ∧ w.num = n then f w else w }

def keyOf (x : Sample) : WKey := ⟨x.part, dEpoch x.dsc, dLayer x.dsc, dOper x.dsc⟩

/-- R194: the fingerprints are compared when the confirming stream has carried as many segments as the first, or has ended. -/
def checkStream (s : State) (x : Sample) : State :=
  match x.confStream.bind (getStream s (keyOf x)) with
  | none => s
  | some c =>
    let a := (x.streamNum.bind (getStream s (keyOf x))).getD ⟨keyOf x, 0, [], 0, false, []⟩
    if x.matched ∨ (c.live ∧ c.segs.length < a.segs.length) then s
    else if c.fp = a.fp then updSample s x.uid x.row fun x => { x with matched := true }
    else endSample s x.uid x.row rIncon 0x0A

def checkStreams (s : State) (k : WKey) : State :=
  ((samplesOfKey s k).filter fun x => x.state == .confirming).foldl checkStream s

/-- A stream ends. -/
def endStream (s : State) (w : WStream) : State := checkStreams (updStream s w.key w.num fun w => { w with live := false }) w.key

/-- R177: a header of another layer ends the partition's streams. R189: it counts for the armed samples of other layers. -/
def headerCrosses (s : State) (h : WtHdr) : State :=
  let p := hPart h
  let prev := (s.lastHdr.find? fun e => e.1 == p).map (·.2)
  let s0 := { s with lastHdr := (s.lastHdr.filter fun e => e.1 != p) ++ [(p, hLayer h)] }
  if prev = some (hLayer h) then s0
  else
    let s1 := (s0.streams.filter fun w => w.live && w.key.part == p && w.key.layer != hLayer h).foldl endStream s0
    let due := fun x : Sample => x.part == p && x.slot.isSome && dLayer x.dsc != hLayer h
    let bump := fun x : Sample => if due x then { x with hdrs := x.hdrs + 1 } else x
    let s2 := { s1 with samples := s1.samples.map bump }
    (s2.samples.filter fun x => decide (x.hdrs ≥ 2) && x.state != .confirming).foldl
      (fun s x => endSample s x.uid x.row rIncon (if x.wtviol then 0x07 else 0x04)) s2

/-- R91, R178: a segment is ignored; the replays that rely on it fail at their deadline. Layer, operator, tensor and epoch of the violation
are the bad header's, also where its HCRC failed (DESIGN CHOICE, log 112). -/
def badSegment (s : State) (port : Nat) (h : WtHdr) (code : Byte) (beats : Nat) : State :=
  let s1 := portViol s .wtviol (hPart h) port (hLayer h) (hOper h) code (hTensor h) (hEpoch h) beats
  let s2 := addBig s1 (0x0240 + port) 2 1
  let relies := fun x : Sample => keyOf x == hKey h && x.state != .compare &&
    !(takesRows x && (activeEngines x).all (engDone s (dK x.dsc))) && (x.state != .confirming || !x.conf.isEmpty)
  { s2 with samples := s2.samples.map fun x => if relies x then { x with wtviol := true } else x }

/-- R178, R181, R193: one row of a segment reaches the engines of a sample. A column begins at its row 0, and takes its rows in
ascending order. -/
def feedSample (h : WtHdr) (num : Nat) (r : Nat × List Nat × List Byte) (s : State) (x0 : Sample) : State :=
  match getSample s x0.uid x0.row with
  | none => s
  | some x =>
    if !takesRows x ∨ (x.state = .confirming ∧ x.confStream ≠ some num) then s
    else
      let k := dK x.dsc
      let feed := fun s e =>
        let p := pieceFor h (getEng s e).cols r
        let have_ := fun c => rowsOfCol s e c
        let odd := p.cols.any fun c => decide (0 < have_ c) && decide (have_ c < k) && have_ c != r.1
        let take := p.cols.filter fun c => have_ c == r.1 && decide (r.1 < k)
        if odd then endSample s x.uid x.row rIncon 0x06
        else if take.isEmpty ∨ (getEng s e).state ≠ .held x.uid x.row then s
        else
          let s1 := if x.state = .confirming then s else updSample s x.uid x.row fun x => { x with streamNum := some (x.streamNum.getD num) }
          feedRow s1 x.uid x.row e (pieceFor h take r)
      tryCompare ((activeEngines x).foldl feed s) x.uid x.row

/-- R176, R178, R183: what a segment of a sample's key does to it before its rows are taken. -/
def segmentMeets (h : WtHdr) (skip : List Nat) (s : State) (x : Sample) : State :=
  if hFmt h ≠ dB x.dsc then endSample s x.uid x.row rIncon 0x08
  else if x.state = .queued ∨ x.state = .armed then
    if hNBase h < dN x.dsc then endSample s x.uid x.row rSkipped 0x23 else s
  else if skip.any fun c => decide (c < dN x.dsc) && (x.state != .confirming || x.confCols.contains c) then
    endSample s x.uid x.row rIncon 0x06
  else s

/-- R178: the repeated columns end the samples that are still taking them. -/
def repeatMeets (cols : List Nat) (s : State) (x : Sample) : State :=
  if x.state ≠ .confirming ∧ cols.any (colOpen s x) then endSample s x.uid x.row rIncon 0x06 else s

/-- K_W, drawn once after cold reset (R283). -/
def weightKey (s : State) : Nat × State :=
  match s.wkey with
  | some k => (k, s)
  | none =>
    let r := draw s
    let k := sdKey r.1.toNat
    (k, { r.2 with wkey := some k })

/-- R193: the first stream of the key that begins after the reservation serves the confirmation. -/
def beginStream (s : State) (k : WKey) : Nat × State :=
  let n := ((s.streams.filter fun w => w.key == k).map (·.num)).foldl max 0 + 1
  let pick := fun x : Sample => if keyOf x = k ∧ x.state = .confirming ∧ !x.conf.isEmpty ∧ x.confStream = none then
    { x with confStream := some n } else x
  (n, { s with streams := s.streams ++ [⟨k, n, [], 0, true, []⟩], samples := s.samples.map pick })

/-- A good segment crosses: its stream, the engines it feeds, the fingerprint, the weight digest. -/
def goodSegment (s : State) (h : WtHdr) (bs : List WtBeat) : State :=
  let key := hKey h
  let cols := segCols h
  let st := match liveStream s key with
    | none => let b := beginStream s key
      (b.1, b.2, ([] : List Nat))
    | some w =>
      let rep := cols.filter (repeats h w.segs)
      if rep.isEmpty then (w.num, s, cols.filter (skips h w.segs))
      else
        let s1 := (samplesOfKey s key).foldl (repeatMeets rep) s
        let b := beginStream (endStream s1 w) key
        (b.1, b.2, [])
  let num := st.1
  let s1 := (samplesOfKey st.2.1 key).foldl (segmentMeets h st.2.2) st.2.1
  let rows := segRows h (hKCnt h) 0 bs []
  let s2 := rows.foldl (fun s r => (samplesOfKey s key).foldl (feedSample h num r) s) s1
  let kw := weightKey s2
  let s3 := updStream kw.2 key num fun w => { w with
    segs := w.segs ++ [(hKBase h, hKCnt h, hNBase h, hNCnt h)], seen := w.seen ++ [(s.time.tick, hNBase h)], fp := w.fp + sd64 kw.1 (segBytes h bs) }
  let serves := s3.samples.any fun x => x.state == .confirming && keyOf x == key && x.confStream == some num
  let s4 := if serves then s3
    else joinSegment s3 (hPart h) (hEpoch h) (hLayer h) (sd64 (digestKeys s3 (hPart h)).1 (segBytes h bs))
  checkStreams s4 key

/-- R38: no segment crosses a port whose WCLK is lost, so the replays that ride its stream reach their deadline. R79, R91: the meaning of a
weight segment, taken whole. A header that fails its checks crosses as no header at all; one whose beats fail crosses as a header (R189). The
beat count of a WTVIOL is that of the beats behind the header (DESIGN CHOICE, log 85). -/
def takeSegment (s : State) (port : Nat) (h : WtHdr) (bs : List WtBeat) (drop : Bool) : State :=
  if s.keep.lostNow.contains (.wclk port) then s
  else
  let s0 := addBig (addBig s (0x0240 + port) 0 (64 * (bs.length + 1))) (0x0240 + port) 1 1
  if !hCrcOk h ∨ hReserved h ∨ !hRangeOk h then badSegment s0 port h 0x01 bs.length
  else
    let s1 := headerCrosses s0 h
    if drop ∨ !segShapeOk h bs then badSegment s1 port h 0x02 bs.length
    else goodSegment s1 h bs

def execWeightSegment (port : Nat) (hdr : BitVec 512) (beats : List WtBeat) (drop : Bool) (s : State) : Host.Outcome State Fault Refusal :=
  .next (takeSegment s port hdr beats drop)

/-- R181: the first waiting row piece of an engine is processed once its fragment has come; a witness read as poison is not loaded (R381). -/
def execEngineRow (eng : Nat) (s : State) : Host.Outcome State Fault Refusal :=
  let g := getEng s eng
  .next (match g.fifo, g.state with
    | r :: rest, .held uid row =>
      match getSample s uid row with
      | some x =>
        if r.k / 1024 < x.frags.length ∧ !x.unread then
          tryCompare (processRow (updEng s eng fun g => { g with fifo := rest }) eng r) uid row
        else s
      | none => s
    | _, _ => s)

/-! ### Messages of a sample (R168, R171 to R174, R336) -/

/-- The sample of a notice that reaches the Keep. -/
def newSample (s : State) (o : OpV) (ix row kind winFirst : Nat) (tick : W64) : Sample :=
    { slot := none, uid := o.uid, spire := ix, part := o.part, dsc := o.dsc, row := row, kind := kind, state := .queued,
      noticeTick := tick, arr := belfryNo s, hdrs := 0, frags := [], winFirst := winFirst, win := [], winScales := [], digests := [],
      captured := false, engines := [], w := 0, wtviol := false, streamNum := none, rowTick := 0, misTick := 0, r1 := [],
      mis := [], misGroups := [], conf := [], confCols := [], posted := none, confirmWanted := false, confStream := none,
      matched := false, unread := false, unchecked := 0, prods := 0, xprods := 0, lines := 0 }

/-- R175: a notice's sample stands among the others in order of arrival, the notices of one Belfry tick in their order. -/
def placeSample (l : List Sample) (x : Sample) : List Sample :=
  let behind := fun y : Sample => y.arr == x.arr && noticeFirst x y
  l.takeWhile (fun y => !behind y) ++ [x] ++ l.dropWhile (fun y => !behind y)

/-- R183: rows of the sample's key have crossed for its columns before any engine could be attached: since the ACK, or in a live stream that
has not yet carried a column whole (DEDUCED, log 104). -/
def crossedBefore (s : State) (x : Sample) : Bool :=
  (s.streams.filter fun w => w.key == keyOf x).any fun w =>
    (w.seen.any fun e => decide (x.noticeTick.toNat ≤ e.1.toNat) && decide (e.2 < dN x.dsc)) ||
      (w.live && w.segs.any fun g => decide (g.2.2.1 < dN x.dsc) && (carried w.segs g.2.2.1).any fun r => decide (r.2 < dK x.dsc))

/-- R174, R175: the Keep takes a sample notice. The samples of an operation the Keep finds LATE are withdrawn (R336), and an
operation that is FINAL has none. In a Keep warm reset there is no tracker: the sample is lost (R191). -/
def noticeIn (s : State) (ix uid row kind winFirst : Nat) (tick : W64) : State :=
  onOp s uid fun o =>
    if o.late ∨ o.state = .final then s
    else
      let x := newSample s o ix row kind winFirst tick
      let s1 := chargeTag (addRpl (promote s) o.part 0 1) o fun e => { e with counts := addAt e.counts 10 1 }
      let s2 := armIfRoom { s1 with samples := placeSample s1.samples x } x
      let armed := ((getSample s2 uid row).map fun x => x.slot.isSome).getD false
      if s.keep.kwrDown then { s1 with keep := { s1.keep with lostSamples := s1.keep.lostSamples ++ [x] } }
      else if stateOf s ix = stDead then endSample s2 uid row rIncon 0x0F
      else if inSafe s uRpl then endSample s2 uid row rSkipped 0x20
      else if crossedBefore s x then endSample s2 uid row rSkipped 0x23
      else
        let s3 := if armed then s2 else takeOver s2 x
        (overflowing s3).foldl (fun s y => endSample s y.uid y.row rSkipped 0x20) s3

def execSampleNotice (sp : Nat) (s : State) : Host.Outcome State Fault Refusal :=
  .next (match takeMsg s (isNotice sp) with
    | some (.notice i uid row kind win t, s1) => noticeIn s1 i uid row kind win t
    | _ => s)

/-- R173: a part of a witness is stored against the quota at level WIT, or the sample ends SKIPPED with cause QUOTA. -/
def storeWitness (s : State) (uid row bytes : Nat) (f : Sample → Sample) : State :=
  match getSample s uid row with
  | none => s
  | some x =>
    let n := linesOf bytes
    if quotaOk s x.part lvWit then
      let s1 := addMeter (addUse s x.part n) x.part mWitness bytes
      tryCompare (updSample s1 uid row fun x => let y := f x
        { y with lines := y.lines + n }) uid row
    else endSample (refuseQuota s x.part) uid row rSkipped 0x21

/-- The Spire's staging buffer drains (R168). -/
def unstage (s : State) (ix n : Nat) : State := updSp s ix fun sp => { sp with staging := sp.staging - n }

/-- R171, R191: a sample that its Spire abandoned ends. -/
def abandonIn (s : State) (uid row cause : Nat) (incon : Bool) : State :=
  match getSample s uid row with
  | some _ => endSample s uid row (if incon then rIncon else rSkipped) cause
  | none => s

/-- R172: an operand fragment reaches the Cistern and the row buffers. -/
def fragmentIn (s : State) (i uid row : Nat) (codes : List Nat) (scl : List Byte) : State :=
  let n := fragBytes s uid codes scl
  storeWitness (addBigSp (unstage s i n) i 8 n) uid row n fun x => { x with frags := x.frags ++ [(codes, scl)] }

/-- R172: the value window and the group digests arrive. -/
def resultIn (s : State) (i uid row : Nat) (win : List Nat) (scl : List Byte) (digs : List (W32 × Byte)) : State :=
  let n := resultBytes s uid win scl digs
  storeWitness (addBigSp (unstage s i n) i 8 n) uid row n fun x => { x with
    win := win, winScales := scl, digests := digs, captured := true }

def execWitnessFragment (sp : Nat) (s : State) : Host.Outcome State Fault Refusal :=
  .next (match takeMsg s (isFragment sp) with
    | some (.fragment i uid row codes scl, s1) => fragmentIn s1 i uid row codes scl
    | some (.abandon _ uid row cause incon, s1) => abandonIn s1 uid row cause incon
    | _ => s)

def execResultCapture (sp : Nat) (s : State) : Host.Outcome State Fault Refusal :=
  .next (match takeMsg s (isResult sp) with
    | some (.result i uid row win scl digs, s1) => resultIn s1 i uid row win scl digs
    | some (.abandon _ uid row cause incon, s1) => abandonIn s1 uid row cause incon
    | _ => s)

/-! ### Verdicts (R186 to R197) -/

def sampleAt (s : State) (slot : Nat) : Option Sample := s.samples.find? fun x => x.slot == some slot

/-- R186, R192, R197: a MISMATCH is recorded: the sample waits for its confirmation, E1 returns to the pool. -/
def recordMismatch (s : State) (x : Sample) (o : OpV) (c : Compared) : State :=
  let y := { x with
    state := .confirming, misTick := s.time.tick, r1 := c.r1, mis := c.mis, misGroups := c.groups, unchecked := c.unchecked
    confCols := confirmCols x.dsc (c.mis.map (·.col)) c.groups }
  let s1 := updSample s x.uid x.row fun _ => y
  let s2 := addRec s1 (rplvRec s1 y o false rMismatch 0)
  let s3 := countRpl { s2 with rng := s2.rng + 1 } x.part rMismatch 0
  let s4 := x.engines.foldl (freeEngine x.uid x.row) (replayInput s3 o x.row rMismatch 0)
  settle (updOp s4 x.uid fun o => { o with mm := o.mm + 1 }) x.uid

/-- R190: the first-replay verdict of a sample in COMPARE. -/
def execReplayCompare (slot : Nat) (s : State) : Host.Outcome State Fault Refusal :=
  .next (match sampleAt s slot with
    | none => s
    | some x =>
      if x.state ≠ .compare ∨ x.unread then s
      else onOp s x.uid fun o =>
        let c := compareSample s x (exactMode o)
        let s1 := ergRlag s x.part x.spire (s.time.tick.toNat - x.rowTick.toNat)
        if c.mis.isEmpty && c.groups.isEmpty then
          endSample (updSample s1 x.uid x.row fun x => { x with unchecked := c.unchecked }) x.uid x.row rPass 0
        else recordMismatch s1 x o c)

/-- R189: the sample's deadline. -/
def execReplayDeadline (slot : Nat) (s : State) : Host.Outcome State Fault Refusal :=
  .next (match sampleAt s slot with
    | none => s
    | some x => if x.state = .confirming then s else endSample s x.uid x.row rIncon (if x.wtviol then 0x07 else 0x04))

/-- R193, R194, R381: the confirmation deadline. -/
def execConfirmationDeadline (slot : Nat) (s : State) : Host.Outcome State Fault Refusal :=
  .next (match sampleAt s slot with
    | none => s
    | some x =>
      if x.state ≠ .confirming ∨ (x.matched ∧ !x.wtviol ∧ !x.unread) then s
      else endSample s x.uid x.row rIncon (if x.wtviol then 0x07 else if x.unread then 0x04 else 0x09))

/-- R196: the engine effects of the columns' outcomes, whatever the sample's outcome. -/
def engineEffects (s : State) (x : Sample) (os : List (List Nat × (Nat × Nat))) : State :=
  let of_ := fun r => ((os.filter fun o => o.2 == r).flatMap fun o => o.1.map (engOfCol x)).eraseDups
  let fence := of_ arbEngfault
  let test := (of_ arbDisagree).filter fun e => !fence.contains e
  let e2 := if (of_ arbDisagree).isEmpty then [] else x.conf.take 1
  let s1 := fence.foldl (fun s e => engineOut s e .fenced) s
  (test ++ e2).foldl engineTestDue s1

/-- R194 to R196: the confirming engines are complete and the fingerprints agreed: the arbitration outcome. -/
def execArbitration (slot : Nat) (s : State) : Host.Outcome State Fault Refusal :=
  .next (match sampleAt s slot with
    | none => s
    | some x =>
      if x.state ≠ .confirming ∨ !x.matched ∨ x.wtviol ∨ x.unread ∨ !(x.conf.all (engDone s (dK x.dsc))) then s
      else onOp s x.uid fun o =>
        let integer := comboClass (dA o.dsc) (dB o.dsc) (dC o.dsc) (dAcc o.dsc) == some .integer
        let os := arbOutcomes s x (exactMode o) integer
        let r := arbSample os
        engineEffects (endSample s x.uid x.row r.1 r.2) x os)

/-! ### Engine self-test (R222, R433) -/

/-- R222: a fenced engine starts its checker self-test; one ordered to test (R196) starts when no sample holds it. -/
def execEngineSelfTest (eng : Nat) (s : State) : Host.Outcome State Fault Refusal :=
  let g := getEng s eng
  .next (if g.state = .fenced ∨ (g.testDue ∧ g.state = .free) then
    updEng s eng fun g => { g with state := .testing, testDue := false } else s)

/-- R222, R431: the test is judged; an engine that passes returns to the pool, one that fails stays fenced until cold reset, and the open
samples it belongs to end (R191). -/
def execEngineTestDone (eng : Nat) (r : EngineRun) (s : State) : Host.Outcome State Fault Refusal :=
  .next (if (getEng s eng).state = .testing then
    (let t := engineTest s eng r
     if t.2 then updEng t.1 eng fun g => { g with state := .free } else engineOut t.1 eng .failed) else s)

end Sys2Proof.Machine
end

