-- ==== Sys2Proof/Machine/Fuse.lean ====
section
/-! DEFINITION. What the Keep does with an operation's screen records, profile and digests, and the rerun deadline (R207 to
R209, R213 to R220, R290, R465). -/

namespace Sys2Proof.Machine

/-- R336: the LATE bit of a record is the Keep's judgement. -/
def withLate (late : Bool) (r : Rec) : Rec := { r with w3 := setFld r.w3 20 1 (b2n late) }

/-- R161: the residual bins of an SCRSUM record, its words 12 to 19. -/
def residBins (r : Rec) : List Nat := ((r.body.drop 8).take 8).flatMap fun w => [fld w 0 16, fld w 16 16]

/-- R203 to R205, R338: the one input of an operation's range findings, in the highest class among them. RANGE_EVENT and MAG are of one
class; with both the event is RANGE_EVENT (DESIGN CHOICE, log 102). -/
def rangeInput (s : State) (o : OpV) (bits : Nat) (susp event : Bool) : State :=
  if susp then opInput s 0x41 o bits false 0
  else if event then opInput s 0x50 o bits false 0
  else if bits % 2 = 1 then opInput s 0x51 o bits false 0
  else s

/-- R213, R215, R338: the screen results enter the operation: its counts and inputs. -/
def screenIn (s : State) (o : OpV) (scr : ScreenRes) : State :=
  let s1 := if o.late then s else addDeficit s o.part scr.skip
  let s2 := if scr.susp = 0 then s1 else opInput s1 0x40 o 0 false 0
  if scr.incon = 0 then s2 else opInput s2 0x60 o scr.cause false 0

/-- R161, R369, R481: the screen records of an operation, whatever the Keep still holds of it, are written with its judgement of LATE (R336);
those that come late are counted, and the SCRSUM's bins and latency enter the Erg. -/
def screenRecs (s : State) (uid : Nat) (recs : List Rec) (endTick : W64) : State :=
  let lag := s.time.tick.toNat - endTick.toNat
  let mine := recs.map fun r => ((getOp s uid).map fun o => withLate o.late r).getD r
  let late := if lag > 4000 then recs.length else 0
  let s0 := updDome { s with caravan := { s.caravan with vlate := satAdd s.caravan.vlate late } } (((recs.head?.map (·.spire)).getD 0) / 256)
    fun d => { d with vlate := satAdd d.vlate late }
  let s1 := mine.foldl addRec s0
  match recs.find? fun r => r.kind == .scrsum with
  | some r => ergVlat (ergResid s1 r.part r.spire (residBins r)) r.part r.spire lag
  | none => s1

/-- R159, R215, R219, R220, R369: an operation's screen records are in the Keep. A SUSPECT of a rerun or of a LATE operation is not rerun. -/
def summaryIn (s : State) (uid : Nat) (recs : List Rec) (scr : ScreenRes) (bits : Nat) (susp event : Bool) (od endTick : W64) : State :=
  let s2 := screenRecs s uid recs endTick
  onOp s2 uid fun o =>
    if o.state ≠ .opened then s2
    else
      let o2 := { o with
        scr := if o.checkable then some scr else none, range := bits, rangeSusp := susp, od := some od, endTick := endTick
        state := .screened, resolveTick := s.time.tick }
      let final_ := o.late || o.rerunOf.isSome
      let s3 := updOp s2 uid fun _ => { o2 with res := if final_ && opSuspect o2 then some vSuspect else o2.res }
      let s4 := if o.checkable then screenIn s3 o2 scr else s3
      settle (applyRerun (rangeInput s4 o2 bits susp event) uid) uid

def execScrsum (sp : Nat) (s : State) : Host.Outcome State Fault Refusal :=
  .next (match takeMsg s (isSummary sp) with
    | some (.summary _ uid recs scr bits susp event od t, s1) => summaryIn s1 uid recs scr bits susp event od t
    | _ => s)

/-! ### Envelopes (R207 to R209) -/

/-- R207: f_b of each bin. -/
def fractions (bins : List Nat) : List Nat :=
  let total := bins.foldl (· + ·) 0
  bins.map fun c => 256 * c / total

def widen (e : Envelope) (hi : Int) (f : List Nat) : Envelope :=
  { e with loHi := min e.loHi hi, hiHi := max e.hiHi hi, lo := e.lo.zipWith min f, hi := e.hi.zipWith max f }

/-- R209: the events of an operation against a learned envelope: ENV_EXP, ENV_SHAPE. -/
def envEvents (r : W64) (e : Envelope) (hi : Int) (f : List Nat) : Bool × Bool :=
  let m : Int := rMargin r
  let slack := rSlack r
  (decide (hi < e.loHi - m) || decide (hi > e.hiHi + m),
    (f.zip (e.lo.zip e.hi)).any fun z => decide (z.1 + slack < z.2.1) || decide (z.1 > z.2.2 + slack))

/-- R205: an RNGEV record that the Keep writes: findings, e_hi, straggler lag in 1/256. -/
def keepRngev (s : State) (sp part : Nat) (late varies : Bool) (head : List W32) (bits : Nat) (hi : Int) (lag : Nat) : Rec :=
  ⟨.rngev, s.time.tick, sp, part, opvW3 sp part late varies,
    head ++ [BitVec.ofNat 32 bits, 0, 0, packW [(0, int12 hi), (12, 0xFFF), (24, min 255 lag)], packW [(0, 0x1FFF)]]⟩

/-- R209, R213: an envelope event of an operation; OPV shows its bit when the operation is not final yet. -/
def envEvent (s : State) (o : OpV) (code bit : Nat) (hi : Int) : State :=
  let s1 := updOp s o.uid fun o => { o with range := o.range ||| 2 ^ bit }
  let s2 := addRec s1 (keepRngev s1 o.spire o.part o.late o.varies (opHead o.dsc) (2 ^ bit) hi 0)
  opInput s2 code o (2 ^ bit) false 0

/-- R208: the STEP at the key's first operation. -/
def firstStep (q : Part) (o : OpV) : W32 :=
  ((q.envFirst.find? fun f => f.1 == dLayer o.dsc && f.2.1 == dOper o.dsc).map (·.2.2)).getD q.pos.step

/-- R208: whether STEP has advanced by LEARN_STEPS. -/
def learnOver (step from_ : W32) (n : Nat) : Bool := decide (n ≤ (step - from_).toNat)

def sameKey (e : Envelope) (o : OpV) : Bool := e.layer == dLayer o.dsc && e.oper == dOper o.dsc

/-- R207 to R209: the Keep takes a profile: it learns, or judges. An operation with total 0 is not judged. -/
def profileIn (s : State) (uid : Nat) (r : Rec) (hi : Option Int) (bins : List Nat) : State :=
  onOp s uid fun o =>
    let s1 := addRec s (withLate o.late r)
    let q := getPart s1 o.part
    let rr := rangeOf s1 o.part o.dsc
    let h := hi.getD 0
    let f := fractions bins
    let total := bins.foldl (· + ·) 0
    if !rEnvEn rr ∨ rLearn rr = 0 then s1
    else match q.envs.find? (sameKey · o) with
      | none =>
        if q.envs.length < qEnvKeys (plausRec s1 o.part) then
          let from_ := firstStep q o
          if total = 0 then s1 else updPart s1 o.part fun q => { q with
            envs := q.envs ++ [⟨dLayer o.dsc, dOper o.dsc, h, h, f, f, from_, rLearn rr, learnOver q.pos.step from_ (rLearn rr)⟩] }
        else updCnt s1 o.part fun c => { c with envNokey := satInc c.envNokey }
      | some e =>
        if total = 0 then s1
        else if !e.learned then updPart s1 o.part fun q => { q with envs := q.envs.map fun x => if sameKey x o then widen e h f else x }
        else
          let ev := envEvents rr e h f
          let s3 := if ev.1 then envEvent s1 o 0x52 3 h else s1
          if ev.2 then envEvent s3 o 0x53 4 h else s3

def execExpprof (sp : Nat) (s : State) : Host.Outcome State Fault Refusal :=
  .next (match takeMsg s (isProfile sp) with
    | some (.profile _ uid _ r hi bins, s1) => profileIn s1 uid r hi bins
    | _ => s)

/-! ### Digests and accounts (R290, R465) -/

/-- R465: the accounting block enters the tag entry. -/
def accountIn (s : State) (o : OpV) (a : List Nat) : State :=
  let g := fun i => a.getD i 0
  chargeTag s o fun e => { e with
    counts := (List.range 12).map fun i => e.counts.getD i 0 + ([1, g 3, g 0, g 1, g 2, g 4, g 5, g 6, g 7, g 8, 0, 0] : List Nat).getD i 0
    late := e.late + b2n o.late }

/-- R290, R465: the digests of an operation are in the Keep. -/
def digestsIn (s : State) (sp uid : Nat) (od : W64) (rsv : Nat) (dd : W64) (id : Option W64) (acct : List Nat) (early : Bool) : State :=
  let s1 := onOp s uid fun o => accountIn s o acct
  enterDigests s1 (partOfSp s1 sp) uid od rsv dd id (acct.getD 3 0) early

def execDigop (sp : Nat) (s : State) : Host.Outcome State Fault Refusal :=
  .next (match takeMsg s (isDigests sp) with
    | some (.digests _ uid od rsv dd id acct early, s1) => digestsIn s1 sp uid od rsv dd id acct early
    | _ => s)

/-! ### Draining (R278) -/

/-- What the Keep does with a message that has arrived. -/
def deliverMsg (s : State) : Msg → State
  | .notice i uid row kind win t => noticeIn s i uid row kind win t
  | .fragment i uid row codes scl => fragmentIn s i uid row codes scl
  | .result i uid row win scl digs => resultIn s i uid row win scl digs
  | .abandon _ uid row cause incon => abandonIn s uid row cause incon
  | .summary _ uid recs scr bits susp event od t => summaryIn s uid recs scr bits susp event od t
  | .profile _ uid _ r hi bins => profileIn s uid r hi bins
  | .digests i uid od rsv dd id acct early => digestsIn s i uid od rsv dd id acct early

/-- One message drains: of the highest class in flight, the oldest. -/
def drainOne (s : State) : State :=
  let first := s.caravan.flight.foldl (fun b m => match b with
    | none => some m
    | some x => if msgClass m < msgClass x then some m else some x) none
  match first with
  | some m => deliverMsg (leave s m) m
  | none => s

/-- R278 step 1: Caravan drains every class. -/
def drainAll (s : State) : State := s.caravan.flight.foldl (fun s _ => drainOne s) s

/-- R218 to R220: the rerun deadline of an operation, named by (Spire, STAG, EPOCH); a rerun acknowledged in time goes on. -/
def execRerunDeadline (sp : Nat) (stag epoch : W16) (s : State) : Host.Outcome State Fault Refusal :=
  .next (match s.ops.find? fun o => o.spire == sp && dStag o.dsc == stag && dEpoch o.dsc == epoch && o.state == .resolving
      && opSuspect o && o.res.isNone && o.rerunBy.isNone with
    | some o => standSuspect s o.uid 6
    | none => s)

end Sys2Proof.Machine
end

