-- ==== Sys2Proof/Machine/Tally.lean ====
section
/-! DEFINITION. Tallies (R275 to R277, R530 to R532): allocation, the die-wide queue, commands. -/

namespace Sys2Proof.Machine

/-- R531: a Tally as allocation leaves it, for partition `p`. -/
def Tally.fresh (held : Bool) (p : Nat) : Tally := ⟨held, p, 0, 0, 0xFFFF, 0, 0, 0, []⟩

/-- The Tally of an index; one that was never held reads as fresh. -/
def getTally (s : State) (t : Nat) : Tally := ((s.tallies.find? fun x => x.1 == t).map (·.2)).getD (Tally.fresh false 0)

def putTally (s : State) (t : Nat) (x : Tally) : State :=
  { s with tallies := (s.tallies.filter fun y => y.1 != t) ++ [(t, x)] }

def updTally (s : State) (t : Nat) (f : Tally → Tally) : State := putTally s t (f (getTally s t))

def tallyHeld (s : State) (t : Nat) : Bool := (getTally s t).held

/-- The lowest free Tally. -/
def freeTally (s : State) : Option Nat := (List.range Config.tallies).find? fun t => !tallyHeld s t

def heldBy (s : State) (p : Nat) : Nat := (s.tallies.filter fun t => t.2.held && t.2.part == p).length

/-- KEEP_TALLOC of an instance: 1 GRANTED, 2 QUEUED, 3 REFUSED, with the index. -/
def setTalloc (s : State) (i : Nat) (r ix : Nat) : State :=
  { s with keep := { s.keep with talloc := updAt s.keep.talloc i fun _ => (BitVec.ofNat 2 r, ix) } }

def tallocResult (s : State) (i : Nat) : Nat := ((s.keep.talloc.getD i (0, 0)).1).toNat

/-- An allocation is granted. -/
def grantTally (s : State) (i p t : Nat) : State := setTalloc (putTally s t (Tally.fresh true p)) i 1 t

/-- R275: queued allocations are served in arrival order while a Tally is free. -/
def serveTallies : Nat → State → State
  | 0, s => s
  | n + 1, s =>
    match s.tallyQ, freeTally s with
    | q :: rest, some t => serveTallies n (grantTally { s with tallyQ := rest } q.1 q.2 t)
    | _, _ => s

/-- R386: the lines that a waiting list takes. -/
def waitLines (n : Nat) : Nat := linesOf (2 * n)

/-- R276: the waiting list of a Tally empties, and its lines are free. -/
def emptyWaiters (s : State) (t : Nat) : State :=
  let x := getTally s t
  updTally (subUse s x.part (waitLines x.waiters.length)) t fun x => { x with waiters := [] }

/-- R531: DONE. -/
def tallyDone (x : Tally) : Bool := decide (x.target.toNat ≤ x.count.toNat)

/-- R532: the list empties when COUNT has reached TARGET. -/
def tallyCheck (s : State) (t : Nat) : State := if tallyDone (getTally s t) then emptyWaiters s t else s

/-- R276, R532: a Tally is free, and the queue is served. -/
def freeOne (s : State) (t : Nat) : State :=
  let s1 := emptyWaiters s t
  serveTallies s1.tallyQ.length (updTally s1 t fun x => { x with held := false })

/-- R277: a rollback frees the partition's Tallies at RESTORED. -/
def freeTallies (s : State) (p : Nat) : State :=
  let mine := s.tallies.filter fun t => t.2.held && t.2.part == p
  let lines := (mine.map fun t => waitLines t.2.waiters.length).foldl (· + ·) 0
  let s1 : State := { subUse s p lines with
    tallies := s.tallies.map fun t => if t.2.held ∧ t.2.part = p then (t.1, { t.2 with held := false, waiters := [] }) else t }
  serveTallies s1.tallyQ.length s1

/-- R277, R530: a compute reset frees every Tally and empties the queue. -/
def resetTallies (s : State) : State :=
  let s1 := s.tallies.foldl (fun s t => subUse s t.2.part (waitLines t.2.waiters.length)) s
  let s2 := s1.tallyQ.foldl (fun s q => setTalloc s q.1 3 0) s1
  { s2 with tallies := s2.tallies.map fun t => (t.1, { t.2 with held := false, waiters := [] }), tallyQ := [] }

/-- R275, R530: GO of KEEP_TALLOC. -/
def tallyAlloc (s : State) (who : Requester) : State :=
  let i := instOf who
  let p := partOf who
  if tallocResult s i = 2 then s
  else
    let queued := (s.tallyQ.filter fun q => q.2 == p).length
    let quota := ((partCfg s p).map (·.talQuota)).getD 0
    let refuse := updCnt (setTalloc s i 3 0) p fun c => { c with talRefused := satInc c.talRefused }
    if heldBy s p + queued ≥ quota then refuse
    else match freeTally s with
      | some t => grantTally s i p t
      | none => if s.tallyQ.length < 256 then { setTalloc s i 2 0 with tallyQ := s.tallyQ ++ [(i, p)] } else refuse

/-! ### Commands (R532) -/

def trDone : Nat := 1
def trRefused : Nat := 2
def trNotalloc : Nat := 3
def trBadarg : Nat := 4

def tallyResult (s : State) (t op : Nat) (arg : W16) (r : Nat) : State :=
  updTally s t fun x => { x with arg := arg, op := BitVec.ofNat 3 op, result := BitVec.ofNat 3 r }

/-- R532: a GO of TAL_CMD. -/
def tallyCmd (s : State) (t op : Nat) (arg : W16) : State :=
  let x := getTally s t
  let fin := fun s r => tallyResult s t op arg r
  if !x.held then fin s trNotalloc
  else match op with
    | 1 =>
      if arg = 0 then fin s trBadarg
      else fin (tallyCheck (updTally s t fun x => { x with count := x.count + arg.zeroExtend 32 }) t) trDone
    | 2 =>
      let sp := arg.toNat
      if (getTile s sp).isNone ∨ partOfSp s sp ≠ x.part then fin s trBadarg
      else if tallyDone x ∨ x.waiters.contains sp then fin s trDone
      else
        let more := waitLines (x.waiters.length + 1) - waitLines x.waiters.length
        if more ≠ 0 ∧ !quotaOk s x.part lvRec then fin (refuseQuota s x.part) trRefused
        else fin (updTally (addUse s x.part more) t fun x => { x with waiters := x.waiters ++ [sp] }) trDone
    | 3 =>
      let left := x.waiters.filter (· != arg.toNat)
      fin (updTally (subUse s x.part (waitLines x.waiters.length - waitLines left.length)) t fun x => { x with waiters := left }) trDone
    | 4 => fin (freeOne s t) trDone
    | _ => s

/-- R532: a write of TARGET. -/
def tallyTarget (s : State) (t : Nat) (v : W32) : State := tallyCheck (updTally s t fun x => { x with target := v }) t

end Sys2Proof.Machine
end

