-- ==== Sys2Proof/Machine/Oasis.lean ====
section
/-! DEFINITION. Checkpoints, seals and rollback (07: R245 to R264), the memory tap (R81, R82) and job starts (R208). -/

namespace Sys2Proof.Machine

/-! ### Checkpoint digests (R249) -/

/-- R249: the byte address and the data of one line. -/
def lineBytes (l : MtLine) : List Byte := leBytes 8 (l.addr.toNat * 64) ++ leBytes 64 l.data.toNat

def Ckd.add (c : Ckd) (k1 k2 : W64) (l : MtLine) : Ckd :=
  ⟨c.s1 + sd64 k1.toNat (lineBytes l), c.s2 + sd64 k2.toNat (lineBytes l), c.n + 1⟩

/-! ### Intervals and closing sets (R246) -/

/-- R246: the operations of a seal attempt's closing set, among those of the interval (`restored` and `jobStart` begin one without those
acknowledged before it). -/
def inClosing (w : Window) (o : OpV) : Bool :=
  o.interval && (decide (o.ackTick.toNat < w.openTick.toNat) || (dCkpt o.dsc && decide (o.ackTick.toNat < w.writtenTick.toNat)))

def closingSet (s : State) (p : Nat) (w : Window) : List OpV := s.ops.filter fun o => o.part == p && inClosing w o

/-- R244: a LATE operation that is FINAL with a verdict that may hold the next oasis. -/
def lateStands (o : OpV) : Bool := o.late && o.state == .final && (o.verdict == vSuspect || o.verdict == vMirage)

/-- Final operations that no interval holds leave the Keep, but for the LATE ones that may hold the next oasis. -/
def pruneOps (s : State) (p : Nat) : State :=
  { s with ops := s.ops.filter fun o =>
      !(o.part == p && o.state == .final && !o.interval && o.rerunBy.isNone && !lateStands o) }

/-- Every operation of a partition stands outside the interval that begins (R246). -/
def detachOps (s : State) (p : Nat) : State :=
  { s with ops := s.ops.map fun o => if o.part = p then { o with interval := false } else o }

/-- R261 step 2: the open operations of a partition, those not yet FINAL, stand outside every interval. -/
def detachOpen (s : State) (p : Nat) : State :=
  { s with ops := s.ops.map fun o => if o.part = p ∧ o.state ≠ .final then { o with interval := false } else o }

/-- R246: an interval begins. -/
def beginInterval (s : State) (p : Nat) : State :=
  pruneOps (updPart s p fun q => { q with intervalTick := s.time.tick, hangSeen := false, mtSeen := false }) p

/-! ### Generations -/

def noteGen (n : Nat) : List W32 := words64 (BitVec.ofNat 64 n)

/-- R254, R258: OASIS_FREE. -/
def freeNote (s : State) (p : Nat) (g : Gen) (failed : Bool) : State :=
  post s p .oasisFree 0xFFFF (noteGen g.num ++ [BitVec.ofNat 32 (g.slot + 0), BitVec.ofNat 32 (b2n failed)])

/-- R256: the byte offset in the near window of an oasis slot of a partition. -/
def oasisOffset (base p slot : Nat) : Nat := base + (4 * p + slot) * 0x20000

/-- The lowest oasis slot that holds no sealed generation (R256). -/
def freeOasis (gs : List Gen) : Nat := ((List.range 4).find? fun i => !(gs.any fun g => g.slot == i)).getD 0

/-- R256: the oasis descriptor with its tensor table, as words. `ops` to `unchk` are words 20 to 23. -/
def oasisWords (g : Gen) (p : Nat) (strict : Bool) (ops incon skipped unchk : Nat) : List W32 :=
  let head : List W32 :=
    [BitVec.ofNat 32 (0x0701 + 65536 * ((36 + 2 * g.tensors.length) % 65536))] ++ noteGen g.num ++
    [packW [(0, p), (4, b2n strict)]] ++ words64 g.tick ++
    [halves g.era.toNat g.layer.toNat, g.step, halves g.epoch.toNat 0] ++ words64 g.s1 ++ words64 g.s2 ++ noteGen g.n ++
    words64 g.k1 ++ words64 g.k2 ++
    [BitVec.ofNat 32 g.tensors.length, BitVec.ofNat 32 ops, BitVec.ofNat 32 incon, BitVec.ofNat 32 skipped, BitVec.ofNat 32 unchk]
  let table := (g.tensors.insertionSort fun a b => a.1.toNat ≤ b.1.toNat).flatMap fun t => [t.1, BitVec.ofNat 32 t.2]
  let bytes := (head ++ table).flatMap fun w => leBytes 4 w.toNat
  head ++ words384 (sha384 bytes) ++ table

/-! ### Seal conditions (R252 to R255) -/

/-- R255: an attempt is refused. -/
def refuseSeal (s : State) (p code : Nat) : State :=
  match (getPart s p).window with
  | none => s
  | some w =>
    let s1 := updPart s p fun q => { q with window := none, sealFail := BitVec.ofNat 8 code }
    post s1 p .sealFail 0xFFFF ([BitVec.ofNat 32 code] ++ words64 w.readTick)

/-- R244: a LATE operation counts for the seal when its tile has taken work of the current epoch since the previous one. -/
def lateHolds (s : State) (p : Nat) (o : OpV) : Bool :=
  o.part == p && lateStands o &&
    (match getTile s o.spire with
      | some t => t.acceptedEpochs.contains (getPart s p).epoch
      | none => false)

/-- R252, 0x01: an operation is not FINAL, or one of its samples or reruns is open. -/
def openOp (o : OpV) : Bool := o.state != .final || o.samplesOpen != 0 || o.ticket.isSome || (o.rerunBy.isSome && o.res.isNone)

/-- R252, 0x01, of a closing set. -/
def openOps01 (s : State) (p : Nat) (w : Window) : Bool := (closingSet s p w).any openOp

/-- R252: the first condition that refuses a seal whose operations are all final, in table order. -/
def sealRefusal (s : State) (p : Nat) (w : Window) : Option Nat :=
  let q := getPart s p
  let cs := closingSet s p w
  let strict := ((partCfg s p).map (·.strict)).getD false
  if cs.any (fun o => o.verdict == vSuspect || o.verdict == vMirage) || s.ops.any (lateHolds s p) then some 0x02
  else if cs.any fun o => o.verdict == vIncon && o.disagree then some 0x03
  else if q.hangSeen then some 0x04
  else if q.mtSeen then some 0x05
  else if w.rd ≠ w.wr ∨ w.bad250 then some 0x06
  else if w.nclkLost then some 0x07
  else if strict && cs.any fun o => o.verdict == vIncon then some 0x0A
  else if w.kwr then some 0x0B
  else none

/-- R245, R254: the seal is made. -/
def makeSeal (s : State) (p : Nat) (w : Window) : State :=
  let q := getPart s p
  let cs := closingSet s p w
  let n := q.maxGen + 1
  let g : Gen := ⟨n, freeOasis q.gens, w.era, w.layer, w.step, w.epoch, w.wr.s1, w.wr.s2, w.wr.n, w.k1, w.k2, s.time.tick, w.tensors⟩
  let count := fun f : OpV → Bool => (cs.filter f).length
  let skipped := (cs.map (·.skipped)).foldl (· + ·) 0
  let d := oasisWords g p (((partCfg s p).map (·.strict)).getD false) cs.length (count fun o => o.verdict == vIncon) skipped
    (count fun o => !o.checkable)
  let gens := g :: q.gens
  let s1 := updPart s p fun q => { q with
    window := none, maxGen := n, gens := gens.take 2, c4Open := false, lastRcv := none
    oasisMem := (q.oasisMem.filter fun m => m.1 != g.slot) ++ [(g.slot, d)] }
  let used := fun o : OpV => if o.part = p ∧ inClosing w o then { o with interval := false } else o
  let s2 := { s1 with
    ops := (s1.ops.filter fun o => !(o.part == p && lateStands o)).map used
    tiles := s1.tiles.map fun t => if t.part = p then { t with acceptedEpochs := [] } else t }
  let s3 := nearPush (beginInterval s2 p) (.oasis p g.slot)
  let s4 := if n % 16384 = 0 then addRec s3 ⟨.rebase, s3.time.tick, 0xFFFF, p, packW [(0, p)], noteGen n⟩ else s3
  let s5 := post s4 p .sealed 0xFFFF (noteGen n ++ [BitVec.ofNat 32 g.slot, BitVec.ofNat 32 g.era.toNat, g.step, BitVec.ofNat 32 g.layer.toNat])
  (gens.drop 2).foldl (fun s x => freeNote s p x false) s5

/-- R252: an evaluation: it waits for the operations of the closing set, is refused, or seals. -/
def sealCheck (s : State) (p : Nat) : State :=
  match (getPart s p).window with
  | some w =>
    if w.phase ≠ 2 then s
    else if openOps01 s p w then s
    else match sealRefusal s p w with
      | some c => refuseSeal s p c
      | none => makeSeal s p w
  | none => s

/-- R252, 0x09: SEAL_TIMEOUT has passed with operations still open. -/
def execSealTimeout (p : Nat) (s : State) : Host.Outcome State Fault Refusal :=
  .next (match (getPart s p).window with
    | some w => if w.phase = 2 ∧ openOps01 s p w then refuseSeal s p 0x09 else s
    | none => s)

/-! ### Rollback and restore (R259 to R264) -/

/-- R258: the partition's tiles that left HEALTHY and WATCH for FENCED, RETIRED or DEAD since the oasis (log 18). -/
def fencedSince (s : State) (p : Nat) (g : Gen) : Nat :=
  (s.tiles.filter fun t => t.part == p && (t.fencedAt.map fun x => decide (g.tick.toNat < x.toNat)).getD false).length

/-- R258, R261 step 3: the ROLLBACK note. -/
def postRollback (s : State) (p : Nat) : State :=
  let q := getPart s p
  match q.rb with
  | some r =>
    match q.gens.find? fun g => g.num == r.gen with
    | some g =>
      post s p .rollback r.causeSpire (noteGen g.num ++ [BitVec.ofNat 32 g.slot, BitVec.ofNat 32 r.floor.toNat, BitVec.ofNat 32 r.cause,
        BitVec.ofNat 32 g.era.toNat, g.step, BitVec.ofNat 32 g.layer.toNat, BitVec.ofNat 32 (fencedSince s p g)])
    | none => s
  | none => s

/-- What began a rollback (R258, R259, R264, R306): its cause code, the tick of the cause and that at which it was recorded, whether it is a
seal MISMATCH, the Spire concerned. -/
structure RbCause where
  code : Nat
  tick : W64
  recTick : W64
  bySeal : Bool
  spire : Nat
  deriving DecidableEq, Repr

/-- R264, R306: C1, from the seals of every newer generation of the job, those that failed restore verification among them (log 89). -/
def condC1 (q : Part) (c : RbCause) (g : Gen) : Bool :=
  ((q.gens.map fun h => (h.num, h.tick)) ++ q.failed).all (fun h => decide (h.1 ≤ g.num) || decide (c.recTick.toNat < h.2.toNat)) &&
    (!c.bySeal || decide (g.tick.toNat < c.tick.toNat))

/-- R260, R261: a rollback to the newest generation held begins, with a floor one above the newest epoch taken. `tried` are the
generations that this rollback has named before. -/
def startRollback (s : State) (p : Nat) (g : Gen) (c : RbCause) (tried : List Nat) (keepTicks fenceTicks : Nat) : State :=
  let fresh := fun q : Part =>
    ({ gen := g.num, floor := q.epoch + 1, cause := c.code, causeTick := c.tick, recTick := c.recTick, bySeal := c.bySeal,
       causeSpire := c.spire, decided := s.time.tick, noteTick := s.time.tick, restore := Ckd.zero, beginEpoch := none, ended := none,
       tried := tried.filter (· != g.num) ++ [g.num], c1 := condC1 q c g, c2 := q.mtLast.all fun t => decide (t.toNat < g.tick.toNat), fenceTicks := fenceTicks,
       keepTicks := keepTicks } : Rollback)
  let s1 := updPart s p fun q => { q with rb := some (fresh q) }
  postRollback s1 p

/-- R27, R259 to R261: a ROLLBACK for a partition: it joins the one in progress, restarts it, or gives a RESTART note.
`epoch` is the epoch of the operation that caused it, if one did. A partition that holds no generation keeps its interval. -/
def rollback (s : State) (p : Nat) (c : RbCause) (epoch : Option W16) (keepTicks fenceTicks : Nat) : State :=
  let q := getPart s p
  let joins := match q.rb, epoch with
    | some r, some e => earlierThan e r.floor
    | _, _ => false
  if joins then s
  else
    let s1 := refuseSeal s p 0x08
    match q.gens.head?, q.norecov with
    | some g, false => startRollback (detachOpen s1 p) p g c ((q.rb.map (·.tried)).getD []) keepTicks fenceTicks
    | _, _ => post (updPart s1 p fun q => { q with rb := none }) p .restart c.spire [BitVec.ofNat 32 c.code]

/-- R258: every 10 ms until RESTORE_BEGIN the note is posted again. -/
def execRollbackRepost (p : Nat) (s : State) : Host.Outcome State Fault Refusal :=
  .next (match (getPart s p).rb with
    | some r => if r.beginEpoch.isNone then postRollback s p else s
    | none => s)

/-- What began a rollback in progress. -/
def Rollback.why (r : Rollback) : RbCause := ⟨r.cause, r.causeTick, r.recTick, r.bySeal, r.causeSpire⟩

/-- R27, R262: recovery of the job ends. -/
def failRestore (s : State) (p : Nat) (k : RecKind) (tried : List Nat) : State :=
  let s1 := updPart s p fun q => { q with rb := none, norecov := true }
  let s2 := alert (addRec s1 ⟨k, s.time.tick, 0xFFFF, p, packW [(0, p)], tried.flatMap noteGen⟩) alRecovery
  post s2 p .restoreFail 0xFFFF ((tried.flatMap noteGen).take 10)

def execRollbackTimeout (p : Nat) (s : State) : Host.Outcome State Fault Refusal :=
  .next (match (getPart s p).rb with
    | some r => if r.ended.isNone then failRestore s p .rbTimeout r.tried else s
    | none => s)

/-- R264: the recovery record. -/
def rcvRec (s : State) (p : Nat) (r : Rollback) (mask : Nat) : Rec :=
  let t := s.time.tick.toNat
  let fin := (r.ended.getD 0).toNat
  let keep := r.keepTicks + (r.noteTick.toNat - r.decided.toNat) + (t - fin)
  ⟨.rcv, s.time.tick, r.causeSpire, p, packW [(0, p), (4, mask), (8, b2n (mask != 15)), (9, r.cause)],
    noteGen r.gen ++ [halves r.floor.toNat (r.beginEpoch.getD 0).toNat] ++ words64 r.causeTick ++
    [BitVec.ofNat 32 r.fenceTicks, BitVec.ofNat 32 (keep / 1000), BitVec.ofNat 32 ((fin - r.noteTick.toNat) / 1000),
     BitVec.ofNat 32 r.tried.length, BitVec.ofNat 32 r.causeSpire]⟩

/-- R277: a Tally is free again. -/
def Tally.free : Tally := ⟨false, 0, 0, 0, 0xFFFF, 0, 0, 0, []⟩

/-- R246, R261 step 7: RESTORED, the record, a new interval that holds nothing acknowledged before it. -/
def restored (s : State) (p : Nat) (r : Rollback) : State :=
  let mask := b2n r.c1 + 2 * b2n r.c2 + 12
  let rec_ := rcvRec s p r mask
  let s1 := addRec s rec_
  let s2 := if mask = 15 then s1 else alert s1 alRecovery
  let s3 := updPart s2 p fun q => { q with rb := none, c4Open := true, lastRcv := some rec_ }
  let s4 := freeTallies (beginInterval (detachOps s3 p) p) p
  post s4 p .restored 0xFFFF (noteGen r.gen ++ [BitVec.ofNat 32 mask])

/-- R27, R261 steps 6 and 7, R263: the restore is verified against the generation named. -/
def restoreCheck (s : State) (p : Nat) : State :=
  let q := getPart s p
  match q.rb with
  | some r =>
    if r.ended.isNone then s
    else match q.gens.find? fun g => g.num == r.gen with
      | none => s
      | some g =>
        if r.restore = ⟨g.s1, g.s2, g.n⟩ then restored s p r
        else
          let s1 := freeNote (updPart s p fun q => { q with
            gens := q.gens.filter fun x => x.num != g.num, failed := q.failed ++ [(g.num, g.tick)] }) p g true
          match (getPart s1 p).gens.head? with
          | some h =>
            let used := r.keepTicks + (r.noteTick.toNat - r.decided.toNat) + (s.time.tick.toNat - (r.ended.getD 0).toNat)
            startRollback s1 p h r.why r.tried used r.fenceTicks
          | none => failRestore s1 p .restoreFail r.tried
  | none => s

/-! ### Phase commands (R247, R250, R261) and job start (R208) -/

/-- R247, R249: the checkpoint window opens, at the partition's position, with fresh keys. -/
def ckptOpen (s : State) (p : Nat) : State :=
  let q := getPart s p
  if q.window.isSome ∨ q.rb.isSome then s
  else
    let a := draw s
    let b := draw a.2
    let w : Window :=
      { phase := 0, era := q.pos.era, step := q.pos.step, layer := q.pos.layer, epoch := q.epoch, openTick := s.time.tick,
        writtenTick := 0, k1 := BitVec.ofNat 64 (sdKey a.1.toNat), k2 := BitVec.ofNat 64 (sdKey b.1.toNat), wr := Ckd.zero,
        rd := Ckd.zero, tensors := [], ckptTensors := [], bad250 := false, nclkLost := s.keep.lostNow.contains .nclk, readTick := 0,
        kwr := false }
    updPart b.2 p fun q => { q with window := some w }

/-- R250, R256: the checks at CKPT_WRITTEN. -/
def badAtWritten (w : Window) : Bool :=
  decide (w.tensors.length > 16000) || w.ckptTensors.any fun t => !(w.tensors.any fun x => x.1 == t && decide (x.2 > 0))

def ckptWritten (s : State) (p : Nat) : State :=
  let mark := fun w : Window =>
    if w.phase = 0 then { w with phase := 1, writtenTick := s.time.tick, bad250 := badAtWritten w } else w
  updPart s p fun q => { q with window := q.window.map mark }

def ckptRead (s : State) (p : Nat) : State :=
  let mark := fun w : Window => if w.phase = 1 then { w with phase := 2, readTick := s.time.tick } else w
  updPart s p fun q => { q with window := q.window.map mark }

/-- R247, R261 step 4: taken when the epoch is at or after the floor. -/
def restoreBegin (s : State) (p : Nat) : State :=
  let mark := fun q : Part => fun r : Rollback =>
    if r.beginEpoch.isNone ∧ !earlierThan q.epoch r.floor then { r with beginEpoch := some q.epoch } else r
  updPart s p fun q => { q with rb := q.rb.map (mark q) }

def restoreEnd (s : State) (p : Nat) : State :=
  let mark := fun r : Rollback =>
    if r.beginEpoch.isSome ∧ r.ended.isNone then { r with ended := some s.time.tick } else r
  updPart s p fun q => { q with rb := q.rb.map mark }

/-- R208: a job starts: envelopes, tags and the armed dump go, the sealed generations are released, an interval begins. -/
def jobStart (s : State) (p : Nat) : State :=
  let q := getPart s p
  let s1 := subUse s p (2 * (q.tags.length - 1))
  let s2 := updPart s1 p fun q => { q with
    job := true, norecov := false, envs := [], envFirst := [], tags := [TagEnt.rest], armed := none, gens := [], failed := [], named := [], c4Open := false, lastRcv := none }
  let s3 := q.gens.reverse.foldl (fun s g => freeNote s p g false) s2
  let s4 := match q.armed with
    | some _ => dumpOver s3 p 0
    | none => s3
  beginInterval (detachOps s4 p) p

/-- The phase commands act on the partition as BELFRY_TICK does when it takes a word of that PHASE (log 19). -/
def execCkptOpen (p : Nat) (s : State) : Host.Outcome State Fault Refusal := .next (ckptOpen s p)
def execCkptWritten (p : Nat) (s : State) : Host.Outcome State Fault Refusal := .next (ckptWritten s p)
def execCkptRead (p : Nat) (s : State) : Host.Outcome State Fault Refusal := .next (ckptRead s p)
def execRestoreBegin (p : Nat) (s : State) : Host.Outcome State Fault Refusal := .next (restoreBegin s p)
def execRestoreEnd (p : Nat) (s : State) : Host.Outcome State Fault Refusal := .next (restoreEnd s p)

/-- R247: no window is open and no rollback is in progress. -/
def execJobStart (p : Nat) (s : State) : Host.Outcome State Fault Refusal :=
  .next (if (getPart s p).window.isSome ∨ (getPart s p).rb.isSome then s else jobStart s p)

/-! ### MEMTAP_LINE (R81, R91, R250) -/

/-- R91, R250: a violation of the memory tap; the line is digested apart, under the window's keys, else those of the newest
generation, else fresh ones. -/
def mtViol (s : State) (l : MtLine) (code : Byte) : State :=
  let q := getPart s l.part
  let a := draw s
  let b := draw a.2
  let keys : W64 × W64 × State := match q.window, q.gens.head? with
    | some w, _ => (w.k1, w.k2, s)
    | none, some g => (g.k1, g.k2, s)
    | none, none => (BitVec.ofNat 64 (sdKey a.1.toNat), BitVec.ofNat 64 (sdKey b.1.toNat), b.2)
  let s1 := updPart keys.2.2 l.part fun q => { q with
    mtSeen := true, mtLast := some s.time.tick, apart := q.apart.add keys.1 keys.2.1 l, rb := q.rb.map fun r => { r with c2 := false } }
  portViol s1 .mtviol l.part l.point 0xFFFF 0xFFFF code l.tensor q.epoch 1

/-- R250: a checkpoint write. -/
def takeWriteLine (s : State) (l : MtLine) : State :=
  let q := getPart s l.part
  match q.window with
  | some w =>
    if w.phase ≠ 0 then mtViol s l 0x02
    else if !(l.tensor ∈ q.named) then mtViol s l 0x01
    else if l.be ≠ BitVec.allOnes 64 then mtViol s l 0x03
    else
      let count := if w.tensors.any fun t => t.1 == l.tensor then
          w.tensors.map fun t => if t.1 = l.tensor then (t.1, t.2 + 1) else t
        else w.tensors ++ [(l.tensor, 1)]
      updPart s l.part fun q => { q with window := some { w with wr := w.wr.add w.k1 w.k2 l, tensors := count } }
  | none => mtViol s l 0x02

/-- R250, R264: a read: the seal read, a restore read, or ignored. A restore read of a tensor that the generation does not hold
did not come from the generation named. -/
def takeReadLine (s : State) (l : MtLine) : State :=
  let q := getPart s l.part
  let ign := addBig (updCnt s l.part fun c => { c with mtIgn := satInc c.mtIgn }) (0x0250 + l.point) 2 1
  match q.window, q.rb with
  | some w, _ =>
    if w.phase = 1 then updPart s l.part fun q => { q with window := some { w with rd := w.rd.add w.k1 w.k2 l } } else ign
  | none, some r =>
    match q.gens.find? fun g => g.num == r.gen with
    | some g =>
      if r.beginEpoch.isSome ∧ r.ended.isNone then
        updPart s l.part fun q => { q with rb := some { r with
          restore := r.restore.add g.k1 g.k2 l, c2 := r.c2 && g.tensors.any fun t => t.1 == l.tensor } }
      else ign
    | none => ign
  | none, none => ign

def execMemtapLine (l : MtLine) (s : State) : Host.Outcome State Fault Refusal :=
  .next (if s.keep.lostNow.contains .nclk then s
    else
      let s1 := addBig s (0x0250 + l.point) (if l.wr then 0 else 1) 64
      if l.wr then takeWriteLine s1 l else takeReadLine s1 l)

end Sys2Proof.Machine
end

