-- ==== Sys2Proof/Machine/Nvm.lean ====
section
/-! DEFINITION. The NVM: the instructions that the block issues on it (R403, R404, R406), and the blocks of its state area (R442). -/

namespace Sys2Proof.Machine

/-! ### Discovery (R403 to R405) -/

/-- R405: a bad discovery. -/
def sfdpBad (d : SfdpData) : Bool :=
  d.signature != 0x50444653 || d.major != 1 || decide (d.bfptDwords < 16) || decide (d.densityBits < 2 ^ 31) || !d.addr4

/-- R404 steps 4 and 5: the modes that the device declares and the fuses allow, highest first, each with the 256 bytes that it read. -/
def nvmModes (f : FuseArray) (d : SfdpData) : List (Nat × List Byte) :=
  let m := min 2 f.nvmMaxMode.toNat
  ([(0, d.xspi, d.read8d), (1, d.quad && decide (d.qer ≤ 6), d.readQ), (2, true, d.readS)].filter fun x => decide (m ≤ x.1) && x.2.1).map
    fun x => (x.1, x.2.2)

/-- R404 step 5, R405: the highest mode that reads what mode F reads, else mode F. -/
def nvmMode (f : FuseArray) (d : SfdpData) : Nat :=
  if sfdpBad d then 3 else (((nvmModes f d).find? fun x => x.2 == d.readF).map (·.1)).getD 3

/-- R403: the read of a span in a mode: its instruction, with a 4-byte address, and its dummy cycles. -/
def nvmRead (d : SfdpData) (mode : Nat) (addr len : Nat) : NvmIns :=
  match mode with
  | 0 => .read 0xEE11 addr d.dummy8d len
  | 1 => .read 0xEC addr d.dummyQ len
  | 2 => .read 0x0C addr 8 len
  | _ => .read 0x13 addr 0 len

/-- R404 step 4: how a mode is entered: the device's own sequence for 8D, what the Quad Enable Requirement prescribes for Q. -/
def enterMode (d : SfdpData) (mode : Nat) : List NvmIns :=
  match mode with
  | 0 => [.switch d.seq8d]
  | 1 => [.quadEnable d.qer]
  | _ => []

/-- R404 step 5: each mode is entered and compared with mode F, until one agrees. -/
def compareModes (d : SfdpData) : List (Nat × List Byte) → List NvmIns
  | [] => []
  | x :: l => enterMode d x.1 ++ [nvmRead d x.1 0 256] ++ (if x.2 == d.readF then [] else compareModes d l)

/-- R404: what discovery issues. -/
def discoveryIns (f : FuseArray) (d : SfdpData) : List NvmIns :=
  [.reset true, .reset false, .sfdp 0 8] ++
    (if sfdpBad d then [] else [.sfdp d.bfptAddr (4 * d.bfptDwords), nvmRead d 3 0 256] ++ compareModes d (nvmModes f d))

/-! ### The blocks of the state area (R442) -/

def magicRepair : List Byte := [0x5A, 0x4B, 0x52, 0x50]
def magicSnap : List Byte := [0x5A, 0x4B, 0x53, 0x4E]

/-- A block: its 32-byte header and its body. -/
def nvmBlock (magic : List Byte) (seq : Nat) (body : List Byte) : List Byte :=
  magic ++ leBytes 8 seq ++ leBytes 4 body.length ++ leBytes 4 (crc32c body).toNat ++ List.replicate 12 0 ++ body

def blockSeq (b : List Byte) : Nat := ofLe ((b.drop 4).take 8)
def blockBody (b : List Byte) : List Byte := (b.drop 32).take (ofLe ((b.drop 12).take 4))

/-- A copy is valid when it carries its MAGIC and its whole body checks. -/
def blockOk (magic b : List Byte) : Bool :=
  b.take 4 == magic && (blockBody b).length == ofLe ((b.drop 12).take 4) && (crc32c (blockBody b)).toNat == ofLe ((b.drop 16).take 4)

/-- R442: the valid copy with the higher SEQ. -/
def newerCopy (magic a b : List Byte) : Option (List Byte) :=
  match blockOk magic a, blockOk magic b with
  | true, true => some (if blockSeq a < blockSeq b then b else a)
  | true, false => some a
  | false, true => some b
  | false, false => none

/-- The SEQ of a copy, 0 for one that is not valid. -/
def copySeq (magic b : List Byte) : Nat := if blockOk magic b then blockSeq b else 0

/-- R442: the copy with the lower SEQ is the one that is written: true for copy B. -/
def writesB (magic a b : List Byte) : Bool := decide (copySeq magic b < copySeq magic a)

/-- R442: the 16 bytes of a repair entry. -/
def repairBytes (e : RepairEnt) : List Byte :=
  [if e.tile then 1 else 2, 0] ++ (if e.tile then leBytes 2 e.unit else leBytes 1 e.unit ++ leBytes 1 e.spare) ++
    leBytes 2 (if e.tile then e.spare else e.slice) ++ leBytes 1 (if e.tile then e.slice else 0) ++ leBytes 1 (b2n e.fused) ++ leBytes 8 e.tick.toNat

/-- A repair entry from its bytes; one of another kind is none. -/
def repairOf (b : List Byte) : Option RepairEnt :=
  let at_ := fun i n => ofLe ((b.drop i).take n)
  match at_ 0 1 with
  | 1 => some ⟨true, at_ 2 2, at_ 4 2, at_ 6 1, decide (at_ 7 1 % 2 = 1), false, false, BitVec.ofNat 64 (at_ 8 8)⟩
  | 2 => some ⟨false, at_ 2 1, at_ 3 1, at_ 4 2, decide (at_ 7 1 % 2 = 1), false, false, BitVec.ofNat 64 (at_ 8 8)⟩
  | _ => none

/-- The entries of a repair record's body. -/
def repairsOf (b : List Byte) : List RepairEnt :=
  (List.range (b.length / 16)).filterMap fun i => repairOf ((b.drop (16 * i)).take 16)

/-- R29: the Spires of the largest instance. -/
def maxSpires : Nat := 16384

/-- R442: the body of a snapshot: tile states, tile pointers, engine pointers, the SEQ of the image. -/
def snapBody (tiles ptrs : List (Nat × Nat)) (engs : List Nat) (seq : W64) : List Byte :=
  let bytes := fun l : List (Nat × Nat) => (List.range maxSpires).map fun i => BitVec.ofNat 8 (((l.find? fun x => x.1 == i).map (·.2)).getD 0)
  bytes tiles ++ bytes ptrs ++ ((List.range 64).map fun i => BitVec.ofNat 8 (engs.getD i 0)) ++ leBytes 8 seq.toNat

/-- The bytes of a span with their places, the zero ones left out. -/
def bytesAt (b : List Byte) (at_ : Nat) (mask : Nat) : List (Nat × Nat) :=
  (((b.drop at_).take maxSpires).zipIdx.map fun x => (x.2, x.1.toNat % mask)).filter fun x => x.2 != 0

/-- R442: at cold reset firmware takes the newer valid copy of the repair record and of the snapshot; what only the firmware that ended knew is
gone. -/
def nvmTaken (n : Nvm) : Nvm :=
  let rep := newerCopy magicRepair n.repA n.repB
  let snap := newerCopy magicSnap n.snapA n.snapB
  let body := (snap.map blockBody).getD []
  { n with
    entries := (rep.map fun b => repairsOf (blockBody b)).getD []
    repairSeq := (rep.map blockSeq).getD 0
    valid := snap.isSome
    snapSeq := (snap.map blockSeq).getD 0
    tiles := bytesAt body 0 8
    ptrs := bytesAt body maxSpires 256
    engPtrs := ((body.drop (2 * maxSpires)).take 64).map (·.toNat)
    imageSeq := BitVec.ofNat 64 (ofLe ((body.drop (2 * maxSpires + 64)).take 8))
    snapPending := false, snapTick := none, repairDue := [], repairPending := false
    ins := [], sfdp := none }

/-- R405, R442: where the copies lie. -/
def repairAddr (b : Bool) : Nat := 0x08000000 + b2n b * 0x40000
def snapAddr (b : Bool) : Nat := 0x08080000 + b2n b * 0x40000

/-- R406, R442: a copy is erased and written, with the instructions that SFDP declares, in the mode in use. -/
def nvmWrite (s : State) (addr len : Nat) : List NvmIns :=
  match s.nvm.sfdp with
  | some d => [.erase d.erase s.boot.mode addr 0x40000, .program d.program s.boot.mode addr len]
  | none => []

/-- R442: the repair record is written: entries marked for removal leave it (R445). R511: deferred while the unit is in its safe
state. -/
def writeRepair (s : State) : State :=
  if inSafe s uNvm then { s with nvm := { s.nvm with repairPending := true } }
  else
    let n := s.nvm
    let es := n.entries.filter fun e => !e.clear
    let toB := writesB magicRepair n.repA n.repB
    let blk := nvmBlock magicRepair (n.repairSeq + 1) (es.flatMap repairBytes)
    { s with nvm := { n with
      entries := es, repairSeq := n.repairSeq + 1, repairPending := false
      repA := if toB then n.repA else blk, repB := if toB then blk else n.repB
      ins := nvmWrite s (repairAddr toB) blk.length } }

/-- R442, R443: the snapshot of tile states and pointers is written. -/
def writeSnapshot (s : State) : State :=
  let n := s.nvm
  let tiles := s.tiles.map fun t => (t.ix, t.state)
  let ptrs := s.tiles.map fun t => (t.ix, t.ptr)
  let engs := s.engines.map (·.ptr)
  let toB := writesB magicSnap n.snapA n.snapB
  let blk := nvmBlock magicSnap (n.snapSeq + 1) (snapBody tiles ptrs engs s.imageSeq)
  { s with nvm := { n with
    valid := true, snapSeq := n.snapSeq + 1, tiles := tiles, ptrs := ptrs, engPtrs := engs, imageSeq := s.imageSeq
    snapPending := false, snapTick := some s.time.tick
    snapA := if toB then n.snapA else blk, snapB := if toB then blk else n.snapB
    ins := nvmWrite s (snapAddr toB) blk.length } }

end Sys2Proof.Machine
end

