-- ==== Sys2Proof/Machine/SelfTest.lean ====
section
/-! DEFINITION. Logic self-test slices, repair and the snapshot (R434 to R445). -/

namespace Sys2Proof.Machine

/-! ### Requests (R436, R438, R240) -/

/-- R436: a request for `n` slices from the rotation pointer, as it stands when the request begins, or for the full set from slice 0. -/
def mkReq (s : State) (sp n : Nat) (inst : Option Nat) (waitIdle : Bool) (ord : Nat) : SliceReq :=
  let size := (fullSet s sp).length
  let ptr := ((getTile s sp).map (·.ptr)).getD 0
  { left := if n = 0 then size else n, next := if n = 0 then 0 else ptr % max size 1, full := n == 0 || decide (n ≥ size), moves := n != 0,
    inst := inst, waitIdle := waitIdle, asked := s.time.tick, ord := ord, begun := false }

def pushReq (s : State) (sp : Nat) (r : SliceReq) : State := updTile s sp fun t => { t with reqs := t.reqs ++ [r] }

/-- R438: a second LBIST_TILE action merges with the one queued, and the larger count is kept. -/
def requestSlices (s : State) (sp n : Nat) : State :=
  onTile s sp fun t =>
    if t.state ≥ stRetired then s
    else
      let r := mkReq s sp n none false 0
      let queued := fun q : SliceReq => !q.begun && q.inst.isNone
      if t.reqs.any queued then
        updTile s sp fun t => { t with reqs := t.reqs.map fun q => if queued q && decide (q.left < r.left) then { r with asked := q.asked } else q }
      else pushReq s sp r

/-- R240, R534: what the first request of a tile says to the command that ordered it. -/
def reqReport (s : State) (r : SliceReq) (result cause : Nat) : State :=
  match r.inst with
  | some i => cmdFinish s i result cause
  | none => s

/-- R435 step 6: no slice runs on the tile any more, and TEST_OFF restores its levels. Unless a handshake is due, the watchdog runs again
(R267). -/
def sliceOff (s : State) (sp : Nat) : State :=
  sendTestOff (updTile s sp fun t => { t with
    run := none, wdHeld := t.wdHeld && !t.resetDone, wd := if t.resetDone then s.time.tick.toNat else t.wd }) sp

/-- The request in front of a tile ends with its slice. -/
def endReq (s : State) (sp result : Nat) : State :=
  onTile s sp fun t =>
    let s1 := sliceOff (updTile s sp fun t => { t with reqs := t.reqs.drop 1 }) sp
    match t.reqs with
    | [] => s1
    | r :: _ => reqReport s1 r result 0

/-! ### Starting a slice (R435, R438, R440) -/

/-- The tiles of a Dome's field with a slice running. -/
def lbistRunning (s : State) (d : Nat) : Nat := (s.tiles.filter fun t => t.ix / 256 == d && t.run.isSome).length

/-- R438: any sensor of the field stands at throttle level 1 or above. -/
def fieldHot (s : State) (d : Nat) : Bool :=
  (s.spires.any fun p => p.ix / 256 == d && decide (p.sensor.lvl ≥ 1)) || ((getDome s d).map fun x => decide (x.sensor.lvl ≥ 1)).getD false

/-- R440: a slice that cannot end within the budget is not started. -/
def inBudget (s : State) (ms : Nat) : Bool :=
  s.thermal.sdtState != 1 ||
    decide (s.time.tick.toNat - s.thermal.sdtStart.toNat + ms * 1000000 ≤ s.thermal.sdtBudget * 1000000)

/-- A tile's front request may start its next slice: no frame to the tile is outstanding, so the levels of the one before are restored. -/
def mayStart (s : State) (t : Tile) : Bool :=
  match t.reqs with
  | r :: _ => t.run.isNone && !t.lost && t.state != stDead && t.resetDone && t.out.isNone && !t.offDue && !s.hang.resetting &&
      decide (r.left > 0) &&
      (!r.waitIdle || r.begun || ((getSp s t.ix).map (·.lv.idle)).getD false) &&
      inBudget s (entryAt (fullSet s t.ix) r.next).maxMs
  | [] => false

/-- R435 step 1, R436, R227: the next slice of the front request starts with TEST_ON; its patterns wait for TT_FENCE_ACK. The slices of a
shut-down self-test run under the TEST_ON of its first step (R440). -/
def startSlice (s : State) (sp : Nat) : State :=
  onTile s sp fun t =>
    match t.reqs with
    | [] => s
    | r :: rest =>
      let size := max 1 (fullSet s sp).length
      let at_ := if r.begun || !r.moves then r.next else t.ptr % size
      let r1 := { r with left := r.left - 1, next := (at_ + 1) % size, begun := true }
      let s1 := updTile s sp fun t => { t with
        reqs := r1 :: rest, run := some ⟨at_, false, s.time.tick, false, false, r.full && !r.begun⟩, wdHeld := true
        lastSlice := s.time.tick }
      let s2 := if s.thermal.sdtState = 1 then tryBegin s1 sp else sendTest s1 sp true
      match r.begun, r.inst with
      | false, some i => cmdState s2 i crRunning
      | _, _ => s2

/-- R438: a Dome starts what it may, in request order. -/
def domeSlices (s : State) (d : Nat) : State :=
  if fieldHot s d then s
  else
    let par := ((area s).map (·.lbistPar)).getD 16
    let cands := (s.tiles.filter fun t => t.ix / 256 == d && mayStart s t).map fun t =>
      (((t.reqs.head?.map fun r => r.asked.toNat).getD 0), ((t.reqs.head?.map fun r => r.ord).getD 0), t.ix)
    let order := cands.insertionSort fun a b => decide (a.1 < b.1) || (a.1 == b.1 && (decide (a.2.1 < b.2.1) || (a.2.1 == b.2.1 && decide (a.2.2 ≤ b.2.2))))
    (order.take (par - lbistRunning s d)).foldl (fun s c => startSlice s c.2.2) s

/-- R440 step 3: an engine of the shut-down self-test starts its next slice. -/
def engineSlice (s : State) (e : Nat) : State :=
  let g := getEng s e
  let es := goldenOf s uEngineSet
  if g.run.isNone && decide (g.left > 0) && inBudget s (entryAt es g.ptr).maxMs then
    updEng s e fun g => { g with run := some ⟨g.ptr, false, s.time.tick, false, true, false⟩, left := g.left - 1 }
  else s

/-- Starts the slices that are due at a Belfry tick. -/
def sliceTick (s : State) : State :=
  let s1 := (s.domes.map (·.ix)).foldl domeSlices s
  if s.thermal.sdtState = 1 then (List.range Config.engBuilt).foldl engineSlice s1 else s1

/-! ### Ends of slices (R435, R437, R439) -/

/-- R440: a slice of the shut-down self-test is counted. -/
def sdtCount (s : State) (pass : Bool) : State :=
  if s.thermal.sdtState ≠ 1 then s
  else { s with thermal := { s.thermal with
    sdtRun := s.thermal.sdtRun + 1, sdtPass := s.thermal.sdtPass + b2n pass, sdtFailed := s.thermal.sdtFailed + b2n !pass } }

/-- R435 step 5: a Spire's Dome reloads it with its tile state and the rate exponent that goes with it, the current epoch of its partition, trim
and thresholds, which stand in the image, and the counters that the Dome kept; what the front end held of operands is gone. -/
def reloadSpire (s : State) (ix : Nat) (sp : Spire) : Spire :=
  { sp with
    epoch := (getPart s (partOfSp s ix)).epoch
    smp := { sp.smp with rate := if sp.tstate = stHealthy then sp.smp.stored else if sp.tstate = stWatch then 8 else 0 }
    pass := none, injSlot := none, refused := [], torn := [], tornOps := [], raw := [], answer := .none }

/-- R435 step 5: a tile slice is followed by the handshake of R72, a Spire slice by a reload. In a shut-down self-test only before a repeat
(R440). -/
def reinit (s : State) (sp : Nat) (e : GoldenEntry) (again : Bool) : State :=
  if s.thermal.sdtState = 1 ∧ !again then s
  else if e.utype = uSpireSet then updSp s sp (reloadSpire s sp)
  else
    let s1 := updTile s sp fun t => { t with resetDone := false }
    updSp s1 sp fun p => { p with lv := { p.lv with rstReq := true, rstAck := false, ready := false } }

/-- R441: a repair is due: firmware looks for it after the actions of the Belfry tick. -/
def repairWanted (s : State) (sp : Nat) (slice : Option Nat) : State := { s with nvm := { s.nvm with repairDue := s.nvm.repairDue ++ [(sp, slice)] } }

/-- R227, R241, R226: a slice of a tile passed. -/
def slicePassed (s : State) (sp : Nat) (r : SliceRun) : State :=
  let s1 := sdtCount (thmCount s thPass 1) true
  let size := max 1 (fullSet s sp).length
  let s2 := updTile s1 sp fun t => { t with
    run := none
    ptr := if ((t.reqs.head?.map (·.moves)).getD false) then (r.slice + 1) % size else t.ptr
    watch := t.watch.map fun w => { w with slice := true } }
  onTile s2 sp fun t =>
    match t.reqs with
    | q :: _ =>
      if q.left = 0 then
        endReq (if q.full then updTile s2 sp fun t => { t with fullPass := some s.time.tick } else s2) sp crPass
      else if s.thermal.sdtState = 1 then s2
      else sliceOff s2 sp
    | [] => s2

/-- R444: a recorded slice fails SOLID again in the shut-down self-test. -/
def solidAgain (s : State) (sp slice : Nat) : State :=
  { s with nvm := { s.nvm with entries := s.nvm.entries.map fun e =>
    { e with solid := e.solid || (s.thermal.sdtState == 1 && e.tile && e.unit == sp && e.slice == slice) } } }

/-- R437: the second run has judged a failure: its record, its input, its repair; the request ends. -/
def sliceFailed (s : State) (sp : Nat) (e : GoldenEntry) (r : SliceRun) (solid : Bool) (sig : W64) (us : W32) : State :=
  let s1 := sdtCount (thmCount s thFail 1) false
  let s2 := addRec s1 (lbistRec s1 sp (partOfSp s sp) sp e (if solid then lbSolid else lbFlaky) sig us)
  let s3 := tileInput s2 0x10 sp (if solid then 1 else 2)
  let size := max 1 (fullSet s sp).length
  let s4 := updTile s3 sp fun t => { t with
    fullPass := none
    ptr := if ((t.reqs.head?.map (·.moves)).getD false) then (r.slice + 1) % size else t.ptr }
  endReq (if solid then solidAgain (repairWanted s4 sp (some r.slice)) sp r.slice else s4) sp crFail

/-- R433, R441: the checker self-test of a Spire failed as the first part of a full self-test: the slice that followed it is judged no more, the
unit is re-initialised, the request ends, and the tile's repair is due. -/
def checkerFailed (s : State) (sp : Nat) (e : GoldenEntry) (sig : W64) (us : W32) : State :=
  let s1 := reinit (updWrap (addMeter s (partOfSp s sp) mTest us.toNat) sp e fun c => wrapEnd c (some sig)) sp e false
  endReq (repairWanted (tileInput s1 0x15 sp 0) sp none) sp crFail

/-- R437: a slice of a tile ends with a signature or none. -/
def tileSliceEnd (s : State) (sp : Nat) (sig : Option W64) (us : W32) : State :=
  onTile s sp fun t =>
    match t.run with
    | none => s
    | some r => if !r.going then s else
      let e := entryAt (fullSet s sp) r.slice
      let s1 := updWrap (addMeter s t.part mTest us.toNat) sp e fun c => wrapEnd c sig
      match sig == some e.sig, r.again with
      | true, false => slicePassed (reinit s1 sp e false) sp r
      | false, false =>
        tryBegin (updTile (reinit s1 sp e true) sp fun t => { t with run := some ⟨r.slice, true, s.time.tick, false, false, r.first && sig.isNone⟩ }) sp
      | true, true => sliceFailed (reinit s1 sp e false) sp e r false (sig.getD 0) us
      | false, true => sliceFailed (reinit s1 sp e false) sp e r true (sig.getD 0) us

/-- A slice of an engine in the shut-down self-test ends; R437's input for an engine concerns no tile. -/
def engSliceEnd (s : State) (x : Nat) (sig : Option W64) (us : W32) : State :=
  let g := getEng s x
  match g.run with
  | none => s
  | some r =>
    let es := goldenOf s uEngineSet
    let e := entryAt es r.slice
    let s1 := addMeter s 0 mTest us.toNat
    let next := (r.slice + 1) % max 1 es.length
    let fail := fun (solid : Bool) (s : State) =>
      updEng (engineOut (engSliceFail (sdtCount s false) x e solid (sig.getD 0) us) x .failed) x fun g =>
        { g with run := none, left := 0, ptr := next }
    match sig == some e.sig, r.again with
    | true, false => updEng (sdtCount (thmCount s1 thPass 1) true) x fun g => { g with run := none, ptr := next }
    | false, false => updEng s1 x fun g => { g with run := some ⟨r.slice, true, s.time.tick, false, true, false⟩ }
    | true, true => fail false s1
    | false, true => fail true s1

def unitSliceEnd (s : State) (u : TestUnit) (sig : Option W64) (us : W32) : State :=
  match u with
  | .tile sp => tileSliceEnd s sp sig us
  | .engine e => engSliceEnd s e sig us

/-- R435 step 3: the Dome reads DONE of a slice whose patterns run. -/
def execDonePoll (u : TestUnit) (done : Bool) (s : State) : Host.Outcome State Fault Refusal :=
  let mark := fun r : SliceRun => { r with doneSeen := r.doneSeen || (done && r.going) }
  .next (match u with
    | .tile sp =>
      let s1 := updTile s sp fun t => { t with run := t.run.map mark }
      match ((getTile s sp).bind (·.run)) with
      | some r => if done && r.going then updWrap s1 sp (entryAt (fullSet s sp) r.slice) wrapDone else s1
      | none => s1
    | .engine e => updEng s e fun g => { g with run := g.run.map mark })

/-- R435, R437; R433: a full self-test begins with the checker self-test, whose result comes with the first slice that ends with DONE. -/
def execSliceDone (u : TestUnit) (r : SliceEnd) (us : W32) (s : State) : Host.Outcome State Fault Refusal :=
  .next (match u with
    | .tile sp => onTile s sp fun t =>
      match t.run with
      | some q =>
        if q.first && q.going && !r.checker.passes then checkerFailed s sp (entryAt (fullSet s sp) q.slice) r.sig us
        else unitSliceEnd s u (some r.sig) us
      | none => s
    | .engine _ => unitSliceEnd s u (some r.sig) us)

/-- R435, R91: no DONE within MAX_MS is TAPVIOL 0x70, counted as a failed self-test. The slice has taken MAX_MS. -/
def execSliceTimeout (u : TestUnit) (s : State) : Host.Outcome State Fault Refusal :=
  .next (match u with
    | .tile sp => onTile s sp fun t =>
      match t.run with
      | some r =>
        if r.doneSeen ∨ !r.going then s
        else
          let e := entryAt (fullSet s sp) r.slice
          let us : W32 := BitVec.ofNat 32 (e.maxMs * 1000)
          let s1 := tapViol s .tapviol sp none 0x70 0 0
          unitSliceEnd (addRec s1 (lbistRec s1 sp (partOfSp s sp) sp e lbTimeout 0 us)) u none us
      | none => s
    | .engine x =>
      match (getEng s x).run with
      | some r =>
        if r.doneSeen then s
        else
          let e := entryAt (goldenOf s uEngineSet) r.slice
          let us : W32 := BitVec.ofNat 32 (e.maxMs * 1000)
          unitSliceEnd (addRec s (lbistRec s 0xFFFF 0 x e lbTimeout 0 us)) u none us
      | none => s)

/-- R439: a running slice of a tile ends ABORTED, and with it its request; its wrapper is left in bypass (DESIGN CHOICE, log 106). -/
def abortSlice (s : State) (t : Tile) : State := if t.run.isNone then s else endReq (abortRun s t) t.ix crAborted

/-- R439: every running slice of the die ends ABORTED. -/
def abortSlices (s : State) : State :=
  let s1 := s.tiles.foldl abortSlice s
  (List.range Config.engBuilt).foldl (fun s x =>
    match (getEng s x).run with
    | some r =>
      let e := entryAt (goldenOf s uEngineSet) r.slice
      let us := sliceUs s r
      updEng (addMeter (addRec (thmCount s thAbort 1) (lbistRec s 0xFFFF 0 x e lbAborted 0 (BitVec.ofNat 32 us))) 0 mTest us) x
        fun g => { g with run := none, left := 0 }
    | none => s) s1

/-! ### On-demand tests (R239, R240) -/

/-- R239, R240: the Belfry takes a TEST command. Another TEST of the partition is queued when it stands behind a tile's front request or
behind the running command of another instance (log 88). -/
def runTest (s : State) (i : Nat) (w : W32) : State :=
  let sp := cmdSpire w
  let p := partOfSp s sp
  let behind := s.tiles.any fun t => t.part == p && (t.reqs.drop 1).any fun r => r.inst.isSome
  let queued := (List.range 17).any fun j => j != i && (((getCmd s j).queued.map fun v =>
    cmdOp v == cmdTest && partOfSp s (cmdSpire v) == p)).getD false
  match stateOf s sp with
  | 4 => cmdFinish s i crRefused ccDead
  | 3 => cmdFinish s i crRefused ccRetired
  | _ =>
    if behind || queued then cmdFinish s i crRefused ccBusy
    else
      let idle := ((getTile s sp).map fun t => t.reqs.isEmpty).getD false
      let s1 := pushReq s sp (mkReq s sp (cmdArg w) (some i) (cmdFlag w) 0)
      if idle then cmdState s1 i crRunning else s1

/-- R240: TT_IDLE did not come within 100 ms. -/
def execNotidleTimeout (who : Requester) (s : State) : Host.Outcome State Fault Refusal :=
  let i := instOf who
  let mine := fun r : SliceReq => r.inst == some i && r.waitIdle && !r.begun
  .next (match s.tiles.find? fun t => t.reqs.any mine && !((getSp s t.ix).map (·.lv.idle)).getD false with
    | some t =>
      cmdFinish (updTile s t.ix fun t => { t with reqs := t.reqs.filter fun r => !mine r }) i crRefused ccNotIdle
    | none => s)

/-! ### Repair (R441) -/

/-- R441: the REPAIR record. -/
def repairRec (s : State) (kind unit spare : Nat) (fused : Bool) (cause : Nat) : Rec :=
  ⟨.repair, s.time.tick, if kind = 1 then unit else 0xFFFF, if kind = 1 then partOfSp s unit else 0,
    w3of (if kind = 1 then unit else 0xFFFF) (if kind = 1 then partOfSp s unit else 0) 0,
    [BitVec.ofNat 32 kind, BitVec.ofNat 32 unit, BitVec.ofNat 32 spare, BitVec.ofNat 32 (b2n fused), BitVec.ofNat 32 cause]⟩

/-- R441: the first spare of the partition and tile type that is HEALTHY and unused. -/
def spareFor (s : State) (sp : Nat) : Option Nat :=
  (getPart s (partOfSp s sp)).spares.find? fun x =>
    x != sp && tileType s x == tileType s sp && partOfSp s x == partOfSp s sp && stateOf s x == stHealthy

/-- R21, R441: a failed tile that is FENCED is retired when a spare stands for it; the repair of one not yet FENCED stays due. The entry names
the failing slice by its position in the full set, or reads 0 after CHECKER_FAIL (DESIGN CHOICE, log 99); R444 fuses the first kind. -/
def repairTile (s : State) (due : Nat × Option Nat) : State :=
  let sp := due.1
  let p := partOfSp s sp
  if stateOf s sp ≥ stRetired then s
  else if stateOf s sp < stFenced then { s with nvm := { s.nvm with repairDue := s.nvm.repairDue ++ [due] } }
  else match spareFor s sp with
    | none => thmCount s thNospare 1
    | some x =>
      let s1 := changeState s sp stRetired tcRepair 0xFFFF 1 s.time.tick 0 0
      let s2 := updPart s1 p fun q => { q with spares := q.spares.filter (· != x) }
      let s3 := { s2 with nvm := { s2.nvm with
        entries := s2.nvm.entries ++ [⟨true, sp, x, due.2.getD 0, false, false, due.2.isSome && s.thermal.sdtState == 1, s.time.tick⟩] } }
      addRec (writeRepair s3) (repairRec s3 1 sp x false 1)

/-- R441: firmware takes the repairs due. -/
def repairTick (s : State) : State :=
  s.nvm.repairDue.foldl repairTile { s with nvm := { s.nvm with repairDue := [] } }

/-! ### The snapshot (R443) -/

/-- R443, R511: at most once per 100 ms, when a change is waiting and the unit is not in its safe state. -/
def execSnapshotWrite (s : State) : Host.Outcome State Fault Refusal :=
  let due := s.nvm.snapPending && (s.nvm.snapTick.map fun t => decide (s.time.tick.toNat - t.toNat ≥ 100000000)).getD true
  .next (if due && !inSafe s uNvm then writeSnapshot s else s)

end Sys2Proof.Machine
end

