-- ==== Sys2Proof/Machine/Tap.lean ====
section
/-! DEFINITION. The Tile Tap (02): descriptors, operand and result streams, the inject slot, burst continuity, fence
acknowledge, heartbeat, progress and the reset handshake. -/

namespace Sys2Proof.Machine

/-! ### The tap -/

/-- R77, R237: a tap works unless it was disabled, its version was not read yet, or the Spire is lost. -/
def tapLive (s : State) (sp : Spire) : Bool :=
  !sp.tap.off && (sp.tap.ver == 2 || sp.tap.ver == 3) && !((getTile s sp.ix).map (·.lost)).getD false

/-- R51, R76: beats of one descriptor. -/
def dscBeats (sp : Spire) : Nat := if sp.tap.ver = 2 then 8 else 4

def ignore (s : State) (ix n : Nat) : State := spCount s ix kIgn n

/-- Bytes of one beat on the tap. -/
def tapBytes (sp : Spire) : Nat := beatBits sp.tap.ver / 8

/-- The operand and result beats of an operation taken so far (R92, word 7). -/
def opaBeats (sp : Spire) (o : OpCtx) : Nat := o.opBytes / tapBytes sp
def resBeats (sp : Spire) (o : OpCtx) : Nat := o.resBytes / tapBytes sp

/-! ### Early closure (R54, R65, R67, R72, R91) -/

/-- R160, R198: the replay cause that goes with an early closure. -/
def closureReplay : Closure → Nat
  | .torn => 0x01 | .fenced => 0x02 | .reset => 0x03 | .contract => 0x0E | .rows => 0x0E | .dead => 0x0F

/-- R191: a fence spares the samples whose witness is complete. -/
def spared (c : Closure) (cap : Capture) : Bool := cap.dropped || (c == .fenced && cap.resSent)

/-- R476: the ERA and STEP at which an operation was acknowledged, which its layer key holds; the present ones for a LATE operation. -/
def ackedAt (q : Part) (uid : Nat) : W16 × W32 :=
  ((q.keys.find? fun k => k.ops.any fun o => o.uid == uid).map fun k => (k.era, k.step)).getD (q.pos.era, q.pos.step)

/-- R480: a refused dump is counted and posted with a zero length. -/
def refuseDump (s : State) (p ix : Nat) : State :=
  post { s with trc := { s.trc with dumpref := satInc s.trc.dumpref } } p .dumpDone ix [0, 0]

/-- R478, R479: a running capture ends with its operation; the captured bytes go to the partition's dumps, or are refused
for want of BULK quota (R480). -/
def endDump (s : State) (ix : Nat) (o : OpCtx) : State :=
  if !o.dumping then s
  else
    onSp s ix fun sp =>
      let p := partOfSp s ix
      let bytes := sp.trc.dumpOut ++ sp.trc.dump
      let s1 := updSp s ix fun sp => { sp with trc := { sp.trc with
        capture := false, dump := [], dumpOut := [], dumpScl := [], beats := [], sclBeats := [], dumpGaps := [], dumpLost := 0 } }
      let late := ((getOp s o.uid).map (·.late)).getD o.late
      let od := sdFinish (opEnv s sp o.dsc).kD o.dig.od
      if quotaOk s p lvBulk then
        updPart (addUse s1 p (linesOf bytes.length)) p fun q => { q with
          dumpQ := q.dumpQ ++ [⟨o.uid, ix, (ackedAt q o.uid).1, (ackedAt q o.uid).2, o.dsc, late, od, bytes, sp.trc.beats, sp.trc.dumpLost, sp.trc.dumpGaps⟩] }
      else refuseDump (refuseQuota s1 p) p ix

/-- The closed context stands behind the others, in closing order; its pass and its inject slot, if open, are dropped. -/
def shutCtx (sp : Spire) (uid : Nat) (f : OpCtx → OpCtx) : Spire :=
  let mine := (sp.ops.filter fun o => o.uid == uid).map f
  let tag := (mine.head?.map fun o => dStag o.dsc).getD 0
  { sp with
    ops := (sp.ops.filter fun o => o.uid != uid) ++ mine
    injSlot := if sp.injSlot = some uid then none else sp.injSlot
    pass := match sp.pass with
      | some p => if p.tag = tag then none else some p
      | none => none }

/-- R460: a Spire's TCLK cycles up to now: all of them, and those with an open descriptor. -/
def countCycles (s : State) (ix : Nat) : State :=
  onSp s ix fun sp =>
    let n := (Config.tclkCycles ix sp.cycFrom s.time.tick).toNat
    let s1 := addBigSp s ix 5 n
    updSp (if (openOps sp).isEmpty then s1 else addBigSp s1 ix 4 n) ix fun sp => { sp with cycFrom := s.time.tick }

/-- An operation closes early: its groups carry the cause, its samples are abandoned. -/
def closeOpEarly (s : State) (ix : Nat) (o : OpCtx) (c : Closure) : State :=
  let s1 := (o.caps.filter fun k => !spared c k).foldl (fun s k => send s (.abandon ix o.uid k.row (closureReplay c) true)) s
  let s2 := countCycles (endDump s1 ix o) ix
  updSp s2 ix fun sp => shutCtx sp o.uid fun x => { x with
    closed := true, closure := some (x.closure.getD c), endTick := s.time.tick, dumping := false,
    cycles := Config.tclkCycles ix x.ackTick s.time.tick
    caps := x.caps.map fun k => { k with dropped := k.dropped || !spared c k } }

/-- Every open operation of a Spire closes with one cause. -/
def closeAll (s : State) (ix : Nat) (c : Closure) : State :=
  onSp s ix fun sp => (openOps sp).foldl (fun s o => closeOpEarly s ix o c) s

/-! ### Sampling (R163 to R169) -/

/-- R164: one step of the generator. -/
def lfsrStep (x : W64) : W64 :=
  let f := xor (xor (bitOf x 63) (bitOf x 62)) (xor (bitOf x 60) (bitOf x 59))
  x <<< (1 : Nat) + BitVec.ofNat 64 (b2n f)

/-- R164: a draw advances the generator 64 steps. -/
def lfsrDraw (x : W64) : W64 := (List.range 64).foldl (fun y _ => lfsrStep y) x

/-- R169: columns of the value window. -/
def nCap (f : Fmt) : Nat := if f = .opq then 0 else 32 * (65536 / (32 * fmtWidth f))

/-- R164, R166, R167: the rows sampled, with their kinds, and the generator after the row draws. -/
def drawRows (m : SmpSt) (rows : Nat) : List (Nat × Nat) × W64 :=
  (List.range rows).foldl (fun a i =>
    let x := if m.rate = 0 then a.2 else lfsrDraw a.2
    let drawn := m.rate != 0 && x.toNat / 2 ^ (64 - m.rate) == 0
    let forced := decide (i < m.force)
    if drawn || forced then (a.1 ++ [(i, if drawn && m.watch then 2 else if forced then 1 else 0)], x) else (a.1, x)) ([], m.lfsr)

/-- R169: the first column of each sampled row's value window, one draw each where a window is needed. -/
def drawWindows (d : Dsc) (rows : List (Nat × Nat)) (x : W64) : List Capture × W64 :=
  let cap := nCap (dC d)
  rows.foldl (fun a r =>
    if dN d ≤ cap then (a.1 ++ [⟨r.1, 0, r.2, [], [], [], [], false, false⟩], a.2)
    else
      let y := lfsrDraw a.2
      let u := y.toNat * ((dN d - cap) / 32 + 1) / 2 ^ 64
      (a.1 ++ [⟨r.1, 32 * u, r.2, [], [], [], [], false, false⟩], y)) ([], x)

/-- R163, R166: the draws at an ACK; forced rows are used up by an eligible operation. -/
def drawSamples (sp : Spire) (d : Dsc) (eligible : Bool) : List Capture × SmpSt :=
  if !eligible then ([], sp.smp)
  else
    let r := drawRows sp.smp (dMt d)
    let w := drawWindows d r.1 r.2
    (w.1, { sp.smp with lfsr := w.2, force := 0 })

/-! ### DESCRIPTOR (R51 to R56, R91) -/

/-- R52, R91: the first failing check of a descriptor, in table order. -/
def dscCheck (s : State) (sp : Spire) (d : Dsc) : Option Byte :=
  let kind := dKind d
  let opaq := dA d == .opq || dB d == .opq || dC d == .opq || dAcc d == .opq
  let cls := comboClass (dA d) (dB d) (dC d) (dAcc d)
  let ctr := if dContract d < 64 then contractRec s (dContract d) else none
  let ctrBad := match ctr, cls with
    | none, _ => true
    | some c, some k => !opaq && (ctrAcc c != dAcc d || !classMeets k c)
    | some _, none => false
  if !dCrcOk d then some 0x01
  else if (kind != 1 && kind != 2) || dReserved d || (kind == 1 && !opaq && cls.isNone) then some 0x02
  else if kind == 1 && ctrBad then some 0x03
  else if dMt d = 0 ∨ dMt d > 4096 ∨ (kind = 1 ∧ (isMx (dA d) ∨ isMx (dB d)) ∧ dK d % 32 ≠ 0) ∨ (kind = 2 ∧ dK d ≠ 1) then some 0x04
  else if (openOps sp).length ≥ 4 then some 0x05
  else if (findOpen sp (dStag d)).isSome then some 0x06
  else none

/-- R55, R91, R480: a descriptor is refused: NACK, one record, raw digest started, coverage deficit for a fifth descriptor, no dump. -/
def refuseDsc (s : State) (sp : Spire) (d : Dsc) (code : Byte) : State :=
  let ix := sp.ix
  let p := partOfSp s ix
  let tag := dStag d
  let s1 := updSp (spCount s ix kUnchk 1) ix fun t => { t with
    answer := .nack code, refused := [tag],
    raw := t.raw.filter (fun r => r.tag != tag) ++ [⟨tag, Sd.empty, 0, d⟩] }
  let s2 := if code = 0x05 then addDeficit s1 p 1 else s1
  let known := if code = 0x01 then none else some d
  let s3 := tapViol s2 .tapviol ix known code tag (dscBeats sp)
  let s4 := if code = 0x01 then s3 else refuseKey s3 p d
  let s5 := if code ≠ 0x01 ∧ dDump d then refuseDump s4 p ix else s4
  trace s5 ix 0x11 false false tag (if code = 0x01 then 0xFFFF else dLayer d) (if code = 0x01 then 0xFFFF else dOper d) code.toNat

/-- R476: an armed dump command is taken by the first operation with its TENSOR at its STEP and ERA. -/
def armedFor (q : Part) (d : Dsc) : Bool :=
  match q.armed with
  | some a => a.tensor == dTensor d && a.step == q.pos.step && (match a.era with
    | some e => e == q.pos.era
    | none => true)
  | none => false

/-- R476, R480: whether the accepted operation is dumped; a refused dump is counted and posted with a zero length. -/
def startDump (s : State) (sp : Spire) (d : Dsc) : Bool × State :=
  let p := partOfSp s sp.ix
  let q := getPart s p
  let armed := armedFor q d
  if !dDump d && !armed then (false, s)
  else
    let s1 := if armed then dumpOver (updPart s p fun q => { q with armed := none }) p 2 else s
    if !privBit s p 1 || sp.trc.capture || !dMatmul d || inSafe s uTrc then
      (false, refuseDump s1 p sp.ix)
    else
      (true, updSp s1 sp.ix fun t => { t with trc := { t.trc with
        capture := true, dump := [], dumpOut := [], dumpScl := [], beats := [], sclBeats := [], dumpGaps := [], dumpLost := 0 } })

/-- R218: an accepted descriptor on a HEALTHY or WATCH tile may be the rerun that an open ticket asks for. -/
def takeRerun (s : State) (uid : Nat) : State :=
  onOp s uid fun n =>
    if stateOf s n.spire > stWatch then s
    else
      let fits := fun t : Ticket => match getOp s t.uid with
        | some o => o.rerunBy.isNone && o.part == n.part && o.spire != n.spire && sameButStag o.dsc n.dsc
        | none => false
      match s.tickets.find? fits with
      | none => s
      | some t =>
        updOp (updOp s t.uid fun o => { o with rerunBy := some uid, rerunSpire := n.spire }) uid
          fun n => { n with rerunOf := some t.uid }

/-- R208: the STEP current at the first operation of an envelope's key. -/
def noteFirst (s : State) (p : Nat) (d : Dsc) : State :=
  let rr := rangeOf s p d
  updPart s p fun q =>
    if !rEnvEn rr ∨ rLearn rr = 0 ∨ q.envFirst.any (fun f => f.1 == dLayer d && f.2.1 == dOper d) then q
    else { q with envFirst := q.envFirst ++ [(dLayer d, dOper d, q.pos.step)] }

/-- R213, R243, R244, R289, R336: the Keep takes the ACK: the verdict's entry, LATE by its own epoch, layer key, checkpoint tensor. -/
def keepAck (s : State) (uid ix : Nat) (d : Dsc) (samples : Nat) : State :=
  let p := partOfSp s ix
  let q := getPart s p
  let late := earlierThan (dEpoch d) q.epoch
  let o : OpV :=
    { uid := uid, spire := ix, part := p, dsc := d, ackTick := s.time.tick, endTick := s.time.tick, late := late,
      checkable := dCheckable d, varies := opVaries s d, state := .opened, scr := none, range := 0, rangeSusp := false,
      samples := if late then 0 else samples, samplesOpen := if late then 0 else samples, skipped := 0, replay := vPass, mm := 0,
      res := none, outcome := 0, ticket := none, rerunOf := none, rerunBy := none, rerunSpire := 0xFFFF, deadClosed := false,
      disagree := false, forced := none, verdict := 0, resolveTick := 0, od := none, interval := !late }
  let s1 := noteFirst { s with ops := s.ops ++ [o] } p d
  let s2 := if late then updCnt s1 p fun c => { c with late := satInc c.late }
    else
      let s3 := updTile s1 ix fun t => { t with
        acceptedEpochs := if dEpoch d ∈ t.acceptedEpochs then t.acceptedEpochs else t.acceptedEpochs ++ [dEpoch d] }
      let add := fun w : Window =>
        if w.phase = 0 ∧ !(dTensor d ∈ w.ckptTensors) then { w with ckptTensors := w.ckptTensors ++ [dTensor d] } else w
      let s4 := if !dCkpt d then s3 else updPart s3 p fun q => { q with
        window := q.window.map add
        named := if dTensor d ∈ q.named then q.named else q.named ++ [dTensor d] }
      joinKey s4 uid
  takeRerun s2 uid

/-- R52 to R54, R129, R163: a descriptor is accepted. -/
def acceptDsc (s : State) (sp : Spire) (d : Dsc) : State :=
  let ix := sp.ix
  let uid := s.opSeq
  let late := earlierThan (dEpoch d) sp.epoch
  let chk := dCheckable d
  let dm := startDump s sp d
  let draws := drawSamples sp d (chk && !late && !inSafe s (uSpire ix))
  let o := { openCtx s sp uid d late (decide (dGroups d ≤ grpFree sp)) dm.1 with caps := draws.1 }
  let s1 := updSp (countCycles { dm.2 with opSeq := uid + 1 } ix) ix fun t => { t with
    ops := t.ops ++ [o], smp := draws.2, answer := .ack, raw := t.raw.filter fun r => r.tag != dStag d }
  let s2 := spCount s1 ix kOps 1
  let s3 := if chk then s2 else spCount s2 ix kUnchk 1
  let s4 := if late then spCount s3 ix kLate 1 else s3
  let s5 := spCount s4 ix kSmpl draws.1.length
  let s6 := keepAck s5 uid ix d draws.1.length
  let s7 := trace (if stateOf s6 ix = stDead then closeInKeep s6 uid else s6) ix 0x10 false late (dStag d) (dLayer d) (dOper d) (dMt d)
  draws.1.foldl (fun s k =>
    trace (send s (.notice ix uid k.row k.kind k.winFirst s.time.tick)) ix 0x16 false late (dStag d) (dLayer d) (dOper d) k.row) s7

/-- The operation of the pass in progress. -/
def passOp (sp : Spire) : Option OpCtx := sp.pass.bind fun p => findOpen sp p.tag

/-- R91, CONTRACTVIOL 0x21: a pass that has ended without its inject slot when the next thing begins. -/
def missedInject (s : State) (ix : Nat) : State :=
  onSp s ix fun sp =>
    match sp.pass, passOp sp with
    | some p, some o =>
      if p.ended then closeOpEarly (tapViol s .contractviol ix (some o.dsc) 0x21 (dStag o.dsc) (opaBeats sp o)) ix o .contract else s
    | _, _ => s

/-- R52: the meaning of a descriptor. -/
def takeDescriptor (s : State) (ix : Nat) (d : Dsc) : State :=
  onSp s ix fun sp0 =>
    let s0 := if stopped s ix then c4Violation s (partOfSp s ix) else s
    if !tapLive s sp0 then s0
    else if sp0.lv.ft then ignore s0 ix (dscBeats sp0)
    else
      let s1 := missedInject (updSp s0 ix fun t => { t with
        refused := [], torn := [], tornOps := t.tornOps.filter fun x => x.1 != dStag d }) ix
      onSp s1 ix fun sp =>
        match dscCheck s1 sp d with
        | some code => refuseDsc s1 sp d code
        | none => acceptDsc s1 sp d

def execDescriptor (ix : Nat) (d : BitVec 256) (s : State) : Host.Outcome State Fault Refusal := .next (takeDescriptor s ix d)

/-! ### Operand stream (R57, R58, R128, R130, R168) -/

/-- R168, R171: a sampled row's fragment leaves for the Keep when the staging buffer has room, else the sample is abandoned. -/
def flushFragment (s : State) (ix uid : Nat) (f : Fmt) (k : Capture) : State :=
  onSp s ix fun sp =>
    let n := (rowBytes f k.codes k.scl).length
    let clear := fun (drop : Bool) (c : Capture) =>
      if c.row = k.row then { c with codes := [], scl := [], dropped := c.dropped || drop } else c
    let mark := fun (drop : Bool) => updSp s ix fun sp => { sp with
      staging := if drop then sp.staging else sp.staging + n
      ops := sp.ops.map fun o => if o.uid = uid then { o with caps := o.caps.map (clear drop) } else o }
    if sp.staging + n ≤ 16384 then send (mark false) (.fragment ix uid k.row k.codes k.scl)
    else send (mark true) (.abandon ix uid k.row 0x22 false)

/-- The sampled row of a pass takes a beat's elements. -/
def capOperand (row : Nat) (codes : List Nat) (scl : List Byte) (k : Capture) : Capture :=
  if k.row = row ∧ !k.dropped then { k with codes := k.codes ++ codes, scl := k.scl ++ scl } else k

/-- R65: the next beat of a held stream resumes it. -/
def resume (s : State) (ix : Nat) (o : OpCtx) (res held : Bool) : State :=
  if !held then s
  else
    let c := cycles s
    let d := o.dsc
    trace (trace c.2 ix 0x17 false o.late (dStag d) (dLayer d) (dOper d) 1) ix 0x22 true o.late (dStag d) (dLayer d) (dOper d)
      (c.1 % 2 ^ 31 + (if res then 2 ^ 31 else 0))

/-- R65, R155: a held burst becomes TORN; the stream's later beats are ignored until the next descriptor, and of an operation whose
operand burst is TORN the result rows and inject requests too, for which R155 sets no end. -/
def tearOp (s : State) (ix : Nat) (o : OpCtx) (res : Bool) : State :=
  let d := o.dsc
  let s1 := closeOpEarly (trace s ix 0x17 false o.late (dStag d) (dLayer d) (dOper d) 2) ix o .torn
  updSp s1 ix fun sp => { sp with
    torn := sp.torn ++ [(dStag d, res)]
    tornOps := if res then sp.tornOps else sp.tornOps ++ [(dStag d, dPasses d - o.passesDone)] }

/-- The burst of an operation on a stream is held. -/
def heldOn (res : Bool) (o : OpCtx) : Bool := if res then o.resRow.stalled else o.opRow.stalled

/-- R65: a beat that carries another tag than a held burst of its stream makes that burst TORN. -/
def tearOthers (s : State) (ix : Nat) (tag : W16) (res : Bool) : State :=
  onSp s ix fun sp => ((openOps sp).filter fun o => heldOn res o && dStag o.dsc != tag).foldl (fun s o => tearOp s ix o res) s

/-- A beat's elements of a row of `len` at `col`: how many it carries, and whether the row has a wrong length (R57, R91). -/
def beatTake (per len col : Nat) (last : Bool) : Nat × Bool :=
  let n := min per (len - col)
  (n, if last then decide (col + n ≠ len) else decide (col + n ≥ len))

/-- R91: an operand row or pass of the wrong length. -/
def badPass (s : State) (ix : Nat) (o : OpCtx) (beats : Nat) : State :=
  closeOpEarly (tapViol s .tapviol ix (some o.dsc) 0x11 (dStag o.dsc) beats) ix o .rows

/-- R468: the entries at the end of an operand row, and of a pass. -/
def traceRow (s : State) (ix : Nat) (o : OpCtx) (last done : Bool) : State :=
  let d := o.dsc
  let s1 := if last then
      let c := cycles s
      trace c.2 ix 0x20 true o.late (dStag d) (dLayer d) (dOper d) c.1
    else s
  if done then trace s1 ix 0x12 false o.late (dStag d) (dLayer d) (dOper d) o.passesDone else s1

/-- The operand beat of a checkable operation. -/
def screenOperand (s : State) (sp : Spire) (o : OpCtx) (b : Beat) : State :=
  let ix := sp.ix
  let d := o.dsc
  let f := dA d
  if o.passesDone ≥ dPasses d then badPass s ix o (opaBeats sp o + 1)
  else
    let ps := sp.pass.getD (newPass d o.passesDone)
    if ps.ended then closeOpEarly (tapViol s .contractviol ix (some d) 0x21 (dStag d) (opaBeats sp o + 1)) ix o .contract
    else
      let len := dPassLen d o.passesDone
      let t := beatTake (perBeat f (beatBits sp.tap.ver)) len ps.pos.col b.last
      if t.2 then badPass s ix o (opaBeats sp o + 1)
      else
        let e := opEnv s sp d
        let a := opaBeat e f len b t.1 ⟨ps, false, 0, 0⟩
        let row := ps.pos.row
        let codes := (List.range t.1).map (elemOf f b.data)
        let scl := beatScales f b t.1
        let pos : StreamPos := if b.last then { a.ps.pos with row := row + 1, col := 0, beats := a.ps.pos.beats + 1 }
          else { a.ps.pos with col := ps.pos.col + t.1, beats := a.ps.pos.beats + 1 }
        let done := b.last && row + 1 == dMt d
        let floats := e.cls != some .integer
        let s1 := updSp (resume s ix o false o.opRow.stalled) ix fun sp =>
          putOpen { sp with pass := some { a.ps with pos := pos, ended := done } } (dStag d) fun o => { o with
            floorEv := o.floorEv || (a.floor && floats), optaint := o.optaint || !a.ps.taint.isEmpty,
            caps := o.caps.map (capOperand row codes scl), opBytes := o.opBytes + tapBytes sp,
            opRow := { o.opRow with stalled := false, beats := o.opRow.beats + 1 },
            dig := digOperand e o.dig (beatElemBytes f b t.1) scl b.last }
        let s2 := spCount (spCount s1 ix kOvr a.ovr) ix kNonfin a.nonfin
        let s3 := if b.last then
            (o.caps.filter fun k => k.row == row && !k.dropped).foldl
              (fun s k => flushFragment s ix o.uid f (capOperand row codes scl k)) s2
          else s2
        traceRow s3 ix o b.last done

/-- R91, R288: the operand beat of an accepted operation that no screen follows enters its operand digest; its rows and passes are judged
as those of a checkable one. Rows whose A is OPAQUE are delimited by TT_OPA_LAST, each beat whole, and their length is not judged
(log 15). -/
def plainOperand (s : State) (sp : Spire) (o : OpCtx) (b : Beat) : State :=
  let ix := sp.ix
  let d := o.dsc
  let f := dA d
  let e := opEnv s sp d
  let len := dPassLen d o.passesDone
  let t := beatTake (perBeat f (beatBits sp.tap.ver)) len o.opRow.col b.last
  if f ≠ .opq ∧ (o.passesDone ≥ dPasses d ∨ t.2 = true) then badPass s ix o (opaBeats sp o + 1)
  else
    let n := t.1
    let bytes := if f = .opq then beatBytes sp.tap.ver b.data else beatElemBytes f b n
    let done := b.last && o.opRow.row + 1 == dMt d
    let s1 := updSp (resume s ix o false o.opRow.stalled) ix fun sp => putOpen sp (dStag d) fun o => { o with
      opBytes := o.opBytes + tapBytes sp
      passesDone := if done then o.passesDone + 1 else o.passesDone
      opRow := { o.opRow with
        row := if done then 0 else if b.last then o.opRow.row + 1 else o.opRow.row
        col := if b.last then 0 else o.opRow.col + n, beats := o.opRow.beats + 1, stalled := false }
      dig := digOperand e o.dig bytes (if f = .opq then [] else beatScales f b n) b.last }
    traceRow s1 ix o b.last done

/-- An accepted operation that no screen follows stands inside a pass whose length is judged. -/
def midPass (o : OpCtx) : Bool :=
  !o.checkable && dMatmul o.dsc && dA o.dsc != .opq && decide (0 < o.opRow.row + o.opRow.col)

/-- R128: a beat of another open descriptor interrupts the pass in progress. -/
def interruptPass (s : State) (ix : Nat) (tag : W16) : State :=
  onSp s ix fun sp =>
    let s1 := ((openOps sp).filter fun o => midPass o && dStag o.dsc != tag).foldl (fun s o => badPass s ix o (opaBeats sp o)) s
    match sp.pass, passOp sp with
    | some p, some o =>
      if p.tag = tag then s1
      else if p.ended then missedInject s1 ix
      else badPass s1 ix o (opaBeats sp o)
    | _, _ => s1

/-- R55, R56, R65, R91: the meaning of an operand beat. A burst held with another tag is TORN by it first, whatever comes of the beat; the
beats of a refused tag, or of a stream that is TORN, are ignored; then the table's order holds: no open descriptor of that tag, then the
open inject slot. -/
def takeOperand (s : State) (ix : Nat) (b : Beat) (injReq : Bool) : State :=
  onSp s ix fun sp0 =>
    if !tapLive s sp0 then s
    else if sp0.lv.ft then ignore s ix 1
    else
      let s0 := tearOthers (if injReq then s else updSp s ix fun t => { t with injSlot := none }) ix b.tag false
      onSp s0 ix fun sp =>
        if (b.tag, false) ∈ sp.torn ∨ b.tag ∈ sp.refused then ignore s0 ix 1
        else match findOpen sp b.tag with
          | none => tapViol (ignore s0 ix 1) .tapviol ix none 0x10 b.tag 1
          | some _ => match sp.injSlot.bind fun u => sp.ops.find? fun o => !o.closed && o.uid == u with
            | some o => closeOpEarly (tapViol s0 .tapviol ix (some o.dsc) 0x12 (dStag o.dsc) (opaBeats sp o + 1)) ix o .rows
            | none =>
              let s1 := interruptPass s0 ix b.tag
              onSp s1 ix fun sp => match findOpen sp b.tag with
                | none => s1
                | some o =>
                  let s2 := addBigSp s1 ix 0 (tapBytes sp)
                  if !dMatmul o.dsc then s2
                  else if o.checkable then screenOperand s2 sp o b else plainOperand s2 sp o b

def execOperandBeat (ix : Nat) (b : Beat) (injReq : Bool) (s : State) : Host.Outcome State Fault Refusal :=
  .next (takeOperand s ix b injReq)

/-! ### The inject slot (R60, R61, R132 to R136, R155) -/

/-- R58, R60: the checksum row of the ended pass is delivered as inject beats; the slot stays open until the tile deasserts TT_INJ_REQ. -/
def deliverRow (s : State) (sp : Spire) (o : OpCtx) (ps : PassSt) : State :=
  let ix := sp.ix
  let d := o.dsc
  let r := ckRow (opEnv s sp d) d ps
  let bs := packBeats sp.tap.ver (dA d) r.codes r.scales
  let beats := bs.length
  let c := cycles s
  let s1 := updSp c.2 ix fun sp =>
    putOpen { sp with pass := none, injSlot := some o.uid, answer := .inject bs } (dStag d) fun o => { o with
      passesDone := o.passesDone + 1, cksat := o.cksat || r.sat, floorEv := o.floorEv || r.floor,
      injBytes := o.injBytes + beats * tapBytes sp }
  trace (addBigSp s1 ix 1 (beats * tapBytes sp)) ix 0x13 false o.late (dStag d) (dLayer d) (dOper d) c.1

/-- R60, R91, R155: the meaning of an inject request. The request carries no tag: with no pass of an open operation in progress it counts
as one that a TORN operation may still make (log 86). -/
def takeInjReq (s : State) (ix : Nat) : State :=
  onSp s ix fun sp =>
    if !tapLive s sp then s
    else if sp.lv.ft then ignore s ix 1
    else
      match sp.pass, passOp sp with
      | some ps, some o =>
        if ps.ended then deliverRow s sp o ps
        else
          let s1 := closeOpEarly (tapViol s .tapviol ix (some o.dsc) 0x11 (dStag o.dsc) (opaBeats sp o)) ix o .rows
          updSp s1 ix fun t => { t with answer := .injNack, injSlot := none }
      | _, _ =>
        let s1 := updSp s ix fun t => { t with answer := .injNack, injSlot := none }
        match sp.tornOps.find? fun t => decide (0 < t.2) with
        | some x => updSp s1 ix fun t => { t with tornOps := t.tornOps.map fun y => if y = x then (y.1, y.2 - 1) else y }
        | none => tapViol s1 .tapviol ix none 0x20 0xFFFF 0

def execTtInjReq (ix : Nat) (s : State) : Host.Outcome State Fault Refusal := .next (takeInjReq s ix)

/-! ### Result stream (R62, R63, R138, R168 to R170, R202 to R206, R286) -/

/-- R170: the group digests of a row: CRC-32C of each group's elements as packed, and its scale. -/
def groupDigests (f : Fmt) (elems : List Nat) (scales : List Byte) : List (W32 × Byte) :=
  ((chunksOf 32 elems.length elems).zipIdx).map fun g =>
    (crc32c (packBytes (fmtWidth f) g.1), if isMx f then scales.getD g.2 0 else 0)

/-- R168, R171: a sampled row's result capture leaves for the Keep, or the sample is abandoned. -/
def flushResult (s : State) (ix uid : Nat) (d : Dsc) (k : Capture) : State :=
  onSp s ix fun sp =>
    let f := dC d
    let win := (k.elems.drop k.winFirst).take (nCap f)
    let scl := if isMx f then (k.scales.drop (k.winFirst / 32)).take ((win.length + 31) / 32) else []
    let n := (packBytes (fmtWidth f) win).length + scl.length + 8 * dGroups d
    let clear := fun (drop : Bool) (c : Capture) =>
      if c.row = k.row then { c with elems := [], scales := [], resSent := !drop, dropped := c.dropped || drop } else c
    let mark := fun (drop : Bool) => updSp s ix fun sp => { sp with
      staging := if drop then sp.staging else sp.staging + n
      ops := sp.ops.map fun o => if o.uid = uid then { o with caps := o.caps.map (clear drop) } else o }
    if sp.staging + n ≤ 16384 then send (mark false) (.result ix uid k.row win scl (groupDigests f k.elems k.scales))
    else send (mark true) (.abandon ix uid k.row 0x22 false)

def capResult (row : Nat) (codes : List Nat) (scl : List Byte) (k : Capture) : Capture :=
  if k.row = row ∧ !k.dropped then { k with elems := k.elems ++ codes, scales := k.scales ++ scl } else k

/-- R472, R478, R479: a data-row beat is copied into the trace buffer of 8 KiB, beside the entries that stand there, or is lost and its place
recorded. The scale bytes of a row's copied beats follow its elements, as OD packs them, so they stand apart until the row ends. -/
def dumpBeat (sp : Spire) (row beat : Nat) (bs scl : List Byte) (last : Bool) : Spire :=
  let t := sp.trc
  let fits := decide (t.dump.length + t.dumpScl.length + 16 * t.buf.length + bs.length + scl.length ≤ 8192)
  let t1 := if fits then { t with
      dump := t.dump ++ bs, dumpScl := t.dumpScl ++ scl, beats := t.beats ++ [(row, beat, bs.length)]
      sclBeats := t.sclBeats ++ [(row, beat, scl.length)] }
    else { t with
      dumpLost := t.dumpLost + 1, dumpGaps := if t.dumpGaps.length < 64 then t.dumpGaps ++ [(row, beat)] else t.dumpGaps }
  { sp with
    trc := if last then { t1 with
      dump := t1.dump ++ t1.dumpScl, dumpScl := [], beats := t1.beats ++ t1.sclBeats, sclBeats := [] } else t1
    cnt := if fits then sp.cnt else updAt sp.cnt kDumpgap (satAdd · 1) }

/-- R54, R91, TAPVIOL 0x31: a checkable operation's burst becomes INCONCLUSIVE, cause ROWS, which closes its descriptor; of another
accepted operation only the record is made, once (log 16). -/
def badRow (s : State) (sp : Spire) (o : OpCtx) (beats : Nat) : State :=
  if o.badRows then s
  else
    let s1 := tapViol s .tapviol sp.ix (some o.dsc) 0x31 (dStag o.dsc) beats
    let s2 := updSp s1 sp.ix fun t => putOpen t (dStag o.dsc) fun x => { x with badRows := true }
    if o.checkable then closeOpEarly s2 sp.ix o .rows else s2

/-- R62, R76: whether a beat of a checkable operation belongs to the checksum-row result. -/
def isCkBeat (sp : Spire) (o : OpCtx) (ckrow : Bool) : Bool :=
  o.checkable && (if sp.tap.ver = 2 then decide (o.resRow.row ≥ dMt o.dsc) else ckrow)

/-- The stream position after a beat of `n` elements. -/
def advance (p : StreamPos) (n : Nat) (last : Bool) : StreamPos :=
  if last then { p with row := p.row + 1, col := 0, beats := 0, stalled := false } else { p with col := p.col + n, beats := p.beats + 1, stalled := false }

/-- One beat of an accepted operation's result enters its context. -/
def resultCtx (e : OpEnv) (sp : Spire) (o : OpCtx) (b : Beat) (ck : Bool) (n : Nat) : ResAcc :=
  let d := o.dsc
  let f := dC d
  let data := !ck && decide (o.resRow.row < dMt d)
  let a : ResAcc := if o.checkable && f != .opq then resBeatScreen e d ck b n o else ⟨o, 0, 0⟩
  let o1 := if data && f != .opq then resBeatRange e d b n a.o else a.o
  let bytes := if f = .opq then beatBytes sp.tap.ver b.data else beatElemBytes f b n
  let scl := if f = .opq then [] else beatScales f b n
  let dig := if data then
      let g := digPush e o1.dig bytes
      let g1 := { g with rowScl := g.rowScl ++ scl }
      if b.last then digRowEnd e g1 else g1
    else o1.dig
  let codes := (List.range n).map (elemOf f b.data)
  let o2 := { o1 with
    dig := dig, resBytes := o1.resBytes + tapBytes sp, ckSeen := o1.ckSeen || ck
    caps := if data then o1.caps.map (capResult o.resRow.row codes scl) else o1.caps }
  let o3 := setPos o2 ck (advance (posOf o2 ck) n b.last)
  ⟨{ o3 with resRow := { o3.resRow with stalled := false } }, a.ovr, a.nonfin⟩

/-- A result beat of an accepted operation. A beat of its checksum-row result shows that the inject slot is over (R60, R61). -/
def acceptedResult (s : State) (sp : Spire) (o : OpCtx) (b : Beat) (ckrow : Bool) : State :=
  let ix := sp.ix
  let d := o.dsc
  let f := dC d
  if !o.checkable ∧ ckrow ∧ sp.tap.ver = 3 then
    let s1 := updSp (resume s ix o true o.resRow.stalled) ix fun x => putOpen x (dStag d) fun y =>
      { y with resBytes := y.resBytes + tapBytes sp, resRow := { y.resRow with stalled := false } }
    badRow s1 sp o (resBeats sp o + 1)
  else
    let ck := isCkBeat sp o ckrow
    let pos := posOf o ck
    let t := if f = .opq then (0, false) else beatTake (perBeat f (beatBits sp.tap.ver)) (dN d) pos.col b.last
    let e := opEnv s sp d
    let r := resultCtx e sp o b ck t.1
    let s1 := updSp (resume s ix o true o.resRow.stalled) ix fun x =>
      let x0 := putOpen x (dStag d) fun _ => r.o
      let x1 := if ck ∧ x0.injSlot = some o.uid then { x0 with injSlot := none } else x0
      if o.dumping && !ck && decide (o.resRow.row < dMt d) then
        dumpBeat x1 o.resRow.row o.resRow.beats (if f = .opq then beatBytes sp.tap.ver b.data else beatElemBytes f b t.1)
          (if f = .opq then [] else beatScales f b t.1) b.last
      else x1
    let s2 := spCount (spCount s1 ix kOvr r.ovr) ix kNonfin r.nonfin
    let s3 := if b.last && !ck then
        (r.o.caps.filter fun k => k.row == o.resRow.row && !k.dropped && !t.2).foldl (fun s k => flushResult s ix o.uid d k) s2
      else s2
    let s4 := if b.last then
        let c := cycles s3
        trace c.2 ix 0x21 true o.late (dStag d) (dLayer d) (dOper d) c.1
      else s3
    if t.2 then onSp s4 ix fun sp => (match findOpen sp (dStag d) with
      | some o => badRow s4 sp o (resBeats sp o)
      | none => s4) else s4

/-- R62, R286: a beat of a refused operation enters its raw digest whole, whatever it is marked; an orphan beat the Spire's orphan digest
(TAPVIOL 0x30). -/
def looseResult (s : State) (sp : Spire) (b : Beat) : State :=
  let k := (digestKeys s (partOfSp s sp.ix)).1
  let bytes := beatBytes sp.tap.ver b.data
  if (b.tag, true) ∈ sp.torn ∨ sp.tornOps.any (fun t => t.1 == b.tag) then ignore s sp.ix 1
  else if sp.raw.any (fun r => r.tag == b.tag) then
    updSp s sp.ix fun t => { t with raw := t.raw.map fun r =>
      if r.tag = b.tag then { r with dig := sdPush k r.dig bytes, beats := r.beats + 1 } else r }
  else
    tapViol (updSp s sp.ix fun t => { t with orphan := sdPush k t.orphan bytes }) .tapviol sp.ix none 0x30 b.tag 1

/-- R62 to R65, R68: a result beat. -/
def takeResult (s0 : State) (ix : Nat) (b : Beat) (ckrow : Bool) : State :=
  onSp s0 ix fun sp0 =>
    if !tapLive s0 sp0 then s0
    else if sp0.lv.ft then ignore s0 ix 1
    else
      let s := tearOthers s0 ix b.tag true
      onSp s ix fun sp => match findOpen sp b.tag with
        | some o => acceptedResult (addBigSp s ix 2 (tapBytes sp)) sp o b ckrow
        | none => looseResult (addBigSp s ix 2 (tapBytes sp)) sp b

def execResultBeat (ix : Nat) (b : Beat) (ckrow : Bool) (s : State) : Host.Outcome State Fault Refusal :=
  .next (takeResult s ix b ckrow)

/-- R91: what is wrong with an operation at its TT_RES_END, in table order: operand passes missing, no checksum-row result, a
wrong number of rows. -/
def endFault (sp : Spire) (o : OpCtx) : Option (RecKind × Byte × Closure) :=
  let d := o.dsc
  let rowsOk := o.resRow.row == dMt d && o.resRow.col == 0 && (!o.checkable || (o.ckPos.row == 1 && o.ckPos.col == 0))
  if o.closure.isSome then none
  else if o.checkable then
    if o.passesDone < dPasses d then
      (match sp.pass with
        | some p => if p.tag = dStag d ∧ p.ended then some (.contractviol, 0x21, .contract) else some (.tapviol, 0x11, .rows)
        | none => some (.tapviol, 0x11, .rows))
    else if !o.ckSeen then some (.contractviol, 0x22, .contract)
    else if !rowsOk then some (.tapviol, 0x31, .rows) else none
  else if dMatmul d && dA d != .opq && decide (o.passesDone < dPasses d) then some (.tapviol, 0x11, .rows)
  else if !rowsOk && !o.badRows then some (.tapviol, 0x31, .rows) else none

/-- R54, R140, R465: TT_RES_END closes an operation; its comparison waits. -/
def endResult (s : State) (sp : Spire) (o : OpCtx) : State :=
  let ix := sp.ix
  let d := o.dsc
  let s0 := trace s ix 0x14 false o.late (dStag d) (dLayer d) (dOper d) (o.resRow.row + o.ckPos.row)
  let finish := fun s => updSp (countCycles s ix) ix fun sp => shutCtx sp o.uid fun x => { x with
    closed := true, endTick := s.time.tick, dumping := false, cycles := Config.tclkCycles ix x.ackTick s.time.tick }
  match endFault sp o with
  | none => finish (endDump s0 ix o)
  | some (k, code, cl) =>
    let s1 := tapViol s0 k ix (some d) code (dStag d) (if k = .contractviol ∧ code = 0x21 ∨ code = 0x11 then opaBeats sp o else resBeats sp o)
    finish (if o.checkable ∨ code = 0x11 then closeOpEarly s1 ix o cl else endDump s1 ix o)

def execTtResEnd (ix : Nat) (b : Beat) (ckrow : Bool) (s : State) : Host.Outcome State Fault Refusal :=
  let s1 := takeResult s ix b ckrow
  .next (onSp s1 ix fun sp =>
    if !tapLive s1 sp ∨ sp.lv.ft then s1
    else match findOpen sp b.tag with
      | some o => endResult s1 sp o
      | none => s1)

/-! ### GROUP_COMPARE (R140, R147, R159, R160, R205, R206, R288) -/

/-- R291: closed early under R65, R67 or R72: what a fence, a reset or a TORN burst ends, and no violation. -/
def cutShort : Closure → Bool
  | .torn | .fenced | .reset => true
  | .contract | .rows | .dead => false

/-- R288, R465: what DIGOP carries beside the digests: operand, inject and result bytes, data rows, cycles, group counts. -/
def acctOf (o : OpCtx) (gs : List GrpOut) : List Nat :=
  [o.opBytes, o.injBytes, o.resBytes, min o.resRow.row (dMt o.dsc), o.cycles.toNat,
    countRes gs 0, countRes gs 1, countRes gs 3, countRes gs 4]

/-- The records and messages of a closed operation, in order: SCRGRP, SCRSUM, RNGEV, then EXPPROF and DIGOP. -/
def compareOp (s : State) (sp : Spire) (o : OpCtx) : State :=
  let ix := sp.ix
  let p := partOfSp s ix
  let d := o.dsc
  let t := spNow s ix
  let e := opEnv s sp d
  let gs := if o.checkable then judgeAll e d o else []
  let bad := gs.filter fun g => g.result == 1 || g.result == 3
  let rb := rangeBits o.range
  let recs := bad.map (scrgrpRec t ix p e o) ++ (if o.checkable then [scrsumRec t ix p e o gs] else []) ++
    (if rb = 0 then [] else [rngevRec t ix p e o])
  let scr : ScreenRes := ⟨countRes gs 0, countRes gs 1, countRes gs 3, countRes gs 4,
    (gs.filter fun g => g.result == 1).map (·.ix), ((gs.find? fun g => g.result == 3).map (·.cause)).getD 0⟩
  let od := sdFinish e.kD o.dig.od
  let s1 := updSp s ix fun sp => { sp with
    ops := sp.ops.filter fun x => x.uid != o.uid
    lastv := match bad.getLast? with
      | some g => ⟨g.result, g.cause, g.ix, dStag d, dLayer d, dOper d⟩
      | none => sp.lastv }
  let s2 := [(kPass, countRes gs 0), (kSus, countRes gs 1), (kInc, countRes gs 3), (kSkp, countRes gs 4),
    (kWeak, (gs.filter (·.weak)).length)].foldl (fun s x => spCount s ix x.1 x.2) s1
  let s3 := trace s2 ix 0x15 false o.late (dStag d) (dLayer d) (dOper d) (countRes gs 1 + 512 * countRes gs 3 + 262144 * countRes gs 4)
  let s4 := send s3 (.summary ix o.uid recs scr rb (rangeSuspect e.range o.range) (rangeEvent e.range o.range) od o.endTick)
  let s5 := if rEnvEn e.range ∧ rLearn e.range ≠ 0 ∧ dC d ≠ .opq then
      send s4 (.profile ix o.uid (countRes gs 1 != 0 || rangeSuspect e.range o.range) (expprofRec t ix p e o) (profHi o.prof) (profBins o.prof)) else s4
  send s5 (.digests ix o.uid od o.dig.rsv (sd64 e.kD (dDigestBytes d)) (o.dig.operand.map (sdFinish e.kD)) (acctOf o gs)
    (o.closure.any cutShort))

/-- The first closed operation of a Spire is compared and its records enter Caravan. A DEAD tile's Spire sends no records (R238): what it
accepted before the DEAD frame landed is dropped. -/
def execGroupCompare (ix : Nat) (s : State) : Host.Outcome State Fault Refusal :=
  .next (onSp s ix fun sp =>
    if ((getTile s ix).map (·.lost)).getD false then s
    else match sp.ops.find? (·.closed) with
      | some o =>
        if stateOf s ix = stDead then updSp s ix fun t => { t with ops := t.ops.filter fun x => x.uid != o.uid } else compareOp s sp o
      | none => s)

/-! ### Burst continuity (R65, R154, R155) -/

/-- R65: the operand burst of an operation has begun and is not complete: a pass whose rows have all come is taken. -/
def operandOpen (sp : Spire) (o : OpCtx) : Bool :=
  let taken := match sp.pass with
    | some p => if p.ended ∧ p.tag = dStag o.dsc then o.passesDone + 1 else o.passesDone
    | none => o.passesDone
  decide (o.opRow.beats > 0) && decide (taken < dPasses o.dsc)

/-- R65: a stream of an open operation is held from its 64th idle SCLK cycle. -/
def execBurstStall (ix : Nat) (tag : W16) (res : Bool) (s : State) : Host.Outcome State Fault Refusal :=
  .next (onSp s ix fun sp =>
    match findOpen sp tag with
    | none => s
    | some o =>
      let d := o.dsc
      let inc := if res then decide (o.resBytes > 0) else operandOpen sp o
      if !inc then s
      else
        let s1 := updSp s ix fun sp => putOpen sp tag fun o =>
          if res then { o with resRow := { o.resRow with stalled := true } } else { o with opRow := { o.opRow with stalled := true } }
        trace s1 ix 0x17 false o.late tag (dLayer d) (dOper d) 0)

/-- R65: the burst timeout of a held burst. -/
def execBurstTimeout (ix : Nat) (tag : W16) (res : Bool) (s : State) : Host.Outcome State Fault Refusal :=
  .next (onSp s ix fun sp =>
    match findOpen sp tag with
    | none => s
    | some o => if heldOn res o then tearOp s ix o res else s)

/-! ### Fence acknowledge, heartbeat, progress, reset (R66 to R73) -/

/-- SPR_TSTATE bits [7:0]. -/
def levelBits (sp : Spire) : Nat :=
  sp.tstate + 8 * b2n sp.lv.fc + 16 * b2n sp.lv.ft + 32 * b2n sp.lv.tonly + 64 * b2n sp.lv.fack + 128 * b2n sp.lv.hbOk

def traceLevels (s : State) (ix : Nat) : State :=
  onSp s ix fun sp => trace s ix 0x18 false false 0xFFFF 0xFFFF 0xFFFF (levelBits sp)

/-- R67, R435: the rising edge of TT_FENCE_ACK closes every open burst; a slice that waits for it begins. -/
def execTtFenceAck (ix : Nat) (s : State) : Host.Outcome State Fault Refusal :=
  .next (onSp s ix fun sp =>
    if sp.lv.fack then s
    else
      let s1 := closeAll s ix .fenced
      tryBegin (traceLevels (updSp s1 ix fun sp => { sp with lv := { sp.lv with fack := true } }) ix) ix)

/-- R66, R91: no TT_FENCE_ACK within 10 µs. -/
def execFenceAckTimeout (ix : Nat) (s : State) : Host.Outcome State Fault Refusal :=
  .next (onSp s ix fun sp =>
    if sp.lv.fc ∧ !sp.lv.fack ∧ stateOf s ix ≠ stDead then
      tileInput (tapViol s .tapviol ix none 0x50 0 0) 0x14 ix 0x50 else s)

/-- R70: the router's heartbeat shows no edge for 16 µs; version 2 taps have none (R76). -/
def routerLost (s : State) (ix : Nat) : State := tileInput (tapViol s .tapviol ix none 0x52 0 0) 0x11 ix 0x52

def execHeartbeatLoss (ix : Nat) (s : State) : Host.Outcome State Fault Refusal :=
  .next (onSp s ix fun sp =>
    if sp.tap.ver = 2 ∨ !sp.lv.hbOk then s
    else
      let s1 := traceLevels (updSp s ix fun sp => { sp with lv := { sp.lv with hbOk := false } }) ix
      if sp.lv.tonly ∧ stateOf s ix ≠ stDead then routerLost s1 ix else s1)

/-- A Gray-coded number of `n` bits. -/
def ofGray (n x : Nat) : Nat :=
  (List.range n).foldl (fun a i => Nat.xor a (x >>> i)) 0 % 2 ^ n

/-- R71: a sampled change of TT_PROG is progress, or a move backward. R273: progress of a working tile after a compute reset. -/
def takeProg (s : State) (ix : Nat) (gray : W32) : State :=
  onSp s ix fun sp =>
    if !tapLive s sp then s
    else
      let w := if sp.tap.ver = 2 then 16 else 32
      let x := ofGray w (gray.toNat % 2 ^ w)
      let diff := (x + 2 ^ w - sp.tap.progBase.toNat % 2 ^ w) % 2 ^ w
      let base := fun (t : Spire) => { t with tap := { t.tap with progBase := BitVec.ofNat 32 x } }
      if diff < 2 ^ (w - 1) then
        let s1 := updSp s ix fun t => let t1 := base t
          { t1 with tap := { t1.tap with prog := t1.tap.prog + BitVec.ofNat 64 diff } }
        if diff ≠ 0 ∧ stateOf s ix < stFenced then { s1 with hang := { s1.hang with back := true } } else s1
      else
        updTile (tapViol (updSp s ix base) .tapviol ix none 0x40 0 0) ix fun t => { t with wd := s.time.tick.toNat, ranOut := false }

def execTtProgChange (ix : Nat) (gray : W32) (s : State) : Host.Outcome State Fault Refusal := .next (takeProg s ix gray)

/-- R72 step 3, R73: descriptors discarded, bursts closed with cause RESET, tap state cleared, TT_RST_REQ deasserted; TT_PROG
has returned to 0 (R71). -/
def tapReset (s : State) (ix : Nat) : State :=
  let s1 := closeAll s ix .reset
  let s2 := updSp s1 ix fun sp => { sp with
    pass := none, injSlot := none, refused := [], torn := [], tornOps := [], raw := [],
    lv := { sp.lv with rstReq := false, rstAck := true, ready := false }
    tap := { sp.tap with progBase := 0 } }
  trace s2 ix 0x1B false false 0xFFFF 0xFFFF 0xFFFF 3

/-- R398: until the compute release of its Dome a Spire holds TT_RST_REQ. -/
def domeReleased (s : State) (ix : Nat) : Bool := ((getDome s (ix / 256)).map (·.released)).getD false

/-- R424: after a failure of bring-up the handshake runs with TT_RST_REQ held. -/
def heldReset (s : State) (ix : Nat) : State := updSp (tapReset s ix) ix fun sp => { sp with lv := { sp.lv with rstReq := true } }

/-- R398: an acknowledgement before the image is loaded stands for its tile. -/
def earlyAck (s : State) (ix : Nat) : State :=
  if s.image.isNone ∧ !s.pads.coldReset ∧ builtSpire s.built ix ∧ !s.boot.rstAcks.contains ix then
    { s with boot := { s.boot with rstAcks := s.boot.rstAcks ++ [ix] } }
  else s

/-- R72 step 2, R398: the tile is in reset. -/
def execTtRstAck (ix : Nat) (s : State) : Host.Outcome State Fault Refusal :=
  .next (match getSp s ix with
    | none => earlyAck s ix
    | some sp =>
      if !sp.lv.rstReq ∨ sp.lv.rstAck then s
      else if s.boot.step = 7 then heldReset s ix
      else if domeReleased s ix then tapReset s ix
      else updSp s ix fun sp => { sp with lv := { sp.lv with rstAck := true } })

/-- R435 step 6: the TEST_OFF that waited for the handshake goes out. -/
def testOffDue (s : State) (ix : Nat) : State :=
  onTile s ix fun t => if t.offDue then sendTest (updTile s ix fun t => { t with offDue := false }) ix false else s

/-- R72 step 4, R266, R267, R435: the tile is ready; its watchdog starts again, and a test goes on. -/
def execTtReady (ix : Nat) (s : State) : Host.Outcome State Fault Refusal :=
  .next (onSp s ix fun sp =>
    if !sp.lv.rstAck ∨ sp.lv.rstReq then s
    else
      let s1 := updSp s ix fun sp => { sp with lv := { sp.lv with rstAck := false, ready := true } }
      let s2 := updTile s1 ix fun t => { t with resetDone := true, wdHeld := t.run.isSome, wd := s.time.tick.toNat }
      tryBegin (testOffDue s2 ix) ix)

/-- R72, R91, R423: a reset deadline is missed: before the Belfry starts in step 5 firmware marks the tile DEAD, later fixed peal 8 does. -/
def resetMissed (s : State) (ix : Nat) : State :=
  let s1 := tapViol s .tapviol ix none 0x51 0 0
  if s.boot.step < 5 then actDead s1 ix tcTap 0xFFFF 1 s.time.tick else tileInput s1 0x14 ix 0x51

def execRstAckTimeout (ix : Nat) (s : State) : Host.Outcome State Fault Refusal :=
  .next (onSp s ix fun sp => if sp.lv.rstReq ∧ !sp.lv.rstAck ∧ stateOf s ix ≠ stDead then resetMissed s ix else s)

def execReadyTimeout (ix : Nat) (s : State) : Host.Outcome State Fault Refusal :=
  .next (onSp s ix fun sp => if sp.lv.rstAck ∧ !sp.lv.rstReq ∧ stateOf s ix ≠ stDead then resetMissed s ix else s)

/-- R73: TT_RST_ACK rises while TT_RST_REQ is 0: the tile reset itself. -/
def execTileRst (ix : Nat) (s : State) : Host.Outcome State Fault Refusal :=
  .next (onSp s ix fun sp =>
    if sp.lv.rstReq ∨ sp.lv.rstAck then s
    else
      let s1 := tapReset s ix
      let p := partOfSp s ix
      if stateOf s ix = stDead then s1 else addRec s1 ⟨.tileRst, spNow s ix, ix, p, w3of ix p 0, []⟩)

end Sys2Proof.Machine
end

