-- ==== Sys2Proof/Machine/Ports.lean ====
section
/-! DEFINITION. The memory ports (R87, R92, R474), the host-supplied clocks (R38) and TT_IDLE (R266, R240, R264). -/

namespace Sys2Proof.Machine

/-! ### Requests of the near and far port -/

def memPort (s : State) (far : Bool) : MemPort := if far then s.far else s.near
def updMem (s : State) (far : Bool) (f : MemPort → MemPort) : State :=
  if far then { s with far := f s.far } else { s with near := f s.near }

/-- R474: the priority of an item; a header goes with its log. The rule orders the writes; that a read of firmware's goes before them is
the model's choice (DESIGN CHOICE, log 91). -/
def nearPrio (i : NearItem) : Nat :=
  match i with
  | .oasisRead _ _ => 0
  | .note _ _ => 1
  | .oasis _ _ => 2
  | .evidence _ | .witness _ _ | .hangDump _ => 3
  | .digestLog _ _ => 4
  | .meterLog _ _ => 5
  | .trace _ _ => 6
  | .dump _ _ => 7
  | .head log _ _ => if log = 0 then 1 else log + 3

/-- The partition an item belongs to. -/
def itemPart (s : State) (i : NearItem) : Nat :=
  match i with
  | .note p _ | .oasis p _ | .oasisRead p _ | .digestLog p _ | .meterLog p _ | .trace p _ | .dump p _ | .head _ p _ => p
  | .evidence r => r.part
  | .witness uid _ => ((s.ops.find? fun o => o.uid == uid).map (·.part)).getD 0
  | .hangDump _ => 0

/-- R473: a line of the trace ring as words: entry `n` of a partition's ring. -/
def traceWords (p n : Nat) (x : Nat × W32 × List TrcEntry) : List W32 :=
  [packW [(0, x.1), (16, p), (24, x.2.2.length)], x.2.1, BitVec.ofNat 32 n, 0] ++ x.2.2.flatMap (·.words)

/-- What an item writes, as words; an archived witness's content is laid out nowhere (log 5). -/
def itemWords (s : State) (i : NearItem) : List W32 :=
  let l := (getPart s (itemPart s i)).logs
  match i with
  | .note p n => ((l.notes.at 4095 n).map (·.words p)).getD []
  | .oasis p slot => (((getPart s p).oasisMem.find? fun m => m.1 == slot).map (·.2)).getD []
  | .evidence r => r.words
  | .witness _ _ | .oasisRead _ _ => []
  | .hangDump n => (s.hang.parts.flatten).take ((n + 3) / 4)
  | .digestLog _ n => ((l.digests.at 8191 n).map (·.words)).getD []
  | .meterLog _ n => ((l.meters.at 16383 n).map (·.words)).getD []
  | .trace p n => ((l.trace.at (logSlots s 3) n).map (traceWords p n)).getD []
  | .dump _ off => ((l.dumps.find? fun d => d.1 == off).map (·.2.words)).getD []
  | .head log _ prod => headWords (logSlots s log) prod

/-- The lines of 64 bytes that an item writes or reads. -/
def itemTotal (s : State) (i : NearItem) : Nat :=
  match i with
  | .witness _ _ => (Config.unstated s.rng).toNat % 2 ^ 18 + 1
  | .hangDump n => linesOf n
  | .oasisRead p slot => linesOf (4 * ((((getPart s p).oasisMem.find? fun m => m.1 == slot).map (·.2.length)).getD 0))
  | i => linesOf (4 * (itemWords s i).length)

/-- The byte offset of an item inside its window: the area that PARAMETERS gives it, and its place there (R256, R257, R271, R292, R473, R479,
R492). The manual gives no place to evidence and witnesses: it is a free line of the window (log 91). -/
def itemOffset (s : State) (far : Bool) (i : NearItem) : Nat :=
  let at_ := fun f : BaseParams → Nat => (s.image.map (·.base)).elim 0 f
  let dumpBase := at_ (if far then (·.tdumpFar) else (·.tdump))
  match i with
  | .note p n => at_ (·.nq) + p * 0x40000 + 64 * (1 + n % 4095)
  | .oasis p slot | .oasisRead p slot => oasisOffset (at_ (·.oasis)) p slot
  | .digestLog p n => at_ (·.dlog) + p * 0x200000 + 256 * (1 + n % 8191)
  | .meterLog p n => at_ (·.mlog) + p * 0x400000 + 256 * (1 + n % 16383)
  | .trace p n => at_ (·.trc) + p * at_ (·.trcSize) + 64 * (1 + n % logSlots s 3)
  | .dump p off => dumpBase + p * at_ (·.tdumpSize) + off
  | .hangDump _ => at_ (·.dump)
  | .head log p _ => match log with
    | 0 => at_ (·.nq) + p * 0x40000
    | 1 => at_ (·.dlog) + p * 0x200000
    | 2 => at_ (·.mlog) + p * 0x400000
    | _ => at_ (·.trc) + p * at_ (·.trcSize)
  | .evidence _ | .witness _ _ =>
    let lines := ((area s).map (·.nearGiB)).getD 0 * 2 ^ 24
    64 * ((Config.unstated (s.rng + 1)).toNat % (lines - itemTotal s i + 1))

def isRead : NearItem → Bool
  | .oasisRead _ _ => true
  | _ => false

/-- The lines of the Cistern that are free once an item is written. -/
def itemLines (i : NearItem) : Nat :=
  match i with
  | .evidence r => recLines r
  | .trace _ _ => 1
  | _ => 0

/-- The first waiting item of the highest priority. -/
def nextItem (l : List NearItem) : Option NearItem := [0, 1, 2, 3, 4, 5, 6, 7].findSome? fun k => l.find? fun i => nearPrio i == k

/-- A tag with no outstanding request, from the next one on. -/
def freeTag (m : MemPort) : Option Byte :=
  (((List.range 256).map fun i => m.nextTag + BitVec.ofNat 8 i).find? fun t => !(m.out.any fun r => r.tag == t))

/-- R38: whether the port's clock runs. -/
def portClock (s : State) (far : Bool) : Bool := !s.keep.lostNow.contains (if far then .fclk else .nclk)

/-! ### The end of an item (R257) -/

/-- The log entry that an item writes: the log, the partition, the number. -/
def logEntry : NearItem → Option (Nat × Nat × Nat)
  | .note p n => some (0, p, n)
  | .digestLog p n => some (1, p, n)
  | .meterLog p n => some (2, p, n)
  | .trace p n => some (3, p, n)
  | _ => none

/-- The items that a port has still to write. -/
def unwritten (m : MemPort) : List NearItem := m.waiting ++ (m.cur.map (·.item)).toList ++ m.out.map (·.item)

/-- R257: an entry is whole in its slot, so PROD follows: it counts the entries before the first that is not. -/
def pushHead (s : State) (far : Bool) (i : NearItem) : State :=
  match logEntry i with
  | none => s
  | some (log, p, _) =>
    let l := (getPart s p).logs
    let prod := match log with
      | 0 => l.notes.prod
      | 1 => l.digests.prod
      | 2 => l.meters.prod
      | _ => l.trace.prod
    let left := (unwritten (memPort s far)).filterMap fun j => (logEntry j).bind fun e => if e.1 = log ∧ e.2.1 = p then some e.2.2 else none
    nearPush s (.head log p (left.foldl min prod))

/-- An item is written: its staged lines are free, and the header of its log follows. -/
def itemDone (s : State) (far : Bool) (i : NearItem) : State :=
  pushHead (subUse s (itemPart s i) (itemLines i)) far i

/-! ### Issue (R38, R87, R88, R425, R474) -/

/-- The next item begins to be issued (log 11). One that has nothing to write any more is over. -/
def beginItem (s : State) (far : Bool) (i : NearItem) : State :=
  let n := itemTotal s i
  let c : Issue := ⟨i, (memPort s far).nextIssue, itemOffset s far i / 64, 0, n⟩
  let s1 := updMem s far fun m => { m with
    waiting := m.waiting.erase i, nextIssue := m.nextIssue + 1, cur := if n = 0 then none else some c }
  let s2 := match i with
    | .witness _ _ | .evidence _ => { s1 with rng := s1.rng + 2 }
    | _ => s1
  if n = 0 then itemDone s2 far i else s2

/-- R460: what a request adds to the port's counters: bytes read, bytes written, read and write requests. -/
def countReq (wr : Bool) (lines : Nat) (m : MemPort) : MemPort :=
  let k := b2n wr
  { m with big := updAt (updAt m.big k (· + BitVec.ofNat 64 (64 * lines))) (2 + k) (· + 1) }

/-- One request of up to 64 lines of the item being issued. -/
def issueReq (s : State) (far : Bool) (c : Issue) (t : Byte) : State :=
  let k := min 64 (c.total - c.done)
  let wr := !isRead c.item
  let ws := if wr then ((itemWords s c.item).drop (16 * c.done)).take (16 * k) else []
  updMem s far fun m => countReq wr k { m with
    out := m.out ++ [⟨t, c.item, c.num, wr, c.base + c.done, k, ws, false, 0, false⟩], nextTag := t + 1
    cur := if c.done + k < c.total then some { c with done := c.done + k } else none }

/-- A port goes on: it issues a request of its item, or takes up the next item. -/
def issueOne (far : Bool) (s : State) : State :=
  let m := memPort s far
  match m.cur, nextItem m.waiting with
  | some c, _ => match freeTag m with
    | some t => issueReq s far c t
    | none => s
  | none, some i => beginItem s far i
  | none, none => s

/-- Steps of issue while anything waits. -/
def issueAll (far : Bool) : Nat → State → State
  | 0, s => s
  | n + 1, s => if (memPort s far).cur.isNone && (memPort s far).waiting.isEmpty then s else issueAll far n (issueOne far s)

/-- R38, R88, R425, R474: a port issues what waits, up to its free tags, once bring-up has its memories. A far window of size 0 disables the far
port. -/
def portIssue (s : State) (far : Bool) : State :=
  if !portClock s far ∨ s.boot.step ≤ 3 ∨ (far ∧ farGiB s = 0) then s else issueAll far 1024 s

/-- R317: the fabric tick advances by one while the counter runs. -/
def countTick (s : State) : State := if s.time.run then { s with time := { s.time with tick := s.time.tick + 1 } } else s

/-! ### Responses (R87, R92) -/

/-- `ws` placed at `off` in a list of words. -/
def putWords (l : List W32) (off : Nat) (ws : List W32) : List W32 :=
  (l ++ List.replicate (off - l.length) 0).take off ++ ws ++ l.drop (off + ws.length)

/-- R279: the words that a read brought reach firmware. -/
def readIn (s : State) (r : MemReq) : State :=
  match r.item with
  | .oasisRead p slot =>
    let off := 16 * (r.addr - oasisOffset ((s.image.map (·.base.oasis)).getD 0) p slot / 64)
    let mine := fun x : Nat × Nat × List W32 => x.1 == p && x.2.1 == slot
    let old := ((s.keep.readback.find? mine).map (·.2.2)).getD []
    { s with keep := { s.keep with
      readback := s.keep.readback.filter (fun x => !mine x) ++ [(p, slot, putWords old off r.words)] } }
  | _ => s

/-- A request is over: what it read is delivered unless poisoned, and with the last request of its item the item is. -/
def reqDone (s : State) (far : Bool) (r : MemReq) : State :=
  let s1 := updMem s far fun m => { m with out := m.out.filter fun x => x.tag != r.tag }
  let s2 := if r.wr || r.poison then s1 else readIn s1 r
  let m := memPort s2 far
  if (m.out.any fun x => x.issue == r.issue) || (m.cur.any fun c => c.num == r.issue) then s2 else itemDone s2 far r.item

/-- R92: a request failed: the MEMERR record and input. A write is due again after 1 µs, or after three retries abandoned; a read returns
poisoned data. The placement epoch of the record is the partition's current one (DESIGN CHOICE, log 85). -/
def memErr (s : State) (far : Bool) (r : MemReq) : State :=
  let s1 := updMem (portViol s .memerr (itemPart s r.item) 0 0xFFFF 0xFFFF 0x01 (BitVec.ofNat 32 r.tag.toNat)
    (getPart s (itemPart s r.item)).epoch r.lines) far fun m => { m with big := updAt m.big 4 (· + 1) }
  if !r.wr then reqDone s1 far { r with poison := true }
  else if r.retries ≥ 3 then alert (reqDone s1 far r) alMemport
  else updMem s1 far fun m => { m with out := m.out.map fun x => if x.tag = r.tag then { x with retryDue := true } else x }

/-- The request of a tag that awaits its response. -/
def awaited (s : State) (far : Bool) (tag : Byte) : Option MemReq := (memPort s far).out.find? fun r => r.tag == tag && !r.retryDue

/-- The 16 words of a line of data. -/
def lineWords (x : BitVec 512) : List W32 := (List.range 16).map fun i => x.extractLsb' (32 * i) 32

/-- R87: a read receives one response beat per line, in line order. -/
def readBeat (s : State) (far : Bool) (r : MemReq) (x : BitVec 512) : State :=
  let r1 := { r with words := r.words ++ lineWords x }
  if r1.words.length < 16 * r.lines then
    updMem s far fun m => { m with out := m.out.map fun y => if y.tag = r.tag then r1 else y }
  else reqDone s far r1

/-- R87: a write receives one response beat with no data. -/
def execNpResponse (far : Bool) (tag : Byte) (code : RspCode) (data : BitVec 512) (s : State) : Host.Outcome State Fault Refusal :=
  .next (match awaited s far tag with
    | none => s
    | some r => if code ≠ .ok then memErr s far r else if r.wr then reqDone s far r else readBeat s far r data)

def execMemerrTimeout (far : Bool) (tag : Byte) (s : State) : Host.Outcome State Fault Refusal :=
  .next (match awaited s far tag with
    | none => s
    | some r => memErr s far r)

/-- R92: the write is issued again. -/
def execWriteRetry (far : Bool) (tag : Byte) (s : State) : Host.Outcome State Fault Refusal :=
  .next (match (memPort s far).out.find? fun r => r.tag == tag && r.retryDue with
    | none => s
    | some r =>
      updMem s far fun m => countReq true r.lines { m with
        out := m.out.map fun x => if x.tag = tag then { x with retries := x.retries + 1, retryDue := false } else x })

/-! ### Host-supplied clocks (R38) -/

/-- The bit of KEEP_CLKLOSS. -/
def clkBit (c : HostClk) : Nat :=
  match c with
  | .tclk _ => 0 | .wclk _ => 1 | .nclk => 2 | .fclk => 3 | .pclk => 4

/-- The tile or port that a clock belongs to, 0xFFFF where none. -/
def clkUnit (c : HostClk) : Nat :=
  match c with
  | .tclk sp => sp
  | .wclk q => q
  | _ => 0xFFFF

/-- What the loss of a clock does beside its bit and record. -/
def clkEffect (s : State) (c : HostClk) : State :=
  match c with
  | .tclk sp => updSp s sp fun p => { p with tap := { p.tap with clkLoss := true } }
  | .wclk _ | .fclk => s
  | .nclk => alert { s with parts := s.parts.map fun q => { q with window := q.window.map fun w => { w with nclkLost := true } } } alMemport
  | .pclk => alert s alPortclk

/-- R38, R248: a clock is lost. -/
def execClockLoss (c : HostClk) (s : State) : Host.Outcome State Fault Refusal :=
  .next (if s.keep.lostNow.contains c then s
    else
      let s1 := { s with keep := { s.keep with
        lostNow := s.keep.lostNow ++ [c], clkloss := s.keep.clkloss ||| BitVec.ofNat 5 (2 ^ clkBit c) } }
      let sp := match c with
        | .tclk sp => sp
        | _ => 0xFFFF
      let p := match c with
        | .tclk sp => partOfSp s sp
        | _ => 0
      clkEffect (addRec s1 ⟨.clkloss, s.time.tick, sp, p, w3of sp p 0, [BitVec.ofNat 32 (clkBit c), BitVec.ofNat 32 (clkUnit c)]⟩) c)

/-- R38: a clock returns; it clears no bit, and its port serves again. -/
def execClockReturn (c : HostClk) (s : State) : Host.Outcome State Fault Refusal :=
  .next { s with keep := { s.keep with lostNow := s.keep.lostNow.filter (· != c) } }

/-! ### TT_IDLE (R240, R264, R266) -/

/-- A request that waits for TT_IDLE. -/
def waitsIdle (t : Tile) : Bool := match t.reqs with
  | r :: _ => r.waitIdle && !r.begun
  | [] => false

def execTtIdleChange (sp : Nat) (idle : Bool) (s : State) : Host.Outcome State Fault Refusal :=
  .next (onSp s sp fun x =>
    if x.lv.idle = idle then s
    else
      let s1 := updSp s sp fun p => { p with
        lv := { p.lv with idle := idle }, tap := { p.tap with idleInPeriod := p.tap.idleInPeriod || idle } }
      if idle then
        if ((getTile s1 sp).map waitsIdle).getD false then domeSlices s1 (sp / 256) else s1
      else
        let s2 := if (openOps x).isEmpty then updTile s1 sp fun t => { t with wd := s.time.tick.toNat } else s1
        if stopped s2 sp then c4Violation s2 (partOfSp s2 sp) else s2)

end Sys2Proof.Machine
end

