-- ==== Sys2Proof/Machine/Meter.lean ====
section
/-! DEFINITION. The wall-clock label and the meter periods (R467, R486 to R492). -/

namespace Sys2Proof.Machine

/-- R489: the label at fabric tick `t`. -/
def labelAt (s : State) (t : Nat) : W64 := if s.mtr.wcSet then s.mtr.base + BitVec.ofNat 64 t - s.mtr.baseTick else 0

/-- R487: the length of a period in fabric ticks. -/
def periodTicks (s : State) : Nat := ((area s).map (·.period)).getD 3600 * 1000000000

/-- The first fabric tick after the present period. -/
def periodEnd (s : State) : Nat := (s.mtr.pnum.toNat + 1) * periodTicks s

/-- R467: an entry of the tag table with activity. -/
def tagActive (e : TagEnt) : Bool := e.counts.any (· != 0) || e.late != 0

/-- R467: a TAGACCT record; each count of R465 takes two words. -/
def tagRec (t : W64) (p : Nat) (e : TagEnt) : Rec :=
  ⟨.tagacct, t, 0xFFFF, p, packW [(0, 0xFFFF), (16, p)],
    [halves e.layer.toNat e.oper.toNat] ++ e.counts.flatMap (fun n => words64 (BitVec.ofNat 64 n)) ++ [BitVec.ofNat 32 e.late]⟩

/-- R467: the entries with activity in ascending (LAYER, OPERATOR). -/
def tagsDue (q : Part) : List TagEnt :=
  (q.tags.filter tagActive).insertionSort fun a b => a.layer.toNat * 65536 + a.oper.toNat ≤ b.layer.toNat * 65536 + b.oper.toNat

/-- How a period closes: at its boundary, SHORT or FAULT (R488). -/
inductive PeriodEnd where
  | boundary | short | fault
  deriving DecidableEq, Repr

/-- R491: the MTR record of a partition. -/
def mtrRec (s : State) (p : Nat) (how : PeriodEnd) (tick : W64) (endLabel : W64) (tags : Nat) : Rec :=
  let m := s.mtr
  ⟨.mtr, tick, 0xFFFF, p,
    packW [(0, p), (4, b2n (m.plabel.toNat < m.highEnd.toNat)), (5, b2n (m.regress != 0)), (6, b2n (how == .short)),
      (7, b2n (how == .fault)), (8, b2n m.first)],
    words64 m.pnum ++ words64 m.plabel ++ words64 endLabel ++ words64 m.regress ++ [m.sets, BitVec.ofNat 32 tags] ++
      ((getPart s p).cnt.meters.take 9).flatMap words64⟩

/-- The records of one partition, to the meter log, or kept back while MTR is in its safe state (R511). -/
def meterOut (s : State) (p : Nat) (rs : List Rec) : State :=
  if inSafe s uMtr then { s with mtr := { s.mtr with deferred := s.mtr.deferred ++ rs } } else rs.foldl (fun s r => logMeter s p r) s

/-- R467, R487: one partition's records of a close; its meters and active entries are zeroed. -/
def closePart (how : PeriodEnd) (tick endLabel : W64) (s : State) (p : Nat) : State :=
  let tags := tagsDue (getPart s p)
  let s1 := meterOut s p (mtrRec s p how tick endLabel tags.length :: tags.map (tagRec tick p))
  updPart s1 p fun q => { q with
    tags := q.tags.map fun e => { e with counts := e.counts.map fun _ => 0, late := 0 }
    cnt := { q.cnt with meters := q.cnt.meters.map fun _ => 0 } }

/-- R487, R488, R490: the open period closes and the next begins; after an early close none is open until the boundary. -/
def closePeriod (s : State) (how : PeriodEnd) : State :=
  let bound := periodEnd s
  let tick : W64 := if how = .boundary then BitVec.ofNat 64 (bound - 1) else s.time.tick
  let endLabel := labelAt s (if how = .boundary then bound else s.time.tick.toNat)
  let s1 := if s.mtr.closed then
      (List.range Config.parts).foldl (fun s p => updPart s p fun q => { q with cnt := { q.cnt with meters := q.cnt.meters.map fun _ => 0 } }) s
    else (List.range Config.parts).foldl (closePart how tick endLabel) s
  let m := s1.mtr
  if how = .boundary then
    { s1 with mtr := { m with
      pnum := m.pnum + 1, pstart := BitVec.ofNat 64 bound, plabel := endLabel, regress := 0, sets := 0, closed := false,
      highEnd := if m.closed || decide (endLabel.toNat < m.highEnd.toNat) then m.highEnd else endLabel,
      first := m.first && m.closed } }
  else
    { s1 with mtr := { m with
      closed := true, first := false, highEnd := if endLabel.toNat < m.highEnd.toNat then m.highEnd else endLabel } }

/-- R487, R488: the period closes when its last tick has come; none does after DIE_FAULT. -/
def periodDue (s : State) (t : Nat) : Bool := s.time.run && !s.keep.dieFault && decide (t + 1 ≥ periodEnd s) && decide (0 < periodTicks s)

/-- R488: the open period closes early. -/
def closeEarly (s : State) (how : PeriodEnd) : State := if s.mtr.closed then s else closePeriod s how

/-- R489, R490: one set of the label, at the Belfry tick that takes it. -/
def setLabel (s : State) (v : W64) : State :=
  let l := labelAt s s.time.tick.toNat
  let m := s.mtr
  let back := s.mtr.wcSet && decide (v.toNat < l.toNat)
  { s with mtr := { m with
    wcSet := true, base := v, baseTick := s.time.tick, setCnt := satInc m.setCnt, sets := m.sets + 1,
    wallback := m.wallback || back, backCnt := if back then satInc m.backCnt else m.backCnt,
    regress := if back then m.regress + (l - v) else m.regress } }

/-- R511: what was kept back is written when the unit is enabled again. -/
def writeDeferred (s : State) : State :=
  s.mtr.deferred.foldl (fun s r => logMeter s r.part r) { s with mtr := { s.mtr with deferred := [] } }

end Sys2Proof.Machine
end

