-- ==== Sys2Proof/Machine/Hang.lean ====
section
/-! DEFINITION. The hang path, compute reset, DIE_FAULT and the start of a Keep warm reset (R266 to R274, R278, R387). -/

namespace Sys2Proof.Machine

/-! ### DIE_FAULT (R274) -/

/-- The causes of a DIE_FAULT note (log 20): no progress (R273), three Keep warm resets (R268), an essential unit (R511). -/
def dfProgress : Nat := 1
def dfKwr : Nat := 2
def dfUnit : Nat := 3

/-! ### The wait-for graph (R270) -/

/-- The Tallies a tile waits on, and their owner tiles. -/
def waitsOn (s : State) (sp : Nat) : List Nat :=
  (s.tallies.filter fun t => t.2.waiters.contains sp).filterMap fun t => if t.2.owner = 0xFFFF then none else some t.2.owner.toNat

/-- The tiles reached from a set in at most `n` edges. -/
def reach (s : State) : Nat → List Nat → List Nat
  | 0, xs => xs
  | n + 1, xs =>
    let ys := (xs ++ xs.flatMap (waitsOn s)).eraseDups
    if ys.length = xs.length then xs else reach s n ys

/-- The tiles reached from a tile by one edge or more. -/
def reachOf (s : State) (sp : Nat) : List Nat := reach s (s.tallies.length + 1) (waitsOn s sp).eraseDups

/-- R270: a tile waits on a Tally. -/
def waits (s : State) (sp : Nat) : Bool := s.tallies.any fun t => t.2.waiters.contains sp

/-- HANG_TIMEOUT in ticks (R266). -/
def hangTimeout (s : State) : Nat := ((recov s).map (·.hangTimeout)).getD 2000000

/-- R270: the edges to Caravan: tiles whose uplink has held no credit of a class for half of HANG_TIMEOUT, each with the class; the hop that
withholds them is the router of the Spire's own position (log 90). -/
def stalls (s : State) : List (Nat × Nat) :=
  (s.caravan.held.filter fun h => decide (2 * (s.time.tick.toNat - h.2.2.toNat) ≥ hangTimeout s)).map fun h => (h.1, h.2.1)

/-- R270: what the graph finds: roots, cycles by the lowest tile of each, and stalls. An instance has at most 16,384 tiles, as many hops, and
8,192 Tallies, so no graph reaches 65,536 nodes. -/
structure Graph where
  roots : List Nat
  cycles : List Nat
  stalls : List (Nat × Nat)
  deriving DecidableEq, Repr

/-- R270: the graph of one snapshot. A tile whose watchdog restarted since its HANG is hung no more (R266); every path that ends at a Caravan hop is a
stall, whether or not a hung tile reaches it. -/
def waitGraph (s : State) : Graph :=
  let hung := s.hang.hung.eraseDups.filter fun x => ((getTile s x).map (·.ranOut)).getD false
  let onCycle := (s.tiles.map (·.ix)).filter fun x => (reachOf s x).contains x
  let least := onCycle.filter fun x => (onCycle.filter fun y => (reachOf s x).contains y && (reachOf s y).contains x).all fun y => decide (x ≤ y)
  { roots := hung.filter fun x => !waits s x && !((stalls s).any fun e => e.1 == x) && stateOf s x != stDead
    cycles := least
    stalls := stalls s }

/-! ### The dump (R271) -/

/-- One number to a word (log 9). -/
def word (n : Nat) : W32 := BitVec.ofNat 32 n

/-- R270: the edges and what was found, each list with its length. -/
def graphWords (s : State) : List W32 :=
  let g := waitGraph s
  let edges := s.tallies.flatMap fun t => t.2.waiters.map fun w => [word w, word t.1, t.2.owner.zeroExtend 32]
  let list := fun (l : List Nat) => word l.length :: l.map word
  word edges.length :: edges.flatten ++ list g.roots ++ list g.cycles ++ list (g.stalls.flatMap fun e => [e.1, e.2])

/-- R270: the snapshot: the Tallies held, every Spire's progress and open descriptors, and the credits of every uplink by class. -/
def snapWords (s : State) : List W32 :=
  let held := s.tallies.filter fun t => t.2.held
  let tally := fun t : Nat × Tally => [word t.1, word t.2.part, t.2.count, t.2.target, t.2.owner.zeroExtend 32, word t.2.waiters.length]
  let spire := fun p : Spire => [word p.ix] ++ words64 p.tap.prog ++ [word (openOps p).length]
    ++ ((openOps p).flatMap fun o => [halves (dStag o.dsc).toNat (dEpoch o.dsc).toNat, halves (dLayer o.dsc).toNat (dOper o.dsc).toNat])
    ++ (List.range 7).map fun c => word (hopDepth c - inFlight s p.ix c)
  word held.length :: held.flatMap tally ++ word s.spires.length :: s.spires.flatMap spire

/-- R271: each partition's interval and what stands against its seal. -/
def intervalWords (s : State) : List W32 :=
  (s.parts.zipIdx.flatMap fun q =>
    [word q.2] ++ words64 q.1.intervalTick ++ [word (s.ops.filter fun o => o.part == q.2 && o.interval).length,
      packW [(0, b2n q.1.window.isSome), (1, b2n q.1.rb.isSome), (2, b2n q.1.hangSeen), (3, b2n q.1.mtSeen)],
      word (((q.1.window.bind fun w => sealRefusal s q.2 w)).getD 0)])

/-- R271: the actions of the Belfry that wait are the inputs, firings and commands it has not resolved. -/
def pendingWords (s : State) : List W32 :=
  let b := s.belfry
  let ins := (b.carriedIn ++ b.inputs).flatMap fun i => [packW [(0, i.code), (8, i.part), (16, i.spire % 65536)], i.layer.zeroExtend 32] ++ words64 i.tick
  word (b.carriedIn.length + b.inputs.length) :: ins ++ word b.timers.length :: (b.timers.map fun t => packW [(0, t.1), (16, t.2)])
    ++ word b.cmds.length :: b.cmds.map (·.word)

/-- R271: the last 4 KiB, 256 entries of 16 bytes, of a hung tile's trace buffer. -/
def hungTrace (s : State) : List W32 :=
  s.hang.hung.eraseDups.flatMap fun sp =>
    let es := ((getSp s sp).map fun p => p.trc.buf).getD []
    word sp :: word (min 256 es.length) :: (es.drop (es.length - 256)).flatMap (·.words)

/-- R271, R483: what the Erg last published. -/
def ergWords (s : State) : List W32 :=
  s.erg.seq :: s.erg.pub.flatMap fun g => (g.resid ++ g.vlat ++ g.rlag ++ g.slag ++ g.temp).flatMap words64
    ++ g.ext.flatMap fun e => match e with
      | none => [0xFFFFFFFF, 0, 0, 0]
      | some x => [BitVec.ofInt 32 x.1, word x.2.1] ++ words64 x.2.2

/-- R271: the parts of the dump in their order, each a record under R46; the graph and the snapshot are those of step 2 of the path, or of the DIE_FAULT; the words of a part are the model's (log 9). -/
def dumpParts (s : State) : List (List W32) :=
  let part := fun (i : Nat) (ws : List W32) => (Rec.mk .hangDump s.time.tick 0xFFFF 0 (packW [(0, 0xFFFF), (20, i)]) ws).words
  [part 0 (words64 s.time.tick ++ [word s.hang.cause]), part 1 s.hang.graph, part 2 s.hang.snap, part 3 (intervalWords s),
    part 4 (pendingWords s), part 5 (hungTrace s), part 6 (ergWords s)]

/-- R271: the parts that lie whole within `n` bytes. -/
def wholeParts : Nat → List (List W32) → List (List W32)
  | _, [] => []
  | n, w :: l => if 4 * w.length ≤ n then w :: wholeParts (n - 4 * w.length) l else []

/-- R271: the dump is written, up to DUMP_SIZE bytes and the bytes that the budget allows; it reads up to its last complete part. -/
def writeHangDump (s : State) (budget : Option Nat) : State :=
  let size := (s.image.map (·.base.dumpSize)).getD 0
  let all := dumpParts s
  let bytes := 4 * (all.map (·.length)).foldl (· + ·) 0
  let n := min bytes (min size (budget.getD size))
  nearPush { s with hang := { s.hang with
    parts := wholeParts n all, dumpBytes := n, truncated := decide (n < bytes) } } (.hangDump n)

/-- R274, R488: DIE_FAULT. -/
def dieFault (s : State) (cause : Nat) : State :=
  if s.keep.dieFault then s
  else
    let s1 := { s with
      keep := { s.keep with dieFault := true, fault := true }
      hang := { s.hang with stage := 0, resetting := false, waitProgress := false, graph := graphWords s, snap := snapWords s } }
    let s2 := s1.tiles.foldl
      (fun s t => if stateOf s t.ix < stFenced then changeState s t.ix stFenced tcDieFault 0xFFFF 9 s.time.tick 0 0 else s) s1
    let s3 := writeHangDump (postAll s2 .dieFault [BitVec.ofNat 32 cause]) none
    closeEarly { s3 with belfry := { s3.belfry with run := false } } .fault

/-! ### Detection (R266, R267) -/

/-- R266, R267: a tile's watchdog counts. -/
def watchdogRuns (t : Tile) (sp : Spire) : Bool :=
  decide (t.state ≤ stFenced) && (!(openOps sp).isEmpty || !sp.lv.idle) && !t.wdHeld

/-- R266, R267, R269: a tile's watchdog reaches HANG_TIMEOUT. -/
def execHangTimeout (sp : Nat) (s : State) : Host.Outcome State Fault Refusal :=
  .next (onTile s sp fun t => onSp s sp fun x =>
    if !watchdogRuns t x ∨ t.ranOut ∨ s.keep.dieFault then s
    else
      let s1 := updTile s sp fun t => { t with ranOut := true }
      let s2 := updPart s1 t.part fun q => { q with hangSeen := true }
      let s3 := { s2 with hang := { s2.hang with hung := s2.hang.hung ++ [sp] } }
      let s4 := if s3.hang.waitProgress then addRec s3 ⟨.hang, s3.time.tick, sp, t.part, w3of sp t.part 0, []⟩ else s3
      tileInput s4 0x20 sp 0)

/-- R269, R273: the HANG_PATH action; a hang joins the path that runs, and none starts while progress is awaited. `code` is the input that
began it, `tick` that of its cause, `recTick` that at which it was recorded. -/
def hangPath (s : State) (dump : Bool) (code : Nat) (tick recTick : W64) : State :=
  if s.hang.stage ≠ 0 ∨ s.hang.waitProgress ∨ s.keep.dieFault then s
  else { s with hang := { s.hang with
    stage := 1, dump := dump, cause := code, causeTick := tick, recTick := recTick, firstFence := none, pathTick := s.time.tick,
    truncated := false } }

/-! ### The path (R269 to R271) -/

/-- R269 step 1, R270: the graph is built: roots are fenced, findings recorded, HANG posted. `stalled` is what the snapshot found in the credit
counters; another finding than the counters give is no event (log 96). -/
def execHangGraphDone (stalled : List (Nat × Nat)) (s : State) : Host.Outcome State Fault Refusal :=
  .next (if s.hang.stage ≠ 1 ∨ stalled ≠ stalls s then s
    else
      let g := waitGraph s
      let s1 := g.cycles.foldl (fun s x => addRec s ⟨.deadlock, s.time.tick, x, partOfSp s x, w3of x (partOfSp s x) 0,
        ((reachOf s x).map (BitVec.ofNat 32))⟩) s
      let s2 := g.stalls.foldl (fun s e => addRec s ⟨.caravanStall, s.time.tick, e.1, partOfSp s e.1, w3of e.1 (partOfSp s e.1) 0,
        [word (e.1 / 256), packW [(0, e.1 % 16), (16, e.1 % 256 / 16)], word e.2]⟩) s1
      let s3 := if g.stalls.isEmpty then s2 else alert s2 alHang
      let base := BitVec.ofNat 64 ((s.image.map (·.base.dump)).getD 0)
      let parts := (s.hang.hung.map (partOfSp s)).eraseDups
      let s4 := parts.foldl (fun s p => post s p .hang 0xFFFF
        ([BitVec.ofNat 32 g.roots.length, BitVec.ofNat 32 g.cycles.length, BitVec.ofNat 32 g.stalls.length] ++ words64 base)) s3
      let s5 := g.roots.foldl (fun s x => actFence s x tcPeal 4 2 s.hang.causeTick) s4
      { s5 with hang := { s5.hang with roots := g.roots, graph := graphWords s, snap := snapWords s, stage := if s.hang.dump then 2 else 3 } })

/-- R271: the dump is complete. -/
def execHangDumpDone (s : State) : Host.Outcome State Fault Refusal :=
  .next (if s.hang.stage ≠ 2 then s
    else
      let s1 := writeHangDump s none
      { s1 with hang := { s1.hang with stage := 3 } })

/-- R269 step 4: the budget ends; how many bytes were written by then is a free value (log 5). -/
def execDumpBudget (s : State) : Host.Outcome State Fault Refusal :=
  .next (if s.hang.stage ≠ 2 then s
    else
      let s1 := writeHangDump { s with rng := s.rng + 1 } (some (Config.unstated s.rng).toNat)
      { s1 with hang := { s1.hang with stage := 3, truncated := true } })

/-! ### Compute reset (R272, R278) -/

/-- R278 step 2: every credit but those of the Wadi lane is free again, and a Dome forgets its grants and the requests of flits. The routing tables are those of the
geometry with the route-order maps and the seam spare map, which the reset keeps (R360). -/
def resetCredits (s : State) : State :=
  { s with
    caravan := { s.caravan with held := s.caravan.held.filter fun h => h.2.1 == clWadi }
    spires := s.spires.map fun p => { p with witSent := 0, witGrants := [] }
    domes := s.domes.map fun d => { d with granted := [], retries := [] } }

/-- R278 step 3: a Banen port that is up sends again what its peer has not acknowledged. -/
def resyncPort (s : State) (q : Nat) : State :=
  match (getPort s q).replay.head? with
  | some f => if (getPort s q).up then resendFrom s q f.seq else s
  | none => s

/-- R278: the native resync of the Caravan and Banen link layers; in ZK2-compatibility mode neither is touched. -/
def linkResync (s : State) : State :=
  if (s.image.map (·.zk2)).getD false then s
  else (List.range banPorts).foldl resyncPort (resetCredits (drainAll s))

/-- R272 step 1: TT_RST_REQ at a tile. -/
def resetTile (s : State) (t : Tile) : State :=
  if t.state = stDead then s
  else
    let s1 := updTile s t.ix fun t => { t with resetDone := false, wdHeld := true }
    updSp s1 t.ix fun p => { p with lv := { p.lv with rstReq := true, rstAck := false, ready := false } }

/-- R191, R277, R278: what a compute reset clears in the Keep. -/
def clearForReset (s : State) : State :=
  let s1 := s.samples.foldl (fun s x => endSample s x.uid x.row rIncon 0x03) s
  let s2 := resetTallies ((List.range Config.parts).foldl (fun s p => refuseSeal s p 0x08) s1)
  { s2 with samples := [] }

def execComputeReset (s : State) : Host.Outcome State Fault Refusal :=
  .next (if s.hang.stage ≠ 3 ∨ s.hang.resetting then s
    else
      let s1 := clearForReset (abortSlices (linkResync s))
      let s2 := s1.tiles.foldl resetTile s1
      { s2 with hang := { s2.hang with resetting := true } })

/-- R264: the time from the hang to the first fence, for a partition that the path fenced a root of. -/
def hangFence (s : State) (h : HangSt) (p : Nat) : Nat :=
  if h.roots.any fun x => partOfSp s x == p then (h.firstFence.map fun x => x.toNat - h.causeTick.toNat).getD 0 else 0

/-- R272 steps 4 and 5, R269 step 6, R42. -/
def execComputeResetDone (s : State) : Host.Outcome State Fault Refusal :=
  .next (if !s.hang.resetting ∨ !(s.tiles.all fun t => t.state == stDead || t.resetDone) then s
    else
      let h := s.hang
      let s1 := { s with hang := { h with
        stage := 0, resetting := false, hung := [], roots := [], waitProgress := true, back := false, readyTick := s.time.tick } }
      let s2 := postAll s1 .computeReset ([0x20] ++ words64 s.time.tick)
      (List.range Config.parts).foldl (fun s p =>
        let mine := h.hung.filter fun x => partOfSp s x == p
        rollback s p ⟨if mine.isEmpty then 4 else 3, h.causeTick, h.recTick, h.cause == 0x47, mine.head?.getD 0xFFFF⟩ none
          (s.time.tick.toNat - h.pathTick.toNat) (hangFence s h p)) s2)

/-- R273. -/
def execProgressReturnTimeout (s : State) : Host.Outcome State Fault Refusal :=
  .next (if !s.hang.waitProgress then s
    else if s.hang.back then { s with hang := { s.hang with waitProgress := false } }
    else dieFault s dfProgress)

/-! ### Keep warm reset (R191, R268, R278, R354, R387) -/

/-- R240, R534: the commands of every instance are abandoned. -/
def dropCommands (s : State) : State :=
  { s with
    keep := { s.keep with cmd := s.keep.cmd.map fun c => { c with res := 0, running := none, queued := none, shown := 0 } }
    belfry := { s.belfry with cmds := [], cmdCarry := 0 }
    tiles := s.tiles.map fun t => { t with reqs := t.reqs.filter fun r => r.inst.isNone } }

/-- R191: the tracker slots, the overflow queue and the engine attachments are lost; firmware has still to record the samples. -/
def loseSamples (s : State) : State :=
  let s1 := s.samples.foldl (fun s x => (x.engines ++ x.conf).foldl (freeEngine x.uid x.row) s) s
  { s1 with samples := [], keep := { s1.keep with lostSamples := s1.keep.lostSamples ++ s.samples } }

/-- R354: what the Belfry has before it is lost, and counted: inputs, carried Cadence words, carried firings and label sets. -/
def loseInputs (s : State) : State :=
  let b := s.belfry
  let words := b.cadCarry.filterMap fun p => b.cadFifo.find? fun w => cPart w == p
  let lost := b.inputs.length + b.carriedIn.length + words.length + b.timers.length + b.cmdCarry
    + b.wcSets.length
  { s with belfry := { b with
      run := false, inputs := [], carriedIn := [], carried := false, cadCarry := [], timers := [], wcSets := [], wcCarry := 0
      cadFifo := words.foldl (fun l w => l.erase w) b.cadFifo, carryCnt := satAdd b.carryCnt lost } }

/-- R279: firmware reads the oasis slots that hold a descriptor. -/
def readSlots (s : State) : State :=
  (List.range Config.parts).foldl (fun s p =>
    ((getPart s p).oasisMem.map (·.1)).foldl (fun s i => nearPush s (.oasisRead p i)) s) { s with keep := { s.keep with readback := [] } }

/-- R268, R511: a Keep warm reset begins, or the third within 10 s is DIE_FAULT. -/
def keepWarmReset (s : State) (cause : Nat) : State :=
  let t := s.time.tick
  let recent := (s.keep.kwrTicks.filter fun x => decide (t.toNat - x.toNat < 10000000000)) ++ [t]
  let s1 := { s with keep := { s.keep with kwr := satInc s.keep.kwr, kwrTicks := recent, kwrCause := cause } }
  if recent.length ≥ 3 then dieFault s1 dfKwr
  else
    let s2 := readSlots (dropCommands (loseInputs (loseSamples (abortSlices (linkResync s1)))))
    { s2 with
      keep := { s2.keep with
        mbx := s2.keep.mbx.map fun _ => Mbx.reset, kwrDown := true, draining := true, drainLost := List.replicate 16 0 }
      parts := s2.parts.map fun q => { q with window := q.window.map fun w => { w with kwr := true } } }

/-- The cause in a KEEP_RESTART note (log 20): 1 the watchdog, 2 a CFGPAR of the KEEP page. -/
def execKeepWatchdog (s : State) : Host.Outcome State Fault Refusal :=
  .next (if s.keep.dieFault then s else keepWarmReset s 1)

/-- A record waits for the near port. -/
def evidenceOf : NearItem → Option Rec
  | .evidence r => some r
  | _ => none

/-- R387: the drain's time runs out; what is still staged is lost. -/
def execRecordDrainTimeout (s : State) : Host.Outcome State Fault Refusal :=
  .next (if !s.keep.draining then s
    else
      let lost := s.near.waiting.filterMap evidenceOf
      let s1 := lost.foldl (fun s r =>
        { subUse s r.part (recLines r) with
          records := s.records.erase r
          keep := { s.keep with drainLost := updAt s.keep.drainLost r.part (· + 1) } }) s
      { s1 with
        keep := { s1.keep with draining := false }
        near := { s1.near with waiting := s1.near.waiting.filter fun i => (evidenceOf i).isNone }
        cistern := { s1.cistern with wrstLost := satAdd s1.cistern.wrstLost lost.length } })

end Sys2Proof.Machine
end

