-- ==== Sys2Proof/Machine/Thermal.lean ====
section
/-! DEFINITION. Temperature sensors, throttle and trip (R446 to R456). -/

namespace Sys2Proof.Machine

/-! ### Readings (R446) -/

/-- R446: the trim word of a sensor: Spires first, then Domes. -/
def trimOf (s : State) (dome : Bool) (ix : Nat) : BitVec 20 := s.fuses.trim.getD (if dome then 16384 + ix else ix) 0

def trimA (t : BitVec 20) : Int := 3584 + (fld t 0 10 : Nat)
def trimD (t : BitVec 20) : Int := (BitVec.ofNat 10 (fld t 10 10)).toInt

/-- R448: the curvature correction at a temperature in degrees: linear between the points at −40, −30, …, 120, held outside. -/
def curveAt (c : List Int) (t : Rat) : Rat :=
  let at_ := fun i : Nat => (c.getD i 0 : Rat)
  let x := (t + 40) / 10
  if x ≤ 0 then at_ 0 / 64
  else if x ≥ 16 then at_ 16 / 64
  else
    let i := x.floor.toNat
    (at_ i + (at_ (i + 1) - at_ i) * (x - (i : Rat))) / 64

/-- R446: the reading in quarters of a degree, ties upward. -/
def reading (c : List Int) (t : BitVec 20) (count : Nat) : Int :=
  let lin : Rat := 25 + ((count : Int) - trimA t : Int) * 80 / (trimD t : Rat)
  (4 * (lin + curveAt c lin) + 1 / 2).floor

/-! ### Limits (R448 to R451) -/

/-- R448, R511: the thresholds of levels 1 to 3 and of the trip, in quarters of a degree; in the safe state the trip is 115 °C. -/
def thresholds (s : State) : List Int :=
  match s.image with
  | some im => [4 * im.thermal.warn, 4 * im.thermal.thr2, 4 * im.thermal.thr3, if inSafe s uThm then 460 else 4 * im.thermal.trip]
  | none => [400, 420, 440, 460]

def thrAt (s : State) (l : Nat) : Int := (thresholds s).getD (l - 1) 0

/-- R450: the level that a reading reaches. -/
def levelOf (s : State) (t : Int) : Nat := (((thresholds s).take 3).filter fun x => decide (t ≥ x)).length

/-- R449: a sensor samples fast within 5 °C of a threshold, or above T_WARN. -/
def fastOf (s : State) (t : Int) : Bool := (thresholds s).any (fun x => decide ((t - x).natAbs ≤ 20)) || decide (t > thrAt s 1)

/-- R451, R392, R424, R454, R511: the level driven on THROTTLE_N; a change is counted. -/
def driveLevel (s : State) : State :=
  let sens := (s.spires.map (·.sensor) ++ s.domes.map (·.sensor)).map (·.lvl)
  let tl := sens.foldl max 0
  let lv := if !s.thermal.swept || s.pads.thermtrip || s.boot.step == 7 || inSafe s uThm then 3 else max tl s.thermal.plevel
  let s1 := if lv = s.thermal.level then s else thmCount s thLvlchg 1
  { s1 with thermal := { s1.thermal with tlevel := tl, level := lv } }

/-- R457: the THERM record. -/
def thermRec (s : State) (dome : Bool) (ix old new : Nat) (t : Int) (trip : Bool) : Rec :=
  let sp := if dome then 0xFFFF else ix
  let p := if dome then 0 else partOfSp s ix
  ⟨.therm, s.time.tick, sp, p, w3of sp p 0,
    [BitVec.ofNat 32 (if dome then 16384 + ix else ix), packW [(0, old), (16, new)], BitVec.ofNat 32 (t % 2048).toNat,
      BitVec.ofNat 32 s.thermal.level, BitVec.ofNat 32 (b2n trip)]⟩

/-- R450: a thermal input; a Dome sensor's carries no Spire and partition 0. -/
def thermInput (s : State) (dome : Bool) (ix code : Nat) : State :=
  if dome then partInput s code 0 0xFFFF 0 else tileInput s code ix 0

/-- R454, R42: the die trips. -/
def tripDie (s : State) (dome : Bool) (ix : Nat) (x : Sensor) : State :=
  if s.pads.thermtrip then s
  else
    let s1 := driveLevel { s with pads := { s.pads with thermtrip := true } }
    let s2 := addRec (abortSlices s1) (thermRec s1 dome ix x.lvl x.lvl x.temp true)
    thermInput s2 dome ix 0x03

def getSensor (s : State) (dome : Bool) (ix : Nat) : Option Sensor :=
  if dome then (getDome s ix).map (·.sensor) else (getSp s ix).map (·.sensor)

def putSensor (s : State) (dome : Bool) (ix : Nat) (x : Sensor) : State :=
  if dome then updDome s ix fun d => { d with sensor := x } else updSp s ix fun p => { p with sensor := x }

/-- R447: the reference of a Dome: its sensor, or the highest reading of its field's good sensors. -/
def domeRef (s : State) (d : Nat) : Int :=
  match getDome s d with
  | some x =>
    if !x.sensor.bad then x.sensor.temp
    else
      let good := (s.spires.filter fun p => p.ix / 256 == d && p.sensor.valid && !p.sensor.bad).map (·.sensor.temp)
      match good with
      | [] => x.sensor.temp
      | t :: ts => ts.foldl max t
  | none => 0

/-- R447: a sensor becomes SNSBAD; it keeps no level of its own. -/
def markBad (s : State) (dome : Bool) (ix : Nat) (x : Sensor) : State :=
  let s1 := if x.bad then s else { thmCount s thSnsbad 1 with thermal := { (thmCount s thSnsbad 1).thermal with snsbad := true } }
  let y := { x with bad := true, lvl := 0, trips := 0 }
  let s2 := putSensor s1 dome ix y
  driveLevel (putSensor s2 dome ix { y with temp := domeRef s2 (if dome then ix else ix / 256), valid := true })

/-- R453: the sweep: when every sensor has read once, the Domes' highest and lowest readings go to the Erg and THM_MAX. -/
def sweepDome (s : State) (d : Dome) : State :=
  let sp := (s.spires.filter fun p => p.ix / 256 == d.ix && !p.sensor.bad).map fun p => (p.sensor.temp, p.ix)
  let all : List (Int × Nat) := (if d.sensor.bad then [] else [(d.sensor.temp, 0xFFFF)]) ++ sp
  match all with
  | [] => s
  | a :: as =>
    let hi := as.foldl (fun (m x : Int × Nat) => if x.1 > m.1 then x else m) a
    let lo := as.foldl (fun (m x : Int × Nat) => if x.1 < m.1 then x else m) a
    ergTemp s hi.1 hi.2 lo.1 lo.2

def sweepEnd (s : State) : State :=
  let s1 := s.domes.foldl sweepDome s
  let all : List (Int × Nat) := (s1.domes.filter fun d => !d.sensor.bad).map (fun d => (d.sensor.temp, 0xFFFF)) ++
    (s1.spires.filter fun p => !p.sensor.bad).map fun p => (p.sensor.temp, p.ix)
  let m : Int × Nat := match all with
    | [] => (s1.thermal.maxTemp, s1.thermal.maxSrc)
    | a :: as => as.foldl (fun (m x : Int × Nat) => if x.1 > m.1 then x else m) a
  driveLevel { s1 with thermal := { s1.thermal with swept := true, sweptSet := [], maxTemp := m.1, maxSrc := m.2 } }

/-- A sensor has read; the sweep ends with the last of them. -/
def sweepMark (s : State) (dome : Bool) (ix : Nat) : State :=
  let set := if s.thermal.sweptSet.contains (dome, ix) then s.thermal.sweptSet else s.thermal.sweptSet ++ [(dome, ix)]
  let s1 := { s with thermal := { s.thermal with sweptSet := set } }
  if set.length ≥ s.spires.length + s.domes.length then sweepEnd s1 else s1

/-- R450, R454: a good reading: the level rises at once, two in a row at T_TRIP trip the die. -/
def goodReading (s : State) (dome : Bool) (ix : Nat) (x : Sensor) : State :=
  let lv := levelOf s x.temp
  let trips := if x.temp ≥ thrAt s 4 then x.trips + 1 else 0
  let y := { x with valid := true, fast := fastOf s x.temp, lvl := max x.lvl lv, trips := trips }
  let s1 := driveLevel (putSensor s dome ix y)
  let s2 := if lv > x.lvl then addRec s1 (thermRec s1 dome ix x.lvl lv x.temp false) else s1
  let s3 := if x.lvl = 0 ∧ lv > 0 then thermInput s2 dome ix 0x01 else s2
  if trips ≥ 2 then tripDie s3 dome ix y else s3

/-- R446, R447: a gate ends with a count. A sensor is held against its Dome's reference once a sweep, at its first reading of the sweep. -/
def takeReading (s : State) (dome : Bool) (ix count : Nat) : State :=
  match getSensor s dome ix with
  | none => s
  | some x =>
    let tr := trimOf s dome ix
    let t := if trimD tr = 0 then 0 else reading ((s.image.map (·.thermal.curve)).getD []) tr count
    let out := tr == 0 || decide ((trimD tr).natAbs < 160) || decide (t < -160) || decide (t > 600)
    let ref := domeRef s (ix / 256)
    let far := !dome && decide ((t - ref).natAbs > 100) && ((getDome s (ix / 256)).map (·.sensor.valid)).getD false
    let diffs := if s.thermal.sweptSet.contains (dome, ix) then x.diffs else if far then x.diffs + 1 else 0
    let s1 := if x.bad || out || decide (diffs ≥ 3) then markBad s dome ix { x with diffs := diffs }
      else goodReading s dome ix { x with temp := t, diffs := diffs }
    sweepMark s1 dome ix

def execSensorReading (dome : Bool) (ix count : Nat) (s : State) : Host.Outcome State Fault Refusal := .next (takeReading s dome ix count)

/-- R450: the level falls one step when the reading is below its threshold less HYST. -/
def execLevelFall (dome : Bool) (ix : Nat) (s : State) : Host.Outcome State Fault Refusal :=
  .next (match getSensor s dome ix with
    | none => s
    | some x =>
      let hyst : Int := 4 * ((s.image.map (·.thermal.hyst)).getD 3 : Nat)
      if x.lvl = 0 ∨ x.bad ∨ x.temp ≥ thrAt s x.lvl - hyst then s
      else
        let s1 := driveLevel (putSensor s dome ix { x with lvl := x.lvl - 1 })
        let s2 := addRec s1 (thermRec s1 dome ix x.lvl (x.lvl - 1) x.temp false)
        if x.lvl = 1 then thermInput s2 dome ix 0x02 else s2)

end Sys2Proof.Machine
end

