-- ==== Sys2Proof/Machine/Caravan.lean ====
section
/-! DEFINITION. The Caravan (R359 to R374): the seam tree, mesh routes, flit retries and links that go down, backlog reports and
grants, with the trace and dump bytes a grant moves (R473, R478). A bring-up failure (R424) stands here because a lost seam makes one. -/

namespace Sys2Proof.Machine

/-! ### Bring-up failure (R424) -/

def bfFuse : Nat := 1
def bfTriplatch : Nat := 2
def bfNotref : Nat := 3
def bfPll : Nat := 4
def bfNoimage : Nat := 5
def bfSeam : Nat := 6
def bfBanen : Nat := 7
def bfUnlicensed : Nat := 8
def bfNoengine : Nat := 9

/-- R424: bring-up fails: FAULT_N, THROTTLE_N low (R392), the Belfry stops, TT_RST_REQ at every tile. -/
def bringFail (s : State) (cause : Nat) : State :=
  if s.boot.step = 7 then s
  else
    let s1 := { s with
      boot := { s.boot with step := 7, fail := cause }
      keep := { s.keep with fault := true }
      belfry := { s.belfry with run := false }
      domes := s.domes.map fun d => { d with released := false }
      tiles := s.tiles.map fun t => { t with resetDone := false }
      spires := s.spires.map fun p => { p with lv := { p.lv with rstReq := true, rstAck := false, ready := false } } }
    driveLevel s1

/-! ### The seam tree (R361, R362) -/

def domeCfg (s : State) (d : Nat) : Option DomeCfg := s.image.bind fun im => im.geom.domes[d]?

/-- Whether Dome `x` lies at or below the child end of the edge above `d`, within `n` steps. -/
def atOrBelow (s : State) (d : Nat) : Nat → Nat → Bool
  | 0, x => x == d
  | n + 1, x => x == d || ((domeCfg s x).map fun c => c.parent < 64 && atOrBelow s d n c.parent).getD false

/-- R361: the Domes at or below the edge above `d`. -/
def domesBelow (s : State) (d : Nat) : List Nat := (s.domes.map (·.ix)).filter fun x => atOrBelow s d 64 x
def upGroups (s : State) (d : Nat) : Nat := ((domesBelow s d).length + 1) / 2
def dnGroups (s : State) (d : Nat) : Nat := max 1 (((domesBelow s d).length + 7) / 8)

/-- A seam edge works: a group is left in each direction (R362). -/
def edgeUp (d : Dome) : Bool := d.groupsUp.any id && d.groupsDn.any id

/-- R362, R389: a SEAMDEG record, its flag and the alarm. -/
def seamdeg (s : State) (d : Nat) (up : Bool) (cfg work : Nat) (wires : List Nat) : State :=
  alert (addRec { s with caravan := { s.caravan with seamdeg := true } } ⟨.seamdeg, s.time.tick, 0xFFFF, 0, packW [(0, 0xFFFF)],
    [BitVec.ofNat 32 d, BitVec.ofNat 32 (b2n up), BitVec.ofNat 32 cfg, BitVec.ofNat 32 work] ++ wires.map (BitVec.ofNat 32)⟩) alCaravan

/-- R362, R363, R419, R424: a seam group is disabled; a Dome left without a group is cut off with every Dome below it, and bring-up
that has not ended fails. -/
def groupDown (s : State) (d g : Nat) (up : Bool) (wires : List Nat) : State :=
  match getDome s d with
  | none => s
  | some x =>
    let l := if up then x.groupsUp else x.groupsDn
    if !(l.getD g false) then s
    else
      let l1 := updAt l g fun _ => false
      let s1 := updDome s d fun y => if up then { y with groupsUp := l1 } else { y with groupsDn := l1 }
      let s2 := seamdeg s1 d up l.length (l1.filter id).length wires
      if l1.any id then s2
      else
        let s3 := { s2 with domes := s2.domes.map fun y => if atOrBelow s2 d 64 y.ix then { y with up := false } else y }
        if s3.boot.ready then s3 else bringFail s3 bfSeam

/-! ### Mesh routes (R359, R360) -/

def meshX (l : Nat) : Nat := l % 16
def meshY (l : Nat) : Nat := l / 16

/-- The links along a row or column, from position n down to 0. -/
def runLinks (mk : Nat → Nat) : Nat → List (Nat × Nat)
  | 0 => []
  | n + 1 => (mk n, mk (n + 1)) :: runLinks mk n

/-- R360: the mesh links, lower LOCAL index first, between a router and router (0, 0): order 0 goes along its row first, order 1 along
its column first. -/
def meshPath (loc : Nat) (colFirst : Bool) : List (Nat × Nat) :=
  let x := meshX loc
  let y := meshY loc
  if colFirst then runLinks (fun i => 16 * i + x) y ++ runLinks (fun i => i) x
  else runLinks (fun i => 16 * y + i) x ++ runLinks (fun i => 16 * i) y

/-- The ends of a mesh link, lower first. -/
def linkEnds (l : LinkId) : Option (Nat × Nat) :=
  match l with
  | .mesh _ a b => some (min a b, max a b)
  | .seam _ _ _ => none

/-- The down mesh links of a Dome. -/
def downEnds (d : Dome) : List (Nat × Nat) := d.down.filterMap linkEnds

/-- R360: what a link's loss does to one Spire of the Dome: changed order, or cut off. -/
inductive RouteFate where
  | kept | changed | cut
  deriving DecidableEq, Repr

def routeFate (d : Dome) (loc : Nat) (l : Nat × Nat) : RouteFate :=
  let o := bitOf d.order loc
  let bad := downEnds d
  if !(meshPath loc o).contains l then .kept
  else if (meshPath loc (!o)).all fun e => !bad.contains e then .changed else .cut

/-- R360, R363: a mesh link goes down. -/
def meshDown (s : State) (dix a b : Nat) : State :=
  match getDome s dix with
  | none => s
  | some d0 =>
    let l := (min a b, max a b)
    let d := { d0 with down := d0.down ++ [LinkId.mesh dix l.1 l.2] }
    let mine := (s.spires.filter fun p => p.ix / 256 == dix).map fun p => p.ix % 256
    let fate := mine.map fun x => (x, routeFate d x l)
    let changed := (fate.filter fun f => f.2 == .changed).map (·.1)
    let cut := (fate.filter fun f => f.2 == .cut && !((getTile s (dix * 256 + f.1)).map (·.lost)).getD false).map (·.1)
    let order := changed.foldl (fun o x => o ^^^ BitVec.ofNat 256 (2 ^ x)) d.order
    let s1 := updDome s dix fun _ => { d with order := order }
    let pos := fun x => packW [(0, meshX x), (16, meshY x)]
    let s2 := addRec { s1 with caravan := { s1.caravan with routefail := true } } ⟨.routefail, domeNow s dix, 0xFFFF, 0, packW [(0, 0xFFFF)],
      [BitVec.ofNat 32 dix, pos l.1, pos l.2, BitVec.ofNat 32 changed.length, BitVec.ofNat 32 cut.length]
        ++ (changed ++ cut).map fun x => BitVec.ofNat 32 (dix * 256 + x)⟩
    let s3 := cut.foldl (fun s x => tileInput (updTile s (dix * 256 + x) fun t => { t with lost := true }) 0x13 (dix * 256 + x) 0) s2
    alert s3 alCaravan

/-! ### Flit retries (R363) -/

def linkDome : LinkId → Nat
  | .mesh d _ _ => d
  | .seam d _ _ => d

/-- One form for a link: a mesh link's lower end first. -/
def normLink : LinkId → LinkId
  | .mesh d a b => .mesh d (min a b) (max a b)
  | l => l

/-- A link of the instance that is not down. -/
def linkLive (d : Dome) : LinkId → Bool
  | .mesh x a b => !d.down.contains (normLink (.mesh x a b))
  | .seam _ g up => (if up then d.groupsUp else d.groupsDn).getD g false

/-- R362: the failing wires of a group that spares replaced. -/
def spareWires (s : State) (d g : Nat) (up : Bool) : List Nat :=
  (((getDome s d).map (·.spareMap)).getD []).filterMap fun w => if w.1 = up ∧ w.2.1 = g then some w.2.2 else none

def linkGone (s : State) (l : LinkId) : State :=
  match l with
  | .mesh d a b => meshDown s d a b
  | .seam d g up => groupDown s d g up (spareWires s d g up)

def seamErrMax (s : State) : Nat := ((area s).map (·.seamErrMax)).getD 1000

/-- R363: the retry is counted, and a seam group's retries of this second. -/
def countRetry (s : State) (d : Nat) (l : LinkId) (n : Nat) : State :=
  let sec := s.time.tick.toNat / 1000000000
  let s1 := { s with caravan := { s.caravan with linkretry := satInc s.caravan.linkretry } }
  updDome s1 d fun x =>
    let old := x.seamErr.find? fun e => e.1 == l && e.2.1 == sec
    { x with
      retries := (x.retries.filter fun r => r.1 != l) ++ [(l, n)]
      seamErr := match l with
        | .mesh _ _ _ => x.seamErr
        | .seam _ _ _ => (x.seamErr.filter fun e => e.1 != l) ++ [(l, sec, ((old.map (·.2.2)).getD 0) + 1)] }

/-- R363: a flit arrives whose check does not fit it. `again` says that this flit failed before and was requested. Sixteen requests without success take the link down, and
so does the retry beyond SEAM_ERR_MAX of one second on a seam group. -/
def execFlitCrcFail (l : LinkId) (f : FlitIn) (s : State) : Host.Outcome State Fault Refusal :=
  .next (match getDome s (linkDome l) with
    | none => s
    | some d =>
      let k := normLink l
      let made := if f.again then ((d.retries.find? fun r => r.1 == k).map (·.2)).getD 0 else 0
      if !linkLive d k ∨ crc8 128 f.flit.toNat = f.crc.toNat then s
      else if made ≥ 16 then linkGone s k
      else
        let s1 := countRetry s d.ix k (made + 1)
        let errs := ((getDome s1 d.ix).bind fun x => x.seamErr.find? fun e => e.1 == k).map (·.2.2)
        if errs.getD 0 > seamErrMax s then linkGone s1 k else s1)

/-! ### Backlog and grants (R372 to R374) -/

/-- The Spires' report of WIT, REC and BULK bytes. -/
def execBacklogReport (sp wit rec bulk : Nat) (s : State) : Host.Outcome State Fault Refusal :=
  .next (onSp s sp fun _ => updDome s (sp / 256) fun d =>
    { d with backlog := (d.backlog.filter fun b => b.1 != sp) ++ [(sp, wit, rec, bulk)] })

def weightOf (s : State) (d p : Nat) : Nat :=
  if inSafe s uCvn || inSafe s (uDome d) then 1 else ((partCfg s p).map (·.weight)).getD 1

/-- R372: the bytes granted to a Spire in the last 1,024 ticks, in which its uplink carries 2 GB/s, that is 2,048 bytes (log 97). -/
def recentGrants (s : State) (d : Dome) (sp : Nat) : Nat :=
  ((d.granted.filter fun g => g.1 == sp && decide (s.time.tick.toNat < g.2.2.toNat + 1024)).map (·.2.1)).foldl (· + ·) 0

/-- The Spires of a partition in the Dome with backlog of the kinds that `f` measures whose uplink takes a further grant, ascending. -/
def busySpires (s : State) (d : Dome) (p : Nat) (f : Nat × Nat × Nat → Nat) : List Nat :=
  ((d.backlog.filter fun b => partOfSp s b.1 == p && f b.2 != 0 && decide (recentGrants s d b.1 + 256 ≤ 2048)).map (·.1)).insertionSort (· ≤ ·)

def kindWit (b : Nat × Nat × Nat) : Nat := b.1
def kindBulk (b : Nat × Nat × Nat) : Nat := b.2.1 + b.2.2

/-- The next Spire in turn: the first at or above the pointer, else the lowest. -/
def nextSpire (ptr : Nat) (l : List Nat) : Option Nat := (l.find? fun x => decide (x ≥ ptr)).or l.head?

/-- R473: the Keep stages one ring line of up to three entries, or drops it when the quota refuses. -/
def ringLine (s : State) (sp : Nat) (es : List TrcEntry) : State :=
  let p := partOfSp s sp
  if !quotaOk s p lvBulk then refuseQuota s p
  else
    let slots := ((s.image.map (·.base.trcSize)).getD 0) / 64 - 1
    let full := decide ((getPart s p).logs.trace.items.length ≥ slots)
    let now := s.time.tick.toNat
    let lo := ((es.head?.map (·.tick.toNat)).getD 0)
    let hi := BitVec.ofNat 32 (if lo ≤ now % 2 ^ 32 then now / 2 ^ 32 else now / 2 ^ 32 - 1)
    let n := (getPart s p).logs.trace.prod
    let s1 := updPart (addUse s p 1) p fun q => { q with logs := { q.logs with trace := q.logs.trace.push slots (sp, hi, es) } }
    let s2 := if full then { s1 with trc := { s1.trc with ringlost := satInc s1.trc.ringlost } } else s1
    nearPush (addMeter s2 p mTrace (16 * es.length)) (.trace p n)

/-- Entries in lines of three. -/
def lines3 (es : List TrcEntry) : List (List TrcEntry) := (List.range ((es.length + 2) / 3)).map fun i => (es.drop (3 * i)).take 3

/-- R473, R478: a Spire sends up to `n` bytes: captured dump bytes, ahead of trace entries of 16. -/
def drainBulk (s : State) (sp n : Nat) : State :=
  match getSp s sp with
  | none => s
  | some x =>
    let k := min n x.trc.dump.length
    let m := (n - k) / 16
    let es := x.trc.buf.take m
    let s1 := updSp s sp fun y => { y with
      trc := { y.trc with dump := y.trc.dump.drop k, dumpOut := y.trc.dumpOut ++ y.trc.dump.take k, buf := y.trc.buf.drop m } }
    let s2 := uplink (addBigSp (addBigSp s1 sp 6 (16 * es.length)) sp 7 k) sp (16 * es.length + k)
    (lines3 es).foldl (fun s l => ringLine s sp l) s2

/-- R374: 256 bytes granted to a Spire, REC first. -/
def grantRec (d : Nat) (s : State) (sp : Nat) : State :=
  let b := ((getDome s d).bind fun x => (x.backlog.find? fun b => b.1 == sp).map (·.2)).getD (0, 0, 0)
  let r := min 256 b.2.1
  let k := min (256 - r) b.2.2
  let s1 := updDome s d fun x => { x with
    backlog := x.backlog.map fun e => if e.1 = sp then (sp, b.1, b.2.1 - r, b.2.2 - k) else e
    granted := x.granted ++ [(sp, 256, s.time.tick)] }
  drainBulk (bigDome (bigDome (bigDome s1 d 0 (r + k)) d 4 r) d 5 k) sp k

/-- R372, R373: 256 witness bytes granted to a Spire, which injects what they carry. -/
def grantWit (d : Nat) (s : State) (sp : Nat) : State :=
  let b := ((getDome s d).bind fun x => (x.backlog.find? fun b => b.1 == sp).map (·.2)).getD (0, 0, 0)
  let k := min 256 b.1
  let s1 := updDome s d fun x => { x with
    backlog := x.backlog.map fun e => if e.1 = sp then (sp, b.1 - k, b.2) else e
    granted := x.granted ++ [(sp, 256, s.time.tick)]
    witServed := updAt x.witServed (partOfSp s sp) (· + 256)
    bucket := x.bucket - 256 }
  let s2 := updSp s1 sp fun p => { p with witGrants := p.witGrants ++ [(256, s.time.tick)] }
  bigDome (bigDome (inject s2 sp) d 0 k) d 3 k

/-! ### The witness bucket (R373) -/

/-- The partitions of a field with witness backlog. -/
def witBusy (s : State) (x : Dome) : List Nat := (List.range 16).filter fun p => !(busySpires s x p kindWit).isEmpty

/-- R373: partition `p` has had less than `q` for its weight. -/
def lessServed (s : State) (x : Dome) (p q : Nat) : Bool :=
  decide (x.witServed.getD p 0 * weightOf s x.ix q < x.witServed.getD q 0 * weightOf s x.ix p)

/-- The partition that is served next: the one that has had least for its weight. -/
def witNext (s : State) (x : Dome) : Option Nat := (witBusy s x).foldl (fun b p => match b with
  | none => some p
  | some q => if lessServed s x p q then some p else some q) none

/-- The Spire of a partition that is served next: the one that has had least lately (log 97). -/
def leastGranted (s : State) (x : Dome) (l : List Nat) : Option Nat := l.foldl (fun b i => match b with
  | none => some i
  | some j => if recentGrants s x i < recentGrants s x j then some i else some j) none

/-- R373: a partition that has had no demand keeps no claim: its count stands no lower than that of the one served next. -/
def raiseIdle (s : State) (x : Dome) : Dome :=
  match witNext s x with
  | none => x
  | some q => { x with witServed := x.witServed.zipIdx.map fun e =>
      if (witBusy s x).contains e.2 then e.1 else max e.1 (x.witServed.getD q 0 * weightOf s x.ix e.2 / weightOf s x.ix q) }

/-- R373: grants out of the bucket while it, the demand and the uplinks last: the bytes left of `cap`. -/
def grantWits (d : Nat) : Nat → Nat → State → Nat × State
  | 0, cap, s => (cap, s)
  | n + 1, cap, s =>
    match (getDome s d).bind fun x => (witNext s x).bind fun p => leastGranted s x (busySpires s x p kindWit) with
    | some sp => if cap < 256 then (cap, s) else grantWits d n (cap - 256) (grantWit d s sp)
    | none => (cap, s)

/-! ### Deficit round robin (R374) -/

/-- What a round of deficit round robin works on: the deficits, the pointers, the capacity, the state. -/
structure Drr where
  deficit : List Nat
  ptrs : List Nat
  cap : Nat
  st : State

/-- The inner loop of R374 for partition `p`: grants while deficit, backlog and capacity last. -/
def drrGrants (d p : Nat) (kind : Nat × Nat × Nat → Nat) (grant : State → Nat → State) : Nat → Drr → Drr
  | 0, r => r
  | n + 1, r =>
    match getDome r.st d with
    | none => r
    | some x =>
      match nextSpire (r.ptrs.getD p 0) (busySpires r.st x p kind) with
      | none => r
      | some sp =>
        if r.deficit.getD p 0 < 256 ∨ r.cap < 256 then r
        else drrGrants d p kind grant n
          ⟨updAt r.deficit p (· - 256), updAt r.ptrs p fun _ => sp + 1, r.cap - 256, grant r.st sp⟩

/-- One partition's turn. -/
def drrPart (d : Nat) (kind : Nat × Nat × Nat → Nat) (grant : State → Nat → State) (r : Drr) (p : Nat) : Drr :=
  match getDome r.st d with
  | none => r
  | some x =>
    if (busySpires r.st x p kind).isEmpty then { r with deficit := updAt r.deficit p fun _ => 0 }
    else
      let r1 := { r with deficit := updAt r.deficit p (· + 64 * weightOf r.st d p) }
      drrGrants d p kind grant (r1.cap / 256) r1

/-- R374: rounds over the partitions while capacity and backlog last; every fourth round grants at least once, so the fuel is not
what ends them. -/
def drr (d : Nat) (kind : Nat × Nat × Nat → Nat) (grant : State → Nat → State) : Nat → Drr → Drr
  | 0, r => r
  | n + 1, r =>
    match getDome r.st d with
    | none => r
    | some x =>
      if r.cap < 256 ∨ (List.range 16).all fun p => (busySpires r.st x p kind).isEmpty then r
      else drr d kind grant n ((List.range 16).foldl (drrPart d kind grant) r)

/-- R369: the verdict bytes of a grant interval enter the field's count of the last millisecond: offered, and carried at up to 24 GB/s with what is
queued ahead. -/
def countVerdicts (s : State) (d v : Nat) : State :=
  updDome s d fun x =>
    let offered := 64 * v
    let carried := min (x.vqueue + offered) (64 * 24)
    { x with
      vqueue := x.vqueue + offered - carried
      vbytes := (x.vbytes.filter fun b => decide (s.time.tick.toNat < b.1.toNat + 1000000)) ++ [(s.time.tick, offered, carried)] }

/-- R369: a field beyond its allowance of 16 GB/s. The record brings the bytes offered and carried in the last millisecond, and the field's late
records since the last such record (DEDUCED, log 97). -/
def verdictStorm (s : State) (d v : Nat) : State :=
  if v ≤ 16 then s
  else
    let s1 := { s with caravan := { s.caravan with vstorm := true } }
    let quiet := match (getDome s d).bind (·.stormTick) with
      | none => true
      | some t => decide (s.time.tick.toNat - t.toNat ≥ 1000000)
    if !quiet then s1
    else
      let sum := fun f : W64 × Nat × Nat → Nat => ((((getDome s d).map (·.vbytes)).getD []).map f).foldl (· + ·) 0
      let late := ((getDome s d).map fun x => x.vlate - x.stormLate).getD 0
      addRec (updDome s1 d fun x => { x with stormTick := some s.time.tick, stormLate := x.vlate })
        ⟨.vstorm, domeNow s d, 0xFFFF, 0, packW [(0, 0xFFFF)],
          [BitVec.ofNat 32 d, BitVec.ofNat 32 (sum (·.2.1)), BitVec.ofNat 32 (sum (·.2.2)), late]⟩

/-- R372 to R374: one grant interval of a Dome whose verdict classes move `vrate` GB/s. The bytes toward the Spires that are no fence frames have
no layout in the manual (log 97). -/
def execGrantInterval (dome vrate : Nat) (s : State) : Host.Outcome State Fault Refusal :=
  .next (match getDome s dome with
    | none => s
    | some d =>
      let rate := if inSafe s uCvn then 0 else ((area s).map (·.witRate)).getD 8
      let cap := max 8 (32 - vrate) * 64
      let bucket := min 65536 (d.bucket + rate * 64)
      let bytes := (Config.unstated s.rng).toNat
      let carried := min (d.vqueue + vrate * 64) (64 * 24)
      let s0 := countVerdicts (bigDome (bigDome (bigDome { s with rng := s.rng + 1 } dome 2 carried) dome 0 carried) dome 1 (bytes / 2 ^ 32)) dome vrate
      let fresh := d.granted.filter fun g => decide (s.time.tick.toNat < g.2.2.toNat + 1024)
      let s1 := verdictStorm (updDome s0 dome fun x => raiseIdle s { x with bucket := bucket, granted := fresh }) dome vrate
      let wcap := min cap bucket
      let w := grantWits dome (wcap / 256) wcap s1
      let b := drr dome kindBulk (grantRec dome) (cap / 64 + 4) ⟨d.deficit, d.nextSp, cap - (wcap - w.1), w.2⟩
      updDome b.st dome fun x => { x with deficit := b.deficit, nextSp := b.ptrs })

end Sys2Proof.Machine
end

