-- ==== Sys2Proof/Machine/Memory.lean ====
section
/-! DEFINITION. Byte memories as sorted lists of (address, byte), in the one form in which no listed byte equals what an unlisted
address reads as. `d` gives that value for each address. -/

namespace Sys2Proof.Machine

/-- Reads one byte: a listed one, else what the unlisted address reads as. -/
def memGet (d : Nat → Byte) : List Host.Cell → Nat → Byte
  | [], a => d a
  | c :: m, a => if c.1 = a then c.2 else memGet d m a

/-- Puts a byte at its place among the listed addresses. -/
def memInsert : List Host.Cell → Nat → Byte → List Host.Cell
  | [], a, b => [(a, b)]
  | c :: m, a, b => if a < c.1 then (a, b) :: c :: m else if a = c.1 then (a, b) :: m else c :: memInsert m a b

/-- Removes an address from the listed ones. -/
def memErase (m : List Host.Cell) (a : Nat) : List Host.Cell := m.filter fun c => decide (c.1 ≠ a)

/-- Writes one byte; writing what an unlisted address reads as removes the entry. -/
def memPut (d : Nat → Byte) (m : List Host.Cell) (a : Nat) (b : Byte) : List Host.Cell :=
  if b = d a then memErase m a else memInsert m a b

/-- Forgets every listed byte with lo ≤ address < hi. -/
def memDrop (m : List Host.Cell) (lo hi : Nat) : List Host.Cell := m.filter fun c => decide (c.1 < lo) || decide (hi ≤ c.1)

/-- The canonical form: addresses strictly rising, no entry equal to what its address reads as unlisted. -/
def Memory.wf (d : Nat → Byte) : List Host.Cell → Bool
  | [] => true
  | c :: m => decide (c.2 ≠ d c.1) && m.all (fun e => decide (c.1 < e.1)) && Memory.wf d m

end Sys2Proof.Machine
end

