-- ==== Sys2Proof/Machine/Cistern.lean ====
section
/-! DEFINITION. The Cistern (R375 to R389, R432): addresses, check bits, reads, writes, scrubbing, spare rows, bank commands. -/

namespace Sys2Proof.Machine

/-! ### Check bits (R378, R379) -/

/-- R378: the columns of d0 to d7. -/
def dataCol : List Nat := [0b00111, 0b01011, 0b01101, 0b01110, 0b10011, 0b10101, 0b10110, 0b11001]
/-- R378: E0 to E14. -/
def evenCol : List Nat :=
  [0b00011, 0b00101, 0b00110, 0b01001, 0b01010, 0b01100, 0b10001, 0b10010, 0b10100, 0b11000, 0b01111, 0b10111, 0b11011,
    0b11101, 0b11110]

/-- The exclusive or of the columns of the set bits of `x`, bit `i` having column `col i`. -/
def colXor (n : Nat) (col : Nat → Nat) (x : Nat) : Nat :=
  (List.range n).foldl (fun a i => if x.testBit i then Nat.xor a (col i) else a) 0

/-- R378: the check bits of a byte at its 23-bit address in its bank. -/
def checkOf (a : Nat) (b : Byte) : Byte :=
  BitVec.ofNat 8 (Nat.xor (colXor 8 (dataCol.getD · 0) b.toNat) (colXor 23 (fun i => evenCol.getD (i % 15) 0) a))

/-- R379: what a syndrome says. -/
inductive SynKind where
  | clean | checkBit | dataBit (i : Nat) | unwritten | bad
  deriving DecidableEq, Repr

def synKind (s : Nat) : SynKind :=
  if s = 0 then .clean
  else if s = 1 ∨ s = 2 ∨ s = 4 ∨ s = 8 ∨ s = 16 then .checkBit
  else match dataCol.findIdx? (· == s) with
    | some i => .dataBit i
    | none => if s = 31 then .unwritten else .bad

/-! ### Addresses (R376) -/

/-- The key of a byte: bank × 2^23 + address in the bank. -/
def cisKey (bank a : Nat) : Nat := bank * 2 ^ 23 + a

/-- R380, log 6: an unlisted byte holds 0x00 with the check bits of UNWRITTEN. -/
def unData (_ : Nat) : Byte := 0
def unCheck (k : Nat) : Byte := BitVec.ofNat 8 (Nat.xor (checkOf (k % 2 ^ 23) 0).toNat 31)

/-- R376: what a byte address names. -/
inductive CisAt where
  | data (bank a : Nat)
  | firmware (a : Nat)
  | reserved
  deriving DecidableEq, Repr

def cisAt (addr : Nat) : CisAt :=
  if addr < 0x0F000000 then .data (2 + addr / 64 % 30) (addr / 64 / 30 * 64 + addr % 64)
  else if 0x80000000 ≤ addr ∧ addr < 0x80800000 then .firmware (addr - 0x80000000)
  else .reserved

def updCis (s : State) (f : Cistern → Cistern) : State := { s with cistern := f s.cistern }
def updBank (s : State) (b : Nat) (f : Bank → Bank) : State := updCis s fun c => { c with banks := updAt c.banks b f }

/-- The byte stored at a key, and its check bits. -/
def cisData (s : State) (k : Nat) : Byte := memGet unData s.cistern.data k
def cisCheck (s : State) (k : Nat) : Byte := memGet unCheck s.cistern.check k

/-- The bytes of both memories at a key replaced. -/
def cisPut (s : State) (k : Nat) (b c : Byte) : State :=
  updCis s fun q => { q with data := memPut unData q.data k b, check := memPut unCheck q.check k c }

/-- R378: stores a byte with its check bits. -/
def cisStore (s : State) (bank a : Nat) (b : Byte) : State := cisPut s (cisKey bank a) b (checkOf a b)

/-- R379: the syndrome of the stored byte. -/
def syndrome (s : State) (bank a : Nat) : Nat :=
  let k := cisKey bank a
  Nat.xor (cisCheck s k).toNat (checkOf a (cisData s k)).toNat % 32

/-! ### Reads (R379, R381) -/

/-- R382: what Sirocco found in an array row is added up. -/
def foundIn (s : State) (bank row ce ue : Nat) : State :=
  updCis s fun c =>
    let old := c.found.find? fun f => f.1 == bank && f.2.1 == row
    let rest := c.found.filter fun f => !(f.1 == bank && f.2.1 == row)
    { c with found := rest ++ [(bank, row, ((old.map (·.2.2.1)).getD 0) + ce, ((old.map (·.2.2.2)).getD 0) + ue)] }

/-- A corrected byte; those that a scrub pass finds in a row count for R382. -/
def countCe (s : State) (bank a : Nat) (sirocco : Bool) : State :=
  let s1 := updBank (updCis s fun c => { c with ceCnt := satInc c.ceCnt }) bank fun b => { b with ce := satInc b.ce }
  if sirocco then foundIn s1 bank (a / 1024) 1 0 else s1

def countUe (s : State) (bank a : Nat) : State :=
  foundIn (updBank (updCis s fun c => { c with ueCnt := satInc c.ueCnt, ueSeen := true }) bank fun b => { b with ue := satInc b.ue })
    bank (a / 1024) 0 1

/-- R379: one byte is read: its value, whether it is poisoned, and what the bank does about it. `sirocco` reads do not count
UNWRITTEN bytes (R383). -/
def readStored (s : State) (bank a : Nat) (sirocco : Bool) : (Byte × Bool) × State :=
  let v := cisData s (cisKey bank a)
  match synKind (syndrome s bank a) with
  | .clean => ((v, false), s)
  | .checkBit => ((v, false), countCe s bank a sirocco)
  | .dataBit i =>
    let w := v ^^^ BitVec.ofNat 8 (2 ^ i)
    ((w, false), countCe (cisStore s bank a w) bank a sirocco)
  | .unwritten =>
    ((v, true), if sirocco then s
      else alert (updCis s fun c => { c with unwrCnt := satInc c.unwrCnt, unwrSeen := true }) alCistern)
  | .bad => ((v, true), countUe s bank a)

/-- A CISPOISON record. -/
def cispoison (s : State) (owner part bank : Nat) (unwr : Bool) (line syn kind n : Nat) (item : W32) : State :=
  addRec s ⟨.cispoison, s.time.tick, owner, part, packW [(0, owner % 65536), (16, part % 16), (20, bank), (28, b2n unwr)],
    [BitVec.ofNat 32 line, packW [(0, syn % 32), (8, kind), (16, n)], item, 0]⟩

/-- R381: whose item a poisoned line holds: the owner's Spire, its partition, its content kind in the table's order, and the item. -/
structure Owner where
  spire : Nat
  part : Nat
  kind : Nat
  item : W32
  deriving DecidableEq, Repr

/-- The sample of an operation's row. -/
def sampleOf (s : State) (uid row : Nat) : Option Sample := s.samples.find? fun x => x.uid == uid && x.row == row

def ownerOfSample (s : State) (uid row kind : Nat) : Owner :=
  match sampleOf s uid row with
  | some x => ⟨x.spire, x.part, kind, BitVec.ofNat 32 (x.slot.getD 0xFFFF)⟩
  | none => ⟨0xFFFF, 0, kind, 0⟩

/-- R381: the owner of what a consumer reads; firmware's content follows from the address. -/
def ownerOf (s : State) (use : CisUse) (a : Nat) : Owner :=
  match use with
  | .firmware _ _ => ⟨0xFFFF, 0, if a < 2 ^ 22 then 0 else 1, 0⟩
  | .witness uid row => ownerOfSample s uid row 2
  | .record n => match s.records[n]? with
    | some r => ⟨r.spire, r.part, 3, BitVec.ofNat 32 (r.kind.num.getD 0).toNat⟩
    | none => ⟨0xFFFF, 0, 3, 0⟩
  | .overflow uid row => ownerOfSample s uid row 4
  | .sealEntry k => ⟨0xFFFF, k.part, 5, 0⟩
  | .tileDigests p _ _ _ _ => ⟨0xFFFF, p, 6, 0⟩
  | .trace p n => ⟨(((getPart s p).logs.trace.at (logSlots s 3) n).map (·.1)).getD 0xFFFF, p, 7, 0⟩
  | .dump p _ => match (getPart s p).dumpQ.head? with
    | some j => ⟨j.spire, p, 7, dTensor j.dsc⟩
    | none => ⟨0xFFFF, p, 7, 0⟩

/-- R381: the record of a line with poisoned bytes. -/
def poisonRec (s : State) (o : Owner) (bank line syn n : Nat) : State :=
  cispoison s o.spire o.part bank (synKind syn == .unwritten) line syn o.kind n o.item

/-- R381, R383: the owner of a line that Sirocco reads: in the data banks the manual gives no layout, so owner, kind and item are free values
(log 5). -/
def scrubOwner (s : State) (bank a : Nat) : Owner :=
  let x := (Config.unstated s.rng).toNat
  if bank ≤ 1 then ownerOf s (.firmware false false) a
  else ⟨x % 65536, x / 65536 % 16, 2 + x / 2 ^ 20 % 6, BitVec.ofNat 32 (x / 2 ^ 32)⟩

/-- The other firmware bank, and the one firmware fetches from. -/
def otherBank (s : State) : Nat := if s.cistern.execBank then 0 else 1
def execBankNo (s : State) : Nat := b2n s.cistern.execBank

/-- R388: whether a firmware write goes to both copies: not while the other copy is under TEST, nor once the mirror is lost. -/
def mirrors (s : State) : Bool := s.cistern.mirrorOk && !(s.cistern.testBank.any fun b => decide (b ≤ 1))

/-- R376: the firmware bank that a read goes to. -/
def bankFor (s : State) (use : CisUse) : Nat :=
  match use with
  | .firmware false _ => b2n s.cistern.readBank
  | _ => execBankNo s

/-- R376: firmware's choice of copy for its fetches or its reads. It leaves the copy it fetches from only for one in step with it (DESIGN
CHOICE, log 93). -/
def chooseBank (s : State) (use : CisUse) : State :=
  if !mirrors s then updCis s fun c => { c with readBank := c.execBank }
  else match use with
    | .firmware true copy => updCis s fun c => { c with execBank := copy }
    | .firmware false copy => updCis s fun c => { c with readBank := copy }
    | _ => s

/-- One byte as a consumer reads it (R376, R381): its value, its poison bit, the syndrome where the bank found it poisoned. In the
firmware window a poisoned byte is taken from the other copy, which rewrites this one. -/
def readByte (s : State) (use : CisUse) (addr : Nat) : ((Byte × Bool) × Option (Nat × Nat × Nat)) × State :=
  match cisAt addr with
  | .reserved => (((0, true), none), s)
  | .data bank a =>
    let syn := syndrome s bank a
    let r := readStored s bank a false
    ((r.1, if r.1.2 then some (bank, a, syn) else none), r.2)
  | .firmware a =>
    let bank := bankFor s use
    let syn := syndrome s bank a
    let r := readStored s bank a false
    if !r.1.2 then ((r.1, none), r.2)
    else if !mirrors s then ((r.1, some (bank, a, syn)), r.2)
    else
      let o := readStored r.2 (1 - bank) a false
      if o.1.2 then ((o.1, some (bank, a, syn)), o.2)
      else ((o.1, some (bank, a, syn)), cisStore o.2 bank a o.1.1)

/-- The bytes of one line from `lo`, `n` of them: the bytes read, the poisoned ones, the state. -/
def readRun (s : State) (use : CisUse) (lo n : Nat) : List (Byte × Bool) × List (Nat × Nat × Nat) × State :=
  (List.range n).foldl (fun acc i =>
    let r := readByte acc.2.2 use (lo + i)
    (acc.1 ++ [r.1.1], acc.2.1 ++ r.1.2.toList, r.2)) ([], [], s)

/-- R381: both copies of persistent state poisoned make a Keep warm reset (cause 3, log 20). -/
def poisonReset (s : State) (addr : Nat) (rs : List (Byte × Bool)) : State :=
  match cisAt addr with
  | .firmware a => if 2 ^ 22 ≤ a ∧ rs.any (·.2) then keepWarmReset s 3 else s
  | _ => s

/-- R381: a stub of a record's type and length. What its POISONED word holds and where it stands the manual does not say: its payload is
free values (log 5). -/
def stubOf (rng : Nat) (r : Rec) : Rec := { r with w3 := lo32 (Config.unstated rng), body := r.body.zipIdx.map fun x => lo32 (Config.unstated (rng + 1 + x.2)) }

/-- R381: the stub is drained in the record's place. -/
def poisonRecord (s : State) (n : Nat) : State :=
  match s.records[n]? with
  | none => s
  | some r =>
    let x := stubOf s.rng r
    let put := fun i : NearItem => if i = .evidence r then .evidence x else i
    { s with rng := s.rng + 1 + r.body.length, records := s.records.set n x, near := { s.near with waiting := s.near.waiting.map put } }

/-- R381: a staged ring line is skipped and its line of the Cistern is free. The stream shows the gap: the line's number is missing, and a GAP
entry that counts its entries precedes the Spire's next one (log 93). -/
def skipTrace (s : State) (p n : Nat) : State :=
  if !s.near.waiting.contains (.trace p n) then s
  else
    let x := (getPart s p).logs.trace.at (logSlots s 3) n
    let s1 : State := { subUse s p 1 with near := { s.near with waiting := s.near.waiting.erase (.trace p n) } }
    match x with
    | some e => updSp s1 e.1 fun q => { q with trc := { q.trc with lost := q.trc.lost + e.2.2.length } }
    | none => s1

/-- The beats that have a byte at `off` to `off + 63`, of beats (row, beat, bytes) that follow one another from `pos` on. -/
def beatsAt (off : Nat) : Nat → List (Nat × Nat × Nat) → List (Nat × Nat)
  | _, [] => []
  | pos, c :: l =>
    let rest := beatsAt off (pos + c.2.2) l
    if pos < off + 64 ∧ off < pos + c.2.2 then (c.1, c.2.1) :: rest else rest

/-- The bytes of the beats that are not `lost`. -/
def keepBeats (lost : List (Nat × Nat)) : List (Nat × Nat × Nat) → List Byte → List Byte
  | [], _ => []
  | c :: l, bs =>
    let rest := keepBeats lost l (bs.drop c.2.2)
    if lost.contains (c.1, c.2.1) then rest else bs.take c.2.2 ++ rest

/-- R381: a staged line of a dump, at the bytes from `off` on, is skipped: the beats that it holds a byte of are lost whole, and are counted and
listed with the dump's gaps (log 93). -/
def skipLine (j : DumpJob) (off : Nat) : DumpJob :=
  let lost := (beatsAt off 0 j.beats).eraseDups
  { j with
    bytes := keepBeats lost j.beats j.bytes, beats := j.beats.filter fun c => !lost.contains (c.1, c.2.1)
    lost := j.lost + lost.length, gaps := j.gaps ++ lost.take (64 - j.gaps.length) }

/-- R381: the line of the partition's first staged dump. -/
def skipDump (s : State) (p off : Nat) : State :=
  match (getPart s p).dumpQ with
  | [] => s
  | j :: rest =>
    let x := skipLine j off
    subUse (updPart s p fun q => { q with dumpQ := x :: rest }) p (linesOf j.bytes.length - linesOf x.bytes.length)

/-- R381: a consumer's answer to a poisoned item. Firmware's is in `readByte` and `poisonReset`. -/
def poisonAnswer (s : State) (use : CisUse) : State :=
  match use with
  | .firmware _ _ => s
  | .witness uid row => updSample s uid row fun x => { x with unread := true }
  | .record n => poisonRecord s n
  | .overflow uid row => if (sampleOf s uid row).any fun x => x.slot.isNone then endSample s uid row rSkipped 0x20 else s
  | .sealEntry k => { s with seals := s.seals.map fun e => if e.key = k then { e with unread := true } else e }
  | .tileDigests p ep era st l => updPart s p fun q => { q with
      closed := q.closed.map fun c => if isClosedKey c ep era st l then { c with tds := [] } else c }
  | .trace p n => skipTrace s p n
  | .dump p line => skipDump s p (64 * line)

/-- One line's part of a read. -/
def readLine (use : CisUse) (s : State) (lo n : Nat) : State :=
  let r := readRun s use lo n
  let s1 := updCis r.2.2 fun c => { c with last := c.last ++ r.1, linesRead := c.linesRead + 1 }
  let s2 := match r.2.1 with
    | [] => s1
    | (bank, a, syn) :: rest => poisonRec s1 (ownerOf s1 use a) bank (lo / 64 * 64) syn (rest.length + 1)
  poisonReset s2 lo r.1

/-- The runs of a byte range that lie in one line each. -/
def lineRuns (addr len : Nat) : List (Nat × Nat) :=
  if len = 0 then []
  else (List.range ((addr + len - 1) / 64 - addr / 64 + 1)).map fun i =>
    let lo := max addr ((addr / 64 + i) * 64)
    (lo, min (addr + len) ((addr / 64 + i + 1) * 64) - lo)

/-- R376, R379, R381. -/
def execCisternRead (use : CisUse) (x : CisSpan) (s : State) : Host.Outcome State Fault Refusal :=
  let s0 := chooseBank (updCis s fun c => { c with last := [] }) use
  let s1 := (lineRuns x.addr.toNat x.len).foldl (fun s r => readLine use s r.1 r.2) s0
  .next (if s1.cistern.last.any (·.2) then poisonAnswer s1 use else s1)

/-! ### Writes (R375, R378, R380) -/

/-- One enabled byte. R375: a firmware write goes to both copies, or to the executing one while the mirror pauses or is lost (R388). A
write to a reserved address reaches nothing. -/
def writeByte (s : State) (addr : Nat) (b : Byte) : State :=
  match cisAt addr with
  | .reserved => s
  | .data bank a => cisStore s bank a b
  | .firmware a =>
    let s1 := cisStore s (execBankNo s) a b
    if mirrors s then cisStore s1 (otherBank s) a b else s1

/-- The banks and the bank line that a write of a byte address reaches. -/
def linesAt (s : State) (addr : Nat) : List (Nat × Nat) :=
  match cisAt addr with
  | .data bank a => [(bank, a / 64)]
  | .firmware a => (execBankNo s, a / 64) :: if mirrors s then [(otherBank s, a / 64)] else []
  | .reserved => []

/-- The row is one of those that Sirocco's present slice scrubs. -/
def inSlice (s : State) (row : Nat) : Bool :=
  match s.cistern.scrubQ with
  | [] => false
  | n :: _ => decide ((row + 8192 - s.cistern.scrubPos) % 8192 < n)

/-- R379: whether Sirocco writes the byte back: a data bit is corrected; a flipped check bit is only counted. -/
def corrects (s : State) (bank a : Nat) : Bool :=
  match synKind (syndrome s bank a) with
  | .dataBit _ => true
  | _ => false

/-- R381, R383: the record of a line in which Sirocco met the uncorrectable bytes `bads`. -/
def lineRec (s : State) (bank line : Nat) (bads : List Nat) : State :=
  match bads with
  | [] => s
  | a :: _ =>
    let addr := if bank ≤ 1 then 0x80000000 + line * 64 else (line * 30 + (bank - 2)) * 64
    poisonRec { s with rng := s.rng + 1 } (scrubOwner s bank a) bank addr (syndrome s bank a) bads.length

/-- R385: what Sirocco's read of a byte counts, when nothing is written back. -/
def scrubCount (bank : Nat) (s : State) (a : Nat) : State :=
  match synKind (syndrome s bank a) with
  | .checkBit | .dataBit _ => countCe s bank a true
  | .bad => countUe s bank a
  | .clean | .unwritten => s

/-- R385: a client write takes the line that Sirocco holds for a write-back: what Sirocco found there it has counted, and its write-back
is dropped. -/
def supersede (s : State) (x : Nat × Nat) : State :=
  let as := (List.range 64).map (x.2 * 64 + ·)
  if !inSlice s (x.2 / 16) ∨ !as.any (corrects s x.1) ∨ s.cistern.superseded.contains x then s
  else
    let bads := as.filter fun a => synKind (syndrome s x.1 a) == .bad
    updCis (lineRec (as.foldl (scrubCount x.1) s) x.1 x.2 bads) fun c => { c with
      scrubSuper := satInc c.scrubSuper, superseded := c.superseded ++ [x] }

/-- R378, R380, R385. Each byte comes with its enable. -/
def execCisternWrite (addr : W32) (data : List (Byte × Bool)) (held : Bool) (s : State) : Host.Outcome State Fault Refusal :=
  let n := data.length
  let s := if held then ((lineRuns addr.toNat n).flatMap fun r => linesAt s r.1).foldl supersede s else s
  let s1 := data.zipIdx.foldl (fun s b => if b.1.2 then writeByte s (addr.toNat + b.2) b.1.1 else s) s
  .next (updCis s1 fun c => { c with linesWritten := c.linesWritten + BitVec.ofNat 64 (lineRuns addr.toNat n).length })

/-! ### Spare rows (R382) -/

/-- The listed bytes of an array row, as addresses in the bank. -/
def rowListed (s : State) (bank row : Nat) : List Nat :=
  let lo := cisKey bank (row * 1024)
  let inRow : List Host.Cell → List Nat := fun m =>
    (m.filter fun c => decide (lo ≤ c.1) && decide (c.1 < lo + 1024)).map fun c => c.1 - cisKey bank 0
  (inRow s.cistern.data ++ inRow s.cistern.check).eraseDups

/-- R382: what makes firmware remap a row: 4 corrected bytes that a scrub pass found, or a byte with an uncorrectable syndrome. -/
def rowBad (s : State) (bank row : Nat) : Bool :=
  let f := s.cistern.found.find? fun f => f.1 == bank && f.2.1 == row
  decide (4 ≤ (f.map (·.2.2.1)).getD 0) || decide (0 < (f.map (·.2.2.2)).getD 0)
    || (rowListed s bank row).any fun a => synKind (syndrome s bank a) == .bad

/-- R382: the row goes to the first free spare, with its bytes as they are; a spare that it stood on before stays used. -/
def execRowRemap (bank row : Nat) (s : State) : Host.Outcome State Fault Refusal :=
  .next (match s.cistern.banks[bank]? with
    | none => s
    | some b =>
      if row ≥ 8192 ∨ !rowBad s bank row then s
      else match (List.range 32).find? fun k => !(b.remap.any fun m => m.2 == k) with
        | none => alert (updBank s bank fun b => { b with spareOut := true }) alCistern
        | some k =>
          let f := s.cistern.found.find? fun f => f.1 == bank && f.2.1 == row
          let ce := (f.map (·.2.2.1)).getD 0
          let ue := (f.map (·.2.2.2)).getD 0
          let s1 := updBank s bank fun b => { b with
            remap := b.remap ++ [(row, k)], sparesUsed := b.sparesUsed + 1,
            spareOut := b.spareOut || decide (b.sparesUsed + 1 ≥ 32) }
          let s2 := updCis s1 fun c => { c with found := c.found.filter fun f => !(f.1 == bank && f.2.1 == row) }
          let s3 := writeRepair { s2 with nvm := { s2.nvm with
            entries := s2.nvm.entries ++ [⟨false, bank, k, row, false, false, false, s.time.tick⟩] } }
          let s4 := addRec s3 ⟨.cisremap, s.time.tick, 0xFFFF, 0, packW [(0, 0xFFFF)],
            [BitVec.ofNat 32 bank, BitVec.ofNat 32 row, BitVec.ofNat 32 k, BitVec.ofNat 32 ce, BitVec.ofNat 32 ue]⟩
          if b.sparesUsed + 1 ≥ 32 then alert s4 alCistern else s4)

/-! ### Sirocco (R383 to R385) -/

/-- R379, R383: one line of a row: its bytes are decoded, and a line with uncorrectable bytes leaves its record. -/
def scrubLine (s : State) (bank line : Nat) (as : List Nat) : State :=
  let here := as.filter fun a => a / 64 == line
  let bads := here.filter fun a => synKind (syndrome s bank a) == .bad
  lineRec (here.foldl (fun s a => (readStored s bank a true).2) s) bank line bads

/-- R383: one scrub row: the same array row of each of the 32 banks. -/
def scrubRow (s : State) (row : Nat) : State :=
  (List.range 32).foldl (fun s bank =>
    let as := rowListed s bank row
    let s0 := updCis s fun c => { c with found := c.found.filter fun f => !(f.1 == bank && f.2.1 == row) }
    ((as.map (· / 64)).eraseDups.filter fun l => !s.cistern.superseded.contains (bank, l)).foldl (fun s l => scrubLine s bank l as) s0) s

/-- R383: the first slice ordered is finished. -/
def execScrubSliceDone (s : State) : Host.Outcome State Fault Refusal :=
  .next (match s.cistern.scrubQ with
    | [] => s
    | n :: rest =>
      if inSafe s uCis then s
      else
        let from0 := s.cistern.scrubPos
        let s1 := (List.range n).foldl (fun s i => scrubRow s ((from0 + i) % 8192)) s
        updCis s1 fun c => { c with
          scrubQ := rest, superseded := [], scrubPos := (from0 + n) % 8192, scrubPass := satAdd c.scrubPass ((from0 + n) / 8192),
          siroccoLines := c.siroccoLines + BitVec.ofNat 64 (n * 512) })

/-! ### Bank commands (R388, R432) -/

def brPass : Nat := 1
def brFail : Nat := 2
def brExec : Nat := 3
def brInuse : Nat := 4
def brBad : Nat := 5

/-- R380: every byte of a bank becomes UNWRITTEN. -/
def fillBank (s : State) (bank : Nat) : State :=
  updCis s fun c => { c with
    data := memDrop c.data (cisKey bank 0) (cisKey (bank + 1) 0), check := memDrop c.check (cisKey bank 0) (cisKey (bank + 1) 0) }

/-- R388: the bank is copied back from the executing bank, as data: what is UNWRITTEN there is UNWRITTEN here. -/
def copyBank (s : State) (src dst : Nat) : State :=
  let listed : List Nat := ((s.cistern.data ++ s.cistern.check).filter fun c =>
    decide (cisKey src 0 ≤ c.1) && decide (c.1 < cisKey (src + 1) 0)).map (·.1)
  listed.eraseDups.foldl (fun s k =>
    let d := k - cisKey src 0 + cisKey dst 0
    cisPut s d (cisData s k) (cisCheck s k)) (fillBank s dst)

/-- R388, R511: why a bank command is refused. -/
def bankRefusal (s : State) (bank : Nat) : Option Nat :=
  if bank ≥ Config.banks then some brBad
  else if inSafe s uCis then some brInuse
  else if bank ≤ 1 then if bank = execBankNo s ∧ s.boot.firmware then some brExec else none
  else if s.boot.ready && !s.keep.shutdown then some brInuse else none

/-- The result of a bank command: CIS_BCMD.RESULT and the CISBT record, with the failing line or 0. -/
def bankResult (s : State) (bank op result line : Nat) : State :=
  let s1 := updCis s fun c => { c with bcmd := setFld (setFld (setFld c.bcmd 10 1 0) 11 3 result) 14 1 0, testBank := none }
  addRec s1 ⟨.cisbt, s.time.tick, 0xFFFF, 0, packW [(0, 0xFFFF)],
    [BitVec.ofNat 32 bank, BitVec.ofNat 32 op, BitVec.ofNat 32 result, BitVec.ofNat 32 line]⟩

/-- R388: FILL. A firmware bank that was filled is no longer in step with the other. -/
def bankFill (s : State) (bank : Nat) : State :=
  match bankRefusal s bank with
  | some r => bankResult s bank 1 r 0
  | none =>
    let s1 := fillBank s bank
    let s2 := if bank ≤ 1 then updCis s1 fun c => { c with mirrorOk := c.mirrorOk && !s.boot.firmware } else s1
    bankResult s2 bank 1 brPass 0

/-- R388, R432: TEST, whose patterns passed or failed first at a line. -/
def bankTestRun (s : State) (bank : Nat) (failLine : Option Nat) : State :=
  match bankRefusal s bank with
  | some r => bankResult s bank 2 r 0
  | none =>
    let s1 := updBank (fillBank s bank) bank fun b => { b with failed := failLine.isSome }
    match failLine with
    | none =>
      let s2 := if bank ≤ 1 ∧ s.boot.firmware then updCis (copyBank s1 (execBankNo s) bank) fun c => { c with mirrorOk := true } else s1
      bankResult s2 bank 2 brPass 0
    | some l =>
      let s2 := if bank ≤ 1 then alert (updCis s1 fun c => { c with mirrorOk := false }) alCistern else s1
      bankResult s2 bank 2 brFail l

end Sys2Proof.Machine
end

