-- ==== Sys2Proof/Machine/Fence.lean ====
section
/-! DEFINITION. Fence frames at the Spire and their completion at the Keep (R224, R230 to R237), polls, time beacons, progress frames
and straggler periods (R266, R210, R211, R324, R325). -/

namespace Sys2Proof.Machine

/-! ### Tap levels (R224, R229) -/

/-- The three levels of a Spire; TT_FENCE_ACK falls with FENCE_COMPUTE. -/
def setLevels (fc ft to_ : Bool) (sp : Spire) : Spire :=
  { sp with lv := { sp.lv with fc := fc, ft := ft, tonly := to_, fack := sp.lv.fack && fc } }

/-- R224: the levels of a tile state. -/
def stateLevels (st : Nat) (sp : Spire) : Spire :=
  if st < stFenced then setLevels false false false sp
  else if st = stFenced then setLevels true false true sp
  else setLevels true true true sp

/-- R224: a state with its levels at the Spire; no sample is drawn from FENCED up. -/
def mirrorState (st : Nat) (sp : Spire) : Spire :=
  let sp1 := stateLevels st { sp with tstate := st }
  if st < stFenced then sp1 else { sp1 with smp := { sp1.smp with rate := 0, watch := false } }

/-- R70: TRANSIT_ONLY is asserted and the heartbeat is already lost. -/
def watchRouter (s : State) (ix : Nat) (before : Bool) : State :=
  onSp s ix fun sp =>
    if sp.lv.tonly ∧ !before ∧ sp.tap.ver ≠ 2 ∧ !sp.lv.hbOk ∧ stateOf s ix ≠ stDead then routerLost s ix else s

/-! ### What a frame does at its Spire -/

/-- R235, R435: the slice ends: the levels of the state, or of the fence that landed meanwhile. -/
def testOff (sp : Spire) : Spire :=
  let sp1 := { sp with testing := false, pendFence := false }
  if sp.pendFence then mirrorState stFenced sp1 else stateLevels sp.tstate sp1

/-- R264: the time from a rollback's cause to the first fence of its partition; on the hang path the first fence since is kept until the
rollbacks start. -/
def firstFence (s : State) (sp : Nat) : State :=
  let s1 := if s.hang.stage ≠ 0 ∧ s.hang.firstFence.isNone then { s with hang := { s.hang with firstFence := some s.time.tick } } else s
  updPart s1 (partOfSp s sp) fun q => { q with rb := q.rb.map fun r =>
    if r.fenceTicks = 0 ∧ r.causeTick.toNat < s.time.tick.toNat then { r with fenceTicks := s.time.tick.toNat - r.causeTick.toNat } else r }

/-- R224, R230, R235: the effect of an OP on the Spire. While a slice runs all three levels stay 1, whatever the state. -/
def actFrame (op : Nat) (sp : Spire) : Spire :=
  match op with
  | 1 => if sp.testing then { sp with pendFence := true, tstate := stFenced, smp := { sp.smp with rate := 0, watch := false } }
    else mirrorState stFenced sp
  | 2 => setLevels true true true { sp with testing := true }
  | 3 => testOff sp
  | 4 => mirrorState stDead { sp with testing := false, pendFence := false }
  | 5 => if sp.testing then spWatch { sp with pendFence := false } else spWatch (mirrorState stWatch sp)
  | 6 => mirrorState stRetired { sp with pendFence := false }
  | _ => sp

/-- R231: a FENCE_DONE report enters the Wadi lane. -/
def report (s : State) (sp : Nat) (q : Byte) : State :=
  holdCredits (uplink { s with caravan := { s.caravan with done := s.caravan.done ++ [⟨sp, q, s.time.tick⟩] } } sp flitBytes) sp clWadi

/-- R364: the word that a path delivers: behind the last seam crossing of the sideband the majority of its three copies. -/
def landed (f : W32) (side : SideCopies) : W32 :=
  match side.getLast? with
  | none => f
  | some (a, b, c) => (a &&& b) ||| (a &&& c) ||| (b &&& c)

/-- R364: at one seam crossing, a word whose three copies disagree is counted (once a crossing: DESIGN CHOICE, log 92). R525: where no two
copies agree the majority is lost (DEDUCED, log 92). -/
def countCrossing (s : State) (x : W32 × W32 × W32) : State :=
  if x.1 = x.2.1 ∧ x.2.1 = x.2.2 then s
  else
    let s1 := { s with caravan := { s.caravan with sidemaj := satInc s.caravan.sidemaj } }
    if x.1 ≠ x.2.1 ∧ x.2.1 ≠ x.2.2 ∧ x.1 ≠ x.2.2 then alert s1 alCaravan else s1

/-- R364: the crossings of a word on its way from the Keep to a Dome. -/
def countSide (s : State) (side : SideCopies) : State := side.foldl countCrossing s

/-- R230, R231, R237: a frame with OP `op` reaches a Spire on one path. A frame for another LOCAL index, or whose OP is another, is no
event of this command (log 2). -/
def wordArrives (s : State) (ix : Nat) (f : W32) (op : Nat) : State :=
  onSp s ix fun sp => onTile s ix fun t =>
    if !fCrcOk f then { s with caravan := { s.caravan with fcrc := satInc s.caravan.fcrc } }
    else if fOp f ≠ op ∨ fLocal f ≠ ix % 256 ∨ (t.lost ∧ op ≠ opDead) then s
    else if fSeq f = sp.fseq then report s ix (fSeq f)
    else
      let s1 := updSp s ix fun p => actFrame op { p with fseq := fSeq f }
      let s2 := traceLevels s1 ix
      let s3 := if op = opFence then firstFence s2 ix else if op = opTestOn then tryBegin s2 ix else s2
      watchRouter (report s3 ix (fSeq f)) ix sp.lv.tonly

/-- A frame arrives on the Wadi lane, or on the sideband as three copies at each seam crossing (R364). -/
def frameArrives (s : State) (ix : Nat) (f : W32) (side : SideCopies) (op : Nat) : State :=
  wordArrives (countSide s side) ix (landed f side) op

def execFenceFrame (sp : Nat) (f : W32) (side : SideCopies) (s : State) : Host.Outcome State Fault Refusal := .next (frameArrives s sp f side opFence)
def execTestOn (sp : Nat) (f : W32) (side : SideCopies) (s : State) : Host.Outcome State Fault Refusal := .next (frameArrives s sp f side opTestOn)
def execTestOff (sp : Nat) (f : W32) (side : SideCopies) (s : State) : Host.Outcome State Fault Refusal := .next (frameArrives s sp f side opTestOff)
def execDeadFrame (sp : Nat) (f : W32) (side : SideCopies) (s : State) : Host.Outcome State Fault Refusal := .next (frameArrives s sp f side opDead)
def execReleaseFrame (sp : Nat) (f : W32) (side : SideCopies) (s : State) : Host.Outcome State Fault Refusal := .next (frameArrives s sp f side opRelease)
def execRetire (sp : Nat) (f : W32) (side : SideCopies) (s : State) : Host.Outcome State Fault Refusal := .next (frameArrives s sp f side opRetire)

/-! ### The checker self-test of bring-up (R430) -/

/-- R415, R430: step 3 begins, and for the length of the checker self-tests the levels of every tile are those of a slice. -/
def step3Begins (s : State) : State :=
  (s.spires.map (·.ix)).foldl (fun s ix => traceLevels (updSp s ix fun p => { setLevels true true true p with testing := true }) ix) (stepBegins s 3)

/-- R430: the tests are over; a tile that waits for its full self-test keeps the levels (R228). -/
def checkersOff (s : State) : State :=
  ((s.tiles.filter fun t => t.reqs.isEmpty).map (·.ix)).foldl (fun s ix => traceLevels (updSp s ix testOff) ix) s

/-! ### Completion and re-issue (R231, R233) -/

/-- R534: the RELEASE command that ordered a frame is done. -/
def releaseDone (s : State) (f : OutFrame) : State :=
  match f.inst with
  | some i => if f.op = opRelease then cmdFinish s i crDone 0 else s
  | none => s

/-- R229, R534: a reported frame has its TSTATE record, and its command is done. -/
def completeFrame (s : State) (m : DoneMsg) (f : OutFrame) : State :=
  releaseDone (frameRec s m.spire f m.fseq (m.tick.toNat - f.vtick.toNat)) f

/-- R231: the first report of the outstanding frame completes it and sends the frame that waits. After a DEAD frame nothing else is
reported: the frames it outran have their records now. -/
def outDone (s : State) (m : DoneMsg) (t : Tile) (f : OutFrame) : State :=
  let s1 := updTile s m.spire fun t => { t with out := none, next := t.next.drop 1 }
  let s2 := completeFrame s1 m f
  let s3 := if f.op = opDead then updTile (recordUnsent s2 m.spire t.superseded) m.spire fun t => { t with superseded := [] } else s2
  match t.next with
  | g :: _ => issueFrame s3 m.spire g
  | [] => s3

/-- R229, R231: the Keep takes the first report for each frame, also for one that a DEAD frame outran. -/
def frameDone (s : State) (m : DoneMsg) : State :=
  onTile s m.spire fun t =>
    match t.superseded.find? fun f => fSeq f.frame == m.fseq with
    | some f => completeFrame (updTile s m.spire fun t => { t with superseded := t.superseded.filter fun g => fSeq g.frame != m.fseq }) m f
    | none =>
      match t.out with
      | none => s
      | some f => if fSeq f.frame ≠ m.fseq then s else outDone s m t f

/-- A report that was sent reaches the Keep, unless its field is cut off (R362). -/
def execFenceDone (sp : Nat) (fseq : Byte) (s : State) : Host.Outcome State Fault Refusal :=
  .next (if cutOff s sp then s else match s.caravan.done.find? fun m => m.spire == sp && m.fseq == fseq with
    | some m => frameDone (holdCredits { s with caravan := { s.caravan with done := s.caravan.done.erase m } } sp clWadi) m
    | none => s)

/-- R233: no report 4,000 ticks after a frame: three re-issues, then the tile is DEAD. -/
def execFenceReissue (sp : Nat) (s : State) : Host.Outcome State Fault Refusal :=
  .next (onTile s sp fun t =>
    match t.out with
    | none => s
    | some f =>
      if f.reissues < 3 then
        let s1 := updTile s sp fun t => { t with out := some { f with reissues := f.reissues + 1, issued := s.time.tick } }
        { s1 with caravan := { s1.caravan with frames := s1.caravan.frames ++ [(sp, f.frame)] } }
      else
        let s1 := alert (updTile (recordUnsent s sp (t.superseded ++ [f])) sp fun t => { t with out := none, superseded := [] }) alFence
        if t.state = stDead then s1 else tileInput s1 0x12 sp 0)

/-! ### Polls (R237) -/

/-- One Spire's answer to a poll; the third miss in a row is SPIRE_LOST. -/
def pollSpire (missed : List Nat) (s : State) (t : Tile) : State :=
  if t.lost then s
  else if !missed.contains t.ix then updTile s t.ix fun t => { t with missed := 0 }
  else if t.missed + 1 < 3 then updTile s t.ix fun t => { t with missed := t.missed + 1 }
  else tileInput (updTile s t.ix fun t => { t with missed := 3, lost := true }) 0x13 t.ix 0

def execDomePoll (dome : Nat) (missed : List Nat) (s : State) : Host.Outcome State Fault Refusal :=
  .next ((s.tiles.filter fun t => t.ix / 256 == dome).foldl (pollSpire missed) s)

/-! ### Time beacons (R324 to R326, R336) -/

/-- R325: a copy that is more than 4 ticks off is reloaded. -/
def tickslip (s : State) (input : State → State) : State :=
  input { s with
    time := { s.time with tickslip := true }
    belfry := { s.belfry with tickslipCnt := satInc s.belfry.tickslipCnt } }

/-- R324: the fixed latency of the path to a Dome, and from the Keep to a Spire, as measured at bring-up. -/
def latOf (l : List (Nat × Nat)) (ix : Nat) : Nat := ((l.find? fun x => x.1 == ix).map (·.2)).getD 0
def domePath (s : State) (d : Nat) : Nat := latOf s.time.domeLat d
def spirePath (s : State) (i : Nat) : Nat := domePath s (i / 256) + latOf s.time.spireLat i

/-- R324, R325: a beacon launched now reaches a receiver: the difference that its copy has then to the Keep's counter, `held` before, and whether
the copy is more than 4 ticks off what the beacon gives and takes it. -/
def beaconCopy (path : Nat) (held : Int) (x : Sys2Proof.BeaconAt) : Int × Bool :=
  let arrival : Int := x.waited + x.flight
  let given : Int := path + x.waited - arrival
  let mine := held + x.drift
  if (mine - given).natAbs > 4 then (given, true) else (mine, false)

/-- A list of differences with one replaced. -/
def setSkew (l : List (Nat × Int)) (ix : Nat) (d : Int) : List (Nat × Int) := (l.filter fun y => y.1 != ix) ++ [(ix, d)]
def skewOf (l : List (Nat × Int)) (ix : Nat) : Int := ((l.find? fun x => x.1 == ix).map (·.2)).getD 0

def beaconSpire (s : State) (x : BeaconAt) : State :=
  let c := beaconCopy (spirePath s x.ix) (skewOf s.time.spireSkew x.ix) x
  let s1 := { s with time := { s.time with spireSkew := setSkew s.time.spireSkew x.ix c.1 } }
  if c.2 then tickslip s1 fun s => tileInput s 0x94 x.ix 0 else s1

/-- R364: the beacon crosses the seams on its way to the Dome as a fence frame does. -/
def beaconDome (s0 : State) (x : BeaconAt) : State :=
  let s := countSide s0 x.side
  let c := beaconCopy (domePath s x.ix) (skewOf s.time.domeSkew x.ix) x
  let s1 := { s with time := { s.time with domeSkew := setSkew s.time.domeSkew x.ix c.1 } }
  if c.2 then tickslip s1 fun s => partInput s 0x94 0 0xFFFF 0 else s1

/-- R336: a Spire applies the current epoch of its partition. -/
def beaconEpoch (s : State) (t : Tile) : State :=
  let e := (getPart s t.part).epoch
  onSp s t.ix fun sp =>
    if t.lost ∨ sp.epoch = e then s
    else trace (updSp s t.ix fun p => { p with epoch := e }) t.ix 0x19 false false 0xFFFF 0xFFFF 0xFFFF e.toNat

/-- The receivers that the beacon reaches. -/
def execTimeBeacon (spires domes : List BeaconAt) (s : State) : Host.Outcome State Fault Refusal :=
  .next (if !s.time.run then s
    else
      let s1 := domes.foldl beaconDome s
      let s2 := (spires.filter fun x => (getSp s x.ix).isSome).foldl beaconSpire s1
      s2.tiles.foldl beaconEpoch s2)

/-! ### Progress frames (R266) -/

/-- R266: the map of a Dome's progress frame: the Spires whose TT_PROG advanced since the previous one. A Spire that no longer answers its Dome
shows no advance. -/
def progressMap (s : State) (dome : Nat) : List Nat :=
  (s.spires.filter fun p => p.ix / 256 == dome && p.tap.prog != p.tap.progAtFrame &&
    !((getTile s p.ix).map (·.lost)).getD true).map (·.ix)

/-- R266: the map as the frame carries it: bit `i` for the Dome's Spire `i`. -/
def progressBits (s : State) (dome : Nat) : BitVec 256 :=
  (progressMap s dome).foldl (fun m i => m ||| BitVec.ofNat 256 (2 ^ (i % 256))) 0

/-- R266: a Dome's progress frame arrives; a Dome that is not up sends none, and one with another map than the Dome forms is no event
(log 96). -/
def execProgressFrame (dome : Nat) (map : BitVec 256) (s : State) : Host.Outcome State Fault Refusal :=
  let adv := progressMap s dome
  .next (if !((getDome s dome).map (·.up)).getD false ∨ map ≠ progressBits s dome then s else { s with
    hang := if s.hang.stage = 0 then { s.hang with hung := s.hang.hung.filter fun x => !adv.contains x } else s.hang
    tiles := s.tiles.map fun t => if adv.contains t.ix then { t with wd := s.time.tick.toNat, ranOut := false } else t
    spires := s.spires.map fun p => if p.ix / 256 = dome then { p with tap := { p.tap with progAtFrame := p.tap.prog } } else p })

/-! ### Straggler periods (R210, R211) -/

/-- A participant: tile, layer and descriptor of its oldest open operation, whether the Keep finds it LATE (R336), rows retired in the period. -/
structure Runner where
  ix : Nat
  dsc : Dsc
  late : Bool
  delta : Nat
  deriving DecidableEq, Repr

/-- R210, R238: the participants of a partition. -/
def runners (s : State) (p : Nat) : List Runner :=
  (s.tiles.filter fun t => t.part == p && t.state != stDead).filterMap fun t =>
    match getSp s t.ix with
    | none => none
    | some sp =>
      match openOps sp with
      | [] => none
      | o :: _ => if sp.tap.idleInPeriod ∨ sp.lv.idle then none
        else some ⟨t.ix, o.dsc, ((getOp s o.uid).map (·.late)).getD o.late, (sp.tap.prog - sp.tap.progAtPeriod).toNat⟩

/-- R211: the lower median. -/
def lowMedian (l : List Nat) : Nat := (l.insertionSort (· ≤ ·)).getD ((l.length - 1) / 2) 0

/-- R211: a slow period: below (1 − f) of the median, or 0. -/
def slowRun (frac m delta : Nat) : Bool := decide (delta * 128 < (128 - frac) * m) || delta == 0

/-- R205, R211: the STRAGGLER event of a tile: record and input. -/
def stragglerEvent (s : State) (p : Nat) (r : Runner) (lag256 : Nat) : State :=
  let s1 := addRec s (keepRngev s r.ix p r.late (opVaries s r.dsc) (opHead r.dsc) 32 0 lag256)
  addInput s1 (mkInput s1 0x54 p r.ix (dLayer r.dsc) 32 false 0 0)

/-- One slow participant. The lag of a zero delta under a zero median is 0 / 0, which the manual does not give (log 5). -/
def slowPeriod (p n m : Nat) (s : State) (r : Runner) : State :=
  onTile s r.ix fun t =>
    let lag := if m = 0 then ((Config.unstated s.rng).toNat % 65537, 65536) else (m - r.delta, m)
    let s0 := if m = 0 then { s with rng := s.rng + 1 } else s
    let s1 := ergSlag (updTile s0 r.ix fun t => { t with slow := t.slow + 1 }) p r.ix lag.1 lag.2
    if t.slow + 1 ≥ n ∧ !t.slowRaised then
      stragglerEvent (updTile s1 r.ix fun t => { t with slowRaised := true }) p r (lag.1 * 256 / lag.2)
    else s1

/-- R211: one group of a partition; the tiles that were not slow start anew. -/
def groupPeriod (p frac n : Nat) (s : State) (g : List Runner) : State :=
  if g.length < 4 then s
  else
    let m := lowMedian (g.map (·.delta))
    (g.filter fun r => slowRun frac m r.delta).foldl (slowPeriod p n m) s

def execStragglerPeriod (p : Nat) (s : State) : Host.Outcome State Fault Refusal :=
  let rec_ := plausRec s p
  let rs := runners s p
  let layers := (rs.map fun r => dLayer r.dsc).eraseDups
  let groups := layers.map fun l => rs.filter fun r => dLayer r.dsc == l
  let slow := (groups.filter fun g => decide (g.length ≥ 4)).flatMap fun g =>
    (g.filter fun r => slowRun (qFrac rec_) (lowMedian (g.map (·.delta))) r.delta).map (·.ix)
  let mine := fun ix => partOfSp s ix == p
  let s1 := if qStragEn rec_ then
      groups.foldl (groupPeriod p (qFrac rec_) (qStragN rec_)) { s with
        tiles := s.tiles.map fun t => if t.part = p ∧ !slow.contains t.ix then { t with slow := 0, slowRaised := false } else t }
    else s
  let s2 := (s1.spires.filter fun x => mine x.ix).foldl (fun s x =>
    trace s x.ix 0x23 true false 0xFFFF 0xFFFF 0xFFFF (x.tap.progBase.toNat)) s1
  let mark := fun x : Spire => if mine x.ix then { x with tap := { x.tap with progAtPeriod := x.tap.prog, idleInPeriod := x.lv.idle } } else x
  .next { s2 with spires := s2.spires.map mark }

end Sys2Proof.Machine
end

