-- ==== Sys2Proof/Machine/ImageCheck.lean ====
section
/-! DEFINITION. The checks of a configuration image (R408 to R411) and of licence blobs (R426). Header, trailer, section table, firmware,
contracts, screen, range and plausibility records, peals, golden entries and licences are read from the bytes; the sections without a
bit layout arrive as their fields (log 8). -/

namespace Sys2Proof.Machine

/-- `n` bytes at an offset, as a little-endian number (R8). -/
def leAt (bs : List Byte) (off n : Nat) : Nat := ofLe ((bs.drop off).take n)
def byteAt (bs : List Byte) (off : Nat) : Nat := (bs.getD off 0).toNat
def zeroRun (bs : List Byte) (off n : Nat) : Bool := ((bs.drop off).take n).all (· == 0)

/-! ### Header (R408) -/

def hdrLen (h : List Byte) : Nat := leAt h 8 4
def hdrImgSeq (h : List Byte) : W64 := BitVec.ofNat 64 (leAt h 12 8)
def hdrBuild (h : List Byte) : W64 := BitVec.ofNat 64 (leAt h 32 8)
def hdrSvn (h : List Byte) : Nat := leAt h 20 2
def hdrFlags (h : List Byte) : Byte := h.getD 22 0

/-- Check 0x1. -/
def hdrOk (h : List Byte) : Bool :=
  decide (h.length ≥ 256) && leAt h 0 4 == 0x4D494B5A && leAt h 252 4 == (crc32c (h.take 252)).toNat && leAt h 4 2 == 1
    && decide (byteAt h 22 < 4) && byteAt h 23 == 0 && zeroRun h 26 2 && zeroRun h 40 212

/-- Check 0x2. -/
def lenOk (h : List Byte) : Bool := decide (256 + 192 ≤ hdrLen h) && decide (hdrLen h ≤ 64 * 2 ^ 20)

/-- Check 0x3, R47: architecture revision 3, release 3.2 or lower. -/
def archOk (h : List Byte) : Bool := byteAt h 6 == Config.arch.toNat && decide (byteAt h 7 ≤ Config.release.toNat)

/-- Checks 0x1 to 0x3 of a header, 0 where all pass. -/
def hdrCheck (h : List Byte) : Nat := if !hdrOk h then 1 else if !lenOk h then 2 else if !archOk h then 3 else 0

/-! ### Trailer (R410) -/

/-- A signed run of bytes: the message and Qx, Qy, r, s. -/
structure Signed where
  msg : List Byte
  qx : List Byte
  qy : List Byte
  r : Nat
  s : Nat
  deriving DecidableEq, Repr

/-- R410: the last 192 bytes are the trailer. -/
def splitTrailer (bs : List Byte) : Signed :=
  let m := bs.length - 192
  let t := bs.drop m
  ⟨bs.take m, t.take 48, (t.drop 48).take 48, ofBe ((t.drop 96).take 48), ofBe ((t.drop 144).take 48)⟩

def keyHash (x : Signed) : Nat := ofBe (sha384 (x.qx ++ x.qy))
def sigOk (x : Signed) : Bool := ecdsaVerify (ofBe (sha384 x.msg)) (ofBe x.qx) (ofBe x.qy) x.r x.s

/-- Check 0x4: the IKEY_HASH, neither blank nor revoked, that the key hashes to. -/
def imageKeyOf (f : FuseArray) (x : Signed) : Option Nat :=
  [(0, f.ikeyHash0), (1, f.ikeyHash1)].findSome? fun k =>
    if k.2 ≠ 0 ∧ !bitOf f.ikeyRevoke k.1 ∧ k.2.toNat = keyHash x then some k.1 else none

/-- R399: MIN_SVN is the count of blown bits. -/
def minSvn (f : FuseArray) : Nat := ((List.range 64).filter fun i => bitOf f.minSvn i).length

/-! ### Section table (R409) -/

/-- One entry: TYPE, OFFSET, LENGTH, and whether its reserved bytes are zero. -/
structure SecEnt where
  type : Nat
  off : Nat
  len : Nat
  clean : Bool
  deriving DecidableEq, Repr

def secTable (bs : List Byte) : List SecEnt :=
  (List.range (leAt bs 24 2)).map fun i =>
    let e := (bs.drop (leAt bs 28 4 + 16 * i)).take 16
    ⟨leAt e 0 2, leAt e 4 4, leAt e 8 4, zeroRun e 2 2 && zeroRun e 12 4⟩

/-- Two sections do not overlap. -/
def secApart (a b : SecEnt) : Bool := decide (a.off + a.len ≤ b.off) || decide (b.off + b.len ≤ a.off)

def allApart {α : Type} (f : α → α → Bool) : List α → Bool
  | [] => true
  | a :: l => l.all (f a) && allApart f l

/-- Check 0x7. -/
def sectionsOk (bs : List Byte) : Bool :=
  let n := leAt bs 24 2
  let t := secTable bs
  let body := bs.length - 192
  (n == 11 || n == 12) && decide (leAt bs 28 4 + 16 * n ≤ body)
    && t.all (fun e => e.clean && e.off % 8 == 0 && decide (e.off + e.len ≤ body) && decide (1 ≤ e.type) && decide (e.type ≤ 12))
    && allApart secApart t
    && [1, 2, 3, 4, 5, 6, 7, 8, 9, 10, 12].all (fun k => (t.filter fun e => e.type == k).length == 1)
    && decide ((t.filter fun e => e.type == 11).length ≤ 1)

/-- The bytes of the section of a type, none where the image has no such section. -/
def sectionOf (bs : List Byte) (k : Nat) : List Byte :=
  match (secTable bs).find? fun e => e.type == k with
  | some e => (bs.drop e.off).take e.len
  | none => []

/-- The FIRMWARE section. -/
def firmwareOf (bs : List Byte) : List Byte := sectionOf bs 12

/-- The firmware's code, without its trailer. -/
def firmwareCode (bs : List Byte) : List Byte := (splitTrailer (firmwareOf bs)).msg

/-- Check 0x8, R400: no firmware passes under a blank TKEY_HASH. -/
def fwOk (f : FuseArray) (bs : List Byte) : Bool :=
  let x := splitTrailer (firmwareOf bs)
  decide ((firmwareOf bs).length ≥ 192) && decide (x.msg.length ≤ 4 * 2 ^ 20) && f.tkeyHash != 0 && f.tkeyHash.toNat == keyHash x && sigOk x

/-! ### Sections read from the bytes (R8, R409) -/

/-- `cnt` entries of `sz` bytes from an offset. -/
def entries (bs : List Byte) (off sz cnt : Nat) : List (List Byte) :=
  (List.range cnt).map fun i => (bs.drop (off + sz * i)).take sz

/-- The entries as little-endian numbers of `w` bits. -/
def wordsAt (w : Nat) (bs : List Byte) (off sz cnt : Nat) : List (BitVec w) :=
  (entries bs off sz cnt).map fun e => BitVec.ofNat w (ofLe e)

/-- R434: a golden entry of 32 bytes; `reserved` says that a reserved byte is not zero. -/
def goldenEntry (e : List Byte) : GoldenEntry where
  utype := byteAt e 0
  slice := byteAt e 1
  maxMs := byteAt e 2
  seed := BitVec.ofNat 64 (leAt e 4 8)
  count := leAt e 12 3
  sig := BitVec.ofNat 64 (leAt e 16 8)
  reserved := !(zeroRun e 3 1 && zeroRun e 15 1 && zeroRun e 24 8)

/-- The sections laid out bit by bit have the length of their records; a section of several tables holds them in the order in which
R409 names them (log 8). The tile sets that follow the peals have no layout. -/
def layoutOk (bs : List Byte) : Bool :=
  (sectionOf bs 2).length == 64 * 16 + 64 * 4 && (sectionOf bs 3).length == 80 * 8 + 16 * 8
    && decide (16 * Config.peals ≤ (sectionOf bs 4).length) && (sectionOf bs 7).length % 32 == 0
    && (sectionOf bs 11).length % 224 == 0 && decide ((sectionOf bs 11).length / 224 ≤ 65536)

/-- The image of the bytes and of the sections that have no layout (log 8). -/
def imageOf (bs : List Byte) (l : LooseSections) : Image where
  geom := l.geom
  contracts := wordsAt 128 (sectionOf bs 2) 0 16 64
  screens := wordsAt 32 (sectionOf bs 2) (64 * 16) 4 64
  ranges := wordsAt 64 (sectionOf bs 3) 0 8 80
  plaus := wordsAt 64 (sectionOf bs 3) (80 * 8) 8 16
  peals := wordsAt 128 (sectionOf bs 4) 0 16 Config.peals
  tileSets := l.tileSets
  parts := l.parts
  reserve := l.reserve
  replicas := l.replicas
  recov := l.recov
  area := l.area
  base := l.base
  golden := (entries (sectionOf bs 7) 0 32 ((sectionOf bs 7).length / 32)).map goldenEntry
  thermal := l.thermal
  bringup := l.bringup
  zk2 := l.zk2
  fwMajor := l.fwMajor
  fwMinor := l.fwMinor
  licences := entries (sectionOf bs 11) 0 224 ((sectionOf bs 11).length / 224)
  wrappers := l.wrappers
  reservedSeen := l.reservedSeen

/-! ### Content (check 0x9) -/

def boundSpire (im : Image) (x : Nat) : Bool := im.geom.spires.any fun c => c.ix == x

/-- R361: a Dome reaches the Keep over at most 16 seam edges. -/
def reachesKeep (im : Image) : Nat → Nat → Bool
  | 0, _ => false
  | n + 1, d =>
    match im.geom.domes[d]? with
    | none => false
    | some c => c.parent == 255 || reachesKeep im n c.parent

/-- R29, R30, R361, R408, R434, R523: the geometry, which names only Domes, Spires, ports and taps that the instance was built with. No check
of the manual refuses a grade width that is no power of two, and none does here (DESIGN CHOICE, log 113). -/
def geomOk (b : Built) (im : Image) : Bool :=
  let g := im.geom
  let nd := g.domes.length
  decide (4 ≤ nd) && decide (nd ≤ 64) && decide (nd ≤ b.spires.length) && g.spires.all (fun c => builtSpire b c.ix) && decide (4 ≤ g.spires.length) && decide (g.spires.length ≤ 16384)
    && decide ((g.spires.map (·.ix)).Nodup) && g.spires.all (fun c => decide (c.ix / 256 < nd) && decide (c.part < 16) && decide (c.ttype < 16))
    && (List.range nd).all (fun d => g.spires.any (fun c => c.ix / 256 == d) && reachesKeep im 16 d)
    && g.domes.all (fun c => decide (c.fx ≤ 15) && decide (c.fy ≤ 15))
    && decide (1 ≤ g.gradeW) && decide (g.gradeW ≤ 1024) && decide (1 ≤ g.wports) && decide (g.wports ≤ 16)
    && decide (1 ≤ g.mtaps) && decide (g.mtaps ≤ 16) && decide (g.ltaps ≤ 64) && decide (g.banen ≤ 4)
    && decide (g.wports ≤ b.wports) && decide (g.mtaps ≤ b.mtaps) && decide (g.ltaps ≤ b.ltaps) && decide (g.banen ≤ b.banen)
    && decide (1 ≤ im.area.nearGiB) && decide (im.area.nearGiB ≤ 512) && decide (im.area.farGiB ≤ 4096)

def sumOf (l : List Nat) : Nat := l.foldl (· + ·) 0

/-- R44, R386: the quotas of partitions 1 to 15 leave the reserve of partition 0; the overflow queue takes 1 MiB of the data banks first (R538). -/
def quotasOk (im : Image) : Bool :=
  let f := fun (g : PartCfg → Nat) => sumOf ((im.parts.drop 1).map g)
  im.parts.length == 16 && decide (f (·.trkQuota) + im.reserve.trk ≤ Config.trackers) && decide (f (·.ovfQuota) + im.reserve.ovf ≤ Config.ovfEntries)
    && decide (f (·.cisMiB) + im.reserve.cisMiB ≤ 239) && decide (f (·.talQuota) + im.reserve.tal ≤ Config.tallies)
    && im.parts.all (fun p => decide (1 ≤ p.weight) && decide (p.weight ≤ 255) && decide (1 ≤ p.engCap) && decide (p.engCap ≤ 64))
    && im.replicas.all fun r => decide (r.part < 16) && decide (r.peerPart < 16)

/-- R15: reserved bits and codes of the records kept as bits. -/
def recordsOk (im : Image) : Bool :=
  im.contracts.length == 64 && (im.contracts.zipIdx.all fun c => contractOk c.2 c.1)
    && im.screens.length == 64 && im.screens.all (fun r => fld r 5 27 == 0)
    && im.ranges.length == 80 && im.ranges.all (fun r => fld r 13 3 == 0 && fld r 28 4 == 0 && fld r 48 16 == 0 && rangePol r)
    && im.plaus.length == 16 && im.plaus.all (fun r => fld r 12 4 == 0 && fld r 45 19 == 0)
where
  /-- NAN_POL and INF_POL 3 are reserved. -/
  rangePol (r : W64) : Bool := rNanPol r != 3 && rInfPol r != 3

/-! #### Peals (R349, R352, R353) -/

def tileAct (a : Nat) : Bool := [1, 2, 4, 5, 6, 7, 8, 9].contains a
def partAct (a : Nat) : Bool := decide (0x0A ≤ a) && decide (a ≤ 0x0D)
def dieAct (a : Nat) : Bool := decide (0x0E ≤ a) && decide (a ≤ 0x13)

/-- R348: the condition codes. -/
def condKnown (c : Nat) : Bool := [0, 1, 2, 3, 4, 0x10, 0x11, 0x12, 0x20, 0x21, 0x22, 0x23, 0x24].contains c

def kTimer : Nat := 1
def kCadence : Nat := 2
def kReact : Nat := 3

/-- R344: the match part of a peal by KIND. -/
def matchOk (p : Peal) : Bool :=
  match plKind p with
  | 1 => plUnit p != 3 && decide (1 ≤ plPeriod p) && decide (plOffset p < plPeriod p) && fld p 106 22 == 0
  | 2 => decide (plCLo p ≤ plCHi p) && (plMod p == 0 || decide (plRes p < plMod p))
  | 3 => decide (plRLo p ≤ plRHi p) && fld p 118 10 == 0
  | _ => fld p 56 72 == 0

/-- R30, R353: the target of a tile action exists. -/
def targetOk (im : Image) (p : Peal) : Bool :=
  !tileAct (plAct p) || (match plTgt p with
    | 0 => plKind p == kReact
    | 1 => boundSpire im (plIdx p)
    | 2 => decide (plIdx p < im.geom.domes.length)
    | 3 => true
    | _ => decide (plIdx p < im.tileSets.length))

/-- R353: one peal at its index. An EMPTY peal has no match part; its action codes are checked like any other's. -/
def pealOk (im : Image) (ix : Nat) (p : Peal) : Bool :=
    (decide (plKind p ≤ 3) && decide (plAct p ≤ 0x13) && decide (plTgt p ≤ 4) && condKnown (plCond p) && matchOk p && targetOk im p
      && !(decide (1 ≤ plCond p) && decide (plCond p ≤ 4) && (partAct (plAct p) || dieAct (plAct p)))
      && (decide (ix ≤ 10) || !dieAct (plAct p) || (plPart p == 0 && !plAllp p))
      && (plAct p != 3 || (plKind p == kReact && decide (0x40 ≤ plTrig p) && decide (plTrig p ≤ 0x42)))
      && (!plAllp p || plPart p == 0) && paramOk p)
where
  /-- R15, R165, R166: no reserved rate, and at least one forced row. -/
  paramOk (p : Peal) : Bool :=
    match plAct p with
    | 1 => rateOk (plParam p % 32)
    | 2 => decide (1 ≤ plParam p % 256)
    | _ => true
  /-- R165: 0 or 8 to 24. -/
  rateOk (r : Nat) : Bool := r == 0 || (decide (8 ≤ r) && decide (r ≤ 24))

def counting (p : Peal) : Bool := plKind p == kReact && decide (2 ≤ plN p)

/-- A peal of all partitions built of its fields, each with its lowest bit (R352). -/
def mkPeal (fields : List (Nat × Nat)) : Peal := BitVec.ofNat 128 (2 ^ 7 + sumOf (fields.map fun f => f.2 * 2 ^ f.1))

/-- R352: the fixed peals 0 to 10. -/
def fixedPeals : List Peal :=
  [mkPeal [(0, 2), (9, 0x0B), (56, 0xF2), (64, 0xFF), (88, 0xFFFF)], mkPeal [(0, 2), (9, 0x0C), (56, 0xF4), (64, 0xFF), (88, 0xFFFF)],
    mkPeal [(0, 1), (9, 6), (14, 3), (17, 1), (56, 1)], mkPeal [(0, 1), (9, 4), (14, 3), (17, 4), (40, 1), (56, 1)],
    mkPeal [(0, 3), (9, 0x0E), (56, 0x20), (78, 0xFF), (102, 0xFFFF)]] ++
    [(0x11, 8), (0x12, 8), (0x13, 8), (0x14, 8), (0x16, 7), (0x15, 7)].map fun x =>
      mkPeal [(0, 3), (9, x.2), (56, x.1), (78, 0xFF), (102, 0xFFFF)]

/-- R352: indices 0 to 15, but for PARAM[0] of peal 4. -/
def fixedOk (im : Image) : Bool :=
  (List.range 16).all fun i =>
    let p := im.peals.getD i 0
    (if i = 4 then p &&& ~~~(BitVec.ofNat 128 (2 ^ 40)) else p) == fixedPeals.getD i 0

/-- R349, R352, R353. -/
def scheduleOk (im : Image) : Bool :=
  im.peals.length == Config.peals && fixedOk im && (im.peals.zipIdx.all fun p => pealOk im p.2 p.1)
    && decide ((im.peals.filter counting).length ≤ 64)
    && decide (im.tileSets.length ≤ 256)
    && im.tileSets.all fun t => decide (t.length ≤ 16) && t.all fun r => rangeBound im r
where
  /-- R30: every Spire of the range is one of the instance. -/
  rangeBound (im : Image) (r : Nat × Nat) : Bool :=
    boundSpire im r.1 && boundSpire im r.2 && (List.range (r.2 + 1 - r.1)).all fun i => boundSpire im (r.1 + i)

/-! #### Golden entries (R434) -/

def goldenOk (im : Image) : Bool :=
  let es := im.golden
  let ofType : Nat → List GoldenEntry := fun k => es.filter fun e => e.utype == k
  es.all (fun e => (decide (e.utype ≤ 15) || e.utype == 0x20 || e.utype == 0x21) && decide (e.slice ≤ 63) && decide (1 ≤ e.maxMs)
      && decide (e.maxMs ≤ 20) && decide (1 ≤ e.count) && decide (e.count < 2 ^ 24) && !e.reserved)
    && (List.range 16 ++ [0x20, 0x21]).all (fun k => decide ((ofType k).length ≤ 64) && decide ((((ofType k).map fun e : GoldenEntry => e.slice)).Nodup))
    && decide (1 ≤ (ofType 0x20).length)

/-! #### Areas (R537) -/

def pow2In (n lo hi : Nat) : Bool := decide (lo ≤ n) && decide (n ≤ hi) && n == 2 ^ Nat.log2 n

/-- The areas of the near window: base and size. -/
def nearAreas (b : BaseParams) : List (Nat × Nat) :=
  [(b.oasis, 8 * 2 ^ 20), (b.nq, 4 * 2 ^ 20), (b.dlog, 32 * 2 ^ 20), (b.mlog, 64 * 2 ^ 20), (b.dump, b.dumpSize),
    (b.trc, 16 * b.trcSize), (b.tdump, 16 * b.tdumpSize)]

def areasOk (im : Image) : Bool :=
  let b := im.base
  let near := im.area.nearGiB * 2 ^ 30
  pow2In b.dumpSize (2 ^ 20) (2 ^ 32) && pow2In b.trcSize (2 ^ 20) (2 ^ 32) && pow2In b.tdumpSize (2 ^ 20) (2 ^ 36)
    && (nearAreas b).all (fun a => a.1 % 65536 == 0 && decide (a.1 + a.2 ≤ near))
    && allApart (fun a c => decide (a.1 + a.2 ≤ c.1) || decide (c.1 + c.2 ≤ a.1)) (nearAreas b)
    && (im.area.farGiB == 0 || !im.area.tdumpFar || (b.tdumpFar % 65536 == 0 && decide (b.tdumpFar + 16 * b.tdumpSize ≤ im.area.farGiB * 2 ^ 30)))

/-! #### BRINGUP ranges (R417) and the rest -/

def bringupOk (im : Image) : Bool :=
  let b := im.bringup
  decide (100000 ≤ b.waveGap) && decide (b.waveGap ≤ 100000000) && decide (1 ≤ b.waveMaxD) && decide (b.waveMaxD ≤ 64)
    && (b.banMin ++ b.banMax).all (fun v => decide (1 ≤ v) && decide (v ≤ 3)) && b.banMin.length == 4 && b.banMax.length == 4
    && decide (100000000 ≤ b.banWait) && decide (b.banWait ≤ 600000000000) && decide (b.bringRetry ≤ 7) && im.recov.ppsMode != 3
    && decide (b.banMand.toNat < 2 ^ im.geom.banen)

def inRange (lo hi n : Nat) : Bool := decide (lo ≤ n) && decide (n ≤ hi)

/-- The ranges that the rules give the timeouts and limits of PARAMETERS, in fabric ticks where they are times. R411 lists of the
ranges only BRINGUP's; that a value outside another range fails check 0x9 too is the model's choice (log 82). -/
def paramsOk (im : Image) : Bool :=
  let r := im.recov
  let a := im.area
  let us := 1000
  let ms := 1000000
  inRange (10 * us) (100 * ms) r.burstTimeout && inRange ms (10000 * ms) r.replayTimeout && inRange ms (1000 * ms) r.confirmDeadline
    && inRange ms (1000 * ms) r.rerunDeadline && inRange (10 * ms) (600000 * ms) r.watchMin && decide (r.watchPass ≤ 65535)
    && inRange (10 * ms) (60000 * ms) r.watchTest && inRange (10 * ms) (60000 * ms) r.sealTimeout
    && inRange (100 * ms) (600000 * ms) r.rollbackTimeout && inRange (100 * us) (10000 * ms) r.hangTimeout && inRange ms (1000 * ms) r.dumpBudget
    && inRange 1 256 r.ldOpen && inRange (10 * ms) (600000 * ms) r.dcmpWait && inRange (100 * us) (100 * ms) r.sealWait && inRange 1 255 r.sealFlagN
    && inRange (20 * us) (100 * ms) r.launchLead && inRange 8 65535 r.launchWidth && inRange (10 * ms) (60000 * ms) r.timeCheck
    && inRange 10 1000000 r.ppsTol && inRange 1 4096 a.tagKeys && decide (a.trcLrate ≤ 40000000) && inRange 16 1024 a.dumpPace
    && inRange 1 86400 a.period && inRange 1 256 a.lbistPar && inRange 100 600000 a.sdtBudget && inRange 1 65535 a.seamErrMax
    && decide (a.witRate ≤ 16) && inRange 0x08 0x77 a.mgmtAddr.toNat

/-- R448: the thresholds and the hysteresis; seventeen points of each curve. -/
def thermalOk (im : Image) : Bool :=
  let t := im.thermal
  inRange 60 125 t.warn && inRange 61 126 t.thr2 && inRange 62 127 t.thr3 && inRange 63 130 t.trip && inRange 1 10 t.hyst
    && decide (t.warn < t.thr2) && decide (t.thr2 < t.thr3) && decide (t.thr3 < t.trip) && t.curve.length == 17 && t.aclkComp.length == 17

/-- Check 0x9. -/
def contentOk (b : Built) (im : Image) : Bool :=
  !im.reservedSeen && paramsOk im && thermalOk im && geomOk b im && quotasOk im && recordsOk im && scheduleOk im && goldenOk im && areasOk im
    && bringupOk im && !(im.area.mgmtMode == 2 && im.area.i3cMfr == 0) && decide (im.area.mgmtMode ≤ 2)

/-- R411: the first check that fails, or the image and the key that signed it. -/
inductive Checked where
  | bad (code : Nat)
  | good (im : Image) (key : Nat)
  deriving DecidableEq, Repr

/-- R411: every check in order. An image whose read failed on both attempts fails 0xA, for nothing else of it can be judged. -/
def checkImage (b : Built) (f : FuseArray) (r : ImageRead) : Checked :=
  if !r.readOk then .bad 0xA
  else if hdrCheck r.bytes ≠ 0 then .bad (hdrCheck r.bytes)
  else
    let bs := r.bytes.take (hdrLen r.bytes)
    if bs.length < hdrLen r.bytes then .bad 0xA
    else
      let x := splitTrailer bs
      match imageKeyOf f x with
      | none => .bad 4
      | some k =>
        if !sigOk x then .bad 5
        else if hdrSvn bs < minSvn f then .bad 6
        else if !sectionsOk bs then .bad 7
        else if !fwOk f bs then .bad 8
        else match r.sections with
          | some l => if layoutOk bs && contentOk b (imageOf bs l) then .good (imageOf bs l) k else .bad 9
          | none => .bad 9

/-! ### Licences (R426) -/

/-- What a blob with this die's UID gives: its FEATURES byte, or the cause it is rejected for: 1 SIG, 2 FORMAT. -/
def blobCheck (f : FuseArray) (b : List Byte) : Nat ⊕ Nat :=
  let feat := byteAt b 20
  if b.length ≠ 224 ∨ leAt b 0 4 ≠ 0x434C4B5A ∨ leAt b 4 2 ≠ 1 ∨ !zeroRun b 6 2 ∨ !zeroRun b 21 3 ∨ !zeroRun b 24 8
      ∨ feat % 4 = 3 ∨ feat / 4 % 8 > 4 then .inr 2
  else
    let x : Signed := ⟨b.take 128, (b.drop 32).take 48, (b.drop 80).take 48, ofBe ((b.drop 128).take 48), ofBe ((b.drop 176).take 48)⟩
    if f.tkeyHash.toNat ≠ keyHash x ∨ !sigOk x then .inr 1 else .inl feat

/-- R426: the maximum of ENG and BANEN, the logical or of the flags. -/
def joinEnt (a b : Nat) : Nat := max (a % 4) (b % 4) + 4 * max (a / 4 % 8) (b / 4 % 8) + 32 * Nat.lor (a / 32 % 8) (b / 32 % 8)

def blobUid (b : List Byte) : W64 := BitVec.ofNat 64 (leAt b 8 8)

/-- One blob with this die's UID; past the sixteenth it is rejected with cause 3 EXCESS. -/
def takeBlob (s : State) (x : List Byte × Nat) : State :=
  let bad := fun c => addRec { s with boot := { s.boot with rejected := min 31 (s.boot.rejected + 1) } }
    ⟨.licbad, s.time.tick, 0xFFFF, 0, packW [(0, 0xFFFF)], [BitVec.ofNat 32 (leAt x.1 16 4), BitVec.ofNat 32 c]⟩
  if x.2 ≥ 16 then bad 3
  else match blobCheck s.fuses x.1 with
    | .inl feat => { s with boot := { s.boot with
        accepted := s.boot.accepted + 1, ent := BitVec.ofNat 8 (joinEnt s.boot.ent.toNat feat) } }
    | .inr c => bad c

/-- R426: the entitlement of the die. -/
def takeLicences (s : State) (blobs : List (List Byte)) : State :=
  ((blobs.filter fun b => blobUid b == s.fuses.uid).zipIdx).foldl takeBlob { s with boot := { s.boot with ent := s.fuses.licFloor } }

end Sys2Proof.Machine
end

