-- ==== Sys2Proof/Machine/Time.lean ====
section
/-! DEFINITION. TIMEREF, holdover and PPS_IN (R317 to R323, R331). -/

namespace Sys2Proof.Machine

/-- A TREF record (R320, R322): 0 entry or 1 exit, and at exit the largest deviation measured in ppb. -/
def trefRec (s : State) (exit : Bool) : Rec :=
  ⟨.tref, s.time.tick, 0xFFFF, 0, packW [(0, 0xFFFF)],
    [BitVec.ofNat 32 (b2n exit), BitVec.ofInt 32 (if exit then s.time.maxDev else 0)]⟩

/-- R320, R331: TIMEREF is lost. While the PLLs have not locked there is no holdover to enter (R415). -/
def execTimerefLoss (s : State) : Host.Outcome State Fault Refusal :=
  .next (if !s.time.trefOk then s
    else
      let s1 := { s with time := { s.time with trefOk := false, holdover := true, trefLost := true, tsync := 0, maxDev := 0 } }
      alert (addRec s1 (trefRec s1 false)) alTime)

/-- R322: TIMEREF is back and PLL A reports lock. -/
def execTimerefRelock (s : State) : Host.Outcome State Fault Refusal :=
  .next (if !s.time.holdover then s
    else
      let s1 := { s with time := { s.time with trefOk := true, holdover := false } }
      let s2 := addRec s1 (trefRec s1 true)
      (List.range banPorts).foldl (fun s q => if (getPort s q).up then measurePort s q else s) s2)

/-- R321: the deviation measured, in ppb. -/
def execHoldoverMeasure (ppb : Int) (s : State) : Host.Outcome State Fault Refusal :=
  .next (if s.time.holdover ∧ s.time.maxDev.natAbs < ppb.natAbs then { s with time := { s.time with maxDev := ppb } } else s)

def ppsMode (s : State) : Nat := ((recov s).map (·.ppsMode.toNat)).getD 0

/-- R319, R415: the counter starts, which ends step 2 of bring-up where it waited for this alone. -/
def startTick (s : State) : State :=
  let s1 := { s with time := { s.time with run := true, alignWait := false } }
  if s.boot.step = 2 ∧ s.boot.clocks then step3Begins s1 else s1

/-- R323: the interval of two edges lies outside 10^9 ± PPS_TOL. -/
def ppsDrifts (s : State) (period : Nat) : Bool :=
  let tol := ((recov s).map (·.ppsTol)).getD 1000
  decide (period + tol < 1000000000) || decide (1000000000 + tol < period)

/-- R319, R323: a rising edge of PPS_IN starts a counter that waits for it, and is captured. -/
def execPpsEdge (s : State) : Host.Outcome State Fault Refusal :=
  .next (if ppsMode s = 0 then s
    else
      let s1 := if s.time.alignWait then startTick s else s
      if !s1.time.run then s1
      else
        let t := s1.time
        let period := t.tick - t.ppsLast
        let t1 := { t with ppsLast := t.tick, ppsSeen := true, ppsOk := true }
        { s1 with time := if t.ppsSeen then { t1 with ppsPeriod := period, ppsDrift := t.ppsDrift || ppsDrifts s period.toNat } else t1 })

/-- R323: no edge for 1.5 × 10^9 ticks. -/
def execPpsTimeout (s : State) : Host.Outcome State Fault Refusal :=
  .next (if ppsMode s = 0 ∨ !s.time.run then s else { s with time := { s.time with ppsOk := false, ppsLost := true } })

/-- R319: no edge within 1.1 s of the lock. -/
def execPpsAlignTimeout (s : State) : Host.Outcome State Fault Refusal :=
  .next (if !s.time.alignWait then s
    else
      let s1 := startTick s
      { s1 with time := { s1.time with ppsLost := true } })

end Sys2Proof.Machine
end

