-- ==== Sys2Proof/Machine/Boot.lean ====
section
/-! DEFINITION. Resets, fuses, NVM discovery, image load, the five steps of bring-up and JTAG (R228, R278, R391 to R427). -/

namespace Sys2Proof.Machine

/-! ### Cold reset (R397, R278, R455) -/

/-- R395: under compliance enable the boundary register drives the pads in EXTEST and CLAMP. -/
def jtagPads (p : Pads) : Pads := { p with driven := p.coldReset && p.pwrGood && (p.ir == 0x03 || p.ir == 0x04) }

/-- R278: what cold reset keeps: the NVM, of which firmware then takes the valid copies (R442), the fuses as blown (R399), the latch, and while
power holds the contents of the near window. A write of the state area that had not begun is lost. -/
def coldReset (s : State) (good power : Bool) : State :=
  { State.reset with
    nvm := nvmTaken s.nvm
    fuses := s.fuses
    built := s.built
    parts := if power then s.parts.map fun q => { Part.reset with oasisMem := q.oasisMem, logs := q.logs } else State.reset.parts
    records := if power then s.records else []
    pads := jtagPads { s.pads with
      coldReset := true, pwrGood := good, launchOut := false, xspi := false, thermtrip := s.pads.thermtrip && power,
      ir := if good then s.pads.ir else 0x01 }
    rng := s.rng
    pending := s.pending }

def execColdResetNAssert (s : State) : Host.Outcome State Fault Refusal := .next (coldReset s s.pads.pwrGood true)

def execPwrGoodLoss (s : State) : Host.Outcome State Fault Refusal := .next (coldReset s false true)

/-- R455: only the loss of the always-on rail clears the thermal latch; the core rail is off with it (R34). -/
def execAlwaysOnRailLoss (s : State) : Host.Outcome State Fault Refusal := .next (coldReset s false false)

/-- R415, R455: bring-up step 1 begins, and a latch found set ends it. -/
def execColdResetNRelease (s : State) : Host.Outcome State Fault Refusal :=
  .next (if !s.pads.coldReset then s
    else
      let s1 := stepBegins { s with
        pads := jtagPads { s.pads with coldReset := false, pwrGood := true }, boot := { s.boot with started := true } } 1
      if s1.pads.thermtrip then bringFail s1 bfTriplatch else s1)

/-! ### Step 1: fuses, clocks, NVM (R399 to R405, R415) -/

/-- Words of `w` bits in one number, the first lowest. -/
def packBits (w : Nat) (l : List Nat) : Nat := l.foldr (fun x a => x + 2 ^ w * a) 0

/-- R399, R444: what each region's CRC covers, in the order of the fuse map: its bytes and its bits. A region that is no whole number of bytes is
padded with zeros (log 7). -/
def fuseRegions (f : FuseArray) : List (Nat × Nat) :=
  let fact := ((f.repair.headD 0).toNat % 2048) + 1
  [(8, f.uid.toNat), (48, f.idkey.toNat), (48, f.tkeyHash.toNat), (48, f.ikeyHash0.toNat), (48, f.ikeyHash1.toNat), (1, f.ikeyRevoke.toNat),
    (8, f.minSvn.toNat), (15, f.priv.toNat), (1, f.licFloor.toNat), (4, f.jtagId.toNat), (1, b2n f.dbgLock), (1, f.nvmMaxMode.toNat),
    (41120, packBits 20 (f.trim.map (·.toNat))), (4 * fact, packBits 32 ((f.repair.take fact).map (·.toNat)))]

/-- R399: a blank region is valid. -/
def regionOk (r : Nat × Nat) (c : W32) : Bool := (r.2 == 0 && c == 0) || crc32c (leBytes r.1 r.2) == c

/-- R399: the passes agree and every region checks. -/
def fuseReadOk (r : FuseRead) : Bool :=
  r.first == r.second && r.first.crcs.length == 14 && ((fuseRegions r.first.array).zip r.first.crcs).all fun x => regionOk x.1 x.2

/-- Two lists of words, bit by bit. -/
def orWords {w : Nat} (l m : List (BitVec w)) : List (BitVec w) := (List.range (max l.length m.length)).map fun i => l.getD i 0 ||| m.getD i 0

/-- A fuse array with more bits blown; a bit that is blown stays so (R402, R413; DEDUCED, log 7). -/
def fuseOr (f g : FuseArray) : FuseArray :=
  ⟨f.uid ||| g.uid, f.idkey ||| g.idkey, f.tkeyHash ||| g.tkeyHash, f.ikeyHash0 ||| g.ikeyHash0, f.ikeyHash1 ||| g.ikeyHash1,
    f.ikeyRevoke ||| g.ikeyRevoke, f.minSvn ||| g.minSvn, f.priv ||| g.priv, f.licFloor ||| g.licFloor, f.jtagId ||| g.jtagId,
    f.dbgLock || g.dbgLock, f.nvmMaxMode ||| g.nvmMaxMode, orWords f.trim g.trim, orWords f.repair g.repair⟩

/-- R399, R400: a fuse read ends; a bad one is read again, three times at most. The array holds what has been blown before.
In the safe state of FUS it is read again, and what is licensed stays (R511). -/
def execFuseRead (r : FuseRead) (s : State) : Host.Outcome State Fault Refusal :=
  .next (if inSafe s uFus ∧ fuseReadOk r then { s with fuses := fuseOr s.fuses r.first.array }
    else if s.boot.step ≠ 1 ∨ s.boot.readOk then s
    else if fuseReadOk r then
      let f := fuseOr s.fuses r.first.array
      { s with fuses := f, boot := { s.boot with readOk := true, ent := f.licFloor } }
    else if s.boot.retries < 3 then { s with boot := { s.boot with retries := s.boot.retries + 1 } }
    else bringFail s bfFuse)

/-- The wait for TIMEREF and the lock of the PLLs come between fuse read and discovery. -/
def beforeLock (s : State) : Bool := s.boot.step == 1 && s.boot.readOk && !s.boot.discovered

def execTimerefWaitTimeout (s : State) : Host.Outcome State Fault Refusal := .next (if beforeLock s then bringFail s bfNotref else s)
def execPllLockTimeout (s : State) : Host.Outcome State Fault Refusal := .next (if beforeLock s then bringFail s bfPll else s)

/-- R404, R405: discovery completes: TIMEREF is there, the PLLs are locked, the banks are filled (R415). -/
def execNvmDiscovery (d : SfdpData) (s : State) : Host.Outcome State Fault Refusal :=
  .next (if !beforeLock s then s
    else { s with
      boot := { s.boot with discovered := true, mode := nvmMode s.fuses d }
      time := { s.time with trefOk := true }
      pads := { s.pads with xspi := true }
      nvm := { s.nvm with sfdp := some d, ins := discoveryIns s.fuses d }
      cistern := { s.cistern with filled := true } })

/-! ### Image load (R412, R414, R228, R382, R442) -/

/-- R444: what the fuse entries say: tile repairs (Spire, spare), row repairs (bank, row, spare row), and how many are bad. -/
structure FuseMap where
  tiles : List (Nat × Nat)
  rows : List (Nat × Nat × Nat)
  bad : Nat
  deriving DecidableEq, Repr

def fuseEntry (m : FuseMap) (w : W32) : FuseMap :=
  if crc7 25 w.toNat ≠ fld w 25 7 then { m with bad := m.bad + 1 }
  else match fld w 0 2 with
    | 1 => { m with tiles := m.tiles ++ [(fld w 2 14, fld w 2 14 / 256 * 256 + fld w 16 8)] }
    | 2 => { m with rows := m.rows ++ [(fld w 2 5, fld w 7 13, fld w 20 5)] }
    | _ => m

def fuseMap (f : FuseArray) : FuseMap := (f.repair.drop 1).foldl fuseEntry ⟨[], [], 0⟩

/-- Fused and soft tile repairs: tile and spare. -/
def tileRepairs (s : State) : List (Nat × Nat) :=
  (fuseMap s.fuses).tiles ++ (s.nvm.entries.filter (·.tile)).map fun e => (e.unit, e.spare)

/-- R164: the generator's seed. -/
def lfsrSeed (s : State) (im : Image) (ix : Nat) : W64 :=
  let h := sha384 (leBytes 8 s.fuses.uid.toNat ++ leBytes 2 ix ++ leBytes 8 im.recov.smpSalt.toNat)
  let x := ofLe (h.take 8)
  if x = 0 then 1 else BitVec.ofNat 64 x

/-- A Spire out of cold reset: TT_RST_REQ asserted (R398), rate 16 (R165). -/
def freshSpire (s : State) (im : Image) (c : SpireCfg) : Spire where
  ix := c.ix
  cnt := List.replicate 15 0
  smp := ⟨lfsrSeed s im c.ix, 16, 16, 0, false⟩
  lv := ⟨false, false, false, false, false, true, s.boot.rstAcks.contains c.ix, false, false⟩
  tstate := 0
  fseq := 0
  watchCnt := 0
  testing := false
  pendFence := false
  tap := ⟨0, false, false, 0, 0, 0, 0, false⟩
  ops := []
  pass := none
  injSlot := none
  refused := []
  torn := []
  tornOps := []
  raw := []
  orphan := Sd.empty
  answer := .none
  lastv := ⟨0, 0, 0, 0, 0, 0⟩
  viol := (0, 0)
  staging := 0
  witSent := 0
  witGrants := []
  epoch := 0
  trc := ⟨false, false, [], 0, 1024000, 1024000, 0, [], [], [], [], [], [], 0⟩
  wrap := ⟨false, 0, 0, false, 0⟩
  gen := ⟨false, 0, 0, false, 0⟩
  sensor := Sensor.zero
  cycFrom := s.time.tick
  big := List.replicate 9 0

def freshTile (s : State) (c : SpireCfg) : Tile where
  ix := c.ix
  state := 0
  part := c.part
  fseq := 0
  out := none
  next := []
  superseded := []
  offDue := false
  watch := none
  wd := 0
  wdHeld := true
  ranOut := false
  missed := 0
  lost := false
  slow := 0
  slowRaised := false
  reqs := []
  run := none
  ptr := if s.nvm.valid then ((s.nvm.ptrs.find? fun p => p.1 == c.ix).map (·.2)).getD 0 else 0
  lastSlice := 0
  fullPass := none
  acceptedEpochs := []
  fencedAt := none
  resetDone := false

def freshDome (ix : Nat) : Dome :=
  ⟨ix, false, false, 0, [], [], [], List.replicate 16 0, List.replicate 16 0, 0, List.replicate 16 0, [], [], [], [], [], none, 0, 0, [], 0,
    Sensor.zero, List.replicate 6 0⟩

/-- The state of a tile at the last evidence write. -/
def lastState (s : State) (ix : Nat) : Nat :=
  if s.nvm.valid then ((s.nvm.tiles.find? fun t => t.1 == ix).map (·.2)).getD 0 else 0

/-- R228, R445: the state a tile starts in. A tile that was RETIRED and that nothing names any more starts as a FENCED one does. -/
def startState (s : State) (ix : Nat) : Nat :=
  if (tileRepairs s).any fun r => r.1 == ix then stRetired else if lastState s ix ≥ stFenced then stWatch else stHealthy

/-- R228: a full self-test before the first operation: the levels are those of a slice (R224) from the start. -/
def testFirst (s : State) (ix : Nat) : State :=
  let r := mkReq s ix 0 none false 0
  if r.left = 0 then s
  else pushReq (updSp s ix fun p => { setLevels true true true p with testing := true }) ix r

/-- R228: the tile and its Spire take their first state, with its record and the full self-test that WATCH asks for. -/
def startTile (s : State) (ix : Nat) : State :=
  let st := startState s ix
  if st = stHealthy then s
  else
    let s1 := updTile (snapshotDue s (lastState s ix) st) ix fun t => { t with
      state := st, watch := if st = stWatch then some ⟨0, 0, 0, false, 0, false⟩ else none }
    let s2 := updSp s1 ix fun p => if st = stWatch then spWatch p else mirrorState st p
    let s3 := addRec s2 (tstateRec s2 ix (lastState s ix) st tcCold 0xFFFF 0 0 0 0)
    if st = stWatch then testFirst s3 ix else s3

/-- R382: the spare rows of a bank: fused ones first, then the soft record's. -/
def bankRemap (s : State) (b : Nat) : List (Nat × Nat) :=
  ((fuseMap s.fuses).rows.filter fun r => r.1 == b).map (fun r => r.2) ++
    (s.nvm.entries.filter fun e => !e.tile && e.unit == b).map fun e => (e.slice, e.spare)

def startBank (s : State) (b : Nat) (x : Bank) : Bank :=
  let m := bankRemap s b
  { x with remap := m, sparesUsed := m.length, spareOut := decide (m.length ≥ 32) }

/-- R40, R441: the spares of a partition that no repair has used. -/
def spareList (s : State) (im : Image) (p : Nat) : List Nat :=
  ((im.geom.spires.filter fun c => c.spare && c.part == p).map (·.ix)).filter fun x => !((tileRepairs s).any fun r => r.2 == x)

/-- R375, R414, R278: the code goes to both firmware banks, and its hash is kept. -/
def loadFirmware (s : State) (code : List Byte) : State :=
  let s1 := code.zipIdx.foldl (fun s b => cisStore (cisStore s 0 b.2 b.1) 1 b.2 b.1) s
  let s2 := updCis s1 fun c => { c with execBank := false, readBank := false, mirrorOk := true }
  { s2 with boot := { s2.boot with fwLen := code.length, fwHash := sha384 code } }

/-- R382: a bank whose spares are all taken. -/
def spareAlert (s : State) : State := if s.cistern.banks.any (·.spareOut) then alert s alCistern else s

/-- The seam groups of a Dome, before their qualification. -/
def seamGroups (s : State) (d : Dome) : Dome :=
  { d with groupsUp := List.replicate (upGroups s d.ix) true, groupsDn := List.replicate (dnGroups s d.ix) true }

/-- R466: the entry that each declared partition always has takes its two lines of the Cistern. -/
def chargeRest (s : State) : State :=
  (List.range Config.parts).foldl (fun s p => if (partCfg s p).isSome then addUse s p 2 else s) s

/-- R414: a checked image is loaded into the units. -/
def loadImage (s : State) (r : ImageRead) (im : Image) (key : Nat) : State :=
  let bs := r.bytes.take (hdrLen r.bytes)
  let s1 : State := { s with
    image := some im, imageHash := sha384 (splitTrailer bs).msg, imageSeq := hdrImgSeq bs, imageFlags := hdrFlags bs, imageKey := key,
    imageSvn := hdrSvn bs, imageBuild := hdrBuild bs
    spires := im.geom.spires.map (freshSpire s im)
    tiles := im.geom.spires.map (freshTile s)
    domes := (List.range im.geom.domes.length).map freshDome
    engines := (List.range Config.engBuilt).map fun e =>
      { Engine.reset with ptr := if s.nvm.valid then s.nvm.engPtrs.getD e 0 else 0 }
    parts := s.parts.zipIdx.map fun q => { q.1 with spares := spareList s im q.2 }
    cistern := { s.cistern with banks := s.cistern.banks.zipIdx.map fun b => startBank s b.2 b.1 }
    nvm := { s.nvm with imageSeq := hdrImgSeq bs }
    boot := { s.boot with slot := r.slotB, softLost := (newerCopy magicRepair s.nvm.repA s.nvm.repB).isNone } }
  let s2 := { s1 with domes := s1.domes.map (seamGroups s1) }
  let s3 := takeLicences (thmCount (loadFirmware s2 (firmwareCode bs)) thFusebad (fuseMap s.fuses).bad) im.licences
  (im.geom.spires.map (·.ix)).foldl startTile (spareAlert (chargeRest s3))

/-- The check code of a slot's header; a header that could not be read fails 0xA. -/
def slotHdr (r : ImageRead) (own : Bool) : Nat :=
  if own && !r.readOk && decide (r.bytes.length < 256) then 0xA else hdrCheck (if own then r.bytes.take 256 else r.other)

def hdrOf (r : ImageRead) (b : Bool) : List Byte := if r.slotB == b then r.bytes.take 256 else r.other

/-- R412: the slots to be tried (true for B), in order. -/
def trialOrder (r : ImageRead) : List Bool :=
  let ok := fun b => slotHdr r (r.slotB == b) == 0
  let order := if (hdrImgSeq (hdrOf r true)).toNat > (hdrImgSeq (hdrOf r false)).toNat then [true, false] else [false, true]
  order.filter ok

def imgCode (s : State) (b : Bool) : Nat := if b then s.boot.imgB else s.boot.imgA
def setImgCode (s : State) (b : Bool) (c : Nat) : State :=
  { s with boot := if b then { s.boot with imgB := c } else { s.boot with imgA := c } }

/-- R407, R412: no slot passes; the block uses the XSPI pads no more. -/
def noImage (s : State) : State :=
  let s1 := bringFail s bfNoimage
  { s1 with pads := { s1.pads with xspi := false } }

/-- R414: an image streams into the data banks while its hash runs: from the first of them on (DESIGN CHOICE, log 49). -/
def streamImage (s : State) (bs : List Byte) : State :=
  bs.zipIdx.foldl (fun s b => cisStore s (2 + b.2 / 2 ^ 23) (b.2 % 2 ^ 23) b.1) s

/-- R403, R412: the headers of both slots are read, and the slot that is tried. -/
def imageIns (s : State) (r : ImageRead) : List NvmIns :=
  match s.nvm.sfdp with
  | none => []
  | some d =>
    let rd := nvmRead d s.boot.mode
    [rd 0 256, rd 0x04000000 256, rd (if r.slotB then 0x04000000 else 0) r.bytes.length]

/-- R411, R412: one slot has been read and is tried. -/
def trySlot (s : State) (r : ImageRead) : State :=
  let order := trialOrder r
  match checkImage s.built s.fuses r with
  | .good im key =>
    loadImage { s with boot := { s.boot with fallback := order.head? != some r.slotB } } r im key
  | .bad c =>
    let s1 := addRec (setImgCode s r.slotB c) ⟨.imgfail, s.time.tick, 0xFFFF, 0, packW [(0, 0xFFFF)],
      [BitVec.ofNat 32 (b2n r.slotB)] ++ words64 (hdrImgSeq r.bytes) ++ [BitVec.ofNat 32 c, BitVec.ofNat 32 s.boot.mode]⟩
    if order.all fun b => imgCode s1 b != 0 then noImage s1 else s1

/-- R412: the slots whose headers fail are not tried; the next one in order is. -/
def execImageCheck (r : ImageRead) (s : State) : Host.Outcome State Fault Refusal :=
  .next (if s.boot.step ≠ 1 ∨ !s.boot.discovered ∨ s.image.isSome then s
    else
      let code := fun b => slotHdr r (r.slotB == b)
      let s1 := [false, true].foldl (fun s b => if code b = 0 then s else setImgCode s b (code b)) s
      let order := trialOrder r
      if order.isEmpty then noImage s1
      else if (order.find? fun b => imgCode s b == 0) = some r.slotB then
        trySlot (streamImage { s1 with nvm := { s1.nvm with ins := imageIns s r } } r.bytes) r
      else s)

/-- R415, R509: firmware starts, and step 2 with it; the units of the Keep are enabled. -/
def execFirmwareStart (s : State) : Host.Outcome State Fault Refusal :=
  .next (if s.boot.step ≠ 1 ∨ s.image.isNone then s
    else stepBegins { s with boot := { s.boot with firmware := true }, keep := { s.keep with unitEn := 0x0FFF } } 2)

/-! ### Step 2: clocks and Caravan -/

/-- R423: firmware places a tile in FENCED before the Belfry starts. -/
def fenceAtBoot (s : State) (sp : Nat) : State := actFence s sp tcBringup 0xFFFF 1 s.time.tick

/-- R77, R91: one tap's version; another than 2 or 3 disables the tap, is reported and fences the tile. -/
def readTap (taps : List (Nat × BitVec 4)) (s : State) (sp : Nat) : State :=
  let v : BitVec 4 := ((taps.find? fun t => t.1 == sp).map (·.2)).getD 0
  let s1 := updSp s sp fun p => { p with tap := { p.tap with ver := v }, lv := { p.lv with hbOk := v == 3 } }
  if v = 3 then { s1 with boot := { s1.boot with tapsV3 := s1.boot.tapsV3 + 1 } }
  else if v = 2 then { s1 with boot := { s1.boot with tapsV2 := s1.boot.tapsV2 + 1 } }
  else
    let s2 := tapViol (updSp s1 sp fun p => { p with tap := { p.tap with off := true } }) .tapviol sp none 0x60 0 0
    fenceAtBoot (tileInput s2 0x16 sp 0x60) sp

/-- R324: the latencies of the sideband's stages, each half its loop. -/
def halfLoops (l : List (Nat × Nat)) : List (Nat × Nat) := l.map fun x => (x.1, x.2 / 2)

/-- What step 2 does before its first thermal sweep is complete: clocks, Domes, latencies, and the sensors' readings. -/
def clocksOn (s : State) (net : NetReport) : State :=
  net.sweep.foldl (fun s x => takeReading s x.1 x.2.1 x.2.2) { s with
    boot := { s.boot with clocks := true }
    domes := s.domes.map fun d => { d with up := true }
    keep := { s.keep with unitEn := s.keep.unitEn ||| 0x3000 }
    time := { s.time with domeLat := halfLoops net.domeLoops, spireLat := halfLoops net.spireLoops } }

/-- R319, R324, R392, R415, R416: the work of step 2 is done; a report without a whole sweep is no event (log 2). The fabric tick starts at the end
of the step, or under PPS_MODE = ALIGN is waited for in it. -/
def execClocksAndCaravan (taps : List (Nat × BitVec 4)) (net : NetReport) (s : State) : Host.Outcome State Fault Refusal :=
  let s1 := clocksOn s net
  .next (if s.boot.step ≠ 2 ∨ s.boot.clocks ∨ !s1.thermal.swept then s
    else
      let s2 := (s1.spires.map (·.ix)).foldl (readTap taps) s1
      let s3 := net.downLinks.foldl (fun s l => match l with
        | .mesh d a b => meshDown s d a b
        | .seam _ _ _ => s) s2
      if ppsMode s = 2 then { s3 with time := { s3.time with alignWait := true } } else startTick s3)

/-! ### Step 3: memories (R388, R415, R423, R427) -/

/-- R388, R415: one bank's TEST; the failing line is carried by no command (log 5). -/
def bootTest (bad : List Nat) (s : State) (b : Nat) : State :=
  if bad.contains b then
    bankTestRun { s with rng := s.rng + 1 } b (some ((Config.unstated s.rng).toNat % 2 ^ 17))
  else bankTestRun s b none

/-- R388: the firmware banks in turn; firmware moves its fetches to the copy that passed. -/
def testFirmwareBanks (bad : List Nat) (s : State) : State :=
  let s1 := bootTest bad s (otherBank s)
  if bad.contains (otherBank s) then s1
  else
    let s2 := updCis s1 fun c => { c with execBank := !c.execBank }
    bootTest bad s2 (otherBank s2)

/-- R31, R222, R423, R427, R431: an engine after its checker self-test: a failing one stays fenced until cold reset, one that is not licensed
is off. -/
def startEngine (reports : List (Nat × EngineRun)) (s : State) (e : Nat) : State :=
  if licEng s ≤ e then updEng s e fun g => { g with state := .off }
  else
    let x := engineTest s e (((reports.find? fun r => r.1 == e).map (·.2)).getD ⟨[], [], 0⟩)
    updEng x.1 e fun g => { g with state := if x.2 then .free else .failed }

def startEngines (s : State) (reports : List (Nat × EngineRun)) : State := (List.range Config.engBuilt).foldl (startEngine reports) s

/-- R425: the records made so far are drained with the others. -/
def releaseEarly (s : State) : State := s.early.foldl addRec { s with early := [] }

/-- R430: what a Spire's checker self-test reported. -/
def checkerPasses (reports : List (Nat × CheckerRun)) (sp : Nat) : Bool := ((reports.find? fun r => r.1 == sp).map (·.2.passes)).getD false

/-- R423, R433, R441: where a Spire's checker self-test failed its tile is FENCED, and a spare is looked for. -/
def checkerAtBoot (reports : List (Nat × CheckerRun)) (s : State) (sp : Nat) : State :=
  if checkerPasses reports sp then s else repairWanted (fenceAtBoot (tileInput s 0x15 sp 0) sp) sp none

/-- R388, R415, R424, R430, R431: the tests of step 3 have ended. -/
def execMemories (badBanks : List Nat) (engines : List (Nat × EngineRun)) (spires : List (Nat × CheckerRun)) (s : State) :
    Host.Outcome State Fault Refusal :=
  .next (if s.boot.step ≠ 3 then s
    else
      let s1 := ((List.range Config.banks).drop 2).foldl (bootTest badBanks) s
      let s2 := startEngines (testFirmwareBanks badBanks s1) engines
      let s3 := checkersOff ((s2.spires.map (·.ix)).foldl (checkerAtBoot spires) s2)
      let s4 := releaseEarly (stepBegins { s3 with boot := { s3.boot with memories := true } } 4)
      if s4.engines.any fun g => g.state == .free then s4 else bringFail s4 bfNoengine)

/-! ### Step 4: links (R362, R419, R420) -/

/-- The failing wires of a group by subgroup: data wires 0 to 127, spare wire 128 + j of subgroup j. -/
def subgroupFails (wires : List Nat) (j : Nat) : Nat :=
  (wires.eraseDups.filter fun w => if w < 128 then w / 16 == j else w == 128 + j).length

/-- R362: two failing wires in a subgroup disable the group. -/
def groupWorks (wires : List Nat) : Bool := (List.range 8).all fun j => decide (subgroupFails wires j ≤ 1)

/-- R362: the spare map of one direction: the data wires that spares replace, in the groups that work. -/
def sparesIn (up : Bool) (gs : List (List Nat)) : List (Bool × Nat × Nat) :=
  gs.zipIdx.flatMap fun g => if groupWorks g.1 then (g.1.eraseDups.filter (· < 128)).map fun w => (up, g.2, w) else []

/-- A LINKQ record (R425); outcome 0 passed, 1 failed, 2 no peer. -/
def linkq (s : State) (link ver outcome : Nat) (errors eyes : List Nat) : State :=
  addRec s ⟨.linkq, s.time.tick, 0xFFFF, 0, packW [(0, 0xFFFF)],
    [BitVec.ofNat 32 link, BitVec.ofNat 32 ver] ++ (errors ++ eyes).map (BitVec.ofNat 32) ++ [BitVec.ofNat 32 outcome]⟩

/-- R419: the dwell that settles a group: the first of at most `retries` + 1 in which the group works, else the last of them. -/
def settled (retries : Nat) (dwells : List (List (Nat × Nat))) : List (Nat × Nat) :=
  let ds := dwells.take (retries + 1)
  ((ds.find? fun d => groupWorks (d.map (·.1))).or ds.getLast?).getD []

/-- The groups of one direction as the qualification settles them. -/
def groupReport (retries n : Nat) (gs : List (List (List (Nat × Nat)))) : List (List (Nat × Nat)) :=
  (List.range n).map fun g => settled retries (gs.getD g [])

/-- The failing wires of a group. -/
def wiresOf (g : List (Nat × Nat)) : List Nat := g.map (·.1)

/-- One direction of an edge: its record, with the bit errors of each group, and a SEAMDEG record for each group lost (R362). -/
def seamSide (s : State) (d : Nat) (up : Bool) (gs : List (List (Nat × Nat))) : State :=
  let works := gs.map fun g => groupWorks (wiresOf g)
  let n := (works.filter id).length
  let s1 := linkq s (d + 256 * b2n (!up)) 0 (b2n (n == 0)) (gs.map fun g => (g.map (·.2)).foldl (· + ·) 0) []
  (gs.filter fun g => !groupWorks (wiresOf g)).foldl (fun s g => seamdeg s d up works.length n (wiresOf g)) s1

def bringRetry (s : State) : Nat := (s.image.map (·.bringup.bringRetry)).getD 2

/-- R362, R419: the edge above a Dome. -/
def seamEdge (edges : List SeamEdge) (s : State) (d : Nat) : State :=
  let e := edges.find? fun e => e.dome == d
  let ups := groupReport (bringRetry s) (upGroups s d) ((e.map (·.up)).getD [])
  let dns := groupReport (bringRetry s) (dnGroups s d) ((e.map (·.down)).getD [])
  let works := fun g => groupWorks (wiresOf g)
  let s1 := updDome s d fun x => { x with
    groupsUp := ups.map works, groupsDn := dns.map works
    spareMap := sparesIn true (ups.map wiresOf) ++ sparesIn false (dns.map wiresOf) }
  seamSide (seamSide s1 d true ups) d false dns

def mandatory (s : State) (q : Nat) : Bool := ((s.image.map fun im => bitOf im.bringup.banMand q)).getD false

/-- R427: the port is licensed and built. -/
def portEnabled (s : State) (q : Nat) : Bool :=
  decide (q < (entitled s).toNat / 4 % 8) && decide (q < ((s.image.map (·.geom.banen)).getD 0))

/-- R419, R424: seam qualification ends, and Banen qualification begins. -/
def execSeamQualification (edges : List SeamEdge) (s : State) : Host.Outcome State Fault Refusal :=
  .next (if s.boot.step ≠ 4 ∨ s.boot.seams then s
    else
      let s1 := (s.domes.map (·.ix)).foldl (seamEdge edges) s
      let s2 := { s1 with boot := { s1.boot with seams := true } }
      if s2.domes.any fun d => !edgeUp d then bringFail s2 bfSeam
      else if (List.range banPorts).any fun q => mandatory s2 q && !portEnabled s2 q then bringFail s2 bfUnlicensed
      else { s2 with ports := s2.ports.zipIdx.map fun p => { p.1 with waiting := portEnabled s2 p.2 } })

/-- R420: a version's eye threshold in 1/32 UI, and the errors it allows per lane. -/
def eyeMin (v : Nat) : Nat := if v = 1 then 10 else if v = 2 then 8 else 4
def errMax (v : Nat) : Nat := if v = 3 then 5312 else 0

def qualPasses (q : BanQual) : Bool :=
  q.locked && q.errors.all (fun e => decide (e ≤ errMax q.version)) && q.eyes.all fun e => decide (e ≥ eyeMin q.version)

/-- R424: a mandatory port that cannot come up ends bring-up. -/
def portFailed (s : State) (q : Nat) : State := if mandatory s q ∧ !s.boot.ready then bringFail s bfBanen else s

/-- R420: Banen qualification runs from step 4 on, on an enabled port that is not up. -/
def mayQualify (s : State) (q : Nat) : Bool :=
  s.boot.seams && decide (s.boot.step ≤ 6) && portEnabled s q && !(getPort s q).up

/-- R420: the version that a port qualifies at next. -/
def nextVer (s : State) (q : Nat) : Nat := let c := (getPort s q).cand; if c = 0 then maxVer s q else c

/-- R420: one attempt at a version; another than the port's next is no event. `quals` counts the failures at it. -/
def execBanenQualification (q : BanQual) (s : State) : Host.Outcome State Fault Refusal :=
  .next (if !mayQualify s q.port ∨ q.version ≠ nextVer s q.port then s
    else if !q.peer then
      linkq (updPort s q.port fun p => { p with waiting := true }) (0x10000 + q.port) q.version 2 q.errors q.eyes
    else if qualPasses q then
      let s0 := linkq (updPort s q.port fun p => { p with quals := 0, qver := q.version, waiting := false }) (0x10000 + q.port) q.version 0
        q.errors q.eyes
      let s1 := sendHello s0 q.port
      match q.hello with
      | some b => linkUp s1 q.port b
      | none => s1
    else
      let n := (getPort s q.port).quals + 1
      let spent := decide (n > bringRetry s)
      let s1 := linkq (updPort s q.port fun p => { p with
        quals := if spent then 0 else n
        cand := if spent then max (minVer s q.port) (q.version - 1) else q.version
        waiting := p.waiting && !(spent && decide (q.version ≤ minVer s q.port)) }) (0x10000 + q.port) q.version 1 q.errors q.eyes
      if n > bringRetry s ∧ q.version ≤ minVer s q.port then portFailed s1 q.port else s1)

/-- R420, R424: the time for a peer to appear is over. -/
def execBanWait (port : Nat) (s : State) : Host.Outcome State Fault Refusal :=
  .next (if !mayQualify s port ∨ !(getPort s port).waiting ∨ s.boot.ready then s
    else portFailed (updPort s port fun p => { p with waiting := false }) port)

/-- R420: once per second after READY a port that is down tries again from its highest version. -/
def execBanenRetry (port : Nat) (s : State) : Host.Outcome State Fault Refusal :=
  .next (if !mayQualify s port ∨ !s.boot.ready ∨ mandatory s port then s
    else linkq (updPort s port fun p => { p with quals := 0, qver := 0, cand := 0, waiting := true }) (0x10000 + port) (maxVer s port) 2 [] [])

/-! ### Step 5: compute (R398, R415, R418) -/

/-- R418 step 1: a field's wave number. -/
def waveOf (im : Image) (d : DomeCfg) : Nat :=
  let dist := fun e : DomeCfg => (max d.fx e.fx - min d.fx e.fx) + (max d.fy e.fy - min d.fy e.fy)
  (((im.geom.domes.filter (·.nvm)).map dist).min?).getD 0

/-- R418 step 2: a run of Domes of one wave number in slots of at most `n`. -/
def cutSlots (n : Nat) : Nat → List Nat → List (List Nat)
  | 0, _ => []
  | k + 1, l => if l.isEmpty then [] else l.take n :: cutSlots n k (l.drop n)

/-- R418: the release slots. -/
def releaseSlots (im : Image) : List (List Nat) :=
  let ds := im.geom.domes.zipIdx
  if !im.bringup.wave then [ds.map (·.2)]
  else
    let n := max 1 im.bringup.waveMaxD
    (List.range 31).flatMap fun w => cutSlots n ds.length ((ds.filter fun d => waveOf im d.1 == w).map (·.2))

/-- R398: one Spire of a released Dome; a tile that is not in reset by now has missed its deadline. -/
def releaseSpire (s : State) (t : Tile) : State :=
  onSp s t.ix fun sp =>
    if t.state = stDead ∨ t.state = stRetired then s
    else if sp.lv.rstAck && !t.lost then tapReset s t.ix else resetMissed s t.ix

/-- R415: a Dome's compute is released. -/
def releaseDome (s : State) (d : Nat) : State :=
  let s1 := updDome s d fun x => { x with released := true }
  (s1.tiles.filter fun t => t.ix / 256 == d).foldl releaseSpire s1

/-- R415: step 4 has settled a port: it is up with its offset measured, or is awaited no more and may be down. -/
def portSettled (s : State) (q : Nat) : Bool :=
  let p := getPort s q
  if p.up then p.measured else !mandatory s q && !p.waiting

/-- The first slot of step 5 comes with the Belfry's start: in wave order after seam qualification, in strict order after
step 4, when every port is settled. After DIE_FAULT the Belfry stays stopped (R274). -/
def step5Begins (s : State) : Bool :=
  s.boot.step == 4 && s.boot.seams && (((s.image.map (·.bringup.wave)).getD false) || (List.range banPorts).all (portSettled s))

def execWaveRelease (s : State) : Host.Outcome State Fault Refusal :=
  let s1 := if step5Begins s then stepBegins { s with
      boot := { s.boot with slots := ((s.image.map releaseSlots).getD []) }, belfry := { s.belfry with run := !s.keep.dieFault } } 5 else s
  .next (if s1.boot.step ≠ 5 then s1
    else match s1.boot.slots with
      | [] => s1
      | sl :: rest => sl.foldl releaseDome { s1 with boot := { s1.boot with slots := rest } })

/-! ### READY (R413, R421, R425) -/

/-- R421: every criterion holds. -/
def readyNow (s : State) : Bool :=
  s.boot.step == 5 && s.domes.all edgeUp
    && (List.range banPorts).all (fun q => !mandatory s q || ((getPort s q).up && bitOf s.time.tsync q))
    && s.engines.any (fun g => g.state == .free)
    && s.tiles.all (fun t => decide (t.state ≥ stFenced) || t.resetDone)
    && s.time.trefOk && !s.time.holdover

/-- NVM_BOOT (R424). -/
def nvmBoot (s : State) : W32 :=
  packW [(0, s.boot.step), (3, b2n s.boot.ready), (4, b2n s.boot.slot), (5, b2n s.boot.fallback),
    (6, b2n ((s.image.map (·.bringup.wave)).getD false)), (7, s.boot.mode), (10, s.boot.fail), (16, s.boot.imgA), (20, s.boot.imgB)]

def countTiles (s : State) (st : Nat) : Nat := (s.tiles.filter fun t => t.state == st).length
def fencedEngines (s : State) : Nat :=
  ((s.engines.take (licEng s)).filter fun g => g.state == .fenced || g.state == .testing || g.state == .failed).length
def portsUp (s : State) : Nat := (s.ports.filter (·.up)).length

/-- R425, R513: the BOOT record, with KEEP_HOSTTAG after its words (log 9), and the times of the steps as ACLK measured them (log 5). -/
def bootRec (s : State) : Rec :=
  ⟨.boot, s.time.tick, 0xFFFF, 0, packW [(0, 0xFFFF)],
    [nvmBoot s] ++ (List.range 5).map (fun k => Config.aclkUs (k + 1) (s.boot.began.getD k 0) (s.boot.began.getD (k + 1) 0)) ++
      [halves (countTiles s stDead) (countTiles s stFenced),
        packW [(0, fencedEngines s % 256), (8, (s.domes.map (·.spareMap.length)).foldl (· + ·) 0 % 256), (16, portsUp s)]] ++ words64 s.imageSeq ++ [s.keep.hosttag]⟩

/-- R399, R413: bits of the thermometer code are blown, lowest first, until `n` are. -/
def blowSvn (n : Nat) (f : FuseArray) : FuseArray :=
  (List.range 64).foldl (fun f i => if minSvn f < n then { f with minSvn := f.minSvn ||| BitVec.ofNat 64 (2 ^ i) } else f) f

/-- R413: the fuses that the image's flags blow. -/
def blowFuses (s : State) : State :=
  let f1 := if bitOf s.imageFlags 0 then blowSvn s.imageSvn s.fuses else s.fuses
  let f2 := if bitOf s.imageFlags 1 then { f1 with ikeyRevoke := f1.ikeyRevoke ||| BitVec.ofNat 2 (2 ^ (1 - s.imageKey)) } else f1
  { s with fuses := f2 }

/-- R278: the headers of the queues and logs of the near window. -/
def initQueues (s : State) : State :=
  let heads := (List.range Config.parts).flatMap fun p => (List.range 4).map fun l => NearItem.head l p 0
  let empty := fun l : PartLogs => { l with notes := Log.empty, digests := Log.empty, meters := Log.empty, trace := Log.empty }
  { s with
    parts := s.parts.map fun q => { q with logs := empty q.logs }
    near := { s.near with waiting := s.near.waiting ++ heads } }

def execReady (s : State) : Host.Outcome State Fault Refusal :=
  .next (if !readyNow s then s
    else
      let s1 := initQueues (stepBegins { s with boot := { s.boot with ready := true } } 6)
      let s2 := blowFuses (addRec s1 (bootRec s1))
      if s.boot.fallback ∨ s.boot.softLost then alert s2 alImage else s2)

/-- R424: TIMEREF has not come back within 1 s after step 5. -/
def execTimerefRelockTimeout (s : State) : Host.Outcome State Fault Refusal :=
  .next (if s.boot.step = 5 ∧ (s.time.holdover ∨ !s.time.trefOk) then bringFail s bfNotref else s)

/-! ### JTAG (R394, R395) -/

/-- The registers that a TAP instruction selects. -/
inductive TapReg1149 where
  | identification | boundary | bypass | manufacturing
  deriving DecidableEq, Repr

/-- R394, R395: outside the compliance-enable condition EXTEST selects the bypass register. -/
def tapSelects (s : State) : TapReg1149 :=
  let ir := s.pads.ir
  if ir = 0x01 then .identification
  else if ir = 0x02 then .boundary
  else if ir = 0x03 ∧ s.pads.coldReset ∧ s.pads.pwrGood then .boundary
  else if 0x80 ≤ ir.toNat ∧ ir.toNat ≤ 0xBF ∧ !s.fuses.dbgLock then .manufacturing
  else .bypass

/-- R395: IDCODE. -/
def idcodeOf (f : FuseArray) : W32 := BitVec.ofNat 32 (2 * f.jtagId.toNat + 1)

/-- A TAP instruction is loaded. The TAP is usable from the assertion of PWR_GOOD, so an instruction after its loss says that it is back
(DEDUCED, log 109). -/
def loadIr (s : State) (op : Byte) : State := { s with pads := jtagPads { s.pads with pwrGood := true, ir := op } }

def execIdcode (s : State) : Host.Outcome State Fault Refusal := .next (loadIr s 0x01)

/-- SAMPLE/PRELOAD: the boundary register takes what the pads show, and is loaded with the values it is to drive; its cells are the
integrator's (R394). -/
def execSamplePreload (p : Preload) (s : State) : Host.Outcome State Fault Refusal :=
  let s1 := loadIr s 0x02
  .next { s1 with pads := { s1.pads with boundary := p.drive, sampled := p.sampled } }

def execExtest (s : State) : Host.Outcome State Fault Refusal := .next (loadIr s 0x03)
def execClamp (s : State) : Host.Outcome State Fault Refusal := .next (loadIr s 0x04)
def execHighz (s : State) : Host.Outcome State Fault Refusal := .next (loadIr s 0x05)
def execBypass (op : Byte) (s : State) : Host.Outcome State Fault Refusal := .next (loadIr s op)

/-- R394, R402: a private instruction, which blows fuses until DBG_LOCK is blown, and is bypass from then on. -/
def execManufacturingTest (p : PrivOp) (s : State) : Host.Outcome State Fault Refusal :=
  let s1 := loadIr s p.op
  .next (if tapSelects s1 = .manufacturing then { s1 with fuses := fuseOr s1.fuses p.blow } else s1)

end Sys2Proof.Machine
end

