-- ==== Sys2Proof/Machine/Shutdown.lean ====
section
/-! DEFINITION. What the Belfry does with a privileged command it takes: release, shut-down self-test, repair clear (R240, R241, R440 to
R445), and the end of the shut-down self-test. -/

namespace Sys2Proof.Machine

/-- R241: a full self-test of the tile passed within the last 10 s. -/
def freshPass (s : State) (t : Tile) : Bool :=
  match t.fullPass with
  | some p => decide (s.time.tick.toNat - p.toNat ≤ 10000000000)
  | none => false

/-- R241: the first cause that refuses a release. -/
def releaseCause (s : State) (t : Tile) : Option Nat :=
  match t.state with
  | 4 => some ccDead
  | 3 => some ccRetired
  | 2 => if freshPass s t then none else some ccNoTest
  | _ => some ccNotFenced

/-- R225, R241: FENCED to WATCH by a RELEASE frame; the command is done when the levels have changed. -/
def runRelease (s : State) (i : Nat) (w : W32) : State :=
  onTile s (cmdSpire w) fun t =>
    match releaseCause s t with
    | some c => cmdFinish s i crRefused c
    | none => cmdState (changeState s t.ix stWatch tcRelease 0xFFFF 9 s.time.tick 0 0 (some i)) i crRunning

/-- R445: the entry of a tile is marked for removal, and the repair write that removes it is ordered. -/
def runRepairClear (s : State) (i : Nat) (w : W32) : State :=
  let sp := cmdSpire w
  let mine := s.nvm.entries.filter fun e => e.tile && e.unit == sp
  if (fuseMap s.fuses).tiles.any (fun r => r.1 == sp) ∨ mine.any (·.fused) then cmdFinish s i crRefused ccFused
  else if mine.isEmpty then cmdFinish s i crRefused ccNoEntry
  else cmdFinish (writeRepair { s with nvm := { s.nvm with entries := s.nvm.entries.map fun e =>
    if e.tile ∧ e.unit = sp then { e with clear := true } else e } }) i crDone 0

/-! ### The shut-down self-test (R440) -/

/-- The SDT record. -/
def sdtRec (s : State) (used fused cause : Nat) : Rec :=
  let h := s.thermal
  ⟨.sdt, s.time.tick, 0xFFFF, 0, packW [(0, 0xFFFF)],
    [h.sdtBudget, used, h.sdtRun, h.sdtPass, h.sdtFailed, h.sdtLeft, fused, cause].map (BitVec.ofNat 32)⟩

/-- R440: without FORCE the tiles that may work must be idle. -/
def anyActive (s : State) : Bool :=
  s.tiles.any fun t => decide (t.state < stFenced) && !((getSp s t.ix).map (·.lv.idle)).getD true

/-- R440 step 3: a soft entry that holds a RETIRED tile. -/
def softSlice (s : State) (t : Tile) : Option Nat :=
  if t.state = stRetired then ((s.nvm.entries.find? fun e => e.tile && e.unit == t.ix).map (·.slice)) else none

/-- R440 step 3: the place of a tile in the order of the units under suspicion, others last. -/
def sdtOrder (s : State) (t : Tile) : Nat :=
  if t.state = stFenced then 0 else if t.state = stWatch then 1 else if (softSlice s t).isSome then 2 else 4

/-- R440 step 3: what a tile is asked to run: its recorded slice, or its set from the rotation pointer. -/
def sdtRequest (s : State) (t : Tile) : SliceReq :=
  let es := fullSet s t.ix
  let r := mkReq s t.ix es.length none false (sdtOrder s t)
  match softSlice s t with
  | some k => { r with left := 1, next := k % max 1 es.length, full := false, moves := false, begun := true }
  | none => { r with begun := true }

/-- R440 step 1: TEST_ON to a tile, with the slices it is to run. -/
def sdtTile (s : State) (t : Tile) : State :=
  if t.state = stDead then s else pushReq (sendTest s t.ix true) t.ix (sdtRequest s t)

/-- R440 step 1: the engines leave the pool, and are to run their set. -/
def sdtEngine (s : State) (e : Nat) : State :=
  if e < licEng s then updEng s e fun g => { g with
    state := if g.state = .failed ∨ g.state = .off then g.state else .fenced, cols := [], fifo := [], rows := [], left := (goldenOf s uEngineSet).length }
  else s

/-- R440 step 2: the data banks and the firmware bank that does not execute are to be tested. -/
def sdtBanks (s : State) : List Nat := otherBank s :: (List.range Config.banks).drop 2

/-- R440: the command is taken: refused, or step 1 runs and the tests of step 2 are due. -/
def runShutdown (s : State) (i : Nat) (w budget : W32) : State :=
  let ms := if budget = 0 then ((area s).map (·.sdtBudget)).getD 4000 else budget.toNat
  let s0 := { s with thermal := { s.thermal with
    sdtBudget := ms, sdtRun := 0, sdtPass := 0, sdtFailed := 0, sdtLeft := 0, sdtInst := i, sdtStart := s.time.tick, sdtBanks := [] } }
  if anyActive s && !cmdFlag w then
    let s1 := { s0 with thermal := { s0.thermal with sdtState := 3 } }
    cmdFinish (addRec s1 (sdtRec s1 0 0 ccActive)) i crRefused ccActive
  else
    let s1 := cmdState { s0 with keep := { s0.keep with shutdown := true }, thermal := { s0.thermal with sdtState := 1, sdtBanks := sdtBanks s } } i crRunning
    let s2 := s1.samples.foldl (fun s x => endSample s x.uid x.row rIncon 0x02) s1
    let s3 := (List.range Config.engBuilt).foldl sdtEngine s2
    s3.tiles.foldl sdtTile s3

/-- R444: a fuse entry of a soft entry, where the fuse layout can name its spare. -/
def fuseWord (e : RepairEnt) : Option W32 :=
  let body := if e.tile then packW [(0, 1), (2, e.unit), (16, e.spare % 256)] else packW [(0, 2), (2, e.unit), (7, e.slice), (20, e.spare)]
  if e.tile ∧ e.unit / 256 ≠ e.spare / 256 then none else some (setFld body 25 7 (crc7 25 body.toNat))

/-- R444: the soft entries that step 4 fuses. -/
def toFuse (e : RepairEnt) : Bool := !e.fused && !e.clear && (!e.tile || e.solid) && (fuseWord e).isSome

/-- R444: the first blank entry of the region after its header. -/
def fusePlace (l : List W32) : Nat := (((l.drop 1).findIdx? (· == 0)).map (· + 1)).getD (max 1 l.length)

/-- R444: one entry is fused while the region has room. -/
def fuseOne (s : State) (e : RepairEnt) : State :=
  let l := s.fuses.repair
  let k := fusePlace l
  match fuseWord e with
  | none => s
  | some w =>
    if !toFuse e ∨ k ≥ 2048 then s
    else { s with
      fuses := { s.fuses with repair := (l ++ List.replicate (k + 1 - l.length) 0).set k w }
      nvm := { s.nvm with entries := s.nvm.entries.map fun x => if x = e then { x with fused := true } else x } }

/-- The soft entries that are fused. -/
def fusedCount (s : State) : Nat := (s.nvm.entries.filter (·.fused)).length

/-- The slices not reached. -/
def slicesLeft (s : State) : Nat :=
  ((s.tiles.flatMap (·.reqs)).map (·.left)).foldl (· + ·) 0 + (s.engines.map (·.left)).foldl (· + ·) 0

/-- R440 steps 4 and 5, R443, R488: once the tests of step 2 and the slices have ended: fuses, NVM records, the SDT record, the meter
period. -/
def execSdtComplete (s : State) : Host.Outcome State Fault Refusal :=
  .next (if s.thermal.sdtState ≠ 1 ∨ !s.thermal.sdtBanks.isEmpty ∨ s.tiles.any (fun t => t.run.isSome) ∨ s.engines.any (fun g => g.run.isSome) then s
    else
      let s0 := repairTick s
      let left := slicesLeft s0
      let s1 := if ((area s).map (·.repairFuse)).getD false then s0.nvm.entries.foldl fuseOne s0 else s0
      let fused := fusedCount s1 - fusedCount s0
      let s2 := writeRepair { s1 with
        tiles := s1.tiles.map fun t => { t with reqs := [] }
        engines := s1.engines.map fun g => { g with left := 0 }
        thermal := { s1.thermal with sdtState := 2, sdtLeft := left } }
      let s3 := if inSafe s2 uNvm then { s2 with nvm := { s2.nvm with snapPending := true } } else writeSnapshot s2
      let used := (s.time.tick.toNat - s.thermal.sdtStart.toNat) / 1000000
      cmdFinish (closeEarly (addRec s3 (sdtRec s3 used fused 0)) .short) s.thermal.sdtInst crDone 0)

end Sys2Proof.Machine
end

