-- ==== Sys2Proof/Machine/Belfry.lean ====
section
/-! DEFINITION. Cadence words, the schedule table and the Belfry tick (R85, R86, R332 to R354). -/

namespace Sys2Proof.Machine

/-! ### Cadence words at entry (R85, R247, R334) -/

/-- R85, R422, R440, R511: CAD_READY. -/
def cadReady (s : State) : Bool :=
  s.boot.ready && s.boot.step == 6 && !s.keep.shutdown && !inSafe s uPart && decide (s.belfry.cadFifo.length < 64)

/-- The protocol states of R247. -/
inductive Proto where
  | idle | opened | written | read | rb | begun | ended
  deriving DecidableEq, Repr

/-- R247: the state that the Keep is in. -/
def protoNow (q : Part) : Proto :=
  match q.rb, q.window with
  | some r, _ => if r.ended.isSome then .ended else if r.beginEpoch.isSome then .begun else .rb
  | none, some w => if w.phase = 0 then .opened else if w.phase = 1 then .written else .read
  | none, none => .idle

/-- R247: the state that a word of a PHASE leaves. -/
def protoNext (x : Proto) (phase : Byte) : Proto :=
  match x, phase.toNat with
  | .idle, 0xF0 => .opened
  | .opened, 0xF1 => .written
  | .written, 0xF2 => .read
  | .rb, 0xF3 => .begun
  | .begun, 0xF4 => .ended
  | x, _ => x

/-- R334: the state that the words accepted so far will leave. -/
def protoAt (s : State) (p : Nat) : Proto :=
  ((s.belfry.cadFifo.filter fun w => cPart w == p).map cPhase).foldl protoNext (protoNow (getPart s p))

/-- R247: the word's protocol PHASE is in order; `first` says that no word of the partition was accepted before. -/
def protoOk (s : State) (w : CadW) (first advance : Bool) : Bool :=
  let st := protoAt s (cPart w)
  match (cPhase w).toNat with
  | 0xF0 => st == .idle
  | 0xF1 => st == .opened
  | 0xF2 => st == .written
  | 0xF3 => st == .rb && ((getPart s (cPart w)).rb.map fun r => !earlierThan (cEpoch w) r.floor).getD false
  | 0xF4 => st == .begun
  | 0xF5 => st == .idle && cEra w == 0 && cStep w == 0 && cLayer w == 0 && (first || advance)
  | _ => true

/-- R334: the violation of a word, if it has one. -/
def cadCheck (s : State) (w : CadW) : Option Byte :=
  let acc := (getPart s (cPart w)).accepted
  let back := match acc with
    | some a => earlierThan (cEpoch w) a.epoch || (cEpoch w == a.epoch && posLt (cPos w) a)
    | none => false
  let advance := (acc.map fun a => laterThan (cEpoch w) a.epoch).getD false
  if !cCrcOk w || cReserved w then some 1
  else if back then some 2
  else if (cPhase w).toNat ≥ 0xF6 then some 3
  else if !protoOk s w acc.isNone advance then some 4
  else none

/-- A CADVIOL; a Cadence word is one beat. -/
def cadViol (s : State) (w : CadW) (code : Byte) : State := portViol s .cadviol (cPart w) 0 (cLayer w) 0xFFFF code 0 (cEpoch w) 1

/-- R85, R334; R38: with PCLK lost a refused word is recorded and gives no pulse, and no word enters. -/
def execCadenceWord (w : BitVec 128) (s : State) : Host.Outcome State Fault Refusal :=
  .next (if !cadReady s then s
    else match cadCheck s w with
      | some c =>
        let s1 := cadViol s w c
        { s1 with cadNack := !s.keep.lostNow.contains .pclk }
      | none =>
        if s.keep.lostNow.contains .pclk then { s with cadNack := false }
        else
          let s1 := updPart s (cPart w) fun q => { q with accepted := some (cPos w) }
          { s1 with cadNack := false, belfry := { s1.belfry with cadFifo := s1.belfry.cadFifo ++ [w] } })

/-! ### Taking a word (R208, R273, R280, R335) -/

/-- R247: the effect of the PHASE. -/
def phaseEffect (s : State) (p : Nat) (phase : Byte) : State :=
  match phase.toNat with
  | 0xF0 => ckptOpen s p
  | 0xF1 => ckptWritten s p
  | 0xF2 => ckptRead s p
  | 0xF3 => restoreBegin s p
  | 0xF4 => restoreEnd s p
  | _ => s

/-- R208: an envelope has learned once STEP has advanced by LEARN_STEPS. -/
def latchEnv (step : W32) (e : Envelope) : Envelope := { e with learned := e.learned || learnOver step e.learnFrom e.steps }

/-- R335: the Belfry takes a word: position, epoch, job start, protocol. The first word's epoch is current whatever it is. -/
def takeWord (s : State) (w : CadW) : State :=
  let p := cPart w
  let q := getPart s p
  let adv := !q.job || laterThan (cEpoch w) q.epoch
  let s1 := updPart s p fun q => { q with
    pos := cPos w, envs := q.envs.map (latchEnv (cStep w)), epoch := if adv then cEpoch w else q.epoch, epochTick := if adv then s.time.tick else q.epochTick }
  let s2 := if adv ∧ q.job then closeLagging s1 p (cEpoch w) else s1
  let s3 := if !q.job ∨ (cPhase w).toNat = 0xF5 then jobStart s2 p else s2
  let s4 := phaseEffect s3 p (cPhase w)
  { s4 with hang := { s4.hang with back := true } }

/-! ### Inputs in sampled order (R337 to R340) -/

/-- What a Belfry tick samples: an input, a Cadence word, a timer firing for a partition, a privileged command, a label set. -/
inductive Item where
  | input (carried : Bool) (i : Input)
  | word (carried : Bool) (w : CadW)
  | timer (carried : Bool) (ix p : Nat)
  | cmd (carried : Bool) (c : CmdIn)
  | label (carried : Bool) (v : W64)
  deriving DecidableEq, Repr

/-- The sort key: class, carried first, Spire with none last, source kind. -/
def itemKey : Item → Nat × Nat × Nat × Nat
  | .input c i => (i.cls, 1 - b2n c, if i.spire = 0xFFFF then 65536 else i.spire, i.kind)
  | .word c _ => (7, 1 - b2n c, 65536, 10)
  | .timer c _ _ => (8, 1 - b2n c, 65536, 11)
  | .cmd c x => (9, 1 - b2n c, if cmdOp x.word = cmdShutdown then 65536 else cmdSpire x.word, 12)
  | .label c _ => (9, 1 - b2n c, 65536, 12)

def keyLe (a b : Nat × Nat × Nat × Nat) : Bool :=
  decide (a.1 < b.1) || (a.1 == b.1 && (decide (a.2.1 < b.2.1) || (a.2.1 == b.2.1 &&
    (decide (a.2.2.1 < b.2.2.1) || (a.2.2.1 == b.2.2.1 && decide (a.2.2.2 ≤ b.2.2.2))))))

/-- R337: sampled order; the sort is stable, so arrival decides last. -/
def sampled (l : List Item) : List Item := l.insertionSort fun a b => keyLe (itemKey a) (itemKey b) = true

/-- R340: what a tick resolves, 64 of classes 0 to 4 and 256 in all, and what it carries. -/
def withinLimits (l : List Item) : List Item × List Item :=
  let f := fun (acc : List Item × List Item × Nat × Nat) (x : Item) =>
    let low := decide ((itemKey x).1 ≤ 4)
    if acc.2.2.2 ≥ 256 || (low && decide (acc.2.2.1 ≥ 64)) then (acc.1, acc.2.1 ++ [x], acc.2.2)
    else (acc.1 ++ [x], acc.2.1, acc.2.2.1 + b2n low, acc.2.2.2 + 1)
  let r := l.foldl f ([], [], 0, 0)
  (r.1, r.2.1)

/-- R85: the first word of each partition. -/
def firstWords (l : List CadW) : List CadW :=
  l.foldl (fun acc w => if acc.any fun x => cPart x == cPart w then acc else acc ++ [w]) []

/-! ### Timers (R345, R354) -/

/-- R345: a TIMER peal is due at Belfry tick `n`. -/
def timerDue (p : Peal) (n : Nat) : Bool :=
  plKind p == kTimer && n % (plPeriod p * plUnitTicks p) == plOffset p * plUnitTicks p

/-- The partitions that a firing acts for. -/
def firingParts (p : Peal) : List Nat := if plAllp p then List.range Config.parts else [plPart p]

def allPeals (s : State) : List (Nat × Peal) := ((s.image.map (·.peals)).getD []).zipIdx.map fun x => (x.2, x.1)

/-- R344, R511: a peal may fire. -/
def pealLive (s : State) (ix : Nat) : Bool := !s.belfry.disarmed.contains ix && (decide (ix ≤ 15) || !inSafe s uBlf)

/-- The firings due at Belfry tick `n`. -/
def timersAt (s : State) (n : Nat) : List (Nat × Nat) :=
  ((allPeals s).filter fun x => timerDue x.2 n && pealLive s x.1).flatMap fun x => (firingParts x.2).map fun p => (x.1, p)

/-! ### Conditions and targets (R347 to R349) -/

/-- R348: a tile flag. -/
def tileFlag (s : State) (c sp : Nat) : Bool :=
  match getTile s sp with
  | none => false
  | some t =>
    match c with
    | 1 => watchExit s sp
    | 2 => ((getSp s sp).map (·.lv.idle)).getD false
    | 3 => t.run.isSome
    | _ => t.state == stWatch && decide (s.time.tick.toNat - t.lastSlice.toNat ≥ ((recov s).map (·.watchTest)).getD 500000000)

/-- R348: a partition or die flag. -/
def wideFlag (s : State) (c p : Nat) : Bool :=
  match c with
  | 0x10 => (getPart s p).window.isSome
  | 0x11 => (getPart s p).rb.isSome
  | 0x12 => (getPart s p).gens.length == 2
  | 0x20 => s.thermal.level != 0
  | 0x21 => s.time.holdover
  | 0x22 => decide (4 * (freeEngines s).length < licEng s)
  | 0x23 => s.samples.any fun x => x.slot.isNone
  | 0x24 => (List.range banPorts).all fun q => !mandatory s q || (getPort s q).up
  | _ => true

/-- R348: the condition of a peal for a partition and a tile, if there is one. -/
def condOk (s : State) (p : Peal) (part : Nat) (sp : Option Nat) : Bool :=
  let c := plCond p
  let f := if 1 ≤ c ∧ c ≤ 4 then (sp.map (tileFlag s c)).getD false else wideFlag s c part
  f != plNeg p

/-- The tile of an input. -/
def inputTile (i : Option Input) : Option Nat := i.bind fun i => if i.spire = 0xFFFF then none else some i.spire

/-- R349: the tiles that TGT_MODE chooses, within the partition. -/
def targets (s : State) (p : Peal) (part : Nat) (i : Option Input) : List Nat :=
  let mine := (s.tiles.filter fun t => t.part == part).map (·.ix)
  match plTgt p with
  | 0 => mine.filter fun x => inputTile i == some x
  | 1 => mine.filter fun x => x == plIdx p
  | 2 => mine.filter fun x => x / 256 == plIdx p
  | 3 => mine
  | _ =>
    let set := (s.image.bind fun im => im.tileSets[plIdx p]?).getD []
    mine.filter fun x => set.any fun r => decide (r.1 ≤ x) && decide (x ≤ r.2)

/-! ### Actions -/

/-- Action codes beside R349's: what a privileged command or a label set does. -/
def acTest : Nat := 0x20
def acRelease : Nat := 0x21
def acShutdown : Nat := 0x22
def acRepairClear : Nat := 0x23
def acLabel : Nat := 0x24

/-- One action of a Belfry tick: its place, class, peal (0xFFFF for a command), code, parameter, partition, tile, TSTATE cause, the
input and the command it came from, and the firing it belongs to. -/
structure Act where
  seq : Nat
  cls : Nat
  peal : Nat
  code : Nat
  param : Nat
  part : Nat
  tile : Option Nat
  tc : Nat
  input : Option Input
  cmd : Option CmdIn
  label : W64
  tick : W64
  deriving DecidableEq, Repr

/-- R229: the TSTATE cause of a peal's action. -/
def causeOf (i : Option Input) : Nat :=
  match (i.map (·.code)).getD 0 with
  | 0x11 => tcRouter
  | 0x12 => tcFence
  | 0x13 => tcSpire
  | 0x14 => tcTap
  | _ => tcPeal

/-- The actions of one firing of a peal. -/
def pealActs (s : State) (cls ix : Nat) (p : Peal) (part : Nat) (i : Option Input) : List Act :=
  let mk := fun sp : Option Nat =>
    ({ seq := 0, cls := cls, peal := ix, code := plAct p, param := plParam p, part := part, tile := sp, tc := causeOf i, input := i,
       cmd := none, label := 0, tick := (i.map (·.tick)).getD s.time.tick } : Act)
  if tileAct (plAct p) then ((targets s p part i).filter fun x => condOk s p part (some x)).map fun x => mk (some x)
  else if condOk s p part (inputTile i) then [mk none] else []

/-! ### Counting peals (R351) -/

/-- The key of an input's count. -/
def countKey (i : Input) : Nat := if i.spire = 0xFFFF then 65536 + i.part else i.spire

/-- R351: the count of a key is no longer held; it gives back its line of the Cistern. -/
def dropCount (s : State) (ix key : Nat) : State :=
  match s.belfry.counts.find? fun c => c.1 == ix && c.2.1 == key with
  | none => s
  | some c => subUse { s with belfry := { s.belfry with counts := s.belfry.counts.erase c } } 0 1

/-- R351, R386: a count is held in a line of the reserve of partition 0; one that finds no room is refused, and counted (DESIGN CHOICE, log 98). -/
def holdCount (s : State) (ix key k : Nat) (opened : W64) : State :=
  if reserveOk s then addUse { s with belfry := { s.belfry with counts := s.belfry.counts ++ [(ix, key, k, opened)] } } 0 1
  else refuseQuota s 0

/-- R351: one more match of a counting peal: whether it fires, and the state. -/
def countHit (n ix key trigN : Nat) (s : State) : Bool × State :=
  match s.belfry.counts.find? fun c => c.1 == ix && c.2.1 == key with
  | none => (false, holdCount s ix key 1 (BitVec.ofNat 64 n))
  | some c =>
    let s1 := dropCount s ix key
    if c.2.2.1 + 1 ≥ trigN then (true, s1) else (false, holdCount s1 ix key (c.2.2.1 + 1) c.2.2.2)

/-- R351: the windows that close by Belfry tick `n`. -/
def closeWindows (s : State) (n : Nat) : State :=
  (s.belfry.counts.filter fun c => decide (c.2.2.2.toNat + 2 ^ plWinx (pealAt s c.1) ≤ n)).foldl (fun s c => dropCount s c.1 c.2.1) s

/-- A firing of a counting peal: its peal, its key, the tick its window opened, its actions. -/
structure CountFire where
  ix : Nat
  key : Nat
  opened : W64
  acts : List Act
  deriving DecidableEq, Repr

/-! ### Matching (R346, R347) -/

/-- R347: a REACT peal matches an input, but for its condition and its count. -/
def reactMatch (s : State) (i : Input) (p : Peal) : Bool :=
  plKind p == kReact && plTrig p == i.code && (plAllp p || plPart p == i.part) && (plCause p == 0xFF || plCause p == i.cause)
    && decide (plRLo p ≤ i.layer.toNat) && decide (i.layer.toNat ≤ plRHi p)
    && (plMask p == 0 || i.spire == 0xFFFF || plMask p / 2 ^ stateOf s i.spire % 2 == 1)

/-- R346. -/
def cadMatch (w : CadW) (p : Peal) : Bool :=
  plKind p == kCadence && (plAllp p || plPart p == cPart w) && Nat.land (cPhase w).toNat (plPhMsk p) == plPhVal p
    && decide (plCLo p ≤ (cLayer w).toNat) && decide ((cLayer w).toNat ≤ plCHi p)
    && (plMod p == 0 || (cStep w).toNat % plMod p == plRes p)

/-- What matching has gathered: the state, whose counts and disarmed peals change, the actions, the counting peals fired. -/
structure Matched where
  st : State
  acts : List Act
  fires : List CountFire

/-- R344 ONCE: after its first firing the peal is disarmed. -/
def onceFired (ix : Nat) (p : Peal) (s : State) : State :=
  if plOnce p then { s with belfry := { s.belfry with disarmed := s.belfry.disarmed ++ [ix] } } else s

/-- Numbers the actions of a firing after those gathered. -/
def numbered (k : Nat) (l : List Act) : List Act := l.zipIdx.map fun x => { x.1 with seq := k + x.2 }

/-- A peal has matched: its count decides whether it fires. A tile action with no tile left by the condition is no match. -/
def fireAt (n cls part : Nat) (i : Option Input) (m : Matched) (x : Nat × Peal) : Matched :=
  if !pealLive m.st x.1 then m
  else
    let acts := numbered m.acts.length (pealActs m.st cls x.1 x.2 part i)
    if acts.isEmpty then m
    else if counting x.2 then
      let key := (i.map countKey).getD 0
      let opened := ((m.st.belfry.counts.find? fun c => c.1 == x.1 && c.2.1 == key).map (·.2.2.2)).getD 0
      let h := countHit n x.1 key (plN x.2) m.st
      if h.1 then ⟨onceFired x.1 x.2 h.2, m.acts ++ acts, m.fires ++ [⟨x.1, key, opened, acts⟩]⟩ else { m with st := h.2 }
    else ⟨onceFired x.1 x.2 m.st, m.acts ++ acts, m.fires⟩

/-- R511: with the Belfry in its safe state every input of classes 1 to 4 fences its tile. -/
def safeActs (s : State) (i : Input) : List Act :=
  if inSafe s uBlf ∧ 1 ≤ i.cls ∧ i.cls ≤ 4 then
    match inputTile (some i) with
    | some sp => [⟨0, i.cls, 0xFFFF, 7, 0, i.part, some sp, tcBlfSafe, some i, none, 0, i.tick⟩]
    | none => []
  else []

/-- The actions of a command or a label set. -/
def commandActs (s : State) (c : CmdIn) : List Act :=
  let sp := cmdSpire c.word
  let mk := fun code tile => [⟨0, 9, 0xFFFF, code, 0, partOfSp s sp, tile, 0, none, some c, 0, s.time.tick⟩]
  match cmdOp c.word with
  | 1 => mk acTest (some sp)
  | 2 => mk acRelease (some sp)
  | 3 => mk acShutdown none
  | _ => mk acRepairClear none

/-- The actions of one item, in the order of R337. -/
def itemActs (n : Nat) (m : Matched) : Item → Matched
  | .input _ i =>
    let m1 := { m with acts := m.acts ++ numbered m.acts.length (safeActs m.st i) }
    ((allPeals m.st).filter fun x => reactMatch m.st i x.2).foldl (fireAt n i.cls i.part (some i)) m1
  | .word _ w => ((allPeals m.st).filter fun x => cadMatch w x.2).foldl (fireAt n 7 (cPart w) none) m
  | .timer _ ix p => { m with acts := m.acts ++ numbered m.acts.length (pealActs m.st 8 ix (pealAt m.st ix) p none) }
  | .cmd _ c => { m with acts := m.acts ++ numbered m.acts.length (commandActs m.st c) }
  | .label _ v => { m with acts := m.acts ++ numbered m.acts.length [⟨0, 9, 0xFFFF, acLabel, 0, 0, none, 0, none, none, v, m.st.time.tick⟩] }

/-! ### Cancellation (R234, R341 to R343) -/

/-- The severity of the state that a tile-state action names. -/
def stateSev (code : Nat) : Option Nat :=
  match code with
  | 5 => some 1
  | 6 => some 0
  | 7 => some 2
  | 8 => some 4
  | 0x21 => some 1
  | _ => none

inductive Fate where
  | stands | merged | cancelled
  deriving DecidableEq, Repr

/-- R341: what becomes of a tile action among the actions on its tile. A command never merges into another, since each has its own result (R239,
R241): the later one is carried out and refused. -/
def fateOn (mine : List Act) (a : Act) : Fate :=
  let c := (mine.map (·.cls)).foldl min 15
  if a.cls ≠ c then .cancelled
  else
    let peers := mine.filter fun b => b.cls == c
    match stateSev a.code with
    | some v =>
      let top := (peers.filterMap fun b => stateSev b.code).foldl max 0
      if v < top then .cancelled
      else if (peers.find? fun b => stateSev b.code == some top).map (·.seq) = some a.seq then .stands
      else if ((peers.find? fun b => stateSev b.code == some top).map (·.code)) = some a.code then (if a.cmd.isSome then .stands else .merged)
      else .cancelled
    | none => if (peers.find? fun b => b.code == a.code).map (·.seq) = some a.seq ∨ a.cmd.isSome then .stands else .merged

/-- R342: identical actions that have no tile. -/
def sameAct (a b : Act) : Bool :=
  a.code == b.code && a.part == b.part && a.param == b.param && a.cmd == b.cmd && a.label == b.label &&
    (if a.code == 3 then (a.input.map fun i => (i.code, i.uid, i.row)) == (b.input.map fun i => (i.code, i.uid, i.row))
     else if a.code == 0 || a.code == 0x13 then a.peal == b.peal && a.input == b.input
     else a.code != acLabel)

/-- What becomes of an action. -/
def fate (acts : List Act) (a : Act) : Fate :=
  match a.tile with
  | some t => fateOn (acts.filter fun b => b.tile == some t) a
  | none => if (acts.find? fun b => b.tile.isNone && sameAct b a).map (·.seq) = some a.seq ∨ a.code = acLabel then .stands else .merged

/-- The action code of a BLFX record; a command's is that of the action it does (log 31). -/
def blfxCode (c : Nat) : Nat := if c = acTest then 4 else if c = acRelease then 5 else c

/-- R341: a cancellation: its record, its count, and the refusal of a command (R241). -/
def cancel (acts : List Act) (s : State) (a : Act) : State :=
  match a.tile with
  | none => s
  | some t =>
    let mine := acts.filter fun b => b.tile == some t
    let first := mine.find? fun b => fateOn mine b == .stands
    let stood := (first.map (·.cls)).getD 0
    let s1 := addRec { s with belfry := { s.belfry with cancelCnt := satInc s.belfry.cancelCnt } }
      ⟨.blfx, s.time.tick, t, a.part, w3of t a.part 0,
        [packW [(0, a.peal), (16, blfxCode a.code)], packW [(0, a.cls), (4, stood)],
          BitVec.ofNat 32 ((first.map (·.peal)).getD 0xFFFF), 0]⟩
    match a.cmd with
    | some c => cmdFinish s1 c.inst crRefused ccCancelled
    | none => s1

/-- R351: when all tile actions of a firing are cancelled its count returns to TRIG_N − 1 in the same window. Matches of the key that came after it in
this tick would have fired again, to be cancelled with it, so the count is TRIG_N − 1 whatever they opened. -/
def uncount (acts : List Act) (s : State) (f : CountFire) : State :=
  if f.acts.all fun a => a.tile.isSome && fate acts a == .cancelled then
    holdCount (dropCount s f.ix f.key) f.ix f.key (plN (pealAt s f.ix) - 1) f.opened
  else s

/-! ### Carrying out actions (R349) -/

/-- R23: a PEALM record: the peal, the input's code, cause, layer and operator, and the parameter (log 9). -/
def pealm (s : State) (a : Act) : State :=
  let sp := (inputTile a.input).getD 0xFFFF
  addRec s ⟨.pealm, s.time.tick, sp, a.part, w3of sp a.part 0,
    [BitVec.ofNat 32 a.peal, BitVec.ofNat 32 ((a.input.map (·.code)).getD 0), BitVec.ofNat 32 ((a.input.map (·.cause)).getD 0),
      BitVec.ofNat 32 ((a.input.map (·.layer.toNat)).getD 0xFFFF),
      BitVec.ofNat 32 (((a.input.bind fun i => getOp s i.uid).map fun o => (dOper o.dsc).toNat).getD 0xFFFF), BitVec.ofNat 32 a.param]⟩

/-- R165, R350: SAMPLE_RATE. Only a HEALTHY tile takes the rate at once. -/
def setRate (r : Nat) (sp : Spire) : Spire :=
  { sp with smp := { sp.smp with stored := r, rate := if sp.tstate = stHealthy then r else sp.smp.rate } }

/-- R217, R220: CONFIRM for a SUSPECT takes a rerun ticket and posts RERUN_REQ. -/
def takeTicket (s : State) (uid : Nat) : State :=
  onOp s uid fun o =>
    if o.state = .final ∨ o.res.isSome ∨ o.ticket.isSome ∨ o.rerunOf.isSome ∨ o.late ∨ o.varies ∨ !opSuspect o then s
    else match (List.range 256).find? fun k => !(s.tickets.any fun t => t.num == k) with
      | none => standSuspect s uid 7
      | some k =>
        let d := o.dsc
        let s1 := updOp { s with tickets := s.tickets ++ [⟨k, uid⟩] } uid fun o => { o with ticket := some k, resolveTick := s.time.tick }
        post (addMeter s1 o.part mRerun 1) o.part .rerunReq o.spire
          ([(dStag d).toNat, (dEpoch d).toNat, (dLayer d).toNat, (dOper d).toNat, (dTensor d).toNat, k].map (BitVec.ofNat 32))

/-- R192, R217: CONFIRM, for every mismatching sample of the operation. -/
def confirm (s : State) (i : Input) : State :=
  if i.code = 0x42 then { s with samples := s.samples.map fun x =>
    if x.uid = i.uid ∧ x.state = .confirming then { x with confirmWanted := true } else x }
  else takeTicket s i.uid

/-- R470: TRACE. -/
def setTrace (s : State) (sp : Nat) (on : Bool) : State :=
  let deep := (s.spires.filter fun p => p.trc.deep && p.ix != sp).length
  if on && (!licDtrace s || decide (deep ≥ 64)) then { s with trc := { s.trc with deepref := satInc s.trc.deepref } }
  else updSp s sp fun p => { p with trc := { p.trc with deep := on } }

/-- R258: the cause code of a ROLLBACK. -/
def rollbackCause (i : Option Input) : Nat :=
  match i with
  | none => 8
  | some i =>
    if i.code = 0x30 then 1
    else if 0x40 ≤ i.code ∧ i.code ≤ 0x45 then 2
    else if i.code = 0x47 then 6
    else if i.code = 0x46 then 7
    else 8

/-- R258, R264, R306: what a ROLLBACK action rests on. -/
def causeRb (a : Act) : RbCause :=
  ⟨rollbackCause a.input, (a.input.map (·.ctick)).getD a.tick, a.tick, (a.input.map (·.code)) == some 0x47, (inputTile a.input).getD 0xFFFF⟩

/-- R511: whether an action is carried out in the safe states of PART and BLF. -/
def allowed (s : State) (a : Act) : Bool :=
  (!inSafe s uPart || a.code == 7 || a.code == 8) && !(inSafe s uBlf && a.code == 0x0B)

/-- A tile action. -/
def runTile (s : State) (a : Act) (sp : Nat) : State :=
  let code := (a.input.map (·.code)).getD 0
  let uid := (a.input.map (·.uid)).getD 0
  match a.code with
  | 1 => updSp s sp (setRate (a.param % 32))
  | 2 => updSp s sp fun p => { p with smp := { p.smp with force := a.param % 256 } }
  | 4 => requestSlices s sp (a.param % 256)
  | 5 => actWatch s sp a.peal a.cls a.tick code uid
  | 6 => actUnwatch s sp a.peal a.cls a.param a.tick uid code
  | 7 => actFence s sp a.tc a.peal a.cls a.tick
  | 8 => actDead s sp a.tc a.peal a.cls a.tick
  | 9 => setTrace s sp (a.param % 2 == 1)
  | _ =>
    match a.cmd with
    | some c =>
      if cmdClosed s then cmdFinish s c.inst crRefused ccNotReady
      else if a.code = acTest then runTest s c.inst c.word else runRelease s c.inst c.word
    | none => s

/-- R349, R533: an action without a tile. -/
def runWide (s : State) (a : Act) : State :=
  match a.code with
  | 0x00 => pealm s a
  | 0x03 => match a.input with
    | some i => confirm s i
    | none => s
  | 0x0A =>
    let epoch := (a.input.bind fun i => getOp s i.uid).map fun o => dEpoch o.dsc
    rollback s a.part (causeRb a) epoch 0 0
  | 0x0B => sealCheck s a.part
  | 0x0C => restoreCheck s a.part
  | 0x0D => digestExport s a.part (a.param % 16)
  | 0x0E => hangPath s (a.param % 2 == 1) ((a.input.map (·.code)).getD 0) ((a.input.map (·.ctick)).getD a.tick) a.tick
  | 0x0F => startLaunch s
  | 0x10 => updCis s fun c => { c with scrubQ := c.scrubQ ++ [a.param] }
  | 0x11 => ergFold s
  | 0x12 => driveLevel { s with thermal := { s.thermal with plevel := a.param % 4 } }
  | 0x13 => alert (pealm s a) alPeal
  | _ =>
    match a.cmd with
    | some c =>
      if cmdClosed s then cmdFinish s c.inst crRefused ccNotReady
      else if a.code = acShutdown then runShutdown s c.inst c.word c.budget else runRepairClear s c.inst c.word
    | none => if a.code = acLabel then setLabel s a.label else s

def runAct (s : State) (a : Act) : State :=
  if !allowed s a then s
  else match a.tile with
    | some sp => runTile s a sp
    | none => runWide s a

/-- R370: the frames that a Belfry tick issues, by whatever part of its work, go out in ascending LOCAL order in each field. -/
def orderFrames (before : Nat) (s : State) : State :=
  let f := s.caravan.frames
  { s with caravan := { s.caravan with frames := f.take before ++ (f.drop before).insertionSort fun a b => a.1 ≤ b.1 } }

/-- R341, R342: cancellations, then the standing actions in order. -/
def resolve (m : Matched) : State :=
  let cut := m.acts.filter fun a => fate m.acts a == .cancelled
  let s1 := cut.foldl (cancel m.acts) m.st
  let s2 := m.fires.foldl (uncount m.acts) s1
  (m.acts.filter fun a => fate m.acts a == .stands).foldl runAct s2

/-! ### The Belfry tick (R337) -/

/-- R226: the events that restart a tile's WATCH exit conditions. -/
def inputConcern (s : State) : Item → State
  | .input _ i =>
    if i.spire = 0xFFFF then s
    else if i.code = 0x92 then concern s i.spire false
    else if i.code = 0x30 ∨ (0x40 ≤ i.code ∧ i.code ≤ 0x43) ∨ i.code = 0x45 ∨ (0x50 ≤ i.code ∧ i.code ≤ 0x54)
      then concern s i.spire true
    else s
  | _ => s

/-- What a tick has before it: carried and new inputs, words, timer firings, commands, label sets. -/
def itemsAt (s : State) (n : Nat) : List Item :=
  let b := s.belfry
  let due := (b.timersNow ++ timersAt s n).eraseDups
  b.carriedIn.map (.input true) ++ b.inputs.map (.input false) ++ (firstWords b.cadFifo).map (fun w => .word (b.cadCarry.contains (cPart w)) w)
    ++ (b.timers.filter fun t => !inSafe s uBlf || decide (t.1 ≤ 15)).map (fun t => .timer true t.1 t.2) ++ due.map (fun t => .timer false t.1 t.2)
    ++ (if inSafe s uPart then [] else b.cmds.zipIdx.map fun c => .cmd (decide (c.2 < b.cmdCarry)) c.1)
    ++ b.wcSets.zipIdx.map fun v => .label (decide (v.2 < b.wcCarry)) v.1

/-- The items of one kind among a list. -/
def carriedInputs (l : List Item) : List Input := l.filterMap fun x => match x with
  | .input _ i => some i
  | _ => none
def carriedTimers (l : List Item) : List (Nat × Nat) := l.filterMap fun x => match x with
  | .timer _ ix p => some (ix, p)
  | _ => none
def carriedCmds (l : List Item) : List CmdIn := l.filterMap fun x => match x with
  | .cmd _ c => some c
  | _ => none
def carriedLabels (l : List Item) : List W64 := l.filterMap fun x => match x with
  | .label _ v => some v
  | _ => none
def takenWords (l : List Item) : List CadW := l.filterMap fun x => match x with
  | .word _ w => some w
  | _ => none

/-- The ONCE timers that fire at this tick are disarmed. -/
def disarmTimers (l : List Item) (s : State) : State :=
  ((carriedTimers l).map (·.1)).eraseDups.foldl (fun s ix => onceFired ix (pealAt s ix) s) s

/-- R337 to R343: the Belfry samples and resolves. -/
def sampleTick (s : State) (n : Nat) : State :=
  let r := withinLimits (sampled (itemsAt s n))
  let b := s.belfry
  let held := inSafe s uPart
  let cmds := if held then b.cmds else carriedCmds r.2
  let before := b.carriedIn.length + b.timers.length + b.cadCarry.length + b.wcCarry + if held then 0 else b.cmdCarry
  let s1 := { s with belfry := { s.belfry with
    inputs := [], carriedIn := carriedInputs r.2, timers := carriedTimers r.2, timersNow := [], cmds := cmds
    cmdCarry := if held then b.cmdCarry else cmds.length, wcSets := carriedLabels r.2, wcCarry := (carriedLabels r.2).length
    cadCarry := (takenWords r.2).map cPart, cadFifo := (takenWords r.1).foldl (fun l w => l.erase w) s.belfry.cadFifo
    carried := before != 0, carryCnt := satAdd s.belfry.carryCnt r.2.length
    lastInputs := BitVec.ofNat 8 (min 255 (r.1.length + r.2.length)) } }
  let s2 := (takenWords r.1).foldl takeWord s1
  let s3 := disarmTimers r.1 (r.1.foldl inputConcern (closeWindows s2 n))
  resolve (r.1.foldl (itemActs n) ⟨s3, [], []⟩)

/-! ### What else happens at a Belfry tick -/

/-- R189: queued samples whose replay timeout has passed. -/
def queueDeadlines (s : State) : State :=
  let limit := ((recov s).map (·.replayTimeout)).getD 100000000
  (s.samples.filter fun x => x.slot.isNone && decide (s.time.tick.toNat - x.noticeTick.toNat ≥ limit)).foldl
    (fun s x => endSample s x.uid x.row rIncon 0x04) s

/-- R486: one fenced tile-Belfry-tick per FENCED tile. -/
def fencedMeter (s : State) : State :=
  (s.tiles.filter fun t => t.state == stFenced).foldl (fun s t => addMeter s t.part mFenced 1) s

/-- R525, R363: the conditions that last set their bits again. -/
def lastingAlerts (s : State) : State :=
  let on := fun (b : Bool) (k : Nat) (s : State) => if b then alert s k else s
  on s.time.holdover alTime (on (s.keep.lostNow.contains .nclk) alMemport (on (!s.keep.unitHeld.isEmpty) alCfgpar
    (on (s.boot.ready && (List.range banPorts).any fun q => mandatory s q && !(getPort s q).up) alBanen
      (on (s.domes.any fun d => !d.down.isEmpty || (s.boot.seams && !(d.groupsUp ++ d.groupsDn).all id)) alCaravan s))))

/-- R252, R261: attempts and restores that wait are evaluated. -/
def sealRetry (s : State) (p : Nat) : State :=
  let s1 := if inSafe s uBlf then s else sealCheck s p
  if ((getPart s1 p).rb.map (·.ended.isSome)).getD false then restoreCheck s1 p else s1

/-- R460: engines busy in this tick. -/
def busyEngines (s : State) : State :=
  addBig s 0x02F3 0 (s.engines.filter fun g => match g.state with
    | .held _ _ => true
    | _ => false).length

/-- R460, R528: at a Belfry tick the TCLK cycles of each Spire are counted, and an inject slot still open is over (log 111). -/
def spireTick (s : State) : State :=
  let s1 := (s.spires.map (·.ix)).foldl countCycles s
  { s1 with spires := s1.spires.map fun p => { p with injSlot := none } }

/-- R180, R438, R441: what a tick does after the actions and before the seals and restores that wait are evaluated. -/
def beforeSeals (s : State) : State := repairTick (sliceTick (poolTick (queueDeadlines s)))

/-- R180, R291, R438, R441 and the rest of a tick's work, after the actions. -/
def tickWork (s : State) : State :=
  let s3 := (List.range Config.parts).foldl sealRetry (beforeSeals s)
  let s4 := (List.range Config.parts).foldl (fun s p => attStep (closeDueKeys s p) p) s3
  fencedMeter (busyEngines (compareTick s4))

/-- R317: the next Belfry tick. -/
def nextBelfry (s : State) : Nat :=
  let t := s.time.tick.toNat
  if t % 256 = 0 ∧ s.belfry.tick.toNat < t / 256 then t / 256 else t / 256 + 1

/-- R354: the firings of Belfry tick `n`, which fall in a stop of the Belfry, are missed. Before step 5 the Belfry has not begun to step (R422). -/
def missTimers (s : State) (n : Nat) : State :=
  let due := if s.boot.step ≥ 5 then (s.belfry.timersNow ++ timersAt s n).eraseDups.length else 0
  { s with belfry := { s.belfry with missCnt := satAdd s.belfry.missCnt due, timersNow := [] } }

/-- R317, R487: the time goes on to the next Belfry tick; a period that has ended closes first. -/
def atTick (s : State) : State :=
  let n := nextBelfry s
  let s1 := if periodDue s (256 * n) then closePeriod s .boundary else s
  { s1 with time := { s1.time with tick := BitVec.ofNat 64 (256 * n) }, belfry := { s1.belfry with tick := BitVec.ofNat 64 n } }

/-- What ends a Belfry tick, whether the Belfry steps or not. -/
def endTick (s : State) : State := portIssue (portIssue (lastingAlerts (spireTick s)) false) true

/-- R317, R337, R467, R487: the time goes on to the next Belfry tick, and a Belfry that steps samples and resolves there. -/
def execBelfryTick (s : State) : Host.Outcome State Fault Refusal :=
  .next (if !s.time.run then s
    else
      let u := atTick s
      endTick (if u.belfry.run then orderFrames u.caravan.frames.length (tickWork (sampleTick u (nextBelfry s))) else missTimers u (nextBelfry s)))

/-- R345, R354: a TIMER peal due at the next Belfry tick waits for it; a stopped Belfry misses it there. -/
def execTimerPeal (ix : Nat) (s : State) : Host.Outcome State Fault Refusal :=
  let p := pealAt s ix
  .next (if !s.time.run ∨ !timerDue p (nextBelfry s) ∨ !pealLive s ix then s
    else
      let new := ((firingParts p).map fun q => (ix, q)).filter fun t => !s.belfry.timersNow.contains t
      { s with belfry := { s.belfry with timersNow := s.belfry.timersNow ++ new } })

/-- R351: a window closes. -/
def execCountWindowClose (ix key : Nat) (s : State) : Host.Outcome State Fault Refusal :=
  .next (dropCount s ix key)

/-- R351: the count of a key, one short of TRIG_N, reaches it: the peal fires for that key's tile or partition. -/
def execCountingPealFire (ix key : Nat) (s : State) : Host.Outcome State Fault Refusal :=
  let p := pealAt s ix
  .next (match s.belfry.counts.find? fun c => c.1 == ix && c.2.1 == key with
    | some c =>
      if !s.belfry.run ∨ c.2.2.1 + 1 < plN p ∨ !counting p ∨ !pealLive s ix then s
      else
        let sp := if key < 65536 then key else 0xFFFF
        let part := if key < 65536 then partOfSp s key else key - 65536
        let i := mkInput s (plTrig p) part sp 0xFFFF (plCause p) false 0 0
        let acts := numbered 0 (pealActs s i.cls ix p part (some i))
        if acts.isEmpty then s
        else
          let s1 := onceFired ix p (dropCount s ix key)
          orderFrames s1.caravan.frames.length (resolve ⟨s1, acts, []⟩)
    | none => s)

end Sys2Proof.Machine
end

