-- ==== Sys2Proof/Machine/Flags.lean ====
section
/-! DEFINITION. The block's status words: the read value of every status register that other state determines (R199, R229, R301, R355,
R389, R402, R424, R426, R457, R493, R509, R522 to R535). -/

namespace Sys2Proof.Machine

/-- An n-bit two's complement field. -/
def intFld (n : Nat) (x : Int) : Nat := (BitVec.ofInt n x).toNat

/-! ### Pads (R391, R392, R407, R451) -/

/-- R525: ALERT_N is asserted. -/
def alertN (s : State) : Bool := s.keep.alert != 0

/-- R391: the output pads. -/
inductive Pad where
  | xspiClk | xspiCsN | xspiDq (i : Nat) | mgmtScl | mgmtSda | alertN | faultN | thermtripN | throttleN (i : Nat) | launchOut | tdo
  deriving DecidableEq, Repr

/-- What the block does to a pad: released; driven to a level (an open-drain pad only low); in the hands of the NVM's or the board's bus; driven by
a cell of the boundary register. -/
inductive PadDrive where
  | released
  | level (high : Bool)
  | bus
  | boundary (high : Bool)
  deriving DecidableEq, Repr

/-- The number of a pad for the boundary register. -/
def padNo : Pad → Nat
  | .xspiClk => 0 | .xspiCsN => 1 | .xspiDq i => 2 + i | .mgmtScl => 10 | .mgmtSda => 11 | .alertN => 12 | .faultN => 13 | .throttleN i => 14 + i
  | .launchOut => 16 | .thermtripN => 17 | .tdo => 18

/-- An open-drain output pulls low while it is asserted. -/
def pullLow (asserted : Bool) : PadDrive := if asserted then .level false else .released

/-- R391: the pads that report are driven from the end of the fuse read; a failure of bring-up drives them too (R424). The bus
answers a command before then (R503, log 100). -/
def reports (s : State) : Bool := s.boot.readOk || s.boot.step == 7

/-- R391, R392, R407, R451: a pad outside cold reset. TDO is driven in Shift-IR and Shift-DR alone, which no command ends in. -/
def padServes (s : State) : Pad → PadDrive
  | .xspiClk | .xspiCsN | .xspiDq _ => if s.pads.xspi then .bus else .released
  | .mgmtScl | .mgmtSda => if reports s then .bus else .released
  | .alertN => pullLow (reports s && alertN s)
  | .faultN => pullLow (reports s && s.keep.fault)
  | .thermtripN => pullLow s.pads.thermtrip
  | .throttleN i => if reports s then .level (s.thermal.level / 2 ^ i % 2 == 0) else .released
  | .launchOut => if s.boot.firmware then .level s.pads.launchOut else .released
  | .tdo => .released

/-- R391, R395: every output pad is released in cold reset and without power, but for THERMTRIP_N and for the pads that the boundary register
drives in EXTEST and CLAMP. -/
def padDrive (s : State) (p : Pad) : PadDrive :=
  if p = .thermtripN then pullLow s.pads.thermtrip
  else if s.pads.driven ∧ p ≠ .tdo then .boundary (s.pads.boundary.getLsbD (Config.boundaryCell (padNo p)))
  else if s.pads.coldReset ∨ !s.pads.pwrGood then .released
  else padServes s p

/-! ### On-die outputs (R90, R398) -/

/-- R90: the block's on-die outputs toward the host. -/
inductive DieOut where
  | fenceCompute (sp : Nat) | fenceTap (sp : Nat) | transitOnly (sp : Nat) | ttDscAck (sp : Nat) | ttInjValid (sp : Nat) | ttInjNack (sp : Nat)
  | ttRstReq (sp : Nat) | cadReady | reqValid (far : Bool) | wdValid (far : Bool)
  deriving DecidableEq, Repr

/-- R398: from the release of COLD_RESET_N every Spire of the instance asserts TT_RST_REQ, also before an image names it. -/
def rstReq (s : State) (ix : Nat) : Bool := ((getSp s ix).map (·.lv.rstReq)).getD (builtSpire s.built ix && s.image.isNone)

/-- A level of a Spire, 0 before an image names it. -/
def spLevel (s : State) (ix : Nat) (f : Spire → Bool) : Bool := ((getSp s ix).map f).getD false

/-- The level of an on-die output outside cold reset. The memory ports' requests are issued inside a step, so between steps none stands. -/
def dieServes (s : State) : DieOut → Bool
  | .fenceCompute i => spLevel s i (·.lv.fc)
  | .fenceTap i => spLevel s i (·.lv.ft)
  | .transitOnly i => spLevel s i (·.lv.tonly)
  | .ttDscAck i => spLevel s i fun p => p.answer == .ack
  | .ttInjValid i => spLevel s i fun p => match p.answer with
    | .inject _ => true
    | _ => false
  | .ttInjNack i => spLevel s i fun p => p.answer == .injNack
  | .ttRstReq i => rstReq s i
  | .cadReady => cadReady s
  | .reqValid _ | .wdValid _ => false

/-- R90: the block releases its on-die outputs in cold reset and without power, and the integrator's tie cells hold them. -/
def dieDrive (s : State) (o : DieOut) : Option Bool := if s.pads.coldReset ∨ !s.pads.pwrGood then none else some (dieServes s o)

/-! ### KEEP page (R522 to R525, R509) -/

/-- R522: KEEP_ID. -/
def keepId : W32 := packW [(0, Config.arch.toNat), (8, Config.product.toNat), (16, Config.family.toNat)]

/-- R522: KEEP_VER. -/
def keepVer (s : State) : W32 :=
  packW [(0, Config.release.toNat), (8, fld s.fuses.jtagId 27 4), (16, (s.image.map (·.fwMajor.toNat)).getD 0),
    (24, (s.image.map (·.fwMinor.toNat)).getD 0)]

/-- R524: KEEP_STAT. -/
def keepStat (s : State) : W32 :=
  packW [(0, b2n s.boot.ready), (1, b2n (alertN s)), (2, b2n s.keep.fault), (3, b2n s.keep.dieFault),
    (4, b2n ((s.image.map (·.zk2)).getD false)), (5, b2n s.pads.thermtrip), (6, s.thermal.level % 4), (8, b2n s.keep.shutdown),
    (16, s.keep.kwr.toNat)]

/-- R509: KEEP_UNIT_SAFE: bit 12 for any Dome, bit 13 for any Spire. -/
def keepUnitSafe (s : State) : W32 :=
  packW (((List.range 12).map fun u => (u, b2n (inSafe s u))) ++
    [(12, b2n (s.keep.safe.any fun u => decide (256 ≤ u) && decide (u < 65536))), (13, b2n (s.keep.safe.any fun u => decide (65536 ≤ u)))])

/-- R523: the largest number of Spires in any Dome. -/
def spiresPerDome (im : Image) : Nat :=
  ((List.range im.geom.domes.length).map fun d => (im.geom.spires.filter fun c => c.ix / 256 == d).length).foldl max 0

/-- R523: KEEP_GEOM0 to KEEP_GEOM7; what comes from the image reads 0 before the load. -/
def keepGeom (s : State) (n : Nat) : W32 :=
  let g := fun f : Image → Nat => (s.image.map f).getD 0
  match n with
  | 0 => packW [(0, g fun im => im.geom.domes.length), (8, g spiresPerDome)]
  | 1 => packW [(0, g fun im => im.geom.spires.length), (16, Config.engBuilt), (24, licEng s)]
  | 2 => packW [(0, Config.trackers), (16, Config.ovfEntries)]
  | 3 => packW [(0, Config.tallies), (16, Config.peals)]
  | 4 => packW [(0, Config.parts - 1), (4, Config.contracts), (12, g (·.geom.wports)), (20, g (·.geom.mtaps)), (28, g (·.geom.banen))]
  | 5 => packW [(0, g (·.geom.ltaps)), (8, Config.banks), (16, g (·.geom.gradeW))]
  | 6 => packW [(0, g (·.area.nearGiB)), (16, farGiB s)]
  | _ => packW [(0, s.boot.tapsV3), (16, s.boot.tapsV2)]

/-- R523: KEEP_DIE. -/
def keepDie (s : State) : W32 := BitVec.ofNat 32 ((s.image.map (·.geom.dieId.toNat)).getD 0)

/-! ### The Keep's units -/

/-- R355: BLF_TSTAT. -/
def blfTstat (s : State) : W32 :=
  let t := s.time
  packW [(0, b2n t.trefOk), (1, b2n t.holdover), (2, b2n t.trefLost), (3, b2n t.ppsOk), (4, b2n t.ppsLost), (5, b2n t.ppsDrift),
    (6, b2n t.tickslip), (7, b2n t.ofsdrift), (8, t.tsync.toNat), (12, t.trefDiff.toNat), (16, ppsMode s)]

/-- R355: BLF_STAT. -/
def blfStat (s : State) : W32 := packW [(0, b2n s.belfry.run), (1, b2n s.belfry.carried), (8, s.belfry.lastInputs.toNat)]

/-- R384: the image holds no SCRUB_SLICE peal. -/
def noScrub (im : Image) : Bool := im.peals.all fun p => plAct p != 0x10 || plKind p == 0

/-- R389: CIS_STAT. -/
def cisStat (s : State) : W32 :=
  let c := s.cistern
  packW [(0, b2n c.filled), (1, b2n c.execBank), (2, b2n (c.mirrorOk && !(c.testBank.any fun b => decide (b ≤ 1)))), (3, b2n ((s.image.map noScrub).getD false)), (4, b2n c.ueSeen),
    (5, b2n c.unwrSeen)]

/-- R389: CIS_BANK_b. -/
def cisBank (s : State) (b : Nat) : W32 :=
  let k := s.cistern.banks.getD b Bank.reset
  packW [(0, k.sparesUsed % 64), (6, b2n k.spareOut), (7, b2n k.failed), (8, k.ce.toNat), (24, k.ue.toNat)]

/-- R389: CVN_STAT. -/
def cvnStat (s : State) : W32 :=
  packW [(0, b2n (!s.domes.isEmpty && s.domes.all edgeUp)), (1, b2n s.caravan.vstorm), (2, b2n s.caravan.seamdeg), (3, b2n s.caravan.routefail),
    (4, ((area s).map (·.witRate)).getD 0 % 32)]

def groupsOk (l : List Bool) : Nat := (l.filter id).length

/-- R389: CVN_SEAM_d. -/
def cvnSeam (s : State) (d : Nat) : W32 :=
  match getDome s d with
  | none => 0
  | some x => packW [(0, x.groupsUp.length % 64), (6, groupsOk x.groupsUp % 64), (12, x.groupsDn.length % 16), (16, groupsOk x.groupsDn % 16),
      (20, x.spareMap.length % 512)]

/-- R199: RPL_POOL. -/
def rplPool (s : State) : W32 :=
  packW [(0, licEng s), (8, ((s.engines.take (licEng s)).filter fun g => g.state == .free).length), (16, fencedEngines s)]

/-- R199: RPL_TRK. -/
def rplTrk (s : State) : W32 :=
  packW [(0, (s.samples.filter fun x => x.slot.isSome).length), (13, (s.samples.filter fun x => x.slot.isNone).length)]

/-- R457: THM_STAT. -/
def thmStat (s : State) : W32 :=
  let h := s.thermal
  packW [(0, h.level % 4), (2, h.tlevel % 4), (4, h.plevel % 4), (6, b2n s.pads.thermtrip), (7, b2n h.swept), (8, b2n h.snsbad),
    (9, b2n s.boot.softLost)]

/-- R457: THM_MAX. -/
def thmMax (s : State) : W32 := packW [(0, intFld 11 s.thermal.maxTemp), (11, s.thermal.maxSrc % 65536)]

/-- R457: THM_SDT. -/
def thmSdt (s : State) : W32 :=
  packW [(0, s.thermal.sdtState % 8), (3, min 65535 s.thermal.sdtLeft), (19, min 4095 s.thermal.sdtFailed)]

/-- R402: FUS_STAT. -/
def fusStat (s : State) : W32 :=
  let f := s.fuses
  packW [(0, b2n s.boot.readOk), (1, b2n f.dbgLock), (2, f.ikeyRevoke.toNat), (4, b2n (f.ikeyHash0 == 0)), (5, b2n (f.ikeyHash1 == 0)),
    (6, b2n (f.tkeyHash == 0)), (7, minSvn f), (14, min 2 f.nvmMaxMode.toNat), (16, s.boot.retries % 4)]

/-- R402: the privilege row of a partition. -/
def privRow (s : State) (p : Nat) : Nat := if p = 0 then 0x07 else fld s.fuses.priv (8 * (p - 1)) 8

/-- R402: FUS_PRIVn. -/
def fusPriv (s : State) (n : Nat) : W32 := packW ((List.range 4).map fun j => (8 * j, privRow s (4 * n + j)))

/-- R426: FUS_LIC. -/
def fusLic (s : State) : W32 :=
  packW [(0, (entitled s).toNat), (8, s.fuses.licFloor.toNat), (16, s.boot.accepted % 32), (21, min 31 s.boot.rejected)]

/-- R301: BAN_PSTAT. -/
def banPstat (s : State) (q : Nat) : W32 :=
  let p := getPort s q
  packW [(0, b2n p.up), (1, p.ver % 4), (3, b2n p.zka2), (4, p.peerRev.toNat), (8, p.peerDie.toNat), (24, b2n p.keyed), (25, b2n p.downev)]

/-- R493: word 0 of the TRC page. -/
def trcStat (s : State) : W32 := packW [(0, (s.spires.filter fun p => p.trc.deep).length % 128), (7, b2n (licDtrace s))]

/-- R493: words 0 and 1 of the MTR page. -/
def mtrStat (s : State) : W32 := packW [(0, b2n s.mtr.wallback), (1, b2n s.mtr.wcSet)]
def mtrPeriod (s : State) : W32 := BitVec.ofNat 32 (((area s).map (·.period)).getD 0 % 2 ^ 17)

/-! ### Partition blocks (R529) -/

def tilesIn (s : State) (p st : Nat) : Nat := (s.tiles.filter fun t => t.part == p && t.state == st).length

/-- R529: word `k` of a partition's block. -/
def partWord (s : State) (p k : Nat) : W32 :=
  let q := getPart s p
  let gens := q.gens.map (·.num)
  match k with
  | 0 => packW [(0, b2n q.job), (1, b2n q.window.isSome), (2, b2n q.rb.isSome), (3, b2n (((partCfg s p).map (·.strict)).getD false)),
      (4, b2n (decide (2 ≤ gens.length))), (5, b2n q.norecov), (16, q.epoch.toNat)]
  | 1 => halves (gens.foldl max 0) (if gens.length < 2 then 0 else gens.foldl min (gens.headD 0))
  | 2 => q.pos.step
  | 3 => halves q.pos.era.toNat q.pos.layer.toNat
  | 4 => packW [(0, q.pos.phase.toNat), (8, q.sealFail.toNat)]
  | 5 => halves (tilesIn s p stHealthy) (tilesIn s p stWatch)
  | 6 => halves (tilesIn s p stFenced) (tilesIn s p stRetired)
  | 7 => halves (tilesIn s p stDead) q.spares.length
  | 8 => q.cnt.mirage
  | 9 => q.cnt.suspect
  | 10 => q.cnt.late
  | 11 => q.cnt.premise
  | 12 => q.cnt.deficit
  | 13 => halves q.cnt.envNokey.toNat q.cnt.ldOrphan.toNat
  | 14 => halves q.cnt.attNosig.toNat q.cnt.attUnlic.toNat
  | 15 => halves q.cnt.talRefused.toNat q.cnt.mtIgn.toNat
  | _ => 0

/-! ### Tallies (R531) -/

/-- R531: word `k` of a Tally. DONE reads its reset value 0 while the Tally is not held. -/
def tallyWord (s : State) (t k : Nat) : W32 :=
  let x := getTally s t
  match k with
  | 0 => packW [(0, b2n x.held), (1, x.part % 16), (5, b2n (x.held && tallyDone x)), (6, min 1023 x.waiters.length), (16, x.owner.toNat)]
  | 1 => x.count
  | 2 => x.target
  | 3 => packW [(0, x.arg.toNat), (16, x.op.toNat), (20, x.result.toNat)]
  | _ => 0

/-! ### Domes (R535) -/

/-- R535: the highest thermal level in a field. -/
def fieldLevel (s : State) (d : Nat) : Nat :=
  (((s.spires.filter fun p => p.ix / 256 == d).map (·.sensor.lvl)) ++ ((s.domes.filter fun x => x.ix == d).map (·.sensor.lvl))).foldl max 0

/-- R535: DOME_STAT. -/
def domeStat (s : State) (x : Dome) : W32 :=
  let c := domeCfg s x.ix
  packW [(0, b2n (x.groupsUp.any id)), (1, b2n x.released), (2, fieldLevel s x.ix % 4), (4, b2n x.sensor.bad),
    (8, (c.map fun c => min 255 c.parent).getD 0), (16, ((s.image.bind fun im => c.map (waveOf im)).getD 0) % 32),
    (21, (s.tiles.filter fun t => t.ix / 256 == x.ix && t.run.isSome).length)]

/-- R535: word at offset `o` of a Dome's page. -/
def domeWord (s : State) (d o : Nat) : W32 :=
  match getDome s d with
  | none => 0
  | some x =>
    if o = 0 then domeStat s x
    else if 0x10 ≤ o ∧ o < 0x30 then BitVec.ofNat 32 (fld x.order (8 * (o - 0x10)) 32)
    else 0

/-! ### Spires (R167, R229, R457, R463, R493, R528) -/

/-- R528: a burst of the Spire is held under R65. -/
def spStalled (p : Spire) : Bool := (p.pass.map (·.pos.stalled)).getD false || (openOps p).any fun o => o.resRow.stalled || o.opRow.stalled

/-- The word at offset `o` of a Spire's page. -/
def spireWord (s : State) (p : Spire) (o : Nat) : W32 :=
  let t := getTile s p.ix
  match o with
  | 0x40 => packW [(0, p.smp.rate % 32), (8, p.smp.force % 256), (16, b2n p.smp.watch)]
  | 0x44 => packW [(0, p.tstate % 8), (3, b2n p.lv.fc), (4, b2n p.lv.ft), (5, b2n p.lv.tonly), (6, b2n p.lv.fack), (7, b2n p.lv.hbOk),
      (8, p.fseq.toNat), (16, p.watchCnt.toNat), (24, b2n p.testing)]
  | 0x48 => packW [(0, intFld 11 p.sensor.temp), (11, b2n p.sensor.valid), (12, b2n p.sensor.bad), (13, b2n p.sensor.fast),
      (14, p.sensor.lvl % 4), (16, (t.map (·.ptr)).getD 0 % 128)]
  | 0x4C => packW [(0, b2n (((partCfg s (partOfSp s p.ix)).map (·.traceLight)).getD false)), (1, b2n p.trc.deep), (2, b2n p.trc.capture),
      (3, p.trc.buf.length % 1024)]
  | 0x50 => packW [(0, p.tap.ver.toNat), (4, tileType s p.ix % 16), (8, p.ix % 256), (17, p.ix / 256 % 256), (25, partOfSp s p.ix % 16),
      (29, b2n p.tap.off), (30, b2n p.tap.clkLoss)]
  | 0x54 => packW [(0, (openOps p).length % 8), (3, grpFree p % 512), (12, b2n p.injSlot.isSome), (13, b2n (spStalled p))]
  | 0x58 => packW [(0, p.lastv.result % 16), (4, p.lastv.cause % 16), (8, p.lastv.group % 256), (16, p.lastv.stag.toNat)]
  | 0x5C => halves p.lastv.layer.toNat p.lastv.oper.toNat
  | 0x60 => lo32 p.tap.prog
  | 0x64 => packW [(0, p.viol.1.toNat), (8, p.viol.2.toNat)]
  | _ => if o < 0x3C then p.cnt.getD (o / 4) 0 else 0

end Sys2Proof.Machine
end

