-- ==== Sys2Proof/Machine/Observe.lean ====
section
/-! DEFINITION. The commands of 13 Observability: period close, wall-clock set, Erg clear, dump command, end of a dump. -/

namespace Sys2Proof.Machine

/-- R467, R487. -/
def execMeterPeriodClose (s : State) : Host.Outcome State Fault Refusal :=
  .next (if periodDue s s.time.tick.toNat then closePeriod s .boundary else s)

/-- R489: a set of the label is a class 9 input of the Belfry, which takes it at the first Belfry tick that it steps. -/
def wallClockSet (s : State) : State :=
  { s with belfry := { s.belfry with wcSets := s.belfry.wcSets ++ [s.mtr.wcLo.zeroExtend 64 + (s.mtr.wcHi.zeroExtend 64) <<< 32] } }

/-- R484: the clear waits for the next publication. -/
def ergClear (s : State) (who : Requester) : State :=
  { s with erg := { s.erg with clrPend := updAt s.erg.clrPend (partOf who) fun _ => true } }

/-- R476, R480, R493: a write of TRC_DCTL; GO arms the command. A tenant's command for another partition is DENIED. -/
def dumpCommand (s : State) (who : Requester) (w : W32) : State :=
  let p := fld w 0 4
  let d := s.trc.dctl
  let s1 := { s with trc := { s.trc with dctl := (d.1, d.2.1, setFld d.2.2 0 21 (fld w 0 21)) } }
  if !bitOf w 21 then s1
  else if partOf who ≠ 0 ∧ partOf who ≠ p then dumpResult s1 4
  else if (getPart s p).armed.isSome then dumpResult s1 3
  else
    let era := BitVec.ofNat 16 (fld w 4 16)
    let s2 := updPart s1 p fun q => { q with armed := some ⟨d.1, d.2.1, if bitOf w 20 then none else some era⟩ }
    dumpResult (post s2 p .dumpReq 0xFFFF [d.1, BitVec.ofNat 32 era.toNat, d.2.1]) 1

/-- R479: the TDUMP header with the captured bytes. -/
def tdumpRec (s : State) (p : Nat) (j : DumpJob) : Rec :=
  let d := j.dsc
  ⟨.tdump, s.time.tick, j.spire, p, w3of j.spire p (b2n j.late),
    [BitVec.ofNat 32 j.era.toNat, j.step, halves (dEpoch d).toNat (dStag d).toNat, halves (dLayer d).toNat (dOper d).toNat, dTensor d,
      BitVec.ofNat 32 (fld d 12 4), BitVec.ofNat 32 (dMt d), BitVec.ofNat 32 (dN d), BitVec.ofNat 32 (b2n j.late)] ++ words64 j.od ++
      [BitVec.ofNat 32 j.lost, BitVec.ofNat 32 j.gaps.length] ++ (j.gaps.flatMap fun g => [BitVec.ofNat 32 g.1, BitVec.ofNat 32 g.2]) ++
      (List.range ((j.bytes.length + 3) / 4)).map fun i => BitVec.ofNat 32 (ofLe ((j.bytes.drop (4 * i)).take 4))⟩

/-- R479: the part of a dump that its partition's area holds; one that is larger than the area ends with it (DESIGN CHOICE, log 108). -/
def cutDump (size : Nat) (r : Rec) : Rec := { r with body := r.body.take (size / 4 - 4) }

/-- R479: a dump lies whole in the area: it begins again at the start when it does not fit, and overwrites what it meets. -/
def storeDump (size : Nat) (r : Rec) (l : PartLogs) : Nat × PartLogs :=
  let n := 4 * (r.body.length + 4)
  let at_ := if l.dumpPos + n ≤ size then l.dumpPos else 0
  let clear := l.dumps.filter fun d => decide (d.1 + 4 * (d.2.body.length + 4) ≤ at_) || decide (at_ + n ≤ d.1)
  (at_, { l with dumps := clear ++ [(at_, r)], dumpPos := at_ + n })

/-- R479, R486: the first dump of the partition is written. -/
def execDumpDone (p : Nat) (s : State) : Host.Outcome State Fault Refusal :=
  .next (match (getPart s p).dumpQ with
    | [] => s
    | j :: rest =>
      let size := (s.image.map (·.base.tdumpSize)).getD 0
      let r := cutDump size (tdumpRec s p j)
      let n := 4 * (r.body.length + 4)
      let x := storeDump size r (getPart s p).logs
      let s1 := updPart s p fun q => { q with dumpQ := rest, logs := x.2 }
      let s2 := subUse (addMeter s1 p mDump n) p (linesOf j.bytes.length)
      let s3 := { s2 with trc := { s2.trc with dumps := satInc s2.trc.dumps } }
      let far := decide (farGiB s ≠ 0) && ((area s).map (·.tdumpFar)).getD false
      let s4 := nearPush (if far then { s3 with far := { s3.far with waiting := s3.far.waiting ++ [.dump p x.1] } } else s3) (.dump p x.1)
      post s4 p .dumpDone j.spire [BitVec.ofNat 32 x.1, BitVec.ofNat 32 n])

end Sys2Proof.Machine
end

