-- ==== Sys2Proof/Machine/Csr.lean ====
section
/-! DEFINITION. The register space (R16 to R18, R356, R461, R495 to R508, R513 to R516, R521 to R535): page map, rights, reads, writes,
the bit-alias window, the mailbox and ACC records. -/

namespace Sys2Proof.Machine

/-! ### Page map (R500, R504) -/

/-- Where an address leads: a unit page with its offset, a partition's block, a Tally or a Spire with its word or offset, a bit of
KEEP by its alias, or a reserved range. -/
inductive Loc where
  | nowhere
  | keep (o : Nat) | blf (o : Nat) | cis (o : Nat) | cvn (o : Nat) | rpl (o : Nat) | erg (o : Nat) | thm (o : Nat)
  | fus (o : Nat) | nvm (o : Nat) | ban (o : Nat) | trc (o : Nat) | mtr (o : Nat)
  | part (p k : Nat)
  | tal (t k : Nat)
  | dome (d o : Nat)
  | spr (i o : Nat)
  | alias_ (o b : Nat)
  deriving DecidableEq, Repr

/-- A page of the low part of the window, by address bits [23:16]. -/
def lowPage (pg o : Nat) : Loc :=
  match pg with
  | 0x0 => .keep (o % 0x1000)
  | 0x1 => .blf (o % 0x100)
  | 0x2 => .cis (o % 0x400)
  | 0x3 => .cvn (o % 0x200)
  | 0x4 => .rpl (o % 0x800)
  | 0x6 => .erg (o % 0x8000)
  | 0x7 => .thm (o % 0x100)
  | 0x8 => .fus (o % 0x100)
  | 0x9 => .nvm (o % 0x100)
  | 0xA => .ban (o % 0x100)
  | 0xB => .trc (o % 0x100)
  | 0xC => .mtr (o % 0x100)
  | 0xD => .part (o % 0x400 / 0x40) (o % 0x40 / 4)
  | _ => .nowhere

/-- R500: the address map. -/
def locOf (s : State) (a : Nat) : Loc :=
  if a < 0x100000 then lowPage (a / 0x10000) (a % 0x10000)
  else if a < 0x120000 then .tal ((a - 0x100000) / 16) (a % 16 / 4)
  else if a < 0x200000 then .nowhere
  else if a < 0x240000 then
    let d := (a - 0x200000) / 0x1000
    if d < s.domes.length then .dome d (a % 0x400) else .nowhere
  else if a < 0x400000 then .nowhere
  else if a < 0x800000 then
    let i := (a - 0x400000) / 0x100
    if (getSp s i).isSome then .spr i (a % 0x100) else .nowhere
  else if a < 0xA00000 then .alias_ ((a - 0x800000) / 128 * 4 % 0x1000) (a % 128 / 4)
  else .nowhere

/-- The Spire of an access, 0xFFFF where none (R516). -/
def locSpire : Loc → Nat
  | .spr i _ => i
  | _ => 0xFFFF

/-! ### KEEP fields (R504, R509, R513, R516, R522 to R525, R530, R533) -/

/-- The kinds of field that the alias table tells apart; the manual's tables have no RC field. -/
inductive FieldKind where
  | rw | w1c | woOne | woWide | ro | cnt | go
  deriving DecidableEq, Repr

/-- The fields of the KEEP register at an offset: lowest bit, width, kind. -/
def keepFields (o : Nat) : List (Nat × Nat × FieldKind) :=
  match o with
  | 0x000 | 0x004 => [(0, 32, .ro)]
  | 0x008 => [(0, 9, .ro), (16, 8, .ro)]
  | 0x00C => [(0, 12, .w1c)]
  | 0x010 => [(0, 17, .ro)]
  | 0x014 | 0x018 | 0x01C | 0x020 | 0x028 | 0x02C => [(0, 32, .ro)]
  | 0x024 => [(0, 27, .ro)]
  | 0x030 => [(0, 16, .ro)]
  | 0x034 => [(0, 5, .w1c)]
  | 0x040 => [(0, 4, .ro), (4, 1, .rw), (5, 4, .ro), (9, 1, .rw), (10, 4, .ro)]
  | 0x044 => [(0, 14, .ro)]
  | 0x048 => [(0, 4, .woOne)]
  | 0x04C => [(0, 32, .woWide)]
  | 0x080 => [(0, 7, .w1c)]
  | 0x090 | 0x094 | 0x098 | 0x09C | 0x0A0 | 0x0A4 | 0x0A8 => [(0, 32, .cnt)]
  | 0x100 => [(0, 24, .rw)]
  | 0x104 => [(0, 3, .ro), (8, 24, .ro)]
  | 0x180 => [(0, 1, .go), (1, 2, .ro), (4, 13, .ro)]
  | 0x200 => [(0, 28, .rw), (28, 1, .go)]
  | 0x204 => [(0, 32, .rw)]
  | 0x208 => [(0, 3, .ro), (4, 28, .ro)]
  | _ => if 0x110 ≤ o ∧ o ≤ 0x13C ∧ o % 4 = 0 then [(0, 32, .ro)] else []

/-- The kind of the field that holds a bit; none where it is reserved. -/
def keepKind (o b : Nat) : Option FieldKind := ((keepFields o).find? fun f => decide (f.1 ≤ b) && decide (b < f.1 + f.2.1)).map (·.2.2)

/-! ### Reads -/

def getMbx (s : State) (i : Nat) : Mbx := s.keep.mbx.getD i Mbx.reset
def updMbx (s : State) (i : Nat) (f : Mbx → Mbx) : State := { s with keep := { s.keep with mbx := updAt s.keep.mbx i f } }

/-- KEEP page: what a requester reads (R506, R530, R533: its own instances). -/
def keepWord (s : State) (who : Requester) (o : Nat) : W32 :=
  let i := instOf who
  let m := getMbx s i
  match o with
  | 0x000 => keepId
  | 0x004 => keepVer s
  | 0x008 => keepStat s
  | 0x00C => s.keep.alert.zeroExtend 32
  | 0x010 => keepGeom s 0
  | 0x014 => keepGeom s 1
  | 0x018 => keepGeom s 2
  | 0x01C => keepGeom s 3
  | 0x020 => keepGeom s 4
  | 0x024 => keepGeom s 5
  | 0x028 => keepGeom s 6
  | 0x02C => keepGeom s 7
  | 0x030 => keepDie s
  | 0x034 => s.keep.clkloss.zeroExtend 32
  | 0x040 => s.keep.unitEn.zeroExtend 32
  | 0x044 => keepUnitSafe s
  | 0x048 => s.keep.lock.zeroExtend 32
  | 0x04C => s.keep.hosttag
  | 0x080 => s.keep.accstat.zeroExtend 32
  | 0x100 => m.sel.zeroExtend 32
  | 0x104 => packW [(0, b2n m.valid), (1, m.err.toNat), (8, m.echo.toNat)]
  | 0x180 => let t := s.keep.talloc.getD i (0, 0)
    packW [(1, t.1.toNat), (4, t.2)]
  | 0x200 => (getCmd s i).cmd
  | 0x204 => (getCmd s i).arg
  | 0x208 => (getCmd s i).res
  | _ =>
    if 0x90 ≤ o ∧ o ≤ 0xA8 then s.keep.accCnt.getD ((o - 0x90) / 4) 0
    else if 0x110 ≤ o ∧ o ≤ 0x13C ∧ m.valid then m.data.getD ((o - 0x110) / 4) 0
    else 0

def blfWord (s : State) (o : Nat) : W32 :=
  match o with
  | 0x00 => blfTstat s
  | 0x04 => blfStat s
  | 0x10 => s.belfry.cancelCnt
  | 0x14 => s.belfry.carryCnt
  | 0x18 => s.belfry.tickslipCnt
  | 0x1C => s.belfry.missCnt
  | 0x20 => s.belfry.ofsdriftCnt
  | _ => 0

def cisWord (s : State) (o : Nat) : W32 :=
  let c := s.cistern
  match o with
  | 0x00 => cisStat s
  | 0x04 => c.bcmd
  | 0x10 => c.ceCnt
  | 0x14 => c.ueCnt
  | 0x18 => c.unwrCnt
  | 0x1C => c.scrubPass
  | 0x20 => c.scrubSuper
  | 0x24 => c.recDrop
  | 0x28 => c.wrstLost
  | _ =>
    if 0x100 ≤ o ∧ o < 0x140 then (getPart s ((o - 0x100) / 4)).cnt.cisUse
    else if 0x140 ≤ o ∧ o < 0x180 then (getPart s ((o - 0x140) / 4)).cnt.cisQref
    else if 0x200 ≤ o ∧ o < 0x280 then cisBank s ((o - 0x200) / 4)
    else 0

def cvnWord (s : State) (o : Nat) : W32 :=
  match o with
  | 0x00 => cvnStat s
  | 0x10 => s.caravan.vlate
  | 0x14 => s.caravan.linkretry
  | 0x18 => s.caravan.sidemaj
  | 0x1C => s.caravan.fcrc
  | _ => if 0x100 ≤ o ∧ o < 0x200 then cvnSeam s ((o - 0x100) / 4) else 0

/-- R199: words 0 to 14 of a block count; word 15 is reserved. -/
def rplWord (s : State) (o : Nat) : W32 :=
  if o = 0 then rplPool s
  else if o = 4 then rplTrk s
  else if 0x100 ≤ o ∧ o < 0x500 then (getPart s ((o - 0x100) / 0x40)).cnt.rpl.getD (o % 0x40 / 4) 0
  else 0

/-- R484: a histogram's bins less the view's baseline; word `w` of the block. -/
def histWord (pub base : List W64) (w : Nat) : W32 :=
  let v := pub.getD (w / 2) 0 - base.getD (w / 2) 0
  if w % 2 = 0 then lo32 v else hi32 v

/-- R485: an extreme's entry. -/
def extWord (e : Option (Int × Nat × W64)) (w : Nat) : W32 :=
  match e with
  | none => 0
  | some (v, sp, t) =>
    match w with
    | 0 => BitVec.ofInt 32 v
    | 1 => BitVec.ofNat 32 sp
    | 2 => lo32 t
    | _ => hi32 t

/-- R485: the word at offset `r` of scope `c`'s block, in partition `p`'s view. -/
def ergBlock (s : State) (p c r : Nat) : W32 :=
  let pub := s.erg.pub.getD c ErgScope.zero
  let base := (s.erg.views.getD p []).getD c ErgScope.zero
  if r < 0x080 then histWord pub.resid base.resid (r / 4)
  else if r < 0x140 then histWord pub.vlat base.vlat ((r - 0x080) / 4)
  else if r < 0x200 then histWord pub.rlag base.rlag ((r - 0x140) / 4)
  else if r < 0x280 then histWord pub.slag base.slag ((r - 0x200) / 4)
  else if r < 0x380 then histWord pub.temp base.temp ((r - 0x280) / 4)
  else extWord (((s.erg.viewPub.getD p []).getD c []).getD ((r - 0x380) / 16) none) (r % 16 / 4)

def ergWord (s : State) (p o : Nat) : W32 :=
  if o = 0 then s.erg.seq
  else if o = 4 then packW [(1, b2n (s.erg.clrPend.getD p false))]
  else if 0x100 ≤ o ∧ o < 0x4500 then ergBlock s p ((o - 0x100) / 0x400) ((o - 0x100) % 0x400)
  else 0

def thmWord (s : State) (o : Nat) : W32 :=
  match o with
  | 0x00 => thmStat s
  | 0x04 => thmMax s
  | 0x08 => thmSdt s
  | _ => if 0x10 ≤ o ∧ o ≤ 0x28 then s.thermal.cnts.getD ((o - 0x10) / 4) 0 else 0

def fusWord (s : State) (o : Nat) : W32 :=
  match o with
  | 0x00 => fusStat s
  | 0x10 => fusPriv s 0
  | 0x14 => fusPriv s 1
  | 0x18 => fusPriv s 2
  | 0x1C => fusPriv s 3
  | 0x20 => fusLic s
  | _ => 0

def banWord (s : State) (o : Nat) : W32 :=
  let q := o / 0x20
  if q ≥ banPorts then 0
  else match o % 0x20 with
    | 0x0 => banPstat s q
    | 0x4 => (getPort s q).badfrm
    | 0x8 => (getPort s q).naktx
    | 0xC => (getPort s q).resend
    | _ => 0

def trcWord (s : State) (o : Nat) : W32 :=
  match o with
  | 0x00 => trcStat s
  | 0x10 => s.trc.deepref
  | 0x14 => s.trc.ringlost
  | 0x18 => s.trc.dumps
  | 0x1C => s.trc.dumpref
  | 0x40 => s.trc.dctl.1
  | 0x44 => s.trc.dctl.2.1
  | 0x48 => s.trc.dctl.2.2
  | _ => 0

def mtrWord (s : State) (o : Nat) : W32 :=
  match o with
  | 0x00 => mtrStat s
  | 0x04 => mtrPeriod s
  | 0x08 => lo32 s.mtr.pnum
  | 0x10 => s.mtr.setCnt
  | 0x14 => s.mtr.backCnt
  | 0x20 => s.mtr.wcLo
  | 0x24 => s.mtr.wcHi
  | _ => 0

/-- What a read at a place returns; an offset that holds no register reads 0 (R500). -/
def readLoc (s : State) (who : Requester) (l : Loc) : W32 :=
  match l with
  | .nowhere => 0
  | .keep o => keepWord s who o
  | .blf o => blfWord s o
  | .cis o => cisWord s o
  | .cvn o => cvnWord s o
  | .rpl o => rplWord s o
  | .erg o => ergWord s (partOf who) o
  | .thm o => thmWord s o
  | .fus o => fusWord s o
  | .nvm o => if o = 0 then nvmBoot s else 0
  | .ban o => banWord s o
  | .trc o => trcWord s o
  | .mtr o => mtrWord s o
  | .part p k => partWord s p k
  | .tal t k => tallyWord s t k
  | .dome d o => domeWord s d o
  | .spr i o => match getSp s i with
    | some p => spireWord s p o
    | none => 0
  | .alias_ o b => if (keepKind o b).isSome then BitVec.ofNat 32 (b2n (bitOf (keepWord s who o) b)) else 0

/-! ### Rights (R401, R464, R500, R501, R508, R529 to R531) -/

/-- R500: the KEEP registers that no tenant reads. -/
def keepOperator (o : Nat) : Bool :=
  o == 0x00C || o == 0x034 || (decide (0x040 ≤ o) && decide (o ≤ 0x04C)) || (decide (0x080 ≤ o) && decide (o ≤ 0x0A8))

/-- Whether a Tally is held by a partition (R531). -/
def holdsTally (s : State) (t p : Nat) : Bool := (getTally s t).held && (getTally s t).part == p

/-- R500, R501: whether a tenant reads a place. -/
def tenantReads (s : State) (p : Nat) (l : Loc) : Bool :=
  match l with
  | .keep o => !keepOperator o
  | .cis o => o == 0x100 + 4 * p || o == 0x140 + 4 * p
  | .rpl o => decide (0x100 + 0x40 * p ≤ o) && decide (o < 0x140 + 0x40 * p)
  | .erg _ | .nvm _ => true
  | .fus o => decide (o < 0x10) || decide (0x20 ≤ o)
  | .trc o => privBit s p 1 && decide (0x40 ≤ o) && decide (o ≤ 0x48)
  | .part q _ => q == p
  | .tal t _ => holdsTally s t p
  | .spr i _ => partOfSp s i == p
  | _ => false

/-- The places of a tenant's pages that hold a register (R500: a write elsewhere is ignored with OK). -/
def holdsRegister (l : Loc) : Bool :=
  match l with
  | .keep o => !(keepFields o).isEmpty
  | .erg o => o == 0 || o == 4 || (decide (0x100 ≤ o) && decide (o < 0x4500))
  | .nvm o => o == 0
  | .fus o => o == 0 || (decide (0x10 ≤ o) && decide (o ≤ 0x20))
  | .spr _ o => decide (o ≤ 0x64)
  | _ => true

/-- R501: the registers that some rule grants a tenant to write: its mailbox, Tally and command instances, its Erg view's clear (R484), the
dump command (R493), its Tallies (R276, R531). -/
def tenantField (l : Loc) : Bool :=
  match l with
  | .keep o => o == 0x100 || o == 0x180 || o == 0x200 || o == 0x204
  | .erg o => o == 4
  | .trc _ => true
  | .tal _ k => k != 1
  | _ => false

/-- R501: whether a requester has the right to an access. -/
def mayAccess (s : State) (who : Requester) (wr : Bool) (l : Loc) : Bool :=
  let p := partOf who
  p == 0 || (tenantReads s p l && (!wr || tenantField l || !holdsRegister l))

/-! ### What is served (R424, R502, R503) -/

/-- R503: the pages served before firmware starts. -/
def preFirmware (l : Loc) : Bool :=
  match l with
  | .keep o => o == 0 || o == 4
  | .nvm _ | .fus _ => true
  | _ => false

/-- R424: after a bring-up failure that came before firmware started, the NVM and FUS pages alone are read. -/
def failServed (l : Loc) : Bool :=
  match l with
  | .nvm _ | .fus _ => true
  | _ => false

/-- R503: whether an access is served in the present phase. -/
def phaseServes (s : State) (who : Requester) (wr : Bool) (l : Loc) : Bool :=
  let all := s.boot.ready || partOf who == 0
  if s.boot.step = 7 then !wr && (if s.boot.firmware then all else failServed l)
  else if !s.boot.firmware || s.keep.kwrDown then !wr && preFirmware l
  else all

/-- R502: the page of a Spire that is DEAD or lost. -/
def spireGone (s : State) (l : Loc) : Bool :=
  match l with
  | .spr i _ => stateOf s i == stDead || ((getTile s i).map (·.lost)).getD false
  | _ => false

/-! ### ACC records (R516) -/

def acLockwr : Nat := 1
def acCfgrej : Nat := 2
def acCfgpar : Nat := 3
def acDenied : Nat := 4
def acMalformed : Nat := 5
def acNotavail : Nat := 6
def acAliasign : Nat := 7
def acHeld : Nat := 8

/-- The paths of an ACC record. -/
def pathOf : Requester → Nat
  | .csr _ => 0
  | .mgmt => 1
def pathFirmware : Nat := 2
def pathHardware : Nat := 3

/-- One access, as an ACC record names it: partition, path, Spire or 0xFFFF, write, address, write data. -/
structure AccessInfo where
  part : Nat
  path : Nat
  spire : Nat
  wr : Bool
  addr : Nat
  data : W32
  deriving DecidableEq, Repr

/-- The record of an access event. -/
def accRecord (s : State) (a : AccessInfo) (cause held : Nat) : Rec :=
  ⟨.acc, s.time.tick, a.spire, 0, packW [(0, a.spire % 65536), (16, a.part % 16), (20, a.path), (22, cause), (26, b2n a.wr)],
    [BitVec.ofNat 32 (a.addr % 2 ^ 24), a.data, BitVec.ofNat 32 held, s.keep.hosttag]⟩

/-- R516: the events of a cause and path not recorded since the last record, and whether that record is less than a millisecond old. -/
def accHeld (s : State) (cause path : Nat) : Nat × Bool :=
  match s.keep.accLast.find? fun x => x.1 == cause && x.2.1 == path with
  | some x => (x.2.2.2, decide (s.time.tick.toNat < x.2.2.1.toNat + 1000000))
  | none => (0, false)

def setAccLast (s : State) (cause path : Nat) (t : W64) (held : Nat) : State :=
  { s with keep := { s.keep with
    accLast := (s.keep.accLast.filter fun x => !(x.1 == cause && x.2.1 == path)) ++ [(cause, path, t, held)] } }

/-- R516: an event's record, at most one per cause and path in a millisecond but for CFGPAR. -/
def accWrite (s : State) (a : AccessInfo) (cause : Nat) : State :=
  let h := accHeld s cause a.path
  if h.2 ∧ cause ≠ acCfgpar then
    let t := ((s.keep.accLast.find? fun x => x.1 == cause && x.2.1 == a.path).map (·.2.2.1)).getD 0
    setAccLast s cause a.path t (h.1 + 1)
  else addRec (setAccLast s cause a.path s.time.tick 0) (accRecord s a cause h.1)

/-- R516: an event of causes 1 to 7: its bit of KEEP_ACCSTAT, its counter, its record. -/
def accEvent (s : State) (a : AccessInfo) (cause : Nat) : State :=
  accWrite { s with keep := { s.keep with
    accstat := s.keep.accstat ||| BitVec.ofNat 7 (2 ^ (cause - 1))
    accCnt := updAt s.keep.accCnt (cause - 1) (satAdd · 1) } } a cause

/-! ### Response codes (R497) -/

def rspOk : Nat := 0
def rspDenied : Nat := 1
def rspMalformed : Nat := 2
def rspNotavail : Nat := 3

/-! ### Writes of the KEEP page -/

/-- R513: KEEP_LOCK: the fields named by `mask` are written; one that is locked raises LOCKWR. -/
def lockWrite (s : State) (a : AccessInfo) (mask data : BitVec 4) : State :=
  let k := s.keep
  let take := mask &&& ~~~ k.locked
  let s1 := { s with keep := { k with lock := (k.lock &&& ~~~ take) ||| (data &&& take), locked := k.locked ||| mask } }
  if mask &&& k.locked = 0 then s1 else accEvent s1 a acLockwr

/-- R513: KEEP_HOSTTAG. -/
def hosttagWrite (s : State) (a : AccessInfo) (data : W32) : State :=
  if s.keep.hosttagLocked then accEvent s a acLockwr
  else { s with keep := { s.keep with hosttag := data, hosttagLocked := true } }

/-- R513: a lock that is set. -/
def lockSet (s : State) (b : Nat) : Bool := bitOf s.keep.lock b
def lkCmdMgmt : Nat := 0
def lkWcMgmt : Nat := 1
def lkTenantOff : Nat := 2
def lkEnFreeze : Nat := 3

/-- R512: partition 0 writes one of the bits ERG and TRC: a clear holds the unit in its safe state; a set asks for the reload that
CONFIG_RELOAD makes. -/
def unitBit (s : State) (u : Nat) (on : Bool) : State :=
  let k := s.keep
  if on then { s with keep := { k with unitOff := setFld k.unitOff u 1 0 } }
  else { s with keep := { k with
    unitEn := setFld k.unitEn u 1 0, unitOff := setFld k.unitOff u 1 1, safe := if k.safe.contains u then k.safe else k.safe ++ [u] } }

/-- R512, R513: a write of KEEP_UNIT_EN that reaches the bits of `mask`. -/
def unitEnWrite (s : State) (mask : List Nat) (data : W32) : State × Nat :=
  if lockSet s lkEnFreeze then (s, rspDenied)
  else (([uErg, uTrc].filter fun u => mask.contains u).foldl (fun s u => unitBit s u (bitOf data u)) s, rspOk)

/-- R507: a write of MBX_SEL starts a latch. -/
def mbxSelect (s : State) (who : Requester) (sel : BitVec 24) : State :=
  updMbx s (instOf who) fun m => { m with sel := sel, valid := false, err := 0, echo := sel, latching := true, data := List.replicate 12 0 }

/-- R401, R533: the right to a privileged command. -/
def mayCommand (s : State) (who : Requester) (w : W32) : Bool :=
  let p := partOf who
  let own := (getTile s (cmdSpire w)).isSome && partOfSp s (cmdSpire w) == p
  p == 0 || (match cmdOp w with
    | 1 => privBit s p 0 && own
    | 2 => privBit s p 2 && own
    | 3 | 4 => false
    | _ => true)

/-- R533: a write of KEEP_CMD. -/
def cmdWrite (s : State) (who : Requester) (w : W32) : State × Nat :=
  let cur := setFld (setFld w 28 1 0) 29 3 0
  if !cmdGo w then (updCmd s (instOf who) fun c => { c with cmd := cur }, rspOk)
  else if !mayCommand s who w || (lockSet s lkCmdMgmt && pathOf who == 0) then (s, rspDenied)
  else (issueCmd (updCmd s (instOf who) fun c => { c with cmd := cur }) (instOf who) cur, rspOk)

/-- A W1C write: the bits written 1 are cleared (R16). -/
def clear1 {n : Nat} (x : BitVec n) (d : W32) : BitVec n := x &&& ~~~ (BitVec.ofNat n d.toNat)

/-- A write of the KEEP page; RO fields ignore it (R16). -/
def keepWrite (s : State) (who : Requester) (a : AccessInfo) (o : Nat) (d : W32) : State × Nat :=
  let k := s.keep
  match o with
  | 0x00C => ({ s with keep := { k with alert := clear1 k.alert d } }, rspOk)
  | 0x034 => ({ s with keep := { k with clkloss := clear1 k.clkloss d } }, rspOk)
  | 0x040 => unitEnWrite s [uErg, uTrc] d
  | 0x048 => (lockWrite s a 0xF (BitVec.ofNat 4 d.toNat), rspOk)
  | 0x04C => (hosttagWrite s a d, rspOk)
  | 0x080 => ({ s with keep := { k with accstat := clear1 k.accstat d } }, rspOk)
  | 0x100 => (mbxSelect s who (BitVec.ofNat 24 d.toNat), rspOk)
  | 0x180 => (if bitOf d 0 then tallyAlloc s who else s, rspOk)
  | 0x200 => cmdWrite s who d
  | 0x204 => (updCmd s (instOf who) fun c => { c with arg := d }, rspOk)
  | _ =>
    if 0x90 ≤ o ∧ o ≤ 0xA8 then ({ s with keep := { k with accCnt := updAt k.accCnt ((o - 0x90) / 4) fun _ => d } }, rspOk) else (s, rspOk)

/-- R504, R505: an alias write acts on its bit alone. One to the wide field that locks, KEEP_HOSTTAG, is ignored with ALIASIGN, and raises LOCKWR
once the field is locked. -/
def aliasWrite (s : State) (who : Requester) (a : AccessInfo) (o b : Nat) (v : Bool) : State × Nat :=
  let one : W32 := BitVec.ofNat 32 (b2n v * 2 ^ b)
  match keepKind o b with
  | none => (s, rspOk)
  | some .ro | some .cnt => (accEvent s a acAliasign, rspOk)
  | some .woWide =>
    let s1 := accEvent s a acAliasign
    (if s.keep.hosttagLocked then accEvent s1 a acLockwr else s1, rspOk)
  | some .woOne => (lockWrite s a (BitVec.ofNat 4 (2 ^ b)) (BitVec.ofNat 4 one.toNat), rspOk)
  | some .w1c => keepWrite s who a o one
  | some .go => if v then keepWrite s who a o (setFld (keepWord s who o) b 1 1) else (s, rspOk)
  | some .rw =>
    if o = 0x040 then unitEnWrite s [b] one else keepWrite s who a o (setFld (keepWord s who o) b 1 (b2n v))

/-! ### Writes of the other pages -/

def updBelfry (s : State) (f : Belfry → Belfry) : State := { s with belfry := f s.belfry }

def blfWrite (s : State) (o : Nat) (d : W32) : State :=
  let t := s.time
  match o with
  | 0x00 => { s with time := { t with
      trefLost := t.trefLost && !bitOf d 2, ppsLost := t.ppsLost && !bitOf d 4, ppsDrift := t.ppsDrift && !bitOf d 5,
      tickslip := t.tickslip && !bitOf d 6, ofsdrift := t.ofsdrift && !bitOf d 7 } }
  | 0x10 => updBelfry s fun b => { b with cancelCnt := d }
  | 0x14 => updBelfry s fun b => { b with carryCnt := d }
  | 0x18 => updBelfry s fun b => { b with tickslipCnt := d }
  | 0x1C => updBelfry s fun b => { b with missCnt := d }
  | 0x20 => updBelfry s fun b => { b with ofsdriftCnt := d }
  | _ => s

/-- R388, R389: a write of CIS_BCMD: GO runs FILL at once, refuses, or starts a TEST whose patterns BANK_TEST ends. No command starts
while one runs. -/
def bcmdWrite (s : State) (d : W32) : State :=
  let bank := fld d 0 8
  let s1 := updCis s fun c => { c with bcmd := setFld c.bcmd 0 10 (fld d 0 10) }
  if !bitOf d 10 ∨ bitOf s.cistern.bcmd 14 then s1
  else match fld d 8 2 with
    | 1 => bankFill s1 bank
    | 2 => match bankRefusal s1 bank with
      | some r => bankResult s1 bank 2 r 0
      | none => updCis s1 fun c => { c with bcmd := setFld c.bcmd 14 1 1, testBank := some bank }
    | _ => s1

def cisWrite (s : State) (o : Nat) (d : W32) : State :=
  match o with
  | 0x00 => updCis s fun c => { c with ueSeen := c.ueSeen && !bitOf d 4, unwrSeen := c.unwrSeen && !bitOf d 5 }
  | 0x04 => bcmdWrite s d
  | 0x10 => updCis s fun c => { c with ceCnt := d }
  | 0x14 => updCis s fun c => { c with ueCnt := d }
  | 0x18 => updCis s fun c => { c with unwrCnt := d }
  | 0x1C => updCis s fun c => { c with scrubPass := d }
  | 0x20 => updCis s fun c => { c with scrubSuper := d }
  | 0x24 => updCis s fun c => { c with recDrop := d }
  | 0x28 => updCis s fun c => { c with wrstLost := d }
  | _ => if 0x140 ≤ o ∧ o < 0x180 then updCnt s ((o - 0x140) / 4) fun c => { c with cisQref := d } else s

def cvnWrite (s : State) (o : Nat) (d : W32) : State :=
  let c := s.caravan
  match o with
  | 0x00 => { s with caravan := { c with
      vstorm := c.vstorm && !bitOf d 1, seamdeg := c.seamdeg && !bitOf d 2, routefail := c.routefail && !bitOf d 3 } }
  | 0x10 => { s with caravan := { c with vlate := d } }
  | 0x14 => { s with caravan := { c with linkretry := d } }
  | 0x18 => { s with caravan := { c with sidemaj := d } }
  | 0x1C => { s with caravan := { c with fcrc := d } }
  | _ => s

def rplWrite (s : State) (o : Nat) (d : W32) : State :=
  if 0x100 ≤ o ∧ o < 0x500 then updCnt s ((o - 0x100) / 0x40) fun c => { c with rpl := updAt c.rpl (o % 0x40 / 4) fun _ => d } else s

def ergWrite (s : State) (who : Requester) (o : Nat) (d : W32) : State := if o = 4 ∧ bitOf d 0 then ergClear s who else s

def thmWrite (s : State) (o : Nat) (d : W32) : State :=
  let h := s.thermal
  if o = 0 then { s with thermal := { h with snsbad := h.snsbad && !bitOf d 8 } }
  else if 0x10 ≤ o ∧ o ≤ 0x28 then { s with thermal := { h with cnts := updAt h.cnts ((o - 0x10) / 4) fun _ => d } }
  else s

def banWrite (s : State) (o : Nat) (d : W32) : State :=
  match o % 0x20 with
  | 0x0 => updPort s (o / 0x20) fun p => { p with downev := p.downev && !bitOf d 25 }
  | 0x4 => updPort s (o / 0x20) fun p => { p with badfrm := d }
  | 0x8 => updPort s (o / 0x20) fun p => { p with naktx := d }
  | 0xC => updPort s (o / 0x20) fun p => { p with resend := d }
  | _ => s

def trcWrite (s : State) (who : Requester) (o : Nat) (d : W32) : State :=
  let t := s.trc
  match o with
  | 0x10 => { s with trc := { t with deepref := d } }
  | 0x14 => { s with trc := { t with ringlost := d } }
  | 0x18 => { s with trc := { t with dumps := d } }
  | 0x1C => { s with trc := { t with dumpref := d } }
  | 0x40 => { s with trc := { t with dctl := (d, t.dctl.2.1, t.dctl.2.2) } }
  | 0x44 => { s with trc := { t with dctl := (t.dctl.1, d, t.dctl.2.2) } }
  | 0x48 => dumpCommand s who d
  | _ => s

/-- R489, R513: a write of the MTR page. -/
def mtrWrite (s : State) (who : Requester) (o : Nat) (d : W32) : State × Nat :=
  let m := s.mtr
  if (o = 0x20 ∨ o = 0x24 ∨ o = 0x28) ∧ lockSet s lkWcMgmt ∧ pathOf who = 0 then (s, rspDenied)
  else (match o with
    | 0x00 => { s with mtr := { m with wallback := m.wallback && !bitOf d 0 } }
    | 0x10 => { s with mtr := { m with setCnt := d } }
    | 0x14 => { s with mtr := { m with backCnt := d } }
    | 0x20 => { s with mtr := { m with wcLo := d } }
    | 0x24 => { s with mtr := { m with wcHi := d } }
    | 0x28 => if bitOf d 0 then wallClockSet s else s
    | _ => s, rspOk)

/-- R529: the CNT fields of a partition's block are loaded. -/
def partWrite (s : State) (p k : Nat) (d : W32) : State :=
  let lo := BitVec.ofNat 16 (fld d 0 16)
  let hi := BitVec.ofNat 16 (fld d 16 16)
  updCnt s p fun c => match k with
    | 8 => { c with mirage := d }
    | 9 => { c with suspect := d }
    | 10 => { c with late := d }
    | 11 => { c with premise := d }
    | 12 => { c with deficit := d }
    | 13 => { c with envNokey := lo, ldOrphan := hi }
    | 14 => { c with attNosig := lo, attUnlic := hi }
    | 15 => { c with talRefused := lo, mtIgn := hi }
    | _ => c

/-- R531, R532: a write of a Tally's registers. -/
def talWrite (s : State) (t k : Nat) (d : W32) : State :=
  match k with
  | 0 => updTally s t fun x => { x with owner := BitVec.ofNat 16 (fld d 16 16) }
  | 2 => tallyTarget s t d
  | 3 =>
    let arg := BitVec.ofNat 16 (fld d 0 16)
    let s1 := updTally s t fun x => { x with arg := arg, op := BitVec.ofNat 3 (fld d 16 3) }
    if bitOf d 19 then tallyCmd s1 t (fld d 16 3) arg else s1
  | _ => s

/-- R463, R529, R528: the CNT fields of a Spire and TCLKLOSS; R502: while a slice runs the Dome's copy takes them, which the
Spire has again afterwards. -/
def sprWrite (s : State) (i o : Nat) (d : W32) : State :=
  updSp s i fun p =>
    if o < 0x3C then { p with cnt := updAt p.cnt (o / 4) fun _ => d }
    else if o = 0x44 then { p with watchCnt := BitVec.ofNat 8 (fld d 16 8) }
    else if o = 0x50 then { p with tap := { p.tap with clkLoss := p.tap.clkLoss && !bitOf d 30 } }
    else p

/-- A write at a place, once it is permitted: the state and the response code. -/
def writeLoc (s : State) (who : Requester) (a : AccessInfo) (l : Loc) (d : W32) : State × Nat :=
  match l with
  | .nowhere | .fus _ | .nvm _ | .dome _ _ => (s, rspOk)
  | .keep o => keepWrite s who a o d
  | .blf o => (blfWrite s o d, rspOk)
  | .cis o => (cisWrite s o d, rspOk)
  | .cvn o => (cvnWrite s o d, rspOk)
  | .rpl o => (rplWrite s o d, rspOk)
  | .erg o => (ergWrite s who o d, rspOk)
  | .thm o => (thmWrite s o d, rspOk)
  | .ban o => (banWrite s o d, rspOk)
  | .trc o => (trcWrite s who o d, rspOk)
  | .mtr o => mtrWrite s who o d
  | .part p k => (partWrite s p k d, rspOk)
  | .tal t k => (talWrite s t k d, rspOk)
  | .spr i o => (sprWrite s i o d, rspOk)
  | .alias_ o b => aliasWrite s who a o b (bitOf d 0)

/-! ### One access (R495 to R503, R513) -/

/-- The answer to an access. -/
structure Answer where
  st : State
  data : W32
  code : Nat

/-- An access that is not performed: its code is an event of R516. -/
def refuseAccess (s : State) (a : AccessInfo) (code : Nat) : Answer :=
  ⟨accEvent s a (if code = rspDenied then acDenied else if code = rspMalformed then acMalformed else acNotavail), 0, code⟩

/-- An access of either path: checked, then performed. -/
def access (s : State) (who : Requester) (wr : Bool) (addr : Nat) (data : W32) (parityOk : Bool) : Answer :=
  let l := locOf s addr
  let a : AccessInfo := ⟨partOf who, pathOf who, locSpire l, wr, addr, if wr then data else 0⟩
  if !parityOk ∨ addr % 4 ≠ 0 then refuseAccess s { a with spire := locSpire (locOf s (addr - addr % 4)) } rspMalformed
  else if !phaseServes s who wr l then refuseAccess s a rspNotavail
  else if partOf who ≠ 0 ∧ lockSet s lkTenantOff then refuseAccess s a rspDenied
  else if l = .nowhere then refuseAccess s a rspNotavail
  else if !mayAccess s who wr l then refuseAccess s a rspDenied
  else if spireGone s l then refuseAccess s a rspNotavail
  else if wr then
    let r := writeLoc s who a l data
    if r.2 = rspOk then ⟨r.1, 0, rspOk⟩ else refuseAccess r.1 a r.2
  else ⟨s, readLoc s who l, rspOk⟩

/-- The path is there: not before the release of COLD_RESET_N (R503), and the CSR port only with PCLK (R38). -/
def pathServes (s : State) (who : Requester) : Bool :=
  !s.pads.coldReset && (pathOf who == 1 || !s.keep.lostNow.contains .pclk)

/-- R497: an access, with its response where it came on the CSR port. -/
def request (s : State) (who : Requester) (wr : Bool) (addr : Nat) (data : W32) (tag : BitVec 4) (parityOk : Bool) : State :=
  if !pathServes s who then s
  else
    let r := access s who wr addr data parityOk
    if pathOf who = 0 then { r.st with csr := ⟨tag, r.data, BitVec.ofNat 2 r.code⟩ }
    else { r.st with mgmt := { r.st.mgmt with wstat := if wr then BitVec.ofNat 2 r.code else r.st.mgmt.wstat } }

/-- A write that its command names by the register alone; it carries no tag (log 9). -/
def namedWrite (s : State) (who : Requester) (addr : Nat) (data : W32) : State := request s who true addr data 0 true

/-! ### The mailbox (R356, R461, R507, R508, R526, R527) -/

/-- Up to six 64-bit values. -/
def vals64 (l : List W64) : List W32 := l.flatMap words64

/-- A byte string of 48 bytes from a big-endian number. -/
def string384 (x : Nat) : List W32 := words384 (leBytes 48 x).reverse

def bigGroup (s : State) (sel : Nat) : List W64 := ((s.big.find? fun g => g.1 == sel).map (·.2)).getD []

/-- R461: bytes over the seam edge above a Dome, the sums of the Domes below it. -/
def seamBytes (s : State) (d k : Nat) : W64 :=
  (((s.domes.filter fun x => atOrBelow s d 64 x.ix)).map fun x => x.big.getD k 0).foldl (· + ·) 0

def areaNat (s : State) (f : AreaParams → Nat) : W64 := BitVec.ofNat 64 (((area s).map f).getD 0)
def baseNat (s : State) (f : BaseParams → Nat) : W64 := BitVec.ofNat 64 ((s.image.map fun im => f im.base).getD 0)

/-- R526: identity and configuration. -/
def identValue (s : State) (sel : Nat) : List W32 :=
  let gib := 2 ^ 30
  match sel with
  | 0x00 => vals64 [s.fuses.uid, BitVec.ofNat 64 ((s.image.map (·.geom.dieId.toNat)).getD 0), s.imageSeq, s.imageBuild,
      BitVec.ofNat 64 (minSvn s.fuses), 0]
  | 0x01 => string384 (ecPublic s.fuses.idkey.toNat).1
  | 0x02 => string384 (ecPublic s.fuses.idkey.toNat).2
  | 0x03 => words384 s.imageHash
  | 0x04 => string384 s.fuses.tkeyHash.toNat
  | 0x05 => string384 s.fuses.ikeyHash0.toNat
  | 0x06 => string384 s.fuses.ikeyHash1.toNat
  | 0x10 => vals64 [((area s).map (·.nearBase)).getD 0, areaNat s (fun a => a.nearGiB * gib), ((area s).map (·.farBase)).getD 0,
      farGiB s * gib, 0, 0]
  | 0x11 => vals64 [baseNat s (·.oasis), baseNat s (·.nq), baseNat s (·.dlog), baseNat s (·.dump), baseNat s (·.mlog), baseNat s (·.trc)]
  | 0x12 => vals64 [baseNat s (·.trcSize), baseNat s (·.tdump), baseNat s (·.tdumpSize), baseNat s (·.tdumpFar), baseNat s (·.dumpSize), 0]
  | _ => []

/-- R356, R461: time, offsets and the label. -/
def timeValue (s : State) (sel : Nat) : List W32 :=
  match sel with
  | 0x100 => vals64 [s.time.tick]
  | 0x101 => vals64 [s.time.ppsLast]
  | 0x102 => vals64 [s.time.ppsPeriod]
  | 0x104 | 0x105 | 0x106 | 0x107 => vals64 [(getPort s (sel - 0x104)).ofs]
  | 0x108 => vals64 [labelAt s s.time.tick.toNat, s.mtr.baseTick, s.mtr.pnum, s.mtr.pstart, 0, 0]
  | _ => []

/-- R461: level, link, Cistern and pool counters. -/
def levelValue (s : State) (sel : Nat) : List W32 :=
  if sel < 0x240 then vals64 (((getDome s (sel - 0x200)).map fun d => d.big.take 6).getD [])
  else if sel < 0x2B0 then vals64 (bigGroup s sel)
  else if sel < 0x2F0 then vals64 [seamBytes s (sel - 0x2B0) 0, seamBytes s (sel - 0x2B0) 1]
  else if sel = 0x2F0 then vals64 s.near.big
  else if sel = 0x2F1 then vals64 s.far.big
  else if sel = 0x2F2 then vals64 [s.cistern.linesRead, s.cistern.linesWritten, s.cistern.siroccoLines]
  else if sel = 0x2F3 then vals64 (bigGroup s sel)
  else []

/-- R461: a Spire's groups. -/
def spireValue (s : State) (i g : Nat) : List W32 :=
  match getSp s i with
  | none => []
  | some p => if g = 0 then vals64 (p.big.take 6) else if g = 1 then vals64 (p.big.drop 6) else []

/-- The value of a selector, a reserved one's being empty. -/
def mbxValue (s : State) (sel : Nat) : List W32 :=
  if sel < 0x100 then identValue s sel
  else if sel < 0x200 then timeValue s sel
  else if sel < 0x400 then levelValue s sel
  else if sel < 0x410 then vals64 ((getPart s (sel - 0x400)).cnt.meters.take 6)
  else if sel < 0x420 then vals64 ((getPart s (sel - 0x410)).cnt.meters.drop 6)
  else if 0x10000 ≤ sel ∧ sel < 0x30000 then spireValue s ((sel - 0x10000) / 8) (sel % 8)
  else []

/-- R401, R464, R508, R526: whether a requester may read the item; a reserved selector denies nothing. -/
def mbxMay (s : State) (p sel : Nat) : Bool :=
  if p = 0 ∨ sel < 0x100 then true
  else if sel < 0x109 ∧ sel ≠ 0x103 then false
  else if 0x200 ≤ sel ∧ sel < 0x2F4 then (decide (0x2A4 ≤ sel) && decide (sel < 0x2B0))
  else if 0x400 ≤ sel ∧ sel < 0x420 then sel % 16 == p
  else if 0x10000 ≤ sel ∧ sel < 0x30000 ∧ sel % 8 < 2 ∧ (getSp s ((sel - 0x10000) / 8)).isSome then partOfSp s ((sel - 0x10000) / 8) == p
  else true

/-- R507, R508: the latch of an instance completes. -/
def mbxLatch (s : State) (who : Requester) : State :=
  let i := instOf who
  let m := getMbx s i
  if !m.latching then s
  else if mbxMay s (partOf who) m.echo.toNat then
    let s1 := if 0x10000 ≤ m.echo.toNat ∧ m.echo.toNat < 0x30000 then countCycles s ((m.echo.toNat - 0x10000) / 8) else s
    let v := mbxValue s1 m.echo.toNat
    updMbx s1 i fun m => { m with valid := true, err := 0, latching := false, data := (v ++ List.replicate 12 0).take 12 }
  else
    accEvent (updMbx s i fun m => { m with valid := true, err := 1, latching := false, data := List.replicate 12 0 })
      ⟨partOf who, pathOf who, 0xFFFF, true, 0x100, m.echo.zeroExtend 32⟩ acDenied

end Sys2Proof.Machine
end

