-- ==== Sys2Proof/Machine/Mgmt.lean ====
section
/-! DEFINITION. The management bus (R517 to R520): SMBus and I3C Basic target. -/

namespace Sys2Proof.Machine

/-- R517: the bus speaks I3C once an image that selects it is loaded. -/
def i3cMode (s : State) : Bool := ((area s).map (·.mgmtMode == 2)).getD false

/-- R517: the target address: MGMT_ADDR of the image, 0x5C until one is loaded. -/
def mgmtAddr (s : State) : BitVec 7 := ((area s).map (·.mgmtAddr)).getD 0x5C

/-- R517, R520: the address that the block answers: in I3C mode its dynamic address once it has one. -/
def busAnswers (s : State) (a : BitVec 7) : Bool :=
  !s.pads.coldReset && (match i3cMode s, s.mgmt.dyn with
    | true, some d => a == d
    | _, _ => a == mgmtAddr s)

/-- R503: the bus answers from the release of COLD_RESET_N, also while its pads are still released (DEDUCED, log 100). -/
def busServes (s : State) : Bool := !s.pads.coldReset

def updMgmt (s : State) (f : Mgmt → Mgmt) : State := { s with mgmt := f s.mgmt }

/-- R519, R520: the bytes of a read; after a malformed private write the next one is NACKed, once. -/
def deliver (s : State) (bs : List Byte) : State :=
  updMgmt s fun m => if m.nackOnce then { m with dataOut := [], nackOnce := false } else { m with dataOut := bs, nacked := none }

/-- R516, R519: a malformed transaction changes nothing but its count and record. On SMBus the first byte at which the fault shows is NACKed: the
command code, the count, the first byte of ADDR, LEN or the PEC; in I3C mode the fault is remembered for the next read. -/
def mgmtMalformed (s : State) (f : MgmtFault) : State :=
  if !busServes s then s
  else
    let s1 := accEvent s ⟨0, 1, 0xFFFF, true, s.mgmt.addr.toNat, 0⟩ acMalformed
    if i3cMode s then updMgmt s1 fun m => { m with nackOnce := true } else updMgmt s1 fun m => { m with nacked := some f }

def execMalformedTransaction (f : MgmtFault) (s : State) : Host.Outcome State Fault Refusal := .next (mgmtMalformed s f)

/-- R518, R519, R520: in I3C mode a private read after SETADDR returns what it brought (DEDUCED, log 110). -/
def execSetaddr (addr : BitVec 24) (len : Nat) (s : State) : Host.Outcome State Fault Refusal :=
  .next (if !busServes s then s
    else if addr.toNat % 4 ≠ 0 then mgmtMalformed s .addr
    else if len = 0 ∨ len > 7 then mgmtMalformed s .len
    else updMgmt s fun m => { m with
      addr := addr, len := len, nacked := none, dataOut := if i3cMode s then leBytes 3 addr.toNat ++ leBytes 1 len else [] })

/-- One word of READ: state, bytes and worst code so far. -/
def readWord (r : State × List Byte × Nat) : State × List Byte × Nat :=
  let x := access r.1 .mgmt false r.1.mgmt.addr.toNat 0 true
  (updMgmt x.st fun m => { m with addr := m.addr + 4 }, r.2.1 ++ leBytes 4 x.data.toNat, max r.2.2 x.code)

/-- R518: LEN words as CSR reads, then the worst response code of them; the greater code is the worse. -/
def execRead (s : State) : Host.Outcome State Fault Refusal :=
  .next (if !busServes s then s
    else
      let r := (List.range s.mgmt.len).foldl (fun r _ => readWord r) (s, [], 0)
      deliver r.1 (r.2.1 ++ [BitVec.ofNat 8 r.2.2]))

/-- R518: one CSR write at the pointer. -/
def execWrite (w : W32) (s : State) : Host.Outcome State Fault Refusal :=
  .next (if !busServes s then s
    else updMgmt (request s .mgmt true s.mgmt.addr.toNat w 0 true) fun m => { m with addr := m.addr + 4, nacked := none })

/-- R518: the response code of the last WRITE. -/
def execStatus (s : State) : Host.Outcome State Fault Refusal :=
  .next (if !busServes s then s else deliver s [BitVec.ofNat 8 s.mgmt.wstat.toNat])

/-- R518: the block releases the bus; what it was sending is dropped. -/
def execClockLowTimeout (s : State) : Host.Outcome State Fault Refusal :=
  .next (if i3cMode s then s else updMgmt s fun m => { m with dataOut := [] })

/-! ### I3C Basic (R520) -/

/-- R520: the provisional ID. -/
def provisionalId (s : State) : BitVec 48 :=
  BitVec.ofNat 48 (((area s).map (·.i3cMfr.toNat)).getD 0 * 2 ^ 33 + s.fuses.uid.toNat % 2 ^ 32)

/-- The provisional ID as it goes out, most significant byte first (log 32). -/
def pidBytes (s : State) : List Byte := (leBytes 6 (provisionalId s).toNat).reverse

/-- Values of the standard's registers that the manual does not give (log 5). -/
def freeBytes (s : State) (n : Nat) : List Byte × State := (leBytes n (Config.unstated s.rng).toNat, { s with rng := s.rng + 1 })

/-- A common command code in I3C mode. -/
def onI3c (s : State) (f : State → State) : State := if busServes s && i3cMode s then f s else s

/-- R520: a dynamic address is assigned, once: the block answers ENTDAA with its provisional ID, BCR and DCR. -/
def execEntdaa (dyn : BitVec 7) (s : State) : Host.Outcome State Fault Refusal :=
  .next (onI3c s fun s =>
    if s.mgmt.dyn.isSome then s
    else
      let r := freeBytes s 2
      updMgmt r.2 fun m => { m with dyn := some dyn, dataOut := pidBytes s ++ r.1 })

def execSetdasa (dyn : BitVec 7) (s : State) : Host.Outcome State Fault Refusal :=
  .next (onI3c s fun s => if s.mgmt.dyn.isSome then s else updMgmt s fun m => { m with dyn := some dyn })

def execRstdaa (s : State) : Host.Outcome State Fault Refusal := .next (onI3c s fun s => updMgmt s fun m => { m with dyn := none })

def execGetpid (s : State) : Host.Outcome State Fault Refusal := .next (onI3c s fun s => updMgmt s fun m => { m with dataOut := pidBytes s })

def execGetbcr (s : State) : Host.Outcome State Fault Refusal :=
  .next (onI3c s fun s => let r := freeBytes s 1
    updMgmt r.2 fun m => { m with dataOut := r.1 })

def execGetdcr (s : State) : Host.Outcome State Fault Refusal :=
  .next (onI3c s fun s => let r := freeBytes s 1
    updMgmt r.2 fun m => { m with dataOut := r.1 })

def execGetstatus (s : State) : Host.Outcome State Fault Refusal :=
  .next (onI3c s fun s => let r := freeBytes s 2
    updMgmt r.2 fun m => { m with dataOut := r.1 })

def execGetmxds (s : State) : Host.Outcome State Fault Refusal :=
  .next (onI3c s fun s => let r := freeBytes s 2
    updMgmt r.2 fun m => { m with dataOut := r.1 })

end Sys2Proof.Machine
end

