-- ==== Sys2Proof/Machine/Registers.lean ====
section
/-! DEFINITION. The commands of the register space: CSR reads and writes, the registers that have a row of their own, the mailbox,
Tally, privileged and bank commands, parity sweep and reload (R388, R484, R489, R493 to R516, R530 to R534). -/

namespace Sys2Proof.Machine

/-! ### CSR port (R495 to R505, R513) -/

def execCsrRead (r : CsrReq) (s : State) : Host.Outcome State Fault Refusal :=
  .next (request s r.who false r.addr.toNat r.wdata r.tag r.parityOk)

def execRegisterWrite (r : CsrReq) (s : State) : Host.Outcome State Fault Refusal :=
  .next (request s r.who true r.addr.toNat r.wdata r.tag r.parityOk)

/-- R504: a write in the alias window; the request's address names the bit. -/
def execAliasWrite (r : CsrReq) (s : State) : Host.Outcome State Fault Refusal :=
  .next (if 0x800000 ≤ r.addr.toNat ∧ r.addr.toNat < 0xA00000 then request s r.who true r.addr.toNat r.wdata r.tag r.parityOk else s)

/-- The address of a register of the KEEP page that the row names. -/
def aKeepLock : Nat := 0x48
def aKeepHosttag : Nat := 0x4C
def aKeepUnitEn : Nat := 0x40

def execKeepLockWrite (r : CsrReq) (s : State) : Host.Outcome State Fault Refusal :=
  .next (request s r.who true aKeepLock r.wdata r.tag r.parityOk)

def execKeepHosttagWrite (r : CsrReq) (s : State) : Host.Outcome State Fault Refusal :=
  .next (request s r.who true aKeepHosttag r.wdata r.tag r.parityOk)

def execKeepUnitEnWrite (r : CsrReq) (s : State) : Host.Outcome State Fault Refusal :=
  .next (request s r.who true aKeepUnitEn r.wdata r.tag r.parityOk)

/-! ### Mailbox (R507) -/

def execMbxSelWrite (who : Requester) (sel : BitVec 24) (s : State) : Host.Outcome State Fault Refusal :=
  .next (namedWrite s who 0x100 (sel.zeroExtend 32))

def execMbxLatchDone (who : Requester) (s : State) : Host.Outcome State Fault Refusal := .next (mbxLatch s who)

/-! ### Tallies (R530 to R532) -/

def aTalloc : Nat := 0x180
def aTally (t k : Nat) : Nat := 0x100000 + 16 * t + 4 * k

/-- TAL_CMD with GO. -/
def talCmdWord (op : Nat) (arg : W16) : W32 := packW [(0, arg.toNat), (16, op), (19, 1)]

/-- A Tally of the block; an index beyond them names no register (log 2). -/
def tallyWrite (s : State) (who : Requester) (t k : Nat) (d : W32) : State :=
  if t < Config.tallies then namedWrite s who (aTally t k) d else s

def execTallyAlloc (who : Requester) (s : State) : Host.Outcome State Fault Refusal := .next (namedWrite s who aTalloc 1)
def execAdd (who : Requester) (t : Nat) (arg : W16) (s : State) : Host.Outcome State Fault Refusal :=
  .next (tallyWrite s who t 3 (talCmdWord 1 arg))
def execWait (who : Requester) (t : Nat) (arg : W16) (s : State) : Host.Outcome State Fault Refusal :=
  .next (tallyWrite s who t 3 (talCmdWord 2 arg))
def execUnwait (who : Requester) (t : Nat) (arg : W16) (s : State) : Host.Outcome State Fault Refusal :=
  .next (tallyWrite s who t 3 (talCmdWord 3 arg))
def execFree (who : Requester) (t : Nat) (arg : W16) (s : State) : Host.Outcome State Fault Refusal :=
  .next (tallyWrite s who t 3 (talCmdWord 4 arg))
def execTalTargetWrite (who : Requester) (t : Nat) (v : W32) (s : State) : Host.Outcome State Fault Refusal :=
  .next (tallyWrite s who t 2 v)

/-! ### Other units' GO bits (R388, R484, R489, R493) -/

def aWcCtl : Nat := 0x0C0028
def aErgCtl : Nat := 0x060004
def aDctl : Nat := 0x0B0048
def aBcmd : Nat := 0x020004

def execWallClockSet (who : Requester) (s : State) : Host.Outcome State Fault Refusal := .next (namedWrite s who aWcCtl 1)
def execErgClear (who : Requester) (s : State) : Host.Outcome State Fault Refusal := .next (namedWrite s who aErgCtl 1)
/-- The word's GO is set: the row is the command. -/
def execDumpCommand (who : Requester) (w : W32) (s : State) : Host.Outcome State Fault Refusal :=
  .next (namedWrite s who aDctl (setFld w 21 1 1))

/-- CIS_BCMD with GO. -/
def bcmdWord (bank op : Nat) : W32 := packW [(0, bank % 256), (8, op), (10, 1)]

/-- R388: FILL by the operator or by firmware. -/
def execFill (who : Option Requester) (bank : Nat) (s : State) : Host.Outcome State Fault Refusal :=
  .next (match who with
    | some r => namedWrite s r aBcmd (bcmdWord bank 1)
    | none => bankFill s bank)

/-- R440 step 2: a bank's test is done. -/
def sdtBankDone (s : State) (bank : Nat) : State :=
  { s with thermal := { s.thermal with sdtBanks := s.thermal.sdtBanks.filter (· != bank) } }

/-- R388, R432: TEST by the operator or by firmware, with what its patterns find. A test that the operator's write did not start
has no result; firmware's row also ends one that REGISTER_WRITE started. -/
def execBankTest (who : Option Requester) (bank : Nat) (failLine : Option Nat) (s : State) : Host.Outcome State Fault Refusal :=
  .next (match who with
    | some r =>
      let s1 := namedWrite s r aBcmd (bcmdWord bank 2)
      if !bitOf s.cistern.bcmd 14 && bitOf s1.cistern.bcmd 14 then bankTestRun s1 bank failLine else s1
    | none => sdtBankDone (bankTestRun s bank failLine) bank)

/-! ### Privileged commands (R533) -/

def aCmd : Nat := 0x200

/-- KEEP_CMD with the row's OP and GO. -/
def cmdWord (w : W32) (op : Nat) : W32 := setFld (setFld w 24 3 op) 28 1 1

def execTest (who : Requester) (w : W32) (s : State) : Host.Outcome State Fault Refusal :=
  .next (namedWrite s who aCmd (cmdWord w cmdTest))
def execRelease (who : Requester) (w : W32) (s : State) : Host.Outcome State Fault Refusal :=
  .next (namedWrite s who aCmd (cmdWord w cmdRelease))
def execShutdown (who : Requester) (w : W32) (s : State) : Host.Outcome State Fault Refusal :=
  .next (namedWrite s who aCmd (cmdWord w cmdShutdown))
def execRepairClear (who : Requester) (w : W32) (s : State) : Host.Outcome State Fault Refusal :=
  .next (namedWrite s who aCmd (cmdWord w cmdRepairClear))

/-! ### Parity and reload (R509 to R512) -/

/-- The KEEP page among the units of a sweep. -/
def uKeep : Nat := 14

/-- R511: a unit whose mismatch, once it stays, is essential. -/
def essential (u : Nat) : Bool := u == uBlf || u == uFus || u == uPart

/-- R511: the mismatches of a unit within a second, this one included. -/
def recentPar (s : State) (u : Nat) : Nat :=
  (s.keep.cfgpar.filter fun x => x.1 == u && decide (s.time.tick.toNat < x.2.toNat + 1000000000)).length

/-- R510: a unit or an instance enters its safe state; the enable bit of a unit of the Keep clears. -/
def enterSafe (s : State) (u : Nat) : State :=
  let k := s.keep
  let s1 := { s with keep := { k with
    safe := if k.safe.contains u then k.safe else k.safe ++ [u], unitEn := if u < 12 then setFld k.unitEn u 1 0 else k.unitEn } }
  if u = uThm then driveLevel s1 else s1

/-- R511: a unit stays in its safe state, or its mismatch is essential. -/
def holdUnit (s : State) (u : Nat) (a : AccessInfo) : State :=
  if s.keep.unitHeld.contains u then s
  else
    let s1 := accWrite { s with keep := { s.keep with unitHeld := s.keep.unitHeld ++ [u] } } a acHeld
    let s2 := alert s1 alCfgpar
    if essential u then dieFault s2 dfUnit
    else if 65536 ≤ u then repairWanted (tileInput s2 0x15 (u - 65536) 0) (u - 65536) none
    else s2

/-- R510, R511: one mismatch, of a register by unit and address, found by the sweep or at a use. -/
def parityOne (s : State) (m : Nat × Nat) : State :=
  let u := m.1
  let a : AccessInfo := ⟨0, pathHardware, if 65536 ≤ u then u - 65536 else 0xFFFF, false, m.2, 0⟩
  let marked := if s.keep.badPar.contains m then s.keep.badPar else s.keep.badPar ++ [m]
  let s1 := accEvent { s with keep := { s.keep with cfgpar := s.keep.cfgpar ++ [(u, s.time.tick)], badPar := marked } } a acCfgpar
  if u = uKeep then keepWarmReset s1 2
  else
    let s2 := enterSafe s1 u
    if recentPar s2 u ≥ 3 then holdUnit s2 u a else s2

/-- R510: the sweep finds the mismatches. -/
def execParitySweep (bad : List (Nat × Nat)) (s : State) : Host.Outcome State Fault Refusal := .next (bad.foldl parityOne s)

/-- R509 to R512: the bit of a unit of the Keep is 1, or that of all Domes or all Spires is and the instance is in service. -/
def unitServes (s : State) (u : Nat) : Bool :=
  if u < 12 then bitOf s.keep.unitEn u else bitOf s.keep.unitEn (if u < 65536 then 12 else 13) && !inSafe s u

/-- R511: what a unit that is enabled again carries out. -/
def afterReload (s : State) (u : Nat) : State :=
  if u = uMtr then writeDeferred s
  else if u = uNvm ∧ s.nvm.repairPending then writeRepair s
  else if u = uThm then driveLevel s
  else s

/-- R509, R510, R512: firmware loads a unit again, which sets the parity of its registers, and sets its bit; a unit that is enabled ignores the
writes with CFG_REJ; one that R511 or partition 0 holds stays out. -/
def execConfigReload (c : CfgLoad) (s : State) : Host.Outcome State Fault Refusal :=
  let unit := c.unit
  .next (if !s.boot.firmware ∨ s.keep.kwrDown ∨ unit = uKeep then s
    else if unitServes s unit then accEvent s ⟨0, pathFirmware, if 65536 ≤ unit then unit - 65536 else 0xFFFF, true, c.addr.toNat, 0⟩ acCfgrej
    else if s.keep.unitHeld.contains unit ∨ (decide (unit < 12) && bitOf s.keep.unitOff unit) then s
    else
      let k := s.keep
      afterReload { s with keep := { k with
        safe := k.safe.filter (· != unit), badPar := k.badPar.filter (·.1 != unit), unitEn := if unit < 12 then setFld k.unitEn unit 1 1 else k.unitEn } } unit)

end Sys2Proof.Machine
end

