-- ==== Sys2Proof/Machine/Restart.lean ====
section
/-! DEFINITION. The end of a Keep warm reset: what firmware finds lost, the chains it rebuilds, its own code (R191, R278, R279, R387). -/

namespace Sys2Proof.Machine

/-- Words 2j, 2j+1 of a descriptor as a 64-bit value. -/
def w64At (ws : List W32) (j : Nat) : W64 := BitVec.ofNat 64 ((ws.getD j 0).toNat + 2 ^ 32 * (ws.getD (j + 1) 0).toNat)

/-- R256, R279: the generation that a descriptor in the near window describes, when its SHA-384 matches. -/
def genOf (m : Nat × List W32) : Option Gen :=
  let ws := m.2.take (fld (m.2.getD 0 0) 16 16)
  let hashed := ws.take 24 ++ ws.drop 36
  if (ws.drop 24).take 12 ≠ words384 (sha384 (hashed.flatMap fun w => leBytes 4 w.toNat)) then none
  else
    let tab := ws.drop 36
    some ⟨(w64At ws 1).toNat, m.1, BitVec.ofNat 16 (fld (ws.getD 6 0) 0 16), BitVec.ofNat 16 (fld (ws.getD 6 0) 16 16), ws.getD 7 0,
      BitVec.ofNat 16 (fld (ws.getD 8 0) 0 16), w64At ws 9, w64At ws 11, (w64At ws 13).toNat, w64At ws 15, w64At ws 17, w64At ws 4,
      (List.range (tab.length / 2)).map fun i => (tab.getD (2 * i) 0, (tab.getD (2 * i + 1) 0).toNat)⟩

/-- R279: a partition's chain from what firmware has read of its slots: the two highest GEN_FULL that verify, of those not released. -/
def rebuildChain (s : State) (p : Nat) : List Gen :=
  let mine := (s.keep.readback.filter fun m => m.1 == p).map (·.2)
  let gs := (mine.filterMap genOf).filter fun g => (getPart s p).gens.any fun h => h.num == g.num
  (gs.insertionSort fun a b => a.num ≥ b.num).take 2

/-- R381, R387: what a partition loses, by kind of the table of Cistern contents; a witness that waits to be archived is one of its kind. -/
def lostKinds (s : State) (p : Nat) : List Nat :=
  let q := getPart s p
  let xs := s.keep.lostSamples.filter fun x => x.part == p
  let archived := s.near.waiting.filter fun i => match i with
    | .witness uid _ => (getOp s uid).any fun o => o.part == p
    | _ => false
  [0, 0, (xs.filter fun x => x.lines != 0).length + archived.length, s.keep.drainLost.getD p 0, (xs.filter fun x => x.slot.isNone).length,
    (s.seals.filter fun e => e.key.part == p).length, (q.closed.filter fun c => !c.tds.isEmpty).length,
    q.dumpQ.length + (s.near.waiting.filter fun i => match i with
      | .trace a _ | .dump a _ => a == p
      | _ => false).length]

/-- R386: the lines a partition uses after the data banks were filled: waiting lists, records staged since, tag entries, and for
partition 0 the counts of counting peals, which survive (R351). -/
def useAfter (s : State) (p : Nat) : Nat :=
  let waits := (s.tallies.filter fun t => t.2.part == p).map fun t => linesOf (2 * t.2.waiters.length)
  let recs := ((s.near.waiting.filterMap evidenceOf).filter fun r => r.part == p).map recLines
  let tags := if (partCfg s p).isSome then (getPart s p).tags.length else 0
  let counts := if p = 0 then s.belfry.counts.length else 0
  waits.foldl (· + ·) 0 + recs.foldl (· + ·) 0 + 2 * tags + counts

/-- The data banks are filled again (R380): only the firmware banks keep their bytes. -/
def keepFirmware (m : List Host.Cell) : List Host.Cell := m.filter fun c => decide (c.1 < 2 * 2 ^ 23)

/-- R278, R279: one partition after a Keep warm reset. -/
def restartPart (s : State) (p : Nat) : State :=
  let kinds := lostKinds s p
  let s0 := addRec s ⟨.ciswr, s.time.tick, 0xFFFF, p, packW [(0, 0xFFFF), (16, p)], [BitVec.ofNat 32 p] ++ kinds.map (BitVec.ofNat 32)⟩
  let lost := (kinds.foldl (· + ·) 0) - kinds.getD 3 0
  let s1 := { s0 with cistern := { s0.cistern with wrstLost := satAdd s0.cistern.wrstLost lost } }
  let s2 := updPart s1 p fun q => { q with
    gens := rebuildChain s1 p, dumpQ := [], closed := q.closed.map fun c => { c with tds := [] } }
  let s3 := refuseSeal s2 p 0x0B
  match (getPart s3 p).rb with
  | none => s3
  | some r =>
    match (getPart s3 p).gens.head? with
    | some g => startRollback s3 p g { r.why with code := 5 } r.tried r.keepTicks r.fenceTicks
    | none => post (updPart s3 p fun q => { q with rb := none }) p .restart r.causeSpire [5]

/-! ### The firmware's code (R278) -/

/-- The first `n` bytes of a bank, as its check bits correct them. -/
def bankBytes (s : State) (bank n : Nat) : List Byte := (List.range n).map fun a => (readStored s bank a true).1.1

/-- R278: a copy of the code has the hash of the image's. -/
def copyGood (s : State) (bank : Nat) : Bool := sha384 (bankBytes s bank s.boot.fwLen) == s.boot.fwHash

/-- R278, R381: the code banks are checked against the image's hash: a copy that fails is written again from the other, which firmware runs
from. Where both fail the manual gives no effect beside the restart. -/
def checkCode (s : State) : State :=
  if s.boot.fwLen = 0 ∨ !mirrors s then s
  else match copyGood s 0, copyGood s 1 with
    | false, true => updCis (copyBank s 1 0) fun c => { c with execBank := true }
    | true, false => updCis (copyBank s 0 1) fun c => { c with execBank := false }
    | _, _ => s

/-! ### Restart (R191, R279) -/

/-- R191: the samples that the reset lost end INCONCLUSIVE with cause KEEPRST; no tracker stands. -/
def endLost (s : State) : State :=
  let lost := s.keep.lostSamples ++ s.samples
  let s1 := lost.foldl (fun s x => endSample s x.uid x.row rIncon 0x0D) { s with samples := lost }
  { s1 with
    samples := []
    keep := { s1.keep with lostSamples := [] } }

/-- A read of an oasis slot is still to come. -/
def readsSlots (m : MemPort) : Bool :=
  let isRead := fun i => match i with
    | NearItem.oasisRead _ _ => true
    | _ => false
  m.waiting.any isRead || (m.cur.any fun c => isRead c.item) || m.out.any fun r => isRead r.item

/-- What the refilled data banks lose of what waits for the near port. -/
def lostItem : NearItem → Bool
  | .trace _ _ | .dump _ _ | .witness _ _ => true
  | _ => false

/-- R387: the drain has still records to write; its end, or RECORD_DRAIN_TIMEOUT, comes before the data banks are filled again. -/
def drains (s : State) : Bool := s.keep.draining && !(s.near.waiting.filterMap evidenceOf).isEmpty

/-- R191, R279, R387: firmware has restarted, once it has read the oasis slots and the record drain has ended. -/
def execKeepRestart (s : State) : Host.Outcome State Fault Refusal :=
  .next (if !s.keep.kwrDown ∨ s.keep.dieFault ∨ readsSlots s.near ∨ drains s then s
    else
      let s1 := endLost ((List.range Config.parts).foldl restartPart (checkCode s))
      let s2 := { s1 with
        seals := []
        near := { s1.near with waiting := s1.near.waiting.filter fun i => !lostItem i }
        cistern := { s1.cistern with data := keepFirmware s1.cistern.data, check := keepFirmware s1.cistern.check }
        keep := { s1.keep with kwrDown := false, draining := false, drainLost := List.replicate 16 0, readback := [] } }
      let s3 := (List.range Config.parts).foldl (fun s p =>
        updCnt s p fun c => { c with cisUse := BitVec.ofNat 32 (useAfter s p) }) s2
      let s4 := postAll s3 .keepRestart [BitVec.ofNat 32 s.keep.kwrCause]
      { s4 with belfry := { s4.belfry with run := decide (s4.boot.step ≥ 5) } })

end Sys2Proof.Machine
end

