-- ==== Sys2Proof/Machine/Dispatch.lean ====
section
/-! DEFINITION. The one dispatch of commands to their meanings. -/

namespace Sys2Proof.Machine

def exec (i : Instr) (s : State) : Host.Outcome State Fault Refusal :=
  match i with
  | .descriptor sp d => Sys2Proof.Machine.execDescriptor sp d s
  | .operandBeat sp b injReq => Sys2Proof.Machine.execOperandBeat sp b injReq s
  | .ttInjReq sp => Sys2Proof.Machine.execTtInjReq sp s
  | .resultBeat sp b ckrow => Sys2Proof.Machine.execResultBeat sp b ckrow s
  | .ttResEnd sp b ckrow => Sys2Proof.Machine.execTtResEnd sp b ckrow s
  | .groupCompare sp => Sys2Proof.Machine.execGroupCompare sp s
  | .burstStall sp tag res => Sys2Proof.Machine.execBurstStall sp tag res s
  | .burstTimeout sp tag res => Sys2Proof.Machine.execBurstTimeout sp tag res s
  | .ttFenceAck sp => Sys2Proof.Machine.execTtFenceAck sp s
  | .fenceAckTimeout sp => Sys2Proof.Machine.execFenceAckTimeout sp s
  | .heartbeatLoss sp => Sys2Proof.Machine.execHeartbeatLoss sp s
  | .ttProgChange sp gray => Sys2Proof.Machine.execTtProgChange sp gray s
  | .ttRstAck sp => Sys2Proof.Machine.execTtRstAck sp s
  | .ttReady sp => Sys2Proof.Machine.execTtReady sp s
  | .rstAckTimeout sp => Sys2Proof.Machine.execRstAckTimeout sp s
  | .readyTimeout sp => Sys2Proof.Machine.execReadyTimeout sp s
  | .tileRst sp => Sys2Proof.Machine.execTileRst sp s
  | .weightSegment port hdr beats drop => Sys2Proof.Machine.execWeightSegment port hdr beats drop s
  | .engineRow eng => Sys2Proof.Machine.execEngineRow eng s
  | .memtapLine l => Sys2Proof.Machine.execMemtapLine l s
  | .linkEgressMessage m => Sys2Proof.Machine.execLinkEgressMessage m s
  | .linkIngressMessage m => Sys2Proof.Machine.execLinkIngressMessage m s
  | .sealFrame h b => Sys2Proof.Machine.execSealFrame h b s
  | .sealWait k => Sys2Proof.Machine.execSealWait k s
  | .cadenceWord w => Sys2Proof.Machine.execCadenceWord w s
  | .ckptOpen p => Sys2Proof.Machine.execCkptOpen p s
  | .ckptWritten p => Sys2Proof.Machine.execCkptWritten p s
  | .ckptRead p => Sys2Proof.Machine.execCkptRead p s
  | .restoreBegin p => Sys2Proof.Machine.execRestoreBegin p s
  | .restoreEnd p => Sys2Proof.Machine.execRestoreEnd p s
  | .jobStart p => Sys2Proof.Machine.execJobStart p s
  | .belfryTick => Sys2Proof.Machine.execBelfryTick s
  | .timerPeal ix => Sys2Proof.Machine.execTimerPeal ix s
  | .countWindowClose ix key => Sys2Proof.Machine.execCountWindowClose ix key s
  | .countingPealFire ix key => Sys2Proof.Machine.execCountingPealFire ix key s
  | .fenceFrame sp f side => Sys2Proof.Machine.execFenceFrame sp f side s
  | .testOn sp f side => Sys2Proof.Machine.execTestOn sp f side s
  | .testOff sp f side => Sys2Proof.Machine.execTestOff sp f side s
  | .deadFrame sp f side => Sys2Proof.Machine.execDeadFrame sp f side s
  | .releaseFrame sp f side => Sys2Proof.Machine.execReleaseFrame sp f side s
  | .retire sp f side => Sys2Proof.Machine.execRetire sp f side s
  | .fenceDone sp fseq => Sys2Proof.Machine.execFenceDone sp fseq s
  | .fenceReissue sp => Sys2Proof.Machine.execFenceReissue sp s
  | .domePoll dome missed => Sys2Proof.Machine.execDomePoll dome missed s
  | .timeBeacon spires domes => Sys2Proof.Machine.execTimeBeacon spires domes s
  | .progressFrame dome map => Sys2Proof.Machine.execProgressFrame dome map s
  | .hangTimeout sp => Sys2Proof.Machine.execHangTimeout sp s
  | .stragglerPeriod p => Sys2Proof.Machine.execStragglerPeriod p s
  | .sampleNotice sp => Sys2Proof.Machine.execSampleNotice sp s
  | .witnessFragment sp => Sys2Proof.Machine.execWitnessFragment sp s
  | .resultCapture sp => Sys2Proof.Machine.execResultCapture sp s
  | .replayCompare slot => Sys2Proof.Machine.execReplayCompare slot s
  | .replayDeadline slot => Sys2Proof.Machine.execReplayDeadline slot s
  | .confirmationDeadline slot => Sys2Proof.Machine.execConfirmationDeadline slot s
  | .arbitration slot => Sys2Proof.Machine.execArbitration slot s
  | .engineSelfTest eng => Sys2Proof.Machine.execEngineSelfTest eng s
  | .engineTestDone eng pass => Sys2Proof.Machine.execEngineTestDone eng pass s
  | .scrsum sp => Sys2Proof.Machine.execScrsum sp s
  | .expprof sp => Sys2Proof.Machine.execExpprof sp s
  | .digop sp => Sys2Proof.Machine.execDigop sp s
  | .rerunDeadline sp stag epoch => Sys2Proof.Machine.execRerunDeadline sp stag epoch s
  | .sealTimeout p => Sys2Proof.Machine.execSealTimeout p s
  | .rollbackRepost p => Sys2Proof.Machine.execRollbackRepost p s
  | .rollbackTimeout p => Sys2Proof.Machine.execRollbackTimeout p s
  | .hangGraphDone stalled => Sys2Proof.Machine.execHangGraphDone stalled s
  | .hangDumpDone => Sys2Proof.Machine.execHangDumpDone s
  | .dumpBudget => Sys2Proof.Machine.execDumpBudget s
  | .computeReset => Sys2Proof.Machine.execComputeReset s
  | .computeResetDone => Sys2Proof.Machine.execComputeResetDone s
  | .progressReturnTimeout => Sys2Proof.Machine.execProgressReturnTimeout s
  | .keepWatchdog => Sys2Proof.Machine.execKeepWatchdog s
  | .recordDrainTimeout => Sys2Proof.Machine.execRecordDrainTimeout s
  | .keepRestart => Sys2Proof.Machine.execKeepRestart s
  | .tallyAlloc who => Sys2Proof.Machine.execTallyAlloc who s
  | .add who t arg => Sys2Proof.Machine.execAdd who t arg s
  | .wait who t arg => Sys2Proof.Machine.execWait who t arg s
  | .unwait who t arg => Sys2Proof.Machine.execUnwait who t arg s
  | .free who t arg => Sys2Proof.Machine.execFree who t arg s
  | .talTargetWrite who t v => Sys2Proof.Machine.execTalTargetWrite who t v s
  | .digest h b => Sys2Proof.Machine.execDigest h b s
  | .dcmpWait p era step layer => Sys2Proof.Machine.execDcmpWait p era step layer s
  | .tdlist h part era step layer tds => Sys2Proof.Machine.execTdlist h part era step layer tds s
  | .hello h b => Sys2Proof.Machine.execHello h b s
  | .ack h => Sys2Proof.Machine.execAck h s
  | .nak h expected => Sys2Proof.Machine.execNak h expected s
  | .retransmitTimeout port => Sys2Proof.Machine.execRetransmitTimeout port s
  | .ackIdle port => Sys2Proof.Machine.execAckIdle port s
  | .time h b => Sys2Proof.Machine.execTime h b s
  | .timeCheck port => Sys2Proof.Machine.execTimeCheck port s
  | .launchProp h t num => Sys2Proof.Machine.execLaunchProp h t num s
  | .launchAck h num => Sys2Proof.Machine.execLaunchAck h num s
  | .launchNak h num => Sys2Proof.Machine.execLaunchNak h num s
  | .launchCommit h num => Sys2Proof.Machine.execLaunchCommit h num s
  | .launchAbort h num => Sys2Proof.Machine.execLaunchAbort h num s
  | .launchCommitDeadline => Sys2Proof.Machine.execLaunchCommitDeadline s
  | .launchTime => Sys2Proof.Machine.execLaunchTime s
  | .launchPulseEnd => Sys2Proof.Machine.execLaunchPulseEnd s
  | .attestationSign p => Sys2Proof.Machine.execAttestationSign p s
  | .timerefLoss => Sys2Proof.Machine.execTimerefLoss s
  | .timerefRelock => Sys2Proof.Machine.execTimerefRelock s
  | .holdoverMeasure ppb => Sys2Proof.Machine.execHoldoverMeasure ppb s
  | .ppsEdge => Sys2Proof.Machine.execPpsEdge s
  | .ppsTimeout => Sys2Proof.Machine.execPpsTimeout s
  | .flitCrcFail l f => Sys2Proof.Machine.execFlitCrcFail l f s
  | .backlogReport sp wit rec bulk => Sys2Proof.Machine.execBacklogReport sp wit rec bulk s
  | .grantInterval dome vrate => Sys2Proof.Machine.execGrantInterval dome vrate s
  | .cisternRead use x => Sys2Proof.Machine.execCisternRead use x s
  | .cisternWrite addr data held => Sys2Proof.Machine.execCisternWrite addr data held s
  | .rowRemap bank row => Sys2Proof.Machine.execRowRemap bank row s
  | .scrubSliceDone => Sys2Proof.Machine.execScrubSliceDone s
  | .fill who bank => Sys2Proof.Machine.execFill who bank s
  | .bankTest who bank failLine => Sys2Proof.Machine.execBankTest who bank failLine s
  | .coldResetNAssert => Sys2Proof.Machine.execColdResetNAssert s
  | .pwrGoodLoss => Sys2Proof.Machine.execPwrGoodLoss s
  | .alwaysOnRailLoss => Sys2Proof.Machine.execAlwaysOnRailLoss s
  | .coldResetNRelease => Sys2Proof.Machine.execColdResetNRelease s
  | .fuseRead r => Sys2Proof.Machine.execFuseRead r s
  | .timerefWaitTimeout => Sys2Proof.Machine.execTimerefWaitTimeout s
  | .pllLockTimeout => Sys2Proof.Machine.execPllLockTimeout s
  | .nvmDiscovery d => Sys2Proof.Machine.execNvmDiscovery d s
  | .imageCheck r => Sys2Proof.Machine.execImageCheck r s
  | .firmwareStart => Sys2Proof.Machine.execFirmwareStart s
  | .clocksAndCaravan taps net => Sys2Proof.Machine.execClocksAndCaravan taps net s
  | .memories badBanks badEngines badSpires => Sys2Proof.Machine.execMemories badBanks badEngines badSpires s
  | .seamQualification edges => Sys2Proof.Machine.execSeamQualification edges s
  | .banenQualification q => Sys2Proof.Machine.execBanenQualification q s
  | .banWait port => Sys2Proof.Machine.execBanWait port s
  | .banenRetry port => Sys2Proof.Machine.execBanenRetry port s
  | .waveRelease => Sys2Proof.Machine.execWaveRelease s
  | .ready => Sys2Proof.Machine.execReady s
  | .timerefRelockTimeout => Sys2Proof.Machine.execTimerefRelockTimeout s
  | .idcode => Sys2Proof.Machine.execIdcode s
  | .samplePreload capture => Sys2Proof.Machine.execSamplePreload capture s
  | .extest => Sys2Proof.Machine.execExtest s
  | .clamp => Sys2Proof.Machine.execClamp s
  | .highz => Sys2Proof.Machine.execHighz s
  | .bypass op => Sys2Proof.Machine.execBypass op s
  | .manufacturingTest op => Sys2Proof.Machine.execManufacturingTest op s
  | .donePoll u done => Sys2Proof.Machine.execDonePoll u done s
  | .sliceDone u r us => Sys2Proof.Machine.execSliceDone u r us s
  | .sliceTimeout u => Sys2Proof.Machine.execSliceTimeout u s
  | .snapshotWrite => Sys2Proof.Machine.execSnapshotWrite s
  | .sdtComplete => Sys2Proof.Machine.execSdtComplete s
  | .sensorReading dome ix count => Sys2Proof.Machine.execSensorReading dome ix count s
  | .levelFall dome ix => Sys2Proof.Machine.execLevelFall dome ix s
  | .meterPeriodClose => Sys2Proof.Machine.execMeterPeriodClose s
  | .wallClockSet who => Sys2Proof.Machine.execWallClockSet who s
  | .ergClear who => Sys2Proof.Machine.execErgClear who s
  | .dumpCommand who w => Sys2Proof.Machine.execDumpCommand who w s
  | .dumpDone p => Sys2Proof.Machine.execDumpDone p s
  | .mbxSelWrite who sel => Sys2Proof.Machine.execMbxSelWrite who sel s
  | .mbxLatchDone who => Sys2Proof.Machine.execMbxLatchDone who s
  | .registerWrite r => Sys2Proof.Machine.execRegisterWrite r s
  | .aliasWrite r => Sys2Proof.Machine.execAliasWrite r s
  | .keepLockWrite r => Sys2Proof.Machine.execKeepLockWrite r s
  | .keepHosttagWrite r => Sys2Proof.Machine.execKeepHosttagWrite r s
  | .keepUnitEnWrite r => Sys2Proof.Machine.execKeepUnitEnWrite r s
  | .paritySweep bad => Sys2Proof.Machine.execParitySweep bad s
  | .configReload c => Sys2Proof.Machine.execConfigReload c s
  | .setaddr addr len => Sys2Proof.Machine.execSetaddr addr len s
  | .read => Sys2Proof.Machine.execRead s
  | .write w => Sys2Proof.Machine.execWrite w s
  | .status => Sys2Proof.Machine.execStatus s
  | .clockLowTimeout => Sys2Proof.Machine.execClockLowTimeout s
  | .entdaa dyn => Sys2Proof.Machine.execEntdaa dyn s
  | .setdasa dyn => Sys2Proof.Machine.execSetdasa dyn s
  | .rstdaa => Sys2Proof.Machine.execRstdaa s
  | .getpid => Sys2Proof.Machine.execGetpid s
  | .getbcr => Sys2Proof.Machine.execGetbcr s
  | .getdcr => Sys2Proof.Machine.execGetdcr s
  | .getstatus => Sys2Proof.Machine.execGetstatus s
  | .getmxds => Sys2Proof.Machine.execGetmxds s
  | .test who w => Sys2Proof.Machine.execTest who w s
  | .notidleTimeout who => Sys2Proof.Machine.execNotidleTimeout who s
  | .release who w => Sys2Proof.Machine.execRelease who w s
  | .shutdown who w => Sys2Proof.Machine.execShutdown who w s
  | .repairClear who w => Sys2Proof.Machine.execRepairClear who w s
  | .clockLoss c => Sys2Proof.Machine.execClockLoss c s
  | .npResponse far tag code data => Sys2Proof.Machine.execNpResponse far tag code data s
  | .memerrTimeout far tag => Sys2Proof.Machine.execMemerrTimeout far tag s
  | .writeRetry far tag => Sys2Proof.Machine.execWriteRetry far tag s
  | .clockReturn c => Sys2Proof.Machine.execClockReturn c s
  | .ttIdleChange sp idle => Sys2Proof.Machine.execTtIdleChange sp idle s
  | .csrRead r => Sys2Proof.Machine.execCsrRead r s
  | .banenBadFrame port => Sys2Proof.Machine.execBanenBadFrame port s
  | .malformedTransaction f => Sys2Proof.Machine.execMalformedTransaction f s
  | .ppsAlignTimeout => Sys2Proof.Machine.execPpsAlignTimeout s

end Sys2Proof.Machine
end

