-- ==== Sys2Proof/Safety.lean ====
section
/-! DEFINITION. What a safe run is, in the terms the claims use: the form every state of a run keeps, and a run that never stops. -/

namespace Sys2Proof.Machine

/-- The fixed numbers of things the manual gives the block (R29, R359, R420, R523, R529): 16 partitions, 64 engines, 4 Banen ports,
32 Cistern banks, and a mailbox, an allocation answer and a privileged command for each of the 17 requesters. -/
structure State.Sized (s : State) : Prop where
  parts : s.parts.length = 16
  engines : s.engines.length = 64
  ports : s.ports.length = 4
  banks : s.cistern.banks.length = 32
  mbx : s.keep.mbx.length = 17
  talloc : s.keep.talloc.length = 17
  cmd : s.keep.cmd.length = 17

/-- Both memories of the Cistern, its bytes and their check bits, are in the one form that makes equal memories equal data. -/
structure State.CisternWf (s : State) : Prop where
  data : Memory.wf unData s.cistern.data = true
  check : Memory.wf unCheck s.cistern.check = true

/-- What every state of a run keeps. -/
structure State.Inv (s : State) : Prop where
  sized : s.Sized
  cistern : s.CisternWf

/-- What only cold reset takes back in the Keep: FAULT_N and DIE_FAULT (R274), the shut-down (R440), units held in their safe state
(R511), KEEP_HOSTTAG and the fields of KEEP_LOCK once they are locked (R513); and the numbers of `State.Sized` that lie in the Keep. -/
structure KeepSt.Lasts (k l : KeepSt) : Prop where
  mbx : l.mbx.length = k.mbx.length
  talloc : l.talloc.length = k.talloc.length
  cmd : l.cmd.length = k.cmd.length
  fault : k.fault = true → l.fault = true
  dieFault : k.dieFault = true → l.dieFault = true
  shutdown : k.shutdown = true → l.shutdown = true
  held : ∀ u ∈ k.unitHeld, u ∈ l.unitHeld
  tagLocked : k.hosttagLocked = true → l.hosttagLocked = true
  hosttag : k.hosttagLocked = true → l.hosttag = k.hosttag
  locked : ∀ b, k.locked.getLsbD b = true → l.locked.getLsbD b = true
  lock : ∀ b, k.locked.getLsbD b = true → l.lock.getLsbD b = k.lock.getLsbD b

/-- R399, R402, R413, R444: what may happen to the fuse array: bits are blown, and a bit that is blown stays so, in every region. -/
def FuseGrows (f g : FuseArray) : Prop := fuseOr f g = g

/-- R458: a light counter of a Spire after `n` more events: it counts from the end of bring-up step 2 on. -/
def counted (s : State) (c : W32) (n : Nat) : W32 := if countsOn s then satAdd c n else c

/-- The commands that are a cold reset (R396, R397, R455). -/
def coldResets (c : Instr) : Bool :=
  match c with
  | .coldResetNAssert | .pwrGoodLoss | .alwaysOnRailLoss => true
  | _ => false

/-- R495 to R503, R513: an access that is performed: its path is there, its address is aligned, the phase of bring-up serves it, the
tenants are not locked out, the place exists, the requester has the right, and the Spire of a Spire page is there. -/
def admitted (s : State) (who : Requester) (wr : Bool) (addr : Nat) : Bool :=
  pathServes s who && decide (addr % 4 = 0) && phaseServes s who wr (locOf s addr) &&
    !(decide (partOf who ≠ 0) && lockSet s lkTenantOff) && decide (locOf s addr ≠ .nowhere) && mayAccess s who wr (locOf s addr) &&
    !spireGone s (locOf s addr)

/-- The response of a performed access stands where its requester sees it: on the CSR port, or, for a write of the management
path, in WSTAT. -/
def answeredOk (t : State) (who : Requester) (tag : BitVec 4) (data : W32) : Prop :=
  match who with
  | .csr _ => t.csr = ⟨tag, data, 0⟩
  | .mgmt => t.mgmt.wstat = 0

/-- A run of `k` steps from `s` in which no step ends in a fault or a refusal. -/
def SafeRun : Nat → State → Prop
  | 0, _ => True
  | k + 1, s => ∃ t, step s = .next t ∧ SafeRun k t

end Sys2Proof.Machine
end

