-- ==== Sys2Proof/WellFormed.lean ====
section
/-! DEFINITION. The ranges of the commands' operands (R29, R359, R500, R518, R529, R531): indices within the geometry's maxima, byte strings of
the length they claim. -/

namespace Sys2Proof

/-- R29: a Spire index of the largest instance. -/
def spireOk (i : Nat) : Bool := decide (i < 16384)
def domeOk (d : Nat) : Bool := decide (d < 64)
def partOk (p : Nat) : Bool := decide (p < 16)
def wportOk (q : Nat) : Bool := decide (q < 16)
def mtapOk (q : Nat) : Bool := decide (q < 16)
def ltapOk (q : Nat) : Bool := decide (q < 64)
def banPortOk (q : Nat) : Bool := decide (q < 4)
def engineOk (e : Nat) : Bool := decide (e < 64)
def pealOk (i : Nat) : Bool := decide (i < 4096)
def bankOk (b : Nat) : Bool := decide (b < 256)
def tallyOk (t : Nat) : Bool := decide (t < 8192)
/-- R174: a tracker slot. -/
def slotOk (i : Nat) : Bool := decide (i < 4096)
/-- R359: a router of a Dome's 16 × 16 mesh. -/
def localOk (i : Nat) : Bool := decide (i < 256)

/-- R506: a requester is a partition on the CSR port or the management bus. -/
def whoOk : Requester → Bool
  | .csr p => partOk p
  | .mgmt => true

/-- A key of a running count: a Spire, or 65536 + a partition. -/
def countKeyOk (k : Nat) : Bool := spireOk k || (decide (65536 ≤ k) && partOk (k - 65536))

def linkOk : LinkId → Bool
  | .mesh d a b => domeOk d && localOk a && localOk b
  | .seam d g _ => domeOk d && decide (g < 32)

def hdrOkBan (h : BanHdr) : Bool := banPortOk h.port

def clkOk : HostClk → Bool
  | .tclk sp => spireOk sp
  | .wclk q => wportOk q
  | _ => true

def unitOk : TestUnit → Bool
  | .tile sp => spireOk sp
  | .engine e => engineOk e

/-- R381: the partition of what a Cistern read is for. -/
def useOk : CisUse → Bool
  | .tileDigests p _ _ _ _ | .trace p _ | .dump p _ => partOk p
  | .sealEntry k => partOk k.part
  | .witness _ _ | .record _ | .overflow _ _ | .firmware _ _ => true

/-- A command whose operands lie in their ranges. -/
def WellFormed : Instr → Bool
  | .descriptor sp _ | .operandBeat sp _ _ | .ttInjReq sp | .resultBeat sp _ _ | .ttResEnd sp _ _ | .groupCompare sp | .burstStall sp _ _
  | .burstTimeout sp _ _ | .ttFenceAck sp | .fenceAckTimeout sp | .heartbeatLoss sp | .ttProgChange sp _ | .ttRstAck sp | .ttReady sp
  | .rstAckTimeout sp | .readyTimeout sp | .tileRst sp | .fenceFrame sp _ _ | .testOn sp _ _ | .testOff sp _ _ | .deadFrame sp _ _
  | .releaseFrame sp _ _ | .retire sp _ _ | .fenceDone sp _ | .fenceReissue sp | .hangTimeout sp | .sampleNotice sp | .witnessFragment sp
  | .resultCapture sp | .scrsum sp | .expprof sp | .digop sp | .rerunDeadline sp _ _ | .ttIdleChange sp _ => spireOk sp
  | .weightSegment q _ _ _ => wportOk q
  | .engineRow e | .engineSelfTest e | .engineTestDone e _ => engineOk e
  | .memtapLine l => mtapOk l.point && partOk l.part
  | .linkEgressMessage m | .linkIngressMessage m => ltapOk m.tap
  | .sealFrame h b => hdrOkBan h && partOk b.key.part
  | .sealWait k => partOk k.part
  | .cadenceWord _ | .belfryTick => true
  | .ckptOpen p | .ckptWritten p | .ckptRead p | .restoreBegin p | .restoreEnd p | .jobStart p | .stragglerPeriod p | .sealTimeout p
  | .rollbackRepost p | .rollbackTimeout p | .dcmpWait p _ _ _ | .attestationSign p | .dumpDone p => partOk p
  | .timerPeal i => pealOk i
  | .countWindowClose i k | .countingPealFire i k => pealOk i && countKeyOk k
  | .domePoll d m => domeOk d && m.all spireOk
  | .timeBeacon sp d => sp.all (fun x => spireOk x.ix) && d.all fun x => domeOk x.ix
  | .progressFrame d _ | .grantInterval d _ => domeOk d
  | .replayCompare i | .replayDeadline i | .confirmationDeadline i | .arbitration i => slotOk i
  | .hangGraphDone l => l.all fun e => spireOk e.1 && decide (e.2 < 7)
  | .hangDumpDone | .dumpBudget | .computeReset | .computeResetDone | .progressReturnTimeout | .keepWatchdog | .recordDrainTimeout | .keepRestart => true
  | .tallyAlloc w | .wallClockSet w | .ergClear w | .mbxLatchDone w | .notidleTimeout w => whoOk w
  | .add w t _ | .wait w t _ | .unwait w t _ | .free w t _ | .talTargetWrite w t _ => whoOk w && tallyOk t
  | .digest h b => hdrOkBan h && partOk b.part
  | .tdlist h p _ _ _ tds => hdrOkBan h && partOk p && tds.all fun x => spireOk x.1.toNat
  | .hello h _ | .ack h | .nak h _ | .time h _ | .launchProp h _ _ | .launchAck h _ | .launchNak h _ | .launchCommit h _
  | .launchAbort h _ => hdrOkBan h
  | .retransmitTimeout q | .ackIdle q | .timeCheck q | .banWait q | .banenRetry q | .banenBadFrame q => banPortOk q
  | .launchCommitDeadline | .launchTime | .launchPulseEnd | .timerefLoss | .timerefRelock | .holdoverMeasure _ | .ppsEdge | .ppsTimeout => true
  | .flitCrcFail l _ => linkOk l
  | .backlogReport sp _ _ _ => spireOk sp
  | .cisternRead u x => useOk u && decide (x.len ≤ 64)
  | .cisternWrite _ d _ => decide (d.length ≤ 64)
  | .rowRemap b r => decide (b < 32) && decide (r < 8192)
  | .scrubSliceDone => true
  | .fill w b => (w.map whoOk).getD true && bankOk b
  | .bankTest w b l => (w.map whoOk).getD true && bankOk b && (l.map fun x => decide (x < 131072)).getD true
  | .coldResetNAssert | .pwrGoodLoss | .alwaysOnRailLoss | .coldResetNRelease | .fuseRead _ | .timerefWaitTimeout | .pllLockTimeout
  | .nvmDiscovery _ | .imageCheck _ | .firmwareStart => true
  | .clocksAndCaravan taps n => taps.all (fun t => spireOk t.1) && n.downLinks.all linkOk && n.domeLoops.all (fun x => domeOk x.1) && n.spireLoops.all (fun x => spireOk x.1) &&
    n.sweep.all fun x => if x.1 then domeOk x.2.1 else spireOk x.2.1
  | .memories b e sp => b.all (fun x => decide (x < 32)) && e.all (fun x => engineOk x.1) && sp.all fun x => spireOk x.1
  | .seamQualification es => es.all fun e => domeOk e.dome
  | .banenQualification q => banPortOk q.port
  | .waveRelease | .ready | .timerefRelockTimeout | .idcode | .samplePreload _ | .extest | .clamp | .highz => true
  | .bypass op => !(decide (1 ≤ op.toNat) && decide (op.toNat ≤ 5)) && !(decide (0x80 ≤ op.toNat) && decide (op.toNat ≤ 0xBF))
  | .manufacturingTest p => decide (0x80 ≤ p.op.toNat) && decide (p.op.toNat ≤ 0xBF)
  | .donePoll u _ | .sliceDone u _ _ | .sliceTimeout u => unitOk u
  | .snapshotWrite | .sdtComplete | .meterPeriodClose => true
  | .sensorReading d ix _ | .levelFall d ix => if d then domeOk ix else spireOk ix
  | .dumpCommand w _ | .mbxSelWrite w _ | .test w _ | .release w _ | .shutdown w _ | .repairClear w _ => whoOk w
  | .registerWrite r | .keepLockWrite r | .keepHosttagWrite r | .keepUnitEnWrite r | .csrRead r => whoOk r.who
  | .aliasWrite r => whoOk r.who && decide (0x800000 ≤ r.addr.toNat) && decide (r.addr.toNat < 0xA00000)
  | .paritySweep bad => bad.all fun x => decide (x.1 < 65536 + 16384) && decide (x.2 < 2 ^ 24)
  | .configReload c => decide (c.unit < 65536 + 16384)
  | .setaddr a n => decide (1 ≤ n) && decide (n ≤ 7) && decide (a.toNat % 4 = 0)
  | .read | .write _ | .status | .clockLowTimeout | .entdaa _ | .setdasa _ | .rstdaa | .getpid | .getbcr | .getdcr | .getstatus | .getmxds => true
  | .clockLoss c | .clockReturn c => clkOk c
  | .npResponse _ _ _ _ | .memerrTimeout _ _ | .writeRetry _ _ => true
  | .malformedTransaction _ | .ppsAlignTimeout => true

end Sys2Proof
end

