-- ==== Sys2Proof/Certificates/Slice0/Obligations.lean ====
section
/-! DEFINITION. The statements for the provers. A clause of the form `t = { s with … := t.… }` is a frame: every part of the state not
named in it stands. -/

open Sys2Proof Sys2Proof.Machine

/-- For every command c and state s: a step of s with c at the front of its queue is exec c on s with the queue's rest.
(95_what_each_step_holds.md) -/
def Obligations.StepRunsTheFrontCommand : Prop :=
  ∀ (s : State) (c : Instr) (rest : List Instr), s.pending = c :: rest → step s = exec c { s with pending := rest }

/-- (The model's reading of time, logs 3 and 11.) With no command waiting a step answers a next state in which the fabric tick is
one higher while the counter runs, and the same while it does not; the memory ports may issue what waits: each request outstanding
before is outstanding after, each item waiting before, or being issued, waits, is being issued or has requests outstanding after,
unless it has nothing to write any more, and where a port's clock is lost or bring-up has not passed step 3 that port issues
nothing. Nothing else but the use of the Cistern's lines and the draws of free values changes. (09_belfry_and_time.md) -/
def Obligations.IdleStep : Prop :=
  ∀ (s : State), s.pending = [] →
    ∃ t, step s = .next t ∧ t.time = (if s.time.run = true then { s.time with tick := s.time.tick + 1 } else s.time) ∧
      t = { s with time := t.time, near := t.near, far := t.far, parts := t.parts, rng := t.rng } ∧
      (∀ p, getPart t p = { getPart s p with cnt := { (getPart s p).cnt with cisUse := (getPart t p).cnt.cisUse } }) ∧
      (∀ far, let goesOn := fun i : NearItem => (memPort t far).cur.map (·.item) = some i ∨ ∃ r ∈ (memPort t far).out, r.item = i ∧ r.retries = 0
        (∀ r ∈ (memPort s far).out, r ∈ (memPort t far).out) ∧
        (∀ i ∈ (memPort s far).waiting, i ∈ (memPort t far).waiting ∨ goesOn i ∨ itemTotal s i = 0) ∧
        (∀ c, (memPort s far).cur = some c → goesOn c.item) ∧
        (portClock s far = false ∨ s.boot.step ≤ 3 → (memPort t far).out = (memPort s far).out ∧ (memPort t far).cur = (memPort s far).cur ∧
          (memPort s far).waiting <+: (memPort t far).waiting))

/-- After reset no command waits; bring-up is at step 0 and not READY with no failure; COLD_RESET_N is asserted; no alert, no
access event, no lost clock, no unit enable, no lock and no host tag stands, and no unit is in its safe state; the throttle level
is the deepest; the fabric counter, the Belfry and Banen ports do not run; no Tally is held, no operation, sample or sealed
generation stands, and no image is loaded; the TAP's instruction is IDCODE. The reset state meets the invariant. (The model's
readings: values that the manual does not give are those of log 1.) (14_csr_model.md; 15_register_reference.md;
11_bringup_nvm_licences.md) -/
def Obligations.ResetState : Prop :=
  State.reset.pending = [] ∧ State.reset.boot.step = 0 ∧ State.reset.boot.ready = false ∧ State.reset.boot.fail = 0 ∧ State.reset.pads.coldReset = true ∧
    State.reset.keep.alert = 0 ∧ State.reset.keep.accstat = 0 ∧ State.reset.keep.clkloss = 0 ∧ State.reset.keep.unitEn = 0 ∧ State.reset.keep.lock = 0 ∧
    State.reset.keep.locked = 0 ∧ State.reset.keep.hosttag = 0 ∧ State.reset.keep.safe = [] ∧ State.reset.keep.fault = false ∧
    State.reset.thermal.level = 3 ∧ State.reset.time.run = false ∧ State.reset.belfry.run = false ∧ (∀ p ∈ State.reset.ports, p.up = false) ∧
    State.reset.tallies = [] ∧ State.reset.ops = [] ∧ State.reset.samples = [] ∧ (∀ q ∈ State.reset.parts, q.gens = [] ∧ q.window = none ∧ q.rb = none) ∧
    State.reset.image = none ∧ State.reset.pads.ir = 0x01 ∧ State.reset.Inv

/-- Every command, whatever its operands and in every state, answers a next state and leaves the queue of waiting commands as it
was, and the count of free values drawn never goes back; so a run of any length from any state never stops. (The model's readings:
a command that cannot happen has no effect, logs 2 and 79; no fault or refusal is used, log 78.) (95_what_each_step_holds.md) -/
def Obligations.EveryCommandCompletes : Prop :=
  (∀ (c : Instr) (s : State), ∃ t, exec c s = .next t ∧ t.pending = s.pending ∧ s.rng ≤ t.rng) ∧ (∀ (k : Nat) (s : State), SafeRun k s)

/-- The invariant: 16 partitions, 64 engines, 4 Banen ports, 32 Cistern banks, 17 mailboxes, 17 allocation answers and 17
privileged-command instances; and the Cistern's bytes and their check bits each in canonical form, addresses strictly rising and
no entry equal to what an unlisted byte reads as. From every state that meets it, whatever command waits first, a step gives a
state that meets it. (The model's readings: what an unlisted byte reads as is log 6.) (01_architecture.md;
10_caravan_and_cistern.md) -/
def Obligations.StepKeepsInvariant : Prop :=
  ∀ (s t : State), s.Inv → step s = .next t → t.Inv

/-- No command but an assertion of COLD_RESET_N, a loss of PWR_GOOD or a loss of the always-on rail, whatever its operands,
deasserts FAULT_N, ends DIE_FAULT or starts the Belfry it stopped, ends the shut-down, releases a unit held in its safe state,
changes KEEP_HOSTTAG or a field of KEEP_LOCK that is locked, clears the thermal latch, leaves a failed bring-up, or exchanges the
loaded image, or undoes a good fuse read; and no command whatever, a cold reset among them, clears a fuse bit that is blown. (The
model's readings: fuse bits once blown stay, log 7; a lost PWR_GOOD is a cold reset, log 59.) (05_replay.md;
07_oasis_and_recovery.md; 11_bringup_nvm_licences.md; 12_selftest_and_thermal.md; 14_csr_model.md) -/
def Obligations.OnlyColdResetUndoes : Prop :=
  (∀ (c : Instr) (s t : State), exec c s = .next t → FuseGrows s.fuses t.fuses) ∧
  ∀ (c : Instr) (s t : State), coldResets c = false → exec c s = .next t →
    s.keep.Lasts t.keep ∧ (s.keep.dieFault = true → s.belfry.run = false → t.belfry.run = false) ∧ (s.pads.thermtrip = true → t.pads.thermtrip = true) ∧
    (s.boot.step = 7 → s.pads.coldReset = false → t.boot.step = 7 ∧ t.pads.coldReset = false) ∧ (s.image ≠ none → t.image = s.image) ∧
    (s.boot.readOk = true → t.boot.readOk = true)

/-- With an image loaded and each tile's index its own: whatever step the block takes, other than a cold reset, every tile that
was DEAD is DEAD after it, and every tile that was RETIRED is RETIRED or DEAD; no tile is added or lost. (The model's readings:
commands out of their place change nothing, log 2.) (06_verdicts_and_quarantine.md; 12_selftest_and_thermal.md) -/
def Obligations.DeadAndRetiredTiles : Prop :=
  ∀ (s t : State), s.image ≠ none → (s.tiles.map (·.ix)).Nodup → (∀ c rest, s.pending = c :: rest → coldResets c = false) → step s = .next t →
    t.tiles.map (·.ix) = s.tiles.map (·.ix) ∧ (∀ i, getTile s i ≠ none → stateOf s i = stDead → stateOf t i = stDead) ∧
    (∀ i, stateOf s i = stRetired → stateOf t i = stRetired ∨ stateOf t i = stDead)

/-- On a live tap outside fence transit and with no pass open, a DESCRIPTOR that fails no check of R91 answers ACK; the Spire
holds an open operation of its tag with the number of the acknowledgement, LATE exactly when its epoch is earlier than the
Spire's; the Keep holds the same operation for the tile's partition; the Spire's OPS count goes up by one, from the end of
bring-up step 2 on (R458); no other Spire changes. (The model's readings: operations are numbered, log 13.) (02_tile_tap.md) -/
def Obligations.DescriptorAccepted : Prop :=
  ∀ (s : State) (ix : Nat) (sp : Spire) (d : Dsc), getSp s ix = some sp → stopped s ix = false → tapLive s sp = true →
    sp.lv.ft = false → sp.pass = none → dscCheck s sp d = none → sp.cnt.length = 15 → (∀ o ∈ s.ops, o.uid ≠ s.opSeq) →
    ∃ t sp' o v, exec (.descriptor ix d) s = .next t ∧ getSp t ix = some sp' ∧ sp'.answer = .ack ∧
      o ∈ sp'.ops ∧ o.uid = s.opSeq ∧ o.dsc = d ∧ o.closed = false ∧ o.late = earlierThan (dEpoch d) sp.epoch ∧
      sp'.ops.length = sp.ops.length + 1 ∧ sp'.cnt.getD kOps 0 = counted s (sp.cnt.getD kOps 0) 1 ∧
      getOp t s.opSeq = some v ∧ v.dsc = d ∧ v.spire = ix ∧ v.part = partOfSp s ix ∧ v.ackTick = s.time.tick ∧
      t.opSeq = s.opSeq + 1 ∧ (∀ j, j ≠ ix → getSp t j = getSp s j) ∧
      t = { s with spires := t.spires, ops := t.ops, opSeq := t.opSeq, parts := t.parts, tiles := t.tiles, tickets := t.tickets,
                   caravan := t.caravan, near := t.near, trc := t.trc }

/-- On a live tap outside fence transit and with no pass open, a DESCRIPTOR that fails a check of R91 answers NACK with the code
of the first failing check; no operation opens in the Spire or in the Keep; UNCHK and VIOL count it; a fifth descriptor is also a
coverage deficit of the partition; a descriptor whose CRC is bad has code 0x01; every open tag stays open. (The model's readings:
a contract that is not declared refuses every MATMUL, log 27.) (02_tile_tap.md) -/
def Obligations.DescriptorRefused : Prop :=
  ∀ (s : State) (ix : Nat) (sp : Spire) (d : Dsc) (code : Byte), getSp s ix = some sp → stopped s ix = false → tapLive s sp = true →
    sp.lv.ft = false → sp.pass = none → dscCheck s sp d = some code → sp.cnt.length = 15 →
    (dCrcOk d = false → code = 0x01) ∧
    ∃ t sp', exec (.descriptor ix d) s = .next t ∧ getSp t ix = some sp' ∧ sp'.answer = .nack code ∧ sp'.ops = sp.ops ∧
      dStag d ∈ sp'.refused ∧ sp'.cnt.getD kUnchk 0 = counted s (sp.cnt.getD kUnchk 0) 1 ∧
      sp'.cnt.getD kViol 0 = counted s (sp.cnt.getD kViol 0) 1 ∧ sp'.cnt.getD kOps 0 = sp.cnt.getD kOps 0 ∧
      (code = 0x05 → partOfSp s ix < s.parts.length →
        (getPart t (partOfSp s ix)).cnt.deficit = satAdd (getPart s (partOfSp s ix)).cnt.deficit 1) ∧
      t.ops = s.ops ∧ t.opSeq = s.opSeq ∧ (∀ j, j ≠ ix → getSp t j = getSp s j) ∧ t.tiles = s.tiles ∧ t.cistern.data = s.cistern.data

/-- With no inject slot open, the stream not torn, no burst of another tag held and no pass of another operation begun: an
OPERAND_BEAT of an open MATMUL that is not checkable, in a pass that is due and with which its row keeps its length, adds the
beat's bytes to that operation's operand bytes, and changes no other state than the Spire and the draws of free values. One of a
checkable MATMUL, in a pass that is due and not ended, adds for each of its elements that is finite and within the window floor(W
/ 2^38) to the s-accumulator of its K position, a saturated term where it is above the window, and nothing where it is not finite;
the other s-accumulators stand, and while no window is placed and no K block ends all of them stand. A beat with which a row of
either gets a wrong length, or of a pass beyond the last, closes the operation with cause ROWS unless a cause stands, with TAPVIOL
0x11. A beat whose tag is of no open operation and of no refused one is ignored and counted, with TAPVIOL 0x10; a beat whose tag
is of a refused descriptor is ignored and counted, also where an open operation has that tag or an inject slot is open; a beat of
an open operation while an inject slot stays open closes the slot's operation, with TAPVIOL 0x12. (The model's readings: the rows
of an OPAQUE operand, log 15; passes, log 23; corners of the s-accumulator, log 114.) TT_INJ_REQ after the last row of a pass
answers with the checksum row of that pass, opens the operation's inject slot and ends the pass; with no pass open it is answered
by TT_INJ_NACK, with TAPVIOL 0x20 counted unless a TORN operation may still make it, which uses that request up; in no case does
an operation open or close. (Which operation such a request is of: log 86.) (The model's readings: TT_INJ_REQ comes with the
operand beat, log 22; when a slot ends, log 111.) (02_tile_tap.md) -/
def Obligations.OperandsAndInjection : Prop :=
  ((∀ (s : State) (ix : Nat) (sp : Spire) (b : Beat) (r : Bool) (o : OpCtx), getSp s ix = some sp → tapLive s sp = true → sp.lv.ft = false →
    sp.injSlot = none → (b.tag, false) ∉ sp.torn → b.tag ∉ sp.refused → (∀ x ∈ openOps sp, x.opRow.stalled = true → dStag x.dsc = b.tag) →
    (∀ x ∈ openOps sp, midPass x = true → dStag x.dsc = b.tag) →
    sp.pass = none → findOpen sp b.tag = some o → dMatmul o.dsc = true → o.checkable = false →
    (dA o.dsc = .opq ∨ (o.passesDone < dPasses o.dsc ∧
      (beatTake (perBeat (dA o.dsc) (beatBits sp.tap.ver)) (dPassLen o.dsc o.passesDone) o.opRow.col b.last).2 = false)) →
    ∃ t sp' o', exec (.operandBeat ix b r) s = .next t ∧ getSp t ix = some sp' ∧ findOpen sp' b.tag = some o' ∧
      o'.opBytes = o.opBytes + tapBytes sp ∧ o'.uid = o.uid ∧ (∀ j, j ≠ ix → getSp t j = getSp s j) ∧
      t = { s with spires := t.spires, rng := t.rng }) ∧
  (∀ (s : State) (ix : Nat) (sp : Spire) (b : Beat) (r : Bool) (o : OpCtx) (ps : PassSt), getSp s ix = some sp → tapLive s sp = true →
    sp.lv.ft = false → sp.injSlot = none → (b.tag, false) ∉ sp.torn → b.tag ∉ sp.refused →
    (∀ x ∈ openOps sp, x.opRow.stalled = true → dStag x.dsc = b.tag) → (∀ x ∈ openOps sp, midPass x = true → dStag x.dsc = b.tag) →
    (∀ p, sp.pass = some p → p.tag = b.tag) → findOpen sp b.tag = some o → dMatmul o.dsc = true → o.checkable = true → o.passesDone < dPasses o.dsc →
    ps = sp.pass.getD (newPass o.dsc o.passesDone) → ps.ended = false →
    let f := dA o.dsc
    let len := dPassLen o.dsc o.passesDone
    let n := (beatTake (perBeat f (beatBits sp.tap.ver)) len ps.pos.col b.last).1
    let c := (opEnv s sp o.dsc).ctr
    let elem := fun i => decodeInput f (ctrDaz c) (ctrFzPos c) (elemOf f b.data i) (sclOf b.scl (i / 32))
    (beatTake (perBeat f (beatBits sp.tap.ver)) len ps.pos.col b.last).2 = false →
    ∃ t sp' ps', exec (.operandBeat ix b r) s = .next t ∧ getSp t ix = some sp' ∧ sp'.pass = some ps' ∧ ps'.tag = ps.tag ∧
      ps'.acc.length = ps.acc.length ∧
      (∀ w, ps.top = some w → ps'.top = some w ∧ ∀ k, k < ps.acc.length → ps'.acc.getD k 0 = ps.acc.getD k 0 +
        (if ps.pos.col ≤ k ∧ k < ps.pos.col + n then
          match elem (k - ps.pos.col) with
          | .fin neg m x => if m = 0 then 0 else if overWindow w m x then satW neg / 2 ^ 38 else floorTo neg m x (w - 66)
          | _ => 0
        else 0)) ∧
      (ps.top = none → (∀ i, i < n → (ps.pos.col + i) % 32 ≠ 31 ∧ ps.pos.col + i + 1 ≠ len) → ps'.top = none ∧ ps'.acc = ps.acc) ∧
      (∀ j, j ≠ ix → getSp t j = getSp s j) ∧ t = { s with spires := t.spires, rng := t.rng, caravan := t.caravan }) ∧
  (∀ (s : State) (ix : Nat) (sp : Spire) (b : Beat) (r : Bool) (o : OpCtx), getSp s ix = some sp → tapLive s sp = true → sp.lv.ft = false →
    sp.injSlot = none → (b.tag, false) ∉ sp.torn → b.tag ∉ sp.refused → (∀ x ∈ openOps sp, x.opRow.stalled = true → dStag x.dsc = b.tag) →
    (∀ x ∈ openOps sp, midPass x = true → dStag x.dsc = b.tag) → (∀ p, sp.pass = some p → p.tag = b.tag ∧ p.ended = false) →
    findOpen sp b.tag = some o → dMatmul o.dsc = true → dA o.dsc ≠ .opq →
    (dPasses o.dsc ≤ o.passesDone ∨ (beatTake (perBeat (dA o.dsc) (beatBits sp.tap.ver)) (dPassLen o.dsc o.passesDone)
      (if o.checkable then (sp.pass.getD (newPass o.dsc o.passesDone)).pos.col else o.opRow.col) b.last).2 = true) →
    ∃ t sp' o', exec (.operandBeat ix b r) s = .next t ∧ getSp t ix = some sp' ∧ o' ∈ sp'.ops ∧ o'.uid = o.uid ∧ o'.closed = true ∧
      o'.closure = some (o.closure.getD .rows) ∧ o'.endTick = s.time.tick ∧ sp'.viol = (0x11, 0x0210) ∧
      (∀ j, j ≠ ix → getSp t j = getSp s j) ∧ t.ops = s.ops ∧ t.cistern.data = s.cistern.data) ∧
  (∀ (s : State) (ix : Nat) (sp : Spire) (b : Beat) (o x : OpCtx), getSp s ix = some sp → tapLive s sp = true → sp.lv.ft = false →
    sp.injSlot = some o.uid → (b.tag, false) ∉ sp.torn → b.tag ∉ sp.refused → (∀ y ∈ openOps sp, y.opRow.stalled = true → dStag y.dsc = b.tag) →
    findOpen sp b.tag = some x → (sp.ops.find? fun y => !y.closed && y.uid == o.uid) = some o →
    ∃ t sp' o', exec (.operandBeat ix b true) s = .next t ∧ getSp t ix = some sp' ∧ o' ∈ sp'.ops ∧ o'.uid = o.uid ∧ o'.closed = true ∧
      o'.closure = some (o.closure.getD .rows) ∧ sp'.injSlot = none ∧ sp'.viol = (0x12, 0x0210) ∧
      (∀ j, j ≠ ix → getSp t j = getSp s j) ∧ t.ops = s.ops ∧ t.cistern.data = s.cistern.data) ∧
  (∀ (s : State) (ix : Nat) (sp : Spire) (b : Beat) (r : Bool), getSp s ix = some sp → tapLive s sp = true → sp.lv.ft = false →
    (b.tag, false) ∉ sp.torn → findOpen sp b.tag = none → b.tag ∉ sp.refused → sp.cnt.length = 15 →
    (∀ x ∈ openOps sp, x.opRow.stalled = false) →
    ∃ t sp', exec (.operandBeat ix b r) s = .next t ∧ getSp t ix = some sp' ∧ sp'.ops = sp.ops ∧ sp'.viol = (0x10, 0x0210) ∧
      sp'.cnt.getD kIgn 0 = counted s (sp.cnt.getD kIgn 0) 1 ∧ sp'.cnt.getD kViol 0 = counted s (sp.cnt.getD kViol 0) 1 ∧
      (∀ j, j ≠ ix → getSp t j = getSp s j) ∧ t.ops = s.ops ∧ t.cistern.data = s.cistern.data) ∧
  (∀ (s : State) (ix : Nat) (sp : Spire) (b : Beat), getSp s ix = some sp → tapLive s sp = true → sp.lv.ft = false →
    (∀ x ∈ openOps sp, x.opRow.stalled = true → dStag x.dsc = b.tag) → b.tag ∈ sp.refused → exec (.operandBeat ix b true) s = .next (spCount s ix kIgn 1))) ∧
  ((∀ (s : State) (ix : Nat) (sp : Spire) (ps : PassSt) (o : OpCtx), getSp s ix = some sp → tapLive s sp = true → sp.lv.ft = false →
    sp.pass = some ps → findOpen sp ps.tag = some o → ps.ended = true →
    ∃ t sp' o', exec (.ttInjReq ix) s = .next t ∧ getSp t ix = some sp' ∧
      sp'.answer = .inject (packBeats sp.tap.ver (dA o.dsc) (ckRow (opEnv s sp o.dsc) o.dsc ps).codes (ckRow (opEnv s sp o.dsc) o.dsc ps).scales) ∧
      sp'.injSlot = some o.uid ∧ sp'.pass = none ∧ findOpen sp' ps.tag = some o' ∧ o'.passesDone = o.passesDone + 1 ∧
      (∀ j, j ≠ ix → getSp t j = getSp s j) ∧ t = { s with spires := t.spires, rng := t.rng }) ∧
  (∀ (s : State) (ix : Nat) (sp : Spire), getSp s ix = some sp → tapLive s sp = true → sp.lv.ft = false → sp.pass = none →
    (∀ x ∈ sp.tornOps, x.2 = 0) → sp.cnt.length = 15 →
    ∃ t sp', exec (.ttInjReq ix) s = .next t ∧ getSp t ix = some sp' ∧ sp'.answer = .injNack ∧ sp'.injSlot = none ∧ sp'.ops = sp.ops ∧
      sp'.viol = (0x20, 0x0210) ∧ sp'.cnt.getD kViol 0 = counted s (sp.cnt.getD kViol 0) 1 ∧ t.ops = s.ops ∧ t.cistern.data = s.cistern.data) ∧
  (∀ (s : State) (ix : Nat) (sp : Spire) (x : W16 × Nat), getSp s ix = some sp → tapLive s sp = true → sp.lv.ft = false → sp.pass = none →
    sp.tornOps = [x] → 0 < x.2 →
    ∃ t, exec (.ttInjReq ix) s = .next t ∧ t = { s with spires := t.spires } ∧
      getSp t ix = some { sp with answer := .injNack, injSlot := none, tornOps := [(x.1, x.2 - 1)] }))

/-- With no result burst of another tag held: a RESULT_BEAT of an open operation (with CKROW only on a checkable one or on a
version 2 tap) adds the beat's bytes to that operation's result bytes; a CKROW beat of one that is not checkable, on a version 3
tap, is left out of its rows and digests and recorded once as TAPVIOL 0x31; the operation stays open, but for a checkable
operation's beat that gives its row a wrong length, which closes it with cause ROWS unless a cause stands. The beat of TT_RES_END
closes every open operation of its number, at the fabric tick of the beat. (The model's readings: what TAPVIOL 0x31 does, log 16;
beats ignored, log 24.) (02_tile_tap.md) -/
def Obligations.ResultBeats : Prop :=
  (∀ (s : State) (ix : Nat) (sp : Spire) (b : Beat) (c : Bool) (o : OpCtx), getSp s ix = some sp → tapLive s sp = true → sp.lv.ft = false →
    (∀ x ∈ openOps sp, x.resRow.stalled = true → dStag x.dsc = b.tag) →
    findOpen sp b.tag = some o → (o.checkable = true ∨ c = false ∨ sp.tap.ver = 2) →
    (o.checkable = false ∨ dC o.dsc = .opq ∨
      (beatTake (perBeat (dC o.dsc) (beatBits sp.tap.ver)) (dN o.dsc) (posOf o (isCkBeat sp o c)).col b.last).2 = false) →
    ∃ t sp' o', exec (.resultBeat ix b c) s = .next t ∧ getSp t ix = some sp' ∧ findOpen sp' b.tag = some o' ∧ o'.uid = o.uid ∧
      o'.resBytes = o.resBytes + tapBytes sp ∧ (∀ j, j ≠ ix → getSp t j = getSp s j) ∧ t.ops = s.ops ∧ t.cistern.data = s.cistern.data) ∧
  (∀ (s : State) (ix : Nat) (sp : Spire) (b : Beat) (o : OpCtx), getSp s ix = some sp → tapLive s sp = true → sp.lv.ft = false →
    (∀ x ∈ openOps sp, x.resRow.stalled = true → dStag x.dsc = b.tag) →
    findOpen sp b.tag = some o → o.checkable = false → sp.tap.ver = 3 → o.badRows = false →
    ∃ t sp' o', exec (.resultBeat ix b true) s = .next t ∧ getSp t ix = some sp' ∧ findOpen sp' b.tag = some o' ∧ o'.uid = o.uid ∧
      o'.resBytes = o.resBytes + tapBytes sp ∧ o'.badRows = true ∧ o'.dig = o.dig ∧ o'.resRow = { o.resRow with stalled := false } ∧
      sp'.viol = (0x31, 0x0210) ∧ (∀ j, j ≠ ix → getSp t j = getSp s j) ∧ t.ops = s.ops ∧ t.cistern.data = s.cistern.data) ∧
  (∀ (s : State) (ix : Nat) (sp : Spire) (b : Beat) (c : Bool) (o : OpCtx), getSp s ix = some sp → tapLive s sp = true → sp.lv.ft = false →
    (∀ x ∈ openOps sp, x.resRow.stalled = true → dStag x.dsc = b.tag) → findOpen sp b.tag = some o → o.checkable = true → o.badRows = false →
    dC o.dsc ≠ .opq →
    (beatTake (perBeat (dC o.dsc) (beatBits sp.tap.ver)) (dN o.dsc) (posOf o (isCkBeat sp o c)).col b.last).2 = true →
    ∃ t sp' o', exec (.resultBeat ix b c) s = .next t ∧ getSp t ix = some sp' ∧ o' ∈ sp'.ops ∧ o'.uid = o.uid ∧ o'.closed = true ∧
      o'.closure = some (o.closure.getD .rows) ∧ o'.endTick = s.time.tick ∧ sp'.viol = (0x31, 0x0210) ∧
      (∀ j, j ≠ ix → getSp t j = getSp s j) ∧ t.ops = s.ops ∧ t.cistern.data = s.cistern.data) ∧
  (∀ (s : State) (ix : Nat) (sp : Spire) (b : Beat) (c : Bool) (o : OpCtx), getSp s ix = some sp → tapLive s sp = true → sp.lv.ft = false →
    (∀ x ∈ openOps sp, x.resRow.stalled = true → dStag x.dsc = b.tag) → findOpen sp b.tag = some o →
    ∃ t sp' o', exec (.ttResEnd ix b c) s = .next t ∧ getSp t ix = some sp' ∧ o' ∈ sp'.ops ∧ o'.uid = o.uid ∧ o'.closed = true ∧
      o'.endTick = s.time.tick ∧ (∀ x ∈ sp'.ops, x.uid = o.uid → x.closed = true) ∧ (∀ j, j ≠ ix → getSp t j = getSp s j) ∧
      t.ops = s.ops ∧ t.cistern.data = s.cistern.data)

/-- GROUP_COMPARE takes the first closed operation of a Spire that is not lost out of the Spire, and sends the Keep first its
summary with the range bits and the time of its close, and last its digests, marked as cut short where a TORN burst, a fence or a
reset closed it; the Keep's own state changes only when these arrive. Of a checkable operation with accumulators and its screen
on, no cause standing: an Integer group is SUSPECT exactly when its sum is not 0 modulo m_A; another exactly when |Δ_g| exceeds
β_g = c_op M_g + λ_g + Φ_g rounded up to 24 bits; the rest are PASS. A closure before the comparison makes every group
INCONCLUSIVE with its code, then OPTAINT does, then CKSAT; then a group's own TAINT, then GRP_OVF: the summary's cause is that of
the first INCONCLUSIVE group. Without accumulators, or with the screen off, every group is SKIPPED. The Spire of a DEAD tile drops
it and sends nothing. (The model's readings: messages wait for their turn, log 10; WEAK, log 25; which operation is judged, log
26; corners, logs 84 and 114.) (04_checksum_screen.md) -/
def Obligations.GroupCompareOrder : Prop :=
  (∀ (s : State) (ix : Nat) (sp : Spire) (o : OpCtx), getSp s ix = some sp → ((getTile s ix).map (·.lost)).getD false = false →
    stateOf s ix ≠ stDead → sp.ops.find? (·.closed) = some o →
    ∃ t sp' recs scr susp ev od mid rsv dd id acct, exec (.groupCompare ix) s = .next t ∧ getSp t ix = some sp' ∧
      sp'.ops = sp.ops.filter (fun x => x.uid != o.uid) ∧
      t.caravan.flight = s.caravan.flight ++ .summary ix o.uid recs scr (rangeBits o.range) susp ev od o.endTick :: mid ++
        [.digests ix o.uid od rsv dd id acct (decide (o.closure = some .torn ∨ o.closure = some .fenced ∨ o.closure = some .reset))] ∧
      (o.checkable = true → (o.nogrp = true ∨ (opEnv s sp o.dsc).off = true) → scr.pass = 0 ∧ scr.susp = 0 ∧ scr.incon = 0 ∧ scr.suspGroups = []) ∧
      (o.checkable = true → o.nogrp = false → (opEnv s sp o.dsc).off = false →
        (o.closure = none → o.optaint = false → o.cksat = false → ∀ i g, o.grps[i]? = some g → g.taints = 0 → g.ovf = false →
          (comboClass (dA o.dsc) (dB o.dsc) (dC o.dsc) (dAcc o.dsc) = some .integer → dCheckable o.dsc = true →
            (i ∈ scr.suspGroups ↔ g.sum / 2 ^ (104 - topOf o).toNat % (modA (dA o.dsc) : Int) ≠ 0)) ∧
          (comboClass (dA o.dsc) (dB o.dsc) (dC o.dsc) (dAcc o.dsc) ≠ some .integer →
            (i ∈ scr.suspGroups ↔ |(g.sum : Rat) * pow2 (topOf o - 104)| > betaOf (opEnv s sp o.dsc) o.dsc o i g))) ∧
        (∀ c, o.closure = some c → scr.incon = o.grps.length ∧ (o.grps ≠ [] → scr.cause = closureCode c)) ∧
        (o.closure = none → o.optaint = true → scr.incon = o.grps.length ∧ (o.grps ≠ [] → scr.cause = 5)) ∧
        (o.closure = none → o.optaint = false → o.cksat = true → scr.incon = o.grps.length ∧ (o.grps ≠ [] → scr.cause = 7)) ∧
        (o.closure = none → o.optaint = false → o.cksat = false →
          scr.incon = (o.grps.filter fun g => decide (g.taints ≠ 0) || g.ovf).length ∧
          ∀ g, (o.grps.find? fun g => decide (g.taints ≠ 0) || g.ovf) = some g → scr.cause = if g.taints ≠ 0 then 4 else 6)) ∧
      (∀ j, j ≠ ix → getSp t j = getSp s j) ∧ t = { s with spires := t.spires, caravan := t.caravan }) ∧
  (∀ (s : State) (ix : Nat) (sp : Spire) (o : OpCtx), getSp s ix = some sp → ((getTile s ix).map (·.lost)).getD false = false →
    stateOf s ix = stDead → sp.ops.find? (·.closed) = some o →
    exec (.groupCompare ix) s = .next (updSp s ix fun t => { t with ops := t.ops.filter fun x => x.uid != o.uid }))

/-- From step 5 of bring-up with the Belfry stepping, and a tile that is not DEAD: a fence acknowledge that is missed is TAPVIOL
0x50 and input 0x14, a missed reset acknowledge or ready is TAPVIOL 0x51 and input 0x14, and the loss of the heartbeat of a
version 3 tap whose transit-only level is asserted is TAPVIOL 0x52 and input 0x11; the input names the tile. (The model's
readings: deadlines are judged by state, log 36.) (02_tile_tap.md) -/
def Obligations.TapDeadlines : Prop :=
  ∀ (s : State) (ix : Nat) (sp : Spire), getSp s ix = some sp → stateOf s ix ≠ stDead → s.boot.step ≥ 5 → s.belfry.run = true →
    (sp.lv.fc = true → sp.lv.fack = false → ∃ t sp' i, exec (.fenceAckTimeout ix) s = .next t ∧ getSp t ix = some sp' ∧
      sp'.viol = (0x50, 0x0210) ∧ i ∈ t.belfry.inputs ∧ i.code = 0x14 ∧ i.spire = ix ∧ i.cause = 0x50 ∧ t.tiles = s.tiles) ∧
    (sp.lv.rstReq = true → sp.lv.rstAck = false → ∃ t sp' i, exec (.rstAckTimeout ix) s = .next t ∧ getSp t ix = some sp' ∧
      sp'.viol = (0x51, 0x0210) ∧ i ∈ t.belfry.inputs ∧ i.code = 0x14 ∧ i.spire = ix ∧ i.cause = 0x51 ∧ t.tiles = s.tiles) ∧
    (sp.lv.rstAck = true → sp.lv.rstReq = false → ∃ t sp' i, exec (.readyTimeout ix) s = .next t ∧ getSp t ix = some sp' ∧
      sp'.viol = (0x51, 0x0210) ∧ i ∈ t.belfry.inputs ∧ i.code = 0x14 ∧ i.spire = ix ∧ i.cause = 0x51 ∧ t.tiles = s.tiles) ∧
    (sp.tap.ver ≠ 2 → sp.lv.hbOk = true → sp.lv.tonly = true → ∃ t sp' i, exec (.heartbeatLoss ix) s = .next t ∧ getSp t ix = some sp' ∧
      sp'.lv = { sp.lv with hbOk := false } ∧ sp'.viol = (0x52, 0x0210) ∧ i ∈ t.belfry.inputs ∧ i.code = 0x11 ∧ i.spire = ix ∧
      i.cause = 0x52 ∧ t.tiles = s.tiles)

/-- BURST_STALL marks an incomplete stream of an open operation as held and changes no other state than the Spire; BURST_TIMEOUT
of a held stream closes every open operation of that number with cause TORN unless a cause stands already; the stream's later
beats are ignored, and after a torn operand stream the operation's result beats too. A beat of another tag than a held burst of
its stream does the same to the operation of that burst. (The model's readings: timeouts are judged by state, log 36; beats
ignored, log 24.) While TT_FENCE_TRANSIT of a live tap is asserted, a descriptor, an operand beat, an inject request and a result
beat change nothing but the Spire's IGN count, by the descriptor's beats or by one. (The model's readings: which beats are
ignored, log 24.) At the rising edge of TT_FENCE_ACK every operation of the Spire that is still open closes; one whose burst had
no cause yet is INCONCLUSIVE with cause FENCED. A tile on which no slice waits does not change in the Keep; one on which a slice
waits may begin it. (The model's readings: a slice that waits starts at once, log 77.) (02_tile_tap.md) -/
def Obligations.BurstsAndFenceTransit : Prop :=
  ((∀ (s : State) (ix : Nat) (sp : Spire) (tag : W16) (o : OpCtx), getSp s ix = some sp → findOpen sp tag = some o → o.resBytes > 0 →
    ∃ t sp' o', exec (.burstStall ix tag true) s = .next t ∧ getSp t ix = some sp' ∧ findOpen sp' tag = some o' ∧
      o'.uid = o.uid ∧ o'.resRow.stalled = true ∧ t = { s with spires := t.spires }) ∧
  (∀ (s : State) (ix : Nat) (sp : Spire) (tag : W16) (o : OpCtx), getSp s ix = some sp → findOpen sp tag = some o → operandOpen sp o = true →
    ∃ t sp' o', exec (.burstStall ix tag false) s = .next t ∧ getSp t ix = some sp' ∧ findOpen sp' tag = some o' ∧
      o'.uid = o.uid ∧ o'.opRow.stalled = true ∧ t = { s with spires := t.spires }) ∧
  (∀ (s : State) (ix : Nat) (sp : Spire) (tag : W16) (res : Bool) (o : OpCtx), getSp s ix = some sp → findOpen sp tag = some o →
    (if res then o.resRow.stalled else o.opRow.stalled) = true →
    ∃ t sp' o', exec (.burstTimeout ix tag res) s = .next t ∧ getSp t ix = some sp' ∧ o' ∈ sp'.ops ∧ o'.uid = o.uid ∧ o'.closed = true ∧
      o'.closure = some (o.closure.getD .torn) ∧ (tag, res) ∈ sp'.torn ∧
      (res = false → (tag, dPasses o.dsc - o.passesDone) ∈ sp'.tornOps) ∧
      (∀ x ∈ sp'.ops, x.uid = o.uid → x.closed = true) ∧ (∀ j, j ≠ ix → getSp t j = getSp s j) ∧ t.ops = s.ops ∧
      t.cistern.data = s.cistern.data) ∧
  (∀ (s : State) (ix : Nat) (sp : Spire) (b : Beat) (c : Bool) (o : OpCtx), getSp s ix = some sp → tapLive s sp = true → sp.lv.ft = false →
    o ∈ sp.ops → o.closed = false → o.resRow.stalled = true → dStag o.dsc ≠ b.tag →
    ∃ t sp' o', exec (.resultBeat ix b c) s = .next t ∧ getSp t ix = some sp' ∧ o' ∈ sp'.ops ∧ o'.uid = o.uid ∧ o'.closed = true ∧
      o'.closure = some (o.closure.getD .torn) ∧ (∀ j, j ≠ ix → getSp t j = getSp s j) ∧ t.ops = s.ops ∧ t.cistern.data = s.cistern.data) ∧
  (∀ (s : State) (ix : Nat) (sp : Spire) (b : Beat) (o : OpCtx), getSp s ix = some sp → tapLive s sp = true → sp.lv.ft = false →
    o ∈ sp.ops → o.closed = false → o.opRow.stalled = true → dStag o.dsc ≠ b.tag →
    ∃ t sp' o', exec (.operandBeat ix b true) s = .next t ∧ getSp t ix = some sp' ∧ o' ∈ sp'.ops ∧ o'.uid = o.uid ∧ o'.closed = true ∧
      o'.closure = some (o.closure.getD .torn) ∧ (∀ j, j ≠ ix → getSp t j = getSp s j) ∧ t.ops = s.ops ∧ t.cistern.data = s.cistern.data)) ∧
  (∀ (s : State) (ix : Nat) (sp : Spire), getSp s ix = some sp → stopped s ix = false → tapLive s sp = true → sp.lv.ft = true →
    (∀ d, exec (.descriptor ix d) s = .next (spCount s ix kIgn (dscBeats sp))) ∧
    (∀ b r, exec (.operandBeat ix b r) s = .next (spCount s ix kIgn 1)) ∧
    exec (.ttInjReq ix) s = .next (spCount s ix kIgn 1) ∧
    (∀ b c, exec (.resultBeat ix b c) s = .next (spCount s ix kIgn 1)) ∧
    (∀ b c, exec (.ttResEnd ix b c) s = .next (spCount s ix kIgn 1))) ∧
  (∀ (s : State) (ix : Nat) (sp : Spire), getSp s ix = some sp → sp.lv.fack = false →
    ∃ t sp', exec (.ttFenceAck ix) s = .next t ∧ getSp t ix = some sp' ∧ sp'.lv = { sp.lv with fack := true } ∧
      (∀ x ∈ sp'.ops, x.closed = true) ∧
      (∀ o ∈ sp.ops, o.closed = false → (∀ x ∈ sp.ops, x.uid = o.uid → x = o) → ∃ o' ∈ sp'.ops, o'.uid = o.uid ∧ o'.dsc = o.dsc ∧
        o'.closure = some (o.closure.getD .fenced)) ∧
      (∀ j, j ≠ ix → getSp t j = getSp s j) ∧ t.ops = s.ops ∧ t.cistern.data = s.cistern.data ∧
      (∀ i x, getTile s i = some x → ∃ y, getTile t i = some y ∧ y = { x with run := y.run } ∧ (i ≠ ix ∨ x.run = none → y = x)))

/-- A sampled TT_PROG is Gray-coded in 32 bits, or in 16 bits on a version 2 tap. A forward difference of less than half the range
is added to the progress count; otherwise the count stays and TAPVIOL 0x40 is recorded; in both cases the new value becomes the
base. TT_IDLE_CHANGE to another level takes it, and a rise is remembered in the straggler period; when work begins on a tile that
is not stopped and has no open descriptor the tile's watchdog starts at the present tick; the same level again has no effect (log
2). At the end of a straggler period each Spire of the partition begins the next from its present progress and idle level; with
fewer than four participants no straggler event is recorded and no input staged. (The model's readings: fewer than four
participants, log 54; a test that waits for a rise of TT_IDLE, log 57.) (02_tile_tap.md; 07_oasis_and_recovery.md;
06_verdicts_and_quarantine.md) -/
def Obligations.TapProgressAndIdle : Prop :=
  (∀ (s : State) (ix : Nat) (sp : Spire) (gray : W32), getSp s ix = some sp → tapLive s sp = true →
    let w := if sp.tap.ver = 2 then 16 else 32
    let x := ofGray w (gray.toNat % 2 ^ w)
    let diff := (x + 2 ^ w - sp.tap.progBase.toNat % 2 ^ w) % 2 ^ w
    ∃ t sp', exec (.ttProgChange ix gray) s = .next t ∧ getSp t ix = some sp' ∧ sp'.tap.progBase = BitVec.ofNat 32 x ∧
      (diff < 2 ^ (w - 1) → sp'.tap.prog = sp.tap.prog + BitVec.ofNat 64 diff ∧
        t = { s with spires := t.spires, hang := { s.hang with back := t.hang.back } }) ∧
      (2 ^ (w - 1) ≤ diff → sp'.tap.prog = sp.tap.prog ∧ sp'.viol = (0x40, 0x0210)) ∧
      (∀ j, j ≠ ix → getSp t j = getSp s j)) ∧
  ((∀ (s : State) (i : Nat) (sp : Spire) (b : Bool), getSp s i = some sp → sp.lv.idle = b → exec (.ttIdleChange i b) s = .next s) ∧
  (∀ (s : State) (i : Nat) (sp : Spire) (x : Tile), getSp s i = some sp → getTile s i = some x → sp.lv.idle = true → openOps sp = [] → stopped s i = false →
    ∃ t, exec (.ttIdleChange i false) s = .next t ∧ getSp t i = some { sp with lv := { sp.lv with idle := false } } ∧
      getTile t i = some { x with wd := s.time.tick.toNat } ∧ t = { s with spires := t.spires, tiles := t.tiles }) ∧
  (∀ (s : State) (i : Nat) (sp : Spire), getSp s i = some sp → sp.lv.idle = false → ((getTile s i).map waitsIdle).getD false = false →
    ∃ t, exec (.ttIdleChange i true) s = .next t ∧
      getSp t i = some { sp with lv := { sp.lv with idle := true }, tap := { sp.tap with idleInPeriod := true } } ∧ t = { s with spires := t.spires })) ∧
  (∀ (s : State) (p i : Nat) (sp : Spire), getSp s i = some sp → partOfSp s i = p →
    ∃ t sp', exec (.stragglerPeriod p) s = .next t ∧ getSp t i = some sp' ∧ sp'.tap.progAtPeriod = sp.tap.prog ∧
      sp'.tap.idleInPeriod = sp.lv.idle ∧ sp'.ops = sp.ops ∧ ((runners s p).length < 4 → t.records = s.records ∧ t.belfry = s.belfry) ∧
      t.cistern.data = s.cistern.data)

/-- TT_RST_ACK while the Spire asserts TT_RST_REQ and its Dome is released, and TT_RST_ACK of a tile that resets itself, close
every open operation, discard the tap's streams and return the progress base to 0, with TT_RST_REQ deasserted, but for a bring-up
that failed, which holds it; before the Dome's release only the acknowledge level is noted; TT_READY after it ends the handshake
and restarts the tile's watchdog at that tick, and a TEST_OFF that waited for it goes out. (The model's readings: levels that the
Spire keeps, log 30; the compute reset's releases, log 44.) COMPUTE_RESET at the third stage of the hang path asserts TT_RST_REQ
at the Spire of every tile that is not DEAD, holds its watchdog, ends every sample and frees every Tally. COMPUTE_RESET_DONE, when
each tile is DEAD or has come back, ends the path, begins to await progress from this tick, and posts a note to each partition.
(The model's readings: log 44.) (02_tile_tap.md; 07_oasis_and_recovery.md) -/
def Obligations.ComputeResetAndHandshake : Prop :=
  ((∀ (s : State) (ix : Nat) (sp : Spire), getSp s ix = some sp → sp.lv.rstReq = true → sp.lv.rstAck = false → domeReleased s ix = true ∨ s.boot.step = 7 →
    ∃ t sp', exec (.ttRstAck ix) s = .next t ∧ getSp t ix = some sp' ∧ (∀ o ∈ sp'.ops, o.closed = true) ∧ sp'.pass = none ∧
      sp'.injSlot = none ∧ sp'.raw = [] ∧ sp'.tap.progBase = 0 ∧ sp'.lv = { sp.lv with rstReq := decide (s.boot.step = 7), rstAck := true, ready := false } ∧
      (∀ j, j ≠ ix → getSp t j = getSp s j) ∧ t.tiles = s.tiles) ∧
  (∀ (s : State) (ix : Nat) (sp : Spire), getSp s ix = some sp → sp.lv.rstReq = true → sp.lv.rstAck = false → domeReleased s ix = false → s.boot.step ≠ 7 →
    exec (.ttRstAck ix) s = .next (updSp s ix fun x => { x with lv := { x.lv with rstAck := true } })) ∧
  (∀ (s : State) (ix : Nat) (sp : Spire), getSp s ix = some sp → sp.lv.rstReq = false → sp.lv.rstAck = false →
    ∃ t sp', exec (.tileRst ix) s = .next t ∧ getSp t ix = some sp' ∧ (∀ o ∈ sp'.ops, o.closed = true) ∧ sp'.pass = none ∧
      sp'.tap.progBase = 0 ∧ sp'.lv = { sp.lv with rstReq := false, rstAck := true, ready := false } ∧
      (∀ j, j ≠ ix → getSp t j = getSp s j) ∧ t.tiles = s.tiles) ∧
  (∀ (s : State) (ix : Nat) (sp : Spire) (x : Tile), getSp s ix = some sp → sp.lv.rstAck = true → sp.lv.rstReq = false → getTile s ix = some x →
    ∃ t sp' y, exec (.ttReady ix) s = .next t ∧ getSp t ix = some sp' ∧ sp'.lv = { sp.lv with rstAck := false, ready := true } ∧
      getTile t ix = some y ∧ y.resetDone = true ∧ y.wdHeld = x.run.isSome ∧ y.wd = s.time.tick.toNat ∧ y.state = x.state ∧ y.offDue = false ∧
      (x.offDue = false → x.run = none → y = { x with resetDone := true, wdHeld := false, wd := s.time.tick.toNat }) ∧
      t = { s with spires := t.spires, tiles := t.tiles, caravan := t.caravan })) ∧
  ((∀ (s : State) (x : Tile) (sp : Spire), s.hang.stage = 3 → s.hang.resetting = false → (s.tiles.map (·.ix)).Nodup → x ∈ s.tiles →
    getSp s x.ix = some sp → x.state ≠ stDead →
    ∃ t y sp', exec .computeReset s = .next t ∧ t.hang.resetting = true ∧ (∀ e ∈ t.tallies, e.2.held = false ∧ e.2.waiters = []) ∧
      t.tallyQ = [] ∧ t.samples = [] ∧
      getTile t x.ix = some y ∧ y.resetDone = false ∧ y.wdHeld = true ∧ y.state = x.state ∧ getSp t x.ix = some sp' ∧
      sp'.lv.rstReq = true ∧ sp'.lv.rstAck = false ∧ t.cistern.data = s.cistern.data) ∧
  (∀ (s : State) (p : Nat), s.hang.resetting = true → (∀ x ∈ s.tiles, x.state = stDead ∨ x.resetDone = true) → p < 16 → s.parts.length = 16 →
    ∃ t, exec .computeResetDone s = .next t ∧ t.hang.stage = 0 ∧ t.hang.resetting = false ∧ t.hang.waitProgress = true ∧ t.hang.hung = [] ∧
      t.hang.readyTick = s.time.tick ∧ (getPart s p).logs.notes.prod < (getPart t p).logs.notes.prod ∧ t.cistern.data = s.cistern.data))

/-- A frame, behind the last seam crossing of the sideband the majority of its three copies, of good CRC, its own OP and LOCAL
index and a new FSEQ reaches a Spire that is not lost (a DEAD frame reaches a lost one too): FENCE gives TSTATE FENCED with
FENCE_COMPUTE and TRANSIT_ONLY, or waits behind a running test slice; TEST_ON gives all three levels and begins a slice; TEST_OFF
ends it with the levels of the tile's state, or of the fence that waited; DEAD and RETIRE give their state and all three levels;
RELEASE gives WATCH and no level, or, while a test slice runs, WATCH with the levels of the slice. The Spire keeps the FSEQ and a
FENCE_DONE report of this tick enters the Wadi lane. No other Spire and no byte of the Cistern changes. (The model's readings: a
FENCE behind a slice, log 55; copies, log 92.) For each of the six fence frames: with a bad CRC nothing changes but Caravan's
count of bad frames; with the FSEQ the Spire holds already nothing changes but one more FENCE_DONE report, the Spire's uplink
bytes and the uplinks without a credit. In both cases each seam crossing of the sideband at which the word's three copies disagree
is counted once, and where no two of them agree the Caravan bit of KEEP_ALERT is set (log 92). (06_verdicts_and_quarantine.md) -/
def Obligations.FenceFrames : Prop :=
  (∀ (s : State) (ix : Nat) (sp : Spire) (x : Tile) (f w : W32) (side : SideCopies), getSp s ix = some sp → getTile s ix = some x →
    w = (match side.getLast? with | none => f | some (a, b, c) => (a &&& b) ||| (a &&& c) ||| (b &&& c)) →
    fCrcOk w = true → fLocal w = ix % 256 → fSeq w ≠ sp.fseq →
    let did := fun (c : Instr) (P : Spire → Prop) => ∃ t sp', exec c s = .next t ∧ getSp t ix = some sp' ∧ sp'.fseq = fSeq w ∧ P sp' ∧
      ⟨ix, fSeq w, s.time.tick⟩ ∈ t.caravan.done ∧ (∀ j, j ≠ ix → getSp t j = getSp s j) ∧ t.cistern.data = s.cistern.data
    let lvs := fun (p : Spire) (a b c : Bool) => p.lv.fc = a ∧ p.lv.ft = b ∧ p.lv.tonly = c ∧ p.lv.fack = (sp.lv.fack && a)
    (x.lost = false → fOp w = opFence → sp.testing = false → did (.fenceFrame ix f side) fun p => p.tstate = stFenced ∧ lvs p true false true) ∧
    (x.lost = false → fOp w = opFence → sp.testing = true → did (.fenceFrame ix f side) fun p =>
      p.tstate = stFenced ∧ p.pendFence = true ∧ p.lv = sp.lv) ∧
    (x.lost = false → fOp w = opTestOn → did (.testOn ix f side) fun p => p.testing = true ∧ p.tstate = sp.tstate ∧ lvs p true true true) ∧
    (x.lost = false → fOp w = opTestOff → sp.pendFence = false → did (.testOff ix f side) fun p => p.testing = false ∧
      p.tstate = sp.tstate ∧ (sp.tstate < stFenced → lvs p false false false) ∧ (sp.tstate = stFenced → lvs p true false true) ∧
      (stFenced < sp.tstate → lvs p true true true)) ∧
    (x.lost = false → fOp w = opTestOff → sp.pendFence = true → did (.testOff ix f side) fun p => p.testing = false ∧
      p.pendFence = false ∧ p.tstate = stFenced ∧ lvs p true false true) ∧
    (fOp w = opDead → did (.deadFrame ix f side) fun p => p.tstate = stDead ∧ p.testing = false ∧ lvs p true true true) ∧
    (x.lost = false → fOp w = opRelease → sp.testing = false → did (.releaseFrame ix f side) fun p =>
      p.tstate = stWatch ∧ lvs p false false false) ∧
    (x.lost = false → fOp w = opRelease → sp.testing = true → did (.releaseFrame ix f side) fun p =>
      p.tstate = stWatch ∧ p.testing = true ∧ p.pendFence = false ∧ p.lv = sp.lv) ∧
    (x.lost = false → fOp w = opRetire → did (.retire ix f side) fun p => p.tstate = stRetired ∧ lvs p true true true)) ∧
  (∀ (s : State) (ix : Nat) (sp : Spire) (x : Tile) (f w : W32) (side : SideCopies) (op : Nat) (c : Instr), getSp s ix = some sp →
    getTile s ix = some x →
    w = (match side.getLast? with | none => f | some (a, b, c) => (a &&& b) ||| (a &&& c) ||| (b &&& c)) →
    (op, c) ∈ [(opFence, .fenceFrame ix f side), (opTestOn, .testOn ix f side), (opTestOff, .testOff ix f side), (opDead, .deadFrame ix f side),
      (opRelease, .releaseFrame ix f side), (opRetire, .retire ix f side)] →
    let crossings := fun (t : State) =>
      t.caravan.sidemaj = satAdd s.caravan.sidemaj (side.filter fun p => !(p.1 == p.2.1 && p.2.1 == p.2.2)).length ∧
      t.keep.alert = (if side.any fun p => p.1 != p.2.1 && p.2.1 != p.2.2 && p.1 != p.2.2 then s.keep.alert ||| BitVec.ofNat 12 (2 ^ alCaravan)
        else s.keep.alert) ∧
      t = { s with caravan := t.caravan, keep := { s.keep with alert := t.keep.alert }, spires := t.spires }
    (fCrcOk w = false → ∃ t, exec c s = .next t ∧ crossings t ∧ t.spires = s.spires ∧
      t.caravan = { s.caravan with fcrc := satInc s.caravan.fcrc, sidemaj := t.caravan.sidemaj }) ∧
    (fCrcOk w = true → fOp w = op → fLocal w = ix % 256 → x.lost = false → fSeq w = sp.fseq → ∃ t sp', exec c s = .next t ∧ crossings t ∧
      getSp t ix = some sp' ∧ sp' = { sp with big := sp'.big } ∧ (∀ j, j ≠ ix → getSp t j = getSp s j) ∧
      t.caravan = { s.caravan with
        done := s.caravan.done ++ [⟨ix, fSeq w, s.time.tick⟩], held := t.caravan.held, sidemaj := t.caravan.sidemaj }))

/-- FENCE_DONE of the frame that is out takes its report and completes the frame, the tile's state unchanged; that of a frame
which a DEAD frame outran completes that one; from a field that is cut off no report comes, and it has no effect. FENCE_REISSUE
sends the same frame again at the present tick up to three times; then it gives the frame up, writes the TSTATE record of its
change where the partition's quota has room for it, ends the command that ordered it (log 105), sets the fence bit of KEEP_ALERT,
and from step 5 of bring-up, the Belfry stepping and the tile not DEAD, stages input 0x12 for the tile. (The model's readings:
reports and records, log 55; a field that is cut off, log 117; out of place, log 2.) From step 5 of bring-up, at a poll of a Dome
each of its tiles that is not lost and answered has its count of misses back at 0; one that missed counts one more; at the third
miss in a row the tile is lost and, the Belfry stepping, input 0x13 names it. (The model's readings: polls that are missed, log
36.) (06_verdicts_and_quarantine.md) -/
def Obligations.FenceCompletionAndPolls : Prop :=
  ((∀ (s : State) (sp : Nat) (q : Byte), cutOff s sp = true → exec (.fenceDone sp q) s = .next s) ∧
  (∀ (s : State) (sp : Nat) (q : Byte) (m : DoneMsg) (x : Tile) (f : OutFrame), cutOff s sp = false → s.caravan.done.find? (fun m => m.spire == sp && m.fseq == q) = some m →
    getTile s sp = some x → x.out = some f → fSeq f.frame = q → (∀ g ∈ x.superseded, fSeq g.frame ≠ q) → x.next = [] →
    ∃ t, exec (.fenceDone sp q) s = .next t ∧
      getTile t sp = some { x with out := none, superseded := if f.op = opDead then [] else x.superseded } ∧
      t.caravan.done = s.caravan.done.erase m ∧
      (∀ j, j ≠ sp → getTile t j = getTile s j) ∧ t.spires = s.spires ∧ t.cistern.data = s.cistern.data) ∧
  (∀ (s : State) (sp : Nat) (q : Byte) (m : DoneMsg) (x : Tile), cutOff s sp = false → s.caravan.done.find? (fun m => m.spire == sp && m.fseq == q) = some m →
    getTile s sp = some x → (∃ g ∈ x.superseded, fSeq g.frame = q) →
    ∃ t, exec (.fenceDone sp q) s = .next t ∧
      getTile t sp = some { x with superseded := x.superseded.filter fun g => fSeq g.frame != q } ∧ t.caravan.done = s.caravan.done.erase m ∧
      (∀ j, j ≠ sp → getTile t j = getTile s j) ∧ t.spires = s.spires ∧ t.cistern.data = s.cistern.data) ∧
  (∀ (s : State) (sp : Nat) (x : Tile) (f : OutFrame), getTile s sp = some x → x.out = some f → f.reissues < 3 →
    ∃ t, exec (.fenceReissue sp) s = .next t ∧
      getTile t sp = some { x with out := some { f with reissues := f.reissues + 1, issued := s.time.tick } } ∧
      t.caravan.frames = s.caravan.frames ++ [(sp, f.frame)] ∧ t = { s with tiles := t.tiles, caravan := t.caravan }) ∧
  (∀ (s : State) (sp : Nat) (x : Tile) (f : OutFrame), getTile s sp = some x → x.out = some f → 3 ≤ f.reissues → s.boot.step ≥ 5 →
    ∃ t, exec (.fenceReissue sp) s = .next t ∧ getTile t sp = some { x with out := none, superseded := [] } ∧ t.keep.alert.getLsbD alFence = true ∧
      (x.superseded = [] → f.op ≠ opTestOn → f.op ≠ opTestOff → quotaOk s (partOfSp s sp) lvRec = true → inSafe s uCis = false →
        ∃ r ∈ t.records, r.kind = .tstate ∧ r.tick = s.time.tick ∧ r.spire = sp ∧ r.part = partOfSp s sp) ∧
      (s.belfry.run = true → x.state ≠ stDead → ∃ i ∈ t.belfry.inputs, i.code = 0x12 ∧ i.spire = sp) ∧
      t = { s with tiles := t.tiles, keep := { s.keep with alert := t.keep.alert, cmd := t.keep.cmd },
                   belfry := { s.belfry with inputs := t.belfry.inputs, cmds := t.belfry.cmds },
                   records := t.records, near := t.near, parts := t.parts, cistern := { s.cistern with recDrop := t.cistern.recDrop } })) ∧
  (∀ (s : State) (dome : Nat) (missed : List Nat) (x : Tile), (s.tiles.map (·.ix)).Nodup → s.boot.step ≥ 5 → x ∈ s.tiles → x.ix / 256 = dome →
    x.lost = false →
    ∃ t y, exec (.domePoll dome missed) s = .next t ∧ getTile t x.ix = some y ∧
      (x.ix ∉ missed → y = { x with missed := 0 }) ∧
      (x.ix ∈ missed → x.missed + 1 < 3 → y = { x with missed := x.missed + 1 }) ∧
      (x.ix ∈ missed → 3 ≤ x.missed + 1 → y = { x with missed := 3, lost := true } ∧
        (s.belfry.run = true → ∃ i ∈ t.belfry.inputs, i.code = 0x13 ∧ i.spire = x.ix)) ∧
      t = { s with tiles := t.tiles, belfry := t.belfry })

/-- While the fabric counter runs, a TIME_BEACON gives every Spire that is not lost the epoch of its tile's partition. A beacon
gives the Keep's counter with the ticks it waited, and the receiver adds the path latency measured at bring-up; a copy within 4
ticks of that keeps its own count, one further off takes the beacon's value and sets TICKSLIP. A word whose copies disagree at a
seam crossing on the way to a Dome is counted (R364). (The copies are held by their differences to the Keep's counter.) A counter
that does not run sends no beacon, and the command has no effect. (The model's readings: no beacon, no effect: log 2; copies, log
92.) PROGRESS_FRAME of a Dome that is up restarts at the present tick the watchdog of each tile of that Dome, not lost, whose
TT_PROG advanced since the Dome's previous frame; the watchdog of every other tile stands; such a tile is hung no more unless a
hang path runs; the Dome's Spires take their present progress as the base of the next frame. A Dome that is not up sends none, and
a frame with another map than the Dome's has no effect; bit k of the map stands for the Dome's Spire k. (The model's readings: a
map other than the frame's, logs 2 and 96.) (09_belfry_and_time.md; 07_oasis_and_recovery.md) -/
def Obligations.BeaconsAndProgressFrames : Prop :=
  ((∀ (s : State) (spires domes : List BeaconAt), s.time.run = false → exec (.timeBeacon spires domes) s = .next s) ∧
  (∀ (s : State) (spires domes : List BeaconAt) (x : Tile) (sp : Spire), s.time.run = true → (s.tiles.map (·.ix)).Nodup → x ∈ s.tiles →
    x.lost = false → getSp s x.ix = some sp → (domes.map (·.ix)).Nodup → (spires.map (·.ix)).Nodup →
    let took := fun (t : State) (path : Nat) (old new : Int) (y : BeaconAt) =>
      let given : Int := (path + y.waited : Nat) - (y.waited + y.flight : Nat)
      (4 < (old + y.drift - given).natAbs → new = given ∧ t.time.tickslip = true) ∧ ((old + y.drift - given).natAbs ≤ 4 → new = old + y.drift)
    ∃ t sp', exec (.timeBeacon spires domes) s = .next t ∧ getSp t x.ix = some sp' ∧ sp'.epoch = (getPart s x.part).epoch ∧
      (∀ y ∈ domes, took t (domePath s y.ix) (skewOf s.time.domeSkew y.ix) (skewOf t.time.domeSkew y.ix) y) ∧
      (∀ y ∈ spires, y.ix = x.ix → took t (spirePath s y.ix) (skewOf s.time.spireSkew y.ix) (skewOf t.time.spireSkew y.ix) y) ∧
      t.time.tick = s.time.tick ∧
      t.caravan.sidemaj = satAdd s.caravan.sidemaj ((domes.flatMap (·.side)).filter fun p => !(p.1 == p.2.1 && p.2.1 == p.2.2)).length ∧
      t = { s with time := t.time, belfry := t.belfry, spires := t.spires, caravan := { s.caravan with sidemaj := t.caravan.sidemaj },
                   keep := { s.keep with alert := t.keep.alert } })) ∧
  ((∀ (s : State) (dome : Nat) (d : Dome) (x : Tile) (sp : Spire), getDome s dome = some d → d.up = true → (s.spires.map (·.ix)).Nodup →
    getTile s x.ix = some x → getSp s x.ix = some sp →
    ∃ t y sp', exec (.progressFrame dome (progressBits s dome)) s = .next t ∧ getTile t x.ix = some y ∧ getSp t x.ix = some sp' ∧
      (x.ix / 256 = dome → x.lost = false → sp.tap.prog ≠ sp.tap.progAtFrame → y = { x with wd := s.time.tick.toNat, ranOut := false }) ∧
      (x.ix / 256 ≠ dome ∨ x.lost = true ∨ sp.tap.prog = sp.tap.progAtFrame → y = x) ∧
      (x.ix / 256 = dome → sp'.tap = { sp.tap with progAtFrame := sp.tap.prog }) ∧ (x.ix / 256 ≠ dome → sp' = sp) ∧
      t.hang.hung = (if s.hang.stage = 0 then s.hang.hung.filter fun x => !(progressMap s dome).contains x else s.hang.hung) ∧
      t = { s with tiles := t.tiles, spires := t.spires, hang := { s.hang with hung := t.hang.hung } }) ∧
  (∀ (s : State) (dome : Nat) (map : BitVec 256), ((getDome s dome).map (·.up)).getD false = false ∨ map ≠ progressBits s dome →
    exec (.progressFrame dome map) s = .next s) ∧
  (∀ (s : State) (dome k : Nat), dome < 64 → k < 256 → ((progressBits s dome).getLsbD k = true ↔ dome * 256 + k ∈ progressMap s dome)))

/-- HANG_TIMEOUT of a tile whose watchdog runs and has not run out yet marks it, adds it to the hung tiles, notes the hang for its
partition's oasis, and, the Belfry stepping, stages input 0x20 for it; where the watchdog does not run, or has run out already, it
has no effect; no Spire changes. (The model's readings: judged by state, logs 2 and 36.) HANG_GRAPH_DONE, which names the uplinks
that the credit counters show without credits for half of HANG_TIMEOUT, keeps the graph and the snapshot for the dump, and the
roots of the wait-for graph (hung tiles whose watchdog did not restart, that wait on no Tally, have no uplink without credits for
half of HANG_TIMEOUT, and are not DEAD) and goes on to the dump where it is asked for, else to the compute reset; the end of the
dump, or of its budget, goes on to the compute reset with a dump of at most DUMP_SIZE bytes queued for the near port, which reads
up to the last part that lies whole in it, truncated when the budget ended it; each has no effect at another stage, and a
HANG_GRAPH_DONE that names other uplinks has none. (The model's readings: the readings of logs 2, 44 and 96; hops of a stall, log
90; words of the dump's parts, log 9.) (07_oasis_and_recovery.md) -/
def Obligations.HangDetectionAndPath : Prop :=
  ((∀ (s : State) (i : Nat) (x : Tile) (sp : Spire), getTile s i = some x → getSp s i = some sp → watchdogRuns x sp = true → x.ranOut = false →
    s.keep.dieFault = false → x.part < s.parts.length →
    ∃ t, exec (.hangTimeout i) s = .next t ∧ getTile t i = some { x with ranOut := true } ∧ t.hang.hung = s.hang.hung ++ [i] ∧
      (getPart t x.part).hangSeen = true ∧ (s.belfry.run = true → ∃ n ∈ t.belfry.inputs, n.code = 0x20 ∧ n.spire = i) ∧
      (∀ j, j ≠ i → getTile t j = getTile s j) ∧ t.spires = s.spires ∧ t.cistern.data = s.cistern.data) ∧
  (∀ (s : State) (i : Nat) (x : Tile) (sp : Spire), getTile s i = some x → getSp s i = some sp → watchdogRuns x sp = false ∨ x.ranOut = true →
    exec (.hangTimeout i) s = .next s)) ∧
  ((∀ (s : State), s.hang.stage = 1 → ∃ t, exec (.hangGraphDone (stalls s)) s = .next t ∧ t.hang.roots = (waitGraph s).roots ∧
    t.hang.graph = graphWords s ∧ t.hang.snap = snapWords s ∧ (waitGraph s).stalls = stalls s ∧
    (∀ i ∈ t.hang.roots, i ∈ s.hang.hung ∧ (∃ x, getTile s i = some x ∧ x.ranOut = true) ∧ (∀ y ∈ s.tallies, i ∉ y.2.waiters) ∧ stateOf s i ≠ stDead ∧
      (∀ h ∈ s.caravan.held, h.1 = i → 2 * (s.time.tick.toNat - h.2.2.toNat) < hangTimeout s)) ∧
    t.hang.stage = (if s.hang.dump = true then 2 else 3) ∧ t.hang.hung = s.hang.hung ∧ t.cistern.data = s.cistern.data) ∧
  (∀ (s : State), s.hang.stage = 2 → ∃ t n, exec .hangDumpDone s = .next t ∧ t.hang.stage = 3 ∧ n ≤ (s.image.map (·.base.dumpSize)).getD 0 ∧
    t.near.waiting = s.near.waiting ++ [.hangDump n] ∧ t.hang.parts = wholeParts n (dumpParts s) ∧ t.hang.dumpBytes = n ∧
    t = { s with hang := t.hang, near := t.near }) ∧
  (∀ (s : State), s.hang.stage = 2 → ∃ t n, exec .dumpBudget s = .next t ∧ t.hang.stage = 3 ∧ t.hang.truncated = true ∧
    n ≤ (s.image.map (·.base.dumpSize)).getD 0 ∧ t.near.waiting = s.near.waiting ++ [.hangDump n] ∧
    t.hang.parts = wholeParts n (dumpParts s) ∧ t = { s with hang := t.hang, near := t.near, rng := t.rng }) ∧
  (∀ (s : State), (∀ l, s.hang.stage ≠ 1 ∨ l ≠ stalls s → exec (.hangGraphDone l) s = .next s) ∧
    (s.hang.stage ≠ 2 → exec .hangDumpDone s = .next s ∧ exec .dumpBudget s = .next s)))

/-- PROGRESS_RETURN_TIMEOUT ends the wait where a working tile has made progress, and is DIE_FAULT where none has. KEEP_WATCHDOG
is DIE_FAULT where two Keep warm resets lie within the last 10 s. DIE_FAULT asserts FAULT_N, stops the Belfry and leaves no stage
of the hang path. (The model's readings: logs 2 and 44.) KEEP_WATCHDOG begins a Keep warm reset: the Belfry stops and its waiting
inputs, carried firings, label sets and commands are lost and counted, no sample stands, every mailbox is at its reset value,
staged records begin to drain; the Tallies and the Cistern's bytes stay. RECORD_DRAIN_TIMEOUT ends the drain with no record left
waiting, and counts those that were in CIS_WRST_LOST. KEEP_RESTART has no effect while the drain has records to write; else, once
no oasis slot is left to read, it ends the reset: the data banks are filled again; the firmware banks' bytes are kept where both
copies of the code or neither have the image's hash, and where one fails firmware runs from the other; and the Belfry steps if
bring-up had come to step 5. (The model's readings: logs 2 and 45.) (07_oasis_and_recovery.md) -/
def Obligations.DieFaultAndKeepWarmReset : Prop :=
  ((∀ (s : State), s.hang.waitProgress = true → s.hang.back = true →
    exec .progressReturnTimeout s = .next { s with hang := { s.hang with waitProgress := false } }) ∧
  (∀ (s : State), s.hang.waitProgress = true → s.hang.back = false → s.keep.dieFault = false →
    ∃ t, exec .progressReturnTimeout s = .next t ∧ t.keep.dieFault = true ∧ t.keep.fault = true ∧ t.belfry.run = false ∧ t.hang.stage = 0 ∧
      t.hang.waitProgress = false ∧ t.cistern.data = s.cistern.data) ∧
  (∀ (s : State), s.keep.dieFault = false → 2 ≤ (s.keep.kwrTicks.filter fun x => decide (s.time.tick.toNat - x.toNat < 10000000000)).length →
    ∃ t, exec .keepWatchdog s = .next t ∧ t.keep.dieFault = true ∧ t.keep.fault = true ∧ t.belfry.run = false ∧ t.keep.kwr = satInc s.keep.kwr) ∧
  (∀ (s : State), s.keep.dieFault = true → exec .keepWatchdog s = .next s)) ∧
  ((∀ (s : State), s.keep.dieFault = false → (s.keep.kwrTicks.filter fun x => decide (s.time.tick.toNat - x.toNat < 10000000000)).length < 2 →
    ∃ t, exec .keepWatchdog s = .next t ∧ t.keep.kwr = satInc s.keep.kwr ∧ t.keep.kwrDown = true ∧ t.keep.draining = true ∧
      t.belfry.run = false ∧ t.belfry.inputs = [] ∧
      (∃ n, s.belfry.inputs.length + s.belfry.carriedIn.length + s.belfry.timers.length + s.belfry.wcSets.length + s.belfry.cmdCarry ≤ n ∧
        t.belfry.carryCnt = satAdd s.belfry.carryCnt n) ∧ t.samples = [] ∧
      t.keep.mbx = s.keep.mbx.map (fun _ => Mbx.reset) ∧ t.tallies = s.tallies ∧ t.cistern.data = s.cistern.data) ∧
  (∀ (s : State), s.keep.draining = true → ∃ t, exec .recordDrainTimeout s = .next t ∧ t.keep.draining = false ∧
    (∀ i ∈ t.near.waiting, evidenceOf i = none) ∧
    t.cistern.wrstLost = satAdd s.cistern.wrstLost (s.near.waiting.filterMap evidenceOf).length ∧ t.tallies = s.tallies ∧ t.cistern.data = s.cistern.data) ∧
  (∀ (s : State), drains s = true → exec .keepRestart s = .next s) ∧
  (∀ (s : State), s.keep.kwrDown = true → s.keep.dieFault = false → readsSlots s.near = false → drains s = false →
    ∃ t, exec .keepRestart s = .next t ∧ t.keep.kwrDown = false ∧ t.keep.draining = false ∧ t.samples = [] ∧ t.seals = [] ∧
      t.tallies = s.tallies ∧ t.belfry.run = decide (s.boot.step ≥ 5) ∧ t.cistern.data = keepFirmware (checkCode s).cistern.data ∧
      (copyGood s 0 = copyGood s 1 → ∀ a, a < 2 * 2 ^ 23 → memGet unData t.cistern.data a = memGet unData s.cistern.data a) ∧
      (s.boot.fwLen ≠ 0 → mirrors s = true → copyGood s 0 = false → copyGood s 1 = true → t.cistern.execBank = true) ∧
      (s.boot.fwLen ≠ 0 → mirrors s = true → copyGood s 0 = true → copyGood s 1 = false → t.cistern.execBank = false)))

/-- On a port whose WCLK stands, a WEIGHT_SEGMENT whose header and beats pass their checks is the last header of its partition and
its rows and columns enter a stream of its layer and operator; one whose header fails its check changes no engine, no stream and
no header, and, the Belfry stepping, stages input 0x98 with cause 1. Nothing crosses a port whose WCLK is lost. (The model's
readings: a segment is taken whole, log 39; bad headers, log 40; a lost clock, log 2.) (02_tile_tap.md; 05_replay.md) -/
def Obligations.WeightSegments : Prop :=
  (∀ (s : State) (port : Nat) (h : WtHdr) (bs : List WtBeat), hCrcOk h = true → hReserved h = false → hRangeOk h = true → segShapeOk h bs = true →
    HostClk.wclk port ∉ s.keep.lostNow →
    ∃ t w, exec (.weightSegment port h bs false) s = .next t ∧ (hPart h, hLayer h) ∈ t.lastHdr ∧ w ∈ t.streams ∧ w.key = hKey h ∧
      (hKBase h, hKCnt h, hNBase h, hNCnt h) ∈ w.segs ∧ t.cistern.data = s.cistern.data ∧ t.spires = s.spires) ∧
  (∀ (s : State) (port : Nat) (h : WtHdr) (bs : List WtBeat) (drop : Bool), hCrcOk h = false ∨ hReserved h = true ∨ hRangeOk h = false →
    HostClk.wclk port ∉ s.keep.lostNow →
    ∃ t, exec (.weightSegment port h bs drop) s = .next t ∧ t.engines = s.engines ∧ t.streams = s.streams ∧ t.lastHdr = s.lastHdr ∧
      (s.belfry.run = true → ∃ i ∈ t.belfry.inputs, i.code = 0x98 ∧ i.part = hPart h ∧ i.layer = hLayer h ∧ i.cause = 1) ∧
      t.spires = s.spires ∧ t.cistern.data = s.cistern.data) ∧
  (∀ (s : State) (port : Nat) (h : WtHdr) (bs : List WtBeat) (drop : Bool), HostClk.wclk port ∈ s.keep.lostNow →
    exec (.weightSegment port h bs drop) s = .next s)

/-- ENGINE_ROW of an engine that a sample holds, with a row piece waiting whose operand fragment has come, moves the first waiting
piece to the processed ones; the engine keeps its sample and its columns; every other engine and every register of the partitions
stands. A piece whose fragment has not come, or whose sample's witness was read as poison, waits. (The model's readings: what
waits is no event, log 2.) ENGINE_SELF_TEST starts the checker self-test of a fenced engine, or of a free one that is ordered to
test, and has no effect on any other. ENGINE_TEST_DONE returns an engine under test to the pool when its six samples of 32 rows
give the stored CRCs and every slice of its logic self-test, from its rotation pointer on, its stored signature; the pointer has
moved past them, each is counted as passed, and their time is charged to partition 0. One whose samples fail, or the first of
whose slices does, fails: a failed slice is counted; it stays out with no column and no row, and every other engine keeps whether
it is fenced, testing or failed. (The model's readings: out of place, log 2; engines that leave and rejoin, log 38.)
(05_replay.md; 06_verdicts_and_quarantine.md) -/
def Obligations.EngineRowsAndSelfTest : Prop :=
  ((∀ (s : State) (e : Nat) (r : WRow) (rest : List WRow) (uid row : Nat) (x : Sample) (o : OpV), e < s.engines.length →
    (getEng s e).fifo = r :: rest → (getEng s e).state = .held uid row → getSample s uid row = some x → getOp s uid = some o →
    r.k / 1024 < x.frags.length → x.unread = false →
    ∃ t, exec (.engineRow e) s = .next t ∧ getEng t e = { getEng s e with fifo := rest, rows := (getEng s e).rows ++ [r] } ∧
      (∀ j, j ≠ e → getEng t j = getEng s j) ∧ t = { s with engines := t.engines, samples := t.samples, big := t.big }) ∧
  (∀ (s : State) (e : Nat) (r : WRow) (rest : List WRow) (uid row : Nat) (x : Sample),
    (getEng s e).fifo = r :: rest → (getEng s e).state = .held uid row → getSample s uid row = some x → x.frags.length ≤ r.k / 1024 ∨ x.unread = true →
    exec (.engineRow e) s = .next s)) ∧
  ((∀ (s : State) (e : Nat), e < s.engines.length → ((getEng s e).state = .fenced ∨ ((getEng s e).testDue = true ∧ (getEng s e).state = .free)) →
    ∃ t, exec (.engineSelfTest e) s = .next t ∧ getEng t e = { getEng s e with state := .testing, testDue := false } ∧
      (∀ j, j ≠ e → getEng t j = getEng s j) ∧ t = { s with engines := t.engines }) ∧
  (∀ (s : State) (e : Nat), (getEng s e).state ≠ .fenced → ((getEng s e).testDue = false ∨ (getEng s e).state ≠ .free) →
    exec (.engineSelfTest e) s = .next s) ∧
  (∀ (s : State) (e : Nat) (r : EngineRun), e < s.engines.length → (getEng s e).state = .testing → r.passes = true → 0 < s.parts.length →
    s.thermal.cnts.length = 7 →
    let es := goldenOf s uEngineSet
    let at_ := fun i => if i = 0 then (getEng s e).ptr else ((getEng s e).ptr + i) % es.length
    (∀ i, i < es.length → ∃ x, r.slices[i]? = some x ∧ x.sig = some (entryAt es (at_ i)).sig) →
    ∃ t, exec (.engineTestDone e r) s = .next t ∧ getEng t e = { getEng s e with state := .free, ptr := at_ es.length } ∧
      t.thermal.cnts.getD thPass 0 = satAdd (s.thermal.cnts.getD thPass 0) es.length ∧
      (getPart t 0).cnt.meters.getD mTest 0 = (if mTest < (getPart s 0).cnt.meters.length then (getPart s 0).cnt.meters.getD mTest 0 +
        BitVec.ofNat 64 (r.us.toNat + ((r.slices.take es.length).map fun x => x.us.toNat).sum) else 0) ∧
      (∀ j, j ≠ e → getEng t j = getEng s j) ∧ t = { s with engines := t.engines, parts := t.parts, thermal := t.thermal }) ∧
  (∀ (s : State) (e : Nat) (r : EngineRun), e < s.engines.length → (getEng s e).state = .testing →
    r.passes = false ∨ (0 < (goldenOf s uEngineSet).length ∧ ∀ x, r.slices.head? = some x → x.sig ≠ some (entryAt (goldenOf s uEngineSet) (getEng s e).ptr).sig) →
    ∃ t, exec (.engineTestDone e r) s = .next t ∧
      (r.passes = true → s.thermal.cnts.length = 7 → t.thermal.cnts.getD thFail 0 = satAdd (s.thermal.cnts.getD thFail 0) 1) ∧ (getEng t e).state = .failed ∧ (getEng t e).cols = [] ∧ (getEng t e).rows = [] ∧
      (∀ j, j ≠ e → ((getEng t j).state = .fenced ↔ (getEng s j).state = .fenced) ∧ ((getEng t j).state = .failed ↔ (getEng s j).state = .failed) ∧
        ((getEng t j).state = .testing ↔ (getEng s j).state = .testing)) ∧ t.cistern.data = s.cistern.data))

/-- SAMPLE_NOTICE takes the notice of its Spire that has reached the Keep. Of an operation that is neither LATE nor FINAL, whose
tile is not DEAD, outside a Keep warm reset, with the replay unit in service, no other sample and room in the overflow queue, it
opens the sample of that row, or, where rows of its key have crossed already (R183, log 104), counts it SKIPPED with cause MISSED;
of a LATE operation only the message is taken. (The model's readings: how a message arrives, log 10; kinds of sample, log 29.)
WITNESS_FRAGMENT and RESULT_CAPTURE take the message of their Spire that has reached the Keep. While the partition's use is below
level WIT of its quota the operand fragment, or the value window with its group digests, enters its sample, and the witness bytes
are metered to the partition; at or above it the sample ends SKIPPED. A sample that its Spire abandoned ends. (The model's
readings: how a message arrives, log 10; how samples end, log 41.) (05_replay.md; 09_belfry_and_time.md) -/
def Obligations.SamplesAndWitnesses : Prop :=
  ((∀ (s : State) (sp i uid row kind win : Nat) (tk : W64), nextMsg s (isNotice sp) = some (.notice i uid row kind win tk) →
    ∃ t, exec (.sampleNotice sp) s = .next t ∧ t.caravan.flight = s.caravan.flight.erase (.notice i uid row kind win tk) ∧
      t.cistern.data = s.cistern.data) ∧
  (∀ (s : State) (sp i uid row kind win : Nat) (tk : W64) (o : OpV), nextMsg s (isNotice sp) = some (.notice i uid row kind win tk) →
    getOp s uid = some o → o.late = false → o.state ≠ .final → stateOf s i ≠ stDead → inSafe s uRpl = false → s.samples = [] →
    s.keep.kwrDown = false → crossedBefore s (newSample s o i row kind win tk) = true → o.part < s.parts.length →
    (getPart s o.part).cnt.rpl.length = 15 →
    ∃ t, exec (.sampleNotice sp) s = .next t ∧ t.samples = [] ∧
      (getPart t o.part).cnt.rpl.getD 7 0 = satAdd ((getPart s o.part).cnt.rpl.getD 7 0) 1 ∧
      (getPart t o.part).cnt.rpl.getD 11 0 = satAdd ((getPart s o.part).cnt.rpl.getD 11 0) 1 ∧ t.cistern.data = s.cistern.data) ∧
  (∀ (s : State) (sp i uid row kind win : Nat) (tk : W64) (o : OpV), nextMsg s (isNotice sp) = some (.notice i uid row kind win tk) →
    getOp s uid = some o → o.late = false → o.state ≠ .final → stateOf s i ≠ stDead → inSafe s uRpl = false → s.samples = [] →
    s.keep.kwrDown = false → 0 < ((partCfg s o.part).map (·.ovfQuota)).getD 0 → crossedBefore s (newSample s o i row kind win tk) = false →
    ∃ t x, exec (.sampleNotice sp) s = .next t ∧ t.samples = [x] ∧ x.uid = uid ∧ x.row = row ∧ x.kind = kind ∧ x.winFirst = win ∧
      x.noticeTick = tk ∧ x.part = o.part ∧ x.dsc = o.dsc ∧ x.spire = i ∧
      t = { s with caravan := t.caravan, spires := t.spires, samples := t.samples, parts := t.parts }) ∧
  (∀ (s : State) (sp i uid row kind win : Nat) (tk : W64) (o : OpV), nextMsg s (isNotice sp) = some (.notice i uid row kind win tk) →
    getOp s uid = some o → o.late = true →
    ∃ t, exec (.sampleNotice sp) s = .next t ∧ t.caravan.flight = s.caravan.flight.erase (.notice i uid row kind win tk) ∧
      t = { s with caravan := t.caravan, spires := t.spires })) ∧
  ((∀ (s : State) (sp : Nat) (m : Msg), nextMsg s (isFragment sp) = some m →
    ∃ t, exec (.witnessFragment sp) s = .next t ∧ t.caravan.flight = s.caravan.flight.erase m ∧ t.cistern.data = s.cistern.data) ∧
  (∀ (s : State) (sp : Nat) (m : Msg), nextMsg s (isResult sp) = some m →
    ∃ t, exec (.resultCapture sp) s = .next t ∧ t.caravan.flight = s.caravan.flight.erase m ∧ t.cistern.data = s.cistern.data) ∧
  (∀ (s : State) (sp i uid row : Nat) (codes : List Nat) (scl : List Byte) (x : Sample),
    nextMsg s (isFragment sp) = some (.fragment i uid row codes scl) → getSample s uid row = some x → quotaOk s x.part lvWit = true →
    ∃ t y, exec (.witnessFragment sp) s = .next t ∧ getSample t uid row = some y ∧ y.frags = x.frags ++ [(codes, scl)] ∧
      (x.part < s.parts.length → (getPart t x.part).cnt.meters =
        updAt (getPart s x.part).cnt.meters mWitness (· + BitVec.ofNat 64 (fragBytes s uid codes scl))) ∧
      t = { s with caravan := t.caravan, samples := t.samples, parts := t.parts, spires := t.spires }) ∧
  (∀ (s : State) (sp i uid row : Nat) (win : List Nat) (scl : List Byte) (dg : List (W32 × Byte)) (x : Sample),
    nextMsg s (isResult sp) = some (.result i uid row win scl dg) → getSample s uid row = some x → quotaOk s x.part lvWit = true →
    ∃ t y, exec (.resultCapture sp) s = .next t ∧ getSample t uid row = some y ∧ y.win = win ∧ y.winScales = scl ∧ y.digests = dg ∧
      y.captured = true ∧
      (x.part < s.parts.length → (getPart t x.part).cnt.meters =
        updAt (getPart s x.part).cnt.meters mWitness (· + BitVec.ofNat 64 (resultBytes s uid win scl dg))) ∧
      t = { s with caravan := t.caravan, samples := t.samples, parts := t.parts, spires := t.spires }) ∧
  (∀ (s : State) (sp i uid row : Nat) (codes : List Nat) (scl : List Byte) (x : Sample) (o : OpV),
    nextMsg s (isFragment sp) = some (.fragment i uid row codes scl) → getSample s uid row = some x → getOp s uid = some o →
    quotaOk s x.part lvWit = false →
    ∃ t, exec (.witnessFragment sp) s = .next t ∧ getSample t uid row = none ∧ t.cistern.data = s.cistern.data) ∧
  (∀ (s : State) (sp i uid row cause : Nat) (inc : Bool) (x : Sample) (o : OpV), getSample s uid row = some x → getOp s uid = some o →
    (nextMsg s (isFragment sp) = some (.abandon i uid row cause inc) →
      ∃ t, exec (.witnessFragment sp) s = .next t ∧ getSample t uid row = none ∧ t.cistern.data = s.cistern.data) ∧
    (nextMsg s (isResult sp) = some (.abandon i uid row cause inc) →
      ∃ t, exec (.resultCapture sp) s = .next t ∧ getSample t uid row = none ∧ t.cistern.data = s.cistern.data)))

/-- REPLAY_COMPARE of a sample in COMPARE whose witness was not read as poison ends it PASS when no column and no group differs,
and makes it wait for its confirmation from the present tick when one does. REPLAY_DEADLINE ends a sample that does not wait for a
confirmation, CONFIRMATION_DEADLINE one that does and whose fingerprints have not agreed, whose stream had a bad segment or whose
witness was read as poison, each INCONCLUSIVE; ARBITRATION ends one whose confirming engines are complete and whose fingerprints
agreed with the first of MIRAGE, SUSPECT (contract in doubt), INCONCLUSIVE (disagreement) and ENGFAULT that a column reaches: in
the bit-exact classes a column of the value window whose E2 value is the host's, and E1's is not, is ENGFAULT; one whose E2 value
is neither is INCONCLUSIVE; one whose E2 value is E1's and not the host's is MIRAGE in the Integer class, and in another MIRAGE
where E1's value is sound against E3's reference and SUSPECT where it is not. A sample that has ended stands nowhere; its verdict
is counted in its partition (of an INCONCLUSIVE one, the count is stated where no column reached ENGFAULT, whose engine would end
other samples). (The model's readings: deadlines by state, log 36; when engines return, log 38; how samples end, log 41.)
(05_replay.md) -/
def Obligations.ReplayVerdicts : Prop :=
  (∀ (s : State) (n : Nat) (x : Sample) (o : OpV), sampleAt s n = some x → getSample s x.uid x.row = some x → getOp s x.uid = some o →
    x.part < s.parts.length → (getPart s x.part).cnt.rpl.length = 15 → x.state = .compare → x.unread = false →
    (compareSample s x (exactMode o)).mis = [] → (compareSample s x (exactMode o)).groups = [] →
    ∃ t, exec (.replayCompare n) s = .next t ∧ getSample t x.uid x.row = none ∧
      (getPart t x.part).cnt.rpl.getD 1 0 = satAdd ((getPart s x.part).cnt.rpl.getD 1 0) 1 ∧
      t.spires = s.spires ∧ t.cistern.data = s.cistern.data) ∧
  (∀ (s : State) (n : Nat) (x : Sample) (o : OpV), sampleAt s n = some x → getSample s x.uid x.row = some x → getOp s x.uid = some o →
    x.part < s.parts.length → (getPart s x.part).cnt.rpl.length = 15 → x.state = .compare → x.unread = false →
    ((compareSample s x (exactMode o)).mis ≠ [] ∨ (compareSample s x (exactMode o)).groups ≠ []) →
    ∃ t y, exec (.replayCompare n) s = .next t ∧ getSample t x.uid x.row = some y ∧ y.state = .confirming ∧ y.misTick = s.time.tick ∧
      y.mis = (compareSample s x (exactMode o)).mis ∧ y.misGroups = (compareSample s x (exactMode o)).groups ∧
      (getPart t x.part).cnt.rpl.getD 2 0 = satAdd ((getPart s x.part).cnt.rpl.getD 2 0) 1 ∧
      t.spires = s.spires ∧ t.cistern.data = s.cistern.data) ∧
  (∀ (s : State) (n : Nat) (x : Sample) (o : OpV), sampleAt s n = some x → getSample s x.uid x.row = some x → getOp s x.uid = some o →
    x.part < s.parts.length → (getPart s x.part).cnt.rpl.length = 15 → x.state ≠ .confirming →
    ∃ t, exec (.replayDeadline n) s = .next t ∧ getSample t x.uid x.row = none ∧
      (getPart t x.part).cnt.rpl.getD 6 0 = satAdd ((getPart s x.part).cnt.rpl.getD 6 0) 1 ∧
      t.spires = s.spires ∧ t.cistern.data = s.cistern.data) ∧
  (∀ (s : State) (n : Nat) (x : Sample) (o : OpV), sampleAt s n = some x → getSample s x.uid x.row = some x → getOp s x.uid = some o →
    x.part < s.parts.length → (getPart s x.part).cnt.rpl.length = 15 → x.state = .confirming →
    (x.matched = false ∨ x.wtviol = true ∨ x.unread = true) →
    ∃ t, exec (.confirmationDeadline n) s = .next t ∧ getSample t x.uid x.row = none ∧
      (getPart t x.part).cnt.rpl.getD 6 0 = satAdd ((getPart s x.part).cnt.rpl.getD 6 0) 1 ∧
      t.spires = s.spires ∧ t.cistern.data = s.cistern.data) ∧
  (∀ (s : State) (n : Nat) (x : Sample) (o : OpV), sampleAt s n = some x → getSample s x.uid x.row = some x → getOp s x.uid = some o →
    x.state = .confirming → x.matched = true → x.wtviol = false → x.unread = false → x.conf.all (engDone s (dK x.dsc)) = true →
    x.part < s.parts.length → (getPart s x.part).cnt.rpl.length = 15 →
    let integer := comboClass (dA o.dsc) (dB o.dsc) (dC o.dsc) (dAcc o.dsc) == some .integer
    let os := arbOutcomes s x (exactMode o) integer
    let has := fun r => os.any fun y => y.2 == r
    let word := if has arbMirage then 3 else if has arbDoubt then 4 else if has arbDisagree then 6 else 5
    let rows := fun i => ((x.conf.drop i).head?.map fun e => (getEng s e).rows).getD []
    let r1 := fun c => ((x.r1.find? fun m => m.col == c).map fun m => (⟨m.e1, m.scale⟩ : OutElem)).getD ⟨0, 0⟩
    (exactMode o = false → ∀ c r2, (c, r2) ∈ exactBits s x (rows 0) x.confCols → inWindow x c = true →
      (r2 = hostElem x c → r1 c ≠ hostElem x c → ([c], arbEngfault) ∈ os) ∧
      (r2 ≠ hostElem x c → r2 ≠ r1 c → ([c], arbDisagree) ∈ os) ∧
      (r2 = r1 c → r2 ≠ hostElem x c → integer = true → ([c], arbMirage) ∈ os) ∧
      (∀ r, integer = false → (exactRefs s x (rows 1) x.confCols).find? (fun r => r.col == c) = some r → r2 = r1 c → r2 ≠ hostElem x c →
        ([c], if soundRef s x (r1 c) r then arbMirage else arbDoubt) ∈ os)) ∧
    ∃ t, exec (.arbitration n) s = .next t ∧ getSample t x.uid x.row = none ∧
      ((word = 6 → has arbEngfault = false) →
        (getPart t x.part).cnt.rpl.getD word 0 = satAdd ((getPart s x.part).cnt.rpl.getD word 0) 1) ∧
      t.spires = s.spires ∧ t.cistern.data = s.cistern.data)

/-- SCRSUM, EXPPROF and DIGOP take the message of their Spire that has reached the Keep. At a summary the operation it names
leaves its opened state with the range bits and the output digest of the summary; one that the Keep has closed already stays as it
is. A profile of a range record that learns begins the envelope of a layer and operator not seen before, while the partition has
room for one. Digests enter the operation's layer key. RERUN_DEADLINE makes the SUSPECT of a first operation with no rerun stand,
outcome 6. (The model's readings: how a message arrives, log 10; when LATE is judged, log 28; deadlines by state, logs 36 and 41.)
(06_verdicts_and_quarantine.md; 08_digests_and_determinism.md) -/
def Obligations.VerdictMessages : Prop :=
  (∀ (s : State) (sp : Nat) (m : Msg),
    (nextMsg s (isSummary sp) = some m → ∃ t, exec (.scrsum sp) s = .next t ∧ t.caravan.flight = s.caravan.flight.erase m ∧
      t.cistern.data = s.cistern.data) ∧
    (nextMsg s (isProfile sp) = some m → ∃ t, exec (.expprof sp) s = .next t ∧ t.caravan.flight = s.caravan.flight.erase m ∧
      t.cistern.data = s.cistern.data) ∧
    (nextMsg s (isDigests sp) = some m → ∃ t, exec (.digop sp) s = .next t ∧ t.caravan.flight = s.caravan.flight.erase m ∧
      t.cistern.data = s.cistern.data)) ∧
  (∀ (s : State) (sp i uid : Nat) (recs : List Rec) (scr : ScreenRes) (bits : Nat) (su ev : Bool) (od tk : W64) (o : OpV),
    nextMsg s (isSummary sp) = some (.summary i uid recs scr bits su ev od tk) → getOp s uid = some o → o.state = .opened →
    ∃ t v, exec (.scrsum sp) s = .next t ∧ getOp t uid = some v ∧ v.state ≠ .opened ∧ v.range = bits ∧ v.od = some od ∧
      (o.checkable = true → v.scr = some scr) ∧ (∀ j, j ≠ i → getSp t j = getSp s j)) ∧
  (∀ (s : State) (sp i uid : Nat) (recs : List Rec) (scr : ScreenRes) (bits : Nat) (su ev : Bool) (od tk : W64) (o : OpV),
    nextMsg s (isSummary sp) = some (.summary i uid recs scr bits su ev od tk) → getOp s uid = some o → o.state ≠ .opened →
    ∃ t, exec (.scrsum sp) s = .next t ∧ t.ops = s.ops ∧ t.caravan.flight = s.caravan.flight.erase (.summary i uid recs scr bits su ev od tk) ∧
      t.cistern.data = s.cistern.data) ∧
  (∀ (s : State) (sp i uid : Nat) (vhi : Bool) (r : Rec) (hi : Int) (bins : List Nat) (o : OpV),
    nextMsg s (isProfile sp) = some (.profile i uid vhi r (some hi) bins) →
    getOp s uid = some o → o.part < s.parts.length → rEnvEn (rangeOf s o.part o.dsc) = true → rLearn (rangeOf s o.part o.dsc) ≠ 0 →
    bins.foldl (· + ·) 0 ≠ 0 → (getPart s o.part).envs.find? (sameKey · o) = none →
    (getPart s o.part).envs.length < qEnvKeys (plausRec s o.part) →
    ∃ t, exec (.expprof sp) s = .next t ∧ (getPart t o.part).envs = (getPart s o.part).envs ++
      [{ layer := dLayer o.dsc, oper := dOper o.dsc, loHi := hi, hiHi := hi, lo := fractions bins, hi := fractions bins,
         learnFrom := firstStep (getPart s o.part) o, steps := rLearn (rangeOf s o.part o.dsc),
         learned := learnOver (getPart s o.part).pos.step (firstStep (getPart s o.part) o) (rLearn (rangeOf s o.part o.dsc)) }] ∧
      t.ops = s.ops) ∧
  (∀ (s : State) (sp i uid : Nat) (od dd : W64) (rsv : Nat) (id : Option W64) (acct : List Nat) (early : Bool) (k : LayerKey) (v : LkOp),
    nextMsg s (isDigests sp) = some (.digests i uid od rsv dd id acct early) →
    partOfSp s sp < s.parts.length → k ∈ (getPart s (partOfSp s sp)).keys → v ∈ k.ops → v.uid = uid →
    ∃ t l w, exec (.digop sp) s = .next t ∧ l ∈ (getPart t (partOfSp s sp)).keys ∧ w ∈ l.ops ∧ w.uid = uid ∧ w.od = some od ∧ w.dd = dd ∧
      w.id = id ∧ w.rsv = rsv ∧ w.rows = acct.getD 3 0 ∧ w.early = early ∧ t.ops = s.ops) ∧
  (∀ (s : State) (sp : Nat) (stag ep : W16) (o : OpV), getOp s o.uid = some o → o.spire = sp → dStag o.dsc = stag → dEpoch o.dsc = ep →
    o.state = .resolving → opSuspect o = true → o.res = none → o.rerunBy = none → o.replay ≠ vMirage →
    (∀ v ∈ s.ops, v.spire = sp → dStag v.dsc = stag → dEpoch v.dsc = ep → v = o) →
    ∃ t v, exec (.rerunDeadline sp stag ep) s = .next t ∧ getOp t o.uid = some v ∧ v.res = some vSuspect ∧ v.outcome = 6 ∧
      t.spires = s.spires ∧ t.cistern.data = s.cistern.data)

/-- CKPT_OPEN with no window and no rollback opens a window at the partition's position, epoch and tick, with empty digests; with
either it has no effect. CKPT_WRITTEN moves an open window on once, CKPT_READ a written one; each changes its own partition only.
(The model's readings: the phase commands, log 19; out of phase, log 2.) RESTORE_BEGIN of a partition whose rollback has not begun
is taken when the partition's epoch is not earlier than the rollback's floor, and has no effect when it is; RESTORE_END ends a
restore that has begun, at the present tick, once. (The model's readings: the phase commands, log 19; out of phase, log 2.)
JOB_START with no window open and no rollback in progress leaves the partition with no envelope, no tag entry but the one for all
other keys, no armed dump and no generation, posts OASIS_FREE for each generation it held, and begins an interval at this tick;
with a window or a rollback it has no effect. Every other partition stands. (The model's readings: log 19; out of phase, log 2.)
(07_oasis_and_recovery.md; 06_verdicts_and_quarantine.md) -/
def Obligations.CheckpointsRestoresAndJobs : Prop :=
  (∀ (s : State) (p : Nat), p < s.parts.length →
    ((getPart s p).window = none → (getPart s p).rb = none → ∃ t w, exec (.ckptOpen p) s = .next t ∧ (getPart t p) = { getPart s p with window := some w } ∧
      w.phase = 0 ∧ w.era = (getPart s p).pos.era ∧ w.step = (getPart s p).pos.step ∧ w.layer = (getPart s p).pos.layer ∧
      w.epoch = (getPart s p).epoch ∧ w.openTick = s.time.tick ∧ w.wr = Ckd.zero ∧ w.rd = Ckd.zero ∧
      (∀ q, q ≠ p → getPart t q = getPart s q) ∧ t = { s with parts := t.parts, rng := t.rng }) ∧
    ((getPart s p).window.isSome = true ∨ (getPart s p).rb.isSome = true → exec (.ckptOpen p) s = .next s) ∧
    (∀ w, (getPart s p).window = some w → w.phase = 0 → ∃ t w', exec (.ckptWritten p) s = .next t ∧
      getPart t p = { getPart s p with window := some w' } ∧ w' = { w with phase := 1, writtenTick := s.time.tick, bad250 := w'.bad250 } ∧
      (∀ q, q ≠ p → getPart t q = getPart s q) ∧ t = { s with parts := t.parts }) ∧
    (∀ w, (getPart s p).window = some w → w.phase = 1 → ∃ t, exec (.ckptRead p) s = .next t ∧
      getPart t p = { getPart s p with window := some { w with phase := 2, readTick := s.time.tick } } ∧
      (∀ q, q ≠ p → getPart t q = getPart s q) ∧ t = { s with parts := t.parts }) ∧
    (∀ w, (getPart s p).window = some w → (w.phase ≠ 0 → exec (.ckptWritten p) s = .next s) ∧
      (w.phase ≠ 1 → exec (.ckptRead p) s = .next s))) ∧
  (∀ (s : State) (p : Nat) (r : Rollback), p < s.parts.length → (getPart s p).rb = some r →
    (r.beginEpoch = none → earlierThan (getPart s p).epoch r.floor = false → ∃ t, exec (.restoreBegin p) s = .next t ∧
      getPart t p = { getPart s p with rb := some { r with beginEpoch := some (getPart s p).epoch } } ∧
      (∀ q, q ≠ p → getPart t q = getPart s q) ∧ t = { s with parts := t.parts }) ∧
    (earlierThan (getPart s p).epoch r.floor = true ∨ r.beginEpoch ≠ none → exec (.restoreBegin p) s = .next s) ∧
    (r.beginEpoch ≠ none → r.ended = none → ∃ t, exec (.restoreEnd p) s = .next t ∧
      getPart t p = { getPart s p with rb := some { r with ended := some s.time.tick } } ∧
      (∀ q, q ≠ p → getPart t q = getPart s q) ∧ t = { s with parts := t.parts }) ∧
    (r.beginEpoch = none ∨ r.ended ≠ none → exec (.restoreEnd p) s = .next s)) ∧
  ((∀ (s : State) (p : Nat), p < s.parts.length → (getPart s p).window = none → (getPart s p).rb = none →
    ∃ t, exec (.jobStart p) s = .next t ∧ (getPart t p).job = true ∧ (getPart t p).norecov = false ∧ (getPart t p).envs = [] ∧
      (getPart t p).tags = [TagEnt.rest] ∧ (getPart t p).armed = none ∧ (getPart t p).gens = [] ∧ (getPart t p).intervalTick = s.time.tick ∧
      (getPart t p).maxGen = (getPart s p).maxGen ∧
      (getPart t p).logs.notes.prod = (getPart s p).logs.notes.prod + (getPart s p).gens.length ∧
      (∀ q, q ≠ p → getPart t q = getPart s q) ∧ t = { s with parts := t.parts, near := t.near, ops := t.ops, trc := t.trc }) ∧
  (∀ (s : State) (p : Nat), (getPart s p).window ≠ none ∨ (getPart s p).rb ≠ none → exec (.jobStart p) s = .next s))

/-- At a BELFRY_TICK at which the Belfry steps, after the tick's inputs and actions, a read window of the one partition that has a
window or a rollback is evaluated (the Belfry not in its safe state): with an operation of its closing set open (not FINAL, or
with a sample or a rerun open) it waits; else the first condition of R252's table that holds refuses it (0x02 a SUSPECT or MIRAGE,
of the set or LATE; 0x03 a disagreement; 0x04 a HANG; 0x05 an MTVIOL; 0x06 digests that differ or a check of R250; 0x07 NCLK lost;
0x0A, in a STRICT partition, an INCONCLUSIVE; 0x0B a Keep warm reset): the window closes, the code is in the partition's seal
failure register and the generations stand; with none the partition holds a new newest generation, numbered one above the highest
so far, with the position, epoch, keys and written digest of the window, at most two generations stand, and the window closes.
(That a read window is judged again at the end of each such tick is log 42; which tick that is, log 4; the order of its work, log
63; a LATE SUSPECT, log 101.) SEAL_TIMEOUT with operations still open refuses with code 0x09. (07_oasis_and_recovery.md;
09_belfry_and_time.md) -/
def Obligations.SealOrRefusal : Prop :=
  (∀ (s : State) (p : Nat) (w : Window), s.time.run = true → s.belfry.run = true → p < 16 →
    let u := beforeSeals (sampleTick (atTick s) (nextBelfry s))
    inSafe u uBlf = false → (∀ q, (getPart u q).rb = none ∧ (q ≠ p → (getPart u q).window = none)) → (getPart u p).window = some w → w.phase = 2 →
    let cs := u.ops.filter fun o => o.part == p && inClosing w o
    let waits := cs.any fun o => o.state != .final || o.samplesOpen != 0 || o.ticket.isSome || (o.rerunBy.isSome && o.res.isNone)
    let code : Nat :=
      if (cs.any fun o => o.verdict == vSuspect || o.verdict == vMirage) || u.ops.any (lateHolds u p) then 0x02
      else if cs.any fun o => o.verdict == vIncon && o.disagree then 0x03
      else if (getPart u p).hangSeen then 0x04
      else if (getPart u p).mtSeen then 0x05
      else if w.rd ≠ w.wr ∨ w.bad250 = true then 0x06
      else if w.nclkLost then 0x07
      else if ((partCfg u p).map (·.strict)).getD false && cs.any fun o => o.verdict == vIncon then 0x0A
      else if w.kwr then 0x0B else 0
    ∃ t, exec .belfryTick s = .next t ∧
      (waits = true → (getPart t p).window = some w ∧ (getPart t p).gens = (getPart u p).gens) ∧
      (waits = false → code ≠ 0 → (getPart t p).window = none ∧ (getPart t p).sealFail = BitVec.ofNat 8 code ∧
        (getPart t p).gens = (getPart u p).gens ∧ (getPart t p).maxGen = (getPart u p).maxGen) ∧
      (waits = false → code = 0 → (getPart t p).window = none ∧ (getPart t p).maxGen = (getPart u p).maxGen + 1 ∧
        ∃ g, (getPart t p).gens = (g :: (getPart u p).gens).take 2 ∧ g.num = (getPart u p).maxGen + 1 ∧ g.era = w.era ∧ g.step = w.step ∧
          g.layer = w.layer ∧ g.epoch = w.epoch ∧ g.s1 = w.wr.s1 ∧ g.s2 = w.wr.s2 ∧ g.n = w.wr.n ∧ g.k1 = w.k1 ∧ g.k2 = w.k2 ∧
          g.tick = t.time.tick)) ∧
  (∀ (s : State) (p : Nat) (w : Window), p < s.parts.length → (getPart s p).window = some w → w.phase = 2 →
    openOps01 s p w = true →
    ∃ t, exec (.sealTimeout p) s = .next t ∧ (getPart t p).window = none ∧ (getPart t p).sealFail = 0x09 ∧
      (getPart t p).gens = (getPart s p).gens ∧ (getPart t p).logs.notes.prod = (getPart s p).logs.notes.prod + 1 ∧
      (∀ q, q ≠ p → getPart t q = getPart s q) ∧ t = { s with parts := t.parts, near := t.near })

/-- At a BELFRY_TICK at which the Belfry steps, after RESTORE_END, in the one partition that has a window or a rollback: where the
restored digest equals that of the generation named, the rollback ends and the generations stand; where it differs, that
generation is dropped, and recovery goes on with the next one, or, with none left, ends for the job. ROLLBACK_REPOST posts the
note again, at this tick, while the restore has not begun; ROLLBACK_TIMEOUT before RESTORE_END ends recovery for the job. (The
model's readings: when a restore is judged, log 42; the tick and the order of its work, logs 4 and 63; a restarted rollback, log
89; deadlines by state, log 36.) (07_oasis_and_recovery.md; 09_belfry_and_time.md) -/
def Obligations.RollbackRestoresASealedGeneration : Prop :=
  (∀ (s : State) (p : Nat) (r : Rollback) (g : Gen), s.time.run = true → s.belfry.run = true → p < 16 →
    let u := beforeSeals (sampleTick (atTick s) (nextBelfry s))
    (∀ q, (getPart u q).window = none ∧ (q ≠ p → (getPart u q).rb = none)) → (getPart u p).rb = some r → r.ended ≠ none →
    (getPart u p).gens.find? (fun x => x.num == r.gen) = some g →
    ∃ t, exec .belfryTick s = .next t ∧
      (r.restore = ⟨g.s1, g.s2, g.n⟩ → (getPart t p).rb = none ∧ (getPart t p).gens = (getPart u p).gens ∧ (getPart t p).c4Open = true) ∧
      (r.restore ≠ ⟨g.s1, g.s2, g.n⟩ →
        (getPart t p).gens = (getPart u p).gens.filter (fun x => x.num != g.num) ∧
        match (getPart u p).gens.filter (fun x => x.num != g.num) with
        | h :: _ => ∃ r', (getPart t p).rb = some r' ∧ r'.gen = h.num ∧ r'.tried = r.tried.filter (fun n => n != h.num) ++ [h.num] ∧
          r'.floor = (getPart u p).epoch + 1 ∧ r'.beginEpoch = none
        | [] => (getPart t p).rb = none ∧ (getPart t p).norecov = true)) ∧
  (∀ (s : State) (p : Nat) (r : Rollback) (g : Gen), p < s.parts.length → (getPart s p).rb = some r → r.beginEpoch = none →
    (getPart s p).gens.find? (fun x => x.num == r.gen) = some g →
    ∃ t r', exec (.rollbackRepost p) s = .next t ∧ (getPart t p).rb = some r' ∧ r' = { r with noteTick := r'.noteTick } ∧
      (getPart t p).logs.notes.prod = (getPart s p).logs.notes.prod + 1 ∧ (∃ n ∈ (getPart t p).logs.notes.items, n.kind = .rollback ∧
        n.num = (getPart s p).logs.notes.prod ∧ n.tick = s.time.tick) ∧ (getPart t p).gens = (getPart s p).gens ∧
      t = { s with parts := t.parts, near := t.near }) ∧
  (∀ (s : State) (p : Nat) (r : Rollback), p < s.parts.length → (getPart s p).rb = some r → r.ended = none →
    ∃ t, exec (.rollbackTimeout p) s = .next t ∧ (getPart t p).rb = none ∧ (getPart t p).norecov = true ∧
      t.keep.alert.getLsbD alRecovery = true ∧ (getPart t p).gens = (getPart s p).gens ∧ t.spires = s.spires ∧ t.cistern.data = s.cistern.data)

/-- With NCLK present: a whole write of a named tensor inside an open window is added to the written digest. Every other write is
a violation, which the partition remembers, with its record's tick, and which clears C2 of its rollback: 0x01 for a tensor that no
CKPT descriptor named, else 0x03 for a line not whole, inside an open window, and 0x02 with no window, or after CKPT_WRITTEN. A
read of a written window is added to the read digest; a read between RESTORE_BEGIN and RESTORE_END is added to the restored digest
under the keys of the generation named, and clears C2 if that generation holds no such tensor (the reading of R264's C2, log 42);
any other read is only counted as ignored. The Cistern, the Spires and the other partitions stand; of partition 0 a violation's
record may charge the Cistern's lines and its notes, nothing else. (The model's readings: 0x01 is of writes only, log 42.)
(02_tile_tap.md; 07_oasis_and_recovery.md) -/
def Obligations.MemoryTapLines : Prop :=
  ∀ (s : State) (l : MtLine), s.keep.lostNow.contains .nclk = false → l.part < s.parts.length →
    let keeps := fun t : State => (∀ q, q ≠ l.part → q ≠ 0 → getPart t q = getPart s q) ∧
      (l.part ≠ 0 → getPart t 0 = { getPart s 0 with cnt := (getPart t 0).cnt, logs := (getPart t 0).logs }) ∧
      t.spires = s.spires ∧ t.cistern.data = s.cistern.data
    let viol := fun code : Nat => ∃ t, exec (.memtapLine l) s = .next t ∧ (getPart t l.part).mtSeen = true ∧
      (getPart t l.part).mtLast = some s.time.tick ∧ (getPart t l.part).window = (getPart s l.part).window ∧
      (getPart t l.part).rb = (getPart s l.part).rb.map (fun r => { r with c2 := false }) ∧
      (s.belfry.run = true → ∃ i ∈ t.belfry.inputs, i.code = 0x99 ∧ i.part = l.part ∧ i.cause = code) ∧ keeps t
    (∀ w, l.wr = true → (getPart s l.part).window = some w → w.phase = 0 → l.tensor ∈ (getPart s l.part).named → l.be = BitVec.allOnes 64 →
      ∃ t w', exec (.memtapLine l) s = .next t ∧ (getPart t l.part).window = some w' ∧ w'.wr = w.wr.add w.k1 w.k2 l ∧ w'.rd = w.rd ∧
        (∃ n, (l.tensor, n) ∈ w'.tensors) ∧ (getPart t l.part).mtSeen = (getPart s l.part).mtSeen ∧ keeps t) ∧
    (l.wr = true → ((getPart s l.part).window.map fun w => w.phase == 0) ≠ some true → viol 2) ∧
    (∀ w, l.wr = true → (getPart s l.part).window = some w → w.phase = 0 → l.tensor ∉ (getPart s l.part).named → viol 1) ∧
    (∀ w, l.wr = true → (getPart s l.part).window = some w → w.phase = 0 → l.tensor ∈ (getPart s l.part).named → l.be ≠ BitVec.allOnes 64 → viol 3) ∧
    (∀ w, l.wr = false → (getPart s l.part).window = some w → w.phase = 1 → ∃ t w', exec (.memtapLine l) s = .next t ∧
      (getPart t l.part).window = some w' ∧ w'.rd = w.rd.add w.k1 w.k2 l ∧ w'.wr = w.wr ∧ keeps t) ∧
    (∀ r g, l.wr = false → (getPart s l.part).window = none → (getPart s l.part).rb = some r → r.beginEpoch ≠ none → r.ended = none →
      (getPart s l.part).gens.find? (fun x => x.num == r.gen) = some g → ∃ t, exec (.memtapLine l) s = .next t ∧
        (getPart t l.part).rb = some { r with restore := r.restore.add g.k1 g.k2 l, c2 := r.c2 && g.tensors.any fun x => x.1 == l.tensor } ∧
        (getPart t l.part).gens = (getPart s l.part).gens ∧ keeps t) ∧
    (l.wr = false → (∀ w, (getPart s l.part).window = some w → w.phase ≠ 1) →
      ((getPart s l.part).window = none → ∀ r, (getPart s l.part).rb = some r → r.beginEpoch = none ∨ r.ended ≠ none) → ∃ t, exec (.memtapLine l) s = .next t ∧
      (getPart t l.part).cnt.mtIgn = satInc (getPart s l.part).cnt.mtIgn ∧ keeps t)

/-- With CAD_READY and PCLK present: a word with a bad CCRC or a reserved bit is refused with CADVIOL 0x01; else one that moves
backward from the last accepted word of its partition with 0x02; else one with a reserved PHASE with 0x03; else one whose protocol
PHASE is out of order, by the state that the accepted words will leave and the Keep's rollback state, with 0x04. A refused word
pulses CAD_NACK, enters nothing, and, the Belfry stepping, stages input 0x97 with its code; any other word enters the FIFO last
and is the last accepted one of its partition. (R334) -/
def Obligations.CadenceWordChecks : Prop :=
  ∀ (s : State) (w : CadW), cadReady s = true → s.keep.lostNow.contains .pclk = false → cPart w < s.parts.length →
    let acc := (getPart s (cPart w)).accepted
    let bad := cCrcOk w = false ∨ cReserved w = true
    let back := ∃ a, acc = some a ∧ (earlierThan (cEpoch w) a.epoch = true ∨ (cEpoch w = a.epoch ∧ posLt (cPos w) a = true))
    let adv := (acc.map fun a => laterThan (cEpoch w) a.epoch).getD false
    let order := protoOk s w acc.isNone adv = true
    let refused := fun c : Nat => ∃ t, exec (.cadenceWord w) s = .next t ∧ t.cadNack = true ∧ t.belfry.cadFifo = s.belfry.cadFifo ∧
      (∀ p, (getPart t p).accepted = (getPart s p).accepted) ∧
      (s.belfry.run = true → ∃ i ∈ t.belfry.inputs, i.code = 0x97 ∧ (c ≠ 1 → i.part = cPart w) ∧ i.cause = c) ∧ t.spires = s.spires ∧
      t.cistern.data = s.cistern.data
    (bad → refused 1) ∧ (¬ bad → back → refused 2) ∧ (¬ bad → ¬ back → (cPhase w).toNat ≥ 0xF6 → refused 3) ∧
    (¬ bad → ¬ back → (cPhase w).toNat < 0xF6 → ¬ order → refused 4) ∧
    (¬ bad → ¬ back → (cPhase w).toNat < 0xF6 → order → ∃ t, exec (.cadenceWord w) s = .next t ∧ t.cadNack = false ∧
      t.belfry = { s.belfry with cadFifo := s.belfry.cadFifo ++ [w] } ∧
      getPart t (cPart w) = { getPart s (cPart w) with accepted := some (cPos w) } ∧ (∀ p, p ≠ cPart w → getPart t p = getPart s p) ∧
      t = { s with cadNack := t.cadNack, belfry := t.belfry, parts := t.parts })

/-- A TIMER peal that may fire is among the firings of Belfry tick n for partition p exactly when n mod (PERIOD × U) equals OFFSET
× U and p is the peal's partition, or, with ALLP, any of 0 to 15. (R345) -/
def Obligations.TimerPealsDue : Prop :=
  ∀ (s : State) (n ix p : Nat) (x : Peal), (ix, x) ∈ allPeals s → plKind x = kTimer → pealLive s ix = true →
    ((timersAt s n).count (ix, p) = if n % (plPeriod x * plUnitTicks x) = plOffset x * plUnitTicks x ∧
      (if plAllp x = true then p < 16 else p = plPart x) then 1 else 0)

/-- (The command's form is the model's, log 4.) While the fabric counter runs, BELFRY_TICK takes the fabric tick to 256 times the
next Belfry tick number, and the Belfry's tick register shows that number; a counter that does not run stays, and the command has
no effect. While the Belfry does not step no waiting input and no waiting word is taken; the firings due at that tick are counted
as missed from step 5 on, each once. (The model's readings: out of place, log 2; firings before step 5, log 63.) TIMER_PEAL of a
peal due at the next Belfry tick makes its firings wait for that tick, each once (where the tick finds the Belfry stopped they are
missed: belfry_tick_time). COUNT_WINDOW_CLOSE drops the count of its peal and key and no other, and partition 0 gets back the line
that held it (log 98). COUNTING_PEAL_FIRE of a live counting peal whose count lacks one of TRIG_N, and which has an action to
give, uses the count up; while the Belfry does not step it has no effect. (The model's readings: out of place, log 2.)
(09_belfry_and_time.md) -/
def Obligations.BelfryTicksAndCounts : Prop :=
  ((∀ (s : State), s.time.run = false → exec .belfryTick s = .next s) ∧
  (∀ (s : State), s.time.run = true → s.time.tick.toNat < 2 ^ 63 →
    ∃ t, exec .belfryTick s = .next t ∧ t.time.tick.toNat = 256 * nextBelfry s ∧ t.belfry.tick = BitVec.ofNat 64 (nextBelfry s) ∧
      s.time.tick.toNat ≤ t.time.tick.toNat ∧ t.time.tick.toNat ≤ s.time.tick.toNat + 256 ∧
      (s.belfry.run = false → t.belfry.inputs = s.belfry.inputs ∧ t.belfry.cadFifo = s.belfry.cadFifo ∧ t.tiles = s.tiles ∧
        t.belfry.timersNow = [] ∧
        t.belfry.missCnt = satAdd s.belfry.missCnt
          (if s.boot.step ≥ 5 then (s.belfry.timersNow ++ timersAt s (nextBelfry s)).eraseDups.length else 0)) ∧
      t.cistern.data = s.cistern.data)) ∧
  ((∀ (s : State) (ix : Nat), s.time.run = true → timerDue (pealAt s ix) (nextBelfry s) = true → pealLive s ix = true →
    ∃ t, exec (.timerPeal ix) s = .next t ∧ (∀ p ∈ firingParts (pealAt s ix), (ix, p) ∈ t.belfry.timersNow) ∧
      s.belfry.timersNow <+: t.belfry.timersNow ∧
      (∀ x ∈ t.belfry.timersNow, x ∈ s.belfry.timersNow ∨ (x.1 = ix ∧ x.2 ∈ firingParts (pealAt s ix))) ∧
      (s.belfry.timersNow.Nodup → t.belfry.timersNow.Nodup) ∧ t = { s with belfry := { s.belfry with timersNow := t.belfry.timersNow } }) ∧
  (∀ (s : State) (ix key : Nat), let held := s.belfry.counts.find? fun c => c.1 == ix && c.2.1 == key
    (held = none → exec (.countWindowClose ix key) s = .next s) ∧
    (∀ c, held = some c → 0 < s.parts.length → ∃ t, exec (.countWindowClose ix key) s = .next t ∧ t.belfry.counts = s.belfry.counts.erase c ∧
      (getPart t 0).cnt.cisUse.toNat = (getPart s 0).cnt.cisUse.toNat - 1 ∧
      getPart t 0 = { getPart s 0 with cnt := { (getPart s 0).cnt with cisUse := (getPart t 0).cnt.cisUse } } ∧
      (∀ p, p ≠ 0 → getPart t p = getPart s p) ∧
      t = { s with belfry := { s.belfry with counts := t.belfry.counts }, parts := t.parts })) ∧
  (∀ (s : State) (ix key : Nat) (c : Nat × Nat × Nat × W64), s.belfry.counts.find? (fun c => c.1 == ix && c.2.1 == key) = some c →
    s.belfry.run = true → plN (pealAt s ix) ≤ c.2.2.1 + 1 → counting (pealAt s ix) = true → pealLive s ix = true →
    pealActs s (mkInput s (plTrig (pealAt s ix)) 0 0 0 0 false 0 0).cls ix (pealAt s ix) (if key < 65536 then partOfSp s key else key - 65536)
      (some (mkInput s (plTrig (pealAt s ix)) (if key < 65536 then partOfSp s key else key - 65536) (if key < 65536 then key else 0xFFFF)
        0xFFFF (plCause (pealAt s ix)) false 0 0)) ≠ [] →
    ∃ t, exec (.countingPealFire ix key) s = .next t ∧ t.belfry.counts = s.belfry.counts.erase c ∧ t.cistern.data = s.cistern.data) ∧
  (∀ (s : State) (ix key : Nat), s.belfry.run = false → exec (.countingPealFire ix key) s = .next s))

/-- CSR_READ of an admitted address answers with the register's value and code OK and changes nothing but the response.
REGISTER_WRITE of an admitted address whose place takes the write (a locked field of the KEEP page does not) performs the write of
that place and answers OK; on the Caravan's page that is the clearing of its status bits and the loading of its counters. A
request with bad parity or a misaligned address answers MALFORMED, one whose phase of bring-up does not serve the place NOTAVAIL,
one without the right DENIED, each with data 0 and one access event, whose bit of KEEP_ACCSTAT is set and whose counter rises; no
unit's register, Spire or byte of the Cistern changes by it. (The model's readings: order of the checks, log 65; a failed
bring-up, log 66; tenants, log 67; records, log 69; answers at once, log 72.) (14_csr_model.md) -/
def Obligations.RegisterAccess : Prop :=
  (∀ (s : State) (r : CsrReq) (p : Nat), r.who = .csr p → r.parityOk = true → admitted s r.who false r.addr.toNat = true →
    exec (.csrRead r) s = .next { s with csr := ⟨r.tag, readLoc s r.who (locOf s r.addr.toNat), 0⟩ }) ∧
  (∀ (s : State) (r : CsrReq) (p : Nat), r.who = .csr p → r.parityOk = true → admitted s r.who true r.addr.toNat = true →
    let l := locOf s r.addr.toNat
    let w := writeLoc s r.who ⟨p, 0, locSpire l, true, r.addr.toNat, r.wdata⟩ l r.wdata
    w.2 = rspOk → exec (.registerWrite r) s = .next { w.1 with csr := ⟨r.tag, 0, 0⟩ }) ∧
  (∀ (s : State) (r : CsrReq) (p o : Nat), r.who = .csr p → r.parityOk = true → admitted s r.who true r.addr.toNat = true →
    locOf s r.addr.toNat = .cvn o → exec (.registerWrite r) s = .next { cvnWrite s o r.wdata with csr := ⟨r.tag, 0, 0⟩ }) ∧
  (∀ (s : State) (r : CsrReq) (p : Nat) (c : Instr) (code : BitVec 2), r.who = .csr p → pathServes s r.who = true →
    c = .csrRead r ∨ c = .registerWrite r →
    let wr := decide (c = .registerWrite r)
    let l := locOf s r.addr.toNat
    (code = 2 ∧ (r.parityOk = false ∨ r.addr.toNat % 4 ≠ 0)) ∨
    (code = 3 ∧ r.parityOk = true ∧ r.addr.toNat % 4 = 0 ∧ phaseServes s r.who wr l = false) ∨
    (code = 1 ∧ r.parityOk = true ∧ r.addr.toNat % 4 = 0 ∧ phaseServes s r.who wr l = true ∧ l ≠ .nowhere ∧ mayAccess s r.who wr l = false) →
    ∃ t, exec c s = .next t ∧ t.csr = ⟨r.tag, 0, code⟩ ∧ t.keep.accstat.getLsbD (if code = 1 then 3 else if code = 2 then 4 else 5) = true ∧
      t.keep.accCnt = updAt s.keep.accCnt (if code = 1 then 3 else if code = 2 then 4 else 5) (satAdd · 1) ∧ t.keep.unitEn = s.keep.unitEn ∧ t.keep.lock = s.keep.lock ∧
      t.keep.hosttag = s.keep.hosttag ∧ t.keep.mbx = s.keep.mbx ∧ t.keep.cmd = s.keep.cmd ∧ t.tallies = s.tallies ∧ t.mtr = s.mtr ∧
      t.erg = s.erg ∧ t.thermal = s.thermal ∧ t.trc = s.trc ∧ t.ports = s.ports ∧ t.caravan = s.caravan ∧ t.spires = s.spires ∧
      t.cistern.data = s.cistern.data)

/-- KEEP_HOSTTAG_WRITE, admitted, writes the tag and locks it when it is not locked, and when it is locked changes nothing but the
marks of a LOCKWR event: its bit, its count and its record (the lines it takes, or the count and the alert of one that finds no
room). KEEP_LOCK_WRITE writes the lock bits that are not locked, keeps those that are, and locks all four. KEEP_UNIT_EN_WRITE with
EN_FREEZE set is denied and changes no unit enable. (The model's readings: forced addresses, log 73.) ALIAS_WRITE of an admitted
address, for a W1C bit of KEEP_ALERT, clears that bit when it writes 1 and no other bit; on a read-only field it changes no field
but the marks of the ALIASIGN event that it raises: its bit, its count and its record; outside the alias window the command names
no alias and has no effect (log 2). (14_csr_model.md) -/
def Obligations.LocksAndAliases : Prop :=
  ((∀ (s : State) (r : CsrReq), r.parityOk = true → admitted s r.who true 0x4C = true →
    let only := fun t : State => t = { s with
        keep := { s.keep with accstat := t.keep.accstat, accCnt := t.keep.accCnt, accLast := t.keep.accLast, alert := t.keep.alert }
        records := t.records, early := t.early, near := t.near, parts := t.parts
        cistern := { s.cistern with recDrop := t.cistern.recDrop }, csr := t.csr, mgmt := t.mgmt } ∧
      (∀ p, getPart t p = { getPart s p with cnt := (getPart t p).cnt })
    ∃ t, exec (.keepHosttagWrite r) s = .next t ∧ t.keep.hosttagLocked = true ∧ answeredOk t r.who r.tag 0 ∧
      (s.keep.hosttagLocked = false → t.keep.hosttag = r.wdata ∧ t.keep.accstat = s.keep.accstat) ∧
      (s.keep.hosttagLocked = true → t.keep.hosttag = s.keep.hosttag ∧ t.keep.accstat = s.keep.accstat ||| 1 ∧ only t) ∧
      t.spires = s.spires ∧ t.cistern.data = s.cistern.data) ∧
  (∀ (s : State) (r : CsrReq), r.parityOk = true → admitted s r.who true 0x48 = true →
    ∃ t, exec (.keepLockWrite r) s = .next t ∧ t.keep.locked = 0xF ∧ answeredOk t r.who r.tag 0 ∧
      (∀ b, b < 4 → t.keep.lock.getLsbD b = if s.keep.locked.getLsbD b = true then s.keep.lock.getLsbD b else r.wdata.getLsbD b) ∧
      (s.keep.locked ≠ 0 → t.keep.accstat.getLsbD 0 = true) ∧ t.spires = s.spires ∧ t.cistern.data = s.cistern.data) ∧
  (∀ (s : State) (r : CsrReq), r.parityOk = true → admitted s r.who true 0x40 = true → lockSet s lkEnFreeze = true →
    ∃ t, exec (.keepUnitEnWrite r) s = .next t ∧ t.keep.unitEn = s.keep.unitEn ∧ t.keep.unitOff = s.keep.unitOff ∧ t.keep.safe = s.keep.safe ∧
      t.keep.accstat.getLsbD 3 = true ∧ (∀ p, r.who = .csr p → t.csr = ⟨r.tag, 0, 1⟩)) ∧
  (∀ (s : State) (r : CsrReq), r.parityOk = true → admitted s r.who true 0x40 = true → lockSet s lkEnFreeze = false → bitOf r.wdata uErg = false →
    ∃ t, exec (.keepUnitEnWrite r) s = .next t ∧ t.keep.unitEn.getLsbD uErg = false ∧ uErg ∈ t.keep.safe ∧ answeredOk t r.who r.tag 0 ∧
      (∀ b, b < 12 → b ≠ uErg → b ≠ uTrc → t.keep.unitEn.getLsbD b = s.keep.unitEn.getLsbD b))) ∧
  ((∀ (s : State) (r : CsrReq) (b : Nat), r.parityOk = true → admitted s r.who true r.addr.toNat = true → locOf s r.addr.toNat = .alias_ 0x00C b →
    0x800000 ≤ r.addr.toNat → b < 12 →
    ∃ t, exec (.aliasWrite r) s = .next t ∧ answeredOk t r.who r.tag 0 ∧
      (∀ j, j < 12 → t.keep.alert.getLsbD j = (s.keep.alert.getLsbD j && !(decide (j = b) && bitOf r.wdata 0))) ∧
      t = { s with keep := { s.keep with alert := t.keep.alert }, csr := t.csr, mgmt := t.mgmt }) ∧
  (∀ (s : State) (r : CsrReq) (b : Nat), r.parityOk = true → admitted s r.who true r.addr.toNat = true → locOf s r.addr.toNat = .alias_ 0x010 b →
    0x800000 ≤ r.addr.toNat → b < 17 →
    ∃ t, exec (.aliasWrite r) s = .next t ∧ answeredOk t r.who r.tag 0 ∧ t.keep.accstat = s.keep.accstat ||| 0x40 ∧ t.keep.alert = (t.keep.alert ||| s.keep.alert) ∧
      t = { s with
        keep := { s.keep with accstat := t.keep.accstat, accCnt := t.keep.accCnt, accLast := t.keep.accLast, alert := t.keep.alert }
        records := t.records, early := t.early, near := t.near, parts := t.parts
        cistern := { s.cistern with recDrop := t.cistern.recDrop }, csr := t.csr, mgmt := t.mgmt } ∧
      (∀ p, getPart t p = { getPart s p with cnt := (getPart t p).cnt })) ∧
  (∀ (s : State) (r : CsrReq), r.addr.toNat < 0x800000 → exec (.aliasWrite r) s = .next s))

/-- MBX_SEL_WRITE of a requester whose write is admitted starts a latch of its own mailbox: no data is valid, the echo is the
selector. MBX_LATCH_DONE ends the latch with the value of the selector in up to twelve words where the requester may see it, and
with code 1 and zeros, and a DENIED event, where it may not; a mailbox with no latch is left as it is (log 2). No other
requester's mailbox changes. (The model's readings: forced address, log 73; a tenant's selectors, log 67.) (14_csr_model.md) -/
def Obligations.Mailbox : Prop :=
  (∀ (s : State) (who : Requester) (sel : BitVec 24), admitted s who true 0x100 = true → instOf who < s.keep.mbx.length →
    ∃ t, exec (.mbxSelWrite who sel) s = .next t ∧ answeredOk t who 0 0 ∧
      getMbx t (instOf who) = { getMbx s (instOf who) with
        sel := sel, valid := false, err := 0, echo := sel, latching := true, data := List.replicate 12 0 } ∧
      (∀ i, i ≠ instOf who → getMbx t i = getMbx s i) ∧
      t = { s with keep := { s.keep with mbx := t.keep.mbx }, csr := t.csr, mgmt := t.mgmt }) ∧
  (∀ (s : State) (who : Requester), instOf who < s.keep.mbx.length → (getMbx s (instOf who)).latching = true →
    ∃ t, exec (.mbxLatchDone who) s = .next t ∧ (getMbx t (instOf who)).valid = true ∧ (getMbx t (instOf who)).latching = false ∧
      (mbxMay s (partOf who) (getMbx s (instOf who)).echo.toNat = true → (getMbx t (instOf who)).err = 0 ∧
        (getMbx t (instOf who)).data = (mbxValue s (getMbx s (instOf who)).echo.toNat ++ List.replicate 12 0).take 12 ∧
        t = { s with keep := { s.keep with mbx := t.keep.mbx } }) ∧
      (mbxMay s (partOf who) (getMbx s (instOf who)).echo.toNat = false → (getMbx t (instOf who)).err = 1 ∧
        (getMbx t (instOf who)).data = List.replicate 12 0 ∧ t.keep.accstat.getLsbD 3 = true) ∧
      (∀ i, i ≠ instOf who → getMbx t i = getMbx s i)) ∧
  (∀ (s : State) (who : Requester), (getMbx s (instOf who)).latching = false → exec (.mbxLatchDone who) s = .next s)

/-- With the requester's write admitted: TALLY_ALLOC grants the lowest free Tally to a partition below its quota, queues the
request, of a partition below its quota, where none is free and the queue has room, and else refuses it, counted; ADD of a
non-zero amount to a held Tally adds it, and empties the waiting list once the count has reached the target; WAIT of a tile of the
Tally's partition enters it in the list; UNWAIT takes it out; FREE of a held Tally with no request queued leaves it free; a
command on a Tally that is not held answers NOTALLOC and changes no count. A write of TARGET sets it. (The model's readings: log
53.) (07_oasis_and_recovery.md; 15_register_reference.md) -/
def Obligations.TallyCommands : Prop :=
  ∀ (s : State) (who : Requester) (i : Nat) (arg : W16), i < Config.tallies →
    let x := getTally s i
    let same := fun t : State => (∀ j, j ≠ i → getTally t j = getTally s j) ∧ t.spires = s.spires ∧ t.tiles = s.tiles ∧ t.cistern.data = s.cistern.data
    (∀ n, admitted s who true aTalloc = true → instOf who < s.keep.talloc.length → tallocResult s (instOf who) ≠ 2 →
      heldBy s (partOf who) + (s.tallyQ.filter fun q => q.2 == partOf who).length < ((partCfg s (partOf who)).map (·.talQuota)).getD 0 →
      freeTally s = some n → ∃ t, exec (.tallyAlloc who) s = .next t ∧ getTally t n = Tally.fresh true (partOf who) ∧
        t.keep.talloc.getD (instOf who) (0, 0) = (1, n) ∧ (∀ j, j ≠ n → getTally t j = getTally s j) ∧
        t = { s with tallies := t.tallies, keep := { s.keep with talloc := t.keep.talloc }, csr := t.csr, mgmt := t.mgmt }) ∧
    (admitted s who true aTalloc = true → instOf who < s.keep.talloc.length → tallocResult s (instOf who) ≠ 2 →
      let below := heldBy s (partOf who) + (s.tallyQ.filter fun q => q.2 == partOf who).length < ((partCfg s (partOf who)).map (·.talQuota)).getD 0
      (below → freeTally s = none → s.tallyQ.length < 256 → ∃ t, exec (.tallyAlloc who) s = .next t ∧ answeredOk t who 0 0 ∧
        t.tallyQ = s.tallyQ ++ [(instOf who, partOf who)] ∧ t.keep.talloc.getD (instOf who) (0, 0) = (2, 0) ∧
        (∀ j, j ≠ instOf who → t.keep.talloc.getD j (0, 0) = s.keep.talloc.getD j (0, 0)) ∧
        t = { s with tallyQ := t.tallyQ, keep := { s.keep with talloc := t.keep.talloc }, csr := t.csr, mgmt := t.mgmt }) ∧
      (¬ below ∨ (freeTally s = none ∧ 256 ≤ s.tallyQ.length) → partOf who < s.parts.length → ∃ t, exec (.tallyAlloc who) s = .next t ∧
        t.keep.talloc.getD (instOf who) (0, 0) = (3, 0) ∧ t.tallies = s.tallies ∧ t.tallyQ = s.tallyQ ∧
        (getPart t (partOf who)).cnt.talRefused = satInc (getPart s (partOf who)).cnt.talRefused ∧
        (∀ p, p ≠ partOf who → getPart t p = getPart s p))) ∧
    (admitted s who true (aTally i 3) = true → x.held = true →
      (arg ≠ 0 → ∃ t, exec (.add who i arg) s = .next t ∧ (getTally t i).count = x.count + arg.zeroExtend 32 ∧
        (getTally t i).result = BitVec.ofNat 3 trDone ∧ (x.target.toNat ≤ (x.count + arg.zeroExtend 32).toNat → (getTally t i).waiters = []) ∧
        ((x.count + arg.zeroExtend 32).toNat < x.target.toNat → (getTally t i).waiters = x.waiters) ∧ same t) ∧
      (∀ tile, getTile s arg.toNat = some tile → tile.part = x.part → x.count.toNat < x.target.toNat → arg.toNat ∉ x.waiters →
        quotaOk s x.part lvRec = true → ∃ t, exec (.wait who i arg) s = .next t ∧ (getTally t i).waiters = x.waiters ++ [arg.toNat] ∧
          (getTally t i).result = BitVec.ofNat 3 trDone ∧ (getTally t i).count = x.count ∧ same t) ∧
      (∃ t, exec (.unwait who i arg) s = .next t ∧ (getTally t i).waiters = x.waiters.filter (· != arg.toNat) ∧
        (getTally t i).result = BitVec.ofNat 3 trDone ∧ (getTally t i).count = x.count ∧ same t) ∧
      (s.tallyQ = [] → ∃ t, exec (.free who i arg) s = .next t ∧ (getTally t i).held = false ∧ (getTally t i).waiters = [] ∧
        (getTally t i).result = BitVec.ofNat 3 trDone ∧ same t)) ∧
    (admitted s who true (aTally i 3) = true → x.held = false → ∀ c ∈ [Instr.add who i arg, .wait who i arg, .unwait who i arg, .free who i arg],
      ∃ t, exec c s = .next t ∧ (getTally t i).result = BitVec.ofNat 3 trNotalloc ∧ (getTally t i).count = x.count ∧ (getTally t i).held = false ∧ same t) ∧
    (∀ v, admitted s who true (aTally i 2) = true → ∃ t, exec (.talTargetWrite who i v) s = .next t ∧ (getTally t i).target = v ∧
      (getTally t i).count = x.count ∧ (v.toNat ≤ x.count.toNat → (getTally t i).waiters = []) ∧ same t)

/-- A CISTERN_WRITE of one enabled byte of a data bank stores that byte with its check bits and changes no other byte; a byte that
is not enabled is not written; a CISTERN_READ of one byte whose stored check bits agree answers that byte, not poisoned, and
changes no byte; one of an UNWRITTEN byte answers poison, counts it, and sets the Cistern bit of KEEP_ALERT. A write to a reserved
address changes no byte (log 2). These hold for every consumer of a read, and whether or not Sirocco holds the line; a write to a
line that Sirocco holds, in its present slice, with a byte that it corrects, supersedes the write-back once: the line is listed
and counted (which byte of a line Sirocco has read by then is the model's reading, log 93). (The model's readings: logs 6 and 49.)
FILL of a bank that no rule refuses leaves every byte of that bank unlisted and every byte of the other banks as it was; a refused
one changes no byte. BANK_TEST of a data bank records whether it failed. ROW_REMAP of a row that firmware remaps (4 corrected
bytes of a scrub pass in it, or a byte with an uncorrectable syndrome), with a spare left, gives the row that spare, and of any
other row has no effect (log 2); SCRUB_SLICE_DONE, in service, takes the first slice ordered and moves the scrub position on by
its rows. (The model's readings: log 50.) (10_caravan_and_cistern.md) -/
def Obligations.CisternBytesAndBanks : Prop :=
  ((∀ (s : State) (addr : W32) (b : Byte) (held : Bool) (bank a : Nat), cisAt addr.toNat = .data bank a →
    ∃ t, exec (.cisternWrite addr [(b, true)] held) s = .next t ∧ cisData t (cisKey bank a) = b ∧ cisCheck t (cisKey bank a) = checkOf a b ∧
      (∀ k, k ≠ cisKey bank a → cisData t k = cisData s k ∧ cisCheck t k = cisCheck s k) ∧ t.spires = s.spires ∧ t.tiles = s.tiles ∧
      (held = false → t = { s with cistern := t.cistern })) ∧
  (∀ (s : State) (addr : W32) (b : Byte) (held : Bool), ∃ t, exec (.cisternWrite addr [(b, false)] held) s = .next t ∧ t.cistern.data = s.cistern.data ∧
    t.cistern.check = s.cistern.check) ∧
  (∀ (s : State) (addr : W32) (b : Byte) (held : Bool), cisAt addr.toNat = .reserved → ∃ t, exec (.cisternWrite addr [(b, true)] held) s = .next t ∧
    t.cistern.data = s.cistern.data ∧ t.cistern.check = s.cistern.check) ∧
  (∀ (s : State) (addr : W32) (b : Byte) (be : Bool) (bank a : Nat), cisAt addr.toNat = .data bank a → inSlice s (a / 64 / 16) = true →
    ((List.range 64).any fun i => corrects s bank (a / 64 * 64 + i)) = true → (bank, a / 64) ∉ s.cistern.superseded →
    ∃ t, exec (.cisternWrite addr [(b, be)] true) s = .next t ∧ t.cistern.scrubSuper = satInc s.cistern.scrubSuper ∧
      t.cistern.superseded = s.cistern.superseded ++ [(bank, a / 64)]) ∧
  (∀ (s : State) (use : CisUse) (addr : W32) (bank a : Nat), cisAt addr.toNat = .data bank a → synKind (syndrome s bank a) = .clean →
    ∃ t, exec (.cisternRead use ⟨addr, 1⟩) s = .next t ∧ t.cistern.last = [(cisData s (cisKey bank a), false)] ∧ t.cistern.data = s.cistern.data ∧
      t.cistern.check = s.cistern.check ∧ t = { s with cistern := t.cistern }) ∧
  (∀ (s : State) (use : CisUse) (addr : W32) (bank a : Nat), cisAt addr.toNat = .data bank a → synKind (syndrome s bank a) = .unwritten →
    ∃ t v, exec (.cisternRead use ⟨addr, 1⟩) s = .next t ∧ t.cistern.last = [(v, true)] ∧ t.cistern.unwrCnt = satInc s.cistern.unwrCnt ∧
      t.cistern.unwrSeen = true ∧ t.keep.alert.getLsbD alCistern = true ∧ t.cistern.data = s.cistern.data)) ∧
  ((∀ (s : State) (bank : Nat), bankRefusal s bank = none → ∃ t, exec (.fill none bank) s = .next t ∧
    (∀ k, cisKey bank 0 ≤ k → k < cisKey (bank + 1) 0 → cisData t k = unData k ∧ cisCheck t k = unCheck k) ∧
    (∀ k, k < cisKey bank 0 ∨ cisKey (bank + 1) 0 ≤ k → cisData t k = cisData s k ∧ cisCheck t k = cisCheck s k) ∧ t.spires = s.spires) ∧
  (∀ (s : State) (bank n : Nat), bankRefusal s bank = some n → ∃ t, exec (.fill none bank) s = .next t ∧ t.cistern.data = s.cistern.data ∧
    t.cistern.check = s.cistern.check ∧ t.cistern.bcmd = setFld (setFld (setFld s.cistern.bcmd 10 1 0) 11 3 n) 14 1 0) ∧
  (∀ (s : State) (bank : Nat) (f : Option Nat), 2 ≤ bank → bank < s.cistern.banks.length → bankRefusal s bank = none →
    ∃ t, exec (.bankTest none bank f) s = .next t ∧ (t.cistern.banks[bank]?.map (·.failed)) = some f.isSome ∧
      (∀ k, cisKey bank 0 ≤ k → k < cisKey (bank + 1) 0 → cisData t k = unData k) ∧
      (∀ k, k < cisKey bank 0 ∨ cisKey (bank + 1) 0 ≤ k → cisData t k = cisData s k)) ∧
  (∀ (s : State) (bank row : Nat), rowBad s bank row = false → exec (.rowRemap bank row) s = .next s) ∧
  (∀ (s : State) (bank row k : Nat) (b : Bank), s.cistern.banks[bank]? = some b → row < 8192 → rowBad s bank row = true →
    (List.range 32).find? (fun k => !(b.remap.any fun m => m.2 == k)) = some k →
    ∃ t b', exec (.rowRemap bank row) s = .next t ∧ t.cistern.banks[bank]? = some b' ∧ b'.remap = b.remap ++ [(row, k)] ∧
      b'.sparesUsed = b.sparesUsed + 1 ∧ t.cistern.data = s.cistern.data) ∧
  (∀ (s : State) (n : Nat) (rest : List Nat), s.cistern.scrubQ = n :: rest → inSafe s uCis = false → s.cistern.scrubPos < 8192 →
    ∃ t, exec .scrubSliceDone s = .next t ∧ t.cistern.scrubQ = rest ∧ t.cistern.scrubPos = (s.cistern.scrubPos + n) % 8192 ∧
      t.spires = s.spires ∧ t.tiles = s.tiles))

/-- For every byte at every address of a bank: a byte stored with its check bits has a clean syndrome; with any one of its eight
data bits inverted the syndrome names that bit, and with any one of its five check bits inverted it names a check bit, so a read
answers the byte that was stored; with any two of those thirteen bits inverted it is uncorrectable. A byte that nothing has
written has the syndrome of UNWRITTEN. (The model's readings: log 6.) (10_caravan_and_cistern.md) -/
def Obligations.StoredBytesAreProtected : Prop :=
  (∀ (a : Nat) (b : Byte), a < 2 ^ 23 →
    let syn := fun (x : Byte) (c : Byte) => synKind (Nat.xor c.toNat (checkOf a x).toNat % 32)
    let flip := fun (k : Nat) (x c : Byte) => if k < 8 then (x ^^^ BitVec.ofNat 8 (2 ^ k), c) else (x, c ^^^ BitVec.ofNat 8 (2 ^ (k - 8)))
    syn b (checkOf a b) = .clean ∧
    (∀ k, k < 8 → syn (flip k b (checkOf a b)).1 (flip k b (checkOf a b)).2 = .dataBit k) ∧
    (∀ k, 8 ≤ k → k < 13 → syn (flip k b (checkOf a b)).1 (flip k b (checkOf a b)).2 = .checkBit) ∧
    (∀ j k, j < k → k < 13 → let x := flip j b (checkOf a b)
      let y := flip k x.1 x.2
      syn y.1 y.2 = .bad)) ∧
  (∀ (s : State) (bank a : Nat), a < 2 ^ 23 → (∀ c ∈ s.cistern.data, c.1 ≠ cisKey bank a) → (∀ c ∈ s.cistern.check, c.1 ≠ cisKey bank a) →
    synKind (syndrome s bank a) = .unwritten)

/-- METER_PERIOD_CLOSE at or after the last tick of the open period begins the next period with every meter at 0 and its number
one higher, and before it has no effect (log 2). With its write admitted, WALL_CLOCK_SET stages the label in WC_LO and WC_HI;
ERG_CLEAR marks the requester's view to be cleared at the next publication; DUMP_COMMAND of a partition's own, with none armed,
arms it, and with one armed answers BUSY. DUMP_DONE writes the partition's first dump, cut at the end of its area where it is
larger (log 108), and counts it. (The model's readings: logs 52, 70 and 101.) (13_observability.md) -/
def Obligations.MeterAndLabelCommands : Prop :=
  (∀ (s : State), periodDue s s.time.tick.toNat = true → ∃ t, exec .meterPeriodClose s = .next t ∧ t.mtr.pnum = s.mtr.pnum + 1 ∧
    t.mtr.closed = false ∧ t.mtr.pstart = BitVec.ofNat 64 (periodEnd s) ∧ (∀ p, p < 16 → ∀ m ∈ (getPart t p).cnt.meters, m = 0) ∧
    t.spires = s.spires ∧ t.cistern.data = s.cistern.data) ∧
  (∀ (s : State), periodDue s s.time.tick.toNat = false → exec .meterPeriodClose s = .next s) ∧
  (∀ (s : State) (who : Requester), admitted s who true aWcCtl = true → (lockSet s lkWcMgmt = false ∨ pathOf who ≠ 0) →
    ∃ t, exec (.wallClockSet who) s = .next t ∧ answeredOk t who 0 0 ∧
      t.belfry = { s.belfry with wcSets := s.belfry.wcSets ++ [s.mtr.wcLo.zeroExtend 64 + (s.mtr.wcHi.zeroExtend 64) <<< 32] } ∧
      t = { s with belfry := t.belfry, csr := t.csr, mgmt := t.mgmt }) ∧
  (∀ (s : State) (who : Requester), admitted s who true aErgCtl = true → partOf who < s.erg.clrPend.length →
    ∃ t, exec (.ergClear who) s = .next t ∧ answeredOk t who 0 0 ∧ t.erg.clrPend.getD (partOf who) false = true ∧
      (∀ i, i ≠ partOf who → t.erg.clrPend.getD i false = s.erg.clrPend.getD i false) ∧
      t = { s with erg := { s.erg with clrPend := t.erg.clrPend }, csr := t.csr, mgmt := t.mgmt }) ∧
  (∀ (s : State) (who : Requester) (w : W32), admitted s who true aDctl = true → fld w 0 4 < s.parts.length →
    (partOf who = 0 ∨ partOf who = fld w 0 4) →
    ((getPart s (fld w 0 4)).armed = none → ∃ t a, exec (.dumpCommand who w) s = .next t ∧ (getPart t (fld w 0 4)).armed = some a ∧
      a.tensor = s.trc.dctl.1 ∧ a.step = s.trc.dctl.2.1 ∧ fld t.trc.dctl.2.2 22 3 = 1 ∧
      (getPart t (fld w 0 4)).logs.notes.prod = (getPart s (fld w 0 4)).logs.notes.prod + 1) ∧
    (∀ a, (getPart s (fld w 0 4)).armed = some a → ∃ t, exec (.dumpCommand who w) s = .next t ∧ (getPart t (fld w 0 4)).armed = some a ∧
      fld t.trc.dctl.2.2 22 3 = 3)) ∧
  (∀ (s : State) (p : Nat) (j : DumpJob) (rest : List DumpJob), p < s.parts.length → (getPart s p).dumpQ = j :: rest →
    ∃ t, exec (.dumpDone p) s = .next t ∧ (getPart t p).dumpQ = rest ∧ t.trc.dumps = satInc s.trc.dumps ∧
      (∃ x ∈ (getPart t p).logs.dumps, x.2 = cutDump ((s.image.map (·.base.tdumpSize)).getD 0) (tdumpRec s p j)) ∧ t.spires = s.spires ∧ t.cistern.data = s.cistern.data)

/-- TEST, RELEASE, SHUTDOWN and REPAIR_CLEAR, with the write admitted and the right held and with no command lock: where no ground
of refusal holds and the instance is free, the instance runs the command and it enters the Belfry's class 9 inputs; with a ground,
KEEP_CMDRES shows REFUSED and that cause and no command enters; a requester without the right changes no command. (The model's
readings: rows that are the GO write, log 48; when a TEST is queued, log 88.) (12_selftest_and_thermal.md;
15_register_reference.md) -/
def Obligations.PrivilegedCommands : Prop :=
  ∀ (s : State) (who : Requester) (w : W32), admitted s who true aCmd = true → instOf who < s.keep.cmd.length →
    (pathOf who ≠ 0 ∨ lockSet s lkCmdMgmt = false) →
    ∀ x ∈ [(Instr.test who w, cmdTest), (.release who w, cmdRelease), (.shutdown who w, cmdShutdown), (.repairClear who w, cmdRepairClear)],
    let v := setFld (setFld (cmdWord w x.2) 28 1 0) 29 3 0
    let b := (getCmd s (instOf who)).arg
    (mayCommand s who (cmdWord w x.2) = true → cmdIssueCause s (instOf who) v b = none → (getCmd s (instOf who)).running = none →
      ∃ t, exec x.1 s = .next t ∧ answeredOk t who 0 0 ∧ (getCmd t (instOf who)).running = some v ∧
        (getCmd t (instOf who)).res = cmdRes v crQueued 0 ∧ t.belfry = { s.belfry with cmds := s.belfry.cmds ++ [⟨instOf who, v, b⟩] } ∧
        (∀ i, i ≠ instOf who → getCmd t i = getCmd s i) ∧ t.tiles = s.tiles ∧ t.spires = s.spires ∧ t.cistern.data = s.cistern.data) ∧
    (∀ n, mayCommand s who (cmdWord w x.2) = true → cmdIssueCause s (instOf who) v b = some n →
      ∃ t, exec x.1 s = .next t ∧ answeredOk t who 0 0 ∧ (getCmd t (instOf who)).res = cmdRes v crRefused n ∧
        (getCmd t (instOf who)).running = (getCmd s (instOf who)).running ∧ t.belfry = s.belfry ∧ t.tiles = s.tiles) ∧
    (mayCommand s who (cmdWord w x.2) = false → ∃ t, exec x.1 s = .next t ∧ t.keep.cmd = s.keep.cmd ∧ t.belfry = s.belfry ∧
      t.keep.accstat.getLsbD 3 = true ∧ t.tiles = s.tiles)

/-- PARITY_SWEEP with one mismatch, in a unit that is not essential and not the KEEP page, the first within a second, puts the
unit in its safe state, clears its enable bit and marks the register, whose parity is set again by a reload. CONFIG_RELOAD, with
firmware running, of a unit of the Keep out of service that is neither held nor switched off sets its bit and takes it out of its
safe state; of a unit in service it changes no unit and raises CFG_REJ; of a held unit it has no effect (log 2). (The model's
readings: log 71.) (14_csr_model.md) -/
def Obligations.ParityAndReload : Prop :=
  (∀ (s : State) (u addr : Nat), u < 12 → u ≠ uThm → (s.keep.cfgpar.filter fun x => x.1 == u && decide (s.time.tick.toNat < x.2.toNat + 1000000000)).length < 2 →
    ∃ t, exec (.paritySweep [(u, addr)]) s = .next t ∧ u ∈ t.keep.safe ∧ (u, addr) ∈ t.keep.badPar ∧ t.keep.unitEn.getLsbD u = false ∧
      (∀ b, b < 12 → b ≠ u → t.keep.unitEn.getLsbD b = s.keep.unitEn.getLsbD b) ∧ t.keep.accstat.getLsbD 2 = true ∧
      t.keep.unitHeld = s.keep.unitHeld ∧ t.spires = s.spires ∧ t.cistern.data = s.cistern.data) ∧
  (∀ (s : State) (c : CfgLoad) (u : Nat), c.unit = u → u < 12 → u ≠ uThm → s.boot.firmware = true → s.keep.kwrDown = false → s.keep.unitEn.getLsbD u = false → u ∉ s.keep.unitHeld →
    bitOf s.keep.unitOff u = false → ∃ t, exec (.configReload c) s = .next t ∧ t.keep.unitEn.getLsbD u = true ∧ u ∉ t.keep.safe ∧
      (∀ m ∈ t.keep.badPar, m.1 ≠ u) ∧
      (∀ b, b < 12 → b ≠ u → t.keep.unitEn.getLsbD b = s.keep.unitEn.getLsbD b) ∧ t.spires = s.spires ∧ t.cistern.data = s.cistern.data) ∧
  (∀ (s : State) (c : CfgLoad) (u : Nat), c.unit = u → u < 12 → s.boot.firmware = true → s.keep.kwrDown = false → s.keep.unitEn.getLsbD u = true →
    ∃ t, exec (.configReload c) s = .next t ∧ t.keep.unitEn = s.keep.unitEn ∧ t.keep.safe = s.keep.safe ∧ t.keep.accstat.getLsbD 1 = true) ∧
  (∀ (s : State) (c : CfgLoad) (u : Nat), c.unit = u → u < 12 → s.boot.firmware = true → s.keep.unitEn.getLsbD u = false → u ∈ s.keep.unitHeld →
    exec (.configReload c) s = .next s)

/-- While the bus answers (not before the release of COLD_RESET_N): SETADDR of an aligned address with one to seven words sets
pointer and length and what a read before the next one brings (in I3C mode those two, log 110), and nothing else; any other
SETADDR and a MALFORMED_TRANSACTION change no pointer, raise a MALFORMED event, and on SMBus NACK the byte at which the fault
shows (of SETADDR the first byte of ADDR, else that of LEN). READ delivers the words of LEN accesses and one code byte, once
suppressed after a malformed write in I3C mode, and moves the pointer on by four bytes a word; WRITE moves it on by four, length
kept, and a permitted write of the Caravan's page is performed there; STATUS delivers the code of the last write.
CLOCK_LOW_TIMEOUT in SMBus mode drops what was being sent. (The model's readings: the code byte, log 74; when it answers, log
100.) In I3C mode, from the release of COLD_RESET_N: ENTDAA and SETDASA assign the dynamic address when none is assigned; RSTDAA
takes it away; ENTDAA and GETPID deliver the provisional ID most significant byte first (log 32); GETBCR and GETDCR deliver one
byte and GETSTATUS and GETMXDS two, which the manual leaves to the standard (log 5). Each of them changes nothing but the bus and
the draws of free values, and in SMBus mode none has an effect (log 2). (14_csr_model.md) -/
def Obligations.ManagementBusAndI3c : Prop :=
  ((∀ (s : State) (a : BitVec 24) (n : Nat), busServes s = true → 1 ≤ n → n ≤ 7 → a.toNat % 4 = 0 →
    exec (.setaddr a n) s = .next { s with mgmt := { s.mgmt with addr := a, len := n, nacked := none, dataOut := if i3cMode s = true then leBytes 3 a.toNat ++ leBytes 1 n else [] } }) ∧
  (∀ (s : State) (a : BitVec 24) (n : Nat), busServes s = true → n = 0 ∨ 7 < n ∨ a.toNat % 4 ≠ 0 →
    ∃ t, exec (.setaddr a n) s = .next t ∧ t.mgmt.addr = s.mgmt.addr ∧ t.mgmt.len = s.mgmt.len ∧ t.keep.accstat.getLsbD 4 = true ∧
      (i3cMode s = false → t.mgmt.nacked = some (if a.toNat % 4 ≠ 0 then .addr else .len)) ∧ (i3cMode s = true → t.mgmt.nackOnce = true) ∧
      t.spires = s.spires ∧ t.tiles = s.tiles ∧ t.cistern.data = s.cistern.data) ∧
  (∀ (s : State) (f : MgmtFault), busServes s = true → ∃ t, exec (.malformedTransaction f) s = .next t ∧ t.mgmt.addr = s.mgmt.addr ∧
    t.keep.accstat.getLsbD 4 = true ∧ (i3cMode s = true → t.mgmt.nackOnce = true) ∧
    (i3cMode s = false → t.mgmt.nacked = some f) ∧ t.spires = s.spires ∧ t.tiles = s.tiles ∧
    t.cistern.data = s.cistern.data) ∧
  (∀ (s : State), busServes s = true → ∃ t, exec .read s = .next t ∧ t.mgmt.addr = s.mgmt.addr + BitVec.ofNat 24 (4 * s.mgmt.len) ∧
    (s.mgmt.nackOnce = true → t.mgmt.dataOut = [] ∧ t.mgmt.nackOnce = false) ∧
    (s.mgmt.nackOnce = false → t.mgmt.dataOut.length = 4 * s.mgmt.len + 1) ∧ t.spires = s.spires ∧ t.tiles = s.tiles ∧
    t.cistern.data = s.cistern.data) ∧
  (∀ (s : State) (w : W32), busServes s = true → ∃ t, exec (.write w) s = .next t ∧ t.mgmt.addr = s.mgmt.addr + 4 ∧ t.mgmt.len = s.mgmt.len ∧
    t.mgmt.dataOut = s.mgmt.dataOut) ∧
  (∀ (s : State) (w : W32) (o : Nat), admitted s .mgmt true s.mgmt.addr.toNat = true → locOf s s.mgmt.addr.toNat = .cvn o →
    exec (.write w) s = .next { cvnWrite s o w with mgmt := { s.mgmt with wstat := 0, addr := s.mgmt.addr + 4, nacked := none } }) ∧
  (∀ (s : State), busServes s = true → s.mgmt.nackOnce = false →
    exec .status s = .next { s with mgmt := { s.mgmt with dataOut := [BitVec.ofNat 8 s.mgmt.wstat.toNat], nacked := none } }) ∧
  (∀ (s : State), i3cMode s = false → exec .clockLowTimeout s = .next { s with mgmt := { s.mgmt with dataOut := [] } })) ∧
  ((∀ (s : State) (a : BitVec 7), busServes s = true → i3cMode s = true → s.mgmt.dyn = none →
    (∃ t b, exec (.entdaa a) s = .next t ∧ t.mgmt.dyn = some a ∧ t.mgmt.dataOut = pidBytes s ++ b ∧ b.length = 2 ∧
      t = { s with mgmt := t.mgmt, rng := s.rng + 1 }) ∧
    exec (.setdasa a) s = .next { s with mgmt := { s.mgmt with dyn := some a } }) ∧
  (∀ (s : State), busServes s = true → i3cMode s = true →
    exec .rstdaa s = .next { s with mgmt := { s.mgmt with dyn := none } } ∧
    exec .getpid s = .next { s with mgmt := { s.mgmt with dataOut := pidBytes s } } ∧ (pidBytes s).length = 6 ∧
    (∀ c n, (c, n) ∈ [(Instr.getbcr, 1), (.getdcr, 1), (.getstatus, 2), (.getmxds, 2)] → ∃ t, exec c s = .next t ∧
      t.mgmt.dataOut.length = n ∧ t = { s with mgmt := { s.mgmt with dataOut := t.mgmt.dataOut }, rng := s.rng + 1 })) ∧
  (∀ (s : State) (a : BitVec 7), i3cMode s = false →
    ∀ c ∈ [Instr.entdaa a, .setdasa a, .rstdaa, .getpid, .getbcr, .getdcr, .getstatus, .getmxds], exec c s = .next s))

/-- NP_RESPONSE OK for an outstanding write's tag ends that request and changes no other; with the last request of a log entry the
write of that log's header is queued behind what waits (log 11). OK for a read brings one line's words, in line order, and the
last line ends the read; what it read for firmware is then at hand. An error response, or MEMERR_TIMEOUT, stages input 0x9B, the
Belfry stepping: a write with fewer than three retries stays outstanding, due again; after three it is given up and the memory bit
of KEEP_ALERT is set; a read ends. WRITE_RETRY of a request that is due issues it again with one retry more. A response for a tag
that is not outstanding has no effect (log 2). A violation's record counts the request's lines in its beats (R92). (The model's
readings: ports, log 57; reads, log 91.) (02_tile_tap.md) -/
def Obligations.MemoryPortResponses : Prop :=
  (∀ (s : State) (far : Bool) (tag : Byte) (x : BitVec 512) (r : MemReq), awaited s far tag = some r → r.wr = true →
    let left := (memPort s far).out.filter fun y => y.tag != tag
    let last := !(left.any fun y => y.issue == r.issue) && !((memPort s far).cur.any fun c => c.num == r.issue)
    ∃ t, exec (.npResponse far tag .ok x) s = .next t ∧ (memPort t far).out = left ∧ (memPort t (!far)).out = (memPort s (!far)).out ∧
      t.far.waiting = s.far.waiting ∧ (last = false ∨ logEntry r.item = none → t.near.waiting = s.near.waiting) ∧
      (∀ e, last = true → logEntry r.item = some e → ∃ n, t.near.waiting = s.near.waiting ++ [.head e.1 e.2.1 n]) ∧
      t = { s with near := t.near, far := t.far, parts := t.parts }) ∧
  (∀ (s : State) (far : Bool) (tag : Byte) (x : BitVec 512) (r : MemReq), awaited s far tag = some r → r.wr = false →
    r.words.length + 16 < 16 * r.lines →
    ∃ t, exec (.npResponse far tag .ok x) s = .next t ∧ { r with words := r.words ++ lineWords x } ∈ (memPort t far).out ∧
      (memPort t far).out.length = (memPort s far).out.length ∧ (memPort t far).waiting = (memPort s far).waiting ∧
      t = { s with near := t.near, far := t.far }) ∧
  (∀ (s : State) (far : Bool) (tag : Byte) (x : BitVec 512) (r : MemReq) (p slot : Nat), awaited s far tag = some r → r.wr = false →
    r.item = .oasisRead p slot → 16 * r.lines ≤ r.words.length + 16 →
    ∃ t, exec (.npResponse far tag .ok x) s = .next t ∧ (memPort t far).out = (memPort s far).out.filter (fun y => y.tag != tag) ∧
      (r.poison = false → ∃ l, (p, slot, l) ∈ t.keep.readback) ∧ (r.poison = true → t.keep.readback = s.keep.readback) ∧
      t = { s with near := t.near, far := t.far, parts := t.parts, keep := { s.keep with readback := t.keep.readback } }) ∧
  (∀ (s : State) (far : Bool) (tag : Byte) (k : RspCode) (x : BitVec 512) (r : MemReq), awaited s far tag = some r → k ≠ .ok →
    ∀ c ∈ [Instr.npResponse far tag k x, .memerrTimeout far tag],
      ∃ t, exec c s = .next t ∧ (s.belfry.run = true → ∃ i ∈ t.belfry.inputs, i.code = 0x9B) ∧
        (r.wr = true → r.retries < 3 → ∃ y ∈ (memPort t far).out, y.tag = tag ∧ y.item = r.item ∧ y.retryDue = true) ∧
        (r.wr = true → 3 ≤ r.retries → (∀ y ∈ (memPort t far).out, y.tag ≠ tag) ∧ t.keep.alert.getLsbD alMemport = true) ∧
        (r.wr = false → (∀ y ∈ (memPort t far).out, y.tag ≠ tag) ∧ t.keep.readback = s.keep.readback) ∧
        t.spires = s.spires ∧ t.cistern.data = s.cistern.data) ∧
  (∀ (s : State) (far : Bool) (tag : Byte) (r : MemReq), (memPort s far).out.find? (fun r => r.tag == tag && r.retryDue) = some r →
    ∃ t, exec (.writeRetry far tag) s = .next t ∧
      (∃ y ∈ (memPort t far).out, y.tag = tag ∧ y.item = r.item ∧ y.retries = r.retries + 1 ∧ y.retryDue = false) ∧
      (memPort t far).out.length = (memPort s far).out.length ∧ t = { s with near := t.near, far := t.far }) ∧
  (∀ (s : State) (far : Bool) (tag : Byte) (k : RspCode) (x : BitVec 512), awaited s far tag = none →
    exec (.npResponse far tag k x) s = .next s ∧ exec (.memerrTimeout far tag) s = .next s)

/-- On a port that is up, a SEAL, TIME, LAUNCH, DIGEST or TDLIST frame whose SEQ is not the one expected is dropped and counted
and answered with one NAK per run of errors, and nothing else changes but the port's byte and frame counts. An ACK frees the
frames before its ACKSEQ, and the frames that wait for room go out, in order, up to the 128 that the replay buffer holds; a NAK
frees them too and sends the rest again, and so does RETRANSMIT_TIMEOUT from the oldest on, each counted; a frame sent 16 times
again takes the port down. ACK_IDLE sends an ACK frame; BANEN_BAD_FRAME counts as a frame out of order does. (The model's
readings: ACK and NAK have no SEQ, log 21; frame layouts, log 9.) HELLO on a qualified port that is not up: with a DIE_ID that no
other up port and not this die has, and an agreed version, the highest that both maps hold, not below the port's minimum nor below
the version it qualified at, the port comes up at the version it qualified at, with that peer, its sequence of received frames
begins at 0 and its measurement begins; with a DIE_ID already known the port stays down with its downward event noted; a lower
agreed version qualifies again. (Running at the qualified version where both maps hold a higher one is the model's choice, log
95.) A TIME question in order is answered with the tick of its arrival, in a frame that goes out while the replay buffer has room
and otherwise waits; TIME_CHECK of a measured port begins a check. (The model's readings: retries, log 76; frame layouts, log 9.)
(08_digests_and_determinism.md) -/
def Obligations.BanenFramesAndLinkUp : Prop :=
  (∀ (s : State) (q : Nat), q < s.ports.length → (getPort s q).up = true →
    let p := getPort s q
    let others := fun t : State => ∀ j, j ≠ q → getPort t j = getPort s j
    let bad := fun c : Instr => ∃ t, exec c s = .next t ∧ getPort t q = { p with
        badfrm := satInc p.badfrm, naked := true, naktx := if p.naked = true then p.naktx else satInc p.naktx
        lastTx := if p.naked = true then p.lastTx else banFrame s q 0x03 p.sendSeq [BitVec.ofNat 64 p.recvSeq.toNat] } ∧ others t ∧
      t = { s with ports := t.ports, big := t.big }
    let again := fun (t : State) (left : List SentFrame) => getPort t q = { p with
        replay := left.map (fun f => { f with resends := f.resends + 1 }), resend := satAdd p.resend left.length, lastTx := (getPort t q).lastTx } ∧
      (∀ f, left.getLast? = some f → (getPort t q).lastTx = banFrame s q f.ftype f.seq f.body) ∧ others t ∧
      t = { s with ports := t.ports, big := t.big }
    (∀ (h : BanHdr) b b' n m d pt age st ly td, h.port = q → h.seq ≠ p.recvSeq →
      ∀ c ∈ [Instr.sealFrame h b, .time h b', .launchProp h n m, .launchAck h m, .launchNak h m, .launchCommit h m, .launchAbort h m,
        .digest h d, .tdlist h pt age st ly td], bad c) ∧
    bad (.banenBadFrame q) ∧
    (∀ h : BanHdr, h.port = q → let kept := p.replay.filter fun f => !earlierThan f.seq h.ackseq
      ∃ t, exec (.ack h) s = .next t ∧
      (getPort t q).replay.map (fun f => (f.ftype, f.body)) = kept.map (fun f => (f.ftype, f.body)) ++ p.queue.take (128 - kept.length) ∧
      kept <+: (getPort t q).replay ∧ (getPort t q).queue = p.queue.drop (128 - kept.length) ∧
      (p.queue = [] → getPort t q = { p with replay := kept }) ∧ others t ∧ t = { s with ports := t.ports, big := t.big }) ∧
    (∀ (h : BanHdr) (e : W16), h.port = q → p.queue = [] → (∀ f ∈ p.replay, f.resends < 15) → ∃ t, exec (.nak h e) s = .next t ∧
      again t (p.replay.filter fun f => !earlierThan f.seq e)) ∧
    (∀ f rest, p.replay = f :: rest → (∀ x ∈ p.replay, x.resends < 15 ∧ earlierThan x.seq f.seq = false) →
      ∃ t, exec (.retransmitTimeout q) s = .next t ∧ again t p.replay) ∧
    (∀ f rest, p.replay = f :: rest → 15 ≤ f.resends → earlierThan f.seq f.seq = false → ∃ t, exec (.retransmitTimeout q) s = .next t ∧
      (getPort t q).up = false ∧ (getPort t q).replay = [] ∧ (getPort t q).queue = [] ∧ (getPort t q).downev = true ∧
      t.keep.alert.getLsbD alBanen = true ∧ others t) ∧
    (∃ t, exec (.ackIdle q) s = .next t ∧ getPort t q = { p with lastTx := banFrame s q 0x02 p.sendSeq [] } ∧ others t ∧
      t = { s with ports := t.ports, big := t.big })) ∧
  ((∀ (s : State) (h : BanHdr) (b : HelloBody), h.port < s.ports.length → (getPort s h.port).up = false → (getPort s h.port).qver ≠ 0 →
    let dup := b.dieId = dieId s ∨ ∃ x, x < banPorts ∧ x ≠ h.port ∧ (getPort s x).up = true ∧ (getPort s x).peerDie = b.dieId
    let v := ([3, 2, 1].find? fun v => bitOf b.versions (v - 1)).getD 0
    (¬ dup → minVer s h.port ≤ v → v ≠ 0 → (getPort s h.port).qver ≤ v → ∃ t, exec (.hello h b) s = .next t ∧ (getPort t h.port).up = true ∧
      (getPort t h.port).ver = (getPort s h.port).qver ∧ (getPort t h.port).peerDie = b.dieId ∧ (getPort t h.port).peerRel = b.release ∧
      (getPort t h.port).zka2 = decide (b.arch.toNat < 3) ∧ (getPort t h.port).recvSeq = 0 ∧ (getPort t h.port).exch = [] ∧
      (getPort t h.port).key = linkKey (dieId s) b.dieId (getPort s h.port).nonce b.nonce ∧
      (getPort t h.port).trained = s.time.tick ∧ bitOf t.time.tsync h.port = false ∧ (∀ j, j ≠ h.port → getPort t j = getPort s j) ∧
      t = { s with ports := t.ports, big := t.big, time := { s.time with tsync := t.time.tsync, trefDiff := t.time.trefDiff } }) ∧
    (dup → ∃ t, exec (.hello h b) s = .next t ∧ (getPort t h.port).up = false ∧ (getPort t h.port).downev = true ∧
      t.keep.alert.getLsbD alBanen = true ∧ (∀ j, j ≠ h.port → getPort t j = getPort s j)) ∧
    (¬ dup → minVer s h.port ≤ v → v ≠ 0 → v < (getPort s h.port).qver → ∃ t, exec (.hello h b) s = .next t ∧ (getPort t h.port).up = false ∧
      (getPort t h.port).qver = v ∧ (getPort t h.port).waiting = true)) ∧
  (∀ (s : State) (h : BanHdr) (t1 t2 : W64), h.port < s.ports.length → (getPort s h.port).up = true → h.seq = (getPort s h.port).recvSeq →
    (getPort s h.port).queue = [] →
    let p := getPort s h.port
    let kept := p.replay.filter fun f => !earlierThan f.seq h.ackseq
    ∃ t, exec (.time h (.ask t1 t2)) s = .next t ∧ (∀ j, j ≠ h.port → getPort t j = getPort s j) ∧ t = { s with ports := t.ports, big := t.big } ∧
      (kept.length < 128 → getPort t h.port = { p with
        recvSeq := p.recvSeq + 1, naked := false, sendSeq := p.sendSeq + 1, replay := kept ++ [⟨0x10, p.sendSeq, [t1, t2, s.time.tick], 0⟩]
        lastTx := banFrame t h.port 0x10 p.sendSeq [t1, t2, s.time.tick] }) ∧
      (128 ≤ kept.length → getPort t h.port = { p with
        recvSeq := p.recvSeq + 1, naked := false, replay := kept, queue := [(0x10, [t1, t2, s.time.tick])] })) ∧
  (∀ (s : State) (q : Nat), q < s.ports.length → (getPort s q).up = true → (getPort s q).measured = true →
    ∃ t, exec (.timeCheck q) s = .next t ∧ (getPort t q).checking = true ∧ (getPort t q).exch = [] ∧ (getPort t q).ofs = (getPort s q).ofs ∧
      (∀ j, j ≠ q → getPort t j = getPort s j) ∧ t = { s with ports := t.ports, big := t.big }))

/-- CLOCK_LOSS of a clock that is present marks it lost and sets its bit of KEEP_CLKLOSS, keeping the others; the loss of NCLK
reaches every open checkpoint window; CLOCK_RETURN marks the clock present and changes no bit of KEEP_CLKLOSS. (The model's
readings: a clock already lost, log 2.) TIMEREF_LOSS enters holdover with every port's synchronisation cleared and the time bit of
KEEP_ALERT set; TIMEREF_RELOCK leaves it, the fabric tick unchanged; HOLDOVER_MEASURE keeps the larger deviation. With PPS_MODE
not OFF and the counter running, PPS_EDGE captures the tick and PPS_TIMEOUT sets PPS lost; PPS_ALIGN_TIMEOUT starts a counter that
waits for an edge, with PPS lost; where step 2 of bring-up waited for that alone, step 3 begins. With PPS_MODE OFF neither PPS
command has an effect (log 2). (The model's readings: deadlines by state, log 36.) (01_architecture.md; 09_belfry_and_time.md) -/
def Obligations.ClocksAndTimeReference : Prop :=
  ((∀ (s : State) (c : HostClk), c ∉ s.keep.lostNow → ∃ t, exec (.clockLoss c) s = .next t ∧ t.keep.lostNow = s.keep.lostNow ++ [c] ∧
    t.keep.clkloss = s.keep.clkloss ||| BitVec.ofNat 5 (2 ^ clkBit c) ∧
    (c = .nclk → ∀ p w, p < s.parts.length → (getPart t p).window = some w → w.nclkLost = true) ∧ t.tiles = s.tiles ∧
    t.cistern.data = s.cistern.data) ∧
  (∀ (s : State) (c : HostClk), c ∈ s.keep.lostNow → exec (.clockLoss c) s = .next s) ∧
  (∀ (s : State) (c : HostClk), ∃ t, exec (.clockReturn c) s = .next t ∧ (∀ d, d ∈ t.keep.lostNow ↔ d ∈ s.keep.lostNow ∧ d ≠ c) ∧
    t = { s with keep := { s.keep with lostNow := t.keep.lostNow } })) ∧
  ((∀ (s : State), s.time.trefOk = true → ∃ t, exec .timerefLoss s = .next t ∧ t.time.trefOk = false ∧ t.time.holdover = true ∧
    t.time.trefLost = true ∧ t.time.tsync = 0 ∧ t.keep.alert.getLsbD alTime = true ∧ t.time.tick = s.time.tick ∧ t.spires = s.spires ∧
    t.cistern.data = s.cistern.data) ∧
  (∀ (s : State), s.time.holdover = true → ∃ t, exec .timerefRelock s = .next t ∧ t.time.trefOk = true ∧ t.time.holdover = false ∧
    t.time.tick = s.time.tick ∧ t.spires = s.spires ∧ t.cistern.data = s.cistern.data) ∧
  (∀ (s : State) (n : Int), s.time.holdover = true → exec (.holdoverMeasure n) s =
    .next { s with time := { s.time with maxDev := if s.time.maxDev.natAbs < n.natAbs then n else s.time.maxDev } }) ∧
  (∀ (s : State), ppsMode s ≠ 0 → s.time.run = true → s.time.alignWait = false → ∃ t, exec .ppsEdge s = .next t ∧ t.time.ppsLast = s.time.tick ∧
    t.time.ppsSeen = true ∧ t.time.ppsOk = true ∧ (s.time.ppsSeen = true → t.time.ppsPeriod = s.time.tick - s.time.ppsLast) ∧
    t = { s with time := t.time }) ∧
  (∀ (s : State), ppsMode s ≠ 0 → s.time.run = true →
    exec .ppsTimeout s = .next { s with time := { s.time with ppsOk := false, ppsLost := true } }) ∧
  (∀ (s : State), s.time.alignWait = true → ∃ t, exec .ppsAlignTimeout s = .next t ∧ t.time.run = true ∧ t.time.alignWait = false ∧
    t.time.ppsLost = true ∧ t.time.tick = s.time.tick ∧ t.cistern.data = s.cistern.data ∧
    (s.boot.step = 2 → s.boot.clocks = true → t.boot.step = 3) ∧
    (s.boot.step ≠ 2 ∨ s.boot.clocks = false → t.spires = s.spires ∧ t.boot = s.boot)) ∧
  (∀ (s : State), ppsMode s = 0 → exec .ppsEdge s = .next s ∧ exec .ppsTimeout s = .next s))

/-- A LINK_EGRESS_MESSAGE without DROP for a die whose port was up at its first beat (it is up and had trained by then, or it has
gone down since), with the ports in service and room in the replay buffer, sends one SEAL frame that carries the message's seal
under the link key; where no port was up then its outcome is NOROUTE. A message with a reserved bit is LTVIOL, 0x02 where it has
no DROP and 0x01 where it has, and is not sealed. A LINK_INGRESS_MESSAGE without DROP, or a SEAL frame in order, whose key has no
entry opens one with its half while the table and the quota have room. SEAL_WAIT decides the entry of its key, with one half or
two, and the entry goes; a MATCH is counted and writes no record. (The model's readings: outcomes, log 47; frame layouts, log 9.)
(08_digests_and_determinism.md) -/
def Obligations.LinkSeals : Prop :=
  (∀ (s : State) (m : LtMsg) (q : Nat), mReserved m.hdr = false → m.drop = false → portAt s (mDst m.hdr) m.firstTick = some q → q < s.ports.length →
    inSafe s uBan = false → (getPort s q).up = true → (getPort s q).replay.length < 128 → (getPort s q).queue = [] →
    ∃ t f, exec (.linkEgressMessage m) s = .next t ∧ (getPort t q).replay = (getPort s q).replay ++ [f] ∧ f.ftype = 0x20 ∧
      f.seq = (getPort s q).sendSeq ∧ f.body.getD 3 0 = sealOf (getPort s q).key m ∧ f.body.getD 4 0 = m.firstTick ∧
      (∀ j, j ≠ q → getPort t j = getPort s j) ∧ t = { s with ports := t.ports, big := t.big }) ∧
  (∀ (s : State) (m : LtMsg), mReserved m.hdr = false →
    (∀ q, q < banPorts → ((getPort s q).up = true → (getPort s q).peerDie = mDst m.hdr → m.firstTick.toNat < (getPort s q).trained.toNat) ∧
      ∀ x ∈ (getPort s q).past, x.1 = mDst m.hdr → m.firstTick.toNat < x.2.1.toNat ∨ x.2.2.toNat ≤ m.firstTick.toNat) → mPart m.hdr < s.parts.length →
    ∃ t, exec (.linkEgressMessage m) s = .next t ∧ t.ports = s.ports ∧ t.seals = s.seals ∧
      (getPart t (mPart m.hdr)).logs.digests.prod = (getPart s (mPart m.hdr)).logs.digests.prod + 1 ∧
      (∃ x ∈ (getPart t (mPart m.hdr)).logs.digests.items, x.kind = .sealv ∧ x.body.getD 4 0 = BitVec.ofNat 32 slNoroute)) ∧
  (∀ (s : State) (m : LtMsg), mReserved m.hdr = true → ∀ c ∈ [Instr.linkEgressMessage m, .linkIngressMessage m], ∃ t, exec c s = .next t ∧
    t.ports = s.ports ∧ t.seals = s.seals ∧
    (s.belfry.run = true → ∃ i ∈ t.belfry.inputs, i.code = 0x9A ∧ i.part = mPart m.hdr ∧ i.cause = if m.drop = true then 1 else 2)) ∧
  (∀ (s : State) (m : LtMsg), mReserved m.hdr = false → m.drop = false → (∀ e ∈ s.seals, e.key ≠ mKey m.hdr) → s.seals.length < 16384 →
    quotaOk s (mPart m.hdr) lvTbl = true → ∃ t e, exec (.linkIngressMessage m) s = .next t ∧ t.seals = s.seals ++ [e] ∧ e.key = mKey m.hdr ∧
      e.frame = none ∧ (∃ i, e.ingress = some i ∧ i.1 = sealOf (getPort s ((portOf s (mSrc m.hdr)).getD 0xFF)).key m ∧ i.2.2.2.2 = m.firstTick) ∧
      t = { s with seals := t.seals, parts := t.parts, big := t.big }) ∧
  (∀ (s : State) (h : BanHdr) (b : SealBody), (getPort s h.port).up = true → h.seq = (getPort s h.port).recvSeq → inSafe s uBan = false →
    (∀ e ∈ s.seals, e.key ≠ b.key) → s.seals.length < 16384 → quotaOk s b.key.part lvTbl = true →
    ∃ t e, exec (.sealFrame h b) s = .next t ∧ t.seals = s.seals ++ [e] ∧ e.key = b.key ∧ e.ingress = none ∧
      e.frame = some (b.digest, b.beats, b.drop, b.tick) ∧ t = { s with seals := t.seals, parts := t.parts, ports := t.ports, big := t.big }) ∧
  (∀ (s : State) (k : SealKey), ∃ t, exec (.sealWait k) s = .next t ∧ t.seals = s.seals.filter (fun e => e.key != k) ∧ t.ports = s.ports ∧
    t.spires = s.spires ∧ t.cistern.data = s.cistern.data ∧
    (∀ e, s.seals.find? (fun e => e.key == k) = some e → e.unread = false → sealDecide s e true = some slMatch →
      t = { s with seals := t.seals, parts := t.parts, sealMatch := s.sealMatch + 1 } ∧ (∀ p, (getPart t p).logs = (getPart s p).logs)))

/-- A LAUNCH_PROP in order makes a die with no launch of its own a peer of that launch at the time in its own ticks, refused when
that time is less than 10 µs away, in DIE_FAULT, or without TSYNC; a coordinator refuses it and keeps its launch (log 46). A
LAUNCH_ACK of the coordinator's present attempt in time is kept; a LAUNCH_NAK of it, or the deadline, begins the next attempt, and
after the third ends the launch; an answer to an earlier attempt changes no attempt. LAUNCH_COMMIT of the peer's launch commits it
unless it was refused or aborted; LAUNCH_ABORT aborts it. At LAUNCH_TIME a committed launch on a die not in DIE_FAULT drives
LAUNCH_OUT, one in DIE_FAULT does not; a peer's launch that was refused or aborted ends with its record and no pulse, and one
neither committed nor refused nor aborted does too, with the Banen bit of KEEP_ALERT; a coordinator's launch that is not
committed, and a die with no launch, stand as they are (log 2); LAUNCH_PULSE_END releases the pad. (The model's readings: frame
layouts, log 9.) (08_digests_and_determinism.md) -/
def Obligations.Launch : Prop :=
  (∀ (s : State) (h : BanHdr) (tk : W64) (n : W32), h.port < s.ports.length → (getPort s h.port).up = true → h.seq = (getPort s h.port).recvSeq →
    (getPort s h.port).replay.length < 128 → (getPort s h.port).queue = [] →
    let loc := tk - (getPort s h.port).ofs
    let ok := decide (s.time.tick.toNat + 10000 ≤ loc.toNat) && !s.keep.dieFault && bitOf s.time.tsync h.port
    ∃ t f, exec (.launchProp h tk n) s = .next t ∧ f ∈ (getPort t h.port).replay ∧ t.pads = s.pads ∧
      (s.launch.role ≠ 1 → t.launch.role = 2 ∧ t.launch.t = loc ∧ t.launch.num = n ∧ t.launch.naked = !ok ∧ t.launch.committed = false ∧
        t.launch.aborted = false ∧ f.ftype = (if ok = true then 0x12 else 0x13)) ∧
      (s.launch.role = 1 → t.launch = s.launch ∧ f.ftype = 0x13) ∧
      t = { s with launch := t.launch, ports := t.ports, parts := t.parts, near := t.near, big := t.big }) ∧
  (∀ (s : State) (h : BanHdr) (n : W32), h.port < s.ports.length → (getPort s h.port).up = true → h.seq = (getPort s h.port).recvSeq →
    (∀ x, s.launch.props.find? (fun x => x.1 == h.port && x.2.1 == n) = some x → s.launch.role = 1 → s.launch.num = n → s.launch.committed = false →
      (x.2.2 = s.launch.attempt → s.time.tick.toNat + 20000 < s.launch.t.toNat → ∃ t, exec (.launchAck h n) s = .next t ∧
        t.launch.acks = s.launch.acks ++ [(getPort s h.port).peerDie.toNat] ∧ t.launch.attempt = s.launch.attempt ∧ t.launch.role = 1 ∧
        t.pads = s.pads) ∧
      (x.2.2 = s.launch.attempt → s.launch.attempt < 3 → ∃ t, exec (.launchNak h n) s = .next t ∧ t.launch.attempt = s.launch.attempt + 1 ∧
        t.launch.role = 1 ∧ t.launch.acks = [] ∧ t.pads = s.pads) ∧
      (x.2.2 = s.launch.attempt → 3 ≤ s.launch.attempt → ∃ t, exec (.launchNak h n) s = .next t ∧ t.launch.role = 0 ∧ t.pads = s.pads) ∧
      (x.2.2 ≠ s.launch.attempt → ∀ c ∈ [Instr.launchAck h n, .launchNak h n], ∃ t, exec c s = .next t ∧
        t.launch = { s.launch with props := s.launch.props.erase x } ∧ t.pads = s.pads)) ∧
    (concernsPeer s h n = true → ∃ t, exec (.launchCommit h n) s = .next t ∧
      t.launch = { s.launch with committed := s.launch.committed || (!s.launch.naked && !s.launch.aborted) } ∧
      t.pads = s.pads ∧ t = { s with launch := t.launch, ports := t.ports, big := t.big }) ∧
    (concernsPeer s h n = true → ∃ t, exec (.launchAbort h n) s = .next t ∧ t.launch = { s.launch with aborted := true, committed := false } ∧
      t.pads = s.pads ∧ t = { s with launch := t.launch, ports := t.ports, big := t.big })) ∧
  (∀ (s : State), s.launch.role = 1 → s.launch.committed = false → ∃ t, exec .launchCommitDeadline s = .next t ∧ t.pads = s.pads ∧
    (s.launch.attempt < 3 → t.launch.attempt = s.launch.attempt + 1 ∧ t.launch.role = 1) ∧ (3 ≤ s.launch.attempt → t.launch.role = 0)) ∧
  (∀ (s : State), s.launch.role ≠ 0 → s.launch.committed = true → ∃ t, exec .launchTime s = .next t ∧ t.launch.role = 0 ∧
    (s.keep.dieFault = false → t.pads = { s.pads with launchOut := true }) ∧ (s.keep.dieFault = true → t.pads = s.pads)) ∧
  (∀ (s : State), s.launch.role = 2 → s.launch.committed = false → 0 < s.parts.length → ∃ t, exec .launchTime s = .next t ∧ t.pads = s.pads ∧
    t.launch.role = 0 ∧ (getPart t 0).logs.digests.prod = (getPart s 0).logs.digests.prod + 1 ∧
    (s.launch.naked = false → s.launch.aborted = false → t.keep.alert.getLsbD alBanen = true) ∧
    (s.launch.naked = true ∨ s.launch.aborted = true → t.keep.alert = s.keep.alert)) ∧
  (∀ (s : State), s.launch.role = 0 ∨ (s.launch.role ≠ 2 ∧ s.launch.committed = false) → exec .launchTime s = .next s) ∧
  (∀ (s : State), exec .launchPulseEnd s = .next { s with launch := { s.launch with out := false }, pads := { s.pads with launchOut := false } })

/-- A DIGEST frame in order that no replica entry waits for is kept with its source, and of one position the newest EPOCH's record
is kept; where an entry's own record of the position is closed the two are compared at once and the outcome is logged. With one
replica entry: a TDLIST of its peer that completes the list of a key that diverged there names the lowest Spire that differs, in
an input DIVERGE, and drops the lists; a list of another EPOCH than the peer's record names none; DCMP_WAIT of a position that
only the peer has recorded drops the peer's record as NOPEER. ATTESTATION_SIGN takes the first statement that waits for the
partition, writes its ATT record and counts it. (The model's readings: exports, log 35; record layouts, log 9.)
(08_digests_and_determinism.md) -/
def Obligations.DigestFrames : Prop :=
  (∀ (s : State) (h : BanHdr) (b : LdBody), (getPort s h.port).up = true → h.seq = (getPort s h.port).recvSeq → inSafe s uBan = false →
    (∀ e ∈ replicas s, e.2.peerDie ≠ h.src ∧ e.2.peerDie ≠ dieId s) →
    (s.peerRecs = [] → ∃ t, exec (.digest h b) s = .next t ∧ t.peerRecs = [⟨h.src, b, []⟩] ∧
      t = { s with peerRecs := t.peerRecs, ports := t.ports, big := t.big }) ∧
    (∀ r, s.peerRecs = [r] → r.die = h.src → r.body.part = b.part → samePos r.body b = true → ∃ t, exec (.digest h b) s = .next t ∧
      t.peerRecs = (if laterThan r.body.epoch b.epoch = true then [r] else [⟨h.src, b, []⟩]) ∧
      t = { s with peerRecs := t.peerRecs, ports := t.ports, big := t.big })) ∧
  (∀ (s : State) (h : BanHdr) (b : LdBody) (e : Nat × ReplicaCfg) (c : ClosedKey), (getPort s h.port).up = true →
    h.seq = (getPort s h.port).recvSeq → inSafe s uBan = false → replicas s = [e] → e.2.peerDie = h.src → h.src ≠ dieId s → e.2.peerPart = b.part →
    e.2.part < s.parts.length → s.peerRecs = [] → closedAt s e.2.part b.era b.step b.layer = some c →
    ∃ t, exec (.digest h b) s = .next t ∧ (getPart t e.2.part).logs.digests.prod = (getPart s e.2.part).logs.digests.prod + 1 ∧
      (∃ x ∈ (getPart t e.2.part).logs.digests.items, x.kind = .dcmp ∧ x.part = e.2.part ∧
        x.body.getLast? = some (BitVec.ofNat 32 (dcmpOutcome e.2.ordered c.body b))) ∧ t.spires = s.spires ∧ t.cistern.data = s.cistern.data) ∧
  (∀ (s : State) (h : BanHdr) (pt : Nat) (ep era : W16) (st : W32) (ly : W16) (td : List (W16 × W64)) (e : Nat × ReplicaCfg) (c : ClosedKey) (r : PeerRec),
    (getPort s h.port).up = true → h.seq = (getPort s h.port).recvSeq → replicas s = [e] → e.2.peerDie = h.src → e.2.peerPart = pt →
    c ∈ (getPart s e.2.part).closed → c.body.era = era → c.body.step = st → c.body.layer = ly →
    (∀ x ∈ (getPart s e.2.part).closed, samePos x.body c.body = true → x = c) → c.diverge = [e.1] → e.1 ∈ c.compared → s.peerTds = [] →
    c.body.spires ≤ td.length → s.belfry.run = true →
    s.peerRecs.find? (fun x => x.die == e.2.peerDie && x.body.part == e.2.peerPart && samePos x.body c.body) = some r →
    (r.body.epoch ≠ ep → ∃ t, exec (.tdlist h pt (ep, era) st ly td) s = .next t ∧ t.belfry = s.belfry ∧
      (getPart t e.2.part).closed = (getPart s e.2.part).closed) ∧
    (r.body.epoch = ep → ∃ t, exec (.tdlist h pt (ep, era) st ly td) s = .next t ∧ t.peerTds = [] ∧ (∃ i ∈ t.belfry.inputs, i.code = 0x46 ∧ i.part = e.2.part ∧ i.layer = ly ∧
      i.spire = (firstDiff c.tds td).getD 0xFFFF) ∧ (∀ x ∈ (getPart t e.2.part).closed, samePos x.body c.body = true →
        x.tds = [] ∧ x.diverge = []) ∧ t.spires = s.spires ∧ t.cistern.data = s.cistern.data)) ∧
  (∀ (s : State) (p : Nat) (era : W16) (st : W32) (ly : W16) (e : Nat × ReplicaCfg) (b : LdBody), p < s.parts.length →
    replicas s = [e] → e.2.part = p → e.2.peerDie ≠ dieId s → closedAt s p era st ly = none → otherSide s e era st ly = some b →
    ∃ t, exec (.dcmpWait p era st ly) s = .next t ∧
      (∀ r ∈ t.peerRecs, ¬ (r.die = e.2.peerDie ∧ r.body.part = e.2.peerPart ∧ r.body.era = era ∧ r.body.step = st ∧ r.body.layer = ly)) ∧
      (∀ r ∈ s.peerRecs, r ∈ t.peerRecs ∨ (r.die = e.2.peerDie ∧ r.body.part = e.2.peerPart ∧ r.body.era = era ∧ r.body.step = st ∧ r.body.layer = ly)) ∧
      (getPart t p).logs.digests.prod = (getPart s p).logs.digests.prod + 1 ∧ (∃ x ∈ (getPart t p).logs.digests.items, x.kind = .dcmp ∧
        x.part = p ∧ x.body.getLast? = some (BitVec.ofNat 32 dcNopeer)) ∧ t.spires = s.spires ∧ t.cistern.data = s.cistern.data) ∧
  (∀ (s : State) (p : Nat) (j : AttJob), p < s.parts.length → s.attQ.find? (fun j => j.part == p) = some j →
    ∃ t, exec (.attestationSign p) s = .next t ∧ t.attQ = s.attQ.erase j ∧ t.rng = s.rng + 6 ∧
      (getPart t p).logs.digests.prod = (getPart s p).logs.digests.prod + 1 ∧ (∃ x ∈ (getPart t p).logs.digests.items, x.kind = .att ∧
        x.part = p) ∧ (getPart t p).cnt.meters = updAt (getPart s p).cnt.meters mAttest (· + 1) ∧
      t = { s with attQ := t.attQ, rng := t.rng, parts := t.parts, near := t.near })

/-- FLIT_CRC_FAIL of a flit whose check does not fit it, on a link that is live, while the flit has been requested fewer than
sixteen times and the link's retries of this second stay within SEAM_ERR_MAX, counts one retry in LINKRETRY and one more request
of that link; after sixteen requests a mesh link is down and a seam group is disabled, with KEEP_ALERT's Caravan bit set; a link
that is not live, or a flit whose check fits it, has no effect (log 2). (The model's readings: sixteen requests, log 51.)
BACKLOG_REPORT makes the Spire's report the only one of that Spire at its Dome. GRANT_INTERVAL begins the interval anew: the
grants of the last 1,024 ticks still stand, what it grants anew at that Dome is, in sum, at most 64 times the larger of 8 and 32
less the verdict rate in GB/s, no Spire that kept within the 2,048 bytes that its uplink carries in 1,024 ticks (log 97) goes
beyond them, the witness bucket stays within 64 KiB, and no other Dome, tile or operation changes. (The model's readings: classes
and credits, log 90; an unknown Dome, log 2.) (10_caravan_and_cistern.md) -/
def Obligations.CaravanRetriesAndGrants : Prop :=
  (∀ (s : State) (l : LinkId) (d : Dome) (x : BitVec 128) (c : Byte), getDome s (linkDome l) = some d → crc8 128 x.toNat ≠ c.toNat →
    (linkLive d (normLink l) = true → 1 ≤ seamErrMax s → (∀ e ∈ d.seamErr, e.1 = normLink l → e.2.2 < seamErrMax s) →
      (∃ t e, exec (.flitCrcFail l ⟨x, c, false⟩) s = .next t ∧ t.caravan = { s.caravan with linkretry := satInc s.caravan.linkretry } ∧
        getDome t (linkDome l) = some { d with retries := (d.retries.filter fun r => r.1 != normLink l) ++ [(normLink l, 1)], seamErr := e } ∧
        (∀ j, j ≠ linkDome l → getDome t j = getDome s j) ∧ t = { s with caravan := t.caravan, domes := t.domes }) ∧
      (∀ n, d.retries.find? (fun r => r.1 == normLink l) = some (normLink l, n) → n < 16 →
        ∃ t e, exec (.flitCrcFail l ⟨x, c, true⟩) s = .next t ∧ t.caravan = { s.caravan with linkretry := satInc s.caravan.linkretry } ∧
          getDome t (linkDome l) = some { d with retries := (d.retries.filter fun r => r.1 != normLink l) ++ [(normLink l, n + 1)], seamErr := e } ∧
          t = { s with caravan := t.caravan, domes := t.domes })) ∧
    (∀ n, linkLive d (normLink l) = true → d.retries.find? (fun r => r.1 == normLink l) = some (normLink l, n) → 16 ≤ n →
      ∃ t d', exec (.flitCrcFail l ⟨x, c, true⟩) s = .next t ∧ getDome t (linkDome l) = some d' ∧ linkLive d' (normLink l) = false ∧
        t.keep.alert.getLsbD alCaravan = true ∧ t.cistern.data = s.cistern.data) ∧
    (linkLive d (normLink l) = false → ∀ a, exec (.flitCrcFail l ⟨x, c, a⟩) s = .next s) ∧
    (∀ y a, crc8 128 y = c.toNat → y < 2 ^ 128 → exec (.flitCrcFail l ⟨BitVec.ofNat 128 y, c, a⟩) s = .next s)) ∧
  ((∀ (s : State) (sp wit rec bulk : Nat) (x : Spire) (d : Dome), getSp s sp = some x → getDome s (sp / 256) = some d →
    ∃ t, exec (.backlogReport sp wit rec bulk) s = .next t ∧
      getDome t (sp / 256) = some { d with backlog := (d.backlog.filter fun b => b.1 != sp) ++ [(sp, wit, rec, bulk)] } ∧
      (∀ j, j ≠ sp / 256 → getDome t j = getDome s j) ∧ t = { s with domes := t.domes }) ∧
  (∀ (s : State) (dome vrate : Nat) (d : Dome), getDome s dome = some d →
    ∃ t d' new, exec (.grantInterval dome vrate) s = .next t ∧ getDome t dome = some d' ∧
      d'.granted = (d.granted.filter fun g => decide (s.time.tick.toNat < g.2.2.toNat + 1024)) ++ new ∧ (∀ g ∈ new, g.2.2 = s.time.tick) ∧
      (new.map (·.2.1)).sum ≤ max 8 (32 - vrate) * 64 ∧ (∀ i, recentGrants s d i ≤ 2048 → recentGrants t d' i ≤ 2048) ∧ d'.bucket ≤ 65536 ∧ (∀ j, j ≠ dome → getDome t j = getDome s j) ∧
      t.tiles = s.tiles ∧ t.ops = s.ops ∧ t.cistern.data = s.cistern.data) ∧
  (∀ (s : State) (dome vrate : Nat), getDome s dome = none → exec (.grantInterval dome vrate) s = .next s))

/-- An assertion of COLD_RESET_N, a loss of PWR_GOOD and a loss of the always-on rail each leave the reset state but for the fuses
and what the block is built with, the NVM, of whose copies the newer valid ones are taken, and, while power holds, the near
window's contents and the thermal latch, which only the always-on rail clears; EXTEST and CLAMP drive the pads from then on where
PWR_GOOD is asserted; the commands that wait stay. The release of COLD_RESET_N begins step 1; with the latch set bring-up fails
with cause TRIPLATCH, FAULT_N asserted and the deepest throttle; while COLD_RESET_N is not asserted it has no effect (log 2). (The
model's readings: reset values, log 1; PWR_GOOD, log 59.) (11_bringup_nvm_licences.md; 12_selftest_and_thermal.md;
07_oasis_and_recovery.md) -/
def Obligations.ColdResets : Prop :=
  (∀ (s : State) (c : Instr) (good power : Bool), (c, good, power) ∈
      [(Instr.coldResetNAssert, s.pads.pwrGood, true), (.pwrGoodLoss, false, true), (.alwaysOnRailLoss, false, false)] →
    ∃ t, exec c s = .next t ∧ t.pads.coldReset = true ∧ t.pads.pwrGood = good ∧ t.pads.thermtrip = (s.pads.thermtrip && power) ∧
      t.pads.launchOut = false ∧ t.pads.xspi = false ∧
      t.pads.driven = (good && (t.pads.ir == 0x03 || t.pads.ir == 0x04)) ∧ t.pads.ir = (if good = true then s.pads.ir else 0x01) ∧
      t.records = (if power = true then s.records else []) ∧ t.nvm.repA = s.nvm.repA ∧ t.nvm.repB = s.nvm.repB ∧
      t.nvm.snapA = s.nvm.snapA ∧ t.nvm.snapB = s.nvm.snapB ∧ t.nvm.snapTick = none ∧ t.nvm.snapPending = false ∧ t.nvm.repairDue = [] ∧
      (match newerCopy magicRepair s.nvm.repA s.nvm.repB with
        | some b => t.nvm.entries = repairsOf (blockBody b) ∧ t.nvm.repairSeq = blockSeq b
        | none => t.nvm.entries = [] ∧ t.nvm.repairSeq = 0) ∧ t.nvm.valid = (newerCopy magicSnap s.nvm.snapA s.nvm.snapB).isSome ∧
      (∀ p, p < s.parts.length → getPart t p = { Part.reset with
        oasisMem := if power = true then (getPart s p).oasisMem else [], logs := if power = true then (getPart s p).logs else Part.reset.logs }) ∧
      t = { State.reset with nvm := t.nvm, fuses := s.fuses, built := s.built, parts := t.parts, records := t.records, pads := t.pads, rng := s.rng, pending := s.pending }) ∧
  (∀ (s : State), s.pads.coldReset = true → s.pads.thermtrip = false → ∃ t, exec .coldResetNRelease s = .next t ∧ t.boot.step = 1 ∧
    t.boot.started = true ∧ t.pads.coldReset = false ∧ t.pads.pwrGood = true ∧ t.pads.driven = false ∧ t = { s with boot := { s.boot with step := 1, started := true, began := s.boot.began ++ [s.time.tick] }, pads := t.pads }) ∧
  (∀ (s : State), s.pads.coldReset = true → s.pads.thermtrip = true → ∃ t, exec .coldResetNRelease s = .next t ∧ t.boot.step = 7 ∧
    t.boot.fail = 2 ∧ t.keep.fault = true ∧ t.thermal.level = 3 ∧ t.belfry.run = false ∧ t.cistern.data = s.cistern.data) ∧
  (∀ (s : State), s.pads.coldReset = false → exec .coldResetNRelease s = .next s)

/-- A good fuse read of step 1, whose two passes agree and whose every region checks, takes the array, with what has been blown
before (log 7), and its fused entitlement; in the safe state of FUS a good read takes the array alone; a manufacturing instruction
before DBG_LOCK blows the fuses that it names; a bad one is retried three times and then fails bring-up with cause FUSE. After it
and before discovery, TIMEREF_WAIT_TIMEOUT fails with NOTREF and PLL_LOCK_TIMEOUT with PLL. NVM_DISCOVERY takes the mode that the
SFDP data, the fuses and the comparison allow, and the Cistern is filled. IMAGE_CHECK of the slot whose turn it is loads a good
image and gives a bad one its check code, and with no slot left fails with NOIMAGE. FIRMWARE_START with an image begins step 2
with the Keep's twelve units enabled. In another step than 1 none of them has an effect (log 2). (The model's readings: sections
without a layout, log 8; slots, log 58; events of step 1 without a command, log 56; fuses blank before, log 60.)
(11_bringup_nvm_licences.md) -/
def Obligations.BringUpStep1 : Prop :=
  let fails := fun (s : State) (c : Instr) (cause : Nat) => ∃ t, exec c s = .next t ∧ t.boot.step = 7 ∧ t.boot.fail = cause ∧ t.keep.fault = true ∧
      t.thermal.level = 3 ∧ t.belfry.run = false ∧ t.nvm = s.nvm ∧ t.cistern.data = s.cistern.data
  (∀ (s : State) (r : FuseRead),
    let checks := fun x : (Nat × Nat) × W32 => (x.1.2 = 0 ∧ x.2 = 0) ∨ crc32c (leBytes x.1.1 x.1.2) = x.2
    let good := r.first = r.second ∧ r.first.crcs.length = 14 ∧ ∀ x ∈ (fuseRegions r.first.array).zip r.first.crcs, checks x
    (inSafe s uFus = true → good → exec (.fuseRead r) s = .next { s with fuses := fuseOr s.fuses r.first.array }) ∧
    (inSafe s uFus = false → s.boot.step = 1 → s.boot.readOk = false → good → exec (.fuseRead r) s = .next { s with
      fuses := fuseOr s.fuses r.first.array, boot := { s.boot with readOk := true, ent := (fuseOr s.fuses r.first.array).licFloor } }) ∧
    (s.boot.step = 1 → s.boot.readOk = false → ¬ good →
      (s.boot.retries < 3 → exec (.fuseRead r) s = .next { s with boot := { s.boot with retries := s.boot.retries + 1 } }) ∧
      (3 ≤ s.boot.retries → fails s (.fuseRead r) 1))) ∧
  (∀ (s : State) (p : PrivOp), s.pads.pwrGood = true → s.fuses.dbgLock = false → WellFormed (.manufacturingTest p) = true →
    ∃ t, exec (.manufacturingTest p) s = .next t ∧ t.fuses = fuseOr s.fuses p.blow) ∧
  (∀ (s : State), s.boot.step = 1 → s.boot.readOk = true → s.boot.discovered = false →
    fails s .timerefWaitTimeout 3 ∧ fails s .pllLockTimeout 4 ∧
    (∀ d, exec (.nvmDiscovery d) s = .next { s with
      boot := { s.boot with discovered := true, mode := nvmMode s.fuses d }, time := { s.time with trefOk := true }
      pads := { s.pads with xspi := true }, nvm := { s.nvm with sfdp := some d, ins := discoveryIns s.fuses d }, cistern := { s.cistern with filled := true } })) ∧
  (∀ (s : State) (r : ImageRead), s.boot.step = 1 → s.boot.discovered = true → s.image = none →
    ((trialOrder r).find? fun b => imgCode s b == 0) = some r.slotB →
    ∃ t, exec (.imageCheck r) s = .next t ∧ match checkImage s.built s.fuses r with
      | .good im key => t.image = some im ∧ t.imageKey = key ∧ t.boot.slot = r.slotB ∧ t.tiles.map (·.ix) = im.geom.spires.map (·.ix) ∧
          t.spires.length = im.geom.spires.length ∧ t.domes.length = im.geom.domes.length ∧ t.boot.step = 1 ∧ t.fuses = s.fuses
      | .bad c => imgCode t r.slotB = c ∧ t.image = none) ∧
  (∀ (s : State) (r : ImageRead), s.boot.step = 1 → s.boot.discovered = true → s.image = none → trialOrder r = [] →
    fails s (.imageCheck r) 5) ∧
  (∀ (s : State), s.boot.step = 1 → s.image.isSome = true → exec .firmwareStart s = .next { s with
    boot := { s.boot with step := 2, firmware := true, began := s.boot.began ++ [s.time.tick] }, keep := { s.keep with unitEn := 0x0FFF } }) ∧
  (∀ (s : State), s.boot.step ≠ 1 → (inSafe s uFus = false → ∀ r, exec (.fuseRead r) s = .next s) ∧ exec .timerefWaitTimeout s = .next s ∧ exec .pllLockTimeout s = .next s ∧
    (∀ d, exec (.nvmDiscovery d) s = .next s) ∧ (∀ r, exec (.imageCheck r) s = .next s) ∧ exec .firmwareStart s = .next s)

/-- CLOCKS_AND_CARAVAN in step 2, with a reading of every sensor, does its work and begins step 3, or under ALIGN waits for a PPS
edge: every Dome is up, each stage of the sideband has half its loop as its latency, the Dome and Spire units are enabled, the
fabric counter runs, or waits for that edge, and each tap takes its version, the heartbeat kept only by version 3. MEMORIES in
step 3 ends it: each licensed engine whose six samples of 32 rows and whose logic self-test slices gave what is stored is free,
each whose samples or first slice did not stays out until cold reset (one that no report names counts so: log 116), those not
licensed are off, and with no engine left bring-up fails with cause NOENGINE; a tile whose checker self-test did not pass is
FENCED, and its repair is due. In another step each has no effect, nor has a report of step 2 with no reading (log 2). (The
model's readings: bring-up events with no command, log 56.) (11_bringup_nvm_licences.md; 02_tile_tap.md) -/
def Obligations.BringUpSteps2And3 : Prop :=
  (∀ (s : State) (taps : List (Nat × BitVec 4)) (sp : Spire) (v : BitVec 4), s.boot.step = 2 → s.boot.clocks = false → sp ∈ s.spires →
    (s.spires.map (·.ix)).Nodup → (s.domes.map (·.ix)).Nodup → taps.find? (fun t => t.1 == sp.ix) = some (sp.ix, v) →
    ∀ (dl sl : List (Nat × Nat)) (sweep : List (Bool × Nat × Nat)),
    (∀ x ∈ s.spires, ∃ n, (false, x.ix, n) ∈ sweep) → (∀ x ∈ s.domes, ∃ n, (true, x.ix, n) ∈ sweep) →
    ∃ t sp', exec (.clocksAndCaravan taps ⟨[], dl, sl, sweep⟩) s = .next t ∧ t.time.domeLat = dl.map (fun x => (x.1, x.2 / 2)) ∧
      t.time.spireLat = sl.map (fun x => (x.1, x.2 / 2)) ∧ t.thermal.swept = true ∧ t.boot.clocks = true ∧ t.keep.unitEn = s.keep.unitEn ||| 0x3000 ∧
      (∀ d ∈ t.domes, d.up = true) ∧ t.time.tick = s.time.tick ∧
      (ppsMode s = 2 → t.boot.step = 2 ∧ t.time.alignWait = true ∧ t.time.run = s.time.run) ∧
      (ppsMode s ≠ 2 → t.boot.step = 3 ∧ t.time.run = true ∧ t.time.alignWait = false ∧ ∀ x ∈ t.spires, x.testing = true) ∧
      getSp t sp.ix = some sp' ∧ sp'.tap.ver = v ∧ sp'.lv.hbOk = decide (v = 3) ∧ (v ≠ 2 → v ≠ 3 → sp'.tap.off = true) ∧
      t.cistern.data = s.cistern.data) ∧
  (∀ (s : State) (badBanks : List Nat) (engines : List (Nat × EngineRun)) (checkers : List (Nat × CheckerRun)), s.boot.step = 3 →
    s.engines.length = 64 → s.samples = [] →
    let es := goldenOf s uEngineSet
    let at_ := fun e i => if i = 0 then (getEng s e).ptr else ((getEng s e).ptr + i) % es.length
    let good := fun e => ∃ r, engines.find? (fun x => x.1 == e) = some (e, r) ∧ r.passes = true ∧
      ∀ i, i < es.length → ∃ x, r.slices[i]? = some x ∧ x.sig = some (entryAt es (at_ e i)).sig
    let bad := fun e => ∀ r, engines.find? (fun x => x.1 == e) = some (e, r) → r.passes = false ∨
      (0 < es.length ∧ ∀ x, r.slices.head? = some x → x.sig ≠ some (entryAt es (getEng s e).ptr).sig)
    ((∃ e, e < licEng s ∧ e < 64 ∧ good e) → ∃ t, exec (.memories badBanks engines checkers) s = .next t ∧ t.boot.step = 4 ∧
      t.boot.memories = true ∧ t.early = [] ∧ t.keep.fault = s.keep.fault ∧
      (∀ e, e < 64 → (licEng s ≤ e → (getEng t e).state = .off) ∧ (e < licEng s → (good e → (getEng t e).state = .free) ∧
        (bad e → (getEng t e).state = .failed))) ∧
      (∀ x ∈ s.tiles, (∃ sp ∈ s.spires, sp.ix = x.ix) → (s.tiles.map (·.ix)).Nodup → x.state < stFenced →
        (∀ r, checkers.find? (fun y => y.1 == x.ix) = some (x.ix, r) → r.passes = false) →
        stateOf t x.ix = stFenced ∧ (x.ix, none) ∈ t.nvm.repairDue)) ∧
    ((∀ e, e < licEng s → bad e) → ∃ t, exec (.memories badBanks engines checkers) s = .next t ∧ t.boot.step = 7 ∧ t.boot.fail = 9 ∧
      t.keep.fault = true)) ∧
  (∀ (s : State) taps net b e p, (s.boot.step ≠ 2 ∨ s.boot.clocks = true ∨ (net.sweep = [] ∧ s.thermal.swept = false) → exec (.clocksAndCaravan taps net) s = .next s) ∧
    (s.boot.step ≠ 3 → exec (.memories b e p) s = .next s))

/-- SEAM_QUALIFICATION in step 4 keeps of each edge the groups with at most one failing wire in every subgroup in one of their
dwells, BRING_RETRY of them after the first at most (R419); with an edge that keeps none in a direction bring-up fails with cause
SEAM, with a mandatory port that is not licensed with UNLICENSED. An attempt at the port's next version that passes qualifies the
port at it, and its HELLO goes out with a fresh nonce; one that fails is counted, beyond BRING_RETRY the next lower version is
tried, and beyond it at the lowest version a mandatory port fails bring-up before READY with cause BANEN; with no peer the port
waits, and BAN_WAIT ends that wait. BANEN_RETRY after READY begins again at the highest version. Other ports stand. (The model's
readings: logs 56, 60 and 76.) (11_bringup_nvm_licences.md; 10_caravan_and_cistern.md) -/
def Obligations.LinkQualification : Prop :=
  (∀ (s : State) (edges : List SeamEdge) (d : Dome), s.boot.step = 4 → s.boot.seams = false → d ∈ s.domes → (s.domes.map (·.ix)).Nodup →
    let e := edges.find? fun e => e.dome == d.ix
    let works := fun (l : List (List (List (Nat × Nat)))) (g : Nat) => let ds := (l.getD g []).take (bringRetry s + 1)
      ds.isEmpty || ds.any fun d => groupWorks (d.map (·.1))
    ∃ t d', exec (.seamQualification edges) s = .next t ∧ t.boot.seams = true ∧ getDome t d.ix = some d' ∧
      (∀ g, g < upGroups s d.ix → d'.groupsUp.getD g false = works ((e.map (·.up)).getD []) g) ∧ d'.groupsUp.length = upGroups s d.ix ∧
      (∀ g, g < dnGroups s d.ix → d'.groupsDn.getD g false = works ((e.map (·.down)).getD []) g) ∧ d'.groupsDn.length = dnGroups s d.ix ∧
      ((∃ x ∈ t.domes, edgeUp x = false) ↔ t.boot.step = 7 ∧ t.boot.fail = 6) ∧
      (t.boot.step = 4 ∨ (t.boot.step = 7 ∧ t.keep.fault = true ∧ (t.boot.fail = 6 ∨ t.boot.fail = 8))) ∧ t.cistern.data = s.cistern.data) ∧
  (∀ (s : State) (q : BanQual), mayQualify s q.port = true → q.version = nextVer s q.port → q.port < s.ports.length →
    let p := getPort s q.port
    let at_ := fun t : State => (∀ j, j ≠ q.port → getPort t j = getPort s j) ∧ t.tiles = s.tiles ∧ t.cistern.data = s.cistern.data
    (q.peer = false → ∃ t, exec (.banenQualification q) s = .next t ∧ getPort t q.port = { p with waiting := true } ∧ at_ t) ∧
    (q.peer = true → qualPasses q = true → q.hello = none → ∃ t, exec (.banenQualification q) s = .next t ∧
      getPort t q.port = { p with
        quals := 0, qver := q.version, waiting := false, nonce := (draw s).1, lastTx := (getPort t q.port).lastTx } ∧
      (getPort t q.port).lastTx.take 2 = [0x01, 3] ∧ t.rng = s.rng + 1 ∧ at_ t) ∧
    (q.peer = true → qualPasses q = false → p.quals + 1 ≤ bringRetry s → ∃ t, exec (.banenQualification q) s = .next t ∧
      getPort t q.port = { p with quals := p.quals + 1, cand := q.version } ∧ at_ t) ∧
    (q.peer = true → qualPasses q = false → bringRetry s < p.quals + 1 → minVer s q.port < q.version → ∃ t, exec (.banenQualification q) s = .next t ∧
      getPort t q.port = { p with quals := 0, cand := q.version - 1 } ∧ at_ t) ∧
    (q.peer = true → qualPasses q = false → bringRetry s < p.quals + 1 → q.version = minVer s q.port → mandatory s q.port = true → s.boot.ready = false →
      s.boot.step ≠ 7 → ∃ t, exec (.banenQualification q) s = .next t ∧ t.boot.step = 7 ∧ t.boot.fail = 7 ∧ t.keep.fault = true)) ∧
  (∀ (s : State) (q : Nat), mayQualify s q = true → q < s.ports.length → (getPort s q).waiting = true → s.boot.ready = false → s.boot.step ≠ 7 →
    ∃ t, exec (.banWait q) s = .next t ∧ getPort t q = { getPort s q with waiting := false } ∧
      (mandatory s q = true → t.boot.step = 7 ∧ t.boot.fail = 7) ∧ (mandatory s q = false → t = { s with ports := t.ports })) ∧
  (∀ (s : State) (q : Nat), mayQualify s q = true → q < s.ports.length → s.boot.ready = true → mandatory s q = false →
    ∃ t, exec (.banenRetry q) s = .next t ∧ getPort t q = { getPort s q with quals := 0, qver := 0, cand := 0, waiting := true } ∧
      (∀ j, j ≠ q → getPort t j = getPort s j) ∧ t.tiles = s.tiles ∧ t.cistern.data = s.cistern.data)

/-- WAVE_RELEASE where step 5 may begin starts the Belfry, unless DIE_FAULT has stopped it, and releases the Domes of the first
slot; a released tile that holds its reset acknowledge and is neither DEAD, RETIRED nor lost has TT_RST_REQ deasserted. READY, at
the first moment at which every criterion holds, ends bring-up, blows the fuses that the image's flags order, MIN_SVN up to the
image's number and the revocation of the other key, and empties the queues and logs, whose headers are written anew; before it has
no effect (log 2). TIMEREF_RELOCK_TIMEOUT in step 5 fails bring-up with NOTREF in holdover, and has no effect with TIMEREF locked.
(The model's readings: log 56.) (11_bringup_nvm_licences.md) -/
def Obligations.ComputeReleaseAndReady : Prop :=
  (∀ (s : State) (sl : List Nat) (rest : List (List Nat)), step5Begins s = true → (s.image.map releaseSlots).getD [] = sl :: rest →
    ∃ t, exec .waveRelease s = .next t ∧ t.boot.step = 5 ∧ t.boot.slots = rest ∧ t.belfry.run = !s.keep.dieFault ∧
      (∀ d ∈ t.domes, d.ix ∈ sl → d.released = true) ∧ t.cistern.data = s.cistern.data) ∧
  (∀ (s : State) (d : Nat) (sp : Spire) (x : Tile), s.boot.step = 5 → s.boot.slots = [[d]] → sp ∈ s.spires → x ∈ s.tiles → x.ix = sp.ix →
    (s.spires.map (·.ix)).Nodup → (s.tiles.map (·.ix)).Nodup → x.ix / 256 = d → x.state ≠ stDead → x.state ≠ stRetired → x.lost = false → sp.lv.rstAck = true →
    ∃ t sp', exec .waveRelease s = .next t ∧ t.boot.slots = [] ∧ getSp t sp.ix = some sp' ∧ sp'.lv.rstReq = false ∧ sp'.lv.rstAck = true) ∧
  (∀ (s : State), readyNow s = true → ∃ t, exec .ready s = .next t ∧ t.boot.step = 6 ∧ t.boot.ready = true ∧ FuseGrows s.fuses t.fuses ∧
    (bitOf s.imageFlags 0 = false → bitOf s.imageFlags 1 = false → t.fuses = s.fuses) ∧
    (bitOf s.imageFlags 0 = true → s.imageSvn ≤ 64 → minSvn t.fuses = max (minSvn s.fuses) s.imageSvn) ∧
    t.fuses.ikeyRevoke = (if bitOf s.imageFlags 1 = true then s.fuses.ikeyRevoke ||| BitVec.ofNat 2 (2 ^ (1 - s.imageKey)) else s.fuses.ikeyRevoke) ∧
    (∀ p, p < s.parts.length → (getPart t p).logs.notes = Log.empty ∧ (getPart t p).logs.digests = Log.empty ∧
      (getPart t p).logs.meters = Log.empty ∧ (getPart t p).logs.trace = Log.empty) ∧ (∀ p l, p < 16 → l < 4 → NearItem.head l p 0 ∈ t.near.waiting) ∧
    (s.boot.fallback = true ∨ s.boot.softLost = true → t.keep.alert.getLsbD alImage = true) ∧ t.tiles = s.tiles ∧ t.cistern.data = s.cistern.data) ∧
  (∀ (s : State), readyNow s = false → exec .ready s = .next s) ∧
  (∀ (s : State), s.boot.step = 5 → s.time.holdover = true → ∃ t, exec .timerefRelockTimeout s = .next t ∧ t.boot.step = 7 ∧ t.boot.fail = 3 ∧
    t.keep.fault = true ∧ t.belfry.run = false ∧ t.cistern.data = s.cistern.data) ∧
  (∀ (s : State), s.time.holdover = false → s.time.trefOk = true → exec .timerefRelockTimeout s = .next s)

/-- While PWR_GOOD is asserted a TAP instruction is loaded. With COLD_RESET_N asserted as well, EXTEST selects the boundary
register and EXTEST and CLAMP drive the pads from it; outside that condition EXTEST, CLAMP and HIGHZ select the bypass register
and take no pad. IDCODE selects the identification register, whose bit 0 is 1 and whose bits 31 to 1 are fuse JTAG_ID;
SAMPLE/PRELOAD selects the boundary register, every other value BYPASS, a manufacturing instruction its private register until
DBG_LOCK is blown. SAMPLE/PRELOAD takes what the pads show and is loaded with what they shall be driven to. Nothing else changes,
but the fuses that a manufacturing instruction blows. (R395) -/
def Obligations.Jtag : Prop :=
  (∀ (s : State), s.pads.pwrGood = true →
    let loads := fun (c : Instr) (op : Byte) (r : TapReg1149) (d : Bool) => ∃ t, exec c s = .next t ∧
      t.pads = { s.pads with ir := op, driven := d } ∧ tapSelects t = r ∧ t = { s with pads := t.pads }
    loads .extest 0x03 (if s.pads.coldReset = true then .boundary else .bypass) s.pads.coldReset ∧ loads .clamp 0x04 .bypass s.pads.coldReset ∧
    loads .highz 0x05 .bypass false ∧ loads .idcode 0x01 .identification false ∧
    (∀ v, ∃ t, exec (.samplePreload v) s = .next t ∧ tapSelects t = .boundary ∧ t = { s with pads := { s.pads with
      ir := 0x02, driven := false, boundary := v.drive, sampled := v.sampled } }) ∧
    (∀ op, WellFormed (.bypass op) = true → loads (.bypass op) op .bypass false) ∧
    (∀ p, WellFormed (.manufacturingTest p) = true → (s.fuses.dbgLock = true → loads (.manufacturingTest p) p.op .bypass false) ∧
      (s.fuses.dbgLock = false → ∃ t, exec (.manufacturingTest p) s = .next t ∧ t.pads = { s.pads with ir := p.op, driven := false } ∧
        (t.fuses.dbgLock = false → tapSelects t = .manufacturing) ∧ t = { s with pads := t.pads, fuses := t.fuses }))) ∧
  (∀ (f : FuseArray), (idcodeOf f).getLsbD 0 = true ∧ ∀ i, i < 31 → (idcodeOf f).getLsbD (i + 1) = f.jtagId.getLsbD i)

/-- DONE_POLL notes that DONE was read of a slice whose patterns run. A slice of a tile that runs and ends with its golden
signature at its first run passes and is counted; one that does not is run again; the second run judges it FLAKY, when it passes,
or SOLID, when it fails: it is counted as failed, the tile's last full pass is void and, the Belfry stepping, input 0x10 with
cause 2 or 1 names the tile. (These hold where this slice is not the first of a full self-test, or the checker self-test that
begins one passed.) Where that failed the request ends, input 0x15 names the tile and its repair is due, as it is after a SOLID
failure, with the slice (log 99). SLICE_TIMEOUT of a slice that runs, before DONE, is violation 0x70 and a run that failed, after
which the checker self-test's result is still to come; else it has no effect, as no report has on a unit with no slice (log 2).
The state of the tile stands, and so do the other tiles. A slice of an engine is judged in the same way; its second failure takes
the engine out. (The model's readings: when a slice starts, log 77; bookkeeping, log 43.) (12_selftest_and_thermal.md) -/
def Obligations.SelfTestSlices : Prop :=
  (∀ (s : State) (sp : Nat) (x : Tile) (r : SliceRun) (ck : CheckerRun) (sig : W64) (us : W32), getTile s sp = some x → x.run = some r →
    let e := entryAt (fullSet s sp) r.slice
    let ran := fun (c : Instr) (P : State → Tile → Prop) => ∃ t y, exec c s = .next t ∧ getTile t sp = some y ∧ y.state = x.state ∧ P t y ∧
      (∀ j, j ≠ sp → getTile t j = getTile s j) ∧ t.cistern.data = s.cistern.data
    let failed := fun (cause : Nat) (t : State) (y : Tile) => y.run = none ∧ y.fullPass = none ∧
      t.thermal.cnts = updAt s.thermal.cnts thFail (satAdd · 1) ∧ (s.belfry.run = true → ∃ i ∈ t.belfry.inputs, i.code = 0x10 ∧ i.spire = sp ∧ i.cause = cause) ∧
      (cause = 1 → (sp, some r.slice) ∈ t.nvm.repairDue)
    let again := fun (first : Bool) (y : Tile) => ∃ b g, y.run = some ⟨r.slice, true, b, false, g, first⟩
    let judged := r.first = false ∨ ck.passes = true
    (∀ d, ran (.donePoll (.tile sp) d) fun t y => y = { x with run := some { r with doneSeen := r.doneSeen || (d && r.going) } } ∧
      t = { s with tiles := t.tiles, spires := t.spires } ∧ (d = false → t = s)) ∧
    (r.going = true → judged → sig = e.sig → r.again = false → ran (.sliceDone (.tile sp) ⟨ck, sig⟩ us) fun t y => y.run = none ∧
      t.thermal.cnts = updAt s.thermal.cnts thPass (satAdd · 1)) ∧
    (r.going = true → judged → sig ≠ e.sig → r.again = false → ran (.sliceDone (.tile sp) ⟨ck, sig⟩ us) fun t y => again false y ∧
      y.fullPass = x.fullPass ∧ t.thermal = s.thermal) ∧
    (r.going = true → judged → sig = e.sig → r.again = true → ran (.sliceDone (.tile sp) ⟨ck, sig⟩ us) (failed 2)) ∧
    (r.going = true → judged → sig ≠ e.sig → r.again = true → ran (.sliceDone (.tile sp) ⟨ck, sig⟩ us) (failed 1)) ∧
    (r.going = true → r.first = true → ck.passes = false → ran (.sliceDone (.tile sp) ⟨ck, sig⟩ us) fun t y => y.run = none ∧ (sp, none) ∈ t.nvm.repairDue ∧
      y.reqs = x.reqs.tail ∧ (s.belfry.run = true → ∃ i ∈ t.belfry.inputs, i.code = 0x15 ∧ i.spire = sp)) ∧
    (r.going = true → r.doneSeen = false → r.again = true → ran (.sliceTimeout (.tile sp)) (failed 1)) ∧
    (r.going = true → r.doneSeen = false → r.again = false → ran (.sliceTimeout (.tile sp)) fun _ y => again r.first y) ∧
    (r.going = true → r.doneSeen = false → ∀ p, getSp s sp = some p → ∃ t p', exec (.sliceTimeout (.tile sp)) s = .next t ∧ getSp t sp = some p' ∧
      p'.viol = (0x70, 0x0210)) ∧
    (r.doneSeen = true ∨ r.going = false → exec (.sliceTimeout (.tile sp)) s = .next s) ∧
    (r.going = false → exec (.sliceDone (.tile sp) ⟨ck, sig⟩ us) s = .next s)) ∧
  (∀ (s : State) (n : Nat) (r : SliceRun) (ck : CheckerRun) (sig : W64) (us : W32), n < s.engines.length → (getEng s n).run = some r →
    let e := entryAt (goldenOf s uEngineSet) r.slice
    ∃ t, exec (.sliceDone (.engine n) ⟨ck, sig⟩ us) s = .next t ∧ t.cistern.data = s.cistern.data ∧
      (sig = e.sig → r.again = false → (getEng t n).run = none ∧ (getEng t n).state = (getEng s n).state ∧
        t.thermal.cnts = updAt s.thermal.cnts thPass (satAdd · 1)) ∧
      (sig ≠ e.sig → r.again = false → (getEng t n).run = some ⟨r.slice, true, s.time.tick, false, true, false⟩ ∧ t.thermal = s.thermal) ∧
      (r.again = true → (getEng t n).run = none ∧ (getEng t n).state = .failed ∧ t.thermal.cnts = updAt s.thermal.cnts thFail (satAdd · 1))) ∧
  (∀ (s : State) (u : TestUnit) (ck : CheckerRun) (sig : W64) (us : W32),
    (match u with | .tile sp => (∀ x, getTile s sp = some x → x.run = none) | .engine e => (getEng s e).run = none) →
    exec (.sliceDone u ⟨ck, sig⟩ us) s = .next s ∧ exec (.sliceTimeout u) s = .next s)

/-- NOTIDLE_TIMEOUT of a waiting on-demand test on a tile that is not idle takes the request back and ends the command REFUSED
with cause NOTIDLE. SNAPSHOT_WRITE, when a change waits, the last was 100 ms ago and the NVM unit is in service, writes the states
and pointers of all tiles, and the engines' pointers, into one of the two copies, with the next SEQ, and else, less than 100 ms
after the last one among them, has no effect (log 2). SDT_COMPLETE with no slice running and no bank to test ends the shut-down
self-test: its state is 2, the repair record and the snapshot are written and no request is left; in another state it has no
effect (log 2). (The model's readings: the shut-down self-test, log 62; deadlines by state, log 36.) (12_selftest_and_thermal.md)
-/
def Obligations.SelfTestEnds : Prop :=
  (∀ (s : State) (who : Requester) (x : Tile) (w : W32), instOf who < s.keep.cmd.length →
    let mine := fun r : SliceReq => r.inst == some (instOf who) && r.waitIdle && !r.begun
    s.tiles.find? (fun t => t.reqs.any mine && !((getSp s t.ix).map (·.lv.idle)).getD false) = some x →
    (getCmd s (instOf who)).running = some w → (getCmd s (instOf who)).queued = none →
    ∃ t, exec (.notidleTimeout who) s = .next t ∧ (∀ y, getTile s x.ix = some y → getTile t x.ix = some { y with reqs := y.reqs.filter fun r => !mine r }) ∧
      (getCmd t (instOf who)).running = none ∧ ((getCmd s (instOf who)).shown = 1 → (getCmd t (instOf who)).res = cmdRes w crRefused ccNotIdle) ∧
      (∀ i, i ≠ instOf who → getCmd t i = getCmd s i) ∧ t = { s with tiles := t.tiles, keep := { s.keep with cmd := t.keep.cmd } }) ∧
  (∀ (s : State), s.nvm.snapPending = true → (∀ x, s.nvm.snapTick = some x → 100000000 ≤ s.time.tick.toNat - x.toNat) → inSafe s uNvm = false →
    ∃ t, exec .snapshotWrite s = .next t ∧ t.nvm.valid = true ∧ t.nvm.tiles = s.tiles.map (fun x => (x.ix, x.state)) ∧
      t.nvm.ptrs = s.tiles.map (fun x => (x.ix, x.ptr)) ∧ t.nvm.engPtrs = s.engines.map (·.ptr) ∧ t.nvm.snapTick = some s.time.tick ∧
      (∃ blk, blk = nvmBlock magicSnap (s.nvm.snapSeq + 1) (snapBody t.nvm.tiles t.nvm.ptrs t.nvm.engPtrs s.imageSeq) ∧
        ((t.nvm.snapA = blk ∧ t.nvm.snapB = s.nvm.snapB) ∨ (t.nvm.snapB = blk ∧ t.nvm.snapA = s.nvm.snapA))) ∧ t.nvm.snapSeq = s.nvm.snapSeq + 1 ∧ t.nvm.snapPending = false ∧
      t.nvm.entries = s.nvm.entries ∧ t = { s with nvm := t.nvm }) ∧
  (∀ (s : State), s.nvm.snapPending = false ∨ inSafe s uNvm = true ∨ (∃ x, s.nvm.snapTick = some x ∧ s.time.tick.toNat - x.toNat < 100000000) →
    exec .snapshotWrite s = .next s) ∧
  (∀ (s : State), s.thermal.sdtState = 1 → (∀ x ∈ s.tiles, x.run = none) → (∀ g ∈ s.engines, g.run = none) → s.thermal.sdtBanks = [] → s.nvm.repairDue = [] →
    inSafe s uNvm = false →
    ∃ t, exec .sdtComplete s = .next t ∧ t.thermal.sdtState = 2 ∧ (∀ x ∈ t.tiles, x.reqs = []) ∧ t.nvm.valid = true ∧
      t.nvm.tiles = t.tiles.map (fun x => (x.ix, x.state)) ∧ t.nvm.repairSeq = s.nvm.repairSeq + 1 ∧ t.tiles.map (·.state) = s.tiles.map (·.state) ∧
      t.spires = s.spires ∧ t.cistern.data = s.cistern.data) ∧
  (∀ (s : State), s.thermal.sdtState ≠ 1 ∨ s.thermal.sdtBanks ≠ [] → exec .sdtComplete s = .next s)

/-- A reading of a good sensor within its bounds and, for a Spire, within 25 °C of its Dome's reference is taken, and the sensor's
level rises at once to the level it reaches; a second reading in a row at T_TRIP or above asserts THERMTRIP_N and drives the
deepest throttle; one out of bounds, or that of the third sweep in a row in which a Spire's first lies more than 25 °C from its
Dome's valid reference, makes the sensor bad, with no level of its own. LEVEL_FALL takes the level down one step when the reading
lies below the level's threshold less the hysteresis, and else has no effect (log 2). (12_selftest_and_thermal.md) -/
def Obligations.TemperatureSensors : Prop :=
  (∀ (s : State) (dome : Bool) (ix count : Nat) (x : Sensor), getSensor s dome ix = some x → x.bad = false →
    let tr := trimOf s dome ix
    let v := reading ((s.image.map (·.thermal.curve)).getD []) tr count
    let good := 160 ≤ (trimD tr).natAbs ∧ -160 ≤ v ∧ v ≤ 600
    let later := s.thermal.sweptSet.contains (dome, ix)
    (good → x.diffs < 3 → (dome = true ∨ later = true ∨ (v - domeRef s (ix / 256)).natAbs ≤ 100) →
      ∃ t y, exec (.sensorReading dome ix count) s = .next t ∧ getSensor t dome ix = some y ∧ y.temp = v ∧ y.valid = true ∧ y.bad = false ∧
        y.lvl = max x.lvl (levelOf s v) ∧ (v < thrAt s 4 → y.trips = 0 ∧ t.pads = s.pads) ∧
        (thrAt s 4 ≤ v → 1 ≤ x.trips → t.pads.thermtrip = true ∧ t.thermal.level = 3) ∧
        (thrAt s 4 ≤ v → x.trips = 0 → y.trips = 1 ∧ t.pads = s.pads) ∧ t.cistern.data = s.cistern.data) ∧
    (good → dome = false → later = false → 100 < (v - domeRef s (ix / 256)).natAbs → (getDome s (ix / 256)).map (·.sensor.valid) = some true →
      ∃ t y, exec (.sensorReading dome ix count) s = .next t ∧ getSensor t dome ix = some y ∧ (x.diffs < 2 → y.diffs = x.diffs + 1 ∧ y.bad = false ∧ y.temp = v) ∧
        (2 ≤ x.diffs → y.bad = true ∧ y.lvl = 0 ∧ t.thermal.snsbad = true ∧ t.pads = s.pads) ∧ t.cistern.data = s.cistern.data) ∧
    ((trimD tr).natAbs < 160 ∨ v < -160 ∨ 600 < v →
      ∃ t y, exec (.sensorReading dome ix count) s = .next t ∧ getSensor t dome ix = some y ∧ y.bad = true ∧ y.lvl = 0 ∧ y.trips = 0 ∧
        t.thermal.snsbad = true ∧ t.pads = s.pads ∧ t.cistern.data = s.cistern.data)) ∧
  (∀ (s : State) (dome : Bool) (ix : Nat) (x : Sensor), getSensor s dome ix = some x →
    let hyst : Int := 4 * ((s.image.map (·.thermal.hyst)).getD 3 : Nat)
    (x.lvl ≠ 0 → x.bad = false → x.temp < thrAt s x.lvl - hyst → ∃ t, exec (.levelFall dome ix) s = .next t ∧
      getSensor t dome ix = some { x with lvl := x.lvl - 1 } ∧ t.pads = s.pads ∧ t.tiles = s.tiles ∧ t.cistern.data = s.cistern.data) ∧
    (x.lvl = 0 ∨ x.bad = true ∨ thrAt s x.lvl - hyst ≤ x.temp → exec (.levelFall dome ix) s = .next s))

/-- At a BELFRY_TICK at which the Belfry steps: what it samples is put in order of class, then what an earlier tick carried, then
Spire with none last, then source kind, then arrival; it takes at most 256 of them, at most 64 of classes 0 to 4, and carries the
rest, counted. The actions gathered run in ascending class, and within a class in sampled order. An input gives a tile action of a
REACT peal that does not count exactly on the tiles of its partition that TGT_MODE chooses and whose condition holds, where the
peal is live and TRIG, PART, CAUSE, the layer range and the state mask match. Of the actions on one tile those of a higher class
number than the lowest present are cancelled, and of the state actions of the lowest class all but the first of the highest
severity are cancelled or merge with it; of its other actions the first of each code stands and the others merge (a command never
merges, having its own result); an action with no tile is never cancelled. Each cancellation writes a BLFX record and counts in
BLF_CANCEL_CNT. So, with no repair due: where one input is sampled, of class 7 or less, beside nothing but TIMER firings of
LBIST_TILE and UNWATCH, and one peal alone matches it, unconditionally, on the input's own tile, WATCH takes a HEALTHY tile to
WATCH and no other, FENCE takes a HEALTHY or WATCH tile to FENCED and sends or queues its frame and no other tile, DEAD takes any
tile to DEAD; where at most 256 TIMER firings alone are sampled, one peal's UNWATCH with PARAM[0] = 0, of every tile or of one,
under WEXIT or no condition, and else only LBIST_TILE, it takes a tile from WATCH to HEALTHY exactly when it has been there for
WATCH_MIN, with WATCH_PASS passes and a passed slice since. (The model's readings: codes of a cancelled command, log 31; order of
a tick's work, log 63; what restarts the exit conditions, log 34.) (06_verdicts_and_quarantine.md; 09_belfry_and_time.md) -/
def Obligations.BelfryTickResolves : Prop :=
  ∀ (s : State), s.time.run = true → s.belfry.run = true →
    let n := nextBelfry s
    let u := atTick s
    let all := itemsAt u n
    let xs := sampled all
    let taken := (withinLimits xs).1
    let rest := (withinLimits xs).2
    let low := fun l : List Item => (l.filter fun x => decide ((itemKey x).1 ≤ 4)).length
    let gathered := fun v : State => (taken.foldl (itemActs n) ⟨v, [], []⟩).acts
    xs.Perm all ∧ xs.Pairwise (fun a b => keyLe (itemKey a) (itemKey b) = true) ∧
    (∀ k, xs.filter (fun x => itemKey x == k) = all.filter (fun x => itemKey x == k)) ∧
    (taken ++ rest).Perm xs ∧ taken.Sublist xs ∧ rest.Sublist xs ∧ taken.length ≤ 256 ∧ low taken ≤ 64 ∧
    (∀ x ∈ rest, taken.length = 256 ∨ ((itemKey x).1 ≤ 4 ∧ low taken = 64)) ∧
    (∀ v, (gathered v).Pairwise fun a b => a.cls ≤ b.cls ∧ a.seq < b.seq) ∧
    (∃ t, exec .belfryTick s = .next t ∧ t = endTick (orderFrames u.caravan.frames.length (tickWork (sampleTick u n))) ∧
      t.belfry.carriedIn = carriedInputs rest ∧ t.belfry.timers = carriedTimers rest ∧ t.belfry.wcSets = carriedLabels rest ∧
      t.belfry.carryCnt = satAdd s.belfry.carryCnt rest.length) ∧
    (∀ (v : State) (c : Bool) (i : Input) (ix sp : Nat) (p : Peal), inSafe v uBlf = false → (∀ y ∈ allPeals v, counting y.2 = false) →
      (ix, p) ∈ allPeals v → tileAct (plAct p) = true →
      ((∃ a ∈ (itemActs n ⟨v, [], []⟩ (.input c i)).acts, a.peal = ix ∧ a.tile = some sp ∧ a.code = plAct p ∧ a.cls = i.cls) ↔
        pealLive v ix = true ∧ plKind p = kReact ∧ plTrig p = i.code ∧ (plAllp p = true ∨ plPart p = i.part) ∧
        (plCause p = 0xFF ∨ plCause p = i.cause) ∧ plRLo p ≤ i.layer.toNat ∧ i.layer.toNat ≤ plRHi p ∧
        (plMask p = 0 ∨ i.spire = 0xFFFF ∨ plMask p / 2 ^ stateOf v i.spire % 2 = 1) ∧
        (∃ tl ∈ v.tiles, tl.ix = sp ∧ tl.part = i.part) ∧
        (match plTgt p with
          | 0 => i.spire = sp ∧ sp ≠ 0xFFFF
          | 1 => sp = plIdx p
          | 2 => sp / 256 = plIdx p
          | 3 => True
          | _ => ∃ im set, v.image = some im ∧ im.tileSets[plIdx p]? = some set ∧ ∃ r ∈ set, r.1 ≤ sp ∧ sp ≤ r.2) ∧
        condOk v p i.part (some sp) = true)) ∧
    (∀ (acts : List Act) (a : Act) (sp : Nat), (acts.Pairwise fun a b => a.seq < b.seq) → (∀ b ∈ acts, b.cls ≤ 15) → a ∈ acts → a.tile = some sp →
      let mine := acts.filter fun b => b.tile == some sp
      let sev : Act → Option Nat := fun b => if b.code = 5 ∨ b.code = 0x21 then some 1 else if b.code = 6 then some 0
        else if b.code = 7 then some 2 else if b.code = 8 then some 4 else none
      let stands := (∀ b ∈ mine, a.cls ≤ b.cls)
      ((∃ b ∈ mine, b.cls < a.cls) → fate acts a = .cancelled) ∧
      (stands → ∀ v, sev a = some v →
        ((∃ b ∈ mine, b.cls = a.cls ∧ ∃ x, sev b = some x ∧ v < x) → fate acts a = .cancelled) ∧
        ((∀ b ∈ mine, b.cls = a.cls → ∀ x, sev b = some x → x < v ∨ (x = v ∧ a.seq ≤ b.seq)) → fate acts a = .stands) ∧
        ((∃ b ∈ mine, b.cls = a.cls ∧ b.seq < a.seq ∧ sev b = some v) → a.cmd = none → fate acts a ≠ .stands)) ∧
      (stands → sev a = none → ((∀ b ∈ mine, b.cls = a.cls → b.code = a.code → a.seq ≤ b.seq) → fate acts a = .stands) ∧
        ((∃ b ∈ mine, b.cls = a.cls ∧ b.code = a.code ∧ b.seq < a.seq) → a.cmd = none → fate acts a = .merged)) ∧
      (a.cmd = none → a.code < 0x20 → ∃ b ∈ mine, fate acts b = .stands ∧ (∀ d ∈ mine, b.cls ≤ d.cls) ∧
        ∀ v, cancel acts v a = addRec { v with belfry := { v.belfry with cancelCnt := satInc v.belfry.cancelCnt } }
          ⟨.blfx, v.time.tick, sp, a.part, w3of sp a.part 0,
            [packW [(0, a.peal), (16, a.code)], packW [(0, a.cls), (4, b.cls)], BitVec.ofNat 32 b.peal, 0]⟩)) ∧
    (∀ (acts : List Act) (a : Act), a.tile = none → fate acts a ≠ .cancelled) ∧
    (∀ (v : State) (acts : List Act),
      (resolve ⟨v, acts, []⟩).belfry.cancelCnt = satAdd v.belfry.cancelCnt (acts.filter fun a => fate acts a == .cancelled).length) ∧
    (∀ (c : Bool) (i : Input) (fired : List Item) (ix : Nat) (p : Peal) (tl : Tile), all = .input c i :: fired →
      (∀ x ∈ fired, ∃ d k q, x = .timer d k q ∧ (plAct (pealAt s k) = 4 ∨ plAct (pealAt s k) = 6)) → inSafe s uBlf = false → inSafe s uPart = false →
      s.nvm.repairDue = [] → (s.tiles.map (·.ix)).Nodup → getTile s i.spire = some tl → tl.part = i.part → i.spire ≠ 0xFFFF → i.cls ≤ 7 →
      (allPeals s).filter (fun x => reactMatch u i x.2) = [(ix, p)] → pealLive s ix = true → counting p = false → plTgt p = 0 →
      plCond p = 0 → plNeg p = false →
      ∃ t, exec .belfryTick s = .next t ∧
        (plAct p = 5 → stateOf t i.spire = if tl.state = stHealthy then stWatch else tl.state) ∧
        (plAct p = 7 → stateOf t i.spire = (if tl.state < stFenced then stFenced else tl.state) ∧
          (tl.state < stFenced → ∃ x, getTile t i.spire = some x ∧ ∃ f ∈ x.out.toList ++ x.next, f.op = opFence)) ∧
        (plAct p = 8 → stateOf t i.spire = stDead)) ∧
    (∀ (c : Bool) (ix q sp : Nat) (tl : Tile) (r : RecovParams), .timer c ix q ∈ all → all.length ≤ 256 →
      (∀ x ∈ all, ∃ d k p, x = .timer d k p ∧ (k = ix ∨ plAct (pealAt s k) = 4)) → inSafe s uBlf = false → inSafe s uPart = false →
      s.nvm.repairDue = [] → (s.tiles.map (·.ix)).Nodup → getTile s sp = some tl → tl.part = q → recov s = some r →
      (plTgt (pealAt s ix) = 3 ∨ (plTgt (pealAt s ix) = 1 ∧ plIdx (pealAt s ix) = sp)) → plAct (pealAt s ix) = 6 → plParam (pealAt s ix) % 2 = 0 →
      plCond (pealAt s ix) ≤ 1 → plNeg (pealAt s ix) = false →
      ∃ t, exec .belfryTick s = .next t ∧
        stateOf t sp = if tl.state = stWatch ∧ ∃ w, tl.watch = some w ∧ r.watchMin ≤ u.time.tick.toNat - w.since.toNat ∧ r.watchPass ≤ w.passes ∧
          w.slice = true then stHealthy else tl.state)
end

