-- ==== Sys2Proof/Laws/Memory.lean ====
section
/-! SUPPORT. The memory operations keep the canonical form, and a byte read is the byte last written. -/

set_option Elab.async false

namespace Sys2Proof.Machine

variable {d : Nat → Byte} {m : List Host.Cell} {a : Nat} {b : Byte}

/-- The canonical form, as propositions. -/
theorem memory_wf_cons (c : Host.Cell) :
    Memory.wf d (c :: m) = true ↔ c.2 ≠ d c.1 ∧ (∀ e ∈ m, c.1 < e.1) ∧ Memory.wf d m = true := by
  simp [Memory.wf, and_assoc]

theorem memory_wf_filter (p : Host.Cell → Bool) (h : Memory.wf d m = true) : Memory.wf d (m.filter p) = true := by
  induction m with
  | nil => exact h
  | cons c m ih =>
    rw [memory_wf_cons] at h
    by_cases hc : p c = true
    · rw [List.filter_cons_of_pos hc, memory_wf_cons]
      exact ⟨h.1, fun e he => h.2.1 e (List.mem_filter.1 he).1, ih h.2.2⟩
    · rw [List.filter_cons_of_neg hc]
      exact ih h.2.2

theorem mem_memInsert {e : Host.Cell} (h : e ∈ memInsert m a b) : e = (a, b) ∨ e ∈ m := by
  induction m with
  | nil => simpa [memInsert] using h
  | cons c m ih =>
    simp only [memInsert] at h
    split at h
    · simpa using h
    · split at h
      · rcases List.mem_cons.1 h with h | h
        · exact .inl h
        · exact .inr (List.mem_cons_of_mem _ h)
      · rcases List.mem_cons.1 h with h | h
        · exact .inr (h ▸ List.mem_cons_self)
        · exact (ih h).imp_right (List.mem_cons_of_mem _)

theorem memory_wf_memInsert (hb : b ≠ d a) (h : Memory.wf d m = true) : Memory.wf d (memInsert m a b) = true := by
  induction m with
  | nil => simp [memInsert, Memory.wf, hb]
  | cons c m ih =>
    have hc := (memory_wf_cons c).1 h
    simp only [memInsert]
    split
    · next hlt =>
      rw [memory_wf_cons]
      refine ⟨hb, fun e he => ?_, h⟩
      rcases List.mem_cons.1 he with rfl | he
      · exact hlt
      · exact lt_trans hlt (hc.2.1 e he)
    · split
      · next heq =>
        rw [memory_wf_cons]
        exact ⟨hb, fun e he => by simpa [heq] using hc.2.1 e he, hc.2.2⟩
      · next hge hne =>
        rw [memory_wf_cons]
        refine ⟨hc.1, fun e he => ?_, ih hc.2.2⟩
        rcases mem_memInsert he with rfl | he
        · simp only; omega
        · exact hc.2.1 e he

/-- Every write keeps the canonical form. -/
theorem memory_wf_memPut (h : Memory.wf d m = true) : Memory.wf d (memPut d m a b) = true := by
  unfold memPut
  split
  · exact memory_wf_filter _ h
  · next hb => exact memory_wf_memInsert hb h

theorem memory_wf_memDrop (lo hi : Nat) (h : Memory.wf d m = true) : Memory.wf d (memDrop m lo hi) = true :=
  memory_wf_filter _ h

theorem memGet_of_not_mem (h : ∀ e ∈ m, e.1 ≠ a) : memGet d m a = d a := by
  induction m with
  | nil => rfl
  | cons c m ih =>
    rw [memGet, if_neg (h c List.mem_cons_self)]
    exact ih fun e he => h e (List.mem_cons_of_mem _ he)

theorem memGet_memErase (x : Nat) : memGet d (memErase m a) x = if x = a then d a else memGet d m x := by
  induction m with
  | nil =>
    show d x = _
    split
    · next h => rw [h]
    · rfl
  | cons c m ih =>
    unfold memErase at ih ⊢
    by_cases hc : c.1 = a
    · rw [List.filter_cons_of_neg (by simp [hc]), ih, memGet]
      split
      · rfl
      · next hx => rw [if_neg (by omega)]
    · rw [List.filter_cons_of_pos (by simp [hc]), memGet, memGet, ih]
      split
      · next hx => rw [if_neg (by omega)]
      · rfl

theorem memGet_memInsert (x : Nat) (h : Memory.wf d m = true) :
    memGet d (memInsert m a b) x = if x = a then b else memGet d m x := by
  induction m with
  | nil => simp only [memInsert, memGet]; split <;> split <;> simp_all
  | cons c m ih =>
    have hc := (memory_wf_cons c).1 h
    simp only [memInsert]
    split
    · next hlt =>
      simp only [memGet]
      by_cases hx : x = a
      · rw [if_pos hx.symm, if_pos hx]
      · rw [if_neg (Ne.symm hx), if_neg hx]
    · split
      · next heq =>
        simp only [memGet]
        by_cases hx : x = a
        · rw [if_pos hx.symm, if_pos hx]
        · rw [if_neg (Ne.symm hx), if_neg hx, if_neg (by omega)]
      · next hge hne =>
        simp only [memGet, ih hc.2.2]
        split
        · next hx => rw [if_neg (by omega)]
        · rfl

/-- Reading after a write: the byte written at its address, every other byte as before. -/
theorem memGet_memPut (x : Nat) (h : Memory.wf d m = true) :
    memGet d (memPut d m a b) x = if x = a then b else memGet d m x := by
  unfold memPut
  split
  · next hb => rw [memGet_memErase, hb]
  · exact memGet_memInsert x h

end Sys2Proof.Machine
end

