-- ==== Sys2Proof/Laws/Keeps.lean ====
section
/-! SUPPORT. What every operation keeps: the rules by which it is shown of each. -/

set_option Elab.async false

namespace Sys2Proof.Machine

/-- The parts of the state by which a frame is told: the fields of State, those of the Keep, the Belfry, the Cistern and the time in
groups. -/
inductive Fld where
  | tick | timeRun | time | alert | acc | cmd | mbx | talloc | units | fault | locks | keep | belfryRun | inputs | cad | cmds | belfry |
    bytes | cistern | image | fuses | built | boot | pads | nvm | parts | tiles | spires | domes | ops | opSeq | tickets | samples | engines
    | streams | lastHdr | wkey | hang | tallies | tallyQ | ports | seals | sealMis | sealMatch | launch | attQ | peerRecs | peerTds |
    caravan | records | early | near | far | thermal | erg | mtr | trc | mgmt | csr | cadNack | portViols | big | rng | pending
  deriving DecidableEq, Repr

/-- A part is the same in both states. -/
abbrev Fld.Eq (f : Fld) (s t : State) : Prop :=
  match f with
  | .tick => t.time.tick = s.time.tick
  | .timeRun => t.time.run = s.time.run
  | .time => (t.time.trefOk, t.time.holdover, t.time.trefLost, t.time.ppsOk, t.time.ppsLost, t.time.ppsDrift, t.time.tickslip,
    t.time.ofsdrift, t.time.tsync, t.time.trefDiff, t.time.ppsLast, t.time.ppsPeriod, t.time.ppsSeen, t.time.alignWait, t.time.maxDev,
    t.time.domeSkew, t.time.spireSkew, t.time.domeLat, t.time.spireLat) = (s.time.trefOk, s.time.holdover, s.time.trefLost, s.time.ppsOk,
    s.time.ppsLost, s.time.ppsDrift, s.time.tickslip, s.time.ofsdrift, s.time.tsync, s.time.trefDiff, s.time.ppsLast, s.time.ppsPeriod,
    s.time.ppsSeen, s.time.alignWait, s.time.maxDev, s.time.domeSkew, s.time.spireSkew, s.time.domeLat, s.time.spireLat)
  | .alert => t.keep.alert = s.keep.alert
  | .acc => (t.keep.accstat, t.keep.accCnt, t.keep.accLast) = (s.keep.accstat, s.keep.accCnt, s.keep.accLast)
  | .cmd => t.keep.cmd = s.keep.cmd
  | .mbx => t.keep.mbx = s.keep.mbx
  | .talloc => t.keep.talloc = s.keep.talloc
  | .units => (t.keep.unitEn, t.keep.unitHeld, t.keep.unitOff, t.keep.safe, t.keep.cfgpar) = (s.keep.unitEn, s.keep.unitHeld,
    s.keep.unitOff, s.keep.safe, s.keep.cfgpar)
  | .fault => (t.keep.dieFault, t.keep.fault) = (s.keep.dieFault, s.keep.fault)
  | .locks => (t.keep.lock, t.keep.locked, t.keep.hosttag, t.keep.hosttagLocked) = (s.keep.lock, s.keep.locked, s.keep.hosttag,
    s.keep.hosttagLocked)
  | .keep => (t.keep.clkloss, t.keep.lostNow, t.keep.badPar, t.keep.kwr, t.keep.kwrTicks, t.keep.kwrCause, t.keep.draining,
    t.keep.drainLost, t.keep.lostSamples, t.keep.kwrDown, t.keep.readback, t.keep.shutdown) = (s.keep.clkloss, s.keep.lostNow,
    s.keep.badPar, s.keep.kwr, s.keep.kwrTicks, s.keep.kwrCause, s.keep.draining, s.keep.drainLost, s.keep.lostSamples, s.keep.kwrDown,
    s.keep.readback, s.keep.shutdown)
  | .belfryRun => t.belfry.run = s.belfry.run
  | .inputs => (t.belfry.inputs, t.belfry.carriedIn) = (s.belfry.inputs, s.belfry.carriedIn)
  | .cad => t.belfry.cadFifo = s.belfry.cadFifo
  | .cmds => t.belfry.cmds = s.belfry.cmds
  | .belfry => (t.belfry.carried, t.belfry.lastInputs, t.belfry.cancelCnt, t.belfry.carryCnt, t.belfry.tickslipCnt, t.belfry.missCnt,
    t.belfry.ofsdriftCnt, t.belfry.cadCarry, t.belfry.cmdCarry, t.belfry.wcSets, t.belfry.wcCarry, t.belfry.timers, t.belfry.timersNow,
    t.belfry.disarmed, t.belfry.counts, t.belfry.tick) = (s.belfry.carried, s.belfry.lastInputs, s.belfry.cancelCnt, s.belfry.carryCnt,
    s.belfry.tickslipCnt, s.belfry.missCnt, s.belfry.ofsdriftCnt, s.belfry.cadCarry, s.belfry.cmdCarry, s.belfry.wcSets, s.belfry.wcCarry,
    s.belfry.timers, s.belfry.timersNow, s.belfry.disarmed, s.belfry.counts, s.belfry.tick)
  | .bytes => (t.cistern.data, t.cistern.check) = (s.cistern.data, s.cistern.check)
  | .cistern => (t.cistern.filled, t.cistern.execBank, t.cistern.readBank, t.cistern.mirrorOk, t.cistern.ueSeen, t.cistern.unwrSeen,
    t.cistern.ceCnt, t.cistern.ueCnt, t.cistern.unwrCnt, t.cistern.scrubPass, t.cistern.scrubSuper, t.cistern.recDrop, t.cistern.wrstLost,
    t.cistern.banks, t.cistern.bcmd, t.cistern.scrubPos, t.cistern.scrubQ, t.cistern.superseded, t.cistern.testBank, t.cistern.found,
    t.cistern.linesRead, t.cistern.linesWritten, t.cistern.siroccoLines, t.cistern.last) = (s.cistern.filled, s.cistern.execBank,
    s.cistern.readBank, s.cistern.mirrorOk, s.cistern.ueSeen, s.cistern.unwrSeen, s.cistern.ceCnt, s.cistern.ueCnt, s.cistern.unwrCnt,
    s.cistern.scrubPass, s.cistern.scrubSuper, s.cistern.recDrop, s.cistern.wrstLost, s.cistern.banks, s.cistern.bcmd, s.cistern.scrubPos,
    s.cistern.scrubQ, s.cistern.superseded, s.cistern.testBank, s.cistern.found, s.cistern.linesRead, s.cistern.linesWritten,
    s.cistern.siroccoLines, s.cistern.last)
  | .image => (t.image, t.imageHash, t.imageSeq, t.imageBuild, t.imageFlags, t.imageKey, t.imageSvn) = (s.image, s.imageHash, s.imageSeq,
    s.imageBuild, s.imageFlags, s.imageKey, s.imageSvn)
  | .fuses => t.fuses = s.fuses
  | .built => t.built = s.built
  | .boot => t.boot = s.boot
  | .pads => t.pads = s.pads
  | .nvm => t.nvm = s.nvm
  | .parts => t.parts = s.parts
  | .tiles => t.tiles = s.tiles
  | .spires => t.spires = s.spires
  | .domes => t.domes = s.domes
  | .ops => t.ops = s.ops
  | .opSeq => t.opSeq = s.opSeq
  | .tickets => t.tickets = s.tickets
  | .samples => t.samples = s.samples
  | .engines => t.engines = s.engines
  | .streams => t.streams = s.streams
  | .lastHdr => t.lastHdr = s.lastHdr
  | .wkey => t.wkey = s.wkey
  | .hang => t.hang = s.hang
  | .tallies => t.tallies = s.tallies
  | .tallyQ => t.tallyQ = s.tallyQ
  | .ports => t.ports = s.ports
  | .seals => t.seals = s.seals
  | .sealMis => t.sealMis = s.sealMis
  | .sealMatch => t.sealMatch = s.sealMatch
  | .launch => t.launch = s.launch
  | .attQ => t.attQ = s.attQ
  | .peerRecs => t.peerRecs = s.peerRecs
  | .peerTds => t.peerTds = s.peerTds
  | .caravan => t.caravan = s.caravan
  | .records => t.records = s.records
  | .early => t.early = s.early
  | .near => t.near = s.near
  | .far => t.far = s.far
  | .thermal => t.thermal = s.thermal
  | .erg => t.erg = s.erg
  | .mtr => t.mtr = s.mtr
  | .trc => t.trc = s.trc
  | .mgmt => t.mgmt = s.mgmt
  | .csr => t.csr = s.csr
  | .cadNack => t.cadNack = s.cadNack
  | .portViols => t.portViols = s.portViols
  | .big => t.big = s.big
  | .rng => t.rng = s.rng
  | .pending => t.pending = s.pending

/-- Nothing changes but the parts that `m` lists. -/
def Same (m : List Fld) (s t : State) : Prop := ∀ f, f ∉ m → f.Eq s t

theorem Same.rfl_ (m : List Fld) (s : State) : Same m s s := by
  intro f _
  cases f <;> rfl

theorem Same.trans {m : List Fld} {s t u : State} (h : Same m s t) (g : Same m t u) : Same m s u := by
  intro f hf
  have a := h f hf
  have b := g f hf
  cases f <;> exact b.trans a

theorem sub_ {k l m : List Fld} (h : l ⊆ m) (d : k ⊆ l) : k ⊆ m := List.Subset.trans d h

theorem Fld.out {l m : List Fld} {f : Fld} (hm : l ⊆ m) (hf : f ∉ m) (h : f ∈ l) : False := hf (hm h)

/-- R225: what a tile may become by any command but cold reset: a DEAD tile stays DEAD, a RETIRED one stays RETIRED or becomes DEAD. -/
def Tile.Stays (x y : Tile) : Prop :=
  y.ix = x.ix ∧ (x.state = stDead → y.state = stDead) ∧ (x.state = stRetired → y.state = stRetired ∨ y.state = stDead)

/-- What every command but a cold reset keeps: all but the parts that `m` lists; the queue; the fixed numbers; the form of the Cistern's memories; what lasts in the
Keep; the thermal latch (R455); the Belfry stopped by DIE_FAULT (R274); a bring-up that failed (R424); the image that is loaded
(R414) that the fuses were read, and every blown fuse (R402, R413); RETIRED and DEAD tiles (R225). The numbers of operations and of the draws of free values only go
on, so that none is used twice. -/
structure Keeps (m : List Fld) (s t : State) : Prop where
  same : Same m s t
  pending : t.pending = s.pending
  sized : s.Sized → t.Sized
  cistern : s.CisternWf → t.CisternWf
  keep : s.keep.Lasts t.keep
  latch : s.pads.thermtrip = true → t.pads.thermtrip = true
  stopped : s.keep.dieFault = true → s.belfry.run = false → t.belfry.run = false
  failed : s.boot.step = 7 → s.pads.coldReset = false → t.boot.step = 7 ∧ t.pads.coldReset = false
  image : s.image ≠ none → t.image = s.image
  fuses : (s.boot.readOk = true → t.boot.readOk = true) ∧ FuseGrows s.fuses t.fuses
  tiles : s.image ≠ none → (s.tiles.map (·.ix)).Nodup → List.Forall₂ Tile.Stays s.tiles t.tiles
  opSeq : s.opSeq ≤ t.opSeq
  rng : s.rng ≤ t.rng

variable {m : List Fld} {s t u : State}

theorem KeepSt.Lasts.rfl_ (k : KeepSt) : k.Lasts k :=
  ⟨rfl, rfl, rfl, id, id, id, fun _ h => h, id, fun _ => rfl, fun _ h => h, fun _ _ => rfl⟩

theorem KeepSt.Lasts.trans {k l m : KeepSt} (h : k.Lasts l) (g : l.Lasts m) : k.Lasts m where
  mbx := g.mbx.trans h.mbx
  talloc := g.talloc.trans h.talloc
  cmd := g.cmd.trans h.cmd
  fault := g.fault ∘ h.fault
  dieFault := g.dieFault ∘ h.dieFault
  shutdown := g.shutdown ∘ h.shutdown
  held u hu := g.held u (h.held u hu)
  tagLocked := g.tagLocked ∘ h.tagLocked
  hosttag hl := (g.hosttag (h.tagLocked hl)).trans (h.hosttag hl)
  locked b hb := g.locked b (h.locked b hb)
  lock b hb := (g.lock b (h.locked b hb)).trans (h.lock b hb)

theorem Tile.Stays.rfl_ (x : Tile) : x.Stays x := ⟨rfl, id, .inl⟩

theorem Tile.Stays.trans {x y z : Tile} (h : x.Stays y) (g : y.Stays z) : x.Stays z :=
  ⟨g.1.trans h.1, g.2.1 ∘ h.2.1, fun hx => (h.2.2 hx).elim g.2.2 fun hy => .inr (g.2.1 hy)⟩

/-- An update of a tile that leaves its index and its state. -/
theorem Tile.Stays.of_eq {x y : Tile} (hi : y.ix = x.ix) (hs : y.state = x.state) : x.Stays y :=
  ⟨hi, fun h => hs.trans h, fun h => .inl (hs.trans h)⟩

theorem stays_refl (l : List Tile) : List.Forall₂ Tile.Stays l l := by
  induction l with
  | nil => exact .nil
  | cons x l ih => exact .cons (Tile.Stays.rfl_ x) ih

theorem stays_ix {l m : List Tile} (h : List.Forall₂ Tile.Stays l m) : m.map (·.ix) = l.map (·.ix) := by
  induction h with
  | nil => rfl
  | cons h _ ih => simp only [List.map_cons, h.1, ih]

theorem stays_trans {l m n : List Tile} (h : List.Forall₂ Tile.Stays l m) (g : List.Forall₂ Tile.Stays m n) : List.Forall₂ Tile.Stays l n := by
  induction h generalizing n with
  | nil => exact g
  | cons h _ ih =>
    cases g with
    | cons g gs => exact .cons (h.trans g) (ih gs)

theorem stays_map {f : Tile → Tile} (l : List Tile) (hf : ∀ x ∈ l, x.Stays (f x)) : List.Forall₂ Tile.Stays l (l.map f) := by
  induction l with
  | nil => exact .nil
  | cons x l ih => exact .cons (hf x (.head _)) (ih fun y hy => hf y (.tail _ hy))

theorem length_orWords {w : Nat} (l m : List (BitVec w)) : (orWords l m).length = max l.length m.length := by simp [orWords]

theorem getD_orWords {w : Nat} (l m : List (BitVec w)) (i : Nat) : (orWords l m).getD i 0 = l.getD i 0 ||| m.getD i 0 := by
  by_cases h : i < max l.length m.length
  · simp [orWords, List.getD_eq_getElem?_getD, h]
  · have hl : l.getD i 0 = 0 := by rw [List.getD_eq_default]; omega
    have hm : m.getD i 0 = 0 := by rw [List.getD_eq_default]; omega
    rw [List.getD_eq_default _ _ (by rw [length_orWords]; omega), hl, hm]; simp

theorem words_ext {w : Nat} {l m : List (BitVec w)} (hl : l.length = m.length) (h : ∀ i, l.getD i 0 = m.getD i 0) : l = m := by
  refine List.ext_getElem hl fun i hi hj => ?_
  have := h i
  simpa [List.getD_eq_getElem?_getD, hi, hj] using this

theorem orWords_assoc {w : Nat} (l m n : List (BitVec w)) : orWords (orWords l m) n = orWords l (orWords m n) :=
  words_ext (by simp only [length_orWords]; omega) fun i => by simp only [getD_orWords, BitVec.or_assoc]

theorem orWords_self {w : Nat} (l : List (BitVec w)) : orWords l l = l :=
  words_ext (by simp [length_orWords]) fun i => by rw [getD_orWords, BitVec.or_self]

theorem fuseOr_self (f : FuseArray) : fuseOr f f = f := by simp [fuseOr, orWords_self]

theorem fuseOr_assoc (f g h : FuseArray) : fuseOr (fuseOr f g) h = fuseOr f (fuseOr g h) := by
  simp [fuseOr, orWords_assoc, BitVec.or_assoc, Bool.or_assoc]

theorem FuseGrows.rfl_ (f : FuseArray) : FuseGrows f f := fuseOr_self f

theorem FuseGrows.trans {f g h : FuseArray} (a : FuseGrows f g) (b : FuseGrows g h) : FuseGrows f h := by
  unfold FuseGrows at a b ⊢
  rw [← b, ← fuseOr_assoc, a]

theorem FuseGrows.or_ (f g : FuseArray) : FuseGrows f (fuseOr f g) := by
  unfold FuseGrows
  rw [← fuseOr_assoc, fuseOr_self]

theorem Keeps.rfl_ (m : List Fld) (s : State) : Keeps m s s :=
  ⟨Same.rfl_ _ _, rfl, id, id, KeepSt.Lasts.rfl_ _, id, fun _ h => h, fun a b => ⟨a, b⟩, fun _ => rfl, ⟨id, .rfl_ _⟩, fun _ _ => stays_refl _,
    le_refl _, le_refl _⟩

theorem Keeps.trans (h : Keeps m s t) (g : Keeps m t u) : Keeps m s u where
  same := h.same.trans g.same
  pending := g.pending.trans h.pending
  sized := g.sized ∘ h.sized
  cistern := g.cistern ∘ h.cistern
  keep := h.keep.trans g.keep
  latch := g.latch ∘ h.latch
  stopped hd hr := g.stopped (h.keep.dieFault hd) (h.stopped hd hr)
  failed a b := g.failed (h.failed a b).1 (h.failed a b).2
  image hi := (g.image (h.image hi ▸ hi)).trans (h.image hi)
  fuses := ⟨g.fuses.1 ∘ h.fuses.1, h.fuses.2.trans g.fuses.2⟩
  tiles hi hn := stays_trans (h.tiles hi hn) (g.tiles (h.image hi ▸ hi) (stays_ix (h.tiles hi hn) ▸ hn))
  opSeq := le_trans h.opSeq g.opSeq
  rng := le_trans h.rng g.rng

theorem length_updAt {α : Type} (l : List α) (i : Nat) (f : α → α) : (updAt l i f).length = l.length := by simp [updAt]

/-- An update that touches little of what Keeps speaks of, as it is written: the new state field by field. -/
theorem keeps_mk
    {time0 : TimeSt} {keep0 : KeepSt} {belfry0 : Belfry} {fuses0 : FuseArray} {built0 : Built} {boot0 : Boot} {pads0 : Pads} {image0 :
    Option Image} {imageHash0 : List Byte} {imageSeq0 : W64} {imageBuild0 : W64} {imageFlags0 : Byte} {imageKey0 : Nat}
    {imageSvn0 : Nat} {nvm0 : Nvm} {parts0 : List Part} {tiles0 : List Tile} {spires0 : List Spire} {domes0 : List Dome}
    {ops0 : List OpV} {opSeq0 : Nat} {tickets0 : List Ticket} {samples0 : List Sample} {engines0 : List Engine}
    {streams0 : List WStream} {lastHdr0 : List (Nat × W16)} {wkey0 : Option Nat} {hang0 : HangSt} {tallies0 : List (Nat
    × Tally)} {tallyQ0 : List (Nat × Nat)} {ports0 : List Port} {seals0 : List SealEnt} {sealMis0 : List (Nat × W64)} {sealMatch0 : W64}
    {launch0 : LaunchSt} {attQ0 : List AttJob} {peerRecs0 : List PeerRec} {peerTds0 : List PeerTds} {caravan0 : Caravan} {cistern0 :
    Cistern} {records0 : List Rec} {early0 : List Rec} {near0 : MemPort} {far0 : MemPort} {thermal0 : Thermal} {erg0 :
    Erg} {mtr0 : Mtr} {trc0 : Trc} {mgmt0 : Mgmt} {csr0 : CsrRsp} {cadNack0 : Bool} {portViols0 : List (Nat × W32)} {big0 : List (Nat × List W64)} {rng0
    : Nat} {pending0 : List Instr}
    (h : Keeps m s u) (hq : pending0 = u.pending) (hp : parts0.length = u.parts.length := by first | with_reducible rfl | simp only [List.length_map, List.length_zipIdx, length_updAt])
    (he : engines0.length = u.engines.length := by first | with_reducible rfl | simp only [List.length_map, List.length_zipIdx, length_updAt]) (ho : ports0.length = u.ports.length := by first | with_reducible rfl | simp only [List.length_map, List.length_zipIdx, length_updAt])
    (hb : cistern0.banks.length = u.cistern.banks.length := by first | with_reducible rfl | simp only [List.length_map, List.length_zipIdx, length_updAt]) (hd : cistern0.data = u.cistern.data := by with_reducible rfl)
    (hc : cistern0.check = u.cistern.check := by with_reducible rfl)
    (hk : u.keep.Lasts keep0 := by first
      | exact KeepSt.Lasts.rfl_ _
      | (refine ⟨?_, ?_, ?_, ?_, ?_, ?_, ?_, ?_, ?_, ?_, ?_⟩ <;> first
          | with_reducible rfl
          | exact id
          | exact fun _ h => h
          | exact fun _ => rfl
          | exact fun _ _ => rfl
          | simp only [List.length_map, List.length_zipIdx, length_updAt]))
    (hl : u.pads.thermtrip = true → pads0.thermtrip = true := by first | exact id | exact fun _ => rfl)
    (hs : u.keep.dieFault = true → u.belfry.run = false → belfry0.run = false := by first | exact fun _ hr => hr | exact fun _ _ => rfl)
    (hn : u.opSeq ≤ opSeq0 := by first | exact Nat.le_refl _ | exact Nat.le_add_right _ _)
    (hr : u.rng ≤ rng0 := by first | exact Nat.le_refl _ | exact Nat.le_add_right _ _)
    (hf : s.boot.step = 7 → s.pads.coldReset = false → u.boot.step = 7 ∧ u.pads.coldReset = false →
      boot0.step = 7 ∧ pads0.coldReset = false := by exact fun _ _ a => a)
    (hi : u.image ≠ none → image0 = u.image := by exact fun _ => rfl)
    (hz : (u.boot.readOk = true → boot0.readOk = true) ∧ FuseGrows u.fuses fuses0 := by exact ⟨id, FuseGrows.rfl_ _⟩)
    (ht : s.image ≠ none → (u.tiles.map (·.ix)).Nodup → List.Forall₂ Tile.Stays u.tiles tiles0 := by first
      | with_reducible exact fun _ _ => stays_refl _
      | exact fun _ _ => stays_map _ fun _ _ => Tile.Stays.of_eq rfl rfl
      | (intro _ _; refine stays_map _ fun _ _ => ?_; split <;> exact Tile.Stays.of_eq rfl rfl))
    (hsame : ∀ f : Fld, f ∉ m → f.Eq u
        ⟨time0, keep0, belfry0, fuses0, built0, boot0, pads0, image0, imageHash0, imageSeq0, imageBuild0, imageFlags0, imageKey0, imageSvn0, nvm0,
        parts0, tiles0, spires0, domes0, ops0, opSeq0, tickets0, samples0, engines0, streams0, lastHdr0, wkey0, hang0, tallies0, tallyQ0,
        ports0, seals0, sealMis0, sealMatch0, launch0, attQ0, peerRecs0, peerTds0, caravan0, cistern0, records0, early0, near0, far0,
        thermal0, erg0, mtr0, trc0, mgmt0, csr0, cadNack0, portViols0, big0, rng0, pending0⟩ := by
      intro f hf; cases f <;> first | rfl | exact (Fld.out (by assumption) hf (by decide)).elim) :
    Keeps m s ⟨time0, keep0, belfry0, fuses0, built0, boot0, pads0, image0, imageHash0, imageSeq0, imageBuild0, imageFlags0,
      imageKey0, imageSvn0, nvm0, parts0, tiles0, spires0, domes0, ops0, opSeq0, tickets0, samples0, engines0,
      streams0, lastHdr0, wkey0, hang0, tallies0, tallyQ0, ports0, seals0, sealMis0, sealMatch0, launch0, attQ0,
      peerRecs0, peerTds0, caravan0, cistern0, records0, early0, near0, far0, thermal0, erg0, mtr0, trc0, mgmt0, csr0,
      cadNack0, portViols0, big0, rng0, pending0⟩ :=
  { same := h.same.trans hsame
    pending := hq.trans h.pending
    sized := fun z => (fun z : u.Sized => ⟨hp.trans z.parts, he.trans z.engines, ho.trans z.ports, hb.trans z.banks, hk.mbx.trans z.mbx,
      hk.talloc.trans z.talloc, hk.cmd.trans z.cmd⟩) (h.sized z)
    cistern := fun z => (fun z : u.CisternWf => ⟨hd ▸ z.data, hc ▸ z.check⟩) (h.cistern z)
    keep := h.keep.trans hk
    latch := hl ∘ h.latch
    stopped := fun a b => hs (h.keep.dieFault a) (h.stopped a b)
    failed := fun a b => hf a b (h.failed a b)
    image := fun a => (hi (h.image a ▸ a)).trans (h.image a)
    fuses := ⟨hz.1 ∘ h.fuses.1, h.fuses.2.trans hz.2⟩
    tiles := fun a b => stays_trans (h.tiles a b) (ht a (stays_ix (h.tiles a b) ▸ b))
    opSeq := le_trans h.opSeq hn
    rng := le_trans h.rng hr }

/-- An update of the Keep alone. -/
theorem keeps_keep {k : KeepSt} (h : Keeps m s u) (hk : u.keep.Lasts k)
    (hsame : ∀ f : Fld, f ∉ m → f.Eq u { u with keep := k } := by
      intro f hf; cases f <;> first | rfl | exact (Fld.out (by assumption) hf (by decide)).elim) : Keeps m s { u with keep := k } :=
  keeps_mk h rfl (hk := hk) (hsame := hsame)

theorem keeps_foldl {α : Type} {f : State → α → State} {l : List α} (hf : ∀ v a, Keeps m s v → Keeps m s (f v a)) (h : Keeps m s u) :
    Keeps m s (l.foldl f u) := by
  induction l generalizing u with
  | nil => exact h
  | cons a l ih => exact ih (hf u a h)

theorem keeps_ite_left {c : Prop} [Decidable c] (ha : Keeps m s u → Keeps m s t) (h : Keeps m s u) : Keeps m s (if c then t else u) := by
  split
  · exact ha h
  · exact h

theorem keeps_ite_right {c : Prop} [Decidable c] (ha : Keeps m s u → Keeps m s t) (h : Keeps m s u) : Keeps m s (if c then u else t) := by
  split
  · exact h
  · exact ha h

end Sys2Proof.Machine
end

