-- ==== Sys2Proof/Laws/KeepsOps.lean ====
section
/-! SUPPORT. What each operation of Machine/Ops.lean keeps. -/

set_option Elab.async false

namespace Sys2Proof.Machine

variable {m : List Fld} {s u : State}

theorem updSp_keeps (a1 : Nat) (a2 : Spire → Spire) (h : Keeps m s u) (hm : [.spires] ⊆ m := by exact sub_ (by assumption) (by decide)) : Keeps m s (updSp u a1 a2) := by
  unfold updSp
  repeat' first
    | exact sub_ hm (by decide)
    | with_reducible assumption
    | with_reducible refine keeps_foldl ?_ ?_
    | with_reducible refine keeps_ite_left ?_ ?_
    | intro _
    | split
    | with_reducible refine keeps_mk ?_ rfl

theorem onSp_keeps (a1 : Nat) (g : Spire → State) (hg : ∀ x, Keeps m s (g x)) (h : Keeps m s u) (hm : [] ⊆ m := by exact sub_ (by assumption) (by decide)) : Keeps m s (onSp u a1 g) := by
  unfold onSp
  repeat' first
    | exact sub_ hm (by decide)
    | with_reducible assumption
    | with_reducible apply hg
    | with_reducible refine keeps_foldl ?_ ?_
    | with_reducible refine keeps_ite_left ?_ ?_
    | intro _
    | split

theorem updTile_keeps (i : Nat) (f : Tile → Tile) (hf : ∀ x : Tile, x.Stays (f x)) (h : Keeps m s u) (hm : [.tiles] ⊆ m := by exact sub_ (by assumption) (by decide)) : Keeps m s (updTile u i f) := by
  refine keeps_mk h rfl (ht := fun _ _ => stays_map _ fun x _ => ?_)
  split
  · exact hf x
  · exact Tile.Stays.rfl_ x

theorem onTile_keeps (a1 : Nat) (g : Tile → State) (hg : ∀ x, Keeps m s (g x)) (h : Keeps m s u) (hm : [] ⊆ m := by exact sub_ (by assumption) (by decide)) : Keeps m s (onTile u a1 g) := by
  unfold onTile
  repeat' first
    | exact sub_ hm (by decide)
    | with_reducible assumption
    | with_reducible apply hg
    | with_reducible refine keeps_foldl ?_ ?_
    | with_reducible refine keeps_ite_left ?_ ?_
    | intro _
    | split

theorem updDome_keeps (a1 : Nat) (a2 : Dome → Dome) (h : Keeps m s u) (hm : [.domes] ⊆ m := by exact sub_ (by assumption) (by decide)) : Keeps m s (updDome u a1 a2) := by
  unfold updDome
  repeat' first
    | exact sub_ hm (by decide)
    | with_reducible assumption
    | with_reducible refine keeps_foldl ?_ ?_
    | with_reducible refine keeps_ite_left ?_ ?_
    | intro _
    | split
    | with_reducible refine keeps_mk ?_ rfl

theorem updPart_keeps (a1 : Nat) (a2 : Part → Part) (h : Keeps m s u) (hm : [.parts] ⊆ m := by exact sub_ (by assumption) (by decide)) : Keeps m s (updPart u a1 a2) := by
  unfold updPart
  repeat' first
    | exact sub_ hm (by decide)
    | with_reducible assumption
    | with_reducible refine keeps_foldl ?_ ?_
    | with_reducible refine keeps_ite_left ?_ ?_
    | intro _
    | split
    | with_reducible refine keeps_mk ?_ rfl

theorem updEng_keeps (a1 : Nat) (a2 : Engine → Engine) (h : Keeps m s u) (hm : [.engines] ⊆ m := by exact sub_ (by assumption) (by decide)) : Keeps m s (updEng u a1 a2) := by
  unfold updEng
  repeat' first
    | exact sub_ hm (by decide)
    | with_reducible assumption
    | with_reducible refine keeps_foldl ?_ ?_
    | with_reducible refine keeps_ite_left ?_ ?_
    | intro _
    | split
    | with_reducible refine keeps_mk ?_ rfl

theorem updPort_keeps (a1 : Nat) (a2 : Port → Port) (h : Keeps m s u) (hm : [.ports] ⊆ m := by exact sub_ (by assumption) (by decide)) : Keeps m s (updPort u a1 a2) := by
  unfold updPort
  repeat' first
    | exact sub_ hm (by decide)
    | with_reducible assumption
    | with_reducible refine keeps_foldl ?_ ?_
    | with_reducible refine keeps_ite_left ?_ ?_
    | intro _
    | split
    | with_reducible refine keeps_mk ?_ rfl

theorem stepBegins_keeps (a1 : Nat) (hn : u.boot.step ≠ 7 ∨ u.pads.coldReset = true) (h : Keeps m s u) (hm : [.boot] ⊆ m := by exact sub_ (by assumption) (by decide)) :
    Keeps m s (stepBegins u a1) := by
  unfold stepBegins
  refine keeps_mk h rfl (hf := fun _ _ a => ?_)
  rcases hn with hn | hn
  · exact absurd a.1 hn
  · simp [hn] at a

theorem draw_keeps (h : Keeps m s u) (hm : [.rng] ⊆ m := by exact sub_ (by assumption) (by decide)) : Keeps m s (draw u).2 := by
  unfold draw
  repeat' first
    | exact sub_ hm (by decide)
    | with_reducible assumption
    | with_reducible refine keeps_foldl ?_ ?_
    | with_reducible refine keeps_ite_left ?_ ?_
    | intro _
    | split
    | with_reducible refine keeps_mk ?_ rfl

theorem alert_keeps (a1 : Nat) (h : Keeps m s u) (hm : [.alert] ⊆ m := by exact sub_ (by assumption) (by decide)) : Keeps m s (alert u a1) := by
  unfold alert
  repeat' first
    | exact sub_ hm (by decide)
    | with_reducible assumption
    | with_reducible refine keeps_foldl ?_ ?_
    | with_reducible refine keeps_ite_left ?_ ?_
    | intro _
    | split
    | with_reducible refine keeps_mk ?_ rfl

theorem spCount_keeps (a1 a2 a3 : Nat) (h : Keeps m s u) (hm : [.spires] ⊆ m := by exact sub_ (by assumption) (by decide)) : Keeps m s (spCount u a1 a2 a3) := by
  unfold spCount
  repeat' first
    | exact sub_ hm (by decide)
    | with_reducible assumption
    | with_reducible apply updSp_keeps
    | with_reducible refine keeps_foldl ?_ ?_
    | with_reducible refine keeps_ite_left ?_ ?_
    | intro _

theorem updCnt_keeps (a1 : Nat) (a2 : PartCnt → PartCnt) (h : Keeps m s u) (hm : [.parts] ⊆ m := by exact sub_ (by assumption) (by decide)) : Keeps m s (updCnt u a1 a2) := by
  unfold updCnt
  repeat' first
    | exact sub_ hm (by decide)
    | with_reducible assumption
    | with_reducible apply updPart_keeps

theorem addDeficit_keeps (a1 a2 : Nat) (h : Keeps m s u) (hm : [.parts] ⊆ m := by exact sub_ (by assumption) (by decide)) : Keeps m s (addDeficit u a1 a2) := by
  unfold addDeficit
  repeat' first
    | exact sub_ hm (by decide)
    | with_reducible assumption
    | with_reducible apply updCnt_keeps

theorem addRpl_keeps (a1 a2 a3 : Nat) (h : Keeps m s u) (hm : [.parts] ⊆ m := by exact sub_ (by assumption) (by decide)) : Keeps m s (addRpl u a1 a2 a3) := by
  unfold addRpl
  repeat' first
    | exact sub_ hm (by decide)
    | with_reducible assumption
    | with_reducible apply updCnt_keeps

theorem addMeter_keeps (a1 a2 a3 : Nat) (h : Keeps m s u) (hm : [.parts] ⊆ m := by exact sub_ (by assumption) (by decide)) : Keeps m s (addMeter u a1 a2 a3) := by
  unfold addMeter
  repeat' first
    | exact sub_ hm (by decide)
    | with_reducible assumption
    | with_reducible apply updCnt_keeps

theorem addBig_keeps (a1 a2 a3 : Nat) (h : Keeps m s u) (hm : [.big] ⊆ m := by exact sub_ (by assumption) (by decide)) : Keeps m s (addBig u a1 a2 a3) := by
  unfold addBig
  repeat' first
    | exact sub_ hm (by decide)
    | with_reducible assumption
    | with_reducible refine keeps_foldl ?_ ?_
    | with_reducible refine keeps_ite_left ?_ ?_
    | intro _
    | split
    | with_reducible refine keeps_mk ?_ rfl

theorem addBigSp_keeps (a1 a2 a3 : Nat) (h : Keeps m s u) (hm : [.spires] ⊆ m := by exact sub_ (by assumption) (by decide)) : Keeps m s (addBigSp u a1 a2 a3) := by
  unfold addBigSp
  repeat' first
    | exact sub_ hm (by decide)
    | with_reducible assumption
    | with_reducible apply updSp_keeps
    | with_reducible refine keeps_foldl ?_ ?_
    | with_reducible refine keeps_ite_left ?_ ?_
    | intro _

theorem uplink_keeps (a1 a2 : Nat) (h : Keeps m s u) (hm : [.spires] ⊆ m := by exact sub_ (by assumption) (by decide)) : Keeps m s (uplink u a1 a2) := by
  unfold uplink
  repeat' first
    | exact sub_ hm (by decide)
    | with_reducible assumption
    | with_reducible apply addBigSp_keeps

theorem bigDome_keeps (a1 a2 a3 : Nat) (h : Keeps m s u) (hm : [.domes] ⊆ m := by exact sub_ (by assumption) (by decide)) : Keeps m s (bigDome u a1 a2 a3) := by
  unfold bigDome
  repeat' first
    | exact sub_ hm (by decide)
    | with_reducible assumption
    | with_reducible apply updDome_keeps
    | with_reducible refine keeps_foldl ?_ ?_
    | with_reducible refine keeps_ite_left ?_ ?_
    | intro _

theorem cycles_keeps (h : Keeps m s u) (hm : [.rng] ⊆ m := by exact sub_ (by assumption) (by decide)) : Keeps m s (cycles u).2 := by
  unfold cycles
  repeat' first
    | exact sub_ hm (by decide)
    | with_reducible assumption
    | with_reducible refine keeps_foldl ?_ ?_
    | with_reducible refine keeps_ite_left ?_ ?_
    | intro _
    | split
    | with_reducible refine keeps_mk ?_ rfl

theorem addUse_keeps (a1 a2 : Nat) (h : Keeps m s u) (hm : [.parts] ⊆ m := by exact sub_ (by assumption) (by decide)) : Keeps m s (addUse u a1 a2) := by
  unfold addUse
  repeat' first
    | exact sub_ hm (by decide)
    | with_reducible assumption
    | with_reducible apply updCnt_keeps

theorem subUse_keeps (a1 a2 : Nat) (h : Keeps m s u) (hm : [.parts] ⊆ m := by exact sub_ (by assumption) (by decide)) : Keeps m s (subUse u a1 a2) := by
  unfold subUse
  repeat' first
    | exact sub_ hm (by decide)
    | with_reducible assumption
    | with_reducible apply updCnt_keeps

theorem refuseQuota_keeps (a1 : Nat) (h : Keeps m s u) (hm : [.parts] ⊆ m := by exact sub_ (by assumption) (by decide)) : Keeps m s (refuseQuota u a1) := by
  unfold refuseQuota
  repeat' first
    | exact sub_ hm (by decide)
    | with_reducible assumption
    | with_reducible apply updCnt_keeps

theorem nearPush_keeps (a1 : NearItem) (h : Keeps m s u) (hm : [.near] ⊆ m := by exact sub_ (by assumption) (by decide)) : Keeps m s (nearPush u a1) := by
  unfold nearPush
  repeat' first
    | exact sub_ hm (by decide)
    | with_reducible assumption
    | with_reducible refine keeps_foldl ?_ ?_
    | with_reducible refine keeps_ite_left ?_ ?_
    | intro _
    | split
    | with_reducible refine keeps_mk ?_ rfl

theorem addRec_keeps (a1 : Rec) (h : Keeps m s u) (hm : [.alert, .cistern, .parts, .records, .early, .near] ⊆ m := by exact sub_ (by assumption) (by decide)) : Keeps m s (addRec u a1) := by
  unfold addRec
  repeat' first
    | exact sub_ hm (by decide)
    | with_reducible assumption
    | with_reducible apply nearPush_keeps
    | with_reducible apply addUse_keeps
    | with_reducible apply refuseQuota_keeps
    | with_reducible apply alert_keeps
    | with_reducible refine keeps_foldl ?_ ?_
    | with_reducible refine keeps_ite_left ?_ ?_
    | intro _
    | split
    | with_reducible refine keeps_mk ?_ rfl

theorem post_keeps (a1 : Nat) (a2 : NoteKind) (a3 : Nat) (a4 : List W32) (h : Keeps m s u) (hm : [.parts, .near] ⊆ m := by exact sub_ (by assumption) (by decide)) : Keeps m s (post u a1 a2 a3 a4) := by
  unfold post
  repeat' first
    | exact sub_ hm (by decide)
    | with_reducible assumption
    | with_reducible apply updPart_keeps
    | with_reducible apply nearPush_keeps

theorem postAll_keeps (a1 : NoteKind) (a2 : List W32) (h : Keeps m s u) (hm : [.parts, .near] ⊆ m := by exact sub_ (by assumption) (by decide)) : Keeps m s (postAll u a1 a2) := by
  unfold postAll
  repeat' first
    | exact sub_ hm (by decide)
    | with_reducible assumption
    | with_reducible apply post_keeps
    | with_reducible refine keeps_foldl ?_ ?_
    | with_reducible refine keeps_ite_left ?_ ?_
    | intro _

theorem logDigest_keeps (a1 : Nat) (a2 : Rec) (h : Keeps m s u) (hm : [.parts, .near] ⊆ m := by exact sub_ (by assumption) (by decide)) : Keeps m s (logDigest u a1 a2) := by
  unfold logDigest
  repeat' first
    | exact sub_ hm (by decide)
    | with_reducible assumption
    | with_reducible apply nearPush_keeps
    | with_reducible apply updPart_keeps

theorem logMeter_keeps (a1 : Nat) (a2 : Rec) (h : Keeps m s u) (hm : [.parts, .near] ⊆ m := by exact sub_ (by assumption) (by decide)) : Keeps m s (logMeter u a1 a2) := by
  unfold logMeter
  repeat' first
    | exact sub_ hm (by decide)
    | with_reducible assumption
    | with_reducible apply nearPush_keeps
    | with_reducible apply updPart_keeps

theorem dumpResult_keeps (a1 : Nat) (h : Keeps m s u) (hm : [.trc] ⊆ m := by exact sub_ (by assumption) (by decide)) : Keeps m s (dumpResult u a1) := by
  unfold dumpResult
  repeat' first
    | exact sub_ hm (by decide)
    | with_reducible assumption
    | with_reducible refine keeps_foldl ?_ ?_
    | with_reducible refine keeps_ite_left ?_ ?_
    | intro _
    | split
    | with_reducible refine keeps_mk ?_ rfl

theorem dumpOver_keeps (a1 a2 : Nat) (h : Keeps m s u) (hm : [.trc] ⊆ m := by exact sub_ (by assumption) (by decide)) : Keeps m s (dumpOver u a1 a2) := by
  unfold dumpOver
  repeat' first
    | exact sub_ hm (by decide)
    | with_reducible assumption
    | with_reducible apply dumpResult_keeps
    | with_reducible refine keeps_foldl ?_ ?_
    | with_reducible refine keeps_ite_left ?_ ?_
    | intro _

theorem addInput_keeps (a1 : Input) (h : Keeps m s u) (hm : [.inputs] ⊆ m := by exact sub_ (by assumption) (by decide)) : Keeps m s (addInput u a1) := by
  unfold addInput
  repeat' first
    | exact sub_ hm (by decide)
    | with_reducible assumption
    | with_reducible refine keeps_foldl ?_ ?_
    | with_reducible refine keeps_ite_left ?_ ?_
    | intro _
    | split
    | with_reducible refine keeps_mk ?_ rfl

theorem tileInput_keeps (a1 a2 a3 : Nat) (h : Keeps m s u) (hm : [.inputs] ⊆ m := by exact sub_ (by assumption) (by decide)) : Keeps m s (tileInput u a1 a2 a3) := by
  unfold tileInput
  repeat' first
    | exact sub_ hm (by decide)
    | with_reducible assumption
    | with_reducible apply addInput_keeps

theorem opInput_keeps (a1 : Nat) (a2 : OpV) (a3 : Nat) (a4 : Bool) (a5 : Nat) (h : Keeps m s u) (hm : [.inputs] ⊆ m := by exact sub_ (by assumption) (by decide)) : Keeps m s (opInput u a1 a2 a3 a4 a5) := by
  unfold opInput
  repeat' first
    | exact sub_ hm (by decide)
    | with_reducible assumption
    | with_reducible apply addInput_keeps

theorem partInput_keeps (a1 a2 : Nat) (a3 : W16) (a4 : Nat) (h : Keeps m s u) (hm : [.inputs] ⊆ m := by exact sub_ (by assumption) (by decide)) : Keeps m s (partInput u a1 a2 a3 a4) := by
  unfold partInput
  repeat' first
    | exact sub_ hm (by decide)
    | with_reducible assumption
    | with_reducible apply addInput_keeps

theorem countViol_keeps (a1 : RecKind) (a2 : Nat) (h : Keeps m s u) (hm : [.portViols] ⊆ m := by exact sub_ (by assumption) (by decide)) : Keeps m s (countViol u a1 a2) := by
  unfold countViol
  repeat' first
    | exact sub_ hm (by decide)
    | with_reducible assumption
    | with_reducible refine keeps_foldl ?_ ?_
    | with_reducible refine keeps_ite_left ?_ ?_
    | intro _
    | split
    | with_reducible refine keeps_mk ?_ rfl

theorem portViol_keeps (a1 : RecKind) (a2 a3 : Nat) (a4 a5 : W16) (a6 : Byte) (a7 : W32) (a8 : W16) (a9 : Nat) (h : Keeps m s u) (hm : [.alert, .inputs, .cistern, .parts, .records, .early, .near, .portViols] ⊆ m := by exact sub_ (by assumption) (by decide)) : Keeps m s (portViol u a1 a2 a3 a4 a5 a6 a7 a8 a9) := by
  unfold portViol
  repeat' first
    | exact sub_ hm (by decide)
    | with_reducible assumption
    | with_reducible apply addRec_keeps
    | with_reducible apply countViol_keeps
    | with_reducible apply addInput_keeps

theorem trace_keeps (a1 : Nat) (a2 : Byte) (a3 a4 : Bool) (a5 a6 a7 : W16) (a8 : Nat) (h : Keeps m s u) (hm : [.spires] ⊆ m := by exact sub_ (by assumption) (by decide)) : Keeps m s (trace u a1 a2 a3 a4 a5 a6 a7 a8) := by
  unfold trace
  repeat' first
    | exact sub_ hm (by decide)
    | with_reducible assumption
    | with_reducible apply updSp_keeps

end Sys2Proof.Machine
end

