-- ==== Sys2Proof/Laws/KeepsVerdict.lean ====
section
/-! SUPPORT. What each operation of Machine/Verdict.lean keeps. -/

set_option Elab.async false

namespace Sys2Proof.Machine

variable {m : List Fld} {s u : State}

theorem updOp_keeps (a1 : Nat) (a2 : OpV → OpV) (h : Keeps m s u) (hm : [.ops] ⊆ m := by exact sub_ (by assumption) (by decide)) : Keeps m s (updOp u a1 a2) := by
  unfold updOp
  repeat' first
    | exact sub_ hm (by decide)
    | with_reducible assumption
    | with_reducible refine keeps_foldl ?_ ?_
    | with_reducible refine keeps_ite_left ?_ ?_
    | intro _
    | split
    | with_reducible refine keeps_mk ?_ rfl

theorem onOp_keeps (a1 : Nat) (g : OpV → State) (hg : ∀ x, Keeps m s (g x)) (h : Keeps m s u) (hm : [] ⊆ m := by exact sub_ (by assumption) (by decide)) : Keeps m s (onOp u a1 g) := by
  unfold onOp
  repeat' first
    | exact sub_ hm (by decide)
    | with_reducible assumption
    | with_reducible apply hg
    | with_reducible refine keeps_foldl ?_ ?_
    | with_reducible refine keeps_ite_left ?_ ?_
    | intro _
    | split

theorem openTag_keeps (a1 : Nat) (a2 a3 : W16) (h : Keeps m s u) (hm : [.parts] ⊆ m := by exact sub_ (by assumption) (by decide)) : Keeps m s (openTag u a1 a2 a3) := by
  unfold openTag
  repeat' first
    | exact sub_ hm (by decide)
    | with_reducible assumption
    | with_reducible apply updPart_keeps
    | with_reducible apply addUse_keeps
    | with_reducible apply refuseQuota_keeps
    | with_reducible refine keeps_foldl ?_ ?_
    | with_reducible refine keeps_ite_left ?_ ?_
    | intro _

theorem chargeTag_keeps (a1 : OpV) (a2 : TagEnt → TagEnt) (h : Keeps m s u) (hm : [.parts] ⊆ m := by exact sub_ (by assumption) (by decide)) : Keeps m s (chargeTag u a1 a2) := by
  unfold chargeTag
  repeat' first
    | exact sub_ hm (by decide)
    | with_reducible assumption
    | with_reducible apply openTag_keeps
    | with_reducible apply updPart_keeps

theorem freeTicket_keeps (a1 : Nat) (h : Keeps m s u) (hm : [.ops, .tickets] ⊆ m := by exact sub_ (by assumption) (by decide)) : Keeps m s (freeTicket u a1) := by
  unfold freeTicket
  repeat' first
    | exact sub_ hm (by decide)
    | with_reducible assumption
    | with_reducible apply updOp_keeps
    | with_reducible refine keeps_foldl ?_ ?_
    | with_reducible refine keeps_ite_left ?_ ?_
    | intro _
    | split
    | with_reducible refine keeps_mk ?_ rfl

theorem finalize_keeps (a1 : Nat) (h : Keeps m s u) (hm : [.alert, .cistern, .parts, .ops, .tickets, .records, .early, .near] ⊆ m := by exact sub_ (by assumption) (by decide)) : Keeps m s (finalize u a1) := by
  unfold finalize
  repeat' first
    | exact sub_ hm (by decide)
    | with_reducible assumption
    | with_reducible apply onOp_keeps
    | with_reducible apply freeTicket_keeps
    | with_reducible apply updOp_keeps
    | with_reducible apply updCnt_keeps
    | with_reducible apply addRec_keeps
    | with_reducible refine keeps_foldl ?_ ?_
    | with_reducible refine keeps_ite_left ?_ ?_
    | intro _

theorem settle_keeps (a1 : Nat) (h : Keeps m s u) (hm : [.alert, .cistern, .parts, .ops, .tickets, .records, .early, .near] ⊆ m := by exact sub_ (by assumption) (by decide)) : Keeps m s (settle u a1) := by
  unfold settle
  repeat' first
    | exact sub_ hm (by decide)
    | with_reducible assumption
    | with_reducible apply onOp_keeps
    | with_reducible apply updOp_keeps
    | with_reducible apply finalize_keeps
    | with_reducible refine keeps_foldl ?_ ?_
    | with_reducible refine keeps_ite_left ?_ ?_
    | intro _
    | split

theorem standSuspect_keeps (a1 a2 : Nat) (h : Keeps m s u) (hm : [.alert, .inputs, .cistern, .parts, .ops, .tickets, .records, .early, .near] ⊆ m := by exact sub_ (by assumption) (by decide)) : Keeps m s (standSuspect u a1 a2) := by
  unfold standSuspect
  repeat' first
    | exact sub_ hm (by decide)
    | with_reducible assumption
    | with_reducible apply onOp_keeps
    | with_reducible apply freeTicket_keeps
    | with_reducible apply updOp_keeps
    | with_reducible apply settle_keeps
    | with_reducible apply opInput_keeps
    | with_reducible refine keeps_foldl ?_ ?_
    | with_reducible refine keeps_ite_left ?_ ?_
    | intro _

theorem applyRerun_keeps (a1 : Nat) (h : Keeps m s u) (hm : [.alert, .inputs, .cistern, .parts, .ops, .tickets, .records, .early, .near] ⊆ m := by exact sub_ (by assumption) (by decide)) : Keeps m s (applyRerun u a1) := by
  unfold applyRerun
  repeat' first
    | exact sub_ hm (by decide)
    | with_reducible assumption
    | with_reducible apply onOp_keeps
    | with_reducible apply standSuspect_keeps
    | with_reducible apply freeTicket_keeps
    | with_reducible apply updOp_keeps
    | with_reducible apply updCnt_keeps
    | with_reducible apply opInput_keeps
    | with_reducible apply settle_keeps
    | with_reducible refine keeps_foldl ?_ ?_
    | with_reducible refine keeps_ite_left ?_ ?_
    | intro _
    | split

theorem updSample_keeps (a1 a2 : Nat) (a3 : Sample → Sample) (h : Keeps m s u) (hm : [.samples] ⊆ m := by exact sub_ (by assumption) (by decide)) : Keeps m s (updSample u a1 a2 a3) := by
  unfold updSample
  repeat' first
    | exact sub_ hm (by decide)
    | with_reducible assumption
    | with_reducible refine keeps_foldl ?_ ?_
    | with_reducible refine keeps_ite_left ?_ ?_
    | intro _
    | split
    | with_reducible refine keeps_mk ?_ rfl

theorem freeEngine_keeps (a1 a2 a3 : Nat) (h : Keeps m s u) (hm : [.engines] ⊆ m := by exact sub_ (by assumption) (by decide)) : Keeps m s (freeEngine a1 a2 u a3) := by
  unfold freeEngine
  repeat' first
    | exact sub_ hm (by decide)
    | with_reducible assumption
    | with_reducible apply updEng_keeps

theorem freeWitness_keeps (a1 : Sample) (a2 a3 : Nat) (h : Keeps m s u) (hm : [.parts, .near] ⊆ m := by exact sub_ (by assumption) (by decide)) : Keeps m s (freeWitness u a1 a2 a3) := by
  unfold freeWitness
  repeat' first
    | exact sub_ hm (by decide)
    | with_reducible assumption
    | with_reducible apply subUse_keeps
    | with_reducible apply nearPush_keeps
    | with_reducible refine keeps_foldl ?_ ?_
    | with_reducible refine keeps_ite_left ?_ ?_
    | intro _

theorem countRpl_keeps (a1 a2 a3 : Nat) (h : Keeps m s u) (hm : [.parts] ⊆ m := by exact sub_ (by assumption) (by decide)) : Keeps m s (countRpl u a1 a2 a3) := by
  unfold countRpl
  repeat' first
    | exact sub_ hm (by decide)
    | with_reducible assumption
    | with_reducible apply addRpl_keeps
    | with_reducible apply addDeficit_keeps
    | with_reducible refine keeps_foldl ?_ ?_
    | with_reducible refine keeps_ite_left ?_ ?_
    | intro _

theorem replayInput_keeps (a1 : OpV) (a2 a3 a4 : Nat) (h : Keeps m s u) (hm : [.inputs] ⊆ m := by exact sub_ (by assumption) (by decide)) : Keeps m s (replayInput u a1 a2 a3 a4) := by
  unfold replayInput
  repeat' first
    | exact sub_ hm (by decide)
    | with_reducible assumption
    | with_reducible apply opInput_keeps
    | with_reducible refine keeps_foldl ?_ ?_
    | with_reducible refine keeps_ite_left ?_ ?_
    | intro _
    | split

theorem watchPass_keeps (a1 : Nat) (h : Keeps m s u) (hm : [.tiles] ⊆ m := by exact sub_ (by assumption) (by decide)) : Keeps m s (watchPass u a1) := by
  unfold watchPass
  repeat' first
    | exact sub_ hm (by decide)
    | with_reducible assumption
    | exact Tile.Stays.of_eq rfl rfl
    | with_reducible apply updTile_keeps
    | with_reducible refine keeps_foldl ?_ ?_
    | with_reducible refine keeps_ite_left ?_ ?_
    | intro _
    | split

theorem chargeSample_keeps (a1 : Sample) (a2 : OpV) (a3 : Nat) (h : Keeps m s u) (hm : [.parts] ⊆ m := by exact sub_ (by assumption) (by decide)) : Keeps m s (chargeSample u a1 a2 a3) := by
  unfold chargeSample
  repeat' first
    | exact sub_ hm (by decide)
    | with_reducible assumption
    | with_reducible apply addMeter_keeps
    | with_reducible apply chargeTag_keeps
    | with_reducible refine keeps_foldl ?_ ?_
    | with_reducible refine keeps_ite_left ?_ ?_
    | intro _

theorem endSample_keeps (a1 a2 a3 a4 : Nat) (h : Keeps m s u) (hm : [.alert, .inputs, .cistern, .parts, .tiles, .ops, .tickets, .samples, .engines, .records, .early, .near, .rng] ⊆ m := by exact sub_ (by assumption) (by decide)) : Keeps m s (endSample u a1 a2 a3 a4) := by
  unfold endSample
  repeat' first
    | exact sub_ hm (by decide)
    | with_reducible assumption
    | with_reducible apply onOp_keeps
    | with_reducible apply addRec_keeps
    | with_reducible apply chargeSample_keeps
    | with_reducible apply countRpl_keeps
    | with_reducible apply replayInput_keeps
    | with_reducible apply freeEngine_keeps
    | with_reducible apply freeWitness_keeps
    | with_reducible apply addRpl_keeps
    | with_reducible apply addDeficit_keeps
    | with_reducible apply watchPass_keeps
    | with_reducible apply updOp_keeps
    | with_reducible apply settle_keeps
    | with_reducible refine keeps_foldl ?_ ?_
    | with_reducible refine keeps_ite_left ?_ ?_
    | intro _
    | split
    | with_reducible refine keeps_mk ?_ rfl

theorem updLkOp_keeps (a1 a2 : Nat) (a3 : LkOp → LkOp) (h : Keeps m s u) (hm : [.parts] ⊆ m := by exact sub_ (by assumption) (by decide)) : Keeps m s (updLkOp u a1 a2 a3) := by
  unfold updLkOp
  repeat' first
    | exact sub_ hm (by decide)
    | with_reducible assumption
    | with_reducible apply updPart_keeps

theorem lkClosed_keeps (a1 a2 : Nat) (h : Keeps m s u) (hm : [.parts] ⊆ m := by exact sub_ (by assumption) (by decide)) : Keeps m s (lkClosed u a1 a2) := by
  unfold lkClosed
  repeat' first
    | exact sub_ hm (by decide)
    | with_reducible assumption
    | with_reducible apply updLkOp_keeps

theorem closeInKeep_keeps (a1 : Nat) (h : Keeps m s u) (hm : [.alert, .inputs, .cistern, .parts, .ops, .tickets, .records, .early, .near] ⊆ m := by exact sub_ (by assumption) (by decide)) : Keeps m s (closeInKeep u a1) := by
  unfold closeInKeep
  repeat' first
    | exact sub_ hm (by decide)
    | with_reducible assumption
    | with_reducible apply onOp_keeps
    | with_reducible apply updOp_keeps
    | with_reducible apply opInput_keeps
    | with_reducible apply settle_keeps
    | with_reducible apply applyRerun_keeps
    | with_reducible apply lkClosed_keeps
    | with_reducible refine keeps_foldl ?_ ?_
    | with_reducible refine keeps_ite_left ?_ ?_
    | intro _
    | split

end Sys2Proof.Machine
end

