-- ==== Sys2Proof/Laws/KeepsCmd.lean ====
section
/-! SUPPORT. What each operation of Machine/Cmd.lean keeps. -/

set_option Elab.async false

namespace Sys2Proof.Machine

variable {m : List Fld} {s u : State}

theorem updCmd_keeps (a1 : Nat) (a2 : CmdInst → CmdInst) (h : Keeps m s u) (hm : [.cmd] ⊆ m := by exact sub_ (by assumption) (by decide)) : Keeps m s (updCmd u a1 a2) := by
  unfold updCmd
  repeat' first
    | exact sub_ hm (by decide)
    | with_reducible assumption
    | with_reducible refine keeps_foldl ?_ ?_
    | with_reducible refine keeps_ite_left ?_ ?_
    | intro _
    | split
    | with_reducible refine keeps_mk ?_ rfl

theorem cmdState_keeps (a1 a2 : Nat) (h : Keeps m s u) (hm : [.cmd] ⊆ m := by exact sub_ (by assumption) (by decide)) : Keeps m s (cmdState u a1 a2) := by
  unfold cmdState
  repeat' first
    | exact sub_ hm (by decide)
    | with_reducible assumption
    | with_reducible apply updCmd_keeps

theorem cmdFinish_keeps (a1 a2 a3 : Nat) (h : Keeps m s u) (hm : [.cmd, .cmds] ⊆ m := by exact sub_ (by assumption) (by decide)) : Keeps m s (cmdFinish u a1 a2 a3) := by
  unfold cmdFinish
  repeat' first
    | exact sub_ hm (by decide)
    | with_reducible assumption
    | with_reducible apply updCmd_keeps
    | with_reducible refine keeps_foldl ?_ ?_
    | with_reducible refine keeps_ite_left ?_ ?_
    | intro _
    | split
    | with_reducible refine keeps_mk ?_ rfl

theorem issueCmd_keeps (a1 : Nat) (a2 : W32) (h : Keeps m s u) (hm : [.cmd, .cmds] ⊆ m := by exact sub_ (by assumption) (by decide)) : Keeps m s (issueCmd u a1 a2) := by
  unfold issueCmd
  repeat' first
    | exact sub_ hm (by decide)
    | with_reducible assumption
    | with_reducible apply updCmd_keeps
    | with_reducible refine keeps_foldl ?_ ?_
    | with_reducible refine keeps_ite_left ?_ ?_
    | intro _
    | split
    | with_reducible refine keeps_mk ?_ rfl

end Sys2Proof.Machine
end

