-- ==== Sys2Proof/Laws/KeepsTiles.lean ====
section
/-! SUPPORT. What each operation of Machine/Tiles.lean keeps. -/

set_option Elab.async false

namespace Sys2Proof.Machine

variable {m : List Fld} {s u : State}

theorem thmCount_keeps (a1 a2 : Nat) (h : Keeps m s u) (hm : [.thermal] ⊆ m := by exact sub_ (by assumption) (by decide)) : Keeps m s (thmCount u a1 a2) := by
  unfold thmCount
  repeat' first
    | exact sub_ hm (by decide)
    | with_reducible assumption
    | with_reducible refine keeps_foldl ?_ ?_
    | with_reducible refine keeps_ite_left ?_ ?_
    | intro _
    | split
    | with_reducible refine keeps_mk ?_ rfl

theorem issueFrame_keeps (a1 : Nat) (a2 : OutFrame) (h : Keeps m s u) (hm : [.tiles, .domes, .caravan] ⊆ m := by exact sub_ (by assumption) (by decide)) : Keeps m s (issueFrame u a1 a2) := by
  unfold issueFrame
  repeat' first
    | exact sub_ hm (by decide)
    | with_reducible assumption
    | exact Tile.Stays.of_eq rfl rfl
    | with_reducible apply onTile_keeps
    | with_reducible apply updTile_keeps
    | with_reducible apply bigDome_keeps
    | with_reducible refine keeps_foldl ?_ ?_
    | with_reducible refine keeps_ite_left ?_ ?_
    | intro _
    | split
    | with_reducible refine keeps_mk ?_ rfl

theorem frameRec_keeps (a1 : Nat) (a2 : OutFrame) (a3 : Byte) (a4 : Nat) (h : Keeps m s u) (hm : [.alert, .cistern, .parts, .records, .early, .near] ⊆ m := by exact sub_ (by assumption) (by decide)) : Keeps m s (frameRec u a1 a2 a3 a4) := by
  unfold frameRec
  repeat' first
    | exact sub_ hm (by decide)
    | with_reducible assumption
    | with_reducible apply addRec_keeps
    | with_reducible refine keeps_foldl ?_ ?_
    | with_reducible refine keeps_ite_left ?_ ?_
    | intro _

theorem recordUnsent_keeps (a1 : Nat) (a2 : List OutFrame) (h : Keeps m s u) (hm : [.alert, .cmd, .cmds, .cistern, .parts, .records, .early, .near] ⊆ m := by exact sub_ (by assumption) (by decide)) : Keeps m s (recordUnsent u a1 a2) := by
  unfold recordUnsent
  repeat' first
    | exact sub_ hm (by decide)
    | with_reducible assumption
    | with_reducible apply frameRec_keeps
    | with_reducible apply cmdFinish_keeps
    | with_reducible refine keeps_foldl ?_ ?_
    | with_reducible refine keeps_ite_left ?_ ?_
    | intro _
    | split

theorem sendFrame_keeps (a1 : Nat) (a2 : OutFrame) (h : Keeps m s u) (hm : [.alert, .cmd, .cmds, .cistern, .parts, .tiles, .domes, .caravan, .records, .early, .near] ⊆ m := by exact sub_ (by assumption) (by decide)) : Keeps m s (sendFrame u a1 a2) := by
  unfold sendFrame
  repeat' first
    | exact sub_ hm (by decide)
    | with_reducible assumption
    | exact Tile.Stays.of_eq rfl rfl
    | with_reducible apply onTile_keeps
    | with_reducible apply issueFrame_keeps
    | with_reducible apply updTile_keeps
    | with_reducible apply recordUnsent_keeps
    | with_reducible refine keeps_foldl ?_ ?_
    | with_reducible refine keeps_ite_left ?_ ?_
    | intro _
    | split

theorem sendTest_keeps (a1 : Nat) (a2 : Bool) (h : Keeps m s u) (hm : [.alert, .cmd, .cmds, .cistern, .parts, .tiles, .domes, .caravan, .records, .early, .near] ⊆ m := by exact sub_ (by assumption) (by decide)) : Keeps m s (sendTest u a1 a2) := by
  unfold sendTest
  repeat' first
    | exact sub_ hm (by decide)
    | with_reducible assumption
    | with_reducible apply sendFrame_keeps

theorem updWrap_keeps (a1 : Nat) (a2 : GoldenEntry) (a3 : WrapperCfg → Wrapper → Wrapper) (h : Keeps m s u) (hm : [.spires] ⊆ m := by exact sub_ (by assumption) (by decide)) : Keeps m s (updWrap u a1 a2 a3) := by
  unfold updWrap
  repeat' first
    | exact sub_ hm (by decide)
    | with_reducible assumption
    | with_reducible apply updSp_keeps

theorem tryBegin_keeps (a1 : Nat) (h : Keeps m s u) (hm : [.tiles, .spires] ⊆ m := by exact sub_ (by assumption) (by decide)) : Keeps m s (tryBegin u a1) := by
  unfold tryBegin
  repeat' first
    | exact sub_ hm (by decide)
    | with_reducible assumption
    | exact Tile.Stays.of_eq rfl rfl
    | with_reducible apply updWrap_keeps
    | with_reducible apply updTile_keeps
    | with_reducible refine keeps_foldl ?_ ?_
    | with_reducible refine keeps_ite_left ?_ ?_
    | intro _
    | split

theorem sendTestOff_keeps (a1 : Nat) (h : Keeps m s u) (hm : [.alert, .cmd, .cmds, .cistern, .parts, .tiles, .domes, .caravan, .records, .early, .near] ⊆ m := by exact sub_ (by assumption) (by decide)) : Keeps m s (sendTestOff u a1) := by
  unfold sendTestOff
  repeat' first
    | exact sub_ hm (by decide)
    | with_reducible assumption
    | exact Tile.Stays.of_eq rfl rfl
    | with_reducible apply onTile_keeps
    | with_reducible apply sendTest_keeps
    | with_reducible apply updTile_keeps
    | with_reducible refine keeps_foldl ?_ ?_
    | with_reducible refine keeps_ite_left ?_ ?_
    | intro _

theorem abortRun_keeps (a1 : Tile) (h : Keeps m s u) (hm : [.alert, .cistern, .parts, .tiles, .spires, .records, .early, .near, .thermal] ⊆ m := by exact sub_ (by assumption) (by decide)) : Keeps m s (abortRun u a1) := by
  unfold abortRun
  repeat' first
    | exact sub_ hm (by decide)
    | with_reducible assumption
    | exact Tile.Stays.of_eq rfl rfl
    | with_reducible apply addRec_keeps
    | with_reducible apply thmCount_keeps
    | with_reducible apply addMeter_keeps
    | with_reducible apply updTile_keeps
    | with_reducible apply updWrap_keeps
    | with_reducible refine keeps_foldl ?_ ?_
    | with_reducible refine keeps_ite_left ?_ ?_
    | intro _
    | split

theorem dropTests_keeps (a1 : Tile) (h : Keeps m s u) (hm : [.cmd, .cmds] ⊆ m := by exact sub_ (by assumption) (by decide)) : Keeps m s (dropTests u a1) := by
  unfold dropTests
  repeat' first
    | exact sub_ hm (by decide)
    | with_reducible assumption
    | with_reducible apply cmdFinish_keeps
    | with_reducible refine keeps_foldl ?_ ?_
    | with_reducible refine keeps_ite_left ?_ ?_
    | intro _
    | split

theorem snapshotDue_keeps (a1 a2 : Nat) (h : Keeps m s u) (hm : [.nvm] ⊆ m := by exact sub_ (by assumption) (by decide)) : Keeps m s (snapshotDue u a1 a2) := by
  unfold snapshotDue
  repeat' first
    | exact sub_ hm (by decide)
    | with_reducible assumption
    | with_reducible refine keeps_foldl ?_ ?_
    | with_reducible refine keeps_ite_left ?_ ?_
    | intro _
    | split
    | with_reducible refine keeps_mk ?_ rfl

theorem closeDead_keeps (a1 : Nat) (h : Keeps m s u) (hm : [.alert, .cmd, .inputs, .cmds, .cistern, .parts, .tiles, .spires, .ops, .tickets, .samples, .engines, .records, .early, .near, .thermal, .rng] ⊆ m := by exact sub_ (by assumption) (by decide)) : Keeps m s (closeDead u a1) := by
  unfold closeDead
  repeat' first
    | exact sub_ hm (by decide)
    | with_reducible assumption
    | exact Tile.Stays.of_eq rfl rfl
    | with_reducible apply endSample_keeps
    | with_reducible apply closeInKeep_keeps
    | with_reducible apply onTile_keeps
    | with_reducible apply dropTests_keeps
    | with_reducible apply abortRun_keeps
    | with_reducible apply updTile_keeps
    | with_reducible apply updSp_keeps
    | with_reducible refine keeps_foldl ?_ ?_
    | with_reducible refine keeps_ite_left ?_ ?_
    | intro _

theorem getTile_eq {i : Nat} {x : Tile} (h : getTile u i = some x) : x ∈ u.tiles ∧ x.ix = i :=
  ⟨List.mem_of_find?_eq_some h, by simpa using List.find?_some h⟩

theorem getTile_mem {x : Tile} (hn : (u.tiles.map (·.ix)).Nodup) (hx : x ∈ u.tiles) : getTile u x.ix = some x := by
  unfold getTile
  generalize u.tiles = l at hn hx
  induction l with
  | nil => cases hx
  | cons y l ih =>
    obtain ⟨hy, hl⟩ := List.nodup_cons.1 hn
    rcases List.mem_cons.1 hx with rfl | hx
    · simp
    · have : (y.ix == x.ix) = false := by
        simp only [beq_eq_false_iff_ne, ne_eq]
        exact fun e => hy (List.mem_map.2 ⟨x, hx, e.symm⟩)
      rw [List.find?_cons_of_neg (by simp [this])]
      exact ih hl hx

/-- What `changeState` may do to the tile it names (R225). -/
def mayChange (s : State) (i new : Nat) : Prop :=
  (stateOf s i = stDead → new = stDead) ∧ (stateOf s i = stRetired → new = stRetired ∨ new = stDead)

theorem mayChange_low {i new : Nat} (h : stateOf u i < stRetired) : mayChange u i new :=
  ⟨fun e => absurd h (by rw [e]; decide), fun e => absurd h (by rw [e]; decide)⟩

theorem newState_keeps (i new : Nat) (w : Option WatchSt) (b : Option W64 → Option W64) (hs : s.image = none ∨ mayChange u i new) (h : Keeps m s u)
    (hm : [.tiles] ⊆ m := by exact sub_ (by assumption) (by decide)) :
    Keeps m s (updTile u i fun t => { t with state := new, fencedAt := b t.fencedAt, watch := w }) := by
  refine keeps_mk h rfl (ht := fun hi hn => stays_map _ fun x hx => ?_)
  obtain hs | hs := hs
  · exact absurd hs hi
  · split
    · rename_i e
      have : stateOf u i = x.state := by rw [← e]; simp only [stateOf, getTile_mem hn hx]
      rw [mayChange, this] at hs
      exact ⟨rfl, hs.1, hs.2⟩
    · exact Tile.Stays.rfl_ x

theorem changeState_keeps (a1 a2 a3 a4 a5 : Nat) (a6 : W64) (a7 a8 : Nat) (a9 : Option Nat) (hs : mayChange u a1 a2) (h : Keeps m s u)
    (hm : [.alert, .cmd, .inputs, .cmds, .cistern, .nvm, .parts, .tiles, .spires, .domes, .ops, .tickets, .samples, .engines, .caravan, .records, .early, .near, .thermal, .rng] ⊆ m := by exact sub_ (by assumption) (by decide)) :
    Keeps m s (changeState u a1 a2 a3 a4 a5 a6 a7 a8 a9) := by
  unfold changeState
  have hw := fun w b => newState_keeps a1 a2 w b (.inr hs) h (sub_ hm (by decide))
  repeat' first
    | exact sub_ hm (by decide)
    | with_reducible assumption
    | exact hw _ _
    | exact hw _ (fun x => if _ then _ else x)
    | with_reducible apply onTile_keeps
    | with_reducible apply snapshotDue_keeps
    | with_reducible apply sendFrame_keeps
    | with_reducible apply closeDead_keeps
    | with_reducible apply addRec_keeps
    | with_reducible apply updSp_keeps
    | with_reducible refine keeps_ite_left ?_ ?_
    | intro _
    | split

theorem noopState_keeps (a1 a2 a3 : Nat) (a4 : W64) (h : Keeps m s u) (hm : [.alert, .cistern, .parts, .records, .early, .near] ⊆ m := by exact sub_ (by assumption) (by decide)) : Keeps m s (noopState u a1 a2 a3 a4) := by
  unfold noopState
  repeat' first
    | exact sub_ hm (by decide)
    | with_reducible assumption
    | with_reducible apply onTile_keeps
    | with_reducible apply addRec_keeps
    | with_reducible refine keeps_foldl ?_ ?_
    | with_reducible refine keeps_ite_left ?_ ?_
    | intro _

theorem actWatch_keeps (a1 a2 a3 : Nat) (a4 : W64) (a5 a6 : Nat) (h : Keeps m s u)
    (hm : [.alert, .cmd, .inputs, .cmds, .cistern, .nvm, .parts, .tiles, .spires, .domes, .ops, .tickets, .samples, .engines, .caravan, .records, .early, .near, .thermal, .rng] ⊆ m := by exact sub_ (by assumption) (by decide)) :
    Keeps m s (actWatch u a1 a2 a3 a4 a5 a6) := by
  unfold actWatch
  split
  · rename_i e
    exact changeState_keeps _ _ _ _ _ _ _ _ _ (mayChange_low (by rw [e]; decide)) h
  · exact noopState_keeps _ _ _ _ (updTile_keeps _ _ (fun _ => Tile.Stays.of_eq rfl rfl) h)
  · exact noopState_keeps _ _ _ _ h

theorem watchExit_low {i : Nat} (h : watchExit u i = true) : stateOf u i < stRetired := by
  simp only [watchExit] at h
  split at h
  · rename_i t _ e _
    split at h
    · simp only [Bool.and_eq_true, beq_iff_eq] at h
      simp only [stateOf, e, h.1.1.1]
      decide
    · cases h
  · cases h

theorem watchWithdraw_low {i n c : Nat} (h : watchWithdraw u i n c = true) : stateOf u i < stRetired := by
  simp only [watchWithdraw] at h
  split at h
  · rename_i t e
    split at h
    · simp only [Bool.and_eq_true, beq_iff_eq] at h
      simp only [stateOf, e, h.1.1.1.1.1]
      decide
    · cases h
  · cases h

theorem actUnwatch_keeps (a1 a2 a3 a4 : Nat) (a5 : W64) (a6 a7 : Nat) (h : Keeps m s u)
    (hm : [.alert, .cmd, .inputs, .cmds, .cistern, .nvm, .parts, .tiles, .spires, .domes, .ops, .tickets, .samples, .engines, .caravan, .records, .early, .near, .thermal, .rng] ⊆ m := by exact sub_ (by assumption) (by decide)) :
    Keeps m s (actUnwatch u a1 a2 a3 a4 a5 a6 a7) := by
  unfold actUnwatch
  split
  · split
    · rename_i e
      exact changeState_keeps _ _ _ _ _ _ _ _ _ (mayChange_low (watchExit_low e)) h
    · exact noopState_keeps _ _ _ _ h
  · split
    · rename_i e
      exact changeState_keeps _ _ _ _ _ _ _ _ _ (mayChange_low (watchWithdraw_low e)) h
    · exact noopState_keeps _ _ _ _ h

theorem actFence_keeps (a1 a2 a3 a4 : Nat) (a5 : W64) (h : Keeps m s u) (hm : [.alert, .cmd, .inputs, .cmds, .cistern, .nvm, .parts, .tiles, .spires, .domes, .ops, .tickets, .samples, .engines, .caravan, .records, .early, .near, .thermal, .rng] ⊆ m := by exact sub_ (by assumption) (by decide)) : Keeps m s (actFence u a1 a2 a3 a4 a5) := by
  unfold actFence
  split
  · rename_i e
    exact changeState_keeps _ _ _ _ _ _ _ _ _ (mayChange_low (Nat.lt_succ_of_lt e)) h
  · exact noopState_keeps _ _ _ _ h

theorem postReroute_keeps (a1 : Nat) (h : Keeps m s u) (hm : [.parts, .near] ⊆ m := by exact sub_ (by assumption) (by decide)) : Keeps m s (postReroute u a1) := by
  unfold postReroute
  repeat' first
    | exact sub_ hm (by decide)
    | with_reducible assumption
    | with_reducible apply post_keeps

theorem actDead_keeps (a1 a2 a3 a4 : Nat) (a5 : W64) (h : Keeps m s u) (hm : [.alert, .cmd, .inputs, .cmds, .cistern, .nvm, .parts, .tiles, .spires, .domes, .ops, .tickets, .samples, .engines, .caravan, .records, .early, .near, .thermal, .rng] ⊆ m := by exact sub_ (by assumption) (by decide)) : Keeps m s (actDead u a1 a2 a3 a4 a5) := by
  unfold actDead
  split
  · exact noopState_keeps _ _ _ _ h
  · exact keeps_ite_left (fun h => postReroute_keeps _ h) (changeState_keeps _ _ _ _ _ _ _ _ _ ⟨fun _ => rfl, fun _ => .inr rfl⟩ h)

theorem concern_keeps (a1 : Nat) (a2 : Bool) (h : Keeps m s u) (hm : [.tiles] ⊆ m := by exact sub_ (by assumption) (by decide)) : Keeps m s (concern u a1 a2) := by
  unfold concern
  repeat' first
    | exact sub_ hm (by decide)
    | with_reducible assumption
    | exact Tile.Stays.of_eq rfl rfl
    | with_reducible apply updTile_keeps
    | with_reducible refine keeps_foldl ?_ ?_
    | with_reducible refine keeps_ite_left ?_ ?_
    | intro _

theorem c4Violation_keeps (a1 : Nat) (h : Keeps m s u) (hm : [.alert, .cistern, .parts, .records, .early, .near] ⊆ m := by exact sub_ (by assumption) (by decide)) : Keeps m s (c4Violation u a1) := by
  unfold c4Violation
  repeat' first
    | exact sub_ hm (by decide)
    | with_reducible assumption
    | with_reducible apply alert_keeps
    | with_reducible apply addRec_keeps
    | with_reducible apply updPart_keeps
    | with_reducible refine keeps_foldl ?_ ?_
    | with_reducible refine keeps_ite_left ?_ ?_
    | intro _
    | split
    | with_reducible refine keeps_mk ?_ rfl

theorem tapViol_keeps (a1 : RecKind) (a2 : Nat) (a3 : Option Dsc) (a4 : Byte) (a5 : W16) (a6 : Nat) (h : Keeps m s u) (hm : [.alert, .inputs, .cistern, .parts, .spires, .records, .early, .near] ⊆ m := by exact sub_ (by assumption) (by decide)) : Keeps m s (tapViol u a1 a2 a3 a4 a5 a6) := by
  unfold tapViol
  repeat' first
    | exact sub_ hm (by decide)
    | with_reducible assumption
    | with_reducible apply updSp_keeps
    | with_reducible apply spCount_keeps
    | with_reducible apply trace_keeps
    | with_reducible apply addRec_keeps
    | with_reducible apply uplink_keeps
    | with_reducible apply addInput_keeps
    | with_reducible refine keeps_foldl ?_ ?_
    | with_reducible refine keeps_ite_left ?_ ?_
    | intro _

theorem closeLagging_keeps (a1 : Nat) (a2 : W16) (h : Keeps m s u) (hm : [.alert, .inputs, .cistern, .parts, .tiles, .ops, .tickets, .samples, .engines, .records, .early, .near, .rng] ⊆ m := by exact sub_ (by assumption) (by decide)) : Keeps m s (closeLagging u a1 a2) := by
  unfold closeLagging
  repeat' first
    | exact sub_ hm (by decide)
    | with_reducible assumption
    | with_reducible apply endSample_keeps
    | with_reducible apply updOp_keeps
    | with_reducible apply finalize_keeps
    | with_reducible refine keeps_foldl ?_ ?_
    | with_reducible refine keeps_ite_left ?_ ?_
    | intro _

end Sys2Proof.Machine
end

