-- ==== Sys2Proof/Laws/KeepsDigest.lean ====
section
/-! SUPPORT. What each operation of Machine/Digest.lean keeps. -/

set_option Elab.async false

namespace Sys2Proof.Machine

variable {m : List Fld} {s u : State}

theorem closeKey_keeps (a1 : Nat) (a2 : LayerKey) (a3 : Bool) (h : Keeps m s u) (hm : [.parts, .near] ⊆ m := by exact sub_ (by assumption) (by decide)) : Keeps m s (closeKey u a1 a2 a3) := by
  unfold closeKey
  repeat' first
    | exact sub_ hm (by decide)
    | with_reducible assumption
    | with_reducible apply addUse_keeps
    | with_reducible apply refuseQuota_keeps
    | with_reducible apply updPart_keeps
    | with_reducible apply logDigest_keeps
    | with_reducible refine keeps_foldl ?_ ?_
    | with_reducible refine keeps_ite_left ?_ ?_
    | intro _

theorem openKey_keeps (a1 : Nat) (a2 a3 : W16) (a4 : W32) (a5 : W16) (h : Keeps m s u) (hm : [.parts, .near] ⊆ m := by exact sub_ (by assumption) (by decide)) : Keeps m s (openKey u a1 a2 a3 a4 a5) := by
  unfold openKey
  repeat' first
    | exact sub_ hm (by decide)
    | with_reducible assumption
    | with_reducible apply closeKey_keeps
    | with_reducible apply updPart_keeps
    | with_reducible refine keeps_foldl ?_ ?_
    | with_reducible refine keeps_ite_left ?_ ?_
    | intro _
    | split

theorem updKey_keeps (a1 : Nat) (a2 a3 : W16) (a4 : W32) (a5 : W16) (a6 : LayerKey → LayerKey) (h : Keeps m s u) (hm : [.parts] ⊆ m := by exact sub_ (by assumption) (by decide)) : Keeps m s (updKey u a1 a2 a3 a4 a5 a6) := by
  unfold updKey
  repeat' first
    | exact sub_ hm (by decide)
    | with_reducible assumption
    | with_reducible apply updPart_keeps

theorem joinKey_keeps (a1 : Nat) (h : Keeps m s u) (hm : [.parts, .near] ⊆ m := by exact sub_ (by assumption) (by decide)) : Keeps m s (joinKey u a1) := by
  unfold joinKey
  repeat' first
    | exact sub_ hm (by decide)
    | with_reducible assumption
    | with_reducible apply onOp_keeps
    | with_reducible apply updCnt_keeps
    | with_reducible apply updPart_keeps
    | with_reducible apply logDigest_keeps
    | with_reducible apply updKey_keeps
    | with_reducible apply openKey_keeps
    | with_reducible refine keeps_foldl ?_ ?_
    | with_reducible refine keeps_ite_left ?_ ?_
    | intro _
    | split
    | with_reducible refine keeps_mk ?_ rfl

theorem refuseKey_keeps (a1 : Nat) (a2 : Dsc) (h : Keeps m s u) (hm : [.parts, .near] ⊆ m := by exact sub_ (by assumption) (by decide)) : Keeps m s (refuseKey u a1 a2) := by
  unfold refuseKey
  repeat' first
    | exact sub_ hm (by decide)
    | with_reducible assumption
    | with_reducible apply updKey_keeps
    | with_reducible apply openKey_keeps
    | with_reducible refine keeps_foldl ?_ ?_
    | with_reducible refine keeps_ite_left ?_ ?_
    | intro _

theorem joinSegment_keeps (a1 : Nat) (a2 a3 : W16) (a4 : W64) (h : Keeps m s u) (hm : [.parts, .near] ⊆ m := by exact sub_ (by assumption) (by decide)) : Keeps m s (joinSegment u a1 a2 a3 a4) := by
  unfold joinSegment
  repeat' first
    | exact sub_ hm (by decide)
    | with_reducible assumption
    | with_reducible apply updKey_keeps
    | with_reducible apply openKey_keeps
    | with_reducible refine keeps_foldl ?_ ?_
    | with_reducible refine keeps_ite_left ?_ ?_
    | intro _

theorem enterDigests_keeps (a1 a2 : Nat) (a3 : W64) (a4 : Nat) (a5 : W64) (a6 : Option W64) (a7 : Nat) (a8 : Bool) (h : Keeps m s u) (hm : [.parts] ⊆ m := by exact sub_ (by assumption) (by decide)) : Keeps m s (enterDigests u a1 a2 a3 a4 a5 a6 a7 a8) := by
  unfold enterDigests
  repeat' first
    | exact sub_ hm (by decide)
    | with_reducible assumption
    | with_reducible apply updLkOp_keeps

theorem closeDueKeys_keeps (a1 : Nat) (h : Keeps m s u) (hm : [.parts, .near] ⊆ m := by exact sub_ (by assumption) (by decide)) : Keeps m s (closeDueKeys u a1) := by
  unfold closeDueKeys
  repeat' first
    | exact sub_ hm (by decide)
    | with_reducible assumption
    | with_reducible apply closeKey_keeps
    | with_reducible refine keeps_foldl ?_ ?_
    | with_reducible refine keeps_ite_left ?_ ?_
    | intro _

end Sys2Proof.Machine
end

