-- ==== Sys2Proof/Laws/KeepsBanen.lean ====
section
/-! SUPPORT. What each operation of Machine/Banen.lean keeps. -/

set_option Elab.async false

namespace Sys2Proof.Machine

variable {m : List Fld} {s u : State}

theorem countSent_keeps (a1 a2 : Nat) (h : Keeps m s u) (hm : [.big] ⊆ m := by exact sub_ (by assumption) (by decide)) : Keeps m s (countSent u a1 a2) := by
  unfold countSent
  repeat' first
    | exact sub_ hm (by decide)
    | with_reducible assumption
    | with_reducible apply addBig_keeps

theorem countRecv_keeps (a1 a2 : Nat) (h : Keeps m s u) (hm : [.big] ⊆ m := by exact sub_ (by assumption) (by decide)) : Keeps m s (countRecv u a1 a2) := by
  unfold countRecv
  repeat' first
    | exact sub_ hm (by decide)
    | with_reducible assumption
    | with_reducible apply addBig_keeps

theorem putFrame_keeps (a1 : Nat) (a2 : Byte) (a3 : W16) (a4 : List W64) (h : Keeps m s u) (hm : [.ports, .big] ⊆ m := by exact sub_ (by assumption) (by decide)) : Keeps m s (putFrame u a1 a2 a3 a4) := by
  unfold putFrame
  repeat' first
    | exact sub_ hm (by decide)
    | with_reducible assumption
    | with_reducible apply countSent_keeps
    | with_reducible apply updPort_keeps

theorem transmit_keeps (a1 : Nat) (a2 : Byte × List W64) (h : Keeps m s u) (hm : [.ports, .big] ⊆ m := by exact sub_ (by assumption) (by decide)) : Keeps m s (transmit u a1 a2) := by
  unfold transmit
  repeat' first
    | exact sub_ hm (by decide)
    | with_reducible assumption
    | with_reducible apply putFrame_keeps
    | with_reducible apply updPort_keeps

theorem sendBan_keeps (a1 : Nat) (a2 : Byte) (a3 : List W64) (h : Keeps m s u) (hm : [.ports, .big] ⊆ m := by exact sub_ (by assumption) (by decide)) : Keeps m s (sendBan u a1 a2 a3) := by
  unfold sendBan
  repeat' first
    | exact sub_ hm (by decide)
    | with_reducible assumption
    | with_reducible apply transmit_keeps
    | with_reducible apply updPort_keeps
    | with_reducible refine keeps_foldl ?_ ?_
    | with_reducible refine keeps_ite_left ?_ ?_
    | intro _

theorem pump_keeps (a1 : Nat) (h : Keeps m s u) (hm : [.ports, .big] ⊆ m := by exact sub_ (by assumption) (by decide)) : Keeps m s (pump u a1) := by
  unfold pump
  repeat' first
    | exact sub_ hm (by decide)
    | with_reducible assumption
    | with_reducible apply transmit_keeps
    | with_reducible apply updPort_keeps
    | with_reducible refine keeps_foldl ?_ ?_
    | with_reducible refine keeps_ite_left ?_ ?_
    | intro _

theorem acked_keeps (a1 : Nat) (a2 : W16) (h : Keeps m s u) (hm : [.ports, .big] ⊆ m := by exact sub_ (by assumption) (by decide)) : Keeps m s (acked u a1 a2) := by
  unfold acked
  repeat' first
    | exact sub_ hm (by decide)
    | with_reducible assumption
    | with_reducible apply pump_keeps
    | with_reducible apply updPort_keeps

theorem setTsync_keeps (a1 : Nat) (a2 : Bool) (h : Keeps m s u) (hm : [.time] ⊆ m := by exact sub_ (by assumption) (by decide)) : Keeps m s (setTsync u a1 a2) := by
  unfold setTsync
  repeat' first
    | exact sub_ hm (by decide)
    | with_reducible assumption
    | with_reducible refine keeps_foldl ?_ ?_
    | with_reducible refine keeps_ite_left ?_ ?_
    | intro _
    | split
    | with_reducible refine keeps_mk ?_ rfl

theorem setTrefDiff_keeps (a1 : Nat) (a2 : Bool) (h : Keeps m s u) (hm : [.time] ⊆ m := by exact sub_ (by assumption) (by decide)) : Keeps m s (setTrefDiff u a1 a2) := by
  unfold setTrefDiff
  repeat' first
    | exact sub_ hm (by decide)
    | with_reducible assumption
    | with_reducible refine keeps_foldl ?_ ?_
    | with_reducible refine keeps_ite_left ?_ ?_
    | intro _
    | split
    | with_reducible refine keeps_mk ?_ rfl

theorem portDown_keeps (a1 a2 : Nat) (h : Keeps m s u) (hm : [.time, .alert, .cistern, .parts, .ports, .seals, .launch, .records, .early, .near] ⊆ m := by exact sub_ (by assumption) (by decide)) : Keeps m s (portDown u a1 a2) := by
  unfold portDown
  repeat' first
    | exact sub_ hm (by decide)
    | with_reducible assumption
    | with_reducible apply updPort_keeps
    | with_reducible apply addRec_keeps
    | with_reducible apply alert_keeps
    | with_reducible apply setTsync_keeps
    | with_reducible refine keeps_foldl ?_ ?_
    | with_reducible refine keeps_ite_left ?_ ?_
    | intro _
    | split
    | with_reducible refine keeps_mk ?_ rfl

theorem resendFrom_keeps (a1 : Nat) (a2 : W16) (h : Keeps m s u) (hm : [.time, .alert, .cistern, .parts, .ports, .seals, .launch, .records, .early, .near, .big] ⊆ m := by exact sub_ (by assumption) (by decide)) : Keeps m s (resendFrom u a1 a2) := by
  unfold resendFrom
  repeat' first
    | exact sub_ hm (by decide)
    | with_reducible assumption
    | with_reducible apply updPort_keeps
    | with_reducible apply putFrame_keeps
    | with_reducible apply portDown_keeps
    | with_reducible refine keeps_foldl ?_ ?_
    | with_reducible refine keeps_ite_left ?_ ?_
    | intro _

theorem badFrame_keeps (a1 : Nat) (h : Keeps m s u) (hm : [.ports, .big] ⊆ m := by exact sub_ (by assumption) (by decide)) : Keeps m s (badFrame u a1) := by
  unfold badFrame
  repeat' first
    | exact sub_ hm (by decide)
    | with_reducible assumption
    | with_reducible apply updPort_keeps
    | with_reducible apply putFrame_keeps
    | with_reducible refine keeps_foldl ?_ ?_
    | with_reducible refine keeps_ite_left ?_ ?_
    | intro _

theorem takeFrame_keeps (a1 : BanHdr) (a2 : Nat) (g : State → State) (hg : ∀ v, Keeps m s v → Keeps m s (g v)) (h : Keeps m s u) (hm : [.ports, .big] ⊆ m := by exact sub_ (by assumption) (by decide)) : Keeps m s (takeFrame u a1 a2 g) := by
  unfold takeFrame
  repeat' first
    | exact sub_ hm (by decide)
    | with_reducible assumption
    | with_reducible apply countRecv_keeps
    | with_reducible apply badFrame_keeps
    | with_reducible apply acked_keeps
    | with_reducible apply updPort_keeps
    | with_reducible apply hg
    | with_reducible refine keeps_foldl ?_ ?_
    | with_reducible refine keeps_ite_left ?_ ?_
    | intro _

theorem execAck_keeps (a1 : BanHdr) (h : Keeps m s u) (hm : [.ports, .big] ⊆ m := by exact sub_ (by assumption) (by decide)) : ∃ t, execAck a1 u = .next t ∧ Keeps m s t := by
  refine ⟨_, rfl, ?_⟩
  repeat' first
    | exact sub_ hm (by decide)
    | with_reducible assumption
    | with_reducible apply acked_keeps
    | with_reducible apply countRecv_keeps
    | with_reducible refine keeps_foldl ?_ ?_
    | with_reducible refine keeps_ite_left ?_ ?_
    | intro _

theorem execNak_keeps (a1 : BanHdr) (a2 : W16) (h : Keeps m s u) (hm : [.time, .alert, .cistern, .parts, .ports, .seals, .launch, .records, .early, .near, .big] ⊆ m := by exact sub_ (by assumption) (by decide)) : ∃ t, execNak a1 a2 u = .next t ∧ Keeps m s t := by
  refine ⟨_, rfl, ?_⟩
  repeat' first
    | exact sub_ hm (by decide)
    | with_reducible assumption
    | with_reducible apply resendFrom_keeps
    | with_reducible apply acked_keeps
    | with_reducible apply countRecv_keeps
    | with_reducible refine keeps_foldl ?_ ?_
    | with_reducible refine keeps_ite_left ?_ ?_
    | intro _

theorem execRetransmitTimeout_keeps (a1 : Nat) (h : Keeps m s u) (hm : [.time, .alert, .cistern, .parts, .ports, .seals, .launch, .records, .early, .near, .big] ⊆ m := by exact sub_ (by assumption) (by decide)) : ∃ t, execRetransmitTimeout a1 u = .next t ∧ Keeps m s t := by
  refine ⟨_, rfl, ?_⟩
  repeat' first
    | exact sub_ hm (by decide)
    | with_reducible assumption
    | with_reducible apply resendFrom_keeps
    | with_reducible refine keeps_foldl ?_ ?_
    | with_reducible refine keeps_ite_left ?_ ?_
    | intro _
    | split

theorem execAckIdle_keeps (a1 : Nat) (h : Keeps m s u) (hm : [.ports, .big] ⊆ m := by exact sub_ (by assumption) (by decide)) : ∃ t, execAckIdle a1 u = .next t ∧ Keeps m s t := by
  refine ⟨_, rfl, ?_⟩
  repeat' first
    | exact sub_ hm (by decide)
    | with_reducible assumption
    | with_reducible apply putFrame_keeps
    | with_reducible refine keeps_foldl ?_ ?_
    | with_reducible refine keeps_ite_left ?_ ?_
    | intro _

theorem execBanenBadFrame_keeps (a1 : Nat) (h : Keeps m s u) (hm : [.ports, .big] ⊆ m := by exact sub_ (by assumption) (by decide)) : ∃ t, execBanenBadFrame a1 u = .next t ∧ Keeps m s t := by
  refine ⟨_, rfl, ?_⟩
  repeat' first
    | exact sub_ hm (by decide)
    | with_reducible assumption
    | with_reducible apply badFrame_keeps

theorem sendHello_keeps (a1 : Nat) (h : Keeps m s u) (hm : [.ports, .big, .rng] ⊆ m := by exact sub_ (by assumption) (by decide)) : Keeps m s (sendHello u a1) := by
  unfold sendHello
  repeat' first
    | exact sub_ hm (by decide)
    | with_reducible assumption
    | with_reducible apply draw_keeps
    | with_reducible apply updPort_keeps
    | with_reducible apply putFrame_keeps

theorem askTime_keeps (a1 : Nat) (h : Keeps m s u) (hm : [.ports, .big] ⊆ m := by exact sub_ (by assumption) (by decide)) : Keeps m s (askTime u a1) := by
  unfold askTime
  repeat' first
    | exact sub_ hm (by decide)
    | with_reducible assumption
    | with_reducible apply sendBan_keeps
    | with_reducible refine keeps_foldl ?_ ?_
    | with_reducible refine keeps_ite_left ?_ ?_
    | intro _

theorem measurePort_keeps (a1 : Nat) (h : Keeps m s u) (hm : [.time, .ports, .big] ⊆ m := by exact sub_ (by assumption) (by decide)) : Keeps m s (measurePort u a1) := by
  unfold measurePort
  repeat' first
    | exact sub_ hm (by decide)
    | with_reducible assumption
    | with_reducible apply askTime_keeps
    | with_reducible apply setTsync_keeps
    | with_reducible apply updPort_keeps

theorem linkUp_keeps (a1 : Nat) (a2 : HelloBody) (h : Keeps m s u) (hm : [.time, .alert, .cistern, .parts, .ports, .seals, .launch, .records, .early, .near, .big] ⊆ m := by exact sub_ (by assumption) (by decide)) : Keeps m s (linkUp u a1 a2) := by
  unfold linkUp
  repeat' first
    | exact sub_ hm (by decide)
    | with_reducible assumption
    | with_reducible apply portDown_keeps
    | with_reducible apply updPort_keeps
    | with_reducible apply draw_keeps
    | with_reducible apply measurePort_keeps
    | with_reducible apply setTrefDiff_keeps
    | with_reducible refine keeps_foldl ?_ ?_
    | with_reducible refine keeps_ite_left ?_ ?_
    | intro _

theorem execHello_keeps (a1 : BanHdr) (a2 : HelloBody) (h : Keeps m s u) (hm : [.time, .alert, .cistern, .parts, .ports, .seals, .launch, .records, .early, .near, .big] ⊆ m := by exact sub_ (by assumption) (by decide)) : ∃ t, execHello a1 a2 u = .next t ∧ Keeps m s t := by
  refine ⟨_, rfl, ?_⟩
  repeat' first
    | exact sub_ hm (by decide)
    | with_reducible assumption
    | with_reducible apply linkUp_keeps
    | with_reducible apply countRecv_keeps
    | with_reducible refine keeps_foldl ?_ ?_
    | with_reducible refine keeps_ite_left ?_ ?_
    | intro _

theorem checkOffset_keeps (a1 : Nat) (a2 : W64) (h : Keeps m s u) (hm : [.time, .alert, .belfry, .ports] ⊆ m := by exact sub_ (by assumption) (by decide)) : Keeps m s (checkOffset u a1 a2) := by
  unfold checkOffset
  repeat' first
    | exact sub_ hm (by decide)
    | with_reducible assumption
    | with_reducible apply updPort_keeps
    | with_reducible apply alert_keeps
    | with_reducible apply setTsync_keeps
    | with_reducible apply setTrefDiff_keeps
    | with_reducible refine keeps_foldl ?_ ?_
    | with_reducible refine keeps_ite_left ?_ ?_
    | intro _
    | split
    | with_reducible refine keeps_mk ?_ rfl

theorem storeOffset_keeps (a1 : Nat) (a2 : W64) (h : Keeps m s u) (hm : [.time, .alert, .belfry, .ports] ⊆ m := by exact sub_ (by assumption) (by decide)) : Keeps m s (storeOffset u a1 a2) := by
  unfold storeOffset
  repeat' first
    | exact sub_ hm (by decide)
    | with_reducible assumption
    | with_reducible apply checkOffset_keeps
    | with_reducible apply updPort_keeps
    | with_reducible apply setTsync_keeps
    | with_reducible refine keeps_foldl ?_ ?_
    | with_reducible refine keeps_ite_left ?_ ?_
    | intro _

theorem exchangeIn_keeps (a1 : Nat) (a2 a3 a4 a5 : W64) (h : Keeps m s u) (hm : [.time, .alert, .belfry, .ports, .big] ⊆ m := by exact sub_ (by assumption) (by decide)) : Keeps m s (exchangeIn u a1 a2 a3 a4 a5) := by
  unfold exchangeIn
  repeat' first
    | exact sub_ hm (by decide)
    | with_reducible assumption
    | with_reducible apply updPort_keeps
    | with_reducible apply askTime_keeps
    | with_reducible apply sendBan_keeps
    | with_reducible apply storeOffset_keeps
    | with_reducible refine keeps_foldl ?_ ?_
    | with_reducible refine keeps_ite_left ?_ ?_
    | intro _

theorem execTime_keeps (a1 : BanHdr) (a2 : TimeBody) (h : Keeps m s u) (hm : [.time, .alert, .belfry, .ports, .big] ⊆ m := by exact sub_ (by assumption) (by decide)) : ∃ t, execTime a1 a2 u = .next t ∧ Keeps m s t := by
  refine ⟨_, rfl, ?_⟩
  repeat' first
    | exact sub_ hm (by decide)
    | with_reducible assumption
    | with_reducible apply takeFrame_keeps
    | with_reducible apply sendBan_keeps
    | with_reducible apply exchangeIn_keeps
    | with_reducible apply storeOffset_keeps
    | with_reducible refine keeps_foldl ?_ ?_
    | with_reducible refine keeps_ite_left ?_ ?_
    | intro _
    | split

theorem execTimeCheck_keeps (a1 : Nat) (h : Keeps m s u) (hm : [.ports, .big] ⊆ m := by exact sub_ (by assumption) (by decide)) : ∃ t, execTimeCheck a1 u = .next t ∧ Keeps m s t := by
  refine ⟨_, rfl, ?_⟩
  repeat' first
    | exact sub_ hm (by decide)
    | with_reducible assumption
    | with_reducible apply askTime_keeps
    | with_reducible apply updPort_keeps
    | with_reducible refine keeps_foldl ?_ ?_
    | with_reducible refine keeps_ite_left ?_ ?_
    | intro _

theorem linkSuspect_keeps (a1 : Nat) (h : Keeps m s u) (hm : [.alert, .cistern, .parts, .sealMis, .records, .early, .near] ⊆ m := by exact sub_ (by assumption) (by decide)) : Keeps m s (linkSuspect u a1) := by
  unfold linkSuspect
  repeat' first
    | exact sub_ hm (by decide)
    | with_reducible assumption
    | with_reducible apply alert_keeps
    | with_reducible apply addRec_keeps
    | with_reducible refine keeps_foldl ?_ ?_
    | with_reducible refine keeps_ite_left ?_ ?_
    | intro _
    | split
    | with_reducible refine keeps_mk ?_ rfl

theorem sealOutcome_keeps (a1 : SealKey) (a2 a3 : Nat) (a4 : W64) (h : Keeps m s u) (hm : [.alert, .inputs, .cistern, .parts, .sealMis, .sealMatch, .records, .early, .near] ⊆ m := by exact sub_ (by assumption) (by decide)) : Keeps m s (sealOutcome u a1 a2 a3 a4) := by
  unfold sealOutcome
  repeat' first
    | exact sub_ hm (by decide)
    | with_reducible assumption
    | with_reducible apply logDigest_keeps
    | with_reducible apply addDeficit_keeps
    | with_reducible apply linkSuspect_keeps
    | with_reducible apply addInput_keeps
    | with_reducible apply partInput_keeps
    | with_reducible refine keeps_foldl ?_ ?_
    | with_reducible refine keeps_ite_left ?_ ?_
    | intro _
    | split
    | with_reducible refine keeps_mk ?_ rfl

theorem dropSeal_keeps (a1 : SealKey) (h : Keeps m s u) (hm : [.parts, .seals] ⊆ m := by exact sub_ (by assumption) (by decide)) : Keeps m s (dropSeal u a1) := by
  unfold dropSeal
  repeat' first
    | exact sub_ hm (by decide)
    | with_reducible assumption
    | with_reducible apply subUse_keeps
    | with_reducible refine keeps_foldl ?_ ?_
    | with_reducible refine keeps_ite_left ?_ ?_
    | intro _
    | split
    | with_reducible refine keeps_mk ?_ rfl

theorem unreadSeal_keeps (a1 : SealEnt) (h : Keeps m s u) (hm : [.alert, .inputs, .cistern, .parts, .seals, .sealMis, .sealMatch, .records, .early, .near] ⊆ m := by exact sub_ (by assumption) (by decide)) : Keeps m s (unreadSeal u a1) := by
  unfold unreadSeal
  repeat' first
    | exact sub_ hm (by decide)
    | with_reducible assumption
    | with_reducible apply sealOutcome_keeps
    | with_reducible apply dropSeal_keeps
    | with_reducible refine keeps_foldl ?_ ?_
    | with_reducible refine keeps_ite_left ?_ ?_
    | intro _
    | split

theorem trySeal_keeps (a1 : SealKey) (a2 : Bool) (h : Keeps m s u) (hm : [.alert, .inputs, .cistern, .parts, .seals, .sealMis, .sealMatch, .records, .early, .near] ⊆ m := by exact sub_ (by assumption) (by decide)) : Keeps m s (trySeal u a1 a2) := by
  unfold trySeal
  repeat' first
    | exact sub_ hm (by decide)
    | with_reducible assumption
    | with_reducible apply unreadSeal_keeps
    | with_reducible apply sealOutcome_keeps
    | with_reducible apply dropSeal_keeps
    | with_reducible refine keeps_foldl ?_ ?_
    | with_reducible refine keeps_ite_left ?_ ?_
    | intro _
    | split

theorem sealHalf_keeps (a1 : SealKey) (a2 : Nat) (a3 : Bool) (a4 : SealEnt → SealEnt) (h : Keeps m s u) (hm : [.alert, .inputs, .cistern, .parts, .seals, .sealMis, .sealMatch, .records, .early, .near] ⊆ m := by exact sub_ (by assumption) (by decide)) : Keeps m s (sealHalf u a1 a2 a3 a4) := by
  unfold sealHalf
  repeat' first
    | exact sub_ hm (by decide)
    | with_reducible assumption
    | with_reducible apply sealOutcome_keeps
    | with_reducible apply dropSeal_keeps
    | with_reducible apply trySeal_keeps
    | with_reducible apply addUse_keeps
    | with_reducible apply refuseQuota_keeps
    | with_reducible refine keeps_foldl ?_ ?_
    | with_reducible refine keeps_ite_left ?_ ?_
    | intro _
    | split
    | with_reducible refine keeps_mk ?_ rfl

theorem ltViol_keeps (a1 : LtMsg) (a2 : Byte) (h : Keeps m s u) (hm : [.alert, .inputs, .cistern, .parts, .records, .early, .near, .portViols] ⊆ m := by exact sub_ (by assumption) (by decide)) : Keeps m s (ltViol u a1 a2) := by
  unfold ltViol
  repeat' first
    | exact sub_ hm (by decide)
    | with_reducible assumption
    | with_reducible apply portViol_keeps

theorem ltChecks_keeps (a1 : LtMsg) (h : Keeps m s u) (hm : [.alert, .inputs, .cistern, .parts, .records, .early, .near, .portViols] ⊆ m := by exact sub_ (by assumption) (by decide)) : Keeps m s (ltChecks u a1) := by
  unfold ltChecks
  repeat' first
    | exact sub_ hm (by decide)
    | with_reducible assumption
    | with_reducible apply ltViol_keeps
    | with_reducible refine keeps_foldl ?_ ?_
    | with_reducible refine keeps_ite_left ?_ ?_
    | intro _

theorem countLink_keeps (a1 : LtMsg) (a2 : Bool) (h : Keeps m s u) (hm : [.big] ⊆ m := by exact sub_ (by assumption) (by decide)) : Keeps m s (countLink u a1 a2) := by
  unfold countLink
  repeat' first
    | exact sub_ hm (by decide)
    | with_reducible assumption
    | with_reducible apply addBig_keeps

theorem execLinkEgressMessage_keeps (a1 : LtMsg) (h : Keeps m s u) (hm : [.alert, .inputs, .cistern, .parts, .ports, .sealMis, .sealMatch, .records, .early, .near, .portViols, .big] ⊆ m := by exact sub_ (by assumption) (by decide)) : ∃ t, execLinkEgressMessage a1 u = .next t ∧ Keeps m s t := by
  refine ⟨_, rfl, ?_⟩
  repeat' first
    | exact sub_ hm (by decide)
    | with_reducible assumption
    | with_reducible apply ltChecks_keeps
    | with_reducible apply countLink_keeps
    | with_reducible apply sealOutcome_keeps
    | with_reducible apply sendBan_keeps
    | with_reducible refine keeps_foldl ?_ ?_
    | with_reducible refine keeps_ite_left ?_ ?_
    | intro _
    | split

theorem execLinkIngressMessage_keeps (a1 : LtMsg) (h : Keeps m s u) (hm : [.alert, .inputs, .cistern, .parts, .seals, .sealMis, .sealMatch, .records, .early, .near, .portViols, .big] ⊆ m := by exact sub_ (by assumption) (by decide)) : ∃ t, execLinkIngressMessage a1 u = .next t ∧ Keeps m s t := by
  refine ⟨_, rfl, ?_⟩
  repeat' first
    | exact sub_ hm (by decide)
    | with_reducible assumption
    | with_reducible apply ltChecks_keeps
    | with_reducible apply countLink_keeps
    | with_reducible apply sealHalf_keeps
    | with_reducible refine keeps_foldl ?_ ?_
    | with_reducible refine keeps_ite_left ?_ ?_
    | intro _

theorem execSealFrame_keeps (a1 : BanHdr) (a2 : SealBody) (h : Keeps m s u) (hm : [.alert, .inputs, .cistern, .parts, .ports, .seals, .sealMis, .sealMatch, .records, .early, .near, .big] ⊆ m := by exact sub_ (by assumption) (by decide)) : ∃ t, execSealFrame a1 a2 u = .next t ∧ Keeps m s t := by
  refine ⟨_, rfl, ?_⟩
  repeat' first
    | exact sub_ hm (by decide)
    | with_reducible assumption
    | with_reducible apply takeFrame_keeps
    | with_reducible apply updPort_keeps
    | with_reducible apply sealHalf_keeps
    | with_reducible refine keeps_foldl ?_ ?_
    | with_reducible refine keeps_ite_left ?_ ?_
    | intro _

theorem execSealWait_keeps (a1 : SealKey) (h : Keeps m s u) (hm : [.alert, .inputs, .cistern, .parts, .seals, .sealMis, .sealMatch, .records, .early, .near] ⊆ m := by exact sub_ (by assumption) (by decide)) : ∃ t, execSealWait a1 u = .next t ∧ Keeps m s t := by
  refine ⟨_, rfl, ?_⟩
  repeat' first
    | exact sub_ hm (by decide)
    | with_reducible assumption
    | with_reducible apply trySeal_keeps

theorem launchRec_keeps (a1 : Nat) (h : Keeps m s u) (hm : [.parts, .near] ⊆ m := by exact sub_ (by assumption) (by decide)) : Keeps m s (launchRec u a1) := by
  unfold launchRec
  repeat' first
    | exact sub_ hm (by decide)
    | with_reducible assumption
    | with_reducible apply logDigest_keeps

theorem propose_keeps (a1 : Nat) (a2 : List W64) (h : Keeps m s u) (hm : [.ports, .launch, .big] ⊆ m := by exact sub_ (by assumption) (by decide)) : Keeps m s (propose u a1 a2) := by
  unfold propose
  repeat' first
    | exact sub_ hm (by decide)
    | with_reducible assumption
    | with_reducible apply sendBan_keeps
    | with_reducible refine keeps_foldl ?_ ?_
    | with_reducible refine keeps_ite_left ?_ ?_
    | intro _
    | split
    | with_reducible refine keeps_mk ?_ rfl

theorem toPeers_keeps (a1 : Byte) (a2 : List W64) (h : Keeps m s u) (hm : [.ports, .launch, .big] ⊆ m := by exact sub_ (by assumption) (by decide)) : Keeps m s (toPeers u a1 a2) := by
  unfold toPeers
  repeat' first
    | exact sub_ hm (by decide)
    | with_reducible assumption
    | with_reducible apply propose_keeps
    | with_reducible apply sendBan_keeps
    | with_reducible refine keeps_foldl ?_ ?_
    | with_reducible refine keeps_ite_left ?_ ?_
    | intro _
    | split

theorem tryCommit_keeps (h : Keeps m s u) (hm : [.ports, .launch, .big] ⊆ m := by exact sub_ (by assumption) (by decide)) : Keeps m s (tryCommit u) := by
  unfold tryCommit
  repeat' first
    | exact sub_ hm (by decide)
    | with_reducible assumption
    | with_reducible apply toPeers_keeps
    | with_reducible refine keeps_foldl ?_ ?_
    | with_reducible refine keeps_ite_left ?_ ?_
    | intro _
    | split
    | with_reducible refine keeps_mk ?_ rfl

theorem startLaunch_keeps (h : Keeps m s u) (hm : [.ports, .launch, .big] ⊆ m := by exact sub_ (by assumption) (by decide)) : Keeps m s (startLaunch u) := by
  unfold startLaunch
  repeat' first
    | exact sub_ hm (by decide)
    | with_reducible assumption
    | with_reducible apply tryCommit_keeps
    | with_reducible apply toPeers_keeps
    | with_reducible refine keeps_foldl ?_ ?_
    | with_reducible refine keeps_ite_left ?_ ?_
    | intro _
    | split
    | with_reducible refine keeps_mk ?_ rfl

theorem retryLaunch_keeps (h : Keeps m s u) (hm : [.alert, .cistern, .parts, .ports, .launch, .records, .early, .near, .big] ⊆ m := by exact sub_ (by assumption) (by decide)) : Keeps m s (retryLaunch u) := by
  unfold retryLaunch
  repeat' first
    | exact sub_ hm (by decide)
    | with_reducible assumption
    | with_reducible apply toPeers_keeps
    | with_reducible apply launchRec_keeps
    | with_reducible apply addRec_keeps
    | with_reducible apply tryCommit_keeps
    | with_reducible refine keeps_foldl ?_ ?_
    | with_reducible refine keeps_ite_left ?_ ?_
    | intro _
    | split
    | with_reducible refine keeps_mk ?_ rfl

theorem execLaunchProp_keeps (a1 : BanHdr) (a2 : W64) (a3 : W32) (h : Keeps m s u) (hm : [.parts, .ports, .launch, .near, .big] ⊆ m := by exact sub_ (by assumption) (by decide)) : ∃ t, execLaunchProp a1 a2 a3 u = .next t ∧ Keeps m s t := by
  refine ⟨_, rfl, ?_⟩
  repeat' first
    | exact sub_ hm (by decide)
    | with_reducible assumption
    | with_reducible apply takeFrame_keeps
    | with_reducible apply sendBan_keeps
    | with_reducible apply launchRec_keeps
    | with_reducible refine keeps_foldl ?_ ?_
    | with_reducible refine keeps_ite_left ?_ ?_
    | intro _
    | split
    | with_reducible refine keeps_mk ?_ rfl

theorem answers_keeps (a1 : Nat) (a2 : W32) (h : Keeps m s u) (hm : [.launch] ⊆ m := by exact sub_ (by assumption) (by decide)) : Keeps m s (answers u a1 a2).2 := by
  unfold answers
  repeat' first
    | exact sub_ hm (by decide)
    | with_reducible assumption
    | with_reducible refine keeps_foldl ?_ ?_
    | with_reducible refine keeps_ite_left ?_ ?_
    | intro _
    | split
    | with_reducible refine keeps_mk ?_ rfl

theorem execLaunchAck_keeps (a1 : BanHdr) (a2 : W32) (h : Keeps m s u) (hm : [.ports, .launch, .big] ⊆ m := by exact sub_ (by assumption) (by decide)) : ∃ t, execLaunchAck a1 a2 u = .next t ∧ Keeps m s t := by
  refine ⟨_, rfl, ?_⟩
  repeat' first
    | exact sub_ hm (by decide)
    | with_reducible assumption
    | with_reducible apply takeFrame_keeps
    | with_reducible apply answers_keeps
    | with_reducible apply tryCommit_keeps
    | with_reducible refine keeps_foldl ?_ ?_
    | with_reducible refine keeps_ite_left ?_ ?_
    | intro _
    | split
    | with_reducible refine keeps_mk ?_ rfl

theorem execLaunchNak_keeps (a1 : BanHdr) (a2 : W32) (h : Keeps m s u) (hm : [.alert, .cistern, .parts, .ports, .launch, .records, .early, .near, .big] ⊆ m := by exact sub_ (by assumption) (by decide)) : ∃ t, execLaunchNak a1 a2 u = .next t ∧ Keeps m s t := by
  refine ⟨_, rfl, ?_⟩
  repeat' first
    | exact sub_ hm (by decide)
    | with_reducible assumption
    | with_reducible apply takeFrame_keeps
    | with_reducible apply answers_keeps
    | with_reducible apply retryLaunch_keeps
    | with_reducible refine keeps_foldl ?_ ?_
    | with_reducible refine keeps_ite_left ?_ ?_
    | intro _

theorem execLaunchCommit_keeps (a1 : BanHdr) (a2 : W32) (h : Keeps m s u) (hm : [.ports, .launch, .big] ⊆ m := by exact sub_ (by assumption) (by decide)) : ∃ t, execLaunchCommit a1 a2 u = .next t ∧ Keeps m s t := by
  refine ⟨_, rfl, ?_⟩
  repeat' first
    | exact sub_ hm (by decide)
    | with_reducible assumption
    | with_reducible apply takeFrame_keeps
    | with_reducible refine keeps_foldl ?_ ?_
    | with_reducible refine keeps_ite_left ?_ ?_
    | intro _
    | split
    | with_reducible refine keeps_mk ?_ rfl

theorem execLaunchAbort_keeps (a1 : BanHdr) (a2 : W32) (h : Keeps m s u) (hm : [.ports, .launch, .big] ⊆ m := by exact sub_ (by assumption) (by decide)) : ∃ t, execLaunchAbort a1 a2 u = .next t ∧ Keeps m s t := by
  refine ⟨_, rfl, ?_⟩
  repeat' first
    | exact sub_ hm (by decide)
    | with_reducible assumption
    | with_reducible apply takeFrame_keeps
    | with_reducible apply launchRec_keeps
    | with_reducible refine keeps_foldl ?_ ?_
    | with_reducible refine keeps_ite_left ?_ ?_
    | intro _
    | split
    | with_reducible refine keeps_mk ?_ rfl

theorem execLaunchCommitDeadline_keeps (h : Keeps m s u) (hm : [.alert, .cistern, .parts, .ports, .launch, .records, .early, .near, .big] ⊆ m := by exact sub_ (by assumption) (by decide)) : ∃ t, execLaunchCommitDeadline u = .next t ∧ Keeps m s t := by
  refine ⟨_, rfl, ?_⟩
  repeat' first
    | exact sub_ hm (by decide)
    | with_reducible assumption
    | with_reducible apply retryLaunch_keeps
    | with_reducible refine keeps_foldl ?_ ?_
    | with_reducible refine keeps_ite_left ?_ ?_
    | intro _

theorem execLaunchTime_keeps (h : Keeps m s u) (hm : [.alert, .pads, .parts, .launch, .near] ⊆ m := by exact sub_ (by assumption) (by decide)) : ∃ t, execLaunchTime u = .next t ∧ Keeps m s t := by
  refine ⟨_, rfl, ?_⟩
  repeat' first
    | exact sub_ hm (by decide)
    | with_reducible assumption
    | with_reducible apply launchRec_keeps
    | with_reducible apply alert_keeps
    | with_reducible refine keeps_foldl ?_ ?_
    | with_reducible refine keeps_ite_left ?_ ?_
    | intro _
    | split
    | with_reducible refine keeps_mk ?_ rfl

theorem execLaunchPulseEnd_keeps (h : Keeps m s u) (hm : [.pads, .launch] ⊆ m := by exact sub_ (by assumption) (by decide)) : ∃ t, execLaunchPulseEnd u = .next t ∧ Keeps m s t := by
  refine ⟨_, rfl, ?_⟩
  repeat' first
    | exact sub_ hm (by decide)
    | with_reducible assumption
    | with_reducible refine keeps_foldl ?_ ?_
    | with_reducible refine keeps_ite_left ?_ ?_
    | intro _
    | split
    | with_reducible refine keeps_mk ?_ rfl

theorem dcmpRec_keeps (a1 a2 : Nat) (a3 : W16) (a4 : W32) (a5 : W16) (a6 a7 : W64) (a8 : Nat) (h : Keeps m s u) (hm : [.parts, .near] ⊆ m := by exact sub_ (by assumption) (by decide)) : Keeps m s (dcmpRec u a1 a2 a3 a4 a5 a6 a7 a8) := by
  unfold dcmpRec
  repeat' first
    | exact sub_ hm (by decide)
    | with_reducible assumption
    | with_reducible apply logDigest_keeps

theorem updClosed_keeps (a1 : Nat) (a2 : LdBody) (a3 : ClosedKey → ClosedKey) (h : Keeps m s u) (hm : [.parts] ⊆ m := by exact sub_ (by assumption) (by decide)) : Keeps m s (updClosed u a1 a2 a3) := by
  unfold updClosed
  repeat' first
    | exact sub_ hm (by decide)
    | with_reducible assumption
    | with_reducible apply updPart_keeps

theorem dropTds_keeps (a1 : Nat) (a2 : ClosedKey) (h : Keeps m s u) (hm : [.parts] ⊆ m := by exact sub_ (by assumption) (by decide)) : Keeps m s (dropTds u a1 a2) := by
  unfold dropTds
  repeat' first
    | exact sub_ hm (by decide)
    | with_reducible assumption
    | with_reducible apply updClosed_keeps
    | with_reducible apply subUse_keeps

theorem releaseTds_keeps (a1 : Nat) (a2 : LdBody) (h : Keeps m s u) (hm : [.parts] ⊆ m := by exact sub_ (by assumption) (by decide)) : Keeps m s (releaseTds u a1 a2) := by
  unfold releaseTds
  repeat' first
    | exact sub_ hm (by decide)
    | with_reducible assumption
    | with_reducible apply dropTds_keeps
    | with_reducible refine keeps_foldl ?_ ?_
    | with_reducible refine keeps_ite_left ?_ ?_
    | intro _
    | split

theorem divergeInput_keeps (a1 : Nat) (a2 : W16) (a3 : Option Nat) (h : Keeps m s u) (hm : [.inputs] ⊆ m := by exact sub_ (by assumption) (by decide)) : Keeps m s (divergeInput u a1 a2 a3) := by
  unfold divergeInput
  repeat' first
    | exact sub_ hm (by decide)
    | with_reducible assumption
    | with_reducible apply addInput_keeps

theorem divergeEnds_keeps (a1 a2 : Nat) (a3 : ClosedKey) (a4 : Option Nat) (h : Keeps m s u) (hm : [.inputs, .parts, .peerTds] ⊆ m := by exact sub_ (by assumption) (by decide)) : Keeps m s (divergeEnds u a1 a2 a3 a4) := by
  unfold divergeEnds
  repeat' first
    | exact sub_ hm (by decide)
    | with_reducible assumption
    | with_reducible apply updClosed_keeps
    | with_reducible apply divergeInput_keeps
    | with_reducible apply releaseTds_keeps
    | with_reducible refine keeps_foldl ?_ ?_
    | with_reducible refine keeps_ite_left ?_ ?_
    | intro _
    | split
    | with_reducible refine keeps_mk ?_ rfl

theorem nameTile_keeps (a1 : Nat × ReplicaCfg) (a2 : LdBody) (h : Keeps m s u) (hm : [.inputs, .parts, .peerTds] ⊆ m := by exact sub_ (by assumption) (by decide)) : Keeps m s (nameTile u a1 a2) := by
  unfold nameTile
  repeat' first
    | exact sub_ hm (by decide)
    | with_reducible assumption
    | with_reducible apply divergeEnds_keeps
    | with_reducible refine keeps_foldl ?_ ?_
    | with_reducible refine keeps_ite_left ?_ ?_
    | intro _
    | split
    | with_reducible refine keeps_mk ?_ rfl

theorem diverged_keeps (a1 : Nat × ReplicaCfg) (a2 : ClosedKey) (a3 : LdBody) (h : Keeps m s u) (hm : [.inputs, .parts, .ports, .peerTds, .big] ⊆ m := by exact sub_ (by assumption) (by decide)) : Keeps m s (diverged u a1 a2 a3) := by
  unfold diverged
  repeat' first
    | exact sub_ hm (by decide)
    | with_reducible assumption
    | with_reducible apply divergeEnds_keeps
    | with_reducible apply sendBan_keeps
    | with_reducible apply nameTile_keeps
    | with_reducible apply updClosed_keeps
    | with_reducible refine keeps_foldl ?_ ?_
    | with_reducible refine keeps_ite_left ?_ ?_
    | intro _
    | split

theorem compareOne_keeps (a1 : Nat × ReplicaCfg) (a2 : ClosedKey) (a3 : LdBody) (g : State → State) (hg : ∀ v, Keeps m s v → Keeps m s (g v)) (h : Keeps m s u) (hm : [.inputs, .parts, .ports, .peerTds, .near, .big] ⊆ m := by exact sub_ (by assumption) (by decide)) : Keeps m s (compareOne u a1 a2 a3 g) := by
  unfold compareOne
  repeat' first
    | exact sub_ hm (by decide)
    | with_reducible assumption
    | with_reducible apply updClosed_keeps
    | with_reducible apply dcmpRec_keeps
    | with_reducible apply diverged_keeps
    | with_reducible apply releaseTds_keeps
    | with_reducible apply partInput_keeps
    | with_reducible apply hg
    | with_reducible refine keeps_foldl ?_ ?_
    | with_reducible refine keeps_ite_left ?_ ?_
    | intro _

theorem keepPeerRec_keeps (a1 : W16) (a2 : LdBody) (h : Keeps m s u) (hm : [.peerRecs] ⊆ m := by exact sub_ (by assumption) (by decide)) : Keeps m s (keepPeerRec u a1 a2) := by
  unfold keepPeerRec
  repeat' first
    | exact sub_ hm (by decide)
    | with_reducible assumption
    | with_reducible refine keeps_foldl ?_ ?_
    | with_reducible refine keeps_ite_left ?_ ?_
    | intro _
    | split
    | with_reducible refine keeps_mk ?_ rfl

theorem comparePeer_keeps (a1 : Nat × ReplicaCfg) (a2 : PeerRec) (h : Keeps m s u) (hm : [.inputs, .parts, .ports, .peerRecs, .peerTds, .near, .big] ⊆ m := by exact sub_ (by assumption) (by decide)) : Keeps m s (comparePeer a1 u a2) := by
  unfold comparePeer
  repeat' first
    | exact sub_ hm (by decide)
    | with_reducible assumption
    | with_reducible apply compareOne_keeps
    | with_reducible refine keeps_foldl ?_ ?_
    | with_reducible refine keeps_ite_left ?_ ?_
    | intro _
    | split
    | with_reducible refine keeps_mk ?_ rfl

theorem compareOwn_keeps (a1 : Nat × ReplicaCfg) (a2 : ClosedKey) (h : Keeps m s u) (hm : [.inputs, .parts, .ports, .peerTds, .near, .big] ⊆ m := by exact sub_ (by assumption) (by decide)) : Keeps m s (compareOwn a1 u a2) := by
  unfold compareOwn
  repeat' first
    | exact sub_ hm (by decide)
    | with_reducible assumption
    | with_reducible apply compareOne_keeps
    | with_reducible apply updClosed_keeps
    | with_reducible apply releaseTds_keeps
    | with_reducible refine keeps_foldl ?_ ?_
    | with_reducible refine keeps_ite_left ?_ ?_
    | intro _
    | split

theorem compareTick_keeps (h : Keeps m s u) (hm : [.inputs, .parts, .ports, .peerRecs, .peerTds, .near, .big] ⊆ m := by exact sub_ (by assumption) (by decide)) : Keeps m s (compareTick u) := by
  unfold compareTick
  repeat' first
    | exact sub_ hm (by decide)
    | with_reducible assumption
    | with_reducible apply compareOwn_keeps
    | with_reducible apply comparePeer_keeps
    | with_reducible refine keeps_foldl ?_ ?_
    | with_reducible refine keeps_ite_left ?_ ?_
    | intro _

theorem exportOne_keeps (a1 : Nat) (a2 : Nat × ReplicaCfg) (a3 : ClosedKey) (h : Keeps m s u) (hm : [.inputs, .parts, .ports, .near, .big] ⊆ m := by exact sub_ (by assumption) (by decide)) : Keeps m s (exportOne a1 a2 u a3) := by
  unfold exportOne
  repeat' first
    | exact sub_ hm (by decide)
    | with_reducible assumption
    | with_reducible apply updClosed_keeps
    | with_reducible apply partInput_keeps
    | with_reducible apply dcmpRec_keeps
    | with_reducible apply releaseTds_keeps
    | with_reducible apply sendBan_keeps
    | with_reducible refine keeps_foldl ?_ ?_
    | with_reducible refine keeps_ite_left ?_ ?_
    | intro _
    | split

theorem digestExport_keeps (a1 a2 : Nat) (h : Keeps m s u) (hm : [.inputs, .parts, .ports, .peerRecs, .peerTds, .near, .big] ⊆ m := by exact sub_ (by assumption) (by decide)) : Keeps m s (digestExport u a1 a2) := by
  unfold digestExport
  repeat' first
    | exact sub_ hm (by decide)
    | with_reducible assumption
    | with_reducible apply compareTick_keeps
    | with_reducible apply exportOne_keeps
    | with_reducible refine keeps_foldl ?_ ?_
    | with_reducible refine keeps_ite_left ?_ ?_
    | intro _
    | split

theorem execDigest_keeps (a1 : BanHdr) (a2 : LdBody) (h : Keeps m s u) (hm : [.inputs, .parts, .ports, .peerRecs, .peerTds, .near, .big] ⊆ m := by exact sub_ (by assumption) (by decide)) : ∃ t, execDigest a1 a2 u = .next t ∧ Keeps m s t := by
  refine ⟨_, rfl, ?_⟩
  repeat' first
    | exact sub_ hm (by decide)
    | with_reducible assumption
    | with_reducible apply takeFrame_keeps
    | with_reducible apply updPort_keeps
    | with_reducible apply compareTick_keeps
    | with_reducible apply keepPeerRec_keeps
    | with_reducible refine keeps_foldl ?_ ?_
    | with_reducible refine keeps_ite_left ?_ ?_
    | intro _

theorem keepPeerTds_keeps (a1 : W16) (a2 : Nat) (a3 : W16 × W16) (a4 : W32) (a5 : W16) (a6 : List (W16 × W64)) (h : Keeps m s u) (hm : [.peerTds] ⊆ m := by exact sub_ (by assumption) (by decide)) : Keeps m s (keepPeerTds u a1 a2 a3 a4 a5 a6) := by
  unfold keepPeerTds
  repeat' first
    | exact sub_ hm (by decide)
    | with_reducible assumption
    | with_reducible refine keeps_foldl ?_ ?_
    | with_reducible refine keeps_ite_left ?_ ?_
    | intro _
    | split
    | with_reducible refine keeps_mk ?_ rfl

theorem execTdlist_keeps (a1 : BanHdr) (a2 : Nat) (a3 : W16 × W16) (a4 : W32) (a5 : W16) (a6 : List (W16 × W64)) (h : Keeps m s u) (hm : [.inputs, .parts, .ports, .peerTds, .big] ⊆ m := by exact sub_ (by assumption) (by decide)) : ∃ t, execTdlist a1 a2 a3 a4 a5 a6 u = .next t ∧ Keeps m s t := by
  refine ⟨_, rfl, ?_⟩
  repeat' first
    | exact sub_ hm (by decide)
    | with_reducible assumption
    | with_reducible apply takeFrame_keeps
    | with_reducible apply nameTile_keeps
    | with_reducible apply keepPeerTds_keeps
    | with_reducible refine keeps_foldl ?_ ?_
    | with_reducible refine keeps_ite_left ?_ ?_
    | intro _
    | split

theorem dcmpExpire_keeps (a1 : Nat) (a2 : W16) (a3 : W32) (a4 : W16) (a5 : Nat × ReplicaCfg) (h : Keeps m s u) (hm : [.inputs, .parts, .peerTds, .near] ⊆ m := by exact sub_ (by assumption) (by decide)) : Keeps m s (dcmpExpire u a1 a2 a3 a4 a5) := by
  unfold dcmpExpire
  repeat' first
    | exact sub_ hm (by decide)
    | with_reducible assumption
    | with_reducible apply partInput_keeps
    | with_reducible apply dcmpRec_keeps
    | with_reducible apply divergeEnds_keeps
    | with_reducible apply updClosed_keeps
    | with_reducible refine keeps_foldl ?_ ?_
    | with_reducible refine keeps_ite_left ?_ ?_
    | intro _
    | split

theorem execDcmpWait_keeps (a1 : Nat) (a2 : W16) (a3 : W32) (a4 : W16) (h : Keeps m s u) (hm : [.inputs, .parts, .peerRecs, .peerTds, .near] ⊆ m := by exact sub_ (by assumption) (by decide)) : ∃ t, execDcmpWait a1 a2 a3 a4 u = .next t ∧ Keeps m s t := by
  refine ⟨_, rfl, ?_⟩
  repeat' first
    | exact sub_ hm (by decide)
    | with_reducible assumption
    | with_reducible apply dcmpExpire_keeps
    | with_reducible apply dropTds_keeps
    | with_reducible refine keeps_foldl ?_ ?_
    | with_reducible refine keeps_ite_left ?_ ?_
    | intro _
    | split
    | with_reducible refine keeps_mk ?_ rfl

theorem countUnlic_keeps (a1 : Nat) (h : Keeps m s u) (hm : [.parts] ⊆ m := by exact sub_ (by assumption) (by decide)) : Keeps m s (countUnlic u a1) := by
  unfold countUnlic
  repeat' first
    | exact sub_ hm (by decide)
    | with_reducible assumption
    | with_reducible apply updPart_keeps
    | with_reducible apply updCnt_keeps
    | with_reducible refine keeps_foldl ?_ ?_
    | with_reducible refine keeps_ite_left ?_ ?_
    | intro _

theorem attOne_keeps (a1 : Nat) (a2 : W16 × W32) (h : Keeps m s u) (hm : [.parts, .attQ, .near] ⊆ m := by exact sub_ (by assumption) (by decide)) : Keeps m s (attOne a1 u a2) := by
  unfold attOne
  repeat' first
    | exact sub_ hm (by decide)
    | with_reducible assumption
    | with_reducible apply updPart_keeps
    | with_reducible apply countUnlic_keeps
    | with_reducible apply logDigest_keeps
    | with_reducible apply updCnt_keeps
    | with_reducible refine keeps_foldl ?_ ?_
    | with_reducible refine keeps_ite_left ?_ ?_
    | intro _
    | split
    | with_reducible refine keeps_mk ?_ rfl

theorem attStep_keeps (a1 : Nat) (h : Keeps m s u) (hm : [.parts, .attQ, .near] ⊆ m := by exact sub_ (by assumption) (by decide)) : Keeps m s (attStep u a1) := by
  unfold attStep
  repeat' first
    | exact sub_ hm (by decide)
    | with_reducible assumption
    | with_reducible apply attOne_keeps
    | with_reducible refine keeps_foldl ?_ ?_
    | with_reducible refine keeps_ite_left ?_ ?_
    | intro _

theorem execAttestationSign_keeps (a1 : Nat) (h : Keeps m s u) (hm : [.parts, .attQ, .near, .rng] ⊆ m := by exact sub_ (by assumption) (by decide)) : ∃ t, execAttestationSign a1 u = .next t ∧ Keeps m s t := by
  refine ⟨_, rfl, ?_⟩
  repeat' first
    | exact sub_ hm (by decide)
    | with_reducible assumption
    | with_reducible apply addMeter_keeps
    | with_reducible apply logDigest_keeps
    | with_reducible refine keeps_foldl ?_ ?_
    | with_reducible refine keeps_ite_left ?_ ?_
    | intro _
    | split
    | with_reducible refine keeps_mk ?_ rfl

end Sys2Proof.Machine
end

