-- ==== Sys2Proof/Laws/KeepsTally.lean ====
section
/-! SUPPORT. What each operation of Machine/Tally.lean keeps. -/

set_option Elab.async false

namespace Sys2Proof.Machine

variable {m : List Fld} {s u : State}

theorem putTally_keeps (a1 : Nat) (a2 : Tally) (h : Keeps m s u) (hm : [.tallies] ⊆ m := by exact sub_ (by assumption) (by decide)) : Keeps m s (putTally u a1 a2) := by
  unfold putTally
  repeat' first
    | exact sub_ hm (by decide)
    | with_reducible assumption
    | with_reducible refine keeps_foldl ?_ ?_
    | with_reducible refine keeps_ite_left ?_ ?_
    | intro _
    | split
    | with_reducible refine keeps_mk ?_ rfl

theorem updTally_keeps (a1 : Nat) (a2 : Tally → Tally) (h : Keeps m s u) (hm : [.tallies] ⊆ m := by exact sub_ (by assumption) (by decide)) : Keeps m s (updTally u a1 a2) := by
  unfold updTally
  repeat' first
    | exact sub_ hm (by decide)
    | with_reducible assumption
    | with_reducible apply putTally_keeps

theorem setTalloc_keeps (a1 a2 a3 : Nat) (h : Keeps m s u) (hm : [.talloc] ⊆ m := by exact sub_ (by assumption) (by decide)) : Keeps m s (setTalloc u a1 a2 a3) := by
  unfold setTalloc
  repeat' first
    | exact sub_ hm (by decide)
    | with_reducible assumption
    | with_reducible refine keeps_foldl ?_ ?_
    | with_reducible refine keeps_ite_left ?_ ?_
    | intro _
    | split
    | with_reducible refine keeps_mk ?_ rfl

theorem grantTally_keeps (a1 a2 a3 : Nat) (h : Keeps m s u) (hm : [.talloc, .tallies] ⊆ m := by exact sub_ (by assumption) (by decide)) : Keeps m s (grantTally u a1 a2 a3) := by
  unfold grantTally
  repeat' first
    | exact sub_ hm (by decide)
    | with_reducible assumption
    | with_reducible apply setTalloc_keeps
    | with_reducible apply putTally_keeps

theorem serveTallies_keeps (n : Nat) (h : Keeps m s u) (hm : [.talloc, .tallies, .tallyQ] ⊆ m := by exact sub_ (by assumption) (by decide)) : Keeps m s (serveTallies n u) := by
  induction n generalizing u with
  | zero => exact h
  | succ n ih =>
    unfold serveTallies
    split
    · exact ih (grantTally_keeps _ _ _ (keeps_mk h rfl rfl rfl rfl rfl rfl rfl (KeepSt.Lasts.rfl_ _) id (fun _ hr => hr) (Nat.le_refl _) (Nat.le_refl _)))
    · exact h

theorem emptyWaiters_keeps (a1 : Nat) (h : Keeps m s u) (hm : [.parts, .tallies] ⊆ m := by exact sub_ (by assumption) (by decide)) : Keeps m s (emptyWaiters u a1) := by
  unfold emptyWaiters
  repeat' first
    | exact sub_ hm (by decide)
    | with_reducible assumption
    | with_reducible apply updTally_keeps
    | with_reducible apply subUse_keeps

theorem tallyCheck_keeps (a1 : Nat) (h : Keeps m s u) (hm : [.parts, .tallies] ⊆ m := by exact sub_ (by assumption) (by decide)) : Keeps m s (tallyCheck u a1) := by
  unfold tallyCheck
  repeat' first
    | exact sub_ hm (by decide)
    | with_reducible assumption
    | with_reducible apply emptyWaiters_keeps
    | with_reducible refine keeps_foldl ?_ ?_
    | with_reducible refine keeps_ite_left ?_ ?_
    | intro _

theorem freeOne_keeps (a1 : Nat) (h : Keeps m s u) (hm : [.talloc, .parts, .tallies, .tallyQ] ⊆ m := by exact sub_ (by assumption) (by decide)) : Keeps m s (freeOne u a1) := by
  unfold freeOne
  repeat' first
    | exact sub_ hm (by decide)
    | with_reducible assumption
    | with_reducible apply emptyWaiters_keeps
    | with_reducible apply serveTallies_keeps
    | with_reducible apply updTally_keeps

theorem freeTallies_keeps (a1 : Nat) (h : Keeps m s u) (hm : [.talloc, .parts, .tallies, .tallyQ] ⊆ m := by exact sub_ (by assumption) (by decide)) : Keeps m s (freeTallies u a1) := by
  unfold freeTallies
  repeat' first
    | exact sub_ hm (by decide)
    | with_reducible assumption
    | with_reducible apply subUse_keeps
    | with_reducible apply serveTallies_keeps
    | with_reducible refine keeps_foldl ?_ ?_
    | with_reducible refine keeps_ite_left ?_ ?_
    | intro _
    | split
    | with_reducible refine keeps_mk ?_ rfl

theorem resetTallies_keeps (h : Keeps m s u) (hm : [.talloc, .parts, .tallies, .tallyQ] ⊆ m := by exact sub_ (by assumption) (by decide)) : Keeps m s (resetTallies u) := by
  unfold resetTallies
  repeat' first
    | exact sub_ hm (by decide)
    | with_reducible assumption
    | with_reducible apply subUse_keeps
    | with_reducible apply setTalloc_keeps
    | with_reducible refine keeps_foldl ?_ ?_
    | with_reducible refine keeps_ite_left ?_ ?_
    | intro _
    | split
    | with_reducible refine keeps_mk ?_ rfl

theorem tallyAlloc_keeps (a1 : Requester) (h : Keeps m s u) (hm : [.talloc, .parts, .tallies, .tallyQ] ⊆ m := by exact sub_ (by assumption) (by decide)) : Keeps m s (tallyAlloc u a1) := by
  unfold tallyAlloc
  repeat' first
    | exact sub_ hm (by decide)
    | with_reducible assumption
    | with_reducible apply updCnt_keeps
    | with_reducible apply setTalloc_keeps
    | with_reducible apply grantTally_keeps
    | with_reducible refine keeps_foldl ?_ ?_
    | with_reducible refine keeps_ite_left ?_ ?_
    | intro _
    | split
    | with_reducible refine keeps_mk ?_ rfl

theorem tallyResult_keeps (a1 a2 : Nat) (a3 : W16) (a4 : Nat) (h : Keeps m s u) (hm : [.tallies] ⊆ m := by exact sub_ (by assumption) (by decide)) : Keeps m s (tallyResult u a1 a2 a3 a4) := by
  unfold tallyResult
  repeat' first
    | exact sub_ hm (by decide)
    | with_reducible assumption
    | with_reducible apply updTally_keeps

theorem tallyCmd_keeps (a1 a2 : Nat) (a3 : W16) (h : Keeps m s u) (hm : [.talloc, .parts, .tallies, .tallyQ] ⊆ m := by exact sub_ (by assumption) (by decide)) : Keeps m s (tallyCmd u a1 a2 a3) := by
  unfold tallyCmd
  repeat' first
    | exact sub_ hm (by decide)
    | with_reducible assumption
    | with_reducible apply tallyResult_keeps
    | with_reducible apply tallyCheck_keeps
    | with_reducible apply updTally_keeps
    | with_reducible apply refuseQuota_keeps
    | with_reducible apply addUse_keeps
    | with_reducible apply subUse_keeps
    | with_reducible apply freeOne_keeps
    | with_reducible refine keeps_foldl ?_ ?_
    | with_reducible refine keeps_ite_left ?_ ?_
    | intro _
    | split

theorem tallyTarget_keeps (a1 : Nat) (a2 : W32) (h : Keeps m s u) (hm : [.parts, .tallies] ⊆ m := by exact sub_ (by assumption) (by decide)) : Keeps m s (tallyTarget u a1 a2) := by
  unfold tallyTarget
  repeat' first
    | exact sub_ hm (by decide)
    | with_reducible assumption
    | with_reducible apply tallyCheck_keeps
    | with_reducible apply updTally_keeps

end Sys2Proof.Machine
end

