-- ==== Sys2Proof/Laws/KeepsNet.lean ====
section
/-! SUPPORT. What each operation of Machine/Net.lean keeps. -/

set_option Elab.async false

namespace Sys2Proof.Machine

variable {m : List Fld} {s u : State}

theorem inject_keeps (a1 : Nat) (h : Keeps m s u) (hm : [.spires] ⊆ m := by exact sub_ (by assumption) (by decide)) : Keeps m s (inject u a1) := by
  unfold inject
  repeat' first
    | exact sub_ hm (by decide)
    | with_reducible assumption
    | with_reducible apply updSp_keeps

theorem holdCredits_keeps (a1 a2 : Nat) (h : Keeps m s u) (hm : [.caravan] ⊆ m := by exact sub_ (by assumption) (by decide)) : Keeps m s (holdCredits u a1 a2) := by
  unfold holdCredits
  repeat' first
    | exact sub_ hm (by decide)
    | with_reducible assumption
    | with_reducible refine keeps_foldl ?_ ?_
    | with_reducible refine keeps_ite_left ?_ ?_
    | intro _
    | split
    | with_reducible refine keeps_mk ?_ rfl

theorem send_keeps (a1 : Msg) (h : Keeps m s u) (hm : [.spires, .caravan] ⊆ m := by exact sub_ (by assumption) (by decide)) : Keeps m s (send u a1) := by
  unfold send
  repeat' first
    | exact sub_ hm (by decide)
    | with_reducible assumption
    | with_reducible apply holdCredits_keeps
    | with_reducible apply inject_keeps
    | with_reducible apply uplink_keeps
    | with_reducible refine keeps_foldl ?_ ?_
    | with_reducible refine keeps_ite_left ?_ ?_
    | intro _
    | split
    | with_reducible refine keeps_mk ?_ rfl

theorem leave_keeps (a1 : Msg) (h : Keeps m s u) (hm : [.spires, .caravan] ⊆ m := by exact sub_ (by assumption) (by decide)) : Keeps m s (leave u a1) := by
  unfold leave
  repeat' first
    | exact sub_ hm (by decide)
    | with_reducible assumption
    | with_reducible apply updSp_keeps
    | with_reducible apply holdCredits_keeps
    | with_reducible refine keeps_foldl ?_ ?_
    | with_reducible refine keeps_ite_left ?_ ?_
    | intro _
    | split
    | with_reducible refine keeps_mk ?_ rfl

theorem takeMsg_keeps {f : Msg → Bool} {x : Msg} {v : State} (hx : takeMsg u f = some (x, v)) (h : Keeps m s u)
    (hm : [.spires, .caravan] ⊆ m := by exact sub_ (by assumption) (by decide)) : Keeps m s v := by
  unfold takeMsg at hx
  obtain ⟨y, _, e⟩ := Option.map_eq_some_iff.mp hx
  cases e
  exact leave_keeps _ h

end Sys2Proof.Machine
end

