-- ==== Sys2Proof/Laws/KeepsErg.lean ====
section
/-! SUPPORT. What each operation of Machine/Erg.lean keeps. -/

set_option Elab.async false

namespace Sys2Proof.Machine

variable {m : List Fld} {s u : State}

theorem ergEvent_keeps (a1 : Nat) (a2 : ErgScope → ErgScope) (a3 : Nat) (a4 : Bool) (a5 : Int) (a6 : Nat) (h : Keeps m s u) (hm : [.erg] ⊆ m := by exact sub_ (by assumption) (by decide)) : Keeps m s (ergEvent u a1 a2 a3 a4 a5 a6) := by
  unfold ergEvent
  repeat' first
    | exact sub_ hm (by decide)
    | with_reducible assumption
    | with_reducible refine keeps_foldl ?_ ?_
    | with_reducible refine keeps_ite_left ?_ ?_
    | intro _
    | split
    | with_reducible refine keeps_mk ?_ rfl

theorem ergVlat_keeps (a1 a2 a3 : Nat) (h : Keeps m s u) (hm : [.erg] ⊆ m := by exact sub_ (by assumption) (by decide)) : Keeps m s (ergVlat u a1 a2 a3) := by
  unfold ergVlat
  repeat' first
    | exact sub_ hm (by decide)
    | with_reducible assumption
    | with_reducible apply ergEvent_keeps

theorem ergRlag_keeps (a1 a2 a3 : Nat) (h : Keeps m s u) (hm : [.erg] ⊆ m := by exact sub_ (by assumption) (by decide)) : Keeps m s (ergRlag u a1 a2 a3) := by
  unfold ergRlag
  repeat' first
    | exact sub_ hm (by decide)
    | with_reducible assumption
    | with_reducible apply ergEvent_keeps

theorem ergSlag_keeps (a1 a2 a3 a4 : Nat) (h : Keeps m s u) (hm : [.erg] ⊆ m := by exact sub_ (by assumption) (by decide)) : Keeps m s (ergSlag u a1 a2 a3 a4) := by
  unfold ergSlag
  repeat' first
    | exact sub_ hm (by decide)
    | with_reducible assumption
    | with_reducible apply ergEvent_keeps

theorem ergResid_keeps (a1 a2 : Nat) (a3 : List Nat) (h : Keeps m s u) (hm : [.erg] ⊆ m := by exact sub_ (by assumption) (by decide)) : Keeps m s (ergResid u a1 a2 a3) := by
  unfold ergResid
  repeat' first
    | exact sub_ hm (by decide)
    | with_reducible assumption
    | with_reducible apply ergEvent_keeps
    | with_reducible refine keeps_foldl ?_ ?_
    | with_reducible refine keeps_ite_left ?_ ?_
    | intro _
    | split

theorem ergTemp_keeps (a1 : Int) (a2 : Nat) (a3 : Int) (a4 : Nat) (h : Keeps m s u) (hm : [.erg] ⊆ m := by exact sub_ (by assumption) (by decide)) : Keeps m s (ergTemp u a1 a2 a3 a4) := by
  unfold ergTemp
  repeat' first
    | exact sub_ hm (by decide)
    | with_reducible assumption
    | with_reducible apply ergEvent_keeps

theorem ergFold_keeps (h : Keeps m s u) (hm : [.erg] ⊆ m := by exact sub_ (by assumption) (by decide)) : Keeps m s (ergFold u) := by
  unfold ergFold
  repeat' first
    | exact sub_ hm (by decide)
    | with_reducible assumption
    | with_reducible refine keeps_foldl ?_ ?_
    | with_reducible refine keeps_ite_left ?_ ?_
    | intro _
    | split
    | with_reducible refine keeps_mk ?_ rfl

end Sys2Proof.Machine
end

