-- ==== Sys2Proof/Laws/KeepsPool.lean ====
section
/-! SUPPORT. What each operation of Machine/Pool.lean keeps. -/

set_option Elab.async false

namespace Sys2Proof.Machine

variable {m : List Fld} {s u : State}

theorem armIfRoom_keeps (a1 : Sample) (h : Keeps m s u) (hm : [.samples] ⊆ m := by exact sub_ (by assumption) (by decide)) : Keeps m s (armIfRoom u a1) := by
  unfold armIfRoom
  repeat' first
    | exact sub_ hm (by decide)
    | with_reducible assumption
    | with_reducible apply updSample_keeps
    | with_reducible refine keeps_foldl ?_ ?_
    | with_reducible refine keeps_ite_left ?_ ?_
    | intro _
    | split

theorem takeOver_keeps (a1 : Sample) (h : Keeps m s u) (hm : [.samples] ⊆ m := by exact sub_ (by assumption) (by decide)) : Keeps m s (takeOver u a1) := by
  unfold takeOver
  repeat' first
    | exact sub_ hm (by decide)
    | with_reducible assumption
    | with_reducible apply updSample_keeps
    | with_reducible refine keeps_foldl ?_ ?_
    | with_reducible refine keeps_ite_left ?_ ?_
    | intro _
    | split
    | with_reducible refine keeps_mk ?_ rfl

theorem promote_keeps (h : Keeps m s u) (hm : [.samples] ⊆ m := by exact sub_ (by assumption) (by decide)) : Keeps m s (promote u) := by
  unfold promote
  repeat' first
    | exact sub_ hm (by decide)
    | with_reducible assumption
    | with_reducible apply armIfRoom_keeps
    | with_reducible refine keeps_foldl ?_ ?_
    | intro _

theorem giveEngine_keeps (a1 a2 : Nat) (a3 : List Nat) (a4 : Nat) (h : Keeps m s u) (hm : [.engines] ⊆ m := by exact sub_ (by assumption) (by decide)) : Keeps m s (giveEngine a1 a2 a3 u a4) := by
  unfold giveEngine
  repeat' first
    | exact sub_ hm (by decide)
    | with_reducible assumption
    | with_reducible apply updEng_keeps

theorem tryAttach_keeps (a1 : Sample) (h : Keeps m s u) (hm : [.alert, .inputs, .cistern, .parts, .tiles, .ops, .tickets, .samples, .engines, .records, .early, .near, .rng] ⊆ m := by exact sub_ (by assumption) (by decide)) : Keeps m s (tryAttach u a1) := by
  unfold tryAttach
  repeat' first
    | exact sub_ hm (by decide)
    | with_reducible assumption
    | with_reducible apply onOp_keeps
    | with_reducible apply endSample_keeps
    | with_reducible apply giveEngine_keeps
    | with_reducible apply updSample_keeps
    | with_reducible refine keeps_foldl ?_ ?_
    | with_reducible refine keeps_ite_left ?_ ?_
    | intro _

theorem tryConfirm_keeps (a1 : Sample) (h : Keeps m s u) (hm : [.parts, .samples, .engines, .near] ⊆ m := by exact sub_ (by assumption) (by decide)) : Keeps m s (tryConfirm u a1) := by
  unfold tryConfirm
  repeat' first
    | exact sub_ hm (by decide)
    | with_reducible assumption
    | with_reducible apply onOp_keeps
    | with_reducible apply giveEngine_keeps
    | with_reducible apply updSample_keeps
    | with_reducible apply post_keeps
    | with_reducible refine keeps_foldl ?_ ?_
    | with_reducible refine keeps_ite_left ?_ ?_
    | intro _

theorem poolTick_keeps (h : Keeps m s u) (hm : [.alert, .inputs, .cistern, .parts, .tiles, .ops, .tickets, .samples, .engines, .records, .early, .near, .rng] ⊆ m := by exact sub_ (by assumption) (by decide)) : Keeps m s (poolTick u) := by
  unfold poolTick
  repeat' first
    | exact sub_ hm (by decide)
    | with_reducible assumption
    | with_reducible apply tryConfirm_keeps
    | with_reducible apply promote_keeps
    | with_reducible apply tryAttach_keeps
    | with_reducible refine keeps_foldl ?_ ?_
    | with_reducible refine keeps_ite_left ?_ ?_
    | intro _

theorem tryCompare_keeps (a1 a2 : Nat) (h : Keeps m s u) (hm : [.samples] ⊆ m := by exact sub_ (by assumption) (by decide)) : Keeps m s (tryCompare u a1 a2) := by
  unfold tryCompare
  repeat' first
    | exact sub_ hm (by decide)
    | with_reducible assumption
    | with_reducible apply updSample_keeps
    | with_reducible refine keeps_foldl ?_ ?_
    | with_reducible refine keeps_ite_left ?_ ?_
    | intro _
    | split

theorem processRow_keeps (a1 : Nat) (a2 : WRow) (h : Keeps m s u) (hm : [.samples, .engines, .big] ⊆ m := by exact sub_ (by assumption) (by decide)) : Keeps m s (processRow u a1 a2) := by
  unfold processRow
  repeat' first
    | exact sub_ hm (by decide)
    | with_reducible assumption
    | with_reducible apply updEng_keeps
    | with_reducible apply addBig_keeps
    | with_reducible apply updSample_keeps
    | with_reducible refine keeps_foldl ?_ ?_
    | with_reducible refine keeps_ite_left ?_ ?_
    | intro _
    | split

theorem feedRow_keeps (a1 a2 a3 : Nat) (a4 : WRow) (h : Keeps m s u) (hm : [.alert, .inputs, .cistern, .parts, .tiles, .ops, .tickets, .samples, .engines, .records, .early, .near, .big, .rng] ⊆ m := by exact sub_ (by assumption) (by decide)) : Keeps m s (feedRow u a1 a2 a3 a4) := by
  unfold feedRow
  repeat' first
    | exact sub_ hm (by decide)
    | with_reducible assumption
    | with_reducible apply updSample_keeps
    | with_reducible apply processRow_keeps
    | with_reducible apply endSample_keeps
    | with_reducible apply updEng_keeps
    | with_reducible refine keeps_foldl ?_ ?_
    | with_reducible refine keeps_ite_left ?_ ?_
    | intro _
    | split

theorem engineOut_keeps (a1 : Nat) (a2 : EngSt) (h : Keeps m s u) (hm : [.alert, .inputs, .cistern, .parts, .tiles, .ops, .tickets, .samples, .engines, .records, .early, .near, .rng] ⊆ m := by exact sub_ (by assumption) (by decide)) : Keeps m s (engineOut u a1 a2) := by
  unfold engineOut
  repeat' first
    | exact sub_ hm (by decide)
    | with_reducible assumption
    | with_reducible apply endSample_keeps
    | with_reducible apply updEng_keeps
    | with_reducible refine keeps_foldl ?_ ?_
    | with_reducible refine keeps_ite_left ?_ ?_
    | intro _

theorem engSliceFail_keeps (a1 : Nat) (a2 : GoldenEntry) (a3 : Bool) (a4 : W64) (a5 : W32) (h : Keeps m s u) (hm : [.alert, .inputs, .cistern, .parts, .records, .early, .near, .thermal] ⊆ m := by exact sub_ (by assumption) (by decide)) : Keeps m s (engSliceFail u a1 a2 a3 a4 a5) := by
  unfold engSliceFail
  repeat' first
    | exact sub_ hm (by decide)
    | with_reducible assumption
    | with_reducible apply addRec_keeps
    | with_reducible apply partInput_keeps
    | with_reducible apply thmCount_keeps

theorem engineSlices_keeps (x n : Nat) (rs : List SliceRes) (h : Keeps m s u) (hm : [.alert, .inputs, .cistern, .parts, .engines, .records, .early, .near, .thermal] ⊆ m := by exact sub_ (by assumption) (by decide)) :
    Keeps m s (engineSlices x n rs u).1 := by
  induction n generalizing u rs with
  | zero => exact h
  | succ n ih =>
    have h1 : ∀ f k, Keeps m s (updEng (addMeter u 0 mTest k) x f) := fun f k => updEng_keeps _ _ (addMeter_keeps _ _ _ h)
    unfold engineSlices
    dsimp only
    split
    · exact ih _ (thmCount_keeps _ _ (h1 _ _))
    · refine engSliceFail_keeps _ _ _ _ _ ?_
      split
      · exact addRec_keeps _ (h1 _ _)
      · exact h1 _ _

theorem engineTest_keeps (x : Nat) (r : EngineRun) (h : Keeps m s u) (hm : [.alert, .inputs, .cistern, .parts, .engines, .records, .early, .near, .thermal] ⊆ m := by exact sub_ (by assumption) (by decide)) : Keeps m s (engineTest u x r).1 := by
  unfold engineTest
  dsimp only
  split
  · exact engineSlices_keeps _ _ _ (addMeter_keeps _ _ _ h)
  · exact addMeter_keeps _ _ _ h

theorem engineTestDue_keeps (a1 : Nat) (h : Keeps m s u) (hm : [.engines] ⊆ m := by exact sub_ (by assumption) (by decide)) : Keeps m s (engineTestDue u a1) := by
  unfold engineTestDue
  repeat' first
    | exact sub_ hm (by decide)
    | with_reducible assumption
    | with_reducible apply updEng_keeps

end Sys2Proof.Machine
end

