-- ==== Sys2Proof/Laws/KeepsReplay.lean ====
section
/-! SUPPORT. What each operation of Machine/Replay.lean keeps. -/

set_option Elab.async false

namespace Sys2Proof.Machine

variable {m : List Fld} {s u : State}

theorem updStream_keeps (a1 : WKey) (a2 : Nat) (a3 : WStream → WStream) (h : Keeps m s u) (hm : [.streams] ⊆ m := by exact sub_ (by assumption) (by decide)) : Keeps m s (updStream u a1 a2 a3) := by
  unfold updStream
  repeat' first
    | exact sub_ hm (by decide)
    | with_reducible assumption
    | with_reducible refine keeps_foldl ?_ ?_
    | with_reducible refine keeps_ite_left ?_ ?_
    | intro _
    | split
    | with_reducible refine keeps_mk ?_ rfl

theorem checkStream_keeps (a1 : Sample) (h : Keeps m s u) (hm : [.alert, .inputs, .cistern, .parts, .tiles, .ops, .tickets, .samples, .engines, .records, .early, .near, .rng] ⊆ m := by exact sub_ (by assumption) (by decide)) : Keeps m s (checkStream u a1) := by
  unfold checkStream
  repeat' first
    | exact sub_ hm (by decide)
    | with_reducible assumption
    | with_reducible apply updSample_keeps
    | with_reducible apply endSample_keeps
    | with_reducible refine keeps_foldl ?_ ?_
    | with_reducible refine keeps_ite_left ?_ ?_
    | intro _
    | split

theorem checkStreams_keeps (a1 : WKey) (h : Keeps m s u) (hm : [.alert, .inputs, .cistern, .parts, .tiles, .ops, .tickets, .samples, .engines, .records, .early, .near, .rng] ⊆ m := by exact sub_ (by assumption) (by decide)) : Keeps m s (checkStreams u a1) := by
  unfold checkStreams
  repeat' first
    | exact sub_ hm (by decide)
    | with_reducible assumption
    | with_reducible apply checkStream_keeps
    | with_reducible refine keeps_foldl ?_ ?_
    | intro _

theorem endStream_keeps (a1 : WStream) (h : Keeps m s u) (hm : [.alert, .inputs, .cistern, .parts, .tiles, .ops, .tickets, .samples, .engines, .streams, .records, .early, .near, .rng] ⊆ m := by exact sub_ (by assumption) (by decide)) : Keeps m s (endStream u a1) := by
  unfold endStream
  repeat' first
    | exact sub_ hm (by decide)
    | with_reducible assumption
    | with_reducible apply checkStreams_keeps
    | with_reducible apply updStream_keeps

theorem headerCrosses_keeps (a1 : WtHdr) (h : Keeps m s u) (hm : [.alert, .inputs, .cistern, .parts, .tiles, .ops, .tickets, .samples, .engines, .streams, .lastHdr, .records, .early, .near, .rng] ⊆ m := by exact sub_ (by assumption) (by decide)) : Keeps m s (headerCrosses u a1) := by
  unfold headerCrosses
  repeat' first
    | exact sub_ hm (by decide)
    | with_reducible assumption
    | with_reducible apply endStream_keeps
    | with_reducible apply endSample_keeps
    | with_reducible refine keeps_foldl ?_ ?_
    | with_reducible refine keeps_ite_left ?_ ?_
    | intro _
    | split
    | with_reducible refine keeps_mk ?_ rfl

theorem badSegment_keeps (a1 : Nat) (a2 : WtHdr) (a3 : Byte) (a4 : Nat) (h : Keeps m s u) (hm : [.alert, .inputs, .cistern, .parts, .samples, .records, .early, .near, .portViols, .big] ⊆ m := by exact sub_ (by assumption) (by decide)) : Keeps m s (badSegment u a1 a2 a3 a4) := by
  unfold badSegment
  repeat' first
    | exact sub_ hm (by decide)
    | with_reducible assumption
    | with_reducible apply portViol_keeps
    | with_reducible apply addBig_keeps
    | with_reducible refine keeps_foldl ?_ ?_
    | with_reducible refine keeps_ite_left ?_ ?_
    | intro _
    | split
    | with_reducible refine keeps_mk ?_ rfl

theorem feedSample_keeps (a1 : WtHdr) (a2 : Nat) (a3 : Nat × List Nat × List Byte) (a4 : Sample) (h : Keeps m s u) (hm : [.alert, .inputs, .cistern, .parts, .tiles, .ops, .tickets, .samples, .engines, .records, .early, .near, .big, .rng] ⊆ m := by exact sub_ (by assumption) (by decide)) : Keeps m s (feedSample a1 a2 a3 u a4) := by
  unfold feedSample
  repeat' first
    | exact sub_ hm (by decide)
    | with_reducible assumption
    | with_reducible apply endSample_keeps
    | with_reducible apply updSample_keeps
    | with_reducible apply feedRow_keeps
    | with_reducible apply tryCompare_keeps
    | with_reducible refine keeps_foldl ?_ ?_
    | with_reducible refine keeps_ite_left ?_ ?_
    | intro _
    | split

theorem segmentMeets_keeps (a1 : WtHdr) (a2 : List Nat) (a3 : Sample) (h : Keeps m s u) (hm : [.alert, .inputs, .cistern, .parts, .tiles, .ops, .tickets, .samples, .engines, .records, .early, .near, .rng] ⊆ m := by exact sub_ (by assumption) (by decide)) : Keeps m s (segmentMeets a1 a2 u a3) := by
  unfold segmentMeets
  repeat' first
    | exact sub_ hm (by decide)
    | with_reducible assumption
    | with_reducible apply endSample_keeps
    | with_reducible refine keeps_foldl ?_ ?_
    | with_reducible refine keeps_ite_left ?_ ?_
    | intro _

theorem repeatMeets_keeps (a1 : List Nat) (a2 : Sample) (h : Keeps m s u) (hm : [.alert, .inputs, .cistern, .parts, .tiles, .ops, .tickets, .samples, .engines, .records, .early, .near, .rng] ⊆ m := by exact sub_ (by assumption) (by decide)) : Keeps m s (repeatMeets a1 u a2) := by
  unfold repeatMeets
  repeat' first
    | exact sub_ hm (by decide)
    | with_reducible assumption
    | with_reducible apply endSample_keeps
    | with_reducible refine keeps_foldl ?_ ?_
    | with_reducible refine keeps_ite_left ?_ ?_
    | intro _

theorem weightKey_keeps (h : Keeps m s u) (hm : [.wkey, .rng] ⊆ m := by exact sub_ (by assumption) (by decide)) : Keeps m s (weightKey u).2 := by
  unfold weightKey
  repeat' first
    | exact sub_ hm (by decide)
    | with_reducible assumption
    | with_reducible apply draw_keeps
    | with_reducible refine keeps_foldl ?_ ?_
    | with_reducible refine keeps_ite_left ?_ ?_
    | intro _
    | split
    | with_reducible refine keeps_mk ?_ rfl

theorem beginStream_keeps (a1 : WKey) (h : Keeps m s u) (hm : [.samples, .streams] ⊆ m := by exact sub_ (by assumption) (by decide)) : Keeps m s (beginStream u a1).2 := by
  unfold beginStream
  repeat' first
    | exact sub_ hm (by decide)
    | with_reducible assumption
    | with_reducible refine keeps_foldl ?_ ?_
    | with_reducible refine keeps_ite_left ?_ ?_
    | intro _
    | split
    | with_reducible refine keeps_mk ?_ rfl

theorem goodSegment_keeps (a1 : WtHdr) (a2 : List WtBeat) (h : Keeps m s u) (hm : [.alert, .inputs, .cistern, .parts, .tiles, .ops, .tickets, .samples, .engines, .streams, .wkey, .records, .early, .near, .big, .rng] ⊆ m := by exact sub_ (by assumption) (by decide)) : Keeps m s (goodSegment u a1 a2) := by
  unfold goodSegment
  refine checkStreams_keeps _ ?_
  refine keeps_ite_right (joinSegment_keeps _ _ _ _) ?_
  refine updStream_keeps _ _ _ ?_
  refine weightKey_keeps ?_
  refine keeps_foldl (fun _ _ hv => keeps_foldl (fun _ _ hw => feedSample_keeps _ _ _ _ hw) hv) ?_
  refine keeps_foldl (fun _ _ hv => segmentMeets_keeps _ _ _ hv) ?_
  split
  · exact beginStream_keeps _ h
  · dsimp only
    split
    · exact h
    · exact beginStream_keeps _ (endStream_keeps _ (keeps_foldl (fun _ _ hv => repeatMeets_keeps _ _ hv) h))

theorem takeSegment_keeps (a1 : Nat) (a2 : WtHdr) (a3 : List WtBeat) (a4 : Bool) (h : Keeps m s u) (hm : [.alert, .inputs, .cistern, .parts, .tiles, .ops, .tickets, .samples, .engines, .streams, .lastHdr, .wkey, .records, .early, .near, .portViols, .big, .rng] ⊆ m := by exact sub_ (by assumption) (by decide)) : Keeps m s (takeSegment u a1 a2 a3 a4) := by
  unfold takeSegment
  repeat' first
    | exact sub_ hm (by decide)
    | with_reducible assumption
    | with_reducible apply addBig_keeps
    | with_reducible apply badSegment_keeps
    | with_reducible apply headerCrosses_keeps
    | with_reducible apply goodSegment_keeps
    | with_reducible refine keeps_foldl ?_ ?_
    | with_reducible refine keeps_ite_left ?_ ?_
    | intro _

theorem execWeightSegment_keeps (a1 : Nat) (a2 : BitVec 512) (a3 : List WtBeat) (a4 : Bool) (h : Keeps m s u) (hm : [.alert, .inputs, .cistern, .parts, .tiles, .ops, .tickets, .samples, .engines, .streams, .lastHdr, .wkey, .records, .early, .near, .portViols, .big, .rng] ⊆ m := by exact sub_ (by assumption) (by decide)) : ∃ t, execWeightSegment a1 a2 a3 a4 u = .next t ∧ Keeps m s t := by
  refine ⟨_, rfl, ?_⟩
  repeat' first
    | exact sub_ hm (by decide)
    | with_reducible assumption
    | with_reducible apply takeSegment_keeps

theorem execEngineRow_keeps (a1 : Nat) (h : Keeps m s u) (hm : [.samples, .engines, .big] ⊆ m := by exact sub_ (by assumption) (by decide)) : ∃ t, execEngineRow a1 u = .next t ∧ Keeps m s t := by
  refine ⟨_, rfl, ?_⟩
  repeat' first
    | exact sub_ hm (by decide)
    | with_reducible assumption
    | with_reducible apply tryCompare_keeps
    | with_reducible apply processRow_keeps
    | with_reducible apply updEng_keeps
    | with_reducible refine keeps_foldl ?_ ?_
    | with_reducible refine keeps_ite_left ?_ ?_
    | intro _
    | split

theorem noticeIn_keeps (a1 a2 a3 a4 a5 : Nat) (a6 : W64) (h : Keeps m s u) (hm : [.alert, .keep, .inputs, .cistern, .parts, .tiles, .ops, .tickets, .samples, .engines, .records, .early, .near, .rng] ⊆ m := by exact sub_ (by assumption) (by decide)) : Keeps m s (noticeIn u a1 a2 a3 a4 a5 a6) := by
  unfold noticeIn
  repeat' first
    | exact sub_ hm (by decide)
    | with_reducible assumption
    | with_reducible apply onOp_keeps
    | with_reducible apply chargeTag_keeps
    | with_reducible apply addRpl_keeps
    | with_reducible apply promote_keeps
    | with_reducible apply armIfRoom_keeps
    | with_reducible apply endSample_keeps
    | with_reducible apply takeOver_keeps
    | with_reducible refine keeps_foldl ?_ ?_
    | with_reducible refine keeps_ite_left ?_ ?_
    | intro _
    | split
    | with_reducible refine keeps_mk ?_ rfl

theorem execSampleNotice_keeps (a1 : Nat) (h : Keeps m s u) (hm : [.alert, .keep, .inputs, .cistern, .parts, .tiles, .spires, .ops, .tickets, .samples, .engines, .caravan, .records, .early, .near, .rng] ⊆ m := by exact sub_ (by assumption) (by decide)) : ∃ t, execSampleNotice a1 u = .next t ∧ Keeps m s t := by
  refine ⟨_, rfl, ?_⟩
  repeat' first
    | exact sub_ hm (by decide)
    | with_reducible assumption
    | with_reducible refine takeMsg_keeps (by assumption) ?_
    | with_reducible apply noticeIn_keeps
    | with_reducible refine keeps_foldl ?_ ?_
    | with_reducible refine keeps_ite_left ?_ ?_
    | intro _
    | split

theorem storeWitness_keeps (a1 a2 a3 : Nat) (a4 : Sample → Sample) (h : Keeps m s u) (hm : [.alert, .inputs, .cistern, .parts, .tiles, .ops, .tickets, .samples, .engines, .records, .early, .near, .rng] ⊆ m := by exact sub_ (by assumption) (by decide)) : Keeps m s (storeWitness u a1 a2 a3 a4) := by
  unfold storeWitness
  repeat' first
    | exact sub_ hm (by decide)
    | with_reducible assumption
    | with_reducible apply addMeter_keeps
    | with_reducible apply addUse_keeps
    | with_reducible apply tryCompare_keeps
    | with_reducible apply updSample_keeps
    | with_reducible apply endSample_keeps
    | with_reducible apply refuseQuota_keeps
    | with_reducible refine keeps_foldl ?_ ?_
    | with_reducible refine keeps_ite_left ?_ ?_
    | intro _
    | split

theorem unstage_keeps (a1 a2 : Nat) (h : Keeps m s u) (hm : [.spires] ⊆ m := by exact sub_ (by assumption) (by decide)) : Keeps m s (unstage u a1 a2) := by
  unfold unstage
  repeat' first
    | exact sub_ hm (by decide)
    | with_reducible assumption
    | with_reducible apply updSp_keeps

theorem abandonIn_keeps (a1 a2 a3 : Nat) (a4 : Bool) (h : Keeps m s u) (hm : [.alert, .inputs, .cistern, .parts, .tiles, .ops, .tickets, .samples, .engines, .records, .early, .near, .rng] ⊆ m := by exact sub_ (by assumption) (by decide)) : Keeps m s (abandonIn u a1 a2 a3 a4) := by
  unfold abandonIn
  repeat' first
    | exact sub_ hm (by decide)
    | with_reducible assumption
    | with_reducible apply endSample_keeps
    | with_reducible refine keeps_foldl ?_ ?_
    | with_reducible refine keeps_ite_left ?_ ?_
    | intro _
    | split

theorem fragmentIn_keeps (a1 a2 a3 : Nat) (a4 : List Nat) (a5 : List Byte) (h : Keeps m s u) (hm : [.alert, .inputs, .cistern, .parts, .tiles, .spires, .ops, .tickets, .samples, .engines, .records, .early, .near, .rng] ⊆ m := by exact sub_ (by assumption) (by decide)) : Keeps m s (fragmentIn u a1 a2 a3 a4 a5) := by
  unfold fragmentIn
  repeat' first
    | exact sub_ hm (by decide)
    | with_reducible assumption
    | with_reducible apply storeWitness_keeps
    | with_reducible apply addBigSp_keeps
    | with_reducible apply unstage_keeps

theorem resultIn_keeps (a1 a2 a3 : Nat) (a4 : List Nat) (a5 : List Byte) (a6 : List (W32 × Byte)) (h : Keeps m s u) (hm : [.alert, .inputs, .cistern, .parts, .tiles, .spires, .ops, .tickets, .samples, .engines, .records, .early, .near, .rng] ⊆ m := by exact sub_ (by assumption) (by decide)) : Keeps m s (resultIn u a1 a2 a3 a4 a5 a6) := by
  unfold resultIn
  repeat' first
    | exact sub_ hm (by decide)
    | with_reducible assumption
    | with_reducible apply storeWitness_keeps
    | with_reducible apply addBigSp_keeps
    | with_reducible apply unstage_keeps

theorem execWitnessFragment_keeps (a1 : Nat) (h : Keeps m s u) (hm : [.alert, .inputs, .cistern, .parts, .tiles, .spires, .ops, .tickets, .samples, .engines, .caravan, .records, .early, .near, .rng] ⊆ m := by exact sub_ (by assumption) (by decide)) : ∃ t, execWitnessFragment a1 u = .next t ∧ Keeps m s t := by
  refine ⟨_, rfl, ?_⟩
  repeat' first
    | exact sub_ hm (by decide)
    | with_reducible assumption
    | with_reducible refine takeMsg_keeps (by assumption) ?_
    | with_reducible apply fragmentIn_keeps
    | with_reducible apply abandonIn_keeps
    | with_reducible refine keeps_foldl ?_ ?_
    | with_reducible refine keeps_ite_left ?_ ?_
    | intro _
    | split

theorem execResultCapture_keeps (a1 : Nat) (h : Keeps m s u) (hm : [.alert, .inputs, .cistern, .parts, .tiles, .spires, .ops, .tickets, .samples, .engines, .caravan, .records, .early, .near, .rng] ⊆ m := by exact sub_ (by assumption) (by decide)) : ∃ t, execResultCapture a1 u = .next t ∧ Keeps m s t := by
  refine ⟨_, rfl, ?_⟩
  repeat' first
    | exact sub_ hm (by decide)
    | with_reducible assumption
    | with_reducible refine takeMsg_keeps (by assumption) ?_
    | with_reducible apply resultIn_keeps
    | with_reducible apply abandonIn_keeps
    | with_reducible refine keeps_foldl ?_ ?_
    | with_reducible refine keeps_ite_left ?_ ?_
    | intro _
    | split

theorem recordMismatch_keeps (a1 : Sample) (a2 : OpV) (a3 : Compared) (h : Keeps m s u) (hm : [.alert, .inputs, .cistern, .parts, .ops, .tickets, .samples, .engines, .records, .early, .near, .rng] ⊆ m := by exact sub_ (by assumption) (by decide)) : Keeps m s (recordMismatch u a1 a2 a3) := by
  unfold recordMismatch
  repeat' first
    | exact sub_ hm (by decide)
    | with_reducible assumption
    | with_reducible apply updSample_keeps
    | with_reducible apply addRec_keeps
    | with_reducible apply countRpl_keeps
    | with_reducible apply freeEngine_keeps
    | with_reducible apply replayInput_keeps
    | with_reducible apply settle_keeps
    | with_reducible apply updOp_keeps
    | with_reducible refine keeps_foldl ?_ ?_
    | with_reducible refine keeps_ite_left ?_ ?_
    | intro _
    | split
    | with_reducible refine keeps_mk ?_ rfl

theorem execReplayCompare_keeps (a1 : Nat) (h : Keeps m s u) (hm : [.alert, .inputs, .cistern, .parts, .tiles, .ops, .tickets, .samples, .engines, .records, .early, .near, .erg, .rng] ⊆ m := by exact sub_ (by assumption) (by decide)) : ∃ t, execReplayCompare a1 u = .next t ∧ Keeps m s t := by
  refine ⟨_, rfl, ?_⟩
  repeat' first
    | exact sub_ hm (by decide)
    | with_reducible assumption
    | with_reducible apply onOp_keeps
    | with_reducible apply ergRlag_keeps
    | with_reducible apply endSample_keeps
    | with_reducible apply updSample_keeps
    | with_reducible apply recordMismatch_keeps
    | with_reducible refine keeps_foldl ?_ ?_
    | with_reducible refine keeps_ite_left ?_ ?_
    | intro _
    | split

theorem execReplayDeadline_keeps (a1 : Nat) (h : Keeps m s u) (hm : [.alert, .inputs, .cistern, .parts, .tiles, .ops, .tickets, .samples, .engines, .records, .early, .near, .rng] ⊆ m := by exact sub_ (by assumption) (by decide)) : ∃ t, execReplayDeadline a1 u = .next t ∧ Keeps m s t := by
  refine ⟨_, rfl, ?_⟩
  repeat' first
    | exact sub_ hm (by decide)
    | with_reducible assumption
    | with_reducible apply endSample_keeps
    | with_reducible refine keeps_foldl ?_ ?_
    | with_reducible refine keeps_ite_left ?_ ?_
    | intro _
    | split

theorem execConfirmationDeadline_keeps (a1 : Nat) (h : Keeps m s u) (hm : [.alert, .inputs, .cistern, .parts, .tiles, .ops, .tickets, .samples, .engines, .records, .early, .near, .rng] ⊆ m := by exact sub_ (by assumption) (by decide)) : ∃ t, execConfirmationDeadline a1 u = .next t ∧ Keeps m s t := by
  refine ⟨_, rfl, ?_⟩
  repeat' first
    | exact sub_ hm (by decide)
    | with_reducible assumption
    | with_reducible apply endSample_keeps
    | with_reducible refine keeps_foldl ?_ ?_
    | with_reducible refine keeps_ite_left ?_ ?_
    | intro _
    | split

theorem engineEffects_keeps (a1 : Sample) (a2 : List (List Nat × Nat × Nat)) (h : Keeps m s u) (hm : [.alert, .inputs, .cistern, .parts, .tiles, .ops, .tickets, .samples, .engines, .records, .early, .near, .rng] ⊆ m := by exact sub_ (by assumption) (by decide)) : Keeps m s (engineEffects u a1 a2) := by
  unfold engineEffects
  repeat' first
    | exact sub_ hm (by decide)
    | with_reducible assumption
    | with_reducible apply engineOut_keeps
    | with_reducible apply engineTestDue_keeps
    | with_reducible refine keeps_foldl ?_ ?_
    | with_reducible refine keeps_ite_left ?_ ?_
    | intro _

theorem execArbitration_keeps (a1 : Nat) (h : Keeps m s u) (hm : [.alert, .inputs, .cistern, .parts, .tiles, .ops, .tickets, .samples, .engines, .records, .early, .near, .rng] ⊆ m := by exact sub_ (by assumption) (by decide)) : ∃ t, execArbitration a1 u = .next t ∧ Keeps m s t := by
  refine ⟨_, rfl, ?_⟩
  repeat' first
    | exact sub_ hm (by decide)
    | with_reducible assumption
    | with_reducible apply onOp_keeps
    | with_reducible apply engineEffects_keeps
    | with_reducible apply endSample_keeps
    | with_reducible refine keeps_foldl ?_ ?_
    | with_reducible refine keeps_ite_left ?_ ?_
    | intro _
    | split

theorem execEngineSelfTest_keeps (a1 : Nat) (h : Keeps m s u) (hm : [.engines] ⊆ m := by exact sub_ (by assumption) (by decide)) : ∃ t, execEngineSelfTest a1 u = .next t ∧ Keeps m s t := by
  refine ⟨_, rfl, ?_⟩
  repeat' first
    | exact sub_ hm (by decide)
    | with_reducible assumption
    | with_reducible apply updEng_keeps
    | with_reducible refine keeps_foldl ?_ ?_
    | with_reducible refine keeps_ite_left ?_ ?_
    | intro _

theorem execEngineTestDone_keeps (a1 : Nat) (a2 : EngineRun) (h : Keeps m s u) (hm : [.alert, .inputs, .cistern, .parts, .tiles, .ops, .tickets, .samples, .engines, .records, .early, .near, .thermal, .rng] ⊆ m := by exact sub_ (by assumption) (by decide)) : ∃ t, execEngineTestDone a1 a2 u = .next t ∧ Keeps m s t := by
  refine ⟨_, rfl, ?_⟩
  have h1 := engineTest_keeps a1 a2 h (sub_ hm (by decide))
  repeat' first
    | exact sub_ hm (by decide)
    | with_reducible assumption
    | with_reducible apply updEng_keeps
    | with_reducible apply engineOut_keeps
    | with_reducible refine keeps_ite_left ?_ ?_
    | intro _

end Sys2Proof.Machine
end

