-- ==== Sys2Proof/Laws/KeepsFuse.lean ====
section
/-! SUPPORT. What each operation of Machine/Fuse.lean keeps. -/

set_option Elab.async false

namespace Sys2Proof.Machine

variable {m : List Fld} {s u : State}

theorem rangeInput_keeps (a1 : OpV) (a2 : Nat) (a3 a4 : Bool) (h : Keeps m s u) (hm : [.inputs] ⊆ m := by exact sub_ (by assumption) (by decide)) : Keeps m s (rangeInput u a1 a2 a3 a4) := by
  unfold rangeInput
  repeat' first
    | exact sub_ hm (by decide)
    | with_reducible assumption
    | with_reducible apply opInput_keeps
    | with_reducible refine keeps_foldl ?_ ?_
    | with_reducible refine keeps_ite_left ?_ ?_
    | intro _

theorem screenIn_keeps (a1 : OpV) (a2 : ScreenRes) (h : Keeps m s u) (hm : [.inputs, .parts] ⊆ m := by exact sub_ (by assumption) (by decide)) : Keeps m s (screenIn u a1 a2) := by
  unfold screenIn
  repeat' first
    | exact sub_ hm (by decide)
    | with_reducible assumption
    | with_reducible apply addDeficit_keeps
    | with_reducible apply opInput_keeps
    | with_reducible refine keeps_foldl ?_ ?_
    | with_reducible refine keeps_ite_left ?_ ?_
    | intro _

theorem screenRecs_keeps (a1 : Nat) (a2 : List Rec) (a3 : W64) (h : Keeps m s u) (hm : [.alert, .cistern, .parts, .domes, .caravan, .records, .early, .near, .erg] ⊆ m := by exact sub_ (by assumption) (by decide)) : Keeps m s (screenRecs u a1 a2 a3) := by
  unfold screenRecs
  repeat' first
    | exact sub_ hm (by decide)
    | with_reducible assumption
    | with_reducible apply updDome_keeps
    | with_reducible apply addRec_keeps
    | with_reducible apply ergVlat_keeps
    | with_reducible apply ergResid_keeps
    | with_reducible refine keeps_foldl ?_ ?_
    | with_reducible refine keeps_ite_left ?_ ?_
    | intro _
    | split
    | with_reducible refine keeps_mk ?_ rfl

theorem summaryIn_keeps (a1 : Nat) (a2 : List Rec) (a3 : ScreenRes) (a4 : Nat) (a5 a6 : Bool) (a7 a8 : W64) (h : Keeps m s u) (hm : [.alert, .inputs, .cistern, .parts, .domes, .ops, .tickets, .caravan, .records, .early, .near, .erg] ⊆ m := by exact sub_ (by assumption) (by decide)) : Keeps m s (summaryIn u a1 a2 a3 a4 a5 a6 a7 a8) := by
  unfold summaryIn
  repeat' first
    | exact sub_ hm (by decide)
    | with_reducible assumption
    | with_reducible apply screenRecs_keeps
    | with_reducible apply onOp_keeps
    | with_reducible apply updOp_keeps
    | with_reducible apply screenIn_keeps
    | with_reducible apply settle_keeps
    | with_reducible apply applyRerun_keeps
    | with_reducible apply rangeInput_keeps
    | with_reducible refine keeps_foldl ?_ ?_
    | with_reducible refine keeps_ite_left ?_ ?_
    | intro _

theorem execScrsum_keeps (a1 : Nat) (h : Keeps m s u) (hm : [.alert, .inputs, .cistern, .parts, .spires, .domes, .ops, .tickets, .caravan, .records, .early, .near, .erg] ⊆ m := by exact sub_ (by assumption) (by decide)) : ∃ t, execScrsum a1 u = .next t ∧ Keeps m s t := by
  refine ⟨_, rfl, ?_⟩
  repeat' first
    | exact sub_ hm (by decide)
    | with_reducible assumption
    | with_reducible refine takeMsg_keeps (by assumption) ?_
    | with_reducible apply summaryIn_keeps
    | with_reducible refine keeps_foldl ?_ ?_
    | with_reducible refine keeps_ite_left ?_ ?_
    | intro _
    | split

theorem envEvent_keeps (a1 : OpV) (a2 a3 : Nat) (a4 : Int) (h : Keeps m s u) (hm : [.alert, .inputs, .cistern, .parts, .ops, .records, .early, .near] ⊆ m := by exact sub_ (by assumption) (by decide)) : Keeps m s (envEvent u a1 a2 a3 a4) := by
  unfold envEvent
  repeat' first
    | exact sub_ hm (by decide)
    | with_reducible assumption
    | with_reducible apply updOp_keeps
    | with_reducible apply addRec_keeps
    | with_reducible apply opInput_keeps

theorem profileIn_keeps (a1 : Nat) (a2 : Rec) (a3 : Option Int) (a4 : List Nat) (h : Keeps m s u) (hm : [.alert, .inputs, .cistern, .parts, .ops, .records, .early, .near] ⊆ m := by exact sub_ (by assumption) (by decide)) : Keeps m s (profileIn u a1 a2 a3 a4) := by
  unfold profileIn
  repeat' first
    | exact sub_ hm (by decide)
    | with_reducible assumption
    | with_reducible apply onOp_keeps
    | with_reducible apply addRec_keeps
    | with_reducible apply updPart_keeps
    | with_reducible apply updCnt_keeps
    | with_reducible apply envEvent_keeps
    | with_reducible refine keeps_foldl ?_ ?_
    | with_reducible refine keeps_ite_left ?_ ?_
    | intro _
    | split

theorem execExpprof_keeps (a1 : Nat) (h : Keeps m s u) (hm : [.alert, .inputs, .cistern, .parts, .spires, .ops, .caravan, .records, .early, .near] ⊆ m := by exact sub_ (by assumption) (by decide)) : ∃ t, execExpprof a1 u = .next t ∧ Keeps m s t := by
  refine ⟨_, rfl, ?_⟩
  repeat' first
    | exact sub_ hm (by decide)
    | with_reducible assumption
    | with_reducible refine takeMsg_keeps (by assumption) ?_
    | with_reducible apply profileIn_keeps
    | with_reducible refine keeps_foldl ?_ ?_
    | with_reducible refine keeps_ite_left ?_ ?_
    | intro _
    | split

theorem accountIn_keeps (a1 : OpV) (a2 : List Nat) (h : Keeps m s u) (hm : [.parts] ⊆ m := by exact sub_ (by assumption) (by decide)) : Keeps m s (accountIn u a1 a2) := by
  unfold accountIn
  repeat' first
    | exact sub_ hm (by decide)
    | with_reducible assumption
    | with_reducible apply chargeTag_keeps

theorem digestsIn_keeps (a1 a2 : Nat) (a3 : W64) (a4 : Nat) (a5 : W64) (a6 : Option W64) (a7 : List Nat) (a8 : Bool) (h : Keeps m s u) (hm : [.parts] ⊆ m := by exact sub_ (by assumption) (by decide)) : Keeps m s (digestsIn u a1 a2 a3 a4 a5 a6 a7 a8) := by
  unfold digestsIn
  repeat' first
    | exact sub_ hm (by decide)
    | with_reducible assumption
    | with_reducible apply onOp_keeps
    | with_reducible apply accountIn_keeps
    | with_reducible apply enterDigests_keeps
    | with_reducible refine keeps_foldl ?_ ?_
    | with_reducible refine keeps_ite_left ?_ ?_
    | intro _

theorem execDigop_keeps (a1 : Nat) (h : Keeps m s u) (hm : [.parts, .spires, .caravan] ⊆ m := by exact sub_ (by assumption) (by decide)) : ∃ t, execDigop a1 u = .next t ∧ Keeps m s t := by
  refine ⟨_, rfl, ?_⟩
  repeat' first
    | exact sub_ hm (by decide)
    | with_reducible assumption
    | with_reducible refine takeMsg_keeps (by assumption) ?_
    | with_reducible apply digestsIn_keeps
    | with_reducible refine keeps_foldl ?_ ?_
    | with_reducible refine keeps_ite_left ?_ ?_
    | intro _
    | split

theorem deliverMsg_keeps (a1 : Msg) (h : Keeps m s u) (hm : [.alert, .keep, .inputs, .cistern, .parts, .tiles, .spires, .domes, .ops, .tickets, .samples, .engines, .caravan, .records, .early, .near, .erg, .rng] ⊆ m := by exact sub_ (by assumption) (by decide)) : Keeps m s (deliverMsg u a1) := by
  unfold deliverMsg
  repeat' first
    | exact sub_ hm (by decide)
    | with_reducible assumption
    | with_reducible apply noticeIn_keeps
    | with_reducible apply fragmentIn_keeps
    | with_reducible apply resultIn_keeps
    | with_reducible apply abandonIn_keeps
    | with_reducible apply summaryIn_keeps
    | with_reducible apply profileIn_keeps
    | with_reducible apply digestsIn_keeps
    | with_reducible refine keeps_foldl ?_ ?_
    | with_reducible refine keeps_ite_left ?_ ?_
    | intro _
    | split

theorem drainOne_keeps (h : Keeps m s u) (hm : [.alert, .keep, .inputs, .cistern, .parts, .tiles, .spires, .domes, .ops, .tickets, .samples, .engines, .caravan, .records, .early, .near, .erg, .rng] ⊆ m := by exact sub_ (by assumption) (by decide)) : Keeps m s (drainOne u) := by
  unfold drainOne
  repeat' first
    | exact sub_ hm (by decide)
    | with_reducible assumption
    | with_reducible apply deliverMsg_keeps
    | with_reducible apply leave_keeps
    | with_reducible refine keeps_foldl ?_ ?_
    | with_reducible refine keeps_ite_left ?_ ?_
    | intro _
    | split
    | with_reducible refine keeps_mk ?_ rfl

theorem drainAll_keeps (h : Keeps m s u) (hm : [.alert, .keep, .inputs, .cistern, .parts, .tiles, .spires, .domes, .ops, .tickets, .samples, .engines, .caravan, .records, .early, .near, .erg, .rng] ⊆ m := by exact sub_ (by assumption) (by decide)) : Keeps m s (drainAll u) := by
  unfold drainAll
  repeat' first
    | exact sub_ hm (by decide)
    | with_reducible assumption
    | with_reducible apply drainOne_keeps
    | with_reducible refine keeps_foldl ?_ ?_
    | with_reducible refine keeps_ite_left ?_ ?_
    | intro _

theorem execRerunDeadline_keeps (a1 : Nat) (a2 a3 : W16) (h : Keeps m s u) (hm : [.alert, .inputs, .cistern, .parts, .ops, .tickets, .records, .early, .near] ⊆ m := by exact sub_ (by assumption) (by decide)) : ∃ t, execRerunDeadline a1 a2 a3 u = .next t ∧ Keeps m s t := by
  refine ⟨_, rfl, ?_⟩
  repeat' first
    | exact sub_ hm (by decide)
    | with_reducible assumption
    | with_reducible apply standSuspect_keeps
    | with_reducible refine keeps_foldl ?_ ?_
    | with_reducible refine keeps_ite_left ?_ ?_
    | intro _
    | split

end Sys2Proof.Machine
end

