-- ==== Sys2Proof/Laws/KeepsOasis.lean ====
section
/-! SUPPORT. What each operation of Machine/Oasis.lean keeps. -/

set_option Elab.async false

namespace Sys2Proof.Machine

variable {m : List Fld} {s u : State}

theorem pruneOps_keeps (a1 : Nat) (h : Keeps m s u) (hm : [.ops] ⊆ m := by exact sub_ (by assumption) (by decide)) : Keeps m s (pruneOps u a1) := by
  unfold pruneOps
  repeat' first
    | exact sub_ hm (by decide)
    | with_reducible assumption
    | with_reducible refine keeps_foldl ?_ ?_
    | with_reducible refine keeps_ite_left ?_ ?_
    | intro _
    | split
    | with_reducible refine keeps_mk ?_ rfl

theorem detachOps_keeps (a1 : Nat) (h : Keeps m s u) (hm : [.ops] ⊆ m := by exact sub_ (by assumption) (by decide)) : Keeps m s (detachOps u a1) := by
  unfold detachOps
  repeat' first
    | exact sub_ hm (by decide)
    | with_reducible assumption
    | with_reducible refine keeps_foldl ?_ ?_
    | with_reducible refine keeps_ite_left ?_ ?_
    | intro _
    | split
    | with_reducible refine keeps_mk ?_ rfl

theorem detachOpen_keeps (a1 : Nat) (h : Keeps m s u) (hm : [.ops] ⊆ m := by exact sub_ (by assumption) (by decide)) : Keeps m s (detachOpen u a1) := by
  unfold detachOpen
  repeat' first
    | exact sub_ hm (by decide)
    | with_reducible assumption
    | with_reducible refine keeps_foldl ?_ ?_
    | with_reducible refine keeps_ite_left ?_ ?_
    | intro _
    | split
    | with_reducible refine keeps_mk ?_ rfl

theorem beginInterval_keeps (a1 : Nat) (h : Keeps m s u) (hm : [.parts, .ops] ⊆ m := by exact sub_ (by assumption) (by decide)) : Keeps m s (beginInterval u a1) := by
  unfold beginInterval
  repeat' first
    | exact sub_ hm (by decide)
    | with_reducible assumption
    | with_reducible apply pruneOps_keeps
    | with_reducible apply updPart_keeps

theorem freeNote_keeps (a1 : Nat) (a2 : Gen) (a3 : Bool) (h : Keeps m s u) (hm : [.parts, .near] ⊆ m := by exact sub_ (by assumption) (by decide)) : Keeps m s (freeNote u a1 a2 a3) := by
  unfold freeNote
  repeat' first
    | exact sub_ hm (by decide)
    | with_reducible assumption
    | with_reducible apply post_keeps

theorem refuseSeal_keeps (a1 a2 : Nat) (h : Keeps m s u) (hm : [.parts, .near] ⊆ m := by exact sub_ (by assumption) (by decide)) : Keeps m s (refuseSeal u a1 a2) := by
  unfold refuseSeal
  repeat' first
    | exact sub_ hm (by decide)
    | with_reducible assumption
    | with_reducible apply updPart_keeps
    | with_reducible apply post_keeps
    | with_reducible refine keeps_foldl ?_ ?_
    | with_reducible refine keeps_ite_left ?_ ?_
    | intro _
    | split

theorem makeSeal_keeps (a1 : Nat) (a2 : Window) (h : Keeps m s u) (hm : [.alert, .cistern, .parts, .tiles, .ops, .records, .early, .near] ⊆ m := by exact sub_ (by assumption) (by decide)) : Keeps m s (makeSeal u a1 a2) := by
  unfold makeSeal
  repeat' first
    | exact sub_ hm (by decide)
    | with_reducible assumption
    | with_reducible apply updPart_keeps
    | with_reducible apply nearPush_keeps
    | with_reducible apply beginInterval_keeps
    | with_reducible apply addRec_keeps
    | with_reducible apply post_keeps
    | with_reducible apply freeNote_keeps
    | with_reducible refine keeps_foldl ?_ ?_
    | with_reducible refine keeps_ite_left ?_ ?_
    | intro _
    | split
    | with_reducible refine keeps_mk ?_ rfl

theorem sealCheck_keeps (a1 : Nat) (h : Keeps m s u) (hm : [.alert, .cistern, .parts, .tiles, .ops, .records, .early, .near] ⊆ m := by exact sub_ (by assumption) (by decide)) : Keeps m s (sealCheck u a1) := by
  unfold sealCheck
  repeat' first
    | exact sub_ hm (by decide)
    | with_reducible assumption
    | with_reducible apply refuseSeal_keeps
    | with_reducible apply makeSeal_keeps
    | with_reducible refine keeps_foldl ?_ ?_
    | with_reducible refine keeps_ite_left ?_ ?_
    | intro _
    | split

theorem execSealTimeout_keeps (a1 : Nat) (h : Keeps m s u) (hm : [.parts, .near] ⊆ m := by exact sub_ (by assumption) (by decide)) : ∃ t, execSealTimeout a1 u = .next t ∧ Keeps m s t := by
  refine ⟨_, rfl, ?_⟩
  repeat' first
    | exact sub_ hm (by decide)
    | with_reducible assumption
    | with_reducible apply refuseSeal_keeps
    | with_reducible refine keeps_foldl ?_ ?_
    | with_reducible refine keeps_ite_left ?_ ?_
    | intro _
    | split

theorem postRollback_keeps (a1 : Nat) (h : Keeps m s u) (hm : [.parts, .near] ⊆ m := by exact sub_ (by assumption) (by decide)) : Keeps m s (postRollback u a1) := by
  unfold postRollback
  repeat' first
    | exact sub_ hm (by decide)
    | with_reducible assumption
    | with_reducible apply post_keeps
    | with_reducible refine keeps_foldl ?_ ?_
    | with_reducible refine keeps_ite_left ?_ ?_
    | intro _
    | split
    | with_reducible refine keeps_mk ?_ rfl

theorem startRollback_keeps (a1 : Nat) (a2 : Gen) (a3 : RbCause) (a4 : List Nat) (a5 a6 : Nat) (h : Keeps m s u) (hm : [.parts, .near] ⊆ m := by exact sub_ (by assumption) (by decide)) : Keeps m s (startRollback u a1 a2 a3 a4 a5 a6) := by
  unfold startRollback
  repeat' first
    | exact sub_ hm (by decide)
    | with_reducible assumption
    | with_reducible apply updPart_keeps
    | with_reducible apply postRollback_keeps

theorem rollback_keeps (a1 : Nat) (a2 : RbCause) (a3 : Option W16) (a4 a5 : Nat) (h : Keeps m s u) (hm : [.parts, .ops, .near] ⊆ m := by exact sub_ (by assumption) (by decide)) : Keeps m s (rollback u a1 a2 a3 a4 a5) := by
  unfold rollback
  repeat' first
    | exact sub_ hm (by decide)
    | with_reducible assumption
    | with_reducible apply refuseSeal_keeps
    | with_reducible apply startRollback_keeps
    | with_reducible apply detachOpen_keeps
    | with_reducible apply post_keeps
    | with_reducible apply updPart_keeps
    | with_reducible refine keeps_foldl ?_ ?_
    | with_reducible refine keeps_ite_left ?_ ?_
    | intro _
    | split

theorem execRollbackRepost_keeps (a1 : Nat) (h : Keeps m s u) (hm : [.parts, .near] ⊆ m := by exact sub_ (by assumption) (by decide)) : ∃ t, execRollbackRepost a1 u = .next t ∧ Keeps m s t := by
  refine ⟨_, rfl, ?_⟩
  repeat' first
    | exact sub_ hm (by decide)
    | with_reducible assumption
    | with_reducible apply postRollback_keeps
    | with_reducible refine keeps_foldl ?_ ?_
    | with_reducible refine keeps_ite_left ?_ ?_
    | intro _
    | split

theorem failRestore_keeps (a1 : Nat) (a2 : RecKind) (a3 : List Nat) (h : Keeps m s u) (hm : [.alert, .cistern, .parts, .records, .early, .near] ⊆ m := by exact sub_ (by assumption) (by decide)) : Keeps m s (failRestore u a1 a2 a3) := by
  unfold failRestore
  repeat' first
    | exact sub_ hm (by decide)
    | with_reducible assumption
    | with_reducible apply updPart_keeps
    | with_reducible apply alert_keeps
    | with_reducible apply addRec_keeps
    | with_reducible apply post_keeps

theorem execRollbackTimeout_keeps (a1 : Nat) (h : Keeps m s u) (hm : [.alert, .cistern, .parts, .records, .early, .near] ⊆ m := by exact sub_ (by assumption) (by decide)) : ∃ t, execRollbackTimeout a1 u = .next t ∧ Keeps m s t := by
  refine ⟨_, rfl, ?_⟩
  repeat' first
    | exact sub_ hm (by decide)
    | with_reducible assumption
    | with_reducible apply failRestore_keeps
    | with_reducible refine keeps_foldl ?_ ?_
    | with_reducible refine keeps_ite_left ?_ ?_
    | intro _
    | split

theorem restored_keeps (a1 : Nat) (a2 : Rollback) (h : Keeps m s u) (hm : [.alert, .talloc, .cistern, .parts, .ops, .tallies, .tallyQ, .records, .early, .near] ⊆ m := by exact sub_ (by assumption) (by decide)) : Keeps m s (restored u a1 a2) := by
  unfold restored
  repeat' first
    | exact sub_ hm (by decide)
    | with_reducible assumption
    | with_reducible apply addRec_keeps
    | with_reducible apply alert_keeps
    | with_reducible apply updPart_keeps
    | with_reducible apply freeTallies_keeps
    | with_reducible apply beginInterval_keeps
    | with_reducible apply detachOps_keeps
    | with_reducible apply post_keeps
    | with_reducible refine keeps_foldl ?_ ?_
    | with_reducible refine keeps_ite_left ?_ ?_
    | intro _

theorem restoreCheck_keeps (a1 : Nat) (h : Keeps m s u) (hm : [.alert, .talloc, .cistern, .parts, .ops, .tallies, .tallyQ, .records, .early, .near] ⊆ m := by exact sub_ (by assumption) (by decide)) : Keeps m s (restoreCheck u a1) := by
  unfold restoreCheck
  repeat' first
    | exact sub_ hm (by decide)
    | with_reducible assumption
    | with_reducible apply restored_keeps
    | with_reducible apply freeNote_keeps
    | with_reducible apply updPart_keeps
    | with_reducible apply startRollback_keeps
    | with_reducible apply failRestore_keeps
    | with_reducible refine keeps_foldl ?_ ?_
    | with_reducible refine keeps_ite_left ?_ ?_
    | intro _
    | split
    | with_reducible refine keeps_mk ?_ rfl

theorem ckptOpen_keeps (a1 : Nat) (h : Keeps m s u) (hm : [.parts, .rng] ⊆ m := by exact sub_ (by assumption) (by decide)) : Keeps m s (ckptOpen u a1) := by
  unfold ckptOpen
  repeat' first
    | exact sub_ hm (by decide)
    | with_reducible assumption
    | with_reducible apply draw_keeps
    | with_reducible apply updPart_keeps
    | with_reducible refine keeps_foldl ?_ ?_
    | with_reducible refine keeps_ite_left ?_ ?_
    | intro _

theorem ckptWritten_keeps (a1 : Nat) (h : Keeps m s u) (hm : [.parts] ⊆ m := by exact sub_ (by assumption) (by decide)) : Keeps m s (ckptWritten u a1) := by
  unfold ckptWritten
  repeat' first
    | exact sub_ hm (by decide)
    | with_reducible assumption
    | with_reducible apply updPart_keeps

theorem ckptRead_keeps (a1 : Nat) (h : Keeps m s u) (hm : [.parts] ⊆ m := by exact sub_ (by assumption) (by decide)) : Keeps m s (ckptRead u a1) := by
  unfold ckptRead
  repeat' first
    | exact sub_ hm (by decide)
    | with_reducible assumption
    | with_reducible apply updPart_keeps

theorem restoreBegin_keeps (a1 : Nat) (h : Keeps m s u) (hm : [.parts] ⊆ m := by exact sub_ (by assumption) (by decide)) : Keeps m s (restoreBegin u a1) := by
  unfold restoreBegin
  repeat' first
    | exact sub_ hm (by decide)
    | with_reducible assumption
    | with_reducible apply updPart_keeps

theorem restoreEnd_keeps (a1 : Nat) (h : Keeps m s u) (hm : [.parts] ⊆ m := by exact sub_ (by assumption) (by decide)) : Keeps m s (restoreEnd u a1) := by
  unfold restoreEnd
  repeat' first
    | exact sub_ hm (by decide)
    | with_reducible assumption
    | with_reducible apply updPart_keeps

theorem jobStart_keeps (a1 : Nat) (h : Keeps m s u) (hm : [.parts, .ops, .near, .trc] ⊆ m := by exact sub_ (by assumption) (by decide)) : Keeps m s (jobStart u a1) := by
  unfold jobStart
  repeat' first
    | exact sub_ hm (by decide)
    | with_reducible assumption
    | with_reducible apply subUse_keeps
    | with_reducible apply updPart_keeps
    | with_reducible apply freeNote_keeps
    | with_reducible apply dumpOver_keeps
    | with_reducible apply beginInterval_keeps
    | with_reducible apply detachOps_keeps
    | with_reducible refine keeps_foldl ?_ ?_
    | with_reducible refine keeps_ite_left ?_ ?_
    | intro _
    | split

theorem execCkptOpen_keeps (a1 : Nat) (h : Keeps m s u) (hm : [.parts, .rng] ⊆ m := by exact sub_ (by assumption) (by decide)) : ∃ t, execCkptOpen a1 u = .next t ∧ Keeps m s t := by
  refine ⟨_, rfl, ?_⟩
  repeat' first
    | exact sub_ hm (by decide)
    | with_reducible assumption
    | with_reducible apply ckptOpen_keeps

theorem execCkptWritten_keeps (a1 : Nat) (h : Keeps m s u) (hm : [.parts] ⊆ m := by exact sub_ (by assumption) (by decide)) : ∃ t, execCkptWritten a1 u = .next t ∧ Keeps m s t := by
  refine ⟨_, rfl, ?_⟩
  repeat' first
    | exact sub_ hm (by decide)
    | with_reducible assumption
    | with_reducible apply ckptWritten_keeps

theorem execCkptRead_keeps (a1 : Nat) (h : Keeps m s u) (hm : [.parts] ⊆ m := by exact sub_ (by assumption) (by decide)) : ∃ t, execCkptRead a1 u = .next t ∧ Keeps m s t := by
  refine ⟨_, rfl, ?_⟩
  repeat' first
    | exact sub_ hm (by decide)
    | with_reducible assumption
    | with_reducible apply ckptRead_keeps

theorem execRestoreBegin_keeps (a1 : Nat) (h : Keeps m s u) (hm : [.parts] ⊆ m := by exact sub_ (by assumption) (by decide)) : ∃ t, execRestoreBegin a1 u = .next t ∧ Keeps m s t := by
  refine ⟨_, rfl, ?_⟩
  repeat' first
    | exact sub_ hm (by decide)
    | with_reducible assumption
    | with_reducible apply restoreBegin_keeps

theorem execRestoreEnd_keeps (a1 : Nat) (h : Keeps m s u) (hm : [.parts] ⊆ m := by exact sub_ (by assumption) (by decide)) : ∃ t, execRestoreEnd a1 u = .next t ∧ Keeps m s t := by
  refine ⟨_, rfl, ?_⟩
  repeat' first
    | exact sub_ hm (by decide)
    | with_reducible assumption
    | with_reducible apply restoreEnd_keeps

theorem execJobStart_keeps (a1 : Nat) (h : Keeps m s u) (hm : [.parts, .ops, .near, .trc] ⊆ m := by exact sub_ (by assumption) (by decide)) : ∃ t, execJobStart a1 u = .next t ∧ Keeps m s t := by
  refine ⟨_, rfl, ?_⟩
  repeat' first
    | exact sub_ hm (by decide)
    | with_reducible assumption
    | with_reducible apply jobStart_keeps
    | with_reducible refine keeps_foldl ?_ ?_
    | with_reducible refine keeps_ite_left ?_ ?_
    | intro _

theorem mtViol_keeps (a1 : MtLine) (a2 : Byte) (h : Keeps m s u) (hm : [.alert, .inputs, .cistern, .parts, .records, .early, .near, .portViols, .rng] ⊆ m := by exact sub_ (by assumption) (by decide)) : Keeps m s (mtViol u a1 a2) := by
  unfold mtViol
  repeat' first
    | exact sub_ hm (by decide)
    | with_reducible assumption
    | with_reducible apply draw_keeps
    | with_reducible apply updPart_keeps
    | with_reducible apply portViol_keeps
    | with_reducible refine keeps_foldl ?_ ?_
    | with_reducible refine keeps_ite_left ?_ ?_
    | intro _
    | split

theorem takeWriteLine_keeps (a1 : MtLine) (h : Keeps m s u) (hm : [.alert, .inputs, .cistern, .parts, .records, .early, .near, .portViols, .rng] ⊆ m := by exact sub_ (by assumption) (by decide)) : Keeps m s (takeWriteLine u a1) := by
  unfold takeWriteLine
  repeat' first
    | exact sub_ hm (by decide)
    | with_reducible assumption
    | with_reducible apply mtViol_keeps
    | with_reducible apply updPart_keeps
    | with_reducible refine keeps_foldl ?_ ?_
    | with_reducible refine keeps_ite_left ?_ ?_
    | intro _
    | split
    | with_reducible refine keeps_mk ?_ rfl

theorem takeReadLine_keeps (a1 : MtLine) (h : Keeps m s u) (hm : [.parts, .big] ⊆ m := by exact sub_ (by assumption) (by decide)) : Keeps m s (takeReadLine u a1) := by
  unfold takeReadLine
  repeat' first
    | exact sub_ hm (by decide)
    | with_reducible assumption
    | with_reducible apply addBig_keeps
    | with_reducible apply updCnt_keeps
    | with_reducible apply updPart_keeps
    | with_reducible refine keeps_foldl ?_ ?_
    | with_reducible refine keeps_ite_left ?_ ?_
    | intro _
    | split
    | with_reducible refine keeps_mk ?_ rfl

theorem execMemtapLine_keeps (a1 : MtLine) (h : Keeps m s u) (hm : [.alert, .inputs, .cistern, .parts, .records, .early, .near, .portViols, .big, .rng] ⊆ m := by exact sub_ (by assumption) (by decide)) : ∃ t, execMemtapLine a1 u = .next t ∧ Keeps m s t := by
  refine ⟨_, rfl, ?_⟩
  repeat' first
    | exact sub_ hm (by decide)
    | with_reducible assumption
    | with_reducible apply addBig_keeps
    | with_reducible apply takeWriteLine_keeps
    | with_reducible apply takeReadLine_keeps
    | with_reducible refine keeps_foldl ?_ ?_
    | with_reducible refine keeps_ite_left ?_ ?_
    | intro _

end Sys2Proof.Machine
end

