-- ==== Sys2Proof/Laws/KeepsNvm.lean ====
section
/-! SUPPORT. What each operation of Machine/Nvm.lean keeps. -/

set_option Elab.async false

namespace Sys2Proof.Machine

variable {m : List Fld} {s u : State}

theorem writeRepair_keeps (h : Keeps m s u) (hm : [.nvm] ⊆ m := by exact sub_ (by assumption) (by decide)) : Keeps m s (writeRepair u) := by
  unfold writeRepair
  repeat' first
    | exact sub_ hm (by decide)
    | with_reducible assumption
    | with_reducible refine keeps_foldl ?_ ?_
    | with_reducible refine keeps_ite_left ?_ ?_
    | intro _
    | split
    | with_reducible refine keeps_mk ?_ rfl

theorem writeSnapshot_keeps (h : Keeps m s u) (hm : [.nvm] ⊆ m := by exact sub_ (by assumption) (by decide)) : Keeps m s (writeSnapshot u) := by
  unfold writeSnapshot
  repeat' first
    | exact sub_ hm (by decide)
    | with_reducible assumption
    | with_reducible refine keeps_foldl ?_ ?_
    | with_reducible refine keeps_ite_left ?_ ?_
    | intro _
    | split
    | with_reducible refine keeps_mk ?_ rfl

end Sys2Proof.Machine
end

