-- ==== Sys2Proof/Laws/KeepsSelfTest.lean ====
section
/-! SUPPORT. What each operation of Machine/SelfTest.lean keeps. -/

set_option Elab.async false

namespace Sys2Proof.Machine

variable {m : List Fld} {s u : State}

theorem pushReq_keeps (a1 : Nat) (a2 : SliceReq) (h : Keeps m s u) (hm : [.tiles] ⊆ m := by exact sub_ (by assumption) (by decide)) : Keeps m s (pushReq u a1 a2) := by
  unfold pushReq
  repeat' first
    | exact sub_ hm (by decide)
    | with_reducible assumption
    | exact Tile.Stays.of_eq rfl rfl
    | with_reducible apply updTile_keeps
    | with_reducible refine keeps_foldl ?_ ?_
    | with_reducible refine keeps_ite_left ?_ ?_
    | intro _

theorem requestSlices_keeps (a1 a2 : Nat) (h : Keeps m s u) (hm : [.tiles] ⊆ m := by exact sub_ (by assumption) (by decide)) : Keeps m s (requestSlices u a1 a2) := by
  unfold requestSlices
  repeat' first
    | exact sub_ hm (by decide)
    | with_reducible assumption
    | exact Tile.Stays.of_eq rfl rfl
    | with_reducible apply onTile_keeps
    | with_reducible apply updTile_keeps
    | with_reducible apply pushReq_keeps
    | with_reducible refine keeps_foldl ?_ ?_
    | with_reducible refine keeps_ite_left ?_ ?_
    | intro _

theorem reqReport_keeps (a1 : SliceReq) (a2 a3 : Nat) (h : Keeps m s u) (hm : [.cmd, .cmds] ⊆ m := by exact sub_ (by assumption) (by decide)) : Keeps m s (reqReport u a1 a2 a3) := by
  unfold reqReport
  repeat' first
    | exact sub_ hm (by decide)
    | with_reducible assumption
    | with_reducible apply cmdFinish_keeps
    | with_reducible refine keeps_foldl ?_ ?_
    | with_reducible refine keeps_ite_left ?_ ?_
    | intro _
    | split

theorem sliceOff_keeps (a1 : Nat) (h : Keeps m s u) (hm : [.alert, .cmd, .cmds, .cistern, .parts, .tiles, .domes, .caravan, .records, .early, .near] ⊆ m := by exact sub_ (by assumption) (by decide)) : Keeps m s (sliceOff u a1) := by
  unfold sliceOff
  repeat' first
    | exact sub_ hm (by decide)
    | with_reducible assumption
    | exact Tile.Stays.of_eq rfl rfl
    | with_reducible apply sendTestOff_keeps
    | with_reducible apply updTile_keeps
    | with_reducible refine keeps_foldl ?_ ?_
    | with_reducible refine keeps_ite_left ?_ ?_
    | intro _

theorem endReq_keeps (a1 a2 : Nat) (h : Keeps m s u) (hm : [.alert, .cmd, .cmds, .cistern, .parts, .tiles, .domes, .caravan, .records, .early, .near] ⊆ m := by exact sub_ (by assumption) (by decide)) : Keeps m s (endReq u a1 a2) := by
  unfold endReq
  repeat' first
    | exact sub_ hm (by decide)
    | with_reducible assumption
    | exact Tile.Stays.of_eq rfl rfl
    | with_reducible apply onTile_keeps
    | with_reducible apply sliceOff_keeps
    | with_reducible apply updTile_keeps
    | with_reducible apply reqReport_keeps
    | with_reducible refine keeps_foldl ?_ ?_
    | with_reducible refine keeps_ite_left ?_ ?_
    | intro _
    | split

theorem startSlice_keeps (a1 : Nat) (h : Keeps m s u) (hm : [.alert, .cmd, .cmds, .cistern, .parts, .tiles, .spires, .domes, .caravan, .records, .early, .near] ⊆ m := by exact sub_ (by assumption) (by decide)) : Keeps m s (startSlice u a1) := by
  unfold startSlice
  repeat' first
    | exact sub_ hm (by decide)
    | with_reducible assumption
    | exact Tile.Stays.of_eq rfl rfl
    | with_reducible apply onTile_keeps
    | with_reducible apply updTile_keeps
    | with_reducible apply tryBegin_keeps
    | with_reducible apply sendTest_keeps
    | with_reducible apply cmdState_keeps
    | with_reducible refine keeps_foldl ?_ ?_
    | with_reducible refine keeps_ite_left ?_ ?_
    | intro _
    | split

theorem domeSlices_keeps (a1 : Nat) (h : Keeps m s u) (hm : [.alert, .cmd, .cmds, .cistern, .parts, .tiles, .spires, .domes, .caravan, .records, .early, .near] ⊆ m := by exact sub_ (by assumption) (by decide)) : Keeps m s (domeSlices u a1) := by
  unfold domeSlices
  repeat' first
    | exact sub_ hm (by decide)
    | with_reducible assumption
    | with_reducible apply startSlice_keeps
    | with_reducible refine keeps_foldl ?_ ?_
    | with_reducible refine keeps_ite_left ?_ ?_
    | intro _

theorem engineSlice_keeps (a1 : Nat) (h : Keeps m s u) (hm : [.engines] ⊆ m := by exact sub_ (by assumption) (by decide)) : Keeps m s (engineSlice u a1) := by
  unfold engineSlice
  repeat' first
    | exact sub_ hm (by decide)
    | with_reducible assumption
    | with_reducible apply updEng_keeps
    | with_reducible refine keeps_foldl ?_ ?_
    | with_reducible refine keeps_ite_left ?_ ?_
    | intro _

theorem sliceTick_keeps (h : Keeps m s u) (hm : [.alert, .cmd, .cmds, .cistern, .parts, .tiles, .spires, .domes, .engines, .caravan, .records, .early, .near] ⊆ m := by exact sub_ (by assumption) (by decide)) : Keeps m s (sliceTick u) := by
  unfold sliceTick
  repeat' first
    | exact sub_ hm (by decide)
    | with_reducible assumption
    | with_reducible apply domeSlices_keeps
    | with_reducible apply engineSlice_keeps
    | with_reducible refine keeps_foldl ?_ ?_
    | with_reducible refine keeps_ite_left ?_ ?_
    | intro _

theorem sdtCount_keeps (a1 : Bool) (h : Keeps m s u) (hm : [.thermal] ⊆ m := by exact sub_ (by assumption) (by decide)) : Keeps m s (sdtCount u a1) := by
  unfold sdtCount
  repeat' first
    | exact sub_ hm (by decide)
    | with_reducible assumption
    | with_reducible refine keeps_foldl ?_ ?_
    | with_reducible refine keeps_ite_left ?_ ?_
    | intro _
    | split
    | with_reducible refine keeps_mk ?_ rfl

theorem reinit_keeps (a1 : Nat) (a2 : GoldenEntry) (a3 : Bool) (h : Keeps m s u) (hm : [.tiles, .spires] ⊆ m := by exact sub_ (by assumption) (by decide)) : Keeps m s (reinit u a1 a2 a3) := by
  unfold reinit
  repeat' first
    | exact sub_ hm (by decide)
    | with_reducible assumption
    | exact Tile.Stays.of_eq rfl rfl
    | with_reducible apply updTile_keeps
    | with_reducible apply updSp_keeps
    | with_reducible refine keeps_foldl ?_ ?_
    | with_reducible refine keeps_ite_left ?_ ?_
    | intro _

theorem repairWanted_keeps (a1 : Nat) (a2 : Option Nat) (h : Keeps m s u) (hm : [.nvm] ⊆ m := by exact sub_ (by assumption) (by decide)) : Keeps m s (repairWanted u a1 a2) :=
  keeps_mk h rfl

theorem slicePassed_keeps (a1 : Nat) (a2 : SliceRun) (h : Keeps m s u) (hm : [.alert, .cmd, .cmds, .cistern, .parts, .tiles, .domes, .caravan, .records, .early, .near, .thermal] ⊆ m := by exact sub_ (by assumption) (by decide)) : Keeps m s (slicePassed u a1 a2) := by
  unfold slicePassed
  repeat' first
    | exact sub_ hm (by decide)
    | with_reducible assumption
    | exact Tile.Stays.of_eq rfl rfl
    | with_reducible apply sdtCount_keeps
    | with_reducible apply thmCount_keeps
    | with_reducible apply updTile_keeps
    | with_reducible apply onTile_keeps
    | with_reducible apply endReq_keeps
    | with_reducible apply sliceOff_keeps
    | with_reducible refine keeps_foldl ?_ ?_
    | with_reducible refine keeps_ite_left ?_ ?_
    | intro _
    | split

theorem solidAgain_keeps (a1 a2 : Nat) (h : Keeps m s u) (hm : [.nvm] ⊆ m := by exact sub_ (by assumption) (by decide)) : Keeps m s (solidAgain u a1 a2) := by
  unfold solidAgain
  repeat' first
    | exact sub_ hm (by decide)
    | with_reducible assumption
    | with_reducible refine keeps_foldl ?_ ?_
    | with_reducible refine keeps_ite_left ?_ ?_
    | intro _
    | split
    | with_reducible refine keeps_mk ?_ rfl

theorem sliceFailed_keeps (a1 : Nat) (a2 : GoldenEntry) (a3 : SliceRun) (a4 : Bool) (a5 : W64) (a6 : W32) (h : Keeps m s u) (hm : [.alert, .cmd, .inputs, .cmds, .cistern, .nvm, .parts, .tiles, .domes, .caravan, .records, .early, .near, .thermal] ⊆ m := by exact sub_ (by assumption) (by decide)) : Keeps m s (sliceFailed u a1 a2 a3 a4 a5 a6) := by
  unfold sliceFailed
  repeat' first
    | exact sub_ hm (by decide)
    | with_reducible assumption
    | exact Tile.Stays.of_eq rfl rfl
    | with_reducible apply sdtCount_keeps
    | with_reducible apply thmCount_keeps
    | with_reducible apply addRec_keeps
    | with_reducible apply tileInput_keeps
    | with_reducible apply updTile_keeps
    | with_reducible apply endReq_keeps
    | with_reducible apply solidAgain_keeps
    | with_reducible apply repairWanted_keeps
    | with_reducible refine keeps_foldl ?_ ?_
    | with_reducible refine keeps_ite_left ?_ ?_
    | intro _

theorem checkerFailed_keeps (a1 : Nat) (e : GoldenEntry) (sig : W64) (us : W32) (h : Keeps m s u) (hm : [.alert, .cmd, .inputs, .cmds, .cistern, .nvm, .parts, .tiles, .spires, .domes, .caravan, .records, .early, .near] ⊆ m := by exact sub_ (by assumption) (by decide)) :
    Keeps m s (checkerFailed u a1 e sig us) := by
  unfold checkerFailed
  repeat' first
    | exact sub_ hm (by decide)
    | with_reducible assumption
    | with_reducible apply endReq_keeps
    | with_reducible apply repairWanted_keeps
    | with_reducible apply tileInput_keeps
    | with_reducible apply reinit_keeps
    | with_reducible apply updWrap_keeps
    | with_reducible apply addMeter_keeps

theorem tileSliceEnd_keeps (a1 : Nat) (a2 : Option W64) (a3 : W32) (h : Keeps m s u) (hm : [.alert, .cmd, .inputs, .cmds, .cistern, .nvm, .parts, .tiles, .spires, .domes, .caravan, .records, .early, .near, .thermal] ⊆ m := by exact sub_ (by assumption) (by decide)) : Keeps m s (tileSliceEnd u a1 a2 a3) := by
  unfold tileSliceEnd
  repeat' first
    | exact sub_ hm (by decide)
    | with_reducible assumption
    | exact Tile.Stays.of_eq rfl rfl
    | with_reducible apply onTile_keeps
    | with_reducible apply updWrap_keeps
    | with_reducible apply addMeter_keeps
    | with_reducible apply slicePassed_keeps
    | with_reducible apply reinit_keeps
    | with_reducible apply tryBegin_keeps
    | with_reducible apply updTile_keeps
    | with_reducible apply sliceFailed_keeps
    | with_reducible refine keeps_foldl ?_ ?_
    | with_reducible refine keeps_ite_left ?_ ?_
    | intro _
    | split
    | with_reducible refine keeps_mk ?_ rfl

theorem engSliceEnd_keeps (a1 : Nat) (a2 : Option W64) (a3 : W32) (h : Keeps m s u) (hm : [.alert, .inputs, .cistern, .parts, .tiles, .ops, .tickets, .samples, .engines, .records, .early, .near, .thermal, .rng] ⊆ m := by exact sub_ (by assumption) (by decide)) : Keeps m s (engSliceEnd u a1 a2 a3) := by
  unfold engSliceEnd
  repeat' first
    | exact sub_ hm (by decide)
    | with_reducible assumption
    | with_reducible apply addMeter_keeps
    | with_reducible apply updEng_keeps
    | with_reducible apply engineOut_keeps
    | with_reducible apply engSliceFail_keeps
    | with_reducible apply sdtCount_keeps
    | with_reducible apply thmCount_keeps
    | with_reducible refine keeps_foldl ?_ ?_
    | with_reducible refine keeps_ite_left ?_ ?_
    | intro _
    | split
    | with_reducible refine keeps_mk ?_ rfl

theorem unitSliceEnd_keeps (a1 : TestUnit) (a2 : Option W64) (a3 : W32) (h : Keeps m s u) (hm : [.alert, .cmd, .inputs, .cmds, .cistern, .nvm, .parts, .tiles, .spires, .domes, .ops, .tickets, .samples, .engines, .caravan, .records, .early, .near, .thermal, .rng] ⊆ m := by exact sub_ (by assumption) (by decide)) : Keeps m s (unitSliceEnd u a1 a2 a3) := by
  unfold unitSliceEnd
  repeat' first
    | exact sub_ hm (by decide)
    | with_reducible assumption
    | with_reducible apply tileSliceEnd_keeps
    | with_reducible apply engSliceEnd_keeps
    | with_reducible refine keeps_foldl ?_ ?_
    | with_reducible refine keeps_ite_left ?_ ?_
    | intro _
    | split

theorem execDonePoll_keeps (a1 : TestUnit) (a2 : Bool) (h : Keeps m s u) (hm : [.tiles, .spires, .engines] ⊆ m := by exact sub_ (by assumption) (by decide)) : ∃ t, execDonePoll a1 a2 u = .next t ∧ Keeps m s t := by
  refine ⟨_, rfl, ?_⟩
  repeat' first
    | exact sub_ hm (by decide)
    | with_reducible assumption
    | exact Tile.Stays.of_eq rfl rfl
    | with_reducible apply updTile_keeps
    | with_reducible apply updWrap_keeps
    | with_reducible apply updEng_keeps
    | with_reducible refine keeps_foldl ?_ ?_
    | with_reducible refine keeps_ite_left ?_ ?_
    | intro _
    | split

theorem execSliceDone_keeps (a1 : TestUnit) (a2 : SliceEnd) (a3 : W32) (h : Keeps m s u) (hm : [.alert, .cmd, .inputs, .cmds, .cistern, .nvm, .parts, .tiles, .spires, .domes, .ops, .tickets, .samples, .engines, .caravan, .records, .early, .near, .thermal, .rng] ⊆ m := by exact sub_ (by assumption) (by decide)) : ∃ t, execSliceDone a1 a2 a3 u = .next t ∧ Keeps m s t := by
  refine ⟨_, rfl, ?_⟩
  repeat' first
    | exact sub_ hm (by decide)
    | with_reducible assumption
    | with_reducible apply onTile_keeps
    | with_reducible apply checkerFailed_keeps
    | with_reducible apply unitSliceEnd_keeps
    | with_reducible refine keeps_foldl ?_ ?_
    | with_reducible refine keeps_ite_left ?_ ?_
    | intro _
    | split

theorem execSliceTimeout_keeps (a1 : TestUnit) (h : Keeps m s u) (hm : [.alert, .cmd, .inputs, .cmds, .cistern, .nvm, .parts, .tiles, .spires, .domes, .ops, .tickets, .samples, .engines, .caravan, .records, .early, .near, .thermal, .rng] ⊆ m := by exact sub_ (by assumption) (by decide)) : ∃ t, execSliceTimeout a1 u = .next t ∧ Keeps m s t := by
  refine ⟨_, rfl, ?_⟩
  repeat' first
    | exact sub_ hm (by decide)
    | with_reducible assumption
    | with_reducible apply onTile_keeps
    | with_reducible apply tapViol_keeps
    | with_reducible apply unitSliceEnd_keeps
    | with_reducible apply addRec_keeps
    | with_reducible refine keeps_foldl ?_ ?_
    | with_reducible refine keeps_ite_left ?_ ?_
    | intro _
    | split

theorem abortSlice_keeps (a1 : Tile) (h : Keeps m s u) (hm : [.alert, .cmd, .cmds, .cistern, .parts, .tiles, .spires, .domes, .caravan, .records, .early, .near, .thermal] ⊆ m := by exact sub_ (by assumption) (by decide)) : Keeps m s (abortSlice u a1) := by
  unfold abortSlice
  repeat' first
    | exact sub_ hm (by decide)
    | with_reducible assumption
    | with_reducible apply endReq_keeps
    | with_reducible apply abortRun_keeps
    | with_reducible refine keeps_foldl ?_ ?_
    | with_reducible refine keeps_ite_left ?_ ?_
    | intro _

theorem abortSlices_keeps (h : Keeps m s u) (hm : [.alert, .cmd, .cmds, .cistern, .parts, .tiles, .spires, .domes, .engines, .caravan, .records, .early, .near, .thermal] ⊆ m := by exact sub_ (by assumption) (by decide)) : Keeps m s (abortSlices u) := by
  unfold abortSlices
  repeat' first
    | exact sub_ hm (by decide)
    | with_reducible assumption
    | with_reducible apply abortSlice_keeps
    | with_reducible apply updEng_keeps
    | with_reducible apply addMeter_keeps
    | with_reducible apply addRec_keeps
    | with_reducible apply thmCount_keeps
    | with_reducible refine keeps_foldl ?_ ?_
    | with_reducible refine keeps_ite_left ?_ ?_
    | intro _
    | split

theorem runTest_keeps (a1 : Nat) (a2 : W32) (h : Keeps m s u) (hm : [.cmd, .cmds, .tiles] ⊆ m := by exact sub_ (by assumption) (by decide)) : Keeps m s (runTest u a1 a2) := by
  unfold runTest
  repeat' first
    | exact sub_ hm (by decide)
    | with_reducible assumption
    | with_reducible apply cmdFinish_keeps
    | with_reducible apply pushReq_keeps
    | with_reducible apply cmdState_keeps
    | with_reducible refine keeps_foldl ?_ ?_
    | with_reducible refine keeps_ite_left ?_ ?_
    | intro _
    | split
    | with_reducible refine keeps_mk ?_ rfl

theorem execNotidleTimeout_keeps (a1 : Requester) (h : Keeps m s u) (hm : [.cmd, .cmds, .tiles] ⊆ m := by exact sub_ (by assumption) (by decide)) : ∃ t, execNotidleTimeout a1 u = .next t ∧ Keeps m s t := by
  refine ⟨_, rfl, ?_⟩
  repeat' first
    | exact sub_ hm (by decide)
    | with_reducible assumption
    | exact Tile.Stays.of_eq rfl rfl
    | with_reducible apply cmdFinish_keeps
    | with_reducible apply updTile_keeps
    | with_reducible refine keeps_foldl ?_ ?_
    | with_reducible refine keeps_ite_left ?_ ?_
    | intro _
    | split

theorem repairTile_keeps (a1 : Nat × Option Nat) (h : Keeps m s u)
    (hm : [.alert, .cmd, .inputs, .cmds, .cistern, .nvm, .parts, .tiles, .spires, .domes, .ops, .tickets, .samples, .engines, .caravan, .records, .early, .near, .thermal, .rng] ⊆ m := by exact sub_ (by assumption) (by decide)) : Keeps m s (repairTile u a1) := by
  unfold repairTile
  dsimp only
  split
  · exact h
  · rename_i e
    split
    · exact keeps_mk h rfl
    · split
      · exact thmCount_keeps _ _ h
      · rename_i x _
        exact addRec_keeps _ (writeRepair_keeps (keeps_mk (updPart_keeps _ _
          (changeState_keeps a1.1 stRetired tcRepair 0xFFFF 1 u.time.tick 0 0 none (mayChange_low (Nat.lt_of_not_le e)) h)) rfl))

theorem repairTick_keeps (h : Keeps m s u) (hm : [.alert, .cmd, .inputs, .cmds, .cistern, .nvm, .parts, .tiles, .spires, .domes, .ops, .tickets, .samples, .engines, .caravan, .records, .early, .near, .thermal, .rng] ⊆ m := by exact sub_ (by assumption) (by decide)) : Keeps m s (repairTick u) := by
  unfold repairTick
  repeat' first
    | exact sub_ hm (by decide)
    | with_reducible assumption
    | with_reducible apply repairTile_keeps
    | with_reducible refine keeps_foldl ?_ ?_
    | with_reducible refine keeps_ite_left ?_ ?_
    | intro _
    | split
    | with_reducible refine keeps_mk ?_ rfl

theorem execSnapshotWrite_keeps (h : Keeps m s u) (hm : [.nvm] ⊆ m := by exact sub_ (by assumption) (by decide)) : ∃ t, execSnapshotWrite u = .next t ∧ Keeps m s t := by
  refine ⟨_, rfl, ?_⟩
  repeat' first
    | exact sub_ hm (by decide)
    | with_reducible assumption
    | with_reducible apply writeSnapshot_keeps
    | with_reducible refine keeps_foldl ?_ ?_
    | with_reducible refine keeps_ite_left ?_ ?_
    | intro _

end Sys2Proof.Machine
end

