-- ==== Sys2Proof/Laws/KeepsTap.lean ====
section
/-! SUPPORT. What each operation of Machine/Tap.lean keeps. -/

set_option Elab.async false

namespace Sys2Proof.Machine

variable {m : List Fld} {s u : State}

theorem ignore_keeps (a1 a2 : Nat) (h : Keeps m s u) (hm : [.spires] ⊆ m := by exact sub_ (by assumption) (by decide)) : Keeps m s (ignore u a1 a2) := by
  unfold ignore
  repeat' first
    | exact sub_ hm (by decide)
    | with_reducible assumption
    | with_reducible apply spCount_keeps

theorem refuseDump_keeps (a1 a2 : Nat) (h : Keeps m s u) (hm : [.parts, .near, .trc] ⊆ m := by exact sub_ (by assumption) (by decide)) : Keeps m s (refuseDump u a1 a2) := by
  unfold refuseDump
  repeat' first
    | exact sub_ hm (by decide)
    | with_reducible assumption
    | with_reducible apply post_keeps
    | with_reducible refine keeps_foldl ?_ ?_
    | with_reducible refine keeps_ite_left ?_ ?_
    | intro _
    | split
    | with_reducible refine keeps_mk ?_ rfl

theorem endDump_keeps (a1 : Nat) (a2 : OpCtx) (h : Keeps m s u) (hm : [.parts, .spires, .near, .trc] ⊆ m := by exact sub_ (by assumption) (by decide)) : Keeps m s (endDump u a1 a2) := by
  unfold endDump
  repeat' first
    | exact sub_ hm (by decide)
    | with_reducible assumption
    | with_reducible apply onSp_keeps
    | with_reducible apply updSp_keeps
    | with_reducible apply updPart_keeps
    | with_reducible apply addUse_keeps
    | with_reducible apply refuseDump_keeps
    | with_reducible apply refuseQuota_keeps
    | with_reducible refine keeps_foldl ?_ ?_
    | with_reducible refine keeps_ite_left ?_ ?_
    | intro _

theorem countCycles_keeps (a1 : Nat) (h : Keeps m s u) (hm : [.spires] ⊆ m := by exact sub_ (by assumption) (by decide)) : Keeps m s (countCycles u a1) := by
  unfold countCycles
  repeat' first
    | exact sub_ hm (by decide)
    | with_reducible assumption
    | with_reducible apply onSp_keeps
    | with_reducible apply addBigSp_keeps
    | with_reducible apply updSp_keeps
    | with_reducible refine keeps_foldl ?_ ?_
    | with_reducible refine keeps_ite_left ?_ ?_
    | intro _

theorem closeOpEarly_keeps (a1 : Nat) (a2 : OpCtx) (a3 : Closure) (h : Keeps m s u) (hm : [.parts, .spires, .caravan, .near, .trc] ⊆ m := by exact sub_ (by assumption) (by decide)) : Keeps m s (closeOpEarly u a1 a2 a3) := by
  unfold closeOpEarly
  repeat' first
    | exact sub_ hm (by decide)
    | with_reducible assumption
    | with_reducible apply send_keeps
    | with_reducible apply countCycles_keeps
    | with_reducible apply endDump_keeps
    | with_reducible apply updSp_keeps
    | with_reducible refine keeps_foldl ?_ ?_
    | with_reducible refine keeps_ite_left ?_ ?_
    | intro _

theorem closeAll_keeps (a1 : Nat) (a2 : Closure) (h : Keeps m s u) (hm : [.parts, .spires, .caravan, .near, .trc] ⊆ m := by exact sub_ (by assumption) (by decide)) : Keeps m s (closeAll u a1 a2) := by
  unfold closeAll
  repeat' first
    | exact sub_ hm (by decide)
    | with_reducible assumption
    | with_reducible apply onSp_keeps
    | with_reducible apply closeOpEarly_keeps
    | with_reducible refine keeps_foldl ?_ ?_
    | with_reducible refine keeps_ite_left ?_ ?_
    | intro _

theorem refuseDsc_keeps (a1 : Spire) (a2 : Dsc) (a3 : Byte) (h : Keeps m s u) (hm : [.alert, .inputs, .cistern, .parts, .spires, .records, .early, .near, .trc] ⊆ m := by exact sub_ (by assumption) (by decide)) : Keeps m s (refuseDsc u a1 a2 a3) := by
  unfold refuseDsc
  repeat' first
    | exact sub_ hm (by decide)
    | with_reducible assumption
    | with_reducible apply updSp_keeps
    | with_reducible apply spCount_keeps
    | with_reducible apply addDeficit_keeps
    | with_reducible apply tapViol_keeps
    | with_reducible apply refuseKey_keeps
    | with_reducible apply refuseDump_keeps
    | with_reducible apply trace_keeps
    | with_reducible refine keeps_foldl ?_ ?_
    | with_reducible refine keeps_ite_left ?_ ?_
    | intro _

theorem startDump_keeps (sp : Spire) (d : Dsc) (h : Keeps m s u) (hm : [.parts, .spires, .near, .trc] ⊆ m := by exact sub_ (by assumption) (by decide)) : Keeps m s (startDump u sp d).2 := by
  unfold startDump
  dsimp only
  split
  · exact h
  · have h1 : Keeps m s (if armedFor (getPart u (partOfSp u sp.ix)) d = true then
        dumpOver (updPart u (partOfSp u sp.ix) fun q => { q with armed := none }) (partOfSp u sp.ix) 2 else u) :=
      keeps_ite_left (fun h => dumpOver_keeps _ _ (updPart_keeps _ _ h)) h
    split
    · exact post_keeps _ _ _ _ (keeps_mk h1 rfl rfl rfl rfl rfl rfl rfl (KeepSt.Lasts.rfl_ _) id (fun _ hr => hr) (Nat.le_refl _)
        (Nat.le_refl _))
    · exact updSp_keeps _ _ h1

theorem takeRerun_keeps (a1 : Nat) (h : Keeps m s u) (hm : [.ops] ⊆ m := by exact sub_ (by assumption) (by decide)) : Keeps m s (takeRerun u a1) := by
  unfold takeRerun
  repeat' first
    | exact sub_ hm (by decide)
    | with_reducible assumption
    | with_reducible apply onOp_keeps
    | with_reducible apply updOp_keeps
    | with_reducible refine keeps_foldl ?_ ?_
    | with_reducible refine keeps_ite_left ?_ ?_
    | intro _
    | split
    | with_reducible refine keeps_mk ?_ rfl

theorem noteFirst_keeps (a1 : Nat) (a2 : Dsc) (h : Keeps m s u) (hm : [.parts] ⊆ m := by exact sub_ (by assumption) (by decide)) : Keeps m s (noteFirst u a1 a2) := by
  unfold noteFirst
  repeat' first
    | exact sub_ hm (by decide)
    | with_reducible assumption
    | with_reducible apply updPart_keeps

theorem keepAck_keeps (a1 a2 : Nat) (a3 : Dsc) (a4 : Nat) (h : Keeps m s u) (hm : [.parts, .tiles, .ops, .near] ⊆ m := by exact sub_ (by assumption) (by decide)) : Keeps m s (keepAck u a1 a2 a3 a4) := by
  unfold keepAck
  repeat' first
    | exact sub_ hm (by decide)
    | with_reducible assumption
    | exact Tile.Stays.of_eq rfl rfl
    | with_reducible apply updCnt_keeps
    | with_reducible apply updTile_keeps
    | with_reducible apply updPart_keeps
    | with_reducible apply joinKey_keeps
    | with_reducible apply noteFirst_keeps
    | with_reducible apply takeRerun_keeps
    | with_reducible refine keeps_foldl ?_ ?_
    | with_reducible refine keeps_ite_left ?_ ?_
    | intro _
    | split
    | with_reducible refine keeps_mk ?_ rfl

theorem startDump_opSeq (v : State) (sp : Spire) (d : Dsc) : (startDump v sp d).2.opSeq = v.opSeq :=
  (startDump_keeps sp d (m := [.parts, .spires, .near, .trc]) (Keeps.rfl_ _ v) (List.Subset.refl _)).same .opSeq (by decide)

theorem acceptDsc_keeps (sp : Spire) (d : Dsc) (h : Keeps m s u)
    (hm : [.alert, .inputs, .cistern, .parts, .tiles, .spires, .ops, .opSeq, .tickets, .caravan, .records, .early, .near, .trc] ⊆ m := by exact sub_ (by assumption) (by decide)) : Keeps m s (acceptDsc u sp d) := by
  unfold acceptDsc
  have hd := startDump_keeps sp d h (sub_ hm (by decide))
  have hn : (startDump u sp d).2.opSeq ≤ u.opSeq + 1 := by rw [startDump_opSeq]; omega
  have h1 : ∀ f, Keeps m s (updSp (countCycles { (startDump u sp d).2 with opSeq := u.opSeq + 1 } sp.ix) sp.ix f) := fun f =>
    updSp_keeps _ _ (countCycles_keeps _ (keeps_mk hd rfl rfl rfl rfl rfl rfl rfl (KeepSt.Lasts.rfl_ _) id (fun _ hr => hr) hn (Nat.le_refl _)))
  generalize startDump u sp d = dm at *
  dsimp only
  refine keeps_foldl (fun v a hv => trace_keeps _ _ _ _ _ _ _ _ (send_keeps _ hv)) (trace_keeps _ _ _ _ _ _ _ _
    (keeps_ite_left (fun h => closeInKeep_keeps _ h) (keepAck_keeps _ _ _ _
      (spCount_keeps _ _ _ (keeps_ite_left (fun h => spCount_keeps _ _ _ h) ?_)))))
  split
  · exact spCount_keeps _ _ _ (h1 _)
  · exact spCount_keeps _ _ _ (spCount_keeps _ _ _ (h1 _))

theorem missedInject_keeps (a1 : Nat) (h : Keeps m s u) (hm : [.alert, .inputs, .cistern, .parts, .spires, .caravan, .records, .early, .near, .trc] ⊆ m := by exact sub_ (by assumption) (by decide)) : Keeps m s (missedInject u a1) := by
  unfold missedInject
  repeat' first
    | exact sub_ hm (by decide)
    | with_reducible assumption
    | with_reducible apply onSp_keeps
    | with_reducible apply closeOpEarly_keeps
    | with_reducible apply tapViol_keeps
    | with_reducible refine keeps_foldl ?_ ?_
    | with_reducible refine keeps_ite_left ?_ ?_
    | intro _
    | split

theorem takeDescriptor_keeps (a1 : Nat) (a2 : Dsc) (h : Keeps m s u) (hm : [.alert, .inputs, .cistern, .parts, .tiles, .spires, .ops, .opSeq, .tickets, .caravan, .records, .early, .near, .trc] ⊆ m := by exact sub_ (by assumption) (by decide)) : Keeps m s (takeDescriptor u a1 a2) := by
  unfold takeDescriptor
  repeat' first
    | exact sub_ hm (by decide)
    | with_reducible assumption
    | with_reducible apply onSp_keeps
    | with_reducible apply c4Violation_keeps
    | with_reducible apply ignore_keeps
    | with_reducible apply missedInject_keeps
    | with_reducible apply updSp_keeps
    | with_reducible apply refuseDsc_keeps
    | with_reducible apply acceptDsc_keeps
    | with_reducible refine keeps_foldl ?_ ?_
    | with_reducible refine keeps_ite_left ?_ ?_
    | intro _
    | split

theorem execDescriptor_keeps (a1 : Nat) (a2 : BitVec 256) (h : Keeps m s u) (hm : [.alert, .inputs, .cistern, .parts, .tiles, .spires, .ops, .opSeq, .tickets, .caravan, .records, .early, .near, .trc] ⊆ m := by exact sub_ (by assumption) (by decide)) : ∃ t, execDescriptor a1 a2 u = .next t ∧ Keeps m s t := by
  refine ⟨_, rfl, ?_⟩
  repeat' first
    | exact sub_ hm (by decide)
    | with_reducible assumption
    | with_reducible apply takeDescriptor_keeps

theorem flushFragment_keeps (a1 a2 : Nat) (a3 : Fmt) (a4 : Capture) (h : Keeps m s u) (hm : [.spires, .caravan] ⊆ m := by exact sub_ (by assumption) (by decide)) : Keeps m s (flushFragment u a1 a2 a3 a4) := by
  unfold flushFragment
  repeat' first
    | exact sub_ hm (by decide)
    | with_reducible assumption
    | with_reducible apply onSp_keeps
    | with_reducible apply updSp_keeps
    | with_reducible apply send_keeps
    | with_reducible refine keeps_foldl ?_ ?_
    | with_reducible refine keeps_ite_left ?_ ?_
    | intro _

theorem resume_keeps (a1 : Nat) (a2 : OpCtx) (a3 a4 : Bool) (h : Keeps m s u) (hm : [.spires, .rng] ⊆ m := by exact sub_ (by assumption) (by decide)) : Keeps m s (resume u a1 a2 a3 a4) := by
  unfold resume
  repeat' first
    | exact sub_ hm (by decide)
    | with_reducible assumption
    | with_reducible apply cycles_keeps
    | with_reducible apply trace_keeps
    | with_reducible refine keeps_foldl ?_ ?_
    | with_reducible refine keeps_ite_left ?_ ?_
    | intro _

theorem tearOp_keeps (a1 : Nat) (a2 : OpCtx) (a3 : Bool) (h : Keeps m s u) (hm : [.parts, .spires, .caravan, .near, .trc] ⊆ m := by exact sub_ (by assumption) (by decide)) : Keeps m s (tearOp u a1 a2 a3) := by
  unfold tearOp
  repeat' first
    | exact sub_ hm (by decide)
    | with_reducible assumption
    | with_reducible apply closeOpEarly_keeps
    | with_reducible apply trace_keeps
    | with_reducible apply updSp_keeps

theorem tearOthers_keeps (a1 : Nat) (a2 : W16) (a3 : Bool) (h : Keeps m s u) (hm : [.parts, .spires, .caravan, .near, .trc] ⊆ m := by exact sub_ (by assumption) (by decide)) : Keeps m s (tearOthers u a1 a2 a3) := by
  unfold tearOthers
  repeat' first
    | exact sub_ hm (by decide)
    | with_reducible assumption
    | with_reducible apply onSp_keeps
    | with_reducible apply tearOp_keeps
    | with_reducible refine keeps_foldl ?_ ?_
    | with_reducible refine keeps_ite_left ?_ ?_
    | intro _

theorem badPass_keeps (a1 : Nat) (a2 : OpCtx) (a3 : Nat) (h : Keeps m s u) (hm : [.alert, .inputs, .cistern, .parts, .spires, .caravan, .records, .early, .near, .trc] ⊆ m := by exact sub_ (by assumption) (by decide)) : Keeps m s (badPass u a1 a2 a3) := by
  unfold badPass
  repeat' first
    | exact sub_ hm (by decide)
    | with_reducible assumption
    | with_reducible apply closeOpEarly_keeps
    | with_reducible apply tapViol_keeps

theorem traceRow_keeps (a1 : Nat) (a2 : OpCtx) (a3 a4 : Bool) (h : Keeps m s u) (hm : [.spires, .rng] ⊆ m := by exact sub_ (by assumption) (by decide)) : Keeps m s (traceRow u a1 a2 a3 a4) := by
  unfold traceRow
  repeat' first
    | exact sub_ hm (by decide)
    | with_reducible assumption
    | with_reducible apply cycles_keeps
    | with_reducible apply trace_keeps
    | with_reducible refine keeps_foldl ?_ ?_
    | with_reducible refine keeps_ite_left ?_ ?_
    | intro _

theorem screenOperand_keeps (a1 : Spire) (a2 : OpCtx) (a3 : Beat) (h : Keeps m s u) (hm : [.alert, .inputs, .cistern, .parts, .spires, .caravan, .records, .early, .near, .trc, .rng] ⊆ m := by exact sub_ (by assumption) (by decide)) : Keeps m s (screenOperand u a1 a2 a3) := by
  unfold screenOperand
  repeat' first
    | exact sub_ hm (by decide)
    | with_reducible assumption
    | with_reducible apply badPass_keeps
    | with_reducible apply closeOpEarly_keeps
    | with_reducible apply tapViol_keeps
    | with_reducible apply updSp_keeps
    | with_reducible apply resume_keeps
    | with_reducible apply spCount_keeps
    | with_reducible apply flushFragment_keeps
    | with_reducible apply traceRow_keeps
    | with_reducible refine keeps_foldl ?_ ?_
    | with_reducible refine keeps_ite_left ?_ ?_
    | intro _

theorem plainOperand_keeps (a1 : Spire) (a2 : OpCtx) (a3 : Beat) (h : Keeps m s u) (hm : [.alert, .inputs, .cistern, .parts, .spires, .caravan, .records, .early, .near, .trc, .rng] ⊆ m := by exact sub_ (by assumption) (by decide)) : Keeps m s (plainOperand u a1 a2 a3) := by
  unfold plainOperand
  repeat' first
    | exact sub_ hm (by decide)
    | with_reducible assumption
    | with_reducible apply badPass_keeps
    | with_reducible apply updSp_keeps
    | with_reducible apply resume_keeps
    | with_reducible apply traceRow_keeps
    | with_reducible refine keeps_foldl ?_ ?_
    | with_reducible refine keeps_ite_left ?_ ?_
    | intro _

theorem interruptPass_keeps (a1 : Nat) (a2 : W16) (h : Keeps m s u) (hm : [.alert, .inputs, .cistern, .parts, .spires, .caravan, .records, .early, .near, .trc] ⊆ m := by exact sub_ (by assumption) (by decide)) : Keeps m s (interruptPass u a1 a2) := by
  unfold interruptPass
  repeat' first
    | exact sub_ hm (by decide)
    | with_reducible assumption
    | with_reducible apply onSp_keeps
    | with_reducible apply badPass_keeps
    | with_reducible apply missedInject_keeps
    | with_reducible refine keeps_foldl ?_ ?_
    | with_reducible refine keeps_ite_left ?_ ?_
    | intro _
    | split

theorem takeOperand_keeps (a1 : Nat) (a2 : Beat) (a3 : Bool) (h : Keeps m s u) (hm : [.alert, .inputs, .cistern, .parts, .spires, .caravan, .records, .early, .near, .trc, .rng] ⊆ m := by exact sub_ (by assumption) (by decide)) : Keeps m s (takeOperand u a1 a2 a3) := by
  unfold takeOperand
  repeat' first
    | exact sub_ hm (by decide)
    | with_reducible assumption
    | with_reducible apply onSp_keeps
    | with_reducible apply ignore_keeps
    | with_reducible apply updSp_keeps
    | with_reducible apply closeOpEarly_keeps
    | with_reducible apply tapViol_keeps
    | with_reducible apply tearOthers_keeps
    | with_reducible apply interruptPass_keeps
    | with_reducible apply addBigSp_keeps
    | with_reducible apply screenOperand_keeps
    | with_reducible apply plainOperand_keeps
    | with_reducible refine keeps_foldl ?_ ?_
    | with_reducible refine keeps_ite_left ?_ ?_
    | intro _
    | split

theorem execOperandBeat_keeps (a1 : Nat) (a2 : Beat) (a3 : Bool) (h : Keeps m s u) (hm : [.alert, .inputs, .cistern, .parts, .spires, .caravan, .records, .early, .near, .trc, .rng] ⊆ m := by exact sub_ (by assumption) (by decide)) : ∃ t, execOperandBeat a1 a2 a3 u = .next t ∧ Keeps m s t := by
  refine ⟨_, rfl, ?_⟩
  repeat' first
    | exact sub_ hm (by decide)
    | with_reducible assumption
    | with_reducible apply takeOperand_keeps

theorem deliverRow_keeps (a1 : Spire) (a2 : OpCtx) (a3 : PassSt) (h : Keeps m s u) (hm : [.spires, .rng] ⊆ m := by exact sub_ (by assumption) (by decide)) : Keeps m s (deliverRow u a1 a2 a3) := by
  unfold deliverRow
  repeat' first
    | exact sub_ hm (by decide)
    | with_reducible assumption
    | with_reducible apply cycles_keeps
    | with_reducible apply updSp_keeps
    | with_reducible apply trace_keeps
    | with_reducible apply addBigSp_keeps

theorem takeInjReq_keeps (a1 : Nat) (h : Keeps m s u) (hm : [.alert, .inputs, .cistern, .parts, .spires, .caravan, .records, .early, .near, .trc, .rng] ⊆ m := by exact sub_ (by assumption) (by decide)) : Keeps m s (takeInjReq u a1) := by
  unfold takeInjReq
  repeat' first
    | exact sub_ hm (by decide)
    | with_reducible assumption
    | with_reducible apply onSp_keeps
    | with_reducible apply ignore_keeps
    | with_reducible apply deliverRow_keeps
    | with_reducible apply closeOpEarly_keeps
    | with_reducible apply tapViol_keeps
    | with_reducible apply updSp_keeps
    | with_reducible refine keeps_foldl ?_ ?_
    | with_reducible refine keeps_ite_left ?_ ?_
    | intro _
    | split

theorem execTtInjReq_keeps (a1 : Nat) (h : Keeps m s u) (hm : [.alert, .inputs, .cistern, .parts, .spires, .caravan, .records, .early, .near, .trc, .rng] ⊆ m := by exact sub_ (by assumption) (by decide)) : ∃ t, execTtInjReq a1 u = .next t ∧ Keeps m s t := by
  refine ⟨_, rfl, ?_⟩
  repeat' first
    | exact sub_ hm (by decide)
    | with_reducible assumption
    | with_reducible apply takeInjReq_keeps

theorem flushResult_keeps (a1 a2 : Nat) (a3 : Dsc) (a4 : Capture) (h : Keeps m s u) (hm : [.spires, .caravan] ⊆ m := by exact sub_ (by assumption) (by decide)) : Keeps m s (flushResult u a1 a2 a3 a4) := by
  unfold flushResult
  repeat' first
    | exact sub_ hm (by decide)
    | with_reducible assumption
    | with_reducible apply onSp_keeps
    | with_reducible apply updSp_keeps
    | with_reducible apply send_keeps
    | with_reducible refine keeps_foldl ?_ ?_
    | with_reducible refine keeps_ite_left ?_ ?_
    | intro _

theorem badRow_keeps (a1 : Spire) (a2 : OpCtx) (a3 : Nat) (h : Keeps m s u) (hm : [.alert, .inputs, .cistern, .parts, .spires, .caravan, .records, .early, .near, .trc] ⊆ m := by exact sub_ (by assumption) (by decide)) : Keeps m s (badRow u a1 a2 a3) := by
  unfold badRow
  repeat' first
    | exact sub_ hm (by decide)
    | with_reducible assumption
    | with_reducible apply tapViol_keeps
    | with_reducible apply updSp_keeps
    | with_reducible apply closeOpEarly_keeps
    | with_reducible refine keeps_foldl ?_ ?_
    | with_reducible refine keeps_ite_left ?_ ?_
    | intro _

theorem acceptedResult_keeps (a1 : Spire) (a2 : OpCtx) (a3 : Beat) (a4 : Bool) (h : Keeps m s u) (hm : [.alert, .inputs, .cistern, .parts, .spires, .caravan, .records, .early, .near, .trc, .rng] ⊆ m := by exact sub_ (by assumption) (by decide)) : Keeps m s (acceptedResult u a1 a2 a3 a4) := by
  unfold acceptedResult
  repeat' first
    | exact sub_ hm (by decide)
    | with_reducible assumption
    | with_reducible apply badRow_keeps
    | with_reducible apply updSp_keeps
    | with_reducible apply resume_keeps
    | with_reducible apply spCount_keeps
    | with_reducible apply flushResult_keeps
    | with_reducible apply cycles_keeps
    | with_reducible apply trace_keeps
    | with_reducible apply onSp_keeps
    | with_reducible refine keeps_foldl ?_ ?_
    | with_reducible refine keeps_ite_left ?_ ?_
    | intro _
    | split

theorem looseResult_keeps (a1 : Spire) (a2 : Beat) (h : Keeps m s u) (hm : [.alert, .inputs, .cistern, .parts, .spires, .records, .early, .near] ⊆ m := by exact sub_ (by assumption) (by decide)) : Keeps m s (looseResult u a1 a2) := by
  unfold looseResult
  repeat' first
    | exact sub_ hm (by decide)
    | with_reducible assumption
    | with_reducible apply ignore_keeps
    | with_reducible apply updSp_keeps
    | with_reducible apply tapViol_keeps
    | with_reducible refine keeps_foldl ?_ ?_
    | with_reducible refine keeps_ite_left ?_ ?_
    | intro _

theorem takeResult_keeps (a1 : Nat) (a2 : Beat) (a3 : Bool) (h : Keeps m s u) (hm : [.alert, .inputs, .cistern, .parts, .spires, .caravan, .records, .early, .near, .trc, .rng] ⊆ m := by exact sub_ (by assumption) (by decide)) : Keeps m s (takeResult u a1 a2 a3) := by
  unfold takeResult
  repeat' first
    | exact sub_ hm (by decide)
    | with_reducible assumption
    | with_reducible apply onSp_keeps
    | with_reducible apply ignore_keeps
    | with_reducible apply tearOthers_keeps
    | with_reducible apply acceptedResult_keeps
    | with_reducible apply addBigSp_keeps
    | with_reducible apply looseResult_keeps
    | with_reducible refine keeps_foldl ?_ ?_
    | with_reducible refine keeps_ite_left ?_ ?_
    | intro _
    | split

theorem execResultBeat_keeps (a1 : Nat) (a2 : Beat) (a3 : Bool) (h : Keeps m s u) (hm : [.alert, .inputs, .cistern, .parts, .spires, .caravan, .records, .early, .near, .trc, .rng] ⊆ m := by exact sub_ (by assumption) (by decide)) : ∃ t, execResultBeat a1 a2 a3 u = .next t ∧ Keeps m s t := by
  refine ⟨_, rfl, ?_⟩
  repeat' first
    | exact sub_ hm (by decide)
    | with_reducible assumption
    | with_reducible apply takeResult_keeps

theorem endResult_keeps (a1 : Spire) (a2 : OpCtx) (h : Keeps m s u) (hm : [.alert, .inputs, .cistern, .parts, .spires, .caravan, .records, .early, .near, .trc] ⊆ m := by exact sub_ (by assumption) (by decide)) : Keeps m s (endResult u a1 a2) := by
  unfold endResult
  repeat' first
    | exact sub_ hm (by decide)
    | with_reducible assumption
    | with_reducible apply trace_keeps
    | with_reducible apply updSp_keeps
    | with_reducible apply countCycles_keeps
    | with_reducible apply endDump_keeps
    | with_reducible apply tapViol_keeps
    | with_reducible apply closeOpEarly_keeps
    | with_reducible refine keeps_foldl ?_ ?_
    | with_reducible refine keeps_ite_left ?_ ?_
    | intro _
    | split

theorem execTtResEnd_keeps (a1 : Nat) (a2 : Beat) (a3 : Bool) (h : Keeps m s u) (hm : [.alert, .inputs, .cistern, .parts, .spires, .caravan, .records, .early, .near, .trc, .rng] ⊆ m := by exact sub_ (by assumption) (by decide)) : ∃ t, execTtResEnd a1 a2 a3 u = .next t ∧ Keeps m s t := by
  refine ⟨_, rfl, ?_⟩
  repeat' first
    | exact sub_ hm (by decide)
    | with_reducible assumption
    | with_reducible apply takeResult_keeps
    | with_reducible apply onSp_keeps
    | with_reducible apply endResult_keeps
    | with_reducible refine keeps_foldl ?_ ?_
    | with_reducible refine keeps_ite_left ?_ ?_
    | intro _
    | split

theorem compareOp_keeps (a1 : Spire) (a2 : OpCtx) (h : Keeps m s u) (hm : [.spires, .caravan] ⊆ m := by exact sub_ (by assumption) (by decide)) : Keeps m s (compareOp u a1 a2) := by
  unfold compareOp
  repeat' first
    | exact sub_ hm (by decide)
    | with_reducible assumption
    | with_reducible apply updSp_keeps
    | with_reducible apply addBigSp_keeps
    | with_reducible apply spCount_keeps
    | with_reducible apply trace_keeps
    | with_reducible apply send_keeps
    | with_reducible refine keeps_foldl ?_ ?_
    | with_reducible refine keeps_ite_left ?_ ?_
    | intro _

theorem execGroupCompare_keeps (a1 : Nat) (h : Keeps m s u) (hm : [.spires, .caravan] ⊆ m := by exact sub_ (by assumption) (by decide)) : ∃ t, execGroupCompare a1 u = .next t ∧ Keeps m s t := by
  refine ⟨_, rfl, ?_⟩
  repeat' first
    | exact sub_ hm (by decide)
    | with_reducible assumption
    | with_reducible apply onSp_keeps
    | with_reducible apply updSp_keeps
    | with_reducible apply compareOp_keeps
    | with_reducible refine keeps_foldl ?_ ?_
    | with_reducible refine keeps_ite_left ?_ ?_
    | intro _
    | split

theorem execBurstStall_keeps (a1 : Nat) (a2 : W16) (a3 : Bool) (h : Keeps m s u) (hm : [.spires] ⊆ m := by exact sub_ (by assumption) (by decide)) : ∃ t, execBurstStall a1 a2 a3 u = .next t ∧ Keeps m s t := by
  refine ⟨_, rfl, ?_⟩
  repeat' first
    | exact sub_ hm (by decide)
    | with_reducible assumption
    | with_reducible apply onSp_keeps
    | with_reducible apply updSp_keeps
    | with_reducible apply trace_keeps
    | with_reducible refine keeps_foldl ?_ ?_
    | with_reducible refine keeps_ite_left ?_ ?_
    | intro _
    | split

theorem execBurstTimeout_keeps (a1 : Nat) (a2 : W16) (a3 : Bool) (h : Keeps m s u) (hm : [.parts, .spires, .caravan, .near, .trc] ⊆ m := by exact sub_ (by assumption) (by decide)) : ∃ t, execBurstTimeout a1 a2 a3 u = .next t ∧ Keeps m s t := by
  refine ⟨_, rfl, ?_⟩
  repeat' first
    | exact sub_ hm (by decide)
    | with_reducible assumption
    | with_reducible apply onSp_keeps
    | with_reducible apply tearOp_keeps
    | with_reducible refine keeps_foldl ?_ ?_
    | with_reducible refine keeps_ite_left ?_ ?_
    | intro _
    | split

theorem traceLevels_keeps (a1 : Nat) (h : Keeps m s u) (hm : [.spires] ⊆ m := by exact sub_ (by assumption) (by decide)) : Keeps m s (traceLevels u a1) := by
  unfold traceLevels
  repeat' first
    | exact sub_ hm (by decide)
    | with_reducible assumption
    | with_reducible apply onSp_keeps
    | with_reducible apply trace_keeps
    | with_reducible refine keeps_foldl ?_ ?_
    | with_reducible refine keeps_ite_left ?_ ?_
    | intro _

theorem execTtFenceAck_keeps (a1 : Nat) (h : Keeps m s u) (hm : [.parts, .tiles, .spires, .caravan, .near, .trc] ⊆ m := by exact sub_ (by assumption) (by decide)) : ∃ t, execTtFenceAck a1 u = .next t ∧ Keeps m s t := by
  refine ⟨_, rfl, ?_⟩
  repeat' first
    | exact sub_ hm (by decide)
    | with_reducible assumption
    | with_reducible apply onSp_keeps
    | with_reducible apply closeAll_keeps
    | with_reducible apply tryBegin_keeps
    | with_reducible apply traceLevels_keeps
    | with_reducible apply updSp_keeps
    | with_reducible refine keeps_foldl ?_ ?_
    | with_reducible refine keeps_ite_left ?_ ?_
    | intro _

theorem execFenceAckTimeout_keeps (a1 : Nat) (h : Keeps m s u) (hm : [.alert, .inputs, .cistern, .parts, .spires, .records, .early, .near] ⊆ m := by exact sub_ (by assumption) (by decide)) : ∃ t, execFenceAckTimeout a1 u = .next t ∧ Keeps m s t := by
  refine ⟨_, rfl, ?_⟩
  repeat' first
    | exact sub_ hm (by decide)
    | with_reducible assumption
    | with_reducible apply onSp_keeps
    | with_reducible apply tileInput_keeps
    | with_reducible apply tapViol_keeps
    | with_reducible refine keeps_foldl ?_ ?_
    | with_reducible refine keeps_ite_left ?_ ?_
    | intro _

theorem routerLost_keeps (a1 : Nat) (h : Keeps m s u) (hm : [.alert, .inputs, .cistern, .parts, .spires, .records, .early, .near] ⊆ m := by exact sub_ (by assumption) (by decide)) : Keeps m s (routerLost u a1) := by
  unfold routerLost
  repeat' first
    | exact sub_ hm (by decide)
    | with_reducible assumption
    | with_reducible apply tileInput_keeps
    | with_reducible apply tapViol_keeps

theorem execHeartbeatLoss_keeps (a1 : Nat) (h : Keeps m s u) (hm : [.alert, .inputs, .cistern, .parts, .spires, .records, .early, .near] ⊆ m := by exact sub_ (by assumption) (by decide)) : ∃ t, execHeartbeatLoss a1 u = .next t ∧ Keeps m s t := by
  refine ⟨_, rfl, ?_⟩
  repeat' first
    | exact sub_ hm (by decide)
    | with_reducible assumption
    | with_reducible apply onSp_keeps
    | with_reducible apply traceLevels_keeps
    | with_reducible apply updSp_keeps
    | with_reducible apply routerLost_keeps
    | with_reducible refine keeps_foldl ?_ ?_
    | with_reducible refine keeps_ite_left ?_ ?_
    | intro _

theorem takeProg_keeps (a1 : Nat) (a2 : W32) (h : Keeps m s u) (hm : [.alert, .inputs, .cistern, .parts, .tiles, .spires, .hang, .records, .early, .near] ⊆ m := by exact sub_ (by assumption) (by decide)) : Keeps m s (takeProg u a1 a2) := by
  unfold takeProg
  repeat' first
    | exact sub_ hm (by decide)
    | with_reducible assumption
    | exact Tile.Stays.of_eq rfl rfl
    | with_reducible apply onSp_keeps
    | with_reducible apply updSp_keeps
    | with_reducible apply updTile_keeps
    | with_reducible apply tapViol_keeps
    | with_reducible refine keeps_foldl ?_ ?_
    | with_reducible refine keeps_ite_left ?_ ?_
    | intro _
    | split
    | with_reducible refine keeps_mk ?_ rfl

theorem execTtProgChange_keeps (a1 : Nat) (a2 : W32) (h : Keeps m s u) (hm : [.alert, .inputs, .cistern, .parts, .tiles, .spires, .hang, .records, .early, .near] ⊆ m := by exact sub_ (by assumption) (by decide)) : ∃ t, execTtProgChange a1 a2 u = .next t ∧ Keeps m s t := by
  refine ⟨_, rfl, ?_⟩
  repeat' first
    | exact sub_ hm (by decide)
    | with_reducible assumption
    | with_reducible apply takeProg_keeps

theorem tapReset_keeps (a1 : Nat) (h : Keeps m s u) (hm : [.parts, .spires, .caravan, .near, .trc] ⊆ m := by exact sub_ (by assumption) (by decide)) : Keeps m s (tapReset u a1) := by
  unfold tapReset
  repeat' first
    | exact sub_ hm (by decide)
    | with_reducible assumption
    | with_reducible apply closeAll_keeps
    | with_reducible apply updSp_keeps
    | with_reducible apply trace_keeps

theorem heldReset_keeps (a1 : Nat) (h : Keeps m s u) (hm : [.parts, .spires, .caravan, .near, .trc] ⊆ m := by exact sub_ (by assumption) (by decide)) : Keeps m s (heldReset u a1) := by
  unfold heldReset
  repeat' first
    | exact sub_ hm (by decide)
    | with_reducible assumption
    | with_reducible apply updSp_keeps
    | with_reducible apply tapReset_keeps

theorem earlyAck_keeps (a1 : Nat) (h : Keeps m s u) (hm : [.boot] ⊆ m := by exact sub_ (by assumption) (by decide)) : Keeps m s (earlyAck u a1) := by
  unfold earlyAck
  repeat' first
    | exact sub_ hm (by decide)
    | with_reducible assumption
    | with_reducible refine keeps_foldl ?_ ?_
    | with_reducible refine keeps_ite_left ?_ ?_
    | intro _
    | split
    | with_reducible refine keeps_mk ?_ rfl

theorem execTtRstAck_keeps (a1 : Nat) (h : Keeps m s u) (hm : [.boot, .parts, .spires, .caravan, .near, .trc] ⊆ m := by exact sub_ (by assumption) (by decide)) : ∃ t, execTtRstAck a1 u = .next t ∧ Keeps m s t := by
  refine ⟨_, rfl, ?_⟩
  repeat' first
    | exact sub_ hm (by decide)
    | with_reducible assumption
    | with_reducible apply earlyAck_keeps
    | with_reducible apply heldReset_keeps
    | with_reducible apply tapReset_keeps
    | with_reducible apply updSp_keeps
    | with_reducible refine keeps_foldl ?_ ?_
    | with_reducible refine keeps_ite_left ?_ ?_
    | intro _
    | split

theorem testOffDue_keeps (a1 : Nat) (h : Keeps m s u) (hm : [.alert, .cmd, .cmds, .cistern, .parts, .tiles, .domes, .caravan, .records, .early, .near] ⊆ m := by exact sub_ (by assumption) (by decide)) : Keeps m s (testOffDue u a1) := by
  unfold testOffDue
  repeat' first
    | exact sub_ hm (by decide)
    | with_reducible assumption
    | exact Tile.Stays.of_eq rfl rfl
    | with_reducible apply onTile_keeps
    | with_reducible apply sendTest_keeps
    | with_reducible apply updTile_keeps
    | with_reducible refine keeps_foldl ?_ ?_
    | with_reducible refine keeps_ite_left ?_ ?_
    | intro _

theorem execTtReady_keeps (a1 : Nat) (h : Keeps m s u) (hm : [.alert, .cmd, .cmds, .cistern, .parts, .tiles, .spires, .domes, .caravan, .records, .early, .near] ⊆ m := by exact sub_ (by assumption) (by decide)) : ∃ t, execTtReady a1 u = .next t ∧ Keeps m s t := by
  refine ⟨_, rfl, ?_⟩
  repeat' first
    | exact sub_ hm (by decide)
    | with_reducible assumption
    | exact Tile.Stays.of_eq rfl rfl
    | with_reducible apply onSp_keeps
    | with_reducible apply updSp_keeps
    | with_reducible apply updTile_keeps
    | with_reducible apply tryBegin_keeps
    | with_reducible apply testOffDue_keeps
    | with_reducible refine keeps_foldl ?_ ?_
    | with_reducible refine keeps_ite_left ?_ ?_
    | intro _

theorem resetMissed_keeps (a1 : Nat) (h : Keeps m s u) (hm : [.alert, .cmd, .inputs, .cmds, .cistern, .nvm, .parts, .tiles, .spires, .domes, .ops, .tickets, .samples, .engines, .caravan, .records, .early, .near, .thermal, .rng] ⊆ m := by exact sub_ (by assumption) (by decide)) : Keeps m s (resetMissed u a1) := by
  unfold resetMissed
  repeat' first
    | exact sub_ hm (by decide)
    | with_reducible assumption
    | with_reducible apply tapViol_keeps
    | with_reducible apply actDead_keeps
    | with_reducible apply tileInput_keeps
    | with_reducible refine keeps_foldl ?_ ?_
    | with_reducible refine keeps_ite_left ?_ ?_
    | intro _

theorem execRstAckTimeout_keeps (a1 : Nat) (h : Keeps m s u) (hm : [.alert, .cmd, .inputs, .cmds, .cistern, .nvm, .parts, .tiles, .spires, .domes, .ops, .tickets, .samples, .engines, .caravan, .records, .early, .near, .thermal, .rng] ⊆ m := by exact sub_ (by assumption) (by decide)) : ∃ t, execRstAckTimeout a1 u = .next t ∧ Keeps m s t := by
  refine ⟨_, rfl, ?_⟩
  repeat' first
    | exact sub_ hm (by decide)
    | with_reducible assumption
    | with_reducible apply onSp_keeps
    | with_reducible apply resetMissed_keeps
    | with_reducible refine keeps_foldl ?_ ?_
    | with_reducible refine keeps_ite_left ?_ ?_
    | intro _

theorem execReadyTimeout_keeps (a1 : Nat) (h : Keeps m s u) (hm : [.alert, .cmd, .inputs, .cmds, .cistern, .nvm, .parts, .tiles, .spires, .domes, .ops, .tickets, .samples, .engines, .caravan, .records, .early, .near, .thermal, .rng] ⊆ m := by exact sub_ (by assumption) (by decide)) : ∃ t, execReadyTimeout a1 u = .next t ∧ Keeps m s t := by
  refine ⟨_, rfl, ?_⟩
  repeat' first
    | exact sub_ hm (by decide)
    | with_reducible assumption
    | with_reducible apply onSp_keeps
    | with_reducible apply resetMissed_keeps
    | with_reducible refine keeps_foldl ?_ ?_
    | with_reducible refine keeps_ite_left ?_ ?_
    | intro _

theorem execTileRst_keeps (a1 : Nat) (h : Keeps m s u) (hm : [.alert, .cistern, .parts, .spires, .caravan, .records, .early, .near, .trc] ⊆ m := by exact sub_ (by assumption) (by decide)) : ∃ t, execTileRst a1 u = .next t ∧ Keeps m s t := by
  refine ⟨_, rfl, ?_⟩
  repeat' first
    | exact sub_ hm (by decide)
    | with_reducible assumption
    | with_reducible apply onSp_keeps
    | with_reducible apply tapReset_keeps
    | with_reducible apply addRec_keeps
    | with_reducible refine keeps_foldl ?_ ?_
    | with_reducible refine keeps_ite_left ?_ ?_
    | intro _

end Sys2Proof.Machine
end

