-- ==== Sys2Proof/Laws/KeepsPorts.lean ====
section
/-! SUPPORT. What each operation of Machine/Ports.lean keeps. -/

set_option Elab.async false

namespace Sys2Proof.Machine

variable {m : List Fld} {s u : State}

theorem updMem_keeps (a1 : Bool) (a2 : MemPort → MemPort) (h : Keeps m s u) (hm : [.near, .far] ⊆ m := by exact sub_ (by assumption) (by decide)) : Keeps m s (updMem u a1 a2) := by
  unfold updMem
  repeat' first
    | exact sub_ hm (by decide)
    | with_reducible assumption
    | with_reducible refine keeps_foldl ?_ ?_
    | with_reducible refine keeps_ite_left ?_ ?_
    | intro _
    | split
    | with_reducible refine keeps_mk ?_ rfl

theorem pushHead_keeps (a1 : Bool) (a2 : NearItem) (h : Keeps m s u) (hm : [.near] ⊆ m := by exact sub_ (by assumption) (by decide)) : Keeps m s (pushHead u a1 a2) := by
  unfold pushHead
  repeat' first
    | exact sub_ hm (by decide)
    | with_reducible assumption
    | with_reducible apply nearPush_keeps
    | with_reducible refine keeps_foldl ?_ ?_
    | with_reducible refine keeps_ite_left ?_ ?_
    | intro _
    | split

theorem itemDone_keeps (a1 : Bool) (a2 : NearItem) (h : Keeps m s u) (hm : [.parts, .near] ⊆ m := by exact sub_ (by assumption) (by decide)) : Keeps m s (itemDone u a1 a2) := by
  unfold itemDone
  repeat' first
    | exact sub_ hm (by decide)
    | with_reducible assumption
    | with_reducible apply pushHead_keeps
    | with_reducible apply subUse_keeps

theorem beginItem_keeps (a1 : Bool) (a2 : NearItem) (h : Keeps m s u) (hm : [.parts, .near, .far, .rng] ⊆ m := by exact sub_ (by assumption) (by decide)) : Keeps m s (beginItem u a1 a2) := by
  unfold beginItem
  repeat' first
    | exact sub_ hm (by decide)
    | with_reducible assumption
    | with_reducible apply updMem_keeps
    | with_reducible apply itemDone_keeps
    | with_reducible refine keeps_foldl ?_ ?_
    | with_reducible refine keeps_ite_left ?_ ?_
    | intro _
    | split
    | with_reducible refine keeps_mk ?_ rfl

theorem issueReq_keeps (a1 : Bool) (a2 : Issue) (a3 : Byte) (h : Keeps m s u) (hm : [.near, .far] ⊆ m := by exact sub_ (by assumption) (by decide)) : Keeps m s (issueReq u a1 a2 a3) := by
  unfold issueReq
  repeat' first
    | exact sub_ hm (by decide)
    | with_reducible assumption
    | with_reducible apply updMem_keeps

theorem issueOne_keeps (a1 : Bool) (h : Keeps m s u) (hm : [.parts, .near, .far, .rng] ⊆ m := by exact sub_ (by assumption) (by decide)) : Keeps m s (issueOne a1 u) := by
  unfold issueOne
  repeat' first
    | exact sub_ hm (by decide)
    | with_reducible assumption
    | with_reducible apply issueReq_keeps
    | with_reducible apply beginItem_keeps
    | with_reducible refine keeps_foldl ?_ ?_
    | with_reducible refine keeps_ite_left ?_ ?_
    | intro _
    | split
    | with_reducible refine keeps_mk ?_ rfl

theorem issueAll_keeps (far : Bool) (n : Nat) (h : Keeps m s u) (hm : [.parts, .near, .far, .rng] ⊆ m := by exact sub_ (by assumption) (by decide)) :
    Keeps m s (issueAll far n u) := by
  induction n generalizing u with
  | zero => exact h
  | succ n ih =>
    unfold issueAll
    split
    · exact h
    · exact ih (issueOne_keeps _ h)

theorem portIssue_keeps (a1 : Bool) (h : Keeps m s u) (hm : [.parts, .near, .far, .rng] ⊆ m := by exact sub_ (by assumption) (by decide)) : Keeps m s (portIssue u a1) := by
  unfold portIssue
  repeat' first
    | exact sub_ hm (by decide)
    | with_reducible assumption
    | with_reducible apply issueAll_keeps
    | with_reducible refine keeps_foldl ?_ ?_
    | with_reducible refine keeps_ite_left ?_ ?_
    | intro _

theorem countTick_keeps (h : Keeps m s u) (hm : [.tick] ⊆ m := by exact sub_ (by assumption) (by decide)) : Keeps m s (countTick u) := by
  unfold countTick
  repeat' first
    | exact sub_ hm (by decide)
    | with_reducible assumption
    | with_reducible refine keeps_foldl ?_ ?_
    | with_reducible refine keeps_ite_left ?_ ?_
    | intro _
    | split
    | with_reducible refine keeps_mk ?_ rfl

theorem readIn_keeps (a1 : MemReq) (h : Keeps m s u) (hm : [.keep] ⊆ m := by exact sub_ (by assumption) (by decide)) : Keeps m s (readIn u a1) := by
  unfold readIn
  repeat' first
    | exact sub_ hm (by decide)
    | with_reducible assumption
    | with_reducible refine keeps_foldl ?_ ?_
    | with_reducible refine keeps_ite_left ?_ ?_
    | intro _
    | split
    | with_reducible refine keeps_mk ?_ rfl

theorem reqDone_keeps (a1 : Bool) (a2 : MemReq) (h : Keeps m s u) (hm : [.keep, .parts, .near, .far] ⊆ m := by exact sub_ (by assumption) (by decide)) : Keeps m s (reqDone u a1 a2) := by
  unfold reqDone
  repeat' first
    | exact sub_ hm (by decide)
    | with_reducible assumption
    | with_reducible apply updMem_keeps
    | with_reducible apply readIn_keeps
    | with_reducible apply itemDone_keeps
    | with_reducible refine keeps_foldl ?_ ?_
    | with_reducible refine keeps_ite_left ?_ ?_
    | intro _

theorem memErr_keeps (a1 : Bool) (a2 : MemReq) (h : Keeps m s u) (hm : [.alert, .keep, .inputs, .cistern, .parts, .records, .early, .near, .far, .portViols] ⊆ m := by exact sub_ (by assumption) (by decide)) : Keeps m s (memErr u a1 a2) := by
  unfold memErr
  repeat' first
    | exact sub_ hm (by decide)
    | with_reducible assumption
    | with_reducible apply updMem_keeps
    | with_reducible apply portViol_keeps
    | with_reducible apply reqDone_keeps
    | with_reducible apply alert_keeps
    | with_reducible refine keeps_foldl ?_ ?_
    | with_reducible refine keeps_ite_left ?_ ?_
    | intro _

theorem readBeat_keeps (a1 : Bool) (a2 : MemReq) (a3 : BitVec 512) (h : Keeps m s u) (hm : [.keep, .parts, .near, .far] ⊆ m := by exact sub_ (by assumption) (by decide)) : Keeps m s (readBeat u a1 a2 a3) := by
  unfold readBeat
  repeat' first
    | exact sub_ hm (by decide)
    | with_reducible assumption
    | with_reducible apply updMem_keeps
    | with_reducible apply reqDone_keeps
    | with_reducible refine keeps_foldl ?_ ?_
    | with_reducible refine keeps_ite_left ?_ ?_
    | intro _

theorem execNpResponse_keeps (a1 : Bool) (a2 : Byte) (a3 : RspCode) (a4 : BitVec 512) (h : Keeps m s u) (hm : [.alert, .keep, .inputs, .cistern, .parts, .records, .early, .near, .far, .portViols] ⊆ m := by exact sub_ (by assumption) (by decide)) : ∃ t, execNpResponse a1 a2 a3 a4 u = .next t ∧ Keeps m s t := by
  refine ⟨_, rfl, ?_⟩
  repeat' first
    | exact sub_ hm (by decide)
    | with_reducible assumption
    | with_reducible apply memErr_keeps
    | with_reducible apply reqDone_keeps
    | with_reducible apply readBeat_keeps
    | with_reducible refine keeps_foldl ?_ ?_
    | with_reducible refine keeps_ite_left ?_ ?_
    | intro _
    | split

theorem execMemerrTimeout_keeps (a1 : Bool) (a2 : Byte) (h : Keeps m s u) (hm : [.alert, .keep, .inputs, .cistern, .parts, .records, .early, .near, .far, .portViols] ⊆ m := by exact sub_ (by assumption) (by decide)) : ∃ t, execMemerrTimeout a1 a2 u = .next t ∧ Keeps m s t := by
  refine ⟨_, rfl, ?_⟩
  repeat' first
    | exact sub_ hm (by decide)
    | with_reducible assumption
    | with_reducible apply memErr_keeps
    | with_reducible refine keeps_foldl ?_ ?_
    | with_reducible refine keeps_ite_left ?_ ?_
    | intro _
    | split

theorem execWriteRetry_keeps (a1 : Bool) (a2 : Byte) (h : Keeps m s u) (hm : [.near, .far] ⊆ m := by exact sub_ (by assumption) (by decide)) : ∃ t, execWriteRetry a1 a2 u = .next t ∧ Keeps m s t := by
  refine ⟨_, rfl, ?_⟩
  repeat' first
    | exact sub_ hm (by decide)
    | with_reducible assumption
    | with_reducible apply updMem_keeps
    | with_reducible refine keeps_foldl ?_ ?_
    | with_reducible refine keeps_ite_left ?_ ?_
    | intro _
    | split

theorem clkEffect_keeps (a1 : HostClk) (h : Keeps m s u) (hm : [.alert, .parts, .spires] ⊆ m := by exact sub_ (by assumption) (by decide)) : Keeps m s (clkEffect u a1) := by
  unfold clkEffect
  repeat' first
    | exact sub_ hm (by decide)
    | with_reducible assumption
    | with_reducible apply updSp_keeps
    | with_reducible apply alert_keeps
    | with_reducible refine keeps_foldl ?_ ?_
    | with_reducible refine keeps_ite_left ?_ ?_
    | intro _
    | split
    | with_reducible refine keeps_mk ?_ rfl

theorem execClockLoss_keeps (a1 : HostClk) (h : Keeps m s u) (hm : [.alert, .keep, .cistern, .parts, .spires, .records, .early, .near] ⊆ m := by exact sub_ (by assumption) (by decide)) : ∃ t, execClockLoss a1 u = .next t ∧ Keeps m s t := by
  refine ⟨_, rfl, ?_⟩
  repeat' first
    | exact sub_ hm (by decide)
    | with_reducible assumption
    | with_reducible apply clkEffect_keeps
    | with_reducible apply addRec_keeps
    | with_reducible refine keeps_foldl ?_ ?_
    | with_reducible refine keeps_ite_left ?_ ?_
    | intro _
    | split
    | with_reducible refine keeps_mk ?_ rfl

theorem execClockReturn_keeps (a1 : HostClk) (h : Keeps m s u) (hm : [.keep] ⊆ m := by exact sub_ (by assumption) (by decide)) : ∃ t, execClockReturn a1 u = .next t ∧ Keeps m s t := by
  refine ⟨_, rfl, ?_⟩
  repeat' first
    | exact sub_ hm (by decide)
    | with_reducible assumption
    | with_reducible refine keeps_foldl ?_ ?_
    | with_reducible refine keeps_ite_left ?_ ?_
    | intro _
    | split
    | with_reducible refine keeps_mk ?_ rfl

theorem execTtIdleChange_keeps (a1 : Nat) (a2 : Bool) (h : Keeps m s u) (hm : [.alert, .cmd, .cmds, .cistern, .parts, .tiles, .spires, .domes, .caravan, .records, .early, .near] ⊆ m := by exact sub_ (by assumption) (by decide)) : ∃ t, execTtIdleChange a1 a2 u = .next t ∧ Keeps m s t := by
  refine ⟨_, rfl, ?_⟩
  repeat' first
    | exact sub_ hm (by decide)
    | with_reducible assumption
    | exact Tile.Stays.of_eq rfl rfl
    | with_reducible apply onSp_keeps
    | with_reducible apply updSp_keeps
    | with_reducible apply domeSlices_keeps
    | with_reducible apply updTile_keeps
    | with_reducible apply c4Violation_keeps
    | with_reducible refine keeps_foldl ?_ ?_
    | with_reducible refine keeps_ite_left ?_ ?_
    | intro _

end Sys2Proof.Machine
end

