-- ==== Sys2Proof/Laws/KeepsFence.lean ====
section
/-! SUPPORT. What each operation of Machine/Fence.lean keeps. -/

set_option Elab.async false

namespace Sys2Proof.Machine

variable {m : List Fld} {s u : State}

theorem watchRouter_keeps (a1 : Nat) (a2 : Bool) (h : Keeps m s u) (hm : [.alert, .inputs, .cistern, .parts, .spires, .records, .early, .near] ⊆ m := by exact sub_ (by assumption) (by decide)) : Keeps m s (watchRouter u a1 a2) := by
  unfold watchRouter
  repeat' first
    | exact sub_ hm (by decide)
    | with_reducible assumption
    | with_reducible apply onSp_keeps
    | with_reducible apply routerLost_keeps
    | with_reducible refine keeps_foldl ?_ ?_
    | with_reducible refine keeps_ite_left ?_ ?_
    | intro _

theorem firstFence_keeps (a1 : Nat) (h : Keeps m s u) (hm : [.parts, .hang] ⊆ m := by exact sub_ (by assumption) (by decide)) : Keeps m s (firstFence u a1) := by
  unfold firstFence
  repeat' first
    | exact sub_ hm (by decide)
    | with_reducible assumption
    | with_reducible apply updPart_keeps
    | with_reducible refine keeps_foldl ?_ ?_
    | with_reducible refine keeps_ite_left ?_ ?_
    | intro _
    | split
    | with_reducible refine keeps_mk ?_ rfl

theorem report_keeps (a1 : Nat) (a2 : Byte) (h : Keeps m s u) (hm : [.spires, .caravan] ⊆ m := by exact sub_ (by assumption) (by decide)) : Keeps m s (report u a1 a2) := by
  unfold report
  repeat' first
    | exact sub_ hm (by decide)
    | with_reducible assumption
    | with_reducible apply holdCredits_keeps
    | with_reducible apply uplink_keeps
    | with_reducible refine keeps_foldl ?_ ?_
    | with_reducible refine keeps_ite_left ?_ ?_
    | intro _
    | split
    | with_reducible refine keeps_mk ?_ rfl

theorem countCrossing_keeps (a1 : W32 × W32 × W32) (h : Keeps m s u) (hm : [.alert, .caravan] ⊆ m := by exact sub_ (by assumption) (by decide)) : Keeps m s (countCrossing u a1) := by
  unfold countCrossing
  repeat' first
    | exact sub_ hm (by decide)
    | with_reducible assumption
    | with_reducible apply alert_keeps
    | with_reducible refine keeps_foldl ?_ ?_
    | with_reducible refine keeps_ite_left ?_ ?_
    | intro _
    | split
    | with_reducible refine keeps_mk ?_ rfl

theorem countSide_keeps (a1 : SideCopies) (h : Keeps m s u) (hm : [.alert, .caravan] ⊆ m := by exact sub_ (by assumption) (by decide)) : Keeps m s (countSide u a1) := by
  unfold countSide
  repeat' first
    | exact sub_ hm (by decide)
    | with_reducible assumption
    | with_reducible apply countCrossing_keeps
    | with_reducible refine keeps_foldl ?_ ?_
    | with_reducible refine keeps_ite_left ?_ ?_
    | intro _

theorem wordArrives_keeps (a1 : Nat) (a2 : W32) (a3 : Nat) (h : Keeps m s u) (hm : [.alert, .inputs, .cistern, .parts, .tiles, .spires, .hang, .caravan, .records, .early, .near] ⊆ m := by exact sub_ (by assumption) (by decide)) : Keeps m s (wordArrives u a1 a2 a3) := by
  unfold wordArrives
  repeat' first
    | exact sub_ hm (by decide)
    | with_reducible assumption
    | with_reducible apply onSp_keeps
    | with_reducible apply onTile_keeps
    | with_reducible apply report_keeps
    | with_reducible apply updSp_keeps
    | with_reducible apply traceLevels_keeps
    | with_reducible apply firstFence_keeps
    | with_reducible apply tryBegin_keeps
    | with_reducible apply watchRouter_keeps
    | with_reducible refine keeps_foldl ?_ ?_
    | with_reducible refine keeps_ite_left ?_ ?_
    | intro _
    | split
    | with_reducible refine keeps_mk ?_ rfl

theorem frameArrives_keeps (a1 : Nat) (a2 : W32) (a3 : SideCopies) (a4 : Nat) (h : Keeps m s u) (hm : [.alert, .inputs, .cistern, .parts, .tiles, .spires, .hang, .caravan, .records, .early, .near] ⊆ m := by exact sub_ (by assumption) (by decide)) : Keeps m s (frameArrives u a1 a2 a3 a4) := by
  unfold frameArrives
  repeat' first
    | exact sub_ hm (by decide)
    | with_reducible assumption
    | with_reducible apply wordArrives_keeps
    | with_reducible apply countSide_keeps

theorem execFenceFrame_keeps (a1 : Nat) (a2 : W32) (a3 : SideCopies) (h : Keeps m s u) (hm : [.alert, .inputs, .cistern, .parts, .tiles, .spires, .hang, .caravan, .records, .early, .near] ⊆ m := by exact sub_ (by assumption) (by decide)) : ∃ t, execFenceFrame a1 a2 a3 u = .next t ∧ Keeps m s t := by
  refine ⟨_, rfl, ?_⟩
  repeat' first
    | exact sub_ hm (by decide)
    | with_reducible assumption
    | with_reducible apply frameArrives_keeps

theorem execTestOn_keeps (a1 : Nat) (a2 : W32) (a3 : SideCopies) (h : Keeps m s u) (hm : [.alert, .inputs, .cistern, .parts, .tiles, .spires, .hang, .caravan, .records, .early, .near] ⊆ m := by exact sub_ (by assumption) (by decide)) : ∃ t, execTestOn a1 a2 a3 u = .next t ∧ Keeps m s t := by
  refine ⟨_, rfl, ?_⟩
  repeat' first
    | exact sub_ hm (by decide)
    | with_reducible assumption
    | with_reducible apply frameArrives_keeps

theorem execTestOff_keeps (a1 : Nat) (a2 : W32) (a3 : SideCopies) (h : Keeps m s u) (hm : [.alert, .inputs, .cistern, .parts, .tiles, .spires, .hang, .caravan, .records, .early, .near] ⊆ m := by exact sub_ (by assumption) (by decide)) : ∃ t, execTestOff a1 a2 a3 u = .next t ∧ Keeps m s t := by
  refine ⟨_, rfl, ?_⟩
  repeat' first
    | exact sub_ hm (by decide)
    | with_reducible assumption
    | with_reducible apply frameArrives_keeps

theorem execDeadFrame_keeps (a1 : Nat) (a2 : W32) (a3 : SideCopies) (h : Keeps m s u) (hm : [.alert, .inputs, .cistern, .parts, .tiles, .spires, .hang, .caravan, .records, .early, .near] ⊆ m := by exact sub_ (by assumption) (by decide)) : ∃ t, execDeadFrame a1 a2 a3 u = .next t ∧ Keeps m s t := by
  refine ⟨_, rfl, ?_⟩
  repeat' first
    | exact sub_ hm (by decide)
    | with_reducible assumption
    | with_reducible apply frameArrives_keeps

theorem execReleaseFrame_keeps (a1 : Nat) (a2 : W32) (a3 : SideCopies) (h : Keeps m s u) (hm : [.alert, .inputs, .cistern, .parts, .tiles, .spires, .hang, .caravan, .records, .early, .near] ⊆ m := by exact sub_ (by assumption) (by decide)) : ∃ t, execReleaseFrame a1 a2 a3 u = .next t ∧ Keeps m s t := by
  refine ⟨_, rfl, ?_⟩
  repeat' first
    | exact sub_ hm (by decide)
    | with_reducible assumption
    | with_reducible apply frameArrives_keeps

theorem execRetire_keeps (a1 : Nat) (a2 : W32) (a3 : SideCopies) (h : Keeps m s u) (hm : [.alert, .inputs, .cistern, .parts, .tiles, .spires, .hang, .caravan, .records, .early, .near] ⊆ m := by exact sub_ (by assumption) (by decide)) : ∃ t, execRetire a1 a2 a3 u = .next t ∧ Keeps m s t := by
  refine ⟨_, rfl, ?_⟩
  repeat' first
    | exact sub_ hm (by decide)
    | with_reducible assumption
    | with_reducible apply frameArrives_keeps

theorem step3Begins_keeps (hn : u.boot.step ≠ 7) (h : Keeps m s u) (hm : [.boot, .spires] ⊆ m := by exact sub_ (by assumption) (by decide)) : Keeps m s (step3Begins u) :=
  keeps_foldl (fun _ _ hv => traceLevels_keeps _ (updSp_keeps _ _ hv)) (stepBegins_keeps 3 (.inl hn) h)

theorem checkersOff_keeps (h : Keeps m s u) (hm : [.spires] ⊆ m := by exact sub_ (by assumption) (by decide)) : Keeps m s (checkersOff u) := by
  unfold checkersOff
  repeat' first
    | exact sub_ hm (by decide)
    | with_reducible assumption
    | with_reducible apply traceLevels_keeps
    | with_reducible apply updSp_keeps
    | with_reducible refine keeps_foldl ?_ ?_
    | with_reducible refine keeps_ite_left ?_ ?_
    | intro _

theorem releaseDone_keeps (a1 : OutFrame) (h : Keeps m s u) (hm : [.cmd, .cmds] ⊆ m := by exact sub_ (by assumption) (by decide)) : Keeps m s (releaseDone u a1) := by
  unfold releaseDone
  repeat' first
    | exact sub_ hm (by decide)
    | with_reducible assumption
    | with_reducible apply cmdFinish_keeps
    | with_reducible refine keeps_foldl ?_ ?_
    | with_reducible refine keeps_ite_left ?_ ?_
    | intro _
    | split

theorem completeFrame_keeps (a1 : DoneMsg) (a2 : OutFrame) (h : Keeps m s u) (hm : [.alert, .cmd, .cmds, .cistern, .parts, .records, .early, .near] ⊆ m := by exact sub_ (by assumption) (by decide)) : Keeps m s (completeFrame u a1 a2) := by
  unfold completeFrame
  repeat' first
    | exact sub_ hm (by decide)
    | with_reducible assumption
    | with_reducible apply releaseDone_keeps
    | with_reducible apply frameRec_keeps

theorem outDone_keeps (a1 : DoneMsg) (a2 : Tile) (a3 : OutFrame) (h : Keeps m s u) (hm : [.alert, .cmd, .cmds, .cistern, .parts, .tiles, .domes, .caravan, .records, .early, .near] ⊆ m := by exact sub_ (by assumption) (by decide)) : Keeps m s (outDone u a1 a2 a3) := by
  unfold outDone
  repeat' first
    | exact sub_ hm (by decide)
    | with_reducible assumption
    | exact Tile.Stays.of_eq rfl rfl
    | with_reducible apply updTile_keeps
    | with_reducible apply completeFrame_keeps
    | with_reducible apply recordUnsent_keeps
    | with_reducible apply issueFrame_keeps
    | with_reducible refine keeps_foldl ?_ ?_
    | with_reducible refine keeps_ite_left ?_ ?_
    | intro _
    | split

theorem frameDone_keeps (a1 : DoneMsg) (h : Keeps m s u) (hm : [.alert, .cmd, .cmds, .cistern, .parts, .tiles, .domes, .caravan, .records, .early, .near] ⊆ m := by exact sub_ (by assumption) (by decide)) : Keeps m s (frameDone u a1) := by
  unfold frameDone
  repeat' first
    | exact sub_ hm (by decide)
    | with_reducible assumption
    | exact Tile.Stays.of_eq rfl rfl
    | with_reducible apply onTile_keeps
    | with_reducible apply completeFrame_keeps
    | with_reducible apply updTile_keeps
    | with_reducible apply outDone_keeps
    | with_reducible refine keeps_foldl ?_ ?_
    | with_reducible refine keeps_ite_left ?_ ?_
    | intro _
    | split

theorem execFenceDone_keeps (a1 : Nat) (a2 : Byte) (h : Keeps m s u) (hm : [.alert, .cmd, .cmds, .cistern, .parts, .tiles, .domes, .caravan, .records, .early, .near] ⊆ m := by exact sub_ (by assumption) (by decide)) : ∃ t, execFenceDone a1 a2 u = .next t ∧ Keeps m s t := by
  refine ⟨_, rfl, ?_⟩
  repeat' first
    | exact sub_ hm (by decide)
    | with_reducible assumption
    | with_reducible apply frameDone_keeps
    | with_reducible apply holdCredits_keeps
    | with_reducible refine keeps_foldl ?_ ?_
    | with_reducible refine keeps_ite_left ?_ ?_
    | intro _
    | split
    | with_reducible refine keeps_mk ?_ rfl

theorem execFenceReissue_keeps (a1 : Nat) (h : Keeps m s u) (hm : [.alert, .cmd, .inputs, .cmds, .cistern, .parts, .tiles, .caravan, .records, .early, .near] ⊆ m := by exact sub_ (by assumption) (by decide)) : ∃ t, execFenceReissue a1 u = .next t ∧ Keeps m s t := by
  refine ⟨_, rfl, ?_⟩
  repeat' first
    | exact sub_ hm (by decide)
    | with_reducible assumption
    | exact Tile.Stays.of_eq rfl rfl
    | with_reducible apply onTile_keeps
    | with_reducible apply updTile_keeps
    | with_reducible apply alert_keeps
    | with_reducible apply recordUnsent_keeps
    | with_reducible apply tileInput_keeps
    | with_reducible refine keeps_foldl ?_ ?_
    | with_reducible refine keeps_ite_left ?_ ?_
    | intro _
    | split
    | with_reducible refine keeps_mk ?_ rfl

theorem pollSpire_keeps (a1 : List Nat) (a2 : Tile) (h : Keeps m s u) (hm : [.inputs, .tiles] ⊆ m := by exact sub_ (by assumption) (by decide)) : Keeps m s (pollSpire a1 u a2) := by
  unfold pollSpire
  repeat' first
    | exact sub_ hm (by decide)
    | with_reducible assumption
    | exact Tile.Stays.of_eq rfl rfl
    | with_reducible apply updTile_keeps
    | with_reducible apply tileInput_keeps
    | with_reducible refine keeps_foldl ?_ ?_
    | with_reducible refine keeps_ite_left ?_ ?_
    | intro _

theorem execDomePoll_keeps (a1 : Nat) (a2 : List Nat) (h : Keeps m s u) (hm : [.inputs, .tiles] ⊆ m := by exact sub_ (by assumption) (by decide)) : ∃ t, execDomePoll a1 a2 u = .next t ∧ Keeps m s t := by
  refine ⟨_, rfl, ?_⟩
  repeat' first
    | exact sub_ hm (by decide)
    | with_reducible assumption
    | with_reducible apply pollSpire_keeps
    | with_reducible refine keeps_foldl ?_ ?_
    | with_reducible refine keeps_ite_left ?_ ?_
    | intro _

theorem tickslip_keeps (g : State → State) (hg : ∀ v, Keeps m s v → Keeps m s (g v)) (h : Keeps m s u) (hm : [.time, .belfry] ⊆ m := by exact sub_ (by assumption) (by decide)) : Keeps m s (tickslip u g) := by
  unfold tickslip
  repeat' first
    | exact sub_ hm (by decide)
    | with_reducible assumption
    | with_reducible apply hg
    | with_reducible refine keeps_foldl ?_ ?_
    | with_reducible refine keeps_ite_left ?_ ?_
    | intro _
    | split
    | with_reducible refine keeps_mk ?_ rfl

theorem beaconSpire_keeps (a1 : BeaconAt) (h : Keeps m s u) (hm : [.time, .inputs, .belfry] ⊆ m := by exact sub_ (by assumption) (by decide)) : Keeps m s (beaconSpire u a1) := by
  unfold beaconSpire
  repeat' first
    | exact sub_ hm (by decide)
    | with_reducible assumption
    | with_reducible apply tickslip_keeps
    | with_reducible apply tileInput_keeps
    | with_reducible refine keeps_foldl ?_ ?_
    | with_reducible refine keeps_ite_left ?_ ?_
    | intro _
    | split
    | with_reducible refine keeps_mk ?_ rfl

theorem beaconDome_keeps (a1 : BeaconAt) (h : Keeps m s u) (hm : [.time, .alert, .inputs, .belfry, .caravan] ⊆ m := by exact sub_ (by assumption) (by decide)) : Keeps m s (beaconDome u a1) := by
  unfold beaconDome
  repeat' first
    | exact sub_ hm (by decide)
    | with_reducible assumption
    | with_reducible apply countSide_keeps
    | with_reducible apply tickslip_keeps
    | with_reducible apply partInput_keeps
    | with_reducible refine keeps_foldl ?_ ?_
    | with_reducible refine keeps_ite_left ?_ ?_
    | intro _
    | split
    | with_reducible refine keeps_mk ?_ rfl

theorem beaconEpoch_keeps (a1 : Tile) (h : Keeps m s u) (hm : [.spires] ⊆ m := by exact sub_ (by assumption) (by decide)) : Keeps m s (beaconEpoch u a1) := by
  unfold beaconEpoch
  repeat' first
    | exact sub_ hm (by decide)
    | with_reducible assumption
    | with_reducible apply onSp_keeps
    | with_reducible apply trace_keeps
    | with_reducible apply updSp_keeps
    | with_reducible refine keeps_foldl ?_ ?_
    | with_reducible refine keeps_ite_left ?_ ?_
    | intro _

theorem execTimeBeacon_keeps (a1 a2 : List BeaconAt) (h : Keeps m s u) (hm : [.time, .alert, .inputs, .belfry, .spires, .caravan] ⊆ m := by exact sub_ (by assumption) (by decide)) : ∃ t, execTimeBeacon a1 a2 u = .next t ∧ Keeps m s t := by
  refine ⟨_, rfl, ?_⟩
  repeat' first
    | exact sub_ hm (by decide)
    | with_reducible assumption
    | with_reducible apply beaconDome_keeps
    | with_reducible apply beaconSpire_keeps
    | with_reducible apply beaconEpoch_keeps
    | with_reducible refine keeps_foldl ?_ ?_
    | with_reducible refine keeps_ite_left ?_ ?_
    | intro _

theorem execProgressFrame_keeps (a1 : Nat) (a2 : BitVec 256) (h : Keeps m s u) (hm : [.tiles, .spires, .hang] ⊆ m := by exact sub_ (by assumption) (by decide)) : ∃ t, execProgressFrame a1 a2 u = .next t ∧ Keeps m s t := by
  refine ⟨_, rfl, ?_⟩
  repeat' first
    | exact sub_ hm (by decide)
    | with_reducible assumption
    | with_reducible refine keeps_foldl ?_ ?_
    | with_reducible refine keeps_ite_left ?_ ?_
    | intro _
    | split
    | with_reducible refine keeps_mk ?_ rfl

theorem stragglerEvent_keeps (a1 : Nat) (a2 : Runner) (a3 : Nat) (h : Keeps m s u) (hm : [.alert, .inputs, .cistern, .parts, .records, .early, .near] ⊆ m := by exact sub_ (by assumption) (by decide)) : Keeps m s (stragglerEvent u a1 a2 a3) := by
  unfold stragglerEvent
  repeat' first
    | exact sub_ hm (by decide)
    | with_reducible assumption
    | with_reducible apply addRec_keeps
    | with_reducible apply addInput_keeps

theorem slowPeriod_keeps (a1 a2 a3 : Nat) (a4 : Runner) (h : Keeps m s u) (hm : [.alert, .inputs, .cistern, .parts, .tiles, .records, .early, .near, .erg, .rng] ⊆ m := by exact sub_ (by assumption) (by decide)) : Keeps m s (slowPeriod a1 a2 a3 u a4) := by
  unfold slowPeriod
  repeat' first
    | exact sub_ hm (by decide)
    | with_reducible assumption
    | exact Tile.Stays.of_eq rfl rfl
    | with_reducible apply onTile_keeps
    | with_reducible apply ergSlag_keeps
    | with_reducible apply updTile_keeps
    | with_reducible apply stragglerEvent_keeps
    | with_reducible refine keeps_foldl ?_ ?_
    | with_reducible refine keeps_ite_left ?_ ?_
    | intro _
    | split
    | with_reducible refine keeps_mk ?_ rfl

theorem groupPeriod_keeps (a1 a2 a3 : Nat) (a4 : List Runner) (h : Keeps m s u) (hm : [.alert, .inputs, .cistern, .parts, .tiles, .records, .early, .near, .erg, .rng] ⊆ m := by exact sub_ (by assumption) (by decide)) : Keeps m s (groupPeriod a1 a2 a3 u a4) := by
  unfold groupPeriod
  repeat' first
    | exact sub_ hm (by decide)
    | with_reducible assumption
    | with_reducible apply slowPeriod_keeps
    | with_reducible refine keeps_foldl ?_ ?_
    | with_reducible refine keeps_ite_left ?_ ?_
    | intro _

theorem execStragglerPeriod_keeps (a1 : Nat) (h : Keeps m s u) (hm : [.alert, .inputs, .cistern, .parts, .tiles, .spires, .records, .early, .near, .erg, .rng] ⊆ m := by exact sub_ (by assumption) (by decide)) : ∃ t, execStragglerPeriod a1 u = .next t ∧ Keeps m s t := by
  refine ⟨_, rfl, ?_⟩
  repeat' first
    | exact sub_ hm (by decide)
    | with_reducible assumption
    | with_reducible apply groupPeriod_keeps
    | with_reducible apply trace_keeps
    | with_reducible refine keeps_foldl ?_ ?_
    | with_reducible refine keeps_ite_left ?_ ?_
    | intro _
    | split
    | with_reducible refine keeps_mk ?_ rfl

end Sys2Proof.Machine
end

