-- ==== Sys2Proof/Laws/KeepsImageCheck.lean ====
section
/-! SUPPORT. What each operation of Machine/ImageCheck.lean keeps. -/

set_option Elab.async false

namespace Sys2Proof.Machine

variable {m : List Fld} {s u : State}

theorem takeBlob_keeps (a1 : List Byte × Nat) (h : Keeps m s u) (hm : [.alert, .cistern, .boot, .parts, .records, .early, .near] ⊆ m := by exact sub_ (by assumption) (by decide)) : Keeps m s (takeBlob u a1) := by
  unfold takeBlob
  repeat' first
    | exact sub_ hm (by decide)
    | with_reducible assumption
    | with_reducible apply addRec_keeps
    | with_reducible refine keeps_foldl ?_ ?_
    | with_reducible refine keeps_ite_left ?_ ?_
    | intro _
    | split
    | with_reducible refine keeps_mk ?_ rfl

theorem takeLicences_keeps (a1 : List (List Byte)) (h : Keeps m s u) (hm : [.alert, .cistern, .boot, .parts, .records, .early, .near] ⊆ m := by exact sub_ (by assumption) (by decide)) : Keeps m s (takeLicences u a1) := by
  unfold takeLicences
  repeat' first
    | exact sub_ hm (by decide)
    | with_reducible assumption
    | with_reducible apply takeBlob_keeps
    | with_reducible refine keeps_foldl ?_ ?_
    | with_reducible refine keeps_ite_left ?_ ?_
    | intro _
    | split
    | with_reducible refine keeps_mk ?_ rfl

end Sys2Proof.Machine
end

