-- ==== Sys2Proof/Laws/KeepsTime.lean ====
section
/-! SUPPORT. What each operation of Machine/Time.lean keeps. -/

set_option Elab.async false

namespace Sys2Proof.Machine

variable {m : List Fld} {s u : State}

theorem execTimerefLoss_keeps (h : Keeps m s u) (hm : [.time, .alert, .cistern, .parts, .records, .early, .near] ⊆ m := by exact sub_ (by assumption) (by decide)) : ∃ t, execTimerefLoss u = .next t ∧ Keeps m s t := by
  refine ⟨_, rfl, ?_⟩
  repeat' first
    | exact sub_ hm (by decide)
    | with_reducible assumption
    | with_reducible apply alert_keeps
    | with_reducible apply addRec_keeps
    | with_reducible refine keeps_foldl ?_ ?_
    | with_reducible refine keeps_ite_left ?_ ?_
    | intro _
    | split
    | with_reducible refine keeps_mk ?_ rfl

theorem execTimerefRelock_keeps (h : Keeps m s u) (hm : [.time, .alert, .cistern, .parts, .ports, .records, .early, .near, .big] ⊆ m := by exact sub_ (by assumption) (by decide)) : ∃ t, execTimerefRelock u = .next t ∧ Keeps m s t := by
  refine ⟨_, rfl, ?_⟩
  repeat' first
    | exact sub_ hm (by decide)
    | with_reducible assumption
    | with_reducible apply addRec_keeps
    | with_reducible apply measurePort_keeps
    | with_reducible refine keeps_foldl ?_ ?_
    | with_reducible refine keeps_ite_left ?_ ?_
    | intro _
    | split
    | with_reducible refine keeps_mk ?_ rfl

theorem execHoldoverMeasure_keeps (a1 : Int) (h : Keeps m s u) (hm : [.time] ⊆ m := by exact sub_ (by assumption) (by decide)) : ∃ t, execHoldoverMeasure a1 u = .next t ∧ Keeps m s t := by
  refine ⟨_, rfl, ?_⟩
  repeat' first
    | exact sub_ hm (by decide)
    | with_reducible assumption
    | with_reducible refine keeps_foldl ?_ ?_
    | with_reducible refine keeps_ite_left ?_ ?_
    | intro _
    | split
    | with_reducible refine keeps_mk ?_ rfl

theorem startTick_keeps (h : Keeps m s u) (hm : [.timeRun, .time, .boot, .spires] ⊆ m := by exact sub_ (by assumption) (by decide)) : Keeps m s (startTick u) := by
  unfold startTick
  dsimp only
  have h1 : Keeps m s { u with time := { u.time with run := true, alignWait := false } } := keeps_mk h rfl
  split
  · rename_i g
    exact step3Begins_keeps (by rw [g.1]; decide) h1
  · exact h1

theorem execPpsEdge_keeps (h : Keeps m s u) (hm : [.tick, .timeRun, .time, .boot, .spires] ⊆ m := by exact sub_ (by assumption) (by decide)) : ∃ t, execPpsEdge u = .next t ∧ Keeps m s t := by
  refine ⟨_, rfl, ?_⟩
  repeat' first
    | exact sub_ hm (by decide)
    | with_reducible assumption
    | with_reducible apply startTick_keeps
    | with_reducible refine keeps_foldl ?_ ?_
    | with_reducible refine keeps_ite_left ?_ ?_
    | intro _
    | split
    | with_reducible refine keeps_mk ?_ rfl

theorem execPpsTimeout_keeps (h : Keeps m s u) (hm : [.time] ⊆ m := by exact sub_ (by assumption) (by decide)) : ∃ t, execPpsTimeout u = .next t ∧ Keeps m s t := by
  refine ⟨_, rfl, ?_⟩
  repeat' first
    | exact sub_ hm (by decide)
    | with_reducible assumption
    | with_reducible refine keeps_foldl ?_ ?_
    | with_reducible refine keeps_ite_left ?_ ?_
    | intro _
    | split
    | with_reducible refine keeps_mk ?_ rfl

theorem execPpsAlignTimeout_keeps (h : Keeps m s u) (hm : [.timeRun, .time, .boot, .spires] ⊆ m := by exact sub_ (by assumption) (by decide)) : ∃ t, execPpsAlignTimeout u = .next t ∧ Keeps m s t := by
  refine ⟨_, rfl, ?_⟩
  repeat' first
    | exact sub_ hm (by decide)
    | with_reducible assumption
    | with_reducible apply startTick_keeps
    | with_reducible refine keeps_foldl ?_ ?_
    | with_reducible refine keeps_ite_left ?_ ?_
    | intro _
    | split
    | with_reducible refine keeps_mk ?_ rfl

end Sys2Proof.Machine
end

