-- ==== Sys2Proof/Laws/KeepsThermal.lean ====
section
/-! SUPPORT. What each operation of Machine/Thermal.lean keeps. -/

set_option Elab.async false

namespace Sys2Proof.Machine

variable {m : List Fld} {s u : State}

theorem driveLevel_keeps (h : Keeps m s u) (hm : [.thermal] ⊆ m := by exact sub_ (by assumption) (by decide)) : Keeps m s (driveLevel u) := by
  unfold driveLevel
  repeat' first
    | exact sub_ hm (by decide)
    | with_reducible assumption
    | with_reducible apply thmCount_keeps
    | with_reducible refine keeps_foldl ?_ ?_
    | with_reducible refine keeps_ite_left ?_ ?_
    | intro _
    | split
    | with_reducible refine keeps_mk ?_ rfl

theorem thermInput_keeps (a1 : Bool) (a2 a3 : Nat) (h : Keeps m s u) (hm : [.inputs] ⊆ m := by exact sub_ (by assumption) (by decide)) : Keeps m s (thermInput u a1 a2 a3) := by
  unfold thermInput
  repeat' first
    | exact sub_ hm (by decide)
    | with_reducible assumption
    | with_reducible apply partInput_keeps
    | with_reducible apply tileInput_keeps
    | with_reducible refine keeps_foldl ?_ ?_
    | with_reducible refine keeps_ite_left ?_ ?_
    | intro _

theorem tripDie_keeps (a1 : Bool) (a2 : Nat) (a3 : Sensor) (h : Keeps m s u) (hm : [.alert, .cmd, .inputs, .cmds, .cistern, .pads, .parts, .tiles, .spires, .domes, .engines, .caravan, .records, .early, .near, .thermal] ⊆ m := by exact sub_ (by assumption) (by decide)) : Keeps m s (tripDie u a1 a2 a3) := by
  unfold tripDie
  repeat' first
    | exact sub_ hm (by decide)
    | with_reducible assumption
    | with_reducible apply driveLevel_keeps
    | with_reducible apply addRec_keeps
    | with_reducible apply abortSlices_keeps
    | with_reducible apply thermInput_keeps
    | with_reducible refine keeps_foldl ?_ ?_
    | with_reducible refine keeps_ite_left ?_ ?_
    | intro _
    | split
    | with_reducible refine keeps_mk ?_ rfl

theorem putSensor_keeps (a1 : Bool) (a2 : Nat) (a3 : Sensor) (h : Keeps m s u) (hm : [.spires, .domes] ⊆ m := by exact sub_ (by assumption) (by decide)) : Keeps m s (putSensor u a1 a2 a3) := by
  unfold putSensor
  repeat' first
    | exact sub_ hm (by decide)
    | with_reducible assumption
    | with_reducible apply updDome_keeps
    | with_reducible apply updSp_keeps
    | with_reducible refine keeps_foldl ?_ ?_
    | with_reducible refine keeps_ite_left ?_ ?_
    | intro _

theorem markBad_keeps (a1 : Bool) (a2 : Nat) (a3 : Sensor) (h : Keeps m s u) (hm : [.spires, .domes, .thermal] ⊆ m := by exact sub_ (by assumption) (by decide)) : Keeps m s (markBad u a1 a2 a3) := by
  unfold markBad
  repeat' first
    | exact sub_ hm (by decide)
    | with_reducible assumption
    | with_reducible apply thmCount_keeps
    | with_reducible apply putSensor_keeps
    | with_reducible apply driveLevel_keeps
    | with_reducible refine keeps_foldl ?_ ?_
    | with_reducible refine keeps_ite_left ?_ ?_
    | intro _
    | split
    | with_reducible refine keeps_mk ?_ rfl

theorem sweepDome_keeps (a1 : Dome) (h : Keeps m s u) (hm : [.erg] ⊆ m := by exact sub_ (by assumption) (by decide)) : Keeps m s (sweepDome u a1) := by
  unfold sweepDome
  repeat' first
    | exact sub_ hm (by decide)
    | with_reducible assumption
    | with_reducible apply ergTemp_keeps
    | with_reducible refine keeps_foldl ?_ ?_
    | with_reducible refine keeps_ite_left ?_ ?_
    | intro _
    | split
    | with_reducible refine keeps_mk ?_ rfl

theorem sweepEnd_keeps (h : Keeps m s u) (hm : [.thermal, .erg] ⊆ m := by exact sub_ (by assumption) (by decide)) : Keeps m s (sweepEnd u) := by
  unfold sweepEnd
  repeat' first
    | exact sub_ hm (by decide)
    | with_reducible assumption
    | with_reducible apply sweepDome_keeps
    | with_reducible apply driveLevel_keeps
    | with_reducible refine keeps_foldl ?_ ?_
    | with_reducible refine keeps_ite_left ?_ ?_
    | intro _
    | split
    | with_reducible refine keeps_mk ?_ rfl

theorem sweepMark_keeps (a1 : Bool) (a2 : Nat) (h : Keeps m s u) (hm : [.thermal, .erg] ⊆ m := by exact sub_ (by assumption) (by decide)) : Keeps m s (sweepMark u a1 a2) := by
  unfold sweepMark
  repeat' first
    | exact sub_ hm (by decide)
    | with_reducible assumption
    | with_reducible apply sweepEnd_keeps
    | with_reducible refine keeps_foldl ?_ ?_
    | with_reducible refine keeps_ite_left ?_ ?_
    | intro _
    | split
    | with_reducible refine keeps_mk ?_ rfl

theorem goodReading_keeps (a1 : Bool) (a2 : Nat) (a3 : Sensor) (h : Keeps m s u) (hm : [.alert, .cmd, .inputs, .cmds, .cistern, .pads, .parts, .tiles, .spires, .domes, .engines, .caravan, .records, .early, .near, .thermal] ⊆ m := by exact sub_ (by assumption) (by decide)) : Keeps m s (goodReading u a1 a2 a3) := by
  unfold goodReading
  repeat' first
    | exact sub_ hm (by decide)
    | with_reducible assumption
    | with_reducible apply driveLevel_keeps
    | with_reducible apply putSensor_keeps
    | with_reducible apply addRec_keeps
    | with_reducible apply thermInput_keeps
    | with_reducible apply tripDie_keeps
    | with_reducible refine keeps_foldl ?_ ?_
    | with_reducible refine keeps_ite_left ?_ ?_
    | intro _

theorem takeReading_keeps (a1 : Bool) (a2 a3 : Nat) (h : Keeps m s u) (hm : [.alert, .cmd, .inputs, .cmds, .cistern, .pads, .parts, .tiles, .spires, .domes, .engines, .caravan, .records, .early, .near, .thermal, .erg] ⊆ m := by exact sub_ (by assumption) (by decide)) : Keeps m s (takeReading u a1 a2 a3) := by
  unfold takeReading
  repeat' first
    | exact sub_ hm (by decide)
    | with_reducible assumption
    | with_reducible apply markBad_keeps
    | with_reducible apply goodReading_keeps
    | with_reducible apply sweepMark_keeps
    | with_reducible refine keeps_foldl ?_ ?_
    | with_reducible refine keeps_ite_left ?_ ?_
    | intro _
    | split

theorem execSensorReading_keeps (a1 : Bool) (a2 a3 : Nat) (h : Keeps m s u) (hm : [.alert, .cmd, .inputs, .cmds, .cistern, .pads, .parts, .tiles, .spires, .domes, .engines, .caravan, .records, .early, .near, .thermal, .erg] ⊆ m := by exact sub_ (by assumption) (by decide)) : ∃ t, execSensorReading a1 a2 a3 u = .next t ∧ Keeps m s t := by
  refine ⟨_, rfl, ?_⟩
  repeat' first
    | exact sub_ hm (by decide)
    | with_reducible assumption
    | with_reducible apply takeReading_keeps

theorem execLevelFall_keeps (a1 : Bool) (a2 : Nat) (h : Keeps m s u) (hm : [.alert, .inputs, .cistern, .parts, .spires, .domes, .records, .early, .near, .thermal] ⊆ m := by exact sub_ (by assumption) (by decide)) : ∃ t, execLevelFall a1 a2 u = .next t ∧ Keeps m s t := by
  refine ⟨_, rfl, ?_⟩
  repeat' first
    | exact sub_ hm (by decide)
    | with_reducible assumption
    | with_reducible apply driveLevel_keeps
    | with_reducible apply putSensor_keeps
    | with_reducible apply addRec_keeps
    | with_reducible apply thermInput_keeps
    | with_reducible refine keeps_foldl ?_ ?_
    | with_reducible refine keeps_ite_left ?_ ?_
    | intro _
    | split

end Sys2Proof.Machine
end

