-- ==== Sys2Proof/Laws/KeepsMeter.lean ====
section
/-! SUPPORT. What each operation of Machine/Meter.lean keeps. -/

set_option Elab.async false

namespace Sys2Proof.Machine

variable {m : List Fld} {s u : State}

theorem meterOut_keeps (a1 : Nat) (a2 : List Rec) (h : Keeps m s u) (hm : [.parts, .near, .mtr] ⊆ m := by exact sub_ (by assumption) (by decide)) : Keeps m s (meterOut u a1 a2) := by
  unfold meterOut
  repeat' first
    | exact sub_ hm (by decide)
    | with_reducible assumption
    | with_reducible apply logMeter_keeps
    | with_reducible refine keeps_foldl ?_ ?_
    | with_reducible refine keeps_ite_left ?_ ?_
    | intro _
    | split
    | with_reducible refine keeps_mk ?_ rfl

theorem closePart_keeps (a1 : PeriodEnd) (a2 a3 : W64) (a4 : Nat) (h : Keeps m s u) (hm : [.parts, .near, .mtr] ⊆ m := by exact sub_ (by assumption) (by decide)) : Keeps m s (closePart a1 a2 a3 u a4) := by
  unfold closePart
  repeat' first
    | exact sub_ hm (by decide)
    | with_reducible assumption
    | with_reducible apply meterOut_keeps
    | with_reducible apply updPart_keeps

theorem closePeriod_keeps (a1 : PeriodEnd) (h : Keeps m s u) (hm : [.parts, .near, .mtr] ⊆ m := by exact sub_ (by assumption) (by decide)) : Keeps m s (closePeriod u a1) := by
  unfold closePeriod
  repeat' first
    | exact sub_ hm (by decide)
    | with_reducible assumption
    | with_reducible apply updPart_keeps
    | with_reducible apply closePart_keeps
    | with_reducible refine keeps_foldl ?_ ?_
    | with_reducible refine keeps_ite_left ?_ ?_
    | intro _
    | split
    | with_reducible refine keeps_mk ?_ rfl

theorem closeEarly_keeps (a1 : PeriodEnd) (h : Keeps m s u) (hm : [.parts, .near, .mtr] ⊆ m := by exact sub_ (by assumption) (by decide)) : Keeps m s (closeEarly u a1) := by
  unfold closeEarly
  repeat' first
    | exact sub_ hm (by decide)
    | with_reducible assumption
    | with_reducible apply closePeriod_keeps
    | with_reducible refine keeps_foldl ?_ ?_
    | with_reducible refine keeps_ite_left ?_ ?_
    | intro _

theorem setLabel_keeps (a1 : W64) (h : Keeps m s u) (hm : [.mtr] ⊆ m := by exact sub_ (by assumption) (by decide)) : Keeps m s (setLabel u a1) := by
  unfold setLabel
  repeat' first
    | exact sub_ hm (by decide)
    | with_reducible assumption
    | with_reducible refine keeps_foldl ?_ ?_
    | with_reducible refine keeps_ite_left ?_ ?_
    | intro _
    | split
    | with_reducible refine keeps_mk ?_ rfl

theorem writeDeferred_keeps (h : Keeps m s u) (hm : [.parts, .near, .mtr] ⊆ m := by exact sub_ (by assumption) (by decide)) : Keeps m s (writeDeferred u) := by
  unfold writeDeferred
  repeat' first
    | exact sub_ hm (by decide)
    | with_reducible assumption
    | with_reducible apply logMeter_keeps
    | with_reducible refine keeps_foldl ?_ ?_
    | with_reducible refine keeps_ite_left ?_ ?_
    | intro _
    | split
    | with_reducible refine keeps_mk ?_ rfl

end Sys2Proof.Machine
end

