-- ==== Sys2Proof/Laws/KeepsHang.lean ====
section
/-! SUPPORT. What each operation of Machine/Hang.lean keeps. -/

set_option Elab.async false

namespace Sys2Proof.Machine

variable {m : List Fld} {s u : State}

theorem writeHangDump_keeps (a1 : Option Nat) (h : Keeps m s u) (hm : [.hang, .near] ⊆ m := by exact sub_ (by assumption) (by decide)) : Keeps m s (writeHangDump u a1) := by
  unfold writeHangDump
  repeat' first
    | exact sub_ hm (by decide)
    | with_reducible assumption
    | with_reducible apply nearPush_keeps
    | with_reducible refine keeps_foldl ?_ ?_
    | with_reducible refine keeps_ite_left ?_ ?_
    | intro _
    | split
    | with_reducible refine keeps_mk ?_ rfl

theorem belfryStop_keeps (h : Keeps m s u) (hm : [.belfryRun] ⊆ m := by exact sub_ (by assumption) (by decide)) :
    Keeps m s { u with belfry := { u.belfry with run := false } } := keeps_mk h rfl (hs := fun _ _ => rfl)

theorem faulted_keeps (gr sn : List W32) (h : Keeps m s u) (hm : [.fault, .hang] ⊆ m := by exact sub_ (by assumption) (by decide)) : Keeps m s { u with
    keep := { u.keep with dieFault := true, fault := true }
    hang := { u.hang with stage := 0, resetting := false, waitProgress := false, graph := gr, snap := sn } } :=
  keeps_mk h rfl (hk := ⟨rfl, rfl, rfl, fun _ => rfl, fun _ => rfl, id, fun _ h => h, id, fun _ => rfl, fun _ h => h, fun _ _ => rfl⟩)

theorem dieFault_keeps (cause : Nat) (h : Keeps m s u)
    (hm : [.alert, .cmd, .fault, .belfryRun, .inputs, .cmds, .cistern, .nvm, .parts, .tiles, .spires, .domes, .ops, .tickets, .samples, .engines, .hang, .caravan, .records, .early, .near, .thermal, .mtr, .rng] ⊆ m := by exact sub_ (by assumption) (by decide)) :
    Keeps m s (dieFault u cause) := by
  unfold dieFault
  split
  · exact h
  · refine closeEarly_keeps _ (belfryStop_keeps (writeHangDump_keeps _ (postAll_keeps _ _ (keeps_foldl (fun v a hv => ?_) (faulted_keeps _ _ h)))))
    split
    · rename_i e
      exact changeState_keeps _ _ _ _ _ _ _ _ _ (mayChange_low (Nat.lt_succ_of_lt e)) hv
    · exact hv

theorem execHangTimeout_keeps (a1 : Nat) (h : Keeps m s u) (hm : [.alert, .inputs, .cistern, .parts, .tiles, .hang, .records, .early, .near] ⊆ m := by exact sub_ (by assumption) (by decide)) : ∃ t, execHangTimeout a1 u = .next t ∧ Keeps m s t := by
  refine ⟨_, rfl, ?_⟩
  repeat' first
    | exact sub_ hm (by decide)
    | with_reducible assumption
    | exact Tile.Stays.of_eq rfl rfl
    | with_reducible apply onTile_keeps
    | with_reducible apply onSp_keeps
    | with_reducible apply updTile_keeps
    | with_reducible apply updPart_keeps
    | with_reducible apply addRec_keeps
    | with_reducible apply tileInput_keeps
    | with_reducible refine keeps_foldl ?_ ?_
    | with_reducible refine keeps_ite_left ?_ ?_
    | intro _
    | split
    | with_reducible refine keeps_mk ?_ rfl

theorem hangPath_keeps (a1 : Bool) (a2 : Nat) (a3 a4 : W64) (h : Keeps m s u) (hm : [.hang] ⊆ m := by exact sub_ (by assumption) (by decide)) : Keeps m s (hangPath u a1 a2 a3 a4) := by
  unfold hangPath
  repeat' first
    | exact sub_ hm (by decide)
    | with_reducible assumption
    | with_reducible refine keeps_foldl ?_ ?_
    | with_reducible refine keeps_ite_left ?_ ?_
    | intro _
    | split
    | with_reducible refine keeps_mk ?_ rfl

theorem execHangGraphDone_keeps (a1 : List (Nat × Nat)) (h : Keeps m s u) (hm : [.alert, .cmd, .inputs, .cmds, .cistern, .nvm, .parts, .tiles, .spires, .domes, .ops, .tickets, .samples, .engines, .hang, .caravan, .records, .early, .near, .thermal, .rng] ⊆ m := by exact sub_ (by assumption) (by decide)) : ∃ t, execHangGraphDone a1 u = .next t ∧ Keeps m s t := by
  refine ⟨_, rfl, ?_⟩
  repeat' first
    | exact sub_ hm (by decide)
    | with_reducible assumption
    | with_reducible apply addRec_keeps
    | with_reducible apply alert_keeps
    | with_reducible apply post_keeps
    | with_reducible apply actFence_keeps
    | with_reducible refine keeps_foldl ?_ ?_
    | with_reducible refine keeps_ite_left ?_ ?_
    | intro _
    | split
    | with_reducible refine keeps_mk ?_ rfl

theorem execHangDumpDone_keeps (h : Keeps m s u) (hm : [.hang, .near] ⊆ m := by exact sub_ (by assumption) (by decide)) : ∃ t, execHangDumpDone u = .next t ∧ Keeps m s t := by
  refine ⟨_, rfl, ?_⟩
  repeat' first
    | exact sub_ hm (by decide)
    | with_reducible assumption
    | with_reducible apply writeHangDump_keeps
    | with_reducible refine keeps_foldl ?_ ?_
    | with_reducible refine keeps_ite_left ?_ ?_
    | intro _
    | split
    | with_reducible refine keeps_mk ?_ rfl

theorem execDumpBudget_keeps (h : Keeps m s u) (hm : [.hang, .near, .rng] ⊆ m := by exact sub_ (by assumption) (by decide)) : ∃ t, execDumpBudget u = .next t ∧ Keeps m s t := by
  refine ⟨_, rfl, ?_⟩
  repeat' first
    | exact sub_ hm (by decide)
    | with_reducible assumption
    | with_reducible apply writeHangDump_keeps
    | with_reducible refine keeps_foldl ?_ ?_
    | with_reducible refine keeps_ite_left ?_ ?_
    | intro _
    | split
    | with_reducible refine keeps_mk ?_ rfl

theorem resetCredits_keeps (h : Keeps m s u) (hm : [.spires, .domes, .caravan] ⊆ m := by exact sub_ (by assumption) (by decide)) : Keeps m s (resetCredits u) := by
  unfold resetCredits
  repeat' first
    | exact sub_ hm (by decide)
    | with_reducible assumption
    | with_reducible refine keeps_foldl ?_ ?_
    | with_reducible refine keeps_ite_left ?_ ?_
    | intro _
    | split
    | with_reducible refine keeps_mk ?_ rfl

theorem resyncPort_keeps (a1 : Nat) (h : Keeps m s u) (hm : [.time, .alert, .cistern, .parts, .ports, .seals, .launch, .records, .early, .near, .big] ⊆ m := by exact sub_ (by assumption) (by decide)) : Keeps m s (resyncPort u a1) := by
  unfold resyncPort
  repeat' first
    | exact sub_ hm (by decide)
    | with_reducible assumption
    | with_reducible apply resendFrom_keeps
    | with_reducible refine keeps_foldl ?_ ?_
    | with_reducible refine keeps_ite_left ?_ ?_
    | intro _
    | split

theorem linkResync_keeps (h : Keeps m s u) (hm : [.time, .alert, .keep, .inputs, .cistern, .parts, .tiles, .spires, .domes, .ops, .tickets, .samples, .engines, .ports, .seals, .launch, .caravan, .records, .early, .near, .erg, .big, .rng] ⊆ m := by exact sub_ (by assumption) (by decide)) : Keeps m s (linkResync u) := by
  unfold linkResync
  repeat' first
    | exact sub_ hm (by decide)
    | with_reducible assumption
    | with_reducible apply resyncPort_keeps
    | with_reducible apply resetCredits_keeps
    | with_reducible apply drainAll_keeps
    | with_reducible refine keeps_foldl ?_ ?_
    | with_reducible refine keeps_ite_left ?_ ?_
    | intro _

theorem resetTile_keeps (a1 : Tile) (h : Keeps m s u) (hm : [.tiles, .spires] ⊆ m := by exact sub_ (by assumption) (by decide)) : Keeps m s (resetTile u a1) := by
  unfold resetTile
  repeat' first
    | exact sub_ hm (by decide)
    | with_reducible assumption
    | exact Tile.Stays.of_eq rfl rfl
    | with_reducible apply updTile_keeps
    | with_reducible apply updSp_keeps
    | with_reducible refine keeps_foldl ?_ ?_
    | with_reducible refine keeps_ite_left ?_ ?_
    | intro _

theorem clearForReset_keeps (h : Keeps m s u) (hm : [.alert, .talloc, .inputs, .cistern, .parts, .tiles, .ops, .tickets, .samples, .engines, .tallies, .tallyQ, .records, .early, .near, .rng] ⊆ m := by exact sub_ (by assumption) (by decide)) : Keeps m s (clearForReset u) := by
  unfold clearForReset
  repeat' first
    | exact sub_ hm (by decide)
    | with_reducible assumption
    | with_reducible apply endSample_keeps
    | with_reducible apply resetTallies_keeps
    | with_reducible apply refuseSeal_keeps
    | with_reducible refine keeps_foldl ?_ ?_
    | with_reducible refine keeps_ite_left ?_ ?_
    | intro _
    | split
    | with_reducible refine keeps_mk ?_ rfl

theorem execComputeReset_keeps (h : Keeps m s u) (hm : [.time, .alert, .cmd, .talloc, .keep, .inputs, .cmds, .cistern, .parts, .tiles, .spires, .domes, .ops, .tickets, .samples, .engines, .hang, .tallies, .tallyQ, .ports, .seals, .launch, .caravan, .records, .early, .near, .thermal, .erg, .big, .rng] ⊆ m := by exact sub_ (by assumption) (by decide)) : ∃ t, execComputeReset u = .next t ∧ Keeps m s t := by
  refine ⟨_, rfl, ?_⟩
  repeat' first
    | exact sub_ hm (by decide)
    | with_reducible assumption
    | with_reducible apply clearForReset_keeps
    | with_reducible apply abortSlices_keeps
    | with_reducible apply resetTile_keeps
    | with_reducible apply linkResync_keeps
    | with_reducible refine keeps_foldl ?_ ?_
    | with_reducible refine keeps_ite_left ?_ ?_
    | intro _
    | split
    | with_reducible refine keeps_mk ?_ rfl

theorem execComputeResetDone_keeps (h : Keeps m s u) (hm : [.parts, .ops, .hang, .near] ⊆ m := by exact sub_ (by assumption) (by decide)) : ∃ t, execComputeResetDone u = .next t ∧ Keeps m s t := by
  refine ⟨_, rfl, ?_⟩
  repeat' first
    | exact sub_ hm (by decide)
    | with_reducible assumption
    | with_reducible apply postAll_keeps
    | with_reducible apply rollback_keeps
    | with_reducible refine keeps_foldl ?_ ?_
    | with_reducible refine keeps_ite_left ?_ ?_
    | intro _
    | split
    | with_reducible refine keeps_mk ?_ rfl

theorem execProgressReturnTimeout_keeps (h : Keeps m s u) (hm : [.alert, .cmd, .fault, .belfryRun, .inputs, .cmds, .cistern, .nvm, .parts, .tiles, .spires, .domes, .ops, .tickets, .samples, .engines, .hang, .caravan, .records, .early, .near, .thermal, .mtr, .rng] ⊆ m := by exact sub_ (by assumption) (by decide)) : ∃ t, execProgressReturnTimeout u = .next t ∧ Keeps m s t := by
  refine ⟨_, rfl, ?_⟩
  repeat' first
    | exact sub_ hm (by decide)
    | with_reducible assumption
    | with_reducible apply dieFault_keeps
    | with_reducible refine keeps_foldl ?_ ?_
    | with_reducible refine keeps_ite_left ?_ ?_
    | intro _
    | split
    | with_reducible refine keeps_mk ?_ rfl

theorem dropCommands_keeps (h : Keeps m s u) (hm : [.cmd, .cmds, .belfry, .tiles] ⊆ m := by exact sub_ (by assumption) (by decide)) : Keeps m s (dropCommands u) := by
  unfold dropCommands
  repeat' first
    | exact sub_ hm (by decide)
    | with_reducible assumption
    | with_reducible refine keeps_foldl ?_ ?_
    | with_reducible refine keeps_ite_left ?_ ?_
    | intro _
    | split
    | with_reducible refine keeps_mk ?_ rfl

theorem loseSamples_keeps (h : Keeps m s u) (hm : [.keep, .samples, .engines] ⊆ m := by exact sub_ (by assumption) (by decide)) : Keeps m s (loseSamples u) := by
  unfold loseSamples
  repeat' first
    | exact sub_ hm (by decide)
    | with_reducible assumption
    | with_reducible apply freeEngine_keeps
    | with_reducible refine keeps_foldl ?_ ?_
    | with_reducible refine keeps_ite_left ?_ ?_
    | intro _
    | split
    | with_reducible refine keeps_mk ?_ rfl

theorem loseInputs_keeps (h : Keeps m s u) (hm : [.belfryRun, .inputs, .cad, .belfry] ⊆ m := by exact sub_ (by assumption) (by decide)) : Keeps m s (loseInputs u) := by
  unfold loseInputs
  repeat' first
    | exact sub_ hm (by decide)
    | with_reducible assumption
    | with_reducible refine keeps_foldl ?_ ?_
    | with_reducible refine keeps_ite_left ?_ ?_
    | intro _
    | split
    | with_reducible refine keeps_mk ?_ rfl

theorem readSlots_keeps (h : Keeps m s u) (hm : [.keep, .near] ⊆ m := by exact sub_ (by assumption) (by decide)) : Keeps m s (readSlots u) := by
  unfold readSlots
  repeat' first
    | exact sub_ hm (by decide)
    | with_reducible assumption
    | with_reducible apply nearPush_keeps
    | with_reducible refine keeps_foldl ?_ ?_
    | with_reducible refine keeps_ite_left ?_ ?_
    | intro _
    | split
    | with_reducible refine keeps_mk ?_ rfl

theorem warmed_keeps (l : Nat) (h : Keeps m s u) (hm : [.mbx, .keep, .belfryRun, .inputs, .belfry, .parts] ⊆ m := by exact sub_ (by assumption) (by decide)) : Keeps m s { u with
      keep := { u.keep with
        mbx := u.keep.mbx.map fun _ => Mbx.reset, kwrDown := true, draining := true, drainLost := List.replicate 16 0 }
      belfry := { u.belfry with run := false, inputs := [], carriedIn := [], carried := false, carryCnt := satAdd u.belfry.carryCnt l }
      parts := u.parts.map fun q => { q with window := q.window.map fun w => { w with kwr := true } } } :=
  keeps_mk h rfl (List.length_map _) rfl rfl rfl rfl rfl
    ⟨List.length_map _, rfl, rfl, id, id, id, fun _ h => h, id, fun _ => rfl, fun _ h => h, fun _ _ => rfl⟩ id (fun _ _ => rfl)
    (Nat.le_refl _) (Nat.le_refl _)

theorem keepWarmReset_keeps (a1 : Nat) (h : Keeps m s u) (hm : [.time, .alert, .cmd, .mbx, .fault, .keep, .belfryRun, .inputs, .cad, .cmds, .belfry, .cistern, .nvm, .parts, .tiles, .spires, .domes, .ops, .tickets, .samples, .engines, .hang, .ports, .seals, .launch, .caravan, .records, .early, .near, .thermal, .erg, .mtr, .big, .rng] ⊆ m := by exact sub_ (by assumption) (by decide)) : Keeps m s (keepWarmReset u a1) := by
  unfold keepWarmReset
  repeat' first
    | exact sub_ hm (by decide)
    | with_reducible assumption
    | with_reducible apply dieFault_keeps
    | with_reducible apply readSlots_keeps
    | with_reducible apply dropCommands_keeps
    | with_reducible apply loseInputs_keeps
    | with_reducible apply loseSamples_keeps
    | with_reducible apply abortSlices_keeps
    | with_reducible apply linkResync_keeps
    | with_reducible refine keeps_foldl ?_ ?_
    | with_reducible refine keeps_ite_left ?_ ?_
    | intro _
    | split
    | with_reducible refine keeps_mk ?_ rfl

theorem execKeepWatchdog_keeps (h : Keeps m s u) (hm : [.time, .alert, .cmd, .mbx, .fault, .keep, .belfryRun, .inputs, .cad, .cmds, .belfry, .cistern, .nvm, .parts, .tiles, .spires, .domes, .ops, .tickets, .samples, .engines, .hang, .ports, .seals, .launch, .caravan, .records, .early, .near, .thermal, .erg, .mtr, .big, .rng] ⊆ m := by exact sub_ (by assumption) (by decide)) : ∃ t, execKeepWatchdog u = .next t ∧ Keeps m s t := by
  refine ⟨_, rfl, ?_⟩
  repeat' first
    | exact sub_ hm (by decide)
    | with_reducible assumption
    | with_reducible apply keepWarmReset_keeps
    | with_reducible refine keeps_foldl ?_ ?_
    | with_reducible refine keeps_ite_left ?_ ?_
    | intro _

theorem subUse_keep (p n : Nat) : (subUse u p n).keep = u.keep := rfl

theorem dropStaged_keeps (r : Rec) (h : Keeps m s u) (hm : [.parts, .records, .keep] ⊆ m := by exact sub_ (by assumption) (by decide)) : Keeps m s
    { subUse u r.part (recLines r) with
      records := u.records.erase r
      keep := { u.keep with drainLost := updAt u.keep.drainLost r.part (· + 1) } } :=
  keeps_mk (subUse_keeps r.part (recLines r) h) rfl rfl rfl rfl rfl rfl rfl
    (by rw [subUse_keep]; exact ⟨rfl, rfl, rfl, id, id, id, fun _ h => h, id, fun _ => rfl, fun _ h => h, fun _ _ => rfl⟩)
    id (fun _ hr => hr) (Nat.le_refl _) (Nat.le_refl _)

theorem execRecordDrainTimeout_keeps (h : Keeps m s u) (hm : [.keep, .cistern, .parts, .records, .near] ⊆ m := by exact sub_ (by assumption) (by decide)) : ∃ t, execRecordDrainTimeout u = .next t ∧ Keeps m s t := by
  refine ⟨_, rfl, ?_⟩
  split
  · exact h
  · have h1 := keeps_foldl (l := u.near.waiting.filterMap evidenceOf) (fun v a hv => dropStaged_keeps a hv) h
    exact keeps_mk h1 rfl rfl rfl rfl rfl rfl rfl
      ⟨rfl, rfl, rfl, id, id, id, fun _ h => h, id, fun _ => rfl, fun _ h => h, fun _ _ => rfl⟩ id (fun _ hr => hr) (Nat.le_refl _)
      (Nat.le_refl _)

end Sys2Proof.Machine
end

