-- ==== Sys2Proof/Laws/KeepsCaravan.lean ====
section
/-! SUPPORT. What each operation of Machine/Caravan.lean keeps. -/

set_option Elab.async false

namespace Sys2Proof.Machine

variable {m : List Fld} {s u : State}

theorem bringFail_keeps (cause : Nat) (h : Keeps m s u) (hm : [.fault, .belfryRun, .boot, .tiles, .spires, .domes, .thermal] ⊆ m := by exact sub_ (by assumption) (by decide)) : Keeps m s (bringFail u cause) := by
  unfold bringFail
  split
  · exact h
  · exact driveLevel_keeps (keeps_mk h rfl
      (hk := ⟨rfl, rfl, rfl, fun _ => rfl, id, id, fun _ h => h, id, fun _ => rfl, fun _ h => h, fun _ _ => rfl⟩)
      (hs := fun _ _ => rfl) (hf := fun _ _ a => ⟨rfl, a.2⟩))

theorem seamdeg_keeps (a1 : Nat) (a2 : Bool) (a3 a4 : Nat) (a5 : List Nat) (h : Keeps m s u) (hm : [.alert, .cistern, .parts, .caravan, .records, .early, .near] ⊆ m := by exact sub_ (by assumption) (by decide)) : Keeps m s (seamdeg u a1 a2 a3 a4 a5) := by
  unfold seamdeg
  repeat' first
    | exact sub_ hm (by decide)
    | with_reducible assumption
    | with_reducible apply alert_keeps
    | with_reducible apply addRec_keeps
    | with_reducible refine keeps_foldl ?_ ?_
    | with_reducible refine keeps_ite_left ?_ ?_
    | intro _
    | split
    | with_reducible refine keeps_mk ?_ rfl

theorem groupDown_keeps (a1 a2 : Nat) (a3 : Bool) (a4 : List Nat) (h : Keeps m s u) (hm : [.alert, .fault, .belfryRun, .cistern, .boot, .parts, .tiles, .spires, .domes, .caravan, .records, .early, .near, .thermal] ⊆ m := by exact sub_ (by assumption) (by decide)) : Keeps m s (groupDown u a1 a2 a3 a4) := by
  unfold groupDown
  repeat' first
    | exact sub_ hm (by decide)
    | with_reducible assumption
    | with_reducible apply updDome_keeps
    | with_reducible apply seamdeg_keeps
    | with_reducible apply bringFail_keeps
    | with_reducible refine keeps_foldl ?_ ?_
    | with_reducible refine keeps_ite_left ?_ ?_
    | intro _
    | split
    | with_reducible refine keeps_mk ?_ rfl

theorem meshDown_keeps (a1 a2 a3 : Nat) (h : Keeps m s u) (hm : [.alert, .inputs, .cistern, .parts, .tiles, .domes, .caravan, .records, .early, .near] ⊆ m := by exact sub_ (by assumption) (by decide)) : Keeps m s (meshDown u a1 a2 a3) := by
  unfold meshDown
  repeat' first
    | exact sub_ hm (by decide)
    | with_reducible assumption
    | exact Tile.Stays.of_eq rfl rfl
    | with_reducible apply updDome_keeps
    | with_reducible apply addRec_keeps
    | with_reducible apply tileInput_keeps
    | with_reducible apply updTile_keeps
    | with_reducible apply alert_keeps
    | with_reducible refine keeps_foldl ?_ ?_
    | with_reducible refine keeps_ite_left ?_ ?_
    | intro _
    | split
    | with_reducible refine keeps_mk ?_ rfl

theorem linkGone_keeps (a1 : LinkId) (h : Keeps m s u) (hm : [.alert, .fault, .belfryRun, .inputs, .cistern, .boot, .parts, .tiles, .spires, .domes, .caravan, .records, .early, .near, .thermal] ⊆ m := by exact sub_ (by assumption) (by decide)) : Keeps m s (linkGone u a1) := by
  unfold linkGone
  repeat' first
    | exact sub_ hm (by decide)
    | with_reducible assumption
    | with_reducible apply meshDown_keeps
    | with_reducible apply groupDown_keeps
    | with_reducible refine keeps_foldl ?_ ?_
    | with_reducible refine keeps_ite_left ?_ ?_
    | intro _
    | split

theorem countRetry_keeps (a1 : Nat) (a2 : LinkId) (a3 : Nat) (h : Keeps m s u) (hm : [.domes, .caravan] ⊆ m := by exact sub_ (by assumption) (by decide)) : Keeps m s (countRetry u a1 a2 a3) := by
  unfold countRetry
  repeat' first
    | exact sub_ hm (by decide)
    | with_reducible assumption
    | with_reducible apply updDome_keeps
    | with_reducible refine keeps_foldl ?_ ?_
    | with_reducible refine keeps_ite_left ?_ ?_
    | intro _
    | split
    | with_reducible refine keeps_mk ?_ rfl

theorem execFlitCrcFail_keeps (a1 : LinkId) (a2 : FlitIn) (h : Keeps m s u) (hm : [.alert, .fault, .belfryRun, .inputs, .cistern, .boot, .parts, .tiles, .spires, .domes, .caravan, .records, .early, .near, .thermal] ⊆ m := by exact sub_ (by assumption) (by decide)) : ∃ t, execFlitCrcFail a1 a2 u = .next t ∧ Keeps m s t := by
  refine ⟨_, rfl, ?_⟩
  repeat' first
    | exact sub_ hm (by decide)
    | with_reducible assumption
    | with_reducible apply linkGone_keeps
    | with_reducible apply countRetry_keeps
    | with_reducible refine keeps_foldl ?_ ?_
    | with_reducible refine keeps_ite_left ?_ ?_
    | intro _
    | split

theorem execBacklogReport_keeps (a1 a2 a3 a4 : Nat) (h : Keeps m s u) (hm : [.domes] ⊆ m := by exact sub_ (by assumption) (by decide)) : ∃ t, execBacklogReport a1 a2 a3 a4 u = .next t ∧ Keeps m s t := by
  refine ⟨_, rfl, ?_⟩
  repeat' first
    | exact sub_ hm (by decide)
    | with_reducible assumption
    | with_reducible apply onSp_keeps
    | with_reducible apply updDome_keeps
    | with_reducible refine keeps_foldl ?_ ?_
    | with_reducible refine keeps_ite_left ?_ ?_
    | intro _

theorem ringLine_keeps (a1 : Nat) (a2 : List TrcEntry) (h : Keeps m s u) (hm : [.parts, .near, .trc] ⊆ m := by exact sub_ (by assumption) (by decide)) : Keeps m s (ringLine u a1 a2) := by
  unfold ringLine
  repeat' first
    | exact sub_ hm (by decide)
    | with_reducible assumption
    | with_reducible apply refuseQuota_keeps
    | with_reducible apply updPart_keeps
    | with_reducible apply addUse_keeps
    | with_reducible apply nearPush_keeps
    | with_reducible apply addMeter_keeps
    | with_reducible refine keeps_foldl ?_ ?_
    | with_reducible refine keeps_ite_left ?_ ?_
    | intro _
    | split
    | with_reducible refine keeps_mk ?_ rfl

theorem drainBulk_keeps (a1 a2 : Nat) (h : Keeps m s u) (hm : [.parts, .spires, .near, .trc] ⊆ m := by exact sub_ (by assumption) (by decide)) : Keeps m s (drainBulk u a1 a2) := by
  unfold drainBulk
  repeat' first
    | exact sub_ hm (by decide)
    | with_reducible assumption
    | with_reducible apply updSp_keeps
    | with_reducible apply uplink_keeps
    | with_reducible apply addBigSp_keeps
    | with_reducible apply ringLine_keeps
    | with_reducible refine keeps_foldl ?_ ?_
    | with_reducible refine keeps_ite_left ?_ ?_
    | intro _
    | split

theorem grantRec_keeps (a1 a2 : Nat) (h : Keeps m s u) (hm : [.parts, .spires, .domes, .near, .trc] ⊆ m := by exact sub_ (by assumption) (by decide)) : Keeps m s (grantRec a1 u a2) := by
  unfold grantRec
  repeat' first
    | exact sub_ hm (by decide)
    | with_reducible assumption
    | with_reducible apply updDome_keeps
    | with_reducible apply drainBulk_keeps
    | with_reducible apply bigDome_keeps

theorem grantWit_keeps (a1 a2 : Nat) (h : Keeps m s u) (hm : [.spires, .domes] ⊆ m := by exact sub_ (by assumption) (by decide)) : Keeps m s (grantWit a1 u a2) := by
  unfold grantWit
  repeat' first
    | exact sub_ hm (by decide)
    | with_reducible assumption
    | with_reducible apply updDome_keeps
    | with_reducible apply updSp_keeps
    | with_reducible apply bigDome_keeps
    | with_reducible apply inject_keeps

theorem grantWits_keeps (d n cap : Nat) (h : Keeps m s u) (hm : [.spires, .domes] ⊆ m := by exact sub_ (by assumption) (by decide)) :
    Keeps m s (grantWits d n cap u).2 := by
  induction n generalizing u cap with
  | zero => exact h
  | succ n ih =>
    unfold grantWits
    split
    · split
      · exact h
      · exact ih _ (grantWit_keeps _ _ h)
    · exact h

theorem drrGrants_keeps (d p : Nat) (kind : Nat × Nat × Nat → Nat) (g : State → Nat → State) (n : Nat) (r : Drr)
    (hg : ∀ v x, Keeps m s v → Keeps m s (g v x)) (h : Keeps m s r.st) (hm : [.parts, .spires, .domes, .near, .trc] ⊆ m := by exact sub_ (by assumption) (by decide)) : Keeps m s (drrGrants d p kind g n r).st := by
  induction n generalizing r with
  | zero => exact h
  | succ n ih =>
    unfold drrGrants
    split
    · exact h
    · split
      · exact h
      · split
        · exact h
        · exact ih _ (hg _ _ h)

theorem drrPart_keeps (d : Nat) (kind : Nat × Nat × Nat → Nat) (g : State → Nat → State) (r : Drr) (p : Nat)
    (hg : ∀ v x, Keeps m s v → Keeps m s (g v x)) (h : Keeps m s r.st) (hm : [.parts, .spires, .domes, .near, .trc] ⊆ m := by exact sub_ (by assumption) (by decide)) : Keeps m s (drrPart d kind g r p).st := by
  unfold drrPart
  split
  · exact h
  · split
    · exact h
    · exact drrGrants_keeps _ _ _ _ _ _ hg h

theorem foldl_drr_keeps {f : Drr → Nat → Drr} {l : List Nat} {r : Drr} (hf : ∀ v a, Keeps m s v.st → Keeps m s (f v a).st)
    (h : Keeps m s r.st) : Keeps m s (l.foldl f r).st := by
  induction l generalizing r with
  | nil => exact h
  | cons a l ih => exact ih (hf r a h)

theorem drr_keeps (d : Nat) (kind : Nat × Nat × Nat → Nat) (g : State → Nat → State) (n : Nat) (r : Drr)
    (hg : ∀ v x, Keeps m s v → Keeps m s (g v x)) (h : Keeps m s r.st) (hm : [.parts, .spires, .domes, .near, .trc] ⊆ m := by exact sub_ (by assumption) (by decide)) : Keeps m s (drr d kind g n r).st := by
  induction n generalizing r with
  | zero => exact h
  | succ n ih =>
    unfold drr
    split
    · exact h
    · split
      · exact h
      · exact ih _ (foldl_drr_keeps (fun v a hv => drrPart_keeps _ _ _ _ _ hg hv) h)

theorem countVerdicts_keeps (a1 a2 : Nat) (h : Keeps m s u) (hm : [.domes] ⊆ m := by exact sub_ (by assumption) (by decide)) : Keeps m s (countVerdicts u a1 a2) := by
  unfold countVerdicts
  repeat' first
    | exact sub_ hm (by decide)
    | with_reducible assumption
    | with_reducible apply updDome_keeps

theorem verdictStorm_keeps (a1 a2 : Nat) (h : Keeps m s u) (hm : [.alert, .cistern, .parts, .domes, .caravan, .records, .early, .near] ⊆ m := by exact sub_ (by assumption) (by decide)) : Keeps m s (verdictStorm u a1 a2) := by
  unfold verdictStorm
  repeat' first
    | exact sub_ hm (by decide)
    | with_reducible assumption
    | with_reducible apply addRec_keeps
    | with_reducible apply updDome_keeps
    | with_reducible refine keeps_foldl ?_ ?_
    | with_reducible refine keeps_ite_left ?_ ?_
    | intro _
    | split
    | with_reducible refine keeps_mk ?_ rfl

theorem execGrantInterval_keeps (a1 a2 : Nat) (h : Keeps m s u) (hm : [.alert, .cistern, .parts, .spires, .domes, .caravan, .records, .early, .near, .trc, .rng] ⊆ m := by exact sub_ (by assumption) (by decide)) : ∃ t, execGrantInterval a1 a2 u = .next t ∧ Keeps m s t := by
  refine ⟨_, rfl, ?_⟩
  repeat' first
    | exact sub_ hm (by decide)
    | with_reducible assumption
    | with_reducible apply countVerdicts_keeps
    | with_reducible apply bigDome_keeps
    | with_reducible apply verdictStorm_keeps
    | with_reducible apply updDome_keeps
    | with_reducible apply grantWits_keeps
    | with_reducible apply drr_keeps
    | with_reducible apply grantRec_keeps
    | with_reducible refine keeps_foldl ?_ ?_
    | with_reducible refine keeps_ite_left ?_ ?_
    | intro _
    | split
    | with_reducible refine keeps_mk ?_ rfl

end Sys2Proof.Machine
end

