-- ==== Sys2Proof/Laws/KeepsCistern.lean ====
section
/-! SUPPORT. What each operation of Machine/Cistern.lean keeps. -/

set_option Elab.async false

namespace Sys2Proof.Machine

variable {m : List Fld} {s u : State}

theorem updCis_keeps {f : Cistern → Cistern} (hb : (f u.cistern).banks.length = u.cistern.banks.length)
    (hd : (f u.cistern).data = u.cistern.data) (hk : (f u.cistern).check = u.cistern.check) (h : Keeps m s u)
    (hm : [.cistern] ⊆ m := by exact sub_ (by assumption) (by decide)) : Keeps m s (updCis u f) :=
  keeps_mk h rfl (hb := hb) (hd := hd) (hc := hk) (hsame := by
    intro g hg
    cases g <;> first
      | rfl
      | exact Prod.ext hd hk
      | exact (Fld.out hm hg (by decide)).elim)

theorem updBank_keeps (a1 : Nat) (a2 : Bank → Bank) (h : Keeps m s u) (hm : [.cistern] ⊆ m := by exact sub_ (by assumption) (by decide)) : Keeps m s (updBank u a1 a2) := by
  unfold updBank
  repeat' first
    | exact sub_ hm (by decide)
    | with_reducible assumption
    | (with_reducible apply updCis_keeps <;> try first | with_reducible rfl | simp only [length_updAt])

theorem cisPut_keeps (k : Nat) (b c : Byte) (h : Keeps m s u) (hm : [.bytes, .cistern] ⊆ m := by exact sub_ (by assumption) (by decide)) : Keeps m s (cisPut u k b c) :=
  h.trans
    { same := by
        intro f hf
        cases f <;> first
          | rfl
          | exact (Fld.out hm hf (by decide)).elim
      pending := rfl
      sized := fun z => ⟨z.parts, z.engines, z.ports, z.banks, z.mbx, z.talloc, z.cmd⟩
      cistern := fun z => ⟨memory_wf_memPut z.data, memory_wf_memPut z.check⟩
      keep := KeepSt.Lasts.rfl_ _
      latch := id
      stopped := fun _ hr => hr
      failed := fun a b => ⟨a, b⟩
      image := fun _ => rfl
      fuses := ⟨id, FuseGrows.rfl_ _⟩
      tiles := fun _ _ => stays_refl _
      opSeq := Nat.le_refl _
      rng := Nat.le_refl _ }

theorem cisStore_keeps (a1 a2 : Nat) (a3 : Byte) (h : Keeps m s u) (hm : [.bytes, .cistern] ⊆ m := by exact sub_ (by assumption) (by decide)) : Keeps m s (cisStore u a1 a2 a3) := by
  unfold cisStore
  repeat' first
    | exact sub_ hm (by decide)
    | with_reducible assumption
    | with_reducible apply cisPut_keeps

theorem foundIn_keeps (a1 a2 a3 a4 : Nat) (h : Keeps m s u) (hm : [.cistern] ⊆ m := by exact sub_ (by assumption) (by decide)) : Keeps m s (foundIn u a1 a2 a3 a4) := by
  unfold foundIn
  repeat' first
    | exact sub_ hm (by decide)
    | with_reducible assumption
    | (with_reducible apply updCis_keeps <;> try first | with_reducible rfl | simp only [length_updAt, List.length_map, List.length_zipIdx])

theorem countCe_keeps (a1 a2 : Nat) (a3 : Bool) (h : Keeps m s u) (hm : [.cistern] ⊆ m := by exact sub_ (by assumption) (by decide)) : Keeps m s (countCe u a1 a2 a3) := by
  unfold countCe
  repeat' first
    | exact sub_ hm (by decide)
    | with_reducible assumption
    | with_reducible apply updBank_keeps
    | (with_reducible apply updCis_keeps <;> try first | with_reducible rfl | simp only [length_updAt, List.length_map, List.length_zipIdx])
    | with_reducible apply foundIn_keeps
    | with_reducible refine keeps_foldl ?_ ?_
    | with_reducible refine keeps_ite_left ?_ ?_
    | intro _

theorem countUe_keeps (a1 a2 : Nat) (h : Keeps m s u) (hm : [.cistern] ⊆ m := by exact sub_ (by assumption) (by decide)) : Keeps m s (countUe u a1 a2) := by
  unfold countUe
  repeat' first
    | exact sub_ hm (by decide)
    | with_reducible assumption
    | with_reducible apply foundIn_keeps
    | with_reducible apply updBank_keeps
    | (with_reducible apply updCis_keeps <;> try first | with_reducible rfl | simp only [length_updAt, List.length_map, List.length_zipIdx])

theorem readStored_keeps (a1 a2 : Nat) (a3 : Bool) (h : Keeps m s u) (hm : [.alert, .bytes, .cistern] ⊆ m := by exact sub_ (by assumption) (by decide)) : Keeps m s (readStored u a1 a2 a3).2 := by
  unfold readStored
  repeat' first
    | exact sub_ hm (by decide)
    | with_reducible assumption
    | with_reducible apply countCe_keeps
    | with_reducible apply cisStore_keeps
    | with_reducible apply alert_keeps
    | (with_reducible apply updCis_keeps <;> try first | with_reducible rfl | simp only [length_updAt, List.length_map, List.length_zipIdx])
    | with_reducible apply countUe_keeps
    | with_reducible refine keeps_foldl ?_ ?_
    | with_reducible refine keeps_ite_left ?_ ?_
    | intro _
    | split

theorem cispoison_keeps (a1 a2 a3 : Nat) (a4 : Bool) (a5 a6 a7 a8 : Nat) (a9 : W32) (h : Keeps m s u) (hm : [.alert, .cistern, .parts, .records, .early, .near] ⊆ m := by exact sub_ (by assumption) (by decide)) : Keeps m s (cispoison u a1 a2 a3 a4 a5 a6 a7 a8 a9) := by
  unfold cispoison
  repeat' first
    | exact sub_ hm (by decide)
    | with_reducible assumption
    | with_reducible apply addRec_keeps

theorem poisonRec_keeps (a1 : Owner) (a2 a3 a4 a5 : Nat) (h : Keeps m s u) (hm : [.alert, .cistern, .parts, .records, .early, .near] ⊆ m := by exact sub_ (by assumption) (by decide)) : Keeps m s (poisonRec u a1 a2 a3 a4 a5) := by
  unfold poisonRec
  repeat' first
    | exact sub_ hm (by decide)
    | with_reducible assumption
    | with_reducible apply cispoison_keeps

theorem chooseBank_keeps (a1 : CisUse) (h : Keeps m s u) (hm : [.cistern] ⊆ m := by exact sub_ (by assumption) (by decide)) : Keeps m s (chooseBank u a1) := by
  unfold chooseBank
  repeat' first
    | exact sub_ hm (by decide)
    | with_reducible assumption
    | (with_reducible apply updCis_keeps <;> try first | with_reducible rfl | simp only [length_updAt, List.length_map, List.length_zipIdx])
    | with_reducible refine keeps_foldl ?_ ?_
    | with_reducible refine keeps_ite_left ?_ ?_
    | intro _
    | split

theorem readByte_keeps (use : CisUse) (addr : Nat) (h : Keeps m s u) (hm : [.alert, .bytes, .cistern] ⊆ m := by exact sub_ (by assumption) (by decide)) :
    Keeps m s (readByte u use addr).2 := by
  unfold readByte
  split
  · exact h
  · exact readStored_keeps _ _ _ h
  · dsimp only
    split
    · exact readStored_keeps _ _ _ h
    · split
      · exact readStored_keeps _ _ _ h
      · split
        · exact readStored_keeps _ _ _ (readStored_keeps _ _ _ h)
        · exact cisStore_keeps _ _ _ (readStored_keeps _ _ _ (readStored_keeps _ _ _ h))

theorem foldl_keeps_snd {α β γ : Type} {f : β × γ × State → α → β × γ × State} {l : List α} {r : β × γ × State}
    (hf : ∀ v a, Keeps m s v.2.2 → Keeps m s (f v a).2.2) (h : Keeps m s r.2.2) : Keeps m s (l.foldl f r).2.2 := by
  induction l generalizing r with
  | nil => exact h
  | cons a l ih => exact ih (hf r a h)

theorem readRun_keeps (use : CisUse) (lo n : Nat) (h : Keeps m s u) (hm : [.alert, .bytes, .cistern] ⊆ m := by exact sub_ (by assumption) (by decide)) : Keeps m s (readRun u use lo n).2.2 :=
  foldl_keeps_snd (fun _ _ hv => readByte_keeps _ _ hv) h

theorem poisonReset_keeps (a1 : Nat) (a2 : List (Byte × Bool)) (h : Keeps m s u) (hm : [.time, .alert, .cmd, .mbx, .fault, .keep, .belfryRun, .inputs, .cad, .cmds, .belfry, .cistern, .nvm, .parts, .tiles, .spires, .domes, .ops, .tickets, .samples, .engines, .hang, .ports, .seals, .launch, .caravan, .records, .early, .near, .thermal, .erg, .mtr, .big, .rng] ⊆ m := by exact sub_ (by assumption) (by decide)) : Keeps m s (poisonReset u a1 a2) := by
  unfold poisonReset
  repeat' first
    | exact sub_ hm (by decide)
    | with_reducible assumption
    | with_reducible apply keepWarmReset_keeps
    | with_reducible refine keeps_foldl ?_ ?_
    | with_reducible refine keeps_ite_left ?_ ?_
    | intro _
    | split

theorem poisonRecord_keeps (n : Nat) (h : Keeps m s u) (hm : [.records, .near, .rng] ⊆ m := by exact sub_ (by assumption) (by decide)) : Keeps m s (poisonRecord u n) := by
  unfold poisonRecord
  split
  · exact h
  · exact keeps_mk h rfl (hr := by omega)

theorem skipTrace_keeps (a1 a2 : Nat) (h : Keeps m s u) (hm : [.parts, .spires, .near] ⊆ m := by exact sub_ (by assumption) (by decide)) : Keeps m s (skipTrace u a1 a2) := by
  unfold skipTrace
  repeat' first
    | exact sub_ hm (by decide)
    | with_reducible assumption
    | with_reducible apply subUse_keeps
    | with_reducible apply updSp_keeps
    | with_reducible refine keeps_foldl ?_ ?_
    | with_reducible refine keeps_ite_left ?_ ?_
    | intro _
    | split
    | with_reducible refine keeps_mk ?_ rfl

theorem skipDump_keeps (a1 a2 : Nat) (h : Keeps m s u) (hm : [.parts] ⊆ m := by exact sub_ (by assumption) (by decide)) : Keeps m s (skipDump u a1 a2) := by
  unfold skipDump
  repeat' first
    | exact sub_ hm (by decide)
    | with_reducible assumption
    | with_reducible apply subUse_keeps
    | with_reducible apply updPart_keeps
    | with_reducible refine keeps_foldl ?_ ?_
    | with_reducible refine keeps_ite_left ?_ ?_
    | intro _
    | split

theorem poisonAnswer_keeps (a1 : CisUse) (h : Keeps m s u) (hm : [.alert, .inputs, .cistern, .parts, .tiles, .spires, .ops, .tickets, .samples, .engines, .seals, .records, .early, .near, .rng] ⊆ m := by exact sub_ (by assumption) (by decide)) : Keeps m s (poisonAnswer u a1) := by
  unfold poisonAnswer
  repeat' first
    | exact sub_ hm (by decide)
    | with_reducible assumption
    | with_reducible apply updSample_keeps
    | with_reducible apply poisonRecord_keeps
    | with_reducible apply endSample_keeps
    | with_reducible apply updPart_keeps
    | with_reducible apply skipTrace_keeps
    | with_reducible apply skipDump_keeps
    | with_reducible refine keeps_foldl ?_ ?_
    | with_reducible refine keeps_ite_left ?_ ?_
    | intro _
    | split
    | with_reducible refine keeps_mk ?_ rfl

theorem readLine_keeps (a1 : CisUse) (a2 a3 : Nat) (h : Keeps m s u) (hm : [.time, .alert, .cmd, .mbx, .fault, .keep, .belfryRun, .inputs, .cad, .cmds, .belfry, .bytes, .cistern, .nvm, .parts, .tiles, .spires, .domes, .ops, .tickets, .samples, .engines, .hang, .ports, .seals, .launch, .caravan, .records, .early, .near, .thermal, .erg, .mtr, .big, .rng] ⊆ m := by exact sub_ (by assumption) (by decide)) : Keeps m s (readLine a1 u a2 a3) := by
  unfold readLine
  repeat' first
    | exact sub_ hm (by decide)
    | with_reducible assumption
    | with_reducible apply readRun_keeps
    | (with_reducible apply updCis_keeps <;> try first | with_reducible rfl | simp only [length_updAt, List.length_map, List.length_zipIdx])
    | with_reducible apply poisonRec_keeps
    | with_reducible apply poisonReset_keeps
    | with_reducible refine keeps_foldl ?_ ?_
    | with_reducible refine keeps_ite_left ?_ ?_
    | intro _
    | split

theorem execCisternRead_keeps (a1 : CisUse) (a2 : CisSpan) (h : Keeps m s u) (hm : [.time, .alert, .cmd, .mbx, .fault, .keep, .belfryRun, .inputs, .cad, .cmds, .belfry, .bytes, .cistern, .nvm, .parts, .tiles, .spires, .domes, .ops, .tickets, .samples, .engines, .hang, .ports, .seals, .launch, .caravan, .records, .early, .near, .thermal, .erg, .mtr, .big, .rng] ⊆ m := by exact sub_ (by assumption) (by decide)) : ∃ t, execCisternRead a1 a2 u = .next t ∧ Keeps m s t := by
  refine ⟨_, rfl, ?_⟩
  repeat' first
    | exact sub_ hm (by decide)
    | with_reducible assumption
    | with_reducible apply chooseBank_keeps
    | (with_reducible apply updCis_keeps <;> try first | with_reducible rfl | simp only [length_updAt, List.length_map, List.length_zipIdx])
    | with_reducible apply readLine_keeps
    | with_reducible apply poisonAnswer_keeps
    | with_reducible refine keeps_foldl ?_ ?_
    | with_reducible refine keeps_ite_left ?_ ?_
    | intro _

theorem writeByte_keeps (a1 : Nat) (a2 : Byte) (h : Keeps m s u) (hm : [.bytes, .cistern] ⊆ m := by exact sub_ (by assumption) (by decide)) : Keeps m s (writeByte u a1 a2) := by
  unfold writeByte
  repeat' first
    | exact sub_ hm (by decide)
    | with_reducible assumption
    | with_reducible apply cisStore_keeps
    | with_reducible refine keeps_foldl ?_ ?_
    | with_reducible refine keeps_ite_left ?_ ?_
    | intro _
    | split

theorem lineRec_keeps (a1 a2 : Nat) (a3 : List Nat) (h : Keeps m s u) (hm : [.alert, .cistern, .parts, .records, .early, .near, .rng] ⊆ m := by exact sub_ (by assumption) (by decide)) : Keeps m s (lineRec u a1 a2 a3) := by
  unfold lineRec
  repeat' first
    | exact sub_ hm (by decide)
    | with_reducible assumption
    | with_reducible apply poisonRec_keeps
    | with_reducible refine keeps_foldl ?_ ?_
    | with_reducible refine keeps_ite_left ?_ ?_
    | intro _
    | split
    | with_reducible refine keeps_mk ?_ rfl

theorem scrubCount_keeps (a1 a2 : Nat) (h : Keeps m s u) (hm : [.cistern] ⊆ m := by exact sub_ (by assumption) (by decide)) : Keeps m s (scrubCount a1 u a2) := by
  unfold scrubCount
  repeat' first
    | exact sub_ hm (by decide)
    | with_reducible assumption
    | with_reducible apply countCe_keeps
    | with_reducible apply countUe_keeps
    | with_reducible refine keeps_foldl ?_ ?_
    | with_reducible refine keeps_ite_left ?_ ?_
    | intro _
    | split

theorem supersede_keeps (a1 : Nat × Nat) (h : Keeps m s u) (hm : [.alert, .cistern, .parts, .records, .early, .near, .rng] ⊆ m := by exact sub_ (by assumption) (by decide)) : Keeps m s (supersede u a1) := by
  unfold supersede
  repeat' first
    | exact sub_ hm (by decide)
    | with_reducible assumption
    | (with_reducible apply updCis_keeps <;> try first | with_reducible rfl | simp only [length_updAt, List.length_map, List.length_zipIdx])
    | with_reducible apply lineRec_keeps
    | with_reducible apply scrubCount_keeps
    | with_reducible refine keeps_foldl ?_ ?_
    | with_reducible refine keeps_ite_left ?_ ?_
    | intro _

theorem execCisternWrite_keeps (a1 : W32) (a2 : List (Byte × Bool)) (a3 : Bool) (h : Keeps m s u) (hm : [.alert, .bytes, .cistern, .parts, .records, .early, .near, .rng] ⊆ m := by exact sub_ (by assumption) (by decide)) : ∃ t, execCisternWrite a1 a2 a3 u = .next t ∧ Keeps m s t := by
  refine ⟨_, rfl, ?_⟩
  repeat' first
    | exact sub_ hm (by decide)
    | with_reducible assumption
    | with_reducible apply supersede_keeps
    | with_reducible apply writeByte_keeps
    | (with_reducible apply updCis_keeps <;> try first | with_reducible rfl | simp only [length_updAt, List.length_map, List.length_zipIdx])
    | with_reducible refine keeps_foldl ?_ ?_
    | with_reducible refine keeps_ite_left ?_ ?_
    | intro _

theorem execRowRemap_keeps (a1 a2 : Nat) (h : Keeps m s u) (hm : [.alert, .cistern, .nvm, .parts, .records, .early, .near] ⊆ m := by exact sub_ (by assumption) (by decide)) : ∃ t, execRowRemap a1 a2 u = .next t ∧ Keeps m s t := by
  refine ⟨_, rfl, ?_⟩
  repeat' first
    | exact sub_ hm (by decide)
    | with_reducible assumption
    | with_reducible apply alert_keeps
    | with_reducible apply updBank_keeps
    | (with_reducible apply updCis_keeps <;> try first | with_reducible rfl | simp only [length_updAt, List.length_map, List.length_zipIdx])
    | with_reducible apply writeRepair_keeps
    | with_reducible apply addRec_keeps
    | with_reducible refine keeps_foldl ?_ ?_
    | with_reducible refine keeps_ite_left ?_ ?_
    | intro _
    | split
    | with_reducible refine keeps_mk ?_ rfl

theorem scrubLine_keeps (a1 a2 : Nat) (a3 : List Nat) (h : Keeps m s u) (hm : [.alert, .bytes, .cistern, .parts, .records, .early, .near, .rng] ⊆ m := by exact sub_ (by assumption) (by decide)) : Keeps m s (scrubLine u a1 a2 a3) := by
  unfold scrubLine
  repeat' first
    | exact sub_ hm (by decide)
    | with_reducible assumption
    | with_reducible apply lineRec_keeps
    | with_reducible apply readStored_keeps
    | with_reducible refine keeps_foldl ?_ ?_
    | with_reducible refine keeps_ite_left ?_ ?_
    | intro _

theorem scrubRow_keeps (a1 : Nat) (h : Keeps m s u) (hm : [.alert, .bytes, .cistern, .parts, .records, .early, .near, .rng] ⊆ m := by exact sub_ (by assumption) (by decide)) : Keeps m s (scrubRow u a1) := by
  unfold scrubRow
  repeat' first
    | exact sub_ hm (by decide)
    | with_reducible assumption
    | (with_reducible apply updCis_keeps <;> try first | with_reducible rfl | simp only [length_updAt, List.length_map, List.length_zipIdx])
    | with_reducible apply scrubLine_keeps
    | with_reducible refine keeps_foldl ?_ ?_
    | with_reducible refine keeps_ite_left ?_ ?_
    | intro _

theorem execScrubSliceDone_keeps (h : Keeps m s u) (hm : [.alert, .bytes, .cistern, .parts, .records, .early, .near, .rng] ⊆ m := by exact sub_ (by assumption) (by decide)) : ∃ t, execScrubSliceDone u = .next t ∧ Keeps m s t := by
  refine ⟨_, rfl, ?_⟩
  repeat' first
    | exact sub_ hm (by decide)
    | with_reducible assumption
    | with_reducible apply scrubRow_keeps
    | (with_reducible apply updCis_keeps <;> try first | with_reducible rfl | simp only [length_updAt, List.length_map, List.length_zipIdx])
    | with_reducible refine keeps_foldl ?_ ?_
    | with_reducible refine keeps_ite_left ?_ ?_
    | intro _
    | split

theorem fillBank_keeps (bank : Nat) (h : Keeps m s u) (hm : [.bytes, .cistern] ⊆ m := by exact sub_ (by assumption) (by decide)) : Keeps m s (fillBank u bank) :=
  h.trans
    { same := by
        intro f hf
        cases f <;> first
          | rfl
          | exact (Fld.out hm hf (by decide)).elim
      pending := rfl
      sized := fun z => ⟨z.parts, z.engines, z.ports, z.banks, z.mbx, z.talloc, z.cmd⟩
      cistern := fun z => ⟨memory_wf_memDrop _ _ z.data, memory_wf_memDrop _ _ z.check⟩
      keep := KeepSt.Lasts.rfl_ _
      latch := id
      stopped := fun _ hr => hr
      failed := fun a b => ⟨a, b⟩
      image := fun _ => rfl
      fuses := ⟨id, FuseGrows.rfl_ _⟩
      tiles := fun _ _ => stays_refl _
      opSeq := Nat.le_refl _
      rng := Nat.le_refl _ }

theorem copyBank_keeps (a1 a2 : Nat) (h : Keeps m s u) (hm : [.bytes, .cistern] ⊆ m := by exact sub_ (by assumption) (by decide)) : Keeps m s (copyBank u a1 a2) := by
  unfold copyBank
  repeat' first
    | exact sub_ hm (by decide)
    | with_reducible assumption
    | with_reducible apply cisPut_keeps
    | with_reducible apply fillBank_keeps
    | with_reducible refine keeps_foldl ?_ ?_
    | with_reducible refine keeps_ite_left ?_ ?_
    | intro _

theorem bankResult_keeps (a1 a2 a3 a4 : Nat) (h : Keeps m s u) (hm : [.alert, .cistern, .parts, .records, .early, .near] ⊆ m := by exact sub_ (by assumption) (by decide)) : Keeps m s (bankResult u a1 a2 a3 a4) := by
  unfold bankResult
  repeat' first
    | exact sub_ hm (by decide)
    | with_reducible assumption
    | (with_reducible apply updCis_keeps <;> try first | with_reducible rfl | simp only [length_updAt, List.length_map, List.length_zipIdx])
    | with_reducible apply addRec_keeps

theorem bankFill_keeps (a1 : Nat) (h : Keeps m s u) (hm : [.alert, .bytes, .cistern, .parts, .records, .early, .near] ⊆ m := by exact sub_ (by assumption) (by decide)) : Keeps m s (bankFill u a1) := by
  unfold bankFill
  repeat' first
    | exact sub_ hm (by decide)
    | with_reducible assumption
    | with_reducible apply bankResult_keeps
    | with_reducible apply fillBank_keeps
    | (with_reducible apply updCis_keeps <;> try first | with_reducible rfl | simp only [length_updAt, List.length_map, List.length_zipIdx])
    | with_reducible refine keeps_foldl ?_ ?_
    | with_reducible refine keeps_ite_left ?_ ?_
    | intro _
    | split

theorem bankTestRun_keeps (a1 : Nat) (a2 : Option Nat) (h : Keeps m s u) (hm : [.alert, .bytes, .cistern, .parts, .records, .early, .near] ⊆ m := by exact sub_ (by assumption) (by decide)) : Keeps m s (bankTestRun u a1 a2) := by
  unfold bankTestRun
  repeat' first
    | exact sub_ hm (by decide)
    | with_reducible assumption
    | with_reducible apply bankResult_keeps
    | with_reducible apply updBank_keeps
    | with_reducible apply fillBank_keeps
    | (with_reducible apply updCis_keeps <;> try first | with_reducible rfl | simp only [length_updAt, List.length_map, List.length_zipIdx])
    | with_reducible apply copyBank_keeps
    | with_reducible apply alert_keeps
    | with_reducible refine keeps_foldl ?_ ?_
    | with_reducible refine keeps_ite_left ?_ ?_
    | intro _
    | split

end Sys2Proof.Machine
end

