-- ==== Sys2Proof/Laws/KeepsBoot.lean ====
section
/-! SUPPORT. What each operation of Machine/Boot.lean keeps. -/

set_option Elab.async false

namespace Sys2Proof.Machine

variable {m : List Fld} {s u : State}

theorem coldReset_pending (good power : Bool) : (coldReset u good power).pending = u.pending := rfl

theorem coldReset_rng (good power : Bool) : (coldReset u good power).rng = u.rng := rfl

theorem coldReset_inv (good power : Bool) (h : u.Inv) : (coldReset u good power).Inv where
  sized := by
    refine ⟨?_, rfl, rfl, rfl, rfl, rfl, rfl⟩
    cases power
    · rfl
    · simp only [coldReset, ↓reduceIte, List.length_map]
      exact h.sized.parts
  cistern := ⟨rfl, rfl⟩

theorem execColdResetNRelease_keeps (h : Keeps m s u) (hm : [.fault, .belfryRun, .boot, .pads, .tiles, .spires, .domes, .thermal] ⊆ m := by exact sub_ (by assumption) (by decide)) : ∃ t, execColdResetNRelease u = .next t ∧ Keeps m s t := by
  refine ⟨_, rfl, ?_⟩
  split
  · exact h
  · rename_i g
    have h1 : Keeps m s (stepBegins { u with
        pads := jtagPads { u.pads with coldReset := false, pwrGood := true }
        boot := { u.boot with started := true } } 1) := by
      unfold stepBegins
      exact keeps_mk h rfl (hl := fun hl => hl) (hf := fun _ _ a => absurd (by rw [a.2]; rfl) g)
    exact keeps_ite_left (fun h => bringFail_keeps _ h) h1

theorem execFuseRead_keeps (a1 : FuseRead) (h : Keeps m s u) (hm : [.fault, .belfryRun, .fuses, .boot, .tiles, .spires, .domes, .thermal] ⊆ m := by exact sub_ (by assumption) (by decide)) : ∃ t, execFuseRead a1 u = .next t ∧ Keeps m s t := by
  refine ⟨_, rfl, ?_⟩
  split
  · exact keeps_mk h rfl (hz := ⟨id, FuseGrows.or_ _ _⟩)
  · split
    · exact h
    · dsimp only
      split
      · exact keeps_mk h rfl (hz := ⟨fun _ => rfl, FuseGrows.or_ _ _⟩)
      · split
        · exact keeps_mk h rfl
        · exact bringFail_keeps _ h

theorem execTimerefWaitTimeout_keeps (h : Keeps m s u) (hm : [.fault, .belfryRun, .boot, .tiles, .spires, .domes, .thermal] ⊆ m := by exact sub_ (by assumption) (by decide)) : ∃ t, execTimerefWaitTimeout u = .next t ∧ Keeps m s t := by
  refine ⟨_, rfl, ?_⟩
  repeat' first
    | exact sub_ hm (by decide)
    | with_reducible assumption
    | with_reducible apply bringFail_keeps
    | with_reducible refine keeps_foldl ?_ ?_
    | with_reducible refine keeps_ite_left ?_ ?_
    | intro _

theorem execPllLockTimeout_keeps (h : Keeps m s u) (hm : [.fault, .belfryRun, .boot, .tiles, .spires, .domes, .thermal] ⊆ m := by exact sub_ (by assumption) (by decide)) : ∃ t, execPllLockTimeout u = .next t ∧ Keeps m s t := by
  refine ⟨_, rfl, ?_⟩
  repeat' first
    | exact sub_ hm (by decide)
    | with_reducible assumption
    | with_reducible apply bringFail_keeps
    | with_reducible refine keeps_foldl ?_ ?_
    | with_reducible refine keeps_ite_left ?_ ?_
    | intro _

theorem execNvmDiscovery_keeps (a1 : SfdpData) (h : Keeps m s u) (hm : [.time, .cistern, .boot, .pads, .nvm] ⊆ m := by exact sub_ (by assumption) (by decide)) : ∃ t, execNvmDiscovery a1 u = .next t ∧ Keeps m s t := by
  refine ⟨_, rfl, ?_⟩
  repeat' first
    | exact sub_ hm (by decide)
    | with_reducible assumption
    | with_reducible refine keeps_foldl ?_ ?_
    | with_reducible refine keeps_ite_left ?_ ?_
    | intro _
    | split
    | with_reducible refine keeps_mk ?_ rfl

theorem testFirst_keeps (a1 : Nat) (h : Keeps m s u) (hm : [.tiles, .spires] ⊆ m := by exact sub_ (by assumption) (by decide)) : Keeps m s (testFirst u a1) := by
  unfold testFirst
  repeat' first
    | exact sub_ hm (by decide)
    | with_reducible assumption
    | with_reducible apply pushReq_keeps
    | with_reducible apply updSp_keeps
    | with_reducible refine keeps_foldl ?_ ?_
    | with_reducible refine keeps_ite_left ?_ ?_
    | intro _

theorem startTile_keeps (a1 : Nat) (hn : s.image = none) (h : Keeps m s u) (hm : [.alert, .cistern, .nvm, .parts, .tiles, .spires, .records, .early, .near] ⊆ m := by exact sub_ (by assumption) (by decide)) : Keeps m s (startTile u a1) := by
  unfold startTile
  dsimp only
  have hw := fun st w => newState_keeps (s := s) a1 st w id (.inl hn) (snapshotDue_keeps (lastState u a1) (startState u a1) h) (sub_ hm (by decide))
  repeat' first
    | exact sub_ hm (by decide)
    | with_reducible assumption
    | exact hw _ _
    | with_reducible apply testFirst_keeps
    | with_reducible apply addRec_keeps
    | with_reducible apply updSp_keeps
    | with_reducible refine keeps_ite_left ?_ ?_
    | intro _

theorem loadFirmware_keeps (a1 : List Byte) (h : Keeps m s u) (hm : [.bytes, .cistern, .boot] ⊆ m := by exact sub_ (by assumption) (by decide)) : Keeps m s (loadFirmware u a1) := by
  unfold loadFirmware
  repeat' first
    | exact sub_ hm (by decide)
    | with_reducible assumption
    | with_reducible apply cisStore_keeps
    | (with_reducible apply updCis_keeps <;> try first | with_reducible rfl | simp only [length_updAt, List.length_map, List.length_zipIdx])
    | with_reducible refine keeps_foldl ?_ ?_
    | with_reducible refine keeps_ite_left ?_ ?_
    | intro _
    | split
    | with_reducible refine keeps_mk ?_ rfl

theorem spareAlert_keeps (h : Keeps m s u) (hm : [.alert] ⊆ m := by exact sub_ (by assumption) (by decide)) : Keeps m s (spareAlert u) := by
  unfold spareAlert
  repeat' first
    | exact sub_ hm (by decide)
    | with_reducible assumption
    | with_reducible apply alert_keeps
    | with_reducible refine keeps_foldl ?_ ?_
    | with_reducible refine keeps_ite_left ?_ ?_
    | intro _

theorem chargeRest_keeps (h : Keeps m s u) (hm : [.parts] ⊆ m := by exact sub_ (by assumption) (by decide)) : Keeps m s (chargeRest u) := by
  unfold chargeRest
  repeat' first
    | exact sub_ hm (by decide)
    | with_reducible assumption
    | with_reducible apply addUse_keeps
    | with_reducible refine keeps_foldl ?_ ?_
    | with_reducible refine keeps_ite_left ?_ ?_
    | intro _

theorem loadImage_keeps (r : ImageRead) (im : Image) (key : Nat) (hn : u.image = none) (h : Keeps m s u) (hm : [.alert, .bytes, .cistern, .image, .boot, .nvm, .parts, .tiles, .spires, .domes, .engines, .records, .early, .near, .thermal] ⊆ m := by exact sub_ (by assumption) (by decide)) :
    Keeps m s (loadImage u r im key) := by
  have hs : s.image = none := by
    by_contra hi
    exact hi (h.image hi ▸ hn)
  unfold loadImage
  refine keeps_foldl (fun v a hv => startTile_keeps _ hs hv) (spareAlert_keeps (chargeRest_keeps (takeLicences_keeps _ (thmCount_keeps _ _ (loadFirmware_keeps _ ?_)))))
  exact
    { same := h.same.trans (by
        intro f hf
        cases f <;> first
          | rfl
          | exact (Fld.out hm hf (by decide)).elim)
      pending := h.pending
      sized := fun z => (fun z : u.Sized => ⟨by simp only [List.length_map, List.length_zipIdx, z.parts],
        by simp only [List.length_map, List.length_range]; rfl, z.ports, by simp only [List.length_map, List.length_zipIdx, z.banks], z.mbx,
        z.talloc, z.cmd⟩) (h.sized z)
      cistern := fun z => (fun z : u.CisternWf => ⟨z.data, z.check⟩) (h.cistern z)
      keep := h.keep
      latch := h.latch
      stopped := h.stopped
      failed := h.failed
      image := fun hi => absurd hs hi
      fuses := h.fuses
      tiles := fun hi => absurd hs hi
      opSeq := h.opSeq
      rng := h.rng }

theorem setImgCode_keeps (a1 : Bool) (a2 : Nat) (h : Keeps m s u) (hm : [.boot] ⊆ m := by exact sub_ (by assumption) (by decide)) : Keeps m s (setImgCode u a1 a2) := by
  unfold setImgCode
  repeat' first
    | exact sub_ hm (by decide)
    | with_reducible assumption
    | with_reducible refine keeps_foldl ?_ ?_
    | with_reducible refine keeps_ite_left ?_ ?_
    | intro _
    | split
    | with_reducible refine keeps_mk ?_ rfl

theorem noImage_keeps (h : Keeps m s u) (hm : [.fault, .belfryRun, .boot, .pads, .tiles, .spires, .domes, .thermal] ⊆ m := by exact sub_ (by assumption) (by decide)) : Keeps m s (noImage u) := by
  unfold noImage
  repeat' first
    | exact sub_ hm (by decide)
    | with_reducible assumption
    | with_reducible apply bringFail_keeps
    | with_reducible refine keeps_foldl ?_ ?_
    | with_reducible refine keeps_ite_left ?_ ?_
    | intro _
    | split
    | with_reducible refine keeps_mk ?_ rfl

theorem streamImage_keeps (a1 : List Byte) (h : Keeps m s u) (hm : [.bytes, .cistern] ⊆ m := by exact sub_ (by assumption) (by decide)) : Keeps m s (streamImage u a1) := by
  unfold streamImage
  repeat' first
    | exact sub_ hm (by decide)
    | with_reducible assumption
    | with_reducible apply cisStore_keeps
    | with_reducible refine keeps_foldl ?_ ?_
    | with_reducible refine keeps_ite_left ?_ ?_
    | intro _

theorem trySlot_keeps (a1 : ImageRead) (hn : u.image = none) (h : Keeps m s u) (hm : [.alert, .fault, .belfryRun, .bytes, .cistern, .image, .boot, .pads, .nvm, .parts, .tiles, .spires, .domes, .engines, .records, .early, .near, .thermal] ⊆ m := by exact sub_ (by assumption) (by decide)) : Keeps m s (trySlot u a1) := by
  unfold trySlot
  dsimp only
  split
  · exact loadImage_keeps _ _ _ hn (keeps_mk h rfl)
  · exact keeps_ite_left (fun h => noImage_keeps h) (addRec_keeps _ (setImgCode_keeps _ _ h))

theorem streamImage_image (v : State) (bs : List Byte) : (streamImage v bs).image = v.image := by
  have := (streamImage_keeps bs (m := [.cistern, .bytes]) (Keeps.rfl_ _ v) (by decide)).same .image (by decide)
  exact congrArg Prod.fst this

theorem execImageCheck_keeps (a1 : ImageRead) (h : Keeps m s u) (hm : [.alert, .fault, .belfryRun, .bytes, .cistern, .image, .boot, .pads, .nvm, .parts, .tiles, .spires, .domes, .engines, .records, .early, .near, .thermal] ⊆ m := by exact sub_ (by assumption) (by decide)) : ∃ t, execImageCheck a1 u = .next t ∧ Keeps m s t := by
  refine ⟨_, rfl, ?_⟩
  split
  · exact h
  · rename_i g
    simp only [not_or, Option.isSome_iff_ne_none, ne_eq, Decidable.not_not] at g
    have h1 : ∀ l : List Bool, ∀ v : State, v.image = none → Keeps m s v →
        Keeps m s (l.foldl (fun s b => if slotHdr a1 (a1.slotB == b) = 0 then s else setImgCode s b (slotHdr a1 (a1.slotB == b))) v) ∧
        (l.foldl (fun s b => if slotHdr a1 (a1.slotB == b) = 0 then s else setImgCode s b (slotHdr a1 (a1.slotB == b))) v).image = none := by
      intro l
      induction l with
      | nil => exact fun v hv hk => ⟨hk, hv⟩
      | cons b l ih =>
        intro v hv hk
        refine ih _ ?_ ?_
        · dsimp only
          split
          · exact hv
          · exact hv
        · exact keeps_ite_right (fun hk => setImgCode_keeps _ _ hk) hk
    have h2 := h1 [false, true] u g.2.2 h
    dsimp only
    split
    · exact noImage_keeps h2.1
    · split
      · exact trySlot_keeps _ ((streamImage_image _ _).trans h2.2) (streamImage_keeps _ (keeps_mk h2.1 rfl))
      · exact h

theorem execFirmwareStart_keeps (h : Keeps m s u) (hm : [.units, .boot] ⊆ m := by exact sub_ (by assumption) (by decide)) : ∃ t, execFirmwareStart u = .next t ∧ Keeps m s t := by
  refine ⟨_, rfl, ?_⟩
  split
  · exact h
  · rename_i g
    exact keeps_mk h rfl (hf := fun _ _ a => absurd (.inl (by rw [a.1]; decide)) g)

theorem fenceAtBoot_keeps (a1 : Nat) (h : Keeps m s u) (hm : [.alert, .cmd, .inputs, .cmds, .cistern, .nvm, .parts, .tiles, .spires, .domes, .ops, .tickets, .samples, .engines, .caravan, .records, .early, .near, .thermal, .rng] ⊆ m := by exact sub_ (by assumption) (by decide)) : Keeps m s (fenceAtBoot u a1) := by
  unfold fenceAtBoot
  repeat' first
    | exact sub_ hm (by decide)
    | with_reducible assumption
    | with_reducible apply actFence_keeps

theorem readTap_keeps (a1 : List (Nat × BitVec 4)) (a2 : Nat) (h : Keeps m s u) (hm : [.alert, .cmd, .inputs, .cmds, .cistern, .boot, .nvm, .parts, .tiles, .spires, .domes, .ops, .tickets, .samples, .engines, .caravan, .records, .early, .near, .thermal, .rng] ⊆ m := by exact sub_ (by assumption) (by decide)) : Keeps m s (readTap a1 u a2) := by
  unfold readTap
  repeat' first
    | exact sub_ hm (by decide)
    | with_reducible assumption
    | with_reducible apply updSp_keeps
    | with_reducible apply tapViol_keeps
    | with_reducible apply fenceAtBoot_keeps
    | with_reducible apply tileInput_keeps
    | with_reducible refine keeps_foldl ?_ ?_
    | with_reducible refine keeps_ite_left ?_ ?_
    | intro _
    | split
    | with_reducible refine keeps_mk ?_ rfl

theorem clocksOn_keeps (a1 : NetReport) (h : Keeps m s u) (hm : [.time, .alert, .cmd, .units, .inputs, .cmds, .cistern, .boot, .pads, .parts, .tiles, .spires, .domes, .engines, .caravan, .records, .early, .near, .thermal, .erg] ⊆ m := by exact sub_ (by assumption) (by decide)) : Keeps m s (clocksOn u a1) := by
  unfold clocksOn
  repeat' first
    | exact sub_ hm (by decide)
    | with_reducible assumption
    | with_reducible apply takeReading_keeps
    | with_reducible refine keeps_foldl ?_ ?_
    | with_reducible refine keeps_ite_left ?_ ?_
    | intro _
    | split
    | with_reducible refine keeps_mk ?_ rfl

theorem execClocksAndCaravan_keeps (a1 : List (Nat × BitVec 4)) (a2 : NetReport) (h : Keeps m s u) (hm : [.timeRun, .time, .alert, .cmd, .units, .inputs, .cmds, .cistern, .boot, .pads, .nvm, .parts, .tiles, .spires, .domes, .ops, .tickets, .samples, .engines, .caravan, .records, .early, .near, .thermal, .erg, .rng] ⊆ m := by exact sub_ (by assumption) (by decide)) : ∃ t, execClocksAndCaravan a1 a2 u = .next t ∧ Keeps m s t := by
  refine ⟨_, rfl, ?_⟩
  repeat' first
    | exact sub_ hm (by decide)
    | with_reducible assumption
    | with_reducible apply clocksOn_keeps
    | with_reducible apply readTap_keeps
    | with_reducible apply meshDown_keeps
    | with_reducible apply startTick_keeps
    | with_reducible refine keeps_foldl ?_ ?_
    | with_reducible refine keeps_ite_left ?_ ?_
    | intro _
    | split
    | with_reducible refine keeps_mk ?_ rfl

theorem bootTest_keeps (a1 : List Nat) (a2 : Nat) (h : Keeps m s u) (hm : [.alert, .bytes, .cistern, .parts, .records, .early, .near, .rng] ⊆ m := by exact sub_ (by assumption) (by decide)) : Keeps m s (bootTest a1 u a2) := by
  unfold bootTest
  repeat' first
    | exact sub_ hm (by decide)
    | with_reducible assumption
    | with_reducible apply bankTestRun_keeps
    | with_reducible refine keeps_foldl ?_ ?_
    | with_reducible refine keeps_ite_left ?_ ?_
    | intro _
    | split
    | with_reducible refine keeps_mk ?_ rfl

theorem testFirmwareBanks_keeps (a1 : List Nat) (h : Keeps m s u) (hm : [.alert, .bytes, .cistern, .parts, .records, .early, .near, .rng] ⊆ m := by exact sub_ (by assumption) (by decide)) : Keeps m s (testFirmwareBanks a1 u) := by
  unfold testFirmwareBanks
  repeat' first
    | exact sub_ hm (by decide)
    | with_reducible assumption
    | with_reducible apply bootTest_keeps
    | (with_reducible apply updCis_keeps <;> try first | with_reducible rfl | simp only [length_updAt, List.length_map, List.length_zipIdx])
    | with_reducible refine keeps_foldl ?_ ?_
    | with_reducible refine keeps_ite_left ?_ ?_
    | intro _

theorem startEngine_keeps (a1 : List (Nat × EngineRun)) (a2 : Nat) (h : Keeps m s u) (hm : [.alert, .inputs, .cistern, .parts, .engines, .records, .early, .near, .thermal] ⊆ m := by exact sub_ (by assumption) (by decide)) : Keeps m s (startEngine a1 u a2) := by
  unfold startEngine
  split
  · exact updEng_keeps _ _ h
  · exact updEng_keeps _ _ (engineTest_keeps _ _ h)

theorem startEngines_keeps (a1 : List (Nat × EngineRun)) (h : Keeps m s u) (hm : [.alert, .inputs, .cistern, .parts, .engines, .records, .early, .near, .thermal] ⊆ m := by exact sub_ (by assumption) (by decide)) : Keeps m s (startEngines u a1) := by
  unfold startEngines
  repeat' first
    | exact sub_ hm (by decide)
    | with_reducible assumption
    | with_reducible apply startEngine_keeps
    | with_reducible refine keeps_foldl ?_ ?_
    | with_reducible refine keeps_ite_left ?_ ?_
    | intro _

theorem releaseEarly_keeps (h : Keeps m s u) (hm : [.alert, .cistern, .parts, .records, .early, .near] ⊆ m := by exact sub_ (by assumption) (by decide)) : Keeps m s (releaseEarly u) := by
  unfold releaseEarly
  repeat' first
    | exact sub_ hm (by decide)
    | with_reducible assumption
    | with_reducible apply addRec_keeps
    | with_reducible refine keeps_foldl ?_ ?_
    | with_reducible refine keeps_ite_left ?_ ?_
    | intro _
    | split
    | with_reducible refine keeps_mk ?_ rfl

theorem checkerAtBoot_keeps (a1 : List (Nat × CheckerRun)) (a2 : Nat) (h : Keeps m s u) (hm : [.alert, .cmd, .inputs, .cmds, .cistern, .nvm, .parts, .tiles, .spires, .domes, .ops, .tickets, .samples, .engines, .caravan, .records, .early, .near, .thermal, .rng] ⊆ m := by exact sub_ (by assumption) (by decide)) : Keeps m s (checkerAtBoot a1 u a2) := by
  unfold checkerAtBoot
  split
  · exact h
  · exact repairWanted_keeps _ _ (fenceAtBoot_keeps _ (tileInput_keeps _ _ _ h))

/-- A step of bring-up begins that a failed bring-up never comes to. -/
theorem stepOn_keeps (n : Nat) (hs : s.boot.step = 7 → s.pads.coldReset = false → False) (h : Keeps m s u)
    (hm : [.boot] ⊆ m := by exact sub_ (by assumption) (by decide)) :
    Keeps m s (stepBegins { u with boot := { u.boot with memories := true } } n) := by
  unfold stepBegins
  exact keeps_mk h rfl (hf := fun a b _ => (hs a b).elim)

theorem noEngine_keeps (h : Keeps m s u) (hm : [.fault, .belfryRun, .boot, .tiles, .spires, .domes, .thermal] ⊆ m := by exact sub_ (by assumption) (by decide)) :
    Keeps m s (if u.engines.any (fun g => g.state == .free) then u else bringFail u bfNoengine) := by
  split
  · exact h
  · exact bringFail_keeps _ h

theorem execMemories_keeps (a1 : List Nat) (a2 : List (Nat × EngineRun)) (a3 : List (Nat × CheckerRun)) (h : Keeps m s u) (hm : [.alert, .cmd, .fault, .belfryRun, .inputs, .cmds, .bytes, .cistern, .boot, .nvm, .parts, .tiles, .spires, .domes, .ops, .tickets, .samples, .engines, .caravan, .records, .early, .near, .thermal, .rng] ⊆ m := by exact sub_ (by assumption) (by decide)) :
    ∃ t, execMemories a1 a2 a3 u = .next t ∧ Keeps m s t := by
  refine ⟨_, rfl, ?_⟩
  split
  · exact h
  · rename_i g
    refine noEngine_keeps (releaseEarly_keeps (stepOn_keeps 4 (fun a b => absurd (h.failed a b).1 (by omega)) (checkersOff_keeps
      (keeps_foldl (fun v i hv => checkerAtBoot_keeps a3 i hv) (startEngines_keeps a2 (testFirmwareBanks_keeps a1
        (keeps_foldl (fun v i hv => bootTest_keeps a1 i hv) h)))))))

theorem linkq_keeps (a1 a2 a3 : Nat) (a4 a5 : List Nat) (h : Keeps m s u) (hm : [.alert, .cistern, .parts, .records, .early, .near] ⊆ m := by exact sub_ (by assumption) (by decide)) : Keeps m s (linkq u a1 a2 a3 a4 a5) := by
  unfold linkq
  repeat' first
    | exact sub_ hm (by decide)
    | with_reducible assumption
    | with_reducible apply addRec_keeps

theorem seamSide_keeps (a1 : Nat) (a2 : Bool) (h : Keeps m s u) (hm : [.alert, .cistern, .parts, .caravan, .records, .early, .near] ⊆ m := by exact sub_ (by assumption) (by decide)) : Keeps m s (seamSide u a1 a2 a3) := by
  unfold seamSide
  repeat' first
    | exact sub_ hm (by decide)
    | with_reducible assumption
    | with_reducible apply linkq_keeps
    | with_reducible apply seamdeg_keeps
    | with_reducible refine keeps_foldl ?_ ?_
    | with_reducible refine keeps_ite_left ?_ ?_
    | intro _

theorem seamEdge_keeps (a1 : List SeamEdge) (a2 : Nat) (h : Keeps m s u) (hm : [.alert, .cistern, .parts, .domes, .caravan, .records, .early, .near] ⊆ m := by exact sub_ (by assumption) (by decide)) : Keeps m s (seamEdge a1 u a2) := by
  unfold seamEdge
  repeat' first
    | exact sub_ hm (by decide)
    | with_reducible assumption
    | with_reducible apply updDome_keeps
    | with_reducible apply seamSide_keeps

theorem execSeamQualification_keeps (a1 : List SeamEdge) (h : Keeps m s u) (hm : [.alert, .fault, .belfryRun, .cistern, .boot, .parts, .tiles, .spires, .domes, .ports, .caravan, .records, .early, .near, .thermal] ⊆ m := by exact sub_ (by assumption) (by decide)) : ∃ t, execSeamQualification a1 u = .next t ∧ Keeps m s t := by
  refine ⟨_, rfl, ?_⟩
  repeat' first
    | exact sub_ hm (by decide)
    | with_reducible assumption
    | with_reducible apply seamEdge_keeps
    | with_reducible apply bringFail_keeps
    | with_reducible refine keeps_foldl ?_ ?_
    | with_reducible refine keeps_ite_left ?_ ?_
    | intro _
    | split
    | with_reducible refine keeps_mk ?_ rfl

theorem portFailed_keeps (a1 : Nat) (h : Keeps m s u) (hm : [.fault, .belfryRun, .boot, .tiles, .spires, .domes, .thermal] ⊆ m := by exact sub_ (by assumption) (by decide)) : Keeps m s (portFailed u a1) := by
  unfold portFailed
  repeat' first
    | exact sub_ hm (by decide)
    | with_reducible assumption
    | with_reducible apply bringFail_keeps
    | with_reducible refine keeps_foldl ?_ ?_
    | with_reducible refine keeps_ite_left ?_ ?_
    | intro _

theorem execBanenQualification_keeps (a1 : BanQual) (h : Keeps m s u) (hm : [.time, .alert, .fault, .belfryRun, .cistern, .boot, .parts, .tiles, .spires, .domes, .ports, .seals, .launch, .records, .early, .near, .thermal, .big, .rng] ⊆ m := by exact sub_ (by assumption) (by decide)) : ∃ t, execBanenQualification a1 u = .next t ∧ Keeps m s t := by
  refine ⟨_, rfl, ?_⟩
  repeat' first
    | exact sub_ hm (by decide)
    | with_reducible assumption
    | with_reducible apply linkq_keeps
    | with_reducible apply updPort_keeps
    | with_reducible apply sendHello_keeps
    | with_reducible apply linkUp_keeps
    | with_reducible apply portFailed_keeps
    | with_reducible refine keeps_foldl ?_ ?_
    | with_reducible refine keeps_ite_left ?_ ?_
    | intro _
    | split

theorem execBanWait_keeps (a1 : Nat) (h : Keeps m s u) (hm : [.fault, .belfryRun, .boot, .tiles, .spires, .domes, .ports, .thermal] ⊆ m := by exact sub_ (by assumption) (by decide)) : ∃ t, execBanWait a1 u = .next t ∧ Keeps m s t := by
  refine ⟨_, rfl, ?_⟩
  repeat' first
    | exact sub_ hm (by decide)
    | with_reducible assumption
    | with_reducible apply portFailed_keeps
    | with_reducible apply updPort_keeps
    | with_reducible refine keeps_foldl ?_ ?_
    | with_reducible refine keeps_ite_left ?_ ?_
    | intro _

theorem execBanenRetry_keeps (a1 : Nat) (h : Keeps m s u) (hm : [.alert, .cistern, .parts, .ports, .records, .early, .near] ⊆ m := by exact sub_ (by assumption) (by decide)) : ∃ t, execBanenRetry a1 u = .next t ∧ Keeps m s t := by
  refine ⟨_, rfl, ?_⟩
  repeat' first
    | exact sub_ hm (by decide)
    | with_reducible assumption
    | with_reducible apply linkq_keeps
    | with_reducible apply updPort_keeps
    | with_reducible refine keeps_foldl ?_ ?_
    | with_reducible refine keeps_ite_left ?_ ?_
    | intro _

theorem releaseSpire_keeps (a1 : Tile) (h : Keeps m s u) (hm : [.alert, .cmd, .inputs, .cmds, .cistern, .nvm, .parts, .tiles, .spires, .domes, .ops, .tickets, .samples, .engines, .caravan, .records, .early, .near, .thermal, .trc, .rng] ⊆ m := by exact sub_ (by assumption) (by decide)) : Keeps m s (releaseSpire u a1) := by
  unfold releaseSpire
  repeat' first
    | exact sub_ hm (by decide)
    | with_reducible assumption
    | with_reducible apply onSp_keeps
    | with_reducible apply tapReset_keeps
    | with_reducible apply resetMissed_keeps
    | with_reducible refine keeps_foldl ?_ ?_
    | with_reducible refine keeps_ite_left ?_ ?_
    | intro _

theorem releaseDome_keeps (a1 : Nat) (h : Keeps m s u) (hm : [.alert, .cmd, .inputs, .cmds, .cistern, .nvm, .parts, .tiles, .spires, .domes, .ops, .tickets, .samples, .engines, .caravan, .records, .early, .near, .thermal, .trc, .rng] ⊆ m := by exact sub_ (by assumption) (by decide)) : Keeps m s (releaseDome u a1) := by
  unfold releaseDome
  repeat' first
    | exact sub_ hm (by decide)
    | with_reducible assumption
    | with_reducible apply updDome_keeps
    | with_reducible apply releaseSpire_keeps
    | with_reducible refine keeps_foldl ?_ ?_
    | intro _

theorem execWaveRelease_keeps (h : Keeps m s u) (hm : [.alert, .cmd, .belfryRun, .inputs, .cmds, .cistern, .boot, .nvm, .parts, .tiles, .spires, .domes, .ops, .tickets, .samples, .engines, .caravan, .records, .early, .near, .thermal, .trc, .rng] ⊆ m := by exact sub_ (by assumption) (by decide)) : ∃ t, execWaveRelease u = .next t ∧ Keeps m s t := by
  refine ⟨_, rfl, ?_⟩
  have h1 : Keeps m s (if step5Begins u then stepBegins { u with
      boot := { u.boot with slots := ((u.image.map releaseSlots).getD []) }
      belfry := { u.belfry with run := !u.keep.dieFault } } 5 else u) := by
    split
    · rename_i g
      refine stepBegins_keeps 5 (.inl fun e => ?_) (keeps_mk h rfl (hs := fun hd _ => by simp [hd]))
      simp [step5Begins, (show u.boot.step = 7 from e)] at g
    · exact h
  generalize (if step5Begins u then _ else u : State) = v at h1 ⊢
  split
  · exact h1
  · split
    · exact h1
    · exact keeps_foldl (fun v a hv => releaseDome_keeps _ hv) (keeps_mk h1 rfl)

theorem FuseGrows.of_or {f g : FuseArray} (h : FuseGrows f g) (k : FuseArray) (hk : k = fuseOr g k) : FuseGrows f k := h.trans hk.symm

theorem blowSvn_grows (n : Nat) (f : FuseArray) : FuseGrows f (blowSvn n f) := by
  unfold blowSvn
  generalize List.range 64 = l
  suffices H : ∀ g, FuseGrows f g →
      FuseGrows f (l.foldl (fun f i => if minSvn f < n then { f with minSvn := f.minSvn ||| BitVec.ofNat 64 (2 ^ i) } else f) g) from
    H f (FuseGrows.rfl_ f)
  induction l with
  | nil => exact fun g hg => hg
  | cons i l ih =>
    intro g hg
    refine ih _ ?_
    dsimp only
    split
    · exact hg.of_or _ (by simp [fuseOr, orWords_self, ← BitVec.or_assoc])
    · exact hg

theorem blowFuses_keeps (h : Keeps m s u) (hm : [.fuses] ⊆ m := by exact sub_ (by assumption) (by decide)) : Keeps m s (blowFuses u) := by
  unfold blowFuses
  refine keeps_mk h rfl (hz := ⟨id, ?_⟩)
  have h1 : FuseGrows u.fuses (if bitOf u.imageFlags 0 then blowSvn u.imageSvn u.fuses else u.fuses) := by
    split
    · exact blowSvn_grows _ _
    · exact FuseGrows.rfl_ _
  generalize (if bitOf u.imageFlags 0 then blowSvn u.imageSvn u.fuses else u.fuses) = f at h1 ⊢
  split
  · exact h1.of_or _ (by simp [fuseOr, orWords_self, ← BitVec.or_assoc])
  · exact h1

theorem initQueues_keeps (h : Keeps m s u) (hm : [.parts, .near] ⊆ m := by exact sub_ (by assumption) (by decide)) : Keeps m s (initQueues u) := by
  unfold initQueues
  repeat' first
    | exact sub_ hm (by decide)
    | with_reducible assumption
    | with_reducible refine keeps_foldl ?_ ?_
    | with_reducible refine keeps_ite_left ?_ ?_
    | intro _
    | split
    | with_reducible refine keeps_mk ?_ rfl

theorem execReady_keeps (h : Keeps m s u) (hm : [.alert, .cistern, .fuses, .boot, .parts, .records, .early, .near] ⊆ m := by exact sub_ (by assumption) (by decide)) : ∃ t, execReady u = .next t ∧ Keeps m s t := by
  refine ⟨_, rfl, ?_⟩
  split
  · exact h
  · rename_i g
    have h1 : Keeps m s (stepBegins { u with boot := { u.boot with ready := true } } 6) :=
      stepBegins_keeps 6 (.inl fun e => by simp [readyNow, (show u.boot.step = 7 from e)] at g) (keeps_mk h rfl)
    exact keeps_ite_left (fun h => alert_keeps _ h) (blowFuses_keeps (addRec_keeps _ (initQueues_keeps h1)))

theorem execTimerefRelockTimeout_keeps (h : Keeps m s u) (hm : [.fault, .belfryRun, .boot, .tiles, .spires, .domes, .thermal] ⊆ m := by exact sub_ (by assumption) (by decide)) : ∃ t, execTimerefRelockTimeout u = .next t ∧ Keeps m s t := by
  refine ⟨_, rfl, ?_⟩
  repeat' first
    | exact sub_ hm (by decide)
    | with_reducible assumption
    | with_reducible apply bringFail_keeps
    | with_reducible refine keeps_foldl ?_ ?_
    | with_reducible refine keeps_ite_left ?_ ?_
    | intro _

theorem loadIr_keeps (op : Byte) (h : Keeps m s u) (hm : [.pads] ⊆ m := by exact sub_ (by assumption) (by decide)) : Keeps m s (loadIr u op) :=
  keeps_mk h rfl rfl rfl rfl rfl rfl rfl (KeepSt.Lasts.rfl_ _) (fun hl => hl) (fun _ hr => hr) (Nat.le_refl _) (Nat.le_refl _)

theorem execIdcode_keeps (h : Keeps m s u) (hm : [.pads] ⊆ m := by exact sub_ (by assumption) (by decide)) : ∃ t, execIdcode u = .next t ∧ Keeps m s t := by
  refine ⟨_, rfl, ?_⟩
  repeat' first
    | exact sub_ hm (by decide)
    | with_reducible assumption
    | with_reducible apply loadIr_keeps

theorem execSamplePreload_keeps (a1 : Preload) (h : Keeps m s u) (hm : [.pads] ⊆ m := by exact sub_ (by assumption) (by decide)) : ∃ t, execSamplePreload a1 u = .next t ∧ Keeps m s t := by
  refine ⟨_, rfl, ?_⟩
  repeat' first
    | exact sub_ hm (by decide)
    | with_reducible assumption
    | with_reducible apply loadIr_keeps
    | with_reducible refine keeps_foldl ?_ ?_
    | with_reducible refine keeps_ite_left ?_ ?_
    | intro _
    | split
    | with_reducible refine keeps_mk ?_ rfl

theorem execExtest_keeps (h : Keeps m s u) (hm : [.pads] ⊆ m := by exact sub_ (by assumption) (by decide)) : ∃ t, execExtest u = .next t ∧ Keeps m s t := by
  refine ⟨_, rfl, ?_⟩
  repeat' first
    | exact sub_ hm (by decide)
    | with_reducible assumption
    | with_reducible apply loadIr_keeps

theorem execClamp_keeps (h : Keeps m s u) (hm : [.pads] ⊆ m := by exact sub_ (by assumption) (by decide)) : ∃ t, execClamp u = .next t ∧ Keeps m s t := by
  refine ⟨_, rfl, ?_⟩
  repeat' first
    | exact sub_ hm (by decide)
    | with_reducible assumption
    | with_reducible apply loadIr_keeps

theorem execHighz_keeps (h : Keeps m s u) (hm : [.pads] ⊆ m := by exact sub_ (by assumption) (by decide)) : ∃ t, execHighz u = .next t ∧ Keeps m s t := by
  refine ⟨_, rfl, ?_⟩
  repeat' first
    | exact sub_ hm (by decide)
    | with_reducible assumption
    | with_reducible apply loadIr_keeps

theorem execBypass_keeps (a1 : Byte) (h : Keeps m s u) (hm : [.pads] ⊆ m := by exact sub_ (by assumption) (by decide)) : ∃ t, execBypass a1 u = .next t ∧ Keeps m s t := by
  refine ⟨_, rfl, ?_⟩
  repeat' first
    | exact sub_ hm (by decide)
    | with_reducible assumption
    | with_reducible apply loadIr_keeps

theorem execManufacturingTest_keeps (a1 : PrivOp) (h : Keeps m s u) (hm : [.fuses, .pads] ⊆ m := by exact sub_ (by assumption) (by decide)) :
    ∃ t, execManufacturingTest a1 u = .next t ∧ Keeps m s t := by
  refine ⟨_, rfl, ?_⟩
  have h1 := loadIr_keeps a1.op h (sub_ hm (by decide))
  split
  · exact keeps_mk h1 rfl (hz := ⟨id, FuseGrows.or_ _ _⟩)
  · exact h1

end Sys2Proof.Machine
end

