-- ==== Sys2Proof/Laws/KeepsShutdown.lean ====
section
/-! SUPPORT. What each operation of Machine/Shutdown.lean keeps. -/

set_option Elab.async false

namespace Sys2Proof.Machine

variable {m : List Fld} {s u : State}

theorem runRelease_keeps (a1 : Nat) (a2 : W32) (h : Keeps m s u) (hm : [.alert, .cmd, .inputs, .cmds, .cistern, .nvm, .parts, .tiles, .spires, .domes, .ops, .tickets, .samples, .engines, .caravan, .records, .early, .near, .thermal, .rng] ⊆ m := by exact sub_ (by assumption) (by decide)) : Keeps m s (runRelease u a1 a2) := by
  unfold runRelease onTile
  split
  · rename_i t e
    dsimp only
    split
    · exact cmdFinish_keeps _ _ _ h
    · rename_i c
      refine cmdState_keeps _ _ (changeState_keeps _ _ _ _ _ _ _ _ _ (mayChange_low ?_) h)
      simp only [stateOf, (getTile_eq e).2, e]
      simp only [releaseCause] at c
      split at c <;> first | cases c | (rename_i e; rw [e]; decide)
  · exact h

theorem runRepairClear_keeps (a1 : Nat) (a2 : W32) (h : Keeps m s u) (hm : [.cmd, .cmds, .nvm] ⊆ m := by exact sub_ (by assumption) (by decide)) : Keeps m s (runRepairClear u a1 a2) := by
  unfold runRepairClear
  repeat' first
    | exact sub_ hm (by decide)
    | with_reducible assumption
    | with_reducible apply cmdFinish_keeps
    | with_reducible apply writeRepair_keeps
    | with_reducible refine keeps_foldl ?_ ?_
    | with_reducible refine keeps_ite_left ?_ ?_
    | intro _
    | split
    | with_reducible refine keeps_mk ?_ rfl

theorem sdtTile_keeps (a1 : Tile) (h : Keeps m s u) (hm : [.alert, .cmd, .cmds, .cistern, .parts, .tiles, .domes, .caravan, .records, .early, .near] ⊆ m := by exact sub_ (by assumption) (by decide)) : Keeps m s (sdtTile u a1) := by
  unfold sdtTile
  repeat' first
    | exact sub_ hm (by decide)
    | with_reducible assumption
    | with_reducible apply pushReq_keeps
    | with_reducible apply sendTest_keeps
    | with_reducible refine keeps_foldl ?_ ?_
    | with_reducible refine keeps_ite_left ?_ ?_
    | intro _

theorem sdtEngine_keeps (a1 : Nat) (h : Keeps m s u) (hm : [.engines] ⊆ m := by exact sub_ (by assumption) (by decide)) : Keeps m s (sdtEngine u a1) := by
  unfold sdtEngine
  repeat' first
    | exact sub_ hm (by decide)
    | with_reducible assumption
    | with_reducible apply updEng_keeps
    | with_reducible refine keeps_foldl ?_ ?_
    | with_reducible refine keeps_ite_left ?_ ?_
    | intro _

theorem runShutdown_keeps (a1 : Nat) (a2 a3 : W32) (h : Keeps m s u) (hm : [.alert, .cmd, .keep, .inputs, .cmds, .cistern, .parts, .tiles, .domes, .ops, .tickets, .samples, .engines, .caravan, .records, .early, .near, .thermal, .rng] ⊆ m := by exact sub_ (by assumption) (by decide)) : Keeps m s (runShutdown u a1 a2 a3) := by
  unfold runShutdown
  repeat' first
    | exact sub_ hm (by decide)
    | with_reducible assumption
    | with_reducible apply cmdFinish_keeps
    | with_reducible apply addRec_keeps
    | with_reducible apply cmdState_keeps
    | with_reducible apply endSample_keeps
    | with_reducible apply sdtEngine_keeps
    | with_reducible apply sdtTile_keeps
    | with_reducible refine keeps_foldl ?_ ?_
    | with_reducible refine keeps_ite_left ?_ ?_
    | intro _
    | split
    | with_reducible refine keeps_mk ?_ rfl

/-- The first blank place of the repair region holds no entry that is not blank. -/
theorem fusePlace_blank (l : List W32) (x : W32) (h : l[fusePlace l]? = some x) : x = 0 := by
  unfold fusePlace at h
  cases e : (l.drop 1).findIdx? (· == 0) with
  | none =>
    rw [e] at h
    have := (List.getElem?_eq_some_iff.mp h).1
    simp only [Option.map_none, Option.getD_none] at this
    omega
  | some i =>
    rw [e] at h
    obtain ⟨hi, h0, _⟩ := List.findIdx?_eq_some_iff_getElem.mp e
    simp only [Option.map_some, Option.getD_some] at h
    rw [List.getElem_drop, beq_iff_eq] at h0
    obtain ⟨hl, rfl⟩ := List.getElem?_eq_some_iff.mp h
    simpa [Nat.add_comm] using h0

/-- A word blown into a blank place leaves every other word as it is. -/
theorem orWords_set (l : List W32) (k : Nat) (w : W32) (h : ∀ x, l[k]? = some x → x = 0) :
    orWords l ((l ++ List.replicate (k + 1 - l.length) 0).set k w) = (l ++ List.replicate (k + 1 - l.length) 0).set k w := by
  refine words_ext (by simp only [length_orWords, List.length_set, List.length_append]; omega) fun i => ?_
  rw [getD_orWords]
  by_cases hk : k = i
  · have h0 : l.getD i 0 = 0 := by
      subst hk
      rw [List.getD_eq_getElem?_getD]
      cases e : l[k]? with
      | none => rfl
      | some x => exact h x e
    rw [h0]; simp
  · have he : ((l ++ List.replicate (k + 1 - l.length) 0).set k w).getD i 0 = l.getD i 0 := by
      rw [List.getD_eq_getElem?_getD, List.getElem?_set_ne hk, List.getElem?_append]
      split
      · rw [List.getD_eq_getElem?_getD]
      · rename_i hi
        rw [List.getD_eq_default _ _ (by omega), List.getElem?_replicate]
        split <;> rfl
    rw [he, BitVec.or_self]

theorem fuseOne_keeps (a1 : RepairEnt) (h : Keeps m s u) (hm : [.fuses, .nvm] ⊆ m := by exact sub_ (by assumption) (by decide)) :
    Keeps m s (fuseOne u a1) := by
  unfold fuseOne
  dsimp only
  split
  · exact h
  · refine keeps_ite_right (fun h => keeps_mk h rfl (hz := ⟨id, ?_⟩)) h
    unfold FuseGrows fuseOr
    simp only [orWords_self, BitVec.or_self, Bool.or_self, FuseArray.mk.injEq, true_and]
    exact orWords_set _ _ _ (fusePlace_blank _)

theorem execSdtComplete_keeps (h : Keeps m s u) (hm : [.alert, .cmd, .inputs, .cmds, .cistern, .fuses, .nvm, .parts, .tiles, .spires, .domes, .ops, .tickets, .samples, .engines, .caravan, .records, .early, .near, .thermal, .mtr, .rng] ⊆ m := by exact sub_ (by assumption) (by decide)) : ∃ t, execSdtComplete u = .next t ∧ Keeps m s t := by
  refine ⟨_, rfl, ?_⟩
  repeat' first
    | exact sub_ hm (by decide)
    | with_reducible assumption
    | with_reducible apply repairTick_keeps
    | with_reducible apply fuseOne_keeps
    | with_reducible apply writeRepair_keeps
    | with_reducible apply writeSnapshot_keeps
    | with_reducible apply cmdFinish_keeps
    | with_reducible apply closeEarly_keeps
    | with_reducible apply addRec_keeps
    | with_reducible refine keeps_foldl ?_ ?_
    | with_reducible refine keeps_ite_left ?_ ?_
    | intro _
    | split
    | with_reducible refine keeps_mk ?_ rfl

end Sys2Proof.Machine
end

