-- ==== Sys2Proof/Laws/KeepsBelfry.lean ====
section
/-! SUPPORT. What each operation of Machine/Belfry.lean keeps. -/

set_option Elab.async false

namespace Sys2Proof.Machine

variable {m : List Fld} {s u : State}

theorem cadViol_keeps (a1 : CadW) (a2 : Byte) (h : Keeps m s u) (hm : [.alert, .inputs, .cistern, .parts, .records, .early, .near, .portViols] ⊆ m := by exact sub_ (by assumption) (by decide)) : Keeps m s (cadViol u a1 a2) := by
  unfold cadViol
  repeat' first
    | exact sub_ hm (by decide)
    | with_reducible assumption
    | with_reducible apply portViol_keeps

theorem execCadenceWord_keeps (a1 : BitVec 128) (h : Keeps m s u) (hm : [.alert, .inputs, .cad, .cistern, .parts, .records, .early, .near, .cadNack, .portViols] ⊆ m := by exact sub_ (by assumption) (by decide)) : ∃ t, execCadenceWord a1 u = .next t ∧ Keeps m s t := by
  refine ⟨_, rfl, ?_⟩
  repeat' first
    | exact sub_ hm (by decide)
    | with_reducible assumption
    | with_reducible apply cadViol_keeps
    | with_reducible apply updPart_keeps
    | with_reducible refine keeps_foldl ?_ ?_
    | with_reducible refine keeps_ite_left ?_ ?_
    | intro _
    | split
    | with_reducible refine keeps_mk ?_ rfl

theorem phaseEffect_keeps (a1 : Nat) (a2 : Byte) (h : Keeps m s u) (hm : [.parts, .rng] ⊆ m := by exact sub_ (by assumption) (by decide)) : Keeps m s (phaseEffect u a1 a2) := by
  unfold phaseEffect
  repeat' first
    | exact sub_ hm (by decide)
    | with_reducible assumption
    | with_reducible apply ckptOpen_keeps
    | with_reducible apply ckptWritten_keeps
    | with_reducible apply ckptRead_keeps
    | with_reducible apply restoreBegin_keeps
    | with_reducible apply restoreEnd_keeps
    | with_reducible refine keeps_foldl ?_ ?_
    | with_reducible refine keeps_ite_left ?_ ?_
    | intro _
    | split

theorem takeWord_keeps (a1 : CadW) (h : Keeps m s u) (hm : [.alert, .inputs, .cistern, .parts, .tiles, .ops, .tickets, .samples, .engines, .hang, .records, .early, .near, .trc, .rng] ⊆ m := by exact sub_ (by assumption) (by decide)) : Keeps m s (takeWord u a1) := by
  unfold takeWord
  repeat' first
    | exact sub_ hm (by decide)
    | with_reducible assumption
    | with_reducible apply updPart_keeps
    | with_reducible apply closeLagging_keeps
    | with_reducible apply jobStart_keeps
    | with_reducible apply phaseEffect_keeps
    | with_reducible refine keeps_foldl ?_ ?_
    | with_reducible refine keeps_ite_left ?_ ?_
    | intro _
    | split
    | with_reducible refine keeps_mk ?_ rfl

theorem dropCount_keeps (a1 a2 : Nat) (h : Keeps m s u) (hm : [.belfry, .parts] ⊆ m := by exact sub_ (by assumption) (by decide)) : Keeps m s (dropCount u a1 a2) := by
  unfold dropCount
  repeat' first
    | exact sub_ hm (by decide)
    | with_reducible assumption
    | with_reducible apply subUse_keeps
    | with_reducible refine keeps_foldl ?_ ?_
    | with_reducible refine keeps_ite_left ?_ ?_
    | intro _
    | split
    | with_reducible refine keeps_mk ?_ rfl

theorem holdCount_keeps (a1 a2 a3 : Nat) (a4 : W64) (h : Keeps m s u) (hm : [.belfry, .parts] ⊆ m := by exact sub_ (by assumption) (by decide)) : Keeps m s (holdCount u a1 a2 a3 a4) := by
  unfold holdCount
  repeat' first
    | exact sub_ hm (by decide)
    | with_reducible assumption
    | with_reducible apply addUse_keeps
    | with_reducible apply refuseQuota_keeps
    | with_reducible refine keeps_foldl ?_ ?_
    | with_reducible refine keeps_ite_left ?_ ?_
    | intro _
    | split
    | with_reducible refine keeps_mk ?_ rfl

theorem countHit_keeps (a1 a2 a3 a4 : Nat) (h : Keeps m s u) (hm : [.belfry, .parts] ⊆ m := by exact sub_ (by assumption) (by decide)) : Keeps m s (countHit a1 a2 a3 a4 u).2 := by
  unfold countHit
  repeat' first
    | exact sub_ hm (by decide)
    | with_reducible assumption
    | with_reducible apply holdCount_keeps
    | with_reducible apply dropCount_keeps
    | with_reducible refine keeps_foldl ?_ ?_
    | with_reducible refine keeps_ite_left ?_ ?_
    | intro _
    | split

theorem closeWindows_keeps (a1 : Nat) (h : Keeps m s u) (hm : [.belfry, .parts] ⊆ m := by exact sub_ (by assumption) (by decide)) : Keeps m s (closeWindows u a1) := by
  unfold closeWindows
  repeat' first
    | exact sub_ hm (by decide)
    | with_reducible assumption
    | with_reducible apply dropCount_keeps
    | with_reducible refine keeps_foldl ?_ ?_
    | with_reducible refine keeps_ite_left ?_ ?_
    | intro _

theorem onceFired_keeps (a1 : Nat) (a2 : Peal) (h : Keeps m s u) (hm : [.belfry] ⊆ m := by exact sub_ (by assumption) (by decide)) : Keeps m s (onceFired a1 a2 u) := by
  unfold onceFired
  repeat' first
    | exact sub_ hm (by decide)
    | with_reducible assumption
    | with_reducible refine keeps_foldl ?_ ?_
    | with_reducible refine keeps_ite_left ?_ ?_
    | intro _
    | split
    | with_reducible refine keeps_mk ?_ rfl

theorem fireAt_keeps (n cls part : Nat) (i : Option Input) (r : Matched) (x : Nat × Peal) (h : Keeps m s r.st)
    (hm : [.belfry, .parts] ⊆ m := by exact sub_ (by assumption) (by decide)) : Keeps m s (fireAt n cls part i r x).st := by
  unfold fireAt
  split
  · exact h
  · dsimp only
    have hb : ∀ key, Keeps m s (countHit n x.1 key (plN x.2) r.st).2 := fun key => countHit_keeps _ _ _ _ h
    split
    · exact h
    · split
      · split
        · exact onceFired_keeps _ _ (hb _)
        · exact hb _
      · exact onceFired_keeps _ _ h

theorem foldl_matched_keeps {α : Type} {f : Matched → α → Matched} {l : List α} {r : Matched}
    (hf : ∀ v a, Keeps m s v.st → Keeps m s (f v a).st) (h : Keeps m s r.st) : Keeps m s (l.foldl f r).st := by
  induction l generalizing r with
  | nil => exact h
  | cons a l ih => exact ih (hf r a h)

theorem itemActs_keeps (n : Nat) (r : Matched) (i : Item) (h : Keeps m s r.st)
    (hm : [.belfry, .parts] ⊆ m := by exact sub_ (by assumption) (by decide)) : Keeps m s (itemActs n r i).st := by
  unfold itemActs
  split
  · exact foldl_matched_keeps (fun v a hv => fireAt_keeps _ _ _ _ _ _ hv) h
  · exact foldl_matched_keeps (fun v a hv => fireAt_keeps _ _ _ _ _ _ hv) h
  all_goals exact h

theorem cancel_keeps (a1 : List Act) (a2 : Act) (h : Keeps m s u) (hm : [.alert, .cmd, .cmds, .belfry, .cistern, .parts, .records, .early, .near] ⊆ m := by exact sub_ (by assumption) (by decide)) : Keeps m s (cancel a1 u a2) := by
  unfold cancel
  repeat' first
    | exact sub_ hm (by decide)
    | with_reducible assumption
    | with_reducible apply addRec_keeps
    | with_reducible apply cmdFinish_keeps
    | with_reducible refine keeps_foldl ?_ ?_
    | with_reducible refine keeps_ite_left ?_ ?_
    | intro _
    | split
    | with_reducible refine keeps_mk ?_ rfl

theorem uncount_keeps (a1 : List Act) (a2 : CountFire) (h : Keeps m s u) (hm : [.belfry, .parts] ⊆ m := by exact sub_ (by assumption) (by decide)) : Keeps m s (uncount a1 u a2) := by
  unfold uncount
  repeat' first
    | exact sub_ hm (by decide)
    | with_reducible assumption
    | with_reducible apply holdCount_keeps
    | with_reducible apply dropCount_keeps
    | with_reducible refine keeps_foldl ?_ ?_
    | with_reducible refine keeps_ite_left ?_ ?_
    | intro _

theorem pealm_keeps (a1 : Act) (h : Keeps m s u) (hm : [.alert, .cistern, .parts, .records, .early, .near] ⊆ m := by exact sub_ (by assumption) (by decide)) : Keeps m s (pealm u a1) := by
  unfold pealm
  repeat' first
    | exact sub_ hm (by decide)
    | with_reducible assumption
    | with_reducible apply addRec_keeps

theorem takeTicket_keeps (a1 : Nat) (h : Keeps m s u) (hm : [.alert, .inputs, .cistern, .parts, .ops, .tickets, .records, .early, .near] ⊆ m := by exact sub_ (by assumption) (by decide)) : Keeps m s (takeTicket u a1) := by
  unfold takeTicket
  repeat' first
    | exact sub_ hm (by decide)
    | with_reducible assumption
    | with_reducible apply onOp_keeps
    | with_reducible apply standSuspect_keeps
    | with_reducible apply updOp_keeps
    | with_reducible apply post_keeps
    | with_reducible apply addMeter_keeps
    | with_reducible refine keeps_foldl ?_ ?_
    | with_reducible refine keeps_ite_left ?_ ?_
    | intro _
    | split
    | with_reducible refine keeps_mk ?_ rfl

theorem confirm_keeps (a1 : Input) (h : Keeps m s u) (hm : [.alert, .inputs, .cistern, .parts, .ops, .tickets, .samples, .records, .early, .near] ⊆ m := by exact sub_ (by assumption) (by decide)) : Keeps m s (confirm u a1) := by
  unfold confirm
  repeat' first
    | exact sub_ hm (by decide)
    | with_reducible assumption
    | with_reducible apply takeTicket_keeps
    | with_reducible refine keeps_foldl ?_ ?_
    | with_reducible refine keeps_ite_left ?_ ?_
    | intro _
    | split
    | with_reducible refine keeps_mk ?_ rfl

theorem setTrace_keeps (a1 : Nat) (a2 : Bool) (h : Keeps m s u) (hm : [.spires, .trc] ⊆ m := by exact sub_ (by assumption) (by decide)) : Keeps m s (setTrace u a1 a2) := by
  unfold setTrace
  repeat' first
    | exact sub_ hm (by decide)
    | with_reducible assumption
    | with_reducible apply updSp_keeps
    | with_reducible refine keeps_foldl ?_ ?_
    | with_reducible refine keeps_ite_left ?_ ?_
    | intro _
    | split
    | with_reducible refine keeps_mk ?_ rfl

theorem runTile_keeps (a1 : Act) (a2 : Nat) (h : Keeps m s u) (hm : [.alert, .cmd, .inputs, .cmds, .cistern, .nvm, .parts, .tiles, .spires, .domes, .ops, .tickets, .samples, .engines, .caravan, .records, .early, .near, .thermal, .trc, .rng] ⊆ m := by exact sub_ (by assumption) (by decide)) : Keeps m s (runTile u a1 a2) := by
  unfold runTile
  repeat' first
    | exact sub_ hm (by decide)
    | with_reducible assumption
    | with_reducible apply updSp_keeps
    | with_reducible apply requestSlices_keeps
    | with_reducible apply actWatch_keeps
    | with_reducible apply actUnwatch_keeps
    | with_reducible apply actFence_keeps
    | with_reducible apply actDead_keeps
    | with_reducible apply setTrace_keeps
    | with_reducible apply cmdFinish_keeps
    | with_reducible apply runTest_keeps
    | with_reducible apply runRelease_keeps
    | with_reducible refine keeps_foldl ?_ ?_
    | with_reducible refine keeps_ite_left ?_ ?_
    | intro _
    | split

theorem runWide_keeps (a1 : Act) (h : Keeps m s u) (hm : [.alert, .cmd, .talloc, .keep, .inputs, .cmds, .cistern, .nvm, .parts, .tiles, .domes, .ops, .tickets, .samples, .engines, .hang, .tallies, .tallyQ, .ports, .launch, .peerRecs, .peerTds, .caravan, .records, .early, .near, .thermal, .erg, .mtr, .big, .rng] ⊆ m := by exact sub_ (by assumption) (by decide)) : Keeps m s (runWide u a1) := by
  unfold runWide
  repeat' first
    | exact sub_ hm (by decide)
    | with_reducible assumption
    | with_reducible apply pealm_keeps
    | with_reducible apply confirm_keeps
    | with_reducible apply rollback_keeps
    | with_reducible apply sealCheck_keeps
    | with_reducible apply restoreCheck_keeps
    | with_reducible apply digestExport_keeps
    | with_reducible apply hangPath_keeps
    | with_reducible apply startLaunch_keeps
    | (with_reducible apply updCis_keeps <;> try first | with_reducible rfl | simp only [length_updAt, List.length_map, List.length_zipIdx])
    | with_reducible apply ergFold_keeps
    | with_reducible apply driveLevel_keeps
    | with_reducible apply alert_keeps
    | with_reducible apply cmdFinish_keeps
    | with_reducible apply runShutdown_keeps
    | with_reducible apply runRepairClear_keeps
    | with_reducible apply setLabel_keeps
    | with_reducible refine keeps_foldl ?_ ?_
    | with_reducible refine keeps_ite_left ?_ ?_
    | intro _
    | split
    | with_reducible refine keeps_mk ?_ rfl

theorem runAct_keeps (a1 : Act) (h : Keeps m s u) (hm : [.alert, .cmd, .talloc, .keep, .inputs, .cmds, .cistern, .nvm, .parts, .tiles, .spires, .domes, .ops, .tickets, .samples, .engines, .hang, .tallies, .tallyQ, .ports, .launch, .peerRecs, .peerTds, .caravan, .records, .early, .near, .thermal, .erg, .mtr, .trc, .big, .rng] ⊆ m := by exact sub_ (by assumption) (by decide)) : Keeps m s (runAct u a1) := by
  unfold runAct
  repeat' first
    | exact sub_ hm (by decide)
    | with_reducible assumption
    | with_reducible apply runTile_keeps
    | with_reducible apply runWide_keeps
    | with_reducible refine keeps_foldl ?_ ?_
    | with_reducible refine keeps_ite_left ?_ ?_
    | intro _
    | split

theorem orderFrames_keeps (a1 : Nat) (h : Keeps m s u) (hm : [.caravan] ⊆ m := by exact sub_ (by assumption) (by decide)) : Keeps m s (orderFrames a1 u) := by
  unfold orderFrames
  repeat' first
    | exact sub_ hm (by decide)
    | with_reducible assumption
    | with_reducible refine keeps_foldl ?_ ?_
    | with_reducible refine keeps_ite_left ?_ ?_
    | intro _
    | split
    | with_reducible refine keeps_mk ?_ rfl

theorem resolve_keeps (r : Matched) (h : Keeps m s r.st) (hm : [.alert, .cmd, .talloc, .keep, .inputs, .cmds, .belfry, .cistern, .nvm, .parts, .tiles, .spires, .domes, .ops, .tickets, .samples, .engines, .hang, .tallies, .tallyQ, .ports, .launch, .peerRecs, .peerTds, .caravan, .records, .early, .near, .thermal, .erg, .mtr, .trc, .big, .rng] ⊆ m := by exact sub_ (by assumption) (by decide)) : Keeps m s (resolve r) := by
  unfold resolve
  repeat' first
    | exact sub_ hm (by decide)
    | with_reducible assumption
    | with_reducible apply cancel_keeps
    | with_reducible apply uncount_keeps
    | with_reducible apply orderFrames_keeps
    | with_reducible apply runAct_keeps
    | with_reducible refine keeps_foldl ?_ ?_
    | with_reducible refine keeps_ite_left ?_ ?_
    | intro _

theorem inputConcern_keeps (a1 : Item) (h : Keeps m s u) (hm : [.tiles] ⊆ m := by exact sub_ (by assumption) (by decide)) : Keeps m s (inputConcern u a1) := by
  unfold inputConcern
  repeat' first
    | exact sub_ hm (by decide)
    | with_reducible assumption
    | with_reducible apply concern_keeps
    | with_reducible refine keeps_foldl ?_ ?_
    | with_reducible refine keeps_ite_left ?_ ?_
    | intro _
    | split

theorem disarmTimers_keeps (a1 : List Item) (h : Keeps m s u) (hm : [.belfry] ⊆ m := by exact sub_ (by assumption) (by decide)) : Keeps m s (disarmTimers a1 u) := by
  unfold disarmTimers
  repeat' first
    | exact sub_ hm (by decide)
    | with_reducible assumption
    | with_reducible apply onceFired_keeps
    | with_reducible refine keeps_foldl ?_ ?_
    | with_reducible refine keeps_ite_left ?_ ?_
    | intro _

theorem sampleTick_keeps (n : Nat) (h : Keeps m s u) (hm : [.alert, .cmd, .talloc, .keep, .inputs, .cad, .cmds, .belfry, .cistern, .nvm, .parts, .tiles, .spires, .domes, .ops, .tickets, .samples, .engines, .hang, .tallies, .tallyQ, .ports, .launch, .peerRecs, .peerTds, .caravan, .records, .early, .near, .thermal, .erg, .mtr, .trc, .big, .rng] ⊆ m := by exact sub_ (by assumption) (by decide)) : Keeps m s (sampleTick u n) := by
  unfold sampleTick
  refine resolve_keeps _ (foldl_matched_keeps (fun v a hv => itemActs_keeps _ _ _ hv) ?_)
  exact disarmTimers_keeps _ (keeps_foldl (fun v a hv => inputConcern_keeps _ hv) (closeWindows_keeps _
    (keeps_foldl (fun v a hv => takeWord_keeps _ hv) (keeps_mk h rfl rfl rfl rfl rfl rfl rfl (KeepSt.Lasts.rfl_ _) id (fun _ hr => hr) (Nat.le_refl _) (Nat.le_refl _)))))

theorem queueDeadlines_keeps (h : Keeps m s u) (hm : [.alert, .inputs, .cistern, .parts, .tiles, .ops, .tickets, .samples, .engines, .records, .early, .near, .rng] ⊆ m := by exact sub_ (by assumption) (by decide)) : Keeps m s (queueDeadlines u) := by
  unfold queueDeadlines
  repeat' first
    | exact sub_ hm (by decide)
    | with_reducible assumption
    | with_reducible apply endSample_keeps
    | with_reducible refine keeps_foldl ?_ ?_
    | with_reducible refine keeps_ite_left ?_ ?_
    | intro _

theorem fencedMeter_keeps (h : Keeps m s u) (hm : [.parts] ⊆ m := by exact sub_ (by assumption) (by decide)) : Keeps m s (fencedMeter u) := by
  unfold fencedMeter
  repeat' first
    | exact sub_ hm (by decide)
    | with_reducible assumption
    | with_reducible apply addMeter_keeps
    | with_reducible refine keeps_foldl ?_ ?_
    | with_reducible refine keeps_ite_left ?_ ?_
    | intro _

theorem lastingAlerts_keeps (h : Keeps m s u) (hm : [.alert] ⊆ m := by exact sub_ (by assumption) (by decide)) : Keeps m s (lastingAlerts u) := by
  unfold lastingAlerts
  repeat' first
    | exact sub_ hm (by decide)
    | with_reducible assumption
    | with_reducible apply alert_keeps
    | with_reducible refine keeps_foldl ?_ ?_
    | with_reducible refine keeps_ite_left ?_ ?_
    | intro _

theorem sealRetry_keeps (a1 : Nat) (h : Keeps m s u) (hm : [.alert, .talloc, .cistern, .parts, .tiles, .ops, .tallies, .tallyQ, .records, .early, .near] ⊆ m := by exact sub_ (by assumption) (by decide)) : Keeps m s (sealRetry u a1) := by
  unfold sealRetry
  repeat' first
    | exact sub_ hm (by decide)
    | with_reducible assumption
    | with_reducible apply sealCheck_keeps
    | with_reducible apply restoreCheck_keeps
    | with_reducible refine keeps_foldl ?_ ?_
    | with_reducible refine keeps_ite_left ?_ ?_
    | intro _

theorem busyEngines_keeps (h : Keeps m s u) (hm : [.big] ⊆ m := by exact sub_ (by assumption) (by decide)) : Keeps m s (busyEngines u) := by
  unfold busyEngines
  repeat' first
    | exact sub_ hm (by decide)
    | with_reducible assumption
    | with_reducible apply addBig_keeps

theorem spireTick_keeps (h : Keeps m s u) (hm : [.spires] ⊆ m := by exact sub_ (by assumption) (by decide)) : Keeps m s (spireTick u) := by
  unfold spireTick
  repeat' first
    | exact sub_ hm (by decide)
    | with_reducible assumption
    | with_reducible apply countCycles_keeps
    | with_reducible refine keeps_foldl ?_ ?_
    | with_reducible refine keeps_ite_left ?_ ?_
    | intro _
    | split
    | with_reducible refine keeps_mk ?_ rfl

theorem beforeSeals_keeps (h : Keeps m s u) (hm : [.alert, .cmd, .inputs, .cmds, .cistern, .nvm, .parts, .tiles, .spires, .domes, .ops, .tickets, .samples, .engines, .caravan, .records, .early, .near, .thermal, .rng] ⊆ m := by exact sub_ (by assumption) (by decide)) : Keeps m s (beforeSeals u) := by
  unfold beforeSeals
  repeat' first
    | exact sub_ hm (by decide)
    | with_reducible assumption
    | with_reducible apply repairTick_keeps
    | with_reducible apply sliceTick_keeps
    | with_reducible apply poolTick_keeps
    | with_reducible apply queueDeadlines_keeps

theorem tickWork_keeps (h : Keeps m s u) (hm : [.alert, .cmd, .talloc, .inputs, .cmds, .cistern, .nvm, .parts, .tiles, .spires, .domes, .ops, .tickets, .samples, .engines, .tallies, .tallyQ, .ports, .attQ, .peerRecs, .peerTds, .caravan, .records, .early, .near, .thermal, .big, .rng] ⊆ m := by exact sub_ (by assumption) (by decide)) : Keeps m s (tickWork u) := by
  unfold tickWork
  repeat' first
    | exact sub_ hm (by decide)
    | with_reducible assumption
    | with_reducible apply sealRetry_keeps
    | with_reducible apply beforeSeals_keeps
    | with_reducible apply attStep_keeps
    | with_reducible apply closeDueKeys_keeps
    | with_reducible apply fencedMeter_keeps
    | with_reducible apply busyEngines_keeps
    | with_reducible apply compareTick_keeps
    | with_reducible refine keeps_foldl ?_ ?_
    | with_reducible refine keeps_ite_left ?_ ?_
    | intro _

theorem missTimers_keeps (a1 : Nat) (h : Keeps m s u) (hm : [.belfry] ⊆ m := by exact sub_ (by assumption) (by decide)) : Keeps m s (missTimers u a1) := by
  unfold missTimers
  repeat' first
    | exact sub_ hm (by decide)
    | with_reducible assumption
    | with_reducible refine keeps_foldl ?_ ?_
    | with_reducible refine keeps_ite_left ?_ ?_
    | intro _
    | split
    | with_reducible refine keeps_mk ?_ rfl

theorem atTick_keeps (h : Keeps m s u) (hm : [.tick, .belfry, .parts, .near, .mtr] ⊆ m := by exact sub_ (by assumption) (by decide)) : Keeps m s (atTick u) := by
  unfold atTick
  repeat' first
    | exact sub_ hm (by decide)
    | with_reducible assumption
    | with_reducible apply closePeriod_keeps
    | with_reducible refine keeps_foldl ?_ ?_
    | with_reducible refine keeps_ite_left ?_ ?_
    | intro _
    | split
    | with_reducible refine keeps_mk ?_ rfl

theorem endTick_keeps (h : Keeps m s u) (hm : [.alert, .parts, .spires, .near, .far, .rng] ⊆ m := by exact sub_ (by assumption) (by decide)) : Keeps m s (endTick u) := by
  unfold endTick
  repeat' first
    | exact sub_ hm (by decide)
    | with_reducible assumption
    | with_reducible apply portIssue_keeps
    | with_reducible apply lastingAlerts_keeps
    | with_reducible apply spireTick_keeps

theorem execBelfryTick_keeps (h : Keeps m s u) (hm : [.tick, .alert, .cmd, .talloc, .keep, .inputs, .cad, .cmds, .belfry, .cistern, .nvm, .parts, .tiles, .spires, .domes, .ops, .tickets, .samples, .engines, .hang, .tallies, .tallyQ, .ports, .launch, .attQ, .peerRecs, .peerTds, .caravan, .records, .early, .near, .far, .thermal, .erg, .mtr, .trc, .big, .rng] ⊆ m := by exact sub_ (by assumption) (by decide)) : ∃ t, execBelfryTick u = .next t ∧ Keeps m s t := by
  refine ⟨_, rfl, ?_⟩
  repeat' first
    | exact sub_ hm (by decide)
    | with_reducible assumption
    | with_reducible apply atTick_keeps
    | with_reducible apply endTick_keeps
    | with_reducible apply orderFrames_keeps
    | with_reducible apply tickWork_keeps
    | with_reducible apply sampleTick_keeps
    | with_reducible apply missTimers_keeps
    | with_reducible refine keeps_foldl ?_ ?_
    | with_reducible refine keeps_ite_left ?_ ?_
    | intro _

theorem execTimerPeal_keeps (a1 : Nat) (h : Keeps m s u) (hm : [.belfry] ⊆ m := by exact sub_ (by assumption) (by decide)) : ∃ t, execTimerPeal a1 u = .next t ∧ Keeps m s t := by
  refine ⟨_, rfl, ?_⟩
  repeat' first
    | exact sub_ hm (by decide)
    | with_reducible assumption
    | with_reducible apply missTimers_keeps
    | with_reducible refine keeps_foldl ?_ ?_
    | with_reducible refine keeps_ite_left ?_ ?_
    | intro _
    | split
    | with_reducible refine keeps_mk ?_ rfl

theorem execCountWindowClose_keeps (a1 a2 : Nat) (h : Keeps m s u) (hm : [.belfry, .parts] ⊆ m := by exact sub_ (by assumption) (by decide)) : ∃ t, execCountWindowClose a1 a2 u = .next t ∧ Keeps m s t := by
  refine ⟨_, rfl, ?_⟩
  repeat' first
    | exact sub_ hm (by decide)
    | with_reducible assumption
    | with_reducible apply dropCount_keeps

theorem execCountingPealFire_keeps (a1 a2 : Nat) (h : Keeps m s u) (hm : [.alert, .cmd, .talloc, .keep, .inputs, .cmds, .belfry, .cistern, .nvm, .parts, .tiles, .spires, .domes, .ops, .tickets, .samples, .engines, .hang, .tallies, .tallyQ, .ports, .launch, .peerRecs, .peerTds, .caravan, .records, .early, .near, .thermal, .erg, .mtr, .trc, .big, .rng] ⊆ m := by exact sub_ (by assumption) (by decide)) : ∃ t, execCountingPealFire a1 a2 u = .next t ∧ Keeps m s t := by
  refine ⟨_, rfl, ?_⟩
  repeat' first
    | exact sub_ hm (by decide)
    | with_reducible assumption
    | with_reducible apply onceFired_keeps
    | with_reducible apply dropCount_keeps
    | with_reducible apply orderFrames_keeps
    | with_reducible apply resolve_keeps
    | with_reducible refine keeps_foldl ?_ ?_
    | with_reducible refine keeps_ite_left ?_ ?_
    | intro _
    | split

end Sys2Proof.Machine
end

