-- ==== Sys2Proof/Laws/KeepsObserve.lean ====
section
/-! SUPPORT. What each operation of Machine/Observe.lean keeps. -/

set_option Elab.async false

namespace Sys2Proof.Machine

variable {m : List Fld} {s u : State}

theorem execMeterPeriodClose_keeps (h : Keeps m s u) (hm : [.parts, .near, .mtr] ⊆ m := by exact sub_ (by assumption) (by decide)) : ∃ t, execMeterPeriodClose u = .next t ∧ Keeps m s t := by
  refine ⟨_, rfl, ?_⟩
  repeat' first
    | exact sub_ hm (by decide)
    | with_reducible assumption
    | with_reducible apply closePeriod_keeps
    | with_reducible refine keeps_foldl ?_ ?_
    | with_reducible refine keeps_ite_left ?_ ?_
    | intro _

theorem wallClockSet_keeps (h : Keeps m s u) (hm : [.belfry] ⊆ m := by exact sub_ (by assumption) (by decide)) : Keeps m s (wallClockSet u) := by
  unfold wallClockSet
  repeat' first
    | exact sub_ hm (by decide)
    | with_reducible assumption
    | with_reducible refine keeps_foldl ?_ ?_
    | with_reducible refine keeps_ite_left ?_ ?_
    | intro _
    | split
    | with_reducible refine keeps_mk ?_ rfl

theorem ergClear_keeps (a1 : Requester) (h : Keeps m s u) (hm : [.erg] ⊆ m := by exact sub_ (by assumption) (by decide)) : Keeps m s (ergClear u a1) := by
  unfold ergClear
  repeat' first
    | exact sub_ hm (by decide)
    | with_reducible assumption
    | with_reducible refine keeps_foldl ?_ ?_
    | with_reducible refine keeps_ite_left ?_ ?_
    | intro _
    | split
    | with_reducible refine keeps_mk ?_ rfl

theorem dumpCommand_keeps (a1 : Requester) (a2 : W32) (h : Keeps m s u) (hm : [.parts, .near, .trc] ⊆ m := by exact sub_ (by assumption) (by decide)) : Keeps m s (dumpCommand u a1 a2) := by
  unfold dumpCommand
  repeat' first
    | exact sub_ hm (by decide)
    | with_reducible assumption
    | with_reducible apply dumpResult_keeps
    | with_reducible apply updPart_keeps
    | with_reducible apply post_keeps
    | with_reducible refine keeps_foldl ?_ ?_
    | with_reducible refine keeps_ite_left ?_ ?_
    | intro _
    | split
    | with_reducible refine keeps_mk ?_ rfl

theorem execDumpDone_keeps (a1 : Nat) (h : Keeps m s u) (hm : [.parts, .near, .far, .trc] ⊆ m := by exact sub_ (by assumption) (by decide)) : ∃ t, execDumpDone a1 u = .next t ∧ Keeps m s t := by
  refine ⟨_, rfl, ?_⟩
  repeat' first
    | exact sub_ hm (by decide)
    | with_reducible assumption
    | with_reducible apply updPart_keeps
    | with_reducible apply subUse_keeps
    | with_reducible apply addMeter_keeps
    | with_reducible apply nearPush_keeps
    | with_reducible apply post_keeps
    | with_reducible refine keeps_foldl ?_ ?_
    | with_reducible refine keeps_ite_left ?_ ?_
    | intro _
    | split
    | with_reducible refine keeps_mk ?_ rfl

end Sys2Proof.Machine
end

