-- ==== Sys2Proof/Laws/KeepsCsr.lean ====
section
/-! SUPPORT. What each operation of Machine/Csr.lean keeps. -/

set_option Elab.async false

namespace Sys2Proof.Machine

variable {m : List Fld} {s u : State}

theorem updMbx_keeps (a1 : Nat) (a2 : Mbx → Mbx) (h : Keeps m s u) (hm : [.mbx] ⊆ m := by exact sub_ (by assumption) (by decide)) : Keeps m s (updMbx u a1 a2) := by
  unfold updMbx
  repeat' first
    | exact sub_ hm (by decide)
    | with_reducible assumption
    | with_reducible refine keeps_foldl ?_ ?_
    | with_reducible refine keeps_ite_left ?_ ?_
    | intro _
    | split
    | with_reducible refine keeps_mk ?_ rfl

theorem setAccLast_keeps (a1 a2 : Nat) (a3 : W64) (a4 : Nat) (h : Keeps m s u) (hm : [.acc] ⊆ m := by exact sub_ (by assumption) (by decide)) : Keeps m s (setAccLast u a1 a2 a3 a4) := by
  unfold setAccLast
  repeat' first
    | exact sub_ hm (by decide)
    | with_reducible assumption
    | with_reducible refine keeps_foldl ?_ ?_
    | with_reducible refine keeps_ite_left ?_ ?_
    | intro _
    | split
    | with_reducible refine keeps_mk ?_ rfl

theorem accWrite_keeps (a1 : AccessInfo) (a2 : Nat) (h : Keeps m s u) (hm : [.alert, .acc, .cistern, .parts, .records, .early, .near] ⊆ m := by exact sub_ (by assumption) (by decide)) : Keeps m s (accWrite u a1 a2) := by
  unfold accWrite
  repeat' first
    | exact sub_ hm (by decide)
    | with_reducible assumption
    | with_reducible apply setAccLast_keeps
    | with_reducible apply addRec_keeps
    | with_reducible refine keeps_foldl ?_ ?_
    | with_reducible refine keeps_ite_left ?_ ?_
    | intro _

theorem accEvent_keeps (a1 : AccessInfo) (a2 : Nat) (h : Keeps m s u) (hm : [.alert, .acc, .cistern, .parts, .records, .early, .near] ⊆ m := by exact sub_ (by assumption) (by decide)) : Keeps m s (accEvent u a1 a2) := by
  unfold accEvent
  repeat' first
    | exact sub_ hm (by decide)
    | with_reducible assumption
    | with_reducible apply accWrite_keeps
    | with_reducible refine keeps_foldl ?_ ?_
    | with_reducible refine keeps_ite_left ?_ ?_
    | intro _
    | split
    | with_reducible refine keeps_mk ?_ rfl

theorem lockFields_lasts (k : KeepSt) (mask data : BitVec 4) : k.Lasts { k with
    lock := (k.lock &&& ~~~ (mask &&& ~~~ k.locked)) ||| (data &&& (mask &&& ~~~ k.locked)), locked := k.locked ||| mask } where
  mbx := rfl
  talloc := rfl
  cmd := rfl
  fault := id
  dieFault := id
  shutdown := id
  held _ h := h
  tagLocked := id
  hosttag _ := rfl
  locked b hb := by simp [hb]
  lock b hb := by
    have hlt : b < 4 := BitVec.lt_of_getLsbD hb
    have hl : k.locked[b] = true := by rw [← BitVec.getLsbD_eq_getElem]; exact hb
    simp [hlt, hl]

theorem lockWrite_keeps (a : AccessInfo) (mask data : BitVec 4) (h : Keeps m s u) (hm : [.alert, .acc, .locks, .cistern, .parts, .records, .early, .near] ⊆ m := by exact sub_ (by assumption) (by decide)) : Keeps m s (lockWrite u a mask data) := by
  have h1 := keeps_keep h (lockFields_lasts u.keep mask data)
  unfold lockWrite
  dsimp only
  split
  · exact h1
  · exact accEvent_keeps _ _ h1

theorem hosttagWrite_keeps (a : AccessInfo) (d : W32) (h : Keeps m s u) (hm : [.alert, .acc, .locks, .cistern, .parts, .records, .early, .near] ⊆ m := by exact sub_ (by assumption) (by decide)) : Keeps m s (hosttagWrite u a d) := by
  unfold hosttagWrite
  split
  · exact accEvent_keeps _ _ h
  · next hl =>
    exact keeps_keep h ⟨rfl, rfl, rfl, id, id, id, fun _ h => h, fun _ => rfl, fun ht => absurd ht hl, fun _ h => h, fun _ _ => rfl⟩

theorem unitBit_keeps (a1 : Nat) (a2 : Bool) (h : Keeps m s u) (hm : [.units] ⊆ m := by exact sub_ (by assumption) (by decide)) : Keeps m s (unitBit u a1 a2) := by
  unfold unitBit
  repeat' first
    | exact sub_ hm (by decide)
    | with_reducible assumption
    | with_reducible refine keeps_foldl ?_ ?_
    | with_reducible refine keeps_ite_left ?_ ?_
    | intro _
    | split
    | with_reducible refine keeps_mk ?_ rfl

theorem unitEnWrite_keeps (a1 : List Nat) (a2 : W32) (h : Keeps m s u) (hm : [.units] ⊆ m := by exact sub_ (by assumption) (by decide)) : Keeps m s (unitEnWrite u a1 a2).1 := by
  unfold unitEnWrite
  repeat' first
    | exact sub_ hm (by decide)
    | with_reducible assumption
    | with_reducible apply unitBit_keeps
    | with_reducible refine keeps_foldl ?_ ?_
    | with_reducible refine keeps_ite_left ?_ ?_
    | intro _
    | split

theorem mbxSelect_keeps (a1 : Requester) (a2 : BitVec 24) (h : Keeps m s u) (hm : [.mbx] ⊆ m := by exact sub_ (by assumption) (by decide)) : Keeps m s (mbxSelect u a1 a2) := by
  unfold mbxSelect
  repeat' first
    | exact sub_ hm (by decide)
    | with_reducible assumption
    | with_reducible apply updMbx_keeps

theorem cmdWrite_keeps (a1 : Requester) (a2 : W32) (h : Keeps m s u) (hm : [.cmd, .cmds] ⊆ m := by exact sub_ (by assumption) (by decide)) : Keeps m s (cmdWrite u a1 a2).1 := by
  unfold cmdWrite
  repeat' first
    | exact sub_ hm (by decide)
    | with_reducible assumption
    | with_reducible apply updCmd_keeps
    | with_reducible apply issueCmd_keeps
    | with_reducible refine keeps_foldl ?_ ?_
    | with_reducible refine keeps_ite_left ?_ ?_
    | intro _
    | split

theorem keepWrite_keeps (a1 : Requester) (a2 : AccessInfo) (a3 : Nat) (a4 : W32) (h : Keeps m s u) (hm : [.alert, .acc, .cmd, .mbx, .talloc, .units, .locks, .keep, .cmds, .cistern, .parts, .tallies, .tallyQ, .records, .early, .near] ⊆ m := by exact sub_ (by assumption) (by decide)) : Keeps m s (keepWrite u a1 a2 a3 a4).1 := by
  unfold keepWrite
  repeat' first
    | exact sub_ hm (by decide)
    | with_reducible assumption
    | with_reducible apply unitEnWrite_keeps
    | with_reducible apply lockWrite_keeps
    | with_reducible apply hosttagWrite_keeps
    | with_reducible apply mbxSelect_keeps
    | with_reducible apply tallyAlloc_keeps
    | with_reducible apply cmdWrite_keeps
    | with_reducible apply updCmd_keeps
    | with_reducible refine keeps_foldl ?_ ?_
    | with_reducible refine keeps_ite_left ?_ ?_
    | intro _
    | split
    | with_reducible refine keeps_mk ?_ rfl

theorem aliasWrite_keeps (a1 : Requester) (a2 : AccessInfo) (a3 a4 : Nat) (a5 : Bool) (h : Keeps m s u) (hm : [.alert, .acc, .cmd, .mbx, .talloc, .units, .locks, .keep, .cmds, .cistern, .parts, .tallies, .tallyQ, .records, .early, .near] ⊆ m := by exact sub_ (by assumption) (by decide)) : Keeps m s (aliasWrite u a1 a2 a3 a4 a5).1 := by
  unfold aliasWrite
  repeat' first
    | exact sub_ hm (by decide)
    | with_reducible assumption
    | with_reducible apply accEvent_keeps
    | with_reducible apply lockWrite_keeps
    | with_reducible apply keepWrite_keeps
    | with_reducible apply unitEnWrite_keeps
    | with_reducible refine keeps_foldl ?_ ?_
    | with_reducible refine keeps_ite_left ?_ ?_
    | intro _
    | split

theorem updBelfry_keeps {f : Belfry → Belfry} (hf : (f u.belfry).run = u.belfry.run) (hi : (f u.belfry).inputs = u.belfry.inputs)
    (hj : (f u.belfry).carriedIn = u.belfry.carriedIn) (hc : (f u.belfry).cadFifo = u.belfry.cadFifo)
    (hd : (f u.belfry).cmds = u.belfry.cmds) (h : Keeps m s u)
    (hm : [.belfry] ⊆ m := by exact sub_ (by assumption) (by decide)) : Keeps m s (updBelfry u f) :=
  keeps_mk h rfl (hs := fun _ hr => hf.trans hr) (hsame := by
    intro g hg
    cases g <;> first
      | rfl
      | exact hf
      | exact Prod.ext hi hj
      | exact hc
      | exact hd
      | exact (Fld.out hm hg (by decide)).elim)

theorem blfWrite_keeps (a1 : Nat) (a2 : W32) (h : Keeps m s u) (hm : [.time, .belfry] ⊆ m := by exact sub_ (by assumption) (by decide)) : Keeps m s (blfWrite u a1 a2) := by
  unfold blfWrite
  repeat' first
    | exact sub_ hm (by decide)
    | with_reducible assumption
    | (with_reducible apply updBelfry_keeps <;> try with_reducible rfl)
    | with_reducible refine keeps_foldl ?_ ?_
    | with_reducible refine keeps_ite_left ?_ ?_
    | intro _
    | split
    | with_reducible refine keeps_mk ?_ rfl

theorem bcmdWrite_keeps (a1 : W32) (h : Keeps m s u) (hm : [.alert, .bytes, .cistern, .parts, .records, .early, .near] ⊆ m := by exact sub_ (by assumption) (by decide)) : Keeps m s (bcmdWrite u a1) := by
  unfold bcmdWrite
  repeat' first
    | exact sub_ hm (by decide)
    | with_reducible assumption
    | (with_reducible apply updCis_keeps <;> try first | with_reducible rfl | simp only [length_updAt, List.length_map, List.length_zipIdx])
    | with_reducible apply bankFill_keeps
    | with_reducible apply bankResult_keeps
    | with_reducible refine keeps_foldl ?_ ?_
    | with_reducible refine keeps_ite_left ?_ ?_
    | intro _
    | split

theorem cisWrite_keeps (a1 : Nat) (a2 : W32) (h : Keeps m s u) (hm : [.alert, .bytes, .cistern, .parts, .records, .early, .near] ⊆ m := by exact sub_ (by assumption) (by decide)) : Keeps m s (cisWrite u a1 a2) := by
  unfold cisWrite
  repeat' first
    | exact sub_ hm (by decide)
    | with_reducible assumption
    | (with_reducible apply updCis_keeps <;> try first | with_reducible rfl | simp only [length_updAt, List.length_map, List.length_zipIdx])
    | with_reducible apply bcmdWrite_keeps
    | with_reducible apply updCnt_keeps
    | with_reducible refine keeps_foldl ?_ ?_
    | with_reducible refine keeps_ite_left ?_ ?_
    | intro _
    | split

theorem cvnWrite_keeps (a1 : Nat) (a2 : W32) (h : Keeps m s u) (hm : [.caravan] ⊆ m := by exact sub_ (by assumption) (by decide)) : Keeps m s (cvnWrite u a1 a2) := by
  unfold cvnWrite
  repeat' first
    | exact sub_ hm (by decide)
    | with_reducible assumption
    | with_reducible refine keeps_foldl ?_ ?_
    | with_reducible refine keeps_ite_left ?_ ?_
    | intro _
    | split
    | with_reducible refine keeps_mk ?_ rfl

theorem rplWrite_keeps (a1 : Nat) (a2 : W32) (h : Keeps m s u) (hm : [.parts] ⊆ m := by exact sub_ (by assumption) (by decide)) : Keeps m s (rplWrite u a1 a2) := by
  unfold rplWrite
  repeat' first
    | exact sub_ hm (by decide)
    | with_reducible assumption
    | with_reducible apply updCnt_keeps
    | with_reducible refine keeps_foldl ?_ ?_
    | with_reducible refine keeps_ite_left ?_ ?_
    | intro _

theorem ergWrite_keeps (a1 : Requester) (a2 : Nat) (a3 : W32) (h : Keeps m s u) (hm : [.erg] ⊆ m := by exact sub_ (by assumption) (by decide)) : Keeps m s (ergWrite u a1 a2 a3) := by
  unfold ergWrite
  repeat' first
    | exact sub_ hm (by decide)
    | with_reducible assumption
    | with_reducible apply ergClear_keeps
    | with_reducible refine keeps_foldl ?_ ?_
    | with_reducible refine keeps_ite_left ?_ ?_
    | intro _

theorem thmWrite_keeps (a1 : Nat) (a2 : W32) (h : Keeps m s u) (hm : [.thermal] ⊆ m := by exact sub_ (by assumption) (by decide)) : Keeps m s (thmWrite u a1 a2) := by
  unfold thmWrite
  repeat' first
    | exact sub_ hm (by decide)
    | with_reducible assumption
    | with_reducible refine keeps_foldl ?_ ?_
    | with_reducible refine keeps_ite_left ?_ ?_
    | intro _
    | split
    | with_reducible refine keeps_mk ?_ rfl

theorem banWrite_keeps (a1 : Nat) (a2 : W32) (h : Keeps m s u) (hm : [.ports] ⊆ m := by exact sub_ (by assumption) (by decide)) : Keeps m s (banWrite u a1 a2) := by
  unfold banWrite
  repeat' first
    | exact sub_ hm (by decide)
    | with_reducible assumption
    | with_reducible apply updPort_keeps
    | with_reducible refine keeps_foldl ?_ ?_
    | with_reducible refine keeps_ite_left ?_ ?_
    | intro _
    | split

theorem trcWrite_keeps (a1 : Requester) (a2 : Nat) (a3 : W32) (h : Keeps m s u) (hm : [.parts, .near, .trc] ⊆ m := by exact sub_ (by assumption) (by decide)) : Keeps m s (trcWrite u a1 a2 a3) := by
  unfold trcWrite
  repeat' first
    | exact sub_ hm (by decide)
    | with_reducible assumption
    | with_reducible apply dumpCommand_keeps
    | with_reducible refine keeps_foldl ?_ ?_
    | with_reducible refine keeps_ite_left ?_ ?_
    | intro _
    | split
    | with_reducible refine keeps_mk ?_ rfl

theorem mtrWrite_keeps (a1 : Requester) (a2 : Nat) (a3 : W32) (h : Keeps m s u) (hm : [.belfry, .mtr] ⊆ m := by exact sub_ (by assumption) (by decide)) : Keeps m s (mtrWrite u a1 a2 a3).1 := by
  unfold mtrWrite
  repeat' first
    | exact sub_ hm (by decide)
    | with_reducible assumption
    | with_reducible apply wallClockSet_keeps
    | with_reducible refine keeps_foldl ?_ ?_
    | with_reducible refine keeps_ite_left ?_ ?_
    | intro _
    | split
    | with_reducible refine keeps_mk ?_ rfl

theorem partWrite_keeps (a1 a2 : Nat) (a3 : W32) (h : Keeps m s u) (hm : [.parts] ⊆ m := by exact sub_ (by assumption) (by decide)) : Keeps m s (partWrite u a1 a2 a3) := by
  unfold partWrite
  repeat' first
    | exact sub_ hm (by decide)
    | with_reducible assumption
    | with_reducible apply updCnt_keeps

theorem talWrite_keeps (a1 a2 : Nat) (a3 : W32) (h : Keeps m s u) (hm : [.talloc, .parts, .tallies, .tallyQ] ⊆ m := by exact sub_ (by assumption) (by decide)) : Keeps m s (talWrite u a1 a2 a3) := by
  unfold talWrite
  repeat' first
    | exact sub_ hm (by decide)
    | with_reducible assumption
    | with_reducible apply updTally_keeps
    | with_reducible apply tallyTarget_keeps
    | with_reducible apply tallyCmd_keeps
    | with_reducible refine keeps_foldl ?_ ?_
    | with_reducible refine keeps_ite_left ?_ ?_
    | intro _
    | split

theorem sprWrite_keeps (a1 a2 : Nat) (a3 : W32) (h : Keeps m s u) (hm : [.spires] ⊆ m := by exact sub_ (by assumption) (by decide)) : Keeps m s (sprWrite u a1 a2 a3) := by
  unfold sprWrite
  repeat' first
    | exact sub_ hm (by decide)
    | with_reducible assumption
    | with_reducible apply updSp_keeps

theorem writeLoc_keeps (a1 : Requester) (a2 : AccessInfo) (a3 : Loc) (a4 : W32) (h : Keeps m s u) (hm : [.time, .alert, .acc, .cmd, .mbx, .talloc, .units, .locks, .keep, .cmds, .belfry, .bytes, .cistern, .parts, .spires, .tallies, .tallyQ, .ports, .caravan, .records, .early, .near, .thermal, .erg, .mtr, .trc] ⊆ m := by exact sub_ (by assumption) (by decide)) : Keeps m s (writeLoc u a1 a2 a3 a4).1 := by
  unfold writeLoc
  repeat' first
    | exact sub_ hm (by decide)
    | with_reducible assumption
    | with_reducible apply keepWrite_keeps
    | with_reducible apply blfWrite_keeps
    | with_reducible apply cisWrite_keeps
    | with_reducible apply cvnWrite_keeps
    | with_reducible apply rplWrite_keeps
    | with_reducible apply ergWrite_keeps
    | with_reducible apply thmWrite_keeps
    | with_reducible apply banWrite_keeps
    | with_reducible apply trcWrite_keeps
    | with_reducible apply mtrWrite_keeps
    | with_reducible apply partWrite_keeps
    | with_reducible apply talWrite_keeps
    | with_reducible apply sprWrite_keeps
    | with_reducible apply aliasWrite_keeps
    | with_reducible refine keeps_foldl ?_ ?_
    | with_reducible refine keeps_ite_left ?_ ?_
    | intro _
    | split

theorem refuseAccess_keeps (a1 : AccessInfo) (a2 : Nat) (h : Keeps m s u) (hm : [.alert, .acc, .cistern, .parts, .records, .early, .near] ⊆ m := by exact sub_ (by assumption) (by decide)) : Keeps m s (refuseAccess u a1 a2).st := by
  unfold refuseAccess
  repeat' first
    | exact sub_ hm (by decide)
    | with_reducible assumption
    | with_reducible apply accEvent_keeps

theorem access_keeps (a1 : Requester) (a2 : Bool) (a3 : Nat) (a4 : W32) (a5 : Bool) (h : Keeps m s u) (hm : [.time, .alert, .acc, .cmd, .mbx, .talloc, .units, .locks, .keep, .cmds, .belfry, .bytes, .cistern, .parts, .spires, .tallies, .tallyQ, .ports, .caravan, .records, .early, .near, .thermal, .erg, .mtr, .trc] ⊆ m := by exact sub_ (by assumption) (by decide)) : Keeps m s (access u a1 a2 a3 a4 a5).st := by
  unfold access
  dsimp only
  by_cases h1 : (!a5) = true ∨ a3 % 4 ≠ 0
  · rw [if_pos h1]; exact refuseAccess_keeps _ _ h
  rw [if_neg h1]
  by_cases h2 : (!phaseServes u a1 a2 (locOf u a3)) = true
  · rw [if_pos h2]; exact refuseAccess_keeps _ _ h
  rw [if_neg h2]
  by_cases h3 : partOf a1 ≠ 0 ∧ lockSet u lkTenantOff = true
  · rw [if_pos h3]; exact refuseAccess_keeps _ _ h
  rw [if_neg h3]
  by_cases h4 : locOf u a3 = .nowhere
  · rw [if_pos h4]; exact refuseAccess_keeps _ _ h
  rw [if_neg h4]
  by_cases h5 : (!mayAccess u a1 a2 (locOf u a3)) = true
  · rw [if_pos h5]; exact refuseAccess_keeps _ _ h
  rw [if_neg h5]
  by_cases h6 : spireGone u (locOf u a3) = true
  · rw [if_pos h6]; exact refuseAccess_keeps _ _ h
  rw [if_neg h6]
  by_cases h7 : a2 = true
  · have hw := fun x => writeLoc_keeps a1 x (locOf u a3) a4 h
    simp only [if_pos h7]
    split
    · exact hw _
    · exact refuseAccess_keeps _ _ (hw _)
  · rw [if_neg h7]; exact h

theorem request_keeps (a1 : Requester) (a2 : Bool) (a3 : Nat) (a4 : W32) (a5 : BitVec 4) (a6 : Bool) (h : Keeps m s u) (hm : [.time, .alert, .acc, .cmd, .mbx, .talloc, .units, .locks, .keep, .cmds, .belfry, .bytes, .cistern, .parts, .spires, .tallies, .tallyQ, .ports, .caravan, .records, .early, .near, .thermal, .erg, .mtr, .trc, .mgmt, .csr] ⊆ m := by exact sub_ (by assumption) (by decide)) : Keeps m s (request u a1 a2 a3 a4 a5 a6) := by
  unfold request
  repeat' first
    | exact sub_ hm (by decide)
    | with_reducible assumption
    | with_reducible apply access_keeps
    | with_reducible refine keeps_foldl ?_ ?_
    | with_reducible refine keeps_ite_left ?_ ?_
    | intro _
    | split
    | with_reducible refine keeps_mk ?_ rfl

theorem namedWrite_keeps (a1 : Requester) (a2 : Nat) (a3 : W32) (h : Keeps m s u) (hm : [.time, .alert, .acc, .cmd, .mbx, .talloc, .units, .locks, .keep, .cmds, .belfry, .bytes, .cistern, .parts, .spires, .tallies, .tallyQ, .ports, .caravan, .records, .early, .near, .thermal, .erg, .mtr, .trc, .mgmt, .csr] ⊆ m := by exact sub_ (by assumption) (by decide)) : Keeps m s (namedWrite u a1 a2 a3) := by
  unfold namedWrite
  repeat' first
    | exact sub_ hm (by decide)
    | with_reducible assumption
    | with_reducible apply request_keeps

theorem mbxLatch_keeps (a1 : Requester) (h : Keeps m s u) (hm : [.alert, .acc, .mbx, .cistern, .parts, .spires, .records, .early, .near] ⊆ m := by exact sub_ (by assumption) (by decide)) : Keeps m s (mbxLatch u a1) := by
  unfold mbxLatch
  repeat' first
    | exact sub_ hm (by decide)
    | with_reducible assumption
    | with_reducible apply countCycles_keeps
    | with_reducible apply updMbx_keeps
    | with_reducible apply accEvent_keeps
    | with_reducible refine keeps_foldl ?_ ?_
    | with_reducible refine keeps_ite_left ?_ ?_
    | intro _

end Sys2Proof.Machine
end

