-- ==== Sys2Proof/Laws/KeepsMgmt.lean ====
section
/-! SUPPORT. What each operation of Machine/Mgmt.lean keeps. -/

set_option Elab.async false

namespace Sys2Proof.Machine

variable {m : List Fld} {s u : State}

theorem updMgmt_keeps (a1 : Mgmt → Mgmt) (h : Keeps m s u) (hm : [.mgmt] ⊆ m := by exact sub_ (by assumption) (by decide)) : Keeps m s (updMgmt u a1) := by
  unfold updMgmt
  repeat' first
    | exact sub_ hm (by decide)
    | with_reducible assumption
    | with_reducible refine keeps_foldl ?_ ?_
    | with_reducible refine keeps_ite_left ?_ ?_
    | intro _
    | split
    | with_reducible refine keeps_mk ?_ rfl

theorem deliver_keeps (a1 : List Byte) (h : Keeps m s u) (hm : [.mgmt] ⊆ m := by exact sub_ (by assumption) (by decide)) : Keeps m s (deliver u a1) := by
  unfold deliver
  repeat' first
    | exact sub_ hm (by decide)
    | with_reducible assumption
    | with_reducible apply updMgmt_keeps

theorem mgmtMalformed_keeps (a1 : MgmtFault) (h : Keeps m s u) (hm : [.alert, .acc, .cistern, .parts, .records, .early, .near, .mgmt] ⊆ m := by exact sub_ (by assumption) (by decide)) : Keeps m s (mgmtMalformed u a1) := by
  unfold mgmtMalformed
  repeat' first
    | exact sub_ hm (by decide)
    | with_reducible assumption
    | with_reducible apply accEvent_keeps
    | with_reducible apply updMgmt_keeps
    | with_reducible refine keeps_foldl ?_ ?_
    | with_reducible refine keeps_ite_left ?_ ?_
    | intro _

theorem execMalformedTransaction_keeps (a1 : MgmtFault) (h : Keeps m s u) (hm : [.alert, .acc, .cistern, .parts, .records, .early, .near, .mgmt] ⊆ m := by exact sub_ (by assumption) (by decide)) : ∃ t, execMalformedTransaction a1 u = .next t ∧ Keeps m s t := by
  refine ⟨_, rfl, ?_⟩
  repeat' first
    | exact sub_ hm (by decide)
    | with_reducible assumption
    | with_reducible apply mgmtMalformed_keeps

theorem execSetaddr_keeps (a1 : BitVec 24) (a2 : Nat) (h : Keeps m s u) (hm : [.alert, .acc, .cistern, .parts, .records, .early, .near, .mgmt] ⊆ m := by exact sub_ (by assumption) (by decide)) : ∃ t, execSetaddr a1 a2 u = .next t ∧ Keeps m s t := by
  refine ⟨_, rfl, ?_⟩
  repeat' first
    | exact sub_ hm (by decide)
    | with_reducible assumption
    | with_reducible apply mgmtMalformed_keeps
    | with_reducible apply updMgmt_keeps
    | with_reducible refine keeps_foldl ?_ ?_
    | with_reducible refine keeps_ite_left ?_ ?_
    | intro _

theorem readWord_keeps (r : State × List Byte × Nat) (h : Keeps m s r.1) (hm : [.time, .alert, .acc, .cmd, .mbx, .talloc, .units, .locks, .keep, .cmds, .belfry, .bytes, .cistern, .parts, .spires, .tallies, .tallyQ, .ports, .caravan, .records, .early, .near, .thermal, .erg, .mtr, .trc, .mgmt] ⊆ m := by exact sub_ (by assumption) (by decide)) : Keeps m s (readWord r).1 := by
  unfold readWord
  dsimp only
  exact updMgmt_keeps _ (access_keeps _ _ _ _ _ h)

theorem foldl_readWord_keeps {l : List Nat} {r : State × List Byte × Nat} (h : Keeps m s r.1)
    (hm : [.time, .alert, .acc, .cmd, .mbx, .talloc, .units, .locks, .keep, .cmds, .belfry, .bytes, .cistern, .parts, .spires, .tallies, .tallyQ, .ports, .caravan, .records, .early, .near, .thermal, .erg, .mtr, .trc, .mgmt] ⊆ m := by exact sub_ (by assumption) (by decide)) :
    Keeps m s (l.foldl (fun r _ => readWord r) r).1 := by
  induction l generalizing r with
  | nil => exact h
  | cons a l ih => exact ih (readWord_keeps _ h)

theorem execRead_keeps (h : Keeps m s u) (hm : [.time, .alert, .acc, .cmd, .mbx, .talloc, .units, .locks, .keep, .cmds, .belfry, .bytes, .cistern, .parts, .spires, .tallies, .tallyQ, .ports, .caravan, .records, .early, .near, .thermal, .erg, .mtr, .trc, .mgmt] ⊆ m := by exact sub_ (by assumption) (by decide)) : ∃ t, execRead u = .next t ∧ Keeps m s t := by
  refine ⟨_, rfl, ?_⟩
  split
  · exact h
  · exact deliver_keeps _ (foldl_readWord_keeps h)

theorem execWrite_keeps (a1 : W32) (h : Keeps m s u) (hm : [.time, .alert, .acc, .cmd, .mbx, .talloc, .units, .locks, .keep, .cmds, .belfry, .bytes, .cistern, .parts, .spires, .tallies, .tallyQ, .ports, .caravan, .records, .early, .near, .thermal, .erg, .mtr, .trc, .mgmt, .csr] ⊆ m := by exact sub_ (by assumption) (by decide)) : ∃ t, execWrite a1 u = .next t ∧ Keeps m s t := by
  refine ⟨_, rfl, ?_⟩
  repeat' first
    | exact sub_ hm (by decide)
    | with_reducible assumption
    | with_reducible apply updMgmt_keeps
    | with_reducible apply request_keeps
    | with_reducible refine keeps_foldl ?_ ?_
    | with_reducible refine keeps_ite_left ?_ ?_
    | intro _

theorem execStatus_keeps (h : Keeps m s u) (hm : [.mgmt] ⊆ m := by exact sub_ (by assumption) (by decide)) : ∃ t, execStatus u = .next t ∧ Keeps m s t := by
  refine ⟨_, rfl, ?_⟩
  repeat' first
    | exact sub_ hm (by decide)
    | with_reducible assumption
    | with_reducible apply deliver_keeps
    | with_reducible refine keeps_foldl ?_ ?_
    | with_reducible refine keeps_ite_left ?_ ?_
    | intro _

theorem execClockLowTimeout_keeps (h : Keeps m s u) (hm : [.mgmt] ⊆ m := by exact sub_ (by assumption) (by decide)) : ∃ t, execClockLowTimeout u = .next t ∧ Keeps m s t := by
  refine ⟨_, rfl, ?_⟩
  repeat' first
    | exact sub_ hm (by decide)
    | with_reducible assumption
    | with_reducible apply updMgmt_keeps
    | with_reducible refine keeps_foldl ?_ ?_
    | with_reducible refine keeps_ite_left ?_ ?_
    | intro _

theorem freeBytes_keeps (a1 : Nat) (h : Keeps m s u) (hm : [.rng] ⊆ m := by exact sub_ (by assumption) (by decide)) : Keeps m s (freeBytes u a1).2 := by
  unfold freeBytes
  repeat' first
    | exact sub_ hm (by decide)
    | with_reducible assumption
    | with_reducible refine keeps_foldl ?_ ?_
    | with_reducible refine keeps_ite_left ?_ ?_
    | intro _
    | split
    | with_reducible refine keeps_mk ?_ rfl

theorem onI3c_keeps (g : State → State) (hg : ∀ v, Keeps m s v → Keeps m s (g v)) (h : Keeps m s u) (hm : [] ⊆ m := by exact sub_ (by assumption) (by decide)) : Keeps m s (onI3c u g) := by
  unfold onI3c
  repeat' first
    | exact sub_ hm (by decide)
    | with_reducible assumption
    | with_reducible apply hg
    | with_reducible refine keeps_foldl ?_ ?_
    | with_reducible refine keeps_ite_left ?_ ?_

theorem execEntdaa_keeps (a1 : BitVec 7) (h : Keeps m s u) (hm : [.mgmt, .rng] ⊆ m := by exact sub_ (by assumption) (by decide)) : ∃ t, execEntdaa a1 u = .next t ∧ Keeps m s t := by
  refine ⟨_, rfl, ?_⟩
  repeat' first
    | exact sub_ hm (by decide)
    | with_reducible assumption
    | with_reducible apply onI3c_keeps
    | with_reducible apply freeBytes_keeps
    | with_reducible apply updMgmt_keeps
    | with_reducible refine keeps_foldl ?_ ?_
    | with_reducible refine keeps_ite_left ?_ ?_
    | intro _

theorem execSetdasa_keeps (a1 : BitVec 7) (h : Keeps m s u) (hm : [.mgmt] ⊆ m := by exact sub_ (by assumption) (by decide)) : ∃ t, execSetdasa a1 u = .next t ∧ Keeps m s t := by
  refine ⟨_, rfl, ?_⟩
  repeat' first
    | exact sub_ hm (by decide)
    | with_reducible assumption
    | with_reducible apply onI3c_keeps
    | with_reducible apply updMgmt_keeps
    | with_reducible refine keeps_foldl ?_ ?_
    | with_reducible refine keeps_ite_left ?_ ?_
    | intro _

theorem execRstdaa_keeps (h : Keeps m s u) (hm : [.mgmt] ⊆ m := by exact sub_ (by assumption) (by decide)) : ∃ t, execRstdaa u = .next t ∧ Keeps m s t := by
  refine ⟨_, rfl, ?_⟩
  repeat' first
    | exact sub_ hm (by decide)
    | with_reducible assumption
    | with_reducible apply onI3c_keeps
    | with_reducible apply updMgmt_keeps
    | with_reducible refine keeps_foldl ?_ ?_
    | with_reducible refine keeps_ite_left ?_ ?_
    | intro _

theorem execGetpid_keeps (h : Keeps m s u) (hm : [.mgmt] ⊆ m := by exact sub_ (by assumption) (by decide)) : ∃ t, execGetpid u = .next t ∧ Keeps m s t := by
  refine ⟨_, rfl, ?_⟩
  repeat' first
    | exact sub_ hm (by decide)
    | with_reducible assumption
    | with_reducible apply onI3c_keeps
    | with_reducible apply updMgmt_keeps
    | with_reducible refine keeps_foldl ?_ ?_
    | with_reducible refine keeps_ite_left ?_ ?_
    | intro _

theorem execGetbcr_keeps (h : Keeps m s u) (hm : [.mgmt, .rng] ⊆ m := by exact sub_ (by assumption) (by decide)) : ∃ t, execGetbcr u = .next t ∧ Keeps m s t := by
  refine ⟨_, rfl, ?_⟩
  repeat' first
    | exact sub_ hm (by decide)
    | with_reducible assumption
    | with_reducible apply onI3c_keeps
    | with_reducible apply freeBytes_keeps
    | with_reducible apply updMgmt_keeps
    | with_reducible refine keeps_foldl ?_ ?_
    | with_reducible refine keeps_ite_left ?_ ?_
    | intro _

theorem execGetdcr_keeps (h : Keeps m s u) (hm : [.mgmt, .rng] ⊆ m := by exact sub_ (by assumption) (by decide)) : ∃ t, execGetdcr u = .next t ∧ Keeps m s t := by
  refine ⟨_, rfl, ?_⟩
  repeat' first
    | exact sub_ hm (by decide)
    | with_reducible assumption
    | with_reducible apply onI3c_keeps
    | with_reducible apply freeBytes_keeps
    | with_reducible apply updMgmt_keeps
    | with_reducible refine keeps_foldl ?_ ?_
    | with_reducible refine keeps_ite_left ?_ ?_
    | intro _

theorem execGetstatus_keeps (h : Keeps m s u) (hm : [.mgmt, .rng] ⊆ m := by exact sub_ (by assumption) (by decide)) : ∃ t, execGetstatus u = .next t ∧ Keeps m s t := by
  refine ⟨_, rfl, ?_⟩
  repeat' first
    | exact sub_ hm (by decide)
    | with_reducible assumption
    | with_reducible apply onI3c_keeps
    | with_reducible apply freeBytes_keeps
    | with_reducible apply updMgmt_keeps
    | with_reducible refine keeps_foldl ?_ ?_
    | with_reducible refine keeps_ite_left ?_ ?_
    | intro _

theorem execGetmxds_keeps (h : Keeps m s u) (hm : [.mgmt, .rng] ⊆ m := by exact sub_ (by assumption) (by decide)) : ∃ t, execGetmxds u = .next t ∧ Keeps m s t := by
  refine ⟨_, rfl, ?_⟩
  repeat' first
    | exact sub_ hm (by decide)
    | with_reducible assumption
    | with_reducible apply onI3c_keeps
    | with_reducible apply freeBytes_keeps
    | with_reducible apply updMgmt_keeps
    | with_reducible refine keeps_foldl ?_ ?_
    | with_reducible refine keeps_ite_left ?_ ?_
    | intro _

end Sys2Proof.Machine
end

