-- ==== Sys2Proof/Laws/KeepsRegisters.lean ====
section
/-! SUPPORT. What each operation of Machine/Registers.lean keeps. -/

set_option Elab.async false

namespace Sys2Proof.Machine

variable {m : List Fld} {s u : State}

theorem execCsrRead_keeps (a1 : CsrReq) (h : Keeps m s u) (hm : [.time, .alert, .acc, .cmd, .mbx, .talloc, .units, .locks, .keep, .cmds, .belfry, .bytes, .cistern, .parts, .spires, .tallies, .tallyQ, .ports, .caravan, .records, .early, .near, .thermal, .erg, .mtr, .trc, .mgmt, .csr] ⊆ m := by exact sub_ (by assumption) (by decide)) : ∃ t, execCsrRead a1 u = .next t ∧ Keeps m s t := by
  refine ⟨_, rfl, ?_⟩
  repeat' first
    | exact sub_ hm (by decide)
    | with_reducible assumption
    | with_reducible apply request_keeps

theorem execRegisterWrite_keeps (a1 : CsrReq) (h : Keeps m s u) (hm : [.time, .alert, .acc, .cmd, .mbx, .talloc, .units, .locks, .keep, .cmds, .belfry, .bytes, .cistern, .parts, .spires, .tallies, .tallyQ, .ports, .caravan, .records, .early, .near, .thermal, .erg, .mtr, .trc, .mgmt, .csr] ⊆ m := by exact sub_ (by assumption) (by decide)) : ∃ t, execRegisterWrite a1 u = .next t ∧ Keeps m s t := by
  refine ⟨_, rfl, ?_⟩
  repeat' first
    | exact sub_ hm (by decide)
    | with_reducible assumption
    | with_reducible apply request_keeps

theorem execAliasWrite_keeps (a1 : CsrReq) (h : Keeps m s u) (hm : [.time, .alert, .acc, .cmd, .mbx, .talloc, .units, .locks, .keep, .cmds, .belfry, .bytes, .cistern, .parts, .spires, .tallies, .tallyQ, .ports, .caravan, .records, .early, .near, .thermal, .erg, .mtr, .trc, .mgmt, .csr] ⊆ m := by exact sub_ (by assumption) (by decide)) : ∃ t, execAliasWrite a1 u = .next t ∧ Keeps m s t := by
  refine ⟨_, rfl, ?_⟩
  repeat' first
    | exact sub_ hm (by decide)
    | with_reducible assumption
    | with_reducible apply request_keeps
    | with_reducible refine keeps_foldl ?_ ?_
    | with_reducible refine keeps_ite_left ?_ ?_
    | intro _

theorem execKeepLockWrite_keeps (a1 : CsrReq) (h : Keeps m s u) (hm : [.time, .alert, .acc, .cmd, .mbx, .talloc, .units, .locks, .keep, .cmds, .belfry, .bytes, .cistern, .parts, .spires, .tallies, .tallyQ, .ports, .caravan, .records, .early, .near, .thermal, .erg, .mtr, .trc, .mgmt, .csr] ⊆ m := by exact sub_ (by assumption) (by decide)) : ∃ t, execKeepLockWrite a1 u = .next t ∧ Keeps m s t := by
  refine ⟨_, rfl, ?_⟩
  repeat' first
    | exact sub_ hm (by decide)
    | with_reducible assumption
    | with_reducible apply request_keeps

theorem execKeepHosttagWrite_keeps (a1 : CsrReq) (h : Keeps m s u) (hm : [.time, .alert, .acc, .cmd, .mbx, .talloc, .units, .locks, .keep, .cmds, .belfry, .bytes, .cistern, .parts, .spires, .tallies, .tallyQ, .ports, .caravan, .records, .early, .near, .thermal, .erg, .mtr, .trc, .mgmt, .csr] ⊆ m := by exact sub_ (by assumption) (by decide)) : ∃ t, execKeepHosttagWrite a1 u = .next t ∧ Keeps m s t := by
  refine ⟨_, rfl, ?_⟩
  repeat' first
    | exact sub_ hm (by decide)
    | with_reducible assumption
    | with_reducible apply request_keeps

theorem execKeepUnitEnWrite_keeps (a1 : CsrReq) (h : Keeps m s u) (hm : [.time, .alert, .acc, .cmd, .mbx, .talloc, .units, .locks, .keep, .cmds, .belfry, .bytes, .cistern, .parts, .spires, .tallies, .tallyQ, .ports, .caravan, .records, .early, .near, .thermal, .erg, .mtr, .trc, .mgmt, .csr] ⊆ m := by exact sub_ (by assumption) (by decide)) : ∃ t, execKeepUnitEnWrite a1 u = .next t ∧ Keeps m s t := by
  refine ⟨_, rfl, ?_⟩
  repeat' first
    | exact sub_ hm (by decide)
    | with_reducible assumption
    | with_reducible apply request_keeps

theorem execMbxSelWrite_keeps (a1 : Requester) (a2 : BitVec 24) (h : Keeps m s u) (hm : [.time, .alert, .acc, .cmd, .mbx, .talloc, .units, .locks, .keep, .cmds, .belfry, .bytes, .cistern, .parts, .spires, .tallies, .tallyQ, .ports, .caravan, .records, .early, .near, .thermal, .erg, .mtr, .trc, .mgmt, .csr] ⊆ m := by exact sub_ (by assumption) (by decide)) : ∃ t, execMbxSelWrite a1 a2 u = .next t ∧ Keeps m s t := by
  refine ⟨_, rfl, ?_⟩
  repeat' first
    | exact sub_ hm (by decide)
    | with_reducible assumption
    | with_reducible apply namedWrite_keeps

theorem execMbxLatchDone_keeps (a1 : Requester) (h : Keeps m s u) (hm : [.alert, .acc, .mbx, .cistern, .parts, .spires, .records, .early, .near] ⊆ m := by exact sub_ (by assumption) (by decide)) : ∃ t, execMbxLatchDone a1 u = .next t ∧ Keeps m s t := by
  refine ⟨_, rfl, ?_⟩
  repeat' first
    | exact sub_ hm (by decide)
    | with_reducible assumption
    | with_reducible apply mbxLatch_keeps

theorem tallyWrite_keeps (a1 : Requester) (a2 a3 : Nat) (a4 : W32) (h : Keeps m s u) (hm : [.time, .alert, .acc, .cmd, .mbx, .talloc, .units, .locks, .keep, .cmds, .belfry, .bytes, .cistern, .parts, .spires, .tallies, .tallyQ, .ports, .caravan, .records, .early, .near, .thermal, .erg, .mtr, .trc, .mgmt, .csr] ⊆ m := by exact sub_ (by assumption) (by decide)) : Keeps m s (tallyWrite u a1 a2 a3 a4) := by
  unfold tallyWrite
  repeat' first
    | exact sub_ hm (by decide)
    | with_reducible assumption
    | with_reducible apply namedWrite_keeps
    | with_reducible refine keeps_foldl ?_ ?_
    | with_reducible refine keeps_ite_left ?_ ?_
    | intro _

theorem execTallyAlloc_keeps (a1 : Requester) (h : Keeps m s u) (hm : [.time, .alert, .acc, .cmd, .mbx, .talloc, .units, .locks, .keep, .cmds, .belfry, .bytes, .cistern, .parts, .spires, .tallies, .tallyQ, .ports, .caravan, .records, .early, .near, .thermal, .erg, .mtr, .trc, .mgmt, .csr] ⊆ m := by exact sub_ (by assumption) (by decide)) : ∃ t, execTallyAlloc a1 u = .next t ∧ Keeps m s t := by
  refine ⟨_, rfl, ?_⟩
  repeat' first
    | exact sub_ hm (by decide)
    | with_reducible assumption
    | with_reducible apply namedWrite_keeps

theorem execAdd_keeps (a1 : Requester) (a2 : Nat) (a3 : W16) (h : Keeps m s u) (hm : [.time, .alert, .acc, .cmd, .mbx, .talloc, .units, .locks, .keep, .cmds, .belfry, .bytes, .cistern, .parts, .spires, .tallies, .tallyQ, .ports, .caravan, .records, .early, .near, .thermal, .erg, .mtr, .trc, .mgmt, .csr] ⊆ m := by exact sub_ (by assumption) (by decide)) : ∃ t, execAdd a1 a2 a3 u = .next t ∧ Keeps m s t := by
  refine ⟨_, rfl, ?_⟩
  repeat' first
    | exact sub_ hm (by decide)
    | with_reducible assumption
    | with_reducible apply tallyWrite_keeps

theorem execWait_keeps (a1 : Requester) (a2 : Nat) (a3 : W16) (h : Keeps m s u) (hm : [.time, .alert, .acc, .cmd, .mbx, .talloc, .units, .locks, .keep, .cmds, .belfry, .bytes, .cistern, .parts, .spires, .tallies, .tallyQ, .ports, .caravan, .records, .early, .near, .thermal, .erg, .mtr, .trc, .mgmt, .csr] ⊆ m := by exact sub_ (by assumption) (by decide)) : ∃ t, execWait a1 a2 a3 u = .next t ∧ Keeps m s t := by
  refine ⟨_, rfl, ?_⟩
  repeat' first
    | exact sub_ hm (by decide)
    | with_reducible assumption
    | with_reducible apply tallyWrite_keeps

theorem execUnwait_keeps (a1 : Requester) (a2 : Nat) (a3 : W16) (h : Keeps m s u) (hm : [.time, .alert, .acc, .cmd, .mbx, .talloc, .units, .locks, .keep, .cmds, .belfry, .bytes, .cistern, .parts, .spires, .tallies, .tallyQ, .ports, .caravan, .records, .early, .near, .thermal, .erg, .mtr, .trc, .mgmt, .csr] ⊆ m := by exact sub_ (by assumption) (by decide)) : ∃ t, execUnwait a1 a2 a3 u = .next t ∧ Keeps m s t := by
  refine ⟨_, rfl, ?_⟩
  repeat' first
    | exact sub_ hm (by decide)
    | with_reducible assumption
    | with_reducible apply tallyWrite_keeps

theorem execFree_keeps (a1 : Requester) (a2 : Nat) (a3 : W16) (h : Keeps m s u) (hm : [.time, .alert, .acc, .cmd, .mbx, .talloc, .units, .locks, .keep, .cmds, .belfry, .bytes, .cistern, .parts, .spires, .tallies, .tallyQ, .ports, .caravan, .records, .early, .near, .thermal, .erg, .mtr, .trc, .mgmt, .csr] ⊆ m := by exact sub_ (by assumption) (by decide)) : ∃ t, execFree a1 a2 a3 u = .next t ∧ Keeps m s t := by
  refine ⟨_, rfl, ?_⟩
  repeat' first
    | exact sub_ hm (by decide)
    | with_reducible assumption
    | with_reducible apply tallyWrite_keeps

theorem execTalTargetWrite_keeps (a1 : Requester) (a2 : Nat) (a3 : W32) (h : Keeps m s u) (hm : [.time, .alert, .acc, .cmd, .mbx, .talloc, .units, .locks, .keep, .cmds, .belfry, .bytes, .cistern, .parts, .spires, .tallies, .tallyQ, .ports, .caravan, .records, .early, .near, .thermal, .erg, .mtr, .trc, .mgmt, .csr] ⊆ m := by exact sub_ (by assumption) (by decide)) : ∃ t, execTalTargetWrite a1 a2 a3 u = .next t ∧ Keeps m s t := by
  refine ⟨_, rfl, ?_⟩
  repeat' first
    | exact sub_ hm (by decide)
    | with_reducible assumption
    | with_reducible apply tallyWrite_keeps

theorem execWallClockSet_keeps (a1 : Requester) (h : Keeps m s u) (hm : [.time, .alert, .acc, .cmd, .mbx, .talloc, .units, .locks, .keep, .cmds, .belfry, .bytes, .cistern, .parts, .spires, .tallies, .tallyQ, .ports, .caravan, .records, .early, .near, .thermal, .erg, .mtr, .trc, .mgmt, .csr] ⊆ m := by exact sub_ (by assumption) (by decide)) : ∃ t, execWallClockSet a1 u = .next t ∧ Keeps m s t := by
  refine ⟨_, rfl, ?_⟩
  repeat' first
    | exact sub_ hm (by decide)
    | with_reducible assumption
    | with_reducible apply namedWrite_keeps

theorem execErgClear_keeps (a1 : Requester) (h : Keeps m s u) (hm : [.time, .alert, .acc, .cmd, .mbx, .talloc, .units, .locks, .keep, .cmds, .belfry, .bytes, .cistern, .parts, .spires, .tallies, .tallyQ, .ports, .caravan, .records, .early, .near, .thermal, .erg, .mtr, .trc, .mgmt, .csr] ⊆ m := by exact sub_ (by assumption) (by decide)) : ∃ t, execErgClear a1 u = .next t ∧ Keeps m s t := by
  refine ⟨_, rfl, ?_⟩
  repeat' first
    | exact sub_ hm (by decide)
    | with_reducible assumption
    | with_reducible apply namedWrite_keeps

theorem execDumpCommand_keeps (a1 : Requester) (a2 : W32) (h : Keeps m s u) (hm : [.time, .alert, .acc, .cmd, .mbx, .talloc, .units, .locks, .keep, .cmds, .belfry, .bytes, .cistern, .parts, .spires, .tallies, .tallyQ, .ports, .caravan, .records, .early, .near, .thermal, .erg, .mtr, .trc, .mgmt, .csr] ⊆ m := by exact sub_ (by assumption) (by decide)) : ∃ t, execDumpCommand a1 a2 u = .next t ∧ Keeps m s t := by
  refine ⟨_, rfl, ?_⟩
  repeat' first
    | exact sub_ hm (by decide)
    | with_reducible assumption
    | with_reducible apply namedWrite_keeps

theorem execFill_keeps (a1 : Option Requester) (a2 : Nat) (h : Keeps m s u) (hm : [.time, .alert, .acc, .cmd, .mbx, .talloc, .units, .locks, .keep, .cmds, .belfry, .bytes, .cistern, .parts, .spires, .tallies, .tallyQ, .ports, .caravan, .records, .early, .near, .thermal, .erg, .mtr, .trc, .mgmt, .csr] ⊆ m := by exact sub_ (by assumption) (by decide)) : ∃ t, execFill a1 a2 u = .next t ∧ Keeps m s t := by
  refine ⟨_, rfl, ?_⟩
  repeat' first
    | exact sub_ hm (by decide)
    | with_reducible assumption
    | with_reducible apply namedWrite_keeps
    | with_reducible apply bankFill_keeps
    | with_reducible refine keeps_foldl ?_ ?_
    | with_reducible refine keeps_ite_left ?_ ?_
    | intro _
    | split

theorem sdtBankDone_keeps (a1 : Nat) (h : Keeps m s u) (hm : [.thermal] ⊆ m := by exact sub_ (by assumption) (by decide)) : Keeps m s (sdtBankDone u a1) := by
  unfold sdtBankDone
  repeat' first
    | exact sub_ hm (by decide)
    | with_reducible assumption
    | with_reducible refine keeps_foldl ?_ ?_
    | with_reducible refine keeps_ite_left ?_ ?_
    | intro _
    | split
    | with_reducible refine keeps_mk ?_ rfl

theorem execBankTest_keeps (a1 : Option Requester) (a2 : Nat) (a3 : Option Nat) (h : Keeps m s u) (hm : [.time, .alert, .acc, .cmd, .mbx, .talloc, .units, .locks, .keep, .cmds, .belfry, .bytes, .cistern, .parts, .spires, .tallies, .tallyQ, .ports, .caravan, .records, .early, .near, .thermal, .erg, .mtr, .trc, .mgmt, .csr] ⊆ m := by exact sub_ (by assumption) (by decide)) : ∃ t, execBankTest a1 a2 a3 u = .next t ∧ Keeps m s t := by
  refine ⟨_, rfl, ?_⟩
  repeat' first
    | exact sub_ hm (by decide)
    | with_reducible assumption
    | with_reducible apply namedWrite_keeps
    | with_reducible apply bankTestRun_keeps
    | with_reducible apply sdtBankDone_keeps
    | with_reducible refine keeps_foldl ?_ ?_
    | with_reducible refine keeps_ite_left ?_ ?_
    | intro _
    | split

theorem execTest_keeps (a1 : Requester) (a2 : W32) (h : Keeps m s u) (hm : [.time, .alert, .acc, .cmd, .mbx, .talloc, .units, .locks, .keep, .cmds, .belfry, .bytes, .cistern, .parts, .spires, .tallies, .tallyQ, .ports, .caravan, .records, .early, .near, .thermal, .erg, .mtr, .trc, .mgmt, .csr] ⊆ m := by exact sub_ (by assumption) (by decide)) : ∃ t, execTest a1 a2 u = .next t ∧ Keeps m s t := by
  refine ⟨_, rfl, ?_⟩
  repeat' first
    | exact sub_ hm (by decide)
    | with_reducible assumption
    | with_reducible apply namedWrite_keeps

theorem execRelease_keeps (a1 : Requester) (a2 : W32) (h : Keeps m s u) (hm : [.time, .alert, .acc, .cmd, .mbx, .talloc, .units, .locks, .keep, .cmds, .belfry, .bytes, .cistern, .parts, .spires, .tallies, .tallyQ, .ports, .caravan, .records, .early, .near, .thermal, .erg, .mtr, .trc, .mgmt, .csr] ⊆ m := by exact sub_ (by assumption) (by decide)) : ∃ t, execRelease a1 a2 u = .next t ∧ Keeps m s t := by
  refine ⟨_, rfl, ?_⟩
  repeat' first
    | exact sub_ hm (by decide)
    | with_reducible assumption
    | with_reducible apply namedWrite_keeps

theorem execShutdown_keeps (a1 : Requester) (a2 : W32) (h : Keeps m s u) (hm : [.time, .alert, .acc, .cmd, .mbx, .talloc, .units, .locks, .keep, .cmds, .belfry, .bytes, .cistern, .parts, .spires, .tallies, .tallyQ, .ports, .caravan, .records, .early, .near, .thermal, .erg, .mtr, .trc, .mgmt, .csr] ⊆ m := by exact sub_ (by assumption) (by decide)) : ∃ t, execShutdown a1 a2 u = .next t ∧ Keeps m s t := by
  refine ⟨_, rfl, ?_⟩
  repeat' first
    | exact sub_ hm (by decide)
    | with_reducible assumption
    | with_reducible apply namedWrite_keeps

theorem execRepairClear_keeps (a1 : Requester) (a2 : W32) (h : Keeps m s u) (hm : [.time, .alert, .acc, .cmd, .mbx, .talloc, .units, .locks, .keep, .cmds, .belfry, .bytes, .cistern, .parts, .spires, .tallies, .tallyQ, .ports, .caravan, .records, .early, .near, .thermal, .erg, .mtr, .trc, .mgmt, .csr] ⊆ m := by exact sub_ (by assumption) (by decide)) : ∃ t, execRepairClear a1 a2 u = .next t ∧ Keeps m s t := by
  refine ⟨_, rfl, ?_⟩
  repeat' first
    | exact sub_ hm (by decide)
    | with_reducible assumption
    | with_reducible apply namedWrite_keeps

theorem enterSafe_keeps (a1 : Nat) (h : Keeps m s u) (hm : [.units, .thermal] ⊆ m := by exact sub_ (by assumption) (by decide)) : Keeps m s (enterSafe u a1) := by
  unfold enterSafe
  repeat' first
    | exact sub_ hm (by decide)
    | with_reducible assumption
    | with_reducible apply driveLevel_keeps
    | with_reducible refine keeps_foldl ?_ ?_
    | with_reducible refine keeps_ite_left ?_ ?_
    | intro _
    | split
    | with_reducible refine keeps_mk ?_ rfl

theorem holdUnit_keeps (n : Nat) (a : AccessInfo) (h : Keeps m s u) (hm : [.alert, .acc, .cmd, .units, .fault, .belfryRun, .inputs, .cmds, .cistern, .nvm, .parts, .tiles, .spires, .domes, .ops, .tickets, .samples, .engines, .hang, .caravan, .records, .early, .near, .thermal, .mtr, .rng] ⊆ m := by exact sub_ (by assumption) (by decide)) : Keeps m s (holdUnit u n a) := by
  unfold holdUnit
  split
  · exact h
  · have h1 := accWrite_keeps a acHeld (keeps_keep (k := { u.keep with unitHeld := u.keep.unitHeld ++ [n] }) h
      ⟨rfl, rfl, rfl, id, id, id, fun _ hu => List.mem_append_left _ hu, id, fun _ => rfl, fun _ h => h, fun _ _ => rfl⟩)
      (sub_ hm (by decide))
    dsimp only
    split
    · exact dieFault_keeps _ (alert_keeps _ h1)
    · split
      · exact repairWanted_keeps _ _ (tileInput_keeps _ _ _ (alert_keeps _ h1))
      · exact alert_keeps _ h1

theorem parityOne_keeps (a1 : Nat × Nat) (h : Keeps m s u) (hm : [.time, .alert, .acc, .cmd, .mbx, .units, .fault, .keep, .belfryRun, .inputs, .cad, .cmds, .belfry, .cistern, .nvm, .parts, .tiles, .spires, .domes, .ops, .tickets, .samples, .engines, .hang, .ports, .seals, .launch, .caravan, .records, .early, .near, .thermal, .erg, .mtr, .big, .rng] ⊆ m := by exact sub_ (by assumption) (by decide)) : Keeps m s (parityOne u a1) := by
  unfold parityOne
  repeat' first
    | exact sub_ hm (by decide)
    | with_reducible assumption
    | with_reducible apply accEvent_keeps
    | with_reducible apply keepWarmReset_keeps
    | with_reducible apply enterSafe_keeps
    | with_reducible apply holdUnit_keeps
    | with_reducible refine keeps_foldl ?_ ?_
    | with_reducible refine keeps_ite_left ?_ ?_
    | intro _
    | split
    | with_reducible refine keeps_mk ?_ rfl

theorem execParitySweep_keeps (a1 : List (Nat × Nat)) (h : Keeps m s u) (hm : [.time, .alert, .acc, .cmd, .mbx, .units, .fault, .keep, .belfryRun, .inputs, .cad, .cmds, .belfry, .cistern, .nvm, .parts, .tiles, .spires, .domes, .ops, .tickets, .samples, .engines, .hang, .ports, .seals, .launch, .caravan, .records, .early, .near, .thermal, .erg, .mtr, .big, .rng] ⊆ m := by exact sub_ (by assumption) (by decide)) : ∃ t, execParitySweep a1 u = .next t ∧ Keeps m s t := by
  refine ⟨_, rfl, ?_⟩
  repeat' first
    | exact sub_ hm (by decide)
    | with_reducible assumption
    | with_reducible apply parityOne_keeps
    | with_reducible refine keeps_foldl ?_ ?_
    | intro _

theorem afterReload_keeps (a1 : Nat) (h : Keeps m s u) (hm : [.nvm, .parts, .near, .thermal, .mtr] ⊆ m := by exact sub_ (by assumption) (by decide)) : Keeps m s (afterReload u a1) := by
  unfold afterReload
  repeat' first
    | exact sub_ hm (by decide)
    | with_reducible assumption
    | with_reducible apply writeDeferred_keeps
    | with_reducible apply writeRepair_keeps
    | with_reducible apply driveLevel_keeps
    | with_reducible refine keeps_foldl ?_ ?_
    | with_reducible refine keeps_ite_left ?_ ?_
    | intro _

theorem execConfigReload_keeps (a1 : CfgLoad) (h : Keeps m s u) (hm : [.alert, .acc, .units, .keep, .cistern, .nvm, .parts, .records, .early, .near, .thermal, .mtr] ⊆ m := by exact sub_ (by assumption) (by decide)) : ∃ t, execConfigReload a1 u = .next t ∧ Keeps m s t := by
  refine ⟨_, rfl, ?_⟩
  repeat' first
    | exact sub_ hm (by decide)
    | with_reducible assumption
    | with_reducible apply accEvent_keeps
    | with_reducible apply afterReload_keeps
    | with_reducible refine keeps_foldl ?_ ?_
    | with_reducible refine keeps_ite_left ?_ ?_
    | intro _
    | split
    | with_reducible refine keeps_mk ?_ rfl

end Sys2Proof.Machine
end

