-- ==== Sys2Proof/Laws/KeepsRestart.lean ====
section
/-! SUPPORT. What each operation of Machine/Restart.lean keeps. -/

set_option Elab.async false

namespace Sys2Proof.Machine

variable {m : List Fld} {s u : State}

theorem restartPart_keeps (a1 : Nat) (h : Keeps m s u) (hm : [.alert, .cistern, .parts, .records, .early, .near] ⊆ m := by exact sub_ (by assumption) (by decide)) : Keeps m s (restartPart u a1) := by
  unfold restartPart
  repeat' first
    | exact sub_ hm (by decide)
    | with_reducible assumption
    | with_reducible apply addRec_keeps
    | with_reducible apply updPart_keeps
    | with_reducible apply refuseSeal_keeps
    | with_reducible apply startRollback_keeps
    | with_reducible apply post_keeps
    | with_reducible refine keeps_foldl ?_ ?_
    | with_reducible refine keeps_ite_left ?_ ?_
    | intro _
    | split
    | with_reducible refine keeps_mk ?_ rfl

theorem checkCode_keeps (h : Keeps m s u) (hm : [.bytes, .cistern] ⊆ m := by exact sub_ (by assumption) (by decide)) : Keeps m s (checkCode u) := by
  unfold checkCode
  repeat' first
    | exact sub_ hm (by decide)
    | with_reducible assumption
    | (with_reducible apply updCis_keeps <;> try first | with_reducible rfl | simp only [length_updAt, List.length_map, List.length_zipIdx])
    | with_reducible apply copyBank_keeps
    | with_reducible refine keeps_foldl ?_ ?_
    | with_reducible refine keeps_ite_left ?_ ?_
    | intro _
    | split

theorem endLost_keeps (h : Keeps m s u) (hm : [.alert, .keep, .inputs, .cistern, .parts, .tiles, .ops, .tickets, .samples, .engines, .records, .early, .near, .rng] ⊆ m := by exact sub_ (by assumption) (by decide)) : Keeps m s (endLost u) := by
  unfold endLost
  repeat' first
    | exact sub_ hm (by decide)
    | with_reducible assumption
    | with_reducible apply endSample_keeps
    | with_reducible refine keeps_foldl ?_ ?_
    | with_reducible refine keeps_ite_left ?_ ?_
    | intro _
    | split
    | with_reducible refine keeps_mk ?_ rfl

theorem restartState_keeps (nr : MemPort) (dl : List Nat) (h : Keeps m s u)
    (hm : [.seals, .near, .bytes, .keep] ⊆ m := by exact sub_ (by assumption) (by decide)) : Keeps m s { u with
    seals := [], near := nr
    cistern := { u.cistern with data := keepFirmware u.cistern.data, check := keepFirmware u.cistern.check }
    keep := { u.keep with kwrDown := false, draining := false, drainLost := dl, readback := [] } } :=
  h.trans
    { same := by
        intro f hf
        cases f <;> first
          | rfl
          | exact (Fld.out hm hf (by decide)).elim
      pending := rfl
      sized := fun z => ⟨z.parts, z.engines, z.ports, z.banks, z.mbx, z.talloc, z.cmd⟩
      cistern := fun z => ⟨memory_wf_filter _ z.data, memory_wf_filter _ z.check⟩
      keep := ⟨rfl, rfl, rfl, id, id, id, fun _ h => h, id, fun _ => rfl, fun _ h => h, fun _ _ => rfl⟩
      latch := id
      stopped := fun _ hr => hr
      failed := fun a b => ⟨a, b⟩
      image := fun _ => rfl
      fuses := ⟨id, FuseGrows.rfl_ _⟩
      tiles := fun _ _ => stays_refl _
      opSeq := Nat.le_refl _
      rng := Nat.le_refl _ }

theorem belfryRun_keeps (b : Bool) (h : Keeps m s u) (hd : s.keep.dieFault = true → False)
    (hm : [.belfryRun] ⊆ m := by exact sub_ (by assumption) (by decide)) :
    Keeps m s { u with belfry := { u.belfry with run := b } } where
  same := h.same.trans (by
    intro f hf
    cases f <;> first
      | rfl
      | exact (Fld.out hm hf (by decide)).elim)
  pending := h.pending
  sized z := ⟨(h.sized z).parts, (h.sized z).engines, (h.sized z).ports, (h.sized z).banks, (h.sized z).mbx, (h.sized z).talloc,
    (h.sized z).cmd⟩
  cistern z := ⟨(h.cistern z).data, (h.cistern z).check⟩
  keep := h.keep
  latch := h.latch
  stopped := fun hs _ => (hd hs).elim
  failed := h.failed
  image := h.image
  fuses := h.fuses
  tiles := h.tiles
  opSeq := h.opSeq
  rng := h.rng

theorem execKeepRestart_keeps (h : Keeps m s u)
    (hm : [.alert, .keep, .belfryRun, .inputs, .bytes, .cistern, .parts, .tiles, .ops, .tickets, .samples, .engines, .seals, .records, .early, .near, .rng] ⊆ m := by
      exact sub_ (by assumption) (by decide)) : ∃ t, execKeepRestart u = .next t ∧ Keeps m s t := by
  refine ⟨_, rfl, ?_⟩
  split
  · exact h
  · next hc =>
    have h2 := endLost_keeps
      (keeps_foldl (l := List.range Config.parts) (f := restartPart) (fun v a hv => restartPart_keeps _ hv) (checkCode_keeps h))
      (sub_ hm (by decide))
    refine belfryRun_keeps _ (postAll_keeps _ _ (keeps_foldl (fun v a hv => updCnt_keeps _ _ hv) (restartState_keeps _ _ h2))) ?_
    intro hs
    exact hc (.inr (.inl (h.keep.dieFault hs)))

end Sys2Proof.Machine
end

