-- ==== Sys2Proof/Laws/KeepsStep.lean ====
section
/-! SUPPORT. What an idle step keeps. -/

set_option Elab.async false

namespace Sys2Proof.Machine

variable {m : List Fld} {s u : State}

theorem idle_keeps (h : Keeps m s u) (hm : [.tick, .parts, .near, .far, .rng] ⊆ m := by exact sub_ (by assumption) (by decide)) : Keeps m s (idle u) := by
  unfold idle
  repeat' first
    | exact sub_ hm (by decide)
    | with_reducible assumption
    | with_reducible apply portIssue_keeps
    | with_reducible apply countTick_keeps

end Sys2Proof.Machine
end

