-- ==== Sys2Proof/Laws/State.lean ====
section
/-! SUPPORT. What each update of one part of the state leaves and gives, part by part, and what a lookup finds after it. -/

set_option Elab.async false

namespace Sys2Proof.Machine

variable (s : State)

/-! ### An index of a list updated in place -/

theorem updAt_getD_self {α : Type} (l : List α) (i : Nat) (f : α → α) (d : α) (h : i < l.length) :
    (updAt l i f).getD i d = f (l.getD i d) := by
  simp [updAt, List.getD_eq_getElem?_getD, h]

theorem updAt_getD_ne {α : Type} (l : List α) {i j : Nat} (f : α → α) (d : α) (h : j ≠ i) :
    (updAt l i f).getD j d = l.getD j d := by
  simp [updAt, List.getD_eq_getElem?_getD, Ne.symm h]

/-! ### A list of records with a key, updated at one key -/

theorem find_map_key {α : Type} (l : List α) (k : α → Nat) (i j : Nat) (f : α → α) (hf : ∀ x, k (f x) = k x) :
    (l.map fun x => if k x = i then f x else x).find? (fun x => k x == j) =
      (l.find? fun x => k x == j).map fun x => if k x = i then f x else x := by
  induction l with
  | nil => rfl
  | cons x l ih =>
    have hk : k (if k x = i then f x else x) = k x := by
      split
      · exact hf x
      · rfl
    by_cases h : k x = j
    · rw [List.map_cons, List.find?_cons_of_pos (by simpa [hk] using hk.trans h), List.find?_cons_of_pos (by simp [h])]
      rfl
    · rw [List.map_cons, List.find?_cons_of_neg (by simpa using fun e => h (hk.symm.trans e)), List.find?_cons_of_neg (by simp [h]), ih]

theorem find_key_eq {α : Type} {l : List α} {k : α → Nat} {j : Nat} {x : α} (h : l.find? (fun x => k x == j) = some x) : k x = j := by
  simpa using List.find?_some h

/-! ### What a lookup finds after an update -/

theorem getSp_ix {s : State} {i : Nat} {x : Spire} (h : getSp s i = some x) : x.ix = i := find_key_eq (k := Spire.ix) h

theorem getSp_updSp (i : Nat) (f : Spire → Spire) (hf : ∀ x, (f x).ix = x.ix) : getSp (updSp s i f) i = (getSp s i).map f := by
  refine (find_map_key s.spires Spire.ix i i f hf).trans ?_
  cases e : getSp s i with
  | none => simp only [getSp] at e; rw [e]; rfl
  | some x =>
    have := getSp_ix e
    simp only [getSp] at e
    rw [e]
    simp [this]

theorem getSp_updSp_ne {i j : Nat} (f : Spire → Spire) (hf : ∀ x, (f x).ix = x.ix) (h : j ≠ i) : getSp (updSp s i f) j = getSp s j := by
  refine (find_map_key s.spires Spire.ix i j f hf).trans ?_
  change (getSp s j).map _ = _
  cases e : getSp s j with
  | none => rfl
  | some x => simp [getSp_ix e, h]

theorem getTile_ix {s : State} {i : Nat} {x : Tile} (h : getTile s i = some x) : x.ix = i := find_key_eq (k := Tile.ix) h

theorem getTile_updTile (i : Nat) (f : Tile → Tile) (hf : ∀ x, (f x).ix = x.ix) : getTile (updTile s i f) i = (getTile s i).map f := by
  refine (find_map_key s.tiles Tile.ix i i f hf).trans ?_
  cases e : getTile s i with
  | none => simp only [getTile] at e; rw [e]; rfl
  | some x =>
    have := getTile_ix e
    simp only [getTile] at e
    rw [e]
    simp [this]

theorem getTile_updTile_ne {i j : Nat} (f : Tile → Tile) (hf : ∀ x, (f x).ix = x.ix) (h : j ≠ i) : getTile (updTile s i f) j = getTile s j := by
  refine (find_map_key s.tiles Tile.ix i j f hf).trans ?_
  change (getTile s j).map _ = _
  cases e : getTile s j with
  | none => rfl
  | some x => simp [getTile_ix e, h]

theorem getDome_ix {s : State} {i : Nat} {x : Dome} (h : getDome s i = some x) : x.ix = i := find_key_eq (k := Dome.ix) h

theorem getDome_updDome (i : Nat) (f : Dome → Dome) (hf : ∀ x, (f x).ix = x.ix) : getDome (updDome s i f) i = (getDome s i).map f := by
  refine (find_map_key s.domes Dome.ix i i f hf).trans ?_
  cases e : getDome s i with
  | none => simp only [getDome] at e; rw [e]; rfl
  | some x =>
    have := getDome_ix e
    simp only [getDome] at e
    rw [e]
    simp [this]

theorem getDome_updDome_ne {i j : Nat} (f : Dome → Dome) (hf : ∀ x, (f x).ix = x.ix) (h : j ≠ i) : getDome (updDome s i f) j = getDome s j := by
  refine (find_map_key s.domes Dome.ix i j f hf).trans ?_
  change (getDome s j).map _ = _
  cases e : getDome s j with
  | none => rfl
  | some x => simp [getDome_ix e, h]

theorem getOp_uid {s : State} {i : Nat} {x : OpV} (h : getOp s i = some x) : x.uid = i := find_key_eq (k := OpV.uid) h

theorem getOp_updOp (i : Nat) (f : OpV → OpV) (hf : ∀ x, (f x).uid = x.uid) : getOp (updOp s i f) i = (getOp s i).map f := by
  refine (find_map_key s.ops OpV.uid i i f hf).trans ?_
  cases e : getOp s i with
  | none => simp only [getOp] at e; rw [e]; rfl
  | some x =>
    have := getOp_uid e
    simp only [getOp] at e
    rw [e]
    simp [this]

theorem getOp_updOp_ne {i j : Nat} (f : OpV → OpV) (hf : ∀ x, (f x).uid = x.uid) (h : j ≠ i) : getOp (updOp s i f) j = getOp s j := by
  refine (find_map_key s.ops OpV.uid i j f hf).trans ?_
  change (getOp s j).map _ = _
  cases e : getOp s j with
  | none => rfl
  | some x => simp [getOp_uid e, h]

theorem getPart_updPart (p : Nat) (f : Part → Part) (h : p < s.parts.length) : getPart (updPart s p f) p = f (getPart s p) :=
  updAt_getD_self _ _ _ _ h

theorem getPart_updPart_ne {i j : Nat} (f : Part → Part) (h : j ≠ i) : getPart (updPart s i f) j = getPart s j := updAt_getD_ne _ _ _ h

theorem getEng_updEng (e : Nat) (f : Engine → Engine) (h : e < s.engines.length) : getEng (updEng s e f) e = f (getEng s e) :=
  updAt_getD_self _ _ _ _ h

theorem getEng_updEng_ne {i j : Nat} (f : Engine → Engine) (h : j ≠ i) : getEng (updEng s i f) j = getEng s j := updAt_getD_ne _ _ _ h

theorem getPort_updPort (q : Nat) (f : Port → Port) (h : q < s.ports.length) : getPort (updPort s q f) q = f (getPort s q) :=
  updAt_getD_self _ _ _ _ h

theorem getPort_updPort_ne {i j : Nat} (f : Port → Port) (h : j ≠ i) : getPort (updPort s i f) j = getPort s j := updAt_getD_ne _ _ _ h

theorem getCmd_updCmd (i : Nat) (f : CmdInst → CmdInst) (h : i < s.keep.cmd.length) : getCmd (updCmd s i f) i = f (getCmd s i) := updAt_getD_self _ _ _ _ h

theorem getCmd_updCmd_ne {i j : Nat} (f : CmdInst → CmdInst) (h : j ≠ i) : getCmd (updCmd s i f) j = getCmd s j := updAt_getD_ne _ _ _ h

theorem getMbx_updMbx (i : Nat) (f : Mbx → Mbx) (h : i < s.keep.mbx.length) : getMbx (updMbx s i f) i = f (getMbx s i) := updAt_getD_self _ _ _ _ h

theorem getMbx_updMbx_ne {i j : Nat} (f : Mbx → Mbx) (h : j ≠ i) : getMbx (updMbx s i f) j = getMbx s j := updAt_getD_ne _ _ _ h

theorem getTally_putTally (i : Nat) (x : Tally) : getTally (putTally s i x) i = x := by
  have h : (s.tallies.filter fun y => y.1 != i).find? (fun y => y.1 == i) = none := by
    rw [List.find?_eq_none]
    intro y hy
    simpa using (List.mem_filter.1 hy).2
  simp [getTally, putTally, List.find?_append, h]

theorem getTally_putTally_ne {i j : Nat} (x : Tally) (h : j ≠ i) : getTally (putTally s i x) j = getTally s j := by
  have e : (s.tallies.filter fun y => y.1 != i).find? (fun y => y.1 == j) = s.tallies.find? fun y => y.1 == j := by
    rw [List.find?_filter]
    congr 1
    funext y
    by_cases hy : y.1 = j <;> simp [hy, h]
  simp [getTally, putTally, List.find?_append, e, Ne.symm h]

/-! ### Part by part -/

@[simp] theorem updSp_time (i : Nat) (f : Spire → Spire) : (updSp s i f).time = s.time := rfl
@[simp] theorem updSp_keep (i : Nat) (f : Spire → Spire) : (updSp s i f).keep = s.keep := rfl
@[simp] theorem updSp_belfry (i : Nat) (f : Spire → Spire) : (updSp s i f).belfry = s.belfry := rfl
@[simp] theorem updSp_fuses (i : Nat) (f : Spire → Spire) : (updSp s i f).fuses = s.fuses := rfl
@[simp] theorem updSp_built (i : Nat) (f : Spire → Spire) : (updSp s i f).built = s.built := rfl
@[simp] theorem updSp_boot (i : Nat) (f : Spire → Spire) : (updSp s i f).boot = s.boot := rfl
@[simp] theorem updSp_pads (i : Nat) (f : Spire → Spire) : (updSp s i f).pads = s.pads := rfl
@[simp] theorem updSp_image (i : Nat) (f : Spire → Spire) : (updSp s i f).image = s.image := rfl
@[simp] theorem updSp_imageHash (i : Nat) (f : Spire → Spire) : (updSp s i f).imageHash = s.imageHash := rfl
@[simp] theorem updSp_imageSeq (i : Nat) (f : Spire → Spire) : (updSp s i f).imageSeq = s.imageSeq := rfl
@[simp] theorem updSp_imageBuild (i : Nat) (f : Spire → Spire) : (updSp s i f).imageBuild = s.imageBuild := rfl
@[simp] theorem updSp_imageFlags (i : Nat) (f : Spire → Spire) : (updSp s i f).imageFlags = s.imageFlags := rfl
@[simp] theorem updSp_imageKey (i : Nat) (f : Spire → Spire) : (updSp s i f).imageKey = s.imageKey := rfl
@[simp] theorem updSp_imageSvn (i : Nat) (f : Spire → Spire) : (updSp s i f).imageSvn = s.imageSvn := rfl
@[simp] theorem updSp_nvm (i : Nat) (f : Spire → Spire) : (updSp s i f).nvm = s.nvm := rfl
@[simp] theorem updSp_parts (i : Nat) (f : Spire → Spire) : (updSp s i f).parts = s.parts := rfl
@[simp] theorem updSp_tiles (i : Nat) (f : Spire → Spire) : (updSp s i f).tiles = s.tiles := rfl
@[simp] theorem updSp_spires (i : Nat) (f : Spire → Spire) : (updSp s i f).spires = (s.spires.map fun t => if t.ix = i then f t else t) := rfl
@[simp] theorem updSp_domes (i : Nat) (f : Spire → Spire) : (updSp s i f).domes = s.domes := rfl
@[simp] theorem updSp_ops (i : Nat) (f : Spire → Spire) : (updSp s i f).ops = s.ops := rfl
@[simp] theorem updSp_opSeq (i : Nat) (f : Spire → Spire) : (updSp s i f).opSeq = s.opSeq := rfl
@[simp] theorem updSp_tickets (i : Nat) (f : Spire → Spire) : (updSp s i f).tickets = s.tickets := rfl
@[simp] theorem updSp_samples (i : Nat) (f : Spire → Spire) : (updSp s i f).samples = s.samples := rfl
@[simp] theorem updSp_engines (i : Nat) (f : Spire → Spire) : (updSp s i f).engines = s.engines := rfl
@[simp] theorem updSp_streams (i : Nat) (f : Spire → Spire) : (updSp s i f).streams = s.streams := rfl
@[simp] theorem updSp_lastHdr (i : Nat) (f : Spire → Spire) : (updSp s i f).lastHdr = s.lastHdr := rfl
@[simp] theorem updSp_wkey (i : Nat) (f : Spire → Spire) : (updSp s i f).wkey = s.wkey := rfl
@[simp] theorem updSp_hang (i : Nat) (f : Spire → Spire) : (updSp s i f).hang = s.hang := rfl
@[simp] theorem updSp_tallies (i : Nat) (f : Spire → Spire) : (updSp s i f).tallies = s.tallies := rfl
@[simp] theorem updSp_tallyQ (i : Nat) (f : Spire → Spire) : (updSp s i f).tallyQ = s.tallyQ := rfl
@[simp] theorem updSp_ports (i : Nat) (f : Spire → Spire) : (updSp s i f).ports = s.ports := rfl
@[simp] theorem updSp_seals (i : Nat) (f : Spire → Spire) : (updSp s i f).seals = s.seals := rfl
@[simp] theorem updSp_sealMis (i : Nat) (f : Spire → Spire) : (updSp s i f).sealMis = s.sealMis := rfl
@[simp] theorem updSp_sealMatch (i : Nat) (f : Spire → Spire) : (updSp s i f).sealMatch = s.sealMatch := rfl
@[simp] theorem updSp_launch (i : Nat) (f : Spire → Spire) : (updSp s i f).launch = s.launch := rfl
@[simp] theorem updSp_attQ (i : Nat) (f : Spire → Spire) : (updSp s i f).attQ = s.attQ := rfl
@[simp] theorem updSp_peerRecs (i : Nat) (f : Spire → Spire) : (updSp s i f).peerRecs = s.peerRecs := rfl
@[simp] theorem updSp_peerTds (i : Nat) (f : Spire → Spire) : (updSp s i f).peerTds = s.peerTds := rfl
@[simp] theorem updSp_caravan (i : Nat) (f : Spire → Spire) : (updSp s i f).caravan = s.caravan := rfl
@[simp] theorem updSp_cistern (i : Nat) (f : Spire → Spire) : (updSp s i f).cistern = s.cistern := rfl
@[simp] theorem updSp_records (i : Nat) (f : Spire → Spire) : (updSp s i f).records = s.records := rfl
@[simp] theorem updSp_early (i : Nat) (f : Spire → Spire) : (updSp s i f).early = s.early := rfl
@[simp] theorem updSp_near (i : Nat) (f : Spire → Spire) : (updSp s i f).near = s.near := rfl
@[simp] theorem updSp_far (i : Nat) (f : Spire → Spire) : (updSp s i f).far = s.far := rfl
@[simp] theorem updSp_thermal (i : Nat) (f : Spire → Spire) : (updSp s i f).thermal = s.thermal := rfl
@[simp] theorem updSp_erg (i : Nat) (f : Spire → Spire) : (updSp s i f).erg = s.erg := rfl
@[simp] theorem updSp_mtr (i : Nat) (f : Spire → Spire) : (updSp s i f).mtr = s.mtr := rfl
@[simp] theorem updSp_trc (i : Nat) (f : Spire → Spire) : (updSp s i f).trc = s.trc := rfl
@[simp] theorem updSp_mgmt (i : Nat) (f : Spire → Spire) : (updSp s i f).mgmt = s.mgmt := rfl
@[simp] theorem updSp_csr (i : Nat) (f : Spire → Spire) : (updSp s i f).csr = s.csr := rfl
@[simp] theorem updSp_cadNack (i : Nat) (f : Spire → Spire) : (updSp s i f).cadNack = s.cadNack := rfl
@[simp] theorem updSp_portViols (i : Nat) (f : Spire → Spire) : (updSp s i f).portViols = s.portViols := rfl
@[simp] theorem updSp_big (i : Nat) (f : Spire → Spire) : (updSp s i f).big = s.big := rfl
@[simp] theorem updSp_rng (i : Nat) (f : Spire → Spire) : (updSp s i f).rng = s.rng := rfl
@[simp] theorem updSp_pending (i : Nat) (f : Spire → Spire) : (updSp s i f).pending = s.pending := rfl

@[simp] theorem updTile_time (i : Nat) (f : Tile → Tile) : (updTile s i f).time = s.time := rfl
@[simp] theorem updTile_keep (i : Nat) (f : Tile → Tile) : (updTile s i f).keep = s.keep := rfl
@[simp] theorem updTile_belfry (i : Nat) (f : Tile → Tile) : (updTile s i f).belfry = s.belfry := rfl
@[simp] theorem updTile_fuses (i : Nat) (f : Tile → Tile) : (updTile s i f).fuses = s.fuses := rfl
@[simp] theorem updTile_built (i : Nat) (f : Tile → Tile) : (updTile s i f).built = s.built := rfl
@[simp] theorem updTile_boot (i : Nat) (f : Tile → Tile) : (updTile s i f).boot = s.boot := rfl
@[simp] theorem updTile_pads (i : Nat) (f : Tile → Tile) : (updTile s i f).pads = s.pads := rfl
@[simp] theorem updTile_image (i : Nat) (f : Tile → Tile) : (updTile s i f).image = s.image := rfl
@[simp] theorem updTile_imageHash (i : Nat) (f : Tile → Tile) : (updTile s i f).imageHash = s.imageHash := rfl
@[simp] theorem updTile_imageSeq (i : Nat) (f : Tile → Tile) : (updTile s i f).imageSeq = s.imageSeq := rfl
@[simp] theorem updTile_imageBuild (i : Nat) (f : Tile → Tile) : (updTile s i f).imageBuild = s.imageBuild := rfl
@[simp] theorem updTile_imageFlags (i : Nat) (f : Tile → Tile) : (updTile s i f).imageFlags = s.imageFlags := rfl
@[simp] theorem updTile_imageKey (i : Nat) (f : Tile → Tile) : (updTile s i f).imageKey = s.imageKey := rfl
@[simp] theorem updTile_imageSvn (i : Nat) (f : Tile → Tile) : (updTile s i f).imageSvn = s.imageSvn := rfl
@[simp] theorem updTile_nvm (i : Nat) (f : Tile → Tile) : (updTile s i f).nvm = s.nvm := rfl
@[simp] theorem updTile_parts (i : Nat) (f : Tile → Tile) : (updTile s i f).parts = s.parts := rfl
@[simp] theorem updTile_tiles (i : Nat) (f : Tile → Tile) : (updTile s i f).tiles = (s.tiles.map fun t => if t.ix = i then f t else t) := rfl
@[simp] theorem updTile_spires (i : Nat) (f : Tile → Tile) : (updTile s i f).spires = s.spires := rfl
@[simp] theorem updTile_domes (i : Nat) (f : Tile → Tile) : (updTile s i f).domes = s.domes := rfl
@[simp] theorem updTile_ops (i : Nat) (f : Tile → Tile) : (updTile s i f).ops = s.ops := rfl
@[simp] theorem updTile_opSeq (i : Nat) (f : Tile → Tile) : (updTile s i f).opSeq = s.opSeq := rfl
@[simp] theorem updTile_tickets (i : Nat) (f : Tile → Tile) : (updTile s i f).tickets = s.tickets := rfl
@[simp] theorem updTile_samples (i : Nat) (f : Tile → Tile) : (updTile s i f).samples = s.samples := rfl
@[simp] theorem updTile_engines (i : Nat) (f : Tile → Tile) : (updTile s i f).engines = s.engines := rfl
@[simp] theorem updTile_streams (i : Nat) (f : Tile → Tile) : (updTile s i f).streams = s.streams := rfl
@[simp] theorem updTile_lastHdr (i : Nat) (f : Tile → Tile) : (updTile s i f).lastHdr = s.lastHdr := rfl
@[simp] theorem updTile_wkey (i : Nat) (f : Tile → Tile) : (updTile s i f).wkey = s.wkey := rfl
@[simp] theorem updTile_hang (i : Nat) (f : Tile → Tile) : (updTile s i f).hang = s.hang := rfl
@[simp] theorem updTile_tallies (i : Nat) (f : Tile → Tile) : (updTile s i f).tallies = s.tallies := rfl
@[simp] theorem updTile_tallyQ (i : Nat) (f : Tile → Tile) : (updTile s i f).tallyQ = s.tallyQ := rfl
@[simp] theorem updTile_ports (i : Nat) (f : Tile → Tile) : (updTile s i f).ports = s.ports := rfl
@[simp] theorem updTile_seals (i : Nat) (f : Tile → Tile) : (updTile s i f).seals = s.seals := rfl
@[simp] theorem updTile_sealMis (i : Nat) (f : Tile → Tile) : (updTile s i f).sealMis = s.sealMis := rfl
@[simp] theorem updTile_sealMatch (i : Nat) (f : Tile → Tile) : (updTile s i f).sealMatch = s.sealMatch := rfl
@[simp] theorem updTile_launch (i : Nat) (f : Tile → Tile) : (updTile s i f).launch = s.launch := rfl
@[simp] theorem updTile_attQ (i : Nat) (f : Tile → Tile) : (updTile s i f).attQ = s.attQ := rfl
@[simp] theorem updTile_peerRecs (i : Nat) (f : Tile → Tile) : (updTile s i f).peerRecs = s.peerRecs := rfl
@[simp] theorem updTile_peerTds (i : Nat) (f : Tile → Tile) : (updTile s i f).peerTds = s.peerTds := rfl
@[simp] theorem updTile_caravan (i : Nat) (f : Tile → Tile) : (updTile s i f).caravan = s.caravan := rfl
@[simp] theorem updTile_cistern (i : Nat) (f : Tile → Tile) : (updTile s i f).cistern = s.cistern := rfl
@[simp] theorem updTile_records (i : Nat) (f : Tile → Tile) : (updTile s i f).records = s.records := rfl
@[simp] theorem updTile_early (i : Nat) (f : Tile → Tile) : (updTile s i f).early = s.early := rfl
@[simp] theorem updTile_near (i : Nat) (f : Tile → Tile) : (updTile s i f).near = s.near := rfl
@[simp] theorem updTile_far (i : Nat) (f : Tile → Tile) : (updTile s i f).far = s.far := rfl
@[simp] theorem updTile_thermal (i : Nat) (f : Tile → Tile) : (updTile s i f).thermal = s.thermal := rfl
@[simp] theorem updTile_erg (i : Nat) (f : Tile → Tile) : (updTile s i f).erg = s.erg := rfl
@[simp] theorem updTile_mtr (i : Nat) (f : Tile → Tile) : (updTile s i f).mtr = s.mtr := rfl
@[simp] theorem updTile_trc (i : Nat) (f : Tile → Tile) : (updTile s i f).trc = s.trc := rfl
@[simp] theorem updTile_mgmt (i : Nat) (f : Tile → Tile) : (updTile s i f).mgmt = s.mgmt := rfl
@[simp] theorem updTile_csr (i : Nat) (f : Tile → Tile) : (updTile s i f).csr = s.csr := rfl
@[simp] theorem updTile_cadNack (i : Nat) (f : Tile → Tile) : (updTile s i f).cadNack = s.cadNack := rfl
@[simp] theorem updTile_portViols (i : Nat) (f : Tile → Tile) : (updTile s i f).portViols = s.portViols := rfl
@[simp] theorem updTile_big (i : Nat) (f : Tile → Tile) : (updTile s i f).big = s.big := rfl
@[simp] theorem updTile_rng (i : Nat) (f : Tile → Tile) : (updTile s i f).rng = s.rng := rfl
@[simp] theorem updTile_pending (i : Nat) (f : Tile → Tile) : (updTile s i f).pending = s.pending := rfl

@[simp] theorem updDome_time (i : Nat) (f : Dome → Dome) : (updDome s i f).time = s.time := rfl
@[simp] theorem updDome_keep (i : Nat) (f : Dome → Dome) : (updDome s i f).keep = s.keep := rfl
@[simp] theorem updDome_belfry (i : Nat) (f : Dome → Dome) : (updDome s i f).belfry = s.belfry := rfl
@[simp] theorem updDome_fuses (i : Nat) (f : Dome → Dome) : (updDome s i f).fuses = s.fuses := rfl
@[simp] theorem updDome_built (i : Nat) (f : Dome → Dome) : (updDome s i f).built = s.built := rfl
@[simp] theorem updDome_boot (i : Nat) (f : Dome → Dome) : (updDome s i f).boot = s.boot := rfl
@[simp] theorem updDome_pads (i : Nat) (f : Dome → Dome) : (updDome s i f).pads = s.pads := rfl
@[simp] theorem updDome_image (i : Nat) (f : Dome → Dome) : (updDome s i f).image = s.image := rfl
@[simp] theorem updDome_imageHash (i : Nat) (f : Dome → Dome) : (updDome s i f).imageHash = s.imageHash := rfl
@[simp] theorem updDome_imageSeq (i : Nat) (f : Dome → Dome) : (updDome s i f).imageSeq = s.imageSeq := rfl
@[simp] theorem updDome_imageBuild (i : Nat) (f : Dome → Dome) : (updDome s i f).imageBuild = s.imageBuild := rfl
@[simp] theorem updDome_imageFlags (i : Nat) (f : Dome → Dome) : (updDome s i f).imageFlags = s.imageFlags := rfl
@[simp] theorem updDome_imageKey (i : Nat) (f : Dome → Dome) : (updDome s i f).imageKey = s.imageKey := rfl
@[simp] theorem updDome_imageSvn (i : Nat) (f : Dome → Dome) : (updDome s i f).imageSvn = s.imageSvn := rfl
@[simp] theorem updDome_nvm (i : Nat) (f : Dome → Dome) : (updDome s i f).nvm = s.nvm := rfl
@[simp] theorem updDome_parts (i : Nat) (f : Dome → Dome) : (updDome s i f).parts = s.parts := rfl
@[simp] theorem updDome_tiles (i : Nat) (f : Dome → Dome) : (updDome s i f).tiles = s.tiles := rfl
@[simp] theorem updDome_spires (i : Nat) (f : Dome → Dome) : (updDome s i f).spires = s.spires := rfl
@[simp] theorem updDome_domes (i : Nat) (f : Dome → Dome) : (updDome s i f).domes = (s.domes.map fun d => if d.ix = i then f d else d) := rfl
@[simp] theorem updDome_ops (i : Nat) (f : Dome → Dome) : (updDome s i f).ops = s.ops := rfl
@[simp] theorem updDome_opSeq (i : Nat) (f : Dome → Dome) : (updDome s i f).opSeq = s.opSeq := rfl
@[simp] theorem updDome_tickets (i : Nat) (f : Dome → Dome) : (updDome s i f).tickets = s.tickets := rfl
@[simp] theorem updDome_samples (i : Nat) (f : Dome → Dome) : (updDome s i f).samples = s.samples := rfl
@[simp] theorem updDome_engines (i : Nat) (f : Dome → Dome) : (updDome s i f).engines = s.engines := rfl
@[simp] theorem updDome_streams (i : Nat) (f : Dome → Dome) : (updDome s i f).streams = s.streams := rfl
@[simp] theorem updDome_lastHdr (i : Nat) (f : Dome → Dome) : (updDome s i f).lastHdr = s.lastHdr := rfl
@[simp] theorem updDome_wkey (i : Nat) (f : Dome → Dome) : (updDome s i f).wkey = s.wkey := rfl
@[simp] theorem updDome_hang (i : Nat) (f : Dome → Dome) : (updDome s i f).hang = s.hang := rfl
@[simp] theorem updDome_tallies (i : Nat) (f : Dome → Dome) : (updDome s i f).tallies = s.tallies := rfl
@[simp] theorem updDome_tallyQ (i : Nat) (f : Dome → Dome) : (updDome s i f).tallyQ = s.tallyQ := rfl
@[simp] theorem updDome_ports (i : Nat) (f : Dome → Dome) : (updDome s i f).ports = s.ports := rfl
@[simp] theorem updDome_seals (i : Nat) (f : Dome → Dome) : (updDome s i f).seals = s.seals := rfl
@[simp] theorem updDome_sealMis (i : Nat) (f : Dome → Dome) : (updDome s i f).sealMis = s.sealMis := rfl
@[simp] theorem updDome_sealMatch (i : Nat) (f : Dome → Dome) : (updDome s i f).sealMatch = s.sealMatch := rfl
@[simp] theorem updDome_launch (i : Nat) (f : Dome → Dome) : (updDome s i f).launch = s.launch := rfl
@[simp] theorem updDome_attQ (i : Nat) (f : Dome → Dome) : (updDome s i f).attQ = s.attQ := rfl
@[simp] theorem updDome_peerRecs (i : Nat) (f : Dome → Dome) : (updDome s i f).peerRecs = s.peerRecs := rfl
@[simp] theorem updDome_peerTds (i : Nat) (f : Dome → Dome) : (updDome s i f).peerTds = s.peerTds := rfl
@[simp] theorem updDome_caravan (i : Nat) (f : Dome → Dome) : (updDome s i f).caravan = s.caravan := rfl
@[simp] theorem updDome_cistern (i : Nat) (f : Dome → Dome) : (updDome s i f).cistern = s.cistern := rfl
@[simp] theorem updDome_records (i : Nat) (f : Dome → Dome) : (updDome s i f).records = s.records := rfl
@[simp] theorem updDome_early (i : Nat) (f : Dome → Dome) : (updDome s i f).early = s.early := rfl
@[simp] theorem updDome_near (i : Nat) (f : Dome → Dome) : (updDome s i f).near = s.near := rfl
@[simp] theorem updDome_far (i : Nat) (f : Dome → Dome) : (updDome s i f).far = s.far := rfl
@[simp] theorem updDome_thermal (i : Nat) (f : Dome → Dome) : (updDome s i f).thermal = s.thermal := rfl
@[simp] theorem updDome_erg (i : Nat) (f : Dome → Dome) : (updDome s i f).erg = s.erg := rfl
@[simp] theorem updDome_mtr (i : Nat) (f : Dome → Dome) : (updDome s i f).mtr = s.mtr := rfl
@[simp] theorem updDome_trc (i : Nat) (f : Dome → Dome) : (updDome s i f).trc = s.trc := rfl
@[simp] theorem updDome_mgmt (i : Nat) (f : Dome → Dome) : (updDome s i f).mgmt = s.mgmt := rfl
@[simp] theorem updDome_csr (i : Nat) (f : Dome → Dome) : (updDome s i f).csr = s.csr := rfl
@[simp] theorem updDome_cadNack (i : Nat) (f : Dome → Dome) : (updDome s i f).cadNack = s.cadNack := rfl
@[simp] theorem updDome_portViols (i : Nat) (f : Dome → Dome) : (updDome s i f).portViols = s.portViols := rfl
@[simp] theorem updDome_big (i : Nat) (f : Dome → Dome) : (updDome s i f).big = s.big := rfl
@[simp] theorem updDome_rng (i : Nat) (f : Dome → Dome) : (updDome s i f).rng = s.rng := rfl
@[simp] theorem updDome_pending (i : Nat) (f : Dome → Dome) : (updDome s i f).pending = s.pending := rfl

@[simp] theorem updPart_time (p : Nat) (f : Part → Part) : (updPart s p f).time = s.time := rfl
@[simp] theorem updPart_keep (p : Nat) (f : Part → Part) : (updPart s p f).keep = s.keep := rfl
@[simp] theorem updPart_belfry (p : Nat) (f : Part → Part) : (updPart s p f).belfry = s.belfry := rfl
@[simp] theorem updPart_fuses (p : Nat) (f : Part → Part) : (updPart s p f).fuses = s.fuses := rfl
@[simp] theorem updPart_built (p : Nat) (f : Part → Part) : (updPart s p f).built = s.built := rfl
@[simp] theorem updPart_boot (p : Nat) (f : Part → Part) : (updPart s p f).boot = s.boot := rfl
@[simp] theorem updPart_pads (p : Nat) (f : Part → Part) : (updPart s p f).pads = s.pads := rfl
@[simp] theorem updPart_image (p : Nat) (f : Part → Part) : (updPart s p f).image = s.image := rfl
@[simp] theorem updPart_imageHash (p : Nat) (f : Part → Part) : (updPart s p f).imageHash = s.imageHash := rfl
@[simp] theorem updPart_imageSeq (p : Nat) (f : Part → Part) : (updPart s p f).imageSeq = s.imageSeq := rfl
@[simp] theorem updPart_imageBuild (p : Nat) (f : Part → Part) : (updPart s p f).imageBuild = s.imageBuild := rfl
@[simp] theorem updPart_imageFlags (p : Nat) (f : Part → Part) : (updPart s p f).imageFlags = s.imageFlags := rfl
@[simp] theorem updPart_imageKey (p : Nat) (f : Part → Part) : (updPart s p f).imageKey = s.imageKey := rfl
@[simp] theorem updPart_imageSvn (p : Nat) (f : Part → Part) : (updPart s p f).imageSvn = s.imageSvn := rfl
@[simp] theorem updPart_nvm (p : Nat) (f : Part → Part) : (updPart s p f).nvm = s.nvm := rfl
@[simp] theorem updPart_parts (p : Nat) (f : Part → Part) : (updPart s p f).parts = (updAt s.parts p f) := rfl
@[simp] theorem updPart_tiles (p : Nat) (f : Part → Part) : (updPart s p f).tiles = s.tiles := rfl
@[simp] theorem updPart_spires (p : Nat) (f : Part → Part) : (updPart s p f).spires = s.spires := rfl
@[simp] theorem updPart_domes (p : Nat) (f : Part → Part) : (updPart s p f).domes = s.domes := rfl
@[simp] theorem updPart_ops (p : Nat) (f : Part → Part) : (updPart s p f).ops = s.ops := rfl
@[simp] theorem updPart_opSeq (p : Nat) (f : Part → Part) : (updPart s p f).opSeq = s.opSeq := rfl
@[simp] theorem updPart_tickets (p : Nat) (f : Part → Part) : (updPart s p f).tickets = s.tickets := rfl
@[simp] theorem updPart_samples (p : Nat) (f : Part → Part) : (updPart s p f).samples = s.samples := rfl
@[simp] theorem updPart_engines (p : Nat) (f : Part → Part) : (updPart s p f).engines = s.engines := rfl
@[simp] theorem updPart_streams (p : Nat) (f : Part → Part) : (updPart s p f).streams = s.streams := rfl
@[simp] theorem updPart_lastHdr (p : Nat) (f : Part → Part) : (updPart s p f).lastHdr = s.lastHdr := rfl
@[simp] theorem updPart_wkey (p : Nat) (f : Part → Part) : (updPart s p f).wkey = s.wkey := rfl
@[simp] theorem updPart_hang (p : Nat) (f : Part → Part) : (updPart s p f).hang = s.hang := rfl
@[simp] theorem updPart_tallies (p : Nat) (f : Part → Part) : (updPart s p f).tallies = s.tallies := rfl
@[simp] theorem updPart_tallyQ (p : Nat) (f : Part → Part) : (updPart s p f).tallyQ = s.tallyQ := rfl
@[simp] theorem updPart_ports (p : Nat) (f : Part → Part) : (updPart s p f).ports = s.ports := rfl
@[simp] theorem updPart_seals (p : Nat) (f : Part → Part) : (updPart s p f).seals = s.seals := rfl
@[simp] theorem updPart_sealMis (p : Nat) (f : Part → Part) : (updPart s p f).sealMis = s.sealMis := rfl
@[simp] theorem updPart_sealMatch (p : Nat) (f : Part → Part) : (updPart s p f).sealMatch = s.sealMatch := rfl
@[simp] theorem updPart_launch (p : Nat) (f : Part → Part) : (updPart s p f).launch = s.launch := rfl
@[simp] theorem updPart_attQ (p : Nat) (f : Part → Part) : (updPart s p f).attQ = s.attQ := rfl
@[simp] theorem updPart_peerRecs (p : Nat) (f : Part → Part) : (updPart s p f).peerRecs = s.peerRecs := rfl
@[simp] theorem updPart_peerTds (p : Nat) (f : Part → Part) : (updPart s p f).peerTds = s.peerTds := rfl
@[simp] theorem updPart_caravan (p : Nat) (f : Part → Part) : (updPart s p f).caravan = s.caravan := rfl
@[simp] theorem updPart_cistern (p : Nat) (f : Part → Part) : (updPart s p f).cistern = s.cistern := rfl
@[simp] theorem updPart_records (p : Nat) (f : Part → Part) : (updPart s p f).records = s.records := rfl
@[simp] theorem updPart_early (p : Nat) (f : Part → Part) : (updPart s p f).early = s.early := rfl
@[simp] theorem updPart_near (p : Nat) (f : Part → Part) : (updPart s p f).near = s.near := rfl
@[simp] theorem updPart_far (p : Nat) (f : Part → Part) : (updPart s p f).far = s.far := rfl
@[simp] theorem updPart_thermal (p : Nat) (f : Part → Part) : (updPart s p f).thermal = s.thermal := rfl
@[simp] theorem updPart_erg (p : Nat) (f : Part → Part) : (updPart s p f).erg = s.erg := rfl
@[simp] theorem updPart_mtr (p : Nat) (f : Part → Part) : (updPart s p f).mtr = s.mtr := rfl
@[simp] theorem updPart_trc (p : Nat) (f : Part → Part) : (updPart s p f).trc = s.trc := rfl
@[simp] theorem updPart_mgmt (p : Nat) (f : Part → Part) : (updPart s p f).mgmt = s.mgmt := rfl
@[simp] theorem updPart_csr (p : Nat) (f : Part → Part) : (updPart s p f).csr = s.csr := rfl
@[simp] theorem updPart_cadNack (p : Nat) (f : Part → Part) : (updPart s p f).cadNack = s.cadNack := rfl
@[simp] theorem updPart_portViols (p : Nat) (f : Part → Part) : (updPart s p f).portViols = s.portViols := rfl
@[simp] theorem updPart_big (p : Nat) (f : Part → Part) : (updPart s p f).big = s.big := rfl
@[simp] theorem updPart_rng (p : Nat) (f : Part → Part) : (updPart s p f).rng = s.rng := rfl
@[simp] theorem updPart_pending (p : Nat) (f : Part → Part) : (updPart s p f).pending = s.pending := rfl

@[simp] theorem updEng_time (e : Nat) (f : Engine → Engine) : (updEng s e f).time = s.time := rfl
@[simp] theorem updEng_keep (e : Nat) (f : Engine → Engine) : (updEng s e f).keep = s.keep := rfl
@[simp] theorem updEng_belfry (e : Nat) (f : Engine → Engine) : (updEng s e f).belfry = s.belfry := rfl
@[simp] theorem updEng_fuses (e : Nat) (f : Engine → Engine) : (updEng s e f).fuses = s.fuses := rfl
@[simp] theorem updEng_built (e : Nat) (f : Engine → Engine) : (updEng s e f).built = s.built := rfl
@[simp] theorem updEng_boot (e : Nat) (f : Engine → Engine) : (updEng s e f).boot = s.boot := rfl
@[simp] theorem updEng_pads (e : Nat) (f : Engine → Engine) : (updEng s e f).pads = s.pads := rfl
@[simp] theorem updEng_image (e : Nat) (f : Engine → Engine) : (updEng s e f).image = s.image := rfl
@[simp] theorem updEng_imageHash (e : Nat) (f : Engine → Engine) : (updEng s e f).imageHash = s.imageHash := rfl
@[simp] theorem updEng_imageSeq (e : Nat) (f : Engine → Engine) : (updEng s e f).imageSeq = s.imageSeq := rfl
@[simp] theorem updEng_imageBuild (e : Nat) (f : Engine → Engine) : (updEng s e f).imageBuild = s.imageBuild := rfl
@[simp] theorem updEng_imageFlags (e : Nat) (f : Engine → Engine) : (updEng s e f).imageFlags = s.imageFlags := rfl
@[simp] theorem updEng_imageKey (e : Nat) (f : Engine → Engine) : (updEng s e f).imageKey = s.imageKey := rfl
@[simp] theorem updEng_imageSvn (e : Nat) (f : Engine → Engine) : (updEng s e f).imageSvn = s.imageSvn := rfl
@[simp] theorem updEng_nvm (e : Nat) (f : Engine → Engine) : (updEng s e f).nvm = s.nvm := rfl
@[simp] theorem updEng_parts (e : Nat) (f : Engine → Engine) : (updEng s e f).parts = s.parts := rfl
@[simp] theorem updEng_tiles (e : Nat) (f : Engine → Engine) : (updEng s e f).tiles = s.tiles := rfl
@[simp] theorem updEng_spires (e : Nat) (f : Engine → Engine) : (updEng s e f).spires = s.spires := rfl
@[simp] theorem updEng_domes (e : Nat) (f : Engine → Engine) : (updEng s e f).domes = s.domes := rfl
@[simp] theorem updEng_ops (e : Nat) (f : Engine → Engine) : (updEng s e f).ops = s.ops := rfl
@[simp] theorem updEng_opSeq (e : Nat) (f : Engine → Engine) : (updEng s e f).opSeq = s.opSeq := rfl
@[simp] theorem updEng_tickets (e : Nat) (f : Engine → Engine) : (updEng s e f).tickets = s.tickets := rfl
@[simp] theorem updEng_samples (e : Nat) (f : Engine → Engine) : (updEng s e f).samples = s.samples := rfl
@[simp] theorem updEng_engines (e : Nat) (f : Engine → Engine) : (updEng s e f).engines = (updAt s.engines e f) := rfl
@[simp] theorem updEng_streams (e : Nat) (f : Engine → Engine) : (updEng s e f).streams = s.streams := rfl
@[simp] theorem updEng_lastHdr (e : Nat) (f : Engine → Engine) : (updEng s e f).lastHdr = s.lastHdr := rfl
@[simp] theorem updEng_wkey (e : Nat) (f : Engine → Engine) : (updEng s e f).wkey = s.wkey := rfl
@[simp] theorem updEng_hang (e : Nat) (f : Engine → Engine) : (updEng s e f).hang = s.hang := rfl
@[simp] theorem updEng_tallies (e : Nat) (f : Engine → Engine) : (updEng s e f).tallies = s.tallies := rfl
@[simp] theorem updEng_tallyQ (e : Nat) (f : Engine → Engine) : (updEng s e f).tallyQ = s.tallyQ := rfl
@[simp] theorem updEng_ports (e : Nat) (f : Engine → Engine) : (updEng s e f).ports = s.ports := rfl
@[simp] theorem updEng_seals (e : Nat) (f : Engine → Engine) : (updEng s e f).seals = s.seals := rfl
@[simp] theorem updEng_sealMis (e : Nat) (f : Engine → Engine) : (updEng s e f).sealMis = s.sealMis := rfl
@[simp] theorem updEng_sealMatch (e : Nat) (f : Engine → Engine) : (updEng s e f).sealMatch = s.sealMatch := rfl
@[simp] theorem updEng_launch (e : Nat) (f : Engine → Engine) : (updEng s e f).launch = s.launch := rfl
@[simp] theorem updEng_attQ (e : Nat) (f : Engine → Engine) : (updEng s e f).attQ = s.attQ := rfl
@[simp] theorem updEng_peerRecs (e : Nat) (f : Engine → Engine) : (updEng s e f).peerRecs = s.peerRecs := rfl
@[simp] theorem updEng_peerTds (e : Nat) (f : Engine → Engine) : (updEng s e f).peerTds = s.peerTds := rfl
@[simp] theorem updEng_caravan (e : Nat) (f : Engine → Engine) : (updEng s e f).caravan = s.caravan := rfl
@[simp] theorem updEng_cistern (e : Nat) (f : Engine → Engine) : (updEng s e f).cistern = s.cistern := rfl
@[simp] theorem updEng_records (e : Nat) (f : Engine → Engine) : (updEng s e f).records = s.records := rfl
@[simp] theorem updEng_early (e : Nat) (f : Engine → Engine) : (updEng s e f).early = s.early := rfl
@[simp] theorem updEng_near (e : Nat) (f : Engine → Engine) : (updEng s e f).near = s.near := rfl
@[simp] theorem updEng_far (e : Nat) (f : Engine → Engine) : (updEng s e f).far = s.far := rfl
@[simp] theorem updEng_thermal (e : Nat) (f : Engine → Engine) : (updEng s e f).thermal = s.thermal := rfl
@[simp] theorem updEng_erg (e : Nat) (f : Engine → Engine) : (updEng s e f).erg = s.erg := rfl
@[simp] theorem updEng_mtr (e : Nat) (f : Engine → Engine) : (updEng s e f).mtr = s.mtr := rfl
@[simp] theorem updEng_trc (e : Nat) (f : Engine → Engine) : (updEng s e f).trc = s.trc := rfl
@[simp] theorem updEng_mgmt (e : Nat) (f : Engine → Engine) : (updEng s e f).mgmt = s.mgmt := rfl
@[simp] theorem updEng_csr (e : Nat) (f : Engine → Engine) : (updEng s e f).csr = s.csr := rfl
@[simp] theorem updEng_cadNack (e : Nat) (f : Engine → Engine) : (updEng s e f).cadNack = s.cadNack := rfl
@[simp] theorem updEng_portViols (e : Nat) (f : Engine → Engine) : (updEng s e f).portViols = s.portViols := rfl
@[simp] theorem updEng_big (e : Nat) (f : Engine → Engine) : (updEng s e f).big = s.big := rfl
@[simp] theorem updEng_rng (e : Nat) (f : Engine → Engine) : (updEng s e f).rng = s.rng := rfl
@[simp] theorem updEng_pending (e : Nat) (f : Engine → Engine) : (updEng s e f).pending = s.pending := rfl

@[simp] theorem updPort_time (q : Nat) (f : Port → Port) : (updPort s q f).time = s.time := rfl
@[simp] theorem updPort_keep (q : Nat) (f : Port → Port) : (updPort s q f).keep = s.keep := rfl
@[simp] theorem updPort_belfry (q : Nat) (f : Port → Port) : (updPort s q f).belfry = s.belfry := rfl
@[simp] theorem updPort_fuses (q : Nat) (f : Port → Port) : (updPort s q f).fuses = s.fuses := rfl
@[simp] theorem updPort_built (q : Nat) (f : Port → Port) : (updPort s q f).built = s.built := rfl
@[simp] theorem updPort_boot (q : Nat) (f : Port → Port) : (updPort s q f).boot = s.boot := rfl
@[simp] theorem updPort_pads (q : Nat) (f : Port → Port) : (updPort s q f).pads = s.pads := rfl
@[simp] theorem updPort_image (q : Nat) (f : Port → Port) : (updPort s q f).image = s.image := rfl
@[simp] theorem updPort_imageHash (q : Nat) (f : Port → Port) : (updPort s q f).imageHash = s.imageHash := rfl
@[simp] theorem updPort_imageSeq (q : Nat) (f : Port → Port) : (updPort s q f).imageSeq = s.imageSeq := rfl
@[simp] theorem updPort_imageBuild (q : Nat) (f : Port → Port) : (updPort s q f).imageBuild = s.imageBuild := rfl
@[simp] theorem updPort_imageFlags (q : Nat) (f : Port → Port) : (updPort s q f).imageFlags = s.imageFlags := rfl
@[simp] theorem updPort_imageKey (q : Nat) (f : Port → Port) : (updPort s q f).imageKey = s.imageKey := rfl
@[simp] theorem updPort_imageSvn (q : Nat) (f : Port → Port) : (updPort s q f).imageSvn = s.imageSvn := rfl
@[simp] theorem updPort_nvm (q : Nat) (f : Port → Port) : (updPort s q f).nvm = s.nvm := rfl
@[simp] theorem updPort_parts (q : Nat) (f : Port → Port) : (updPort s q f).parts = s.parts := rfl
@[simp] theorem updPort_tiles (q : Nat) (f : Port → Port) : (updPort s q f).tiles = s.tiles := rfl
@[simp] theorem updPort_spires (q : Nat) (f : Port → Port) : (updPort s q f).spires = s.spires := rfl
@[simp] theorem updPort_domes (q : Nat) (f : Port → Port) : (updPort s q f).domes = s.domes := rfl
@[simp] theorem updPort_ops (q : Nat) (f : Port → Port) : (updPort s q f).ops = s.ops := rfl
@[simp] theorem updPort_opSeq (q : Nat) (f : Port → Port) : (updPort s q f).opSeq = s.opSeq := rfl
@[simp] theorem updPort_tickets (q : Nat) (f : Port → Port) : (updPort s q f).tickets = s.tickets := rfl
@[simp] theorem updPort_samples (q : Nat) (f : Port → Port) : (updPort s q f).samples = s.samples := rfl
@[simp] theorem updPort_engines (q : Nat) (f : Port → Port) : (updPort s q f).engines = s.engines := rfl
@[simp] theorem updPort_streams (q : Nat) (f : Port → Port) : (updPort s q f).streams = s.streams := rfl
@[simp] theorem updPort_lastHdr (q : Nat) (f : Port → Port) : (updPort s q f).lastHdr = s.lastHdr := rfl
@[simp] theorem updPort_wkey (q : Nat) (f : Port → Port) : (updPort s q f).wkey = s.wkey := rfl
@[simp] theorem updPort_hang (q : Nat) (f : Port → Port) : (updPort s q f).hang = s.hang := rfl
@[simp] theorem updPort_tallies (q : Nat) (f : Port → Port) : (updPort s q f).tallies = s.tallies := rfl
@[simp] theorem updPort_tallyQ (q : Nat) (f : Port → Port) : (updPort s q f).tallyQ = s.tallyQ := rfl
@[simp] theorem updPort_ports (q : Nat) (f : Port → Port) : (updPort s q f).ports = (updAt s.ports q f) := rfl
@[simp] theorem updPort_seals (q : Nat) (f : Port → Port) : (updPort s q f).seals = s.seals := rfl
@[simp] theorem updPort_sealMis (q : Nat) (f : Port → Port) : (updPort s q f).sealMis = s.sealMis := rfl
@[simp] theorem updPort_sealMatch (q : Nat) (f : Port → Port) : (updPort s q f).sealMatch = s.sealMatch := rfl
@[simp] theorem updPort_launch (q : Nat) (f : Port → Port) : (updPort s q f).launch = s.launch := rfl
@[simp] theorem updPort_attQ (q : Nat) (f : Port → Port) : (updPort s q f).attQ = s.attQ := rfl
@[simp] theorem updPort_peerRecs (q : Nat) (f : Port → Port) : (updPort s q f).peerRecs = s.peerRecs := rfl
@[simp] theorem updPort_peerTds (q : Nat) (f : Port → Port) : (updPort s q f).peerTds = s.peerTds := rfl
@[simp] theorem updPort_caravan (q : Nat) (f : Port → Port) : (updPort s q f).caravan = s.caravan := rfl
@[simp] theorem updPort_cistern (q : Nat) (f : Port → Port) : (updPort s q f).cistern = s.cistern := rfl
@[simp] theorem updPort_records (q : Nat) (f : Port → Port) : (updPort s q f).records = s.records := rfl
@[simp] theorem updPort_early (q : Nat) (f : Port → Port) : (updPort s q f).early = s.early := rfl
@[simp] theorem updPort_near (q : Nat) (f : Port → Port) : (updPort s q f).near = s.near := rfl
@[simp] theorem updPort_far (q : Nat) (f : Port → Port) : (updPort s q f).far = s.far := rfl
@[simp] theorem updPort_thermal (q : Nat) (f : Port → Port) : (updPort s q f).thermal = s.thermal := rfl
@[simp] theorem updPort_erg (q : Nat) (f : Port → Port) : (updPort s q f).erg = s.erg := rfl
@[simp] theorem updPort_mtr (q : Nat) (f : Port → Port) : (updPort s q f).mtr = s.mtr := rfl
@[simp] theorem updPort_trc (q : Nat) (f : Port → Port) : (updPort s q f).trc = s.trc := rfl
@[simp] theorem updPort_mgmt (q : Nat) (f : Port → Port) : (updPort s q f).mgmt = s.mgmt := rfl
@[simp] theorem updPort_csr (q : Nat) (f : Port → Port) : (updPort s q f).csr = s.csr := rfl
@[simp] theorem updPort_cadNack (q : Nat) (f : Port → Port) : (updPort s q f).cadNack = s.cadNack := rfl
@[simp] theorem updPort_portViols (q : Nat) (f : Port → Port) : (updPort s q f).portViols = s.portViols := rfl
@[simp] theorem updPort_big (q : Nat) (f : Port → Port) : (updPort s q f).big = s.big := rfl
@[simp] theorem updPort_rng (q : Nat) (f : Port → Port) : (updPort s q f).rng = s.rng := rfl
@[simp] theorem updPort_pending (q : Nat) (f : Port → Port) : (updPort s q f).pending = s.pending := rfl

@[simp] theorem updOp_time (u : Nat) (f : OpV → OpV) : (updOp s u f).time = s.time := rfl
@[simp] theorem updOp_keep (u : Nat) (f : OpV → OpV) : (updOp s u f).keep = s.keep := rfl
@[simp] theorem updOp_belfry (u : Nat) (f : OpV → OpV) : (updOp s u f).belfry = s.belfry := rfl
@[simp] theorem updOp_fuses (u : Nat) (f : OpV → OpV) : (updOp s u f).fuses = s.fuses := rfl
@[simp] theorem updOp_built (u : Nat) (f : OpV → OpV) : (updOp s u f).built = s.built := rfl
@[simp] theorem updOp_boot (u : Nat) (f : OpV → OpV) : (updOp s u f).boot = s.boot := rfl
@[simp] theorem updOp_pads (u : Nat) (f : OpV → OpV) : (updOp s u f).pads = s.pads := rfl
@[simp] theorem updOp_image (u : Nat) (f : OpV → OpV) : (updOp s u f).image = s.image := rfl
@[simp] theorem updOp_imageHash (u : Nat) (f : OpV → OpV) : (updOp s u f).imageHash = s.imageHash := rfl
@[simp] theorem updOp_imageSeq (u : Nat) (f : OpV → OpV) : (updOp s u f).imageSeq = s.imageSeq := rfl
@[simp] theorem updOp_imageBuild (u : Nat) (f : OpV → OpV) : (updOp s u f).imageBuild = s.imageBuild := rfl
@[simp] theorem updOp_imageFlags (u : Nat) (f : OpV → OpV) : (updOp s u f).imageFlags = s.imageFlags := rfl
@[simp] theorem updOp_imageKey (u : Nat) (f : OpV → OpV) : (updOp s u f).imageKey = s.imageKey := rfl
@[simp] theorem updOp_imageSvn (u : Nat) (f : OpV → OpV) : (updOp s u f).imageSvn = s.imageSvn := rfl
@[simp] theorem updOp_nvm (u : Nat) (f : OpV → OpV) : (updOp s u f).nvm = s.nvm := rfl
@[simp] theorem updOp_parts (u : Nat) (f : OpV → OpV) : (updOp s u f).parts = s.parts := rfl
@[simp] theorem updOp_tiles (u : Nat) (f : OpV → OpV) : (updOp s u f).tiles = s.tiles := rfl
@[simp] theorem updOp_spires (u : Nat) (f : OpV → OpV) : (updOp s u f).spires = s.spires := rfl
@[simp] theorem updOp_domes (u : Nat) (f : OpV → OpV) : (updOp s u f).domes = s.domes := rfl
@[simp] theorem updOp_ops (u : Nat) (f : OpV → OpV) : (updOp s u f).ops = (s.ops.map fun o => if o.uid = u then f o else o) := rfl
@[simp] theorem updOp_opSeq (u : Nat) (f : OpV → OpV) : (updOp s u f).opSeq = s.opSeq := rfl
@[simp] theorem updOp_tickets (u : Nat) (f : OpV → OpV) : (updOp s u f).tickets = s.tickets := rfl
@[simp] theorem updOp_samples (u : Nat) (f : OpV → OpV) : (updOp s u f).samples = s.samples := rfl
@[simp] theorem updOp_engines (u : Nat) (f : OpV → OpV) : (updOp s u f).engines = s.engines := rfl
@[simp] theorem updOp_streams (u : Nat) (f : OpV → OpV) : (updOp s u f).streams = s.streams := rfl
@[simp] theorem updOp_lastHdr (u : Nat) (f : OpV → OpV) : (updOp s u f).lastHdr = s.lastHdr := rfl
@[simp] theorem updOp_wkey (u : Nat) (f : OpV → OpV) : (updOp s u f).wkey = s.wkey := rfl
@[simp] theorem updOp_hang (u : Nat) (f : OpV → OpV) : (updOp s u f).hang = s.hang := rfl
@[simp] theorem updOp_tallies (u : Nat) (f : OpV → OpV) : (updOp s u f).tallies = s.tallies := rfl
@[simp] theorem updOp_tallyQ (u : Nat) (f : OpV → OpV) : (updOp s u f).tallyQ = s.tallyQ := rfl
@[simp] theorem updOp_ports (u : Nat) (f : OpV → OpV) : (updOp s u f).ports = s.ports := rfl
@[simp] theorem updOp_seals (u : Nat) (f : OpV → OpV) : (updOp s u f).seals = s.seals := rfl
@[simp] theorem updOp_sealMis (u : Nat) (f : OpV → OpV) : (updOp s u f).sealMis = s.sealMis := rfl
@[simp] theorem updOp_sealMatch (u : Nat) (f : OpV → OpV) : (updOp s u f).sealMatch = s.sealMatch := rfl
@[simp] theorem updOp_launch (u : Nat) (f : OpV → OpV) : (updOp s u f).launch = s.launch := rfl
@[simp] theorem updOp_attQ (u : Nat) (f : OpV → OpV) : (updOp s u f).attQ = s.attQ := rfl
@[simp] theorem updOp_peerRecs (u : Nat) (f : OpV → OpV) : (updOp s u f).peerRecs = s.peerRecs := rfl
@[simp] theorem updOp_peerTds (u : Nat) (f : OpV → OpV) : (updOp s u f).peerTds = s.peerTds := rfl
@[simp] theorem updOp_caravan (u : Nat) (f : OpV → OpV) : (updOp s u f).caravan = s.caravan := rfl
@[simp] theorem updOp_cistern (u : Nat) (f : OpV → OpV) : (updOp s u f).cistern = s.cistern := rfl
@[simp] theorem updOp_records (u : Nat) (f : OpV → OpV) : (updOp s u f).records = s.records := rfl
@[simp] theorem updOp_early (u : Nat) (f : OpV → OpV) : (updOp s u f).early = s.early := rfl
@[simp] theorem updOp_near (u : Nat) (f : OpV → OpV) : (updOp s u f).near = s.near := rfl
@[simp] theorem updOp_far (u : Nat) (f : OpV → OpV) : (updOp s u f).far = s.far := rfl
@[simp] theorem updOp_thermal (u : Nat) (f : OpV → OpV) : (updOp s u f).thermal = s.thermal := rfl
@[simp] theorem updOp_erg (u : Nat) (f : OpV → OpV) : (updOp s u f).erg = s.erg := rfl
@[simp] theorem updOp_mtr (u : Nat) (f : OpV → OpV) : (updOp s u f).mtr = s.mtr := rfl
@[simp] theorem updOp_trc (u : Nat) (f : OpV → OpV) : (updOp s u f).trc = s.trc := rfl
@[simp] theorem updOp_mgmt (u : Nat) (f : OpV → OpV) : (updOp s u f).mgmt = s.mgmt := rfl
@[simp] theorem updOp_csr (u : Nat) (f : OpV → OpV) : (updOp s u f).csr = s.csr := rfl
@[simp] theorem updOp_cadNack (u : Nat) (f : OpV → OpV) : (updOp s u f).cadNack = s.cadNack := rfl
@[simp] theorem updOp_portViols (u : Nat) (f : OpV → OpV) : (updOp s u f).portViols = s.portViols := rfl
@[simp] theorem updOp_big (u : Nat) (f : OpV → OpV) : (updOp s u f).big = s.big := rfl
@[simp] theorem updOp_rng (u : Nat) (f : OpV → OpV) : (updOp s u f).rng = s.rng := rfl
@[simp] theorem updOp_pending (u : Nat) (f : OpV → OpV) : (updOp s u f).pending = s.pending := rfl

@[simp] theorem updSample_time (u r : Nat) (f : Sample → Sample) : (updSample s u r f).time = s.time := rfl
@[simp] theorem updSample_keep (u r : Nat) (f : Sample → Sample) : (updSample s u r f).keep = s.keep := rfl
@[simp] theorem updSample_belfry (u r : Nat) (f : Sample → Sample) : (updSample s u r f).belfry = s.belfry := rfl
@[simp] theorem updSample_fuses (u r : Nat) (f : Sample → Sample) : (updSample s u r f).fuses = s.fuses := rfl
@[simp] theorem updSample_built (u r : Nat) (f : Sample → Sample) : (updSample s u r f).built = s.built := rfl
@[simp] theorem updSample_boot (u r : Nat) (f : Sample → Sample) : (updSample s u r f).boot = s.boot := rfl
@[simp] theorem updSample_pads (u r : Nat) (f : Sample → Sample) : (updSample s u r f).pads = s.pads := rfl
@[simp] theorem updSample_image (u r : Nat) (f : Sample → Sample) : (updSample s u r f).image = s.image := rfl
@[simp] theorem updSample_imageHash (u r : Nat) (f : Sample → Sample) : (updSample s u r f).imageHash = s.imageHash := rfl
@[simp] theorem updSample_imageSeq (u r : Nat) (f : Sample → Sample) : (updSample s u r f).imageSeq = s.imageSeq := rfl
@[simp] theorem updSample_imageBuild (u r : Nat) (f : Sample → Sample) : (updSample s u r f).imageBuild = s.imageBuild := rfl
@[simp] theorem updSample_imageFlags (u r : Nat) (f : Sample → Sample) : (updSample s u r f).imageFlags = s.imageFlags := rfl
@[simp] theorem updSample_imageKey (u r : Nat) (f : Sample → Sample) : (updSample s u r f).imageKey = s.imageKey := rfl
@[simp] theorem updSample_imageSvn (u r : Nat) (f : Sample → Sample) : (updSample s u r f).imageSvn = s.imageSvn := rfl
@[simp] theorem updSample_nvm (u r : Nat) (f : Sample → Sample) : (updSample s u r f).nvm = s.nvm := rfl
@[simp] theorem updSample_parts (u r : Nat) (f : Sample → Sample) : (updSample s u r f).parts = s.parts := rfl
@[simp] theorem updSample_tiles (u r : Nat) (f : Sample → Sample) : (updSample s u r f).tiles = s.tiles := rfl
@[simp] theorem updSample_spires (u r : Nat) (f : Sample → Sample) : (updSample s u r f).spires = s.spires := rfl
@[simp] theorem updSample_domes (u r : Nat) (f : Sample → Sample) : (updSample s u r f).domes = s.domes := rfl
@[simp] theorem updSample_ops (u r : Nat) (f : Sample → Sample) : (updSample s u r f).ops = s.ops := rfl
@[simp] theorem updSample_opSeq (u r : Nat) (f : Sample → Sample) : (updSample s u r f).opSeq = s.opSeq := rfl
@[simp] theorem updSample_tickets (u r : Nat) (f : Sample → Sample) : (updSample s u r f).tickets = s.tickets := rfl
@[simp] theorem updSample_samples (u r : Nat) (f : Sample → Sample) : (updSample s u r f).samples = (s.samples.map fun x => if x.uid = u ∧ x.row = r then f x else x) := rfl
@[simp] theorem updSample_engines (u r : Nat) (f : Sample → Sample) : (updSample s u r f).engines = s.engines := rfl
@[simp] theorem updSample_streams (u r : Nat) (f : Sample → Sample) : (updSample s u r f).streams = s.streams := rfl
@[simp] theorem updSample_lastHdr (u r : Nat) (f : Sample → Sample) : (updSample s u r f).lastHdr = s.lastHdr := rfl
@[simp] theorem updSample_wkey (u r : Nat) (f : Sample → Sample) : (updSample s u r f).wkey = s.wkey := rfl
@[simp] theorem updSample_hang (u r : Nat) (f : Sample → Sample) : (updSample s u r f).hang = s.hang := rfl
@[simp] theorem updSample_tallies (u r : Nat) (f : Sample → Sample) : (updSample s u r f).tallies = s.tallies := rfl
@[simp] theorem updSample_tallyQ (u r : Nat) (f : Sample → Sample) : (updSample s u r f).tallyQ = s.tallyQ := rfl
@[simp] theorem updSample_ports (u r : Nat) (f : Sample → Sample) : (updSample s u r f).ports = s.ports := rfl
@[simp] theorem updSample_seals (u r : Nat) (f : Sample → Sample) : (updSample s u r f).seals = s.seals := rfl
@[simp] theorem updSample_sealMis (u r : Nat) (f : Sample → Sample) : (updSample s u r f).sealMis = s.sealMis := rfl
@[simp] theorem updSample_sealMatch (u r : Nat) (f : Sample → Sample) : (updSample s u r f).sealMatch = s.sealMatch := rfl
@[simp] theorem updSample_launch (u r : Nat) (f : Sample → Sample) : (updSample s u r f).launch = s.launch := rfl
@[simp] theorem updSample_attQ (u r : Nat) (f : Sample → Sample) : (updSample s u r f).attQ = s.attQ := rfl
@[simp] theorem updSample_peerRecs (u r : Nat) (f : Sample → Sample) : (updSample s u r f).peerRecs = s.peerRecs := rfl
@[simp] theorem updSample_peerTds (u r : Nat) (f : Sample → Sample) : (updSample s u r f).peerTds = s.peerTds := rfl
@[simp] theorem updSample_caravan (u r : Nat) (f : Sample → Sample) : (updSample s u r f).caravan = s.caravan := rfl
@[simp] theorem updSample_cistern (u r : Nat) (f : Sample → Sample) : (updSample s u r f).cistern = s.cistern := rfl
@[simp] theorem updSample_records (u r : Nat) (f : Sample → Sample) : (updSample s u r f).records = s.records := rfl
@[simp] theorem updSample_early (u r : Nat) (f : Sample → Sample) : (updSample s u r f).early = s.early := rfl
@[simp] theorem updSample_near (u r : Nat) (f : Sample → Sample) : (updSample s u r f).near = s.near := rfl
@[simp] theorem updSample_far (u r : Nat) (f : Sample → Sample) : (updSample s u r f).far = s.far := rfl
@[simp] theorem updSample_thermal (u r : Nat) (f : Sample → Sample) : (updSample s u r f).thermal = s.thermal := rfl
@[simp] theorem updSample_erg (u r : Nat) (f : Sample → Sample) : (updSample s u r f).erg = s.erg := rfl
@[simp] theorem updSample_mtr (u r : Nat) (f : Sample → Sample) : (updSample s u r f).mtr = s.mtr := rfl
@[simp] theorem updSample_trc (u r : Nat) (f : Sample → Sample) : (updSample s u r f).trc = s.trc := rfl
@[simp] theorem updSample_mgmt (u r : Nat) (f : Sample → Sample) : (updSample s u r f).mgmt = s.mgmt := rfl
@[simp] theorem updSample_csr (u r : Nat) (f : Sample → Sample) : (updSample s u r f).csr = s.csr := rfl
@[simp] theorem updSample_cadNack (u r : Nat) (f : Sample → Sample) : (updSample s u r f).cadNack = s.cadNack := rfl
@[simp] theorem updSample_portViols (u r : Nat) (f : Sample → Sample) : (updSample s u r f).portViols = s.portViols := rfl
@[simp] theorem updSample_big (u r : Nat) (f : Sample → Sample) : (updSample s u r f).big = s.big := rfl
@[simp] theorem updSample_rng (u r : Nat) (f : Sample → Sample) : (updSample s u r f).rng = s.rng := rfl
@[simp] theorem updSample_pending (u r : Nat) (f : Sample → Sample) : (updSample s u r f).pending = s.pending := rfl

@[simp] theorem updCmd_time (i : Nat) (f : CmdInst → CmdInst) : (updCmd s i f).time = s.time := rfl
@[simp] theorem updCmd_keep (i : Nat) (f : CmdInst → CmdInst) : (updCmd s i f).keep = ({ s.keep with cmd := updAt s.keep.cmd i f }) := rfl
@[simp] theorem updCmd_belfry (i : Nat) (f : CmdInst → CmdInst) : (updCmd s i f).belfry = s.belfry := rfl
@[simp] theorem updCmd_fuses (i : Nat) (f : CmdInst → CmdInst) : (updCmd s i f).fuses = s.fuses := rfl
@[simp] theorem updCmd_built (i : Nat) (f : CmdInst → CmdInst) : (updCmd s i f).built = s.built := rfl
@[simp] theorem updCmd_boot (i : Nat) (f : CmdInst → CmdInst) : (updCmd s i f).boot = s.boot := rfl
@[simp] theorem updCmd_pads (i : Nat) (f : CmdInst → CmdInst) : (updCmd s i f).pads = s.pads := rfl
@[simp] theorem updCmd_image (i : Nat) (f : CmdInst → CmdInst) : (updCmd s i f).image = s.image := rfl
@[simp] theorem updCmd_imageHash (i : Nat) (f : CmdInst → CmdInst) : (updCmd s i f).imageHash = s.imageHash := rfl
@[simp] theorem updCmd_imageSeq (i : Nat) (f : CmdInst → CmdInst) : (updCmd s i f).imageSeq = s.imageSeq := rfl
@[simp] theorem updCmd_imageBuild (i : Nat) (f : CmdInst → CmdInst) : (updCmd s i f).imageBuild = s.imageBuild := rfl
@[simp] theorem updCmd_imageFlags (i : Nat) (f : CmdInst → CmdInst) : (updCmd s i f).imageFlags = s.imageFlags := rfl
@[simp] theorem updCmd_imageKey (i : Nat) (f : CmdInst → CmdInst) : (updCmd s i f).imageKey = s.imageKey := rfl
@[simp] theorem updCmd_imageSvn (i : Nat) (f : CmdInst → CmdInst) : (updCmd s i f).imageSvn = s.imageSvn := rfl
@[simp] theorem updCmd_nvm (i : Nat) (f : CmdInst → CmdInst) : (updCmd s i f).nvm = s.nvm := rfl
@[simp] theorem updCmd_parts (i : Nat) (f : CmdInst → CmdInst) : (updCmd s i f).parts = s.parts := rfl
@[simp] theorem updCmd_tiles (i : Nat) (f : CmdInst → CmdInst) : (updCmd s i f).tiles = s.tiles := rfl
@[simp] theorem updCmd_spires (i : Nat) (f : CmdInst → CmdInst) : (updCmd s i f).spires = s.spires := rfl
@[simp] theorem updCmd_domes (i : Nat) (f : CmdInst → CmdInst) : (updCmd s i f).domes = s.domes := rfl
@[simp] theorem updCmd_ops (i : Nat) (f : CmdInst → CmdInst) : (updCmd s i f).ops = s.ops := rfl
@[simp] theorem updCmd_opSeq (i : Nat) (f : CmdInst → CmdInst) : (updCmd s i f).opSeq = s.opSeq := rfl
@[simp] theorem updCmd_tickets (i : Nat) (f : CmdInst → CmdInst) : (updCmd s i f).tickets = s.tickets := rfl
@[simp] theorem updCmd_samples (i : Nat) (f : CmdInst → CmdInst) : (updCmd s i f).samples = s.samples := rfl
@[simp] theorem updCmd_engines (i : Nat) (f : CmdInst → CmdInst) : (updCmd s i f).engines = s.engines := rfl
@[simp] theorem updCmd_streams (i : Nat) (f : CmdInst → CmdInst) : (updCmd s i f).streams = s.streams := rfl
@[simp] theorem updCmd_lastHdr (i : Nat) (f : CmdInst → CmdInst) : (updCmd s i f).lastHdr = s.lastHdr := rfl
@[simp] theorem updCmd_wkey (i : Nat) (f : CmdInst → CmdInst) : (updCmd s i f).wkey = s.wkey := rfl
@[simp] theorem updCmd_hang (i : Nat) (f : CmdInst → CmdInst) : (updCmd s i f).hang = s.hang := rfl
@[simp] theorem updCmd_tallies (i : Nat) (f : CmdInst → CmdInst) : (updCmd s i f).tallies = s.tallies := rfl
@[simp] theorem updCmd_tallyQ (i : Nat) (f : CmdInst → CmdInst) : (updCmd s i f).tallyQ = s.tallyQ := rfl
@[simp] theorem updCmd_ports (i : Nat) (f : CmdInst → CmdInst) : (updCmd s i f).ports = s.ports := rfl
@[simp] theorem updCmd_seals (i : Nat) (f : CmdInst → CmdInst) : (updCmd s i f).seals = s.seals := rfl
@[simp] theorem updCmd_sealMis (i : Nat) (f : CmdInst → CmdInst) : (updCmd s i f).sealMis = s.sealMis := rfl
@[simp] theorem updCmd_sealMatch (i : Nat) (f : CmdInst → CmdInst) : (updCmd s i f).sealMatch = s.sealMatch := rfl
@[simp] theorem updCmd_launch (i : Nat) (f : CmdInst → CmdInst) : (updCmd s i f).launch = s.launch := rfl
@[simp] theorem updCmd_attQ (i : Nat) (f : CmdInst → CmdInst) : (updCmd s i f).attQ = s.attQ := rfl
@[simp] theorem updCmd_peerRecs (i : Nat) (f : CmdInst → CmdInst) : (updCmd s i f).peerRecs = s.peerRecs := rfl
@[simp] theorem updCmd_peerTds (i : Nat) (f : CmdInst → CmdInst) : (updCmd s i f).peerTds = s.peerTds := rfl
@[simp] theorem updCmd_caravan (i : Nat) (f : CmdInst → CmdInst) : (updCmd s i f).caravan = s.caravan := rfl
@[simp] theorem updCmd_cistern (i : Nat) (f : CmdInst → CmdInst) : (updCmd s i f).cistern = s.cistern := rfl
@[simp] theorem updCmd_records (i : Nat) (f : CmdInst → CmdInst) : (updCmd s i f).records = s.records := rfl
@[simp] theorem updCmd_early (i : Nat) (f : CmdInst → CmdInst) : (updCmd s i f).early = s.early := rfl
@[simp] theorem updCmd_near (i : Nat) (f : CmdInst → CmdInst) : (updCmd s i f).near = s.near := rfl
@[simp] theorem updCmd_far (i : Nat) (f : CmdInst → CmdInst) : (updCmd s i f).far = s.far := rfl
@[simp] theorem updCmd_thermal (i : Nat) (f : CmdInst → CmdInst) : (updCmd s i f).thermal = s.thermal := rfl
@[simp] theorem updCmd_erg (i : Nat) (f : CmdInst → CmdInst) : (updCmd s i f).erg = s.erg := rfl
@[simp] theorem updCmd_mtr (i : Nat) (f : CmdInst → CmdInst) : (updCmd s i f).mtr = s.mtr := rfl
@[simp] theorem updCmd_trc (i : Nat) (f : CmdInst → CmdInst) : (updCmd s i f).trc = s.trc := rfl
@[simp] theorem updCmd_mgmt (i : Nat) (f : CmdInst → CmdInst) : (updCmd s i f).mgmt = s.mgmt := rfl
@[simp] theorem updCmd_csr (i : Nat) (f : CmdInst → CmdInst) : (updCmd s i f).csr = s.csr := rfl
@[simp] theorem updCmd_cadNack (i : Nat) (f : CmdInst → CmdInst) : (updCmd s i f).cadNack = s.cadNack := rfl
@[simp] theorem updCmd_portViols (i : Nat) (f : CmdInst → CmdInst) : (updCmd s i f).portViols = s.portViols := rfl
@[simp] theorem updCmd_big (i : Nat) (f : CmdInst → CmdInst) : (updCmd s i f).big = s.big := rfl
@[simp] theorem updCmd_rng (i : Nat) (f : CmdInst → CmdInst) : (updCmd s i f).rng = s.rng := rfl
@[simp] theorem updCmd_pending (i : Nat) (f : CmdInst → CmdInst) : (updCmd s i f).pending = s.pending := rfl

@[simp] theorem updMbx_time (i : Nat) (f : Mbx → Mbx) : (updMbx s i f).time = s.time := rfl
@[simp] theorem updMbx_keep (i : Nat) (f : Mbx → Mbx) : (updMbx s i f).keep = ({ s.keep with mbx := updAt s.keep.mbx i f }) := rfl
@[simp] theorem updMbx_belfry (i : Nat) (f : Mbx → Mbx) : (updMbx s i f).belfry = s.belfry := rfl
@[simp] theorem updMbx_fuses (i : Nat) (f : Mbx → Mbx) : (updMbx s i f).fuses = s.fuses := rfl
@[simp] theorem updMbx_built (i : Nat) (f : Mbx → Mbx) : (updMbx s i f).built = s.built := rfl
@[simp] theorem updMbx_boot (i : Nat) (f : Mbx → Mbx) : (updMbx s i f).boot = s.boot := rfl
@[simp] theorem updMbx_pads (i : Nat) (f : Mbx → Mbx) : (updMbx s i f).pads = s.pads := rfl
@[simp] theorem updMbx_image (i : Nat) (f : Mbx → Mbx) : (updMbx s i f).image = s.image := rfl
@[simp] theorem updMbx_imageHash (i : Nat) (f : Mbx → Mbx) : (updMbx s i f).imageHash = s.imageHash := rfl
@[simp] theorem updMbx_imageSeq (i : Nat) (f : Mbx → Mbx) : (updMbx s i f).imageSeq = s.imageSeq := rfl
@[simp] theorem updMbx_imageBuild (i : Nat) (f : Mbx → Mbx) : (updMbx s i f).imageBuild = s.imageBuild := rfl
@[simp] theorem updMbx_imageFlags (i : Nat) (f : Mbx → Mbx) : (updMbx s i f).imageFlags = s.imageFlags := rfl
@[simp] theorem updMbx_imageKey (i : Nat) (f : Mbx → Mbx) : (updMbx s i f).imageKey = s.imageKey := rfl
@[simp] theorem updMbx_imageSvn (i : Nat) (f : Mbx → Mbx) : (updMbx s i f).imageSvn = s.imageSvn := rfl
@[simp] theorem updMbx_nvm (i : Nat) (f : Mbx → Mbx) : (updMbx s i f).nvm = s.nvm := rfl
@[simp] theorem updMbx_parts (i : Nat) (f : Mbx → Mbx) : (updMbx s i f).parts = s.parts := rfl
@[simp] theorem updMbx_tiles (i : Nat) (f : Mbx → Mbx) : (updMbx s i f).tiles = s.tiles := rfl
@[simp] theorem updMbx_spires (i : Nat) (f : Mbx → Mbx) : (updMbx s i f).spires = s.spires := rfl
@[simp] theorem updMbx_domes (i : Nat) (f : Mbx → Mbx) : (updMbx s i f).domes = s.domes := rfl
@[simp] theorem updMbx_ops (i : Nat) (f : Mbx → Mbx) : (updMbx s i f).ops = s.ops := rfl
@[simp] theorem updMbx_opSeq (i : Nat) (f : Mbx → Mbx) : (updMbx s i f).opSeq = s.opSeq := rfl
@[simp] theorem updMbx_tickets (i : Nat) (f : Mbx → Mbx) : (updMbx s i f).tickets = s.tickets := rfl
@[simp] theorem updMbx_samples (i : Nat) (f : Mbx → Mbx) : (updMbx s i f).samples = s.samples := rfl
@[simp] theorem updMbx_engines (i : Nat) (f : Mbx → Mbx) : (updMbx s i f).engines = s.engines := rfl
@[simp] theorem updMbx_streams (i : Nat) (f : Mbx → Mbx) : (updMbx s i f).streams = s.streams := rfl
@[simp] theorem updMbx_lastHdr (i : Nat) (f : Mbx → Mbx) : (updMbx s i f).lastHdr = s.lastHdr := rfl
@[simp] theorem updMbx_wkey (i : Nat) (f : Mbx → Mbx) : (updMbx s i f).wkey = s.wkey := rfl
@[simp] theorem updMbx_hang (i : Nat) (f : Mbx → Mbx) : (updMbx s i f).hang = s.hang := rfl
@[simp] theorem updMbx_tallies (i : Nat) (f : Mbx → Mbx) : (updMbx s i f).tallies = s.tallies := rfl
@[simp] theorem updMbx_tallyQ (i : Nat) (f : Mbx → Mbx) : (updMbx s i f).tallyQ = s.tallyQ := rfl
@[simp] theorem updMbx_ports (i : Nat) (f : Mbx → Mbx) : (updMbx s i f).ports = s.ports := rfl
@[simp] theorem updMbx_seals (i : Nat) (f : Mbx → Mbx) : (updMbx s i f).seals = s.seals := rfl
@[simp] theorem updMbx_sealMis (i : Nat) (f : Mbx → Mbx) : (updMbx s i f).sealMis = s.sealMis := rfl
@[simp] theorem updMbx_sealMatch (i : Nat) (f : Mbx → Mbx) : (updMbx s i f).sealMatch = s.sealMatch := rfl
@[simp] theorem updMbx_launch (i : Nat) (f : Mbx → Mbx) : (updMbx s i f).launch = s.launch := rfl
@[simp] theorem updMbx_attQ (i : Nat) (f : Mbx → Mbx) : (updMbx s i f).attQ = s.attQ := rfl
@[simp] theorem updMbx_peerRecs (i : Nat) (f : Mbx → Mbx) : (updMbx s i f).peerRecs = s.peerRecs := rfl
@[simp] theorem updMbx_peerTds (i : Nat) (f : Mbx → Mbx) : (updMbx s i f).peerTds = s.peerTds := rfl
@[simp] theorem updMbx_caravan (i : Nat) (f : Mbx → Mbx) : (updMbx s i f).caravan = s.caravan := rfl
@[simp] theorem updMbx_cistern (i : Nat) (f : Mbx → Mbx) : (updMbx s i f).cistern = s.cistern := rfl
@[simp] theorem updMbx_records (i : Nat) (f : Mbx → Mbx) : (updMbx s i f).records = s.records := rfl
@[simp] theorem updMbx_early (i : Nat) (f : Mbx → Mbx) : (updMbx s i f).early = s.early := rfl
@[simp] theorem updMbx_near (i : Nat) (f : Mbx → Mbx) : (updMbx s i f).near = s.near := rfl
@[simp] theorem updMbx_far (i : Nat) (f : Mbx → Mbx) : (updMbx s i f).far = s.far := rfl
@[simp] theorem updMbx_thermal (i : Nat) (f : Mbx → Mbx) : (updMbx s i f).thermal = s.thermal := rfl
@[simp] theorem updMbx_erg (i : Nat) (f : Mbx → Mbx) : (updMbx s i f).erg = s.erg := rfl
@[simp] theorem updMbx_mtr (i : Nat) (f : Mbx → Mbx) : (updMbx s i f).mtr = s.mtr := rfl
@[simp] theorem updMbx_trc (i : Nat) (f : Mbx → Mbx) : (updMbx s i f).trc = s.trc := rfl
@[simp] theorem updMbx_mgmt (i : Nat) (f : Mbx → Mbx) : (updMbx s i f).mgmt = s.mgmt := rfl
@[simp] theorem updMbx_csr (i : Nat) (f : Mbx → Mbx) : (updMbx s i f).csr = s.csr := rfl
@[simp] theorem updMbx_cadNack (i : Nat) (f : Mbx → Mbx) : (updMbx s i f).cadNack = s.cadNack := rfl
@[simp] theorem updMbx_portViols (i : Nat) (f : Mbx → Mbx) : (updMbx s i f).portViols = s.portViols := rfl
@[simp] theorem updMbx_big (i : Nat) (f : Mbx → Mbx) : (updMbx s i f).big = s.big := rfl
@[simp] theorem updMbx_rng (i : Nat) (f : Mbx → Mbx) : (updMbx s i f).rng = s.rng := rfl
@[simp] theorem updMbx_pending (i : Nat) (f : Mbx → Mbx) : (updMbx s i f).pending = s.pending := rfl

@[simp] theorem alert_time (b : Nat) : (alert s b).time = s.time := rfl
@[simp] theorem alert_keep (b : Nat) : (alert s b).keep = ({ s.keep with alert := s.keep.alert ||| BitVec.ofNat 12 (2 ^ b) }) := rfl
@[simp] theorem alert_belfry (b : Nat) : (alert s b).belfry = s.belfry := rfl
@[simp] theorem alert_fuses (b : Nat) : (alert s b).fuses = s.fuses := rfl
@[simp] theorem alert_built (b : Nat) : (alert s b).built = s.built := rfl
@[simp] theorem alert_boot (b : Nat) : (alert s b).boot = s.boot := rfl
@[simp] theorem alert_pads (b : Nat) : (alert s b).pads = s.pads := rfl
@[simp] theorem alert_image (b : Nat) : (alert s b).image = s.image := rfl
@[simp] theorem alert_imageHash (b : Nat) : (alert s b).imageHash = s.imageHash := rfl
@[simp] theorem alert_imageSeq (b : Nat) : (alert s b).imageSeq = s.imageSeq := rfl
@[simp] theorem alert_imageBuild (b : Nat) : (alert s b).imageBuild = s.imageBuild := rfl
@[simp] theorem alert_imageFlags (b : Nat) : (alert s b).imageFlags = s.imageFlags := rfl
@[simp] theorem alert_imageKey (b : Nat) : (alert s b).imageKey = s.imageKey := rfl
@[simp] theorem alert_imageSvn (b : Nat) : (alert s b).imageSvn = s.imageSvn := rfl
@[simp] theorem alert_nvm (b : Nat) : (alert s b).nvm = s.nvm := rfl
@[simp] theorem alert_parts (b : Nat) : (alert s b).parts = s.parts := rfl
@[simp] theorem alert_tiles (b : Nat) : (alert s b).tiles = s.tiles := rfl
@[simp] theorem alert_spires (b : Nat) : (alert s b).spires = s.spires := rfl
@[simp] theorem alert_domes (b : Nat) : (alert s b).domes = s.domes := rfl
@[simp] theorem alert_ops (b : Nat) : (alert s b).ops = s.ops := rfl
@[simp] theorem alert_opSeq (b : Nat) : (alert s b).opSeq = s.opSeq := rfl
@[simp] theorem alert_tickets (b : Nat) : (alert s b).tickets = s.tickets := rfl
@[simp] theorem alert_samples (b : Nat) : (alert s b).samples = s.samples := rfl
@[simp] theorem alert_engines (b : Nat) : (alert s b).engines = s.engines := rfl
@[simp] theorem alert_streams (b : Nat) : (alert s b).streams = s.streams := rfl
@[simp] theorem alert_lastHdr (b : Nat) : (alert s b).lastHdr = s.lastHdr := rfl
@[simp] theorem alert_wkey (b : Nat) : (alert s b).wkey = s.wkey := rfl
@[simp] theorem alert_hang (b : Nat) : (alert s b).hang = s.hang := rfl
@[simp] theorem alert_tallies (b : Nat) : (alert s b).tallies = s.tallies := rfl
@[simp] theorem alert_tallyQ (b : Nat) : (alert s b).tallyQ = s.tallyQ := rfl
@[simp] theorem alert_ports (b : Nat) : (alert s b).ports = s.ports := rfl
@[simp] theorem alert_seals (b : Nat) : (alert s b).seals = s.seals := rfl
@[simp] theorem alert_sealMis (b : Nat) : (alert s b).sealMis = s.sealMis := rfl
@[simp] theorem alert_sealMatch (b : Nat) : (alert s b).sealMatch = s.sealMatch := rfl
@[simp] theorem alert_launch (b : Nat) : (alert s b).launch = s.launch := rfl
@[simp] theorem alert_attQ (b : Nat) : (alert s b).attQ = s.attQ := rfl
@[simp] theorem alert_peerRecs (b : Nat) : (alert s b).peerRecs = s.peerRecs := rfl
@[simp] theorem alert_peerTds (b : Nat) : (alert s b).peerTds = s.peerTds := rfl
@[simp] theorem alert_caravan (b : Nat) : (alert s b).caravan = s.caravan := rfl
@[simp] theorem alert_cistern (b : Nat) : (alert s b).cistern = s.cistern := rfl
@[simp] theorem alert_records (b : Nat) : (alert s b).records = s.records := rfl
@[simp] theorem alert_early (b : Nat) : (alert s b).early = s.early := rfl
@[simp] theorem alert_near (b : Nat) : (alert s b).near = s.near := rfl
@[simp] theorem alert_far (b : Nat) : (alert s b).far = s.far := rfl
@[simp] theorem alert_thermal (b : Nat) : (alert s b).thermal = s.thermal := rfl
@[simp] theorem alert_erg (b : Nat) : (alert s b).erg = s.erg := rfl
@[simp] theorem alert_mtr (b : Nat) : (alert s b).mtr = s.mtr := rfl
@[simp] theorem alert_trc (b : Nat) : (alert s b).trc = s.trc := rfl
@[simp] theorem alert_mgmt (b : Nat) : (alert s b).mgmt = s.mgmt := rfl
@[simp] theorem alert_csr (b : Nat) : (alert s b).csr = s.csr := rfl
@[simp] theorem alert_cadNack (b : Nat) : (alert s b).cadNack = s.cadNack := rfl
@[simp] theorem alert_portViols (b : Nat) : (alert s b).portViols = s.portViols := rfl
@[simp] theorem alert_big (b : Nat) : (alert s b).big = s.big := rfl
@[simp] theorem alert_rng (b : Nat) : (alert s b).rng = s.rng := rfl
@[simp] theorem alert_pending (b : Nat) : (alert s b).pending = s.pending := rfl

@[simp] theorem nearPush_time (i : NearItem) : (nearPush s i).time = s.time := rfl
@[simp] theorem nearPush_keep (i : NearItem) : (nearPush s i).keep = s.keep := rfl
@[simp] theorem nearPush_belfry (i : NearItem) : (nearPush s i).belfry = s.belfry := rfl
@[simp] theorem nearPush_fuses (i : NearItem) : (nearPush s i).fuses = s.fuses := rfl
@[simp] theorem nearPush_built (i : NearItem) : (nearPush s i).built = s.built := rfl
@[simp] theorem nearPush_boot (i : NearItem) : (nearPush s i).boot = s.boot := rfl
@[simp] theorem nearPush_pads (i : NearItem) : (nearPush s i).pads = s.pads := rfl
@[simp] theorem nearPush_image (i : NearItem) : (nearPush s i).image = s.image := rfl
@[simp] theorem nearPush_imageHash (i : NearItem) : (nearPush s i).imageHash = s.imageHash := rfl
@[simp] theorem nearPush_imageSeq (i : NearItem) : (nearPush s i).imageSeq = s.imageSeq := rfl
@[simp] theorem nearPush_imageBuild (i : NearItem) : (nearPush s i).imageBuild = s.imageBuild := rfl
@[simp] theorem nearPush_imageFlags (i : NearItem) : (nearPush s i).imageFlags = s.imageFlags := rfl
@[simp] theorem nearPush_imageKey (i : NearItem) : (nearPush s i).imageKey = s.imageKey := rfl
@[simp] theorem nearPush_imageSvn (i : NearItem) : (nearPush s i).imageSvn = s.imageSvn := rfl
@[simp] theorem nearPush_nvm (i : NearItem) : (nearPush s i).nvm = s.nvm := rfl
@[simp] theorem nearPush_parts (i : NearItem) : (nearPush s i).parts = s.parts := rfl
@[simp] theorem nearPush_tiles (i : NearItem) : (nearPush s i).tiles = s.tiles := rfl
@[simp] theorem nearPush_spires (i : NearItem) : (nearPush s i).spires = s.spires := rfl
@[simp] theorem nearPush_domes (i : NearItem) : (nearPush s i).domes = s.domes := rfl
@[simp] theorem nearPush_ops (i : NearItem) : (nearPush s i).ops = s.ops := rfl
@[simp] theorem nearPush_opSeq (i : NearItem) : (nearPush s i).opSeq = s.opSeq := rfl
@[simp] theorem nearPush_tickets (i : NearItem) : (nearPush s i).tickets = s.tickets := rfl
@[simp] theorem nearPush_samples (i : NearItem) : (nearPush s i).samples = s.samples := rfl
@[simp] theorem nearPush_engines (i : NearItem) : (nearPush s i).engines = s.engines := rfl
@[simp] theorem nearPush_streams (i : NearItem) : (nearPush s i).streams = s.streams := rfl
@[simp] theorem nearPush_lastHdr (i : NearItem) : (nearPush s i).lastHdr = s.lastHdr := rfl
@[simp] theorem nearPush_wkey (i : NearItem) : (nearPush s i).wkey = s.wkey := rfl
@[simp] theorem nearPush_hang (i : NearItem) : (nearPush s i).hang = s.hang := rfl
@[simp] theorem nearPush_tallies (i : NearItem) : (nearPush s i).tallies = s.tallies := rfl
@[simp] theorem nearPush_tallyQ (i : NearItem) : (nearPush s i).tallyQ = s.tallyQ := rfl
@[simp] theorem nearPush_ports (i : NearItem) : (nearPush s i).ports = s.ports := rfl
@[simp] theorem nearPush_seals (i : NearItem) : (nearPush s i).seals = s.seals := rfl
@[simp] theorem nearPush_sealMis (i : NearItem) : (nearPush s i).sealMis = s.sealMis := rfl
@[simp] theorem nearPush_sealMatch (i : NearItem) : (nearPush s i).sealMatch = s.sealMatch := rfl
@[simp] theorem nearPush_launch (i : NearItem) : (nearPush s i).launch = s.launch := rfl
@[simp] theorem nearPush_attQ (i : NearItem) : (nearPush s i).attQ = s.attQ := rfl
@[simp] theorem nearPush_peerRecs (i : NearItem) : (nearPush s i).peerRecs = s.peerRecs := rfl
@[simp] theorem nearPush_peerTds (i : NearItem) : (nearPush s i).peerTds = s.peerTds := rfl
@[simp] theorem nearPush_caravan (i : NearItem) : (nearPush s i).caravan = s.caravan := rfl
@[simp] theorem nearPush_cistern (i : NearItem) : (nearPush s i).cistern = s.cistern := rfl
@[simp] theorem nearPush_records (i : NearItem) : (nearPush s i).records = s.records := rfl
@[simp] theorem nearPush_early (i : NearItem) : (nearPush s i).early = s.early := rfl
@[simp] theorem nearPush_near (i : NearItem) : (nearPush s i).near = ({ s.near with waiting := s.near.waiting ++ [i] }) := rfl
@[simp] theorem nearPush_far (i : NearItem) : (nearPush s i).far = s.far := rfl
@[simp] theorem nearPush_thermal (i : NearItem) : (nearPush s i).thermal = s.thermal := rfl
@[simp] theorem nearPush_erg (i : NearItem) : (nearPush s i).erg = s.erg := rfl
@[simp] theorem nearPush_mtr (i : NearItem) : (nearPush s i).mtr = s.mtr := rfl
@[simp] theorem nearPush_trc (i : NearItem) : (nearPush s i).trc = s.trc := rfl
@[simp] theorem nearPush_mgmt (i : NearItem) : (nearPush s i).mgmt = s.mgmt := rfl
@[simp] theorem nearPush_csr (i : NearItem) : (nearPush s i).csr = s.csr := rfl
@[simp] theorem nearPush_cadNack (i : NearItem) : (nearPush s i).cadNack = s.cadNack := rfl
@[simp] theorem nearPush_portViols (i : NearItem) : (nearPush s i).portViols = s.portViols := rfl
@[simp] theorem nearPush_big (i : NearItem) : (nearPush s i).big = s.big := rfl
@[simp] theorem nearPush_rng (i : NearItem) : (nearPush s i).rng = s.rng := rfl
@[simp] theorem nearPush_pending (i : NearItem) : (nearPush s i).pending = s.pending := rfl

@[simp] theorem updCis_time (f : Cistern → Cistern) : (updCis s f).time = s.time := rfl
@[simp] theorem updCis_keep (f : Cistern → Cistern) : (updCis s f).keep = s.keep := rfl
@[simp] theorem updCis_belfry (f : Cistern → Cistern) : (updCis s f).belfry = s.belfry := rfl
@[simp] theorem updCis_fuses (f : Cistern → Cistern) : (updCis s f).fuses = s.fuses := rfl
@[simp] theorem updCis_built (f : Cistern → Cistern) : (updCis s f).built = s.built := rfl
@[simp] theorem updCis_boot (f : Cistern → Cistern) : (updCis s f).boot = s.boot := rfl
@[simp] theorem updCis_pads (f : Cistern → Cistern) : (updCis s f).pads = s.pads := rfl
@[simp] theorem updCis_image (f : Cistern → Cistern) : (updCis s f).image = s.image := rfl
@[simp] theorem updCis_imageHash (f : Cistern → Cistern) : (updCis s f).imageHash = s.imageHash := rfl
@[simp] theorem updCis_imageSeq (f : Cistern → Cistern) : (updCis s f).imageSeq = s.imageSeq := rfl
@[simp] theorem updCis_imageBuild (f : Cistern → Cistern) : (updCis s f).imageBuild = s.imageBuild := rfl
@[simp] theorem updCis_imageFlags (f : Cistern → Cistern) : (updCis s f).imageFlags = s.imageFlags := rfl
@[simp] theorem updCis_imageKey (f : Cistern → Cistern) : (updCis s f).imageKey = s.imageKey := rfl
@[simp] theorem updCis_imageSvn (f : Cistern → Cistern) : (updCis s f).imageSvn = s.imageSvn := rfl
@[simp] theorem updCis_nvm (f : Cistern → Cistern) : (updCis s f).nvm = s.nvm := rfl
@[simp] theorem updCis_parts (f : Cistern → Cistern) : (updCis s f).parts = s.parts := rfl
@[simp] theorem updCis_tiles (f : Cistern → Cistern) : (updCis s f).tiles = s.tiles := rfl
@[simp] theorem updCis_spires (f : Cistern → Cistern) : (updCis s f).spires = s.spires := rfl
@[simp] theorem updCis_domes (f : Cistern → Cistern) : (updCis s f).domes = s.domes := rfl
@[simp] theorem updCis_ops (f : Cistern → Cistern) : (updCis s f).ops = s.ops := rfl
@[simp] theorem updCis_opSeq (f : Cistern → Cistern) : (updCis s f).opSeq = s.opSeq := rfl
@[simp] theorem updCis_tickets (f : Cistern → Cistern) : (updCis s f).tickets = s.tickets := rfl
@[simp] theorem updCis_samples (f : Cistern → Cistern) : (updCis s f).samples = s.samples := rfl
@[simp] theorem updCis_engines (f : Cistern → Cistern) : (updCis s f).engines = s.engines := rfl
@[simp] theorem updCis_streams (f : Cistern → Cistern) : (updCis s f).streams = s.streams := rfl
@[simp] theorem updCis_lastHdr (f : Cistern → Cistern) : (updCis s f).lastHdr = s.lastHdr := rfl
@[simp] theorem updCis_wkey (f : Cistern → Cistern) : (updCis s f).wkey = s.wkey := rfl
@[simp] theorem updCis_hang (f : Cistern → Cistern) : (updCis s f).hang = s.hang := rfl
@[simp] theorem updCis_tallies (f : Cistern → Cistern) : (updCis s f).tallies = s.tallies := rfl
@[simp] theorem updCis_tallyQ (f : Cistern → Cistern) : (updCis s f).tallyQ = s.tallyQ := rfl
@[simp] theorem updCis_ports (f : Cistern → Cistern) : (updCis s f).ports = s.ports := rfl
@[simp] theorem updCis_seals (f : Cistern → Cistern) : (updCis s f).seals = s.seals := rfl
@[simp] theorem updCis_sealMis (f : Cistern → Cistern) : (updCis s f).sealMis = s.sealMis := rfl
@[simp] theorem updCis_sealMatch (f : Cistern → Cistern) : (updCis s f).sealMatch = s.sealMatch := rfl
@[simp] theorem updCis_launch (f : Cistern → Cistern) : (updCis s f).launch = s.launch := rfl
@[simp] theorem updCis_attQ (f : Cistern → Cistern) : (updCis s f).attQ = s.attQ := rfl
@[simp] theorem updCis_peerRecs (f : Cistern → Cistern) : (updCis s f).peerRecs = s.peerRecs := rfl
@[simp] theorem updCis_peerTds (f : Cistern → Cistern) : (updCis s f).peerTds = s.peerTds := rfl
@[simp] theorem updCis_caravan (f : Cistern → Cistern) : (updCis s f).caravan = s.caravan := rfl
@[simp] theorem updCis_cistern (f : Cistern → Cistern) : (updCis s f).cistern = (f s.cistern) := rfl
@[simp] theorem updCis_records (f : Cistern → Cistern) : (updCis s f).records = s.records := rfl
@[simp] theorem updCis_early (f : Cistern → Cistern) : (updCis s f).early = s.early := rfl
@[simp] theorem updCis_near (f : Cistern → Cistern) : (updCis s f).near = s.near := rfl
@[simp] theorem updCis_far (f : Cistern → Cistern) : (updCis s f).far = s.far := rfl
@[simp] theorem updCis_thermal (f : Cistern → Cistern) : (updCis s f).thermal = s.thermal := rfl
@[simp] theorem updCis_erg (f : Cistern → Cistern) : (updCis s f).erg = s.erg := rfl
@[simp] theorem updCis_mtr (f : Cistern → Cistern) : (updCis s f).mtr = s.mtr := rfl
@[simp] theorem updCis_trc (f : Cistern → Cistern) : (updCis s f).trc = s.trc := rfl
@[simp] theorem updCis_mgmt (f : Cistern → Cistern) : (updCis s f).mgmt = s.mgmt := rfl
@[simp] theorem updCis_csr (f : Cistern → Cistern) : (updCis s f).csr = s.csr := rfl
@[simp] theorem updCis_cadNack (f : Cistern → Cistern) : (updCis s f).cadNack = s.cadNack := rfl
@[simp] theorem updCis_portViols (f : Cistern → Cistern) : (updCis s f).portViols = s.portViols := rfl
@[simp] theorem updCis_big (f : Cistern → Cistern) : (updCis s f).big = s.big := rfl
@[simp] theorem updCis_rng (f : Cistern → Cistern) : (updCis s f).rng = s.rng := rfl
@[simp] theorem updCis_pending (f : Cistern → Cistern) : (updCis s f).pending = s.pending := rfl

@[simp] theorem updMgmt_time (f : Mgmt → Mgmt) : (updMgmt s f).time = s.time := rfl
@[simp] theorem updMgmt_keep (f : Mgmt → Mgmt) : (updMgmt s f).keep = s.keep := rfl
@[simp] theorem updMgmt_belfry (f : Mgmt → Mgmt) : (updMgmt s f).belfry = s.belfry := rfl
@[simp] theorem updMgmt_fuses (f : Mgmt → Mgmt) : (updMgmt s f).fuses = s.fuses := rfl
@[simp] theorem updMgmt_built (f : Mgmt → Mgmt) : (updMgmt s f).built = s.built := rfl
@[simp] theorem updMgmt_boot (f : Mgmt → Mgmt) : (updMgmt s f).boot = s.boot := rfl
@[simp] theorem updMgmt_pads (f : Mgmt → Mgmt) : (updMgmt s f).pads = s.pads := rfl
@[simp] theorem updMgmt_image (f : Mgmt → Mgmt) : (updMgmt s f).image = s.image := rfl
@[simp] theorem updMgmt_imageHash (f : Mgmt → Mgmt) : (updMgmt s f).imageHash = s.imageHash := rfl
@[simp] theorem updMgmt_imageSeq (f : Mgmt → Mgmt) : (updMgmt s f).imageSeq = s.imageSeq := rfl
@[simp] theorem updMgmt_imageBuild (f : Mgmt → Mgmt) : (updMgmt s f).imageBuild = s.imageBuild := rfl
@[simp] theorem updMgmt_imageFlags (f : Mgmt → Mgmt) : (updMgmt s f).imageFlags = s.imageFlags := rfl
@[simp] theorem updMgmt_imageKey (f : Mgmt → Mgmt) : (updMgmt s f).imageKey = s.imageKey := rfl
@[simp] theorem updMgmt_imageSvn (f : Mgmt → Mgmt) : (updMgmt s f).imageSvn = s.imageSvn := rfl
@[simp] theorem updMgmt_nvm (f : Mgmt → Mgmt) : (updMgmt s f).nvm = s.nvm := rfl
@[simp] theorem updMgmt_parts (f : Mgmt → Mgmt) : (updMgmt s f).parts = s.parts := rfl
@[simp] theorem updMgmt_tiles (f : Mgmt → Mgmt) : (updMgmt s f).tiles = s.tiles := rfl
@[simp] theorem updMgmt_spires (f : Mgmt → Mgmt) : (updMgmt s f).spires = s.spires := rfl
@[simp] theorem updMgmt_domes (f : Mgmt → Mgmt) : (updMgmt s f).domes = s.domes := rfl
@[simp] theorem updMgmt_ops (f : Mgmt → Mgmt) : (updMgmt s f).ops = s.ops := rfl
@[simp] theorem updMgmt_opSeq (f : Mgmt → Mgmt) : (updMgmt s f).opSeq = s.opSeq := rfl
@[simp] theorem updMgmt_tickets (f : Mgmt → Mgmt) : (updMgmt s f).tickets = s.tickets := rfl
@[simp] theorem updMgmt_samples (f : Mgmt → Mgmt) : (updMgmt s f).samples = s.samples := rfl
@[simp] theorem updMgmt_engines (f : Mgmt → Mgmt) : (updMgmt s f).engines = s.engines := rfl
@[simp] theorem updMgmt_streams (f : Mgmt → Mgmt) : (updMgmt s f).streams = s.streams := rfl
@[simp] theorem updMgmt_lastHdr (f : Mgmt → Mgmt) : (updMgmt s f).lastHdr = s.lastHdr := rfl
@[simp] theorem updMgmt_wkey (f : Mgmt → Mgmt) : (updMgmt s f).wkey = s.wkey := rfl
@[simp] theorem updMgmt_hang (f : Mgmt → Mgmt) : (updMgmt s f).hang = s.hang := rfl
@[simp] theorem updMgmt_tallies (f : Mgmt → Mgmt) : (updMgmt s f).tallies = s.tallies := rfl
@[simp] theorem updMgmt_tallyQ (f : Mgmt → Mgmt) : (updMgmt s f).tallyQ = s.tallyQ := rfl
@[simp] theorem updMgmt_ports (f : Mgmt → Mgmt) : (updMgmt s f).ports = s.ports := rfl
@[simp] theorem updMgmt_seals (f : Mgmt → Mgmt) : (updMgmt s f).seals = s.seals := rfl
@[simp] theorem updMgmt_sealMis (f : Mgmt → Mgmt) : (updMgmt s f).sealMis = s.sealMis := rfl
@[simp] theorem updMgmt_sealMatch (f : Mgmt → Mgmt) : (updMgmt s f).sealMatch = s.sealMatch := rfl
@[simp] theorem updMgmt_launch (f : Mgmt → Mgmt) : (updMgmt s f).launch = s.launch := rfl
@[simp] theorem updMgmt_attQ (f : Mgmt → Mgmt) : (updMgmt s f).attQ = s.attQ := rfl
@[simp] theorem updMgmt_peerRecs (f : Mgmt → Mgmt) : (updMgmt s f).peerRecs = s.peerRecs := rfl
@[simp] theorem updMgmt_peerTds (f : Mgmt → Mgmt) : (updMgmt s f).peerTds = s.peerTds := rfl
@[simp] theorem updMgmt_caravan (f : Mgmt → Mgmt) : (updMgmt s f).caravan = s.caravan := rfl
@[simp] theorem updMgmt_cistern (f : Mgmt → Mgmt) : (updMgmt s f).cistern = s.cistern := rfl
@[simp] theorem updMgmt_records (f : Mgmt → Mgmt) : (updMgmt s f).records = s.records := rfl
@[simp] theorem updMgmt_early (f : Mgmt → Mgmt) : (updMgmt s f).early = s.early := rfl
@[simp] theorem updMgmt_near (f : Mgmt → Mgmt) : (updMgmt s f).near = s.near := rfl
@[simp] theorem updMgmt_far (f : Mgmt → Mgmt) : (updMgmt s f).far = s.far := rfl
@[simp] theorem updMgmt_thermal (f : Mgmt → Mgmt) : (updMgmt s f).thermal = s.thermal := rfl
@[simp] theorem updMgmt_erg (f : Mgmt → Mgmt) : (updMgmt s f).erg = s.erg := rfl
@[simp] theorem updMgmt_mtr (f : Mgmt → Mgmt) : (updMgmt s f).mtr = s.mtr := rfl
@[simp] theorem updMgmt_trc (f : Mgmt → Mgmt) : (updMgmt s f).trc = s.trc := rfl
@[simp] theorem updMgmt_mgmt (f : Mgmt → Mgmt) : (updMgmt s f).mgmt = (f s.mgmt) := rfl
@[simp] theorem updMgmt_csr (f : Mgmt → Mgmt) : (updMgmt s f).csr = s.csr := rfl
@[simp] theorem updMgmt_cadNack (f : Mgmt → Mgmt) : (updMgmt s f).cadNack = s.cadNack := rfl
@[simp] theorem updMgmt_portViols (f : Mgmt → Mgmt) : (updMgmt s f).portViols = s.portViols := rfl
@[simp] theorem updMgmt_big (f : Mgmt → Mgmt) : (updMgmt s f).big = s.big := rfl
@[simp] theorem updMgmt_rng (f : Mgmt → Mgmt) : (updMgmt s f).rng = s.rng := rfl
@[simp] theorem updMgmt_pending (f : Mgmt → Mgmt) : (updMgmt s f).pending = s.pending := rfl

@[simp] theorem putTally_time (i : Nat) (x : Tally) : (putTally s i x).time = s.time := rfl
@[simp] theorem putTally_keep (i : Nat) (x : Tally) : (putTally s i x).keep = s.keep := rfl
@[simp] theorem putTally_belfry (i : Nat) (x : Tally) : (putTally s i x).belfry = s.belfry := rfl
@[simp] theorem putTally_fuses (i : Nat) (x : Tally) : (putTally s i x).fuses = s.fuses := rfl
@[simp] theorem putTally_built (i : Nat) (x : Tally) : (putTally s i x).built = s.built := rfl
@[simp] theorem putTally_boot (i : Nat) (x : Tally) : (putTally s i x).boot = s.boot := rfl
@[simp] theorem putTally_pads (i : Nat) (x : Tally) : (putTally s i x).pads = s.pads := rfl
@[simp] theorem putTally_image (i : Nat) (x : Tally) : (putTally s i x).image = s.image := rfl
@[simp] theorem putTally_imageHash (i : Nat) (x : Tally) : (putTally s i x).imageHash = s.imageHash := rfl
@[simp] theorem putTally_imageSeq (i : Nat) (x : Tally) : (putTally s i x).imageSeq = s.imageSeq := rfl
@[simp] theorem putTally_imageBuild (i : Nat) (x : Tally) : (putTally s i x).imageBuild = s.imageBuild := rfl
@[simp] theorem putTally_imageFlags (i : Nat) (x : Tally) : (putTally s i x).imageFlags = s.imageFlags := rfl
@[simp] theorem putTally_imageKey (i : Nat) (x : Tally) : (putTally s i x).imageKey = s.imageKey := rfl
@[simp] theorem putTally_imageSvn (i : Nat) (x : Tally) : (putTally s i x).imageSvn = s.imageSvn := rfl
@[simp] theorem putTally_nvm (i : Nat) (x : Tally) : (putTally s i x).nvm = s.nvm := rfl
@[simp] theorem putTally_parts (i : Nat) (x : Tally) : (putTally s i x).parts = s.parts := rfl
@[simp] theorem putTally_tiles (i : Nat) (x : Tally) : (putTally s i x).tiles = s.tiles := rfl
@[simp] theorem putTally_spires (i : Nat) (x : Tally) : (putTally s i x).spires = s.spires := rfl
@[simp] theorem putTally_domes (i : Nat) (x : Tally) : (putTally s i x).domes = s.domes := rfl
@[simp] theorem putTally_ops (i : Nat) (x : Tally) : (putTally s i x).ops = s.ops := rfl
@[simp] theorem putTally_opSeq (i : Nat) (x : Tally) : (putTally s i x).opSeq = s.opSeq := rfl
@[simp] theorem putTally_tickets (i : Nat) (x : Tally) : (putTally s i x).tickets = s.tickets := rfl
@[simp] theorem putTally_samples (i : Nat) (x : Tally) : (putTally s i x).samples = s.samples := rfl
@[simp] theorem putTally_engines (i : Nat) (x : Tally) : (putTally s i x).engines = s.engines := rfl
@[simp] theorem putTally_streams (i : Nat) (x : Tally) : (putTally s i x).streams = s.streams := rfl
@[simp] theorem putTally_lastHdr (i : Nat) (x : Tally) : (putTally s i x).lastHdr = s.lastHdr := rfl
@[simp] theorem putTally_wkey (i : Nat) (x : Tally) : (putTally s i x).wkey = s.wkey := rfl
@[simp] theorem putTally_hang (i : Nat) (x : Tally) : (putTally s i x).hang = s.hang := rfl
@[simp] theorem putTally_tallies (i : Nat) (x : Tally) : (putTally s i x).tallies = ((s.tallies.filter fun y => y.1 != i) ++ [(i, x)]) := rfl
@[simp] theorem putTally_tallyQ (i : Nat) (x : Tally) : (putTally s i x).tallyQ = s.tallyQ := rfl
@[simp] theorem putTally_ports (i : Nat) (x : Tally) : (putTally s i x).ports = s.ports := rfl
@[simp] theorem putTally_seals (i : Nat) (x : Tally) : (putTally s i x).seals = s.seals := rfl
@[simp] theorem putTally_sealMis (i : Nat) (x : Tally) : (putTally s i x).sealMis = s.sealMis := rfl
@[simp] theorem putTally_sealMatch (i : Nat) (x : Tally) : (putTally s i x).sealMatch = s.sealMatch := rfl
@[simp] theorem putTally_launch (i : Nat) (x : Tally) : (putTally s i x).launch = s.launch := rfl
@[simp] theorem putTally_attQ (i : Nat) (x : Tally) : (putTally s i x).attQ = s.attQ := rfl
@[simp] theorem putTally_peerRecs (i : Nat) (x : Tally) : (putTally s i x).peerRecs = s.peerRecs := rfl
@[simp] theorem putTally_peerTds (i : Nat) (x : Tally) : (putTally s i x).peerTds = s.peerTds := rfl
@[simp] theorem putTally_caravan (i : Nat) (x : Tally) : (putTally s i x).caravan = s.caravan := rfl
@[simp] theorem putTally_cistern (i : Nat) (x : Tally) : (putTally s i x).cistern = s.cistern := rfl
@[simp] theorem putTally_records (i : Nat) (x : Tally) : (putTally s i x).records = s.records := rfl
@[simp] theorem putTally_early (i : Nat) (x : Tally) : (putTally s i x).early = s.early := rfl
@[simp] theorem putTally_near (i : Nat) (x : Tally) : (putTally s i x).near = s.near := rfl
@[simp] theorem putTally_far (i : Nat) (x : Tally) : (putTally s i x).far = s.far := rfl
@[simp] theorem putTally_thermal (i : Nat) (x : Tally) : (putTally s i x).thermal = s.thermal := rfl
@[simp] theorem putTally_erg (i : Nat) (x : Tally) : (putTally s i x).erg = s.erg := rfl
@[simp] theorem putTally_mtr (i : Nat) (x : Tally) : (putTally s i x).mtr = s.mtr := rfl
@[simp] theorem putTally_trc (i : Nat) (x : Tally) : (putTally s i x).trc = s.trc := rfl
@[simp] theorem putTally_mgmt (i : Nat) (x : Tally) : (putTally s i x).mgmt = s.mgmt := rfl
@[simp] theorem putTally_csr (i : Nat) (x : Tally) : (putTally s i x).csr = s.csr := rfl
@[simp] theorem putTally_cadNack (i : Nat) (x : Tally) : (putTally s i x).cadNack = s.cadNack := rfl
@[simp] theorem putTally_portViols (i : Nat) (x : Tally) : (putTally s i x).portViols = s.portViols := rfl
@[simp] theorem putTally_big (i : Nat) (x : Tally) : (putTally s i x).big = s.big := rfl
@[simp] theorem putTally_rng (i : Nat) (x : Tally) : (putTally s i x).rng = s.rng := rfl
@[simp] theorem putTally_pending (i : Nat) (x : Tally) : (putTally s i x).pending = s.pending := rfl

end Sys2Proof.Machine
end

