-- ==== Sys2Proof/Laws/Frames.lean ====
section
/-! SUPPORT. From the frame of an operation to equations of the state's parts. -/

set_option Elab.async false

namespace Sys2Proof.Machine

variable {m : List Fld} {s t : State}

/-- Two states with the same parts are the same state. -/
theorem state_ext
    (h_time : t.time = s.time) (h_keep : t.keep = s.keep) (h_belfry : t.belfry = s.belfry) (h_fuses : t.fuses = s.fuses) (h_built :
    t.built = s.built) (h_boot : t.boot = s.boot) (h_pads : t.pads = s.pads) (h_image : t.image = s.image) (h_imageHash : t.imageHash
    = s.imageHash) (h_imageSeq : t.imageSeq = s.imageSeq) (h_imageBuild : t.imageBuild = s.imageBuild) (h_imageFlags : t.imageFlags =
    s.imageFlags) (h_imageKey : t.imageKey = s.imageKey) (h_imageSvn : t.imageSvn = s.imageSvn) (h_nvm : t.nvm = s.nvm) (h_parts :
    t.parts = s.parts) (h_tiles : t.tiles = s.tiles) (h_spires : t.spires = s.spires) (h_domes : t.domes = s.domes) (h_ops : t.ops =
    s.ops) (h_opSeq : t.opSeq = s.opSeq) (h_tickets : t.tickets = s.tickets) (h_samples : t.samples = s.samples) (h_engines :
    t.engines = s.engines) (h_streams : t.streams = s.streams) (h_lastHdr : t.lastHdr = s.lastHdr) (h_wkey : t.wkey = s.wkey) (h_hang
    : t.hang = s.hang) (h_tallies : t.tallies = s.tallies) (h_tallyQ : t.tallyQ = s.tallyQ) (h_ports : t.ports = s.ports) (h_seals :
    t.seals = s.seals) (h_sealMis : t.sealMis = s.sealMis) (h_sealMatch : t.sealMatch = s.sealMatch) (h_launch : t.launch = s.launch)
    (h_attQ : t.attQ = s.attQ) (h_peerRecs : t.peerRecs = s.peerRecs) (h_peerTds : t.peerTds = s.peerTds) (h_caravan : t.caravan =
    s.caravan) (h_cistern : t.cistern = s.cistern) (h_records : t.records = s.records) (h_early : t.early = s.early) (h_near : t.near
    = s.near) (h_far : t.far = s.far) (h_thermal : t.thermal = s.thermal) (h_erg : t.erg = s.erg) (h_mtr : t.mtr = s.mtr) (h_trc :
    t.trc = s.trc) (h_mgmt : t.mgmt = s.mgmt) (h_csr : t.csr = s.csr) (h_cadNack : t.cadNack = s.cadNack) (h_portViols : t.portViols =
    s.portViols) (h_big : t.big = s.big) (h_rng : t.rng = s.rng) (h_pending : t.pending = s.pending) : t = s := by
  cases t
  cases s
  simp only at *
  subst h_time h_keep h_belfry h_fuses h_built h_boot h_pads h_image h_imageHash h_imageSeq h_imageBuild h_imageFlags h_imageKey h_imageSvn h_nvm h_parts h_tiles h_spires h_domes h_ops h_opSeq h_tickets h_samples h_engines h_streams h_lastHdr h_wkey h_hang h_tallies h_tallyQ h_ports h_seals h_sealMis h_sealMatch h_launch h_attQ h_peerRecs h_peerTds h_caravan h_cistern h_records h_early h_near h_far h_thermal h_erg h_mtr h_trc h_mgmt h_csr h_cadNack h_portViols h_big h_rng h_pending
  rfl

/-- The whole `time`, where none of its groups is in the list. -/
theorem Same.time_eq (h : Same m s t)
    (h_tick : .tick ∉ m := by decide) (h_timeRun : .timeRun ∉ m := by decide) (h_time : .time ∉ m := by decide) : t.time = s.time := by
  have e_tick : t.time.tick = s.time.tick :=
    h .tick h_tick
  have e_timeRun : t.time.run = s.time.run :=
    h .timeRun h_timeRun
  have e_time : (t.time.trefOk, t.time.holdover, t.time.trefLost, t.time.ppsOk, t.time.ppsLost, t.time.ppsDrift, t.time.tickslip, t.time.ofsdrift, t.time.tsync, t.time.trefDiff, t.time.ppsLast, t.time.ppsPeriod, t.time.ppsSeen, t.time.alignWait, t.time.maxDev, t.time.domeSkew, t.time.spireSkew, t.time.domeLat, t.time.spireLat) =
      (s.time.trefOk, s.time.holdover, s.time.trefLost, s.time.ppsOk, s.time.ppsLost, s.time.ppsDrift, s.time.tickslip, s.time.ofsdrift, s.time.tsync, s.time.trefDiff, s.time.ppsLast, s.time.ppsPeriod, s.time.ppsSeen, s.time.alignWait, s.time.maxDev, s.time.domeSkew, s.time.spireSkew, s.time.domeLat, s.time.spireLat) :=
    h .time h_time
  cases ht : t.time
  cases hs : s.time
  simp only [ht, hs, Prod.mk.injEq] at e_tick e_timeRun e_time
  simp only [TimeSt.mk.injEq]
  exact ⟨e_tick, e_timeRun, e_time.1, e_time.2.1, e_time.2.2.1, e_time.2.2.2.1, e_time.2.2.2.2.1, e_time.2.2.2.2.2.1, e_time.2.2.2.2.2.2.1, e_time.2.2.2.2.2.2.2.1, e_time.2.2.2.2.2.2.2.2.1, e_time.2.2.2.2.2.2.2.2.2.1, e_time.2.2.2.2.2.2.2.2.2.2.1, e_time.2.2.2.2.2.2.2.2.2.2.2.1, e_time.2.2.2.2.2.2.2.2.2.2.2.2.1, e_time.2.2.2.2.2.2.2.2.2.2.2.2.2.1, e_time.2.2.2.2.2.2.2.2.2.2.2.2.2.2.1, e_time.2.2.2.2.2.2.2.2.2.2.2.2.2.2.2.1, e_time.2.2.2.2.2.2.2.2.2.2.2.2.2.2.2.2.1, e_time.2.2.2.2.2.2.2.2.2.2.2.2.2.2.2.2.2.1, e_time.2.2.2.2.2.2.2.2.2.2.2.2.2.2.2.2.2.2⟩

/-- The whole `keep`, where none of its groups is in the list. -/
theorem Same.keep_eq (h : Same m s t)
    (h_alert : .alert ∉ m := by decide) (h_acc : .acc ∉ m := by decide) (h_cmd : .cmd ∉ m := by decide) (h_mbx : .mbx ∉ m := by
    decide) (h_talloc : .talloc ∉ m := by decide) (h_units : .units ∉ m := by decide) (h_fault : .fault ∉ m := by decide) (h_locks :
    .locks ∉ m := by decide) (h_keep : .keep ∉ m := by decide) : t.keep = s.keep := by
  have e_alert : t.keep.alert = s.keep.alert :=
    h .alert h_alert
  have e_acc : (t.keep.accstat, t.keep.accCnt, t.keep.accLast) =
      (s.keep.accstat, s.keep.accCnt, s.keep.accLast) :=
    h .acc h_acc
  have e_cmd : t.keep.cmd = s.keep.cmd :=
    h .cmd h_cmd
  have e_mbx : t.keep.mbx = s.keep.mbx :=
    h .mbx h_mbx
  have e_talloc : t.keep.talloc = s.keep.talloc :=
    h .talloc h_talloc
  have e_units : (t.keep.unitEn, t.keep.unitHeld, t.keep.unitOff, t.keep.safe, t.keep.cfgpar) =
      (s.keep.unitEn, s.keep.unitHeld, s.keep.unitOff, s.keep.safe, s.keep.cfgpar) :=
    h .units h_units
  have e_fault : (t.keep.dieFault, t.keep.fault) =
      (s.keep.dieFault, s.keep.fault) :=
    h .fault h_fault
  have e_locks : (t.keep.lock, t.keep.locked, t.keep.hosttag, t.keep.hosttagLocked) =
      (s.keep.lock, s.keep.locked, s.keep.hosttag, s.keep.hosttagLocked) :=
    h .locks h_locks
  have e_keep : (t.keep.clkloss, t.keep.lostNow, t.keep.badPar, t.keep.kwr, t.keep.kwrTicks, t.keep.kwrCause, t.keep.draining, t.keep.drainLost, t.keep.lostSamples, t.keep.kwrDown, t.keep.readback, t.keep.shutdown) =
      (s.keep.clkloss, s.keep.lostNow, s.keep.badPar, s.keep.kwr, s.keep.kwrTicks, s.keep.kwrCause, s.keep.draining, s.keep.drainLost, s.keep.lostSamples, s.keep.kwrDown, s.keep.readback, s.keep.shutdown) :=
    h .keep h_keep
  cases ht : t.keep
  cases hs : s.keep
  simp only [ht, hs, Prod.mk.injEq] at e_alert e_acc e_cmd e_mbx e_talloc e_units e_fault e_locks e_keep
  simp only [KeepSt.mk.injEq]
  exact ⟨e_alert, e_keep.1, e_keep.2.1, e_units.1, e_units.2.1, e_units.2.2.1, e_units.2.2.2.2, e_keep.2.2.1, e_units.2.2.2.1, e_locks.1, e_locks.2.1, e_locks.2.2.1, e_locks.2.2.2, e_acc.1, e_acc.2.1, e_acc.2.2, e_keep.2.2.2.1, e_keep.2.2.2.2.1, e_keep.2.2.2.2.2.1, e_keep.2.2.2.2.2.2.1, e_keep.2.2.2.2.2.2.2.1, e_keep.2.2.2.2.2.2.2.2.1, e_keep.2.2.2.2.2.2.2.2.2.1, e_keep.2.2.2.2.2.2.2.2.2.2.1, e_keep.2.2.2.2.2.2.2.2.2.2.2, e_fault.1, e_fault.2, e_mbx, e_talloc, e_cmd⟩

/-- The whole `belfry`, where none of its groups is in the list. -/
theorem Same.belfry_eq (h : Same m s t)
    (h_belfryRun : .belfryRun ∉ m := by decide) (h_inputs : .inputs ∉ m := by decide) (h_cad : .cad ∉ m := by decide) (h_cmds : .cmds
    ∉ m := by decide) (h_belfry : .belfry ∉ m := by decide) : t.belfry = s.belfry := by
  have e_belfryRun : t.belfry.run = s.belfry.run :=
    h .belfryRun h_belfryRun
  have e_inputs : (t.belfry.inputs, t.belfry.carriedIn) =
      (s.belfry.inputs, s.belfry.carriedIn) :=
    h .inputs h_inputs
  have e_cad : t.belfry.cadFifo = s.belfry.cadFifo :=
    h .cad h_cad
  have e_cmds : t.belfry.cmds = s.belfry.cmds :=
    h .cmds h_cmds
  have e_belfry : (t.belfry.carried, t.belfry.lastInputs, t.belfry.cancelCnt, t.belfry.carryCnt, t.belfry.tickslipCnt, t.belfry.missCnt, t.belfry.ofsdriftCnt, t.belfry.cadCarry, t.belfry.cmdCarry, t.belfry.wcSets, t.belfry.wcCarry, t.belfry.timers, t.belfry.timersNow, t.belfry.disarmed, t.belfry.counts, t.belfry.tick) =
      (s.belfry.carried, s.belfry.lastInputs, s.belfry.cancelCnt, s.belfry.carryCnt, s.belfry.tickslipCnt, s.belfry.missCnt, s.belfry.ofsdriftCnt, s.belfry.cadCarry, s.belfry.cmdCarry, s.belfry.wcSets, s.belfry.wcCarry, s.belfry.timers, s.belfry.timersNow, s.belfry.disarmed, s.belfry.counts, s.belfry.tick) :=
    h .belfry h_belfry
  cases ht : t.belfry
  cases hs : s.belfry
  simp only [ht, hs, Prod.mk.injEq] at e_belfryRun e_inputs e_cad e_cmds e_belfry
  simp only [Belfry.mk.injEq]
  exact ⟨e_belfryRun, e_belfry.1, e_belfry.2.1, e_belfry.2.2.1, e_belfry.2.2.2.1, e_belfry.2.2.2.2.1, e_belfry.2.2.2.2.2.1, e_belfry.2.2.2.2.2.2.1, e_inputs.1, e_inputs.2, e_cad, e_belfry.2.2.2.2.2.2.2.1, e_cmds, e_belfry.2.2.2.2.2.2.2.2.1, e_belfry.2.2.2.2.2.2.2.2.2.1, e_belfry.2.2.2.2.2.2.2.2.2.2.1, e_belfry.2.2.2.2.2.2.2.2.2.2.2.1, e_belfry.2.2.2.2.2.2.2.2.2.2.2.2.1, e_belfry.2.2.2.2.2.2.2.2.2.2.2.2.2.1, e_belfry.2.2.2.2.2.2.2.2.2.2.2.2.2.2.1, e_belfry.2.2.2.2.2.2.2.2.2.2.2.2.2.2.2⟩

/-- The whole `cistern`, where none of its groups is in the list. -/
theorem Same.cistern_eq (h : Same m s t)
    (h_bytes : .bytes ∉ m := by decide) (h_cistern : .cistern ∉ m := by decide) : t.cistern = s.cistern := by
  have e_bytes : (t.cistern.data, t.cistern.check) =
      (s.cistern.data, s.cistern.check) :=
    h .bytes h_bytes
  have e_cistern : (t.cistern.filled, t.cistern.execBank, t.cistern.readBank, t.cistern.mirrorOk, t.cistern.ueSeen, t.cistern.unwrSeen, t.cistern.ceCnt, t.cistern.ueCnt, t.cistern.unwrCnt, t.cistern.scrubPass, t.cistern.scrubSuper, t.cistern.recDrop, t.cistern.wrstLost, t.cistern.banks, t.cistern.bcmd, t.cistern.scrubPos, t.cistern.scrubQ, t.cistern.superseded, t.cistern.testBank, t.cistern.found, t.cistern.linesRead, t.cistern.linesWritten, t.cistern.siroccoLines, t.cistern.last) =
      (s.cistern.filled, s.cistern.execBank, s.cistern.readBank, s.cistern.mirrorOk, s.cistern.ueSeen, s.cistern.unwrSeen, s.cistern.ceCnt, s.cistern.ueCnt, s.cistern.unwrCnt, s.cistern.scrubPass, s.cistern.scrubSuper, s.cistern.recDrop, s.cistern.wrstLost, s.cistern.banks, s.cistern.bcmd, s.cistern.scrubPos, s.cistern.scrubQ, s.cistern.superseded, s.cistern.testBank, s.cistern.found, s.cistern.linesRead, s.cistern.linesWritten, s.cistern.siroccoLines, s.cistern.last) :=
    h .cistern h_cistern
  cases ht : t.cistern
  cases hs : s.cistern
  simp only [ht, hs, Prod.mk.injEq] at e_bytes e_cistern
  simp only [Cistern.mk.injEq]
  exact ⟨e_bytes.1, e_bytes.2, e_cistern.1, e_cistern.2.1, e_cistern.2.2.1, e_cistern.2.2.2.1, e_cistern.2.2.2.2.1, e_cistern.2.2.2.2.2.1, e_cistern.2.2.2.2.2.2.1, e_cistern.2.2.2.2.2.2.2.1, e_cistern.2.2.2.2.2.2.2.2.1, e_cistern.2.2.2.2.2.2.2.2.2.1, e_cistern.2.2.2.2.2.2.2.2.2.2.1, e_cistern.2.2.2.2.2.2.2.2.2.2.2.1, e_cistern.2.2.2.2.2.2.2.2.2.2.2.2.1, e_cistern.2.2.2.2.2.2.2.2.2.2.2.2.2.1, e_cistern.2.2.2.2.2.2.2.2.2.2.2.2.2.2.1, e_cistern.2.2.2.2.2.2.2.2.2.2.2.2.2.2.2.1, e_cistern.2.2.2.2.2.2.2.2.2.2.2.2.2.2.2.2.1, e_cistern.2.2.2.2.2.2.2.2.2.2.2.2.2.2.2.2.2.1, e_cistern.2.2.2.2.2.2.2.2.2.2.2.2.2.2.2.2.2.2.1, e_cistern.2.2.2.2.2.2.2.2.2.2.2.2.2.2.2.2.2.2.2.1, e_cistern.2.2.2.2.2.2.2.2.2.2.2.2.2.2.2.2.2.2.2.2.1, e_cistern.2.2.2.2.2.2.2.2.2.2.2.2.2.2.2.2.2.2.2.2.2.1, e_cistern.2.2.2.2.2.2.2.2.2.2.2.2.2.2.2.2.2.2.2.2.2.2.1, e_cistern.2.2.2.2.2.2.2.2.2.2.2.2.2.2.2.2.2.2.2.2.2.2.2⟩

theorem Same.image_eq (h : Same m s t) (h_image : .image ∉ m := by decide) : t.image = s.image :=
  congrArg (fun x => x.1) (h .image h_image)

theorem Same.imageHash_eq (h : Same m s t) (h_image : .image ∉ m := by decide) : t.imageHash = s.imageHash :=
  congrArg (fun x => x.2.1) (h .image h_image)

theorem Same.imageSeq_eq (h : Same m s t) (h_image : .image ∉ m := by decide) : t.imageSeq = s.imageSeq :=
  congrArg (fun x => x.2.2.1) (h .image h_image)

theorem Same.imageBuild_eq (h : Same m s t) (h_image : .image ∉ m := by decide) : t.imageBuild = s.imageBuild :=
  congrArg (fun x => x.2.2.2.1) (h .image h_image)

theorem Same.imageFlags_eq (h : Same m s t) (h_image : .image ∉ m := by decide) : t.imageFlags = s.imageFlags :=
  congrArg (fun x => x.2.2.2.2.1) (h .image h_image)

theorem Same.imageKey_eq (h : Same m s t) (h_image : .image ∉ m := by decide) : t.imageKey = s.imageKey :=
  congrArg (fun x => x.2.2.2.2.2.1) (h .image h_image)

theorem Same.imageSvn_eq (h : Same m s t) (h_image : .image ∉ m := by decide) : t.imageSvn = s.imageSvn :=
  congrArg (fun x => x.2.2.2.2.2.2) (h .image h_image)

theorem Same.bytes_eq (h : Same m s t) (h_bytes : .bytes ∉ m := by decide) : t.cistern.data = s.cistern.data ∧ t.cistern.check = s.cistern.check :=
  ⟨congrArg Prod.fst (h .bytes h_bytes), congrArg Prod.snd (h .bytes h_bytes)⟩

end Sys2Proof.Machine
end

