-- ==== Sys2Proof/Tests/Slice0.lean ====
section
/-! SUPPORT. Tests on fixed values: an ill-formed term for each check of WellFormed, the manual's worked examples, and for every
statement with hypotheses a witness: a concrete state and operands that meet them together. A witness theorem names its statement
and says nothing about what a command does. -/

set_option Elab.async false

namespace Sys2Proof.Tests

open Sys2Proof Sys2Proof.Machine

/-! ### A small instance: Spires 0 and 1 of Dome 0 in partition 1, after READY -/

/-- Contract 0: valid, ACC_FMT INT32, LEAF SEQ, WIDTH 1 (R101). -/
def tCtr : BitVec 128 := BitVec.ofNat 128 (2 ^ 8 + 2 * 2 ^ 12 + 1 * 2 ^ 48)
def tGeom : GeomCfg := ⟨[⟨255, 0, 0, true⟩], [⟨0, 1, 1, false⟩, ⟨1, 1, 1, false⟩], 16, 2, 1, 1, 1, 7⟩
def tPart : PartCfg := ⟨1, 64, 256, 64, 14, 512, false, true, 0x1234, 0, none⟩
def tRecov : RecovParams :=
  ⟨0x55, 1000000, 10000000, 100000000, 100000000, 10, 4, 1, 1000000000, 1000000000, 2000000, 50000000, 64, 1000000, 1000000, 3, false, [],
    1000, 100, 1000, 1, 1000⟩
def tArea : AreaParams := ⟨1024, 1000000, 100, 3600, 8, 4000, false, 10, 8, 0, 0x5C, 0, 0x100000000, 16, 0, 0, false⟩
def tBase : BaseParams :=
  ⟨0, 0x800000, 0xC00000, 0x2C00000, 0x6C00000, 0x4000000, 0x10000000, 0x10000000, 0x110000000, 0x10000000, 0⟩
/-- A TIMER peal of partition 1 with PERIOD 4 and OFFSET 3 in units of one Belfry tick, and a counting REACT peal on input 0x95. -/
def tTimer : Peal := mkPeal [(0, 2 ^ 0 * 1), (3, 1), (9, 4), (64, 4), (88, 3)]
def tPeals : List Peal := fixedPeals ++ List.replicate 5 0
def tImg : Image where
  geom := tGeom
  contracts := [tCtr]
  screens := [3]
  ranges := [0]
  plaus := List.replicate 16 0
  peals := tPeals
  tileSets := []
  parts := List.replicate 16 tPart
  reserve := ⟨64, 64, 16, 64⟩
  replicas := []
  recov := tRecov
  area := tArea
  base := tBase
  golden := [⟨1, 0, 5, 1, 100, 0xAB, false⟩, ⟨0x20, 0, 5, 1, 100, 0xCD, false⟩]
  thermal := ⟨85, 95, 105, 115, 3, [], []⟩
  bringup := ⟨false, 2000000, 4, 0, [], [], 1000, 3⟩
  zk2 := false
  fwMajor := 1
  fwMinor := 2
  licences := []
  wrappers := [⟨1, 0, 1, 2, 0, 64, 96, 160, 161⟩]
  reservedSeen := false

/-- A Spire of a version 3 tap that works. -/
def tSp (i : Nat) : Spire :=
  { freshSpire State.reset tImg ⟨i, 1, 1, false⟩ with
    smp := ⟨1, 16, 16, 0, false⟩, tap := ⟨3, false, false, 0, 0, 0, 0, false⟩
    lv := ⟨false, false, false, false, true, false, false, true, false⟩ }
def tTile (i : Nat) : Tile := { freshTile State.reset ⟨i, 1, 1, false⟩ with wdHeld := false, resetDone := true }
def tDome : Dome := { freshDome 0 with up := true, released := true }

/-- The block after READY, with the two Spires, at fabric tick 1,000. -/
def tS : State :=
  { State.reset with
    image := some tImg, spires := [tSp 0, tSp 1], tiles := [tTile 0, tTile 1], domes := [tDome]
    boot := { State.reset.boot with step := 6, ready := true, started := true, readOk := true, discovered := true, firmware := true,
                                    clocks := true, memories := true, seams := true }
    pads := { State.reset.pads with coldReset := false }
    time := { State.reset.time with tick := 1000, run := true, trefOk := true }
    belfry := { State.reset.belfry with run := true }
    keep := { State.reset.keep with unitEn := 0x3FFF } }

/-- A descriptor of an INT8 product with INT32 results, M_T = 2, K = 4, N = 32 (R51). -/
def tDsc (stag flags : Nat) : Dsc :=
  let x := 1 + 1 * 2 ^ 4 + 1 * 2 ^ 8 + 2 * 2 ^ 12 + 2 * 2 ^ 16 + flags * 2 ^ 20 + 42 * 2 ^ 32 + 7 * 2 ^ 48 + 99 * 2 ^ 64 + stag * 2 ^ 112 +
    2 * 2 ^ 128 + 3 * 2 ^ 144 + 31 * 2 ^ 160
  BitVec.ofNat 256 (x + 2 ^ 240 * crc16 240 x)

/-- An operation of tag 5 open at Spire 0 and in the Keep. -/
def tOp : OpCtx := openCtx tS (tSp 0) 1 (tDsc 5 0) false true false
def tSpOp (f : OpCtx → OpCtx) : Spire := { tSp 0 with ops := [f tOp] }
def tSOp (f : OpCtx → OpCtx) : State := { tS with spires := [tSpOp f, tSp 1], opSeq := 2 }

end Sys2Proof.Tests

namespace Sys2Proof.Tests

open Sys2Proof Sys2Proof.Machine

/-! ### WellFormed: for each check a term that it refuses -/

/-- R29: no Spire 16,384. -/
theorem test_wf_spire :
    [Instr.descriptor 16384 0, .operandBeat 16384 ⟨0, 0, 0, false⟩ false, .ttInjReq 16384, .resultBeat 16384 ⟨0, 0, 0, false⟩ false,
      .ttResEnd 16384 ⟨0, 0, 0, false⟩ false, .groupCompare 16384, .burstStall 16384 0 false, .burstTimeout 16384 0 false, .ttFenceAck 16384,
      .fenceAckTimeout 16384, .heartbeatLoss 16384, .ttProgChange 16384 0, .ttRstAck 16384, .ttReady 16384, .rstAckTimeout 16384,
      .readyTimeout 16384, .tileRst 16384, .fenceFrame 16384 0 [], .testOn 16384 0 [], .testOff 16384 0 [], .deadFrame 16384 0 [],
      .releaseFrame 16384 0 [], .retire 16384 0 [], .fenceDone 16384 0, .fenceReissue 16384, .hangTimeout 16384, .sampleNotice 16384,
      .witnessFragment 16384, .resultCapture 16384, .scrsum 16384, .expprof 16384, .digop 16384, .rerunDeadline 16384 0 0,
      .ttIdleChange 16384 false, .backlogReport 16384 0 0 0, .sensorReading false 16384 0, .levelFall false 16384,
      .domePoll 0 [16384], .timeBeacon [⟨16384, 0, 0, 0, []⟩] [], .clocksAndCaravan [(16384, 3)] ⟨[], [], [], []⟩, .clocksAndCaravan [] ⟨[], [], [(16384, 0)], []⟩,
      .clocksAndCaravan [] ⟨[], [], [], [(false, 16384, 0)]⟩, .memories [] [] [(16384, ⟨[], true, true, true⟩)],
      .donePoll (.tile 16384) true, .sliceDone (.tile 16384) ⟨⟨[], true, true, true⟩, 0⟩ 0, .sliceTimeout (.tile 16384), .clockLoss (.tclk 16384),
      .clockReturn (.tclk 16384)].all (fun c => !WellFormed c) = true := by decide +kernel

/-- R29: no Dome 64, no partition 16, no weight port 16, no engine 64, no link tap 64, no Banen port 4. -/
theorem test_wf_index :
    [Instr.domePoll 64 [], .timeBeacon [] [⟨64, 0, 0, 0, []⟩], .progressFrame 64 0, .grantInterval 64 0, .flitCrcFail (.mesh 64 0 1) ⟨0, 1, false⟩,
      .clocksAndCaravan [] ⟨[.mesh 64 0 1], [], [], []⟩, .clocksAndCaravan [] ⟨[], [(64, 0)], [], []⟩,
      .clocksAndCaravan [] ⟨[], [], [], [(true, 64, 0)]⟩, .hangGraphDone [(16384, 0)], .hangGraphDone [(0, 7)],
      .seamQualification [⟨64, [], []⟩], .sensorReading true 64 0, .levelFall true 64,
      .memtapLine ⟨0, true, 0, 0, 0, 0, 16⟩, .sealFrame ⟨0, 0, 0, 0, 0, 2⟩ ⟨⟨0, 16, 0, 0, 0⟩, 0, 0, 0, false⟩, .sealWait ⟨0, 16, 0, 0, 0⟩,
      .ckptOpen 16, .ckptWritten 16, .ckptRead 16, .restoreBegin 16, .restoreEnd 16, .jobStart 16, .stragglerPeriod 16, .sealTimeout 16,
      .rollbackRepost 16, .rollbackTimeout 16, .dcmpWait 16 0 0 0, .attestationSign 16, .dumpDone 16,
      .digest ⟨0, 0, 0, 0, 0, 2⟩ ⟨16, 0, 0, 0, 0, 0, 0, 0, 0, 0, 0, 0, 0, 0, 0, 0, 0, 0⟩, .tdlist ⟨0, 0, 0, 0, 0, 2⟩ 16 (0, 0) 0 0 [],
      .weightSegment 16 0 [] false, .clockLoss (.wclk 16), .memtapLine ⟨16, true, 0, 0, 0, 0, 0⟩,
      .engineRow 64, .engineSelfTest 64, .engineTestDone 64 ⟨[], [], 0⟩, .memories [] [(64, ⟨[], [], 0⟩)] [], .donePoll (.engine 64) true,
      .linkEgressMessage ⟨64, 0, [], false, 0⟩, .linkIngressMessage ⟨64, 0, [], false, 0⟩,
      .hello ⟨4, 0, 0, 0, 0, 2⟩ ⟨0, 0, 0, 0, 0, 0⟩, .ack ⟨4, 0, 0, 0, 0, 2⟩, .nak ⟨4, 0, 0, 0, 0, 2⟩ 0, .time ⟨4, 0, 0, 0, 0, 2⟩ (.result 0),
      .launchProp ⟨4, 0, 0, 0, 0, 2⟩ 0 0, .launchAck ⟨4, 0, 0, 0, 0, 2⟩ 0, .launchNak ⟨4, 0, 0, 0, 0, 2⟩ 0, .launchCommit ⟨4, 0, 0, 0, 0, 2⟩ 0,
      .launchAbort ⟨4, 0, 0, 0, 0, 2⟩ 0, .retransmitTimeout 4, .ackIdle 4, .timeCheck 4, .banWait 4, .banenRetry 4, .banenBadFrame 4,
      .banenQualification ⟨4, 2, true, true, [], [], none⟩].all (fun c => !WellFormed c) = true := by decide +kernel

/-- R174, R344, R375, R382, R506, R518, R529, R531: slots, peals, banks, rows, requesters, Tallies; R359: routers; R363: seam groups. -/
theorem test_wf_place :
    [Instr.replayCompare 4096, .replayDeadline 4096, .confirmationDeadline 4096, .arbitration 4096, .timerPeal 4096, .countWindowClose 4096 0,
      .countWindowClose 0 16384, .countingPealFire 0 65552, .fill none 256, .bankTest none 256 none, .bankTest none 0 (some 131072), .rowRemap 32 0,
      .rowRemap 0 8192, .memories [32] [] [], .tallyAlloc (.csr 16), .wallClockSet (.csr 16), .ergClear (.csr 16), .mbxLatchDone (.csr 16),
      .notidleTimeout (.csr 16), .add (.csr 16) 0 0, .wait .mgmt 8192 0, .unwait .mgmt 8192 0, .free .mgmt 8192 0, .talTargetWrite .mgmt 8192 0,
      .dumpCommand (.csr 16) 0, .mbxSelWrite (.csr 16) 0, .test (.csr 16) 0, .release (.csr 16) 0, .shutdown (.csr 16) 0, .repairClear (.csr 16) 0,
      .registerWrite ⟨.csr 16, 0, 0, 0, true⟩, .csrRead ⟨.csr 16, 0, 0, 0, true⟩, .keepLockWrite ⟨.csr 16, 0, 0, 0, true⟩,
      .flitCrcFail (.mesh 0 256 0) ⟨0, 1, false⟩, .flitCrcFail (.seam 0 32 true) ⟨0, 1, false⟩, .cisternRead (.firmware true false) ⟨0, 65⟩,
      .cisternRead (.trace 16 0) ⟨0, 1⟩, .cisternRead (.dump 16 0) ⟨0, 1⟩, .cisternRead (.sealEntry ⟨0, 16, 0, 0, 0⟩) ⟨0, 1⟩,
      .cisternRead (.tileDigests 16 0 0 0 0) ⟨0, 1⟩,
      .cisternWrite 0 (List.replicate 65 (0, true)) false].all (fun c => !WellFormed c) = true := by decide +kernel

/-- R395: a BYPASS command is not one of the named instructions; R504: an alias address lies in its window; R518: one to seven
words at an aligned address; R509: a page. -/
theorem test_wf_value :
    [Instr.bypass 0x01, .bypass 0x05, .bypass 0x80, .bypass 0xBF, .manufacturingTest ⟨0x7F, State.reset.fuses⟩, .manufacturingTest ⟨0xC0, State.reset.fuses⟩,
      .aliasWrite ⟨.mgmt, 0x7FFFFC, 0, 0, true⟩, .aliasWrite ⟨.mgmt, 0xA00000, 0, 0, true⟩, .setaddr 0 0, .setaddr 0 8, .setaddr 2 1,
      .paritySweep [(0, 2 ^ 24)], .paritySweep [(81920, 0)], .configReload ⟨81920, 0⟩].all (fun c => !WellFormed c) = true := by decide +kernel

/-- Terms at the last value of their ranges are well-formed. -/
theorem test_wf_good :
    [Instr.descriptor 16383 0, .domePoll 63 [16383], .ckptOpen 15, .weightSegment 15 0 [] false, .engineRow 63, .ackIdle 3, .replayCompare 4095,
      .countWindowClose 4095 65551, .fill (some .mgmt) 255, .add (.csr 15) 8191 0, .flitCrcFail (.mesh 63 255 254) ⟨0, 1, true⟩, .bypass 0x06, .bypass 0xC0,
      .bypass 0x00, .manufacturingTest ⟨0x80, State.reset.fuses⟩, .manufacturingTest ⟨0xBF, State.reset.fuses⟩, .setaddr 0xFFFFFC 7, .aliasWrite ⟨.mgmt, 0x9FFFFC, 0, 0, true⟩,
      .cisternRead (.firmware false true) ⟨0xFFFFFFFF, 64⟩,
      .cisternWrite 0xFFFFFFFF (List.replicate 64 (0, true)) true, .bankTest none 255 (some 131071)].all WellFormed = true := by decide +kernel

/-- The command table gives its rows no bits, so no word spells a command. -/
theorem test_no_word_spells_a_command : decodeTableWord 32 0x12345678 = none ∧ (State.reset.withFetchWord 32 0).pending = [] := by decide +kernel

/-! ### Worked examples of the manual -/

/-- 10, the example of R377: byte 0xA5 at 0x00_0C40, its check bits, a flip of d3, the neighbour's byte with the columns of bits 6 and
11, and the one combination that the code misses. -/
theorem test_check_bits :
    checkOf 0xC40 0xA5 = 0b01111 ∧ Nat.xor 0b01111 (checkOf 0xC40 0xAD).toNat = 0b01110 ∧ synKind 0b01110 = .dataBit 3 ∧
      synKind (Nat.xor (checkOf 0x840 0x3C).toNat (checkOf 0xC40 0x3C).toNat) = .bad ∧
      Nat.xor (checkOf 0x840 0x3C).toNat (checkOf 0xC40 0x3E).toNat = 0b00100 ∧ synKind 0b00100 = .checkBit := by decide +kernel

/-- 08, the example of R282. -/
theorem test_digest_example : sd64 2 [5, 0, 0, 0] = 2744 ∧ sd64 2 [5, 0, 0, 0, 0, 0, 0, 0] = 21952 := by decide +kernel

/-- 12, the example of R446: A10 412, B10 328, C 4,312, with the curve's points at 100 °C and 110 °C. -/
theorem test_sensor_example :
    reading (List.replicate 14 0 ++ [32, 64, 0]) (BitVec.ofNat 20 (412 + 328 * 2 ^ 10)) 4312 = 411 := by decide +kernel

/-- 09, the example of R344: peal 42. -/
theorem test_peal_example :
    let p : Peal := BitVec.ofNat 128 0x003FFFC0003FC2C89500000000000A83
    plKind p = 3 ∧ plAllp p = true ∧ plAct p = 5 ∧ plTrig p = 0x95 ∧ plN p = 8 ∧ plWinx p = 12 ∧ plMask p = 1 ∧ plCause p = 0xFF ∧
      plRLo p = 0 ∧ plRHi p = 0xFFFF := by decide +kernel

/-- 03, the example of R120: 0.1, and ±1.5 × 2^-100, against L = −87. -/
theorem test_window_example :
    floorTo false 13421773 (-27) (-87) = 13421773 * 2 ^ 60 ∧ floorTo false 3 (-101) (-87) = 0 ∧ floorTo true 3 (-101) (-87) = -1 := by
  decide +kernel

/-- 03, the example of R117: bfloat16 dot product at W = 4 and at W = 2. -/
theorem test_width_example :
    let c : BitVec 128 := BitVec.ofNat 128 (2 ^ 8 + 7 * 2 ^ 12)
    let prods := [16777216, 0, 1, 0, 0, 0, 1, 0].map fun n => decodeFloat ⟨8, 23, 127, .ieee⟩ (encodeFloat ⟨8, 23, 127, .ieee⟩ (.fin false n 0))
    encodeFloat ⟨8, 23, 127, .ieee⟩ (contractAcc c 4 prods) = 0x4B800001 ∧
      encodeFloat ⟨8, 23, 127, .ieee⟩ (contractAcc c 2 prods) = 0x4B800000 := by decide +kernel

/-- 14, the example of R504: the alias address of KEEP_LOCK bit 0, and R500: BLF offset 0x114. -/
theorem test_places : locOf tS 0x800900 = .alias_ 0x48 0 ∧ locOf tS 0x10114 = locOf tS 0x10014 := by decide +kernel

/-- FIPS 180-4: SHA-384 of "abc"; the check value of CRC-32C over "123456789". -/
theorem test_crc32c : crc32c [0x31, 0x32, 0x33, 0x34, 0x35, 0x36, 0x37, 0x38, 0x39] = 0xE3069283 := by decide +kernel

theorem test_sha384 : ofBe (sha384 [0x61, 0x62, 0x63]) =
    0xcb00753f45a35e8bb5a03d699ac65007272c32ab0eded1631a8b605a43ff5bed8086072ba1e7cc2358baeca134c825a7 := by decide +kernel

/-! ### One command -/

/-- The next state of a command, or the state itself. -/
def tNext (c : Instr) (s : State) : State :=
  match exec c s with
  | .next t => t
  | _ => s

/-- 04, the example of R135: the operand rows (100, −7), (90, 50), (120, 3) give the checksum row (59, 46). -/
theorem test_checksum_row :
    let ps : PassSt := { newPass (tDsc 5 0) 0 with acc := [310 * 2 ^ 59, 46 * 2 ^ 59, 0, 0], ended := true }
    (ckRow (opEnv tS (tSp 0) (tDsc 5 0)) (tDsc 5 0) ps).codes = [59, 46, 0, 0] := by decide +kernel

/-- R52: a good descriptor is acknowledged and a second one of the same tag is refused with 0x06. -/
theorem test_descriptor :
    (getSp (tNext (.descriptor 0 (tDsc 5 0)) tS) 0).map (fun p => (p.answer, p.ops.length)) = some (.ack, 1) ∧
      (getSp (tNext (.descriptor 0 (tDsc 5 0)) (tSOp id)) 0).map (fun p => (p.answer, p.ops.length)) = some (.nack 6, 1) := by decide +kernel

/-- R500 to R503: partition 3 reads SPR_TSTATE of a Spire that is not its own, BLF_STAT, and KEEP_ID of the CSR port. -/
theorem test_csr_read :
    (tNext (.csrRead ⟨.csr 3, 0x400050, 0, 9, true⟩) tS).csr = ⟨9, 0, 1⟩ ∧ (tNext (.csrRead ⟨.csr 3, 0x10004, 0, 9, true⟩) tS).csr = ⟨9, 0, 1⟩ ∧
      (tNext (.csrRead ⟨.csr 1, 0x40000C, 0, 9, true⟩) tS).csr = ⟨9, 0, 0⟩ := by decide +kernel

/-- R317, log 4: from fabric tick 1,000 the next Belfry tick is 4. -/
theorem test_belfry_tick : (tNext .belfryTick tS).time.tick = 1024 ∧ (tNext .belfryTick tS).belfry.tick = 4 := by decide +kernel

/-- R71: TT_PROG's Gray code 0b111 is 5. -/
theorem test_prog : (getSp (tNext (.ttProgChange 0 7) tS) 0).map (·.tap.prog) = some 5 := by decide +kernel

end Sys2Proof.Tests

namespace Sys2Proof.Tests

open Sys2Proof Sys2Proof.Machine

/-! ### Witnesses of the hypotheses of the statements -/

/-- `tS` with Spire 0, tile 0, its partition, the Keep changed. -/
def onS (f : Spire → Spire) (s : State := tS) : State := updSp s 0 f
def onT (f : Tile → Tile) (s : State := tS) : State := updTile s 0 f
def onP (f : Part → Part) (s : State := tS) : State := updPart s 1 f
def onK (f : KeepSt → KeepSt) (s : State := tS) : State := { s with keep := f s.keep }
def onB (f : Belfry → Belfry) (s : State := tS) : State := { s with belfry := f s.belfry }
def onBoot (f : Boot → Boot) (s : State := tS) : State := { s with boot := f s.boot }
def spOf (s : State) : Spire := (getSp s 0).getD (tSp 0)
def tlOf (s : State) : Tile := (getTile s 0).getD (tTile 0)

theorem witness_step_runs_the_front_command : ({ tS with pending := [Instr.belfryTick, .ready] } : State).pending = .belfryTick :: [.ready] := rfl

theorem witness_idle_step : tS.pending = [] ∧ tS.time.run = true ∧ State.reset.pending = [] ∧ State.reset.time.run = false ∧
    portClock tS false = true ∧ State.reset.boot.step ≤ 3 ∧ portClock (onK fun k => { k with lostNow := [.nclk, .fclk] }) true = false := by decide +kernel

theorem witness_step_keeps_invariant : tS.Inv ∧ ∃ t, step tS = .next t :=
  ⟨⟨⟨by decide +kernel, by decide +kernel, by decide +kernel, by decide +kernel, by decide +kernel, by decide +kernel, by decide +kernel⟩,
    ⟨by decide +kernel, by decide +kernel⟩⟩, _, rfl⟩

/-- A die in DIE_FAULT with the thermal latch set, a failed bring-up, an image, and fuses that have been read. -/
def tDie : State :=
  { tS with keep := { tS.keep with dieFault := true }, belfry := { tS.belfry with run := false }, boot := { tS.boot with step := 7 },
            pads := { tS.pads with thermtrip := true } }

theorem witness_only_cold_reset_undoes : coldResets .belfryTick = false ∧ tDie.keep.dieFault = true ∧ tDie.belfry.run = false ∧
    tDie.pads.thermtrip = true ∧ tDie.boot.step = 7 ∧ tDie.pads.coldReset = false ∧ tDie.image ≠ none ∧ tDie.boot.readOk = true ∧
    (∃ t, exec .belfryTick tDie = .next t) := ⟨by decide +kernel, rfl, rfl, rfl, rfl, rfl, by decide +kernel, rfl, _, rfl⟩

theorem witness_dead_and_retired_tiles : tS.image ≠ none ∧ (tS.tiles.map (·.ix)).Nodup ∧ stateOf (onT fun x => { x with state := stDead }) 0 = stDead ∧
    stateOf (onT fun x => { x with state := stRetired }) 0 = stRetired ∧ coldResets .belfryTick = false ∧ tS.pending = [] ∧
    (∃ t, step tS = .next t) := ⟨by decide +kernel, by decide +kernel, by decide +kernel, by decide +kernel, by decide +kernel, rfl, _, rfl⟩

/-! 02 -/

theorem witness_descriptor_accepted : getSp tS 0 = some (tSp 0) ∧ stopped tS 0 = false ∧ tapLive tS (tSp 0) = true ∧ (tSp 0).lv.ft = false ∧
    (tSp 0).pass = none ∧ dscCheck tS (tSp 0) (tDsc 5 0) = none ∧ (tSp 0).cnt.length = 15 ∧ (∀ o ∈ tS.ops, o.uid ≠ tS.opSeq) := by decide +kernel

theorem witness_descriptor_refused :
    (let d := tDsc 5 0 ^^^ 1
     getSp tS 0 = some (tSp 0) ∧ stopped tS 0 = false ∧ tapLive tS (tSp 0) = true ∧ (tSp 0).lv.ft = false ∧ (tSp 0).pass = none ∧
      dscCheck tS (tSp 0) d = some 0x01 ∧ (tSp 0).cnt.length = 15 ∧ dCrcOk d = false) ∧
    (let s := onS fun p => { p with ops := [1, 2, 3, 4].map fun k => openCtx tS p k (tDsc k 0) false true false }
     getSp s 0 = some (spOf s) ∧ stopped s 0 = false ∧ tapLive s (spOf s) = true ∧ (spOf s).lv.ft = false ∧ (spOf s).pass = none ∧
      dscCheck s (spOf s) (tDsc 5 0) = some 0x05 ∧ (spOf s).cnt.length = 15 ∧ partOfSp s 0 < s.parts.length) := by decide +kernel

/-- An open MATMUL that is not checkable (NOCHECK), and a pass that has its last row. -/
def tSNo : State := onS fun p => { p with ops := [openCtx tS p 1 (tDsc 5 2) false true false] }
def tPassDone : PassSt := { newPass (tDsc 5 0) 0 with ended := true }
def tSPass : State := onS (fun p => { p with pass := some tPassDone }) (tSOp id)
def tBeat (tag : W16) : Beat := ⟨tag, 0, 0, true⟩

theorem witness_operand_beats :
    (let s := tSNo
     let o := (findOpen (spOf s) 5).getD tOp
     getSp s 0 = some (spOf s) ∧ tapLive s (spOf s) = true ∧ (spOf s).lv.ft = false ∧ (spOf s).injSlot = none ∧
      ((tBeat 5).tag, false) ∉ (spOf s).torn ∧ (tBeat 5).tag ∉ (spOf s).refused ∧
      (∀ x ∈ openOps (spOf s), x.opRow.stalled = true → dStag x.dsc = (tBeat 5).tag) ∧ (spOf s).pass = none ∧
      findOpen (spOf s) (tBeat 5).tag = some o ∧ dMatmul o.dsc = true ∧ o.checkable = false) ∧
    (getSp tS 0 = some (tSp 0) ∧ tapLive tS (tSp 0) = true ∧ (tSp 0).lv.ft = false ∧ (tSp 0).injSlot = none ∧
      ((tBeat 9).tag, false) ∉ (tSp 0).torn ∧ findOpen (tSp 0) (tBeat 9).tag = none ∧ (tBeat 9).tag ∉ (tSp 0).refused ∧ (tSp 0).cnt.length = 15 ∧
      (∀ x ∈ openOps (tSp 0), x.opRow.stalled = false)) ∧
    (let s := onS fun p => { p with refused := [5] }
     getSp s 0 = some (spOf s) ∧ tapLive s (spOf s) = true ∧ (spOf s).lv.ft = false ∧ (spOf s).injSlot = none ∧ (tBeat 5).tag ∈ (spOf s).refused) := by
  decide +kernel

theorem witness_injection :
    (let s := tSPass
     getSp s 0 = some (spOf s) ∧ tapLive s (spOf s) = true ∧ (spOf s).lv.ft = false ∧
      (spOf s).pass = some tPassDone ∧ findOpen (spOf s) tPassDone.tag = some tOp ∧ tPassDone.ended = true) ∧
    (getSp tS 0 = some (tSp 0) ∧ tapLive tS (tSp 0) = true ∧ (tSp 0).lv.ft = false ∧ (tSp 0).pass = none ∧
      (∀ x ∈ (tSp 0).tornOps, x.2 = 0) ∧ (tSp 0).cnt.length = 15) ∧
    (let s := onS fun p => { p with tornOps := [(5, 1)] }
     getSp s 0 = some (spOf s) ∧ tapLive s (spOf s) = true ∧ (spOf s).lv.ft = false ∧ (spOf s).pass = none ∧ (spOf s).tornOps = [(5, 1)]) := by
  decide +kernel

theorem witness_result_beats :
    (let s := tSOp id
     getSp s 0 = some (spOf s) ∧ tapLive s (spOf s) = true ∧ (spOf s).lv.ft = false ∧
      (∀ x ∈ openOps (spOf s), x.resRow.stalled = true → dStag x.dsc = (tBeat 5).tag) ∧ findOpen (spOf s) (tBeat 5).tag = some tOp ∧
      tOp.checkable = true ∧ tOp.badRows = false ∧ dC tOp.dsc ≠ .opq ∧ (∀ l ∈ [false, true],
        (beatTake (perBeat (dC tOp.dsc) (beatBits (spOf s).tap.ver)) (dN tOp.dsc) (posOf tOp (isCkBeat (spOf s) tOp false)).col l).2 = l)) ∧
    (let s := onS (fun p => { p with tap := { p.tap with ver := 2 } }) tSNo
     getSp s 0 = some (spOf s) ∧ tapLive s (spOf s) = true ∧ (spOf s).lv.ft = false ∧ (spOf s).tap.ver = 2 ∧
      ((findOpen (spOf s) 5).map (·.checkable)) = some false) := by
  decide +kernel

theorem witness_group_compare_order :
    let s := tSOp fun o => { o with closed := true }
    getSp s 0 = some (spOf s) ∧ ((getTile s 0).map (·.lost)).getD false = false ∧ (spOf s).ops.find? (·.closed) = some { tOp with closed := true } ∧
    stateOf s 0 ≠ stDead ∧ stateOf (onT (fun x => { x with state := stDead }) s) 0 = stDead := by
  decide +kernel

theorem witness_tap_deadlines :
    getSp tS 0 = some (tSp 0) ∧ stateOf tS 0 ≠ stDead ∧ tS.boot.step ≥ 5 ∧ tS.belfry.run = true ∧
    (let l := (spOf (onS fun p => { p with lv := { p.lv with fc := true } })).lv
     l.fc = true ∧ l.fack = false) ∧
    (let l := (spOf (onS fun p => { p with lv := { p.lv with rstReq := true } })).lv
     l.rstReq = true ∧ l.rstAck = false) ∧
    (let l := (spOf (onS fun p => { p with lv := { p.lv with rstAck := true } })).lv
     l.rstAck = true ∧ l.rstReq = false) ∧
    (let p := spOf (onS fun p => { p with lv := { p.lv with tonly := true } })
     p.tap.ver ≠ 2 ∧ p.lv.hbOk = true ∧ p.lv.tonly = true) := by decide +kernel

theorem witness_bursts_and_fence_transit :
    (let s := tSOp fun o => { o with resBytes := 1 }
     getSp s 0 = some (spOf s) ∧ ((findOpen (spOf s) 5).map fun o => decide (o.resBytes > 0)) = some true) ∧
    (let o : OpCtx := { tOp with opRow := { tOp.opRow with beats := 1 } }
     let s := tSOp fun _ => o
     getSp s 0 = some (spOf s) ∧ findOpen (spOf s) 5 = some o ∧ operandOpen (spOf s) o = true) ∧
    (let s := tSOp fun o => { o with resRow := { o.resRow with stalled := true } }
     getSp s 0 = some (spOf s) ∧ ((findOpen (spOf s) 5).map (·.resRow.stalled)) = some true ∧ tapLive s (spOf s) = true ∧ (spOf s).lv.ft = false ∧
      ((spOf s).ops.map fun o => (o.closed, dStag o.dsc)) = [(false, 5)] ∧ (5 : W16) ≠ (tBeat 6).tag) ∧
    (let s := tSOp fun o => { o with opRow := { o.opRow with stalled := true } }
     getSp s 0 = some (spOf s) ∧ ((findOpen (spOf s) 5).map (·.opRow.stalled)) = some true ∧ (spOf s).injSlot = none ∧
      ((tBeat 6).tag, false) ∉ (spOf s).torn ∧ (tBeat 6).tag ∉ (spOf s).refused ∧ ((spOf s).ops.map fun o => (o.closed, dStag o.dsc)) = [(false, 5)]) ∧
    (let s := onS fun p => { p with lv := { p.lv with ft := true } }
     getSp s 0 = some (spOf s) ∧ stopped s 0 = false ∧ tapLive s (spOf s) = true ∧ (spOf s).lv.ft = true) ∧
    (let s := tSOp id
     getSp s 0 = some (spOf s) ∧ (spOf s).lv.fack = false ∧ tOp ∈ (spOf s).ops ∧ tOp.closed = false ∧
      (∀ x ∈ (spOf s).ops, x.uid = tOp.uid → x = tOp)) := by decide +kernel

/-- TT_PROG: the greatest forward difference that counts, and the least that does not, in both versions. -/
theorem witness_tap_progress_and_idle :
    (getSp tS 0 = some (tSp 0) ∧ tapLive tS (tSp 0) = true ∧ ofGray 32 (Nat.xor 0x7FFFFFFF (0x7FFFFFFF / 2)) = 0x7FFFFFFF ∧
      ofGray 32 (Nat.xor 0x80000000 (0x80000000 / 2)) = 0x80000000 ∧ ofGray 16 (Nat.xor 0x7FFF (0x7FFF / 2)) = 0x7FFF ∧
      ofGray 16 (Nat.xor 0x8000 (0x8000 / 2)) = 0x8000) ∧
    (tSp 0).lv.idle = false ∧
    (let s := onS fun p => { p with lv := { p.lv with idle := true } }
     getSp s 0 = some (spOf s) ∧ getTile s 0 = some (tTile 0) ∧ (spOf s).lv.idle = true ∧ openOps (spOf s) = [] ∧ stopped s 0 = false) ∧
    ((getTile tS 0).map waitsIdle).getD false = false ∧ partOfSp tS 0 = 1 ∧ (runners tS 1).length < 4 := by decide +kernel

theorem witness_compute_reset_and_handshake :
    (let s := onS fun p => { p with lv := { p.lv with rstReq := true } }
     getSp s 0 = some (spOf s) ∧ (spOf s).lv.rstReq = true ∧ (spOf s).lv.rstAck = false ∧ domeReleased s 0 = true ∧
      domeReleased { s with domes := [{ tDome with released := false }] } 0 = false) ∧
    ((tSp 0).lv.rstReq = false ∧ (tSp 0).lv.rstAck = false) ∧
    (let s := onS fun p => { p with lv := { p.lv with rstAck := true } }
     getSp s 0 = some (spOf s) ∧ (spOf s).lv.rstAck = true ∧ (spOf s).lv.rstReq = false ∧ getTile s 0 = some (tTile 0)) ∧
    (let s := { tS with hang := { tS.hang with stage := 3 } }
     s.hang.stage = 3 ∧ s.hang.resetting = false ∧ (s.tiles.map (·.ix)).Nodup ∧ tTile 0 ∈ s.tiles ∧ getSp s (tTile 0).ix = some (tSp 0) ∧
      (tTile 0).state ≠ stDead ∧ (tTile 0).lost = false) ∧
    (let s := { tS with hang := { tS.hang with resetting := true } }
     s.hang.resetting = true ∧ (∀ x ∈ s.tiles, x.state = stDead ∨ x.resetDone = true) ∧ s.parts.length = 16) := by decide +kernel

/-! 06, 07 -/

end Sys2Proof.Tests

namespace Sys2Proof.Tests

open Sys2Proof Sys2Proof.Machine

/-! 06, 07 -/

/-- The word that two of three copies give (R364). -/
def tMaj (f g h : W32) : W32 := (f &&& g) ||| (f &&& h) ||| (g &&& h)

/-- A frame alone, and three copies of which the first has a bit wrong. -/
theorem witness_fence_frames :
    (let f := mkFrame 1 opFence 9
     tMaj (f ^^^ 4) f f = f ∧ fCrcOk (f ^^^ 4) = false ∧ tMaj (f ^^^ 4) (f ^^^ 4) f = f ^^^ 4 ∧ fCrcOk (tMaj f (f ^^^ 4) (f ^^^ 8)) = true ∧
      getTile (updTile tS 1 fun x => { x with lost := true }) 1 = some { tTile 1 with lost := true }) ∧
    (∀ op ∈ [opFence, opTestOn, opTestOff, opDead, opRelease, opRetire], let f := mkFrame 1 op 9
      getSp tS 1 = some (tSp 1) ∧ getTile tS 1 = some (tTile 1) ∧ fCrcOk f = true ∧ fLocal f = 1 % 256 ∧ fSeq f ≠ (tSp 1).fseq ∧ fOp f = op ∧
      (tTile 1).lost = false ∧ (tSp 1).testing = false ∧ (tSp 1).pendFence = false ∧ fCrcOk (f ^^^ 0x1000) = false ∧ fSeq f = 9) ∧
    (let p := spOf (onS fun p => { p with testing := true, pendFence := true, tstate := stFenced, fseq := 9 })
     p.testing = true ∧ p.pendFence = true ∧ p.tstate = stFenced ∧ fSeq (mkFrame 0 opFence 9) = p.fseq) := by decide +kernel

def tOut (n : Nat) : OutFrame := ⟨opFence, mkFrame 0 opFence 9, n, 0, 0, 2, 0, 0, 0, 0, none⟩
def tOutS (n : Nat) : State := { onT (fun x => { x with out := some (tOut n) }) with caravan := { tS.caravan with done := [⟨0, 9, 1⟩] } }

theorem witness_fence_completion_and_polls :
    (let s := tOutS 0
     s.caravan.done.find? (fun m => m.spire == 0 && m.fseq == 9) = some ⟨0, 9, 1⟩ ∧ getTile s 0 = some (tlOf s) ∧ (tlOf s).out = some (tOut 0) ∧
      fSeq (tOut 0).frame = 9 ∧ (tlOf s).next = [] ∧ (tlOf s).superseded = []) ∧
    (let s := onT (fun x => { x with superseded := [tOut 0], out := some { tOut 0 with op := opDead, frame := mkFrame 0 opDead 10 } }) (tOutS 0)
     s.caravan.done.find? (fun m => m.spire == 0 && m.fseq == 9) = some ⟨0, 9, 1⟩ ∧ getTile s 0 = some (tlOf s) ∧
      (∃ g ∈ (tlOf s).superseded, fSeq g.frame = 9)) ∧
    (tlOf (tOutS 2)).out = some (tOut 2) ∧ (tOut 2).reissues < 3 ∧ (tlOf (tOutS 3)).out = some (tOut 3) ∧ 3 ≤ (tOut 3).reissues ∧
    tS.boot.step ≥ 5 ∧ tS.belfry.run = true ∧ (tTile 0).state ≠ stDead ∧ (tS.tiles.map (·.ix)).Nodup ∧ tTile 1 ∈ tS.tiles ∧ (tTile 1).ix / 256 = 0 ∧
    (tTile 1).lost = false ∧ (tTile 1).ix ∉ [0] ∧ (tTile 1).ix ∈ [1] ∧ (tTile 1).missed + 1 < 3 ∧ 3 ≤ ({ tTile 1 with missed := 2 } : Tile).missed + 1 := by
  decide +kernel

theorem witness_beacons_and_progress_frames :
    tS.time.run = true ∧ State.reset.time.run = false ∧ (tS.tiles.map (·.ix)).Nodup ∧ tTile 0 ∈ tS.tiles ∧ (tTile 0).lost = false ∧
    getSp tS (tTile 0).ix = some (tSp 0) ∧ ([⟨0, -5, 3, 2, [(1, 1, 3)]⟩] : List BeaconAt).map (·.ix) = [0] ∧
    (∀ d ∈ [(-7 : Int), 3], 4 < (skewOf tS.time.spireSkew 0 + d - ((spirePath tS 0 + 3 : Nat) - (3 + 2 : Nat) : Int)).natAbs) ∧
    (∀ d ∈ [(-6 : Int), 2], (skewOf tS.time.domeSkew 0 + d - ((domePath tS 0 + 3 : Nat) - (3 + 2 : Nat) : Int)).natAbs ≤ 4) ∧
    getDome tS 0 = some tDome ∧ tDome.up = true ∧ (tS.spires.map (·.ix)).Nodup ∧ getTile tS (tTile 0).ix = some (tTile 0) ∧
    (tTile 0).ix / 256 = 0 ∧ (tSp 0).tap.prog = (tSp 0).tap.progAtFrame ∧ getDome tS 1 = none ∧
    (let s := onS fun p => { p with tap := { p.tap with prog := 1 } }
     getSp s 0 = some (spOf s) ∧ (spOf s).tap.prog ≠ (spOf s).tap.progAtFrame) := by
  decide +kernel

/-- An open operation at a tile that is not idle: its watchdog runs. -/
theorem witness_hang_detection_and_path :
    (let s := tSOp id
     getTile s 0 = some (tTile 0) ∧ getSp s 0 = some (spOf s) ∧ watchdogRuns (tTile 0) (spOf s) = true ∧ (tTile 0).ranOut = false ∧
      s.keep.dieFault = false ∧ (tTile 0).part < s.parts.length ∧ s.belfry.run = true) ∧
    watchdogRuns { tTile 0 with wdHeld := true } (tSpOp id) = false ∧ ({ tTile 0 with ranOut := true } : Tile).ranOut = true ∧
    (let s := { onT (fun x => { x with ranOut := true }) with hang := { tS.hang with stage := 1, hung := [0] } }
     s.hang.stage = 1 ∧ (waitGraph s).roots = [0] ∧ s.hang.dump = false) ∧
    ({ tS with hang := { tS.hang with stage := 2 } } : State).hang.stage = 2 ∧ tS.hang.stage ≠ 1 ∧ tS.hang.stage ≠ 2 := by decide +kernel

theorem witness_die_fault_and_keep_warm_reset :
    (let s := { tS with hang := { tS.hang with waitProgress := true, back := true } }
     s.hang.waitProgress = true ∧ s.hang.back = true) ∧
    (let s := { tS with hang := { tS.hang with waitProgress := true } }
     s.hang.waitProgress = true ∧ s.hang.back = false ∧ s.keep.dieFault = false) ∧
    (let s := onK (fun k => { k with kwrTicks := [1, 2] }) { tS with time := { tS.time with tick := 10000000000 } }
     s.keep.dieFault = false ∧ 2 ≤ (s.keep.kwrTicks.filter fun x => decide (s.time.tick.toNat - x.toNat < 10000000000)).length) ∧
    (let s := onK (fun k => { k with kwrTicks := [1, 2] }) { tS with time := { tS.time with tick := 10000000001 } }
     s.keep.dieFault = false ∧ (s.keep.kwrTicks.filter fun x => decide (s.time.tick.toNat - x.toNat < 10000000000)).length < 2) ∧
    tDie.keep.dieFault = true ∧ (onK fun k => { k with draining := true }).keep.draining = true ∧
    (let s := onK fun k => { k with kwrDown := true }
     s.keep.kwrDown = true ∧ s.keep.dieFault = false ∧ readsSlots s.near = false ∧ s.boot.fwLen = 0) := by decide +kernel

/-- Firmware code of one byte, 1, whose copy in the other bank is 0: each bank in turn holds the good copy. -/
def tCodeS (bank : Nat) : State :=
  let c := { tS.cistern with data := [(bank * 2 ^ 23, 1)], check := [(bank * 2 ^ 23, checkOf 0 1)], mirrorOk := true }
  onK (fun k => { k with kwrDown := true }) { tS with cistern := c, boot := { tS.boot with fwLen := 1, fwHash := sha384 [1] } }

theorem witness_keep_restart_code : ∀ b ∈ [0, 1], (tCodeS b).keep.kwrDown = true ∧ (tCodeS b).keep.dieFault = false ∧
    readsSlots (tCodeS b).near = false ∧ (tCodeS b).boot.fwLen ≠ 0 ∧ (tCodeS b).cistern.mirrorOk = true ∧
    copyGood (tCodeS b) b = true ∧ copyGood (tCodeS b) (1 - b) = false := by decide +kernel

/-! 05 -/

/-- A weight header of partition 1, layer 42, operator 7, INT8, rows 0 to 3, columns 0 to 31, with its HCRC (R79). -/
def tHdr : BitVec 512 :=
  let x := 42 + 7 * 2 ^ 16 + 99 * 2 ^ 32 + 1 * 2 ^ 64 + 1 * 2 ^ 68 + 4 * 2 ^ 128 + 32 * 2 ^ 192
  BitVec.ofNat 512 (x + 2 ^ 496 * crc16 496 x)
def tWBeats : List WtBeat := List.replicate 4 ⟨false, 0⟩

theorem witness_weight_segments : hCrcOk tHdr = true ∧ hReserved tHdr = false ∧ hRangeOk tHdr = true ∧ segShapeOk tHdr tWBeats = true ∧
    HostClk.wclk 0 ∉ tS.keep.lostNow ∧ HostClk.wclk 0 ∈ (onK fun k => { k with lostNow := [.wclk 0] }).keep.lostNow ∧
    hCrcOk (tHdr ^^^ 1) = false ∧ hReserved (tHdr ^^^ (1 <<< 88)) = true ∧ hRangeOk 0 = false := by decide +kernel

/-- The Keep's operation and a running sample of its row 0 on engine 0, with one fragment. -/
def tOpV : OpV :=
  { uid := 1, spire := 0, part := 1, dsc := tDsc 5 0, ackTick := 0, endTick := 0, late := false, checkable := true, varies := false, state := .opened,
    scr := none, range := 0, rangeSusp := false, samples := 0, samplesOpen := 0, skipped := 0, replay := 0, mm := 0, res := none, outcome := 0,
    ticket := none, rerunOf := none, rerunBy := none, rerunSpire := 0, deadClosed := false, disagree := false, forced := none, verdict := 0,
    resolveTick := 0, od := none, interval := false }
def tSmp : Sample :=
  { slot := some 0, uid := 1, spire := 0, part := 1, dsc := tDsc 5 0, row := 0, kind := 0, state := .running, noticeTick := 0, arr := 0, hdrs := 0,
    frags := [([], [])], winFirst := 0, win := [], winScales := [], digests := [], captured := false, engines := [0], w := 32, wtviol := false,
    streamNum := none, rowTick := 0, misTick := 0, r1 := [], mis := [], misGroups := [], conf := [], confCols := [], posted := none,
    confirmWanted := false, confStream := none, matched := false, unread := false, unchecked := 0, prods := 0, xprods := 0, lines := 0 }
def tRow : WRow := ⟨0, [0], [1], []⟩
def tSSmp (f : Sample → Sample) (g : Engine → Engine) (h : OpV → OpV := id) : State :=
  updEng { tS with ops := [h tOpV], opSeq := 2, samples := [f tSmp] } 0 g

theorem witness_engine_rows_and_self_test :
    (let s := tSSmp id fun e => { e with state := .held 1 0, cols := [0], fifo := [tRow] }
     0 < s.engines.length ∧ (getEng s 0).fifo = [tRow] ∧ (getEng s 0).state = .held 1 0 ∧ getSample s 1 0 = some tSmp ∧ getOp s 1 = some tOpV ∧
      tRow.k / 1024 < tSmp.frags.length ∧ tSmp.unread = false) ∧
    (let s := tSSmp (fun x => { x with frags := [] }) fun e => { e with state := .held 1 0, cols := [0], fifo := [tRow] }
     (getEng s 0).fifo = [tRow] ∧ (getEng s 0).state = .held 1 0 ∧ ((getSample s 1 0).map fun x => decide (x.frags.length ≤ tRow.k / 1024)) = some true) ∧
    (let s := tSSmp (fun x => { x with unread := true }) fun e => { e with state := .held 1 0, cols := [0], fifo := [tRow] }
     ((getSample s 1 0).map (·.unread)) = some true) ∧
    (getEng (updEng tS 63 fun e => { e with state := .fenced }) 63).state = .fenced ∧
    (let g := getEng (updEng tS 0 fun e => { e with state := .free, testDue := true }) 0
     g.testDue = true ∧ g.state = .free) ∧
    (getEng tS 0).state ≠ .fenced ∧ (getEng tS 0).testDue = false ∧ 63 < tS.engines.length ∧
    (getEng (updEng tS 63 fun e => { e with state := .testing }) 63).state = .testing := by decide +kernel

def tMsgS (m : Msg) (s : State := { tS with ops := [tOpV], opSeq := 2 }) : State := { s with caravan := { s.caravan with flight := [m] } }

theorem witness_samples_and_witnesses :
    (let s := tMsgS (.notice 0 1 0 0 0 5)
     nextMsg s (isNotice 0) = some (.notice 0 1 0 0 0 5) ∧ s.keep.kwrDown = false ∧
      getOp s 1 = some tOpV ∧ tOpV.late = false ∧ tOpV.state ≠ .final ∧ stateOf s 0 ≠ stDead ∧ inSafe s uRpl = false ∧ s.samples = [] ∧
      0 < ((partCfg s tOpV.part).map (·.ovfQuota)).getD 0) ∧
    ({ tOpV with late := true } : OpV).late = true ∧
    (let s := onS (fun p => { p with witSent := 2000000 }) (tMsgS (.fragment 0 1 0 [1, 2] []) (tSSmp id id))
     nextMsg s (isFragment 0) = some (.fragment 0 1 0 [1, 2] []) ∧ getSample s 1 0 = some tSmp ∧ quotaOk s tSmp.part lvWit = true ∧
      getOp s 1 = some tOpV ∧ tSmp.part < s.parts.length) ∧
    (let s := onS (fun p => { p with witSent := 2000000 }) (tMsgS (.result 0 1 0 [1, 2] [] []) (tSSmp id id))
     nextMsg s (isResult 0) = some (.result 0 1 0 [1, 2] [] []) ∧ getSample s 1 0 = some tSmp ∧ quotaOk s tSmp.part lvWit = true) ∧
    (let s := onS (fun p => { p with witSent := 2000000 }) (tMsgS (.fragment 0 1 0 [1, 2] []) { tSSmp id id with image := none })
     nextMsg s (isFragment 0) = some (.fragment 0 1 0 [1, 2] []) ∧ quotaOk s tSmp.part lvWit = false) ∧
    (let s := tMsgS (.abandon 0 1 0 3 true) (tSSmp id id)
     nextMsg s (isFragment 0) = some (.abandon 0 1 0 3 true) ∧ nextMsg s (isResult 0) = some (.abandon 0 1 0 3 true) ∧
      getSample s 1 0 = some tSmp ∧ getOp s 1 = some tOpV) := by decide +kernel

/-- A comparison that finds no column, one that finds column 0, and the three states of the deadlines. -/
def tCmpS (v : Nat) : State :=
  tSSmp (fun x => { x with state := .compare, win := [v], captured := true, frags := [([1, 0, 0, 0], [])] }) fun e =>
    { e with state := .held 1 0, cols := [0], rows := [0, 1, 2, 3].map fun k => ⟨k, [0], [1], []⟩ }
def tCmpX (v : Nat) : Sample := (sampleAt (tCmpS v) 0).getD tSmp

theorem witness_replay_verdicts :
    (sampleAt (tCmpS 1) 0 = some (tCmpX 1) ∧ getSample (tCmpS 1) 1 0 = some (tCmpX 1) ∧ (tCmpX 1).part < (tCmpS 1).parts.length ∧
      (getPart (tCmpS 1) (tCmpX 1).part).cnt.rpl.length = 15 ∧ (tCmpX 1).unread = false ∧ getOp (tCmpS 1) (tCmpX 1).uid = some tOpV ∧ (tCmpX 1).state = .compare ∧ (tCmpX 1).wtviol = false ∧
      (compareSample (tCmpS 1) (tCmpX 1) (exactMode tOpV)).mis = [] ∧ (compareSample (tCmpS 1) (tCmpX 1) (exactMode tOpV)).groups = []) ∧
    (sampleAt (tCmpS 2) 0 = some (tCmpX 2) ∧ (compareSample (tCmpS 2) (tCmpX 2) (exactMode tOpV)).mis ≠ []) ∧
    (tCmpX 1).state ≠ .confirming ∧
    (let x : Sample := { tSmp with state := .confirming, matched := true, conf := [0] }
     x.state = .confirming ∧ x.matched = true ∧ x.wtviol = false ∧ x.unread = false ∧ tSmp.matched = false ∧
      x.conf.all (engDone (tSSmp (fun _ => x) id) (dK x.dsc)) = true) := by decide +kernel

def tPlausS (rng plaus : W64) : State := { tS with image := some { tImg with ranges := [rng], plaus := List.replicate 16 plaus } }
def tProf : Rec := ⟨.expprof, 0, 0, 1, 0, []⟩

theorem witness_verdict_messages :
    (let s := tMsgS (.summary 0 1 [] ⟨1, 0, 0, 0, [], 0⟩ 0 false false 0 5)
     nextMsg s (isSummary 0) = some (.summary 0 1 [] ⟨1, 0, 0, 0, [], 0⟩ 0 false false 0 5) ∧ getOp s 1 = some tOpV ∧ tOpV.state = .opened ∧ tOpV.checkable = true) ∧
    (let s := tMsgS (.profile 0 1 false tProf (some 3) [1]) { tPlausS (BitVec.ofNat 64 (2 ^ 12 + 2 ^ 32)) (BitVec.ofNat 64 (2 ^ 32)) with ops := [tOpV] }
     nextMsg s (isProfile 0) = some (.profile 0 1 false tProf (some 3) [1]) ∧
      getOp s 1 = some tOpV ∧ tOpV.part < s.parts.length ∧ rEnvEn (rangeOf s tOpV.part tOpV.dsc) = true ∧
      rLearn (rangeOf s tOpV.part tOpV.dsc) ≠ 0 ∧ [1].foldl (· + ·) 0 ≠ 0 ∧ (getPart s tOpV.part).envs.find? (sameKey · tOpV) = none ∧
      (getPart s tOpV.part).envs.length < qEnvKeys (plausRec s tOpV.part)) ∧
    (let v : LkOp := ⟨1, 0, none, 0, 0, none, 0, false, false⟩
     let k : LayerKey := ⟨0, 0, 0, 42, [v], 0, 0, false⟩
     let s := tMsgS (.digests 0 1 0 1 0 none [] false) (onP fun q => { q with keys := [k] })
     nextMsg s (isDigests 0) = some (.digests 0 1 0 1 0 none [] false) ∧
      partOfSp s 0 < s.parts.length ∧ k ∈ (getPart s (partOfSp s 0)).keys ∧ v ∈ k.ops ∧ v.uid = 1) ∧
    (let o : OpV := { tOpV with state := .resolving, rangeSusp := true }
     let s := { tS with ops := [o] }
     getOp s o.uid = some o ∧ o.spire = 0 ∧ dStag o.dsc = 5 ∧ dEpoch o.dsc = 0 ∧ o.state = .resolving ∧ opSuspect o = true ∧ o.res = none ∧
      o.rerunBy = none ∧ o.replay ≠ vMirage ∧ (∀ v ∈ s.ops, v.spire = 0 → dStag v.dsc = 5 → dEpoch v.dsc = 0 → v = o)) := by decide +kernel

/-! 07 -/

def tWin (ph : Nat) : Window := ⟨ph, 0, 3, 0, 0, 10, 20, 2, 3, Ckd.zero, Ckd.zero, [], [], false, false, 0, false⟩
def tGen (n : Nat) : Gen := ⟨n, n % 2, 0, 0, 1, 0, 7, 8, 1, 2, 3, 0, []⟩
def tRb : Rollback := ⟨2, 1, 0, 0, 0, false, 0, 0, 0, Ckd.zero, none, none, [2], true, true, 0, 0⟩

theorem witness_checkpoints_restores_and_jobs :
    (1 < tS.parts.length ∧ (getPart tS 1).window = none ∧ (getPart tS 1).rb = none) ∧
    (∀ n, n < 3 → (getPart (onP fun q => { q with window := some (tWin n) }) 1).window = some (tWin n)) ∧
    (tWin 0).phase = 0 ∧ (tWin 1).phase = 1 ∧ (tWin 2).phase ≠ 1 ∧
    (let s := onP fun q => { q with epoch := 1, rb := some tRb }
     (getPart s 1).rb = some tRb ∧ tRb.beginEpoch = none ∧ earlierThan (getPart s 1).epoch tRb.floor = false) ∧
    earlierThan (getPart tS 1).epoch tRb.floor = true ∧
    (let r : Rollback := { tRb with beginEpoch := some 1 }
     r.beginEpoch ≠ none ∧ r.ended = none ∧ ({ r with ended := some 5 } : Rollback).ended ≠ none) := by decide +kernel

theorem witness_seal_or_refusal :
    (let s := onP fun q => { q with window := some (tWin 2) }
     (getPart s 1).window = some (tWin 2) ∧ (tWin 2).phase = 2 ∧ openOps01 s 1 (tWin 2) = false ∧ sealRefusal s 1 (tWin 2) = none) ∧
    (let s := onP fun q => { q with window := some (tWin 2), hangSeen := true }
     sealRefusal s 1 (tWin 2) = some 0x04) ∧
    (let s := { onP (fun q => { q with window := some (tWin 2) }) with ops := [{ tOpV with interval := true }] }
     (getPart s 1).window = some (tWin 2) ∧ openOps01 s 1 (tWin 2) = true) := by decide +kernel

theorem witness_rollback_restores_a_sealed_generation :
    (let r : Rollback := { tRb with beginEpoch := some 1, ended := some 9, restore := ⟨7, 8, 1⟩ }
     let s := onP fun q => { q with rb := some r, gens := [tGen 2, tGen 1] }
     (getPart s 1).rb = some r ∧ r.ended ≠ none ∧ (getPart s 1).gens.find? (fun x => x.num == r.gen) = some (tGen 2) ∧
      r.restore = ⟨(tGen 2).s1, (tGen 2).s2, (tGen 2).n⟩ ∧ (getPart s 1).gens.filter (fun x => x.num != 2) = [tGen 1]) ∧
    (let s := onP fun q => { q with rb := some tRb, gens := [tGen 2] }
     (getPart s 1).rb = some tRb ∧ tRb.beginEpoch = none ∧ (getPart s 1).gens.find? (fun x => x.num == tRb.gen) = some (tGen 2)) ∧
    tRb.restore ≠ ⟨(tGen 2).s1, (tGen 2).s2, (tGen 2).n⟩ ∧ tRb.beginEpoch = none ∧ tRb.ended = none ∧
    [tGen 2].filter (fun x => x.num != (tGen 2).num) = [] := by decide +kernel

def tLine (wr : Bool) : MtLine := ⟨0, wr, 0, 5, BitVec.allOnes 64, 99, 1⟩

theorem witness_memory_tap_lines :
    (tS.keep.lostNow.contains .nclk = false ∧ (tLine true).part < tS.parts.length) ∧
    (let s := onP fun q => { q with window := some (tWin 0), named := [99] }
     (tLine true).wr = true ∧ (getPart s (tLine true).part).window = some (tWin 0) ∧ (tWin 0).phase = 0 ∧
      (tLine true).tensor ∈ (getPart s (tLine true).part).named ∧ (tLine true).be = BitVec.allOnes 64) ∧
    (getPart tS (tLine true).part).window = none ∧ (tLine false).wr = false ∧
    (getPart (onP fun q => { q with window := some (tWin 1) }) (tLine false).part).window = some (tWin 1) ∧ (tWin 1).phase = 1 ∧
    (getPart tS (tLine false).part).rb = none := by decide +kernel

end Sys2Proof.Tests

namespace Sys2Proof.Tests

open Sys2Proof Sys2Proof.Machine

/-! 09 -/

/-- A Cadence word of partition 1 with its CCRC (R85). -/
def tCad (step layer phase epoch : Nat) : CadW :=
  let x := step + layer * 2 ^ 48 + phase * 2 ^ 64 + epoch * 2 ^ 72 + 1 * 2 ^ 88
  BitVec.ofNat 128 (x + 2 ^ 112 * crc16 112 x)
def tAcc : State := onP fun q => { q with accepted := some ⟨0, 3, 2, 1, 5⟩ }

/-- Each clause at the edge of its range: the last accepted word itself moves neither back nor on; PHASE 0xF5 is the last that is not
reserved; an order violation, a backward word and a bad word stand beside them. -/
theorem witness_cadence_word_checks :
    (cadReady tAcc = true ∧ tAcc.keep.lostNow.contains .pclk = false ∧ cPart (tCad 3 2 1 5) < tAcc.parts.length) ∧
    cCrcOk (tCad 3 2 1 5 ^^^ 1) = false ∧ cReserved (tCad 0 0 0 0 ^^^ (1 <<< 92)) = true ∧
    (cCrcOk (tCad 3 2 1 5) = true ∧ cReserved (tCad 3 2 1 5) = false) ∧ cPos (tCad 3 2 1 5) = ⟨0, 3, 2, 1, 5⟩ ∧
    posLt (cPos (tCad 3 1 1 5)) ⟨0, 3, 2, 1, 5⟩ = true ∧ posLt (cPos (tCad 3 2 1 5)) ⟨0, 3, 2, 1, 5⟩ = false ∧
    earlierThan (cEpoch (tCad 9 0 0 4)) 5 = true ∧ earlierThan (cEpoch (tCad 0 0 0 6)) 5 = false ∧
    (cPhase (tCad 3 2 0xF6 5)).toNat ≥ 0xF6 ∧ (cPhase (tCad 3 2 0xF5 5)).toNat < 0xF6 ∧
    protoOk tAcc (tCad 3 2 0xF1 5) false false = false ∧ protoOk tAcc (tCad 3 2 0xF0 5) false false = true := by decide +kernel

/-- A TIMER peal of partition 1, PERIOD 4 and OFFSET 3 Belfry ticks, at index 16; one of all partitions at 17; a REACT peal on
input 0x95 that counts to 8 with MARK_ALERT at 18. -/
def tTmr : Peal := BitVec.ofNat 128 (1 + 1 * 2 ^ 3 + 4 * 2 ^ 9 + 4 * 2 ^ 56 + 3 * 2 ^ 82)
def tTmrAll : Peal := BitVec.ofNat 128 (1 + 2 ^ 7 + 4 * 2 ^ 9 + 4 * 2 ^ 56 + 3 * 2 ^ 82)
def tCnt : Peal := mkPeal [(0, 3), (9, 8), (56, 0x95), (64, 8), (68, 12), (78, 0xFF), (102, 0xFFFF)]
def tPealS : State := { tS with image := some { tImg with peals := tPeals ++ [tTmr, tTmrAll, tCnt] } }

theorem witness_timer_peals_due :
    ((16, tTmr) ∈ allPeals tPealS ∧ (17, tTmrAll) ∈ allPeals tPealS ∧ plKind tTmr = kTimer ∧ plKind tTmrAll = kTimer ∧ pealLive tPealS 16 = true) ∧
    7 % (plPeriod tTmr * plUnitTicks tTmr) = plOffset tTmr * plUnitTicks tTmr ∧ plAllp tTmrAll = true ∧ plAllp tTmr = false ∧ plPart tTmr = 1 ∧
    8 % (plPeriod tTmr * plUnitTicks tTmr) ≠ plOffset tTmr * plUnitTicks tTmr := by decide +kernel

theorem witness_belfry_ticks_and_counts :
    tS.time.run = true ∧ State.reset.time.run = false ∧ tS.time.tick.toNat < 2 ^ 63 ∧ tS.belfry.run = true ∧ tDie.belfry.run = false ∧ tDie.time.run = true ∧
    (let s := { tPealS with time := { tPealS.time with tick := 1700 } }
     nextBelfry s = 7 ∧ timerDue (pealAt s 16) (nextBelfry s) = true ∧ pealLive s 16 = true ∧ s.boot.step ≥ 5 ∧ s.belfry.timersNow.Nodup) ∧
    tS.belfry.counts.find? (fun c => c.1 == 18 && c.2.1 == 0) = none ∧ 0 < tPealS.parts.length ∧
    (let s := onB (fun b => { b with counts := [(18, 0, 7, 0)] }) tPealS
     s.belfry.counts.find? (fun c => c.1 == 18 && c.2.1 == 0) = some (18, 0, 7, 0) ∧ plN (pealAt s 18) ≤ 7 + 1 ∧ counting (pealAt s 18) = true ∧
     pealLive s 18 = true ∧
     (pealActs s (mkInput s (plTrig (pealAt s 18)) 0 0 0 0 false 0 0).cls 18 (pealAt s 18) (partOfSp s 0)
       (some (mkInput s (plTrig (pealAt s 18)) (partOfSp s 0) 0 0xFFFF (plCause (pealAt s 18)) false 0 0))).isEmpty = false) := by
  decide +kernel

/-! 14, 15 -/

def tReq (who : Requester) (addr : BitVec 24) (w : W32) : CsrReq := ⟨who, addr, w, 9, true⟩

theorem witness_register_access :
    (admitted tS (.csr 1) false 0x40000C = true ∧ admitted tS (.csr 0) false 0 = true) ∧
    (admitted tS (.csr 0) true 0x30004 = true ∧ locOf tS 0x30004 = .cvn 4) ∧
    (writeLoc tS (.csr 0) ⟨0, 0, locSpire (.cvn 4), true, 0x30004, 0⟩ (.cvn 4) 0).2 = rspOk ∧
    pathServes tS (.csr 3) = true ∧ (0x40000E : Nat) % 4 ≠ 0 ∧
    (phaseServes tS (.csr 3) false (locOf tS 0x40000C) = true ∧ locOf tS 0x40000C ≠ .nowhere ∧ mayAccess tS (.csr 3) false (locOf tS 0x40000C) = false) ∧
    (let s := onBoot fun b => { b with step := 1, ready := false, firmware := false }
     pathServes s (.csr 0) = true ∧ phaseServes s (.csr 0) false (locOf s 0x400000) = false) := by decide +kernel

theorem witness_locks_and_aliases :
    (admitted tS (.csr 0) true 0x4C = true ∧ tS.keep.hosttagLocked = false ∧ admitted tS .mgmt true 0x4C = true) ∧
    (let s := onK fun k => { k with hosttagLocked := true, locked := 0xF }
     admitted s (.csr 0) true 0x4C = true ∧ s.keep.hosttagLocked = true ∧ admitted s (.csr 0) true 0x48 = true ∧ s.keep.locked ≠ 0) ∧
    (admitted tS (.csr 0) true 0x48 = true ∧ admitted tS (.csr 0) true 0x40 = true ∧ lockSet tS lkEnFreeze = false ∧
      bitOf (0 : W32) uErg = false) ∧
    (let s := onK fun k => { k with lock := 8, locked := 0xF }
     admitted s (.csr 0) true 0x40 = true ∧ lockSet s lkEnFreeze = true) ∧
    (admitted tS (.csr 0) true (0x800000 + 32 * 0x0C + 4 * 11) = true ∧ locOf tS (0x800000 + 32 * 0x0C + 4 * 11) = .alias_ 0x00C 11) ∧
    (admitted tS (.csr 0) true (0x800000 + 32 * 0x10 + 4 * 16) = true ∧ locOf tS (0x800000 + 32 * 0x10 + 4 * 16) = .alias_ 0x010 16) := by
  decide +kernel

theorem witness_mailbox :
    (admitted tS .mgmt true 0x100 = true ∧ instOf .mgmt < tS.keep.mbx.length ∧ admitted tS (.csr 1) true 0x100 = true) ∧
    (let s := onK fun k => { k with mbx := updAt k.mbx 1 fun m => { m with latching := true, echo := 0x100 } }
     instOf (.csr 1) < s.keep.mbx.length ∧ (getMbx s (instOf (.csr 1))).latching = true ∧
     mbxMay s (partOf (.csr 1)) (getMbx s (instOf (.csr 1))).echo.toNat = false ∧ mbxMay s (partOf (.csr 0)) 0x100 = true) ∧
    (getMbx tS (instOf .mgmt)).latching = false := by decide +kernel

/-- A Tally of partition 1 with count 5 and target 8. -/
def tTal : State := { tS with tallies := [(8191, { Tally.fresh true 1 with count := 5, target := 8 })] }

theorem witness_tally_commands :
    (admitted tS (.csr 1) true aTalloc = true ∧ instOf (.csr 1) < tS.keep.talloc.length ∧ tallocResult tS (instOf (.csr 1)) ≠ 2 ∧
      heldBy tS (partOf (.csr 1)) + (tS.tallyQ.filter fun q => q.2 == partOf (.csr 1)).length < ((partCfg tS (partOf (.csr 1))).map (·.talQuota)).getD 0 ∧
      freeTally tS = some 0) ∧
    (8191 < Config.tallies ∧ admitted tTal (.csr 1) true (aTally 8191 3) = true ∧ (getTally tTal 8191).held = true ∧ (3 : W16) ≠ 0 ∧
      (getTally tTal 8191).target.toNat ≤ ((getTally tTal 8191).count + (3 : W16).zeroExtend 32).toNat ∧
      ((getTally tTal 8191).count + (2 : W16).zeroExtend 32).toNat < (getTally tTal 8191).target.toNat ∧
      getTile tTal (0 : W16).toNat = some (tTile 0) ∧ (tTile 0).part = (getTally tTal 8191).part ∧
      (getTally tTal 8191).count.toNat < (getTally tTal 8191).target.toNat ∧ (0 : W16).toNat ∉ (getTally tTal 8191).waiters ∧
      quotaOk tTal (getTally tTal 8191).part lvRec = true ∧ tTal.tallyQ = []) ∧
    (admitted tS (.csr 0) true (aTally 0 3) = true ∧ (getTally tS 0).held = false) ∧ admitted tTal (.csr 1) true (aTally 8191 2) = true := by
  decide +kernel

/-! 10, 13, 12 -/

theorem witness_cistern_bytes_and_banks :
    (cisAt (0x0EFFFFFF : W32).toNat = .data 31 8388607 ∧ cisAt (0x0F000000 : W32).toNat = .reserved ∧ cisAt (0 : W32).toNat = .data 2 0) ∧
    (let s := cisStore tS 31 8388607 0x5A
     synKind (syndrome s 31 8388607) = .clean) ∧
    synKind (syndrome tS 31 8388607) = .unwritten ∧
    (let s := { tS with cistern := { tS.cistern with data := [(cisKey 31 64, 1)], check := [(cisKey 31 64, checkOf 64 0)], scrubQ := [1] } }
     cisAt (0xEC0 : W32).toNat = .data 31 64 ∧ inSlice s (64 / 64 / 16) = true ∧
      (List.range 64).any (fun i => corrects s 31 (64 / 64 * 64 + i)) = true ∧ (31, 64 / 64) ∉ s.cistern.superseded) ∧
    (let s := { tS with cistern := { tS.cistern with found := [(31, 0, 4, 0), (31, 1, 0, 1), (31, 2, 3, 0)] } }
     rowBad s 31 0 = true ∧ rowBad s 31 1 = true ∧ rowBad s 31 2 = false) ∧
    (bankRefusal (onK fun k => { k with shutdown := true }) 31 = none ∧ bankRefusal tS 0 = some brExec ∧ bankRefusal tS 1 = none ∧
      bankRefusal tS 32 = some brBad ∧ bankRefusal tS 2 = some brInuse ∧ 31 < tS.cistern.banks.length) ∧
    (tS.cistern.banks[31]? = some Bank.reset ∧ (List.range 32).find? (fun k => !(Bank.reset.remap.any fun m => m.2 == k)) = some 0) ∧
    (let s := { tS with cistern := { tS.cistern with scrubQ := [64], scrubPos := 8191 } }
     s.cistern.scrubQ = 64 :: [] ∧ inSafe s uCis = false ∧ s.cistern.scrubPos < 8192) := by decide +kernel

theorem witness_stored_bytes_are_protected :
    (0x7FFFFF : Nat) < 2 ^ 23 ∧ (∀ c ∈ tS.cistern.data, c.1 ≠ cisKey 31 0x7FFFFF) ∧ (∀ c ∈ tS.cistern.check, c.1 ≠ cisKey 31 0x7FFFFF) := by decide +kernel

theorem witness_meter_and_label_commands :
    (periodDue { tS with time := { tS.time with tick := 3600000000000 - 1 } } (3600000000000 - 1) = true ∧
      periodDue { tS with time := { tS.time with tick := 3600000000000 - 2 } } (3600000000000 - 2) = false) ∧
    (admitted tS .mgmt true aWcCtl = true ∧ pathOf .mgmt ≠ 0 ∧ lockSet tS lkWcMgmt = false ∧ tS.belfry.run = true) ∧
    (admitted tS (.csr 1) true aErgCtl = true ∧ partOf (.csr 1) < tS.erg.clrPend.length) ∧
    (admitted tS (.csr 0) true aDctl = true ∧ fld (15 : W32) 0 4 < tS.parts.length ∧ (getPart tS 15).armed = none) ∧
    (getPart (onP fun q => { q with armed := some ⟨1, 2, none⟩ }) 1).armed = some ⟨1, 2, none⟩ ∧
    (let j : DumpJob := ⟨1, 0, 0, 0, tDsc 5 0, false, 0, [], [], 0, []⟩
     (getPart (onP fun q => { q with dumpQ := [j] }) 1).dumpQ = j :: []) := by decide +kernel

theorem witness_privileged_commands :
    (admitted tS .mgmt true aCmd = true ∧ instOf .mgmt < tS.keep.cmd.length ∧ pathOf .mgmt ≠ 0 ∧ lockSet tS lkCmdMgmt = false ∧
      admitted tS (.csr 1) true aCmd = true) ∧
    (∀ x ∈ [((1 : Nat) * 2 ^ 16, cmdTest), (0, cmdRelease), (0, cmdShutdown), (0, cmdRepairClear)],
      let w := cmdWord (BitVec.ofNat 32 x.1) x.2
      let v := setFld (setFld w 28 1 0) 29 3 0
      mayCommand tS .mgmt w = true ∧ cmdIssueCause tS 16 v (getCmd tS 16).arg = none ∧ (getCmd tS 16).running = none) ∧
    cmdIssueCause tDie 16 (setFld (setFld (cmdWord 0 cmdShutdown) 28 1 0) 29 3 0) (getCmd tDie 16).arg = some ccNotReady ∧
    mayCommand tS (.csr 1) (cmdWord 0 cmdShutdown) = false := by decide +kernel

theorem witness_parity_and_reload :
    (11 < 12 ∧ (11 : Nat) ≠ uThm ∧ (tS.keep.cfgpar.filter fun x => x.1 == 11 && decide (tS.time.tick.toNat < x.2.toNat + 1000000000)).length < 2) ∧
    (let s := onK fun k => { k with unitEn := 0x3FFE, safe := [0] }
     s.boot.firmware = true ∧ s.keep.kwrDown = false ∧ s.keep.unitEn.getLsbD 0 = false ∧ 0 ∉ s.keep.unitHeld ∧ bitOf s.keep.unitOff 0 = false) ∧
    tS.keep.unitEn.getLsbD 11 = true ∧
    (let s := onK fun k => { k with unitEn := 0x3FFE, unitHeld := [0] }
     s.keep.unitEn.getLsbD 0 = false ∧ 0 ∈ s.keep.unitHeld) := by decide +kernel

def tI3c (s : State := tS) : State := { s with image := some { tImg with area := { tArea with mgmtMode := 2 } } }

theorem witness_management_bus_and_i3c :
    busServes tS = true ∧ (0xFFFFFC : BitVec 24).toNat % 4 = 0 ∧ (0xFFFFFE : BitVec 24).toNat % 4 ≠ 0 ∧ i3cMode tS = false ∧ i3cMode (tI3c tS) = true ∧
    busServes (tI3c tS) = true ∧ (tI3c tS).mgmt.dyn = none ∧ tS.mgmt.nackOnce = false ∧
    ({ tS with mgmt := { tS.mgmt with nackOnce := true } } : State).mgmt.nackOnce = true ∧
    (let s := { tS with mgmt := { tS.mgmt with addr := 0x30004 } }
     admitted s .mgmt true s.mgmt.addr.toNat = true ∧ locOf s s.mgmt.addr.toNat = .cvn 4) := by decide +kernel

def tMem (r : MemReq) : State := { tS with near := { tS.near with out := [r] } }
/-- A write of trace line 4 of partition 1, and a read of slot 0 of its oasis area of which some words have come. -/
def tWr (retries : Nat) (due : Bool) : MemReq := ⟨3, .trace 1 4, 1, true, 0, 1, [], false, retries, due⟩
def tRd (lines : Nat) (poison : Bool) : MemReq := ⟨3, .oasisRead 1 0, 1, false, 0, lines, [], poison, 0, false⟩

/-- A read of two lines waits for its first, the last but one; a read of one line for its last. -/
theorem witness_memory_port_responses :
    awaited (tMem (tWr 2 false)) false 3 = some (tWr 2 false) ∧ awaited (tMem (tWr 3 false)) false 3 = some (tWr 3 false) ∧
    (memPort (tMem (tWr 2 true)) false).out.find? (fun r => r.tag == 3 && r.retryDue) = some (tWr 2 true) ∧ awaited tS true 0 = none ∧
    tS.belfry.run = true ∧ logEntry (tWr 2 false).item = some (3, 1, 4) ∧
    ((tMem (tWr 2 false)).near.cur.any fun c => c.num == (tWr 2 false).issue) = false ∧
    (∀ b ∈ [false, true], awaited (tMem (tRd 2 b)) false 3 = some (tRd 2 b) ∧ (tRd 2 b).words.length + 16 < 16 * (tRd 2 b).lines ∧
      awaited (tMem (tRd 1 b)) false 3 = some (tRd 1 b) ∧ 16 * (tRd 1 b).lines ≤ (tRd 1 b).words.length + 16) := by decide +kernel

/-! 08, 09 -/

def tPortS (f : Port → Port) (s : State := tS) : State := updPort s 3 f
def tUp (p : Port) : Port := { p with up := true, qver := 2, ver := 2, peerDie := 9, recvSeq := 4, sendSeq := 6, trained := 1, measured := true }
def tSent (q : W16) (n : Nat) : SentFrame := ⟨0x20, q, [], n⟩
def tHb (seq ackseq : W16) : BanHdr := ⟨3, seq, ackseq, 9, 7, 2⟩
def tHello (v : BitVec 3) (die : W16) : HelloBody := ⟨v, 1, 1, die, 5, 6⟩

theorem witness_banen_frames_and_link_up :
    (let s := tPortS tUp
     3 < s.ports.length ∧ (getPort s 3).up = true ∧ (tHb 5 0).port = 3 ∧ (tHb 5 0).seq ≠ (getPort s 3).recvSeq ∧ (tHb 4 0).seq = (getPort s 3).recvSeq) ∧
    (let s := tPortS fun p => { tUp p with replay := [tSent 4 14, tSent 5 0] }
     (getPort s 3).replay = tSent 4 14 :: [tSent 5 0] ∧ (∀ x ∈ (getPort s 3).replay, x.resends < 15 ∧ earlierThan x.seq (tSent 4 14).seq = false) ∧ (getPort s 3).queue = []) ∧
    (let s := tPortS fun p => { tUp p with replay := List.replicate 128 (tSent 4 0), queue := [(0x20, [])] }
     ((getPort s 3).replay.filter fun f => !earlierThan f.seq (tHb 4 4).ackseq).length = 128 ∧
      ((getPort s 3).replay.filter fun f => !earlierThan f.seq (tHb 4 5).ackseq).length = 0) ∧
    (let s := tPortS fun p => { tUp p with replay := List.replicate 128 (tSent 4 0) }
     (getPort s 3).queue = [] ∧ 128 ≤ ((getPort s 3).replay.filter fun f => !earlierThan f.seq (tHb 4 4).ackseq).length) ∧
    (let s := tPortS fun p => { tUp p with replay := [tSent 4 15] }
     (getPort s 3).replay = tSent 4 15 :: [] ∧ 15 ≤ (tSent 4 15).resends ∧ earlierThan (tSent 4 15).seq (tSent 4 15).seq = false) ∧
    (let s := tPortS fun p => { p with qver := 2 }
     (getPort s 3).up = false ∧ (getPort s 3).qver ≠ 0 ∧ (9 : W16) ≠ dieId s ∧ ([3, 2, 1].find? fun v => bitOf (tHello 3 9).versions (v - 1)) = some 2 ∧ minVer s 3 ≤ 2 ∧ (getPort s 3).qver ≤ 2 ∧
     (tHello 2 7).dieId = dieId s ∧ ([3, 2, 1].find? fun v => bitOf (tHello 1 9).versions (v - 1)) = some 1 ∧ minVer s 3 ≤ 1 ∧ 1 < (getPort s 3).qver) ∧
    (let s := tPortS fun p => { p with up := true, peerDie := 9 }
     ∃ x, x < banPorts ∧ x ≠ 2 ∧ (getPort s x).up = true ∧ (getPort s x).peerDie = (tHello 2 9).dieId) ∧
    (let s := { tPortS tUp with time := { tS.time with tsync := 8 } }
     (getPort s 3).up = true ∧ (getPort s 3).measured = true ∧ bitOf s.time.tsync 3 = true) := by decide +kernel

theorem witness_clocks_and_time_reference :
    (HostClk.nclk ∉ tS.keep.lostNow ∧ 1 < tS.parts.length ∧ (onK fun k => { k with lostNow := [.pclk] }).keep.lostNow = [.pclk]) ∧
    (tS.time.trefOk = true ∧ ({ tS with time := { tS.time with holdover := true } } : State).time.holdover = true) ∧
    (ppsMode tS ≠ 0 ∧ tS.time.run = true ∧ tS.time.alignWait = false ∧ ({ tS with time := { tS.time with ppsSeen := true } } : State).time.ppsSeen = true) ∧
    ({ tS with time := { tS.time with alignWait := true } } : State).time.alignWait = true ∧ ppsMode State.reset = 0 := by decide +kernel

/-- A link message from die 7 to die 9 (R83). -/
def tMsgH : BitVec 512 := BitVec.ofNat 512 (7 * 2 ^ 84 + 9 * 2 ^ 100)
def tLt : LtMsg := ⟨0, tMsgH, [], false, 77⟩
def tKey : SealKey := ⟨9, 1, 0, 5, 2⟩
def tSealB : SealBody := ⟨tKey, 1, 0x55, 70, false⟩

theorem witness_link_seals :
    (let s := tPortS tUp
     mReserved tLt.hdr = false ∧ tLt.drop = false ∧ portAt s (mDst tLt.hdr) tLt.firstTick = some 3 ∧ 3 < s.ports.length ∧ inSafe s uBan = false ∧
      (getPort s 3).up = true ∧ (getPort s 3).replay.length < 128 ∧ (getPort s 3).queue = [] ∧ portAt s (mDst tLt.hdr) 0 = none ∧
      portAt s (mDst tLt.hdr) 1 = some 3 ∧ mPart tLt.hdr < s.parts.length) ∧
    portAt tS (mDst tLt.hdr) tLt.firstTick = none ∧
    (let e : SealEnt := ⟨tKey, some (0x55, 1, false, 0, 77), some (0x55, 1, false, 70), 77, 3, false, false⟩
     let s := { tPortS tUp with seals := [e] }
     s.seals.find? (fun e => e.key == tKey) = some e ∧ e.unread = false ∧ sealDecide s e true = some slMatch) ∧
    mReserved (1 <<< 116) = true ∧ mDst tLt.hdr = 9 ∧
    ((∀ e ∈ tS.seals, e.key ≠ mKey tLt.hdr) ∧ tS.seals.length < 16384 ∧ quotaOk tS (mPart tLt.hdr) lvTbl = true) ∧
    (let s := tPortS tUp
     (getPort s (tHb 4 0).port).up = true ∧ (tHb 4 0).seq = (getPort s (tHb 4 0).port).recvSeq ∧ inSafe s uBan = false ∧
     (∀ e ∈ s.seals, e.key ≠ tSealB.key) ∧ s.seals.length < 16384 ∧ quotaOk s tSealB.key.part lvTbl = true) := by decide +kernel

/-- A launch 7 whose present attempt, and the one before it, port 3 was asked for. -/
def tLaunchS (role attempt : Nat) (c n : Bool) (ab : Bool := false) : State :=
  { tPortS tUp with launch := ⟨role, 50000, 7, 8, attempt, [], [(3, 7, attempt)], ab, c, n, false, 3⟩ }
def tAsked (s : State) : Bool :=
  (s.launch.props.find? fun x => x.1 == (tHb 4 0).port && x.2.1 == 7) == some (3, 7, s.launch.attempt)

theorem witness_launch :
    ((getPort (tPortS tUp) (tHb 4 0).port).up = true ∧ (tHb 4 0).seq = (getPort (tPortS tUp) (tHb 4 0).port).recvSeq ∧ (tHb 4 0).port < tS.ports.length ∧
      (getPort (tPortS tUp) 3).replay.length < 128 ∧ (getPort (tPortS tUp) 3).queue = [] ∧ (tPortS tUp).launch.role = 0) ∧
    (tAsked (tLaunchS 1 1 false false) = true ∧ (tLaunchS 1 1 false false).launch.role = 1 ∧ (tLaunchS 1 1 false false).launch.num = 7 ∧
      (tLaunchS 1 1 false false).launch.committed = false ∧ tS.time.tick.toNat + 20000 < (tLaunchS 1 1 false false).launch.t.toNat) ∧
    (tAsked (tLaunchS 1 2 false false) = true ∧ (tLaunchS 1 2 false false).launch.attempt < 3) ∧
    (tAsked (tLaunchS 1 3 false false) = true ∧ 3 ≤ (tLaunchS 1 3 false false).launch.attempt ∧ (tLaunchS 1 3 false false).launch.committed = false) ∧
    (let s := { tLaunchS 1 2 false false with launch := { (tLaunchS 1 2 false false).launch with props := [(3, 7, 1)] } }
     s.launch.props.find? (fun x => x.1 == 3 && x.2.1 == 7) = some (3, 7, 1) ∧ (1 : Nat) ≠ s.launch.attempt) ∧
    concernsPeer (tLaunchS 2 0 false false true) (tHb 4 0) 7 = true ∧ (tLaunchS 2 0 false false true).launch.aborted = true ∧
    concernsPeer (tLaunchS 2 0 false false) (tHb 4 0) 7 = true ∧ concernsPeer (tLaunchS 2 0 false true) (tHb 4 0) 7 = true ∧
    ((tLaunchS 2 0 true false).launch.role ≠ 0 ∧ (tLaunchS 2 0 true false).launch.committed = true ∧ (tLaunchS 2 0 true false).keep.dieFault = false) ∧
    ((tLaunchS 2 0 false false).launch.committed = false ∧ (tLaunchS 2 0 false false).launch.naked = false ∧
      (tLaunchS 2 0 false false).launch.aborted = false ∧ 0 < (tLaunchS 2 0 false false).parts.length ∧ (tLaunchS 2 0 false true).launch.naked = true) := by decide +kernel

def tRep : ReplicaCfg := ⟨1, 9, 2, true⟩
def tLd (p : Nat) : LdBody := ⟨p, 0, 0, 0, 42, 0, 0, 1, 1, 2, 0, 1, 0, 0, 0, 0, 0, 0⟩
def tRepS : State := { tPortS tUp with image := some { tImg with replicas := [tRep] } }

theorem witness_digest_frames :
    (let s := tPortS tUp
     (getPort s (tHb 4 0).port).up = true ∧ (tHb 4 0).seq = (getPort s (tHb 4 0).port).recvSeq ∧ inSafe s uBan = false ∧ s.peerRecs = [] ∧
     (∀ e ∈ replicas s, e.2.peerDie ≠ (tHb 4 0).src ∧ e.2.peerDie ≠ dieId s)) ∧
    (let r : PeerRec := ⟨(tHb 4 0).src, tLd 2, []⟩
     r.die = (tHb 4 0).src ∧ r.body.part = (tLd 2).part ∧ samePos r.body (tLd 2) = true ∧ laterThan r.body.epoch (tLd 2).epoch = false ∧
      laterThan { tLd 2 with epoch := 1 }.epoch (tLd 2).epoch = true) ∧
    (let c : ClosedKey := ⟨tLd 1, [(0, 7)], true, [0], [0], [], false⟩
     let s := onP (fun q => { q with closed := [c] }) tRepS
     replicas s = [(0, tRep)] ∧ tRep.peerDie = (tHb 4 0).src ∧ (tHb 4 0).src ≠ dieId s ∧ tRep.peerPart = (tLd 2).part ∧ tRep.part < s.parts.length ∧
     s.peerRecs = [] ∧ s.peerTds = [] ∧ closedAt s tRep.part 0 0 42 = some c ∧ c.diverge = [0] ∧ 0 ∈ c.compared ∧ c ∈ (getPart s tRep.part).closed ∧
     (∀ x ∈ (getPart s tRep.part).closed, samePos x.body c.body = true → x = c) ∧ c.body.spires ≤ [((0 : W16), (8 : W64))].length ∧
     s.belfry.run = true) ∧
    (let s := { tRepS with peerRecs := [⟨9, tLd 2, []⟩] }
     1 < s.parts.length ∧ replicas s = [(0, tRep)] ∧ tRep.part = 1 ∧ tRep.peerDie ≠ dieId s ∧ closedAt s 1 0 0 42 = none ∧
     otherSide s (0, tRep) 0 0 42 = some (tLd 2)) ∧
    (let j : AttJob := ⟨1, 0, 0, 0, []⟩
     ({ tS with attQ := [j] } : State).attQ.find? (fun j => j.part == 1) = some j) := by decide +kernel

theorem witness_caravan_retries_and_grants :
    (let l := LinkId.mesh 0 3 2
     getDome tS (linkDome l) = some tDome ∧ crc8 128 ((0 : BitVec 128)).toNat ≠ ((1 : Byte)).toNat ∧ crc8 128 0 = ((0 : Byte)).toNat ∧ linkLive tDome (normLink l) = true ∧ 1 ≤ seamErrMax tS ∧
     (∀ e ∈ tDome.seamErr, e.1 = normLink l → e.2.2 < seamErrMax tS) ∧
     (∀ n ∈ [15, 16], ({ tDome with retries := [(normLink l, n)] } : Dome).retries.find? (fun r => r.1 == normLink l) = some (normLink l, n)) ∧
     linkLive { tDome with down := [normLink l] } (normLink l) = false) ∧
    (getSp tS 1 = some (tSp 1) ∧ getDome tS (1 / 256) = some tDome ∧ getDome tS 63 = none ∧
      recentGrants tS { tDome with granted := [(1, 2048, 1)] } 1 ≤ 2048) := by decide +kernel

/-! 11 -/

theorem witness_cold_resets :
    (State.reset.pads.coldReset = true ∧ State.reset.pads.thermtrip = false ∧
      ({ State.reset with pads := { State.reset.pads with thermtrip := true } } : State).pads.thermtrip = true ∧ tS.pads.coldReset = false ∧
      15 < tS.parts.length) := by decide +kernel

def tStep (f : Boot → Boot) (s : State := State.reset) : State := { s with boot := f { s.boot with started := true } }
/-- A header that passes its own checks (R409), and no more bytes. -/
def tHdrBytes : List Byte :=
  let h := leBytes 4 0x4D494B5A ++ leBytes 2 1 ++ [Config.arch, Config.release] ++ leBytes 4 448 ++ List.replicate 240 0
  h ++ leBytes 4 (crc32c h).toNat
def tRead (bytes : List Byte) : ImageRead := ⟨false, true, bytes, none, []⟩

set_option maxRecDepth 20000 in
theorem witness_bring_up_step1 :
    (let s := tStep fun b => { b with step := 1 }
     let x : FusePass := ⟨State.reset.fuses, List.replicate 14 0⟩
     let checks := fun x : (Nat × Nat) × W32 => (x.1.2 = 0 ∧ x.2 = 0) ∨ crc32c (leBytes x.1.1 x.1.2) = x.2
     (s.boot.step = 1 ∧ s.boot.readOk = false ∧ s.boot.retries < 3 ∧ 3 ≤ ({ s.boot with retries := 3 } : Boot).retries) ∧
      x.crcs.length = 14 ∧ (∀ y ∈ (fuseRegions x.array).zip x.crcs, checks y) ∧ (⟨x, ⟨x.array, []⟩⟩ : FuseRead).first ≠ ⟨x.array, []⟩) ∧
    (let s := tStep fun b => { b with step := 1, readOk := true }
     s.boot.step = 1 ∧ s.boot.readOk = true ∧ s.boot.discovered = false) ∧
    (let s := tStep fun b => { b with step := 1, readOk := true, discovered := true }
     s.boot.step = 1 ∧ s.boot.discovered = true ∧ s.image = none ∧
     ((trialOrder (tRead tHdrBytes)).find? fun b => imgCode s b == 0) = some (tRead tHdrBytes).slotB ∧ trialOrder (tRead []) = []) ∧
    (let s := { tS with boot := { tS.boot with step := 1 } }
     s.boot.step = 1 ∧ s.image.isSome = true) ∧ tS.boot.step ≠ 1 := by decide +kernel

theorem witness_bring_up_steps2_and3 :
    (let s := onBoot fun b => { b with step := 2 }
     s.boot.step = 2 ∧ tSp 1 ∈ s.spires ∧ (s.spires.map (·.ix)).Nodup ∧
     [(0, (2 : BitVec 4)), (1, 3)].find? (fun t => t.1 == (tSp 1).ix) = some ((tSp 1).ix, 3) ∧ ppsMode s ≠ 2) ∧
    ppsMode { tS with image := some { tImg with recov := { tRecov with ppsMode := 2 } } } = 2 ∧
    (let s := onBoot fun b => { b with step := 3 }
     s.boot.step = 3 ∧ s.engines.length = 64 ∧ s.samples = [] ∧ (15 < licEng s ∧ 15 ∉ List.range 15) ∧ (∀ e, e < licEng s → e ∈ List.range 16)) ∧
    tS.boot.step ≠ 2 ∧ tS.boot.step ≠ 3 := by decide +kernel

def tQualS (mand : BitVec 4) (f : Boot → Boot) : State :=
  { onBoot f with image := some { tImg with geom := { tGeom with banen := 4 }, bringup := { tImg.bringup with banMand := mand } } }
def tQual (v : Nat) (peer locked : Bool) : BanQual := ⟨0, v, peer, locked, [], [], none⟩

theorem witness_link_qualification :
    (let s := onBoot fun b => { b with step := 4, seams := false, ready := false }
     s.boot.step = 4 ∧ s.boot.seams = false ∧ tDome ∈ s.domes ∧ (s.domes.map (·.ix)).Nodup) ∧
    (let s := tQualS 1 fun b => { b with step := 5, ready := false, ent := 0x1C }
     mayQualify s 0 = true ∧ (tQual 3 false true).version = nextVer s 0 ∧ (tQual 3 false true).hello = none ∧ minVer s 0 < 3 ∧
     nextVer (updPort s 0 fun p => { p with cand := 1 }) 0 = (tQual 1 true false).version ∧ qualPasses (tQual 3 true false) = false ∧ 0 < s.ports.length ∧ (tQual 3 false true).peer = false ∧
     qualPasses (tQual 3 true true) = true ∧ qualPasses (tQual 1 true false) = false ∧ (getPort s 0).quals + 1 ≤ bringRetry s ∧
     mandatory s 0 = true ∧ minVer s 0 = 1 ∧ s.boot.ready = false ∧ s.boot.step ≠ 7 ∧
     bringRetry s < ({ getPort s 0 with quals := 3 } : Port).quals + 1 ∧ ({ getPort s 0 with waiting := true } : Port).waiting = true) ∧
    (let s := tQualS 0 fun b => { b with ent := 0x1C }
     mayQualify s 0 = true ∧ s.boot.ready = true ∧ mandatory s 0 = false) := by decide +kernel

theorem witness_compute_release_and_ready :
    (let s := onBoot fun b => { b with step := 4, ready := false }
     step5Begins s = true ∧ (s.image.map releaseSlots).getD [] = [0] :: []) ∧
    (let s := onS (fun p => { p with lv := { p.lv with rstAck := true } }) (onBoot fun b => { b with step := 5, slots := [[0]] })
     s.boot.step = 5 ∧ s.boot.slots = [[0]] ∧ spOf s ∈ s.spires ∧ tTile 0 ∈ s.tiles ∧ (tTile 0).ix = (spOf s).ix ∧ (s.spires.map (·.ix)).Nodup ∧
     (s.tiles.map (·.ix)).Nodup ∧ (tTile 0).ix / 256 = 0 ∧ (tTile 0).state ≠ stDead ∧ (tTile 0).state ≠ stRetired ∧ (tTile 0).lost = false ∧
     (spOf s).lv.rstAck = true) ∧
    (let s := { updEng (onBoot fun b => { b with step := 5, ready := false, fallback := true }) 0 fun e => { e with state := .free } with
       domes := [{ tDome with groupsUp := [true], groupsDn := [true] }] }
     readyNow s = true ∧ 1 < s.parts.length ∧ s.boot.fallback = true) ∧
    readyNow tS = false ∧ ({ tS with time := { tS.time with holdover := true } } : State).time.holdover = true ∧ tS.time.holdover = false ∧
    tS.time.trefOk = true := by decide +kernel

theorem witness_jtag :
    State.reset.pads.pwrGood = true ∧ State.reset.pads.coldReset = true ∧ tS.pads.coldReset = false ∧ WellFormed (.bypass 0xFF) = true ∧
    WellFormed (.manufacturingTest ⟨0x80, State.reset.fuses⟩) = true ∧ WellFormed (.manufacturingTest ⟨0xBF, State.reset.fuses⟩) = true ∧
    tS.fuses.dbgLock = false ∧ ({ tS with fuses := { tS.fuses with dbgLock := true } } : State).fuses.dbgLock = true ∧
    ({ tS with pads := { tS.pads with pwrGood := false } } : State).pads.pwrGood = false := by decide +kernel

def tRunS (again seen : Bool) (going : Bool := true) (first : Bool := false) : State :=
  onT fun x => { x with run := some ⟨0, again, 5, seen, going, first⟩ }
/-- A checker self-test that passes. -/
def tChk : CheckerRun := ⟨List.replicate 3 ⟨true, true, true, [4], 4⟩, true, true, true⟩

theorem witness_self_test_slices :
    (∀ a ∈ [false, true], ∀ b ∈ [false, true],
      getTile (tRunS a b) 0 = some (tlOf (tRunS a b)) ∧ (tlOf (tRunS a b)).run = some ⟨0, a, 5, b, true, false⟩ ∧
      (tlOf (tRunS a b true true)).run = some ⟨0, a, 5, b, true, true⟩ ∧ ((tlOf (tRunS a b false)).run.map (·.going)) = some false) ∧
    tChk.passes = true ∧ ({ tChk with ranges := false } : CheckerRun).passes = false ∧
    (∀ a ∈ [false, true], (getEng (updEng tS 63 fun e => { e with run := some ⟨0, a, 5, true, true, false⟩ }) 63).run = some ⟨0, a, 5, true, true, false⟩) ∧
    (entryAt (fullSet (tRunS false false) 0) 0).sig = 0xAB ∧ (0xAC : W64) ≠ (entryAt (fullSet (tRunS false false) 0) 0).sig ∧
    getSp (tRunS false false) 0 = some (tSp 0) ∧ getTile tS 16383 = none ∧ (getEng tS 63).run = none := by decide +kernel

theorem witness_self_test_ends :
    (let mine := fun r : SliceReq => r.inst == some (instOf .mgmt) && r.waitIdle && !r.begun
     let r : SliceReq := ⟨1, 0, false, false, some 16, true, 0, 0, false⟩
     let s := onK (fun k => { k with cmd := updAt k.cmd 16 fun c => { c with running := some 5, shown := 1 } }) (onT fun x => { x with reqs := [r] })
     instOf .mgmt < s.keep.cmd.length ∧ s.tiles.find? (fun t => t.reqs.any mine && !((getSp s t.ix).map (·.lv.idle)).getD false) = some (tlOf s) ∧
     (getCmd s (instOf .mgmt)).running = some 5 ∧ (getCmd s (instOf .mgmt)).queued = none ∧ (getCmd s (instOf .mgmt)).shown = 1) ∧
    (let s := { tS with nvm := { tS.nvm with snapPending := true, snapTick := some 1 }, time := { tS.time with tick := 100000001 } }
     s.nvm.snapPending = true ∧ 100000000 ≤ s.time.tick.toNat - (1 : W64).toNat ∧ inSafe s uNvm = false ∧
      s.nvm.snapTick = some 1 ∧ (100000000 : W64).toNat - (1 : W64).toNat < 100000000) ∧
    tS.nvm.snapPending = false ∧
    (let s := { tS with thermal := { tS.thermal with sdtState := 1 } }
     s.thermal.sdtState = 1 ∧ (∀ x ∈ s.tiles, x.run = none) ∧ (∀ g ∈ s.engines, g.run = none) ∧ s.thermal.sdtBanks = [] ∧ s.nvm.repairDue = [] ∧ inSafe s uNvm = false) ∧
    ({ tS.thermal with sdtState := 1, sdtBanks := [1] } : Thermal).sdtBanks ≠ [] ∧ tS.thermal.sdtState ≠ 1 := by decide +kernel

/-- Every trim with A10 = 512 and B10 = 400: a count of 4,096 reads 25 °C, of 4,296 65 °C, of 4,546 115 °C. -/
def tTrim : State := { tS with fuses := { tS.fuses with trim := List.replicate 16385 (BitVec.ofNat 20 (512 + 400 * 2 ^ 10)) } }
def tSens (t lvl trips diffs : Nat) : Sensor := ⟨t, true, false, false, lvl, trips, diffs⟩

theorem witness_temperature_sensors :
    (getSensor tTrim true 0 = some Sensor.zero ∧ Sensor.zero.bad = false ∧ 160 ≤ (trimD (trimOf tTrim true 0)).natAbs ∧
      reading [] (trimOf tTrim true 0) 4546 = 460 ∧ reading [] (trimOf tTrim true 0) 4545 = 459 ∧ thrAt tTrim 4 = 460 ∧
      reading [] (trimOf tTrim true 0) 4721 = 600) ∧
    ((100 : Int) ≤ 100 ∧ reading [] (trimOf tTrim false 0) 4096 = 100 ∧ (reading [] (trimOf tTrim false 0) 4096 - domeRef tTrim 0).natAbs ≤ 100 ∧
      100 < (reading [] (trimOf tTrim false 0) 4098 - domeRef tTrim 0).natAbs) ∧
    (let s := updDome tTrim 0 fun d => { d with sensor := tSens 0 0 0 0 }
     (getDome s (0 / 256)).map (·.sensor.valid) = some true ∧ (tSens 0 0 0 1).diffs < 2 ∧ 2 ≤ (tSens 0 0 0 2).diffs ∧ 1 ≤ (tSens 0 0 1 0).trips) ∧
    (trimD (trimOf tS true 0)).natAbs < 160 ∧
    (let s := onS fun p => { p with sensor := tSens 327 1 0 0 }
     getSensor s false 0 = some (tSens 327 1 0 0) ∧ (tSens 327 1 0 0).lvl ≠ 0 ∧ (tSens 327 1 0 0).bad = false ∧
     (tSens 327 1 0 0).temp < thrAt s (tSens 327 1 0 0).lvl - 4 * ((s.image.map (·.thermal.hyst)).getD 3 : Nat) ∧
     thrAt s 1 - 4 * ((s.image.map (·.thermal.hyst)).getD 3 : Nat) ≤ (tSens 328 1 0 0).temp ∧ Sensor.zero.lvl = 0) := by decide +kernel

end Sys2Proof.Tests

namespace Sys2Proof.Tests

open Sys2Proof Sys2Proof.Machine

/-! ### Witnesses: the clauses at the edges of their ranges -/

/-- A descriptor of tag 5 with the format codes A, B, C, ACC and K, M_T = 2 and N = 32 (R51). -/
def tDscF (a b c acc k : Nat) : Dsc :=
  let x := 1 + a * 2 ^ 4 + b * 2 ^ 8 + c * 2 ^ 12 + acc * 2 ^ 16 + 42 * 2 ^ 32 + 7 * 2 ^ 48 + 99 * 2 ^ 64 + 5 * 2 ^ 112 + 2 * 2 ^ 128 +
    (k - 1) * 2 ^ 144 + 31 * 2 ^ 160
  BitVec.ofNat 256 (x + 2 ^ 240 * crc16 240 x)
def tOpF (d : Dsc) : OpCtx := openCtx tS (tSp 0) 1 d false true false
def tSOpF (d : Dsc) (f : OpCtx → OpCtx := id) : State := { tS with spires := [{ tSp 0 with ops := [f (tOpF d)] }, tSp 1], opSeq := 2 }
def tF32 : Dsc := tDscF 7 7 7 7 64

/-- R130: a beat of the INT8 row of four elements, whose window the format places; and the first 16 of 64 binary32 elements, before the
first K block ends. -/
theorem witness_checkable_operand_beats :
    (∀ k ∈ [0, 1], let d := if k = 0 then tDsc 5 0 else tF32
      let s := tSOpF d
      let o := tOpF d
      let ps := newPass o.dsc o.passesDone
      getSp s 0 = some (spOf s) ∧ tapLive s (spOf s) = true ∧ (spOf s).lv.ft = false ∧ (spOf s).injSlot = none ∧ (spOf s).torn = [] ∧
      (spOf s).refused = [] ∧ (∀ y ∈ openOps (spOf s), y.opRow.stalled = false ∧ midPass y = false) ∧ (spOf s).pass = none ∧
      findOpen (spOf s) 5 = some o ∧ dMatmul o.dsc = true ∧ o.checkable = true ∧ o.passesDone < dPasses o.dsc ∧ ps.ended = false ∧
      (beatTake (perBeat (dA o.dsc) (beatBits (spOf s).tap.ver)) (dPassLen o.dsc o.passesDone) ps.pos.col (k == 0)).2 = false) ∧
    (newPass (tDsc 5 0) 0).top.isSome = true ∧ (newPass tF32 0).top = none ∧
    (beatTake (perBeat (dA tF32) (beatBits 3)) (dPassLen tF32 0) 0 false).1 = 16 ∧
    (∀ i, i < 16 → (0 + i) % 32 ≠ 31 ∧ 0 + i + 1 ≠ dPassLen tF32 0) := by decide +kernel

/-- R91: the row of an operation of either kind gets a wrong length, LAST missing at its end; a beat beyond the last pass; a refused tag while
an inject slot is open; and the beat of an open slot's operation. -/
theorem witness_operand_faults :
    (∀ f ∈ [0, 2], let s := tSOpF (tDsc 5 f)
      let o := tOpF (tDsc 5 f)
      findOpen (spOf s) 5 = some o ∧ dMatmul o.dsc = true ∧ dA o.dsc ≠ .opq ∧ o.checkable = decide (f = 0) ∧ o.passesDone = 0 ∧
      (beatTake (perBeat (dA o.dsc) (beatBits (spOf s).tap.ver)) (dPassLen o.dsc o.passesDone)
        (if o.checkable then ((spOf s).pass.getD (newPass o.dsc o.passesDone)).pos.col else o.opRow.col) false).2 = true ∧
      (beatTake (perBeat (dA o.dsc) (beatBits (spOf s).tap.ver)) (dPassLen o.dsc o.passesDone) o.opRow.col true).2 = false) ∧
    dPasses (tDsc 5 0) ≤ ({ tOp with passesDone := 1 } : OpCtx).passesDone ∧
    (let s := onS (fun p => { p with injSlot := some 1 }) (tSOp id)
     getSp s 0 = some (spOf s) ∧ tapLive s (spOf s) = true ∧ (spOf s).lv.ft = false ∧ (spOf s).injSlot = some tOp.uid ∧ (spOf s).torn = [] ∧
      (spOf s).refused = [] ∧ (∀ y ∈ openOps (spOf s), y.opRow.stalled = false) ∧ findOpen (spOf s) 5 = some tOp ∧
      ((spOf s).ops.find? fun y => !y.closed && y.uid == tOp.uid) = some tOp) ∧
    (let s := onS (fun p => { p with injSlot := some 1, refused := [5] }) (tSOp id)
     getSp s 0 = some (spOf s) ∧ tapLive s (spOf s) = true ∧ (spOf s).lv.ft = false ∧ (5 : W16) ∈ (spOf s).refused ∧
      (∀ x ∈ openOps (spOf s), x.opRow.stalled = false)) := by decide +kernel

theorem witness_checksum_row_of_an_unchecked_operation :
    (let s := tSNo
     let o := (findOpen (spOf s) 5).getD tOp
     getSp s 0 = some (spOf s) ∧ tapLive s (spOf s) = true ∧ (spOf s).lv.ft = false ∧ (∀ x ∈ openOps (spOf s), x.resRow.stalled = false) ∧
      findOpen (spOf s) 5 = some o ∧ o.checkable = false ∧ (spOf s).tap.ver = 3 ∧ o.badRows = false) := by decide +kernel

/-- A closed checkable operation of one column group: with its screen on, each cause that stands or none; without accumulators; one of the
Float class. -/
def tShut (f : OpCtx → OpCtx) : State := tSOp fun o => f { o with closed := true }
theorem witness_group_judgements :
    (∀ f ∈ ([id, fun o => { o with closure := some .torn }, fun o => { o with optaint := true }, fun o => { o with cksat := true },
        fun o => { o with grps := [{ Grp.zero with taints := 1 }] }, fun o => { o with grps := [{ Grp.zero with ovf := true }] }] : List (OpCtx → OpCtx)),
      let s := tShut f
      let o := f { tOp with closed := true }
      getSp s 0 = some (spOf s) ∧ ((getTile s 0).map (·.lost)).getD false = false ∧ stateOf s 0 ≠ stDead ∧ (spOf s).ops.find? (·.closed) = some o ∧
      o.checkable = true ∧ o.nogrp = false ∧ (opEnv s (spOf s) o.dsc).off = false ∧ o.grps.length = 1 ∧
      comboClass (dA o.dsc) (dB o.dsc) (dC o.dsc) (dAcc o.dsc) = some .integer ∧ dCheckable o.dsc = true) ∧
    (let o : OpCtx := { tOpF tF32 with closed := true }
     let s := tSOpF tF32 fun o => { o with closed := true }
     (spOf s).ops.find? (·.closed) = some o ∧ o.checkable = true ∧ o.nogrp = false ∧ o.closure = none ∧ o.optaint = false ∧ o.cksat = false ∧
      o.grps = [Grp.zero] ∧ Grp.zero.taints = 0 ∧ Grp.zero.ovf = false ∧
      comboClass (dA o.dsc) (dB o.dsc) (dC o.dsc) (dAcc o.dsc) = some .float) ∧
    ((spOf (tShut fun o => { o with nogrp := true })).ops.map (·.nogrp)) = [true] := by decide +kernel

end Sys2Proof.Tests

namespace Sys2Proof.Tests

open Sys2Proof Sys2Proof.Machine

theorem witness_frames_in_copies :
    (let f := mkFrame 1 opFence 9
     ([] : SideCopies).getLast? = none ∧ ([(f, f, f), (f ^^^ 4, f, f)] : SideCopies).getLast? = some (f ^^^ 4, f, f) ∧
      ((f ^^^ 4) &&& f) ||| ((f ^^^ 4) &&& f) ||| (f &&& f) = f) ∧
    (let s := onT (fun x => { x with out := some { tOut 3 with op := opTestOn } }) (tOutS 3)
     (tlOf s).out = some { tOut 3 with op := opTestOn } ∧ quotaOk (tOutS 3) (partOfSp (tOutS 3) 0) lvRec = true ∧ inSafe (tOutS 3) uCis = false ∧
      (tlOf (tOutS 3)).superseded = [] ∧ (tOut 3).op ≠ opTestOn ∧ (tOut 3).op ≠ opTestOff) ∧
    cutOff (tOutS 0) 0 = false ∧ cutOff { tS with domes := [{ tDome with up := false }] } 0 = true := by decide +kernel

theorem witness_keep_restart_drain :
    drains tS = false ∧ drains (onK (fun k => { k with draining := true }) { tS with near := { tS.near with waiting := [.evidence tProf] } }) = true ∧
    mirrors (tCodeS 0) = true ∧ copyGood tS 0 = copyGood tS 1 := by decide +kernel

/-- R431: six samples of 32 rows that agree, and the two slices of a set; a sample row that differs; a first slice that fails. -/
def tEngS : State :=
  updEng { tS with image := some { tImg with golden := [⟨uEngineSet, 0, 5, 1, 100, 0xAB, false⟩, ⟨uEngineSet, 1, 5, 1, 100, 0xCD, false⟩] } } 63
    fun e => { e with state := .testing }
def tRun (a b : W64) (row : W32) : EngineRun :=
  ⟨List.replicate 5 (List.replicate 32 (7, 7)) ++ [List.replicate 31 (7, 7) ++ [(row, 7)]], [⟨some a, none, 3⟩, ⟨some b, none, 4⟩], 9⟩

theorem witness_engine_test_done :
    63 < tEngS.engines.length ∧ (getEng tEngS 63).state = .testing ∧ 0 < tEngS.parts.length ∧ tEngS.thermal.cnts.length = 7 ∧
    (tRun 0xAB 0xCD 7).passes = true ∧ (tRun 0xAB 0xCD 8).passes = false ∧ (goldenOf tEngS uEngineSet).length = 2 ∧ (getEng tEngS 63).ptr = 0 ∧
    ((tRun 0xAB 0xCD 7).slices.map (·.sig)) = (goldenOf tEngS uEngineSet).map (fun e => some e.sig) ∧
    ((tRun 0xAC 0xCD 7).slices.head?.map (·.sig)) ≠ some (some (entryAt (goldenOf tEngS uEngineSet) 0).sig) := by decide +kernel

/-- R183: a row of the sample's key crossed at the notice's own tick. -/
theorem witness_rows_that_crossed :
    (let s := tMsgS (.notice 0 1 0 0 0 5)
     crossedBefore s (newSample s tOpV 0 0 0 0 5) = false ∧ tOpV.part < s.parts.length ∧ (getPart s tOpV.part).cnt.rpl.length = 15 ∧
     (∀ t ∈ [5, 4], crossedBefore { s with streams := [⟨⟨1, 0, 42, 7⟩, 1, [], 0, false, [(BitVec.ofNat 64 t, 0)]⟩] } (newSample s tOpV 0 0 0 0 5) =
       decide (t = 5)) ∧
     crossedBefore { s with streams := [⟨⟨1, 0, 42, 7⟩, 1, [], 0, false, [(5, 32)]⟩] } (newSample s tOpV 0 0 0 0 5) = false) := by decide +kernel

/-- A confirmed sample of column 0 in arbitration: the host's code h, E1's e, E2's r, and the value r3 that E3's rows give (R195). -/
def tArbS (d : Dsc) (h e r r3 : Nat) : State :=
  let x : Sample := { tSmp with dsc := d, state := .confirming, matched := true, conf := [0, 1], confCols := [0], win := [h], r1 := [⟨0, h, e, 0⟩],
                                frags := [([if dA d = .int8 then 1 else 0x3F800000, 0, 0, 0], [])] }
  let rows : Nat → List WRow := fun v => [0, 1, 2, 3].map fun k => ⟨k, [0], [if k = 0 then v else 0], []⟩
  updEng (updEng { tS with image := some { tImg with contracts := [BitVec.ofNat 128 (2 ^ 8 + 7 * 2 ^ 12 + 1 * 2 ^ 48)] }, ops := [{ tOpV with dsc := d }], opSeq := 2, samples := [x] } 0 fun g => { g with cols := [0], rows := rows r }) 1
    fun g => { g with cols := [0], rows := rows r3 }
def tArbX (s : State) : Sample := (sampleAt s 0).getD tSmp
def tF32x4 : Dsc := tDscF 7 7 7 7 4

theorem witness_arbitration :
    (∀ k ∈ [0, 1, 2, 3, 4, 5],
      let s := if k = 0 then tArbS (tDsc 5 0) 1 2 1 0 else if k = 1 then tArbS (tDsc 5 0) 1 2 3 0
        else if k = 2 then tArbS (tDsc 5 0) 1 2 2 0 else if k = 3 then tArbS tF32x4 0x3F800000 0x40000000 0x40000000 0x40000000
        else if k = 4 then tArbS tF32x4 0x3F800000 0x40400000 0x40000000 0x40400000
        else tArbS tF32x4 0x3F800000 0x40000000 0x40000000 0x40A00000
      let x := tArbX s
      let o := (getOp s 1).getD tOpV
      sampleAt s 0 = some x ∧ getSample s x.uid x.row = some x ∧ getOp s x.uid = some o ∧ x.state = .confirming ∧ x.matched = true ∧
      x.wtviol = false ∧ x.unread = false ∧ x.conf.all (engDone s (dK x.dsc)) = true ∧ x.part < s.parts.length ∧
      (getPart s x.part).cnt.rpl.length = 15 ∧ exactMode o = false ∧ inWindow x 0 = true ∧
      (exactBits s x (getEng s 0).rows x.confCols).map (·.1) = [0] ∧
      arbOutcomes s x false (decide (k < 3)) = [([0], [arbEngfault, arbDisagree, arbMirage, arbMirage, arbDisagree, arbDoubt].getD k (0, 0))]) := by
  decide +kernel

theorem witness_closed_summary :
    (let s := tMsgS (.summary 0 1 [] ⟨1, 0, 0, 0, [], 0⟩ 0 false false 0 5) { tS with ops := [{ tOpV with state := .final }] }
     nextMsg s (isSummary 0) = some (.summary 0 1 [] ⟨1, 0, 0, 0, [], 0⟩ 0 false false 0 5) ∧ ((getOp s 1).map (·.state)) = some .final) := by
  decide +kernel

end Sys2Proof.Tests

namespace Sys2Proof.Tests

open Sys2Proof Sys2Proof.Machine

/-- A read window of partition 1 at a Belfry tick; of the closing set one operation stands as f makes it. -/
def tSealS (w : Window → Window) (q : Part → Part) (f : Option (OpV → OpV)) (strict : Bool := false) : State :=
  { onP (fun p => q { p with window := some (w (tWin 2)) }) with
    image := some { tImg with parts := List.replicate 16 { tPart with strict := strict } }
    ops := match f with
      | some f => [f { tOpV with state := .final, interval := true }]
      | none => [] }
def tBefore (s : State) : State := beforeSeals (sampleTick (atTick s) (nextBelfry s))
def tOnly (u : State) : Bool :=
  u.parts.length == 16 && (List.range 16).all fun q => (getPart u q).rb.isNone && (q == 1 || (getPart u q).window.isNone)

/-- Each row of R252's table alone, no row, and an operation that is still open. -/
theorem witness_seal_at_a_tick :
    (∀ x ∈ ([(0x02, tSealS id id (some fun o => { o with verdict := vSuspect })), (0x03, tSealS id id (some fun o => { o with verdict := vIncon, disagree := true })),
        (0x04, tSealS id (fun q => { q with hangSeen := true }) none), (0x05, tSealS id (fun q => { q with mtSeen := true }) none),
        (0x06, tSealS (fun w => { w with bad250 := true }) id none), (0x07, tSealS (fun w => { w with nclkLost := true }) id none),
        (0x0A, tSealS id id (some fun o => { o with verdict := vIncon }) true), (0x0B, tSealS (fun w => { w with kwr := true }) id none),
        (0, tSealS id id (some fun o => { o with verdict := vIncon })), (1, tSealS id id (some fun o => { o with state := .opened }))] : List (Nat × State)),
      let s := x.2
      let u := tBefore s
      let w := ((getPart s 1).window).getD (tWin 2)
      s.time.run = true ∧ s.belfry.run = true ∧ inSafe u uBlf = false ∧ tOnly u = true ∧ (getPart u 1).window = some w ∧ w.phase = 2 ∧
      openOps01 u 1 w = decide (x.1 = 1) ∧ (x.1 ≠ 1 → (sealRefusal u 1 w).getD 0 = x.1)) := by decide +kernel

/-- A restore that has ended: with its generation's digest, and with another and one more generation, or none. -/
theorem witness_restore_at_a_tick :
    (∀ x ∈ ([(0, [tGen 2, tGen 1]), (1, [tGen 2, tGen 1]), (2, [tGen 2])] : List (Nat × List Gen)),
      let r : Rollback := { tRb with beginEpoch := some 1, ended := some 9, restore := if x.1 = 0 then ⟨7, 8, 1⟩ else ⟨7, 8, 2⟩ }
      let s := onP fun q => { q with rb := some r, gens := x.2 }
      let u := tBefore s
      s.time.run = true ∧ s.belfry.run = true ∧ u.parts.length = 16 ∧
      ((List.range 16).all fun q => (getPart u q).window.isNone && (q == 1 || (getPart u q).rb.isNone)) = true ∧ (getPart u 1).rb = some r ∧
      r.ended ≠ none ∧ (getPart u 1).gens.find? (fun x => x.num == r.gen) = some (tGen 2) ∧
      (r.restore = ⟨(tGen 2).s1, (tGen 2).s2, (tGen 2).n⟩ ↔ x.1 = 0) ∧
      ((getPart u 1).gens.filter fun x => x.num != (tGen 2).num) = if x.1 = 2 then [] else [tGen 1]) := by decide +kernel

/-- R82, R251: no window, and one that is written; a tensor not named; a line not whole; a read of a restore, whose generation holds the tensor or
not. -/
theorem witness_memory_tap_violations :
    (∀ n ∈ [1, 2], (tWin n).phase ≠ 0) ∧
    (let s := onP fun q => { q with window := some (tWin 0), named := [98] }
     (getPart s 1).window = some (tWin 0) ∧ (tWin 0).phase = 0 ∧ (tLine true).tensor ∉ (getPart s 1).named) ∧
    (let s := onP fun q => { q with window := some (tWin 0), named := [99] }
     let l : MtLine := { tLine true with be := 2 ^ 63 }
     l.tensor ∈ (getPart s 1).named ∧ l.be ≠ BitVec.allOnes 64) ∧
    (let r : Rollback := { tRb with beginEpoch := some 1 }
     let s := onP fun q => { q with rb := some r, gens := [tGen 2] }
     (getPart s 1).window = none ∧ (getPart s 1).rb = some r ∧ r.beginEpoch ≠ none ∧ r.ended = none ∧
      (getPart s 1).gens.find? (fun x => x.num == r.gen) = some (tGen 2)) := by decide +kernel

/-- Every Tally held: a request that waits, one that finds 256 waiting, and one above the quota. -/
def tAllHeld (n q : Nat) : State :=
  { tS with tallies := (List.range n).map fun i => (i, Tally.fresh true 0), tallyQ := List.replicate q (3, 0) }

theorem find_held (n i : Nat) (h : i < n) :
    ((List.range n).map fun i => (i, Tally.fresh true 0)).find? (fun x => x.1 == i) = some (i, Tally.fresh true 0) := by
  rw [List.find?_map]
  have : (List.range n).find? ((fun x : Nat × Tally => x.1 == i) ∘ fun i => (i, Tally.fresh true 0)) = some i := by
    rw [List.find?_range_eq_some]
    refine ⟨by simp, List.mem_range.2 h, fun j hj => ?_⟩
    simp only [Function.comp_apply, Bool.not_eq_true', beq_eq_false_iff_ne]
    omega
  rw [this]; rfl

theorem held_by_none (n p : Nat) (hp : p ≠ 0) :
    (((List.range n).map fun i => (i, Tally.fresh true 0)).filter fun t => t.2.held && t.2.part == p).length = 0 := by
  simp [Tally.fresh, List.filter_eq_nil_iff, Ne.symm hp]

theorem none_free (s : State) (n : Nat) (hn : n = Config.tallies) (h : s.tallies = (List.range n).map fun i => (i, Tally.fresh true 0)) :
    freeTally s = none := by
  unfold freeTally tallyHeld getTally
  rw [h, ← hn]
  rw [List.find?_eq_none]
  intro t ht
  rw [find_held n t (List.mem_range.1 ht)]
  simp [Tally.fresh]

theorem witness_tally_requests :
    (∀ n q, n = Config.tallies → q = 255 ∨ q = 256 → freeTally (tAllHeld n q) = none ∧ (tAllHeld n q).tallyQ.length = q ∧ heldBy (tAllHeld n q) 1 = 0) ∧
    (let s := { tS with tallyQ := List.replicate 255 (3, 0) }
     admitted s (.csr 1) true aTalloc = true ∧ instOf (.csr 1) < s.keep.talloc.length ∧ tallocResult s (instOf (.csr 1)) ≠ 2 ∧
      (s.tallyQ.filter fun q => q.2 == partOf (.csr 1)).length = 0 ∧ 0 < ((partCfg s (partOf (.csr 1))).map (·.talQuota)).getD 0 ∧
      partOf (.csr 1) < s.parts.length) ∧
    (let s := { tS with image := some { tImg with parts := List.replicate 16 { tPart with talQuota := 0 } } }
     ¬ heldBy s (partOf (.csr 1)) + (s.tallyQ.filter fun q => q.2 == partOf (.csr 1)).length < ((partCfg s (partOf (.csr 1))).map (·.talQuota)).getD 0) := by
  exact ⟨fun n q hn _ => ⟨none_free _ n hn rfl, List.length_replicate .., held_by_none n 1 (by decide)⟩, by decide +kernel, by decide +kernel⟩

theorem witness_align_wait :
    (let s := { onBoot fun b => { b with step := 2 } with time := { tS.time with alignWait := true } }
     s.time.alignWait = true ∧ s.boot.step = 2 ∧ s.boot.clocks = true) ∧ tS.boot.step ≠ 2 := by decide +kernel

/-- Port 3 was up from tick 10 to tick 20 with die 9 and is down, or is up with it from tick 30 on. -/
def tPastS (b : Bool) : State :=
  tPortS fun p => if b then { tUp p with trained := 30, past := [(9, 10, 20)] } else { p with past := [(9, 10, 20)] }
theorem witness_no_route :
    (∀ b ∈ [false, true], let s := tPastS b
      (∀ t ∈ [9, 20, 29], let m : LtMsg := { tLt with firstTick := BitVec.ofNat 64 t }
        mReserved m.hdr = false ∧ mPart m.hdr < s.parts.length ∧
        (∀ q, q < banPorts → ((getPort s q).up = true → (getPort s q).peerDie = mDst m.hdr → m.firstTick.toNat < (getPort s q).trained.toNat) ∧
          ((getPort s q).past.all fun x => !(x.1 == mDst m.hdr) || decide (m.firstTick.toNat < x.2.1.toNat) || decide (x.2.2.toNat ≤ m.firstTick.toNat)) = true)) ∧
      (∀ t ∈ [10, 19], portAt s 9 (BitVec.ofNat 64 t) = some 3)) := by decide +kernel

theorem witness_launch_time_of_no_launch : tS.launch.role = 0 ∧
    ((tLaunchS 1 1 false false).launch.role ≠ 2 ∧ (tLaunchS 1 1 false false).launch.committed = false) := by decide +kernel

/-- The peer's record of a position is of EPOCH 0: a list of that EPOCH and one of EPOCH 1. -/
theorem witness_tile_digest_lists :
    (let c : ClosedKey := ⟨tLd 1, [(0, 7)], true, [0], [0], [], false⟩
     let r : PeerRec := ⟨9, tLd 2, []⟩
     let s := { onP (fun q => { q with closed := [c] }) tRepS with peerRecs := [r] }
     (getPort s (tHb 4 0).port).up = true ∧ (tHb 4 0).seq = (getPort s (tHb 4 0).port).recvSeq ∧ replicas s = [(0, tRep)] ∧ tRep.peerDie = (tHb 4 0).src ∧
     tRep.peerPart = 2 ∧ (getPart s tRep.part).closed = [c] ∧ c.body.era = 0 ∧ c.body.step = 0 ∧ c.body.layer = 42 ∧ c.diverge = [0] ∧
     0 ∈ c.compared ∧ s.peerTds = [] ∧ c.body.spires ≤ [((0 : W16), (8 : W64))].length ∧ s.belfry.run = true ∧
     s.peerRecs.find? (fun x => x.die == tRep.peerDie && x.body.part == tRep.peerPart && samePos x.body c.body) = some r ∧ r.body.epoch = 0) := by
  decide +kernel

theorem witness_fuse_reads :
    (let s := onK fun k => { k with safe := [uFus] }
     inSafe s uFus = true) ∧ inSafe (tStep fun b => { b with step := 1 }) uFus = false ∧
    State.reset.pads.pwrGood = true ∧ State.reset.fuses.dbgLock = false ∧ WellFormed (.manufacturingTest ⟨0x80, State.reset.fuses⟩) = true := by decide +kernel

/-- A sweep that reads every sensor; engines 0 to 15, of which 0 passed and 1 failed a sample row; the checker of tile 0. -/
theorem witness_step2_and_step3_reports :
    (∀ x ∈ tS.spires, (false, x.ix, 4096) ∈ [(false, 0, 4096), (false, 1, 4096), (true, 0, 4096)]) ∧ (onBoot fun b => { b with clocks := false }).boot.clocks = false ∧
    (∀ x ∈ tS.domes, (true, x.ix, 4096) ∈ [(false, 0, 4096), (false, 1, 4096), (true, 0, 4096)]) ∧ (tS.domes.map (·.ix)).Nodup ∧
    (let s := { tEngS with boot := { tS.boot with step := 3 } }
     let rs := [(0, tRun 0xAB 0xCD 7), (1, tRun 0xAB 0xCD 8)]
     s.boot.step = 3 ∧ s.engines.length = 64 ∧ s.samples = [] ∧ 0 < licEng s ∧ rs.find? (fun x => x.1 == 0) = some (0, tRun 0xAB 0xCD 7) ∧
     (getEng s 0).ptr = 0 ∧ (∀ e, e < licEng s → (([] : List (Nat × EngineRun)).find? fun x => x.1 == e) = none) ∧ (tTile 0).state < stFenced ∧
     (s.tiles.map (·.ix)).Nodup ∧ ([(0, { tChk with capture := false })].find? fun y => y.1 == (tTile 0).ix) = some (0, { tChk with capture := false }) ∧
     ({ tChk with capture := false } : CheckerRun).passes = false) ∧ tS.thermal.swept = false := by decide +kernel

end Sys2Proof.Tests

namespace Sys2Proof.Tests

open Sys2Proof Sys2Proof.Machine

/-- A TIMER firing of a peal with the action LBIST_TILE or `a`. -/
def tPlain (s : State) (x : Item) (a : Nat) : Bool :=
  match x with
  | .timer _ k _ => plAct (pealAt s k) == 4 || plAct (pealAt s k) == a
  | _ => false

/-- A REACT peal at index 16 on input 0x50, for the input's own tile, with an action; that input of tile 0 waits. -/
def tReact (act : Nat) : Peal := mkPeal [(0, 3), (9, act), (56, 0x50), (78, 0xFF), (102, 0xFFFF)]
def tIn : Input := mkInput tS 0x50 1 0 0 0 false 0 0
def tReactS (act st : Nat) : State :=
  onB (fun b => { b with inputs := [tIn] })
    { onT (fun x => { x with state := st }) with image := some { tImg with peals := tPeals ++ [tReact act] } }

theorem witness_one_input_one_peal :
    (∀ a ∈ [5, 7, 8], ∀ st ∈ [stHealthy, stWatch, stFenced], let s := tReactS a st
      s.time.run = true ∧ s.belfry.run = true ∧ (itemsAt (atTick s) (nextBelfry s)).head? = some (.input false tIn) ∧
      ((itemsAt (atTick s) (nextBelfry s)).tail.all fun x => tPlain s x (plAct (pealAt s 2))) = true ∧ inSafe s uBlf = false ∧ inSafe s uPart = false ∧
      s.nvm.repairDue = [] ∧ (s.tiles.map (·.ix)).Nodup ∧ getTile s tIn.spire = some (tlOf s) ∧ (tlOf s).part = tIn.part ∧ tIn.spire ≠ 0xFFFF ∧
      tIn.cls ≤ 15 ∧ (allPeals s).filter (fun x => reactMatch (atTick s) tIn x.2) = [(16, tReact a)] ∧ pealLive s 16 = true ∧
      counting (tReact a) = false ∧ plTgt (tReact a) = 0 ∧ plCond (tReact a) = 0 ∧ plNeg (tReact a) = false ∧ plAct (tReact a) = a) ∧
    (let s := tReactS 5 stHealthy
     (∀ y ∈ allPeals s, counting y.2 = false) ∧ (16, tReact 5) ∈ allPeals s ∧ tileAct (plAct (tReact 5)) = true) := by decide +kernel

/-- A WATCH tile, and the fixed peals 2 and 3, which fire at every Belfry tick: its exit conditions met, or one tick or one pass short. -/
def tTimerS (passes tick : Nat) : State :=
  { onT (fun x => { x with state := stWatch, watch := some ⟨0, 0, 0, false, passes, true⟩ }) with time := { tS.time with tick := BitVec.ofNat 64 tick } }

theorem witness_timer_firings :
    (∀ n ∈ [0, 1, 1000000], ∀ k ∈ [1000, tRecov.watchMin, tRecov.watchMin - 256], let s := tTimerS n k
      let all := itemsAt (atTick s) (nextBelfry s)
      s.time.run = true ∧ s.belfry.run = true ∧ .timer false 2 1 ∈ all ∧ all.length ≤ 256 ∧
      (all.all fun x => match x with
        | .timer _ j _ => j == 2 || plAct (pealAt s j) == 4
        | _ => false) = true ∧ inSafe s uBlf = false ∧
      inSafe s uPart = false ∧ s.nvm.repairDue = [] ∧ getTile s 0 = some (tlOf s) ∧ (tlOf s).part = 1 ∧ recov s = some tRecov ∧
      plTgt (pealAt s 2) = 3 ∧ plAct (pealAt s 2) = 6 ∧ plParam (pealAt s 2) % 2 = 0 ∧ plCond (pealAt s 2) ≤ 1 ∧
      plNeg (pealAt s 2) = false) := by decide +kernel

/-- Actions on one tile: a FENCE of class 1, a WATCH and a second FENCE of the same class, an action of class 2, a command. -/
def tAct (seq cls code : Nat) (cmd : Option CmdIn := none) : Act := ⟨seq, cls, seq, code, 0, 1, some 0, 0, none, cmd, 0, 0⟩
def tActs : List Act := [tAct 0 1 5, tAct 1 1 7, tAct 2 1 7, tAct 3 1 4, tAct 4 1 4, tAct 5 2 8, tAct 6 1 0x21 (some ⟨0, 0, 0⟩)]

theorem witness_fates :
    (∀ i, i < 6 → (tActs.getD i (tAct 9 9 9)).seq < (tActs.getD (i + 1) (tAct 9 9 9)).seq) ∧ (∀ b ∈ tActs, b.cls ≤ 15 ∧ b.tile = some 0) ∧
    (tActs.map (fate tActs)) = [.cancelled, .stands, .merged, .stands, .merged, .cancelled, .cancelled] ∧
    ({ tAct 0 1 0x0E with tile := none } : Act).tile = none := by decide +kernel

/-- R447: a sensor that was read in the present sweep already. -/
theorem witness_second_reading_of_a_sweep :
    ({ tTrim with thermal := { tTrim.thermal with sweptSet := [(false, 0)] } } : State).thermal.sweptSet.contains (false, 0) = true ∧
    tTrim.thermal.sweptSet.contains (false, 0) = false := by decide +kernel

end Sys2Proof.Tests
end

section
/-! SUPPORT. The Belfry's Cadence words and TIMER peals: what a violation of a port changes, the checks of a Cadence word in order
(R334), and the firings of a Belfry tick (R345). -/

namespace Sys2Proof.Machine

/-! ### What a violation's record and input leave and give -/

theorem updPart_of_length_le (s : State) {p : Nat} (f : Part → Part) (h : s.parts.length ≤ p) : updPart s p f = s := by
  simp [updPart, updAt, List.modify_eq_self h]

/-- What an update of one partition leaves in that partition, it leaves in every partition. -/
theorem getPart_updPart_proj {α : Type} (g : Part → α) (s : State) (p q : Nat) (f : Part → Part) (hf : ∀ x, g (f x) = g x) :
    g (getPart (updPart s p f) q) = g (getPart s q) := by
  by_cases hq : q = p
  · subst hq
    by_cases hlen : q < s.parts.length
    · rw [getPart_updPart s q f hlen, hf]
    · rw [updPart_of_length_le s f (Nat.le_of_not_lt hlen)]
  · rw [getPart_updPart_ne s f hq]

theorem updCnt_accepted (s : State) (p q : Nat) (f : PartCnt → PartCnt) :
    (getPart (updCnt s p f) q).accepted = (getPart s q).accepted :=
  getPart_updPart_proj Part.accepted s p q _ fun _ => rfl

theorem addUse_accepted (s : State) (p n q : Nat) : (getPart (addUse s p n) q).accepted = (getPart s q).accepted :=
  updCnt_accepted s p q _

theorem refuseQuota_accepted (s : State) (p q : Nat) : (getPart (refuseQuota s p) q).accepted = (getPart s q).accepted :=
  updCnt_accepted s p q _

/-- A record changes counters of partitions alone: wherever it is charged, the last accepted Cadence words stand. -/
theorem addRec_accepted (s : State) (r : Rec) (q : Nat) : (getPart (addRec s r) q).accepted = (getPart s q).accepted := by
  unfold addRec
  split
  case isTrue early => rfl
  case isFalse late =>
    split
    case isTrue own => exact addUse_accepted s r.part _ q
    case isFalse refused =>
      dsimp only
      split
      case isTrue reserve => exact (addUse_accepted (refuseQuota s r.part) 0 _ q).trans (refuseQuota_accepted s r.part q)
      case isFalse dropped => exact refuseQuota_accepted s r.part q

theorem addInput_parts (s : State) (i : Input) : (addInput s i).parts = s.parts := by
  unfold addInput
  split
  · split <;> rfl
  · rfl

/-- R338: the Belfry stepping, an input that belongs to no operation is always staged. -/
theorem mem_addInput (s : State) {i : Input} (hrun : s.belfry.run = true) (huid : i.uid = 0) :
    i ∈ (addInput s i).belfry.inputs := by
  simp [addInput, hrun, huid]

section PortViol

variable (s : State) (k : RecKind) (part port : Nat) (layer oper : W16) (code : Byte) (detail : W32) (epoch : W16) (beats : Nat)

theorem portViol_accepted (q : Nat) :
    (getPart (portViol s k part port layer oper code detail epoch beats) q).accepted = (getPart s q).accepted := by
  unfold portViol
  rw [getPart, addInput_parts]
  exact addRec_accepted (countViol s k port) _ q

/-- R91, R338: the Belfry stepping, the violation of a port stages its input, with its code as the cause. -/
theorem portViol_stages_input (hrun : s.belfry.run = true) :
    ∃ i ∈ (portViol s k part port layer oper code detail epoch beats).belfry.inputs,
      i.code = violInput k ∧ i.part = part ∧ i.cause = code.toNat := by
  have counted : Keeps [.alert, .cistern, .parts, .records, .early, .near, .portViols] s (countViol s k port) :=
    countViol_keeps k port (Keeps.rfl_ _ s) (by decide)
  have recorded := addRec_keeps (violRec s.time.tick k 0xFFFF part port layer oper code detail epoch beats) counted (by decide)
  have hrun' := (recorded.same .belfryRun (by decide)).trans hrun
  exact ⟨_, mem_addInput _ hrun' rfl, rfl, rfl, rfl⟩

end PortViol

/-! ### The checks of a Cadence word (R334) -/

/-- R334, check 1: a bad CCRC or a reserved bit. -/
def cadBad (w : CadW) : Bool := !cCrcOk w || cReserved w

/-- R334, check 2: the word moves backward from the last accepted word of its partition. -/
def cadBack (s : State) (w : CadW) : Bool :=
  (getPart s (cPart w)).accepted.any fun a => earlierThan (cEpoch w) a.epoch || (cEpoch w == a.epoch && posLt (cPos w) a)

/-- R334, check 4: the protocol PHASE is in order after the words accepted so far. -/
def cadOrder (s : State) (w : CadW) : Bool :=
  protoOk s w (getPart s (cPart w)).accepted.isNone (((getPart s (cPart w)).accepted.map fun a => laterThan (cEpoch w) a.epoch).getD false)

theorem cadBad_iff (w : CadW) : cadBad w = true ↔ cCrcOk w = false ∨ cReserved w = true := by simp [cadBad]

theorem cadBack_iff (s : State) (w : CadW) :
    cadBack s w = true ↔ ∃ a, (getPart s (cPart w)).accepted = some a ∧
      (earlierThan (cEpoch w) a.epoch = true ∨ (cEpoch w = a.epoch ∧ posLt (cPos w) a = true)) := by
  simp [cadBack, Option.any_eq_true]

/-- The check names the first of the four that fails. -/
theorem cadCheck_eq (s : State) (w : CadW) :
    cadCheck s w =
      if cadBad w then some 1 else if cadBack s w then some 2 else if 0xF6 ≤ (cPhase w).toNat then some 3
      else if !cadOrder s w then some 4 else none := by
  unfold cadCheck cadBad cadBack cadOrder
  cases (getPart s (cPart w)).accepted <;> simp

section CadenceWord

variable {s : State} {w : CadW} (hready : cadReady s = true) (hpclk : s.keep.lostNow.contains .pclk = false)
include hready hpclk

theorem exec_cadenceWord_refused {c : Byte} (h : cadCheck s w = some c) :
    exec (.cadenceWord w) s = .next { cadViol s w c with cadNack := true } := by
  simp only [exec, execCadenceWord, hready, hpclk, h, Bool.not_true, Bool.not_false, Bool.false_eq_true, if_false]

theorem exec_cadenceWord_accepted (h : cadCheck s w = none) :
    exec (.cadenceWord w) s = .next { updPart s (cPart w) (fun q => { q with accepted := some (cPos w) }) with
      cadNack := false, belfry := { s.belfry with cadFifo := s.belfry.cadFifo ++ [w] } } := by
  simp only [exec, execCadenceWord, hready, hpclk, h, Bool.not_true, Bool.false_eq_true, if_false, updPart_belfry]

/-- R85, R334, R338: what a refused word does and leaves. -/
theorem cadenceWord_refused_effect {c : Byte} (h : cadCheck s w = some c) :
    ∃ t, exec (.cadenceWord w) s = .next t ∧ t.cadNack = true ∧ t.belfry.cadFifo = s.belfry.cadFifo ∧
      (∀ p, (getPart t p).accepted = (getPart s p).accepted) ∧
      (s.belfry.run = true → ∃ i ∈ t.belfry.inputs, i.code = 0x97 ∧ i.part = cPart w ∧ i.cause = c.toNat) ∧
      t.spires = s.spires ∧ t.cistern.data = s.cistern.data := by
  have frame : Same _ s (cadViol s w c) := (cadViol_keeps w c (Keeps.rfl_ _ s) (List.Subset.refl _)).same
  exact ⟨_, exec_cadenceWord_refused hready hpclk h, rfl, frame .cad (by decide), portViol_accepted s _ _ _ _ _ _ _ _ _,
    portViol_stages_input s _ _ _ _ _ _ _ _ _, frame .spires (by decide), frame.bytes_eq.1⟩

end CadenceWord

/-- Settles O31: the word's check names the first of R334's four that fails; a refused word is a violation of the Cadence port, and
any other word enters the FIFO. -/
theorem cadenceWordChecks : Obligations.CadenceWordChecks := by
  unfold Obligations.CadenceWordChecks
  intro s w hready hpclk hp acc bad back adv order refused
  have hbad : cadBad w = true ↔ bad := cadBad_iff w
  have hback : cadBack s w = true ↔ back := cadBack_iff s w
  have horder : cadOrder s w = true ↔ order := Iff.rfl
  have refuse (c : Byte) (h : cadCheck s w = some c) : refused c.toNat := by
    obtain ⟨t, hexec, hnack, hfifo, hacc, hinput, hspires, hdata⟩ := cadenceWord_refused_effect hready hpclk h
    refine ⟨t, hexec, hnack, hfifo, hacc, fun hrun => ?_, hspires, hdata⟩
    obtain ⟨i, hmem, hcode, hpart, hcause⟩ := hinput hrun
    exact ⟨i, hmem, hcode, fun _ => hpart, hcause⟩
  refine ⟨fun h1 => refuse 1 ?bad, fun h1 h2 => refuse 2 ?back, fun h1 h2 h3 => refuse 3 ?reserved,
    fun h1 h2 h3 h4 => refuse 4 ?order, fun h1 h2 h3 h4 => ?accepted⟩
  case bad => rw [cadCheck_eq, if_pos (hbad.2 h1)]
  case back => rw [cadCheck_eq, if_neg (mt hbad.1 h1), if_pos (hback.2 h2)]
  case reserved => rw [cadCheck_eq, if_neg (mt hbad.1 h1), if_neg (mt hback.1 h2), if_pos h3]
  case order =>
    rw [cadCheck_eq, if_neg (mt hbad.1 h1), if_neg (mt hback.1 h2), if_neg (Nat.not_le.2 h3), if_pos (by simpa using mt horder.1 h4)]
  case accepted =>
    have passes : cadCheck s w = none := by
      rw [cadCheck_eq, if_neg (mt hbad.1 h1), if_neg (mt hback.1 h2), if_neg (Nat.not_le.2 h3), if_neg (by simpa using horder.2 h4)]
    exact ⟨_, exec_cadenceWord_accepted hready hpclk passes, rfl, rfl, getPart_updPart s (cPart w) _ hp,
      fun p hne => getPart_updPart_ne s _ hne, rfl⟩

/-! ### The firings of a Belfry tick (R345) -/

theorem timerDue_iff {x : Peal} (hkind : plKind x = kTimer) (n : Nat) :
    timerDue x n = true ↔ n % (plPeriod x * plUnitTicks x) = plOffset x * plUnitTicks x := by
  simp [timerDue, hkind]

theorem mem_firingParts (x : Peal) (p : Nat) :
    p ∈ firingParts x ↔ if plAllp x = true then p < 16 else p = plPart x := by
  unfold firingParts
  split
  · exact List.mem_range
  · exact List.mem_singleton

theorem nodup_firingParts (x : Peal) : (firingParts x).Nodup := by
  unfold firingParts
  split
  · exact List.nodup_range
  · exact List.nodup_singleton _

/-- A peal is named by its place in the table, so no index comes twice. -/
theorem nodup_allPeals_index (s : State) : ((allPeals s).map Prod.fst).Nodup := by
  have places : (allPeals s).map Prod.fst = ((s.image.map (·.peals)).getD []).zipIdx.map Prod.snd := by
    simp [allPeals, Function.comp_def]
  rw [places, List.zipIdx_map_snd]
  exact List.nodup_range'

theorem allPeals_index_inj {s : State} {ix : Nat} {x y : Peal} (hx : (ix, x) ∈ allPeals s) (hy : (ix, y) ∈ allPeals s) : y = x :=
  congrArg Prod.snd (List.inj_on_of_nodup_map (nodup_allPeals_index s) hy hx rfl)

theorem mem_timersAt {s : State} {n ix p : Nat} {x : Peal} (hx : (ix, x) ∈ allPeals s) :
    (ix, p) ∈ timersAt s n ↔ timerDue x n = true ∧ pealLive s ix = true ∧ p ∈ firingParts x := by
  simp only [timersAt, List.mem_flatMap, List.mem_filter, Bool.and_eq_true, List.mem_map, Prod.mk.injEq]
  constructor
  · rintro ⟨⟨j, y⟩, ⟨hy, hdue, hlive⟩, q, hq, rfl, rfl⟩
    obtain rfl := allPeals_index_inj hx hy
    exact ⟨hdue, hlive, hq⟩
  · rintro ⟨hdue, hlive, hp⟩
    exact ⟨(ix, x), ⟨hx, hdue, hlive⟩, p, hp, rfl, rfl⟩

/-- Each firing is due once: the firings of one peal differ in the partition, those of two peals in the index. -/
theorem nodup_timersAt (s : State) (n : Nat) : (timersAt s n).Nodup := by
  refine List.nodup_flatMap.2 ⟨fun x _ => (nodup_firingParts x.2).map fun p q h => congrArg Prod.snd h, ?_⟩
  have apart : (allPeals s).Pairwise fun x y => x.1 ≠ y.1 := List.pairwise_map.1 (nodup_allPeals_index s)
  refine (apart.filter _).imp fun {x y} hne => ?_
  rintro f hfx hfy
  obtain ⟨p, -, rfl⟩ := List.mem_map.1 hfx
  obtain ⟨q, -, heq⟩ := List.mem_map.1 hfy
  exact hne (congrArg Prod.fst heq).symm

/-- Settles O32: the firings of a tick hold no pair twice, so a pair's count is 1 or 0 as it is a member or not. -/
theorem timerPealsDue : Obligations.TimerPealsDue := by
  unfold Obligations.TimerPealsDue
  intro s n ix p x hx hkind hlive
  have due : (ix, p) ∈ timersAt s n ↔ n % (plPeriod x * plUnitTicks x) = plOffset x * plUnitTicks x ∧
      (if plAllp x = true then p < 16 else p = plPart x) := by
    rw [mem_timersAt hx, timerDue_iff hkind, mem_firingParts]
    simp only [hlive, true_and]
  rw [(nodup_timersAt s n).count]
  simp only [due]

end Sys2Proof.Machine
end

section
/-! The TAP (R394, R395, R402; log 61): what loading an instruction does to the pads, and which register each instruction selects. -/

namespace Sys2Proof.Machine

variable {s : State} {op : Byte}

/-! ### Loading an instruction -/

@[simp] theorem loadIr_fuses (s : State) (op : Byte) : (loadIr s op).fuses = s.fuses := rfl

/-- Under PWR_GOOD a load changes the instruction register, and whether the boundary register drives the pads. -/
theorem loadIr_pads {d : Bool} (hpwr : s.pads.pwrGood = true) (hdriven : (s.pads.coldReset && (op == 0x03 || op == 0x04)) = d) :
    (loadIr s op).pads = { s.pads with ir := op, driven := d } := by
  simp only [loadIr, jtagPads, hpwr, Bool.and_true, ← hdriven]

/-- The effect and the frame of an instruction that does no more than load. -/
theorem loads_of_exec_eq_loadIr {c : Instr} {r : TapReg1149} {d : Bool} (hpwr : s.pads.pwrGood = true)
    (hexec : exec c s = .next (loadIr s op)) (hsel : tapSelects (loadIr s op) = r)
    (hdriven : (s.pads.coldReset && (op == 0x03 || op == 0x04)) = d) :
    ∃ t, exec c s = .next t ∧ t.pads = { s.pads with ir := op, driven := d } ∧ tapSelects t = r ∧ t = { s with pads := t.pads } :=
  ⟨_, hexec, loadIr_pads hpwr hdriven, hsel, rfl⟩

/-! ### The register that an instruction selects -/

theorem tapSelects_idcode (h : s.pads.ir = 0x01) : tapSelects s = .identification := by simp [tapSelects, h]

theorem tapSelects_samplePreload (h : s.pads.ir = 0x02) : tapSelects s = .boundary := by simp [tapSelects, h]

/-- R395: EXTEST selects the boundary register in the compliance-enable condition alone. -/
theorem tapSelects_extest (h : s.pads.ir = 0x03) (hpwr : s.pads.pwrGood = true) :
    tapSelects s = if s.pads.coldReset = true then .boundary else .bypass := by simp [tapSelects, h, hpwr]

theorem tapSelects_clamp (h : s.pads.ir = 0x04) : tapSelects s = .bypass := by simp [tapSelects, h]

theorem tapSelects_highz (h : s.pads.ir = 0x05) : tapSelects s = .bypass := by simp [tapSelects, h]

theorem ne_named (h : ¬ (1 ≤ op.toNat ∧ op.toNat ≤ 5)) : op ≠ 0x01 ∧ op ≠ 0x02 ∧ op ≠ 0x03 ∧ op ≠ 0x04 := by
  refine ⟨?_, ?_, ?_, ?_⟩ <;> rintro rfl <;> exact h (by decide)

/-- Only EXTEST and CLAMP drive the pads. -/
theorem not_drives_of_unnamed (h : ¬ (1 ≤ op.toNat ∧ op.toNat ≤ 5)) (cold : Bool) : (cold && (op == 0x03 || op == 0x04)) = false := by
  obtain ⟨-, -, h3, h4⟩ := ne_named h
  rw [beq_false_of_ne h3, beq_false_of_ne h4, Bool.or_false, Bool.and_false]

/-- R394, R402: of the values without a name, the manufacturing instructions select a register of their own until DBG_LOCK is blown. -/
theorem tapSelects_unnamed (h : ¬ (1 ≤ s.pads.ir.toNat ∧ s.pads.ir.toNat ≤ 5)) :
    tapSelects s = if 0x80 ≤ s.pads.ir.toNat ∧ s.pads.ir.toNat ≤ 0xBF ∧ s.fuses.dbgLock = false then .manufacturing else .bypass := by
  obtain ⟨h1, h2, h3, -⟩ := ne_named h
  rw [tapSelects, if_neg h1, if_neg h2, if_neg (mt And.left h3)]
  simp only [Bool.not_eq_true']

/-! ### BYPASS and the manufacturing instructions -/

theorem wellFormed_bypass_iff :
    WellFormed (.bypass op) = true ↔ ¬ (1 ≤ op.toNat ∧ op.toNat ≤ 5) ∧ ¬ (0x80 ≤ op.toNat ∧ op.toNat ≤ 0xBF) := by
  simp only [WellFormed, Bool.and_eq_true, Bool.not_eq_true', Bool.and_eq_false_iff, decide_eq_false_iff_not, not_and_or]

theorem wellFormed_manufacturingTest_iff {p : PrivOp} :
    WellFormed (.manufacturingTest p) = true ↔ 0x80 ≤ p.op.toNat ∧ p.op.toNat ≤ 0xBF := by simp [WellFormed]

theorem tapSelects_bypass (hw : WellFormed (.bypass s.pads.ir) = true) : tapSelects s = .bypass := by
  obtain ⟨hnamed, hprivate⟩ := wellFormed_bypass_iff.1 hw
  rw [tapSelects_unnamed hnamed, if_neg fun ⟨hlo, hhi, _⟩ => hprivate ⟨hlo, hhi⟩]

section Manufacturing

variable {p : PrivOp} (hw : WellFormed (.manufacturingTest p) = true)
include hw

theorem manufacturing_unnamed : ¬ (1 ≤ p.op.toNat ∧ p.op.toNat ≤ 5) := by
  have := wellFormed_manufacturingTest_iff.1 hw
  omega

theorem tapSelects_manufacturing (hir : s.pads.ir = p.op) :
    tapSelects s = if s.fuses.dbgLock = false then .manufacturing else .bypass := by
  obtain ⟨hlo, hhi⟩ := wellFormed_manufacturingTest_iff.1 hw
  rw [tapSelects_unnamed (hir ▸ manufacturing_unnamed hw), hir]
  simp only [hlo, hhi, true_and]

/-- R402: with DBG_LOCK blown a manufacturing instruction is bypass. -/
theorem exec_manufacturingTest_locked (hlock : s.fuses.dbgLock = true) :
    tapSelects (loadIr s p.op) = .bypass ∧ exec (.manufacturingTest p) s = .next (loadIr s p.op) := by
  have bypass : tapSelects (loadIr s p.op) = .bypass := by
    rw [tapSelects_manufacturing hw rfl, loadIr_fuses, hlock, if_neg Bool.noConfusion]
  exact ⟨bypass, congrArg Host.Outcome.next (if_neg (by rw [bypass]; decide))⟩

theorem exec_manufacturingTest_unlocked (hlock : s.fuses.dbgLock = false) :
    exec (.manufacturingTest p) s = .next { loadIr s p.op with fuses := fuseOr s.fuses p.blow } := by
  have own : tapSelects (loadIr s p.op) = .manufacturing := by
    rw [tapSelects_manufacturing hw rfl, loadIr_fuses, if_pos hlock]
  exact congrArg Host.Outcome.next (if_pos own)

end Manufacturing

/-! ### IDCODE -/

theorem idcodeOf_eq_concat (f : FuseArray) : idcodeOf f = f.jtagId.concat true := by
  apply BitVec.eq_of_toNat_eq
  rw [idcodeOf, BitVec.toNat_concat, BitVec.toNat_ofNat, Bool.toNat_true]
  omega

theorem idcodeOf_bits (f : FuseArray) :
    (idcodeOf f).getLsbD 0 = true ∧ ∀ i, i < 31 → (idcodeOf f).getLsbD (i + 1) = f.jtagId.getLsbD i := by
  rw [idcodeOf_eq_concat]
  exact ⟨BitVec.getLsbD_concat_zero, fun _ _ => BitVec.getLsbD_concat_succ⟩

/-- Settles O56: every TAP command loads its instruction and selects its register; SAMPLE/PRELOAD writes the boundary register
besides, and a manufacturing instruction blows fuses while DBG_LOCK is not blown. -/
theorem jtag : Obligations.Jtag := by
  unfold Obligations.Jtag
  refine ⟨fun s hpwr => ⟨?extest, ?clamp, ?highz, ?idcode, fun v => ?samplePreload, fun op hw => ?bypass,
    fun p hw => ⟨fun hlock => ?locked, fun hlock => ?unlocked⟩⟩, idcodeOf_bits⟩
  case extest => exact loads_of_exec_eq_loadIr hpwr rfl (tapSelects_extest rfl rfl) (Bool.and_true _)
  case clamp => exact loads_of_exec_eq_loadIr hpwr rfl (tapSelects_clamp rfl) (Bool.and_true _)
  case highz => exact loads_of_exec_eq_loadIr hpwr rfl (tapSelects_highz rfl) (Bool.and_false _)
  case idcode => exact loads_of_exec_eq_loadIr hpwr rfl (tapSelects_idcode rfl) (Bool.and_false _)
  case samplePreload =>
    have loaded : (loadIr s 0x02).pads = { s.pads with ir := 0x02, driven := false } := loadIr_pads hpwr (Bool.and_false _)
    refine ⟨_, rfl, tapSelects_samplePreload rfl, ?_⟩
    rw [loaded]
    rfl
  case bypass =>
    exact loads_of_exec_eq_loadIr hpwr rfl (tapSelects_bypass hw) (not_drives_of_unnamed (wellFormed_bypass_iff.1 hw).1 _)
  case locked =>
    obtain ⟨bypass, hexec⟩ := exec_manufacturingTest_locked hw hlock
    exact loads_of_exec_eq_loadIr hpwr hexec bypass (not_drives_of_unnamed (manufacturing_unnamed hw) _)
  case unlocked =>
    refine ⟨_, exec_manufacturingTest_unlocked hw hlock, ?_, fun hopen => ?_, rfl⟩
    · exact loadIr_pads hpwr (not_drives_of_unnamed (manufacturing_unnamed hw) _)
    · rw [tapSelects_manufacturing hw rfl, if_pos hopen]

end Sys2Proof.Machine
end

section
/-! The frame of an operation as one equation: the state with the parts that the list names taken from the state after it. -/

set_option Elab.async false

namespace Sys2Proof.Machine

/-! ### The frame of an operation as one equation -/

theorem Same.mono {m n : List Fld} {s t : State} (h : Same m s t) (hmn : m ⊆ n) : Same n s t := fun f hf => h f fun hm => hf (hmn hm)

/-- One of two values: `x` where none of the parts `fs` is in the list `m`, else `y`. -/
def took {α : Type} (m fs : List Fld) (x y : α) : α := if ∀ f ∈ fs, f ∉ m then x else y

theorem took_eq {α : Type} {m fs : List Fld} {x y : α} (h : (∀ f ∈ fs, f ∉ m) → y = x) : y = took m fs x y := by
  unfold took
  split
  · next hout => exact h hout
  · rfl

/-- The state `s` with the parts that `m` lists taken from `t`. For a list of parts written out it is `{ s with … := t.… }` by definition. -/
def changed (m : List Fld) (s t : State) : State where
  time := took m [.tick, .timeRun, .time] s.time t.time
  keep := took m [.alert, .acc, .cmd, .mbx, .talloc, .units, .fault, .locks, .keep] s.keep t.keep
  belfry := took m [.belfryRun, .inputs, .cad, .cmds, .belfry] s.belfry t.belfry
  fuses := took m [.fuses] s.fuses t.fuses
  built := took m [.built] s.built t.built
  boot := took m [.boot] s.boot t.boot
  pads := took m [.pads] s.pads t.pads
  image := took m [.image] s.image t.image
  imageHash := took m [.image] s.imageHash t.imageHash
  imageSeq := took m [.image] s.imageSeq t.imageSeq
  imageBuild := took m [.image] s.imageBuild t.imageBuild
  imageFlags := took m [.image] s.imageFlags t.imageFlags
  imageKey := took m [.image] s.imageKey t.imageKey
  imageSvn := took m [.image] s.imageSvn t.imageSvn
  nvm := took m [.nvm] s.nvm t.nvm
  parts := took m [.parts] s.parts t.parts
  tiles := took m [.tiles] s.tiles t.tiles
  spires := took m [.spires] s.spires t.spires
  domes := took m [.domes] s.domes t.domes
  ops := took m [.ops] s.ops t.ops
  opSeq := took m [.opSeq] s.opSeq t.opSeq
  tickets := took m [.tickets] s.tickets t.tickets
  samples := took m [.samples] s.samples t.samples
  engines := took m [.engines] s.engines t.engines
  streams := took m [.streams] s.streams t.streams
  lastHdr := took m [.lastHdr] s.lastHdr t.lastHdr
  wkey := took m [.wkey] s.wkey t.wkey
  hang := took m [.hang] s.hang t.hang
  tallies := took m [.tallies] s.tallies t.tallies
  tallyQ := took m [.tallyQ] s.tallyQ t.tallyQ
  ports := took m [.ports] s.ports t.ports
  seals := took m [.seals] s.seals t.seals
  sealMis := took m [.sealMis] s.sealMis t.sealMis
  sealMatch := took m [.sealMatch] s.sealMatch t.sealMatch
  launch := took m [.launch] s.launch t.launch
  attQ := took m [.attQ] s.attQ t.attQ
  peerRecs := took m [.peerRecs] s.peerRecs t.peerRecs
  peerTds := took m [.peerTds] s.peerTds t.peerTds
  caravan := took m [.caravan] s.caravan t.caravan
  cistern := took m [.bytes, .cistern] s.cistern t.cistern
  records := took m [.records] s.records t.records
  early := took m [.early] s.early t.early
  near := took m [.near] s.near t.near
  far := took m [.far] s.far t.far
  thermal := took m [.thermal] s.thermal t.thermal
  erg := took m [.erg] s.erg t.erg
  mtr := took m [.mtr] s.mtr t.mtr
  trc := took m [.trc] s.trc t.trc
  mgmt := took m [.mgmt] s.mgmt t.mgmt
  csr := took m [.csr] s.csr t.csr
  cadNack := took m [.cadNack] s.cadNack t.cadNack
  portViols := took m [.portViols] s.portViols t.portViols
  big := took m [.big] s.big t.big
  rng := took m [.rng] s.rng t.rng
  pending := took m [.pending] s.pending t.pending

theorem Same.frame {m : List Fld} {s t : State} (h : Same m s t) : t = changed m s t :=
  state_ext (took_eq fun hf => h.time_eq (hf _ (by decide)) (hf _ (by decide)) (hf _ (by decide)))
    (took_eq fun hf => h.keep_eq (hf _ (by decide)) (hf _ (by decide)) (hf _ (by decide)) (hf _ (by decide)) (hf _ (by decide)) (hf _ (by decide)) (hf _ (by decide)) (hf _ (by decide)) (hf _ (by decide)))
    (took_eq fun hf => h.belfry_eq (hf _ (by decide)) (hf _ (by decide)) (hf _ (by decide)) (hf _ (by decide)) (hf _ (by decide)))
    (took_eq fun hf => h .fuses (hf _ (by decide))) (took_eq fun hf => h .built (hf _ (by decide)))
    (took_eq fun hf => h .boot (hf _ (by decide))) (took_eq fun hf => h .pads (hf _ (by decide)))
    (took_eq fun hf => h.image_eq (hf _ (by decide))) (took_eq fun hf => h.imageHash_eq (hf _ (by decide)))
    (took_eq fun hf => h.imageSeq_eq (hf _ (by decide))) (took_eq fun hf => h.imageBuild_eq (hf _ (by decide)))
    (took_eq fun hf => h.imageFlags_eq (hf _ (by decide))) (took_eq fun hf => h.imageKey_eq (hf _ (by decide)))
    (took_eq fun hf => h.imageSvn_eq (hf _ (by decide))) (took_eq fun hf => h .nvm (hf _ (by decide)))
    (took_eq fun hf => h .parts (hf _ (by decide))) (took_eq fun hf => h .tiles (hf _ (by decide)))
    (took_eq fun hf => h .spires (hf _ (by decide))) (took_eq fun hf => h .domes (hf _ (by decide)))
    (took_eq fun hf => h .ops (hf _ (by decide))) (took_eq fun hf => h .opSeq (hf _ (by decide)))
    (took_eq fun hf => h .tickets (hf _ (by decide))) (took_eq fun hf => h .samples (hf _ (by decide)))
    (took_eq fun hf => h .engines (hf _ (by decide))) (took_eq fun hf => h .streams (hf _ (by decide)))
    (took_eq fun hf => h .lastHdr (hf _ (by decide))) (took_eq fun hf => h .wkey (hf _ (by decide)))
    (took_eq fun hf => h .hang (hf _ (by decide))) (took_eq fun hf => h .tallies (hf _ (by decide)))
    (took_eq fun hf => h .tallyQ (hf _ (by decide))) (took_eq fun hf => h .ports (hf _ (by decide)))
    (took_eq fun hf => h .seals (hf _ (by decide))) (took_eq fun hf => h .sealMis (hf _ (by decide)))
    (took_eq fun hf => h .sealMatch (hf _ (by decide))) (took_eq fun hf => h .launch (hf _ (by decide)))
    (took_eq fun hf => h .attQ (hf _ (by decide))) (took_eq fun hf => h .peerRecs (hf _ (by decide)))
    (took_eq fun hf => h .peerTds (hf _ (by decide))) (took_eq fun hf => h .caravan (hf _ (by decide)))
    (took_eq fun hf => h.cistern_eq (hf _ (by decide)) (hf _ (by decide))) (took_eq fun hf => h .records (hf _ (by decide)))
    (took_eq fun hf => h .early (hf _ (by decide))) (took_eq fun hf => h .near (hf _ (by decide)))
    (took_eq fun hf => h .far (hf _ (by decide))) (took_eq fun hf => h .thermal (hf _ (by decide)))
    (took_eq fun hf => h .erg (hf _ (by decide))) (took_eq fun hf => h .mtr (hf _ (by decide)))
    (took_eq fun hf => h .trc (hf _ (by decide))) (took_eq fun hf => h .mgmt (hf _ (by decide)))
    (took_eq fun hf => h .csr (hf _ (by decide))) (took_eq fun hf => h .cadNack (hf _ (by decide)))
    (took_eq fun hf => h .portViols (hf _ (by decide))) (took_eq fun hf => h .big (hf _ (by decide)))
    (took_eq fun hf => h .rng (hf _ (by decide))) (took_eq fun hf => h .pending (hf _ (by decide)))

end Sys2Proof.Machine
end

section
/-! What every command keeps: completion, the invariant, what only a cold reset takes back, DEAD and RETIRED tiles; the reset state. -/

set_option Elab.async false

namespace Sys2Proof.Machine

/-- Every part of the state by which a frame is told. -/
def allFlds : List Fld :=
  [.tick, .timeRun, .time, .alert, .acc, .cmd, .mbx, .talloc, .units, .fault, .locks, .keep, .belfryRun, .inputs, .cad, .cmds, .belfry, .bytes, .cistern, .image, .fuses, .built, .boot, .pads, .nvm, .parts, .tiles, .spires, .domes, .ops, .opSeq, .tickets, .samples, .engines, .streams, .lastHdr, .wkey, .hang, .tallies, .tallyQ, .ports, .seals, .sealMis, .sealMatch, .launch, .attQ, .peerRecs, .peerTds, .caravan, .records, .early, .near, .far, .thermal, .erg, .mtr, .trc, .mgmt, .csr, .cadNack, .portViols, .big, .rng, .pending]

theorem mem_allFlds (f : Fld) : f ∈ allFlds := by cases f <;> decide

theorem exec_keeps {c : Instr} (s : State) (hc : coldResets c = false) : ∃ t, exec c s = .next t ∧ Keeps allFlds s t := by
  cases c with
  | descriptor sp d => exact execDescriptor_keeps sp d (Keeps.rfl_ _ s) (fun f _ => mem_allFlds f)
  | operandBeat sp b injReq => exact execOperandBeat_keeps sp b injReq (Keeps.rfl_ _ s) (fun f _ => mem_allFlds f)
  | ttInjReq sp => exact execTtInjReq_keeps sp (Keeps.rfl_ _ s) (fun f _ => mem_allFlds f)
  | resultBeat sp b ckrow => exact execResultBeat_keeps sp b ckrow (Keeps.rfl_ _ s) (fun f _ => mem_allFlds f)
  | ttResEnd sp b ckrow => exact execTtResEnd_keeps sp b ckrow (Keeps.rfl_ _ s) (fun f _ => mem_allFlds f)
  | groupCompare sp => exact execGroupCompare_keeps sp (Keeps.rfl_ _ s) (fun f _ => mem_allFlds f)
  | burstStall sp tag res => exact execBurstStall_keeps sp tag res (Keeps.rfl_ _ s) (fun f _ => mem_allFlds f)
  | burstTimeout sp tag res => exact execBurstTimeout_keeps sp tag res (Keeps.rfl_ _ s) (fun f _ => mem_allFlds f)
  | ttFenceAck sp => exact execTtFenceAck_keeps sp (Keeps.rfl_ _ s) (fun f _ => mem_allFlds f)
  | fenceAckTimeout sp => exact execFenceAckTimeout_keeps sp (Keeps.rfl_ _ s) (fun f _ => mem_allFlds f)
  | heartbeatLoss sp => exact execHeartbeatLoss_keeps sp (Keeps.rfl_ _ s) (fun f _ => mem_allFlds f)
  | ttProgChange sp gray => exact execTtProgChange_keeps sp gray (Keeps.rfl_ _ s) (fun f _ => mem_allFlds f)
  | ttRstAck sp => exact execTtRstAck_keeps sp (Keeps.rfl_ _ s) (fun f _ => mem_allFlds f)
  | ttReady sp => exact execTtReady_keeps sp (Keeps.rfl_ _ s) (fun f _ => mem_allFlds f)
  | rstAckTimeout sp => exact execRstAckTimeout_keeps sp (Keeps.rfl_ _ s) (fun f _ => mem_allFlds f)
  | readyTimeout sp => exact execReadyTimeout_keeps sp (Keeps.rfl_ _ s) (fun f _ => mem_allFlds f)
  | tileRst sp => exact execTileRst_keeps sp (Keeps.rfl_ _ s) (fun f _ => mem_allFlds f)
  | weightSegment port hdr beats drop => exact execWeightSegment_keeps port hdr beats drop (Keeps.rfl_ _ s) (fun f _ => mem_allFlds f)
  | engineRow eng => exact execEngineRow_keeps eng (Keeps.rfl_ _ s) (fun f _ => mem_allFlds f)
  | memtapLine l => exact execMemtapLine_keeps l (Keeps.rfl_ _ s) (fun f _ => mem_allFlds f)
  | linkEgressMessage m => exact execLinkEgressMessage_keeps m (Keeps.rfl_ _ s) (fun f _ => mem_allFlds f)
  | linkIngressMessage m => exact execLinkIngressMessage_keeps m (Keeps.rfl_ _ s) (fun f _ => mem_allFlds f)
  | sealFrame h b => exact execSealFrame_keeps h b (Keeps.rfl_ _ s) (fun f _ => mem_allFlds f)
  | sealWait k => exact execSealWait_keeps k (Keeps.rfl_ _ s) (fun f _ => mem_allFlds f)
  | cadenceWord w => exact execCadenceWord_keeps w (Keeps.rfl_ _ s) (fun f _ => mem_allFlds f)
  | ckptOpen p => exact execCkptOpen_keeps p (Keeps.rfl_ _ s) (fun f _ => mem_allFlds f)
  | ckptWritten p => exact execCkptWritten_keeps p (Keeps.rfl_ _ s) (fun f _ => mem_allFlds f)
  | ckptRead p => exact execCkptRead_keeps p (Keeps.rfl_ _ s) (fun f _ => mem_allFlds f)
  | restoreBegin p => exact execRestoreBegin_keeps p (Keeps.rfl_ _ s) (fun f _ => mem_allFlds f)
  | restoreEnd p => exact execRestoreEnd_keeps p (Keeps.rfl_ _ s) (fun f _ => mem_allFlds f)
  | jobStart p => exact execJobStart_keeps p (Keeps.rfl_ _ s) (fun f _ => mem_allFlds f)
  | belfryTick => exact execBelfryTick_keeps (Keeps.rfl_ _ s) (fun f _ => mem_allFlds f)
  | timerPeal ix => exact execTimerPeal_keeps ix (Keeps.rfl_ _ s) (fun f _ => mem_allFlds f)
  | countWindowClose ix key => exact execCountWindowClose_keeps ix key (Keeps.rfl_ _ s) (fun f _ => mem_allFlds f)
  | countingPealFire ix key => exact execCountingPealFire_keeps ix key (Keeps.rfl_ _ s) (fun f _ => mem_allFlds f)
  | fenceFrame sp f side => exact execFenceFrame_keeps sp f side (Keeps.rfl_ _ s) (fun f _ => mem_allFlds f)
  | testOn sp f side => exact execTestOn_keeps sp f side (Keeps.rfl_ _ s) (fun f _ => mem_allFlds f)
  | testOff sp f side => exact execTestOff_keeps sp f side (Keeps.rfl_ _ s) (fun f _ => mem_allFlds f)
  | deadFrame sp f side => exact execDeadFrame_keeps sp f side (Keeps.rfl_ _ s) (fun f _ => mem_allFlds f)
  | releaseFrame sp f side => exact execReleaseFrame_keeps sp f side (Keeps.rfl_ _ s) (fun f _ => mem_allFlds f)
  | retire sp f side => exact execRetire_keeps sp f side (Keeps.rfl_ _ s) (fun f _ => mem_allFlds f)
  | fenceDone sp fseq => exact execFenceDone_keeps sp fseq (Keeps.rfl_ _ s) (fun f _ => mem_allFlds f)
  | fenceReissue sp => exact execFenceReissue_keeps sp (Keeps.rfl_ _ s) (fun f _ => mem_allFlds f)
  | domePoll dome missed => exact execDomePoll_keeps dome missed (Keeps.rfl_ _ s) (fun f _ => mem_allFlds f)
  | timeBeacon spires domes => exact execTimeBeacon_keeps spires domes (Keeps.rfl_ _ s) (fun f _ => mem_allFlds f)
  | progressFrame dome map => exact execProgressFrame_keeps dome map (Keeps.rfl_ _ s) (fun f _ => mem_allFlds f)
  | hangTimeout sp => exact execHangTimeout_keeps sp (Keeps.rfl_ _ s) (fun f _ => mem_allFlds f)
  | stragglerPeriod p => exact execStragglerPeriod_keeps p (Keeps.rfl_ _ s) (fun f _ => mem_allFlds f)
  | sampleNotice sp => exact execSampleNotice_keeps sp (Keeps.rfl_ _ s) (fun f _ => mem_allFlds f)
  | witnessFragment sp => exact execWitnessFragment_keeps sp (Keeps.rfl_ _ s) (fun f _ => mem_allFlds f)
  | resultCapture sp => exact execResultCapture_keeps sp (Keeps.rfl_ _ s) (fun f _ => mem_allFlds f)
  | replayCompare slot => exact execReplayCompare_keeps slot (Keeps.rfl_ _ s) (fun f _ => mem_allFlds f)
  | replayDeadline slot => exact execReplayDeadline_keeps slot (Keeps.rfl_ _ s) (fun f _ => mem_allFlds f)
  | confirmationDeadline slot => exact execConfirmationDeadline_keeps slot (Keeps.rfl_ _ s) (fun f _ => mem_allFlds f)
  | arbitration slot => exact execArbitration_keeps slot (Keeps.rfl_ _ s) (fun f _ => mem_allFlds f)
  | engineSelfTest eng => exact execEngineSelfTest_keeps eng (Keeps.rfl_ _ s) (fun f _ => mem_allFlds f)
  | engineTestDone eng pass => exact execEngineTestDone_keeps eng pass (Keeps.rfl_ _ s) (fun f _ => mem_allFlds f)
  | scrsum sp => exact execScrsum_keeps sp (Keeps.rfl_ _ s) (fun f _ => mem_allFlds f)
  | expprof sp => exact execExpprof_keeps sp (Keeps.rfl_ _ s) (fun f _ => mem_allFlds f)
  | digop sp => exact execDigop_keeps sp (Keeps.rfl_ _ s) (fun f _ => mem_allFlds f)
  | rerunDeadline sp stag epoch => exact execRerunDeadline_keeps sp stag epoch (Keeps.rfl_ _ s) (fun f _ => mem_allFlds f)
  | sealTimeout p => exact execSealTimeout_keeps p (Keeps.rfl_ _ s) (fun f _ => mem_allFlds f)
  | rollbackRepost p => exact execRollbackRepost_keeps p (Keeps.rfl_ _ s) (fun f _ => mem_allFlds f)
  | rollbackTimeout p => exact execRollbackTimeout_keeps p (Keeps.rfl_ _ s) (fun f _ => mem_allFlds f)
  | hangGraphDone stalled => exact execHangGraphDone_keeps stalled (Keeps.rfl_ _ s) (fun f _ => mem_allFlds f)
  | hangDumpDone => exact execHangDumpDone_keeps (Keeps.rfl_ _ s) (fun f _ => mem_allFlds f)
  | dumpBudget => exact execDumpBudget_keeps (Keeps.rfl_ _ s) (fun f _ => mem_allFlds f)
  | computeReset => exact execComputeReset_keeps (Keeps.rfl_ _ s) (fun f _ => mem_allFlds f)
  | computeResetDone => exact execComputeResetDone_keeps (Keeps.rfl_ _ s) (fun f _ => mem_allFlds f)
  | progressReturnTimeout => exact execProgressReturnTimeout_keeps (Keeps.rfl_ _ s) (fun f _ => mem_allFlds f)
  | keepWatchdog => exact execKeepWatchdog_keeps (Keeps.rfl_ _ s) (fun f _ => mem_allFlds f)
  | recordDrainTimeout => exact execRecordDrainTimeout_keeps (Keeps.rfl_ _ s) (fun f _ => mem_allFlds f)
  | keepRestart => exact execKeepRestart_keeps (Keeps.rfl_ _ s) (fun f _ => mem_allFlds f)
  | tallyAlloc who => exact execTallyAlloc_keeps who (Keeps.rfl_ _ s) (fun f _ => mem_allFlds f)
  | add who t arg => exact execAdd_keeps who t arg (Keeps.rfl_ _ s) (fun f _ => mem_allFlds f)
  | wait who t arg => exact execWait_keeps who t arg (Keeps.rfl_ _ s) (fun f _ => mem_allFlds f)
  | unwait who t arg => exact execUnwait_keeps who t arg (Keeps.rfl_ _ s) (fun f _ => mem_allFlds f)
  | free who t arg => exact execFree_keeps who t arg (Keeps.rfl_ _ s) (fun f _ => mem_allFlds f)
  | talTargetWrite who t v => exact execTalTargetWrite_keeps who t v (Keeps.rfl_ _ s) (fun f _ => mem_allFlds f)
  | digest h b => exact execDigest_keeps h b (Keeps.rfl_ _ s) (fun f _ => mem_allFlds f)
  | dcmpWait p era step layer => exact execDcmpWait_keeps p era step layer (Keeps.rfl_ _ s) (fun f _ => mem_allFlds f)
  | tdlist h part era step layer tds => exact execTdlist_keeps h part era step layer tds (Keeps.rfl_ _ s) (fun f _ => mem_allFlds f)
  | hello h b => exact execHello_keeps h b (Keeps.rfl_ _ s) (fun f _ => mem_allFlds f)
  | ack h => exact execAck_keeps h (Keeps.rfl_ _ s) (fun f _ => mem_allFlds f)
  | nak h expected => exact execNak_keeps h expected (Keeps.rfl_ _ s) (fun f _ => mem_allFlds f)
  | retransmitTimeout port => exact execRetransmitTimeout_keeps port (Keeps.rfl_ _ s) (fun f _ => mem_allFlds f)
  | ackIdle port => exact execAckIdle_keeps port (Keeps.rfl_ _ s) (fun f _ => mem_allFlds f)
  | time h b => exact execTime_keeps h b (Keeps.rfl_ _ s) (fun f _ => mem_allFlds f)
  | timeCheck port => exact execTimeCheck_keeps port (Keeps.rfl_ _ s) (fun f _ => mem_allFlds f)
  | launchProp h t num => exact execLaunchProp_keeps h t num (Keeps.rfl_ _ s) (fun f _ => mem_allFlds f)
  | launchAck h num => exact execLaunchAck_keeps h num (Keeps.rfl_ _ s) (fun f _ => mem_allFlds f)
  | launchNak h num => exact execLaunchNak_keeps h num (Keeps.rfl_ _ s) (fun f _ => mem_allFlds f)
  | launchCommit h num => exact execLaunchCommit_keeps h num (Keeps.rfl_ _ s) (fun f _ => mem_allFlds f)
  | launchAbort h num => exact execLaunchAbort_keeps h num (Keeps.rfl_ _ s) (fun f _ => mem_allFlds f)
  | launchCommitDeadline => exact execLaunchCommitDeadline_keeps (Keeps.rfl_ _ s) (fun f _ => mem_allFlds f)
  | launchTime => exact execLaunchTime_keeps (Keeps.rfl_ _ s) (fun f _ => mem_allFlds f)
  | launchPulseEnd => exact execLaunchPulseEnd_keeps (Keeps.rfl_ _ s) (fun f _ => mem_allFlds f)
  | attestationSign p => exact execAttestationSign_keeps p (Keeps.rfl_ _ s) (fun f _ => mem_allFlds f)
  | timerefLoss => exact execTimerefLoss_keeps (Keeps.rfl_ _ s) (fun f _ => mem_allFlds f)
  | timerefRelock => exact execTimerefRelock_keeps (Keeps.rfl_ _ s) (fun f _ => mem_allFlds f)
  | holdoverMeasure ppb => exact execHoldoverMeasure_keeps ppb (Keeps.rfl_ _ s) (fun f _ => mem_allFlds f)
  | ppsEdge => exact execPpsEdge_keeps (Keeps.rfl_ _ s) (fun f _ => mem_allFlds f)
  | ppsTimeout => exact execPpsTimeout_keeps (Keeps.rfl_ _ s) (fun f _ => mem_allFlds f)
  | flitCrcFail l f => exact execFlitCrcFail_keeps l f (Keeps.rfl_ _ s) (fun f _ => mem_allFlds f)
  | backlogReport sp wit rec bulk => exact execBacklogReport_keeps sp wit rec bulk (Keeps.rfl_ _ s) (fun f _ => mem_allFlds f)
  | grantInterval dome vrate => exact execGrantInterval_keeps dome vrate (Keeps.rfl_ _ s) (fun f _ => mem_allFlds f)
  | cisternRead use x => exact execCisternRead_keeps use x (Keeps.rfl_ _ s) (fun f _ => mem_allFlds f)
  | cisternWrite addr data held => exact execCisternWrite_keeps addr data held (Keeps.rfl_ _ s) (fun f _ => mem_allFlds f)
  | rowRemap bank row => exact execRowRemap_keeps bank row (Keeps.rfl_ _ s) (fun f _ => mem_allFlds f)
  | scrubSliceDone => exact execScrubSliceDone_keeps (Keeps.rfl_ _ s) (fun f _ => mem_allFlds f)
  | fill who bank => exact execFill_keeps who bank (Keeps.rfl_ _ s) (fun f _ => mem_allFlds f)
  | bankTest who bank failLine => exact execBankTest_keeps who bank failLine (Keeps.rfl_ _ s) (fun f _ => mem_allFlds f)
  | coldResetNAssert => cases hc
  | pwrGoodLoss => cases hc
  | alwaysOnRailLoss => cases hc
  | coldResetNRelease => exact execColdResetNRelease_keeps (Keeps.rfl_ _ s) (fun f _ => mem_allFlds f)
  | fuseRead r => exact execFuseRead_keeps r (Keeps.rfl_ _ s) (fun f _ => mem_allFlds f)
  | timerefWaitTimeout => exact execTimerefWaitTimeout_keeps (Keeps.rfl_ _ s) (fun f _ => mem_allFlds f)
  | pllLockTimeout => exact execPllLockTimeout_keeps (Keeps.rfl_ _ s) (fun f _ => mem_allFlds f)
  | nvmDiscovery d => exact execNvmDiscovery_keeps d (Keeps.rfl_ _ s) (fun f _ => mem_allFlds f)
  | imageCheck r => exact execImageCheck_keeps r (Keeps.rfl_ _ s) (fun f _ => mem_allFlds f)
  | firmwareStart => exact execFirmwareStart_keeps (Keeps.rfl_ _ s) (fun f _ => mem_allFlds f)
  | clocksAndCaravan taps net => exact execClocksAndCaravan_keeps taps net (Keeps.rfl_ _ s) (fun f _ => mem_allFlds f)
  | memories badBanks badEngines badSpires => exact execMemories_keeps badBanks badEngines badSpires (Keeps.rfl_ _ s) (fun f _ => mem_allFlds f)
  | seamQualification edges => exact execSeamQualification_keeps edges (Keeps.rfl_ _ s) (fun f _ => mem_allFlds f)
  | banenQualification q => exact execBanenQualification_keeps q (Keeps.rfl_ _ s) (fun f _ => mem_allFlds f)
  | banWait port => exact execBanWait_keeps port (Keeps.rfl_ _ s) (fun f _ => mem_allFlds f)
  | banenRetry port => exact execBanenRetry_keeps port (Keeps.rfl_ _ s) (fun f _ => mem_allFlds f)
  | waveRelease => exact execWaveRelease_keeps (Keeps.rfl_ _ s) (fun f _ => mem_allFlds f)
  | ready => exact execReady_keeps (Keeps.rfl_ _ s) (fun f _ => mem_allFlds f)
  | timerefRelockTimeout => exact execTimerefRelockTimeout_keeps (Keeps.rfl_ _ s) (fun f _ => mem_allFlds f)
  | idcode => exact execIdcode_keeps (Keeps.rfl_ _ s) (fun f _ => mem_allFlds f)
  | samplePreload capture => exact execSamplePreload_keeps capture (Keeps.rfl_ _ s) (fun f _ => mem_allFlds f)
  | extest => exact execExtest_keeps (Keeps.rfl_ _ s) (fun f _ => mem_allFlds f)
  | clamp => exact execClamp_keeps (Keeps.rfl_ _ s) (fun f _ => mem_allFlds f)
  | highz => exact execHighz_keeps (Keeps.rfl_ _ s) (fun f _ => mem_allFlds f)
  | bypass op => exact execBypass_keeps op (Keeps.rfl_ _ s) (fun f _ => mem_allFlds f)
  | manufacturingTest op => exact execManufacturingTest_keeps op (Keeps.rfl_ _ s) (fun f _ => mem_allFlds f)
  | donePoll u done => exact execDonePoll_keeps u done (Keeps.rfl_ _ s) (fun f _ => mem_allFlds f)
  | sliceDone u r us => exact execSliceDone_keeps u r us (Keeps.rfl_ _ s) (fun f _ => mem_allFlds f)
  | sliceTimeout u => exact execSliceTimeout_keeps u (Keeps.rfl_ _ s) (fun f _ => mem_allFlds f)
  | snapshotWrite => exact execSnapshotWrite_keeps (Keeps.rfl_ _ s) (fun f _ => mem_allFlds f)
  | sdtComplete => exact execSdtComplete_keeps (Keeps.rfl_ _ s) (fun f _ => mem_allFlds f)
  | sensorReading dome ix count => exact execSensorReading_keeps dome ix count (Keeps.rfl_ _ s) (fun f _ => mem_allFlds f)
  | levelFall dome ix => exact execLevelFall_keeps dome ix (Keeps.rfl_ _ s) (fun f _ => mem_allFlds f)
  | meterPeriodClose => exact execMeterPeriodClose_keeps (Keeps.rfl_ _ s) (fun f _ => mem_allFlds f)
  | wallClockSet who => exact execWallClockSet_keeps who (Keeps.rfl_ _ s) (fun f _ => mem_allFlds f)
  | ergClear who => exact execErgClear_keeps who (Keeps.rfl_ _ s) (fun f _ => mem_allFlds f)
  | dumpCommand who w => exact execDumpCommand_keeps who w (Keeps.rfl_ _ s) (fun f _ => mem_allFlds f)
  | dumpDone p => exact execDumpDone_keeps p (Keeps.rfl_ _ s) (fun f _ => mem_allFlds f)
  | mbxSelWrite who sel => exact execMbxSelWrite_keeps who sel (Keeps.rfl_ _ s) (fun f _ => mem_allFlds f)
  | mbxLatchDone who => exact execMbxLatchDone_keeps who (Keeps.rfl_ _ s) (fun f _ => mem_allFlds f)
  | registerWrite r => exact execRegisterWrite_keeps r (Keeps.rfl_ _ s) (fun f _ => mem_allFlds f)
  | aliasWrite r => exact execAliasWrite_keeps r (Keeps.rfl_ _ s) (fun f _ => mem_allFlds f)
  | keepLockWrite r => exact execKeepLockWrite_keeps r (Keeps.rfl_ _ s) (fun f _ => mem_allFlds f)
  | keepHosttagWrite r => exact execKeepHosttagWrite_keeps r (Keeps.rfl_ _ s) (fun f _ => mem_allFlds f)
  | keepUnitEnWrite r => exact execKeepUnitEnWrite_keeps r (Keeps.rfl_ _ s) (fun f _ => mem_allFlds f)
  | paritySweep bad => exact execParitySweep_keeps bad (Keeps.rfl_ _ s) (fun f _ => mem_allFlds f)
  | configReload c => exact execConfigReload_keeps c (Keeps.rfl_ _ s) (fun f _ => mem_allFlds f)
  | setaddr addr len => exact execSetaddr_keeps addr len (Keeps.rfl_ _ s) (fun f _ => mem_allFlds f)
  | read => exact execRead_keeps (Keeps.rfl_ _ s) (fun f _ => mem_allFlds f)
  | write w => exact execWrite_keeps w (Keeps.rfl_ _ s) (fun f _ => mem_allFlds f)
  | status => exact execStatus_keeps (Keeps.rfl_ _ s) (fun f _ => mem_allFlds f)
  | clockLowTimeout => exact execClockLowTimeout_keeps (Keeps.rfl_ _ s) (fun f _ => mem_allFlds f)
  | entdaa dyn => exact execEntdaa_keeps dyn (Keeps.rfl_ _ s) (fun f _ => mem_allFlds f)
  | setdasa dyn => exact execSetdasa_keeps dyn (Keeps.rfl_ _ s) (fun f _ => mem_allFlds f)
  | rstdaa => exact execRstdaa_keeps (Keeps.rfl_ _ s) (fun f _ => mem_allFlds f)
  | getpid => exact execGetpid_keeps (Keeps.rfl_ _ s) (fun f _ => mem_allFlds f)
  | getbcr => exact execGetbcr_keeps (Keeps.rfl_ _ s) (fun f _ => mem_allFlds f)
  | getdcr => exact execGetdcr_keeps (Keeps.rfl_ _ s) (fun f _ => mem_allFlds f)
  | getstatus => exact execGetstatus_keeps (Keeps.rfl_ _ s) (fun f _ => mem_allFlds f)
  | getmxds => exact execGetmxds_keeps (Keeps.rfl_ _ s) (fun f _ => mem_allFlds f)
  | test who w => exact execTest_keeps who w (Keeps.rfl_ _ s) (fun f _ => mem_allFlds f)
  | notidleTimeout who => exact execNotidleTimeout_keeps who (Keeps.rfl_ _ s) (fun f _ => mem_allFlds f)
  | release who w => exact execRelease_keeps who w (Keeps.rfl_ _ s) (fun f _ => mem_allFlds f)
  | shutdown who w => exact execShutdown_keeps who w (Keeps.rfl_ _ s) (fun f _ => mem_allFlds f)
  | repairClear who w => exact execRepairClear_keeps who w (Keeps.rfl_ _ s) (fun f _ => mem_allFlds f)
  | clockLoss c => exact execClockLoss_keeps c (Keeps.rfl_ _ s) (fun f _ => mem_allFlds f)
  | npResponse far tag code data => exact execNpResponse_keeps far tag code data (Keeps.rfl_ _ s) (fun f _ => mem_allFlds f)
  | memerrTimeout far tag => exact execMemerrTimeout_keeps far tag (Keeps.rfl_ _ s) (fun f _ => mem_allFlds f)
  | writeRetry far tag => exact execWriteRetry_keeps far tag (Keeps.rfl_ _ s) (fun f _ => mem_allFlds f)
  | clockReturn c => exact execClockReturn_keeps c (Keeps.rfl_ _ s) (fun f _ => mem_allFlds f)
  | ttIdleChange sp idle => exact execTtIdleChange_keeps sp idle (Keeps.rfl_ _ s) (fun f _ => mem_allFlds f)
  | csrRead r => exact execCsrRead_keeps r (Keeps.rfl_ _ s) (fun f _ => mem_allFlds f)
  | banenBadFrame port => exact execBanenBadFrame_keeps port (Keeps.rfl_ _ s) (fun f _ => mem_allFlds f)
  | malformedTransaction f => exact execMalformedTransaction_keeps f (Keeps.rfl_ _ s) (fun f _ => mem_allFlds f)
  | ppsAlignTimeout => exact execPpsAlignTimeout_keeps (Keeps.rfl_ _ s) (fun f _ => mem_allFlds f)

theorem exec_coldReset_eq {c : Instr} (s : State) (hc : coldResets c = true) : ∃ good power, exec c s = .next (coldReset s good power) := by
  cases c <;> first | exact ⟨_, _, rfl⟩ | cases hc

theorem exec_completes (c : Instr) (s : State) : ∃ t, exec c s = .next t ∧ t.pending = s.pending ∧ s.rng ≤ t.rng := by
  cases hc : coldResets c with
  | false =>
    obtain ⟨t, hexec, keeps⟩ := exec_keeps s hc
    exact ⟨t, hexec, keeps.pending, keeps.rng⟩
  | true =>
    obtain ⟨good, power, hexec⟩ := exec_coldReset_eq s hc
    exact ⟨_, hexec, coldReset_pending good power, (coldReset_rng good power).ge⟩

theorem step_eq_idle {s : State} (h : s.pending = []) : step s = .next (idle s) := by simp only [step, h]

theorem step_eq_exec {s : State} {c : Instr} {rest : List Instr} (h : s.pending = c :: rest) :
    step s = exec c { s with pending := rest } := by simp only [step, h]

theorem step_completes (s : State) : ∃ t, step s = .next t := by
  cases hq : s.pending with
  | nil => exact ⟨_, step_eq_idle hq⟩
  | cons c rest =>
    obtain ⟨t, hexec, -⟩ := exec_completes c { s with pending := rest }
    exact ⟨t, (step_eq_exec hq).trans hexec⟩

theorem safeRun (k : Nat) (s : State) : SafeRun k s := by
  induction k generalizing s with
  | zero => trivial
  | succ k ih =>
    obtain ⟨t, hstep⟩ := step_completes s
    exact ⟨t, hstep, ih t⟩

theorem Keeps.inv {m : List Fld} {s t : State} (h : Keeps m s t) (hs : s.Inv) : t.Inv := ⟨h.sized hs.sized, h.cistern hs.cistern⟩

/-- The invariant does not speak of the queue. -/
theorem State.Inv.withPending {s : State} (h : s.Inv) (q : List Instr) : ({ s with pending := q } : State).Inv :=
  ⟨⟨h.sized.parts, h.sized.engines, h.sized.ports, h.sized.banks, h.sized.mbx, h.sized.talloc, h.sized.cmd⟩, ⟨h.cistern.data, h.cistern.check⟩⟩

theorem exec_keeps_inv {c : Instr} {s t : State} (hs : s.Inv) (hexec : exec c s = .next t) : t.Inv := by
  cases hc : coldResets c with
  | false =>
    obtain ⟨u, hu, keeps⟩ := exec_keeps s hc
    obtain rfl := Host.Outcome.next.inj (hu.symm.trans hexec)
    exact keeps.inv hs
  | true =>
    obtain ⟨good, power, hu⟩ := exec_coldReset_eq s hc
    obtain rfl := Host.Outcome.next.inj (hu.symm.trans hexec)
    exact coldReset_inv good power hs

/-- Settles O1, by the definition of a step. -/
theorem stepRunsTheFrontCommand : Obligations.StepRunsTheFrontCommand := by
  unfold Obligations.StepRunsTheFrontCommand
  intro s c rest hq
  exact step_eq_exec hq

/-- Settles O4: every command completes by the rule of its family, and a run is a chain of steps. -/
theorem everyCommandCompletes : Obligations.EveryCommandCompletes := by
  unfold Obligations.EveryCommandCompletes
  exact ⟨exec_completes, safeRun⟩

/-- Settles O5: an idle step and every command keep the invariant, a cold reset too. -/
theorem stepKeepsInvariant : Obligations.StepKeepsInvariant := by
  unfold Obligations.StepKeepsInvariant
  intro s t hs hstep
  cases hq : s.pending with
  | nil =>
    obtain rfl := Host.Outcome.next.inj ((step_eq_idle hq).symm.trans hstep)
    exact (idle_keeps (Keeps.rfl_ allFlds s) (by decide)).inv hs
  | cons c rest => exact exec_keeps_inv (hs.withPending rest) ((step_eq_exec hq).symm.trans hstep)

/-- Settles O6: what a command keeps, but for a cold reset; that keeps the fuses as they are. -/
theorem onlyColdResetUndoes : Obligations.OnlyColdResetUndoes := by
  unfold Obligations.OnlyColdResetUndoes
  refine ⟨fun c s t hexec => ?fuses, fun c s t hc hexec => ?lasts⟩
  case fuses =>
    cases hc : coldResets c with
    | false =>
      obtain ⟨u, hu, keeps⟩ := exec_keeps s hc
      obtain rfl := Host.Outcome.next.inj (hu.symm.trans hexec)
      exact keeps.fuses.2
    | true =>
      obtain ⟨good, power, hu⟩ := exec_coldReset_eq s hc
      obtain rfl := Host.Outcome.next.inj (hu.symm.trans hexec)
      exact FuseGrows.rfl_ s.fuses
  case lasts =>
    obtain ⟨u, hu, keeps⟩ := exec_keeps s hc
    obtain rfl := Host.Outcome.next.inj (hu.symm.trans hexec)
    exact ⟨keeps.keep, keeps.stopped, keeps.latch, keeps.failed, keeps.image, keeps.fuses.1⟩

/-! ### DEAD and RETIRED tiles (R225) -/

theorem step_keeps {s t : State} (hc : ∀ c rest, s.pending = c :: rest → coldResets c = false) (hstep : step s = .next t) :
    ∃ q, Keeps allFlds { s with pending := q } t := by
  cases hq : s.pending with
  | nil =>
    obtain rfl := Host.Outcome.next.inj ((step_eq_idle hq).symm.trans hstep)
    exact ⟨s.pending, idle_keeps (Keeps.rfl_ allFlds s) (by decide)⟩
  | cons c rest =>
    obtain ⟨u, hu, keeps⟩ := exec_keeps { s with pending := rest } (hc c rest hq)
    obtain rfl := Host.Outcome.next.inj (hu.symm.trans ((step_eq_exec hq).symm.trans hstep))
    exact ⟨rest, keeps⟩

theorem find?_ix_of_stays {l m : List Tile} (h : List.Forall₂ Tile.Stays l m) {i : Nat} {x : Tile} (hx : l.find? (fun t => t.ix == i) = some x) :
    ∃ y, m.find? (fun t => t.ix == i) = some y ∧ x.Stays y := by
  induction h with
  | nil => cases hx
  | @cons a b l m hab _ ih =>
    by_cases ha : a.ix = i
    · obtain rfl : a = x := by simpa [ha] using hx
      exact ⟨b, by simp [hab.1, ha], hab⟩
    · obtain ⟨y, hy, hxy⟩ := ih (by simpa [ha] using hx)
      exact ⟨y, by simpa [hab.1, ha] using hy, hxy⟩

theorem stateOf_of_getTile {s : State} {i : Nat} {x : Tile} (h : getTile s i = some x) : stateOf s i = x.state := by simp only [stateOf, h]

theorem getTile_of_stateOf_ne_zero {s : State} {i : Nat} (h : stateOf s i ≠ 0) : getTile s i ≠ none := by
  intro hnone
  simp only [stateOf, hnone, ne_eq, not_true_eq_false] at h

/-- Settles O7: tile by tile, a step leaves the index, a DEAD state, and a RETIRED state or makes it DEAD. -/
theorem deadAndRetiredTiles : Obligations.DeadAndRetiredTiles := by
  unfold Obligations.DeadAndRetiredTiles
  intro s t himage hnodup hc hstep
  obtain ⟨q, keeps⟩ := step_keeps hc hstep
  have stays : List.Forall₂ Tile.Stays s.tiles t.tiles := keeps.tiles himage hnodup
  have tile (i : Nat) (hi : getTile s i ≠ none) :
      (stateOf s i = stDead → stateOf t i = stDead) ∧ (stateOf s i = stRetired → stateOf t i = stRetired ∨ stateOf t i = stDead) := by
    obtain ⟨x, hx⟩ := Option.ne_none_iff_exists'.1 hi
    obtain ⟨y, hy, -, dead, retired⟩ := find?_ix_of_stays stays hx
    rw [stateOf_of_getTile hx, stateOf_of_getTile (s := t) hy]
    exact ⟨dead, retired⟩
  refine ⟨stays_ix stays, fun i hi => (tile i hi).1, fun i hretired => (tile i ?_).2 hretired⟩
  exact getTile_of_stateOf_ne_zero (by rw [hretired]; decide)

/-! ### The reset state (R13, R278) -/

/-- Settles O3, by the reset values; the fixed sizes are the lengths of its lists. -/
theorem resetState : Obligations.ResetState := by
  unfold Obligations.ResetState
  refine ⟨rfl, rfl, rfl, rfl, rfl, rfl, rfl, rfl, rfl, rfl, rfl, rfl, rfl, rfl, rfl, rfl, rfl, ?ports, rfl, rfl, rfl, ?parts, rfl, rfl, ?inv⟩
  case ports => exact fun p hp => (List.eq_of_mem_replicate hp) ▸ rfl
  case parts => exact fun q hq => (List.eq_of_mem_replicate hq) ▸ ⟨rfl, rfl, rfl⟩
  case inv => exact ⟨⟨rfl, rfl, rfl, rfl, rfl, rfl, rfl⟩, ⟨rfl, rfl⟩⟩

end Sys2Proof.Machine
end

section
/-! The check bits of the Cistern as a linear code (R378, R379). -/

set_option Elab.async false

namespace Sys2Proof.Machine

/-! ### The Cistern's check bits are a linear code (R378, R379) -/

theorem colXor_succ (n : Nat) (col : Nat → Nat) (x : Nat) :
    colXor (n + 1) col x = if x.testBit n then colXor n col x ^^^ col n else colXor n col x := by
  simp only [colXor, List.range_succ, List.foldl_append, List.foldl_cons, List.foldl_nil]
  rfl

theorem colXor_xor (n : Nat) (col : Nat → Nat) (x y : Nat) : colXor n col (x ^^^ y) = colXor n col x ^^^ colXor n col y := by
  induction n with
  | zero => exact (Nat.xor_self 0).symm
  | succ n ih =>
    rw [colXor_succ, colXor_succ, colXor_succ, ih, Nat.testBit_xor]
    cases x.testBit n <;> cases y.testBit n <;>
      simp only [Bool.xor_self, Bool.xor_false, Bool.xor_true, Bool.not_false, if_true, Bool.false_eq_true, if_false]
    · ac_rfl
    · ac_rfl
    · rw [show colXor n col x ^^^ col n ^^^ (colXor n col y ^^^ col n) = colXor n col x ^^^ colXor n col y ^^^ (col n ^^^ col n) by ac_rfl,
        Nat.xor_self, Nat.xor_zero]

theorem colXor_lt (n : Nat) {col : Nat → Nat} (hcol : ∀ i, col i < 2 ^ 5) (x : Nat) : colXor n col x < 2 ^ 5 := by
  induction n with
  | zero => exact Nat.two_pow_pos 5
  | succ n ih =>
    rw [colXor_succ]
    split
    · exact Nat.xor_lt_two_pow ih (hcol n)
    · exact ih

/-- The part of the check bits that a byte's data gives. -/
def dataCheck (x : Nat) : Nat := colXor 8 (dataCol.getD · 0) x

/-- The part of the check bits that a byte's address gives. -/
def addrCheck (a : Nat) : Nat := colXor 23 (fun i => evenCol.getD (i % 15) 0) a

theorem getD_lt {l : List Nat} {n : Nat} (hn : 0 < n) (hl : ∀ x ∈ l, x < n) (i : Nat) : l.getD i 0 < n := by
  rw [List.getD_eq_getElem?_getD]
  cases h : l[i]? with
  | none => exact hn
  | some x => exact hl x (List.mem_of_getElem? h)

theorem dataCheck_lt (x : Nat) : dataCheck x < 2 ^ 5 := colXor_lt 8 (getD_lt (by decide) (by decide)) x

theorem addrCheck_lt (a : Nat) : addrCheck a < 2 ^ 5 := colXor_lt 23 (fun i => getD_lt (by decide) (by decide) (i % 15)) a

theorem dataCheck_xor (x y : Nat) : dataCheck (x ^^^ y) = dataCheck x ^^^ dataCheck y := colXor_xor 8 _ x y

theorem checkOf_toNat (a : Nat) (b : Byte) : (checkOf a b).toNat = dataCheck b.toNat ^^^ addrCheck a := by
  have hlt : dataCheck b.toNat ^^^ addrCheck a < 2 ^ 5 := Nat.xor_lt_two_pow (dataCheck_lt _) (addrCheck_lt _)
  exact (BitVec.toNat_ofNat _ 8).trans (Nat.mod_eq_of_lt (hlt.trans (by decide)))

/-- The address cancels: what is inverted in a stored byte and in its check bits alone gives the syndrome. -/
theorem syndrome_of_inverted (a : Nat) (b e f : Byte) :
    Nat.xor (checkOf a b ^^^ f).toNat (checkOf a (b ^^^ e)).toNat % 32 = (dataCheck e.toNat ^^^ f.toNat) % 32 := by
  change ((checkOf a b ^^^ f).toNat ^^^ (checkOf a (b ^^^ e)).toNat) % 32 = _
  rw [BitVec.toNat_xor, checkOf_toNat, checkOf_toNat, BitVec.toNat_xor, dataCheck_xor]
  generalize dataCheck b.toNat = d
  generalize addrCheck a = q
  generalize dataCheck e.toNat = u
  rw [show d ^^^ q ^^^ f.toNat ^^^ (d ^^^ u ^^^ q) = u ^^^ f.toNat ^^^ ((d ^^^ d) ^^^ (q ^^^ q)) by ac_rfl, Nat.xor_self, Nat.xor_self,
    Nat.xor_zero, Nat.xor_zero]

/-- What inverting bit `k` of a byte with its check bits inverts: one of the eight data bits, then one of the check bits. -/
def inverted (k : Nat) : Byte × Byte := if k < 8 then (BitVec.ofNat 8 (2 ^ k), 0#8) else (0#8, BitVec.ofNat 8 (2 ^ (k - 8)))

/-- The syndrome of an error, by the bits that it inverts. -/
def errorKind (e : Byte × Byte) : SynKind := synKind ((dataCheck e.1.toNat ^^^ e.2.toNat) % 32)

theorem errorKind_data : ∀ k < 8, errorKind (inverted k) = .dataBit k := by decide

theorem errorKind_check : ∀ k < 13, 8 ≤ k → errorKind (inverted k) = .checkBit := by decide

theorem errorKind_two : ∀ k < 13, ∀ j < k, errorKind ((inverted j).1 ^^^ (inverted k).1, (inverted j).2 ^^^ (inverted k).2) = .bad := by decide

theorem memGet_unCheck {bank a : Nat} (ha : a < 2 ^ 23) : unCheck (cisKey bank a) = checkOf a 0 ^^^ 31 := by
  have hkey : cisKey bank a % 2 ^ 23 = a := by rw [cisKey, Nat.mul_add_mod', Nat.mod_eq_of_lt ha]
  apply BitVec.eq_of_toNat_eq
  rw [unCheck, hkey, BitVec.toNat_xor, BitVec.toNat_ofNat]
  refine Nat.mod_eq_of_lt ?_
  exact Nat.xor_lt_two_pow (n := 8) (checkOf a 0).isLt (by decide)

/-- R380: a byte that no entry lists has the syndrome 31. -/
theorem syndrome_unlisted {s : State} {bank a : Nat} (ha : a < 2 ^ 23) (hdata : ∀ c ∈ s.cistern.data, c.1 ≠ cisKey bank a)
    (hcheck : ∀ c ∈ s.cistern.check, c.1 ≠ cisKey bank a) : syndrome s bank a = 31 := by
  have data : cisData s (cisKey bank a) = 0 ^^^ 0 := memGet_of_not_mem hdata
  have check : cisCheck s (cisKey bank a) = checkOf a 0 ^^^ 31 := (memGet_of_not_mem hcheck).trans (memGet_unCheck ha)
  simp only [syndrome, data, check, syndrome_of_inverted]
  rfl

/-- Settles O39: the code is linear, so that a syndrome is the sum of the columns of the inverted bits. -/
theorem storedBytesAreProtected : Obligations.StoredBytesAreProtected := by
  unfold Obligations.StoredBytesAreProtected
  refine ⟨?listed, fun s bank a ha hdata hcheck => ?unlisted⟩
  case listed =>
    intro a b ha syn flip
    have kind (e f : Byte) : syn (b ^^^ e) (checkOf a b ^^^ f) = errorKind (e, f) := congrArg synKind (syndrome_of_inverted a b e f)
    have flips (k : Nat) (x c : Byte) : flip k x c = (x ^^^ (inverted k).1, c ^^^ (inverted k).2) := by
      simp only [flip, inverted]
      split <;> simp only [BitVec.xor_zero]
    have single (k : Nat) : syn (flip k b (checkOf a b)).1 (flip k b (checkOf a b)).2 = errorKind (inverted k) := by rw [flips, kind]
    refine ⟨?_, fun k hk => ?_, fun k hlo hhi => ?_, fun j k hjk hk => ?_⟩
    · exact (congrArg₂ syn BitVec.xor_zero.symm BitVec.xor_zero.symm).trans (kind 0 0)
    · rw [single, errorKind_data k hk]
    · rw [single, errorKind_check k hhi hlo]
    · intro x y
      have hy : y = (b ^^^ ((inverted j).1 ^^^ (inverted k).1), checkOf a b ^^^ ((inverted j).2 ^^^ (inverted k).2)) := by
        simp only [y, x, flips, BitVec.xor_assoc]
      rw [hy, kind, errorKind_two k hk j hjk]
  case unlisted => rw [syndrome_unlisted ha hdata hcheck]; rfl
end Sys2Proof.Machine
end

section
/-! An idle step (R317; logs 3 and 11): the tick, and what the memory ports issue. -/

set_option Elab.async false

namespace Sys2Proof.Machine

/-! ### What issuing leaves and gives (R87, R474; log 11) -/

/-- Partitions differ in the use of the Cistern's lines alone. -/
def UsesLines (s t : State) : Prop :=
  ∀ p, getPart t p = { getPart s p with cnt := { (getPart s p).cnt with cisUse := (getPart t p).cnt.cisUse } }

theorem UsesLines.rfl_ (s : State) : UsesLines s s := fun _ => rfl

theorem UsesLines.trans {s t u : State} (h : UsesLines s t) (g : UsesLines t u) : UsesLines s u := by
  intro p
  rw [g p, h p]

theorem UsesLines.of_parts {s t : State} (h : t.parts = s.parts) : UsesLines s t := by
  intro p
  have hp : getPart t p = getPart s p := by rw [getPart, getPart, h]
  rw [hp]

theorem subUse_usesLines (s : State) (p n : Nat) : UsesLines s (subUse s p n) := by
  intro q
  by_cases hq : q = p
  · subst hq
    by_cases hlen : q < s.parts.length
    · simp only [subUse, updCnt, getPart_updPart s q _ hlen]
    · simp only [subUse, updCnt, updPart_of_length_le s _ (Nat.le_of_not_lt hlen)]
  · simp only [subUse, updCnt, getPart_updPart_ne s _ hq]

/-- The parts of the state that say what an item writes. -/
structure SameItems (s t : State) : Prop where
  parts : UsesLines s t
  image : t.image = s.image
  hang : t.hang = s.hang

theorem SameItems.rfl_ (s : State) : SameItems s s := ⟨.rfl_ s, rfl, rfl⟩

theorem SameItems.trans {s t u : State} (h : SameItems s t) (g : SameItems t u) : SameItems s u :=
  ⟨h.parts.trans g.parts, g.image.trans h.image, g.hang.trans h.hang⟩

theorem SameItems.itemTotal_eq_zero {s t : State} (h : SameItems s t) (i : NearItem) : itemTotal t i = 0 ↔ itemTotal s i = 0 := by
  have logs (p : Nat) : (getPart t p).logs = (getPart s p).logs := by rw [h.parts p]
  have mem (p : Nat) : (getPart t p).oasisMem = (getPart s p).oasisMem := by rw [h.parts p]
  have slots (n : Nat) : logSlots t n = logSlots s n := by simp only [logSlots, h.image]
  cases i <;> simp only [itemTotal, itemWords, itemPart, logs, mem, slots, Nat.succ_ne_zero]

/-- An item goes on at a port: it is being issued, or it has a request outstanding that was issued once. -/
def GoesOn (m : MemPort) (i : NearItem) : Prop := m.cur.map (·.item) = some i ∨ ∃ r ∈ m.out, r.item = i ∧ r.retries = 0

/-- What a port that issues makes of what it had to do; `zero` are the items with nothing to write. -/
structure MemPort.Issues (zero : NearItem → Prop) (m n : MemPort) : Prop where
  out : ∀ r ∈ m.out, r ∈ n.out
  waiting : ∀ i ∈ m.waiting, i ∈ n.waiting ∨ GoesOn n i ∨ zero i
  cur : ∀ c, m.cur = some c → GoesOn n c.item

/-- A port that issues nothing: at most more items wait. -/
structure MemPort.Rests (m n : MemPort) : Prop where
  out : n.out = m.out
  cur : n.cur = m.cur
  waiting : m.waiting <+: n.waiting

variable {zero zero' : NearItem → Prop} {m n k : MemPort}

theorem MemPort.Rests.rfl_ (m : MemPort) : m.Rests m := ⟨rfl, rfl, List.prefix_refl _⟩

theorem MemPort.Rests.trans (h : m.Rests n) (g : n.Rests k) : m.Rests k :=
  ⟨g.out.trans h.out, g.cur.trans h.cur, h.waiting.trans g.waiting⟩

theorem GoesOn.of_cur {c : Issue} (h : m.cur = some c) : GoesOn m c.item := .inl (by rw [h]; rfl)

theorem MemPort.Rests.issues (h : m.Rests n) : m.Issues zero n where
  out r hr := h.out ▸ hr
  waiting i hi := .inl (h.waiting.subset hi)
  cur c hc := .of_cur (h.cur.trans hc)

theorem MemPort.Issues.goesOn (h : m.Issues zero n) {i : NearItem} (hi : GoesOn m i) : GoesOn n i := by
  rcases hi with hcur | ⟨r, hr, hitem, hretries⟩
  · obtain ⟨c, hc, rfl⟩ := Option.map_eq_some_iff.1 hcur
    exact h.cur c hc
  · exact .inr ⟨r, h.out r hr, hitem, hretries⟩

theorem MemPort.Issues.trans (h : m.Issues zero n) (g : n.Issues zero' k) (hz : ∀ i, zero' i → zero i) : m.Issues zero k where
  out r hr := g.out r (h.out r hr)
  waiting i hi := by
    rcases h.waiting i hi with hw | hon | hzero
    · exact (g.waiting i hw).imp_right (Or.imp_right (hz i))
    · exact .inr (.inl (g.goesOn hon))
    · exact .inr (.inr hzero)
  cur c hc := g.goesOn (h.cur c hc)

/-- What a port's issuing leaves and gives in the whole state: `far` is the port that issues. -/
structure Issuing (far : Bool) (s t : State) : Prop where
  items : SameItems s t
  own : (memPort s far).Issues (itemTotal s · = 0) (memPort t far)
  other : (memPort s !far).Rests (memPort t !far)

theorem Issuing.rfl_ (far : Bool) (s : State) : Issuing far s s := ⟨.rfl_ s, (MemPort.Rests.rfl_ _).issues, .rfl_ _⟩

theorem Issuing.trans {far : Bool} {s t u : State} (h : Issuing far s t) (g : Issuing far t u) : Issuing far s u :=
  ⟨h.items.trans g.items, h.own.trans g.own fun i => (h.items.itemTotal_eq_zero i).1, h.other.trans g.other⟩

theorem nearPush_rests (s : State) (i : NearItem) (far : Bool) : (memPort s far).Rests (memPort (nearPush s i) far) := by
  cases far
  · exact ⟨rfl, rfl, List.prefix_append _ _⟩
  · exact .rfl_ _

@[simp] theorem memPort_updMem (s : State) (far : Bool) (f : MemPort → MemPort) : memPort (updMem s far f) far = f (memPort s far) := by
  cases far <;> rfl

@[simp] theorem memPort_updMem_not (s : State) (far : Bool) (f : MemPort → MemPort) : memPort (updMem s far f) (!far) = memPort s !far := by
  cases far <;> rfl

theorem updMem_sameItems (s : State) (far : Bool) (f : MemPort → MemPort) : SameItems s (updMem s far f) := by
  cases far <;> exact ⟨.of_parts rfl, rfl, rfl⟩

theorem pushHead_eq_self_or_nearPush (s : State) (far : Bool) (i : NearItem) : pushHead s far i = s ∨ ∃ j, pushHead s far i = nearPush s j := by
  unfold pushHead
  split
  · exact .inl rfl
  · exact .inr ⟨_, rfl⟩

theorem itemDone_rests (s : State) (far : Bool) (i : NearItem) (far' : Bool) : (memPort s far').Rests (memPort (itemDone s far i) far') := by
  have use : (memPort s far').Rests (memPort (subUse s (itemPart s i) (itemLines i)) far') := .rfl_ _
  rcases pushHead_eq_self_or_nearPush (subUse s (itemPart s i) (itemLines i)) far i with h | ⟨j, h⟩
  · rw [itemDone, h]; exact use
  · rw [itemDone, h]; exact use.trans (nearPush_rests _ j far')

theorem itemDone_sameItems (s : State) (far : Bool) (i : NearItem) : SameItems s (itemDone s far i) := by
  have use : SameItems s (subUse s (itemPart s i) (itemLines i)) := ⟨subUse_usesLines s _ _, rfl, rfl⟩
  rcases pushHead_eq_self_or_nearPush (subUse s (itemPart s i) (itemLines i)) far i with h | ⟨j, h⟩
  · rw [itemDone, h]; exact use
  · rw [itemDone, h]; exact use.trans ⟨.of_parts rfl, rfl, rfl⟩

/-- A port with an item in hand sends a request of it. -/
theorem issueReq_issuing {s : State} {far : Bool} {c : Issue} (hcur : (memPort s far).cur = some c) (t : Byte) :
    Issuing far s (issueReq s far c t) where
  items := by
    rw [issueReq]
    exact updMem_sameItems s far _
  own := by
    rw [issueReq, memPort_updMem]
    refine ⟨fun r hr => List.mem_append_left _ hr, fun i hi => .inl hi, fun x hx => .inr ?_⟩
    obtain rfl := Option.some.inj (hcur.symm.trans hx)
    exact ⟨_, List.mem_append_right _ (List.mem_singleton_self _), rfl, rfl⟩
  other := by
    rw [issueReq, memPort_updMem_not]
    exact .rfl_ _

/-- A port with no item in hand takes up the next, which is over at once where it has nothing to write. -/
theorem beginItem_issuing {s : State} {far : Bool} (hcur : (memPort s far).cur = none) (i : NearItem) : Issuing far s (beginItem s far i) := by
  generalize hn : itemTotal s i = n
  let c : Issue := ⟨i, (memPort s far).nextIssue, itemOffset s far i / 64, 0, n⟩
  let f : MemPort → MemPort := fun m => { m with
    waiting := m.waiting.erase i, nextIssue := m.nextIssue + 1, cur := if n = 0 then none else some c }
  have waits (j : NearItem) (hj : j ∈ (memPort s far).waiting) : j ∈ (f (memPort s far)).waiting ∨ j = i := by
    by_cases hji : j = i
    · exact .inr hji
    · exact .inl ((List.mem_erase_of_ne hji).2 hj)
  have taken : Issuing far s (updMem s far f) := by
    refine ⟨updMem_sameItems s far f, ?_, ?_⟩
    · rw [memPort_updMem]
      refine ⟨fun r hr => hr, fun j hj => (waits j hj).imp_right ?_, fun x hx => nomatch hcur.symm.trans hx⟩
      rintro rfl
      by_cases h0 : n = 0
      · exact .inr (hn.trans h0)
      · exact .inl (.of_cur (c := c) (if_neg h0))
    · rw [memPort_updMem_not]
      exact .rfl_ _
  have drawn (k : Nat) : Issuing far s { updMem s far f with rng := (updMem s far f).rng + k } :=
    ⟨taken.items.trans ⟨.of_parts rfl, rfl, rfl⟩, taken.own, taken.other⟩
  have done {u : State} (h : Issuing far s u) : Issuing far s (itemDone u far i) :=
    ⟨h.items.trans (itemDone_sameItems u far i), h.own.trans (itemDone_rests u far i far).issues (zero' := fun _ => False) (fun _ => False.elim),
      h.other.trans (itemDone_rests u far i _)⟩
  obtain ⟨u, hbegun, hu⟩ : ∃ u, beginItem s far i = (if n = 0 then itemDone u far i else u) ∧ Issuing far s u := by
    subst hn
    cases i
    case evidence => exact ⟨_, rfl, drawn 2⟩
    case witness => exact ⟨_, rfl, drawn 2⟩
    all_goals exact ⟨_, rfl, taken⟩
  rw [hbegun]
  split
  · exact done hu
  · exact hu

theorem issueOne_issuing (far : Bool) (s : State) : Issuing far s (issueOne far s) := by
  unfold issueOne
  dsimp only
  split
  case h_1 c _ hcur =>
    split
    · exact issueReq_issuing hcur _
    · exact .rfl_ far s
  case h_2 i hcur _ => exact beginItem_issuing hcur i
  case h_3 => exact .rfl_ far s

theorem issueAll_issuing (far : Bool) (n : Nat) (s : State) : Issuing far s (issueAll far n s) := by
  induction n generalizing s with
  | zero => exact .rfl_ far s
  | succ n ih =>
    unfold issueAll
    split
    · exact .rfl_ far s
    · exact (issueOne_issuing far s).trans (ih _)

theorem portIssue_issuing (far : Bool) (s : State) : Issuing far s (portIssue s far) := by
  unfold portIssue
  split
  · exact .rfl_ far s
  · exact issueAll_issuing far _ s

theorem portIssue_of_stopped {s : State} {far : Bool} (h : portClock s far = false ∨ s.boot.step ≤ 3) : portIssue s far = s := by
  unfold portIssue
  rw [if_pos]
  rcases h with h | h
  · exact .inl (by rw [h]; rfl)
  · exact .inr (.inl h)

theorem portIssue_same (s : State) (far : Bool) : Same [.parts, .near, .far, .rng] s (portIssue s far) :=
  (portIssue_keeps far (Keeps.rfl_ _ s) (List.Subset.refl _)).same

theorem portClock_of_same {m : List Fld} {s t : State} (h : Same m s t) (hm : .keep ∉ m) (far : Bool) : portClock t far = portClock s far := by
  have lost : t.keep.lostNow = s.keep.lostNow := congrArg (fun x => x.2.1) (h .keep hm)
  rw [portClock, portClock, lost]

/-! ### An idle step -/

theorem countTick_same (s : State) : Same [.tick] s (countTick s) := (countTick_keeps (Keeps.rfl_ _ s) (List.Subset.refl _)).same

theorem countTick_time (s : State) :
    (countTick s).time = if s.time.run = true then { s.time with tick := s.time.tick + 1 } else s.time := by
  unfold countTick
  split <;> rfl

theorem idle_time (s : State) : (idle s).time = (countTick s).time :=
  ((portIssue_same _ true).time_eq).trans (portIssue_same _ false).time_eq

theorem countTick_sameItems (s : State) : SameItems s (countTick s) :=
  ⟨.of_parts ((countTick_same s) .parts (by decide)), (countTick_same s).image_eq, (countTick_same s) .hang (by decide)⟩

theorem idle_sameItems (s : State) : SameItems s (idle s) :=
  ((countTick_sameItems s).trans (portIssue_issuing false _).items).trans (portIssue_issuing true _).items

theorem memPort_countTick (s : State) (far : Bool) : memPort (countTick s) far = memPort s far := by
  unfold countTick
  split <;> rfl

theorem Issuing.issues {far : Bool} {s t : State} (h : Issuing far s t) (far' : Bool) :
    (memPort s far').Issues (itemTotal s · = 0) (memPort t far') := by
  rcases Bool.eq_or_eq_not far' far with rfl | rfl
  · exact h.own
  · exact h.other.issues

theorem idle_issues (s : State) (far : Bool) : (memPort s far).Issues (itemTotal s · = 0) (memPort (idle s) far) := by
  have near := portIssue_issuing false (countTick s)
  have both := (near.issues far).trans ((portIssue_issuing true _).issues far) fun i => (near.items.itemTotal_eq_zero i).1
  rw [memPort_countTick] at both
  exact ⟨both.out, fun i hi => (both.waiting i hi).imp_right (Or.imp_right ((countTick_sameItems s).itemTotal_eq_zero i).1), both.cur⟩

theorem idle_rests {s : State} {far : Bool} (h : portClock s far = false ∨ s.boot.step ≤ 3) :
    (memPort s far).Rests (memPort (idle s) far) := by
  have stopped {t : State} (same : Same [.tick, .parts, .near, .far, .rng] s t) : portIssue t far = t :=
    portIssue_of_stopped (by rwa [portClock_of_same same (by decide), same .boot (by decide)])
  have ticked : Same [.tick, .parts, .near, .far, .rng] s (countTick s) := (countTick_keeps (Keeps.rfl_ _ s) (by decide)).same
  have issued : Same [.tick, .parts, .near, .far, .rng] s (portIssue (countTick s) false) :=
    (portIssue_keeps false (countTick_keeps (Keeps.rfl_ _ s) (by decide)) (by decide)).same
  rw [← memPort_countTick s far, idle]
  cases far with
  | false =>
    rw [stopped ticked]
    exact (portIssue_issuing true _).other
  | true =>
    rw [stopped issued]
    exact (portIssue_issuing false _).other

/-- Settles O2: an idle step counts the tick, and each port issues while the other rests. -/
theorem idleStep : Obligations.IdleStep := by
  unfold Obligations.IdleStep
  intro s hq
  have frame : Same [.tick, .near, .far, .parts, .rng] s (idle s) := (idle_keeps (Keeps.rfl_ _ s) (by decide)).same
  refine ⟨idle s, step_eq_idle hq, (idle_time s).trans (countTick_time s), frame.frame, (idle_sameItems s).parts, fun far => ?_⟩
  obtain ⟨out, waiting, cur⟩ := idle_issues s far
  refine ⟨out, waiting, cur, fun hstopped => ?_⟩
  obtain ⟨out, cur, waiting⟩ := idle_rests hstopped
  exact ⟨out, cur, waiting⟩

end Sys2Proof.Machine
end

section
/-! Cold resets and the release of COLD_RESET_N (R278, R396, R397, R415, R455). -/

set_option Elab.async false

namespace Sys2Proof.Machine

/-! ### Cold resets (R278, R396, R397, R455) -/

theorem getD_map_of_lt {α β : Type} (l : List α) (f : α → β) {i : Nat} (h : i < l.length) (d : β) (e : α) :
    (l.map f).getD i d = f (l.getD i e) := by
  simp only [List.getD_eq_getElem?_getD, List.getElem?_map, List.getElem?_eq_getElem h, Option.map_some, Option.getD_some]

/-- R278: while power holds, a partition keeps what the near window holds of it. -/
theorem getPart_coldReset (s : State) (good power : Bool) {p : Nat} (h : p < s.parts.length) :
    getPart (coldReset s good power) p = { Part.reset with
      oasisMem := if power = true then (getPart s p).oasisMem else [], logs := if power = true then (getPart s p).logs else Part.reset.logs } := by
  cases power with
  | true => exact getD_map_of_lt s.parts _ h _ _
  | false =>
    have reset : (List.replicate 16 Part.reset).getD p Part.reset = Part.reset := by
      rw [List.getD_eq_getElem?_getD, List.getElem?_replicate]
      split <;> rfl
    exact reset

theorem driveLevel_same (s : State) : Same [.thermal] s (driveLevel s) := (driveLevel_keeps (Keeps.rfl_ _ s) (List.Subset.refl _)).same

/-- R392, R424: a failed bring-up drives the deepest throttle. -/
theorem driveLevel_of_failed {s : State} (h : s.boot.step = 7) : (driveLevel s).thermal.level = 3 := by
  simp only [driveLevel, h, beq_self_eq_true, Bool.or_true, Bool.true_or, if_true]

/-- R424: a bring-up that had not failed fails with its cause, FAULT_N asserted, the Belfry stopped, the throttle at its deepest. -/
theorem bringFail_effect {s : State} (cause : Nat) (h : s.boot.step ≠ 7) :
    (bringFail s cause).boot = { s.boot with step := 7, fail := cause } ∧ (bringFail s cause).keep.fault = true ∧
      (bringFail s cause).belfry.run = false ∧ (bringFail s cause).thermal.level = 3 := by
  rw [bringFail, if_neg h]
  have same := driveLevel_same { s with
      boot := { s.boot with step := 7, fail := cause }
      keep := { s.keep with fault := true }
      belfry := { s.belfry with run := false }
      domes := s.domes.map fun d => { d with released := false }
      tiles := s.tiles.map fun t => { t with resetDone := false }
      spires := s.spires.map fun p => { p with lv := { p.lv with rstReq := true, rstAck := false, ready := false } } }
  exact ⟨same .boot (by decide), congrArg Prod.snd (same .fault (by decide)), same .belfryRun (by decide), driveLevel_of_failed rfl⟩

/-- R415: step 1 of bring-up begins at the release of COLD_RESET_N. -/
def afterRelease (s : State) : State :=
  stepBegins { s with pads := jtagPads { s.pads with coldReset := false, pwrGood := true }, boot := { s.boot with started := true } } 1

theorem exec_coldResetNRelease {s : State} (hcold : s.pads.coldReset = true) :
    exec .coldResetNRelease s =
      .next (if s.pads.thermtrip = true then bringFail (afterRelease s) bfTriplatch else afterRelease s) :=
  congrArg Host.Outcome.next (if_neg (by rw [hcold]; exact Bool.false_ne_true))

/-- Settles O51: each cold reset leaves the reset state with what outlasts it; the release begins step 1, or fails at the latch. -/
theorem coldResets_hold : Obligations.ColdResets := by
  unfold Obligations.ColdResets
  refine ⟨fun s c good power hc => ?resets, fun s hcold hlatch => ?released, fun s hcold hlatch => ?latched, fun s hcold => ?none⟩
  case resets =>
    have hexec : exec c s = .next (coldReset s good power) := by
      simp only [List.mem_cons, Prod.mk.injEq, List.not_mem_nil, or_false] at hc
      rcases hc with ⟨rfl, rfl, rfl⟩ | ⟨rfl, rfl, rfl⟩ | ⟨rfl, rfl, rfl⟩ <;> rfl
    refine ⟨_, hexec, rfl, rfl, rfl, rfl, rfl, ?_, rfl, rfl, rfl, rfl, rfl, rfl, rfl, rfl, rfl, ?_, rfl, fun p hp => getPart_coldReset s good power hp, rfl⟩
    · exact congrArg (· && _) (Bool.true_and good)
    · cases hcopy : newerCopy magicRepair s.nvm.repA s.nvm.repB with
      | none => simp only [coldReset, nvmTaken, hcopy, Option.map_none, Option.getD_none, and_self]
      | some b => simp only [coldReset, nvmTaken, hcopy, Option.map_some, Option.getD_some, and_self]
  case released =>
    rw [exec_coldResetNRelease hcold, if_neg (by rw [hlatch]; exact Bool.false_ne_true)]
    exact ⟨_, rfl, rfl, rfl, rfl, rfl, rfl, rfl⟩
  case latched =>
    rw [exec_coldResetNRelease hcold, if_pos hlatch]
    have hstep : (afterRelease s).boot.step ≠ 7 := show 1 ≠ 7 by decide
    obtain ⟨hboot, hfault, hrun, hlevel⟩ := bringFail_effect bfTriplatch hstep
    have same := (bringFail_keeps bfTriplatch (Keeps.rfl_ _ (afterRelease s)) (List.Subset.refl _)).same
    exact ⟨_, rfl, congrArg Boot.step hboot, congrArg Boot.fail hboot, hfault, hlevel, hrun, same.bytes_eq.1⟩
  case none =>
    exact congrArg Host.Outcome.next (if_pos (by rw [hcold]; rfl))

end Sys2Proof.Machine
end

section
/-! Host clocks, TIMEREF and PPS (R38, R319 to R323). -/

set_option Elab.async false

namespace Sys2Proof.Machine

/-! ### Host clocks, TIMEREF and PPS (R38, R319 to R323) -/

theorem addRec_same (s : State) (r : Rec) : Same [.alert, .cistern, .parts, .records, .early, .near] s (addRec s r) :=
  (addRec_keeps r (Keeps.rfl_ _ s) (List.Subset.refl _)).same

theorem alert_getLsbD (s : State) {b : Nat} (hb : b < 12) : (alert s b).keep.alert.getLsbD b = true := by
  rw [alert, BitVec.getLsbD_or, BitVec.getLsbD_ofNat, Nat.testBit_two_pow_self, decide_eq_true hb, Bool.and_self, Bool.or_true]

theorem Same.lostNow_eq {m : List Fld} {s t : State} (h : Same m s t) (hm : .keep ∉ m := by decide) :
    t.keep.lostNow = s.keep.lostNow ∧ t.keep.clkloss = s.keep.clkloss :=
  ⟨congrArg (fun x => x.2.1) (h .keep hm), congrArg (fun x => x.1) (h .keep hm)⟩

/-- R248: the loss of NCLK reaches every open window. -/
theorem clkEffect_nclk_window {s : State} {p : Nat} {w : Window} (h : (getPart (clkEffect s .nclk) p).window = some w) : w.nclkLost = true := by
  by_cases hp : p < s.parts.length
  · have part : getPart (clkEffect s .nclk) p =
        { getPart s p with window := (getPart s p).window.map fun w => { w with nclkLost := true } } := getD_map_of_lt s.parts _ hp _ _
    rw [part] at h
    obtain ⟨x, -, rfl⟩ := Option.map_eq_some_iff.1 h
    rfl
  · have part : getPart (clkEffect s .nclk) p = Part.reset :=
      List.getD_eq_default _ _ (by rw [show (clkEffect s .nclk).parts.length = s.parts.length from List.length_map _]; omega)
    rw [part] at h
    cases h

/-- R38: the bookkeeping of a lost clock. -/
def clockLost (s : State) (c : HostClk) : State :=
  { s with keep := { s.keep with lostNow := s.keep.lostNow ++ [c], clkloss := s.keep.clkloss ||| BitVec.ofNat 5 (2 ^ clkBit c) } }

theorem exec_clockLoss {s : State} {c : HostClk} (h : c ∉ s.keep.lostNow) :
    ∃ r, exec (.clockLoss c) s = .next (clkEffect (addRec (clockLost s c) r) c) :=
  ⟨_, congrArg Host.Outcome.next (if_neg (by simpa using h))⟩

theorem exec_clockLoss_of_lost {s : State} {c : HostClk} (h : c ∈ s.keep.lostNow) : exec (.clockLoss c) s = .next s :=
  congrArg Host.Outcome.next (if_pos (by simpa using h))

theorem clockLoss_effect (s : State) (c : HostClk) (r : Rec) : Same [.alert, .cistern, .parts, .spires, .records, .early, .near] (clockLost s c)
    (clkEffect (addRec (clockLost s c) r) c) :=
  (clkEffect_keeps c (addRec_keeps r (Keeps.rfl_ _ _) (by decide)) (by decide)).same

theorem exec_timerefLoss {s : State} (h : s.time.trefOk = true) : ∃ r, exec .timerefLoss s = .next
    (alert (addRec { s with time := { s.time with trefOk := false, holdover := true, trefLost := true, tsync := 0, maxDev := 0 } } r) alTime) :=
  ⟨_, congrArg Host.Outcome.next (if_neg (by rw [h]; exact Bool.false_ne_true))⟩

theorem measurePort_reference (s : State) (q : Nat) :
    (measurePort s q).time.trefOk = s.time.trefOk ∧ (measurePort s q).time.holdover = s.time.holdover := by
  have asks (u : State) : (askTime u q).time = u.time := by
    unfold askTime
    split
    · exact (sendBan_keeps q 0x10 _ (Keeps.rfl_ [.ports, .big] u) (by decide)).same.time_eq
    · rfl
  rw [measurePort, asks]
  exact ⟨rfl, rfl⟩

/-- R331: TIMEREF is back; every port that is up is measured anew. -/
theorem measureUp_effect (l : List Nat) (s : State) :
    let t := l.foldl (fun s q => if (getPort s q).up then measurePort s q else s) s
    Same [.time, .ports, .big] s t ∧ t.time.trefOk = s.time.trefOk ∧ t.time.holdover = s.time.holdover := by
  induction l generalizing s with
  | nil => exact ⟨Same.rfl_ _ s, rfl, rfl⟩
  | cons q l ih =>
    have one (u : State) : Same [.time, .ports, .big] u (if (getPort u q).up then measurePort u q else u) ∧
        (if (getPort u q).up then measurePort u q else u).time.trefOk = u.time.trefOk ∧
        (if (getPort u q).up then measurePort u q else u).time.holdover = u.time.holdover := by
      split
      · exact ⟨(measurePort_keeps q (Keeps.rfl_ _ u) (List.Subset.refl _)).same, measurePort_reference u q⟩
      · exact ⟨Same.rfl_ _ u, rfl, rfl⟩
    obtain ⟨same, htref, hhold⟩ := ih (if (getPort s q).up then measurePort s q else s)
    obtain ⟨same1, htref1, hhold1⟩ := one s
    exact ⟨same1.trans same, htref.trans htref1, hhold.trans hhold1⟩

/-- R322: holdover ends. -/
def relocked (s : State) : State := { s with time := { s.time with trefOk := true, holdover := false } }

theorem timerefRelock_effect {s : State} (h : s.time.holdover = true) :
    ∃ t, exec .timerefRelock s = .next t ∧ t.time.trefOk = true ∧ t.time.holdover = false ∧
      Same [.alert, .cistern, .parts, .records, .early, .near, .time, .ports, .big] (relocked s) t := by
  obtain ⟨same, htref, hhold⟩ := measureUp_effect (List.range banPorts) (addRec (relocked s) (trefRec (relocked s) true))
  have recorded := addRec_same (relocked s) (trefRec (relocked s) true)
  refine ⟨_, congrArg Host.Outcome.next (if_neg (by rw [h]; exact Bool.false_ne_true)), ?_, ?_, ?_⟩
  · exact htref.trans (congrArg TimeSt.trefOk recorded.time_eq)
  · exact hhold.trans (congrArg TimeSt.holdover recorded.time_eq)
  · exact (recorded.mono (by decide)).trans (same.mono (by decide))

theorem exec_holdoverMeasure {s : State} (n : Int) (h : s.time.holdover = true) :
    exec (.holdoverMeasure n) s = .next { s with time := { s.time with maxDev := if s.time.maxDev.natAbs < n.natAbs then n else s.time.maxDev } } := by
  refine congrArg Host.Outcome.next ?_
  by_cases hn : s.time.maxDev.natAbs < n.natAbs
  · rw [if_pos ⟨h, hn⟩, if_pos hn]
  · rw [if_neg fun hx => hn hx.2, if_neg hn]

/-- R323: the time with a rising edge captured. -/
def edgeCaptured (s : State) : TimeSt :=
  let t1 := { s.time with ppsLast := s.time.tick, ppsSeen := true, ppsOk := true }
  let period := s.time.tick - s.time.ppsLast
  if s.time.ppsSeen then { t1 with ppsPeriod := period, ppsDrift := s.time.ppsDrift || ppsDrifts s period.toNat } else t1

theorem exec_ppsEdge {s : State} (hmode : ppsMode s ≠ 0) (hrun : s.time.run = true) (hwait : s.time.alignWait = false) :
    exec .ppsEdge s = .next { s with time := edgeCaptured s } := by
  simp only [exec, execPpsEdge, hmode, hwait, hrun, if_false, Bool.false_eq_true, Bool.not_true, edgeCaptured]

theorem step3Begins_step (s : State) : (step3Begins s).boot.step = 3 ∧ (step3Begins s).time = s.time ∧ (step3Begins s).cistern = s.cistern := by
  have same : Same [.spires] (stepBegins s 3) (step3Begins s) :=
    (keeps_foldl (fun _ _ hv => traceLevels_keeps _ (updSp_keeps _ _ hv (by decide)) (by decide)) (Keeps.rfl_ [.spires] (stepBegins s 3))).same
  exact ⟨(congrArg Boot.step (same .boot (by decide)) :), same.time_eq, same.cistern_eq⟩

/-- R319: a counter that waits for an edge starts; step 2 of bring-up ends where it waited for this alone. -/
theorem startTick_effect (s : State) :
    (startTick s).time = { s.time with run := true, alignWait := false } ∧ (startTick s).cistern = s.cistern ∧
      (s.boot.step = 2 → s.boot.clocks = true → (startTick s).boot.step = 3) ∧
      (s.boot.step ≠ 2 ∨ s.boot.clocks = false → (startTick s).spires = s.spires ∧ (startTick s).boot = s.boot) := by
  obtain ⟨hstep, htime, hcis⟩ := step3Begins_step { s with time := { s.time with run := true, alignWait := false } }
  unfold startTick
  split
  case isTrue h =>
    refine ⟨htime, hcis, fun _ _ => hstep, fun hor => ?_⟩
    rcases hor with h2 | hc
    · exact absurd h.1 h2
    · exact absurd h.2 (by rw [hc]; exact Bool.false_ne_true)
  case isFalse h => exact ⟨rfl, rfl, fun h2 hc => absurd ⟨h2, hc⟩ h, fun _ => ⟨rfl, rfl⟩⟩

/-- Settles O46: the bookkeeping of each clock and of the time reference, and what its record and notes leave. -/
theorem clocksAndTimeReference : Obligations.ClocksAndTimeReference := by
  unfold Obligations.ClocksAndTimeReference
  refine ⟨⟨fun s c hc => ?lost, fun s c hc => exec_clockLoss_of_lost hc, fun s c => ?returned⟩, fun s h => ?refLost, fun s h => ?relocked,
    fun s n h => exec_holdoverMeasure n h, fun s hmode hrun hwait => ?edge, fun s hmode hrun => ?ppsLost, fun s hwait => ?aligned,
    fun s hmode => ⟨congrArg Host.Outcome.next (if_pos hmode), congrArg Host.Outcome.next (if_pos (.inl hmode))⟩⟩
  case lost =>
    obtain ⟨r, hexec⟩ := exec_clockLoss hc
    have frame := clockLoss_effect s c r
    refine ⟨_, hexec, frame.lostNow_eq.1, frame.lostNow_eq.2, ?_, frame .tiles (by decide), frame.bytes_eq.1⟩
    rintro rfl p w - hw
    exact clkEffect_nclk_window hw
  case returned => exact ⟨_, rfl, fun d => by simp only [List.mem_filter, bne_iff_ne], rfl⟩
  case refLost =>
    obtain ⟨r, hexec⟩ := exec_timerefLoss h
    have frame := addRec_same { s with time := { s.time with trefOk := false, holdover := true, trefLost := true, tsync := 0, maxDev := 0 } } r
    have time := frame.time_eq
    exact ⟨_, hexec, (congrArg TimeSt.trefOk time :), (congrArg TimeSt.holdover time :), (congrArg TimeSt.trefLost time :),
      (congrArg TimeSt.tsync time :), alert_getLsbD _ (by decide), (congrArg TimeSt.tick time :), frame .spires (by decide), frame.bytes_eq.1⟩
  case relocked =>
    obtain ⟨t, hexec, htref, hhold, frame⟩ := timerefRelock_effect h
    exact ⟨t, hexec, htref, hhold, frame .tick (by decide), frame .spires (by decide), frame.bytes_eq.1⟩
  case edge =>
    refine ⟨_, exec_ppsEdge hmode hrun hwait, ?_⟩
    simp only [edgeCaptured]
    split
    case isTrue hseen => exact ⟨rfl, rfl, rfl, fun _ => rfl, trivial⟩
    case isFalse hseen => exact ⟨rfl, rfl, rfl, fun h => absurd h hseen, trivial⟩
  case ppsLost => exact congrArg Host.Outcome.next (if_neg (by simp [hmode, hrun]))
  case aligned =>
    obtain ⟨time, hcis, waited, other⟩ := startTick_effect s
    exact ⟨_, congrArg Host.Outcome.next (if_neg (by rw [hwait]; exact Bool.false_ne_true)), (congrArg TimeSt.run time :),
      (congrArg TimeSt.alignWait time :), rfl, (congrArg TimeSt.tick time :), (congrArg Cistern.data hcis :), waited, other⟩

end Sys2Proof.Machine
end

section
/-! What a register access does: admitted, performed, refused (R495 to R503, R516). -/

set_option Elab.async false

namespace Sys2Proof.Machine

/-! ### What an access does, once (R495 to R503, R516) -/

/-- R497: a request answered with `code` where its requester sees it. -/
def answerTo (who : Requester) (wr : Bool) (tag : BitVec 4) (data : W32) (code : Nat) (t : State) : State :=
  if pathOf who = 0 then { t with csr := ⟨tag, data, BitVec.ofNat 2 code⟩ }
  else { t with mgmt := { t.mgmt with wstat := if wr then BitVec.ofNat 2 code else t.mgmt.wstat } }

theorem answerTo_same (who : Requester) (wr : Bool) (tag : BitVec 4) (data : W32) (code : Nat) (t : State) :
    Same [.csr, .mgmt] t (answerTo who wr tag data code t) := by
  intro f hf
  cases who <;> cases f <;> first | rfl | exact absurd (by decide) hf

@[simp] theorem answerTo_keep (who : Requester) (wr : Bool) (tag : BitVec 4) (data : W32) (code : Nat) (t : State) :
    (answerTo who wr tag data code t).keep = t.keep := by cases who <;> rfl

theorem answeredOk_answerTo (who : Requester) (tag : BitVec 4) (data : W32) (t : State) : answeredOk (answerTo who true tag data 0 t) who tag data := by
  cases who <;> rfl

theorem request_eq {s : State} {who : Requester} (wr : Bool) (addr : Nat) (data : W32) (tag : BitVec 4) (ok : Bool) (h : pathServes s who = true) :
    request s who wr addr data tag ok =
      answerTo who wr tag (access s who wr addr data ok).data (access s who wr addr data ok).code (access s who wr addr data ok).st := by
  rw [request, if_neg (by rw [h]; exact Bool.false_ne_true)]
  rfl

/-- What an admitted access has passed. -/
structure Admitted (s : State) (who : Requester) (wr : Bool) (addr : Nat) : Prop where
  path : pathServes s who = true
  aligned : addr % 4 = 0
  phase : phaseServes s who wr (locOf s addr) = true
  tenant : ¬ (partOf who ≠ 0 ∧ lockSet s lkTenantOff = true)
  place : locOf s addr ≠ .nowhere
  right : mayAccess s who wr (locOf s addr) = true
  there : spireGone s (locOf s addr) = false

theorem admitted_iff {s : State} {who : Requester} {wr : Bool} {addr : Nat} : admitted s who wr addr = true ↔ Admitted s who wr addr := by
  simp only [admitted, Bool.and_eq_true, decide_eq_true_eq, Bool.not_eq_true', Bool.and_eq_false_iff, decide_eq_false_iff_not]
  constructor
  · rintro ⟨⟨⟨⟨⟨⟨path, aligned⟩, phase⟩, tenant⟩, place⟩, right⟩, there⟩
    refine ⟨path, aligned, phase, fun h => ?_, place, right, there⟩
    rcases tenant with hpart | hlock
    · exact hpart h.1
    · exact Bool.noConfusion (hlock.symm.trans h.2)
  · rintro ⟨path, aligned, phase, tenant, place, right, there⟩
    refine ⟨⟨⟨⟨⟨⟨path, aligned⟩, phase⟩, ?_⟩, place⟩, right⟩, there⟩
    by_cases hpart : partOf who ≠ 0
    · exact .inr (Bool.eq_false_iff.2 fun hlock => tenant ⟨hpart, hlock⟩)
    · exact .inl hpart

/-- The access that a requester's event names. -/
def accessInfo (s : State) (who : Requester) (wr : Bool) (addr : Nat) (data : W32) : AccessInfo :=
  ⟨partOf who, pathOf who, locSpire (locOf s addr), wr, addr, if wr then data else 0⟩

theorem access_admitted {s : State} {who : Requester} {wr : Bool} {addr : Nat} (h : Admitted s who wr addr) (data : W32) :
    access s who wr addr data true =
      if wr then
        if (writeLoc s who (accessInfo s who wr addr data) (locOf s addr) data).2 = rspOk then
          ⟨(writeLoc s who (accessInfo s who wr addr data) (locOf s addr) data).1, 0, rspOk⟩
        else refuseAccess (writeLoc s who (accessInfo s who wr addr data) (locOf s addr) data).1 (accessInfo s who wr addr data)
          (writeLoc s who (accessInfo s who wr addr data) (locOf s addr) data).2
      else ⟨s, readLoc s who (locOf s addr), rspOk⟩ := by
  have h1 : ¬ ((!true) = true ∨ addr % 4 ≠ 0) := by simp [h.aligned]
  have h2 : ¬ (!phaseServes s who wr (locOf s addr)) = true := by simp [h.phase]
  have h5 : ¬ (!mayAccess s who wr (locOf s addr)) = true := by simp [h.right]
  have h6 : ¬ spireGone s (locOf s addr) = true := by simp [h.there]
  exact (if_neg h1).trans ((if_neg h2).trans ((if_neg h.tenant).trans ((if_neg h.place).trans ((if_neg h5).trans (if_neg h6)))))

/-- An admitted write whose place takes it. -/
theorem request_write {s : State} {who : Requester} {addr : Nat} {data : W32} {t : State} (tag : BitVec 4) (h : admitted s who true addr = true)
    (hw : writeLoc s who (accessInfo s who true addr data) (locOf s addr) data = (t, rspOk)) :
    request s who true addr data tag true = answerTo who true tag 0 0 t := by
  rw [request_eq _ _ _ _ _ (admitted_iff.1 h).path, access_admitted (admitted_iff.1 h), if_pos rfl, hw, if_pos rfl]
  rfl

theorem request_read {s : State} {who : Requester} {addr : Nat} (data : W32) (tag : BitVec 4) (h : admitted s who false addr = true) :
    request s who false addr data tag true = answerTo who false tag (readLoc s who (locOf s addr)) 0 s := by
  rw [request_eq _ _ _ _ _ (admitted_iff.1 h).path, access_admitted (admitted_iff.1 h), if_neg Bool.false_ne_true]
  rfl

/-! ### Access events (R516) -/

theorem accEvent_same (s : State) (a : AccessInfo) (cause : Nat) :
    Same [.alert, .acc, .cistern, .parts, .records, .early, .near] s (accEvent s a cause) :=
  (accEvent_keeps a cause (Keeps.rfl_ _ s) (List.Subset.refl _)).same

theorem accWrite_counts (s : State) (a : AccessInfo) (cause : Nat) :
    (accWrite s a cause).keep.accstat = s.keep.accstat ∧ (accWrite s a cause).keep.accCnt = s.keep.accCnt := by
  unfold accWrite
  dsimp only
  split
  · exact ⟨rfl, rfl⟩
  · have acc := addRec_same (setAccLast s cause a.path s.time.tick 0) (accRecord s a cause (accHeld s cause a.path).1) .acc (by decide)
    exact ⟨(congrArg (fun x => x.1) acc :), (congrArg (fun x => x.2.1) acc :)⟩

theorem accEvent_accstat (s : State) (a : AccessInfo) (cause : Nat) :
    (accEvent s a cause).keep.accstat = s.keep.accstat ||| BitVec.ofNat 7 (2 ^ (cause - 1)) := (accWrite_counts _ a cause).1

theorem accEvent_accCnt (s : State) (a : AccessInfo) (cause : Nat) :
    (accEvent s a cause).keep.accCnt = updAt s.keep.accCnt (cause - 1) (satAdd · 1) := (accWrite_counts _ a cause).2

theorem or_two_pow_getLsbD {w : Nat} (x : BitVec w) {k : Nat} (hk : k < w) : (x ||| BitVec.ofNat w (2 ^ k)).getLsbD k = true := by
  rw [BitVec.getLsbD_or, BitVec.getLsbD_ofNat, Nat.testBit_two_pow_self, decide_eq_true hk, Bool.and_self, Bool.or_true]

theorem accEvent_getLsbD (s : State) (a : AccessInfo) {cause : Nat} (hc : cause - 1 < 7) :
    (accEvent s a cause).keep.accstat.getLsbD (cause - 1) = true := by
  rw [accEvent_accstat]
  exact or_two_pow_getLsbD _ hc

/-- The cause of the event that a refusal's code is. -/
def refusalCause (code : Nat) : Nat := if code = rspDenied then acDenied else if code = rspMalformed then acMalformed else acNotavail

theorem refuseAccess_eq (s : State) (a : AccessInfo) (code : Nat) : refuseAccess s a code = ⟨accEvent s a (refusalCause code), 0, code⟩ := rfl

/-- The checks of an access in their order: the code of the first that fails. -/
def refusalCode (s : State) (who : Requester) (wr : Bool) (addr : Nat) (ok : Bool) : Option Nat :=
  if !ok ∨ addr % 4 ≠ 0 then some rspMalformed
  else if !phaseServes s who wr (locOf s addr) then some rspNotavail
  else if partOf who ≠ 0 ∧ lockSet s lkTenantOff then some rspDenied
  else if locOf s addr = .nowhere then some rspNotavail
  else if !mayAccess s who wr (locOf s addr) then some rspDenied
  else if spireGone s (locOf s addr) then some rspNotavail
  else none

theorem access_refused {s : State} {who : Requester} {wr : Bool} {addr : Nat} {ok : Bool} {code : Nat} (data : W32)
    (h : refusalCode s who wr addr ok = some code) :
    ∃ a, access s who wr addr data ok = ⟨accEvent s a (refusalCause code), 0, code⟩ := by
  unfold refusalCode at h
  split_ifs at h with h1 h2 h3 h4 h5 h6 <;> cases h
  · exact ⟨_, if_pos h1⟩
  · exact ⟨_, (if_neg h1).trans (if_pos h2)⟩
  · exact ⟨_, (if_neg h1).trans ((if_neg h2).trans (if_pos h3))⟩
  · exact ⟨_, (if_neg h1).trans ((if_neg h2).trans ((if_neg h3).trans (if_pos h4)))⟩
  · exact ⟨_, (if_neg h1).trans ((if_neg h2).trans ((if_neg h3).trans ((if_neg h4).trans (if_pos h5))))⟩
  · exact ⟨_, (if_neg h1).trans ((if_neg h2).trans ((if_neg h3).trans ((if_neg h4).trans ((if_neg h5).trans (if_pos h6)))))⟩

/-- Settles O34: an admitted access is performed at its place; one that a check refuses raises that check's event. -/
theorem registerAccess : Obligations.RegisterAccess := by
  unfold Obligations.RegisterAccess
  refine ⟨fun s r p hwho hok hadm => ?read, fun s r p hwho hok hadm => ?write, fun s r p o hwho hok hadm hloc => ?caravan,
    fun s r p c code hwho hpath hc => ?refused⟩
  case read =>
    have hexec : exec (.csrRead r) s = .next (request s r.who false r.addr.toNat r.wdata r.tag r.parityOk) := rfl
    rw [hexec, hok, request_read _ _ hadm, hwho]
    rfl
  case write =>
    intro l w hw
    have hexec : exec (.registerWrite r) s = .next (request s r.who true r.addr.toNat r.wdata r.tag r.parityOk) := rfl
    have info : accessInfo s r.who true r.addr.toNat r.wdata = ⟨p, 0, locSpire l, true, r.addr.toNat, r.wdata⟩ := by rw [hwho]; rfl
    have place : writeLoc s r.who (accessInfo s r.who true r.addr.toNat r.wdata) l r.wdata = (w.1, rspOk) := by rw [info, ← hw]
    rw [hexec, hok, request_write _ hadm place, hwho]
    rfl
  case caravan =>
    have hexec : exec (.registerWrite r) s = .next (request s r.who true r.addr.toNat r.wdata r.tag r.parityOk) := rfl
    have place : writeLoc s r.who (accessInfo s r.who true r.addr.toNat r.wdata) (locOf s r.addr.toNat) r.wdata = (cvnWrite s o r.wdata, rspOk) := by
      rw [hloc]; rfl
    rw [hexec, hok, request_write _ hadm place, hwho]
    rfl
  case refused =>
    intro wr l hcode
    have hexec : exec c s = .next (request s r.who wr r.addr.toNat r.wdata r.tag r.parityOk) := by
      rcases hc with rfl | rfl
      · exact congrArg (fun w => Host.Outcome.next (request s r.who w _ _ _ _)) (decide_eq_false (by simp)).symm
      · exact congrArg (fun w => Host.Outcome.next (request s r.who w _ _ _ _)) (decide_eq_true rfl).symm
    have check : refusalCode s r.who wr r.addr.toNat r.parityOk = some code.toNat := by
      unfold refusalCode
      rcases hcode with ⟨rfl, h⟩ | ⟨rfl, hpar, hal, hphase⟩ | ⟨rfl, hpar, hal, hphase, hplace, hright⟩
      · rw [if_pos (by simpa using h)]; rfl
      · rw [if_neg (by simp [hpar, hal]), if_pos (by simp [hphase, l])]; rfl
      · rw [if_neg (by simp [hpar, hal]), if_neg (by simp [hphase, l])]
        by_cases htenant : partOf r.who ≠ 0 ∧ lockSet s lkTenantOff = true
        · rw [if_pos htenant]; rfl
        · rw [if_neg htenant, if_neg hplace, if_pos (by simp only [l] at hright; rw [hright]; rfl)]; rfl
    obtain ⟨a, haccess⟩ := access_refused r.wdata check
    have cause : refusalCause code.toNat - 1 = (if code = 1 then 3 else if code = 2 then 4 else 5) := by
      rcases hcode with ⟨rfl, h⟩ | ⟨rfl, h⟩ | ⟨rfl, h⟩ <;> rfl
    have frame : Same [.alert, .acc, .cistern, .parts, .records, .early, .near, .csr, .mgmt] s
        (answerTo r.who wr r.tag 0 code.toNat (accEvent s a (refusalCause code.toNat))) :=
      ((accEvent_same s a _).mono (by decide)).trans ((answerTo_same _ _ _ _ _ _).mono (by decide))
    have units : _ = _ := frame .units (by decide)
    have locks : _ = _ := frame .locks (by decide)
    have cause7 : refusalCause code.toNat - 1 < 7 := by rw [cause]; split_ifs <;> decide
    refine ⟨_, by rw [hexec, request_eq _ _ _ _ _ hpath, haccess], ?_, ?_, ?_, (congrArg (fun x => x.1) units :), (congrArg (fun x => x.1) locks :),
      (congrArg (fun x => x.2.2.1) locks :), frame .mbx (by decide), frame .cmd (by decide), frame .tallies (by decide), frame .mtr (by decide),
      frame .erg (by decide), frame .thermal (by decide), frame .trc (by decide), frame .ports (by decide), frame .caravan (by decide),
      frame .spires (by decide), frame.bytes_eq.1⟩
    · rw [hwho]
      exact congrArg (CsrRsp.mk r.tag 0) (BitVec.ofNat_toNat _ _)
    · rw [answerTo_keep, ← cause]
      exact accEvent_getLsbD s a cause7
    · rw [answerTo_keep, ← cause]
      exact accEvent_accCnt s a _

end Sys2Proof.Machine
end

section
/-! The marks of an access event (R516), the locks (R513), unit enables (R512) and aliases (R504). -/

set_option Elab.async false

namespace Sys2Proof.Machine

/-! ### The marks of an access event (R516): its bit, its count and its record -/

/-- The state `s` with the marks of an event, and the answer to its access, taken from `t`. -/
def marked (s t : State) : State :=
  { s with
    keep := { s.keep with accstat := t.keep.accstat, accCnt := t.keep.accCnt, accLast := t.keep.accLast, alert := t.keep.alert }
    records := t.records, early := t.early, near := t.near, parts := t.parts
    cistern := { s.cistern with recDrop := t.cistern.recDrop }, csr := t.csr, mgmt := t.mgmt }

/-- `t` differs from `s` by the marks of events and by an answer alone. -/
structure Marks (s t : State) : Prop where
  frame : t = marked s t
  parts : ∀ p, getPart t p = { getPart s p with cnt := (getPart t p).cnt }
  alert : t.keep.alert = t.keep.alert ||| s.keep.alert

theorem Marks.trans {s t u : State} (h : Marks s t) (g : Marks t u) : Marks s u where
  frame := by
    have : marked (marked s t) u = marked s u := rfl
    rw [← h.frame] at this
    exact g.frame.trans this
  parts p := by rw [g.parts p, h.parts p]
  alert := by rw [g.alert, h.alert, BitVec.or_assoc, BitVec.or_assoc, BitVec.or_self]

theorem marks_of_parts {s t : State} (frame : t = marked s t) (parts : t.parts = s.parts) (alert : t.keep.alert = s.keep.alert) : Marks s t where
  frame := frame
  parts p := by
    have : getPart t p = getPart s p := by rw [getPart, getPart, parts]
    rw [this]
  alert := by rw [alert, BitVec.or_self]

theorem updCnt_parts (s : State) (p : Nat) (f : PartCnt → PartCnt) (q : Nat) :
    getPart (updCnt s p f) q = { getPart s q with cnt := (getPart (updCnt s p f) q).cnt } := by
  by_cases hq : q = p
  · subst hq
    by_cases hlen : q < s.parts.length
    · rw [updCnt, getPart_updPart s q _ hlen]
    · rw [updCnt, updPart_of_length_le s _ (Nat.le_of_not_lt hlen)]
  · rw [updCnt, getPart_updPart_ne s _ hq]

theorem updCnt_marks (s : State) (p : Nat) (f : PartCnt → PartCnt) : Marks s (updCnt s p f) :=
  ⟨rfl, updCnt_parts s p f, BitVec.or_self.symm⟩

theorem addRec_marks (s : State) (r : Rec) : Marks s (addRec s r) := by
  have use (u : State) (p n : Nat) (l : List Rec) (i : NearItem) : Marks u (nearPush { addUse u p n with records := l } i) :=
    Marks.trans (t := addUse u p n) (updCnt_marks u p _) (marks_of_parts rfl rfl rfl)
  unfold addRec
  split
  case isTrue early => exact marks_of_parts rfl rfl rfl
  case isFalse late =>
    split
    case isTrue own => exact use s _ _ _ _
    case isFalse refused =>
      dsimp only
      have quota : Marks s (refuseQuota s r.part) := updCnt_marks s _ _
      split
      case isTrue reserve => exact quota.trans (use _ 0 _ _ _)
      case isFalse dropped =>
        refine quota.trans ⟨rfl, fun p => rfl, ?_⟩
        change _ ||| _ = (_ ||| _) ||| _
        rw [BitVec.or_assoc, BitVec.or_comm (BitVec.ofNat 12 _), ← BitVec.or_assoc, BitVec.or_self]

theorem accEvent_marks (s : State) (a : AccessInfo) (cause : Nat) : Marks s (accEvent s a cause) := by
  have event : Marks s { s with keep := { s.keep with
      accstat := s.keep.accstat ||| BitVec.ofNat 7 (2 ^ (cause - 1))
      accCnt := updAt s.keep.accCnt (cause - 1) (satAdd · 1) } } := marks_of_parts rfl rfl rfl
  have last (u : State) (t : W64) (n : Nat) : Marks u (setAccLast u cause a.path t n) := marks_of_parts rfl rfl rfl
  have written (u : State) : Marks u (accWrite u a cause) := by
    unfold accWrite
    dsimp only
    split
    · exact last _ _ _
    · exact (last _ _ _).trans (addRec_marks _ _)
  exact event.trans (written _)

theorem answerTo_marks (who : Requester) (wr : Bool) (tag : BitVec 4) (data : W32) (code : Nat) (t : State) :
    Marks t (answerTo who wr tag data code t) := by
  cases who <;> exact marks_of_parts rfl rfl rfl

/-! ### One bit of a register (R513, R504) -/

theorem fld_one {w : Nat} (x : BitVec w) (u : Nat) : fld x u 1 = (x.getLsbD u).toNat := by
  rw [fld, BitVec.getLsbD, Nat.testBit, Nat.one_and_eq_mod_two, pow_one]
  rcases Nat.mod_two_eq_zero_or_one (x.toNat >>> u) with h | h <;> rw [h] <;> rfl

/-- A field of one bit cleared. -/
theorem setFld_bit_zero {w : Nat} (x : BitVec w) {u : Nat} (hu : u < w) : setFld x u 1 0 = x &&& ~~~ BitVec.twoPow w u := by
  have apart : (x &&& ~~~ BitVec.twoPow w u) &&& (x &&& BitVec.twoPow w u) = 0#w := by
    apply BitVec.eq_of_getLsbD_eq
    intro i hi
    simp only [BitVec.getLsbD_and, BitVec.getLsbD_not, BitVec.getLsbD_zero, hi, decide_true, Bool.true_and]
    cases x.getLsbD i <;> cases (BitVec.twoPow w u).getLsbD i <;> rfl
  have whole : x = (x &&& ~~~ BitVec.twoPow w u) + (x &&& BitVec.twoPow w u) := by
    rw [BitVec.add_eq_or_of_and_eq_zero _ _ apart]
    apply BitVec.eq_of_getLsbD_eq
    intro i hi
    simp only [BitVec.getLsbD_or, BitVec.getLsbD_and, BitVec.getLsbD_not, hi, decide_true, Bool.true_and]
    cases x.getLsbD i <;> cases (BitVec.twoPow w u).getLsbD i <;> rfl
  have sum : x.toNat = (x &&& ~~~ BitVec.twoPow w u).toNat + (x &&& BitVec.twoPow w u).toNat := by
    rw [← BitVec.toNat_add_of_and_eq_zero apart, ← whole]
  have bit : (x &&& BitVec.twoPow w u).toNat = (x.getLsbD u).toNat * 2 ^ u := by
    rw [BitVec.and_twoPow]
    cases x.getLsbD u
    · simp
    · simp [BitVec.toNat_twoPow, Nat.mod_eq_of_lt (Nat.pow_lt_pow_right Nat.one_lt_two hu)]
  rw [setFld, fld_one, Nat.zero_mod, Nat.zero_mul, Nat.add_zero, sum, bit, Nat.add_sub_cancel]
  exact BitVec.ofNat_toNat _ _ |>.trans (BitVec.setWidth_eq _)

theorem setFld_bit_zero_getLsbD {w : Nat} (x : BitVec w) {u : Nat} (hu : u < w) {b : Nat} (hb : b < w) :
    (setFld x u 1 0).getLsbD b = (x.getLsbD b && !decide (b = u)) := by
  rw [setFld_bit_zero x hu, BitVec.getLsbD_and, BitVec.getLsbD_not, BitVec.getLsbD_twoPow]
  simp [hu, hb, eq_comm]

/-! ### The locks, KEEP_HOSTTAG and KEEP_UNIT_EN (R512, R513), and the aliases (R504) -/

theorem lockWrite_effect (s : State) (a : AccessInfo) (mask data : BitVec 4) :
    (lockWrite s a mask data).keep.locked = s.keep.locked ||| mask ∧
      (lockWrite s a mask data).keep.lock = (s.keep.lock &&& ~~~ (mask &&& ~~~ s.keep.locked)) ||| (data &&& (mask &&& ~~~ s.keep.locked)) ∧
      (mask &&& s.keep.locked ≠ 0 → (lockWrite s a mask data).keep.accstat.getLsbD 0 = true) ∧
      (lockWrite s a mask data).spires = s.spires ∧ (lockWrite s a mask data).cistern.data = s.cistern.data := by
  rw [lockWrite]
  split
  case isTrue h => exact ⟨rfl, rfl, fun hne => absurd h hne, rfl, rfl⟩
  case isFalse h =>
    have same := accEvent_same { s with keep := { s.keep with
      lock := (s.keep.lock &&& ~~~ (mask &&& ~~~ s.keep.locked)) ||| (data &&& (mask &&& ~~~ s.keep.locked)), locked := s.keep.locked ||| mask } } a acLockwr
    have locks := same .locks (by decide)
    exact ⟨(congrArg (fun x => x.2.1) locks :), (congrArg (fun x => x.1) locks :), fun _ => accEvent_getLsbD _ a (cause := acLockwr) (by decide),
      same .spires (by decide), same.bytes_eq.1⟩

/-- R513: a lock bit is written where it is not locked. -/
theorem lock_bit (lock locked data : BitVec 4) {b : Nat} (hb : b < 4) :
    ((lock &&& ~~~ (0xF &&& ~~~ locked)) ||| (data &&& (0xF &&& ~~~ locked))).getLsbD b =
      if locked.getLsbD b = true then lock.getLsbD b else data.getLsbD b := by
  have ones : (0xF : BitVec 4).getLsbD b = true := by
    rw [show (0xF : BitVec 4) = BitVec.allOnes 4 by decide, BitVec.getLsbD_allOnes, decide_eq_true hb]
  simp only [BitVec.getLsbD_or, BitVec.getLsbD_and, BitVec.getLsbD_not, ones, hb, decide_true, Bool.true_and]
  cases locked.getLsbD b <;> simp

/-- A write that its command names by the register alone: admitted, it is the write of its place. -/
theorem named_write {s t : State} {r : CsrReq} {addr : Nat} {c : Instr} (hexec : exec c s = .next (request s r.who true addr r.wdata r.tag r.parityOk))
    (hok : r.parityOk = true) (hadm : admitted s r.who true addr = true)
    (hw : writeLoc s r.who (accessInfo s r.who true addr r.wdata) (locOf s addr) r.wdata = (t, rspOk)) :
    exec c s = .next (answerTo r.who true r.tag 0 0 t) := by
  rw [hexec, hok]
  exact congrArg _ (request_write _ hadm hw)

/-- What follows the bookkeeping of a state by the marks of an event also does so with an answer. -/
theorem answerTo_bytes (who : Requester) (tag : BitVec 4) (t : State) :
    (answerTo who true tag 0 0 t).spires = t.spires ∧ (answerTo who true tag 0 0 t).cistern.data = t.cistern.data := by
  cases who <;> exact ⟨rfl, rfl⟩

/-- R504: a single-bit write of a W1C bit of KEEP_ALERT. -/
theorem clear1_alias (x : BitVec 12) {b j : Nat} (v : Bool) (hb : b < 12) (hj : j < 12) :
    (clear1 x (BitVec.ofNat 32 (b2n v * 2 ^ b))).getLsbD j = (x.getLsbD j && !(decide (j = b) && v)) := by
  have bit : (BitVec.ofNat 12 (BitVec.ofNat 32 (b2n v * 2 ^ b)).toNat).getLsbD j = (decide (j = b) && v) := by
    cases v
    · simp [b2n]
    · have hlt : 2 ^ b < 2 ^ 32 := Nat.pow_lt_pow_right Nat.one_lt_two (by omega)
      rw [b2n, if_pos rfl, Nat.one_mul, BitVec.toNat_ofNat, Nat.mod_eq_of_lt hlt, BitVec.getLsbD_ofNat, Nat.testBit_two_pow, decide_eq_true hj,
        Bool.true_and, Bool.and_true, decide_eq_decide, eq_comm]
  rw [clear1, BitVec.getLsbD_and, BitVec.getLsbD_not, bit]
  simp [hj]

theorem lt_of_locOf_alias {s : State} {a o b : Nat} (h : locOf s a = .alias_ o b) : a < 0xA00000 := by
  by_contra hge
  have nowhere : locOf s a = .nowhere := by
    unfold locOf
    rw [if_neg (by omega), if_neg (by omega), if_neg (by omega), if_neg (by omega), if_neg (by omega), if_neg (by omega), if_neg (by omega)]
  rw [nowhere] at h
  cases h

/-- R512: a unit that partition 0 switches off. -/
theorem unitBit_off (s : State) {u : Nat} (hu : u < 14) :
    u ∈ (unitBit s u false).keep.safe ∧ ∀ b, b < 14 → (unitBit s u false).keep.unitEn.getLsbD b = (s.keep.unitEn.getLsbD b && !decide (b = u)) := by
  refine ⟨?_, fun b hb => setFld_bit_zero_getLsbD _ hu hb⟩
  simp only [unitBit, Bool.false_eq_true, if_false]
  split
  case isTrue h => exact List.contains_iff_mem.1 h
  case isFalse h => exact List.mem_append_right _ (List.mem_singleton_self u)

/-- R512: a bit of KEEP_UNIT_EN that is written leaves the other bits, and takes no unit out of its safe state. -/
theorem unitBit_other (s : State) {u : Nat} (hu : u < 14) (on : Bool) :
    (∀ x ∈ s.keep.safe, x ∈ (unitBit s u on).keep.safe) ∧
      ∀ b, b < 14 → b ≠ u → (unitBit s u on).keep.unitEn.getLsbD b = s.keep.unitEn.getLsbD b := by
  cases on
  · refine ⟨fun x hx => ?_, fun b hb hne => by rw [(unitBit_off s hu).2 b hb, decide_eq_false hne, Bool.not_false, Bool.and_true]⟩
    simp only [unitBit, Bool.false_eq_true, if_false]
    split
    · exact hx
    · exact List.mem_append_left _ hx
  · exact ⟨fun x hx => hx, fun b _ _ => rfl⟩

theorem hosttagWrite_of_locked {s : State} (a : AccessInfo) (data : W32) (h : s.keep.hosttagLocked = true) :
    hosttagWrite s a data = accEvent s a acLockwr := if_pos h

theorem hosttagWrite_of_open {s : State} (a : AccessInfo) (data : W32) (h : s.keep.hosttagLocked = false) :
    hosttagWrite s a data = { s with keep := { s.keep with hosttag := data, hosttagLocked := true } } :=
  if_neg (by rw [h]; exact Bool.false_ne_true)

/-- Settles O35: each named write is the write of its register's field; a single-bit write is that of its bit. -/
theorem locksAndAliases : Obligations.LocksAndAliases := by
  unfold Obligations.LocksAndAliases
  refine ⟨⟨fun s r hok hadm => ?hosttag, fun s r hok hadm => ?lock, fun s r hok hadm hfreeze => ?frozen, fun s r hok hadm hfreeze hoff => ?unit⟩,
    fun s r b hok hadm hloc hlo hb => ?w1c, fun s r b hok hadm hloc hlo hb => ?ro, fun s r hlt => ?outside⟩
  case hosttag =>
    intro only
    let a := accessInfo s r.who true 0x4C r.wdata
    have write {t : State} (h : hosttagWrite s a r.wdata = t) := named_write (c := .keepHosttagWrite r) rfl hok hadm (Prod.ext h rfl)
    cases hl : s.keep.hosttagLocked with
    | false =>
      obtain ⟨hspires, hdata⟩ := answerTo_bytes r.who r.tag { s with keep := { s.keep with hosttag := r.wdata, hosttagLocked := true } }
      refine ⟨_, write (hosttagWrite_of_open _ _ hl), ?_, answeredOk_answerTo _ _ _ _, fun _ => ?_, nofun, hspires, hdata⟩ <;> rw [answerTo_keep]
      exact ⟨rfl, rfl⟩
    | true =>
      obtain ⟨hspires, hdata⟩ := answerTo_bytes r.who r.tag (accEvent s a acLockwr)
      have same := accEvent_same s a acLockwr
      have locks := same .locks (by decide)
      have marks := (accEvent_marks s a acLockwr).trans (answerTo_marks r.who true r.tag 0 0 _)
      refine ⟨_, write (hosttagWrite_of_locked _ _ hl), ?_, answeredOk_answerTo _ _ _ _, nofun, fun _ => ⟨?_, ?_, marks.frame, marks.parts⟩,
        hspires.trans (same .spires (by decide)), hdata.trans same.bytes_eq.1⟩ <;> rw [answerTo_keep]
      · exact (congrArg (fun x => x.2.2.2) locks :).trans hl
      · exact (congrArg (fun x => x.2.2.1) locks :)
      · exact accEvent_accstat s _ acLockwr
  case lock =>
    let t := lockWrite s (accessInfo s r.who true 0x48 r.wdata) 0xF (BitVec.ofNat 4 r.wdata.toNat)
    have hexec := named_write (t := t) (c := .keepLockWrite r) rfl hok hadm rfl
    obtain ⟨hlocked, hlock, hevent, hspires, hdata⟩ := lockWrite_effect s (accessInfo s r.who true 0x48 r.wdata) 0xF (BitVec.ofNat 4 r.wdata.toNat)
    obtain ⟨hspires', hdata'⟩ := answerTo_bytes r.who r.tag t
    refine ⟨_, hexec, ?_, answeredOk_answerTo _ _ _ _, fun b hb => ?_, fun hne => ?_, hspires'.trans hspires, hdata'.trans hdata⟩ <;> rw [answerTo_keep]
    · exact hlocked.trans BitVec.or_allOnes
    · refine (congrArg (BitVec.getLsbD · b) hlock).trans ?_
      rw [lock_bit _ _ _ hb, BitVec.getLsbD_ofNat, BitVec.testBit_toNat, decide_eq_true hb, Bool.true_and]
    · exact hevent (by rwa [show (0xF : BitVec 4) = BitVec.allOnes 4 by decide, BitVec.allOnes_and])
  case frozen =>
    have hexec : exec (.keepUnitEnWrite r) s = .next (request s r.who true 0x40 r.wdata r.tag r.parityOk) := rfl
    let a := accessInfo s r.who true 0x40 r.wdata
    have denied : writeLoc s r.who a (locOf s 0x40) r.wdata = (s, rspDenied) := if_pos hfreeze
    have result : request s r.who true 0x40 r.wdata r.tag r.parityOk = answerTo r.who true r.tag 0 rspDenied (accEvent s a acDenied) := by
      rw [hok, request_eq _ _ _ _ _ (admitted_iff.1 hadm).path, access_admitted (admitted_iff.1 hadm), if_pos rfl, denied]
      rfl
    have units := accEvent_same s a acDenied .units (by decide)
    refine ⟨_, hexec.trans (congrArg _ result), ?_, ?_, ?_, ?_, ?_⟩
    · rw [answerTo_keep]; exact (congrArg (fun x => x.1) units :)
    · rw [answerTo_keep]; exact (congrArg (fun x => x.2.2.1) units :)
    · rw [answerTo_keep]; exact (congrArg (fun x => x.2.2.2.1) units :)
    · rw [answerTo_keep]; exact accEvent_getLsbD s a (cause := acDenied) (by decide)
    · intro p hp
      rw [hp]
      rfl
  case unit =>
    have place : writeLoc s r.who (accessInfo s r.who true 0x40 r.wdata) (locOf s 0x40) r.wdata =
        (unitBit (unitBit s uErg false) uTrc (bitOf r.wdata uTrc), rspOk) :=
      (if_neg (by rw [hfreeze]; exact Bool.false_ne_true)).trans (by rw [← hoff]; rfl)
    have hexec := named_write (c := .keepUnitEnWrite r) rfl hok hadm place
    obtain ⟨hsafe, hen⟩ := unitBit_off s (u := uErg) (by decide)
    obtain ⟨hsafe', hen'⟩ := unitBit_other (unitBit s uErg false) (u := uTrc) (by decide) (bitOf r.wdata uTrc)
    refine ⟨_, hexec, ?_, ?_, answeredOk_answerTo _ _ _ _, fun b hb herg htrc => ?_⟩ <;> rw [answerTo_keep]
    · rw [hen' uErg (by decide) (by decide), hen uErg (by decide), decide_eq_true rfl, Bool.not_true, Bool.and_false]
    · exact hsafe' _ hsafe
    · rw [hen' b (by omega) htrc, hen b (by omega), decide_eq_false herg, Bool.not_false, Bool.and_true]
  case w1c =>
    have kind : keepKind 0x00C b = some .w1c := by
      interval_cases b <;> rfl
    have place : writeLoc s r.who (accessInfo s r.who true r.addr.toNat r.wdata) (locOf s r.addr.toNat) r.wdata =
        ({ s with keep := { s.keep with alert := clear1 s.keep.alert (BitVec.ofNat 32 (b2n (bitOf r.wdata 0) * 2 ^ b)) } }, rspOk) := by
      rw [hloc]
      simp only [writeLoc, aliasWrite, kind, keepWrite]
    have hwin : 0x800000 ≤ r.addr.toNat ∧ r.addr.toNat < 0xA00000 := ⟨hlo, lt_of_locOf_alias hloc⟩
    have hexec := named_write (c := .aliasWrite r) (congrArg _ (if_pos hwin)) hok hadm place
    refine ⟨_, hexec, answeredOk_answerTo _ _ _ _, fun j hj => ?_, ?_⟩
    · rw [answerTo_keep]
      exact clear1_alias _ _ hb hj
    · cases r.who <;> rfl
  case ro =>
    have kind : keepKind 0x010 b = some .ro := by
      interval_cases b <;> rfl
    have place : writeLoc s r.who (accessInfo s r.who true r.addr.toNat r.wdata) (locOf s r.addr.toNat) r.wdata =
        (accEvent s (accessInfo s r.who true r.addr.toNat r.wdata) acAliasign, rspOk) := by
      rw [hloc]
      simp only [writeLoc, aliasWrite, kind]
    have hwin : 0x800000 ≤ r.addr.toNat ∧ r.addr.toNat < 0xA00000 := ⟨hlo, lt_of_locOf_alias hloc⟩
    have hexec := named_write (c := .aliasWrite r) (congrArg _ (if_pos hwin)) hok hadm place
    have marks := (accEvent_marks s (accessInfo s r.who true r.addr.toNat r.wdata) acAliasign).trans (answerTo_marks r.who true r.tag 0 0 _)
    refine ⟨_, hexec, answeredOk_answerTo _ _ _ _, ?_, marks.alert, marks.frame, marks.parts⟩
    rw [answerTo_keep]
    exact accEvent_accstat s _ acAliasign
  case outside => exact congrArg Host.Outcome.next (if_neg fun h => by omega)

end Sys2Proof.Machine
end

section
/-! A Spire as it is out of cold reset, and the mailbox's latch of one of its groups (R460, R507). -/

set_option Elab.async false

namespace Sys2Proof.Machine

/-- A Spire as it is out of cold reset. -/
def bareSpire (ix : Nat) : Spire where
  ix := ix
  cnt := List.replicate 15 0
  smp := ⟨0, 16, 16, 0, false⟩
  lv := ⟨false, false, false, false, false, true, false, false, false⟩
  tstate := 0
  fseq := 0
  watchCnt := 0
  testing := false
  pendFence := false
  tap := ⟨0, false, false, 0, 0, 0, 0, false⟩
  ops := []
  pass := none
  injSlot := none
  refused := []
  torn := []
  tornOps := []
  raw := []
  orphan := Sd.empty
  answer := .none
  lastv := ⟨0, 0, 0, 0, 0, 0⟩
  viol := (0, 0)
  staging := 0
  witSent := 0
  witGrants := []
  epoch := 0
  trc := ⟨false, false, [], 0, 1024000, 1024000, 0, [], [], [], [], [], [], 0⟩
  wrap := ⟨false, 0, 0, false, 0⟩
  gen := ⟨false, 0, 0, false, 0⟩
  sensor := Sensor.zero
  cycFrom := 0
  big := List.replicate 9 0

/-- A mailbox of partition 0 that latches the first group of Spire 0, at fabric tick 1. -/
def latchingSpireGroup : State :=
  { State.reset with
    time := { State.reset.time with tick := 1 }
    keep := { State.reset.keep with mbx := ⟨0x10000, false, 0, 0x10000, true, List.replicate 12 0⟩ :: List.replicate 16 Mbx.reset }
    spires := [bareSpire 0] }

/-- Refutes O36: a latch of a Spire's group counts that Spire's cycles up to now (R460), so that the mailbox is not all that changes. -/
theorem not_mailbox : ¬ Obligations.Mailbox := by
  unfold Obligations.Mailbox
  rintro ⟨-, latch, -⟩
  obtain ⟨t, hexec, -, -, may, -⟩ := latch latchingSpireGroup (.csr 0) (by decide) rfl
  obtain ⟨-, -, frame⟩ := may rfl
  obtain rfl := Host.Outcome.next.inj hexec
  have counted : (mbxLatch latchingSpireGroup (.csr 0)).spires.map (·.cycFrom) = [1] := rfl
  rw [frame] at counted
  exact absurd counted (by decide)

end Sys2Proof.Machine
end

section
/-! The management bus and its I3C Basic target (R517 to R520). -/

set_option Elab.async false

namespace Sys2Proof.Machine

/-! ### The management bus (R517 to R519) -/

theorem length_leBytes (n x : Nat) : (leBytes n x).length = n := by rw [leBytes, List.length_map, List.length_range]

theorem pathServes_mgmt (s : State) : pathServes s .mgmt = busServes s := Bool.and_true _

/-- A read is performed, and leaves the state, or is refused with an event. -/
theorem access_read_st (s : State) (who : Requester) (addr : Nat) (data : W32) (ok : Bool) :
    Same [.alert, .acc, .cistern, .parts, .records, .early, .near] s (access s who false addr data ok).st := by
  unfold access
  simp only [Bool.false_eq_true, if_false]
  split_ifs <;> first | exact accEvent_same s _ _ | exact Same.rfl_ _ s

/-- What a READ has done after `n` words. -/
structure ReadSoFar (s : State) (n : Nat) (r : State × List Byte × Nat) : Prop where
  frame : Same [.alert, .acc, .cistern, .parts, .records, .early, .near, .mgmt] s r.1
  mgmt : r.1.mgmt = { s.mgmt with addr := s.mgmt.addr + BitVec.ofNat 24 (4 * n) }
  bytes : r.2.1.length = 4 * n

theorem ReadSoFar.next {s : State} {n : Nat} {r : State × List Byte × Nat} (h : ReadSoFar s n r) : ReadSoFar s (n + 1) (readWord r) where
  frame := by
    have read := access_read_st r.1 .mgmt r.1.mgmt.addr.toNat 0 true
    exact (h.frame.trans (read.mono (by decide))).trans fun f hf => by cases f <;> first | rfl | exact absurd (by decide) hf
  mgmt := by
    have read : (access r.1 .mgmt false r.1.mgmt.addr.toNat 0 true).st.mgmt = r.1.mgmt :=
      access_read_st r.1 .mgmt r.1.mgmt.addr.toNat 0 true .mgmt (by decide)
    have moved : (readWord r).1.mgmt = { r.1.mgmt with addr := r.1.mgmt.addr + 4 } := congrArg (fun m : Mgmt => { m with addr := m.addr + 4 }) read
    rw [moved, h.mgmt, Nat.mul_add, BitVec.ofNat_add, ← BitVec.add_assoc]
    rfl
  bytes := by rw [readWord, List.length_append, length_leBytes, h.bytes, Nat.mul_add]

theorem readSoFar_words (s : State) (n : Nat) : ReadSoFar s n ((List.range n).foldl (fun r _ => readWord r) (s, [], 0)) := by
  induction n with
  | zero => exact ⟨Same.rfl_ _ s, by rw [Nat.mul_zero]; exact congrArg (fun a => { s.mgmt with addr := a }) (BitVec.add_zero _).symm, rfl⟩
  | succ n ih =>
    rw [List.range_succ, List.foldl_append]
    exact ih.next

theorem updMgmt_same (s : State) (f : Mgmt → Mgmt) : Same [.mgmt] s (updMgmt s f) := by
  intro g hg
  cases g <;> first | rfl | exact absurd (by decide) hg

/-- R516, R519: a malformed transaction raises its event, and is NACKed. -/
theorem mgmtMalformed_effect {s : State} (h : busServes s = true) (f : MgmtFault) :
    (mgmtMalformed s f).mgmt.addr = s.mgmt.addr ∧ (mgmtMalformed s f).mgmt.len = s.mgmt.len ∧
      (mgmtMalformed s f).keep.accstat.getLsbD 4 = true ∧ (i3cMode s = false → (mgmtMalformed s f).mgmt.nacked = some f) ∧
      (i3cMode s = true → (mgmtMalformed s f).mgmt.nackOnce = true) ∧
      Same [.alert, .acc, .cistern, .parts, .records, .early, .near, .mgmt] s (mgmtMalformed s f) := by
  have event := accEvent_same s ⟨0, 1, 0xFFFF, true, s.mgmt.addr.toNat, 0⟩ acMalformed
  have bit : (accEvent s ⟨0, 1, 0xFFFF, true, s.mgmt.addr.toNat, 0⟩ acMalformed).keep.accstat.getLsbD 4 = true :=
    accEvent_getLsbD s _ (cause := acMalformed) (by decide)
  have mgmt := event .mgmt (by decide)
  have frame (g : Mgmt → Mgmt) := (event.mono (n := [.alert, .acc, .cistern, .parts, .records, .early, .near, .mgmt]) (by decide)).trans
    ((updMgmt_same _ g).mono (by decide))
  rw [mgmtMalformed, if_neg (by rw [h]; exact Bool.false_ne_true)]
  dsimp only
  split
  case isTrue hmode =>
    exact ⟨(congrArg Mgmt.addr mgmt :), (congrArg Mgmt.len mgmt :), bit, fun hno => absurd hmode (by rw [hno]; exact Bool.false_ne_true), fun _ => rfl, frame _⟩
  case isFalse hmode =>
    exact ⟨(congrArg Mgmt.addr mgmt :), (congrArg Mgmt.len mgmt :), bit, fun _ => rfl, fun hyes => absurd hyes hmode, frame _⟩

theorem exec_setaddr_bad {s : State} {a : BitVec 24} {n : Nat} (h : busServes s = true) (hbad : n = 0 ∨ 7 < n ∨ a.toNat % 4 ≠ 0) :
    exec (.setaddr a n) s = .next (mgmtMalformed s (if a.toNat % 4 ≠ 0 then .addr else .len)) := by
  refine congrArg Host.Outcome.next ((if_neg (by rw [h]; exact Bool.false_ne_true)).trans ?_)
  by_cases ha : a.toNat % 4 ≠ 0
  · rw [if_pos ha, if_pos ha]
  · rw [if_neg ha, if_neg ha, if_pos (by omega)]

theorem exec_setaddr_good {s : State} {a : BitVec 24} {n : Nat} (h : busServes s = true) (hlo : 1 ≤ n) (hhi : n ≤ 7) (ha : a.toNat % 4 = 0) :
    exec (.setaddr a n) s = .next { s with mgmt := { s.mgmt with
      addr := a, len := n, nacked := none, dataOut := if i3cMode s = true then leBytes 3 a.toNat ++ leBytes 1 n else [] } } :=
  congrArg Host.Outcome.next
    ((if_neg (by rw [h]; exact Bool.false_ne_true)).trans ((if_neg (by omega)).trans (if_neg (by omega))))

theorem exec_malformedTransaction (s : State) (f : MgmtFault) : exec (.malformedTransaction f) s = .next (mgmtMalformed s f) := rfl

theorem deliver_effect (s : State) (bs : List Byte) :
    (deliver s bs).mgmt.addr = s.mgmt.addr ∧ (s.mgmt.nackOnce = true → (deliver s bs).mgmt.dataOut = [] ∧ (deliver s bs).mgmt.nackOnce = false) ∧
      (s.mgmt.nackOnce = false → (deliver s bs).mgmt.dataOut = bs) ∧ Same [.mgmt] s (deliver s bs) := by
  have frame : Same [.mgmt] s (deliver s bs) := updMgmt_same _ _
  refine ⟨?_, fun h => ?_, fun h => ?_, frame⟩
  · cases h : s.mgmt.nackOnce <;> simp only [deliver, updMgmt, h, Bool.false_eq_true, if_false, if_true]
  · simp only [deliver, updMgmt, h, if_true, and_self]
  · simp only [deliver, updMgmt, h, Bool.false_eq_true, if_false]

theorem exec_read {s : State} (h : busServes s = true) : ∃ r bs, exec .read s = .next (deliver r bs) ∧ bs.length = 4 * s.mgmt.len + 1 ∧
    r.mgmt = { s.mgmt with addr := s.mgmt.addr + BitVec.ofNat 24 (4 * s.mgmt.len) } ∧
    Same [.alert, .acc, .cistern, .parts, .records, .early, .near, .mgmt] s r := by
  obtain ⟨frame, mgmt, bytes⟩ := readSoFar_words s s.mgmt.len
  refine ⟨_, _, congrArg Host.Outcome.next (if_neg (by rw [h]; exact Bool.false_ne_true)), ?_, mgmt, frame⟩
  rw [List.length_append, bytes]
  rfl

theorem exec_write {s : State} (h : busServes s = true) (w : W32) :
    exec (.write w) s = .next (updMgmt (request s .mgmt true s.mgmt.addr.toNat w 0 true) fun m => { m with addr := m.addr + 4, nacked := none }) :=
  congrArg Host.Outcome.next (if_neg (by rw [h]; exact Bool.false_ne_true))

theorem request_mgmt {s : State} (h : busServes s = true) (w : W32) :
    ∃ x, (request s .mgmt true s.mgmt.addr.toNat w 0 true).mgmt = { s.mgmt with wstat := x } := by
  have kept : (access s .mgmt true s.mgmt.addr.toNat w true).st.mgmt = s.mgmt :=
    (access_keeps .mgmt true s.mgmt.addr.toNat w true (Keeps.rfl_ _ s) (List.Subset.refl _)).same .mgmt (by decide)
  rw [request_eq _ _ _ _ _ ((pathServes_mgmt s).trans h)]
  let x := BitVec.ofNat 2 (access s .mgmt true s.mgmt.addr.toNat w true).code
  exact ⟨x, (congrArg (fun m : Mgmt => { m with wstat := x }) kept :)⟩

theorem cvnWrite_mgmt (s : State) (o : Nat) (d : W32) : (cvnWrite s o d).mgmt = s.mgmt := by
  unfold cvnWrite
  split <;> rfl

/-! ### I3C Basic (R520) -/

section I3c

variable {s : State} (hserves : busServes s = true) (hmode : i3cMode s = true)
include hserves hmode

theorem onI3c_eq (f : State → State) : onI3c s f = f s := if_pos (by rw [hserves, hmode]; rfl)

theorem exec_getter {c : Instr} {n : Nat} (h : (c, n) ∈ [(Instr.getbcr, 1), (.getdcr, 1), (.getstatus, 2), (.getmxds, 2)]) :
    exec c s = .next (updMgmt (freeBytes s n).2 fun m => { m with dataOut := (freeBytes s n).1 }) := by
  simp only [List.mem_cons, Prod.mk.injEq, List.not_mem_nil, or_false] at h
  rcases h with ⟨rfl, rfl⟩ | ⟨rfl, rfl⟩ | ⟨rfl, rfl⟩ | ⟨rfl, rfl⟩ <;> exact congrArg Host.Outcome.next (onI3c_eq hserves hmode _)

end I3c

theorem onI3c_of_smbus {s : State} (hmode : i3cMode s = false) (f : State → State) : onI3c s f = s :=
  if_neg (by rw [hmode, Bool.and_false]; exact Bool.false_ne_true)

/-- Settles O43: the transactions of the management bus, one by one, and the common command codes in and out of I3C mode. -/
theorem managementBusAndI3c : Obligations.ManagementBusAndI3c := by
  unfold Obligations.ManagementBusAndI3c
  refine ⟨⟨fun s a n h hlo hhi ha => exec_setaddr_good h hlo hhi ha, fun s a n h hbad => ?setaddr, fun s f h => ?malformed, fun s h => ?read,
    fun s w h => ?write, fun s w o hadm hloc => ?caravan, fun s h honce => ?status, fun s hmode => ?clockLow⟩,
    fun s a h hmode hdyn => ⟨?entdaa, ?setdasa⟩, fun s h hmode => ⟨?rstdaa, ?getpid, ?pid, fun c n hc => ?getter⟩, fun s a hmode c hc => ?smbus⟩
  case setaddr =>
    obtain ⟨haddr, hlen, hbit, hnack, honce, frame⟩ := mgmtMalformed_effect h (if a.toNat % 4 ≠ 0 then .addr else .len)
    exact ⟨_, exec_setaddr_bad h hbad, haddr, hlen, hbit, hnack, honce, frame .spires (by decide), frame .tiles (by decide), frame.bytes_eq.1⟩
  case malformed =>
    obtain ⟨haddr, -, hbit, hnack, honce, frame⟩ := mgmtMalformed_effect h f
    exact ⟨_, rfl, haddr, hbit, honce, hnack, frame .spires (by decide), frame .tiles (by decide), frame.bytes_eq.1⟩
  case read =>
    obtain ⟨r, bs, hexec, hlen, hmgmt, frame⟩ := exec_read h
    obtain ⟨haddr, honce, hout, same⟩ := deliver_effect r bs
    rw [hmgmt] at haddr honce hout
    exact ⟨_, hexec, haddr, honce, fun hno => (congrArg List.length (hout hno)).trans hlen, (same .spires (by decide)).trans (frame .spires (by decide)),
      (same .tiles (by decide)).trans (frame .tiles (by decide)), same.bytes_eq.1.trans frame.bytes_eq.1⟩
  case write =>
    obtain ⟨x, hx⟩ := request_mgmt h w
    have moved : (updMgmt (request s .mgmt true s.mgmt.addr.toNat w 0 true) fun m => { m with addr := m.addr + 4, nacked := none }).mgmt =
        { s.mgmt with wstat := x, addr := s.mgmt.addr + 4, nacked := none } :=
      congrArg (fun m : Mgmt => { m with addr := m.addr + 4, nacked := none }) hx
    exact ⟨_, exec_write h w, (congrArg Mgmt.addr moved :), (congrArg Mgmt.len moved :), (congrArg Mgmt.dataOut moved :)⟩
  case caravan =>
    have serves : busServes s = true := (pathServes_mgmt s).symm.trans (admitted_iff.1 hadm).path
    have place : writeLoc s .mgmt (accessInfo s .mgmt true s.mgmt.addr.toNat w) (locOf s s.mgmt.addr.toNat) w = (cvnWrite s o w, rspOk) := by
      rw [hloc]; rfl
    rw [exec_write serves, request_write 0 hadm place]
    have kept := cvnWrite_mgmt s o w
    exact congrArg (fun m : Mgmt => Host.Outcome.next { cvnWrite s o w with mgmt := { m with wstat := 0, addr := m.addr + 4, nacked := none } }) kept
  case status =>
    refine congrArg Host.Outcome.next ((if_neg (by rw [h]; exact Bool.false_ne_true)).trans ?_)
    simp only [deliver, updMgmt, honce, Bool.false_eq_true, if_false]
  case clockLow => exact congrArg Host.Outcome.next (if_neg (by rw [hmode]; exact Bool.false_ne_true))
  case entdaa =>
    refine ⟨updMgmt (freeBytes s 2).2 fun m => { m with dyn := some a, dataOut := pidBytes s ++ (freeBytes s 2).1 }, (freeBytes s 2).1, ?_, rfl, rfl,
      length_leBytes _ _, rfl⟩
    exact congrArg Host.Outcome.next ((onI3c_eq h hmode _).trans (if_neg (by rw [hdyn]; exact Bool.false_ne_true)))
  case setdasa => exact congrArg Host.Outcome.next ((onI3c_eq h hmode _).trans (if_neg (by rw [hdyn]; exact Bool.false_ne_true)))
  case rstdaa => exact congrArg Host.Outcome.next (onI3c_eq h hmode _)
  case getpid => exact congrArg Host.Outcome.next (onI3c_eq h hmode _)
  case pid => rw [pidBytes, List.length_reverse, length_leBytes]
  case getter => exact ⟨_, exec_getter h hmode hc, length_leBytes _ _, rfl⟩
  case smbus =>
    simp only [List.mem_cons, List.not_mem_nil, or_false] at hc
    rcases hc with rfl | rfl | rfl | rfl | rfl | rfl | rfl | rfl <;> exact congrArg Host.Outcome.next (onI3c_of_smbus hmode _)

end Sys2Proof.Machine
end

section
/-! Tallies (R275, R276, R530 to R532). -/

set_option Elab.async false

namespace Sys2Proof.Machine

/-! ### Tallies (R275, R276, R530 to R532) -/

/-- `t` differs from `s`, among Tallies, Spires, tiles and the Cistern's bytes, in Tally `i` alone, which is `x`. -/
structure OnTally (i : Nat) (s t : State) (x : Tally) : Prop where
  own : getTally t i = x
  other : ∀ j, j ≠ i → getTally t j = getTally s j
  spires : t.spires = s.spires
  tiles : t.tiles = s.tiles
  data : t.cistern.data = s.cistern.data

theorem OnTally.rfl_ (i : Nat) (s : State) : OnTally i s s (getTally s i) := ⟨rfl, fun _ _ => rfl, rfl, rfl, rfl⟩

theorem OnTally.upd {i : Nat} {s t : State} {x : Tally} (h : OnTally i s t x) (f : Tally → Tally) : OnTally i s (updTally t i f) (f x) :=
  ⟨(getTally_putTally t i _).trans (congrArg f h.own), fun j hj => (getTally_putTally_ne t _ hj).trans (h.other j hj), h.spires, h.tiles, h.data⟩

/-- What leaves the Tallies, the Spires, the tiles and the Cistern's bytes. -/
theorem OnTally.same {i : Nat} {s t u : State} {x : Tally} (h : OnTally i s t x) (tallies : u.tallies = t.tallies) (spires : u.spires = t.spires)
    (tiles : u.tiles = t.tiles) (data : u.cistern.data = t.cistern.data) : OnTally i s u x := by
  have get (j : Nat) : getTally u j = getTally t j := by rw [getTally, getTally, tallies]
  exact ⟨(get i).trans h.own, fun j hj => (get j).trans (h.other j hj), spires.trans h.spires, tiles.trans h.tiles, data.trans h.data⟩

theorem OnTally.answer {i : Nat} {s t : State} {x : Tally} (h : OnTally i s t x) (who : Requester) (tag : BitVec 4) :
    OnTally i s (answerTo who true tag 0 0 t) x := by
  cases who <;> exact h.same rfl rfl rfl rfl

/-- R276: an emptied waiting list. -/
theorem OnTally.empty {i : Nat} {s t : State} {x : Tally} (h : OnTally i s t x) : OnTally i s (emptyWaiters t i) { x with waiters := [] } := by
  have used : OnTally i s (subUse t (getTally t i).part (waitLines (getTally t i).waiters.length)) x := h.same rfl rfl rfl rfl
  exact used.upd fun y => { y with waiters := [] }

/-- R532: the list empties when COUNT has reached TARGET. -/
theorem OnTally.check {i : Nat} {s t : State} {x : Tally} (h : OnTally i s t x) :
    OnTally i s (tallyCheck t i) (if x.target.toNat ≤ x.count.toNat then { x with waiters := [] } else x) := by
  rw [tallyCheck, tallyDone, h.own]
  by_cases hd : x.target.toNat ≤ x.count.toNat
  · rw [if_pos (decide_eq_true hd), if_pos hd]
    exact h.empty
  · rw [if_neg (by simpa using hd), if_neg hd]
    exact h

theorem OnTally.result {i : Nat} {s t : State} {x : Tally} (h : OnTally i s t x) (op : Nat) (arg : W16) (r : Nat) :
    OnTally i s (tallyResult t i op arg r) { x with arg := arg, op := BitVec.ofNat 3 op, result := BitVec.ofNat 3 r } :=
  h.upd fun y => { y with arg := arg, op := BitVec.ofNat 3 op, result := BitVec.ofNat 3 r }


/-! #### GO of TAL_CMD (R531, R532) -/

section
variable {i : Nat} {s t : State} {x : Tally} {arg : W16}

theorem OnTally.notHeld (h : OnTally i s t x) (op : Nat) (hx : x.held = false) :
    OnTally i s (tallyCmd t i op arg) { x with arg := arg, op := BitVec.ofNat 3 op, result := BitVec.ofNat 3 trNotalloc } := by
  have : tallyCmd t i op arg = tallyResult t i op arg trNotalloc := if_pos (by rw [h.own, hx]; rfl)
  rw [this]
  exact h.result op arg _

theorem OnTally.heldTest (h : OnTally i s t x) (hx : x.held = true) : ¬ (!(getTally t i).held) = true := by
  rw [h.own, hx]; exact Bool.false_ne_true

theorem OnTally.add (h : OnTally i s t x) (hx : x.held = true) (harg : arg ≠ 0) :
    OnTally i s (tallyCmd t i 1 arg)
      { x with count := x.count + arg.zeroExtend 32, arg := arg, op := 1, result := BitVec.ofNat 3 trDone,
               waiters := if x.target.toNat ≤ (x.count + arg.zeroExtend 32).toNat then [] else x.waiters } := by
  have run : tallyCmd t i 1 arg =
      tallyResult (tallyCheck (updTally t i fun y => { y with count := y.count + arg.zeroExtend 32 }) i) i 1 arg trDone :=
    (if_neg (h.heldTest hx)).trans (if_neg harg)
  have counted := ((h.upd fun y => { y with count := y.count + arg.zeroExtend 32 }).check).result 1 arg trDone
  rw [run]
  by_cases hd : x.target.toNat ≤ (x.count + arg.zeroExtend 32).toNat
  · rw [if_pos hd]
    rwa [if_pos hd] at counted
  · rw [if_neg hd]
    rwa [if_neg hd] at counted

theorem OnTally.wait (h : OnTally i s t x) (hx : x.held = true) {tile : Tile} (htile : getTile t arg.toNat = some tile) (hpart : tile.part = x.part)
    (hcount : x.count.toNat < x.target.toNat) (hnew : arg.toNat ∉ x.waiters) (hquota : quotaOk t x.part lvRec = true) :
    OnTally i s (tallyCmd t i 2 arg)
      { x with waiters := x.waiters ++ [arg.toNat], arg := arg, op := 2, result := BitVec.ofNat 3 trDone } := by
  have known : ¬ ((getTile t arg.toNat).isNone = true ∨ partOfSp t arg.toNat ≠ (getTally t i).part) := by
    rw [partOfSp, htile, h.own]
    simp [hpart]
  have waits : ¬ (tallyDone (getTally t i) = true ∨ (getTally t i).waiters.contains arg.toNat = true) := by
    rw [h.own, tallyDone]
    simp [hnew, hcount]
  have room : ¬ (waitLines ((getTally t i).waiters.length + 1) - waitLines (getTally t i).waiters.length ≠ 0 ∧ (!quotaOk t (getTally t i).part lvRec) = true) := by
    rw [h.own, hquota]
    exact fun hno => Bool.false_ne_true hno.2
  have run : tallyCmd t i 2 arg =
      tallyResult (updTally (addUse t (getTally t i).part (waitLines ((getTally t i).waiters.length + 1) - waitLines (getTally t i).waiters.length)) i
        fun y => { y with waiters := y.waiters ++ [arg.toNat] }) i 2 arg trDone :=
    (if_neg (h.heldTest hx)).trans ((if_neg known).trans ((if_neg waits).trans (if_neg room)))
  have used (p n : Nat) : OnTally i s (addUse t p n) x := h.same rfl rfl rfl rfl
  rw [run]
  exact ((used _ _).upd fun y => { y with waiters := y.waiters ++ [arg.toNat] }).result 2 arg trDone

theorem OnTally.unwait (h : OnTally i s t x) (hx : x.held = true) :
    OnTally i s (tallyCmd t i 3 arg)
      { x with waiters := x.waiters.filter (· != arg.toNat), arg := arg, op := 3, result := BitVec.ofNat 3 trDone } := by
  have run : tallyCmd t i 3 arg =
      tallyResult (updTally (subUse t (getTally t i).part
        (waitLines (getTally t i).waiters.length - waitLines ((getTally t i).waiters.filter (· != arg.toNat)).length)) i
        fun y => { y with waiters := (getTally t i).waiters.filter (· != arg.toNat) }) i 3 arg trDone := if_neg (h.heldTest hx)
  have used (p n : Nat) : OnTally i s (subUse t p n) x := h.same rfl rfl rfl rfl
  rw [run, h.own]
  exact ((used _ _).upd fun y => { y with waiters := x.waiters.filter (· != arg.toNat) }).result 3 arg trDone

theorem OnTally.free (h : OnTally i s t x) (hx : x.held = true) (hq : t.tallyQ = []) :
    OnTally i s (tallyCmd t i 4 arg) { x with waiters := [], held := false, arg := arg, op := 4, result := BitVec.ofNat 3 trDone } := by
  have run : tallyCmd t i 4 arg = tallyResult (freeOne t i) i 4 arg trDone := if_neg (h.heldTest hx)
  have freed : freeOne t i = updTally (emptyWaiters t i) i fun y => { y with held := false } := by
    have : (emptyWaiters t i).tallyQ = [] := hq
    rw [freeOne, this]
    rfl
  rw [run, freed]
  exact (h.empty.upd fun y => { y with held := false }).result 4 arg trDone

end

/-! #### The words of a Tally (R500, R531) -/

theorem locOf_aTally (s : State) {i k : Nat} (hi : i < Config.tallies) (hk : k < 4) : locOf s (aTally i k) = .tal i k := by
  have hlt : i < 8192 := hi
  have h1 : ¬ 0x100000 + 16 * i + 4 * k < 0x100000 := by omega
  have h2 : 0x100000 + 16 * i + 4 * k < 0x120000 := by omega
  rw [aTally, locOf, if_neg h1, if_pos h2]
  congr 1 <;> omega

theorem talCmdWord_toNat (arg : W16) {op : Nat} (hop : op < 8) : (talCmdWord op arg).toNat = arg.toNat + op * 65536 + 524288 := by
  have := arg.isLt
  have fold : talCmdWord op arg = BitVec.ofNat 32 (arg.toNat + op * 65536 + 524288) := by
    simp [talCmdWord, packW]
  rw [fold, BitVec.toNat_ofNat]
  omega

/-- R531: a word of TAL_CMD with GO. -/
theorem talWrite_go (s : State) (i : Nat) {d : W32} (hgo : bitOf d 19 = true) : talWrite s i 3 d =
    tallyCmd (updTally s i fun x => { x with arg := BitVec.ofNat 16 (fld d 0 16), op := BitVec.ofNat 3 (fld d 16 3) }) i (fld d 16 3) (BitVec.ofNat 16 (fld d 0 16)) := by
  rw [talWrite]
  exact if_pos hgo

/-- R531: what GO of TAL_CMD takes from its word. -/
theorem talWrite_cmd (s : State) (i : Nat) (arg : W16) {op : Nat} (hop : op < 8) :
    talWrite s i 3 (talCmdWord op arg) = tallyCmd (updTally s i fun x => { x with arg := arg, op := BitVec.ofNat 3 op }) i op arg := by
  have hlt := arg.isLt
  have word := talCmdWord_toNat arg hop
  generalize talCmdWord op arg = d at word ⊢
  have harg : fld d 0 16 = arg.toNat := by
    rw [fld, word, Nat.shiftRight_eq_div_pow]; omega
  have hcode : fld d 16 3 = op := by
    rw [fld, word, Nat.shiftRight_eq_div_pow]; omega
  have hgo : bitOf d 19 = true := by
    rw [bitOf, BitVec.getLsbD, word, Nat.testBit, Nat.one_and_eq_mod_two, Nat.shiftRight_eq_div_pow]
    have : (arg.toNat + op * 65536 + 524288) / 2 ^ 19 % 2 = 1 := by omega
    rw [this]; rfl
  have hof : BitVec.ofNat 16 arg.toNat = arg := BitVec.ofNat_toNat _ _ |>.trans (BitVec.setWidth_eq _)
  rw [talWrite_go s i hgo, harg, hcode, hof]

/-- A write of a Tally's word that is admitted. -/
theorem tallyWrite_eq {s : State} {who : Requester} {i k : Nat} (d : W32) (hi : i < Config.tallies) (hk : k < 4)
    (hadm : admitted s who true (aTally i k) = true) : tallyWrite s who i k d = answerTo who true 0 0 0 (talWrite s i k d) := by
  rw [tallyWrite, if_pos hi, namedWrite]
  exact request_write 0 hadm (by rw [locOf_aTally s hi hk]; rfl)

/-- GO of KEEP_TALLOC that is admitted. -/
theorem exec_tallyAlloc {s : State} {who : Requester} (hadm : admitted s who true aTalloc = true) :
    exec (.tallyAlloc who) s = .next (answerTo who true 0 0 0 (tallyAlloc s who)) :=
  congrArg Host.Outcome.next (request_write 0 hadm rfl)


/-- A command on a Tally that is admitted: its effect is that of TAL_CMD with GO. -/
theorem tallyCommand {s : State} {who : Requester} {i : Nat} {arg : W16} {c : Instr} {op : Nat} (hi : i < Config.tallies) (hop : op < 8)
    (hadm : admitted s who true (aTally i 3) = true) (hexec : exec c s = .next (tallyWrite s who i 3 (talCmdWord op arg))) {y : Tally}
    (effect : OnTally i s (tallyCmd (updTally s i fun x => { x with arg := arg, op := BitVec.ofNat 3 op }) i op arg) y) :
    ∃ t, exec c s = .next t ∧ OnTally i s t y := by
  refine ⟨_, hexec.trans (congrArg _ (tallyWrite_eq _ hi (by decide) hadm)), ?_⟩
  rw [talWrite_cmd s i arg hop]
  exact effect.answer who 0

/-! #### The requests for a Tally (R275, R530) -/

section
variable {s : State} {who : Requester}

theorem tallyAlloc_grant {n : Nat} (hnot : tallocResult s (instOf who) ≠ 2)
    (hquota : heldBy s (partOf who) + (s.tallyQ.filter fun q => q.2 == partOf who).length < ((partCfg s (partOf who)).map (·.talQuota)).getD 0)
    (hfree : freeTally s = some n) : tallyAlloc s who = grantTally s (instOf who) (partOf who) n := by
  unfold tallyAlloc
  dsimp only
  rw [if_neg hnot, if_neg (Nat.not_le_of_lt hquota), hfree]

theorem tallyAlloc_queue (hnot : tallocResult s (instOf who) ≠ 2)
    (hquota : heldBy s (partOf who) + (s.tallyQ.filter fun q => q.2 == partOf who).length < ((partCfg s (partOf who)).map (·.talQuota)).getD 0)
    (hfree : freeTally s = none) (hroom : s.tallyQ.length < 256) :
    tallyAlloc s who = { setTalloc s (instOf who) 2 0 with tallyQ := s.tallyQ ++ [(instOf who, partOf who)] } := by
  unfold tallyAlloc
  dsimp only
  rw [if_neg hnot, if_neg (Nat.not_le_of_lt hquota), hfree]
  exact if_pos hroom

theorem tallyAlloc_refuse (hnot : tallocResult s (instOf who) ≠ 2)
    (hno : ¬ heldBy s (partOf who) + (s.tallyQ.filter fun q => q.2 == partOf who).length < ((partCfg s (partOf who)).map (·.talQuota)).getD 0 ∨
      (freeTally s = none ∧ 256 ≤ s.tallyQ.length)) :
    tallyAlloc s who = updCnt (setTalloc s (instOf who) 3 0) (partOf who) fun c => { c with talRefused := satInc c.talRefused } := by
  unfold tallyAlloc
  dsimp only
  rw [if_neg hnot]
  by_cases hquota : heldBy s (partOf who) + (s.tallyQ.filter fun q => q.2 == partOf who).length < ((partCfg s (partOf who)).map (·.talQuota)).getD 0
  · obtain ⟨hfree, hfull⟩ := hno.resolve_left (not_not_intro hquota)
    rw [if_neg (Nat.not_le_of_lt hquota), hfree]
    exact if_neg (Nat.not_lt_of_le hfull)
  · exact if_pos (Nat.le_of_not_lt hquota)

theorem setTalloc_own (t : State) {i : Nat} (r ix : Nat) (hi : i < t.keep.talloc.length) :
    (setTalloc t i r ix).keep.talloc.getD i (0, 0) = (BitVec.ofNat 2 r, ix) := updAt_getD_self _ _ _ _ hi

end

/-- Settles O37: a command on a Tally is its effect on that Tally, an allocation one of the three outcomes of R275. -/
theorem tallyCommands : Obligations.TallyCommands := by
  intro s who i arg hi x same
  have same_of {t : State} {y : Tally} (h : OnTally i s t y) : same t := ⟨h.other, h.spires, h.tiles, h.data⟩
  have start (op : BitVec 3) : OnTally i s (updTally s i fun x => { x with arg := arg, op := op }) { x with arg := arg, op := op } :=
    (OnTally.rfl_ i s).upd fun x => { x with arg := arg, op := op }
  refine ⟨?grant, ?queueOrRefuse, ?held, ?notHeld, ?target⟩
  case grant =>
    intro n hadm hinst hnot hquota hfree
    refine ⟨_, exec_tallyAlloc hadm, ?_⟩
    rw [tallyAlloc_grant hnot hquota hfree]
    cases who <;> exact ⟨getTally_putTally s n _, setTalloc_own (putTally s n _) 1 n hinst, fun j hj => getTally_putTally_ne s _ hj, rfl⟩
  case queueOrRefuse =>
    intro hadm hinst hnot below
    constructor
    · intro hquota hfree hroom
      refine ⟨_, exec_tallyAlloc hadm, answeredOk_answerTo who 0 0 _, ?_⟩
      rw [tallyAlloc_queue hnot hquota hfree hroom]
      cases who <;> exact ⟨rfl, setTalloc_own s 2 0 hinst, fun j hj => updAt_getD_ne _ _ _ hj, rfl⟩
    · intro hno hpart
      refine ⟨_, exec_tallyAlloc hadm, ?_⟩
      rw [tallyAlloc_refuse hnot hno]
      have counted := getPart_updPart (setTalloc s (instOf who) 3 0) (partOf who)
        (fun q => { q with cnt := { q.cnt with talRefused := satInc q.cnt.talRefused } }) hpart
      cases who <;> exact ⟨setTalloc_own s 3 0 hinst, rfl, rfl, (congrArg (fun q => q.cnt.talRefused) counted :),
        fun p hp => getPart_updPart_ne (setTalloc s _ 3 0) _ hp⟩
  case held =>
    intro hadm hheld
    refine ⟨?add, ?wait, ?unwait, ?free⟩
    case add =>
      intro harg
      obtain ⟨t, run, effect⟩ := tallyCommand (c := .add who i arg) hi (by decide) hadm rfl ((start 1).add hheld harg)
      refine ⟨t, run, ?_⟩
      rw [effect.own]
      exact ⟨rfl, rfl, fun hd => if_pos hd, fun hd => if_neg (Nat.not_le_of_lt hd), same_of effect⟩
    case wait =>
      intro tile htile hpart hcount hnew hquota
      obtain ⟨t, run, effect⟩ := tallyCommand (c := .wait who i arg) hi (by decide) hadm rfl ((start 2).wait hheld htile hpart hcount hnew hquota)
      refine ⟨t, run, ?_⟩
      rw [effect.own]
      exact ⟨rfl, rfl, rfl, same_of effect⟩
    case unwait =>
      obtain ⟨t, run, effect⟩ := tallyCommand (c := .unwait who i arg) hi (by decide) hadm rfl ((start 3).unwait hheld)
      refine ⟨t, run, ?_⟩
      rw [effect.own]
      exact ⟨rfl, rfl, rfl, same_of effect⟩
    case free =>
      intro hq
      obtain ⟨t, run, effect⟩ := tallyCommand (c := .free who i arg) hi (by decide) hadm rfl ((start 4).free hheld hq)
      refine ⟨t, run, ?_⟩
      rw [effect.own]
      exact ⟨rfl, rfl, rfl, same_of effect⟩
  case notHeld =>
    intro hadm hheld c hc
    have refused (op : Nat) (hop : op < 8) (hexec : exec c s = .next (tallyWrite s who i 3 (talCmdWord op arg))) :
        ∃ t, exec c s = .next t ∧ (getTally t i).result = BitVec.ofNat 3 trNotalloc ∧ (getTally t i).count = x.count ∧ (getTally t i).held = false ∧ same t := by
      obtain ⟨t, run, effect⟩ := tallyCommand hi hop hadm hexec ((start (BitVec.ofNat 3 op)).notHeld op hheld)
      refine ⟨t, run, ?_⟩
      rw [effect.own]
      exact ⟨rfl, rfl, hheld, same_of effect⟩
    rcases List.mem_cons.1 hc with rfl | hc
    · exact refused 1 (by decide) rfl
    rcases List.mem_cons.1 hc with rfl | hc
    · exact refused 2 (by decide) rfl
    rcases List.mem_cons.1 hc with rfl | hc
    · exact refused 3 (by decide) rfl
    cases List.mem_singleton.1 hc
    exact refused 4 (by decide) rfl
  case target =>
    intro v hadm
    have effect : OnTally i s (answerTo who true 0 0 0 (tallyTarget s i v)) (if v.toNat ≤ x.count.toNat then { x with target := v, waiters := [] } else { x with target := v }) :=
      (((OnTally.rfl_ i s).upd fun x => { x with target := v }).check).answer who 0
    refine ⟨answerTo who true 0 0 0 (tallyTarget s i v), congrArg Host.Outcome.next (tallyWrite_eq v hi (by decide) hadm), ?_⟩
    rw [effect.own]
    refine ⟨?_, ?_, fun hd => (congrArg Tally.waiters (if_pos hd) :), same_of effect⟩ <;> split <;> rfl

end Sys2Proof.Machine
end

section
/-! Privileged commands (R533, R534). -/

set_option Elab.async false

namespace Sys2Proof.Machine

/-! ### A field of a register read again after it was written -/

theorem setFld_toNat {w : Nat} (x : BitVec w) {lo len : Nat} (v : Nat) (h : lo + len ≤ w) :
    (setFld x lo len v).toNat = (x.toNat / 2 ^ (lo + len) * 2 ^ len + v % 2 ^ len) * 2 ^ lo + x.toNat % 2 ^ lo := by
  have hlt := x.isLt
  have hpow : 2 ^ (lo + len) = 2 ^ lo * 2 ^ len := pow_add 2 lo len
  have split : x.toNat = (x.toNat / 2 ^ (lo + len) * 2 ^ len + fld x lo len) * 2 ^ lo + x.toNat % 2 ^ lo := by
    have inner : x.toNat / 2 ^ lo = x.toNat / 2 ^ (lo + len) * 2 ^ len + fld x lo len := by
      rw [fld, Nat.shiftRight_eq_div_pow, hpow, ← Nat.div_div_eq_div_mul, Nat.mul_comm]
      exact (Nat.div_add_mod _ _).symm
    rw [← inner, Nat.mul_comm]
    exact (Nat.div_add_mod _ _).symm
  have small : (x.toNat / 2 ^ (lo + len) * 2 ^ len + v % 2 ^ len) * 2 ^ lo + x.toNat % 2 ^ lo < 2 ^ w := by
    obtain ⟨k, rfl⟩ := Nat.exists_eq_add_of_le h
    have hq : x.toNat / 2 ^ (lo + len) < 2 ^ k := Nat.div_lt_of_lt_mul (by rwa [← pow_add])
    have hv : v % 2 ^ len < 2 ^ len := Nat.mod_lt _ (Nat.two_pow_pos _)
    have ht : x.toNat % 2 ^ lo < 2 ^ lo := Nat.mod_lt _ (Nat.two_pow_pos _)
    have h1 : x.toNat / 2 ^ (lo + len) * 2 ^ len + v % 2 ^ len + 1 ≤ 2 ^ k * 2 ^ len :=
      calc _ ≤ x.toNat / 2 ^ (lo + len) * 2 ^ len + 2 ^ len := by omega
        _ = (x.toNat / 2 ^ (lo + len) + 1) * 2 ^ len := by ring
        _ ≤ 2 ^ k * 2 ^ len := Nat.mul_le_mul_right _ hq
    calc _ < (x.toNat / 2 ^ (lo + len) * 2 ^ len + v % 2 ^ len) * 2 ^ lo + 2 ^ lo := by omega
      _ = (x.toNat / 2 ^ (lo + len) * 2 ^ len + v % 2 ^ len + 1) * 2 ^ lo := by ring
      _ ≤ 2 ^ k * 2 ^ len * 2 ^ lo := Nat.mul_le_mul_right _ h1
      _ = 2 ^ (lo + len + k) := by rw [pow_add, pow_add]; ring
  rw [setFld, BitVec.toNat_ofNat]
  conv_lhs => rw [show x.toNat - fld x lo len * 2 ^ lo + v % 2 ^ len * 2 ^ lo =
    (x.toNat / 2 ^ (lo + len) * 2 ^ len + v % 2 ^ len) * 2 ^ lo + x.toNat % 2 ^ lo by
      conv_lhs => rw [split]
      rw [Nat.add_mul, Nat.add_mul]
      omega]
  exact Nat.mod_eq_of_lt small

/-- The field that was written. -/
theorem fld_setFld {w : Nat} (x : BitVec w) {lo len : Nat} (v : Nat) (h : lo + len ≤ w) : fld (setFld x lo len v) lo len = v % 2 ^ len := by
  rw [fld, setFld_toNat x v h, Nat.shiftRight_eq_div_pow, Nat.mul_comm, Nat.mul_add_div (Nat.two_pow_pos _),
    Nat.div_eq_of_lt (Nat.mod_lt _ (Nat.two_pow_pos _)), Nat.add_zero, Nat.add_comm, Nat.add_mul_mod_self_right, Nat.mod_mod]

/-- A field below the one that was written. -/
theorem fld_setFld_below {w : Nat} (x : BitVec w) {lo len a n : Nat} (v : Nat) (h : lo + len ≤ w) (hb : a + n ≤ lo) :
    fld (setFld x lo len v) a n = fld x a n := by
  have low (y : Nat) : (y >>> a) % 2 ^ n = ((y % 2 ^ lo) >>> a) % 2 ^ n := by
    obtain ⟨k, rfl⟩ := Nat.exists_eq_add_of_le hb
    rw [Nat.shiftRight_eq_div_pow, Nat.shiftRight_eq_div_pow, show a + n + k = a + (n + k) by omega, pow_add, Nat.mod_mul_right_div_self, pow_add,
      Nat.mod_mul_right_mod]
  rw [fld, fld, low, low x.toNat, setFld_toNat x v h, Nat.add_comm, Nat.add_mul_mod_self_right, Nat.mod_mod]

theorem bitOf_setFld {w : Nat} (x : BitVec w) {b : Nat} (h : b < w) : bitOf (setFld x b 1 1) b = true := by
  have field := fld_setFld x (lo := b) (len := 1) 1 h
  rw [fld_one] at field
  cases hb : (setFld x b 1 1).getLsbD b
  · rw [hb] at field; exact absurd field (by decide)
  · exact hb

/-! ### Privileged commands (R533, R534) -/

/-- The grounds of refusal look at the argument, at the commands queued, and not at what KEEP_CMD holds. -/
theorem cmdIssueCause_updCmd (s : State) (i j : Nat) (f : CmdInst → CmdInst) (hf : ∀ c, (f c).queued = c.queued) (v b : W32) :
    cmdIssueCause (updCmd s i f) j v b = cmdIssueCause s j v b := by
  have same (c : CmdInst) (k : Nat) (l : List CmdInst) : ((updAt l k f).getD j c).queued = (l.getD j c).queued := by
    by_cases hk : j = k
    · subst hk
      by_cases hlen : j < l.length
      · rw [updAt_getD_self _ _ _ _ hlen, hf]
      · rw [updAt, List.modify_eq_self (Nat.le_of_not_lt hlen)]
    · rw [updAt_getD_ne _ _ _ hk]
  have queued : (getCmd (updCmd s i f) j).queued = (getCmd s j).queued := same _ _ _
  have any (p : W32 → Bool) (l : List CmdInst) (k : Nat) : (updAt l k f).any (fun c => c.queued.any p) = l.any fun c => c.queued.any p := by
    induction l generalizing k with
    | nil => cases k <;> rfl
    | cons c l ih =>
      cases k with
      | zero => simp [updAt, hf]
      | succ k =>
        have := ih k
        simp only [updAt, List.modify_succ_cons, List.any_cons] at this ⊢
        rw [this]
  have kind : kindQueued (updCmd s i f) v = kindQueued s v := by
    have := any (fun u : W32 => cmdOp u == cmdOp v && cmdPart s u == cmdPart s v) s.keep.cmd i
    rw [kindQueued, kindQueued]
    exact congrArg (fun q => q || s.belfry.cmds.any _ || _) this
  rw [cmdIssueCause, cmdIssueCause, queued, kind]
  rfl

section
variable {s : State} {who : Requester} {w : W32}

/-- What GO leaves in KEEP_CMD: the word without GO and without the bits above it. -/
def issued (w : W32) : W32 := setFld (setFld w 28 1 0) 29 3 0

theorem cmdWrite_issue (hgo : cmdGo w = true) (may : mayCommand s who w = true) (hlock : pathOf who ≠ 0 ∨ lockSet s lkCmdMgmt = false) :
    cmdWrite s who w = (issueCmd (updCmd s (instOf who) fun c => { c with cmd := issued w }) (instOf who) (issued w), rspOk) := by
  have lock : (lockSet s lkCmdMgmt && pathOf who == 0) = false := by
    rcases hlock with h | h <;> simp [h]
  have go : ¬ (!cmdGo w) = true := by rw [hgo]; exact Bool.false_ne_true
  have right : ¬ (!mayCommand s who w || (lockSet s lkCmdMgmt && pathOf who == 0)) = true := by
    rw [may, lock]; exact Bool.false_ne_true
  exact (if_neg go).trans (if_neg right)

theorem cmdWrite_denied (hgo : cmdGo w = true) (may : mayCommand s who w = false) : cmdWrite s who w = (s, rspDenied) := by
  have go : ¬ (!cmdGo w) = true := by rw [hgo]; exact Bool.false_ne_true
  exact (if_neg go).trans (if_pos (by rw [may]; rfl))

/-- A command issued: it stands as the write of KEEP_CMD left it, but for what the issue sets. -/
theorem issueCmd_write (hinst : instOf who < s.keep.cmd.length) (v : W32) :
    let u := updCmd s (instOf who) fun c => { c with cmd := v }
    getCmd u (instOf who) = { getCmd s (instOf who) with cmd := v } ∧ instOf who < u.keep.cmd.length ∧
      cmdIssueCause u (instOf who) v (getCmd u (instOf who)).arg = cmdIssueCause s (instOf who) v (getCmd s (instOf who)).arg := by
  intro u
  have own : getCmd u (instOf who) = { getCmd s (instOf who) with cmd := v } := getCmd_updCmd s _ _ hinst
  refine ⟨own, ?_, ?_⟩
  · change instOf who < (updAt s.keep.cmd _ _).length
    rwa [length_updAt]
  · rw [own]
    exact cmdIssueCause_updCmd s _ _ (fun c => { c with cmd := v }) (fun _ => rfl) v _

end

theorem writeLoc_aCmd (s : State) (who : Requester) (a : AccessInfo) (w : W32) : writeLoc s who a (locOf s aCmd) w = cmdWrite s who w := rfl

theorem getCmd_answerTo (who : Requester) (wr : Bool) (tag : BitVec 4) (data : W32) (code : Nat) (t : State) (i : Nat) :
    getCmd (answerTo who wr tag data code t) i = getCmd t i := by rw [getCmd, getCmd, answerTo_keep]

theorem cmdGo_cmdWord (w : W32) (op : Nat) : cmdGo (cmdWord w op) = true := bitOf_setFld _ (by decide)

/-- A write of KEEP_CMD that has not the right: it changes no command, and its event is DENIED. -/
theorem cmdWrite_denied_effect {s : State} {who : Requester} {w : W32} (hadm : admitted s who true aCmd = true)
    (hw : cmdWrite s who w = (s, rspDenied)) :
    namedWrite s who aCmd w = answerTo who true 0 0 rspDenied (accEvent s (accessInfo s who true aCmd w) acDenied) := by
  have h := admitted_iff.1 hadm
  rw [namedWrite, request_eq _ _ _ _ _ h.path, access_admitted h, if_pos rfl, writeLoc_aCmd, hw]
  rfl

/-- Settles O41: GO of KEEP_CMD issues the command, refuses it, or is denied. -/
theorem privilegedCommands : Obligations.PrivilegedCommands := by
  intro s who w hadm hinst hlock x hx v b
  have hexec : exec x.1 s = .next (namedWrite s who aCmd (cmdWord w x.2)) := by
    simp only [List.mem_cons, List.not_mem_nil, or_false] at hx
    rcases hx with rfl | rfl | rfl | rfl <;> rfl
  have hv : v = issued (cmdWord w x.2) := rfl
  clear_value v
  generalize hword : cmdWord w x.2 = word at *
  have hgo : cmdGo word = true := hword ▸ cmdGo_cmdWord w x.2
  obtain ⟨own, hlen, cause⟩ := issueCmd_write hinst v
  have taken (may : mayCommand s who word = true) : exec x.1 s = .next (answerTo who true 0 0 0
      (issueCmd (updCmd s (instOf who) fun c => { c with cmd := v }) (instOf who) v)) := by
    rw [hexec]
    rw [hv]
    exact congrArg _ (request_write 0 hadm ((writeLoc_aCmd _ _ _ _).trans (cmdWrite_issue hgo may hlock)))
  refine ⟨fun may none_ idle => ⟨_, taken may, answeredOk_answerTo who 0 0 _, ?_⟩, fun n may some_ => ⟨_, taken may, answeredOk_answerTo who 0 0 _, ?_⟩,
    fun may => ⟨_, hexec.trans (congrArg _ (cmdWrite_denied_effect hadm (cmdWrite_denied hgo may))), ?_⟩⟩
  · have run : issueCmd (updCmd s (instOf who) fun c => { c with cmd := v }) (instOf who) v =
        { updCmd (updCmd s (instOf who) fun c => { c with cmd := v }) (instOf who) (fun y => { y with running := some v, res := cmdRes v crQueued 0, shown := 1 }) with
          belfry := { s.belfry with cmds := s.belfry.cmds ++ [⟨instOf who, v, b⟩] } } := by
      unfold issueCmd
      dsimp only
      rw [cause, none_, own]
      dsimp only
      rw [idle]
      rfl
    have inst := getCmd_updCmd (updCmd s (instOf who) fun c => { c with cmd := v }) (instOf who)
      (fun y => { y with running := some v, res := cmdRes v crQueued 0, shown := 1 }) hlen
    have others (i : Nat) (hi : i ≠ instOf who) := (getCmd_updCmd_ne (updCmd s (instOf who) fun c => { c with cmd := v })
      (fun y => { y with running := some v, res := cmdRes v crQueued 0, shown := 1 }) hi).trans (getCmd_updCmd_ne s (fun c => { c with cmd := v }) hi)
    rw [run]
    cases who <;> exact ⟨(congrArg CmdInst.running inst :), (congrArg CmdInst.res inst :), rfl, others, rfl, rfl, rfl⟩
  · have run : issueCmd (updCmd s (instOf who) fun c => { c with cmd := v }) (instOf who) v =
        updCmd (updCmd s (instOf who) fun c => { c with cmd := v }) (instOf who) (fun y => { y with res := cmdRes v crRefused n, shown := 0 }) := by
      unfold issueCmd
      dsimp only
      rw [cause, some_]
    have inst := getCmd_updCmd (updCmd s (instOf who) fun c => { c with cmd := v }) (instOf who)
      (fun y => { y with res := cmdRes v crRefused n, shown := 0 }) hlen
    have res := congrArg CmdInst.res inst
    have running := Eq.trans (congrArg CmdInst.running inst :) (congrArg CmdInst.running own :)
    rw [run, getCmd_answerTo]
    refine ⟨res, running, ?_, ?_⟩ <;> cases who <;> rfl
  · have same := accEvent_same s (accessInfo s who true aCmd word) acDenied
    have bit := accEvent_getLsbD s (accessInfo s who true aCmd word) (cause := acDenied) (by decide)
    cases who <;> exact ⟨same .cmd (by decide), same.belfry_eq, bit, same .tiles (by decide)⟩

end Sys2Proof.Machine
end

section
/-! Meter periods, the wall clock and dumps (R467, R476 to R493). -/

set_option Elab.async false

namespace Sys2Proof.Machine

/-! ### Meters (R467, R486, R487) -/

/-- Partition `p`'s meters are at 0. -/
def MetersZero (s : State) (p : Nat) : Prop := ∀ m ∈ (getPart s p).cnt.meters, m = 0

theorem metersZero_of_zeroed (s : State) (p : Nat) (f : Part → Part) (hf : ∀ q, (f q).cnt.meters = q.cnt.meters.map fun _ => 0) :
    MetersZero (updPart s p f) p := by
  intro m hm
  by_cases hlen : p < s.parts.length
  · rw [getPart_updPart s p f hlen, hf] at hm
    obtain ⟨_, _, rfl⟩ := List.mem_map.1 hm
    rfl
  · rw [updPart_of_length_le s f (Nat.le_of_not_lt hlen), getPart, List.getD_eq_default _ _ (Nat.le_of_not_lt hlen)] at hm
    exact List.eq_of_mem_replicate hm

/-- Work on the partitions in turn, each of which zeroes its own meters and no meter of another, ends with all at 0. -/
theorem metersZero_foldl (f : State → Nat → State) (own : ∀ s p, MetersZero (f s p) p)
    (other : ∀ s p q, q ≠ p → (getPart (f s p) q).cnt.meters = (getPart s q).cnt.meters) (l : List Nat) (s : State) (q : Nat)
    (h : q ∈ l ∨ MetersZero s q) : MetersZero (l.foldl f s) q := by
  induction l generalizing s with
  | nil => exact h.resolve_left List.not_mem_nil
  | cons p l ih =>
    refine ih _ ?_
    by_cases hq : q = p
    · exact .inr (hq ▸ own s p)
    · rcases h with h | h
      · exact .inl ((List.mem_cons.1 h).resolve_left hq)
      · right
        intro m hm
        rw [other s p q hq] at hm
        exact h m hm

theorem logMeter_getPart_ne (s : State) (p : Nat) (r : Rec) {q : Nat} (hq : q ≠ p) : getPart (logMeter s p r) q = getPart s q :=
  getPart_updPart_ne s _ hq

theorem foldl_logMeter_getPart_ne (s : State) (p : Nat) (rs : List Rec) {q : Nat} (hq : q ≠ p) :
    getPart (rs.foldl (fun s r => logMeter s p r) s) q = getPart s q := by
  induction rs generalizing s with
  | nil => rfl
  | cons r rs ih => exact (ih _).trans (logMeter_getPart_ne s p r hq)

theorem foldl_logMeter_mtr (s : State) (p : Nat) (rs : List Rec) : (rs.foldl (fun s r => logMeter s p r) s).mtr = s.mtr := by
  induction rs generalizing s with
  | nil => rfl
  | cons r rs ih => exact ih _

theorem meterOut_getPart_ne (s : State) (p : Nat) (rs : List Rec) {q : Nat} (hq : q ≠ p) : getPart (meterOut s p rs) q = getPart s q := by
  unfold meterOut
  split
  · rfl
  · exact foldl_logMeter_getPart_ne s p rs hq

theorem foldl_pnum (f : State → Nat → State) (h : ∀ s p, (f s p).mtr.pnum = s.mtr.pnum) (l : List Nat) (s : State) :
    (l.foldl f s).mtr.pnum = s.mtr.pnum := by
  induction l generalizing s with
  | nil => rfl
  | cons p l ih => exact (ih _).trans (h s p)

theorem closePart_pnum (how : PeriodEnd) (tick endLabel : W64) (s : State) (p : Nat) : (closePart how tick endLabel s p).mtr.pnum = s.mtr.pnum := by
  change (meterOut s p _).mtr.pnum = _
  unfold meterOut
  split
  · rfl
  · exact congrArg Mtr.pnum (foldl_logMeter_mtr s p _)

theorem closePart_meters (how : PeriodEnd) (tick endLabel : W64) (s : State) (p : Nat) :
    MetersZero (closePart how tick endLabel s p) p ∧
      ∀ q, q ≠ p → (getPart (closePart how tick endLabel s p) q).cnt.meters = (getPart s q).cnt.meters :=
  ⟨metersZero_of_zeroed _ _ _ fun _ => rfl, fun q hq => by
    rw [closePart]
    exact congrArg (fun x : Part => x.cnt.meters) ((getPart_updPart_ne _ _ hq).trans (meterOut_getPart_ne _ _ _ hq))⟩

/-- R488: the meters of a partition after a period that was closed early. -/
def zeroMeters (s : State) (p : Nat) : State := updPart s p fun q => { q with cnt := { q.cnt with meters := q.cnt.meters.map fun _ => 0 } }

/-- R467: the partitions as a boundary leaves them. -/
def closedParts (s : State) : State :=
  if s.mtr.closed then (List.range Config.parts).foldl zeroMeters s
  else (List.range Config.parts).foldl (closePart .boundary (BitVec.ofNat 64 (periodEnd s - 1)) (labelAt s (periodEnd s))) s

theorem closedParts_metersZero (s : State) {p : Nat} (hp : p < 16) : MetersZero (closedParts s) p := by
  have hmem : p ∈ List.range Config.parts := List.mem_range.2 hp
  unfold closedParts
  split
  · exact metersZero_foldl zeroMeters (fun s p => metersZero_of_zeroed s p _ fun _ => rfl)
      (fun s p q hq => by rw [zeroMeters, getPart_updPart_ne s _ hq]) _ s p (.inl hmem)
  · exact metersZero_foldl _ (fun s p => (closePart_meters _ _ _ s p).1) (fun s p => (closePart_meters _ _ _ s p).2) _ s p (.inl hmem)

theorem closedParts_pnum (s : State) : (closedParts s).mtr.pnum = s.mtr.pnum := by
  unfold closedParts
  split
  · exact foldl_pnum zeroMeters (fun _ _ => rfl) _ s
  · exact foldl_pnum (closePart .boundary _ _) (closePart_pnum _ _ _) _ s

/-- R487: at its boundary a period ends in every partition, and the next one begins. -/
theorem closePeriod_boundary (s : State) : ∃ m : Mtr, closePeriod s .boundary = { closedParts s with mtr := m } ∧
    m.pnum = (closedParts s).mtr.pnum + 1 ∧ m.closed = false ∧ m.pstart = BitVec.ofNat 64 (periodEnd s) := by
  have known : closedParts s = closedParts s := rfl
  conv at known => lhs; unfold closedParts
  unfold zeroMeters at known
  unfold closePeriod
  simp only [if_true]
  generalize closedParts s = u at known ⊢
  rw [known]
  exact ⟨_, rfl, rfl, rfl, rfl⟩

/-! ### What an answer leaves -/

theorem answerTo_frame (who : Requester) (wr : Bool) (tag : BitVec 4) (data : W32) (code : Nat) (t : State) :
    answerTo who wr tag data code t = { t with csr := (answerTo who wr tag data code t).csr, mgmt := (answerTo who wr tag data code t).mgmt } := by
  unfold answerTo
  split <;> rfl

theorem getPart_answerTo (who : Requester) (wr : Bool) (tag : BitVec 4) (data : W32) (code : Nat) (t : State) (p : Nat) :
    getPart (answerTo who wr tag data code t) p = getPart t p := by rw [answerTo_frame]; rfl

theorem getPart_of_parts {s t : State} (h : t.parts = s.parts) (p : Nat) : getPart t p = getPart s p := by rw [getPart, getPart, h]

theorem answerTo_trc (who : Requester) (wr : Bool) (tag : BitVec 4) (data : W32) (code : Nat) (t : State) :
    (answerTo who wr tag data code t).trc = t.trc := by rw [answerTo_frame]

/-! ### Dumps (R476, R479, R480, R493) -/

section
variable {s : State} {who : Requester} {w : W32}

/-- GO of TRC_DCTL by a requester whose dump it is: the register takes the write's bits, and one dump at most is armed. -/
theorem dumpCommand_busy (hgo : bitOf w 21 = true) (hown : partOf who = 0 ∨ partOf who = fld w 0 4) {a : ArmedDump}
    (harmed : (getPart s (fld w 0 4)).armed = some a) : ∃ v : State, v.parts = s.parts ∧ dumpCommand s who w = dumpResult v 3 := by
  have go : ¬ (!bitOf w 21) = true := by rw [hgo]; exact Bool.false_ne_true
  have own : ¬ (partOf who ≠ 0 ∧ partOf who ≠ fld w 0 4) := fun h => hown.elim h.1 h.2
  unfold dumpCommand
  dsimp only
  rw [if_neg go, if_neg own]
  generalize hv : ({ s with trc := _ } : State) = v
  have parts : v.parts = s.parts := hv ▸ rfl
  rw [harmed]
  exact ⟨v, parts, rfl⟩

theorem dumpCommand_arms (hgo : bitOf w 21 = true) (hown : partOf who = 0 ∨ partOf who = fld w 0 4) (hfree : (getPart s (fld w 0 4)).armed = none) :
    ∃ (v : State) (a : ArmedDump) (pay : List W32), v.parts = s.parts ∧ a.tensor = s.trc.dctl.1 ∧ a.step = s.trc.dctl.2.1 ∧
      dumpCommand s who w = dumpResult (post (updPart v (fld w 0 4) fun q => { q with armed := some a }) (fld w 0 4) .dumpReq 0xFFFF pay) 1 := by
  have go : ¬ (!bitOf w 21) = true := by rw [hgo]; exact Bool.false_ne_true
  have own : ¬ (partOf who ≠ 0 ∧ partOf who ≠ fld w 0 4) := fun h => hown.elim h.1 h.2
  unfold dumpCommand
  dsimp only
  rw [if_neg go, if_neg own]
  generalize hv : ({ s with trc := _ } : State) = v
  have parts : v.parts = s.parts := hv ▸ rfl
  rw [hfree]
  exact ⟨v, ⟨_, _, _⟩, _, parts, rfl, rfl, rfl⟩

theorem writeLoc_aDctl (s : State) (who : Requester) (a : AccessInfo) (w : W32) : writeLoc s who a (locOf s aDctl) w = (dumpCommand s who w, rspOk) := rfl

theorem exec_dumpCommand (w : W32) (hadm : admitted s who true aDctl = true) :
    exec (.dumpCommand who w) s = .next (answerTo who true 0 0 0 (dumpCommand s who (setFld w 21 1 1))) := by
  have run : exec (.dumpCommand who w) s = .next (request s who true aDctl (setFld w 21 1 1) 0 true) := rfl
  rw [run, request_write 0 hadm (writeLoc_aDctl _ _ _ _)]

end

/-- R493: the result that TRC_DCTL shows. -/
theorem dumpResult_result (s : State) {r : Nat} (hr : r < 8) : fld (dumpResult s r).trc.dctl.2.2 22 3 = r :=
  (fld_setFld _ (lo := 22) (len := 3) r (by decide)).trans (Nat.mod_eq_of_lt hr)

theorem getPart_dumpResult (s : State) (r p : Nat) : getPart (dumpResult s r) p = getPart s p :=
  getPart_of_parts ((dumpResult_keeps r (Keeps.rfl_ _ s) (List.Subset.refl _)).same .parts (by decide)) p

/-- A note changes, of its partition, its notes alone. -/
theorem post_getPart {α : Type} (g : Part → α) (hg : ∀ x l, g { x with logs := { x.logs with notes := l } } = g x) (s : State) (p q : Nat) (k : NoteKind)
    (sp : Nat) (pay : List W32) : g (getPart (post s p k sp pay) q) = g (getPart s q) :=
  getPart_updPart_proj g s p q _ fun x => hg x _

theorem post_prod {s : State} {p : Nat} (k : NoteKind) (sp : Nat) (pay : List W32) (h : p < s.parts.length) :
    (getPart (post s p k sp pay) p).logs.notes.prod = (getPart s p).logs.notes.prod + 1 :=
  congrArg (fun q : Part => q.logs.notes.prod) (getPart_updPart s p _ h)

/-- R479, R486: the first dump of the partition is written. -/
theorem exec_dumpDone {s : State} {p : Nat} {j : DumpJob} {rest : List DumpJob} (hp : p < s.parts.length) (hq : (getPart s p).dumpQ = j :: rest) :
    ∃ t, exec (.dumpDone p) s = .next t ∧ (getPart t p).dumpQ = rest ∧ t.trc.dumps = satInc s.trc.dumps ∧
      ∃ x ∈ (getPart t p).logs.dumps, x.2 = cutDump ((s.image.map (·.base.tdumpSize)).getD 0) (tdumpRec s p j) := by
  change ∃ t, execDumpDone p s = .next t ∧ _
  unfold execDumpDone
  rw [hq]
  dsimp only
  refine ⟨_, rfl, ?_⟩
  generalize hx : storeDump _ (cutDump _ (tdumpRec s p j)) (getPart s p).logs = x
  generalize hu : updPart s p (fun q : Part => { q with dumpQ := rest, logs := x.2 }) = u
  have own : getPart u p = { getPart s p with dumpQ := rest, logs := x.2 } := by rw [← hu]; exact getPart_updPart s p _ hp
  generalize hw : subUse (addMeter u p mDump _) p _ = w
  have metered {α : Type} (g : Part → α) (cnt : ∀ q c, g { q with cnt := c } = g q) : g (getPart w p) = g (getPart u p) := by
    rw [← hw]
    exact (getPart_updPart_proj g _ p p _ fun q => cnt q _).trans (getPart_updPart_proj g u p p _ fun q => cnt q _)
  have dumps : w.trc.dumps = s.trc.dumps := by rw [← hw, ← hu]; rfl
  generalize hv : nearPush _ (NearItem.dump p x.1) = v
  have left : v.parts = w.parts ∧ v.trc.dumps = satInc w.trc.dumps := by
    rw [← hv]
    split <;> exact ⟨rfl, rfl⟩
  rw [post_getPart Part.dumpQ fun _ _ => rfl, post_getPart (fun q => q.logs.dumps) fun _ _ => rfl, getPart_of_parts left.1,
    metered Part.dumpQ fun _ _ => rfl, metered (fun q => q.logs.dumps) fun _ _ => rfl, own]
  refine ⟨rfl, left.2.trans (congrArg satInc dumps), ?_⟩
  rw [← hx]
  exact ⟨_, List.mem_append_right _ (List.mem_singleton_self _), rfl⟩

/-- Settles O40: the meter period, and the commands that a write of their register gives. -/
theorem meterAndLabelCommands : Obligations.MeterAndLabelCommands := by
  refine ⟨?period, ?before, ?label, ?erg, ?dump, ?done⟩
  case period =>
    intro s hdue
    have same := (closePeriod_keeps .boundary (Keeps.rfl_ _ s) (List.Subset.refl _)).same
    obtain ⟨m, run, pnum, isOpen, pstart⟩ := closePeriod_boundary s
    have spires := same .spires (by decide)
    have bytes := same.bytes_eq.1
    rw [run] at spires bytes
    exact ⟨_, congrArg Host.Outcome.next ((if_pos hdue).trans run), pnum.trans (congrArg (· + 1) (closedParts_pnum s)), isOpen, pstart,
      fun p hp => closedParts_metersZero s hp, spires, bytes⟩
  case before =>
    intro s hdue
    exact congrArg Host.Outcome.next (if_neg (by rw [hdue]; exact Bool.false_ne_true))
  case label =>
    intro s who hadm hlock
    have written : mtrWrite s who 0x28 1 = (wallClockSet s, rspOk) := by
      refine (if_neg ?_).trans (congrArg (·, rspOk) (if_pos rfl))
      rintro ⟨_, lock, path⟩
      rcases hlock with h | h
      · exact Bool.false_ne_true (h.symm.trans lock)
      · exact h path
    refine ⟨_, congrArg Host.Outcome.next (request_write 0 hadm written), answeredOk_answerTo who 0 0 _, ?_⟩
    cases who <;> exact ⟨rfl, rfl⟩
  case erg =>
    intro s who hadm hpart
    refine ⟨answerTo who true 0 0 0 (ergClear s who), congrArg Host.Outcome.next (request_write 0 hadm rfl), answeredOk_answerTo who 0 0 _, ?_⟩
    have own : (updAt s.erg.clrPend (partOf who) fun _ => true).getD (partOf who) false = true := updAt_getD_self _ _ _ _ hpart
    cases who <;> exact ⟨own, fun i hi => updAt_getD_ne _ _ _ hi, rfl⟩
  case dump =>
    intro s who w hadm hpart hown
    have hgo : bitOf (setFld w 21 1 1) 21 = true := bitOf_setFld w (by decide)
    have hp : fld (setFld w 21 1 1) 0 4 = fld w 0 4 := fld_setFld_below w 1 (by decide) (by decide)
    refine ⟨fun hfree => ?arms, fun a harmed => ?busy⟩
    case arms =>
      obtain ⟨v, a, pay, parts, tensor, step, run⟩ := dumpCommand_arms hgo (by rw [hp]; exact hown) (by rw [hp]; exact hfree)
      rw [hp] at run
      refine ⟨_, a, exec_dumpCommand w hadm, ?_⟩
      have hv : fld w 0 4 < v.parts.length := by rw [parts]; exact hpart
      have hlen : fld w 0 4 < (updPart v (fld w 0 4) fun q => { q with armed := some a }).parts.length := hv.trans_eq (length_updAt _ _ _).symm
      rw [run, getPart_answerTo, answerTo_trc, dumpResult_result _ (by decide), getPart_dumpResult, post_prod _ _ _ hlen, post_getPart Part.armed fun _ _ => rfl,
        getPart_updPart _ _ _ hv, getPart_of_parts parts]
      exact ⟨rfl, tensor, step, rfl, rfl⟩
    case busy =>
      obtain ⟨v, parts, run⟩ := dumpCommand_busy hgo (by rw [hp]; exact hown) (by rw [hp]; exact harmed)
      refine ⟨_, exec_dumpCommand w hadm, ?_⟩
      rw [run, getPart_answerTo, answerTo_trc, dumpResult_result _ (by decide), getPart_dumpResult, getPart_of_parts parts]
      exact ⟨harmed, rfl⟩
  case done =>
    intro s p j rest hp hq
    obtain ⟨t, run, kept⟩ := execDumpDone_keeps p (Keeps.rfl_ _ s) (List.Subset.refl _)
    obtain ⟨u, done, queue, count, dumps⟩ := exec_dumpDone hp hq
    cases Host.Outcome.next.inj (run.symm.trans done)
    exact ⟨_, done, queue, count, dumps, kept.same .spires (by decide), kept.same.bytes_eq.1⟩

end Sys2Proof.Machine
end

section
/-! Parity mismatches and reloads (R509 to R512). -/

set_option Elab.async false

namespace Sys2Proof.Machine

/-- A field of one bit set. -/
theorem setFld_bit_one {w : Nat} (x : BitVec w) {u : Nat} (hu : u < w) : setFld x u 1 1 = (x &&& ~~~ BitVec.twoPow w u) ||| BitVec.twoPow w u := by
  have apart : (x &&& ~~~ BitVec.twoPow w u) &&& BitVec.twoPow w u = 0#w := by
    apply BitVec.eq_of_getLsbD_eq
    intro i hi
    simp only [BitVec.getLsbD_and, BitVec.getLsbD_not, BitVec.getLsbD_zero, hi, decide_true, Bool.true_and]
    cases x.getLsbD i <;> cases (BitVec.twoPow w u).getLsbD i <;> rfl
  have zero := setFld_toNat x (lo := u) (len := 1) 0 hu
  have one := setFld_toNat x (lo := u) (len := 1) 1 hu
  rw [← BitVec.add_eq_or_of_and_eq_zero _ _ apart, ← setFld_bit_zero x hu]
  apply BitVec.eq_of_toNat_eq
  have pow : (BitVec.twoPow w u).toNat = 2 ^ u := by
    rw [BitVec.toNat_twoPow, Nat.mod_eq_of_lt (Nat.pow_lt_pow_right Nat.one_lt_two hu)]
  have sum : (setFld x u 1 1).toNat = (setFld x u 1 0).toNat + 2 ^ u := by
    rw [one, zero]
    ring
  rw [BitVec.toNat_add, pow, ← sum, Nat.mod_eq_of_lt (BitVec.isLt _)]

theorem setFld_bit_one_getLsbD {w : Nat} (x : BitVec w) {u : Nat} (hu : u < w) {b : Nat} (hb : b < w) :
    (setFld x u 1 1).getLsbD b = (x.getLsbD b || decide (b = u)) := by
  rw [setFld_bit_one x hu, BitVec.getLsbD_or, BitVec.getLsbD_and, BitVec.getLsbD_not, BitVec.getLsbD_twoPow]
  by_cases h : b = u
  · subst h; simp [hb]
  · simp [h, hb, Ne.symm h]

/-! ### Parity mismatches and reloads (R509 to R512) -/

/-- R510: a unit of the Keep goes out of service. -/
theorem enterSafe_unit (s : State) {u : Nat} (hu : u < 12) (hthm : u ≠ uThm) :
    u ∈ (enterSafe s u).keep.safe ∧ (enterSafe s u).keep.badPar = s.keep.badPar ∧
      ∀ b, b < 12 → (enterSafe s u).keep.unitEn.getLsbD b = (s.keep.unitEn.getLsbD b && !decide (b = u)) := by
  unfold enterSafe
  dsimp only
  rw [if_neg hthm, if_pos hu]
  refine ⟨?_, rfl, fun b hb => setFld_bit_zero_getLsbD _ (by omega) (by omega)⟩
  dsimp only
  split
  case isTrue h => exact List.contains_iff_mem.1 h
  case isFalse h => exact List.mem_append_right _ (List.mem_singleton_self u)

/-- R510: the marks of a mismatch of a register, before its unit goes out of service. -/
def mismatch (s : State) (m : Nat × Nat) : State :=
  { s with keep := { s.keep with
    cfgpar := s.keep.cfgpar ++ [(m.1, s.time.tick)], badPar := if s.keep.badPar.contains m then s.keep.badPar else s.keep.badPar ++ [m] } }

theorem mem_mismatch (s : State) (m : Nat × Nat) : m ∈ (mismatch s m).keep.badPar := by
  unfold mismatch
  dsimp only
  split
  case isTrue h => exact List.contains_iff_mem.1 h
  case isFalse h => exact List.mem_append_right _ (List.mem_singleton_self m)

/-- R510, R511: a mismatch of a unit of the Keep that has had fewer than two within the second. -/
theorem parityOne_eq {s : State} {u : Nat} (addr : Nat) (hu : u < 12) (hthm : u ≠ uThm)
    (hfew : (s.keep.cfgpar.filter fun x => x.1 == u && decide (s.time.tick.toNat < x.2.toNat + 1000000000)).length < 2) :
    parityOne s (u, addr) = enterSafe (accEvent (mismatch s (u, addr)) ⟨0, pathHardware, 0xFFFF, false, addr, 0⟩ acCfgpar) u := by
  generalize hv : accEvent (mismatch s (u, addr)) ⟨0, pathHardware, 0xFFFF, false, addr, 0⟩ acCfgpar = v
  have sameE := accEvent_same (mismatch s (u, addr)) ⟨0, pathHardware, 0xFFFF, false, addr, 0⟩ acCfgpar
  rw [hv] at sameE
  have par : (enterSafe v u).keep.cfgpar = s.keep.cfgpar ++ [(u, s.time.tick)] := by
    have kept : (enterSafe v u).keep.cfgpar = v.keep.cfgpar := by
      unfold enterSafe
      dsimp only
      rw [if_neg hthm]
    exact kept.trans (congrArg (fun x => x.2.2.2.2) (sameE .units (by decide)) :)
  have tick : (enterSafe v u).time.tick = s.time.tick :=
    ((enterSafe_keeps u (Keeps.rfl_ _ v) (List.Subset.refl _)).same .tick (by decide)).trans (sameE .tick (by decide))
  have few : ¬ recentPar (enterSafe v u) u ≥ 3 := by
    rw [recentPar, par, tick, List.filter_append, List.length_append]
    have last : ((([(u, s.time.tick)] : List (Nat × W64)).filter fun x => x.1 == u && decide (s.time.tick.toNat < x.2.toNat + 1000000000))).length ≤ 1 :=
      List.length_filter_le _ _
    omega
  have run : parityOne s (u, addr) =
      if u = uKeep then keepWarmReset v 2
      else if recentPar (enterSafe v u) u ≥ 3 then holdUnit (enterSafe v u) u ⟨0, pathHardware, 0xFFFF, false, addr, 0⟩ else enterSafe v u := by
    unfold parityOne
    dsimp only
    rw [if_neg (show ¬ 65536 ≤ u by omega), ← hv]
    rfl
  rw [run, if_neg (by rintro rfl; exact absurd hu (by decide)), if_neg few]

/-- R509 to R512: a reload that takes place. -/
theorem exec_configReload {s : State} {c : CfgLoad} (hu : c.unit < 12) (hfw : s.boot.firmware = true) (hkwr : s.keep.kwrDown = false)
    (hoff : s.keep.unitEn.getLsbD c.unit = false) (hheld : c.unit ∉ s.keep.unitHeld) (hsw : bitOf s.keep.unitOff c.unit = false) :
    exec (.configReload c) s = .next (afterReload { s with keep := { s.keep with
        safe := s.keep.safe.filter (· != c.unit), badPar := s.keep.badPar.filter (·.1 != c.unit), unitEn := setFld s.keep.unitEn c.unit 1 1 } } c.unit) := by
  have h1 : ¬ ((!s.boot.firmware) = true ∨ s.keep.kwrDown = true ∨ c.unit = uKeep) := by
    rw [hfw, hkwr]
    rintro (h | h | h)
    · exact Bool.noConfusion h
    · exact Bool.noConfusion h
    · exact absurd (h ▸ hu) (by decide)
  have h2 : ¬ unitServes s c.unit = true := by rw [unitServes, if_pos hu, bitOf, hoff]; exact Bool.false_ne_true
  have h3 : ¬ (s.keep.unitHeld.contains c.unit = true ∨ (decide (c.unit < 12) && bitOf s.keep.unitOff c.unit) = true) := by
    rw [hsw, Bool.and_false, List.contains_iff_mem]
    exact fun h => h.elim hheld Bool.false_ne_true
  change execConfigReload c s = _
  unfold execConfigReload
  dsimp only
  rw [if_neg h1, if_neg h2, if_neg h3, if_pos hu]

/-- Settles O42: one mismatch takes its unit out of service, and a reload brings it back. -/
theorem parityAndReload : Obligations.ParityAndReload := by
  refine ⟨?sweep, ?reload, ?inService, ?held⟩
  case sweep =>
    intro s u addr hu hthm hfew
    have run := parityOne_eq addr hu hthm hfew
    refine ⟨_, congrArg Host.Outcome.next run, ?_⟩
    have event := accEvent_same (mismatch s (u, addr)) ⟨0, pathHardware, 0xFFFF, false, addr, 0⟩ acCfgpar
    have bit := accEvent_getLsbD (mismatch s (u, addr)) ⟨0, pathHardware, 0xFFFF, false, addr, 0⟩ (cause := acCfgpar) (by decide)
    generalize accEvent (mismatch s (u, addr)) ⟨0, pathHardware, 0xFFFF, false, addr, 0⟩ acCfgpar = v at event bit ⊢
    have safe := (enterSafe_keeps u (Keeps.rfl_ _ v) (List.Subset.refl _)).same
    obtain ⟨mem, badPar, en⟩ := enterSafe_unit v hu hthm
    have units := event .units (by decide)
    have enV : v.keep.unitEn = s.keep.unitEn := (congrArg (fun x => x.1) units :)
    have heldV : v.keep.unitHeld = s.keep.unitHeld := (congrArg (fun x => x.2.1) units :)
    have badV : v.keep.badPar = (mismatch s (u, addr)).keep.badPar := (congrArg (fun x => x.2.2.1) (event .keep (by decide)) :)
    have held : (enterSafe v u).keep.unitHeld = v.keep.unitHeld := by
      unfold enterSafe
      dsimp only
      rw [if_neg hthm]
    have acc : (enterSafe v u).keep.accstat = v.keep.accstat := (congrArg (fun x => x.1) (safe .acc (by decide)) :)
    rw [badPar, badV, acc]
    refine ⟨mem, mem_mismatch s _, ?_, fun b hb hne => ?_, bit, held.trans heldV, (safe .spires (by decide)).trans (event .spires (by decide)),
      safe.bytes_eq.1.trans event.bytes_eq.1⟩
    · rw [en u hu, decide_eq_true rfl, Bool.not_true, Bool.and_false]
    · rw [en b hb, decide_eq_false hne, Bool.not_false, Bool.and_true, enV]
  case reload =>
    rintro s c u rfl hu hthm hfw hkwr hoff hheld hsw
    refine ⟨_, exec_configReload hu hfw hkwr hoff hheld hsw, ?_⟩
    generalize hv : ({ s with keep := _ } : State) = v
    have same := (afterReload_keeps c.unit (Keeps.rfl_ _ v) (List.Subset.refl _)).same
    have units := same .units (by decide)
    have badPar : (afterReload v c.unit).keep.badPar = v.keep.badPar := (congrArg (fun x => x.2.2.1) (same .keep (by decide)) :)
    have unitEn : (afterReload v c.unit).keep.unitEn = v.keep.unitEn := (congrArg (fun x => x.1) units :)
    have safe : (afterReload v c.unit).keep.safe = v.keep.safe := (congrArg (fun x => x.2.2.2.1) units :)
    have bits {b : Nat} (hb : b < 12) : v.keep.unitEn.getLsbD b = (s.keep.unitEn.getLsbD b || decide (b = c.unit)) := by
      rw [← hv]
      exact setFld_bit_one_getLsbD _ (by omega) (by omega)
    rw [unitEn, safe, badPar]
    refine ⟨?_, ?_, ?_, fun b hb hne => ?_, (same .spires (by decide)).trans (by rw [← hv]), same.bytes_eq.1.trans (by rw [← hv])⟩
    · rw [bits hu, decide_eq_true rfl, Bool.or_true]
    · rw [← hv]
      exact fun h => by simpa using (List.mem_filter.1 h).2
    · rw [← hv]
      exact fun m h => by simpa using (List.mem_filter.1 h).2
    · rw [bits hb, decide_eq_false hne, Bool.or_false]
  case inService =>
    rintro s c u rfl hu hfw hkwr hon
    have h1 : ¬ ((!s.boot.firmware) = true ∨ s.keep.kwrDown = true ∨ c.unit = uKeep) := by
      rw [hfw, hkwr]
      rintro (h | h | h)
      · exact Bool.noConfusion h
      · exact Bool.noConfusion h
      · exact absurd (h ▸ hu) (by decide)
    have h2 : unitServes s c.unit = true := by rw [unitServes, if_pos hu]; exact hon
    refine ⟨_, congrArg Host.Outcome.next ((if_neg h1).trans (if_pos h2)), ?_⟩
    have event := accEvent_same s ⟨0, pathFirmware, if 65536 ≤ c.unit then c.unit - 65536 else 0xFFFF, true, c.addr.toNat, 0⟩ acCfgrej
    have units := event .units (by decide)
    exact ⟨(congrArg (fun x => x.1) units :), (congrArg (fun x => x.2.2.2.1) units :), accEvent_getLsbD s _ (cause := acCfgrej) (by decide)⟩
  case held =>
    rintro s c u rfl hu hfw hoff hheld
    by_cases h1 : (!s.boot.firmware) = true ∨ s.keep.kwrDown = true ∨ c.unit = uKeep
    · exact congrArg Host.Outcome.next (if_pos h1)
    · have h2 : ¬ unitServes s c.unit = true := by rw [unitServes, if_pos hu, bitOf, hoff]; exact Bool.false_ne_true
      exact congrArg Host.Outcome.next ((if_neg h1).trans ((if_neg h2).trans (if_pos (.inl (List.contains_iff_mem.2 hheld)))))

end Sys2Proof.Machine
end

section
/-! The ends of self-tests (R240, R440 to R443). -/

set_option Elab.async false

namespace Sys2Proof.Machine

/-! ### The ends of self-tests (R240, R440 to R443) -/

/-- R534: the running command ends, with none queued behind it. -/
theorem cmdFinish_last {s : State} {i : Nat} {w : W32} (hrun : (getCmd s i).running = some w) (hq : (getCmd s i).queued = none) (result cause : Nat) :
    cmdFinish s i result cause = updCmd s i fun _ =>
      { (if (getCmd s i).shown = 1 then { getCmd s i with res := cmdRes w result cause } else getCmd s i) with running := none, shown := 0 } := by
  unfold cmdFinish
  dsimp only
  rw [hrun, hq]

/-- R441: without repairs due, firmware takes none. -/
theorem repairTick_idle {s : State} (h : s.nvm.repairDue = []) : repairTick s = s := by
  have same : ({ s with nvm := { s.nvm with repairDue := [] } } : State) = s := by rw [← h]
  rw [repairTick, h, same]
  rfl

/-- R444: fusing entries, what it leaves. -/
theorem foldl_fuseOne_same (l : List RepairEnt) (s : State) : Same [.fuses, .nvm] s (l.foldl fuseOne s) :=
  (keeps_foldl (fun v a h => fuseOne_keeps a h (List.Subset.refl _)) (Keeps.rfl_ _ s)).same

theorem fuseOne_repairSeq (s : State) (e : RepairEnt) : (fuseOne s e).nvm.repairSeq = s.nvm.repairSeq := by
  unfold fuseOne
  dsimp only
  split
  · rfl
  · split <;> rfl

theorem foldl_fuseOne_repairSeq (l : List RepairEnt) (s : State) : (l.foldl fuseOne s).nvm.repairSeq = s.nvm.repairSeq := by
  induction l generalizing s with
  | nil => rfl
  | cons e l ih => exact (ih _).trans (fuseOne_repairSeq s e)

/-- R440: what the ends of the shut-down self-test have written, of a state `s` without repairs due. -/
theorem exec_sdtComplete {s : State} (hstate : s.thermal.sdtState = 1) (htiles : ∀ x ∈ s.tiles, x.run = none) (hengs : ∀ g ∈ s.engines, g.run = none)
    (hbanks : s.thermal.sdtBanks = []) (hdue : s.nvm.repairDue = []) (hsafe : inSafe s uNvm = false) :
    ∃ u r, Same [.fuses, .nvm] s u ∧ u.nvm.repairSeq = s.nvm.repairSeq ∧
      exec .sdtComplete s = .next (cmdFinish (closeEarly (addRec (writeSnapshot (writeRepair { u with
        tiles := u.tiles.map fun t => { t with reqs := [] }
        engines := u.engines.map fun g => { g with left := 0 }
        thermal := { u.thermal with sdtState := 2, sdtLeft := slicesLeft s } })) r) .short) s.thermal.sdtInst crDone 0) := by
  have runs : ¬ (s.thermal.sdtState ≠ 1 ∨ (!s.thermal.sdtBanks.isEmpty) = true ∨ s.tiles.any (fun t => t.run.isSome) = true ∨
      s.engines.any (fun g => g.run.isSome) = true) := by
    rintro (h | h | h | h)
    · exact h hstate
    · rw [hbanks] at h; exact Bool.noConfusion h
    · obtain ⟨x, hx, hr⟩ := List.any_eq_true.1 h; rw [htiles x hx] at hr; exact Bool.noConfusion hr
    · obtain ⟨g, hg, hr⟩ := List.any_eq_true.1 h; rw [hengs g hg] at hr; exact Bool.noConfusion hr
  change ∃ u r, _ ∧ _ ∧ execSdtComplete s = _
  unfold execSdtComplete
  dsimp only
  rw [if_neg runs, repairTick_idle hdue]
  generalize hu : (if ((area s).map (·.repairFuse)).getD false = true then s.nvm.entries.foldl fuseOne s else s) = u
  have same : Same [.fuses, .nvm] s u ∧ u.nvm.repairSeq = s.nvm.repairSeq := by
    rw [← hu]
    split
    · exact ⟨foldl_fuseOne_same _ s, foldl_fuseOne_repairSeq _ s⟩
    · exact ⟨Same.rfl_ _ s, rfl⟩
  generalize hv : writeRepair _ = v
  have safeV : ¬ inSafe v uNvm = true := by
    have kept : v.keep = u.keep := by rw [← hv]; exact (writeRepair_keeps (Keeps.rfl_ _ _) (List.Subset.refl _)).same.keep_eq
    rw [inSafe, kept, same.1.keep_eq, ← inSafe, hsafe]
    exact Bool.false_ne_true
  rw [if_neg safeV, ← hv]
  exact ⟨u, _, same.1, same.2, rfl⟩

theorem writeRepair_repairSeq {s : State} (h : inSafe s uNvm = false) : (writeRepair s).nvm.repairSeq = s.nvm.repairSeq + 1 := by
  unfold writeRepair
  dsimp only
  rw [if_neg (by rw [h]; exact Bool.false_ne_true)]

/-- Settles O58: a test that cannot begin, the snapshot, and the end of the shut-down self-test. -/
theorem selfTestEnds : Obligations.SelfTestEnds := by
  refine ⟨?notIdle, ?snapshot, ?noSnapshot, ?sdt, ?noSdt⟩
  case notIdle =>
    intro s who x w hinst mine hfind hrun hq
    have run : exec (.notidleTimeout who) s =
        .next (cmdFinish (updTile s x.ix fun t => { t with reqs := t.reqs.filter fun r => !mine r }) (instOf who) crRefused ccNotIdle) := by
      change execNotidleTimeout who s = _
      unfold execNotidleTimeout
      dsimp only
      rw [hfind]
    rw [cmdFinish_last (s := updTile s x.ix _) hrun hq] at run
    have own (f : CmdInst → CmdInst) := getCmd_updCmd (updTile s x.ix fun t => { t with reqs := t.reqs.filter fun r => !mine r }) _ f hinst
    refine ⟨_, run, fun y hy => ?_, ?_, fun hshown => ?_, fun i hi => getCmd_updCmd_ne _ _ hi, rfl⟩
    · exact (getTile_updTile s x.ix (fun t => { t with reqs := t.reqs.filter fun r => !mine r }) fun _ => rfl).trans (congrArg (Option.map _) hy)
    · rw [own]
    · rw [own, show (getCmd (updTile s x.ix _) (instOf who)).shown = 1 from hshown, if_pos rfl]
  case snapshot =>
    intro s hpend htick hsafe
    have due : (s.nvm.snapPending && (s.nvm.snapTick.map fun t => decide (s.time.tick.toNat - t.toNat ≥ 100000000)).getD true && !inSafe s uNvm) = true := by
      rw [hpend, hsafe]
      cases h : s.nvm.snapTick with
      | none => rfl
      | some x => simpa using htick x h
    refine ⟨_, congrArg Host.Outcome.next (if_pos due), rfl, rfl, rfl, rfl, rfl, ⟨_, rfl, ?_⟩, rfl, rfl, rfl, rfl⟩
    by_cases hB : writesB magicSnap s.nvm.snapA s.nvm.snapB = true
    · exact .inr ⟨if_pos hB, if_pos hB⟩
    · exact .inl ⟨if_neg hB, if_neg hB⟩
  case noSnapshot =>
    intro s hno
    have notDue : ¬ (s.nvm.snapPending && (s.nvm.snapTick.map fun t => decide (s.time.tick.toNat - t.toNat ≥ 100000000)).getD true && !inSafe s uNvm) = true := by
      rcases hno with h | h | ⟨x, hx, hlt⟩
      · simp [h]
      · simp [h]
      · simp only [hx, Option.map_some, Option.getD_some, Bool.and_eq_true, decide_eq_true_eq]
        omega
    exact congrArg Host.Outcome.next (if_neg notDue)
  case sdt =>
    intro s hstate htiles hengs hbanks hdue hsafe
    obtain ⟨u, r, same, seq, run⟩ := exec_sdtComplete hstate htiles hengs hbanks hdue hsafe
    refine ⟨_, run, ?_⟩
    generalize hv : ({ u with tiles := _, engines := _, thermal := _ } : State) = v
    have safeV : inSafe v uNvm = false := by rw [← hv, ← hsafe]; exact congrArg (fun k : KeepSt => k.safe.contains uNvm) same.keep_eq
    have repair := (writeRepair_keeps (Keeps.rfl_ _ v) (List.Subset.refl _)).same
    have repairSeq := writeRepair_repairSeq safeV
    generalize writeRepair v = w at repair repairSeq ⊢
    have after : Same [.cmd, .cmds, .alert, .cistern, .parts, .records, .early, .near, .mtr] (writeSnapshot w)
        (cmdFinish (closeEarly (addRec (writeSnapshot w) r) .short) s.thermal.sdtInst crDone 0) :=
      (cmdFinish_keeps _ _ _ (closeEarly_keeps _ (addRec_keeps r (Keeps.rfl_ _ _) (by decide)) (by decide)) (by decide)).same
    have nvm := after .nvm (by decide)
    have tiles : _ = w.tiles := after .tiles (by decide)
    have tilesV : w.tiles = u.tiles.map fun t => { t with reqs := [] } := (repair .tiles (by decide)).trans (by rw [← hv])
    have thermal : _ = w.thermal := after .thermal (by decide)
    have thermalV : w.thermal.sdtState = 2 := (congrArg Thermal.sdtState (repair .thermal (by decide))).trans (by rw [← hv])
    have spires : _ = w.spires := after .spires (by decide)
    have data : _ = w.cistern.data := after.bytes_eq.1
    refine ⟨(congrArg Thermal.sdtState thermal).trans thermalV, ?_, congrArg Nvm.valid nvm, ?_, ?_, ?_, ?_, ?_⟩
    · rw [tiles, tilesV]
      intro x hx
      obtain ⟨y, _, rfl⟩ := List.mem_map.1 hx
      rfl
    · rw [nvm, tiles]
      rfl
    · rw [nvm]
      refine repairSeq.trans (congrArg (· + 1) ?_)
      rw [← hv]
      exact seq
    · rw [tiles, tilesV, same .tiles (by decide), List.map_map]
      rfl
    · rw [spires, repair .spires (by decide), ← hv]
      exact same .spires (by decide)
    · rw [data, repair.bytes_eq.1, ← hv]
      exact same.bytes_eq.1
  case noSdt =>
    intro s hno
    refine congrArg Host.Outcome.next (if_pos ?_)
    rcases hno with h | h
    · exact .inl h
    · exact .inr (.inl (by simpa using h))

end Sys2Proof.Machine
end

section
/-! What an operation may change in the Spires. -/

set_option Elab.async false

namespace Sys2Proof.Machine

/-! ### What an operation may change in the Spires -/

/-- The fields of a Spire but its index. -/
inductive SpFld where
  | cnt | smp | lv | tstate | fseq | watchCnt | testing | pendFence | tap | ops | pass | injSlot | refused | torn | tornOps | raw
    | orphan | answer | lastv | viol | staging | witSent | witGrants | epoch | trc | wrap | gen | sensor | cycFrom | big
  deriving DecidableEq

/-- A field is the same in both Spires. -/
abbrev SpFld.Eq (f : SpFld) (x y : Spire) : Prop :=
  match f with
  | .cnt => y.cnt = x.cnt
  | .smp => y.smp = x.smp
  | .lv => y.lv = x.lv
  | .tstate => y.tstate = x.tstate
  | .fseq => y.fseq = x.fseq
  | .watchCnt => y.watchCnt = x.watchCnt
  | .testing => y.testing = x.testing
  | .pendFence => y.pendFence = x.pendFence
  | .tap => y.tap = x.tap
  | .ops => y.ops = x.ops
  | .pass => y.pass = x.pass
  | .injSlot => y.injSlot = x.injSlot
  | .refused => y.refused = x.refused
  | .torn => y.torn = x.torn
  | .tornOps => y.tornOps = x.tornOps
  | .raw => y.raw = x.raw
  | .orphan => y.orphan = x.orphan
  | .answer => y.answer = x.answer
  | .lastv => y.lastv = x.lastv
  | .viol => y.viol = x.viol
  | .staging => y.staging = x.staging
  | .witSent => y.witSent = x.witSent
  | .witGrants => y.witGrants = x.witGrants
  | .epoch => y.epoch = x.epoch
  | .trc => y.trc = x.trc
  | .wrap => y.wrap = x.wrap
  | .gen => y.gen = x.gen
  | .sensor => y.sensor = x.sensor
  | .cycFrom => y.cycFrom = x.cycFrom
  | .big => y.big = x.big

/-- The Spire `x` with the fields that `m` lists taken from `y`; for a list written out it is `{ x with … := y.… }` by definition. -/
def spChanged (m : List SpFld) (x y : Spire) : Spire where
  ix := x.ix
  cnt := if .cnt ∈ m then y.cnt else x.cnt
  smp := if .smp ∈ m then y.smp else x.smp
  lv := if .lv ∈ m then y.lv else x.lv
  tstate := if .tstate ∈ m then y.tstate else x.tstate
  fseq := if .fseq ∈ m then y.fseq else x.fseq
  watchCnt := if .watchCnt ∈ m then y.watchCnt else x.watchCnt
  testing := if .testing ∈ m then y.testing else x.testing
  pendFence := if .pendFence ∈ m then y.pendFence else x.pendFence
  tap := if .tap ∈ m then y.tap else x.tap
  ops := if .ops ∈ m then y.ops else x.ops
  pass := if .pass ∈ m then y.pass else x.pass
  injSlot := if .injSlot ∈ m then y.injSlot else x.injSlot
  refused := if .refused ∈ m then y.refused else x.refused
  torn := if .torn ∈ m then y.torn else x.torn
  tornOps := if .tornOps ∈ m then y.tornOps else x.tornOps
  raw := if .raw ∈ m then y.raw else x.raw
  orphan := if .orphan ∈ m then y.orphan else x.orphan
  answer := if .answer ∈ m then y.answer else x.answer
  lastv := if .lastv ∈ m then y.lastv else x.lastv
  viol := if .viol ∈ m then y.viol else x.viol
  staging := if .staging ∈ m then y.staging else x.staging
  witSent := if .witSent ∈ m then y.witSent else x.witSent
  witGrants := if .witGrants ∈ m then y.witGrants else x.witGrants
  epoch := if .epoch ∈ m then y.epoch else x.epoch
  trc := if .trc ∈ m then y.trc else x.trc
  wrap := if .wrap ∈ m then y.wrap else x.wrap
  gen := if .gen ∈ m then y.gen else x.gen
  sensor := if .sensor ∈ m then y.sensor else x.sensor
  cycFrom := if .cycFrom ∈ m then y.cycFrom else x.cycFrom
  big := if .big ∈ m then y.big else x.big

/-- The Spires that an operation may change: all, or one. -/
def Covers : Option Nat → Nat → Prop
  | none, _ => True
  | some i, j => j = i

/-- `y` is the Spire `x` but for the fields that `m` lists, and is `x` where `i` does not cover it. -/
structure SpRel (i : Option Nat) (m : List SpFld) (x y : Spire) : Prop where
  ix : y.ix = x.ix
  same : ∀ f, f ∉ m → f.Eq x y
  other : ¬ Covers i x.ix → y = x

section
variable {i : Option Nat} {m : List SpFld} {x y z : Spire}

theorem SpRel.rfl_ (x : Spire) : SpRel i m x x := ⟨rfl, fun f _ => by cases f <;> rfl, fun _ => rfl⟩

theorem SpRel.trans (h : SpRel i m x y) (g : SpRel i m y z) : SpRel i m x z where
  ix := g.ix.trans h.ix
  same f hf := by
    have a := h.same f hf
    have b := g.same f hf
    cases f <;> exact b.trans a
  other hc := (g.other (by rwa [h.ix])).trans (h.other hc)

theorem SpRel.mono {n : List SpFld} (h : SpRel i m x y) (hm : m ⊆ n) : SpRel i n x y :=
  ⟨h.ix, fun f hf => h.same f fun hin => hf (hm hin), h.other⟩

theorem SpRel.widen {n : List SpFld} (h : SpRel i m x y) (hm : m ⊆ n) : SpRel none n x y :=
  ⟨h.ix, fun f hf => h.same f fun hin => hf (hm hin), fun hc => absurd trivial hc⟩

theorem SpRel.frame (h : SpRel i m x y) : y = spChanged m x y := by
  have took (f : SpFld) {α : Type} {a b : α} (e : f ∉ m → b = a) : b = if f ∈ m then b else a := by
    split
    · rfl
    · next hf => exact e hf
  have ix := h.ix
  have cnt := took .cnt (h.same .cnt)
  have smp := took .smp (h.same .smp)
  have lv := took .lv (h.same .lv)
  have tstate := took .tstate (h.same .tstate)
  have fseq := took .fseq (h.same .fseq)
  have watchCnt := took .watchCnt (h.same .watchCnt)
  have testing := took .testing (h.same .testing)
  have pendFence := took .pendFence (h.same .pendFence)
  have tap := took .tap (h.same .tap)
  have ops := took .ops (h.same .ops)
  have pass := took .pass (h.same .pass)
  have injSlot := took .injSlot (h.same .injSlot)
  have refused := took .refused (h.same .refused)
  have torn := took .torn (h.same .torn)
  have tornOps := took .tornOps (h.same .tornOps)
  have raw := took .raw (h.same .raw)
  have orphan := took .orphan (h.same .orphan)
  have answer := took .answer (h.same .answer)
  have lastv := took .lastv (h.same .lastv)
  have viol := took .viol (h.same .viol)
  have staging := took .staging (h.same .staging)
  have witSent := took .witSent (h.same .witSent)
  have witGrants := took .witGrants (h.same .witGrants)
  have epoch := took .epoch (h.same .epoch)
  have trc := took .trc (h.same .trc)
  have wrap := took .wrap (h.same .wrap)
  have gen := took .gen (h.same .gen)
  have sensor := took .sensor (h.same .sensor)
  have cycFrom := took .cycFrom (h.same .cycFrom)
  have big := took .big (h.same .big)
  cases y
  simp only [spChanged, Spire.mk.injEq]
  exact ⟨ix, cnt, smp, lv, tstate, fseq, watchCnt, testing, pendFence, tap, ops, pass, injSlot, refused, torn, tornOps, raw, orphan, answer, lastv, viol, staging, witSent, witGrants, epoch, trc, wrap, gen, sensor, cycFrom, big⟩

end

/-- Nothing changes in the Spires that `i` covers but the fields that `m` lists, and nothing in the others. -/
def SpKeeps (i : Option Nat) (m : List SpFld) (s t : State) : Prop := List.Forall₂ (SpRel i m) s.spires t.spires

section
variable {i : Option Nat} {m : List SpFld} {s t u : State}

theorem forall₂_of_map {α β : Type} {R : α → β → Prop} (l : List α) (f : α → β) (h : ∀ x, R x (f x)) : List.Forall₂ R l (l.map f) := by
  rw [List.forall₂_map_right_iff]
  exact List.forall₂_same.2 fun x _ => h x

theorem SpKeeps.rfl_ (s : State) : SpKeeps i m s s := List.forall₂_same.2 fun x _ => SpRel.rfl_ x

theorem SpKeeps.trans (h : SpKeeps i m s t) (g : SpKeeps i m t u) : SpKeeps i m s u := by
  unfold SpKeeps at *
  generalize s.spires = a, t.spires = b, u.spires = c at h g
  induction h generalizing c with
  | nil => cases g; exact .nil
  | cons hab _ ih =>
    cases g with
    | cons hbc g => exact .cons (hab.trans hbc) (ih _ g)

theorem SpKeeps.mono {n : List SpFld} (h : SpKeeps i m s t) (hm : m ⊆ n) : SpKeeps i n s t := h.imp fun _ _ r => r.mono hm

theorem SpKeeps.widen {n : List SpFld} (h : SpKeeps i m s t) (hm : m ⊆ n) : SpKeeps none n s t := h.imp fun _ _ r => r.widen hm

/-- What leaves the Spires. -/
theorem SpKeeps.of_eq (h : SpKeeps i m s u) (e : t.spires = u.spires) : SpKeeps i m s t := by rwa [SpKeeps, e]

/-- What leaves the Spires, by the frame of an operation. -/
theorem SpKeeps.of_same {l : List Fld} (h : SpKeeps i m s u) (e : Same l u t) (hl : .spires ∉ l := by decide) : SpKeeps i m s t := h.of_eq (e .spires hl)

theorem spRel_of_frame {l : List SpFld} {x y : Spire} (e : y = spChanged l x y) (hm : l ⊆ m) (hc : Covers i x.ix) : SpRel i m x y where
  ix := (congrArg Spire.ix e :)
  same f hf := by
    have out : f ∉ l := fun hin => hf (hm hin)
    rw [e]
    cases f <;> exact if_neg out
  other hno := absurd hc hno

theorem SpKeeps.updSp (h : SpKeeps i m s u) (j : Nat) (f : Spire → Spire) (l : List SpFld) (hf : ∀ x, f x = spChanged l x (f x)) (hj : Covers i j)
    (hm : l ⊆ m) : SpKeeps i m s (updSp u j f) := by
  refine h.trans (forall₂_of_map _ _ fun x => ?_)
  split
  · next hx => exact spRel_of_frame (hf x) hm (hx ▸ hj)
  · exact SpRel.rfl_ x

theorem SpKeeps.getSp_none (h : SpKeeps i m s t) {j : Nat} (hs : getSp s j = none) : getSp t j = none := by
  unfold SpKeeps at h
  unfold getSp at *
  generalize s.spires = a, t.spires = b at h hs
  induction h with
  | nil => rfl
  | cons r _ ih =>
    rw [List.find?_cons] at hs ⊢
    rw [r.ix]
    split at hs
    · cases hs
    · exact ih hs

theorem SpKeeps.getSp_some (h : SpKeeps i m s t) {j : Nat} {x : Spire} (hs : getSp s j = some x) : ∃ y, getSp t j = some y ∧ SpRel i m x y := by
  unfold SpKeeps at h
  unfold getSp at *
  generalize s.spires = a, t.spires = b at h hs
  induction h with
  | nil => cases hs
  | cons r _ ih =>
    rw [List.find?_cons] at hs ⊢
    rw [r.ix]
    split at hs
    · cases hs; exact ⟨_, rfl, r⟩
    · exact ih hs

/-- A Spire that the operation does not cover. -/
theorem SpKeeps.getSp_other {k j : Nat} (h : SpKeeps (some k) m s t) (hj : j ≠ k) : getSp t j = getSp s j := by
  cases hs : getSp s j with
  | none => exact h.getSp_none hs
  | some x =>
    obtain ⟨y, hy, r⟩ := h.getSp_some hs
    rw [hy, r.other fun hc : x.ix = k => hj ((getSp_ix hs).symm.trans hc)]

/-- What a list of fields does not touch, of every Spire. -/
theorem SpKeeps.map_getSp {α : Type} (h : SpKeeps i m s t) (g : Spire → α) (hg : ∀ x y, SpRel i m x y → g y = g x) (j : Nat) :
    (getSp t j).map g = (getSp s j).map g := by
  cases hs : getSp s j with
  | none => rw [h.getSp_none hs]
  | some x =>
    obtain ⟨y, hy, r⟩ := h.getSp_some hs
    rw [hy, Option.map_some, Option.map_some, hg x y r]

end

end Sys2Proof.Machine
end

section
/-! The operations on a Spire, by the fields that they change. -/

set_option Elab.async false

namespace Sys2Proof.Machine

theorem covers_all (j : Nat) : Covers none j := trivial

theorem covers_own (j : Nat) : Covers (some j) j := rfl

/-! ### The operations on a Spire, by the fields they change -/

section
variable {i : Option Nat} {m : List SpFld} {s u : State}

theorem spCount_sp (h : SpKeeps i m s u) (j k n : Nat) (hj : Covers i j) (hm : [.cnt] ⊆ m) : SpKeeps i m s (spCount u j k n) := by
  unfold spCount
  split
  · exact h.updSp j _ [.cnt] (fun _ => rfl) hj hm
  · exact h

theorem addBigSp_sp (h : SpKeeps i m s u) (j k n : Nat) (hj : Covers i j) (hm : [.big] ⊆ m) : SpKeeps i m s (addBigSp u j k n) := by
  unfold addBigSp
  split
  · exact h.updSp j _ [.big] (fun _ => rfl) hj hm
  · exact h

theorem spChanged_ite {c : Prop} [Decidable c] {l : List SpFld} {x a b : Spire} (ha : a = spChanged l x a) (hb : b = spChanged l x b) :
    (if c then a else b) = spChanged l x (if c then a else b) := by
  split
  · exact ha
  · exact hb

theorem traceSp_frame (safe : Bool) (rate : Nat) (t : W64) (light : Bool) (e : TrcEntry) (x : Spire) :
    traceSp safe rate t light e x = spChanged [.cnt, .trc] x (traceSp safe rate t light e x) := by
  exact spChanged_ite rfl (spChanged_ite rfl (spChanged_ite rfl rfl))

theorem trace_sp (h : SpKeeps i m s u) (j : Nat) (code : Byte) (deep late : Bool) (stag layer oper : W16) (pay : Nat) (hj : Covers i j)
    (hm : [.cnt, .trc] ⊆ m) : SpKeeps i m s (trace u j code deep late stag layer oper pay) :=
  h.updSp j _ [.cnt, .trc] (fun _ => traceSp_frame _ _ _ _ _ _) hj hm

theorem updWrap_sp (h : SpKeeps i m s u) (j : Nat) (e : GoldenEntry) (f : WrapperCfg → Wrapper → Wrapper) (hj : Covers i j)
    (hm : [.wrap, .gen] ⊆ m) : SpKeeps i m s (updWrap u j e f) := by
  refine h.updSp j _ [.wrap, .gen] (fun x => ?_) hj hm
  split <;> rfl

theorem abortRun_sp (h : SpKeeps i m s u) (t : Tile) (hj : Covers i t.ix) (hm : [.wrap, .gen] ⊆ m) : SpKeeps i m s (abortRun u t) := by
  unfold abortRun
  split
  · exact h
  · next r _ =>
    dsimp only
    refine updWrap_sp (h.of_eq ?_) t.ix _ _ hj hm
    have rec_ (v : State) (x : Rec) : (addRec v x).spires = v.spires := addRec_same v x .spires (by decide)
    split <;> exact rec_ _ _

theorem SpKeeps.foldl {α : Type} {f : State → α → State} (hf : ∀ v a, SpKeeps i m s v → SpKeeps i m s (f v a)) (h : SpKeeps i m s u) (l : List α) :
    SpKeeps i m s (l.foldl f u) := by
  induction l generalizing u with
  | nil => exact h
  | cons a l ih => exact ih (hf u a h)

theorem abortSlice_sp (h : SpKeeps i m s u) (t : Tile) (hj : Covers i t.ix) (hm : [.wrap, .gen] ⊆ m) : SpKeeps i m s (abortSlice u t) := by
  unfold abortSlice
  split
  · exact h
  · exact (abortRun_sp h t hj hm).of_same (endReq_keeps t.ix crAborted (Keeps.rfl_ _ _) (List.Subset.refl _)).same

/-- R439: the slices of the tiles and of the engines end. -/
theorem abortSlices_sp (h : SpKeeps none m s u) (hm : [.wrap, .gen] ⊆ m) : SpKeeps none m s (abortSlices u) := by
  unfold abortSlices
  refine SpKeeps.foldl (fun v x hv => ?_) (SpKeeps.foldl (fun v t hv => abortSlice_sp hv t (covers_all _) hm) h _) _
  split
  · exact hv.of_eq (addRec_same (thmCount v thAbort 1) _ .spires (by decide))
  · exact hv

end

end Sys2Proof.Machine
end

section
/-! What a fence frame changes in the Domes. -/

set_option Elab.async false

namespace Sys2Proof.Machine

/-! ### What a fence frame changes in the Domes: the counts of their bytes (R460) -/

/-- Nothing changes in the Domes but the counts of their bytes. -/
def DomeBytes (s t : State) : Prop := List.Forall₂ (fun x y : Dome => y = { x with big := y.big }) s.domes t.domes

section
variable {s u : State}

theorem DomeBytes.rfl_ (s : State) : DomeBytes s s := List.forall₂_same.2 fun _ _ => rfl

theorem DomeBytes.of_eq {t : State} (h : DomeBytes s u) (e : t.domes = u.domes) : DomeBytes s t := by rwa [DomeBytes, e]

theorem DomeBytes.of_same {t : State} {l : List Fld} (h : DomeBytes s u) (e : Same l u t) (hl : .domes ∉ l := by decide) : DomeBytes s t := h.of_eq (e .domes hl)

theorem forall₂_map_right_imp {α : Type} {R : α → α → Prop} {a b : List α} (f : α → α) (h : List.Forall₂ R a b) (hf : ∀ x y, R x y → R x (f y)) :
    List.Forall₂ R a (b.map f) := by
  rw [List.forall₂_map_right_iff]
  exact h.imp fun x y => hf x y

theorem DomeBytes.bigDome (h : DomeBytes s u) (d k n : Nat) : DomeBytes s (bigDome u d k n) := by
  unfold Machine.bigDome
  split
  · refine forall₂_map_right_imp _ h fun x y r => ?_
    split
    · rw [r]
    · exact r
  · exact h

theorem DomeBytes.onTile (h : DomeBytes s u) (j : Nat) (f : Tile → State) (hf : ∀ t, DomeBytes s (f t)) : DomeBytes s (onTile u j f) := by
  unfold Machine.onTile
  split
  · exact hf _
  · exact h

theorem DomeBytes.updTile (h : DomeBytes s u) (j : Nat) (f : Tile → Tile) : DomeBytes s (updTile u j f) := h.of_eq rfl

theorem DomeBytes.issueFrame (h : DomeBytes s u) (j : Nat) (f : OutFrame) : DomeBytes s (issueFrame u j f) :=
  h.onTile j _ fun _ => by
    refine DomeBytes.bigDome (u := { Machine.updTile u j _ with caravan := _ }) ?_ _ _ _
    exact h.of_eq rfl

theorem DomeBytes.sendFrame (h : DomeBytes s u) (j : Nat) (f : OutFrame) : DomeBytes s (sendFrame u j f) := by
  refine h.onTile j _ fun t => ?_
  split
  · have unsent := (recordUnsent_keeps j t.next (Keeps.rfl_ _ u) (List.Subset.refl _)).same
    exact ((h.of_same unsent).updTile j _).issueFrame j f
  · split
    · exact h.issueFrame j f
    · exact h.of_eq rfl

theorem DomeBytes.sendTest (h : DomeBytes s u) (j : Nat) (on : Bool) : DomeBytes s (sendTest u j on) := h.sendFrame j _

theorem DomeBytes.sliceOff (h : DomeBytes s u) (j : Nat) : DomeBytes s (sliceOff u j) := by
  unfold Machine.sliceOff sendTestOff
  refine (h.updTile j _).onTile j _ fun t => ?_
  split
  · exact (h.updTile j _).sendTest j false
  · exact (h.updTile j _).updTile j _

theorem DomeBytes.endReq (h : DomeBytes s u) (j result : Nat) : DomeBytes s (endReq u j result) := by
  refine h.onTile j _ fun t => ?_
  have off := (h.updTile j fun t => { t with reqs := t.reqs.drop 1 }).sliceOff j
  cases t.reqs with
  | nil => exact off
  | cons r _ => exact off.of_same (l := [.cmd, .cmds]) (reqReport_keeps r result 0 (Keeps.rfl_ _ _) (List.Subset.refl _)).same

theorem DomeBytes.foldl {α : Type} {f : State → α → State} (hf : ∀ v a, DomeBytes s v → DomeBytes s (f v a)) (h : DomeBytes s u) (l : List α) :
    DomeBytes s (l.foldl f u) := by
  induction l generalizing u with
  | nil => exact h
  | cons a l ih => exact ih (hf u a h)

theorem DomeBytes.abortSlices (h : DomeBytes s u) : DomeBytes s (abortSlices u) := by
  unfold Machine.abortSlices
  refine DomeBytes.foldl (fun v x hv => ?_) (DomeBytes.foldl (fun v t hv => ?_) h _) _
  · split
    · exact hv.of_eq (addRec_same (thmCount v thAbort 1) _ .domes (by decide))
    · exact hv
  · unfold abortSlice
    split
    · exact hv
    · exact (hv.of_same (abortRun_keeps t (Keeps.rfl_ _ v) (List.Subset.refl _)).same).endReq t.ix crAborted

theorem DomeBytes.getDome {t : State} (h : DomeBytes s t) (j : Nat) : (getDome t j).map (·.sensor) = (getDome s j).map (·.sensor) := by
  unfold DomeBytes at h
  unfold Machine.getDome
  generalize s.domes = a, t.domes = b at h
  induction h with
  | nil => rfl
  | @cons x y _ _ r _ ih =>
    rw [List.find?_cons, List.find?_cons, r]
    cases x.ix == j
    · exact ih
    · rfl

end

end Sys2Proof.Machine
end

section
/-! Sensors (R446 to R454). -/

set_option Elab.async false

namespace Sys2Proof.Machine

/-! ### Sensors (R446 to R454) -/

theorem getSensor_putSensor {s : State} {dome : Bool} {ix : Nat} {x : Sensor} (h : getSensor s dome ix = some x) (y : Sensor) :
    getSensor (putSensor s dome ix y) dome ix = some y := by
  cases dome with
  | true =>
    obtain ⟨d, hd, -⟩ := Option.map_eq_some_iff.1 (h : (getDome s ix).map (·.sensor) = some x)
    exact (congrArg (Option.map (·.sensor)) ((getDome_updDome s ix (fun d => { d with sensor := y }) fun _ => rfl).trans (congrArg _ hd)) :)
  | false =>
    obtain ⟨p, hp, -⟩ := Option.map_eq_some_iff.1 (h : (getSp s ix).map (·.sensor) = some x)
    exact (congrArg (Option.map (·.sensor)) ((getSp_updSp s ix (fun p => { p with sensor := y }) fun _ => rfl).trans (congrArg _ hp)) :)

theorem getSensor_of_eq {s t : State} (spires : t.spires = s.spires) (domes : t.domes = s.domes) (dome : Bool) (ix : Nat) :
    getSensor t dome ix = getSensor s dome ix := by rw [getSensor, getSensor, getDome, getDome, getSp, getSp, spires, domes]

theorem getSensor_of_same {s t : State} {l : List Fld} (h : Same l s t) (dome : Bool) (ix : Nat) (hs : .spires ∉ l := by decide) (hd : .domes ∉ l := by decide) :
    getSensor t dome ix = getSensor s dome ix := getSensor_of_eq (h .spires hs) (h .domes hd) dome ix

theorem getSensor_abortSlices (s : State) (dome : Bool) (ix : Nat) : getSensor (abortSlices s) dome ix = getSensor s dome ix := by
  cases dome with
  | true => exact (DomeBytes.rfl_ s).abortSlices.getDome ix
  | false => exact (abortSlices_sp (m := [.wrap, .gen]) (SpKeeps.rfl_ s) (List.Subset.refl _)).map_getSp (·.sensor) (fun x y r => r.same .sensor (by decide)) ix

/-- R451, R454: while the die has tripped the deepest throttle is driven. -/
theorem driveLevel_of_trip {s : State} (h : s.pads.thermtrip = true) : (driveLevel s).thermal.level = 3 := by
  simp only [driveLevel, h, Bool.or_true, Bool.true_or, if_true]

theorem driveLevel_snsbad (s : State) : (driveLevel s).thermal.snsbad = s.thermal.snsbad := by
  unfold driveLevel
  dsimp only
  split <;> split <;> rfl

/-- What the end of a sweep leaves: the sensors and the pads, the level of a tripped die, and SNSBAD. -/
theorem sweepMark_leaves (s : State) (dome : Bool) (ix : Nat) : Same [.thermal, .erg] s (sweepMark s dome ix) ∧
    (s.pads.thermtrip = true → s.thermal.level = 3 → (sweepMark s dome ix).thermal.level = 3) ∧
    (sweepMark s dome ix).thermal.snsbad = s.thermal.snsbad := by
  refine ⟨(sweepMark_keeps dome ix (Keeps.rfl_ _ s) (List.Subset.refl _)).same, ?_⟩
  have domes (l : List Dome) (v : State) : (l.foldl sweepDome v).thermal = v.thermal ∧ (l.foldl sweepDome v).pads = v.pads := by
    have same := (keeps_foldl (m := [.erg]) (fun v a h => sweepDome_keeps a h (List.Subset.refl _)) (Keeps.rfl_ _ v) (l := l)).same
    exact ⟨same .thermal (by decide), same .pads (by decide)⟩
  have ended (v : State) : (v.pads.thermtrip = true → (sweepEnd v).thermal.level = 3) ∧ (sweepEnd v).thermal.snsbad = v.thermal.snsbad := by
    unfold sweepEnd
    refine ⟨fun h => driveLevel_of_trip ((congrArg Pads.thermtrip (domes _ v).2).trans h), (driveLevel_snsbad _).trans ?_⟩
    exact (congrArg Thermal.snsbad (domes _ v).1 :)
  unfold sweepMark
  dsimp only
  generalize (if s.thermal.sweptSet.contains (dome, ix) = true then s.thermal.sweptSet else s.thermal.sweptSet ++ [(dome, ix)]) = set
  split
  · exact ⟨fun h _ => (ended _).1 h, (ended _).2⟩
  · exact ⟨fun _ h => h, rfl⟩


theorem abortRec_level (s : State) (x : Rec) : (addRec (thmCount s thAbort 1) x).thermal.level = s.thermal.level :=
  (congrArg Thermal.level (addRec_same (thmCount s thAbort 1) x .thermal (by decide)) :)

theorem addMeter_thermal (s : State) (p k n : Nat) : (addMeter s p k n).thermal = s.thermal := rfl

theorem abortRun_level (s : State) (t : Tile) : (abortRun s t).thermal.level = s.thermal.level := by
  unfold abortRun
  split
  · rfl
  · dsimp only
    split <;> exact abortRec_level s _

theorem foldl_level {α : Type} {f : State → α → State} (hf : ∀ v a, (f v a).thermal.level = v.thermal.level) (l : List α) (s : State) :
    (l.foldl f s).thermal.level = s.thermal.level := by
  induction l generalizing s with
  | nil => rfl
  | cons a l ih => exact (ih _).trans (hf s a)

theorem abortSlice_level (s : State) (t : Tile) : (abortSlice s t).thermal.level = s.thermal.level := by
  unfold abortSlice
  split
  · rfl
  · exact (congrArg Thermal.level ((endReq_keeps t.ix crAborted (Keeps.rfl_ _ _) (List.Subset.refl _)).same .thermal (by decide))).trans (abortRun_level s t)

theorem abortSlices_level (s : State) : (abortSlices s).thermal.level = s.thermal.level := by
  have tiles := foldl_level abortSlice_level s.tiles s
  unfold abortSlices
  generalize s.tiles.foldl abortSlice s = v at tiles ⊢
  rw [← tiles]
  dsimp only
  generalize List.range Config.engBuilt = l
  refine foldl_level (fun v x => ?_) l v
  split
  · rw [updEng_thermal, addMeter_thermal]
    exact abortRec_level v _
  · rfl

/-- R454: a die that trips asserts THERMTRIP_N and drives the deepest throttle; the sensors stand. -/
theorem tripDie_effect (s : State) (dome : Bool) (ix : Nat) (y : Sensor) (hlvl : s.pads.thermtrip = true → s.thermal.level = 3) :
    (tripDie s dome ix y).pads.thermtrip = true ∧ (tripDie s dome ix y).thermal.level = 3 ∧
      getSensor (tripDie s dome ix y) dome ix = getSensor s dome ix := by
  unfold tripDie
  split
  case isTrue h => exact ⟨h, hlvl h, rfl⟩
  case isFalse h =>
    dsimp only
    generalize hv : driveLevel { s with pads := { s.pads with thermtrip := true } } = v
    have drive := driveLevel_same { s with pads := { s.pads with thermtrip := true } }
    have level := driveLevel_of_trip (s := { s with pads := { s.pads with thermtrip := true } }) rfl
    rw [hv] at drive level
    generalize thermRec v dome ix y.lvl y.lvl y.temp true = r
    have after : Same [.alert, .cistern, .parts, .records, .early, .near, .inputs] (abortSlices v) (thermInput (addRec (abortSlices v) r) dome ix 0x03) :=
      (thermInput_keeps dome ix 0x03 (addRec_keeps r (Keeps.rfl_ _ _) (by decide)) (by decide)).same
    have slices := (abortSlices_keeps (Keeps.rfl_ _ v) (List.Subset.refl _)).same
    have pads : v.pads.thermtrip = true := (congrArg Pads.thermtrip (drive .pads (by decide)) :)
    refine ⟨?_, ?_, ?_⟩
    · exact (congrArg Pads.thermtrip ((after .pads (by decide)).trans (slices .pads (by decide)))).trans pads
    · exact (congrArg Thermal.level (after .thermal (by decide))).trans ((abortSlices_level v).trans level)
    · rw [getSensor_of_same after, getSensor_abortSlices, getSensor_of_same drive]
      rfl


section
variable {s : State} {dome : Bool} {ix : Nat} {x : Sensor}

/-- R450: what a good reading makes of its sensor. -/
def readGood (s : State) (x : Sensor) : Sensor :=
  { x with valid := true, fast := fastOf s x.temp, lvl := max x.lvl (levelOf s x.temp), trips := if x.temp ≥ thrAt s 4 then x.trips + 1 else 0 }

theorem goodReading_eq (s : State) (dome : Bool) (ix : Nat) (x : Sensor) :
    ∃ w, Same [.alert, .inputs, .cistern, .parts, .records, .early, .near] (driveLevel (putSensor s dome ix (readGood s x))) w ∧
      goodReading s dome ix x = if (readGood s x).trips ≥ 2 then tripDie w dome ix (readGood s x) else w := by
  refine ⟨_, ?_, rfl⟩
  have start := Keeps.rfl_ [.alert, .inputs, .cistern, .parts, .records, .early, .near] (driveLevel (putSensor s dome ix (readGood s x)))
  refine Keeps.same ?_
  split
  · refine thermInput_keeps _ _ _ ?_ (by decide)
    split
    · exact addRec_keeps _ start (by decide)
    · exact start
  · split
    · exact addRec_keeps _ start (by decide)
    · exact start

/-- R450, R454: a good reading is taken; two in a row at T_TRIP trip the die. -/
theorem goodReading_effect {x0 : Sensor} (h : getSensor s dome ix = some x0) (x : Sensor) :
    getSensor (goodReading s dome ix x) dome ix = some (readGood s x) ∧
      (2 ≤ (readGood s x).trips → (goodReading s dome ix x).pads.thermtrip = true ∧ (goodReading s dome ix x).thermal.level = 3) ∧
      ((readGood s x).trips < 2 → (goodReading s dome ix x).pads = s.pads) := by
  obtain ⟨w, noted, run⟩ := goodReading_eq s dome ix x
  have put := getSensor_putSensor h (readGood s x)
  have padsPut : (putSensor s dome ix (readGood s x)).pads = s.pads := (putSensor_keeps dome ix _ (Keeps.rfl_ _ s) (List.Subset.refl _)).same .pads (by decide)
  have drive := driveLevel_same (putSensor s dome ix (readGood s x))
  have level := driveLevel_of_trip (s := putSensor s dome ix (readGood s x))
  have pads : w.pads = s.pads := (noted .pads (by decide)).trans ((drive .pads (by decide)).trans padsPut)
  have sensor : getSensor w dome ix = some (readGood s x) := by rw [getSensor_of_same noted, getSensor_of_same drive, put]
  rw [run]
  by_cases htrip : 2 ≤ (readGood s x).trips
  · rw [if_pos htrip]
    have trip := tripDie_effect w dome ix (readGood s x) fun ht =>
      (congrArg Thermal.level (noted .thermal (by decide))).trans (level (by rw [padsPut, ← pads]; exact ht))
    exact ⟨trip.2.2.trans sensor, fun _ => ⟨trip.1, trip.2.1⟩, fun hlt => absurd htrip (Nat.not_le_of_lt hlt)⟩
  · rw [if_neg htrip]
    exact ⟨sensor, fun hge => absurd hge htrip, fun _ => pads⟩

/-- R447: a sensor that becomes bad. -/
theorem markBad_effect {x0 : Sensor} (h : getSensor s dome ix = some x0) {x : Sensor} (hx : x.bad = false) :
    ∃ t v, getSensor (markBad s dome ix x) dome ix = some { x with bad := true, lvl := 0, trips := 0, temp := t, valid := v } ∧
      (markBad s dome ix x).thermal.snsbad = true ∧ (markBad s dome ix x).pads = s.pads := by
  have mark : ¬ x.bad = true := by rw [hx]; exact Bool.false_ne_true
  unfold markBad
  dsimp only
  rw [if_neg mark]
  generalize hv : ({ thmCount s thSnsbad 1 with thermal := _ } : State) = v
  have snsbad : v.thermal.snsbad = true := by rw [← hv]
  have sensor : getSensor v dome ix = some x0 := by rw [← hv]; exact h
  have pads : v.pads = s.pads := by rw [← hv]; rfl
  have first := getSensor_putSensor sensor { x with bad := true, lvl := 0, trips := 0 }
  have second := getSensor_putSensor first
    { x with bad := true, lvl := 0, trips := 0, temp := domeRef (putSensor v dome ix { x with bad := true, lvl := 0, trips := 0 }) (if dome then ix else ix / 256), valid := true }
  have put : Same [.spires, .domes] v (putSensor (putSensor v dome ix { x with bad := true, lvl := 0, trips := 0 }) dome ix
      { x with bad := true, lvl := 0, trips := 0, temp := domeRef (putSensor v dome ix { x with bad := true, lvl := 0, trips := 0 }) (if dome then ix else ix / 256), valid := true }) :=
    (putSensor_keeps _ _ _ (putSensor_keeps _ _ _ (Keeps.rfl_ _ v) (List.Subset.refl _)) (List.Subset.refl _)).same
  have drive := driveLevel_same (putSensor (putSensor v dome ix { x with bad := true, lvl := 0, trips := 0 }) dome ix
      { x with bad := true, lvl := 0, trips := 0, temp := domeRef (putSensor v dome ix { x with bad := true, lvl := 0, trips := 0 }) (if dome then ix else ix / 256), valid := true })
  refine ⟨_, _, (getSensor_of_same drive dome ix).trans second, ?_, ?_⟩
  · exact (driveLevel_snsbad _).trans ((congrArg Thermal.snsbad (put .thermal (by decide))).trans snsbad)
  · exact (drive .pads (by decide)).trans ((put .pads (by decide)).trans pads)

/-- R447: the differences of a sensor after its reading `v`. -/
def readDiffs (s : State) (dome : Bool) (ix : Nat) (x : Sensor) (v : Int) : Nat :=
  if s.thermal.sweptSet.contains (dome, ix) then x.diffs
  else if !dome && decide ((v - domeRef s (ix / 256)).natAbs > 100) && ((getDome s (ix / 256)).map (·.sensor.valid)).getD false then x.diffs + 1 else 0

/-- R446: the reading of a count. -/
def readValue (s : State) (dome : Bool) (ix count : Nat) : Int := reading ((s.image.map (·.thermal.curve)).getD []) (trimOf s dome ix) count

theorem takeReading_good {count : Nat} (h : getSensor s dome ix = some x) (hbad : x.bad = false) (htrim : 160 ≤ (trimD (trimOf s dome ix)).natAbs)
    (hlo : -160 ≤ readValue s dome ix count) (hhi : readValue s dome ix count ≤ 600) (hd : readDiffs s dome ix x (readValue s dome ix count) < 3) :
    takeReading s dome ix count = sweepMark (goodReading s dome ix
      { x with temp := readValue s dome ix count, diffs := readDiffs s dome ix x (readValue s dome ix count) }) dome ix := by
  have htr : trimD (trimOf s dome ix) ≠ 0 := by intro h0; rw [h0] at htrim; exact absurd htrim (by decide)
  have hzero : (trimOf s dome ix == 0) = false := by
    rw [beq_eq_false_iff_ne]
    intro h0
    exact htr (by rw [h0]; decide)
  have hout : ¬ (x.bad || (trimOf s dome ix == 0 || decide ((trimD (trimOf s dome ix)).natAbs < 160) || decide (readValue s dome ix count < -160) ||
      decide (readValue s dome ix count > 600)) || decide (readDiffs s dome ix x (readValue s dome ix count) ≥ 3)) = true := by
    rw [hbad, hzero]
    simp only [Bool.false_or, Bool.or_eq_true, decide_eq_true_eq]
    omega
  unfold takeReading
  rw [h]
  dsimp only
  rw [if_neg htr]
  exact congrArg (sweepMark · dome ix) (if_neg hout)

theorem takeReading_bad {count : Nat} (h : getSensor s dome ix = some x)
    (hout : (trimD (trimOf s dome ix)).natAbs < 160 ∨ readValue s dome ix count < -160 ∨ 600 < readValue s dome ix count ∨
      3 ≤ readDiffs s dome ix x (readValue s dome ix count)) :
    ∃ d, takeReading s dome ix count = sweepMark (markBad s dome ix { x with diffs := d }) dome ix := by
  unfold takeReading
  rw [h]
  dsimp only
  by_cases htr : trimD (trimOf s dome ix) = 0
  · rw [if_pos htr]
    refine ⟨_, congrArg (sweepMark · dome ix) (if_pos ?_)⟩
    simp [htr]
  · rw [if_neg htr]
    refine ⟨_, congrArg (sweepMark · dome ix) (if_pos ?_)⟩
    change (x.bad || (trimOf s dome ix == 0 || decide ((trimD (trimOf s dome ix)).natAbs < 160) || decide (readValue s dome ix count < -160) ||
      decide (readValue s dome ix count > 600)) || decide (readDiffs s dome ix x (readValue s dome ix count) ≥ 3)) = true
    simp only [Bool.or_eq_true, decide_eq_true_eq]
    rcases hout with h | h | h | h
    · exact .inl (.inr (.inl (.inl (.inr h))))
    · exact .inl (.inr (.inl (.inr h)))
    · exact .inl (.inr (.inr h))
    · exact .inr h

end

/-- Settles O59: what a reading makes of its sensor and of the die, and a fall of a level. -/
theorem temperatureSensors : Obligations.TemperatureSensors := by
  refine ⟨?read, ?fall⟩
  case read =>
    intro s dome ix count x hx hbad tr v good later
    have bytes : (takeReading s dome ix count).cistern.data = s.cistern.data := (takeReading_keeps dome ix count (Keeps.rfl_ _ s) (List.Subset.refl _)).same.bytes_eq.1
    have taken (hgood : good) (hd : readDiffs s dome ix x v < 3) : ∃ y, getSensor (takeReading s dome ix count) dome ix = some y ∧
        y = readGood s { x with temp := v, diffs := readDiffs s dome ix x v } ∧
        (2 ≤ y.trips → (takeReading s dome ix count).pads.thermtrip = true ∧ (takeReading s dome ix count).thermal.level = 3) ∧
        (y.trips < 2 → (takeReading s dome ix count).pads = s.pads) := by
      obtain ⟨htrim, hlo, hhi⟩ := hgood
      obtain ⟨sensor, trip, noTrip⟩ := goodReading_effect hx { x with temp := v, diffs := readDiffs s dome ix x v }
      have run : takeReading s dome ix count = sweepMark (goodReading s dome ix { x with temp := v, diffs := readDiffs s dome ix x v }) dome ix :=
        takeReading_good hx hbad htrim hlo hhi hd
      generalize goodReading s dome ix _ = w at run sensor trip noTrip
      obtain ⟨same, level, -⟩ := sweepMark_leaves w dome ix
      rw [run]
      refine ⟨_, (getSensor_of_same same dome ix).trans sensor, rfl, fun h2 => ?_, fun h2 => (same .pads (by decide)).trans (noTrip h2)⟩
      exact ⟨(congrArg Pads.thermtrip (same .pads (by decide))).trans (trip h2).1, level (trip h2).1 (trip h2).2⟩
    have failed (hout : (trimD tr).natAbs < 160 ∨ v < -160 ∨ 600 < v ∨ 3 ≤ readDiffs s dome ix x v) : ∃ y, getSensor (takeReading s dome ix count) dome ix = some y ∧
        y.bad = true ∧ y.lvl = 0 ∧ y.trips = 0 ∧ (takeReading s dome ix count).thermal.snsbad = true ∧ (takeReading s dome ix count).pads = s.pads := by
      obtain ⟨d, run⟩ := takeReading_bad hx hout
      obtain ⟨t, b, sensor, snsbad, pads⟩ := markBad_effect hx (x := { x with diffs := d }) hbad
      generalize markBad s dome ix _ = w at run sensor snsbad pads
      obtain ⟨same, -, sns⟩ := sweepMark_leaves w dome ix
      rw [run]
      exact ⟨_, (getSensor_of_same same dome ix).trans sensor, rfl, rfl, rfl, sns.trans snsbad, (same .pads (by decide)).trans pads⟩
    refine ⟨fun hgood hdiffs hnear => ?near, fun hgood hdome hlater hfar hvalid => ?far, fun hout => ?out⟩
    case near =>
      have hd : readDiffs s dome ix x v < 3 := by
        unfold readDiffs
        rcases hnear with h | h | h
        · rw [h]
          split
          · exact hdiffs
          · exact Nat.zero_lt_succ _
        · rw [if_pos h]
          exact hdiffs
        · have near : decide ((v - domeRef s (ix / 256)).natAbs > 100) = false := decide_eq_false (Nat.not_lt_of_le h)
          rw [near, Bool.and_false, Bool.false_and, if_neg Bool.false_ne_true]
          split
          · exact hdiffs
          · exact Nat.zero_lt_succ _
      obtain ⟨y, sensor, hy, trip, noTrip⟩ := taken hgood hd
      have trips : y.trips = if v ≥ thrAt s 4 then x.trips + 1 else 0 := by rw [hy]; rfl
      refine ⟨_, y, rfl, sensor, ?_, ?_, ?_, ?_, fun hlt => ?_, fun hge h1 => trip ?_, fun hge h0 => ?_, bytes⟩
      · rw [hy]; rfl
      · rw [hy]; rfl
      · rw [hy]; exact hbad
      · rw [hy]; rfl
      · rw [if_neg (by omega)] at trips
        exact ⟨trips, noTrip (by omega)⟩
      · rw [if_pos hge] at trips
        omega
      · rw [if_pos hge, h0] at trips
        exact ⟨trips, noTrip (by omega)⟩
    case far =>
      have hd : readDiffs s dome ix x v = x.diffs + 1 := by
        have valid : ((getDome s (ix / 256)).map (·.sensor.valid)).getD false = true := by rw [hvalid]; rfl
        unfold readDiffs
        rw [if_neg (by rw [show s.thermal.sweptSet.contains (dome, ix) = false from hlater]; exact Bool.false_ne_true), hdome, decide_eq_true hfar, valid]
        rfl
      by_cases h2 : x.diffs < 2
      · obtain ⟨y, sensor, hy, -, -⟩ := taken hgood (by omega)
        refine ⟨_, y, rfl, sensor, fun _ => ?_, fun hge => absurd h2 (Nat.not_lt_of_le hge), bytes⟩
        rw [hy]
        exact ⟨hd, hbad, rfl⟩
      · obtain ⟨y, sensor, hb, hl, -, sns, pads⟩ := failed (.inr (.inr (.inr (by omega))))
        exact ⟨_, y, rfl, sensor, fun hlt => absurd hlt h2, fun _ => ⟨hb, hl, sns, pads⟩, bytes⟩
    case out =>
      obtain ⟨y, sensor, hb, hl, ht, sns, pads⟩ := failed (by
        rcases hout with h | h | h
        · exact .inl h
        · exact .inr (.inl h)
        · exact .inr (.inr (.inl h)))
      exact ⟨_, y, rfl, sensor, hb, hl, ht, sns, pads, bytes⟩
  case fall =>
    intro s dome ix x hx hyst
    constructor
    · intro hl hb ht
      have falls : ¬ (x.lvl = 0 ∨ x.bad = true ∨ x.temp ≥ thrAt s x.lvl - hyst) := by
        rintro (h | h | h)
        · exact hl h
        · rw [hb] at h; exact Bool.noConfusion h
        · omega
      change ∃ t, execLevelFall dome ix s = .next t ∧ _
      unfold execLevelFall
      rw [hx]
      dsimp only
      rw [if_neg falls]
      refine ⟨_, rfl, ?_⟩
      have put := getSensor_putSensor hx { x with lvl := x.lvl - 1 }
      have put_ := (putSensor_keeps dome ix { x with lvl := x.lvl - 1 } (Keeps.rfl_ _ s) (List.Subset.refl _)).same
      generalize putSensor s dome ix { x with lvl := x.lvl - 1 } = u at put put_ ⊢
      have drive := driveLevel_same u
      generalize driveLevel u = v at drive ⊢
      have noted (r : Rec) : Same [.alert, .inputs, .cistern, .parts, .records, .early, .near] v
          (if x.lvl = 1 then thermInput (addRec v r) dome ix 0x02 else addRec v r) := by
        refine Keeps.same ?_
        have recorded : Keeps [.alert, .inputs, .cistern, .parts, .records, .early, .near] v (addRec v r) := addRec_keeps r (Keeps.rfl_ _ v) (by decide)
        split
        · exact thermInput_keeps _ _ _ recorded (by decide)
        · exact recorded
      have after := noted (thermRec v dome ix x.lvl (x.lvl - 1) x.temp false)
      refine ⟨?_, ?_, ?_, ?_⟩
      · rw [getSensor_of_same after, getSensor_of_same drive, put]
      · exact (after .pads (by decide)).trans ((drive .pads (by decide)).trans (put_ .pads (by decide)))
      · exact (after .tiles (by decide)).trans ((drive .tiles (by decide)).trans (put_ .tiles (by decide)))
      · exact after.bytes_eq.1.trans (drive.bytes_eq.1.trans put_.bytes_eq.1)
    · intro h
      change execLevelFall dome ix s = _
      unfold execLevelFall
      rw [hx]
      exact congrArg Host.Outcome.next (if_pos h)

end Sys2Proof.Machine
end

section
/-! Step 1 of bring-up (R399 to R415). -/

set_option Elab.async false

namespace Sys2Proof.Machine

/-! ### Step 1 of bring-up (R399 to R415) -/

theorem fuseReadOk_iff (r : FuseRead) : fuseReadOk r = true ↔ r.first = r.second ∧ r.first.crcs.length = 14 ∧
    ∀ x ∈ (fuseRegions r.first.array).zip r.first.crcs, (x.1.2 = 0 ∧ x.2 = 0) ∨ crc32c (leBytes x.1.1 x.1.2) = x.2 := by
  rw [fuseReadOk, Bool.and_eq_true, Bool.and_eq_true, beq_iff_eq, beq_iff_eq, List.all_eq_true, and_assoc]
  simp only [regionOk, Bool.or_eq_true, Bool.and_eq_true, beq_iff_eq]

/-- R424: a bring-up that fails: what it asserts and stops, and what it leaves. -/
theorem bringFail_fails {s : State} (cause : Nat) (h : s.boot.step ≠ 7) :
    (bringFail s cause).boot.step = 7 ∧ (bringFail s cause).boot.fail = cause ∧ (bringFail s cause).keep.fault = true ∧
      (bringFail s cause).thermal.level = 3 ∧ (bringFail s cause).belfry.run = false ∧ (bringFail s cause).nvm = s.nvm ∧
      (bringFail s cause).cistern.data = s.cistern.data := by
  obtain ⟨boot, fault, run, level⟩ := bringFail_effect cause h
  have same := (bringFail_keeps cause (Keeps.rfl_ _ s) (List.Subset.refl _)).same
  rw [boot]
  exact ⟨rfl, rfl, fault, level, run, same .nvm (by decide), same.bytes_eq.1⟩

/-- What the load of an image sets, and what the start of a tile leaves of it. -/
structure Loaded (s t : State) : Prop where
  image : t.image = s.image
  key : t.imageKey = s.imageKey
  slot : t.boot.slot = s.boot.slot
  step : t.boot.step = s.boot.step
  fuses : t.fuses = s.fuses
  tiles : t.tiles.map (·.ix) = s.tiles.map (·.ix)
  spires : t.spires.length = s.spires.length
  domes : t.domes.length = s.domes.length

theorem Loaded.trans {s t u : State} (h : Loaded s t) (g : Loaded t u) : Loaded s u :=
  ⟨g.image.trans h.image, g.key.trans h.key, g.slot.trans h.slot, g.step.trans h.step, g.fuses.trans h.fuses, g.tiles.trans h.tiles, g.spires.trans h.spires, g.domes.trans h.domes⟩

theorem loaded_of_same {l : List Fld} {s t : State} (h : Same l s t) (image : .image ∉ l := by decide) (boot : .boot ∉ l := by decide)
    (fuses : .fuses ∉ l := by decide) (tiles : .tiles ∉ l := by decide) (spires : .spires ∉ l := by decide) (domes : .domes ∉ l := by decide) : Loaded s t :=
  ⟨h.image_eq image, h.imageKey_eq image, congrArg Boot.slot (h .boot boot), congrArg Boot.step (h .boot boot), h .fuses fuses, congrArg _ (h .tiles tiles), congrArg _ (h .spires spires), congrArg _ (h .domes domes)⟩

theorem loaded_updTile (s : State) (i : Nat) (f : Tile → Tile) (hf : ∀ x, (f x).ix = x.ix) : Loaded s (updTile s i f) := by
  refine ⟨rfl, rfl, rfl, rfl, rfl, ?_, rfl, rfl⟩
  rw [updTile, List.map_map]
  refine List.map_congr_left fun x _ => ?_
  dsimp only [Function.comp]
  split
  · exact hf x
  · rfl

theorem loaded_updSp (s : State) (i : Nat) (f : Spire → Spire) : Loaded s (updSp s i f) := ⟨rfl, rfl, rfl, rfl, rfl, rfl, List.length_map _, rfl⟩

theorem loaded_testFirst (s : State) (ix : Nat) : Loaded s (testFirst s ix) := by
  unfold testFirst
  dsimp only
  split
  · exact loaded_of_same (Same.rfl_ [] s)
  · exact (loaded_updSp s ix _).trans (loaded_updTile _ ix (fun t => { t with reqs := t.reqs ++ [_] }) fun _ => rfl)

theorem loaded_startTile (s : State) (ix : Nat) : Loaded s (startTile s ix) := by
  have snap (old new : Nat) : Loaded s (snapshotDue s old new) := by
    unfold snapshotDue
    split <;> exact ⟨rfl, rfl, rfl, rfl, rfl, rfl, rfl, rfl⟩
  have rec_ (v : State) (r : Rec) : Loaded v (addRec v r) := loaded_of_same (addRec_same v r)
  unfold startTile
  dsimp only
  split
  · exact loaded_of_same (Same.rfl_ [] s)
  · generalize hw : addRec (updSp _ _ _) _ = w
    have first : Loaded s w := by
      rw [← hw]
      refine Loaded.trans ?_ (rec_ _ _)
      refine Loaded.trans ?_ (loaded_updSp _ ix _)
      exact Loaded.trans (snap (lastState s ix) (startState s ix)) (loaded_updTile _ ix _ fun _ => rfl)
    split
    · exact first.trans (loaded_testFirst w ix)
    · exact first

theorem loaded_foldl {α : Type} {f : State → α → State} (hf : ∀ v a, Loaded v (f v a)) (l : List α) (s : State) : Loaded s (l.foldl f s) := by
  induction l generalizing s with
  | nil => exact loaded_of_same (Same.rfl_ [] s)
  | cons a l ih => exact (hf s a).trans (ih _)


theorem loaded_takeBlob (s : State) (x : List Byte × Nat) : Loaded s (takeBlob s x) := by
  have bad (r : Rec) : Loaded s (addRec { s with boot := { s.boot with rejected := min 31 (s.boot.rejected + 1) } } r) :=
    Loaded.trans (t := { s with boot := { s.boot with rejected := min 31 (s.boot.rejected + 1) } }) ⟨rfl, rfl, rfl, rfl, rfl, rfl, rfl, rfl⟩
      (loaded_of_same (addRec_same _ r))
  unfold takeBlob
  dsimp only
  split
  · exact bad _
  · split
    · exact ⟨rfl, rfl, rfl, rfl, rfl, rfl, rfl, rfl⟩
    · exact bad _

theorem loaded_takeLicences (s : State) (blobs : List (List Byte)) : Loaded s (takeLicences s blobs) :=
  Loaded.trans (t := { s with boot := { s.boot with ent := s.fuses.licFloor } }) ⟨rfl, rfl, rfl, rfl, rfl, rfl, rfl, rfl⟩ (loaded_foldl loaded_takeBlob _ _)

theorem loaded_loadFirmware (s : State) (code : List Byte) : Loaded s (loadFirmware s code) := by
  have step (v : State) (b : Byte × Nat) : Loaded v (cisStore (cisStore v 0 b.2 b.1) 1 b.2 b.1) :=
    loaded_of_same (l := [.bytes, .cistern])
      (cisStore_keeps 1 b.2 b.1 (cisStore_keeps 0 b.2 b.1 (Keeps.rfl_ _ v) (List.Subset.refl _)) (List.Subset.refl _)).same
  have stored := loaded_foldl step code.zipIdx s
  unfold loadFirmware
  dsimp only
  generalize code.zipIdx.foldl (fun s b => cisStore (cisStore s 0 b.2 b.1) 1 b.2 b.1) s = v at stored ⊢
  exact stored.trans ⟨rfl, rfl, rfl, rfl, rfl, rfl, rfl, rfl⟩

/-- The image `im`, read from slot `slot` under `key`, is loaded, at `step` of bring-up with the fuses `f`. -/
structure ImageIn (im : Image) (key : Nat) (slot : Bool) (step : Nat) (f : FuseArray) (t : State) : Prop where
  image : t.image = some im
  key : t.imageKey = key
  slot : t.boot.slot = slot
  tiles : t.tiles.map (·.ix) = im.geom.spires.map (·.ix)
  spires : t.spires.length = im.geom.spires.length
  domes : t.domes.length = im.geom.domes.length
  step : t.boot.step = step
  fuses : t.fuses = f

theorem ImageIn.of_loaded {im : Image} {key : Nat} {slot : Bool} {step : Nat} {f : FuseArray} {s t : State} (h : ImageIn im key slot step f s) (g : Loaded s t) :
    ImageIn im key slot step f t :=
  ⟨g.image.trans h.image, g.key.trans h.key, g.slot.trans h.slot, g.tiles.trans h.tiles, g.spires.trans h.spires, g.domes.trans h.domes,
    g.step.trans h.step, g.fuses.trans h.fuses⟩

theorem loaded_chargeRest (s : State) : Loaded s (chargeRest s) := by
  unfold chargeRest
  refine loaded_foldl (fun v p => ?_) _ s
  split <;> exact ⟨rfl, rfl, rfl, rfl, rfl, rfl, rfl, rfl⟩

theorem loaded_spareAlert (s : State) : Loaded s (spareAlert s) := loaded_of_same (spareAlert_keeps (Keeps.rfl_ _ s) (List.Subset.refl _)).same

theorem loaded_thmCount (s : State) (k n : Nat) : Loaded s (thmCount s k n) := loaded_of_same (thmCount_keeps k n (Keeps.rfl_ _ s) (List.Subset.refl _)).same

/-- R414: what the load of a checked image leaves in the block. -/
theorem imageIn_loadImage (s : State) (r : ImageRead) (im : Image) (key : Nat) : ImageIn im key r.slotB s.boot.step s.fuses (loadImage s r im key) := by
  unfold loadImage
  dsimp only
  refine ImageIn.of_loaded ?_ (loaded_foldl loaded_startTile _ _)
  refine ImageIn.of_loaded ?_ (loaded_spareAlert _)
  refine ImageIn.of_loaded ?_ (loaded_chargeRest _)
  refine ImageIn.of_loaded ?_ (loaded_takeLicences _ _)
  refine ImageIn.of_loaded ?_ (loaded_thmCount _ _ _)
  refine ImageIn.of_loaded ?_ (loaded_loadFirmware _ _)
  refine ⟨rfl, rfl, rfl, ?_, ?_, ?_, rfl, rfl⟩
  · exact List.map_map
  · exact List.length_map _
  · rw [List.length_map, List.length_map, List.length_range]

/-! #### The check of an image (R411, R412) -/

/-- R412: the codes of the slots' headers. -/
def headerCodes (s : State) (r : ImageRead) : State :=
  [false, true].foldl (fun s b => if slotHdr r (r.slotB == b) = 0 then s else setImgCode s b (slotHdr r (r.slotB == b))) s

theorem headerCodes_frame (s : State) (r : ImageRead) :
    headerCodes s r = { s with boot := { s.boot with imgA := (headerCodes s r).boot.imgA, imgB := (headerCodes s r).boot.imgB } } := by
  have one (v : State) (b : Bool) : (if slotHdr r (r.slotB == b) = 0 then v else setImgCode v b (slotHdr r (r.slotB == b))) =
      { v with boot := { v.boot with imgA := (if slotHdr r (r.slotB == b) = 0 then v else setImgCode v b (slotHdr r (r.slotB == b))).boot.imgA,
                                     imgB := (if slotHdr r (r.slotB == b) = 0 then v else setImgCode v b (slotHdr r (r.slotB == b))).boot.imgB } } := by
    split
    · rfl
    · cases b <;> rfl
  change (if slotHdr r (r.slotB == true) = 0 then _ else setImgCode _ true _) = _
  rw [headerCodes, List.foldl_cons, List.foldl_cons, List.foldl_nil, one _ true, one s false]

theorem imgCode_setImgCode (s : State) (b : Bool) (c : Nat) : imgCode (setImgCode s b c) b = c := by cases b <;> rfl

theorem imgCode_of_boot {s t : State} (hA : t.boot.imgA = s.boot.imgA) (hB : t.boot.imgB = s.boot.imgB) (b : Bool) : imgCode t b = imgCode s b := by
  cases b
  · exact hA
  · exact hB

theorem noImage_leaves (s : State) : (noImage s).boot.imgA = s.boot.imgA ∧ (noImage s).boot.imgB = s.boot.imgB ∧ (noImage s).image = s.image := by
  have image := (noImage_keeps (Keeps.rfl_ _ s) (List.Subset.refl _)).same.image_eq
  change (bringFail s bfNoimage).boot.imgA = _ ∧ (bringFail s bfNoimage).boot.imgB = _ ∧ _
  by_cases h : s.boot.step = 7
  · rw [bringFail, if_pos h]
    exact ⟨rfl, rfl, image⟩
  · rw [(bringFail_effect bfNoimage h).1]
    exact ⟨rfl, rfl, image⟩

/-- R411: a slot whose image is good is loaded. -/
theorem trySlot_good {s : State} {r : ImageRead} {im : Image} {key : Nat} (h : checkImage s.built s.fuses r = .good im key) :
    ImageIn im key r.slotB s.boot.step s.fuses (trySlot s r) := by
  unfold trySlot
  rw [h]
  dsimp only
  generalize hv : ({ s with boot := _ } : State) = v
  have leaves : v.boot.step = s.boot.step ∧ v.fuses = s.fuses := by rw [← hv]; exact ⟨rfl, rfl⟩
  rw [← leaves.1, ← leaves.2]
  exact imageIn_loadImage v r im key

/-- R411, R412: a slot whose image is bad has its check code. -/
theorem trySlot_bad {s : State} {r : ImageRead} {c : Nat} (h : checkImage s.built s.fuses r = .bad c) (hnone : s.image = none) :
    imgCode (trySlot s r) r.slotB = c ∧ (trySlot s r).image = none := by
  unfold trySlot
  rw [h]
  dsimp only
  generalize hw : addRec (setImgCode s r.slotB c) _ = w
  have same : Same [.alert, .cistern, .parts, .records, .early, .near] (setImgCode s r.slotB c) w := by rw [← hw]; exact addRec_same _ _
  have boot := same .boot (by decide)
  have code : imgCode w r.slotB = c := (imgCode_of_boot (congrArg Boot.imgA boot) (congrArg Boot.imgB boot) _).trans (imgCode_setImgCode s _ c)
  have image : w.image = none := same.image_eq.trans hnone
  split
  · obtain ⟨hA, hB, hi⟩ := noImage_leaves w
    exact ⟨(imgCode_of_boot hA hB _).trans code, hi.trans image⟩
  · exact ⟨code, image⟩

theorem exec_imageCheck {s : State} {r : ImageRead} (hstep : s.boot.step = 1) (hdisc : s.boot.discovered = true) (hnone : s.image = none) :
    exec (.imageCheck r) s = .next (if (trialOrder r).isEmpty then noImage (headerCodes s r)
      else if ((trialOrder r).find? fun b => imgCode s b == 0) = some r.slotB then
        trySlot (streamImage { headerCodes s r with nvm := { (headerCodes s r).nvm with ins := imageIns s r } } r.bytes) r
      else s) := by
  have h : ¬ (s.boot.step ≠ 1 ∨ (!s.boot.discovered) = true ∨ s.image.isSome = true) := by
    rw [hstep, hdisc, hnone]
    decide
  exact congrArg Host.Outcome.next (if_neg h)

/-- Settles O52: the events of step 1 of bring-up. -/
theorem bringUpStep1 : Obligations.BringUpStep1 := by
  unfold Obligations.BringUpStep1
  intro fails
  have failing {s : State} {c : Instr} (cause : Nat) (hstep : s.boot.step = 1) (run : exec c s = .next (bringFail s cause)) : fails s c cause := by
    obtain ⟨step, fail, fault, level, belfry, nvm, data⟩ := bringFail_fails (s := s) cause (by omega)
    exact ⟨_, run, step, fail, fault, level, belfry, nvm, data⟩
  refine ⟨?fuse, ?blow, ?before, ?image, ?noSlot, ?firmware, ?other⟩
  case fuse =>
    intro s r checks good
    have ok : fuseReadOk r = true ↔ good := fuseReadOk_iff r
    refine ⟨fun hsafe hgood => ?_, fun hsafe hstep hread hgood => ?_, fun hstep hread hbad => ⟨fun hfew => ?_, fun hmany => ?_⟩⟩
    · exact congrArg Host.Outcome.next (if_pos ⟨hsafe, ok.2 hgood⟩)
    · have h1 : ¬ (inSafe s uFus = true ∧ fuseReadOk r = true) := by rw [hsafe]; exact fun h => Bool.false_ne_true h.1
      have h2 : ¬ (s.boot.step ≠ 1 ∨ s.boot.readOk = true) := by rw [hstep, hread]; decide
      exact congrArg Host.Outcome.next ((if_neg h1).trans ((if_neg h2).trans (if_pos (ok.2 hgood))))
    all_goals
      have h0 : ¬ fuseReadOk r = true := fun h => hbad (ok.1 h)
      have h1 : ¬ (inSafe s uFus = true ∧ fuseReadOk r = true) := fun h => h0 h.2
      have h2 : ¬ (s.boot.step ≠ 1 ∨ s.boot.readOk = true) := by rw [hstep, hread]; decide
    · exact congrArg Host.Outcome.next ((if_neg h1).trans ((if_neg h2).trans ((if_neg h0).trans (if_pos hfew))))
    · exact failing bfFuse hstep (congrArg Host.Outcome.next ((if_neg h1).trans ((if_neg h2).trans ((if_neg h0).trans (if_neg (Nat.not_lt_of_le hmany))))))
  case blow =>
    intro s p _ hlock hwf
    exact ⟨_, congrArg Host.Outcome.next (if_pos ((tapSelects_manufacturing (s := loadIr s p.op) hwf rfl).trans (if_pos hlock))), rfl⟩
  case before =>
    intro s hstep hread hdisc
    have lock : beforeLock s = true := by rw [beforeLock, hstep, hread, hdisc]; rfl
    refine ⟨failing bfNotref hstep (congrArg Host.Outcome.next (if_pos lock)), failing bfPll hstep (congrArg Host.Outcome.next (if_pos lock)), fun d => ?_⟩
    exact congrArg Host.Outcome.next (if_neg (by rw [lock]; exact Bool.false_ne_true))
  case image =>
    intro s r hstep hdisc hnone hturn
    have hne : ¬ (trialOrder r).isEmpty = true := by
      intro h
      rw [List.isEmpty_iff.1 h] at hturn
      cases hturn
    have run := exec_imageCheck (r := r) hstep hdisc hnone
    rw [if_neg hne, if_pos hturn] at run
    refine ⟨_, run, ?_⟩
    have codes := headerCodes_frame s r
    generalize hv : ({ headerCodes s r with nvm := _ } : State) = v
    have leaves : v.built = s.built ∧ v.fuses = s.fuses ∧ v.image = s.image ∧ v.boot.step = s.boot.step := by
      rw [← hv, codes]
      exact ⟨rfl, rfl, rfl, rfl⟩
    obtain ⟨built, fuses, image, step⟩ := leaves
    have stream := (streamImage_keeps r.bytes (Keeps.rfl_ _ v) (List.Subset.refl _)).same
    have checked : checkImage (streamImage v r.bytes).built (streamImage v r.bytes).fuses r = checkImage s.built s.fuses r := by
      rw [stream .built (by decide), stream .fuses (by decide), built, fuses]
    split
    · next im key h =>
      have effect := trySlot_good (checked.trans h)
      rw [stream .fuses (by decide), stream .boot (by decide), fuses, step, hstep] at effect
      exact ⟨effect.image, effect.key, effect.slot, effect.tiles, effect.spires, effect.domes, effect.step, effect.fuses⟩
    · next c h => exact trySlot_bad (checked.trans h) (stream.image_eq.trans (image.trans hnone))
  case noSlot =>
    intro s r hstep hdisc hnone hempty
    have run := exec_imageCheck (r := r) hstep hdisc hnone
    rw [if_pos (by rw [hempty]; rfl)] at run
    have codes := headerCodes_frame s r
    have leaves : (headerCodes s r).boot.step = 1 ∧ (headerCodes s r).nvm = s.nvm ∧ (headerCodes s r).cistern = s.cistern := by
      rw [codes]
      exact ⟨hstep, rfl, rfl⟩
    obtain ⟨step1, nvm1, cistern1⟩ := leaves
    obtain ⟨step, fail, fault, level, belfry, nvm, data⟩ := bringFail_fails (s := headerCodes s r) bfNoimage (by omega)
    exact ⟨_, run, step, fail, fault, level, belfry, nvm.trans nvm1, data.trans (congrArg Cistern.data cistern1)⟩
  case firmware =>
    intro s hstep himage
    have h : ¬ (s.boot.step ≠ 1 ∨ s.image.isNone = true) := by
      rw [hstep]
      cases hi : s.image with
      | none => rw [hi] at himage; exact absurd himage Bool.false_ne_true
      | some im => exact fun h => h.elim (fun h => h rfl) Bool.false_ne_true
    exact congrArg Host.Outcome.next (if_neg h)
  case other =>
    intro s hstep
    have lock : ¬ beforeLock s = true := by simp [beforeLock, hstep]
    refine ⟨fun hsafe r => ?_, congrArg Host.Outcome.next (if_neg lock), congrArg Host.Outcome.next (if_neg lock), fun d => ?_, fun r => ?_, ?_⟩
    · have h1 : ¬ (inSafe s uFus = true ∧ fuseReadOk r = true) := by rw [hsafe]; exact fun h => Bool.false_ne_true h.1
      exact congrArg Host.Outcome.next ((if_neg h1).trans (if_pos (.inl hstep)))
    · exact congrArg Host.Outcome.next (if_pos (by simpa using lock))
    · exact congrArg Host.Outcome.next (if_pos (.inl hstep))
    · exact congrArg Host.Outcome.next (if_pos (.inl hstep))

end Sys2Proof.Machine
end

section
/-! What an operation may change in the tiles. -/

set_option Elab.async false

namespace Sys2Proof.Machine

/-! ### What an operation may change in the tiles of the Keep -/

/-- The fields of a tile but its index. -/
inductive TlFld where
  | state | part | fseq | out | next | superseded | offDue | watch | wd | wdHeld | ranOut | missed | lost | slow
    | slowRaised | reqs | run | ptr | lastSlice | fullPass | acceptedEpochs | fencedAt | resetDone
  deriving DecidableEq

/-- A field is the same in both tiles. -/
abbrev TlFld.Eq (f : TlFld) (x y : Tile) : Prop :=
  match f with
  | .state => y.state = x.state
  | .part => y.part = x.part
  | .fseq => y.fseq = x.fseq
  | .out => y.out = x.out
  | .next => y.next = x.next
  | .superseded => y.superseded = x.superseded
  | .offDue => y.offDue = x.offDue
  | .watch => y.watch = x.watch
  | .wd => y.wd = x.wd
  | .wdHeld => y.wdHeld = x.wdHeld
  | .ranOut => y.ranOut = x.ranOut
  | .missed => y.missed = x.missed
  | .lost => y.lost = x.lost
  | .slow => y.slow = x.slow
  | .slowRaised => y.slowRaised = x.slowRaised
  | .reqs => y.reqs = x.reqs
  | .run => y.run = x.run
  | .ptr => y.ptr = x.ptr
  | .lastSlice => y.lastSlice = x.lastSlice
  | .fullPass => y.fullPass = x.fullPass
  | .acceptedEpochs => y.acceptedEpochs = x.acceptedEpochs
  | .fencedAt => y.fencedAt = x.fencedAt
  | .resetDone => y.resetDone = x.resetDone

/-- The tile `x` with the fields that `m` lists taken from `y`; for a list written out it is `{ x with … := y.… }` by definition. -/
def tlChanged (m : List TlFld) (x y : Tile) : Tile where
  ix := x.ix
  state := if .state ∈ m then y.state else x.state
  part := if .part ∈ m then y.part else x.part
  fseq := if .fseq ∈ m then y.fseq else x.fseq
  out := if .out ∈ m then y.out else x.out
  next := if .next ∈ m then y.next else x.next
  superseded := if .superseded ∈ m then y.superseded else x.superseded
  offDue := if .offDue ∈ m then y.offDue else x.offDue
  watch := if .watch ∈ m then y.watch else x.watch
  wd := if .wd ∈ m then y.wd else x.wd
  wdHeld := if .wdHeld ∈ m then y.wdHeld else x.wdHeld
  ranOut := if .ranOut ∈ m then y.ranOut else x.ranOut
  missed := if .missed ∈ m then y.missed else x.missed
  lost := if .lost ∈ m then y.lost else x.lost
  slow := if .slow ∈ m then y.slow else x.slow
  slowRaised := if .slowRaised ∈ m then y.slowRaised else x.slowRaised
  reqs := if .reqs ∈ m then y.reqs else x.reqs
  run := if .run ∈ m then y.run else x.run
  ptr := if .ptr ∈ m then y.ptr else x.ptr
  lastSlice := if .lastSlice ∈ m then y.lastSlice else x.lastSlice
  fullPass := if .fullPass ∈ m then y.fullPass else x.fullPass
  acceptedEpochs := if .acceptedEpochs ∈ m then y.acceptedEpochs else x.acceptedEpochs
  fencedAt := if .fencedAt ∈ m then y.fencedAt else x.fencedAt
  resetDone := if .resetDone ∈ m then y.resetDone else x.resetDone

/-- `y` is the tile `x` but for the fields that `m` lists, and is `x` where `i` does not cover it. -/
structure TlRel (i : Option Nat) (m : List TlFld) (x y : Tile) : Prop where
  ix : y.ix = x.ix
  same : ∀ f, f ∉ m → f.Eq x y
  other : ¬ Covers i x.ix → y = x

section
variable {i : Option Nat} {m : List TlFld} {x y z : Tile}

theorem TlRel.rfl_ (x : Tile) : TlRel i m x x := ⟨rfl, fun f _ => by cases f <;> rfl, fun _ => rfl⟩

theorem TlRel.trans (h : TlRel i m x y) (g : TlRel i m y z) : TlRel i m x z where
  ix := g.ix.trans h.ix
  same f hf := by
    have a := h.same f hf
    have b := g.same f hf
    cases f <;> exact b.trans a
  other hc := (g.other (by rwa [h.ix])).trans (h.other hc)

theorem TlRel.mono {n : List TlFld} (h : TlRel i m x y) (hm : m ⊆ n) : TlRel i n x y :=
  ⟨h.ix, fun f hf => h.same f fun hin => hf (hm hin), h.other⟩

theorem TlRel.widen {n : List TlFld} (h : TlRel i m x y) (hm : m ⊆ n) : TlRel none n x y :=
  ⟨h.ix, fun f hf => h.same f fun hin => hf (hm hin), fun hc => absurd trivial hc⟩

theorem TlRel.frame (h : TlRel i m x y) : y = tlChanged m x y := by
  have took (f : TlFld) {α : Type} {a b : α} (e : f ∉ m → b = a) : b = if f ∈ m then b else a := by
    split
    · rfl
    · next hf => exact e hf
  have ix := h.ix
  have state := took .state (h.same .state)
  have part := took .part (h.same .part)
  have fseq := took .fseq (h.same .fseq)
  have out := took .out (h.same .out)
  have next := took .next (h.same .next)
  have superseded := took .superseded (h.same .superseded)
  have offDue := took .offDue (h.same .offDue)
  have watch := took .watch (h.same .watch)
  have wd := took .wd (h.same .wd)
  have wdHeld := took .wdHeld (h.same .wdHeld)
  have ranOut := took .ranOut (h.same .ranOut)
  have missed := took .missed (h.same .missed)
  have lost := took .lost (h.same .lost)
  have slow := took .slow (h.same .slow)
  have slowRaised := took .slowRaised (h.same .slowRaised)
  have reqs := took .reqs (h.same .reqs)
  have run := took .run (h.same .run)
  have ptr := took .ptr (h.same .ptr)
  have lastSlice := took .lastSlice (h.same .lastSlice)
  have fullPass := took .fullPass (h.same .fullPass)
  have acceptedEpochs := took .acceptedEpochs (h.same .acceptedEpochs)
  have fencedAt := took .fencedAt (h.same .fencedAt)
  have resetDone := took .resetDone (h.same .resetDone)
  cases y
  simp only [tlChanged, Tile.mk.injEq]
  exact ⟨ix, state, part, fseq, out, next, superseded, offDue, watch, wd, wdHeld, ranOut, missed, lost, slow, slowRaised, reqs, run, ptr, lastSlice, fullPass, acceptedEpochs, fencedAt, resetDone⟩

theorem tlRel_of_frame {l : List TlFld} (e : y = tlChanged l x y) (hm : l ⊆ m) (hc : Covers i x.ix) : TlRel i m x y where
  ix := (congrArg Tile.ix e :)
  same f hf := by
    have out : f ∉ l := fun hin => hf (hm hin)
    rw [e]
    cases f <;> exact if_neg out
  other hno := absurd hc hno

end

/-- Nothing changes in the tiles that `i` covers but the fields that `m` lists, and nothing in the others. -/
def TlKeeps (i : Option Nat) (m : List TlFld) (s t : State) : Prop := List.Forall₂ (TlRel i m) s.tiles t.tiles

section
variable {i : Option Nat} {m : List TlFld} {s t u : State}

theorem TlKeeps.rfl_ (s : State) : TlKeeps i m s s := List.forall₂_same.2 fun x _ => TlRel.rfl_ x

theorem TlKeeps.trans (h : TlKeeps i m s t) (g : TlKeeps i m t u) : TlKeeps i m s u := by
  unfold TlKeeps at *
  generalize s.tiles = a, t.tiles = b, u.tiles = c at h g
  induction h generalizing c with
  | nil => cases g; exact .nil
  | cons hab _ ih =>
    cases g with
    | cons hbc g => exact .cons (hab.trans hbc) (ih _ g)

theorem TlKeeps.mono {n : List TlFld} (h : TlKeeps i m s t) (hm : m ⊆ n) : TlKeeps i n s t := h.imp fun _ _ r => r.mono hm

theorem TlKeeps.widen {n : List TlFld} (h : TlKeeps i m s t) (hm : m ⊆ n) : TlKeeps none n s t := h.imp fun _ _ r => r.widen hm

/-- What leaves the tiles. -/
theorem TlKeeps.of_eq (h : TlKeeps i m s u) (e : t.tiles = u.tiles) : TlKeeps i m s t := by rwa [TlKeeps, e]

/-- What leaves the tiles, by the frame of an operation. -/
theorem TlKeeps.of_same {l : List Fld} (h : TlKeeps i m s u) (e : Same l u t) (hl : .tiles ∉ l := by decide) : TlKeeps i m s t := h.of_eq (e .tiles hl)

theorem TlKeeps.updTile (h : TlKeeps i m s u) (j : Nat) (f : Tile → Tile) (l : List TlFld) (hf : ∀ x, f x = tlChanged l x (f x)) (hj : Covers i j)
    (hm : l ⊆ m) : TlKeeps i m s (updTile u j f) := by
  refine h.trans (forall₂_of_map _ _ fun x => ?_)
  split
  · next hx => exact tlRel_of_frame (hf x) hm (hx ▸ hj)
  · exact TlRel.rfl_ x

theorem TlKeeps.onTile (h : TlKeeps i m s u) (j : Nat) (f : Tile → State) (hf : ∀ t, getTile u j = some t → TlKeeps i m s (f t)) :
    TlKeeps i m s (onTile u j f) := by
  unfold Machine.onTile
  split
  · next t ht => exact hf t ht
  · exact h

theorem TlKeeps.foldl {α : Type} {f : State → α → State} (hf : ∀ v a, TlKeeps i m s v → TlKeeps i m s (f v a)) (h : TlKeeps i m s u) (l : List α) :
    TlKeeps i m s (l.foldl f u) := by
  induction l generalizing u with
  | nil => exact h
  | cons a l ih => exact ih (hf u a h)

theorem TlKeeps.getTile_none (h : TlKeeps i m s t) {j : Nat} (hs : getTile s j = none) : getTile t j = none := by
  unfold TlKeeps at h
  unfold getTile at *
  generalize s.tiles = a, t.tiles = b at h hs
  induction h with
  | nil => rfl
  | cons r _ ih =>
    rw [List.find?_cons] at hs ⊢
    rw [r.ix]
    split at hs
    · cases hs
    · exact ih hs

theorem TlKeeps.getTile_some (h : TlKeeps i m s t) {j : Nat} {x : Tile} (hs : getTile s j = some x) : ∃ y, getTile t j = some y ∧ TlRel i m x y := by
  unfold TlKeeps at h
  unfold getTile at *
  generalize s.tiles = a, t.tiles = b at h hs
  induction h with
  | nil => cases hs
  | cons r _ ih =>
    rw [List.find?_cons] at hs ⊢
    rw [r.ix]
    split at hs
    · cases hs; exact ⟨_, rfl, r⟩
    · exact ih hs

/-- A tile that the operation does not cover. -/
theorem TlKeeps.getTile_other {k j : Nat} (h : TlKeeps (some k) m s t) (hj : j ≠ k) : getTile t j = getTile s j := by
  cases hs : getTile s j with
  | none => exact h.getTile_none hs
  | some x =>
    obtain ⟨y, hy, r⟩ := h.getTile_some hs
    rw [hy, r.other fun hc : x.ix = k => hj ((getTile_ix hs).symm.trans hc)]

/-- What a list of fields does not touch, of every tile. -/
theorem TlKeeps.map_getTile {α : Type} (h : TlKeeps i m s t) (g : Tile → α) (hg : ∀ x y, TlRel i m x y → g y = g x) (j : Nat) :
    (getTile t j).map g = (getTile s j).map g := by
  cases hs : getTile s j with
  | none => rw [h.getTile_none hs]
  | some x =>
    obtain ⟨y, hy, r⟩ := h.getTile_some hs
    rw [hy, Option.map_some, Option.map_some, hg x y r]

theorem stateOf_eq_map (s : State) (j : Nat) : stateOf s j = ((getTile s j).map (·.state)).getD 0 := by
  unfold stateOf
  cases getTile s j <;> rfl

/-- An operation that leaves the tiles' states. -/
theorem TlKeeps.stateOf (h : TlKeeps i m s t) (hm : .state ∉ m := by decide) (j : Nat) : stateOf t j = stateOf s j := by
  rw [stateOf_eq_map, stateOf_eq_map, h.map_getTile (·.state) fun x y r => r.same .state hm]

theorem partOfSp_eq_map (s : State) (j : Nat) : partOfSp s j = ((getTile s j).map (·.part)).getD 0 := by
  unfold partOfSp
  cases getTile s j <;> rfl

theorem TlKeeps.partOfSp (h : TlKeeps i m s t) (hm : .part ∉ m := by decide) (j : Nat) : partOfSp t j = partOfSp s j := by
  rw [partOfSp_eq_map, partOfSp_eq_map, h.map_getTile (·.part) fun x y r => r.same .part hm]

end

end Sys2Proof.Machine
end

section
/-! What a fence frame changes at the Keep (R225 to R227). -/

set_option Elab.async false

namespace Sys2Proof.Machine

/-! ### Fence frames at the Keep (R224, R225, R231) -/

section
variable {i : Option Nat} {m : List TlFld} {s u : State}

theorem issueFrame_same (s : State) (j : Nat) (f : OutFrame) : Same [.tiles, .domes, .caravan] s (issueFrame s j f) :=
  (issueFrame_keeps j f (Keeps.rfl_ _ s) (List.Subset.refl _)).same

theorem bigDome_tiles (s : State) (d k n : Nat) : (bigDome s d k n).tiles = s.tiles := by
  unfold bigDome
  split <;> rfl

theorem issueFrame_tl (h : TlKeeps i m s u) (j : Nat) (f : OutFrame) (hj : Covers i j) (hm : [.fseq, .out] ⊆ m) : TlKeeps i m s (issueFrame u j f) := by
  refine h.onTile j _ fun t _ => ?_
  dsimp only
  have first : TlKeeps i m s (updTile u j fun x => { x with fseq := t.fseq + 1, out := some { f with frame := mkFrame (j % 256) f.op (t.fseq + 1), reissues := 0, issued := u.time.tick } }) :=
    h.updTile j _ [.fseq, .out] (fun _ => rfl) hj hm
  exact first.of_eq (bigDome_tiles _ _ _ _)

/-- A frame other than DEAD goes out, or waits behind the one that is out. -/
theorem sendFrame_eq {j : Nat} {f : OutFrame} (hop : f.op ≠ opDead) : sendFrame s j f = s ∨ sendFrame s j f = issueFrame s j f ∨
    sendFrame s j f = updTile s j fun t => { t with next := t.next ++ [f] } := by
  unfold sendFrame onTile
  split
  · dsimp only
    rw [if_neg hop]
    split
    · exact .inr (.inl rfl)
    · exact .inr (.inr rfl)
  · exact .inl rfl

theorem sendFrame_same {f : OutFrame} (j : Nat) (hop : f.op ≠ opDead) : Same [.tiles, .domes, .caravan] s (sendFrame s j f) := by
  rcases sendFrame_eq (s := s) (j := j) hop with h | h | h <;> rw [h]
  · exact Same.rfl_ _ s
  · exact issueFrame_same s j f
  · exact (updTile_keeps j (fun t => { t with next := t.next ++ [f] }) (fun x => ⟨rfl, id, .inl⟩) (Keeps.rfl_ [.tiles, .domes, .caravan] s) (by decide)).same

theorem sendFrame_tl (h : TlKeeps i m s u) {f : OutFrame} (j : Nat) (hop : f.op ≠ opDead) (hj : Covers i j) (hm : [.fseq, .out, .next] ⊆ m) :
    TlKeeps i m s (sendFrame u j f) := by
  rcases sendFrame_eq (s := u) (j := j) hop with e | e | e <;> rw [e]
  · exact h
  · exact issueFrame_tl h j f hj (List.Subset.trans (by decide) hm)
  · exact h.updTile j _ [.next] (fun _ => rfl) hj (List.Subset.trans (by decide) hm)

/-- The frame that a FENCE action sends. -/
def fenceSent (s : State) (j old cause peal cls : Nat) (vtick : W64) : State :=
  sendFrame s j (frameOf opFence old stFenced cause peal cls vtick none)

/-- R225: what a tile becomes that is fenced at tick `now`, its state before being `old`. -/
def fencedTile (now : W64) (old : Nat) (x : Tile) : Tile :=
  { x with state := stFenced, fencedAt := if old < stFenced ∧ stFenced ≤ stFenced then some now else x.fencedAt, watch := none }

/-- R225, R443: the tile is FENCED in the Keep, before its frame. -/
def tileFenced (s : State) (j old : Nat) : State := snapshotDue (updTile s j (fencedTile s.time.tick old)) old stFenced

theorem changeState_fenced {j : Nat} {t : Tile} (ht : getTile s j = some t) (cause peal cls : Nat) (vtick : W64) (code uid : Nat) :
    changeState s j stFenced cause peal cls vtick code uid = fenceSent (tileFenced s j t.state) j t.state cause peal cls vtick := by
  unfold changeState onTile
  rw [ht]
  rfl

theorem tileFenced_same (s : State) (j old : Nat) : Same [.nvm, .tiles] s (tileFenced s j old) := by
  unfold tileFenced snapshotDue
  split
  · intro f hf
    cases f <;> first | rfl | exact absurd (by decide) hf
  · intro f hf
    cases f <;> first | rfl | exact absurd (by decide) hf

theorem tileFenced_tiles (s : State) (j old : Nat) : (tileFenced s j old).tiles = (updTile s j (fencedTile s.time.tick old)).tiles := by
  unfold tileFenced snapshotDue
  split <;> rfl

theorem getTile_tileFenced {j : Nat} {t : Tile} (ht : getTile s j = some t) (old : Nat) : getTile (tileFenced s j old) j = some (fencedTile s.time.tick old t) := by
  rw [getTile, tileFenced_tiles]
  exact (getTile_updTile s j (fencedTile s.time.tick old) fun _ => rfl).trans (congrArg _ ht)

theorem tileFenced_tl (h : TlKeeps i m s u) (j old : Nat) (hj : Covers i j) (hm : [.state, .fencedAt, .watch] ⊆ m) : TlKeeps i m s (tileFenced u j old) :=
  (h.updTile j (fencedTile u.time.tick old) [.state, .fencedAt, .watch] (fun _ => rfl) hj hm).of_eq (tileFenced_tiles u j old)

theorem fenceSent_same (s : State) (j old cause peal cls : Nat) (vtick : W64) : Same [.tiles, .domes, .caravan] s (fenceSent s j old cause peal cls vtick) :=
  sendFrame_same j (show opFence ≠ opDead by decide)

/-! #### A FENCE action (R225) -/

theorem actFence_cases (s : State) (j cause peal cls : Nat) (vtick : W64) :
    (∃ t, getTile s j = some t ∧ t.state < stFenced ∧
      actFence s j cause peal cls vtick = fenceSent (tileFenced s j t.state) j t.state cause peal cls vtick) ∨
    (getTile s j = none ∧ actFence s j cause peal cls vtick = s) ∨
    (∃ t r, getTile s j = some t ∧ stFenced ≤ t.state ∧ actFence s j cause peal cls vtick = addRec s r) := by
  unfold actFence
  cases ht : getTile s j with
  | none =>
    refine .inr (.inl ⟨rfl, ?_⟩)
    split
    · unfold changeState onTile
      rw [ht]
    · unfold noopState onTile
      rw [ht]
  | some t =>
    have state : stateOf s j = t.state := by rw [stateOf, ht]
    rw [state]
    by_cases hlt : t.state < stFenced
    · rw [if_pos hlt]
      exact .inl ⟨t, rfl, hlt, changeState_fenced ht ..⟩
    · rw [if_neg hlt]
      refine .inr (.inr ⟨t, tstateRec s j t.state t.state tcNoop peal cls t.fseq vtick 0, rfl, Nat.le_of_not_lt hlt, ?_⟩)
      unfold noopState onTile
      rw [ht]

theorem actFence_same (s : State) (j cause peal cls : Nat) (vtick : W64) :
    Same [.alert, .cistern, .nvm, .parts, .tiles, .domes, .caravan, .records, .early, .near] s (actFence s j cause peal cls vtick) := by
  rcases actFence_cases s j cause peal cls vtick with ⟨t, -, -, e⟩ | ⟨-, e⟩ | ⟨t, r, -, -, e⟩ <;> rw [e]
  · exact ((tileFenced_same s j _).mono (by decide)).trans ((fenceSent_same _ j _ cause peal cls vtick).mono (by decide))
  · exact Same.rfl_ _ s
  · exact (addRec_same s r).mono (by decide)

theorem actFence_tl (h : TlKeeps i m s u) (j cause peal cls : Nat) (vtick : W64) (hj : Covers i j)
    (hm : [.state, .fencedAt, .watch, .fseq, .out, .next] ⊆ m) : TlKeeps i m s (actFence u j cause peal cls vtick) := by
  rcases actFence_cases u j cause peal cls vtick with ⟨t, -, -, e⟩ | ⟨-, e⟩ | ⟨t, r, -, -, e⟩ <;> rw [e]
  · exact sendFrame_tl (tileFenced_tl h j _ hj (List.Subset.trans (by decide) hm)) j (show opFence ≠ opDead by decide) hj (List.Subset.trans (by decide) hm)
  · exact h
  · exact h.of_same (addRec_same u r)

/-- R225: after a FENCE action its tile is FENCED, or as it was where it was stopped already. -/
theorem stateOf_actFence {j : Nat} {t : Tile} (ht : getTile s j = some t) (cause peal cls : Nat) (vtick : W64) :
    stateOf (actFence s j cause peal cls vtick) j = if t.state < stFenced then stFenced else t.state := by
  rcases actFence_cases s j cause peal cls vtick with ⟨t', ht', hlt, e⟩ | ⟨hn, -⟩ | ⟨t', r, ht', hge, e⟩
  · cases ht.symm.trans ht'
    have frame : TlKeeps (some j) [.fseq, .out, .next] (tileFenced s j t.state) (fenceSent (tileFenced s j t.state) j t.state cause peal cls vtick) :=
      sendFrame_tl (TlKeeps.rfl_ _) j (show opFence ≠ opDead by decide) (covers_own j) (List.Subset.refl _)
    rw [e, if_pos hlt, frame.stateOf, stateOf, getTile_tileFenced ht]
    rfl
  · cases ht.symm.trans hn
  · cases ht.symm.trans ht'
    rw [e, if_neg (Nat.not_lt_of_le hge), stateOf, getTile, addRec_same s r .tiles (by decide), ← getTile, ht]

theorem DomeBytes.actFence (h : DomeBytes s u) (j cause peal cls : Nat) (vtick : W64) : DomeBytes s (actFence u j cause peal cls vtick) := by
  rcases actFence_cases u j cause peal cls vtick with ⟨t, -, -, e⟩ | ⟨-, e⟩ | ⟨t, r, -, -, e⟩ <;> rw [e]
  · exact DomeBytes.sendFrame (h.of_same (tileFenced_same u j _)) j _
  · exact h
  · exact h.of_same (addRec_same u r)

end

end Sys2Proof.Machine
end

section
/-! Violations of a Tile Tap, and the version of a tap (R77, R91). -/

set_option Elab.async false

namespace Sys2Proof.Machine

/-! ### Violations of a Tile Tap (R91), by what they change -/

section
variable {i : Option Nat} {m : List SpFld} {s u : State}

theorem addInput_same (s : State) (x : Input) : Same [.inputs] s (addInput s x) := (addInput_keeps x (Keeps.rfl_ _ s) (List.Subset.refl _)).same

theorem uplink_sp (h : SpKeeps i m s u) (j n : Nat) (hj : Covers i j) (hm : [.big] ⊆ m) : SpKeeps i m s (uplink u j n) := addBigSp_sp h j 3 n hj hm

theorem tapViol_sp (h : SpKeeps i m s u) (k : RecKind) (j : Nat) (d : Option Dsc) (code : Byte) (detail : W16) (beats : Nat) (hj : Covers i j)
    (hm : [.cnt, .viol, .trc, .big] ⊆ m) : SpKeeps i m s (tapViol u k j d code detail beats) := by
  have counted := spCount_sp h j kViol 1 hj (List.Subset.trans (by decide) hm)
  have marked := counted.updSp j (fun t => { t with viol := (code, k.num.getD 0) }) [.viol] (fun _ => rfl) hj (List.Subset.trans (by decide) hm)
  have traced := trace_sp marked j 0x1A false false detail ((d.map dLayer).getD 0xFFFF) ((d.map dOper).getD 0xFFFF) ((k.num.getD 0).toNat + 65536 * code.toNat) hj
    (List.Subset.trans (by decide) hm)
  unfold tapViol
  dsimp only
  split
  · exact traced
  · exact ((uplink_sp traced j 32 hj (List.Subset.trans (by decide) hm)).of_same (addRec_same _ _)).of_same (addInput_same _ _)

theorem tapViol_same (s : State) (k : RecKind) (j : Nat) (d : Option Dsc) (code : Byte) (detail : W16) (beats : Nat) :
    Same [.alert, .inputs, .cistern, .parts, .spires, .records, .early, .near] s (tapViol s k j d code detail beats) :=
  (tapViol_keeps k j d code detail beats (Keeps.rfl_ _ s) (List.Subset.refl _)).same

theorem tileInput_same (s : State) (code j cause : Nat) : Same [.inputs] s (tileInput s code j cause) := addInput_same s _

end

/-! ### Step 2 of bring-up (R77, R392, R415, R416) -/

/-- The version that the reports give for a tap. -/
def tapVersion (taps : List (Nat × BitVec 4)) (j : Nat) : BitVec 4 := ((taps.find? fun t => t.1 == j).map (·.2)).getD 0

/-- R77: a tap's version at its Spire. -/
def versioned (v : BitVec 4) (p : Spire) : Spire := { p with tap := { p.tap with ver := v }, lv := { p.lv with hbOk := v == 3 } }

/-- R91: a tap of another version is disabled, reported, and its tile fenced. -/
def tapDisabled (s : State) (j : Nat) : State :=
  fenceAtBoot (tileInput (tapViol (updSp s j fun p => { p with tap := { p.tap with off := true } }) .tapviol j none 0x60 0 0) 0x16 j 0x60) j

theorem readTap_cases (taps : List (Nat × BitVec 4)) (s : State) (j : Nat) :
    (tapVersion taps j = 3 ∧ ∃ n, readTap taps s j = { updSp s j (versioned 3) with boot := { s.boot with tapsV3 := n } }) ∨
    (tapVersion taps j = 2 ∧ ∃ n, readTap taps s j = { updSp s j (versioned 2) with boot := { s.boot with tapsV2 := n } }) ∨
    (tapVersion taps j ≠ 3 ∧ tapVersion taps j ≠ 2 ∧ readTap taps s j = tapDisabled (updSp s j (versioned (tapVersion taps j))) j) := by
  have run : readTap taps s j = if tapVersion taps j = 3 then { updSp s j (versioned (tapVersion taps j)) with boot := { s.boot with tapsV3 := s.boot.tapsV3 + 1 } }
      else if tapVersion taps j = 2 then { updSp s j (versioned (tapVersion taps j)) with boot := { s.boot with tapsV2 := s.boot.tapsV2 + 1 } }
      else tapDisabled (updSp s j (versioned (tapVersion taps j))) j := rfl
  rw [run]
  by_cases h3 : tapVersion taps j = 3
  · rw [if_pos h3, h3]
    exact .inl ⟨rfl, _, rfl⟩
  · by_cases h2 : tapVersion taps j = 2
    · rw [if_neg h3, if_pos h2, h2]
      exact .inr (.inl ⟨rfl, _, rfl⟩)
    · rw [if_neg h3, if_neg h2]
      exact .inr (.inr ⟨h3, h2, rfl⟩)

theorem tapDisabled_same (s : State) (j : Nat) :
    Same [.alert, .inputs, .cistern, .nvm, .parts, .tiles, .spires, .domes, .caravan, .records, .early, .near] s (tapDisabled s j) := by
  have off : Same [.spires] s (updSp s j fun p => { p with tap := { p.tap with off := true } }) := (updSp_keeps j _ (Keeps.rfl_ _ s) (List.Subset.refl _)).same
  exact (((off.mono (by decide)).trans ((tapViol_same _ .tapviol j none 0x60 0 0).mono (by decide))).trans ((tileInput_same _ 0x16 j 0x60).mono (by decide))).trans
    ((actFence_same _ j tcBringup 0xFFFF 1 _).mono (by decide))

/-- What the reading of one tap may change in the block. -/
theorem readTap_leaves (taps : List (Nat × BitVec 4)) (s : State) (j : Nat) :
    Same [.alert, .inputs, .cistern, .boot, .nvm, .parts, .tiles, .spires, .domes, .caravan, .records, .early, .near] s (readTap taps s j) ∧
      (readTap taps s j).boot.step = s.boot.step ∧ (readTap taps s j).boot.clocks = s.boot.clocks := by
  have one (v : BitVec 4) : Same [.spires] s (updSp s j (versioned v)) := (updSp_keeps j _ (Keeps.rfl_ _ s) (List.Subset.refl _)).same
  have booted (v : BitVec 4) (b : Boot) : Same [.spires, .boot] s { updSp s j (versioned v) with boot := b } := by
    intro f hf
    cases f <;> first | rfl | exact absurd (by decide) hf
  rcases readTap_cases taps s j with ⟨-, n, e⟩ | ⟨-, n, e⟩ | ⟨-, -, e⟩ <;> rw [e]
  · exact ⟨(booted 3 _).mono (by decide), rfl, rfl⟩
  · exact ⟨(booted 2 _).mono (by decide), rfl, rfl⟩
  · have same := ((one (tapVersion taps j)).mono (by decide)).trans (tapDisabled_same (updSp s j (versioned (tapVersion taps j))) j)
    exact ⟨same.mono (by decide), congrArg Boot.step (same .boot (by decide)), congrArg Boot.clocks (same .boot (by decide))⟩

theorem tapDisabled_sp {i : Option Nat} {m : List SpFld} {s u : State} (h : SpKeeps i m s u) (j : Nat) (hj : Covers i j) (hm : [.tap, .cnt, .viol, .trc, .big] ⊆ m) :
    SpKeeps i m s (tapDisabled u j) := by
  have off := h.updSp j (fun p => { p with tap := { p.tap with off := true } }) [.tap] (fun _ => rfl) hj (List.Subset.trans (by decide) hm)
  exact ((tapViol_sp off .tapviol j none 0x60 0 0 hj (List.Subset.trans (by decide) hm)).of_same (tileInput_same _ 0x16 j 0x60)).of_same (actFence_same _ j tcBringup 0xFFFF 1 _)

theorem readTap_sp {i : Option Nat} {m : List SpFld} {s u : State} (taps : List (Nat × BitVec 4)) (h : SpKeeps i m s u) (j : Nat) (hj : Covers i j)
    (hm : [.tap, .lv, .cnt, .viol, .trc, .big] ⊆ m) : SpKeeps i m s (readTap taps u j) := by
  have first (v : BitVec 4) := h.updSp j (versioned v) [.tap, .lv] (fun _ => rfl) hj (List.Subset.trans (by decide) hm)
  rcases readTap_cases taps u j with ⟨-, n, e⟩ | ⟨-, n, e⟩ | ⟨-, -, e⟩ <;> rw [e]
  · exact (first 3).of_eq rfl
  · exact (first 2).of_eq rfl
  · exact tapDisabled_sp (first _) j hj (List.Subset.trans (by decide) hm)

/-- R77: what a tap's Spire holds once its version is read. -/
def Versioned (v : BitVec 4) (y : Spire) : Prop := y.tap.ver = v ∧ y.lv.hbOk = decide (v = 3) ∧ (v ≠ 2 → v ≠ 3 → y.tap.off = true)

theorem readTap_own (taps : List (Nat × BitVec 4)) {s : State} {j : Nat} {x : Spire} (h : getSp s j = some x) :
    ∃ y, getSp (readTap taps s j) j = some y ∧ Versioned (tapVersion taps j) y := by
  have first (v : BitVec 4) : getSp (updSp s j (versioned v)) j = some (versioned v x) :=
    (getSp_updSp s j (versioned v) fun _ => rfl).trans (congrArg _ h)
  rcases readTap_cases taps s j with ⟨hv, n, e⟩ | ⟨hv, n, e⟩ | ⟨h3, h2, e⟩ <;> rw [e]
  · exact ⟨_, first 3, by rw [hv]; exact ⟨rfl, rfl, fun _ hne => absurd rfl hne⟩⟩
  · exact ⟨_, first 2, by rw [hv]; exact ⟨rfl, rfl, fun hne => absurd rfl hne⟩⟩
  · have off : getSp (updSp (updSp s j (versioned (tapVersion taps j))) j fun p => { p with tap := { p.tap with off := true } }) j =
        some { versioned (tapVersion taps j) x with tap := { (versioned (tapVersion taps j) x).tap with off := true } } :=
      (getSp_updSp _ j (fun p => { p with tap := { p.tap with off := true } }) fun _ => rfl).trans (congrArg _ (first _))
    have after : SpKeeps (some j) [.cnt, .viol, .trc, .big] (updSp (updSp s j (versioned (tapVersion taps j))) j fun p => { p with tap := { p.tap with off := true } })
        (tapDisabled (updSp s j (versioned (tapVersion taps j))) j) :=
      ((tapViol_sp (SpKeeps.rfl_ _) .tapviol j none 0x60 0 0 (covers_own j) (List.Subset.refl _)).of_same (tileInput_same _ 0x16 j 0x60)).of_same (actFence_same _ j tcBringup 0xFFFF 1 _)
    obtain ⟨y, hy, r⟩ := after.getSp_some off
    refine ⟨y, hy, ?_⟩
    have tap := r.same .tap (by decide)
    have lv := r.same .lv (by decide)
    unfold Versioned
    rw [show y.tap = _ from tap, show y.lv = _ from lv]
    exact ⟨rfl, beq_eq_decide _ _, fun _ _ => rfl⟩

end Sys2Proof.Machine
end

section
/-! A reading and the end of the sweep (R446, R447, R453). -/

set_option Elab.async false

namespace Sys2Proof.Machine

/-! ### A reading and the sweep (R446, R447, R453) -/

/-- How far the sweep of the sensors has come. -/
def sweepOf (s : State) : Bool × List (Bool × Nat) := (s.thermal.swept, s.thermal.sweptSet)

/-- The Domes that are up. -/
def domeUps (s : State) : List (Nat × Bool) := s.domes.map fun d => (d.ix, d.up)

theorem foldl_kept {α β : Type} {g : State → β} {f : State → α → State} (hf : ∀ v a, g (f v a) = g v) (l : List α) (s : State) : g (l.foldl f s) = g s := by
  induction l generalizing s with
  | nil => rfl
  | cons a l ih => exact (ih _).trans (hf s a)

theorem sweepOf_of_same {s t : State} {l : List Fld} (h : Same l s t) (hl : .thermal ∉ l := by decide) : sweepOf t = sweepOf s :=
  (congrArg (fun x : Thermal => (x.swept, x.sweptSet)) (h .thermal hl) :)

theorem domeUps_of_same {s t : State} {l : List Fld} (h : Same l s t) (hl : .domes ∉ l := by decide) : domeUps t = domeUps s :=
  (congrArg (List.map fun d : Dome => (d.ix, d.up)) (h .domes hl) :)

theorem DomeBytes.domeUps {s t : State} (h : DomeBytes s t) : domeUps t = domeUps s := by
  unfold DomeBytes at h
  unfold Machine.domeUps
  generalize s.domes = a, t.domes = b at h
  induction h with
  | nil => rfl
  | cons r _ ih => rw [List.map_cons, List.map_cons, ih, r]

theorem abortRec_sweep (s : State) (x : Rec) : sweepOf (addRec (thmCount s thAbort 1) x) = sweepOf s :=
  (sweepOf_of_same (addRec_same (thmCount s thAbort 1) x)).trans rfl

theorem abortRun_sweep (s : State) (t : Tile) : sweepOf (abortRun s t) = sweepOf s := by
  unfold abortRun
  split
  · rfl
  · dsimp only
    split <;> exact abortRec_sweep s _

theorem abortSlice_sweep (s : State) (t : Tile) : sweepOf (abortSlice s t) = sweepOf s := by
  unfold abortSlice
  split
  · rfl
  · exact (sweepOf_of_same (endReq_keeps t.ix crAborted (Keeps.rfl_ _ _) (List.Subset.refl _)).same).trans (abortRun_sweep s t)

theorem abortEng_sweep (v : State) (p k n x : Nat) (f : Engine → Engine) : sweepOf (updEng (addMeter v p k n) x f) = sweepOf v := rfl

theorem abortSlices_sweep (s : State) : sweepOf (abortSlices s) = sweepOf s := by
  have tiles := foldl_kept abortSlice_sweep s.tiles s
  unfold abortSlices
  generalize s.tiles.foldl abortSlice s = v at tiles ⊢
  rw [← tiles]
  dsimp only
  generalize List.range Config.engBuilt = l
  refine foldl_kept (fun v x => ?_) l v
  split
  · rw [abortEng_sweep]
    exact abortRec_sweep v _
  · rfl

theorem driveLevel_sweep (s : State) : sweepOf (driveLevel s) = sweepOf s := by
  unfold driveLevel
  dsimp only
  split <;> split <;> rfl

theorem putSensor_sweep (s : State) (dome : Bool) (ix : Nat) (x : Sensor) : sweepOf (putSensor s dome ix x) = sweepOf s :=
  sweepOf_of_same (putSensor_keeps dome ix x (Keeps.rfl_ _ s) (List.Subset.refl _)).same

theorem putSensor_ups (s : State) (dome : Bool) (ix : Nat) (x : Sensor) : domeUps (putSensor s dome ix x) = domeUps s := by
  cases dome with
  | false => rfl
  | true =>
    refine (List.map_map (l := s.domes)).trans (List.map_congr_left fun d _ => ?_)
    change ((if d.ix = ix then { d with sensor := x } else d).ix, (if d.ix = ix then { d with sensor := x } else d).up) = (d.ix, d.up)
    split <;> rfl

section
variable {i : Option Nat} {m : List SpFld} {s u : State}

theorem putSensor_sp (h : SpKeeps none m s u) (dome : Bool) (ix : Nat) (x : Sensor) (hm : [.sensor] ⊆ m) : SpKeeps none m s (putSensor u dome ix x) := by
  cases dome with
  | true => exact h.of_eq rfl
  | false => exact h.updSp ix (fun p => { p with sensor := x }) [.sensor] (fun _ => rfl) trivial hm

end

/-- What a reading keeps: how far the sweep is, the Domes that are up, and of each Spire all but its sensor and its wrapper. -/
structure Reads (s t : State) : Prop where
  sweep : sweepOf t = sweepOf s
  ups : domeUps t = domeUps s
  spires : SpKeeps none [.sensor, .wrap, .gen] s t

section
variable {s t u : State}

theorem Reads.rfl_ (s : State) : Reads s s := ⟨rfl, rfl, SpKeeps.rfl_ s⟩

theorem Reads.of_same {l : List Fld} (h : Reads s u) (e : Same l u t) (ht : .thermal ∉ l := by decide) (hd : .domes ∉ l := by decide) (hs : .spires ∉ l := by decide) :
    Reads s t := ⟨(sweepOf_of_same e ht).trans h.sweep, (domeUps_of_same e hd).trans h.ups, h.spires.of_same e hs⟩

theorem Reads.putSensor (h : Reads s u) (dome : Bool) (ix : Nat) (x : Sensor) : Reads s (putSensor u dome ix x) :=
  ⟨(putSensor_sweep u dome ix x).trans h.sweep, (putSensor_ups u dome ix x).trans h.ups, putSensor_sp h.spires dome ix x (by decide)⟩

theorem Reads.driveLevel (h : Reads s u) : Reads s (driveLevel u) :=
  ⟨(driveLevel_sweep u).trans h.sweep, (domeUps_of_same (driveLevel_same u)).trans h.ups, h.spires.of_same (driveLevel_same u)⟩

theorem Reads.abortSlices (h : Reads s u) : Reads s (abortSlices u) :=
  ⟨(abortSlices_sweep u).trans h.sweep, (DomeBytes.rfl_ u).abortSlices.domeUps.trans h.ups, abortSlices_sp h.spires (by decide)⟩

theorem Reads.tripDie (h : Reads s u) (dome : Bool) (ix : Nat) (y : Sensor) : Reads s (tripDie u dome ix y) := by
  unfold Machine.tripDie
  split
  · exact h
  · dsimp only
    have pads : Reads s { u with pads := { u.pads with thermtrip := true } } := ⟨h.sweep, h.ups, h.spires.of_eq rfl⟩
    exact ((pads.driveLevel.abortSlices.of_same (addRec_same _ _))).of_same (thermInput_keeps dome ix 0x03 (Keeps.rfl_ _ _) (List.Subset.refl _)).same

theorem Reads.goodReading (h : Reads s u) (dome : Bool) (ix : Nat) (x : Sensor) : Reads s (goodReading u dome ix x) := by
  obtain ⟨w, noted, run⟩ := goodReading_eq u dome ix x
  have read := (h.putSensor dome ix (readGood u x)).driveLevel.of_same noted
  rw [run]
  split
  · exact read.tripDie dome ix _
  · exact read

theorem Reads.markBad (h : Reads s u) (dome : Bool) (ix : Nat) (x : Sensor) : Reads s (markBad u dome ix x) := by
  unfold Machine.markBad
  dsimp only
  refine Reads.driveLevel (Reads.putSensor (Reads.putSensor ?_ _ _ _) _ _ _)
  split
  · exact h
  · exact ⟨h.sweep, h.ups, h.spires.of_eq rfl⟩

end

theorem reads_either {s : State} (c : Prop) [Decidable c] (dome : Bool) (ix : Nat) (x y : Sensor) :
    Reads s (if c then markBad s dome ix x else goodReading s dome ix y) := by
  split
  · exact (Reads.rfl_ s).markBad dome ix x
  · exact (Reads.rfl_ s).goodReading dome ix y

/-- The sensors that the sweep has read, once it reads this one. -/
def readsToo (l : List (Bool × Nat)) (a : Bool × Nat) : List (Bool × Nat) := if l.contains a then l else l ++ [a]

/-- A reading of a sensor that is there. -/
theorem takeReading_reads {s : State} {dome : Bool} {ix count : Nat} {x : Sensor} (h : getSensor s dome ix = some x) :
    ∃ u, Reads s u ∧ takeReading s dome ix count = sweepMark u dome ix := by
  unfold takeReading
  rw [h]
  exact ⟨_, reads_either _ dome ix _ _, rfl⟩

theorem sweepEnd_swept (s : State) : (sweepEnd s).thermal.swept = true := (congrArg Prod.fst (driveLevel_sweep _) :)

theorem sweepMark_swept (s : State) (dome : Bool) (ix : Nat) :
    (sweepMark s dome ix).thermal.swept = true ∨
      (sweepOf (sweepMark s dome ix) = (s.thermal.swept, readsToo s.thermal.sweptSet (dome, ix)) ∧
        (readsToo s.thermal.sweptSet (dome, ix)).length < s.spires.length + s.domes.length) := by
  have run : sweepMark s dome ix = if (readsToo s.thermal.sweptSet (dome, ix)).length ≥ s.spires.length + s.domes.length then
      sweepEnd { s with thermal := { s.thermal with sweptSet := readsToo s.thermal.sweptSet (dome, ix) } }
    else { s with thermal := { s.thermal with sweptSet := readsToo s.thermal.sweptSet (dome, ix) } } := rfl
  rw [run]
  split
  · exact .inl (sweepEnd_swept _)
  · next hlt => exact .inr ⟨rfl, Nat.lt_of_not_le hlt⟩

theorem sweepMark_reads {s u : State} (h : domeUps u = domeUps s ∧ SpKeeps none [.sensor, .wrap, .gen] s u) (dome : Bool) (ix : Nat) :
    domeUps (sweepMark u dome ix) = domeUps s ∧ SpKeeps none [.sensor, .wrap, .gen] s (sweepMark u dome ix) :=
  ⟨(domeUps_of_same (sweepMark_leaves u dome ix).1).trans h.1, h.2.of_same (sweepMark_leaves u dome ix).1⟩

/-- The sensors that the block has. -/
def sensorsOf (s : State) : List (Bool × Nat) := s.spires.map (fun x => (false, x.ix)) ++ s.domes.map fun d => (true, d.ix)

theorem sensorsOf_length (s : State) : (sensorsOf s).length = s.spires.length + s.domes.length := by
  rw [sensorsOf, List.length_append, List.length_map, List.length_map]

theorem sensorsOf_nodup {s : State} (spires : (s.spires.map (·.ix)).Nodup) (domes : (s.domes.map (·.ix)).Nodup) : (sensorsOf s).Nodup := by
  refine List.Nodup.append ?_ ?_ fun a ha hb => ?_
  · exact List.Nodup.of_map Prod.snd (by rw [List.map_map]; exact spires)
  · exact List.Nodup.of_map Prod.snd (by rw [List.map_map]; exact domes)
  · obtain ⟨x, -, hx⟩ := List.mem_map.1 ha
    obtain ⟨y, -, hy⟩ := List.mem_map.1 hb
    rw [← hx] at hy
    exact Bool.noConfusion (congrArg Prod.fst hy)

theorem getSensor_of_mem {s : State} {a : Bool × Nat} (h : a ∈ sensorsOf s) : ∃ x, getSensor s a.1 a.2 = some x := by
  rcases List.mem_append.1 h with hs | hd
  · obtain ⟨p, hp, rfl⟩ := List.mem_map.1 hs
    obtain ⟨y, hy⟩ := Option.isSome_iff_exists.1 (List.find?_isSome.2 ⟨p, hp, beq_self_eq_true _⟩ : (s.spires.find? fun x => x.ix == p.ix).isSome)
    exact ⟨y.sensor, (congrArg (Option.map (·.sensor)) hy :)⟩
  · obtain ⟨d, hmem, rfl⟩ := List.mem_map.1 hd
    obtain ⟨y, hy⟩ := Option.isSome_iff_exists.1 (List.find?_isSome.2 ⟨d, hmem, beq_self_eq_true _⟩ : (s.domes.find? fun x => x.ix == d.ix).isSome)
    exact ⟨y.sensor, (congrArg (Option.map (·.sensor)) hy :)⟩

theorem sensorsOf_of_reads {s t : State} (ups : domeUps t = domeUps s) (spires : SpKeeps none [.sensor, .wrap, .gen] s t) : sensorsOf t = sensorsOf s := by
  have hs : t.spires.map (fun x => (false, x.ix)) = s.spires.map fun x => (false, x.ix) := by
    unfold SpKeeps at spires
    generalize s.spires = a, t.spires = b at spires
    induction spires with
    | nil => rfl
    | cons r _ ih => rw [List.map_cons, List.map_cons, ih, r.ix]
  have hd : t.domes.map (fun d => (true, d.ix)) = s.domes.map fun d => (true, d.ix) := by
    have e := congrArg (List.map fun x : Nat × Bool => (true, x.1)) ups
    unfold domeUps at e
    rwa [List.map_map, List.map_map] at e
  rw [sensorsOf, sensorsOf, hs, hd]

/-- A sweep under way that has read the sensors `done`: it has ended once, or lacks a sensor of the block. -/
structure Sweeping (s : State) (done : List (Bool × Nat)) (t : State) : Prop where
  ups : domeUps t = domeUps s
  spires : SpKeeps none [.sensor, .wrap, .gen] s t
  sweep : t.thermal.swept = true ∨ ∀ a ∈ done, a ∈ sensorsOf s → a ∈ t.thermal.sweptSet ∧ t.thermal.sweptSet.length < (sensorsOf s).length

theorem readsToo_mem {l : List (Bool × Nat)} {a b : Bool × Nat} (h : b = a ∨ b ∈ l) : b ∈ readsToo l a := by
  unfold readsToo
  split
  · next hin =>
    rcases h with rfl | h
    · exact List.contains_iff_mem.1 hin
    · exact h
  · rcases h with rfl | h
    · exact List.mem_append_right _ (List.mem_singleton.2 rfl)
    · exact List.mem_append_left _ h

theorem Sweeping.takeReading {s u : State} {done : List (Bool × Nat)} (h : Sweeping s done u) (dome : Bool) (ix count : Nat) :
    Sweeping s (done ++ [(dome, ix)]) (takeReading u dome ix count) := by
  have sensors := sensorsOf_of_reads h.ups h.spires
  cases hx : getSensor u dome ix with
  | none =>
    have stays : Machine.takeReading u dome ix count = u := by unfold Machine.takeReading; rw [hx]
    rw [stays]
    refine ⟨h.ups, h.spires, h.sweep.imp_right fun hall a ha hin => ?_⟩
    rcases List.mem_append.1 ha with hd | hn
    · exact hall a hd hin
    · obtain ⟨x, hy⟩ := getSensor_of_mem (sensors ▸ hin : a ∈ sensorsOf u)
      rw [List.mem_singleton.1 hn, hx] at hy
      cases hy
  | some x =>
    obtain ⟨w, reads, run⟩ := takeReading_reads (count := count) hx
    have base : domeUps w = domeUps s ∧ SpKeeps none [.sensor, .wrap, .gen] s w := ⟨reads.ups.trans h.ups, h.spires.trans reads.spires⟩
    obtain ⟨ups, spires⟩ := sweepMark_reads base dome ix
    rw [run]
    refine ⟨ups, spires, ?_⟩
    rcases sweepMark_swept w dome ix with hend | ⟨hnow, hlen⟩
    · exact .inl hend
    · have swept : w.thermal.swept = u.thermal.swept := congrArg Prod.fst reads.sweep
      have set : w.thermal.sweptSet = u.thermal.sweptSet := congrArg Prod.snd reads.sweep
      have marked : (sweepMark w dome ix).thermal.sweptSet = readsToo u.thermal.sweptSet (dome, ix) := (congrArg Prod.snd hnow).trans (by rw [set])
      rw [← sensorsOf_length, sensorsOf_of_reads base.1 base.2, set] at hlen
      rcases h.sweep with hs | hall
      · exact .inl ((congrArg Prod.fst hnow).trans (swept.trans hs))
      · refine .inr fun a ha hin => ?_
        rw [marked]
        refine ⟨readsToo_mem ?_, hlen⟩
        rcases List.mem_append.1 ha with hd | hn
        · exact .inr (hall a hd hin).1
        · exact .inl (List.mem_singleton.1 hn)

theorem Sweeping.foldl {s u : State} {done : List (Bool × Nat)} (h : Sweeping s done u) (l : List (Bool × Nat × Nat)) :
    Sweeping s (done ++ l.map fun x => (x.1, x.2.1)) (l.foldl (fun s x => Machine.takeReading s x.1 x.2.1 x.2.2) u) := by
  induction l generalizing u done with
  | nil => rw [List.map_nil, List.append_nil]; exact h
  | cons a l ih =>
    have next := ih (h.takeReading a.1 a.2.1 a.2.2)
    rwa [List.append_assoc] at next

/-- R453: a sweep that reads every sensor ends. -/
theorem Sweeping.ended {s t : State} {done : List (Bool × Nat)} (h : Sweeping s done t) (hnd : (sensorsOf s).Nodup) (hall : sensorsOf s ⊆ done)
    (hne : sensorsOf s ≠ []) : t.thermal.swept = true := by
  rcases h.sweep with hs | hin
  · exact hs
  · obtain ⟨a, ha⟩ := List.exists_mem_of_ne_nil _ hne
    have shorter := (hin a (hall ha) ha).2
    have longer := (List.subperm_of_subset hnd fun b hb => (hin b (hall hb) hb).1).length_le
    exact absurd longer (Nat.not_le_of_lt shorter)

end Sys2Proof.Machine
end

section
/-! Step 2 of bring-up: the taps' versions and the beginning of step 3 (R77, R392, R415, R430). -/

set_option Elab.async false

namespace Sys2Proof.Machine

/-! ### Step 2 of bring-up: its report (R319, R415, R416) -/

theorem SpKeeps.mem_right {i : Option Nat} {m : List SpFld} {s t : State} (h : SpKeeps i m s t) {y : Spire} (hy : y ∈ t.spires) :
    ∃ x ∈ s.spires, SpRel i m x y := by
  unfold SpKeeps at h
  generalize s.spires = a, t.spires = b at h hy
  induction h with
  | nil => cases hy
  | cons r _ ih =>
    rcases List.mem_cons.1 hy with rfl | hy
    · exact ⟨_, List.mem_cons_self, r⟩
    · obtain ⟨x, hx, rx⟩ := ih hy
      exact ⟨x, List.mem_cons_of_mem _ hx, rx⟩

theorem SpKeeps.map_ix {i : Option Nat} {m : List SpFld} {s t : State} (h : SpKeeps i m s t) : t.spires.map (·.ix) = s.spires.map (·.ix) := by
  unfold SpKeeps at h
  generalize s.spires = a, t.spires = b at h
  induction h with
  | nil => rfl
  | cons r _ ih => rw [List.map_cons, List.map_cons, ih, r.ix]

theorem getSp_of_mem {s : State} {p : Spire} (h : p ∈ s.spires) : ∃ x, getSp s p.ix = some x :=
  Option.isSome_iff_exists.1 (List.find?_isSome.2 ⟨p, h, beq_self_eq_true _⟩ : (s.spires.find? fun x => x.ix == p.ix).isSome)

/-! #### The versions of the taps -/

theorem DomeBytes.tapDisabled {s u : State} (h : DomeBytes s u) (j : Nat) : DomeBytes s (tapDisabled u j) := by
  have off : DomeBytes s (updSp u j fun p => { p with tap := { p.tap with off := true } }) := h.of_eq rfl
  exact ((off.of_same (tapViol_same _ .tapviol j none 0x60 0 0)).of_same (tileInput_same _ 0x16 j 0x60)).actFence j tcBringup 0xFFFF 1 _

theorem readTap_ups (taps : List (Nat × BitVec 4)) (s : State) (j : Nat) : DomeBytes s (readTap taps s j) := by
  rcases readTap_cases taps s j with ⟨-, n, e⟩ | ⟨-, n, e⟩ | ⟨-, -, e⟩ <;> rw [e]
  · exact (DomeBytes.rfl_ s).of_eq rfl
  · exact (DomeBytes.rfl_ s).of_eq rfl
  · exact DomeBytes.tapDisabled (u := updSp s j (versioned (tapVersion taps j))) ((DomeBytes.rfl_ s).of_eq rfl) j

/-- What the reading of the taps leaves. -/
structure TapsRead (s t : State) : Prop where
  rest : Same [.alert, .inputs, .cistern, .boot, .nvm, .parts, .tiles, .spires, .domes, .caravan, .records, .early, .near] s t
  step : t.boot.step = s.boot.step
  clocks : t.boot.clocks = s.boot.clocks
  ups : domeUps t = domeUps s
  spires : SpKeeps none [.tap, .lv, .cnt, .viol, .trc, .big] s t

theorem readTap_read (taps : List (Nat × BitVec 4)) (s : State) (j : Nat) : TapsRead s (readTap taps s j) := by
  obtain ⟨rest, step, clocks⟩ := readTap_leaves taps s j
  exact ⟨rest, step, clocks, (readTap_ups taps s j).domeUps, readTap_sp taps (SpKeeps.rfl_ s) j (covers_all j) (List.Subset.refl _)⟩

theorem foldl_readTap (taps : List (Nat × BitVec 4)) (l : List Nat) (s : State) : TapsRead s (l.foldl (readTap taps) s) := by
  induction l generalizing s with
  | nil => exact ⟨Same.rfl_ _ s, rfl, rfl, rfl, SpKeeps.rfl_ s⟩
  | cons j l ih =>
    have first := readTap_read taps s j
    have rest := ih (readTap taps s j)
    exact ⟨first.rest.trans rest.rest, rest.step.trans first.step, rest.clocks.trans first.clocks, rest.ups.trans first.ups, first.spires.trans rest.spires⟩

theorem foldl_readTap_other (taps : List (Nat × BitVec 4)) {j : Nat} {l : List Nat} (h : j ∉ l) (s : State) :
    getSp (l.foldl (readTap taps) s) j = getSp s j := by
  induction l generalizing s with
  | nil => rfl
  | cons k l ih =>
    have hk : j ≠ k := fun e => h (e ▸ List.mem_cons_self)
    exact (ih (fun hl => h (List.mem_cons_of_mem _ hl)) _).trans
      ((readTap_sp taps (SpKeeps.rfl_ s) k (covers_own k) (List.Subset.refl _)).getSp_other hk)

theorem foldl_readTap_own (taps : List (Nat × BitVec 4)) {j : Nat} {l : List Nat} (hj : j ∈ l) (hnd : l.Nodup) {s : State} {x : Spire} (h : getSp s j = some x) :
    ∃ y, getSp (l.foldl (readTap taps) s) j = some y ∧ Versioned (tapVersion taps j) y := by
  induction l generalizing s x with
  | nil => cases hj
  | cons k l ih =>
    obtain ⟨hk, hl⟩ := List.nodup_cons.1 hnd
    by_cases e : j = k
    · subst e
      obtain ⟨y, hy, hv⟩ := readTap_own taps h
      exact ⟨y, (foldl_readTap_other taps hk _).trans hy, hv⟩
    · have other := (readTap_sp taps (SpKeeps.rfl_ s) k (covers_own k) (List.Subset.refl _)).getSp_other e
      exact ih ((List.mem_cons.1 hj).resolve_left e) hl (other.trans h)

/-! #### Step 3 begins with the checker self-tests of every Spire -/

/-- R430: the checker self-test of a Spire begins. -/
def checkerBegins (s : State) (j : Nat) : State := traceLevels (updSp s j fun p => { setLevels true true true p with testing := true }) j

theorem traceLevels_sp {i : Option Nat} {m : List SpFld} {s u : State} (h : SpKeeps i m s u) (j : Nat) (hj : Covers i j) (hm : [.cnt, .trc] ⊆ m) :
    SpKeeps i m s (traceLevels u j) := by
  unfold traceLevels onSp
  split
  · exact trace_sp h j _ _ _ _ _ _ _ hj hm
  · exact h

theorem checkerBegins_sp {i : Option Nat} (s : State) (j : Nat) (hj : Covers i j) : SpKeeps i [.lv, .testing, .cnt, .trc] s (checkerBegins s j) :=
  traceLevels_sp ((SpKeeps.rfl_ s).updSp j (fun p => { setLevels true true true p with testing := true }) [.lv, .testing] (fun _ => rfl) hj (by decide)) j hj (by decide)

/-- The part of a Spire that its tap's version sets. -/
def tapPart (p : Spire) : TapReg × Bool := (p.tap, p.lv.hbOk)

theorem checkerBegins_tapPart (s : State) (k j : Nat) : (getSp (checkerBegins s k) j).map tapPart = (getSp s j).map tapPart := by
  by_cases e : j = k
  · subst e
    have traced := (traceLevels_sp (i := none) (SpKeeps.rfl_ (updSp s j fun p => { setLevels true true true p with testing := true })) j (covers_all j)
      (List.Subset.refl _)).map_getSp tapPart (fun x y r => Prod.ext (r.same .tap (by decide)) (congrArg Levels.hbOk (r.same .lv (by decide)))) j
    refine traced.trans ?_
    rw [getSp_updSp s j (fun p => { setLevels true true true p with testing := true }) fun _ => rfl, Option.map_map]
    rfl
  · rw [(checkerBegins_sp s k (covers_own k)).getSp_other e]

theorem checkerBegins_testing {s : State} {j : Nat} {done : List Nat} (h : ∀ x ∈ s.spires, x.ix ∈ done → x.testing = true) :
    ∀ x ∈ (checkerBegins s j).spires, x.ix ∈ done ++ [j] → x.testing = true := by
  intro y hy hin
  have traced := traceLevels_sp (i := none) (SpKeeps.rfl_ (updSp s j fun p => { setLevels true true true p with testing := true })) j (covers_all j) (List.Subset.refl _)
  obtain ⟨x, hx, r⟩ := traced.mem_right hy
  rw [show y.testing = x.testing from r.same .testing (by decide)]
  rw [r.ix] at hin
  obtain ⟨z, hz, rfl⟩ := List.mem_map.1 hx
  by_cases e : z.ix = j
  · rw [if_pos e]
  · rw [if_neg e] at hin ⊢
    rcases List.mem_append.1 hin with hd | hn
    · exact h z hz hd
    · exact absurd (List.mem_singleton.1 hn) e

theorem foldl_checkerBegins (l : List Nat) {s : State} {done : List Nat} (h : ∀ x ∈ s.spires, x.ix ∈ done → x.testing = true) :
    ∀ x ∈ (l.foldl checkerBegins s).spires, x.ix ∈ done ++ l → x.testing = true := by
  induction l generalizing s done with
  | nil => rw [List.append_nil]; exact h
  | cons j l ih =>
    have rest := ih (checkerBegins_testing (j := j) h)
    rwa [List.append_assoc] at rest

theorem step3Begins_spires (s : State) : (∀ x ∈ (step3Begins s).spires, x.testing = true) ∧ SpKeeps none [.lv, .testing, .cnt, .trc] s (step3Begins s) ∧
    ∀ j, (getSp (step3Begins s) j).map tapPart = (getSp s j).map tapPart := by
  have run : step3Begins s = (s.spires.map (·.ix)).foldl checkerBegins (stepBegins s 3) := rfl
  have kept : SpKeeps none [.lv, .testing, .cnt, .trc] s (step3Begins s) := by
    rw [run]
    exact SpKeeps.foldl (u := stepBegins s 3) (fun v j hv => hv.trans (checkerBegins_sp v j (covers_all j))) ((SpKeeps.rfl_ s).of_eq rfl) _
  refine ⟨fun x hx => ?_, kept, fun j => ?_⟩
  · have all := foldl_checkerBegins (s.spires.map (·.ix)) (s := stepBegins s 3) (done := []) fun x _ hin => absurd hin List.not_mem_nil
    refine all x hx ?_
    have hin := List.mem_map_of_mem (f := (·.ix)) hx
    rwa [kept.map_ix] at hin
  · rw [run]
    exact (foldl_kept (g := fun v => (getSp v j).map tapPart) (fun v k => checkerBegins_tapPart v k j) _ (stepBegins s 3) :)

/-! #### The report of step 2 -/

/-- What step 2 does before the first sweep. -/
def clocksBase (s : State) (net : NetReport) : State :=
  { s with
    boot := { s.boot with clocks := true }
    domes := s.domes.map fun d => { d with up := true }
    keep := { s.keep with unitEn := s.keep.unitEn ||| 0x3000 }
    time := { s.time with domeLat := halfLoops net.domeLoops, spireLat := halfLoops net.spireLoops } }

/-- What the readings of the first sweep leave. -/
theorem clocksOn_same (s : State) (net : NetReport) :
    Same [.alert, .cmd, .inputs, .cmds, .cistern, .pads, .parts, .tiles, .spires, .domes, .engines, .caravan, .records, .early, .near, .thermal, .erg]
      (clocksBase s net) (clocksOn s net) :=
  (keeps_foldl (fun _ _ hv => takeReading_keeps _ _ _ hv (List.Subset.refl _)) (Keeps.rfl_ _ (clocksBase s net))).same

theorem clocksOn_sweeping (s : State) (net : NetReport) :
    Sweeping (clocksBase s net) (net.sweep.map fun x => (x.1, x.2.1)) (clocksOn s net) :=
  Sweeping.foldl (u := clocksBase s net) (done := []) ⟨rfl, SpKeeps.rfl_ _, .inr fun _ h => absurd h List.not_mem_nil⟩ net.sweep

theorem clocksOn_swept {s : State} {net : NetReport} (hsp : (s.spires.map (·.ix)).Nodup) (hdm : (s.domes.map (·.ix)).Nodup) (hne : s.spires ≠ [])
    (spires : ∀ x ∈ s.spires, ∃ n, (false, x.ix, n) ∈ net.sweep) (domes : ∀ x ∈ s.domes, ∃ n, (true, x.ix, n) ∈ net.sweep) :
    (clocksOn s net).thermal.swept = true := by
  have sensors : sensorsOf (clocksBase s net) = sensorsOf s := by
    unfold sensorsOf clocksBase
    rw [List.map_map]
    rfl
  refine (clocksOn_sweeping s net).ended (by rw [sensors]; exact sensorsOf_nodup hsp hdm) ?_ ?_
  · rw [sensors]
    intro a ha
    rcases List.mem_append.1 ha with hs | hd
    · obtain ⟨x, hx, rfl⟩ := List.mem_map.1 hs
      obtain ⟨n, hn⟩ := spires x hx
      exact List.mem_map.2 ⟨_, hn, rfl⟩
    · obtain ⟨x, hx, rfl⟩ := List.mem_map.1 hd
      obtain ⟨n, hn⟩ := domes x hx
      exact List.mem_map.2 ⟨_, hn, rfl⟩
  · rw [sensors]
    obtain ⟨x, hx⟩ := List.exists_mem_of_ne_nil _ hne
    exact List.ne_nil_of_mem (List.mem_append_left _ (List.mem_map_of_mem hx))

/-- Step 2 with its taps read. -/
def tapsOn (s : State) (taps : List (Nat × BitVec 4)) (net : NetReport) : State := ((clocksOn s net).spires.map (·.ix)).foldl (readTap taps) (clocksOn s net)

theorem exec_clocksAndCaravan {s : State} {taps : List (Nat × BitVec 4)} {net : NetReport} (hstep : s.boot.step = 2) (hclk : s.boot.clocks = false)
    (hsw : (clocksOn s net).thermal.swept = true) (hdown : net.downLinks = []) :
    exec (.clocksAndCaravan taps net) s = .next (if ppsMode s = 2 then { tapsOn s taps net with time := { (tapsOn s taps net).time with alignWait := true } }
      else startTick (tapsOn s taps net)) := by
  have go : ¬ (s.boot.step ≠ 2 ∨ s.boot.clocks = true ∨ (!(clocksOn s net).thermal.swept) = true) := by
    rw [hstep, hclk, hsw]
    decide
  refine (congrArg Host.Outcome.next (if_neg go)).trans ?_
  rw [hdown]
  rfl

theorem startTick_step3 {s : State} (hstep : s.boot.step = 2) (hclk : s.boot.clocks = true) :
    startTick s = step3Begins { s with time := { s.time with run := true, alignWait := false } } := if_pos ⟨hstep, hclk⟩

/-- What step 2's report leaves, whichever way it ends: `t` is where the taps are read. -/
theorem tapsOn_effect {s : State} {taps : List (Nat × BitVec 4)} {net : NetReport} (hstep : s.boot.step = 2)
    (hsw : (clocksOn s net).thermal.swept = true) :
    (tapsOn s taps net).time = (clocksBase s net).time ∧ (tapsOn s taps net).thermal.swept = true ∧ (tapsOn s taps net).boot.clocks = true ∧
      (tapsOn s taps net).boot.step = 2 ∧ (tapsOn s taps net).keep.unitEn = s.keep.unitEn ||| 0x3000 ∧ (∀ d ∈ (tapsOn s taps net).domes, d.up = true) ∧
      (tapsOn s taps net).cistern.data = s.cistern.data := by
  have read := foldl_readTap taps ((clocksOn s net).spires.map (·.ix)) (clocksOn s net)
  have base := clocksOn_same s net
  have sweeping := clocksOn_sweeping s net
  unfold tapsOn
  generalize ((clocksOn s net).spires.map (·.ix)).foldl (readTap taps) (clocksOn s net) = t at read ⊢
  have boot : (clocksOn s net).boot = (clocksBase s net).boot := base .boot (by decide)
  refine ⟨read.rest.time_eq.trans base.time_eq, ?_, ?_, ?_, ?_, fun d hd => ?_, read.rest.bytes_eq.1.trans base.bytes_eq.1⟩
  · exact (congrArg Thermal.swept (read.rest .thermal (by decide))).trans hsw
  · exact read.clocks.trans (congrArg Boot.clocks boot)
  · exact read.step.trans ((congrArg Boot.step boot).trans hstep)
  · exact (congrArg Prod.fst ((read.rest .units (by decide)).trans (base .units (by decide))) :)
  · have ups : domeUps t = domeUps (clocksBase s net) := read.ups.trans sweeping.ups
    have hin : (d.ix, d.up) ∈ domeUps (clocksBase s net) := ups ▸ List.mem_map_of_mem (f := fun d : Dome => (d.ix, d.up)) hd
    obtain ⟨d', hd', he⟩ := List.mem_map.1 hin
    obtain ⟨d0, -, rfl⟩ := List.mem_map.1 hd'
    exact (congrArg Prod.snd he).symm

theorem tapsOn_versioned {s : State} {taps : List (Nat × BitVec 4)} {net : NetReport} {sp : Spire} (hin : sp ∈ s.spires) (hnd : (s.spires.map (·.ix)).Nodup) :
    ∃ y, getSp (tapsOn s taps net) sp.ix = some y ∧ Versioned (tapVersion taps sp.ix) y := by
  have ixs : (clocksOn s net).spires.map (·.ix) = s.spires.map (·.ix) := (clocksOn_sweeping s net).spires.map_ix
  obtain ⟨x, hx⟩ := getSp_of_mem hin
  obtain ⟨y, hy, -⟩ := (clocksOn_sweeping s net).spires.getSp_some (j := sp.ix) (x := x) hx
  unfold tapsOn
  rw [ixs]
  exact foldl_readTap_own taps (List.mem_map_of_mem hin) hnd hy

theorem versioned_tapPart {v : BitVec 4} {x y : Spire} (h : Versioned v x) (e : tapPart y = tapPart x) : Versioned v y := by
  obtain ⟨hver, hhb, hoff⟩ := h
  have tap : y.tap = x.tap := congrArg Prod.fst e
  have hb : y.lv.hbOk = x.lv.hbOk := congrArg Prod.snd e
  exact ⟨(congrArg TapReg.ver tap).trans hver, hb.trans hhb, fun h2 h3 => (congrArg TapReg.off tap).trans (hoff h2 h3)⟩

theorem step3Begins_same (s : State) : Same [.spires, .boot] s (step3Begins s) ∧ (step3Begins s).boot = (stepBegins s 3).boot := by
  have same : Same [.spires] (stepBegins s 3) (step3Begins s) :=
    (keeps_foldl (fun _ _ hv => traceLevels_keeps _ (updSp_keeps _ _ hv (by decide)) (by decide)) (Keeps.rfl_ [.spires] (stepBegins s 3))).same
  have began : Same [.spires, .boot] s (stepBegins s 3) := by
    intro f hf
    cases f <;> first | rfl | exact absurd (by decide) hf
  exact ⟨began.trans (same.mono (by decide)), same .boot (by decide)⟩

end Sys2Proof.Machine
end

section
/-! The report of step 2 as a whole (R319, R415, R416). -/

set_option Elab.async false

namespace Sys2Proof.Machine

/-- R77, R319, R415, R416: a whole report of step 2 with a reading of every sensor. -/
theorem clocksAndCaravan_effect (s : State) (taps : List (Nat × BitVec 4)) (sp : Spire) (v : BitVec 4) (hstep : s.boot.step = 2) (hclk : s.boot.clocks = false)
    (hin : sp ∈ s.spires) (hsp : (s.spires.map (·.ix)).Nodup) (hdm : (s.domes.map (·.ix)).Nodup)
    (htap : taps.find? (fun t => t.1 == sp.ix) = some (sp.ix, v)) (dl sl : List (Nat × Nat)) (sweep : List (Bool × Nat × Nat))
    (spires : ∀ x ∈ s.spires, ∃ n, (false, x.ix, n) ∈ sweep) (domes : ∀ x ∈ s.domes, ∃ n, (true, x.ix, n) ∈ sweep) :
    ∃ t sp', exec (.clocksAndCaravan taps ⟨[], dl, sl, sweep⟩) s = .next t ∧ t.time.domeLat = dl.map (fun x => (x.1, x.2 / 2)) ∧
      t.time.spireLat = sl.map (fun x => (x.1, x.2 / 2)) ∧ t.thermal.swept = true ∧ t.boot.clocks = true ∧ t.keep.unitEn = s.keep.unitEn ||| 0x3000 ∧
      (∀ d ∈ t.domes, d.up = true) ∧ t.time.tick = s.time.tick ∧
      (ppsMode s = 2 → t.boot.step = 2 ∧ t.time.alignWait = true ∧ t.time.run = s.time.run) ∧
      (ppsMode s ≠ 2 → t.boot.step = 3 ∧ t.time.run = true ∧ t.time.alignWait = false ∧ ∀ x ∈ t.spires, x.testing = true) ∧
      getSp t sp.ix = some sp' ∧ sp'.tap.ver = v ∧ sp'.lv.hbOk = decide (v = 3) ∧ (v ≠ 2 → v ≠ 3 → sp'.tap.off = true) ∧
      t.cistern.data = s.cistern.data := by
  have hsw := clocksOn_swept (net := ⟨[], dl, sl, sweep⟩) hsp hdm (List.ne_nil_of_mem hin) spires domes
  have run := exec_clocksAndCaravan (taps := taps) hstep hclk hsw rfl
  obtain ⟨time, swept, clocks, step, units, ups, bytes⟩ := tapsOn_effect (taps := taps) hstep hsw
  obtain ⟨y, hy, versions⟩ := tapsOn_versioned (taps := taps) (net := ⟨[], dl, sl, sweep⟩) hin hsp
  have hv : tapVersion taps sp.ix = v := by rw [tapVersion, htap]; rfl
  rw [hv] at versions
  generalize tapsOn s taps ⟨[], dl, sl, sweep⟩ = u at run time swept clocks step units ups bytes hy
  by_cases hmode : ppsMode s = 2
  · rw [if_pos hmode] at run
    refine ⟨_, y, run, (congrArg TimeSt.domeLat time :), (congrArg TimeSt.spireLat time :), swept, clocks, units, ups, (congrArg TimeSt.tick time :),
      fun _ => ⟨step, rfl, (congrArg TimeSt.run time :)⟩, fun hne => absurd hmode hne, hy, versions.1, versions.2.1, versions.2.2, bytes⟩
  · rw [if_neg hmode, startTick_step3 step clocks] at run
    generalize hw : ({ u with time := { u.time with run := true, alignWait := false } } : State) = w at run
    have wtime : w.time = { u.time with run := true, alignWait := false } := by rw [← hw]
    obtain ⟨rest, boot⟩ := step3Begins_same w
    obtain ⟨testing, -, tap⟩ := step3Begins_spires w
    have timeT := rest.time_eq.trans wtime
    have mapped : (getSp (step3Begins w) sp.ix).map tapPart = some (tapPart y) := by
      rw [tap, ← hw]
      exact congrArg (Option.map tapPart) hy
    obtain ⟨z, hz, hzy⟩ := Option.map_eq_some_iff.1 mapped
    obtain ⟨hver, hhb, hoff⟩ := versioned_tapPart versions hzy
    refine ⟨_, z, run, ?_, ?_, ?_, ?_, ?_, ?_, ?_, fun h => absurd h hmode, fun _ => ⟨?_, ?_, ?_, testing⟩, hz, hver, hhb, hoff, ?_⟩
    · exact (congrArg TimeSt.domeLat timeT).trans (congrArg TimeSt.domeLat time :)
    · exact (congrArg TimeSt.spireLat timeT).trans (congrArg TimeSt.spireLat time :)
    · exact (congrArg Thermal.swept (rest .thermal (by decide))).trans (by rw [← hw]; exact swept)
    · exact (congrArg Boot.clocks boot).trans (by rw [← hw]; exact clocks)
    · exact (congrArg Prod.fst (rest .units (by decide)) :).trans (by rw [← hw]; exact units)
    · rw [show (step3Begins w).domes = w.domes from rest .domes (by decide), ← hw]
      exact ups
    · exact (congrArg TimeSt.tick timeT).trans (congrArg TimeSt.tick time :)
    · exact (congrArg Boot.step boot)
    · exact (congrArg TimeSt.run timeT)
    · exact (congrArg TimeSt.alignWait timeT)
    · exact rest.bytes_eq.1.trans (by rw [← hw]; exact bytes)

end Sys2Proof.Machine
end

section
/-! The engines' self-tests of step 3 (R427, R431, R437). -/

set_option Elab.async false

namespace Sys2Proof.Machine

/-! ### Step 3 of bring-up: the engines' self-tests (R431) -/

/-- R431, R437: whether the next `n` slices of an engine's test pass whose rotation pointer is `ptr`. -/
def slicesPass (es : List GoldenEntry) : Nat → Nat → List SliceRes → Bool
  | _, 0, _ => true
  | ptr, n + 1, rs =>
    decide ((rs.head?.getD ⟨none, none, 0⟩).sig = some (entryAt es ptr).sig) && slicesPass es ((ptr + 1) % max 1 es.length) n (rs.drop 1)

/-- R431: whether an engine's self-test passes. -/
def enginePasses (es : List GoldenEntry) (ptr : Nat) (r : EngineRun) : Bool := r.passes && slicesPass es ptr es.length r.slices

/-- Only engine `x` may change, and none is added or lost. -/
structure EngKeeps (x : Nat) (s t : State) : Prop where
  length : t.engines.length = s.engines.length
  other : ∀ e, e ≠ x → getEng t e = getEng s e

section
variable {x : Nat} {s t u : State}

theorem EngKeeps.rfl_ (x : Nat) (s : State) : EngKeeps x s s := ⟨rfl, fun _ _ => rfl⟩

theorem EngKeeps.trans (h : EngKeeps x s t) (g : EngKeeps x t u) : EngKeeps x s u :=
  ⟨g.length.trans h.length, fun e he => (g.other e he).trans (h.other e he)⟩

theorem EngKeeps.of_eq (h : EngKeeps x s u) (e : t.engines = u.engines) : EngKeeps x s t :=
  ⟨by rw [e]; exact h.length, fun k hk => by rw [getEng, e]; exact h.other k hk⟩

theorem EngKeeps.of_same {l : List Fld} (h : EngKeeps x s u) (e : Same l u t) (hl : .engines ∉ l := by decide) : EngKeeps x s t := h.of_eq (e .engines hl)

theorem EngKeeps.updEng (h : EngKeeps x s u) (f : Engine → Engine) : EngKeeps x s (updEng u x f) :=
  ⟨(length_updAt _ _ _).trans h.length, fun e he => (getEng_updEng_ne u f he).trans (h.other e he)⟩

end

/-- A slice of an engine's test is charged and the rotation pointer moves on (R437). -/
def sliceMoved (s : State) (x us : Nat) : State :=
  updEng (addMeter s 0 mTest us) x fun g => { g with ptr := (g.ptr + 1) % max 1 (goldenOf s uEngineSet).length }

section
variable (x : Nat) (s : State)

theorem engSliceFail_same (e : GoldenEntry) (solid : Bool) (sig : W64) (us : W32) :
    Same [.alert, .inputs, .cistern, .parts, .records, .early, .near, .thermal] s (engSliceFail s x e solid sig us) :=
  (engSliceFail_keeps x e solid sig us (Keeps.rfl_ _ s) (List.Subset.refl _)).same

theorem engineSlices_succ (n : Nat) (rs : List SliceRes) :
    ((rs.head?.getD ⟨none, none, 0⟩).sig = some (entryAt (goldenOf s uEngineSet) (getEng s x).ptr).sig ∧
      engineSlices x (n + 1) rs s = engineSlices x n (rs.drop 1) (thmCount (sliceMoved s x (rs.head?.getD ⟨none, none, 0⟩).us.toNat) thPass 1)) ∨
    ((rs.head?.getD ⟨none, none, 0⟩).sig ≠ some (entryAt (goldenOf s uEngineSet) (getEng s x).ptr).sig ∧ (engineSlices x (n + 1) rs s).2 = false ∧
      Same [.alert, .inputs, .cistern, .parts, .records, .early, .near, .thermal] (sliceMoved s x (rs.head?.getD ⟨none, none, 0⟩).us.toNat) (engineSlices x (n + 1) rs s).1) := by
  rw [engineSlices]
  dsimp only
  split
  · next h => exact .inl ⟨h, rfl⟩
  · next h =>
    refine .inr ⟨h, rfl, ?_⟩
    generalize hv : sliceMoved s x (rs.head?.getD ⟨none, none, 0⟩).us.toNat = v
    unfold sliceMoved at hv
    rw [hv]
    refine Same.trans ?_ (engSliceFail_same x _ _ _ _ _)
    split
    · exact (addRec_same v _).mono (by decide)
    · exact Same.rfl_ _ v

theorem sliceMoved_golden (us : Nat) : goldenOf (sliceMoved s x us) uEngineSet = goldenOf s uEngineSet := rfl

variable {s} in
theorem engineSlices_effect (n : Nat) (rs : List SliceRes) (hx : x < s.engines.length) :
    EngKeeps x s (engineSlices x n rs s).1 ∧ (engineSlices x n rs s).2 = slicesPass (goldenOf s uEngineSet) (getEng s x).ptr n rs := by
  induction n generalizing rs s with
  | zero => exact ⟨EngKeeps.rfl_ x s, rfl⟩
  | succ n ih =>
    have moved (us : Nat) : EngKeeps x s (sliceMoved s x us) := EngKeeps.updEng (u := addMeter s 0 mTest us) ((EngKeeps.rfl_ x s).of_eq rfl) _
    rcases engineSlices_succ x s n rs with ⟨hsig, e⟩ | ⟨hsig, e, same⟩
    · generalize (rs.head?.getD ⟨none, none, 0⟩).us.toNat = us at e
      have rest := ih (s := thmCount (sliceMoved s x us) thPass 1) (rs.drop 1) (by rw [show (thmCount (sliceMoved s x us) thPass 1).engines.length = _ from (moved us).length]; exact hx)
      have ptr : (getEng (thmCount (sliceMoved s x us) thPass 1) x).ptr = ((getEng s x).ptr + 1) % max 1 (goldenOf s uEngineSet).length :=
        congrArg Engine.ptr (getEng_updEng (s := addMeter s 0 mTest us) x (fun g => { g with ptr := (g.ptr + 1) % max 1 (goldenOf s uEngineSet).length }) hx)
      have golden : goldenOf (thmCount (sliceMoved s x us) thPass 1) uEngineSet = goldenOf s uEngineSet := rfl
      rw [golden, ptr] at rest
      rw [e]
      refine ⟨EngKeeps.trans (t := thmCount (sliceMoved s x us) thPass 1) ((moved us).of_eq rfl) rest.1, rest.2.trans ?_⟩
      rw [slicesPass, decide_eq_true hsig, Bool.true_and]
    · refine ⟨(moved _).of_same same, e.trans ?_⟩
      rw [slicesPass, decide_eq_false hsig, Bool.false_and]

end

/-- The run that the reports give for an engine. -/
def runOf (reports : List (Nat × EngineRun)) (e : Nat) : EngineRun := ((reports.find? fun r => r.1 == e).map (·.2)).getD ⟨[], [], 0⟩

/-- R423, R427, R431: what an engine is once it has started. -/
def engineStarts (s : State) (reports : List (Nat × EngineRun)) (e : Nat) : EngSt :=
  if licEng s ≤ e then .off else if enginePasses (goldenOf s uEngineSet) (getEng s e).ptr (runOf reports e) then .free else .failed

theorem engineTest_effect {s : State} (x : Nat) (r : EngineRun) (hx : x < s.engines.length) :
    EngKeeps x s (engineTest s x r).1 ∧ (engineTest s x r).2 = enginePasses (goldenOf s uEngineSet) (getEng s x).ptr r := by
  have slices := engineSlices_effect (s := addMeter s 0 mTest r.us.toNat) x (goldenOf s uEngineSet).length r.slices hx
  unfold engineTest enginePasses
  dsimp only
  cases r.passes
  · rw [if_neg Bool.false_ne_true]
    exact ⟨(EngKeeps.rfl_ x s).of_eq rfl, rfl⟩
  · rw [if_pos rfl, Bool.true_and]
    exact ⟨EngKeeps.trans (t := addMeter s 0 mTest r.us.toNat) ((EngKeeps.rfl_ x s).of_eq rfl) slices.1, slices.2⟩

theorem startEngine_effect {s : State} (reports : List (Nat × EngineRun)) (e : Nat) (he : e < s.engines.length) :
    EngKeeps e s (startEngine reports s e) ∧ (getEng (startEngine reports s e) e).state = engineStarts s reports e := by
  obtain ⟨keeps, passes⟩ := engineTest_effect e (runOf reports e) he
  have run : startEngine reports s e = if licEng s ≤ e then updEng s e fun g => { g with state := .off }
      else updEng (engineTest s e (runOf reports e)).1 e fun g => { g with state := if (engineTest s e (runOf reports e)).2 then .free else .failed } := rfl
  rw [run, engineStarts, passes]
  generalize (engineTest s e (runOf reports e)).1 = v at keeps ⊢
  have hv : e < v.engines.length := by rw [keeps.length]; exact he
  split
  · exact ⟨(EngKeeps.rfl_ e s).updEng _, congrArg Engine.state (getEng_updEng s e _ he)⟩
  · refine ⟨keeps.updEng _, ?_⟩
    exact congrArg Engine.state (getEng_updEng v e _ hv)

/-- What the start of an engine reads and leaves: the image, the fuses and bring-up. -/
theorem startEngine_leaves (reports : List (Nat × EngineRun)) (s : State) (e : Nat) : licEng (startEngine reports s e) = licEng s ∧
    goldenOf (startEngine reports s e) uEngineSet = goldenOf s uEngineSet := by
  have same := (startEngine_keeps reports e (Keeps.rfl_ _ s) (List.Subset.refl _)).same
  constructor
  · rw [licEng, licEng, entitled, entitled, same .boot (by decide), same .fuses (by decide)]
  · rw [goldenOf, goldenOf, same.image_eq]

theorem foldl_startEngine (reports : List (Nat × EngineRun)) (l : List Nat) (hnd : l.Nodup) {s : State} (hl : ∀ e ∈ l, e < s.engines.length) :
    (l.foldl (startEngine reports) s).engines.length = s.engines.length ∧ (∀ e, e ∉ l → getEng (l.foldl (startEngine reports) s) e = getEng s e) ∧
      ∀ e ∈ l, (getEng (l.foldl (startEngine reports) s) e).state = engineStarts s reports e := by
  induction l generalizing s with
  | nil => exact ⟨rfl, fun _ _ => rfl, fun _ h => absurd h List.not_mem_nil⟩
  | cons k l ih =>
    obtain ⟨hk, hnd⟩ := List.nodup_cons.1 hnd
    obtain ⟨keeps, state⟩ := startEngine_effect reports k (hl k List.mem_cons_self)
    obtain ⟨length, other, own⟩ := ih hnd (s := startEngine reports s k) fun e he => by rw [keeps.length]; exact hl e (List.mem_cons_of_mem _ he)
    obtain ⟨lic, golden⟩ := startEngine_leaves reports s k
    refine ⟨length.trans keeps.length, fun e he => ?_, fun e he => ?_⟩
    · exact (other e fun h => he (List.mem_cons_of_mem _ h)).trans (keeps.other e fun h => he (h ▸ List.mem_cons_self))
    · by_cases e1 : e = k
      · subst e1
        exact (congrArg Engine.state (other e hk)).trans state
      · refine (own e ((List.mem_cons.1 he).resolve_left e1)).trans ?_
        rw [engineStarts, engineStarts, lic, golden, keeps.other e e1]

/-! #### The tests of the statement -/

/-- R437: the slice at which an engine's test stands after `i` slices. -/
def slicePtr (n ptr i : Nat) : Nat := if i = 0 then ptr else (ptr + i) % n

theorem slicePtr_succ (n ptr i : Nat) : slicePtr n ((ptr + 1) % n) i = slicePtr n ptr (i + 1) := by
  unfold slicePtr
  rw [if_neg (Nat.succ_ne_zero i)]
  split
  · next h => rw [h]
  · rw [Nat.mod_add_mod, Nat.add_assoc, Nat.add_comm 1]

theorem slicesPass_of {es : List GoldenEntry} (n ptr : Nat) (rs : List SliceRes) (hes : n ≤ es.length)
    (h : ∀ i, i < n → ∃ x, rs[i]? = some x ∧ x.sig = some (entryAt es (slicePtr es.length ptr i)).sig) : slicesPass es ptr n rs = true := by
  induction n generalizing ptr rs with
  | zero => rfl
  | succ n ih =>
    obtain ⟨x, hx, hsig⟩ := h 0 (Nat.succ_pos n)
    have head : rs.head? = some x := by rw [List.head?_eq_getElem?]; exact hx
    have first : x.sig = some (entryAt es ptr).sig := hsig
    rw [slicesPass, head, Option.getD_some, decide_eq_true first, Bool.true_and, Nat.max_eq_right (Nat.le_trans (Nat.succ_pos n) hes)]
    refine ih _ _ (Nat.le_of_succ_le hes) fun i hi => ?_
    obtain ⟨y, hy, ys⟩ := h (i + 1) (Nat.succ_lt_succ hi)
    refine ⟨y, ?_, by rw [slicePtr_succ]; exact ys⟩
    rw [List.getElem?_drop, Nat.add_comm 1]
    exact hy

theorem slicesPass_first {es : List GoldenEntry} {ptr : Nat} {rs : List SliceRes} (hes : 0 < es.length)
    (h : ∀ x, rs.head? = some x → x.sig ≠ some (entryAt es ptr).sig) : slicesPass es ptr es.length rs = false := by
  obtain ⟨n, hn⟩ := Nat.exists_eq_succ_of_ne_zero (Nat.pos_iff_ne_zero.1 hes)
  rw [hn, slicesPass, decide_eq_false, Bool.false_and]
  cases hx : rs.head? with
  | none => exact (Option.some_ne_none _).symm
  | some x => exact h x hx

end Sys2Proof.Machine
end

section
/-! The tiles of step 3 (R423, R433, R441). -/

set_option Elab.async false

namespace Sys2Proof.Machine

/-! ### Step 3 of bring-up: the tiles whose checker self-test fails (R423, R433, R441) -/

/-- What the checker self-tests' results leave. -/
theorem checkerAtBoot_same (reports : List (Nat × CheckerRun)) (s : State) (j : Nat) :
    Same [.alert, .inputs, .cistern, .nvm, .parts, .tiles, .domes, .caravan, .records, .early, .near] s (checkerAtBoot reports s j) := by
  unfold checkerAtBoot
  split
  · exact Same.rfl_ _ s
  · refine Same.trans (((tileInput_same s 0x15 j 0).mono (by decide)).trans ((actFence_same _ j tcBringup 0xFFFF 1 (tileInput s 0x15 j 0).time.tick).mono (by decide))) ?_
    exact ((repairWanted_keeps j none (Keeps.rfl_ [.nvm] _) (by decide)).same.mono (by decide))

theorem actFence_repairDue (s : State) (j cause peal cls : Nat) (vtick : W64) : (actFence s j cause peal cls vtick).nvm.repairDue = s.nvm.repairDue := by
  rcases actFence_cases s j cause peal cls vtick with ⟨t, -, -, e⟩ | ⟨-, e⟩ | ⟨t, r, -, -, e⟩ <;> rw [e]
  · refine (congrArg Nvm.repairDue (fenceSent_same _ j _ cause peal cls vtick .nvm (by decide))).trans ?_
    unfold tileFenced snapshotDue
    split <;> rfl
  · exact congrArg Nvm.repairDue (addRec_same s r .nvm (by decide))

theorem checkerAtBoot_repairDue (reports : List (Nat × CheckerRun)) (s : State) (j : Nat) :
    s.nvm.repairDue ⊆ (checkerAtBoot reports s j).nvm.repairDue ∧ (checkerPasses reports j = false → (j, none) ∈ (checkerAtBoot reports s j).nvm.repairDue) := by
  have run : (checkerAtBoot reports s j).nvm.repairDue = if checkerPasses reports j then s.nvm.repairDue else s.nvm.repairDue ++ [(j, none)] := by
    unfold checkerAtBoot
    split
    · rfl
    · exact congrArg (· ++ [(j, none)]) ((actFence_repairDue _ j tcBringup 0xFFFF 1 _).trans (congrArg Nvm.repairDue (tileInput_same s 0x15 j 0 .nvm (by decide))))
  rw [run]
  constructor
  · split
    · exact List.Subset.refl _
    · exact List.subset_append_left _ _
  · intro h
    rw [h, if_neg Bool.false_ne_true]
    exact List.mem_append_right _ (List.mem_singleton.2 rfl)

theorem checkerAtBoot_tl (reports : List (Nat × CheckerRun)) (s : State) (j : Nat) :
    TlKeeps (some j) [.state, .fencedAt, .watch, .fseq, .out, .next] s (checkerAtBoot reports s j) := by
  unfold checkerAtBoot
  split
  · exact TlKeeps.rfl_ s
  · exact (actFence_tl (u := tileInput s 0x15 j 0) ((TlKeeps.rfl_ s).of_eq (tileInput_same s 0x15 j 0 .tiles (by decide))) j tcBringup 0xFFFF 1 _ (covers_own j) (List.Subset.refl _)).of_eq rfl

theorem checkerAtBoot_getTile (reports : List (Nat × CheckerRun)) {s : State} {j k : Nat} {x : Tile} (h : getTile s j = some x) :
    ∃ y, getTile (checkerAtBoot reports s k) j = some y ∧ y.ix = x.ix := by
  obtain ⟨y, hy, r⟩ := (checkerAtBoot_tl reports s k).getTile_some h
  exact ⟨y, hy, r.ix⟩

theorem checkerAtBoot_stateOf (reports : List (Nat × CheckerRun)) {s : State} {j k : Nat} {x : Tile} (h : getTile s j = some x) :
    stateOf (checkerAtBoot reports s k) j = if k = j ∧ checkerPasses reports j = false ∧ stateOf s j < stFenced then stFenced else stateOf s j := by
  by_cases e : k = j
  · subst e
    unfold checkerAtBoot
    cases checkerPasses reports k
    · have there : getTile (tileInput s 0x15 k 0) k = some x := by rw [getTile, tileInput_same s 0x15 k 0 .tiles (by decide)]; exact h
      have fenced := stateOf_actFence there tcBringup 0xFFFF 1 (tileInput s 0x15 k 0).time.tick
      have now : stateOf s k = x.state := by rw [stateOf, h]
      rw [if_neg Bool.false_ne_true, now]
      refine fenced.trans ?_
      split
      · next hlt => rw [if_pos ⟨rfl, rfl, hlt⟩]
      · next hge => rw [if_neg fun hc => hge hc.2.2]
    · exact (if_neg fun hc => Bool.noConfusion hc.2.1).symm
  · rw [if_neg fun hc => e hc.1, stateOf, stateOf, (checkerAtBoot_tl reports s k).getTile_other (Ne.symm e)]

/-- A tile whose checker self-test fails is FENCED once its Spire's result has come, and its repair is due. -/
theorem foldl_checkerAtBoot (reports : List (Nat × CheckerRun)) {j : Nat} (hfail : checkerPasses reports j = false) (l : List Nat) {s : State} {x : Tile}
    (h : getTile s j = some x) (hs : stateOf s j ≤ stFenced) :
    (stateOf s j = stFenced ∨ j ∈ l → stateOf (l.foldl (checkerAtBoot reports) s) j = stFenced) ∧
      ((j, none) ∈ s.nvm.repairDue ∨ j ∈ l → (j, none) ∈ (l.foldl (checkerAtBoot reports) s).nvm.repairDue) := by
  induction l generalizing s x with
  | nil => exact ⟨fun h => h.resolve_right List.not_mem_nil, fun h => h.resolve_right List.not_mem_nil⟩
  | cons k l ih =>
    obtain ⟨y, hy, -⟩ := checkerAtBoot_getTile reports (k := k) h
    have state := checkerAtBoot_stateOf reports (k := k) h
    obtain ⟨grows, due⟩ := checkerAtBoot_repairDue reports s k
    have next : stateOf (checkerAtBoot reports s k) j ≤ stFenced := by
      rw [state]
      split
      · exact Nat.le_refl _
      · exact hs
    obtain ⟨fenced, listed⟩ := ih hy next
    constructor
    · intro hor
      refine fenced ?_
      by_cases e : k = j
      · refine .inl ?_
        rw [state]
        split
        · rfl
        · next hno => exact Nat.le_antisymm hs (Nat.le_of_not_lt fun hlt => hno ⟨e, hfail, hlt⟩)
      · rcases hor with hf | hin
        · refine .inl ?_
          rw [state, if_neg fun hc => e hc.1, hf]
        · exact .inr ((List.mem_cons.1 hin).resolve_left fun e' => e e'.symm)
    · intro hor
      refine listed ?_
      rcases hor with hd | hin
      · exact .inl (grows hd)
      · rcases List.mem_cons.1 hin with e | hin
        · subst e
          exact .inl (due hfail)
        · exact .inr hin

/-! ### Step 3 of bring-up as a whole (R388, R415, R424, R425) -/

section
variable (s : State) (badBanks : List Nat) (engines : List (Nat × EngineRun)) (checkers : List (Nat × CheckerRun))

/-- The banks tested and the engines started. -/
def banksTested : State := testFirmwareBanks badBanks (((List.range Config.banks).drop 2).foldl (bootTest badBanks) s)

/-- Step 3's tests ended and their results taken. -/
def testsTaken : State := checkersOff (((startEngines (banksTested s badBanks) engines).spires.map (·.ix)).foldl (checkerAtBoot checkers) (startEngines (banksTested s badBanks) engines))

/-- R425: step 4 begins and the records made so far are drained. -/
def step4Begins (u : State) : State := releaseEarly (stepBegins { u with boot := { u.boot with memories := true } } 4)

theorem exec_memories (hstep : s.boot.step = 3) : exec (.memories badBanks engines checkers) s =
    .next (if (step4Begins (testsTaken s badBanks engines checkers)).engines.any fun g => g.state == .free then step4Begins (testsTaken s badBanks engines checkers)
      else bringFail (step4Begins (testsTaken s badBanks engines checkers)) bfNoengine) := by
  unfold step4Begins testsTaken banksTested
  exact congrArg Host.Outcome.next (if_neg (not_not_intro hstep))

theorem banksTested_same : Same [.alert, .bytes, .cistern, .parts, .records, .early, .near, .rng] s (banksTested s badBanks) :=
  (testFirmwareBanks_keeps badBanks (keeps_foldl (fun _ b h => bootTest_keeps badBanks b h (List.Subset.refl _)) (Keeps.rfl_ _ s)) (List.Subset.refl _)).same

theorem foldl_checkerAtBoot_same (l : List Nat) (u : State) :
    Same [.alert, .inputs, .cistern, .nvm, .parts, .tiles, .domes, .caravan, .records, .early, .near] u (l.foldl (checkerAtBoot checkers) u) := by
  induction l generalizing u with
  | nil => exact Same.rfl_ _ u
  | cons j l ih => exact (checkerAtBoot_same checkers u j).trans (ih _)

theorem checkersOff_same (u : State) : Same [.spires] u (checkersOff u) := (checkersOff_keeps (Keeps.rfl_ _ u) (List.Subset.refl _)).same

/-- R425: from step 4 on records are not held back. -/
theorem releaseEarly_early {u : State} (hstep : 3 < u.boot.step) : (releaseEarly u).early = [] := by
  have one (v : State) (r : Rec) (hv : 3 < v.boot.step) : (addRec v r).early = v.early := by
    unfold addRec
    rw [if_neg (Nat.not_le_of_lt hv)]
    split
    · rfl
    · dsimp only
      have quota : (refuseQuota v r.part).early = v.early := rfl
      split
      · exact quota
      · exact quota
  have all (l : List Rec) (v : State) (hv : 3 < v.boot.step) (he : v.early = []) : (l.foldl addRec v).early = [] := by
    induction l generalizing v with
    | nil => exact he
    | cons r l ih =>
      refine ih (addRec v r) ?_ ((one v r hv).trans he)
      rw [addRec_same v r .boot (by decide)]
      exact hv
  exact all u.early { u with early := [] } hstep rfl

theorem step4Begins_effect (u : State) : (step4Begins u).boot.step = 4 ∧ (step4Begins u).boot.memories = true ∧ (step4Begins u).early = [] ∧
    Same [.boot, .alert, .cistern, .parts, .records, .early, .near] u (step4Begins u) := by
  have began : Same [.boot] u (stepBegins { u with boot := { u.boot with memories := true } } 4) := by
    intro f hf
    cases f <;> first | rfl | exact absurd (by decide) hf
  have drained := (releaseEarly_keeps (Keeps.rfl_ _ (stepBegins { u with boot := { u.boot with memories := true } } 4)) (List.Subset.refl _)).same
  have boot := drained .boot (by decide)
  exact ⟨(congrArg Boot.step boot).trans rfl, (congrArg Boot.memories boot).trans rfl, releaseEarly_early (Nat.lt_succ_self 3), (began.mono (by decide)).trans (drained.mono (by decide))⟩

theorem testsTaken_same :
    Same [.alert, .inputs, .bytes, .cistern, .parts, .tiles, .spires, .domes, .engines, .nvm, .caravan, .records, .early, .near, .rng, .thermal] s
      (testsTaken s badBanks engines checkers) := by
  have banks := banksTested_same s badBanks
  have started := (startEngines_keeps engines (Keeps.rfl_ _ (banksTested s badBanks)) (List.Subset.refl _)).same
  unfold testsTaken
  generalize startEngines (banksTested s badBanks) engines = u at started ⊢
  have checked := foldl_checkerAtBoot_same checkers (u.spires.map (·.ix)) u
  exact (((banks.mono (by decide)).trans (started.mono (by decide))).trans (checked.mono (by decide))).trans ((checkersOff_same _).mono (by decide))

/-- What the tests read of the state. -/
theorem banksTested_leaves (e : Nat) : (banksTested s badBanks).engines.length = s.engines.length ∧
    engineStarts (banksTested s badBanks) engines e = engineStarts s engines e := by
  have same := banksTested_same s badBanks
  have eng : (banksTested s badBanks).engines = s.engines := same .engines (by decide)
  refine ⟨by rw [eng], ?_⟩
  rw [engineStarts, engineStarts, licEng, licEng, entitled, entitled, goldenOf, goldenOf, getEng, getEng, eng, same.image_eq, same .boot (by decide), same .fuses (by decide)]

theorem testsTaken_engine (hlen : s.engines.length = 64) : (testsTaken s badBanks engines checkers).engines.length = 64 ∧
    ∀ e, e < 64 → (getEng (testsTaken s badBanks engines checkers) e).state = engineStarts s engines e := by
  have lenB := (banksTested_leaves s badBanks engines 0).1
  have started : (startEngines (banksTested s badBanks) engines).engines.length = (banksTested s badBanks).engines.length ∧
      ∀ e, e < 64 → (getEng (startEngines (banksTested s badBanks) engines) e).state = engineStarts (banksTested s badBanks) engines e := by
    obtain ⟨len, -, own⟩ := foldl_startEngine engines (List.range Config.engBuilt) List.nodup_range (s := banksTested s badBanks)
      fun e he => by rw [lenB, hlen]; exact List.mem_range.1 he
    exact ⟨len, fun e he => own e (List.mem_range.2 he)⟩
  unfold testsTaken
  generalize startEngines (banksTested s badBanks) engines = u at started ⊢
  have eng : (checkersOff ((u.spires.map (·.ix)).foldl (checkerAtBoot checkers) u)).engines = u.engines :=
    (checkersOff_same _ .engines (by decide)).trans (foldl_checkerAtBoot_same checkers (u.spires.map (·.ix)) u .engines (by decide))
  refine ⟨by rw [eng, started.1, lenB, hlen], fun e he => ?_⟩
  rw [getEng, eng]
  exact (started.2 e he).trans (banksTested_leaves s badBanks engines e).2

variable {s} in
theorem testsTaken_tile {x : Tile} (hx : getTile s x.ix = some x) (hsp : ∃ sp ∈ s.spires, sp.ix = x.ix) (hlt : x.state < stFenced)
    (hfail : checkerPasses checkers x.ix = false) :
    stateOf (testsTaken s badBanks engines checkers) x.ix = stFenced ∧ (x.ix, none) ∈ (testsTaken s badBanks engines checkers).nvm.repairDue := by
  have before : Same [.alert, .inputs, .bytes, .cistern, .parts, .engines, .records, .early, .near, .rng, .thermal] s (startEngines (banksTested s badBanks) engines) :=
    ((banksTested_same s badBanks).mono (by decide)).trans (((startEngines_keeps engines (Keeps.rfl_ _ (banksTested s badBanks)) (List.Subset.refl _)).same).mono (by decide))
  unfold testsTaken
  generalize startEngines (banksTested s badBanks) engines = u at before ⊢
  have hu : getTile u x.ix = some x := by rw [getTile, before .tiles (by decide)]; exact hx
  have state : stateOf u x.ix = x.state := by rw [stateOf, hu]
  obtain ⟨sp, hin, hsp⟩ := hsp
  have listed : x.ix ∈ u.spires.map (·.ix) := by
    rw [show u.spires = s.spires from before .spires (by decide)]
    exact List.mem_map.2 ⟨sp, hin, hsp⟩
  obtain ⟨fenced, due⟩ := foldl_checkerAtBoot checkers hfail (u.spires.map (·.ix)) hu (by rw [state]; exact Nat.le_of_lt hlt)
  have off := checkersOff_same ((u.spires.map (·.ix)).foldl (checkerAtBoot checkers) u)
  refine ⟨?_, ?_⟩
  · rw [stateOf, getTile, off .tiles (by decide)]
    exact fenced (.inr listed)
  · rw [show (checkersOff _).nvm = _ from off .nvm (by decide)]
    exact due (.inr listed)

end

end Sys2Proof.Machine
end

section
/-! The reports of steps 2 and 3 of bring-up. -/

set_option Elab.async false

namespace Sys2Proof.Machine

/-! ### What step 3's reports make of an engine (R431) -/

section
variable {s : State} {engines : List (Nat × EngineRun)} {e : Nat}

theorem engineStarts_good {r : EngineRun} (hlic : e < licEng s) (hr : engines.find? (fun x => x.1 == e) = some (e, r)) (hp : r.passes = true)
    (h : ∀ i, i < (goldenOf s uEngineSet).length → ∃ x, r.slices[i]? = some x ∧
      x.sig = some (entryAt (goldenOf s uEngineSet) (slicePtr (goldenOf s uEngineSet).length (getEng s e).ptr i)).sig) :
    engineStarts s engines e = .free := by
  have run : runOf engines e = r := by rw [runOf, hr]; rfl
  rw [engineStarts, if_neg (Nat.not_le_of_lt hlic), run, enginePasses, hp, Bool.true_and, slicesPass_of _ _ _ (Nat.le_refl _) h, if_pos rfl]

theorem engineStarts_bad (hlic : e < licEng s) (h : ∀ r, engines.find? (fun x => x.1 == e) = some (e, r) → r.passes = false ∨
    (0 < (goldenOf s uEngineSet).length ∧ ∀ x, r.slices.head? = some x → x.sig ≠ some (entryAt (goldenOf s uEngineSet) (getEng s e).ptr).sig)) :
    engineStarts s engines e = .failed := by
  have fails : enginePasses (goldenOf s uEngineSet) (getEng s e).ptr (runOf engines e) = false := by
    unfold enginePasses runOf
    cases hf : engines.find? fun r => r.1 == e with
    | none => rfl
    | some y =>
      have hy : y.1 = e := eq_of_beq (List.find?_some hf :)
      rcases h y.2 (by rw [hf, ← hy]) with hp | ⟨hes, hd⟩
      · rw [Option.map_some, Option.getD_some, hp]
        rfl
      · rw [Option.map_some, Option.getD_some, slicesPass_first hes hd, Bool.and_false]
  rw [engineStarts, if_neg (Nat.not_le_of_lt hlic), fails, if_neg Bool.false_ne_true]

theorem engineStarts_off (hlic : licEng s ≤ e) : engineStarts s engines e = .off := if_pos hlic

end

theorem any_free_iff {l : List Engine} (hlen : l.length = 64) : (l.any fun g => g.state == .free) = true ↔ ∃ e, e < 64 ∧ (l.getD e Engine.reset).state = .free := by
  rw [List.any_eq_true]
  constructor
  · rintro ⟨g, hg, hs⟩
    obtain ⟨e, he, rfl⟩ := List.getElem_of_mem hg
    exact ⟨e, hlen ▸ he, by rw [List.getD_eq_getElem _ _ he]; exact eq_of_beq hs⟩
  · rintro ⟨e, he, hs⟩
    rw [List.getD_eq_getElem _ _ (hlen ▸ he)] at hs
    exact ⟨_, List.getElem_mem _, beq_iff_eq.2 hs⟩

theorem checkerPasses_false {checkers : List (Nat × CheckerRun)} {j : Nat}
    (h : ∀ r, checkers.find? (fun y => y.1 == j) = some (j, r) → r.passes = false) : checkerPasses checkers j = false := by
  unfold checkerPasses
  cases hf : checkers.find? fun r => r.1 == j with
  | none => rfl
  | some y =>
    have hy : y.1 = j := eq_of_beq (List.find?_some hf :)
    exact h y.2 (by rw [hf, ← hy])

theorem getTile_of_nodup {s : State} {x : Tile} (hx : x ∈ s.tiles) (hnd : (s.tiles.map (·.ix)).Nodup) : getTile s x.ix = some x := by
  unfold getTile
  generalize s.tiles = l at hx hnd
  induction l with
  | nil => cases hx
  | cons a l ih =>
    obtain ⟨ha, hl⟩ := List.nodup_cons.1 hnd
    rw [List.find?_cons]
    rcases List.mem_cons.1 hx with rfl | hx
    · rw [beq_self_eq_true]
    · have hne : (a.ix == x.ix) = false := beq_eq_false_iff_ne.2 fun e => ha (List.mem_map.2 ⟨x, hx, e.symm⟩)
      rw [hne]
      exact ih hx hl

/-- Settles O53: the reports of steps 2 and 3 of bring-up, and those that come out of place. -/
theorem bringUpSteps2And3 : Obligations.BringUpSteps2And3 := by
  refine ⟨clocksAndCaravan_effect, fun s badBanks engines checkers hstep hlen _ => ?memories, fun s taps net b e p => ⟨fun h => ?place2, fun h => ?place3⟩⟩
  case memories =>
    intro es at_ good bad
    have goods (k : Nat) (hk : k < licEng s) (h : good k) : engineStarts s engines k = .free := by
      obtain ⟨r, hr, hp, hs⟩ := h
      exact engineStarts_good hk hr hp hs
    have bads (k : Nat) (hk : k < licEng s) (h : bad k) : engineStarts s engines k = .failed := engineStarts_bad hk h
    have run := exec_memories s badBanks engines checkers hstep
    have tiles (x : Tile) (hx : x ∈ s.tiles) (hnd : (s.tiles.map (·.ix)).Nodup) (hsp : ∃ sp ∈ s.spires, sp.ix = x.ix) (hlt : x.state < stFenced)
        (hfail : checkerPasses checkers x.ix = false) := testsTaken_tile badBanks engines checkers (getTile_of_nodup hx hnd) hsp hlt hfail
    obtain ⟨length, starts⟩ := testsTaken_engine s badBanks engines checkers hlen
    have tested := testsTaken_same s badBanks engines checkers
    generalize testsTaken s badBanks engines checkers = u at run tiles length starts tested
    have taken : u.keep.fault = s.keep.fault := (congrArg Prod.snd (tested .fault (by decide)) :)
    obtain ⟨step, memories, early, began⟩ := step4Begins_effect u
    generalize step4Begins u = t at run step memories early began
    have eng : t.engines = u.engines := began .engines (by decide)
    have states (k : Nat) (hk : k < 64) : (getEng t k).state = engineStarts s engines k := by
      rw [getEng, eng]
      exact starts k hk
    have anyFree : (t.engines.any fun g => g.state == .free) = true ↔ ∃ e, e < 64 ∧ engineStarts s engines e = .free := by
      rw [any_free_iff (eng ▸ length)]
      exact exists_congr fun e => and_congr_right fun he => by rw [← states e he]; rfl
    refine ⟨?starts, ?fails⟩
    case starts =>
      rintro ⟨e, hlic, he, hgood⟩
      rw [if_pos (anyFree.2 ⟨e, he, goods e hlic hgood⟩)] at run
      refine ⟨t, run, step, memories, early, ?_, fun k hk => ?_, fun x hx hsp hnd hlt hfail => ?_⟩
      · exact (congrArg Prod.snd (began .fault (by decide)) :).trans taken
      · rw [states k hk]
        exact ⟨engineStarts_off, fun hl => ⟨goods k hl, bads k hl⟩⟩
      · obtain ⟨fenced, due⟩ := tiles x hx hnd hsp hlt (checkerPasses_false hfail)
        refine ⟨?_, ?_⟩
        · rw [stateOf, getTile, began .tiles (by decide)]
          exact fenced
        · rw [show t.nvm = u.nvm from began .nvm (by decide)]
          exact due
    case fails =>
      intro hbad
      have noFree : ¬ (t.engines.any fun g => g.state == .free) = true := by
        rw [anyFree]
        rintro ⟨e, -, hfree⟩
        by_cases hl : e < licEng s
        · rw [bads e hl (hbad e hl)] at hfree
          cases hfree
        · rw [engineStarts_off (Nat.le_of_not_lt hl)] at hfree
          cases hfree
      rw [if_neg noFree] at run
      obtain ⟨failed, cause, fault, -⟩ := bringFail_fails (s := t) bfNoengine (by rw [step]; decide)
      exact ⟨_, run, failed, cause, fault⟩
  case place2 =>
    refine congrArg Host.Outcome.next (if_pos ?_)
    rcases h with h | h | ⟨hs, hw⟩
    · exact .inl h
    · exact .inr (.inl h)
    · refine .inr (.inr ?_)
      have still : (clocksOn s net).thermal.swept = false := by
        unfold clocksOn
        rw [hs]
        exact hw
      rw [still]
      rfl
  case place3 => exact congrArg Host.Outcome.next (if_pos h)

end Sys2Proof.Machine
end

section
/-! Folds over the Domes, and the groups of a seam edge (R362, R419). -/

set_option Elab.async false

namespace Sys2Proof.Machine

/-! ### Folds over the Domes -/

/-- A fold whose step for `k` leaves what `g` shows of every other `j`, and keeps `I`: what it makes of a `j` in the list. -/
theorem foldl_nodup {α : Type} {f : State → Nat → State} {g : State → Nat → α} {I : State → Prop} (other : ∀ v k j, j ≠ k → g (f v k) j = g v j)
    (keep : ∀ v k, I v → I (f v k)) {l : List Nat} (hnd : l.Nodup) {s : State} (hs : I s) {j : Nat} (hj : j ∈ l) :
    ∃ v, I v ∧ g v j = g s j ∧ g (l.foldl f s) j = g (f v j) j := by
  induction l generalizing s with
  | nil => cases hj
  | cons k l ih =>
    obtain ⟨hk, hl⟩ := List.nodup_cons.1 hnd
    by_cases e : j = k
    · subst e
      refine ⟨s, hs, rfl, ?_⟩
      have rest (l : List Nat) (hl : j ∉ l) (v : State) : g (l.foldl f v) j = g v j := by
        induction l generalizing v with
        | nil => rfl
        | cons a l ih =>
          exact (ih (fun h => hl (List.mem_cons_of_mem _ h)) _).trans (other v a j fun h => hl (h ▸ List.mem_cons_self))
      exact rest l hk _
    · obtain ⟨v, hv, before, after⟩ := ih hl (keep s k hs) ((List.mem_cons.1 hj).resolve_left e)
      exact ⟨v, hv, before.trans (other s k j e), after⟩

theorem getDome_of_mem {s : State} {d : Dome} (h : d ∈ s.domes) (hnd : (s.domes.map (·.ix)).Nodup) : getDome s d.ix = some d := by
  unfold getDome
  generalize s.domes = l at h hnd
  induction l with
  | nil => cases h
  | cons a l ih =>
    obtain ⟨ha, hl⟩ := List.nodup_cons.1 hnd
    rw [List.find?_cons]
    rcases List.mem_cons.1 h with rfl | h
    · rw [beq_self_eq_true]
    · have hne : (a.ix == d.ix) = false := beq_eq_false_iff_ne.2 fun e => ha (List.mem_map.2 ⟨d, h, e.symm⟩)
      rw [hne]
      exact ih h hl

/-! ### Seam qualification (R362, R419) -/

/-- R362: the groups of a direction that work, each judged by the dwell that settles it. -/
def groupsWork (retries n : Nat) (gs : List (List (List (Nat × Nat)))) : List Bool := (groupReport retries n gs).map fun g => groupWorks (wiresOf g)

theorem groupsWork_length (retries n : Nat) (gs : List (List (List (Nat × Nat)))) : (groupsWork retries n gs).length = n := by
  rw [groupsWork, List.length_map, groupReport, List.length_map, List.length_range]

/-- R419: the dwell that settles a group works where one of its dwells does, or it has none. -/
theorem groupWorks_settled (retries : Nat) (dwells : List (List (Nat × Nat))) : groupWorks (wiresOf (settled retries dwells)) =
    ((dwells.take (retries + 1)).isEmpty || (dwells.take (retries + 1)).any fun d => groupWorks (d.map (·.1))) := by
  unfold settled
  dsimp only
  generalize dwells.take (retries + 1) = ds
  cases hf : ds.find? fun d => groupWorks (d.map (·.1)) with
  | some d =>
    have works : (ds.any fun d => groupWorks (d.map (·.1))) = true := List.any_eq_true.2 ⟨d, List.mem_of_find?_eq_some hf, (List.find?_some hf :)⟩
    rw [works, Bool.or_true]
    exact (List.find?_some hf :)
  | none =>
    have fails : (ds.any fun d => groupWorks (d.map (·.1))) = false := List.any_eq_false.2 fun d hd => List.find?_eq_none.1 hf d hd
    rw [fails, Bool.or_false, Option.none_or]
    cases hl : ds.getLast? with
    | none =>
      rw [List.getLast?_eq_none_iff.1 hl]
      decide
    | some d =>
      have hin := List.mem_of_getLast? hl
      have hne : ds.isEmpty = false := List.isEmpty_eq_false_iff.2 (List.ne_nil_of_mem hin)
      rw [hne]
      exact Bool.eq_false_iff.2 (List.find?_eq_none.1 hf d hin)

theorem groupsWork_getD {retries n : Nat} (gs : List (List (List (Nat × Nat)))) {g : Nat} (hg : g < n) : (groupsWork retries n gs).getD g false =
    (((gs.getD g []).take (retries + 1)).isEmpty || ((gs.getD g []).take (retries + 1)).any fun d => groupWorks (d.map (·.1))) := by
  rw [← groupWorks_settled, List.getD_eq_getElem?_getD, groupsWork, groupReport, List.map_map, List.getElem?_map, List.getElem?_range hg]
  rfl

/-- What an edge's qualification sets in the Dome below it. -/
def edgeSettled (retries up dn : Nat) (ups dns : List (List (List (Nat × Nat)))) (x : Dome) : Dome :=
  { x with
    groupsUp := groupsWork retries up ups, groupsDn := groupsWork retries dn dns
    spareMap := sparesIn true ((groupReport retries up ups).map wiresOf) ++ sparesIn false ((groupReport retries dn dns).map wiresOf) }

section
variable (edges : List SeamEdge) (s : State) (k : Nat)

/-- The dwells that the reports give for the edge above a Dome. -/
def dwellsUp : List (List (List (Nat × Nat))) := ((edges.find? fun e => e.dome == k).map (·.up)).getD []
def dwellsDn : List (List (List (Nat × Nat))) := ((edges.find? fun e => e.dome == k).map (·.down)).getD []

/-- The Dome below an edge, qualified. -/
def edgeDome : State := updDome s k (edgeSettled (bringRetry s) (upGroups s k) (dnGroups s k) (dwellsUp edges k) (dwellsDn edges k))

theorem seamEdge_eq : Same [.alert, .cistern, .parts, .caravan, .records, .early, .near] (edgeDome edges s k) (seamEdge edges s k) :=
  (seamSide_keeps _ _ (seamSide_keeps _ _ (Keeps.rfl_ _ (edgeDome edges s k)) (List.Subset.refl _)) (List.Subset.refl _)).same

theorem edgeDome_same : Same [.domes] s (edgeDome edges s k) := (updDome_keeps k _ (Keeps.rfl_ _ s) (List.Subset.refl _)).same

theorem edgeDome_ixs : (edgeDome edges s k).domes.map (·.ix) = s.domes.map (·.ix) := by
  refine (List.map_map (l := s.domes)).trans (List.map_congr_left fun d _ => ?_)
  rw [Function.comp_apply]
  split <;> rfl

theorem seamEdge_getDome : getDome (seamEdge edges s k) k =
    (getDome s k).map (edgeSettled (bringRetry s) (upGroups s k) (dnGroups s k) (dwellsUp edges k) (dwellsDn edges k)) := by
  rw [getDome, seamEdge_eq edges s k .domes (by decide)]
  exact getDome_updDome s k (edgeSettled _ _ _ _ _) fun _ => rfl

theorem seamEdge_getDome_other {j : Nat} (h : j ≠ k) : getDome (seamEdge edges s k) j = getDome s j := by
  rw [getDome, seamEdge_eq edges s k .domes (by decide)]
  exact getDome_updDome_ne s (edgeSettled _ _ _ _ _) (fun _ => rfl) h

/-- What decides how many groups an edge has. -/
theorem seamEdge_leaves : (seamEdge edges s k).image = s.image ∧ (seamEdge edges s k).domes.map (·.ix) = s.domes.map (·.ix) := by
  have same := seamEdge_eq edges s k
  refine ⟨same.image_eq.trans (edgeDome_same edges s k).image_eq, ?_⟩
  rw [same .domes (by decide)]
  exact edgeDome_ixs edges s k

end

/-- How many groups an edge has follows from the image and the Domes there are. -/
structure SameEdges (s v : State) : Prop where
  image : v.image = s.image
  ixs : v.domes.map (·.ix) = s.domes.map (·.ix)

section
variable {s v : State}

theorem SameEdges.atOrBelow (h : SameEdges s v) (d n x : Nat) : atOrBelow v d n x = atOrBelow s d n x := by
  induction n generalizing x with
  | zero => rfl
  | succ n ih =>
    rw [Machine.atOrBelow, Machine.atOrBelow, domeCfg, domeCfg, h.image]
    simp only [ih]

theorem SameEdges.domesBelow (h : SameEdges s v) (d : Nat) : domesBelow v d = domesBelow s d := by
  rw [Machine.domesBelow, Machine.domesBelow, h.ixs]
  exact List.filter_congr fun x _ => h.atOrBelow d 64 x

theorem SameEdges.groups (h : SameEdges s v) (d : Nat) : upGroups v d = upGroups s d ∧ dnGroups v d = dnGroups s d := by
  rw [upGroups, upGroups, dnGroups, dnGroups, h.domesBelow]
  exact ⟨rfl, rfl⟩

theorem SameEdges.bringRetry (h : SameEdges s v) : bringRetry v = bringRetry s := by rw [Machine.bringRetry, Machine.bringRetry, h.image]

end

/-- Every edge's groups, qualified. -/
def seamsSettled (edges : List SeamEdge) (s : State) : State :=
  { (s.domes.map (·.ix)).foldl (seamEdge edges) s with boot := { ((s.domes.map (·.ix)).foldl (seamEdge edges) s).boot with seams := true } }

theorem seamsSettled_getDome (edges : List SeamEdge) {s : State} {d : Dome} (hd : d ∈ s.domes) (hnd : (s.domes.map (·.ix)).Nodup) :
    getDome (seamsSettled edges s) d.ix =
      some (edgeSettled (bringRetry s) (upGroups s d.ix) (dnGroups s d.ix) (dwellsUp edges d.ix) (dwellsDn edges d.ix) d) := by
  obtain ⟨v, same, before, after⟩ := foldl_nodup (f := seamEdge edges) (g := getDome) (I := SameEdges s) (fun v k j => seamEdge_getDome_other edges v k)
    (fun v k h => ⟨(seamEdge_leaves edges v k).1.trans h.image, (seamEdge_leaves edges v k).2.trans h.ixs⟩) hnd (s := s) ⟨rfl, rfl⟩ (List.mem_map_of_mem hd)
  refine after.trans ?_
  rw [seamEdge_getDome, before, same.bringRetry, (same.groups d.ix).1, (same.groups d.ix).2, getDome_of_mem hd hnd]
  rfl

theorem foldl_seamEdge_same (edges : List SeamEdge) (l : List Nat) (s : State) :
    Same [.alert, .cistern, .parts, .domes, .caravan, .records, .early, .near] s (l.foldl (seamEdge edges) s) :=
  (keeps_foldl (fun _ _ h => seamEdge_keeps edges _ h (List.Subset.refl _)) (Keeps.rfl_ _ s)).same

theorem seamsSettled_effect (edges : List SeamEdge) (s : State) :
    (seamsSettled edges s).boot = { s.boot with seams := true } ∧ (seamsSettled edges s).cistern.data = s.cistern.data := by
  have same := foldl_seamEdge_same edges (s.domes.map (·.ix)) s
  unfold seamsSettled
  generalize (s.domes.map (·.ix)).foldl (seamEdge edges) s = v at same ⊢
  exact ⟨by rw [show v.boot = s.boot from same .boot (by decide)], same.bytes_eq.1⟩

/-- A mandatory port is not licensed (R424). -/
def unlicensed (s : State) : Bool := (List.range banPorts).any fun q => mandatory s q && !portEnabled s q

theorem exec_seamQualification (edges : List SeamEdge) {s : State} (hstep : s.boot.step = 4) (hseams : s.boot.seams = false) :
    exec (.seamQualification edges) s = .next (if (seamsSettled edges s).domes.any fun d => !edgeUp d then bringFail (seamsSettled edges s) bfSeam
      else if unlicensed (seamsSettled edges s) then bringFail (seamsSettled edges s) bfUnlicensed
      else { seamsSettled edges s with ports := (seamsSettled edges s).ports.zipIdx.map fun p => { p.1 with waiting := portEnabled (seamsSettled edges s) p.2 } }) := by
  have go : ¬ (s.boot.step ≠ 4 ∨ s.boot.seams = true) := by rw [hstep, hseams]; decide
  exact congrArg Host.Outcome.next (if_neg go)

theorem bringFail_domes {s : State} (cause : Nat) (h : s.boot.step ≠ 7) : (bringFail s cause).domes = s.domes.map fun d => { d with released := false } := by
  rw [bringFail, if_neg h]
  exact driveLevel_same _ .domes (by decide)

theorem any_edgeDown_iff (l : List Dome) : (l.any fun d => !edgeUp d) = true ↔ ∃ x ∈ l, edgeUp x = false := by
  simp only [List.any_eq_true, Bool.not_eq_true']

end Sys2Proof.Machine
end

section
/-! Step 4 of bring-up: the seams, and what an operation on one Banen port leaves (R298, R362, R420). -/

set_option Elab.async false

namespace Sys2Proof.Machine

/-! ### Step 4: the seams (R362, R419, R424) -/

theorem getDome_bringFail {s : State} (cause : Nat) (h : s.boot.step ≠ 7) (j : Nat) :
    getDome (bringFail s cause) j = (getDome s j).map fun d => { d with released := false } := by
  rw [getDome, bringFail_domes cause h, List.find?_map]
  rfl

theorem bringFail_edges {s : State} (cause : Nat) (h : s.boot.step ≠ 7) :
    (∃ x ∈ (bringFail s cause).domes, edgeUp x = false) ↔ ∃ x ∈ s.domes, edgeUp x = false := by
  rw [bringFail_domes cause h]
  constructor
  · rintro ⟨x, hx, hdown⟩
    obtain ⟨y, hy, rfl⟩ := List.mem_map.1 hx
    exact ⟨y, hy, hdown⟩
  · rintro ⟨x, hx, hdown⟩
    exact ⟨_, List.mem_map_of_mem hx, hdown⟩

theorem bringFail_data {s : State} (cause : Nat) (h : s.boot.step ≠ 7) : (bringFail s cause).cistern.data = s.cistern.data := (bringFail_fails cause h).2.2.2.2.2.2

/-- R362, R419, R424: the report of seam qualification in step 4. -/
theorem seamQualification_effect (edges : List SeamEdge) {s : State} {d : Dome} (hstep : s.boot.step = 4) (hseams : s.boot.seams = false) (hd : d ∈ s.domes)
    (hnd : (s.domes.map (·.ix)).Nodup) :
    ∃ t d', exec (.seamQualification edges) s = .next t ∧ t.boot.seams = true ∧ getDome t d.ix = some d' ∧
      d'.groupsUp = groupsWork (bringRetry s) (upGroups s d.ix) (dwellsUp edges d.ix) ∧
      d'.groupsDn = groupsWork (bringRetry s) (dnGroups s d.ix) (dwellsDn edges d.ix) ∧
      ((∃ x ∈ t.domes, edgeUp x = false) ↔ t.boot.step = 7 ∧ t.boot.fail = 6) ∧
      (t.boot.step = 4 ∨ (t.boot.step = 7 ∧ t.keep.fault = true ∧ (t.boot.fail = 6 ∨ t.boot.fail = 8))) ∧ t.cistern.data = s.cistern.data := by
  have run := exec_seamQualification edges hstep hseams
  have dome := seamsSettled_getDome edges hd hnd
  obtain ⟨boot, data⟩ := seamsSettled_effect edges s
  generalize seamsSettled edges s = u at run dome boot data
  have step : u.boot.step = 4 := (congrArg Boot.step boot).trans hstep
  have seams : u.boot.seams = true := congrArg Boot.seams boot
  have hne : u.boot.step ≠ 7 := by rw [step]; decide
  have failing (cause : Nat) : (bringFail u cause).boot.seams = true :=
    (congrArg Boot.seams (bringFail_effect cause hne).1).trans seams
  have found (cause : Nat) := (getDome_bringFail cause hne d.ix).trans (congrArg (Option.map _) dome)
  have edge := any_edgeDown_iff u.domes
  split at run
  · next hdown =>
    obtain ⟨f1, f2, f3, -⟩ := bringFail_fails bfSeam hne
    exact ⟨_, _, run, failing _, found bfSeam, rfl, rfl, ⟨fun _ => ⟨f1, f2⟩, fun _ => (bringFail_edges bfSeam hne).2 (edge.1 hdown)⟩, .inr ⟨f1, f3, .inl f2⟩, (bringFail_data bfSeam hne).trans data⟩
  · next hup =>
    have up : ¬ ∃ x ∈ u.domes, edgeUp x = false := fun h => hup (edge.2 h)
    split at run
    · obtain ⟨f1, f2, f3, -⟩ := bringFail_fails bfUnlicensed hne
      refine ⟨_, _, run, failing _, found bfUnlicensed, rfl, rfl, ⟨fun h => absurd ((bringFail_edges bfUnlicensed hne).1 h) up, fun h => ?_⟩,
        .inr ⟨f1, f3, .inr f2⟩, (bringFail_data bfUnlicensed hne).trans data⟩
      exact absurd (f2.symm.trans h.2) (by decide)
    · exact ⟨_, _, run, seams, dome, rfl, rfl, ⟨fun h => absurd h up, fun h => absurd (step.symm.trans h.1) (by decide)⟩, .inl step, data⟩

/-! ### Step 4: the Banen ports (R298, R420) -/

section
variable (s : State)

theorem linkq_same (link ver outcome : Nat) (errors eyes : List Nat) :
    Same [.alert, .cistern, .parts, .records, .early, .near] s (linkq s link ver outcome errors eyes) :=
  (linkq_keeps link ver outcome errors eyes (Keeps.rfl_ _ s) (List.Subset.refl _)).same

theorem getPort_of_same {s t : State} {l : List Fld} (h : Same l s t) (j : Nat) (hl : .ports ∉ l := by decide) : getPort t j = getPort s j := by
  rw [getPort, getPort, h .ports hl]

/-- A port changed, and a record of it. -/
def portLogged (q : Nat) (f : Port → Port) (ver outcome : Nat) (errors eyes : List Nat) : State := linkq (updPort s q f) (0x10000 + q) ver outcome errors eyes

/-- What an operation on one port leaves. -/
structure PortOnly (q : Nat) (s t : State) : Prop where
  other : ∀ j, j ≠ q → getPort t j = getPort s j
  tiles : t.tiles = s.tiles
  data : t.cistern.data = s.cistern.data

theorem portLogged_effect {q : Nat} (hq : q < s.ports.length) (f : Port → Port) (ver outcome : Nat) (errors eyes : List Nat) :
    getPort (portLogged s q f ver outcome errors eyes) q = f (getPort s q) ∧ PortOnly q s (portLogged s q f ver outcome errors eyes) := by
  have same := linkq_same (updPort s q f) (0x10000 + q) ver outcome errors eyes
  refine ⟨(getPort_of_same same q).trans (getPort_updPort s q f hq), fun j hj => (getPort_of_same same j).trans (getPort_updPort_ne s f hj), ?_, ?_⟩
  · exact same .tiles (by decide)
  · exact same.bytes_eq.1

theorem sendHello_eq (q : Nat) : ∃ body, body.length = 3 ∧
    sendHello s q = putFrame (updPort { s with rng := s.rng + 1 } q fun p => { p with nonce := (draw s).1 }) q 0x01 0 body := ⟨_, rfl, rfl⟩

theorem banFrame_take2 (q : Nat) (ftype : Byte) (seq : W16) (body : List W64) : (banFrame s q ftype seq body).take 2 = [ftype, BitVec.ofNat 8 body.length] := rfl

theorem countSent_same (q n : Nat) : Same [.big] s (countSent s q n) := (countSent_keeps q n (Keeps.rfl_ _ s) (List.Subset.refl _)).same

theorem putFrame_effect {q : Nat} (hq : q < s.ports.length) (ftype : Byte) (seq : W16) (body : List W64) :
    getPort (putFrame s q ftype seq body) q = { getPort s q with lastTx := banFrame s q ftype seq body } ∧ (∀ j, j ≠ q → getPort (putFrame s q ftype seq body) j = getPort s j) ∧
      Same [.ports, .big] s (putFrame s q ftype seq body) := by
  have same := countSent_same (updPort s q fun p => { p with lastTx := banFrame s q ftype seq body }) q body.length
  exact ⟨(getPort_of_same same q).trans (getPort_updPort s q _ hq), fun j hj => (getPort_of_same same j).trans (getPort_updPort_ne s _ hj),
    (putFrame_keeps q ftype seq body (Keeps.rfl_ _ s) (List.Subset.refl _)).same⟩

theorem sendHello_effect {q : Nat} (hq : q < s.ports.length) :
    ∃ l, getPort (sendHello s q) q = { getPort s q with nonce := (draw s).1, lastTx := l } ∧ l.take 2 = [0x01, 3] ∧ (sendHello s q).rng = s.rng + 1 ∧
      PortOnly q s (sendHello s q) := by
  obtain ⟨body, hlen, e⟩ := sendHello_eq s q
  generalize hu : updPort { s with rng := s.rng + 1 } q (fun p => { p with nonce := (draw s).1 }) = u at e
  have len : q < u.ports.length := by rw [← hu]; exact (length_updAt _ _ _).symm ▸ hq
  have own : getPort u q = { getPort s q with nonce := (draw s).1 } := by rw [← hu]; exact getPort_updPort { s with rng := s.rng + 1 } q _ hq
  have others (j : Nat) (hj : j ≠ q) : getPort u j = getPort s j := by rw [← hu]; exact getPort_updPort_ne { s with rng := s.rng + 1 } _ hj
  have rest : u.rng = s.rng + 1 ∧ u.tiles = s.tiles ∧ u.cistern = s.cistern := by rw [← hu]; exact ⟨rfl, rfl, rfl⟩
  obtain ⟨put, other, same⟩ := putFrame_effect u len 0x01 0 body
  rw [e]
  refine ⟨banFrame u q 0x01 0 body, by rw [put, own], ?_, (same .rng (by decide)).trans rest.1, fun j hj => (other j hj).trans (others j hj),
    (same .tiles (by decide)).trans rest.2.1, same.bytes_eq.1.trans (by rw [rest.2.2])⟩
  rw [banFrame_take2, hlen]
  rfl

end

end Sys2Proof.Machine
end

section
/-! Step 4 of bring-up: the attempts of a Banen port (R420, R424). -/

set_option Elab.async false

namespace Sys2Proof.Machine

/-! ### Attempts of a Banen port (R298, R420, R424) -/

theorem PortOnly.trans {q : Nat} {s t u : State} (h : PortOnly q s t) (g : PortOnly q t u) : PortOnly q s u :=
  ⟨fun j hj => (g.other j hj).trans (h.other j hj), g.tiles.trans h.tiles, g.data.trans h.data⟩

section
variable {s : State} {q : BanQual} (hmay : mayQualify s q.port = true) (hver : q.version = nextVer s q.port)

theorem mayQualify_step {q : Nat} (h : mayQualify s q = true) : s.boot.step ≠ 7 := by
  simp only [mayQualify, Bool.and_eq_true, decide_eq_true_eq] at h
  omega

include hmay hver

theorem attempt_counts : ¬ ((!mayQualify s q.port) = true ∨ q.version ≠ nextVer s q.port) := by
  rintro (h | h)
  · rw [hmay] at h
    cases h
  · exact h hver

theorem exec_attempt_noPeer (hpeer : q.peer = false) :
    exec (.banenQualification q) s = .next (portLogged s q.port (fun p => { p with waiting := true }) q.version 2 q.errors q.eyes) :=
  congrArg Host.Outcome.next ((if_neg (attempt_counts hmay hver)).trans (if_pos (by rw [hpeer]; rfl)))

theorem exec_attempt_passes (hpeer : q.peer = true) (hpass : qualPasses q = true) (hhello : q.hello = none) :
    exec (.banenQualification q) s =
      .next (sendHello (portLogged s q.port (fun p => { p with quals := 0, qver := q.version, waiting := false }) q.version 0 q.errors q.eyes) q.port) := by
  refine congrArg Host.Outcome.next ((if_neg (attempt_counts hmay hver)).trans ((if_neg (by rw [hpeer]; exact Bool.false_ne_true)).trans ((if_pos hpass).trans ?_)))
  rw [hhello]
  rfl

theorem exec_attempt_fails (hpeer : q.peer = true) (hpass : qualPasses q = false) (hfew : (getPort s q.port).quals + 1 ≤ bringRetry s) :
    exec (.banenQualification q) s = .next (portLogged s q.port (fun p => { p with quals := (getPort s q.port).quals + 1, cand := q.version }) q.version 1 q.errors q.eyes) := by
  have few : ¬ bringRetry s < (getPort s q.port).quals + 1 := Nat.not_lt_of_le hfew
  refine congrArg Host.Outcome.next ((if_neg (attempt_counts hmay hver)).trans ((if_neg (by rw [hpeer]; exact Bool.false_ne_true)).trans
    ((if_neg (by rw [hpass]; exact Bool.false_ne_true)).trans ?_)))
  refine (if_neg fun h => few h.1).trans ?_
  unfold portLogged
  congr 2
  funext p
  simp only [gt_iff_lt, decide_eq_false few, Bool.false_and, Bool.not_false, Bool.and_true, Bool.false_eq_true, if_false]

/-- What the last attempt at a version makes of its port. -/
def spentPort (s : State) (q : BanQual) (p : Port) : Port :=
  { p with quals := 0, cand := max (minVer s q.port) (q.version - 1), waiting := p.waiting && !decide (q.version ≤ minVer s q.port) }

theorem exec_attempt_spent (hpeer : q.peer = true) (hpass : qualPasses q = false) (hmany : bringRetry s < (getPort s q.port).quals + 1) :
    exec (.banenQualification q) s = .next (if q.version ≤ minVer s q.port then portFailed (portLogged s q.port (spentPort s q) q.version 1 q.errors q.eyes) q.port
      else portLogged s q.port (spentPort s q) q.version 1 q.errors q.eyes) := by
  refine congrArg Host.Outcome.next ((if_neg (attempt_counts hmay hver)).trans ((if_neg (by rw [hpeer]; exact Bool.false_ne_true)).trans
    ((if_neg (by rw [hpass]; exact Bool.false_ne_true)).trans ?_)))
  have port : (fun p : Port => { p with
        quals := if decide ((getPort s q.port).quals + 1 > bringRetry s) then 0 else (getPort s q.port).quals + 1
        cand := if decide ((getPort s q.port).quals + 1 > bringRetry s) then max (minVer s q.port) (q.version - 1) else q.version
        waiting := p.waiting && !(decide ((getPort s q.port).quals + 1 > bringRetry s) && decide (q.version ≤ minVer s q.port)) }) = spentPort s q := by
    funext p
    simp only [gt_iff_lt, decide_eq_true hmany, Bool.true_and, if_true, spentPort]
  dsimp only
  rw [port]
  by_cases h : q.version ≤ minVer s q.port
  · rw [if_pos ⟨hmany, h⟩, if_pos h]
    rfl
  · rw [if_neg fun hx => h hx.2, if_neg h]
    rfl

end

/-- R424: before READY a mandatory port that cannot come up ends bring-up. -/
theorem portFailed_fails {s : State} {q : Nat} (hm : mandatory s q = true) (hr : s.boot.ready = false) (hs : s.boot.step ≠ 7) :
    (portFailed s q).boot.step = 7 ∧ (portFailed s q).boot.fail = 7 ∧ (portFailed s q).keep.fault = true := by
  have go : mandatory s q = true ∧ (!s.boot.ready) = true := ⟨hm, by rw [hr]; rfl⟩
  obtain ⟨f1, f2, f3, -⟩ := bringFail_fails bfBanen hs
  rw [portFailed, if_pos go]
  exact ⟨f1, f2, f3⟩

theorem getPort_portFailed (s : State) (q j : Nat) : getPort (portFailed s q) j = getPort s j :=
  getPort_of_same (portFailed_keeps q (Keeps.rfl_ _ s) (List.Subset.refl _)).same j

/-- Settles O54: the seams' report, and the attempts of a Banen port. -/
theorem linkQualification : Obligations.LinkQualification := by
  refine ⟨?seams, ?ports, ?wait, ?retry⟩
  case seams =>
    intro s edges d hstep hseams hd hnd e works
    obtain ⟨t, d', run, seams, dome, up, dn, edge, step, data⟩ := seamQualification_effect edges hstep hseams hd hnd
    refine ⟨t, d', run, seams, dome, fun g hg => ?_, ?_, fun g hg => ?_, ?_, edge, step, data⟩
    · rw [up]; exact groupsWork_getD _ hg
    · rw [up, groupsWork_length]
    · rw [dn]; exact groupsWork_getD _ hg
    · rw [dn, groupsWork_length]
  case ports =>
    intro s q hmay hver hq p at_
    have only {t : State} (h : PortOnly q.port s t) : at_ t := ⟨h.other, h.tiles, h.data⟩
    refine ⟨fun hpeer => ?_, fun hpeer hpass hhello => ?_, fun hpeer hpass hfew => ?_, fun hpeer hpass hmany hmin => ?_, fun hpeer hpass hmany hmin hmand hready hne => ?_⟩
    · obtain ⟨own, frame⟩ := portLogged_effect s hq (fun p => { p with waiting := true }) q.version 2 q.errors q.eyes
      exact ⟨_, exec_attempt_noPeer hmay hver hpeer, own, only frame⟩
    · have run := exec_attempt_passes hmay hver hpeer hpass hhello
      obtain ⟨own, frame⟩ := portLogged_effect s hq (fun p => { p with quals := 0, qver := q.version, waiting := false }) q.version 0 q.errors q.eyes
      have same := linkq_same (updPort s q.port fun p => { p with quals := 0, qver := q.version, waiting := false }) (0x10000 + q.port) q.version 0 q.errors q.eyes
      have len : q.port < (portLogged s q.port (fun p => { p with quals := 0, qver := q.version, waiting := false }) q.version 0 q.errors q.eyes).ports.length := by
        rw [portLogged, same .ports (by decide)]
        exact (length_updAt _ _ _).symm ▸ hq
      have rng : (portLogged s q.port (fun p => { p with quals := 0, qver := q.version, waiting := false }) q.version 0 q.errors q.eyes).rng = s.rng :=
        same .rng (by decide)
      generalize portLogged s q.port (fun p => { p with quals := 0, qver := q.version, waiting := false }) q.version 0 q.errors q.eyes = u at run own frame len rng
      obtain ⟨l, hello, first, drawn, sent⟩ := sendHello_effect u len
      refine ⟨_, run, ?_, ?_, by rw [drawn, rng], only (frame.trans sent)⟩
      · rw [hello, own, draw, draw, rng]
      · rw [hello]; exact first
    · obtain ⟨own, frame⟩ := portLogged_effect s hq (fun p => { p with quals := (getPort s q.port).quals + 1, cand := q.version }) q.version 1 q.errors q.eyes
      exact ⟨_, exec_attempt_fails hmay hver hpeer hpass hfew, own, only frame⟩
    · obtain ⟨own, frame⟩ := portLogged_effect s hq (spentPort s q) q.version 1 q.errors q.eyes
      have run := exec_attempt_spent hmay hver hpeer hpass hmany
      have above : ¬ q.version ≤ minVer s q.port := Nat.not_le_of_lt hmin
      rw [if_neg above] at run
      refine ⟨_, run, own.trans ?_, only frame⟩
      rw [spentPort, decide_eq_false above, Nat.max_eq_right (by omega), Bool.not_false, Bool.and_true]
    · have run := exec_attempt_spent hmay hver hpeer hpass hmany
      rw [if_pos (Nat.le_of_eq hmin)] at run
      have same := linkq_same (updPort s q.port (spentPort s q)) (0x10000 + q.port) q.version 1 q.errors q.eyes
      have boot : (portLogged s q.port (spentPort s q) q.version 1 q.errors q.eyes).boot = s.boot := same .boot (by decide)
      have image : (portLogged s q.port (spentPort s q) q.version 1 q.errors q.eyes).image = s.image := same.image_eq
      exact ⟨_, run, portFailed_fails (by rw [mandatory, image]; exact hmand) (by rw [boot]; exact hready) (by rw [boot]; exact hne)⟩
  case wait =>
    intro s q hmay hq hwait hready hne
    have go : ¬ ((!mayQualify s q) = true ∨ (!(getPort s q).waiting) = true ∨ s.boot.ready = true) := by rw [hmay, hwait, hready]; decide
    have run : exec (.banWait q) s = .next (portFailed (updPort s q fun p => { p with waiting := false }) q) := congrArg Host.Outcome.next (if_neg go)
    refine ⟨_, run, (getPort_portFailed _ q q).trans (getPort_updPort s q _ hq), fun hm => ?_, fun hm => ?_⟩
    · obtain ⟨f1, f2, -⟩ := portFailed_fails (s := updPort s q fun p => { p with waiting := false }) hm hready hne
      exact ⟨f1, f2⟩
    · have stays : portFailed (updPort s q fun p => { p with waiting := false }) q = updPort s q fun p => { p with waiting := false } :=
        if_neg fun h => Bool.false_ne_true (hm.symm.trans h.1)
      rw [stays]
      rfl
  case retry =>
    intro s q hmay hq hready hm
    have go : ¬ ((!mayQualify s q) = true ∨ (!s.boot.ready) = true ∨ mandatory s q = true) := by rw [hmay, hready, hm]; decide
    obtain ⟨own, frame⟩ := portLogged_effect s hq (fun p => { p with quals := 0, qver := 0, cand := 0, waiting := true }) (maxVer s q) 2 [] []
    exact ⟨_, congrArg Host.Outcome.next (if_neg go), own, frame.other, frame.tiles, frame.data⟩

end Sys2Proof.Machine
end

section
/-! What the end of an operation, and the reset of a tap, change in the Spires (R54, R72, R460, R478). -/

set_option Elab.async false

namespace Sys2Proof.Machine

/-! ### What the end of an operation changes in the Spires (R54, R72, R460, R478) -/

section
variable {i : Option Nat} {m : List SpFld} {s u : State}

theorem post_same (s : State) (p : Nat) (k : NoteKind) (sp : Nat) (pay : List W32) : Same [.parts, .near] s (post s p k sp pay) :=
  (post_keeps p k sp pay (Keeps.rfl_ _ s) (List.Subset.refl _)).same

theorem send_sp (h : SpKeeps i m s u) (x : Msg) (hj : Covers i (msgSpire x)) (hm : [.big, .witSent, .witGrants] ⊆ m) : SpKeeps i m s (send u x) := by
  have flown : SpKeeps i m s { u with caravan := { u.caravan with flight := u.caravan.flight ++ [x] } } := h.of_eq rfl
  have up := uplink_sp flown (msgSpire x) (msgBytes u x) hj (List.Subset.trans (by decide) hm)
  have injected : SpKeeps i m s (inject (uplink { u with caravan := { u.caravan with flight := u.caravan.flight ++ [x] } } (msgSpire x) (msgBytes u x)) (msgSpire x)) :=
    up.updSp (msgSpire x) _ [.witSent, .witGrants] (fun _ => rfl) hj (List.Subset.trans (by decide) hm)
  exact injected.of_eq rfl

theorem endDump_sp (h : SpKeeps i m s u) (j : Nat) (o : OpCtx) (hj : Covers i j) (hm : [.trc] ⊆ m) : SpKeeps i m s (endDump u j o) := by
  unfold endDump onSp
  split
  · exact h
  · split
    · dsimp only
      have ended := h.updSp j (fun sp => { sp with trc := { sp.trc with
        capture := false, dump := [], dumpOut := [], dumpScl := [], beats := [], sclBeats := [], dumpGaps := [], dumpLost := 0 } }) [.trc] (fun _ => rfl) hj hm
      split
      · exact ended.of_eq rfl
      · exact ended.of_eq (post_same _ _ _ _ _ .spires (by decide))
    · exact h

theorem countCycles_sp (h : SpKeeps i m s u) (j : Nat) (hj : Covers i j) (hm : [.big, .cycFrom] ⊆ m) : SpKeeps i m s (countCycles u j) := by
  unfold countCycles onSp
  split
  · dsimp only
    refine SpKeeps.updSp ?_ j _ [.cycFrom] (fun _ => rfl) hj (List.Subset.trans (by decide) hm)
    split
    · exact addBigSp_sp h j 5 _ hj (List.Subset.trans (by decide) hm)
    · exact addBigSp_sp (addBigSp_sp h j 5 _ hj (List.Subset.trans (by decide) hm)) j 4 _ hj (List.Subset.trans (by decide) hm)
  · exact h

/-- The fields of a Spire that the early closure of an operation changes. -/
def closureFields : List SpFld := [.big, .witSent, .witGrants, .trc, .cycFrom, .ops, .injSlot, .pass]

theorem closeOpEarly_sp (h : SpKeeps i m s u) (j : Nat) (o : OpCtx) (c : Closure) (hj : Covers i j) (hm : closureFields ⊆ m) :
    SpKeeps i m s (closeOpEarly u j o c) := by
  unfold closeOpEarly
  have sent := h.foldl (f := fun s (k : Capture) => send s (.abandon j o.uid k.row (closureReplay c) true))
    (fun v k hv => send_sp hv _ hj (List.Subset.trans (by decide) hm)) (o.caps.filter fun k => !spared c k)
  refine SpKeeps.updSp ?_ j _ [.ops, .injSlot, .pass] (fun _ => rfl) hj (List.Subset.trans (by decide) hm)
  exact countCycles_sp (endDump_sp sent j o hj (List.Subset.trans (by decide) hm)) j hj (List.Subset.trans (by decide) hm)

theorem closeAll_sp (h : SpKeeps i m s u) (j : Nat) (c : Closure) (hj : Covers i j) (hm : closureFields ⊆ m) : SpKeeps i m s (closeAll u j c) := by
  unfold closeAll onSp
  split
  · exact h.foldl (fun v o hv => closeOpEarly_sp hv j o c hj hm) _
  · exact h

/-- The fields of a Spire that a reset of its tap changes. -/
def tapResetFields : List SpFld := closureFields ++ [.refused, .torn, .tornOps, .raw, .lv, .tap, .cnt]

/-- A Spire whose tap's streams are discarded and whose TT_RST_REQ is deasserted (R72). -/
def tapCleared (sp : Spire) : Spire :=
  { sp with
    pass := none, injSlot := none, refused := [], torn := [], tornOps := [], raw := [],
    lv := { sp.lv with rstReq := false, rstAck := true, ready := false }
    tap := { sp.tap with progBase := 0 } }

theorem tapReset_eq (s : State) (j : Nat) :
    tapReset s j = trace (updSp (closeAll s j .reset) j tapCleared) j 0x1B false false 0xFFFF 0xFFFF 0xFFFF 3 := rfl

theorem tapReset_sp (h : SpKeeps i m s u) (j : Nat) (hj : Covers i j) (hm : tapResetFields ⊆ m) : SpKeeps i m s (tapReset u j) := by
  have closed := closeAll_sp h j .reset hj (List.Subset.trans (by decide) hm)
  have cleared := closed.updSp j tapCleared [.pass, .injSlot, .refused, .torn, .tornOps, .raw, .lv, .tap] (fun _ => rfl) hj (List.Subset.trans (by decide) hm)
  rw [tapReset_eq]
  exact trace_sp cleared j _ _ _ _ _ _ _ hj (List.Subset.trans (by decide) hm)

theorem tapReset_same (s : State) (j : Nat) : Same [.parts, .spires, .caravan, .near, .trc] s (tapReset s j) :=
  (tapReset_keeps j (Keeps.rfl_ _ s) (List.Subset.refl _)).same

/-- What a Spire shows of its levels and its tap after a reset (R72). -/
theorem tapReset_own {j : Nat} {x : Spire} (h : getSp s j = some x) :
    ∃ y z, getSp (closeAll s j .reset) j = some z ∧ SpRel (some j) closureFields x z ∧ getSp (tapReset s j) j = some y ∧
      SpRel (some j) [.cnt, .trc] (tapCleared z) y := by
  obtain ⟨z, hz, rz⟩ := (closeAll_sp (SpKeeps.rfl_ s) j .reset (covers_own j) (List.Subset.refl _)).getSp_some h
  have cleared : getSp (updSp (closeAll s j .reset) j tapCleared) j = some (tapCleared z) :=
    (getSp_updSp (closeAll s j .reset) j tapCleared fun _ => rfl).trans (congrArg _ hz)
  obtain ⟨y, hy, ry⟩ := (trace_sp (SpKeeps.rfl_ (updSp (closeAll s j .reset) j tapCleared)) j 0x1B false false 0xFFFF 0xFFFF 0xFFFF 3 (covers_own j)
    (List.Subset.refl _)).getSp_some cleared
  exact ⟨y, z, hz, rz, hy, ry⟩

end

end Sys2Proof.Machine
end

section
/-! The release of a Dome (R398, R415); MIN_SVN and what a record leaves (R399, R413). -/

set_option Elab.async false

namespace Sys2Proof.Machine

/-! ### Step 5 of bring-up: the release of the Domes (R398, R415) -/

/-- The fields of a Spire that the release of its Dome changes. -/
def releaseFields : List SpFld := .viol :: tapResetFields

/-- The parts of the block that the release of a Spire in step 5 changes. -/
def releaseParts : List Fld := [.alert, .inputs, .cistern, .parts, .spires, .records, .early, .near, .caravan, .trc]

theorem resetMissed_late {s : State} (h5 : s.boot.step = 5) (j : Nat) : resetMissed s j = tileInput (tapViol s .tapviol j none 0x51 0 0) 0x14 j 0x51 :=
  if_neg (by rw [h5]; decide)

theorem releaseSpire_cases (s : State) (t : Tile) : releaseSpire s t = s ∨
    releaseSpire s t = tapReset s t.ix ∨ releaseSpire s t = resetMissed s t.ix := by
  unfold releaseSpire onSp
  split
  · dsimp only
    split
    · exact .inl rfl
    · split
      · exact .inr (.inl rfl)
      · exact .inr (.inr rfl)
  · exact .inl rfl

theorem releaseSpire_same {s : State} (h5 : s.boot.step = 5) (t : Tile) : Same releaseParts s (releaseSpire s t) := by
  rcases releaseSpire_cases s t with e | e | e <;> rw [e]
  · exact Same.rfl_ _ s
  · exact (tapReset_same s t.ix).mono (by decide)
  · rw [resetMissed_late h5]
    exact ((tapViol_same s .tapviol t.ix none 0x51 0 0).mono (by decide)).trans ((tileInput_same _ 0x14 t.ix 0x51).mono (by decide))

theorem releaseSpire_sp {s : State} (h5 : s.boot.step = 5) (t : Tile) : SpKeeps (some t.ix) releaseFields s (releaseSpire s t) := by
  rcases releaseSpire_cases s t with e | e | e <;> rw [e]
  · exact SpKeeps.rfl_ s
  · exact tapReset_sp (SpKeeps.rfl_ s) t.ix (covers_own _) (by decide)
  · rw [resetMissed_late h5]
    exact (tapViol_sp (SpKeeps.rfl_ s) .tapviol t.ix none 0x51 0 0 (covers_own _) (by decide)).of_same (tileInput_same _ 0x14 t.ix 0x51)

/-- R398: a tile that holds its reset acknowledge comes out of reset. -/
theorem releaseSpire_own {s : State} {t : Tile} {sp : Spire} (h : getSp s t.ix = some sp) (hd : t.state ≠ stDead) (hr : t.state ≠ stRetired) (hl : t.lost = false)
    (ha : sp.lv.rstAck = true) : ∃ y, getSp (releaseSpire s t) t.ix = some y ∧ y.lv.rstReq = false ∧ y.lv.rstAck = true := by
  have run : releaseSpire s t = tapReset s t.ix := by
    unfold releaseSpire onSp
    rw [h]
    dsimp only
    rw [if_neg (not_or.2 ⟨hd, hr⟩), ha, hl]
    rfl
  obtain ⟨y, z, -, -, hy, r⟩ := tapReset_own h
  rw [run]
  have lv : y.lv = (tapCleared z).lv := r.same .lv (by decide)
  exact ⟨y, hy, by rw [lv]; rfl, by rw [lv]; rfl⟩

section
variable {s : State} (h5 : s.boot.step = 5)
include h5

theorem releaseSpire_step (t : Tile) : (releaseSpire s t).boot.step = 5 := (congrArg Boot.step (releaseSpire_same h5 t .boot (by decide))).trans h5

theorem foldl_releaseSpire_same (l : List Tile) : Same releaseParts s (l.foldl releaseSpire s) := by
  induction l generalizing s with
  | nil => exact Same.rfl_ _ s
  | cons t l ih => exact (releaseSpire_same h5 t).trans (ih (releaseSpire_step h5 t))

theorem foldl_releaseSpire_other {j : Nat} {l : List Tile} (hj : j ∉ l.map (·.ix)) : getSp (l.foldl releaseSpire s) j = getSp s j := by
  induction l generalizing s with
  | nil => rfl
  | cons t l ih =>
    rw [List.map_cons, List.mem_cons, not_or] at hj
    exact (ih (releaseSpire_step h5 t) hj.2).trans ((releaseSpire_sp h5 t).getSp_other hj.1)

theorem foldl_releaseSpire_own {x : Tile} {sp : Spire} {l : List Tile} (hx : x ∈ l) (hnd : (l.map (·.ix)).Nodup) (h : getSp s x.ix = some sp) (hd : x.state ≠ stDead)
    (hr : x.state ≠ stRetired) (hl : x.lost = false) (ha : sp.lv.rstAck = true) :
    ∃ y, getSp (l.foldl releaseSpire s) x.ix = some y ∧ y.lv.rstReq = false ∧ y.lv.rstAck = true := by
  induction l generalizing s with
  | nil => cases hx
  | cons t l ih =>
    obtain ⟨ht, hnd⟩ := List.nodup_cons.1 hnd
    rcases List.mem_cons.1 hx with rfl | hx
    · obtain ⟨y, hy, h1, h2⟩ := releaseSpire_own h hd hr hl ha
      exact ⟨y, (foldl_releaseSpire_other (releaseSpire_step h5 x) ht).trans hy, h1, h2⟩
    · have hne : x.ix ≠ t.ix := fun e => ht (List.mem_map.2 ⟨x, hx, e⟩)
      exact ih (releaseSpire_step h5 t) hx hnd (((releaseSpire_sp h5 t).getSp_other hne).trans h)

/-- What the release of a Dome leaves, and which Domes are released then. -/
theorem releaseDome_effect (d : Nat) : Same (.domes :: releaseParts) s (releaseDome s d) ∧
    (releaseDome s d).domes = s.domes.map (fun x => if x.ix = d then { x with released := true } else x) := by
  have rest := foldl_releaseSpire_same (s := updDome s d fun x => { x with released := true }) h5
    ((updDome s d fun x => { x with released := true }).tiles.filter fun t => t.ix / 256 == d)
  exact ⟨((updDome_keeps d _ (Keeps.rfl_ [.domes] s) (List.Subset.refl _)).same.mono (by decide)).trans (rest.mono (by decide)), rest .domes (by decide)⟩

theorem foldl_releaseDome (l : List Nat) (done : List Nat) (hdone : ∀ d ∈ s.domes, d.ix ∈ done → d.released = true) :
    Same (.domes :: releaseParts) s (l.foldl releaseDome s) ∧ ∀ d ∈ (l.foldl releaseDome s).domes, d.ix ∈ done ++ l → d.released = true := by
  induction l generalizing s done with
  | nil => exact ⟨Same.rfl_ _ s, fun d hd h => hdone d hd (by rwa [List.append_nil] at h)⟩
  | cons k l ih =>
    obtain ⟨same, domes⟩ := releaseDome_effect h5 k
    have released : ∀ d ∈ (releaseDome s k).domes, d.ix ∈ done ++ [k] → d.released = true := by
      intro d hd hin
      rw [domes] at hd
      obtain ⟨x, hx, rfl⟩ := List.mem_map.1 hd
      by_cases e : x.ix = k
      · rw [if_pos e]
      · rw [if_neg e] at hin ⊢
        rcases List.mem_append.1 hin with h | h
        · exact hdone x hx h
        · exact absurd (List.mem_singleton.1 h) e
    obtain ⟨rest, all⟩ := ih ((congrArg Boot.step (same .boot (by decide))).trans h5) (done ++ [k]) released
    rw [List.append_assoc] at all
    exact ⟨same.trans rest, all⟩

end

/-! ### READY (R278, R399, R413, R421) -/

theorem filter_range_length (n : Nat) (p : Nat → Bool) : ((List.range n).filter p).length = ((Finset.range n).filter fun i => p i = true).card := by
  rw [List.filter_congr (q := fun i => decide (p i = true)) fun i _ => Bool.decide_eq_true.symm]
  rfl

theorem getLsbD_pow {w i : Nat} (hi : i < w) (k : Nat) : (BitVec.ofNat w (2 ^ i)).getLsbD k = decide (k = i) := by
  rw [BitVec.getLsbD_ofNat, Nat.testBit_two_pow]
  by_cases e : k = i
  · subst e
    simp [hi]
  · simp [e, Ne.symm e]

theorem minSvn_eq_card (f : FuseArray) : minSvn f = ((Finset.range 64).filter fun i => bitOf f.minSvn i = true).card := filter_range_length 64 _

theorem bitOf_or_pow (x : W64) {i : Nat} (hi : i < 64) (k : Nat) : bitOf (x ||| BitVec.ofNat 64 (2 ^ i)) k = (bitOf x k || decide (k = i)) := by
  rw [bitOf, bitOf, BitVec.getLsbD_or, getLsbD_pow hi]

/-- A bit that is blown beside those that are. -/
def svnBit (f : FuseArray) (i : Nat) : FuseArray := { f with minSvn := f.minSvn ||| BitVec.ofNat 64 (2 ^ i) }

theorem minSvn_svnBit (f : FuseArray) {i : Nat} (hi : i < 64) : minSvn (svnBit f i) = if bitOf f.minSvn i then minSvn f else minSvn f + 1 := by
  have bits : ((Finset.range 64).filter fun k => bitOf (svnBit f i).minSvn k = true) = insert i ((Finset.range 64).filter fun k => bitOf f.minSvn k = true) := by
    ext k
    simp only [Finset.mem_filter, Finset.mem_range, Finset.mem_insert, svnBit, bitOf_or_pow f.minSvn hi, Bool.or_eq_true, decide_eq_true_eq]
    constructor
    · rintro ⟨hk, h | h⟩
      · exact .inr ⟨hk, h⟩
      · exact .inl h
    · rintro (rfl | ⟨hk, h⟩)
      · exact ⟨hi, .inr rfl⟩
      · exact ⟨hk, .inl h⟩
  rw [minSvn_eq_card, bits, minSvn_eq_card f]
  split
  · next h => rw [Finset.insert_eq_of_mem (Finset.mem_filter.2 ⟨Finset.mem_range.2 hi, h⟩)]
  · next h => exact Finset.card_insert_of_notMem fun hin => h (Finset.mem_filter.1 hin).2

/-- One step of R399's thermometer. -/
def svnStep (n : Nat) (f : FuseArray) (i : Nat) : FuseArray := if minSvn f < n then svnBit f i else f

theorem blowSvn_eq (n : Nat) (f : FuseArray) : blowSvn n f = (List.range 64).foldl (svnStep n) f := rfl

/-- What the thermometer holds once the first `k` bits are tried: no more than it had or was to have, and enough, or every bit of them. -/
structure SvnTo (n k : Nat) (f g : FuseArray) : Prop where
  least : minSvn f ≤ minSvn g
  most : minSvn g ≤ max (minSvn f) n
  full : n ≤ minSvn g ∨ ∀ i, i < k → bitOf g.minSvn i = true

theorem SvnTo.step {n k : Nat} {f g : FuseArray} (hk : k < 64) (h : SvnTo n k f g) : SvnTo n (k + 1) f (svnStep n g k) := by
  unfold svnStep
  split
  · next hlt =>
    have count := minSvn_svnBit g hk
    refine ⟨?_, ?_, ?_⟩
    · have := h.least
      rw [count]
      split <;> omega
    · have := h.most
      rw [count]
      split <;> omega
    · refine .inr fun i hi => ?_
      rw [svnBit, bitOf_or_pow g.minSvn hk]
      rcases Nat.lt_succ_iff_lt_or_eq.1 hi with hi | rfl
      · rw [h.full.resolve_left (Nat.not_le_of_lt hlt) i hi, Bool.true_or]
      · rw [decide_eq_true rfl, Bool.or_true]
  · next hge => exact ⟨h.least, h.most, .inl (Nat.le_of_not_lt hge)⟩

theorem foldl_svnStep (n : Nat) (f : FuseArray) {k : Nat} (hk : k ≤ 64) : SvnTo n k f ((List.range k).foldl (svnStep n) f) := by
  induction k with
  | zero => exact ⟨Nat.le_refl _, Nat.le_max_left _ _, .inr fun i hi => absurd hi (Nat.not_lt_zero i)⟩
  | succ k ih =>
    rw [List.range_succ, List.foldl_append]
    exact (ih (Nat.le_of_succ_le hk)).step hk

/-- R399: MIN_SVN up to a number that the thermometer holds. -/
theorem minSvn_blowSvn (n : Nat) (f : FuseArray) (hn : n ≤ 64) : minSvn (blowSvn n f) = max (minSvn f) n := by
  have whole := foldl_svnStep n f (Nat.le_refl 64)
  rw [← blowSvn_eq] at whole
  have enough : n ≤ minSvn (blowSvn n f) := by
    rcases whole.full with h | hall
    · exact h
    · refine Nat.le_trans hn (Nat.le_of_eq ?_)
      rw [minSvn_eq_card, Finset.filter_true_of_mem fun i hi => hall i (Finset.mem_range.1 hi), Finset.card_range]
  have least := whole.least
  have most := whole.most
  omega

theorem blowSvn_revoke (n : Nat) (f : FuseArray) : (blowSvn n f).ikeyRevoke = f.ikeyRevoke := by
  rw [blowSvn_eq]
  generalize List.range 64 = l
  induction l generalizing f with
  | nil => rfl
  | cons i l ih =>
    refine (ih _).trans ?_
    unfold svnStep
    split <;> rfl

/-- What the fuses are after READY (R413). -/
theorem blowFuses_effect (s : State) : FuseGrows s.fuses (blowFuses s).fuses ∧
    (bitOf s.imageFlags 0 = false → bitOf s.imageFlags 1 = false → (blowFuses s).fuses = s.fuses) ∧
    (bitOf s.imageFlags 0 = true → s.imageSvn ≤ 64 → minSvn (blowFuses s).fuses = max (minSvn s.fuses) s.imageSvn) ∧
    (blowFuses s).fuses.ikeyRevoke = (if bitOf s.imageFlags 1 = true then s.fuses.ikeyRevoke ||| BitVec.ofNat 2 (2 ^ (1 - s.imageKey)) else s.fuses.ikeyRevoke) := by
  refine ⟨(blowFuses_keeps (Keeps.rfl_ _ s) (List.Subset.refl _)).fuses.2, ?_, ?_, ?_⟩ <;> unfold blowFuses <;> dsimp only
  · intro h0 h1
    rw [h0, h1]
    rfl
  · intro h0 hn
    rw [h0, if_pos rfl]
    have svn := minSvn_blowSvn s.imageSvn s.fuses hn
    generalize blowSvn s.imageSvn s.fuses = f at svn ⊢
    split
    · exact svn
    · exact svn
  · have revoke : (if bitOf s.imageFlags 0 = true then blowSvn s.imageSvn s.fuses else s.fuses).ikeyRevoke = s.fuses.ikeyRevoke := by
      split
      · exact blowSvn_revoke _ _
      · rfl
    generalize (if bitOf s.imageFlags 0 = true then blowSvn s.imageSvn s.fuses else s.fuses) = f at revoke ⊢
    split
    · exact congrArg (· ||| _) revoke
    · exact revoke

theorem getPart_updPart_logs (s : State) (p k : Nat) (f : Part → Part) (hf : ∀ q, (f q).logs = q.logs) : (getPart (updPart s k f) p).logs = (getPart s p).logs := by
  by_cases e : p = k
  · subst e
    by_cases hp : p < s.parts.length
    · rw [getPart_updPart s p f hp, hf]
    · rw [getPart, getPart, List.getD_eq_default _ _ (by rw [show (updPart s p f).parts.length = s.parts.length from length_updAt _ _ _]; exact Nat.le_of_not_lt hp),
        List.getD_eq_default _ _ (Nat.le_of_not_lt hp)]
  · rw [getPart_updPart_ne s f e]

/-- A record leaves the logs of every partition, and what waits for the near port. -/
theorem addRec_logs (s : State) (r : Rec) (p : Nat) : (getPart (addRec s r) p).logs = (getPart s p).logs ∧ s.near.waiting ⊆ (addRec s r).near.waiting := by
  have used (v : State) (k n : Nat) : (getPart (addUse v k n) p).logs = (getPart v p).logs := getPart_updPart_logs v p k _ fun _ => rfl
  have refused (k : Nat) : (getPart (refuseQuota s k) p).logs = (getPart s p).logs := getPart_updPart_logs s p k _ fun _ => rfl
  unfold addRec
  split
  · exact ⟨rfl, List.Subset.refl _⟩
  · split
    · exact ⟨used s _ _, List.subset_append_left _ _⟩
    · dsimp only
      split
      · exact ⟨(used _ _ _).trans (refused _), List.subset_append_left _ _⟩
      · exact ⟨refused _, List.Subset.refl _⟩

end Sys2Proof.Machine
end

section
/-! Step 5 of bring-up and READY (R278, R413, R415, R421). -/

set_option Elab.async false

namespace Sys2Proof.Machine

/-! ### Step 5 of bring-up and READY -/

/-- The state in which READY's record is made: the queues and logs are empty (R278). -/
def readyQueues (s : State) : State := initQueues (stepBegins { s with boot := { s.boot with ready := true } } 6)

theorem readyQueues_logs (s : State) {p : Nat} (hp : p < s.parts.length) : (getPart (readyQueues s) p).logs.notes = Log.empty ∧
    (getPart (readyQueues s) p).logs.digests = Log.empty ∧ (getPart (readyQueues s) p).logs.meters = Log.empty ∧ (getPart (readyQueues s) p).logs.trace = Log.empty := by
  have part : getPart (readyQueues s) p = { getPart s p with logs := { (getPart s p).logs with notes := Log.empty, digests := Log.empty, meters := Log.empty, trace := Log.empty } } := by
    rw [getPart, getPart, List.getD_eq_getElem?_getD, List.getD_eq_getElem?_getD, List.getElem?_eq_getElem hp]
    refine (congrArg (·.getD Part.reset) (List.getElem?_map (l := s.parts))).trans ?_
    rw [List.getElem?_eq_getElem hp]
    rfl
  rw [part]
  exact ⟨rfl, rfl, rfl, rfl⟩

theorem readyQueues_head (s : State) {p l : Nat} (hp : p < 16) (hl : l < 4) : NearItem.head l p 0 ∈ (readyQueues s).near.waiting := by
  have heads : (readyQueues s).near.waiting = s.near.waiting ++ (List.range Config.parts).flatMap fun p => (List.range 4).map fun l => NearItem.head l p 0 := rfl
  rw [heads]
  exact List.mem_append_right _ (List.mem_flatMap.2 ⟨p, List.mem_range.2 hp, List.mem_map.2 ⟨l, List.mem_range.2 hl, rfl⟩⟩)

/-- The state at READY, before the alert of a fallback image. -/
def readyState (s : State) : State := blowFuses (addRec (readyQueues s) (bootRec (readyQueues s)))

theorem exec_ready {s : State} (h : readyNow s = true) :
    exec .ready s = .next (if s.boot.fallback = true ∨ s.boot.softLost = true then alert (readyState s) alImage else readyState s) :=
  congrArg Host.Outcome.next (if_neg (by rw [h]; exact Bool.false_ne_true))

/-- What READY leaves, whether or not its alert is set. -/
structure ReadyDone (s t : State) : Prop where
  boot : t.boot.step = 6 ∧ t.boot.ready = true
  fuses : t.fuses = (blowFuses s).fuses
  logs : ∀ p, p < s.parts.length → (getPart t p).logs.notes = Log.empty ∧ (getPart t p).logs.digests = Log.empty ∧ (getPart t p).logs.meters = Log.empty ∧
    (getPart t p).logs.trace = Log.empty
  heads : ∀ p l, p < 16 → l < 4 → NearItem.head l p 0 ∈ t.near.waiting
  tiles : t.tiles = s.tiles
  data : t.cistern.data = s.cistern.data

theorem readyState_done (s : State) : ReadyDone s (readyState s) := by
  have queues (p : Nat) (hp : p < s.parts.length) := readyQueues_logs s hp
  have heads (p l : Nat) (hp : p < 16) (hl : l < 4) := readyQueues_head s hp hl
  have boot : (readyQueues s).boot.step = 6 ∧ (readyQueues s).boot.ready = true := ⟨rfl, rfl⟩
  have rest : (readyQueues s).fuses = s.fuses ∧ (readyQueues s).imageFlags = s.imageFlags ∧ (readyQueues s).imageSvn = s.imageSvn ∧ (readyQueues s).imageKey = s.imageKey ∧
      (readyQueues s).tiles = s.tiles ∧ (readyQueues s).cistern = s.cistern := ⟨rfl, rfl, rfl, rfl, rfl, rfl⟩
  obtain ⟨fuses, flags, svn, key, tiles, cistern⟩ := rest
  unfold readyState
  generalize readyQueues s = v at queues heads boot fuses flags svn key tiles cistern ⊢
  have same := addRec_same v (bootRec v)
  have logs := addRec_logs v (bootRec v)
  generalize addRec v (bootRec v) = w at same logs ⊢
  have blown := (blowFuses_keeps (Keeps.rfl_ _ w) (List.Subset.refl _)).same
  have wboot : w.boot = v.boot := same .boot (by decide)
  have tboot : (blowFuses w).boot = w.boot := blown .boot (by decide)
  have tparts : (blowFuses w).parts = w.parts := blown .parts (by decide)
  refine ⟨by rw [tboot, wboot]; exact boot, ?_, fun p hp => ?_, fun p l hp hl => ?_, ?_, ?_⟩
  · unfold blowFuses
    rw [show w.fuses = v.fuses from same .fuses (by decide), same.imageFlags_eq, same.imageSvn_eq, same.imageKey_eq, fuses, flags, svn, key]
  · rw [getPart_of_parts tparts, (logs p).1]
    exact queues p hp
  · rw [show (blowFuses w).near = w.near from blown .near (by decide)]
    exact (logs p).2 (heads p l hp hl)
  · exact (blown .tiles (by decide)).trans ((same .tiles (by decide)).trans tiles)
  · exact blown.bytes_eq.1.trans (same.bytes_eq.1.trans (by rw [cistern]))

theorem ReadyDone.alert {s t : State} (h : ReadyDone s t) (b : Nat) : ReadyDone s (alert t b) := ⟨h.boot, h.fuses, h.logs, h.heads, h.tiles, h.data⟩

theorem exec_waveRelease {s : State} {sl : List Nat} {rest : List (List Nat)} (hstep : s.boot.step = 5) (hslots : s.boot.slots = sl :: rest)
    (hbegins : step5Begins s = false) : exec .waveRelease s = .next (sl.foldl releaseDome { s with boot := { s.boot with slots := rest } }) := by
  change execWaveRelease s = _
  unfold execWaveRelease
  rw [hbegins]
  dsimp only
  rw [if_neg Bool.false_ne_true, if_neg (not_not_intro hstep), hslots]

/-- The state in which step 5 begins. -/
def step5Start (s : State) : State :=
  stepBegins { s with boot := { s.boot with slots := ((s.image.map releaseSlots).getD []) }, belfry := { s.belfry with run := !s.keep.dieFault } } 5

theorem exec_waveRelease_first {s : State} {sl : List Nat} {rest : List (List Nat)} (hbegins : step5Begins s = true)
    (hslots : (s.image.map releaseSlots).getD [] = sl :: rest) :
    exec .waveRelease s = .next (sl.foldl releaseDome { step5Start s with boot := { (step5Start s).boot with slots := rest } }) := by
  change execWaveRelease s = _
  unfold execWaveRelease
  rw [hbegins]
  dsimp only
  rw [if_pos rfl]
  refine congrArg Host.Outcome.next ((if_neg (not_not_intro rfl)).trans ?_)
  dsimp only [stepBegins]
  rw [hslots]
  rfl

theorem getSp_of_nodup {s : State} {p : Spire} (h : p ∈ s.spires) (hnd : (s.spires.map (·.ix)).Nodup) : getSp s p.ix = some p := by
  unfold getSp
  generalize s.spires = l at h hnd
  induction l with
  | nil => cases h
  | cons a l ih =>
    obtain ⟨ha, hl⟩ := List.nodup_cons.1 hnd
    rw [List.find?_cons]
    rcases List.mem_cons.1 h with rfl | h
    · rw [beq_self_eq_true]
    · have hne : (a.ix == p.ix) = false := beq_eq_false_iff_ne.2 fun e => ha (List.mem_map.2 ⟨p, h, e.symm⟩)
      rw [hne]
      exact ih h hl

/-- Settles O55: step 5 of bring-up, READY and the deadline of TIMEREF. -/
theorem computeReleaseAndReady : Obligations.ComputeReleaseAndReady := by
  refine ⟨fun s sl rest hbegins hslots => ?first, fun s d sp x hstep hslots hsp hx hix hsps htiles hdome hdead hret hlost hack => ?slot, fun s hnow => ?ready,
    fun s hnot => congrArg Host.Outcome.next (if_pos (by rw [hnot]; rfl)), fun s hstep hhold => ?relock, fun s hhold href => ?locked⟩
  case first =>
    have run := exec_waveRelease_first hbegins hslots
    generalize hv : ({ step5Start s with boot := { (step5Start s).boot with slots := rest } } : State) = v at run
    have start : v.boot.step = 5 ∧ v.boot.slots = rest ∧ v.belfry.run = !s.keep.dieFault ∧ v.cistern = s.cistern := by rw [← hv]; exact ⟨rfl, rfl, rfl, rfl⟩
    obtain ⟨step, slots, belfry, cistern⟩ := start
    obtain ⟨same, released⟩ := foldl_releaseDome (s := v) step sl [] fun _ _ h => absurd h List.not_mem_nil
    have boot : (sl.foldl releaseDome v).boot = v.boot := same .boot (by decide)
    exact ⟨_, run, by rw [boot, step], by rw [boot, slots], (same .belfryRun (by decide)).trans belfry, released, same.bytes_eq.1.trans (by rw [cistern])⟩
  case slot =>
    have hbegins : step5Begins s = false := by simp only [step5Begins, hstep]; rfl
    have run := exec_waveRelease hstep hslots hbegins
    generalize hv : ({ s with boot := { s.boot with slots := [] } } : State) = v at run
    have start : v.boot.step = 5 ∧ v.boot.slots = [] ∧ v.tiles = s.tiles ∧ v.spires = s.spires := by rw [← hv]; exact ⟨hstep, rfl, rfl, rfl⟩
    obtain ⟨step, slots, tiles, spires⟩ := start
    have boot : (releaseDome v d).boot = v.boot := (releaseDome_effect step d).1 .boot (by decide)
    have mine : x ∈ (updDome v d fun y => { y with released := true }).tiles.filter fun t => t.ix / 256 == d :=
      List.mem_filter.2 ⟨tiles ▸ hx, beq_iff_eq.2 hdome⟩
    have nodup : (((updDome v d fun y => { y with released := true }).tiles.filter fun t => t.ix / 256 == d).map (·.ix)).Nodup :=
      List.Nodup.sublist (List.Sublist.map _ List.filter_sublist) (show (v.tiles.map (·.ix)).Nodup by rw [tiles]; exact htiles)
    have spire : getSp (updDome v d fun y => { y with released := true }) x.ix = some sp := by
      rw [hix]
      exact (getSp_of_nodup (s := v) (spires ▸ hsp) (by rw [spires]; exact hsps))
    obtain ⟨y, hy, hreq, hkeeps⟩ := foldl_releaseSpire_own (s := updDome v d fun y => { y with released := true }) step mine nodup spire hdead hret hlost hack
    exact ⟨_, y, run, by rw [List.foldl_cons, List.foldl_nil, boot, slots], hix ▸ hy, hreq, hkeeps⟩
  case ready =>
    have run := exec_ready hnow
    have done : ReadyDone s (if s.boot.fallback = true ∨ s.boot.softLost = true then alert (readyState s) alImage else readyState s) := by
      split
      · exact (readyState_done s).alert alImage
      · exact readyState_done s
    obtain ⟨grows, none_, svn, revoke⟩ := blowFuses_effect s
    rw [← done.fuses] at grows none_ svn revoke
    refine ⟨_, run, done.boot.1, done.boot.2, grows, none_, svn, revoke, done.logs, done.heads, fun h => ?_, done.tiles, done.data⟩
    rw [if_pos h]
    exact alert_getLsbD _ (by decide)
  case relock =>
    have hne : s.boot.step ≠ 7 := by rw [hstep]; decide
    obtain ⟨f1, f2, f3, -, f5, -, f7⟩ := bringFail_fails (s := s) bfNotref hne
    exact ⟨_, congrArg Host.Outcome.next (if_pos ⟨hstep, .inl hhold⟩), f1, f2, f3, f5, f7⟩
  case locked =>
    refine congrArg Host.Outcome.next (if_neg fun h => ?_)
    rcases h.2 with h | h
    · exact Bool.false_ne_true (hhold.symm.trans h)
    · rw [href] at h
      exact Bool.false_ne_true h

end Sys2Proof.Machine
end

section
/-! Frames on a Banen port (R299, R300). -/

set_option Elab.async false

namespace Sys2Proof.Machine

/-! ### Frames on a Banen port (R299, R300) -/

theorem getPort_updPort_any (s : State) (q j : Nat) (f : Port → Port) :
    getPort (updPort s q f) j = if j = q ∧ q < s.ports.length then f (getPort s q) else getPort s j := by
  by_cases hj : j = q
  · subst hj
    by_cases hq : j < s.ports.length
    · rw [if_pos ⟨rfl, hq⟩, getPort_updPort s j f hq]
    · rw [if_neg fun h => hq h.2, getPort, getPort, List.getD_eq_default _ _ (Nat.le_of_not_lt hq), List.getD_eq_default]
      exact Nat.le_trans (Nat.le_of_eq (length_updAt _ _ _)) (Nat.le_of_not_lt hq)
  · rw [if_neg fun h => hj h.1, getPort_updPort_ne s f hj]

theorem up_lt_ports {s : State} {q : Nat} (h : (getPort s q).up = true) : q < s.ports.length := by
  refine Nat.lt_of_not_le fun hge => ?_
  rw [getPort, List.getD_eq_default _ _ hge] at h
  exact Bool.noConfusion h

/-- What an operation on one port leaves: every other port, and all else but the counts of bytes. -/
structure OnPort (q : Nat) (s t : State) : Prop where
  length : t.ports.length = s.ports.length
  other : ∀ j, j ≠ q → getPort t j = getPort s j
  rest : Same [.ports, .big] s t

section
variable {q : Nat} {s t u : State}

theorem OnPort.rfl_ (q : Nat) (s : State) : OnPort q s s := ⟨rfl, fun _ _ => rfl, Same.rfl_ _ s⟩

theorem OnPort.trans (h : OnPort q s t) (g : OnPort q t u) : OnPort q s u :=
  ⟨g.length.trans h.length, fun j hj => (g.other j hj).trans (h.other j hj), h.rest.trans g.rest⟩

theorem OnPort.frame (h : OnPort q s t) : t = { s with ports := t.ports, big := t.big } := h.rest.frame

theorem onPort_updPort (s : State) (q : Nat) (f : Port → Port) : OnPort q s (updPort s q f) :=
  ⟨length_updAt _ _ _, fun _ hj => getPort_updPort_ne s f hj, (updPort_keeps q f (Keeps.rfl_ _ s) (by decide)).same⟩

theorem onPort_of_big (h : Same [.big] s t) : OnPort q s t :=
  ⟨by rw [h .ports (by decide)], fun j _ => getPort_of_same h j, h.mono (by decide)⟩

/-- The counts of bytes of a port. -/
theorem countRecv_big (s : State) (q n : Nat) : Same [.big] s (countRecv s q n) := (countRecv_keeps q n (Keeps.rfl_ _ s) (List.Subset.refl _)).same

theorem dieId_of_image (h : t.image = s.image) : dieId t = dieId s := by rw [dieId, dieId, h]

/-- What of a port the bytes of its frames show. -/
def frameHead (p : Port) : W16 × W16 × Bool := (p.recvSeq, p.peerDie, p.zka2)

theorem banFrame_congr (hh : frameHead (getPort t q) = frameHead (getPort s q)) (hi : t.image = s.image) (ftype : Byte) (seq : W16) (body : List W64) :
    banFrame t q ftype seq body = banFrame s q ftype seq body := by
  have h1 : (getPort t q).recvSeq = (getPort s q).recvSeq := congrArg Prod.fst hh
  have h2 : (getPort t q).peerDie = (getPort s q).peerDie := congrArg (fun x => x.2.1) hh
  have h3 : (getPort t q).zka2 = (getPort s q).zka2 := congrArg (fun x => x.2.2) hh
  unfold banFrame
  dsimp only
  rw [h1, h2, h3, dieId_of_image hi]

section
variable (hq : q < s.ports.length)
include hq

theorem putFrame_own (ftype : Byte) (seq : W16) (body : List W64) : OnPort q s (putFrame s q ftype seq body) ∧
    getPort (putFrame s q ftype seq body) q = { getPort s q with lastTx := banFrame s q ftype seq body } := by
  obtain ⟨own, other, rest⟩ := putFrame_effect s hq ftype seq body
  refine ⟨⟨?_, other, rest⟩, own⟩
  have counted := countSent_same (updPort s q fun p => { p with lastTx := banFrame s q ftype seq body }) q body.length
  exact (congrArg List.length (counted .ports (by decide))).trans (length_updAt _ _ _)

/-- A port with one more frame sent (R300). -/
def sentPort (s : State) (q : Nat) (x : Byte × List W64) (p : Port) : Port :=
  { p with replay := p.replay ++ [⟨x.1, p.sendSeq, x.2, 0⟩], sendSeq := p.sendSeq + 1, lastTx := banFrame s q x.1 p.sendSeq x.2 }

theorem transmit_own (x : Byte × List W64) : OnPort q s (transmit s q x) ∧ getPort (transmit s q x) q = sentPort s q x (getPort s q) := by
  have kept := onPort_updPort s q fun p => { p with replay := p.replay ++ [⟨x.1, (getPort s q).sendSeq, x.2, 0⟩], sendSeq := (getPort s q).sendSeq + 1 }
  have own := getPort_updPort s q (fun p => { p with replay := p.replay ++ [⟨x.1, (getPort s q).sendSeq, x.2, 0⟩], sendSeq := (getPort s q).sendSeq + 1 }) hq
  have run : transmit s q x = putFrame (updPort s q fun p => { p with replay := p.replay ++ [⟨x.1, (getPort s q).sendSeq, x.2, 0⟩], sendSeq := (getPort s q).sendSeq + 1 }) q x.1
    (getPort s q).sendSeq x.2 := rfl
  rw [run]
  generalize updPort s q (fun p => { p with replay := p.replay ++ [⟨x.1, (getPort s q).sendSeq, x.2, 0⟩], sendSeq := (getPort s q).sendSeq + 1 }) = v at kept own ⊢
  obtain ⟨put, last⟩ := putFrame_own (s := v) (by rw [kept.length]; exact hq) x.1 (getPort s q).sendSeq x.2
  refine ⟨kept.trans put, last.trans ?_⟩
  rw [banFrame_congr (s := s) (t := v) (by rw [own]; rfl) kept.rest.image_eq, own]
  rfl

theorem sendBan_room (hup : (getPort s q).up = true) (hroom : (getPort s q).replay.length < 128) (hqueue : (getPort s q).queue = []) (ftype : Byte) (body : List W64) :
    OnPort q s (sendBan s q ftype body) ∧ getPort (sendBan s q ftype body) q = sentPort s q (ftype, body) (getPort s q) := by
  have run : sendBan s q ftype body = transmit s q (ftype, body) := by
    unfold sendBan
    dsimp only
    rw [hup, if_neg (by decide), if_pos ⟨hroom, by rw [hqueue]; rfl⟩]
  rw [run]
  exact transmit_own hq (ftype, body)

theorem sendBan_full (hup : (getPort s q).up = true) (hfull : 128 ≤ (getPort s q).replay.length) (ftype : Byte) (body : List W64) :
    OnPort q s (sendBan s q ftype body) ∧ getPort (sendBan s q ftype body) q = { getPort s q with queue := (getPort s q).queue ++ [(ftype, body)] } := by
  have run : sendBan s q ftype body = updPort s q fun p => { p with queue := p.queue ++ [(ftype, body)] } := by
    unfold sendBan
    dsimp only
    rw [hup, if_neg (by decide), if_neg fun h => absurd h.1 (Nat.not_lt_of_le hfull)]
  rw [run]
  exact ⟨onPort_updPort s q _, getPort_updPort s q _ hq⟩

/-- What the sending of frames changes in their port. -/
structure Sends (p p' : Port) : Prop where
  frame : p' = { p with replay := p'.replay, queue := p'.queue, sendSeq := p'.sendSeq, lastTx := p'.lastTx }

omit hq in
theorem Sends.rfl_ (p : Port) : Sends p p := ⟨rfl⟩

omit hq in
theorem Sends.trans {p p' p'' : Port} (h : Sends p p') (g : Sends p' p'') : Sends p p'' := by
  obtain ⟨h⟩ := h
  obtain ⟨g⟩ := g
  constructor
  rw [g, h]

theorem transmit_sends (x : Byte × List W64) : Sends (getPort s q) (getPort (transmit s q x) q) := by
  rw [(transmit_own hq x).2]
  exact ⟨rfl⟩

omit hq in
theorem sendBan_sends (hq : q < s.ports.length) (ftype : Byte) (body : List W64) : OnPort q s (sendBan s q ftype body) ∧
    Sends (getPort s q) (getPort (sendBan s q ftype body) q) := by
  unfold sendBan
  dsimp only
  split
  · exact ⟨OnPort.rfl_ q s, Sends.rfl_ _⟩
  · split
    · exact ⟨(transmit_own hq _).1, transmit_sends hq _⟩
    · refine ⟨onPort_updPort s q _, ?_⟩
      rw [getPort_updPort s q _ hq]
      exact ⟨rfl⟩

end

/-- The frames that a list of bodies becomes, from a sequence number on. -/
def framesOf : W16 → List (Byte × List W64) → List SentFrame
  | _, [] => []
  | n, x :: xs => ⟨x.1, n, x.2, 0⟩ :: framesOf (n + 1) xs

theorem framesOf_bodies (n : W16) (l : List (Byte × List W64)) : (framesOf n l).map (fun f => (f.ftype, f.body)) = l := by
  induction l generalizing n with
  | nil => rfl
  | cons x l ih => rw [framesOf, List.map_cons, ih]

theorem foldl_transmit (l : List (Byte × List W64)) {s : State} (hq : q < s.ports.length) :
    OnPort q s (l.foldl (fun s x => transmit s q x) s) ∧ Sends (getPort s q) (getPort (l.foldl (fun s x => transmit s q x) s) q) ∧
      (getPort (l.foldl (fun s x => transmit s q x) s) q).queue = (getPort s q).queue ∧
      (getPort (l.foldl (fun s x => transmit s q x) s) q).replay = (getPort s q).replay ++ framesOf (getPort s q).sendSeq l := by
  induction l generalizing s with
  | nil => exact ⟨OnPort.rfl_ q s, Sends.rfl_ _, rfl, (List.append_nil _).symm⟩
  | cons x l ih =>
    obtain ⟨on, own⟩ := transmit_own hq x
    obtain ⟨rest, sends, queue, replay⟩ := ih (s := transmit s q x) (by rw [on.length]; exact hq)
    refine ⟨on.trans rest, (transmit_sends hq x).trans sends, queue.trans (by rw [own]; rfl), replay.trans ?_⟩
    rw [own, sentPort, framesOf, List.append_assoc]
    rfl

/-- R300: the frames before a sequence number are freed. -/
def freed (p : Port) (seq : W16) : List SentFrame := p.replay.filter fun f => !earlierThan f.seq seq

/-- R300: an acknowledgement frees the frames before it, and those that wait go out while there is room. -/
theorem acked_own {s : State} (hq : q < s.ports.length) (seq : W16) : OnPort q s (acked s q seq) ∧ Sends (getPort s q) (getPort (acked s q seq) q) ∧
    (getPort (acked s q seq) q).replay = freed (getPort s q) seq ++ framesOf (getPort s q).sendSeq ((getPort s q).queue.take (128 - (freed (getPort s q) seq).length)) ∧
    (getPort (acked s q seq) q).queue = (getPort s q).queue.drop (128 - (freed (getPort s q) seq).length) := by
  have first := onPort_updPort s q (ackUpTo seq)
  have own : getPort (updPort s q (ackUpTo seq)) q = { getPort s q with replay := freed (getPort s q) seq } := getPort_updPort s q (ackUpTo seq) hq
  have run : acked s q seq = ((getPort (updPort s q (ackUpTo seq)) q).queue.take (128 - (getPort (updPort s q (ackUpTo seq)) q).replay.length)).foldl (fun s x => transmit s q x)
      (updPort (updPort s q (ackUpTo seq)) q fun p => { p with queue := p.queue.drop (128 - (getPort (updPort s q (ackUpTo seq)) q).replay.length) }) := rfl
  rw [run, own]
  dsimp only
  have hv : q < (updPort s q (ackUpTo seq)).ports.length := by rw [first.length]; exact hq
  have second := onPort_updPort (updPort s q (ackUpTo seq)) q fun p => { p with queue := p.queue.drop (128 - (freed (getPort s q) seq).length) }
  have own2 := getPort_updPort (updPort s q (ackUpTo seq)) q (fun p => { p with queue := p.queue.drop (128 - (freed (getPort s q) seq).length) }) hv
  generalize updPort (updPort s q (ackUpTo seq)) q (fun p => { p with queue := p.queue.drop (128 - (freed (getPort s q) seq).length) }) = w at second own2 ⊢
  rw [own] at own2
  obtain ⟨rest, sends, queue, replay⟩ := foldl_transmit ((getPort s q).queue.take (128 - (freed (getPort s q) seq).length)) (s := w) (by rw [second.length]; exact hv)
  rw [own2] at sends queue replay
  exact ⟨(first.trans second).trans rest, (Sends.trans ⟨rfl⟩ ⟨rfl⟩ : Sends (getPort s q) { { getPort s q with replay := freed (getPort s q) seq } with
    queue := (getPort s q).queue.drop (128 - (freed (getPort s q) seq).length) }).trans sends, replay, queue⟩

/-- With nothing waiting an acknowledgement frees frames and sends none. -/
theorem acked_idle {s : State} (hq : q < s.ports.length) (hqueue : (getPort s q).queue = []) (seq : W16) :
    OnPort q s (acked s q seq) ∧ getPort (acked s q seq) q = { getPort s q with replay := freed (getPort s q) seq } := by
  refine ⟨(acked_own hq seq).1, ?_⟩
  have own : getPort (updPort s q (ackUpTo seq)) q = { getPort s q with replay := freed (getPort s q) seq } := getPort_updPort s q (ackUpTo seq) hq
  have first := onPort_updPort s q (ackUpTo seq)
  unfold acked pump
  rw [own]
  dsimp only
  rw [hqueue, List.take_nil, List.foldl_nil, getPort_updPort _ _ _ (by rw [first.length]; exact hq), own, hqueue, List.drop_nil]

end

end Sys2Proof.Machine
end

section
/-! Frames in order, and what a launch's frames leave (R300, R310). -/

set_option Elab.async false

namespace Sys2Proof.Machine

/-! ### Frames in order and out of order (R300) -/

/-- R300: a port that has received a frame in order. -/
def received (p : Port) : Port := { p with recvSeq := p.recvSeq + 1, naked := false }

/-- R300: the state in which a frame in order is served. -/
def inOrder (s : State) (h : BanHdr) (n : Nat) : State := acked (updPort (countRecv s h.port n) h.port received) h.port h.ackseq

section
variable {s : State} {h : BanHdr} (hup : (getPort s h.port).up = true)

theorem getPort_countRecv (s : State) (q n j : Nat) : getPort (countRecv s q n) j = getPort s j := getPort_of_same (countRecv_big s q n) j

include hup

theorem takeFrame_inOrder (hseq : h.seq = (getPort s h.port).recvSeq) (n : Nat) (f : State → State) : takeFrame s h n f = f (inOrder s h n) := by
  unfold takeFrame
  dsimp only
  rw [hup, if_neg (by decide), getPort_countRecv, if_neg (not_not_intro hseq)]
  rfl

theorem takeFrame_outOfOrder (hseq : h.seq ≠ (getPort s h.port).recvSeq) (n : Nat) (f : State → State) : takeFrame s h n f = badFrame (countRecv s h.port n) h.port := by
  unfold takeFrame
  dsimp only
  rw [hup, if_neg (by decide), getPort_countRecv, if_pos hseq]

theorem inOrder_own (n : Nat) : OnPort h.port s (inOrder s h n) ∧ Sends (received (getPort s h.port)) (getPort (inOrder s h n) h.port) := by
  have hq := up_lt_ports hup
  have counted := onPort_of_big (q := h.port) (countRecv_big s h.port n)
  have took := onPort_updPort (countRecv s h.port n) h.port received
  have own := getPort_updPort (countRecv s h.port n) h.port received (by rw [counted.length]; exact hq)
  rw [getPort_countRecv] at own
  unfold inOrder
  generalize updPort (countRecv s h.port n) h.port received = v at took own ⊢
  obtain ⟨on, sends, -⟩ := acked_own (s := v) (q := h.port) (by rw [took.length, counted.length]; exact hq) h.ackseq
  rw [own] at sends
  exact ⟨(counted.trans took).trans on, sends⟩

theorem inOrder_idle (hqueue : (getPort s h.port).queue = []) (n : Nat) :
    getPort (inOrder s h n) h.port = { received (getPort s h.port) with replay := freed (getPort s h.port) h.ackseq } := by
  have hq := up_lt_ports hup
  have counted := onPort_of_big (q := h.port) (countRecv_big s h.port n)
  have took := onPort_updPort (countRecv s h.port n) h.port received
  have own := getPort_updPort (countRecv s h.port n) h.port received (by rw [counted.length]; exact hq)
  rw [getPort_countRecv] at own
  unfold inOrder
  generalize updPort (countRecv s h.port n) h.port received = v at took own ⊢
  have idle := (acked_idle (s := v) (q := h.port) (by rw [took.length, counted.length]; exact hq) (by rw [own]; exact hqueue) h.ackseq).2
  rw [own] at idle
  exact idle

end

/-! ### Launches (R310 to R312) -/

theorem sendBan_same (s : State) (q : Nat) (ftype : Byte) (body : List W64) : Same [.ports, .big] s (sendBan s q ftype body) :=
  (sendBan_keeps q ftype body (Keeps.rfl_ _ s) (List.Subset.refl _)).same

theorem launchRec_same (s : State) (o : Nat) : Same [.parts, .near] s (launchRec s o) := (launchRec_keeps o (Keeps.rfl_ _ s) (List.Subset.refl _)).same

/-- A launch but for the proposals that are out. -/
def launchCore (l : LaunchSt) : Nat × W64 × W32 × Nat × List Nat × Bool × Bool × Bool × Nat :=
  (l.role, l.t, l.num, l.attempt, l.acks, l.aborted, l.committed, l.naked, l.port)

theorem propose_core (s : State) (q : Nat) (body : List W64) : launchCore (propose s q body).launch = launchCore s.launch := by
  unfold propose
  split
  · rfl
  · exact (congrArg launchCore (sendBan_same { s with launch := { s.launch with props := s.launch.props ++ [(q, s.launch.num, s.launch.attempt)] } } q 0x11 body .launch (by decide)) :).trans rfl

theorem toPeers_core (s : State) (ftype : Byte) (body : List W64) : launchCore (toPeers s ftype body).launch = launchCore s.launch := by
  unfold toPeers
  refine foldl_kept (g := fun v => launchCore v.launch) (fun v d => ?_) _ s
  split
  · split
    · exact propose_core v _ body
    · exact congrArg launchCore (sendBan_same v _ ftype body .launch (by decide))
  · rfl

/-- A frame to the peers that is not a proposal leaves the launch. -/
theorem toPeers_launch (s : State) {ftype : Byte} (hf : ftype ≠ 0x11) (body : List W64) : (toPeers s ftype body).launch = s.launch := by
  unfold toPeers
  refine foldl_kept (g := fun v => v.launch) (fun v d => ?_) _ s
  split
  · rw [if_neg hf]
    exact sendBan_same v _ ftype body .launch (by decide)
  · rfl

theorem tryCommit_core (s : State) : ∃ c, launchCore (tryCommit s).launch = launchCore { s.launch with committed := c } := by
  unfold tryCommit
  split
  · exact ⟨true, toPeers_core { s with launch := { s.launch with committed := true } } 0x14 (launchBody s)⟩
  · exact ⟨s.launch.committed, rfl⟩

theorem tryCommit_pads (s : State) : (tryCommit s).pads = s.pads := (tryCommit_keeps (Keeps.rfl_ _ s) (List.Subset.refl _)).same .pads (by decide)

theorem retryLaunch_pads (s : State) : (retryLaunch s).pads = s.pads := (retryLaunch_keeps (Keeps.rfl_ _ s) (List.Subset.refl _)).same .pads (by decide)

/-- R310 step 3: the next attempt begins, or after the third the launch ends. -/
theorem retryLaunch_effect (s : State) :
    (s.launch.attempt < 3 → (retryLaunch s).launch.attempt = s.launch.attempt + 1 ∧ (retryLaunch s).launch.role = s.launch.role ∧ (retryLaunch s).launch.acks = []) ∧
    (3 ≤ s.launch.attempt → (retryLaunch s).launch.role = 0) := by
  refine ⟨fun hlt => ?_, fun hge => ?_⟩
  · have aborted := toPeers_core s 0x15 (launchBody s)
    unfold retryLaunch
    dsimp only
    rw [if_neg (Nat.not_le_of_lt hlt)]
    generalize toPeers s 0x15 (launchBody s) = v at aborted ⊢
    generalize hw : ({ v with launch := _ } : State) = w
    have next : w.launch.attempt = v.launch.attempt + 1 ∧ w.launch.role = v.launch.role ∧ w.launch.acks = [] := by rw [← hw]; exact ⟨rfl, rfl, rfl⟩
    have proposed := toPeers_core w 0x11 (launchBody w)
    obtain ⟨c, committed⟩ := tryCommit_core (toPeers w 0x11 (launchBody w))
    have attempt : v.launch.attempt = s.launch.attempt := congrArg (fun x => x.2.2.2.1) aborted
    have role : v.launch.role = s.launch.role := congrArg Prod.fst aborted
    refine ⟨?_, ?_, ?_⟩
    · exact (congrArg (fun x => x.2.2.2.1) committed).trans ((congrArg (fun x => x.2.2.2.1) proposed).trans (next.1.trans (by rw [attempt])))
    · exact (congrArg Prod.fst committed).trans ((congrArg Prod.fst proposed).trans (next.2.1.trans role))
    · exact (congrArg (fun x => x.2.2.2.2.1) committed).trans ((congrArg (fun x => x.2.2.2.2.1) proposed).trans next.2.2)
  · unfold retryLaunch
    dsimp only
    rw [if_pos hge]

end Sys2Proof.Machine
end

section
/-! Launches (R310 to R312). -/

set_option Elab.async false

namespace Sys2Proof.Machine

/-! ### A proposal at a peer (R310, R331) -/

/-- Whether a peer accepts a proposal for a time in its own ticks (R310, R331). -/
def accepts (s : State) (q : Nat) (loc : W64) : Bool := decide (s.time.tick.toNat + 10000 ≤ loc.toNat) && !s.keep.dieFault && bitOf s.time.tsync q

/-- The launch that a proposal makes of a peer's. -/
def peerLaunch (s : State) (q : Nat) (loc : W64) (num : W32) : LaunchSt :=
  { s.launch with
    role := 2, t := loc, num := num, attempt := if s.launch.num == num && s.launch.port == q then s.launch.attempt + 1 else 1, acks := [],
    aborted := false, committed := false, naked := !accepts s q loc, port := q }

/-- The answer of a die to a proposal in order. -/
def answerProp (tk : W64) (num : W32) (q : Nat) (s : State) : State :=
  if s.launch.role = 1 then sendBan s q 0x13 [BitVec.ofNat 64 num.toNat]
  else sendBan { (if s.launch.role = 2 ∧ (!(s.launch.num == num && s.launch.port == q)) = true then launchRec s loAborted else s) with
    launch := peerLaunch s q (tk - (getPort s q).ofs) num } q (if accepts s q (tk - (getPort s q).ofs) then 0x12 else 0x13) [BitVec.ofNat 64 num.toNat]

theorem exec_launchProp (h : BanHdr) (tk : W64) (num : W32) (s : State) : exec (.launchProp h tk num) s = .next (takeFrame s h 2 (answerProp tk num h.port)) := rfl

section
variable {s : State} {q : Nat} (hup : (getPort s q).up = true) (hroom : (getPort s q).replay.length < 128) (hqueue : (getPort s q).queue = [])
include hup hroom hqueue

theorem sendBan_frame (ftype : Byte) (body : List W64) : ∃ f ∈ (getPort (sendBan s q ftype body) q).replay, f.ftype = ftype := by
  rw [(sendBan_room (up_lt_ports hup) hup hroom hqueue ftype body).2]
  exact ⟨_, List.mem_append_right _ (List.mem_singleton.2 rfl), rfl⟩

theorem answerProp_effect (tk : W64) (num : W32) :
    ∃ f ∈ (getPort (answerProp tk num q s) q).replay,
      (s.launch.role ≠ 1 → (answerProp tk num q s).launch = peerLaunch s q (tk - (getPort s q).ofs) num ∧
        f.ftype = if accepts s q (tk - (getPort s q).ofs) = true then 0x12 else 0x13) ∧
      (s.launch.role = 1 → (answerProp tk num q s).launch = s.launch ∧ f.ftype = 0x13) ∧
      Same [.launch, .ports, .parts, .near, .big] s (answerProp tk num q s) := by
  unfold answerProp
  by_cases hrole : s.launch.role = 1
  · rw [if_pos hrole]
    obtain ⟨f, hf, ftype⟩ := sendBan_frame hup hroom hqueue 0x13 [BitVec.ofNat 64 num.toNat]
    have same := sendBan_same s q 0x13 [BitVec.ofNat 64 num.toNat]
    exact ⟨f, hf, fun hne => absurd hrole hne, fun _ => ⟨same .launch (by decide), ftype⟩, same.mono (by decide)⟩
  · rw [if_neg hrole]
    generalize hl : peerLaunch s q (tk - (getPort s q).ofs) num = l
    generalize hb : (if accepts s q (tk - (getPort s q).ofs) = true then (0x12 : Byte) else 0x13) = b
    have noted : Same [.parts, .near] s (if s.launch.role = 2 ∧ (!(s.launch.num == num && s.launch.port == q)) = true then launchRec s loAborted else s) := by
      split
      · exact launchRec_same s loAborted
      · exact Same.rfl_ _ s
    generalize (if s.launch.role = 2 ∧ (!(s.launch.num == num && s.launch.port == q)) = true then launchRec s loAborted else s) = v at noted ⊢
    have begun : Same [.launch] v { v with launch := l } := by
      intro f hf
      cases f <;> first | rfl | exact absurd (by decide) hf
    have port : getPort { v with launch := l } q = getPort s q := getPort_of_same noted q
    obtain ⟨f, hf, ftype⟩ := sendBan_frame (s := { v with launch := l }) (q := q) (by rw [port]; exact hup) (by rw [port]; exact hroom) (by rw [port]; exact hqueue) b [BitVec.ofNat 64 num.toNat]
    have same := sendBan_same { v with launch := l } q b [BitVec.ofNat 64 num.toNat]
    exact ⟨f, hf, fun _ => ⟨same .launch (by decide), ftype⟩, fun he => absurd he hrole,
      ((noted.mono (by decide)).trans (begun.mono (by decide))).trans (same.mono (by decide))⟩

end

/-! ### Answers at the coordinator (R310) -/

/-- R310: an ACK in order at the coordinator. -/
def takeAck (q : Nat) (num : W32) (s : State) : State :=
  if (answers s q num).1 = true ∧ s.time.tick.toNat + 20000 < s.launch.t.toNat then
    tryCommit { (answers s q num).2 with launch := { (answers s q num).2.launch with acks := (answers s q num).2.launch.acks ++ [(getPort s q).peerDie.toNat] } }
  else (answers s q num).2

/-- R310: a NAK in order at the coordinator. -/
def takeNak (q : Nat) (num : W32) (s : State) : State := if (answers s q num).1 = true then retryLaunch (answers s q num).2 else (answers s q num).2

theorem exec_launchAck (h : BanHdr) (num : W32) (s : State) : exec (.launchAck h num) s = .next (takeFrame s h 1 (takeAck h.port num)) := rfl

theorem exec_launchNak (h : BanHdr) (num : W32) (s : State) : exec (.launchNak h num) s = .next (takeFrame s h 1 (takeNak h.port num)) := rfl

/-- R310: the answer to a proposal that is out. -/
theorem answers_eq {s : State} {q : Nat} {num : W32} {x : Nat × W32 × Nat} (hx : s.launch.props.find? (fun x => x.1 == q && x.2.1 == num) = some x) :
    answers s q num = (s.launch.role == 1 && s.launch.num == num && s.launch.attempt == x.2.2 && !s.launch.committed,
      { s with launch := { s.launch with props := s.launch.props.erase x } }) := by
  unfold answers
  rw [hx]

/-! ### The end of a launch (R310 to R312) -/

/-- A launch that ends with its record. -/
def launchEnds (s : State) (o : Nat) : State := { launchRec s o with launch := { (launchRec s o).launch with role := 0 } }

/-- A partition with one more record in its digest log (R292). -/
def digestLogged (r : Rec) (q : Part) : Part := { q with logs := { q.logs with digests := Log.push 8191 q.logs.digests r } }

theorem getPart_logDigest {s : State} {p : Nat} (hp : p < s.parts.length) (r : Rec) : getPart (logDigest s p r) p = digestLogged r (getPart s p) :=
  getPart_updPart s p (digestLogged r) hp

/-- R258: the record appended is in the log. -/
theorem mem_push {α : Type} {n : Nat} (hn : 0 < n) (l : Log α) (x : α) : x ∈ (Log.push n l x).items := by
  unfold Log.push
  dsimp only
  rw [List.length_append, List.length_singleton, List.drop_append_of_le_length (by omega)]
  exact List.mem_append_right _ (List.mem_singleton.2 rfl)

theorem launchRec_prod {s : State} (hp : 0 < s.parts.length) (o : Nat) : (getPart (launchRec s o) 0).logs.digests.prod = (getPart s 0).logs.digests.prod + 1 := by
  unfold launchRec
  rw [getPart_logDigest hp]
  rfl

section
variable {s : State}

theorem exec_launchTime_pulse (hrole : s.launch.role ≠ 0) (hcom : s.launch.committed = true) :
    exec .launchTime s = .next (if s.keep.dieFault then launchEnds s loFailed else
      { launchEnds s loPulsed with launch := { (launchEnds s loPulsed).launch with out := true }, pads := { (launchEnds s loPulsed).pads with launchOut := true } }) := by
  exact congrArg Host.Outcome.next ((if_neg hrole).trans (if_pos hcom))

theorem exec_launchTime_peer (hrole : s.launch.role = 2) (hcom : s.launch.committed = false) :
    exec .launchTime s = .next (if s.launch.naked = true ∨ s.launch.aborted = true then launchEnds s loAborted else
      { alert (launchRec s loSplit) alBanen with launch := { (alert (launchRec s loSplit) alBanen).launch with role := 0 } }) := by
  have h0 : ¬ s.launch.role = 0 := by rw [hrole]; decide
  have h1 : ¬ s.launch.committed = true := by rw [hcom]; exact Bool.false_ne_true
  exact congrArg Host.Outcome.next ((if_neg h0).trans ((if_neg h1).trans (if_pos hrole)))

end

/-- Settles O48: a launch at the coordinator and at a peer. -/
theorem launch : Obligations.Launch := by
  refine ⟨fun s h tk n hq hup hseq hroom hqueue => ?prop, fun s h n hq hup hseq => ⟨fun x hx hrole hnum hcom => ?answer, fun hpeer => ?commit, fun hpeer => ?abort⟩,
    fun s hrole hcom => ?deadline, fun s hrole hcom => ?pulse, fun s hrole hcom hp => ?peer, fun s hnone => ?stands, fun s => rfl⟩
  case prop =>
    intro loc ok
    have run := (exec_launchProp h tk n s).trans (congrArg Host.Outcome.next (takeFrame_inOrder hup hseq 2 _))
    have on := (inOrder_own hup 2).1
    have port := inOrder_idle hup hqueue 2
    generalize inOrder s h 2 = v at run on port
    have few : (freed (getPort s h.port) h.ackseq).length < 128 := Nat.lt_of_le_of_lt (List.length_filter_le _ _) hroom
    obtain ⟨f, hf, peer, lead, same⟩ := answerProp_effect (s := v) (q := h.port) (by rw [port]; exact hup) (by rw [port]; exact few) (by rw [port]; exact hqueue) tk n
    have hl : v.launch = s.launch := on.rest .launch (by decide)
    have hofs : (getPort v h.port).ofs = (getPort s h.port).ofs := by rw [port]; rfl
    have hok : accepts v h.port (tk - (getPort v h.port).ofs) = ok := by
      have hdie : v.keep.dieFault = s.keep.dieFault := congrArg Prod.fst (on.rest .fault (by decide))
      rw [accepts, hofs, on.rest.time_eq, hdie]
    rw [hl] at peer lead
    rw [hok] at peer
    refine ⟨_, f, run, hf, (same .pads (by decide)).trans (on.rest .pads (by decide)), fun hne => ?_, lead, ((on.rest.mono (by decide)).trans same).frame⟩
    obtain ⟨launch, ftype⟩ := peer hne
    rw [launch]
    refine ⟨rfl, ?_, rfl, ?_, rfl, rfl, ftype⟩
    · exact congrArg (tk - ·) hofs
    · exact congrArg Bool.not hok
  case answer =>
    have on := (inOrder_own hup 1).1
    have sends := (inOrder_own hup 1).2
    have ack := (exec_launchAck h n s).trans (congrArg Host.Outcome.next (takeFrame_inOrder hup hseq 1 _))
    have nak := (exec_launchNak h n s).trans (congrArg Host.Outcome.next (takeFrame_inOrder hup hseq 1 _))
    generalize inOrder s h 1 = v at ack nak on sends
    have hl : v.launch = s.launch := on.rest .launch (by decide)
    have hpads : v.pads = s.pads := on.rest .pads (by decide)
    have hdie : (getPort v h.port).peerDie = (getPort s h.port).peerDie := (congrArg Port.peerDie sends.frame :)
    have ans := answers_eq (s := v) (q := h.port) (num := n) (x := x) (by rw [hl]; exact hx)
    generalize hw : ({ v with launch := { v.launch with props := v.launch.props.erase x } } : State) = w at ans
    have wl : w.launch = { s.launch with props := s.launch.props.erase x } := by rw [← hw, ← hl]
    have wpads : w.pads = s.pads := by rw [← hw]; exact hpads
    have now : (v.launch.role == 1 && v.launch.num == n && v.launch.attempt == x.2.2 && !v.launch.committed) = decide (x.2.2 = s.launch.attempt) := by
      rw [hl, hrole, hnum, hcom, beq_self_eq_true, beq_self_eq_true, Bool.true_and, Bool.true_and, Bool.not_false, Bool.and_true, beq_eq_decide]
      exact decide_eq_decide.2 eq_comm
    rw [now] at ans
    unfold takeAck at ack
    unfold takeNak at nak
    rw [ans] at ack nak
    dsimp only at ack nak
    rw [hl, on.rest.time_eq, wl, hdie] at ack
    refine ⟨fun he htime => ?_, fun he hlt => ?_, fun he hge => ?_, fun hne => ?_⟩
    · rw [if_pos ⟨decide_eq_true he, htime⟩] at ack
      generalize hz : ({ w with launch := _ } : State) = z at ack
      have zl : z.launch.acks = s.launch.acks ++ [(getPort s h.port).peerDie.toNat] ∧ z.launch.attempt = s.launch.attempt ∧ z.launch.role = 1 := by
        rw [← hz]
        exact ⟨rfl, rfl, hrole⟩
      have zpads : z.pads = s.pads := by rw [← hz]; exact wpads
      obtain ⟨c, core⟩ := tryCommit_core z
      exact ⟨_, ack, (congrArg (fun x => x.2.2.2.2.1) core).trans zl.1, (congrArg (fun x => x.2.2.2.1) core).trans zl.2.1, (congrArg Prod.fst core).trans zl.2.2,
        (tryCommit_pads z).trans zpads⟩
    · rw [if_pos (decide_eq_true he)] at nak
      obtain ⟨attempt, role, acks⟩ := (retryLaunch_effect w).1 (by rw [wl]; exact hlt)
      exact ⟨_, nak, by rw [attempt, wl], by rw [role, wl]; exact hrole, acks, (retryLaunch_pads w).trans wpads⟩
    · rw [if_pos (decide_eq_true he)] at nak
      exact ⟨_, nak, (retryLaunch_effect w).2 (by rw [wl]; exact hge), (retryLaunch_pads w).trans wpads⟩
    · rw [if_neg (by rw [decide_eq_false hne]; exact fun hc => Bool.false_ne_true hc.1)] at ack
      rw [if_neg (by rw [decide_eq_false hne]; exact Bool.false_ne_true)] at nak
      intro c hc
      rcases List.mem_cons.1 hc with rfl | hc
      · exact ⟨w, ack, wl, wpads⟩
      · rw [List.mem_singleton.1 hc]
        exact ⟨w, nak, wl, wpads⟩
  case commit =>
    have on := (inOrder_own hup 1).1
    have run : exec (.launchCommit h n) s = .next (if concernsPeer (inOrder s h 1) h n = true ∧ (!(inOrder s h 1).launch.naked) = true ∧ (!(inOrder s h 1).launch.aborted) = true then
        { inOrder s h 1 with launch := { (inOrder s h 1).launch with committed := true } } else inOrder s h 1) :=
      congrArg Host.Outcome.next (takeFrame_inOrder hup hseq 1 _)
    generalize inOrder s h 1 = v at run on
    have hl : v.launch = s.launch := on.rest .launch (by decide)
    have concerns : concernsPeer v h n = true := by rw [concernsPeer, hl]; exact hpeer
    split at run
    · next hyes =>
      refine ⟨_, run, ?_, on.rest .pads (by decide), ?_⟩
      · have may : (!s.launch.naked && !s.launch.aborted) = true := by rw [← hl]; exact Bool.and_eq_true_iff.2 hyes.2
        rw [may, Bool.or_true]
        exact congrArg (fun l => { l with committed := true }) hl
      · exact Same.frame (m := [.launch, .ports, .big]) fun f hf => by cases f <;> first | exact on.rest _ (fun hin => hf (List.mem_cons_of_mem _ hin)) | exact absurd (by decide) hf
    · next hno =>
      refine ⟨v, run, ?_, on.rest .pads (by decide), (on.rest.mono (by decide) : Same [.launch, .ports, .big] s v).frame⟩
      have may : (!s.launch.naked && !s.launch.aborted) = false := by
        rw [← hl]
        exact Bool.eq_false_iff.2 fun hyes => hno ⟨concerns, Bool.and_eq_true_iff.1 hyes⟩
      rw [may, Bool.or_false, hl]
  case abort =>
    have on := (inOrder_own hup 1).1
    have run : exec (.launchAbort h n) s = .next (if concernsPeer (inOrder s h 1) h n = true then
        { inOrder s h 1 with launch := { (inOrder s h 1).launch with aborted := true, committed := false } } else inOrder s h 1) :=
      congrArg Host.Outcome.next (takeFrame_inOrder hup hseq 1 _)
    generalize inOrder s h 1 = v at run on
    have hl : v.launch = s.launch := on.rest .launch (by decide)
    rw [if_pos (show concernsPeer v h n = true by rw [concernsPeer, hl]; exact hpeer)] at run
    refine ⟨_, run, congrArg (fun l => { l with aborted := true, committed := false }) hl, on.rest .pads (by decide), ?_⟩
    exact Same.frame (m := [.launch, .ports, .big]) fun f hf => by cases f <;> first | exact on.rest _ (fun hin => hf (List.mem_cons_of_mem _ hin)) | exact absurd (by decide) hf
  case deadline =>
    have go : s.launch.role = 1 ∧ (!s.launch.committed) = true := ⟨hrole, by rw [hcom]; rfl⟩
    obtain ⟨next, ends⟩ := retryLaunch_effect s
    refine ⟨_, congrArg Host.Outcome.next (if_pos go), retryLaunch_pads s, fun hlt => ?_, ends⟩
    obtain ⟨attempt, role, -⟩ := next hlt
    exact ⟨attempt, role.trans hrole⟩
  case pulse =>
    have run := exec_launchTime_pulse hrole hcom
    have pads (o : Nat) : (launchEnds s o).pads = s.pads := launchRec_same s o .pads (by decide)
    cases hdie : s.keep.dieFault
    · rw [hdie, if_neg Bool.false_ne_true] at run
      exact ⟨_, run, rfl, fun _ => congrArg (fun p => { p with launchOut := true }) (pads loPulsed), fun h => Bool.noConfusion h⟩
    · rw [hdie, if_pos rfl] at run
      exact ⟨_, run, rfl, fun h => Bool.noConfusion h, fun _ => pads loFailed⟩
  case peer =>
    have run := exec_launchTime_peer hrole hcom
    split at run
    · next hyes =>
      refine ⟨_, run, launchRec_same s loAborted .pads (by decide), rfl, launchRec_prod hp loAborted, fun hn ha => ?_, fun _ => launchRec_same s loAborted .alert (by decide)⟩
      rcases hyes with h | h
      · exact absurd (hn.symm.trans h) Bool.false_ne_true
      · exact absurd (ha.symm.trans h) Bool.false_ne_true
    · next hno =>
      exact ⟨_, run, launchRec_same s loSplit .pads (by decide), rfl, launchRec_prod hp loSplit, fun _ _ => alert_getLsbD _ (by decide), fun h => absurd h hno⟩
  case stands =>
    rcases hnone with h0 | ⟨h2, hcom⟩
    · exact congrArg Host.Outcome.next (if_pos h0)
    · by_cases h0 : s.launch.role = 0
      · exact congrArg Host.Outcome.next (if_pos h0)
      · have h1 : ¬ s.launch.committed = true := by rw [hcom]; exact Bool.false_ne_true
        exact congrArg Host.Outcome.next ((if_neg h0).trans ((if_neg h1).trans (if_neg h2)))

end Sys2Proof.Machine
end

section
/-! Errors of a Banen port and frames sent again (R300); a port that comes up (R298). -/

set_option Elab.async false

namespace Sys2Proof.Machine

/-! ### Errors of a Banen port, and frames sent again (R300) -/

/-- R300: a port with a frame dropped; one NAK per run of errors. -/
def badPort (s : State) (q : Nat) (p : Port) : Port :=
  { p with
    badfrm := satInc p.badfrm, naked := true, naktx := if p.naked = true then p.naktx else satInc p.naktx
    lastTx := if p.naked = true then p.lastTx else banFrame s q 0x03 p.sendSeq [BitVec.ofNat 64 p.recvSeq.toNat] }

section
variable {s : State} {q : Nat}

theorem badFrame_own (hup : (getPort s q).up = true) : OnPort q s (badFrame s q) ∧ getPort (badFrame s q) q = badPort s q (getPort s q) := by
  have hq := up_lt_ports hup
  have first := onPort_updPort s q fun p => { p with badfrm := satInc p.badfrm, naked := true }
  have own := getPort_updPort s q (fun p => { p with badfrm := satInc p.badfrm, naked := true }) hq
  unfold badFrame
  dsimp only
  rw [hup, if_neg (by decide)]
  generalize updPort s q (fun p => { p with badfrm := satInc p.badfrm, naked := true }) = v at first own ⊢
  by_cases hn : (getPort s q).naked = true
  · rw [if_pos hn]
    refine ⟨first, own.trans ?_⟩
    simp only [badPort, if_pos hn]
  · rw [if_neg hn]
    have hv : q < v.ports.length := by rw [first.length]; exact hq
    have second := onPort_updPort v q fun p => { p with naktx := satInc p.naktx }
    have own2 := getPort_updPort v q (fun p => { p with naktx := satInc p.naktx }) hv
    generalize updPort v q (fun p => { p with naktx := satInc p.naktx }) = w at second own2 ⊢
    obtain ⟨put, last⟩ := putFrame_own (s := w) (q := q) (by rw [second.length]; exact hv) 0x03 (getPort s q).sendSeq [BitVec.ofNat 64 (getPort s q).recvSeq.toNat]
    refine ⟨(first.trans second).trans put, last.trans ?_⟩
    rw [banFrame_congr (s := s) (t := w) (by rw [own2, own]; rfl) (first.trans second).rest.image_eq, own2, own]
    simp only [badPort, if_neg hn]

/-- Frames that go out in turn leave in their port the bytes of the last. -/
theorem foldl_putFrame (l : List SentFrame) {s : State} (hq : q < s.ports.length) :
    OnPort q s (l.foldl (fun s f => putFrame s q f.ftype f.seq f.body) s) ∧
      ∃ x, getPort (l.foldl (fun s f => putFrame s q f.ftype f.seq f.body) s) q = { getPort s q with lastTx := x } ∧
        ∀ f, l.getLast? = some f → x = banFrame s q f.ftype f.seq f.body := by
  induction l generalizing s with
  | nil => exact ⟨OnPort.rfl_ q s, _, rfl, fun f hf => by cases hf⟩
  | cons a l ih =>
    obtain ⟨put, own⟩ := putFrame_own hq a.ftype a.seq a.body
    obtain ⟨rest, x, hx, last⟩ := ih (s := putFrame s q a.ftype a.seq a.body) (by rw [put.length]; exact hq)
    have congr_ (f : SentFrame) : banFrame (putFrame s q a.ftype a.seq a.body) q f.ftype f.seq f.body = banFrame s q f.ftype f.seq f.body :=
      banFrame_congr (by rw [own]; rfl) put.rest.image_eq _ _ _
    refine ⟨put.trans rest, x, by rw [List.foldl_cons, hx, own], fun f hf => ?_⟩
    cases l with
    | nil =>
      cases hf
      have hl : (getPort (putFrame s q a.ftype a.seq a.body) q).lastTx = x := congrArg Port.lastTx hx
      rw [← hl]
      exact congrArg Port.lastTx own
    | cons b l =>
      rw [List.getLast?_cons_cons] at hf
      exact (last f hf).trans (congr_ f)

/-- R300: a frame sent again. -/
def resent (f : SentFrame) : SentFrame := { f with resends := f.resends + 1 }

/-- The state in which frames have been sent again. -/
def framesResent (s : State) (q : Nat) (seq : W16) : State :=
  ((getPort s q).replay.filter fun f => !earlierThan f.seq seq).foldl (fun s f => putFrame s q f.ftype f.seq f.body)
    (updPort s q fun p => { p with
      resend := satAdd p.resend ((getPort s q).replay.filter fun f => !earlierThan f.seq seq).length
      replay := p.replay.map fun f => if !earlierThan f.seq seq then resent f else f })

theorem resendFrom_eq (s : State) (q : Nat) (seq : W16) : resendFrom s q seq =
    if (getPort (framesResent s q seq) q).replay.any fun f => decide (f.resends ≥ 16) then portDown (framesResent s q seq) q bdResend else framesResent s q seq := rfl

theorem framesResent_own (hq : q < s.ports.length) (seq : W16) : OnPort q s (framesResent s q seq) ∧
    ∃ x, getPort (framesResent s q seq) q = { getPort s q with
        resend := satAdd (getPort s q).resend ((getPort s q).replay.filter fun f => !earlierThan f.seq seq).length
        replay := (getPort s q).replay.map (fun f => if !earlierThan f.seq seq then resent f else f), lastTx := x } ∧
      ∀ f, ((getPort s q).replay.filter fun f => !earlierThan f.seq seq).getLast? = some f → x = banFrame s q f.ftype f.seq f.body := by
  unfold framesResent
  have first := onPort_updPort s q fun p => { p with
      resend := satAdd p.resend ((getPort s q).replay.filter fun f => !earlierThan f.seq seq).length
      replay := p.replay.map fun f => if !earlierThan f.seq seq then resent f else f }
  have own := getPort_updPort s q (fun p => { p with
      resend := satAdd p.resend ((getPort s q).replay.filter fun f => !earlierThan f.seq seq).length
      replay := p.replay.map fun f => if !earlierThan f.seq seq then resent f else f }) hq
  generalize updPort s q _ = v at first own ⊢
  obtain ⟨rest, x, hx, last⟩ := foldl_putFrame ((getPort s q).replay.filter fun f => !earlierThan f.seq seq) (s := v) (q := q) (by rw [first.length]; exact hq)
  refine ⟨first.trans rest, x, by rw [hx, own], fun f hf => (last f hf).trans ?_⟩
  exact banFrame_congr (by rw [own]; rfl) first.rest.image_eq _ _ _

/-- R300: a port all of whose frames go out again, none for the 16th time. -/
theorem resendFrom_own (hq : q < s.ports.length) {seq : W16} (hall : ∀ f ∈ (getPort s q).replay, earlierThan f.seq seq = false ∧ f.resends < 15) :
    OnPort q s (resendFrom s q seq) ∧ getPort (resendFrom s q seq) q = { getPort s q with
        replay := (getPort s q).replay.map resent, resend := satAdd (getPort s q).resend (getPort s q).replay.length, lastTx := (getPort (resendFrom s q seq) q).lastTx } ∧
      ∀ f, (getPort s q).replay.getLast? = some f → (getPort (resendFrom s q seq) q).lastTx = banFrame s q f.ftype f.seq f.body := by
  obtain ⟨on, x, own, last⟩ := framesResent_own hq seq
  have whole : ((getPort s q).replay.filter fun f => !earlierThan f.seq seq) = (getPort s q).replay :=
    List.filter_eq_self.2 fun f hf => by rw [(hall f hf).1]; rfl
  have mapped : ((getPort s q).replay.map fun f => if !earlierThan f.seq seq then resent f else f) = (getPort s q).replay.map resent :=
    List.map_congr_left fun f hf => by rw [(hall f hf).1]; rfl
  rw [whole] at own last
  rw [mapped] at own
  have stays : resendFrom s q seq = framesResent s q seq := by
    rw [resendFrom_eq, if_neg]
    rw [own, List.any_eq_true]
    rintro ⟨g, hg, hres⟩
    obtain ⟨f, hf, rfl⟩ := List.mem_map.1 hg
    have := (hall f hf).2
    have : 16 ≤ f.resends + 1 := of_decide_eq_true hres
    omega
  rw [stays, own]
  exact ⟨on, rfl, last⟩

/-- R300: a port that goes down. -/
theorem portDown_own (hq : q < s.ports.length) (cause : Nat) : (getPort (portDown s q cause) q).up = false ∧ (getPort (portDown s q cause) q).replay = [] ∧
    (getPort (portDown s q cause) q).queue = [] ∧ (getPort (portDown s q cause) q).downev = true ∧ (portDown s q cause).keep.alert.getLsbD alBanen = true ∧
    ∀ j, j ≠ q → getPort (portDown s q cause) j = getPort s j := by
  unfold portDown
  dsimp only
  generalize hf : (fun p : Port => { p with
    past := if p.up = true then p.past ++ [(p.peerDie, p.trained, s.time.tick)] else p.past
    up := false, ver := 0, keyed := false, downev := true, replay := [], queue := [], exch := [], waiting := true }) = f
  have down (p : Port) : (f p).up = false ∧ (f p).replay = [] ∧ (f p).queue = [] ∧ (f p).downev = true := by rw [← hf]; exact ⟨rfl, rfl, rfl, rfl⟩
  generalize hv : ({ updPort s q f with seals := _, launch := _ } : State) = v
  have ports : v.ports = (updPort s q f).ports := by rw [← hv]
  have port (j : Nat) : getPort v j = getPort (updPort s q f) j := by rw [getPort, getPort, ports]
  generalize hr : (⟨.bandown, s.time.tick, 0xFFFF, 0, packW [(0, 0xFFFF)], [BitVec.ofNat 32 q, BitVec.ofNat 32 cause]⟩ : Rec) = r
  have rec_ := addRec_same v r
  generalize addRec v r = w at rec_ ⊢
  have after (j : Nat) : getPort (alert (setTsync w q false) alBanen) j = getPort (updPort s q f) j := (getPort_of_same rec_ j).trans (port j)
  rw [after q, getPort_updPort s q f hq]
  obtain ⟨h1, h2, h3, h4⟩ := down (getPort s q)
  exact ⟨h1, h2, h3, h4, alert_getLsbD _ (by decide), fun j hj => (after j).trans (getPort_updPort_ne s f hj)⟩

end

/-! ### HELLO (R298, R328) -/

theorem agreedVer_eq (b : HelloBody) : agreedVer b = ([3, 2, 1].find? fun v => bitOf b.versions (v - 1)).getD 0 := rfl

theorem setTsync_bit (s : State) (q : Nat) : bitOf (setTsync s q false).time.tsync q = false := by
  change (setFld s.time.tsync q 1 0).getLsbD q = false
  by_cases hq : q < 4
  · rw [setFld_bit_zero_getLsbD s.time.tsync hq hq, decide_eq_true rfl, Bool.not_true, Bool.and_false]
  · exact BitVec.getLsbD_of_ge _ _ (Nat.le_of_not_lt hq)

/-- A port that comes up with a peer (R298). -/
def portUp (s : State) (q : Nat) (b : HelloBody) (p : Port) : Port :=
  { p with
    up := true, ver := p.qver, zka2 := decide (b.arch.toNat < 3), peerRev := BitVec.ofNat 4 b.arch.toNat, peerRel := b.release, peerDie := b.dieId,
    keyed := true,
    sendSeq := 0, recvSeq := 0, replay := [], queue := [], naked := false, key := linkKey (dieId s) b.dieId p.nonce b.nonce,
    exch := [], checking := false, driftSign := 0, trained := s.time.tick, waiting := false }

end Sys2Proof.Machine
end

section
/-! HELLO, TIME, and the frames of a Banen port (R298, R300, R328). -/

set_option Elab.async false

namespace Sys2Proof.Machine

section
variable {s : State} {h : BanHdr} {b : HelloBody}

/-- R298: this die or another up port has the DIE_ID of a HELLO. -/
def knownDie (s : State) (q : Nat) (b : HelloBody) : Bool :=
  b.dieId == dieId s || (List.range banPorts).any fun x => x != q && (getPort s x).up && (getPort s x).peerDie == b.dieId

theorem knownDie_iff (s : State) (q : Nat) (b : HelloBody) : knownDie s q b = true ↔
    b.dieId = dieId s ∨ ∃ x, x < banPorts ∧ x ≠ q ∧ (getPort s x).up = true ∧ (getPort s x).peerDie = b.dieId := by
  unfold knownDie
  rw [Bool.or_eq_true, beq_iff_eq, List.any_eq_true]
  simp only [List.mem_range, Bool.and_eq_true, bne_iff_ne, beq_iff_eq, and_assoc]

theorem knownDie_countRecv (s : State) (q n : Nat) (b : HelloBody) : knownDie (countRecv s q n) q b = knownDie s q b := by
  unfold knownDie
  rw [dieId_of_image (countRecv_big s q n).image_eq]
  simp only [getPort_countRecv]

theorem exec_hello (hup : (getPort s h.port).up = false) (hver : (getPort s h.port).qver ≠ 0) : exec (.hello h b) s = .next (linkUp (countRecv s h.port 3) h.port b) := by
  refine congrArg Host.Outcome.next (if_neg ?_)
  rintro (hu | hv)
  · exact Bool.false_ne_true (hup.symm.trans hu)
  · exact hver hv

theorem linkUp_known (s : State) (q : Nat) (b : HelloBody) (h : knownDie s q b = true) : linkUp s q b = portDown s q bdDupdie := if_pos h

theorem linkUp_lower (s : State) (q : Nat) (b : HelloBody) (hk : ¬ knownDie s q b = true) (hmin : minVer s q ≤ agreedVer b) (h0 : agreedVer b ≠ 0)
    (hlt : agreedVer b < (getPort s q).qver) :
    linkUp s q b = updPort s q fun p => { p with qver := agreedVer b, cand := agreedVer b, waiting := true, quals := 0 } := by
  have hlow : ¬ (agreedVer b < minVer s q ∨ agreedVer b = 0) := not_or.2 ⟨Nat.not_lt_of_le hmin, h0⟩
  exact (if_neg hk).trans ((if_neg hlow).trans (if_pos hlt))

theorem linkUp_up (s : State) (q : Nat) (b : HelloBody) (hk : ¬ knownDie s q b = true) (hmin : minVer s q ≤ agreedVer b) (h0 : agreedVer b ≠ 0)
    (hle : (getPort s q).qver ≤ agreedVer b) : linkUp s q b = measurePort (setTrefDiff (updPort s q (portUp s q b)) q false) q := by
  have hlow : ¬ (agreedVer b < minVer s q ∨ agreedVer b = 0) := not_or.2 ⟨Nat.not_lt_of_le hmin, h0⟩
  exact (if_neg hk).trans ((if_neg hlow).trans (if_neg (Nat.not_lt_of_le hle)))

theorem askTime_own {s : State} {q : Nat} (hq : q < s.ports.length) : OnPort q s (askTime s q) ∧ Sends (getPort s q) (getPort (askTime s q) q) := by
  unfold askTime
  split
  · exact sendBan_sends hq _ _
  · exact ⟨OnPort.rfl_ q s, Sends.rfl_ _⟩

/-- A port whose measurement begins (R328). -/
def measuring (p : Port) : Port := { p with exch := [], checking := false, measured := false }

theorem measurePort_own {s : State} {q : Nat} (hq : q < s.ports.length) :
    (∀ j, j ≠ q → getPort (measurePort s q) j = getPort s j) ∧ Sends (measuring (getPort s q)) (getPort (measurePort s q) q) ∧
      bitOf (measurePort s q).time.tsync q = false ∧
      measurePort s q = { s with ports := (measurePort s q).ports, big := (measurePort s q).big, time := { s.time with tsync := (measurePort s q).time.tsync } } := by
  have first := onPort_updPort s q measuring
  have own := getPort_updPort s q measuring hq
  have bit := setTsync_bit (updPort s q measuring) q
  have run : measurePort s q = askTime (setTsync (updPort s q measuring) q false) q := rfl
  rw [run]
  have cleared : setTsync (updPort s q measuring) q false = { updPort s q measuring with time := { s.time with tsync := (setTsync (updPort s q measuring) q false).time.tsync } } := rfl
  have port (j : Nat) : getPort (setTsync (updPort s q measuring) q false) j = getPort (updPort s q measuring) j := rfl
  have len : (setTsync (updPort s q measuring) q false).ports.length = s.ports.length := first.length
  have rest : setTsync (updPort s q measuring) q false =
      { s with ports := (setTsync (updPort s q measuring) q false).ports, time := { s.time with tsync := (setTsync (updPort s q measuring) q false).time.tsync } } := rfl
  generalize setTsync (updPort s q measuring) q false = v at bit port len rest ⊢
  obtain ⟨on, sends⟩ := askTime_own (s := v) (q := q) (by rw [len]; exact hq)
  rw [port, own] at sends
  refine ⟨fun j hj => (on.other j hj).trans ((port j).trans (getPort_updPort_ne s measuring hj)), sends, ?_, ?_⟩
  · rw [on.rest.time_eq]; exact bit
  · have frame := on.frame
    have time := on.rest.time_eq
    generalize askTime v q = w at frame time ⊢
    rw [frame, rest]

end

theorem portUp_congr {s v : State} (hi : v.image = s.image) (ht : v.time = s.time) (q : Nat) (b : HelloBody) : portUp v q b = portUp s q b := by
  funext p
  rw [portUp, portUp, dieId_of_image hi, ht]

/-- R298: a HELLO that brings a port up. -/
theorem hello_up {s : State} {h : BanHdr} {b : HelloBody} (hq : h.port < s.ports.length) (hup : (getPort s h.port).up = false) (hver : (getPort s h.port).qver ≠ 0)
    (hk : ¬ knownDie s h.port b = true) (hmin : minVer s h.port ≤ agreedVer b) (h0 : agreedVer b ≠ 0) (hle : (getPort s h.port).qver ≤ agreedVer b) :
    ∃ t, exec (.hello h b) s = .next t ∧ Sends (measuring (portUp s h.port b (getPort s h.port))) (getPort t h.port) ∧ bitOf t.time.tsync h.port = false ∧
      (∀ j, j ≠ h.port → getPort t j = getPort s j) ∧
      t = { s with ports := t.ports, big := t.big, time := { s.time with tsync := t.time.tsync, trefDiff := t.time.trefDiff } } := by
  have counted := countRecv_big s h.port 3
  have known := knownDie_countRecv s h.port 3 b
  have port := getPort_countRecv s h.port 3
  have run := exec_hello (b := b) hup hver
  have frame : countRecv s h.port 3 = { s with big := (countRecv s h.port 3).big } := counted.frame
  generalize countRecv s h.port 3 = u at counted known port run frame
  have hmin' : minVer u h.port ≤ agreedVer b := by rw [minVer, counted.image_eq]; exact hmin
  rw [linkUp_up u h.port b (by rw [known]; exact hk) hmin' h0 (by rw [port]; exact hle), portUp_congr counted.image_eq counted.time_eq] at run
  have len : h.port < u.ports.length := by rw [counted .ports (by decide)]; exact hq
  have own := getPort_updPort u h.port (portUp s h.port b) len
  have keep (j : Nat) (hj : j ≠ h.port) : getPort (updPort u h.port (portUp s h.port b)) j = getPort s j := (getPort_updPort_ne u _ hj).trans (port j)
  rw [port] at own
  have lenv : (updPort u h.port (portUp s h.port b)).ports.length = u.ports.length := length_updAt _ _ _
  have cleared : setTrefDiff (updPort u h.port (portUp s h.port b)) h.port false = { updPort u h.port (portUp s h.port b) with
      time := { u.time with trefDiff := (setTrefDiff (updPort u h.port (portUp s h.port b)) h.port false).time.trefDiff } } := rfl
  generalize setTrefDiff (updPort u h.port (portUp s h.port b)) h.port false = v at run cleared
  have vport (j : Nat) : getPort v j = getPort (updPort u h.port (portUp s h.port b)) j := by rw [cleared]; rfl
  have vlen : h.port < v.ports.length := by rw [cleared]; exact lenv ▸ len
  have vframe : v = { s with ports := v.ports, big := v.big, time := { s.time with trefDiff := v.time.trefDiff } } := by
    rw [cleared, frame]
    rfl
  obtain ⟨other, sends, bit, rest⟩ := measurePort_own vlen
  rw [vport, own] at sends
  refine ⟨_, run, sends, bit, fun j hj => (other j hj).trans ((vport j).trans (keep j hj)), ?_⟩
  generalize measurePort v h.port = w at rest ⊢
  have time : w.time.trefDiff = v.time.trefDiff := by rw [rest]
  rw [rest, vframe]

/-- Settles O45: the frames of a Banen port, and HELLO and TIME. -/
theorem banenFramesAndLinkUp : Obligations.BanenFramesAndLinkUp := by
  refine ⟨fun s q hq hup => ?frames, fun s h b hq hup hver => ?hello, fun s h t1 t2 hq hup hseq hqueue => ?time, fun s q hq hup hmeas => ?check⟩
  case frames =>
    intro p others bad again
    have badRun {c : Instr} (n : Nat) (run : exec c s = .next (badFrame (countRecv s q n) q)) : bad c := by
      have counted := countRecv_big s q n
      have port := getPort_countRecv s q n
      generalize countRecv s q n = u at counted port run
      obtain ⟨on, own⟩ := badFrame_own (s := u) (q := q) (by rw [port]; exact hup)
      have whole := (onPort_of_big (q := q) counted).trans on
      refine ⟨_, run, own.trans ?_, whole.other, whole.frame⟩
      rw [port, badPort, banFrame_congr (s := s) (by rw [port]) counted.image_eq]
    refine ⟨?late, ?corrupt, ?ack, ?nak, ?again, ?sixteen, ?idle⟩
    case late =>
      rintro h b b' n m d pt age st ly td rfl hseq c hc
      fin_cases hc <;> exact badRun _ (congrArg Host.Outcome.next (takeFrame_outOfOrder hup hseq _ _))
    case corrupt =>
      obtain ⟨on, own⟩ := badFrame_own hup
      exact ⟨_, rfl, own, on.other, on.frame⟩
    case ack =>
      rintro h rfl kept
      have run : exec (.ack h) s = .next (acked (countRecv s h.port 0) h.port h.ackseq) := congrArg Host.Outcome.next (if_pos hup)
      have counted := onPort_of_big (q := h.port) (countRecv_big s h.port 0)
      have port := getPort_countRecv s h.port 0 h.port
      generalize countRecv s h.port 0 = u at counted port run
      have len : h.port < u.ports.length := by rw [counted.length]; exact hq
      obtain ⟨on, -, replay, queue⟩ := acked_own len h.ackseq
      rw [port] at replay queue
      refine ⟨_, run, ?_, ?_, queue, fun hempty => ?_, (counted.trans on).other, (counted.trans on).frame⟩
      · rw [replay, List.map_append, framesOf_bodies]
        rfl
      · rw [replay]
        exact List.prefix_append _ _
      · rw [(acked_idle len (by rw [port]; exact hempty) h.ackseq).2, port]
        rfl
    case nak =>
      rintro h e rfl hempty hfew
      have run : exec (.nak h e) s = .next (resendFrom (acked (countRecv s h.port 1) h.port e) h.port e) := congrArg Host.Outcome.next (if_pos hup)
      have counted := onPort_of_big (q := h.port) (countRecv_big s h.port 1)
      have port := getPort_countRecv s h.port 1 h.port
      generalize countRecv s h.port 1 = u at counted port run
      have len : h.port < u.ports.length := by rw [counted.length]; exact hq
      obtain ⟨on, own⟩ := acked_idle len (by rw [port]; exact hempty) e
      rw [port] at own
      generalize acked u h.port e = v at on own run
      have left : ∀ f ∈ (getPort v h.port).replay, earlierThan f.seq e = false ∧ f.resends < 15 := by
        rw [own]
        intro f hf
        obtain ⟨hin, hlate⟩ := List.mem_filter.1 hf
        exact ⟨by simpa using hlate, hfew f hin⟩
      obtain ⟨sent, ownT, last⟩ := resendFrom_own (by rw [on.length]; exact len) left
      have whole := (counted.trans on).trans sent
      refine ⟨_, run, ?_, fun f hf => ?_, whole.other, whole.frame⟩
      · refine ownT.trans ?_
        rw [own]
        rfl
      · refine (last f (by rw [own]; exact hf)).trans (banFrame_congr (by rw [own]; rfl) (counted.trans on).rest.image_eq _ _ _)
    case again =>
      intro f rest hreplay hfew
      have run : exec (.retransmitTimeout q) s = .next (resendFrom s q f.seq) := by
        refine congrArg Host.Outcome.next ?_
        rw [show (getPort s q).replay.head? = some f by rw [show (getPort s q).replay = f :: rest from hreplay]; rfl]
        exact if_pos hup
      obtain ⟨sent, own, last⟩ := resendFrom_own hq fun x hx => ⟨(hfew x hx).2, (hfew x hx).1⟩
      exact ⟨_, run, own, last, sent.other, sent.frame⟩
    case sixteen =>
      intro f rest hreplay hmany hself
      have hr : (getPort s q).replay = f :: rest := hreplay
      have run : exec (.retransmitTimeout q) s = .next (resendFrom s q f.seq) := by
        refine congrArg Host.Outcome.next ?_
        rw [show (getPort s q).replay.head? = some f by rw [hr]; rfl]
        exact if_pos hup
      obtain ⟨on, x, own, -⟩ := framesResent_own hq f.seq
      have spent : ((getPort (framesResent s q f.seq) q).replay.any fun g => decide (g.resends ≥ 16)) = true := by
        rw [own, List.any_eq_true]
        refine ⟨resent f, List.mem_map.2 ⟨f, by rw [hr]; exact List.mem_cons_self, by rw [hself]; rfl⟩, decide_eq_true ?_⟩
        exact Nat.succ_le_succ hmany
      rw [resendFrom_eq, if_pos spent] at run
      obtain ⟨h1, h2, h3, h4, h5, h6⟩ := portDown_own (s := framesResent s q f.seq) (q := q) (by rw [on.length]; exact hq) bdResend
      exact ⟨_, run, h1, h2, h3, h4, h5, fun j hj => (h6 j hj).trans (on.other j hj)⟩
    case idle =>
      have run : exec (.ackIdle q) s = .next (putFrame s q 0x02 (getPort s q).sendSeq []) := congrArg Host.Outcome.next (if_pos hup)
      obtain ⟨on, own⟩ := putFrame_own hq 0x02 (getPort s q).sendSeq []
      exact ⟨_, run, own, on.other, on.frame⟩
  case hello =>
    intro dup v
    have hdup : knownDie s h.port b = true ↔ dup := knownDie_iff s h.port b
    have hv : agreedVer b = v := agreedVer_eq b
    have run := exec_hello (b := b) hup hver
    have counted := countRecv_big s h.port 3
    have known := knownDie_countRecv s h.port 3 b
    have port := getPort_countRecv s h.port 3
    refine ⟨fun hd hmin h0 hle => ?_, fun hd => ?_, fun hd hmin h0 hlt => ?_⟩
    · obtain ⟨t, runT, sends, bit, other, frame⟩ := hello_up hq hup hver (fun hk => hd (hdup.1 hk)) (by rw [hv]; exact hmin) (by rw [hv]; exact h0) (by rw [hv]; exact hle)
      obtain ⟨sent⟩ := sends
      exact ⟨t, runT, (congrArg Port.up sent :), (congrArg Port.ver sent :), (congrArg Port.peerDie sent :), (congrArg Port.peerRel sent :), (congrArg Port.zka2 sent :),
        (congrArg Port.recvSeq sent :), (congrArg Port.exch sent :), (congrArg Port.key sent :), (congrArg Port.trained sent :), bit, other, frame⟩
    · generalize countRecv s h.port 3 = u at counted known port run
      rw [linkUp_known u h.port b (by rw [known]; exact hdup.2 hd)] at run
      obtain ⟨h1, -, -, h4, h5, h6⟩ := portDown_own (s := u) (q := h.port) (by rw [counted .ports (by decide)]; exact hq) bdDupdie
      exact ⟨_, run, h1, h4, h5, fun j hj => (h6 j hj).trans (port j)⟩
    · generalize countRecv s h.port 3 = u at counted known port run
      rw [linkUp_lower u h.port b (by rw [known]; exact fun hk => hd (hdup.1 hk)) (by rw [minVer, counted.image_eq, hv]; exact hmin) (by rw [hv]; exact h0)
        (by rw [port, hv]; exact hlt), hv] at run
      have own := getPort_updPort u h.port (fun p => { p with qver := v, cand := v, waiting := true, quals := 0 }) (by rw [counted .ports (by decide)]; exact hq)
      refine ⟨_, run, ?_, ?_, ?_⟩ <;> rw [own]
      rw [port]
      exact hup
  case time =>
    intro p kept
    have run : exec (.time h (.ask t1 t2)) s = .next (sendBan (inOrder s h 4) h.port 0x10 [t1, t2, (inOrder s h 4).time.tick]) :=
      congrArg Host.Outcome.next (takeFrame_inOrder hup hseq 4 _)
    have on := (inOrder_own hup 4).1
    have port := inOrder_idle hup hqueue 4
    generalize inOrder s h 4 = v at run on port
    have len : h.port < v.ports.length := by rw [on.length]; exact hq
    have up : (getPort v h.port).up = true := by rw [port]; exact hup
    have queue : (getPort v h.port).queue = [] := by rw [port]; exact hqueue
    rw [on.rest.time_eq] at run
    have sent := (sendBan_sends len 0x10 [t1, t2, s.time.tick]).1
    refine ⟨_, run, (on.trans sent).other, (on.trans sent).frame, fun hroom => ?_, fun hfull => ?_⟩
    · obtain ⟨-, own⟩ := sendBan_room len up (by rw [port]; exact hroom) queue 0x10 [t1, t2, s.time.tick]
      have bytes := banFrame_congr (s := v) (t := sendBan v h.port 0x10 [t1, t2, s.time.tick]) (q := h.port) (by rw [own]; rfl) sent.rest.image_eq 0x10 p.sendSeq [t1, t2, s.time.tick]
      rw [bytes, own, port]
      rfl
    · obtain ⟨-, own⟩ := sendBan_full len up (by rw [port]; exact hfull) 0x10 [t1, t2, s.time.tick]
      rw [own, port]
      simp only [received, hqueue, List.nil_append]
      rfl
  case check =>
    have run : exec (.timeCheck q) s = .next (askTime (updPort s q fun p => { p with exch := [], checking := true }) q) := congrArg Host.Outcome.next (if_pos ⟨hup, hmeas⟩)
    have first := onPort_updPort s q fun p => { p with exch := [], checking := true }
    have own := getPort_updPort s q (fun p => { p with exch := [], checking := true }) hq
    generalize updPort s q (fun p => { p with exch := [], checking := true }) = v at run first own
    obtain ⟨on, ⟨sent⟩⟩ := askTime_own (s := v) (q := q) (by rw [first.length]; exact hq)
    rw [own] at sent
    exact ⟨_, run, (congrArg Port.checking sent :), (congrArg Port.exch sent :), (congrArg Port.ofs sent :), (first.trans on).other, (first.trans on).frame⟩

end Sys2Proof.Machine
end

section
/-! Seals (R302 to R306). -/

set_option Elab.async false

namespace Sys2Proof.Machine

/-! ### Seals (R302 to R306) -/

theorem addRec_parts_length (s : State) (r : Rec) : (addRec s r).parts.length = s.parts.length := by
  have used (v : State) (k n : Nat) : (addUse v k n).parts.length = v.parts.length := length_updAt _ _ _
  have refused (k : Nat) : (refuseQuota s k).parts.length = s.parts.length := length_updAt _ _ _
  unfold addRec
  split
  · rfl
  · split
    · exact used s _ _
    · dsimp only
      split
      · exact (used _ _ _).trans (refused _)
      · exact refused _

/-- R338: an input that is no operation's enters while the Belfry steps. -/
theorem addInput_mem {s : State} (hrun : s.belfry.run = true) (i : Input) (huid : i.uid = 0) : i ∈ (addInput s i).belfry.inputs := by
  unfold addInput
  rw [if_pos hrun, if_neg fun h => h.1 huid]
  exact List.mem_append_right _ (List.mem_singleton.2 rfl)

/-- What a violation of a link tap leaves. -/
theorem ltViol_effect (s : State) (m : LtMsg) (code : Byte) :
    Same [.alert, .inputs, .cistern, .parts, .records, .early, .near, .portViols] s (ltViol s m code) ∧
      (∀ p, (getPart (ltViol s m code) p).logs = (getPart s p).logs) ∧ (ltViol s m code).parts.length = s.parts.length ∧
      (s.belfry.run = true → ∃ i ∈ (ltViol s m code).belfry.inputs, i.code = 0x9A ∧ i.part = mPart m.hdr ∧ i.cause = code.toNat) := by
  refine ⟨(portViol_keeps _ _ _ _ _ _ _ _ _ (Keeps.rfl_ _ s) (List.Subset.refl _)).same, ?_⟩
  unfold ltViol portViol
  dsimp only
  generalize hu : countViol s .ltviol m.tap = u
  generalize violRec s.time.tick .ltviol 0xFFFF (mPart m.hdr) m.tap 0xFFFF 0xFFFF code (mColl m.hdr) (mEpoch m.hdr) (m.payload.length + 1) = r
  have counted : Same [.portViols] s u := hu ▸ (countViol_keeps _ _ (Keeps.rfl_ _ s) (List.Subset.refl _)).same
  have logs := addRec_logs u r
  have len := addRec_parts_length u r
  have same := addRec_same u r
  generalize addRec u r = v at logs len same ⊢
  have parts : u.parts = s.parts := counted .parts (by decide)
  generalize hi : mkInput v (violInput .ltviol) (mPart m.hdr) 0xFFFF 0xFFFF code.toNat false 0 0 = i
  have input := addInput_same v i
  refine ⟨fun p => ?_, ?_, fun hrun => ⟨i, addInput_mem ?_ i ?_, ?_⟩⟩
  · rw [getPart_of_parts (input .parts (by decide)), (logs p).1, getPart_of_parts parts]
  · rw [input .parts (by decide), len, parts]
  · rw [show v.belfry.run = u.belfry.run from same .belfryRun (by decide), show u.belfry.run = s.belfry.run from counted .belfryRun (by decide)]
    exact hrun
  · rw [← hi]; rfl
  · rw [← hi]; exact ⟨rfl, rfl, rfl⟩

theorem countLink_big (s : State) (m : LtMsg) (e : Bool) : Same [.big] s (countLink s m e) := (countLink_keeps m e (Keeps.rfl_ _ s) (List.Subset.refl _)).same

theorem ltChecks_clean {m : LtMsg} (hdrop : m.drop = false) (hres : mReserved m.hdr = false) (s : State) : ltChecks s m = s := by
  rw [ltChecks, hdrop, hres, if_neg Bool.false_ne_true, if_neg Bool.false_ne_true]

/-- What the checks of a message leave. -/
theorem ltChecks_effect (s : State) (m : LtMsg) : Same [.alert, .inputs, .cistern, .parts, .records, .early, .near, .portViols] s (ltChecks s m) ∧
    (∀ p, (getPart (ltChecks s m) p).logs = (getPart s p).logs) ∧ (ltChecks s m).parts.length = s.parts.length := by
  unfold ltChecks
  split
  · exact ⟨(ltViol_effect s m _).1, (ltViol_effect s m _).2.1, (ltViol_effect s m _).2.2.1⟩
  · split
    · exact ⟨(ltViol_effect s m _).1, (ltViol_effect s m _).2.1, (ltViol_effect s m _).2.2.1⟩
    · exact ⟨Same.rfl_ _ s, fun _ => rfl, rfl⟩

theorem ltChecks_input {m : LtMsg} (hres : mReserved m.hdr = true) {s : State} (hrun : s.belfry.run = true) :
    ∃ i ∈ (ltChecks s m).belfry.inputs, i.code = 0x9A ∧ i.part = mPart m.hdr ∧ i.cause = if m.drop = true then 1 else 2 := by
  unfold ltChecks
  split
  · exact (ltViol_effect s m 0x01).2.2.2 hrun
  · exact (ltViol_effect s m 0x02).2.2.2 hrun

/-! #### Egress (R302, R303) -/

/-- R302: the body of a SEAL frame. -/
def sealBody (m : LtMsg) (key : Nat) : List W64 :=
  [BitVec.ofNat 64 ((mKey m.hdr).part + 16 * (mKey m.hdr).epoch.toNat), BitVec.ofNat 64 ((mKey m.hdr).coll.toNat + 2 ^ 32 * (mKey m.hdr).chunk.toNat),
    BitVec.ofNat 64 (m.payload.length + 1 + 2 ^ 32 * b2n m.drop), sealOf key m, m.firstTick]

theorem exec_egress_reserved {s : State} {m : LtMsg} (hres : mReserved m.hdr = true) : exec (.linkEgressMessage m) s = .next (ltChecks (countLink s m true) m) :=
  congrArg Host.Outcome.next (if_pos hres)

theorem exec_ingress_reserved {s : State} {m : LtMsg} (hres : mReserved m.hdr = true) : exec (.linkIngressMessage m) s = .next (ltChecks (countLink s m false) m) :=
  congrArg Host.Outcome.next (if_pos hres)

theorem exec_egress_noRoute {s : State} {m : LtMsg} (hres : mReserved m.hdr = false) (h : portAt (ltChecks (countLink s m true) m) (mDst m.hdr) m.firstTick = none) :
    exec (.linkEgressMessage m) s = .next (sealOutcome (ltChecks (countLink s m true) m) (mKey m.hdr) slNoroute m.tap m.firstTick) := by
  refine congrArg Host.Outcome.next ((if_neg (by rw [hres]; exact Bool.false_ne_true)).trans ?_)
  rw [h]

theorem exec_egress_sent {s : State} {m : LtMsg} {q : Nat} (hres : mReserved m.hdr = false) (h : portAt (ltChecks (countLink s m true) m) (mDst m.hdr) m.firstTick = some q)
    (hsafe : inSafe (ltChecks (countLink s m true) m) uBan = false) :
    exec (.linkEgressMessage m) s = .next (sendBan (ltChecks (countLink s m true) m) q 0x20 (sealBody m (getPort (ltChecks (countLink s m true) m) q).key)) := by
  refine congrArg Host.Outcome.next ((if_neg (by rw [hres]; exact Bool.false_ne_true)).trans ?_)
  rw [h]
  dsimp only
  rw [hsafe]
  rfl

theorem portAt_of_ports {s t : State} (h : t.ports = s.ports) (die : W16) (tick : W64) : portAt t die tick = portAt s die tick := by
  unfold portAt getPort
  rw [h]

theorem inSafe_of_same {s t : State} {l : List Fld} (h : Same l s t) (u : Nat) (hl : .units ∉ l := by decide) : inSafe t u = inSafe s u := by
  rw [inSafe, inSafe, show t.keep.safe = s.keep.safe from (congrArg (fun x => x.2.2.2.1) (h .units hl) :)]

/-- R303: no port led to a die at a tick. -/
theorem portAt_none {s : State} {die : W16} {tick : W64}
    (h : ∀ q, q < banPorts → ((getPort s q).up = true → (getPort s q).peerDie = die → tick.toNat < (getPort s q).trained.toNat) ∧
      ∀ x ∈ (getPort s q).past, x.1 = die → tick.toNat < x.2.1.toNat ∨ x.2.2.toNat ≤ tick.toNat) : portAt s die tick = none := by
  refine List.find?_eq_none.2 fun q hq => ?_
  obtain ⟨now, before⟩ := h q (List.mem_range.1 hq)
  dsimp only
  rw [Bool.or_eq_true, not_or]
  constructor
  · rw [Bool.and_eq_true, Bool.and_eq_true, beq_iff_eq, decide_eq_true_iff]
    rintro ⟨⟨hup, hdie⟩, htick⟩
    exact absurd (now hup hdie) (Nat.not_lt_of_le htick)
  · rw [List.any_eq_true]
    rintro ⟨x, hx, hin⟩
    rw [Bool.and_eq_true, Bool.and_eq_true, beq_iff_eq, decide_eq_true_iff, decide_eq_true_iff] at hin
    obtain ⟨⟨hdie, hfrom⟩, huntil⟩ := hin
    rcases before x hx hdie with h | h <;> omega

/-! #### Entries (R304) -/

/-- R304: what an outcome that is not MATCH, of a message with no peer or no room, leaves. -/
theorem sealOutcome_noRoute {s : State} {k : SealKey} (hp : k.part < s.parts.length) (tap : Nat) (first : W64) :
    (sealOutcome s k slNoroute tap first).ports = s.ports ∧ (sealOutcome s k slNoroute tap first).seals = s.seals ∧
      (getPart (sealOutcome s k slNoroute tap first) k.part).logs.digests = (getPart s k.part).logs.digests.push 8191 (sealvRec s k slNoroute tap first) := by
  have run : sealOutcome s k slNoroute tap first = addDeficit (logDigest s k.part (sealvRec s k slNoroute tap first)) k.part 1 := rfl
  have logs : (getPart (sealOutcome s k slNoroute tap first) k.part).logs = (getPart (logDigest s k.part (sealvRec s k slNoroute tap first)) k.part).logs := by
    rw [run]
    exact getPart_updPart_logs _ _ _ _ fun _ => rfl
  refine ⟨rfl, rfl, ?_⟩
  rw [logs, getPart_logDigest hp]
  rfl

theorem find_key_none {l : List SealEnt} {k : SealKey} (h : ∀ e ∈ l, e.key ≠ k) : l.find? (fun e => e.key == k) = none :=
  List.find?_eq_none.2 fun e he hk => h e he (beq_iff_eq.1 hk)

theorem sealHalf_opens {s : State} {k : SealKey} (hnone : ∀ e ∈ s.seals, e.key ≠ k) (hroom : s.seals.length < 16384) (hquota : quotaOk s k.part lvTbl = true)
    (port : Nat) (isIn : Bool) (mk : SealEnt → SealEnt) :
    sealHalf s k port isIn mk = addUse { s with seals := s.seals ++ [mk ⟨k, none, none, s.time.tick, port, false, false⟩] } k.part 1 := by
  unfold sealHalf
  rw [find_key_none hnone]
  dsimp only
  rw [if_pos ⟨hroom, hquota⟩]

/-! #### SEAL_WAIT (R304) -/

theorem sealOutcome_same (s : State) (k : SealKey) (o tap : Nat) (first : W64) :
    Same [.alert, .inputs, .cistern, .parts, .sealMis, .sealMatch, .records, .early, .near] s (sealOutcome s k o tap first) :=
  (sealOutcome_keeps k o tap first (Keeps.rfl_ _ s) (List.Subset.refl _)).same

/-- What an outcome leaves that is decided of an entry that goes. -/
structure Decided (k : SealKey) (s t : State) : Prop where
  seals : t.seals = s.seals.filter fun e => e.key != k
  ports : t.ports = s.ports
  spires : t.spires = s.spires
  data : t.cistern.data = s.cistern.data

theorem decided_dropSeal (s : State) (k : SealKey) : Decided k s (dropSeal s k) := ⟨rfl, rfl, rfl, rfl⟩

theorem Decided.sealOutcome {k : SealKey} {s t : State} (h : Decided k s t) (k' : SealKey) (o tap : Nat) (first : W64) : Decided k s (sealOutcome t k' o tap first) := by
  have same := sealOutcome_same t k' o tap first
  exact ⟨(same .seals (by decide)).trans h.seals, (same .ports (by decide)).trans h.ports, (same .spires (by decide)).trans h.spires, same.bytes_eq.1.trans h.data⟩

theorem decided_unreadSeal (s : State) (e : SealEnt) : Decided e.key s (unreadSeal s e) := by
  have gone := decided_dropSeal s e.key
  unfold unreadSeal
  dsimp only
  split
  · refine Decided.sealOutcome ?_ _ _ _ _
    split
    · exact gone.sealOutcome _ _ _ _
    · exact gone
  · split
    · exact gone.sealOutcome _ _ _ _
    · exact gone

theorem exists_some_ite {α : Type} {c : Prop} [Decidable c] (x : α) {w : Option α} (h : ∃ o, w = some o) : ∃ o, (if c then some x else w) = some o := by
  split
  · exact ⟨x, rfl⟩
  · exact h

/-- R304: at SEAL_WAIT every entry has an outcome. -/
theorem sealDecide_wait (s : State) (e : SealEnt) : ∃ o, sealDecide s e true = some o := by
  unfold sealDecide
  dsimp only
  rw [Bool.not_true, Bool.false_and, if_neg Bool.false_ne_true]
  refine exists_some_ite _ (exists_some_ite _ (exists_some_ite _ ?_))
  split
  · exact ⟨_, rfl⟩
  · exact ⟨_, rfl⟩
  · exact ⟨_, rfl⟩

theorem trySeal_unread {s : State} {k : SealKey} {e : SealEnt} (h : s.seals.find? (fun e => e.key == k) = some e) (hu : e.unread = true) :
    trySeal s k true = unreadSeal s e := by
  unfold trySeal
  rw [h]
  dsimp only
  rw [if_pos hu, if_pos rfl]

theorem trySeal_decided {s : State} {k : SealKey} {e : SealEnt} {o : Nat} (h : s.seals.find? (fun e => e.key == k) = some e) (hu : e.unread = false)
    (ho : sealDecide s e true = some o) : trySeal s k true = sealOutcome (dropSeal s k) k o (tapOfEnt e) (firstOfEnt e) := by
  unfold trySeal
  rw [h]
  dsimp only
  rw [hu, if_neg Bool.false_ne_true, ho]

theorem decided_trySeal (s : State) (k : SealKey) : Decided k s (trySeal s k true) := by
  cases h : s.seals.find? fun e => e.key == k with
  | none =>
    have stays : trySeal s k true = s := by unfold trySeal; rw [h]
    rw [stays]
    refine ⟨(List.filter_eq_self.2 fun e he => ?_).symm, rfl, rfl, rfl⟩
    exact bne_iff_ne.2 fun hk => List.find?_eq_none.1 h e he (beq_iff_eq.2 hk)
  | some e =>
    have hk : e.key = k := beq_iff_eq.1 (List.find?_some h :)
    cases hu : e.unread with
    | true =>
      rw [trySeal_unread h hu, ← hk]
      exact decided_unreadSeal s e
    | false =>
      obtain ⟨o, ho⟩ := sealDecide_wait s e
      rw [trySeal_decided h hu ho]
      exact (decided_dropSeal s k).sealOutcome _ _ _ _

/-- Settles O47: what becomes of a message's seal, and the outcome of an entry at SEAL_WAIT. -/
theorem linkSeals : Obligations.LinkSeals := by
  refine ⟨fun s m q hres hdrop hroute hq hsafe hup hroom hqueue => ?egress, fun s m hres hnone hp => ?noRoute, fun s m hres c hc => ?reserved,
    fun s m hres hdrop hkey hroom hquota => ?ingress, fun s h b hup hseq hsafe hkey hroom hquota => ?frame, fun s k => ?wait⟩
  case egress =>
    have clean := ltChecks_clean hdrop hres (countLink s m true)
    have counted := countLink_big s m true
    have run := exec_egress_sent (s := s) (m := m) (q := q) hres (by rw [clean, portAt_of_ports (counted .ports (by decide))]; exact hroute)
      (by rw [clean, inSafe_of_same counted]; exact hsafe)
    rw [clean] at run
    have port := getPort_of_same counted q
    have on := onPort_of_big (q := q) counted
    generalize countLink s m true = u at run port on
    rw [port] at run
    obtain ⟨sent, own⟩ := sendBan_room (s := u) (q := q) (by rw [on.length]; exact hq) (by rw [port]; exact hup) (by rw [port]; exact hroom) (by rw [port]; exact hqueue) 0x20
      (sealBody m (getPort s q).key)
    rw [port] at own
    refine ⟨_, ⟨0x20, (getPort s q).sendSeq, sealBody m (getPort s q).key, 0⟩, run, ?_, rfl, rfl, rfl, rfl, (on.trans sent).other, (on.trans sent).frame⟩
    rw [own]
    rfl
  case noRoute =>
    have counted := countLink_big s m true
    obtain ⟨same, logs, len⟩ := ltChecks_effect (countLink s m true) m
    have parts : (countLink s m true).parts = s.parts := counted .parts (by decide)
    have ports : (ltChecks (countLink s m true) m).ports = s.ports := (same .ports (by decide)).trans (counted .ports (by decide))
    have seals : (ltChecks (countLink s m true) m).seals = s.seals := (same .seals (by decide)).trans (counted .seals (by decide))
    have run := exec_egress_noRoute (s := s) (m := m) hres (by rw [portAt_of_ports ports]; exact portAt_none hnone)
    have before : (getPart (ltChecks (countLink s m true) m) (mPart m.hdr)).logs = (getPart s (mPart m.hdr)).logs := by rw [logs, getPart_of_parts parts]
    have lenp : (mKey m.hdr).part < (ltChecks (countLink s m true) m).parts.length := by rw [len, parts]; exact hp
    obtain ⟨h1, h2, h3⟩ := sealOutcome_noRoute lenp m.tap m.firstTick
    generalize ltChecks (countLink s m true) m = u at run h1 h2 h3 before ports seals
    have digests : (getPart (sealOutcome u (mKey m.hdr) slNoroute m.tap m.firstTick) (mPart m.hdr)).logs.digests =
        (getPart s (mPart m.hdr)).logs.digests.push 8191 (sealvRec u (mKey m.hdr) slNoroute m.tap m.firstTick) := by rw [← before]; exact h3
    refine ⟨_, run, h1.trans ports, h2.trans seals, by rw [digests]; rfl, sealvRec u (mKey m.hdr) slNoroute m.tap m.firstTick, ?_, rfl, rfl⟩
    rw [digests]
    exact mem_push (by decide) _ _
  case reserved =>
    have done (e : Bool) : (ltChecks (countLink s m e) m).ports = s.ports ∧ (ltChecks (countLink s m e) m).seals = s.seals ∧
        (s.belfry.run = true → ∃ i ∈ (ltChecks (countLink s m e) m).belfry.inputs, i.code = 0x9A ∧ i.part = mPart m.hdr ∧ i.cause = if m.drop = true then 1 else 2) := by
      have counted := countLink_big s m e
      have same := (ltChecks_effect (countLink s m e) m).1
      exact ⟨(same .ports (by decide)).trans (counted .ports (by decide)), (same .seals (by decide)).trans (counted .seals (by decide)),
        fun hrun => ltChecks_input hres ((counted .belfryRun (by decide)).trans hrun)⟩
    rcases List.mem_cons.1 hc with rfl | hc
    · exact ⟨_, exec_egress_reserved hres, done true⟩
    · rw [List.mem_singleton.1 hc]
      exact ⟨_, exec_ingress_reserved hres, done false⟩
  case ingress =>
    have clean := ltChecks_clean hdrop hres (countLink s m false)
    have counted := countLink_big s m false
    have run : exec (.linkIngressMessage m) s = .next (sealHalf (ltChecks (countLink s m false) m) (mKey m.hdr) ((portOf (ltChecks (countLink s m false) m) (mSrc m.hdr)).getD 0xFF) true
        fun e => { e with ingress := some (sealOf (getPort (ltChecks (countLink s m false) m) ((portOf (ltChecks (countLink s m false) m) (mSrc m.hdr)).getD 0xFF)).key m,
          BitVec.ofNat 32 (m.payload.length + 1), m.drop, m.tap, m.firstTick) }) :=
      congrArg Host.Outcome.next (if_neg (by rw [hres]; exact Bool.false_ne_true))
    rw [clean] at run
    have seals : (countLink s m false).seals = s.seals := counted .seals (by decide)
    have route : portOf (countLink s m false) (mSrc m.hdr) = portOf s (mSrc m.hdr) := by
      simp only [portOf, portTo, getPort_of_same counted]
    rw [route, getPort_of_same counted] at run
    have quota : quotaOk (countLink s m false) (mKey m.hdr).part lvTbl = true := by
      rw [quotaOk, inSafe_of_same counted, getPart_of_parts (counted .parts (by decide)), quotaLines, partCfg, counted.image_eq]
      exact hquota
    have frame : countLink s m false = { s with big := (countLink s m false).big } := counted.frame
    generalize countLink s m false = u at run seals quota frame
    rw [sealHalf_opens (by rw [seals]; exact hkey) (by rw [seals]; exact hroom) quota] at run
    refine ⟨_, _, run, by rw [seals]; rfl, rfl, rfl, ⟨_, rfl, rfl, rfl⟩, ?_⟩
    rw [frame]
    rfl
  case frame =>
    have on := (inOrder_own hup 5).1
    have run : exec (.sealFrame h b) s = .next (if inSafe (inOrder s h 5) uBan then updPort (inOrder s h 5) h.port fun p => { p with badfrm := satInc p.badfrm }
        else sealHalf (inOrder s h 5) b.key h.port false fun e => { e with frame := some (b.digest, b.beats, b.drop, b.tick) }) :=
      congrArg Host.Outcome.next (takeFrame_inOrder hup hseq 5 _)
    generalize inOrder s h 5 = u at run on
    have seals : u.seals = s.seals := on.rest .seals (by decide)
    have quota : quotaOk u b.key.part lvTbl = true := by
      rw [quotaOk, inSafe_of_same on.rest, getPart_of_parts (on.rest .parts (by decide)), quotaLines, partCfg, on.rest.image_eq]
      exact hquota
    rw [inSafe_of_same on.rest, hsafe, if_neg Bool.false_ne_true, sealHalf_opens (by rw [seals]; exact hkey) (by rw [seals]; exact hroom) quota] at run
    refine ⟨_, _, run, by rw [seals]; rfl, rfl, rfl, rfl, ?_⟩
    rw [on.frame]
    rfl
  case wait =>
    obtain ⟨seals, ports, spires, data⟩ := decided_trySeal s k
    refine ⟨_, rfl, seals, ports, spires, data, fun e he hu ho => ?_⟩
    have run : trySeal s k true = { dropSeal s k with sealMatch := (dropSeal s k).sealMatch + 1 } := trySeal_decided he hu ho
    rw [run]
    exact ⟨rfl, fun p => getPart_updPart_logs _ _ _ _ fun _ => rfl⟩

end Sys2Proof.Machine
end

section
/-! Flit retries and links that are taken down (R363). -/

set_option Elab.async false

namespace Sys2Proof.Machine

/-! ### Flit retries (R363) -/

theorem linkDome_normLink (l : LinkId) : linkDome (normLink l) = linkDome l := by cases l <;> rfl

/-- The retry counted in its Dome. -/
def retried (s : State) (l : LinkId) (n : Nat) (x : Dome) : Dome :=
  { x with
    retries := (x.retries.filter fun r => r.1 != l) ++ [(l, n)]
    seamErr := match l with
      | .mesh _ _ _ => x.seamErr
      | .seam _ _ _ => (x.seamErr.filter fun e => e.1 != l) ++ [(l, s.time.tick.toNat / 1000000000,
          (((x.seamErr.find? fun e => e.1 == l && e.2.1 == s.time.tick.toNat / 1000000000).map (·.2.2)).getD 0) + 1)] }

theorem countRetry_eq (s : State) (d : Nat) (l : LinkId) (n : Nat) :
    countRetry s d l n = { s with caravan := { s.caravan with linkretry := satInc s.caravan.linkretry }, domes := (updDome s d (retried s l n)).domes } := rfl

theorem countRetry_getDome {s : State} {d : Nat} {x : Dome} (h : getDome s d = some x) (l : LinkId) (n : Nat) :
    getDome (countRetry s d l n) d = some (retried s l n x) :=
  (getDome_updDome s d (retried s l n) fun _ => rfl).trans (congrArg (Option.map _) h)

theorem countRetry_getDome_other (s : State) (d : Nat) (l : LinkId) (n : Nat) {j : Nat} (h : j ≠ d) : getDome (countRetry s d l n) j = getDome s j :=
  getDome_updDome_ne s (retried s l n) (fun _ => rfl) h

/-- The count of a link's retries in one second, after one more. -/
theorem retried_count {s : State} {l : LinkId} {n m : Nat} {x : Dome} (hm : 1 ≤ m) (h : ∀ e ∈ x.seamErr, e.1 = l → e.2.2 < m) :
    (((retried s l n x).seamErr.find? fun e => e.1 == l).map (·.2.2)).getD 0 ≤ m := by
  cases l with
  | mesh a b c =>
    change ((x.seamErr.find? fun e => e.1 == LinkId.mesh a b c).map (·.2.2)).getD 0 ≤ m
    cases hf : x.seamErr.find? fun e => e.1 == LinkId.mesh a b c with
    | none => exact Nat.zero_le m
    | some e => exact (h e (List.mem_of_find?_eq_some hf) (beq_iff_eq.1 (List.find?_some hf :))).le
  | seam a b c =>
    have none_ : (x.seamErr.filter fun e => e.1 != LinkId.seam a b c).find? (fun e => e.1 == LinkId.seam a b c) = none :=
      List.find?_eq_none.2 fun e he => by
        have := (List.mem_filter.1 he).2
        simpa using this
    unfold retried
    dsimp only
    rw [List.find?_append, none_, Option.none_or, List.find?_cons, beq_self_eq_true]
    change _ + 1 ≤ m
    cases hf : x.seamErr.find? fun e => e.1 == LinkId.seam a b c && e.2.1 == s.time.tick.toNat / 1000000000 with
    | none => exact hm
    | some e =>
      have he := List.find?_some hf
      exact h e (List.mem_of_find?_eq_some hf) (beq_iff_eq.1 (Bool.and_eq_true_iff.1 (he :)).1)

/-- How often the flit has been requested. -/
def requested (d : Dome) (l : LinkId) : Nat := ((d.retries.find? fun r => r.1 == l).map (·.2)).getD 0

section
variable {s : State} {l : LinkId} {d : Dome}

theorem exec_flitCrcFail (hd : getDome s (linkDome l) = some d) (f : FlitIn) : exec (.flitCrcFail l f) s = .next
    (if !linkLive d (normLink l) ∨ crc8 128 f.flit.toNat = f.crc.toNat then s
      else if (if f.again then requested d (normLink l) else 0) ≥ 16 then linkGone s (normLink l)
      else if ((((getDome (countRetry s d.ix (normLink l) ((if f.again then requested d (normLink l) else 0) + 1)) d.ix).bind fun x =>
          x.seamErr.find? fun e => e.1 == normLink l).map (·.2.2)).getD 0) > seamErrMax s
        then linkGone (countRetry s d.ix (normLink l) ((if f.again then requested d (normLink l) else 0) + 1)) (normLink l)
      else countRetry s d.ix (normLink l) ((if f.again then requested d (normLink l) else 0) + 1)) := by
  change execFlitCrcFail l f s = _
  unfold execFlitCrcFail
  rw [hd]
  rfl

/-- R363: a retry that neither the sixteen requests nor SEAM_ERR_MAX stop. -/
theorem flitRetried (hd : getDome s (linkDome l) = some d) {f : FlitIn} {n : Nat} (hn : (if f.again then requested d (normLink l) else 0) = n) (hlt : n < 16)
    (hbad : crc8 128 f.flit.toNat ≠ f.crc.toNat) (hlive : linkLive d (normLink l) = true) (hmax : 1 ≤ seamErrMax s)
    (herr : ∀ e ∈ d.seamErr, e.1 = normLink l → e.2.2 < seamErrMax s) :
    exec (.flitCrcFail l f) s = .next (countRetry s (linkDome l) (normLink l) (n + 1)) := by
  have hix : d.ix = linkDome l := by simpa using (List.find?_some hd :)
  rw [exec_flitCrcFail hd, hn, hix, if_neg (by rw [hlive]; simpa using hbad), if_neg (by omega), countRetry_getDome hd, Option.bind_some,
    if_neg (Nat.not_lt.2 (retried_count hmax herr))]

theorem countRetry_effect (hd : getDome s (linkDome l) = some d) (n : Nat) : ∃ e,
    (countRetry s (linkDome l) (normLink l) n).caravan = { s.caravan with linkretry := satInc s.caravan.linkretry } ∧
      getDome (countRetry s (linkDome l) (normLink l) n) (linkDome l) =
        some { d with retries := (d.retries.filter fun r => r.1 != normLink l) ++ [(normLink l, n)], seamErr := e } ∧
      (∀ j, j ≠ linkDome l → getDome (countRetry s (linkDome l) (normLink l) n) j = getDome s j) ∧
      countRetry s (linkDome l) (normLink l) n = { s with
        caravan := (countRetry s (linkDome l) (normLink l) n).caravan, domes := (countRetry s (linkDome l) (normLink l) n).domes } :=
  ⟨(retried s (normLink l) n d).seamErr, rfl, countRetry_getDome hd _ _, fun _ hj => countRetry_getDome_other s _ _ _ hj, rfl⟩

/-- The Spires that a mesh link's loss cuts off are lost: no Dome changes by it. -/
theorem foldl_lost_domes (code : Nat) (ix : Nat → Nat) (l : List Nat) (v : State) :
    (l.foldl (fun s x => tileInput (updTile s (ix x) fun t => { t with lost := true }) code (ix x) 0) v).domes = v.domes :=
  foldl_kept (g := State.domes) (fun v x => tileInput_same (updTile v (ix x) fun t => { t with lost := true }) _ _ _ .domes (by decide)) l v

/-- A Dome replaced whole. -/
theorem getDome_updDome_const {k : Nat} (h : getDome s k = some d) {y : Dome} (hy : y.ix = k) : getDome (updDome s k fun _ => y) k = some y := by
  have same : ((fun x : Dome => x.ix == k) ∘ fun x : Dome => if x.ix = k then y else x) = fun x => x.ix == k := by
    funext x
    by_cases e : x.ix = k
    · rw [Function.comp_apply, if_pos e, hy, e]
    · rw [Function.comp_apply, if_neg e]
  have hix := getDome_ix h
  unfold getDome updDome
  rw [List.find?_map, same]
  unfold getDome at h
  rw [h, Option.map_some, if_pos hix]

theorem meshDown_domes {k a b : Nat} (hd : getDome s k = some d) : ∃ o, (meshDown s k a b).domes =
    (updDome s k fun _ => { d with down := d.down ++ [LinkId.mesh k (min a b) (max a b)], order := o }).domes := by
  unfold meshDown
  rw [hd]
  exact ⟨_, (foldl_lost_domes _ _ _ _).trans (addRec_same _ _ .domes (by decide))⟩

/-- A mesh link that is down is live no more. -/
theorem meshDown_effect {k a b : Nat} (hd : getDome s k = some d) :
    (∃ d', getDome (meshDown s k a b) k = some d' ∧ linkLive d' (.mesh k (min a b) (max a b)) = false) ∧
    (meshDown s k a b).keep.alert.getLsbD alCaravan = true ∧ (meshDown s k a b).cistern.data = s.cistern.data := by
  refine ⟨?_, ?_, (meshDown_keeps k a b (Keeps.rfl_ _ s) (List.Subset.refl _)).same.bytes_eq.1⟩
  · obtain ⟨o, domes⟩ := meshDown_domes (a := a) (b := b) hd
    refine ⟨_, (congrArg (List.find? _) domes).trans (getDome_updDome_const hd (getDome_ix hd :)), ?_⟩
    rw [linkLive, normLink, Nat.min_eq_left (min_le_max), Nat.max_eq_right (min_le_max)]
    have : (d.down ++ [LinkId.mesh k (min a b) (max a b)]).contains (LinkId.mesh k (min a b) (max a b)) = true :=
      List.elem_iff.2 (List.mem_append_right _ (List.mem_singleton.2 rfl))
    rw [this]
    rfl
  · unfold meshDown
    rw [hd]
    exact alert_getLsbD _ (by decide)

/-- A Dome with a group of one direction disabled. -/
def groupOff (g : Nat) (up : Bool) (x : Dome) : Dome :=
  if up then { x with groupsUp := updAt x.groupsUp g fun _ => false } else { x with groupsDn := updAt x.groupsDn g fun _ => false }

theorem updAt_getD_false (l : List Bool) (g : Nat) : (updAt l g fun _ => false).getD g false = false := by
  rw [updAt, List.getD_eq_getElem?_getD, List.getElem?_modify_eq]
  cases l[g]? <;> rfl

theorem groupOff_notLive (x : Dome) (k g : Nat) (up : Bool) : linkLive (groupOff g up x) (.seam k g up) = false := by
  cases up <;> exact updAt_getD_false _ g

theorem linkLive_congr {x y : Dome} {k g : Nat} {up : Bool} (hu : y.groupsUp = x.groupsUp) (hd : y.groupsDn = x.groupsDn) :
    linkLive y (.seam k g up) = linkLive x (.seam k g up) := by rw [linkLive, linkLive, hu, hd]

/-- The seam groups of a Dome. -/
def groupsOf (x : Dome) : List Bool × List Bool := (x.groupsUp, x.groupsDn)

theorem bringFail_groups (cause j : Nat) : (getDome (bringFail s cause) j).map groupsOf = (getDome s j).map groupsOf ∧
    (bringFail s cause).keep.alert = s.keep.alert := by
  by_cases h : s.boot.step = 7
  · rw [bringFail, if_pos h]
    exact ⟨rfl, rfl⟩
  · rw [getDome_bringFail cause h, Option.map_map]
    exact ⟨rfl, (bringFail_keeps cause (Keeps.rfl_ _ s) (List.Subset.refl _)).same .alert (by decide)⟩

theorem cutOff_groups (d j : Nat) : (getDome { s with domes := s.domes.map fun y => if atOrBelow s d 64 y.ix then { y with up := false } else y } j).map groupsOf =
    (getDome s j).map groupsOf := by
  have same : ((fun x : Dome => x.ix == j) ∘ fun y : Dome => if atOrBelow s d 64 y.ix then { y with up := false } else y) = fun x => x.ix == j := by
    funext x
    rw [Function.comp_apply]
    split <;> rfl
  unfold getDome
  dsimp only
  rw [List.find?_map, same, Option.map_map]
  refine congrArg (fun f => Option.map f _) (funext fun x => ?_)
  rw [Function.comp_apply]
  split <;> rfl

/-- R362, R363: a live group is disabled, with its record. -/
theorem groupDown_groups {k g : Nat} {up : Bool} (wires : List Nat) (hd : getDome s k = some d) (hlive : linkLive d (.seam k g up) = true) :
    (getDome (groupDown s k g up wires) k).map groupsOf = some (groupsOf (groupOff g up d)) ∧
      (groupDown s k g up wires).keep.alert.getLsbD alCaravan = true := by
  have hl : ¬ (!(if up then d.groupsUp else d.groupsDn).getD g false) = true := by
    rw [show (if up then d.groupsUp else d.groupsDn).getD g false = true from hlive]
    decide
  unfold groupDown
  rw [hd]
  dsimp only
  rw [if_neg hl]
  generalize hl1 : updAt (if up = true then d.groupsUp else d.groupsDn) g (fun _ => false) = l1
  generalize hf : (fun y : Dome => if up = true then { y with groupsUp := l1 } else { y with groupsDn := l1 }) = f
  have off : f d = groupOff g up d := by
    rw [← hf, ← hl1]
    cases up <;> rfl
  have dome : getDome (updDome s k f) k = some (groupOff g up d) := by
    rw [getDome_updDome s k f fun x => by rw [← hf]; cases up <;> rfl, hd, Option.map_some, off]
  generalize updDome s k f = v at dome ⊢
  generalize hq : seamdeg v k up _ _ wires = q
  have degDome : (getDome q k).map groupsOf = some (groupsOf (groupOff g up d)) := by
    rw [← hq, getDome, (seamdeg_keeps k up _ _ wires (Keeps.rfl_ _ v) (List.Subset.refl _)).same .domes (by decide)]
    exact congrArg (Option.map groupsOf) dome
  have degAlert : q.keep.alert.getLsbD alCaravan = true := by
    rw [← hq]
    exact alert_getLsbD _ (by decide)
  have cut := (cutOff_groups (s := q) k k).trans degDome
  split
  · exact ⟨degDome, degAlert⟩
  · split
    · exact ⟨cut, degAlert⟩
    · obtain ⟨groups, alert⟩ := bringFail_groups (s := { q with domes := q.domes.map fun y => if atOrBelow q k 64 y.ix then { y with up := false } else y }) bfSeam k
      exact ⟨groups.trans cut, (congrArg (fun a : BitVec 12 => a.getLsbD alCaravan) alert).trans degAlert⟩

/-- A seam group that is disabled is live no more. -/
theorem groupDown_effect {k g : Nat} {up : Bool} (wires : List Nat) (hd : getDome s k = some d) (hlive : linkLive d (.seam k g up) = true) :
    (∃ d', getDome (groupDown s k g up wires) k = some d' ∧ linkLive d' (.seam k g up) = false) ∧
    (groupDown s k g up wires).keep.alert.getLsbD alCaravan = true ∧ (groupDown s k g up wires).cistern.data = s.cistern.data := by
  obtain ⟨groups, alert⟩ := groupDown_groups wires hd hlive
  obtain ⟨d', found, same⟩ := Option.map_eq_some_iff.1 groups
  exact ⟨⟨d', found, (linkLive_congr (congrArg Prod.fst same) (congrArg Prod.snd same)).trans (groupOff_notLive d k g up)⟩, alert,
    (groupDown_keeps k g up wires (Keeps.rfl_ _ s) (List.Subset.refl _)).same.bytes_eq.1⟩

/-- R363: a link that is taken down. -/
theorem linkGone_effect (hd : getDome s (linkDome l) = some d) (hlive : linkLive d (normLink l) = true) :
    (∃ d', getDome (linkGone s (normLink l)) (linkDome l) = some d' ∧ linkLive d' (normLink l) = false) ∧
    (linkGone s (normLink l)).keep.alert.getLsbD alCaravan = true ∧ (linkGone s (normLink l)).cistern.data = s.cistern.data := by
  cases l with
  | mesh k a b =>
    have := meshDown_effect (a := min a b) (b := max a b) hd
    rwa [Nat.min_eq_left (min_le_max), Nat.max_eq_right (min_le_max)] at this
  | seam k g up => exact groupDown_effect _ hd hlive

end

/-- R363: sixteen requests of a flit without success. -/
theorem flitCrcFail_linkGone {s : State} {l : LinkId} {d : Dome} {x : BitVec 128} {c : Byte} (hd : getDome s (linkDome l) = some d)
    (hbad : crc8 128 x.toNat ≠ c.toNat) (hlive : linkLive d (normLink l) = true) {n : Nat}
    (hn : d.retries.find? (fun r => r.1 == normLink l) = some (normLink l, n)) (hmany : 16 ≤ n) :
    ∃ t d', exec (.flitCrcFail l ⟨x, c, true⟩) s = .next t ∧ getDome t (linkDome l) = some d' ∧ linkLive d' (normLink l) = false ∧
      t.keep.alert.getLsbD alCaravan = true ∧ t.cistern.data = s.cistern.data := by
  have count : requested d (normLink l) = n := by rw [requested, hn]; rfl
  obtain ⟨⟨d', dome, dead⟩, alert, data⟩ := linkGone_effect hd hlive
  refine ⟨_, d', ?_, dome, dead, alert, data⟩
  rw [exec_flitCrcFail hd, if_neg (by rw [hlive]; simpa using hbad), if_pos rfl, count, if_pos hmany]

end Sys2Proof.Machine
end

section
/-! Grants within the capacity of an interval (R372 to R374). -/

set_option Elab.async false

namespace Sys2Proof.Machine

/-! ### Grants (R372 to R374) -/

/-- What the Dome's grants are judged by: the grants that stand and the witness bucket. -/
def grantsOf (x : Dome) : List (Nat × Nat × W64) × Nat := (x.granted, x.bucket)

/-- From `u` to `v` neither the tick, nor another Dome than `d`, nor its grants and its bucket change. -/
structure GrantsKept (d : Nat) (u v : State) : Prop where
  tick : v.time.tick = u.time.tick
  other : ∀ j, j ≠ d → getDome v j = getDome u j
  own : (getDome v d).map grantsOf = (getDome u d).map grantsOf

section
variable {d : Nat} {u v w : State}

theorem GrantsKept.rfl_ (d : Nat) (u : State) : GrantsKept d u u := ⟨rfl, fun _ _ => rfl, rfl⟩

theorem GrantsKept.trans (h : GrantsKept d u v) (g : GrantsKept d v w) : GrantsKept d u w :=
  ⟨g.tick.trans h.tick, fun j hj => (g.other j hj).trans (h.other j hj), g.own.trans h.own⟩

theorem GrantsKept.of_same {l : List Fld} (h : Same l u v) (hd : .domes ∉ l := by decide) (ht : .tick ∉ l := by decide) : GrantsKept d u v :=
  ⟨(h .tick ht :), fun _ _ => congrArg (List.find? _) (h .domes hd :), congrArg (fun x => (List.find? _ x).map grantsOf) (h .domes hd :)⟩

theorem GrantsKept.updDome (u : State) (f : Dome → Dome) (hix : ∀ x, (f x).ix = x.ix) (hg : ∀ x, grantsOf (f x) = grantsOf x) :
    GrantsKept d u (updDome u d f) :=
  ⟨rfl, fun _ hj => getDome_updDome_ne u f hix hj, by
    rw [getDome_updDome u d f hix, Option.map_map]
    exact congrArg (fun f => Option.map f _) (funext hg)⟩

theorem GrantsKept.bigDome (h : GrantsKept d u v) (k n : Nat) : GrantsKept d u (bigDome v d k n) := by
  unfold Machine.bigDome
  split
  · exact h.trans (GrantsKept.updDome v _ (fun _ => rfl) fun _ => rfl)
  · exact h

theorem GrantsKept.countVerdicts (h : GrantsKept d u v) (n : Nat) : GrantsKept d u (countVerdicts v d n) :=
  h.trans (GrantsKept.updDome v _ (fun _ => rfl) fun _ => rfl)

theorem GrantsKept.ite {c : Prop} [Decidable c] (hv : GrantsKept d u v) (hw : GrantsKept d u w) : GrantsKept d u (if c then v else w) := by
  split
  · exact hv
  · exact hw

theorem GrantsKept.verdictStorm (h : GrantsKept d u v) (n : Nat) : GrantsKept d u (verdictStorm v d n) := by
  have flagged (x : Bool) : GrantsKept d u { v with caravan := { v.caravan with vstorm := x } } := h.trans ⟨rfl, fun _ _ => rfl, rfl⟩
  refine GrantsKept.ite h (GrantsKept.ite (flagged true) (((flagged true).trans (GrantsKept.updDome _ _ ?_ ?_)).trans (GrantsKept.of_same (addRec_same _ _))))
  · exact fun _ => rfl
  · exact fun _ => rfl

/-- A Spire is granted 256 bytes at this tick, and nothing of it but what the bucket pays. -/
structure Grants (d sp : Nat) (u v : State) : Prop where
  tick : v.time.tick = u.time.tick
  other : ∀ j, j ≠ d → getDome v j = getDome u j
  own : ∀ x, getDome u d = some x → ∃ y, getDome v d = some y ∧ y.granted = x.granted ++ [(sp, 256, u.time.tick)] ∧ y.bucket ≤ x.bucket

theorem Grants.trans {sp : Nat} (h : Grants d sp u v) (g : GrantsKept d v w) : Grants d sp u w where
  tick := g.tick.trans h.tick
  other j hj := (g.other j hj).trans (h.other j hj)
  own x hx := by
    obtain ⟨y, hy, granted, bucket⟩ := h.own x hx
    have own := g.own
    rw [hy, Option.map_some] at own
    obtain ⟨z, hz, same⟩ := Option.map_eq_some_iff.1 own
    exact ⟨z, hz, (congrArg Prod.fst same).trans granted, (congrArg Prod.snd same).le.trans bucket⟩

theorem Grants.updDome {sp : Nat} (u : State) (f : Dome → Dome) (hix : ∀ x, (f x).ix = x.ix)
    (hg : ∀ x, (f x).granted = x.granted ++ [(sp, 256, u.time.tick)] ∧ (f x).bucket ≤ x.bucket) : Grants d sp u (updDome u d f) :=
  ⟨rfl, fun _ hj => getDome_updDome_ne u f hix hj, fun x hx => ⟨f x, by rw [getDome_updDome u d f hix, hx]; rfl, hg x⟩⟩

theorem grantWit_grants (d sp : Nat) (u : State) : Grants d sp u (grantWit d u sp) := by
  unfold grantWit
  dsimp only
  generalize ((getDome u d).bind fun x => (x.backlog.find? fun b => b.1 == sp).map (·.2)).getD (0, 0, 0) = b
  have paid := Grants.updDome (d := d) (sp := sp) u (fun x => { x with
    backlog := x.backlog.map fun e => if e.1 = sp then (sp, b.1 - min 256 b.1, b.2) else e
    granted := x.granted ++ [(sp, 256, u.time.tick)]
    witServed := updAt x.witServed (partOfSp u sp) (· + 256)
    bucket := x.bucket - 256 }) (fun _ => rfl) fun x => ⟨rfl, Nat.sub_le _ _⟩
  refine paid.trans (GrantsKept.bigDome (GrantsKept.bigDome ?_ _ _) _ _)
  exact (GrantsKept.of_same (updSp_keeps sp _ (Keeps.rfl_ _ _) (List.Subset.refl _)).same).trans
    (GrantsKept.of_same (inject_keeps sp (Keeps.rfl_ _ _) (List.Subset.refl _)).same)

theorem grantRec_grants (d sp : Nat) (u : State) : Grants d sp u (grantRec d u sp) := by
  unfold grantRec
  dsimp only
  generalize ((getDome u d).bind fun x => (x.backlog.find? fun b => b.1 == sp).map (·.2)).getD (0, 0, 0) = b
  have paid := Grants.updDome (d := d) (sp := sp) u (fun x => { x with
    backlog := x.backlog.map fun e => if e.1 = sp then (sp, b.1, b.2.1 - min 256 b.2.1, b.2.2 - min (256 - min 256 b.2.1) b.2.2) else e
    granted := x.granted ++ [(sp, 256, u.time.tick)] }) (fun _ => rfl) fun x => ⟨rfl, le_rfl⟩
  refine paid.trans ((GrantsKept.bigDome (GrantsKept.bigDome (GrantsKept.bigDome ?_ _ _) _ _) _ _).trans
    (GrantsKept.of_same (drainBulk_keeps sp _ (Keeps.rfl_ _ _) (List.Subset.refl _)).same))
  exact GrantsKept.rfl_ d _

end

/-! ### A grant interval within its capacity -/

section
variable (s : State) (d0 : Dome) (d C : Nat)

/-- The grants that stand at the beginning of an interval. -/
def freshOf : List (Nat × Nat × W64) := d0.granted.filter fun g => decide (s.time.tick.toNat < g.2.2.toNat + 1024)

/-- Within an interval of the Dome `d`, which begins as `d0` in `s`: of the capacity `C` the bytes `cap` are left. -/
def Within (cap : Nat) (u : State) : Prop := u.time.tick = s.time.tick ∧ (∀ j, j ≠ d → getDome u j = getDome s j) ∧
  ∃ x new, getDome u d = some x ∧ x.granted = freshOf s d0 ++ new ∧ (∀ g ∈ new, g.2.2 = s.time.tick) ∧ (new.map (·.2.1)).sum + cap = C ∧
    (∀ i, recentGrants s d0 i ≤ 2048 → recentGrants u x i ≤ 2048) ∧ x.bucket ≤ 65536

end

section
variable {s : State} {d0 : Dome} {d C : Nat} {u v : State} {cap : Nat}

theorem recentGrants_eq_sum (s : State) (x : Dome) (i : Nat) :
    recentGrants s x i = ((x.granted.filter fun g => g.1 == i && decide (s.time.tick.toNat < g.2.2.toNat + 1024)).map (·.2.1)).sum :=
  List.sum_eq_foldl.symm

/-- A grant of this tick counts at once, for the Spire that it names. -/
theorem recentGrants_push {x y : Dome} (htick : v.time.tick = u.time.tick) {sp : Nat} (h : y.granted = x.granted ++ [(sp, 256, u.time.tick)]) (i : Nat) :
    recentGrants v y i = recentGrants u x i + if sp = i then 256 else 0 := by
  rw [recentGrants_eq_sum, recentGrants_eq_sum, h, htick, List.filter_append, List.map_append, List.sum_append]
  congr 1
  by_cases e : sp = i
  · rw [if_pos e, List.filter_cons_of_pos (by simp [e])]
    rfl
  · rw [if_neg e, List.filter_cons_of_neg (by simp [e])]
    rfl

theorem mem_busySpires {p : Nat} {f : Nat × Nat × Nat → Nat} {x : Dome} {i : Nat} (h : i ∈ busySpires u x p f) : recentGrants u x i + 256 ≤ 2048 := by
  rw [busySpires, List.mem_insertionSort] at h
  obtain ⟨b, hb, rfl⟩ := List.mem_map.1 h
  have := (List.mem_filter.1 hb).2
  rw [Bool.and_eq_true_iff] at this
  exact of_decide_eq_true this.2

theorem Within.grant (h : Within s d0 d C cap u) (hcap : 256 ≤ cap) {x : Dome} (hx : getDome u d = some x) {sp : Nat}
    (hsp : recentGrants u x sp + 256 ≤ 2048) (g : Grants d sp u v) : Within s d0 d C (cap - 256) v := by
  obtain ⟨tick, other, x', new, hx', granted, now, sum, recent, bucket⟩ := h
  obtain rfl : x' = x := Option.some.inj (hx'.symm.trans hx)
  obtain ⟨y, hy, ygranted, ybucket⟩ := g.own x' hx
  refine ⟨g.tick.trans tick, fun j hj => (g.other j hj).trans (other j hj), y, new ++ [(sp, 256, s.time.tick)], hy, ?_, ?_, ?_, fun i hi => ?_, ybucket.trans bucket⟩
  · rw [ygranted, granted, tick, List.append_assoc]
  · intro e he
    rcases List.mem_append.1 he with he | he
    · exact now e he
    · rw [List.mem_singleton.1 he]
  · rw [List.map_append, List.sum_append]
    change _ + (256 + 0) + _ = _
    omega
  · rw [recentGrants_push g.tick ygranted]
    split
    · next e => exact e ▸ hsp
    · exact recent i hi

theorem Within.kept (h : Within s d0 d C cap u) (g : GrantsKept d u v) : Within s d0 d C cap v := by
  obtain ⟨tick, other, x, new, hx, granted, now, sum, recent, bucket⟩ := h
  have own := g.own
  rw [hx, Option.map_some] at own
  obtain ⟨y, hy, same⟩ := Option.map_eq_some_iff.1 own
  refine ⟨g.tick.trans tick, fun j hj => (g.other j hj).trans (other j hj), y, new, hy, (congrArg Prod.fst same).trans granted, now, sum, fun i hi => ?_,
    (congrArg Prod.snd same).le.trans bucket⟩
  rw [recentGrants, show y.granted = x.granted from congrArg Prod.fst same, g.tick]
  exact recent i hi

theorem leastGranted_mem {x : Dome} {l : List Nat} {i : Nat} (h : leastGranted u x l = some i) : i ∈ l := by
  have gen (l : List Nat) (b : Option Nat) (hb : (l.foldl (fun b i => match b with
      | none => some i
      | some j => if recentGrants u x i < recentGrants u x j then some i else some j) b) = some i) : i ∈ l ∨ b = some i := by
    induction l generalizing b with
    | nil => exact .inr hb
    | cons a l ih =>
      rcases ih _ hb with h | h
      · exact .inl (List.mem_cons_of_mem _ h)
      · cases b with
        | none => exact .inl (Option.some.inj h ▸ List.mem_cons_self)
        | some j =>
          dsimp only at h
          split at h
          · exact .inl (Option.some.inj h ▸ List.mem_cons_self)
          · exact .inr h
  exact (gen l none h).resolve_right (by simp)

theorem nextSpire_mem {ptr : Nat} {l : List Nat} {i : Nat} (h : nextSpire ptr l = some i) : i ∈ l := by
  rcases Option.or_eq_some_iff.1 h with h | ⟨-, h⟩
  · exact List.mem_of_find?_eq_some h
  · exact List.mem_of_mem_head? h

/-- R373: the witness grants. -/
theorem grantWits_within (n : Nat) (h : Within s d0 d C cap u) : Within s d0 d C (grantWits d n cap u).1 (grantWits d n cap u).2 ∧ (grantWits d n cap u).1 ≤ cap := by
  induction n generalizing cap u with
  | zero => exact ⟨h, le_rfl⟩
  | succ n ih =>
    unfold grantWits
    split
    · next sp hsp =>
      split
      · exact ⟨h, le_rfl⟩
      · next hcap =>
        obtain ⟨x, hx, hsp⟩ := Option.bind_eq_some_iff.1 hsp
        obtain ⟨p, -, hsp⟩ := Option.bind_eq_some_iff.1 hsp
        obtain ⟨within, le⟩ := ih (h.grant (by omega) hx (mem_busySpires (leastGranted_mem hsp)) (grantWit_grants d sp u))
        exact ⟨within, le.trans (Nat.sub_le _ _)⟩
    · exact ⟨h, le_rfl⟩

section
variable {kind : Nat × Nat × Nat → Nat} {grant : State → Nat → State} (hg : ∀ v sp, Grants d sp v (grant v sp))
include hg

theorem drrGrants_within (p n : Nat) (r : Drr) (h : Within s d0 d C r.cap r.st) :
    Within s d0 d C (drrGrants d p kind grant n r).cap (drrGrants d p kind grant n r).st := by
  induction n generalizing r with
  | zero => exact h
  | succ n ih =>
    unfold drrGrants
    split
    · exact h
    · next x hx =>
      split
      · exact h
      · next sp hsp =>
        split
        · exact h
        · next hcap => exact ih _ (h.grant (by omega) hx (mem_busySpires (nextSpire_mem hsp)) (hg r.st sp))

theorem drrPart_within (r : Drr) (p : Nat) (h : Within s d0 d C r.cap r.st) : Within s d0 d C (drrPart d kind grant r p).cap (drrPart d kind grant r p).st := by
  unfold drrPart
  split
  · exact h
  · split
    · exact h
    · exact drrGrants_within hg p _ { r with deficit := _ } h

/-- R374: the rounds of deficit round robin. -/
theorem drr_within (n : Nat) (r : Drr) (h : Within s d0 d C r.cap r.st) : Within s d0 d C (drr d kind grant n r).cap (drr d kind grant n r).st := by
  induction n generalizing r with
  | zero => exact h
  | succ n ih =>
    have round (l : List Nat) (r : Drr) (h : Within s d0 d C r.cap r.st) :
        Within s d0 d C (l.foldl (drrPart d kind grant) r).cap (l.foldl (drrPart d kind grant) r).st := by
      induction l generalizing r with
      | nil => exact h
      | cons p l ih => exact ih _ (drrPart_within hg r p h)
    unfold drr
    split
    · exact h
    · split
      · exact h
      · exact ih _ (round _ r h)

end

end

section
variable {s : State} {dome : Nat} {d : Dome}

/-- The witness bucket of an interval. -/
def bucketOf (s : State) (d : Dome) : Nat := min 65536 (d.bucket + (if inSafe s uCvn then 0 else ((area s).map (·.witRate)).getD 8) * 64)

/-- R369: an interval begins with its verdict bytes. -/
def verdictsSent (s : State) (d : Dome) (dome vrate : Nat) : State :=
  countVerdicts (bigDome (bigDome (bigDome { s with rng := s.rng + 1 } dome 2 (min (d.vqueue + vrate * 64) (64 * 24))) dome 0 (min (d.vqueue + vrate * 64) (64 * 24)))
    dome 1 ((Config.unstated s.rng).toNat / 2 ^ 32)) dome vrate

/-- R372, R373: the bucket and the grants that stand at the beginning of an interval. -/
def intervalBegun (s : State) (d : Dome) (dome vrate : Nat) : State :=
  verdictStorm (updDome (verdictsSent s d dome vrate) dome fun x => raiseIdle s { x with bucket := bucketOf s d, granted := freshOf s d }) dome vrate

theorem raiseIdle_frame (x : Dome) : (raiseIdle s x).ix = x.ix ∧ grantsOf (raiseIdle s x) = grantsOf x := by
  unfold raiseIdle
  split <;> exact ⟨rfl, rfl⟩

theorem recentGrants_fresh {y : Dome} (htick : u.time.tick = s.time.tick) (h : y.granted = freshOf s d) (i : Nat) : recentGrants u y i = recentGrants s d i := by
  rw [recentGrants, recentGrants, h, htick, freshOf, List.filter_filter]
  exact congrArg (fun l => (List.map _ l).foldl _ 0) (List.filter_congr fun g _ => by
    cases g.1 == i <;> cases decide (s.time.tick.toNat < g.2.2.toNat + 1024) <;> rfl)

theorem intervalBegun_within (vrate C : Nat) (hd : getDome s dome = some d) : Within s d dome C C (intervalBegun s d dome vrate) := by
  have drawn : GrantsKept dome s { s with rng := s.rng + 1 } := ⟨rfl, fun _ _ => rfl, rfl⟩
  have sent : GrantsKept dome s (verdictsSent s d dome vrate) := by
    unfold verdictsSent
    exact (((drawn.bigDome _ _).bigDome _ _).bigDome _ _).countVerdicts _
  unfold intervalBegun
  generalize verdictsSent s d dome vrate = u at sent ⊢
  refine Within.kept ?_ (GrantsKept.verdictStorm (GrantsKept.rfl_ dome _) vrate)
  have own := sent.own
  rw [hd, Option.map_some] at own
  obtain ⟨y, hy, same⟩ := Option.map_eq_some_iff.1 own
  have frame (x : Dome) := raiseIdle_frame (s := s) { x with bucket := bucketOf s d, granted := freshOf s d }
  refine ⟨sent.tick, fun j hj => (getDome_updDome_ne u _ (fun x => (frame x).1) hj).trans (sent.other j hj),
    raiseIdle s { y with bucket := bucketOf s d, granted := freshOf s d }, [], ?_, ?_, ?_, ?_, ?_, ?_⟩
  · rw [getDome_updDome u dome _ fun x => (frame x).1, hy]
    rfl
  · exact (congrArg Prod.fst (frame y).2 : _ = freshOf s d).trans (List.append_nil _).symm
  · exact fun _ h => absurd h List.not_mem_nil
  · exact Nat.zero_add C
  · exact fun i hi => (recentGrants_fresh sent.tick (congrArg Prod.fst (frame y).2) i).le.trans hi
  · exact (congrArg Prod.snd (frame y).2).le.trans (Nat.min_le_left _ _)

/-- The capacity of an interval, and that of its witness grants. -/
def intervalCap (vrate : Nat) : Nat := max 8 (32 - vrate) * 64
def witCap (s : State) (d : Dome) (vrate : Nat) : Nat := min (intervalCap vrate) (bucketOf s d)

def witsGranted (s : State) (d : Dome) (dome vrate : Nat) : Nat × State :=
  grantWits dome (witCap s d vrate / 256) (witCap s d vrate) (intervalBegun s d dome vrate)

def bulkGranted (s : State) (d : Dome) (dome vrate : Nat) : Drr :=
  drr dome kindBulk (grantRec dome) (intervalCap vrate / 64 + 4)
    ⟨d.deficit, d.nextSp, intervalCap vrate - (witCap s d vrate - (witsGranted s d dome vrate).1), (witsGranted s d dome vrate).2⟩

theorem exec_grantInterval (vrate : Nat) (hd : getDome s dome = some d) : exec (.grantInterval dome vrate) s =
    .next (updDome (bulkGranted s d dome vrate).st dome fun x =>
      { x with deficit := (bulkGranted s d dome vrate).deficit, nextSp := (bulkGranted s d dome vrate).ptrs }) := by
  change execGrantInterval dome vrate s = _
  unfold execGrantInterval
  rw [hd]
  rfl

theorem bulkGranted_within (vrate : Nat) (hd : getDome s dome = some d) :
    Within s d dome (intervalCap vrate) (bulkGranted s d dome vrate).cap (bulkGranted s d dome vrate).st := by
  obtain ⟨⟨tick, other, x, new, hx, granted, now, sum, recent, bucket⟩, le⟩ :=
    grantWits_within (witCap s d vrate / 256) (intervalBegun_within vrate (witCap s d vrate) hd)
  have hle : witCap s d vrate ≤ intervalCap vrate := Nat.min_le_left _ _
  refine drr_within (fun v sp => grantRec_grants dome sp v) _ _ ⟨tick, other, x, new, hx, granted, now, ?_, recent, bucket⟩
  change (new.map (·.2.1)).sum + (intervalCap vrate - (witCap s d vrate - (witsGranted s d dome vrate).1)) = intervalCap vrate
  rw [← witsGranted] at sum
  omega

theorem grantInterval_effect (vrate : Nat) (hd : getDome s dome = some d) :
    ∃ t d' new, exec (.grantInterval dome vrate) s = .next t ∧ getDome t dome = some d' ∧
      d'.granted = (d.granted.filter fun g => decide (s.time.tick.toNat < g.2.2.toNat + 1024)) ++ new ∧ (∀ g ∈ new, g.2.2 = s.time.tick) ∧
      (new.map (·.2.1)).sum ≤ max 8 (32 - vrate) * 64 ∧ (∀ i, recentGrants s d i ≤ 2048 → recentGrants t d' i ≤ 2048) ∧ d'.bucket ≤ 65536 ∧
      (∀ j, j ≠ dome → getDome t j = getDome s j) ∧ t.tiles = s.tiles ∧ t.ops = s.ops ∧ t.cistern.data = s.cistern.data := by
  have run := exec_grantInterval vrate hd
  obtain ⟨t, run', keeps⟩ := execGrantInterval_keeps dome vrate (Keeps.rfl_ _ s) (List.Subset.refl _)
  obtain rfl := Host.Outcome.next.inj (run.symm.trans run')
  have within := (bulkGranted_within vrate hd).kept (GrantsKept.updDome (bulkGranted s d dome vrate).st (fun x =>
      { x with deficit := (bulkGranted s d dome vrate).deficit, nextSp := (bulkGranted s d dome vrate).ptrs }) (fun _ => rfl) fun _ => rfl)
  obtain ⟨-, other, x, new, hx, granted, now, sum, recent, bucket⟩ := within
  exact ⟨_, x, new, run, hx, granted, now, (Nat.le_add_right _ _).trans sum.le, recent, bucket, other,
    keeps.same .tiles (by decide), keeps.same .ops (by decide), keeps.same.bytes_eq.1⟩

end

theorem exec_grantInterval_none {s : State} {dome : Nat} (vrate : Nat) (h : getDome s dome = none) : exec (.grantInterval dome vrate) s = .next s := by
  change execGrantInterval dome vrate s = _
  unfold execGrantInterval
  rw [h]

/-- R372: the report of a Spire's backlog at its Dome. -/
theorem backlogReport_effect {s : State} {sp : Nat} (wit rec bulk : Nat) {x : Spire} {d : Dome} (hx : getSp s sp = some x) (hd : getDome s (sp / 256) = some d) :
    ∃ t, exec (.backlogReport sp wit rec bulk) s = .next t ∧
      getDome t (sp / 256) = some { d with backlog := (d.backlog.filter fun b => b.1 != sp) ++ [(sp, wit, rec, bulk)] } ∧
      (∀ j, j ≠ sp / 256 → getDome t j = getDome s j) ∧ t = { s with domes := t.domes } := by
  have run : exec (.backlogReport sp wit rec bulk) s = .next (updDome s (sp / 256) fun d =>
      { d with backlog := (d.backlog.filter fun b => b.1 != sp) ++ [(sp, wit, rec, bulk)] }) := by
    change execBacklogReport sp wit rec bulk s = _
    unfold execBacklogReport onSp
    rw [hx]
  have own := getDome_updDome s (sp / 256) (fun d => { d with backlog := (d.backlog.filter fun b => b.1 != sp) ++ [(sp, wit, rec, bulk)] }) fun _ => rfl
  rw [hd] at own
  exact ⟨_, run, own, fun _ hj => getDome_updDome_ne s _ (fun _ => rfl) hj, rfl⟩

/-- Settles O50, from what a failed flit's retry counts and what keeps the grants of an interval within its capacity. -/
theorem caravanRetriesAndGrants : Obligations.CaravanRetriesAndGrants := by
  refine ⟨fun s l d x c hd hbad => ⟨fun hlive hmax herr => ⟨?_, fun n hn hlt => ?_⟩, fun n hlive hn hmany => flitCrcFail_linkGone hd hbad hlive hn hmany,
    fun hdead a => ?_, fun y a hy hlt => ?_⟩, fun s sp wit rec bulk x d hx hd => backlogReport_effect wit rec bulk hx hd,
    fun s dome vrate d hd => grantInterval_effect vrate hd, fun s dome vrate h => exec_grantInterval_none vrate h⟩
  · obtain ⟨e, effect⟩ := countRetry_effect hd 1
    exact ⟨_, e, flitRetried hd (n := 0) rfl (by decide) hbad hlive hmax herr, effect⟩
  · obtain ⟨e, caravan, dome, other, frame⟩ := countRetry_effect hd (n + 1)
    have count : requested d (normLink l) = n := by rw [requested, hn]; rfl
    exact ⟨_, e, flitRetried hd (f := ⟨x, c, true⟩) count hlt hbad hlive hmax herr, caravan, dome, frame⟩
  · exact (exec_flitCrcFail hd _).trans (congrArg Host.Outcome.next (if_pos (.inl (by rw [hdead]; rfl))))
  · refine (exec_flitCrcFail hd _).trans (congrArg Host.Outcome.next (if_pos (.inr ?_)))
    change crc8 128 (BitVec.ofNat 128 y).toNat = c.toNat
    rwa [BitVec.toNat_ofNat, Nat.mod_eq_of_lt hlt]

end Sys2Proof.Machine
end

section
/-! The phase commands of a partition and a job's start (R208, R247, R250, R261). -/

set_option Elab.async false

namespace Sys2Proof.Machine

/-! ### The phase commands of a partition (R247, R250, R261) -/

theorem updAt_id {α : Type} (l : List α) (i : Nat) (f : α → α) (a : α) (hf : f (l.getD i a) = l.getD i a) : updAt l i f = l := by
  refine List.ext_getElem? fun j => ?_
  rw [updAt, List.getElem?_modify]
  split
  · next e =>
    subst e
    rw [List.getD_eq_getElem?_getD] at hf
    cases h : l[i]? with
    | none => rfl
    | some x =>
      rw [h] at hf
      exact congrArg some hf
  · exact id_map' _

theorem updPart_id {s : State} {p : Nat} {f : Part → Part} (h : f (getPart s p) = getPart s p) : updPart s p f = s := by
  have : updAt s.parts p f = s.parts := updAt_id s.parts p f Part.reset h
  rw [updPart, this]

/-- A change of one partition that is there. -/
theorem updPart_effect {s : State} {p : Nat} (hp : p < s.parts.length) {f : Part → Part} {q : Part} (h : f (getPart s p) = q) :
    getPart (updPart s p f) p = q ∧ (∀ j, j ≠ p → getPart (updPart s p f) j = getPart s j) ∧ updPart s p f = { s with parts := (updPart s p f).parts } :=
  ⟨(getPart_updPart s p f hp).trans h, fun _ hj => getPart_updPart_ne s f hj, rfl⟩

section
variable {s : State} {p : Nat} (hp : p < s.parts.length)
include hp

theorem ckptOpen_effect (hw : (getPart s p).window = none) (hr : (getPart s p).rb = none) :
    ∃ t w, exec (.ckptOpen p) s = .next t ∧ (getPart t p) = { getPart s p with window := some w } ∧
      w.phase = 0 ∧ w.era = (getPart s p).pos.era ∧ w.step = (getPart s p).pos.step ∧ w.layer = (getPart s p).pos.layer ∧
      w.epoch = (getPart s p).epoch ∧ w.openTick = s.time.tick ∧ w.wr = Ckd.zero ∧ w.rd = Ckd.zero ∧
      (∀ q, q ≠ p → getPart t q = getPart s q) ∧ t = { s with parts := t.parts, rng := t.rng } := by
  have go : ¬ ((getPart s p).window.isSome = true ∨ (getPart s p).rb.isSome = true) := by rw [hw, hr]; decide
  refine ⟨_, _, congrArg Host.Outcome.next (if_neg go), getPart_updPart { s with rng := s.rng + 1 + 1 } p _ hp, rfl, rfl, rfl, rfl, rfl, rfl, rfl, rfl, ?_, rfl⟩
  exact fun q hq => getPart_updPart_ne { s with rng := s.rng + 1 + 1 } _ hq

end

theorem ckptOpen_idle {s : State} {p : Nat} (h : (getPart s p).window.isSome = true ∨ (getPart s p).rb.isSome = true) : exec (.ckptOpen p) s = .next s :=
  congrArg Host.Outcome.next (if_pos h)

section
variable {s : State} {p : Nat} {w : Window} (hw : (getPart s p).window = some w)
include hw

theorem ckptWritten_effect (hp : p < s.parts.length) (h : w.phase = 0) : ∃ t w', exec (.ckptWritten p) s = .next t ∧
    getPart t p = { getPart s p with window := some w' } ∧ w' = { w with phase := 1, writtenTick := s.time.tick, bad250 := w'.bad250 } ∧
    (∀ q, q ≠ p → getPart t q = getPart s q) ∧ t = { s with parts := t.parts } := by
  obtain ⟨own, other, frame⟩ := updPart_effect hp (f := fun q => { q with window := q.window.map fun w : Window =>
    if w.phase = 0 then { w with phase := 1, writtenTick := s.time.tick, bad250 := badAtWritten w } else w })
    (q := { getPart s p with window := some { w with phase := 1, writtenTick := s.time.tick, bad250 := badAtWritten w } }) (by rw [hw, Option.map_some, if_pos h])
  exact ⟨_, _, rfl, own, rfl, other, frame⟩

theorem ckptRead_effect (hp : p < s.parts.length) (h : w.phase = 1) : ∃ t, exec (.ckptRead p) s = .next t ∧
    getPart t p = { getPart s p with window := some { w with phase := 2, readTick := s.time.tick } } ∧
    (∀ q, q ≠ p → getPart t q = getPart s q) ∧ t = { s with parts := t.parts } := by
  obtain ⟨own, other, frame⟩ := updPart_effect hp (f := fun q => { q with window := q.window.map fun w : Window =>
    if w.phase = 1 then { w with phase := 2, readTick := s.time.tick } else w })
    (q := { getPart s p with window := some { w with phase := 2, readTick := s.time.tick } }) (by rw [hw, Option.map_some, if_pos h])
  exact ⟨_, rfl, own, other, frame⟩

theorem ckptWritten_idle (h : w.phase ≠ 0) : exec (.ckptWritten p) s = .next s :=
  congrArg Host.Outcome.next (updPart_id (by
    rw [hw, Option.map_some, if_neg h, ← hw]))

theorem ckptRead_idle (h : w.phase ≠ 1) : exec (.ckptRead p) s = .next s :=
  congrArg Host.Outcome.next (updPart_id (by
    rw [hw, Option.map_some, if_neg h, ← hw]))

end

section
variable {s : State} {p : Nat} {r : Rollback} (hr : (getPart s p).rb = some r)
include hr

theorem restoreBegin_effect (hp : p < s.parts.length) (hb : r.beginEpoch = none) (he : earlierThan (getPart s p).epoch r.floor = false) :
    ∃ t, exec (.restoreBegin p) s = .next t ∧ getPart t p = { getPart s p with rb := some { r with beginEpoch := some (getPart s p).epoch } } ∧
      (∀ q, q ≠ p → getPart t q = getPart s q) ∧ t = { s with parts := t.parts } := by
  have go : r.beginEpoch.isNone = true ∧ (!earlierThan (getPart s p).epoch r.floor) = true := by rw [hb, he]; exact ⟨rfl, rfl⟩
  obtain ⟨own, other, frame⟩ := updPart_effect hp (f := fun q => { q with rb := q.rb.map fun r : Rollback =>
    if r.beginEpoch.isNone ∧ (!earlierThan q.epoch r.floor) = true then { r with beginEpoch := some q.epoch } else r })
    (q := { getPart s p with rb := some { r with beginEpoch := some (getPart s p).epoch } }) (by
      rw [hr]
      exact congrArg (fun x => { getPart s p with rb := some x }) (if_pos go))
  exact ⟨_, rfl, own, other, frame⟩

theorem restoreBegin_idle (h : earlierThan (getPart s p).epoch r.floor = true ∨ r.beginEpoch ≠ none) : exec (.restoreBegin p) s = .next s := by
  have stop : ¬ (r.beginEpoch.isNone = true ∧ (!earlierThan (getPart s p).epoch r.floor) = true) := by
    rintro ⟨hn, he⟩
    rcases h with h | h
    · rw [h] at he
      exact absurd he (by decide)
    · exact h (Option.isNone_iff_eq_none.1 hn)
  refine congrArg Host.Outcome.next (updPart_id ?_)
  rw [hr]
  exact (congrArg (fun x => { getPart s p with rb := some x }) (if_neg stop)).trans (by rw [← hr])

theorem restoreEnd_effect (hp : p < s.parts.length) (hb : r.beginEpoch ≠ none) (he : r.ended = none) : ∃ t, exec (.restoreEnd p) s = .next t ∧
    getPart t p = { getPart s p with rb := some { r with ended := some s.time.tick } } ∧
    (∀ q, q ≠ p → getPart t q = getPart s q) ∧ t = { s with parts := t.parts } := by
  have go : r.beginEpoch.isSome = true ∧ r.ended.isNone = true := ⟨Option.isSome_iff_ne_none.2 hb, by rw [he]; rfl⟩
  obtain ⟨own, other, frame⟩ := updPart_effect hp (f := fun q => { q with rb := q.rb.map fun r : Rollback =>
    if r.beginEpoch.isSome ∧ r.ended.isNone then { r with ended := some s.time.tick } else r })
    (q := { getPart s p with rb := some { r with ended := some s.time.tick } }) (by rw [hr, Option.map_some, if_pos go])
  exact ⟨_, rfl, own, other, frame⟩

theorem restoreEnd_idle (h : r.beginEpoch = none ∨ r.ended ≠ none) : exec (.restoreEnd p) s = .next s := by
  have stop : ¬ (r.beginEpoch.isSome = true ∧ r.ended.isNone = true) := by
    rintro ⟨hn, he⟩
    exact h.elim (Option.isSome_iff_ne_none.1 hn) fun h => h (Option.isNone_iff_eq_none.1 he)
  refine congrArg Host.Outcome.next (updPart_id ?_)
  rw [hr, Option.map_some, if_neg stop, ← hr]

end

/-! ### A job's start (R208) -/

/-- What a job's start settles of its partition, but for the interval and the notes. -/
def jobOf (q : Part) : Bool × Bool × List Envelope × List TagEnt × Option ArmedDump × List Gen × Nat :=
  (q.job, q.norecov, q.envs, q.tags, q.armed, q.gens, q.maxGen)

theorem parts_length_updPart (s : State) (p : Nat) (f : Part → Part) : (updPart s p f).parts.length = s.parts.length := List.length_modify _ _ _

section
variable (s : State) (p : Nat)

/-- R208: the partition of a job that starts, before its notes. -/
def jobCleared : State := updPart (subUse s p (2 * ((getPart s p).tags.length - 1))) p fun q => { q with
  job := true, norecov := false, envs := [], envFirst := [], tags := [TagEnt.rest], armed := none, gens := [], failed := [], named := [], c4Open := false, lastRcv := none }

/-- R254: OASIS_FREE for each generation. -/
def gensFreed (l : List Gen) : State := l.foldl (fun s g => freeNote s p g false) s

theorem gensFreed_effect (l : List Gen) (hp : p < s.parts.length) : (gensFreed s p l).parts.length = s.parts.length ∧
    (∀ q, q ≠ p → getPart (gensFreed s p l) q = getPart s q) ∧ jobOf (getPart (gensFreed s p l) p) = jobOf (getPart s p) ∧
    (getPart (gensFreed s p l) p).logs.notes.prod = (getPart s p).logs.notes.prod + l.length := by
  induction l generalizing s with
  | nil => exact ⟨rfl, fun _ _ => rfl, rfl, rfl⟩
  | cons g l ih =>
    obtain ⟨len, other, own, notes⟩ := ih (freeNote s p g false) ((parts_length_updPart s p _).symm ▸ hp)
    refine ⟨len.trans (parts_length_updPart s p _), fun q hq => (other q hq).trans (getPart_updPart_ne s _ hq), own.trans (post_getPart jobOf (fun _ _ => rfl) s p p _ _ _), ?_⟩
    have one : (getPart (freeNote s p g false) p).logs.notes.prod = (getPart s p).logs.notes.prod + 1 :=
      congrArg (fun q : Part => q.logs.notes.prod) (getPart_updPart s p _ hp)
    refine notes.trans ?_
    rw [one, List.length_cons]
    omega

/-- R208: an armed dump is over. -/
def armedEnded (a : Option ArmedDump) : State := if a.isSome then dumpOver s p 0 else s

theorem armedEnded_parts (a : Option ArmedDump) : (armedEnded s p a).parts = s.parts := by
  unfold armedEnded
  split
  · exact (dumpOver_keeps p 0 (Keeps.rfl_ _ s) (List.Subset.refl _)).same .parts (by decide)
  · rfl

theorem jobStart_eq : jobStart s p =
    beginInterval (detachOps (armedEnded (gensFreed (jobCleared s p) p (getPart s p).gens.reverse) p (getPart s p).armed) p) p := by
  unfold jobStart armedEnded gensFreed jobCleared
  dsimp only
  generalize (getPart s p).armed = a
  cases a <;> rfl

variable {s p}

theorem jobStart_effect (hp : p < s.parts.length) (hw : (getPart s p).window = none) (hr : (getPart s p).rb = none) :
    ∃ t, exec (.jobStart p) s = .next t ∧ (getPart t p).job = true ∧ (getPart t p).norecov = false ∧ (getPart t p).envs = [] ∧
      (getPart t p).tags = [TagEnt.rest] ∧ (getPart t p).armed = none ∧ (getPart t p).gens = [] ∧ (getPart t p).intervalTick = s.time.tick ∧
      (getPart t p).maxGen = (getPart s p).maxGen ∧
      (getPart t p).logs.notes.prod = (getPart s p).logs.notes.prod + (getPart s p).gens.length ∧
      (∀ q, q ≠ p → getPart t q = getPart s q) ∧ t = { s with parts := t.parts, near := t.near, ops := t.ops, trc := t.trc } := by
  have go : ¬ ((getPart s p).window.isSome = true ∨ (getPart s p).rb.isSome = true) := by rw [hw, hr]; decide
  have same := (jobStart_keeps p (Keeps.rfl_ _ s) (List.Subset.refl _)).same
  have tick : (armedEnded (gensFreed (jobCleared s p) p (getPart s p).gens.reverse) p (getPart s p).armed).time = s.time := by
    have h := (jobStart_keeps p (Keeps.rfl_ _ s) (List.Subset.refl _)).same
    rw [jobStart_eq] at h
    exact h.time_eq (by decide) (by decide) (by decide)
  have hp1 : p < (subUse s p (2 * ((getPart s p).tags.length - 1))).parts.length := (parts_length_updPart s p _).symm ▸ hp
  have hp2 : p < (jobCleared s p).parts.length := (parts_length_updPart _ p _).symm ▸ hp1
  obtain ⟨len, other, own, notes⟩ := gensFreed_effect (jobCleared s p) p (getPart s p).gens.reverse hp2
  have parts := armedEnded_parts (gensFreed (jobCleared s p) p (getPart s p).gens.reverse) p (getPart s p).armed
  have first : getPart (subUse s p (2 * ((getPart s p).tags.length - 1))) p =
      { getPart s p with cnt := (getPart (subUse s p (2 * ((getPart s p).tags.length - 1))) p).cnt } := by
    rw [show getPart (subUse s p _) p = _ from getPart_updPart s p _ hp]
  have cleared := getPart_updPart (subUse s p (2 * ((getPart s p).tags.length - 1))) p (fun q => { q with
    job := true, norecov := false, envs := [], envFirst := [], tags := [TagEnt.rest], armed := none, gens := [], failed := [], named := [], c4Open := false, lastRcv := none }) hp1
  rw [← jobCleared, first] at cleared
  have otherFirst (q : Nat) (hq : q ≠ p) : getPart (jobCleared s p) q = getPart s q := (getPart_updPart_ne _ _ hq).trans (getPart_updPart_ne s _ hq)
  rw [cleared] at own notes
  have run : exec (.jobStart p) s = .next (jobStart s p) := congrArg Host.Outcome.next (if_neg go)
  have frame := same.frame
  rw [jobStart_eq] at run frame
  generalize gensFreed (jobCleared s p) p (getPart s p).gens.reverse = v at *
  generalize armedEnded v p (getPart s p).armed = u at *
  have hpu : p < u.parts.length := parts ▸ len ▸ hp2
  have ownu : getPart u p = getPart v p := getPart_of_parts parts p
  have ended := getPart_updPart u p (fun q => { q with intervalTick := u.time.tick, hangSeen := false, mtSeen := false }) hpu
  have tp : getPart (beginInterval (detachOps u p) p) p = { getPart u p with intervalTick := u.time.tick, hangSeen := false, mtSeen := false } := ended
  have tq (q : Nat) (hq : q ≠ p) : getPart (beginInterval (detachOps u p) p) q = getPart u q := getPart_updPart_ne u _ hq
  have job : jobOf (getPart (beginInterval (detachOps u p) p) p) = (true, false, [], [TagEnt.rest], none, [], (getPart s p).maxGen) :=
    (congrArg jobOf tp).trans ((congrArg jobOf ownu).trans own)
  have prod : (getPart (beginInterval (detachOps u p) p) p).logs.notes.prod = (getPart s p).logs.notes.prod + (getPart s p).gens.length := by
    rw [tp]
    dsimp only
    rw [ownu, notes, List.length_reverse]
  exact ⟨_, run, congrArg (·.1) job, congrArg (·.2.1) job, congrArg (·.2.2.1) job, congrArg (·.2.2.2.1) job, congrArg (·.2.2.2.2.1) job,
    congrArg (·.2.2.2.2.2.1) job, (congrArg Part.intervalTick tp).trans (congrArg TimeSt.tick tick), congrArg (·.2.2.2.2.2.2) job, prod,
    fun q hq => (tq q hq).trans ((getPart_of_parts parts q).trans ((other q hq).trans (otherFirst q hq))), frame⟩

end

theorem jobStart_idle {s : State} {p : Nat} (h : (getPart s p).window ≠ none ∨ (getPart s p).rb ≠ none) : exec (.jobStart p) s = .next s :=
  congrArg Host.Outcome.next (if_pos (h.imp Option.isSome_iff_ne_none.2 Option.isSome_iff_ne_none.2))

/-- Settles O27, from each phase command's change of its partition and what a job's start clears. -/
theorem checkpointsRestoresAndJobs : Obligations.CheckpointsRestoresAndJobs :=
  ⟨fun _ _ hp => ⟨ckptOpen_effect hp, ckptOpen_idle, fun _ hw h => ckptWritten_effect hw hp h, fun _ hw h => ckptRead_effect hw hp h,
      fun _ hw => ⟨ckptWritten_idle hw, ckptRead_idle hw⟩⟩,
    fun _ _ _ hp hr => ⟨restoreBegin_effect hr hp, restoreBegin_idle hr, restoreEnd_effect hr hp, restoreEnd_idle hr⟩,
    fun _ _ => jobStart_effect, fun _ _ => jobStart_idle⟩

end Sys2Proof.Machine
end

section
/-! BELFRY_TICK, timers, windows and counts (R317, R345, R351). -/

set_option Elab.async false

namespace Sys2Proof.Machine

/-! ### What the Belfry's work leaves of its tick number and its counts (R337, R351) -/

/-- The number of the last Belfry tick. -/
def belfryTick (s : State) : W64 := s.belfry.tick

/-- The running counts. -/
def belfryCounts (s : State) : List (Nat × Nat × Nat × W64) := s.belfry.counts

theorem belfryTick_of_same {s t : State} {l : List Fld} (h : Same l s t) (hl : .belfry ∉ l := by decide) : belfryTick t = belfryTick s :=
  (congrArg (fun x => x.2.2.2.2.2.2.2.2.2.2.2.2.2.2.2) (h .belfry hl :) :)

theorem belfryCounts_of_same {s t : State} {l : List Fld} (h : Same l s t) (hl : .belfry ∉ l := by decide) : belfryCounts t = belfryCounts s :=
  (congrArg (fun x => x.2.2.2.2.2.2.2.2.2.2.2.2.2.2.1) (h .belfry hl :) :)

theorem dropCount_tick (s : State) (ix key : Nat) : belfryTick (dropCount s ix key) = belfryTick s := by
  unfold dropCount
  split <;> rfl

theorem holdCount_tick (s : State) (ix key k : Nat) (opened : W64) : belfryTick (holdCount s ix key k opened) = belfryTick s := by
  unfold holdCount
  split <;> rfl

theorem countHit_tick (n ix key trigN : Nat) (s : State) : belfryTick (countHit n ix key trigN s).2 = belfryTick s := by
  unfold countHit
  split
  · exact holdCount_tick s ix key 1 _
  · dsimp only
    split
    · exact dropCount_tick s ix key
    · exact (holdCount_tick _ _ _ _ _).trans (dropCount_tick s ix key)

theorem closeWindows_tick (s : State) (n : Nat) : belfryTick (closeWindows s n) = belfryTick s :=
  foldl_kept (fun v (c : Nat × Nat × Nat × W64) => dropCount_tick v c.1 c.2.1) _ s

theorem onceFired_tick (ix : Nat) (p : Peal) (s : State) : belfryTick (onceFired ix p s) = belfryTick s := by
  unfold onceFired
  split <;> rfl

theorem onceFired_counts (ix : Nat) (p : Peal) (s : State) : belfryCounts (onceFired ix p s) = belfryCounts s := by
  unfold onceFired
  split <;> rfl

/-- A cancellation counts in CANCEL_CNT, and leaves the rest of the Belfry but its commands. -/
theorem cancel_belfry (acts : List Act) (s : State) (a : Act) : belfryTick (cancel acts s a) = belfryTick s ∧ belfryCounts (cancel acts s a) = belfryCounts s := by
  have finish (u : State) (i r c : Nat) : Same [.cmd, .cmds] u (cmdFinish u i r c) := (cmdFinish_keeps i r c (Keeps.rfl_ _ u) (List.Subset.refl _)).same
  have record (r : Rec) : belfryTick (addRec { s with belfry := { s.belfry with cancelCnt := satInc s.belfry.cancelCnt } } r) = belfryTick s ∧
      belfryCounts (addRec { s with belfry := { s.belfry with cancelCnt := satInc s.belfry.cancelCnt } } r) = belfryCounts s :=
    ⟨(belfryTick_of_same (addRec_same _ r)).trans rfl, (belfryCounts_of_same (addRec_same _ r)).trans rfl⟩
  unfold cancel
  split
  · exact ⟨rfl, rfl⟩
  · dsimp only
    split
    · exact ⟨(belfryTick_of_same (finish _ _ _ _)).trans (record _).1, (belfryCounts_of_same (finish _ _ _ _)).trans (record _).2⟩
    · exact record _

theorem uncount_tick (acts : List Act) (s : State) (f : CountFire) : belfryTick (uncount acts s f) = belfryTick s := by
  unfold uncount
  split
  · exact (holdCount_tick _ _ _ _ _).trans (dropCount_tick s _ _)
  · rfl

theorem runAct_same (s : State) (a : Act) : Same [.alert, .cmd, .talloc, .keep, .inputs, .cmds, .cistern, .nvm, .parts, .tiles, .spires, .domes, .ops, .tickets,
    .samples, .engines, .hang, .tallies, .tallyQ, .ports, .launch, .peerRecs, .peerTds, .caravan, .records, .early, .near, .thermal, .erg, .mtr, .trc, .big, .rng]
    s (runAct s a) := (runAct_keeps a (Keeps.rfl_ _ s) (List.Subset.refl _)).same

theorem resolve_tick (m : Matched) : belfryTick (resolve m) = belfryTick m.st :=
  (foldl_kept (fun v a => belfryTick_of_same (runAct_same v a)) _ _).trans
    ((foldl_kept (uncount_tick m.acts) _ _).trans (foldl_kept (fun v a => (cancel_belfry m.acts v a).1) _ m.st))

/-- Without a counting peal that fired, actions leave the counts. -/
theorem resolve_counts (s : State) (acts : List Act) : belfryCounts (resolve ⟨s, acts, []⟩) = belfryCounts s :=
  (foldl_kept (fun v a => belfryCounts_of_same (runAct_same v a)) _ _).trans (foldl_kept (fun v a => (cancel_belfry acts v a).2) _ s)

/-- The Belfry tick number of what a tick has matched. -/
theorem fireAt_tick (n cls part : Nat) (i : Option Input) (m : Matched) (x : Nat × Peal) : belfryTick (fireAt n cls part i m x).st = belfryTick m.st := by
  unfold fireAt
  split
  · rfl
  · dsimp only
    split
    · rfl
    · split
      · split
        · exact (onceFired_tick _ _ _).trans (countHit_tick _ _ _ _ _)
        · exact countHit_tick _ _ _ _ _
      · exact onceFired_tick _ _ _

theorem foldl_matched_tick {α : Type} {f : Matched → α → Matched} (hf : ∀ m a, belfryTick (f m a).st = belfryTick m.st) (l : List α) (m : Matched) :
    belfryTick (l.foldl f m).st = belfryTick m.st := by
  induction l generalizing m with
  | nil => rfl
  | cons a l ih => exact (ih _).trans (hf m a)

theorem itemActs_tick (n : Nat) (m : Matched) (i : Item) : belfryTick (itemActs n m i).st = belfryTick m.st := by
  cases i with
  | input _ i => exact (foldl_matched_tick (fireAt_tick _ _ _ _) _ _).trans rfl
  | word _ w => exact foldl_matched_tick (fireAt_tick _ _ _ _) _ _
  | timer _ _ _ => rfl
  | cmd _ _ => rfl
  | label _ _ => rfl

theorem sampleTick_tick (s : State) (n : Nat) : belfryTick (sampleTick s n) = belfryTick s := by
  have words (l : List CadW) (v : State) : belfryTick (l.foldl takeWord v) = belfryTick v :=
    foldl_kept (fun v w => belfryTick_of_same (takeWord_keeps w (Keeps.rfl_ _ v) (List.Subset.refl _)).same) l v
  have concerns (l : List Item) (v : State) : belfryTick (l.foldl inputConcern v) = belfryTick v :=
    foldl_kept (fun v i => belfryTick_of_same (inputConcern_keeps i (Keeps.rfl_ _ v) (List.Subset.refl _)).same) l v
  have disarmed (l : List Item) (v : State) : belfryTick (disarmTimers l v) = belfryTick v := foldl_kept (fun v ix => onceFired_tick ix _ v) _ v
  unfold sampleTick
  dsimp only
  refine (resolve_tick _).trans ((foldl_matched_tick (itemActs_tick n) _ _).trans ((disarmed _ _).trans ((concerns _ _).trans ((closeWindows_tick _ _).trans
    ((words _ _).trans rfl)))))

/-! ### BELFRY_TICK (R317) -/

theorem tick_toNat {s : State} (h : s.time.tick.toNat < 2 ^ 63) : (BitVec.ofNat 64 (256 * nextBelfry s)).toNat = 256 * nextBelfry s ∧
    s.time.tick.toNat ≤ 256 * nextBelfry s ∧ 256 * nextBelfry s ≤ s.time.tick.toNat + 256 := by
  have hn : s.time.tick.toNat ≤ 256 * nextBelfry s ∧ 256 * nextBelfry s ≤ s.time.tick.toNat + 256 := by
    unfold nextBelfry
    dsimp only
    split <;> omega
  refine ⟨?_, hn⟩
  rw [BitVec.toNat_ofNat, Nat.mod_eq_of_lt (by omega)]

theorem closed_same (s : State) (n : Nat) : Same [.parts, .near, .mtr] s (if periodDue s n then closePeriod s .boundary else s) := by
  split
  · exact (closePeriod_keeps .boundary (Keeps.rfl_ _ s) (List.Subset.refl _)).same
  · exact Same.rfl_ _ s

/-- The tick before the Belfry samples: its time, and the Belfry as it stood. -/
theorem atTick_eq (s : State) : ∃ v, Same [.parts, .near, .mtr] s v ∧
    atTick s = { v with time := { s.time with tick := BitVec.ofNat 64 (256 * nextBelfry s) }, belfry := { s.belfry with tick := BitVec.ofNat 64 (nextBelfry s) } } := by
  have same := closed_same s (256 * nextBelfry s)
  refine ⟨_, same, ?_⟩
  unfold atTick
  dsimp only
  rw [same.belfry_eq (by decide) (by decide) (by decide) (by decide) (by decide), same.time_eq (by decide) (by decide) (by decide)]

theorem timersAt_congr {s u : State} (hi : u.image = s.image) (hk : u.keep = s.keep) (hd : u.belfry.disarmed = s.belfry.disarmed) (n : Nat) :
    timersAt u n = timersAt s n := by
  unfold timersAt allPeals pealLive inSafe
  rw [hi, hk, hd]

theorem orderFrames_tick (n : Nat) (s : State) : belfryTick (orderFrames n s) = belfryTick s := rfl

theorem orderFrames_time (n : Nat) (s : State) : (orderFrames n s).time = s.time := rfl

theorem tickWork_same (s : State) : Same [.alert, .cmd, .talloc, .inputs, .cmds, .cistern, .nvm, .parts, .tiles, .spires, .domes, .ops, .tickets, .samples,
    .engines, .tallies, .tallyQ, .ports, .attQ, .peerRecs, .peerTds, .caravan, .records, .early, .near, .thermal, .big, .rng] s (tickWork s) :=
  (tickWork_keeps (Keeps.rfl_ _ s) (List.Subset.refl _)).same

theorem endTick_same (s : State) : Same [.alert, .parts, .spires, .near, .far, .rng] s (endTick s) := (endTick_keeps (Keeps.rfl_ _ s) (List.Subset.refl _)).same

/-- The work of a Belfry tick, whether the Belfry steps or not. -/
def tickDone (u : State) (n : Nat) : State :=
  if u.belfry.run then orderFrames u.caravan.frames.length (tickWork (sampleTick u n)) else missTimers u n

theorem exec_belfryTick {s : State} (hrun : s.time.run = true) : exec .belfryTick s = .next (endTick (tickDone (atTick s) (nextBelfry s))) :=
  congrArg Host.Outcome.next (if_neg (by rw [hrun]; decide))

theorem exec_belfryTick_stopped {s : State} (hrun : s.time.run = false) : exec .belfryTick s = .next s :=
  congrArg Host.Outcome.next (if_pos (by rw [hrun]; rfl))

/-- Work of a tick keeps the time that `atTick` set, and its number. -/
theorem tickDone_time (u : State) (n : Nat) : (tickDone u n).time.tick = u.time.tick ∧ belfryTick (tickDone u n) = belfryTick u := by
  unfold tickDone
  split
  · refine ⟨?_, (orderFrames_tick _ _).trans ((belfryTick_of_same (tickWork_same _)).trans (sampleTick_tick u n))⟩
    have sampled : (sampleTick u n).time.tick = u.time.tick := (sampleTick_keeps n (Keeps.rfl_ _ u) (List.Subset.refl _)).same .tick (by decide)
    generalize sampleTick u n = v at sampled ⊢
    exact (congrArg TimeSt.tick (orderFrames_time _ _)).trans ((tickWork_same v .tick (by decide) :).trans sampled)
  · exact ⟨rfl, rfl⟩

/-- R354: the Belfry's waiting timers, and the firings missed. -/
def timersOf (s : State) : List (Nat × Nat) × W32 := (s.belfry.timersNow, s.belfry.missCnt)

theorem timersOf_of_same {s t : State} {l : List Fld} (h : Same l s t) (hl : .belfry ∉ l := by decide) : timersOf t = timersOf s :=
  (congrArg (fun x => (x.2.2.2.2.2.2.2.2.2.2.2.2.1, x.2.2.2.2.2.1)) (h .belfry hl) :)

theorem belfryTick_effect {s : State} (hrun : s.time.run = true) (hlt : s.time.tick.toNat < 2 ^ 63) :
    ∃ t, exec .belfryTick s = .next t ∧ t.time.tick.toNat = 256 * nextBelfry s ∧ t.belfry.tick = BitVec.ofNat 64 (nextBelfry s) ∧
      s.time.tick.toNat ≤ t.time.tick.toNat ∧ t.time.tick.toNat ≤ s.time.tick.toNat + 256 ∧
      (s.belfry.run = false → t.belfry.inputs = s.belfry.inputs ∧ t.belfry.cadFifo = s.belfry.cadFifo ∧ t.tiles = s.tiles ∧
        t.belfry.timersNow = [] ∧
        t.belfry.missCnt = satAdd s.belfry.missCnt
          (if s.boot.step ≥ 5 then (s.belfry.timersNow ++ timersAt s (nextBelfry s)).eraseDups.length else 0)) ∧
      t.cistern.data = s.cistern.data := by
  have run := exec_belfryTick hrun
  obtain ⟨t, run', keeps⟩ := execBelfryTick_keeps (Keeps.rfl_ _ s) (List.Subset.refl _)
  obtain rfl := Host.Outcome.next.inj (run.symm.trans run')
  obtain ⟨value, low, high⟩ := tick_toNat hlt
  obtain ⟨v, same, start⟩ := atTick_eq s
  obtain ⟨time, number⟩ := tickDone_time (atTick s) (nextBelfry s)
  have ended := endTick_same (tickDone (atTick s) (nextBelfry s))
  have tick : (endTick (tickDone (atTick s) (nextBelfry s))).time.tick = BitVec.ofNat 64 (256 * nextBelfry s) :=
    (ended .tick (by decide) :).trans (time.trans (by rw [start]))
  refine ⟨_, run, by rw [tick, value], (belfryTick_of_same ended).trans (number.trans (by rw [start]; rfl)), by rw [tick, value]; exact low,
    by rw [tick, value]; exact high, fun hstop => ?_, keeps.same.bytes_eq.1⟩
  have stopped : tickDone (atTick s) (nextBelfry s) = missTimers (atTick s) (nextBelfry s) := if_neg (by rw [start]; change ¬ s.belfry.run = true; rw [hstop]; decide)
  have timers : timersAt (atTick s) (nextBelfry s) = timersAt s (nextBelfry s) := by
    rw [start]
    exact timersAt_congr (u := { v with
        time := { s.time with tick := BitVec.ofNat 64 (256 * nextBelfry s) }, belfry := { s.belfry with tick := BitVec.ofNat 64 (nextBelfry s) } })
      same.image_eq (same.keep_eq (by decide) (by decide) (by decide) (by decide) (by decide) (by decide) (by decide) (by decide) (by decide)) rfl _
  have step : (atTick s).boot.step = s.boot.step := by
    rw [start]
    exact congrArg Boot.step (same .boot (by decide) :)
  have waiting : (atTick s).belfry.timersNow = s.belfry.timersNow ∧ (atTick s).belfry.missCnt = s.belfry.missCnt := by rw [start]; exact ⟨rfl, rfl⟩
  have missed : timersOf (missTimers (atTick s) (nextBelfry s)) = ([], satAdd s.belfry.missCnt
      (if s.boot.step ≥ 5 then (s.belfry.timersNow ++ timersAt s (nextBelfry s)).eraseDups.length else 0)) := by
    rw [← step, ← timers, ← waiting.1, ← waiting.2]
    rfl
  have final := (timersOf_of_same ended).trans ((congrArg timersOf stopped).trans missed)
  refine ⟨?_, ?_, ?_, congrArg Prod.fst final, congrArg Prod.snd final⟩
  · refine ((congrArg Prod.fst (ended .inputs (by decide)) :)).trans ?_
    rw [stopped, missTimers, start]
  · refine (ended .cad (by decide) :).trans ?_
    rw [stopped, missTimers, start]
  · refine (ended .tiles (by decide) :).trans ?_
    rw [stopped, missTimers, start]
    exact same .tiles (by decide)

/-! ### Timers, windows and counts (R345, R351) -/

theorem firingParts_nodup (p : Peal) : (firingParts p).Nodup := by
  unfold firingParts
  split
  · exact List.nodup_range
  · exact List.nodup_singleton _

/-- The firings that a TIMER peal adds. -/
def newFirings (s : State) (ix : Nat) : List (Nat × Nat) := ((firingParts (pealAt s ix)).map fun q => (ix, q)).filter fun t => !s.belfry.timersNow.contains t

theorem timerPeal_effect {s : State} {ix : Nat} (hrun : s.time.run = true) (hdue : timerDue (pealAt s ix) (nextBelfry s) = true) (hlive : pealLive s ix = true) :
    ∃ t, exec (.timerPeal ix) s = .next t ∧ (∀ p ∈ firingParts (pealAt s ix), (ix, p) ∈ t.belfry.timersNow) ∧
      s.belfry.timersNow <+: t.belfry.timersNow ∧
      (∀ x ∈ t.belfry.timersNow, x ∈ s.belfry.timersNow ∨ (x.1 = ix ∧ x.2 ∈ firingParts (pealAt s ix))) ∧
      (s.belfry.timersNow.Nodup → t.belfry.timersNow.Nodup) ∧ t = { s with belfry := { s.belfry with timersNow := t.belfry.timersNow } } := by
  have run : exec (.timerPeal ix) s = .next { s with belfry := { s.belfry with timersNow := s.belfry.timersNow ++ newFirings s ix } } :=
    congrArg Host.Outcome.next (if_neg (by rw [hrun, hdue, hlive]; decide))
  have mem_new (x : Nat × Nat) : x ∈ newFirings s ix ↔ x ∈ (firingParts (pealAt s ix)).map (fun q => (ix, q)) ∧ x ∉ s.belfry.timersNow := by
    rw [newFirings, List.mem_filter, Bool.not_eq_true', ← Bool.not_eq_true, List.contains_iff_mem]
  refine ⟨_, run, fun p hp => ?_, List.prefix_append _ _, fun x hx => ?_, fun hnd => ?_, rfl⟩
  · by_cases h : (ix, p) ∈ s.belfry.timersNow
    · exact List.mem_append_left _ h
    · exact List.mem_append_right _ ((mem_new _).2 ⟨List.mem_map_of_mem hp, h⟩)
  · rcases List.mem_append.1 hx with hx | hx
    · exact .inl hx
    · obtain ⟨q, hq, rfl⟩ := List.mem_map.1 ((mem_new x).1 hx).1
      exact .inr ⟨rfl, hq⟩
  · have nd : (newFirings s ix).Nodup := ((firingParts_nodup _).map fun a b h => congrArg Prod.snd h).filter _
    exact hnd.append nd fun x hx hn => ((mem_new x).1 hn).2 hx

theorem dropCount_effect {s : State} {ix key : Nat} {c : Nat × Nat × Nat × W64} (h : s.belfry.counts.find? (fun c => c.1 == ix && c.2.1 == key) = some c) :
    dropCount s ix key = subUse { s with belfry := { s.belfry with counts := s.belfry.counts.erase c } } 0 1 := by
  unfold dropCount
  rw [h]

theorem countWindowClose_effect {s : State} {ix key : Nat} {c : Nat × Nat × Nat × W64}
    (h : s.belfry.counts.find? (fun c => c.1 == ix && c.2.1 == key) = some c) (hp : 0 < s.parts.length) :
    ∃ t, exec (.countWindowClose ix key) s = .next t ∧ t.belfry.counts = s.belfry.counts.erase c ∧
      (getPart t 0).cnt.cisUse.toNat = (getPart s 0).cnt.cisUse.toNat - 1 ∧
      getPart t 0 = { getPart s 0 with cnt := { (getPart s 0).cnt with cisUse := (getPart t 0).cnt.cisUse } } ∧
      (∀ p, p ≠ 0 → getPart t p = getPart s p) ∧
      t = { s with belfry := { s.belfry with counts := t.belfry.counts }, parts := t.parts } := by
  have own : getPart (subUse { s with belfry := { s.belfry with counts := s.belfry.counts.erase c } } 0 1) 0 =
      { getPart s 0 with cnt := { (getPart s 0).cnt with cisUse := BitVec.ofNat 32 ((getPart s 0).cnt.cisUse.toNat - 1) } } :=
    getPart_updPart { s with belfry := { s.belfry with counts := s.belfry.counts.erase c } } 0 _ hp
  refine ⟨_, congrArg Host.Outcome.next (dropCount_effect h), rfl, ?_, ?_, fun p hp => ?_, rfl⟩
  · rw [own]
    change (BitVec.ofNat 32 ((getPart s 0).cnt.cisUse.toNat - 1)).toNat = _
    rw [BitVec.toNat_ofNat, Nat.mod_eq_of_lt (by have := (getPart s 0).cnt.cisUse.isLt; omega)]
  · rw [own]
  · exact getPart_updPart_ne { s with belfry := { s.belfry with counts := s.belfry.counts.erase c } } _ hp

theorem countWindowClose_none {s : State} {ix key : Nat} (h : s.belfry.counts.find? (fun c => c.1 == ix && c.2.1 == key) = none) :
    exec (.countWindowClose ix key) s = .next s := by
  refine congrArg Host.Outcome.next ?_
  unfold dropCount
  rw [h]

/-- The input that a counting peal's firing stands for. -/
def countInput (s : State) (ix key : Nat) : Input :=
  mkInput s (plTrig (pealAt s ix)) (if key < 65536 then partOfSp s key else key - 65536) (if key < 65536 then key else 0xFFFF) 0xFFFF (plCause (pealAt s ix)) false 0 0

/-- The actions of a counting peal's firing. -/
def countActs (s : State) (ix key : Nat) : List Act :=
  pealActs s (countInput s ix key).cls ix (pealAt s ix) (if key < 65536 then partOfSp s key else key - 65536) (some (countInput s ix key))

theorem exec_countingPealFire {s : State} {ix key : Nat} {c : Nat × Nat × Nat × W64} (h : s.belfry.counts.find? (fun c => c.1 == ix && c.2.1 == key) = some c) :
    exec (.countingPealFire ix key) s = .next (if !s.belfry.run ∨ c.2.2.1 + 1 < plN (pealAt s ix) ∨ !counting (pealAt s ix) ∨ !pealLive s ix then s
      else if (numbered 0 (countActs s ix key)).isEmpty then s
      else orderFrames (onceFired ix (pealAt s ix) (dropCount s ix key)).caravan.frames.length
        (resolve ⟨onceFired ix (pealAt s ix) (dropCount s ix key), numbered 0 (countActs s ix key), []⟩)) := by
  change execCountingPealFire ix key s = _
  unfold execCountingPealFire
  dsimp only
  rw [h]
  rfl

theorem numbered_isEmpty (k : Nat) {l : List Act} (h : l ≠ []) : (numbered k l).isEmpty = false := by
  cases l with
  | nil => exact absurd rfl h
  | cons a l => rfl

theorem countingPealFire_effect {s : State} {ix key : Nat} {c : Nat × Nat × Nat × W64}
    (h : s.belfry.counts.find? (fun c => c.1 == ix && c.2.1 == key) = some c) (hrun : s.belfry.run = true) (hn : plN (pealAt s ix) ≤ c.2.2.1 + 1)
    (hc : counting (pealAt s ix) = true) (hl : pealLive s ix = true) (hacts : countActs s ix key ≠ []) :
    ∃ t, exec (.countingPealFire ix key) s = .next t ∧ t.belfry.counts = s.belfry.counts.erase c ∧ t.cistern.data = s.cistern.data := by
  obtain ⟨t, run', keeps⟩ := execCountingPealFire_keeps ix key (Keeps.rfl_ _ s) (List.Subset.refl _)
  have go : ¬ ((!s.belfry.run) = true ∨ c.2.2.1 + 1 < plN (pealAt s ix) ∨ (!counting (pealAt s ix)) = true ∨ (!pealLive s ix) = true) := by
    rw [hrun, hc, hl]
    simpa using hn
  have run := exec_countingPealFire h
  rw [if_neg go, if_neg (by rw [numbered_isEmpty 0 hacts]; decide)] at run
  obtain rfl := Host.Outcome.next.inj (run.symm.trans run')
  refine ⟨_, run, ?_, keeps.same.bytes_eq.1⟩
  refine (resolve_counts _ _).trans ((onceFired_counts ix _ _).trans ?_)
  rw [dropCount_effect h]
  rfl

theorem countingPealFire_stopped {s : State} (ix key : Nat) (h : s.belfry.run = false) : exec (.countingPealFire ix key) s = .next s := by
  cases hf : s.belfry.counts.find? fun c => c.1 == ix && c.2.1 == key with
  | some c => exact (exec_countingPealFire hf).trans (congrArg Host.Outcome.next (if_pos (.inl (by rw [h]; rfl))))
  | none =>
    change execCountingPealFire ix key s = _
    unfold execCountingPealFire
    dsimp only
    rw [hf]

/-- Settles O33, from what a tick's work leaves of the tick's number and of the running counts. -/
theorem belfryTicksAndCounts : Obligations.BelfryTicksAndCounts :=
  ⟨⟨fun _ h => exec_belfryTick_stopped h, fun _ hrun hlt => belfryTick_effect hrun hlt⟩,
    fun _ _ hrun hdue hlive => timerPeal_effect hrun hdue hlive,
    fun _ _ _ => ⟨fun h => countWindowClose_none h, fun _ h hp => countWindowClose_effect h hp⟩,
    fun _ _ _ _ h hrun hn hc hl hacts => countingPealFire_effect h hrun hn hc hl hacts,
    fun _ ix key h => countingPealFire_stopped ix key h⟩

end Sys2Proof.Machine
end

section
/-! What settling an operation keeps (R215, R219); a message that leaves the Caravan (R366). -/

set_option Elab.async false

namespace Sys2Proof.Machine

/-! ### What a change of one operation leaves of the others, and of itself -/

/-- What an update of one operation leaves of that operation, it leaves of every one. -/
theorem getOp_updOp_proj {α : Type} (g : OpV → α) (s : State) (u : Nat) (f : OpV → OpV) (huid : ∀ x, (f x).uid = x.uid)
    (hf : ∀ o, getOp s u = some o → g (f o) = g o) (j : Nat) : (getOp (updOp s u f) j).map g = (getOp s j).map g := by
  by_cases e : j = u
  · subst e
    rw [getOp_updOp s j f huid]
    cases h : getOp s j with
    | none => rfl
    | some o => exact congrArg some (hf o h)
  · rw [getOp_updOp_ne s f huid e]

theorem getOp_of_ops {s t : State} (h : t.ops = s.ops) (j : Nat) : getOp t j = getOp s j := congrArg (List.find? _) h

theorem getOp_of_same {s t : State} {l : List Fld} (h : Same l s t) (j : Nat) (hl : .ops ∉ l := by decide) : getOp t j = getOp s j := getOp_of_ops (h .ops hl) j

/-- An operation replaced whole. -/
theorem getOp_updOp_const {s : State} {u : Nat} {o y : OpV} (h : getOp s u = some o) (hy : y.uid = u) : getOp (updOp s u fun _ => y) u = some y := by
  have same : ((fun x : OpV => x.uid == u) ∘ fun x : OpV => if x.uid = u then y else x) = fun x => x.uid == u := by
    funext x
    by_cases e : x.uid = u
    · rw [Function.comp_apply, if_pos e, hy, e]
    · rw [Function.comp_apply, if_neg e]
  have huid := getOp_uid h
  unfold getOp updOp
  rw [List.find?_map, same]
  unfold getOp at h
  rw [h, Option.map_some, if_pos huid]

theorem onOp_some {s : State} {u : Nat} {o : OpV} (h : getOp s u = some o) (f : OpV → State) : onOp s u f = f o := by rw [onOp, h]

/-- A property of what is made of an operation, or of the state that has none. -/
theorem onOp_ind {P : State → Prop} {s : State} {u : Nat} {f : OpV → State} (h0 : P s) (h1 : ∀ o, getOp s u = some o → P (f o)) : P (onOp s u f) := by
  unfold onOp
  split
  · next o h => exact h1 o h
  · exact h0

theorem part_of_proj {α : Type} {g : OpV → α} {a b : Option OpV} (h : a.map g = b.map g) {o : OpV} (ho : b = some o) : ∃ v, a = some v ∧ g v = g o := by
  rw [ho, Option.map_some] at h
  exact Option.map_eq_some_iff.1 h

/-! ### Settling an operation (R215, R219) -/

/-- The part of an operation that no settling changes, and whether it is in its opened state. -/
def screened (o : OpV) : Nat × Option W64 × Option ScreenRes × Bool := (o.range, o.od, o.scr, o.state == .opened)

/-- From `s` to `t` an operation keeps its range bits, its digest, its screen's result, and whether it is in its opened state. -/
def ScreenKept (s t : State) : Prop := ∀ j, (getOp t j).map screened = (getOp s j).map screened

section
variable {s t u : State}

theorem ScreenKept.rfl_ (s : State) : ScreenKept s s := fun _ => rfl

theorem ScreenKept.trans (h : ScreenKept s t) (g : ScreenKept t u) : ScreenKept s u := fun j => (g j).trans (h j)

theorem ScreenKept.of_ops (h : ScreenKept s t) (e : u.ops = t.ops) : ScreenKept s u := fun j => by rw [getOp_of_ops e, h]

theorem ScreenKept.of_same {l : List Fld} (h : ScreenKept s t) (e : Same l t u) (hl : .ops ∉ l := by decide) : ScreenKept s u := h.of_ops (e .ops hl)

theorem ScreenKept.updOp (h : ScreenKept s t) (i : Nat) (f : OpV → OpV) (huid : ∀ x, (f x).uid = x.uid)
    (hf : ∀ o, getOp t i = some o → screened (f o) = screened o) : ScreenKept s (updOp t i f) := fun j => (getOp_updOp_proj screened t i f huid hf j).trans (h j)

/-- Whether an operation is in its opened state. -/
theorem ScreenKept.opened (h : ScreenKept s t) {j : Nat} {o : OpV} (ho : getOp s j = some o) (hne : o.state ≠ .opened) {v : OpV} (hv : getOp t j = some v) :
    v.state ≠ .opened := by
  have := h j
  rw [ho, hv] at this
  have state := congrArg (fun x => x.2.2.2) (Option.some.inj this)
  intro e
  have : (v.state == .opened) = (o.state == .opened) := state
  rw [e] at this
  exact hne (beq_iff_eq.1 this.symm)

theorem freeTicket_screen (h : ScreenKept s t) (i : Nat) : ScreenKept s (freeTicket t i) :=
  (h.of_ops (u := { t with tickets := t.tickets.filter fun x => x.uid != i }) rfl).updOp i _ (fun _ => rfl) fun _ _ => rfl

theorem screened_final {o v : OpV} (hs : screened v = screened o) (ho : o.state ≠ .opened) (st : OpState) (hst : st ≠ .opened) (verdict mm : Nat) :
    screened { v with state := st, verdict := verdict, mm := mm } = screened v := by
  have hv : (v.state == .opened) = false := by
    rw [show (v.state == .opened) = (o.state == .opened) from congrArg (fun x => x.2.2.2) hs]
    simpa using ho
  have hst' : (st == .opened) = false := by simpa using hst
  unfold screened
  rw [hv, hst']

theorem finalize_screen (h : ScreenKept s t) (i : Nat) (hne : ∀ o, getOp t i = some o → o.state ≠ .opened) : ScreenKept s (finalize t i) := by
  unfold finalize
  refine onOp_ind h fun o ho => ?_
  have free := freeTicket_screen (ScreenKept.rfl_ t) i
  have fin : ScreenKept s (Machine.updOp (freeTicket t i) i fun x => { x with state := .final, verdict := (opFused o).1, mm := 0 }) := by
    refine (freeTicket_screen h i).updOp i _ (fun _ => rfl) fun v hv => ?_
    obtain ⟨w, hw, same⟩ := part_of_proj (free i) ho
    obtain rfl : w = v := Option.some.inj (hw.symm.trans hv)
    exact screened_final same (hne o ho) .final (by decide) _ _
  dsimp only
  have counted (c : PartCnt → PartCnt) := fin.of_ops (u := updCnt (Machine.updOp (freeTicket t i) i fun x => { x with state := .final, verdict := (opFused o).1, mm := 0 }) o.part c) rfl
  have rec_ {v : State} (hv : ScreenKept s v) (r : Rec) : ScreenKept s (addRec v r) := hv.of_same (addRec_same v r)
  have whole {v : State} (hv : ScreenKept s v) (p : Prop) [Decidable p] (r : Rec) : ScreenKept s (if p then v else addRec v r) := by
    split
    · exact hv
    · exact rec_ hv r
  refine whole ?_ _ _
  split
  · exact counted _
  · split
    · exact counted _
    · exact fin

theorem settle_screen (h : ScreenKept s t) (i : Nat) : ScreenKept s (settle t i) := by
  unfold settle
  refine onOp_ind h fun o ho => ?_
  split
  · exact h
  · exact h
  · next hopened _ =>
    split
    · have resolved {v : State} (freed : ScreenKept t v) : ScreenKept s (finalize (Machine.updOp v i fun o => { o with
          res := if opSuspect o then some vMirage else o.res, outcome := 0, rerunBy := none, rerunSpire := 0xFFFF }) i) := by
        have kept := freed.updOp i (fun o => { o with res := if opSuspect o then some vMirage else o.res, outcome := 0, rerunBy := none, rerunSpire := 0xFFFF })
          (fun _ => rfl) fun _ _ => rfl
        exact finalize_screen (h.trans kept) i fun w hw => kept.opened ho hopened hw
      dsimp only
      split
      · exact resolved ((ScreenKept.rfl_ t).updOp _ _ (fun _ => rfl) fun _ _ => rfl)
      · exact resolved (ScreenKept.rfl_ t)
    · dsimp only
      split
      · exact finalize_screen h i fun w hw => by
          obtain rfl : o = w := Option.some.inj (ho.symm.trans hw)
          exact hopened
      · split
        · refine h.updOp i _ (fun _ => rfl) fun w hw => ?_
          obtain rfl : o = w := Option.some.inj (ho.symm.trans hw)
          have : (o.state == .opened) = false := by simpa using hopened
          unfold screened
          rw [this]
          rfl
        · exact h

theorem opInput_screen (h : ScreenKept s t) (code : Nat) (o : OpV) (cause : Nat) (rerun : Bool) (row : Nat) : ScreenKept s (opInput t code o cause rerun row) :=
  h.of_same (l := [.inputs]) (opInput_keeps code o cause rerun row (Keeps.rfl_ _ t) (List.Subset.refl _)).same

theorem standSuspect_screen (h : ScreenKept s t) (i outcome : Nat) : ScreenKept s (standSuspect t i outcome) :=
  onOp_ind h fun _ _ => settle_screen (opInput_screen ((freeTicket_screen h i).updOp i (fun o => { o with res := some vSuspect, outcome := outcome })
    (fun _ => rfl) fun _ _ => rfl) _ _ _ _ _) i

theorem applyRerun_screen (h : ScreenKept s t) (i : Nat) : ScreenKept s (applyRerun t i) := by
  unfold applyRerun
  refine onOp_ind h fun n _ => ?_
  split
  · exact h
  · next orig _ =>
    refine onOp_ind h fun o _ => ?_
    split
    · exact h
    · dsimp only
      split
      · exact standSuspect_screen h orig 5
      · refine settle_screen ?_ orig
        have applied (r : Option Nat) (out : Nat) (b : Bool) : ScreenKept s (Machine.updOp (freeTicket t orig) orig fun o =>
            { o with res := r, outcome := out, disagree := o.disagree || b }) := (freeTicket_screen h orig).updOp orig _ (fun _ => rfl) fun _ _ => rfl
        have counted {v : State} (hv : ScreenKept s v) (p : Prop) [Decidable p] (k : Nat) (f : PartCnt → PartCnt) : ScreenKept s (if p then updCnt v k f else v) := by
          split
          · exact hv.of_ops rfl
          · exact hv
        split
        · exact opInput_screen (counted (applied _ _ _) _ _ _) _ _ _ _ _
        · exact opInput_screen (counted (applied _ _ _) _ _ _) _ _ _ _ _
        · exact opInput_screen (counted (applied _ _ _) _ _ _) _ _ _ _ _
        · exact opInput_screen (opInput_screen (counted (applied _ _ _) _ _ _) _ _ _ _ _) _ _ _ _ _

end

/-! ### A message that leaves the Caravan (R366) -/

theorem leave_effect (s : State) (m : Msg) : Same [.spires, .caravan] s (leave s m) ∧ (leave s m).caravan.flight = s.caravan.flight.erase m ∧
    ∀ j, j ≠ msgSpire m → getSp (leave s m) j = getSp s j :=
  ⟨(leave_keeps m (Keeps.rfl_ _ s) (List.Subset.refl _)).same, rfl, fun j hj => getSp_updSp_ne s (fun p => { p with witSent := p.witSent - witBytes s m }) (fun _ => rfl) hj⟩

theorem nextMsg_test {s : State} {f : Msg → Bool} {m : Msg} (h : nextMsg s f = some m) : f m = true := by
  have gen (l : List Msg) (b : Option Msg) (hl : ∀ x ∈ l, f x = true) (hb : ∀ x, b = some x → f x = true)
      (h : (l.foldl (fun b m => match b with
        | none => some m
        | some x => if msgClass m < msgClass x then some m else some x) b) = some m) : f m = true := by
    induction l generalizing b with
    | nil => exact hb m h
    | cons a l ih =>
      refine ih _ (fun x hx => hl x (List.mem_cons_of_mem _ hx)) (fun x hx => ?_) h
      have ha := hl a List.mem_cons_self
      cases b with
      | none => exact Option.some.inj hx ▸ ha
      | some y =>
        dsimp only at hx
        split at hx
        · exact Option.some.inj hx ▸ ha
        · exact hb x hx
  exact gen _ none (fun x hx => (Bool.and_eq_true_iff.1 (List.mem_filter.1 hx).2).1) (fun _ h => by cases h) h

end Sys2Proof.Machine
end

section
/-! Summaries, profiles, digests and the rerun deadline (R159, R207, R218, R290). -/

set_option Elab.async false

namespace Sys2Proof.Machine

/-! ### Summaries (R159, R215) -/

/-- The messages in flight. -/
def flightOf (s : State) : List Msg := s.caravan.flight

theorem flightOf_of_same {s t : State} {l : List Fld} (h : Same l s t) (hl : .caravan ∉ l := by decide) : flightOf t = flightOf s :=
  congrArg Caravan.flight (h .caravan hl :)

theorem screenRecs_flight (s : State) (uid : Nat) (recs : List Rec) (endTick : W64) : flightOf (screenRecs s uid recs endTick) = flightOf s := by
  have recsIn (l : List Rec) (v : State) : flightOf (l.foldl addRec v) = flightOf v := foldl_kept (fun v r => flightOf_of_same (addRec_same v r)) l v
  unfold screenRecs
  dsimp only
  split
  · exact (flightOf_of_same (ergVlat_keeps _ _ _ (ergResid_keeps _ _ _ (Keeps.rfl_ _ _) (List.Subset.refl _)) (List.Subset.refl _)).same).trans (recsIn _ _)
  · exact recsIn _ _

theorem takeMsg_some {s : State} {f : Msg → Bool} {m : Msg} (h : nextMsg s f = some m) : takeMsg s f = some (m, leave s m) := by rw [takeMsg, h]; rfl

section
variable {s : State} {sp i uid : Nat} {recs : List Rec} {scr : ScreenRes} {bits : Nat} {su ev : Bool} {od tk : W64}

/-- The operation with what its summary brings. -/
def summaryTaken (o : OpV) (tick : W64) (scr : ScreenRes) (bits : Nat) (su : Bool) (od tk : W64) : OpV :=
  { o with
    scr := if o.checkable then some scr else none, range := bits, rangeSusp := su, od := some od, endTick := tk
    state := .screened, resolveTick := tick }

/-- The operation as its summary leaves it, before its reruns and its settling. -/
def summarized (o : OpV) (tick : W64) (scr : ScreenRes) (bits : Nat) (su : Bool) (od tk : W64) : OpV :=
  { summaryTaken o tick scr bits su od tk with
    res := if (o.late || o.rerunOf.isSome) && opSuspect (summaryTaken o tick scr bits su od tk) then some vSuspect else o.res }

theorem summaryIn_idle (s : State) (h : ∀ o, getOp s uid = some o → o.state ≠ .opened) :
    summaryIn s uid recs scr bits su ev od tk = screenRecs s uid recs tk := by
  have same := (screenRecs_keeps uid recs tk (Keeps.rfl_ _ s) (List.Subset.refl _)).same
  refine onOp_ind (P := fun t => t = screenRecs s uid recs tk) rfl fun o ho => if_pos ?_
  exact h o ((getOp_of_same same uid).symm.trans ho)

theorem summaryIn_opened {o : OpV} (s : State) (ho : getOp s uid = some o) (hst : o.state = .opened) :
    Same [.alert, .inputs, .cistern, .parts, .ops, .tickets, .records, .early, .near] (screenRecs s uid recs tk) (summaryIn s uid recs scr bits su ev od tk) ∧
      ScreenKept (updOp (screenRecs s uid recs tk) uid fun _ => summarized o s.time.tick scr bits su od tk)
        (summaryIn s uid recs scr bits su ev od tk) := by
  have ho2 := (getOp_of_same (screenRecs_keeps uid recs tk (Keeps.rfl_ _ s) (List.Subset.refl _)).same uid).trans ho
  have taken : summaryIn s uid recs scr bits su ev od tk = settle (applyRerun (rangeInput
      (if o.checkable then screenIn (updOp (screenRecs s uid recs tk) uid fun _ => summarized o s.time.tick scr bits su od tk)
          (summaryTaken o s.time.tick scr bits su od tk) scr
        else updOp (screenRecs s uid recs tk) uid fun _ => summarized o s.time.tick scr bits su od tk)
      (summaryTaken o s.time.tick scr bits su od tk) bits su ev) uid) uid :=
    (onOp_some ho2 _).trans ((if_neg fun h : o.state ≠ .opened => h hst).trans rfl)
  rw [taken]
  generalize screenRecs s uid recs tk = u
  have begun := updOp_keeps uid (fun _ => summarized o s.time.tick scr bits su od tk)
    (Keeps.rfl_ [.alert, .inputs, .cistern, .parts, .ops, .tickets, .records, .early, .near] u) (by decide)
  generalize (updOp u uid fun _ => summarized o s.time.tick scr bits su od tk) = v at begun ⊢
  generalize summaryTaken o s.time.tick scr bits su od tk = y
  have screenedIn : Keeps [.alert, .inputs, .cistern, .parts, .ops, .tickets, .records, .early, .near] u (if o.checkable then screenIn v y scr else v) := by
    split
    · exact screenIn_keeps _ _ begun (by decide)
    · exact begun
  have kept : ScreenKept v (if o.checkable then screenIn v y scr else v) := by
    split
    · exact (ScreenKept.rfl_ v).of_same (screenIn_keeps _ _ (Keeps.rfl_ _ v) (List.Subset.refl _)).same
    · exact ScreenKept.rfl_ v
  generalize (if o.checkable then screenIn v y scr else v) = w at screenedIn kept ⊢
  exact ⟨(settle_keeps uid (applyRerun_keeps uid (rangeInput_keeps _ _ _ _ screenedIn (by decide)) (by decide)) (by decide)).same,
    settle_screen (applyRerun_screen (kept.of_same (rangeInput_keeps _ _ _ _ (Keeps.rfl_ _ w) (List.Subset.refl _)).same) uid) uid⟩

theorem exec_scrsum (h : nextMsg s (isSummary sp) = some (.summary i uid recs scr bits su ev od tk)) : exec (.scrsum sp) s =
    .next (summaryIn (leave s (.summary i uid recs scr bits su ev od tk)) uid recs scr bits su ev od tk) := by
  change execScrsum sp s = _
  unfold execScrsum
  rw [takeMsg_some h]

theorem summaryIn_flight (v : State) : flightOf (summaryIn v uid recs scr bits su ev od tk) = flightOf v := by
  by_cases h : ∀ o, getOp v uid = some o → o.state ≠ .opened
  · rw [summaryIn_idle v h, screenRecs_flight]
  · obtain ⟨o, ho⟩ := not_forall.1 h
    obtain ⟨ho, hst⟩ := Classical.not_imp.1 ho
    rw [flightOf_of_same (summaryIn_opened v ho (not_not.1 hst)).1, screenRecs_flight]

theorem scrsum_effect (h : nextMsg s (isSummary sp) = some (.summary i uid recs scr bits su ev od tk)) :
    ∃ t, exec (.scrsum sp) s = .next t ∧ t.caravan.flight = s.caravan.flight.erase (.summary i uid recs scr bits su ev od tk) ∧ t.cistern.data = s.cistern.data := by
  obtain ⟨t, run, keeps⟩ := execScrsum_keeps sp (Keeps.rfl_ _ s) (List.Subset.refl _)
  obtain rfl := Host.Outcome.next.inj ((exec_scrsum h).symm.trans run)
  exact ⟨_, run, summaryIn_flight _, keeps.same.bytes_eq.1⟩

theorem scrsum_opened {o : OpV} (h : nextMsg s (isSummary sp) = some (.summary i uid recs scr bits su ev od tk)) (ho : getOp s uid = some o)
    (hst : o.state = .opened) : ∃ t v, exec (.scrsum sp) s = .next t ∧ getOp t uid = some v ∧ v.state ≠ .opened ∧ v.range = bits ∧ v.od = some od ∧
      (o.checkable = true → v.scr = some scr) ∧ (∀ j, j ≠ i → getSp t j = getSp s j) := by
  obtain ⟨left, -, other⟩ := leave_effect s (.summary i uid recs scr bits su ev od tk)
  have run := exec_scrsum h
  generalize leave s (.summary i uid recs scr bits su ev od tk) = u at left other run
  have hou : getOp u uid = some o := (getOp_of_same left uid).trans ho
  obtain ⟨same, kept⟩ := summaryIn_opened (recs := recs) (scr := scr) (bits := bits) (su := su) (ev := ev) (od := od) (tk := tk) u hou hst
  have recsSame := (screenRecs_keeps uid recs tk (Keeps.rfl_ _ u) (List.Subset.refl _)).same
  have ho2 : getOp (screenRecs u uid recs tk) uid = some o := (getOp_of_same recsSame uid).trans hou
  obtain ⟨v, hv, shown⟩ := part_of_proj (kept uid) (getOp_updOp_const ho2 
    (y := summarized o u.time.tick scr bits su od tk) (getOp_uid ho :))
  have state : (v.state == .opened) = false := congrArg (fun x => x.2.2.2) shown
  refine ⟨_, v, run, hv, by simpa using state, congrArg (fun x => x.1) shown, congrArg (fun x => x.2.1) shown, fun hc => ?_, fun j hj => ?_⟩
  · have scrIs : v.scr = if o.checkable then some scr else none := congrArg (fun x => x.2.2.1) shown
    rw [scrIs, hc]
    rfl
  · have spires : (summaryIn u uid recs scr bits su ev od tk).spires = u.spires := (same .spires (by decide) :).trans (recsSame .spires (by decide))
    exact (congrArg (List.find? _) spires).trans (other j hj)

theorem scrsum_closed {o : OpV} (h : nextMsg s (isSummary sp) = some (.summary i uid recs scr bits su ev od tk)) (ho : getOp s uid = some o)
    (hst : o.state ≠ .opened) : ∃ t, exec (.scrsum sp) s = .next t ∧ t.ops = s.ops ∧
      t.caravan.flight = s.caravan.flight.erase (.summary i uid recs scr bits su ev od tk) ∧ t.cistern.data = s.cistern.data := by
  obtain ⟨t, run, flight, data⟩ := scrsum_effect h
  refine ⟨t, run, ?_, flight, data⟩
  obtain rfl := Host.Outcome.next.inj ((exec_scrsum h).symm.trans run)
  obtain ⟨left, -, -⟩ := leave_effect s (.summary i uid recs scr bits su ev od tk)
  generalize leave s (.summary i uid recs scr bits su ev od tk) = u at left
  have hou : getOp u uid = some o := (getOp_of_same left uid).trans ho
  rw [summaryIn_idle u fun x hx => by rwa [← Option.some.inj (hou.symm.trans hx)]]
  exact ((screenRecs_keeps uid recs tk (Keeps.rfl_ _ u) (List.Subset.refl _)).same .ops (by decide) :).trans (left .ops (by decide))

end

/-! ### Profiles (R207 to R209) -/

/-- A record leaves, of every partition, all but the counters. -/
theorem addRec_getPart {α : Type} (g : Part → α) (hg : ∀ x c, g { x with cnt := c } = g x) (s : State) (r : Rec) (p : Nat) :
    g (getPart (addRec s r) p) = g (getPart s p) := by
  have used (v : State) (k n : Nat) : g (getPart (addUse v k n) p) = g (getPart v p) := getPart_updPart_proj g v k p _ fun x => hg x _
  have refused (k : Nat) : g (getPart (refuseQuota s k) p) = g (getPart s p) := getPart_updPart_proj g s k p _ fun x => hg x _
  unfold addRec
  split
  · rfl
  · split
    · exact used s _ _
    · dsimp only
      split
      · exact (used _ _ _).trans (refused _)
      · exact refused _

section
variable {s : State} {sp i uid : Nat} {vhi : Bool} {r : Rec} {hi : Option Int} {bins : List Nat}

theorem exec_expprof (h : nextMsg s (isProfile sp) = some (.profile i uid vhi r hi bins)) : exec (.expprof sp) s =
    .next (profileIn (leave s (.profile i uid vhi r hi bins)) uid r hi bins) := by
  change execExpprof sp s = _
  unfold execExpprof
  rw [takeMsg_some h]

theorem expprof_effect (h : nextMsg s (isProfile sp) = some (.profile i uid vhi r hi bins)) :
    ∃ t, exec (.expprof sp) s = .next t ∧ t.caravan.flight = s.caravan.flight.erase (.profile i uid vhi r hi bins) ∧ t.cistern.data = s.cistern.data := by
  obtain ⟨t, run, keeps⟩ := execExpprof_keeps sp (Keeps.rfl_ _ s) (List.Subset.refl _)
  obtain rfl := Host.Outcome.next.inj ((exec_expprof h).symm.trans run)
  exact ⟨_, run, flightOf_of_same (profileIn_keeps uid r hi bins (Keeps.rfl_ _ _) (List.Subset.refl _)).same, keeps.same.bytes_eq.1⟩

/-- What a profile is judged by. -/
def profiledBy (q : Part) : List Envelope × List (W16 × W16 × W32) × CadPos := (q.envs, q.envFirst, q.pos)

/-- The envelope that a profile begins. -/
def firstEnvelope (s : State) (o : OpV) (hi : Int) (bins : List Nat) : Envelope :=
  { layer := dLayer o.dsc, oper := dOper o.dsc, loHi := hi, hiHi := hi, lo := fractions bins, hi := fractions bins,
    learnFrom := firstStep (getPart s o.part) o, steps := rLearn (rangeOf s o.part o.dsc),
    learned := learnOver (getPart s o.part).pos.step (firstStep (getPart s o.part) o) (rLearn (rangeOf s o.part o.dsc)) }

theorem profileIn_first {o : OpV} {hi : Int} (ho : getOp s uid = some o) (hp : o.part < s.parts.length) (hen : rEnvEn (rangeOf s o.part o.dsc) = true)
    (hl : rLearn (rangeOf s o.part o.dsc) ≠ 0) (hb : bins.foldl (· + ·) 0 ≠ 0) (hnew : (getPart s o.part).envs.find? (sameKey · o) = none)
    (hroom : (getPart s o.part).envs.length < qEnvKeys (plausRec s o.part)) :
    (getPart (profileIn s uid r (some hi) bins) o.part).envs = (getPart s o.part).envs ++ [firstEnvelope s o hi bins] ∧
      (profileIn s uid r (some hi) bins).ops = s.ops := by
  unfold profileIn
  rw [onOp_some ho]
  dsimp only
  have same := addRec_same s (withLate o.late r)
  have by_ := addRec_getPart profiledBy (fun _ _ => rfl) s (withLate o.late r) o.part
  have len := addRec_parts_length s (withLate o.late r)
  generalize addRec s (withLate o.late r) = u at same by_ len ⊢
  have envs : (getPart u o.part).envs = (getPart s o.part).envs := congrArg (fun x => x.1) by_
  have first : firstStep (getPart u o.part) o = firstStep (getPart s o.part) o := by
    rw [firstStep, firstStep, show (getPart u o.part).envFirst = _ from congrArg (fun x => x.2.1) by_, show (getPart u o.part).pos = _ from congrArg (fun x => x.2.2) by_]
    rfl
  have range : rangeOf u o.part o.dsc = rangeOf s o.part o.dsc := by rw [rangeOf, rangeOf, rangeRec, rangeRec, same.image_eq]
  have plaus : plausRec u o.part = plausRec s o.part := by rw [plausRec, plausRec, same.image_eq]
  rw [if_neg (by rw [range, hen]; exact fun h => h.elim (by decide) hl), envs, hnew]
  dsimp only
  rw [if_pos (by rw [plaus]; exact hroom), if_neg hb]
  refine ⟨?_, same .ops (by decide)⟩
  rw [getPart_updPart u o.part _ (len ▸ hp)]
  dsimp only
  rw [envs, first, range, show (getPart u o.part).pos = _ from congrArg (fun x => x.2.2) by_]
  rfl

theorem expprof_first {o : OpV} {hi : Int} (h : nextMsg s (isProfile sp) = some (.profile i uid vhi r (some hi) bins)) (ho : getOp s uid = some o)
    (hp : o.part < s.parts.length) (hen : rEnvEn (rangeOf s o.part o.dsc) = true) (hl : rLearn (rangeOf s o.part o.dsc) ≠ 0)
    (hb : bins.foldl (· + ·) 0 ≠ 0) (hnew : (getPart s o.part).envs.find? (sameKey · o) = none)
    (hroom : (getPart s o.part).envs.length < qEnvKeys (plausRec s o.part)) :
    ∃ t, exec (.expprof sp) s = .next t ∧ (getPart t o.part).envs = (getPart s o.part).envs ++ [firstEnvelope s o hi bins] ∧ t.ops = s.ops := by
  obtain ⟨left, -, -⟩ := leave_effect s (.profile i uid vhi r (some hi) bins)
  have run := exec_expprof h
  generalize leave s (.profile i uid vhi r (some hi) bins) = u at left run
  have part : getPart u o.part = getPart s o.part := getPart_of_parts (left .parts (by decide)) _
  have range : rangeOf u o.part o.dsc = rangeOf s o.part o.dsc := by rw [rangeOf, rangeOf, rangeRec, rangeRec, left.image_eq]
  have plaus : plausRec u o.part = plausRec s o.part := by rw [plausRec, plausRec, left.image_eq]
  have entry : firstEnvelope u o hi bins = firstEnvelope s o hi bins := by rw [firstEnvelope, firstEnvelope, part, range]
  have len : u.parts.length = s.parts.length := congrArg List.length (left .parts (by decide) :)
  obtain ⟨envs, ops⟩ := profileIn_first (r := r) ((getOp_of_same left uid).trans ho) (len.symm ▸ hp) (range.symm ▸ hen) (range.symm ▸ hl) hb (part.symm ▸ hnew)
    (by rw [part, plaus]; exact hroom)
  exact ⟨_, run, by rw [envs, part, entry], ops.trans (left .ops (by decide))⟩

end

/-! ### Digests (R290, R465) -/

section
variable {s : State} {sp i uid : Nat} {od dd : W64} {rsv : Nat} {id : Option W64} {acct : List Nat} {early : Bool}

theorem exec_digop (h : nextMsg s (isDigests sp) = some (.digests i uid od rsv dd id acct early)) : exec (.digop sp) s =
    .next (digestsIn (leave s (.digests i uid od rsv dd id acct early)) sp uid od rsv dd id acct early) := by
  change execDigop sp s = _
  unfold execDigop
  rw [takeMsg_some h]

theorem digop_effect (h : nextMsg s (isDigests sp) = some (.digests i uid od rsv dd id acct early)) :
    ∃ t, exec (.digop sp) s = .next t ∧ t.caravan.flight = s.caravan.flight.erase (.digests i uid od rsv dd id acct early) ∧ t.cistern.data = s.cistern.data ∧
      t.ops = s.ops := by
  obtain ⟨t, run, keeps⟩ := execDigop_keeps sp (Keeps.rfl_ _ s) (List.Subset.refl _)
  obtain rfl := Host.Outcome.next.inj ((exec_digop h).symm.trans run)
  exact ⟨_, run, flightOf_of_same (digestsIn_keeps sp uid od rsv dd id acct early (Keeps.rfl_ _ _) (List.Subset.refl _)).same, keeps.same.bytes_eq.1,
    keeps.same .ops (by decide)⟩

/-- A tag entry's charge leaves the layer keys. -/
theorem accountIn_keys (s : State) (o : OpV) (a : List Nat) (p : Nat) : (getPart (accountIn s o a) p).keys = (getPart s p).keys ∧
    (accountIn s o a).parts.length = s.parts.length := by
  have opened : (getPart (openTag s o.part (dLayer o.dsc) (dOper o.dsc)) p).keys = (getPart s p).keys ∧
      (openTag s o.part (dLayer o.dsc) (dOper o.dsc)).parts.length = s.parts.length := by
    unfold openTag
    dsimp only
    split
    · exact ⟨rfl, rfl⟩
    · split
      · exact ⟨rfl, rfl⟩
      · split
        · exact ⟨(getPart_updPart_proj Part.keys (addUse s o.part 2) o.part p _ fun _ => by rfl).trans (getPart_updPart_proj Part.keys s o.part p _ fun _ => rfl),
            (parts_length_updPart _ _ _).trans (parts_length_updPart s _ _)⟩
        · exact ⟨getPart_updPart_proj Part.keys s o.part p _ fun _ => rfl, parts_length_updPart s _ _⟩
  unfold accountIn chargeTag
  dsimp only
  exact ⟨(getPart_updPart_proj Part.keys _ o.part p _ fun _ => by rfl).trans opened.1, (parts_length_updPart _ _ _).trans opened.2⟩

theorem digestsIn_entered {k : LayerKey} {v : LkOp} (hp : partOfSp s sp < s.parts.length) (hk : k ∈ (getPart s (partOfSp s sp)).keys) (hv : v ∈ k.ops)
    (huid : v.uid = uid) : ∃ l ∈ (getPart (digestsIn s sp uid od rsv dd id acct early) (partOfSp s sp)).keys,
      { v with od := some od, rsv := rsv, dd := dd, id := id, rows := acct.getD 3 0, early := early } ∈ l.ops := by
  have account : ∃ u, (getPart u (partOfSp s sp)).keys = (getPart s (partOfSp s sp)).keys ∧ u.parts.length = s.parts.length ∧ u.tiles = s.tiles ∧
      digestsIn s sp uid od rsv dd id acct early = enterDigests u (partOfSp u sp) uid od rsv dd id (acct.getD 3 0) early := by
    refine ⟨onOp s uid fun o => accountIn s o acct, ?_, ?_, ?_, rfl⟩
    · exact onOp_ind (P := fun u => (getPart u (partOfSp s sp)).keys = (getPart s (partOfSp s sp)).keys) rfl fun o _ => (accountIn_keys s o acct _).1
    · exact onOp_ind (P := fun u => u.parts.length = s.parts.length) rfl fun o _ => (accountIn_keys s o acct 0).2
    · exact onOp_ind (P := fun u => u.tiles = s.tiles) rfl fun o _ => (accountIn_keeps o acct (Keeps.rfl_ _ s) (List.Subset.refl _)).same .tiles (by decide)
  obtain ⟨u, keys, len, tiles, e⟩ := account
  have part : partOfSp u sp = partOfSp s sp := by unfold partOfSp getTile; rw [tiles]
  rw [e, part, enterDigests, updLkOp, getPart_updPart u _ _ (len.symm ▸ hp), keys]
  refine ⟨_, List.mem_map_of_mem hk, ?_⟩
  have := List.mem_map_of_mem (f := fun o : LkOp => if o.uid = uid then { o with od := some od, rsv := rsv, dd := dd, id := id, rows := acct.getD 3 0, early := early } else o) hv
  rwa [if_pos huid] at this

theorem digop_entered {k : LayerKey} {v : LkOp} (h : nextMsg s (isDigests sp) = some (.digests i uid od rsv dd id acct early))
    (hp : partOfSp s sp < s.parts.length) (hk : k ∈ (getPart s (partOfSp s sp)).keys) (hv : v ∈ k.ops) (huid : v.uid = uid) :
    ∃ t l w, exec (.digop sp) s = .next t ∧ l ∈ (getPart t (partOfSp s sp)).keys ∧ w ∈ l.ops ∧ w.uid = uid ∧ w.od = some od ∧ w.dd = dd ∧
      w.id = id ∧ w.rsv = rsv ∧ w.rows = acct.getD 3 0 ∧ w.early = early ∧ t.ops = s.ops := by
  obtain ⟨t, run, -, -, ops⟩ := digop_effect h
  obtain ⟨left, -, -⟩ := leave_effect s (.digests i uid od rsv dd id acct early)
  obtain rfl := Host.Outcome.next.inj ((exec_digop h).symm.trans run)
  generalize leave s (.digests i uid od rsv dd id acct early) = u at left run ops
  have part : partOfSp u sp = partOfSp s sp := by unfold partOfSp getTile; rw [show u.tiles = s.tiles from left .tiles (by decide)]
  have len : u.parts.length = s.parts.length := congrArg List.length (left .parts (by decide) :)
  have keys : getPart u (partOfSp s sp) = getPart s (partOfSp s sp) := getPart_of_parts (left .parts (by decide)) _
  obtain ⟨l, hl, hw⟩ := digestsIn_entered (od := od) (dd := dd) (rsv := rsv) (id := id) (acct := acct) (early := early) (sp := sp) (s := u)
    (by rw [part, len]; exact hp) (by rw [part, keys]; exact hk) hv huid
  rw [part] at hl
  exact ⟨_, l, _, run, hl, hw, huid, rfl, rfl, rfl, rfl, rfl, rfl, ops⟩

end

/-! ### The rerun deadline (R218, R220) -/

/-- What a SUSPECT that stands shows. -/
def stands (o : OpV) : Option Nat × Nat := (o.res, o.outcome)

section
variable {s t : State} {i : Nat}

theorem freeTicket_proj {α : Type} (g : OpV → α) (hg : ∀ o x, g { o with ticket := x } = g o) (s : State) (i j : Nat) :
    (getOp (freeTicket s i) j).map g = (getOp s j).map g :=
  getOp_updOp_proj g { s with tickets := s.tickets.filter fun x => x.uid != i } i (fun o => { o with ticket := none }) (fun _ => rfl) (fun o _ => hg o none) j

theorem finalize_stands (s : State) (i : Nat) : (getOp (finalize s i) i).map stands = (getOp s i).map stands := by
  unfold finalize
  refine onOp_ind (P := fun t => (getOp t i).map stands = (getOp s i).map stands) rfl fun o _ => ?_
  have fin : (getOp (updOp (freeTicket s i) i fun x => { x with state := .final, verdict := (opFused o).1, mm := 0 }) i).map stands = (getOp s i).map stands :=
    (getOp_updOp_proj stands (freeTicket s i) i _ (fun _ => by rfl) (fun _ _ => by rfl) i).trans (freeTicket_proj stands (fun _ _ => rfl) s i i)
  dsimp only
  generalize (updOp (freeTicket s i) i fun x => { x with state := .final, verdict := (opFused o).1, mm := 0 }) = u at fin ⊢
  have counted : (getOp (if (opFused o).1 = vMirage then updCnt u o.part fun c => { c with mirage := satInc c.mirage }
      else if (opFused o).1 = vSuspect then updCnt u o.part fun c => { c with suspect := satInc c.suspect } else u) i).map stands = (getOp s i).map stands := by
    split
    · exact fin
    · split
      · exact fin
      · exact fin
  generalize (if (opFused o).1 = vMirage then updCnt u o.part fun c => { c with mirage := satInc c.mirage }
      else if (opFused o).1 = vSuspect then updCnt u o.part fun c => { c with suspect := satInc c.suspect } else u) = v at counted ⊢
  split
  · exact counted
  · rw [getOp_of_same (addRec_same v _)]
    exact counted

/-- Settling an operation that no replay found a MIRAGE keeps its resolution. -/
theorem settle_stands {o : OpV} (ho : getOp s i = some o) (hm : o.replay ≠ vMirage) : (getOp (settle s i) i).map stands = (getOp s i).map stands := by
  unfold settle
  rw [onOp_some ho]
  split
  · rfl
  · rfl
  · rw [if_neg hm]
    dsimp only
    split
    · exact finalize_stands s i
    · split
      · exact getOp_updOp_proj stands s i _ (fun _ => by rfl) (fun _ _ => by rfl) i
      · rfl

theorem standSuspect_stands {o : OpV} (outcome : Nat) (ho : getOp s i = some o) (hm : o.replay ≠ vMirage) :
    (getOp (standSuspect s i outcome) i).map stands = some (some vSuspect, outcome) := by
  have freed := part_of_proj (freeTicket_proj OpV.replay (fun _ _ => rfl) s i i) ho
  obtain ⟨v, hv, replay⟩ := freed
  have stood : getOp (updOp (freeTicket s i) i fun o => { o with res := some vSuspect, outcome := outcome }) i =
      some { v with res := some vSuspect, outcome := outcome } := by
    rw [getOp_updOp (freeTicket s i) i (fun o => { o with res := some vSuspect, outcome := outcome }) fun _ => rfl, hv]
    rfl
  have input := getOp_of_same (opInput_keeps 0x45 o outcome true 0 (Keeps.rfl_ _ (updOp (freeTicket s i) i fun o => { o with res := some vSuspect, outcome := outcome }))
    (List.Subset.refl _)).same i
  unfold standSuspect
  rw [onOp_some ho]
  rw [settle_stands (input.trans stood) (by rw [show _ = v.replay from rfl, replay]; exact hm), input, stood]
  rfl

end

theorem find?_unique {α : Type} {l : List α} {p : α → Bool} {a : α} (ha : a ∈ l) (hp : p a = true) (hu : ∀ b ∈ l, p b = true → b = a) : l.find? p = some a := by
  cases h : l.find? p with
  | none => exact absurd hp (List.find?_eq_none.1 h a ha)
  | some b => rw [hu b (List.mem_of_find?_eq_some h) (List.find?_some h)]

theorem rerunDeadline_effect {s : State} {sp : Nat} {stag ep : W16} {o : OpV} (ho : getOp s o.uid = some o) (hsp : o.spire = sp) (hst : dStag o.dsc = stag)
    (hep : dEpoch o.dsc = ep) (hstate : o.state = .resolving) (hsus : opSuspect o = true) (hres : o.res = none) (hby : o.rerunBy = none)
    (hm : o.replay ≠ vMirage) (hu : ∀ v ∈ s.ops, v.spire = sp → dStag v.dsc = stag → dEpoch v.dsc = ep → v = o) :
    ∃ t v, exec (.rerunDeadline sp stag ep) s = .next t ∧ getOp t o.uid = some v ∧ v.res = some vSuspect ∧ v.outcome = 6 ∧
      t.spires = s.spires ∧ t.cistern.data = s.cistern.data := by
  have found : (s.ops.find? fun o => o.spire == sp && dStag o.dsc == stag && dEpoch o.dsc == ep && o.state == .resolving
      && opSuspect o && o.res.isNone && o.rerunBy.isNone) = some o := by
    refine find?_unique (List.mem_of_find?_eq_some ho) ?_ fun v hv h => ?_
    · rw [hsp, hst, hep, hstate, hsus, hres, hby]
      simp
    · simp only [Bool.and_eq_true, beq_iff_eq] at h
      obtain ⟨⟨⟨⟨⟨⟨h1, h2⟩, h3⟩, -⟩, -⟩, -⟩, -⟩ := h
      exact hu v hv h1 h2 h3
  obtain ⟨t, run, keeps⟩ := execRerunDeadline_keeps sp stag ep (Keeps.rfl_ _ s) (List.Subset.refl _)
  have run' : exec (.rerunDeadline sp stag ep) s = .next (standSuspect s o.uid 6) := by
    change execRerunDeadline sp stag ep s = _
    unfold execRerunDeadline
    rw [found]
  obtain rfl := Host.Outcome.next.inj (run'.symm.trans run)
  obtain ⟨v, hv, shown⟩ := Option.map_eq_some_iff.1 (standSuspect_stands 6 ho hm)
  exact ⟨_, v, run, hv, congrArg Prod.fst shown, congrArg Prod.snd shown, keeps.same .spires (by decide), keeps.same.bytes_eq.1⟩

/-- Settles O26, from what a summary, a profile and the digests change and what settling an operation keeps. -/
theorem verdictMessages : Obligations.VerdictMessages := by
  refine ⟨fun s sp m => ⟨fun h => ?_, fun h => ?_, fun h => ?_⟩, fun _ _ _ _ _ _ _ _ _ _ _ _ h ho hst => scrsum_opened h ho hst,
    fun _ _ _ _ _ _ _ _ _ _ _ _ h ho hst => scrsum_closed h ho hst, fun _ _ _ _ _ _ _ _ _ h ho hp hen hl hb hnew hroom => expprof_first h ho hp hen hl hb hnew hroom,
    fun _ _ _ _ _ _ _ _ _ _ _ _ h hp hk hv huid => digop_entered h hp hk hv huid,
    fun _ _ _ _ _ ho hsp hst hep hstate hsus hres hby hm hu => rerunDeadline_effect ho hsp hst hep hstate hsus hres hby hm hu⟩
  · have is := nextMsg_test h
    cases m with
    | summary _ _ _ _ _ _ _ _ _ => exact scrsum_effect h
    | _ => cases is
  · have is := nextMsg_test h
    cases m with
    | profile _ _ _ _ _ _ => exact expprof_effect h
    | _ => cases is
  · have is := nextMsg_test h
    cases m with
    | digests _ _ _ _ _ _ _ _ =>
      obtain ⟨t, run, flight, data, -⟩ := digop_effect h
      exact ⟨t, run, flight, data⟩
    | _ => cases is

end Sys2Proof.Machine
end

section
/-! Responses and errors of a memory port (R87, R92, R257). -/

set_option Elab.async false

namespace Sys2Proof.Machine

/-! ### The memory ports' state -/

section
variable (s : State) (far : Bool) (f : MemPort → MemPort)

theorem updMem_frame : updMem s far f = { s with near := (updMem s far f).near, far := (updMem s far f).far } := by cases far <;> rfl

end

/-- The outstanding requests of both ports. -/
def outs (s : State) : List MemReq × List MemReq := (s.near.out, s.far.out)

theorem memPort_out {s t : State} (h : outs t = outs s) (far : Bool) : (memPort t far).out = (memPort s far).out := by
  cases far
  · exact congrArg Prod.fst h
  · exact congrArg Prod.snd h

/-- R257: the end of an item leaves both ports' requests, and queues the header of a log's entry behind what waits. -/
theorem itemDone_effect (s : State) (far : Bool) (i : NearItem) : outs (itemDone s far i) = outs s ∧ (itemDone s far i).far = s.far ∧
    (logEntry i = none → (itemDone s far i).near = s.near) ∧
    (∀ e, logEntry i = some e → ∃ n, (itemDone s far i).near.waiting = s.near.waiting ++ [.head e.1 e.2.1 n]) ∧
    itemDone s far i = { s with near := (itemDone s far i).near, parts := (itemDone s far i).parts } := by
  unfold itemDone pushHead
  cases h : logEntry i with
  | none => exact ⟨rfl, rfl, fun _ => rfl, (fun _ h => by cases h), rfl⟩
  | some e => exact ⟨rfl, rfl, (fun h => by cases h), fun x hx => Option.some.inj hx ▸ ⟨_, rfl⟩, rfl⟩

/-! ### Responses (R87) -/

section
variable {s : State} {far : Bool} {tag : Byte} {r : MemReq}

/-- The requests but those of a tag. -/
def outLeft (s : State) (far : Bool) (tag : Byte) : List MemReq := (memPort s far).out.filter fun y => y.tag != tag

/-- Whether a request is its item's last. -/
def lastOf (s : State) (far : Bool) (r : MemReq) : Bool :=
  !((outLeft s far r.tag).any fun y => y.issue == r.issue) && !((memPort s far).cur.any fun c => c.num == r.issue)

/-- A request that is over, and what it read. -/
def reqEnded (s : State) (far : Bool) (r : MemReq) : State :=
  let s1 := updMem s far fun m => { m with out := m.out.filter fun x => x.tag != r.tag }
  if r.wr || r.poison then s1 else readIn s1 r

theorem readIn_frame (s : State) (r : MemReq) : readIn s r = { s with keep := { s.keep with readback := (readIn s r).keep.readback } } := by
  unfold readIn
  split <;> rfl

theorem reqEnded_effect (s : State) (far : Bool) (r : MemReq) : (memPort (reqEnded s far r) far).out = outLeft s far r.tag ∧
    memPort (reqEnded s far r) (!far) = memPort s (!far) ∧ (memPort (reqEnded s far r) far).cur = (memPort s far).cur ∧
    (reqEnded s far r).near.waiting = s.near.waiting ∧ (reqEnded s far r).far.waiting = s.far.waiting ∧
    reqEnded s far r = { s with
      near := (reqEnded s far r).near, far := (reqEnded s far r).far, keep := { s.keep with readback := (reqEnded s far r).keep.readback } } := by
  unfold reqEnded
  dsimp only
  have own := memPort_updMem s far fun m => { m with out := m.out.filter fun x => x.tag != r.tag }
  have other := memPort_updMem_not s far fun m => { m with out := m.out.filter fun x => x.tag != r.tag }
  have frame := updMem_frame s far fun m => { m with out := m.out.filter fun x => x.tag != r.tag }
  have waits : (updMem s far fun m => { m with out := m.out.filter fun x => x.tag != r.tag }).near.waiting = s.near.waiting ∧
      (updMem s far fun m => { m with out := m.out.filter fun x => x.tag != r.tag }).far.waiting = s.far.waiting := by
    cases far <;> exact ⟨rfl, rfl⟩
  generalize (updMem s far fun m => { m with out := m.out.filter fun x => x.tag != r.tag }) = u at own other frame waits ⊢
  have ended (b : Bool) : memPort (readIn u r) b = memPort u b := by
    rw [readIn_frame]
    rfl
  split
  · exact ⟨congrArg MemPort.out own, other, (congrArg MemPort.cur own :), waits.1, waits.2, by rw [frame]⟩
  · have read := readIn_frame u r
    refine ⟨(congrArg MemPort.out ((ended far).trans own) :), (ended _).trans other, (congrArg MemPort.cur ((ended far).trans own) :), ?_, ?_, ?_⟩
    · exact (congrArg (fun v : State => v.near.waiting) read).trans waits.1
    · exact (congrArg (fun v : State => v.far.waiting) read).trans waits.2
    · generalize (readIn u r).keep.readback = b at read
      rw [read, frame]

theorem reqDone_eq (s : State) (far : Bool) (r : MemReq) :
    reqDone s far r = if lastOf s far r then itemDone (reqEnded s far r) far r.item else reqEnded s far r := by
  obtain ⟨out, -, cur, -⟩ := reqEnded_effect s far r
  have last : (((memPort (reqEnded s far r) far).out.any fun x => x.issue == r.issue) || ((memPort (reqEnded s far r) far).cur.any fun c => c.num == r.issue))
      = !lastOf s far r := by
    rw [out, cur, lastOf, ← Bool.not_or, Bool.not_not]
  change (if ((memPort (reqEnded s far r) far).out.any fun x => x.issue == r.issue) || ((memPort (reqEnded s far r) far).cur.any fun c => c.num == r.issue)
    then reqEnded s far r else itemDone (reqEnded s far r) far r.item) = _
  rw [last]
  cases lastOf s far r <;> rfl

theorem reqDone_effect (s : State) (far : Bool) (r : MemReq) : (memPort (reqDone s far r) far).out = outLeft s far r.tag ∧
    (memPort (reqDone s far r) (!far)).out = (memPort s (!far)).out ∧ (reqDone s far r).far.waiting = s.far.waiting ∧
    (lastOf s far r = false ∨ logEntry r.item = none → (reqDone s far r).near.waiting = s.near.waiting) ∧
    (∀ e, lastOf s far r = true → logEntry r.item = some e → ∃ n, (reqDone s far r).near.waiting = s.near.waiting ++ [.head e.1 e.2.1 n]) ∧
    (reqDone s far r).keep.readback = (reqEnded s far r).keep.readback ∧
    reqDone s far r = { s with
      near := (reqDone s far r).near, far := (reqDone s far r).far, parts := (reqDone s far r).parts
      keep := { s.keep with readback := (reqDone s far r).keep.readback } } := by
  obtain ⟨out, other, cur, near, farw, frame⟩ := reqEnded_effect s far r
  rw [reqDone_eq]
  generalize reqEnded s far r = u at out other cur near farw frame ⊢
  obtain ⟨outs_, sameFar, none_, some_, doneFrame⟩ := itemDone_effect u far r.item
  cases lastOf s far r with
  | false =>
    rw [if_neg (by decide)]
    refine ⟨out, congrArg MemPort.out other, farw, fun _ => near, (fun _ h => absurd h (by decide)), rfl, ?_⟩
    rw [frame]
  | true =>
    rw [if_pos rfl]
    refine ⟨(memPort_out outs_ far).trans out, (memPort_out outs_ _).trans (congrArg MemPort.out other), (congrArg MemPort.waiting sameFar).trans farw, ?_, ?_, ?_, ?_⟩
    · rintro (h | h)
      · cases h
      · exact (congrArg MemPort.waiting (none_ h)).trans near
    · intro e _ he
      obtain ⟨n, hn⟩ := some_ e he
      exact ⟨n, near ▸ hn⟩
    · rw [doneFrame]
    · rw [doneFrame]
      rw [frame]

theorem awaited_mem (h : awaited s far tag = some r) : r ∈ (memPort s far).out ∧ r.tag = tag := by
  refine ⟨List.mem_of_find?_eq_some h, ?_⟩
  have := List.find?_some h
  exact beq_iff_eq.1 (Bool.and_eq_true_iff.1 this).1

theorem exec_npResponse (k : RspCode) (x : BitVec 512) (h : awaited s far tag = some r) : exec (.npResponse far tag k x) s =
    .next (if k ≠ .ok then memErr s far r else if r.wr then reqDone s far r else readBeat s far r x) := by
  change execNpResponse far tag k x s = _
  unfold execNpResponse
  rw [h]

theorem exec_memerrTimeout (h : awaited s far tag = some r) : exec (.memerrTimeout far tag) s = .next (memErr s far r) := by
  change execMemerrTimeout far tag s = _
  unfold execMemerrTimeout
  rw [h]

theorem exec_response_none (h : awaited s far tag = none) (k : RspCode) (x : BitVec 512) :
    exec (.npResponse far tag k x) s = .next s ∧ exec (.memerrTimeout far tag) s = .next s := by
  constructor
  · change execNpResponse far tag k x s = _
    unfold execNpResponse
    rw [h]
  · change execMemerrTimeout far tag s = _
    unfold execMemerrTimeout
    rw [h]

/-- R87: the response of a write. -/
theorem writeResponse_effect (x : BitVec 512) (h : awaited s far tag = some r) (hw : r.wr = true) :
    ∃ t, exec (.npResponse far tag .ok x) s = .next t ∧ (memPort t far).out = outLeft s far tag ∧ (memPort t (!far)).out = (memPort s (!far)).out ∧
      t.far.waiting = s.far.waiting ∧ (lastOf s far r = false ∨ logEntry r.item = none → t.near.waiting = s.near.waiting) ∧
      (∀ e, lastOf s far r = true → logEntry r.item = some e → ∃ n, t.near.waiting = s.near.waiting ++ [.head e.1 e.2.1 n]) ∧
      t = { s with near := t.near, far := t.far, parts := t.parts } := by
  have run := exec_npResponse .ok x h
  rw [if_neg (by decide), if_pos hw] at run
  obtain ⟨out, other, farw, near, head, read, frame⟩ := reqDone_effect s far r
  have unread : (reqEnded s far r).keep.readback = s.keep.readback := by
    unfold reqEnded
    rw [hw]
    cases far <;> rfl
  refine ⟨_, run, (awaited_mem h).2 ▸ out, other, farw, near, head, ?_⟩
  generalize reqDone s far r = t at frame read ⊢
  rw [read, unread] at frame
  exact frame

/-- R87: one line of a read that is not the last. -/
theorem readLine_effect (x : BitVec 512) (h : awaited s far tag = some r) (hw : r.wr = false) (hmore : r.words.length + 16 < 16 * r.lines) :
    ∃ t, exec (.npResponse far tag .ok x) s = .next t ∧ { r with words := r.words ++ lineWords x } ∈ (memPort t far).out ∧
      (memPort t far).out.length = (memPort s far).out.length ∧ (memPort t far).waiting = (memPort s far).waiting ∧
      t = { s with near := t.near, far := t.far } := by
  have run := exec_npResponse .ok x h
  rw [if_neg (by decide), if_neg (by rw [hw]; decide)] at run
  have beat : readBeat s far r x = updMem s far fun m => { m with out := m.out.map fun y => if y.tag = r.tag then { r with words := r.words ++ lineWords x } else y } :=
    if_pos (by
      change (r.words ++ lineWords x).length < 16 * r.lines
      rwa [List.length_append, show (lineWords x).length = 16 from rfl])
  rw [beat] at run
  refine ⟨_, run, ?_, ?_, ?_, updMem_frame s far _⟩
  · rw [memPort_updMem]
    refine List.mem_map.2 ⟨r, (awaited_mem h).1, if_pos rfl⟩
  · rw [memPort_updMem]
    exact List.length_map _
  · rw [memPort_updMem]

/-- R87, R279: the last line of a read. -/
theorem readEnds_effect (x : BitVec 512) {p slot : Nat} (h : awaited s far tag = some r) (hw : r.wr = false) (hi : r.item = .oasisRead p slot)
    (hlast : 16 * r.lines ≤ r.words.length + 16) :
    ∃ t, exec (.npResponse far tag .ok x) s = .next t ∧ (memPort t far).out = outLeft s far tag ∧
      (r.poison = false → ∃ l, (p, slot, l) ∈ t.keep.readback) ∧ (r.poison = true → t.keep.readback = s.keep.readback) ∧
      t = { s with near := t.near, far := t.far, parts := t.parts, keep := { s.keep with readback := t.keep.readback } } := by
  have run := exec_npResponse .ok x h
  rw [if_neg (by decide), if_neg (by rw [hw]; decide)] at run
  have beat : readBeat s far r x = reqDone s far { r with words := r.words ++ lineWords x } :=
    if_neg (by
      change ¬ (r.words ++ lineWords x).length < 16 * r.lines
      rw [List.length_append, show (lineWords x).length = 16 from rfl]
      omega)
  rw [beat] at run
  obtain ⟨out, -, -, -, -, read, frame⟩ := reqDone_effect s far { r with words := r.words ++ lineWords x }
  refine ⟨_, run, (awaited_mem h).2 ▸ out, fun hp => ?_, fun hp => ?_, frame⟩
  · rw [read, reqEnded]
    dsimp only
    rw [hw, hp, if_neg (by decide), readIn]
    dsimp only
    rw [hi]
    exact ⟨_, List.mem_append_right _ (List.mem_singleton.2 rfl)⟩
  · rw [read, reqEnded]
    dsimp only
    rw [hp, Bool.or_true, if_pos rfl]
    cases far <;> rfl

/-! ### Errors and retries (R92) -/

theorem addRec_outs (s : State) (x : Rec) : outs (addRec s x) = outs s := by
  unfold addRec
  split
  · rfl
  · split
    · rfl
    · dsimp only
      split <;> rfl

theorem outs_of_same {t : State} {l : List Fld} (h : Same l s t) (hn : .near ∉ l := by decide) (hf : .far ∉ l := by decide) : outs t = outs s := by
  rw [outs, outs, show t.near = s.near from h .near hn, show t.far = s.far from h .far hf]

/-- What a memory violation leaves and gives. -/
theorem memViol_effect (s : State) (p : Nat) (d : W32) (ep : W16) (beats : Nat) :
    outs (portViol s .memerr p 0 0xFFFF 0xFFFF 0x01 d ep beats) = outs s ∧
      (s.belfry.run = true → ∃ i ∈ (portViol s .memerr p 0 0xFFFF 0xFFFF 0x01 d ep beats).belfry.inputs, i.code = 0x9B) := by
  unfold portViol
  dsimp only
  have counted := (countViol_keeps .memerr 0 (Keeps.rfl_ _ s) (List.Subset.refl _)).same
  have recorded := addRec_same (countViol s .memerr 0) (violRec s.time.tick .memerr 0xFFFF p 0 0xFFFF 0xFFFF 0x01 d ep beats)
  have outs_ := (addRec_outs (countViol s .memerr 0) (violRec s.time.tick .memerr 0xFFFF p 0 0xFFFF 0xFFFF 0x01 d ep beats)).trans (outs_of_same counted)
  generalize addRec (countViol s .memerr 0) (violRec s.time.tick .memerr 0xFFFF p 0 0xFFFF 0xFFFF 0x01 d ep beats) = u at recorded outs_ ⊢
  have input := addInput_same u (mkInput u (violInput .memerr) p 0xFFFF 0xFFFF (0x01 : Byte).toNat false 0 0)
  refine ⟨(outs_of_same input).trans outs_, fun hrun => ⟨_, addInput_mem ?_ _ rfl, rfl⟩⟩
  exact ((recorded .belfryRun (by decide) :).trans (counted .belfryRun (by decide))).trans hrun

/-- A failed request's violation and its count. -/
def errCounted (s : State) (far : Bool) (r : MemReq) : State :=
  updMem (portViol s .memerr (itemPart s r.item) 0 0xFFFF 0xFFFF 0x01 (BitVec.ofNat 32 r.tag.toNat) (getPart s (itemPart s r.item)).epoch r.lines) far fun m =>
    { m with big := updAt m.big 4 (· + 1) }

theorem errCounted_effect (s : State) (far : Bool) (r : MemReq) : outs (errCounted s far r) = outs s ∧
    Same [.alert, .inputs, .cistern, .parts, .records, .early, .near, .far, .portViols] s (errCounted s far r) ∧
    (s.belfry.run = true → ∃ i ∈ (errCounted s far r).belfry.inputs, i.code = 0x9B) := by
  obtain ⟨outs_, input⟩ := memViol_effect s (itemPart s r.item) (BitVec.ofNat 32 r.tag.toNat) (getPart s (itemPart s r.item)).epoch r.lines
  have same : Keeps [.alert, .inputs, .cistern, .parts, .records, .early, .near, .far, .portViols] s
      (portViol s .memerr (itemPart s r.item) 0 0xFFFF 0xFFFF 0x01 (BitVec.ofNat 32 r.tag.toNat) (getPart s (itemPart s r.item)).epoch r.lines) :=
    portViol_keeps _ _ _ _ _ _ _ _ _ (Keeps.rfl_ _ s) (by decide)
  unfold errCounted
  generalize portViol s .memerr (itemPart s r.item) 0 0xFFFF 0xFFFF 0x01 (BitVec.ofNat 32 r.tag.toNat) (getPart s (itemPart s r.item)).epoch r.lines = u at outs_ input same ⊢
  refine ⟨?_, (updMem_keeps far _ same (by decide)).same, ?_⟩
  · rw [← outs_]
    cases far <;> rfl
  · cases far <;> exact input

theorem memErr_eq (s : State) (far : Bool) (r : MemReq) : memErr s far r =
    if !r.wr then reqDone (errCounted s far r) far { r with poison := true }
    else if r.retries ≥ 3 then alert (reqDone (errCounted s far r) far r) alMemport
    else updMem (errCounted s far r) far fun m => { m with out := m.out.map fun x => if x.tag = r.tag then { x with retryDue := true } else x } := rfl

theorem reqDone_outOff {u : State} (hu : outs u = outs s) (r' : MemReq) (ht : r'.tag = tag) : ∀ y ∈ (memPort (reqDone u far r') far).out, y.tag ≠ tag := by
  intro y hy
  rw [(reqDone_effect u far r').1, outLeft, ht] at hy
  simpa using (List.mem_filter.1 hy).2

/-- R92: a request that failed. -/
theorem memErr_effect (h : awaited s far tag = some r) : (s.belfry.run = true → ∃ i ∈ (memErr s far r).belfry.inputs, i.code = 0x9B) ∧
    (r.wr = true → r.retries < 3 → ∃ y ∈ (memPort (memErr s far r) far).out, y.tag = tag ∧ y.item = r.item ∧ y.retryDue = true) ∧
    (r.wr = true → 3 ≤ r.retries → (∀ y ∈ (memPort (memErr s far r) far).out, y.tag ≠ tag) ∧ (memErr s far r).keep.alert.getLsbD alMemport = true) ∧
    (r.wr = false → (∀ y ∈ (memPort (memErr s far r) far).out, y.tag ≠ tag) ∧ (memErr s far r).keep.readback = s.keep.readback) := by
  obtain ⟨outs_, same, input⟩ := errCounted_effect s far r
  obtain ⟨mem, htag⟩ := awaited_mem h
  rw [memErr_eq]
  generalize errCounted s far r = u at outs_ same input ⊢
  have inputs (r' : MemReq) : (reqDone u far r').belfry = u.belfry := by rw [(reqDone_effect u far r').2.2.2.2.2.2]
  rcases (Bool.eq_false_or_eq_true r.wr).symm with hw | hw
  · rw [if_pos (by rw [hw]; rfl)]
    refine ⟨fun hrun => (inputs _).symm ▸ input hrun, (fun h => absurd (hw.symm.trans h) (by decide)), (fun h => absurd (hw.symm.trans h) (by decide)), fun _ => ⟨reqDone_outOff outs_ _ htag, ?_⟩⟩
    have read : (reqEnded u far { r with poison := true }).keep.readback = u.keep.readback := by
      unfold reqEnded
      dsimp only
      rw [Bool.or_true, if_pos rfl]
      cases far <;> rfl
    refine ((reqDone_effect u far { r with poison := true }).2.2.2.2.2.1.trans read).trans ?_
    exact (congrArg (fun x => x.2.2.2.2.2.2.2.2.2.2.1) (same .keep (by decide)) :)
  · rw [if_neg (by rw [hw]; decide)]
    by_cases hr : r.retries ≥ 3
    · rw [if_pos hr]
      exact ⟨fun hrun => (inputs r).symm ▸ input hrun, fun _ hlt => absurd hr (by omega), fun _ _ => ⟨reqDone_outOff outs_ r htag, alert_getLsbD _ (by decide)⟩,
        fun h => absurd (hw.symm.trans h) (by decide)⟩
    · rw [if_neg hr]
      refine ⟨fun hrun => ?_, fun _ _ => ⟨{ r with retryDue := true }, ?_, htag, rfl, rfl⟩, (fun _ h => absurd h hr), fun h => absurd (hw.symm.trans h) (by decide)⟩
      · have := input hrun
        cases far <;> exact this
      · rw [memPort_updMem]
        exact List.mem_map.2 ⟨r, (memPort_out outs_ far).symm ▸ mem, if_pos rfl⟩

theorem errorResponse_effect {k : RspCode} {x : BitVec 512} (h : awaited s far tag = some r) (hk : k ≠ .ok) {c : Instr}
    (hc : c ∈ [Instr.npResponse far tag k x, .memerrTimeout far tag]) :
    ∃ t, exec c s = .next t ∧ (s.belfry.run = true → ∃ i ∈ t.belfry.inputs, i.code = 0x9B) ∧
        (r.wr = true → r.retries < 3 → ∃ y ∈ (memPort t far).out, y.tag = tag ∧ y.item = r.item ∧ y.retryDue = true) ∧
        (r.wr = true → 3 ≤ r.retries → (∀ y ∈ (memPort t far).out, y.tag ≠ tag) ∧ t.keep.alert.getLsbD alMemport = true) ∧
        (r.wr = false → (∀ y ∈ (memPort t far).out, y.tag ≠ tag) ∧ t.keep.readback = s.keep.readback) ∧
        t.spires = s.spires ∧ t.cistern.data = s.cistern.data := by
  have run : exec c s = .next (memErr s far r) := by
    simp only [List.mem_cons, List.not_mem_nil, or_false] at hc
    rcases hc with rfl | rfl
    · exact (exec_npResponse k x h).trans (congrArg Host.Outcome.next (if_pos hk))
    · exact exec_memerrTimeout h
  obtain ⟨input, again, given, read⟩ := memErr_effect h
  have same := (memErr_keeps far r (Keeps.rfl_ _ s) (List.Subset.refl _)).same
  exact ⟨_, run, input, again, given, read, same .spires (by decide), same.bytes_eq.1⟩

/-- R92: a write that is issued again. -/
theorem writeRetry_effect (h : (memPort s far).out.find? (fun r => r.tag == tag && r.retryDue) = some r) :
    ∃ t, exec (.writeRetry far tag) s = .next t ∧
      (∃ y ∈ (memPort t far).out, y.tag = tag ∧ y.item = r.item ∧ y.retries = r.retries + 1 ∧ y.retryDue = false) ∧
      (memPort t far).out.length = (memPort s far).out.length ∧ t = { s with near := t.near, far := t.far } := by
  have htag : r.tag = tag := beq_iff_eq.1 (Bool.and_eq_true_iff.1 (List.find?_some h :)).1
  have run : exec (.writeRetry far tag) s = .next (updMem s far fun m => countReq true r.lines { m with
      out := m.out.map fun x => if x.tag = tag then { x with retries := x.retries + 1, retryDue := false } else x }) := by
    change execWriteRetry far tag s = _
    unfold execWriteRetry
    rw [h]
  refine ⟨_, run, ⟨{ r with retries := r.retries + 1, retryDue := false }, ?_, htag, rfl, rfl, rfl⟩, ?_, updMem_frame s far _⟩
  · rw [memPort_updMem]
    exact List.mem_map.2 ⟨r, List.mem_of_find?_eq_some h, if_pos htag⟩
  · rw [memPort_updMem]
    exact List.length_map _

end

/-- Settles O44, from what the end of a request leaves and what a failed one's violation gives. -/
theorem memoryPortResponses : Obligations.MemoryPortResponses := by
  refine ⟨fun s far tag x r h hw => ?_, fun _ _ _ x _ h hw hmore => readLine_effect x h hw hmore, fun _ _ _ x _ _ _ h hw hi hlast => readEnds_effect x h hw hi hlast,
    fun _ _ _ _ _ _ h hk _ hc => errorResponse_effect h hk hc, fun _ _ _ _ h => writeRetry_effect h, fun _ _ _ k x h => exec_response_none h k x⟩
  have effect := writeResponse_effect x h hw
  unfold lastOf at effect
  rw [(awaited_mem h).2] at effect
  exact effect

end Sys2Proof.Machine
end

section
/-! Replica comparison: digest logs, DIGEST frames, the end of a DIVERGE (R292 to R296). -/

set_option Elab.async false

namespace Sys2Proof.Machine

/-! ### The digest logs under replica comparison (R292 to R296) -/

/-- From `s` to `t` no partition is added or lost, and no log changes. -/
structure LogsKept (s t : State) : Prop where
  length : t.parts.length = s.parts.length
  logs : ∀ p, (getPart t p).logs = (getPart s p).logs

section
variable {s t u : State}

theorem LogsKept.rfl_ (s : State) : LogsKept s s := ⟨rfl, fun _ => rfl⟩

theorem LogsKept.of_parts (h : LogsKept s t) (e : u.parts = t.parts) : LogsKept s u :=
  ⟨(congrArg List.length e).trans h.length, fun p => by rw [getPart_of_parts e, h.logs]⟩

theorem LogsKept.of_same {l : List Fld} (h : LogsKept s t) (e : Same l t u) (hl : .parts ∉ l := by decide) : LogsKept s u := h.of_parts (e .parts hl)

theorem LogsKept.updPart (h : LogsKept s t) (k : Nat) (f : Part → Part) (hf : ∀ q, (f q).logs = q.logs) : LogsKept s (updPart t k f) :=
  ⟨(parts_length_updPart t k f).trans h.length, fun p => (getPart_updPart_logs t p k f hf).trans (h.logs p)⟩

theorem LogsKept.updClosed (h : LogsKept s t) (p : Nat) (b : LdBody) (f : ClosedKey → ClosedKey) : LogsKept s (updClosed t p b f) := h.updPart p _ fun _ => rfl

theorem LogsKept.dropTds (h : LogsKept s t) (p : Nat) (c : ClosedKey) : LogsKept s (dropTds t p c) := (h.updPart p _ fun _ => by rfl).updClosed p _ _

theorem LogsKept.releaseTds (h : LogsKept s t) (p : Nat) (b : LdBody) : LogsKept s (releaseTds t p b) := by
  unfold Machine.releaseTds
  split
  · exact h
  · split
    · exact h.dropTds p _
    · exact h

theorem LogsKept.divergeEnds (h : LogsKept s t) (p entry : Nat) (c : ClosedKey) (sp : Option Nat) : LogsKept s (divergeEnds t p entry c sp) := by
  unfold Machine.divergeEnds divergeInput
  dsimp only
  refine LogsKept.of_same ?_ (addInput_same _ _)
  refine LogsKept.releaseTds ?_ p c.body
  exact (h.updClosed p c.body fun c => { c with diverge := c.diverge.filter fun e => e != entry }).of_parts rfl

theorem LogsKept.nameTile (h : LogsKept s t) (e : Nat × ReplicaCfg) (b : LdBody) : LogsKept s (nameTile t e b) := by
  unfold Machine.nameTile
  dsimp only
  split
  · split
    · exact h.divergeEnds _ _ _ _
    · exact h
  · exact h

theorem LogsKept.diverged (h : LogsKept s t) (e : Nat × ReplicaCfg) (c : ClosedKey) (peer : LdBody) : LogsKept s (diverged t e c peer) := by
  have sent (q : Nat) (l : List (List W64)) (v : State) (hv : LogsKept s v) : LogsKept s (l.foldl (fun s body => sendBan s q 0x31 body) v) := by
    induction l generalizing v with
    | nil => exact hv
    | cons b l ih => exact ih _ (hv.of_same (sendBan_same v q 0x31 b))
  unfold Machine.diverged
  dsimp only
  split
  · exact h.divergeEnds _ _ _ _
  · split
    · exact h.divergeEnds _ _ _ _
    · split
      · exact ((sent _ _ t h).updClosed _ _ _).nameTile e _
      · exact h.divergeEnds _ _ _ _

end

/-- From `s` to `t` a record of a kind enters the digest log of a partition, and none other. -/
def DigestLogged (s t : State) (p : Nat) (k : RecKind) (last : W32) : Prop :=
  (getPart t p).logs.digests.prod = (getPart s p).logs.digests.prod + 1 ∧
    ∃ x ∈ (getPart t p).logs.digests.items, x.kind = k ∧ x.part = p ∧ x.body.getLast? = some last

section
variable {s t u : State} {p : Nat} {k : RecKind} {last : W32}

theorem DigestLogged.kept (h : DigestLogged s t p k last) (g : LogsKept t u) : DigestLogged s u p k last := by
  unfold DigestLogged
  rw [g.logs]
  exact h

theorem DigestLogged.after (g : LogsKept s t) (h : DigestLogged t u p k last) : DigestLogged s u p k last := by
  unfold DigestLogged
  rw [← g.logs]
  exact h

theorem dcmpRec_logged (hp : p < s.parts.length) (entry : Nat) (era : W16) (step : W32) (layer : W16) (own peer : W64) (outcome : Nat) :
    DigestLogged s (dcmpRec s p entry era step layer own peer outcome) p .dcmp (BitVec.ofNat 32 outcome) := by
  unfold DigestLogged dcmpRec
  rw [getPart_logDigest hp]
  exact ⟨rfl, _, mem_push (by decide) _ _, rfl, rfl, List.getLast?_concat⟩

end

/-! ### DIGEST (R294) -/

/-- What a DIGEST frame in order does while Banen is in service. -/
theorem exec_digest {s : State} {h : BanHdr} (b : LdBody) (hup : (getPort s h.port).up = true) (hseq : h.seq = (getPort s h.port).recvSeq)
    (hsafe : inSafe s uBan = false) : ∃ u, OnPort h.port s u ∧ exec (.digest h b) s = .next (compareTick (keepPeerRec u h.src b)) := by
  obtain ⟨on, -⟩ := inOrder_own (h := h) hup 12
  refine ⟨inOrder s h 12, on, congrArg Host.Outcome.next ((takeFrame_inOrder hup hseq 12 _).trans (if_neg ?_))⟩
  rw [inSafe_of_same on.rest, hsafe]
  decide

theorem replicas_of_image {s u : State} (h : u.image = s.image) : replicas u = replicas s := by rw [replicas, replicas, h]

theorem foldl_fixed {α β : Type} {f : β → α → β} {b : β} {l : List α} (h : ∀ a ∈ l, f b a = b) : l.foldl f b = b := by
  induction l with
  | nil => rfl
  | cons a l ih => rw [List.foldl_cons, h a List.mem_cons_self, ih fun x hx => h x (List.mem_cons_of_mem _ hx)]

/-- R294: a peer's record that no entry waits for is compared with nothing. -/
theorem compareTick_idle {s : State} (h : ∀ e ∈ replicas s, e.2.peerDie ≠ dieId s ∧ ∀ r ∈ s.peerRecs, r.die ≠ e.2.peerDie) : compareTick s = s := by
  refine foldl_fixed fun e he => ?_
  obtain ⟨hdie, hrec⟩ := h e he
  rw [if_neg hdie]
  refine foldl_fixed fun r hr => ?_
  rw [comparePeer, if_pos (.inl (hrec r hr))]

theorem keepPeerRec_frame (u : State) (die : W16) (b : LdBody) : keepPeerRec u die b = { u with peerRecs := (keepPeerRec u die b).peerRecs } := by
  unfold keepPeerRec
  dsimp only
  split <;> rfl

theorem keepPeerRec_image (u : State) (die : W16) (b : LdBody) : (keepPeerRec u die b).image = u.image := by
  unfold keepPeerRec
  dsimp only
  split <;> rfl

/-- R294: a frame's record that no replica entry waits for. -/
theorem digest_kept {s : State} {h : BanHdr} {b : LdBody} (hup : (getPort s h.port).up = true) (hseq : h.seq = (getPort s h.port).recvSeq)
    (hsafe : inSafe s uBan = false) (hnone : ∀ e ∈ replicas s, e.2.peerDie ≠ h.src ∧ e.2.peerDie ≠ dieId s) {l : List PeerRec}
    (hl : ∀ r ∈ l, r.die = h.src) (hk : ∀ u : State, u.peerRecs = s.peerRecs → (keepPeerRec u h.src b).peerRecs = l) :
    ∃ t, exec (.digest h b) s = .next t ∧ t.peerRecs = l ∧ t = { s with peerRecs := t.peerRecs, ports := t.ports, big := t.big } := by
  obtain ⟨u, on, run⟩ := exec_digest b hup hseq hsafe
  have frame := keepPeerRec_frame u h.src b
  have kept := hk u (on.rest .peerRecs (by decide))
  have idle : compareTick (keepPeerRec u h.src b) = keepPeerRec u h.src b := by
    refine compareTick_idle fun e he => ?_
    have image : (keepPeerRec u h.src b).image = s.image := (keepPeerRec_image u _ _).trans on.rest.image_eq
    obtain ⟨h1, h2⟩ := hnone e (replicas_of_image image ▸ he)
    refine ⟨dieId_of_image image ▸ h2, fun r hr => ?_⟩
    · rw [hl r (kept ▸ hr)]
      exact h1.symm
  rw [idle] at run
  refine ⟨_, run, kept, ?_⟩
  rw [frame, on.frame]

theorem keepPeerRec_nil {u : State} {die : W16} {b : LdBody} (h : u.peerRecs = []) : (keepPeerRec u die b).peerRecs = [⟨die, b, []⟩] := by
  unfold keepPeerRec
  dsimp only
  rw [h]
  rfl

theorem keepPeerRec_one {u : State} {die : W16} {b : LdBody} {r : PeerRec} (h : u.peerRecs = [r]) (hd : r.die = die) (hp : r.body.part = b.part)
    (hs : samePos r.body b = true) : (keepPeerRec u die b).peerRecs = if laterThan r.body.epoch b.epoch = true then [r] else [⟨die, b, []⟩] := by
  have same : (r.die == die && r.body.part == b.part && samePos r.body b) = true := by rw [hd, hp, hs]; simp
  unfold keepPeerRec
  dsimp only
  rw [h, List.any_cons, List.any_nil, Bool.or_false, same, Bool.true_and]
  split
  · exact h
  · rw [List.filter_cons, same]
    rfl

/-- R294: an entry's own record of the position meets the frame's at once. -/
theorem digest_compared {s : State} {h : BanHdr} {b : LdBody} {e : Nat × ReplicaCfg} {c : ClosedKey} (hup : (getPort s h.port).up = true)
    (hseq : h.seq = (getPort s h.port).recvSeq) (hsafe : inSafe s uBan = false) (he : replicas s = [e]) (hdie : e.2.peerDie = h.src) (hown : h.src ≠ dieId s)
    (hpart : e.2.peerPart = b.part) (hp : e.2.part < s.parts.length) (hrecs : s.peerRecs = []) (hc : closedAt s e.2.part b.era b.step b.layer = some c) :
    ∃ t, exec (.digest h b) s = .next t ∧ (getPart t e.2.part).logs.digests.prod = (getPart s e.2.part).logs.digests.prod + 1 ∧
      (∃ x ∈ (getPart t e.2.part).logs.digests.items, x.kind = .dcmp ∧ x.part = e.2.part ∧
        x.body.getLast? = some (BitVec.ofNat 32 (dcmpOutcome e.2.ordered c.body b))) ∧ t.spires = s.spires ∧ t.cistern.data = s.cistern.data := by
  obtain ⟨u, on, run⟩ := exec_digest b hup hseq hsafe
  obtain ⟨t, run', keeps⟩ := execDigest_keeps h b (Keeps.rfl_ _ s) (List.Subset.refl _)
  obtain rfl := Host.Outcome.next.inj (run.symm.trans run')
  have kept := keepPeerRec_nil (die := h.src) (b := b) ((on.rest .peerRecs (by decide) : u.peerRecs = s.peerRecs).trans hrecs)
  have frame := keepPeerRec_frame u h.src b
  have parts : (keepPeerRec u h.src b).parts = s.parts := by
    rw [frame]
    exact on.rest .parts (by decide)
  have image : (keepPeerRec u h.src b).image = s.image := (keepPeerRec_image u _ _).trans on.rest.image_eq
  have reps := (replicas_of_image image).trans he
  have die := dieId_of_image image
  generalize keepPeerRec u h.src b = v at run kept parts reps die keeps
  have closed : closedAt v e.2.part b.era b.step b.layer = some c := by
    rw [← hc, closedAt, closedAt, getPart_of_parts parts]
  have tick : compareTick v = compareOne v e c b fun s => { s with
      peerRecs := s.peerRecs.map fun x => if x.die == h.src && x.body == b then { x with compared := x.compared ++ [e.1] } else x } := by
    unfold compareTick
    rw [reps, List.foldl_cons, List.foldl_nil, if_neg (by rw [die, hdie]; exact hown), kept, List.foldl_cons, List.foldl_nil, comparePeer,
      if_neg (by rw [hdie, hpart]; simp)]
    dsimp only
    rw [closed]
    exact if_neg fun h => List.not_mem_nil (List.elem_iff.1 h.2)
  have start : LogsKept s v := (LogsKept.rfl_ s).of_parts parts
  have marked : LogsKept v { updClosed v e.2.part c.body (fun c => { c with compared := c.compared ++ [e.1] }) with
      peerRecs := v.peerRecs.map fun x => if x.die == h.src && x.body == b then { x with compared := x.compared ++ [e.1] } else x } :=
    ((LogsKept.rfl_ v).updClosed e.2.part c.body fun c => { c with compared := c.compared ++ [e.1] }).of_parts rfl
  have logged := dcmpRec_logged (p := e.2.part) (by rw [marked.length, start.length]; exact hp) e.1 b.era b.step b.layer c.body.tick b.tick (dcmpOutcome e.2.ordered c.body b)
  have compared : DigestLogged s (compareTick v) e.2.part .dcmp (BitVec.ofNat 32 (dcmpOutcome e.2.ordered c.body b)) := by
    rw [tick]
    refine DigestLogged.after start (DigestLogged.after marked ?_)
    unfold compareOne
    dsimp only
    split
    · exact logged.kept ((LogsKept.rfl_ _).diverged _ _ _)
    · split
      · exact logged.kept (((LogsKept.rfl_ _).releaseTds e.2.part c.body).of_same (addInput_same _ _))
      · exact logged.kept ((LogsKept.rfl_ _).releaseTds e.2.part c.body)
  exact ⟨_, run, compared.1, compared.2, keeps.same .spires (by decide), keeps.same.bytes_eq.1⟩

/-! ### TDLIST (R295, R296) -/

/-- A fold of `closedAt` over keys that are all one. -/
theorem closedAt_unique {s : State} {p : Nat} {c : ClosedKey} (hc : c ∈ (getPart s p).closed)
    (hu : ∀ x ∈ (getPart s p).closed, samePos x.body c.body = true → x = c) : closedAt s p c.body.era c.body.step c.body.layer = some c := by
  have all (l : List ClosedKey) (hl : ∀ x ∈ l, x = c) : l.foldl (fun m c => match m with
      | none => some c
      | some x => some (if laterThan c.body.epoch x.body.epoch then c else x)) (some c) = some c := by
    induction l with
    | nil => rfl
    | cons a l ih =>
      obtain rfl := hl a List.mem_cons_self
      rw [List.foldl_cons]
      dsimp only
      rw [ite_self]
      exact ih fun x hx => hl x (List.mem_cons_of_mem _ hx)
  unfold closedAt
  dsimp only
  have mem : c ∈ (getPart s p).closed.filter fun x => x.body.era == c.body.era && x.body.step == c.body.step && x.body.layer == c.body.layer :=
    List.mem_filter.2 ⟨hc, by simp⟩
  have only : ∀ x ∈ (getPart s p).closed.filter (fun x => x.body.era == c.body.era && x.body.step == c.body.step && x.body.layer == c.body.layer), x = c :=
    fun x hx => hu x (List.mem_filter.1 hx).1 (List.mem_filter.1 hx).2
  generalize (getPart s p).closed.filter (fun x => x.body.era == c.body.era && x.body.step == c.body.step && x.body.layer == c.body.layer) = l at mem only
  cases l with
  | nil => cases mem
  | cons a l =>
    obtain rfl := only a List.mem_cons_self
    exact all l fun x hx => only x (List.mem_cons_of_mem _ hx)

section
variable {s : State} {p entry : Nat} {c : ClosedKey} {sp : Option Nat}

theorem mem_updClosed {b : LdBody} {f : ClosedKey → ClosedKey} {x : ClosedKey} (h : x ∈ (getPart (updClosed s p b f) p).closed) :
    ∃ y ∈ (getPart s p).closed, x = if samePos y.body b && y.body.epoch == b.epoch then f y else y := by
  by_cases hp : p < s.parts.length
  · rw [updClosed, getPart_updPart s p _ hp] at h
    obtain ⟨y, hy, rfl⟩ := List.mem_map.1 h
    exact ⟨y, hy, rfl⟩
  · rw [updClosed, updPart_of_length_le s _ (Nat.le_of_not_lt hp), getPart, List.getD_eq_default _ _ (Nat.le_of_not_lt hp)] at h
    cases h

theorem samePos_refl (b : LdBody) : samePos b b = true := by rw [samePos]; simp

/-- The closed key, of which no other shows its position, once it awaits no list. -/
theorem closed_of_updClosed {f : ClosedKey → ClosedKey} (hc : c ∈ (getPart s p).closed) (hu : ∀ x ∈ (getPart s p).closed, samePos x.body c.body = true → x = c)
    (hf : (f c).body = c.body) : f c ∈ (getPart (updClosed s p c.body f) p).closed ∧
      ∀ x ∈ (getPart (updClosed s p c.body f) p).closed, samePos x.body (f c).body = true → x = f c := by
  have hp : p < s.parts.length := by
    refine Nat.lt_of_not_le fun hle => ?_
    rw [getPart, List.getD_eq_default _ _ hle] at hc
    cases hc
  have own : (samePos c.body c.body && c.body.epoch == c.body.epoch) = true := by rw [samePos_refl]; simp
  constructor
  · rw [updClosed, getPart_updPart s p _ hp]
    exact List.mem_map.2 ⟨c, hc, if_pos own⟩
  · intro x hx hs
    obtain ⟨y, hy, rfl⟩ := mem_updClosed hx
    rw [hf] at hs
    split at hs
    · next hm =>
      obtain rfl := hu y hy (Bool.and_eq_true_iff.1 hm).1
      rw [if_pos own]
    · next hm =>
      obtain rfl := hu y hy hs
      exact absurd own hm

/-- R295: a DIVERGE that nothing else awaits ends with its lists dropped. -/
theorem divergeEnds_effect (hc : c ∈ (getPart s p).closed) (hu : ∀ x ∈ (getPart s p).closed, samePos x.body c.body = true → x = c)
    (hd : c.diverge = [entry]) (hcompared : (entriesOf s p).all c.compared.contains = true) (hrun : s.belfry.run = true) :
    (∃ i ∈ (divergeEnds s p entry c sp).belfry.inputs, i.code = 0x46 ∧ i.part = p ∧ i.layer = c.body.layer ∧ i.spire = sp.getD 0xFFFF) ∧
      (∀ x ∈ (getPart (divergeEnds s p entry c sp) p).closed, samePos x.body c.body = true → x.tds = [] ∧ x.diverge = []) ∧
      (divergeEnds s p entry c sp).peerTds = s.peerTds.filter fun l => !(replicas s).any fun e => e.2.part == p && l.isOf e.2 c.body := by
  obtain ⟨mem, only⟩ := closed_of_updClosed (f := fun c => { c with diverge := c.diverge.filter fun e => e != entry }) hc hu rfl
  have none_ : (c.diverge.filter fun e => e != entry) = [] := by rw [hd]; simp
  have more : (c.diverge.any fun e => e != entry) = false := by rw [hd]; simp
  unfold divergeEnds divergeInput
  dsimp only
  rw [more]
  have same : Same [.parts] s (updClosed s p c.body fun c => { c with diverge := c.diverge.filter fun e => e != entry }) :=
    (updClosed_keeps p c.body _ (Keeps.rfl_ _ s) (List.Subset.refl _)).same
  have hp : p < (updClosed s p c.body fun c => { c with diverge := c.diverge.filter fun e => e != entry }).parts.length := by
    refine Nat.lt_of_not_le fun hle => ?_
    rw [getPart, List.getD_eq_default _ _ hle] at mem
    cases mem
  generalize (updClosed s p c.body fun c => { c with diverge := c.diverge.filter fun e => e != entry }) = u at mem only same hp ⊢
  generalize hv : ({ u with peerTds := _ } : State) = v
  have vparts : getPart v p = getPart u p := by rw [← hv]; rfl
  have vrun : v.belfry.run = true := by rw [← hv]; exact (same .belfryRun (by decide) : u.belfry.run = s.belfry.run).trans hrun
  have vtds : v.peerTds = s.peerTds.filter fun l => !(replicas s).any fun e => e.2.part == p && l.isOf e.2 c.body := by
    rw [← hv, ← show u.peerTds = s.peerTds from same .peerTds (by decide), ← replicas_of_image (u := u) same.image_eq]
    rfl
  have image : v.image = s.image := by rw [← hv]; exact same.image_eq
  have ventries : entriesOf v p = entriesOf s p := by rw [entriesOf, entriesOf, replicas_of_image image, dieId_of_image image]
  clear hv
  have released := (releaseTds_keeps p c.body (Keeps.rfl_ _ v) (List.Subset.refl _)).same
  refine ⟨⟨_, addInput_mem ((released .belfryRun (by decide) :).trans vrun) _ rfl, rfl, rfl, rfl, rfl⟩, ?_, ?_⟩
  · have dropped : releaseTds v p c.body = dropTds v p { c with diverge := c.diverge.filter fun e => e != entry } := by
      unfold releaseTds
      have found : ((getPart v p).closed.find? fun x => samePos x.body c.body && x.body.epoch == c.body.epoch) = some { c with diverge := c.diverge.filter fun e => e != entry } := by
        rw [vparts]
        refine find?_unique mem (by rw [samePos_refl]; simp) fun x hx h => only x hx (Bool.and_eq_true_iff.1 h).1
      rw [found]
      exact if_pos ⟨by rw [none_]; rfl, by rw [ventries]; exact hcompared⟩
    intro x hx hs
    rw [getPart_of_parts (addInput_same _ _ .parts (by decide)), dropped] at hx
    have closed : (getPart (subUse v p (linesOf (10 * c.tds.length))) p).closed = (getPart u p).closed :=
      (getPart_updPart_proj Part.closed v p p _ fun _ => by rfl).trans (congrArg Part.closed vparts)
    obtain ⟨y, hy, rfl⟩ := mem_updClosed hx
    rw [closed] at hy
    have hys : samePos y.body c.body = true := by
      split at hs
      · exact hs
      · exact hs
    obtain rfl := only y hy hys
    rw [if_pos (by rw [samePos_refl]; simp)]
    exact ⟨rfl, none_⟩
  · exact (addInput_same _ _ .peerTds (by decide) :).trans ((released .peerTds (by decide) :).trans vtds)

end

/-- R295: the list of a TDLIST frame, where none had come. -/
def tdListed (u : State) (die : W16) (part : Nat) (age : W16 × W16) (step : W32) (layer : W16) (tds : List (W16 × W64)) : State :=
  { u with peerTds := [⟨die, part, age.1, age.2, step, layer, tds⟩] }

theorem keepPeerTds_nil {u : State} (h : u.peerTds = []) (die : W16) (part : Nat) (age : W16 × W16) (step : W32) (layer : W16) (tds : List (W16 × W64)) :
    keepPeerTds u die part age step layer tds = tdListed u die part age step layer tds := by
  unfold keepPeerTds
  dsimp only
  rw [h, if_neg (by simp)]
  unfold tdListed
  simp

section
variable {s : State} {h : BanHdr} {pt : Nat} {ep era : W16} {st : W32} {ly : W16} {td : List (W16 × W64)} {e : Nat × ReplicaCfg} {c : ClosedKey} {r : PeerRec}

theorem exec_tdlist (hup : (getPort s h.port).up = true) (hseq : h.seq = (getPort s h.port).recvSeq) (he : replicas s = [e]) (hdie : e.2.peerDie = h.src)
    (hpart : e.2.peerPart = pt) (hc : closedAt s e.2.part era st ly = some c) (htds : s.peerTds = []) :
    ∃ u, OnPort h.port s u ∧ exec (.tdlist h pt (ep, era) st ly td) s = .next (nameTile (tdListed u h.src pt (ep, era) st ly td) e c.body) := by
  obtain ⟨on, -⟩ := inOrder_own (h := h) hup (2 + 2 * td.length)
  have take := takeFrame_inOrder hup hseq (2 + 2 * td.length) (fun s => (replicas s).foldl (fun s e =>
      if e.2.peerDie ≠ h.src ∨ e.2.peerPart ≠ pt then s
      else match closedAt s e.2.part era st ly with
        | some c => nameTile s e c.body
        | none => s) (keepPeerTds s h.src pt (ep, era) st ly td))
  generalize inOrder s h (2 + 2 * td.length) = u at on take
  refine ⟨u, on, congrArg Host.Outcome.next (take.trans ?_)⟩
  rw [replicas_of_image (s := s) on.rest.image_eq, he, List.foldl_cons, List.foldl_nil, if_neg (by rw [hdie, hpart]; simp),
    keepPeerTds_nil ((on.rest .peerTds (by decide) : u.peerTds = s.peerTds).trans htds)]
  have closed : closedAt (tdListed u h.src pt (ep, era) st ly td) e.2.part era st ly = some c := by
    rw [← hc, closedAt, closedAt]
    exact congrArg (fun q : Part => (q.closed.filter _).foldl _ none) (getPart_of_parts (on.rest .parts (by decide)) e.2.part)
  rw [closed]

end

end Sys2Proof.Machine
end

section
/-! TDLIST, DCMP_WAIT and ATTESTATION_SIGN (R294 to R296, R315). -/

set_option Elab.async false

namespace Sys2Proof.Machine

/-! ### TDLIST (R295, R296) -/

section
variable {s : State} {h : BanHdr} {pt : Nat} {ep era : W16} {st : W32} {ly : W16} {td : List (W16 × W64)} {e : Nat × ReplicaCfg} {c : ClosedKey} {r : PeerRec}

/-- The list that a frame brought is of its key. -/
theorem isOf_own (hdie : e.2.peerDie = h.src) (hpart : e.2.peerPart = pt) (hera : c.body.era = era) (hst : c.body.step = st) (hly : c.body.layer = ly) :
    PeerTds.isOf ⟨h.src, pt, ep, era, st, ly, td⟩ e.2 c.body = true := by
  rw [PeerTds.isOf, hdie, hpart, hera, hst, hly]
  simp

/-- R295: a list of another EPOCH than the peer's record names no tile. -/
theorem nameTile_otherEpoch {v : State} {l : PeerTds} {b : LdBody} (hl : v.peerTds = [l])
    (hr : v.peerRecs.find? (fun x => x.die == e.2.peerDie && x.body.part == e.2.peerPart && samePos x.body b) = some r) (hep : r.body.epoch ≠ l.epoch) :
    nameTile v e b = v := by
  have none_ : ([l].find? fun l => l.isOf e.2 b && (some r).any fun r => r.body.epoch == l.epoch) = none := by
    rw [List.find?_singleton, Option.any_some, beq_false_of_ne hep, Bool.and_false]
    rfl
  unfold nameTile
  dsimp only
  rw [hr, hl, none_]
  split
  · next h => cases h
  · rfl

/-- R295, R296: a whole list of the peer's record's EPOCH names the tile. -/
theorem nameTile_whole {v : State} {l : PeerTds} (hl : v.peerTds = [l]) (hof : l.isOf e.2 c.body = true)
    (hr : v.peerRecs.find? (fun x => x.die == e.2.peerDie && x.body.part == e.2.peerPart && samePos x.body c.body) = some r) (hep : r.body.epoch = l.epoch)
    (hc : closedAt v e.2.part c.body.era c.body.step c.body.layer = some c) (hd : c.diverge = [e.1]) (hlen : c.body.spires ≤ l.tds.length) :
    nameTile v e c.body = divergeEnds v e.2.part e.1 c (firstDiff c.tds l.tds) := by
  have found : ([l].find? fun l => l.isOf e.2 c.body && (some r).any fun r => r.body.epoch == l.epoch) = some l := by
    rw [List.find?_singleton, Option.any_some, hep, hof]
    simp
  unfold nameTile
  dsimp only
  rw [hr, hl, hc, found]
  exact if_pos ⟨by rw [hd]; simp, hlen⟩

theorem tdlist_effect (hup : (getPort s h.port).up = true) (hseq : h.seq = (getPort s h.port).recvSeq) (he : replicas s = [e]) (hdie : e.2.peerDie = h.src)
    (hpart : e.2.peerPart = pt) (hc : c ∈ (getPart s e.2.part).closed) (hera : c.body.era = era) (hst : c.body.step = st) (hly : c.body.layer = ly)
    (hu : ∀ x ∈ (getPart s e.2.part).closed, samePos x.body c.body = true → x = c) (hd : c.diverge = [e.1]) (hcmp : e.1 ∈ c.compared) (htds : s.peerTds = [])
    (hlen : c.body.spires ≤ td.length) (hrun : s.belfry.run = true)
    (hr : s.peerRecs.find? (fun x => x.die == e.2.peerDie && x.body.part == e.2.peerPart && samePos x.body c.body) = some r) :
    (r.body.epoch ≠ ep → ∃ t, exec (.tdlist h pt (ep, era) st ly td) s = .next t ∧ t.belfry = s.belfry ∧
      (getPart t e.2.part).closed = (getPart s e.2.part).closed) ∧
    (r.body.epoch = ep → ∃ t, exec (.tdlist h pt (ep, era) st ly td) s = .next t ∧ t.peerTds = [] ∧ (∃ i ∈ t.belfry.inputs, i.code = 0x46 ∧ i.part = e.2.part ∧ i.layer = ly ∧
      i.spire = (firstDiff c.tds td).getD 0xFFFF) ∧ (∀ x ∈ (getPart t e.2.part).closed, samePos x.body c.body = true →
        x.tds = [] ∧ x.diverge = []) ∧ t.spires = s.spires ∧ t.cistern.data = s.cistern.data) := by
  have closed := closedAt_unique hc hu
  rw [hera, hst, hly] at closed
  obtain ⟨u, on, run⟩ := exec_tdlist (td := td) (ep := ep) hup hseq he hdie hpart closed htds
  obtain ⟨t, run', keeps⟩ := execTdlist_keeps h pt (ep, era) st ly td (Keeps.rfl_ _ s) (List.Subset.refl _)
  obtain rfl := Host.Outcome.next.inj (run.symm.trans run')
  have recs : (tdListed u h.src pt (ep, era) st ly td).peerRecs = s.peerRecs := on.rest .peerRecs (by decide)
  have part : getPart (tdListed u h.src pt (ep, era) st ly td) e.2.part = getPart s e.2.part := getPart_of_parts (on.rest .parts (by decide)) _
  have belfry : (tdListed u h.src pt (ep, era) st ly td).belfry = s.belfry :=
    on.rest.belfry_eq (by decide) (by decide) (by decide) (by decide) (by decide)
  have image : (tdListed u h.src pt (ep, era) st ly td).image = s.image := on.rest.image_eq
  have list : (tdListed u h.src pt (ep, era) st ly td).peerTds = [⟨h.src, pt, ep, era, st, ly, td⟩] := rfl
  generalize tdListed u h.src pt (ep, era) st ly td = v at run run' keeps recs part belfry image list
  rw [← recs] at hr
  constructor
  · intro hep
    rw [nameTile_otherEpoch list hr hep] at run
    exact ⟨v, run, belfry, by rw [part]⟩
  · intro hep
    have of_ := isOf_own (ep := ep) (td := td) hdie hpart hera hst hly
    have closedv : closedAt v e.2.part c.body.era c.body.step c.body.layer = some c := by
      rw [closedAt, part]
      exact closedAt_unique hc hu
    rw [nameTile_whole list of_ hr hep closedv hd hlen] at run keeps
    have entries : (entriesOf v e.2.part).all c.compared.contains = true := by
      rw [entriesOf, replicas_of_image (s := s) image, he, List.filter_cons]
      split
      · exact List.all_eq_true.2 fun x hx => List.elem_iff.2 (List.mem_singleton.1 hx ▸ hcmp)
      · rfl
    obtain ⟨input, dropped, tds⟩ := divergeEnds_effect (sp := firstDiff c.tds td) (part.symm ▸ hc) (part.symm ▸ hu) hd entries (by rw [belfry]; exact hrun)
    refine ⟨_, run, ?_, ?_, dropped, keeps.same .spires (by decide), keeps.same.bytes_eq.1⟩
    · rw [tds, list, replicas_of_image (s := s) image, he]
      refine List.filter_eq_nil_iff.2 fun l hl => ?_
      rw [List.mem_singleton.1 hl, List.any_cons, of_]
      simp
    · rwa [hly] at input

/-! ### DCMP_WAIT (R294) -/

/-- What DCMP_WAIT makes of a position that only the peer recorded. -/
def peerless (s : State) (e : Nat × ReplicaCfg) (era : W16) (step : W32) (layer : W16) (b : LdBody) : State :=
  partInput (dcmpRec s e.2.part e.1 era step layer 0 b.tick dcNopeer) 0x64 e.2.part layer dcNopeer

theorem closedAt_none {p : Nat} (h : closedAt s p era st ly = none) :
    (getPart s p).closed.filter (fun c => c.body.era == era && c.body.step == st && c.body.layer == ly) = [] := by
  have some_ (l : List ClosedKey) (x : ClosedKey) : ∃ y, l.foldl (fun m c => match m with
      | none => some c
      | some x => some (if laterThan c.body.epoch x.body.epoch then c else x)) (some x) = some y := by
    induction l generalizing x with
    | nil => exact ⟨x, rfl⟩
    | cons a l ih => exact ih _
  unfold closedAt at h
  dsimp only at h
  generalize (getPart s p).closed.filter (fun c => c.body.era == era && c.body.step == st && c.body.layer == ly) = l at h
  cases l with
  | nil => rfl
  | cons a l =>
    obtain ⟨y, hy⟩ := some_ l a
    exact absurd (hy.symm.trans h) (by simp)

theorem dcmpWait_effect {b : LdBody} (hp : e.2.part < s.parts.length) (he : replicas s = [e]) (hc : closedAt s e.2.part era st ly = none)
    (ho : otherSide s e era st ly = some b) :
    ∃ t, exec (.dcmpWait e.2.part era st ly) s = .next t ∧
      (∀ r ∈ t.peerRecs, ¬ (r.die = e.2.peerDie ∧ r.body.part = e.2.peerPart ∧ r.body.era = era ∧ r.body.step = st ∧ r.body.layer = ly)) ∧
      (∀ r ∈ s.peerRecs, r ∈ t.peerRecs ∨ (r.die = e.2.peerDie ∧ r.body.part = e.2.peerPart ∧ r.body.era = era ∧ r.body.step = st ∧ r.body.layer = ly)) ∧
      (getPart t e.2.part).logs.digests.prod = (getPart s e.2.part).logs.digests.prod + 1 ∧ (∃ x ∈ (getPart t e.2.part).logs.digests.items, x.kind = .dcmp ∧
        x.part = e.2.part ∧ x.body.getLast? = some (BitVec.ofNat 32 dcNopeer)) ∧ t.spires = s.spires ∧ t.cistern.data = s.cistern.data := by
  obtain ⟨t, run, keeps⟩ := execDcmpWait_keeps e.2.part era st ly (Keeps.rfl_ _ s) (List.Subset.refl _)
  have es : (replicas s).filter (fun x => x.2.part == e.2.part) = [e] := by rw [he, List.filter_cons, if_pos (beq_self_eq_true _)]; rfl
  have expired : dcmpExpire s e.2.part era st ly e = peerless s e era st ly b := by
    unfold dcmpExpire
    rw [if_neg (not_not_intro rfl), hc, ho]
    rfl
  have input : LogsKept (dcmpRec s e.2.part e.1 era st ly 0 b.tick dcNopeer) (peerless s e era st ly b) :=
    (LogsKept.rfl_ _).of_same (addInput_same (dcmpRec s e.2.part e.1 era st ly 0 b.tick dcNopeer) _)
  have logged := (dcmpRec_logged hp e.1 era st ly 0 b.tick dcNopeer).kept input
  have recs : (peerless s e era st ly b).peerRecs = s.peerRecs := (addInput_same (dcmpRec s e.2.part e.1 era st ly 0 b.tick dcNopeer) _ .peerRecs (by decide) :)
  have closed : (getPart (peerless s e era st ly b) e.2.part).closed = (getPart s e.2.part).closed :=
    (congrArg Part.closed (getPart_of_parts (addInput_same (dcmpRec s e.2.part e.1 era st ly 0 b.tick dcNopeer) _ .parts (by decide)) e.2.part)).trans
      ((congrArg Part.closed (getPart_logDigest hp _)).trans rfl)
  have run' : exec (.dcmpWait e.2.part era st ly) s = .next { peerless s e era st ly b with
      peerRecs := (peerless s e era st ly b).peerRecs.filter fun r =>
        !(r.body.era == era && r.body.step == st && r.body.layer == ly && [e].any fun e => e.2.peerDie == r.die && e.2.peerPart == r.body.part)
      peerTds := (peerless s e era st ly b).peerTds.filter fun l =>
        !(l.era == era && l.step == st && l.layer == ly && [e].any fun e => e.2.peerDie == l.die && e.2.peerPart == l.part) } := by
    change execDcmpWait e.2.part era st ly s = _
    unfold execDcmpWait
    dsimp only
    rw [es, List.foldl_cons, List.foldl_nil, expired, closed, closedAt_none hc]
    rfl
  obtain rfl := Host.Outcome.next.inj (run'.symm.trans run)
  have test (r : PeerRec) : (!(r.body.era == era && r.body.step == st && r.body.layer == ly && [e].any fun e => e.2.peerDie == r.die && e.2.peerPart == r.body.part)) = true ↔
      ¬ (r.die = e.2.peerDie ∧ r.body.part = e.2.peerPart ∧ r.body.era = era ∧ r.body.step = st ∧ r.body.layer = ly) := by
    simp only [List.any_cons, List.any_nil, Bool.or_false, Bool.not_eq_true', Bool.and_eq_false_iff, beq_eq_false_iff_ne, ne_eq]
    tauto
  refine ⟨_, run, fun r hr => (test r).1 (List.mem_filter.1 hr).2, fun r hr => ?_, logged.1, logged.2, keeps.same .spires (by decide), keeps.same.bytes_eq.1⟩
  by_cases hrt : r.die = e.2.peerDie ∧ r.body.part = e.2.peerPart ∧ r.body.era = era ∧ r.body.step = st ∧ r.body.layer = ly
  · exact .inr hrt
  · exact .inl (List.mem_filter.2 ⟨recs.symm ▸ hr, (test r).2 hrt⟩)

end

/-! ### ATTESTATION_SIGN (R315, R316) -/

/-- R315: the signature of a statement, with a fresh nonce. -/
def attSig (s : State) (j : AttJob) : Nat × Nat :=
  ecdsaSign (ofBe (sha384 j.stmt)) s.fuses.idkey.toNat (1 + ((List.range 6).foldl (fun a i => a * 2 ^ 64 + (Config.random (s.rng + i)).toNat) 0) % (ecN - 1))

theorem attestationSign_effect {s : State} {p : Nat} {j : AttJob} (hp : p < s.parts.length) (hj : s.attQ.find? (fun j => j.part == p) = some j) :
    ∃ t, exec (.attestationSign p) s = .next t ∧ t.attQ = s.attQ.erase j ∧ t.rng = s.rng + 6 ∧
      (getPart t p).logs.digests.prod = (getPart s p).logs.digests.prod + 1 ∧ (∃ x ∈ (getPart t p).logs.digests.items, x.kind = .att ∧
        x.part = p) ∧ (getPart t p).cnt.meters = updAt (getPart s p).cnt.meters mAttest (· + 1) ∧
      t = { s with attQ := t.attQ, rng := t.rng, parts := t.parts, near := t.near } := by
  have hpart : j.part = p := beq_iff_eq.1 (List.find?_some hj :)
  generalize hs : ({ s with attQ := s.attQ.erase j, rng := s.rng + 6 } : State) = u
  have run : exec (.attestationSign p) s = .next (addMeter (logDigest u p (attRec u j (sha384 j.stmt) (some (attSig s j)))) p mAttest 1) := by
    change execAttestationSign p s = _
    unfold execAttestationSign attSig
    rw [hj, ← hs]
  have parts : u.parts = s.parts := by rw [← hs]
  have hpu : p < u.parts.length := parts ▸ hp
  have kind : (attRec u j (sha384 j.stmt) (some (attSig s j))).kind = .att ∧ (attRec u j (sha384 j.stmt) (some (attSig s j))).part = p := ⟨rfl, hpart⟩
  generalize attRec u j (sha384 j.stmt) (some (attSig s j)) = x at run kind
  have logged : getPart (logDigest u p x) p = digestLogged x (getPart s p) := (getPart_logDigest hpu x).trans (congrArg _ (getPart_of_parts parts p))
  have own : getPart (addMeter (logDigest u p x) p mAttest 1) p =
      { digestLogged x (getPart s p) with cnt := { (getPart s p).cnt with meters := updAt (getPart s p).cnt.meters mAttest (· + BitVec.ofNat 64 1) } } := by
    refine (getPart_updPart (logDigest u p x) p _ ((parts_length_updPart u p (digestLogged x)).symm ▸ hpu)).trans ?_
    rw [logged]
    rfl
  refine ⟨_, run, by rw [← hs]; rfl, by rw [← hs]; rfl, by rw [own]; rfl, ⟨x, ?_, kind⟩, by rw [own]; rfl, by rw [← hs]; rfl⟩
  rw [own]
  exact mem_push (by decide) _ _

/-- Settles O49, from what a frame's record or list meets and what it leaves of the digest logs. -/
theorem digestFrames : Obligations.DigestFrames := by
  refine ⟨fun s h b hup hseq hsafe hnone => ⟨fun hnil => ?_, fun r hone hdie hpart hpos => ?_⟩,
    fun _ _ _ _ _ hup hseq hsafe he hdie hown hpart hp hrecs hc => digest_compared hup hseq hsafe he hdie hown hpart hp hrecs hc,
    fun _ _ _ _ _ _ _ _ _ _ _ hup hseq he hdie hpart hc hera hst hly hu hd hcmp htds hlen hrun hr =>
      tdlist_effect hup hseq he hdie hpart hc hera hst hly hu hd hcmp htds hlen hrun hr,
    fun s p era st ly e b hp he hpart _ hc ho => ?_, fun _ _ _ hp hj => attestationSign_effect hp hj⟩
  · exact digest_kept hup hseq hsafe hnone (fun r hr => by rw [List.mem_singleton.1 hr]) fun u hu => keepPeerRec_nil (hu.trans hnil)
  · refine digest_kept hup hseq hsafe hnone (fun x hx => ?_) fun u hu => keepPeerRec_one (hu.trans hone) hdie hpart hpos
    split at hx
    · rw [List.mem_singleton.1 hx, hdie]
    · rw [List.mem_singleton.1 hx]
  · subst hpart
    exact dcmpWait_effect hp he hc ho

end Sys2Proof.Machine
end

section
/-! Byte memories in any order of their entries; what leaves the Cistern's registers (R191, R385). -/

set_option Elab.async false

namespace Sys2Proof.Machine

/-! ### Byte memories in any order of their entries -/

section
variable {d : Nat → Byte} {m : List Host.Cell} {a : Nat} {b : Byte}

/-- Reading after an insertion, whatever the order of the entries. -/
theorem memGet_memInsert_any (d : Nat → Byte) (m : List Host.Cell) (a : Nat) (b : Byte) (x : Nat) : memGet d (memInsert m a b) x = if x = a then b else memGet d m x := by
  have put (m : List Host.Cell) (h : x ≠ a → memGet d m x = memGet d m x) : memGet d ((a, b) :: m) x = if x = a then b else memGet d m x := by
    rw [memGet]
    by_cases e : x = a
    · rw [if_pos e.symm, if_pos e]
    · rw [if_neg (Ne.symm e), if_neg e]
  induction m with
  | nil => exact put [] fun _ => rfl
  | cons c m ih =>
    rw [memInsert]
    split
    · exact put (c :: m) fun _ => rfl
    · split
      · next heq =>
        rw [put m fun _ => rfl, memGet]
        split
        · rfl
        · next hx => rw [if_neg fun h => hx (heq ▸ h.symm)]
      · next hne =>
        rw [memGet, ih, memGet]
        split
        · next hx => rw [if_neg fun h => hne (h.symm.trans hx.symm)]
        · rfl

theorem memGet_memPut_any (d : Nat → Byte) (m : List Host.Cell) (a : Nat) (b : Byte) (x : Nat) : memGet d (memPut d m a b) x = if x = a then b else memGet d m x := by
  unfold memPut
  split
  · next hb => rw [memGet_memErase, hb]
  · exact memGet_memInsert_any d m a b x

/-- Reading after a range is forgotten. -/
theorem memGet_memDrop (d : Nat → Byte) (m : List Host.Cell) (lo hi x : Nat) :
    memGet d (memDrop m lo hi) x = if lo ≤ x ∧ x < hi then d x else memGet d m x := by
  induction m with
  | nil =>
    show d x = _
    split <;> rfl
  | cons c m ih =>
    unfold memDrop at ih ⊢
    by_cases hc : lo ≤ c.1 ∧ c.1 < hi
    · rw [List.filter_cons_of_neg (by simpa using hc), ih, memGet]
      by_cases e : c.1 = x
      · rw [if_pos (e ▸ hc), if_pos (e ▸ hc)]
      · rw [if_neg e]
    · rw [List.filter_cons_of_pos (by simp only [Bool.or_eq_true, decide_eq_true_eq]; omega), memGet, memGet, ih]
      split
      · next e => rw [if_neg (e ▸ hc)]
      · rfl

end

theorem cisData_cisPut (s : State) (k : Nat) (b c : Byte) (x : Nat) : cisData (cisPut s k b c) x = if x = k then b else cisData s x := memGet_memPut_any _ _ _ _ _

theorem cisCheck_cisPut (s : State) (k : Nat) (b c : Byte) (x : Nat) : cisCheck (cisPut s k b c) x = if x = k then c else cisCheck s x := memGet_memPut_any _ _ _ _ _

theorem cisData_of_bytes {s t : State} (h : t.cistern.data = s.cistern.data) (k : Nat) : cisData t k = cisData s k := congrArg (fun d => memGet unData d k) h

theorem cisCheck_of_bytes {s t : State} (h : t.cistern.check = s.cistern.check) (k : Nat) : cisCheck t k = cisCheck s k := congrArg (fun d => memGet unCheck d k) h

/-! ### The Cistern's registers (R385, R388) -/

/-- From `s` to `t` the Cistern's registers stand, but for the count of dropped records, and no bit of KEEP_ALERT is cleared. -/
def DeskKept (s t : State) : Prop :=
  t.cistern = { s.cistern with data := t.cistern.data, check := t.cistern.check, recDrop := t.cistern.recDrop } ∧
    ∀ b, s.keep.alert.getLsbD b = true → t.keep.alert.getLsbD b = true

section
variable {s t u : State}

theorem DeskKept.rfl_ (s : State) : DeskKept s s := ⟨rfl, fun _ h => h⟩

theorem DeskKept.trans (h : DeskKept s t) (g : DeskKept t u) : DeskKept s u := ⟨g.1.trans (by rw [h.1]), fun b hb => g.2 b (h.2 b hb)⟩

theorem DeskKept.of_eq (h : DeskKept s t) (hc : u.cistern = t.cistern) (ha : u.keep.alert = t.keep.alert) : DeskKept s u := h.trans ⟨by rw [hc], fun b hb => by rw [ha, hb]⟩

theorem DeskKept.of_same {l : List Fld} (h : DeskKept s t) (e : Same l t u) (hl : .bytes ∉ l ∧ .cistern ∉ l ∧ .alert ∉ l := by decide) : DeskKept s u :=
  h.of_eq (e.cistern_eq hl.1 hl.2.1) (e .alert hl.2.2)

theorem alert_desk (h : DeskKept s t) (b : Nat) : DeskKept s (alert t b) := h.trans ⟨rfl, fun x hx => by
  show (t.keep.alert ||| _).getLsbD x = true
  rw [BitVec.getLsbD_or, hx, Bool.true_or]⟩

theorem addRec_desk (h : DeskKept s t) (r : Rec) : DeskKept s (addRec t r) := by
  unfold addRec
  split
  · exact h.of_eq rfl rfl
  · split
    · exact h.of_eq rfl rfl
    · dsimp only
      split
      · exact h.of_eq rfl rfl
      · refine alert_desk (t := { refuseQuota t r.part with cistern := { (refuseQuota t r.part).cistern with recDrop := satInc (refuseQuota t r.part).cistern.recDrop } }) ?_ _
        exact h.trans ⟨rfl, fun _ hb => hb⟩

end

/-! ### Settling an operation and ending a sample, as chains of smaller steps (R191, R215) -/

section
variable {P : State → Prop} (hrec : ∀ v r, P v → P (addRec v r)) (hsame : ∀ v u, P v → Same [.parts, .samples, .near, .tiles, .ops, .tickets, .rng] v u → P u)
include hrec hsame

theorem finalize_ind {t : State} (h : P t) (i : Nat) : P (finalize t i) := by
  unfold finalize
  refine onOp_ind h fun o _ => ?_
  dsimp only
  have freed (f : OpV → OpV) : P (updOp (freeTicket t i) i f) :=
    hsame t _ h ((updOp_keeps i f (freeTicket_keeps i (Keeps.rfl_ [.ops, .tickets] t) (List.Subset.refl _)) (by decide)).same.mono (by decide))
  have counted (f : OpV → OpV) (p : Nat) (g : PartCnt → PartCnt) : P (updCnt (updOp (freeTicket t i) i f) p g) :=
    hsame _ _ (freed f) ((updCnt_keeps p g (Keeps.rfl_ [.parts] _) (List.Subset.refl _)).same.mono (by decide))
  have counts : P (if (opFused o).1 = vMirage then updCnt (updOp (freeTicket t i) i fun x => { x with state := .final, verdict := (opFused o).1, mm := 0 }) o.part fun c =>
        { c with mirage := satInc c.mirage }
      else if (opFused o).1 = vSuspect then updCnt (updOp (freeTicket t i) i fun x => { x with state := .final, verdict := (opFused o).1, mm := 0 }) o.part fun c =>
        { c with suspect := satInc c.suspect }
      else updOp (freeTicket t i) i fun x => { x with state := .final, verdict := (opFused o).1, mm := 0 }) := by
    split
    · exact counted _ _ _
    · split
      · exact counted _ _ _
      · exact freed _
  split
  · exact counts
  · exact hrec _ _ counts

theorem settle_ind {t : State} (h : P t) (i : Nat) : P (settle t i) := by
  have upd {v : State} (hv : P v) (j : Nat) (f : OpV → OpV) : P (updOp v j f) := hsame _ _ hv ((updOp_keeps j f (Keeps.rfl_ [.ops] v) (List.Subset.refl _)).same.mono (by decide))
  unfold settle
  refine onOp_ind h fun o _ => ?_
  split
  · exact h
  · exact h
  · split
    · refine finalize_ind hrec hsame ?_ i
      split
      · exact upd (upd h _ _) _ _
      · exact upd h _ _
    · dsimp only
      split
      · exact finalize_ind hrec hsame h i
      · split
        · exact upd h _ _
        · exact h

/-- The end of a sample, with the return of its engines apart. -/
theorem endSample_ind_engines (hinput : ∀ v x, P v → P (addInput v x)) (hfree : ∀ v uid row e, P v → P (freeEngine uid row v e)) {t : State} (h : P t)
    (uid row result cause : Nat) : P (endSample t uid row result cause) := by
  have kept (l : List Fld) {v u : State} (hl : l ⊆ [.parts, .samples, .near, .tiles, .ops, .tickets, .rng]) (hv : P v) (hk : Keeps l v u) : P u :=
    hsame _ _ hv (hk.same.mono hl)
  unfold endSample
  split
  · exact h
  · next x _ =>
    refine onOp_ind h fun o _ => ?_
    have rec_ := hrec _ (rplvRec t x o (x.state = .confirming) result cause) h
    dsimp only
    refine settle_ind hrec hsame ?_ uid
    generalize addRec t (rplvRec t x o (x.state = .confirming) result cause) = v at rec_ ⊢
    have drawn : P { v with rng := v.rng + 1 } := hsame _ _ rec_ fun f hf => by
      cases f with
      | rng => exact absurd (by decide) hf
      | _ => rfl
    have charged := kept [.parts] (by decide) drawn (chargeSample_keeps x o result (Keeps.rfl_ _ _) (List.Subset.refl _))
    have counted := kept [.parts] (by decide) charged (countRpl_keeps x.part result cause (Keeps.rfl_ _ _) (List.Subset.refl _))
    have input : P (replayInput (countRpl (chargeSample { v with rng := v.rng + 1 } x o result) x.part result cause) o row result cause) := by
      unfold replayInput
      split
      · exact hinput _ _ counted
      · exact hinput _ _ counted
      · exact hinput _ _ counted
      · exact hinput _ _ counted
      · exact hinput _ _ counted
      · split
        · exact hinput _ _ counted
        · exact hinput _ _ counted
      · exact hinput _ _ counted
    have freed {u : State} (hu : P u) : P ((x.engines ++ x.conf).foldl (freeEngine uid row) u) :=
      List.foldlRecOn _ _ hu fun u hu e _ => hfree u uid row e hu
    have witness {u : State} (l : List Sample) (hu : P u) : P (freeWitness { u with samples := l } x result cause) := by
      refine kept [.parts, .near] (by decide) (hsame _ { u with samples := l } hu fun f hf => ?_) (freeWitness_keeps x result cause (Keeps.rfl_ _ _) (List.Subset.refl _))
      cases f with
      | samples => exact absurd (by decide) hf
      | _ => rfl
    have watched {v : State} (hv : P v) : P (if result = rPass then watchPass v x.spire else v) := by
      split
      · exact kept [.tiles] (by decide) hv (watchPass_keeps x.spire (Keeps.rfl_ _ _) (List.Subset.refl _))
      · exact hv
    refine kept [.ops] (by decide) (watched ?_) (updOp_keeps uid _ (Keeps.rfl_ _ _) (List.Subset.refl _))
    have done := witness (((x.engines ++ x.conf).foldl (freeEngine uid row) (replayInput (countRpl (chargeSample { v with rng := v.rng + 1 } x o result) x.part result cause)
      o row result cause)).samples.filter fun y => !(y.uid == uid && y.row == row)) (freed input)
    split
    · exact done
    · exact kept [.parts] (by decide) done (addRpl_keeps x.part 14 x.unchecked (addDeficit_keeps x.part x.unchecked (Keeps.rfl_ _ _) (List.Subset.refl _)) (by decide))

end

theorem endSample_ind {P : State → Prop} (hrec : ∀ v r, P v → P (addRec v r))
    (hsame : ∀ v u, P v → Same [.parts, .engines, .samples, .near, .tiles, .ops, .tickets, .rng] v u → P u) (hinput : ∀ v x, P v → P (addInput v x)) {t : State} (h : P t)
    (uid row result cause : Nat) : P (endSample t uid row result cause) :=
  endSample_ind_engines hrec (fun v u hv e => hsame v u hv (e.mono (by decide))) hinput
    (fun v uid row e hv => hsame v _ hv ((freeEngine_keeps uid row e (Keeps.rfl_ [.engines] v) (List.Subset.refl _)).same.mono (by decide))) h uid row result cause

theorem endSample_desk {s t : State} (h : DeskKept s t) (uid row result cause : Nat) : DeskKept s (endSample t uid row result cause) :=
  endSample_ind (P := DeskKept s) (fun _ r hv => addRec_desk hv r) (fun _ _ hv e => hv.of_same e) (fun v x hv => hv.of_same (addInput_same v x)) h uid row result cause

end Sys2Proof.Machine
end

section
/-! Writes and reads of one byte (R375, R379, R385). -/

set_option Elab.async false

namespace Sys2Proof.Machine

/-- A byte lies in one line. -/
theorem lineRuns_one (a : Nat) : lineRuns a 1 = [(a, 1)] := by
  have count : (a + 1 - 1) / 64 - a / 64 + 1 = 1 := by rw [Nat.add_sub_cancel, Nat.sub_self]
  have lo : max a (a / 64 * 64) = a := by omega
  have hi : min (a + 1) ((a / 64 + 0 + 1) * 64) = a + 1 := by omega
  rw [lineRuns, if_neg (by decide), count]
  simp only [List.range_one, List.map_cons, List.map_nil, Nat.add_zero] at hi ⊢
  rw [hi, lo, Nat.add_sub_cancel_left]

/-! ### Writes (R375, R378, R385) -/

theorem cisAt_data {addr bank a : Nat} (h : cisAt addr = .data bank a) : 2 ≤ bank ∧ bank < 32 ∧ a < 2 ^ 23 := by
  unfold cisAt at h
  split at h
  · obtain ⟨rfl, rfl⟩ := CisAt.data.inj h
    omega
  · split at h <;> cases h

theorem linesAt_data {s : State} {addr bank a : Nat} (h : cisAt addr = .data bank a) : linesAt s addr = [(bank, a / 64)] := by
  unfold linesAt
  split
  · next hx =>
    obtain ⟨rfl, rfl⟩ := CisAt.data.inj (hx.symm.trans h)
    rfl
  · next hx => cases hx.symm.trans h
  · next hx => cases hx.symm.trans h

theorem writeByte_data {s : State} {addr bank a : Nat} (h : cisAt addr = .data bank a) (b : Byte) : writeByte s addr b = cisStore s bank a b := by
  unfold writeByte
  split
  · next hx => cases hx.symm.trans h
  · next hx =>
    obtain ⟨rfl, rfl⟩ := CisAt.data.inj (hx.symm.trans h)
    rfl
  · next hx => cases hx.symm.trans h

theorem writeByte_reserved {s : State} {addr : Nat} (h : cisAt addr = .reserved) (b : Byte) : writeByte s addr b = s := by
  unfold writeByte
  split
  · rfl
  · next hx => cases hx.symm.trans h
  · next hx => cases hx.symm.trans h

/-- What a write finds when the lines it takes from Sirocco are superseded (R385). -/
def superseded (s : State) (addr n : Nat) (held : Bool) : State :=
  if held then ((lineRuns addr n).flatMap fun r => linesAt s r.1).foldl supersede s else s

theorem superseded_same (s : State) (addr n : Nat) (held : Bool) : Same [.alert, .cistern, .parts, .records, .early, .near, .rng] s (superseded s addr n held) := by
  unfold superseded
  split
  · exact (keeps_foldl (fun v a hv => supersede_keeps a hv (List.Subset.refl _)) (Keeps.rfl_ _ s)).same
  · exact Same.rfl_ _ s

/-- One more use of the lines of a write. -/
def written (s : State) (addr n : Nat) : State := updCis s fun c => { c with linesWritten := c.linesWritten + BitVec.ofNat 64 (lineRuns addr n).length }

theorem exec_cisternWrite_enabled (s : State) (addr : W32) (b : Byte) (held : Bool) :
    exec (.cisternWrite addr [(b, true)] held) s = .next (written (writeByte (superseded s addr.toNat 1 held) addr.toNat b) addr.toNat 1) := rfl

theorem exec_cisternWrite_disabled (s : State) (addr : W32) (b : Byte) (held : Bool) :
    exec (.cisternWrite addr [(b, false)] held) s = .next (written (superseded s addr.toNat 1 held) addr.toNat 1) := rfl

theorem exec_cisternWrite_one (s : State) (addr : W32) (b : Byte) (be held : Bool) :
    exec (.cisternWrite addr [(b, be)] held) s = .next (written (if be then writeByte (superseded s addr.toNat 1 held) addr.toNat b else superseded s addr.toNat 1 held) addr.toNat 1) := by
  cases be <;> rfl

/-- What Sirocco lists and counts of the write-backs that a write supersedes (R385). -/
def dropped (s : State) : W32 × List (Nat × Nat) := (s.cistern.scrubSuper, s.cistern.superseded)

theorem DeskKept.dropped {s t : State} (h : DeskKept s t) : dropped t = dropped s := (congrArg (fun c : Cistern => (c.scrubSuper, c.superseded)) h.1 :)

theorem scrubCount_dropped (bank : Nat) (s : State) (a : Nat) : dropped (scrubCount bank s a) = dropped s := by
  unfold scrubCount
  split <;> rfl

theorem poisonRec_desk {s t : State} (h : DeskKept s t) (o : Owner) (bank line syn n : Nat) : DeskKept s (poisonRec t o bank line syn n) := addRec_desk h _

theorem lineRec_desk (s : State) (bank line : Nat) (bads : List Nat) : DeskKept s (lineRec s bank line bads) := by
  unfold lineRec
  split
  · exact DeskKept.rfl_ s
  · exact poisonRec_desk ((DeskKept.rfl_ s).of_eq (u := { s with rng := s.rng + 1 }) rfl rfl) _ _ _ _ _

theorem supersede_effect {s : State} {bank line : Nat} (hin : inSlice s (line / 16) = true)
    (hc : ((List.range 64).any fun i => corrects s bank (line * 64 + i)) = true) (hn : (bank, line) ∉ s.cistern.superseded) :
    dropped (supersede s (bank, line)) = (satInc s.cistern.scrubSuper, s.cistern.superseded ++ [(bank, line)]) := by
  have any : ((List.range 64).map (line * 64 + ·)).any (corrects s bank) = true := by
    rw [List.any_map]
    exact hc
  have new : s.cistern.superseded.contains (bank, line) = false := by
    rw [← Bool.not_eq_true, List.contains_iff_mem]
    exact hn
  unfold supersede
  dsimp only
  rw [if_neg (by rw [hin, any, new]; decide)]
  have counted := foldl_kept (g := dropped) (scrubCount_dropped bank) ((List.range 64).map (line * 64 + ·)) s
  have recd := (lineRec_desk (((List.range 64).map (line * 64 + ·)).foldl (scrubCount bank) s) bank line
    (((List.range 64).map (line * 64 + ·)).filter fun a => synKind (syndrome s bank a) == .bad)).dropped.trans counted
  exact (congrArg (fun x : W32 × List (Nat × Nat) => (satInc x.1, x.2 ++ [(bank, line)])) recd :)

theorem superseded_one {s : State} {addr bank a : Nat} (h : cisAt addr = .data bank a) : superseded s addr 1 true = supersede s (bank, a / 64) := by
  unfold superseded
  rw [if_pos rfl, lineRuns_one, List.flatMap_cons, List.flatMap_nil, linesAt_data h]
  rfl

theorem writeByte_dropped (s : State) (addr : Nat) (b : Byte) : dropped (writeByte s addr b) = dropped s := by
  unfold writeByte
  split
  · rfl
  · rfl
  · dsimp only
    split <;> rfl

/-! ### Reads (R379, R381) -/

theorem chooseBank_data (s : State) (use : CisUse) : ∃ e r, chooseBank s use = updCis s fun c => { c with execBank := e, readBank := r } := by
  unfold chooseBank
  split
  · exact ⟨_, _, rfl⟩
  · split
    · exact ⟨_, _, rfl⟩
    · exact ⟨_, _, rfl⟩
    · exact ⟨s.cistern.execBank, s.cistern.readBank, rfl⟩

theorem readByte_data {s : State} {addr bank a : Nat} (h : cisAt addr = .data bank a) (use : CisUse) :
    readByte s use addr = (((readStored s bank a false).1, if (readStored s bank a false).1.2 then some (bank, a, syndrome s bank a) else none), (readStored s bank a false).2) := by
  unfold readByte
  split
  · next hx => cases hx.symm.trans h
  · next hx =>
    obtain ⟨rfl, rfl⟩ := CisAt.data.inj (hx.symm.trans h)
    rfl
  · next hx => cases hx.symm.trans h

theorem poisonReset_data {s : State} {addr bank a : Nat} (h : cisAt addr = .data bank a) (rs : List (Byte × Bool)) : poisonReset s addr rs = s := by
  unfold poisonReset
  split
  · next hx => cases hx.symm.trans h
  · rfl

theorem readStored_clean {s : State} {bank a : Nat} (h : synKind (syndrome s bank a) = .clean) (b : Bool) :
    readStored s bank a b = ((cisData s (cisKey bank a), false), s) := by
  unfold readStored
  dsimp only
  rw [h]

/-- What is noted of an UNWRITTEN byte that was read. -/
def unwrittenRead (s : State) : State := alert (updCis s fun c => { c with unwrCnt := satInc c.unwrCnt, unwrSeen := true }) alCistern

theorem readStored_unwritten {s : State} {bank a : Nat} (h : synKind (syndrome s bank a) = .unwritten) :
    readStored s bank a false = ((cisData s (cisKey bank a), true), unwrittenRead s) := by
  unfold readStored
  dsimp only
  rw [h]
  rfl

/-- What a read of one byte of a data bank is. -/
theorem readLine_data {s : State} {addr bank a : Nat} (h : cisAt addr = .data bank a) (use : CisUse) {v : Byte} {p : Bool} {u : State}
    (hr : readStored s bank a false = ((v, p), u)) :
    readLine use s addr 1 =
      let s1 := updCis u fun c => { c with last := c.last ++ [(v, p)], linesRead := c.linesRead + 1 }
      if p then poisonRec s1 (ownerOf s1 use a) bank (addr / 64 * 64) (syndrome s bank a) 1 else s1 := by
  have byte : readRun s use addr 1 = ([(v, p)], (if p then [(bank, a, syndrome s bank a)] else []), u) := by
    unfold readRun
    rw [List.range_one, List.foldl_cons, List.foldl_nil]
    dsimp only
    rw [Nat.add_zero, readByte_data h, hr]
    cases p <;> rfl
  unfold readLine
  dsimp only
  rw [byte, poisonReset_data h]
  cases p <;> rfl

theorem exec_cisternRead_one (s : State) (use : CisUse) (addr : W32) :
    exec (.cisternRead use ⟨addr, 1⟩) s = .next (let s1 := readLine use (chooseBank (updCis s fun c => { c with last := [] }) use) addr.toNat 1
      if s1.cistern.last.any (·.2) then poisonAnswer s1 use else s1) := by
  change execCisternRead use ⟨addr, 1⟩ s = _
  unfold execCisternRead
  rw [lineRuns_one]
  rfl

theorem poisonAnswer_desk (s : State) (use : CisUse) : DeskKept s (poisonAnswer s use) := by
  have h := DeskKept.rfl_ s
  unfold poisonAnswer
  split
  · exact h
  · exact h.of_eq rfl rfl
  · unfold poisonRecord
    split
    · exact h
    · exact h.of_eq rfl rfl
  · split
    · exact endSample_desk h _ _ _ _
    · exact h
  · exact h.of_eq rfl rfl
  · exact h.of_eq rfl rfl
  · unfold skipTrace
    split
    · exact h
    · dsimp only
      split
      · exact h.of_eq rfl rfl
      · exact h.of_eq rfl rfl
  · unfold skipDump
    split
    · exact h
    · exact h.of_eq rfl rfl

end Sys2Proof.Machine
end

section
/-! Bank commands, spare rows, the scrub slice (R382, R383, R388). -/

set_option Elab.async false

namespace Sys2Proof.Machine

/-! ### Bank commands (R388, R432) -/

theorem DeskKept.bcmd {s t : State} (h : DeskKept s t) : t.cistern.bcmd = s.cistern.bcmd := (congrArg (fun c : Cistern => c.bcmd) h.1 :)

theorem DeskKept.banks {s t : State} (h : DeskKept s t) : t.cistern.banks = s.cistern.banks := (congrArg (fun c : Cistern => c.banks) h.1 :)

theorem addRec_bytes (s : State) (r : Rec) : (addRec s r).cistern.data = s.cistern.data ∧ (addRec s r).cistern.check = s.cistern.check :=
  (addRec_same s r).bytes_eq

theorem bankResult_effect (s : State) (bank op result line : Nat) : (bankResult s bank op result line).cistern.data = s.cistern.data ∧
    (bankResult s bank op result line).cistern.check = s.cistern.check ∧ (bankResult s bank op result line).cistern.banks = s.cistern.banks ∧
    (bankResult s bank op result line).cistern.bcmd = setFld (setFld (setFld s.cistern.bcmd 10 1 0) 11 3 result) 14 1 0 ∧
    (bankResult s bank op result line).spires = s.spires := by
  unfold bankResult
  dsimp only
  refine ⟨(addRec_bytes _ _).1, (addRec_bytes _ _).2, (addRec_desk (DeskKept.rfl_ _) _).banks, (addRec_desk (DeskKept.rfl_ _) _).bcmd, (addRec_same _ _) .spires (by decide)⟩

/-- After `fillBank` every byte of the bank is UNWRITTEN, and every other byte stands. -/
theorem fillBank_bytes (s : State) (bank k : Nat) :
    cisData (fillBank s bank) k = (if cisKey bank 0 ≤ k ∧ k < cisKey (bank + 1) 0 then unData k else cisData s k) ∧
    cisCheck (fillBank s bank) k = (if cisKey bank 0 ≤ k ∧ k < cisKey (bank + 1) 0 then unCheck k else cisCheck s k) :=
  ⟨memGet_memDrop _ _ _ _ _, memGet_memDrop _ _ _ _ _⟩

/-- From `s` to `t` a bank has been filled. -/
def Filled (s t : State) (bank : Nat) : Prop := t.cistern.data = (fillBank s bank).cistern.data ∧ t.cistern.check = (fillBank s bank).cistern.check

section
variable {s t : State} {bank k : Nat}

theorem Filled.inside (h : Filled s t bank) (hlo : cisKey bank 0 ≤ k) (hhi : k < cisKey (bank + 1) 0) : cisData t k = unData k ∧ cisCheck t k = unCheck k := by
  rw [cisData_of_bytes h.1, cisCheck_of_bytes h.2, (fillBank_bytes s bank k).1, (fillBank_bytes s bank k).2, if_pos ⟨hlo, hhi⟩, if_pos ⟨hlo, hhi⟩]
  exact ⟨rfl, rfl⟩

theorem Filled.outside (h : Filled s t bank) (hk : k < cisKey bank 0 ∨ cisKey (bank + 1) 0 ≤ k) : cisData t k = cisData s k ∧ cisCheck t k = cisCheck s k := by
  have out : ¬ (cisKey bank 0 ≤ k ∧ k < cisKey (bank + 1) 0) := by omega
  rw [cisData_of_bytes h.1, cisCheck_of_bytes h.2, (fillBank_bytes s bank k).1, (fillBank_bytes s bank k).2, if_neg out, if_neg out]
  exact ⟨rfl, rfl⟩

end

theorem bankFill_filled {s : State} {bank : Nat} (h : bankRefusal s bank = none) : Filled s (bankFill s bank) bank ∧ (bankFill s bank).spires = s.spires := by
  unfold bankFill
  rw [h]
  dsimp only
  obtain ⟨data, check, -, -, spires⟩ := bankResult_effect (if bank ≤ 1 then updCis (fillBank s bank) fun c => { c with mirrorOk := c.mirrorOk && !s.boot.firmware }
    else fillBank s bank) bank 1 brPass 0
  refine ⟨⟨data.trans ?_, check.trans ?_⟩, spires.trans ?_⟩
  all_goals split <;> rfl

theorem bankFill_refused {s : State} {bank n : Nat} (h : bankRefusal s bank = some n) : bankFill s bank = bankResult s bank 1 n 0 := by
  unfold bankFill
  rw [h]

theorem bankTestRun_filled {s : State} {bank : Nat} (f : Option Nat) (h2 : 2 ≤ bank) (hb : bank < s.cistern.banks.length) (h : bankRefusal s bank = none) :
    Filled s (bankTestRun s bank f) bank ∧ ((bankTestRun s bank f).cistern.banks[bank]?.map (·.failed)) = some f.isSome := by
  have failed : ((updAt s.cistern.banks bank fun b => { b with failed := f.isSome })[bank]?.map (·.failed)) = some f.isSome := by
    rw [updAt, List.getElem?_modify_eq, List.getElem?_eq_getElem hb]
    rfl
  have two : ¬ bank ≤ 1 := by omega
  unfold bankTestRun
  rw [h]
  dsimp only
  cases f with
  | none =>
    dsimp only
    rw [if_neg fun e => two e.1]
    obtain ⟨data, check, banks, -, -⟩ := bankResult_effect (updBank (fillBank s bank) bank fun b => { b with failed := (none : Option Nat).isSome }) bank 2 brPass 0
    exact ⟨⟨data, check⟩, by rw [banks]; exact failed⟩
  | some l =>
    dsimp only
    rw [if_neg two]
    obtain ⟨data, check, banks, -, -⟩ := bankResult_effect (updBank (fillBank s bank) bank fun b => { b with failed := (some l).isSome }) bank 2 brFail l
    exact ⟨⟨data, check⟩, by rw [banks]; exact failed⟩

/-! ### Spare rows (R382) -/

theorem rowRemap_none {s : State} {bank row : Nat} (h : rowBad s bank row = false) : exec (.rowRemap bank row) s = .next s := by
  change execRowRemap bank row s = _
  unfold execRowRemap
  split
  · rfl
  · rw [if_pos (Or.inr (by rw [h]; rfl))]

theorem rowRemap_effect {s : State} {bank row k : Nat} {b : Bank} (hb : s.cistern.banks[bank]? = some b) (hr : row < 8192) (hbad : rowBad s bank row = true)
    (hk : (List.range 32).find? (fun k => !(b.remap.any fun m => m.2 == k)) = some k) :
    ∃ t b', exec (.rowRemap bank row) s = .next t ∧ t.cistern.banks[bank]? = some b' ∧ b'.remap = b.remap ++ [(row, k)] ∧
      b'.sparesUsed = b.sparesUsed + 1 ∧ t.cistern.data = s.cistern.data := by
  have place : (updAt s.cistern.banks bank fun b => { b with
      remap := b.remap ++ [(row, k)], sparesUsed := b.sparesUsed + 1, spareOut := b.spareOut || decide (b.sparesUsed + 1 ≥ 32) })[bank]? =
      some { b with remap := b.remap ++ [(row, k)], sparesUsed := b.sparesUsed + 1, spareOut := b.spareOut || decide (b.sparesUsed + 1 ≥ 32) } := by
    rw [updAt, List.getElem?_modify_eq, hb]
    rfl
  obtain ⟨t, run, keeps⟩ := execRowRemap_keeps bank row (Keeps.rfl_ _ s) (List.Subset.refl _)
  refine ⟨t, { b with remap := b.remap ++ [(row, k)], sparesUsed := b.sparesUsed + 1, spareOut := b.spareOut || decide (b.sparesUsed + 1 ≥ 32) }, run, ?_, rfl, rfl,
    keeps.same.bytes_eq.1⟩
  rw [← place]
  have closed := run
  unfold execRowRemap at closed
  rw [hb] at closed
  dsimp only at closed
  rw [if_neg (by rw [hbad]; simp only [Bool.not_true, Bool.false_eq_true, or_false]; omega), hk] at closed
  dsimp only at closed
  obtain rfl := Host.Outcome.next.inj closed
  have repaired (u : State) : DeskKept u (writeRepair u) := (DeskKept.rfl_ u).of_same (writeRepair_keeps (Keeps.rfl_ [.nvm] u) (List.Subset.refl _)).same
  split
  · exact congrArg (fun l : List Bank => l[bank]?) (alert_desk (addRec_desk (repaired _) _) _).banks
  · exact congrArg (fun l : List Bank => l[bank]?) (addRec_desk (repaired _) _).banks

theorem scrubSliceDone_effect {s : State} {n : Nat} {rest : List Nat} (hq : s.cistern.scrubQ = n :: rest) (hsafe : inSafe s uCis = false) :
    ∃ t, exec .scrubSliceDone s = .next t ∧ t.cistern.scrubQ = rest ∧ t.cistern.scrubPos = (s.cistern.scrubPos + n) % 8192 ∧ t.spires = s.spires ∧ t.tiles = s.tiles := by
  obtain ⟨t, run, keeps⟩ := execScrubSliceDone_keeps (Keeps.rfl_ _ s) (List.Subset.refl _)
  refine ⟨t, run, ?_, ?_, keeps.same .spires (by decide), keeps.same .tiles (by decide)⟩
  all_goals
    unfold execScrubSliceDone at run
    rw [hq] at run
    dsimp only at run
    rw [if_neg (by rw [hsafe]; decide)] at run
    obtain rfl := Host.Outcome.next.inj run
    rfl

/-! ### Writes and reads of one byte -/

theorem written_bytes (s : State) (addr n k : Nat) : cisData (written s addr n) k = cisData s k ∧ cisCheck (written s addr n) k = cisCheck s k := ⟨rfl, rfl⟩

theorem cisternWrite_stores {s : State} {addr : W32} {bank a : Nat} (h : cisAt addr.toNat = .data bank a) (b : Byte) (held : Bool) :
    ∃ t, exec (.cisternWrite addr [(b, true)] held) s = .next t ∧ cisData t (cisKey bank a) = b ∧ cisCheck t (cisKey bank a) = checkOf a b ∧
      (∀ k, k ≠ cisKey bank a → cisData t k = cisData s k ∧ cisCheck t k = cisCheck s k) ∧ t.spires = s.spires ∧ t.tiles = s.tiles ∧
      (held = false → t = { s with cistern := t.cistern }) := by
  obtain ⟨data, check⟩ := (superseded_same s addr.toNat 1 held).bytes_eq
  refine ⟨written (cisStore (superseded s addr.toNat 1 held) bank a b) addr.toNat 1, ?_, ?_, ?_, fun k hk => ⟨?_, ?_⟩,
    superseded_same s addr.toNat 1 held .spires (by decide), superseded_same s addr.toNat 1 held .tiles (by decide), ?_⟩
  · rw [exec_cisternWrite_enabled, writeByte_data h]
  · exact (cisData_cisPut _ _ _ (checkOf a b) _).trans (if_pos rfl)
  · exact (cisCheck_cisPut _ _ b _ _).trans (if_pos rfl)
  · exact (cisData_cisPut _ _ _ (checkOf a b) _).trans ((if_neg hk).trans (cisData_of_bytes data k))
  · exact (cisCheck_cisPut _ _ b _ _).trans ((if_neg hk).trans (cisCheck_of_bytes check k))
  · rintro rfl
    rfl

theorem cisternWrite_supersedes {s : State} {addr : W32} {bank a : Nat} (h : cisAt addr.toNat = .data bank a) (b : Byte) (be : Bool) (hin : inSlice s (a / 64 / 16) = true)
    (hc : ((List.range 64).any fun i => corrects s bank (a / 64 * 64 + i)) = true) (hn : (bank, a / 64) ∉ s.cistern.superseded) :
    ∃ t, exec (.cisternWrite addr [(b, be)] true) s = .next t ∧ t.cistern.scrubSuper = satInc s.cistern.scrubSuper ∧
      t.cistern.superseded = s.cistern.superseded ++ [(bank, a / 64)] := by
  have lines := (congrArg dropped (superseded_one (s := s) h)).trans (supersede_effect hin hc hn)
  have after : dropped (if be then writeByte (superseded s addr.toNat 1 true) addr.toNat b else superseded s addr.toNat 1 true) =
      (satInc s.cistern.scrubSuper, s.cistern.superseded ++ [(bank, a / 64)]) := by
    split
    · exact (writeByte_dropped _ _ _).trans lines
    · exact lines
  exact ⟨_, exec_cisternWrite_one s addr b be true, congrArg Prod.fst after, congrArg Prod.snd after⟩

theorem cisternRead_clean {s : State} (use : CisUse) {addr : W32} {bank a : Nat} (h : cisAt addr.toNat = .data bank a) (hc : synKind (syndrome s bank a) = .clean) :
    ∃ t, exec (.cisternRead use ⟨addr, 1⟩) s = .next t ∧ t.cistern.last = [(cisData s (cisKey bank a), false)] ∧ t.cistern.data = s.cistern.data ∧
      t.cistern.check = s.cistern.check ∧ t = { s with cistern := t.cistern } := by
  obtain ⟨e, r, choose⟩ := chooseBank_data (updCis s fun c => { c with last := [] }) use
  refine ⟨_, exec_cisternRead_one s use addr, ?_⟩
  dsimp only
  rw [choose, readLine_data h use (readStored_clean (s := updCis (updCis s fun c => { c with last := [] }) fun c => { c with execBank := e, readBank := r }) hc false)]
  exact ⟨rfl, rfl, rfl, rfl⟩

theorem cisternRead_unwritten {s : State} (use : CisUse) {addr : W32} {bank a : Nat} (h : cisAt addr.toNat = .data bank a)
    (hu : synKind (syndrome s bank a) = .unwritten) :
    ∃ t v, exec (.cisternRead use ⟨addr, 1⟩) s = .next t ∧ t.cistern.last = [(v, true)] ∧ t.cistern.unwrCnt = satInc s.cistern.unwrCnt ∧
      t.cistern.unwrSeen = true ∧ t.keep.alert.getLsbD alCistern = true ∧ t.cistern.data = s.cistern.data := by
  obtain ⟨e, r, choose⟩ := chooseBank_data (updCis s fun c => { c with last := [] }) use
  refine ⟨_, cisData s (cisKey bank a), exec_cisternRead_one s use addr, ?_⟩
  dsimp only
  rw [choose, readLine_data h use (readStored_unwritten (s := updCis (updCis s fun c => { c with last := [] }) fun c => { c with execBank := e, readBank := r }) hu)]
  dsimp only
  rw [if_pos rfl]
  generalize hw : updCis (unwrittenRead (updCis (updCis s fun c => { c with last := [] }) fun c => { c with execBank := e, readBank := r })) (fun c =>
    { c with last := c.last ++ [(cisData _ (cisKey bank a), true)], linesRead := c.linesRead + 1 }) = w
  have rec_ := poisonRec_desk (DeskKept.rfl_ w) (ownerOf w use a) bank (addr.toNat / 64 * 64)
    (syndrome (updCis (updCis s fun c => { c with last := [] }) fun c => { c with execBank := e, readBank := r }) bank a) 1
  have recBytes : (poisonRec w (ownerOf w use a) bank (addr.toNat / 64 * 64)
    (syndrome (updCis (updCis s fun c => { c with last := [] }) fun c => { c with execBank := e, readBank := r }) bank a) 1).cistern.data = w.cistern.data := (addRec_bytes _ _).1
  generalize poisonRec w (ownerOf w use a) bank (addr.toNat / 64 * 64)
    (syndrome (updCis (updCis s fun c => { c with last := [] }) fun c => { c with execBank := e, readBank := r }) bank a) 1 = v at rec_ recBytes ⊢
  have last : v.cistern.last = [(cisData s (cisKey bank a), true)] := (congrArg (fun c : Cistern => c.last) rec_.1).trans (by subst hw; rfl)
  rw [if_pos (by rw [last]; rfl)]
  have answer := rec_.trans (poisonAnswer_desk v use)
  have bytes : (poisonAnswer v use).cistern.data = v.cistern.data := (poisonAnswer_keeps use (Keeps.rfl_ _ v) (List.Subset.refl _)).same.bytes_eq.1
  have reg {α : Type} (f : Cistern → α) (hf : ∀ c d k n, f { c with data := d, check := k, recDrop := n } = f c) : f (poisonAnswer v use).cistern = f w.cistern :=
    (congrArg f answer.1).trans (hf _ _ _ _)
  refine ⟨(reg (·.last) fun _ _ _ _ => rfl).trans (by subst hw; rfl), (reg (·.unwrCnt) fun _ _ _ _ => rfl).trans (by subst hw; rfl),
    (reg (·.unwrSeen) fun _ _ _ _ => rfl).trans (by subst hw; rfl), answer.2 _ ?_, bytes.trans (recBytes.trans (by subst hw; rfl))⟩
  subst hw
  exact alert_getLsbD _ (by decide : alCistern < 12)

/-- Settles O38: a write and a read of one byte, FILL and TEST of a bank, spare rows and the scrub slice, each from the rule of what it
leaves of the bytes and of the Cistern's registers. -/
theorem cisternBytesAndBanks : Obligations.CisternBytesAndBanks := by
  unfold Obligations.CisternBytesAndBanks
  refine ⟨⟨fun s addr b held bank a h => cisternWrite_stores h b held, fun s addr b held => ?_, fun s addr b held h => ?_,
    fun s addr b be bank a h hin hc hn => cisternWrite_supersedes h b be hin hc hn, fun s use addr bank a h hc => cisternRead_clean use h hc,
    fun s use addr bank a h hu => cisternRead_unwritten use h hu⟩, fun s bank h => ?_, fun s bank n h => ?_, fun s bank f h2 hb h => ?_,
    fun s bank row h => rowRemap_none h, fun s bank row k b hb hr hbad hk => rowRemap_effect hb hr hbad hk, fun s n rest hq hsafe _ => scrubSliceDone_effect hq hsafe⟩
  · exact ⟨_, exec_cisternWrite_disabled s addr b held, (superseded_same s addr.toNat 1 held).bytes_eq⟩
  · refine ⟨_, exec_cisternWrite_enabled s addr b held, ?_⟩
    rw [writeByte_reserved h]
    exact (superseded_same s addr.toNat 1 held).bytes_eq
  · obtain ⟨filled, spires⟩ := bankFill_filled h
    exact ⟨bankFill s bank, rfl, fun k hlo hhi => filled.inside hlo hhi, fun k hk => filled.outside hk, spires⟩
  · obtain ⟨data, check, -, bcmd, -⟩ := bankResult_effect s bank 1 n 0
    refine ⟨bankFill s bank, rfl, ?_⟩
    rw [bankFill_refused h]
    exact ⟨data, check, bcmd⟩
  · obtain ⟨filled, failed⟩ := bankTestRun_filled f h2 hb h
    exact ⟨sdtBankDone (bankTestRun s bank f) bank, rfl, failed, fun k hlo hhi => (filled.inside hlo hhi).1, fun k hk => (filled.outside hk).1⟩

end Sys2Proof.Machine
end

section
/-! A tile that hangs and the hang path (R266 to R271). -/

set_option Elab.async false

namespace Sys2Proof.Machine

theorem onTile_some {s : State} {i : Nat} {x : Tile} (h : getTile s i = some x) (f : Tile → State) : onTile s i f = f x := by rw [onTile, h]

theorem onSp_some {s : State} {i : Nat} {x : Spire} (h : getSp s i = some x) (f : Spire → State) : onSp s i f = f x := by rw [onSp, h]

theorem getTile_of_tiles {s t : State} (h : t.tiles = s.tiles) (i : Nat) : getTile t i = getTile s i := congrArg (List.find? _) h

theorem mem_tileInput {s : State} (hrun : s.belfry.run = true) (code i cause : Nat) :
    mkInput s code (partOfSp s i) i 0xFFFF cause false 0 0 ∈ (tileInput s code i cause).belfry.inputs := addInput_mem hrun _ rfl

/-! ### A tile's watchdog (R266, R267, R269) -/

/-- The marks of a tile that hangs: on it, on its partition, and in the list of hung tiles. -/
def markHung (s : State) (i p : Nat) : State :=
  let s2 := updPart (updTile s i fun t => { t with ranOut := true }) p fun q => { q with hangSeen := true }
  { s2 with hang := { s2.hang with hung := s2.hang.hung ++ [i] } }

section
variable {s : State} {i : Nat} {x : Tile} {sp : Spire}

theorem exec_hangTimeout (hx : getTile s i = some x) (hsp : getSp s i = some sp) :
    exec (.hangTimeout i) s = .next (if !watchdogRuns x sp ∨ x.ranOut ∨ s.keep.dieFault then s
      else tileInput (if s.hang.waitProgress then addRec (markHung s i x.part) ⟨.hang, s.time.tick, i, x.part, w3of i x.part 0, []⟩ else markHung s i x.part) 0x20 i 0) :=
  congrArg Host.Outcome.next ((onTile_some hx _).trans (onSp_some hsp _))

theorem hangTimeout_idle (hx : getTile s i = some x) (hsp : getSp s i = some sp) (h : watchdogRuns x sp = false ∨ x.ranOut = true) :
    exec (.hangTimeout i) s = .next s := by
  rw [exec_hangTimeout hx hsp, if_pos]
  rcases h with h | h
  · exact Or.inl (by rw [h]; rfl)
  · exact Or.inr (Or.inl h)

theorem hangTimeout_effect (hx : getTile s i = some x) (hsp : getSp s i = some sp) (hw : watchdogRuns x sp = true) (hr : x.ranOut = false)
    (hd : s.keep.dieFault = false) (hp : x.part < s.parts.length) :
    ∃ t, exec (.hangTimeout i) s = .next t ∧ getTile t i = some { x with ranOut := true } ∧ t.hang.hung = s.hang.hung ++ [i] ∧
      (getPart t x.part).hangSeen = true ∧ (s.belfry.run = true → ∃ n ∈ t.belfry.inputs, n.code = 0x20 ∧ n.spire = i) ∧
      (∀ j, j ≠ i → getTile t j = getTile s j) ∧ t.spires = s.spires ∧ t.cistern.data = s.cistern.data := by
  refine ⟨_, exec_hangTimeout hx hsp, ?_⟩
  rw [if_neg (by rw [hw, hr, hd]; decide)]
  have marked : (getPart (markHung s i x.part) x.part).hangSeen = true := congrArg Part.hangSeen (getPart_updPart (updTile s i fun t => { t with ranOut := true }) x.part _ hp)
  have tile : getTile (markHung s i x.part) i = some { x with ranOut := true } := (getTile_updTile s i (fun t => { t with ranOut := true }) fun _ => rfl).trans (by rw [hx]; rfl)
  have other {j : Nat} (hj : j ≠ i) : getTile (markHung s i x.part) j = getTile s j := getTile_updTile_ne s (fun t => { t with ranOut := true }) (fun _ => rfl) hj
  generalize hv : (if s.hang.waitProgress then addRec (markHung s i x.part) ⟨.hang, s.time.tick, i, x.part, w3of i x.part 0, []⟩ else markHung s i x.part) = v
  have recorded : Same [.alert, .cistern, .parts, .records, .early, .near] (markHung s i x.part) v ∧ (getPart v x.part).hangSeen = true := by
    subst hv
    split
    · exact ⟨addRec_same _ _, (addRec_getPart Part.hangSeen (fun _ _ => rfl) _ _ _).trans marked⟩
    · exact ⟨Same.rfl_ _ _, marked⟩
  obtain ⟨kept, seen⟩ := recorded
  have input := tileInput_same v 0x20 i 0
  have tiles : (tileInput v 0x20 i 0).tiles = (markHung s i x.part).tiles := (input .tiles (by decide)).trans (kept .tiles (by decide))
  have hang : (tileInput v 0x20 i 0).hang = (markHung s i x.part).hang := (input .hang (by decide)).trans (kept .hang (by decide))
  refine ⟨(getTile_of_tiles tiles i).trans tile, congrArg HangSt.hung hang, ?_, fun hrun => ⟨_, mem_tileInput ((kept .belfryRun (by decide)).trans hrun) _ _ _, rfl, rfl⟩,
    fun j hj => (getTile_of_tiles tiles j).trans (other hj), ?_, ?_⟩
  · exact (congrArg (fun l : List Part => (l.getD x.part _).hangSeen) (input .parts (by decide))).trans seen
  · exact (input .spires (by decide)).trans (kept .spires (by decide))
  · exact input.bytes_eq.1.trans kept.bytes_eq.1

end

/-! ### The hang path (R269 to R271) -/

theorem hangGraphDone_idle {s : State} {l : List (Nat × Nat)} (h : s.hang.stage ≠ 1 ∨ l ≠ stalls s) : exec (.hangGraphDone l) s = .next s :=
  congrArg Host.Outcome.next (if_pos h)

/-- A root of the graph is a hung tile that waits on nothing, nor on a Tally nor on Caravan, and is not DEAD (R270). -/
theorem mem_roots {s : State} {i : Nat} (h : i ∈ (waitGraph s).roots) : i ∈ s.hang.hung ∧ (∃ x, getTile s i = some x ∧ x.ranOut = true) ∧
    (∀ y ∈ s.tallies, i ∉ y.2.waiters) ∧ stateOf s i ≠ stDead ∧
    (∀ h ∈ s.caravan.held, h.1 = i → 2 * (s.time.tick.toNat - h.2.2.toNat) < hangTimeout s) := by
  obtain ⟨hung, free⟩ := List.mem_filter.1 h
  obtain ⟨listed, out⟩ := List.mem_filter.1 hung
  simp only [Bool.and_eq_true, Bool.not_eq_true', bne_iff_ne, ne_eq] at free
  obtain ⟨⟨tally, uplink⟩, dead⟩ := free
  refine ⟨List.mem_eraseDups.1 listed, ?_, fun y hy hw => ?_, dead, fun h hh hi => ?_⟩
  · cases hx : getTile s i with
    | none =>
      rw [hx] at out
      cases out
    | some x =>
      rw [hx] at out
      exact ⟨x, rfl, out⟩
  · have : waits s i = true := List.any_eq_true.2 ⟨y, hy, List.contains_iff_mem.2 hw⟩
    rw [tally] at this
    cases this
  · by_contra late
    have stalled : (h.1, h.2.1) ∈ stalls s := List.mem_map.2 ⟨h, List.mem_filter.2 ⟨hh, decide_eq_true (Nat.le_of_not_lt late)⟩, rfl⟩
    have : ((stalls s).any fun e => e.1 == i) = true := List.any_eq_true.2 ⟨_, stalled, by simpa using hi⟩
    rw [uplink] at this
    cases this

theorem hangGraphDone_effect {s : State} (h : s.hang.stage = 1) : ∃ t, exec (.hangGraphDone (stalls s)) s = .next t ∧ t.hang.roots = (waitGraph s).roots ∧
    t.hang.graph = graphWords s ∧ t.hang.snap = snapWords s ∧ t.hang.stage = (if s.hang.dump = true then 2 else 3) ∧ t.hang.hung = s.hang.hung ∧
    t.cistern.data = s.cistern.data := by
  obtain ⟨t, run, keeps⟩ := execHangGraphDone_keeps (stalls s) (Keeps.rfl_ _ s) (List.Subset.refl _)
  refine ⟨t, run, ?_⟩
  have bytes := keeps.same.bytes_eq.1
  have rec_ (v : State) (r : Rec) : (addRec v r).hang.hung = v.hang.hung := congrArg HangSt.hung <| addRec_same v r .hang (by decide)
  have note (v : State) (p : Nat) (k : NoteKind) (i : Nat) (w : List W32) : (post v p k i w).hang.hung = v.hang.hung := congrArg HangSt.hung <|
    (post_keeps p k i w (Keeps.rfl_ [.parts, .near] v) (List.Subset.refl _)).same .hang (by decide)
  have fence (v : State) (i c p k : Nat) (w : W64) : (actFence v i c p k w).hang.hung = v.hang.hung := congrArg HangSt.hung <|
    (actFence_keeps i c p k w (Keeps.rfl_ _ v) (List.Subset.refl _)).same .hang (by decide)
  unfold execHangGraphDone at run
  rw [if_neg (by rw [h]; simp)] at run
  obtain rfl := Host.Outcome.next.inj run
  refine ⟨rfl, rfl, rfl, rfl, ?_, bytes⟩
  refine (foldl_kept (g := fun v : State => v.hang.hung) (fun v i => fence v i _ _ _ _) _ _).trans ((foldl_kept (g := fun v : State => v.hang.hung) (fun v p => note v p _ _ _) _ _).trans ?_)
  have recs {α : Type} (f : State → α → Rec) (l : List α) (v : State) : (l.foldl (fun v a => addRec v (f v a)) v).hang.hung = v.hang.hung :=
    foldl_kept (g := fun v : State => v.hang.hung) (fun v a => rec_ v (f v a)) l v
  split
  · exact (recs _ _ _).trans (recs _ _ _)
  · exact (recs _ _ _).trans (recs _ _ _)

theorem hangDumpDone_effect {s : State} (h : s.hang.stage = 2) : ∃ t n, exec .hangDumpDone s = .next t ∧ t.hang.stage = 3 ∧
    n ≤ (s.image.map (·.base.dumpSize)).getD 0 ∧ t.near.waiting = s.near.waiting ++ [.hangDump n] ∧ t.hang.parts = wholeParts n (dumpParts s) ∧
    t.hang.dumpBytes = n ∧ t = { s with hang := t.hang, near := t.near } :=
  ⟨_, _, congrArg Host.Outcome.next (if_neg fun e => e h), rfl, (Nat.min_le_right _ _).trans (Nat.min_le_left _ _), rfl, rfl, rfl, rfl⟩

theorem dumpBudget_effect {s : State} (h : s.hang.stage = 2) : ∃ t n, exec .dumpBudget s = .next t ∧ t.hang.stage = 3 ∧ t.hang.truncated = true ∧
    n ≤ (s.image.map (·.base.dumpSize)).getD 0 ∧ t.near.waiting = s.near.waiting ++ [.hangDump n] ∧
    t.hang.parts = wholeParts n (dumpParts s) ∧ t = { s with hang := t.hang, near := t.near, rng := t.rng } :=
  ⟨_, _, congrArg Host.Outcome.next (if_neg fun e => e h), rfl, rfl, (Nat.min_le_right _ _).trans (Nat.min_le_left _ _), rfl, rfl, rfl⟩

theorem dump_idle {s : State} (h : s.hang.stage ≠ 2) : exec .hangDumpDone s = .next s ∧ exec .dumpBudget s = .next s :=
  ⟨congrArg Host.Outcome.next (if_pos h), congrArg Host.Outcome.next (if_pos h)⟩

/-- Settles O20: each command of the hang path from its closed form; what a root of the wait-for graph is from the graph's definition. -/
theorem hangDetectionAndPath : Obligations.HangDetectionAndPath := by
  unfold Obligations.HangDetectionAndPath
  refine ⟨⟨fun s i x sp hx hsp hw hr hd hp => hangTimeout_effect hx hsp hw hr hd hp, fun s i x sp hx hsp h => hangTimeout_idle hx hsp h⟩, fun s h => ?_,
    fun s h => hangDumpDone_effect h, fun s h => dumpBudget_effect h, fun s => ⟨fun l h => hangGraphDone_idle h, dump_idle⟩⟩
  obtain ⟨t, run, roots, graph, snap, stage, hung, bytes⟩ := hangGraphDone_effect h
  refine ⟨t, run, roots, graph, snap, rfl, fun i hi => ?_, stage, hung, bytes⟩
  rw [roots] at hi
  exact mem_roots hi

end Sys2Proof.Machine
end

section
/-! Crossings of the sideband and time beacons (R324, R325, R336, R364). -/

set_option Elab.async false

namespace Sys2Proof.Machine

/-! ### Crossings of the sideband (R364) -/

theorem satAdd_zero {w : Nat} (x : BitVec w) : satAdd x 0 = x := by
  unfold satAdd
  rw [Nat.add_zero, if_pos x.isLt]
  exact BitVec.eq_of_toNat_eq (by rw [BitVec.toNat_ofNat, Nat.mod_eq_of_lt x.isLt])

theorem satAdd_satInc {w : Nat} (x : BitVec w) (n : Nat) : satAdd (satInc x) n = satAdd x (n + 1) := by
  have lt := x.isLt
  unfold satAdd satInc
  by_cases h : x.toNat + 1 < 2 ^ w
  · have small : (BitVec.ofNat w (x.toNat + 1)).toNat = x.toNat + 1 := by rw [BitVec.toNat_ofNat, Nat.mod_eq_of_lt h]
    rw [if_pos h, small, Nat.add_right_comm x.toNat 1 n, Nat.add_assoc]
  · rw [if_neg h, if_neg (by omega : ¬ x.toNat + (n + 1) < 2 ^ w)]
    by_cases h0 : x.toNat + n < 2 ^ w
    · rw [if_pos h0]
      exact congrArg (BitVec.ofNat w) (by omega)
    · rw [if_neg h0]

/-- The crossings of a word at which its copies disagree. -/
def disagreeing (side : SideCopies) : Nat := (side.filter fun p => !(p.1 == p.2.1 && p.2.1 == p.2.2)).length

theorem countSide_caravan (side : SideCopies) (s : State) :
    (countSide s side).caravan = { s.caravan with sidemaj := satAdd s.caravan.sidemaj (disagreeing side) } := by
  unfold countSide
  induction side generalizing s with
  | nil => exact congrArg (fun n => { s.caravan with sidemaj := n }) (satAdd_zero _).symm
  | cons x side ih =>
    have counted : (countCrossing s x).caravan =
        { s.caravan with sidemaj := satAdd s.caravan.sidemaj (if (!(x.1 == x.2.1 && x.2.1 == x.2.2)) = true then 1 else 0) } := by
      have one : satAdd s.caravan.sidemaj 1 = satInc s.caravan.sidemaj := by rw [← satAdd_satInc, satAdd_zero]
      unfold countCrossing
      by_cases h : x.1 = x.2.1 ∧ x.2.1 = x.2.2
      · rw [if_pos h, if_neg (by simp [h.1, h.2]), satAdd_zero]
      · have val : (if (!(x.1 == x.2.1 && x.2.1 == x.2.2)) = true then 1 else 0) = 1 := if_pos (by rw [Bool.not_eq_true', ← Bool.not_eq_true, Bool.and_eq_true, beq_iff_eq, beq_iff_eq]; exact h)
        rw [val, one, if_neg h]
        dsimp only
        split <;> rfl
    have add (n m : Nat) : satAdd (satAdd s.caravan.sidemaj (if n = 0 then 0 else 1)) m = satAdd s.caravan.sidemaj ((if n = 0 then 0 else 1) + m) := by
      split
      · rw [satAdd_zero, Nat.zero_add]
      · rw [show satAdd s.caravan.sidemaj 1 = satInc s.caravan.sidemaj by rw [← satAdd_satInc, satAdd_zero], satAdd_satInc, Nat.add_comm]
    rw [List.foldl_cons, ih, counted]
    refine congrArg (fun n => { s.caravan with sidemaj := n }) ?_
    have length : disagreeing (x :: side) = (if (!(x.1 == x.2.1 && x.2.1 == x.2.2)) = true then 1 else 0) + disagreeing side := by
      unfold disagreeing
      rw [List.filter_cons]
      split
      · rw [List.length_cons, Nat.add_comm]
      · rw [Nat.zero_add]
    rw [length]
    split
    · exact add 1 _
    · exact add 0 _

theorem countSide_same (s : State) (side : SideCopies) : Same [.alert, .caravan] s (countSide s side) :=
  (countSide_keeps side (Keeps.rfl_ _ s) (List.Subset.refl _)).same

/-- Where only KEEP_ALERT of the Keep's page may change, the frame with it taken from the later state. -/
theorem Same.with_alert {l : List Fld} {s t : State} (h : Same (.alert :: l) s t) : Same l { s with keep := { s.keep with alert := t.keep.alert } } t := by
  intro f hf
  by_cases ha : f = .alert
  · subst ha
    rfl
  · have := h f fun hm => (List.mem_cons.1 hm).elim ha hf
    cases f with
    | alert => exact absurd rfl ha
    | _ => exact this

/-! ### Time beacons (R324, R325) -/

theorem skewOf_setSkew (l : List (Nat × Int)) (i j : Nat) (d : Int) : skewOf (setSkew l i d) j = if j = i then d else skewOf l j := by
  unfold skewOf setSkew
  rw [List.find?_append]
  by_cases h : j = i
  · subst h
    have gone : (l.filter fun y => y.1 != j).find? (fun x => x.1 == j) = none := by
      rw [List.find?_eq_none]
      intro y hy e
      have : (y.1 != j) = true := (List.mem_filter.1 hy).2
      rw [bne, e] at this
      cases this
    rw [gone, if_pos rfl]
    simp
  · have other : (l.filter fun y => y.1 != i).find? (fun x => x.1 == j) = l.find? (fun x => x.1 == j) := by
      rw [List.find?_filter]
      refine congrArg (fun p => l.find? p) (funext fun y => ?_)
      by_cases e : y.1 = j
      · simp [e, h]
      · simp [e]
    rw [other, if_neg h]
    cases l.find? (fun x => x.1 == j) with
    | some y => rfl
    | none => simp [Ne.symm h]

/-- What a step takes of one beacon: the receiver's difference, and whether its copy was off. -/
structure TakesBeacon (step : State → BeaconAt → State) (held : State → Nat → Int) (way : State → Nat → Nat) : Prop where
  path : ∀ (s : State) x i, way (step s x) i = way s i
  takes : ∀ (s : State) (x : BeaconAt) j, held (step s x) j = if j = x.ix then (beaconCopy (way s x.ix) (held s x.ix) x).1 else held s j
  slip : ∀ (s : State) (x : BeaconAt), (step s x).time.tickslip = (s.time.tickslip || (beaconCopy (way s x.ix) (held s x.ix) x).2)

section
variable {step : State → BeaconAt → State} {held : State → Nat → Int} {path : State → Nat → Nat}

theorem TakesBeacon.foldl_slip (h : TakesBeacon step held path) (l : List BeaconAt) {s : State} (hs : s.time.tickslip = true) : (l.foldl step s).time.tickslip = true :=
  List.foldlRecOn (motive := fun v : State => v.time.tickslip = true) l step hs fun v hv a _ => by rw [h.slip, hv, Bool.true_or]

theorem TakesBeacon.foldl_other (h : TakesBeacon step held path) (l : List BeaconAt) (s : State) {j : Nat} (hj : ∀ x ∈ l, x.ix ≠ j) : held (l.foldl step s) j = held s j :=
  List.foldlRecOn (motive := fun v : State => held v j = held s j) l step rfl fun v hv a ha => by rw [h.takes, if_neg (Ne.symm (hj a ha)), hv]

/-- Every receiver of a beacon takes it, each once. -/
theorem TakesBeacon.foldl (h : TakesBeacon step held path) (l : List BeaconAt) (s : State) (hl : (l.map (·.ix)).Nodup) {y : BeaconAt} (hy : y ∈ l) :
    held (l.foldl step s) y.ix = (beaconCopy (path s y.ix) (held s y.ix) y).1 ∧
      ((beaconCopy (path s y.ix) (held s y.ix) y).2 = true → (l.foldl step s).time.tickslip = true) := by
  induction l generalizing s with
  | nil => cases hy
  | cons x l ih =>
    rw [List.map_cons, List.nodup_cons] at hl
    rw [List.foldl_cons]
    rcases List.mem_cons.1 hy with rfl | hy
    · refine ⟨(h.foldl_other l _ fun x hx e => hl.1 (List.mem_map.2 ⟨x, hx, e⟩)).trans ((h.takes s y y.ix).trans (if_pos rfl)), fun off => ?_⟩
      exact h.foldl_slip l (by rw [h.slip, off, Bool.or_true])
    · have ne : y.ix ≠ x.ix := fun e => hl.1 (List.mem_map.2 ⟨y, hy, e⟩)
      have := ih (step s x) hl.2 hy
      rwa [h.path, h.takes, if_neg ne] at this

end

/-- A receiver whose copy was off takes it, and is counted (R325). -/
theorem tickslip_time (s : State) (f : State → State) (hf : ∀ v, (f v).time = v.time) : (tickslip s f).time = { s.time with tickslip := true } := hf _

theorem beaconDome_time (s : State) (x : BeaconAt) : (beaconDome s x).time = { s.time with
    domeSkew := setSkew s.time.domeSkew x.ix (beaconCopy (domePath s x.ix) (skewOf s.time.domeSkew x.ix) x).1,
    tickslip := s.time.tickslip || (beaconCopy (domePath s x.ix) (skewOf s.time.domeSkew x.ix) x).2 } := by
  have counted := (countSide_same s x.side).time_eq
  unfold beaconDome domePath
  dsimp only
  rw [counted]
  cases hc : (beaconCopy (latOf s.time.domeLat x.ix) (skewOf s.time.domeSkew x.ix) x).2 with
  | false =>
    rw [if_neg (by decide), Bool.or_false]
  | true =>
    rw [if_pos rfl, Bool.or_true]
    exact tickslip_time _ _ fun v => (addInput_same v _).time_eq

theorem beaconSpire_time (s : State) (x : BeaconAt) : (beaconSpire s x).time = { s.time with
    spireSkew := setSkew s.time.spireSkew x.ix (beaconCopy (spirePath s x.ix) (skewOf s.time.spireSkew x.ix) x).1,
    tickslip := s.time.tickslip || (beaconCopy (spirePath s x.ix) (skewOf s.time.spireSkew x.ix) x).2 } := by
  unfold beaconSpire
  dsimp only
  cases hc : (beaconCopy (spirePath s x.ix) (skewOf s.time.spireSkew x.ix) x).2 with
  | false =>
    rw [if_neg (by decide), Bool.or_false]
  | true =>
    rw [if_pos rfl, Bool.or_true]
    exact tickslip_time _ _ fun v => (tileInput_same v _ _ _).time_eq

theorem beaconDome_takes : TakesBeacon beaconDome (fun s => skewOf s.time.domeSkew) domePath where
  path s x i := (congrArg (fun t : TimeSt => latOf t.domeLat i) (beaconDome_time s x) :)
  takes s x j := (congrArg (fun t : TimeSt => skewOf t.domeSkew j) (beaconDome_time s x)).trans (skewOf_setSkew _ _ _ _)
  slip s x := congrArg TimeSt.tickslip (beaconDome_time s x)

theorem beaconSpire_takes : TakesBeacon beaconSpire (fun s => skewOf s.time.spireSkew) spirePath where
  path s x i := (congrArg (fun t : TimeSt => latOf t.domeLat (i / 256) + latOf t.spireLat i) (beaconSpire_time s x) :)
  takes s x j := (congrArg (fun t : TimeSt => skewOf t.spireSkew j) (beaconSpire_time s x)).trans (skewOf_setSkew _ _ _ _)
  slip s x := congrArg TimeSt.tickslip (beaconSpire_time s x)

/-- A receiver takes what the beacon gives where its copy is off, and else keeps its own (R325). -/
theorem beaconCopy_iff (path : Nat) (held : Int) (y : BeaconAt) :
    (4 < (held + y.drift - ((path + y.waited : Nat) - (y.waited + y.flight : Nat) : Int)).natAbs →
      (beaconCopy path held y).1 = (path + y.waited : Nat) - (y.waited + y.flight : Nat) ∧ (beaconCopy path held y).2 = true) ∧
    ((held + y.drift - ((path + y.waited : Nat) - (y.waited + y.flight : Nat) : Int)).natAbs ≤ 4 → (beaconCopy path held y).1 = held + y.drift) := by
  unfold beaconCopy
  push_cast
  refine ⟨fun off => ?_, fun near => ?_⟩
  · rw [if_pos off]
    exact ⟨rfl, rfl⟩
  · rw [if_neg (by omega)]

theorem foldl_beaconDome_caravan (l : List BeaconAt) (s : State) : (l.foldl beaconDome s).caravan =
    { s.caravan with sidemaj := satAdd s.caravan.sidemaj (disagreeing (l.flatMap (·.side))) } := by
  have one (s : State) (x : BeaconAt) : (beaconDome s x).caravan = (countSide s x.side).caravan := by
    unfold beaconDome tickslip
    dsimp only
    split
    · exact addInput_same _ _ .caravan (by decide)
    · rfl
  have add (x : W32) (n m : Nat) : satAdd (satAdd x n) m = satAdd x (n + m) := by
    induction n generalizing x with
    | zero => rw [satAdd_zero, Nat.zero_add]
    | succ n ih => rw [← satAdd_satInc, ih, satAdd_satInc, Nat.add_right_comm]
  induction l generalizing s with
  | nil => exact congrArg (fun n => { s.caravan with sidemaj := n }) (satAdd_zero _).symm
  | cons x l ih =>
    rw [List.foldl_cons, ih, one, countSide_caravan]
    refine congrArg (fun n => { s.caravan with sidemaj := n }) ?_
    rw [add, List.flatMap_cons]
    unfold disagreeing
    rw [List.filter_append, List.length_append]

/-! ### The epochs that a beacon carries (R336) -/

theorem beaconEpoch_same (s : State) (t : Tile) : Same [.spires] s (beaconEpoch s t) := (beaconEpoch_keeps t (Keeps.rfl_ _ s) (List.Subset.refl _)).same

theorem beaconEpoch_sp (s : State) (t : Tile) : SpKeeps (some t.ix) [.epoch, .cnt, .trc] s (beaconEpoch s t) := by
  unfold beaconEpoch onSp
  dsimp only
  split
  · split
    · exact SpKeeps.rfl_ s
    · exact trace_sp ((SpKeeps.rfl_ s).updSp t.ix (fun p => { p with epoch := (getPart s t.part).epoch }) [.epoch] (fun _ => rfl) (covers_own _) (by decide)) t.ix _ _ _ _ _ _ _ (covers_own _) (by decide)
  · exact SpKeeps.rfl_ s

theorem beaconEpoch_own {s : State} {t : Tile} {x : Spire} (hx : getSp s t.ix = some x) (hl : t.lost = false) :
    ∃ y, getSp (beaconEpoch s t) t.ix = some y ∧ y.epoch = (getPart s t.part).epoch := by
  unfold beaconEpoch
  dsimp only
  rw [onSp_some hx]
  split
  · next h =>
    rcases h with h | h
    · rw [hl] at h
      cases h
    · exact ⟨x, hx, h⟩
  · have put : getSp (updSp s t.ix fun p => { p with epoch := (getPart s t.part).epoch }) t.ix = some { x with epoch := (getPart s t.part).epoch } :=
      (getSp_updSp s t.ix (fun p => { p with epoch := (getPart s t.part).epoch }) fun _ => rfl).trans (by rw [hx]; rfl)
    obtain ⟨y, hy, rel⟩ := (trace_sp (SpKeeps.rfl_ (i := some t.ix) (m := [.cnt, .trc]) _) t.ix 0x19 false false 0xFFFF 0xFFFF 0xFFFF
      (getPart s t.part).epoch.toNat (covers_own _) (List.Subset.refl _)).getSp_some put
    exact ⟨y, hy, rel.same .epoch (by decide)⟩

/-- A fold whose step for an element leaves what `g` shows of every key but its own, and keeps `I`: what it makes of the key of a listed element. -/
theorem foldl_key {α β : Type} {f : State → β → State} {key : β → Nat} {g : State → Nat → α} {I : State → Prop} (other : ∀ v a j, j ≠ key a → g (f v a) j = g v j)
    (keep : ∀ v a, I v → I (f v a)) {l : List β} (hnd : (l.map key).Nodup) {s : State} (hs : I s) {a : β} (ha : a ∈ l) :
    ∃ v, I v ∧ g v (key a) = g s (key a) ∧ g (l.foldl f s) (key a) = g (f v a) (key a) := by
  induction l generalizing s with
  | nil => cases ha
  | cons b l ih =>
    obtain ⟨hb, hl⟩ := List.nodup_cons.1 hnd
    rcases List.mem_cons.1 ha with rfl | ha
    · refine ⟨s, hs, rfl, ?_⟩
      exact List.foldlRecOn (motive := fun v => g v (key a) = g (f s a) (key a)) l f rfl fun v hv c hc =>
        (other v c _ fun e => hb (List.mem_map.2 ⟨c, hc, e.symm⟩)).trans hv
    · obtain ⟨v, hv, before, after⟩ := ih hl (keep s b hs) ha
      exact ⟨v, hv, before.trans (other s b _ fun e => hb (List.mem_map.2 ⟨a, ha, e⟩)), after⟩

/-- The Spires after the epochs of a beacon. -/
theorem beaconEpochs_own {s : State} {t : Tile} {x : Spire} (hnd : (s.tiles.map (·.ix)).Nodup) (ht : t ∈ s.tiles) (hx : getSp s t.ix = some x) (hl : t.lost = false) :
    ∃ y, getSp (s.tiles.foldl beaconEpoch s) t.ix = some y ∧ y.epoch = (getPart s t.part).epoch := by
  obtain ⟨v, hv, before, after⟩ := foldl_key (f := beaconEpoch) (g := getSp) (I := fun v => v.parts = s.parts) (fun v a j hj => (beaconEpoch_sp v a).getSp_other hj)
    (fun v a hv => (beaconEpoch_same v a .parts (by decide)).trans hv) hnd rfl ht
  obtain ⟨y, hy, epoch⟩ := beaconEpoch_own (before.trans hx) hl
  exact ⟨y, after.trans hy, epoch.trans (congrArg (fun l : List Part => (l.getD t.part _).epoch) hv)⟩

theorem timeBeacon_effect {s : State} (spires domes : List BeaconAt) {x : Tile} {sp : Spire} (hrun : s.time.run = true) (hnd : (s.tiles.map (·.ix)).Nodup)
    (hx : x ∈ s.tiles) (hl : x.lost = false) (hsp : getSp s x.ix = some sp) (hdomes : (domes.map (·.ix)).Nodup) (hspires : (spires.map (·.ix)).Nodup) :
    ∃ t sp', exec (.timeBeacon spires domes) s = .next t ∧ getSp t x.ix = some sp' ∧ sp'.epoch = (getPart s x.part).epoch ∧
      (∀ y ∈ domes, skewOf t.time.domeSkew y.ix = (beaconCopy (domePath s y.ix) (skewOf s.time.domeSkew y.ix) y).1 ∧
        ((beaconCopy (domePath s y.ix) (skewOf s.time.domeSkew y.ix) y).2 = true → t.time.tickslip = true)) ∧
      (∀ y ∈ spires, y.ix = x.ix → skewOf t.time.spireSkew y.ix = (beaconCopy (spirePath s y.ix) (skewOf s.time.spireSkew y.ix) y).1 ∧
        ((beaconCopy (spirePath s y.ix) (skewOf s.time.spireSkew y.ix) y).2 = true → t.time.tickslip = true)) ∧
      t.time.tick = s.time.tick ∧ t.caravan = { s.caravan with sidemaj := satAdd s.caravan.sidemaj (disagreeing (domes.flatMap (·.side))) } ∧
      t = { s with time := t.time, belfry := t.belfry, spires := t.spires, caravan := t.caravan, keep := { s.keep with alert := t.keep.alert } } := by
  obtain ⟨t, run, keeps⟩ := execTimeBeacon_keeps spires domes (Keeps.rfl_ _ s) (List.Subset.refl _)
  have closed : exec (.timeBeacon spires domes) s = .next (((spires.filter fun x => (getSp s x.ix).isSome).foldl beaconSpire (domes.foldl beaconDome s)).tiles.foldl beaconEpoch
      ((spires.filter fun x => (getSp s x.ix).isSome).foldl beaconSpire (domes.foldl beaconDome s))) := congrArg Host.Outcome.next (if_neg (by rw [hrun]; decide))
  obtain rfl := Host.Outcome.next.inj (closed.symm.trans run)
  have domed : Same [.time, .alert, .inputs, .belfry, .caravan] s (domes.foldl beaconDome s) :=
    (keeps_foldl (fun v a hv => beaconDome_keeps a hv (List.Subset.refl _)) (Keeps.rfl_ _ s)).same
  have caravan := foldl_beaconDome_caravan domes s
  have skews {y : BeaconAt} (hy : y ∈ domes) := beaconDome_takes.foldl domes s hdomes hy
  have others : ((domes.foldl beaconDome s).time.spireSkew, (domes.foldl beaconDome s).time.domeLat, (domes.foldl beaconDome s).time.spireLat) =
      (s.time.spireSkew, s.time.domeLat, s.time.spireLat) :=
    foldl_kept (g := fun v : State => (v.time.spireSkew, v.time.domeLat, v.time.spireLat)) (fun v a =>
      (congrArg (fun t : TimeSt => (t.spireSkew, t.domeLat, t.spireLat)) (beaconDome_time v a) :)) domes s
  have slipped (l : List BeaconAt) {v : State} (hv : v.time.tickslip = true) := beaconSpire_takes.foldl_slip l hv
  have spired (l : List BeaconAt) (v : State) : Same [.time, .inputs, .belfry] v (l.foldl beaconSpire v) :=
    (keeps_foldl (fun v a hv => beaconSpire_keeps a hv (List.Subset.refl _)) (Keeps.rfl_ _ v)).same
  have domeKept (l : List BeaconAt) (v : State) : (l.foldl beaconSpire v).time.domeSkew = v.time.domeSkew :=
    foldl_kept (g := fun v : State => v.time.domeSkew) (fun v a => (congrArg (fun t : TimeSt => t.domeSkew) (beaconSpire_time v a) :)) l v
  have frame := keeps.same
  generalize domes.foldl beaconDome s = u at *
  obtain ⟨spireSkew, domeLat, spireLat⟩ := Prod.mk.inj others |>.imp_right Prod.mk.inj
  have path (i : Nat) : spirePath u i = spirePath s i := by rw [spirePath, domePath, domeLat, spireLat]; rfl
  have took {y : BeaconAt} (hy : y ∈ spires.filter fun x => (getSp s x.ix).isSome) :=
    beaconSpire_takes.foldl (spires.filter fun x => (getSp s x.ix).isSome) u (hspires.sublist ((List.filter_sublist).map _)) hy
  have kept := spired (spires.filter fun x => (getSp s x.ix).isSome) u
  have late {v : State} := slipped (spires.filter fun x => (getSp s x.ix).isSome) (v := u)
  have skew := domeKept (spires.filter fun x => (getSp s x.ix).isSome) u
  generalize (spires.filter fun x => (getSp s x.ix).isSome).foldl beaconSpire u = v at *
  have tiles : v.tiles = s.tiles := (kept .tiles (by decide)).trans (domed .tiles (by decide))
  have parts : v.parts = s.parts := (kept .parts (by decide)).trans (domed .parts (by decide))
  have spires' : v.spires = s.spires := (kept .spires (by decide)).trans (domed .spires (by decide))
  obtain ⟨y, hy, epoch⟩ := beaconEpochs_own (s := v) (t := x) (x := sp) (by rw [tiles]; exact hnd) (by rw [tiles]; exact hx) (by rw [getSp, spires']; exact hsp) hl
  have last : Same [.spires] v (v.tiles.foldl beaconEpoch v) := (keeps_foldl (fun w a hw => beaconEpoch_keeps a hw (List.Subset.refl _)) (Keeps.rfl_ _ v)).same
  have time := last.time_eq
  refine ⟨_, y, run, hy, epoch.trans (congrArg (fun l : List Part => (l.getD x.part _).epoch) parts), fun y hy => ?_, fun y hy hix => ?_,
    keeps.same .tick (by decide), (last .caravan (by decide)).trans ((kept .caravan (by decide)).trans caravan), ?_⟩
  · rw [time, skew]
    exact ⟨(skews hy).1, fun off => late (v := v) ((skews hy).2 off)⟩
  · have := took (List.mem_filter.2 ⟨hy, by rw [hix, hsp]; rfl⟩)
    rw [path, spireSkew] at this
    rw [time]
    exact this
  · exact (Same.with_alert (l := [.time, .inputs, .belfry, .spires, .caravan]) (frame.mono (by decide))).frame

end Sys2Proof.Machine
end

section
/-! Progress frames (R266). -/

set_option Elab.async false

namespace Sys2Proof.Machine

/-! ### Progress frames (R266) -/

theorem mem_progressMap {s : State} {dome i : Nat} : i ∈ progressMap s dome ↔
    ∃ p ∈ s.spires, p.ix = i ∧ i / 256 = dome ∧ p.tap.prog ≠ p.tap.progAtFrame ∧ ((getTile s i).map (·.lost)).getD true = false := by
  unfold progressMap
  simp only [List.mem_map, List.mem_filter, Bool.and_eq_true, beq_iff_eq, bne_iff_ne, Bool.not_eq_true']
  constructor
  · rintro ⟨p, ⟨hp, ⟨hd, hne⟩, hl⟩, rfl⟩
    exact ⟨p, hp, rfl, hd, hne, hl⟩
  · rintro ⟨p, hp, rfl, hd, hne, hl⟩
    exact ⟨p, ⟨hp, ⟨hd, hne⟩, hl⟩, rfl⟩

/-- A tile's Spire is in the map of its Dome's frame where it answers and its progress advanced. -/
theorem mem_progressMap_own {s : State} {dome i : Nat} {x : Tile} {sp : Spire} (hnd : (s.spires.map (·.ix)).Nodup) (hx : getTile s i = some x) (hsp : getSp s i = some sp) :
    i ∈ progressMap s dome ↔ i / 256 = dome ∧ x.lost = false ∧ sp.tap.prog ≠ sp.tap.progAtFrame := by
  have lost : ((getTile s i).map (·.lost)).getD true = x.lost := by rw [hx]; rfl
  rw [mem_progressMap, lost]
  constructor
  · rintro ⟨p, hp, hpi, hd, hne, hl⟩
    have own : getSp s p.ix = some p := getSp_of_nodup hp hnd
    rw [hpi] at own
    obtain rfl : p = sp := Option.some.inj (own.symm.trans hsp)
    exact ⟨hd, hl, hne⟩
  · rintro ⟨hd, hl, hne⟩
    exact ⟨sp, List.mem_of_find?_eq_some hsp, getSp_ix hsp, hd, hne, hl⟩

/-- A bit of a word that is put together bit by bit. -/
theorem foldl_or_getLsbD (l : List Nat) (m : BitVec 256) {k : Nat} (hk : k < 256) :
    (l.foldl (fun m i => m ||| BitVec.ofNat 256 (2 ^ (i % 256))) m).getLsbD k = true ↔ m.getLsbD k = true ∨ ∃ i ∈ l, i % 256 = k := by
  induction l generalizing m with
  | nil => simp
  | cons i l ih =>
    have bit : (BitVec.ofNat 256 (2 ^ (i % 256))).getLsbD k = decide (i % 256 = k) := by
      rw [BitVec.getLsbD_ofNat, Nat.testBit_two_pow, decide_eq_true hk, Bool.true_and]
    rw [List.foldl_cons, ih, BitVec.getLsbD_or, bit, Bool.or_eq_true, decide_eq_true_eq, or_assoc]
    simp

theorem progressBits_iff {s : State} {dome k : Nat} (hk : k < 256) : (progressBits s dome).getLsbD k = true ↔ dome * 256 + k ∈ progressMap s dome := by
  rw [progressBits, foldl_or_getLsbD _ _ hk]
  constructor
  · rintro (h | ⟨i, hi, hik⟩)
    · simp at h
    · obtain ⟨p, -, -, hd, -⟩ := mem_progressMap.1 hi
      rwa [show dome * 256 + k = i by omega]
  · intro h
    exact Or.inr ⟨_, h, by omega⟩

theorem progressFrame_idle {s : State} {dome : Nat} {map : BitVec 256} (h : ((getDome s dome).map (·.up)).getD false = false ∨ map ≠ progressBits s dome) :
    exec (.progressFrame dome map) s = .next s := by
  refine congrArg Host.Outcome.next (if_pos ?_)
  rcases h with h | h
  · exact Or.inl (by rw [h]; rfl)
  · exact Or.inr h

/-- What a Dome's progress frame makes of the tiles, the Spires and the hung tiles. -/
def framed (s : State) (dome : Nat) : State :=
  { s with
    hang := if s.hang.stage = 0 then { s.hang with hung := s.hang.hung.filter fun x => !(progressMap s dome).contains x } else s.hang
    tiles := s.tiles.map fun t => if (progressMap s dome).contains t.ix then { t with wd := s.time.tick.toNat, ranOut := false } else t
    spires := s.spires.map fun p => if p.ix / 256 = dome then { p with tap := { p.tap with progAtFrame := p.tap.prog } } else p }

theorem exec_progressFrame {s : State} {dome : Nat} {d : Dome} (hd : getDome s dome = some d) (hup : d.up = true) :
    exec (.progressFrame dome (progressBits s dome)) s = .next (framed s dome) :=
  congrArg Host.Outcome.next (if_neg (by rw [hd]; simp [hup]))

/-- The first element of a key, where every element is changed and keeps its key. -/
theorem find?_map_keeps {α : Type} (l : List α) (k : α → Nat) (f : α → α) (hf : ∀ x, k (f x) = k x) (j : Nat) :
    (l.map f).find? (fun x => k x == j) = (l.find? fun x => k x == j).map f := by
  rw [List.find?_map]
  exact congrArg (fun p => (l.find? p).map f) (funext fun x => by rw [Function.comp_apply, hf])

theorem getTile_framed {s : State} {dome i : Nat} {x : Tile} (hx : getTile s i = some x) :
    getTile (framed s dome) i = some (if i ∈ progressMap s dome then { x with wd := s.time.tick.toNat, ranOut := false } else x) := by
  refine (find?_map_keeps s.tiles Tile.ix _ (fun t => by split <;> rfl) i).trans ?_
  rw [getTile] at hx
  rw [hx, Option.map_some, getTile_ix hx]
  simp only [List.contains_iff_mem]

theorem getSp_framed {s : State} {dome i : Nat} {x : Spire} (hx : getSp s i = some x) :
    getSp (framed s dome) i = some (if i / 256 = dome then { x with tap := { x.tap with progAtFrame := x.tap.prog } } else x) := by
  refine (find?_map_keeps s.spires Spire.ix _ (fun t => by split <;> rfl) i).trans ?_
  rw [getSp] at hx
  rw [hx, Option.map_some, getSp_ix hx]

theorem progressFrame_effect {s : State} {dome : Nat} {d : Dome} {x : Tile} {sp : Spire} (hd : getDome s dome = some d) (hup : d.up = true)
    (hnd : (s.spires.map (·.ix)).Nodup) (hx : getTile s x.ix = some x) (hsp : getSp s x.ix = some sp) :
    ∃ t y sp', exec (.progressFrame dome (progressBits s dome)) s = .next t ∧ getTile t x.ix = some y ∧ getSp t x.ix = some sp' ∧
      (x.ix / 256 = dome → x.lost = false → sp.tap.prog ≠ sp.tap.progAtFrame → y = { x with wd := s.time.tick.toNat, ranOut := false }) ∧
      (x.ix / 256 ≠ dome ∨ x.lost = true ∨ sp.tap.prog = sp.tap.progAtFrame → y = x) ∧
      (x.ix / 256 = dome → sp'.tap = { sp.tap with progAtFrame := sp.tap.prog }) ∧ (x.ix / 256 ≠ dome → sp' = sp) ∧
      t.hang.hung = (if s.hang.stage = 0 then s.hang.hung.filter fun x => !(progressMap s dome).contains x else s.hang.hung) ∧
      t = { s with tiles := t.tiles, spires := t.spires, hang := { s.hang with hung := t.hang.hung } } := by
  have own := mem_progressMap_own (dome := dome) hnd hx hsp
  refine ⟨framed s dome, _, _, exec_progressFrame hd hup, getTile_framed hx, getSp_framed hsp, fun he hl hne => if_pos (own.2 ⟨he, hl, hne⟩), fun h => if_neg fun hm => ?_,
    fun he => by rw [if_pos he], fun he => if_neg he, ?_, ?_⟩
  · obtain ⟨he, hl, hne⟩ := own.1 hm
    rcases h with h | h | h
    · exact h he
    · rw [hl] at h
      cases h
    · exact hne h
  · unfold framed
    dsimp only
    split <;> rfl
  · unfold framed
    dsimp only
    split <;> rfl

/-- Settles O19: the beacon by what each receiver takes of it, folded over its receivers; the progress frame by its map. -/
theorem beaconsAndProgressFrames : Obligations.BeaconsAndProgressFrames := by
  unfold Obligations.BeaconsAndProgressFrames
  refine ⟨⟨fun s spires domes h => congrArg Host.Outcome.next (if_pos (by rw [h]; rfl)), fun s spires domes x sp hrun hnd hx hl hsp hdomes hspires => ?_⟩,
    fun s dome d x sp hd hup hnd hx hsp => progressFrame_effect hd hup hnd hx hsp, fun s dome map h => progressFrame_idle h, fun s dome k _ hk => progressBits_iff hk⟩
  obtain ⟨t, sp', run, hsp', epoch, tookDomes, tookSpires, tick, caravan, frame⟩ := timeBeacon_effect spires domes hrun hnd hx hl hsp hdomes hspires
  refine ⟨t, sp', run, hsp', epoch, fun y hy => ?_, fun y hy hix => ?_, tick, congrArg Caravan.sidemaj caravan, ?_⟩
  · obtain ⟨off, near⟩ := beaconCopy_iff (domePath s y.ix) (skewOf s.time.domeSkew y.ix) y
    exact ⟨fun h => ⟨(tookDomes y hy).1.trans (off h).1, (tookDomes y hy).2 (off h).2⟩, fun h => (tookDomes y hy).1.trans (near h)⟩
  · obtain ⟨off, near⟩ := beaconCopy_iff (spirePath s y.ix) (skewOf s.time.spireSkew y.ix) y
    exact ⟨fun h => ⟨(tookSpires y hy hix).1.trans (off h).1, (tookSpires y hy hix).2 (off h).2⟩, fun h => (tookSpires y hy hix).1.trans (near h)⟩
  · rw [caravan] at frame
    have sidemaj : t.caravan.sidemaj = satAdd s.caravan.sidemaj (disagreeing (domes.flatMap (·.side))) := congrArg Caravan.sidemaj caravan
    rw [sidemaj]
    exact frame

end Sys2Proof.Machine
end

section
/-! What is staged for the Belfry stays staged, through everything that the Caravan's messages do (R278, R338). -/

set_option Elab.async false

namespace Sys2Proof.Machine

/-! ### What is staged for the Belfry stays staged (R338) -/

/-- From `s` to `t` inputs may enter the Belfry and none goes; nothing that was carried goes. -/
def Staged (s t : State) : Prop := s.belfry.inputs <+: t.belfry.inputs ∧ t.belfry.carriedIn = s.belfry.carriedIn

section
variable {s t u : State}

theorem Staged.rfl_ (s : State) : Staged s s := ⟨List.prefix_refl _, rfl⟩

theorem Staged.of_same {l : List Fld} (h : Staged s t) (e : Same l t u) (hl : .inputs ∉ l := by decide) : Staged s u := by
  have same : (u.belfry.inputs, u.belfry.carriedIn) = (t.belfry.inputs, t.belfry.carriedIn) := e .inputs hl
  obtain ⟨inputs, carried⟩ := Prod.mk.inj same
  exact ⟨by rw [inputs]; exact h.1, carried.trans h.2⟩

theorem Staged.of_keeps (h : Staged s t) (l : List Fld) (e : Keeps l t u) (hl : .inputs ∉ l := by decide) : Staged s u := h.of_same e.same hl

theorem addInput_staged (h : Staged s t) (i : Input) : Staged s (addInput t i) := by
  unfold addInput
  split
  · split
    · exact h
    · exact ⟨h.1.trans (List.prefix_append _ _), h.2⟩
  · exact h

theorem opInput_staged (h : Staged s t) (code : Nat) (o : OpV) (cause : Nat) (rerun : Bool) (row : Nat) : Staged s (opInput t code o cause rerun row) := addInput_staged h _

theorem addRec_staged (h : Staged s t) (r : Rec) : Staged s (addRec t r) := h.of_same (addRec_same t r)

theorem Staged.ite {c : Prop} [Decidable c] {a b : State} (ha : Staged s a) (hb : Staged s b) : Staged s (if c then a else b) := by
  split
  · exact ha
  · exact hb

theorem settle_staged (h : Staged s t) (i : Nat) : Staged s (settle t i) := h.of_keeps _ (settle_keeps i (Keeps.rfl_ _ _) (List.Subset.refl _))

theorem endSample_staged (h : Staged s t) (uid row result cause : Nat) : Staged s (endSample t uid row result cause) :=
  endSample_ind (P := Staged s) (fun _ r hv => addRec_staged hv r) (fun _ _ hv e => hv.of_same e) (fun _ x hv => addInput_staged hv x) h uid row result cause

theorem standSuspect_staged (h : Staged s t) (i outcome : Nat) : Staged s (standSuspect t i outcome) :=
  onOp_ind h fun _ _ => settle_staged (opInput_staged (h.of_keeps [.ops, .tickets] (updOp_keeps i _ (freeTicket_keeps i (Keeps.rfl_ _ t) (List.Subset.refl _)) (by decide))) _ _ _ _ _) i

theorem applyRerun_staged (h : Staged s t) (i : Nat) : Staged s (applyRerun t i) := by
  unfold applyRerun
  refine onOp_ind h fun n _ => ?_
  split
  · exact h
  · next orig _ =>
    refine onOp_ind h fun o _ => ?_
    split
    · exact h
    · dsimp only
      split
      · exact standSuspect_staged h orig 5
      · refine settle_staged ?_ orig
        have applied (f : OpV → OpV) : Staged s (updOp (freeTicket t orig) orig f) :=
          h.of_keeps [.ops, .tickets] (updOp_keeps orig f (freeTicket_keeps orig (Keeps.rfl_ _ t) (List.Subset.refl _)) (by decide))
        have counted (c : Prop) [Decidable c] (f : OpV → OpV) (p : Nat) (g : PartCnt → PartCnt) :
            Staged s (if c then updCnt (updOp (freeTicket t orig) orig f) p g else updOp (freeTicket t orig) orig f) :=
          ((applied f).of_keeps [.parts] (updCnt_keeps p g (Keeps.rfl_ _ _) (List.Subset.refl _))).ite (applied f)
        split
        · exact opInput_staged (counted _ _ _ _) _ _ _ _ _
        · exact opInput_staged (counted _ _ _ _) _ _ _ _ _
        · exact opInput_staged (counted _ _ _ _) _ _ _ _ _
        · exact opInput_staged (opInput_staged (counted _ _ _ _) _ _ _ _ _) _ _ _ _ _

theorem summaryIn_staged (h : Staged s t) (uid : Nat) (recs : List Rec) (scr : ScreenRes) (bits : Nat) (susp event : Bool) (od endTick : W64) :
    Staged s (summaryIn t uid recs scr bits susp event od endTick) := by
  have recd := h.of_keeps _ (screenRecs_keeps uid recs endTick (Keeps.rfl_ _ t) (List.Subset.refl _))
  have range {v : State} (hv : Staged s v) (o : OpV) (b : Nat) (x y : Bool) : Staged s (rangeInput v o b x y) :=
    (opInput_staged hv _ _ _ _ _).ite ((opInput_staged hv _ _ _ _ _).ite ((opInput_staged hv _ _ _ _ _).ite hv))
  have screen {v : State} (hv : Staged s v) (o : OpV) : Staged s (screenIn v o scr) := by
    have deficit : Staged s (if o.late then v else addDeficit v o.part scr.skip) := hv.ite (hv.of_keeps [.parts] (addDeficit_keeps o.part scr.skip (Keeps.rfl_ _ v) (List.Subset.refl _)))
    have susp := deficit.ite (c := scr.susp = 0) (opInput_staged deficit 0x40 o 0 false 0)
    exact susp.ite (opInput_staged susp 0x60 o scr.cause false 0)
  unfold summaryIn
  dsimp only
  refine onOp_ind recd fun o _ => recd.ite (settle_staged (applyRerun_staged (range ?_ _ _ _ _) uid) uid)
  have put (f : OpV → OpV) : Staged s (updOp (screenRecs t uid recs endTick) uid f) := recd.of_keeps [.ops] (updOp_keeps uid f (Keeps.rfl_ _ _) (List.Subset.refl _))
  exact (screen (put _) _).ite (put _)

theorem profileIn_staged (h : Staged s t) (uid : Nat) (r : Rec) (hi : Option Int) (bins : List Nat) : Staged s (profileIn t uid r hi bins) := by
  have event {v : State} (hv : Staged s v) (o : OpV) (code bit : Nat) (k : Int) : Staged s (envEvent v o code bit k) :=
    opInput_staged (addRec_staged (hv.of_keeps [.ops] (updOp_keeps o.uid _ (Keeps.rfl_ _ v) (List.Subset.refl _))) _) _ _ _ _ _
  unfold profileIn
  refine onOp_ind h fun o _ => ?_
  have recd := addRec_staged h (withLate o.late r)
  have parts (f : Part → Part) : Staged s (updPart (addRec t (withLate o.late r)) o.part f) := recd.of_keeps [.parts] (updPart_keeps _ f (Keeps.rfl_ _ _) (List.Subset.refl _))
  dsimp only
  refine recd.ite ?_
  split
  · exact (recd.ite (parts _)).ite (recd.of_keeps [.parts] (updCnt_keeps _ _ (Keeps.rfl_ _ _) (List.Subset.refl _)))
  · refine recd.ite ((parts _).ite ?_)
    have first := (event recd o 0x52 3 (hi.getD 0))
    exact (event (first.ite recd) _ _ _ _).ite (first.ite recd)

/-- A notice: what stands before its sample is placed, the sample placed, and how it ends where it has no place. -/
theorem noticeIn_ind {P : State → Prop} (hsame : ∀ v u, P v → Same [.parts, .samples] v u → P u) (hlost : ∀ v l, P v → P { v with keep := { v.keep with lostSamples := l } })
    (hend : ∀ v uid row result cause, P v → P (endSample v uid row result cause)) (h : P t) (ix uid row kind win : Nat) (tick : W64) :
    P (noticeIn t ix uid row kind win tick) := by
  unfold noticeIn
  refine onOp_ind h fun o _ => ?_
  split
  · exact h
  · dsimp only
    have counted (p : Nat) (f : TagEnt → TagEnt) : P (chargeTag (addRpl (promote t) p 0 1) o f) :=
      hsame _ _ h (chargeTag_keeps o f (addRpl_keeps p 0 1 (promote_keeps (Keeps.rfl_ _ t) (by decide)) (by decide)) (by decide)).same
    have placed {v : State} (hv : P v) (l : List Sample) (x : Sample) : P (armIfRoom { v with samples := l } x) := by
      have put : Same [.parts, .samples] v { v with samples := l } := fun f hf => by
        cases f with
        | samples => exact absurd (by decide) hf
        | _ => rfl
      exact hsame _ _ (hsame _ _ hv put) ((armIfRoom_keeps x (Keeps.rfl_ [.samples] _) (List.Subset.refl _)).same.mono (by decide))
    split
    · exact hlost _ _ (counted _ _)
    · split
      · exact hend _ _ _ _ _ (placed (counted _ _) _ _)
      · split
        · exact hend _ _ _ _ _ (placed (counted _ _) _ _)
        · split
          · exact hend _ _ _ _ _ (placed (counted _ _) _ _)
          · refine List.foldlRecOn _ _ ?_ fun v hv y _ => hend _ _ _ _ _ hv
            split
            · exact placed (counted _ _) _ _
            · exact hsame _ _ (placed (counted _ _) _ _) ((takeOver_keeps _ (Keeps.rfl_ [.samples] _) (List.Subset.refl _)).same.mono (by decide))

theorem noticeIn_staged (h : Staged s t) (ix uid row kind win : Nat) (tick : W64) : Staged s (noticeIn t ix uid row kind win tick) :=
  noticeIn_ind (P := Staged s) (fun _ _ hv e => hv.of_same e) (fun _ _ hv => ⟨hv.1, hv.2⟩) (fun _ _ _ _ _ hv => endSample_staged hv _ _ _ _) h ix uid row kind win tick

/-- A step that leaves the Keep's own registers leaves the count of Keep warm resets. -/
theorem kwr_of_same {l : List Fld} (e : Same l s t) (hl : Fld.keep ∉ l := by decide) : t.keep.kwr = s.keep.kwr := (congrArg (fun x => x.2.2.2.1) (e .keep hl) :)

theorem noticeIn_kwr (s : State) (ix uid row kind win : Nat) (tick : W64) : (noticeIn s ix uid row kind win tick).keep.kwr = s.keep.kwr := by
  exact noticeIn_ind (P := fun v => v.keep.kwr = s.keep.kwr) (fun _ _ hv e => (kwr_of_same e).trans hv) (fun _ _ hv => hv)
    (fun v uid row result cause hv => (kwr_of_same (endSample_keeps uid row result cause (Keeps.rfl_ _ v) (List.Subset.refl _)).same).trans hv) rfl ix uid row kind win tick

theorem storeWitness_staged (h : Staged s t) (uid row n : Nat) (f : Sample → Sample) : Staged s (storeWitness t uid row n f) := by
  unfold storeWitness
  split
  · exact h
  · next x _ =>
    dsimp only
    exact Staged.ite (h.of_keeps [.parts, .samples] (tryCompare_keeps uid row (updSample_keeps uid row _ (addMeter_keeps x.part mWitness n
        (addUse_keeps x.part (linesOf n) (Keeps.rfl_ _ t) (by decide)) (by decide)) (by decide)) (by decide)))
      (endSample_staged (h.of_keeps [.parts] (refuseQuota_keeps x.part (Keeps.rfl_ _ t) (List.Subset.refl _))) _ _ _ _)

theorem deliverMsg_staged (h : Staged s t) (m : Msg) : Staged s (deliverMsg t m) := by
  unfold deliverMsg
  split
  · exact noticeIn_staged h _ _ _ _ _ _
  · exact storeWitness_staged (h.of_keeps [.spires] (addBigSp_keeps _ _ _ (unstage_keeps _ _ (Keeps.rfl_ _ t) (by decide)) (by decide))) _ _ _ _
  · exact storeWitness_staged (h.of_keeps [.spires] (addBigSp_keeps _ _ _ (unstage_keeps _ _ (Keeps.rfl_ _ t) (by decide)) (by decide))) _ _ _ _
  · unfold abandonIn
    split
    · exact endSample_staged h _ _ _ _
    · exact h
  · exact summaryIn_staged h _ _ _ _ _ _ _ _
  · exact profileIn_staged h _ _ _ _
  · exact h.of_keeps [.parts] (digestsIn_keeps _ _ _ _ _ _ _ _ (Keeps.rfl_ _ t) (List.Subset.refl _))

theorem drainAll_staged (s : State) : Staged s (drainAll s) := by
  have one {v : State} (hv : Staged s v) : Staged s (drainOne v) := by
    unfold drainOne
    dsimp only
    split
    · next m _ => exact deliverMsg_staged (hv.of_same (leave_effect v m).1) m
    · exact hv
  exact List.foldlRecOn (motive := Staged s) _ _ (Staged.rfl_ s) fun v hv m _ => one hv

theorem drainAll_kwr (s : State) : (drainAll s).keep.kwr = s.keep.kwr := by
  have delivered (v : State) (m : Msg) : (deliverMsg v m).keep.kwr = v.keep.kwr := by
    unfold deliverMsg
    split
    · exact noticeIn_kwr _ _ _ _ _ _ _
    · exact kwr_of_same (fragmentIn_keeps _ _ _ _ _ (Keeps.rfl_ _ v) (List.Subset.refl _)).same
    · exact kwr_of_same (resultIn_keeps _ _ _ _ _ _ (Keeps.rfl_ _ v) (List.Subset.refl _)).same
    · exact kwr_of_same (abandonIn_keeps _ _ _ _ (Keeps.rfl_ _ v) (List.Subset.refl _)).same
    · exact kwr_of_same (summaryIn_keeps _ _ _ _ _ _ _ _ (Keeps.rfl_ _ v) (List.Subset.refl _)).same
    · exact kwr_of_same (profileIn_keeps _ _ _ _ (Keeps.rfl_ _ v) (List.Subset.refl _)).same
    · exact kwr_of_same (digestsIn_keeps _ _ _ _ _ _ _ _ (Keeps.rfl_ _ v) (List.Subset.refl _)).same
  have one (v : State) : (drainOne v).keep.kwr = v.keep.kwr := by
    unfold drainOne
    dsimp only
    split
    · exact (delivered _ _).trans (kwr_of_same (leave_effect _ _).1)
    · rfl
  exact foldl_kept (g := fun v : State => v.keep.kwr) (fun v _ => one v) _ s

end
end Sys2Proof.Machine
end

section
/-! DIE_FAULT, a Keep warm reset and its record drain (R191, R268, R273, R274, R354, R387). -/

set_option Elab.async false

namespace Sys2Proof.Machine

/-! ### DIE_FAULT (R273, R274) -/

/-- The marks of DIE_FAULT, and the hang path left. -/
def faulted (s : State) : State :=
  { s with
    keep := { s.keep with dieFault := true, fault := true }
    hang := { s.hang with stage := 0, resetting := false, waitProgress := false, graph := graphWords s, snap := snapWords s } }

/-- Every tile below FENCED is fenced. -/
def allFenced (s : State) : State :=
  s.tiles.foldl (fun s t => if stateOf s t.ix < stFenced then changeState s t.ix stFenced tcDieFault 0xFFFF 9 s.time.tick 0 0 else s) s

/-- The Belfry stops. -/
def belfryStopped (s : State) : State := { s with belfry := { s.belfry with run := false } }

theorem dieFault_eq {s : State} (h : s.keep.dieFault = false) (cause : Nat) :
    dieFault s cause = closeEarly (belfryStopped (writeHangDump (postAll (allFenced (faulted s)) .dieFault [BitVec.ofNat 32 cause]) none)) .fault := by
  unfold dieFault
  rw [if_neg (by rw [h]; decide)]
  rfl

theorem allFenced_same (s : State) : Same [.alert, .cmd, .inputs, .cmds, .cistern, .nvm, .parts, .tiles, .spires, .domes, .ops, .tickets, .samples, .engines, .caravan, .records, .early, .near, .thermal, .rng]
    s (allFenced s) := by
  refine (keeps_foldl (fun u t hu => ?_) (Keeps.rfl_ _ s)).same
  split
  · next low => exact changeState_keeps _ _ _ _ _ _ _ _ _ (mayChange_low (Nat.lt_succ_of_lt low)) hu (List.Subset.refl _)
  · exact hu

/-- What of the Keep's pads and of the hang path DIE_FAULT sets. -/
def faultMarks (s : State) : (Bool × Bool) × Nat × Bool := ((s.keep.dieFault, s.keep.fault), s.hang.stage, s.hang.waitProgress)

theorem faultMarks_of_same {l : List Fld} {s t : State} (e : Same l s t) (hl : Fld.fault ∉ l ∧ Fld.hang ∉ l := by decide) : faultMarks t = faultMarks s :=
  Prod.ext (e .fault hl.1) (congrArg (fun h : HangSt => (h.stage, h.waitProgress)) (e .hang hl.2))

theorem writeHangDump_marks (s : State) (b : Option Nat) : faultMarks (writeHangDump s b) = faultMarks s := rfl

theorem faulted_marks (s : State) : faultMarks (faulted s) = ((true, true), 0, false) := rfl

theorem belfryStopped_marks (s : State) : faultMarks (belfryStopped s) = faultMarks s := rfl

theorem closeEarly_same (s : State) (e : PeriodEnd) : Same [.parts, .near, .mtr] s (closeEarly s e) := (closeEarly_keeps e (Keeps.rfl_ _ s) (List.Subset.refl _)).same

theorem dieFault_marks {s : State} (h : s.keep.dieFault = false) (cause : Nat) : faultMarks (dieFault s cause) = ((true, true), 0, false) := by
  rw [dieFault_eq h, faultMarks_of_same (closeEarly_same _ _), belfryStopped_marks, writeHangDump_marks,
    faultMarks_of_same (postAll_keeps .dieFault [BitVec.ofNat 32 cause] (Keeps.rfl_ _ (allFenced (faulted s))) (List.Subset.refl _)).same,
    faultMarks_of_same (allFenced_same _), faulted_marks]

theorem dieFault_effect {s : State} (h : s.keep.dieFault = false) (cause : Nat) :
    (dieFault s cause).keep.dieFault = true ∧ (dieFault s cause).keep.fault = true ∧ (dieFault s cause).belfry.run = false ∧ (dieFault s cause).hang.stage = 0 ∧
      (dieFault s cause).hang.waitProgress = false := by
  have marks := dieFault_marks h cause
  refine ⟨congrArg (fun m => m.1.1) marks, congrArg (fun m => m.1.2) marks, ?_, congrArg (fun m => m.2.1) marks, congrArg (fun m => m.2.2) marks⟩
  rw [dieFault_eq h]
  exact closeEarly_same _ _ .belfryRun (by decide)

theorem progressReturn_dieFault {s : State} (hw : s.hang.waitProgress = true) (hb : s.hang.back = false) (hd : s.keep.dieFault = false) :
    ∃ t, exec .progressReturnTimeout s = .next t ∧ t.keep.dieFault = true ∧ t.keep.fault = true ∧ t.belfry.run = false ∧ t.hang.stage = 0 ∧
      t.hang.waitProgress = false ∧ t.cistern.data = s.cistern.data := by
  have run : exec .progressReturnTimeout s = .next (dieFault s dfProgress) :=
    congrArg Host.Outcome.next ((if_neg (by rw [hw]; decide)).trans (if_neg (by rw [hb]; decide)))
  obtain ⟨die, fault, stopped, stage, wait⟩ := dieFault_effect hd dfProgress
  exact ⟨_, run, die, fault, stopped, stage, wait, (dieFault_keeps dfProgress (Keeps.rfl_ _ s) (List.Subset.refl _)).same.bytes_eq.1⟩

/-! ### A Keep warm reset (R191, R268, R354) -/

/-- The Keep warm resets of the last 10 s, this one among them. -/
def recentResets (s : State) : List W64 := (s.keep.kwrTicks.filter fun x => decide (s.time.tick.toNat - x.toNat < 10000000000)) ++ [s.time.tick]

/-- A reset that begins is counted. -/
def resetCounted (s : State) : State := { s with keep := { s.keep with kwr := satInc s.keep.kwr, kwrTicks := recentResets s, kwrCause := 1 } }

/-- What a Keep warm reset stops. -/
def stoppedByReset (s : State) : State := readSlots (dropCommands (loseInputs (loseSamples (abortSlices (linkResync (resetCounted s))))))

theorem exec_keepWatchdog {s : State} (hd : s.keep.dieFault = false) : exec .keepWatchdog s = .next (if (recentResets s).length ≥ 3 then dieFault (resetCounted s) dfKwr
    else { stoppedByReset s with
      keep := { (stoppedByReset s).keep with
        mbx := (stoppedByReset s).keep.mbx.map fun _ => Mbx.reset, kwrDown := true, draining := true, drainLost := List.replicate 16 0 }
      parts := (stoppedByReset s).parts.map fun q => { q with window := q.window.map fun w => { w with kwr := true } } }) :=
  by
  change execKeepWatchdog s = _
  unfold execKeepWatchdog keepWarmReset stoppedByReset resetCounted recentResets
  rw [if_neg (by rw [hd]; decide)]

theorem keepWatchdog_dieFault {s : State} (hd : s.keep.dieFault = false)
    (hk : 2 ≤ (s.keep.kwrTicks.filter fun x => decide (s.time.tick.toNat - x.toNat < 10000000000)).length) :
    ∃ t, exec .keepWatchdog s = .next t ∧ t.keep.dieFault = true ∧ t.keep.fault = true ∧ t.belfry.run = false ∧ t.keep.kwr = satInc s.keep.kwr := by
  obtain ⟨die, fault, stopped, -, -⟩ := dieFault_effect (s := resetCounted s) hd dfKwr
  refine ⟨_, (exec_keepWatchdog hd).trans (congrArg Host.Outcome.next (if_pos ?_)), die, fault, stopped, ?_⟩
  · rw [recentResets, List.length_append]
    exact Nat.succ_le_succ hk
  · exact kwr_of_same (dieFault_keeps dfKwr (Keeps.rfl_ _ (resetCounted s)) (List.Subset.refl _)).same

theorem linkResync_staged (s : State) : Staged s (linkResync s) := by
  unfold linkResync
  refine (Staged.rfl_ s).ite ?_
  refine Staged.of_keeps (t := resetCredits (drainAll s)) ?_ [.time, .alert, .cistern, .parts, .ports, .seals, .launch, .records, .early, .near, .big]
    (keeps_foldl (fun v q hv => resyncPort_keeps q hv (List.Subset.refl _)) (Keeps.rfl_ _ _))
  exact (drainAll_staged s).of_keeps [.spires, .domes, .caravan] (resetCredits_keeps (Keeps.rfl_ _ _) (List.Subset.refl _))

theorem linkResync_kwr (s : State) : (linkResync s).keep.kwr = s.keep.kwr := by
  unfold linkResync
  split
  · rfl
  · exact (kwr_of_same (keeps_foldl (fun v q hv => resyncPort_keeps q hv (List.Subset.refl _)) (Keeps.rfl_ _ _)).same).trans
      ((kwr_of_same (resetCredits_keeps (Keeps.rfl_ [.spires, .domes, .caravan] _) (List.Subset.refl _)).same).trans (drainAll_kwr s))

/-- What is lost of the Belfry's work is counted (R354). -/
theorem loseInputs_effect (s : State) : (loseInputs s).belfry.run = false ∧ (loseInputs s).belfry.inputs = [] ∧
    ∃ n, s.belfry.inputs.length + s.belfry.carriedIn.length + s.belfry.timers.length + s.belfry.wcSets.length + s.belfry.cmdCarry ≤ n ∧
      (loseInputs s).belfry.carryCnt = satAdd s.belfry.carryCnt n := by
  refine ⟨rfl, rfl, _, ?_, rfl⟩
  omega

theorem loseSamples_kwr (s : State) : (loseSamples s).keep.kwr = s.keep.kwr := by
  have freed : Same [.engines] s (s.samples.foldl (fun s x => (x.engines ++ x.conf).foldl (freeEngine x.uid x.row) s) s) :=
    (keeps_foldl (fun v (x : Sample) hv => keeps_foldl (fun w e hw => freeEngine_keeps x.uid x.row e hw (List.Subset.refl _)) hv) (Keeps.rfl_ _ s)).same
  exact (kwr_of_same freed :)

theorem readSlots_kwr (s : State) : (readSlots s).keep.kwr = s.keep.kwr := by
  unfold readSlots
  refine List.foldlRecOn (motive := fun v : State => v.keep.kwr = s.keep.kwr) _ _ rfl fun v hv p _ => ?_
  exact List.foldlRecOn (motive := fun v : State => v.keep.kwr = s.keep.kwr) _ _ hv fun w hw i _ => hw

theorem dropCommands_kwr (s : State) : (dropCommands s).keep.kwr = s.keep.kwr := rfl

theorem loseInputs_keep (s : State) : (loseInputs s).keep = s.keep := rfl

theorem abortSlices_same (s : State) : Same [.alert, .cmd, .cmds, .cistern, .parts, .tiles, .spires, .domes, .engines, .caravan, .records, .early, .near, .thermal] s (abortSlices s) :=
  (abortSlices_keeps (Keeps.rfl_ _ s) (List.Subset.refl _)).same

theorem stoppedByReset_kwr (s : State) : (stoppedByReset s).keep.kwr = satInc s.keep.kwr :=
  by
  have counted : (resetCounted s).keep.kwr = satInc s.keep.kwr := rfl
  unfold stoppedByReset
  rw [readSlots_kwr, dropCommands_kwr, loseInputs_keep, loseSamples_kwr, kwr_of_same (abortSlices_same _), linkResync_kwr, counted]

/-- What stands of the Belfry when a Keep warm reset comes to its inputs. -/
theorem beforeLoss_belfry (s : State) : Staged s (loseSamples (abortSlices (linkResync (resetCounted s)))) ∧
    (let b := (loseSamples (abortSlices (linkResync (resetCounted s)))).belfry
     (b.timers, b.wcSets, b.cmdCarry, b.carryCnt)) = (s.belfry.timers, s.belfry.wcSets, s.belfry.cmdCarry, s.belfry.carryCnt) := by
  have abort := abortSlices_same (linkResync (resetCounted s))
  have lose := (loseSamples_keeps (Keeps.rfl_ _ (abortSlices (linkResync (resetCounted s)))) (List.Subset.refl _)).same
  have link := (linkResync_keeps (Keeps.rfl_ _ (resetCounted s)) (List.Subset.refl _)).same
  have regs {l : List Fld} {v u : State} (e : Same l v u) (hl : Fld.belfry ∉ l := by decide) :
      (u.belfry.timers, u.belfry.wcSets, u.belfry.cmdCarry, u.belfry.carryCnt) = (v.belfry.timers, v.belfry.wcSets, v.belfry.cmdCarry, v.belfry.carryCnt) := by
    have := e .belfry hl
    simp only [Fld.Eq, Prod.mk.injEq] at this
    simp only [this]
  have counted : (resetCounted s).belfry = s.belfry := rfl
  have staged := ((linkResync_staged (resetCounted s)).of_same abort).of_same lose
  have kept := (regs lose).trans ((regs abort).trans (regs link))
  unfold Staged at staged ⊢
  rw [counted] at staged kept
  exact ⟨staged, kept⟩

/-- The state that comes to the drain. -/
theorem stoppedByReset_same (s : State) : Same [.time, .alert, .cmd, .keep, .belfryRun, .inputs, .cad, .cmds, .belfry, .cistern, .parts, .tiles, .spires, .domes, .ops, .tickets,
    .samples, .engines, .ports, .seals, .launch, .caravan, .records, .early, .near, .thermal, .erg, .big, .rng] s (stoppedByReset s) := by
  have counted : Same [.keep] s (resetCounted s) := fun f hf => by
    cases f with
    | keep => exact absurd (by decide) hf
    | _ => rfl
  refine (counted.mono (by decide)).trans ?_
  unfold stoppedByReset
  generalize resetCounted s = v
  exact (readSlots_keeps (dropCommands_keeps (loseInputs_keeps (loseSamples_keeps (abortSlices_keeps (linkResync_keeps (Keeps.rfl_ _ v) (by decide)) (by decide)) (by decide))
    (by decide)) (by decide)) (by decide)).same

/-- What the abandoned commands leave of the Belfry. -/
theorem dropCommands_belfry (s : State) : (dropCommands s).belfry = { s.belfry with cmds := [], cmdCarry := 0 } := rfl

theorem stoppedByReset_belfry (s : State) : (stoppedByReset s).belfry.run = false ∧ (stoppedByReset s).belfry.inputs = [] ∧
    (∃ n, s.belfry.inputs.length + s.belfry.carriedIn.length + s.belfry.timers.length + s.belfry.wcSets.length + s.belfry.cmdCarry ≤ n ∧
      (stoppedByReset s).belfry.carryCnt = satAdd s.belfry.carryCnt n) ∧ (stoppedByReset s).samples = [] := by
  obtain ⟨⟨grown, carried⟩, regs⟩ := beforeLoss_belfry s
  obtain ⟨timers, wcSets, cmdCarry, count⟩ : _ ∧ _ ∧ _ ∧ _ := by simpa only [Prod.mk.injEq] using regs
  have emptied : (loseInputs (loseSamples (abortSlices (linkResync (resetCounted s))))).samples = [] := rfl
  unfold stoppedByReset
  generalize loseSamples (abortSlices (linkResync (resetCounted s))) = b at *
  obtain ⟨stopped, inputs, n, hn, counted⟩ := loseInputs_effect b
  have read := (readSlots_keeps (Keeps.rfl_ _ (dropCommands (loseInputs b))) (List.Subset.refl _)).same
  have belfry := read.belfry_eq.trans (dropCommands_belfry _)
  have length := grown.length_le
  refine ⟨by rw [belfry]; exact stopped, by rw [belfry]; exact inputs, ⟨n, ?_, by rw [belfry, ← count]; exact counted⟩, (read .samples (by decide)).trans emptied⟩
  rw [timers, wcSets, cmdCarry, carried] at hn
  omega

theorem keepWatchdog_reset {s : State} (hd : s.keep.dieFault = false)
    (hk : (s.keep.kwrTicks.filter fun x => decide (s.time.tick.toNat - x.toNat < 10000000000)).length < 2) :
    ∃ t, exec .keepWatchdog s = .next t ∧ t.keep.kwr = satInc s.keep.kwr ∧ t.keep.kwrDown = true ∧ t.keep.draining = true ∧
      t.belfry.run = false ∧ t.belfry.inputs = [] ∧
      (∃ n, s.belfry.inputs.length + s.belfry.carriedIn.length + s.belfry.timers.length + s.belfry.wcSets.length + s.belfry.cmdCarry ≤ n ∧
        t.belfry.carryCnt = satAdd s.belfry.carryCnt n) ∧ t.samples = [] ∧
      t.keep.mbx = s.keep.mbx.map (fun _ => Mbx.reset) ∧ t.tallies = s.tallies ∧ t.cistern.data = s.cistern.data := by
  have few : ¬ (recentResets s).length ≥ 3 := by
    rw [recentResets, List.length_append]
    exact Nat.not_le.2 (Nat.succ_lt_succ hk)
  have run := (exec_keepWatchdog hd).trans (congrArg Host.Outcome.next (if_neg few))
  have kwr := stoppedByReset_kwr s
  obtain ⟨stopped, inputs, counted, samples⟩ := stoppedByReset_belfry s
  have same := stoppedByReset_same s
  generalize stoppedByReset s = z at *
  exact ⟨_, run, kwr, rfl, rfl, stopped, inputs, counted, samples, congrArg (fun l : List Mbx => l.map fun _ => Mbx.reset) (same .mbx (by decide)), same .tallies (by decide),
    same.bytes_eq.1⟩

/-! ### The drain and the restart (R278, R279, R387) -/

theorem recordDrainTimeout_effect {s : State} (h : s.keep.draining = true) : ∃ t, exec .recordDrainTimeout s = .next t ∧ t.keep.draining = false ∧
    (∀ i ∈ t.near.waiting, evidenceOf i = none) ∧
    t.cistern.wrstLost = satAdd s.cistern.wrstLost (s.near.waiting.filterMap evidenceOf).length ∧ t.tallies = s.tallies ∧ t.cistern.data = s.cistern.data := by
  obtain ⟨t, run, keeps⟩ := execRecordDrainTimeout_keeps (Keeps.rfl_ _ s) (List.Subset.refl _)
  refine ⟨t, run, ?_⟩
  have tallies := keeps.same .tallies (by decide)
  have bytes := keeps.same.bytes_eq.1
  unfold execRecordDrainTimeout at run
  rw [if_neg (by rw [h]; decide)] at run
  obtain rfl := Host.Outcome.next.inj run
  refine ⟨rfl, fun i hi => Option.isNone_iff_eq_none.1 (List.mem_filter.1 hi).2, ?_, tallies, bytes⟩
  refine congrArg (fun n => satAdd n (s.near.waiting.filterMap evidenceOf).length) ?_
  exact foldl_kept (g := fun v : State => v.cistern.wrstLost) (f := fun v r => { subUse v r.part (recLines r) with
    records := v.records.erase r, keep := { v.keep with drainLost := updAt v.keep.drainLost r.part (· + 1) } }) (fun v r => rfl) _ s

theorem keepRestart_drains {s : State} (h : drains s = true) : exec .keepRestart s = .next s :=
  congrArg Host.Outcome.next (if_pos (Or.inr (Or.inr (Or.inr h))))

end Sys2Proof.Machine
end

section
/-! The end of a Keep warm reset (R191, R278, R279, R387). -/

set_option Elab.async false

namespace Sys2Proof.Machine

/-! ### The end of a Keep warm reset (R191, R278, R279, R387) -/

/-- What firmware has done when the banks are filled again. -/
def restarted (s : State) : State := endLost ((List.range Config.parts).foldl restartPart (checkCode s))

/-- The banks are filled again, and what they lose goes. -/
def refilled (s : State) : State :=
  { s with
    seals := []
    near := { s.near with waiting := s.near.waiting.filter fun i => !lostItem i }
    cistern := { s.cistern with data := keepFirmware s.cistern.data, check := keepFirmware s.cistern.check }
    keep := { s.keep with kwrDown := false, draining := false, drainLost := List.replicate 16 0, readback := [] } }

/-- The Cistern's use is taken anew, and the restart is posted. -/
def restartNoted (s : State) (cause : Nat) : State :=
  postAll ((List.range Config.parts).foldl (fun s p => updCnt s p fun c => { c with cisUse := BitVec.ofNat 32 (useAfter s p) }) s) .keepRestart [BitVec.ofNat 32 cause]

theorem exec_keepRestart {s : State} (hdown : s.keep.kwrDown = true) (hd : s.keep.dieFault = false) (hr : readsSlots s.near = false) (hn : drains s = false) :
    exec .keepRestart s = .next (let z := restartNoted (refilled (restarted s)) s.keep.kwrCause
      { z with belfry := { z.belfry with run := decide (z.boot.step ≥ 5) } }) := by
  change execKeepRestart s = _
  unfold execKeepRestart restartNoted refilled restarted
  rw [if_neg (by rw [hdown, hd, hr, hn]; decide)]

theorem restartNoted_same (s : State) (cause : Nat) : Same [.parts, .near] s (restartNoted s cause) :=
  (postAll_keeps .keepRestart _ (keeps_foldl (fun v p hv => updCnt_keeps p _ hv (by decide)) (Keeps.rfl_ _ s)) (List.Subset.refl _)).same

/-- The bank that firmware fetches from. -/
def fetchesFrom (s : State) : Bool := s.cistern.execBank

theorem fetchesFrom_of_same {l : List Fld} {s t : State} (e : Same l s t) (hl : Fld.bytes ∉ l ∧ Fld.cistern ∉ l := by decide) : fetchesFrom t = fetchesFrom s :=
  congrArg Cistern.execBank (e.cistern_eq hl.1 hl.2)

theorem addRec_fetchesFrom (s : State) (r : Rec) : fetchesFrom (addRec s r) = fetchesFrom s :=
  (congrArg (fun c : Cistern => c.execBank) (addRec_desk (DeskKept.rfl_ s) r).1 :)

theorem endSample_fetchesFrom (s : State) (uid row result cause : Nat) : fetchesFrom (endSample s uid row result cause) = fetchesFrom s :=
  endSample_ind (P := fun v => fetchesFrom v = fetchesFrom s) (fun v r hv => (addRec_fetchesFrom v r).trans hv) (fun _ _ hv e => (fetchesFrom_of_same e).trans hv)
    (fun v x hv => (fetchesFrom_of_same (addInput_same v x)).trans hv) rfl uid row result cause

theorem restartPart_fetchesFrom (s : State) (p : Nat) : fetchesFrom (restartPart s p) = fetchesFrom s := by
  have counted (v : State) (n : W32) : fetchesFrom { v with cistern := { v.cistern with wrstLost := n } } = fetchesFrom v := rfl
  have refused (v : State) (f : Part → Part) : fetchesFrom (refuseSeal (updPart v p f) p 0x0B) = fetchesFrom v :=
    fetchesFrom_of_same (refuseSeal_keeps p 0x0B (updPart_keeps p f (Keeps.rfl_ [.parts, .near] v) (by decide)) (by decide)).same
  unfold restartPart
  dsimp only
  split
  · exact (refused _ _).trans ((counted _ _).trans (addRec_fetchesFrom _ _))
  · split
    · exact (fetchesFrom_of_same (startRollback_keeps _ _ _ _ _ _ (Keeps.rfl_ [.parts, .near] _) (by decide)).same).trans ((refused _ _).trans ((counted _ _).trans (addRec_fetchesFrom _ _)))
    · exact (fetchesFrom_of_same (post_keeps _ _ _ _ (updPart_keeps p _ (Keeps.rfl_ [.parts, .near] _) (by decide)) (by decide)).same).trans
        ((refused _ _).trans ((counted _ _).trans (addRec_fetchesFrom _ _)))

theorem restarted_effect (s : State) : Same [.alert, .keep, .inputs, .cistern, .parts, .tiles, .ops, .tickets, .samples, .engines, .records, .early, .near, .rng] (checkCode s) (restarted s) ∧
    (restarted s).samples = [] ∧ fetchesFrom (restarted s) = fetchesFrom (checkCode s) := by
  refine ⟨(endLost_keeps (keeps_foldl (fun v p hv => restartPart_keeps p hv (by decide)) (Keeps.rfl_ _ (checkCode s))) (by decide)).same, rfl, ?_⟩
  unfold restarted
  generalize checkCode s = v
  refine Eq.trans ?_ (foldl_kept (g := fetchesFrom) restartPart_fetchesFrom (List.range Config.parts) v)
  generalize (List.range Config.parts).foldl restartPart v = u
  exact foldl_kept (g := fetchesFrom) (fun v (x : Sample) => endSample_fetchesFrom v x.uid x.row rIncon 0x0D) (u.keep.lostSamples ++ u.samples)
    { u with samples := u.keep.lostSamples ++ u.samples }

/-! ### The firmware's code (R278) -/

theorem checkCode_same (s : State) : Same [.bytes, .cistern] s (checkCode s) := (checkCode_keeps (Keeps.rfl_ _ s) (List.Subset.refl _)).same

theorem checkCode_of_eq {s : State} (h : copyGood s 0 = copyGood s 1) : checkCode s = s := by
  unfold checkCode
  split
  · rfl
  · split
    · next h0 h1 =>
      rw [h0, h1] at h
      cases h
    · next h0 h1 =>
      rw [h0, h1] at h
      cases h
    · rfl

theorem checkCode_second {s : State} (hw : s.boot.fwLen ≠ 0) (hm : mirrors s = true) (h0 : copyGood s 0 = false) (h1 : copyGood s 1 = true) : fetchesFrom (checkCode s) = true := by
  unfold checkCode
  rw [if_neg (by rw [hm]; simpa using hw), h0, h1]
  rfl

theorem checkCode_first {s : State} (hw : s.boot.fwLen ≠ 0) (hm : mirrors s = true) (h0 : copyGood s 0 = true) (h1 : copyGood s 1 = false) : fetchesFrom (checkCode s) = false := by
  unfold checkCode
  rw [if_neg (by rw [hm]; simpa using hw), h0, h1]
  rfl

/-- The firmware banks keep their bytes. -/
theorem memGet_keepFirmware (d : Nat → Byte) (m : List Host.Cell) {a : Nat} (ha : a < 2 * 2 ^ 23) : memGet d (keepFirmware m) a = memGet d m a := by
  induction m with
  | nil => rfl
  | cons c m ih =>
    unfold keepFirmware at ih ⊢
    by_cases hc : c.1 < 2 * 2 ^ 23
    · rw [List.filter_cons_of_pos (by simpa using hc), memGet, memGet, ih]
    · rw [List.filter_cons_of_neg (by simpa using hc), ih, memGet, if_neg fun e : c.1 = a => hc (e ▸ ha)]

theorem keepRestart_effect {s : State} (hdown : s.keep.kwrDown = true) (hd : s.keep.dieFault = false) (hr : readsSlots s.near = false) (hn : drains s = false) :
    ∃ t, exec .keepRestart s = .next t ∧ t.keep.kwrDown = false ∧ t.keep.draining = false ∧ t.samples = [] ∧ t.seals = [] ∧
      t.tallies = s.tallies ∧ t.belfry.run = decide (s.boot.step ≥ 5) ∧ t.cistern.data = keepFirmware (checkCode s).cistern.data ∧
      t.cistern.execBank = fetchesFrom (checkCode s) := by
  obtain ⟨same, samples, fetches⟩ := restarted_effect s
  have code := checkCode_same s
  have run := exec_keepRestart hdown hd hr hn
  generalize restarted s = r at *
  have noted := restartNoted_same (refilled r) s.keep.kwrCause
  generalize hf : refilled r = f at *
  have refill : (f.keep.kwrDown, f.keep.draining) = (false, false) ∧ f.samples = r.samples ∧ f.seals = [] ∧ f.tallies = r.tallies ∧ f.boot = r.boot ∧
      f.cistern.data = keepFirmware r.cistern.data ∧ f.cistern.execBank = r.cistern.execBank := by
    subst hf
    exact ⟨rfl, rfl, rfl, rfl, rfl, rfl, rfl⟩
  obtain ⟨keep, fsamples, seals, tallies, boot, data, exec_⟩ := refill
  generalize restartNoted f s.keep.kwrCause = z at *
  have cistern : z.cistern = f.cistern := noted.cistern_eq
  have boots : z.boot = s.boot := (noted .boot (by decide)).trans (boot.trans ((same .boot (by decide)).trans (code .boot (by decide))))
  have keeps : z.keep = f.keep := noted.keep_eq
  refine ⟨_, run, ?_, ?_, (noted .samples (by decide)).trans (fsamples.trans samples), (noted .seals (by decide)).trans seals,
    (noted .tallies (by decide)).trans (tallies.trans ((same .tallies (by decide)).trans (code .tallies (by decide)))), ?_, ?_, ?_⟩
  · exact (congrArg KeepSt.kwrDown keeps).trans (congrArg Prod.fst keep)
  · exact (congrArg KeepSt.draining keeps).trans (congrArg Prod.snd keep)
  · exact congrArg (fun b : Boot => decide (b.step ≥ 5)) boots
  · exact (congrArg Cistern.data cistern).trans (data.trans (congrArg keepFirmware same.bytes_eq.1))
  · exact (congrArg Cistern.execBank cistern).trans (exec_.trans fetches)

/-- Settles O21: DIE_FAULT by its marks; the Keep warm reset by what each of its steps leaves; the restart by what stands after the code
is checked. -/
theorem dieFaultAndKeepWarmReset : Obligations.DieFaultAndKeepWarmReset := by
  unfold Obligations.DieFaultAndKeepWarmReset
  refine ⟨⟨fun s hw hb => ?_, fun s hw hb hd => progressReturn_dieFault hw hb hd, fun s hd hk => keepWatchdog_dieFault hd hk, fun s hd => congrArg Host.Outcome.next (if_pos hd)⟩,
    fun s hd hk => keepWatchdog_reset hd hk, fun s h => recordDrainTimeout_effect h, fun s h => keepRestart_drains h, fun s hdown hd hr hn => ?_⟩
  · exact congrArg Host.Outcome.next ((if_neg (by rw [hw]; decide)).trans (if_pos hb))
  · obtain ⟨t, run, down, draining, samples, seals, tallies, belfry, data, bank⟩ := keepRestart_effect hdown hd hr hn
    refine ⟨t, run, down, draining, samples, seals, tallies, belfry, data, fun he a ha => ?_, fun hw hm h0 h1 => bank.trans (checkCode_second hw hm h0 h1),
      fun hw hm h0 h1 => bank.trans (checkCode_first hw hm h0 h1)⟩
    rw [data, checkCode_of_eq he]
    exact memGet_keepFirmware _ _ ha

end Sys2Proof.Machine
end

section
/-! Weight segments (R78 to R80, R177, R178). -/

set_option Elab.async false

namespace Sys2Proof.Machine

/-! ### Weight segments (R78 to R80, R177, R178) -/

/-- What a good segment finds of its key: the number of its stream, the state with that stream, the columns that it skips. -/
def segmentOpens (s : State) (h : WtHdr) : Nat × State × List Nat :=
  match liveStream s (hKey h) with
  | none => ((beginStream s (hKey h)).1, (beginStream s (hKey h)).2, [])
  | some w =>
    if ((segCols h).filter (repeats h w.segs)).isEmpty then (w.num, s, (segCols h).filter (skips h w.segs))
    else
      let v := endStream ((samplesOfKey s (hKey h)).foldl (repeatMeets ((segCols h).filter (repeats h w.segs))) s) w
      ((beginStream v (hKey h)).1, (beginStream v (hKey h)).2, [])

/-- The rows of a segment reach the samples of its key. -/
def segmentFeeds (h : WtHdr) (bs : List WtBeat) (x : Nat × State × List Nat) : State :=
  (segRows h (hKCnt h) 0 bs []).foldl (fun s r => (samplesOfKey s (hKey h)).foldl (feedSample h x.1 r) s)
    ((samplesOfKey x.2.1 (hKey h)).foldl (segmentMeets h x.2.2) x.2.1)

/-- A segment is added to its stream. -/
def segmentJoins (s : State) (h : WtHdr) (bs : List WtBeat) (tick : W64) (num kw : Nat) : State :=
  updStream s (hKey h) num fun w => { w with
    segs := w.segs ++ [(hKBase h, hKCnt h, hNBase h, hNCnt h)], seen := w.seen ++ [(tick, hNBase h)], fp := w.fp + sd64 kw (segBytes h bs) }

/-- A segment serves a confirmation, or its digest joins its key (R194, R289). -/
def segmentDigested (s : State) (h : WtHdr) (bs : List WtBeat) (num : Nat) : State :=
  if s.samples.any fun x => x.state == .confirming && keyOf x == hKey h && x.confStream == some num then s
  else joinSegment s (hPart h) (hEpoch h) (hLayer h) (sd64 (digestKeys s (hPart h)).1 (segBytes h bs))

theorem goodSegment_eq (s : State) (h : WtHdr) (bs : List WtBeat) :
    goodSegment s h bs = checkStreams (segmentDigested (segmentJoins (weightKey (segmentFeeds h bs (segmentOpens s h))).2 h bs s.time.tick (segmentOpens s h).1
      (weightKey (segmentFeeds h bs (segmentOpens s h))).1) h bs (segmentOpens s h).1) (hKey h) := rfl

/-- The stream that a segment joins stands. -/
theorem segmentOpens_stream (s : State) (h : WtHdr) : ∃ w ∈ (segmentOpens s h).2.1.streams, w.key = hKey h ∧ w.num = (segmentOpens s h).1 := by
  have begun (v : State) : ∃ w ∈ (beginStream v (hKey h)).2.streams, w.key = hKey h ∧ w.num = (beginStream v (hKey h)).1 :=
    ⟨_, List.mem_append_right _ (List.mem_singleton.2 rfl), rfl, rfl⟩
  unfold segmentOpens
  split
  · exact begun s
  · next w hw =>
    split
    · unfold liveStream at hw
      have live := List.find?_some hw
      rw [Bool.and_eq_true, beq_iff_eq] at live
      exact ⟨w, List.mem_of_find?_eq_some hw, live.1, rfl⟩
    · exact begun _

theorem segmentFeeds_streams (h : WtHdr) (bs : List WtBeat) (x : Nat × State × List Nat) : (segmentFeeds h bs x).streams = x.2.1.streams := by
  have met (v : State) (a : Sample) : (segmentMeets h x.2.2 v a).streams = v.streams := (segmentMeets_keeps h x.2.2 a (Keeps.rfl_ _ v) (List.Subset.refl _)).same .streams (by decide)
  have fed (v : State) (r : Nat × List Nat × List Byte) (a : Sample) : (feedSample h x.1 r v a).streams = v.streams :=
    (feedSample_keeps h x.1 r a (Keeps.rfl_ _ v) (List.Subset.refl _)).same .streams (by decide)
  unfold segmentFeeds
  exact (foldl_kept (g := State.streams) (fun v r => foldl_kept (g := State.streams) (fun v a => fed v r a) _ v) _ _).trans (foldl_kept (g := State.streams) met _ _)

theorem goodSegment_stream (s : State) (h : WtHdr) (bs : List WtBeat) :
    ∃ w ∈ (goodSegment s h bs).streams, w.key = hKey h ∧ (hKBase h, hKCnt h, hNBase h, hNCnt h) ∈ w.segs := by
  obtain ⟨w, hw, key, num⟩ := segmentOpens_stream s h
  rw [goodSegment_eq]
  have fed := segmentFeeds_streams h bs (segmentOpens s h)
  generalize segmentFeeds h bs (segmentOpens s h) = u at fed ⊢
  have keyed := (weightKey_keeps (Keeps.rfl_ _ u) (List.Subset.refl _)).same .streams (by decide)
  generalize weightKey u = kw at keyed ⊢
  have joined : ∃ w ∈ (segmentJoins kw.2 h bs s.time.tick (segmentOpens s h).1 kw.1).streams, w.key = hKey h ∧ (hKBase h, hKCnt h, hNBase h, hNCnt h) ∈ w.segs := by
    refine ⟨_, List.mem_map.2 ⟨w, keyed.symm ▸ fed.symm ▸ hw, rfl⟩, ?_⟩
    rw [if_pos ⟨key, num⟩]
    exact ⟨key, List.mem_append_right _ (List.mem_singleton.2 rfl)⟩
  generalize segmentJoins kw.2 h bs s.time.tick (segmentOpens s h).1 kw.1 = v at joined ⊢
  have digested : (segmentDigested v h bs (segmentOpens s h).1).streams = v.streams := by
    unfold segmentDigested
    split
    · rfl
    · exact (joinSegment_keeps _ _ _ _ (Keeps.rfl_ _ v) (List.Subset.refl _)).same .streams (by decide)
  have checked := (checkStreams_keeps (hKey h) (Keeps.rfl_ _ (segmentDigested v h bs (segmentOpens s h).1)) (List.Subset.refl _)).same .streams (by decide)
  rw [show (checkStreams (segmentDigested v h bs (segmentOpens s h).1) (hKey h)).streams = v.streams from Eq.trans checked digested]
  exact joined

theorem headerCrosses_lastHdr (s : State) (h : WtHdr) : (hPart h, hLayer h) ∈ (headerCrosses s h).lastHdr := by
  have put : (hPart h, hLayer h) ∈ (s.lastHdr.filter fun e => e.1 != hPart h) ++ [(hPart h, hLayer h)] := List.mem_append_right _ (List.mem_singleton.2 rfl)
  have ended (v : State) (w : WStream) : (endStream v w).lastHdr = v.lastHdr := (endStream_keeps w (Keeps.rfl_ _ v) (List.Subset.refl _)).same .lastHdr (by decide)
  have left (v : State) (x : Sample) : (endSample v x.uid x.row rIncon (if x.wtviol then 0x07 else 0x04)).lastHdr = v.lastHdr :=
    (endSample_keeps _ _ _ _ (Keeps.rfl_ _ v) (List.Subset.refl _)).same .lastHdr (by decide)
  unfold headerCrosses
  dsimp only
  split
  · exact put
  · refine Eq.mpr (congrArg ((hPart h, hLayer h) ∈ ·) ?_) put
    refine (foldl_kept (g := State.lastHdr) left _ _).trans ?_
    exact foldl_kept (g := State.lastHdr) ended _ _

/-- The counts of a weight port. -/
def segmentCounted (s : State) (port n : Nat) : State := addBig (addBig s (0x0240 + port) 0 (64 * (n + 1))) (0x0240 + port) 1 1

theorem segmentCounted_same (s : State) (port n : Nat) : Same [.big] s (segmentCounted s port n) :=
  (addBig_keeps _ _ _ (addBig_keeps _ _ _ (Keeps.rfl_ _ s) (by decide)) (by decide)).same

/-- A violation of a port stages its input while the Belfry steps. -/
theorem portViol_input (s : State) (k : RecKind) (part port : Nat) (layer oper : W16) (code : Byte) (detail : W32) (epoch : W16) (n : Nat) (hrun : s.belfry.run = true) :
    ∃ i ∈ (portViol s k part port layer oper code detail epoch n).belfry.inputs, i.code = violInput k ∧ i.part = part ∧ i.layer = layer ∧ i.cause = code.toNat := by
  have recorded := (addRec_keeps (violRec s.time.tick k 0xFFFF part port layer oper code detail epoch n)
    (countViol_keeps k port (Keeps.rfl_ [.alert, .cistern, .parts, .records, .early, .near, .portViols] s) (by decide)) (by decide)).same
  exact ⟨_, addInput_mem ((recorded .belfryRun (by decide)).trans hrun) _ rfl, rfl, rfl, rfl, rfl⟩

/-- What a segment that is ignored leaves and gives. -/
theorem badSegment_effect (s : State) (port : Nat) (h : WtHdr) (n : Nat) :
    (badSegment s port h 0x01 n).engines = s.engines ∧ (badSegment s port h 0x01 n).streams = s.streams ∧ (badSegment s port h 0x01 n).lastHdr = s.lastHdr ∧
      (s.belfry.run = true → ∃ i ∈ (badSegment s port h 0x01 n).belfry.inputs, i.code = 0x98 ∧ i.part = hPart h ∧ i.layer = hLayer h ∧ i.cause = 1) := by
  have same := portViol_keeps .wtviol (hPart h) port (hLayer h) (hOper h) 0x01 (hTensor h) (hEpoch h) n (Keeps.rfl_ _ s) (List.Subset.refl _) |>.same
  have input := portViol_input s .wtviol (hPart h) port (hLayer h) (hOper h) 0x01 (hTensor h) (hEpoch h) n
  unfold badSegment
  generalize portViol s .wtviol (hPart h) port (hLayer h) (hOper h) 0x01 (hTensor h) (hEpoch h) n = v at same input ⊢
  have counted := (addBig_keeps (0x0240 + port) 2 1 (Keeps.rfl_ [.big] v) (List.Subset.refl _)).same
  refine ⟨(counted .engines (by decide)).trans (same .engines (by decide)), (counted .streams (by decide)).trans (same .streams (by decide)),
    (counted .lastHdr (by decide)).trans (same .lastHdr (by decide)), fun hrun => ?_⟩
  have belfry : (addBig v (0x0240 + port) 2 1).belfry = v.belfry := counted.belfry_eq
  obtain ⟨i, hi, code, part, layer, cause⟩ := input hrun
  exact ⟨i, (congrArg (fun b : Belfry => i ∈ b.inputs) belfry).mpr hi, code, part, layer, cause⟩

/-- Settles O22: a good segment by the stream that it joins, a bad header by the violation that it is. -/
theorem weightSegments : Obligations.WeightSegments := by
  unfold Obligations.WeightSegments
  refine ⟨fun s port h bs hcrc hres hrange hshape hclk => ?_, fun s port h bs drop hbad hclk => ?_, fun s port h bs drop hclk => ?_⟩
  · obtain ⟨t, run, keeps⟩ := execWeightSegment_keeps port h bs false (Keeps.rfl_ _ s) (List.Subset.refl _)
    have closed : exec (.weightSegment port h bs false) s = .next (goodSegment (headerCrosses (segmentCounted s port bs.length) h) h bs) := by
      refine congrArg Host.Outcome.next ((if_neg ?_).trans ((if_neg ?_).trans (if_neg ?_)))
      · rwa [List.contains_iff_mem]
      · rw [hcrc, hres, hrange]
        decide
      · rw [hshape]
        decide
    obtain rfl := Host.Outcome.next.inj (closed.symm.trans run)
    obtain ⟨w, hw, key, segs⟩ := goodSegment_stream (headerCrosses (segmentCounted s port bs.length) h) h bs
    have hdr := (goodSegment_keeps h bs (Keeps.rfl_ _ (headerCrosses (segmentCounted s port bs.length) h)) (List.Subset.refl _)).same .lastHdr (by decide)
    exact ⟨_, w, run, hdr.symm ▸ headerCrosses_lastHdr _ h, hw, key, segs, keeps.same.bytes_eq.1, keeps.same .spires (by decide)⟩
  · obtain ⟨t, run, keeps⟩ := execWeightSegment_keeps port h bs drop (Keeps.rfl_ _ s) (List.Subset.refl _)
    have closed : exec (.weightSegment port h bs drop) s = .next (badSegment (segmentCounted s port bs.length) port h 0x01 bs.length) := by
      refine congrArg Host.Outcome.next ((if_neg ?_).trans (if_pos ?_))
      · rwa [List.contains_iff_mem]
      · rcases hbad with h | h | h <;> simp [h]
    obtain rfl := Host.Outcome.next.inj (closed.symm.trans run)
    have counted := segmentCounted_same s port bs.length
    obtain ⟨engines, streams, hdr, input⟩ := badSegment_effect (segmentCounted s port bs.length) port h bs.length
    exact ⟨_, run, engines.trans (counted .engines (by decide)), streams.trans (counted .streams (by decide)), hdr.trans (counted .lastHdr (by decide)),
      fun hrun => input ((counted .belfryRun (by decide)).trans hrun), keeps.same .spires (by decide), keeps.same.bytes_eq.1⟩
  · exact congrArg Host.Outcome.next (if_pos (List.contains_iff_mem.2 hclk))

end Sys2Proof.Machine
end

section
/-! Rows of an engine, and the slices of its self-test (R181, R431, R437). -/

set_option Elab.async false

namespace Sys2Proof.Machine

/-! ### Rows of an engine (R181) -/

theorem getEng_of_same {s t : State} {l : List Fld} (h : Same l s t) (e : Nat) (hl : .engines ∉ l := by decide) : getEng t e = getEng s e :=
  congrArg (fun l : List Engine => l.getD e Engine.reset) (h .engines hl)

theorem tryCompare_same (s : State) (uid row : Nat) : Same [.samples] s (tryCompare s uid row) := (tryCompare_keeps uid row (Keeps.rfl_ _ s) (List.Subset.refl _)).same

theorem exec_engineRow {s : State} {e : Nat} {r : WRow} {rest : List WRow} {uid row : Nat} {x : Sample} (hf : (getEng s e).fifo = r :: rest)
    (hs : (getEng s e).state = .held uid row) (hx : getSample s uid row = some x) :
    exec (.engineRow e) s = .next (if r.k / 1024 < x.frags.length ∧ !x.unread then
      tryCompare (processRow (updEng s e fun g => { g with fifo := rest }) e r) uid row else s) := by
  change execEngineRow e s = _
  unfold execEngineRow
  dsimp only
  rw [hf, hs]
  dsimp only
  rw [hx]

theorem engineRow_effect {s : State} {e : Nat} {r : WRow} {rest : List WRow} {uid row : Nat} {x : Sample} {o : OpV} (he : e < s.engines.length)
    (hf : (getEng s e).fifo = r :: rest) (hs : (getEng s e).state = .held uid row) (hx : getSample s uid row = some x) (ho : getOp s uid = some o)
    (hk : r.k / 1024 < x.frags.length) (hu : x.unread = false) :
    ∃ t, exec (.engineRow e) s = .next t ∧ getEng t e = { getEng s e with fifo := rest, rows := (getEng s e).rows ++ [r] } ∧
      (∀ j, j ≠ e → getEng t j = getEng s j) ∧ t = { s with engines := t.engines, samples := t.samples, big := t.big } := by
  have run := (exec_engineRow hf hs hx).trans (congrArg Host.Outcome.next (if_pos ⟨hk, by rw [hu]; rfl⟩))
  have took : getEng (updEng s e fun g => { g with fifo := rest }) e = { getEng s e with fifo := rest } := getEng_updEng s e _ he
  have others : EngKeeps e s (updEng s e fun g => { g with fifo := rest }) := (EngKeeps.rfl_ e s).updEng _
  have same : Same [.engines] s (updEng s e fun g => { g with fifo := rest }) := (updEng_keeps e _ (Keeps.rfl_ _ s) (List.Subset.refl _)).same
  have sample : getSample (updEng s e fun g => { g with fifo := rest }) uid row = some x := hx
  have op : getOp (updEng s e fun g => { g with fifo := rest }) uid = some o := ho
  generalize (updEng s e fun g => { g with fifo := rest }) = u at *
  have hu' : e < u.engines.length := by rw [others.length]; exact he
  have counted (v : State) : Same [.samples, .big] v (updSample (addBig v 0x2F3 (if (exactMode o || (x.conf.drop 1).contains e) = true then 2 else 1) r.cols.length) uid row fun y =>
      if (exactMode o || (x.conf.drop 1).contains e) = true then { y with xprods := y.xprods + r.cols.length } else { y with prods := y.prods + r.cols.length }) :=
    (updSample_keeps uid row _ (addBig_keeps _ _ _ (Keeps.rfl_ _ v) (by decide)) (by decide)).same
  have processed : EngKeeps e u (processRow u e r) ∧ getEng (processRow u e r) e = { getEng u e with rows := (getEng u e).rows ++ [r] } ∧ Same [.samples, .engines, .big] u (processRow u e r) := by
    refine ⟨?_, ?_, (processRow_keeps e r (Keeps.rfl_ _ u) (List.Subset.refl _)).same⟩
    all_goals
      unfold processRow
      rw [took, hs]
      dsimp only
      rw [sample, op]
      dsimp only
    · exact ((EngKeeps.rfl_ e u).updEng _).of_same (counted _)
    · exact (getEng_of_same (counted _) e).trans ((getEng_updEng u e _ hu').trans (by rw [took]))
  obtain ⟨keeps, own, frame⟩ := processed
  have compared := tryCompare_same (processRow u e r) uid row
  refine ⟨_, run, (getEng_of_same compared e).trans (own.trans (by rw [took])), fun j hj => ?_, ?_⟩
  · exact (getEng_of_same compared j).trans ((keeps.other j hj).trans (others.other j hj))
  · exact (((same.mono (by decide)).trans (frame.mono (by decide))).trans (compared.mono (by decide)) : Same [.engines, .samples, .big] s _).frame

/-- A piece whose fragment has not come, or whose witness is poisoned, waits. -/
theorem engineRow_waits {s : State} {e : Nat} {r : WRow} {rest : List WRow} {uid row : Nat} {x : Sample} (hf : (getEng s e).fifo = r :: rest)
    (hs : (getEng s e).state = .held uid row) (hx : getSample s uid row = some x) (h : x.frags.length ≤ r.k / 1024 ∨ x.unread = true) :
    exec (.engineRow e) s = .next s := by
  refine (exec_engineRow hf hs hx).trans (congrArg Host.Outcome.next (if_neg fun hc => ?_))
  rcases h with h | h
  · exact Nat.not_le.2 hc.1 h
  · rw [h] at hc
    exact Bool.noConfusion hc.2

/-! ### The self-test of an engine (R222, R431, R437) -/

theorem engineSelfTest_effect {s : State} {e : Nat} (he : e < s.engines.length) (h : (getEng s e).state = .fenced ∨ ((getEng s e).testDue = true ∧ (getEng s e).state = .free)) :
    ∃ t, exec (.engineSelfTest e) s = .next t ∧ getEng t e = { getEng s e with state := .testing, testDue := false } ∧
      (∀ j, j ≠ e → getEng t j = getEng s j) ∧ t = { s with engines := t.engines } :=
  ⟨_, congrArg Host.Outcome.next (if_pos h), getEng_updEng s e _ he, fun _ hj => getEng_updEng_ne s _ hj, rfl⟩

theorem engineSelfTest_idle {s : State} {e : Nat} (hf : (getEng s e).state ≠ .fenced) (ht : (getEng s e).testDue = false ∨ (getEng s e).state ≠ .free) :
    exec (.engineSelfTest e) s = .next s := by
  refine congrArg Host.Outcome.next (if_neg ?_)
  rintro (h | ⟨hd, h⟩)
  · exact hf h
  · rcases ht with ht | ht
    · rw [ht] at hd
      cases hd
    · exact ht h

theorem satAdd_satAdd {w : Nat} (x : BitVec w) (n m : Nat) : satAdd (satAdd x n) m = satAdd x (n + m) := by
  induction n generalizing x with
  | zero => rw [satAdd_zero, Nat.zero_add]
  | succ n ih => rw [← satAdd_satInc, ih, satAdd_satInc, Nat.add_right_comm]

/-- The time of partition 0's tests (R486). -/
def testTime (s : State) : W64 := (getPart s 0).cnt.meters.getD mTest 0

/-- A time is added to partition 0's tests, where the partition has the meter. -/
theorem testTime_addMeter {s : State} (hp : 0 < s.parts.length) (n : Nat) :
    testTime (addMeter s 0 mTest n) = (if mTest < (getPart s 0).cnt.meters.length then testTime s + BitVec.ofNat 64 n else 0) ∧
      (getPart (addMeter s 0 mTest n) 0).cnt.meters.length = (getPart s 0).cnt.meters.length := by
  have part : getPart (addMeter s 0 mTest n) 0 = { getPart s 0 with cnt := { (getPart s 0).cnt with meters := updAt (getPart s 0).cnt.meters mTest (· + BitVec.ofNat 64 n) } } :=
    getPart_updPart s 0 _ hp
  unfold testTime
  rw [part]
  refine ⟨?_, length_updAt _ _ _⟩
  dsimp only
  split
  · next h => exact updAt_getD_self _ _ _ _ h
  · next h => exact List.getD_eq_default _ _ (by rw [length_updAt]; omega)

/-- What `n` slices that pass leave of an engine's test: the pointer moved on, each counted, their time charged. -/
structure SlicesPassed (x n : Nat) (rs : List SliceRes) (s t : State) : Prop where
  engine : getEng t x = { getEng s x with ptr := slicePtr (goldenOf s uEngineSet).length (getEng s x).ptr n }
  keeps : EngKeeps x s t
  count : t.thermal.cnts.getD thPass 0 = satAdd (s.thermal.cnts.getD thPass 0) n
  time : testTime t = if mTest < (getPart s 0).cnt.meters.length then testTime s + BitVec.ofNat 64 ((rs.take n).map fun r => r.us.toNat).sum else 0
  frame : Same [.engines, .parts, .thermal] s t

/-- One slice that passes. -/
theorem slicePassed_effect (x us : Nat) {s : State} (hx : x < s.engines.length) (hp : 0 < s.parts.length) (hc : thPass < s.thermal.cnts.length) :
    getEng (thmCount (sliceMoved s x us) thPass 1) x = { getEng s x with ptr := ((getEng s x).ptr + 1) % max 1 (goldenOf s uEngineSet).length } ∧
      EngKeeps x s (thmCount (sliceMoved s x us) thPass 1) ∧
      (thmCount (sliceMoved s x us) thPass 1).thermal.cnts.getD thPass 0 = satAdd (s.thermal.cnts.getD thPass 0) 1 ∧
      (thmCount (sliceMoved s x us) thPass 1).thermal.cnts.length = s.thermal.cnts.length ∧
      testTime (thmCount (sliceMoved s x us) thPass 1) = (if mTest < (getPart s 0).cnt.meters.length then testTime s + BitVec.ofNat 64 us else 0) ∧
      (getPart (thmCount (sliceMoved s x us) thPass 1) 0).cnt.meters.length = (getPart s 0).cnt.meters.length ∧
      Same [.engines, .parts, .thermal] s (thmCount (sliceMoved s x us) thPass 1) := by
  obtain ⟨time, meters⟩ := testTime_addMeter (s := s) hp us
  have metered := (addMeter_keeps 0 mTest us (Keeps.rfl_ [.parts] s) (List.Subset.refl _)).same
  have golden : goldenOf (addMeter s 0 mTest us) uEngineSet = goldenOf s uEngineSet := rfl
  refine ⟨?_, ?_, updAt_getD_self _ _ _ _ hc, length_updAt _ _ _, time, meters, ?_⟩
  · exact getEng_updEng (addMeter s 0 mTest us) x _ hx
  · exact (EngKeeps.updEng (u := addMeter s 0 mTest us) ((EngKeeps.rfl_ x s).of_same metered) _).of_eq rfl
  · exact (thmCount_keeps thPass 1 (updEng_keeps x _ (addMeter_keeps 0 mTest us (Keeps.rfl_ [.engines, .parts, .thermal] s) (by decide)) (by decide)) (by decide)).same

theorem engineSlices_passed (x n : Nat) (rs : List SliceRes) {s : State} (hx : x < s.engines.length) (hp : 0 < s.parts.length) (hc : thPass < s.thermal.cnts.length)
    (hn : n ≤ (goldenOf s uEngineSet).length)
    (h : ∀ i, i < n → ∃ y, rs[i]? = some y ∧ y.sig = some (entryAt (goldenOf s uEngineSet) (slicePtr (goldenOf s uEngineSet).length (getEng s x).ptr i)).sig) :
    SlicesPassed x n rs s (engineSlices x n rs s).1 := by
  induction n generalizing rs s with
  | zero =>
    refine ⟨rfl, EngKeeps.rfl_ x s, (satAdd_zero _).symm, ?_, Same.rfl_ _ s⟩
    split
    · exact (BitVec.add_zero _).symm
    · next hm => exact List.getD_eq_default _ _ (Nat.not_lt.1 hm)
  | succ n ih =>
    obtain ⟨y, hy, sig⟩ := h 0 (Nat.succ_pos n)
    have head : rs.head?.getD ⟨none, none, 0⟩ = y := by rw [List.head?_eq_getElem?, hy, Option.getD_some]
    have cons : rs = y :: rs.drop 1 := by
      cases rs with
      | nil => cases hy
      | cons a l => rw [show a = y from Option.some.inj hy]; rfl
    have pos : max 1 (goldenOf s uEngineSet).length = (goldenOf s uEngineSet).length := Nat.max_eq_right (Nat.le_trans (Nat.succ_pos n) hn)
    rcases engineSlices_succ x s n rs with ⟨-, step⟩ | ⟨bad, -⟩
    · rw [step, head]
      obtain ⟨engine, keeps, count, counts, time, meters, frame⟩ := slicePassed_effect x y.us.toNat hx hp hc
      have golden : goldenOf (thmCount (sliceMoved s x y.us.toNat) thPass 1) uEngineSet = goldenOf s uEngineSet := rfl
      have parts : (thmCount (sliceMoved s x y.us.toNat) thPass 1).parts.length = s.parts.length := length_updAt _ _ _
      generalize thmCount (sliceMoved s x y.us.toNat) thPass 1 = v at *
      rw [pos] at engine
      have rest := ih (rs.drop 1) (s := v) (by rw [keeps.length]; exact hx) (by rw [parts]; exact hp) (by rw [counts]; exact hc) (by rw [golden]; exact Nat.le_of_succ_le hn)
        fun i hi => by
          obtain ⟨z, hz, zs⟩ := h (i + 1) (Nat.succ_lt_succ hi)
          refine ⟨z, ?_, ?_⟩
          · rw [List.getElem?_drop, Nat.add_comm 1]
            exact hz
          · rw [golden, engine, slicePtr_succ]
            exact zs
      refine ⟨?_, keeps.trans rest.keeps, ?_, ?_, (frame.trans rest.frame)⟩
      · rw [rest.engine, golden, engine, slicePtr_succ]
      · rw [rest.count, count, satAdd_satAdd, Nat.add_comm 1]
      · rw [rest.time, meters, time]
        split
        · rw [BitVec.add_assoc, ← BitVec.ofNat_add, cons, List.take_succ_cons, List.map_cons, List.sum_cons]
          rfl
        · rfl
    · rw [head] at bad
      exact absurd sig bad

end Sys2Proof.Machine
end

section
/-! Engines set aside, and the end of an engine's self-test (R191, R222). -/

set_option Elab.async false

namespace Sys2Proof.Machine

/-! ### Engines set aside (R191, R222) -/

/-- Whether an engine is fenced, failed, or under test. -/
def setAside (g : EngSt) : Bool × Bool × Bool := (g == .fenced, g == .failed, g == .testing)

/-- From `s` to `t` no engine is lost, and each keeps whether it is fenced, failed, or under test. -/
def AsideKept (s t : State) : Prop := t.engines.length = s.engines.length ∧ ∀ j, setAside (getEng t j).state = setAside (getEng s j).state

section
variable {s t u : State}

theorem AsideKept.rfl_ (s : State) : AsideKept s s := ⟨rfl, fun _ => rfl⟩

theorem AsideKept.trans (h : AsideKept s t) (g : AsideKept t u) : AsideKept s u := ⟨g.1.trans h.1, fun j => (g.2 j).trans (h.2 j)⟩

theorem AsideKept.of_same {l : List Fld} (h : AsideKept s t) (e : Same l t u) (hl : .engines ∉ l := by decide) : AsideKept s u :=
  h.trans ⟨congrArg List.length (e .engines hl), fun j => by rw [getEng_of_same e j hl]⟩

/-- A held engine that a sample gives back was not set aside, nor is it after. -/
theorem freeEngine_aside (h : AsideKept s t) (uid row e : Nat) : AsideKept s (freeEngine uid row t e) := by
  refine h.trans ⟨length_updAt _ _ _, fun j => ?_⟩
  by_cases hj : j = e
  · subst hj
    by_cases hlt : j < t.engines.length
    · rw [freeEngine, getEng_updEng t j _ hlt]
      split
      · next held =>
        rw [held]
        rfl
      · rfl
    · have same : getEng (freeEngine uid row t j) j = getEng t j := by
        unfold freeEngine getEng updEng updAt
        rw [List.modify_eq_self (by omega)]
      rw [same]
  · rw [freeEngine, getEng_updEng_ne t _ hj]

theorem endSample_aside (h : AsideKept s t) (uid row result cause : Nat) : AsideKept s (endSample t uid row result cause) :=
  endSample_ind_engines (P := AsideKept s) (fun v r hv => hv.of_same (addRec_same v r)) (fun _ _ hv e => hv.of_same e) (fun v x hv => hv.of_same (addInput_same v x))
    (fun _ uid row e hv => freeEngine_aside hv uid row e) h uid row result cause

end

/-- An engine that leaves the pool. -/
theorem engineOut_effect {s : State} {e : Nat} (he : e < s.engines.length) (st : EngSt) :
    getEng (engineOut s e st) e = { getEng (engineOut s e st) e with state := st, cols := [], fifo := [], rows := [] } ∧
      (∀ j, j ≠ e → setAside (getEng (engineOut s e st) j).state = setAside (getEng s j).state) ∧
      Same [.alert, .inputs, .cistern, .parts, .tiles, .ops, .tickets, .samples, .engines, .records, .early, .near, .rng] s (engineOut s e st) := by
  have ended : AsideKept s ((s.samples.filter fun x => x.engines.contains e || x.conf.contains e).foldl (fun s x => endSample s x.uid x.row rIncon 0x0C) s) :=
    List.foldlRecOn (motive := AsideKept s) _ _ (AsideKept.rfl_ s) fun v hv x _ => endSample_aside hv x.uid x.row rIncon 0x0C
  refine ⟨?_, fun j hj => ?_, (engineOut_keeps e st (Keeps.rfl_ _ s) (List.Subset.refl _)).same⟩
  · unfold engineOut
    dsimp only
    rw [getEng_updEng _ e _ (by rw [ended.1]; exact he)]
  · unfold engineOut
    dsimp only
    rw [getEng_updEng_ne _ _ hj]
    exact ended.2 j

theorem engSliceFail_count (s : State) (x : Nat) (e : GoldenEntry) (solid : Bool) (sig : W64) (us : W32) (hc : thFail < s.thermal.cnts.length) :
    (engSliceFail s x e solid sig us).thermal.cnts.getD thFail 0 = satAdd (s.thermal.cnts.getD thFail 0) 1 := by
  have recorded := addRec_same s (lbistRec s 0xFFFF 0 x e (if solid then lbSolid else lbFlaky) sig us) .thermal (by decide)
  refine (congrArg (fun t : Thermal => t.cnts.getD thFail 0) (addInput_same _ _ .thermal (by decide))).trans ?_
  refine (updAt_getD_self _ _ _ _ ?_).trans ?_
  · exact (congrArg (fun t : Thermal => t.cnts.length) recorded).symm ▸ hc
  · exact congrArg (fun t : Thermal => satAdd (t.cnts.getD thFail 0) 1) recorded

/-- A first slice that fails is counted (R436). -/
theorem engineSlices_failed {s : State} (x n : Nat) (rs : List SliceRes) (hc : thFail < s.thermal.cnts.length)
    (h : (rs.head?.getD ⟨none, none, 0⟩).sig ≠ some (entryAt (goldenOf s uEngineSet) (getEng s x).ptr).sig) :
    (engineSlices x (n + 1) rs s).1.thermal.cnts.getD thFail 0 = satAdd (s.thermal.cnts.getD thFail 0) 1 := by
  rw [engineSlices]
  dsimp only
  rw [if_neg h]
  have thermal (c : Prop) [Decidable c] (v : State) (r : Rec) : (if c then addRec v r else v).thermal = v.thermal := by
    split
    · exact addRec_same v r .thermal (by decide)
    · rfl
  refine (engSliceFail_count _ _ _ _ _ _ ?_).trans ?_
  · rw [thermal]
    exact hc
  · rw [thermal]
    rfl

/-! ### The end of an engine's test (R222, R431) -/

theorem exec_engineTestDone {s : State} {e : Nat} (r : EngineRun) (ht : (getEng s e).state = .testing) :
    exec (.engineTestDone e r) s = .next (if (engineTest s e r).2 then updEng (engineTest s e r).1 e fun g => { g with state := .free }
      else engineOut (engineTest s e r).1 e .failed) := congrArg Host.Outcome.next (if_pos ht)

theorem engineTestDone_passed {s : State} {e : Nat} {r : EngineRun} (he : e < s.engines.length) (ht : (getEng s e).state = .testing) (hr : r.passes = true)
    (hp : 0 < s.parts.length) (hc : s.thermal.cnts.length = 7)
    (h : ∀ i, i < (goldenOf s uEngineSet).length → ∃ x, r.slices[i]? = some x ∧
      x.sig = some (entryAt (goldenOf s uEngineSet) (slicePtr (goldenOf s uEngineSet).length (getEng s e).ptr i)).sig) :
    ∃ t, exec (.engineTestDone e r) s = .next t ∧
      getEng t e = { getEng s e with state := .free, ptr := slicePtr (goldenOf s uEngineSet).length (getEng s e).ptr (goldenOf s uEngineSet).length } ∧
      t.thermal.cnts.getD thPass 0 = satAdd (s.thermal.cnts.getD thPass 0) (goldenOf s uEngineSet).length ∧
      testTime t = (if mTest < (getPart s 0).cnt.meters.length then testTime s +
        BitVec.ofNat 64 (r.us.toNat + ((r.slices.take (goldenOf s uEngineSet).length).map fun x => x.us.toNat).sum) else 0) ∧
      (∀ j, j ≠ e → getEng t j = getEng s j) ∧ t = { s with engines := t.engines, parts := t.parts, thermal := t.thermal } := by
  have test : engineTest s e r = engineSlices e (goldenOf s uEngineSet).length r.slices (addMeter s 0 mTest r.us.toNat) := if_pos hr
  have passes : (engineTest s e r).2 = true := by
    rw [(engineTest_effect e r he).2, enginePasses, hr, Bool.true_and]
    exact slicesPass_of _ _ _ (Nat.le_refl _) h
  have run := (exec_engineTestDone r ht).trans (congrArg Host.Outcome.next (if_pos passes))
  rw [test] at run
  obtain ⟨time, meters⟩ := testTime_addMeter (s := s) hp r.us.toNat
  have charged := (addMeter_keeps 0 mTest r.us.toNat (Keeps.rfl_ [.parts] s) (List.Subset.refl _)).same
  have parts : (addMeter s 0 mTest r.us.toNat).parts.length = s.parts.length := length_updAt _ _ _
  have passed := engineSlices_passed e (goldenOf s uEngineSet).length r.slices (s := addMeter s 0 mTest r.us.toNat) he (by rw [parts]; exact hp)
    (by rw [show (addMeter s 0 mTest r.us.toNat).thermal = s.thermal from charged .thermal (by decide), hc]; decide) (Nat.le_refl _) h
  have golden : goldenOf (addMeter s 0 mTest r.us.toNat) uEngineSet = goldenOf s uEngineSet := rfl
  have own : getEng (addMeter s 0 mTest r.us.toNat) e = getEng s e := rfl
  have others (j : Nat) : getEng (addMeter s 0 mTest r.us.toNat) j = getEng s j := rfl
  have length : (addMeter s 0 mTest r.us.toNat).engines.length = s.engines.length := rfl
  have cnts : (addMeter s 0 mTest r.us.toNat).thermal = s.thermal := rfl
  generalize addMeter s 0 mTest r.us.toNat = u at *
  generalize (engineSlices e (goldenOf s uEngineSet).length r.slices u).1 = v at *
  refine ⟨_, run, ?_, ?_, ?_, fun j hj => (getEng_updEng_ne v _ hj).trans ((passed.keeps.other j hj).trans (others j)), ?_⟩
  · rw [getEng_updEng v e _ (by rw [passed.keeps.length, length]; exact he), passed.engine, golden, own]
  · exact passed.count.trans (by rw [cnts])
  · refine Eq.trans (b := testTime v) rfl (passed.time.trans ?_)
    rw [meters, time]
    split
    · rw [BitVec.add_assoc, ← BitVec.ofNat_add]
    · rfl
  · have freed := (updEng_keeps e (fun g => { g with state := .free }) (Keeps.rfl_ [.engines] v) (List.Subset.refl _)).same
    exact (((charged.mono (by decide)).trans passed.frame).trans (freed.mono (by decide))).frame

theorem engineTestDone_failed {s : State} {e : Nat} {r : EngineRun} (he : e < s.engines.length) (ht : (getEng s e).state = .testing)
    (h : r.passes = false ∨ (0 < (goldenOf s uEngineSet).length ∧ ∀ x, r.slices.head? = some x → x.sig ≠ some (entryAt (goldenOf s uEngineSet) (getEng s e).ptr).sig)) :
    ∃ t, exec (.engineTestDone e r) s = .next t ∧
      (r.passes = true → s.thermal.cnts.length = 7 → t.thermal.cnts.getD thFail 0 = satAdd (s.thermal.cnts.getD thFail 0) 1) ∧ (getEng t e).state = .failed ∧
      (getEng t e).cols = [] ∧ (getEng t e).rows = [] ∧ (∀ j, j ≠ e → setAside (getEng t j).state = setAside (getEng s j).state) ∧ t.cistern.data = s.cistern.data := by
  obtain ⟨keeps, verdict⟩ := engineTest_effect e r he
  have fails : (engineTest s e r).2 = false := by
    rw [verdict, enginePasses]
    rcases h with h | ⟨hpos, h⟩
    · rw [h, Bool.false_and]
    · rw [slicesPass_first hpos h, Bool.and_false]
  have run := (exec_engineTestDone r ht).trans (congrArg Host.Outcome.next (if_neg (by rw [fails]; decide)))
  have count : r.passes = true → s.thermal.cnts.length = 7 → (engineTest s e r).1.thermal.cnts.getD thFail 0 = satAdd (s.thermal.cnts.getD thFail 0) 1 := by
    intro hr hc
    rcases h with h | ⟨hpos, h⟩
    · rw [hr] at h
      cases h
    · obtain ⟨n, hn⟩ := Nat.exists_eq_succ_of_ne_zero (Nat.pos_iff_ne_zero.1 hpos)
      rw [show engineTest s e r = engineSlices e (goldenOf s uEngineSet).length r.slices (addMeter s 0 mTest r.us.toNat) from if_pos hr, hn]
      refine engineSlices_failed (s := addMeter s 0 mTest r.us.toNat) e n r.slices (show thFail < s.thermal.cnts.length by rw [hc]; decide) ?_
      cases hx : r.slices.head? with
      | none => exact (Option.some_ne_none _).symm
      | some x => exact h x hx
  have bytes : (engineTest s e r).1.cistern.data = s.cistern.data := (engineTest_keeps e r (Keeps.rfl_ _ s) (List.Subset.refl _)).same.bytes_eq.1
  generalize (engineTest s e r).1 = v at *
  obtain ⟨own, others, same⟩ := engineOut_effect (s := v) (e := e) (by rw [keeps.length]; exact he) .failed
  refine ⟨_, run, fun hr hc => ?_, congrArg Engine.state own, congrArg Engine.cols own, congrArg Engine.rows own, fun j hj => (others j hj).trans (by rw [keeps.other j hj]),
    same.bytes_eq.1.trans bytes⟩
  exact (congrArg (fun t : Thermal => t.cnts.getD thFail 0) (same .thermal (by decide))).trans (count hr hc)

/-- Engines of one `setAside` are fenced, failed and under test alike. -/
theorem setAside_iff {g k : EngSt} (h : setAside g = setAside k) : (g = .fenced ↔ k = .fenced) ∧ (g = .failed ↔ k = .failed) ∧ (g = .testing ↔ k = .testing) := by
  obtain ⟨fenced, failed, testing⟩ : (g == .fenced) = (k == .fenced) ∧ (g == .failed) = (k == .failed) ∧ (g == .testing) = (k == .testing) := by
    simpa only [setAside, Prod.mk.injEq] using h
  rw [← beq_iff_eq, ← beq_iff_eq (a := k), fenced, ← beq_iff_eq (a := g), ← beq_iff_eq (a := k) (b := .failed), failed, ← beq_iff_eq (a := g), ← beq_iff_eq (a := k) (b := .testing), testing]
  exact ⟨Iff.rfl, Iff.rfl, Iff.rfl⟩

/-- Settles O23: a row piece by its move, an engine's test by its slices taken one by one. -/
theorem engineRowsAndSelfTest : Obligations.EngineRowsAndSelfTest := by
  unfold Obligations.EngineRowsAndSelfTest
  refine ⟨⟨fun s e r rest uid row x o he hf hs hx ho hk hu => engineRow_effect he hf hs hx ho hk hu, fun s e r rest uid row x hf hs hx h => engineRow_waits hf hs hx h⟩,
    fun s e he h => engineSelfTest_effect he h, fun s e hf ht => engineSelfTest_idle hf ht, fun s e r he ht hr hp hc => ?_, fun s e r he ht h => ?_⟩
  · intro es at_ h
    exact engineTestDone_passed he ht hr hp hc h
  · obtain ⟨t, run, count, state, cols, rows, others, bytes⟩ := engineTestDone_failed he ht h
    exact ⟨t, run, count, state, cols, rows, fun j hj => setAside_iff (others j hj), bytes⟩

end Sys2Proof.Machine
end

section
/-! The replay counters, and the end of a sample (R191, R198, R199). -/

set_option Elab.async false

namespace Sys2Proof.Machine

/-! ### The replay counters of a partition (R199) -/

/-- The RPL block of a partition. -/
def rplOf (s : State) (p : Nat) : List W32 := (getPart s p).cnt.rpl

/-- From `s` to `t` no partition and no counter is lost, and of the RPL blocks only the words that `l` lists may change. -/
structure RplKept (l : List Nat) (s t : State) : Prop where
  parts : t.parts.length = s.parts.length
  length : ∀ p, (rplOf t p).length = (rplOf s p).length
  word : ∀ p k, k ∉ l → (rplOf t p).getD k 0 = (rplOf s p).getD k 0

section
variable {l : List Nat} {s t u : State}

theorem RplKept.of_rpl (hp : t.parts.length = s.parts.length) (h : ∀ p, rplOf t p = rplOf s p) : RplKept l s t := ⟨hp, fun p => by rw [h], fun p k _ => by rw [h]⟩

theorem RplKept.rfl_ (s : State) : RplKept l s s := .of_rpl rfl fun _ => rfl

theorem RplKept.trans (h : RplKept l s t) (g : RplKept l t u) : RplKept l s u :=
  ⟨g.parts.trans h.parts, fun p => (g.length p).trans (h.length p), fun p k hk => (g.word p k hk).trans (h.word p k hk)⟩

theorem RplKept.mono {m : List Nat} (h : RplKept l s t) (hm : l ⊆ m) : RplKept m s t := ⟨h.parts, h.length, fun p k hk => h.word p k fun hl => hk (hm hl)⟩

theorem RplKept.of_same {f : List Fld} (h : RplKept l s t) (e : Same f t u) (hf : .parts ∉ f := by decide) : RplKept l s u :=
  h.trans (.of_rpl (congrArg List.length (e .parts hf)) fun p => congrArg (fun q : List Part => (q.getD p Part.reset).cnt.rpl) (e .parts hf))

theorem RplKept.of_keeps (h : RplKept l s t) (f : List Fld) (e : Keeps f t u) (hf : .parts ∉ f := by decide) : RplKept l s u := h.of_same e.same hf

theorem RplKept.updPart (h : RplKept l s t) (p : Nat) (f : Part → Part) (hf : ∀ q, (f q).cnt.rpl = q.cnt.rpl) : RplKept l s (updPart t p f) :=
  h.trans (.of_rpl (length_updAt _ _ _) fun q => getPart_updPart_proj (fun x => x.cnt.rpl) t p q f hf)

theorem RplKept.updCnt (h : RplKept l s t) (p : Nat) (f : PartCnt → PartCnt) (hf : ∀ c, (f c).rpl = c.rpl) : RplKept l s (updCnt t p f) := h.updPart p _ fun _ => hf _

theorem addRec_rpl (h : RplKept l s t) (r : Rec) : RplKept l s (addRec t r) := by
  have used (v : State) (hv : RplKept l s v) (p n : Nat) : RplKept l s (addUse v p n) := hv.updCnt p _ fun _ => rfl
  unfold addRec
  split
  · exact h.trans (.of_rpl rfl fun _ => rfl)
  · split
    · exact (used t h _ _).trans (.of_rpl rfl fun _ => rfl)
    · have refused : RplKept l s (refuseQuota t r.part) := h.updCnt _ _ fun _ => rfl
      dsimp only
      split
      · exact (used _ refused _ _).trans (.of_rpl rfl fun _ => rfl)
      · exact refused.trans (.of_rpl rfl fun _ => rfl)

theorem addRpl_rpl (h : RplKept l s t) (p k n : Nat) (hk : k ∈ l) : RplKept l s (addRpl t p k n) := by
  refine h.trans ⟨length_updAt _ _ _, fun q => ?_, fun q j hj => ?_⟩
  · refine getPart_updPart_proj (fun x => x.cnt.rpl.length) t p q _ fun x => ?_
    exact length_updAt x.cnt.rpl k fun v => satAdd v n
  · refine getPart_updPart_proj (fun x => x.cnt.rpl.getD j 0) t p q _ fun x => ?_
    exact updAt_getD_ne x.cnt.rpl (fun v => satAdd v n) 0 fun e : j = k => hj (e.symm ▸ hk)

/-- A word of the RPL block that counts. -/
theorem addRpl_word {p k : Nat} (hp : p < s.parts.length) (hk : k < (rplOf s p).length) (n : Nat) :
    (rplOf (addRpl s p k n) p).getD k 0 = satAdd ((rplOf s p).getD k 0) n := by
  have part : getPart (addRpl s p k n) p = _ := getPart_updPart s p _ hp
  unfold rplOf
  rw [part]
  exact updAt_getD_self _ _ _ _ hk

theorem openTag_rpl (h : RplKept l s t) (p : Nat) (a b : W16) : RplKept l s (openTag t p a b) := by
  have used (n : Nat) : RplKept l s (addUse t p n) := h.updCnt p _ fun _ => rfl
  unfold openTag
  dsimp only
  split
  · exact h
  · split
    · exact h
    · split
      · exact (used 2).updPart p (fun x => { x with tags := x.tags ++ [TagEnt.fresh a b] }) fun _ => rfl
      · exact h.updCnt p _ fun _ => by rfl

theorem chargeTag_rpl (h : RplKept l s t) (o : OpV) (f : TagEnt → TagEnt) : RplKept l s (chargeTag t o f) := (openTag_rpl h _ _ _).updPart _ _ fun _ => rfl

theorem addMeter_rpl (h : RplKept l s t) (p k n : Nat) : RplKept l s (addMeter t p k n) := h.updCnt p _ fun _ => rfl

theorem chargeSample_rpl (h : RplKept l s t) (x : Sample) (o : OpV) (result : Nat) : RplKept l s (chargeSample t x o result) := by
  have charged (f : TagEnt → TagEnt) := chargeTag_rpl (addMeter_rpl (addMeter_rpl h x.part mBit x.prods) x.part mExact x.xprods) o f
  unfold chargeSample
  dsimp only
  split
  · exact addMeter_rpl (charged _) _ _ _
  · exact charged _

theorem finalize_rpl (h : RplKept l s t) (i : Nat) : RplKept l s (finalize t i) := by
  unfold finalize
  refine onOp_ind h fun o _ => ?_
  have freed (f : OpV → OpV) : RplKept l s (updOp (freeTicket t i) i f) :=
    h.of_keeps [.ops, .tickets] (updOp_keeps i f (freeTicket_keeps i (Keeps.rfl_ _ t) (List.Subset.refl _)) (by decide))
  have counts : RplKept l s (if (opFused o).1 = vMirage then Machine.updCnt (updOp (freeTicket t i) i fun x => { x with state := .final, verdict := (opFused o).1, mm := 0 }) o.part fun c =>
        { c with mirage := satInc c.mirage }
      else if (opFused o).1 = vSuspect then Machine.updCnt (updOp (freeTicket t i) i fun x => { x with state := .final, verdict := (opFused o).1, mm := 0 }) o.part fun c =>
        { c with suspect := satInc c.suspect }
      else updOp (freeTicket t i) i fun x => { x with state := .final, verdict := (opFused o).1, mm := 0 }) := by
    split
    · exact (freed _).updCnt _ _ fun _ => rfl
    · split
      · exact (freed _).updCnt _ _ fun _ => rfl
      · exact freed _
  dsimp only
  split
  · exact counts
  · exact addRec_rpl counts _

theorem settle_rpl (h : RplKept l s t) (i : Nat) : RplKept l s (settle t i) := by
  have upd {v : State} (hv : RplKept l s v) (j : Nat) (f : OpV → OpV) : RplKept l s (updOp v j f) := hv.of_keeps [.ops] (updOp_keeps j f (Keeps.rfl_ _ v) (List.Subset.refl _))
  unfold settle
  refine onOp_ind h fun o _ => ?_
  split
  · exact h
  · exact h
  · split
    · refine finalize_rpl ?_ i
      split
      · exact upd (upd h _ _) _ _
      · exact upd h _ _
    · dsimp only
      split
      · exact finalize_rpl h i
      · split
        · exact upd h _ _
        · exact h

/-! ### The end of a sample (R191, R198) -/

/-- The words that a result counts in. -/
def resultWord (result : Nat) : Nat := match result with
  | 0 => 1 | 1 => 2 | 2 => 3 | 3 => 4 | 4 => 5 | 5 => 6 | _ => 7

theorem countRpl_eq (s : State) (p result cause : Nat) : countRpl s p result cause =
    if result = rSkipped then addDeficit (addRpl (addRpl s p (resultWord result) 1) p (8 + (cause - 0x20)) 1) p 1 else addRpl s p (resultWord result) 1 := rfl

/-- The state of a sample's end before its result is counted. -/
def sampleCharged (s : State) (x : Sample) (o : OpV) (result cause : Nat) : State :=
  let v := addRec s (rplvRec s x o (x.state = .confirming) result cause)
  chargeSample { v with rng := v.rng + 1 } x o result

/-- What follows the count of a sample's result, to the settling of its operation. -/
def sampleFreed (s : State) (x : Sample) (o : OpV) (uid row result cause : Nat) : State :=
  let s4 := (x.engines ++ x.conf).foldl (freeEngine uid row) (replayInput s o row result cause)
  let s5 := freeWitness { s4 with samples := s4.samples.filter fun y => !(y.uid == uid && y.row == row) } x result cause
  let s6 := if x.unchecked = 0 then s5 else addRpl (addDeficit s5 x.part x.unchecked) x.part 14 x.unchecked
  let s7 := if result = rPass then watchPass s6 x.spire else s6
  updOp s7 uid fun p => { p with
    samplesOpen := p.samplesOpen - 1, mm := if x.state = .confirming then p.mm - 1 else p.mm,
    skipped := if result = rSkipped then p.skipped + 1 else p.skipped,
    replay := worse p.replay (replayVerdict result),
    disagree := p.disagree || (result == rIncon && cause == 0x0B) }

theorem endSample_eq {x : Sample} {o : OpV} {uid row : Nat} (hx : getSample s uid row = some x) (ho : getOp s uid = some o) (result cause : Nat) :
    endSample s uid row result cause = settle (sampleFreed (countRpl (sampleCharged s x o result cause) x.part result cause) x o uid row result cause) uid := by
  unfold endSample
  rw [hx]
  dsimp only
  rw [onOp_some ho]
  unfold sampleFreed sampleCharged
  dsimp only

theorem sampleCharged_rpl (s : State) (x : Sample) (o : OpV) (result cause : Nat) : RplKept [] s (sampleCharged s x o result cause) := by
  have recorded : RplKept [] s (addRec s (rplvRec s x o (x.state = .confirming) result cause)) := addRec_rpl (RplKept.rfl_ s) _
  unfold sampleCharged
  generalize addRec s (rplvRec s x o (x.state = .confirming) result cause) = v at recorded ⊢
  dsimp only
  exact chargeSample_rpl (t := { v with rng := v.rng + 1 }) (recorded.trans (.of_rpl rfl fun _ => rfl)) x o result

theorem replayInput_same (s : State) (o : OpV) (row result cause : Nat) : Same [.inputs] s (replayInput s o row result cause) :=
  (replayInput_keeps o row result cause (Keeps.rfl_ _ s) (List.Subset.refl _)).same

theorem freeEngines_same (uid row : Nat) (l : List Nat) (s : State) : Same [.engines] s (l.foldl (freeEngine uid row) s) :=
  List.foldlRecOn (motive := fun t => Same [.engines] s t) _ _ (Same.rfl_ _ s)
    fun t ht e _ => ht.trans (freeEngine_keeps uid row e (Keeps.rfl_ _ t) (List.Subset.refl _)).same

theorem freeWitness_rpl (h : RplKept l s t) (x : Sample) (result cause : Nat) : RplKept l s (freeWitness t x result cause) := by
  have used : RplKept l s (subUse t x.part x.lines) := h.updCnt x.part (fun c => { c with cisUse := BitVec.ofNat 32 (c.cisUse.toNat - x.lines) }) fun _ => rfl
  unfold freeWitness
  dsimp only
  split
  · exact used.of_keeps [.near] (nearPush_keeps _ (Keeps.rfl_ _ _) (List.Subset.refl _))
  · exact used

theorem sampleFreed_rpl (s : State) (x : Sample) (o : OpV) (uid row result cause : Nat) : RplKept [14] s (sampleFreed s x o uid row result cause) := by
  have freed : RplKept [14] s ((x.engines ++ x.conf).foldl (freeEngine uid row) (replayInput s o row result cause)) :=
    ((RplKept.rfl_ s).of_same (replayInput_same s o row result cause)).of_same (freeEngines_same uid row _ _)
  unfold sampleFreed
  generalize (x.engines ++ x.conf).foldl (freeEngine uid row) (replayInput s o row result cause) = a at freed ⊢
  dsimp only
  have witness := freeWitness_rpl (t := { a with samples := a.samples.filter fun y => !(y.uid == uid && y.row == row) }) (freed.trans (.of_rpl rfl fun _ => rfl)) x result cause
  generalize freeWitness { a with samples := a.samples.filter fun y => !(y.uid == uid && y.row == row) } x result cause = b at witness ⊢
  have deficit : RplKept [14] s (if x.unchecked = 0 then b else addRpl (addDeficit b x.part x.unchecked) x.part 14 x.unchecked) := by
    split
    · exact witness
    · exact addRpl_rpl (t := addDeficit b x.part x.unchecked) (witness.updCnt x.part _ fun _ => by rfl) _ _ _ (List.mem_singleton.2 rfl)
  generalize (if x.unchecked = 0 then b else addRpl (addDeficit b x.part x.unchecked) x.part 14 x.unchecked) = c at deficit ⊢
  refine RplKept.of_keeps ?_ [.ops] (updOp_keeps _ _ (Keeps.rfl_ _ _) (List.Subset.refl _))
  split
  · exact deficit.of_keeps [.tiles] (watchPass_keeps _ (Keeps.rfl_ _ _) (List.Subset.refl _))
  · exact deficit

/-- The counters at a sample's end: the result is counted between two parts that leave its words. -/
theorem endSample_rpl {x : Sample} {o : OpV} {uid row : Nat} (hx : getSample s uid row = some x) (ho : getOp s uid = some o) (result cause : Nat) :
    ∃ u, RplKept [] s u ∧ RplKept [14] (countRpl u x.part result cause) (endSample s uid row result cause) := by
  rw [endSample_eq hx ho]
  exact ⟨_, sampleCharged_rpl s x o result cause, settle_rpl (sampleFreed_rpl _ x o uid row result cause) uid⟩

/-- A result that is not SKIPPED counts once, in its word. -/
theorem endSample_counts {x : Sample} {o : OpV} {uid row result cause : Nat} (hx : getSample s uid row = some x) (ho : getOp s uid = some o)
    (hr : result ≠ rSkipped) (hp : x.part < s.parts.length) (hl : (rplOf s x.part).length = 15) (hw : resultWord result < 14) :
    (rplOf (endSample s uid row result cause) x.part).getD (resultWord result) 0 = satAdd ((rplOf s x.part).getD (resultWord result) 0) 1 := by
  obtain ⟨u, before, after⟩ := endSample_rpl hx ho result cause
  rw [countRpl_eq, if_neg hr] at after
  rw [after.word _ _ (by simpa using Nat.ne_of_lt hw), addRpl_word (before.parts ▸ hp) (by rw [before.length, hl]; omega), before.word _ _ (List.not_mem_nil)]

/-- A SKIPPED sample counts in word 7 and in its cause's word. -/
theorem endSample_skipped {x : Sample} {o : OpV} {uid row cause : Nat} (hx : getSample s uid row = some x) (ho : getOp s uid = some o)
    (hp : x.part < s.parts.length) (hl : (rplOf s x.part).length = 15) (hc : cause - 0x20 < 6) (k : Nat) (hk : k = 7 ∨ k = 8 + (cause - 0x20)) :
    (rplOf (endSample s uid row rSkipped cause) x.part).getD k 0 = satAdd ((rplOf s x.part).getD k 0) 1 := by
  obtain ⟨u, before, after⟩ := endSample_rpl hx ho rSkipped cause
  rw [countRpl_eq, if_pos rfl] at after
  have hup : x.part < u.parts.length := before.parts ▸ hp
  have hul : (rplOf u x.part).length = 15 := (before.length _).trans hl
  have first : RplKept [7] u (addRpl u x.part (resultWord rSkipped) 1) := addRpl_rpl (RplKept.rfl_ u) _ _ _ (by decide)
  generalize hv : addRpl u x.part (resultWord rSkipped) 1 = v at after first
  have second : RplKept [8 + (cause - 0x20)] v (addRpl v x.part (8 + (cause - 0x20)) 1) := addRpl_rpl (RplKept.rfl_ v) _ _ _ (List.mem_singleton.2 rfl)
  have deficit : RplKept [] (addRpl v x.part (8 + (cause - 0x20)) 1) (addDeficit (addRpl v x.part (8 + (cause - 0x20)) 1) x.part 1) :=
    (RplKept.rfl_ _).updCnt _ _ fun _ => rfl
  rw [after.word _ _ (by simp; omega), deficit.word _ _ List.not_mem_nil]
  rcases hk with rfl | rfl
  · rw [second.word _ _ (by simp; omega), ← hv]
    refine (addRpl_word hup (by rw [hul]; decide) 1).trans ?_
    rw [before.word _ _ List.not_mem_nil]
    rfl
  · rw [addRpl_word (first.parts ▸ hup) (by rw [first.length, hul]; omega), first.word _ _ (by simp; omega), before.word _ _ List.not_mem_nil]

theorem sampleFreed_samples (s : State) (x : Sample) (o : OpV) (uid row result cause : Nat) :
    (sampleFreed s x o uid row result cause).samples = s.samples.filter fun y => !(y.uid == uid && y.row == row) := by
  have freed : ((x.engines ++ x.conf).foldl (freeEngine uid row) (replayInput s o row result cause)).samples = s.samples :=
    ((freeEngines_same uid row _ _) .samples (by decide)).trans (replayInput_same s o row result cause .samples (by decide))
  unfold sampleFreed
  generalize (x.engines ++ x.conf).foldl (freeEngine uid row) (replayInput s o row result cause) = a at freed ⊢
  dsimp only
  rw [← freed]
  have witness : (freeWitness { a with samples := a.samples.filter fun y => !(y.uid == uid && y.row == row) } x result cause).samples =
      a.samples.filter fun y => !(y.uid == uid && y.row == row) :=
    (freeWitness_keeps x result cause (Keeps.rfl_ _ _) (List.Subset.refl _)).same .samples (by decide)
  generalize freeWitness { a with samples := a.samples.filter fun y => !(y.uid == uid && y.row == row) } x result cause = b at witness ⊢
  refine ((updOp_keeps _ _ (Keeps.rfl_ _ _) (List.Subset.refl _)).same .samples (by decide)).trans ?_
  have deficit : (if x.unchecked = 0 then b else addRpl (addDeficit b x.part x.unchecked) x.part 14 x.unchecked).samples = b.samples := by split <;> rfl
  refine Eq.trans ?_ (deficit.trans witness)
  generalize (if x.unchecked = 0 then b else addRpl (addDeficit b x.part x.unchecked) x.part 14 x.unchecked) = c
  split <;> rfl

/-- The sample that ends stands nowhere, and every other stands as it was. -/
theorem endSample_samples {x : Sample} {o : OpV} {uid row : Nat} (hx : getSample s uid row = some x) (ho : getOp s uid = some o) (result cause : Nat) :
    (endSample s uid row result cause).samples = s.samples.filter fun y => !(y.uid == uid && y.row == row) := by
  rw [endSample_eq hx ho]
  have settled (v : State) : (settle v uid).samples = v.samples := (settle_keeps uid (Keeps.rfl_ _ v) (List.Subset.refl _)).same .samples (by decide)
  have charged : (sampleCharged s x o result cause).samples = s.samples := by
    refine ((chargeSample_keeps x o result (Keeps.rfl_ _ _) (List.Subset.refl _)).same .samples (by decide)).trans ?_
    exact (addRec_keeps _ (Keeps.rfl_ _ s) (List.Subset.refl _)).same .samples (by decide)
  have counted := (countRpl_keeps x.part result cause (Keeps.rfl_ _ (sampleCharged s x o result cause)) (List.Subset.refl _)).same .samples (by decide)
  rw [settled, sampleFreed_samples, counted, charged]

end
end Sys2Proof.Machine
end

section
/-! Sample notices and the parts of a witness (R168 to R175, R183). -/

set_option Elab.async false

namespace Sys2Proof.Machine

/-! ### Samples that are looked up, changed and placed (R174, R175) -/

/-- A look-up of a sample of a list, as `getSample` does it. -/
theorem getSample_samples {s t : State} (h : t.samples = s.samples) (uid row : Nat) : getSample t uid row = getSample s uid row := congrArg (List.find? _) h

theorem getSample_of_same {s t : State} {l : List Fld} (h : Same l s t) (uid row : Nat) (hl : .samples ∉ l := by decide) :
    getSample t uid row = getSample s uid row := getSample_samples (h .samples hl) uid row

theorem getSample_key {s : State} {uid row : Nat} {x : Sample} (h : getSample s uid row = some x) : x.uid = uid ∧ x.row = row := by
  simpa using List.find?_some h

/-- A change that keeps a sample's key is what the look-up of that sample answers. -/
theorem getSample_updSample {s : State} {uid row : Nat} {x : Sample} (h : getSample s uid row = some x) (f : Sample → Sample)
    (hf : ∀ y, y.uid = uid → y.row = row → (f y).uid = uid ∧ (f y).row = row) : getSample (updSample s uid row f) uid row = some (f x) := by
  have keeps : ((fun y : Sample => y.uid == uid && y.row == row) ∘ fun y => if y.uid = uid ∧ y.row = row then f y else y) =
      fun y : Sample => y.uid == uid && y.row == row := by
    funext y
    dsimp only [Function.comp_apply]
    split
    · next key =>
      obtain ⟨hu, hr⟩ := hf y key.1 key.2
      rw [hu, hr, key.1, key.2]
    · rfl
  rw [getSample, updSample, List.find?_map, keeps]
  have found : s.samples.find? (fun y => y.uid == uid && y.row == row) = some x := h
  rw [found, Option.map_some, if_pos (getSample_key h)]

/-- A sample that ended stands nowhere. -/
theorem endSample_getSample {s : State} {x : Sample} {o : OpV} {uid row : Nat} (hx : getSample s uid row = some x) (ho : getOp s uid = some o) (result cause : Nat) :
    getSample (endSample s uid row result cause) uid row = none := by
  rw [getSample, endSample_samples hx ho, List.find?_eq_none]
  intro y hy
  have other := (List.mem_filter.1 hy).2
  rw [Bool.not_eq_true]
  exact Bool.not_eq_true' _ ▸ other

/-! ### Where only one sample stands -/

section
variable {s : State} {x y : Sample}

theorem promote_none (h : s.samples = []) : promote s = s := by
  rw [promote, h]
  rfl

/-- A sample alone is armed, or waits as it was. -/
theorem armIfRoom_alone (h : s.samples = [x]) :
    ∃ y, (armIfRoom s x).samples = [y] ∧ (y = x ∨ ∃ i, y = { x with slot := some i, state := .armed }) := by
  unfold armIfRoom
  split
  · next i _ =>
    split
    · exact ⟨_, by rw [updSample, h, List.map_singleton, if_pos ⟨rfl, rfl⟩], .inr ⟨i, rfl⟩⟩
    · exact ⟨x, h, .inl rfl⟩
  · exact ⟨x, h, .inl rfl⟩

theorem armIfRoom_same (s : State) (x : Sample) : Same [.samples] s (armIfRoom s x) := (armIfRoom_keeps x (Keeps.rfl_ _ s) (List.Subset.refl _)).same

/-- A sample that waits alone takes over no slot. -/
theorem takeOver_alone (h : s.samples = [x]) (hq : x.state ≠ .armed) : takeOver s x = s := by
  have none_ : (x.state == SampSt.armed) = false := beq_eq_false_iff_ne.2 hq
  unfold takeOver
  dsimp only
  rw [h, List.filter_singleton, none_, Bool.and_false]
  rfl

/-- A sample alone overflows nothing, where its partition has a queue quota. -/
theorem overflowing_alone (h : s.samples = [x]) (hq : 0 < ((partCfg s x.part).map (·.ovfQuota)).getD 0) : overflowing s = [] := by
  have room : ¬ 1 > Config.ovfEntries := by decide
  unfold overflowing
  dsimp only
  rw [h, List.filter_singleton]
  cases hs : x.slot.isNone with
  | false => rfl
  | true =>
    have full : (decide (1 > Config.ovfEntries) || decide (1 > ((partCfg s x.part).map (·.ovfQuota)).getD 0)) = false := by
      rw [decide_eq_false room, decide_eq_false (by omega)]
      rfl
    have length : ([x].filter fun z => z.part == x.part).length = 1 := by rw [List.filter_singleton, beq_self_eq_true]; rfl
    simp only [cond_true, List.length_singleton, List.filter_singleton, beq_self_eq_true, full, cond_false]
    rfl

end

/-! ### SAMPLE_NOTICE (R174, R175) -/

/-- The state in which a notice's sample `x` stands, armed where a slot is free, before it is judged. -/
def noticed (s : State) (o : OpV) (x : Sample) : State :=
  armIfRoom { chargeTag (addRpl (promote s) o.part 0 1) o fun e => { e with counts := addAt e.counts 10 1 } with
    samples := placeSample (chargeTag (addRpl (promote s) o.part 0 1) o fun e => { e with counts := addAt e.counts 10 1 }).samples x } x

section
variable {s : State} {sp i uid row kind win : Nat} {tk : W64} {o : OpV}

theorem exec_sampleNotice (h : nextMsg s (isNotice sp) = some (.notice i uid row kind win tk)) :
    exec (.sampleNotice sp) s = .next (noticeIn (leave s (.notice i uid row kind win tk)) i uid row kind win tk) := by
  change execSampleNotice sp s = _
  unfold execSampleNotice
  rw [takeMsg_some h]

theorem sampleNotice_effect (h : nextMsg s (isNotice sp) = some (.notice i uid row kind win tk)) :
    ∃ t, exec (.sampleNotice sp) s = .next t ∧ t.caravan.flight = s.caravan.flight.erase (.notice i uid row kind win tk) ∧ t.cistern.data = s.cistern.data := by
  obtain ⟨t, run, keeps⟩ := execSampleNotice_keeps sp (Keeps.rfl_ _ s) (List.Subset.refl _)
  obtain rfl := Host.Outcome.next.inj ((exec_sampleNotice h).symm.trans run)
  exact ⟨_, run, flightOf_of_same (noticeIn_keeps i uid row kind win tk (Keeps.rfl_ _ _) (List.Subset.refl _)).same, keeps.same.bytes_eq.1⟩

/-- Of a LATE operation only the message is taken. -/
theorem sampleNotice_late (h : nextMsg s (isNotice sp) = some (.notice i uid row kind win tk)) (ho : getOp s uid = some o) (hl : o.late = true) :
    ∃ t, exec (.sampleNotice sp) s = .next t ∧ t.caravan.flight = s.caravan.flight.erase (.notice i uid row kind win tk) ∧
      t = { s with caravan := t.caravan, spires := t.spires } := by
  obtain ⟨left, flight, -⟩ := leave_effect s (.notice i uid row kind win tk)
  refine ⟨leave s (.notice i uid row kind win tk), (exec_sampleNotice h).trans (congrArg Host.Outcome.next ?_), flight, left.frame⟩
  have op := (getOp_of_same left uid).trans ho
  rw [noticeIn, onOp_some op, if_pos (Or.inl hl)]

theorem noticed_same (s : State) (o : OpV) (x : Sample) : Same [.parts, .samples] s (noticed s o x) := by
  have charged : Same [.samples, .parts] s (chargeTag (addRpl (promote s) o.part 0 1) o fun e => { e with counts := addAt e.counts 10 1 }) :=
    (chargeTag_keeps _ _ (addRpl_keeps _ _ _ (promote_keeps (Keeps.rfl_ _ s) (by decide)) (by decide)) (by decide)).same
  unfold noticed
  generalize chargeTag (addRpl (promote s) o.part 0 1) o (fun e => { e with counts := addAt e.counts 10 1 }) = v at charged ⊢
  refine (Same.trans (charged.mono (by decide)) ?_).trans ((armIfRoom_same _ x).mono (by decide))
  intro f hf
  cases f with
  | samples => exact absurd (by decide) hf
  | _ => rfl

theorem noticed_alone (hs : s.samples = []) (o : OpV) (x : Sample) :
    ∃ y, (noticed s o x).samples = [y] ∧ (y = x ∨ ∃ i, y = { x with slot := some i, state := .armed }) := by
  have charged : (chargeTag (addRpl (promote s) o.part 0 1) o fun e => { e with counts := addAt e.counts 10 1 }).samples = [] := by
    refine ((chargeTag_keeps _ _ (addRpl_keeps _ _ _ (Keeps.rfl_ [.parts] (promote s)) (by decide)) (by decide)).same .samples (by decide) :).trans ?_
    rw [promote_none hs]
    exact hs
  unfold noticed
  generalize chargeTag (addRpl (promote s) o.part 0 1) o (fun e => { e with counts := addAt e.counts 10 1 }) = v at charged ⊢
  refine armIfRoom_alone ?_
  dsimp only
  rw [charged]
  rfl

theorem noticed_rpl (s : State) (o : OpV) (x : Sample) : RplKept [0] s (noticed s o x) := by
  have promoted : RplKept [0] s (promote s) := (RplKept.rfl_ s).of_keeps [.samples] (promote_keeps (Keeps.rfl_ _ s) (List.Subset.refl _))
  have charged : RplKept [0] s (chargeTag (addRpl (promote s) o.part 0 1) o fun e => { e with counts := addAt e.counts 10 1 }) :=
    chargeTag_rpl (addRpl_rpl promoted o.part 0 1 (by decide)) o _
  unfold noticed
  generalize chargeTag (addRpl (promote s) o.part 0 1) o (fun e => { e with counts := addAt e.counts 10 1 }) = v at charged ⊢
  exact RplKept.of_same (t := { v with samples := placeSample v.samples x }) (charged.trans (.of_rpl rfl fun _ => rfl)) (armIfRoom_same _ x)

/-- A notice of an operation that may be sampled, outside a Keep warm reset, of a tile that is not DEAD, with the replay unit in service. -/
theorem noticeIn_judged (ho : getOp s uid = some o) (hl : o.late = false) (hf : o.state ≠ .final) (hd : stateOf s i ≠ stDead) (hu : inSafe s uRpl = false)
    (hk : s.keep.kwrDown = false) : noticeIn s i uid row kind win tk =
    if crossedBefore s (newSample s o i row kind win tk) then endSample (noticed s o (newSample s o i row kind win tk)) uid row rSkipped 0x23
    else
      let s2 := noticed s o (newSample s o i row kind win tk)
      let s3 := if ((getSample s2 uid row).map fun x => x.slot.isSome).getD false then s2 else takeOver s2 (newSample s o i row kind win tk)
      (overflowing s3).foldl (fun s y => endSample s y.uid y.row rSkipped 0x20) s3 := by
  have not_withdrawn : ¬ (o.late = true ∨ o.state = .final) := by simp [hl, hf]
  unfold noticeIn
  rw [onOp_some ho, if_neg not_withdrawn]
  dsimp only
  rw [if_neg (by simp [hk]), if_neg hd, if_neg (by simp [hu])]
  rfl

/-- What the judgement of a notice asks of the state is as it was before the message left. -/
theorem noticed_before {u : State} (left : Same [.spires, .caravan] s u) :
    newSample u o i row kind win tk = newSample s o i row kind win tk ∧ stateOf u i = stateOf s i ∧ inSafe u uRpl = inSafe s uRpl ∧
      u.keep.kwrDown = s.keep.kwrDown ∧ partCfg u = partCfg s ∧
      crossedBefore u (newSample s o i row kind win tk) = crossedBefore s (newSample s o i row kind win tk) := by
  refine ⟨?_, ?_, ?_, ?_, ?_, ?_⟩
  · rw [newSample, newSample, belfryNo, belfryNo, left.time_eq]
  · rw [stateOf_eq_map, stateOf_eq_map, getTile_of_tiles (left .tiles (by decide))]
  · exact inSafe_of_same left uRpl
  · rw [left.keep_eq]
  · funext p
    rw [partCfg, partCfg, left.image_eq]
  · rw [crossedBefore, crossedBefore, show _ = s.streams from left .streams (by decide)]

theorem sampleNotice_crossed (h : nextMsg s (isNotice sp) = some (.notice i uid row kind win tk)) (ho : getOp s uid = some o) (hl : o.late = false)
    (hf : o.state ≠ .final) (hd : stateOf s i ≠ stDead) (hu : inSafe s uRpl = false) (hs : s.samples = []) (hk : s.keep.kwrDown = false)
    (hc : crossedBefore s (newSample s o i row kind win tk) = true) (hp : o.part < s.parts.length) (hr : (rplOf s o.part).length = 15) :
    ∃ t, exec (.sampleNotice sp) s = .next t ∧ t.samples = [] ∧ (rplOf t o.part).getD 7 0 = satAdd ((rplOf s o.part).getD 7 0) 1 ∧
      (rplOf t o.part).getD 11 0 = satAdd ((rplOf s o.part).getD 11 0) 1 ∧ t.cistern.data = s.cistern.data := by
  obtain ⟨t, run, -, bytes⟩ := sampleNotice_effect h
  obtain ⟨left, -, -⟩ := leave_effect s (.notice i uid row kind win tk)
  have closed := exec_sampleNotice h
  generalize leave s (.notice i uid row kind win tk) = u at left closed
  obtain ⟨new, tile, unit, down, -, crossed⟩ := noticed_before (o := o) (i := i) (row := row) (kind := kind) (win := win) (tk := tk) left
  have op := (getOp_of_same left uid).trans ho
  rw [noticeIn_judged op hl hf (tile ▸ hd) (unit ▸ hu) (down ▸ hk), new, crossed, if_pos hc] at closed
  obtain rfl := Host.Outcome.next.inj (closed.symm.trans run)
  obtain ⟨y, alone, hy⟩ := noticed_alone ((left .samples (by decide)).trans hs) o (newSample s o i row kind win tk)
  have counters : RplKept [0] s (noticed u o (newSample s o i row kind win tk)) := ((RplKept.rfl_ s).of_same left).trans (noticed_rpl u o _)
  have same := noticed_same u o (newSample s o i row kind win tk)
  generalize noticed u o (newSample s o i row kind win tk) = v at *
  have hkey : y.uid = uid ∧ y.row = row ∧ y.part = o.part := by
    rcases hy with rfl | ⟨_, rfl⟩ <;> exact ⟨getOp_uid ho, rfl, rfl⟩
  have found : getSample v uid row = some y := by
    rw [getSample, alone, List.find?_singleton, hkey.1, hkey.2.1, beq_self_eq_true, beq_self_eq_true]
    rfl
  have op' := (getOp_of_same same uid).trans op
  have counts (k : Nat) (hk : k = 7 ∨ k = 11) (h0 : k ∉ [0]) : (rplOf (endSample v uid row rSkipped 0x23) o.part).getD k 0 = satAdd ((rplOf s o.part).getD k 0) 1 := by
    have counted := endSample_skipped found op' (cause := 0x23) (by rw [hkey.2.2, counters.parts]; exact hp) (by rw [hkey.2.2, counters.length]; exact hr) (by decide) k hk
    rw [hkey.2.2, counters.word _ _ h0] at counted
    exact counted
  refine ⟨_, run, ?_, counts 7 (.inl rfl) (by decide), counts 11 (.inr rfl) (by decide), bytes⟩
  rw [endSample_samples found op', alone, List.filter_singleton, hkey.1, hkey.2.1, beq_self_eq_true, beq_self_eq_true]
  rfl

theorem sampleNotice_opened (h : nextMsg s (isNotice sp) = some (.notice i uid row kind win tk)) (ho : getOp s uid = some o) (hl : o.late = false)
    (hf : o.state ≠ .final) (hd : stateOf s i ≠ stDead) (hu : inSafe s uRpl = false) (hs : s.samples = []) (hk : s.keep.kwrDown = false)
    (hq : 0 < ((partCfg s o.part).map (·.ovfQuota)).getD 0) (hc : crossedBefore s (newSample s o i row kind win tk) = false) :
    ∃ t x, exec (.sampleNotice sp) s = .next t ∧ t.samples = [x] ∧ x.uid = uid ∧ x.row = row ∧ x.kind = kind ∧ x.winFirst = win ∧
      x.noticeTick = tk ∧ x.part = o.part ∧ x.dsc = o.dsc ∧ x.spire = i ∧
      t = { s with caravan := t.caravan, spires := t.spires, samples := t.samples, parts := t.parts } := by
  obtain ⟨left, -, -⟩ := leave_effect s (.notice i uid row kind win tk)
  have closed := exec_sampleNotice h
  generalize leave s (.notice i uid row kind win tk) = u at left closed
  obtain ⟨new, tile, unit, down, cfg, crossed⟩ := noticed_before (o := o) (i := i) (row := row) (kind := kind) (win := win) (tk := tk) left
  have op := (getOp_of_same left uid).trans ho
  rw [noticeIn_judged op hl hf (tile ▸ hd) (unit ▸ hu) (down ▸ hk), new, crossed, if_neg (by simp [hc])] at closed
  obtain ⟨y, alone, hy⟩ := noticed_alone ((left .samples (by decide)).trans hs) o (newSample s o i row kind win tk)
  have same : Same [.caravan, .spires, .samples, .parts] s (noticed u o (newSample s o i row kind win tk)) :=
    (left.mono (by decide)).trans ((noticed_same u o _).mono (by decide))
  generalize noticed u o (newSample s o i row kind win tk) = v at *
  have hkey : y.uid = uid ∧ y.row = row ∧ y.part = o.part := by
    rcases hy with rfl | ⟨_, rfl⟩ <;> exact ⟨getOp_uid ho, rfl, rfl⟩
  have found : getSample v uid row = some y := by
    rw [getSample, alone, List.find?_singleton, hkey.1, hkey.2.1, beq_self_eq_true, beq_self_eq_true]
    rfl
  have kept : (if ((getSample v uid row).map fun x => x.slot.isSome).getD false then v else takeOver v (newSample s o i row kind win tk)) = v := by
    rw [found]
    rcases hy with rfl | ⟨_, rfl⟩
    · exact (if_neg Bool.false_ne_true).trans (takeOver_alone alone SampSt.noConfusion)
    · exact if_pos rfl
  dsimp only at closed
  rw [kept, overflowing_alone alone (by rw [hkey.2.2, show partCfg v = partCfg s from funext fun p => by rw [partCfg, partCfg, same.image_eq]]; exact hq)] at closed
  refine ⟨v, y, closed, alone, hkey.1, hkey.2.1, ?_, ?_, ?_, hkey.2.2, ?_, ?_, same.frame⟩
  all_goals rcases hy with rfl | ⟨_, rfl⟩ <;> rfl

end

/-! ### WITNESS_FRAGMENT and RESULT_CAPTURE (R171 to R173, R191) -/

section
variable {s : State} {sp i uid row cause : Nat} {inc : Bool} {x : Sample} {o : OpV}

theorem exec_witnessFragment {codes : List Nat} {scl : List Byte} (h : nextMsg s (isFragment sp) = some (.fragment i uid row codes scl)) :
    exec (.witnessFragment sp) s = .next (fragmentIn (leave s (.fragment i uid row codes scl)) i uid row codes scl) := by
  change execWitnessFragment sp s = _
  unfold execWitnessFragment
  rw [takeMsg_some h]

theorem exec_resultCapture {win : List Nat} {scl : List Byte} {dg : List (W32 × Byte)} (h : nextMsg s (isResult sp) = some (.result i uid row win scl dg)) :
    exec (.resultCapture sp) s = .next (resultIn (leave s (.result i uid row win scl dg)) i uid row win scl dg) := by
  change execResultCapture sp s = _
  unfold execResultCapture
  rw [takeMsg_some h]

theorem exec_witnessFragment_abandon (h : nextMsg s (isFragment sp) = some (.abandon i uid row cause inc)) :
    exec (.witnessFragment sp) s = .next (abandonIn (leave s (.abandon i uid row cause inc)) uid row cause inc) := by
  change execWitnessFragment sp s = _
  unfold execWitnessFragment
  rw [takeMsg_some h]

theorem exec_resultCapture_abandon (h : nextMsg s (isResult sp) = some (.abandon i uid row cause inc)) :
    exec (.resultCapture sp) s = .next (abandonIn (leave s (.abandon i uid row cause inc)) uid row cause inc) := by
  change execResultCapture sp s = _
  unfold execResultCapture
  rw [takeMsg_some h]

theorem witnessFragment_effect {m : Msg} (h : nextMsg s (isFragment sp) = some m) :
    ∃ t, exec (.witnessFragment sp) s = .next t ∧ t.caravan.flight = s.caravan.flight.erase m ∧ t.cistern.data = s.cistern.data := by
  obtain ⟨t, run, keeps⟩ := execWitnessFragment_keeps sp (Keeps.rfl_ _ s) (List.Subset.refl _)
  refine ⟨t, run, ?_, keeps.same.bytes_eq.1⟩
  have test := nextMsg_test h
  cases m with
  | fragment j u r codes scl =>
    obtain rfl := Host.Outcome.next.inj ((exec_witnessFragment h).symm.trans run)
    exact flightOf_of_same (fragmentIn_keeps j u r codes scl (Keeps.rfl_ _ _) (List.Subset.refl _)).same
  | abandon j u r c b =>
    obtain rfl := Host.Outcome.next.inj ((exec_witnessFragment_abandon h).symm.trans run)
    exact flightOf_of_same (abandonIn_keeps u r c b (Keeps.rfl_ _ _) (List.Subset.refl _)).same
  | _ => exact absurd test Bool.false_ne_true

theorem resultCapture_effect {m : Msg} (h : nextMsg s (isResult sp) = some m) :
    ∃ t, exec (.resultCapture sp) s = .next t ∧ t.caravan.flight = s.caravan.flight.erase m ∧ t.cistern.data = s.cistern.data := by
  obtain ⟨t, run, keeps⟩ := execResultCapture_keeps sp (Keeps.rfl_ _ s) (List.Subset.refl _)
  refine ⟨t, run, ?_, keeps.same.bytes_eq.1⟩
  have test := nextMsg_test h
  cases m with
  | result j u r win scl dg =>
    obtain rfl := Host.Outcome.next.inj ((exec_resultCapture h).symm.trans run)
    exact flightOf_of_same (resultIn_keeps j u r win scl dg (Keeps.rfl_ _ _) (List.Subset.refl _)).same
  | abandon j u r c b =>
    obtain rfl := Host.Outcome.next.inj ((exec_resultCapture_abandon h).symm.trans run)
    exact flightOf_of_same (abandonIn_keeps u r c b (Keeps.rfl_ _ _) (List.Subset.refl _)).same
  | _ => exact absurd test Bool.false_ne_true

theorem abandonIn_ends (hx : getSample s uid row = some x) (ho : getOp s uid = some o) : getSample (abandonIn s uid row cause inc) uid row = none := by
  unfold abandonIn
  rw [hx]
  exact endSample_getSample hx ho _ _

/-- When the comparison of a sample begins, nothing of its witness changes. -/
theorem tryCompare_getSample (hx : getSample s uid row = some x) : ∃ st, getSample (tryCompare s uid row) uid row = some { x with state := st } := by
  unfold tryCompare
  rw [hx]
  dsimp only
  split
  · exact ⟨_, getSample_updSample hx (fun y => { y with state := .compare }) fun _ hu hr => ⟨hu, hr⟩⟩
  · exact ⟨x.state, hx⟩

/-- Below level WIT a part of a witness enters its sample, and its bytes are metered. -/
theorem storeWitness_stored {bytes : Nat} (f : Sample → Sample) (hf : ∀ y, (f y).uid = y.uid ∧ (f y).row = y.row) (hx : getSample s uid row = some x)
    (hq : quotaOk s x.part lvWit = true) : (∃ n st, getSample (storeWitness s uid row bytes f) uid row = some { f x with lines := n, state := st }) ∧
    (x.part < s.parts.length → (getPart (storeWitness s uid row bytes f) x.part).cnt.meters = updAt (getPart s x.part).cnt.meters mWitness (· + BitVec.ofNat 64 bytes)) ∧
    Same [.samples, .parts] s (storeWitness s uid row bytes f) := by
  have metered : Same [.parts] s (addMeter (addUse s x.part (linesOf bytes)) x.part mWitness bytes) :=
    (addMeter_keeps _ _ _ (addUse_keeps _ _ (Keeps.rfl_ _ s) (List.Subset.refl _)) (List.Subset.refl _)).same
  have meters (hp : x.part < s.parts.length) : (getPart (addMeter (addUse s x.part (linesOf bytes)) x.part mWitness bytes) x.part).cnt.meters =
      updAt (getPart s x.part).cnt.meters mWitness (· + BitVec.ofNat 64 bytes) := by
    have used : getPart (addUse s x.part (linesOf bytes)) x.part = _ := getPart_updPart s x.part _ hp
    have counted : getPart (addMeter (addUse s x.part (linesOf bytes)) x.part mWitness bytes) x.part = _ :=
      getPart_updPart (addUse s x.part (linesOf bytes)) x.part _ (by rw [show (addUse s x.part (linesOf bytes)).parts.length = _ from length_updAt _ _ _]; exact hp)
    rw [counted, used]
  unfold storeWitness
  rw [hx]
  dsimp only
  rw [if_pos hq]
  have found := (getSample_of_same metered uid row).trans hx
  generalize addMeter (addUse s x.part (linesOf bytes)) x.part mWitness bytes = v at *
  have stored := getSample_updSample found (fun y => { f y with lines := (f y).lines + linesOf bytes })
    fun y hu hr => ⟨(hf y).1.trans hu, (hf y).2.trans hr⟩
  have same := (updSample_keeps uid row (fun y => { f y with lines := (f y).lines + linesOf bytes }) (Keeps.rfl_ [.samples] v) (List.Subset.refl _)).same
  dsimp only at stored same ⊢
  generalize updSample v uid row (fun y => { f y with lines := (f y).lines + linesOf bytes }) = w at *
  have compared := tryCompare_same w uid row
  obtain ⟨st, final⟩ := tryCompare_getSample stored
  refine ⟨⟨_, st, final⟩, fun hp => ?_, ((metered.mono (by decide)).trans (same.mono (by decide))).trans (compared.mono (by decide))⟩
  rw [getPart_of_parts (compared .parts (by decide)), getPart_of_parts (same .parts (by decide)), meters hp]

/-- At or above level WIT the sample ends. -/
theorem storeWitness_refused {bytes : Nat} (f : Sample → Sample) (hx : getSample s uid row = some x) (ho : getOp s uid = some o) (hq : quotaOk s x.part lvWit = false) :
    getSample (storeWitness s uid row bytes f) uid row = none := by
  unfold storeWitness
  rw [hx]
  dsimp only
  rw [if_neg (by simp [hq])]
  have same := (refuseQuota_keeps x.part (Keeps.rfl_ _ s) (List.Subset.refl _)).same
  exact endSample_getSample ((getSample_of_same same uid row).trans hx) ((getOp_of_same same uid).trans ho) _ _

/-- What a part of a witness meets at its sample: only the Spires have changed since the message left. -/
theorem quotaOk_of_same {s t : State} {l : List Fld} (h : Same l s t) (p k : Nat) (hp : .parts ∉ l := by decide) (hi : .image ∉ l := by decide)
    (hu : .units ∉ l := by decide) : quotaOk t p k = quotaOk s p k := by
  rw [quotaOk, quotaOk, inSafe_of_same h uCis hu, getPart_of_parts (h .parts hp), quotaLines, quotaLines, partCfg, partCfg, h.image_eq hi]

theorem witnessFragment_stored {codes : List Nat} {scl : List Byte} (h : nextMsg s (isFragment sp) = some (.fragment i uid row codes scl))
    (hx : getSample s uid row = some x) (hq : quotaOk s x.part lvWit = true) :
    ∃ t y, exec (.witnessFragment sp) s = .next t ∧ getSample t uid row = some y ∧ y.frags = x.frags ++ [(codes, scl)] ∧
      (x.part < s.parts.length → (getPart t x.part).cnt.meters = updAt (getPart s x.part).cnt.meters mWitness (· + BitVec.ofNat 64 (fragBytes s uid codes scl))) ∧
      t = { s with caravan := t.caravan, samples := t.samples, parts := t.parts, spires := t.spires } := by
  obtain ⟨left, -, -⟩ := leave_effect s (.fragment i uid row codes scl)
  have closed := exec_witnessFragment h
  generalize leave s (.fragment i uid row codes scl) = u at left closed
  have bytes : fragBytes u uid codes scl = fragBytes s uid codes scl := by rw [fragBytes, fragBytes, getOp_of_same left]
  unfold fragmentIn at closed
  dsimp only at closed
  rw [bytes] at closed
  generalize fragBytes s uid codes scl = n at closed ⊢
  have before : Same [.caravan, .spires] s (addBigSp (unstage u i n) i 8 n) :=
    (left.mono (by decide)).trans ((addBigSp_keeps i 8 n (unstage_keeps i n (Keeps.rfl_ [.spires] u) (List.Subset.refl _)) (List.Subset.refl _)).same.mono (by decide))
  generalize addBigSp (unstage u i n) i 8 n = v at before closed
  obtain ⟨⟨_, st, found⟩, meters, same⟩ := storeWitness_stored (bytes := n) (fun y => { y with frags := y.frags ++ [(codes, scl)] }) (fun _ => ⟨rfl, rfl⟩)
    ((getSample_of_same before uid row).trans hx) ((quotaOk_of_same before _ _).trans hq)
  refine ⟨_, _, closed, found, rfl, fun hp => ?_, ((before.mono (by decide)).trans (same.mono (by decide)) : Same [.caravan, .samples, .parts, .spires] s _).frame⟩
  rw [meters (by rw [before .parts (by decide)]; exact hp), getPart_of_parts (before .parts (by decide))]

theorem resultCapture_stored {win : List Nat} {scl : List Byte} {dg : List (W32 × Byte)} (h : nextMsg s (isResult sp) = some (.result i uid row win scl dg))
    (hx : getSample s uid row = some x) (hq : quotaOk s x.part lvWit = true) :
    ∃ t y, exec (.resultCapture sp) s = .next t ∧ getSample t uid row = some y ∧ y.win = win ∧ y.winScales = scl ∧ y.digests = dg ∧ y.captured = true ∧
      (x.part < s.parts.length → (getPart t x.part).cnt.meters = updAt (getPart s x.part).cnt.meters mWitness (· + BitVec.ofNat 64 (resultBytes s uid win scl dg))) ∧
      t = { s with caravan := t.caravan, samples := t.samples, parts := t.parts, spires := t.spires } := by
  obtain ⟨left, -, -⟩ := leave_effect s (.result i uid row win scl dg)
  have closed := exec_resultCapture h
  generalize leave s (.result i uid row win scl dg) = u at left closed
  have bytes : resultBytes u uid win scl dg = resultBytes s uid win scl dg := by rw [resultBytes, resultBytes, getOp_of_same left]
  unfold resultIn at closed
  dsimp only at closed
  rw [bytes] at closed
  generalize resultBytes s uid win scl dg = n at closed ⊢
  have before : Same [.caravan, .spires] s (addBigSp (unstage u i n) i 8 n) :=
    (left.mono (by decide)).trans ((addBigSp_keeps i 8 n (unstage_keeps i n (Keeps.rfl_ [.spires] u) (List.Subset.refl _)) (List.Subset.refl _)).same.mono (by decide))
  generalize addBigSp (unstage u i n) i 8 n = v at before closed
  obtain ⟨⟨_, st, found⟩, meters, same⟩ := storeWitness_stored (bytes := n) (fun y => { y with win := win, winScales := scl, digests := dg, captured := true })
    (fun _ => ⟨rfl, rfl⟩) ((getSample_of_same before uid row).trans hx) ((quotaOk_of_same before _ _).trans hq)
  refine ⟨_, _, closed, found, rfl, rfl, rfl, rfl, fun hp => ?_, ((before.mono (by decide)).trans (same.mono (by decide)) : Same [.caravan, .samples, .parts, .spires] s _).frame⟩
  rw [meters (by rw [before .parts (by decide)]; exact hp), getPart_of_parts (before .parts (by decide))]

theorem witnessFragment_refused {codes : List Nat} {scl : List Byte} (h : nextMsg s (isFragment sp) = some (.fragment i uid row codes scl))
    (hx : getSample s uid row = some x) (ho : getOp s uid = some o) (hq : quotaOk s x.part lvWit = false) :
    ∃ t, exec (.witnessFragment sp) s = .next t ∧ getSample t uid row = none ∧ t.cistern.data = s.cistern.data := by
  obtain ⟨t, run, -, bytes⟩ := witnessFragment_effect h
  refine ⟨t, run, ?_, bytes⟩
  obtain ⟨left, -, -⟩ := leave_effect s (.fragment i uid row codes scl)
  obtain rfl := Host.Outcome.next.inj ((exec_witnessFragment h).symm.trans run)
  generalize leave s (.fragment i uid row codes scl) = u at left ⊢
  unfold fragmentIn
  dsimp only
  generalize fragBytes u uid codes scl = n
  have before : Same [.caravan, .spires] s (addBigSp (unstage u i n) i 8 n) :=
    (left.mono (by decide)).trans ((addBigSp_keeps i 8 n (unstage_keeps i n (Keeps.rfl_ [.spires] u) (List.Subset.refl _)) (List.Subset.refl _)).same.mono (by decide))
  exact storeWitness_refused _ ((getSample_of_same before uid row).trans hx) ((getOp_of_same before uid).trans ho) ((quotaOk_of_same before _ _).trans hq)

theorem witnessFragment_abandoned (h : nextMsg s (isFragment sp) = some (.abandon i uid row cause inc)) (hx : getSample s uid row = some x) (ho : getOp s uid = some o) :
    ∃ t, exec (.witnessFragment sp) s = .next t ∧ getSample t uid row = none ∧ t.cistern.data = s.cistern.data := by
  obtain ⟨t, run, -, bytes⟩ := witnessFragment_effect h
  obtain ⟨left, -, -⟩ := leave_effect s (.abandon i uid row cause inc)
  obtain rfl := Host.Outcome.next.inj ((exec_witnessFragment_abandon h).symm.trans run)
  exact ⟨_, run, abandonIn_ends ((getSample_of_same left uid row).trans hx) ((getOp_of_same left uid).trans ho), bytes⟩

theorem resultCapture_abandoned (h : nextMsg s (isResult sp) = some (.abandon i uid row cause inc)) (hx : getSample s uid row = some x) (ho : getOp s uid = some o) :
    ∃ t, exec (.resultCapture sp) s = .next t ∧ getSample t uid row = none ∧ t.cistern.data = s.cistern.data := by
  obtain ⟨t, run, -, bytes⟩ := resultCapture_effect h
  obtain ⟨left, -, -⟩ := leave_effect s (.abandon i uid row cause inc)
  obtain rfl := Host.Outcome.next.inj ((exec_resultCapture_abandon h).symm.trans run)
  exact ⟨_, run, abandonIn_ends ((getSample_of_same left uid row).trans hx) ((getOp_of_same left uid).trans ho), bytes⟩

end

/-- Settles O24: a notice's sample alone is armed or waits, no slot is taken over and nothing overflows; a part of a witness is stored or ends its sample. -/
theorem samplesAndWitnesses : Obligations.SamplesAndWitnesses := by
  unfold Obligations.SamplesAndWitnesses
  refine ⟨⟨?_, ?_, ?_, ?_⟩, ?_, ?_, ?_, ?_, ?_, ?_⟩
  · exact fun s sp i uid row kind win tk h => sampleNotice_effect h
  · exact fun s sp i uid row kind win tk o h ho hl hf hd hu hs hk hc hp hr => sampleNotice_crossed h ho hl hf hd hu hs hk hc hp hr
  · exact fun s sp i uid row kind win tk o h ho hl hf hd hu hs hk hq hc => sampleNotice_opened h ho hl hf hd hu hs hk hq hc
  · exact fun s sp i uid row kind win tk o h ho hl => sampleNotice_late h ho hl
  · exact fun s sp m h => witnessFragment_effect h
  · exact fun s sp m h => resultCapture_effect h
  · exact fun s sp i uid row codes scl x h hx hq => witnessFragment_stored h hx hq
  · exact fun s sp i uid row win scl dg x h hx hq => resultCapture_stored h hx hq
  · exact fun s sp i uid row codes scl x o h hx ho hq => witnessFragment_refused h hx ho hq
  · exact fun s sp i uid row cause inc x o hx ho => ⟨fun h => witnessFragment_abandoned h hx ho, fun h => resultCapture_abandoned h hx ho⟩

end Sys2Proof.Machine
end

section
/-! Verdicts of a sample, and arbitration (R186 to R197). -/

set_option Elab.async false

namespace Sys2Proof.Machine

/-! ### Samples that end by themselves (R189, R190, R193) -/

section
variable {s : State} {n : Nat} {x : Sample} {o : OpV}

theorem execSample_compare (hn : sampleAt s n = some x) (ho : getOp s x.uid = some o) (hc : x.state = .compare) (hu : x.unread = false) :
    exec (.replayCompare n) s = .next (if (compareSample s x (exactMode o)).mis.isEmpty && (compareSample s x (exactMode o)).groups.isEmpty then
      endSample (updSample (ergRlag s x.part x.spire (s.time.tick.toNat - x.rowTick.toNat)) x.uid x.row fun y => { y with unchecked := (compareSample s x (exactMode o)).unchecked })
        x.uid x.row rPass 0
      else recordMismatch (ergRlag s x.part x.spire (s.time.tick.toNat - x.rowTick.toNat)) x o (compareSample s x (exactMode o))) := by
  change execReplayCompare n s = _
  unfold execReplayCompare
  rw [hn]
  dsimp only
  rw [if_neg (by simp [hc, hu]), onOp_some ho]

theorem replayCompare_passed (hn : sampleAt s n = some x) (hx : getSample s x.uid x.row = some x) (ho : getOp s x.uid = some o) (hp : x.part < s.parts.length)
    (hl : (rplOf s x.part).length = 15) (hc : x.state = .compare) (hu : x.unread = false) (hm : (compareSample s x (exactMode o)).mis = [])
    (hg : (compareSample s x (exactMode o)).groups = []) :
    ∃ t, exec (.replayCompare n) s = .next t ∧ getSample t x.uid x.row = none ∧ (rplOf t x.part).getD 1 0 = satAdd ((rplOf s x.part).getD 1 0) 1 ∧
      t.spires = s.spires ∧ t.cistern.data = s.cistern.data := by
  obtain ⟨t, run, keeps⟩ := execReplayCompare_keeps n (Keeps.rfl_ _ s) (List.Subset.refl _)
  refine ⟨t, run, ?_⟩
  have closed := (execSample_compare hn ho hc hu).trans (congrArg Host.Outcome.next (if_pos (by rw [hm, hg]; rfl)))
  obtain rfl := Host.Outcome.next.inj (closed.symm.trans run)
  have lag : Same [.erg] s (ergRlag s x.part x.spire (s.time.tick.toNat - x.rowTick.toNat)) := (ergRlag_keeps _ _ _ (Keeps.rfl_ _ s) (List.Subset.refl _)).same
  refine ⟨?_, ?_, keeps.same .spires (by decide), keeps.same.bytes_eq.1⟩
  all_goals
    generalize ergRlag s x.part x.spire (s.time.tick.toNat - x.rowTick.toNat) = u at lag ⊢
    have found := getSample_updSample ((getSample_of_same lag x.uid x.row).trans hx)
      (fun y => { y with unchecked := (compareSample s x (exactMode o)).unchecked }) fun _ hu hr => ⟨hu, hr⟩
    have same : Same [.erg, .samples] s (updSample u x.uid x.row fun y => { y with unchecked := (compareSample s x (exactMode o)).unchecked }) :=
      (lag.mono (by decide)).trans ((updSample_keeps _ _ _ (Keeps.rfl_ [.samples] u) (List.Subset.refl _)).same.mono (by decide))
    generalize (updSample u x.uid x.row fun y => { y with unchecked := (compareSample s x (exactMode o)).unchecked }) = v at found same ⊢
  · exact endSample_getSample found ((getOp_of_same same _).trans ho) _ _
  · have counters : RplKept [] s v := (RplKept.rfl_ s).of_same same
    have counted := endSample_counts found ((getOp_of_same same _).trans ho) (result := rPass) (cause := 0) (by decide) (counters.parts.symm ▸ hp)
      ((counters.length x.part).trans hl) (by decide)
    dsimp only at counted
    rw [show resultWord rPass = 1 from rfl, counters.word _ _ List.not_mem_nil] at counted
    exact counted

/-- A sample that waits for its confirmation. -/
def confirmingSample (s : State) (x : Sample) (c : Compared) : Sample := { x with
  state := .confirming, misTick := s.time.tick, r1 := c.r1, mis := c.mis, misGroups := c.groups, unchecked := c.unchecked
  confCols := confirmCols x.dsc (c.mis.map (·.col)) c.groups }

/-- The state in which a mismatch is recorded, before it is counted. -/
def mismatched (s : State) (x : Sample) (o : OpV) (y : Sample) : State :=
  let s1 := updSample s x.uid x.row fun _ => y
  let s2 := addRec s1 (rplvRec s1 y o false rMismatch 0)
  { s2 with rng := s2.rng + 1 }

theorem recordMismatch_eq (s : State) (x : Sample) (o : OpV) (c : Compared) : recordMismatch s x o c =
    settle (updOp (x.engines.foldl (freeEngine x.uid x.row) (replayInput (countRpl (mismatched s x o (confirmingSample s x c)) x.part rMismatch 0) o x.row rMismatch 0)) x.uid
      fun o => { o with mm := o.mm + 1 }) x.uid := rfl

/-- While a mismatch is recorded its sample stands as what waits, and no counter changes. -/
theorem mismatched_effect {y : Sample} (hx : getSample s x.uid x.row = some x) (o : OpV) (hy : y.uid = x.uid ∧ y.row = x.row) :
    getSample (mismatched s x o y) x.uid x.row = some y ∧ RplKept [] s (mismatched s x o y) := by
  have found := getSample_updSample hx (fun _ => y) fun _ _ _ => hy
  have counters : RplKept [] s (updSample s x.uid x.row fun _ => y) := (RplKept.rfl_ s).of_keeps [.samples] (updSample_keeps _ _ _ (Keeps.rfl_ _ s) (List.Subset.refl _))
  unfold mismatched
  generalize (updSample s x.uid x.row fun _ => y) = u at found counters ⊢
  have recorded := (addRec_keeps (rplvRec u y o false rMismatch 0) (Keeps.rfl_ _ u) (List.Subset.refl _)).same
  have counted := addRec_rpl counters (rplvRec u y o false rMismatch 0)
  dsimp only
  generalize addRec u (rplvRec u y o false rMismatch 0) = v at recorded counted ⊢
  exact ⟨(getSample_of_same recorded x.uid x.row).trans found, RplKept.trans (t := v) counted (.of_rpl rfl fun _ => rfl)⟩

/-- After a mismatch's count nothing changes a sample or a counter. -/
theorem recordMismatch_rest (s : State) (x : Sample) (o : OpV) :
    RplKept [] s (settle (updOp (x.engines.foldl (freeEngine x.uid x.row) (replayInput s o x.row rMismatch 0)) x.uid fun o => { o with mm := o.mm + 1 }) x.uid) ∧
      (settle (updOp (x.engines.foldl (freeEngine x.uid x.row) (replayInput s o x.row rMismatch 0)) x.uid fun o => { o with mm := o.mm + 1 }) x.uid).samples = s.samples := by
  have freed : Same [.inputs, .engines, .ops] s (updOp (x.engines.foldl (freeEngine x.uid x.row) (replayInput s o x.row rMismatch 0)) x.uid fun o => { o with mm := o.mm + 1 }) :=
    (((replayInput_same s o x.row rMismatch 0).mono (by decide)).trans ((freeEngines_same x.uid x.row x.engines _).mono (by decide))).trans
      ((updOp_keeps _ _ (Keeps.rfl_ [.ops] _) (List.Subset.refl _)).same.mono (by decide))
  generalize (updOp (x.engines.foldl (freeEngine x.uid x.row) (replayInput s o x.row rMismatch 0)) x.uid fun o => { o with mm := o.mm + 1 }) = v at freed ⊢
  refine ⟨settle_rpl ((RplKept.rfl_ s).of_same freed) x.uid, ?_⟩
  exact ((settle_keeps x.uid (Keeps.rfl_ _ v) (List.Subset.refl _)).same .samples (by decide) :).trans (freed .samples (by decide))

theorem replayCompare_mismatch (hn : sampleAt s n = some x) (hx : getSample s x.uid x.row = some x) (ho : getOp s x.uid = some o) (hp : x.part < s.parts.length)
    (hl : (rplOf s x.part).length = 15) (hc : x.state = .compare) (hu : x.unread = false)
    (hm : (compareSample s x (exactMode o)).mis ≠ [] ∨ (compareSample s x (exactMode o)).groups ≠ []) :
    ∃ t y, exec (.replayCompare n) s = .next t ∧ getSample t x.uid x.row = some y ∧ y.state = .confirming ∧ y.misTick = s.time.tick ∧
      y.mis = (compareSample s x (exactMode o)).mis ∧ y.misGroups = (compareSample s x (exactMode o)).groups ∧
      (rplOf t x.part).getD 2 0 = satAdd ((rplOf s x.part).getD 2 0) 1 ∧ t.spires = s.spires ∧ t.cistern.data = s.cistern.data := by
  obtain ⟨t, run, keeps⟩ := execReplayCompare_keeps n (Keeps.rfl_ _ s) (List.Subset.refl _)
  have differs : ¬ ((compareSample s x (exactMode o)).mis.isEmpty && (compareSample s x (exactMode o)).groups.isEmpty) = true := by
    simpa [or_iff_not_imp_left] using hm
  have closed := (execSample_compare hn ho hc hu).trans (congrArg Host.Outcome.next (if_neg differs))
  have lag : Same [.erg] s (ergRlag s x.part x.spire (s.time.tick.toNat - x.rowTick.toNat)) := (ergRlag_keeps _ _ _ (Keeps.rfl_ _ s) (List.Subset.refl _)).same
  generalize ergRlag s x.part x.spire (s.time.tick.toNat - x.rowTick.toNat) = u at lag closed
  generalize compareSample s x (exactMode o) = c at closed ⊢
  obtain rfl := Host.Outcome.next.inj (closed.symm.trans run)
  have tick : (confirmingSample u x c).misTick = s.time.tick := by
    rw [confirmingSample, lag.time_eq]
  obtain ⟨found, before⟩ := mismatched_effect (y := confirmingSample u x c) ((getSample_of_same lag x.uid x.row).trans hx) o ⟨rfl, rfl⟩
  refine ⟨_, confirmingSample u x c, run, ?_, rfl, tick, rfl, rfl, ?_, keeps.same .spires (by decide), keeps.same.bytes_eq.1⟩
  all_goals
    rw [recordMismatch_eq]
    obtain ⟨after, samples⟩ := recordMismatch_rest (countRpl (mismatched u x o (confirmingSample u x c)) x.part rMismatch 0) x o
    generalize mismatched u x o (confirmingSample u x c) = v at found before after samples ⊢
  · exact (getSample_samples samples x.uid x.row).trans found
  · have counters : RplKept [] s v := ((RplKept.rfl_ s).of_same lag).trans before
    rw [after.word _ _ List.not_mem_nil, countRpl_eq, if_neg (by decide)]
    refine (addRpl_word (counters.parts.symm ▸ hp) (by rw [counters.length, hl]; decide) 1).trans ?_
    rw [show resultWord rMismatch = 2 from rfl, counters.word _ _ List.not_mem_nil]

/-- A sample that ends INCONCLUSIVE at its deadline. -/
theorem endSample_incon (hx : getSample s x.uid x.row = some x) (ho : getOp s x.uid = some o) (hp : x.part < s.parts.length) (hl : (rplOf s x.part).length = 15) (cause : Nat) :
    getSample (endSample s x.uid x.row rIncon cause) x.uid x.row = none ∧
      (rplOf (endSample s x.uid x.row rIncon cause) x.part).getD 6 0 = satAdd ((rplOf s x.part).getD 6 0) 1 :=
  ⟨endSample_getSample hx ho _ _, endSample_counts hx ho (by decide) hp hl (by decide)⟩

theorem replayDeadline_effect (hn : sampleAt s n = some x) (hx : getSample s x.uid x.row = some x) (ho : getOp s x.uid = some o) (hp : x.part < s.parts.length)
    (hl : (rplOf s x.part).length = 15) (hc : x.state ≠ .confirming) :
    ∃ t, exec (.replayDeadline n) s = .next t ∧ getSample t x.uid x.row = none ∧ (rplOf t x.part).getD 6 0 = satAdd ((rplOf s x.part).getD 6 0) 1 ∧
      t.spires = s.spires ∧ t.cistern.data = s.cistern.data := by
  obtain ⟨t, run, keeps⟩ := execReplayDeadline_keeps n (Keeps.rfl_ _ s) (List.Subset.refl _)
  have closed : exec (.replayDeadline n) s = .next (endSample s x.uid x.row rIncon (if x.wtviol then 0x07 else 0x04)) := by
    change execReplayDeadline n s = _
    unfold execReplayDeadline
    rw [hn]
    exact congrArg Host.Outcome.next (if_neg hc)
  obtain rfl := Host.Outcome.next.inj (closed.symm.trans run)
  obtain ⟨gone, counted⟩ := endSample_incon hx ho hp hl (if x.wtviol then 0x07 else 0x04)
  exact ⟨_, run, gone, counted, keeps.same .spires (by decide), keeps.same.bytes_eq.1⟩

theorem confirmationDeadline_effect (hn : sampleAt s n = some x) (hx : getSample s x.uid x.row = some x) (ho : getOp s x.uid = some o) (hp : x.part < s.parts.length)
    (hl : (rplOf s x.part).length = 15) (hc : x.state = .confirming) (h : x.matched = false ∨ x.wtviol = true ∨ x.unread = true) :
    ∃ t, exec (.confirmationDeadline n) s = .next t ∧ getSample t x.uid x.row = none ∧ (rplOf t x.part).getD 6 0 = satAdd ((rplOf s x.part).getD 6 0) 1 ∧
      t.spires = s.spires ∧ t.cistern.data = s.cistern.data := by
  obtain ⟨t, run, keeps⟩ := execConfirmationDeadline_keeps n (Keeps.rfl_ _ s) (List.Subset.refl _)
  have closed : exec (.confirmationDeadline n) s = .next (endSample s x.uid x.row rIncon (if x.wtviol then 0x07 else if x.unread then 0x04 else 0x09)) := by
    change execConfirmationDeadline n s = _
    unfold execConfirmationDeadline
    rw [hn]
    exact congrArg Host.Outcome.next (if_neg (by rcases h with h | h | h <;> simp [hc, h]))
  obtain rfl := Host.Outcome.next.inj (closed.symm.trans run)
  obtain ⟨gone, counted⟩ := endSample_incon hx ho hp hl (if x.wtviol then 0x07 else if x.unread then 0x04 else 0x09)
  exact ⟨_, run, gone, counted, keeps.same .spires (by decide), keeps.same.bytes_eq.1⟩

end

/-! ### Arbitration (R194 to R196) -/

/-- E1's value of a column. -/
def e1Value (x : Sample) (c : Nat) : OutElem := ((x.r1.find? fun m => m.col == c).map fun m => (⟨m.e1, m.scale⟩ : OutElem)).getD ⟨0, 0⟩

/-- The rows that a confirming engine processed. -/
def confRows (s : State) (x : Sample) (i : Nat) : List WRow := ((x.conf.drop i).head?.map fun e => (getEng s e).rows).getD []

/-- Whether E1's value of a column is sound against E3's reference. -/
def soundColumn (s : State) (x : Sample) (c : Nat) : Bool :=
  (((exactRefs s x (confRows s x 1) x.confCols).find? fun r => r.col == c).map (soundRef s x (e1Value x c))).getD false

section
variable {s : State} {x : Sample} {c : Nat} {r2 : OutElem}

/-- A window column of the bit-exact classes whose three values are not all equal has its outcome by R196. -/
theorem arbOutcomes_column (integer : Bool) (hc : (c, r2) ∈ exactBits s x (confRows s x 0) x.confCols) (hw : inWindow x c = true)
    (hne : ¬ (hostElem x c = e1Value x c ∧ r2 = hostElem x c)) :
    ([c], arbBits (hostElem x c) (e1Value x c) r2 (integer || soundColumn s x c)) ∈ arbOutcomes s x false integer := by
  unfold arbOutcomes
  refine List.mem_append_left _ (List.mem_filterMap.2 ⟨(c, r2), List.mem_filter.2 ⟨hc, hw⟩, ?_⟩)
  dsimp only
  have value : (x.r1.find? fun m => m.col == c).elim (e1Value x c = ⟨0, 0⟩) fun m => e1Value x c = ⟨m.e1, m.scale⟩ := by
    unfold e1Value
    cases x.r1.find? fun m => m.col == c <;> rfl
  have sound := soundColumn.eq_1 s x c
  unfold confRows at sound hc
  obtain ⟨hit, found⟩ : ∃ hit, (x.r1.find? fun m => m.col == c) = hit := ⟨_, rfl⟩
  cases hit
  all_goals
    rw [found] at value
    simp only [found]
    rw [← (value : e1Value x c = _), if_neg hne]
    refine congrArg (fun b => some ([c], arbBits (hostElem x c) (e1Value x c) r2 b)) ?_
    cases integer
    · rw [Bool.false_or, Bool.false_or, sound]
      split <;> next ref => exact (congrArg (fun o => (Option.map (soundRef s x (e1Value x c)) o).getD false) ref).symm
    · rfl

end

section
variable {s : State} {u r a b : Nat}

/-- A sample that does not stand is not brought back by another's end. -/
theorem endSample_none (h : getSample s u r = none) (result cause : Nat) : getSample (endSample s a b result cause) u r = none := by
  rcases hx : getSample s a b with _ | x
  · rw [endSample, hx]
    exact h
  · rcases ho : getOp s a with _ | o
    · rw [endSample, hx]
      dsimp only
      rw [onOp, ho]
      exact h
    · rw [getSample, endSample_samples hx ho, List.find?_eq_none]
      exact fun y hy => List.find?_eq_none.1 h y (List.mem_filter.1 hy).1

/-- The end of an INCONCLUSIVE sample, if there is one, counts in words 6 and 14 at most. -/
theorem endSample_incon_rpl (s : State) (a b cause : Nat) : RplKept [6, 14] s (endSample s a b rIncon cause) := by
  rcases hx : getSample s a b with _ | x
  · rw [endSample, hx]
    exact .rfl_ s
  · rcases ho : getOp s a with _ | o
    · rw [endSample, hx]
      dsimp only
      rw [onOp, ho]
      exact .rfl_ s
    · obtain ⟨v, before, after⟩ := endSample_rpl hx ho rIncon cause
      rw [countRpl_eq, if_neg (by decide)] at after
      exact ((before.mono (List.nil_subset _)).trans (addRpl_rpl (.rfl_ v) x.part _ 1 (by decide))).trans (after.mono (by decide))

theorem engineOut_none (h : getSample s u r = none) (e : Nat) (st : EngSt) : getSample (engineOut s e st) u r = none :=
  List.foldlRecOn (motive := fun t => getSample t u r = none) _ _ h fun _ ht y _ => endSample_none ht rIncon 0x0C

theorem engineOut_rpl (s : State) (e : Nat) (st : EngSt) : RplKept [6, 14] s (engineOut s e st) :=
  (List.foldlRecOn (motive := fun t => RplKept [6, 14] s t) _ _ (.rfl_ s) fun t ht y _ => ht.trans (endSample_incon_rpl t y.uid y.row 0x0C)).of_keeps [.engines]
    (updEng_keeps e _ (Keeps.rfl_ _ _) (List.Subset.refl _))

theorem testsDue_same (l : List Nat) (s : State) : Same [.engines] s (l.foldl engineTestDue s) :=
  List.foldlRecOn (motive := fun t => Same [.engines] s t) _ _ (Same.rfl_ _ s) fun t ht e _ => ht.trans (engineTestDue_keeps e (Keeps.rfl_ _ t) (List.Subset.refl _)).same

/-- What arbitration does to the engines brings no sample back, and counts no result but INCONCLUSIVE ones. -/
theorem engineEffects_effect (h : getSample s u r = none) (x : Sample) (os : List (List Nat × (Nat × Nat))) :
    getSample (engineEffects s x os) u r = none ∧ RplKept [6, 14] s (engineEffects s x os) := by
  unfold engineEffects
  dsimp only
  generalize ((os.filter fun o => o.2 == arbEngfault).flatMap fun o => o.1.map (engOfCol x)).eraseDups = fence
  have fenced : getSample (fence.foldl (fun s e => engineOut s e .fenced) s) u r = none ∧ RplKept [6, 14] s (fence.foldl (fun s e => engineOut s e .fenced) s) :=
    List.foldlRecOn (motive := fun t => getSample t u r = none ∧ RplKept [6, 14] s t) _ _ ⟨h, .rfl_ s⟩
      fun t ⟨gone, counts⟩ e _ => ⟨engineOut_none gone e .fenced, counts.trans (engineOut_rpl t e .fenced)⟩
  obtain ⟨gone, counts⟩ := fenced
  exact ⟨(getSample_of_same (testsDue_same _ _) u r).trans gone, counts.of_same (testsDue_same _ _)⟩

/-- With no column to fence an engine for, only tests are ordered. -/
theorem engineEffects_unfenced (x : Sample) {os : List (List Nat × (Nat × Nat))} (h : (os.any fun o => o.2 == arbEngfault) = false) :
    Same [.engines] s (engineEffects s x os) := by
  have none_ : (os.filter fun o => o.2 == arbEngfault) = [] := List.filter_eq_nil_iff.2 fun o ho => by
    rw [Bool.not_eq_true]
    exact List.any_eq_false.1 h o ho |> Bool.eq_false_iff.2
  unfold engineEffects
  dsimp only
  rw [none_]
  exact testsDue_same _ s

end

section
variable {s : State} {n : Nat} {x : Sample} {o : OpV}

/-- The word of the RPL block that an arbitration counts in. -/
def arbWord (os : List (List Nat × (Nat × Nat))) : Nat :=
  if os.any fun y => y.2 == arbMirage then 3 else if os.any fun y => y.2 == arbDoubt then 4 else if os.any fun y => y.2 == arbDisagree then 6 else 5

theorem arbSample_word (os : List (List Nat × (Nat × Nat))) : resultWord (arbSample os).1 = arbWord os ∧ (arbSample os).1 ≠ rSkipped := by
  unfold arbSample arbWord
  rw [List.find?_cons, List.find?_cons, List.find?_cons, List.find?_nil]
  cases os.any fun y => y.2 == arbMirage
  · cases os.any fun y => y.2 == arbDoubt
    · cases os.any fun y => y.2 == arbDisagree <;> decide
    · exact ⟨rfl, (by decide : rSuspect ≠ rSkipped)⟩
  · exact ⟨rfl, (by decide : rMirage ≠ rSkipped)⟩

theorem arbitration_effect (hn : sampleAt s n = some x) (hx : getSample s x.uid x.row = some x) (ho : getOp s x.uid = some o) (hc : x.state = .confirming)
    (hm : x.matched = true) (hw : x.wtviol = false) (hu : x.unread = false) (hd : x.conf.all (engDone s (dK x.dsc)) = true) (hp : x.part < s.parts.length)
    (hl : (rplOf s x.part).length = 15) {os : List (List Nat × (Nat × Nat))}
    (hos : os = arbOutcomes s x (exactMode o) (comboClass (dA o.dsc) (dB o.dsc) (dC o.dsc) (dAcc o.dsc) == some .integer)) :
    ∃ t, exec (.arbitration n) s = .next t ∧ getSample t x.uid x.row = none ∧
      ((arbWord os = 6 → (os.any fun y => y.2 == arbEngfault) = false) → (rplOf t x.part).getD (arbWord os) 0 = satAdd ((rplOf s x.part).getD (arbWord os) 0) 1) ∧
      t.spires = s.spires ∧ t.cistern.data = s.cistern.data := by
  obtain ⟨t, run, keeps⟩ := execArbitration_keeps n (Keeps.rfl_ _ s) (List.Subset.refl _)
  have closed : exec (.arbitration n) s = .next (engineEffects (endSample s x.uid x.row (arbSample os).1 (arbSample os).2) x os) := by
    change execArbitration n s = _
    unfold execArbitration
    rw [hn]
    dsimp only
    rw [if_neg (by simp [hc, hm, hw, hu, hd]), onOp_some ho, ← hos]
  obtain rfl := Host.Outcome.next.inj (closed.symm.trans run)
  obtain ⟨word, counts⟩ := arbSample_word os
  have range : arbWord os = 3 ∨ arbWord os = 4 ∨ arbWord os = 5 ∨ arbWord os = 6 := by
    unfold arbWord
    split
    · exact .inl rfl
    · split
      · exact .inr (.inl rfl)
      · split
        · exact .inr (.inr (.inr rfl))
        · exact .inr (.inr (.inl rfl))
  have counted := endSample_counts hx ho (cause := (arbSample os).2) counts hp hl (by rw [word]; omega)
  obtain ⟨gone, rest⟩ := engineEffects_effect (endSample_getSample hx ho (arbSample os).1 (arbSample os).2) x os
  refine ⟨_, run, gone, fun hf => ?_, keeps.same .spires (by decide), keeps.same.bytes_eq.1⟩
  rw [word] at counted
  rw [← counted]
  by_cases six : arbWord os = 6
  · exact (RplKept.of_same (.rfl_ _) (engineEffects_unfenced x (hf six)) : RplKept [] _ _).word _ _ List.not_mem_nil
  · exact rest.word _ _ (by simp; omega)

/-- Settles O25: the end of a sample is its charge, its count and the freeing of what it held; the engine effects of an arbitration
only end other samples. -/
theorem replayVerdicts : Obligations.ReplayVerdicts := by
  unfold Obligations.ReplayVerdicts
  refine ⟨?_, ?_, ?_, ?_, ?_⟩
  · exact fun s n x o hn hx ho hp hl hc hu hm hg => replayCompare_passed hn hx ho hp hl hc hu hm hg
  · exact fun s n x o hn hx ho hp hl hc hu hm => replayCompare_mismatch hn hx ho hp hl hc hu hm
  · exact fun s n x o hn hx ho hp hl hc => replayDeadline_effect hn hx ho hp hl hc
  · exact fun s n x o hn hx ho hp hl hc h => confirmationDeadline_effect hn hx ho hp hl hc h
  · intro s n x o hn hx ho hc hm hw hu hd hp hl integer os has word rows r1
    refine ⟨fun hexact c r2 hcol hwin => ?_, arbitration_effect hn hx ho hc hm hw hu hd hp hl rfl⟩
    have column (hne : ¬ (hostElem x c = r1 c ∧ r2 = hostElem x c)) : ([c], arbBits (hostElem x c) (r1 c) r2 (integer || soundColumn s x c)) ∈ os := by
      have := arbOutcomes_column integer hcol hwin hne
      rwa [show arbOutcomes s x false integer = os from by simp only [os, hexact]] at this
    refine ⟨fun he h1 => ?_, fun h2 h1 => ?_, fun h1 h2 hi => ?_, fun r hi hr h1 h2 => ?_⟩
    · have out := column fun h => h1 h.1.symm
      rwa [arbBits, if_pos he] at out
    · have out := column fun h => h2 h.2
      rwa [arbBits, if_neg h2, if_neg h1] at out
    · have out := column fun h => h2 h.2
      rwa [arbBits, if_neg h2, if_pos h1, hi, Bool.true_or] at out
    · have out := column fun h => h2 h.2
      have sound : soundColumn s x c = soundRef s x (r1 c) r := congrArg (fun q => (Option.map (soundRef s x (e1Value x c)) q).getD false) hr
      rwa [arbBits, if_neg h2, if_pos h1, hi, Bool.false_or, sound] at out

end
end Sys2Proof.Machine
end

section
/-! What a partition recovers with, through the rest of a Belfry tick (R244 to R264). -/

set_option Elab.async false

namespace Sys2Proof.Machine

/-! ### What a partition recovers with (R244 to R264), through the rest of a Belfry tick -/

/-- Of a partition what its seals and rollbacks are made of. -/
def rcvOf (q : Part) : Option Window × Option Rollback × List Gen × Nat × Byte × Bool × Bool × W16 :=
  (q.window, q.rb, q.gens, q.maxGen, q.sealFail, q.norecov, q.c4Open, q.epoch)

/-- From `s` to `t` no partition's recovery changes. -/
def RcvKept (s t : State) : Prop := ∀ q, rcvOf (getPart t q) = rcvOf (getPart s q)

section
variable {s t u : State}

theorem RcvKept.rfl_ (s : State) : RcvKept s s := fun _ => rfl

theorem RcvKept.trans (h : RcvKept s t) (g : RcvKept t u) : RcvKept s u := fun q => (g q).trans (h q)

theorem RcvKept.of_parts (h : RcvKept s t) (e : u.parts = t.parts) : RcvKept s u := fun q => (congrArg rcvOf (getPart_of_parts e q)).trans (h q)

theorem RcvKept.of_same {l : List Fld} (h : RcvKept s t) (e : Same l t u) (hl : .parts ∉ l := by decide) : RcvKept s u := h.of_parts (e .parts hl)

theorem RcvKept.updPart (h : RcvKept s t) (p : Nat) (f : Part → Part) (hf : ∀ x, rcvOf (f x) = rcvOf x) : RcvKept s (updPart t p f) :=
  fun q => (getPart_updPart_proj rcvOf t p q f hf).trans (h q)

theorem RcvKept.updCnt (h : RcvKept s t) (p : Nat) (f : PartCnt → PartCnt) : RcvKept s (updCnt t p f) := h.updPart p _ fun _ => rfl

theorem RcvKept.usesLines (h : RcvKept s t) (e : UsesLines t u) : RcvKept s u := fun q => Eq.trans (by rw [e q]; rfl) (h q)

theorem post_rcv (h : RcvKept s t) (p : Nat) (k : NoteKind) (sp : Nat) (pay : List W32) : RcvKept s (post t p k sp pay) :=
  fun q => (post_getPart rcvOf (fun _ _ => rfl) t p q k sp pay).trans (h q)

theorem addRec_rcv (h : RcvKept s t) (r : Rec) : RcvKept s (addRec t r) := fun q => (addRec_getPart rcvOf (fun _ _ => rfl) t r q).trans (h q)

theorem logDigest_rcv (h : RcvKept s t) (p : Nat) (r : Rec) : RcvKept s (logDigest t p r) :=
  (h.updPart p (fun q => { q with logs := { q.logs with digests := q.logs.digests.push 8191 r } }) fun _ => rfl).of_parts rfl

theorem updClosed_rcv (h : RcvKept s t) (p : Nat) (b : LdBody) (f : ClosedKey → ClosedKey) : RcvKept s (updClosed t p b f) := h.updPart p _ fun _ => rfl

theorem closeKey_rcv (h : RcvKept s t) (p : Nat) (k : LayerKey) (forced : Bool) : RcvKept s (closeKey t p k forced) := by
  unfold closeKey
  refine logDigest_rcv (RcvKept.updPart ?_ p _ fun _ => by rfl) p _
  split
  · exact h.updCnt p _
  · exact h.updCnt p _

theorem closeDueKeys_rcv (h : RcvKept s t) (p : Nat) : RcvKept s (closeDueKeys t p) :=
  List.foldlRecOn (motive := RcvKept s) _ _ h fun _ hv k _ => closeKey_rcv hv p k false

theorem attOne_rcv (h : RcvKept s t) (p : Nat) (x : W16 × W32) : RcvKept s (attOne p t x) := by
  have marked (mine : List ClosedKey) := h.updPart p (fun q => { q with closed := q.closed.map fun c => if mine.contains c then { c with attested := true } else c }) fun _ => rfl
  unfold attOne
  dsimp only
  split
  · unfold countUnlic
    split
    · exact marked _
    · exact ((marked _).updCnt p _).updPart p _ fun _ => rfl
  · split
    · exact (marked _).of_parts rfl
    · exact logDigest_rcv ((marked _).updCnt p _) p _

theorem attStep_rcv (h : RcvKept s t) (p : Nat) : RcvKept s (attStep t p) :=
  List.foldlRecOn (motive := RcvKept s) _ _ h fun _ hv x _ => attOne_rcv hv p x

theorem releaseTds_rcv (h : RcvKept s t) (p : Nat) (b : LdBody) : RcvKept s (releaseTds t p b) := by
  unfold releaseTds
  split
  · exact h
  · split
    · exact updClosed_rcv (h.updCnt p _) p _ _
    · exact h

theorem divergeInput_same (s : State) (p : Nat) (l : W16) (sp : Option Nat) : Same [.inputs] s (divergeInput s p l sp) :=
  (divergeInput_keeps p l sp (Keeps.rfl_ _ s) (List.Subset.refl _)).same

theorem divergeEnds_rcv (h : RcvKept s t) (p entry : Nat) (c : ClosedKey) (sp : Option Nat) : RcvKept s (divergeEnds t p entry c sp) := by
  unfold divergeEnds
  dsimp only
  have ended := updClosed_rcv h p c.body fun c => { c with diverge := c.diverge.filter fun e => e != entry }
  generalize (updClosed t p c.body fun c => { c with diverge := c.diverge.filter fun e => e != entry }) = v at ended ⊢
  have released (l : List PeerTds) := releaseTds_rcv (t := { v with peerTds := l }) (ended.of_parts rfl) p c.body
  refine RcvKept.trans (released _) (RcvKept.of_same (.rfl_ _) (divergeInput_same _ p c.body.layer sp))

theorem nameTile_rcv (h : RcvKept s t) (e : Nat × ReplicaCfg) (b : LdBody) : RcvKept s (nameTile t e b) := by
  unfold nameTile
  dsimp only
  split
  · split
    · exact divergeEnds_rcv h _ _ _ _
    · exact h
  · exact h

theorem diverged_rcv (h : RcvKept s t) (e : Nat × ReplicaCfg) (c : ClosedKey) (b : LdBody) : RcvKept s (diverged t e c b) := by
  unfold diverged
  dsimp only
  split
  · exact divergeEnds_rcv h _ _ _ _
  · split
    · exact divergeEnds_rcv h _ _ _ _
    · split
      · next q _ =>
        refine nameTile_rcv (updClosed_rcv ?_ _ _ _) e c.body
        exact List.foldlRecOn (motive := RcvKept s) _ _ h fun v hv body _ => hv.of_same (sendBan_keeps q 0x31 body (Keeps.rfl_ [.ports, .big] v) (List.Subset.refl _)).same
      · exact divergeEnds_rcv h _ _ _ _

theorem compareOne_rcv (h : RcvKept s t) (e : Nat × ReplicaCfg) (c : ClosedKey) (b : LdBody) (mark : State → State)
    (hmark : ∀ v, RcvKept s v → RcvKept s (mark v)) : RcvKept s (compareOne t e c b mark) := by
  have logged := logDigest_rcv (hmark _ (updClosed_rcv h e.2.part c.body fun c => { c with compared := c.compared ++ [e.1] })) e.2.part
  unfold compareOne
  dsimp only
  split
  · exact diverged_rcv (logged _) e c b
  · split
    · exact (releaseTds_rcv (logged _) _ _).of_same (partInput_keeps _ _ _ _ (Keeps.rfl_ [.inputs] _) (List.Subset.refl _)).same
    · exact releaseTds_rcv (logged _) _ _

theorem compareOwn_rcv (h : RcvKept s t) (e : Nat × ReplicaCfg) (c : ClosedKey) : RcvKept s (compareOwn e t c) := by
  unfold compareOwn
  dsimp only
  split
  · exact h
  · split
    · exact h
    · split
      · exact h
      · exact releaseTds_rcv (compareOne_rcv h e c _ _ fun v hv => updClosed_rcv hv _ _ _) _ _

theorem comparePeer_rcv (h : RcvKept s t) (e : Nat × ReplicaCfg) (r : PeerRec) : RcvKept s (comparePeer e t r) := by
  unfold comparePeer
  split
  · exact h
  · split
    · exact h
    · split
      · exact h
      · exact compareOne_rcv h e _ _ _ fun v hv => hv.of_parts rfl

theorem compareTick_rcv (h : RcvKept s t) : RcvKept s (compareTick t) :=
  List.foldlRecOn (motive := RcvKept s) _ _ h fun v hv e _ => by
    split
    · exact List.foldlRecOn (motive := RcvKept s) _ _ hv fun _ hw c _ => compareOwn_rcv hw e c
    · exact List.foldlRecOn (motive := RcvKept s) _ _ hv fun _ hw r _ => comparePeer_rcv hw e r

theorem portIssue_rcv (h : RcvKept s t) (far : Bool) : RcvKept s (portIssue t far) := h.usesLines (portIssue_issuing far t).items.parts

theorem fencedMeter_rcv (h : RcvKept s t) : RcvKept s (fencedMeter t) := List.foldlRecOn (motive := RcvKept s) _ _ h fun _ hv x _ => hv.updCnt x.part _

/-- What follows the seals and restores in a Belfry tick. -/
def tickRest (v : State) : State := fencedMeter (busyEngines (compareTick ((List.range Config.parts).foldl (fun s p => attStep (closeDueKeys s p) p) v)))

theorem tickWork_eq (s : State) : tickWork s = tickRest ((List.range Config.parts).foldl sealRetry (beforeSeals s)) := rfl

theorem tickRest_rcv (h : RcvKept s t) : RcvKept s (tickRest t) := by
  have keys : RcvKept s ((List.range Config.parts).foldl (fun s p => attStep (closeDueKeys s p) p) t) :=
    List.foldlRecOn (motive := RcvKept s) _ _ h fun _ hv p _ => attStep_rcv (closeDueKeys_rcv hv p) p
  exact fencedMeter_rcv ((compareTick_rcv keys).of_same (busyEngines_keeps (Keeps.rfl_ [.big] _) (List.Subset.refl _)).same)

theorem endTick_rcv (h : RcvKept s t) : RcvKept s (endTick t) := by
  have spires : Same [.spires] t (spireTick t) := (spireTick_keeps (Keeps.rfl_ _ t) (List.Subset.refl _)).same
  have alerts : Same [.alert] (spireTick t) (lastingAlerts (spireTick t)) := (lastingAlerts_keeps (Keeps.rfl_ _ _) (List.Subset.refl _)).same
  exact portIssue_rcv (portIssue_rcv ((h.of_same spires).of_same alerts) false) true

end

/-- After the seals and restores of a stepping tick, `v`, its end leaves every partition's recovery and the time. -/
theorem belfryTick_recovery {s : State} (hrun : s.time.run = true) (hb : s.belfry.run = true) :
    ∃ t, exec .belfryTick s = .next t ∧
      RcvKept ((List.range Config.parts).foldl sealRetry (beforeSeals (sampleTick (atTick s) (nextBelfry s)))) t ∧
      t.time.tick = (beforeSeals (sampleTick (atTick s) (nextBelfry s))).time.tick := by
  refine ⟨_, exec_belfryTick hrun, ?_⟩
  obtain ⟨_, -, start⟩ := atTick_eq s
  have runs : (atTick s).belfry.run = true := by rw [start]; exact hb
  have ended := endTick_same (tickDone (atTick s) (nextBelfry s))
  have rcv := endTick_rcv (RcvKept.rfl_ (tickDone (atTick s) (nextBelfry s)))
  have done : tickDone (atTick s) (nextBelfry s) = orderFrames (atTick s).caravan.frames.length (tickWork (sampleTick (atTick s) (nextBelfry s))) := if_pos runs
  rw [done] at ended rcv ⊢
  generalize sampleTick (atTick s) (nextBelfry s) = v at *
  have ordered := (orderFrames_keeps (atTick s).caravan.frames.length (Keeps.rfl_ [.caravan] (tickWork v)) (List.Subset.refl _)).same
  have work := tickWork_same v
  have before := (beforeSeals_keeps (Keeps.rfl_ _ v) (List.Subset.refl _)).same
  refine ⟨RcvKept.trans (.of_same ?_ ordered) rcv, ?_⟩
  · rw [tickWork_eq]
    exact tickRest_rcv (.rfl_ _)
  · rw [show _ = _ from ended .tick (by decide), show _ = _ from ordered .tick (by decide), show _ = _ from work .tick (by decide)]
    exact (before .tick (by decide) :).symm

end Sys2Proof.Machine
end

section
/-! What a seal, a refusal and a restore leave; R252's evaluation. -/

set_option Elab.async false

namespace Sys2Proof.Machine

/-! ### What a seal, a refusal, a restore leave of the recovery (R252 to R264) -/

section
variable {s t u : State}

theorem freeNote_rcv (h : RcvKept s t) (p : Nat) (g : Gen) (failed : Bool) : RcvKept s (freeNote t p g failed) := post_rcv h p _ _ _

theorem beginInterval_rcv (h : RcvKept s t) (p : Nat) : RcvKept s (beginInterval t p) :=
  (h.updPart p (fun q => { q with intervalTick := t.time.tick, hangSeen := false, mtSeen := false }) fun _ => rfl).of_parts rfl

theorem freeTallies_rcv (h : RcvKept s t) (p : Nat) : RcvKept s (freeTallies t p) := by
  unfold freeTallies
  dsimp only
  have lines (n : Nat) : RcvKept s (subUse t p n) := h.updCnt p _
  refine RcvKept.trans ?_ (RcvKept.of_same (.rfl_ _) (serveTallies_keeps _ (Keeps.rfl_ [.talloc, .tallies, .tallyQ] _) (List.Subset.refl _)).same)
  exact (lines _).of_parts rfl

/-- `t` differs from `s`, in the recovery of the partitions, by a new recovery `r` of partition `p`. -/
def RcvSet (p : Nat) (r : Option Window × Option Rollback × List Gen × Nat × Byte × Bool × Bool × W16) (s t : State) : Prop :=
  rcvOf (getPart t p) = r ∧ ∀ q, q ≠ p → rcvOf (getPart t q) = rcvOf (getPart s q)

theorem RcvSet.updPart {p : Nat} (hp : p < s.parts.length) (f : Part → Part) : RcvSet p (rcvOf (f (getPart s p))) s (updPart s p f) :=
  ⟨congrArg rcvOf (getPart_updPart s p f hp), fun _ hq => congrArg rcvOf (getPart_updPart_ne s f hq)⟩

theorem RcvSet.trans_kept {p : Nat} {r : Option Window × Option Rollback × List Gen × Nat × Byte × Bool × Bool × W16} (h : RcvSet p r s t) (g : RcvKept t u) : RcvSet p r s u :=
  ⟨(g p).trans h.1, fun q hq => (g q).trans (h.2 q hq)⟩

theorem RcvKept.trans_set {p : Nat} {r : Option Window × Option Rollback × List Gen × Nat × Byte × Bool × Bool × W16} (h : RcvKept s t) (g : RcvSet p r t u) : RcvSet p r s u :=
  ⟨g.1, fun q hq => (g.2 q hq).trans (h q)⟩

theorem RcvSet.trans {p : Nat} {r r' : Option Window × Option Rollback × List Gen × Nat × Byte × Bool × Bool × W16} (h : RcvSet p r s t) (g : RcvSet p r' t u) : RcvSet p r' s u :=
  ⟨g.1, fun q hq => (g.2 q hq).trans (h.2 q hq)⟩

theorem refuseSeal_rcv {p : Nat} {w : Window} (hp : p < s.parts.length) (hw : (getPart s p).window = some w) (code : Nat) :
    RcvSet p (rcvOf { getPart s p with window := none, sealFail := BitVec.ofNat 8 code }) s (refuseSeal s p code) := by
  unfold refuseSeal
  rw [hw]
  dsimp only
  exact (RcvSet.updPart hp fun q => { q with window := none, sealFail := BitVec.ofNat 8 code }).trans_kept (post_rcv (.rfl_ _) p _ _ _)

/-- The generation that a seal makes. -/
def sealedGen (s : State) (p : Nat) (w : Window) : Gen :=
  ⟨(getPart s p).maxGen + 1, freeOasis (getPart s p).gens, w.era, w.layer, w.step, w.epoch, w.wr.s1, w.wr.s2, w.wr.n, w.k1, w.k2, s.time.tick, w.tensors⟩

/-- A seal's first part: its generation is held. -/
def sealStored (s : State) (p : Nat) (w : Window) : State :=
  let cs := closingSet s p w
  let d := oasisWords (sealedGen s p w) p (((partCfg s p).map (·.strict)).getD false) cs.length ((cs.filter fun o => o.verdict == vIncon).length)
    ((cs.map (·.skipped)).foldl (· + ·) 0) ((cs.filter fun o => !o.checkable).length)
  updPart s p fun q => { q with
    window := none, maxGen := (getPart s p).maxGen + 1, gens := (sealedGen s p w :: (getPart s p).gens).take 2, c4Open := false, lastRcv := none
    oasisMem := (q.oasisMem.filter fun m => m.1 != (sealedGen s p w).slot) ++ [((sealedGen s p w).slot, d)] }

/-- A seal's second part: the operations it used, its interval, its writes and notes. -/
def sealEnded (s1 : State) (p : Nat) (w : Window) (g : Gen) (old : List Gen) : State :=
  let used := fun o : OpV => if o.part = p ∧ inClosing w o then { o with interval := false } else o
  let s2 := { s1 with
    ops := (s1.ops.filter fun o => !(o.part == p && lateStands o)).map used
    tiles := s1.tiles.map fun t => if t.part = p then { t with acceptedEpochs := [] } else t }
  let s3 := nearPush (beginInterval s2 p) (.oasis p g.slot)
  let s4 := if g.num % 16384 = 0 then addRec s3 ⟨.rebase, s3.time.tick, 0xFFFF, p, packW [(0, p)], noteGen g.num⟩ else s3
  let s5 := post s4 p .sealed 0xFFFF (noteGen g.num ++ [BitVec.ofNat 32 g.slot, BitVec.ofNat 32 g.era.toNat, g.step, BitVec.ofNat 32 g.layer.toNat])
  old.foldl (fun s x => freeNote s p x false) s5

theorem makeSeal_eq (s : State) (p : Nat) (w : Window) :
    makeSeal s p w = sealEnded (sealStored s p w) p w (sealedGen s p w) ((sealedGen s p w :: (getPart s p).gens).drop 2) := rfl

theorem sealEnded_rcv (h : RcvKept s t) (p : Nat) (w : Window) (g : Gen) (old : List Gen) : RcvKept s (sealEnded t p w g old) := by
  unfold sealEnded
  dsimp only
  refine List.foldlRecOn (motive := RcvKept s) _ _ (post_rcv ?_ p _ _ _) fun v hv x _ => freeNote_rcv hv p x false
  have interval (ops : List OpV) (tiles : List Tile) (i : NearItem) : RcvKept s (nearPush (beginInterval { t with ops := ops, tiles := tiles } p) i) :=
    (beginInterval_rcv (t := { t with ops := ops, tiles := tiles }) (h.of_parts rfl) p).of_parts rfl
  split
  · exact addRec_rcv (interval _ _ _) _
  · exact interval _ _ _

theorem makeSeal_rcv {p : Nat} (hp : p < s.parts.length) (w : Window) :
    RcvSet p (rcvOf { getPart s p with window := none, maxGen := (getPart s p).maxGen + 1, gens := (sealedGen s p w :: (getPart s p).gens).take 2, c4Open := false }) s (makeSeal s p w) := by
  rw [makeSeal_eq]
  exact RcvSet.trans_kept (RcvSet.updPart hp _) (sealEnded_rcv (.rfl_ _) p w _ _)

theorem restored_rcv {p : Nat} (hp : p < s.parts.length) (r : Rollback) :
    RcvSet p (rcvOf { getPart s p with rb := none, c4Open := true }) s (restored s p r) := by
  unfold restored
  dsimp only
  generalize rcvRec s p r _ = x
  have logged : RcvKept s (if b2n r.c1 + 2 * b2n r.c2 + 12 = 15 then addRec s x else alert (addRec s x) alRecovery) := by
    split
    · exact addRec_rcv (.rfl_ s) x
    · exact (addRec_rcv (.rfl_ s) x).of_parts rfl
  have parts : (if b2n r.c1 + 2 * b2n r.c2 + 12 = 15 then addRec s x else alert (addRec s x) alRecovery).parts = (addRec s x).parts := by split <;> rfl
  generalize (if b2n r.c1 + 2 * b2n r.c2 + 12 = 15 then addRec s x else alert (addRec s x) alRecovery) = v at logged parts ⊢
  have ended := RcvSet.updPart (s := v) (p := p) (by rw [parts, addRec_parts_length]; exact hp) fun q => { q with rb := none, c4Open := true, lastRcv := some x }
  have same : rcvOf { getPart v p with rb := none, c4Open := true, lastRcv := some x } = rcvOf { getPart s p with rb := none, c4Open := true } :=
    congrArg (fun r => (r.1, none, r.2.2.1, r.2.2.2.1, r.2.2.2.2.1, r.2.2.2.2.2.1, true, r.2.2.2.2.2.2.2)) (logged p)
  have detached (u : State) : RcvKept u (detachOps u p) := (RcvKept.rfl_ u).of_parts rfl
  rw [same] at ended
  exact logged.trans_set (ended.trans_kept (post_rcv (freeTallies_rcv (beginInterval_rcv (detached _) p) p) p _ _ _))

theorem failRestore_rcv {p : Nat} (hp : p < s.parts.length) (k : RecKind) (tried : List Nat) :
    RcvSet p (rcvOf { getPart s p with rb := none, norecov := true }) s (failRestore s p k tried) := by
  unfold failRestore
  dsimp only
  have ended := RcvSet.updPart hp fun q => { q with rb := none, norecov := true }
  have alerted (v : State) : RcvKept v (alert v alRecovery) := (RcvKept.rfl_ v).of_parts rfl
  exact ended.trans_kept (post_rcv ((addRec_rcv (.rfl_ _) _).trans (alerted _)) p _ _ _)

/-! ### The evaluation of what waits at a Belfry tick -/

/-- A partition with neither a window nor a rollback is left by the evaluation. -/
theorem sealRetry_idle {p : Nat} (hw : (getPart s p).window = none) (hr : (getPart s p).rb = none) : sealRetry s p = s := by
  have check : sealCheck s p = s := by rw [sealCheck, hw]
  unfold sealRetry
  rw [check, ite_self]
  dsimp only
  rw [hr]
  rfl

/-- Where one partition alone has a window or a rollback, the evaluation is that of this partition. -/
theorem sealRetry_fold {p : Nat} (hp : p < 16) (r : Option Window × Option Rollback × List Gen × Nat × Byte × Bool × Bool × W16)
    (alone : ∀ q, q ≠ p → (getPart s q).window = none ∧ (getPart s q).rb = none) (set : RcvSet p r s (sealRetry s p)) :
    (List.range Config.parts).foldl sealRetry s = sealRetry s p := by
  have idle {u : State} (hu : ∀ q, q ≠ p → rcvOf (getPart u q) = rcvOf (getPart s q)) (l : List Nat) (hl : p ∉ l) : l.foldl sealRetry u = u := by
    induction l with
    | nil => rfl
    | cons q l ih =>
      obtain ⟨hqp, hpl⟩ := not_or.1 (List.mem_cons.not.1 hl)
      have rcv := hu q (Ne.symm hqp)
      rw [List.foldl_cons, sealRetry_idle ((congrArg Prod.fst rcv).trans (alone q (Ne.symm hqp)).1)
        ((congrArg (fun r => r.2.1) rcv :).trans (alone q (Ne.symm hqp)).2)]
      exact ih hpl
  obtain ⟨a, b, split⟩ := List.append_of_mem (List.mem_range.2 (show p < Config.parts from hp))
  have distinct : (a ++ p :: b).Nodup := split ▸ List.nodup_range
  have outside := List.nodup_cons.1 (List.nodup_middle.1 distinct)
  have notIn := not_or.1 (List.mem_append.not.1 outside.1)
  rw [split, List.foldl_append, idle (fun _ _ => rfl) a notIn.1, List.foldl_cons, idle set.2 b notIn.2]

/-- A partition that has a window or a rollback is one of the partitions. -/
theorem part_of_window {p : Nat} {w : Window} (h : (getPart s p).window = some w) : p < s.parts.length := by
  by_contra hp
  rw [getPart, List.getD_eq_default _ _ (Nat.le_of_not_lt hp)] at h
  exact nomatch h

theorem part_of_rollback {p : Nat} {r : Rollback} (h : (getPart s p).rb = some r) : p < s.parts.length := by
  by_contra hp
  rw [getPart, List.getD_eq_default _ _ (Nat.le_of_not_lt hp)] at h
  exact nomatch h

/-! ### R252: a read window is evaluated -/

theorem sealRetry_window {p : Nat} {w : Window} (hu : inSafe s uBlf = false) (hr : (getPart s p).rb = none) (hw : (getPart s p).window = some w) (hph : w.phase = 2)
    {r : Option Window × Option Rollback × List Gen × Nat × Byte × Bool × Bool × W16}
    (set : RcvSet p r s (if openOps01 s p w then s else (sealRefusal s p w).elim (makeSeal s p w) (refuseSeal s p))) (hrb : r.2.1 = none) :
    sealRetry s p = if openOps01 s p w then s else (sealRefusal s p w).elim (makeSeal s p w) (refuseSeal s p) := by
  have check : sealCheck s p = if openOps01 s p w then s else (sealRefusal s p w).elim (makeSeal s p w) (refuseSeal s p) := by
    unfold sealCheck
    rw [hw]
    dsimp only
    rw [if_neg (by simp [hph])]
    cases sealRefusal s p w <;> rfl
  have ended : (getPart (sealCheck s p) p).rb = none := by
    rw [check]
    exact (congrArg (fun x => x.2.1) set.1).trans hrb
  have serves : (if inSafe s uBlf then s else sealCheck s p) = sealCheck s p := if_neg (by simp [hu])
  unfold sealRetry
  dsimp only
  rw [serves, ended]
  exact (if_neg Bool.false_ne_true).trans check

/-- R252's table as the code of the first condition that holds, 0 with none. -/
def sealCode (u : State) (p : Nat) (w : Window) : Nat :=
  let cs := u.ops.filter fun o => o.part == p && inClosing w o
  if (cs.any fun o => o.verdict == vSuspect || o.verdict == vMirage) || u.ops.any (lateHolds u p) then 0x02
  else if cs.any fun o => o.verdict == vIncon && o.disagree then 0x03
  else if (getPart u p).hangSeen then 0x04
  else if (getPart u p).mtSeen then 0x05
  else if w.rd ≠ w.wr ∨ w.bad250 = true then 0x06
  else if w.nclkLost then 0x07
  else if ((partCfg u p).map (·.strict)).getD false && cs.any fun o => o.verdict == vIncon then 0x0A
  else if w.kwr then 0x0B else 0

theorem sealRefusal_code (u : State) (p : Nat) (w : Window) : sealRefusal u p w = if sealCode u p w = 0 then none else some (sealCode u p w) := by
  unfold sealRefusal sealCode closingSet
  dsimp only
  split
  · rfl
  split
  · rfl
  split
  · rfl
  split
  · rfl
  split
  · rfl
  split
  · rfl
  split
  · rfl
  split <;> rfl

end

/-- Settles O28: only the partition with the window is evaluated, and the rest of the tick leaves what a seal is made of. -/
theorem sealOrRefusal : Obligations.SealOrRefusal := by
  unfold Obligations.SealOrRefusal
  refine ⟨?_, ?_⟩
  · intro s p w hrun hb hp
    obtain ⟨t, run, kept, tick⟩ := belfryTick_recovery hrun hb
    generalize beforeSeals (sampleTick (atTick s) (nextBelfry s)) = u at kept tick ⊢
    intro _ hu alone hw hph cs waits code
    have hcode : code = sealCode u p w := rfl
    have hwaits : waits = openOps01 u p w := rfl
    clear_value code waits
    have hlen := part_of_window hw
    have hrb := (alone p).1
    have others (q : Nat) (hq : q ≠ p) : (getPart u q).window = none ∧ (getPart u q).rb = none := ⟨(alone q).2 hq, (alone q).1⟩
    have recovery {r : Option Window × Option Rollback × List Gen × Nat × Byte × Bool × Bool × W16}
        (set : RcvSet p r u (if openOps01 u p w then u else (sealRefusal u p w).elim (makeSeal u p w) (refuseSeal u p))) (hr : r.2.1 = none) : rcvOf (getPart t p) = r := by
      have evaluated := sealRetry_window hu hrb hw hph set hr
      rw [← evaluated] at set
      rw [sealRetry_fold hp r others set] at kept
      exact (kept p).trans set.1
    rw [sealRefusal_code, ← hcode, ← hwaits] at recovery
    refine ⟨t, run, fun h => ?_, fun h hc => ?_, fun h hc => ?_⟩
    · rw [if_pos h] at recovery
      have same := recovery (r := rcvOf (getPart u p)) ⟨rfl, fun _ _ => rfl⟩ hrb
      exact ⟨(congrArg Prod.fst same).trans hw, (congrArg (fun r => r.2.2.1) same :)⟩
    · rw [if_neg (by simp [h]), if_neg hc] at recovery
      have same := recovery (refuseSeal_rcv hlen hw code) hrb
      exact ⟨congrArg Prod.fst same, (congrArg (fun r => r.2.2.2.2.1) same :), (congrArg (fun r => r.2.2.1) same :), (congrArg (fun r => r.2.2.2.1) same :)⟩
    · rw [if_neg (by simp [h]), if_pos hc] at recovery
      have same := recovery (makeSeal_rcv hlen w) hrb
      refine ⟨congrArg Prod.fst same, (congrArg (fun r => r.2.2.2.1) same :), sealedGen u p w, (congrArg (fun r => r.2.2.1) same :), rfl, rfl, rfl, rfl, rfl, rfl, rfl, rfl, rfl, rfl, ?_⟩
      exact tick.symm
  · intro s p w hp hw hph ho
    have closed : exec (.sealTimeout p) s = .next (refuseSeal s p 0x09) := by
      change execSealTimeout p s = _
      unfold execSealTimeout
      rw [hw]
      exact congrArg Host.Outcome.next (if_pos ⟨hph, ho⟩)
    refine ⟨_, closed, ?_⟩
    unfold refuseSeal
    rw [hw]
    dsimp only
    obtain ⟨own, other, -⟩ := updPart_effect (s := s) hp (f := fun q => { q with window := none, sealFail := BitVec.ofNat 8 0x09 }) rfl
    have same : Same [.parts, .near] s (post (updPart s p fun q => { q with window := none, sealFail := BitVec.ofNat 8 0x09 }) p .sealFail 0xFFFF
        ([BitVec.ofNat 32 0x09] ++ words64 w.readTick)) :=
      ((updPart_keeps p _ (Keeps.rfl_ [.parts] s) (List.Subset.refl _)).same.mono (by decide)).trans (post_same _ _ _ _ _)
    have len : (updPart s p fun q => { q with window := none, sealFail := BitVec.ofNat 8 0x09 }).parts.length = s.parts.length := length_updAt _ _ _
    generalize (updPart s p fun q => { q with window := none, sealFail := BitVec.ofNat 8 0x09 }) = v at own other same len ⊢
    refine ⟨?_, ?_, ?_, ?_, fun q hq => ?_, same.frame⟩
    · exact (post_getPart (·.window) (fun _ _ => rfl) v p p _ _ _).trans (congrArg Part.window own)
    · exact (post_getPart (·.sealFail) (fun _ _ => rfl) v p p _ _ _).trans (congrArg Part.sealFail own)
    · exact (post_getPart (·.gens) (fun _ _ => rfl) v p p _ _ _).trans (congrArg Part.gens own :)
    · rw [post_prod _ _ _ (len.symm ▸ hp), own]
    · exact (getPart_updPart_ne v _ hq).trans (other q hq)

end Sys2Proof.Machine
end

section
/-! Restores, reposts and the rollback's timeout (R258 to R264). -/

set_option Elab.async false

namespace Sys2Proof.Machine

/-! ### Restores and rollbacks (R258 to R264) -/

section
variable {s : State} {p : Nat} {r : Rollback} {g : Gen}

theorem sealRetry_restore (hw : (getPart s p).window = none) (hr : (getPart s p).rb = some r) (he : r.ended ≠ none) : sealRetry s p = restoreCheck s p := by
  have check : sealCheck s p = s := by rw [sealCheck, hw]
  unfold sealRetry
  rw [check, ite_self]
  dsimp only
  rw [hr]
  exact if_pos (Option.isSome_iff_ne_none.2 he)

theorem restoreCheck_matched (hr : (getPart s p).rb = some r) (he : r.ended ≠ none) (hg : (getPart s p).gens.find? (fun x => x.num == r.gen) = some g)
    (hm : r.restore = ⟨g.s1, g.s2, g.n⟩) : RcvSet p (rcvOf { getPart s p with rb := none, c4Open := true }) s (restoreCheck s p) := by
  unfold restoreCheck
  dsimp only
  rw [hr]
  dsimp only
  rw [if_neg (by simpa using he), hg]
  dsimp only
  rw [if_pos hm]
  exact restored_rcv (part_of_rollback hr) r

/-- The state in which a generation that did not match is genDropped. -/
def genDropped (s : State) (p : Nat) (g : Gen) : State := freeNote (updPart s p fun q => { q with
  gens := q.gens.filter fun x => x.num != g.num, failed := q.failed ++ [(g.num, g.tick)] }) p g true

theorem genDropped_effect (hp : p < s.parts.length) (g : Gen) :
    RcvSet p (rcvOf { getPart s p with gens := (getPart s p).gens.filter fun x => x.num != g.num }) s (genDropped s p g) ∧ (genDropped s p g).parts.length = s.parts.length :=
  ⟨(RcvSet.updPart hp fun q => { q with gens := q.gens.filter fun x => x.num != g.num, failed := q.failed ++ [(g.num, g.tick)] }).trans_kept (freeNote_rcv (.rfl_ _) p g true),
    (length_updAt _ _ _).trans (length_updAt _ _ _)⟩

theorem postRollback_rcv (s : State) (p : Nat) : RcvKept s (postRollback s p) := by
  unfold postRollback
  dsimp only
  split
  · split
    · exact post_rcv (.rfl_ s) p _ _ _
    · exact .rfl_ s
  · exact .rfl_ s

theorem postRollback_posts (hr : (getPart s p).rb = some r) (hg : (getPart s p).gens.find? (fun x => x.num == r.gen) = some g) :
    ∃ pay sp, postRollback s p = post s p .rollback sp pay := by
  unfold postRollback
  dsimp only
  rw [hr]
  dsimp only
  rw [hg]
  exact ⟨_, _, rfl⟩

/-- The note posted is held, as the newest. -/
theorem post_newest (hp : p < s.parts.length) (k : NoteKind) (sp : Nat) (pay : List W32) :
    (⟨k, (getPart s p).logs.notes.prod, s.time.tick, sp, pay⟩ : Note) ∈ (getPart (post s p k sp pay) p).logs.notes.items := by
  have posted : (getPart (post s p k sp pay) p).logs.notes = (getPart s p).logs.notes.push 4095 ⟨k, (getPart s p).logs.notes.prod, s.time.tick, sp, pay⟩ :=
    congrArg (fun q : Part => q.logs.notes) (getPart_updPart s p _ hp)
  rw [posted, Log.push]
  dsimp only
  rw [List.drop_append_of_le_length (by rw [List.length_append]; simp)]
  exact List.mem_append_right _ (List.mem_singleton_self _)

/-- A rollback to generation `h` begins: what it names, and its floor. -/
theorem startRollback_rcv (hp : p < s.parts.length) (h : Gen) (c : RbCause) (tried : List Nat) (keepTicks fenceTicks : Nat) :
    ∃ r', RcvSet p (rcvOf { getPart s p with rb := some r' }) s (startRollback s p h c tried keepTicks fenceTicks) ∧ r'.gen = h.num ∧
      r'.tried = tried.filter (· != h.num) ++ [h.num] ∧ r'.floor = (getPart s p).epoch + 1 ∧ r'.beginEpoch = none := by
  unfold startRollback
  dsimp only
  exact ⟨_, RcvSet.trans_kept (RcvSet.updPart hp _) (postRollback_rcv _ p), rfl, rfl, rfl, rfl⟩

theorem restoreCheck_differs (hr : (getPart s p).rb = some r) (he : r.ended ≠ none) (hg : (getPart s p).gens.find? (fun x => x.num == r.gen) = some g)
    (hm : r.restore ≠ ⟨g.s1, g.s2, g.n⟩) : ∃ k f, restoreCheck s p = (((getPart s p).gens.filter fun x => x.num != g.num).head?).elim
      (failRestore (genDropped s p g) p .restoreFail r.tried) fun h => startRollback (genDropped s p g) p h r.why r.tried k f := by
  have gens : (getPart (genDropped s p g) p).gens = (getPart s p).gens.filter fun x => x.num != g.num :=
    (congrArg (fun x => x.2.2.1) (genDropped_effect (part_of_rollback hr) g).1.1 :)
  refine ⟨r.keepTicks + (r.noteTick.toNat - r.decided.toNat) + (s.time.tick.toNat - (r.ended.getD 0).toNat), r.fenceTicks, ?_⟩
  rw [← gens]
  unfold restoreCheck
  dsimp only
  rw [hr]
  dsimp only
  rw [if_neg (by simpa using he), hg]
  dsimp only
  rw [if_neg hm]
  split
  · next h found =>
    rw [show (getPart (genDropped s p g) p).gens.head? = some h from found]
    rfl
  · next found =>
    rw [show (getPart (genDropped s p g) p).gens.head? = none from found]
    rfl

end

/-- Settles O29: the restore is judged for the partition that has it alone, and the rest of the tick leaves its recovery. -/
theorem rollbackRestoresASealedGeneration : Obligations.RollbackRestoresASealedGeneration := by
  unfold Obligations.RollbackRestoresASealedGeneration
  refine ⟨?_, ?_, ?_⟩
  · intro s p r g hrun hb hp
    obtain ⟨t, run, kept, -⟩ := belfryTick_recovery hrun hb
    generalize beforeSeals (sampleTick (atTick s) (nextBelfry s)) = u at kept ⊢
    intro _ alone hr he hg
    have hlen := part_of_rollback hr
    have others (q : Nat) (hq : q ≠ p) : (getPart u q).window = none ∧ (getPart u q).rb = none := ⟨(alone q).1, (alone q).2 hq⟩
    have judged := sealRetry_restore (alone p).1 hr he
    have recovery {x : Option Window × Option Rollback × List Gen × Nat × Byte × Bool × Bool × W16} (set : RcvSet p x u (restoreCheck u p)) : rcvOf (getPart t p) = x := by
      rw [← judged] at set
      rw [sealRetry_fold hp x others set] at kept
      exact (kept p).trans set.1
    refine ⟨t, run, fun hm => ?_, fun hm => ?_⟩
    · have same := recovery (restoreCheck_matched hr he hg hm)
      exact ⟨(congrArg (fun x => x.2.1) same :), (congrArg (fun x => x.2.2.1) same :), (congrArg (fun x => x.2.2.2.2.2.2.1) same :)⟩
    · obtain ⟨k, f, check⟩ := restoreCheck_differs hr he hg hm
      obtain ⟨drop, length⟩ := genDropped_effect hlen g
      rw [check] at recovery
      have epoch : (getPart (genDropped u p g) p).epoch = (getPart u p).epoch := (congrArg (fun x => x.2.2.2.2.2.2.2) drop.1 :)
      have gens : (getPart (genDropped u p g) p).gens = (getPart u p).gens.filter fun x => x.num != g.num := (congrArg (fun x => x.2.2.1) drop.1 :)
      generalize genDropped u p g = v at *
      generalize (getPart u p).gens.filter (fun x => x.num != g.num) = left at gens recovery ⊢
      cases left with
      | nil =>
        have same := recovery (drop.trans (failRestore_rcv (length.symm ▸ hlen) .restoreFail r.tried))
        exact ⟨(congrArg (fun x => x.2.2.1) same :).trans gens, (congrArg (fun x => x.2.1) same :), (congrArg (fun x => x.2.2.2.2.2.1) same :)⟩
      | cons h rest =>
        obtain ⟨r', set, names, tried, floor, fresh⟩ := startRollback_rcv (s := v) (length.symm ▸ hlen) h r.why r.tried k f
        have same := recovery (drop.trans set)
        exact ⟨(congrArg (fun x => x.2.2.1) same :).trans gens, r', (congrArg (fun x => x.2.1) same :), names, tried, floor.trans (by rw [epoch]), fresh⟩
  · intro s p r g hp hr hb hg
    obtain ⟨pay, sp, posted⟩ := postRollback_posts hr hg
    have closed : exec (.rollbackRepost p) s = .next (postRollback s p) := by
      change execRollbackRepost p s = _
      unfold execRollbackRepost
      rw [hr]
      exact congrArg Host.Outcome.next (if_pos (by rw [hb]; rfl))
    rw [posted] at closed
    refine ⟨_, r, closed, ?_, rfl, post_prod _ _ _ hp, ?_, ?_, (post_same s p .rollback sp pay).frame⟩
    · exact (post_getPart (·.rb) (fun _ _ => rfl) s p p _ _ _).trans hr
    · exact ⟨⟨.rollback, (getPart s p).logs.notes.prod, s.time.tick, sp, pay⟩, post_newest hp .rollback sp pay, rfl, rfl, rfl⟩
    · exact post_getPart (·.gens) (fun _ _ => rfl) s p p _ _ _
  · intro s p r hp hr he
    have closed : exec (.rollbackTimeout p) s = .next (failRestore s p .rbTimeout r.tried) := by
      change execRollbackTimeout p s = _
      unfold execRollbackTimeout
      rw [hr]
      exact congrArg Host.Outcome.next (if_pos (by rw [he]; rfl))
    obtain ⟨t, run, keeps⟩ := execRollbackTimeout_keeps p (Keeps.rfl_ _ s) (List.Subset.refl _)
    obtain rfl := Host.Outcome.next.inj (closed.symm.trans run)
    have rcv := (failRestore_rcv hp .rbTimeout r.tried).1
    refine ⟨_, closed, (congrArg (fun x => x.2.1) rcv :), (congrArg (fun x => x.2.2.2.2.2.1) rcv :), ?_, (congrArg (fun x => x.2.2.1) rcv :), keeps.same .spires (by decide), keeps.same.bytes_eq.1⟩
    exact alert_getLsbD _ (by decide)

end Sys2Proof.Machine
end

section
/-! Lines of the memory tap (R81, R91, R250, R264). -/

set_option Elab.async false

namespace Sys2Proof.Machine

/-! ### Lines of the memory tap (R81, R91, R250, R264) -/

/-- What a line of partition `p` leaves: the other partitions, but for what a record charges partition 0. -/
def LineKeeps (p : Nat) (s t : State) : Prop :=
  (∀ q, q ≠ p → q ≠ 0 → getPart t q = getPart s q) ∧ (p ≠ 0 → getPart t 0 = { getPart s 0 with cnt := (getPart t 0).cnt, logs := (getPart t 0).logs })

theorem LineKeeps.of_updPart {s v : State} (p : Nat) (f : Part → Part) (h : v.parts = s.parts) : LineKeeps p s (updPart v p f) :=
  ⟨fun q hq _ => (getPart_updPart_ne v f hq).trans (getPart_of_parts h q), fun hp => by rw [getPart_updPart_ne v f (Ne.symm hp), getPart_of_parts h]⟩

theorem LineKeeps.of_parts {p : Nat} {s t u : State} (h : LineKeeps p s t) (e : u.parts = t.parts) : LineKeeps p s u :=
  ⟨fun q hq h0 => (getPart_of_parts e q).trans (h.1 q hq h0), fun hp => by rw [getPart_of_parts e]; exact h.2 hp⟩

/-- A record leaves every partition but its own and partition 0. -/
theorem addRec_other {s : State} {r : Rec} {q : Nat} (hq : q ≠ r.part) (h0 : q ≠ 0) : getPart (addRec s r) q = getPart s q := by
  have used (v : State) {k : Nat} (hk : q ≠ k) (n : Nat) : getPart (addUse v k n) q = getPart v q := getPart_updPart_ne v _ hk
  have refused : getPart (refuseQuota s r.part) q = getPart s q := getPart_updPart_ne s _ hq
  unfold addRec
  split
  · rfl
  · split
    · exact used s hq _
    · dsimp only
      split
      · exact (used _ h0 _).trans refused
      · exact refused

/-- A record changes, of a partition, its counters alone. -/
theorem addRec_counts (s : State) (r : Rec) (q : Nat) : getPart (addRec s r) q = { getPart s q with cnt := (getPart (addRec s r) q).cnt } :=
  congrArg (fun x : Part => { x with cnt := (getPart (addRec s r) q).cnt }) (addRec_getPart (fun x => { x with cnt := (getPart s q).cnt }) (fun _ _ => rfl) s r q)

theorem LineKeeps.addRec {p : Nat} {s t : State} (h : LineKeeps p s t) (r : Rec) (hr : r.part = p) : LineKeeps p s (addRec t r) := by
  refine ⟨fun q hq h0 => (addRec_other (hr ▸ hq) h0).trans (h.1 q hq h0), fun hp => ?_⟩
  rw [addRec_counts t r 0, h.2 hp]

section
variable {s : State} {l : MtLine}

/-- The line counted (R460). -/
def lineCounted (s : State) (l : MtLine) : State := addBig s (0x0250 + l.point) (if l.wr then 0 else 1) 64

theorem lineCounted_same (s : State) (l : MtLine) : Same [.big] s (lineCounted s l) := (addBig_keeps _ _ _ (Keeps.rfl_ _ s) (List.Subset.refl _)).same

theorem exec_memtapLine (hk : s.keep.lostNow.contains .nclk = false) :
    exec (.memtapLine l) s = .next (if l.wr then takeWriteLine (lineCounted s l) l else takeReadLine (lineCounted s l) l) :=
  congrArg Host.Outcome.next (if_neg (by rw [hk]; exact Bool.false_ne_true))

/-- A violation of a port changes the partitions as its record does. -/
theorem portViol_parts (s : State) (k : RecKind) (part port : Nat) (layer oper : W16) (code : Byte) (detail : W32) (epoch : W16) (n : Nat) :
    ∃ r, r.part = part ∧ (portViol s k part port layer oper code detail epoch n).parts = (addRec (countViol s k port) r).parts :=
  ⟨violRec s.time.tick k 0xFFFF part port layer oper code detail epoch n, rfl, (addInput_keeps _ (Keeps.rfl_ [.inputs] _) (List.Subset.refl _)).same .parts (by decide)⟩

/-- A violation of the memory tap: what its partition remembers, under whatever keys the line is digested. -/
theorem mtViol_eq (s : State) (l : MtLine) (code : Byte) : ∃ k1 k2 v, Same [.rng] s v ∧
    mtViol s l code = portViol (updPart v l.part fun q => { q with
      mtSeen := true, mtLast := some s.time.tick, apart := q.apart.add k1 k2 l, rb := q.rb.map fun r => { r with c2 := false } })
      .mtviol l.part l.point 0xFFFF 0xFFFF code l.tensor (getPart s l.part).epoch 1 := by
  have drawn : Same [.rng] s (draw (draw s).2).2 := fun f hf => by
    cases f with
    | rng => exact absurd (by decide) hf
    | _ => rfl
  unfold mtViol
  dsimp only
  split
  · exact ⟨_, _, s, Same.rfl_ _ s, rfl⟩
  · exact ⟨_, _, s, Same.rfl_ _ s, rfl⟩
  · exact ⟨_, _, _, drawn, rfl⟩

theorem mtViol_effect (hp : l.part < s.parts.length) (code : Byte) :
    (getPart (mtViol s l code) l.part).mtSeen = true ∧ (getPart (mtViol s l code) l.part).mtLast = some s.time.tick ∧
      (getPart (mtViol s l code) l.part).window = (getPart s l.part).window ∧
      (getPart (mtViol s l code) l.part).rb = (getPart s l.part).rb.map (fun r => { r with c2 := false }) ∧
      (s.belfry.run = true → ∃ i ∈ (mtViol s l code).belfry.inputs, i.code = 0x99 ∧ i.part = l.part ∧ i.cause = code.toNat) ∧
      LineKeeps l.part s (mtViol s l code) := by
  obtain ⟨k1, k2, v, drawn, run⟩ := mtViol_eq s l code
  have parts : v.parts = s.parts := drawn .parts (by decide)
  have own := getPart_updPart v l.part (fun q => { q with
      mtSeen := true, mtLast := some s.time.tick, apart := q.apart.add k1 k2 l, rb := q.rb.map fun r => { r with c2 := false } }) (parts.symm ▸ hp)
  rw [getPart_of_parts parts] at own
  have others : LineKeeps l.part s (updPart v l.part fun q => { q with
      mtSeen := true, mtLast := some s.time.tick, apart := q.apart.add k1 k2 l, rb := q.rb.map fun r => { r with c2 := false } }) := .of_updPart l.part _ parts
  have belfry : (updPart v l.part fun q => { q with
      mtSeen := true, mtLast := some s.time.tick, apart := q.apart.add k1 k2 l, rb := q.rb.map fun r => { r with c2 := false } }).belfry = s.belfry := drawn.belfry_eq
  rw [run]
  generalize (updPart v l.part fun q => { q with
      mtSeen := true, mtLast := some s.time.tick, apart := q.apart.add k1 k2 l, rb := q.rb.map fun r => { r with c2 := false } }) = u at own others belfry ⊢
  obtain ⟨r, hr, recorded⟩ := portViol_parts u .mtviol l.part l.point 0xFFFF 0xFFFF code l.tensor (getPart s l.part).epoch 1
  have counted : (countViol u .mtviol l.point).parts = u.parts := rfl
  have kept {α : Type} (g : Part → α) (hg : ∀ x c, g { x with cnt := c } = g x) :
      g (getPart (portViol u .mtviol l.part l.point 0xFFFF 0xFFFF code l.tensor (getPart s l.part).epoch 1) l.part) = g (getPart u l.part) :=
    (congrArg g (getPart_of_parts recorded l.part)).trans ((addRec_getPart g hg _ r l.part).trans (congrArg g (getPart_of_parts counted l.part)))
  refine ⟨(kept (·.mtSeen) fun _ _ => rfl).trans (by rw [own]), (kept (·.mtLast) fun _ _ => rfl).trans (by rw [own]),
    (kept (·.window) fun _ _ => rfl).trans (by rw [own]), (kept (·.rb) fun _ _ => rfl).trans (by rw [own]), fun hrun => ?_, ?_⟩
  · obtain ⟨i, hi, hcode, hpart, -, hcause⟩ := portViol_input u .mtviol l.part l.point 0xFFFF 0xFFFF code l.tensor (getPart s l.part).epoch 1 (by rw [belfry]; exact hrun)
    exact ⟨i, hi, hcode, hpart, hcause⟩
  · exact ((others.of_parts counted).addRec r hr).of_parts recorded

theorem takeWriteLine_write {w : Window} (hw : (getPart s l.part).window = some w) (hph : w.phase = 0) (hn : l.tensor ∈ (getPart s l.part).named)
    (hb : l.be = BitVec.allOnes 64) (hp : l.part < s.parts.length) :
    ∃ w', (getPart (takeWriteLine s l) l.part).window = some w' ∧ w'.wr = w.wr.add w.k1 w.k2 l ∧ w'.rd = w.rd ∧ (∃ n, (l.tensor, n) ∈ w'.tensors) ∧
      (getPart (takeWriteLine s l) l.part).mtSeen = (getPart s l.part).mtSeen ∧ LineKeeps l.part s (takeWriteLine s l) := by
  unfold takeWriteLine
  dsimp only
  rw [hw]
  dsimp only
  rw [if_neg (by simp [hph]), if_neg (by simp [hn]), if_neg (by simp [hb])]
  have counted : ∃ n, (l.tensor, n) ∈ (if w.tensors.any fun t => t.1 == l.tensor then
          w.tensors.map fun t => if t.1 = l.tensor then (t.1, t.2 + 1) else t
        else w.tensors ++ [(l.tensor, 1)]) := by
    split
    · next named =>
      obtain ⟨t, ht, heq⟩ := List.any_eq_true.1 named
      have key : t.1 = l.tensor := eq_of_beq heq
      exact ⟨t.2 + 1, List.mem_map.2 ⟨t, ht, by rw [if_pos key, key]⟩⟩
    · exact ⟨1, List.mem_append_right _ (List.mem_singleton_self _)⟩
  generalize (if w.tensors.any fun t => t.1 == l.tensor then
          w.tensors.map fun t => if t.1 = l.tensor then (t.1, t.2 + 1) else t
        else w.tensors ++ [(l.tensor, 1)]) = count at counted ⊢
  rw [getPart_updPart s l.part _ hp]
  exact ⟨_, rfl, rfl, rfl, counted, rfl, .of_updPart l.part _ rfl⟩

/-- A write that is a violation, with its code. -/
theorem takeWriteLine_viol {code : Byte} (h : (((getPart s l.part).window.map fun w => w.phase == 0) ≠ some true ∧ code = 0x02) ∨
      (∃ w, (getPart s l.part).window = some w ∧ w.phase = 0 ∧ l.tensor ∉ (getPart s l.part).named ∧ code = 0x01) ∨
      ∃ w, (getPart s l.part).window = some w ∧ w.phase = 0 ∧ l.tensor ∈ (getPart s l.part).named ∧ l.be ≠ BitVec.allOnes 64 ∧ code = 0x03) :
    takeWriteLine s l = mtViol s l code := by
  unfold takeWriteLine
  dsimp only
  rcases h with ⟨hw, rfl⟩ | ⟨w, hw, hph, hn, rfl⟩ | ⟨w, hw, hph, hn, hb, rfl⟩
  · split
    · next w found =>
      rw [found] at hw
      exact if_pos fun h => hw (by rw [Option.map_some, h]; rfl)
    · rfl
  · rw [hw]
    dsimp only
    rw [if_neg (by simp [hph]), if_pos (by simp [hn])]
  · rw [hw]
    dsimp only
    rw [if_neg (by simp [hph]), if_neg (by simp [hn]), if_pos hb]

/-- A read of a written window. -/
theorem takeReadLine_window {w : Window} (hw : (getPart s l.part).window = some w) (hph : w.phase = 1) :
    takeReadLine s l = updPart s l.part fun q => { q with window := some { w with rd := w.rd.add w.k1 w.k2 l } } := by
  unfold takeReadLine
  dsimp only
  rw [hw]
  exact if_pos hph

/-- A read between RESTORE_BEGIN and RESTORE_END. -/
theorem takeReadLine_restore {r : Rollback} {g : Gen} (hw : (getPart s l.part).window = none) (hr : (getPart s l.part).rb = some r) (hb : r.beginEpoch ≠ none)
    (he : r.ended = none) (hg : (getPart s l.part).gens.find? (fun x => x.num == r.gen) = some g) :
    takeReadLine s l = updPart s l.part fun q => { q with rb := some { r with
      restore := r.restore.add g.k1 g.k2 l, c2 := r.c2 && g.tensors.any fun t => t.1 == l.tensor } } := by
  unfold takeReadLine
  dsimp only
  rw [hw, hr]
  dsimp only
  rw [hg]
  exact if_pos ⟨Option.isSome_iff_ne_none.2 hb, by rw [he]; rfl⟩

/-- Any other read is only counted. -/
theorem takeReadLine_ignored (hw : ∀ w, (getPart s l.part).window = some w → w.phase ≠ 1)
    (hr : (getPart s l.part).window = none → ∀ r, (getPart s l.part).rb = some r → r.beginEpoch = none ∨ r.ended ≠ none) :
    takeReadLine s l = addBig (updCnt s l.part fun c => { c with mtIgn := satInc c.mtIgn }) (0x0250 + l.point) 2 1 := by
  unfold takeReadLine
  dsimp only
  split
  · next w found => exact if_neg (hw w found)
  · next r none_ found =>
    split
    · refine if_neg fun h => ?_
      rcases hr none_ r found with hb | he
      · rw [hb] at h
        exact Bool.false_ne_true h.1
      · exact he (Option.isNone_iff_eq_none.1 h.2)
    · rfl
  · rfl

end

/-- Settles O30: a line changes its partition alone, but for a violation's record. -/
theorem memoryTapLines : Obligations.MemoryTapLines := by
  unfold Obligations.MemoryTapLines
  intro s l hk hp keeps viol
  have counted := lineCounted_same s l
  obtain ⟨t, run, frame⟩ := execMemtapLine_keeps l (Keeps.rfl_ _ s) (List.Subset.refl _)
  have closed := exec_memtapLine (l := l) hk
  have part (q : Nat) : getPart (lineCounted s l) q = getPart s q := getPart_of_parts (counted .parts (by decide)) q
  have len : (lineCounted s l).parts.length = s.parts.length := congrArg List.length (counted .parts (by decide) :)
  have spires : t.spires = s.spires := frame.same .spires (by decide)
  have data : t.cistern.data = s.cistern.data := frame.same.bytes_eq.1
  have tick : (lineCounted s l).time.tick = s.time.tick := counted .tick (by decide)
  have running : (lineCounted s l).belfry.run = s.belfry.run := counted .belfryRun (by decide)
  obtain rfl := Host.Outcome.next.inj (closed.symm.trans run)
  have kept {v : State} (h : LineKeeps l.part (lineCounted s l) v) : LineKeeps l.part s v :=
    ⟨fun q hq h0 => (h.1 q hq h0).trans (part q), fun hp => by rw [h.2 hp, part]⟩
  generalize lineCounted s l = u at *
  have violated {code : Byte} (hwr : l.wr = true) (h : (((getPart s l.part).window.map fun w => w.phase == 0) ≠ some true ∧ code = 0x02) ∨
      (∃ w, (getPart s l.part).window = some w ∧ w.phase = 0 ∧ l.tensor ∉ (getPart s l.part).named ∧ code = 0x01) ∨
      ∃ w, (getPart s l.part).window = some w ∧ w.phase = 0 ∧ l.tensor ∈ (getPart s l.part).named ∧ l.be ≠ BitVec.allOnes 64 ∧ code = 0x03) : viol code.toNat := by
    rw [if_pos hwr, takeWriteLine_viol (code := code) (by rw [part]; exact h)] at closed spires data
    obtain ⟨seen, last, window, rb, input, other⟩ := mtViol_effect (s := u) (len.symm ▸ hp) code
    exact ⟨_, closed, seen, last.trans (by rw [tick]), window.trans (by rw [part]), rb.trans (by rw [part]), fun hrun => input (running.trans hrun),
      (kept other).1, (kept other).2, spires, data⟩
  refine ⟨?_, fun hwr h => violated (code := 0x02) hwr (.inl ⟨h, rfl⟩), fun w hwr hw hph hn => violated (code := 0x01) hwr (.inr (.inl ⟨w, hw, hph, hn, rfl⟩)),
    fun w hwr hw hph hn hb => violated (code := 0x03) hwr (.inr (.inr ⟨w, hw, hph, hn, hb, rfl⟩)), ?_, ?_, ?_⟩
  · intro w hwr hw hph hn hb
    rw [if_pos hwr] at closed spires data
    obtain ⟨w', window, wr, rd, tensors, seen, other⟩ := takeWriteLine_write (s := u) (by rw [part]; exact hw) hph (by rw [part]; exact hn) hb (len.symm ▸ hp)
    exact ⟨_, w', closed, window, wr, rd, tensors, seen.trans (by rw [part]), (kept other).1, (kept other).2, spires, data⟩
  · intro w hwr hw hph
    rw [if_neg (by simp [hwr]), takeReadLine_window (by rw [part]; exact hw) hph] at closed spires data
    have other := kept (.of_updPart (s := u) l.part (fun q => { q with window := some { w with rd := w.rd.add w.k1 w.k2 l } }) rfl)
    refine ⟨_, { w with rd := w.rd.add w.k1 w.k2 l }, closed, ?_, rfl, rfl, other.1, other.2, spires, data⟩
    rw [getPart_updPart u l.part _ (len.symm ▸ hp)]
  · intro r g hwr hw hr hb he hg
    rw [if_neg (by simp [hwr]), takeReadLine_restore (by rw [part]; exact hw) (by rw [part]; exact hr) hb he (by rw [part]; exact hg)] at closed spires data
    have other := kept (.of_updPart (s := u) l.part (fun q => { q with rb := some { r with
      restore := r.restore.add g.k1 g.k2 l, c2 := r.c2 && g.tensors.any fun t => t.1 == l.tensor } }) rfl)
    refine ⟨_, closed, ?_, ?_, other.1, other.2, spires, data⟩
    · rw [getPart_updPart u l.part _ (len.symm ▸ hp)]
    · rw [getPart_updPart u l.part _ (len.symm ▸ hp), part]
  · intro hwr hw hr
    rw [if_neg (by simp [hwr]), takeReadLine_ignored (fun w h => hw w ((congrArg Part.window (part l.part)).symm.trans h))
      (fun h r h' => hr ((congrArg Part.window (part l.part)).symm.trans h) r ((congrArg Part.rb (part l.part)).symm.trans h'))] at closed spires data
    have big (v : State) : Same [.big] v (addBig v (0x0250 + l.point) 2 1) := (addBig_keeps _ _ _ (Keeps.rfl_ _ v) (List.Subset.refl _)).same
    have other := kept (LineKeeps.of_parts (.of_updPart (s := u) l.part _ rfl) (big (updCnt u l.part fun c => { c with mtIgn := satInc c.mtIgn }) .parts (by decide)))
    refine ⟨_, closed, ?_, other.1, other.2, spires, data⟩
    rw [getPart_of_parts (big _ .parts (by decide)), updCnt, getPart_updPart u l.part _ (len.symm ▸ hp), part]

end Sys2Proof.Machine
end

section
/-! Violations of a tap by what they give, and its deadlines (R66, R70, R72, R91). -/

set_option Elab.async false

namespace Sys2Proof.Machine

/-! ### Violations of a Tile Tap by what they give (R91) -/

section
variable {s : State} {j : Nat} {p : Spire}

theorem getSp_updSp_some (hp : getSp s j = some p) (f : Spire → Spire) (hf : ∀ x, (f x).ix = x.ix) : getSp (updSp s j f) j = some (f p) := by
  rw [getSp_updSp s j f hf, hp, Option.map_some]

/-- A violation of a tap is its Spire's last one, and only counts and traces beside that. -/
theorem tapViol_own (hp : getSp s j = some p) (k : RecKind) (d : Option Dsc) (code : Byte) (detail : W16) (beats : Nat) :
    ∃ y, getSp (tapViol s k j d code detail beats) j = some y ∧ y.viol = (code, k.num.getD 0) ∧ SpRel (some j) [.cnt, .viol, .trc, .big] p y := by
  obtain ⟨y, hy, whole⟩ := (tapViol_sp (SpKeeps.rfl_ (i := some j) (m := [.cnt, .viol, .trc, .big]) s) k j d code detail beats (covers_own j) (by decide)).getSp_some hp
  refine ⟨y, hy, ?_, whole⟩
  obtain ⟨c, hc, -⟩ := (spCount_sp (SpKeeps.rfl_ (i := some j) (m := [.cnt]) s) j kViol 1 (covers_own j) (by decide)).getSp_some hp
  have marked : getSp (updSp (spCount s j kViol 1) j fun t => { t with viol := (code, k.num.getD 0) }) j = some { c with viol := (code, k.num.getD 0) } :=
    getSp_updSp_some hc (fun t => { t with viol := (code, k.num.getD 0) }) fun _ => rfl
  have rest : SpKeeps (some j) [.cnt, .trc, .big] (updSp (spCount s j kViol 1) j fun t => { t with viol := (code, k.num.getD 0) }) (tapViol s k j d code detail beats) := by
    have traced := trace_sp (SpKeeps.rfl_ (i := some j) (m := [.cnt, .trc, .big]) (updSp (spCount s j kViol 1) j fun t => { t with viol := (code, k.num.getD 0) })) j 0x1A false false
      detail ((d.map dLayer).getD 0xFFFF) ((d.map dOper).getD 0xFFFF) ((k.num.getD 0).toNat + 65536 * code.toNat) (covers_own j) (by decide)
    unfold tapViol
    dsimp only
    split
    · exact traced
    · exact ((uplink_sp traced j 32 (covers_own j) (by decide)).of_same (addRec_same _ _)).of_same (addInput_same _ _)
  obtain ⟨z, hz, r⟩ := rest.getSp_some marked
  obtain rfl := Option.some.inj (hy.symm.trans hz)
  exact r.same .viol (by decide)

/-- A violation that stages an input for its tile. -/
theorem tapViol_input (hp : getSp s j = some p) (hrun : s.belfry.run = true) (code : Byte) (input cause : Nat) :
    ∃ y i, getSp (tileInput (tapViol s .tapviol j none code 0 0) input j cause) j = some y ∧ y.viol = (code, 0x0210) ∧ SpRel (some j) [.cnt, .viol, .trc, .big] p y ∧
      i ∈ (tileInput (tapViol s .tapviol j none code 0 0) input j cause).belfry.inputs ∧ i.code = input ∧ i.spire = j ∧ i.cause = cause ∧
      (tileInput (tapViol s .tapviol j none code 0 0) input j cause).tiles = s.tiles := by
  have same := tapViol_same s .tapviol j none code 0 0
  obtain ⟨y, hy, viol, r⟩ := tapViol_own hp .tapviol none code 0 0
  generalize tapViol s .tapviol j none code 0 0 = u at same hy ⊢
  have staged := tileInput_same u input j cause
  exact ⟨y, _, (congrArg (fun l => l.find? fun q => q.ix == j) (staged .spires (by decide) :)).trans hy, viol, r,
    mem_tileInput ((same .belfryRun (by decide)).trans hrun) input j cause, rfl, rfl, rfl, (staged .tiles (by decide) :).trans (same .tiles (by decide))⟩

end

/-- Settles O13: each missed deadline is its violation and the input that loses the tile. -/
theorem tapDeadlines : Obligations.TapDeadlines := by
  unfold Obligations.TapDeadlines
  intro s ix sp hsp hd h5 hrun
  have late : ¬ s.boot.step < 5 := Nat.not_lt.2 h5
  have missed (v : State) (hv : v.boot.step = s.boot.step) : resetMissed v ix = tileInput (tapViol v .tapviol ix none 0x51 0 0) 0x14 ix 0x51 := if_neg (by rw [hv]; exact late)
  refine ⟨fun hfc hack => ?_, fun hreq hack => ?_, fun hack hreq => ?_, fun hver hok hto => ?_⟩
  · obtain ⟨y, i, hy, viol, -, hi, hc, hs, hca, tiles⟩ := tapViol_input hsp hrun 0x50 0x14 0x50
    refine ⟨_, y, i, ?_, hy, viol, hi, hc, hs, hca, tiles⟩
    refine congrArg Host.Outcome.next ((onSp_some hsp _).trans (if_pos ?_))
    simp [hfc, hack, hd]
  · obtain ⟨y, i, hy, viol, -, hi, hc, hs, hca, tiles⟩ := tapViol_input hsp hrun 0x51 0x14 0x51
    refine ⟨_, y, i, ?_, hy, viol, hi, hc, hs, hca, tiles⟩
    refine congrArg Host.Outcome.next ((onSp_some hsp _).trans ((if_pos ?_).trans (missed s rfl)))
    simp [hreq, hack, hd]
  · obtain ⟨y, i, hy, viol, -, hi, hc, hs, hca, tiles⟩ := tapViol_input hsp hrun 0x51 0x14 0x51
    refine ⟨_, y, i, ?_, hy, viol, hi, hc, hs, hca, tiles⟩
    refine congrArg Host.Outcome.next ((onSp_some hsp _).trans ((if_pos ?_).trans (missed s rfl)))
    simp [hreq, hack, hd]
  · have closed : exec (.heartbeatLoss ix) s = .next (tileInput (tapViol (traceLevels (updSp s ix fun p => { p with lv := { p.lv with hbOk := false } }) ix) .tapviol ix none 0x52 0 0) 0x11 ix 0x52) := by
      refine congrArg Host.Outcome.next ((onSp_some hsp _).trans ((if_neg ?_).trans (if_pos ?_)))
      · rintro (h | h)
        · exact hver h
        · simp [hok] at h
      · exact ⟨hto, hd⟩
    have marked : getSp (updSp s ix fun p => { p with lv := { p.lv with hbOk := false } }) ix = some { sp with lv := { sp.lv with hbOk := false } } :=
      getSp_updSp_some hsp (fun p => { p with lv := { p.lv with hbOk := false } }) fun _ => rfl
    have traced := traceLevels_sp (SpKeeps.rfl_ (i := some ix) (m := [.cnt, .trc]) (updSp s ix fun p => { p with lv := { p.lv with hbOk := false } })) ix (covers_own ix) (by decide)
    have same : Same [.spires] s (traceLevels (updSp s ix fun p => { p with lv := { p.lv with hbOk := false } }) ix) :=
      (traceLevels_keeps ix (updSp_keeps ix _ (Keeps.rfl_ _ s) (List.Subset.refl _)) (List.Subset.refl _)).same
    obtain ⟨z, hz, rz⟩ := traced.getSp_some marked
    generalize traceLevels (updSp s ix fun p => { p with lv := { p.lv with hbOk := false } }) ix = u at *
    obtain ⟨y, i, hy, viol, ry, hi, hc, hs, hca, tiles⟩ := tapViol_input hz ((same .belfryRun (by decide)).trans hrun) 0x52 0x11 0x52
    exact ⟨_, y, i, closed, hy, (ry.same .lv (by decide)).trans (rz.same .lv (by decide)), viol, hi, hc, hs, hca, tiles.trans (same .tiles (by decide))⟩

end Sys2Proof.Machine
end

section
/-! The end of a slice at its tile (R435 to R441). -/

set_option Elab.async false

namespace Sys2Proof.Machine

/-! ### The end of a slice at its tile (R435 to R441) -/

section
variable {i : Option Nat} {m : List TlFld} {s u : State} {j : Nat} {x : Tile}

theorem getTile_updTile_some (hx : getTile s j = some x) (f : Tile → Tile) (hf : ∀ y, (f y).ix = y.ix) : getTile (updTile s j f) j = some (f x) := by
  rw [getTile_updTile s j f hf, hx, Option.map_some]

theorem sendTestOff_tl (h : TlKeeps i m s u) (j : Nat) (hj : Covers i j) (hm : [.fseq, .out, .next, .offDue] ⊆ m) : TlKeeps i m s (sendTestOff u j) := by
  refine h.onTile j _ fun t _ => ?_
  split
  · exact sendFrame_tl h j (show opTestOff ≠ opDead by decide) hj (List.Subset.trans (by decide) hm)
  · exact h.updTile j _ [.offDue] (fun _ => rfl) hj (List.Subset.trans (by decide) hm)

/-- The fields of a tile that the end of its slice's levels changes. -/
def offFields : List TlFld := [.run, .wdHeld, .wd, .fseq, .out, .next, .offDue]

theorem sliceOff_tl (h : TlKeeps i m s u) (j : Nat) (hj : Covers i j) (hm : offFields ⊆ m) : TlKeeps i m s (sliceOff u j) :=
  sendTestOff_tl (h.updTile j _ [.run, .wdHeld, .wd] (fun _ => rfl) hj (List.Subset.trans (by decide) hm)) j hj (List.Subset.trans (by decide) hm)

theorem sliceOff_own (hx : getTile s j = some x) : ∃ y, getTile (sliceOff s j) j = some y ∧ y.run = none ∧ TlRel (some j) offFields x y := by
  obtain ⟨y, hy, whole⟩ := (sliceOff_tl (TlKeeps.rfl_ (i := some j) s) j (covers_own j) (List.Subset.refl _)).getTile_some hx
  have stopped := getTile_updTile_some hx (fun t => { t with run := none, wdHeld := t.wdHeld && !t.resetDone, wd := if t.resetDone then s.time.tick.toNat else t.wd }) fun _ => rfl
  obtain ⟨z, hz, r⟩ := (sendTestOff_tl (TlKeeps.rfl_ (i := some j) (m := [.fseq, .out, .next, .offDue]) _) j (covers_own j) (List.Subset.refl _)).getTile_some stopped
  obtain rfl := Option.some.inj (hy.symm.trans hz)
  exact ⟨y, hy, r.same .run (by decide), whole⟩

/-- The fields of a tile that the end of a request changes. -/
def requestFields : List TlFld := .reqs :: offFields

theorem reqReport_same (s : State) (r : SliceReq) (result cause : Nat) : Same [.cmd, .cmds] s (reqReport s r result cause) :=
  (reqReport_keeps r result cause (Keeps.rfl_ _ s) (List.Subset.refl _)).same

theorem endReq_tl (h : TlKeeps i m s u) (j result : Nat) (hj : Covers i j) (hm : requestFields ⊆ m) : TlKeeps i m s (endReq u j result) := by
  have off := sliceOff_tl (h.updTile j (fun t => { t with reqs := t.reqs.drop 1 }) [.reqs] (fun _ => rfl) hj (List.Subset.trans (by decide) hm)) j hj
    (List.Subset.trans (by decide) hm)
  refine h.onTile j _ fun t _ => ?_
  dsimp only
  split
  · exact off
  · exact off.of_same (reqReport_same _ _ _ _)

theorem endReq_own (hx : getTile s j = some x) (result : Nat) :
    ∃ y, getTile (endReq s j result) j = some y ∧ y.run = none ∧ y.reqs = x.reqs.tail ∧ TlRel (some j) requestFields x y := by
  obtain ⟨y, hy, whole⟩ := (endReq_tl (TlKeeps.rfl_ (i := some j) s) j result (covers_own j) (List.Subset.refl _)).getTile_some hx
  have dropped_ := getTile_updTile_some hx (fun t => { t with reqs := t.reqs.drop 1 }) fun _ => rfl
  obtain ⟨z, hz, stopped, r⟩ := sliceOff_own dropped_
  have ended : getTile (endReq s j result) j = some z := by
    unfold endReq
    rw [onTile_some hx]
    dsimp only
    split
    · exact hz
    · exact (getTile_of_tiles (reqReport_same _ _ _ _ .tiles (by decide)) j).trans hz
  obtain rfl := Option.some.inj (hy.symm.trans ended)
  exact ⟨y, hy, stopped, (r.same .reqs (by decide) :).trans List.drop_one, whole⟩

theorem reinit_tl (h : TlKeeps i m s u) (j : Nat) (e : GoldenEntry) (again : Bool) (hj : Covers i j) (hm : [.resetDone] ⊆ m) : TlKeeps i m s (reinit u j e again) := by
  unfold reinit
  split
  · exact h
  · split
    · exact h.of_eq rfl
    · exact (h.updTile j (fun t => { t with resetDone := false }) [.resetDone] (fun _ => rfl) hj hm).of_eq rfl

theorem tryBegin_tl (h : TlKeeps i m s u) (j : Nat) (hj : Covers i j) (hm : [.run] ⊆ m) : TlKeeps i m s (tryBegin u j) := by
  unfold tryBegin
  split
  · split
    · split
      · exact h
      · exact (h.updTile j _ [.run] (fun _ => by rfl) hj hm).of_eq rfl
    · exact h
  · exact h

/-- A slice that waits, waits on or begins: nothing else of it changes. -/
theorem tryBegin_own {r : SliceRun} (hx : getTile s j = some x) (hr : x.run = some r) :
    ∃ y b g, getTile (tryBegin s j) j = some y ∧ y.run = some { r with began := b, going := g } ∧ TlRel (some j) [.run] x y := by
  obtain ⟨y, hy, whole⟩ := (tryBegin_tl (TlKeeps.rfl_ (i := some j) s) j (covers_own j) (List.Subset.refl _)).getTile_some hx
  have waits : tryBegin s j = s → ∃ y b g, getTile (tryBegin s j) j = some y ∧ y.run = some { r with began := b, going := g } ∧ TlRel (some j) [.run] x y := fun e => by
    rw [e]
    exact ⟨x, r.began, r.going, hx, hr, TlRel.rfl_ x⟩
  cases hp : getSp s j with
  | none => exact waits (by rw [tryBegin, hx, hp])
  | some p =>
    have closed : tryBegin s j = if r.going ∨ !p.testing ∨ !p.lv.fack ∨ !x.resetDone then s
        else updWrap (updTile s j fun t => { t with run := some { r with began := s.time.tick, going := true } }) j
          (entryAt (fullSet s j) r.slice) fun c => wrapLoad c (entryAt (fullSet s j) r.slice) := by
      rw [tryBegin, hx, hp]
      dsimp only
      rw [hr]
    by_cases h : r.going ∨ !p.testing ∨ !p.lv.fack ∨ !x.resetDone
    · exact waits (closed.trans (if_pos h))
    · rw [if_neg h] at closed
      have begun := getTile_updTile_some hx (fun t => { t with run := some { r with began := s.time.tick, going := true } }) fun _ => rfl
      refine ⟨y, s.time.tick, true, hy, ?_, whole⟩
      rw [closed] at hy
      obtain rfl := Option.some.inj (hy.symm.trans begun)
      rfl

theorem sdtCount_cnts (s : State) (b : Bool) : (sdtCount s b).thermal.cnts = s.thermal.cnts := by
  unfold sdtCount
  split <;> rfl

/-- The fields of a tile that the end of a slice changes. -/
def sliceFields : List TlFld := .ptr :: .watch :: .fullPass :: .resetDone :: requestFields

/-- A tile whose slice passed. -/
def passedTile (size slice : Nat) (t : Tile) : Tile := { t with
  run := none
  ptr := if ((t.reqs.head?.map (·.moves)).getD false) then (slice + 1) % size else t.ptr
  watch := t.watch.map fun w => { w with slice := true } }

/-- A tile of which a slice passed goes on with its request. -/
def afterPass (s : State) (j : Nat) : State :=
  onTile s j fun t =>
    match t.reqs with
    | q :: _ =>
      if q.left = 0 then
        endReq (if q.full then updTile s j fun t => { t with fullPass := some s.time.tick } else s) j crPass
      else if s.thermal.sdtState = 1 then s
      else sliceOff s j
    | [] => s

/-- The state in which a passed slice is counted. -/
def passCounted (s : State) : State := sdtCount (thmCount s thPass 1) true

theorem passCounted_effect (s : State) : Same [.thermal] s (passCounted s) ∧ (passCounted s).thermal.cnts = updAt s.thermal.cnts thPass (satAdd · 1) ∧
    (passCounted s).thermal.sdtState = s.thermal.sdtState :=
  ⟨(sdtCount_keeps true (thmCount_keeps thPass 1 (Keeps.rfl_ [.thermal] s) (by decide)) (by decide)).same, sdtCount_cnts _ true, by
    unfold passCounted sdtCount
    split <;> rfl⟩

theorem slicePassed_eq (s : State) (j : Nat) (r : SliceRun) : slicePassed s j r =
    afterPass (updTile (passCounted s) j (passedTile (max 1 (fullSet s j).length) r.slice)) j := by
  unfold slicePassed afterPass passCounted sdtCount
  split <;> rfl

theorem afterPass_tl (h : TlKeeps i m s u) (j : Nat) (hj : Covers i j) (hm : .fullPass :: requestFields ⊆ m) : TlKeeps i m s (afterPass u j) := by
  refine h.onTile j _ fun t _ => ?_
  split
  · split
    · refine endReq_tl ?_ j crPass hj (List.Subset.trans (by decide) hm)
      split
      · exact h.updTile j _ [.fullPass] (fun _ => by rfl) hj (List.Subset.trans (by decide) hm)
      · exact h
    · split
      · exact h
      · exact sliceOff_tl h j hj (List.Subset.trans (by decide) hm)
  · exact h

theorem afterPass_own (hx : getTile s j = some x) (hr : x.run = none) : ∃ y, getTile (afterPass s j) j = some y ∧ y.run = none := by
  unfold afterPass
  rw [onTile_some hx]
  split
  · next q _ _ =>
    split
    · have full : getTile (if q.full then updTile s j fun t => { t with fullPass := some s.time.tick } else s) j =
          some (if q.full then { x with fullPass := some s.time.tick } else x) := by
        split
        · exact getTile_updTile_some hx _ fun _ => by rfl
        · exact hx
      obtain ⟨y, hy, stopped, -⟩ := endReq_own full crPass
      exact ⟨y, hy, stopped⟩
    · split
      · exact ⟨x, hx, hr⟩
      · obtain ⟨y, hy, stopped, -⟩ := sliceOff_own hx
        exact ⟨y, hy, stopped⟩
  · exact ⟨x, hx, hr⟩

theorem afterPass_same (s : State) (j : Nat) : Same [.alert, .cmd, .cmds, .cistern, .parts, .tiles, .domes, .caravan, .records, .early, .near] s (afterPass s j) := by
  unfold afterPass onTile
  split
  · dsimp only
    split
    · split
      · refine (endReq_keeps j crPass ?_ (List.Subset.refl _)).same
        split
        · exact updTile_keeps j _ (fun _ => ⟨by rfl, by exact id, by exact .inl⟩) (Keeps.rfl_ _ s) (by decide)
        · exact Keeps.rfl_ _ s
      · split
        · exact Same.rfl_ _ s
        · exact (sliceOff_keeps j (Keeps.rfl_ _ s) (List.Subset.refl _)).same
    · exact Same.rfl_ _ s
  · exact Same.rfl_ _ s

theorem slicePassed_own (hx : getTile s j = some x) (r : SliceRun) : ∃ y, getTile (slicePassed s j r) j = some y ∧ y.run = none ∧ TlRel (some j) sliceFields x y ∧
    TlKeeps (some j) sliceFields s (slicePassed s j r) ∧ (slicePassed s j r).thermal.cnts = updAt s.thermal.cnts thPass (satAdd · 1) := by
  obtain ⟨same, counts, -⟩ := passCounted_effect s
  rw [slicePassed_eq]
  generalize passCounted s = v at same counts ⊢
  have marked := getTile_updTile_some ((getTile_of_tiles (same .tiles (by decide)) j).trans hx) (passedTile (max 1 (fullSet s j).length) r.slice) fun _ => rfl
  have tile : TlKeeps (some j) sliceFields s (afterPass (updTile v j (passedTile (max 1 (fullSet s j).length) r.slice)) j) :=
    afterPass_tl (((TlKeeps.rfl_ s).of_same same).updTile j _ [.run, .ptr, .watch] (fun _ => rfl) (covers_own j) (by decide)) j (covers_own j) (by decide)
  obtain ⟨y, hy, stopped⟩ := afterPass_own marked rfl
  obtain ⟨z, hz, rel⟩ := tile.getTile_some hx
  obtain rfl := Option.some.inj (hy.symm.trans hz)
  refine ⟨y, hy, stopped, rel, tile, ?_⟩
  rw [← counts]
  exact congrArg Thermal.cnts (afterPass_same _ j .thermal (by decide))


/-- A tile of which a slice failed twice. -/
def failedTile (size slice : Nat) (t : Tile) : Tile := { t with
  fullPass := none
  ptr := if ((t.reqs.head?.map (·.moves)).getD false) then (slice + 1) % size else t.ptr }

/-- The state in which a second failure is counted, recorded and reported. -/
def failReported (s : State) (j : Nat) (e : GoldenEntry) (solid : Bool) (sig : W64) (us : W32) : State :=
  let s1 := sdtCount (thmCount s thFail 1) false
  tileInput (addRec s1 (lbistRec s1 j (partOfSp s j) j e (if solid then lbSolid else lbFlaky) sig us)) 0x10 j (if solid then 1 else 2)

/-- What firmware notes of a second failure. -/
def failNoted (s : State) (j slice : Nat) (solid : Bool) : State := if solid then solidAgain (repairWanted s j (some slice)) j slice else s

theorem sliceFailed_eq (s : State) (j : Nat) (e : GoldenEntry) (r : SliceRun) (solid : Bool) (sig : W64) (us : W32) : sliceFailed s j e r solid sig us =
    endReq (failNoted (updTile (failReported s j e solid sig us) j (failedTile (max 1 (fullSet s j).length) r.slice)) j r.slice solid) j crFail := rfl

theorem failReported_effect (s : State) (j : Nat) (e : GoldenEntry) (solid : Bool) (sig : W64) (us : W32) :
    Same [.alert, .inputs, .cistern, .parts, .records, .early, .near, .thermal] s (failReported s j e solid sig us) ∧
      (failReported s j e solid sig us).thermal.cnts = updAt s.thermal.cnts thFail (satAdd · 1) ∧
      (s.belfry.run = true → ∃ i ∈ (failReported s j e solid sig us).belfry.inputs, i.code = 0x10 ∧ i.spire = j ∧ i.cause = if solid then 1 else 2) := by
  have counted := (sdtCount_keeps false (thmCount_keeps thFail 1 (Keeps.rfl_ [.thermal] s) (by decide)) (by decide)).same
  have cnts := sdtCount_cnts (thmCount s thFail 1) false
  unfold failReported
  dsimp only
  generalize sdtCount (thmCount s thFail 1) false = v at counted cnts ⊢
  have recorded := addRec_same v (lbistRec v j (partOfSp s j) j e (if solid then lbSolid else lbFlaky) sig us)
  generalize addRec v (lbistRec v j (partOfSp s j) j e (if solid then lbSolid else lbFlaky) sig us) = w at recorded ⊢
  have staged := tileInput_same w 0x10 j (if solid then 1 else 2)
  refine ⟨((counted.mono (by decide)).trans (recorded.mono (by decide))).trans (staged.mono (by decide)), ?_, fun hrun => ?_⟩
  · exact (congrArg Thermal.cnts ((staged .thermal (by decide) :).trans (recorded .thermal (by decide)))).trans cnts
  · have hw : w.belfry.run = true := ((recorded .belfryRun (by decide) :).trans (counted .belfryRun (by decide))).trans hrun
    exact ⟨_, mem_tileInput hw 0x10 j (if solid then 1 else 2), rfl, rfl, rfl⟩

theorem failNoted_same (s : State) (j slice : Nat) (solid : Bool) : Same [.nvm] s (failNoted s j slice solid) := by
  unfold failNoted
  split
  · exact (solidAgain_keeps j slice (repairWanted_keeps j (some slice) (Keeps.rfl_ [.nvm] s) (List.Subset.refl _)) (List.Subset.refl _)).same
  · exact Same.rfl_ _ s

theorem endReq_same (s : State) (j result : Nat) : Same [.alert, .cmd, .cmds, .cistern, .parts, .tiles, .domes, .caravan, .records, .early, .near] s (endReq s j result) :=
  (endReq_keeps j result (Keeps.rfl_ _ s) (List.Subset.refl _)).same

theorem inputs_of_same {s t : State} {l : List Fld} (h : Same l s t) (hl : .inputs ∉ l := by decide) : t.belfry.inputs = s.belfry.inputs :=
  congrArg Prod.fst (h .inputs hl)

theorem sliceFailed_own (hx : getTile s j = some x) (e : GoldenEntry) (r : SliceRun) (solid : Bool) (sig : W64) (us : W32) :
    ∃ y, getTile (sliceFailed s j e r solid sig us) j = some y ∧ y.run = none ∧ y.fullPass = none ∧ TlKeeps (some j) sliceFields s (sliceFailed s j e r solid sig us) ∧
      (sliceFailed s j e r solid sig us).thermal.cnts = updAt s.thermal.cnts thFail (satAdd · 1) ∧
      (s.belfry.run = true → ∃ i ∈ (sliceFailed s j e r solid sig us).belfry.inputs, i.code = 0x10 ∧ i.spire = j ∧ i.cause = if solid then 1 else 2) ∧
      (solid = true → (j, some r.slice) ∈ (sliceFailed s j e r solid sig us).nvm.repairDue) := by
  obtain ⟨reported, cnts, input⟩ := failReported_effect s j e solid sig us
  rw [sliceFailed_eq]
  generalize failReported s j e solid sig us = v at *
  have marked := getTile_updTile_some ((getTile_of_tiles (reported .tiles (by decide)) j).trans hx) (failedTile (max 1 (fullSet s j).length) r.slice) fun _ => rfl
  have tile : TlKeeps (some j) sliceFields s (updTile v j (failedTile (max 1 (fullSet s j).length) r.slice)) :=
    ((TlKeeps.rfl_ s).of_same reported).updTile j _ [.fullPass, .ptr] (fun _ => rfl) (covers_own j) (by decide)
  have put := (updTile_keeps j (failedTile (max 1 (fullSet s j).length) r.slice) (fun _ => ⟨rfl, id, .inl⟩) (Keeps.rfl_ [.tiles] v) (List.Subset.refl _)).same
  generalize updTile v j (failedTile (max 1 (fullSet s j).length) r.slice) = w at *
  have noted := failNoted_same w j r.slice solid
  have due : solid = true → (j, some r.slice) ∈ (failNoted w j r.slice solid).nvm.repairDue := fun h => by
    rw [failNoted, if_pos h]
    exact List.mem_append_right _ (List.mem_singleton_self _)
  generalize failNoted w j r.slice solid = z at *
  obtain ⟨y, hy, stopped, -, rel⟩ := endReq_own ((getTile_of_tiles (noted .tiles (by decide)) j).trans marked) crFail
  have ended := endReq_same z j crFail
  refine ⟨y, hy, stopped, rel.same .fullPass (by decide), endReq_tl (tile.of_same noted) j crFail (covers_own j) (by decide), ?_, fun hrun => ?_, fun h => ?_⟩
  · rw [show (endReq z j crFail).thermal = z.thermal from ended .thermal (by decide), show z.thermal = w.thermal from noted .thermal (by decide),
      show w.thermal = v.thermal from put .thermal (by decide), cnts]
  · rw [inputs_of_same ended, inputs_of_same noted, inputs_of_same put]
    exact input hrun
  · rw [show (endReq z j crFail).nvm = z.nvm from ended .nvm (by decide)]
    exact due h

end
end Sys2Proof.Machine
end

section
/-! Slices that end, by signature and run; slices of engines; DONE_POLL (R435, R437, R440). -/

set_option Elab.async false

namespace Sys2Proof.Machine

/-! ### Slices that end, by their signature and their run (R435, R437) -/

section
variable {s : State} {j : Nat} {x : Tile} {r : SliceRun} {sig : Option W64} {us : W32}

/-- A slice's end before it is judged: its time is metered, its wrapper has left the patterns, and its unit is re-initialised. -/
def sliceStopped (s : State) (j part : Nat) (e : GoldenEntry) (sig : Option W64) (us : W32) (again : Bool) : State :=
  reinit (updWrap (addMeter s part mTest us.toNat) j e fun c => wrapEnd c sig) j e again

theorem sliceStopped_tl (s : State) (j part : Nat) (e : GoldenEntry) (sig : Option W64) (us : W32) (again : Bool) :
    TlKeeps (some j) [.resetDone] s (sliceStopped s j part e sig us again) :=
  reinit_tl (m := [.resetDone]) (TlKeeps.of_eq (u := s) (t := updWrap (addMeter s part mTest us.toNat) j e fun c => wrapEnd c sig) (TlKeeps.rfl_ s) rfl) j e again
    (covers_own j) (List.Subset.refl _)

theorem sliceStopped_same (s : State) (j part : Nat) (e : GoldenEntry) (sig : Option W64) (us : W32) (again : Bool) :
    Same [.parts, .tiles, .spires] s (sliceStopped s j part e sig us again) :=
  (reinit_keeps j e again (updWrap_keeps j e _ (addMeter_keeps part mTest us.toNat (Keeps.rfl_ [.parts, .tiles, .spires] s) (by decide)) (by decide)) (by decide)).same

theorem sliceStopped_own (hx : getTile s j = some x) (part : Nat) (e : GoldenEntry) (sig : Option W64) (us : W32) (again : Bool) :
    ∃ y, getTile (sliceStopped s j part e sig us again) j = some y ∧ TlRel (some j) [.resetDone] x y := (sliceStopped_tl s j part e sig us again).getTile_some hx

/-- R437: the end of a slice that runs. -/
theorem tileSliceEnd_eq (hx : getTile s j = some x) (hr : x.run = some r) (hg : r.going = true) : tileSliceEnd s j sig us =
    if sig = some (entryAt (fullSet s j) r.slice).sig then
      if r.again then sliceFailed (sliceStopped s j x.part (entryAt (fullSet s j) r.slice) sig us false) j (entryAt (fullSet s j) r.slice) r false (sig.getD 0) us
      else slicePassed (sliceStopped s j x.part (entryAt (fullSet s j) r.slice) sig us false) j r
    else
      if r.again then sliceFailed (sliceStopped s j x.part (entryAt (fullSet s j) r.slice) sig us false) j (entryAt (fullSet s j) r.slice) r true (sig.getD 0) us
      else tryBegin (updTile (sliceStopped s j x.part (entryAt (fullSet s j) r.slice) sig us true) j fun t =>
        { t with run := some ⟨r.slice, true, s.time.tick, false, false, r.first && sig.isNone⟩ }) j := by
  unfold tileSliceEnd
  rw [onTile_some hx]
  dsimp only
  rw [hr]
  dsimp only
  rw [if_neg (by simp [hg])]
  by_cases hs : sig = some (entryAt (fullSet s j) r.slice).sig
  · rw [if_pos hs, beq_iff_eq.2 hs]
    cases r.again <;> rfl
  · rw [if_neg hs, beq_eq_false_iff_ne.2 hs]
    cases r.again <;> rfl

theorem tileSliceEnd_passed (hx : getTile s j = some x) (hr : x.run = some r) (hg : r.going = true) (hs : sig = some (entryAt (fullSet s j) r.slice).sig)
    (ha : r.again = false) : ∃ y, getTile (tileSliceEnd s j sig us) j = some y ∧ y.run = none ∧ TlKeeps (some j) sliceFields s (tileSliceEnd s j sig us) ∧
      (tileSliceEnd s j sig us).thermal.cnts = updAt s.thermal.cnts thPass (satAdd · 1) := by
  rw [tileSliceEnd_eq hx hr hg, if_pos hs, if_neg (by simp [ha])]
  obtain ⟨y, hy, -⟩ := sliceStopped_own hx x.part (entryAt (fullSet s j) r.slice) sig us false
  have tile := sliceStopped_tl s j x.part (entryAt (fullSet s j) r.slice) sig us false
  have same := sliceStopped_same s j x.part (entryAt (fullSet s j) r.slice) sig us false
  generalize sliceStopped s j x.part (entryAt (fullSet s j) r.slice) sig us false = v at *
  obtain ⟨z, hz, stopped, -, rest, cnts⟩ := slicePassed_own hy r
  exact ⟨z, hz, stopped, (tile.mono (by decide)).trans rest, cnts.trans (by rw [show v.thermal = s.thermal from same .thermal (by decide)])⟩

theorem tileSliceEnd_failed (hx : getTile s j = some x) (hr : x.run = some r) (hg : r.going = true) (ha : r.again = true) :
    ∃ y, getTile (tileSliceEnd s j sig us) j = some y ∧ y.run = none ∧ y.fullPass = none ∧ TlKeeps (some j) sliceFields s (tileSliceEnd s j sig us) ∧
      (tileSliceEnd s j sig us).thermal.cnts = updAt s.thermal.cnts thFail (satAdd · 1) ∧
      (s.belfry.run = true → ∃ i ∈ (tileSliceEnd s j sig us).belfry.inputs, i.code = 0x10 ∧ i.spire = j ∧ i.cause = if sig = some (entryAt (fullSet s j) r.slice).sig then 2 else 1) ∧
      (sig ≠ some (entryAt (fullSet s j) r.slice).sig → (j, some r.slice) ∈ (tileSliceEnd s j sig us).nvm.repairDue) := by
  have closed : tileSliceEnd s j sig us = sliceFailed (sliceStopped s j x.part (entryAt (fullSet s j) r.slice) sig us false) j (entryAt (fullSet s j) r.slice) r
      (decide (sig ≠ some (entryAt (fullSet s j) r.slice).sig)) (sig.getD 0) us := by
    rw [tileSliceEnd_eq hx hr hg, if_pos ha, if_pos ha]
    split
    · next h => rw [decide_eq_false (not_not.2 h)]
    · next h => rw [decide_eq_true h]
  rw [closed]
  obtain ⟨y, hy, -⟩ := sliceStopped_own hx x.part (entryAt (fullSet s j) r.slice) sig us false
  have tile := sliceStopped_tl s j x.part (entryAt (fullSet s j) r.slice) sig us false
  have same := sliceStopped_same s j x.part (entryAt (fullSet s j) r.slice) sig us false
  generalize entryAt (fullSet s j) r.slice = e at *
  generalize sliceStopped s j x.part e sig us false = v at *
  obtain ⟨z, hz, stopped, pass, rest, cnts, input, due⟩ := sliceFailed_own hy e r (decide (sig ≠ some e.sig)) (sig.getD 0) us
  refine ⟨z, hz, stopped, pass, (tile.mono (by decide)).trans rest, cnts.trans (by rw [show v.thermal = s.thermal from same .thermal (by decide)]), fun hrun => ?_, fun h => due (decide_eq_true h)⟩
  obtain ⟨i, hi, hc, hs, hca⟩ := input ((same .belfryRun (by decide)).trans hrun)
  refine ⟨i, hi, hc, hs, hca.trans ?_⟩
  by_cases h : sig = some e.sig
  · rw [if_pos h, if_neg (by simp [h])]
  · rw [if_neg h, if_pos (by simp [h])]

theorem tileSliceEnd_repeated (hx : getTile s j = some x) (hr : x.run = some r) (hg : r.going = true) (hs : sig ≠ some (entryAt (fullSet s j) r.slice).sig)
    (ha : r.again = false) : ∃ y b g, getTile (tileSliceEnd s j sig us) j = some y ∧ y.run = some ⟨r.slice, true, b, false, g, r.first && sig.isNone⟩ ∧
      y.fullPass = x.fullPass ∧ TlKeeps (some j) sliceFields s (tileSliceEnd s j sig us) ∧ (tileSliceEnd s j sig us).thermal = s.thermal := by
  rw [tileSliceEnd_eq hx hr hg, if_neg hs, if_neg (by simp [ha])]
  obtain ⟨y, hy, rel⟩ := sliceStopped_own hx x.part (entryAt (fullSet s j) r.slice) sig us true
  have tile := sliceStopped_tl s j x.part (entryAt (fullSet s j) r.slice) sig us true
  have same := sliceStopped_same s j x.part (entryAt (fullSet s j) r.slice) sig us true
  generalize sliceStopped s j x.part (entryAt (fullSet s j) r.slice) sig us true = v at *
  have put := getTile_updTile_some hy (fun t => { t with run := some ⟨r.slice, true, s.time.tick, false, false, r.first && sig.isNone⟩ }) fun _ => rfl
  have putTile := (tile.mono (show [.resetDone] ⊆ sliceFields by decide)).updTile j (fun t => { t with run := some ⟨r.slice, true, s.time.tick, false, false, r.first && sig.isNone⟩ }) [.run]
    (fun _ => rfl) (covers_own j) (by decide)
  have kept : (updTile v j fun t => { t with run := some ⟨r.slice, true, s.time.tick, false, false, r.first && sig.isNone⟩ }).thermal = s.thermal := same .thermal (by decide)
  generalize (updTile v j fun t => { t with run := some ⟨r.slice, true, s.time.tick, false, false, r.first && sig.isNone⟩ }) = w at *
  obtain ⟨z, b, g, hz, again, rest⟩ := tryBegin_own put rfl
  have began := (tryBegin_keeps j (Keeps.rfl_ _ w) (List.Subset.refl _)).same
  exact ⟨z, b, g, hz, again, (rest.same .fullPass (by decide)).trans (rel.same .fullPass (by decide)), tryBegin_tl putTile j (covers_own j) (by decide),
    (began .thermal (by decide) :).trans kept⟩

/-- The fields of a Spire that the end of a slice changes. -/
def sliceSpFields : List SpFld := [.wrap, .gen, .lv, .epoch, .smp, .pass, .injSlot, .refused, .torn, .tornOps, .raw, .answer]

theorem reinit_sp {u : State} (h : SpKeeps (some j) sliceSpFields s u) (e : GoldenEntry) (again : Bool) : SpKeeps (some j) sliceSpFields s (reinit u j e again) := by
  unfold reinit
  split
  · exact h
  · split
    · exact h.updSp j (reloadSpire u j) [.epoch, .smp, .pass, .injSlot, .refused, .torn, .tornOps, .raw, .answer] (fun _ => rfl) (covers_own j) (by decide)
    · have tile : SpKeeps (some j) sliceSpFields s (updTile u j fun t => { t with resetDone := false }) := h.of_eq rfl
      exact tile.updSp j (fun p => { p with lv := { p.lv with rstReq := true, rstAck := false, ready := false } }) [.lv] (fun _ => rfl) (covers_own j) (by decide)

theorem sliceStopped_sp (s : State) (j part : Nat) (e : GoldenEntry) (sig : Option W64) (us : W32) (again : Bool) :
    SpKeeps (some j) sliceSpFields s (sliceStopped s j part e sig us again) :=
  reinit_sp (updWrap_sp (SpKeeps.of_eq (u := s) (t := addMeter s part mTest us.toNat) (SpKeeps.rfl_ s) rfl) j e (fun c => wrapEnd c sig) (covers_own j) (by decide)) e again

theorem tryBegin_sp {u : State} (h : SpKeeps (some j) sliceSpFields s u) : SpKeeps (some j) sliceSpFields s (tryBegin u j) := by
  unfold tryBegin
  split
  · split
    · split
      · exact h
      · refine updWrap_sp ?_ j _ _ (covers_own j) (by decide)
        exact h.of_eq (by rfl)
    · exact h
  · exact h

theorem tileSliceEnd_sp (hx : getTile s j = some x) (hr : x.run = some r) (hg : r.going = true) : SpKeeps (some j) sliceSpFields s (tileSliceEnd s j sig us) := by
  have stopped (again : Bool) := sliceStopped_sp s j x.part (entryAt (fullSet s j) r.slice) sig us again
  rw [tileSliceEnd_eq hx hr hg]
  split
  · split
    · exact (stopped false).of_same (sliceFailed_keeps j _ r false _ us (Keeps.rfl_ _ _) (List.Subset.refl _)).same
    · exact (stopped false).of_same (slicePassed_keeps j r (Keeps.rfl_ _ _) (List.Subset.refl _)).same
  · split
    · exact (stopped false).of_same (sliceFailed_keeps j _ r true _ us (Keeps.rfl_ _ _) (List.Subset.refl _)).same
    · exact tryBegin_sp ((stopped true).of_eq rfl)

/-! ### SLICE_DONE and SLICE_TIMEOUT of a tile -/

theorem exec_sliceDone (hx : getTile s j = some x) (hr : x.run = some r) (ck : CheckerRun) (w : W64) (us : W32) : exec (.sliceDone (.tile j) ⟨ck, w⟩ us) s =
    .next (if r.first && r.going && !ck.passes then checkerFailed s j (entryAt (fullSet s j) r.slice) w us else tileSliceEnd s j (some w) us) := by
  refine congrArg Host.Outcome.next ((onTile_some hx _).trans ?_)
  dsimp only
  rw [hr]
  rfl

/-- The state in which a slice's timeout is reported. -/
def timedOut (s : State) (j : Nat) (e : GoldenEntry) (us : W32) : State :=
  addRec (tapViol s .tapviol j none 0x70 0 0) (lbistRec (tapViol s .tapviol j none 0x70 0 0) j (partOfSp s j) j e lbTimeout 0 us)

theorem timedOut_same (s : State) (j : Nat) (e : GoldenEntry) (us : W32) : Same [.alert, .inputs, .cistern, .parts, .spires, .records, .early, .near] s (timedOut s j e us) :=
  (tapViol_same s .tapviol j none 0x70 0 0).trans ((addRec_same _ _).mono (by decide))

theorem exec_sliceTimeout (hx : getTile s j = some x) (hr : x.run = some r) : exec (.sliceTimeout (.tile j)) s =
    .next (if r.doneSeen ∨ !r.going then s else
      tileSliceEnd (timedOut s j (entryAt (fullSet s j) r.slice) (BitVec.ofNat 32 ((entryAt (fullSet s j) r.slice).maxMs * 1000))) j none
        (BitVec.ofNat 32 ((entryAt (fullSet s j) r.slice).maxMs * 1000))) := by
  refine congrArg Host.Outcome.next ((onTile_some hx _).trans ?_)
  dsimp only
  rw [hr]
  rfl

theorem checkerFailed_own (hx : getTile s j = some x) (e : GoldenEntry) (w : W64) (us : W32) :
    ∃ y, getTile (checkerFailed s j e w us) j = some y ∧ y.run = none ∧ y.reqs = x.reqs.tail ∧ TlKeeps (some j) sliceFields s (checkerFailed s j e w us) ∧
      (j, none) ∈ (checkerFailed s j e w us).nvm.repairDue ∧ (s.belfry.run = true → ∃ i ∈ (checkerFailed s j e w us).belfry.inputs, i.code = 0x15 ∧ i.spire = j) := by
  obtain ⟨y, hy, rel⟩ := sliceStopped_own hx (partOfSp s j) e (some w) us false
  have tile := sliceStopped_tl s j (partOfSp s j) e (some w) us false
  have same := sliceStopped_same s j (partOfSp s j) e (some w) us false
  have closed : checkerFailed s j e w us = endReq (repairWanted (tileInput (sliceStopped s j (partOfSp s j) e (some w) us false) 0x15 j 0) j none) j crFail := rfl
  rw [closed]
  generalize sliceStopped s j (partOfSp s j) e (some w) us false = v at *
  have staged := tileInput_same v 0x15 j 0
  have input (hrun : v.belfry.run = true) := mem_tileInput hrun 0x15 j 0
  generalize tileInput v 0x15 j 0 = u at *
  have noted := (repairWanted_keeps j none (Keeps.rfl_ [.nvm] u) (List.Subset.refl _)).same
  have due : (j, none) ∈ (repairWanted u j none).nvm.repairDue := List.mem_append_right _ (List.mem_singleton_self _)
  generalize repairWanted u j none = w' at *
  have found := (getTile_of_tiles (noted .tiles (by decide)) j).trans ((getTile_of_tiles (staged .tiles (by decide)) j).trans hy)
  obtain ⟨z, hz, stopped, reqs, -⟩ := endReq_own found crFail
  have ended := endReq_same w' j crFail
  refine ⟨z, hz, stopped, reqs.trans (congrArg List.tail (rel.same .reqs (by decide))), ?_, ?_, fun hrun => ⟨mkInput v 0x15 (partOfSp v j) j 0xFFFF 0 false 0 0, ?_, rfl, rfl⟩⟩
  · exact endReq_tl (((tile.mono (by decide)).of_same staged).of_same noted) j crFail (covers_own j) (by decide)
  · rw [show (endReq w' j crFail).nvm = w'.nvm from ended .nvm (by decide)]
    exact due
  · rw [inputs_of_same ended, inputs_of_same noted]
    exact input ((same .belfryRun (by decide)).trans hrun)

end

/-! ### Slices of engines (R440) -/

section
variable {s : State} {n : Nat} {r : SliceRun} {w : W64} {us : W32}

/-- A second failure of an engine's slice: it is counted and recorded, and the engine leaves the pool. -/
def engineFailed (s : State) (n : Nat) (e : GoldenEntry) (solid : Bool) (w : W64) (us : W32) (next : Nat) : State :=
  updEng (engineOut (engSliceFail (sdtCount (addMeter s 0 mTest us.toNat) false) n e solid w us) n .failed) n fun g => { g with run := none, left := 0, ptr := next }

theorem engSliceEnd_eq (hr : (getEng s n).run = some r) : engSliceEnd s n (some w) us =
    if w = (entryAt (goldenOf s uEngineSet) r.slice).sig then
      if r.again then engineFailed s n (entryAt (goldenOf s uEngineSet) r.slice) false w us ((r.slice + 1) % max 1 (goldenOf s uEngineSet).length)
      else updEng (passCounted (addMeter s 0 mTest us.toNat)) n fun g => { g with run := none, ptr := (r.slice + 1) % max 1 (goldenOf s uEngineSet).length }
    else
      if r.again then engineFailed s n (entryAt (goldenOf s uEngineSet) r.slice) true w us ((r.slice + 1) % max 1 (goldenOf s uEngineSet).length)
      else updEng (addMeter s 0 mTest us.toNat) n fun g => { g with run := some ⟨r.slice, true, s.time.tick, false, true, false⟩ } := by
  unfold engSliceEnd
  dsimp only
  rw [hr]
  dsimp only
  by_cases hs : w = (entryAt (goldenOf s uEngineSet) r.slice).sig
  · rw [if_pos hs, beq_iff_eq.2 (congrArg some hs)]
    cases r.again <;> rfl
  · rw [if_neg hs, beq_eq_false_iff_ne.2 fun h => hs (Option.some.inj h)]
    cases r.again <;> rfl

theorem engSliceEnd_passed (hn : n < s.engines.length) (hr : (getEng s n).run = some r) (hs : w = (entryAt (goldenOf s uEngineSet) r.slice).sig) (ha : r.again = false) :
    (getEng (engSliceEnd s n (some w) us) n).run = none ∧ (getEng (engSliceEnd s n (some w) us) n).state = (getEng s n).state ∧
      (engSliceEnd s n (some w) us).thermal.cnts = updAt s.thermal.cnts thPass (satAdd · 1) := by
  obtain ⟨same, cnts, -⟩ := passCounted_effect (addMeter s 0 mTest us.toNat)
  rw [engSliceEnd_eq hr, if_pos hs, if_neg (by simp [ha])]
  have engines : (passCounted (addMeter s 0 mTest us.toNat)).engines = s.engines := same .engines (by decide)
  have engine : getEng (passCounted (addMeter s 0 mTest us.toNat)) n = getEng s n := getEng_of_same same n
  generalize passCounted (addMeter s 0 mTest us.toNat) = v at *
  rw [getEng_updEng _ n _ (by rw [engines]; exact hn), engine]
  exact ⟨rfl, rfl, cnts⟩

theorem engSliceEnd_repeated (hn : n < s.engines.length) (hr : (getEng s n).run = some r) (hs : w ≠ (entryAt (goldenOf s uEngineSet) r.slice).sig) (ha : r.again = false) :
    (getEng (engSliceEnd s n (some w) us) n).run = some ⟨r.slice, true, s.time.tick, false, true, false⟩ ∧ (engSliceEnd s n (some w) us).thermal = s.thermal := by
  rw [engSliceEnd_eq hr, if_neg hs, if_neg (by simp [ha]), getEng_updEng (addMeter s 0 mTest us.toNat) n _ hn]
  exact ⟨rfl, rfl⟩

theorem engineOut_length (s : State) (e : Nat) (st : EngSt) : (engineOut s e st).engines.length = s.engines.length :=
  (length_updAt _ _ _).trans (List.foldlRecOn (motive := AsideKept s) (s.samples.filter fun x => x.engines.contains e || x.conf.contains e)
    (fun s x => endSample s x.uid x.row rIncon 0x0C) (AsideKept.rfl_ s) fun _ hv x _ => endSample_aside hv x.uid x.row rIncon 0x0C).1

theorem engineFailed_effect (hn : n < s.engines.length) (e : GoldenEntry) (solid : Bool) (next : Nat) :
    (getEng (engineFailed s n e solid w us next) n).run = none ∧ (getEng (engineFailed s n e solid w us next) n).state = .failed ∧
      (engineFailed s n e solid w us next).thermal.cnts = updAt s.thermal.cnts thFail (satAdd · 1) := by
  have counted := (sdtCount_keeps false (addMeter_keeps 0 mTest us.toNat (Keeps.rfl_ [.parts, .thermal] s) (by decide)) (by decide)).same
  have cnts : (sdtCount (addMeter s 0 mTest us.toNat) false).thermal.cnts = s.thermal.cnts := sdtCount_cnts _ false
  unfold engineFailed
  generalize sdtCount (addMeter s 0 mTest us.toNat) false = v at *
  have failed := (engSliceFail_keeps n e solid w us (Keeps.rfl_ _ v) (List.Subset.refl _)).same
  have failedCnts : (engSliceFail v n e solid w us).thermal.cnts = updAt v.thermal.cnts thFail (satAdd · 1) := by
    have recorded := addRec_same v (lbistRec v 0xFFFF 0 n e (if solid then lbSolid else lbFlaky) w us) .thermal (by decide)
    refine (congrArg Thermal.cnts (addInput_same _ _ .thermal (by decide))).trans ?_
    exact congrArg (fun t : Thermal => updAt t.cnts thFail (satAdd · 1)) recorded
  generalize engSliceFail v n e solid w us = u at *
  have hu : n < u.engines.length := by
    rw [show u.engines = v.engines from failed .engines (by decide), show v.engines = s.engines from counted .engines (by decide)]
    exact hn
  obtain ⟨own, -, out⟩ := engineOut_effect hu .failed
  have length := engineOut_length u n .failed
  generalize engineOut u n .failed = z at *
  rw [getEng_updEng _ n _ (length.symm ▸ hu), own]
  refine ⟨rfl, rfl, ?_⟩
  exact (congrArg Thermal.cnts (out .thermal (by decide) :)).trans (failedCnts.trans (by rw [cnts]))

theorem engSliceEnd_failed (hn : n < s.engines.length) (hr : (getEng s n).run = some r) (ha : r.again = true) :
    (getEng (engSliceEnd s n (some w) us) n).run = none ∧ (getEng (engSliceEnd s n (some w) us) n).state = .failed ∧
      (engSliceEnd s n (some w) us).thermal.cnts = updAt s.thermal.cnts thFail (satAdd · 1) := by
  rw [engSliceEnd_eq hr, if_pos ha, if_pos ha]
  split
  · exact engineFailed_effect hn _ _ _
  · exact engineFailed_effect hn _ _ _

end

/-! ### DONE_POLL -/

section
variable {s : State} {j : Nat} {x : Tile} {r : SliceRun}

/-- A slice of which DONE was polled. -/
def polledRun (d : Bool) (r : SliceRun) : SliceRun := { r with doneSeen := r.doneSeen || (d && r.going) }

theorem exec_donePoll (hx : getTile s j = some x) (hr : x.run = some r) (d : Bool) : exec (.donePoll (.tile j) d) s =
    .next (if d && r.going then updWrap (updTile s j fun t => { t with run := t.run.map (polledRun d) }) j (entryAt (fullSet s j) r.slice) wrapDone
      else updTile s j fun t => { t with run := t.run.map (polledRun d) }) := by
  change execDonePoll (.tile j) d s = _
  unfold execDonePoll
  dsimp only
  rw [hx]
  dsimp only [Option.bind_some]
  rw [hr]
  rfl

theorem donePoll_effect (hx : getTile s j = some x) (hr : x.run = some r) (d : Bool) : ∃ t y, exec (.donePoll (.tile j) d) s = .next t ∧ getTile t j = some y ∧
    TlKeeps (some j) [.run] s t ∧ y = { x with run := some (polledRun d r) } ∧ t = { s with tiles := t.tiles, spires := t.spires } ∧ (d = false → t = s) := by
  have polled : getTile (updTile s j fun t => { t with run := t.run.map (polledRun d) }) j = some { x with run := some (polledRun d r) } := by
    rw [getTile_updTile_some hx _ fun _ => by rfl, hr]
    rfl
  have tile : TlKeeps (some j) [.run] s (updTile s j fun t => { t with run := t.run.map (polledRun d) }) :=
    (TlKeeps.rfl_ s).updTile j _ [.run] (fun _ => rfl) (covers_own j) (List.Subset.refl _)
  have idle (hd : d = false) : (updTile s j fun t => { t with run := t.run.map (polledRun d) }) = s := by
    have same (q : SliceRun) : polledRun d q = q := by rw [polledRun, hd, Bool.false_and, Bool.or_false]
    have tiles : (fun t : Tile => if t.ix = j then { t with run := t.run.map (polledRun d) } else t) = id := by
      funext t
      rw [show polledRun d = id from funext same, Option.map_id]
      exact ite_self _
    rw [updTile, tiles, List.map_id]
  have closed := exec_donePoll hx hr d
  by_cases hd : (d && r.going) = true
  · rw [if_pos hd] at closed
    refine ⟨_, _, closed, polled, tile.of_eq rfl, rfl, rfl, fun h => ?_⟩
    rw [h] at hd
    exact absurd hd (by simp)
  · rw [if_neg hd] at closed
    exact ⟨_, _, closed, polled, tile, rfl, rfl, idle⟩

end
end Sys2Proof.Machine
end

section
/-! Self-test slices as a whole (R435, R437). -/

set_option Elab.async false

namespace Sys2Proof.Machine

/-! ### Self-test slices as a whole (R435, R437) -/

section
variable {s t : State} {sp : Nat} {x : Tile}

/-- What the end of a slice gives, by the tile that ends. -/
theorem slice_ran {c : Instr} {t : State} {y : Tile} {P : State → Tile → Prop} (hx : getTile s sp = some x) (run : exec c s = .next t) (hy : getTile t sp = some y)
    (tile : TlKeeps (some sp) sliceFields s t) (data : t.cistern.data = s.cistern.data) (hP : P t y) :
    ∃ t y, exec c s = .next t ∧ getTile t sp = some y ∧ y.state = x.state ∧ P t y ∧ (∀ j, j ≠ sp → getTile t j = getTile s j) ∧ t.cistern.data = s.cistern.data := by
  obtain ⟨z, hz, rel⟩ := tile.getTile_some hx
  obtain rfl := Option.some.inj (hy.symm.trans hz)
  exact ⟨t, y, run, hy, rel.same .state (by decide), hP, fun j hj => tile.getTile_other hj, data⟩

theorem sliceDone_data (u : TestUnit) (ck : CheckerRun) (w : W64) (us : W32) (h : exec (.sliceDone u ⟨ck, w⟩ us) s = .next t) : t.cistern.data = s.cistern.data := by
  obtain ⟨t', run, keeps⟩ := execSliceDone_keeps u ⟨ck, w⟩ us (Keeps.rfl_ _ s) (List.Subset.refl _)
  obtain rfl := Host.Outcome.next.inj (h.symm.trans run)
  exact keeps.same.bytes_eq.1

theorem sliceTimeout_data (u : TestUnit) (h : exec (.sliceTimeout u) s = .next t) : t.cistern.data = s.cistern.data := by
  obtain ⟨t', run, keeps⟩ := execSliceTimeout_keeps u (Keeps.rfl_ _ s) (List.Subset.refl _)
  obtain rfl := Host.Outcome.next.inj (h.symm.trans run)
  exact keeps.same.bytes_eq.1

/-- A slice whose checker self-test stands aside ends by its signature. -/
theorem exec_sliceDone_judged {r : SliceRun} (hx : getTile s sp = some x) (hr : x.run = some r) (ck : CheckerRun) (w : W64) (us : W32) (hj : r.first = false ∨ ck.passes = true) :
    exec (.sliceDone (.tile sp) ⟨ck, w⟩ us) s = .next (tileSliceEnd s sp (some w) us) := by
  refine (exec_sliceDone hx hr ck w us).trans (congrArg Host.Outcome.next (if_neg ?_))
  rcases hj with h | h <;> simp [h]

/-- A slice whose patterns wait does not end. -/
theorem tileSliceEnd_waits {r : SliceRun} {sig : Option W64} {us : W32} (hx : getTile s sp = some x) (hr : x.run = some r) (hg : r.going = false) : tileSliceEnd s sp sig us = s := by
  unfold tileSliceEnd
  rw [onTile_some hx]
  dsimp only
  rw [hr]
  exact if_pos (by rw [hg]; rfl)

theorem timedOut_viol {p : Spire} (hp : getSp s sp = some p) (e : GoldenEntry) (us : W32) : ∃ q, getSp (timedOut s sp e us) sp = some q ∧ q.viol = (0x70, 0x0210) := by
  obtain ⟨q, hq, viol, -⟩ := tapViol_own hp .tapviol none 0x70 0 0
  unfold timedOut
  generalize tapViol s .tapviol sp none 0x70 0 0 = u at hq ⊢
  exact ⟨q, (congrArg (fun l => l.find? fun q => q.ix == sp) (addRec_same u _ .spires (by decide))).trans hq, viol⟩

theorem onTile_none (hx : getTile s sp = none) (f : Tile → State) : onTile s sp f = s := by rw [onTile, hx]

/-- A unit with no slice is left as it is. -/
theorem slice_idle (s : State) (u : TestUnit) (ck : CheckerRun) (w : W64) (us : W32)
    (h : match u with | .tile sp => (∀ x, getTile s sp = some x → x.run = none) | .engine e => (getEng s e).run = none) :
    exec (.sliceDone u ⟨ck, w⟩ us) s = .next s ∧ exec (.sliceTimeout u) s = .next s := by
  cases u with
  | tile sp =>
    cases hx : getTile s sp with
    | none => exact ⟨congrArg Host.Outcome.next (onTile_none hx _), congrArg Host.Outcome.next (onTile_none hx _)⟩
    | some x =>
      have none_ := h x hx
      constructor <;>
      · refine congrArg Host.Outcome.next ((onTile_some hx _).trans ?_)
        dsimp only
        rw [none_]
  | engine e =>
    have none_ : (getEng s e).run = none := h
    constructor
    · refine congrArg Host.Outcome.next ?_
      dsimp only [unitSliceEnd]
      unfold engSliceEnd
      dsimp only
      rw [none_]
    · change execSliceTimeout (.engine e) s = _
      unfold execSliceTimeout
      dsimp only
      rw [none_]

end

/-- Settles O57: a slice's end is judged by its signature and its run; the end of its request and its levels touch its own tile alone. -/
theorem selfTestSlices : Obligations.SelfTestSlices := by
  unfold Obligations.SelfTestSlices
  refine ⟨?_, ?_, fun s u ck sig us h => slice_idle s u ck sig us h⟩
  · intro s sp x r ck sig us hx hr e ran failed again judged
    have whole (hj : judged) : exec (.sliceDone (.tile sp) ⟨ck, sig⟩ us) s = .next (tileSliceEnd s sp (some sig) us) := exec_sliceDone_judged hx hr ck sig us hj
    refine ⟨?_, ?_, ?_, ?_, ?_, ?_, ?_, ?_, ?_, ?_, ?_⟩
    · intro d
      obtain ⟨t, y, run, hy, tile, polled, frame, idle⟩ := donePoll_effect hx hr d
      refine slice_ran hx run hy (tile.mono (by decide)) ?_ ⟨polled, frame, idle⟩
      rw [frame]
    · intro hg hj hs ha
      obtain ⟨y, hy, stopped, tile, cnts⟩ := tileSliceEnd_passed (sig := some sig) (us := us) hx hr hg (congrArg some hs) ha
      exact slice_ran hx (whole hj) hy tile (sliceDone_data _ ck sig us (whole hj)) ⟨stopped, cnts⟩
    · intro hg hj hs ha
      obtain ⟨y, b, g, hy, repeats, pass, tile, thermal⟩ := tileSliceEnd_repeated (sig := some sig) (us := us) hx hr hg (fun h => hs (Option.some.inj h)) ha
      rw [Option.isNone_some, Bool.and_false] at repeats
      exact slice_ran hx (whole hj) hy tile (sliceDone_data _ ck sig us (whole hj)) ⟨⟨b, g, repeats⟩, pass, thermal⟩
    · intro hg hj hs ha
      obtain ⟨y, hy, stopped, pass, tile, cnts, input, -⟩ := tileSliceEnd_failed (sig := some sig) (us := us) hx hr hg ha
      rw [if_pos (congrArg some hs)] at input
      exact slice_ran hx (whole hj) hy tile (sliceDone_data _ ck sig us (whole hj)) ⟨stopped, pass, cnts, input, fun h => absurd h (by decide)⟩
    · intro hg hj hs ha
      have differs : some sig ≠ some (entryAt (fullSet s sp) r.slice).sig := fun h => hs (Option.some.inj h)
      obtain ⟨y, hy, stopped, pass, tile, cnts, input, due⟩ := tileSliceEnd_failed (sig := some sig) (us := us) hx hr hg ha
      rw [if_neg differs] at input
      exact slice_ran hx (whole hj) hy tile (sliceDone_data _ ck sig us (whole hj)) ⟨stopped, pass, cnts, input, fun _ => due differs⟩
    · intro hg hf hck
      have closed := (exec_sliceDone hx hr ck sig us).trans (congrArg Host.Outcome.next (if_pos (by simp [hf, hg, hck])))
      obtain ⟨y, hy, stopped, reqs, tile, due, input⟩ := checkerFailed_own hx (entryAt (fullSet s sp) r.slice) sig us
      exact slice_ran hx closed hy tile (sliceDone_data _ ck sig us closed) ⟨stopped, due, reqs, input⟩
    · intro hg hd ha
      have closed := (exec_sliceTimeout hx hr).trans (congrArg Host.Outcome.next (if_neg (by simp [hg, hd])))
      have same := timedOut_same s sp (entryAt (fullSet s sp) r.slice) (BitVec.ofNat 32 ((entryAt (fullSet s sp) r.slice).maxMs * 1000))
      have data := sliceTimeout_data _ closed
      generalize timedOut s sp (entryAt (fullSet s sp) r.slice) (BitVec.ofNat 32 ((entryAt (fullSet s sp) r.slice).maxMs * 1000)) = u at *
      have own := (getTile_of_tiles (same .tiles (by decide)) sp).trans hx
      obtain ⟨y, hy, stopped, pass, tile, cnts, input, due⟩ := tileSliceEnd_failed (sig := none) (us := BitVec.ofNat 32 ((entryAt (fullSet s sp) r.slice).maxMs * 1000)) own hr hg ha
      refine slice_ran hx closed hy (((TlKeeps.rfl_ s).of_same same).trans tile) data ⟨stopped, pass, ?_, fun hrun => ?_, fun _ => due (fun h => nomatch h)⟩
      · rw [cnts, show u.thermal = s.thermal from same .thermal (by decide)]
      · rw [if_neg fun h => nomatch h] at input
        exact input ((same .belfryRun (by decide)).trans hrun)
    · intro hg hd ha
      have closed := (exec_sliceTimeout hx hr).trans (congrArg Host.Outcome.next (if_neg (by simp [hg, hd])))
      have same := timedOut_same s sp (entryAt (fullSet s sp) r.slice) (BitVec.ofNat 32 ((entryAt (fullSet s sp) r.slice).maxMs * 1000))
      have data := sliceTimeout_data _ closed
      generalize timedOut s sp (entryAt (fullSet s sp) r.slice) (BitVec.ofNat 32 ((entryAt (fullSet s sp) r.slice).maxMs * 1000)) = u at *
      have own := (getTile_of_tiles (same .tiles (by decide)) sp).trans hx
      obtain ⟨y, b, g, hy, repeats, -, tile, -⟩ := tileSliceEnd_repeated (sig := none) (us := BitVec.ofNat 32 ((entryAt (fullSet s sp) r.slice).maxMs * 1000)) own hr hg (fun h => nomatch h) ha
      rw [Option.isNone_none, Bool.and_true] at repeats
      exact slice_ran hx closed hy (((TlKeeps.rfl_ s).of_same same).trans tile) data ⟨b, g, repeats⟩
    · intro hg hd p hp
      have closed := (exec_sliceTimeout hx hr).trans (congrArg Host.Outcome.next (if_neg (by simp [hg, hd])))
      obtain ⟨q, hq, viol⟩ := timedOut_viol hp (entryAt (fullSet s sp) r.slice) (BitVec.ofNat 32 ((entryAt (fullSet s sp) r.slice).maxMs * 1000))
      have same := timedOut_same s sp (entryAt (fullSet s sp) r.slice) (BitVec.ofNat 32 ((entryAt (fullSet s sp) r.slice).maxMs * 1000))
      generalize timedOut s sp (entryAt (fullSet s sp) r.slice) (BitVec.ofNat 32 ((entryAt (fullSet s sp) r.slice).maxMs * 1000)) = u at *
      have own := (getTile_of_tiles (same .tiles (by decide)) sp).trans hx
      obtain ⟨p', hp', rel⟩ := (tileSliceEnd_sp (sig := none) (us := BitVec.ofNat 32 ((entryAt (fullSet s sp) r.slice).maxMs * 1000)) own hr hg).getSp_some hq
      exact ⟨_, p', closed, hp', (rel.same .viol (by decide)).trans viol⟩
    · intro h
      exact (exec_sliceTimeout hx hr).trans (congrArg Host.Outcome.next (if_pos (by rcases h with h | h <;> simp [h])))
    · intro hg
      exact (exec_sliceDone hx hr ck sig us).trans (congrArg Host.Outcome.next ((if_neg (by simp [hg])).trans (tileSliceEnd_waits hx hr hg)))
  · intro s n r ck sig us hn hr e
    have closed : exec (.sliceDone (.engine n) ⟨ck, sig⟩ us) s = .next (engSliceEnd s n (some sig) us) := rfl
    exact ⟨_, closed, sliceDone_data _ ck sig us closed, fun hs ha => engSliceEnd_passed hn hr hs ha, fun hs ha => engSliceEnd_repeated hn hr hs ha,
      fun ha => engSliceEnd_failed hn hr ha⟩

end Sys2Proof.Machine
end

section
/-! TT_PROG, TT_IDLE and the straggler period (R71, R210, R211, R267). -/

set_option Elab.async false

namespace Sys2Proof.Machine

/-! ### TT_PROG and TT_IDLE (R71, R210, R267) -/

section
variable {s : State} {ix : Nat} {sp : Spire}

/-- The range of a tap's progress count, and the value of a Gray-coded sample in it. -/
def progWidth (sp : Spire) : Nat := if sp.tap.ver = 2 then 16 else 32

def progValue (sp : Spire) (gray : W32) : Nat := ofGray (progWidth sp) (gray.toNat % 2 ^ progWidth sp)

def progDiff (sp : Spire) (gray : W32) : Nat := (progValue sp gray + 2 ^ progWidth sp - sp.tap.progBase.toNat % 2 ^ progWidth sp) % 2 ^ progWidth sp

/-- A Spire that took a new base of its progress count. -/
def rebased (x : Nat) (p : Spire) : Spire := { p with tap := { p.tap with progBase := BitVec.ofNat 32 x } }

/-- A Spire whose progress count moved on to a new base. -/
def progressed (x diff : Nat) (p : Spire) : Spire := { p with tap := { p.tap with progBase := BitVec.ofNat 32 x, prog := p.tap.prog + BitVec.ofNat 64 diff } }

theorem exec_ttProgChange (hsp : getSp s ix = some sp) (hl : tapLive s sp = true) (gray : W32) : exec (.ttProgChange ix gray) s =
    .next (if progDiff sp gray < 2 ^ (progWidth sp - 1) then
      if progDiff sp gray ≠ 0 ∧ stateOf s ix < stFenced then
        { updSp s ix (progressed (progValue sp gray) (progDiff sp gray)) with hang := { s.hang with back := true } }
      else updSp s ix (progressed (progValue sp gray) (progDiff sp gray))
    else updTile (tapViol (updSp s ix (rebased (progValue sp gray))) .tapviol ix none 0x40 0 0) ix fun t => { t with wd := s.time.tick.toNat, ranOut := false }) := by
  refine congrArg Host.Outcome.next ((onSp_some hsp _).trans ((if_neg ?_).trans ?_))
  · simp [hl]
  · rfl

theorem ttProgChange_effect (hsp : getSp s ix = some sp) (hl : tapLive s sp = true) (gray : W32) :
    ∃ t sp', exec (.ttProgChange ix gray) s = .next t ∧ getSp t ix = some sp' ∧ sp'.tap.progBase = BitVec.ofNat 32 (progValue sp gray) ∧
      (progDiff sp gray < 2 ^ (progWidth sp - 1) → sp'.tap.prog = sp.tap.prog + BitVec.ofNat 64 (progDiff sp gray) ∧
        t = { s with spires := t.spires, hang := { s.hang with back := t.hang.back } }) ∧
      (2 ^ (progWidth sp - 1) ≤ progDiff sp gray → sp'.tap.prog = sp.tap.prog ∧ sp'.viol = (0x40, 0x0210)) ∧
      (∀ j, j ≠ ix → getSp t j = getSp s j) := by
  have closed := exec_ttProgChange hsp hl gray
  by_cases h : progDiff sp gray < 2 ^ (progWidth sp - 1)
  · rw [if_pos h] at closed
    have moved := getSp_updSp_some hsp (progressed (progValue sp gray) (progDiff sp gray)) fun _ => rfl
    have others (j : Nat) (hj : j ≠ ix) : getSp (updSp s ix (progressed (progValue sp gray) (progDiff sp gray))) j = getSp s j := getSp_updSp_ne s _ (fun _ => rfl) hj
    by_cases hb : progDiff sp gray ≠ 0 ∧ stateOf s ix < stFenced
    · rw [if_pos hb] at closed
      exact ⟨_, _, closed, moved, rfl, fun _ => ⟨rfl, rfl⟩, fun hge => absurd h (Nat.not_lt.2 hge), others⟩
    · rw [if_neg hb] at closed
      exact ⟨_, _, closed, moved, rfl, fun _ => ⟨rfl, rfl⟩, fun hge => absurd h (Nat.not_lt.2 hge), others⟩
  · rw [if_neg h] at closed
    have based := getSp_updSp_some hsp (rebased (progValue sp gray)) fun _ => rfl
    have others (j : Nat) (hj : j ≠ ix) : getSp (updSp s ix (rebased (progValue sp gray))) j = getSp s j := getSp_updSp_ne s _ (fun _ => rfl) hj
    generalize updSp s ix (rebased (progValue sp gray)) = u at *
    obtain ⟨y, hy, viol, rel⟩ := tapViol_own based .tapviol none 0x40 0 0
    have keeps := tapViol_sp (SpKeeps.rfl_ (i := some ix) (m := [.cnt, .viol, .trc, .big]) u) .tapviol ix none 0x40 0 0 (covers_own ix) (by decide)
    generalize tapViol u .tapviol ix none 0x40 0 0 = v at *
    have tap : y.tap = (rebased (progValue sp gray) sp).tap := rel.same .tap (by decide)
    exact ⟨_, y, closed, hy, by rw [tap]; rfl, fun hlt => absurd hlt h, fun _ => ⟨by rw [tap]; rfl, viol⟩, fun j hj => (keeps.getSp_other hj).trans (others j hj)⟩

end

section
variable {s : State} {i : Nat} {sp : Spire}

theorem exec_ttIdleChange (hsp : getSp s i = some sp) (b : Bool) : exec (.ttIdleChange i b) s = .next (if sp.lv.idle = b then s else
      let s1 := updSp s i fun p => { p with
        lv := { p.lv with idle := b }, tap := { p.tap with idleInPeriod := p.tap.idleInPeriod || b } }
      if b then
        if ((getTile s1 i).map waitsIdle).getD false then domeSlices s1 (i / 256) else s1
      else
        let s2 := if (openOps sp).isEmpty then updTile s1 i fun t => { t with wd := s.time.tick.toNat } else s1
        if stopped s2 i then c4Violation s2 (partOfSp s2 i) else s2) :=
  congrArg Host.Outcome.next (onSp_some hsp _)

theorem ttIdleChange_same {b : Bool} (hsp : getSp s i = some sp) (hb : sp.lv.idle = b) : exec (.ttIdleChange i b) s = .next s :=
  (exec_ttIdleChange hsp b).trans (congrArg Host.Outcome.next (if_pos hb))

/-- Work begins on a tile with no open descriptor that may work: its watchdog starts. -/
theorem ttIdleChange_fall {x : Tile} (hsp : getSp s i = some sp) (hx : getTile s i = some x) (hi : sp.lv.idle = true) (ho : openOps sp = []) (hs : stopped s i = false) :
    ∃ t, exec (.ttIdleChange i false) s = .next t ∧ getSp t i = some { sp with lv := { sp.lv with idle := false } } ∧
      getTile t i = some { x with wd := s.time.tick.toNat } ∧ t = { s with spires := t.spires, tiles := t.tiles } := by
  have closed := (exec_ttIdleChange hsp false).trans (congrArg Host.Outcome.next (if_neg (by rw [hi]; decide)))
  dsimp only at closed
  rw [if_neg (by decide), ho, List.isEmpty_nil, if_pos rfl] at closed
  have level := getSp_updSp_some hsp (fun p => { p with lv := { p.lv with idle := false }, tap := { p.tap with idleInPeriod := p.tap.idleInPeriod || false } }) fun _ => rfl
  dsimp only at level
  rw [Bool.or_false] at level
  generalize hu : (updSp s i fun p => { p with lv := { p.lv with idle := false }, tap := { p.tap with idleInPeriod := p.tap.idleInPeriod || false } }) = u at closed level
  have same : Same [.spires] s u := hu ▸ (updSp_keeps i _ (Keeps.rfl_ _ s) (List.Subset.refl _)).same
  have started := getTile_updTile_some ((getTile_of_tiles (same .tiles (by decide)) i).trans hx) (fun t => { t with wd := s.time.tick.toNat }) fun _ => rfl
  have working : stopped (updTile u i fun t => { t with wd := s.time.tick.toNat }) i = false := by
    rw [stopped, stateOf_of_getTile started]
    rw [stopped, stateOf_of_getTile hx] at hs
    exact hs
  rw [if_neg (by rw [working]; exact Bool.false_ne_true)] at closed
  refine ⟨_, closed, level, started, ?_⟩
  have frame := same.frame
  exact congrArg (fun v : State => { v with tiles := (updTile u i fun t => { t with wd := s.time.tick.toNat }).tiles }) frame

/-- A rise, with no test that waits for it. -/
theorem ttIdleChange_rise (hsp : getSp s i = some sp) (hi : sp.lv.idle = false) (hw : ((getTile s i).map waitsIdle).getD false = false) :
    ∃ t, exec (.ttIdleChange i true) s = .next t ∧
      getSp t i = some { sp with lv := { sp.lv with idle := true }, tap := { sp.tap with idleInPeriod := true } } ∧ t = { s with spires := t.spires } := by
  have closed := (exec_ttIdleChange hsp true).trans (congrArg Host.Outcome.next (if_neg (by rw [hi]; decide)))
  dsimp only at closed
  rw [if_pos rfl] at closed
  have level := getSp_updSp_some hsp (fun p => { p with lv := { p.lv with idle := true }, tap := { p.tap with idleInPeriod := p.tap.idleInPeriod || true } }) fun _ => rfl
  have waits : ((getTile (updSp s i fun p => { p with lv := { p.lv with idle := true }, tap := { p.tap with idleInPeriod := p.tap.idleInPeriod || true } }) i).map waitsIdle).getD false = false := hw
  rw [if_neg (by rw [waits]; exact Bool.false_ne_true)] at closed
  dsimp only at level
  rw [Bool.or_true] at level
  exact ⟨_, closed, level, rfl⟩

end

/-! ### The straggler period (R210, R211) -/

section
variable {s : State} {p i : Nat} {sp : Spire}

/-- The work of a straggler period on the tiles. -/
def stragglerJudged (s : State) (p : Nat) : State :=
  let rec_ := plausRec s p
  let rs := runners s p
  let layers := (rs.map fun r => dLayer r.dsc).eraseDups
  let groups := layers.map fun l => rs.filter fun r => dLayer r.dsc == l
  let slow := (groups.filter fun g => decide (g.length ≥ 4)).flatMap fun g =>
    (g.filter fun r => slowRun (qFrac rec_) (lowMedian (g.map (·.delta))) r.delta).map (·.ix)
  if qStragEn rec_ then
    groups.foldl (groupPeriod p (qFrac rec_) (qStragN rec_)) { s with
      tiles := s.tiles.map fun t => if t.part = p ∧ !slow.contains t.ix then { t with slow := 0, slowRaised := false } else t }
  else s

/-- The traces that end a straggler period. -/
def stragglerTraced (s u : State) (p : Nat) : State :=
  (u.spires.filter fun x => partOfSp s x.ix == p).foldl (fun v x => trace v x.ix 0x23 true false 0xFFFF 0xFFFF 0xFFFF (x.tap.progBase.toNat)) u

/-- A Spire that begins its next straggler period. -/
def nextPeriod (x : Spire) : Spire := { x with tap := { x.tap with progAtPeriod := x.tap.prog, idleInPeriod := x.lv.idle } }

theorem exec_stragglerPeriod (s : State) (p : Nat) : exec (.stragglerPeriod p) s = .next { stragglerTraced s (stragglerJudged s p) p with
    spires := (stragglerTraced s (stragglerJudged s p) p).spires.map fun x => if partOfSp s x.ix == p then nextPeriod x else x } := rfl

/-- The tiles that were not slow start anew. -/
def stragglerMarked (s : State) (f : Tile → Tile) : State := { s with tiles := s.tiles.map f }

theorem stragglerMarked_same (s : State) (f : Tile → Tile) : Same [.tiles] s (stragglerMarked s f) := fun g hg => by
  cases g with
  | tiles => exact absurd (by decide) hg
  | _ => rfl

theorem groupPeriod_same (p frac n : Nat) (s : State) (g : List Runner) :
    Same [.alert, .inputs, .cistern, .parts, .tiles, .records, .early, .near, .erg, .rng] s (groupPeriod p frac n s g) :=
  (groupPeriod_keeps p frac n g (Keeps.rfl_ _ s) (List.Subset.refl _)).same

/-- The marks of a period, then its groups, each of some of the participants. -/
theorem stragglerJudged_cases (s : State) (p : Nat) : stragglerJudged s p = s ∨ ∃ (f : Tile → Tile) (groups : List (List Runner)), (∀ g ∈ groups, g.length ≤ (runners s p).length) ∧
    stragglerJudged s p = groups.foldl (groupPeriod p (qFrac (plausRec s p)) (qStragN (plausRec s p))) (stragglerMarked s f) := by
  unfold stragglerJudged
  dsimp only
  split
  · refine .inr ⟨_, _, fun g hg => ?_, rfl⟩
    obtain ⟨l, -, rfl⟩ := List.mem_map.1 hg
    exact List.length_filter_le _ _
  · exact .inl rfl

theorem stragglerJudged_same (s : State) (p : Nat) :
    Same [.alert, .inputs, .cistern, .parts, .tiles, .records, .early, .near, .erg, .rng] s (stragglerJudged s p) := by
  obtain e | ⟨f, groups, -, e⟩ := stragglerJudged_cases s p <;> rw [e]
  · exact Same.rfl_ _ s
  · exact List.foldlRecOn (motive := fun v => Same [.alert, .inputs, .cistern, .parts, .tiles, .records, .early, .near, .erg, .rng] s v) _ _
      ((stragglerMarked_same s f).mono (by decide)) fun v hv g _ => hv.trans (groupPeriod_same _ _ _ v g)

/-- With fewer than four participants nothing but the marks of the tiles changes. -/
theorem stragglerJudged_few (h : (runners s p).length < 4) : Same [.tiles] s (stragglerJudged s p) := by
  obtain e | ⟨f, groups, small, e⟩ := stragglerJudged_cases s p <;> rw [e]
  · exact Same.rfl_ _ s
  · refine List.foldlRecOn (motive := fun v => Same [.tiles] s v) _ _ (stragglerMarked_same s f) fun v hv g hg => ?_
    rw [groupPeriod, if_pos (Nat.lt_of_le_of_lt (small g hg) h)]
    exact hv

theorem stragglerTraced_sp (s u : State) (p : Nat) : SpKeeps none [.cnt, .trc] u (stragglerTraced s u p) :=
  SpKeeps.foldl (fun v x hv => trace_sp hv x.ix 0x23 true false 0xFFFF 0xFFFF 0xFFFF (x.tap.progBase.toNat) (covers_all x.ix) (List.Subset.refl _)) (SpKeeps.rfl_ u) _

theorem stragglerTraced_same (s u : State) (p : Nat) : Same [.spires] u (stragglerTraced s u p) :=
  List.foldlRecOn (motive := fun v => Same [.spires] u v) _ _ (Same.rfl_ _ u) fun v hv x _ =>
    hv.trans (trace_keeps x.ix 0x23 true false 0xFFFF 0xFFFF 0xFFFF (x.tap.progBase.toNat) (Keeps.rfl_ _ v) (List.Subset.refl _)).same

/-- The state after a straggler period, of what its judgement and its traces left. -/
theorem stragglerPeriod_effect (hsp : getSp s i = some sp) (hp : partOfSp s i = p) :
    ∃ t sp', exec (.stragglerPeriod p) s = .next t ∧ getSp t i = some sp' ∧ sp'.tap.progAtPeriod = sp.tap.prog ∧ sp'.tap.idleInPeriod = sp.lv.idle ∧ sp'.ops = sp.ops ∧
      ((runners s p).length < 4 → t.records = s.records ∧ t.belfry = s.belfry) ∧ t.cistern.data = s.cistern.data := by
  obtain ⟨t, run, keeps⟩ := execStragglerPeriod_keeps p (Keeps.rfl_ _ s) (List.Subset.refl _)
  have closed := exec_stragglerPeriod s p
  obtain rfl := Host.Outcome.next.inj (closed.symm.trans run)
  have judged := stragglerJudged_same s p
  have few := stragglerJudged_few (s := s) (p := p)
  generalize stragglerJudged s p = u at *
  have traced := stragglerTraced_sp s u p
  have same := stragglerTraced_same s u p
  have found : getSp u i = some sp := (congrArg (fun l => l.find? fun q => q.ix == i) (judged .spires (by decide) :)).trans hsp
  obtain ⟨y, hy, rel⟩ := traced.getSp_some found
  generalize stragglerTraced s u p = v at *
  have hix : y.ix = i := eq_of_beq (List.find?_some (show v.spires.find? (fun q => q.ix == i) = some y from hy) :)
  have next : (v.spires.map fun x => if partOfSp s x.ix == p then nextPeriod x else x).find? (fun q => q.ix == i) = some (nextPeriod y) := by
    refine (find?_map_keeps v.spires Spire.ix _ (fun t => by split <;> rfl) i).trans ?_
    rw [show v.spires.find? (fun q => q.ix == i) = some y from hy, Option.map_some, hix, if_pos (beq_iff_eq.2 hp)]
  have tap : y.tap = sp.tap := rel.same .tap (by decide)
  have lv : y.lv = sp.lv := rel.same .lv (by decide)
  refine ⟨_, nextPeriod y, closed, next, ?_, ?_, rel.same .ops (by decide), fun h => ?_, keeps.same.bytes_eq.1⟩
  · exact (show y.tap.prog = _ by rw [tap])
  · exact (show y.lv.idle = _ by rw [lv])
  · have whole : Same [.tiles, .spires] s v := ((few h).mono (by decide)).trans (same.mono (by decide))
    exact ⟨whole .records (by decide), whole.belfry_eq⟩

end

/-- Settles O15: the taps' samples one by one, and the straggler period by its parts. -/
theorem tapProgressAndIdle : Obligations.TapProgressAndIdle := by
  unfold Obligations.TapProgressAndIdle
  refine ⟨?_, ⟨?_, ?_, ?_⟩, ?_⟩
  · exact fun s ix sp gray hsp hl => ttProgChange_effect hsp hl gray
  · exact fun s i sp b hsp hb => ttIdleChange_same hsp hb
  · exact fun s i sp x hsp hx hi ho hs => ttIdleChange_fall hsp hx hi ho hs
  · exact fun s i sp hsp hi hw => ttIdleChange_rise hsp hi hw
  · exact fun s p i sp hsp hp => stragglerPeriod_effect hsp hp

end Sys2Proof.Machine
end

section
/-! Operations that close early (R54, R65, R67, R72). -/

set_option Elab.async false

namespace Sys2Proof.Machine

/-! ### Operations that close early (R54, R65, R67, R72) -/

/-- An operation as its early closure leaves it. -/
def closedOp (j : Nat) (c : Closure) (tick : W64) (x : OpCtx) : OpCtx :=
  { x with
    closed := true, closure := some (x.closure.getD c), endTick := tick, dumping := false, cycles := Config.tclkCycles j x.ackTick tick
    caps := x.caps.map fun k => { k with dropped := k.dropped || !spared c k } }

/-- The operations of a Spire when those of a number have closed: they stand behind the others. -/
def shutOps (ops : List OpCtx) (uid : Nat) (f : OpCtx → OpCtx) : List OpCtx :=
  (ops.filter fun o => o.uid != uid) ++ (ops.filter fun o => o.uid == uid).map f

section
variable {ops : List OpCtx} {uid : Nat} {f : OpCtx → OpCtx} {o : OpCtx}

theorem shutCtx_ops (sp : Spire) (uid : Nat) (f : OpCtx → OpCtx) : (shutCtx sp uid f).ops = shutOps sp.ops uid f := rfl

theorem mem_shutOps_other (h : o ∈ ops) (hu : o.uid ≠ uid) : o ∈ shutOps ops uid f :=
  List.mem_append_left _ (List.mem_filter.2 ⟨h, bne_iff_ne.2 hu⟩)

theorem mem_shutOps_own (h : o ∈ ops) (hu : o.uid = uid) : f o ∈ shutOps ops uid f :=
  List.mem_append_right _ (List.mem_map_of_mem (List.mem_filter.2 ⟨h, beq_iff_eq.2 hu⟩))

theorem of_mem_shutOps (h : o ∈ shutOps ops uid f) : (o ∈ ops ∧ o.uid ≠ uid) ∨ ∃ x ∈ ops, x.uid = uid ∧ f x = o := by
  obtain h | h := List.mem_append.1 h
  · obtain ⟨h, hu⟩ := List.mem_filter.1 h
    exact .inl ⟨h, bne_iff_ne.1 hu⟩
  · obtain ⟨x, hx, rfl⟩ := List.mem_map.1 h
    obtain ⟨hx, hu⟩ := List.mem_filter.1 hx
    exact .inr ⟨x, hx, beq_iff_eq.1 hu, rfl⟩

/-- All operations of the number are closed. -/
theorem shutOps_closed (hf : ∀ x, (f x).uid = x.uid ∧ (f x).closed = true) (h : o ∈ shutOps ops uid f) (hu : o.uid = uid) : o.closed = true := by
  obtain ⟨-, hne⟩ | ⟨x, -, -, rfl⟩ := of_mem_shutOps h
  · exact absurd hu hne
  · exact (hf x).2

end

/-- An operation and what its closure with a cause leaves of it: an earlier cause stands. -/
structure ClosedBy (c : Closure) (o o' : OpCtx) : Prop where
  uid : o'.uid = o.uid
  dsc : o'.dsc = o.dsc
  closed : o'.closed = true
  closure : o'.closure = some (o.closure.getD c)

theorem closedBy_closedOp (j : Nat) (c : Closure) (tick : W64) (o : OpCtx) : ClosedBy c o (closedOp j c tick o) := ⟨rfl, rfl, rfl, rfl⟩

/-- A cause that stands is not replaced. -/
theorem ClosedBy.again {c : Closure} {o o' o'' : OpCtx} (h : ClosedBy c o o') (g : ClosedBy c o' o'') : ClosedBy c o o'' :=
  ⟨g.uid.trans h.uid, g.dsc.trans h.dsc, g.closed, by rw [g.closure, h.closure]; rfl⟩

/-- The fields of a Spire that a closure changes beside those of the operation itself. -/
def partingFields : List SpFld := [.big, .witSent, .witGrants, .trc, .cycFrom]

section
variable {s : State} {j : Nat} {x : Spire}

/-- What the Spire sends and counts before an operation closes. -/
def partingWork (s : State) (j : Nat) (o : OpCtx) (c : Closure) : State :=
  countCycles (endDump ((o.caps.filter fun k => !spared c k).foldl (fun s k => send s (.abandon j o.uid k.row (closureReplay c) true)) s) j o) j

theorem closeOpEarly_eq (s : State) (j : Nat) (o : OpCtx) (c : Closure) :
    closeOpEarly s j o c = updSp (partingWork s j o c) j fun sp => shutCtx sp o.uid (closedOp j c s.time.tick) := rfl

theorem partingWork_sp (s : State) (j : Nat) (o : OpCtx) (c : Closure) : SpKeeps (some j) partingFields s (partingWork s j o c) :=
  countCycles_sp (endDump_sp (SpKeeps.foldl (fun _ _ hv => send_sp hv _ (covers_own j) (by decide)) (SpKeeps.rfl_ s) _) j o (covers_own j) (by decide)) j
    (covers_own j) (by decide)

theorem closeOpEarly_own (h : getSp s j = some x) (o : OpCtx) (c : Closure) :
    ∃ z, getSp (closeOpEarly s j o c) j = some (shutCtx z o.uid (closedOp j c s.time.tick)) ∧ SpRel (some j) partingFields x z := by
  obtain ⟨z, hz, r⟩ := (partingWork_sp s j o c).getSp_some h
  exact ⟨z, by rw [closeOpEarly_eq]; exact getSp_updSp_some hz _ fun _ => rfl, r⟩

theorem closeOpEarly_ops (h : getSp s j = some x) (o : OpCtx) (c : Closure) :
    ∃ y, getSp (closeOpEarly s j o c) j = some y ∧ y.ops = shutOps x.ops o.uid (closedOp j c s.time.tick) := by
  obtain ⟨z, hz, r⟩ := closeOpEarly_own h o c
  exact ⟨_, hz, by rw [shutCtx_ops, r.same .ops (by decide)]⟩

end

/-- A step that closes the operations of a number. -/
def Shuts (F : State → OpCtx → State) (j : Nat) (c : Closure) : Prop :=
  ∀ u o x, getSp u j = some x → ∃ y tick, getSp (F u o) j = some y ∧ y.ops = shutOps x.ops o.uid (closedOp j c tick)

/-- After a run of such steps no operation of their numbers is open, and each that was there is as it was, or closed. -/
theorem Shuts.foldl {F : State → OpCtx → State} {j : Nat} {c : Closure} (hF : Shuts F j c) (l : List OpCtx) {s : State} {x : Spire} (h : getSp s j = some x) :
    ∃ y, getSp (l.foldl F s) j = some y ∧ (∀ o ∈ y.ops, o.closed = false → o ∈ x.ops ∧ ∀ k ∈ l, k.uid ≠ o.uid) ∧
      ∀ o ∈ x.ops, ∃ o' ∈ y.ops, (o' = o ∨ ClosedBy c o o') ∧ ((∃ k ∈ l, k.uid = o.uid) → ClosedBy c o o') := by
  induction l generalizing s x with
  | nil => exact ⟨x, h, fun o ho _ => ⟨ho, fun _ hk => (List.not_mem_nil hk).elim⟩, fun o ho => ⟨o, ho, .inl rfl, fun ⟨_, hk, _⟩ => (List.not_mem_nil hk).elim⟩⟩
  | cons k l ih =>
    obtain ⟨z, tick, hz, ops⟩ := hF s k x h
    obtain ⟨y, hy, left, kept⟩ := ih hz
    refine ⟨y, hy, fun o ho open_ => ?_, fun o ho => ?_⟩
    · obtain ⟨hm, hl⟩ := left o ho open_
      rw [ops] at hm
      obtain ⟨hm, hne⟩ | ⟨w, -, -, rfl⟩ := of_mem_shutOps hm
      · exact ⟨hm, List.forall_mem_cons.2 ⟨Ne.symm hne, hl⟩⟩
      · cases open_
    · by_cases hu : o.uid = k.uid
      · have first := closedBy_closedOp j c tick o
        obtain ⟨o', ho', was, -⟩ := kept _ (by rw [ops]; exact mem_shutOps_own ho hu)
        have whole : ClosedBy c o o' := was.elim (fun e => e ▸ first) first.again
        exact ⟨o', ho', .inr whole, fun _ => whole⟩
      · obtain ⟨o', ho', was, now⟩ := kept o (by rw [ops]; exact mem_shutOps_other ho hu)
        refine ⟨o', ho', was, fun ⟨w, hw, hwu⟩ => now ?_⟩
        obtain rfl | hw := List.mem_cons.1 hw
        · exact absurd hwu.symm hu
        · exact ⟨w, hw, hwu⟩

/-- All operations of a Spire close with one cause: none stays open. -/
theorem closeAll_own {s : State} {j : Nat} {x : Spire} (h : getSp s j = some x) (c : Closure) :
    ∃ y, getSp (closeAll s j c) j = some y ∧ (∀ o ∈ y.ops, o.closed = true) ∧ ∀ o ∈ x.ops, o.closed = false → ∃ o' ∈ y.ops, ClosedBy c o o' := by
  have shuts : Shuts (fun s o => closeOpEarly s j o c) j c := fun u o z hz => by
    obtain ⟨y, hy, ops⟩ := closeOpEarly_ops hz o c
    exact ⟨y, _, hy, ops⟩
  obtain ⟨y, hy, left, kept⟩ := shuts.foldl (openOps x) h
  have listed {o : OpCtx} (ho : o ∈ x.ops) (open_ : o.closed = false) : o ∈ openOps x := List.mem_filter.2 ⟨ho, by rw [open_]; rfl⟩
  refine ⟨y, by rw [closeAll, onSp_some h]; exact hy, fun o ho => ?_, fun o ho open_ => ?_⟩
  · by_contra hne
    obtain ⟨hm, hl⟩ := left o ho (Bool.eq_false_of_not_eq_true hne)
    exact hl o (listed hm (Bool.eq_false_of_not_eq_true hne)) rfl
  · obtain ⟨o', ho', -, now⟩ := kept o ho
    exact ⟨o', ho', now ⟨o, listed ho open_, rfl⟩⟩

end Sys2Proof.Machine
end

section
/-! The reset handshake of a tap (R72, R435, R461). -/

set_option Elab.async false

namespace Sys2Proof.Machine

/-- A tile whose reset handshake ends, at a Spire that holds its acknowledge, with a TEST_OFF that waits for it (R72, R435). -/
def testOffWaits : State :=
  { State.reset with
    boot := { State.reset.boot with step := 6 }
    spires := [{ bareSpire 0 with lv := { (bareSpire 0).lv with rstReq := false, rstAck := true } }]
    tiles := [{ freshTile State.reset ⟨0, 0, 0, false⟩ with offDue := true }]
    domes := [freshDome 0] }

/-- Refutes O16: the TEST_OFF that waited for TT_READY is a frame, whose flit is counted in the bytes of its Dome toward the Spires (R461), so
that the Spires, the tiles and Caravan are not all that changes. -/
theorem not_computeResetAndHandshake : ¬ Obligations.ComputeResetAndHandshake := by
  unfold Obligations.ComputeResetAndHandshake
  rintro ⟨⟨-, -, -, ready⟩, -⟩
  obtain ⟨t, sp', y, hexec, -, -, -, -, -, -, -, -, -, frame⟩ := ready testOffWaits 0 _ _ rfl rfl rfl rfl
  have counted : (t.domes.map fun d => d.big.getD 1 0) = [16] := by
    obtain rfl := Host.Outcome.next.inj hexec
    rfl
  have still : (t.domes.map fun d => d.big.getD 1 0) = [0] := by
    rw [frame]
    rfl
  exact absurd (counted.symm.trans still) (by decide)

end Sys2Proof.Machine
end

section
/-! Reports and re-issues of fence frames (R229, R231, R233, R362). -/

set_option Elab.async false

namespace Sys2Proof.Machine

/-! ### FENCE_DONE: a frame is reported (R229, R231, R362) -/

section
variable {s : State} {j : Nat} {x : Tile} {q : Byte} {m : DoneMsg} {f : OutFrame}

theorem exec_fenceDone_cutOff (q : Byte) (h : cutOff s j = true) : exec (.fenceDone j q) s = .next s := congrArg Host.Outcome.next (if_pos h)

/-- The report arrives: it leaves the Wadi lane. -/
def reported (s : State) (j : Nat) (m : DoneMsg) : State := holdCredits { s with caravan := { s.caravan with done := s.caravan.done.erase m } } j clWadi

theorem exec_fenceDone (hc : cutOff s j = false) (hm : s.caravan.done.find? (fun m => m.spire == j && m.fseq == q) = some m) :
    exec (.fenceDone j q) s = .next (frameDone (reported s j m) m) := by
  change execFenceDone j q s = _
  rw [execFenceDone, hc]
  exact congrArg Host.Outcome.next ((if_neg Bool.false_ne_true).trans (by rw [hm]; rfl))

theorem reported_of (hm : s.caravan.done.find? (fun m => m.spire == j && m.fseq == q) = some m) : m.spire = j ∧ m.fseq = q := by
  obtain ⟨a, b⟩ := (Bool.and_eq_true_iff.1 (List.find?_some hm :))
  exact ⟨beq_iff_eq.1 a, beq_iff_eq.1 b⟩

theorem frameDone_superseded (hx : getTile s m.spire = some x) (hf : x.superseded.find? (fun f => fSeq f.frame == m.fseq) = some f) :
    frameDone s m = completeFrame (updTile s m.spire fun t => { t with superseded := t.superseded.filter fun g => fSeq g.frame != m.fseq }) m f := by
  rw [frameDone, onTile_some hx, hf]

theorem frameDone_out (hx : getTile s m.spire = some x) (hn : x.superseded.find? (fun f => fSeq f.frame == m.fseq) = none) (ho : x.out = some f)
    (hf : fSeq f.frame = m.fseq) : frameDone s m = outDone s m x f := by
  rw [frameDone, onTile_some hx, hn, ho]
  exact if_neg (not_not.2 hf)

theorem completeFrame_same (s : State) (m : DoneMsg) (f : OutFrame) :
    Same [.alert, .cmd, .cmds, .cistern, .parts, .records, .early, .near] s (completeFrame s m f) := (completeFrame_keeps m f (Keeps.rfl_ _ s) (List.Subset.refl _)).same

theorem recordUnsent_same (s : State) (j : Nat) (l : List OutFrame) :
    Same [.alert, .cmd, .cmds, .cistern, .parts, .records, .early, .near] s (recordUnsent s j l) := (recordUnsent_keeps j l (Keeps.rfl_ _ s) (List.Subset.refl _)).same

/-- The frame that the last report takes out, and the frames that a DEAD frame outran, are done with. -/
def frameTaken (x : Tile) : Tile := { x with out := none, next := x.next.drop 1 }

theorem outDone_effect (hx : getTile s m.spire = some x) (hn : x.next = []) (f : OutFrame) :
    getTile (outDone s m x f) m.spire = some { x with out := none, superseded := if f.op = opDead then [] else x.superseded } ∧
    (∀ i, i ≠ m.spire → getTile (outDone s m x f) i = getTile s i) ∧ (outDone s m x f).caravan = s.caravan := by
  have taken : getTile (updTile s m.spire frameTaken) m.spire = some (frameTaken x) := getTile_updTile_some hx _ fun _ => rfl
  have same := completeFrame_same (updTile s m.spire frameTaken) m f
  have run : outDone s m x f =
      if f.op = opDead then updTile (recordUnsent (completeFrame (updTile s m.spire frameTaken) m f) m.spire x.superseded) m.spire fun t => { t with superseded := [] }
      else completeFrame (updTile s m.spire frameTaken) m f := by
    rw [outDone, hn]
    rfl
  have next : { frameTaken x with superseded := x.superseded } = { x with out := none } := by rw [frameTaken, hn]; rfl
  rw [run]
  split
  · have whole := same.trans (recordUnsent_same _ m.spire x.superseded)
    generalize recordUnsent _ m.spire x.superseded = v at whole ⊢
    refine ⟨?_, fun i hi => ?_, whole .caravan (by decide)⟩
    · have left := getTile_updTile_some ((getTile_of_tiles (whole .tiles (by decide)) _).trans taken) (fun t => { t with superseded := [] }) fun _ => rfl
      exact left.trans (congrArg (fun y : Tile => some { y with superseded := [] }) next)
    · exact ((getTile_updTile_ne _ _ (fun _ => by rfl) hi).trans (getTile_of_tiles (whole .tiles (by decide)) i)).trans (getTile_updTile_ne _ frameTaken (fun _ => rfl) hi)
  · generalize completeFrame _ m f = v at same ⊢
    exact ⟨((getTile_of_tiles (same .tiles (by decide)) _).trans taken).trans (congrArg some next),
      fun i hi => (getTile_of_tiles (same .tiles (by decide)) i).trans (getTile_updTile_ne _ frameTaken (fun _ => rfl) hi), same .caravan (by decide)⟩

theorem fenceDone_out (hc : cutOff s j = false) (hm : s.caravan.done.find? (fun m => m.spire == j && m.fseq == q) = some m) (hx : getTile s j = some x)
    (ho : x.out = some f) (hf : fSeq f.frame = q) (hn : ∀ g ∈ x.superseded, fSeq g.frame ≠ q) (hnext : x.next = []) :
    ∃ t, exec (.fenceDone j q) s = .next t ∧ getTile t j = some { x with out := none, superseded := if f.op = opDead then [] else x.superseded } ∧
      t.caravan.done = s.caravan.done.erase m ∧ (∀ i, i ≠ j → getTile t i = getTile s i) ∧ t.spires = s.spires ∧ t.cistern.data = s.cistern.data := by
  obtain ⟨t, run, keeps⟩ := execFenceDone_keeps j q (Keeps.rfl_ _ s) (List.Subset.refl _)
  have closed := exec_fenceDone hc hm
  obtain rfl := Host.Outcome.next.inj (closed.symm.trans run)
  obtain ⟨rfl, rfl⟩ := reported_of hm
  have none_ : x.superseded.find? (fun f => fSeq f.frame == m.fseq) = none := List.find?_eq_none.2 fun g hg e => hn g hg (beq_iff_eq.1 e)
  have hx' : getTile (reported s m.spire m) m.spire = some x := hx
  have done := frameDone_out hx' none_ ho hf
  obtain ⟨own, other, car⟩ := outDone_effect hx' hnext f
  rw [done] at keeps closed
  exact ⟨_, closed, own, by rw [car]; rfl, other, keeps.same .spires (by decide), keeps.same.bytes_eq.1⟩

theorem fenceDone_superseded (hc : cutOff s j = false) (hm : s.caravan.done.find? (fun m => m.spire == j && m.fseq == q) = some m) (hx : getTile s j = some x)
    (hg : ∃ g ∈ x.superseded, fSeq g.frame = q) :
    ∃ t, exec (.fenceDone j q) s = .next t ∧ getTile t j = some { x with superseded := x.superseded.filter fun g => fSeq g.frame != q } ∧
      t.caravan.done = s.caravan.done.erase m ∧ (∀ i, i ≠ j → getTile t i = getTile s i) ∧ t.spires = s.spires ∧ t.cistern.data = s.cistern.data := by
  obtain ⟨t, run, keeps⟩ := execFenceDone_keeps j q (Keeps.rfl_ _ s) (List.Subset.refl _)
  have closed := exec_fenceDone hc hm
  obtain rfl := Host.Outcome.next.inj (closed.symm.trans run)
  obtain ⟨rfl, rfl⟩ := reported_of hm
  obtain ⟨g, hg, e⟩ := hg
  obtain ⟨f, hf⟩ := Option.isSome_iff_exists.1 (List.find?_isSome.2 ⟨g, hg, beq_iff_eq.2 e⟩ : (x.superseded.find? fun f => fSeq f.frame == m.fseq).isSome = true)
  have hx' : getTile (reported s m.spire m) m.spire = some x := hx
  have done := frameDone_superseded hx' hf
  rw [done] at keeps closed
  have left := getTile_updTile_some hx' (fun t => { t with superseded := t.superseded.filter fun g => fSeq g.frame != m.fseq }) fun _ => rfl
  have others := fun i (hi : i ≠ m.spire) => getTile_updTile_ne (reported s m.spire m)
    (fun t => { t with superseded := t.superseded.filter fun g => fSeq g.frame != m.fseq }) (fun _ => rfl) hi
  have car : (updTile (reported s m.spire m) m.spire fun t => { t with superseded := t.superseded.filter fun g => fSeq g.frame != m.fseq }).caravan.done =
    s.caravan.done.erase m := rfl
  generalize updTile (reported s m.spire m) m.spire _ = u at *
  have same := completeFrame_same u m f
  exact ⟨_, closed, (getTile_of_tiles (same .tiles (by decide)) _).trans left, by rw [same .caravan (by decide)]; exact car,
    fun i hi => (getTile_of_tiles (same .tiles (by decide)) i).trans (others i hi), keeps.same .spires (by decide), keeps.same.bytes_eq.1⟩

/-! ### FENCE_REISSUE (R233) -/

theorem fenceReissue_again (hx : getTile s j = some x) (ho : x.out = some f) (hr : f.reissues < 3) :
    ∃ t, exec (.fenceReissue j) s = .next t ∧ getTile t j = some { x with out := some { f with reissues := f.reissues + 1, issued := s.time.tick } } ∧
      t.caravan.frames = s.caravan.frames ++ [(j, f.frame)] ∧ t = { s with tiles := t.tiles, caravan := t.caravan } := by
  have closed : exec (.fenceReissue j) s = .next { updTile s j fun t => { t with out := some { f with reissues := f.reissues + 1, issued := s.time.tick } } with
      caravan := { s.caravan with frames := s.caravan.frames ++ [(j, f.frame)] } } := by
    refine congrArg Host.Outcome.next ((onTile_some hx _).trans ?_)
    rw [ho]
    exact if_pos hr
  exact ⟨_, closed, getTile_updTile_some hx (fun t => { t with out := some { f with reissues := f.reissues + 1, issued := s.time.tick } }) fun _ => rfl, rfl, rfl⟩

/-- The state `s` with what the records and the commands of frames that are given up change, taken from `t`. -/
def unsentChanged (s t : State) : State :=
  { s with
    keep := { s.keep with alert := t.keep.alert, cmd := t.keep.cmd }, belfry := { s.belfry with cmds := t.belfry.cmds }
    records := t.records, near := t.near, parts := t.parts, cistern := { s.cistern with recDrop := t.cistern.recDrop } }

theorem unsentChanged_trans {s t u : State} (h : t = unsentChanged s t) (g : u = unsentChanged t u) : u = unsentChanged s u := by
  have : unsentChanged (unsentChanged s t) u = unsentChanged s u := rfl
  rw [← h] at this
  exact g.trans this

theorem addRec_unsent (h : 3 < s.boot.step) (r : Rec) : addRec s r = unsentChanged s (addRec s r) := by
  rw [addRec, if_neg (Nat.not_le.2 h)]
  split
  · rfl
  · dsimp only
    split <;> rfl

theorem cmdFinish_unsent (s : State) (i result cause : Nat) : cmdFinish s i result cause = unsentChanged s (cmdFinish s i result cause) := by
  unfold cmdFinish
  dsimp only
  split
  · rfl
  · split <;> rfl

theorem frameRec_unsent (h : 3 < s.boot.step) (j : Nat) (f : OutFrame) (b : Byte) (lat : Nat) : frameRec s j f b lat = unsentChanged s (frameRec s j f b lat) := by
  unfold frameRec
  split
  · rfl
  · exact addRec_unsent h _

/-- One frame that is given up: its record and the end of its command. -/
def unsent (j : Nat) (s : State) (f : OutFrame) : State :=
  match f.inst with
  | some i => cmdFinish (frameRec s j f (fSeq f.frame) 0) i crRefused ccDead
  | none => frameRec s j f (fSeq f.frame) 0

theorem recordUnsent_eq (s : State) (j : Nat) (l : List OutFrame) : recordUnsent s j l = l.foldl (unsent j) s := rfl

theorem recordUnsent_unsent (h : 3 < s.boot.step) (j : Nat) (l : List OutFrame) : recordUnsent s j l = unsentChanged s (recordUnsent s j l) := by
  rw [recordUnsent_eq]
  refine List.foldlRecOn (motive := fun v => v = unsentChanged s v) l _ rfl fun v hv f _ => ?_
  have late : 3 < v.boot.step := by rw [hv]; exact h
  have recd := frameRec_unsent late j f (fSeq f.frame) 0
  unfold unsent
  split
  · exact unsentChanged_trans hv (unsentChanged_trans recd (cmdFinish_unsent _ _ _ _))
  · exact unsentChanged_trans hv recd

/-- The record of a frame that is given up alone, where the quota has room for it (R386). -/
theorem mem_recordUnsent (h : 3 < s.boot.step) (hn : f.op ≠ opTestOn) (hf : f.op ≠ opTestOff) (hq : quotaOk s (partOfSp s j) lvRec = true)
    (hs : inSafe s uCis = false) : ∃ r ∈ (recordUnsent s j [f]).records, r.kind = .tstate ∧ r.tick = s.time.tick ∧ r.spire = j ∧ r.part = partOfSp s j := by
  have written : frameRec s j f (fSeq f.frame) 0 = addRec s (tstateRec s j f.old f.new f.cause f.peal f.cls (fSeq f.frame) f.vtick 0) :=
    if_neg (not_or.2 ⟨hn, hf⟩)
  have mem (r : Rec) (hr : r.part = partOfSp s j) : r ∈ (addRec s r).records := by
    rw [addRec, if_neg (Nat.not_le.2 h), if_pos (by rw [hr, hq, hs]; rfl)]
    exact List.mem_append_right _ (List.mem_singleton_self r)
  refine ⟨tstateRec s j f.old f.new f.cause f.peal f.cls (fSeq f.frame) f.vtick 0, ?_, rfl, rfl, rfl, rfl⟩
  change _ ∈ (unsent j s f).records
  unfold unsent
  rw [written]
  split
  · rw [(cmdFinish_keeps _ _ _ (Keeps.rfl_ _ _) (List.Subset.refl _)).same .records (by decide)]
    exact mem _ rfl
  · exact mem _ rfl

/-- The frame that is out after its third re-issue is given up. -/
def framesLost (s : State) (j : Nat) (x : Tile) (f : OutFrame) : State :=
  alert (updTile (recordUnsent s j (x.superseded ++ [f])) j fun t => { t with out := none, superseded := [] }) alFence

theorem exec_fenceReissue_lost (hx : getTile s j = some x) (ho : x.out = some f) (hr : 3 ≤ f.reissues) :
    exec (.fenceReissue j) s = .next (if x.state = stDead then framesLost s j x f else tileInput (framesLost s j x f) 0x12 j 0) := by
  refine congrArg Host.Outcome.next ((onTile_some hx _).trans ?_)
  rw [ho]
  exact if_neg (Nat.not_lt.2 hr)

theorem getTile_framesLost (hx : getTile s j = some x) (f : OutFrame) : getTile (framesLost s j x f) j = some { x with out := none, superseded := [] } :=
  getTile_updTile_some ((getTile_of_tiles (recordUnsent_same s j (x.superseded ++ [f]) .tiles (by decide)) _).trans hx)
    (fun t => { t with out := none, superseded := [] }) fun _ => rfl

/-- The frame of the last stage, with the tile's input. -/
def reissueChanged (s t : State) : State :=
  { s with
    tiles := t.tiles, keep := { s.keep with alert := t.keep.alert, cmd := t.keep.cmd }
    belfry := { s.belfry with inputs := t.belfry.inputs, cmds := t.belfry.cmds }
    records := t.records, near := t.near, parts := t.parts, cistern := { s.cistern with recDrop := t.cistern.recDrop } }

theorem framesLost_frame (h : 3 < s.boot.step) (j : Nat) (x : Tile) (f : OutFrame) : framesLost s j x f = reissueChanged s (framesLost s j x f) := by
  have frame := recordUnsent_unsent h j (x.superseded ++ [f])
  unfold framesLost
  generalize recordUnsent s j _ = u at frame ⊢
  rw [frame]
  rfl

theorem addInput_reissue {t : State} (h : t = reissueChanged s t) (i : Input) : addInput t i = reissueChanged s (addInput t i) := by
  have entered (l : List Input) : { t with belfry := { t.belfry with inputs := l } } = reissueChanged s { t with belfry := { t.belfry with inputs := l } } :=
    congrArg (fun t : State => { t with belfry := { t.belfry with inputs := l } }) h
  unfold addInput
  split
  · split
    · exact h
    · exact entered _
  · exact h

theorem fenceReissue_lost (hx : getTile s j = some x) (ho : x.out = some f) (hr : 3 ≤ f.reissues) (h5 : s.boot.step ≥ 5) :
    ∃ t, exec (.fenceReissue j) s = .next t ∧ getTile t j = some { x with out := none, superseded := [] } ∧ t.keep.alert.getLsbD alFence = true ∧
      (x.superseded = [] → f.op ≠ opTestOn → f.op ≠ opTestOff → quotaOk s (partOfSp s j) lvRec = true → inSafe s uCis = false →
        ∃ r ∈ t.records, r.kind = .tstate ∧ r.tick = s.time.tick ∧ r.spire = j ∧ r.part = partOfSp s j) ∧
      (s.belfry.run = true → x.state ≠ stDead → ∃ i ∈ t.belfry.inputs, i.code = 0x12 ∧ i.spire = j) ∧ t = reissueChanged s t := by
  have late : 3 < s.boot.step := by omega
  have closed := exec_fenceReissue_lost hx ho hr
  have tile := getTile_framesLost hx f
  have frame := framesLost_frame late j x f
  have recd : x.superseded = [] → f.op ≠ opTestOn → f.op ≠ opTestOff → quotaOk s (partOfSp s j) lvRec = true → inSafe s uCis = false →
      ∃ r ∈ (framesLost s j x f).records, r.kind = .tstate ∧ r.tick = s.time.tick ∧ r.spire = j ∧ r.part = partOfSp s j := fun e hn hf hq hs => by
    obtain ⟨r, hr, kind⟩ := mem_recordUnsent late hn hf hq hs
    refine ⟨r, ?_, kind⟩
    rw [framesLost, e]
    exact hr
  have alerted : (framesLost s j x f).keep.alert.getLsbD alFence = true := alert_getLsbD _ (by decide)
  generalize framesLost s j x f = u at *
  by_cases hd : x.state = stDead
  · rw [if_pos hd] at closed
    exact ⟨u, closed, tile, alerted, recd, fun _ hno => absurd hd hno, frame⟩
  · rw [if_neg hd] at closed
    have same := tileInput_same u 0x12 j 0
    have run : s.belfry.run = true → u.belfry.run = true := fun h => by rw [frame]; exact h
    refine ⟨_, closed, (getTile_of_tiles (same .tiles (by decide)) _).trans tile, ?_, fun e hn hf hq hs => ?_, fun h _ => ?_, addInput_reissue frame _⟩
    · rw [same .alert (by decide)]
      exact alerted
    · rw [same .records (by decide)]
      exact recd e hn hf hq hs
    · exact ⟨_, mem_tileInput (run h) 0x12 j 0, rfl, rfl⟩

end

end Sys2Proof.Machine
end

section
/-! Polls of a Dome, and fence frames to their end (R229, R231, R233, R234). -/

set_option Elab.async false

namespace Sys2Proof.Machine

/-! ### Polls of a Dome (R234) -/

section
variable {s : State} {missed : List Nat}

theorem pollSpire_same (missed : List Nat) (s : State) (t : Tile) : Same [.inputs, .tiles] s (pollSpire missed s t) :=
  (pollSpire_keeps missed t (Keeps.rfl_ _ s) (List.Subset.refl _)).same

theorem pollSpire_tl (missed : List Nat) (s : State) (t : Tile) : TlKeeps (some t.ix) [.missed, .lost] s (pollSpire missed s t) := by
  have whole := TlKeeps.rfl_ (i := some t.ix) (m := [.missed, .lost]) s
  unfold pollSpire
  split
  · exact whole
  · split
    · exact whole.updTile t.ix (fun t => { t with missed := 0 }) [.missed] (fun _ => rfl) (covers_own _) (by decide)
    · split
      · exact whole.updTile t.ix (fun t => { t with missed := t.missed + 1 }) [.missed] (fun _ => rfl) (covers_own _) (by decide)
      · exact (whole.updTile t.ix (fun t => { t with missed := 3, lost := true }) [.missed, .lost] (fun _ => rfl) (covers_own _) (by decide)).of_same
          (tileInput_same _ 0x13 t.ix 0)

/-- Inputs stay, and are the Belfry's only change. -/
theorem addInput_inputs (s : State) (i : Input) : (∀ x ∈ s.belfry.inputs, x ∈ (addInput s i).belfry.inputs) ∧
    addInput s i = { s with belfry := { s.belfry with inputs := (addInput s i).belfry.inputs } } := by
  unfold addInput
  split
  · split
    · exact ⟨fun _ hx => hx, rfl⟩
    · exact ⟨fun _ hx => List.mem_append_left _ hx, rfl⟩
  · exact ⟨fun _ hx => hx, rfl⟩

theorem pollSpire_inputs (missed : List Nat) (s : State) (t : Tile) : ∀ x ∈ s.belfry.inputs, x ∈ (pollSpire missed s t).belfry.inputs := by
  unfold pollSpire
  split
  · exact fun _ hx => hx
  · split
    · exact fun _ hx => hx
    · split
      · exact fun _ hx => hx
      · exact (addInput_inputs (updTile s t.ix fun t => { t with missed := 3, lost := true }) _).1

theorem foldl_pollSpire_inputs (missed : List Nat) (l : List Tile) (s : State) : ∀ x ∈ s.belfry.inputs, x ∈ (l.foldl (pollSpire missed) s).belfry.inputs := fun x hx =>
  List.foldlRecOn (motive := fun v => x ∈ v.belfry.inputs) l _ hx fun v hv t _ => pollSpire_inputs missed v t x hv

theorem foldl_pollSpire_same (missed : List Nat) (l : List Tile) (s : State) : Same [.inputs, .tiles] s (l.foldl (pollSpire missed) s) :=
  List.foldlRecOn (motive := fun v => Same [.inputs, .tiles] s v) l _ (Same.rfl_ _ s) fun v hv t _ => hv.trans (pollSpire_same missed v t)

/-- The polls of other tiles leave a tile as it is. -/
theorem foldl_pollSpire_other (missed : List Nat) (l : List Tile) (s : State) {j : Nat} (hj : ∀ t ∈ l, j ≠ t.ix) :
    getTile (l.foldl (pollSpire missed) s) j = getTile s j :=
  List.foldlRecOn (motive := fun v => getTile v j = getTile s j) l _ rfl fun v hv t ht => ((pollSpire_tl missed v t).getTile_other (hj t ht)).trans hv

/-- What the poll of a tile that is not lost makes of it (R234). -/
theorem pollSpire_own {x : Tile} (hx : getTile s x.ix = some x) (hl : x.lost = false) :
    ∃ y, getTile (pollSpire missed s x) x.ix = some y ∧ (x.ix ∉ missed → y = { x with missed := 0 }) ∧
      (x.ix ∈ missed → x.missed + 1 < 3 → y = { x with missed := x.missed + 1 }) ∧
      (x.ix ∈ missed → 3 ≤ x.missed + 1 → y = { x with missed := 3, lost := true } ∧
        (s.belfry.run = true → ∃ i ∈ (pollSpire missed s x).belfry.inputs, i.code = 0x13 ∧ i.spire = x.ix)) := by
  have notLost : ¬ x.lost = true := Bool.not_eq_true _ ▸ hl
  by_cases hm : x.ix ∈ missed
  · have asked : ¬ (!missed.contains x.ix) = true := by rw [List.contains_iff_mem.2 hm]; exact Bool.false_ne_true
    by_cases hlt : x.missed + 1 < 3
    · have run : pollSpire missed s x = updTile s x.ix fun t => { t with missed := t.missed + 1 } := by
        rw [pollSpire, if_neg notLost, if_neg asked, if_pos hlt]
      rw [run]
      exact ⟨_, getTile_updTile_some hx (fun t => { t with missed := t.missed + 1 }) (fun _ => rfl), fun h => absurd hm h, fun _ _ => rfl,
        fun _ h => absurd hlt (Nat.not_lt.2 h)⟩
    · have run : pollSpire missed s x = tileInput (updTile s x.ix fun t => { t with missed := 3, lost := true }) 0x13 x.ix 0 := by
        rw [pollSpire, if_neg notLost, if_neg asked, if_neg hlt]
      have left := getTile_updTile_some hx (fun t => { t with missed := 3, lost := true }) fun _ => rfl
      rw [run]
      have on : s.belfry.run = true → (updTile s x.ix fun t => { t with missed := 3, lost := true }).belfry.run = true := fun h => h
      generalize (updTile s x.ix fun t => { t with missed := 3, lost := true }) = u at *
      exact ⟨_, (getTile_of_tiles (tileInput_same u 0x13 x.ix 0 .tiles (by decide)) _).trans left, fun h => absurd hm h, fun _ h => absurd h hlt,
        fun _ _ => ⟨rfl, fun h => ⟨_, mem_tileInput (on h) 0x13 x.ix 0, rfl, rfl⟩⟩⟩
  · have answered : (!missed.contains x.ix) = true := by
      rw [Bool.eq_false_of_not_eq_true fun h => hm (List.contains_iff_mem.1 h)]
      rfl
    have run : pollSpire missed s x = updTile s x.ix fun t => { t with missed := 0 } := by rw [pollSpire, if_neg notLost, if_pos answered]
    rw [run]
    exact ⟨_, getTile_updTile_some hx (fun t => { t with missed := 0 }) (fun _ => rfl), fun _ => rfl, fun h => absurd h hm, fun h => absurd h hm⟩

theorem domePoll_effect {dome : Nat} {x : Tile} (hnd : (s.tiles.map (·.ix)).Nodup) (hx : x ∈ s.tiles) (hd : x.ix / 256 = dome) (hl : x.lost = false) :
    ∃ t y, exec (.domePoll dome missed) s = .next t ∧ getTile t x.ix = some y ∧
      (x.ix ∉ missed → y = { x with missed := 0 }) ∧
      (x.ix ∈ missed → x.missed + 1 < 3 → y = { x with missed := x.missed + 1 }) ∧
      (x.ix ∈ missed → 3 ≤ x.missed + 1 → y = { x with missed := 3, lost := true } ∧
        (s.belfry.run = true → ∃ i ∈ t.belfry.inputs, i.code = 0x13 ∧ i.spire = x.ix)) ∧
      t = { s with tiles := t.tiles, belfry := t.belfry } := by
  have closed : exec (.domePoll dome missed) s = .next ((s.tiles.filter fun t => t.ix / 256 == dome).foldl (pollSpire missed) s) := rfl
  have nodup : ((s.tiles.filter fun t => t.ix / 256 == dome).map (·.ix)).Nodup := hnd.sublist (List.filter_sublist.map _)
  obtain ⟨l, r, split⟩ := List.append_of_mem (List.mem_filter.2 ⟨hx, beq_iff_eq.2 hd⟩ : x ∈ s.tiles.filter fun t => t.ix / 256 == dome)
  rw [split] at closed nodup
  rw [List.map_append, List.map_cons, List.nodup_append] at nodup
  obtain ⟨-, right, apart⟩ := nodup
  have before : ∀ t ∈ l, x.ix ≠ t.ix := fun t ht e => apart _ (List.mem_map_of_mem ht) _ (List.mem_cons_self ..) e.symm
  have after : ∀ t ∈ r, x.ix ≠ t.ix := fun t ht e => (List.nodup_cons.1 right).1 (e ▸ List.mem_map_of_mem ht)
  have frame := (foldl_pollSpire_same missed (l ++ x :: r) s).frame
  rw [List.foldl_append, List.foldl_cons] at closed frame
  have found : getTile (l.foldl (pollSpire missed) s) x.ix = some x := (foldl_pollSpire_other missed l s before).trans (getTile_mem hnd hx)
  have ran : s.belfry.run = true → (l.foldl (pollSpire missed) s).belfry.run = true := fun h =>
    (foldl_pollSpire_same missed l s .belfryRun (by decide) :).trans h
  generalize l.foldl (pollSpire missed) s = u at *
  obtain ⟨y, hy, answered, missed_, third⟩ := pollSpire_own (missed := missed) found hl
  refine ⟨_, y, closed, (foldl_pollSpire_other missed r _ after).trans hy, answered, missed_, fun hm h3 => ⟨(third hm h3).1, fun h => ?_⟩, frame⟩
  obtain ⟨i, hi, code⟩ := (third hm h3).2 (ran h)
  exact ⟨i, foldl_pollSpire_inputs missed r _ i hi, code⟩

end

/-- Settles O18: reports, re-issues and polls one by one. -/
theorem fenceCompletionAndPolls : Obligations.FenceCompletionAndPolls := by
  unfold Obligations.FenceCompletionAndPolls
  refine ⟨⟨?_, ?_, ?_, ?_, ?_⟩, ?_⟩
  · exact fun s j q h => exec_fenceDone_cutOff q h
  · exact fun s j q m x f hc hm hx ho hf hn hnext => fenceDone_out hc hm hx ho hf hn hnext
  · exact fun s j q m x hc hm hx hg => fenceDone_superseded hc hm hx hg
  · exact fun s j x f hx ho hr => fenceReissue_again hx ho hr
  · exact fun s j x f hx ho hr h5 => fenceReissue_lost hx ho hr h5
  · exact fun s d missed x hnd _ hx hd hl => domePoll_effect hnd hx hd hl

end Sys2Proof.Machine
end

section
/-! The arrival of fence frames at their Spire (R224, R229 to R231, R364). -/

set_option Elab.async false

namespace Sys2Proof.Machine

/-! ### Fence frames at their Spire (R224, R229, R230, R231, R235, R237, R364) -/

section
variable {s u : State} {j : Nat} {sp : Spire} {x : Tile} {f w : W32} {side : SideCopies} {op : Nat}

/-- The Caravan bit of KEEP_ALERT is set where no two copies of a crossing agree. -/
theorem countSide_alert (side : SideCopies) (s : State) : (countSide s side).keep.alert =
    if side.any fun p => p.1 != p.2.1 && p.2.1 != p.2.2 && p.1 != p.2.2 then s.keep.alert ||| BitVec.ofNat 12 (2 ^ alCaravan) else s.keep.alert := by
  unfold countSide
  induction side generalizing s with
  | nil => rfl
  | cons p side ih =>
    have crossed : (countCrossing s p).keep.alert =
        if (p.1 != p.2.1 && p.2.1 != p.2.2 && p.1 != p.2.2) = true then s.keep.alert ||| BitVec.ofNat 12 (2 ^ alCaravan) else s.keep.alert := by
      have cond : (p.1 != p.2.1 && p.2.1 != p.2.2 && p.1 != p.2.2) = true ↔ p.1 ≠ p.2.1 ∧ p.2.1 ≠ p.2.2 ∧ p.1 ≠ p.2.2 := by
        rw [Bool.and_eq_true, Bool.and_eq_true, bne_iff_ne, bne_iff_ne, bne_iff_ne, and_assoc]
      unfold countCrossing
      by_cases same : p.1 = p.2.1 ∧ p.2.1 = p.2.2
      · rw [if_pos same, if_neg fun h => (cond.1 h).1 same.1]
      · rw [if_neg same]
        dsimp only
        by_cases h : p.1 ≠ p.2.1 ∧ p.2.1 ≠ p.2.2 ∧ p.1 ≠ p.2.2
        · rw [if_pos h, if_pos (cond.2 h)]
          rfl
        · rw [if_neg h, if_neg fun e => h (cond.1 e)]
    rw [List.foldl_cons, ih, crossed, List.any_cons]
    cases p.1 != p.2.1 && p.2.1 != p.2.2 && p.1 != p.2.2 with
    | false => rw [Bool.false_or, if_neg Bool.false_ne_true]
    | true =>
      rw [Bool.true_or, if_pos rfl, BitVec.or_assoc, BitVec.or_self]
      split <;> rfl

theorem tryBegin_wrap {i : Option Nat} {m : List SpFld} (h : SpKeeps i m s u) (j : Nat) (hj : Covers i j) (hm : [.wrap, .gen] ⊆ m) :
    SpKeeps i m s (tryBegin u j) := by
  unfold tryBegin
  split
  · split
    · split
      · exact h
      · exact updWrap_sp (h.of_eq (by rfl)) j _ _ hj hm
    · exact h
  · exact h

/-- The fields of a Spire that a frame's arrival changes beside what the frame means. -/
def arrivalFields : List SpFld := [.cnt, .trc, .big, .wrap, .gen, .viol]

theorem report_sp {i : Option Nat} {m : List SpFld} (h : SpKeeps i m s u) (j : Nat) (q : Byte) (hj : Covers i j) (hm : [.big] ⊆ m) : SpKeeps i m s (report u j q) := by
  have told : SpKeeps i m s { u with caravan := { u.caravan with done := u.caravan.done ++ [⟨j, q, u.time.tick⟩] } } := h.of_eq rfl
  exact (uplink_sp told j flitBytes hj hm).of_eq rfl

theorem report_caravan (s : State) (j : Nat) (q : Byte) : (report s j q).caravan =
    { s.caravan with done := s.caravan.done ++ [⟨j, q, s.time.tick⟩], held := (report s j q).caravan.held } := by
  have sent : (uplink { s with caravan := { s.caravan with done := s.caravan.done ++ [⟨j, q, s.time.tick⟩] } } j flitBytes).caravan =
      { s.caravan with done := s.caravan.done ++ [⟨j, q, s.time.tick⟩] } := by
    unfold uplink addBigSp
    split <;> rfl
  have held := congrArg (fun c : Caravan => { c with held := (report s j q).caravan.held }) sent
  exact held

/-- What the arrival of a frame leads to at the Spire and in the Keep. -/
def frameFollows (s : State) (j op : Nat) : State :=
  if op = opFence then firstFence (traceLevels s j) j else if op = opTestOn then tryBegin (traceLevels s j) j else traceLevels s j

theorem frameFollows_sp (s : State) (j op : Nat) : SpKeeps (some j) arrivalFields s (frameFollows s j op) := by
  have traced := traceLevels_sp (SpKeeps.rfl_ (i := some j) (m := arrivalFields) s) j (covers_own j) (by decide)
  unfold frameFollows
  split
  · exact traced.of_same (firstFence_keeps j (Keeps.rfl_ _ _) (List.Subset.refl _)).same
  · split
    · exact tryBegin_wrap traced j (covers_own j) (by decide)
    · exact traced

theorem frameFollows_same (s : State) (j op : Nat) : Same [.parts, .hang, .tiles, .spires] s (frameFollows s j op) := by
  have traced : Same [.parts, .hang, .tiles, .spires] s (traceLevels s j) := (traceLevels_keeps j (Keeps.rfl_ _ s) (by decide)).same
  unfold frameFollows
  split
  · exact traced.trans (firstFence_keeps j (Keeps.rfl_ _ _) (by decide)).same
  · split
    · exact traced.trans (tryBegin_keeps j (Keeps.rfl_ _ _) (by decide)).same
    · exact traced

theorem watchRouter_sp (s : State) (j : Nat) (before : Bool) : SpKeeps (some j) arrivalFields s (watchRouter s j before) := by
  unfold watchRouter onSp
  split
  · dsimp only
    split
    · exact (tapViol_sp (SpKeeps.rfl_ s) .tapviol j none 0x52 0 0 (covers_own j) (by decide)).of_same (tileInput_same _ 0x11 j 0x52)
    · exact SpKeeps.rfl_ s
  · exact SpKeeps.rfl_ s

/-- A Spire as a good frame finds and leaves it. -/
def frameTakes (op : Nat) (q : Byte) (p : Spire) : Spire := actFrame op { p with fseq := q }

theorem wordArrives_good (hsp : getSp u j = some sp) (hx : getTile u j = some x) (hcrc : fCrcOk w = true) (hop : fOp w = op) (hloc : fLocal w = j % 256)
    (hl : x.lost = false ∨ op = opDead) (hseq : fSeq w ≠ sp.fseq) :
    wordArrives u j w op = watchRouter (report (frameFollows (updSp u j (frameTakes op (fSeq w))) j op) j (fSeq w)) j sp.lv.tonly := by
  refine (onSp_some hsp _).trans ((onTile_some hx _).trans ?_)
  have meant : ¬ (fOp w ≠ op ∨ fLocal w ≠ j % 256 ∨ (x.lost = true ∧ op ≠ opDead)) := by
    rintro (h | h | ⟨h, h'⟩)
    · exact h hop
    · exact h hloc
    · exact hl.elim (fun e => absurd h (e ▸ Bool.false_ne_true)) h'
  exact (if_neg (by rw [hcrc]; decide)).trans ((if_neg meant).trans (if_neg hseq))

theorem frameTakes_ix (op : Nat) (q : Byte) (p : Spire) : (frameTakes op q p).ix = p.ix := by
  have levels (st : Nat) (p : Spire) : (stateLevels st p).ix = p.ix := by
    unfold stateLevels
    split
    · rfl
    · split <;> rfl
  have mirror (st : Nat) (p : Spire) : (mirrorState st p).ix = p.ix := by
    unfold mirrorState
    dsimp only
    split <;> exact levels st _
  unfold frameTakes actFrame testOff
  dsimp only
  split
  · split
    · rfl
    · exact mirror _ _
  · rfl
  · split
    · exact mirror _ _
    · exact levels _ _
  · exact mirror _ _
  · split
    · rfl
    · exact mirror _ _
  · exact mirror _ _
  · rfl

/-- A good frame at its Spire: its meaning, the FSEQ and the report; no other Spire and no byte of the Cistern changes. -/
theorem frameArrives_good (hsp : getSp s j = some sp) (hx : getTile s j = some x) (hw : w = landed f side) (hcrc : fCrcOk w = true) (hop : fOp w = op)
    (hloc : fLocal w = j % 256) (hl : x.lost = false ∨ op = opDead) (hseq : fSeq w ≠ sp.fseq) :
    ∃ y, getSp (frameArrives s j f side op) j = some y ∧ SpRel (some j) arrivalFields (frameTakes op (fSeq w) sp) y ∧
      ⟨j, fSeq w, s.time.tick⟩ ∈ (frameArrives s j f side op).caravan.done ∧ (∀ i, i ≠ j → getSp (frameArrives s j f side op) i = getSp s i) ∧
      (frameArrives s j f side op).cistern.data = s.cistern.data := by
  have bytes := (frameArrives_keeps j f side op (Keeps.rfl_ _ s) (List.Subset.refl _)).same.bytes_eq.1
  have crossed := countSide_same s side
  have run : frameArrives s j f side op = wordArrives (countSide s side) j w op := by rw [frameArrives, hw]
  rw [run] at bytes ⊢
  have tick : (countSide s side).time.tick = s.time.tick := crossed .tick (by decide)
  have spires : (countSide s side).spires = s.spires := crossed .spires (by decide)
  have hsp' : getSp (countSide s side) j = some sp := (congrArg (List.find? _) spires).trans hsp
  rw [wordArrives_good hsp' ((getTile_of_tiles (crossed .tiles (by decide)) j).trans hx) hcrc hop hloc hl hseq] at bytes ⊢
  have others : ∀ i, i ≠ j → getSp (updSp (countSide s side) j (frameTakes op (fSeq w))) i = getSp s i := fun i hi =>
    (getSp_updSp_ne _ (frameTakes op (fSeq w)) (frameTakes_ix op _) hi).trans (congrArg (List.find? _) spires)
  have own := getSp_updSp_some hsp' (frameTakes op (fSeq w)) (frameTakes_ix op _)
  have tick' : (updSp (countSide s side) j (frameTakes op (fSeq w))).time.tick = s.time.tick := tick
  generalize updSp (countSide s side) j (frameTakes op (fSeq w)) = v at *
  have follows := frameFollows_sp v j op
  have ftick : (frameFollows v j op).time.tick = v.time.tick := frameFollows_same v j op .tick (by decide)
  generalize frameFollows v j op = r at *
  have told := report_sp follows j (fSeq w) (covers_own j) (by decide)
  have car := congrArg Caravan.done (report_caravan r j (fSeq w))
  generalize report r j (fSeq w) = r' at *
  have whole := told.trans (watchRouter_sp r' j sp.lv.tonly)
  have router : (watchRouter r' j sp.lv.tonly).caravan = r'.caravan := (watchRouter_keeps j sp.lv.tonly (Keeps.rfl_ _ r') (List.Subset.refl _)).same .caravan (by decide)
  obtain ⟨y, hy, rel⟩ := whole.getSp_some own
  refine ⟨y, hy, rel, ?_, fun i hi => (whole.getSp_other hi).trans (others i hi), bytes⟩
  rw [router, car, ftick, tick']
  exact List.mem_append_right _ (List.mem_singleton_self _)

end

end Sys2Proof.Machine
end

section
/-! Fence frames by their OP, and bad and repeated ones (R224, R230, R231, R235, R364). -/

set_option Elab.async false

namespace Sys2Proof.Machine

section
variable {s : State} {j : Nat} {sp : Spire} {x : Tile} {f w : W32} {side : SideCopies} {op : Nat} {c : Instr}

/-- The six frame commands with their OP. -/
theorem exec_frame (h : (op, c) ∈ [(opFence, .fenceFrame j f side), (opTestOn, .testOn j f side), (opTestOff, .testOff j f side), (opDead, .deadFrame j f side),
    (opRelease, .releaseFrame j f side), (opRetire, .retire j f side)]) : exec c s = .next (frameArrives s j f side op) := by
  simp only [List.mem_cons, List.not_mem_nil, or_false, Prod.mk.injEq] at h
  obtain ⟨rfl, rfl⟩ | ⟨rfl, rfl⟩ | ⟨rfl, rfl⟩ | ⟨rfl, rfl⟩ | ⟨rfl, rfl⟩ | ⟨rfl, rfl⟩ := h <;> rfl

/-- What every frame that is not dropped or repeated does, and its own meaning `P`. -/
theorem frame_did (P : Spire → Prop) (hrun : exec c s = .next (frameArrives s j f side op)) (hsp : getSp s j = some sp) (hx : getTile s j = some x) (hw : w = landed f side)
    (hcrc : fCrcOk w = true) (hop : fOp w = op) (hloc : fLocal w = j % 256) (hl : x.lost = false ∨ op = opDead) (hseq : fSeq w ≠ sp.fseq)
    (hP : ∀ y, SpRel (some j) arrivalFields (frameTakes op (fSeq w) sp) y → y.fseq = fSeq w ∧ P y) :
    ∃ t sp', exec c s = .next t ∧ getSp t j = some sp' ∧ sp'.fseq = fSeq w ∧ P sp' ∧ ⟨j, fSeq w, s.time.tick⟩ ∈ t.caravan.done ∧
      (∀ i, i ≠ j → getSp t i = getSp s i) ∧ t.cistern.data = s.cistern.data := by
  obtain ⟨y, hy, rel, done, others, bytes⟩ := frameArrives_good hsp hx hw hcrc hop hloc hl hseq
  exact ⟨_, y, hrun, hy, (hP y rel).1, (hP y rel).2, done, others, bytes⟩

/-- The levels of a Spire after a frame, with the acknowledge that falls with FENCE_COMPUTE. -/
def Leveled (sp p : Spire) (a b c : Bool) : Prop := p.lv.fc = a ∧ p.lv.ft = b ∧ p.lv.tonly = c ∧ p.lv.fack = (sp.lv.fack && a)

theorem leveled_of_lv {a b c : Bool} {p : Spire} (h : p.lv = { sp.lv with fc := a, ft := b, tonly := c, fack := sp.lv.fack && a }) : Leveled sp p a b c := by
  rw [Leveled, h]
  exact ⟨rfl, rfl, rfl, rfl⟩

/-- What a Spire shows of its state after a frame. -/
theorem arrival_shows {a y : Spire} (h : SpRel (some j) arrivalFields a y) :
    y.fseq = a.fseq ∧ y.tstate = a.tstate ∧ y.testing = a.testing ∧ y.pendFence = a.pendFence ∧ y.lv = a.lv :=
  ⟨h.same .fseq (by decide), h.same .tstate (by decide), h.same .testing (by decide), h.same .pendFence (by decide), h.same .lv (by decide)⟩

/-- The levels of a state (R224). -/
theorem stateLevels_lv (st : Nat) (p : Spire) :
    (st < stFenced → (stateLevels st p).lv = { p.lv with fc := false, ft := false, tonly := false, fack := p.lv.fack && false }) ∧
    (st = stFenced → (stateLevels st p).lv = { p.lv with fc := true, ft := false, tonly := true, fack := p.lv.fack && true }) ∧
    (stFenced < st → (stateLevels st p).lv = { p.lv with fc := true, ft := true, tonly := true, fack := p.lv.fack && true }) := by
  unfold stateLevels
  refine ⟨fun h => ?_, fun h => ?_, fun h => ?_⟩
  · rw [if_pos h]
    rfl
  · rw [if_neg (Nat.not_lt.2 (Nat.le_of_eq h.symm)), if_pos h]
    rfl
  · rw [if_neg (Nat.lt_asymm h), if_neg (Nat.ne_of_gt h)]
    rfl

/-- The frame commands of the sideband and the Wadi lane that a Spire takes (R224, R230, R235). -/
theorem frames_do (hsp : getSp s j = some sp) (hx : getTile s j = some x) (hw : w = landed f side) (hcrc : fCrcOk w = true) (hloc : fLocal w = j % 256)
    (hseq : fSeq w ≠ sp.fseq) :
    let did := fun (c : Instr) (P : Spire → Prop) => ∃ t sp', exec c s = .next t ∧ getSp t j = some sp' ∧ sp'.fseq = fSeq w ∧ P sp' ∧
      ⟨j, fSeq w, s.time.tick⟩ ∈ t.caravan.done ∧ (∀ i, i ≠ j → getSp t i = getSp s i) ∧ t.cistern.data = s.cistern.data
    let lvs := fun (p : Spire) (a b c : Bool) => p.lv.fc = a ∧ p.lv.ft = b ∧ p.lv.tonly = c ∧ p.lv.fack = (sp.lv.fack && a)
    (x.lost = false → fOp w = opFence → sp.testing = false → did (.fenceFrame j f side) fun p => p.tstate = stFenced ∧ lvs p true false true) ∧
    (x.lost = false → fOp w = opFence → sp.testing = true → did (.fenceFrame j f side) fun p =>
      p.tstate = stFenced ∧ p.pendFence = true ∧ p.lv = sp.lv) ∧
    (x.lost = false → fOp w = opTestOn → did (.testOn j f side) fun p => p.testing = true ∧ p.tstate = sp.tstate ∧ lvs p true true true) ∧
    (x.lost = false → fOp w = opTestOff → sp.pendFence = false → did (.testOff j f side) fun p => p.testing = false ∧
      p.tstate = sp.tstate ∧ (sp.tstate < stFenced → lvs p false false false) ∧ (sp.tstate = stFenced → lvs p true false true) ∧
      (stFenced < sp.tstate → lvs p true true true)) ∧
    (x.lost = false → fOp w = opTestOff → sp.pendFence = true → did (.testOff j f side) fun p => p.testing = false ∧
      p.pendFence = false ∧ p.tstate = stFenced ∧ lvs p true false true) ∧
    (fOp w = opDead → did (.deadFrame j f side) fun p => p.tstate = stDead ∧ p.testing = false ∧ lvs p true true true) ∧
    (x.lost = false → fOp w = opRelease → sp.testing = false → did (.releaseFrame j f side) fun p =>
      p.tstate = stWatch ∧ lvs p false false false) ∧
    (x.lost = false → fOp w = opRelease → sp.testing = true → did (.releaseFrame j f side) fun p =>
      p.tstate = stWatch ∧ p.testing = true ∧ p.pendFence = false ∧ p.lv = sp.lv) ∧
    (x.lost = false → fOp w = opRetire → did (.retire j f side) fun p => p.tstate = stRetired ∧ lvs p true true true) := by
  intro did lvs
  refine ⟨fun hl hop ht => ?_, fun hl hop ht => ?_, fun hl hop => ?_, fun hl hop hp => ?_, fun hl hop hp => ?_, fun hop => ?_, fun hl hop ht => ?_, fun hl hop ht => ?_,
    fun hl hop => ?_⟩
  · refine frame_did _ rfl hsp hx hw hcrc hop hloc (.inl hl) hseq fun y rel => ?_
    have takes : frameTakes opFence (fSeq w) sp = mirrorState stFenced { sp with fseq := fSeq w } := if_neg (by rw [ht]; decide)
    rw [takes] at rel
    obtain ⟨fseq, tstate, -, -, lv⟩ := arrival_shows rel
    exact ⟨fseq, tstate, leveled_of_lv lv⟩
  · refine frame_did _ rfl hsp hx hw hcrc hop hloc (.inl hl) hseq fun y rel => ?_
    have takes : frameTakes opFence (fSeq w) sp =
        { sp with fseq := fSeq w, pendFence := true, tstate := stFenced, smp := { sp.smp with rate := 0, watch := false } } := if_pos ht
    rw [takes] at rel
    obtain ⟨fseq, tstate, -, pend, lv⟩ := arrival_shows rel
    exact ⟨fseq, tstate, pend, lv⟩
  · refine frame_did _ rfl hsp hx hw hcrc hop hloc (.inl hl) hseq fun y rel => ?_
    obtain ⟨fseq, tstate, testing, -, lv⟩ := arrival_shows rel
    exact ⟨fseq, testing, tstate, leveled_of_lv lv⟩
  · refine frame_did _ rfl hsp hx hw hcrc hop hloc (.inl hl) hseq fun y rel => ?_
    have takes : frameTakes opTestOff (fSeq w) sp = stateLevels sp.tstate { sp with fseq := fSeq w, testing := false, pendFence := false } := if_neg (by rw [hp]; decide)
    have keeps : (stateLevels sp.tstate { sp with fseq := fSeq w, testing := false, pendFence := false }).fseq = fSeq w ∧
        (stateLevels sp.tstate { sp with fseq := fSeq w, testing := false, pendFence := false }).tstate = sp.tstate ∧
        (stateLevels sp.tstate { sp with fseq := fSeq w, testing := false, pendFence := false }).testing = false := by
      unfold stateLevels
      split
      · exact ⟨rfl, rfl, rfl⟩
      · split <;> exact ⟨rfl, rfl, rfl⟩
    obtain ⟨below, at_, above⟩ := stateLevels_lv sp.tstate { sp with fseq := fSeq w, testing := false, pendFence := false }
    rw [takes] at rel
    obtain ⟨fseq, tstate, testing, -, lv⟩ := arrival_shows rel
    exact ⟨fseq.trans keeps.1, testing.trans keeps.2.2, tstate.trans keeps.2.1, fun h => leveled_of_lv (lv.trans (below h)), fun h => leveled_of_lv (lv.trans (at_ h)),
      fun h => leveled_of_lv (lv.trans (above h))⟩
  · refine frame_did _ rfl hsp hx hw hcrc hop hloc (.inl hl) hseq fun y rel => ?_
    have takes : frameTakes opTestOff (fSeq w) sp = mirrorState stFenced { sp with fseq := fSeq w, testing := false, pendFence := false } := if_pos hp
    rw [takes] at rel
    obtain ⟨fseq, tstate, testing, pend, lv⟩ := arrival_shows rel
    exact ⟨fseq, testing, pend, tstate, leveled_of_lv lv⟩
  · refine frame_did _ rfl hsp hx hw hcrc hop hloc (.inr rfl) hseq fun y rel => ?_
    obtain ⟨fseq, tstate, testing, -, lv⟩ := arrival_shows rel
    exact ⟨fseq, tstate, testing, leveled_of_lv lv⟩
  · refine frame_did _ rfl hsp hx hw hcrc hop hloc (.inl hl) hseq fun y rel => ?_
    have takes : frameTakes opRelease (fSeq w) sp = spWatch (mirrorState stWatch { sp with fseq := fSeq w }) := if_neg (by rw [ht]; decide)
    rw [takes] at rel
    obtain ⟨fseq, tstate, -, -, lv⟩ := arrival_shows rel
    exact ⟨fseq, tstate, leveled_of_lv lv⟩
  · refine frame_did _ rfl hsp hx hw hcrc hop hloc (.inl hl) hseq fun y rel => ?_
    have takes : frameTakes opRelease (fSeq w) sp = spWatch { sp with fseq := fSeq w, pendFence := false } := if_pos ht
    rw [takes] at rel
    obtain ⟨fseq, tstate, testing, pend, lv⟩ := arrival_shows rel
    exact ⟨fseq, tstate, testing.trans ht, pend, lv⟩
  · refine frame_did _ rfl hsp hx hw hcrc hop hloc (.inl hl) hseq fun y rel => ?_
    obtain ⟨fseq, tstate, -, -, lv⟩ := arrival_shows rel
    exact ⟨fseq, tstate, leveled_of_lv lv⟩

/-! ### A bad frame, and a repeated one -/

/-- The crossings of a word: their count and the Caravan bit of KEEP_ALERT, and what else a dropped or repeated frame may change. -/
def Crossed (s t : State) (side : SideCopies) : Prop :=
  t.caravan.sidemaj = satAdd s.caravan.sidemaj (side.filter fun p => !(p.1 == p.2.1 && p.2.1 == p.2.2)).length ∧
  t.keep.alert = (if side.any fun p => p.1 != p.2.1 && p.2.1 != p.2.2 && p.1 != p.2.2 then s.keep.alert ||| BitVec.ofNat 12 (2 ^ alCaravan) else s.keep.alert) ∧
  t = { s with caravan := t.caravan, keep := { s.keep with alert := t.keep.alert }, spires := t.spires }

theorem crossed_of_same {t : State} (h : Same [.spires, .caravan] (countSide s side) t) (hc : t.caravan.sidemaj = (countSide s side).caravan.sidemaj) : Crossed s t side :=
  ⟨hc.trans (congrArg Caravan.sidemaj (countSide_caravan side s)), (h .alert (by decide) :).trans (countSide_alert side s),
    (Same.with_alert (l := [.spires, .caravan]) (((countSide_same s side).mono (by decide)).trans (h.mono (by decide)))).frame⟩

theorem frameArrives_bad (hsp : getSp s j = some sp) (hx : getTile s j = some x) (hw : w = landed f side) (hcrc : fCrcOk w = false) (op : Nat) :
    Crossed s (frameArrives s j f side op) side ∧ (frameArrives s j f side op).spires = s.spires ∧
      (frameArrives s j f side op).caravan = { s.caravan with fcrc := satInc s.caravan.fcrc, sidemaj := (frameArrives s j f side op).caravan.sidemaj } := by
  have crossed := countSide_same s side
  have spires : (countSide s side).spires = s.spires := crossed .spires (by decide)
  have hsp' : getSp (countSide s side) j = some sp := (congrArg (List.find? _) spires).trans hsp
  have run : frameArrives s j f side op =
      { countSide s side with caravan := { (countSide s side).caravan with fcrc := satInc (countSide s side).caravan.fcrc } } := by
    rw [frameArrives, ← hw]
    refine (onSp_some hsp' _).trans ((onTile_some ((getTile_of_tiles (crossed .tiles (by decide)) j).trans hx) _).trans ?_)
    exact if_pos (by rw [hcrc]; rfl)
  have dropped : Same [.spires, .caravan] (countSide s side)
      { countSide s side with caravan := { (countSide s side).caravan with fcrc := satInc (countSide s side).caravan.fcrc } } := fun g hg => by
    cases g with
    | caravan => exact absurd (by decide) hg
    | _ => rfl
  rw [run]
  exact ⟨crossed_of_same dropped rfl, spires, by rw [countSide_caravan]⟩

theorem frameArrives_repeated (hsp : getSp s j = some sp) (hx : getTile s j = some x) (hw : w = landed f side) (hcrc : fCrcOk w = true) (hop : fOp w = op)
    (hloc : fLocal w = j % 256) (hl : x.lost = false) (hseq : fSeq w = sp.fseq) :
    ∃ sp', Crossed s (frameArrives s j f side op) side ∧ getSp (frameArrives s j f side op) j = some sp' ∧ sp' = { sp with big := sp'.big } ∧
      (∀ i, i ≠ j → getSp (frameArrives s j f side op) i = getSp s i) ∧
      (frameArrives s j f side op).caravan = { s.caravan with
        done := s.caravan.done ++ [⟨j, fSeq w, s.time.tick⟩], held := (frameArrives s j f side op).caravan.held, sidemaj := (frameArrives s j f side op).caravan.sidemaj } := by
  have crossed := countSide_same s side
  have spires : (countSide s side).spires = s.spires := crossed .spires (by decide)
  have tick : (countSide s side).time.tick = s.time.tick := crossed .tick (by decide)
  have hsp' : getSp (countSide s side) j = some sp := (congrArg (List.find? _) spires).trans hsp
  have run : frameArrives s j f side op = report (countSide s side) j (fSeq w) := by
    rw [frameArrives, ← hw]
    refine (onSp_some hsp' _).trans ((onTile_some ((getTile_of_tiles (crossed .tiles (by decide)) j).trans hx) _).trans ?_)
    have meant : ¬ (fOp w ≠ op ∨ fLocal w ≠ j % 256 ∨ (x.lost = true ∧ op ≠ opDead)) := by
      rintro (h | h | ⟨h, -⟩)
      · exact h hop
      · exact h hloc
      · exact absurd h (hl ▸ Bool.false_ne_true)
    exact (if_neg (by rw [hcrc]; decide)).trans ((if_neg meant).trans (if_pos hseq))
  have told := report_sp (SpKeeps.rfl_ (i := some j) (m := [.big]) (countSide s side)) j (fSeq w) (covers_own j) (List.Subset.refl _)
  have same := (report_keeps j (fSeq w) (Keeps.rfl_ _ (countSide s side)) (List.Subset.refl _)).same
  have car := report_caravan (countSide s side) j (fSeq w)
  obtain ⟨y, hy, rel⟩ := told.getSp_some hsp'
  rw [run]
  generalize report (countSide s side) j (fSeq w) = t at *
  refine ⟨y, crossed_of_same same (congrArg Caravan.sidemaj car :), hy, rel.frame, fun i hi => (told.getSp_other hi).trans (congrArg (List.find? _) spires), ?_⟩
  rw [car, countSide_caravan, tick]

end

/-- Settles O17: the meaning of each frame, and the bad and the repeated ones. -/
theorem fenceFrames : Obligations.FenceFrames := by
  unfold Obligations.FenceFrames
  refine ⟨?_, ?_⟩
  · exact fun s j sp x f w side hsp hx hw hcrc hloc hseq => frames_do hsp hx hw hcrc hloc hseq
  · intro s j sp x f w side op c hsp hx hw hc crossings
    have landed_ : w = landed f side := hw
    refine ⟨fun hcrc => ?_, fun hcrc hop hloc hl hseq => ?_⟩
    · obtain ⟨crossed, spires, car⟩ := frameArrives_bad hsp hx landed_ hcrc op
      exact ⟨_, exec_frame hc, crossed, spires, car⟩
    · obtain ⟨y, crossed, own, frame, others, car⟩ := frameArrives_repeated hsp hx landed_ hcrc hop hloc hl hseq
      exact ⟨_, y, exec_frame hc, crossed, own, frame, others, car⟩

end Sys2Proof.Machine
end

section
/-! What beats leave of the Spires, and torn bursts (R65, R155). -/

set_option Elab.async false

namespace Sys2Proof.Machine

/-! ### What beats leave: other Spires, and the operations that have closed with a cause -/

/-- An operation of a number has closed with a cause. -/
def Shut (uid : Nat) (c : Closure) (ops : List OpCtx) : Prop := ∃ o ∈ ops, o.uid = uid ∧ o.closed = true ∧ o.closure = some c

theorem Shut.map {uid : Nat} {c : Closure} {ops : List OpCtx} {g : OpCtx → OpCtx} (h : Shut uid c ops)
    (hg : ∀ o, o.closed = true → (g o).uid = o.uid ∧ (g o).closed = true ∧ (g o).closure = o.closure) : Shut uid c (ops.map g) := by
  obtain ⟨o, ho, uid, closed, closure⟩ := h
  obtain ⟨u, cl, cs⟩ := hg o closed
  exact ⟨g o, List.mem_map_of_mem ho, u.trans uid, cl, cs.trans closure⟩

/-- A closure, early or not, leaves the cause of what has closed. -/
theorem Shut.shutOps {uid k : Nat} {c : Closure} {ops : List OpCtx} {g : OpCtx → OpCtx} (h : Shut uid c ops)
    (hg : ∀ o, o.closure = some c → (g o).uid = o.uid ∧ (g o).closed = true ∧ (g o).closure = some c) : Shut uid c (shutOps ops k g) := by
  obtain ⟨o, ho, uid, closed, closure⟩ := h
  by_cases hk : o.uid = k
  · obtain ⟨u, cl, cs⟩ := hg o closure
    exact ⟨g o, mem_shutOps_own ho hk, u.trans uid, cl, cs⟩
  · exact ⟨o, mem_shutOps_other ho hk, uid, closed, closure⟩

/-- Beats at a tap change its own Spire alone, where what has closed with a cause stays so. -/
structure BeatKept (j : Nat) (s t : State) : Prop where
  others : ∀ k, k ≠ j → getSp t k = getSp s k
  shut : ∀ x, getSp s j = some x → ∃ y, getSp t j = some y ∧ ∀ uid c, Shut uid c x.ops → Shut uid c y.ops

section
variable {s t u : State} {j : Nat}

theorem BeatKept.rfl_ (j : Nat) (s : State) : BeatKept j s s := ⟨fun _ _ => rfl, fun x hx => ⟨x, hx, fun _ _ h => h⟩⟩

theorem BeatKept.trans (h : BeatKept j s t) (g : BeatKept j t u) : BeatKept j s u where
  others k hk := (g.others k hk).trans (h.others k hk)
  shut x hx := by
    obtain ⟨y, hy, a⟩ := h.shut x hx
    obtain ⟨z, hz, b⟩ := g.shut y hy
    exact ⟨z, hz, fun uid c sh => b uid c (a uid c sh)⟩

/-- What leaves the Spires' operations. -/
theorem BeatKept.of_sp {m : List SpFld} (h : BeatKept j s t) (g : SpKeeps (some j) m t u) (hm : .ops ∉ m := by decide) : BeatKept j s u :=
  h.trans ⟨fun _ hk => g.getSp_other hk, fun _ hx => by
    obtain ⟨y, hy, r⟩ := g.getSp_some hx
    exact ⟨y, hy, fun _ _ sh => by rwa [r.same .ops hm]⟩⟩

theorem BeatKept.of_same {l : List Fld} (h : BeatKept j s t) (e : Same l t u) (hl : .spires ∉ l := by decide) : BeatKept j s u :=
  h.of_sp (m := []) ((SpKeeps.rfl_ t).of_same e hl)

theorem BeatKept.updSp (h : BeatKept j s t) (f : Spire → Spire) (hix : ∀ x, (f x).ix = x.ix)
    (hf : ∀ x uid c, Shut uid c x.ops → Shut uid c (f x).ops) : BeatKept j s (updSp t j f) :=
  h.trans ⟨fun _ hk => getSp_updSp_ne t f hix hk, fun x hx => ⟨f x, getSp_updSp_some hx f hix, hf x⟩⟩

theorem BeatKept.foldl {α : Type} {f : State → α → State} (hf : ∀ v a, BeatKept j s v → BeatKept j s (f v a)) (h : BeatKept j s t) (l : List α) :
    BeatKept j s (l.foldl f t) :=
  List.foldlRecOn (motive := fun v => BeatKept j s v) l f h fun v hv a _ => hf v a hv

theorem BeatKept.onSp {f : Spire → State} (h : BeatKept j s t) (hf : ∀ x, getSp t j = some x → BeatKept j s (f x)) : BeatKept j s (onSp t j f) := by
  unfold Machine.onSp
  split
  · exact hf _ ‹_›
  · exact h

/-- Only open operations are put in place. -/
theorem shut_putOpen (tag : W16) (f : OpCtx → OpCtx) (x : Spire) (uid : Nat) (c : Closure) (h : Shut uid c x.ops) : Shut uid c (putOpen x tag f).ops :=
  h.map fun o closed => by
    rw [closed]
    exact ⟨rfl, closed, rfl⟩

theorem closeOpEarly_beat (h : BeatKept j s u) (o : OpCtx) (c : Closure) : BeatKept j s (closeOpEarly u j o c) :=
  h.trans ⟨fun _ hk => (closeOpEarly_sp (SpKeeps.rfl_ (i := some j) u) j o c (covers_own j) (List.Subset.refl _)).getSp_other hk, fun x hx => by
    obtain ⟨y, hy, ops⟩ := closeOpEarly_ops hx o c
    refine ⟨y, hy, fun uid v sh => ?_⟩
    rw [ops]
    exact sh.shutOps fun o closure => ⟨rfl, rfl, by rw [closedOp, closure]; rfl⟩⟩

theorem tapViol_beat (h : BeatKept j s u) (k : RecKind) (d : Option Dsc) (code : Byte) (detail : W16) (beats : Nat) : BeatKept j s (tapViol u k j d code detail beats) :=
  h.of_sp (tapViol_sp (SpKeeps.rfl_ u) k j d code detail beats (covers_own j) (List.Subset.refl _))

theorem trace_beat (h : BeatKept j s u) (code : Byte) (deep late : Bool) (stag layer oper : W16) (pay : Nat) :
    BeatKept j s (trace u j code deep late stag layer oper pay) := h.of_sp (trace_sp (SpKeeps.rfl_ u) j code deep late stag layer oper pay (covers_own j) (List.Subset.refl _))

theorem spCount_beat (h : BeatKept j s u) (k n : Nat) : BeatKept j s (spCount u j k n) := h.of_sp (spCount_sp (SpKeeps.rfl_ u) j k n (covers_own j) (List.Subset.refl _))

theorem addBigSp_beat (h : BeatKept j s u) (k n : Nat) : BeatKept j s (addBigSp u j k n) := h.of_sp (addBigSp_sp (SpKeeps.rfl_ u) j k n (covers_own j) (List.Subset.refl _))

theorem send_beat (h : BeatKept j s u) (x : Msg) (hx : msgSpire x = j) : BeatKept j s (send u x) := h.of_sp (send_sp (SpKeeps.rfl_ u) x hx (List.Subset.refl _))

theorem cycles_same (s : State) : Same [.rng] s (cycles s).2 := (cycles_keeps (Keeps.rfl_ _ s) (List.Subset.refl _)).same

theorem resume_sp {m : List SpFld} (h : SpKeeps (some j) m s u) (o : OpCtx) (res held : Bool) (hm : [.cnt, .trc] ⊆ m) : SpKeeps (some j) m s (resume u j o res held) := by
  unfold resume
  split
  · exact h
  · exact trace_sp (trace_sp (h.of_same (cycles_same u)) j _ _ _ _ _ _ _ (covers_own j) hm) j _ _ _ _ _ _ _ (covers_own j) hm

theorem resume_beat (h : BeatKept j s u) (o : OpCtx) (res held : Bool) : BeatKept j s (resume u j o res held) :=
  h.of_sp (resume_sp (SpKeeps.rfl_ u) o res held (List.Subset.refl _))

/-! ### Torn bursts (R65, R155) -/

/-- A Spire at which a burst of an operation is TORN: its stream is ignored from now on. -/
def tornSpire (o : OpCtx) (res : Bool) (sp : Spire) : Spire :=
  { sp with
    torn := sp.torn ++ [(dStag o.dsc, res)]
    tornOps := if res then sp.tornOps else sp.tornOps ++ [(dStag o.dsc, dPasses o.dsc - o.passesDone)] }

theorem tearOp_eq (s : State) (j : Nat) (o : OpCtx) (res : Bool) : tearOp s j o res =
    Machine.updSp (closeOpEarly (trace s j 0x17 false o.late (dStag o.dsc) (dLayer o.dsc) (dOper o.dsc) 2) j o .torn) j (tornSpire o res) := rfl

theorem tearOp_beat (h : BeatKept j s u) (o : OpCtx) (res : Bool) : BeatKept j s (tearOp u j o res) :=
  (closeOpEarly_beat (trace_beat h 0x17 false o.late (dStag o.dsc) (dLayer o.dsc) (dOper o.dsc) 2) o .torn).updSp (tornSpire o res) (fun _ => rfl) fun _ _ _ sh => sh

theorem tearOthers_beat (h : BeatKept j s u) (tag : W16) (res : Bool) : BeatKept j s (tearOthers u j tag res) :=
  h.onSp fun _ _ => h.foldl (fun _ o hv => tearOp_beat hv o res) _

/-- What tears leave of a Spire beside its operations. -/
theorem tearOp_own {x : Spire} (hx : getSp u j = some x) (o : OpCtx) (res : Bool) :
    ∃ y tick, getSp (tearOp u j o res) j = some y ∧ y.ops = shutOps x.ops o.uid (closedOp j .torn tick) ∧ y.torn = x.torn ++ [(dStag o.dsc, res)] ∧
      y.tornOps = (if res then x.tornOps else x.tornOps ++ [(dStag o.dsc, dPasses o.dsc - o.passesDone)]) := by
  obtain ⟨z, hz, r⟩ := (trace_sp (SpKeeps.rfl_ (i := some j) (m := [.cnt, .trc]) u) j 0x17 false o.late (dStag o.dsc) (dLayer o.dsc) (dOper o.dsc) 2 (covers_own j)
    (List.Subset.refl _)).getSp_some hx
  obtain ⟨w, hw, q⟩ := closeOpEarly_own hz o .torn
  refine ⟨tornSpire o res (shutCtx w o.uid (closedOp j .torn u.time.tick)), u.time.tick, getSp_updSp_some hw (tornSpire o res) fun _ => rfl, ?_, ?_, ?_⟩
  · exact (shutCtx_ops w o.uid _).trans (by rw [q.same .ops (by decide), r.same .ops (by decide)])
  · exact congrArg (· ++ [(dStag o.dsc, res)]) ((q.same .torn (by decide) :).trans (r.same .torn (by decide) :))
  · have kept : w.tornOps = x.tornOps := (q.same .tornOps (by decide) :).trans (r.same .tornOps (by decide) :)
    exact congrArg (fun l => if res then l else l ++ [(dStag o.dsc, dPasses o.dsc - o.passesDone)]) kept

theorem tearOp_shuts (j : Nat) (res : Bool) : Shuts (fun s o => tearOp s j o res) j .torn := fun _ o _ hx => by
  obtain ⟨y, tick, hy, ops, -, -⟩ := tearOp_own hx o res
  exact ⟨y, tick, hy, ops⟩

/-- A held burst of another tag is TORN. -/
theorem tearOthers_shut {x : Spire} {o : OpCtx} {tag : W16} {res : Bool} (hx : getSp u j = some x) (ho : o ∈ x.ops) (open_ : o.closed = false)
    (held : heldOn res o = true) (ht : dStag o.dsc ≠ tag) :
    ∃ y, getSp (tearOthers u j tag res) j = some y ∧ Shut o.uid (o.closure.getD .torn) y.ops := by
  have listed : o ∈ (openOps x).filter fun o => heldOn res o && dStag o.dsc != tag :=
    List.mem_filter.2 ⟨List.mem_filter.2 ⟨ho, by rw [open_]; rfl⟩, by rw [held, bne_iff_ne.2 ht]; rfl⟩
  obtain ⟨y, hy, -, kept⟩ := (tearOp_shuts j res).foldl ((openOps x).filter fun o => heldOn res o && dStag o.dsc != tag) hx
  obtain ⟨o', ho', -, now⟩ := kept o ho
  have closed := now ⟨o, listed, rfl⟩
  exact ⟨y, by rw [tearOthers, onSp_some hx]; exact hy, o', ho', closed.uid, closed.closed, closed.closure⟩

/-- With no held burst of another tag nothing is torn. -/
theorem tearOthers_none {x : Spire} {tag : W16} {res : Bool} (hx : getSp u j = some x) (h : ∀ o ∈ openOps x, heldOn res o = true → dStag o.dsc = tag) :
    tearOthers u j tag res = u := by
  have none_ : (openOps x).filter (fun o => heldOn res o && dStag o.dsc != tag) = [] := List.filter_eq_nil_iff.2 fun o ho e => by
    obtain ⟨a, b⟩ := Bool.and_eq_true_iff.1 e
    exact bne_iff_ne.1 b (h o ho a)
  rw [tearOthers, onSp_some hx, none_]
  rfl

end

end Sys2Proof.Machine
end

section
/-! Operand and result beats, by what they leave (R55, R57, R62, R65, R91). -/

set_option Elab.async false

namespace Sys2Proof.Machine

/-! ### Operand and result beats leave the other Spires and what has closed -/

section
variable {s u : State} {j : Nat}

/-- The captures of an operation change, and nothing else of it. -/
theorem shut_caps (uid : Nat) (g : Capture → Capture) (x : Spire) (k : Nat) (c : Closure) (h : Shut k c x.ops) :
    Shut k c (x.ops.map fun o => if o.uid = uid then { o with caps := o.caps.map g } else o) :=
  h.map fun o closed => by
    split
    · exact ⟨rfl, closed, rfl⟩
    · exact ⟨rfl, closed, rfl⟩

theorem beat_ite {c : Prop} [Decidable c] {a b : State} (ha : BeatKept j s a) (hb : BeatKept j s b) : BeatKept j s (if c then a else b) := by
  split
  · exact ha
  · exact hb

theorem flushFragment_beat (h : BeatKept j s u) (uid : Nat) (f : Fmt) (k : Capture) : BeatKept j s (flushFragment u j uid f k) := by
  have mark (n : Nat) (g : Capture → Capture) (drop : Bool) : BeatKept j s (updSp u j fun sp => { sp with
      staging := if drop then sp.staging else sp.staging + n, ops := sp.ops.map fun o => if o.uid = uid then { o with caps := o.caps.map g } else o }) :=
    h.updSp _ (fun _ => rfl) fun x i c sh => shut_caps uid g x i c sh
  refine h.onSp fun x _ => ?_
  refine beat_ite (send_beat ?_ _ rfl) (send_beat ?_ _ rfl)
  · exact mark _ _ false
  · exact mark _ _ true

theorem flushResult_beat (h : BeatKept j s u) (uid : Nat) (d : Dsc) (k : Capture) : BeatKept j s (flushResult u j uid d k) := by
  have mark (n : Nat) (g : Capture → Capture) (drop : Bool) : BeatKept j s (updSp u j fun sp => { sp with
      staging := if drop then sp.staging else sp.staging + n, ops := sp.ops.map fun o => if o.uid = uid then { o with caps := o.caps.map g } else o }) :=
    h.updSp _ (fun _ => rfl) fun x i c sh => shut_caps uid g x i c sh
  refine h.onSp fun x _ => ?_
  refine beat_ite (send_beat ?_ _ rfl) (send_beat ?_ _ rfl)
  · exact mark _ _ false
  · exact mark _ _ true

theorem badPass_beat (h : BeatKept j s u) (o : OpCtx) (beats : Nat) : BeatKept j s (badPass u j o beats) :=
  closeOpEarly_beat (tapViol_beat h .tapviol (some o.dsc) 0x11 (dStag o.dsc) beats) o .rows

theorem traceRow_beat (h : BeatKept j s u) (o : OpCtx) (last done : Bool) : BeatKept j s (traceRow u j o last done) := by
  have ended : BeatKept j s (if last then trace (cycles u).2 j 0x20 true o.late (dStag o.dsc) (dLayer o.dsc) (dOper o.dsc) (cycles u).1 else u) := by
    split
    · exact trace_beat (h.of_same (cycles_same u)) _ _ _ _ _ _ _
    · exact h
  unfold traceRow
  dsimp only
  split
  · exact trace_beat ended _ _ _ _ _ _ _
  · exact ended

theorem missedInject_beat (h : BeatKept j s u) : BeatKept j s (missedInject u j) := by
  refine h.onSp fun x _ => ?_
  split
  · split
    · exact closeOpEarly_beat (tapViol_beat h _ _ _ _ _) _ _
    · exact h
  · exact h

theorem interruptPass_beat (h : BeatKept j s u) (tag : W16) : BeatKept j s (interruptPass u j tag) := by
  refine h.onSp fun x _ => ?_
  have passed := h.foldl (f := fun s o => badPass s j o (opaBeats x o)) (fun v o hv => badPass_beat hv o (opaBeats x o))
    ((openOps x).filter fun o => midPass o && dStag o.dsc != tag)
  dsimp only
  split
  · split
    · exact passed
    · split
      · exact missedInject_beat passed
      · exact badPass_beat passed _ _
  · exact passed

theorem plainOperand_beat (h : BeatKept j s u) {sp : Spire} (hj : sp.ix = j) (o : OpCtx) (b : Beat) : BeatKept j s (plainOperand u sp o b) := by
  subst hj
  unfold plainOperand
  dsimp only
  split
  · exact badPass_beat h o _
  · refine traceRow_beat ?_ o _ _
    exact (resume_beat h o false o.opRow.stalled).updSp _ (fun _ => rfl) fun x i c sh => shut_putOpen _ _ x i c sh

/-- A change of the Spire that leaves what has closed, with the counts of a beat's elements. -/
theorem counted_beat (h : BeatKept j s u) (f : Spire → Spire) (hix : ∀ x, (f x).ix = x.ix) (hf : ∀ x uid c, Shut uid c x.ops → Shut uid c (f x).ops) (a b : Nat) :
    BeatKept j s (spCount (spCount (updSp u j f) j kOvr a) j kNonfin b) := spCount_beat (spCount_beat (h.updSp f hix hf) kOvr a) kNonfin b

theorem screenOperand_beat (h : BeatKept j s u) {sp : Spire} (hj : sp.ix = j) (o : OpCtx) (b : Beat) : BeatKept j s (screenOperand u sp o b) := by
  subst hj
  unfold screenOperand
  dsimp only
  split
  · exact badPass_beat h o _
  · split
    · exact closeOpEarly_beat (tapViol_beat h _ _ _ _ _) _ _
    · split
      · exact badPass_beat h o _
      · refine traceRow_beat ?_ o _ _
        have resumed := resume_beat h o false o.opRow.stalled
        split
        · refine BeatKept.foldl (fun v k hv => flushFragment_beat hv _ _ _) ?_ _
          exact counted_beat resumed _ (fun _ => by rfl) (fun x i c sh => by exact shut_putOpen _ _ _ i c sh) _ _
        · exact counted_beat resumed _ (fun _ => by rfl) (fun x i c sh => by exact shut_putOpen _ _ _ i c sh) _ _

/-- What an operand beat means after its tears. -/
def operandMeans (s0 : State) (ix : Nat) (b : Beat) : State :=
  onSp s0 ix fun sp =>
    if (b.tag, false) ∈ sp.torn ∨ b.tag ∈ sp.refused then ignore s0 ix 1
    else match findOpen sp b.tag with
      | none => tapViol (ignore s0 ix 1) .tapviol ix none 0x10 b.tag 1
      | some _ => match sp.injSlot.bind fun u => sp.ops.find? fun o => !o.closed && o.uid == u with
        | some o => closeOpEarly (tapViol s0 .tapviol ix (some o.dsc) 0x12 (dStag o.dsc) (opaBeats sp o + 1)) ix o .rows
        | none =>
          let s1 := interruptPass s0 ix b.tag
          onSp s1 ix fun sp => match findOpen sp b.tag with
            | none => s1
            | some o =>
              let s2 := addBigSp s1 ix 0 (tapBytes sp)
              if !dMatmul o.dsc then s2
              else if o.checkable then screenOperand s2 sp o b else plainOperand s2 sp o b

/-- The slot of the tap is over when no inject request comes with a beat (R60). -/
def slotEnds (s : State) (j : Nat) (r : Bool) : State := if r then s else updSp s j fun t => { t with injSlot := none }

theorem takeOperand_eq {sp : Spire} (hsp : getSp s j = some sp) (hlive : tapLive s sp = true) (hft : sp.lv.ft = false) (b : Beat) (r : Bool) :
    takeOperand s j b r = operandMeans (tearOthers (slotEnds s j r) j b.tag false) j b := by
  refine (onSp_some hsp _).trans ((if_neg (by rw [hlive]; decide)).trans ((if_neg (by rw [hft]; decide)).trans ?_))
  rfl

theorem operandMeans_beat (h : BeatKept j s u) (b : Beat) : BeatKept j s (operandMeans u j b) := by
  refine h.onSp fun x hx => ?_
  split
  · exact spCount_beat h kIgn 1
  · split
    · exact tapViol_beat (spCount_beat h kIgn 1) _ _ _ _ _
    · split
      · exact closeOpEarly_beat (tapViol_beat h _ _ _ _ _) _ _
      · have interrupted := interruptPass_beat h b.tag
        refine interrupted.onSp fun y hy => ?_
        have counted := addBigSp_beat interrupted 0 (tapBytes y)
        split
        · exact interrupted
        · dsimp only
          split
          · exact counted
          · split
            · exact screenOperand_beat counted (getSp_ix hy) _ b
            · exact plainOperand_beat counted (getSp_ix hy) _ b

theorem slotEnds_beat (h : BeatKept j s u) (r : Bool) : BeatKept j s (slotEnds u j r) := by
  unfold slotEnds
  split
  · exact h
  · exact h.updSp _ (fun _ => rfl) fun _ _ _ sh => sh

/-! ### Result beats -/

theorem badRow_beat (h : BeatKept j s u) {sp : Spire} (hj : sp.ix = j) (o : OpCtx) (beats : Nat) : BeatKept j s (badRow u sp o beats) := by
  subst hj
  unfold badRow
  split
  · exact h
  · dsimp only
    have marked := (tapViol_beat h .tapviol (some o.dsc) 0x31 (dStag o.dsc) beats).updSp (fun t => putOpen t (dStag o.dsc) fun x => { x with badRows := true }) (fun _ => rfl)
      fun x i c sh => shut_putOpen _ _ x i c sh
    split
    · exact closeOpEarly_beat marked o .rows
    · exact marked

/-- A Spire that takes a result beat: the operation with it, the slot that it ends, and its part of a dump. -/
def resultPut (sp : Spire) (o o' : OpCtx) (b : Beat) (ck : Bool) (n : Nat) (x : Spire) : Spire :=
  let f := dC o.dsc
  let x0 := putOpen x (dStag o.dsc) fun _ => o'
  let x1 := if ck ∧ x0.injSlot = some o.uid then { x0 with injSlot := none } else x0
  if o.dumping && !ck && decide (o.resRow.row < dMt o.dsc) then
    dumpBeat x1 o.resRow.row o.resRow.beats (if f = .opq then beatBytes sp.tap.ver b.data else beatElemBytes f b n) (if f = .opq then [] else beatScales f b n) b.last
  else x1

theorem resultPut_ix (sp : Spire) (o o' : OpCtx) (b : Beat) (ck : Bool) (n : Nat) (x : Spire) : (resultPut sp o o' b ck n x).ix = x.ix := by
  unfold resultPut
  dsimp only
  split <;> split <;> rfl

theorem resultPut_ops (sp : Spire) (o o' : OpCtx) (b : Beat) (ck : Bool) (n : Nat) (x : Spire) :
    (resultPut sp o o' b ck n x).ops = (putOpen x (dStag o.dsc) fun _ => o').ops := by
  unfold resultPut
  dsimp only
  split <;> split <;> rfl

/-- What the beat gives the operation, and where it stands in its row. -/
def resultTake (o : OpCtx) (sp : Spire) (b : Beat) (c : Bool) : Nat × Bool :=
  if dC o.dsc = .opq then (0, false) else beatTake (perBeat (dC o.dsc) (beatBits sp.tap.ver)) (dN o.dsc) (posOf o (isCkBeat sp o c)).col b.last

/-- The state after a result beat has entered its operation, without the end of its row. -/
def resultTaken (s : State) (sp : Spire) (o : OpCtx) (b : Beat) (c : Bool) : State :=
  let ck := isCkBeat sp o c
  let r := resultCtx (opEnv s sp o.dsc) sp o b ck (resultTake o sp b c).1
  spCount (spCount (updSp (resume s sp.ix o true o.resRow.stalled) sp.ix (resultPut sp o r.o b ck (resultTake o sp b c).1)) sp.ix kOvr r.ovr) sp.ix kNonfin r.nonfin

/-- The captures of a row that has ended leave, and the row is traced. -/
def resultRowEnds (s : State) (sp : Spire) (o o' : OpCtx) (b : Beat) (c bad : Bool) : State :=
  let s3 := if b.last && !isCkBeat sp o c then
      (o'.caps.filter fun k => k.row == o.resRow.row && !k.dropped && !bad).foldl (fun s k => flushResult s sp.ix o.uid o.dsc k) s
    else s
  if b.last then trace (cycles s3).2 sp.ix 0x21 true o.late (dStag o.dsc) (dLayer o.dsc) (dOper o.dsc) (cycles s3).1 else s3

/-- A row of a wrong length. -/
def resultRowBad (s : State) (ix : Nat) (tag : W16) : State :=
  onSp s ix fun sp => match findOpen sp tag with
    | some o => badRow s sp o (resBeats sp o)
    | none => s

/-- A CKROW beat of an operation that is not checkable, on a version 3 tap, is left out. -/
def leftOut (s : State) (sp : Spire) (o : OpCtx) : State :=
  updSp (resume s sp.ix o true o.resRow.stalled) sp.ix fun x => putOpen x (dStag o.dsc) fun y =>
    { y with resBytes := y.resBytes + tapBytes sp, resRow := { y.resRow with stalled := false } }

theorem acceptedResult_eq (s : State) (sp : Spire) (o : OpCtx) (b : Beat) (c : Bool) : acceptedResult s sp o b c =
    if !o.checkable ∧ c ∧ sp.tap.ver = 3 then badRow (leftOut s sp o) sp o (resBeats sp o + 1)
    else
      let r := resultCtx (opEnv s sp o.dsc) sp o b (isCkBeat sp o c) (resultTake o sp b c).1
      let s4 := resultRowEnds (resultTaken s sp o b c) sp o r.o b c (resultTake o sp b c).2
      if (resultTake o sp b c).2 then resultRowBad s4 sp.ix (dStag o.dsc) else s4 := rfl

theorem resultTaken_beat (h : BeatKept j s u) {sp : Spire} (hj : sp.ix = j) (o : OpCtx) (b : Beat) (c : Bool) : BeatKept j s (resultTaken u sp o b c) := by
  subst hj
  refine counted_beat (resume_beat h o true o.resRow.stalled) _ (resultPut_ix sp o _ b _ _) (fun x i c sh => ?_) _ _
  rw [resultPut_ops]
  exact shut_putOpen _ _ x i c sh

theorem resultRowEnds_beat (h : BeatKept j s u) {sp : Spire} (hj : sp.ix = j) (o o' : OpCtx) (b : Beat) (c bad : Bool) :
    BeatKept j s (resultRowEnds u sp o o' b c bad) := by
  subst hj
  have flushed := beat_ite (c := (b.last && !isCkBeat sp o c) = true)
    (BeatKept.foldl (f := fun s k => flushResult s sp.ix o.uid o.dsc k) (fun v k hv => flushResult_beat hv o.uid o.dsc k) h
      (o'.caps.filter fun k => k.row == o.resRow.row && !k.dropped && !bad)) h
  exact beat_ite (trace_beat (flushed.of_same (cycles_same _)) _ _ _ _ _ _ _) flushed

theorem resultRowBad_beat (h : BeatKept j s u) (tag : W16) : BeatKept j s (resultRowBad u j tag) := by
  refine h.onSp fun x hx => ?_
  split
  · exact badRow_beat h (getSp_ix hx) _ _
  · exact h

theorem acceptedResult_beat (h : BeatKept j s u) {sp : Spire} (hj : sp.ix = j) (o : OpCtx) (b : Beat) (c : Bool) : BeatKept j s (acceptedResult u sp o b c) := by
  rw [acceptedResult_eq]
  have ends := resultRowEnds_beat (resultTaken_beat h hj o b c) hj o (resultCtx (opEnv u sp o.dsc) sp o b (isCkBeat sp o c) (resultTake o sp b c).1).o b c
    (resultTake o sp b c).2
  subst hj
  refine beat_ite (badRow_beat ?_ rfl o _) (beat_ite (resultRowBad_beat ends _) ends)
  exact (resume_beat h o true o.resRow.stalled).updSp _ (fun _ => rfl) fun x i c sh => shut_putOpen _ _ x i c sh

theorem looseResult_beat (h : BeatKept j s u) {sp : Spire} (hj : sp.ix = j) (b : Beat) : BeatKept j s (looseResult u sp b) := by
  subst hj
  unfold looseResult
  dsimp only
  split
  · exact spCount_beat h kIgn 1
  · split
    · exact h.updSp _ (fun _ => rfl) fun _ _ _ sh => sh
    · exact tapViol_beat (h.updSp _ (fun _ => by rfl) fun _ _ _ sh => by exact sh) _ _ _ _ _

/-- What a result beat means after its tears. -/
def resultMeans (s : State) (ix : Nat) (b : Beat) (c : Bool) : State :=
  onSp s ix fun sp => match findOpen sp b.tag with
    | some o => acceptedResult (addBigSp s ix 2 (tapBytes sp)) sp o b c
    | none => looseResult (addBigSp s ix 2 (tapBytes sp)) sp b

theorem takeResult_eq {sp : Spire} (hsp : getSp s j = some sp) (hlive : tapLive s sp = true) (hft : sp.lv.ft = false) (b : Beat) (c : Bool) :
    takeResult s j b c = resultMeans (tearOthers s j b.tag true) j b c := by
  refine (onSp_some hsp _).trans ((if_neg (by rw [hlive]; decide)).trans ((if_neg (by rw [hft]; decide)).trans ?_))
  rfl

theorem resultMeans_beat (h : BeatKept j s u) (b : Beat) (c : Bool) : BeatKept j s (resultMeans u j b c) := by
  refine h.onSp fun x hx => ?_
  have counted := addBigSp_beat h 2 (tapBytes x)
  split
  · exact acceptedResult_beat counted (getSp_ix hx) _ b c
  · exact looseResult_beat counted (getSp_ix hx) b

end

end Sys2Proof.Machine
end

section
/-! Held and torn bursts, fence transit and TT_FENCE_ACK (R65 to R67). -/

set_option Elab.async false

namespace Sys2Proof.Machine

/-! ### Held bursts (R65) -/

section
variable {s u : State} {j : Nat} {sp : Spire} {o : OpCtx} {tag : W16}

/-- The open operation of a tag, once it is put in its place. -/
theorem findOpen_putOpen (h : findOpen sp tag = some o) (f : OpCtx → OpCtx) (hf : (f o).closed = false ∧ (f o).dsc = o.dsc) : findOpen (putOpen sp tag f) tag = some (f o) := by
  unfold findOpen putOpen at *
  generalize sp.ops = l at h ⊢
  induction l with
  | nil => cases h
  | cons y l ih =>
    rw [List.map_cons, List.find?_cons]
    rw [List.find?_cons] at h
    by_cases hy : (!y.closed && dStag y.dsc == tag) = true
    · rw [hy] at h
      obtain rfl := Option.some.inj h
      rw [if_pos hy, hf.1, hf.2, (Bool.and_eq_true_iff.1 hy).2]
      rfl
    · rw [Bool.eq_false_of_not_eq_true hy] at h ⊢
      rw [if_neg Bool.false_ne_true, Bool.eq_false_of_not_eq_true hy]
      exact ih h

theorem findOpen_spec (h : findOpen sp tag = some o) : o ∈ sp.ops ∧ o.closed = false ∧ dStag o.dsc = tag := by
  obtain ⟨a, b⟩ := Bool.and_eq_true_iff.1 (List.find?_some h :)
  exact ⟨List.mem_of_find?_eq_some h, by simpa using a, beq_iff_eq.1 b⟩

/-- A burst is marked as held. -/
def holdBurst (res : Bool) (o : OpCtx) : OpCtx :=
  if res then { o with resRow := { o.resRow with stalled := true } } else { o with opRow := { o.opRow with stalled := true } }

theorem burstStall_effect (hsp : getSp s j = some sp) (ho : findOpen sp tag = some o) (res : Bool) (hinc : (if res then decide (o.resBytes > 0) else operandOpen sp o) = true) :
    ∃ t sp', exec (.burstStall j tag res) s = .next t ∧ getSp t j = some sp' ∧ findOpen sp' tag = some (holdBurst res o) ∧ t = { s with spires := t.spires } := by
  obtain ⟨t, run, keeps⟩ := execBurstStall_keeps j tag res (Keeps.rfl_ _ s) (List.Subset.refl _)
  have closed : exec (.burstStall j tag res) s =
      .next (trace (updSp s j fun sp => putOpen sp tag (holdBurst res)) j 0x17 false o.late tag (dLayer o.dsc) (dOper o.dsc) 0) := by
    refine congrArg Host.Outcome.next ((onSp_some hsp _).trans ?_)
    rw [ho]
    exact if_neg (by rw [hinc]; decide)
  have put := getSp_updSp_some hsp (fun sp => putOpen sp tag (holdBurst res)) fun _ => rfl
  obtain ⟨y, hy, rel⟩ := (trace_sp (SpKeeps.rfl_ (i := some j) (m := [.cnt, .trc]) _) j 0x17 false o.late tag (dLayer o.dsc) (dOper o.dsc) 0 (covers_own j)
    (List.Subset.refl _)).getSp_some put
  obtain rfl := Host.Outcome.next.inj (closed.symm.trans run)
  have held : (holdBurst res o).closed = false ∧ (holdBurst res o).dsc = o.dsc := by
    obtain ⟨-, open_, -⟩ := findOpen_spec ho
    unfold holdBurst
    split <;> exact ⟨open_, rfl⟩
  refine ⟨_, y, closed, hy, ?_, keeps.same.frame⟩
  rw [findOpen, rel.same .ops (by decide)]
  exact findOpen_putOpen ho _ held

theorem burstTimeout_effect (hsp : getSp s j = some sp) (ho : findOpen sp tag = some o) (res : Bool) (hheld : (if res then o.resRow.stalled else o.opRow.stalled) = true) :
    ∃ t sp' o', exec (.burstTimeout j tag res) s = .next t ∧ getSp t j = some sp' ∧ o' ∈ sp'.ops ∧ o'.uid = o.uid ∧ o'.closed = true ∧
      o'.closure = some (o.closure.getD .torn) ∧ (tag, res) ∈ sp'.torn ∧
      (res = false → (tag, dPasses o.dsc - o.passesDone) ∈ sp'.tornOps) ∧
      (∀ x ∈ sp'.ops, x.uid = o.uid → x.closed = true) ∧ (∀ i, i ≠ j → getSp t i = getSp s i) ∧ t.ops = s.ops ∧ t.cistern.data = s.cistern.data := by
  obtain ⟨t, run, keeps⟩ := execBurstTimeout_keeps j tag res (Keeps.rfl_ _ s) (List.Subset.refl _)
  have closed : exec (.burstTimeout j tag res) s = .next (tearOp s j o res) := by
    refine congrArg Host.Outcome.next ((onSp_some hsp _).trans ?_)
    rw [ho]
    exact if_pos hheld
  obtain rfl := Host.Outcome.next.inj (closed.symm.trans run)
  obtain ⟨y, tick, hy, ops, torn, tornOps⟩ := tearOp_own hsp o res
  obtain ⟨mem, -, rfl⟩ := findOpen_spec ho
  refine ⟨_, y, closedOp j .torn tick o, closed, hy, by rw [ops]; exact mem_shutOps_own mem rfl, rfl, rfl, rfl, ?_, fun hr => ?_, fun x hx hu => ?_,
    (tearOp_beat (BeatKept.rfl_ j s) o res).others, keeps.same .ops (by decide), keeps.same.bytes_eq.1⟩
  · rw [torn]
    exact List.mem_append_right _ (List.mem_singleton_self _)
  · rw [tornOps, hr]
    exact List.mem_append_right _ (List.mem_singleton_self _)
  · rw [ops] at hx
    exact shutOps_closed (f := closedOp j .torn tick) (fun _ => ⟨rfl, rfl⟩) hx hu

/-- A beat of another tag than a held burst of its stream. -/
theorem resultBeat_tears (hsp : getSp s j = some sp) (hlive : tapLive s sp = true) (hft : sp.lv.ft = false) (ho : o ∈ sp.ops) (open_ : o.closed = false)
    (held : o.resRow.stalled = true) (b : Beat) (c : Bool) (ht : dStag o.dsc ≠ b.tag) :
    ∃ t sp' o', exec (.resultBeat j b c) s = .next t ∧ getSp t j = some sp' ∧ o' ∈ sp'.ops ∧ o'.uid = o.uid ∧ o'.closed = true ∧
      o'.closure = some (o.closure.getD .torn) ∧ (∀ i, i ≠ j → getSp t i = getSp s i) ∧ t.ops = s.ops ∧ t.cistern.data = s.cistern.data := by
  obtain ⟨t, run, keeps⟩ := execResultBeat_keeps j b c (Keeps.rfl_ _ s) (List.Subset.refl _)
  have closed : exec (.resultBeat j b c) s = .next (resultMeans (tearOthers s j b.tag true) j b c) := congrArg Host.Outcome.next (takeResult_eq hsp hlive hft b c)
  obtain rfl := Host.Outcome.next.inj (closed.symm.trans run)
  obtain ⟨y, hy, shut⟩ := tearOthers_shut hsp ho open_ (tag := b.tag) (res := true) held ht
  have torn := tearOthers_beat (BeatKept.rfl_ j s) b.tag true
  generalize tearOthers s j b.tag true = u at *
  have meant := resultMeans_beat (BeatKept.rfl_ j u) b c
  obtain ⟨z, hz, kept⟩ := meant.shut y hy
  obtain ⟨o', ho', uid, cl, cs⟩ := kept _ _ shut
  exact ⟨_, z, o', closed, hz, ho', uid, cl, cs, (torn.trans meant).others, keeps.same .ops (by decide), keeps.same.bytes_eq.1⟩

theorem operandBeat_tears (hsp : getSp s j = some sp) (hlive : tapLive s sp = true) (hft : sp.lv.ft = false) (ho : o ∈ sp.ops) (open_ : o.closed = false)
    (held : o.opRow.stalled = true) (b : Beat) (ht : dStag o.dsc ≠ b.tag) :
    ∃ t sp' o', exec (.operandBeat j b true) s = .next t ∧ getSp t j = some sp' ∧ o' ∈ sp'.ops ∧ o'.uid = o.uid ∧ o'.closed = true ∧
      o'.closure = some (o.closure.getD .torn) ∧ (∀ i, i ≠ j → getSp t i = getSp s i) ∧ t.ops = s.ops ∧ t.cistern.data = s.cistern.data := by
  obtain ⟨t, run, keeps⟩ := execOperandBeat_keeps j b true (Keeps.rfl_ _ s) (List.Subset.refl _)
  have closed : exec (.operandBeat j b true) s = .next (operandMeans (tearOthers s j b.tag false) j b) := congrArg Host.Outcome.next (takeOperand_eq hsp hlive hft b true)
  obtain rfl := Host.Outcome.next.inj (closed.symm.trans run)
  obtain ⟨y, hy, shut⟩ := tearOthers_shut hsp ho open_ (tag := b.tag) (res := false) held ht
  have torn := tearOthers_beat (BeatKept.rfl_ j s) b.tag false
  generalize tearOthers s j b.tag false = u at *
  have meant := operandMeans_beat (BeatKept.rfl_ j u) b
  obtain ⟨z, hz, kept⟩ := meant.shut y hy
  obtain ⟨o', ho', uid, cl, cs⟩ := kept _ _ shut
  exact ⟨_, z, o', closed, hz, ho', uid, cl, cs, (torn.trans meant).others, keeps.same .ops (by decide), keeps.same.bytes_eq.1⟩

/-! ### Fence transit (R66) and TT_FENCE_ACK (R67, R435) -/

/-- While TT_FENCE_TRANSIT is asserted a beat is ignored, and counted. -/
theorem fenceTransit_ignores (hsp : getSp s j = some sp) (hstop : stopped s j = false) (hlive : tapLive s sp = true) (hft : sp.lv.ft = true) :
    (∀ d, exec (.descriptor j d) s = .next (spCount s j kIgn (dscBeats sp))) ∧
    (∀ b r, exec (.operandBeat j b r) s = .next (spCount s j kIgn 1)) ∧
    exec (.ttInjReq j) s = .next (spCount s j kIgn 1) ∧
    (∀ b c, exec (.resultBeat j b c) s = .next (spCount s j kIgn 1)) ∧
    (∀ b c, exec (.ttResEnd j b c) s = .next (spCount s j kIgn 1)) := by
  have live : ¬ (!tapLive s sp) = true := by rw [hlive]; decide
  have result (b : Beat) (c : Bool) : takeResult s j b c = spCount s j kIgn 1 := (onSp_some hsp _).trans ((if_neg live).trans (if_pos hft))
  refine ⟨fun d => ?_, fun b r => ?_, ?_, fun b c => congrArg Host.Outcome.next (result b c), fun b c => ?_⟩
  · refine congrArg Host.Outcome.next ((onSp_some hsp _).trans ?_)
    dsimp only
    rw [hstop]
    exact (if_neg live).trans (if_pos hft)
  · exact congrArg Host.Outcome.next ((onSp_some hsp _).trans ((if_neg live).trans (if_pos hft)))
  · exact congrArg Host.Outcome.next ((onSp_some hsp _).trans ((if_neg live).trans (if_pos hft)))
  · obtain ⟨y, hy, rel⟩ := (spCount_sp (SpKeeps.rfl_ (i := some j) (m := [.cnt]) s) j kIgn 1 (covers_own j) (List.Subset.refl _)).getSp_some hsp
    change execTtResEnd j b c s = _
    unfold execTtResEnd
    dsimp only
    rw [result]
    refine congrArg Host.Outcome.next ((onSp_some hy _).trans (if_pos (.inr ?_)))
    rw [rel.same .lv (by decide)]
    exact hft

theorem tryBegin_same (s : State) (j : Nat) : Same [.tiles, .spires] s (tryBegin s j) := (tryBegin_keeps j (Keeps.rfl_ _ s) (List.Subset.refl _)).same

/-- The rising edge of TT_FENCE_ACK: the bursts close and the level is noted. -/
def fenceAcked (s : State) (j : Nat) : State :=
  traceLevels (updSp (closeAll s j .fenced) j fun sp => { sp with lv := { sp.lv with fack := true } }) j

theorem fenceAcked_own (hsp : getSp s j = some sp) : ∃ y, getSp (fenceAcked s j) j = some y ∧ y.lv = { sp.lv with fack := true } ∧
    (∀ x ∈ y.ops, x.closed = true) ∧ ∀ o ∈ sp.ops, o.closed = false → ∃ o' ∈ y.ops, ClosedBy .fenced o o' := by
  obtain ⟨z, hz, all, each⟩ := closeAll_own hsp .fenced
  obtain ⟨z', hz', rz⟩ := (closeAll_sp (SpKeeps.rfl_ (i := some j) (m := closureFields) s) j .fenced (covers_own j) (List.Subset.refl _)).getSp_some hsp
  obtain rfl := Option.some.inj (hz.symm.trans hz')
  have noted := getSp_updSp_some hz (fun sp => { sp with lv := { sp.lv with fack := true } }) fun _ => rfl
  obtain ⟨y, hy, ry⟩ := (traceLevels_sp (SpKeeps.rfl_ (i := some j) (m := [.cnt, .trc]) _) j (covers_own j) (List.Subset.refl _)).getSp_some noted
  have ops : y.ops = z.ops := ry.same .ops (by decide)
  refine ⟨y, hy, ?_, by rw [ops]; exact all, by rw [ops]; exact each⟩
  rw [ry.same .lv (by decide), rz.same .lv (by decide)]

theorem fenceAcked_sp (s : State) (j : Nat) : SpKeeps (some j) (.lv :: .cnt :: closureFields) s (fenceAcked s j) :=
  traceLevels_sp ((closeAll_sp (SpKeeps.rfl_ s) j .fenced (covers_own j) (by decide)).updSp j (fun sp => { sp with lv := { sp.lv with fack := true } }) [.lv]
    (fun _ => rfl) (covers_own j) (by decide)) j (covers_own j) (by decide)

theorem fenceAcked_tiles (s : State) (j : Nat) : (fenceAcked s j).tiles = s.tiles := by
  have closed : (closeAll s j .fenced).tiles = s.tiles := (closeAll_keeps j .fenced (Keeps.rfl_ _ s) (List.Subset.refl _)).same .tiles (by decide)
  exact ((traceLevels_keeps j (Keeps.rfl_ _ _) (List.Subset.refl _)).same .tiles (by decide)).trans closed

/-- Where no slice waits nothing begins. -/
theorem tryBegin_idle {x : Tile} (hx : getTile s j = some x) (hr : x.run = none) : tryBegin s j = s := by
  unfold tryBegin
  rw [hx]
  cases getSp s j with
  | none => rfl
  | some p =>
    dsimp only
    rw [hr]

theorem ttFenceAck_effect (hsp : getSp s j = some sp) (hack : sp.lv.fack = false) :
    ∃ t sp', exec (.ttFenceAck j) s = .next t ∧ getSp t j = some sp' ∧ sp'.lv = { sp.lv with fack := true } ∧
      (∀ x ∈ sp'.ops, x.closed = true) ∧
      (∀ o ∈ sp.ops, o.closed = false → (∀ x ∈ sp.ops, x.uid = o.uid → x = o) → ∃ o' ∈ sp'.ops, o'.uid = o.uid ∧ o'.dsc = o.dsc ∧
        o'.closure = some (o.closure.getD .fenced)) ∧
      (∀ i, i ≠ j → getSp t i = getSp s i) ∧ t.ops = s.ops ∧ t.cistern.data = s.cistern.data ∧
      (∀ i x, getTile s i = some x → ∃ y, getTile t i = some y ∧ y = { x with run := y.run } ∧ (i ≠ j ∨ x.run = none → y = x)) := by
  obtain ⟨t, run, keeps⟩ := execTtFenceAck_keeps j (Keeps.rfl_ _ s) (List.Subset.refl _)
  have closed : exec (.ttFenceAck j) s = .next (tryBegin (fenceAcked s j) j) := congrArg Host.Outcome.next ((onSp_some hsp _).trans (if_neg (by rw [hack]; decide)))
  obtain rfl := Host.Outcome.next.inj (closed.symm.trans run)
  obtain ⟨y, hy, lv, all, each⟩ := fenceAcked_own hsp
  have acked := fenceAcked_sp s j
  have tiles := fenceAcked_tiles s j
  generalize fenceAcked s j = u at *
  have begun := tryBegin_wrap (SpKeeps.rfl_ (i := some j) (m := [.wrap, .gen]) u) j (covers_own j) (List.Subset.refl _)
  obtain ⟨z, hz, rz⟩ := begun.getSp_some hy
  have ops : z.ops = y.ops := rz.same .ops (by decide)
  refine ⟨_, z, closed, hz, (rz.same .lv (by decide) :).trans lv, by rw [ops]; exact all, fun o ho open_ _ => ?_,
    fun i hi => (begun.getSp_other hi).trans (acked.getSp_other hi), keeps.same .ops (by decide), keeps.same.bytes_eq.1, fun i x hx => ?_⟩
  · obtain ⟨o', ho', by_⟩ := each o ho open_
    exact ⟨o', by rw [ops]; exact ho', by_.uid, by_.dsc, by_.closure⟩
  · have hx' : getTile u i = some x := (getTile_of_tiles tiles i).trans hx
    obtain ⟨w, hw, rw_⟩ := (tryBegin_tl (TlKeeps.rfl_ (i := some j) (m := [.run]) u) j (covers_own j) (List.Subset.refl _)).getTile_some hx'
    refine ⟨w, hw, rw_.frame, fun h => ?_⟩
    by_cases hi : i = j
    · subst hi
      have idle := tryBegin_idle hx' (h.resolve_left fun hne => hne rfl)
      rw [idle] at hw
      exact Option.some.inj (hw.symm.trans hx')
    · exact rw_.other fun hc => hi ((getTile_ix hx').symm.trans hc)

end

/-- Settles O14: held and torn bursts, fence transit, and the rising edge of TT_FENCE_ACK. -/
theorem burstsAndFenceTransit : Obligations.BurstsAndFenceTransit := by
  unfold Obligations.BurstsAndFenceTransit
  refine ⟨⟨?_, ?_, ?_, ?_, ?_⟩, ?_, ?_⟩
  · intro s j sp tag o hsp ho hb
    obtain ⟨t, sp', run, own, found, frame⟩ := burstStall_effect hsp ho true (decide_eq_true hb)
    exact ⟨t, sp', _, run, own, found, rfl, rfl, frame⟩
  · intro s j sp tag o hsp ho hb
    obtain ⟨t, sp', run, own, found, frame⟩ := burstStall_effect hsp ho false hb
    exact ⟨t, sp', _, run, own, found, rfl, rfl, frame⟩
  · exact fun s j sp tag res o hsp ho held => burstTimeout_effect hsp ho res held
  · exact fun s j sp b c o hsp hlive hft ho open_ held ht => resultBeat_tears hsp hlive hft ho open_ held b c ht
  · exact fun s j sp b o hsp hlive hft ho open_ held ht => operandBeat_tears hsp hlive hft ho open_ held b ht
  · exact fun s j sp hsp hstop hlive hft => fenceTransit_ignores hsp hstop hlive hft
  · exact fun s j sp hsp hack => ttFenceAck_effect hsp hack

end Sys2Proof.Machine
end

section
/-! The counters of a Spire and the coverage deficit (R91, R458, R463). -/

set_option Elab.async false

namespace Sys2Proof.Machine

/-! ### The counters of a Spire (R458, R463) -/

/-- Of a Spire's counters only those that `l` lists change, and none is lost. -/
structure CntRel (l : List Nat) (x y : Spire) : Prop where
  length : y.cnt.length = x.cnt.length
  word : ∀ k, k ∉ l → y.cnt.getD k 0 = x.cnt.getD k 0

section
variable {l : List Nat} {x y z : Spire}

theorem CntRel.of_eq (h : y.cnt = x.cnt) : CntRel l x y := ⟨by rw [h], fun _ _ => by rw [h]⟩

theorem CntRel.trans (h : CntRel l x y) (g : CntRel l y z) : CntRel l x z := ⟨g.length.trans h.length, fun k hk => (g.word k hk).trans (h.word k hk)⟩

theorem CntRel.mono {m : List Nat} (h : CntRel l x y) (hm : l ⊆ m) : CntRel m x y := ⟨h.length, fun k hk => h.word k fun hl => hk (hm hl)⟩

theorem SpRel.cnt {i : Option Nat} {m : List SpFld} (h : SpRel i m x y) (hm : .cnt ∉ m := by decide) : CntRel l x y := .of_eq (h.same .cnt hm)

theorem cntRel_updAt (k : Nat) (f : W32 → W32) (h : y.cnt = updAt x.cnt k f) : CntRel [k] x y :=
  ⟨by rw [h]; exact length_updAt _ _ _, fun i hi => by rw [h]; exact updAt_getD_ne _ _ _ fun e => hi (e ▸ List.mem_singleton_self i)⟩

end

section
variable {s : State} {j : Nat} {x : Spire}

theorem traceSp_cnt (safe : Bool) (rate : Nat) (t : W64) (light : Bool) (e : TrcEntry) (x : Spire) : CntRel [kTrdrop] x (traceSp safe rate t light e x) := by
  unfold traceSp
  split
  · exact .of_eq rfl
  · split
    · exact .of_eq rfl
    · dsimp only
      generalize refill x.trc rate t = tr
      refine iteInduction (fun _ => cntRel_updAt kTrdrop (satAdd · 1) rfl) fun _ => .of_eq rfl

theorem trace_cnt (hx : getSp s j = some x) (code : Byte) (deep late : Bool) (stag layer oper : W16) (pay : Nat) :
    ∃ y, getSp (trace s j code deep late stag layer oper pay) j = some y ∧ SpRel (some j) [.cnt, .trc] x y ∧ CntRel [kTrdrop] x y := by
  obtain ⟨y, hy, rel⟩ := (trace_sp (SpKeeps.rfl_ (i := some j) (m := [.cnt, .trc]) s) j code deep late stag layer oper pay (covers_own j) (List.Subset.refl _)).getSp_some hx
  have put : ∃ safe rate t light e, getSp (trace s j code deep late stag layer oper pay) j = some (traceSp safe rate t light e x) :=
    ⟨_, _, _, _, _, getSp_updSp_some hx _ fun z => (congrArg Spire.ix (traceSp_frame _ _ _ _ _ z) :)⟩
  obtain ⟨safe, rate, t, light, e, put⟩ := put
  obtain rfl := Option.some.inj (hy.symm.trans put)
  exact ⟨_, hy, rel, traceSp_cnt safe rate t light e x⟩

/-- A count of a Spire (R458). -/
theorem spCount_cnt (hx : getSp s j = some x) {k : Nat} (hk : k < x.cnt.length) (n : Nat) :
    ∃ y, getSp (spCount s j k n) j = some y ∧ SpRel (some j) [.cnt] x y ∧ CntRel [k] x y ∧ y.cnt.getD k 0 = counted s (x.cnt.getD k 0) n := by
  obtain ⟨y, hy, rel⟩ := (spCount_sp (SpKeeps.rfl_ (i := some j) (m := [.cnt]) s) j k n (covers_own j) (List.Subset.refl _)).getSp_some hx
  refine ⟨y, hy, rel, ?_⟩
  unfold spCount at hy
  unfold counted
  split at hy
  · have put := getSp_updSp_some hx (fun x => { x with cnt := updAt x.cnt k (satAdd · n) }) fun _ => rfl
    obtain rfl := Option.some.inj (hy.symm.trans put)
    rw [if_pos ‹_›]
    exact ⟨cntRel_updAt k (satAdd · n) rfl, updAt_getD_self _ _ _ _ hk⟩
  · obtain rfl := Option.some.inj (hy.symm.trans hx)
    rw [if_neg ‹_›]
    exact ⟨.of_eq rfl, rfl⟩

/-- A violation of a tap counts in VIOL. -/
theorem tapViol_cnt (hx : getSp s j = some x) (hk : kViol < x.cnt.length) (k : RecKind) (d : Option Dsc) (code : Byte) (detail : W16) (beats : Nat) :
    ∃ y, getSp (tapViol s k j d code detail beats) j = some y ∧ y.viol = (code, k.num.getD 0) ∧ SpRel (some j) [.cnt, .viol, .trc, .big] x y ∧
      CntRel [kViol, kTrdrop] x y ∧ y.cnt.getD kViol 0 = counted s (x.cnt.getD kViol 0) 1 := by
  obtain ⟨y, hy, viol, whole⟩ := tapViol_own hx k d code detail beats
  obtain ⟨a, ha, -, ca, val⟩ := spCount_cnt hx hk 1
  have marked := getSp_updSp_some ha (fun t => { t with viol := (code, k.num.getD 0) }) fun _ => rfl
  have rest : ∃ z, getSp (tapViol s k j d code detail beats) j = some z ∧ CntRel [kTrdrop] { a with viol := (code, k.num.getD 0) } z := by
    obtain ⟨b, hb, -, cb⟩ := trace_cnt marked 0x1A false false detail ((d.map dLayer).getD 0xFFFF) ((d.map dOper).getD 0xFFFF) ((k.num.getD 0).toNat + 65536 * code.toNat)
    unfold tapViol
    dsimp only
    split
    · exact ⟨b, hb, cb⟩
    · have sent (v : State) (r : Rec) (i : Input) : SpKeeps (some j) [.big] v (addInput (addRec (uplink v j 32) r) i) :=
        ((uplink_sp (SpKeeps.rfl_ v) j 32 (covers_own j) (List.Subset.refl _)).of_same (addRec_same _ r)).of_same (addInput_same _ i)
      obtain ⟨z, hz, rz⟩ := (sent _ _ _).getSp_some hb
      exact ⟨z, hz, cb.trans rz.cnt⟩
  obtain ⟨z, hz, cz⟩ := rest
  obtain rfl := Option.some.inj (hy.symm.trans hz)
  have counts : CntRel [kTrdrop] a y := ⟨cz.length, cz.word⟩
  exact ⟨y, hy, viol, whole, (ca.mono (by decide)).trans (counts.mono (by decide)), (counts.word kViol (by decide)).trans val⟩

end

/-! ### The coverage deficit of a partition, through a descriptor that is refused -/

/-- No partition's coverage deficit changes. -/
def DeficitKept (s t : State) : Prop := ∀ p, (getPart t p).cnt.deficit = (getPart s p).cnt.deficit

section
variable {s t u : State}

theorem DeficitKept.rfl_ (s : State) : DeficitKept s s := fun _ => rfl

theorem DeficitKept.of_parts (h : DeficitKept s t) (e : u.parts = t.parts) : DeficitKept s u := fun q => (congrArg (fun q : Part => q.cnt.deficit) (getPart_of_parts e q)).trans (h q)

theorem DeficitKept.of_same {l : List Fld} (h : DeficitKept s t) (e : Same l t u) (hl : .parts ∉ l := by decide) : DeficitKept s u := h.of_parts (e .parts hl)

theorem DeficitKept.updPart (h : DeficitKept s t) (p : Nat) (f : Part → Part) (hf : ∀ x, (f x).cnt.deficit = x.cnt.deficit) : DeficitKept s (updPart t p f) :=
  fun q => (getPart_updPart_proj (fun x => x.cnt.deficit) t p q f hf).trans (h q)

theorem DeficitKept.updCnt (h : DeficitKept s t) (p : Nat) (f : PartCnt → PartCnt) (hf : ∀ c, (f c).deficit = c.deficit) : DeficitKept s (updCnt t p f) :=
  h.updPart p _ fun _ => hf _

theorem addRec_deficit (h : DeficitKept s t) (r : Rec) : DeficitKept s (addRec t r) := by
  have used {v : State} (hv : DeficitKept s v) (p n : Nat) : DeficitKept s (addUse v p n) := hv.updCnt p _ fun _ => rfl
  unfold addRec
  split
  · exact h.of_parts rfl
  · split
    · exact (used h _ _).of_parts rfl
    · have refused : DeficitKept s (refuseQuota t r.part) := h.updCnt _ _ fun _ => rfl
      dsimp only
      split
      · exact (used refused _ _).of_parts rfl
      · exact refused.of_parts rfl

theorem tapViol_deficit (h : DeficitKept s t) (k : RecKind) (j : Nat) (d : Option Dsc) (code : Byte) (detail : W16) (beats : Nat) :
    DeficitKept s (tapViol t k j d code detail beats) := by
  have counted := h.of_same (spCount_keeps j kViol 1 (Keeps.rfl_ _ t) (List.Subset.refl _)).same
  have traced (v : State) (hv : v.parts = t.parts) (pay : Nat) (a b : W16) : DeficitKept s (trace v j 0x1A false false detail a b pay) := by
    exact (h.of_parts hv).of_same (trace_keeps j _ _ _ _ _ _ _ (Keeps.rfl_ _ v) (List.Subset.refl _)).same
  have parts : (updSp (spCount t j kViol 1) j fun t => { t with viol := (code, k.num.getD 0) }).parts = t.parts :=
    (spCount_keeps j kViol 1 (Keeps.rfl_ _ t) (List.Subset.refl _)).same .parts (by decide)
  unfold tapViol
  dsimp only
  split
  · exact traced _ parts _ _ _
  · refine DeficitKept.of_same (addRec_deficit ?_ _) (addInput_same _ _)
    exact (traced _ parts _ _ _).of_same (uplink_keeps j 32 (Keeps.rfl_ _ _) (List.Subset.refl _)).same

theorem closeKey_deficit (h : DeficitKept s t) (p : Nat) (k : LayerKey) (forced : Bool) : DeficitKept s (closeKey t p k forced) := by
  have held (v : State) (hv : DeficitKept s v) (f : Part → Part) (hf : ∀ q, (f q).cnt.deficit = q.cnt.deficit) (r : Rec) :
      DeficitKept s (logDigest (Machine.updPart v p f) p r) :=
    ((hv.updPart p f hf).updPart p (fun q => { q with logs := { q.logs with digests := q.logs.digests.push 8191 r } }) fun _ => rfl).of_parts rfl
  refine held _ ?_ _ (fun _ => by rfl) _
  split
  · exact h.updCnt p _ fun _ => rfl
  · exact h.updCnt p _ fun _ => rfl

theorem openKey_deficit (h : DeficitKept s t) (p : Nat) (e era : W16) (step : W32) (l : W16) : DeficitKept s (openKey t p e era step l) := by
  have opened {v : State} (hv : DeficitKept s v) : DeficitKept s (Machine.updPart v p fun q => { q with keys := q.keys ++ [⟨e, era, step, l, [], 0, 0, false⟩] }) :=
    hv.updPart p _ fun _ => rfl
  unfold openKey
  dsimp only
  split
  · exact h
  · refine opened ?_
    split
    · exact h
    · split
      · exact closeKey_deficit h _ _ _
      · exact h

theorem refuseKey_deficit (h : DeficitKept s t) (p : Nat) (d : Dsc) : DeficitKept s (refuseKey t p d) := by
  unfold refuseKey
  dsimp only
  split
  · exact h
  · exact (openKey_deficit h _ _ _ _ _).updPart p _ fun _ => by rfl

theorem refuseDump_deficit (h : DeficitKept s t) (p j : Nat) : DeficitKept s (refuseDump t p j) := fun q =>
  (post_getPart (fun x => x.cnt.deficit) (fun _ _ => rfl) _ p q .dumpDone j [0, 0]).trans (h q)

end

end Sys2Proof.Machine
end

section
/-! Descriptors that are refused (R52, R55, R91). -/

set_option Elab.async false

namespace Sys2Proof.Machine

/-! ### A DESCRIPTOR that meets a check (R52, R55, R91) -/

section
variable {s : State} {j : Nat} {sp : Spire} {d : Dsc} {code : Byte}

/-- A descriptor ends what its Spire refuses and what is TORN there. -/
def seenSpire (d : Dsc) (t : Spire) : Spire := { t with refused := [], torn := [], tornOps := t.tornOps.filter fun x => x.1 != dStag d }

theorem missedInject_none (hsp : getSp s j = some sp) (hp : sp.pass = none) : missedInject s j = s := by
  rw [missedInject, onSp_some hsp, hp]

/-- The checks of a descriptor read neither what its Spire refuses nor what is TORN. -/
theorem dscCheck_seen (s : State) (sp : Spire) (j : Nat) (d : Dsc) : dscCheck (updSp s j (seenSpire d)) (seenSpire d sp) d = dscCheck s sp d := rfl

/-- What a descriptor means once the last pass has its due. -/
def takeSeen (s : State) (j : Nat) (d : Dsc) : State :=
  onSp s j fun sp => match dscCheck s sp d with
    | some code => refuseDsc s sp d code
    | none => acceptDsc s sp d

theorem takeDescriptor_eq (hsp : getSp s j = some sp) (hstop : stopped s j = false) (hlive : tapLive s sp = true) (hft : sp.lv.ft = false) (hp : sp.pass = none) :
    takeDescriptor s j d = (match dscCheck s sp d with
      | some code => refuseDsc (updSp s j (seenSpire d)) (seenSpire d sp) d code
      | none => acceptDsc (updSp s j (seenSpire d)) (seenSpire d sp) d) := by
  have seen := getSp_updSp_some hsp (seenSpire d) fun _ => rfl
  refine (onSp_some hsp _).trans ?_
  dsimp only
  rw [hstop, if_neg Bool.false_ne_true]
  refine (if_neg (by rw [hlive]; decide)).trans ((if_neg (by rw [hft]; decide)).trans ?_)
  change takeSeen (missedInject (updSp s j (seenSpire d)) j) j d = _
  rw [missedInject_none seen hp, takeSeen, onSp_some seen, dscCheck_seen]

theorem dscCheck_crc (h : dscCheck s sp d = some code) (hcrc : dCrcOk d = false) : code = 0x01 := by
  have first : dscCheck s sp d = some 0x01 := by
    unfold dscCheck
    exact if_pos (by rw [hcrc]; rfl)
  exact Option.some.inj (h.symm.trans first)

/-- What the Spire shows of a refusal. -/
def refusedSpire (d : Dsc) (code : Byte) (t : Spire) : Spire :=
  { t with answer := .nack code, refused := [dStag d], raw := t.raw.filter (fun r => r.tag != dStag d) ++ [⟨dStag d, Sd.empty, 0, d⟩] }

/-- A refusal up to its violation. -/
def refusalViol (s : State) (sp : Spire) (d : Dsc) (code : Byte) : State :=
  let s1 := updSp (spCount s sp.ix kUnchk 1) sp.ix (refusedSpire d code)
  tapViol (if code = 0x05 then addDeficit s1 (partOfSp s sp.ix) 1 else s1) .tapviol sp.ix (if code = 0x01 then none else some d) code (dStag d) (dscBeats sp)

/-- What a refusal does to the partition's digests and notes. -/
def refusalNoted (s : State) (p j : Nat) (d : Dsc) (code : Byte) : State :=
  let s4 := if code = 0x01 then s else refuseKey s p d
  if code ≠ 0x01 ∧ dDump d then refuseDump s4 p j else s4

theorem refuseDsc_eq (s : State) (sp : Spire) (d : Dsc) (code : Byte) : refuseDsc s sp d code =
    trace (refusalNoted (refusalViol s sp d code) (partOfSp s sp.ix) sp.ix d code) sp.ix 0x11 false false (dStag d)
      (if code = 0x01 then 0xFFFF else dLayer d) (if code = 0x01 then 0xFFFF else dOper d) code.toNat := rfl

theorem refusalNoted_keeps (s : State) (p j : Nat) (d : Dsc) (code : Byte) : Same [.parts, .near, .trc] s (refusalNoted s p j d code) ∧
    DeficitKept s (refusalNoted s p j d code) := by
  have key : Same [.parts, .near, .trc] s (if code = 0x01 then s else refuseKey s p d) ∧ DeficitKept s (if code = 0x01 then s else refuseKey s p d) := by
    split
    · exact ⟨Same.rfl_ _ s, DeficitKept.rfl_ s⟩
    · exact ⟨(refuseKey_keeps p d (Keeps.rfl_ _ s) (by decide)).same, refuseKey_deficit (DeficitKept.rfl_ s) p d⟩
  unfold refusalNoted
  dsimp only
  split
  · exact ⟨key.1.trans (refuseDump_keeps p j (Keeps.rfl_ _ _) (List.Subset.refl _)).same, refuseDump_deficit key.2 p j⟩
  · exact key

/-- A refusal at its Spire: the answer, the tag that is refused, and the counts. -/
theorem refusalViol_own (hsp : getSp s sp.ix = some sp) (hlen : sp.cnt.length = 15) : ∃ y, getSp (refusalViol s sp d code) sp.ix = some y ∧
    y.answer = .nack code ∧ y.ops = sp.ops ∧ y.refused = [dStag d] ∧ y.cnt.getD kUnchk 0 = counted s (sp.cnt.getD kUnchk 0) 1 ∧
    y.cnt.getD kViol 0 = counted s (sp.cnt.getD kViol 0) 1 ∧ y.cnt.getD kOps 0 = sp.cnt.getD kOps 0 := by
  obtain ⟨a, ha, ra, ca, unchk⟩ := spCount_cnt hsp (by rw [hlen]; decide : kUnchk < sp.cnt.length) 1
  have put := getSp_updSp_some ha (refusedSpire d code) fun _ => rfl
  have on : countsOn (updSp (spCount s sp.ix kUnchk 1) sp.ix (refusedSpire d code)) = countsOn s :=
    congrArg (fun b : Boot => decide (3 ≤ b.step)) ((spCount_keeps sp.ix kUnchk 1 (Keeps.rfl_ _ s) (List.Subset.refl _)).same .boot (by decide) :)
  have owed : getSp (if code = 0x05 then addDeficit (updSp (spCount s sp.ix kUnchk 1) sp.ix (refusedSpire d code)) (partOfSp s sp.ix) 1
      else updSp (spCount s sp.ix kUnchk 1) sp.ix (refusedSpire d code)) sp.ix = some (refusedSpire d code a) := by
    split <;> exact put
  have on' : countsOn (if code = 0x05 then addDeficit (updSp (spCount s sp.ix kUnchk 1) sp.ix (refusedSpire d code)) (partOfSp s sp.ix) 1
      else updSp (spCount s sp.ix kUnchk 1) sp.ix (refusedSpire d code)) = countsOn s := by
    split <;> exact on
  have len : kViol < (refusedSpire d code a).cnt.length := (by rw [ca.length, hlen]; decide : kViol < a.cnt.length)
  obtain ⟨y, hy, -, ry, cy, viol⟩ := tapViol_cnt owed len .tapviol (if code = 0x01 then none else some d) code (dStag d) (dscBeats sp)
  have kept (k : Nat) (hk : k ∉ [kViol, kTrdrop]) : y.cnt.getD k 0 = a.cnt.getD k 0 := cy.word k hk
  have before : a.cnt.getD kViol 0 = sp.cnt.getD kViol 0 := ca.word kViol (by decide)
  refine ⟨y, hy, ry.same .answer (by decide), (ry.same .ops (by decide) :).trans (ra.same .ops (by decide) :), ry.same .refused (by decide),
    (kept kUnchk (by decide)).trans unchk, ?_, (kept kOps (by decide)).trans (ca.word kOps (by decide))⟩
  have shown : y.cnt.getD kViol 0 = counted s (a.cnt.getD kViol 0) 1 := by
    rw [viol, counted, on']
    rfl
  rw [shown, before]

theorem addDeficit_deficit {p : Nat} (hp : p < s.parts.length) (n : Nat) : (getPart (addDeficit s p n) p).cnt.deficit = satAdd (getPart s p).cnt.deficit n := by
  rw [addDeficit, updCnt, getPart_updPart s p _ hp]

theorem refusalViol_deficit (hp : partOfSp s sp.ix < s.parts.length) :
    (getPart (refusalViol s sp d 0x05) (partOfSp s sp.ix)).cnt.deficit = satAdd (getPart s (partOfSp s sp.ix)).cnt.deficit 1 := by
  have parts : (updSp (spCount s sp.ix kUnchk 1) sp.ix (refusedSpire d 0x05)).parts = s.parts :=
    (spCount_keeps sp.ix kUnchk 1 (Keeps.rfl_ _ s) (List.Subset.refl _)).same .parts (by decide)
  refine (tapViol_deficit (DeficitKept.rfl_ _) _ _ _ _ _ _ (partOfSp s sp.ix)).trans ?_
  rw [if_pos rfl, addDeficit_deficit (by rw [parts]; exact hp), getPart_of_parts parts]

theorem refuseDsc_sp (sp : Spire) (s : State) (d : Dsc) (code : Byte) : SpKeeps (some sp.ix) [.cnt, .answer, .refused, .raw, .viol, .trc, .big] s (refuseDsc s sp d code) := by
  have counted := spCount_sp (SpKeeps.rfl_ (i := some sp.ix) (m := [.cnt, .answer, .refused, .raw, .viol, .trc, .big]) s) sp.ix kUnchk 1 (covers_own _) (by decide)
  have put := counted.updSp sp.ix (refusedSpire d code) [.answer, .refused, .raw] (fun _ => rfl) (covers_own _) (by decide)
  have viol : SpKeeps (some sp.ix) [.cnt, .answer, .refused, .raw, .viol, .trc, .big] s (refusalViol s sp d code) := by
    refine tapViol_sp ?_ _ _ _ _ _ _ (covers_own _) (by decide)
    split
    · exact put.of_eq rfl
    · exact put
  rw [refuseDsc_eq]
  exact trace_sp (viol.of_same (refusalNoted_keeps _ _ _ _ _).1) _ _ _ _ _ _ _ _ (covers_own _) (by decide)

/-- A refusal as a whole. -/
theorem refuseDsc_own (hsp : getSp s sp.ix = some sp) (hlen : sp.cnt.length = 15) : ∃ y, getSp (refuseDsc s sp d code) sp.ix = some y ∧
    y.answer = .nack code ∧ y.ops = sp.ops ∧ dStag d ∈ y.refused ∧ y.cnt.getD kUnchk 0 = counted s (sp.cnt.getD kUnchk 0) 1 ∧
    y.cnt.getD kViol 0 = counted s (sp.cnt.getD kViol 0) 1 ∧ y.cnt.getD kOps 0 = sp.cnt.getD kOps 0 := by
  obtain ⟨y, hy, answer, ops, refused, unchk, viol, opsCnt⟩ := refusalViol_own (d := d) (code := code) hsp hlen
  have noted : getSp (refusalNoted (refusalViol s sp d code) (partOfSp s sp.ix) sp.ix d code) sp.ix = some y :=
    (congrArg (List.find? _) ((refusalNoted_keeps (refusalViol s sp d code) (partOfSp s sp.ix) sp.ix d code).1 .spires (by decide) :)).trans hy
  obtain ⟨z, hz, rz, cz⟩ := trace_cnt noted 0x11 false false (dStag d) (if code = 0x01 then 0xFFFF else dLayer d) (if code = 0x01 then 0xFFFF else dOper d) code.toNat
  refine ⟨z, by rw [refuseDsc_eq]; exact hz, (rz.same .answer (by decide) :).trans answer, (rz.same .ops (by decide) :).trans ops, ?_,
    (cz.word kUnchk (by decide)).trans unchk, (cz.word kViol (by decide)).trans viol, (cz.word kOps (by decide)).trans opsCnt⟩
  rw [show z.refused = _ from rz.same .refused (by decide), refused]
  exact List.mem_singleton_self _

theorem refuseDsc_deficit (hp : partOfSp s sp.ix < s.parts.length) :
    (getPart (refuseDsc s sp d 0x05) (partOfSp s sp.ix)).cnt.deficit = satAdd (getPart s (partOfSp s sp.ix)).cnt.deficit 1 := by
  have noted := (refusalNoted_keeps (refusalViol s sp d 0x05) (partOfSp s sp.ix) sp.ix d 0x05).2
  rw [refuseDsc_eq]
  exact ((noted.of_same (trace_keeps _ _ _ _ _ _ _ _ (Keeps.rfl_ _ _) (List.Subset.refl _)).same) _).trans (refusalViol_deficit hp)

end

/-- Settles O9: the descriptor's checks are those of its Spire as it stands, and its refusal's parts are shown one by one. -/
theorem descriptorRefused : Obligations.DescriptorRefused := by
  unfold Obligations.DescriptorRefused
  intro s j sp d code hsp hstop hlive hft hpass hcheck hlen
  have hj := getSp_ix hsp
  subst hj
  refine ⟨dscCheck_crc hcheck, ?_⟩
  have closed : exec (.descriptor sp.ix d) s = .next (refuseDsc (updSp s sp.ix (seenSpire d)) (seenSpire d sp) d code) := by
    refine congrArg Host.Outcome.next ((takeDescriptor_eq hsp hstop hlive hft hpass).trans ?_)
    rw [hcheck]
  have seen := getSp_updSp_some hsp (seenSpire d) fun _ => rfl
  have same := (refuseDsc_keeps (seenSpire d sp) d code (Keeps.rfl_ _ (updSp s sp.ix (seenSpire d))) (List.Subset.refl _)).same
  obtain ⟨y, hy, answer, ops, refused, unchk, viol, opsCnt⟩ := refuseDsc_own (sp := seenSpire d sp) (d := d) (code := code) seen hlen
  refine ⟨_, y, closed, hy, answer, ops, refused, unchk, viol, opsCnt, fun hc hp => ?_, same .ops (by decide), same .opSeq (by decide), fun i hi => ?_,
    same .tiles (by decide), same.bytes_eq.1⟩
  · subst hc
    exact refuseDsc_deficit (s := updSp s sp.ix (seenSpire d)) (sp := seenSpire d sp) hp
  · exact ((refuseDsc_sp (seenSpire d sp) _ d code).getSp_other hi).trans (getSp_updSp_ne s (seenSpire d) (fun _ => rfl) hi)

end Sys2Proof.Machine
end

section
/-! Descriptors that are accepted (R52 to R54, R129, R163, R213). -/

set_option Elab.async false

namespace Sys2Proof.Machine

/-! ### The Keep takes the ACK of an operation (R213, R243, R289, R336) -/

/-- Of an operation in the Keep what its ACK gave it. -/
def ackOf (v : OpV) : BitVec 256 × Nat × Nat × W64 := (v.dsc, v.spire, v.part, v.ackTick)

section
variable {s : State} {uid j : Nat} {d : Dsc}

theorem updOp_ack (s : State) (k : Nat) (f : OpV → OpV) (huid : ∀ x, (f x).uid = x.uid) (hf : ∀ x, ackOf (f x) = ackOf x) (i : Nat) :
    (getOp (updOp s k f) i).map ackOf = (getOp s i).map ackOf := getOp_updOp_proj ackOf s k f huid (fun o _ => hf o) i

theorem takeRerun_ack (s : State) (uid i : Nat) : (getOp (takeRerun s uid) i).map ackOf = (getOp s i).map ackOf := by
  unfold takeRerun
  refine onOp_ind (P := fun t => (getOp t i).map ackOf = (getOp s i).map ackOf) rfl fun n _ => ?_
  split
  · rfl
  · dsimp only
    split
    · rfl
    · exact (updOp_ack _ _ _ (fun _ => by rfl) (fun _ => by rfl) i).trans (updOp_ack _ _ _ (fun _ => by rfl) (fun _ => by rfl) i)

/-- The operation of an ACK, as the Keep takes it first. -/
def keepOp (s : State) (uid ix : Nat) (d : Dsc) (samples : Nat) : OpV :=
  let p := partOfSp s ix
  let late := earlierThan (dEpoch d) (getPart s p).epoch
  { uid := uid, spire := ix, part := p, dsc := d, ackTick := s.time.tick, endTick := s.time.tick, late := late,
    checkable := dCheckable d, varies := opVaries s d, state := .opened, scr := none, range := 0, rangeSusp := false,
    samples := if late then 0 else samples, samplesOpen := if late then 0 else samples, skipped := 0, replay := vPass, mm := 0,
    res := none, outcome := 0, ticket := none, rerunOf := none, rerunBy := none, rerunSpire := 0xFFFF, deadClosed := false,
    disagree := false, forced := none, verdict := 0, resolveTick := 0, od := none, interval := !late }

/-- The operation stands among the others, and its envelope's STEP is noted. -/
def keepNoted (s : State) (uid ix : Nat) (d : Dsc) (samples : Nat) : State :=
  noteFirst { s with ops := s.ops ++ [keepOp s uid ix d samples] } (partOfSp s ix) d

/-- What the ACK brings to the tile and to the partition, or that it came late. -/
def keepFiled (s u : State) (uid ix : Nat) (d : Dsc) : State :=
  let p := partOfSp s ix
  if earlierThan (dEpoch d) (getPart s p).epoch then updCnt u p fun c => { c with late := satInc c.late }
  else
    let s3 := updTile u ix fun t => { t with
      acceptedEpochs := if dEpoch d ∈ t.acceptedEpochs then t.acceptedEpochs else t.acceptedEpochs ++ [dEpoch d] }
    let add := fun w : Window =>
      if w.phase = 0 ∧ !(dTensor d ∈ w.ckptTensors) then { w with ckptTensors := w.ckptTensors ++ [dTensor d] } else w
    let s4 := if !dCkpt d then s3 else updPart s3 p fun q => { q with
      window := q.window.map add
      named := if dTensor d ∈ q.named then q.named else q.named ++ [dTensor d] }
    joinKey s4 uid

theorem keepAck_eq (s : State) (uid ix : Nat) (d : Dsc) (samples : Nat) :
    keepAck s uid ix d samples = takeRerun (keepFiled s (keepNoted s uid ix d samples) uid ix d) uid := rfl

theorem keepFiled_same (s u : State) (uid ix : Nat) (d : Dsc) : Same [.parts, .tiles, .near] u (keepFiled s u uid ix d) := by
  have tile (f : Tile → Tile) : Same [.parts, .tiles, .near] u (updTile u ix f) := fun g hg => by
    cases g with
    | tiles => exact absurd (by decide) hg
    | _ => rfl
  have part (v : State) (hv : Same [.parts, .tiles, .near] u v) (f : Part → Part) : Same [.parts, .tiles, .near] u (updPart v (partOfSp s ix) f) :=
    hv.trans fun g hg => by
      cases g with
      | parts => exact absurd (by decide) hg
      | _ => rfl
  unfold keepFiled
  dsimp only
  split
  · exact part u (Same.rfl_ _ u) _
  · refine Same.trans ?_ (joinKey_keeps uid (Keeps.rfl_ _ _) (by decide)).same
    split
    · exact tile _
    · exact part _ (tile _) _

/-- The Keep holds the operation of the ACK. -/
theorem keepAck_getOp (hnew : ∀ o ∈ s.ops, o.uid ≠ uid) (samples : Nat) :
    (getOp (keepAck s uid j d samples) uid).map ackOf = some (d, j, partOfSp s j, s.time.tick) := by
  have noted : (keepNoted s uid j d samples).ops = s.ops ++ [keepOp s uid j d samples] :=
    (noteFirst_keeps (partOfSp s j) d (Keeps.rfl_ _ { s with ops := s.ops ++ [keepOp s uid j d samples] }) (List.Subset.refl _)).same .ops (by decide)
  have found : getOp (keepNoted s uid j d samples) uid = some (keepOp s uid j d samples) := by
    have absent : s.ops.find? (fun o => o.uid == uid) = none := List.find?_eq_none.2 fun o ho e => hnew o ho (beq_iff_eq.1 e)
    rw [getOp, noted, List.find?_append, absent]
    exact List.find?_cons_of_pos (p := fun o : OpV => o.uid == uid) (beq_self_eq_true uid)
  rw [keepAck_eq, takeRerun_ack, getOp_of_same (keepFiled_same s _ uid j d), found]
  rfl

theorem updTile_epochs_tl (s : State) (j : Nat) (f : Tile → List W16) : TlKeeps (some j) [.acceptedEpochs] s (updTile s j fun t => { t with acceptedEpochs := f t }) :=
  (TlKeeps.rfl_ s).updTile j _ [.acceptedEpochs] (fun _ => rfl) (covers_own j) (List.Subset.refl _)

/-- The ACK leaves every tile's state and partition. -/
theorem keepAck_tl (s : State) (uid j : Nat) (d : Dsc) (samples : Nat) : TlKeeps (some j) [.acceptedEpochs] s (keepAck s uid j d samples) := by
  have noted : (keepNoted s uid j d samples).tiles = s.tiles :=
    (noteFirst_keeps (partOfSp s j) d (Keeps.rfl_ _ { s with ops := s.ops ++ [keepOp s uid j d samples] }) (List.Subset.refl _)).same .tiles (by decide)
  have begun : TlKeeps (some j) [.acceptedEpochs] s (keepNoted s uid j d samples) := (TlKeeps.rfl_ s).of_eq noted
  rw [keepAck_eq]
  generalize keepNoted s uid j d samples = u at *
  have filed : TlKeeps (some j) [.acceptedEpochs] s (keepFiled s u uid j d) := by
    have tile (f : Tile → List W16) := begun.trans (updTile_epochs_tl u j f)
    unfold keepFiled
    dsimp only
    split
    · exact begun.of_eq rfl
    · refine TlKeeps.of_same ?_ (joinKey_keeps uid (Keeps.rfl_ _ _) (List.Subset.refl _)).same
      split
      · exact tile _
      · exact (tile _).of_eq (by rfl)
  exact filed.of_same (takeRerun_keeps uid (Keeps.rfl_ _ _) (List.Subset.refl _)).same

end

/-! ### A descriptor that is accepted (R52 to R54, R129, R163) -/

/-- The counters of a Spire but those of a list are kept. -/
def CntKept (l : List Nat) (j : Nat) (s t : State) : Prop := ∀ x, getSp s j = some x → ∃ y, getSp t j = some y ∧ CntRel l x y

section
variable {l : List Nat} {j : Nat} {s t u : State}

theorem CntKept.rfl_ (s : State) : CntKept l j s s := fun x hx => ⟨x, hx, .of_eq rfl⟩

theorem CntKept.of_sp {m : List SpFld} (h : CntKept l j s t) (g : SpKeeps (some j) m t u) (hm : .cnt ∉ m := by decide) : CntKept l j s u := fun x hx => by
  obtain ⟨y, hy, a⟩ := h x hx
  obtain ⟨z, hz, r⟩ := g.getSp_some hy
  exact ⟨z, hz, a.trans (r.cnt hm)⟩

theorem spCount_kept (h : CntKept l j s t) {k : Nat} (hk : k ∈ l) (n : Nat) : CntKept l j s (spCount t j k n) := fun x hx => by
  obtain ⟨y, hy, a⟩ := h x hx
  have one : CntRel l y { y with cnt := updAt y.cnt k (satAdd · n) } := (cntRel_updAt (y := { y with cnt := updAt y.cnt k (satAdd · n) }) k (satAdd · n) rfl).mono
    fun i hi => List.mem_singleton.1 hi ▸ hk
  unfold spCount
  split
  · exact ⟨_, getSp_updSp_some hy (fun x => { x with cnt := updAt x.cnt k (satAdd · n) }) fun _ => rfl, a.trans one⟩
  · exact ⟨y, hy, a⟩

theorem trace_kept (h : CntKept l j s t) (hk : kTrdrop ∈ l) (code : Byte) (deep late : Bool) (stag layer oper : W16) (pay : Nat) :
    CntKept l j s (trace t j code deep late stag layer oper pay) := fun x hx => by
  obtain ⟨y, hy, a⟩ := h x hx
  obtain ⟨z, hz, -, c⟩ := trace_cnt hy code deep late stag layer oper pay
  exact ⟨z, hz, a.trans (c.mono fun i hi => List.mem_singleton.1 hi ▸ hk)⟩

theorem CntKept.foldl {α : Type} {f : State → α → State} (hf : ∀ v a, CntKept l j s v → CntKept l j s (f v a)) (h : CntKept l j s t) (as : List α) :
    CntKept l j s (as.foldl f t) := List.foldlRecOn (motive := fun v => CntKept l j s v) as f h fun v hv a _ => hf v a hv

end

section
variable {s : State} {sp : Spire} {d : Dsc}

/-- The operation that an accepted descriptor opens. -/
def acceptedCtx (s : State) (sp : Spire) (d : Dsc) : OpCtx :=
  { openCtx s sp s.opSeq d (earlierThan (dEpoch d) sp.epoch) (decide (dGroups d ≤ grpFree sp)) (startDump s sp d).1 with
    caps := (drawSamples sp d (dCheckable d && !earlierThan (dEpoch d) sp.epoch && !inSafe s (uSpire sp.ix))).1 }

/-- The draws of an accepted descriptor (R163). -/
def acceptDraws (s : State) (sp : Spire) (d : Dsc) : List Capture × SmpSt :=
  drawSamples sp d (dCheckable d && !earlierThan (dEpoch d) sp.epoch && !inSafe s (uSpire sp.ix))

/-- The operation is open at its Spire, and its descriptor acknowledged. -/
def acceptedSpire (o : OpCtx) (smp : SmpSt) (t : Spire) : Spire :=
  { t with ops := t.ops ++ [o], smp := smp, answer := .ack, raw := t.raw.filter fun r => r.tag != dStag o.dsc }

/-- The operation opens. -/
def acceptBegun (s : State) (sp : Spire) (d : Dsc) : State :=
  updSp (countCycles { (startDump s sp d).2 with opSeq := s.opSeq + 1 } sp.ix) sp.ix (acceptedSpire (acceptedCtx s sp d) (acceptDraws s sp d).2)

/-- The counts of an acceptance (R458). -/
def acceptCounted (s : State) (sp : Spire) (d : Dsc) (u : State) : State :=
  let s2 := spCount u sp.ix kOps 1
  let s3 := if dCheckable d then s2 else spCount s2 sp.ix kUnchk 1
  let s4 := if earlierThan (dEpoch d) sp.epoch then spCount s3 sp.ix kLate 1 else s3
  spCount s4 sp.ix kSmpl (acceptDraws s sp d).1.length

/-- The trace and the notices of an acceptance. -/
def acceptTold (s : State) (sp : Spire) (d : Dsc) (u : State) : State :=
  let late := earlierThan (dEpoch d) sp.epoch
  (acceptDraws s sp d).1.foldl (fun v k =>
    trace (send v (.notice sp.ix s.opSeq k.row k.kind k.winFirst v.time.tick)) sp.ix 0x16 false late (dStag d) (dLayer d) (dOper d) k.row)
    (trace (if stateOf u sp.ix = stDead then closeInKeep u s.opSeq else u) sp.ix 0x10 false late (dStag d) (dLayer d) (dOper d) (dMt d))

theorem acceptDsc_eq (s : State) (sp : Spire) (d : Dsc) : acceptDsc s sp d =
    acceptTold s sp d (keepAck (acceptCounted s sp d (acceptBegun s sp d)) s.opSeq sp.ix d (acceptDraws s sp d).1.length) := rfl

theorem startDump_sp (s : State) (sp : Spire) (d : Dsc) : SpKeeps (some sp.ix) [.trc] s (startDump s sp d).2 := by
  have armed (v : State) (hv : v.spires = s.spires) (p : Nat) : SpKeeps (some sp.ix) [.trc] s (dumpOver (updPart v p fun q => { q with armed := none }) p 2) := by
    refine (SpKeeps.rfl_ s).of_eq ?_
    rw [(dumpOver_keeps p 2 (Keeps.rfl_ _ (updPart v p fun q => { q with armed := none })) (List.Subset.refl _)).same .spires (by decide)]
    exact hv
  unfold startDump
  dsimp only
  split
  · exact SpKeeps.rfl_ s
  · have first : SpKeeps (some sp.ix) [.trc] s (if armedFor (getPart s (partOfSp s sp.ix)) d then
        dumpOver (updPart s (partOfSp s sp.ix) fun q => { q with armed := none }) (partOfSp s sp.ix) 2 else s) := by
      split
      · exact armed s rfl _
      · exact SpKeeps.rfl_ s
    split
    · exact first.of_same (refuseDump_keeps _ _ (Keeps.rfl_ _ _) (List.Subset.refl _)).same
    · exact first.updSp sp.ix _ [.trc] (fun _ => by rfl) (covers_own _) (List.Subset.refl _)

theorem acceptDumped_sp (s : State) (sp : Spire) (d : Dsc) :
    SpKeeps (some sp.ix) [.trc, .big, .cycFrom] s (countCycles { (startDump s sp d).2 with opSeq := s.opSeq + 1 } sp.ix) := by
  have dump := (startDump_sp s sp d).mono (n := [.trc, .big, .cycFrom]) (by decide)
  generalize (startDump s sp d).2 = v at dump ⊢
  have numbered : SpKeeps (some sp.ix) [.trc, .big, .cycFrom] s { v with opSeq := s.opSeq + 1 } := dump.of_eq rfl
  exact countCycles_sp numbered sp.ix (covers_own _) (by decide)

theorem acceptBegun_own (hsp : getSp s sp.ix = some sp) : ∃ z, getSp (acceptBegun s sp d) sp.ix = some (acceptedSpire (acceptedCtx s sp d) (acceptDraws s sp d).2 z) ∧
    SpRel (some sp.ix) [.trc, .big, .cycFrom] sp z := by
  obtain ⟨z, hz, r⟩ := (acceptDumped_sp s sp d).getSp_some hsp
  exact ⟨z, getSp_updSp_some hz _ fun _ => rfl, r⟩

theorem acceptBegun_other {i : Nat} (hi : i ≠ sp.ix) : getSp (acceptBegun s sp d) i = getSp s i := by
  exact (getSp_updSp_ne _ (acceptedSpire _ _) (fun _ => rfl) hi).trans ((acceptDumped_sp s sp d).getSp_other hi)

theorem acceptCounted_sp (s : State) (sp : Spire) (d : Dsc) (u : State) : SpKeeps (some sp.ix) [.cnt] u (acceptCounted s sp d u) := by
  have one := spCount_sp (SpKeeps.rfl_ (i := some sp.ix) (m := [.cnt]) u) sp.ix kOps 1 (covers_own _) (List.Subset.refl _)
  unfold acceptCounted
  dsimp only
  refine spCount_sp ?_ _ _ _ (covers_own _) (List.Subset.refl _)
  split <;> split
  · exact spCount_sp one _ _ _ (covers_own _) (List.Subset.refl _)
  · exact spCount_sp (spCount_sp one _ _ _ (covers_own _) (List.Subset.refl _)) _ _ _ (covers_own _) (List.Subset.refl _)
  · exact one
  · exact spCount_sp one _ _ _ (covers_own _) (List.Subset.refl _)

/-- OPS goes up by one (R458). -/
theorem acceptCounted_ops {u : State} {x : Spire} (hx : getSp u sp.ix = some x) (hlen : x.cnt.length = 15) : ∃ y, getSp (acceptCounted s sp d u) sp.ix = some y ∧
    y.cnt.getD kOps 0 = counted u (x.cnt.getD kOps 0) 1 := by
  obtain ⟨a, ha, -, -, val⟩ := spCount_cnt hx (by rw [hlen]; decide : kOps < x.cnt.length) 1
  have rest : CntKept [kUnchk, kLate, kSmpl] sp.ix (spCount u sp.ix kOps 1) (acceptCounted s sp d u) := by
    have one := CntKept.rfl_ (l := [kUnchk, kLate, kSmpl]) (j := sp.ix) (spCount u sp.ix kOps 1)
    unfold acceptCounted
    dsimp only
    refine spCount_kept ?_ (by decide) _
    split <;> split
    · exact spCount_kept one (by decide) _
    · exact spCount_kept (spCount_kept one (by decide) _) (by decide) _
    · exact one
    · exact spCount_kept one (by decide) _
  obtain ⟨y, hy, c⟩ := rest a ha
  exact ⟨y, hy, (c.word kOps (by decide)).trans val⟩

theorem acceptTold_eq {u : State} (h : stateOf u sp.ix ≠ stDead) : acceptTold s sp d u =
    (acceptDraws s sp d).1.foldl (fun v k =>
      trace (send v (.notice sp.ix s.opSeq k.row k.kind k.winFirst v.time.tick)) sp.ix 0x16 false (earlierThan (dEpoch d) sp.epoch) (dStag d) (dLayer d) (dOper d) k.row)
      (trace u sp.ix 0x10 false (earlierThan (dEpoch d) sp.epoch) (dStag d) (dLayer d) (dOper d) (dMt d)) := by
  rw [acceptTold, if_neg h]

theorem acceptTold_kept {u : State} (h : stateOf u sp.ix ≠ stDead) :
    SpKeeps (some sp.ix) [.cnt, .trc, .big, .witSent, .witGrants] u (acceptTold s sp d u) ∧ CntKept [kTrdrop] sp.ix u (acceptTold s sp d u) ∧
    Same [.spires, .caravan] u (acceptTold s sp d u) := by
  rw [acceptTold_eq h]
  refine ⟨SpKeeps.foldl (fun v k hv => ?_) (trace_sp (SpKeeps.rfl_ u) _ _ _ _ _ _ _ _ (covers_own _) (by decide)) _,
    CntKept.foldl (fun v k hv => ?_) (trace_kept (CntKept.rfl_ u) (by decide) _ _ _ _ _ _ _) _, ?_⟩
  · exact trace_sp (send_sp hv (.notice sp.ix s.opSeq k.row k.kind k.winFirst v.time.tick) (covers_own sp.ix) (by decide)) _ _ _ _ _ _ _ _ (covers_own _) (by decide)
  · exact trace_kept (hv.of_sp (send_sp (SpKeeps.rfl_ v) (.notice sp.ix s.opSeq k.row k.kind k.winFirst v.time.tick) (covers_own sp.ix) (List.Subset.refl _))) (by decide) _ _ _ _ _ _ _
  · refine (keeps_foldl (m := [.spires, .caravan]) (fun v k hv => ?_) (trace_keeps sp.ix _ _ _ _ _ _ _ (Keeps.rfl_ _ u) (by decide))).same
    exact trace_keeps _ _ _ _ _ _ _ _ (send_keeps _ hv (by decide)) (by decide)

theorem acceptBegun_same (s : State) (sp : Spire) (d : Dsc) : Same [.parts, .spires, .opSeq, .near, .trc] s (acceptBegun s sp d) := by
  have dump : Same [.parts, .spires, .opSeq, .near, .trc] s { (startDump s sp d).2 with opSeq := s.opSeq + 1 } := by
    have first := ((startDump_keeps sp d (Keeps.rfl_ _ s) (List.Subset.refl _)).same.mono (by decide : _ ⊆ [Fld.parts, .spires, .opSeq, .near, .trc]))
    generalize (startDump s sp d).2 = v at *
    refine first.trans fun g hg => ?_
    cases g with
    | opSeq => exact absurd (by decide) hg
    | _ => rfl
  have begun := dump.trans (countCycles_keeps sp.ix (Keeps.rfl_ _ _) (by decide)).same
  refine begun.trans fun g hg => ?_
  cases g with
  | spires => exact absurd (by decide) hg
  | _ => rfl

theorem acceptCounted_same (s : State) (sp : Spire) (d : Dsc) (u : State) : Same [.spires] u (acceptCounted s sp d u) := by
  have one := (spCount_keeps sp.ix kOps 1 (Keeps.rfl_ _ u) (List.Subset.refl _))
  unfold acceptCounted
  dsimp only
  refine (spCount_keeps (m := [.spires]) _ _ _ ?_ (List.Subset.refl _)).same
  split <;> split
  · exact spCount_keeps _ _ _ one (List.Subset.refl _)
  · exact spCount_keeps _ _ _ (spCount_keeps _ _ _ one (List.Subset.refl _)) (List.Subset.refl _)
  · exact one
  · exact spCount_keeps _ _ _ one (List.Subset.refl _)

/-- What a descriptor that is accepted leaves: its operation at the Spire and in the Keep, and no other state. -/
theorem acceptDsc_effect (hsp : getSp s sp.ix = some sp) (hd : stateOf s sp.ix ≠ stDead) (hlen : sp.cnt.length = 15) (hnew : ∀ o ∈ s.ops, o.uid ≠ s.opSeq) :
    ∃ y v, getSp (acceptDsc s sp d) sp.ix = some y ∧ y.answer = .ack ∧ y.ops = sp.ops ++ [acceptedCtx s sp d] ∧
      y.cnt.getD kOps 0 = counted s (sp.cnt.getD kOps 0) 1 ∧ getOp (acceptDsc s sp d) s.opSeq = some v ∧ ackOf v = (d, sp.ix, partOfSp s sp.ix, s.time.tick) ∧
      (acceptDsc s sp d).opSeq = s.opSeq + 1 ∧ (∀ i, i ≠ sp.ix → getSp (acceptDsc s sp d) i = getSp s i) ∧
      Same [.spires, .ops, .opSeq, .parts, .tiles, .tickets, .caravan, .near, .trc] s (acceptDsc s sp d) := by
  rw [acceptDsc_eq]
  obtain ⟨z, hz, rz⟩ := acceptBegun_own (d := d) hsp
  have begunOther {i : Nat} (hi : i ≠ sp.ix) := acceptBegun_other (s := s) (d := d) hi
  have begun := acceptBegun_same s sp d
  have seq : (acceptBegun s sp d).opSeq = s.opSeq + 1 := (countCycles_keeps sp.ix (Keeps.rfl_ _ _) (List.Subset.refl _)).same .opSeq (by decide)
  generalize acceptBegun s sp d = u at *
  have len : (acceptedSpire (acceptedCtx s sp d) (acceptDraws s sp d).2 z).cnt.length = 15 := (congrArg List.length (rz.same .cnt (by decide) :)).trans hlen
  obtain ⟨a, ha, val⟩ := acceptCounted_ops (s := s) (d := d) hz len
  have counts := acceptCounted_sp s sp d u
  have countsSame := acceptCounted_same s sp d u
  obtain ⟨a', ha', ra⟩ := counts.getSp_some hz
  obtain rfl := Option.some.inj (ha.symm.trans ha')
  generalize acceptCounted s sp d u = w at *
  have whole : Same [.spires, .ops, .opSeq, .parts, .tiles, .tickets, .caravan, .near, .trc] s w := (begun.mono (by decide)).trans (countsSame.mono (by decide))
  have ops : w.ops = s.ops := (countsSame .ops (by decide)).trans (begun .ops (by decide))
  have tiles : w.tiles = s.tiles := (countsSame .tiles (by decide)).trans (begun .tiles (by decide))
  have part : partOfSp w sp.ix = partOfSp s sp.ix := (TlKeeps.rfl_ (i := none) (m := []) s |>.of_eq tiles).partOfSp (hm := List.not_mem_nil) sp.ix
  have state : stateOf w sp.ix = stateOf s sp.ix := (TlKeeps.rfl_ (i := none) (m := []) s |>.of_eq tiles).stateOf (hm := List.not_mem_nil) sp.ix
  have taken := keepAck_getOp (s := w) (uid := s.opSeq) (j := sp.ix) (d := d) (by rw [ops]; exact hnew) (acceptDraws s sp d).1.length
  have acked := (keepAck_keeps s.opSeq sp.ix d (acceptDraws s sp d).1.length (Keeps.rfl_ _ w) (List.Subset.refl _)).same
  have alive : stateOf (keepAck w s.opSeq sp.ix d (acceptDraws s sp d).1.length) sp.ix ≠ stDead := by
    rw [(keepAck_tl w s.opSeq sp.ix d _).stateOf, state]
    exact hd
  generalize keepAck w s.opSeq sp.ix d (acceptDraws s sp d).1.length = k at *
  obtain ⟨told, toldCnt, toldSame⟩ := acceptTold_kept (s := s) (d := d) alive
  have hk : getSp k sp.ix = some a := (congrArg (List.find? _) (acked .spires (by decide) :)).trans ha
  obtain ⟨y, hy, ry⟩ := told.getSp_some hk
  obtain ⟨y', hy', cy⟩ := toldCnt a hk
  obtain rfl := Option.some.inj (hy.symm.trans hy')
  generalize acceptTold s sp d k = t at *
  have total : Same [.spires, .ops, .opSeq, .parts, .tiles, .tickets, .caravan, .near, .trc] s t := (whole.trans (acked.mono (by decide))).trans (toldSame.mono (by decide))
  obtain ⟨v, hv, hack⟩ := Option.map_eq_some_iff.1 taken
  have on : countsOn u = countsOn s := congrArg (fun b : Boot => decide (3 ≤ b.step)) (begun .boot (by decide))
  refine ⟨y, v, hy, ?_, ?_, ?_, (getOp_of_same toldSame _).trans hv, ?_, ?_, fun i hi => ?_, total⟩
  · exact (ry.same .answer (by decide) :).trans (ra.same .answer (by decide) :)
  · have kept : y.ops = (acceptedSpire (acceptedCtx s sp d) (acceptDraws s sp d).2 z).ops := (ry.same .ops (by decide) :).trans (ra.same .ops (by decide) :)
    rw [kept]
    exact congrArg (· ++ [acceptedCtx s sp d]) (rz.same .ops (by decide))
  · have cnt : (acceptedSpire (acceptedCtx s sp d) (acceptDraws s sp d).2 z).cnt = sp.cnt := rz.same .cnt (by decide)
    rw [cy.word kOps (by decide), val, cnt, counted, on]
    rfl
  · rw [hack, part, whole .tick (by decide)]
  · exact (toldSame .opSeq (by decide)).trans ((acked .opSeq (by decide)).trans ((countsSame .opSeq (by decide)).trans seq))
  · have mid : getSp k i = getSp w i := congrArg (List.find? _) (acked .spires (by decide))
    exact (told.getSp_other hi).trans (mid.trans ((counts.getSp_other hi).trans (begunOther hi)))

end

/-- Settles O8: the steps of an acceptance one by one, the Keep's operation with them. -/
theorem descriptorAccepted : Obligations.DescriptorAccepted := by
  unfold Obligations.DescriptorAccepted
  intro s j sp d hsp hstop hlive hft hpass hcheck hlen hnew
  have hj := getSp_ix hsp
  subst hj
  have closed : exec (.descriptor sp.ix d) s = .next (acceptDsc (updSp s sp.ix (seenSpire d)) (seenSpire d sp) d) := by
    refine congrArg Host.Outcome.next ((takeDescriptor_eq hsp hstop hlive hft hpass).trans ?_)
    rw [hcheck]
  have seen := getSp_updSp_some hsp (seenSpire d) fun _ => rfl
  have alive : stateOf s sp.ix ≠ stDead := fun e => by
    have := decide_eq_false_iff_not.1 hstop
    rw [e] at this
    exact this (by decide)
  have before : Same [.spires, .ops, .opSeq, .parts, .tiles, .tickets, .caravan, .near, .trc] s (updSp s sp.ix (seenSpire d)) := fun g hg => by
    cases g with
    | spires => exact absurd (by decide) hg
    | _ => rfl
  obtain ⟨y, v, hy, answer, ops, cnt, hv, hack, seq, others, same⟩ := acceptDsc_effect (s := updSp s sp.ix (seenSpire d)) (sp := seenSpire d sp) (d := d) seen alive hlen hnew
  obtain ⟨hdsc, hspire, hpart, htick⟩ := Prod.mk.inj hack |>.imp_right fun e => Prod.mk.inj e |>.imp_right Prod.mk.inj
  refine ⟨_, y, acceptedCtx (updSp s sp.ix (seenSpire d)) (seenSpire d sp) d, v, closed, hy, answer, ?_, rfl, rfl, rfl, rfl, ?_, cnt, hv, hdsc, hspire, hpart, htick, seq,
    fun i hi => (others i hi).trans (getSp_updSp_ne s (seenSpire d) (fun _ => rfl) hi), (before.trans same).frame⟩
  · rw [ops]
    exact List.mem_append_right _ (List.mem_singleton_self _)
  · rw [ops, List.length_append]
    rfl

end Sys2Proof.Machine
end

section
/-! What result beats leave of their operations (R62, R138, R203). -/

set_option Elab.async false

namespace Sys2Proof.Machine

/-! ### What a result beat leaves of its operation (R62, R138, R203) -/

/-- Of an operation what no result beat changes but its bytes. -/
def beatCore (o : OpCtx) : Nat × BitVec 256 × Bool × Bool × Option Closure × Bool × Nat := (o.uid, o.dsc, o.checkable, o.closed, o.closure, o.badRows, o.resBytes)

/-- What leaves an operation's core, leaves it element after element. -/
theorem foldl_core {α β : Type} {g : α → OpCtx} {f : α → β → α} (hf : ∀ a i, beatCore (g (f a i)) = beatCore (g a)) (l : List β) (a : α) :
    beatCore (g (l.foldl f a)) = beatCore (g a) :=
  List.foldlRecOn (motive := fun b => beatCore (g b) = beatCore (g a)) l f rfl fun b hb i _ => (hf b i).trans hb

theorem resPut_core (mul : Nat) (ck : Bool) (row : Nat) (top : Int) (a : ResAcc) (col : Nat) (v : XVal) : beatCore (resPut mul ck row top a col v).o = beatCore a.o := by
  unfold resPut
  split
  · split
    · rfl
    · dsimp only
      split <;> rfl
  · rfl

theorem setPos_core (o : OpCtx) (ck : Bool) (p : StreamPos) : beatCore (setPos o ck p) = beatCore o := by
  unfold setPos
  split <;> rfl

theorem resElem_core (mul : Nat) (ck : Bool) (row : Nat) (a : ResAcc) (col : Nat) (v : XVal) : beatCore (resElem mul ck row a col v).o = beatCore a.o := by
  unfold resElem
  split
  · split
    · rfl
    · split
      · exact resPut_core ..
      · exact setPos_core ..
  · rfl

theorem resBlockEnd_core (mul : Nat) (ck : Bool) (row : Nat) (a : ResAcc) : beatCore (resBlockEnd mul ck row a).o = beatCore a.o := by
  unfold resBlockEnd
  dsimp only
  split
  · exact (foldl_core (g := ResAcc.o) (fun _ _ => resPut_core ..) _ _).trans (setPos_core ..)
  · rfl

theorem resBeatScreen_core (e : OpEnv) (d : Dsc) (ck : Bool) (b : Beat) (n : Nat) (o : OpCtx) : beatCore (resBeatScreen e d ck b n o).o = beatCore o := by
  refine foldl_core (g := ResAcc.o) (fun a i => ?_) (List.range n) ⟨o, 0, 0⟩
  have phi (c : Prop) [Decidable c] (f : Grp → Grp) (col : Nat) : beatCore (if c then { a with o := updGrp a.o col f } else a).o = beatCore a.o := by
    split <;> rfl
  dsimp only
  split
  · exact (resBlockEnd_core ..).trans ((resElem_core ..).trans (phi _ _ _))
  · exact (resElem_core ..).trans (phi _ _ _)

theorem rangeElem_core (r : W64) (row col : Nat) (o : OpCtx) (v : XVal) : beatCore (rangeElem r row col o v) = beatCore o := by
  unfold rangeElem
  split
  · rfl
  · rfl
  · split
    · rfl
    · dsimp only
      split <;> rfl

theorem resBeatRange_core (e : OpEnv) (d : Dsc) (b : Beat) (n : Nat) (o : OpCtx) : beatCore (resBeatRange e d b n o) = beatCore o := by
  have walked := foldl_core (g := id) (f := fun a i => rangeElem e.range o.resRow.row (o.resRow.col + i) a (resVal (dC d) b i)) (fun _ _ => rangeElem_core ..) (List.range n) o
  unfold resBeatRange
  dsimp only
  split
  · exact walked
  · exact walked

/-- A result beat adds its bytes, and leaves the rest of the core. -/
theorem resultCtx_core (e : OpEnv) (sp : Spire) (o : OpCtx) (b : Beat) (ck : Bool) (n : Nat) :
    beatCore (resultCtx e sp o b ck n).o = beatCore { o with resBytes := o.resBytes + tapBytes sp } := by
  have screened : beatCore (if o.checkable && dC o.dsc != .opq then resBeatScreen e o.dsc ck b n o else ⟨o, 0, 0⟩).o = beatCore o := by
    split
    · exact resBeatScreen_core ..
    · rfl
  have ranged (c : Bool) (x : OpCtx) (hx : beatCore x = beatCore o) : beatCore (if c then resBeatRange e o.dsc b n x else x) = beatCore o := by
    split
    · exact (resBeatRange_core ..).trans hx
    · exact hx
  have counted (x : OpCtx) (hx : beatCore x = beatCore o) (dig : OpDig) (seen : Bool) (caps : List Capture) :
      beatCore { x with dig := dig, resBytes := x.resBytes + tapBytes sp, ckSeen := seen, caps := caps } = beatCore { o with resBytes := o.resBytes + tapBytes sp } := by
    simp only [beatCore, Prod.mk.injEq] at hx ⊢
    obtain ⟨h1, h2, h3, h4, h5, h6, h7⟩ := hx
    exact ⟨h1, h2, h3, h4, h5, h6, by rw [h7]⟩
  unfold resultCtx
  dsimp only
  exact (setPos_core ..).trans (counted _ (ranged _ _ screened) _ _ _)

/-! ### The open operation of a tag, through what a result beat does -/

/-- The open operation of a tag at a Spire is one of a kind. -/
def FoundOp (j : Nat) (tag : W16) (P : OpCtx → Prop) (s : State) : Prop := ∃ y o, getSp s j = some y ∧ findOpen y tag = some o ∧ P o

/-- The fields of a Spire that a result beat changes. -/
def resultFields : List SpFld := [.ops, .injSlot, .pass, .trc, .cnt, .big, .staging, .witSent, .witGrants, .viol, .cycFrom]

section
variable {j : Nat} {tag : W16} {P : OpCtx → Prop} {s t : State} {m : List SpFld}

theorem FoundOp.of_sp (h : FoundOp j tag P s) (g : SpKeeps (some j) m s t) (hm : .ops ∉ m := by decide) : FoundOp j tag P t := by
  obtain ⟨y, o, hy, ho, hP⟩ := h
  obtain ⟨z, hz, r⟩ := g.getSp_some hy
  exact ⟨z, o, hz, by rw [findOpen, r.same .ops hm]; exact ho, hP⟩

theorem FoundOp.of_same {l : List Fld} (h : FoundOp j tag P s) (e : Same l s t) (hl : .spires ∉ l := by decide) : FoundOp j tag P t :=
  h.of_sp (m := []) ((SpKeeps.rfl_ s).of_same e hl)

/-- What changes every operation but leaves which are open, and of which tag. -/
theorem findOpen_map {x y : Spire} {g : OpCtx → OpCtx} (hops : y.ops = x.ops.map g) (hg : ∀ o, (g o).closed = o.closed ∧ (g o).dsc = o.dsc) (tag : W16) :
    findOpen y tag = (findOpen x tag).map g := by
  have same : ((fun o : OpCtx => !o.closed && dStag o.dsc == tag) ∘ g) = fun o => !o.closed && dStag o.dsc == tag := by
    funext o
    rw [Function.comp_apply, (hg o).1, (hg o).2]
  rw [findOpen, hops, List.find?_map, same]
  rfl

theorem flushResult_sp (h : SpKeeps (some j) resultFields s t) (uid : Nat) (d : Dsc) (k : Capture) : SpKeeps (some j) resultFields s (flushResult t j uid d k) := by
  have mark (n : Nat) (g : Capture → Capture) (drop : Bool) : SpKeeps (some j) resultFields s (updSp t j fun sp => { sp with
      staging := if drop then sp.staging else sp.staging + n, ops := sp.ops.map fun o => if o.uid = uid then { o with caps := o.caps.map g } else o }) :=
    h.updSp j _ [.staging, .ops] (fun _ => rfl) (covers_own j) (by decide)
  have ite {c : Prop} [Decidable c] {a b : State} (ha : SpKeeps (some j) resultFields s a) (hb : SpKeeps (some j) resultFields s b) :
      SpKeeps (some j) resultFields s (if c then a else b) := by
    split
    · exact ha
    · exact hb
  unfold flushResult onSp
  split
  · refine ite (send_sp ?_ _ (covers_own j) (by decide)) (send_sp ?_ _ (covers_own j) (by decide))
    · exact mark _ _ false
    · exact mark _ _ true
  · exact h

/-- Captures that leave do not change which operation is open, nor what it is but for them. -/
theorem flushResult_found (hP : ∀ o caps, P o → P { o with caps := caps }) (h : FoundOp j tag P s) (uid : Nat) (d : Dsc) (k : Capture) :
    FoundOp j tag P (flushResult s j uid d k) := by
  have mark (n : Nat) (g : Capture → Capture) (drop : Bool) : FoundOp j tag P (updSp s j fun sp => { sp with
      staging := if drop then sp.staging else sp.staging + n, ops := sp.ops.map fun o => if o.uid = uid then { o with caps := o.caps.map g } else o }) := by
    obtain ⟨y, o, hy, ho, hp⟩ := h
    have put := getSp_updSp_some hy (fun sp => { sp with
      staging := if drop then sp.staging else sp.staging + n, ops := sp.ops.map fun o => if o.uid = uid then { o with caps := o.caps.map g } else o }) fun _ => rfl
    refine ⟨_, if o.uid = uid then { o with caps := o.caps.map g } else o, put, ?_, ?_⟩
    · refine (findOpen_map (g := fun o => if o.uid = uid then { o with caps := o.caps.map g } else o) rfl (fun o => ?_) tag).trans (congrArg _ ho)
      split <;> exact ⟨rfl, rfl⟩
    · split
      · exact hP o _ hp
      · exact hp
  have ite {c : Prop} [Decidable c] {a b : State} (ha : FoundOp j tag P a) (hb : FoundOp j tag P b) : FoundOp j tag P (if c then a else b) := by
    split
    · exact ha
    · exact hb
  have sent (v : State) (hv : FoundOp j tag P v) (x : Msg) (hx : msgSpire x = j) : FoundOp j tag P (send v x) :=
    hv.of_sp (send_sp (SpKeeps.rfl_ v) x hx (List.Subset.refl _))
  unfold flushResult onSp
  split
  · refine ite (sent _ ?_ _ rfl) (sent _ ?_ _ rfl)
    · exact mark _ _ false
    · exact mark _ _ true
  · exact h

/-! ### A result beat of an open operation -/

theorem resultPut_frame (sp : Spire) (o o' : OpCtx) (b : Beat) (ck : Bool) (n : Nat) (x : Spire) :
    resultPut sp o o' b ck n x = spChanged [.ops, .injSlot, .trc, .cnt] x (resultPut sp o o' b ck n x) := by
  have slot : ∀ c : Prop, [Decidable c] → ∀ y : Spire, y = spChanged [.ops, .injSlot, .trc, .cnt] x y →
      (if c then { y with injSlot := none } else y) = spChanged [.ops, .injSlot, .trc, .cnt] x (if c then { y with injSlot := none } else y) := fun c _ y hy => by
    refine spChanged_ite ?_ hy
    have := congrArg (fun z : Spire => { z with injSlot := none }) hy
    exact this
  have dump : ∀ y : Spire, y = spChanged [.ops, .injSlot, .trc, .cnt] x y → ∀ row beat bs scl last,
      dumpBeat y row beat bs scl last = spChanged [.ops, .injSlot, .trc, .cnt] x (dumpBeat y row beat bs scl last) := fun y hy row beat bs scl last => by
    have := congrArg (fun z : Spire => { z with trc := (dumpBeat y row beat bs scl last).trc, cnt := (dumpBeat y row beat bs scl last).cnt }) hy
    exact this
  unfold resultPut
  dsimp only
  refine spChanged_ite (dump _ (slot _ _ ?_) _ _ _ _ _) (slot _ _ ?_)
  · rfl
  · rfl

theorem resultTaken_sp (h : SpKeeps (some j) resultFields s t) {sp : Spire} (hj : sp.ix = j) (o : OpCtx) (b : Beat) (c : Bool) :
    SpKeeps (some j) resultFields s (resultTaken t sp o b c) := by
  subst hj
  refine spCount_sp (spCount_sp ?_ _ _ _ (covers_own _) (by decide)) _ _ _ (covers_own _) (by decide)
  exact (resume_sp h o true o.resRow.stalled (by decide)).updSp sp.ix _ [.ops, .injSlot, .trc, .cnt] (resultPut_frame sp o _ b _ _) (covers_own _) (by decide)

theorem resultRowEnds_sp (h : SpKeeps (some j) resultFields s t) {sp : Spire} (hj : sp.ix = j) (o o' : OpCtx) (b : Beat) (c bad : Bool) :
    SpKeeps (some j) resultFields s (resultRowEnds t sp o o' b c bad) := by
  subst hj
  have flushed : SpKeeps (some sp.ix) resultFields s (if b.last && !isCkBeat sp o c then
      (o'.caps.filter fun k => k.row == o.resRow.row && !k.dropped && !bad).foldl (fun s k => flushResult s sp.ix o.uid o.dsc k) t else t) := by
    split
    · exact h.foldl (fun v k hv => flushResult_sp hv o.uid o.dsc k) _
    · exact h
  unfold resultRowEnds
  dsimp only
  split
  · exact trace_sp (flushed.of_same (cycles_same _)) _ _ _ _ _ _ _ _ (covers_own _) (by decide)
  · exact flushed

/-- The open operation of a beat's tag, with the beat. -/
theorem resultTaken_found {sp y : Spire} {o : OpCtx} (hj : sp.ix = j) (hy : getSp s j = some y) (ho : findOpen y (dStag o.dsc) = some o) (b : Beat) (c : Bool) :
    FoundOp j (dStag o.dsc) (fun o' => beatCore o' = beatCore { o with resBytes := o.resBytes + tapBytes sp }) (resultTaken s sp o b c) := by
  subst hj
  obtain ⟨z, hz, rz⟩ := (resume_sp (SpKeeps.rfl_ (i := some sp.ix) (m := [.cnt, .trc]) s) o true o.resRow.stalled (List.Subset.refl _) : SpKeeps (some sp.ix) [.cnt, .trc] s _).getSp_some hy
  have core := resultCtx_core (opEnv s sp o.dsc) sp o b (isCkBeat sp o c) (resultTake o sp b c).1
  have found : findOpen z (dStag o.dsc) = some o := by
    rw [findOpen, rz.same .ops (by decide)]
    exact ho
  have open_ : o.closed = false := (findOpen_spec ho).2.1
  have put := getSp_updSp_some hz (resultPut sp o (resultCtx (opEnv s sp o.dsc) sp o b (isCkBeat sp o c) (resultTake o sp b c).1).o b (isCkBeat sp o c) (resultTake o sp b c).1)
    (resultPut_ix sp o _ b _ _)
  have cores := core
  simp only [beatCore, Prod.mk.injEq] at cores
  obtain ⟨-, dsc, -, closed, -⟩ := cores
  have placed := findOpen_putOpen found (fun _ => (resultCtx (opEnv s sp o.dsc) sp o b (isCkBeat sp o c) (resultTake o sp b c).1).o) ⟨closed.trans open_, dsc⟩
  have first : FoundOp sp.ix (dStag o.dsc) (fun o' => beatCore o' = beatCore { o with resBytes := o.resBytes + tapBytes sp })
      (updSp (resume s sp.ix o true o.resRow.stalled) sp.ix
        (resultPut sp o (resultCtx (opEnv s sp o.dsc) sp o b (isCkBeat sp o c) (resultTake o sp b c).1).o b (isCkBeat sp o c) (resultTake o sp b c).1)) :=
    ⟨_, _, put, by rw [findOpen, resultPut_ops]; exact placed, core⟩
  have counts := first.of_sp (spCount_sp (SpKeeps.rfl_ _) sp.ix kOvr (resultCtx (opEnv s sp o.dsc) sp o b (isCkBeat sp o c) (resultTake o sp b c).1).ovr (covers_own _) (List.Subset.refl _))
  exact counts.of_sp (spCount_sp (SpKeeps.rfl_ _) sp.ix kNonfin _ (covers_own _) (List.Subset.refl _))

theorem resultRowEnds_found (hP : ∀ o caps, P o → P { o with caps := caps }) (h : FoundOp j tag P s) {sp : Spire} (hj : sp.ix = j) (o o' : OpCtx) (b : Beat) (c bad : Bool) :
    FoundOp j tag P (resultRowEnds s sp o o' b c bad) := by
  subst hj
  have flushed : FoundOp sp.ix tag P (if b.last && !isCkBeat sp o c then
      (o'.caps.filter fun k => k.row == o.resRow.row && !k.dropped && !bad).foldl (fun s k => flushResult s sp.ix o.uid o.dsc k) s else s) := by
    split
    · exact List.foldlRecOn (motive := FoundOp sp.ix tag P) _ _ h fun v hv k _ => flushResult_found hP hv o.uid o.dsc k
    · exact h
  unfold resultRowEnds
  dsimp only
  split
  · exact (flushed.of_same (cycles_same _)).of_sp (trace_sp (SpKeeps.rfl_ _) _ _ _ _ _ _ _ _ (covers_own _) (List.Subset.refl _))
  · exact flushed

end

end Sys2Proof.Machine
end

section
/-! Result beats as a whole (R54, R62 to R65, R91). -/

set_option Elab.async false

namespace Sys2Proof.Machine

/-! ### Result beats as a whole (R54, R62 to R65, R91) -/

/-- The operations of a number end at a tick: they are closed, and the others are untouched. -/
structure EndsOp (k : Nat) (tick : W64) (ops ops' : List OpCtx) : Prop where
  out : ∀ x ∈ ops, x.uid ≠ k → x ∈ ops'
  back : ∀ x ∈ ops', x.uid ≠ k → x ∈ ops
  closed : ∀ x ∈ ops', x.uid = k → x.closed = true
  ends : (∃ x ∈ ops, x.uid = k) → ∃ x ∈ ops', x.uid = k ∧ x.closed = true ∧ x.endTick = tick

theorem endsOp_shutOps {k : Nat} {tick : W64} {f : OpCtx → OpCtx} (hf : ∀ x, (f x).uid = x.uid ∧ (f x).closed = true ∧ (f x).endTick = tick) (ops : List OpCtx) :
    EndsOp k tick ops (shutOps ops k f) where
  out _ hx hu := mem_shutOps_other hx hu
  back x hx hu := by
    obtain ⟨h, -⟩ | ⟨w, -, hw, rfl⟩ := of_mem_shutOps hx
    · exact h
    · exact absurd ((hf w).1.trans hw) hu
  closed x hx hu := shutOps_closed (fun x => ⟨(hf x).1, (hf x).2.1⟩) hx hu
  ends := fun ⟨x, hx, hu⟩ => ⟨f x, mem_shutOps_own hx hu, (hf x).1.trans hu, (hf x).2⟩

theorem EndsOp.trans {k : Nat} {tick : W64} {a b c : List OpCtx} (h : EndsOp k tick a b) (g : EndsOp k tick b c) : EndsOp k tick a c where
  out x hx hu := g.out x (h.out x hx hu) hu
  back x hx hu := h.back x (g.back x hx hu) hu
  closed := g.closed
  ends he := by
    obtain ⟨x, hx, hu, -⟩ := h.ends he
    exact g.ends ⟨x, hx, hu⟩

section
variable {s : State} {j : Nat} {sp y : Spire} {o : OpCtx}

theorem badRow_sp (h : SpKeeps (some j) resultFields s s) {u : State} (hu : SpKeeps (some j) resultFields s u) (hj : sp.ix = j) (o : OpCtx) (n : Nat) :
    SpKeeps (some j) resultFields s (badRow u sp o n) := by
  subst hj
  have marked := (tapViol_sp hu .tapviol sp.ix (some o.dsc) 0x31 (dStag o.dsc) n (covers_own _) (by decide)).updSp sp.ix
    (fun t => putOpen t (dStag o.dsc) fun x => { x with badRows := true }) [.ops] (fun _ => rfl) (covers_own _) (by decide)
  unfold badRow
  split
  · exact hu
  · dsimp only
    split
    · exact closeOpEarly_sp marked sp.ix o .rows (covers_own _) (by decide)
    · exact marked

/-- An operation whose rows are bad is marked. -/
def rowsBad (x : OpCtx) : OpCtx := { x with badRows := true }

/-- The record of a row of a wrong length (TAPVIOL 0x31), and its mark. -/
def badRowMarked (s : State) (j : Nat) (o : OpCtx) (n : Nat) : State :=
  updSp (tapViol s .tapviol j (some o.dsc) 0x31 (dStag o.dsc) n) j fun t => putOpen t (dStag o.dsc) rowsBad

theorem badRow_eq (hj : sp.ix = j) (hb : o.badRows = false) (n : Nat) :
    badRow s sp o n = if o.checkable then closeOpEarly (badRowMarked s j o n) j o .rows else badRowMarked s j o n := by
  subst hj
  rw [badRow, if_neg (by rw [hb]; decide)]
  rfl

theorem badRowMarked_own {x : OpCtx} (hy : getSp s j = some y) (ho : findOpen y (dStag o.dsc) = some x) (n : Nat) :
    ∃ w, getSp (badRowMarked s j o n) j = some w ∧ w.viol = (0x31, 0x0210) ∧ findOpen w (dStag o.dsc) = some (rowsBad x) ∧ (badRowMarked s j o n).time.tick = s.time.tick := by
  obtain ⟨z, hz, viol, rz⟩ := tapViol_own hy .tapviol (some o.dsc) 0x31 (dStag o.dsc) n
  have found : findOpen z (dStag o.dsc) = some x := by
    rw [findOpen, rz.same .ops (by decide)]
    exact ho
  exact ⟨_, getSp_updSp_some hz (fun t => putOpen t (dStag o.dsc) rowsBad) fun _ => rfl, viol, findOpen_putOpen found rowsBad ⟨(findOpen_spec ho).2.1, rfl⟩,
    tapViol_same s .tapviol j (some o.dsc) 0x31 (dStag o.dsc) n .tick (by decide)⟩

/-- A bad row of an operation that is not checkable, or that has one already, closes nothing. -/
theorem badRow_open {P : OpCtx → Prop} {x : OpCtx} (hP : P x → P (rowsBad x)) (hy : getSp s j = some y) (ho : findOpen y (dStag o.dsc) = some x) (hp : P x) (hj : sp.ix = j)
    (hc : o.checkable = false ∨ o.badRows = true) (n : Nat) : FoundOp j (dStag o.dsc) P (badRow s sp o n) := by
  by_cases hb : o.badRows = true
  · rw [badRow, if_pos hb]
    exact ⟨y, x, hy, ho, hp⟩
  · obtain ⟨w, hw, -, found, -⟩ := badRowMarked_own hy ho n
    rw [badRow_eq hj (Bool.eq_false_of_not_eq_true hb), hc.resolve_right hb, if_neg Bool.false_ne_true]
    exact ⟨w, _, hw, found, hP hp⟩

/-- A bad row closes a checkable operation, with cause ROWS unless a cause stands. -/
theorem badRow_closes (hy : getSp s j = some y) (ho : findOpen y (dStag o.dsc) = some o) (hj : sp.ix = j) (hc : o.checkable = true) (hb : o.badRows = false) (n : Nat) :
    ∃ z ops o', getSp (badRow s sp o n) j = some z ∧ z.viol = (0x31, 0x0210) ∧ z.ops = shutOps ops o.uid (closedOp j .rows s.time.tick) ∧ o' ∈ z.ops ∧ o'.uid = o.uid ∧
      o'.closed = true ∧ o'.closure = some (o.closure.getD .rows) ∧ o'.endTick = s.time.tick := by
  obtain ⟨w, hw, viol, found, tick⟩ := badRowMarked_own hy ho n
  obtain ⟨z, hz, rz⟩ := closeOpEarly_own hw o .rows
  rw [tick] at hz
  have ops : (shutCtx z o.uid (closedOp j .rows s.time.tick)).ops = shutOps w.ops o.uid (closedOp j .rows s.time.tick) := by rw [shutCtx_ops, rz.same .ops (by decide)]
  refine ⟨shutCtx z o.uid (closedOp j .rows s.time.tick), w.ops, closedOp j .rows s.time.tick (rowsBad o), by rw [badRow_eq hj hb, if_pos hc]; exact hz,
    (rz.same .viol (by decide) :).trans viol, ops, ?_, rfl, rfl, rfl, rfl⟩
  rw [ops]
  exact mem_shutOps_own (findOpen_spec found).1 rfl

/-- The operations of a number are closed, one of them at a tick. -/
def ClosedAt (j uid : Nat) (tick : W64) (s : State) : Prop :=
  ∃ z o', getSp s j = some z ∧ o' ∈ z.ops ∧ o'.uid = uid ∧ o'.closed = true ∧ o'.endTick = tick ∧ ∀ x ∈ z.ops, x.uid = uid → x.closed = true

theorem badRow_cases (hy : getSp s j = some y) (ho : findOpen y (dStag o.dsc) = some o) (hj : sp.ix = j) (n : Nat) :
    FoundOp j (dStag o.dsc) (fun o' => o'.uid = o.uid) (badRow s sp o n) ∨ ClosedAt j o.uid s.time.tick (badRow s sp o n) := by
  by_cases h : o.checkable = false ∨ o.badRows = true
  · exact .inl (badRow_open (P := fun o' => o'.uid = o.uid) (fun h => h) hy ho rfl hj h n)
  · obtain ⟨hc, hb⟩ := not_or.1 h
    obtain ⟨z, ops, o', hz, -, hops, ho', uid, cl, -, tick⟩ := badRow_closes hy ho hj (Bool.eq_true_of_not_eq_false hc) (Bool.eq_false_of_not_eq_true hb) n
    refine .inr ⟨z, o', hz, ho', uid, cl, tick, fun x hx hu => ?_⟩
    rw [hops] at hx
    exact shutOps_closed (f := closedOp j .rows s.time.tick) (fun _ => ⟨rfl, rfl⟩) hx hu

/-- The frame of what a result beat does before the end of a row is judged. -/
theorem resultRow_same (s : State) (sp : Spire) (o o' : OpCtx) (b : Beat) (c bad : Bool) :
    Same [.spires, .caravan, .rng] s (resultRowEnds (resultTaken s sp o b c) sp o o' b c bad) := by
  have taken : Keeps [.spires, .caravan, .rng] s (resultTaken s sp o b c) := by
    refine spCount_keeps _ _ _ (spCount_keeps _ _ _ ?_ (by decide)) (by decide)
    exact updSp_keeps _ _ (resume_keeps _ _ _ _ (Keeps.rfl_ _ s) (by decide)) (by decide)
  have flushed : Keeps [.spires, .caravan, .rng] s (if b.last && !isCkBeat sp o c then
      (o'.caps.filter fun k => k.row == o.resRow.row && !k.dropped && !bad).foldl (fun s k => flushResult s sp.ix o.uid o.dsc k) (resultTaken s sp o b c)
      else resultTaken s sp o b c) := by
    split
    · exact keeps_foldl (fun v k hv => flushResult_keeps _ _ _ _ hv (by decide)) taken
    · exact taken
  unfold resultRowEnds
  dsimp only
  split
  · exact (trace_keeps _ _ _ _ _ _ _ _ (cycles_keeps flushed (by decide)) (by decide)).same
  · exact flushed.same

/-- A beat that enters its operation, up to the judgement of its row. -/
theorem resultRow_found (hj : sp.ix = j) (hy : getSp s j = some y) (ho : findOpen y (dStag o.dsc) = some o) (b : Beat) (c bad : Bool) (o' : OpCtx) :
    FoundOp j (dStag o.dsc) (fun x => beatCore x = beatCore { o with resBytes := o.resBytes + tapBytes sp }) (resultRowEnds (resultTaken s sp o b c) sp o o' b c bad) :=
  resultRowEnds_found (fun _ _ h => h) (resultTaken_found hj hy ho b c) hj o o' b c bad

theorem core_eq {a b : OpCtx} (h : beatCore a = beatCore b) :
    a.uid = b.uid ∧ a.dsc = b.dsc ∧ a.checkable = b.checkable ∧ a.closure = b.closure ∧ a.badRows = b.badRows ∧ a.resBytes = b.resBytes := by
  simp only [beatCore, Prod.mk.injEq] at h
  obtain ⟨h1, h2, h3, -, h5, h6, h7⟩ := h
  exact ⟨h1, h2, h3, h5, h6, h7⟩

/-- Whether a beat is left out: a CKROW beat of an operation that is not checkable, on a version 3 tap. -/
theorem acceptedResult_row (h : ¬ ((!o.checkable) = true ∧ c = true ∧ sp.tap.ver = 3)) (s : State) (b : Beat) :
    ∃ o', acceptedResult s sp o b c = if (resultTake o sp b c).2 then
        resultRowBad (resultRowEnds (resultTaken s sp o b c) sp o o' b c (resultTake o sp b c).2) sp.ix (dStag o.dsc)
      else resultRowEnds (resultTaken s sp o b c) sp o o' b c (resultTake o sp b c).2 := by
  refine ⟨(resultCtx (opEnv s sp o.dsc) sp o b (isCkBeat sp o c) (resultTake o sp b c).1).o, ?_⟩
  rw [acceptedResult_eq, if_neg h]

/-- A beat that closes nothing: its bytes are its operation's. -/
theorem acceptedResult_open (hj : sp.ix = j) (hy : getSp s j = some y) (ho : findOpen y (dStag o.dsc) = some o) {b : Beat} {c : Bool}
    (h : ¬ ((!o.checkable) = true ∧ c = true ∧ sp.tap.ver = 3)) (hrow : o.checkable = false ∨ (resultTake o sp b c).2 = false) :
    FoundOp j (dStag o.dsc) (fun x => x.uid = o.uid ∧ x.resBytes = o.resBytes + tapBytes sp) (acceptedResult s sp o b c) := by
  obtain ⟨o', run⟩ := acceptedResult_row h s b
  obtain ⟨z, x, hz, hx, core⟩ := resultRow_found hj hy ho b c (resultTake o sp b c).2 o'
  obtain ⟨uid, dsc, checkable, -, -, bytes⟩ := core_eq core
  rw [run]
  generalize resultRowEnds (resultTaken s sp o b c) sp o o' b c (resultTake o sp b c).2 = u at *
  by_cases hbad : (resultTake o sp b c).2 = true
  · rw [if_pos hbad, hj, resultRowBad, onSp_some hz, hx]
    have nc : x.checkable = false := checkable.trans (hrow.resolve_right (by rw [hbad]; decide))
    have ends := badRow_open (s := u) (sp := z) (P := fun x => x.uid = o.uid ∧ x.resBytes = o.resBytes + tapBytes sp) (fun h => h) hz (by rw [dsc]; exact hx) ⟨uid, bytes⟩ (getSp_ix hz)
      (.inl nc) (resBeats z x)
    rwa [dsc] at ends
  · rw [if_neg hbad]
    exact ⟨z, x, hz, hx, uid, bytes⟩

/-- A beat that gives a row of a checkable operation a wrong length closes it. -/
theorem acceptedResult_closes (hj : sp.ix = j) (hy : getSp s j = some y) (ho : findOpen y (dStag o.dsc) = some o) {b : Beat} {c : Bool} (hc : o.checkable = true)
    (hb : o.badRows = false) (hrow : (resultTake o sp b c).2 = true) :
    ∃ z o', getSp (acceptedResult s sp o b c) j = some z ∧ z.viol = (0x31, 0x0210) ∧ o' ∈ z.ops ∧ o'.uid = o.uid ∧ o'.closed = true ∧
      o'.closure = some (o.closure.getD .rows) ∧ o'.endTick = s.time.tick := by
  obtain ⟨o', run⟩ := acceptedResult_row (c := c) (sp := sp) (o := o) (by rw [hc]; rintro ⟨h, -⟩; cases h) s b
  obtain ⟨z, x, hz, hx, core⟩ := resultRow_found hj hy ho b c (resultTake o sp b c).2 o'
  obtain ⟨uid, dsc, checkable, closure, bad, -⟩ := core_eq core
  have tick : (resultRowEnds (resultTaken s sp o b c) sp o o' b c (resultTake o sp b c).2).time.tick = s.time.tick := resultRow_same s sp o o' b c _ .tick (by decide)
  rw [run, if_pos hrow, hj]
  generalize resultRowEnds (resultTaken s sp o b c) sp o o' b c (resultTake o sp b c).2 = u at *
  obtain ⟨w, ops, q, hw, viol, -, hq, huid, cl, cs, et⟩ := badRow_closes (s := u) (sp := z) hz (by rw [dsc]; exact hx) (getSp_ix hz) (checkable.trans hc) (bad.trans hb) (resBeats z x)
  refine ⟨w, q, ?_, viol, hq, huid.trans uid, cl, by rw [cs, closure], et.trans tick⟩
  rw [resultRowBad, onSp_some hz, hx]
  exact hw

end

end Sys2Proof.Machine
end

section
/-! TT_RES_END, and result beats as commands (R54, R140, R465). Settles O11. -/

set_option Elab.async false

namespace Sys2Proof.Machine

/-! ### TT_RES_END (R54, R140, R465) -/

/-- An operation as its TT_RES_END leaves it. -/
def endedOp (j : Nat) (tick : W64) (x : OpCtx) : OpCtx :=
  { x with closed := true, endTick := tick, dumping := false, cycles := Config.tclkCycles j x.ackTick tick }

/-- The operations of a number end, with the cycles counted up to then. -/
def endOp (s : State) (j uid : Nat) : State := updSp (countCycles s j) j fun sp => shutCtx sp uid (endedOp j s.time.tick)

section
variable {s u : State} {j : Nat} {sp x y : Spire} {o : OpCtx} {tick : W64}

theorem endOp_ends (hx : getSp u j = some x) (ht : u.time.tick = tick) (uid : Nat) :
    ∃ y, getSp (endOp u j uid) j = some y ∧ EndsOp uid tick x.ops y.ops := by
  obtain ⟨z, hz, r⟩ := (countCycles_sp (SpKeeps.rfl_ (i := some j) (m := [.big, .cycFrom]) u) j (covers_own j) (List.Subset.refl _)).getSp_some hx
  refine ⟨_, getSp_updSp_some hz (fun sp => shutCtx sp uid (endedOp j u.time.tick)) fun _ => rfl, ?_⟩
  rw [shutCtx_ops, r.same .ops (by decide), ht]
  exact endsOp_shutOps (f := endedOp j tick) (fun _ => ⟨rfl, rfl, rfl⟩) x.ops

theorem endOp_beat (h : BeatKept j s u) (uid : Nat) : BeatKept j s (endOp u j uid) :=
  (h.of_sp (countCycles_sp (SpKeeps.rfl_ u) j (covers_own j) (List.Subset.refl _))).updSp _ (fun _ => by rfl) fun _ _ _ sh => by
    exact sh.shutOps fun _ closure => ⟨rfl, rfl, closure⟩

/-- The record of what is wrong with an operation at its end. -/
def endMarked (s : State) (sp : Spire) (o : OpCtx) (k : RecKind) (code : Byte) : State :=
  tapViol s k sp.ix (some o.dsc) code (dStag o.dsc) (if k = .contractviol ∧ code = 0x21 ∨ code = 0x11 then opaBeats sp o else resBeats sp o)

/-- The event of TT_RES_END. -/
def endTraced (s : State) (j : Nat) (o : OpCtx) : State := trace s j 0x14 false o.late (dStag o.dsc) (dLayer o.dsc) (dOper o.dsc) (o.resRow.row + o.ckPos.row)

theorem endResult_eq (s : State) (sp : Spire) (o : OpCtx) : endResult s sp o =
    match endFault sp o with
    | none => endOp (endDump (endTraced s sp.ix o) sp.ix o) sp.ix o.uid
    | some (k, code, cl) =>
      let s1 := endMarked (endTraced s sp.ix o) sp o k code
      endOp (if o.checkable ∨ code = 0x11 then closeOpEarly s1 sp.ix o cl else endDump s1 sp.ix o) sp.ix o.uid := by
  unfold endResult
  cases endFault sp o <;> rfl

theorem endTraced_same (s : State) (j : Nat) (o : OpCtx) : Same [.spires] s (endTraced s j o) :=
  (trace_keeps _ _ _ _ _ _ _ _ (Keeps.rfl_ _ s) (List.Subset.refl _)).same

theorem endTraced_sp (s : State) (j : Nat) (o : OpCtx) : SpKeeps (some j) [.cnt, .trc] s (endTraced s j o) :=
  trace_sp (SpKeeps.rfl_ s) j _ _ _ _ _ _ _ (covers_own j) (List.Subset.refl _)

/-- TT_RES_END of an operation ends those of its number, at the tick of the beat. -/
theorem endResult_ends (hj : sp.ix = j) (hx : getSp s j = some x) (o : OpCtx) :
    ∃ y, getSp (endResult s sp o) j = some y ∧ EndsOp o.uid s.time.tick x.ops y.ops := by
  subst hj
  have same := endTraced_same s sp.ix o
  obtain ⟨z, hz, rz⟩ := (endTraced_sp s sp.ix o).getSp_some hx
  have ops : z.ops = x.ops := rz.same .ops (by decide)
  have tick : (endTraced s sp.ix o).time.tick = s.time.tick := same .tick (by decide)
  rw [endResult_eq]
  generalize endTraced s sp.ix o = u at *
  rw [← ops, ← tick]
  have dumped {v : State} {w : Spire} (hw : getSp v sp.ix = some w) (hops : w.ops = z.ops) (ht : v.time.tick = u.time.tick) :
      ∃ y, getSp (endOp (endDump v sp.ix o) sp.ix o.uid) sp.ix = some y ∧ EndsOp o.uid u.time.tick z.ops y.ops := by
    obtain ⟨q, hq, rq⟩ := (endDump_sp (SpKeeps.rfl_ (i := some sp.ix) (m := [.trc]) v) sp.ix o (covers_own _) (List.Subset.refl _)).getSp_some hw
    have kept : (endDump v sp.ix o).time.tick = v.time.tick := (endDump_keeps sp.ix o (Keeps.rfl_ _ v) (List.Subset.refl _)).same .tick (by decide)
    obtain ⟨y, hy, ends⟩ := endOp_ends hq (kept.trans ht) o.uid
    exact ⟨y, hy, by rw [← hops, ← rq.same .ops (by decide)]; exact ends⟩
  split
  · exact dumped hz rfl rfl
  · next k code cl _ =>
    obtain ⟨w, hw, rw_⟩ := (tapViol_sp (SpKeeps.rfl_ (i := some sp.ix) (m := [.cnt, .viol, .trc, .big]) u) k sp.ix (some o.dsc) code (dStag o.dsc)
      (if k = .contractviol ∧ code = 0x21 ∨ code = 0x11 then opaBeats sp o else resBeats sp o) (covers_own _) (List.Subset.refl _)).getSp_some hz
    have wops : w.ops = z.ops := rw_.same .ops (by decide)
    have wtick : (endMarked u sp o k code).time.tick = u.time.tick := tapViol_same u k sp.ix (some o.dsc) code (dStag o.dsc) _ .tick (by decide)
    change getSp (endMarked u sp o k code) sp.ix = some w at hw
    dsimp only
    generalize endMarked u sp o k code = v at *
    split
    · obtain ⟨q, hq, qops⟩ := closeOpEarly_ops hw o cl
      have kept : (closeOpEarly v sp.ix o cl).time.tick = v.time.tick := (closeOpEarly_keeps sp.ix o cl (Keeps.rfl_ _ v) (List.Subset.refl _)).same .tick (by decide)
      obtain ⟨y, hy, ends⟩ := endOp_ends hq (kept.trans wtick) o.uid
      refine ⟨y, hy, EndsOp.trans ?_ ends⟩
      rw [qops, wops, wtick]
      exact endsOp_shutOps (f := closedOp sp.ix cl u.time.tick) (fun _ => ⟨rfl, rfl, rfl⟩) z.ops
    · exact dumped hw wops wtick

theorem endDump_beat (h : BeatKept j s u) (o : OpCtx) : BeatKept j s (endDump u j o) :=
  h.of_sp (endDump_sp (SpKeeps.rfl_ u) j o (covers_own j) (List.Subset.refl _))

theorem endResult_beat (h : BeatKept j s u) (hj : sp.ix = j) (o : OpCtx) : BeatKept j s (endResult u sp o) := by
  subst hj
  have traced := h.of_sp (endTraced_sp u sp.ix o)
  rw [endResult_eq]
  split
  · exact endOp_beat (endDump_beat traced o) o.uid
  · have marked := tapViol_beat traced
    exact endOp_beat (beat_ite (closeOpEarly_beat (marked _ _ _ _ _) o _) (endDump_beat (marked _ _ _ _ _) o)) o.uid

/-! ### What an accepted beat leaves of its operation -/

/-- The Spire at which the count of a beat's bytes has gone up. -/
theorem resultCounted {b : Beat} (hsp : getSp s j = some sp) (ho : findOpen sp b.tag = some o) :
    ∃ y, getSp (addBigSp s j 2 (tapBytes sp)) j = some y ∧ findOpen y (dStag o.dsc) = some o := by
  obtain ⟨y, hy, r⟩ := (addBigSp_sp (SpKeeps.rfl_ (i := some j) (m := [.big]) s) j 2 (tapBytes sp) (covers_own j) (List.Subset.refl _)).getSp_some hsp
  obtain ⟨-, -, tag⟩ := findOpen_spec ho
  exact ⟨y, hy, by rw [findOpen, r.same .ops (by decide), tag]; exact ho⟩

/-- With no burst of another tag held, a beat of an open operation is accepted. -/
theorem takeResult_accepted {b : Beat} (hsp : getSp s j = some sp) (hlive : tapLive s sp = true) (hft : sp.lv.ft = false)
    (hheld : ∀ x ∈ openOps sp, x.resRow.stalled = true → dStag x.dsc = b.tag) (ho : findOpen sp b.tag = some o) (c : Bool) :
    takeResult s j b c = acceptedResult (addBigSp s j 2 (tapBytes sp)) sp o b c := by
  rw [takeResult_eq hsp hlive hft, tearOthers_none (res := true) hsp hheld, resultMeans, onSp_some hsp, ho]

/-- What a CKROW beat that is left out leaves of its operation. -/
def leftOutOp (sp : Spire) (y : OpCtx) : OpCtx := { y with resBytes := y.resBytes + tapBytes sp, resRow := { y.resRow with stalled := false } }

theorem leftOut_own (hj : sp.ix = j) (hy : getSp s j = some y) (ho : findOpen y (dStag o.dsc) = some o) :
    ∃ z, getSp (leftOut s sp o) j = some z ∧ findOpen z (dStag o.dsc) = some (leftOutOp sp o) := by
  subst hj
  obtain ⟨z, hz, rz⟩ := (resume_sp (SpKeeps.rfl_ (i := some sp.ix) (m := [.cnt, .trc]) s) o true o.resRow.stalled (List.Subset.refl _)).getSp_some hy
  have found : findOpen z (dStag o.dsc) = some o := by
    rw [findOpen, rz.same .ops (by decide)]
    exact ho
  obtain ⟨-, open_, -⟩ := findOpen_spec ho
  exact ⟨_, getSp_updSp_some hz (fun x => putOpen x (dStag o.dsc) (leftOutOp sp)) fun _ => rfl, findOpen_putOpen found (leftOutOp sp) ⟨open_, rfl⟩⟩

theorem acceptedResult_leftOut {c : Bool} (h : (!o.checkable) = true ∧ c = true ∧ sp.tap.ver = 3) (s : State) (b : Beat) :
    acceptedResult s sp o b c = badRow (leftOut s sp o) sp o (resBeats sp o + 1) := by
  rw [acceptedResult_eq, if_pos h]

theorem resultTake_good {c : Bool} {b : Beat} (h : dC o.dsc = .opq ∨
    (beatTake (perBeat (dC o.dsc) (beatBits sp.tap.ver)) (dN o.dsc) (posOf o (isCkBeat sp o c)).col b.last).2 = false) : (resultTake o sp b c).2 = false := by
  unfold resultTake
  split
  · rfl
  · exact h.resolve_left ‹_›

theorem acceptedResult_cases (hj : sp.ix = j) (hy : getSp s j = some y) (ho : findOpen y (dStag o.dsc) = some o) (b : Beat) (c : Bool) :
    FoundOp j (dStag o.dsc) (fun o' => o'.uid = o.uid) (acceptedResult s sp o b c) ∨ ClosedAt j o.uid s.time.tick (acceptedResult s sp o b c) := by
  by_cases h : (!o.checkable) = true ∧ c = true ∧ sp.tap.ver = 3
  · obtain ⟨z, hz, found⟩ := leftOut_own hj hy ho
    rw [acceptedResult_leftOut h]
    exact .inl (badRow_open (P := fun o' => o'.uid = o.uid) (fun h => h) hz found rfl hj (.inl (by simpa using h.1)) _)
  · obtain ⟨o', run⟩ := acceptedResult_row h s b
    obtain ⟨z, x, hz, hx, core⟩ := resultRow_found hj hy ho b c (resultTake o sp b c).2 o'
    obtain ⟨uid, dsc, -⟩ := core_eq core
    have tick : (resultRowEnds (resultTaken s sp o b c) sp o o' b c (resultTake o sp b c).2).time.tick = s.time.tick := resultRow_same s sp o o' b c _ .tick (by decide)
    rw [run]
    generalize resultRowEnds (resultTaken s sp o b c) sp o o' b c (resultTake o sp b c).2 = u at *
    split
    · rw [hj, resultRowBad, onSp_some hz, hx]
      have ends := badRow_cases (s := u) (sp := z) hz (by rw [dsc]; exact hx) (getSp_ix hz) (resBeats z x)
      rwa [dsc, uid, tick] at ends
    · exact .inl ⟨z, x, hz, hx, uid⟩

/-- A result beat leaves the levels and the tap. -/
theorem acceptedResult_sp (h : SpKeeps (some j) resultFields s u) (hj : sp.ix = j) (o : OpCtx) (b : Beat) (c : Bool) :
    SpKeeps (some j) resultFields s (acceptedResult u sp o b c) := by
  rw [acceptedResult_eq]
  have ends := resultRowEnds_sp (resultTaken_sp h hj o b c) hj o (resultCtx (opEnv u sp o.dsc) sp o b (isCkBeat sp o c) (resultTake o sp b c).1).o b c (resultTake o sp b c).2
  have out : SpKeeps (some j) resultFields s (leftOut u sp o) := by
    subst hj
    exact (resume_sp h o true o.resRow.stalled (by decide)).updSp sp.ix _ [.ops] (fun _ => rfl) (covers_own _) (by decide)
  split
  · exact badRow_sp (SpKeeps.rfl_ s) out hj o _
  · dsimp only
    split
    · unfold resultRowBad onSp
      split
      · dsimp only
        split
        · exact badRow_sp (SpKeeps.rfl_ s) ends ((getSp_ix ‹_›).trans hj) _ _
        · exact ends
      · exact ends
    · exact ends

/-! ### Result beats and TT_RES_END as commands -/

/-- The state to which a command goes after a beat, with the frame of result beats. -/
structure BeatFrame (j : Nat) (s t : State) : Prop where
  others : ∀ i, i ≠ j → getSp t i = getSp s i
  ops : t.ops = s.ops
  bytes : t.cistern.data = s.cistern.data

theorem resultBeat_run {b : Beat} (hsp : getSp s j = some sp) (hlive : tapLive s sp = true) (hft : sp.lv.ft = false)
    (hheld : ∀ x ∈ openOps sp, x.resRow.stalled = true → dStag x.dsc = b.tag) (ho : findOpen sp b.tag = some o) (c : Bool) :
    exec (.resultBeat j b c) s = .next (acceptedResult (addBigSp s j 2 (tapBytes sp)) sp o b c) ∧
      BeatFrame j s (acceptedResult (addBigSp s j 2 (tapBytes sp)) sp o b c) := by
  obtain ⟨t, run, keeps⟩ := execResultBeat_keeps j b c (Keeps.rfl_ _ s) (List.Subset.refl _)
  have closed : exec (.resultBeat j b c) s = .next (acceptedResult (addBigSp s j 2 (tapBytes sp)) sp o b c) :=
    congrArg Host.Outcome.next (takeResult_accepted hsp hlive hft hheld ho c)
  obtain rfl := Host.Outcome.next.inj (closed.symm.trans run)
  exact ⟨closed, (acceptedResult_beat (addBigSp_beat (BeatKept.rfl_ j s) 2 _) (getSp_ix hsp) o b c).others, keeps.same .ops (by decide), keeps.same.bytes_eq.1⟩

/-- What TT_RES_END does after its beat. -/
def endMeans (s : State) (j : Nat) (b : Beat) : State :=
  onSp s j fun sp =>
    if !tapLive s sp ∨ sp.lv.ft then s
    else match findOpen sp b.tag with
      | some o => endResult s sp o
      | none => s

/-- After a beat that left its operation open or closed it, TT_RES_END leaves it closed at this tick. -/
theorem endMeans_closes {uid : Nat} {b : Beat} (hx : getSp u j = some x) (hlive : tapLive u x = true) (hft : x.lv.ft = false)
    (h : FoundOp j b.tag (fun o' => o'.uid = uid) u ∨ ClosedAt j uid u.time.tick u) :
    ClosedAt j uid u.time.tick (endMeans u j b) := by
  have run : endMeans u j b = match findOpen x b.tag with
      | some o => endResult u x o
      | none => u := (onSp_some hx _).trans (if_neg (by rw [hlive, hft]; decide))
  obtain ⟨z, o, hz, ho, hu⟩ | ⟨z, o, hz, ho, hu, cl, tick, all⟩ := h
  · obtain rfl := Option.some.inj (hz.symm.trans hx)
    rw [ho] at run
    obtain ⟨y, hy, ends⟩ := endResult_ends (getSp_ix hx) hx o
    obtain ⟨o', ho', uid', cl, tick⟩ := ends.ends ⟨o, (findOpen_spec ho).1, rfl⟩
    exact ⟨y, o', by rw [run]; exact hy, ho', uid'.trans hu, cl, tick, fun q hq hqu => ends.closed q hq (hqu.trans hu.symm)⟩
  · obtain rfl := Option.some.inj (hz.symm.trans hx)
    cases hf : findOpen z b.tag with
    | none =>
      rw [hf] at run
      exact ⟨z, o, by rw [run]; exact hz, ho, hu, cl, tick, all⟩
    | some q =>
      rw [hf] at run
      obtain ⟨mem, open_, -⟩ := findOpen_spec hf
      have ne : q.uid ≠ uid := fun e => by
        rw [all q mem e] at open_
        cases open_
      obtain ⟨y, hy, ends⟩ := endResult_ends (getSp_ix hz) hz q
      exact ⟨y, o, by rw [run]; exact hy, ends.out o ho (hu.trans_ne ne.symm), hu, cl, tick, fun w hw hwu => all w (ends.back w hw (hwu.trans_ne ne.symm)) hwu⟩

theorem endMeans_beat (h : BeatKept j s u) (b : Beat) : BeatKept j s (endMeans u j b) := by
  refine h.onSp fun x hx => ?_
  split
  · exact h
  · split
    · exact endResult_beat h (getSp_ix hx) _
    · exact h

theorem ttResEnd_effect {b : Beat} (hsp : getSp s j = some sp) (hlive : tapLive s sp = true) (hft : sp.lv.ft = false)
    (hheld : ∀ x ∈ openOps sp, x.resRow.stalled = true → dStag x.dsc = b.tag) (ho : findOpen sp b.tag = some o) (c : Bool) :
    ∃ t, exec (.ttResEnd j b c) s = .next t ∧ ClosedAt j o.uid s.time.tick t ∧ BeatFrame j s t := by
  obtain ⟨t, run, keeps⟩ := execTtResEnd_keeps j b c (Keeps.rfl_ _ s) (List.Subset.refl _)
  have closed : exec (.ttResEnd j b c) s = .next (endMeans (acceptedResult (addBigSp s j 2 (tapBytes sp)) sp o b c) j b) := by
    change execTtResEnd j b c s = _
    unfold execTtResEnd
    rw [takeResult_accepted hsp hlive hft hheld ho c]
    rfl
  obtain rfl := Host.Outcome.next.inj (closed.symm.trans run)
  obtain ⟨y, hy, found⟩ := resultCounted hsp ho
  obtain ⟨-, -, tag⟩ := findOpen_spec ho
  have added : Same [.spires] s (addBigSp s j 2 (tapBytes sp)) := (addBigSp_keeps j 2 _ (Keeps.rfl_ _ s) (List.Subset.refl _)).same
  have cases_ := acceptedResult_cases (getSp_ix hsp) hy found b c
  have keptSp := acceptedResult_sp (addBigSp_sp (SpKeeps.rfl_ (i := some j) (m := resultFields) s) j 2 (tapBytes sp) (covers_own j) (by decide)) (getSp_ix hsp) o b c
  have keptBeat := acceptedResult_beat (addBigSp_beat (BeatKept.rfl_ j s) 2 (tapBytes sp)) (getSp_ix hsp) o b c
  have keptAll : Same [.alert, .inputs, .cistern, .parts, .spires, .caravan, .records, .early, .near, .trc, .rng] s (acceptedResult (addBigSp s j 2 (tapBytes sp)) sp o b c) := by
    obtain ⟨t, ran, ks⟩ := execResultBeat_keeps j b c (Keeps.rfl_ _ s) (List.Subset.refl _)
    obtain rfl := Host.Outcome.next.inj ((resultBeat_run hsp hlive hft hheld ho c).1.symm.trans ran)
    exact ks.same
  rw [added .tick (by decide), tag] at cases_
  generalize acceptedResult (addBigSp s j 2 (tapBytes sp)) sp o b c = u at *
  have tick : u.time.tick = s.time.tick := keptAll .tick (by decide)
  rw [← tick] at cases_ ⊢
  obtain ⟨z, hz, rz⟩ := keptSp.getSp_some hsp
  have live : tapLive u z = true := by
    rw [tapLive, rz.same .tap (by decide), getSp_ix hz, getTile_of_tiles (keptAll .tiles (by decide)), ← getSp_ix hsp]
    exact hlive
  exact ⟨_, closed, endMeans_closes hz live ((congrArg Levels.ft (rz.same .lv (by decide) :)).trans hft) cases_,
    (endMeans_beat keptBeat b).others, keeps.same .ops (by decide), keeps.same.bytes_eq.1⟩

end

/-- Settles O11: result beats of an open operation, rows of a wrong length, and TT_RES_END. -/
theorem resultBeats : Obligations.ResultBeats := by
  unfold Obligations.ResultBeats
  refine ⟨?_, ?_, ?_, ?_⟩
  · intro s j sp b c o hsp hlive hft hheld ho hck hrow
    obtain ⟨run, frame⟩ := resultBeat_run hsp hlive hft hheld ho c
    obtain ⟨y, hy, found⟩ := resultCounted hsp ho
    have kept : ¬ ((!o.checkable) = true ∧ c = true ∧ sp.tap.ver = 3) := by
      rintro ⟨nc, hc, hv⟩
      obtain h | h | h := hck
      · rw [h] at nc
        cases nc
      · rw [h] at hc
        cases hc
      · rw [h] at hv
        exact absurd hv (by decide)
    obtain ⟨z, o', hz, found', uid, bytes⟩ := acceptedResult_open (getSp_ix hsp) hy found kept (hrow.imp_right resultTake_good)
    rw [(findOpen_spec ho).2.2] at found'
    exact ⟨_, z, o', run, hz, found', uid, bytes, frame.others, frame.ops, frame.bytes⟩
  · intro s j sp b o hsp hlive hft hheld ho hc hv hb
    obtain ⟨run, frame⟩ := resultBeat_run hsp hlive hft hheld ho true
    obtain ⟨y, hy, found⟩ := resultCounted hsp ho
    obtain ⟨z, hz, left⟩ := leftOut_own (getSp_ix hsp) hy found
    rw [acceptedResult_leftOut ⟨by rw [hc]; rfl, rfl, hv⟩, badRow_eq (getSp_ix hsp) hb, hc, if_neg Bool.false_ne_true] at run frame
    obtain ⟨w, hw, viol, marked, -⟩ := badRowMarked_own hz left (resBeats sp o + 1)
    rw [(findOpen_spec ho).2.2] at marked
    exact ⟨_, w, _, run, hw, marked, rfl, rfl, rfl, rfl, rfl, viol, frame.others, frame.ops, frame.bytes⟩
  · intro s j sp b c o hsp hlive hft hheld ho hc hb hf hrow
    obtain ⟨run, frame⟩ := resultBeat_run hsp hlive hft hheld ho c
    obtain ⟨y, hy, found⟩ := resultCounted hsp ho
    have tick : (addBigSp s j 2 (tapBytes sp)).time.tick = s.time.tick := (addBigSp_keeps j 2 _ (Keeps.rfl_ _ s) (List.Subset.refl _)).same .tick (by decide)
    obtain ⟨z, o', hz, viol, ho', uid, cl, cs, et⟩ := acceptedResult_closes (getSp_ix hsp) hy found (b := b) (c := c) hc hb (by rw [resultTake, if_neg hf]; exact hrow)
    exact ⟨_, z, o', run, hz, ho', uid, cl, cs, et.trans tick, viol, frame.others, frame.ops, frame.bytes⟩
  · intro s j sp b c o hsp hlive hft hheld ho
    obtain ⟨t, run, ⟨z, o', hz, ho', uid, cl, tick, all⟩, frame⟩ := ttResEnd_effect hsp hlive hft hheld ho c
    exact ⟨t, z, o', run, hz, ho', uid, cl, tick, all, frame.others, frame.ops, frame.bytes⟩

end Sys2Proof.Machine
end

section
/-! The s-accumulators of an operand beat (R120, R121, R130). -/

set_option Elab.async false

namespace Sys2Proof.Machine

/-! ### The s-accumulators of an operand beat (R120, R121, R130) -/

/-- What an element gives the s-accumulator of its K position under a window: its floor within it, a saturated term above it. -/
def sTerm (w : Int) : XVal → Int
  | .fin neg m x => if m = 0 then 0 else if overWindow w m x then satW neg / 2 ^ 38 else floorTo neg m x (w - 66)
  | _ => 0

/-- The element `i` of an operand beat, as the contract reads it. -/
def operandElem (e : OpEnv) (f : Fmt) (b : Beat) (i : Nat) : XVal := decodeInput f (ctrDaz e.ctr) (ctrFzPos e.ctr) (elemOf f b.data i) (sclOf b.scl (i / 32))

/-- Elements of one beat after another in a pass. -/
def operandElemStep (e : OpEnv) (f : Fmt) (len : Nat) (b : Beat) (col : Nat) (a : OpaAcc) (i : Nat) : OpaAcc :=
  if (col + i) % 32 = 31 ∨ col + i + 1 = len then opaBlockEnd (opaElem a (col + i) (operandElem e f b i)) else opaElem a (col + i) (operandElem e f b i)

theorem opaBeat_eq (e : OpEnv) (f : Fmt) (len : Nat) (b : Beat) (n : Nat) (a : OpaAcc) :
    opaBeat e f len b n a = (List.range n).foldl (operandElemStep e f len b a.ps.pos.col) a := rfl

/-- One term is added to one accumulator, and the others stand. -/
structure AddsAt (k : Nat) (x : Int) (l l' : List Int) : Prop where
  length : l'.length = l.length
  at_ : ∀ j, j < l.length → l'.getD j 0 = l.getD j 0 + if j = k then x else 0

theorem addsAt_updAt (k : Nat) (x : Int) (l : List Int) : AddsAt k x l (updAt l k (· + x)) where
  length := length_updAt _ _ _
  at_ j hj := by
    by_cases h : j = k
    · subst h
      rw [updAt_getD_self _ _ _ _ hj, if_pos rfl]
    · rw [updAt_getD_ne _ _ _ h, if_neg h, Int.add_zero]

theorem addsAt_none (k : Nat) (l : List Int) : AddsAt k 0 l l := ⟨rfl, fun j _ => by rw [ite_self, Int.add_zero]⟩

theorem opaElem_placed {a : OpaAcc} {w : Int} (h : a.ps.top = some w) (k : Nat) (v : XVal) :
    (opaElem a k v).ps.top = some w ∧ (opaElem a k v).ps.tag = a.ps.tag ∧ AddsAt k (sTerm w v) a.ps.acc (opaElem a k v).ps.acc := by
  cases v with
  | fin n m e =>
    unfold opaElem sTerm
    dsimp only
    split
    · exact ⟨h, rfl, addsAt_none k _⟩
    · rw [h]
      dsimp only
      unfold opaPut
      split
      · exact ⟨h, rfl, addsAt_updAt k _ _⟩
      · exact ⟨h, rfl, addsAt_updAt k _ _⟩
  | inf n => exact ⟨h, rfl, addsAt_none k _⟩
  | nan => exact ⟨h, rfl, addsAt_none k _⟩

/-- A window that is placed stays, whatever blocks end. -/
theorem opaBlockEnd_placed {a : OpaAcc} {w : Int} (h : a.ps.top = some w) : opaBlockEnd a = a := by
  unfold opaBlockEnd
  rw [h]

theorem operandElemStep_placed {a : OpaAcc} {w : Int} (h : a.ps.top = some w) (e : OpEnv) (f : Fmt) (len : Nat) (b : Beat) (col i : Nat) :
    operandElemStep e f len b col a i = opaElem a (col + i) (operandElem e f b i) := by
  unfold operandElemStep
  rw [opaBlockEnd_placed (opaElem_placed h _ _).1, ite_self]

/-- Under a placed window each element of a beat adds its term to its own accumulator. -/
theorem opaBeat_placed {a : OpaAcc} {w : Int} (h : a.ps.top = some w) (e : OpEnv) (f : Fmt) (len : Nat) (b : Beat) (n : Nat) :
    (opaBeat e f len b n a).ps.top = some w ∧ (opaBeat e f len b n a).ps.tag = a.ps.tag ∧ (opaBeat e f len b n a).ps.acc.length = a.ps.acc.length ∧
      ∀ k, k < a.ps.acc.length → (opaBeat e f len b n a).ps.acc.getD k 0 = a.ps.acc.getD k 0 +
        if a.ps.pos.col ≤ k ∧ k < a.ps.pos.col + n then sTerm w (operandElem e f b (k - a.ps.pos.col)) else 0 := by
  rw [opaBeat_eq]
  generalize a.ps.pos.col = col
  induction n with
  | zero => exact ⟨h, rfl, rfl, fun k _ => by rw [if_neg (by omega), Int.add_zero]; rfl⟩
  | succ n ih =>
    rw [List.range_succ, List.foldl_append]
    obtain ⟨top, tag, length, acc⟩ := ih
    generalize (List.range n).foldl (operandElemStep e f len b col) a = c at top tag length acc
    obtain ⟨top', tag', adds⟩ := opaElem_placed top (col + n) (operandElem e f b n)
    rw [List.foldl_cons, List.foldl_nil, operandElemStep_placed top]
    refine ⟨top', tag'.trans tag, adds.length.trans length, fun k hk => ?_⟩
    rw [adds.at_ k (hk.trans_eq length.symm), acc k hk, Int.add_assoc]
    congr 1
    by_cases hn : k = col + n
    · subst hn
      rw [if_neg (by omega), if_pos rfl, if_pos (by omega), Int.zero_add, Nat.add_sub_cancel_left]
    · rw [if_neg hn, Int.add_zero]
      exact if_congr (by omega) rfl rfl

/-- With no window placed an element waits or taints, and no accumulator changes. -/
theorem opaElem_waiting {a : OpaAcc} (h : a.ps.top = none) (k : Nat) (v : XVal) :
    (opaElem a k v).ps.top = none ∧ (opaElem a k v).ps.tag = a.ps.tag ∧ (opaElem a k v).ps.acc = a.ps.acc := by
  cases v with
  | fin n m e =>
    unfold opaElem
    dsimp only
    split
    · exact ⟨h, rfl, rfl⟩
    · rw [h]
      exact ⟨rfl, rfl, rfl⟩
  | inf n => exact ⟨h, rfl, rfl⟩
  | nan => exact ⟨h, rfl, rfl⟩

theorem opaBeat_waiting {a : OpaAcc} (h : a.ps.top = none) (e : OpEnv) (f : Fmt) (len : Nat) (b : Beat) (n : Nat)
    (hb : ∀ i, i < n → (a.ps.pos.col + i) % 32 ≠ 31 ∧ a.ps.pos.col + i + 1 ≠ len) :
    (opaBeat e f len b n a).ps.top = none ∧ (opaBeat e f len b n a).ps.acc = a.ps.acc := by
  rw [opaBeat_eq]
  generalize a.ps.pos.col = col at hb
  refine List.foldlRecOn (motive := fun c : OpaAcc => c.ps.top = none ∧ c.ps.acc = a.ps.acc) _ _ ⟨h, rfl⟩ fun c hc i hi => ?_
  obtain ⟨h1, h2⟩ := hb i (List.mem_range.1 hi)
  obtain ⟨top, -, acc⟩ := opaElem_waiting hc.1 (col + i) (operandElem e f b i)
  rw [operandElemStep, if_neg (not_or.2 ⟨h1, h2⟩)]
  exact ⟨top, acc.trans hc.2⟩

/-! Whatever the window, a beat leaves the pass's tag and the number of its accumulators. -/

/-- The tag of a pass and the number of its s-accumulators. -/
def passShape (p : PassSt) : W16 × Nat := (p.tag, p.acc.length)

theorem opaElem_shape (a : OpaAcc) (k : Nat) (v : XVal) : passShape (opaElem a k v).ps = passShape a.ps := by
  cases h : a.ps.top with
  | none =>
    obtain ⟨-, tag, acc⟩ := opaElem_waiting h k v
    rw [passShape, tag, acc]
    rfl
  | some w =>
    obtain ⟨-, tag, adds⟩ := opaElem_placed h k v
    rw [passShape, tag, adds.length]
    rfl

theorem opaPutV_shape (top : Int) (a : OpaAcc) (k : Nat) (v : XVal) : passShape (opaPutV top a k v).ps = passShape a.ps := by
  unfold opaPutV
  split
  · split
    · rfl
    · unfold opaPut
      split
      · exact congrArg (Prod.mk a.ps.tag) (length_updAt _ _ _)
      · exact congrArg (Prod.mk a.ps.tag) (length_updAt _ _ _)
  · rfl

theorem opaBlockEnd_shape (a : OpaAcc) : passShape (opaBlockEnd a).ps = passShape a.ps := by
  unfold opaBlockEnd
  split
  · exact List.foldlRecOn (motive := fun c : OpaAcc => passShape c.ps = passShape a.ps) _ _ rfl fun c hc x _ => (opaPutV_shape _ c x.1 x.2).trans hc
  · rfl

theorem opaBeat_shape (e : OpEnv) (f : Fmt) (len : Nat) (b : Beat) (n : Nat) (a : OpaAcc) : passShape (opaBeat e f len b n a).ps = passShape a.ps := by
  rw [opaBeat_eq]
  refine List.foldlRecOn (motive := fun c : OpaAcc => passShape c.ps = passShape a.ps) _ _ rfl fun c hc i _ => ?_
  have elem := (opaElem_shape c (a.ps.pos.col + i) (operandElem e f b i)).trans hc
  unfold operandElemStep
  split
  · exact (opaBlockEnd_shape _).trans elem
  · exact elem

end Sys2Proof.Machine
end

section
/-! Operand beats that enter their operation (R55, R57, R130, R288). -/

set_option Elab.async false

namespace Sys2Proof.Machine

/-! ### Operand beats that enter their operation (R55, R57, R130, R288) -/

/-- How a beat of an operation that is not checkable falls on its row. -/
def plainTake (sp : Spire) (o : OpCtx) (b : Beat) : Nat × Bool :=
  beatTake (perBeat (dA o.dsc) (beatBits sp.tap.ver)) (dPassLen o.dsc o.passesDone) o.opRow.col b.last

/-- An operation that is not checkable, with a beat of so many bytes. -/
def plainOp (e : OpEnv) (sp : Spire) (o : OpCtx) (b : Beat) (bytes : Nat) (y : OpCtx) : OpCtx :=
  let done := b.last && o.opRow.row + 1 == dMt o.dsc
  let n := (plainTake sp o b).1
  { y with
    opBytes := y.opBytes + bytes
    passesDone := if done then y.passesDone + 1 else y.passesDone
    opRow := { y.opRow with
      row := if done then 0 else if b.last then y.opRow.row + 1 else y.opRow.row
      col := if b.last then 0 else y.opRow.col + n, beats := y.opRow.beats + 1, stalled := false }
    dig := digOperand e y.dig (if dA o.dsc = .opq then beatBytes sp.tap.ver b.data else beatElemBytes (dA o.dsc) b n)
      (if dA o.dsc = .opq then [] else beatScales (dA o.dsc) b n) b.last }

/-- A beat of an operation that is not checkable has entered it. -/
def plainTaken (s : State) (sp : Spire) (o : OpCtx) (b : Beat) : State :=
  updSp (resume s sp.ix o false o.opRow.stalled) sp.ix fun x => putOpen x (dStag o.dsc) (plainOp (opEnv s sp o.dsc) sp o b (tapBytes x))

theorem plainOperand_eq (s : State) (sp : Spire) (o : OpCtx) (b : Beat) : plainOperand s sp o b =
    if dA o.dsc ≠ .opq ∧ (o.passesDone ≥ dPasses o.dsc ∨ (plainTake sp o b).2 = true) then badPass s sp.ix o (opaBeats sp o + 1)
    else traceRow (plainTaken s sp o b) sp.ix o b.last (b.last && o.opRow.row + 1 == dMt o.dsc) := rfl

/-- The pass that a beat of a checkable operation enters. -/
def passAt (sp : Spire) (o : OpCtx) : PassSt := sp.pass.getD (newPass o.dsc o.passesDone)

/-- How a beat of a checkable operation falls on its row. -/
def screenTake (sp : Spire) (o : OpCtx) (b : Beat) : Nat × Bool :=
  beatTake (perBeat (dA o.dsc) (beatBits sp.tap.ver)) (dPassLen o.dsc o.passesDone) (passAt sp o).pos.col b.last

/-- The pass of a checkable operation with the elements of a beat. -/
def screenAcc (e : OpEnv) (sp : Spire) (o : OpCtx) (b : Beat) : OpaAcc :=
  opaBeat e (dA o.dsc) (dPassLen o.dsc o.passesDone) b (screenTake sp o b).1 ⟨passAt sp o, false, 0, 0⟩

/-- The pass has its last row. -/
def passDone (sp : Spire) (o : OpCtx) (b : Beat) : Bool := b.last && (passAt sp o).pos.row + 1 == dMt o.dsc

/-- The pass of a checkable operation after a beat. -/
def screenPass (e : OpEnv) (sp : Spire) (o : OpCtx) (b : Beat) : PassSt :=
  let a := screenAcc e sp o b
  { a.ps with
    pos := if b.last then { a.ps.pos with row := (passAt sp o).pos.row + 1, col := 0, beats := a.ps.pos.beats + 1 }
      else { a.ps.pos with col := (passAt sp o).pos.col + (screenTake sp o b).1, beats := a.ps.pos.beats + 1 }
    ended := passDone sp o b }

/-- A checkable operation, with a beat of so many bytes. -/
def screenOp (e : OpEnv) (sp : Spire) (o : OpCtx) (b : Beat) (bytes : Nat) (y : OpCtx) : OpCtx :=
  let a := screenAcc e sp o b
  let n := (screenTake sp o b).1
  { y with
    floorEv := y.floorEv || (a.floor && e.cls != some .integer), optaint := y.optaint || !a.ps.taint.isEmpty
    caps := y.caps.map (capOperand (passAt sp o).pos.row ((List.range n).map (elemOf (dA o.dsc) b.data)) (beatScales (dA o.dsc) b n))
    opBytes := y.opBytes + bytes
    opRow := { y.opRow with stalled := false, beats := y.opRow.beats + 1 }
    dig := digOperand e y.dig (beatElemBytes (dA o.dsc) b n) (beatScales (dA o.dsc) b n) b.last }

/-- The Spire with a beat of a checkable operation. -/
def screenPut (e : OpEnv) (sp : Spire) (o : OpCtx) (b : Beat) (x : Spire) : Spire :=
  putOpen { x with pass := some (screenPass e sp o b) } (dStag o.dsc) (screenOp e sp o b (tapBytes x))

/-- A beat of a checkable operation has entered its pass. -/
def screenTaken (s : State) (sp : Spire) (o : OpCtx) (b : Beat) : State :=
  let a := screenAcc (opEnv s sp o.dsc) sp o b
  spCount (spCount (updSp (resume s sp.ix o false o.opRow.stalled) sp.ix (screenPut (opEnv s sp o.dsc) sp o b)) sp.ix kOvr a.ovr) sp.ix kNonfin a.nonfin

/-- The captures of a row that has ended leave. -/
def screenFlushed (s : State) (sp : Spire) (o : OpCtx) (b : Beat) : State :=
  let n := (screenTake sp o b).1
  if b.last then
    (o.caps.filter fun k => k.row == (passAt sp o).pos.row && !k.dropped).foldl
      (fun s k => flushFragment s sp.ix o.uid (dA o.dsc)
        (capOperand (passAt sp o).pos.row ((List.range n).map (elemOf (dA o.dsc) b.data)) (beatScales (dA o.dsc) b n) k)) s
  else s

theorem screenOperand_eq (s : State) (sp : Spire) (o : OpCtx) (b : Beat) : screenOperand s sp o b =
    if o.passesDone ≥ dPasses o.dsc then badPass s sp.ix o (opaBeats sp o + 1)
    else if (passAt sp o).ended then
      closeOpEarly (tapViol s .contractviol sp.ix (some o.dsc) 0x21 (dStag o.dsc) (opaBeats sp o + 1)) sp.ix o .contract
    else if (screenTake sp o b).2 then badPass s sp.ix o (opaBeats sp o + 1)
    else traceRow (screenFlushed (screenTaken s sp o b) sp o b) sp.ix o b.last (passDone sp o b) := rfl

section
variable {s u : State} {j : Nat} {sp y : Spire} {o : OpCtx} {m : List SpFld}

theorem traceRow_sp (h : SpKeeps (some j) m s u) (o : OpCtx) (last done : Bool) (hm : [.cnt, .trc] ⊆ m) : SpKeeps (some j) m s (traceRow u j o last done) := by
  have ended : SpKeeps (some j) m s (if last then trace (cycles u).2 j 0x20 true o.late (dStag o.dsc) (dLayer o.dsc) (dOper o.dsc) (cycles u).1 else u) := by
    split
    · exact trace_sp (h.of_same (cycles_same u)) _ _ _ _ _ _ _ _ (covers_own j) hm
    · exact h
  unfold traceRow
  dsimp only
  split
  · exact trace_sp ended _ _ _ _ _ _ _ _ (covers_own j) hm
  · exact ended

/-- The fields of a Spire that a fragment that leaves changes. -/
def fragmentFields : List SpFld := [.ops, .staging, .big, .witSent, .witGrants]

theorem flushFragment_sp (h : SpKeeps (some j) m s u) (uid : Nat) (f : Fmt) (k : Capture) (hm : fragmentFields ⊆ m) :
    SpKeeps (some j) m s (flushFragment u j uid f k) := by
  have mark (n : Nat) (g : Capture → Capture) (drop : Bool) : SpKeeps (some j) m s (updSp u j fun sp => { sp with
      staging := if drop then sp.staging else sp.staging + n, ops := sp.ops.map fun o => if o.uid = uid then { o with caps := o.caps.map g } else o }) :=
    h.updSp j _ [.staging, .ops] (fun _ => rfl) (covers_own j) (List.Subset.trans (by decide) hm)
  have ite {c : Prop} [Decidable c] {a b : State} (ha : SpKeeps (some j) m s a) (hb : SpKeeps (some j) m s b) : SpKeeps (some j) m s (if c then a else b) := by
    split
    · exact ha
    · exact hb
  unfold flushFragment onSp
  split
  · refine ite (send_sp ?_ _ (covers_own j) (List.Subset.trans (by decide) hm)) (send_sp ?_ _ (covers_own j) (List.Subset.trans (by decide) hm))
    · exact mark _ _ false
    · exact mark _ _ true
  · exact h

theorem tapBytes_of_tap {x y : Spire} (h : y.tap = x.tap) : tapBytes x = tapBytes y := by rw [tapBytes, tapBytes, h]

/-- The open operation of the beat, with the beat, and its row traced. -/
theorem plainOperand_own (hj : sp.ix = j) (hy : getSp s j = some y) (ho : findOpen y (dStag o.dsc) = some o) {b : Beat}
    (h : ¬ (dA o.dsc ≠ .opq ∧ (o.passesDone ≥ dPasses o.dsc ∨ (plainTake sp o b).2 = true))) :
    ∃ z, getSp (plainOperand s sp o b) j = some z ∧ findOpen z (dStag o.dsc) = some (plainOp (opEnv s sp o.dsc) sp o b (tapBytes y) o) := by
  subst hj
  obtain ⟨w, hw, rw_⟩ := (resume_sp (SpKeeps.rfl_ (i := some sp.ix) (m := [.cnt, .trc]) s) o false o.opRow.stalled (List.Subset.refl _)).getSp_some hy
  have found : findOpen w (dStag o.dsc) = some o := by
    rw [findOpen, rw_.same .ops (by decide)]
    exact ho
  obtain ⟨-, open_, -⟩ := findOpen_spec ho
  have put := getSp_updSp_some hw (fun x => putOpen x (dStag o.dsc) (plainOp (opEnv s sp o.dsc) sp o b (tapBytes x))) fun _ => rfl
  obtain ⟨z, hz, rz⟩ := (traceRow_sp (SpKeeps.rfl_ (i := some sp.ix) (m := [.cnt, .trc]) (plainTaken s sp o b)) o b.last (b.last && o.opRow.row + 1 == dMt o.dsc)
    (List.Subset.refl _)).getSp_some put
  refine ⟨z, by rw [plainOperand_eq, if_neg h]; exact hz, ?_⟩
  rw [findOpen, rz.same .ops (by decide), tapBytes_of_tap (rw_.same .tap (by decide) :)]
  exact findOpen_putOpen found (plainOp (opEnv s sp o.dsc) sp o b (tapBytes w)) ⟨open_, rfl⟩

theorem plainOperand_same {b : Beat} (h : ¬ (dA o.dsc ≠ .opq ∧ (o.passesDone ≥ dPasses o.dsc ∨ (plainTake sp o b).2 = true))) (s : State) :
    Same [.spires, .rng] s (plainOperand s sp o b) := by
  rw [plainOperand_eq, if_neg h]
  exact (traceRow_keeps _ _ _ _ (updSp_keeps _ _ (resume_keeps _ _ _ _ (Keeps.rfl_ _ s) (List.Subset.refl _)) (by decide)) (by decide)).same

/-- The pass that a beat has entered stands at its Spire. -/
theorem screenOperand_own (hj : sp.ix = j) (hy : getSp s j = some y) {b : Beat} (hdone : ¬ o.passesDone ≥ dPasses o.dsc) (hended : (passAt sp o).ended = false)
    (htake : (screenTake sp o b).2 = false) : ∃ z, getSp (screenOperand s sp o b) j = some z ∧ z.pass = some (screenPass (opEnv s sp o.dsc) sp o b) := by
  subst hj
  obtain ⟨w, hw, -⟩ := (resume_sp (SpKeeps.rfl_ (i := some sp.ix) (m := [.cnt, .trc]) s) o false o.opRow.stalled (List.Subset.refl _)).getSp_some hy
  have put := getSp_updSp_some hw (screenPut (opEnv s sp o.dsc) sp o b) fun _ => rfl
  have counts (v : State) (p q : Nat) : SpKeeps (some sp.ix) (.cnt :: .trc :: fragmentFields) v (spCount (spCount v sp.ix kOvr p) sp.ix kNonfin q) :=
    spCount_sp (spCount_sp (SpKeeps.rfl_ v) sp.ix kOvr p (covers_own _) (by decide)) sp.ix kNonfin q (covers_own _) (by decide)
  have flushed {v x : State} (h : SpKeeps (some sp.ix) (.cnt :: .trc :: fragmentFields) v x) :
      SpKeeps (some sp.ix) (.cnt :: .trc :: fragmentFields) v (screenFlushed x sp o b) := by
    unfold screenFlushed
    dsimp only
    split
    · exact SpKeeps.foldl (fun v k hv => flushFragment_sp hv _ _ _ (by decide)) h _
    · exact h
  obtain ⟨z, hz, rz⟩ := (traceRow_sp (flushed (counts _ (screenAcc (opEnv s sp o.dsc) sp o b).ovr (screenAcc (opEnv s sp o.dsc) sp o b).nonfin)) o b.last (passDone sp o b)
    (by decide)).getSp_some put
  refine ⟨z, ?_, (rz.same .pass (by decide) :)⟩
  rw [screenOperand_eq, if_neg hdone, hended, if_neg Bool.false_ne_true, htake, if_neg Bool.false_ne_true]
  exact hz

theorem screenOperand_same {b : Beat} (hdone : ¬ o.passesDone ≥ dPasses o.dsc) (hended : (passAt sp o).ended = false) (htake : (screenTake sp o b).2 = false) (s : State) :
    Same [.spires, .rng, .caravan] s (screenOperand s sp o b) := by
  have taken : Keeps [.spires, .rng, .caravan] s (screenTaken s sp o b) :=
    spCount_keeps _ _ _ (spCount_keeps _ _ _ (updSp_keeps _ _ (resume_keeps _ _ _ _ (Keeps.rfl_ _ s) (by decide)) (by decide)) (by decide)) (by decide)
  have flushed : Keeps [.spires, .rng, .caravan] s (screenFlushed (screenTaken s sp o b) sp o b) := by
    unfold screenFlushed
    dsimp only
    split
    · exact keeps_foldl (fun v k hv => flushFragment_keeps _ _ _ _ hv (by decide)) taken
    · exact taken
  rw [screenOperand_eq, if_neg hdone, hended, if_neg Bool.false_ne_true, htake, if_neg Bool.false_ne_true]
  exact (traceRow_keeps _ _ _ _ flushed (by decide)).same

/-- A row or a pass of a wrong length closes its operation, with TAPVIOL 0x11. -/
theorem badPass_own (hy : getSp s j = some y) (hm : o ∈ y.ops) (n : Nat) :
    ∃ z, getSp (badPass s j o n) j = some z ∧ closedOp j .rows s.time.tick o ∈ z.ops ∧ z.viol = (0x11, 0x0210) := by
  obtain ⟨w, hw, viol, rw_⟩ := tapViol_own hy .tapviol (some o.dsc) 0x11 (dStag o.dsc) n
  obtain ⟨z, hz, rz⟩ := closeOpEarly_own hw o .rows
  have tick : (tapViol s .tapviol j (some o.dsc) 0x11 (dStag o.dsc) n).time.tick = s.time.tick := tapViol_same s .tapviol j (some o.dsc) 0x11 (dStag o.dsc) n .tick (by decide)
  refine ⟨_, hz, ?_, (rz.same .viol (by decide) :).trans viol⟩
  rw [shutCtx_ops, rz.same .ops (by decide), rw_.same .ops (by decide), tick]
  exact mem_shutOps_own hm rfl

end

end Sys2Proof.Machine
end

section
/-! Operand beats as commands (R55, R56, R91, R128). -/

set_option Elab.async false

namespace Sys2Proof.Machine

/-! ### Operand beats as commands (R55, R56, R91, R128) -/

/-- A beat of an open operation that nothing keeps from it: no inject slot is open, no other burst is held, and no pass of another
operation is in progress. -/
structure BeatEnters (j : Nat) (s : State) (sp : Spire) (b : Beat) (o : OpCtx) : Prop where
  own : getSp s j = some sp
  live : tapLive s sp = true
  ft : sp.lv.ft = false
  slot : sp.injSlot = none
  torn : (b.tag, false) ∉ sp.torn
  refused : b.tag ∉ sp.refused
  held : ∀ x ∈ openOps sp, x.opRow.stalled = true → dStag x.dsc = b.tag
  mid : ∀ x ∈ openOps sp, midPass x = true → dStag x.dsc = b.tag
  pass : ∀ p, sp.pass = some p → p.tag = b.tag
  found : findOpen sp b.tag = some o

/-- What a beat does that enters its operation. -/
def operandEnters (s : State) (sp : Spire) (o : OpCtx) (b : Beat) : State :=
  if !dMatmul o.dsc then s else if o.checkable then screenOperand s sp o b else plainOperand s sp o b

/-- The state that a beat finds whose bytes have been counted. -/
def operandCounted (s : State) (j : Nat) (sp : Spire) (r : Bool) : State := addBigSp (slotEnds s j r) j 0 (tapBytes sp)

section
variable {s : State} {j : Nat} {sp y : Spire} {o : OpCtx} {b : Beat}

theorem slotEnds_own (hsp : getSp s j = some sp) (hslot : sp.injSlot = none) (r : Bool) : getSp (slotEnds s j r) j = some sp := by
  unfold slotEnds
  split
  · exact hsp
  · have same : { sp with injSlot := none } = sp := by
      rw [← hslot]
    rw [getSp_updSp_some hsp (fun t => { t with injSlot := none }) fun _ => rfl, same]

theorem slotEnds_same (s : State) (j : Nat) (r : Bool) : Same [.spires] s (slotEnds s j r) := by
  unfold slotEnds
  split
  · exact (Keeps.rfl_ _ s).same
  · exact (updSp_keeps _ _ (Keeps.rfl_ _ s) (List.Subset.refl _)).same

/-- A beat of the operation whose pass is in progress interrupts nothing. -/
theorem interruptPass_none {tag : W16} (hsp : getSp s j = some sp) (hmid : ∀ x ∈ openOps sp, midPass x = true → dStag x.dsc = tag)
    (hpass : ∀ p, sp.pass = some p → p.tag = tag) : interruptPass s j tag = s := by
  have none_ : (openOps sp).filter (fun o => midPass o && dStag o.dsc != tag) = [] := List.filter_eq_nil_iff.2 fun o ho e => by
    obtain ⟨a, c⟩ := Bool.and_eq_true_iff.1 e
    exact bne_iff_ne.1 c (hmid o ho a)
  rw [interruptPass, onSp_some hsp]
  dsimp only
  rw [none_]
  split
  · next p _ hp _ => exact if_pos (hpass p hp)
  · rfl

theorem takeOperand_enters (h : BeatEnters j s sp b o) (r : Bool) : takeOperand s j b r = operandEnters (operandCounted s j sp r) sp o b := by
  have own := slotEnds_own h.own h.slot r
  rw [takeOperand_eq h.own h.live h.ft, tearOthers_none (res := false) own h.held, operandMeans, onSp_some own, if_neg (not_or.2 ⟨h.torn, h.refused⟩), h.found, h.slot,
    interruptPass_none own h.mid h.pass]
  dsimp only [Option.bind]
  rw [onSp_some own, h.found]
  rfl

theorem operandCounted_own (h : BeatEnters j s sp b o) (r : Bool) : ∃ y, getSp (operandCounted s j sp r) j = some y ∧ SpRel (some j) [.big] sp y :=
  (addBigSp_sp (SpKeeps.rfl_ (i := some j) (m := [.big]) _) j 0 (tapBytes sp) (covers_own j) (List.Subset.refl _)).getSp_some (slotEnds_own h.own h.slot r)

theorem operandCounted_same (s : State) (j : Nat) (sp : Spire) (r : Bool) : Same [.spires] s (operandCounted s j sp r) :=
  (slotEnds_same s j r).trans (addBigSp_keeps j 0 _ (Keeps.rfl_ _ _) (List.Subset.refl _)).same

theorem operandEnters_others (h : BeatEnters j s sp b o) (r : Bool) {i : Nat} (hi : i ≠ j) :
    getSp (operandEnters (operandCounted s j sp r) sp o b) i = getSp s i := by
  have counted := addBigSp_beat (slotEnds_beat (BeatKept.rfl_ j s) r) 0 (tapBytes sp)
  exact (beat_ite counted (beat_ite (screenOperand_beat counted (getSp_ix h.own) o b) (plainOperand_beat counted (getSp_ix h.own) o b))).others i hi

/-- The open operation that a beat finds. -/
theorem BeatEnters.at_ (h : BeatEnters j s sp b o) (hy : SpRel (some j) [.big] sp y) : findOpen y (dStag o.dsc) = some o := by
  obtain ⟨-, -, tag⟩ := findOpen_spec h.found
  rw [findOpen, hy.same .ops (by decide), tag]
  exact h.found

/-- A beat of an open MATMUL that is not checkable adds its bytes to it. -/
theorem plainBeat_effect (h : BeatEnters j s sp b o) (hm : dMatmul o.dsc = true) (hc : o.checkable = false)
    (hrow : ¬ (dA o.dsc ≠ .opq ∧ (o.passesDone ≥ dPasses o.dsc ∨ (plainTake sp o b).2 = true))) (r : Bool) :
    ∃ t sp' o', exec (.operandBeat j b r) s = .next t ∧ getSp t j = some sp' ∧ findOpen sp' b.tag = some o' ∧
      o'.opBytes = o.opBytes + tapBytes sp ∧ o'.uid = o.uid ∧ (∀ i, i ≠ j → getSp t i = getSp s i) ∧ t = { s with spires := t.spires, rng := t.rng } := by
  obtain ⟨y, hy, ry⟩ := operandCounted_own h r
  have same := operandCounted_same s j sp r
  have others {i : Nat} (hi : i ≠ j) := operandEnters_others h r hi
  have closed : exec (.operandBeat j b r) s = .next (plainOperand (operandCounted s j sp r) sp o b) := by
    refine congrArg Host.Outcome.next ((takeOperand_enters h r).trans ?_)
    rw [operandEnters, hm, hc]
    rfl
  rw [operandEnters, hm, hc] at others
  generalize operandCounted s j sp r = u at *
  obtain ⟨z, hz, found⟩ := plainOperand_own (getSp_ix h.own) hy (h.at_ ry) hrow
  obtain ⟨-, -, tag⟩ := findOpen_spec h.found
  rw [tag] at found
  refine ⟨_, z, _, closed, hz, found, ?_, rfl, fun i hi => others hi, ((same.mono (by decide)).trans (plainOperand_same hrow u)).frame⟩
  exact congrArg (o.opBytes + ·) (tapBytes_of_tap (ry.same .tap (by decide) :)).symm

/-- A beat of a checkable MATMUL enters its pass. -/
theorem screenBeat_effect (h : BeatEnters j s sp b o) (hm : dMatmul o.dsc = true) (hc : o.checkable = true) (hdone : o.passesDone < dPasses o.dsc)
    (hended : (passAt sp o).ended = false) (htake : (screenTake sp o b).2 = false) (r : Bool) :
    ∃ t sp' e, exec (.operandBeat j b r) s = .next t ∧ getSp t j = some sp' ∧ e.ctr = (opEnv s sp o.dsc).ctr ∧ sp'.pass = some (screenPass e sp o b) ∧
      (∀ i, i ≠ j → getSp t i = getSp s i) ∧ t = { s with spires := t.spires, rng := t.rng, caravan := t.caravan } := by
  obtain ⟨y, hy, ry⟩ := operandCounted_own h r
  have same := operandCounted_same s j sp r
  have others {i : Nat} (hi : i ≠ j) := operandEnters_others h r hi
  have closed : exec (.operandBeat j b r) s = .next (screenOperand (operandCounted s j sp r) sp o b) := by
    refine congrArg Host.Outcome.next ((takeOperand_enters h r).trans ?_)
    rw [operandEnters, hm, hc]
    rfl
  rw [operandEnters, hm, hc] at others
  generalize operandCounted s j sp r = u at *
  obtain ⟨z, hz, pass⟩ := screenOperand_own (getSp_ix h.own) hy (Nat.not_le.2 hdone) hended htake
  refine ⟨_, z, opEnv u sp o.dsc, closed, hz, ?_, pass, fun i hi => others hi, ((same.mono (by decide)).trans (screenOperand_same (Nat.not_le.2 hdone) hended htake u)).frame⟩
  have image : u.image = s.image := congrArg Prod.fst (same .image (by decide) :)
  change (contractRec u (dContract o.dsc)).getD 0 = (contractRec s (dContract o.dsc)).getD 0
  rw [contractRec, contractRec, image]

/-- A beat with which a row or a pass gets a wrong length closes its operation. -/
theorem badBeat_effect (h : BeatEnters j s sp b o) (hm : dMatmul o.dsc = true) (r : Bool)
    (hbad : ∀ u, (if o.checkable then screenOperand u sp o b else plainOperand u sp o b) = badPass u j o (opaBeats sp o + 1)) :
    ∃ t sp' o', exec (.operandBeat j b r) s = .next t ∧ getSp t j = some sp' ∧ o' ∈ sp'.ops ∧ o'.uid = o.uid ∧ o'.closed = true ∧
      o'.closure = some (o.closure.getD .rows) ∧ o'.endTick = s.time.tick ∧ sp'.viol = (0x11, 0x0210) ∧
      (∀ i, i ≠ j → getSp t i = getSp s i) ∧ t.ops = s.ops ∧ t.cistern.data = s.cistern.data := by
  obtain ⟨t, run, keeps⟩ := execOperandBeat_keeps j b r (Keeps.rfl_ _ s) (List.Subset.refl _)
  obtain ⟨y, hy, ry⟩ := operandCounted_own h r
  have same := operandCounted_same s j sp r
  have others {i : Nat} (hi : i ≠ j) := operandEnters_others h r hi
  have closed : exec (.operandBeat j b r) s = .next (badPass (operandCounted s j sp r) j o (opaBeats sp o + 1)) := by
    refine congrArg Host.Outcome.next ((takeOperand_enters h r).trans ?_)
    rw [operandEnters, hm]
    exact hbad _
  have enters : operandEnters (operandCounted s j sp r) sp o b = badPass (operandCounted s j sp r) j o (opaBeats sp o + 1) := by
    rw [operandEnters, hm]
    exact hbad _
  rw [enters] at others
  obtain rfl := Host.Outcome.next.inj (closed.symm.trans run)
  obtain ⟨mem, -, -⟩ := findOpen_spec (h.at_ ry)
  obtain ⟨z, hz, shut, viol⟩ := badPass_own hy mem (opaBeats sp o + 1)
  rw [same .tick (by decide)] at shut
  exact ⟨_, z, _, closed, hz, shut, rfl, rfl, rfl, rfl, viol, fun i hi => others hi, keeps.same .ops (by decide), keeps.same.bytes_eq.1⟩

theorem screenOperand_bad {u : State} (hj : sp.ix = j) (hended : (passAt sp o).ended = false)
    (h : dPasses o.dsc ≤ o.passesDone ∨ (screenTake sp o b).2 = true) : screenOperand u sp o b = badPass u j o (opaBeats sp o + 1) := by
  subst hj
  rw [screenOperand_eq]
  by_cases hd : o.passesDone ≥ dPasses o.dsc
  · exact if_pos hd
  · rw [if_neg hd, hended, if_neg Bool.false_ne_true, if_pos (h.resolve_left hd)]

/-- A beat of an open operation while an inject slot stays open closes the slot's operation. -/
theorem slotBeat_effect {x : OpCtx} (hsp : getSp s j = some sp) (hlive : tapLive s sp = true) (hft : sp.lv.ft = false) (hslot : sp.injSlot = some o.uid)
    (htorn : (b.tag, false) ∉ sp.torn) (href : b.tag ∉ sp.refused) (hheld : ∀ y ∈ openOps sp, y.opRow.stalled = true → dStag y.dsc = b.tag)
    (hx : findOpen sp b.tag = some x) (ho : (sp.ops.find? fun y => !y.closed && y.uid == o.uid) = some o) :
    ∃ t sp' o', exec (.operandBeat j b true) s = .next t ∧ getSp t j = some sp' ∧ o' ∈ sp'.ops ∧ o'.uid = o.uid ∧ o'.closed = true ∧
      o'.closure = some (o.closure.getD .rows) ∧ sp'.injSlot = none ∧ sp'.viol = (0x12, 0x0210) ∧
      (∀ i, i ≠ j → getSp t i = getSp s i) ∧ t.ops = s.ops ∧ t.cistern.data = s.cistern.data := by
  obtain ⟨t, run, keeps⟩ := execOperandBeat_keeps j b true (Keeps.rfl_ _ s) (List.Subset.refl _)
  have closed : exec (.operandBeat j b true) s =
      .next (closeOpEarly (tapViol s .tapviol j (some o.dsc) 0x12 (dStag o.dsc) (opaBeats sp o + 1)) j o .rows) := by
    refine congrArg Host.Outcome.next ((takeOperand_eq hsp hlive hft b true).trans ?_)
    rw [slotEnds, if_pos rfl, tearOthers_none (res := false) hsp hheld, operandMeans, onSp_some hsp, if_neg (not_or.2 ⟨htorn, href⟩), hx, hslot]
    dsimp only [Option.bind]
    rw [ho]
  have kept := closeOpEarly_beat (tapViol_beat (BeatKept.rfl_ j s) .tapviol (some o.dsc) 0x12 (dStag o.dsc) (opaBeats sp o + 1)) o .rows
  obtain rfl := Host.Outcome.next.inj (closed.symm.trans run)
  obtain ⟨w, hw, viol, rw_⟩ := tapViol_own hsp .tapviol (some o.dsc) 0x12 (dStag o.dsc) (opaBeats sp o + 1)
  generalize tapViol s .tapviol j (some o.dsc) 0x12 (dStag o.dsc) (opaBeats sp o + 1) = u at *
  obtain ⟨z, hz, rz⟩ := closeOpEarly_own hw o .rows
  have slot : z.injSlot = some o.uid := ((rz.same .injSlot (by decide) :).trans (rw_.same .injSlot (by decide) :)).trans hslot
  refine ⟨_, _, closedOp j .rows u.time.tick o, closed, hz, ?_, rfl, rfl, rfl, if_pos slot, (rz.same .viol (by decide) :).trans viol, kept.others,
    keeps.same .ops (by decide), keeps.same.bytes_eq.1⟩
  rw [shutCtx_ops, rz.same .ops (by decide), rw_.same .ops (by decide)]
  exact mem_shutOps_own (List.mem_of_find?_eq_some ho) rfl

/-- A beat of no open operation and of no refused one is ignored, with TAPVIOL 0x10. -/
theorem strayBeat_effect (hsp : getSp s j = some sp) (hlive : tapLive s sp = true) (hft : sp.lv.ft = false) (htorn : (b.tag, false) ∉ sp.torn)
    (hnone : findOpen sp b.tag = none) (href : b.tag ∉ sp.refused) (hcnt : sp.cnt.length = 15) (hheld : ∀ x ∈ openOps sp, x.opRow.stalled = false) (r : Bool) :
    ∃ t sp', exec (.operandBeat j b r) s = .next t ∧ getSp t j = some sp' ∧ sp'.ops = sp.ops ∧ sp'.viol = (0x10, 0x0210) ∧
      sp'.cnt.getD kIgn 0 = counted s (sp.cnt.getD kIgn 0) 1 ∧ sp'.cnt.getD kViol 0 = counted s (sp.cnt.getD kViol 0) 1 ∧
      (∀ i, i ≠ j → getSp t i = getSp s i) ∧ t.ops = s.ops ∧ t.cistern.data = s.cistern.data := by
  obtain ⟨t, run, keeps⟩ := execOperandBeat_keeps j b r (Keeps.rfl_ _ s) (List.Subset.refl _)
  obtain ⟨y, hy, ry⟩ : ∃ y, getSp (slotEnds s j r) j = some y ∧ SpRel (some j) [.injSlot] sp y := by
    refine SpKeeps.getSp_some ?_ hsp
    unfold slotEnds
    split
    · exact SpKeeps.rfl_ s
    · exact (SpKeeps.rfl_ s).updSp j _ [.injSlot] (fun _ => rfl) (covers_own j) (List.Subset.refl _)
  have same := slotEnds_same s j r
  have ended := slotEnds_beat (BeatKept.rfl_ j s) r
  have opens : openOps y = openOps sp := by rw [openOps, ry.same .ops (by decide), openOps]
  have found : findOpen y b.tag = none := by
    rw [findOpen, ry.same .ops (by decide)]
    exact hnone
  have closed : exec (.operandBeat j b r) s = .next (tapViol (spCount (slotEnds s j r) j kIgn 1) .tapviol j none 0x10 b.tag 1) := by
    refine congrArg Host.Outcome.next ((takeOperand_eq hsp hlive hft b r).trans ?_)
    rw [tearOthers_none (res := false) hy (by
      rw [opens]
      intro x hx e
      rw [heldOn, if_neg Bool.false_ne_true, hheld x hx] at e
      cases e), operandMeans, onSp_some hy, if_neg (by
        rw [ry.same .torn (by decide), ry.same .refused (by decide)]
        exact not_or.2 ⟨htorn, href⟩), found]
    rfl
  obtain rfl := Host.Outcome.next.inj (closed.symm.trans run)
  generalize slotEnds s j r = u at *
  have len : y.cnt.length = 15 := (congrArg List.length (ry.same .cnt (by decide) :)).trans hcnt
  obtain ⟨w, hw, rw_, cw, ign⟩ := spCount_cnt hy (k := kIgn) (by rw [len]; decide) 1
  obtain ⟨z, hz, viol, rz, cz, cviol⟩ := tapViol_cnt hw (by rw [cw.length, len]; decide) .tapviol none 0x10 b.tag 1
  have kept := tapViol_beat (spCount_beat ended kIgn 1) .tapviol none 0x10 b.tag 1
  have on : countsOn (spCount u j kIgn 1) = countsOn s := by
    rw [countsOn, countsOn, (spCount_keeps j kIgn 1 (Keeps.rfl_ _ u) (List.Subset.refl _)).same .boot (by decide), same .boot (by decide)]
  have on' : countsOn u = countsOn s := by rw [countsOn, countsOn, same .boot (by decide)]
  refine ⟨_, z, closed, hz, ?_, viol, ?_, ?_, kept.others, keeps.same .ops (by decide), keeps.same.bytes_eq.1⟩
  · rw [rz.same .ops (by decide), rw_.same .ops (by decide), ry.same .ops (by decide)]
  · rw [cz.word kIgn (by decide), ign, counted, on', ry.same .cnt (by decide)]
    rfl
  · rw [cviol, cw.word kViol (by decide), counted, on, ry.same .cnt (by decide)]
    rfl

/-- A beat of a refused tag is ignored. -/
theorem refusedBeat (hsp : getSp s j = some sp) (hlive : tapLive s sp = true) (hft : sp.lv.ft = false)
    (hheld : ∀ x ∈ openOps sp, x.opRow.stalled = true → dStag x.dsc = b.tag) (href : b.tag ∈ sp.refused) :
    exec (.operandBeat j b true) s = .next (spCount s j kIgn 1) := by
  refine congrArg Host.Outcome.next ((takeOperand_eq hsp hlive hft b true).trans ?_)
  rw [slotEnds, if_pos rfl, tearOthers_none (res := false) hsp hheld, operandMeans, onSp_some hsp, if_pos (.inr href)]
  rfl

end

end Sys2Proof.Machine
end

section
/-! The inject slot (R60, R91, R155). Settles O10. -/

set_option Elab.async false

namespace Sys2Proof.Machine

/-! ### The inject slot (R60, R91, R155) -/

section
variable {s : State} {j : Nat} {sp : Spire} {o : OpCtx} {ps : PassSt}

/-- An operation whose checksum row of a pass has been delivered. -/
def deliveredOp (r : CkOut) (bytes : Nat) (y : OpCtx) : OpCtx :=
  { y with passesDone := y.passesDone + 1, cksat := y.cksat || r.sat, floorEv := y.floorEv || r.floor, injBytes := y.injBytes + bytes }

/-- The answer of the checksum row opens the slot and ends the pass. -/
def slotOpens (uid : Nat) (bs : List (BitVec 512 × W32)) (x : Spire) : Spire := { x with pass := none, injSlot := some uid, answer := .inject bs }

/-- The beats of the checksum row of a pass. -/
def ckBeats (e : OpEnv) (sp : Spire) (o : OpCtx) (ps : PassSt) : List (BitVec 512 × W32) :=
  packBeats sp.tap.ver (dA o.dsc) (ckRow e o.dsc ps).codes (ckRow e o.dsc ps).scales

/-- The checksum row of a pass has been delivered. -/
def rowDelivered (s : State) (sp : Spire) (o : OpCtx) (ps : PassSt) : State :=
  let e := opEnv s sp o.dsc
  updSp (cycles s).2 sp.ix fun x =>
    putOpen (slotOpens o.uid (ckBeats e sp o ps) x) (dStag o.dsc) (deliveredOp (ckRow e o.dsc ps) ((ckBeats e sp o ps).length * tapBytes x))

theorem deliverRow_eq (s : State) (sp : Spire) (o : OpCtx) (ps : PassSt) : deliverRow s sp o ps =
    trace (addBigSp (rowDelivered s sp o ps) sp.ix 1 ((ckBeats (opEnv s sp o.dsc) sp o ps).length * tapBytes sp)) sp.ix 0x13 false o.late (dStag o.dsc) (dLayer o.dsc)
      (dOper o.dsc) (cycles s).1 := rfl

theorem injReq_delivers (hsp : getSp s j = some sp) (hlive : tapLive s sp = true) (hft : sp.lv.ft = false) (hp : sp.pass = some ps)
    (ho : findOpen sp ps.tag = some o) (hended : ps.ended = true) :
    ∃ t sp' o', exec (.ttInjReq j) s = .next t ∧ getSp t j = some sp' ∧ sp'.answer = .inject (ckBeats (opEnv s sp o.dsc) sp o ps) ∧
      sp'.injSlot = some o.uid ∧ sp'.pass = none ∧ findOpen sp' ps.tag = some o' ∧ o'.passesDone = o.passesDone + 1 ∧
      (∀ i, i ≠ j → getSp t i = getSp s i) ∧ t = { s with spires := t.spires, rng := t.rng } := by
  obtain rfl := getSp_ix hsp
  have passOp_ : passOp sp = some o := by
    rw [passOp, hp]
    exact ho
  have closed : exec (.ttInjReq sp.ix) s = .next (deliverRow s sp o ps) := by
    refine congrArg Host.Outcome.next ((onSp_some hsp _).trans ((if_neg (by rw [hlive]; decide)).trans ((if_neg (by rw [hft]; decide)).trans ?_)))
    rw [hp, passOp_]
    exact if_pos hended
  have frame : Same [.spires, .rng] s (deliverRow s sp o ps) := by
    rw [deliverRow_eq]
    exact (trace_keeps _ _ _ _ _ _ _ _ (addBigSp_keeps _ _ _ (updSp_keeps _ _ (cycles_keeps (Keeps.rfl_ _ s) (by decide)) (by decide)) (by decide)) (by decide)).same
  have own : getSp (cycles s).2 sp.ix = some sp := hsp
  have put := getSp_updSp_some own (fun x => putOpen (slotOpens o.uid (ckBeats (opEnv s sp o.dsc) sp o ps) x) (dStag o.dsc)
    (deliveredOp (ckRow (opEnv s sp o.dsc) o.dsc ps) ((ckBeats (opEnv s sp o.dsc) sp o ps).length * tapBytes x))) fun _ => rfl
  have after (v : State) (n p : Nat) : SpKeeps (some sp.ix) [.big, .cnt, .trc] v
      (trace (addBigSp v sp.ix 1 n) sp.ix 0x13 false o.late (dStag o.dsc) (dLayer o.dsc) (dOper o.dsc) p) :=
    trace_sp (addBigSp_sp (SpKeeps.rfl_ v) sp.ix 1 n (covers_own _) (by decide)) sp.ix _ _ _ _ _ _ _ (covers_own _) (by decide)
  obtain ⟨z, hz, rz⟩ := (after _ ((ckBeats (opEnv s sp o.dsc) sp o ps).length * tapBytes sp) (cycles s).1).getSp_some put
  obtain ⟨-, open_, tag⟩ := findOpen_spec ho
  have slotted : findOpen (slotOpens o.uid (ckBeats (opEnv s sp o.dsc) sp o ps) sp) ps.tag = some o := ho
  have found := findOpen_putOpen slotted (deliveredOp (ckRow (opEnv s sp o.dsc) o.dsc ps) ((ckBeats (opEnv s sp o.dsc) sp o ps).length * tapBytes sp)) ⟨open_, rfl⟩
  have others {i : Nat} (hi : i ≠ sp.ix) : getSp (deliverRow s sp o ps) i = getSp s i := by
    rw [deliverRow_eq, (after _ _ _).getSp_other hi]
    exact getSp_updSp_ne (cycles s).2 _ (fun _ => rfl) hi
  refine ⟨_, z, deliveredOp (ckRow (opEnv s sp o.dsc) o.dsc ps) ((ckBeats (opEnv s sp o.dsc) sp o ps).length * tapBytes sp) o, closed, hz, (rz.same .answer (by decide) :),
    (rz.same .injSlot (by decide) :), (rz.same .pass (by decide) :), ?_, rfl, fun i hi => others hi, frame.frame⟩
  rw [findOpen, rz.same .ops (by decide), tag]
  exact found

/-- A request that no pass is ready for is answered by TT_INJ_NACK. -/
def injRefused (x : Spire) : Spire := { x with answer := .injNack, injSlot := none }

theorem injReq_noPass (hsp : getSp s j = some sp) (hlive : tapLive s sp = true) (hft : sp.lv.ft = false) (hp : sp.pass = none) :
    exec (.ttInjReq j) s = .next (match sp.tornOps.find? fun t => decide (0 < t.2) with
      | some x => updSp (updSp s j injRefused) j fun t => { t with tornOps := t.tornOps.map fun y => if y = x then (y.1, y.2 - 1) else y }
      | none => tapViol (updSp s j injRefused) .tapviol j none 0x20 0xFFFF 0) := by
  refine congrArg Host.Outcome.next ((onSp_some hsp _).trans ((if_neg (by rw [hlive]; decide)).trans ((if_neg (by rw [hft]; decide)).trans ?_)))
  rw [hp]
  rfl

theorem injReq_counts (hsp : getSp s j = some sp) (hlive : tapLive s sp = true) (hft : sp.lv.ft = false) (hp : sp.pass = none)
    (htorn : ∀ x ∈ sp.tornOps, x.2 = 0) (hcnt : sp.cnt.length = 15) :
    ∃ t sp', exec (.ttInjReq j) s = .next t ∧ getSp t j = some sp' ∧ sp'.answer = .injNack ∧ sp'.injSlot = none ∧ sp'.ops = sp.ops ∧
      sp'.viol = (0x20, 0x0210) ∧ sp'.cnt.getD kViol 0 = counted s (sp.cnt.getD kViol 0) 1 ∧ t.ops = s.ops ∧ t.cistern.data = s.cistern.data := by
  obtain ⟨t, run, keeps⟩ := execTtInjReq_keeps j (Keeps.rfl_ _ s) (List.Subset.refl _)
  have none_ : (sp.tornOps.find? fun t => decide (0 < t.2)) = none := List.find?_eq_none.2 fun x hx e => by
    rw [htorn x hx] at e
    exact absurd e (by decide)
  have closed := injReq_noPass hsp hlive hft hp
  rw [none_] at closed
  dsimp only at closed
  obtain rfl := Host.Outcome.next.inj (closed.symm.trans run)
  have put := getSp_updSp_some hsp injRefused fun _ => rfl
  obtain ⟨z, hz, viol, rz, -, count⟩ := tapViol_cnt put (by change kViol < sp.cnt.length; rw [hcnt]; decide) .tapviol none 0x20 0xFFFF 0
  exact ⟨_, z, closed, hz, (rz.same .answer (by decide) :), (rz.same .injSlot (by decide) :), (rz.same .ops (by decide) :), viol, count, keeps.same .ops (by decide),
    keeps.same.bytes_eq.1⟩

/-- A request that a TORN operation may still make is used up. -/
theorem injReq_torn (hsp : getSp s j = some sp) (hlive : tapLive s sp = true) (hft : sp.lv.ft = false) (hp : sp.pass = none) {x : W16 × Nat}
    (htorn : sp.tornOps = [x]) (hx : 0 < x.2) :
    ∃ t, exec (.ttInjReq j) s = .next t ∧ t = { s with spires := t.spires } ∧
      getSp t j = some { sp with answer := .injNack, injSlot := none, tornOps := [(x.1, x.2 - 1)] } := by
  have some_ : (sp.tornOps.find? fun t => decide (0 < t.2)) = some x := by
    rw [htorn]
    exact List.find?_cons_of_pos (decide_eq_true hx)
  have closed := injReq_noPass hsp hlive hft hp
  rw [some_] at closed
  have put := getSp_updSp_some (getSp_updSp_some hsp injRefused fun _ => rfl)
    (fun t => { t with tornOps := t.tornOps.map fun y => if y = x then (y.1, y.2 - 1) else y }) fun _ => rfl
  refine ⟨_, closed, (updSp_keeps _ _ (updSp_keeps _ _ (Keeps.rfl_ _ s) (List.Subset.refl _)) (List.Subset.refl _)).same.frame, put.trans ?_⟩
  have used : ((injRefused sp).tornOps.map fun y => if y = x then (y.1, y.2 - 1) else y) = [(x.1, x.2 - 1)] := by
    rw [injRefused, htorn]
    exact congrArg (· :: []) (if_pos rfl)
  rw [used]
  rfl

end

/-- Settles O10: operand beats of an open operation, beats that are ignored, and the inject slot. -/
theorem operandsAndInjection : Obligations.OperandsAndInjection := by
  unfold Obligations.OperandsAndInjection
  refine ⟨⟨?_, ?_, ?_, ?_, ?_, ?_⟩, ?_, ?_, ?_⟩
  · intro s j sp b r o hsp hlive hft hslot htorn href hheld hmid hp ho hm hc hrow
    refine plainBeat_effect ⟨hsp, hlive, hft, hslot, htorn, href, hheld, hmid, fun p e => (by rw [hp] at e; cases e), ho⟩ hm hc ?_ r
    rintro ⟨hf, hbad⟩
    obtain ⟨hdone, htake⟩ := hrow.resolve_left hf
    obtain h | h := hbad
    · exact Nat.not_le.2 hdone h
    · rw [plainTake, htake] at h
      cases h
  · intro s j sp b r o ps hsp hlive hft hslot htorn href hheld hmid hpass ho hm hc hdone hps hended f len n c elem htake
    subst hps
    obtain ⟨t, sp', e, run, own, ctr, pass, others, frame⟩ := screenBeat_effect ⟨hsp, hlive, hft, hslot, htorn, href, hheld, hmid, hpass, ho⟩ hm hc hdone hended htake r
    have shape := opaBeat_shape e f len b (screenTake sp o b).1 ⟨passAt sp o, false, 0, 0⟩
    refine ⟨t, sp', _, run, own, pass, congrArg Prod.fst shape, congrArg Prod.snd shape, fun w hw => ?_, fun hw hb => ?_, others, frame⟩
    · obtain ⟨top, -, -, acc⟩ := opaBeat_placed (a := ⟨passAt sp o, false, 0, 0⟩) hw e f len b (screenTake sp o b).1
      refine ⟨top, fun k hk => (acc k hk).trans ?_⟩
      have same : operandElem e f b = elem := by
        unfold operandElem
        rw [ctr]
      rw [same]
      rfl
    · exact opaBeat_waiting (a := ⟨passAt sp o, false, 0, 0⟩) hw e f len b (screenTake sp o b).1 hb
  · intro s j sp b r o hsp hlive hft hslot htorn href hheld hmid hpass ho hm hf hbad
    refine badBeat_effect ⟨hsp, hlive, hft, hslot, htorn, href, hheld, hmid, fun p hp => (hpass p hp).1, ho⟩ hm r fun u => ?_
    by_cases hc : o.checkable = true
    · rw [if_pos hc]
      rw [if_pos hc] at hbad
      refine screenOperand_bad (getSp_ix hsp) ?_ hbad
      rw [passAt]
      cases hp : sp.pass with
      | none => rfl
      | some p => exact (hpass p hp).2
    · rw [if_neg hc]
      rw [if_neg hc] at hbad
      rw [plainOperand_eq, if_pos ⟨hf, hbad⟩, getSp_ix hsp]
  · exact fun s j sp b o x hsp hlive hft hslot htorn href hheld hx ho => slotBeat_effect hsp hlive hft hslot htorn href hheld hx ho
  · exact fun s j sp b r hsp hlive hft htorn hnone href hcnt hheld => strayBeat_effect hsp hlive hft htorn hnone href hcnt hheld r
  · exact fun s j sp b hsp hlive hft hheld href => refusedBeat hsp hlive hft hheld href
  · exact fun s j sp ps o hsp hlive hft hp ho hended => injReq_delivers hsp hlive hft hp ho hended
  · exact fun s j sp hsp hlive hft hp htorn hcnt => injReq_counts hsp hlive hft hp htorn hcnt
  · exact fun s j sp x hsp hlive hft hp htorn hx => injReq_torn hsp hlive hft hp htorn hx

end Sys2Proof.Machine
end

section
/-! The judgement of an operation's groups (R129, R140 to R150, R160). -/

set_option Elab.async false

namespace Sys2Proof.Machine

/-! ### The judgement of the groups of an operation (R129, R140 to R150, R160) -/

section
variable {e : OpEnv} {d : Dsc} {o : OpCtx} {g : Grp} {i : Nat}

theorem judgeGroup_ix (e : OpEnv) (d : Dsc) (o : OpCtx) (i : Nat) (g : Grp) : (judgeGroup e d o i g).ix = i := by
  unfold judgeGroup
  split
  · rfl
  · dsimp only
    split <;> rfl

/-- With the screen off every group is SKIPPED. -/
theorem judgeGroup_off (h : e.off = true) : (judgeGroup e d o i g).result = 4 := by rw [judgeGroup, if_pos h]

/-- A group has the cause of its being INCONCLUSIVE. -/
theorem judgeGroup_cause (h : e.off = false) : (judgeGroup e d o i g).cause = (inconCause o g).getD 0 := by
  rw [judgeGroup, if_neg (by rw [h]; decide)]
  dsimp only
  split <;> rfl

/-- A result is INCONCLUSIVE exactly with a cause, whatever else decides between PASS and SUSPECT. -/
theorem incon_result (c : Option Nat) {p : Prop} [Decidable p] (a b : Nat) (ha : a ≠ 3) (hb : b ≠ 3) :
    ((if c.isSome then 3 else if p then a else b) == 3) = c.isSome := by
  cases c with
  | some _ => rfl
  | none => exact beq_false_of_ne (by change (if p then a else b) ≠ 3; split; exacts [ha, hb])

theorem judgeGroup_incon (h : e.off = false) : ((judgeGroup e d o i g).result == 3) = (inconCause o g).isSome := by
  rw [judgeGroup, if_neg (by rw [h]; decide)]
  dsimp only
  split
  · exact incon_result _ 0 1 (by decide) (by decide)
  · exact incon_result _ 1 0 (by decide) (by decide)

/-- An Integer group with no cause is SUSPECT exactly when its sum is not 0 modulo m_A. -/
theorem judgeGroup_integer (h : e.off = false) (hc : e.cls = some .integer) (hi : inconCause o g = none) :
    (judgeGroup e d o i g).result = 1 ↔ g.sum / 2 ^ (104 - topOf o).toNat % (modA (dA d) : Int) ≠ 0 := by
  rw [judgeGroup, if_neg (by rw [h]; decide), hc, hi]
  dsimp only [Option.isSome]
  have pos : (0 : Int) < (modA (dA d) : Int) := by
    unfold modA
    split <;> decide
  have nonneg := Int.emod_nonneg (g.sum / 2 ^ (104 - topOf o).toNat) pos.ne'
  generalize g.sum / 2 ^ (104 - topOf o).toNat % (modA (dA d) : Int) = r at nonneg
  rw [if_neg Bool.false_ne_true]
  split <;> omega

/-- Another group with no cause is SUSPECT exactly when its residual exceeds its bound. -/
theorem judgeGroup_float (h : e.off = false) (hc : e.cls ≠ some .integer) (hi : inconCause o g = none) :
    (judgeGroup e d o i g).result = 1 ↔ |(g.sum : Rat) * pow2 (topOf o - 104)| > betaOf e d o i g := by
  have absolute (x : Rat) : (if x < 0 then -x else x) = |x| := by
    split
    · exact (abs_of_neg ‹_›).symm
    · exact (abs_of_nonneg (not_lt.1 ‹_›)).symm
  rw [judgeGroup, if_neg (by rw [h]; decide)]
  dsimp only
  split
  · exact absurd ‹_› hc
  · dsimp only
    rw [hi, absolute, Option.isSome_none, if_neg Bool.false_ne_true]
    split
    · exact iff_of_true rfl ‹_›
    · exact iff_of_false (by decide) ‹_›

theorem judgeAll_groups (h : o.nogrp = false) : judgeAll e d o = o.grps.zipIdx.map fun x => judgeGroup e d o x.2 x.1 := by
  rw [judgeAll, h]
  rfl

/-- Without accumulators, or with the screen off, every group is SKIPPED. -/
theorem judgeAll_skipped (h : o.nogrp = true ∨ e.off = true) : ∀ g ∈ judgeAll e d o, g.result = 4 := by
  intro g hg
  by_cases hn : o.nogrp = true
  · rw [judgeAll, if_pos hn] at hg
    obtain ⟨i, -, rfl⟩ := List.mem_map.1 hg
    rfl
  · rw [judgeAll_groups (Bool.eq_false_of_not_eq_true hn)] at hg
    obtain ⟨x, -, rfl⟩ := List.mem_map.1 hg
    exact judgeGroup_off (h.resolve_left hn)

/-- What the screen says of the groups of an operation. -/
def screenSays (gs : List GrpOut) : ScreenRes :=
  ⟨countRes gs 0, countRes gs 1, countRes gs 3, countRes gs 4, (gs.filter fun g => g.result == 1).map (·.ix), ((gs.find? fun g => g.result == 3).map (·.cause)).getD 0⟩

theorem screenSays_skipped {gs : List GrpOut} (h : ∀ g ∈ gs, g.result = 4) :
    (screenSays gs).pass = 0 ∧ (screenSays gs).susp = 0 ∧ (screenSays gs).incon = 0 ∧ (screenSays gs).suspGroups = [] := by
  have none_ (r : Nat) (hr : r ≠ 4) : (gs.filter fun g => g.result == r) = [] := List.filter_eq_nil_iff.2 fun g hg e => hr ((beq_iff_eq.1 e).symm.trans (h g hg))
  refine ⟨congrArg List.length (none_ 0 (by decide)), congrArg List.length (none_ 1 (by decide)), congrArg List.length (none_ 3 (by decide)), ?_⟩
  exact congrArg (List.map (·.ix)) (none_ 1 (by decide))

/-- A group is among the SUSPECT ones exactly when it is judged so. -/
theorem mem_suspGroups (hn : o.nogrp = false) (hg : o.grps[i]? = some g) :
    i ∈ (screenSays (judgeAll e d o)).suspGroups ↔ (judgeGroup e d o i g).result = 1 := by
  rw [judgeAll_groups hn, screenSays]
  constructor
  · intro h
    obtain ⟨w, hw, rfl⟩ := List.mem_map.1 h
    obtain ⟨hw, hr⟩ := List.mem_filter.1 hw
    obtain ⟨x, hx, rfl⟩ := List.mem_map.1 hw
    have at_ := List.mem_zipIdx_iff_getElem?.1 hx
    rw [judgeGroup_ix] at hg ⊢
    obtain rfl := Option.some.inj (at_.symm.trans hg)
    exact beq_iff_eq.1 hr
  · intro h
    refine List.mem_map.2 ⟨judgeGroup e d o i g, List.mem_filter.2 ⟨?_, beq_iff_eq.2 h⟩, judgeGroup_ix e d o i g⟩
    exact List.mem_map.2 ⟨(g, i), List.mk_mem_zipIdx_iff_getElem?.2 hg, rfl⟩

/-- The INCONCLUSIVE groups are those with a cause. -/
theorem screenSays_incon (hn : o.nogrp = false) (h : e.off = false) :
    (screenSays (judgeAll e d o)).incon = (o.grps.filter fun g => (inconCause o g).isSome).length := by
  have same : ((fun r : GrpOut => r.result == 3) ∘ fun x : Grp × Nat => judgeGroup e d o x.2 x.1) = (fun g => (inconCause o g).isSome) ∘ Prod.fst := by
    funext x
    exact judgeGroup_incon h
  rw [judgeAll_groups hn, screenSays]
  dsimp only [countRes]
  rw [← List.countP_eq_length_filter, List.countP_map, same, ← List.countP_map, List.zipIdx_map_fst, List.countP_eq_length_filter]

/-- The cause of the summary is that of the first INCONCLUSIVE group. -/
theorem screenSays_cause (hn : o.nogrp = false) (h : e.off = false) :
    (screenSays (judgeAll e d o)).cause = ((o.grps.find? fun g => (inconCause o g).isSome).map fun g => (inconCause o g).getD 0).getD 0 := by
  have same : ((fun r : GrpOut => r.result == 3) ∘ fun x : Grp × Nat => judgeGroup e d o x.2 x.1) = (fun g => (inconCause o g).isSome) ∘ Prod.fst := by
    funext x
    exact judgeGroup_incon h
  have cause : ((·.cause) ∘ fun x : Grp × Nat => judgeGroup e d o x.2 x.1) = (fun g => (inconCause o g).getD 0) ∘ Prod.fst := by
    funext x
    exact judgeGroup_cause h
  have first : o.grps.find? (fun g => (inconCause o g).isSome) = (o.grps.zipIdx.find? ((fun g => (inconCause o g).isSome) ∘ Prod.fst)).map Prod.fst := by
    conv_lhs => rw [← List.zipIdx_map_fst 0 o.grps, List.find?_map]
  rw [judgeAll_groups hn, screenSays]
  dsimp only
  rw [List.find?_map, same, Option.map_map, cause, first, Option.map_map]

/-- One cause of all groups. -/
theorem screenSays_all (hn : o.nogrp = false) (h : e.off = false) {c : Nat} (hc : ∀ g, inconCause o g = some c) :
    (screenSays (judgeAll e d o)).incon = o.grps.length ∧ (o.grps ≠ [] → (screenSays (judgeAll e d o)).cause = c) := by
  rw [screenSays_incon hn h, screenSays_cause hn h]
  refine ⟨congrArg List.length (List.filter_eq_self.2 fun g _ => by rw [hc g]; rfl), fun hne => ?_⟩
  cases hg : o.grps with
  | nil => exact absurd hg hne
  | cons g l =>
    rw [List.find?_cons_of_pos (by rw [hc g]; rfl), Option.map_some, hc g]
    rfl

theorem inconCause_own (h1 : o.closure = none) (h2 : o.optaint = false) (h3 : o.cksat = false) (g : Grp) :
    inconCause o g = if g.taints ≠ 0 then some 4 else if g.ovf then some 6 else none := by
  rw [inconCause, h1, h2, h3]
  rfl

/-- With no cause of the operation's a group is INCONCLUSIVE for its own: TAINT, then GRP_OVF. -/
theorem inconCause_isSome (h1 : o.closure = none) (h2 : o.optaint = false) (h3 : o.cksat = false) (g : Grp) :
    (inconCause o g).isSome = (decide (g.taints ≠ 0) || g.ovf) := by
  rw [inconCause_own h1 h2 h3]
  by_cases ht : g.taints ≠ 0
  · rw [if_pos ht, decide_eq_true ht]
    rfl
  · rw [if_neg ht, decide_eq_false ht]
    cases g.ovf <;> rfl

theorem screenSays_own (hn : o.nogrp = false) (h : e.off = false) (h1 : o.closure = none) (h2 : o.optaint = false) (h3 : o.cksat = false) :
    (screenSays (judgeAll e d o)).incon = (o.grps.filter fun g => decide (g.taints ≠ 0) || g.ovf).length ∧
      ∀ g, (o.grps.find? fun g => decide (g.taints ≠ 0) || g.ovf) = some g → (screenSays (judgeAll e d o)).cause = if g.taints ≠ 0 then 4 else 6 := by
  have same : (fun g => (inconCause o g).isSome) = fun g : Grp => decide (g.taints ≠ 0) || g.ovf := funext (inconCause_isSome h1 h2 h3)
  rw [screenSays_incon hn h, screenSays_cause hn h, same]
  refine ⟨rfl, fun g hg => ?_⟩
  have bad := List.find?_some hg
  rw [hg, Option.map_some, inconCause_own h1 h2 h3, Option.getD_some]
  by_cases ht : g.taints ≠ 0
  · rw [if_pos ht, if_pos ht]
    rfl
  · rw [decide_eq_false ht, Bool.false_or] at bad
    rw [if_neg ht, if_neg ht, if_pos bad]
    rfl

end

end Sys2Proof.Machine
end

section
/-! The comparison of a closed operation (R140, R160, R369). Settles O12. -/

set_option Elab.async false

namespace Sys2Proof.Machine

/-! ### The comparison of a closed operation (R140, R160, R369) -/

section
variable {s u : State} {j : Nat} {sp : Spire} {o : OpCtx}

theorem send_flight (s : State) (m : Msg) : (send s m).caravan.flight = s.caravan.flight ++ [m] := by
  have uplinked (v : State) (n : Nat) : (uplink v (msgSpire m) n).caravan = v.caravan := (uplink_keeps (msgSpire m) n (Keeps.rfl_ _ v) (List.Subset.refl _)).same .caravan (by decide)
  exact congrArg Caravan.flight (uplinked { s with caravan := { s.caravan with flight := s.caravan.flight ++ [m] } } _)

/-- What the screen finds of an operation. -/
def judged (e : OpEnv) (o : OpCtx) : List GrpOut := if o.checkable then judgeAll e o.dsc o else []

/-- The findings of an operation that its records tell. -/
def foundBad (gs : List GrpOut) : List GrpOut := gs.filter fun g => g.result == 1 || g.result == 3

/-- A compared operation leaves its Spire. -/
def comparedSpire (o : OpCtx) (lastv : Spire → LastV) (x : Spire) : Spire := { x with ops := x.ops.filter fun y => y.uid != o.uid, lastv := lastv x }

/-- The last finding of a Spire. -/
def lastFinding (o : OpCtx) (gs : List GrpOut) (x : Spire) : LastV :=
  match (foundBad gs).getLast? with
  | some g => ⟨g.result, g.cause, g.ix, dStag o.dsc, dLayer o.dsc, dOper o.dsc⟩
  | none => x.lastv

/-- The verdicts of the groups are counted. -/
def verdictsCounted (s : State) (j : Nat) (gs : List GrpOut) : State :=
  [(kPass, countRes gs 0), (kSus, countRes gs 1), (kInc, countRes gs 3), (kSkp, countRes gs 4), (kWeak, (gs.filter (·.weak)).length)].foldl
    (fun s x => spCount s j x.1 x.2) s

/-- A compared operation has left its Spire, and its verdicts are counted and traced. -/
def comparedOut (s : State) (j : Nat) (o : OpCtx) (gs : List GrpOut) : State :=
  trace (verdictsCounted (updSp s j (comparedSpire o (lastFinding o gs))) j gs) j 0x15 false o.late (dStag o.dsc) (dLayer o.dsc) (dOper o.dsc)
    (countRes gs 1 + 512 * countRes gs 3 + 262144 * countRes gs 4)

/-- The profile of an operation. -/
def profileMsg (s : State) (e : OpEnv) (j : Nat) (o : OpCtx) (gs : List GrpOut) : Msg :=
  .profile j o.uid (countRes gs 1 != 0 || rangeSuspect e.range o.range) (expprofRec (spNow s j) j (partOfSp s j) e o) (profHi o.prof) (profBins o.prof)

/-- The profile goes out where the range record of an operation learns. -/
def profileMsgs (s : State) (e : OpEnv) (j : Nat) (o : OpCtx) (gs : List GrpOut) : List Msg :=
  if rEnvEn e.range ∧ rLearn e.range ≠ 0 ∧ dC o.dsc ≠ .opq then [profileMsg s e j o gs] else []

/-- The records of an operation's screen: its groups found wrong, its summary, its range. -/
def screenMsgRecs (s : State) (e : OpEnv) (j : Nat) (o : OpCtx) (gs : List GrpOut) : List Rec :=
  (foundBad gs).map (scrgrpRec (spNow s j) j (partOfSp s j) e o) ++ (if o.checkable then [scrsumRec (spNow s j) j (partOfSp s j) e o gs] else []) ++
    (if rangeBits o.range = 0 then [] else [rngevRec (spNow s j) j (partOfSp s j) e o])

/-- The summary of a compared operation. -/
def summaryMsg (s : State) (e : OpEnv) (j : Nat) (o : OpCtx) (gs : List GrpOut) : Msg :=
  .summary j o.uid (screenMsgRecs s e j o gs) (screenSays gs) (rangeBits o.range) (rangeSuspect e.range o.range) (rangeEvent e.range o.range)
    (sdFinish e.kD o.dig.od) o.endTick

/-- The digests of a compared operation. -/
def digestsMsg (e : OpEnv) (j : Nat) (o : OpCtx) (gs : List GrpOut) : Msg :=
  .digests j o.uid (sdFinish e.kD o.dig.od) o.dig.rsv (sd64 e.kD (dDigestBytes o.dsc)) (o.dig.operand.map (sdFinish e.kD)) (acctOf o gs) (o.closure.any cutShort)

/-- A message that goes out on a condition. -/
theorem send_ite {c : Prop} [Decidable c] (v : State) (m : Msg) : (if c then send v m else v) = (if c then [m] else []).foldl send v := by
  split <;> rfl

/-- The messages of a comparison, one after another. -/
theorem compareOp_sends (s : State) (sp : Spire) (o : OpCtx) : compareOp s sp o =
    let e := opEnv s sp o.dsc
    let gs := judged e o
    let s1 := send (comparedOut s sp.ix o gs) (summaryMsg s e sp.ix o gs)
    send (if rEnvEn e.range ∧ rLearn e.range ≠ 0 ∧ dC o.dsc ≠ .opq then send s1 (profileMsg s e sp.ix o gs) else s1) (digestsMsg e sp.ix o gs) := rfl

theorem compareOp_eq (s : State) (sp : Spire) (o : OpCtx) : compareOp s sp o =
    let e := opEnv s sp o.dsc
    let gs := judged e o
    (summaryMsg s e sp.ix o gs :: profileMsgs s e sp.ix o gs ++ [digestsMsg e sp.ix o gs]).foldl send (comparedOut s sp.ix o gs) := by
  rw [compareOp_sends]
  dsimp only
  rw [send_ite, profileMsgs]
  simp only [List.foldl_append, List.foldl_cons, List.foldl_nil]

theorem foldl_send_flight (l : List Msg) (s : State) : (l.foldl send s).caravan.flight = s.caravan.flight ++ l := by
  induction l generalizing s with
  | nil => exact (List.append_nil _).symm
  | cons m l ih => rw [List.foldl_cons, ih, send_flight, List.append_assoc, List.singleton_append]

theorem verdictsCounted_sp {m : List SpFld} (h : SpKeeps (some j) m s u) (gs : List GrpOut) (hm : [.cnt] ⊆ m) : SpKeeps (some j) m s (verdictsCounted u j gs) :=
  SpKeeps.foldl (fun _ x hv => spCount_sp hv j x.1 x.2 (covers_own j) hm) h _

/-- After an operation has left its Spire, only counts change. -/
theorem comparedOut_own (hsp : getSp s j = some sp) (o : OpCtx) (gs : List GrpOut) :
    ∃ y, getSp (comparedOut s j o gs) j = some y ∧ y.ops = sp.ops.filter fun x => x.uid != o.uid := by
  have put := getSp_updSp_some hsp (comparedSpire o (lastFinding o gs)) fun _ => rfl
  obtain ⟨y, hy, ry⟩ := (trace_sp (verdictsCounted_sp (SpKeeps.rfl_ (i := some j) (m := [.cnt, .trc]) _) gs (by decide)) j 0x15 false o.late (dStag o.dsc) (dLayer o.dsc) (dOper o.dsc)
    (countRes gs 1 + 512 * countRes gs 3 + 262144 * countRes gs 4) (covers_own j) (by decide)).getSp_some put
  exact ⟨y, hy, (ry.same .ops (by decide) :)⟩

theorem comparedOut_other (s : State) (o : OpCtx) (gs : List GrpOut) {i : Nat} (hi : i ≠ j) : getSp (comparedOut s j o gs) i = getSp s i := by
  have counts (v : State) (n : Nat) : SpKeeps (some j) [.cnt, .trc] v (trace (verdictsCounted v j gs) j 0x15 false o.late (dStag o.dsc) (dLayer o.dsc) (dOper o.dsc) n) :=
    trace_sp (verdictsCounted_sp (SpKeeps.rfl_ v) gs (by decide)) j _ _ _ _ _ _ _ (covers_own j) (by decide)
  exact ((counts _ _).getSp_other hi).trans (getSp_updSp_ne s _ (fun _ => rfl) hi)

theorem comparedOut_same (s : State) (j : Nat) (o : OpCtx) (gs : List GrpOut) : Same [.spires] s (comparedOut s j o gs) :=
  (trace_keeps _ _ _ _ _ _ _ _ (keeps_foldl (fun _ _ hv => spCount_keeps _ _ _ hv (by decide)) (updSp_keeps _ _ (Keeps.rfl_ _ s) (List.Subset.refl _))) (by decide)).same

theorem sends_sp (s : State) (l : List Msg) (hl : ∀ m ∈ l, msgSpire m = j) : SpKeeps (some j) [.big, .witSent, .witGrants] s (l.foldl send s) :=
  List.foldlRecOn (motive := fun v => SpKeeps (some j) [.big, .witSent, .witGrants] s v) l send (SpKeeps.rfl_ s) fun _ hv m hm =>
    send_sp hv m (hl m hm ▸ covers_own _) (List.Subset.refl _)

theorem sends_same (s : State) (l : List Msg) : Same [.spires, .caravan] s (l.foldl send s) :=
  (keeps_foldl (fun _ m hv => send_keeps m hv (by decide)) (Keeps.rfl_ _ s)).same

theorem any_cutShort (c : Option Closure) : c.any cutShort = decide (c = some .torn ∨ c = some .fenced ∨ c = some .reset) := by
  cases c with
  | none => rfl
  | some c => cases c <;> rfl

/-- The first closed operation of a Spire leaves it; its summary goes first, its digests last. -/
theorem groupCompare_effect (hsp : getSp s j = some sp) (hlost : ((getTile s j).map (·.lost)).getD false = false) (hdead : stateOf s j ≠ stDead)
    (ho : sp.ops.find? (·.closed) = some o) :
    ∃ t sp' e mid, e = opEnv s sp o.dsc ∧ exec (.groupCompare j) s = .next t ∧ getSp t j = some sp' ∧ sp'.ops = sp.ops.filter (fun x => x.uid != o.uid) ∧
      t.caravan.flight = s.caravan.flight ++ summaryMsg s e j o (judged e o) :: mid ++ [digestsMsg e j o (judged e o)] ∧
      (∀ i, i ≠ j → getSp t i = getSp s i) ∧ t = { s with spires := t.spires, caravan := t.caravan } := by
  obtain rfl := getSp_ix hsp
  have closed : exec (.groupCompare sp.ix) s = .next (compareOp s sp o) := by
    refine congrArg Host.Outcome.next ((onSp_some hsp _).trans ((if_neg (by rw [hlost]; decide)).trans ?_))
    rw [ho]
    exact if_neg hdead
  rw [compareOp_eq] at closed
  dsimp only at closed
  have toOwn : ∀ m ∈ summaryMsg s (opEnv s sp o.dsc) sp.ix o (judged (opEnv s sp o.dsc) o) :: profileMsgs s (opEnv s sp o.dsc) sp.ix o (judged (opEnv s sp o.dsc) o) ++
      [digestsMsg (opEnv s sp o.dsc) sp.ix o (judged (opEnv s sp o.dsc) o)], msgSpire m = sp.ix := by
    intro m hm
    obtain hm | hm := List.mem_append.1 hm
    · obtain rfl | hm := List.mem_cons.1 hm
      · rfl
      · unfold profileMsgs at hm
        split at hm
        · rw [List.mem_singleton.1 hm]
          rfl
        · exact (List.not_mem_nil hm).elim
    · rw [List.mem_singleton.1 hm]
      rfl
  generalize hgs : judged (opEnv s sp o.dsc) o = gs at *
  generalize profileMsgs s (opEnv s sp o.dsc) sp.ix o gs = mid at *
  obtain ⟨y, hy, ops⟩ := comparedOut_own hsp o gs
  have out := comparedOut_same s sp.ix o gs
  have others {i : Nat} (hi : i ≠ sp.ix) := comparedOut_other s o gs hi
  generalize comparedOut s sp.ix o gs = u at *
  have sent := sends_sp u _ toOwn
  obtain ⟨z, hz, rz⟩ := sent.getSp_some hy
  refine ⟨_, z, opEnv s sp o.dsc, mid, rfl, closed, hz, (rz.same .ops (by decide) :).trans ops, ?_, fun i hi => (sent.getSp_other hi).trans (others hi),
    ((out.mono (by decide)).trans (sends_same u _)).frame⟩
  rw [foldl_send_flight, out .caravan (by decide), hgs]
  exact (List.append_assoc ..).symm

end

/-- Settles O12: the comparison of the first closed operation, and what it finds of the groups. -/
theorem groupCompareOrder : Obligations.GroupCompareOrder := by
  unfold Obligations.GroupCompareOrder
  refine ⟨?_, ?_⟩
  · intro s j sp o hsp hlost hdead ho
    obtain ⟨t, sp', e, mid, he, run, own, ops, flight, others, frame⟩ := groupCompare_effect hsp hlost hdead ho
    rw [← he]
    rw [digestsMsg, any_cutShort] at flight
    refine ⟨t, sp', _, _, _, _, _, mid, _, _, _, _, run, own, ops, flight, ?_, ?_, others, frame⟩
    · intro hc hskip
      rw [judged, if_pos hc]
      exact screenSays_skipped (judgeAll_skipped hskip)
    · intro hc hn hoff
      rw [judged, if_pos hc]
      refine ⟨fun h1 h2 h3 i g hg ht hf => ?_, fun c hcl => ?_, fun h1 h2 => ?_, fun h1 h2 h3 => ?_, fun h1 h2 h3 => screenSays_own hn hoff h1 h2 h3⟩
      · have own_ : inconCause o g = none := by
          rw [inconCause_own h1 h2 h3, ht, hf]
          rfl
        rw [mem_suspGroups hn hg]
        refine ⟨fun hcls hck => judgeGroup_integer hoff ?_ own_, fun hcls => judgeGroup_float hoff ?_ own_⟩
        · rw [he]
          exact (if_pos hck).trans hcls
        · rw [he]
          intro h
          by_cases hck : dCheckable o.dsc = true
          · exact hcls ((if_pos hck).symm.trans h)
          · cases (if_neg hck).symm.trans h
      · exact screenSays_all hn hoff fun g => by rw [inconCause, hcl]
      · exact screenSays_all hn hoff fun g => by
          rw [inconCause, h1, h2]
          rfl
      · exact screenSays_all hn hoff fun g => by
          rw [inconCause, h1, h2, h3]
          rfl
  · intro s j sp o hsp hlost hdead ho
    refine congrArg Host.Outcome.next ((onSp_some hsp _).trans ((if_neg (by rw [hlost]; decide)).trans ?_))
    rw [ho]
    exact if_pos hdead

end Sys2Proof.Machine
end

section
/-! Sampled order and the limits of a tick (R337, R340). -/

set_option Elab.async false

namespace Sys2Proof.Machine

/-! ### Sampled order (R337) -/

theorem keyLe_iff (a b : Nat × Nat × Nat × Nat) : keyLe a b = true ↔
    a.1 < b.1 ∨ (a.1 = b.1 ∧ (a.2.1 < b.2.1 ∨ (a.2.1 = b.2.1 ∧ (a.2.2.1 < b.2.2.1 ∨ (a.2.2.1 = b.2.2.1 ∧ a.2.2.2 ≤ b.2.2.2))))) := by
  simp only [keyLe, Bool.or_eq_true, Bool.and_eq_true, decide_eq_true_eq, beq_iff_eq]

theorem keyLe_total (a b : Nat × Nat × Nat × Nat) : keyLe a b = true ∨ keyLe b a = true := by
  rw [keyLe_iff, keyLe_iff]
  omega

theorem keyLe_trans {a b c : Nat × Nat × Nat × Nat} (h : keyLe a b = true) (g : keyLe b c = true) : keyLe a c = true := by
  rw [keyLe_iff] at *
  omega

theorem keyLe_class {a b : Nat × Nat × Nat × Nat} (h : keyLe a b = true) : a.1 ≤ b.1 := by
  rw [keyLe_iff] at h
  omega

theorem sampled_perm (l : List Item) : (sampled l).Perm l := List.perm_insertionSort _ l

theorem sampled_sorted (l : List Item) : (sampled l).Pairwise fun a b => keyLe (itemKey a) (itemKey b) = true :=
  have : Std.Total fun a b : Item => keyLe (itemKey a) (itemKey b) = true := ⟨fun a b => keyLe_total _ _⟩
  have : IsTrans Item fun a b : Item => keyLe (itemKey a) (itemKey b) = true := ⟨fun _ _ _ h g => keyLe_trans h g⟩
  List.pairwise_insertionSort _ l

/-- The sort is stable: of one key, items stand in the order of their arrival. -/
theorem sampled_stable (l : List Item) (k : Nat × Nat × Nat × Nat) : (sampled l).filter (fun x => itemKey x == k) = l.filter (fun x => itemKey x == k) := by
  have : Std.Total fun a b : Item => keyLe (itemKey a) (itemKey b) = true := ⟨fun a b => keyLe_total _ _⟩
  have : IsTrans Item fun a b : Item => keyLe (itemKey a) (itemKey b) = true := ⟨fun _ _ _ h g => keyLe_trans h g⟩
  have equal : (l.filter fun x => itemKey x == k).Pairwise fun a b => keyLe (itemKey a) (itemKey b) = true :=
    List.pairwise_of_forall_mem_list fun a ha b hb => by
      rw [beq_iff_eq.1 (List.mem_filter.1 ha).2, beq_iff_eq.1 (List.mem_filter.1 hb).2]
      exact (keyLe_total k k).elim id id
  have within := (List.sublist_insertionSort (r := fun a b : Item => keyLe (itemKey a) (itemKey b) = true) equal List.filter_sublist).filter fun x => itemKey x == k
  rw [List.filter_filter] at within
  simp only [Bool.and_self] at within
  exact (within.eq_of_length ((sampled_perm l).filter _).length_eq.symm).symm

/-! ### What a tick takes, and what it carries (R340) -/

/-- Whether an item is of classes 0 to 4. -/
def lowItem (x : Item) : Bool := decide ((itemKey x).1 ≤ 4)

/-- The next item of a tick is taken, or carried when a limit is reached. -/
def takeStep (acc : List Item × List Item × Nat × Nat) (x : Item) : List Item × List Item × Nat × Nat :=
  if acc.2.2.2 ≥ 256 || (lowItem x && decide (acc.2.2.1 ≥ 64)) then (acc.1, acc.2.1 ++ [x], acc.2.2)
  else (acc.1 ++ [x], acc.2.1, acc.2.2.1 + b2n (lowItem x), acc.2.2.2 + 1)

theorem withinLimits_eq (l : List Item) : withinLimits l = ((l.foldl takeStep ([], [], 0, 0)).1, (l.foldl takeStep ([], [], 0, 0)).2.1) := rfl

/-- What holds of the items taken and carried so far. -/
structure Split (xs : List Item) (acc : List Item × List Item × Nat × Nat) : Prop where
  perm : (acc.1 ++ acc.2.1).Perm xs
  taken : acc.1.Sublist xs
  rest : acc.2.1.Sublist xs
  low : acc.2.2.1 = (acc.1.filter lowItem).length
  all : acc.2.2.2 = acc.1.length
  lowLimit : acc.2.2.1 ≤ 64
  limit : acc.2.2.2 ≤ 256
  why : ∀ x ∈ acc.2.1, acc.2.2.2 = 256 ∨ (lowItem x = true ∧ acc.2.2.1 = 64)

theorem Split.step {xs : List Item} {acc : List Item × List Item × Nat × Nat} (h : Split xs acc) (x : Item) : Split (xs ++ [x]) (takeStep acc x) := by
  obtain ⟨taken, rest, low, all⟩ := acc
  unfold takeStep
  by_cases hc : (decide (all ≥ 256) || (lowItem x && decide (low ≥ 64))) = true
  · rw [if_pos hc]
    refine ⟨?_, h.taken.trans (List.sublist_append_left _ _), h.rest.append (List.Sublist.refl _), h.low, h.all, h.lowLimit, h.limit, fun y hy => ?_⟩
    · rw [← List.append_assoc]
      exact h.perm.append_right [x]
    · obtain hy | hy := List.mem_append.1 hy
      · exact h.why y hy
      · rw [List.mem_singleton.1 hy]
        have limit : all ≤ 256 := h.limit
        have lowLimit : low ≤ 64 := h.lowLimit
        obtain hc | hc := (Bool.or_eq_true _ _ ▸ hc : _ ∨ _)
        · exact .inl (Nat.le_antisymm limit (of_decide_eq_true hc))
        · obtain ⟨hl, hn⟩ := Bool.and_eq_true_iff.1 hc
          exact .inr ⟨hl, Nat.le_antisymm lowLimit (of_decide_eq_true hn)⟩
  · rw [if_neg hc]
    have hall : all < 256 := by
      by_contra hn
      exact hc (by rw [decide_eq_true (Nat.not_lt.1 hn)]; rfl)
    have hlow : lowItem x = true → low < 64 := fun hl => by
      by_contra hn
      exact hc (by rw [hl, decide_eq_true (Nat.not_lt.1 hn), Bool.and_self, Bool.or_true])
    have lowLimit : low ≤ 64 := h.lowLimit
    refine ⟨?_, h.taken.append (List.Sublist.refl _), h.rest.trans (List.sublist_append_left _ _), ?_, ?_, ?_, hall, fun y hy => ?_⟩
    · exact (List.append_assoc taken [x] rest ▸ (List.perm_append_comm.append_left taken).trans (List.append_assoc taken rest [x] ▸ h.perm.append_right [x]))
    · rw [List.filter_append, List.length_append, ← h.low]
      cases hx : lowItem x <;> simp [List.filter, hx, b2n]
    · exact (congrArg (· + 1) h.all).trans (List.length_append (as := taken) (bs := [x])).symm
    · change low + b2n (lowItem x) ≤ 64
      cases hx : lowItem x with
      | true => exact hlow hx
      | false => exact lowLimit
    · obtain hy | ⟨hl, hn⟩ := h.why y hy
      · exact absurd hy (Nat.ne_of_lt hall)
      · refine .inr ⟨hl, ?_⟩
        change low + b2n (lowItem x) = 64
        cases hx : lowItem x with
        | true => exact absurd hn (Nat.ne_of_lt (hlow hx))
        | false => exact hn

theorem split_foldl (l : List Item) : Split l (l.foldl takeStep ([], [], 0, 0)) := by
  induction l using List.reverseRecOn with
  | nil => exact ⟨List.Perm.refl _, List.Sublist.refl _, List.Sublist.refl _, rfl, rfl, by decide, by decide, fun _ h => (List.not_mem_nil h).elim⟩
  | append_singleton l x ih =>
    rw [List.foldl_append]
    exact ih.step x

/-- What fits within the limits is taken whole. -/
theorem takeStep_all {l : List Item} (hl : l.length ≤ 256) (hh : ∀ x ∈ l, lowItem x = false) : (withinLimits l).1 = l := by
  have whole : (l.foldl takeStep ([], [], 0, 0)).2.1 = [] := by
    have h := split_foldl l
    refine List.eq_nil_iff_forall_not_mem.2 fun x hx => ?_
    obtain hn | ⟨hlow, -⟩ := h.why x hx
    · have len := h.perm.length_eq
      rw [List.length_append, ← h.all, hn] at len
      have some_ := List.length_pos_of_mem hx
      omega
    · rw [hh x (h.rest.subset hx)] at hlow
      cases hlow
  have h := split_foldl l
  rw [withinLimits_eq]
  refine h.taken.eq_of_length ?_
  rw [← h.perm.length_eq, whole, List.append_nil]

theorem takeStep_prefix (l : List Item) (acc : List Item × List Item × Nat × Nat) : acc.1 <+: (l.foldl takeStep acc).1 := by
  refine List.foldlRecOn (motive := fun b => acc.1 <+: b.1) l takeStep (List.prefix_refl _) fun b hb x _ => ?_
  unfold takeStep
  split
  · exact hb
  · exact hb.trans (List.prefix_append _ _)

/-- The first item is always taken. -/
theorem withinLimits_first (x : Item) (l : List Item) : ∃ l', (withinLimits (x :: l)).1 = x :: l' ∧ l'.Sublist l := by
  have first : takeStep ([], [], 0, 0) x = ([x], [], b2n (lowItem x), 1) := by
    unfold takeStep
    rw [if_neg (by cases lowItem x <;> decide), Nat.zero_add]
    rfl
  obtain ⟨l', hl'⟩ : [x] <+: (withinLimits (x :: l)).1 := by
    rw [withinLimits_eq, List.foldl_cons, first]
    exact takeStep_prefix l ([x], [], b2n (lowItem x), 1)
  have whole : (withinLimits (x :: l)).1 = x :: l' := hl'.symm
  have taken : (withinLimits (x :: l)).1.Sublist (x :: l) := (split_foldl (x :: l)).taken
  rw [whole] at taken
  exact ⟨l', whole, List.cons_sublist_cons.1 taken⟩

/-- An item that comes before all others stands first. -/
theorem sampled_first {x : Item} {l : List Item} (h : ∀ y ∈ l, keyLe (itemKey x) (itemKey y) = true) : sampled (x :: l) = x :: sampled l :=
  List.insertionSort_cons_of_forall_rel _ h

end Sys2Proof.Machine
end

section
/-! The actions gathered (R337, R346 to R349). -/

set_option Elab.async false

namespace Sys2Proof.Machine

/-! ### The actions gathered, in order (R337, R347) -/

theorem numbered_mem {k : Nat} {l : List Act} {a : Act} : a ∈ numbered k l ↔ ∃ (n : Nat) (b : Act), l[n]? = some b ∧ a = { b with seq := k + n } := by
  unfold numbered
  constructor
  · intro h
    obtain ⟨x, hx, rfl⟩ := List.mem_map.1 h
    exact ⟨x.2, x.1, List.mem_zipIdx_iff_getElem?.1 hx, rfl⟩
  · rintro ⟨n, b, hb, rfl⟩
    exact List.mem_map.2 ⟨(b, n), List.mk_mem_zipIdx_iff_getElem?.2 hb, rfl⟩

theorem numbered_length (k : Nat) (l : List Act) : (numbered k l).length = l.length := by
  unfold numbered
  rw [List.length_map, List.length_zipIdx]

/-- What a property says that does not ask for an action's place. -/
theorem numbered_exists {k : Nat} {l : List Act} {Q : Act → Prop} (hQ : ∀ b n, Q { b with seq := n } ↔ Q b) : (∃ a ∈ numbered k l, Q a) ↔ ∃ a ∈ l, Q a := by
  constructor
  · rintro ⟨a, ha, h⟩
    obtain ⟨n, b, hb, rfl⟩ := numbered_mem.1 ha
    exact ⟨b, List.mem_of_getElem? hb, (hQ b _).1 h⟩
  · rintro ⟨b, hb, h⟩
    obtain ⟨n, hn, e⟩ := List.mem_iff_getElem.1 hb
    exact ⟨_, numbered_mem.2 ⟨n, b, List.getElem?_eq_some_iff.2 ⟨hn, e⟩, rfl⟩, (hQ b _).2 h⟩

/-- Actions gathered in ascending class, up to a class, each numbered by its place. -/
structure Gathered (c : Nat) (l : List Act) : Prop where
  order : l.Pairwise fun a b => a.cls ≤ b.cls ∧ a.seq < b.seq
  seq : ∀ a ∈ l, a.seq < l.length
  cls : ∀ a ∈ l, a.cls ≤ c

theorem gathered_nil (c : Nat) : Gathered c [] := ⟨List.Pairwise.nil, fun _ h => (List.not_mem_nil h).elim, fun _ h => (List.not_mem_nil h).elim⟩

theorem Gathered.mono {c d : Nat} {l : List Act} (h : Gathered c l) (hcd : c ≤ d) : Gathered d l := ⟨h.order, h.seq, fun a ha => (h.cls a ha).trans hcd⟩

theorem numbered_pairwise {c k : Nat} {l : List Act} (hl : ∀ b ∈ l, b.cls = c) : (numbered k l).Pairwise fun a b => a.cls ≤ b.cls ∧ a.seq < b.seq := by
  refine List.pairwise_iff_getElem.2 fun i j hi hj hij => ?_
  rw [numbered_length] at hi hj
  have at_ (n : Nat) (hn : n < l.length) (h : n < (numbered k l).length) : (numbered k l)[n] = { l[n] with seq := k + n } := by
    refine List.getElem_of_eq rfl h |>.trans ((List.getElem_map _).trans ?_)
    rw [List.getElem_zipIdx, Nat.zero_add]
  rw [at_ i hi, at_ j hj]
  refine ⟨?_, Nat.add_lt_add_left hij k⟩
  change l[i].cls ≤ l[j].cls
  rw [hl _ (List.getElem_mem hi), hl _ (List.getElem_mem hj)]

theorem Gathered.append {c d : Nat} {l acts : List Act} (h : Gathered c l) (hcd : c ≤ d) (ha : ∀ b ∈ acts, b.cls = d) : Gathered d (l ++ numbered l.length acts) where
  order := List.pairwise_append.2 ⟨h.order, numbered_pairwise ha, fun a hl b hb => by
    obtain ⟨n, x, hx, rfl⟩ := numbered_mem.1 hb
    have cls : x.cls = d := ha x (List.mem_of_getElem? hx)
    exact ⟨((h.cls a hl).trans hcd).trans_eq cls.symm, (h.seq a hl).trans_le (Nat.le_add_right _ _)⟩⟩
  seq a hmem := by
    rw [List.length_append, numbered_length]
    obtain hl | hb := List.mem_append.1 hmem
    · exact (h.seq a hl).trans_le (Nat.le_add_right _ _)
    · obtain ⟨n, x, hx, rfl⟩ := numbered_mem.1 hb
      exact Nat.add_lt_add_left (List.getElem?_eq_some_iff.1 hx).1 _
  cls a hmem := by
    obtain hl | hb := List.mem_append.1 hmem
    · exact (h.cls a hl).trans hcd
    · obtain ⟨n, x, hx, rfl⟩ := numbered_mem.1 hb
      exact (ha x (List.mem_of_getElem? hx)).le

section
variable {v : State} {m : Matched} {cls part n : Nat} {i : Option Input}

theorem pealActs_cls (v : State) (cls ix : Nat) (p : Peal) (part : Nat) (i : Option Input) : ∀ b ∈ pealActs v cls ix p part i, b.cls = cls := by
  intro b hb
  unfold pealActs at hb
  dsimp only at hb
  split at hb
  · obtain ⟨x, -, rfl⟩ := List.mem_map.1 hb
    rfl
  · split at hb
    · rw [List.mem_singleton.1 hb]
    · exact (List.not_mem_nil hb).elim

theorem fireAt_gathered {c : Nat} (h : Gathered c m.acts) (hc : c ≤ cls) (x : Nat × Peal) : Gathered cls (fireAt n cls part i m x).acts := by
  have more := h.append hc (pealActs_cls m.st cls x.1 x.2 part i)
  have kept := h.mono hc
  unfold fireAt
  split
  · exact kept
  · dsimp only
    split
    · exact kept
    · split
      · split
        · exact more
        · exact kept
      · exact more

theorem fires_gathered {c : Nat} (h : Gathered c m.acts) (hc : c ≤ cls) (l : List (Nat × Peal)) : Gathered cls (l.foldl (fireAt n cls part i) m).acts :=
  List.foldlRecOn (motive := fun m : Matched => Gathered cls m.acts) l _ (h.mono hc) fun _ hm x _ => fireAt_gathered hm le_rfl x

theorem safeActs_cls (v : State) (i : Input) : ∀ b ∈ safeActs v i, b.cls = i.cls := by
  intro b hb
  unfold safeActs at hb
  split at hb
  · split at hb
    · rw [List.mem_singleton.1 hb]
    · exact (List.not_mem_nil hb).elim
  · exact (List.not_mem_nil hb).elim

theorem commandActs_cls (v : State) (c : CmdIn) : ∀ b ∈ commandActs v c, b.cls = 9 := by
  intro b hb
  unfold commandActs at hb
  dsimp only at hb
  split at hb <;> rw [List.mem_singleton.1 hb]

theorem itemActs_gathered {c : Nat} (h : Gathered c m.acts) (x : Item) (hc : c ≤ (itemKey x).1) : Gathered (itemKey x).1 (itemActs n m x).acts := by
  cases x with
  | input _ i => exact fires_gathered (h.append hc (safeActs_cls m.st i)) le_rfl _
  | word _ w => exact fires_gathered h hc _
  | timer _ ix p => exact h.append hc (pealActs_cls m.st 8 ix _ p none)
  | cmd _ x => exact h.append hc (commandActs_cls m.st x)
  | label _ v => exact h.append hc fun b hb => by rw [List.mem_singleton.1 hb]; rfl

/-- The actions of items in sampled order run in ascending class, and within a class in that order. -/
theorem items_gathered {c : Nat} (h : Gathered c m.acts) {l : List Item} (hs : l.Pairwise fun a b => keyLe (itemKey a) (itemKey b) = true)
    (hc : ∀ x ∈ l, c ≤ (itemKey x).1) : ∃ d, Gathered d (l.foldl (itemActs n) m).acts := by
  induction l generalizing c m with
  | nil => exact ⟨c, h⟩
  | cons x l ih =>
    obtain ⟨hx, hs⟩ := List.pairwise_cons.1 hs
    exact ih (itemActs_gathered h x (hc x List.mem_cons_self)) hs fun y hy => keyLe_class (hx y hy)

/-! ### Which peals give their actions (R346 to R349) -/

/-- Only peals that are disarmed may differ. -/
def disarmedSet (v : State) (l : List Nat) : State := { v with belfry := { v.belfry with disarmed := l } }

theorem pealActs_disarmed (v : State) (l : List Nat) (cls ix : Nat) (p : Peal) (part : Nat) (i : Option Input) :
    pealActs (disarmedSet v l) cls ix p part i = pealActs v cls ix p part i := rfl

theorem onceFired_eq (ix : Nat) (p : Peal) (s : State) : onceFired ix p s = disarmedSet s (if plOnce p then s.belfry.disarmed ++ [ix] else s.belfry.disarmed) := by
  unfold onceFired disarmedSet
  split <;> rfl

/-- What is matched from a state of which only peals were disarmed, with no count fired. -/
structure Plain (v : State) (l : List (Nat × Peal)) (m : Matched) : Prop where
  st : ∃ d, m.st = disarmedSet v d
  live : ∀ y ∈ l, pealLive m.st y.1 = pealLive v y.1
  fires : m.fires = []

/-- A peal that does not count fires where it is live, with its actions behind those gathered. -/
theorem fireAt_plain {x : Nat × Peal} {l : List (Nat × Peal)} (h : Plain v (x :: l) m) (hc : counting x.2 = false) (hx : x.1 ∉ l.map (·.1)) :
    Plain v l (fireAt n cls part i m x) ∧ (fireAt n cls part i m x).acts = m.acts ++
      if pealLive v x.1 then numbered m.acts.length (pealActs v cls x.1 x.2 part i) else [] := by
  obtain ⟨⟨d, hd⟩, live, fires⟩ := h
  have kept : Plain v l m := ⟨⟨d, hd⟩, fun y hy => live y (List.mem_cons_of_mem _ hy), fires⟩
  have own := live x List.mem_cons_self
  have acts : pealActs m.st cls x.1 x.2 part i = pealActs v cls x.1 x.2 part i := by rw [hd, pealActs_disarmed]
  unfold fireAt
  rw [own, acts]
  by_cases hl : pealLive v x.1 = true
  · rw [hl, if_neg (by decide : ¬ (!true) = true), if_pos (rfl : true = true)]
    dsimp only
    by_cases he : (numbered m.acts.length (pealActs v cls x.1 x.2 part i)).isEmpty = true
    · rw [if_pos he, List.isEmpty_iff.1 he, List.append_nil]
      exact ⟨kept, rfl⟩
    · rw [if_neg he, hc, if_neg Bool.false_ne_true]
      refine ⟨⟨⟨_, by rw [onceFired_eq, hd]; rfl⟩, fun y hy => ?_, fires⟩, rfl⟩
      have other : y.1 ≠ x.1 := fun e => hx (e ▸ List.mem_map_of_mem hy)
      rw [← live y (List.mem_cons_of_mem _ hy), onceFired_eq]
      have same : (if plOnce x.2 then m.st.belfry.disarmed ++ [x.1] else m.st.belfry.disarmed).contains y.1 = m.st.belfry.disarmed.contains y.1 := by
        split
        · rw [List.contains_eq_any_beq, List.any_append, ← List.contains_eq_any_beq, List.any_cons, List.any_nil, beq_false_of_ne other, Bool.or_false, Bool.or_false]
        · rfl
      unfold pealLive
      exact congrArg (fun b => !b && _) same
  · rw [Bool.eq_false_of_not_eq_true hl, if_pos (by decide : (!false) = true), if_neg Bool.false_ne_true, List.append_nil]
    exact ⟨kept, rfl⟩

/-- Which actions of a kind peals that do not count give: those of the live ones. -/
theorem fires_exist {Q : Act → Prop} (hQ : ∀ b k, Q { b with seq := k } ↔ Q b) {l : List (Nat × Peal)} (h : Plain v l m) (hc : ∀ y ∈ l, counting y.2 = false)
    (hn : (l.map (·.1)).Nodup) :
    (∃ a ∈ (l.foldl (fireAt n cls part i) m).acts, Q a) ↔ (∃ a ∈ m.acts, Q a) ∨ ∃ y ∈ l, pealLive v y.1 = true ∧ ∃ a ∈ pealActs v cls y.1 y.2 part i, Q a := by
  induction l generalizing m with
  | nil => exact ⟨.inl, fun h => h.elim id fun ⟨_, hy, _⟩ => (List.not_mem_nil hy).elim⟩
  | cons x l ih =>
    obtain ⟨hx, hn⟩ := List.nodup_cons.1 hn
    obtain ⟨plain, acts⟩ := fireAt_plain (n := n) (cls := cls) (part := part) (i := i) h (hc x List.mem_cons_self) hx
    have own : (∃ a ∈ (fireAt n cls part i m x).acts, Q a) ↔ (∃ a ∈ m.acts, Q a) ∨ (pealLive v x.1 = true ∧ ∃ a ∈ pealActs v cls x.1 x.2 part i, Q a) := by
      rw [acts]
      by_cases hl : pealLive v x.1 = true
      · rw [if_pos hl]
        simp only [List.mem_append, or_and_right, exists_or, numbered_exists hQ, hl, true_and]
      · rw [if_neg hl, List.append_nil]
        exact ⟨.inl, fun h => h.resolve_right fun g => hl g.1⟩
    rw [List.foldl_cons, ih plain (fun y hy => hc y (List.mem_cons_of_mem _ hy)) hn, own, or_assoc]
    simp only [List.mem_cons, or_and_right, exists_or, exists_eq_left]

theorem allPeals_fst (v : State) : ((allPeals v).map (·.1)).Nodup := by
  unfold allPeals
  rw [List.map_map]
  change (((v.image.map (·.peals)).getD []).zipIdx.map Prod.snd).Nodup
  rw [List.zipIdx_map_snd]
  exact List.nodup_range'

theorem allPeals_unique {ix : Nat} {p q : Peal} (hp : (ix, p) ∈ allPeals v) (hq : (ix, q) ∈ allPeals v) : p = q := by
  obtain ⟨x, hx, ex⟩ := List.mem_map.1 hp
  obtain ⟨y, hy, ey⟩ := List.mem_map.1 hq
  obtain ⟨rfl, rfl⟩ := Prod.mk.inj ex
  obtain ⟨e, rfl⟩ := Prod.mk.inj ey
  have hx := List.mem_zipIdx_iff_getElem?.1 hx
  have hy := List.mem_zipIdx_iff_getElem?.1 hy
  rw [e] at hy
  exact Option.some.inj (hx.symm.trans hy)

/-- The tiles that TGT_MODE chooses for an input, as the manual lists its modes (R349). -/
theorem mem_targets {p : Peal} {i : Input} {sp : Nat} : sp ∈ targets v p i.part (some i) ↔ (∃ tl ∈ v.tiles, tl.ix = sp ∧ tl.part = i.part) ∧
    (match plTgt p with
      | 0 => i.spire = sp ∧ sp ≠ 0xFFFF
      | 1 => sp = plIdx p
      | 2 => sp / 256 = plIdx p
      | 3 => True
      | _ => ∃ im set, v.image = some im ∧ im.tileSets[plIdx p]? = some set ∧ ∃ r ∈ set, r.1 ≤ sp ∧ sp ≤ r.2) := by
  have mine : sp ∈ (v.tiles.filter fun t => t.part == i.part).map (·.ix) ↔ ∃ tl ∈ v.tiles, tl.ix = sp ∧ tl.part = i.part := by
    simp only [List.mem_map, List.mem_filter, beq_iff_eq]
    exact exists_congr fun t => ⟨fun ⟨⟨a, b⟩, c⟩ => ⟨a, c, b⟩, fun ⟨a, c, b⟩ => ⟨⟨a, b⟩, c⟩⟩
  rw [← mine]
  unfold targets
  dsimp only
  generalize plTgt p = k
  rcases k with _ | _ | _ | _ | k
  · refine List.mem_filter.trans (and_congr_right fun _ => ?_)
    change (inputTile (some i) == some sp) = true ↔ i.spire = sp ∧ sp ≠ 0xFFFF
    rw [beq_iff_eq, inputTile, Option.bind_some]
    split
    · exact iff_of_false (fun e => by cases e) fun ⟨e, ne⟩ => ne (e.symm.trans ‹_›)
    · exact ⟨fun e => by cases e; exact ⟨rfl, ‹_›⟩, fun e => congrArg some e.1⟩
  · exact List.mem_filter.trans (and_congr_right fun _ => beq_iff_eq)
  · exact List.mem_filter.trans (and_congr_right fun _ => beq_iff_eq)
  · exact (iff_of_eq (and_true _)).symm
  · refine List.mem_filter.trans (and_congr_right fun _ => ?_)
    change (((v.image.bind fun im => im.tileSets[plIdx p]?).getD []).any fun r => decide (r.1 ≤ sp) && decide (sp ≤ r.2)) = true ↔
      ∃ im set, v.image = some im ∧ im.tileSets[plIdx p]? = some set ∧ ∃ r ∈ set, r.1 ≤ sp ∧ sp ≤ r.2
    simp only [List.any_eq_true, Bool.and_eq_true, decide_eq_true_eq]
    cases him : v.image with
    | none =>
      refine iff_of_false (fun ⟨_, hr, _⟩ => List.not_mem_nil hr) fun ⟨_, _, e, _⟩ => ?_
      cases e
    | some im =>
      rw [Option.bind_some]
      cases hset : im.tileSets[plIdx p]? with
      | none =>
        refine iff_of_false (fun ⟨_, hr, _⟩ => List.not_mem_nil hr) fun ⟨_, _, e, h, _⟩ => ?_
        cases e
        cases hset.symm.trans h
      | some set =>
        refine ⟨fun h => ⟨im, set, rfl, hset, h⟩, fun ⟨_, _, e, h, r⟩ => ?_⟩
        cases e
        cases hset.symm.trans h
        exact r

/-- The tile actions of a peal. -/
theorem pealActs_tile {p : Peal} (ht : tileAct (plAct p) = true) (v : State) (cls ix part : Nat) (i : Option Input) (sp : Nat) :
    (∃ a ∈ pealActs v cls ix p part i, a.peal = ix ∧ a.tile = some sp ∧ a.code = plAct p ∧ a.cls = cls) ↔ sp ∈ targets v p part i ∧ condOk v p part (some sp) = true := by
  unfold pealActs
  dsimp only
  rw [if_pos ht]
  constructor
  · rintro ⟨a, ha, -, tile, -, -⟩
    obtain ⟨x, hx, rfl⟩ := List.mem_map.1 ha
    obtain rfl := Option.some.inj tile
    exact List.mem_filter.1 hx
  · intro h
    exact ⟨_, List.mem_map.2 ⟨sp, List.mem_filter.2 h, rfl⟩, rfl, rfl, rfl, rfl⟩

theorem pealActs_peal (v : State) (cls ix : Nat) (p : Peal) (part : Nat) (i : Option Input) : ∀ a ∈ pealActs v cls ix p part i, a.peal = ix := by
  intro a ha
  unfold pealActs at ha
  dsimp only at ha
  split at ha
  · obtain ⟨x, -, rfl⟩ := List.mem_map.1 ha
    rfl
  · split at ha
    · rw [List.mem_singleton.1 ha]
    · exact (List.not_mem_nil ha).elim

/-- An input gives a tile action of a peal that does not count exactly on the tiles that the peal chooses, where it matches. -/
theorem input_acts {c : Bool} {i : Input} {ix sp : Nat} {p : Peal} (hsafe : inSafe v uBlf = false) (hcount : ∀ y ∈ allPeals v, counting y.2 = false)
    (hp : (ix, p) ∈ allPeals v) (ht : tileAct (plAct p) = true) :
    (∃ a ∈ (itemActs n ⟨v, [], []⟩ (.input c i)).acts, a.peal = ix ∧ a.tile = some sp ∧ a.code = plAct p ∧ a.cls = i.cls) ↔
      pealLive v ix = true ∧ reactMatch v i p = true ∧ sp ∈ targets v p i.part (some i) ∧ condOk v p i.part (some sp) = true := by
  have none_ : safeActs v i = [] := if_neg fun h => by
    rw [hsafe] at h
    exact absurd h.1 (by decide)
  have plain : Plain v ((allPeals v).filter fun x => reactMatch v i x.2) ⟨v, [], []⟩ := ⟨⟨v.belfry.disarmed, rfl⟩, fun _ _ => rfl, rfl⟩
  have gives := fires_exist (n := n) (cls := i.cls) (part := i.part) (i := some i) (Q := fun a => a.peal = ix ∧ a.tile = some sp ∧ a.code = plAct p ∧ a.cls = i.cls)
    (fun _ _ => Iff.rfl) plain (fun y hy => hcount y (List.mem_filter.1 hy).1) ((List.filter_sublist.map _).nodup (allPeals_fst v))
  have run : (itemActs n ⟨v, [], []⟩ (.input c i)).acts = (((allPeals v).filter fun x => reactMatch v i x.2).foldl (fireAt n i.cls i.part (some i)) ⟨v, [], []⟩).acts := by
    unfold itemActs
    dsimp only
    rw [none_]
    rfl
  rw [run, gives]
  constructor
  · rintro (⟨a, ha, -⟩ | ⟨y, hy, live, a, ha, h⟩)
    · exact (List.not_mem_nil ha).elim
    · obtain ⟨mem, hm⟩ := List.mem_filter.1 hy
      obtain ⟨k, q⟩ := y
      obtain rfl : k = ix := (pealActs_peal v i.cls k q i.part (some i) a ha).symm.trans h.1
      obtain rfl := allPeals_unique hp mem
      exact ⟨live, hm, (pealActs_tile ht v i.cls k i.part (some i) sp).1 ⟨a, ha, h⟩⟩
  · rintro ⟨live, hm, h⟩
    exact .inr ⟨(ix, p), List.mem_filter.2 ⟨hp, hm⟩, live, (pealActs_tile ht v i.cls ix i.part (some i) sp).2 h⟩

theorem reactMatch_iff {i : Input} {p : Peal} : reactMatch v i p = true ↔ plKind p = kReact ∧ plTrig p = i.code ∧ (plAllp p = true ∨ plPart p = i.part) ∧
    (plCause p = 0xFF ∨ plCause p = i.cause) ∧ plRLo p ≤ i.layer.toNat ∧ i.layer.toNat ≤ plRHi p ∧
    (plMask p = 0 ∨ i.spire = 0xFFFF ∨ plMask p / 2 ^ stateOf v i.spire % 2 = 1) := by
  simp only [reactMatch, Bool.and_eq_true, Bool.or_eq_true, beq_iff_eq, decide_eq_true_eq, and_assoc, or_assoc]

end

end Sys2Proof.Machine
end

section
/-! What becomes of the actions on one tile (R341, R342). -/

set_option Elab.async false

namespace Sys2Proof.Machine

/-! ### What becomes of the actions on one tile (R341, R342) -/

/-- The lowest class present. -/
def lowestCls (mine : List Act) : Nat := (mine.map (·.cls)).foldl min 15

/-- The actions of the lowest class. -/
def peersOf (mine : List Act) : List Act := mine.filter fun b => b.cls == lowestCls mine

/-- The highest severity among the state actions of a list. -/
def topSev (l : List Act) : Nat := (l.filterMap fun b => stateSev b.code).foldl max 0

theorem foldl_min_le (l : List Nat) (b : Nat) : l.foldl min b ≤ b ∧ ∀ x ∈ l, l.foldl min b ≤ x := by
  induction l generalizing b with
  | nil => exact ⟨le_rfl, fun _ h => (List.not_mem_nil h).elim⟩
  | cons y l ih =>
    obtain ⟨h1, h2⟩ := ih (min b y)
    exact ⟨h1.trans (min_le_left b y), List.forall_mem_cons.2 ⟨h1.trans (min_le_right b y), h2⟩⟩

theorem le_foldl_min {l : List Nat} {b c : Nat} (hb : c ≤ b) (hl : ∀ x ∈ l, c ≤ x) : c ≤ l.foldl min b := by
  induction l generalizing b with
  | nil => exact hb
  | cons y l ih =>
    obtain ⟨hy, hl⟩ := List.forall_mem_cons.1 hl
    exact ih (le_min hb hy) hl

theorem le_foldl_max (l : List Nat) (b : Nat) : b ≤ l.foldl max b ∧ ∀ x ∈ l, x ≤ l.foldl max b := by
  induction l generalizing b with
  | nil => exact ⟨le_rfl, fun _ h => (List.not_mem_nil h).elim⟩
  | cons y l ih =>
    obtain ⟨h1, h2⟩ := ih (max b y)
    exact ⟨(le_max_left b y).trans h1, List.forall_mem_cons.2 ⟨(le_max_right b y).trans h1, h2⟩⟩

theorem foldl_max_mem (l : List Nat) (b : Nat) : l.foldl max b = b ∨ l.foldl max b ∈ l := by
  induction l generalizing b with
  | nil => exact .inl rfl
  | cons y l ih =>
    obtain h | h := ih (max b y)
    · rw [List.foldl_cons, h]
      refine (max_choice b y).imp_right fun e => ?_
      rw [e]
      exact List.mem_cons_self
    · exact .inr (List.mem_cons_of_mem _ h)

theorem foldl_min_mem (l : List Nat) (b : Nat) : l.foldl min b = b ∨ l.foldl min b ∈ l := by
  induction l generalizing b with
  | nil => exact .inl rfl
  | cons y l ih =>
    obtain h | h := ih (min b y)
    · rw [List.foldl_cons, h]
      refine (min_choice b y).imp_right fun e => ?_
      rw [e]
      exact List.mem_cons_self
    · exact .inr (List.mem_cons_of_mem _ h)

section
variable {mine : List Act} {a b : Act} {v : Nat}

theorem lowestCls_le (hb : b ∈ mine) : lowestCls mine ≤ b.cls := (foldl_min_le _ _).2 _ (List.mem_map_of_mem hb)

theorem lowestCls_eq (ha : a ∈ mine) (h15 : a.cls ≤ 15) (h : ∀ b ∈ mine, a.cls ≤ b.cls) : lowestCls mine = a.cls :=
  Nat.le_antisymm (lowestCls_le ha) (le_foldl_min h15 fun x hx => by
    obtain ⟨b, hb, rfl⟩ := List.mem_map.1 hx
    exact h b hb)

theorem mem_peersOf : b ∈ peersOf mine ↔ b ∈ mine ∧ b.cls = lowestCls mine := by rw [peersOf, List.mem_filter, beq_iff_eq]

theorem le_topSev {l : List Act} (hb : b ∈ l) (hs : stateSev b.code = some v) : v ≤ topSev l := (le_foldl_max _ _).2 _ (List.mem_filterMap.2 ⟨b, hb, hs⟩)

/-- The highest severity is that of an action, where one has a severity. -/
theorem topSev_attained {l : List Act} (hb : b ∈ l) (hs : stateSev b.code = some v) : ∃ c ∈ l, stateSev c.code = some (topSev l) := by
  obtain h | h := foldl_max_mem (l.filterMap fun b => stateSev b.code) 0
  · have zero : v = 0 := Nat.le_zero.1 (h ▸ le_topSev hb hs)
    exact ⟨b, hb, by rw [topSev, h, hs, zero]⟩
  · obtain ⟨c, hc, e⟩ := List.mem_filterMap.1 h
    exact ⟨c, hc, e⟩

theorem fateOn_higher (h : a.cls ≠ lowestCls mine) : fateOn mine a = .cancelled := if_pos h

theorem fateOn_state (hc : a.cls = lowestCls mine) (hs : stateSev a.code = some v) : fateOn mine a =
    if v < topSev (peersOf mine) then .cancelled
    else if ((peersOf mine).find? fun b => stateSev b.code == some (topSev (peersOf mine))).map (·.seq) = some a.seq then .stands
    else if ((peersOf mine).find? fun b => stateSev b.code == some (topSev (peersOf mine))).map (·.code) = some a.code then (if a.cmd.isSome then .stands else .merged)
    else .cancelled := by
  refine (if_neg (not_not.2 hc)).trans ?_
  rw [hs]
  rfl

theorem fateOn_other (hc : a.cls = lowestCls mine) (hs : stateSev a.code = none) : fateOn mine a =
    if ((peersOf mine).find? fun b => b.code == a.code).map (·.seq) = some a.seq ∨ a.cmd.isSome then .stands else .merged := by
  refine (if_neg (not_not.2 hc)).trans ?_
  rw [hs]
  rfl

/-- In a list in ascending place, the first of a kind comes no later than any of that kind. -/
theorem find_first {l : List Act} {p : Act → Bool} (hl : l.Pairwise fun a b => a.seq < b.seq) (hb : b ∈ l) (hp : p b = true) :
    ∃ c ∈ l, l.find? p = some c ∧ p c = true ∧ c.seq ≤ b.seq := by
  induction l with
  | nil => exact (List.not_mem_nil hb).elim
  | cons x l ih =>
    obtain ⟨hx, hl⟩ := List.pairwise_cons.1 hl
    by_cases hpx : p x = true
    · refine ⟨x, List.mem_cons_self, List.find?_cons_of_pos hpx, hpx, ?_⟩
      obtain rfl | hb := List.mem_cons.1 hb
      · exact le_rfl
      · exact (hx b hb).le
    · have hb : b ∈ l := (List.mem_cons.1 hb).resolve_left fun e => hpx (e ▸ hp)
      obtain ⟨c, hc, find, pc, le⟩ := ih hl hb
      exact ⟨c, List.mem_cons_of_mem _ hc, by rw [List.find?_cons_of_neg hpx]; exact find, pc, le⟩

theorem peersOf_order (order : mine.Pairwise fun a b => a.seq < b.seq) : (peersOf mine).Pairwise fun a b => a.seq < b.seq := order.filter _

/-- An action of the lowest class. -/
theorem exists_lowest (ha : a ∈ mine) (h15 : ∀ b ∈ mine, b.cls ≤ 15) : ∃ c ∈ mine, c.cls = lowestCls mine := by
  obtain h | h := foldl_min_mem (mine.map (·.cls)) 15
  · exact ⟨a, ha, Nat.le_antisymm ((h15 a ha).trans_eq h.symm) (lowestCls_le ha)⟩
  · obtain ⟨c, hc, e⟩ := List.mem_map.1 h
    exact ⟨c, hc, e⟩

variable (order : mine.Pairwise fun a b => a.seq < b.seq) (hcls : a.cls = lowestCls mine) (ha : a ∈ mine)

include order hcls ha in
/-- The first of the highest severity stands. -/
theorem fateOn_top (hs : stateSev a.code = some v)
    (h : ∀ b ∈ mine, b.cls = a.cls → ∀ x, stateSev b.code = some x → x < v ∨ (x = v ∧ a.seq ≤ b.seq)) : fateOn mine a = .stands := by
  have own : a ∈ peersOf mine := mem_peersOf.2 ⟨ha, hcls⟩
  obtain ⟨c, hc, sc⟩ := topSev_attained own hs
  obtain ⟨cm, cc⟩ := mem_peersOf.1 hc
  have top : topSev (peersOf mine) = v := Nat.le_antisymm
    ((h c cm (cc.trans hcls.symm) _ sc).elim Nat.le_of_lt fun e => e.1.le) (le_topSev own hs)
  obtain ⟨d, hd, find, pd, le⟩ := find_first (p := fun b => stateSev b.code == some v) (peersOf_order order) own (beq_iff_eq.2 hs)
  obtain ⟨dm, dc⟩ := mem_peersOf.1 hd
  have first : d.seq = a.seq := Nat.le_antisymm le ((h d dm (dc.trans hcls.symm) v (beq_iff_eq.1 pd)).elim (fun e => absurd e (lt_irrefl v)) fun e => e.2)
  rw [fateOn_state hcls hs, top, if_neg (lt_irrefl v), find, Option.map_some, first, if_pos rfl]

include order hcls in
/-- A state action after another of its severity does not stand. -/
theorem fateOn_later (hs : stateSev a.code = some v) (hb : b ∈ mine) (hbc : b.cls = a.cls) (hlt : b.seq < a.seq) (hbs : stateSev b.code = some v)
    (hcmd : a.cmd = none) : fateOn mine a ≠ .stands := by
  have other : b ∈ peersOf mine := mem_peersOf.2 ⟨hb, hbc.trans hcls⟩
  rw [fateOn_state hcls hs, hcmd]
  by_cases hv : v < topSev (peersOf mine)
  · rw [if_pos hv]
    decide
  · have top : topSev (peersOf mine) = v := Nat.le_antisymm (Nat.not_lt.1 hv) (le_topSev other hbs)
    obtain ⟨d, -, find, -, le⟩ := find_first (p := fun b => stateSev b.code == some v) (peersOf_order order) other (beq_iff_eq.2 hbs)
    rw [top, if_neg (lt_irrefl v), find, Option.map_some, if_neg fun e => (le.trans_lt hlt).ne (Option.some.inj e)]
    split <;> decide

include order hcls ha in
/-- Of the other actions the first of a code stands. -/
theorem fateOn_firstCode (hs : stateSev a.code = none) (h : ∀ b ∈ mine, b.cls = a.cls → b.code = a.code → a.seq ≤ b.seq) : fateOn mine a = .stands := by
  obtain ⟨d, hd, find, pd, le⟩ := find_first (p := fun b => b.code == a.code) (peersOf_order order) (mem_peersOf.2 ⟨ha, hcls⟩) (beq_iff_eq.2 rfl)
  obtain ⟨dm, dc⟩ := mem_peersOf.1 hd
  have first : d.seq = a.seq := Nat.le_antisymm le (h d dm (dc.trans hcls.symm) (beq_iff_eq.1 pd))
  rw [fateOn_other hcls hs, find, Option.map_some, first, if_pos (.inl rfl)]

include order hcls in
/-- The others of a code merge with the first. -/
theorem fateOn_laterCode (hs : stateSev a.code = none) (hb : b ∈ mine) (hbc : b.cls = a.cls) (hcode : b.code = a.code) (hlt : b.seq < a.seq)
    (hcmd : a.cmd = none) : fateOn mine a = .merged := by
  obtain ⟨d, -, find, -, le⟩ := find_first (p := fun b => b.code == a.code) (peersOf_order order) (mem_peersOf.2 ⟨hb, hbc.trans hcls⟩) (beq_iff_eq.2 hcode)
  rw [fateOn_other hcls hs, find, hcmd, Option.map_some]
  refine if_neg fun h => ?_
  obtain e | e := h
  · exact (le.trans_lt hlt).ne (Option.some.inj e)
  · cases e

include order in
/-- Some action of the lowest class stands. -/
theorem someone_stands (hne : a ∈ mine) (h15 : ∀ b ∈ mine, b.cls ≤ 15) : ∃ b ∈ mine, fateOn mine b = .stands := by
  obtain ⟨c, hc, hcls⟩ := exists_lowest hne h15
  cases hs : stateSev c.code with
  | none =>
    obtain ⟨d, hd, find, pd, -⟩ := find_first (p := fun b => b.code == c.code) (peersOf_order order) (mem_peersOf.2 ⟨hc, hcls⟩) (beq_iff_eq.2 rfl)
    obtain ⟨dm, dc⟩ := mem_peersOf.1 hd
    have code : d.code = c.code := beq_iff_eq.1 pd
    refine ⟨d, dm, fateOn_firstCode order dc dm (by rw [code]; exact hs) fun b hb hbc hcode => ?_⟩
    obtain ⟨e, -, find', -, le⟩ := find_first (p := fun b => b.code == c.code) (peersOf_order order) (mem_peersOf.2 ⟨hb, hbc.trans dc⟩)
      (beq_iff_eq.2 (hcode.trans code))
    obtain rfl := Option.some.inj (find.symm.trans find')
    exact le
  | some v =>
    obtain ⟨t, ht, st⟩ := topSev_attained (mem_peersOf.2 ⟨hc, hcls⟩) hs
    obtain ⟨d, hd, find, pd, -⟩ := find_first (p := fun b => stateSev b.code == some (topSev (peersOf mine))) (peersOf_order order) ht (beq_iff_eq.2 st)
    obtain ⟨dm, dc⟩ := mem_peersOf.1 hd
    refine ⟨d, dm, fateOn_top order dc dm (beq_iff_eq.1 pd) fun b hb hbc x hx => ?_⟩
    have own : b ∈ peersOf mine := mem_peersOf.2 ⟨hb, hbc.trans dc⟩
    obtain lt | rfl := (le_topSev own hx).lt_or_eq
    · exact .inl lt
    · obtain ⟨e, -, find', -, le⟩ := find_first (p := fun b => stateSev b.code == some (topSev (peersOf mine))) (peersOf_order order) own
        (beq_iff_eq.2 hx)
      obtain rfl := Option.some.inj (find.symm.trans find')
      exact .inr ⟨rfl, le⟩

end

end Sys2Proof.Machine
end

section
/-! Fates, cancellations and their count (R341, R342). -/

set_option Elab.async false

namespace Sys2Proof.Machine

/-! ### Fates, cancellations and their count (R341, R342) -/

section
variable {acts : List Act} {a : Act} {sp : Nat}

/-- The actions on one tile. -/
def onTileActs (acts : List Act) (sp : Nat) : List Act := acts.filter fun b => b.tile == some sp

theorem fate_tile (h : a.tile = some sp) : fate acts a = fateOn (onTileActs acts sp) a := by
  rw [fate, h]
  rfl

theorem mem_onTileActs {b : Act} : b ∈ onTileActs acts sp ↔ b ∈ acts ∧ b.tile = some sp := by rw [onTileActs, List.mem_filter, beq_iff_eq]

/-- An action with no tile is never cancelled. -/
theorem fate_wide (h : a.tile = none) : fate acts a ≠ .cancelled := by
  rw [fate, h]
  dsimp only
  split <;> decide

/-- The severities of R341's table. -/
theorem stateSev_eq (code : Nat) : stateSev code =
    if code = 5 ∨ code = 0x21 then some 1 else if code = 6 then some 0 else if code = 7 then some 2 else if code = 8 then some 4 else none := by
  unfold stateSev
  split
  · rfl
  · rfl
  · rfl
  · rfl
  · rfl
  · next h5 h6 h7 h8 h21 => rw [if_neg (not_or.2 ⟨h5, h21⟩), if_neg h6, if_neg h7, if_neg h8]

/-- Of actions on a tile those of a higher class than the lowest present are cancelled. -/
theorem fate_higher (ht : a.tile = some sp) (h : ∃ b ∈ onTileActs acts sp, b.cls < a.cls) : fate acts a = .cancelled := by
  obtain ⟨b, hb, lt⟩ := h
  rw [fate_tile ht]
  exact fateOn_higher ((lowestCls_le hb).trans_lt lt).ne'

/-- The record of a cancellation names the action cancelled and the class and peal of the one that stands. -/
def blfxRec (v : State) (a b : Act) (sp : Nat) : Rec :=
  ⟨.blfx, v.time.tick, sp, a.part, w3of sp a.part 0,
    [packW [(0, a.peal), (16, blfxCode a.code)], packW [(0, a.cls), (4, b.cls)], BitVec.ofNat 32 b.peal, 0]⟩

/-- A cancellation, counted and recorded. -/
def cancelled (v : State) (a b : Act) (sp : Nat) : State := addRec { v with belfry := { v.belfry with cancelCnt := satInc v.belfry.cancelCnt } } (blfxRec v a b sp)

/-- The cancellation of a peal's action, beside one that stands. -/
theorem cancel_eq (ht : a.tile = some sp) (hcmd : a.cmd = none) {b : Act} (hb : (onTileActs acts sp).find? (fun b => fateOn (onTileActs acts sp) b == .stands) = some b) (v : State) :
    cancel acts v a = cancelled v a b sp := by
  have hb : (acts.filter fun b => b.tile == some sp).find? (fun b => fateOn (acts.filter fun b => b.tile == some sp) b == .stands) = some b := hb
  unfold cancel
  rw [ht]
  dsimp only
  rw [hb, hcmd]
  rfl

theorem blfxCode_peal {c : Nat} (h : c < 0x20) : blfxCode c = c := by
  rw [blfxCode, if_neg (by unfold acTest; omega), if_neg (by unfold acRelease; omega)]

/-- A cancelled action is recorded with one that stands, of the lowest class of the tile. -/
theorem cancel_records (order : acts.Pairwise fun a b => a.seq < b.seq) (h15 : ∀ b ∈ acts, b.cls ≤ 15) (ha : a ∈ acts) (ht : a.tile = some sp) (hcmd : a.cmd = none)
    (hcode : a.code < 0x20) : ∃ b ∈ onTileActs acts sp, fate acts b = .stands ∧ (∀ d ∈ onTileActs acts sp, b.cls ≤ d.cls) ∧
      ∀ v, cancel acts v a = addRec { v with belfry := { v.belfry with cancelCnt := satInc v.belfry.cancelCnt } }
        ⟨.blfx, v.time.tick, sp, a.part, w3of sp a.part 0, [packW [(0, a.peal), (16, a.code)], packW [(0, a.cls), (4, b.cls)], BitVec.ofNat 32 b.peal, 0]⟩ := by
  have mine : a ∈ onTileActs acts sp := mem_onTileActs.2 ⟨ha, ht⟩
  obtain ⟨c, hc, stands⟩ := someone_stands (order.filter _ : (onTileActs acts sp).Pairwise _) mine fun b hb => h15 b (mem_onTileActs.1 hb).1
  cases hf : (onTileActs acts sp).find? fun b => fateOn (onTileActs acts sp) b == .stands with
  | none => exact absurd (beq_iff_eq.2 stands) (List.find?_eq_none.1 hf c hc)
  | some b =>
    have hb := List.mem_of_find?_eq_some hf
    have stands : fateOn (onTileActs acts sp) b = .stands := beq_iff_eq.1 (List.find?_some hf :)
    refine ⟨b, hb, (fate_tile (mem_onTileActs.1 hb).2).trans stands, fun d hd => ?_, fun v => ?_⟩
    · by_contra hlt
      rw [fateOn_higher ((lowestCls_le hd).trans_lt (Nat.not_le.1 hlt)).ne'] at stands
      cases stands
    · rw [cancel_eq ht hcmd hf v, cancelled, blfxRec, blfxCode_peal hcode]

/-! ### The count of cancellations -/

/-- The count of cancelled actions. -/
def cancelCount (s : State) : W32 := s.belfry.cancelCnt

theorem cancelCount_of_same {s t : State} {l : List Fld} (h : Same l s t) (hl : .belfry ∉ l := by decide) : cancelCount t = cancelCount s :=
  (congrArg (fun x => x.2.2.1) (h .belfry hl :) :)

theorem cancel_count (acts : List Act) (s : State) (ht : a.tile = some sp) : cancelCount (cancel acts s a) = satInc (cancelCount s) := by
  have finish (u : State) (i r c : Nat) : cancelCount (cmdFinish u i r c) = cancelCount u :=
    cancelCount_of_same (cmdFinish_keeps i r c (Keeps.rfl_ _ u) (List.Subset.refl _)).same
  have record (r : Rec) : cancelCount (addRec { s with belfry := { s.belfry with cancelCnt := satInc s.belfry.cancelCnt } } r) = satInc (cancelCount s) :=
    (cancelCount_of_same (addRec_same _ r)).trans rfl
  unfold cancel
  rw [ht]
  dsimp only
  split
  · exact (finish _ _ _ _).trans (record _)
  · exact record _

/-- Each cancellation is counted, and nothing else is. -/
theorem resolve_cancelCount (v : State) (acts : List Act) :
    (resolve ⟨v, acts, []⟩).belfry.cancelCnt = satAdd v.belfry.cancelCnt (acts.filter fun a => fate acts a == .cancelled).length := by
  have cut (l : List Act) (hl : ∀ a ∈ l, fate acts a = .cancelled) (u : State) : cancelCount (l.foldl (cancel acts) u) = satAdd (cancelCount u) l.length := by
    induction l generalizing u with
    | nil => exact (satAdd_zero _).symm
    | cons a l ih =>
      obtain ⟨ha, hl⟩ := List.forall_mem_cons.1 hl
      rw [List.foldl_cons, ih hl]
      cases ht : a.tile with
      | none => exact absurd ha (fate_wide ht)
      | some sp => rw [cancel_count acts u ht, satAdd_satInc, List.length_cons]
  refine (foldl_kept (fun u a => cancelCount_of_same (runAct_same u a)) _ _).trans (cut _ (fun a ha => ?_) v)
  exact beq_iff_eq.1 (List.mem_filter.1 ha).2

end

end Sys2Proof.Machine
end

section
/-! What the Belfry carries to its next tick: a tick's tile actions (R340). -/

set_option Elab.async false

namespace Sys2Proof.Machine

/-! ### What the Belfry carries to its next tick, through the rest of this one (R340) -/

/-- What a Belfry tick carries to the next: inputs, firings, label sets, and the count of all that was carried. -/
def carriedOf (s : State) : List Input × List (Nat × Nat) × List W64 × W32 := (s.belfry.carriedIn, s.belfry.timers, s.belfry.wcSets, s.belfry.carryCnt)

/-- A state carries as another does. -/
def CarryKept (s t : State) : Prop := carriedOf t = carriedOf s

section
variable {s t u : State}

theorem CarryKept.rfl_ (s : State) : CarryKept s s := rfl

theorem CarryKept.trans (h : CarryKept s t) (g : CarryKept t u) : CarryKept s u := Eq.trans g h

theorem CarryKept.of_same {l : List Fld} (h : CarryKept s t) (e : Same l t u) (hl : .inputs ∉ l ∧ .belfry ∉ l := by decide) : CarryKept s u := by
  have ins : (u.belfry.inputs, u.belfry.carriedIn) = (t.belfry.inputs, t.belfry.carriedIn) := e .inputs hl.1
  have rest := (e .belfry hl.2 :)
  simp only [Prod.mk.injEq] at ins rest
  obtain ⟨-, -, -, carry, -, -, -, -, -, wc, -, timers, -⟩ := rest
  refine Eq.trans ?_ h
  rw [carriedOf, carriedOf, ins.2, timers, wc, carry]

theorem CarryKept.of_keeps (h : CarryKept s t) (l : List Fld) (e : Keeps l t u) (hl : .inputs ∉ l ∧ .belfry ∉ l := by decide) : CarryKept s u := h.of_same e.same hl

theorem CarryKept.ite {c : Prop} [Decidable c] {a b : State} (ha : CarryKept s a) (hb : CarryKept s b) : CarryKept s (if c then a else b) := by
  split
  · exact ha
  · exact hb

theorem CarryKept.foldl {α : Type} {f : State → α → State} (hf : ∀ v a, CarryKept s v → CarryKept s (f v a)) (h : CarryKept s t) (l : List α) : CarryKept s (l.foldl f t) :=
  List.foldlRecOn (motive := CarryKept s) l f h fun v hv a _ => hf v a hv

theorem updTile_carry (h : CarryKept s t) (j : Nat) (f : Tile → Tile) : CarryKept s (updTile t j f) := h

theorem updSp_carry (h : CarryKept s t) (j : Nat) (f : Spire → Spire) : CarryKept s (updSp t j f) := h

theorem addInput_carry (h : CarryKept s t) (i : Input) : CarryKept s (addInput t i) := by
  unfold addInput
  exact CarryKept.ite (CarryKept.ite h h) h

theorem addRec_carry (h : CarryKept s t) (r : Rec) : CarryKept s (addRec t r) := h.of_same (addRec_same t r)

theorem settle_carry (h : CarryKept s t) (i : Nat) : CarryKept s (settle t i) := h.of_keeps _ (settle_keeps i (Keeps.rfl_ _ _) (List.Subset.refl _))

theorem endSample_carry (h : CarryKept s t) (uid row result cause : Nat) : CarryKept s (endSample t uid row result cause) :=
  endSample_ind (P := CarryKept s) (fun _ r hv => addRec_carry hv r) (fun _ _ hv e => hv.of_same e) (fun _ x hv => addInput_carry hv x) h uid row result cause

theorem standSuspect_carry (h : CarryKept s t) (i outcome : Nat) : CarryKept s (standSuspect t i outcome) :=
  onOp_ind h fun _ _ => settle_carry (addInput_carry (h.of_keeps [.ops, .tickets] (updOp_keeps i _ (freeTicket_keeps i (Keeps.rfl_ _ t) (List.Subset.refl _)) (by decide))) _) i

theorem applyRerun_carry (h : CarryKept s t) (i : Nat) : CarryKept s (applyRerun t i) := by
  unfold applyRerun
  refine onOp_ind h fun n _ => ?_
  split
  · exact h
  · next orig _ =>
    refine onOp_ind h fun o _ => ?_
    split
    · exact h
    · dsimp only
      split
      · exact standSuspect_carry h orig 5
      · refine settle_carry ?_ orig
        have applied (f : OpV → OpV) : CarryKept s (updOp (freeTicket t orig) orig f) :=
          h.of_keeps [.ops, .tickets] (updOp_keeps orig f (freeTicket_keeps orig (Keeps.rfl_ _ t) (List.Subset.refl _)) (by decide))
        have counted (c : Prop) [Decidable c] (f : OpV → OpV) (p : Nat) (g : PartCnt → PartCnt) :
            CarryKept s (if c then updCnt (updOp (freeTicket t orig) orig f) p g else updOp (freeTicket t orig) orig f) :=
          ((applied f).of_keeps [.parts] (updCnt_keeps p g (Keeps.rfl_ _ _) (List.Subset.refl _))).ite (applied f)
        split
        · exact addInput_carry (counted _ _ _ _) _
        · exact addInput_carry (counted _ _ _ _) _
        · exact addInput_carry (counted _ _ _ _) _
        · exact addInput_carry (addInput_carry (counted _ _ _ _) _) _

theorem closeInKeep_carry (h : CarryKept s t) (i : Nat) : CarryKept s (closeInKeep t i) := by
  unfold closeInKeep
  refine onOp_ind h fun o _ => ?_
  split
  · have closed (f : OpV → OpV) : CarryKept s (updOp t i f) := h.of_keeps [.ops] (updOp_keeps i f (Keeps.rfl_ _ t) (List.Subset.refl _))
    have linked {v : State} (hv : CarryKept s v) : CarryKept s (lkClosed v o.part i) := hv.of_keeps _ (lkClosed_keeps o.part i (Keeps.rfl_ _ v) (List.Subset.refl _))
    exact settle_carry (applyRerun_carry (linked (CarryKept.ite (closed _) (addInput_carry (closed _) _))) i) i
  · exact h

theorem closeDead_carry (h : CarryKept s t) (j : Nat) : CarryKept s (closeDead t j) := by
  have samples := CarryKept.foldl (fun v (x : Sample) hv => endSample_carry hv x.uid x.row rIncon 0x0F) h (t.samples.filter fun x => x.spire == j)
  have ops := CarryKept.foldl (fun v i hv => closeInKeep_carry hv i) samples ((t.ops.filter fun o => o.spire == j).map (·.uid))
  have tests {v : State} (hv : CarryKept s v) : CarryKept s (onTile v j fun x => dropTests (abortRun v x) x) := by
    unfold onTile
    split
    · next x _ =>
      have aborted : Keeps [.alert, .cistern, .parts, .tiles, .spires, .records, .early, .near, .thermal, .cmd, .cmds] v (abortRun v x) :=
        abortRun_keeps x (Keeps.rfl_ _ v) (by decide)
      exact hv.of_keeps _ (dropTests_keeps x aborted (by decide))
    · exact hv
  unfold closeDead
  exact updSp_carry (updTile_carry (tests ops) j _) j _

theorem sendFrame_carry (h : CarryKept s t) (j : Nat) (f : OutFrame) : CarryKept s (sendFrame t j f) := h.of_keeps _ (sendFrame_keeps j f (Keeps.rfl_ _ t) (List.Subset.refl _))

theorem changeState_carry (h : CarryKept s t) (j new cause peal cls : Nat) (vtick : W64) (code uid : Nat) (inst : Option Nat) :
    CarryKept s (changeState t j new cause peal cls vtick code uid inst) := by
  have due {v : State} (hv : CarryKept s v) (a b : Nat) : CarryKept s (snapshotDue v a b) := hv.of_keeps _ (snapshotDue_keeps a b (Keeps.rfl_ _ v) (List.Subset.refl _))
  unfold changeState onTile
  split
  · dsimp only
    have changed (f : Tile → Tile) (old : Nat) := due (updTile_carry h j f) old new
    split
    · exact sendFrame_carry (changed _ _) j _
    · exact sendFrame_carry (changed _ _) j _
    · exact closeDead_carry (sendFrame_carry (changed _ _) j _) j
    · exact CarryKept.ite (addRec_carry (updSp_carry (changed _ _) j _) _) (sendFrame_carry (changed _ _) j _)
    · exact addRec_carry (updSp_carry (changed _ _) j _) _
  · exact h

theorem noopState_carry (h : CarryKept s t) (j peal cls : Nat) (vtick : W64) : CarryKept s (noopState t j peal cls vtick) :=
  h.of_keeps _ (noopState_keeps j peal cls vtick (Keeps.rfl_ _ t) (List.Subset.refl _))

theorem actWatch_carry (h : CarryKept s t) (j peal cls : Nat) (vtick : W64) (code uid : Nat) : CarryKept s (actWatch t j peal cls vtick code uid) := by
  unfold actWatch
  split
  · exact changeState_carry h ..
  · exact noopState_carry (updTile_carry h j _) ..
  · exact noopState_carry h ..

theorem actUnwatch_carry (h : CarryKept s t) (j peal cls param : Nat) (vtick : W64) (uid code : Nat) : CarryKept s (actUnwatch t j peal cls param vtick uid code) := by
  unfold actUnwatch
  exact CarryKept.ite (CarryKept.ite (changeState_carry h ..) (noopState_carry h ..)) (CarryKept.ite (changeState_carry h ..) (noopState_carry h ..))

theorem actFence_carry (h : CarryKept s t) (j cause peal cls : Nat) (vtick : W64) : CarryKept s (actFence t j cause peal cls vtick) :=
  CarryKept.ite (changeState_carry h ..) (noopState_carry h ..)

theorem actDead_carry (h : CarryKept s t) (j cause peal cls : Nat) (vtick : W64) : CarryKept s (actDead t j cause peal cls vtick) := by
  have dead := changeState_carry h j stDead cause peal cls vtick 0 0 none
  exact CarryKept.ite (noopState_carry h ..) (CarryKept.ite (dead.of_keeps _ (postReroute_keeps j (Keeps.rfl_ _ _) (List.Subset.refl _))) dead)

theorem cmdFinish_carry (h : CarryKept s t) (i r c : Nat) : CarryKept s (cmdFinish t i r c) := h.of_keeps _ (cmdFinish_keeps i r c (Keeps.rfl_ _ t) (List.Subset.refl _))

theorem cmdState_carry (h : CarryKept s t) (i r : Nat) : CarryKept s (cmdState t i r) := h.of_keeps _ (cmdState_keeps i r (Keeps.rfl_ _ t) (List.Subset.refl _))

theorem runRelease_carry (h : CarryKept s t) (i : Nat) (w : W32) : CarryKept s (runRelease t i w) := by
  unfold runRelease onTile
  split
  · dsimp only
    split
    · exact cmdFinish_carry h ..
    · exact cmdState_carry (changeState_carry h ..) ..
  · exact h

theorem runTile_carry (h : CarryKept s t) (a : Act) (j : Nat) : CarryKept s (runTile t a j) := by
  unfold runTile
  dsimp only
  split
  · exact updSp_carry h j _
  · exact updSp_carry h j _
  · exact h.of_keeps _ (requestSlices_keeps j _ (Keeps.rfl_ _ t) (List.Subset.refl _))
  · exact actWatch_carry h ..
  · exact actUnwatch_carry h ..
  · exact actFence_carry h ..
  · exact actDead_carry h ..
  · exact h.of_keeps _ (setTrace_keeps j _ (Keeps.rfl_ _ t) (List.Subset.refl _))
  · split
    · refine CarryKept.ite (cmdFinish_carry h ..) (CarryKept.ite ?_ (runRelease_carry h ..))
      exact h.of_keeps _ (runTest_keeps _ _ (Keeps.rfl_ _ t) (List.Subset.refl _))
    · exact h

end

end Sys2Proof.Machine
end

section
/-! What the Belfry carries to its next tick: comparisons and wide actions (R340). -/

set_option Elab.async false

namespace Sys2Proof.Machine

/-! ### What the Belfry carries, through its wide actions and the rest of its tick (R337, R340) -/

section
variable {s t u : State}

theorem partInput_carry (h : CarryKept s t) (code part : Nat) (layer : W16) (cause : Nat) : CarryKept s (partInput t code part layer cause) :=
  addInput_carry h _

theorem divergeInput_carry (h : CarryKept s t) (p : Nat) (layer : W16) (sp : Option Nat) : CarryKept s (divergeInput t p layer sp) := by
  exact addInput_carry h _

theorem updClosed_carry (h : CarryKept s t) (p : Nat) (b : LdBody) (f : ClosedKey → ClosedKey) : CarryKept s (updClosed t p b f) :=
  h.of_keeps _ (updClosed_keeps p b f (Keeps.rfl_ _ t) (List.Subset.refl _))

theorem releaseTds_carry (h : CarryKept s t) (p : Nat) (b : LdBody) : CarryKept s (releaseTds t p b) :=
  h.of_keeps _ (releaseTds_keeps p b (Keeps.rfl_ _ t) (List.Subset.refl _))

theorem logDigest_carry (h : CarryKept s t) (p : Nat) (r : Rec) : CarryKept s (logDigest t p r) :=
  h.of_keeps _ (logDigest_keeps p r (Keeps.rfl_ _ t) (List.Subset.refl _))

theorem sendBan_carry (h : CarryKept s t) (q : Nat) (k : Byte) (l : List W64) : CarryKept s (sendBan t q k l) :=
  h.of_keeps _ (sendBan_keeps q k l (Keeps.rfl_ _ t) (List.Subset.refl _))

theorem divergeEnds_carry (h : CarryKept s t) (p entry : Nat) (c : ClosedKey) (sp : Option Nat) : CarryKept s (divergeEnds t p entry c sp) := by
  have ended := updClosed_carry h p c.body fun c => { c with diverge := c.diverge.filter fun e => e != entry }
  unfold divergeEnds
  refine divergeInput_carry (releaseTds_carry ?_ p c.body) p c.body.layer sp
  exact ended

theorem nameTile_carry (h : CarryKept s t) (e : Nat × ReplicaCfg) (b : LdBody) : CarryKept s (nameTile t e b) := by
  unfold nameTile
  dsimp only
  split
  · exact CarryKept.ite (divergeEnds_carry h ..) h
  · exact h

theorem diverged_carry (h : CarryKept s t) (e : Nat × ReplicaCfg) (c : ClosedKey) (b : LdBody) : CarryKept s (diverged t e c b) := by
  unfold diverged
  refine CarryKept.ite (divergeEnds_carry h ..) (CarryKept.ite (divergeEnds_carry h ..) ?_)
  split
  · exact nameTile_carry (updClosed_carry (CarryKept.foldl (fun _ body hv => sendBan_carry hv _ 0x31 body) h _) _ _ _) e c.body
  · exact divergeEnds_carry h ..

theorem compareOne_carry (h : CarryKept s t) (e : Nat × ReplicaCfg) (c : ClosedKey) (b : LdBody) (mark : State → State)
    (hmark : ∀ v, CarryKept s v → CarryKept s (mark v)) : CarryKept s (compareOne t e c b mark) := by
  have logged := logDigest_carry (hmark _ (updClosed_carry h e.2.part c.body fun c => { c with compared := c.compared ++ [e.1] })) e.2.part
  exact CarryKept.ite (diverged_carry (logged _) e c b) (CarryKept.ite (partInput_carry (releaseTds_carry (logged _) _ _) ..) (releaseTds_carry (logged _) _ _))

theorem compareOwn_carry (h : CarryKept s t) (e : Nat × ReplicaCfg) (c : ClosedKey) : CarryKept s (compareOwn e t c) := by
  unfold compareOwn
  refine CarryKept.ite h ?_
  split
  · exact h
  · exact CarryKept.ite h (releaseTds_carry (compareOne_carry h e c _ _ fun v hv => updClosed_carry hv _ _ _) _ _)

theorem comparePeer_carry (h : CarryKept s t) (e : Nat × ReplicaCfg) (r : PeerRec) : CarryKept s (comparePeer e t r) := by
  unfold comparePeer
  refine CarryKept.ite h ?_
  split
  · exact h
  · exact CarryKept.ite h (compareOne_carry h e _ _ _ fun _ hv => hv)

theorem compareTick_carry (h : CarryKept s t) : CarryKept s (compareTick t) :=
  CarryKept.foldl (fun _ e hv => CarryKept.ite (CarryKept.foldl (fun _ c hw => compareOwn_carry hw e c) hv _)
    (CarryKept.foldl (fun _ r hw => comparePeer_carry hw e r) hv _)) h _

theorem exportOne_carry (h : CarryKept s t) (p : Nat) (e : Nat × ReplicaCfg) (c : ClosedKey) : CarryKept s (exportOne p e t c) := by
  have mark {v : State} (hv : CarryKept s v) := updClosed_carry hv p c.body fun c => { c with exported := c.exported ++ [e.1] }
  unfold exportOne
  refine CarryKept.ite (mark h) ?_
  split
  · exact h
  · exact CarryKept.ite (partInput_carry (logDigest_carry (releaseTds_carry (updClosed_carry (mark h) _ _ _) _ _) _ _) ..)
      (CarryKept.ite h (mark (sendBan_carry h ..)))

theorem digestExport_carry (h : CarryKept s t) (p entry : Nat) : CarryKept s (digestExport t p entry) := by
  unfold digestExport
  split
  · exact h
  · exact compareTick_carry (CarryKept.foldl (fun _ c hv => exportOne_carry hv p _ c) h _)

theorem takeTicket_carry (h : CarryKept s t) (i : Nat) : CarryKept s (takeTicket t i) := by
  refine onOp_ind h fun o _ => CarryKept.ite h ?_
  split
  · exact standSuspect_carry h i 7
  · refine CarryKept.of_keeps ?_ [.parts, .near] (post_keeps _ _ _ _ (addMeter_keeps _ _ _ (Keeps.rfl_ _ _) (by decide)) (by decide))
    exact h

theorem confirm_carry (h : CarryKept s t) (i : Input) : CarryKept s (confirm t i) := CarryKept.ite h (takeTicket_carry h i.uid)

theorem runShutdown_carry (h : CarryKept s t) (i : Nat) (w budget : W32) : CarryKept s (runShutdown t i w budget) := by
  unfold runShutdown
  refine CarryKept.ite (cmdFinish_carry (addRec_carry ?_ _) ..) ?_
  · exact h
  · have taken {v : State} (hv : CarryKept s v) := CarryKept.foldl (fun _ (x : Sample) hw => endSample_carry hw x.uid x.row rIncon 0x02) hv v.samples
    have engines {v : State} (hv : CarryKept s v) := CarryKept.foldl (fun w e (hw : CarryKept s w) =>
      hw.of_keeps _ (sdtEngine_keeps e (Keeps.rfl_ _ w) (List.Subset.refl _))) hv (List.range Config.engBuilt)
    refine CarryKept.foldl (fun v x hv => hv.of_keeps _ (sdtTile_keeps x (Keeps.rfl_ _ v) (List.Subset.refl _))) (engines (taken (cmdState_carry ?_ ..))) _
    exact h

end

end Sys2Proof.Machine
end

section
/-! What the Belfry carries through a whole tick (R337, R340). -/

set_option Elab.async false

namespace Sys2Proof.Machine

/-! ### What the Belfry carries, through a whole tick (R337, R340) -/

section
variable {s t u : State}

theorem runWide_carry (h : CarryKept s t) (a : Act) : CarryKept s (runWide t a) := by
  unfold runWide
  split
  · exact h.of_keeps _ (pealm_keeps a (Keeps.rfl_ _ t) (List.Subset.refl _))
  · split
    · exact confirm_carry h _
    · exact h
  · exact h.of_keeps _ (rollback_keeps _ _ _ _ _ (Keeps.rfl_ _ t) (List.Subset.refl _))
  · exact h.of_keeps _ (sealCheck_keeps _ (Keeps.rfl_ _ t) (List.Subset.refl _))
  · exact h.of_keeps _ (restoreCheck_keeps _ (Keeps.rfl_ _ t) (List.Subset.refl _))
  · exact digestExport_carry h _ _
  · exact h.of_keeps _ (hangPath_keeps _ _ _ _ (Keeps.rfl_ _ t) (List.Subset.refl _))
  · exact h.of_keeps _ (startLaunch_keeps (Keeps.rfl_ _ t) (List.Subset.refl _))
  · exact h
  · exact h.of_keeps _ (ergFold_keeps (Keeps.rfl_ _ t) (List.Subset.refl _))
  · refine CarryKept.of_keeps ?_ _ (driveLevel_keeps (Keeps.rfl_ _ _) (List.Subset.refl _))
    exact h
  · exact h.of_keeps [.alert, .cistern, .parts, .records, .early, .near] (alert_keeps _ (pealm_keeps a (Keeps.rfl_ _ t) (by decide)) (by decide))
  · split
    · refine CarryKept.ite (cmdFinish_carry h ..) (CarryKept.ite (runShutdown_carry h ..) ?_)
      exact h.of_keeps _ (runRepairClear_keeps _ _ (Keeps.rfl_ _ t) (List.Subset.refl _))
    · exact CarryKept.ite (h.of_keeps _ (setLabel_keeps _ (Keeps.rfl_ _ t) (List.Subset.refl _))) h

theorem runAct_carry (h : CarryKept s t) (a : Act) : CarryKept s (runAct t a) := by
  unfold runAct
  refine CarryKept.ite h ?_
  split
  · exact runTile_carry h a _
  · exact runWide_carry h a

theorem cancel_carry (h : CarryKept s t) (acts : List Act) (a : Act) : CarryKept s (cancel acts t a) := by
  unfold cancel
  split
  · exact h
  · next j _ =>
    dsimp only
    have counted (r : Rec) := addRec_carry (s := s) (t := { t with belfry := { t.belfry with cancelCnt := satInc t.belfry.cancelCnt } }) h r
    split
    · exact cmdFinish_carry (counted _) ..
    · exact counted _

theorem dropCount_carry (h : CarryKept s t) (ix key : Nat) : CarryKept s (dropCount t ix key) := by
  unfold dropCount
  split
  · exact h
  · exact h

theorem holdCount_carry (h : CarryKept s t) (ix key k : Nat) (opened : W64) : CarryKept s (holdCount t ix key k opened) :=
  CarryKept.ite h h

theorem uncount_carry (h : CarryKept s t) (acts : List Act) (f : CountFire) : CarryKept s (uncount acts t f) :=
  CarryKept.ite (holdCount_carry (dropCount_carry h ..) ..) h

theorem countHit_carry (h : CarryKept s t) (n ix key trigN : Nat) : CarryKept s (countHit n ix key trigN t).2 := by
  unfold countHit
  split
  · exact holdCount_carry h ..
  · dsimp only
    split
    · exact dropCount_carry h ..
    · exact holdCount_carry (dropCount_carry h ..) ..

theorem onceFired_carry (h : CarryKept s t) (ix : Nat) (p : Peal) : CarryKept s (onceFired ix p t) := CarryKept.ite h h

theorem closeWindows_carry (h : CarryKept s t) (n : Nat) : CarryKept s (closeWindows t n) :=
  CarryKept.foldl (fun _ c hv => dropCount_carry hv c.1 c.2.1) h _

theorem inputConcern_carry (h : CarryKept s t) (x : Item) : CarryKept s (inputConcern t x) := by
  unfold inputConcern
  have concerned (j : Nat) (b : Bool) : CarryKept s (concern t j b) := h.of_keeps _ (concern_keeps j b (Keeps.rfl_ _ t) (List.Subset.refl _))
  split
  · exact CarryKept.ite h (CarryKept.ite (concerned _ _) (CarryKept.ite (concerned _ _) h))
  · exact h

theorem disarmTimers_carry (h : CarryKept s t) (l : List Item) : CarryKept s (disarmTimers l t) :=
  CarryKept.foldl (fun _ ix hv => onceFired_carry hv ix _) h _

theorem fireAt_carry {m : Matched} (h : CarryKept s m.st) (n cls part : Nat) (i : Option Input) (x : Nat × Peal) :
    CarryKept s (fireAt n cls part i m x).st := by
  unfold fireAt
  split
  · exact h
  · dsimp only
    split
    · exact h
    · split
      · split
        · exact onceFired_carry (countHit_carry h ..) ..
        · exact countHit_carry h ..
      · exact onceFired_carry h ..

theorem itemActs_carry {m : Matched} (h : CarryKept s m.st) (n : Nat) (x : Item) : CarryKept s (itemActs n m x).st := by
  unfold itemActs
  split
  · exact List.foldlRecOn (motive := fun m : Matched => CarryKept s m.st) _ _ h fun _ hm x _ => fireAt_carry hm _ _ _ _ x
  · exact List.foldlRecOn (motive := fun m : Matched => CarryKept s m.st) _ _ h fun _ hm x _ => fireAt_carry hm _ _ _ _ x
  · exact h
  · exact h
  · exact h

theorem resolve_carry {m : Matched} (h : CarryKept s m.st) : CarryKept s (resolve m) :=
  CarryKept.foldl (fun _ a hv => runAct_carry hv a)
    (CarryKept.foldl (fun _ f hv => uncount_carry hv m.acts f) (CarryKept.foldl (fun _ a hv => cancel_carry hv m.acts a) h _) _) _

theorem closeLagging_carry (h : CarryKept s t) (p : Nat) (e : W16) : CarryKept s (closeLagging t p e) := by
  have samples := CarryKept.foldl (fun v (x : Sample) hv => endSample_carry hv x.uid x.row rIncon 0x04) h (t.samples.filter fun x => x.part == p && lagsFar e (dEpoch x.dsc))
  refine CarryKept.foldl (fun v o hv => CarryKept.of_keeps ?_ _ (finalize_keeps o.uid (Keeps.rfl_ _ _) (List.Subset.refl _))) samples _
  exact hv

theorem takeWord_carry (h : CarryKept s t) (w : CadW) : CarryKept s (takeWord t w) := by
  unfold takeWord
  dsimp only
  have placed (f : Part → Part) : CarryKept s (updPart t (cPart w) f) := h
  have lagging (c : Prop) [Decidable c] (f : Part → Part) := CarryKept.ite (c := c) (closeLagging_carry (placed f) (cPart w) (cEpoch w)) (placed f)
  have started {v : State} (hv : CarryKept s v) (c : Prop) [Decidable c] : CarryKept s (if c then jobStart v (cPart w) else v) :=
    CarryKept.ite (hv.of_keeps _ (jobStart_keeps _ (Keeps.rfl_ _ v) (List.Subset.refl _))) hv
  have phased {v : State} (hv : CarryKept s v) : CarryKept s (phaseEffect v (cPart w) (cPhase w)) :=
    hv.of_keeps _ (phaseEffect_keeps _ _ (Keeps.rfl_ _ v) (List.Subset.refl _))
  exact phased (started (lagging _ _) _)

theorem queueDeadlines_carry (h : CarryKept s t) : CarryKept s (queueDeadlines t) :=
  CarryKept.foldl (fun _ (x : Sample) hv => endSample_carry hv x.uid x.row rIncon 0x04) h _

theorem tryAttach_carry (h : CarryKept s t) (x : Sample) : CarryKept s (tryAttach t x) := by
  refine onOp_ind h fun o _ => CarryKept.ite (endSample_carry h ..) (CarryKept.ite (endSample_carry h ..) (CarryKept.ite h ?_))
  exact CarryKept.foldl (fun v e hv => hv.of_keeps _ (giveEngine_keeps _ _ _ _ (Keeps.rfl_ _ v) (List.Subset.refl _))) h _

theorem poolTick_carry (h : CarryKept s t) : CarryKept s (poolTick t) := by
  have confirmed {v : State} (hv : CarryKept s v) (l : List Sample) : CarryKept s (l.foldl tryConfirm v) :=
    CarryKept.foldl (fun w x hw => hw.of_keeps _ (tryConfirm_keeps x (Keeps.rfl_ _ w) (List.Subset.refl _))) hv l
  have promoted {v : State} (hv : CarryKept s v) : CarryKept s (promote v) := hv.of_keeps _ (promote_keeps (Keeps.rfl_ _ v) (List.Subset.refl _))
  exact CarryKept.ite h (CarryKept.foldl (fun _ x hv => tryAttach_carry hv x) (promoted (confirmed h _)) _)

theorem repairTile_carry (h : CarryKept s t) (due : Nat × Option Nat) : CarryKept s (repairTile t due) := by
  unfold repairTile
  dsimp only
  refine CarryKept.ite h (CarryKept.ite h ?_)
  split
  · exact h
  · have retired := changeState_carry h due.1 stRetired tcRepair 0xFFFF 1 t.time.tick 0 0 none
    refine addRec_carry (CarryKept.of_keeps ?_ _ (writeRepair_keeps (Keeps.rfl_ _ _) (List.Subset.refl _))) _
    exact retired

theorem repairTick_carry (h : CarryKept s t) : CarryKept s (repairTick t) :=
  CarryKept.foldl (t := { t with nvm := { t.nvm with repairDue := [] } }) (fun _ due hv => repairTile_carry hv due) h _

theorem tickWork_carry (h : CarryKept s t) : CarryKept s (tickWork t) := by
  have slices {v : State} (hv : CarryKept s v) : CarryKept s (sliceTick v) := hv.of_keeps _ (sliceTick_keeps (Keeps.rfl_ _ v) (List.Subset.refl _))
  have before := repairTick_carry (slices (poolTick_carry (queueDeadlines_carry h)))
  have seals := CarryKept.foldl (fun v p hv => hv.of_keeps _ (sealRetry_keeps p (Keeps.rfl_ _ v) (List.Subset.refl _))) before (List.range Config.parts)
  have keys := CarryKept.foldl (fun v p hv => hv.of_keeps [.parts, .attQ, .near]
    (attStep_keeps p (closeDueKeys_keeps p (Keeps.rfl_ _ v) (by decide)) (by decide))) seals (List.range Config.parts)
  have busy {v : State} (hv : CarryKept s v) : CarryKept s (busyEngines v) := hv.of_keeps _ (busyEngines_keeps (Keeps.rfl_ _ v) (List.Subset.refl _))
  have fenced {v : State} (hv : CarryKept s v) : CarryKept s (fencedMeter v) := hv.of_keeps _ (fencedMeter_keeps (Keeps.rfl_ _ v) (List.Subset.refl _))
  exact fenced (busy (compareTick_carry keys))

end

/-- R340: a tick that samples carries what its limits leave, and counts it. -/
theorem sampleTick_carried (u : State) (n : Nat) :
    carriedOf (sampleTick u n) =
      (carriedInputs (withinLimits (sampled (itemsAt u n))).2, carriedTimers (withinLimits (sampled (itemsAt u n))).2,
        carriedLabels (withinLimits (sampled (itemsAt u n))).2, satAdd u.belfry.carryCnt (withinLimits (sampled (itemsAt u n))).2.length) := by
  have from_ {s : State} : CarryKept s (resolve ((withinLimits (sampled (itemsAt u n))).1.foldl (itemActs n)
      ⟨disarmTimers (withinLimits (sampled (itemsAt u n))).1 ((withinLimits (sampled (itemsAt u n))).1.foldl inputConcern
        (closeWindows ((takenWords (withinLimits (sampled (itemsAt u n))).1).foldl takeWord s) n)), [], []⟩)) := by
    have words := CarryKept.foldl (fun _ w hv => takeWord_carry hv w) (.rfl_ s) (takenWords (withinLimits (sampled (itemsAt u n))).1)
    have concerned := CarryKept.foldl (fun _ x hv => inputConcern_carry hv x) (closeWindows_carry words n) (withinLimits (sampled (itemsAt u n))).1
    refine resolve_carry (List.foldlRecOn (motive := fun m : Matched => CarryKept s m.st) _ _ ?_ fun _ hm x _ => itemActs_carry hm n x)
    exact disarmTimers_carry concerned _
  exact from_

/-- R337, R340: a stepping Belfry tick, whole, and what it carries to the next. -/
theorem belfryTick_carries {s : State} (hrun : s.time.run = true) (hstep : s.belfry.run = true) :
    ∃ t, exec .belfryTick s = .next t ∧
      t = endTick (orderFrames (atTick s).caravan.frames.length (tickWork (sampleTick (atTick s) (nextBelfry s)))) ∧
      carriedOf t = (carriedInputs (withinLimits (sampled (itemsAt (atTick s) (nextBelfry s)))).2, carriedTimers (withinLimits (sampled (itemsAt (atTick s) (nextBelfry s)))).2,
        carriedLabels (withinLimits (sampled (itemsAt (atTick s) (nextBelfry s)))).2,
        satAdd s.belfry.carryCnt (withinLimits (sampled (itemsAt (atTick s) (nextBelfry s)))).2.length) := by
  obtain ⟨_, -, start⟩ := atTick_eq s
  have runs : (atTick s).belfry.run = true := by rw [start]; exact hstep
  have count : (atTick s).belfry.carryCnt = s.belfry.carryCnt := by rw [start]
  refine ⟨_, (exec_belfryTick hrun).trans (congrArg (fun v => Host.Outcome.next (endTick v)) (if_pos runs)), rfl, ?_⟩
  rw [← count]
  refine Eq.trans ?_ (sampleTick_carried (atTick s) (nextBelfry s))
  have worked := tickWork_carry (.rfl_ (sampleTick (atTick s) (nextBelfry s)))
  generalize tickWork (sampleTick (atTick s) (nextBelfry s)) = w at worked ⊢
  have framed := worked.of_keeps _ (orderFrames_keeps (atTick s).caravan.frames.length (Keeps.rfl_ _ w) (List.Subset.refl _))
  exact framed.of_keeps _ (endTick_keeps (Keeps.rfl_ _ _) (List.Subset.refl _))

end Sys2Proof.Machine
end

section
/-! Tiles that dwell in their state through a tick's work (R225, R231). -/

set_option Elab.async false

namespace Sys2Proof.Machine

/-! ### Tiles that dwell in their state (R225, R231): the work of a tick that fences, releases and retires none -/

/-- A FENCE frame of the tile is out or waits. -/
def Tile.FenceSent (x : Tile) : Prop := ∃ f ∈ x.out.toList ++ x.next, f.op = opFence

/-- A tile keeps its state, and no FENCE frame of it is lost. -/
def Tile.Dwells (x y : Tile) : Prop := y.state = x.state ∧ (x.FenceSent → y.FenceSent)

/-- Every tile keeps its state, and no FENCE frame is lost. -/
def TilesDwell (s t : State) : Prop := ∀ j x, getTile s j = some x → ∃ y, getTile t j = some y ∧ x.Dwells y

section
variable {s t u : State}

theorem TilesDwell.rfl_ (s : State) : TilesDwell s s := fun _ x hx => ⟨x, hx, rfl, id⟩

theorem TilesDwell.trans (h : TilesDwell s t) (g : TilesDwell t u) : TilesDwell s u := fun j x hx => by
  obtain ⟨y, hy, state, sent⟩ := h j x hx
  obtain ⟨z, hz, state', sent'⟩ := g j y hy
  exact ⟨z, hz, state'.trans state, fun hf => sent' (sent hf)⟩

theorem TilesDwell.of_eq (h : TilesDwell s t) (e : u.tiles = t.tiles) : TilesDwell s u := fun j x hx => by
  have same : getTile u j = getTile t j := by rw [getTile, e, ← getTile]
  rw [same]
  exact h j x hx

theorem TilesDwell.of_same {l : List Fld} (h : TilesDwell s t) (e : Same l t u) (hl : .tiles ∉ l := by decide) : TilesDwell s u := h.of_eq (e .tiles hl)

theorem TilesDwell.of_keeps (h : TilesDwell s t) (l : List Fld) (e : Keeps l t u) (hl : .tiles ∉ l := by decide) : TilesDwell s u := h.of_same e.same hl

/-- What changes neither the states nor the frames of the tiles. -/
theorem TilesDwell.of_tl {i : Option Nat} {m : List TlFld} (h : TilesDwell s t) (e : TlKeeps i m t u) (hm : .state ∉ m ∧ .out ∉ m ∧ .next ∉ m := by decide) :
    TilesDwell s u := h.trans fun j x hx => by
  obtain ⟨y, hy, r⟩ := e.getTile_some hx
  have out : y.out = x.out := r.same .out hm.2.1
  have next : y.next = x.next := r.same .next hm.2.2
  exact ⟨y, hy, r.same .state hm.1, fun hf => by rwa [Tile.FenceSent, out, next]⟩

theorem TilesDwell.ite {c : Prop} [Decidable c] {a b : State} (ha : TilesDwell s a) (hb : TilesDwell s b) : TilesDwell s (if c then a else b) := by
  split
  · exact ha
  · exact hb

theorem TilesDwell.foldl {α : Type} {f : State → α → State} (hf : ∀ v a, TilesDwell s v → TilesDwell s (f v a)) (h : TilesDwell s t) (l : List α) :
    TilesDwell s (l.foldl f t) := List.foldlRecOn (motive := TilesDwell s) l f h fun v hv a _ => hf v a hv

/-- A frame other than DEAD goes out when none is out, or waits: neither loses a frame. -/
theorem TilesDwell.sendFrame (h : TilesDwell s t) {f : OutFrame} (j : Nat) (hop : f.op ≠ opDead) : TilesDwell s (sendFrame t j f) := h.trans fun k x hx => by
  by_cases hk : k = j
  · subst hk
    unfold Machine.sendFrame
    rw [onTile_some hx, if_neg hop]
    split
    · next out =>
      obtain ⟨y, hy, r⟩ := (issueFrame_tl (TlKeeps.rfl_ t) k f (covers_own k) (List.Subset.refl _)).getTile_some hx
      have next : y.next = x.next := r.same .next (by decide)
      refine ⟨y, hy, r.same .state (by decide), fun ⟨g, hg, op⟩ => ⟨g, List.mem_append_right _ ?_, op⟩⟩
      rw [out] at hg
      rwa [next]
    · refine ⟨{ x with next := x.next ++ [f] }, ?_, rfl, fun ⟨g, hg, op⟩ => ⟨g, ?_, op⟩⟩
      · refine (getTile_updTile t k (fun x => { x with next := x.next ++ [f] }) fun _ => rfl).trans ?_
        rw [hx]
        rfl
      · rw [← List.append_assoc]
        exact List.mem_append_left _ hg
  · rw [← (sendFrame_tl (TlKeeps.rfl_ t) j hop (covers_own j) (List.Subset.refl _)).getTile_other hk] at hx
    exact ⟨x, hx, rfl, id⟩

theorem addRec_dwell (h : TilesDwell s t) (r : Rec) : TilesDwell s (addRec t r) := h.of_same (addRec_same t r)

theorem watchPass_dwell (h : TilesDwell s t) (j : Nat) : TilesDwell s (watchPass t j) :=
  h.of_tl ((TlKeeps.rfl_ t).updTile (m := [.watch]) j _ [.watch] (fun x => by cases x.watch <;> rfl) (covers_own j) (List.Subset.refl _))

/-- R226: of the tiles, the end of a sample counts a pass towards WATCH's end, and no more. -/
theorem endSample_dwell (h : TilesDwell s t) (uid row result cause : Nat) : TilesDwell s (endSample t uid row result cause) := by
  cases hx : getSample t uid row with
  | none =>
    unfold endSample
    rw [hx]
    exact h
  | some x =>
    cases ho : getOp t uid with
    | none =>
      unfold endSample onOp
      rw [hx, ho]
      exact h
    | some o =>
      rw [endSample_eq hx ho]
      have charged : TilesDwell s (sampleCharged t x o result cause) := by
        refine TilesDwell.of_keeps ?_ [.parts] (chargeSample_keeps x o result (Keeps.rfl_ _ _) (List.Subset.refl _))
        exact addRec_dwell h _
      have counted := charged.of_keeps [.parts] (countRpl_keeps x.part result cause (Keeps.rfl_ _ _) (List.Subset.refl _))
      generalize countRpl (sampleCharged t x o result cause) x.part result cause = v at counted ⊢
      have engines := (counted.of_same (replayInput_same v o row result cause)).of_same (freeEngines_same uid row (x.engines ++ x.conf) _)
      refine TilesDwell.of_keeps ?_ _ (settle_keeps uid (Keeps.rfl_ _ _) (List.Subset.refl _))
      refine TilesDwell.of_keeps ?_ [.ops] (updOp_keeps uid _ (Keeps.rfl_ _ _) (List.Subset.refl _))
      have witness {w : State} (hw : TilesDwell s w) (l : List Sample) : TilesDwell s (freeWitness { w with samples := l } x result cause) :=
        TilesDwell.of_keeps (t := { w with samples := l }) (hw.of_eq rfl) _ (freeWitness_keeps x result cause (Keeps.rfl_ _ _) (List.Subset.refl _))
      have unchecked (w : State) (hw : TilesDwell s w) : TilesDwell s (if x.unchecked = 0 then w else addRpl (addDeficit w x.part x.unchecked) x.part 14 x.unchecked) :=
        TilesDwell.ite hw (hw.of_keeps [.parts] (addRpl_keeps _ _ _ (addDeficit_keeps _ _ (Keeps.rfl_ _ w) (List.Subset.refl _)) (List.Subset.refl _)))
      exact TilesDwell.ite (watchPass_dwell (unchecked _ (witness engines _)) _) (unchecked _ (witness engines _))

theorem queueDeadlines_dwell (h : TilesDwell s t) : TilesDwell s (queueDeadlines t) :=
  TilesDwell.foldl (fun _ (x : Sample) hv => endSample_dwell hv x.uid x.row rIncon 0x04) h _

theorem tryAttach_dwell (h : TilesDwell s t) (x : Sample) : TilesDwell s (tryAttach t x) := by
  refine onOp_ind h fun o _ => TilesDwell.ite (endSample_dwell h _ _ _ _) (TilesDwell.ite (endSample_dwell h _ _ _ _) (TilesDwell.ite h ?_))
  exact TilesDwell.foldl (fun v e hv => hv.of_keeps _ (giveEngine_keeps _ _ _ _ (Keeps.rfl_ _ v) (List.Subset.refl _))) h _

theorem poolTick_dwell (h : TilesDwell s t) : TilesDwell s (poolTick t) := by
  have confirmed (l : List Sample) : TilesDwell s (l.foldl tryConfirm t) :=
    TilesDwell.foldl (fun w x hw => hw.of_keeps _ (tryConfirm_keeps x (Keeps.rfl_ _ w) (List.Subset.refl _))) h l
  have promoted {v : State} (hv : TilesDwell s v) : TilesDwell s (promote v) := hv.of_keeps _ (promote_keeps (Keeps.rfl_ _ v) (List.Subset.refl _))
  exact TilesDwell.ite h (TilesDwell.foldl (fun _ x hv => tryAttach_dwell hv x) (promoted (confirmed _)) _)

theorem cmdState_dwell (h : TilesDwell s t) (i r : Nat) : TilesDwell s (cmdState t i r) := h.of_keeps _ (cmdState_keeps i r (Keeps.rfl_ _ t) (List.Subset.refl _))

theorem startSlice_dwell (h : TilesDwell s t) (j : Nat) : TilesDwell s (startSlice t j) := by
  unfold startSlice onTile
  split
  · dsimp only
    split
    · exact h
    · have started (f : Tile → Tile) (hf : ∀ x, f x = tlChanged [.reqs, .run, .wdHeld, .lastSlice] x (f x)) : TilesDwell s (updTile t j f) :=
        h.of_tl ((TlKeeps.rfl_ t).updTile j f [.reqs, .run, .wdHeld, .lastSlice] hf (covers_own j) (List.Subset.refl _))
      have begun {v : State} (hv : TilesDwell s v) : TilesDwell s (tryBegin v j) := hv.of_tl (tryBegin_tl (TlKeeps.rfl_ v) j (covers_own j) (List.Subset.refl _))
      have sent {v : State} (hv : TilesDwell s v) : TilesDwell s (sendTest v j true) := hv.sendFrame j (show opTestOn ≠ opDead by decide)
      split
      · refine cmdState_dwell (TilesDwell.ite (begun ?_) (sent ?_)) _ _ <;> exact started _ fun _ => rfl
      · refine TilesDwell.ite (begun ?_) (sent ?_) <;> exact started _ fun _ => rfl
  · exact h

theorem sliceTick_dwell (h : TilesDwell s t) : TilesDwell s (sliceTick t) := by
  have tiles : TilesDwell s ((t.domes.map (·.ix)).foldl domeSlices t) :=
    TilesDwell.foldl (fun _ _ hv => TilesDwell.ite hv (TilesDwell.foldl (fun _ c hw => startSlice_dwell hw c.2.2) hv _)) h _
  exact TilesDwell.ite (TilesDwell.foldl (fun v e hv => hv.of_keeps _ (engineSlice_keeps e (Keeps.rfl_ _ v) (List.Subset.refl _))) tiles _) tiles

theorem makeSeal_dwell (h : TilesDwell s t) (p : Nat) (w : Window) : TilesDwell s (makeSeal t p w) := by
  rw [makeSeal_eq]
  have stored : TilesDwell s (sealStored t p w) := h.of_eq rfl
  generalize sealStored t p w = v at stored ⊢
  unfold sealEnded
  dsimp only
  have epochs (ops : List OpV) : TilesDwell s { v with ops := ops, tiles := v.tiles.map fun t => if t.part = p then { t with acceptedEpochs := [] } else t } := by
    refine stored.of_tl (i := none) (m := [.acceptedEpochs]) (forall₂_of_map _ _ fun x => ?_)
    split
    · exact tlRel_of_frame (l := [.acceptedEpochs]) rfl (List.Subset.refl _) trivial
    · exact TlRel.rfl_ x
  have interval {v : State} (hv : TilesDwell s v) (i : NearItem) : TilesDwell s (nearPush (beginInterval v p) i) :=
    hv.of_keeps [.parts, .ops, .near] (nearPush_keeps i (beginInterval_keeps p (Keeps.rfl_ _ v) (by decide)) (by decide))
  have posted {v : State} (hv : TilesDwell s v) (l : List W32) : TilesDwell s (post v p .sealed 0xFFFF l) :=
    hv.of_keeps _ (post_keeps _ _ _ _ (Keeps.rfl_ _ v) (List.Subset.refl _))
  exact TilesDwell.foldl (fun v x hv => hv.of_keeps _ (freeNote_keeps p x false (Keeps.rfl_ _ v) (List.Subset.refl _)))
    (posted (TilesDwell.ite (addRec_dwell (interval (epochs _) _) _) (interval (epochs _) _)) _) _

theorem sealCheck_dwell (h : TilesDwell s t) (p : Nat) : TilesDwell s (sealCheck t p) := by
  unfold sealCheck
  split
  · refine TilesDwell.ite h (TilesDwell.ite h ?_)
    split
    · exact h.of_keeps _ (refuseSeal_keeps _ _ (Keeps.rfl_ _ t) (List.Subset.refl _))
    · exact makeSeal_dwell h p _
  · exact h

theorem sealRetry_dwell (h : TilesDwell s t) (p : Nat) : TilesDwell s (sealRetry t p) := by
  have restored {v : State} (hv : TilesDwell s v) : TilesDwell s (restoreCheck v p) := hv.of_keeps _ (restoreCheck_keeps p (Keeps.rfl_ _ v) (List.Subset.refl _))
  have sealed_ : TilesDwell s (if inSafe t uBlf then t else sealCheck t p) := TilesDwell.ite h (sealCheck_dwell h p)
  exact TilesDwell.ite (restored sealed_) sealed_

/-- With no repair due, a tick's work after its actions leaves every tile its state and its FENCE frames. -/
theorem tickWork_dwell (hrep : t.nvm.repairDue = []) : TilesDwell t (tickWork t) := by
  have pool := poolTick_dwell (queueDeadlines_dwell (.rfl_ t))
  have due : (sliceTick (poolTick (queueDeadlines t))).nvm.repairDue = [] := by
    have same := (sliceTick_keeps (poolTick_keeps (queueDeadlines_keeps (Keeps.rfl_ [.alert, .inputs, .cmd, .cmds, .cistern, .parts, .tiles, .spires, .domes, .ops, .tickets,
      .samples, .engines, .caravan, .records, .early, .near, .rng] t) (by decide)) (by decide)) (by decide)).same
    rw [(same .nvm (by decide) :)]
    exact hrep
  have before : TilesDwell t (beforeSeals t) := by
    unfold beforeSeals
    rw [repairTick_idle due]
    exact sliceTick_dwell pool
  have seals := TilesDwell.foldl (fun v p hv => sealRetry_dwell hv p) before (List.range Config.parts)
  have keys := TilesDwell.foldl (fun v p hv => hv.of_keeps [.parts, .attQ, .near]
    (attStep_keeps p (closeDueKeys_keeps p (Keeps.rfl_ _ v) (by decide)) (by decide))) seals (List.range Config.parts)
  have compared {v : State} (hv : TilesDwell t v) : TilesDwell t (compareTick v) := hv.of_keeps _ (compareTick_keeps (Keeps.rfl_ _ v) (List.Subset.refl _))
  have busy {v : State} (hv : TilesDwell t v) : TilesDwell t (busyEngines v) := hv.of_keeps _ (busyEngines_keeps (Keeps.rfl_ _ v) (List.Subset.refl _))
  have fenced {v : State} (hv : TilesDwell t v) : TilesDwell t (fencedMeter v) := hv.of_keeps _ (fencedMeter_keeps (Keeps.rfl_ _ v) (List.Subset.refl _))
  exact fenced (busy (compared keys))

end

end Sys2Proof.Machine
end

section
/-! State actions on one tile (R225, R226). -/

set_option Elab.async false

namespace Sys2Proof.Machine

/-! ### State actions on one tile (R225, R226) -/

/-- What a tile shows of its state: the state, the watch, and the frames that are out or wait. -/
def tileView (x : Tile) : Nat × Option WatchSt × Option OutFrame × List OutFrame := (x.state, x.watch, x.out, x.next)

/-- The parts of the state that a state action may change, but for DEAD. -/
def actionFlds : List Fld := [.alert, .cmd, .cmds, .belfry, .cistern, .nvm, .parts, .tiles, .domes, .caravan, .spires, .records, .early, .near]

/-- Within what such an action may change, the tile `j` shows what it showed, and no repair comes due. -/
structure Bystander (j : Nat) (s t : State) : Prop where
  view : (getTile t j).map tileView = (getTile s j).map tileView
  ixs : t.tiles.map (·.ix) = s.tiles.map (·.ix)
  same : Same actionFlds s t
  due : t.nvm.repairDue = s.nvm.repairDue

section
variable {s t u v : State} {j k : Nat}

theorem Bystander.rfl_ (j : Nat) (s : State) : Bystander j s s := ⟨rfl, rfl, Same.rfl_ _ s, rfl⟩

theorem Bystander.trans (h : Bystander j s t) (g : Bystander j t u) : Bystander j s u :=
  ⟨g.view.trans h.view, g.ixs.trans h.ixs, h.same.trans g.same, g.due.trans h.due⟩

theorem TlKeeps.ixs {i : Option Nat} {m : List TlFld} (h : TlKeeps i m s t) : t.tiles.map (·.ix) = s.tiles.map (·.ix) := by
  unfold TlKeeps at h
  generalize s.tiles = a, t.tiles = b at h
  induction h with
  | nil => rfl
  | cons r _ ih => rw [List.map_cons, List.map_cons, r.ix, ih]

theorem Bystander.of_same {l : List Fld} (h : Bystander j s t) (e : Same l t u) (hl : l ⊆ actionFlds := by decide) (ht : .tiles ∉ l ∧ .nvm ∉ l := by decide) :
    Bystander j s u := by
  have tiles : getTile u j = getTile t j := by rw [getTile, (e .tiles ht.1 :), ← getTile]
  have nvm : u.nvm = t.nvm := e .nvm ht.2
  exact h.trans ⟨by rw [tiles], by rw [(e .tiles ht.1 :)], e.mono hl, by rw [nvm]⟩

theorem Bystander.foldl {α : Type} {f : State → α → State} {l : List α} (hf : ∀ v, ∀ a ∈ l, Bystander j s v → Bystander j s (f v a)) (h : Bystander j s t) :
    Bystander j s (l.foldl f t) := List.foldlRecOn (motive := Bystander j s) l f h fun v hv a ha => hf v a ha hv

/-- A state action that is at tile `k` shows nothing at another tile. -/
structure ActsAt (k : Nat) (s t : State) : Prop where
  tl : TlKeeps (some k) [.state, .fencedAt, .watch, .fseq, .out, .next] s t
  same : Same actionFlds s t
  due : t.nvm.repairDue = s.nvm.repairDue

theorem ActsAt.rfl_ (k : Nat) (s : State) : ActsAt k s s := ⟨TlKeeps.rfl_ s, Same.rfl_ _ s, rfl⟩

theorem ActsAt.bystander (h : ActsAt k s t) (hj : j ≠ k) : Bystander j s t := ⟨by rw [h.tl.getTile_other hj], h.tl.ixs, h.same, h.due⟩

theorem ActsAt.of_same {l : List Fld} (h : ActsAt k s t) (e : Same l t u) (hl : l ⊆ actionFlds := by decide) (ht : .tiles ∉ l ∧ .nvm ∉ l := by decide) :
    ActsAt k s u := ⟨h.tl.of_same e ht.1, h.same.trans (e.mono hl), (congrArg (·.repairDue) (e .nvm ht.2 :)).trans h.due⟩

theorem noopState_at (h : ActsAt k s t) (i peal cls : Nat) (vtick : W64) : ActsAt k s (noopState t i peal cls vtick) := by
  unfold noopState onTile
  split
  · exact h.of_same (addRec_same t _)
  · exact h

theorem noopState_tiles (s : State) (i peal cls : Nat) (vtick : W64) : (noopState s i peal cls vtick).tiles = s.tiles := by
  unfold noopState onTile
  split
  · exact addRec_same s _ .tiles (by decide)
  · rfl

/-- R225: what a tile becomes that goes to WATCH or HEALTHY at tick `now`. -/
def changedTile (now : W64) (old new : Nat) (w : Option WatchSt) (x : Tile) : Tile :=
  { x with state := new, fencedAt := if old < stFenced ∧ stFenced ≤ new then some now else x.fencedAt, watch := w }

/-- R225, R443: the tile is changed in the Keep. -/
def tileChanged (s : State) (k old new : Nat) (w : Option WatchSt) : State := snapshotDue (updTile s k (changedTile s.time.tick old new w)) old new

theorem tileChanged_at (s : State) (k old new : Nat) (w : Option WatchSt) : ActsAt k s (tileChanged s k old new w) := by
  have tiles : (tileChanged s k old new w).tiles = (updTile s k (changedTile s.time.tick old new w)).tiles := by
    unfold tileChanged snapshotDue
    split <;> rfl
  refine ⟨((TlKeeps.rfl_ s).updTile k (changedTile s.time.tick old new w) [.state, .fencedAt, .watch] (fun _ => rfl) (covers_own k) (by decide)).of_eq tiles, ?_, ?_⟩
  · unfold tileChanged snapshotDue
    split <;> exact fun f hf => by cases f <;> first | rfl | exact absurd (by decide) hf
  · unfold tileChanged snapshotDue
    split <;> rfl

theorem getTile_tileChanged {x : Tile} (hx : getTile s k = some x) (old new : Nat) (w : Option WatchSt) :
    getTile (tileChanged s k old new w) k = some (changedTile s.time.tick old new w x) := by
  have tiles : (tileChanged s k old new w).tiles = (updTile s k (changedTile s.time.tick old new w)).tiles := by
    unfold tileChanged snapshotDue
    split <;> rfl
  rw [getTile, tiles]
  exact (getTile_updTile s k (changedTile s.time.tick old new w) fun _ => rfl).trans (congrArg _ hx)

/-- A change to WATCH or HEALTHY whose record is written at once. -/
def changeRecorded (s : State) (k old new : Nat) (w : Option WatchSt) (g : Spire → Spire) (r : Rec) : State := addRec (updSp (tileChanged s k old new w) k g) r

theorem changeRecorded_tiles (s : State) (k old new : Nat) (w : Option WatchSt) (g : Spire → Spire) (r : Rec) :
    (changeRecorded s k old new w g r).tiles = (tileChanged s k old new w).tiles := addRec_same (updSp (tileChanged s k old new w) k g) r .tiles (by decide)

theorem updSp_same (s : State) (k : Nat) (g : Spire → Spire) : Same [.spires] s (updSp s k g) := (updSp_keeps k g (Keeps.rfl_ _ s) (List.Subset.refl _)).same

theorem changeRecorded_at (s : State) (k old new : Nat) (w : Option WatchSt) (g : Spire → Spire) (r : Rec) : ActsAt k s (changeRecorded s k old new w g r) :=
  ((tileChanged_at s k old new w).of_same (updSp_same _ k g)).of_same (addRec_same _ r)

theorem stateOf_changeRecorded {x : Tile} (hx : getTile s k = some x) (old new : Nat) (w : Option WatchSt) (g : Spire → Spire) (r : Rec) :
    stateOf (changeRecorded s k old new w g r) k = new := by
  rw [stateOf, getTile, changeRecorded_tiles, ← getTile, getTile_tileChanged hx]
  rfl

theorem changeState_watch {x : Tile} (hx : getTile s k = some x) (h0 : x.state = stHealthy) (cause peal cls : Nat) (vtick : W64) (code uid : Nat) :
    ∃ w r, changeState s k stWatch cause peal cls vtick code uid none = changeRecorded s k x.state stWatch w spWatch r := by
  unfold changeState
  rw [onTile_some hx]
  exact ⟨_, _, if_pos h0⟩

theorem changeState_healthy {x : Tile} (hx : getTile s k = some x) (cause peal cls : Nat) (vtick : W64) (code uid : Nat) :
    ∃ r, changeState s k stHealthy cause peal cls vtick code uid none = changeRecorded s k x.state stHealthy none spHealthy r := by
  unfold changeState
  rw [onTile_some hx]
  exact ⟨_, rfl⟩

theorem changeState_none (hx : getTile s k = none) (new cause peal cls : Nat) (vtick : W64) (code uid : Nat) (inst : Option Nat) :
    changeState s k new cause peal cls vtick code uid inst = s := by rw [changeState, onTile, hx]

/-! #### WATCH -/

theorem stateOf_actWatch {x : Tile} (hx : getTile s k = some x) (peal cls : Nat) (vtick : W64) (code uid : Nat) :
    stateOf (actWatch s k peal cls vtick code uid) k = if x.state = stHealthy then stWatch else x.state := by
  have noop (v : State) (hv : stateOf v k = x.state) : stateOf (noopState v k peal cls vtick) k = x.state := by
    rw [stateOf, getTile, noopState_tiles, ← getTile, ← stateOf, hv]
  have own : stateOf s k = x.state := stateOf_of_getTile hx
  unfold actWatch
  split
  · next h0 =>
    have healthy : x.state = stHealthy := own.symm.trans h0
    obtain ⟨w, r, e⟩ := changeState_watch hx healthy tcPeal peal cls vtick code uid
    rw [e, stateOf_changeRecorded hx, if_pos healthy]
  · next h1 =>
    rw [if_neg (by rw [← own, h1]; decide)]
    refine noop _ (Eq.trans ?_ own)
    exact ((TlKeeps.rfl_ s).updTile k (fun t => { t with watch := t.watch.map fun w => { w with other := true } }) [.watch] (fun _ => rfl) (covers_own k)
      (List.Subset.refl _)).stateOf (by decide) k
  · next h0 h1 =>
    rw [if_neg (show ¬ x.state = stHealthy from fun e => h0 (own.trans e))]
    exact noop s own

theorem actWatch_at (s : State) (k peal cls : Nat) (vtick : W64) (code uid : Nat) : ActsAt k s (actWatch s k peal cls vtick code uid) := by
  unfold actWatch
  split
  · next h0 =>
    cases hx : getTile s k with
    | none =>
      rw [changeState_none hx]
      exact .rfl_ k s
    | some x =>
      obtain ⟨w, r, e⟩ := changeState_watch hx ((stateOf_of_getTile hx).symm.trans h0) tcPeal peal cls vtick code uid
      rw [e]
      exact changeRecorded_at ..
  · have marked : ActsAt k s (updTile s k fun t => { t with watch := t.watch.map fun w => { w with other := true } }) := by
      refine ⟨(TlKeeps.rfl_ s).updTile k _ [.watch] (fun _ => rfl) (covers_own k) (by decide), fun f hf => ?_, rfl⟩
      cases f <;> first | rfl | exact absurd (by decide) hf
    exact noopState_at marked ..
  · exact noopState_at (.rfl_ k s) ..

/-! #### UNWATCH -/

theorem stateOf_actUnwatch {x : Tile} (hx : getTile s k = some x) (peal cls : Nat) {param : Nat} (hp : param % 2 = 0) (vtick : W64) (uid code : Nat) :
    stateOf (actUnwatch s k peal cls param vtick uid code) k = if watchExit s k = true then stHealthy else x.state := by
  unfold actUnwatch
  rw [if_pos hp]
  split
  · obtain ⟨r, e⟩ := changeState_healthy hx tcWatchExit peal cls vtick 0 0
    rw [e, stateOf_changeRecorded hx]
  · rw [stateOf, getTile, noopState_tiles, ← getTile, hx]

theorem actUnwatch_at (s : State) (k peal cls param : Nat) (vtick : W64) (uid code : Nat) : ActsAt k s (actUnwatch s k peal cls param vtick uid code) := by
  have changed (cause : Nat) : ActsAt k s (changeState s k stHealthy cause peal cls vtick 0 0 none) := by
    cases hx : getTile s k with
    | none =>
      rw [changeState_none hx]
      exact .rfl_ k s
    | some x =>
      obtain ⟨r, e⟩ := changeState_healthy hx cause peal cls vtick 0 0
      rw [e]
      exact changeRecorded_at ..
  unfold actUnwatch
  split
  · split
    · exact changed _
    · exact noopState_at (.rfl_ k s) ..
  · split
    · exact changed _
    · exact noopState_at (.rfl_ k s) ..

/-- The exit conditions are those of what the tile shows. -/
theorem watchExit_iff {x : Tile} {r : RecovParams} (hx : getTile s k = some x) (hr : recov s = some r) : watchExit s k = true ↔
    x.state = stWatch ∧ ∃ w, x.watch = some w ∧ r.watchMin ≤ s.time.tick.toNat - w.since.toNat ∧ r.watchPass ≤ w.passes ∧ w.slice = true := by
  unfold watchExit
  rw [hx, hr]
  dsimp only
  cases x.watch with
  | none => simp
  | some w => simp only [Bool.and_eq_true, beq_iff_eq, decide_eq_true_eq, Option.some.injEq, exists_eq_left', and_assoc]

/-- The exit conditions of a bystander stand. -/
theorem Bystander.watchExit (h : Bystander j s t) : watchExit t j = watchExit s j := by
  have image : t.image = s.image := congrArg Prod.fst (h.same .image (by decide) :)
  have tick : t.time.tick = s.time.tick := h.same .tick (by decide)
  have view := h.view
  unfold Machine.watchExit recov
  rw [image, tick]
  cases hs : getTile s j with
  | none =>
    rw [hs] at view
    rw [Option.map_eq_none_iff.1 view]
  | some x =>
    rw [hs] at view
    obtain ⟨y, hy, e⟩ := Option.map_eq_some_iff.1 view
    simp only [tileView, Prod.mk.injEq] at e
    obtain ⟨state, watch, -⟩ := e
    rw [hy]
    cases s.image with
    | none => rfl
    | some im => simp only [Option.map_some, state, watch]

/-! #### FENCE -/

theorem actFence_at (s : State) (k cause peal cls : Nat) (vtick : W64) : ActsAt k s (actFence s k cause peal cls vtick) := by
  refine ⟨actFence_tl (TlKeeps.rfl_ s) k cause peal cls vtick (covers_own k) (by decide), (actFence_same s k cause peal cls vtick).mono (by decide), ?_⟩
  rcases actFence_cases s k cause peal cls vtick with ⟨t, -, -, e⟩ | ⟨-, e⟩ | ⟨t, r, -, -, e⟩ <;> rw [e]
  · have sent := fenceSent_same (tileFenced s k t.state) k t.state cause peal cls vtick
    rw [(sent .nvm (by decide) :)]
    unfold tileFenced snapshotDue
    split <;> rfl
  · rw [(addRec_same s r .nvm (by decide) :)]

theorem sendFrame_fenceSent {x : Tile} {f : OutFrame} (hx : getTile s k = some x) (hop : f.op = opFence) :
    ∃ y, getTile (sendFrame s k f) k = some y ∧ y.FenceSent := by
  unfold sendFrame
  rw [onTile_some hx, if_neg (by rw [hop]; decide)]
  split
  · unfold issueFrame
    rw [onTile_some hx]
    dsimp only
    rw [getTile, bigDome_tiles]
    exact ⟨_, (getTile_updTile s k (fun t => { t with fseq := x.fseq + 1, out := some _ }) fun _ => rfl).trans (congrArg _ hx), _,
      List.mem_append_left _ (List.mem_singleton_self _), hop⟩
  · exact ⟨_, (getTile_updTile s k (fun t => { t with next := t.next ++ [f] }) fun _ => rfl).trans (congrArg _ hx), _,
      List.mem_append_right _ (List.mem_append_right _ (List.mem_singleton_self _)), hop⟩

/-- R231: the FENCE frame of a tile that is fenced is out, or waits. -/
theorem actFence_sent {x : Tile} (hx : getTile s k = some x) (hlt : x.state < stFenced) (cause peal cls : Nat) (vtick : W64) :
    ∃ y, getTile (actFence s k cause peal cls vtick) k = some y ∧ y.FenceSent := by
  have e : actFence s k cause peal cls vtick = fenceSent (tileFenced s k x.state) k x.state cause peal cls vtick := by
    unfold actFence
    rw [stateOf_of_getTile hx, if_pos hlt, changeState_fenced hx]
  rw [e]
  exact sendFrame_fenceSent (getTile_tileFenced hx x.state) rfl

end

end Sys2Proof.Machine
end

section
/-! A tick's actions as one tile sees them (R341, R342). -/

set_option Elab.async false

namespace Sys2Proof.Machine

/-! ### A tick's actions as one tile sees them (R341, R342) -/

/-- An action that shows nothing at tile `j`: LBIST_TILE of any tile, UNWATCH of another. -/
def Act.PassesBy (j : Nat) (a : Act) : Prop := ∃ k, a.tile = some k ∧ (a.code = 4 ∨ (a.code = 6 ∧ j ≠ k))

section
variable {s t u v : State} {j k : Nat} {a : Act} {acts : List Act}

theorem requestSlices_tl (s : State) (k n : Nat) : TlKeeps (some k) [.reqs] s (requestSlices s k n) := by
  refine (TlKeeps.rfl_ s).onTile k _ fun t _ => ?_
  split
  · exact .rfl_ s
  · dsimp only
    split
    · exact (TlKeeps.rfl_ s).updTile k _ [.reqs] (fun _ => rfl) (covers_own k) (List.Subset.refl _)
    · exact (TlKeeps.rfl_ s).updTile k _ [.reqs] (fun _ => rfl) (covers_own k) (List.Subset.refl _)

theorem requestSlices_bystander (j : Nat) (s : State) (k n : Nat) : Bystander j s (requestSlices s k n) := by
  have same := (requestSlices_keeps k n (Keeps.rfl_ [.tiles] s) (List.Subset.refl _)).same
  refine ⟨(requestSlices_tl s k n).map_getTile tileView (fun x y r => ?_) j, (requestSlices_tl s k n).ixs, same.mono (by decide), by rw [(same .nvm (by decide) :)]⟩
  rw [tileView, (r.same .state (by decide) :), (r.same .watch (by decide) :), (r.same .out (by decide) :), (r.same .next (by decide) :)]
  rfl

theorem runAct_bystander (h : a.PassesBy j) (s : State) : Bystander j s (runAct s a) := by
  obtain ⟨k, ht, hc⟩ := h
  unfold runAct
  split
  · exact .rfl_ j s
  · rw [ht]
    dsimp only
    unfold runTile
    rcases hc with hc | ⟨hc, hj⟩ <;> simp only [hc]
    · exact requestSlices_bystander j s k _
    · exact (actUnwatch_at s k _ _ _ _ _ _).bystander hj

theorem cancel_bystander (j : Nat) (acts : List Act) (s : State) {a : Act} (hcmd : a.cmd = none) : Bystander j s (cancel acts s a) :=
  (Bystander.rfl_ j s).of_same (cancel_keeps acts a (Keeps.rfl_ _ s) (List.Subset.refl _)).same

/-- The standing actions in order, after the cancellations, where no count fired. -/
theorem resolve_eq (w : State) (acts : List Act) : resolve ⟨w, acts, []⟩ =
    (acts.filter fun a => fate acts a == .stands).foldl runAct ((acts.filter fun a => fate acts a == .cancelled).foldl (cancel acts) w) := rfl

section
variable (hcmd : ∀ b ∈ acts, b.cmd = none)

include hcmd in
theorem cancels_bystander (j : Nat) (w : State) : Bystander j w ((acts.filter fun a => fate acts a == .cancelled).foldl (cancel acts) w) :=
  Bystander.foldl (fun v b hb hv => hv.trans (cancel_bystander j acts v (hcmd b (List.mem_of_mem_filter hb)))) (.rfl_ j w)

theorem mem_standing {b : Act} : b ∈ acts.filter (fun a => fate acts a == .stands) ↔ b ∈ acts ∧ fate acts b = .stands := by rw [List.mem_filter, beq_iff_eq]

include hcmd in
/-- Where every action that stands passes the tile by, so does the resolution. -/
theorem resolve_bystander (w : State) (hby : ∀ b ∈ acts, fate acts b = .stands → b.PassesBy j) : Bystander j w (resolve ⟨w, acts, []⟩) := by
  rw [resolve_eq]
  refine Bystander.foldl (fun v b hb hv => ?_) (cancels_bystander hcmd j w)
  obtain ⟨hb, stands⟩ := mem_standing.1 hb
  exact hv.trans (runAct_bystander (hby b hb stands) v)

include hcmd in
/-- Where one action stands and every other that stands passes the tile by, the tile sees that action alone. -/
theorem resolve_sees (order : acts.Pairwise fun a b => a.seq < b.seq) (ha : a ∈ acts) (stands : fate acts a = .stands)
    (hby : ∀ b ∈ acts, b.seq ≠ a.seq → fate acts b = .stands → b.PassesBy j) (w : State) :
    ∃ v, Bystander j w v ∧ Bystander j (runAct v a) (resolve ⟨w, acts, []⟩) := by
  obtain ⟨pre, post, split⟩ := List.append_of_mem (mem_standing.2 ⟨ha, stands⟩)
  have sorted := order.filter fun a => fate acts a == .stands
  rw [split] at sorted
  obtain ⟨-, after, before⟩ := List.pairwise_append.1 sorted
  have passes {b : Act} (hb : b ∈ pre ++ a :: post) (hne : b.seq ≠ a.seq) : b.PassesBy j := by
    rw [← split] at hb
    obtain ⟨hb, hs⟩ := mem_standing.1 hb
    exact hby b hb hne hs
  rw [resolve_eq, split, List.foldl_append, List.foldl_cons]
  refine ⟨_, Bystander.foldl (fun v b hb hv => hv.trans (runAct_bystander (passes (List.mem_append_left _ hb) ?_) v)) (cancels_bystander hcmd j w),
    Bystander.foldl (fun v b hb hv => hv.trans (runAct_bystander (passes (List.mem_append_right _ (List.mem_cons_of_mem _ hb)) ?_) v)) (.rfl_ j _)⟩
  · exact (before b hb a List.mem_cons_self).ne
  · exact ((List.pairwise_cons.1 after).1 b hb).ne'

end

end

end Sys2Proof.Machine
end

section
/-! The actions that firings and one matched peal gather (R337, R346, R349). -/

set_option Elab.async false

namespace Sys2Proof.Machine

/-! ### The actions that TIMER firings and one matched peal gather (R337, R346, R349) -/

/-- A tile action of a peal, before it is numbered. -/
def pealAct (v : State) (cls ix : Nat) (p : Peal) (part : Nat) (i : Option Input) (sp : Nat) : Act :=
  { seq := 0, cls := cls, peal := ix, code := plAct p, param := plParam p, part := part, tile := some sp, tc := causeOf i, input := i,
    cmd := none, label := 0, tick := (i.map (·.tick)).getD v.time.tick }

/-- An item is a firing. -/
def Item.IsTimer (x : Item) : Prop := ∃ d k q, x = .timer d k q

section
variable {v : State} {m : Matched} {n : Nat}

theorem pealActs_tileAct {p : Peal} (ht : tileAct (plAct p) = true) (v : State) (cls ix part : Nat) (i : Option Input) : pealActs v cls ix p part i =
    ((targets v p part i).filter fun x => condOk v p part (some x)).map (pealAct v cls ix p part i) := by
  unfold pealActs
  dsimp only
  rw [if_pos ht]
  rfl

theorem mem_pealActs {p : Peal} (ht : tileAct (plAct p) = true) {cls ix part : Nat} {i : Option Input} {b : Act} : b ∈ pealActs v cls ix p part i ↔
    ∃ sp, sp ∈ targets v p part i ∧ condOk v p part (some sp) = true ∧ b = pealAct v cls ix p part i sp := by
  rw [pealActs_tileAct ht, List.mem_map]
  refine exists_congr fun sp => ?_
  rw [List.mem_filter, and_assoc]
  exact and_congr_right fun _ => and_congr_right fun _ => eq_comm

/-- Firings give their actions behind those gathered, and change nothing. -/
theorem timers_gather {l : List Item} (hl : ∀ x ∈ l, x.IsTimer) (m : Matched) : ∃ rest, l.foldl (itemActs n) m = ⟨m.st, m.acts ++ rest, m.fires⟩ ∧
    ∀ Q : Act → Prop, (∀ b k, Q { b with seq := k } ↔ Q b) →
      ((∃ b ∈ rest, Q b) ↔ ∃ d k q, .timer d k q ∈ l ∧ ∃ b ∈ pealActs m.st 8 k (pealAt m.st k) q none, Q b) := by
  induction l generalizing m with
  | nil => exact ⟨[], by rw [List.append_nil]; rfl, fun Q _ => ⟨fun ⟨_, h, _⟩ => (List.not_mem_nil h).elim, fun ⟨_, _, _, h, _⟩ => (List.not_mem_nil h).elim⟩⟩
  | cons x l ih =>
    obtain ⟨⟨d, k, q, rfl⟩, htl⟩ := List.forall_mem_cons.1 hl
    obtain ⟨rest, e, hrest⟩ := ih htl (itemActs n m (.timer d k q))
    refine ⟨numbered m.acts.length (pealActs m.st 8 k (pealAt m.st k) q none) ++ rest, ?_, fun Q hQ => ?_⟩
    · rw [List.foldl_cons, e, ← List.append_assoc]
      rfl
    · have first := numbered_exists (k := m.acts.length) (l := pealActs m.st 8 k (pealAt m.st k) q none) hQ
      have later := hrest Q hQ
      constructor
      · rintro ⟨b, hb, hQb⟩
        obtain hb | hb := List.mem_append.1 hb
        · exact ⟨d, k, q, List.mem_cons_self, first.1 ⟨b, hb, hQb⟩⟩
        · obtain ⟨d, k, q, hmem, hact⟩ := later.1 ⟨b, hb, hQb⟩
          exact ⟨d, k, q, List.mem_cons_of_mem _ hmem, hact⟩
      · rintro ⟨d', k', q', hmem, hact⟩
        obtain e | hmem := List.mem_cons.1 hmem
        · obtain ⟨rfl, rfl, rfl⟩ := Item.timer.inj e
          obtain ⟨b, hb, hQb⟩ := first.2 hact
          exact ⟨b, List.mem_append_left _ hb, hQb⟩
        · obtain ⟨b, hb, hQb⟩ := later.2 ⟨d', k', q', hmem, hact⟩
          exact ⟨b, List.mem_append_right _ hb, hQb⟩

/-- What holds of the actions of firings, whatever their number. -/
theorem timers_forall {l : List Item} {rest : List Act} {P : Act → Prop} (hP : ∀ b k, P { b with seq := k } ↔ P b)
    (hrest : ∀ Q : Act → Prop, (∀ b k, Q { b with seq := k } ↔ Q b) →
      ((∃ b ∈ rest, Q b) ↔ ∃ d k q, .timer d k q ∈ l ∧ ∃ b ∈ pealActs v 8 k (pealAt v k) q none, Q b))
    (h : ∀ d k q, .timer d k q ∈ l → ∀ b ∈ pealActs v 8 k (pealAt v k) q none, P b) : ∀ b ∈ rest, P b := by
  intro b hb
  by_contra hn
  obtain ⟨d, k, q, hmem, c, hc, hn⟩ := (hrest (fun b => ¬ P b) fun b k => not_congr (hP b k)).1 ⟨b, hb, hn⟩
  exact hn (h d k q hmem c hc)

theorem find_nodup_filter {l : List Tile} {sp q : Nat} {x : Tile} (hn : (l.map (·.ix)).Nodup) (hx : l.find? (fun t => t.ix == sp) = some x) (hq : x.part = q) :
    ((l.filter fun t => t.part == q).map (·.ix)).filter (fun k => k == sp) = [sp] := by
  have mem : sp ∈ (l.filter fun t => t.part == q).map (·.ix) := by
    refine List.mem_map.2 ⟨x, List.mem_filter.2 ⟨List.mem_of_find?_eq_some hx, beq_iff_eq.2 hq⟩, ?_⟩
    have hk := List.find?_some hx
    exact beq_iff_eq.1 hk
  have nodup : ((l.filter fun t => t.part == q).map (·.ix)).Nodup := hn.sublist (List.filter_sublist.map _)
  rw [List.filter_beq, List.count_eq_one_of_mem nodup mem]
  rfl

/-- R349: the input's own tile is the one target of TGT_MODE 0. -/
theorem targets_own {p : Peal} {i : Input} {x : Tile} (hn : (v.tiles.map (·.ix)).Nodup) (hx : getTile v i.spire = some x) (hq : x.part = i.part)
    (hsp : i.spire ≠ 0xFFFF) (ht : plTgt p = 0) : targets v p i.part (some i) = [i.spire] := by
  have own : inputTile (some i) = some i.spire := if_neg hsp
  unfold targets
  rw [ht]
  dsimp only
  rw [own, ← find_nodup_filter hn hx hq]
  exact List.filter_congr fun k _ => by rw [Option.some_beq_some, Bool.beq_comm]

/-- R348: no condition. -/
theorem condOk_none {p : Peal} (hc : plCond p = 0) (hn : plNeg p = false) (v : State) (part : Nat) (sp : Option Nat) : condOk v p part sp = true := by
  unfold condOk
  rw [hc, hn]
  rfl

/-- R348: WEXIT or no condition. -/
theorem condOk_exit {p : Peal} (hc : plCond p ≤ 1) (hn : plNeg p = false) {sp : Nat} (hx : getTile v sp ≠ none) (part : Nat) :
    condOk v p part (some sp) = true ↔ plCond p = 0 ∨ watchExit v sp = true := by
  obtain h0 | h1 : plCond p = 0 ∨ plCond p = 1 := by omega
  · exact ⟨fun _ => .inl h0, fun _ => condOk_none h0 hn v part _⟩
  · obtain ⟨x, hx⟩ := Option.ne_none_iff_exists'.1 hx
    unfold condOk
    rw [h1, hn]
    have flag : tileFlag v 1 sp = watchExit v sp := by
      rw [tileFlag, hx]
      rfl
    simp [flag]

end

/-! ### The state from which a tick gathers (R351, R226, R344) -/

/-- The state from which a tick gathers, of a tick that takes no words. -/
def gatherFrom (u : State) (n : Nat) (taken rest : List Item) : State := 
  let b := u.belfry
  let held := inSafe u uPart
  let cmds := if held then b.cmds else carriedCmds rest
  let before := b.carriedIn.length + b.timers.length + b.cadCarry.length + b.wcCarry + if held then 0 else b.cmdCarry
  let s1 := { u with belfry := { u.belfry with
    inputs := [], carriedIn := carriedInputs rest, timers := carriedTimers rest, timersNow := [], cmds := cmds
    cmdCarry := if held then b.cmdCarry else cmds.length, wcSets := carriedLabels rest, wcCarry := (carriedLabels rest).length
    cadCarry := (takenWords rest).map cPart, cadFifo := (takenWords taken).foldl (fun l w => l.erase w) u.belfry.cadFifo
    carried := before != 0, carryCnt := satAdd u.belfry.carryCnt rest.length
    lastInputs := BitVec.ofNat 8 (min 255 (taken.length + rest.length)) } }
  disarmTimers taken (taken.foldl inputConcern (closeWindows s1 n))

theorem sampleTick_gathers {u : State} {n : Nat} {taken rest : List Item} (h : withinLimits (sampled (itemsAt u n)) = (taken, rest)) (hw : takenWords taken = []) :
    sampleTick u n = resolve (taken.foldl (itemActs n) ⟨gatherFrom u n taken rest, [], []⟩) := by
  unfold sampleTick gatherFrom
  rw [h]
  dsimp only
  rw [hw]
  rfl

/-- The parts that change before a tick gathers. -/
def gatherFlds : List Fld := [.inputs, .belfry, .cmds, .cad, .parts, .tiles]

section
variable {u v : State} {n : Nat} {taken rest : List Item}

theorem disarmTimers_same (l : List Item) (s : State) : Same [.belfry] s (disarmTimers l s) :=
  List.foldlRecOn (motive := fun v => Same [.belfry] s v) _ _ (Same.rfl_ _ s) fun v hv ix _ =>
    hv.trans (onceFired_keeps ix _ (Keeps.rfl_ _ v) (List.Subset.refl _)).same

theorem closeWindows_same (s : State) (n : Nat) : Same [.belfry, .parts] s (closeWindows s n) :=
  List.foldlRecOn (motive := fun v => Same [.belfry, .parts] s v) _ _ (Same.rfl_ _ s) fun v hv c _ =>
    hv.trans (dropCount_keeps c.1 c.2.1 (Keeps.rfl_ _ v) (List.Subset.refl _)).same

theorem inputConcern_same (s : State) (x : Item) : Same [.tiles] s (inputConcern s x) := by
  unfold inputConcern
  have concerned (j : Nat) (b : Bool) : Same [.tiles] s (concern s j b) := (concern_keeps j b (Keeps.rfl_ _ s) (List.Subset.refl _)).same
  split
  · split
    · exact Same.rfl_ _ s
    · split
      · exact concerned _ _
      · split
        · exact concerned _ _
        · exact Same.rfl_ _ s
  · exact Same.rfl_ _ s

theorem inputConcern_tl (s : State) (x : Item) : TlKeeps none [.watch] s (inputConcern s x) := by
  unfold inputConcern
  have concerned (j : Nat) (b : Bool) : TlKeeps none [.watch] s (concern s j b) := (TlKeeps.rfl_ s).updTile j _ [.watch] (fun _ => rfl) trivial (List.Subset.refl _)
  split
  · split
    · exact .rfl_ s
    · split
      · exact concerned _ _
      · split
        · exact concerned _ _
        · exact .rfl_ s
  · exact .rfl_ s

theorem inputConcern_timer (s : State) {x : Item} (hx : x.IsTimer) : inputConcern s x = s := by
  obtain ⟨d, k, q, rfl⟩ := hx
  rfl

theorem gatherFrom_same : Same gatherFlds u (gatherFrom u n taken rest) := by
  have concerns (l : List Item) (s : State) : Same [.tiles] s (l.foldl inputConcern s) :=
    List.foldlRecOn (motive := fun v => Same [.tiles] s v) _ _ (Same.rfl_ _ s) fun v hv x _ => hv.trans (inputConcern_same v x)
  unfold gatherFrom
  dsimp only
  refine Same.trans ?_ ((disarmTimers_same _ _).mono (by decide))
  refine Same.trans ?_ ((concerns _ _).mono (by decide))
  refine Same.trans ?_ ((closeWindows_same _ _).mono (by decide))
  intro f hf
  cases f <;> first | rfl | exact absurd (by decide) hf

theorem gatherFrom_tl : TlKeeps none [.watch] u (gatherFrom u n taken rest) := by
  have concerns (l : List Item) (s : State) : TlKeeps none [.watch] s (l.foldl inputConcern s) :=
    List.foldlRecOn (motive := fun v => TlKeeps none [.watch] s v) _ _ (.rfl_ s) fun v hv x _ => hv.trans (inputConcern_tl v x)
  unfold gatherFrom
  dsimp only
  refine TlKeeps.of_same ?_ (disarmTimers_same _ _)
  refine TlKeeps.trans ?_ (concerns _ _)
  exact TlKeeps.of_eq (.rfl_ u) (closeWindows_same _ n .tiles (by decide))

theorem gatherFrom_tiles (ht : ∀ x ∈ taken, x.IsTimer) : (gatherFrom u n taken rest).tiles = u.tiles := by
  have concerns {l : List Item} (hl : ∀ x ∈ l, x.IsTimer) (s : State) : l.foldl inputConcern s = s :=
    List.foldlRecOn (motive := fun v => v = s) l inputConcern rfl fun v hv x hx => by rw [hv, inputConcern_timer s (hl x hx)]
  unfold gatherFrom
  dsimp only
  rw [(disarmTimers_same _ _ .tiles (by decide) :), concerns ht, (closeWindows_same _ _ .tiles (by decide) :)]

/-- The disarmed peals, but for the ONCE timers that fire. -/
theorem gatherFrom_disarmed {ix : Nat} (hx : ix ∉ (carriedTimers taken).map (·.1)) :
    (gatherFrom u n taken rest).belfry.disarmed.contains ix = u.belfry.disarmed.contains ix := by
  have windows (s : State) : (closeWindows s n).belfry.disarmed = s.belfry.disarmed := by
    refine List.foldlRecOn (motive := fun v : State => v.belfry.disarmed = s.belfry.disarmed) _ _ rfl fun v hv c _ => ?_
    unfold dropCount
    split
    · exact hv
    · exact hv
  have concerns (l : List Item) (s : State) : (l.foldl inputConcern s).belfry = s.belfry := by
    refine List.foldlRecOn (motive := fun v : State => v.belfry = s.belfry) l inputConcern rfl fun v hv x _ => ?_
    rw [← hv]
    unfold inputConcern concern
    split
    · split
      · rfl
      · split
        · rfl
        · split <;> rfl
    · rfl
  have disarmed (s : State) : (disarmTimers taken s).belfry.disarmed.contains ix = s.belfry.disarmed.contains ix := by
    refine List.foldlRecOn (motive := fun v : State => v.belfry.disarmed.contains ix = s.belfry.disarmed.contains ix) _ _ rfl fun v hv k hk => ?_
    have other : ix ≠ k := fun e => hx (e ▸ List.mem_eraseDups.1 hk)
    rw [← hv]
    unfold onceFired
    split
    · rw [List.contains_append, List.contains_cons, List.contains_nil, beq_false_of_ne other, Bool.or_false, Bool.or_false]
    · rfl
  unfold gatherFrom
  dsimp only
  rw [disarmed, concerns, windows]

end

end Sys2Proof.Machine
end

section
/-! A tick of firings alone (R225, R226). -/

set_option Elab.async false

namespace Sys2Proof.Machine

/-! ### A tick of TIMER firings alone (R225, R226) -/

section
variable {s t : State} {j : Nat}

/-- What changes before a tick samples. -/
theorem atTick_same (s : State) : Same [.parts, .near, .mtr, .tick, .belfry] s (atTick s) := by
  obtain ⟨v, same, e⟩ := atTick_eq s
  rw [e]
  intro f hf
  have kept := same f fun h => hf (by revert h; cases f <;> decide)
  cases f <;> first | exact kept | rfl | exact absurd (by decide) hf

theorem atTick_disarmed (s : State) : (atTick s).belfry.disarmed = s.belfry.disarmed := by
  obtain ⟨v, -, e⟩ := atTick_eq s
  rw [e]

/-- What a tick gathers from is, in its image, units, tiles' indices and time, the state before it. -/
theorem gatherFrom_before {n : Nat} {taken rest : List Item} (s : State) :
    Same (.near :: .mtr :: .tick :: gatherFlds) s (gatherFrom (atTick s) n taken rest) :=
  Same.trans ((atTick_same s).mono (by decide)) (gatherFrom_same.mono (by decide))

/-- A stepping tick that takes no words gathers from a state of which it says what changed. -/
theorem tick_gathers {taken : List Item} (hall : (withinLimits (sampled (itemsAt (atTick s) (nextBelfry s)))).1 = taken) (hw : takenWords taken = []) :
    ∃ v, sampleTick (atTick s) (nextBelfry s) = resolve (taken.foldl (itemActs (nextBelfry s)) ⟨v, [], []⟩) ∧
      Same (.near :: .mtr :: .tick :: gatherFlds) s v ∧ v.time.tick = (atTick s).time.tick ∧ TlKeeps none [.watch] s v ∧
      ((∀ x ∈ taken, x.IsTimer) → v.tiles = s.tiles) ∧
      ∀ ix, ix ∉ (carriedTimers taken).map (·.1) → v.belfry.disarmed.contains ix = s.belfry.disarmed.contains ix := by
  have tiles : (atTick s).tiles = s.tiles := atTick_same s .tiles (by decide)
  refine ⟨gatherFrom (atTick s) (nextBelfry s) taken (withinLimits (sampled (itemsAt (atTick s) (nextBelfry s)))).2, sampleTick_gathers (Prod.ext hall rfl) hw,
    gatherFrom_before s, gatherFrom_same .tick (by decide), (TlKeeps.of_eq (.rfl_ s) tiles).trans gatherFrom_tl, fun ht => (gatherFrom_tiles ht).trans tiles, fun ix hx => ?_⟩
  rw [gatherFrom_disarmed hx, atTick_disarmed]

theorem pealAt_of_image (h : t.image = s.image) (k : Nat) : pealAt t k = pealAt s k := by rw [pealAt, h, ← pealAt]

theorem Bystander.stateOf (h : Bystander j s t) : stateOf t j = stateOf s j := by
  rw [stateOf_eq_map, stateOf_eq_map]
  have e := congrArg (fun o => o.map Prod.fst) h.view
  simp only [Option.map_map] at e
  exact congrArg (fun o => Option.getD o 0) e

theorem Bystander.getTile_some (h : Bystander j s t) {x : Tile} (hx : getTile s j = some x) : ∃ y, getTile t j = some y ∧ tileView y = tileView x := by
  have view := h.view
  rw [hx] at view
  exact Option.map_eq_some_iff.1 view

/-- With no repair due, the rest of a stepping tick leaves every tile its state and its FENCE frames. -/
theorem belfryTick_dwells (hrun : s.time.run = true) (hstep : s.belfry.run = true) (hdue : (sampleTick (atTick s) (nextBelfry s)).nvm.repairDue = []) :
    ∃ t, exec .belfryTick s = .next t ∧ TilesDwell (sampleTick (atTick s) (nextBelfry s)) t := by
  obtain ⟨t, run, e, -⟩ := belfryTick_carries hrun hstep
  refine ⟨t, run, ?_⟩
  rw [e]
  have worked := tickWork_dwell hdue
  generalize tickWork (sampleTick (atTick s) (nextBelfry s)) = w at worked ⊢
  have framed := worked.of_keeps _ (orderFrames_keeps (atTick s).caravan.frames.length (Keeps.rfl_ _ w) (List.Subset.refl _))
  exact framed.of_keeps _ (endTick_keeps (Keeps.rfl_ _ _) (List.Subset.refl _))

theorem TilesDwell.stateOf (h : TilesDwell s t) {x : Tile} (hx : getTile s j = some x) : stateOf t j = stateOf s j := by
  obtain ⟨y, hy, state, -⟩ := h j x hx
  rw [stateOf_of_getTile hx, stateOf_of_getTile hy, state]

theorem runAct_tile {a : Act} {k : Nat} (ht : a.tile = some k) (hpart : inSafe s uPart = false) (hcode : a.code ≠ 0x0B) : runAct s a = runTile s a k := by
  have permitted : allowed s a = true := by
    unfold allowed
    rw [hpart, beq_false_of_ne hcode, Bool.and_false]
    rfl
  unfold runAct
  rw [permitted, ht]
  rfl

end

section
variable {v : State} {l : List Item} {acts : List Act} {ix sp q : Nat}

/-- The actions of the firings of LBIST_TILE peals and of one UNWATCH peal. -/
structure Firings (sp : Nat) (acts : List Act) : Prop where
  order : acts.Pairwise fun a b => a.seq < b.seq
  act : ∀ b ∈ acts, b.cmd = none ∧ b.cls = 8 ∧ (∃ k, b.tile = some k) ∧ (b.code = 4 ∨ (b.code = 6 ∧ b.param % 2 = 0))

theorem Firings.mine (h : Firings sp acts) : (onTileActs acts sp).Pairwise fun a b => a.seq < b.seq := h.order.filter _

theorem Firings.lowest (h : Firings sp acts) {a : Act} (ha : a ∈ onTileActs acts sp) : a.cls = lowestCls (onTileActs acts sp) := by
  have cls {b : Act} (hb : b ∈ onTileActs acts sp) : b.cls = 8 := (h.act b (mem_onTileActs.1 hb).1).2.1
  exact (lowestCls_eq ha (by rw [cls ha]; decide) fun b hb => by rw [cls ha, cls hb]).symm

/-- Of the UNWATCH actions on a tile the first stands, and no other. -/
theorem Firings.first (h : Firings sp acts) {b : Act} (hb : b ∈ acts) (hc : b.code = 6) (ht : b.tile = some sp) :
    ∃ a ∈ acts, a.code = 6 ∧ a.tile = some sp ∧ fate acts a = .stands ∧ ∀ c ∈ acts, c.seq ≠ a.seq → fate acts c = .stands → c.PassesBy sp := by
  obtain ⟨a, ha, find, pa, -⟩ := find_first (p := fun b => b.code == 6) h.mine (mem_onTileActs.2 ⟨hb, ht⟩) (beq_iff_eq.2 hc)
  have first {c : Act} (hc : c ∈ onTileActs acts sp) (h6 : c.code = 6) : a.seq ≤ c.seq := by
    obtain ⟨d, -, find', -, le⟩ := find_first (p := fun b => b.code == 6) h.mine hc (beq_iff_eq.2 h6)
    obtain rfl := Option.some.inj (find.symm.trans find')
    exact le
  have own : a ∈ acts ∧ a.tile = some sp := mem_onTileActs.1 ha
  have code : a.code = 6 := beq_iff_eq.1 pa
  have sev {c : Act} (h6 : c.code = 6) : stateSev c.code = some 0 := by rw [h6]; rfl
  refine ⟨a, own.1, code, own.2, ?_, fun c hc hne stands => ?_⟩
  · rw [fate_tile own.2]
    refine fateOn_top h.mine (h.lowest ha) ha (sev code) fun c hc _ x hx => ?_
    obtain ⟨-, -, -, h4 | ⟨h6, -⟩⟩ := h.act c (mem_onTileActs.1 hc).1
    · rw [h4] at hx
      cases hx
    · exact .inr ⟨Option.some.inj (hx.symm.trans (sev h6)), first hc h6⟩
  · obtain ⟨hcmd, cls, ⟨k, hk⟩, h4 | ⟨h6, -⟩⟩ := h.act c hc
    · exact ⟨k, hk, .inl h4⟩
    · refine ⟨k, hk, .inr ⟨h6, ?_⟩⟩
      rintro rfl
      have mine : c ∈ onTileActs acts sp := mem_onTileActs.2 ⟨hc, hk⟩
      rw [fate_tile hk] at stands
      exact fateOn_later h.mine (h.lowest mine) (sev h6) ha ((h.lowest ha).trans (h.lowest mine).symm) (lt_of_le_of_ne (first mine h6) hne.symm) (sev code) hcmd stands

/-- R225, R226: firings of LBIST_TILE and UNWATCH alone leave a tile its state, but for an UNWATCH on it whose exit conditions hold. -/
theorem Firings.resolve (h : Firings sp acts) (v : State) (hpart : inSafe v uPart = false) {x : Tile} (hx : getTile v sp = some x) :
    stateOf (resolve ⟨v, acts, []⟩) sp = (if (∃ b ∈ acts, b.code = 6 ∧ b.tile = some sp) ∧ watchExit v sp = true then stHealthy else x.state) ∧
      (resolve ⟨v, acts, []⟩).nvm.repairDue = v.nvm.repairDue ∧ ∃ y, getTile (resolve ⟨v, acts, []⟩) sp = some y := by
  have hcmd : ∀ b ∈ acts, b.cmd = none := fun b hb => (h.act b hb).1
  by_cases hex : ∃ b ∈ acts, b.code = 6 ∧ b.tile = some sp
  · obtain ⟨b, hb, hc, ht⟩ := hex
    obtain ⟨a, ha, code, tile, stands, others⟩ := h.first hb hc ht
    obtain ⟨w, before, after⟩ := resolve_sees hcmd h.order ha stands others v
    obtain ⟨y, hy, view⟩ := before.getTile_some hx
    have param : a.param % 2 = 0 := ((h.act a ha).2.2.2.resolve_left fun h4 => by rw [code] at h4; cases h4).2
    have ran : runAct w a = actUnwatch w sp a.peal a.cls a.param a.tick ((a.input.map (·.uid)).getD 0) ((a.input.map (·.code)).getD 0) := by
      rw [runAct_tile tile ((inSafe_of_same before.same uPart (by decide)).trans hpart) (by rw [code]; decide)]
      unfold runTile
      simp only [code]
    rw [ran] at after
    have at_ := actUnwatch_at w sp a.peal a.cls a.param a.tick ((a.input.map (·.uid)).getD 0) ((a.input.map (·.code)).getD 0)
    obtain ⟨z, hz, -⟩ := at_.tl.getTile_some hy
    obtain ⟨z', hz', -⟩ := after.getTile_some hz
    refine ⟨?_, after.due.trans (at_.due.trans before.due), z', hz'⟩
    rw [after.stateOf, stateOf_actUnwatch hy _ _ param, before.watchExit, (Prod.mk.inj view).1]
    exact if_congr (by rw [and_iff_right ⟨b, hb, hc, ht⟩]) rfl rfl
  · have passes : ∀ b ∈ acts, fate acts b = .stands → b.PassesBy sp := fun b hb _ => by
      obtain ⟨-, -, ⟨k, hk⟩, hc⟩ := h.act b hb
      exact ⟨k, hk, hc.imp id fun h6 => ⟨h6.1, fun e => hex ⟨b, hb, h6.1, by rw [hk, e]⟩⟩⟩
    have by_ := resolve_bystander hcmd v passes
    obtain ⟨y, hy, -⟩ := by_.getTile_some hx
    refine ⟨?_, by_.due, y, hy⟩
    rw [by_.stateOf, stateOf_of_getTile hx, if_neg fun h => hex h.1]

end

end Sys2Proof.Machine
end

section
/-! Firings of one UNWATCH peal (R225, R226). -/

set_option Elab.async false

namespace Sys2Proof.Machine

/-! ### Firings of one UNWATCH peal among firings of LBIST_TILE (R225, R226) -/

section
variable {v : State} {l : List Item} {rest : List Act} {ix q sp : Nat}

/-- The firings of a list are of the peal `ix`, which is an UNWATCH with PARAM[0] = 0, and of LBIST_TILE peals. -/
structure FiresUnwatch (v : State) (ix : Nat) (l : List Item) : Prop where
  only : ∀ x ∈ l, ∃ d k p, x = .timer d k p ∧ (k = ix ∨ plAct (pealAt v k) = 4)
  act : plAct (pealAt v ix) = 6
  param : plParam (pealAt v ix) % 2 = 0

/-- The peal of a firing. -/
theorem FiresUnwatch.peal (h : FiresUnwatch v ix l) {d : Bool} {k p : Nat} (hx : .timer d k p ∈ l) : k = ix ∨ plAct (pealAt v k) = 4 := by
  obtain ⟨d', k', p', e, hk⟩ := h.only _ hx
  obtain ⟨-, rfl, -⟩ := Item.timer.inj e
  exact hk

theorem FiresUnwatch.timers (h : FiresUnwatch v ix l) : ∀ x ∈ l, x.IsTimer := fun x hx => by
  obtain ⟨d, k, p, e, -⟩ := h.only x hx
  exact ⟨d, k, p, e⟩

/-- The actions of a firing. -/
theorem FiresUnwatch.acts (h : FiresUnwatch v ix l) {d : Bool} {k p : Nat} (hx : .timer d k p ∈ l) {b : Act} : b ∈ pealActs v 8 k (pealAt v k) p none ↔
    ∃ j, j ∈ targets v (pealAt v k) p none ∧ condOk v (pealAt v k) p (some j) = true ∧ b = pealAct v 8 k (pealAt v k) p none j := by
  refine mem_pealActs ?_ 
  obtain rfl | h4 := h.peal hx
  · rw [h.act]
    rfl
  · rw [h4]
    rfl

/-- The actions that such firings gather, in order. -/
theorem FiresUnwatch.firings (h : FiresUnwatch v ix l) (hs : l.Pairwise fun a b => keyLe (itemKey a) (itemKey b) = true) (n sp : Nat) :
    Firings sp (l.foldl (itemActs n) ⟨v, [], []⟩).acts := by
  obtain ⟨_, gathered⟩ := items_gathered (n := n) (m := ⟨v, [], []⟩) (gathered_nil 0) hs fun _ _ => Nat.zero_le _
  obtain ⟨acts, e, hacts⟩ := timers_gather (n := n) h.timers ⟨v, [], []⟩
  refine ⟨gathered.order.imp fun h => h.2, ?_⟩
  rw [e]
  refine timers_forall (v := v) (fun _ _ => Iff.rfl) hacts fun d k p hx b hb => ?_
  obtain ⟨j, -, -, rfl⟩ := (h.acts hx).1 hb
  refine ⟨rfl, rfl, ⟨j, rfl⟩, (h.peal hx).symm.imp id ?_⟩
  rintro rfl
  exact ⟨h.act, h.param⟩

/-- Whether they gather an UNWATCH on a tile of the partition that the peal fires for, which is one of its targets. -/
theorem FiresUnwatch.unwatches (h : FiresUnwatch v ix l) (n : Nat) {d : Bool} (hix : .timer d ix q ∈ l) {x : Tile} (hx : getTile v sp = some x) (hq : x.part = q)
    (ht : plTgt (pealAt v ix) = 3 ∨ (plTgt (pealAt v ix) = 1 ∧ plIdx (pealAt v ix) = sp)) (hc : plCond (pealAt v ix) ≤ 1) (hn : plNeg (pealAt v ix) = false) :
    (∃ b ∈ (l.foldl (itemActs n) ⟨v, [], []⟩).acts, b.code = 6 ∧ b.tile = some sp) ↔ plCond (pealAt v ix) = 0 ∨ watchExit v sp = true := by
  obtain ⟨acts, e, hacts⟩ := timers_gather (n := n) h.timers ⟨v, [], []⟩
  have exists_ := hacts (fun b => b.code = 6 ∧ b.tile = some sp) fun _ _ => Iff.rfl
  have some_ : getTile v sp ≠ none := by rw [hx]; exact Option.some_ne_none x
  rw [e]
  refine exists_.trans ⟨?_, fun hok => ?_⟩
  · rintro ⟨d', k, p, hx', b, hb, code, tile⟩
    obtain ⟨j, -, hok, rfl⟩ := (h.acts hx').1 hb
    obtain rfl : j = sp := Option.some.inj tile
    obtain rfl | h4 := h.peal hx'
    · exact (condOk_exit hc hn some_ p).1 hok
    · cases h4.symm.trans code
  · refine ⟨d, ix, q, hix, _, (h.acts hix).2 ⟨sp, ?_, (condOk_exit hc hn some_ q).2 hok, rfl⟩, h.act, rfl⟩
    have mine : sp ∈ (v.tiles.filter fun t => t.part == q).map (·.ix) :=
      List.mem_map.2 ⟨x, List.mem_filter.2 ⟨List.mem_of_find?_eq_some hx, beq_iff_eq.2 hq⟩, getTile_ix hx⟩
    unfold targets
    obtain ht | ⟨ht, hi⟩ := ht
    · rw [ht]
      exact mine
    · rw [ht]
      exact List.mem_filter.2 ⟨mine, beq_iff_eq.2 hi.symm⟩

end

/-- A tick that takes all it samples. -/
theorem withinLimits_all {l : List Item} (hl : l.length ≤ 256) (ht : ∀ x ∈ l, x.IsTimer) : (withinLimits (sampled l)).1 = sampled l :=
  takeStep_all ((sampled_perm l).length_eq.trans_le hl) fun x hx => by
    obtain ⟨d, k, q, rfl⟩ := ht x ((sampled_perm l).mem_iff.1 hx)
    rfl

theorem takenWords_timers {l : List Item} (ht : ∀ x ∈ l, x.IsTimer) : takenWords l = [] := List.filterMap_eq_nil_iff.2 fun x hx => by
  obtain ⟨d, k, q, rfl⟩ := ht x hx
  rfl

/-- R225, R226: a tick whose firings are of one UNWATCH and of LBIST_TILE takes a tile from WATCH to HEALTHY when its exit conditions hold. -/
theorem belfryTick_unwatch {s : State} (hrun : s.time.run = true) (hstep : s.belfry.run = true) {c : Bool} {ix q sp : Nat} {x : Tile} {r : RecovParams}
    (hix : .timer c ix q ∈ itemsAt (atTick s) (nextBelfry s)) (hlen : (itemsAt (atTick s) (nextBelfry s)).length ≤ 256)
    (hfires : FiresUnwatch s ix (itemsAt (atTick s) (nextBelfry s))) (hpart : inSafe s uPart = false) (hrep : s.nvm.repairDue = [])
    (hx : getTile s sp = some x) (hq : x.part = q) (hr : recov s = some r)
    (ht : plTgt (pealAt s ix) = 3 ∨ (plTgt (pealAt s ix) = 1 ∧ plIdx (pealAt s ix) = sp)) (hc : plCond (pealAt s ix) ≤ 1) (hn : plNeg (pealAt s ix) = false) :
    ∃ t, exec .belfryTick s = .next t ∧ stateOf t sp = if x.state = stWatch ∧ ∃ w, x.watch = some w ∧
      r.watchMin ≤ (atTick s).time.tick.toNat - w.since.toNat ∧ r.watchPass ≤ w.passes ∧ w.slice = true then stHealthy else x.state := by
  have perm := sampled_perm (itemsAt (atTick s) (nextBelfry s))
  have timers : ∀ y ∈ sampled (itemsAt (atTick s) (nextBelfry s)), y.IsTimer := fun y hy => hfires.timers y (perm.mem_iff.1 hy)
  have all := withinLimits_all hlen hfires.timers
  obtain ⟨v, gathers, before, tick, -, tiles, -⟩ := tick_gathers all (takenWords_timers timers)
  have peal (k : Nat) : pealAt v k = pealAt s k := pealAt_of_image before.image_eq k
  have own : getTile v sp = some x := by rw [getTile, tiles timers, ← getTile, hx]
  have recov_ : recov v = some r := by rw [recov, before.image_eq, ← recov, hr]
  have fires : FiresUnwatch v ix (sampled (itemsAt (atTick s) (nextBelfry s))) := by
    refine ⟨fun y hy => ?_, by rw [peal, hfires.act], by rw [peal, hfires.param]⟩
    obtain ⟨d, k, p, e, hk⟩ := hfires.only y (perm.mem_iff.1 hy)
    exact ⟨d, k, p, e, by rwa [peal]⟩
  rw [← peal] at ht hc hn
  have unwatches := fires.unwatches (nextBelfry s) (perm.mem_iff.2 hix) own hq ht hc hn
  obtain ⟨acts, e, -⟩ := timers_gather (n := nextBelfry s) timers ⟨v, [], []⟩
  have firings := fires.firings (sampled_sorted _) (nextBelfry s) sp
  rw [e] at gathers firings unwatches
  obtain ⟨state, due, y, hy⟩ := firings.resolve v ((inSafe_of_same before uPart (by decide)).trans hpart) own
  change (resolve ⟨v, [] ++ acts, []⟩).nvm.repairDue = _ at due
  rw [← gathers] at state due hy
  obtain ⟨t, run, dwells⟩ := belfryTick_dwells hrun hstep (due.trans ((congrArg (·.repairDue) (before .nvm (by decide) :)).trans hrep))
  refine ⟨t, run, ?_⟩
  rw [dwells.stateOf hy, state, ← tick]
  refine if_congr ((and_congr_left' unwatches).trans (Iff.trans ?_ (watchExit_iff own recov_))) rfl rfl
  exact ⟨fun h => h.2, fun h => ⟨.inr h, h⟩⟩

end Sys2Proof.Machine
end

section
/-! DEAD actions, and one matched input among firings (R225, R341, R347). -/

set_option Elab.async false

namespace Sys2Proof.Machine

/-! ### A DEAD action (R225, R237) -/

section
variable {s t : State} {k : Nat}

/-- A DEAD tile is DEAD after what keeps the tiles. -/
theorem Keeps.stateOf_dead {m : List Fld} (h : Keeps m s t) (himage : s.image ≠ none) (hn : (s.tiles.map (·.ix)).Nodup) {x : Tile} (hx : getTile s k = some x)
    (hd : x.state = stDead) : stateOf t k = stDead := by
  obtain ⟨y, hy, -, dead, -⟩ := find?_ix_of_stays (h.tiles himage hn) hx
  exact (stateOf_of_getTile (s := t) hy).trans (dead hd)

/-- R225: after a DEAD action its tile is DEAD. -/
theorem stateOf_actDead {x : Tile} (hx : getTile s k = some x) (himage : s.image ≠ none) (hn : (s.tiles.map (·.ix)).Nodup) (cause peal cls : Nat) (vtick : W64) :
    stateOf (actDead s k cause peal cls vtick) k = stDead := by
  unfold actDead
  split
  · next hd =>
    rw [stateOf, getTile, noopState_tiles, ← getTile, ← stateOf, hd]
  · have own := getTile_tileChanged hx x.state stDead none
    have ixs : (tileChanged s k x.state stDead none).tiles.map (·.ix) = s.tiles.map (·.ix) := (tileChanged_at s k x.state stDead none).tl.ixs
    have image : (tileChanged s k x.state stDead none).image = s.image := (tileChanged_at s k x.state stDead none).same.image_eq
    have changed : changeState s k stDead cause peal cls vtick 0 0 none =
        closeDead (sendFrame (tileChanged s k x.state stDead none) k (frameOf opDead x.state stDead cause peal cls vtick none)) k := by
      unfold changeState
      rw [onTile_some hx]
      rfl
    rw [changed]
    generalize tileChanged s k x.state stDead none = v at *
    have closed (f : OutFrame) : Keeps allFlds v (closeDead (sendFrame v k f) k) := closeDead_keeps k (sendFrame_keeps k f (Keeps.rfl_ _ v) (by decide)) (by decide)
    have dead {t : State} (h : Keeps allFlds v t) : stateOf t k = stDead := h.stateOf_dead (by rwa [image]) (by rwa [ixs]) own rfl
    dsimp only
    split
    · exact dead (postReroute_keeps k (closed _) (by decide))
    · exact dead (closed _)

end

/-! ### One matched input among firings (R341, R347) -/

section
variable {v : State} {i : Input} {ix n : Nat} {p : Peal}

/-- R347: an input that one live peal matches, which does not count, gives that peal's action on the input's own tile. -/
theorem input_gathers (c : Bool) (hsafe : inSafe v uBlf = false) (hm : (allPeals v).filter (fun x => reactMatch v i x.2) = [(ix, p)]) (live : pealLive v ix = true)
    (hc : counting p = false) (ht : tileAct (plAct p) = true) (targets_ : targets v p i.part (some i) = [i.spire])
    (cond : condOk v p i.part (some i.spire) = true) :
    ∃ d, itemActs n ⟨v, [], []⟩ (.input c i) = ⟨disarmedSet v d, [pealAct v i.cls ix p i.part (some i) i.spire], []⟩ := by
  have none_ : safeActs v i = [] := if_neg fun h => absurd (hsafe.symm.trans h.1) (by decide)
  have plain : Plain v [(ix, p)] ⟨v, [], []⟩ := ⟨⟨v.belfry.disarmed, rfl⟩, fun _ _ => rfl, rfl⟩
  obtain ⟨⟨⟨d, st⟩, -, fires⟩, acts⟩ := fireAt_plain (n := n) (cls := i.cls) (part := i.part) (i := some i) plain hc (List.not_mem_nil)
  have given : pealActs v i.cls ix p i.part (some i) = [pealAct v i.cls ix p i.part (some i) i.spire] := by
    rw [pealActs_tileAct ht, targets_, List.filter_cons, cond]
    rfl
  rw [if_pos live, given] at acts
  refine ⟨d, ?_⟩
  have once : itemActs n ⟨v, [], []⟩ (.input c i) = fireAt n i.cls i.part (some i) ⟨v, [], []⟩ (ix, p) := by
    unfold itemActs
    dsimp only
    rw [none_, hm]
    rfl
  rw [once]
  exact Matched.mk.injEq .. ▸ ⟨st, acts, fires⟩

/-- The first of a tick's actions is of a lower class than the others, which are of LBIST_TILE and UNWATCH firings. -/
structure Precedes (a : Act) (rest : List Act) : Prop where
  order : (a :: rest).Pairwise fun a b => a.seq < b.seq
  cls : a.cls ≤ 7
  cmd : a.cmd = none
  act : ∀ b ∈ rest, b.cmd = none ∧ b.cls = 8 ∧ (∃ k, b.tile = some k) ∧ (b.code = 4 ∨ b.code = 6)

/-- R341: it stands, and every other on its tile is cancelled: the tile sees it alone. -/
theorem Precedes.resolve {a : Act} {rest : List Act} (h : Precedes a rest) {sp : Nat} (ht : a.tile = some sp) {sev : Nat} (hs : stateSev a.code = some sev) (v : State) :
    ∃ w, Bystander sp v w ∧ Bystander sp (runAct w a) (resolve ⟨v, a :: rest, []⟩) := by
  have hcmd : ∀ b ∈ a :: rest, b.cmd = none := List.forall_mem_cons.2 ⟨h.cmd, fun b hb => (h.act b hb).1⟩
  have mine : a ∈ onTileActs (a :: rest) sp := mem_onTileActs.2 ⟨List.mem_cons_self, ht⟩
  have higher {b : Act} (hb : b ∈ rest) : a.cls < b.cls := h.cls.trans_lt (by rw [(h.act b hb).2.1]; decide)
  have lowest : ∀ b ∈ onTileActs (a :: rest) sp, a.cls ≤ b.cls := fun b hb => by
    obtain rfl | hb := List.mem_cons.1 (mem_onTileActs.1 hb).1
    · exact le_rfl
    · exact (higher hb).le
  have stands : fate (a :: rest) a = .stands := by
    rw [fate_tile ht]
    refine fateOn_top (h.order.filter _) (lowestCls_eq mine (h.cls.trans (by decide)) lowest).symm mine hs fun b hb hbc x hx => ?_
    obtain rfl | hb := List.mem_cons.1 (mem_onTileActs.1 hb).1
    · exact .inr ⟨Option.some.inj (hx.symm.trans hs), le_rfl⟩
    · exact absurd hbc (higher hb).ne'
  refine resolve_sees hcmd h.order List.mem_cons_self stands (fun b hb hne st => ?_) v
  obtain rfl | hb := List.mem_cons.1 hb
  · exact absurd rfl hne
  · obtain ⟨-, -, ⟨k, hk⟩, hc⟩ := h.act b hb
    refine ⟨k, hk, hc.imp id fun h6 => ⟨h6, ?_⟩⟩
    rintro rfl
    rw [fate_higher hk ⟨a, mine, higher hb⟩] at st
    cases st

/-- What an input and the firings beside it gather: its peal's action first. -/
theorem firings_after {l : List Item} {a : Act} {d : List Nat} (hl : ∀ x ∈ l, x.IsTimer) (c : Bool)
    (hacts : ∀ e k q, .timer e k q ∈ l → plAct (pealAt v k) = 4 ∨ plAct (pealAt v k) = 6)
    (gives : itemActs n ⟨v, [], []⟩ (.input c i) = ⟨disarmedSet v d, [a], []⟩) (hcls : a.cls ≤ 7) (hcmd : a.cmd = none)
    (hs : (Item.input c i :: l).Pairwise fun a b => keyLe (itemKey a) (itemKey b) = true) :
    ∃ rest, (Item.input c i :: l).foldl (itemActs n) ⟨v, [], []⟩ = ⟨disarmedSet v d, a :: rest, []⟩ ∧ Precedes a rest := by
  obtain ⟨rest, e, hrest⟩ := timers_gather (n := n) hl ⟨disarmedSet v d, [a], []⟩
  have all : (Item.input c i :: l).foldl (itemActs n) ⟨v, [], []⟩ = ⟨disarmedSet v d, a :: rest, []⟩ := by rw [List.foldl_cons, gives, e]; rfl
  obtain ⟨_, gathered⟩ := items_gathered (n := n) (m := ⟨v, [], []⟩) (gathered_nil 0) hs fun _ _ => Nat.zero_le _
  rw [all] at gathered
  refine ⟨rest, all, gathered.order.imp fun h => h.2, hcls, hcmd, timers_forall (v := disarmedSet v d) (fun _ _ => Iff.rfl) hrest fun e k q hx b hb => ?_⟩
  have act : plAct (pealAt (disarmedSet v d) k) = 4 ∨ plAct (pealAt (disarmedSet v d) k) = 6 := hacts e k q hx
  have tile : tileAct (plAct (pealAt (disarmedSet v d) k)) = true := by
    obtain h4 | h6 := act
    · rw [h4]
      rfl
    · rw [h6]
      rfl
  obtain ⟨j, -, -, rfl⟩ := (mem_pealActs tile).1 hb
  exact ⟨rfl, rfl, ⟨j, rfl⟩, act⟩

end

end Sys2Proof.Machine
end

section
/-! A tick at which one peal matches one input (R225, R341, R347). -/

set_option Elab.async false

namespace Sys2Proof.Machine

/-! ### A tick at which one peal matches one input (R225, R341, R347) -/

section
variable {s : State} {c : Bool} {i : Input} {fired : List Item} {ix : Nat} {p : Peal} {tl : Tile}

/-- A tick samples an input and firings of LBIST_TILE and UNWATCH; one live peal of another code matches the input, unconditionally, on its own tile. -/
structure OneMatch (s : State) (c : Bool) (i : Input) (fired : List Item) (ix : Nat) (p : Peal) (tl : Tile) : Prop where
  all : itemsAt (atTick s) (nextBelfry s) = .input c i :: fired
  firings : ∀ x ∈ fired, ∃ d k q, x = .timer d k q ∧ (plAct (pealAt s k) = 4 ∨ plAct (pealAt s k) = 6)
  blf : inSafe s uBlf = false
  part : inSafe s uPart = false
  nodup : (s.tiles.map (·.ix)).Nodup
  tile : getTile s i.spire = some tl
  mine : tl.part = i.part
  spire : i.spire ≠ 0xFFFF
  cls : i.cls ≤ 7
  peals : (allPeals s).filter (fun x => reactMatch (atTick s) i x.2) = [(ix, p)]
  live : pealLive s ix = true
  counts : counting p = false
  own : plTgt p = 0
  cond : plCond p = 0
  neg : plNeg p = false
  act : plAct p = 5 ∨ plAct p = 7 ∨ plAct p = 8

/-- The state that the tile's action finds: its tile as it was, and no repair come due. -/
structure FindsTile (s w : State) (sp : Nat) (x : Tile) : Prop where
  tile : ∃ y, getTile w sp = some y ∧ y.state = x.state
  part : inSafe w uPart = false
  image : w.image = s.image
  nodup : (w.tiles.map (·.ix)).Nodup
  due : w.nvm.repairDue = s.nvm.repairDue

theorem OneMatch.timers (h : OneMatch s c i fired ix p tl) : ∀ x ∈ fired, x.IsTimer := fun x hx => by
  obtain ⟨d, k, q, e, -⟩ := h.firings x hx
  exact ⟨d, k, q, e⟩

/-- The tick takes the input first, and of the firings what its limits allow. -/
theorem OneMatch.taken (h : OneMatch s c i fired ix p tl) : ∃ l, (withinLimits (sampled (itemsAt (atTick s) (nextBelfry s)))).1 = .input c i :: l ∧ (∀ x ∈ l, x ∈ fired) ∧
    (Item.input c i :: l).Pairwise fun a b => keyLe (itemKey a) (itemKey b) = true := by
  have first : sampled (itemsAt (atTick s) (nextBelfry s)) = .input c i :: sampled fired := by
    rw [h.all]
    refine sampled_first fun y hy => (keyLe_iff _ _).2 (.inl ?_)
    obtain ⟨d, k, q, rfl⟩ := h.timers y hy
    exact Nat.lt_succ_of_le h.cls
  obtain ⟨l, e, sub⟩ := withinLimits_first (.input c i) (sampled fired)
  have sorted := sampled_sorted (itemsAt (atTick s) (nextBelfry s))
  rw [first] at sorted ⊢
  exact ⟨l, e, fun x hx => (sampled_perm fired).mem_iff.1 (sub.subset hx), sorted.sublist (sub.cons_cons _)⟩

theorem OneMatch.image (h : OneMatch s c i fired ix p tl) : s.image ≠ none := by
  intro none_
  have peals := h.peals
  rw [allPeals, none_] at peals
  cases peals

theorem pealAt_of_mem {v : State} (h : (ix, p) ∈ allPeals v) : pealAt v ix = p := by
  unfold allPeals at h
  obtain ⟨⟨q, k⟩, hq, e⟩ := List.mem_map.1 h
  obtain ⟨rfl, rfl⟩ := Prod.mk.inj e
  have at_ := List.mem_zipIdx_iff_getElem?.1 hq
  unfold pealAt
  cases hi : v.image with
  | none =>
    rw [hi] at at_
    exact absurd at_ (by simp)
  | some im =>
    rw [hi] at at_
    exact congrArg (fun o => Option.getD o 0) at_

/-- The peal that matches is not among those that fire. -/
theorem OneMatch.apart (h : OneMatch s c i fired ix p tl) {l : List Item} (hl : ∀ x ∈ l, x ∈ fired) : ix ∉ (carriedTimers (.input c i :: l)).map (·.1) := by
  intro hx
  obtain ⟨⟨k, q⟩, hk, rfl⟩ := List.mem_map.1 hx
  obtain ⟨y, hy, e⟩ := List.mem_filterMap.1 hk
  obtain rfl | hy := List.mem_cons.1 hy
  · cases e
  · obtain ⟨d, k', q', rfl, code⟩ := h.firings y (hl y hy)
    obtain ⟨rfl, -⟩ := Prod.mk.inj (Option.some.inj e)
    have mem : (k', p) ∈ allPeals s := (List.mem_filter.1 (h.peals ▸ List.mem_singleton_self (k', p))).1
    rw [pealAt_of_mem mem] at code
    have := h.act
    omega

theorem allPeals_of_image {s v : State} (h : v.image = s.image) : allPeals v = allPeals s := by rw [allPeals, h, ← allPeals]

/-- R341, R347: at such a tick the tile sees the peal's action alone. -/
theorem OneMatch.sees (h : OneMatch s c i fired ix p tl) : ∃ w, FindsTile s w i.spire tl ∧
    Bystander i.spire (runTile w (pealAct w i.cls ix p i.part (some i) i.spire) i.spire) (sampleTick (atTick s) (nextBelfry s)) := by
  obtain ⟨l, taken, sub, sorted⟩ := h.taken
  have timers : ∀ x ∈ l, x.IsTimer := fun x hx => h.timers x (sub x hx)
  have words : takenWords (.input c i :: l) = [] := show takenWords l = [] from takenWords_timers timers
  obtain ⟨v, gathers, before, -, tiles, -, disarmed⟩ := tick_gathers taken words
  have image : v.image = s.image := before.image_eq
  have inSafe_ (u : Nat) : inSafe v u = inSafe s u := inSafe_of_same before u (by decide)
  obtain ⟨x, hx, r⟩ := tiles.getTile_some h.tile
  have nodup : (v.tiles.map (·.ix)).Nodup := by rw [tiles.ixs]; exact h.nodup
  have live : pealLive v ix = true := by
    rw [pealLive, disarmed ix (h.apart sub), inSafe_, ← pealLive]
    exact h.live
  have matched : (allPeals v).filter (fun x => reactMatch v i x.2) = [(ix, p)] := by
    rw [allPeals_of_image image, ← h.peals]
    refine List.filter_congr fun y _ => ?_
    have state : stateOf v i.spire = stateOf (atTick s) i.spire := (tiles.stateOf (by decide) _).trans
      (by rw [stateOf, stateOf, getTile, getTile, (atTick_same s .tiles (by decide) :)])
    rw [reactMatch, reactMatch, state]
  have act : tileAct (plAct p) = true := by
    obtain e | e | e := h.act <;> rw [e] <;> rfl
  obtain ⟨d, gives⟩ := input_gathers (n := nextBelfry s) c ((inSafe_ uBlf).trans h.blf) matched live h.counts act
    (targets_own nodup hx ((r.same .part (by decide)).trans h.mine) h.spire h.own) (condOk_none h.cond h.neg v i.part _)
  obtain ⟨rest, all, precedes⟩ := firings_after timers c (fun e k q hk => by
    obtain ⟨e', k', q', eq, code⟩ := h.firings _ (sub _ hk)
    obtain ⟨-, rfl, -⟩ := Item.timer.inj eq
    rwa [pealAt_of_image image]) gives h.cls rfl sorted
  have sev : ∃ sev, stateSev (plAct p) = some sev := by
    obtain e | e | e := h.act <;> rw [e] <;> exact ⟨_, rfl⟩
  obtain ⟨sev, hsev⟩ := sev
  obtain ⟨w, to_, from_⟩ := precedes.resolve (a := pealAct v i.cls ix p i.part (some i) i.spire) rfl hsev (disarmedSet v d)
  rw [all] at gathers
  obtain ⟨y, hy, view⟩ := to_.getTile_some (x := x) hx
  have part : inSafe w uPart = false := (inSafe_of_same to_.same uPart (by decide)).trans ((inSafe_ uPart).trans h.part)
  refine ⟨w, ⟨⟨y, hy, (Prod.mk.inj view).1.trans (r.same .state (by decide))⟩, part, to_.same.image_eq.trans image, ?_, ?_⟩, ?_⟩
  · rw [to_.ixs]
    exact nodup
  · exact to_.due.trans (congrArg (·.repairDue) (before .nvm (by decide) :))
  · rw [gathers]
    have ran : runAct w (pealAct v i.cls ix p i.part (some i) i.spire) = runTile w (pealAct v i.cls ix p i.part (some i) i.spire) i.spire :=
      runAct_tile rfl part fun e => by
        have e : plAct p = 0x0B := e
        have := h.act
        omega
    rwa [ran] at from_

/-- R225: WATCH takes a HEALTHY tile to WATCH, and no other. -/
theorem OneMatch.watch (h : OneMatch s c i fired ix p tl) (h5 : plAct p = 5) :
    stateOf (sampleTick (atTick s) (nextBelfry s)) i.spire = (if tl.state = stHealthy then stWatch else tl.state) ∧
      (sampleTick (atTick s) (nextBelfry s)).nvm.repairDue = s.nvm.repairDue ∧ ∃ y, getTile (sampleTick (atTick s) (nextBelfry s)) i.spire = some y := by
  obtain ⟨w, finds, seen⟩ := h.sees
  obtain ⟨x, hx, state⟩ := finds.tile
  have ran : runTile w (pealAct w i.cls ix p i.part (some i) i.spire) i.spire = actWatch w i.spire ix i.cls i.tick i.code i.uid := by
    unfold runTile
    simp only [show (pealAct w i.cls ix p i.part (some i) i.spire).code = 5 from h5]
    rfl
  rw [ran] at seen
  have at_ := actWatch_at w i.spire ix i.cls i.tick i.code i.uid
  obtain ⟨y, hy, -⟩ := at_.tl.getTile_some hx
  obtain ⟨z, hz, -⟩ := seen.getTile_some hy
  exact ⟨by rw [seen.stateOf, stateOf_actWatch hx, state], seen.due.trans (at_.due.trans finds.due), z, hz⟩

/-- A FENCE frame that a tile shows stays. -/
theorem fenceSent_of_view {x y : Tile} (h : tileView y = tileView x) (hx : x.FenceSent) : y.FenceSent := by
  simp only [tileView, Prod.mk.injEq] at h
  obtain ⟨-, -, out, next⟩ := h
  rwa [Tile.FenceSent, out, next]

/-- R225, R231: FENCE takes a HEALTHY or WATCH tile to FENCED, and its frame is out or waits. -/
theorem OneMatch.fence (h : OneMatch s c i fired ix p tl) (h7 : plAct p = 7) :
    stateOf (sampleTick (atTick s) (nextBelfry s)) i.spire = (if tl.state < stFenced then stFenced else tl.state) ∧
      (sampleTick (atTick s) (nextBelfry s)).nvm.repairDue = s.nvm.repairDue ∧
      ∃ y, getTile (sampleTick (atTick s) (nextBelfry s)) i.spire = some y ∧ (tl.state < stFenced → y.FenceSent) := by
  obtain ⟨w, finds, seen⟩ := h.sees
  obtain ⟨x, hx, state⟩ := finds.tile
  have ran : runTile w (pealAct w i.cls ix p i.part (some i) i.spire) i.spire = actFence w i.spire (causeOf (some i)) ix i.cls i.tick := by
    unfold runTile
    simp only [show (pealAct w i.cls ix p i.part (some i) i.spire).code = 7 from h7]
    rfl
  rw [ran] at seen
  have at_ := actFence_at w i.spire (causeOf (some i)) ix i.cls i.tick
  obtain ⟨y, hy, -⟩ := at_.tl.getTile_some hx
  obtain ⟨z, hz, view⟩ := seen.getTile_some hy
  refine ⟨by rw [seen.stateOf, stateOf_actFence hx, state], seen.due.trans (at_.due.trans finds.due), z, hz, fun hlt => ?_⟩
  obtain ⟨y', hy', sent⟩ := actFence_sent hx (by rwa [state]) (causeOf (some i)) ix i.cls i.tick
  obtain rfl := Option.some.inj (hy.symm.trans hy')
  exact fenceSent_of_view view sent

/-- R225: DEAD takes any tile to DEAD. -/
theorem OneMatch.dead (h : OneMatch s c i fired ix p tl) (h8 : plAct p = 8) :
    ∃ y, getTile (sampleTick (atTick s) (nextBelfry s)) i.spire = some y ∧ y.state = stDead := by
  obtain ⟨w, finds, seen⟩ := h.sees
  obtain ⟨x, hx, -⟩ := finds.tile
  have image : w.image ≠ none := by
    rw [finds.image]
    exact h.image
  have ran : runTile w (pealAct w i.cls ix p i.part (some i) i.spire) i.spire = actDead w i.spire (causeOf (some i)) ix i.cls i.tick := by
    unfold runTile
    simp only [show (pealAct w i.cls ix p i.part (some i) i.spire).code = 8 from h8]
    rfl
  rw [ran] at seen
  have dead := seen.stateOf.trans (stateOf_actDead hx image finds.nodup (causeOf (some i)) ix i.cls i.tick)
  obtain ⟨y, hy⟩ := Option.ne_none_iff_exists'.1 (getTile_of_stateOf_ne_zero (by rw [dead]; decide))
  exact ⟨y, hy, (stateOf_of_getTile hy).symm.trans dead⟩

/-- The rest of a stepping tick keeps the tiles, whatever repairs are due. -/
theorem belfryTick_keepsTiles (hrun : s.time.run = true) (hstep : s.belfry.run = true) :
    ∃ t, exec .belfryTick s = .next t ∧ Keeps allFlds (sampleTick (atTick s) (nextBelfry s)) t := by
  obtain ⟨t, run, e, -⟩ := belfryTick_carries hrun hstep
  refine ⟨t, run, ?_⟩
  rw [e]
  exact endTick_keeps (orderFrames_keeps _ (tickWork_keeps (Keeps.rfl_ _ _) (by decide)) (by decide)) (by decide)

/-- R225, R341, R347: what such a tick does to the tile. -/
theorem OneMatch.belfryTick (h : OneMatch s c i fired ix p tl) (hrun : s.time.run = true) (hstep : s.belfry.run = true) (hrep : s.nvm.repairDue = []) :
    ∃ t, exec .belfryTick s = .next t ∧
      (plAct p = 5 → stateOf t i.spire = if tl.state = stHealthy then stWatch else tl.state) ∧
      (plAct p = 7 → stateOf t i.spire = (if tl.state < stFenced then stFenced else tl.state) ∧
        (tl.state < stFenced → ∃ x, getTile t i.spire = some x ∧ x.FenceSent)) ∧
      (plAct p = 8 → stateOf t i.spire = stDead) := by
  obtain ⟨t, run, keeps⟩ := belfryTick_keepsTiles hrun hstep
  have dwells (hdue : (sampleTick (atTick s) (nextBelfry s)).nvm.repairDue = s.nvm.repairDue) : TilesDwell (sampleTick (atTick s) (nextBelfry s)) t := by
    obtain ⟨t', run', dwells⟩ := belfryTick_dwells hrun hstep (hdue.trans hrep)
    obtain rfl := Host.Outcome.next.inj (run.symm.trans run')
    exact dwells
  refine ⟨t, run, fun h5 => ?_, fun h7 => ?_, fun h8 => ?_⟩
  · obtain ⟨state, due, y, hy⟩ := h.watch h5
    rw [(dwells due).stateOf hy, state]
  · obtain ⟨state, due, y, hy, sent⟩ := h.fence h7
    refine ⟨by rw [(dwells due).stateOf hy, state], fun hlt => ?_⟩
    obtain ⟨z, hz, -, kept⟩ := dwells due _ y hy
    exact ⟨z, hz, kept (sent hlt)⟩
  · obtain ⟨y, hy, dead⟩ := h.dead h8
    have through : Keeps allFlds s (sampleTick (atTick s) (nextBelfry s)) := sampleTick_keeps _ (atTick_keeps (Keeps.rfl_ _ s) (by decide)) (by decide)
    refine keeps.stateOf_dead ?_ ?_ hy dead
    · rw [through.image h.image]
      exact h.image
    · rw [stays_ix (through.tiles h.image h.nodup)]
      exact h.nodup

end

end Sys2Proof.Machine
end

section
/-! A stepping Belfry tick, whole (R337 to R351). Settles O60. -/

set_option Elab.async false

namespace Sys2Proof.Machine

/-! ### A stepping Belfry tick, whole (R337 to R351) -/

section
variable {acts mine : List Act} {a : Act} {sp : Nat}

/-- A state action beside one of higher severity, of the lowest class, is cancelled. -/
theorem fateOn_severer (hcls : a.cls = lowestCls mine) {b : Act} {v x : Nat} (hs : stateSev a.code = some v) (hb : b ∈ mine) (hbc : b.cls = a.cls)
    (hx : stateSev b.code = some x) (hlt : v < x) : fateOn mine a = .cancelled := by
  rw [fateOn_state hcls hs, if_pos]
  exact hlt.trans_le (le_topSev (mem_peersOf.2 ⟨hb, hbc.trans hcls⟩) hx)

/-- The severity of a state action (R342). -/
def actSev (b : Act) : Option Nat :=
  if b.code = 5 ∨ b.code = 0x21 then some 1 else if b.code = 6 then some 0 else if b.code = 7 then some 2 else if b.code = 8 then some 4 else none

theorem actSev_eq (b : Act) : actSev b = stateSev b.code := (stateSev_eq b.code).symm

variable (order : acts.Pairwise fun a b => a.seq < b.seq) (h15 : ∀ b ∈ acts, b.cls ≤ 15) (ha : a ∈ acts) (ht : a.tile = some sp)
  (stands : ∀ b ∈ onTileActs acts sp, a.cls ≤ b.cls)

include h15 ha ht stands in
theorem lowest_of_stands : a.cls = lowestCls (onTileActs acts sp) :=
  (lowestCls_eq (mem_onTileActs.2 ⟨ha, ht⟩) (h15 a ha) stands).symm

include order h15 ha ht stands in
/-- R342: what becomes of a state action of the lowest class. -/
theorem fate_severity {v : Nat} (hs : actSev a = some v) :
    ((∃ b ∈ onTileActs acts sp, b.cls = a.cls ∧ ∃ x, actSev b = some x ∧ v < x) → fate acts a = .cancelled) ∧
    ((∀ b ∈ onTileActs acts sp, b.cls = a.cls → ∀ x, actSev b = some x → x < v ∨ (x = v ∧ a.seq ≤ b.seq)) → fate acts a = .stands) ∧
    ((∃ b ∈ onTileActs acts sp, b.cls = a.cls ∧ b.seq < a.seq ∧ actSev b = some v) → a.cmd = none → fate acts a ≠ .stands) := by
  have lowest := lowest_of_stands h15 ha ht stands
  simp only [actSev_eq] at hs ⊢
  rw [fate_tile ht]
  refine ⟨fun ⟨b, hb, hbc, x, hx, hlt⟩ => fateOn_severer lowest hs hb hbc hx hlt,
    fun h => fateOn_top (order.filter _) lowest (mem_onTileActs.2 ⟨ha, ht⟩) hs h,
    fun ⟨b, hb, hbc, hlt, hbs⟩ hcmd => fateOn_later (order.filter _) lowest hs hb hbc hlt hbs hcmd⟩

include order h15 ha ht stands in
/-- R342: what becomes of another action of the lowest class. -/
theorem fate_code (hs : actSev a = none) :
    ((∀ b ∈ onTileActs acts sp, b.cls = a.cls → b.code = a.code → a.seq ≤ b.seq) → fate acts a = .stands) ∧
    ((∃ b ∈ onTileActs acts sp, b.cls = a.cls ∧ b.code = a.code ∧ b.seq < a.seq) → a.cmd = none → fate acts a = .merged) := by
  have lowest := lowest_of_stands h15 ha ht stands
  rw [actSev_eq] at hs
  rw [fate_tile ht]
  exact ⟨fun h => fateOn_firstCode (order.filter _) lowest (mem_onTileActs.2 ⟨ha, ht⟩) hs h,
    fun ⟨b, hb, hbc, hcode, hlt⟩ hcmd => fateOn_laterCode (order.filter _) lowest hs hb hbc hcode hlt hcmd⟩

end

/-- R340: a tick's limits. -/
theorem withinLimits_split (xs : List Item) :
    ((withinLimits xs).1 ++ (withinLimits xs).2).Perm xs ∧ (withinLimits xs).1.Sublist xs ∧ (withinLimits xs).2.Sublist xs ∧ (withinLimits xs).1.length ≤ 256 ∧
      ((withinLimits xs).1.filter lowItem).length ≤ 64 ∧
      ∀ x ∈ (withinLimits xs).2, (withinLimits xs).1.length = 256 ∨ (lowItem x = true ∧ ((withinLimits xs).1.filter lowItem).length = 64) := by
  have h := split_foldl xs
  rw [withinLimits_eq]
  have why := h.why
  rw [h.all, h.low] at why
  exact ⟨h.perm, h.taken, h.rest, h.all ▸ h.limit, h.low ▸ h.lowLimit, why⟩

/-- R337: the actions that a tick gathers run in ascending class, and within a class in sampled order. -/
theorem gathered_order (l : List Item) (n : Nat) (v : State) : ((withinLimits (sampled l)).1.foldl (itemActs n) ⟨v, [], []⟩).acts.Pairwise
    fun a b => a.cls ≤ b.cls ∧ a.seq < b.seq := by
  obtain ⟨_, gathered⟩ := items_gathered (n := n) (m := ⟨v, [], []⟩) (gathered_nil 0) ((sampled_sorted l).sublist (withinLimits_split (sampled l)).2.1)
    fun _ _ => Nat.zero_le _
  exact gathered.order

/-- Settles O60: the order and the limits of what is sampled, the actions gathered, their fates, and what a tick does to a tile whose one action stands. -/
theorem belfryTickResolves : Obligations.BelfryTickResolves := by
  unfold Obligations.BelfryTickResolves
  intro s hrun hstep
  obtain ⟨perm, taken, rest, most, low, why⟩ := withinLimits_split (sampled (itemsAt (atTick s) (nextBelfry s)))
  refine ⟨sampled_perm _, sampled_sorted _, sampled_stable _, perm, taken, rest, most, low, fun x hx => (why x hx).imp id (And.imp_left of_decide_eq_true),
    gathered_order _ _, ?_, fun v c i ix sp p hsafe hcount hp ht => ?_, fun acts a sp order h15 ha ht => ?_, fun _ _ => fate_wide, resolve_cancelCount,
    fun c i fired ix p tl all firings blf part hrep nodup tile mine spire cls peals live counts own cond neg => ?_,
    fun c ix q sp tl r hix hlen only blf part hrep nodup tile mine hr tgt act param cond neg => ?_⟩
  · obtain ⟨t, run, e, carried⟩ := belfryTick_carries hrun hstep
    simp only [carriedOf, Prod.mk.injEq] at carried
    exact ⟨t, run, e, carried⟩
  · refine (input_acts hsafe hcount hp ht).trans ?_
    rw [reactMatch_iff, mem_targets]
    constructor
    · rintro ⟨live, ⟨kind, trig, allp, cause, lo, hi, mask⟩, ⟨mine, tgt⟩, cond⟩
      exact ⟨live, kind, trig, allp, cause, lo, hi, mask, mine, tgt, cond⟩
    · rintro ⟨live, kind, trig, allp, cause, lo, hi, mask, mine, tgt, cond⟩
      exact ⟨live, ⟨kind, trig, allp, cause, lo, hi, mask⟩, ⟨mine, tgt⟩, cond⟩
  · exact ⟨fate_higher ht, fun stands v => fate_severity order h15 ha ht stands, fun stands => fate_code order h15 ha ht stands,
      fun hcmd hcode => cancel_records order h15 ha ht hcmd hcode⟩
  · have matched (hact : plAct p = 5 ∨ plAct p = 7 ∨ plAct p = 8) : OneMatch s c i fired ix p tl :=
      ⟨all, firings, blf, part, nodup, tile, mine, spire, cls, peals, live, counts, own, cond, neg, hact⟩
    by_cases hact : plAct p = 5 ∨ plAct p = 7 ∨ plAct p = 8
    · exact (matched hact).belfryTick hrun hstep hrep
    · obtain ⟨t, run, -⟩ := belfryTick_keepsTiles hrun hstep
      exact ⟨t, run, fun h => absurd (.inl h) hact, fun h => absurd (.inr (.inl h)) hact, fun h => absurd (.inr (.inr h)) hact⟩
  · exact belfryTick_unwatch hrun hstep hix hlen ⟨only, act, param⟩ part hrep tile mine hr tgt cond neg

end Sys2Proof.Machine
end
